-- ==== Sys2Proof/Word.lean ====
section
/-! DEFINITION. The machine's plain word types (spec R5, R6): bytes, 64-bit scalar words, 32-bit lanes, the
8,192-bit image of a vector register (R37), the 256-bit mask and the 1,920-bit route setting (R13). -/

namespace Sys2Proof

/-- A byte of memory. -/
abbrev Byte := BitVec 8

/-- A 64-bit scalar register or queue entry (R13). -/
abbrev Word := BitVec 64

/-- One 32-bit vector lane (R37). -/
abbrev Lane := BitVec 32

/-- The image of a vector register (R37): lane `k` is bits `32k+31..32k`, and element `j` of width `w` is bits
`jw+w-1..jw`. -/
abbrev VReg := BitVec 8192

/-- A lane mask of 256 bits (R13). -/
abbrev Mask := BitVec 256

/-- A Comb setting of 1,920 switch bits, bit `128k+s` for switch `s` of stage `k` (R195). -/
abbrev Route := BitVec 1920

/-- A physical compute die number, 0 to 127 (R332). -/
abbrev DieId := Fin 128

/-- A sequencer context of a die (R136). -/
abbrev CtxId := Fin 4

/-- A memory stack, by its site index (R307); its station carries the same number. -/
abbrev StackId := Fin 128

/-- A dependence token t0 to t63 (R13). -/
abbrev TokId := Fin 64

/-- A fold b0 to b127 (R149). -/
abbrev FoldId := Fin 128

/-- A command queue (R338). -/
abbrev QueueId := Fin 64

/-- An optical port (R403). -/
abbrev PortId := Fin 576

end Sys2Proof
end

