-- ==== Sys2Proof/Syntax.lean ====
section
/-! DEFINITION. The instruction set as syntax: one constructor of `Instr` for every row of the spec's table of
operations and events. Rows with an encoding (R70 to R92) are syllables of a bundle and carry their operands;
the other rows are steps of the part's own units and of the world outside it: what such a step acts on is an
`EvArg`, which the machine's agenda holds beside it. -/

namespace Sys2Proof

/-- An element type, by the type code of R36. -/
inductive Ty where
  | s8 | z8 | d8 | f16 | bf16 | s16 | z16 | f32 | s32 | z32 | s64 | z64 | l2
  deriving DecidableEq, Repr

/-- A scalar or vector source (R77): a named register or a queue entry, `queue n` being q(n+1). -/
inductive Src where
  | named (n : Fin 16)
  | queue (n : Fin 16)
  deriving DecidableEq, Repr

/-- A scalar or vector destination (R78): a named register, which is also pushed, or a push alone. -/
inductive Dst where
  | named (n : Fin 16)
  | push
  deriving DecidableEq, Repr

/-- A vector source modifier (R79). -/
inductive Mod where
  | none | bl | bh | sw | rb | b0 | sn | rn
  deriving DecidableEq, Repr

/-- A rounding mode (R14). -/
inductive Rnd where
  | rne | rz | ru | rd | rna
  deriving DecidableEq, Repr

/-- The saturate selection of a prefix syllable (R84). -/
inductive SatSel where
  | fromFmt | wrap | saturate
  deriving DecidableEq, Repr

/-- The flush selection of a prefix syllable (R84). -/
inductive FlushSel where
  | fromFmt | off | on
  deriving DecidableEq, Repr

/-- The fields of a prefix syllable (R84). -/
structure Pfx where
  tag : BitVec 8 := 0
  tagEn : Bool := false
  cls : Fin 16 := 0
  clsEn : Bool := false
  flush : FlushSel := .fromFmt
  sat : SatSel := .fromFmt
  rnd : Option Rnd := none
  deriving DecidableEq, Repr

/-- Where a bundle route syllable takes its setting from (R88). -/
inductive RouteSrc where
  | identity
  | bpc (desc : BitVec 32)
  | pool (len : BitVec 5) (off : BitVec 24)
  | reg (x : Fin 32)
  deriving DecidableEq, Repr

/-- The special values of `rdsp` (R107). -/
inductive Special where
  | tileX | tileY | tileN | vdie | grade | ctx
  deriving DecidableEq, Repr

/-- The control registers of `rdctl` and `wrctl` (R108, R133, R176). -/
inductive CtlReg where
  | fmt | flg | wfVa | wfVb | wfSx | lr
  | trapCause | trapAddr | trapResume | trapInfo | trapVec | trapRs | ctxMode | taskFlg
  | rsTask | spillCfg | spillPtr | preStat | idemPc | rsStatus
  deriving DecidableEq, Repr

/-- A wide flag set (R117). -/
inductive FlagSet where
  | va | vb | sx
  deriving DecidableEq, Repr

/-- A token's state (R146). -/
inductive TokState where
  | free | pending | done | error
  deriving DecidableEq, Repr

/-- The one to three tokens of `wait.tok` (R155). -/
inductive TokList where
  | one (a : TokId)
  | two (a b : TokId)
  | three (a b c : TokId)
  deriving DecidableEq, Repr

/-- The dependence fields of an engine syllable (R145). -/
structure Deps where
  fold : Option FoldId
  tp : TokId
  tc2 : TokId
  tc1 : TokId
  tc0 : TokId
  deriving DecidableEq, Repr

/-- The class and row offset of a 64-bit vector memory form (R240). -/
structure VMem where
  cls : Fin 16
  off9 : BitVec 9
  deriving DecidableEq, Repr

/-- The extra fields of a 64-bit scan form (R245): the modifier of a and, with seg = 1, the head vector. -/
structure ScanExt where
  ma : Mod
  seg : Option (Src × Mod)
  deriving DecidableEq, Repr

/-- The extra fields of a 64-bit `scan.mini` or `scan.maxi` form (R245). -/
structure ScanArgExt where
  ma : Mod
  mb : Mod
  tie : Bool
  seg : Option (Src × Mod)
  deriving DecidableEq, Repr

/-- The step of the port order of R192 in which a fixed-latency bank access performs. -/
inductive PortStep where
  | netWrite | scalarWrite | read
  deriving DecidableEq, Repr

/-- One arrival of a multicast at a target (R353). -/
structure McstMsg where
  win : Fin 16 := 0
  off : BitVec 27 := 0
  tag : BitVec 8 := 0
  data : Word := 0
  wide : Bool := false
  stamp : Bool := false
  land : Nat := 0
  job : BitVec 8 := 0
  sender : DieId := 0
  deriving DecidableEq, Repr

/-- A steward's access to memory (R360, R361): the core that makes it, its address, whether it writes, how many bytes and
the data. -/
structure StewardAcc where
  core : Fin 2 := 0
  addr : Nat := 0
  write : Bool := false
  len : Nat := 0
  data : List (BitVec 8) := []
  deriving DecidableEq, Repr

/-- The register blocks that a write of the runtime reaches (R361, R331, R347, R401, R420). -/
inductive RegBlock where
  | seq (d : DieId) | ctxCtl (d : DieId) | cluster (d : DieId) | remote (d : DieId) | panel (d : DieId)
  | queues | boot (d : DieId) | telemetry (d : DieId) | station (s : StackId) | ring
  deriving DecidableEq, Repr

/-- The kinds of fabric slot (R387). -/
inductive SlotKind where
  | data | ack | notice | grant | drain | idle
  | reserved (k : Fin 10)
  deriving DecidableEq, Repr

/-- A fabric slot (R387): the header fields, the payload bytes and the GCM tag. -/
structure FabSlot where
  dst : BitVec 18 := 0
  dstInc : BitVec 8 := 0
  src : BitVec 18 := 0
  srcInc : BitVec 8 := 0
  kind : SlotKind := .data
  circ : Bool := false
  dir : Bool := false
  kep : Bool := false
  rsv0 : BitVec 5 := 0
  stream : BitVec 16 := 0
  seq : BitVec 24 := 0
  job : BitVec 8 := 0
  len : BitVec 8 := 0
  rsv1 : BitVec 8 := 0
  op : Word := 0
  rsv3 : BitVec 22 := 0
  hops : BitVec 10 := 0
  crc : BitVec 32 := 0
  payload : List Byte := []
  gcm : BitVec 128 := 0
  deriving DecidableEq, Repr

/-- A control-mesh path packet's common content (R407). -/
structure PathPkt where
  path : BitVec 16 := 0
  origin : BitVec 18 := 0
  target : BitVec 18 := 0
  elems : List (BitVec 24 × BitVec 20 × BitVec 20) := []
  index : Nat := 0
  deriving DecidableEq, Repr

/-- A job key delivery (R397). -/
structure KeyBlob where
  job : BitVec 8 := 0
  epoch : Nat := 0
  kemCt : List Byte := []
  wrapped : List Byte := []
  sig : List Byte := []
  deriving DecidableEq, Repr

/-- What calibration of the synchronous domain found (R350, R357, R300). -/
structure Calib where
  root : StackId := 0
  pbMin : BitVec 11 := 0
  farLat : List (DieId × BitVec 64) := []
  deriving DecidableEq, Repr

/-- What the management port asks for (R376): an attestation, an update of the boot flash from a byte on, the setting of its
RS-FEC, the exposure and harvest report, or a die's telemetry. -/
inductive MgmtReq where
  | attest
  | image (off : Nat) (bytes : List Byte)
  | rsFec (on : Bool)
  | exposure
  | telemetry (d : DieId)
  deriving DecidableEq, Repr

/-- What enters or leaves service (R335, R350). -/
inductive Service where
  | dieIn (p : DieId) (virt : Option (BitVec 8)) (inc : BitVec 8)
  | dieOut (p : DieId)
  | stackIn (i : StackId)
  | stackOut (i : StackId)
  | draining (p : DieId) (on : Bool)
  deriving DecidableEq, Repr

/-- What one step of the part acts on: the argument record of the rows of the table that have no encoding. A step
reads the fields it needs; the others stay at their defaults. -/
structure EvArg where
  die : DieId := 0
  ctx : CtxId := 0
  cls : Fin 16 := 0
  que : QueueId := 0
  eng : Fin 19 := 0
  id : Nat := 0
  unit : Nat := 0
  fold : FoldId := 0
  arr : Bool := false
  flag : Bool := false
  val : Word := 0
  seq : Nat := 0
  code : BitVec 8 := 0
  ord : PortStep := .read
  link : Fin 4 := 0
  grp : Fin 16 := 0
  group : BitVec 512 := 0
  groupEn : BitVec 64 := 0
  stack : StackId := 0
  chan : Fin 32 := 0
  rng : Fin 8 := 0
  mcst : McstMsg := {}
  senders : List (DieId × Nat) := []
  ids : List Nat := []
  cal : Calib := {}
  service : Service := .dieIn 0 none 0
  nonce : BitVec 256 := 0
  mgmt : MgmtReq := .attest
  acc : StewardAcc := {}
  key : KeyBlob := {}
  job : BitVec 8 := 0
  panel : BitVec 18 := 0
  inc : BitVec 8 := 0
  port : PortId := 0
  lam : Fin 8 := 0
  wire : List (Byte × Nat) := []
  bytes : List Byte := []
  slot : FabSlot := {}
  qp : Fin 8192 := 0
  stream : BitVec 16 := 0
  slotSeq : BitVec 24 := 0
  elem : BitVec 24 := 0
  pkt : PathPkt := {}
  path : Fin 64 := 0
  block : RegBlock := .queues
  off : BitVec 16 := 0
  deriving DecidableEq, Repr

/-- One instruction, or one step of the part, for each row of the spec's table. -/
inductive Instr where
  -- Syllables: the modifying syllables of major 0 and 31 (R84, R88)
  | pfx (p : Pfx)
  | bundleRoute (write : Bool) (far : BitVec 16) (src : RouteSrc)
  -- Integer, major 1 (R102)
  | add (t : Ty) (d : Dst) (a b : Src)
  | sub (t : Ty) (d : Dst) (a b : Src)
  | mul (t : Ty) (d : Dst) (a b : Src)
  | mulh (t : Ty) (d : Dst) (a b : Src)
  | div (t : Ty) (d : Dst) (a b : Src)
  | rem (t : Ty) (d : Dst) (a b : Src)
  | and (t : Ty) (d : Dst) (a b : Src)
  | or (t : Ty) (d : Dst) (a b : Src)
  | xor (t : Ty) (d : Dst) (a b : Src)
  | andn (t : Ty) (d : Dst) (a b : Src)
  | shl (t : Ty) (d : Dst) (a b : Src)
  | shr (t : Ty) (d : Dst) (a b : Src)
  | sar (t : Ty) (d : Dst) (a b : Src)
  | rot (t : Ty) (d : Dst) (a b : Src)
  | min (t : Ty) (d : Dst) (a b : Src)
  | max (t : Ty) (d : Dst) (a b : Src)
  | ceq (t : Ty) (d : Dst) (a b : Src)
  | cne (t : Ty) (d : Dst) (a b : Src)
  | clt (t : Ty) (d : Dst) (a b : Src)
  | cle (t : Ty) (d : Dst) (a b : Src)
  | sel (d : Dst) (c a b : Src)
  | neg (t : Ty) (d : Dst) (a : Src)
  | abs (t : Ty) (d : Dst) (a : Src)
  | clz (t : Ty) (d : Dst) (a : Src)
  | popc (t : Ty) (d : Dst) (a : Src)
  | mov (t : Ty) (d : Dst) (a : Src)
  | rdsp (d : Dst) (sv : Special)
  | rdctl (d : Dst) (cr : CtlReg)
  | wrctl (cr : CtlReg) (a : Src)
  -- Integer immediate, major 2 (R105)
  | addImm (z : Bool) (d : Dst) (a : Src) (imm : BitVec 9)
  | mulImm (z : Bool) (d : Dst) (a : Src) (imm : BitVec 9)
  | andImm (z : Bool) (d : Dst) (a : Src) (imm : BitVec 9)
  | orImm (z : Bool) (d : Dst) (a : Src) (imm : BitVec 9)
  | xorImm (z : Bool) (d : Dst) (a : Src) (imm : BitVec 9)
  | shlImm (z : Bool) (d : Dst) (a : Src) (imm : BitVec 9)
  | shrImm (z : Bool) (d : Dst) (a : Src) (imm : BitVec 9)
  | sarImm (z : Bool) (d : Dst) (a : Src) (imm : BitVec 9)
  | ceqImm (z : Bool) (d : Dst) (a : Src) (imm : BitVec 9)
  | cltImm (z : Bool) (d : Dst) (a : Src) (imm : BitVec 9)
  | cleImm (z : Bool) (d : Dst) (a : Src) (imm : BitVec 9)
  | minImm (z : Bool) (d : Dst) (a : Src) (imm : BitVec 9)
  | maxImm (z : Bool) (d : Dst) (a : Src) (imm : BitVec 9)
  | movImm (z : Bool) (d : Dst) (imm : BitVec 9)
  -- Integer long immediate, major 3 (R106)
  | addLong (t : Ty) (d : Dst) (a : Src) (imm : BitVec 32)
  | mulLong (t : Ty) (d : Dst) (a : Src) (imm : BitVec 32)
  | andLong (t : Ty) (d : Dst) (a : Src) (imm : BitVec 32)
  | orLong (t : Ty) (d : Dst) (a : Src) (imm : BitVec 32)
  | xorLong (t : Ty) (d : Dst) (a : Src) (imm : BitVec 32)
  | ceqLong (t : Ty) (d : Dst) (a : Src) (imm : BitVec 32)
  | cltLong (t : Ty) (d : Dst) (a : Src) (imm : BitVec 32)
  | cleLong (t : Ty) (d : Dst) (a : Src) (imm : BitVec 32)
  | movLong (t : Ty) (d : Dst) (imm : BitVec 32)
  | movh (t : Ty) (d : Dst) (a : Src) (imm : BitVec 32)
  | adr (d : Dst) (imm : BitVec 32)
  -- Scalar memory, majors 4 to 6 (R109 to R115)
  | lit (d : Dst) (off : BitVec 15)
  | ld (t : Ty) (d : Dst) (a b : Src)
  | st (t : Ty) (v : Src) (a b : Src)
  | ldOffset (t : Ty) (cls : Fin 16) (d : Dst) (a : Src) (off : BitVec 32)
  | stOffset (t : Ty) (cls : Fin 16) (v : Src) (a : Src) (off : BitVec 32)
  | fenceK (mask : BitVec 16)
  | amoAdd (t : Ty) (cls : Fin 16) (d : Dst) (a b : Src) (off : BitVec 16)
  | amoAnd (t : Ty) (cls : Fin 16) (d : Dst) (a b : Src) (off : BitVec 16)
  | amoOr (t : Ty) (cls : Fin 16) (d : Dst) (a b : Src) (off : BitVec 16)
  | amoXor (t : Ty) (cls : Fin 16) (d : Dst) (a b : Src) (off : BitVec 16)
  | amoMax (t : Ty) (cls : Fin 16) (d : Dst) (a b : Src) (off : BitVec 16)
  | amoMin (t : Ty) (cls : Fin 16) (d : Dst) (a b : Src) (off : BitVec 16)
  | amoSwap (t : Ty) (cls : Fin 16) (d : Dst) (a b : Src) (off : BitVec 16)
  | amoCas (t : Ty) (cls : Fin 16) (d : Dst) (a b c : Src) (off : BitVec 16)
  | amoFadd (cls : Fin 16) (d : Dst) (a b : Src) (off : BitVec 16)
  | amoFmax (cls : Fin 16) (d : Dst) (a b : Src) (off : BitVec 16)
  | amoFmin (cls : Fin 16) (d : Dst) (a b : Src) (off : BitVec 16)
  | amoSadd (t : Ty) (cls : Fin 16) (d : Dst) (a b : Src) (off : BitVec 16)
  -- Branch and loop, major 7 (R117)
  | br (off : BitVec 20)
  | brz (a : Src) (off : BitVec 15)
  | brnz (a : Src) (off : BitVec 15)
  | bany (fs : FlagSet) (off : BitVec 18)
  | ball (fs : FlagSet) (off : BitVec 18)
  | bnone (fs : FlagSet) (off : BitVec 18)
  | bcntGe (fs : FlagSet) (a : Src) (off : BitVec 12)
  | bcntLt (fs : FlagSet) (a : Src) (off : BitVec 12)
  | call (off : BitVec 20)
  | ret
  | jmp (a : Src)
  | callr (a : Src)
  | loop (lvl : Fin 4) (a : Src) (off : BitVec 10)
  | loopSw (lvl : Fin 4) (a : Src) (off : BitVec 10)
  | loopClr (mask : BitVec 4)
  | bskip (off : BitVec 18)
  | btok (st : TokState) (t : TokId) (off : BitVec 12)
  -- System, major 8 (R124)
  | nop
  | halt
  | trap (code : BitVec 16)
  | tfence
  | idem
  | idemChk (off : BitVec 18)
  | phase (n : Fin 64)
  | ctxsw (a : Src)
  | eret
  | icinv (a : Src)
  -- Wait and synchronisation, major 9 (R155)
  | waitTok (ts : TokList)
  | waitAny (a : Src)
  | waitFold (f : FoldId) (ph : Bool)
  | arrive (f : FoldId) (a : Src)
  | foldSetBytes (f : FoldId) (a : Src)
  | foldSetArr (f : FoldId) (a : Src)
  | tokClr (a : Src)
  | yield
  -- Vector floating point, major 10 (R220); `w = none` is the 32-bit form
  | vaddF (t : Ty) (d : Dst) (a b : Src) (w : Option (Mod × Mod))
  | vsubF (t : Ty) (d : Dst) (a b : Src) (w : Option (Mod × Mod))
  | vmulF (t : Ty) (d : Dst) (a b : Src) (w : Option (Mod × Mod))
  | vfma (t : Ty) (d : Fin 16) (a b : Src)
  | vfmaVw (t : Ty) (d : Dst) (a b c : Src) (ma mb mc : Mod)
  | vmaxF (t : Ty) (d : Dst) (a b : Src) (w : Option (Mod × Mod))
  | vminF (t : Ty) (d : Dst) (a b : Src) (w : Option (Mod × Mod))
  | vabsF (t : Ty) (d : Dst) (a : Src) (w : Option Mod)
  | vnegF (t : Ty) (d : Dst) (a : Src) (w : Option Mod)
  | vsqrt (t : Ty) (d : Dst) (a : Src) (w : Option Mod)
  | vdiv (t : Ty) (d : Dst) (a b : Src) (w : Option (Mod × Mod))
  -- Vector integer and logic, major 11 (R222)
  | vaddI (t : Ty) (d : Dst) (a b : Src) (w : Option (Mod × Mod))
  | vsubI (t : Ty) (d : Dst) (a b : Src) (w : Option (Mod × Mod))
  | vmulI (t : Ty) (d : Dst) (a b : Src) (w : Option (Mod × Mod))
  | vmulh (t : Ty) (d : Dst) (a b : Src) (w : Option (Mod × Mod))
  | vand (t : Ty) (d : Dst) (a b : Src) (w : Option (Mod × Mod))
  | vor (t : Ty) (d : Dst) (a b : Src) (w : Option (Mod × Mod))
  | vxor (t : Ty) (d : Dst) (a b : Src) (w : Option (Mod × Mod))
  | vandn (t : Ty) (d : Dst) (a b : Src) (w : Option (Mod × Mod))
  | vshl (t : Ty) (d : Dst) (a b : Src) (w : Option (Mod × Mod))
  | vshr (t : Ty) (d : Dst) (a b : Src) (w : Option (Mod × Mod))
  | vsar (t : Ty) (d : Dst) (a b : Src) (w : Option (Mod × Mod))
  | vminI (t : Ty) (d : Dst) (a b : Src) (w : Option (Mod × Mod))
  | vmaxI (t : Ty) (d : Dst) (a b : Src) (w : Option (Mod × Mod))
  | vabsI (t : Ty) (d : Dst) (a : Src) (w : Option Mod)
  | vnegI (t : Ty) (d : Dst) (a : Src) (w : Option Mod)
  | vsel (d : Dst) (c a b : Src) (w : Option (Mod × Mod × Mod))
  | vmov (d : Dst) (a : Src) (w : Option Mod)
  | vbcast (t : Ty) (d : Dst) (a : Src) (wide : Bool)
  -- Vector compare and mask stack, major 12 (R224, R225)
  | vceq (t : Ty) (d : Dst) (a b : Src) (w : Option (Mod × Mod))
  | vcne (t : Ty) (d : Dst) (a b : Src) (w : Option (Mod × Mod))
  | vclt (t : Ty) (d : Dst) (a b : Src) (w : Option (Mod × Mod))
  | vcle (t : Ty) (d : Dst) (a b : Src) (w : Option (Mod × Mod))
  | vcun (t : Ty) (d : Dst) (a b : Src) (w : Option (Mod × Mod))
  | mpush (a : Src) (w : Option Mod)
  | minv (wide : Bool)
  | mpop (wide : Bool)
  | mset (a : Src) (w : Option Mod)
  | mget (d : Dst) (wide : Bool)
  -- Convert and quantise, major 13 (R228)
  | vcvt (dt st : Ty) (d : Dst) (a : Src) (w : Option (Mod × BitVec 2))
  | vquant (dt : Ty) (d : Dst) (a b : Src) (w : Option (Mod × Mod))
  | vpack (t : Ty) (d : Dst) (a b : Src) (w : Option (Mod × Mod))
  | vunpk (t : Ty) (d : Dst) (a : Src) (w : Option (Mod × BitVec 2))
  -- Logic simulation, major 14 (R235)
  | vlut (d : Dst) (a : Fin 13) (b : Src) (w : Option Mod)
  | vevt (t : Ty) (d : Dst) (a b : Src) (w : Option Mod)
  | vres (d : Dst) (a b : Src) (w : Option Mod)
  | vttw (a b : Src) (wide : Bool)
  -- Vector bank memory, major 15 (R240)
  | vld (d : Dst) (a b : Src) (w : Option VMem)
  | vldImm (d : Dst) (a : Src) (m : VMem)
  | vst (v : Src) (a b : Src) (w : Option VMem)
  | vstImm (v : Src) (a : Src) (m : VMem)
  | vldi (d : Dst) (a b : Src) (w : Option (VMem × Mod))
  | vsti (v : Src) (a b : Src) (w : Option (VMem × Mod))
  -- Scan, major 16 (R245)
  | scanAdd (t : Ty) (red : Bool) (d : Dst) (a : Src) (w : Option ScanExt)
  | scanMin (t : Ty) (red : Bool) (d : Dst) (a : Src) (w : Option ScanExt)
  | scanMax (t : Ty) (red : Bool) (d : Dst) (a : Src) (w : Option ScanExt)
  | scanMini (t : Ty) (red : Bool) (d : Dst) (a b : Src) (w : Option ScanArgExt)
  | scanMaxi (t : Ty) (red : Bool) (d : Dst) (a b : Src) (w : Option ScanArgExt)
  | scanAnd (red : Bool) (d : Dst) (a : Src) (w : Option ScanExt)
  | scanOr (red : Bool) (d : Dst) (a : Src) (w : Option ScanExt)
  | scanXor (red : Bool) (d : Dst) (a : Src) (w : Option ScanExt)
  | scanFirst (red : Bool) (d : Dst) (a : Src) (w : Option ScanExt)
  | scanLast (red : Bool) (d : Dst) (a : Src) (w : Option ScanExt)
  | compress (d : Dst) (a : Src) (w : Option Mod)
  | expand (d : Dst) (a : Src) (w : Option Mod)
  -- Route and Drover, major 17 (R209)
  | rteLd (xd : Fin 32) (off : BitVec 15)
  | rteBpc (xd : Fin 32) (a : Src)
  | rteSolve (xd : Fin 32) (sd : Dst) (va : Src) (sp : Src)
  | rteMv (xd xa : Fin 32)
  | rtePass (vd : Dst) (va : Src) (sp : Src)
  | rteSt (a : Src) (xs : Fin 32)
  -- Engine operations, majors 18 to 23 (R248, R313, R352)
  | cpBb (d a b : Src) (dep : Deps)
  | cpPb (d a b : Src) (dep : Deps)
  | cpBp (d a b : Src) (dep : Deps)
  | cpBo (d a b : Src) (dep : Deps)
  | cpRs (dep : Deps)
  | mwld (m : Fin 16) (a b c : Src) (ch : Bool) (dep : Deps)
  | mmul (m : Fin 16) (a b c : Src) (ch : Bool) (dep : Deps)
  | mdrn (m : Fin 16) (a b c : Src) (dep : Deps)
  | mresume (m : Fin 16) (dep : Deps)
  | mdist (m : Fin 16) (a b c : Src) (ch : Bool) (dep : Deps)
  | mcent (m : Fin 16) (a b c : Src) (ch : Bool) (dep : Deps)
  | mbest (m : Fin 16) (a b : Src) (dep : Deps)
  | mcdrn (m : Fin 16) (a b c : Src) (dep : Deps)
  | slotClaim (o : Fin 128) (dep : Deps)
  | slotRelease (o : Fin 128) (dep : Deps)
  | slotShape (o : Fin 128) (a : Src) (dep : Deps)
  | slotZero (o : Fin 128) (dep : Deps)
  | rld (cls : Fin 16) (d a : Src) (w : Bool) (dep : Deps)
  | rst (cls : Fin 16) (a b : Src) (w : Bool) (dep : Deps)
  | rcpGet (cls : Fin 16) (d a b : Src) (dep : Deps)
  | rcpPut (cls : Fin 16) (d a b : Src) (dep : Deps)
  | rcpRs (dep : Deps)
  | rsig (cls : Fin 16) (d a : Src) (dep : Deps)
  | rsigRel (cls : Fin 16) (d a : Src) (dep : Deps)
  | amoAddFar (cls : Fin 16) (d a b : Src) (dep : Deps)
  | amoAndFar (cls : Fin 16) (d a b : Src) (dep : Deps)
  | amoOrFar (cls : Fin 16) (d a b : Src) (dep : Deps)
  | amoXorFar (cls : Fin 16) (d a b : Src) (dep : Deps)
  | amoMaxFar (cls : Fin 16) (d a b : Src) (dep : Deps)
  | amoMinFar (cls : Fin 16) (d a b : Src) (dep : Deps)
  | amoFaddFar (cls : Fin 16) (d a b : Src) (dep : Deps)
  | amoFmaxFar (cls : Fin 16) (d a b : Src) (dep : Deps)
  | amoFminFar (cls : Fin 16) (d a b : Src) (dep : Deps)
  | amoSaddFar (cls : Fin 16) (d a b : Src) (dep : Deps)
  | amoSwapFar (cls : Fin 16) (d a b : Src) (dep : Deps)
  | amoCasFar (cls : Fin 16) (d a b : Src) (dep : Deps)
  | hops (d : Dst) (a b : Src)
  | mcst (n : Fin 16) (a b : Src) (w : Bool) (dep : Deps)
  | mcstSt (n : Fin 16) (a b : Src) (w : Bool) (dep : Deps)
  | pbar (cls : Fin 16) (ch : Fin 16) (dep : Deps)
  | mwin (n : Fin 16) (a : Src) (dep : Deps)
  -- Steps of a die (R73 to R310)
  | bundleIssue
  | quantumExpiry
  | tagWaitLimit
  | resultLanding
  | bankAccessPerform
  | farGroupArrival
  | waitConditionMet
  | heldBundleRelease
  | taskLaunchStart
  | taskEnd
  | spillRefillComplete
  | ctxswComplete
  | cutBack
  | cutBackSaveEnd
  | arrivePerform
  | foldSetPerform
  | engineOpStart
  | engineOpComplete
  | engineOpError
  | copyUnitCommit
  | copyTagWaitLimit
  | followOnIssue
  | translationWalkComplete
  | migratingLeafRewalk
  | mmuResolveRetry
  | mmuResolveFail
  | mmuResolveRefuse
  | mmuInval
  | fillBegin
  | fillComplete
  | refreshWindowOpen
  | refreshWindowClose
  | stationForcedRefresh
  | fillCalWrite
  | channelRedeal
  | ucieFlitCrcFail
  | stationParityDiscard
  -- Remote access and streams (R320 to R326)
  | remoteAccessSend
  | remoteAccessCommit
  | remoteReplyArrival
  | retryAfterExpiry
  | remoteTimeout
  | stMigWrite
  -- Multicast, barriers, the synchronous domain (R350 to R358)
  | mcstArrival
  | mcstLanding
  | pbarArrivalSend
  | pbarRootCount
  | pbarRelease
  | pbCtlWrite
  | syncRecal
  | syncLock
  | serviceChange
  -- Command queues (R338 to R349), pre-emption (R182 to R184)
  | leaderElection
  | qTailWrite
  | launchPacket
  | copyPacket
  | fencePacket
  | fenceReread
  | signalPacket
  | markPacket
  | qRheadWrite
  | qCtlWrite
  | ctxPreWrite
  | winRelWrite
  -- Boot, security, stewards (R360 to R374)
  | dieReset
  | svnCommit
  | featureLock
  | attestationRequest
  | thermalShutdown
  | stewardBankAccess
  | keyDelivery
  | partitionDissolve
  | panelReset
  | rejoinDelayExpiry
  | incarnationAnnouncement
  -- Links and slots of the fabric (R384 to R395)
  | flitReceive
  | linkReplay
  | lackIdleFlit
  | lnkModeWrite
  | modeRequestTimeout
  | slotSend
  | slotForward
  | slotArrival
  | slotAckArrival
  | refusalNoticeArrival
  | fabricRetryAfterExpiry
  | grantArrival
  | drainMarkerArrival
  | slotResendTimeout
  | slotPortWaitExpiry
  -- Optical ports and photonic paths (R403 to R411)
  | ringRelockStart
  | ringRelockEnd
  | wavelengthRetire
  | setup
  | ack
  | nak
  | tear
  | tearAck
  | reservationTimeout
  | setupTimeout
  | backOffExpiry
  | pathLit
  | lightingTimeout
  | tearingTimeout
  | pathSetupRequest
  | pathTearRequest
  | fabHoldSet
  | fabHoldClear
  -- Queue pairs (R412 to R422)
  | qpLoad
  | qpReset
  | qpError
  | doorbellWrite
  | workEntryServe
  | registerWrite
  -- The last rows of the table (R373, R362, R405)
  | powerThrottle
  | stewardPanelAccess
  | wavelengthSignalLoss
  deriving DecidableEq, Repr

end Sys2Proof
end

