-- ==== Sys2Proof/WellFormed.lean ====
section
/-! DEFINITION. Which operand values an instruction may carry (R36, R92 and each instruction's own rule): the check
that the decoder makes and that an encoded instruction meets. -/

namespace Sys2Proof

/-- Integer types of the scalar slots (R101). -/
def Ty.isScalarInt : Ty → Bool
  | .s8 | .z8 | .s16 | .z16 | .s32 | .z32 | .s64 | .z64 => true
  | _ => false

/-- The types I of major 11 (R222). -/
def Ty.isVecInt : Ty → Bool
  | .s8 | .z8 | .s16 | .z16 | .s32 | .z32 => true
  | _ => false

/-- Type codes 0 to 9 (R224, R229). -/
def Ty.isCode0to9 : Ty → Bool
  | .s64 | .z64 | .l2 => false
  | _ => true

/-- The types L of major 11, and those of `vevt` (R222, R235). -/
def Ty.isLogic : Ty → Bool
  | .s64 | .z64 => false
  | _ => true

/-- The floating-point types of major 10 (R220). -/
def Ty.isFloat : Ty → Bool
  | .f16 | .bf16 | .f32 => true
  | _ => false

/-- The types of `vcun` (R224). -/
def Ty.isUnordered : Ty → Bool
  | .d8 | .f16 | .bf16 | .f32 => true
  | _ => false

/-- The types of `vquant` (R228). -/
def Ty.isQuant : Ty → Bool
  | .s8 | .z8 | .d8 => true
  | _ => false

/-- The types of `vpack` and `vunpk`, codes 0 to 6 (R230). -/
def Ty.isPack : Ty → Bool
  | .s8 | .z8 | .d8 | .f16 | .bf16 | .s16 | .z16 => true
  | _ => false

/-- The types of the scan operations (R245). -/
def Ty.isScan : Ty → Bool
  | .f32 | .s32 | .z32 => true
  | _ => false

/-- The types of the integer atomics (R115). -/
def Ty.isAmo : Ty → Bool
  | .s32 | .z32 | .s64 | .z64 => true
  | _ => false

/-- The types of `amo.sadd` (R115). -/
def Ty.isSadd : Ty → Bool
  | .s32 | .s64 => true
  | _ => false

/-- Element width in bits (R36). -/
def Ty.width : Ty → Nat
  | .s8 | .z8 | .d8 => 8
  | .f16 | .bf16 | .s16 | .z16 => 16
  | .f32 | .s32 | .z32 => 32
  | .s64 | .z64 => 64
  | .l2 => 2

/-- Field j of a BPC descriptor names source bit (j + field j) mod 8 (R201). -/
def bpcBit (desc : BitVec 32) (j : Nat) : Nat :=
  (j + desc.toNat / 2 ^ (3 * j) % 8) % 8

/-- A descriptor is valid when its eight source bits are a permutation of 0 to 7 (R201). -/
def bpcValid (desc : BitVec 32) : Bool :=
  (List.range 8).all fun k => (List.range 8).any fun j => bpcBit desc j == k

/-- How many parts a conversion between two widths has (R229). -/
def cvtParts (dt st : Ty) : Nat :=
  Nat.max dt.width st.width / Nat.min dt.width st.width

/-- The token fields of an `mcst` must all name its own token (R352). -/
def Deps.noEdges (k : Deps) : Bool :=
  k.tc0 == k.tp && k.tc1 == k.tp && k.tc2 == k.tp

/-- A route source that a route syllable may carry (R88, R202). -/
def RouteSrc.wf : RouteSrc → Bool
  | .bpc desc => bpcValid desc
  | .pool len _ => len != 0
  | _ => true

/-- `amo.cas` with a far address names an even register s(b) up to s14 as B (R313, R319). -/
def Src.isPair : Src → Bool
  | .named n => n.val % 2 == 0
  | .queue _ => false

/-- The wide flag sets cannot be written by `wrctl` (R108). -/
def CtlReg.writable : CtlReg → Bool
  | .wfVa | .wfVb | .wfSx => false
  | _ => true

/-- The operand values an instruction may carry; a step that is no syllable carries any. -/
def Instr.wf : Instr → Bool
  | .bundleRoute _ _ src => src.wf
  | .add t _ _ _ | .sub t _ _ _ | .mul t _ _ _ | .mulh t _ _ _ | .div t _ _ _ | .rem t _ _ _
  | .and t _ _ _ | .or t _ _ _ | .xor t _ _ _ | .andn t _ _ _ | .shl t _ _ _ | .shr t _ _ _
  | .sar t _ _ _ | .rot t _ _ _ | .min t _ _ _ | .max t _ _ _ | .ceq t _ _ _ | .cne t _ _ _
  | .clt t _ _ _ | .cle t _ _ _ => t.isScalarInt
  | .neg t _ _ | .abs t _ _ | .clz t _ _ | .popc t _ _ | .mov t _ _ => t.isScalarInt
  | .wrctl cr _ => cr.writable
  | .shlImm _ _ _ i | .shrImm _ _ _ i | .sarImm _ _ _ i => i.toNat < 64
  | .addLong t _ _ _ | .mulLong t _ _ _ | .andLong t _ _ _ | .orLong t _ _ _ | .xorLong t _ _ _
  | .ceqLong t _ _ _ | .cltLong t _ _ _ | .cleLong t _ _ _ | .movLong t _ _ => t.isScalarInt
  | .movh t _ _ _ => t == .s64 || t == .z64
  | .ld t _ _ _ | .st t _ _ _ | .ldOffset t _ _ _ _ | .stOffset t _ _ _ _ => t.isScalarInt
  | .amoAdd t _ _ _ _ _ | .amoAnd t _ _ _ _ _ | .amoOr t _ _ _ _ _ | .amoXor t _ _ _ _ _
  | .amoMax t _ _ _ _ _ | .amoMin t _ _ _ _ _ | .amoSwap t _ _ _ _ _ | .amoCas t _ _ _ _ _ _ => t.isAmo
  | .amoSadd t _ _ _ _ _ => t.isSadd
  | .loop _ _ off | .loopSw _ _ off => off != 0
  | .vaddF t _ _ _ _ | .vsubF t _ _ _ _ | .vmulF t _ _ _ _ | .vmaxF t _ _ _ _ | .vminF t _ _ _ _
  | .vdiv t _ _ _ _ => t.isFloat
  | .vfma t _ _ _ => t.isFloat
  | .vfmaVw t _ _ _ _ _ _ _ => t.isFloat
  | .vabsF t _ _ _ | .vnegF t _ _ _ | .vsqrt t _ _ _ => t.isFloat
  | .vaddI t _ _ _ _ | .vsubI t _ _ _ _ | .vmulI t _ _ _ _ | .vmulh t _ _ _ _ | .vshl t _ _ _ _
  | .vshr t _ _ _ _ | .vsar t _ _ _ _ | .vminI t _ _ _ _ | .vmaxI t _ _ _ _ => t.isVecInt
  | .vabsI t _ _ _ | .vnegI t _ _ _ => t.isVecInt
  | .vand t _ _ _ _ | .vor t _ _ _ _ | .vxor t _ _ _ _ | .vandn t _ _ _ _ => t.isLogic
  | .vbcast t _ _ _ => t.isLogic
  | .vceq t _ _ _ _ | .vcne t _ _ _ _ | .vclt t _ _ _ _ | .vcle t _ _ _ _ => t.isCode0to9
  | .vcun t _ _ _ _ => t.isUnordered
  | .vcvt dt sty _ _ w =>
    dt.isCode0to9 && sty.isCode0to9 && match w with
      | none => true
      | some (_, p) => decide (p.toNat < cvtParts dt sty)
  | .vquant t _ _ _ _ => t.isQuant
  | .vpack t _ _ _ _ => t.isPack
  | .vunpk t _ _ w => t.isPack && match w with
      | none => true
      | some (_, p) => decide (p.toNat < 2)
  | .vevt t _ _ _ _ => t.isLogic
  | .scanAdd t _ _ _ _ | .scanMin t _ _ _ _ | .scanMax t _ _ _ _ => t.isScan
  | .scanMini t _ _ _ _ _ | .scanMaxi t _ _ _ _ _ => t.isScan
  | .amoCasFar _ _ _ b _ => b.isPair
  | .mcst _ _ _ _ dep | .mcstSt _ _ _ _ dep => dep.noEdges
  | _ => true

end Sys2Proof
end

