-- ==== Sys2Proof/Decode.lean ====
section
/-! DEFINITION. Decoding a syllable from its bits (R71, R77 to R92) and encoding one, both written from the spec's
encoding tables. Fields are read by `fld` from the syllable taken as one little-endian number. -/

namespace Sys2Proof

/-- Why a bit pattern is no instruction (R92). -/
inductive Reject where
  | reservedMajor | unassignedMinor | badLength | reservedField | badDest | badType | badValue
  deriving DecidableEq, Repr

/-- Bits lo+n-1 to lo of a syllable. -/
def fld (w lo n : Nat) : Nat := w / 2 ^ lo % 2 ^ n

/-- Go on only if the condition holds, else reject by the given name. -/
def guardOr (ok : Bool) (r : Reject) : Except Reject Unit := if ok then .ok () else .error r

/-- Type code of R36. -/
def Ty.code : Ty → Nat
  | .s8 => 0 | .z8 => 1 | .d8 => 2 | .f16 => 3 | .bf16 => 4 | .s16 => 5 | .z16 => 6 | .f32 => 7
  | .s32 => 8 | .z32 => 9 | .s64 => 10 | .z64 => 11 | .l2 => 12

/-- The type of a type code; 13 to 15 are none (R36). -/
def Ty.ofCode? : Nat → Option Ty
  | 0 => some .s8 | 1 => some .z8 | 2 => some .d8 | 3 => some .f16 | 4 => some .bf16 | 5 => some .s16
  | 6 => some .z16 | 7 => some .f32 | 8 => some .s32 | 9 => some .z32 | 10 => some .s64 | 11 => some .z64
  | 12 => some .l2 | _ => none

/-- A type field that accepts only the types of `ok`. -/
def decTy (ok : Ty → Bool) (n : Nat) : Except Reject Ty :=
  match Ty.ofCode? n with
  | some t => if ok t then .ok t else .error .badType
  | none => .error .badType

/-- Source field of R77. -/
def Src.code : Src → Nat
  | .named n => n.val
  | .queue n => n.val + 16

def decSrc (n : Nat) : Src :=
  if n % 32 < 16 then .named (Fin.ofNat 16 n) else .queue (Fin.ofNat 16 (n - 16))

/-- Destination field of R78; 16 to 30 are rejected. -/
def Dst.code : Dst → Nat
  | .named n => n.val
  | .push => 31

def decDst (n : Nat) : Except Reject Dst :=
  if n < 16 then .ok (.named (Fin.ofNat 16 n)) else if n = 31 then .ok .push else .error .badDest

/-- Modifier code of R79. -/
def Mod.code : Mod → Nat
  | .none => 0 | .bl => 1 | .bh => 2 | .sw => 3 | .rb => 4 | .b0 => 5 | .sn => 6 | .rn => 7

def decMod : Nat → Mod
  | 0 => .none | 1 => .bl | 2 => .bh | 3 => .sw | 4 => .rb | 5 => .b0 | 6 => .sn | _ => .rn

/-- Rounding selection of a prefix syllable (R84). -/
def rndCode : Option Rnd → Nat
  | none => 0 | some .rne => 1 | some .rz => 2 | some .ru => 3 | some .rd => 4 | some .rna => 5

def decRnd : Nat → Except Reject (Option Rnd)
  | 0 => .ok none | 1 => .ok (some .rne) | 2 => .ok (some .rz) | 3 => .ok (some .ru)
  | 4 => .ok (some .rd) | 5 => .ok (some .rna) | _ => .error .reservedField

def SatSel.code : SatSel → Nat
  | .fromFmt => 0 | .wrap => 1 | .saturate => 2

def decSat : Nat → Except Reject SatSel
  | 0 => .ok .fromFmt | 1 => .ok .wrap | 2 => .ok .saturate | _ => .error .reservedField

def FlushSel.code : FlushSel → Nat
  | .fromFmt => 0 | .off => 1 | .on => 2

def decFlush : Nat → Except Reject FlushSel
  | 0 => .ok .fromFmt | 1 => .ok .off | 2 => .ok .on | _ => .error .reservedField

/-- Special value numbers of R107. -/
def Special.code : Special → Nat
  | .tileX => 0 | .tileY => 1 | .tileN => 2 | .vdie => 3 | .grade => 4 | .ctx => 5

def decSpecial : Nat → Except Reject Special
  | 0 => .ok .tileX | 1 => .ok .tileY | 2 => .ok .tileN | 3 => .ok .vdie | 4 => .ok .grade
  | 5 => .ok .ctx | _ => .error .badValue

/-- Control register numbers of R108, R133 and R176. -/
def CtlReg.code : CtlReg → Nat
  | .fmt => 0 | .flg => 1 | .wfVa => 2 | .wfVb => 3 | .wfSx => 4 | .lr => 5
  | .trapCause => 16 | .trapAddr => 17 | .trapResume => 18 | .trapInfo => 19 | .trapVec => 20
  | .trapRs => 21 | .ctxMode => 22 | .taskFlg => 23 | .rsTask => 24 | .spillCfg => 25
  | .spillPtr => 26 | .preStat => 27 | .idemPc => 28 | .rsStatus => 29

def decCtlReg : Nat → Except Reject CtlReg
  | 0 => .ok .fmt | 1 => .ok .flg | 2 => .ok .wfVa | 3 => .ok .wfVb | 4 => .ok .wfSx | 5 => .ok .lr
  | 16 => .ok .trapCause | 17 => .ok .trapAddr | 18 => .ok .trapResume | 19 => .ok .trapInfo
  | 20 => .ok .trapVec | 21 => .ok .trapRs | 22 => .ok .ctxMode | 23 => .ok .taskFlg
  | 24 => .ok .rsTask | 25 => .ok .spillCfg | 26 => .ok .spillPtr | 27 => .ok .preStat
  | 28 => .ok .idemPc | 29 => .ok .rsStatus | _ => .error .badValue

/-- The supervisor registers (R108, R133, R176). -/
def CtlReg.isSupervisor : CtlReg → Bool
  | .fmt | .flg | .wfVa | .wfVb | .wfSx | .lr => false
  | _ => true

def FlagSet.code : FlagSet → Nat
  | .va => 0 | .vb => 1 | .sx => 2

def decFs : Nat → Except Reject FlagSet
  | 0 => .ok .va | 1 => .ok .vb | 2 => .ok .sx | _ => .error .badValue

/-- The `st` field of `btok` (R117): pend, done, err, free are 0 to 3. -/
def TokState.btokCode : TokState → Nat
  | .pending => 0 | .done => 1 | .error => 2 | .free => 3

def decBtok : Nat → TokState
  | 0 => .pending | 1 => .done | 2 => .error | _ => .free

/-- Dependence fields of R145, bits 63 to 32. -/
def Deps.code (k : Deps) : Nat :=
  k.tc0.val + 2 ^ 6 * k.tc1.val + 2 ^ 12 * k.tc2.val + 2 ^ 18 * k.tp.val
    + match k.fold with
      | none => 0
      | some f => 2 ^ 24 * f.val + 2 ^ 31

def decDeps (w : Nat) : Except Reject Deps := do
  let en := fld w 63 1
  let fid := fld w 56 7
  guardOr (en == 1 || fid == 0) .reservedField
  .ok { fold := if en = 1 then some (Fin.ofNat 128 fid) else none
        tp := Fin.ofNat 64 (fld w 50 6), tc2 := Fin.ofNat 64 (fld w 44 6)
        tc1 := Fin.ofNat 64 (fld w 38 6), tc0 := Fin.ofNat 64 (fld w 32 6) }

/-- A field whose value must be 0. -/
def zero (w lo n : Nat) : Except Reject Unit := guardOr (fld w lo n == 0) .reservedField

/-- The l bit must give the length the encoding accepts (R91). -/
def needL (w l : Nat) : Except Reject Unit := guardOr (fld w 1 1 == l) .badLength

abbrev srcA (w : Nat) : Src := decSrc (fld w 17 5)
abbrev srcB (w : Nat) : Src := decSrc (fld w 22 5)
abbrev dstD (w : Nat) : Except Reject Dst := decDst (fld w 12 5)
abbrev isVW (w : Nat) : Bool := fld w 1 1 == 1

/-- Form VW of an instruction with vector sources a and b and no other field (R83). -/
def hi2 (w : Nat) : Except Reject (Option (Mod × Mod)) :=
  if isVW w then do zero w 38 26; .ok (some (decMod (fld w 32 3), decMod (fld w 35 3)))
  else .ok none

/-- Form VW of an instruction with one vector source a and no other field. -/
def hi1 (w : Nat) : Except Reject (Option Mod) :=
  if isVW w then do zero w 35 29; .ok (some (decMod (fld w 32 3))) else .ok none

/-- Form VW with only modb (R235). -/
def hiB (w : Nat) : Except Reject (Option Mod) :=
  if isVW w then do zero w 32 3; zero w 38 26; .ok (some (decMod (fld w 35 3))) else .ok none

/-- Form VW in which every field above bit 31 is reserved. -/
def hi0 (w : Nat) : Except Reject Bool :=
  if isVW w then do zero w 32 32; .ok true else .ok false

/-- Form VW with moda and the part field in ext bits 51 to 50 (R228); `t2` is what type2 must hold. -/
def hiPart (w t2 : Nat) : Except Reject (Option (Mod × BitVec 2)) :=
  if isVW w then do
    zero w 35 11; zero w 52 12
    guardOr (fld w 46 4 == t2) .badValue
    .ok (some (decMod (fld w 32 3), BitVec.ofNat 2 (fld w 50 2)))
  else .ok none

/-- Class and row offset of a 64-bit vector memory form (R240); nb is read by the caller. -/
def hiMem (w : Nat) : VMem := { cls := Fin.ofNat 16 (fld w 60 4), off9 := BitVec.ofNat 9 (fld w 51 9) }

/-- The head vector of a 64-bit scan form (R245). -/
def decSeg (w : Nat) : Except Reject (Option (Src × Mod)) :=
  if fld w 50 1 = 1 then .ok (some (decSrc (fld w 41 5), decMod (fld w 38 3)))
  else do zero w 38 8; .ok none

/-- The extra fields of a 64-bit scan form without payload. -/
def hiScan (w : Nat) : Except Reject (Option ScanExt) :=
  if isVW w then do
    zero w 35 3; zero w 46 4; zero w 51 13
    let seg ← decSeg w
    .ok (some { ma := decMod (fld w 32 3), seg := seg })
  else .ok none

/-- The extra fields of a 64-bit `scan.mini` or `scan.maxi` form. -/
def hiScanArg (w : Nat) : Except Reject (Option ScanArgExt) :=
  if isVW w then do
    zero w 46 4; zero w 52 12
    let seg ← decSeg w
    .ok (some { ma := decMod (fld w 32 3), mb := decMod (fld w 35 3), tie := fld w 51 1 == 1, seg := seg })
  else .ok none

/-- Form T of the scalar slots with two sources (R80, R102). -/
def decTab (w : Nat) (k : Ty → Dst → Src → Src → Instr) : Except Reject Instr := do
  zero w 31 1
  let t ← decTy Ty.isScalarInt (fld w 27 4)
  let d ← dstD w
  .ok (k t d (srcA w) (srcB w))

/-- Form T of the scalar slots with one source. -/
def decTa (w : Nat) (k : Ty → Dst → Src → Instr) : Except Reject Instr := do
  zero w 31 1; zero w 22 5
  let t ← decTy Ty.isScalarInt (fld w 27 4)
  let d ← dstD w
  .ok (k t d (srcA w))

/-- Major 0, the modifying syllable of R84. -/
def decPfx (w : Nat) : Except Reject Instr := do
  needL w 0; zero w 28 4
  let rnd ← decRnd (fld w 7 3)
  let sat ← decSat (fld w 10 2)
  let flush ← decFlush (fld w 12 2)
  .ok (.pfx { tag := BitVec.ofNat 8 (fld w 20 8), tagEn := fld w 19 1 == 1, cls := Fin.ofNat 16 (fld w 15 4),
              clsEn := fld w 14 1 == 1, flush := flush, sat := sat, rnd := rnd })

/-- Major 1 (R102, R104, R107, R108). -/
def decInt (w : Nat) : Except Reject Instr := do
  needL w 0
  match fld w 7 5 with
  | 0 => decTab w .add | 1 => decTab w .sub | 2 => decTab w .mul | 3 => decTab w .mulh
  | 4 => decTab w .div | 5 => decTab w .rem | 6 => decTab w .and | 7 => decTab w .or
  | 8 => decTab w .xor | 9 => decTab w .andn | 10 => decTab w .shl | 11 => decTab w .shr
  | 12 => decTab w .sar | 13 => decTab w .rot | 14 => decTab w .min | 15 => decTab w .max
  | 16 => decTab w .ceq | 17 => decTab w .cne | 18 => decTab w .clt | 19 => decTab w .cle
  | 20 => do
    let d ← dstD w
    .ok (.sel d (decSrc (fld w 27 5)) (srcA w) (srcB w))
  | 21 => decTa w .neg | 22 => decTa w .abs | 23 => decTa w .clz | 24 => decTa w .popc | 25 => decTa w .mov
  | 26 => do
    zero w 22 10
    let sv ← decSpecial (fld w 17 5)
    let d ← dstD w
    .ok (.rdsp d sv)
  | 27 => do
    zero w 22 10
    let cr ← decCtlReg (fld w 17 5)
    let d ← dstD w
    .ok (.rdctl d cr)
  | 28 => do
    zero w 22 10
    let cr ← decCtlReg (fld w 12 5)
    guardOr cr.writable .badValue
    .ok (.wrctl cr (srcA w))
  | _ => .error .unassignedMinor

/-- Form I (R81). -/
def decImm (w : Nat) (k : Bool → Dst → Src → BitVec 9 → Instr) : Except Reject Instr := do
  let d ← dstD w
  .ok (k (fld w 31 1 == 1) d (srcA w) (BitVec.ofNat 9 (fld w 22 9)))

/-- Form I of a shift, whose count is 0 to 63 (R105). -/
def decImmSh (w : Nat) (k : Bool → Dst → Src → BitVec 9 → Instr) : Except Reject Instr := do
  guardOr (fld w 22 9 < 64) .badValue
  decImm w k

/-- Major 2 (R105). -/
def decIntImm (w : Nat) : Except Reject Instr := do
  needL w 0
  match fld w 7 5 with
  | 0 => decImm w .addImm | 1 => decImm w .mulImm | 2 => decImm w .andImm | 3 => decImm w .orImm
  | 4 => decImm w .xorImm | 5 => decImmSh w .shlImm | 6 => decImmSh w .shrImm | 7 => decImmSh w .sarImm
  | 8 => decImm w .ceqImm | 9 => decImm w .cltImm | 10 => decImm w .cleImm | 11 => decImm w .minImm
  | 12 => decImm w .maxImm
  | 13 => do
    zero w 17 5
    let d ← dstD w
    .ok (.movImm (fld w 31 1 == 1) d (BitVec.ofNat 9 (fld w 22 9)))
  | _ => .error .unassignedMinor

/-- Form L (R82). -/
def decL (w : Nat) (ok : Ty → Bool) (k : Ty → Dst → Src → BitVec 32 → Instr) : Except Reject Instr := do
  zero w 31 1; zero w 22 5
  let t ← decTy ok (fld w 27 4)
  let d ← dstD w
  .ok (k t d (srcA w) (BitVec.ofNat 32 (fld w 32 32)))

/-- Major 3 (R106). -/
def decIntLong (w : Nat) : Except Reject Instr := do
  needL w 1
  match fld w 7 5 with
  | 0 => decL w Ty.isScalarInt .addLong | 1 => decL w Ty.isScalarInt .mulLong
  | 2 => decL w Ty.isScalarInt .andLong | 3 => decL w Ty.isScalarInt .orLong
  | 4 => decL w Ty.isScalarInt .xorLong | 5 => decL w Ty.isScalarInt .ceqLong
  | 6 => decL w Ty.isScalarInt .cltLong | 7 => decL w Ty.isScalarInt .cleLong
  | 8 => do
    zero w 17 5
    decL w Ty.isScalarInt (fun t d _ i => .movLong t d i)
  | 9 => decL w (fun t => t == .s64 || t == .z64) .movh
  | 10 => do
    zero w 17 5
    decL w (· == .z64) (fun _ d _ i => .adr d i)
  | _ => .error .unassignedMinor

/-- Major 5 (R110). -/
def decMem (w : Nat) : Except Reject Instr := do
  match fld w 7 5 with
  | 0 => do
    needL w 0
    decTab w .ld
  | 1 => do
    needL w 0; zero w 31 1
    let t ← decTy Ty.isScalarInt (fld w 27 4)
    .ok (.st t (decSrc (fld w 12 5)) (srcA w) (srcB w))
  | 2 => do
    needL w 1; zero w 31 1; zero w 22 1
    let t ← decTy Ty.isScalarInt (fld w 27 4)
    let d ← dstD w
    .ok (.ldOffset t (Fin.ofNat 16 (fld w 23 4)) d (srcA w) (BitVec.ofNat 32 (fld w 32 32)))
  | 3 => do
    needL w 1; zero w 31 1; zero w 22 1
    let t ← decTy Ty.isScalarInt (fld w 27 4)
    .ok (.stOffset t (Fin.ofNat 16 (fld w 23 4)) (decSrc (fld w 12 5)) (srcA w) (BitVec.ofNat 32 (fld w 32 32)))
  | 4 => do
    needL w 0; zero w 12 4
    .ok (.fenceK (BitVec.ofNat 16 (fld w 16 16)))
  | _ => .error .unassignedMinor

/-- A local atomic of R115 whose c field is reserved. -/
def decAmo (w : Nat) (ok : Ty → Bool)
    (k : Ty → Fin 16 → Dst → Src → Src → BitVec 16 → Instr) : Except Reject Instr := do
  needL w 1; zero w 31 1; zero w 32 10; zero w 42 2
  let t ← decTy ok (fld w 27 4)
  let d ← dstD w
  .ok (k t (Fin.ofNat 16 (fld w 44 4)) d (srcA w) (srcB w) (BitVec.ofNat 16 (fld w 48 16)))

/-- Major 6 (R115). -/
def decAmos (w : Nat) : Except Reject Instr := do
  match fld w 7 5 with
  | 0 => decAmo w Ty.isAmo .amoAdd | 1 => decAmo w Ty.isAmo .amoAnd | 2 => decAmo w Ty.isAmo .amoOr
  | 3 => decAmo w Ty.isAmo .amoXor | 4 => decAmo w Ty.isAmo .amoMax | 5 => decAmo w Ty.isAmo .amoMin
  | 6 => decAmo w Ty.isAmo .amoSwap
  | 7 => do
    needL w 1; zero w 31 1; zero w 32 5; zero w 42 2
    let t ← decTy Ty.isAmo (fld w 27 4)
    let d ← dstD w
    .ok (.amoCas t (Fin.ofNat 16 (fld w 44 4)) d (srcA w) (srcB w) (decSrc (fld w 37 5))
      (BitVec.ofNat 16 (fld w 48 16)))
  | 8 => decAmo w (· == .f32) (fun _ => .amoFadd)
  | 9 => decAmo w (· == .f32) (fun _ => .amoFmax)
  | 10 => decAmo w (· == .f32) (fun _ => .amoFmin)
  | 11 => decAmo w Ty.isSadd .amoSadd
  | _ => .error .unassignedMinor

/-- Major 7 (R117). -/
def decBranch (w : Nat) : Except Reject Instr := do
  needL w 0
  match fld w 7 5 with
  | 0 => .ok (.br (BitVec.ofNat 20 (fld w 12 20)))
  | 1 => .ok (.brz (decSrc (fld w 12 5)) (BitVec.ofNat 15 (fld w 17 15)))
  | 2 => .ok (.brnz (decSrc (fld w 12 5)) (BitVec.ofNat 15 (fld w 17 15)))
  | 3 => do let fs ← decFs (fld w 12 2); .ok (.bany fs (BitVec.ofNat 18 (fld w 14 18)))
  | 4 => do let fs ← decFs (fld w 12 2); .ok (.ball fs (BitVec.ofNat 18 (fld w 14 18)))
  | 5 => do let fs ← decFs (fld w 12 2); .ok (.bnone fs (BitVec.ofNat 18 (fld w 14 18)))
  | 6 => do
    let fs ← decFs (fld w 12 2)
    if fld w 19 1 = 0 then .ok (.bcntGe fs (decSrc (fld w 14 5)) (BitVec.ofNat 12 (fld w 20 12)))
    else .ok (.bcntLt fs (decSrc (fld w 14 5)) (BitVec.ofNat 12 (fld w 20 12)))
  | 7 => .ok (.call (BitVec.ofNat 20 (fld w 12 20)))
  | 8 => do zero w 12 20; .ok .ret
  | 9 => do zero w 22 10; zero w 12 5; .ok (.jmp (srcA w))
  | 10 => do zero w 22 10; zero w 12 5; .ok (.callr (srcA w))
  | 11 => do
    zero w 12 2
    guardOr (fld w 22 10 != 0) .badValue
    let lvl := Fin.ofNat 4 (fld w 14 2)
    let off := BitVec.ofNat 10 (fld w 22 10)
    if fld w 16 1 = 0 then .ok (.loop lvl (srcA w) off) else .ok (.loopSw lvl (srcA w) off)
  | 12 => do zero w 16 16; .ok (.loopClr (BitVec.ofNat 4 (fld w 12 4)))
  | 13 => do zero w 12 2; .ok (.bskip (BitVec.ofNat 18 (fld w 14 18)))
  | 14 => .ok (.btok (decBtok (fld w 18 2)) (Fin.ofNat 64 (fld w 12 6)) (BitVec.ofNat 12 (fld w 20 12)))
  | _ => .error .unassignedMinor

/-- Major 8 (R124, R125, R135, R163, R177, R181, R185). -/
def decSystem (w : Nat) : Except Reject Instr := do
  needL w 0
  match fld w 7 5 with
  | 0 => do zero w 12 20; .ok .nop
  | 1 => do zero w 12 20; .ok .halt
  | 2 => do zero w 12 4; .ok (.trap (BitVec.ofNat 16 (fld w 16 16)))
  | 3 => do zero w 12 20; .ok .tfence
  | 4 => do
    zero w 12 1
    if fld w 13 1 = 0 then do zero w 14 18; .ok .idem
    else .ok (.idemChk (BitVec.ofNat 18 (fld w 14 18)))
  | 5 => do zero w 18 14; .ok (.phase (Fin.ofNat 64 (fld w 12 6)))
  | 6 => do zero w 22 10; zero w 12 5; .ok (.ctxsw (srcA w))
  | 7 => do zero w 12 20; .ok .eret
  | 8 => do zero w 22 10; zero w 12 5; .ok (.icinv (srcA w))
  | _ => .error .unassignedMinor

/-- Major 9 (R155). -/
def decWait (w : Nat) : Except Reject Instr := do
  needL w 0
  match fld w 7 5 with
  | 0 =>
    let t0 := Fin.ofNat 64 (fld w 12 6)
    let t1 := Fin.ofNat 64 (fld w 18 6)
    let t2 := Fin.ofNat 64 (fld w 24 6)
    match fld w 30 2 with
    | 1 => do zero w 18 12; .ok (.waitTok (.one t0))
    | 2 => do zero w 24 6; .ok (.waitTok (.two t0 t1))
    | 3 => .ok (.waitTok (.three t0 t1 t2))
    | _ => .error .reservedField
  | 1 => do zero w 22 10; zero w 12 5; .ok (.waitAny (srcA w))
  | 2 => do zero w 12 12; .ok (.waitFold (Fin.ofNat 128 (fld w 25 7)) (fld w 24 1 == 1))
  | 3 => do zero w 22 3; zero w 12 5; .ok (.arrive (Fin.ofNat 128 (fld w 25 7)) (srcA w))
  | 4 => do
    zero w 22 2; zero w 12 5
    let f := Fin.ofNat 128 (fld w 25 7)
    if fld w 24 1 = 0 then .ok (.foldSetBytes f (srcA w)) else .ok (.foldSetArr f (srcA w))
  | 5 => do zero w 22 10; zero w 12 5; .ok (.tokClr (srcA w))
  | 6 => do zero w 12 20; .ok .yield
  | _ => .error .unassignedMinor

/-- A vector instruction of type t with sources a and b (R216). -/
def decVab (w : Nat) (ok : Ty → Bool) (k : Ty → Dst → Src → Src → Option (Mod × Mod) → Instr) :
    Except Reject Instr := do
  zero w 31 1
  let t ← decTy ok (fld w 27 4)
  let d ← dstD w
  let h ← hi2 w
  .ok (k t d (srcA w) (srcB w) h)

/-- A vector instruction of type t with one source (R216). -/
def decVa (w : Nat) (ok : Ty → Bool) (k : Ty → Dst → Src → Option Mod → Instr) : Except Reject Instr := do
  zero w 31 1; zero w 22 5
  let t ← decTy ok (fld w 27 4)
  let d ← dstD w
  let h ← hi1 w
  .ok (k t d (srcA w) h)

/-- Major 10 (R220, R221). -/
def decVFloat (w : Nat) : Except Reject Instr := do
  match fld w 7 5 with
  | 0 => decVab w Ty.isFloat .vaddF | 1 => decVab w Ty.isFloat .vsubF | 2 => decVab w Ty.isFloat .vmulF
  | 3 => do
    zero w 31 1
    let t ← decTy Ty.isFloat (fld w 27 4)
    if isVW w then do
      let d ← dstD w
      zero w 46 18
      .ok (.vfmaVw t d (srcA w) (srcB w) (decSrc (fld w 41 5)) (decMod (fld w 32 3)) (decMod (fld w 35 3))
        (decMod (fld w 38 3)))
    else do
      guardOr (fld w 12 5 < 16) .badDest
      .ok (.vfma t (Fin.ofNat 16 (fld w 12 5)) (srcA w) (srcB w))
  | 4 => decVab w Ty.isFloat .vmaxF | 5 => decVab w Ty.isFloat .vminF
  | 6 => decVa w Ty.isFloat .vabsF | 7 => decVa w Ty.isFloat .vnegF | 8 => decVa w Ty.isFloat .vsqrt
  | 9 => decVab w Ty.isFloat .vdiv
  | _ => .error .unassignedMinor

/-- Major 11 (R222, R223). -/
def decVInt (w : Nat) : Except Reject Instr := do
  match fld w 7 5 with
  | 0 => decVab w Ty.isVecInt .vaddI | 1 => decVab w Ty.isVecInt .vsubI | 2 => decVab w Ty.isVecInt .vmulI
  | 3 => decVab w Ty.isVecInt .vmulh
  | 4 => decVab w Ty.isLogic .vand | 5 => decVab w Ty.isLogic .vor | 6 => decVab w Ty.isLogic .vxor
  | 7 => decVab w Ty.isLogic .vandn
  | 8 => decVab w Ty.isVecInt .vshl | 9 => decVab w Ty.isVecInt .vshr | 10 => decVab w Ty.isVecInt .vsar
  | 11 => decVab w Ty.isVecInt .vminI | 12 => decVab w Ty.isVecInt .vmaxI
  | 13 => decVa w Ty.isVecInt .vabsI | 14 => decVa w Ty.isVecInt .vnegI
  | 15 => do
    let d ← dstD w
    let c := decSrc (fld w 27 5)
    if isVW w then do
      zero w 41 23
      .ok (.vsel d c (srcA w) (srcB w)
        (some (decMod (fld w 32 3), decMod (fld w 35 3), decMod (fld w 38 3))))
    else .ok (.vsel d c (srcA w) (srcB w) none)
  | 16 => do
    zero w 22 10
    let d ← dstD w
    let h ← hi1 w
    .ok (.vmov d (srcA w) h)
  | 17 => do
    zero w 31 1; zero w 22 5
    let t ← decTy Ty.isLogic (fld w 27 4)
    let d ← dstD w
    let h ← hi0 w
    .ok (.vbcast t d (srcA w) h)
  | _ => .error .unassignedMinor

/-- Major 12 (R224, R225). -/
def decVCmp (w : Nat) : Except Reject Instr := do
  match fld w 7 5 with
  | 0 => decVab w Ty.isCode0to9 .vceq | 1 => decVab w Ty.isCode0to9 .vcne
  | 2 => decVab w Ty.isCode0to9 .vclt | 3 => decVab w Ty.isCode0to9 .vcle
  | 4 => decVab w Ty.isUnordered .vcun
  | 5 => do
    zero w 22 10; zero w 12 5
    let h ← hi1 w
    .ok (.mpush (srcA w) h)
  | 6 => do zero w 12 20; let h ← hi0 w; .ok (.minv h)
  | 7 => do zero w 12 20; let h ← hi0 w; .ok (.mpop h)
  | 8 => do
    zero w 22 10; zero w 12 5
    let h ← hi1 w
    .ok (.mset (srcA w) h)
  | 9 => do
    zero w 17 15
    let d ← dstD w
    let h ← hi0 w
    .ok (.mget d h)
  | _ => .error .unassignedMinor

/-- Major 13 (R228 to R230). -/
def decVCvt (w : Nat) : Except Reject Instr := do
  match fld w 7 5 with
  | 0 => do
    zero w 31 1; zero w 26 1
    let dt ← decTy Ty.isCode0to9 (fld w 27 4)
    let st ← decTy Ty.isCode0to9 (fld w 22 4)
    let d ← dstD w
    let h ← hiPart w (fld w 22 4)
    match h with
    | none => .ok (.vcvt dt st d (srcA w) none)
    | some (m, p) => do
      guardOr (p.toNat < cvtParts dt st) .badValue
      .ok (.vcvt dt st d (srcA w) (some (m, p)))
  | 1 => decVab w Ty.isQuant .vquant
  | 2 => decVab w Ty.isPack .vpack
  | 3 => do
    zero w 31 1; zero w 22 5
    let t ← decTy Ty.isPack (fld w 27 4)
    let d ← dstD w
    let h ← hiPart w 0
    match h with
    | none => .ok (.vunpk t d (srcA w) none)
    | some (m, p) => do
      guardOr (p.toNat < 2) .badValue
      .ok (.vunpk t d (srcA w) (some (m, p)))
  | _ => .error .unassignedMinor

/-- Major 14 (R235). -/
def decVLogic (w : Nat) : Except Reject Instr := do
  match fld w 7 5 with
  | 0 => do
    zero w 31 1
    let _ ← decTy (· == .l2) (fld w 27 4)
    guardOr (fld w 17 5 < 13) .badValue
    let d ← dstD w
    let h ← hiB w
    .ok (.vlut d (Fin.ofNat 13 (fld w 17 5)) (srcB w) h)
  | 1 => do
    zero w 31 1
    let t ← decTy Ty.isLogic (fld w 27 4)
    let d ← dstD w
    let h ← hiB w
    .ok (.vevt t d (srcA w) (srcB w) h)
  | 2 => do
    zero w 31 1
    let _ ← decTy (· == .l2) (fld w 27 4)
    let d ← dstD w
    let h ← hiB w
    .ok (.vres d (srcA w) (srcB w) h)
  | 3 => do
    zero w 27 5; zero w 12 5
    let h ← hi0 w
    .ok (.vttw (srcA w) (srcB w) h)
  | _ => .error .unassignedMinor

/-- Major 15 (R240). -/
def decVMem (w : Nat) : Except Reject Instr := do
  zero w 27 5
  match fld w 7 5 with
  | 0 => do
    let d ← dstD w
    if isVW w then do
      zero w 32 18
      if fld w 50 1 = 1 then do zero w 22 5; .ok (.vldImm d (srcA w) (hiMem w))
      else .ok (.vld d (srcA w) (srcB w) (some (hiMem w)))
    else .ok (.vld d (srcA w) (srcB w) none)
  | 1 =>
    let v := decSrc (fld w 12 5)
    if isVW w then do
      zero w 32 18
      if fld w 50 1 = 1 then do zero w 22 5; .ok (.vstImm v (srcA w) (hiMem w))
      else .ok (.vst v (srcA w) (srcB w) (some (hiMem w)))
    else .ok (.vst v (srcA w) (srcB w) none)
  | 2 => do
    let d ← dstD w
    if isVW w then do
      zero w 32 3; zero w 38 13
      .ok (.vldi d (srcA w) (srcB w) (some (hiMem w, decMod (fld w 35 3))))
    else .ok (.vldi d (srcA w) (srcB w) none)
  | 3 =>
    let v := decSrc (fld w 12 5)
    if isVW w then do
      zero w 32 3; zero w 38 13
      .ok (.vsti v (srcA w) (srcB w) (some (hiMem w, decMod (fld w 35 3))))
    else .ok (.vsti v (srcA w) (srcB w) none)
  | _ => .error .unassignedMinor

/-- A typed scan with no payload (R245). -/
def decScanT (w : Nat) (k : Ty → Bool → Dst → Src → Option ScanExt → Instr) : Except Reject Instr := do
  zero w 22 5
  let t ← decTy Ty.isScan (fld w 27 4)
  let d ← dstD w
  let h ← hiScan w
  .ok (k t (fld w 31 1 == 1) d (srcA w) h)

/-- A scan with a payload source. -/
def decScanArg (w : Nat) (k : Ty → Bool → Dst → Src → Src → Option ScanArgExt → Instr) :
    Except Reject Instr := do
  let t ← decTy Ty.isScan (fld w 27 4)
  let d ← dstD w
  let h ← hiScanArg w
  .ok (k t (fld w 31 1 == 1) d (srcA w) (srcB w) h)

/-- A scan whose type field is reserved. -/
def decScanU (w : Nat) (k : Bool → Dst → Src → Option ScanExt → Instr) : Except Reject Instr := do
  zero w 22 9
  let d ← dstD w
  let h ← hiScan w
  .ok (k (fld w 31 1 == 1) d (srcA w) h)

/-- Major 16 (R245). -/
def decScan (w : Nat) : Except Reject Instr := do
  match fld w 7 5 with
  | 0 => decScanT w .scanAdd | 1 => decScanT w .scanMin | 2 => decScanT w .scanMax
  | 3 => decScanArg w .scanMini | 4 => decScanArg w .scanMaxi
  | 5 => decScanU w .scanAnd | 6 => decScanU w .scanOr | 7 => decScanU w .scanXor
  | 8 => decScanU w .scanFirst | 9 => decScanU w .scanLast
  | 10 => do
    zero w 22 10
    let d ← dstD w
    let h ← hi1 w
    .ok (.compress d (srcA w) h)
  | 11 => do
    zero w 22 10
    let d ← dstD w
    let h ← hi1 w
    .ok (.expand d (srcA w) h)
  | _ => .error .unassignedMinor

/-- Major 17 (R209). -/
def decRoute (w : Nat) : Except Reject Instr := do
  needL w 0
  let xd := Fin.ofNat 32 (fld w 12 5)
  match fld w 7 5 with
  | 0 => .ok (.rteLd xd (BitVec.ofNat 15 (fld w 17 15)))
  | 1 => do zero w 22 10; .ok (.rteBpc xd (srcA w))
  | 2 => do
    let sd ← decDst (fld w 22 5)
    .ok (.rteSolve xd sd (srcA w) (decSrc (fld w 27 5)))
  | 3 => do zero w 22 10; .ok (.rteMv xd (Fin.ofNat 32 (fld w 17 5)))
  | 4 => do
    zero w 22 5
    let vd ← dstD w
    .ok (.rtePass vd (srcA w) (decSrc (fld w 27 5)))
  | 5 => do zero w 22 10; .ok (.rteSt (srcA w) xd)
  | _ => .error .unassignedMinor

/-- Major 18 (R248). -/
def decCopy (w : Nat) : Except Reject Instr := do
  needL w 1
  let d := decSrc (fld w 27 5)
  let a := decSrc (fld w 22 5)
  let b := decSrc (fld w 17 5)
  match fld w 7 5 with
  | 0 => do zero w 12 5; let k ← decDeps w; .ok (.cpBb d a b k)
  | 1 => do zero w 12 5; let k ← decDeps w; .ok (.cpPb d a b k)
  | 2 => do zero w 12 5; let k ← decDeps w; .ok (.cpBp d a b k)
  | 3 => do zero w 12 5; let k ← decDeps w; .ok (.cpBo d a b k)
  | 4 => do zero w 12 20; let k ← decDeps w; .ok (.cpRs k)
  | _ => .error .unassignedMinor

abbrev arrM (w : Nat) : Fin 16 := Fin.ofNat 16 (fld w 28 4)
abbrev arrA (w : Nat) : Src := decSrc (fld w 23 5)
abbrev arrB (w : Nat) : Src := decSrc (fld w 18 5)
abbrev arrC (w : Nat) : Src := decSrc (fld w 13 5)

/-- Major 19 (R248). -/
def decMatrix (w : Nat) : Except Reject Instr := do
  needL w 1
  match fld w 7 5 with
  | 0 => do let k ← decDeps w; .ok (.mwld (arrM w) (arrA w) (arrB w) (arrC w) (fld w 12 1 == 1) k)
  | 1 => do let k ← decDeps w; .ok (.mmul (arrM w) (arrA w) (arrB w) (arrC w) (fld w 12 1 == 1) k)
  | 2 => do zero w 12 1; let k ← decDeps w; .ok (.mdrn (arrM w) (arrA w) (arrB w) (arrC w) k)
  | 3 => do zero w 12 16; let k ← decDeps w; .ok (.mresume (arrM w) k)
  | _ => .error .unassignedMinor

/-- Major 20 (R248, R268). -/
def decDistance (w : Nat) : Except Reject Instr := do
  needL w 1
  match fld w 7 5 with
  | 0 => do let k ← decDeps w; .ok (.mdist (arrM w) (arrA w) (arrB w) (arrC w) (fld w 12 1 == 1) k)
  | 1 => do let k ← decDeps w; .ok (.mcent (arrM w) (arrA w) (arrB w) (arrC w) (fld w 12 1 == 1) k)
  | 2 => do zero w 12 6; let k ← decDeps w; .ok (.mbest (arrM w) (arrA w) (arrB w) k)
  | 3 => do zero w 12 1; let k ← decDeps w; .ok (.mcdrn (arrM w) (arrA w) (arrB w) (arrC w) k)
  | _ => .error .unassignedMinor

/-- Major 21 (R248, R259). -/
def decSlot (w : Nat) : Except Reject Instr := do
  needL w 1
  let o := Fin.ofNat 128 (fld w 25 7)
  match fld w 7 5 with
  | 0 => do zero w 12 13; let k ← decDeps w; .ok (.slotClaim o k)
  | 1 => do zero w 12 13; let k ← decDeps w; .ok (.slotRelease o k)
  | 2 => do zero w 12 8; let k ← decDeps w; .ok (.slotShape o (decSrc (fld w 20 5)) k)
  | 3 => do zero w 12 13; let k ← decDeps w; .ok (.slotZero o k)
  | _ => .error .unassignedMinor

abbrev remCls (w : Nat) : Fin 16 := Fin.ofNat 16 (fld w 28 4)

/-- A remote atomic of R313. -/
def decAmoFar (w : Nat) (k : Fin 16 → Src → Src → Src → Deps → Instr) : Except Reject Instr := do
  zero w 12 1
  let dep ← decDeps w
  .ok (k (remCls w) (arrA w) (arrB w) (arrC w) dep)

/-- Major 22 (R313). -/
def decRemote (w : Nat) : Except Reject Instr := do
  needL w 1
  match fld w 7 5 with
  | 0 => do
    zero w 13 5
    let k ← decDeps w
    .ok (.rld (remCls w) (arrA w) (arrB w) (fld w 12 1 == 1) k)
  | 1 => do
    zero w 23 5
    let k ← decDeps w
    .ok (.rst (remCls w) (arrB w) (arrC w) (fld w 12 1 == 1) k)
  | 2 => do
    let k ← decDeps w
    if fld w 12 1 = 0 then .ok (.rcpGet (remCls w) (arrA w) (arrB w) (arrC w) k)
    else .ok (.rcpPut (remCls w) (arrA w) (arrB w) (arrC w) k)
  | 3 => do zero w 12 20; let k ← decDeps w; .ok (.rcpRs k)
  | 4 => do
    zero w 13 5
    let k ← decDeps w
    if fld w 12 1 = 0 then .ok (.rsig (remCls w) (arrA w) (arrB w) k)
    else .ok (.rsigRel (remCls w) (arrA w) (arrB w) k)
  | 5 => decAmoFar w .amoAddFar | 6 => decAmoFar w .amoAndFar | 7 => decAmoFar w .amoOrFar
  | 8 => decAmoFar w .amoXorFar | 9 => decAmoFar w .amoMaxFar | 10 => decAmoFar w .amoMinFar
  | 11 => decAmoFar w .amoFaddFar | 12 => decAmoFar w .amoFmaxFar | 13 => decAmoFar w .amoFminFar
  | 14 => decAmoFar w .amoSaddFar | 15 => decAmoFar w .amoSwapFar
  | 16 => do
    guardOr (arrC w).isPair .badValue
    decAmoFar w .amoCasFar
  | _ => .error .unassignedMinor

/-- Major 23 (R337, R352). -/
def decPanel (w : Nat) : Except Reject Instr := do
  let n := Fin.ofNat 16 (fld w 24 4)
  match fld w 7 5 with
  | 0 => do
    needL w 0; zero w 27 5
    let d ← dstD w
    .ok (.hops d (srcA w) (srcB w))
  | 1 => do
    needL w 1; zero w 28 4
    let k ← decDeps w
    guardOr k.noEdges .badValue
    if fld w 23 1 = 0 then .ok (.mcst n (arrB w) (arrC w) (fld w 12 1 == 1) k)
    else .ok (.mcstSt n (arrB w) (arrC w) (fld w 12 1 == 1) k)
  | 2 => do
    needL w 1; zero w 12 12
    let k ← decDeps w
    .ok (.pbar (remCls w) n k)
  | 3 => do
    needL w 1; zero w 28 4; zero w 23 1; zero w 12 6
    let k ← decDeps w
    .ok (.mwin n (arrB w) k)
  | _ => .error .unassignedMinor

/-- Major 31, the bundle route syllable (R88). -/
def decBundleRoute (w : Nat) : Except Reject Instr := do
  needL w 1; zero w 58 6
  let wr := fld w 7 1 == 1
  let far := BitVec.ofNat 16 (fld w 42 16)
  match fld w 8 2 with
  | 0 => do zero w 10 32; .ok (.bundleRoute wr far .identity)
  | 1 => do
    let desc := BitVec.ofNat 32 (fld w 10 32)
    guardOr (bpcValid desc) .badValue
    .ok (.bundleRoute wr far (.bpc desc))
  | 2 => do
    zero w 39 3
    guardOr (fld w 34 5 != 0) .badValue
    .ok (.bundleRoute wr far (.pool (BitVec.ofNat 5 (fld w 34 5)) (BitVec.ofNat 24 (fld w 10 24))))
  | _ => do zero w 15 27; .ok (.bundleRoute wr far (.reg (Fin.ofNat 32 (fld w 10 5))))

/-- Decode one syllable, given as a 64-bit number; a 32-bit syllable is its low half (R71, R91, R92). -/
def decodeSyl (w : Nat) : Except Reject Instr :=
  match fld w 2 5 with
  | 0 => decPfx w
  | 1 => decInt w
  | 2 => decIntImm w
  | 3 => decIntLong w
  | 4 => do
    needL w 0
    guardOr (fld w 7 5 == 0) .unassignedMinor
    let d ← dstD w
    .ok (.lit d (BitVec.ofNat 15 (fld w 17 15)))
  | 5 => decMem w
  | 6 => decAmos w
  | 7 => decBranch w
  | 8 => decSystem w
  | 9 => decWait w
  | 10 => decVFloat w
  | 11 => decVInt w
  | 12 => decVCmp w
  | 13 => decVCvt w
  | 14 => decVLogic w
  | 15 => decVMem w
  | 16 => decScan w
  | 17 => decRoute w
  | 18 => decCopy w
  | 19 => decMatrix w
  | 20 => decDistance w
  | 21 => decSlot w
  | 22 => decRemote w
  | 23 => decPanel w
  | 31 => decBundleRoute w
  | _ => .error .reservedMajor

/-- The number a little-endian byte list stands for (R6). -/
def leNat : List Byte → Nat
  | [] => 0
  | b :: bs => b.toNat + 256 * leNat bs

/-- The first n little-endian bytes of a number. -/
def leBytes : Nat → Nat → List Byte
  | 0, _ => []
  | n + 1, w => BitVec.ofNat 8 w :: leBytes n (w / 256)

/-- A fetched syllable (R70, R71): its bits, whether it ends the bundle, and its length in bytes. -/
structure RawSyl where
  bits : Nat
  stop : Bool
  len : Nat
  deriving DecidableEq, Repr

/-- The syllable at the head of a byte list, whose length its l bit gives (R71); bytes past the end read 0. -/
def rawSyl (bs : List Byte) : RawSyl :=
  let lo := leNat (bs.take 4)
  if fld lo 1 1 = 1 then { bits := leNat (bs.take 8), stop := fld lo 0 1 == 1, len := 8 }
  else { bits := lo, stop := fld lo 0 1 == 1, len := 4 }

/-- The syllable at the head of a byte list and the bytes behind it (R71, R92). -/
def decodeBytes (bs : List Byte) : Except Reject (Instr × Bool × List Byte) :=
  let r := rawSyl bs
  match decodeSyl r.bits with
  | .ok i => .ok (i, r.stop, bs.drop r.len)
  | .error e => .error e

/-- What the decoder reads from a row's bits, laid out little-endian as the part stores them (R70). -/
def decodeTableWord (nbits w : Nat) : Option Instr :=
  match decodeBytes (leBytes 8 (w % 2 ^ nbits)) with
  | .ok (i, _, _) => some i
  | .error _ => none

/-! ### Encoding -/

/-- The low 32 bits of a standard form (R80), with the s bit clear. -/
def encLo (major minor d a b t r l : Nat) : Nat :=
  2 * l + 2 ^ 2 * major + 2 ^ 7 * minor + 2 ^ 12 * d + 2 ^ 17 * a + 2 ^ 22 * b + 2 ^ 27 * t + 2 ^ 31 * r

/-- Bits 63 to 32 of Form VW (R83). -/
def encHi (ma mb mc c t2 ext : Nat) : Nat :=
  2 ^ 32 * ma + 2 ^ 35 * mb + 2 ^ 38 * mc + 2 ^ 41 * c + 2 ^ 46 * t2 + 2 ^ 50 * ext

def encT (minor : Nat) (t : Ty) (d : Dst) (a b : Src) : Nat := encLo 1 minor d.code a.code b.code t.code 0 0
def encTa (minor : Nat) (t : Ty) (d : Dst) (a : Src) : Nat := encLo 1 minor d.code a.code 0 t.code 0 0

/-- Form I (R81): bits 30 to 22 hold the immediate and bit 31 holds z. -/
def encI (minor : Nat) (z : Bool) (d : Dst) (a : Src) (imm : BitVec 9) : Nat :=
  2 ^ 2 * 2 + 2 ^ 7 * minor + 2 ^ 12 * d.code + 2 ^ 17 * a.code + 2 ^ 22 * imm.toNat + 2 ^ 31 * z.toNat

/-- Form L (R82). -/
def encL (minor : Nat) (t : Ty) (d : Dst) (a : Nat) (imm : BitVec 32) : Nat :=
  encLo 3 minor d.code a 0 t.code 0 1 + 2 ^ 32 * imm.toNat

/-- Local atomics (R115). -/
def encAmo (minor : Nat) (t : Ty) (cls : Fin 16) (d : Dst) (a b : Src) (c : Nat) (off : BitVec 16) : Nat :=
  encLo 6 minor d.code a.code b.code t.code 0 1 + 2 ^ 37 * c + 2 ^ 44 * cls.val + 2 ^ 48 * off.toNat

/-- Branches and the other BR syllables (R117, R124, R155): the common bits and bits 31 to 12. -/
def encB (major minor rest : Nat) : Nat := 2 ^ 2 * major + 2 ^ 7 * minor + 2 ^ 12 * rest

def encVab (major minor : Nat) (t : Ty) (d : Dst) (a b : Src) (w : Option (Mod × Mod)) : Nat :=
  match w with
  | none => encLo major minor d.code a.code b.code t.code 0 0
  | some (ma, mb) => encLo major minor d.code a.code b.code t.code 0 1 + encHi ma.code mb.code 0 0 0 0

def encVa (major minor : Nat) (t d a : Nat) (w : Option Mod) : Nat :=
  match w with
  | none => encLo major minor d a 0 t 0 0
  | some ma => encLo major minor d a 0 t 0 1 + encHi ma.code 0 0 0 0 0

def encVB (minor : Nat) (t : Ty) (d : Dst) (a : Nat) (b : Src) (w : Option Mod) : Nat :=
  match w with
  | none => encLo 14 minor d.code a b.code t.code 0 0
  | some mb => encLo 14 minor d.code a b.code t.code 0 1 + encHi 0 mb.code 0 0 0 0

def encV0 (major minor t d a b : Nat) (wide : Bool) : Nat :=
  encLo major minor d a b t 0 wide.toNat

def encPart (minor : Nat) (t b t2 : Nat) (d : Dst) (a : Src) (w : Option (Mod × BitVec 2)) : Nat :=
  match w with
  | none => encLo 13 minor d.code a.code b t 0 0
  | some (ma, p) => encLo 13 minor d.code a.code b t 0 1 + encHi ma.code 0 0 0 t2 p.toNat

/-- The ext field of a 64-bit vector memory form (R240). -/
def VMem.ext (m : VMem) (nb : Nat) : Nat := nb + 2 * m.off9.toNat + 2 ^ 10 * m.cls.val

def encMem (minor d a b : Nat) (w : Option (VMem × Nat × Nat)) : Nat :=
  match w with
  | none => encLo 15 minor d a b 0 0 0
  | some (m, mb, nb) => encLo 15 minor d a b 0 0 1 + encHi 0 mb 0 0 0 (m.ext nb)

def segBits : Option (Src × Mod) → Nat × Nat × Nat
  | none => (0, 0, 0)
  | some (c, mc) => (1, c.code, mc.code)

def encScan (minor t : Nat) (red : Bool) (d : Dst) (a : Src) (w : Option ScanExt) : Nat :=
  match w with
  | none => encLo 16 minor d.code a.code 0 t red.toNat 0
  | some e =>
    let (s, c, mc) := segBits e.seg
    encLo 16 minor d.code a.code 0 t red.toNat 1 + encHi e.ma.code 0 mc c 0 s

def encScanArg (minor : Nat) (t : Ty) (red : Bool) (d : Dst) (a b : Src) (w : Option ScanArgExt) : Nat :=
  match w with
  | none => encLo 16 minor d.code a.code b.code t.code red.toNat 0
  | some e =>
    let (s, c, mc) := segBits e.seg
    encLo 16 minor d.code a.code b.code t.code red.toNat 1
      + encHi e.ma.code e.mb.code mc c 0 (s + 2 * e.tie.toNat)

/-- Copy syllables (R248). -/
def encCp (minor : Nat) (d a b : Src) (k : Deps) : Nat :=
  2 + 2 ^ 2 * 18 + 2 ^ 7 * minor + 2 ^ 17 * b.code + 2 ^ 22 * a.code + 2 ^ 27 * d.code + 2 ^ 32 * k.code

/-- The field layout shared by majors 19, 20, 22 and 23: 31-28, 27-23, 22-18, 17-13, 12. -/
def encE (major minor top a b c z : Nat) (k : Deps) : Nat :=
  2 + 2 ^ 2 * major + 2 ^ 7 * minor + 2 ^ 12 * z + 2 ^ 13 * c + 2 ^ 18 * b + 2 ^ 23 * a + 2 ^ 28 * top
    + 2 ^ 32 * k.code

def encFar (minor : Nat) (cls : Fin 16) (d a b : Src) (k : Deps) : Nat :=
  encE 22 minor cls.val d.code a.code b.code 0 k

def encSlot (minor : Nat) (o : Fin 128) (a : Nat) (k : Deps) : Nat :=
  2 + 2 ^ 2 * 21 + 2 ^ 7 * minor + 2 ^ 20 * a + 2 ^ 25 * o.val + 2 ^ 32 * k.code

def encTokList : TokList → Nat
  | .one a => a.val + 2 ^ 18
  | .two a b => a.val + 2 ^ 6 * b.val + 2 * 2 ^ 18
  | .three a b c => a.val + 2 ^ 6 * b.val + 2 ^ 12 * c.val + 3 * 2 ^ 18

def encRouteSrc : RouteSrc → Nat
  | .identity => 0
  | .bpc desc => 2 ^ 8 + 2 ^ 10 * desc.toNat
  | .pool len off => 2 * 2 ^ 8 + 2 ^ 10 * off.toNat + 2 ^ 34 * len.toNat
  | .reg x => 3 * 2 ^ 8 + 2 ^ 10 * x.val

/-- The bits of a syllable with its s bit clear; a step that is no syllable has none. -/
def encode : Instr → Option Nat
  | .pfx p => some (2 ^ 7 * rndCode p.rnd + 2 ^ 10 * p.sat.code + 2 ^ 12 * p.flush.code + 2 ^ 14 * p.clsEn.toNat
      + 2 ^ 15 * p.cls.val + 2 ^ 19 * p.tagEn.toNat + 2 ^ 20 * p.tag.toNat)
  | .bundleRoute wr far src => some (2 + 2 ^ 2 * 31 + 2 ^ 7 * wr.toNat + encRouteSrc src + 2 ^ 42 * far.toNat)
  | .add t d a b => some (encT 0 t d a b) | .sub t d a b => some (encT 1 t d a b)
  | .mul t d a b => some (encT 2 t d a b) | .mulh t d a b => some (encT 3 t d a b)
  | .div t d a b => some (encT 4 t d a b) | .rem t d a b => some (encT 5 t d a b)
  | .and t d a b => some (encT 6 t d a b) | .or t d a b => some (encT 7 t d a b)
  | .xor t d a b => some (encT 8 t d a b) | .andn t d a b => some (encT 9 t d a b)
  | .shl t d a b => some (encT 10 t d a b) | .shr t d a b => some (encT 11 t d a b)
  | .sar t d a b => some (encT 12 t d a b) | .rot t d a b => some (encT 13 t d a b)
  | .min t d a b => some (encT 14 t d a b) | .max t d a b => some (encT 15 t d a b)
  | .ceq t d a b => some (encT 16 t d a b) | .cne t d a b => some (encT 17 t d a b)
  | .clt t d a b => some (encT 18 t d a b) | .cle t d a b => some (encT 19 t d a b)
  | .sel d c a b => some (encLo 1 20 d.code a.code b.code (c.code % 16) (c.code / 16) 0)
  | .neg t d a => some (encTa 21 t d a) | .abs t d a => some (encTa 22 t d a)
  | .clz t d a => some (encTa 23 t d a) | .popc t d a => some (encTa 24 t d a)
  | .mov t d a => some (encTa 25 t d a)
  | .rdsp d sv => some (encLo 1 26 d.code sv.code 0 0 0 0)
  | .rdctl d cr => some (encLo 1 27 d.code cr.code 0 0 0 0)
  | .wrctl cr a => some (encLo 1 28 cr.code a.code 0 0 0 0)
  | .addImm z d a i => some (encI 0 z d a i) | .mulImm z d a i => some (encI 1 z d a i)
  | .andImm z d a i => some (encI 2 z d a i) | .orImm z d a i => some (encI 3 z d a i)
  | .xorImm z d a i => some (encI 4 z d a i) | .shlImm z d a i => some (encI 5 z d a i)
  | .shrImm z d a i => some (encI 6 z d a i) | .sarImm z d a i => some (encI 7 z d a i)
  | .ceqImm z d a i => some (encI 8 z d a i) | .cltImm z d a i => some (encI 9 z d a i)
  | .cleImm z d a i => some (encI 10 z d a i) | .minImm z d a i => some (encI 11 z d a i)
  | .maxImm z d a i => some (encI 12 z d a i) | .movImm z d i => some (encI 13 z d (.named 0) i)
  | .addLong t d a i => some (encL 0 t d a.code i) | .mulLong t d a i => some (encL 1 t d a.code i)
  | .andLong t d a i => some (encL 2 t d a.code i) | .orLong t d a i => some (encL 3 t d a.code i)
  | .xorLong t d a i => some (encL 4 t d a.code i) | .ceqLong t d a i => some (encL 5 t d a.code i)
  | .cltLong t d a i => some (encL 6 t d a.code i) | .cleLong t d a i => some (encL 7 t d a.code i)
  | .movLong t d i => some (encL 8 t d 0 i) | .movh t d a i => some (encL 9 t d a.code i)
  | .adr d i => some (encL 10 .z64 d 0 i)
  | .lit d off => some (2 ^ 2 * 4 + 2 ^ 12 * d.code + 2 ^ 17 * off.toNat)
  | .ld t d a b => some (encLo 5 0 d.code a.code b.code t.code 0 0)
  | .st t v a b => some (encLo 5 1 v.code a.code b.code t.code 0 0)
  | .ldOffset t c d a off => some (encLo 5 2 d.code a.code (2 * c.val) t.code 0 1 + 2 ^ 32 * off.toNat)
  | .stOffset t c v a off => some (encLo 5 3 v.code a.code (2 * c.val) t.code 0 1 + 2 ^ 32 * off.toNat)
  | .fenceK m => some (encB 5 4 (2 ^ 4 * m.toNat))
  | .amoAdd t c d a b o => some (encAmo 0 t c d a b 0 o) | .amoAnd t c d a b o => some (encAmo 1 t c d a b 0 o)
  | .amoOr t c d a b o => some (encAmo 2 t c d a b 0 o) | .amoXor t c d a b o => some (encAmo 3 t c d a b 0 o)
  | .amoMax t c d a b o => some (encAmo 4 t c d a b 0 o) | .amoMin t c d a b o => some (encAmo 5 t c d a b 0 o)
  | .amoSwap t c d a b o => some (encAmo 6 t c d a b 0 o)
  | .amoCas t c d a b e o => some (encAmo 7 t c d a b e.code o)
  | .amoFadd c d a b o => some (encAmo 8 .f32 c d a b 0 o) | .amoFmax c d a b o => some (encAmo 9 .f32 c d a b 0 o)
  | .amoFmin c d a b o => some (encAmo 10 .f32 c d a b 0 o)
  | .amoSadd t c d a b o => some (encAmo 11 t c d a b 0 o)
  | .br o => some (encB 7 0 o.toNat)
  | .brz a o => some (encB 7 1 (a.code + 2 ^ 5 * o.toNat)) | .brnz a o => some (encB 7 2 (a.code + 2 ^ 5 * o.toNat))
  | .bany f o => some (encB 7 3 (f.code + 2 ^ 2 * o.toNat)) | .ball f o => some (encB 7 4 (f.code + 2 ^ 2 * o.toNat))
  | .bnone f o => some (encB 7 5 (f.code + 2 ^ 2 * o.toNat))
  | .bcntGe f a o => some (encB 7 6 (f.code + 2 ^ 2 * a.code + 2 ^ 8 * o.toNat))
  | .bcntLt f a o => some (encB 7 6 (f.code + 2 ^ 2 * a.code + 2 ^ 7 + 2 ^ 8 * o.toNat))
  | .call o => some (encB 7 7 o.toNat) | .ret => some (encB 7 8 0)
  | .jmp a => some (encB 7 9 (2 ^ 5 * a.code)) | .callr a => some (encB 7 10 (2 ^ 5 * a.code))
  | .loop l a o => some (encB 7 11 (2 ^ 2 * l.val + 2 ^ 5 * a.code + 2 ^ 10 * o.toNat))
  | .loopSw l a o => some (encB 7 11 (2 ^ 2 * l.val + 2 ^ 4 + 2 ^ 5 * a.code + 2 ^ 10 * o.toNat))
  | .loopClr m => some (encB 7 12 m.toNat) | .bskip o => some (encB 7 13 (2 ^ 2 * o.toNat))
  | .btok s t o => some (encB 7 14 (t.val + 2 ^ 6 * s.btokCode + 2 ^ 8 * o.toNat))
  | .nop => some (encB 8 0 0) | .halt => some (encB 8 1 0) | .trap c => some (encB 8 2 (2 ^ 4 * c.toNat))
  | .tfence => some (encB 8 3 0) | .idem => some (encB 8 4 0)
  | .idemChk o => some (encB 8 4 (2 + 2 ^ 2 * o.toNat)) | .phase n => some (encB 8 5 n.val)
  | .ctxsw a => some (encB 8 6 (2 ^ 5 * a.code)) | .eret => some (encB 8 7 0)
  | .icinv a => some (encB 8 8 (2 ^ 5 * a.code))
  | .waitTok l => some (encB 9 0 (encTokList l)) | .waitAny a => some (encB 9 1 (2 ^ 5 * a.code))
  | .waitFold f p => some (encB 9 2 (2 ^ 12 * p.toNat + 2 ^ 13 * f.val))
  | .arrive f a => some (encB 9 3 (2 ^ 5 * a.code + 2 ^ 13 * f.val))
  | .foldSetBytes f a => some (encB 9 4 (2 ^ 5 * a.code + 2 ^ 13 * f.val))
  | .foldSetArr f a => some (encB 9 4 (2 ^ 5 * a.code + 2 ^ 12 + 2 ^ 13 * f.val))
  | .tokClr a => some (encB 9 5 (2 ^ 5 * a.code)) | .yield => some (encB 9 6 0)
  | .vaddF t d a b w => some (encVab 10 0 t d a b w) | .vsubF t d a b w => some (encVab 10 1 t d a b w)
  | .vmulF t d a b w => some (encVab 10 2 t d a b w)
  | .vfma t d a b => some (encLo 10 3 d.val a.code b.code t.code 0 0)
  | .vfmaVw t d a b c x y z =>
    some (encLo 10 3 d.code a.code b.code t.code 0 1 + encHi x.code y.code z.code c.code 0 0)
  | .vmaxF t d a b w => some (encVab 10 4 t d a b w) | .vminF t d a b w => some (encVab 10 5 t d a b w)
  | .vabsF t d a w => some (encVa 10 6 t.code d.code a.code w)
  | .vnegF t d a w => some (encVa 10 7 t.code d.code a.code w)
  | .vsqrt t d a w => some (encVa 10 8 t.code d.code a.code w) | .vdiv t d a b w => some (encVab 10 9 t d a b w)
  | .vaddI t d a b w => some (encVab 11 0 t d a b w) | .vsubI t d a b w => some (encVab 11 1 t d a b w)
  | .vmulI t d a b w => some (encVab 11 2 t d a b w) | .vmulh t d a b w => some (encVab 11 3 t d a b w)
  | .vand t d a b w => some (encVab 11 4 t d a b w) | .vor t d a b w => some (encVab 11 5 t d a b w)
  | .vxor t d a b w => some (encVab 11 6 t d a b w) | .vandn t d a b w => some (encVab 11 7 t d a b w)
  | .vshl t d a b w => some (encVab 11 8 t d a b w) | .vshr t d a b w => some (encVab 11 9 t d a b w)
  | .vsar t d a b w => some (encVab 11 10 t d a b w) | .vminI t d a b w => some (encVab 11 11 t d a b w)
  | .vmaxI t d a b w => some (encVab 11 12 t d a b w)
  | .vabsI t d a w => some (encVa 11 13 t.code d.code a.code w)
  | .vnegI t d a w => some (encVa 11 14 t.code d.code a.code w)
  | .vsel d c a b w => some (match w with
    | none => encLo 11 15 d.code a.code b.code (c.code % 16) (c.code / 16) 0
    | some (x, y, z) =>
      encLo 11 15 d.code a.code b.code (c.code % 16) (c.code / 16) 1 + encHi x.code y.code z.code 0 0 0)
  | .vmov d a w => some (encVa 11 16 0 d.code a.code w)
  | .vbcast t d a w => some (encV0 11 17 t.code d.code a.code 0 w)
  | .vceq t d a b w => some (encVab 12 0 t d a b w) | .vcne t d a b w => some (encVab 12 1 t d a b w)
  | .vclt t d a b w => some (encVab 12 2 t d a b w) | .vcle t d a b w => some (encVab 12 3 t d a b w)
  | .vcun t d a b w => some (encVab 12 4 t d a b w)
  | .mpush a w => some (encVa 12 5 0 0 a.code w) | .minv w => some (encV0 12 6 0 0 0 0 w)
  | .mpop w => some (encV0 12 7 0 0 0 0 w) | .mset a w => some (encVa 12 8 0 0 a.code w)
  | .mget d w => some (encV0 12 9 0 d.code 0 0 w)
  | .vcvt dt sty d a w => some (encPart 0 dt.code sty.code sty.code d a w)
  | .vquant t d a b w => some (encVab 13 1 t d a b w) | .vpack t d a b w => some (encVab 13 2 t d a b w)
  | .vunpk t d a w => some (encPart 3 t.code 0 0 d a w)
  | .vlut d a b w => some (encVB 0 .l2 d a.val b w) | .vevt t d a b w => some (encVB 1 t d a.code b w)
  | .vres d a b w => some (encVB 2 .l2 d a.code b w) | .vttw a b w => some (encV0 14 3 0 0 a.code b.code w)
  | .vld d a b w => some (encMem 0 d.code a.code b.code (w.map fun m => (m, 0, 0)))
  | .vldImm d a m => some (encMem 0 d.code a.code 0 (some (m, 0, 1)))
  | .vst v a b w => some (encMem 1 v.code a.code b.code (w.map fun m => (m, 0, 0)))
  | .vstImm v a m => some (encMem 1 v.code a.code 0 (some (m, 0, 1)))
  | .vldi d a b w => some (encMem 2 d.code a.code b.code (w.map fun m => (m.1, m.2.code, 0)))
  | .vsti v a b w => some (encMem 3 v.code a.code b.code (w.map fun m => (m.1, m.2.code, 0)))
  | .scanAdd t r d a w => some (encScan 0 t.code r d a w) | .scanMin t r d a w => some (encScan 1 t.code r d a w)
  | .scanMax t r d a w => some (encScan 2 t.code r d a w) | .scanMini t r d a b w => some (encScanArg 3 t r d a b w)
  | .scanMaxi t r d a b w => some (encScanArg 4 t r d a b w) | .scanAnd r d a w => some (encScan 5 0 r d a w)
  | .scanOr r d a w => some (encScan 6 0 r d a w) | .scanXor r d a w => some (encScan 7 0 r d a w)
  | .scanFirst r d a w => some (encScan 8 0 r d a w) | .scanLast r d a w => some (encScan 9 0 r d a w)
  | .compress d a w => some (encVa 16 10 0 d.code a.code w) | .expand d a w => some (encVa 16 11 0 d.code a.code w)
  | .rteLd x o => some (encB 17 0 (x.val + 2 ^ 5 * o.toNat))
  | .rteBpc x a => some (encB 17 1 (x.val + 2 ^ 5 * a.code))
  | .rteSolve x s v p => some (encB 17 2 (x.val + 2 ^ 5 * v.code + 2 ^ 10 * s.code + 2 ^ 15 * p.code))
  | .rteMv x a => some (encB 17 3 (x.val + 2 ^ 5 * a.val))
  | .rtePass v a p => some (encB 17 4 (v.code + 2 ^ 5 * a.code + 2 ^ 15 * p.code))
  | .rteSt a x => some (encB 17 5 (x.val + 2 ^ 5 * a.code))
  | .cpBb d a b k => some (encCp 0 d a b k) | .cpPb d a b k => some (encCp 1 d a b k)
  | .cpBp d a b k => some (encCp 2 d a b k) | .cpBo d a b k => some (encCp 3 d a b k)
  | .cpRs k => some (encCp 4 (.named 0) (.named 0) (.named 0) k)
  | .mwld m a b c h k => some (encE 19 0 m.val a.code b.code c.code h.toNat k)
  | .mmul m a b c h k => some (encE 19 1 m.val a.code b.code c.code h.toNat k)
  | .mdrn m a b c k => some (encE 19 2 m.val a.code b.code c.code 0 k)
  | .mresume m k => some (encE 19 3 m.val 0 0 0 0 k)
  | .mdist m a b c h k => some (encE 20 0 m.val a.code b.code c.code h.toNat k)
  | .mcent m a b c h k => some (encE 20 1 m.val a.code b.code c.code h.toNat k)
  | .mbest m a b k => some (encE 20 2 m.val a.code b.code 0 0 k)
  | .mcdrn m a b c k => some (encE 20 3 m.val a.code b.code c.code 0 k)
  | .slotClaim o k => some (encSlot 0 o 0 k) | .slotRelease o k => some (encSlot 1 o 0 k)
  | .slotShape o a k => some (encSlot 2 o a.code k) | .slotZero o k => some (encSlot 3 o 0 k)
  | .rld c d a w k => some (encE 22 0 c.val d.code a.code 0 w.toNat k)
  | .rst c a b w k => some (encE 22 1 c.val 0 a.code b.code w.toNat k)
  | .rcpGet c d a b k => some (encE 22 2 c.val d.code a.code b.code 0 k)
  | .rcpPut c d a b k => some (encE 22 2 c.val d.code a.code b.code 1 k)
  | .rcpRs k => some (encE 22 3 0 0 0 0 0 k)
  | .rsig c d a k => some (encE 22 4 c.val d.code a.code 0 0 k)
  | .rsigRel c d a k => some (encE 22 4 c.val d.code a.code 0 1 k)
  | .amoAddFar c d a b k => some (encFar 5 c d a b k) | .amoAndFar c d a b k => some (encFar 6 c d a b k)
  | .amoOrFar c d a b k => some (encFar 7 c d a b k) | .amoXorFar c d a b k => some (encFar 8 c d a b k)
  | .amoMaxFar c d a b k => some (encFar 9 c d a b k) | .amoMinFar c d a b k => some (encFar 10 c d a b k)
  | .amoFaddFar c d a b k => some (encFar 11 c d a b k) | .amoFmaxFar c d a b k => some (encFar 12 c d a b k)
  | .amoFminFar c d a b k => some (encFar 13 c d a b k) | .amoSaddFar c d a b k => some (encFar 14 c d a b k)
  | .amoSwapFar c d a b k => some (encFar 15 c d a b k) | .amoCasFar c d a b k => some (encFar 16 c d a b k)
  | .hops d a b => some (encLo 23 0 d.code a.code b.code 0 0 0)
  | .mcst n a b w k => some (encE 23 1 0 (2 * n.val) a.code b.code w.toNat k)
  | .mcstSt n a b w k => some (encE 23 1 0 (2 * n.val + 1) a.code b.code w.toNat k)
  | .pbar c ch k => some (encE 23 2 c.val (2 * ch.val) 0 0 0 k)
  | .mwin n a k => some (encE 23 3 0 (2 * n.val) a.code 0 0 k)
  | _ => none

/-- The bits of a syllable with its s bit. -/
def encodeSyl (i : Instr) (stop : Bool) : Option Nat :=
  (encode i).map (· + stop.toNat)

/-- Whether an instruction is a syllable of a bundle, as opposed to a step of the part's own units. -/
def Instr.isSyllable (i : Instr) : Bool := (encode i).isSome

end Sys2Proof
end

