-- ==== Sys2Proof/Config.lean ====
section
/-! DEFINITION. What the spec leaves open: free values without a body, applied to a plain counter of the state or to
the operands they depend on, and the fixed sizes and addresses of the part. -/

namespace Sys2Proof.Config

/-- A value that the spec does not give, drawn with the state's counter. -/
opaque freeWord : Nat → BitVec 64

/-- A duration in cycles that the spec does not give (walks, messages, fills, boots), drawn with the counter. -/
opaque delay : Nat → Nat

/-- Which entry of a full translation cache a new translation replaces (R309). -/
opaque victim : Nat → Nat

/-- Whether the instruction cache has lost a line that it could still hold (R31, R181). -/
opaque lineLost : Nat → Bool

/-- LMS verification of a message's signature under the fabric manager's key, whose parameter set the spec does not give
(R397). -/
opaque lmsVerify : List Byte → List Byte → List Byte → Bool

/-- The unique secret of the die with a unique number (R368). -/
opaque dieSecret : BitVec 64 → BitVec 256

/-- The private seed and the identifier of the identity key, generated at manufacture from a die's secret (R368). -/
opaque idSeed : BitVec 256 → BitVec 384

/-- The seed of the ML-KEM-1024 key pair that comes from a die's secret (R368). -/
opaque kemSeed : BitVec 256 → BitVec 512

/-- The key under which secure storage is encrypted, derived from a die's secret (R368). -/
opaque storeKey : BitVec 256 → BitVec 256

/-- The IV of a write of secure storage, drawn with the counter (R368). -/
opaque storeIv : Nat → BitVec 96

/-- The randomizer of a signature, drawn with the counter (R368). -/
opaque signRandom : Nat → BitVec 256

/-- Llynafen's certificate of the identity public key of the die with a unique number (R368). -/
opaque idCert : BitVec 64 → List Byte

/-- The HSS public key whose SHA-256 a die's fuses hold (R365). -/
opaque hssKey : BitVec 256 → List Byte

/-- The number of the port at the far end of a port's fibre, by the peer that the port is bound to (R399). -/
opaque farPort : Nat → BitVec 18 → BitVec 10

/-- Members of a module ring whose registers the panel does not hold, by bits 17 to 3 of their identifiers (R392). -/
opaque ringMembers : Nat → BitVec 8

/-- Module rings of a rack ring whose registers the panel does not hold (R392). -/
opaque ringModules : Nat → BitVec 32

/-- The source code that a fault record of the fabric engine shows: one of those that the register has (R330, R417). -/
opaque fabricSrc : Fin 6

/-- The source code that a fault record of a queue's own reads and writes shows (R330, R344). -/
opaque leaderSrc : Fin 6

/-- The part of the unique die numbers that all dies of the part share (R366). -/
opaque uidHigh : BitVec 57

/-- A byte of the boot ROM (R361). -/
opaque romByte : Nat → BitVec 8

/-- The window with which another panel first grants this one (R393). -/
opaque grantWindow : BitVec 18 → BitVec 16

/-- Bytes of a die's bank space (R188). -/
def bankBytes : Nat := 2 ^ 27

/-- Bank address of fold b0 (R149). -/
def foldBase : Nat := 0x07FFF800

/-- Bytes of a stack (R307). -/
def stackBytes : Nat := 48 * 2 ^ 30

/-- What a byte of memory that nothing has written reads as. -/
def memDefault : Byte := 0

/-- What a truth-table entry reads as after reset: every output 0b10 (R234). -/
def truthDefault : BitVec 512 := BitVec.ofNat 512 ((2 ^ 512 - 1) / 3 * 2)

end Sys2Proof.Config
end

