-- ==== Sys2Proof/Machine/State.lean ====
section
/-! DEFINITION. The machine's state as plain data: every piece of state the spec gives the part, unit by unit,
together with the part's own bookkeeping (what is in flight and what is due), the reasons a step can stop, and
the state right after reset. -/

namespace Sys2Proof.Machine

/-- A table from natural-number keys to values: keys strictly rising, and no entry equal to the value that an
unlisted key has. -/
abbrev Sparse (α : Type) : Type := List (Nat × α)

/-- Memory of bytes by address (R188, R307), in the same canonical form. -/
abbrev Memory : Type := List Host.Cell

/-- Reasons the machine stops: none. Every condition that the spec describes leaves the part in a next state (a trap,
a lost task, an operation ended in error, a report), so no meaning raises a fault. -/
inductive Fault where
  deriving DecidableEq, Repr

/-- Reasons the machine gives no meaning to a step. -/
inductive Refusal where
  /-- An instruction without a meaning yet, raised by `exec`; safe, because nothing is then said of it. -/
  | notModelled (mnemonic : String)
  deriving DecidableEq, Repr

/-! ### A context: its register spaces (R13, R132, R166 to R170) -/

/-- A hardware loop level (R13, R168). -/
structure LoopLvl where
  start : Word := 0
  stop : Word := 0
  count : BitVec 32 := 0
  armed : Bool := false
  sw : Bool := false
  deriving DecidableEq, Repr

/-- The registers of a register space (R13, R132), with the touched and dirty lines and the location map of the
lines (R168, R172). A queue is listed newest first; an entry beyond its list reads 0 (R22). -/
structure RegFile where
  pc : Word := 0
  lr : Word := 0
  s : Vector Word 16 := .replicate 16 0
  q : List Word := []
  v : Vector VReg 16 := .replicate 16 0
  vq : List VReg := []
  masks : Vector Mask 8 := (Vector.replicate 8 0).set 0 (BitVec.allOnes 256)
  depth : Nat := 1
  depthIssue : Nat := 1
  loops : Vector LoopLvl 4 := .replicate 4 {}
  wf : Vector (BitVec 9) 3 := .replicate 3 0
  fmt : BitVec 32 := 0
  flg : BitVec 32 := 0
  touched : BitVec 140 := 0
  dirty : BitVec 140 := 0
  home : Vector (BitVec 8) 140 := .replicate 140 0
  deriving DecidableEq, Repr

/-- What a result does when it lands (R18 to R23). -/
inductive Land where
  /-- A scalar result: into its destination, and pushed (R20). -/
  | scalar (d : Dst) (v : Word)
  /-- A vector result landed through the mask captured at issue (R218). -/
  | vector (d : Dst) (v : VReg) (m : Mask)
  /-- As `vector`, with only the bits of a pattern taken from the result: a narrowing conversion (R229). -/
  | part (d : Dst) (v : VReg) (m : Mask) (take : VReg)
  /-- Sticky flags (R17). -/
  | flags (f : BitVec 5)
  /-- A wide flag set's count (R219). -/
  | wide (fs : FlagSet) (count : BitVec 9)
  /-- A route register (R209). -/
  | route (x : Fin 32) (r : Route)
  /-- A control register write (R108, R133). -/
  | ctl (cr : CtlReg) (v : Word)
  /-- The return link of a call (R118). -/
  | link (v : Word)
  /-- The mask-stack instructions (R226). -/
  | mpush (cond : Mask)
  | minv
  | mpop
  | mset (cond : Mask)
  /-- A write of sixteen truth-table entries (R239). -/
  | table (group : Fin 16) (entries : VReg)
  deriving DecidableEq, Repr

/-- A fixed-latency result in flight (R18): its landing cycle, its place in the slot order of R21, its issue order,
the bundle that issued it and whether that was a handler's bundle. -/
structure Flight where
  due : Nat
  slot : Nat
  ord : Nat
  bundle : Nat
  hnd : Bool
  land : Land
  deriving DecidableEq, Repr

/-- The formats a syllable captures at issue (R14, R59). -/
structure FmtCap where
  rnd : Rnd := .rne
  sat : Bool := false
  flush : Bool := false
  deriving DecidableEq, Repr

/-- A task's data window and carve-out (R29, R171, R182). -/
structure Window where
  base : Nat := 0
  log2g : Nat := 10
  share : Fin 16 := 0
  job : BitVec 8 := 0
  carve : Nat := 0
  slots : Nat := 0
  deriving DecidableEq, Repr

/-- The local atomics (R115). -/
inductive AmoOp where
  | add | and | or | xor | max | min | swap | cas | fadd | fmax | fmin | sadd
  deriving DecidableEq, Repr

/-- Where one bank's word of a vector access lies (R241): from an effective offset, or row by row. -/
inductive VAddr where
  | straight (e : Word)
  | rows (base : Word) (idx : VReg)
  deriving DecidableEq, Repr

/-- A Comb setting captured for one transfer (R89), with its far-mode groups (R206). -/
structure Setting where
  bits : Route := 0
  far : BitVec 16 := 0
  deriving DecidableEq, Repr

/-- What a fixed-latency bank access does when it performs (R111, R116, R212, R242, R243). -/
inductive AccKind where
  | load (t : Ty) (d : Dst) (off : Word)
  | store (len : Nat) (off : Word) (v : Word)
  | amo (op : AmoOp) (t : Ty) (d : Dst) (off : Word) (b c : Word) (fmt : FmtCap)
  | vload (d : Dst) (addr : VAddr) (m : Mask) (set : Setting)
  | vstore (addr : VAddr) (v : VReg) (m : Mask) (set : Setting)
  | routeStore (off : Word) (r : Route)
  /-- An engine transfer of an array drain: bank bytes to write (R198, R266). -/
  | drain (eng : Fin 19) (op : Nat) (bytes : List (Nat × Byte))
  deriving DecidableEq, Repr

/-- A fixed-latency bank access on its way (R278): when it performs, its step of the port order (R192), the issuing
context and bundle, its landing slot, its class and expected tag. -/
structure Access where
  id : Nat
  due : Nat
  ord : PortStep
  ctx : CtxId
  bundle : Nat
  hnd : Bool
  slot : Nat
  cls : Fin 16
  tag : Option (BitVec 8)
  pc : Word
  win : Window
  kind : AccKind
  /-- Bank bytes that a younger access of the same context and class has already written (R112): the context no longer
  sees those of this store ahead of its perform. -/
  dead : List Nat := []
  deriving DecidableEq, Repr

/-- What a context waits for before its next bundle (R26, R136). -/
inductive Wait where
  | tokens (l : List TokId)
  | any (mask : Word)
  | fold (f : FoldId) (ph : Bool)
  | fence (mask : BitVec 16) (before : Nat)
  | yield
  | backEdge
  /-- A bundle held in tag-wait mode since a cycle (R129). -/
  | tags (since : Nat)
  /-- A fetch or pool read held by a translation fault (R32). -/
  | fetch
  /-- A register-space activation from panel memory (R173). -/
  | refill
  /-- `ctxsw` waiting for the old task's operations (R177). -/
  | switchOut
  /-- `eret` draining the handler's results (R135). -/
  | ret
  deriving DecidableEq, Repr

/-- State codes of a context (R136). -/
inductive CtxState where
  | free | ready | running | blocked | held | ending
  deriving DecidableEq, Repr

/-- Why a context is ending (R35, R134, R186). -/
inductive EndKind where
  | halt
  | handlerHalt
  | lost
  | cutBack
  | noTask
  /-- Lost by a trap without a handler, while the results in flight land (R131, R132). -/
  | noHandler
  deriving DecidableEq, Repr

/-- An entry of a virtual die table (R336). -/
structure VEntry where
  present : Bool := false
  lost : Bool := false
  inc : BitVec 8 := 0
  phys : DieId := 0
  deriving DecidableEq, Repr

/-- What a trap records (R133). -/
structure TrapRec where
  cause : Nat
  swCode : BitVec 16 := 0
  syl : Nat := 0
  addr : Word
  resume : Word
  info : Word := 0
  deriving DecidableEq, Repr

/-- What activation of a space a context waits for (R173, R177, R180). -/
structure Activation where
  hnd : Bool
  base : Word
  /-- Whether `ctxsw` asked for it, as opposed to a launch or a write of trap_rs. -/
  byCtxsw : Bool
  due : Nat
  deriving DecidableEq, Repr

/-- A sequencer context (R13, R136). -/
structure Ctx where
  st : CtxState := .free
  priv : Bool := false
  task : RegFile := {}
  hnd : RegFile := {}
  x : Vector Route 32 := .replicate 32 0
  tok : Vector TokState 64 := .replicate 64 .free
  tokOp : Vector Nat 64 := .replicate 64 0
  /-- Copies with a follow-on that no chained command has bound, oldest first, and how each ended (R271). -/
  unbound : List (Nat × Option Bool) := []
  macroRec : Vector (BitVec 128) 64 := .replicate 64 0
  /-- The macro records of the handler space, and the tokens whose last record lies there (R167, R170). -/
  hndRec : Vector (BitVec 128) 64 := .replicate 64 0
  recHnd : BitVec 64 := 0
  -- special values (R12)
  tileX : BitVec 12 := 0
  tileY : BitVec 16 := 0
  tileN : BitVec 20 := 0
  vdie : BitVec 8 := 0
  -- the trap record and context modes (R133)
  trapCause : Word := 0
  trapAddr : Word := 0
  trapResume : Word := 0
  trapInfo : Word := 0
  trapVec : Word := 0
  trapRs : Word := 0
  tagLimit : BitVec 5 := 31
  opStrict : Bool := false
  tagWait : Bool := false
  -- register space, spill and pre-emption (R169, R171, R176, R184, R185)
  rsTask : Word := 0
  taskEmpty : Bool := true
  hndEmpty : Bool := true
  /-- Whether the task holds its window and carve-out (R182), and their place. -/
  hasWin : Bool := false
  win : Window := {}
  spillOp : BitVec 8 := 0
  spillWp : BitVec 8 := 0
  spillFull : Bool := false
  saves : BitVec 16 := 0
  rsState : BitVec 4 := 0
  hndSaves : BitVec 16 := 0
  hndState : BitVec 4 := 0
  hndBase : Word := 0
  hndStale : Bool := false
  rsStatus : BitVec 8 := 0
  idemPc : Word := 0
  snapDepth : Nat := 1
  snapFmt : BitVec 32 := 0
  snapLoops : Vector LoopLvl 4 := .replicate 4 {}
  snapMasks : Vector Mask 8 := (Vector.replicate 8 0).set 0 (BitVec.allOnes 256)
  idemBundle : Nat := 0
  phase : Fin 64 := 0
  phaseNew : Option (Fin 64) := none
  preLimit : BitVec 32 := 0
  preForce : Bool := false
  preReq : Bool := false
  preSeen : Nat := 0
  preReqOld : Bool := false
  cutAt : Option Nat := none
  preDeferred : Bool := false
  -- the launch it runs (R10, R340, R345)
  queue : QueueId := 0
  serial : BitVec 32 := 0
  ringOff : BitVec 32 := 0
  /-- The number of the queue's record of that launch. -/
  pkt : Nat := 0
  job : BitVec 8 := 0
  vtab : Vector VEntry 256 := .replicate 256 {}
  -- the sequencer's view of the context
  waits : List Wait := []
  waitPc : Word := 0
  earliest : Nat := 0
  ending : EndKind := .halt
  quantum : Nat := 0
  flight : List Flight := []
  act : Option Activation := none
  /-- A translation fault of a register-space line that the runtime has not resolved (R174). -/
  rsFault : Bool := false
  /-- The cycle from which a register-space line that was refused for retry is asked for again (R325). -/
  homeAfter : Nat := 0
  ctxswArg : Option Word := none
  trapEnter : Bool := false
  /-- A trap detected in this cycle that another condition of the cycle may precede (R127). -/
  pendTrap : Option TrapRec := none
  deriving DecidableEq, Repr

/-! ### The die: folds, engines, operand slots, arrays (R141 to R154, R248 to R277) -/

/-- A fold object (R150). -/
structure Fold where
  expect : BitVec 32 := 0
  count : BitVec 32 := 0
  errCode : BitVec 8 := 0
  err : Bool := false
  unit : Bool := false
  phase : Bool := false
  owner : BitVec 4 := 0
  flips : BitVec 32 := 0
  deriving DecidableEq, Repr

/-- One effect on a fold that commits in this cycle (R153). -/
inductive FoldEvt where
  | set (ctx : CtxId) (unit : Bool) (v : BitVec 32)
  | add (n : Nat)
  /-- Bytes that an engine operation committed: they count in a bytes fold (R151). -/
  | bytes (n : Nat)
  /-- The completion of an engine operation: it counts in an arrivals fold (R151). -/
  | done
  | err (q : Nat) (code : BitVec 8)
  deriving DecidableEq, Repr

/-- A consumed token as captured at issue (R147). -/
inductive Dep where
  | ref (op : Nat)
  | was (t : TokState)
  deriving DecidableEq, Repr

/-- How far an engine operation is (R170, macro record states 1 to 5). -/
inductive OpState where
  | queued | running | stopped | ended
  deriving DecidableEq, Repr

/-- A virtual die bound at issue (R311). -/
structure Bind where
  vdie : BitVec 8
  phys : DieId
  inc : BitVec 8
  deriving DecidableEq, Repr

/-- One 256-byte unit of a copy on its way (R250): its number, its length, the source words not yet read and the
bytes read so far, the panel-memory accesses not yet answered, the destination words not yet written, whether it has
read everything, and the cycle from which it may act. `since` lists the tiles whose tag it waits for, each with the cycle
in which it first differed (R253). -/
structure CUnit where
  no : Nat
  len : Nat
  need : List Nat := []
  got : List Byte := []
  accs : Nat := 0
  put : List Nat := []
  full : Bool := false
  placed : Bool := false
  next : Nat
  since : List (Nat × Nat) := []
  deriving DecidableEq, Repr

/-- How far a scaled stream has been read (R56): the blocks begun, the elements of the current one, and its scale. -/
structure ScaleAt where
  blk : Nat := 0
  since : Nat := 0
  cur : Nat := 0
  deriving DecidableEq, Repr

/-- An engine operation in a queue (R141 to R149, R249, R314). -/
structure Op where
  id : Nat
  ctx : CtxId
  bundle : Nat
  issued : Nat
  ins : Instr
  major : Nat := 0
  minor : Nat := 0
  va : Word := 0
  vb : Word := 0
  vc : Word := 0
  vd : Word := 0
  fmt : FmtCap := {}
  cls : Fin 16 := 0
  tag : Option (BitVec 8) := none
  tagWait : Bool := false
  tagLimit : BitVec 5 := 31
  strict : Bool := false
  act : Ty := .s8
  job : BitVec 8 := 0
  bind : List Bind := []
  win : Window := {}
  tp : TokId := 0
  deps : List Dep := []
  fold : Option FoldId := none
  bound : Option Nat := none
  /-- Whether a follow-on binds to it, and whether its own copy has handed it on or failed (R271). -/
  follow : Bool := false
  handed : Bool := false
  boundErr : Bool := false
  hnd : Bool := false
  st : OpState := .queued
  start : Nat := 0
  flags : BitVec 5 := 0
  err : BitVec 8 := 0
  abort : Bool := false
  /-- Bytes of a copy's committed run, or boundaries passed (R170). -/
  progress : Nat := 0
  /-- Rows, or transfers, that have had their effect, and those that had it when this run of the operation began. -/
  steps : Nat := 0
  first : Nat := 0
  sc : ScaleAt := {}
  /-- The next unit to send, or the next byte to fetch. -/
  next : Nat := 0
  /-- Cycles by which retries have delayed the operation. -/
  slip : Nat := 0
  units : List CUnit := []
  tiles : List Nat := []
  done : List Nat := []
  /-- Units of a remote copy of which an access has ended in error or was never sent (R316). -/
  failed : List Nat := []
  /-- Transfers of a drain not yet in the network, with the cycle from which each may enter (R198, R266). -/
  pend : List (Nat × List (Nat × Byte)) := []
  left : List Nat := []
  got : List (Nat × Byte) := []
  /-- Tile, bitmap and scale bytes that a far fetch has brought (R273). -/
  data : List Byte := []
  fetching : Bool := false
  poison : Bool := false
  /-- The row boundary at which an aborted array operation stops (R143, R272). -/
  stopAt : Option Nat := none
  deriving DecidableEq, Repr

/-- The error state of a protected word (R189). -/
inductive EccMark where
  | single | double
  deriving DecidableEq, Repr

/-- An operand slot (R257, R258). -/
structure Slot where
  bytes : Memory := []
  /-- The 8-byte words with an error. -/
  bad : Sparse EccMark := []
  rows : Nat := 128
  cols : Nat := 128
  colMajor : Bool := false
  owner : Option CtxId := none
  deriving DecidableEq, Repr

/-- Weights of an array (R261): the elements by `128k + n`, their format, the scale of each, whether scaled, and the
poison bit (R275). -/
structure Weights where
  w : Sparse (BitVec 16) := []
  fmt : Ty := .s8
  scaled : Bool := false
  scale : Sparse (BitVec 16) := []
  poison : Bool := false
  deriving DecidableEq, Repr

/-- An array's state (R261, R276). `started` counts the operations started on the array, for R276. -/
structure Arr where
  live : Weights := {}
  shadow : Weights := {}
  acc : Sparse (BitVec 32) := []
  float : Bool := false
  cnt : Sparse (BitVec 32) := []
  metric : Fin 3 := 2
  resume : Option Op := none
  started : Nat := 0
  resumeAt : Nat := 0
  deriving DecidableEq, Repr

/-- A line of a context's task or handler partition with an error (R175). -/
structure RegBad where
  ctx : CtxId
  hnd : Bool
  line : Nat
  mark : EccMark
  deriving DecidableEq, Repr

/-- Who wants a word of the banks through a copy port or a fill port (R191, R193). -/
inductive PortWho where
  | fill (id : Nat)
  | arrival (id : Nat)
  | reply (id : Nat)
  | putRead (id : Nat)
  | unit (op no : Nat)
  | assign (eng : Fin 19) (op : Nat)
  | steward (id : Nat)
  deriving DecidableEq, Repr

/-- A word that a requester wants to read or write in this cycle: its class of R193 (0 fill, 1 remote arrival, 2 + q
engine queue q, 30 steward), and the bytes that it writes; a remote atomic reads and writes. -/
structure PortReq where
  pri : Nat
  who : PortWho
  word : Nat
  read : Bool
  write : Bool
  bytes : List (Nat × Byte)
  deriving DecidableEq, Repr

/-- A fill on its way (R304): its calendar fields, the pages still to translate and the physical pages found, the
words still to land and the cycle from which they come. `ready` says that its pages are translated. -/
structure Fill where
  id : Nat
  src : Word
  dst : Nat
  len : Nat
  stamp : Option (BitVec 8)
  pages : List Word
  phys : List (Nat × Nat) := []
  /-- The words still to be read, each with the offsets of its bytes, and the bytes that have come. -/
  coming : List (Nat × List Nat) := []
  data : List (Nat × Byte) := []
  left : List Nat := []
  next : Nat := 0
  ready : Bool := false
  deriving DecidableEq, Repr

/-- A steward access that waits for the copy port (R362). -/
structure StewardReq where
  id : Nat
  acc : StewardAcc
  left : List Nat
  got : List (Nat × Byte)
  deriving DecidableEq, Repr

/-! ### Translation (R306 to R310) -/

/-- What of the fabric engine waits for a translation of a queue pair's own tables (R412, R417, R418): a work entry,
the bytes that a slot carries, the commit of a pair's next slot, or a completion entry. -/
inductive FabReq where
  | entry (qp : Fin 8192)
  | bytes (qp : Fin 8192)
  | commit (src : BitVec 18) (stream : BitVec 16)
  | cq (n : Fin 8192)
  deriving DecidableEq, Repr

/-- Who asked for a translation (R310); `gone` is a fetch or a register-space line of a context that has since become
free, `fabric` the fabric engine, `launch` a launch of a queue (`img` of its image's fetch, else of its register space), and
`queue` a command queue: 0 a packet or a fence's words, 1 a SIGNAL, 2 a COPY,
3 a report and 4 a loss record. -/
inductive Requester where
  | gone (code : Fin 16) (c : CtxId)
  | fabric (k : FabReq)
  | fetch (c : CtxId)
  | fill (id : Nat)
  | copy (op : Nat) (unit : Nat)
  | remote (acc : Nat)
  | array (eng : Fin 19) (op : Nat)
  | regSpace (c : CtxId)
  | launch (q : QueueId) (img : Bool) (c : CtxId)
  | queue (q : QueueId) (k : Fin 5)
  deriving DecidableEq, Repr

/-- The permission an access needs (R308). -/
inductive Perm where
  | read | write | exec
  deriving DecidableEq, Repr

/-- The kinds of a translation fault (R330). -/
inductive FaultKind where
  | notValid | permission | badEntry | noMemory
  deriving DecidableEq, Repr

/-- A translation walk in progress, or waiting for a walker (R309). -/
structure Walk where
  id : Nat
  root : Word
  va : Word
  perm : Perm
  who : Requester
  deriving DecidableEq, Repr

/-- A fault record (R310, R330). -/
structure FaultRec where
  walk : Walk
  kind : FaultKind
  level : Nat
  deriving DecidableEq, Repr

/-- A cached translation (R309): the root it came from, the page it maps and its permissions. -/
structure Xlat where
  root : Word
  page : Nat
  level : Nat
  phys : Nat
  r : Bool
  w : Bool
  x : Bool
  deriving DecidableEq, Repr

/-- A line of the instruction cache (R31, R181): the root and line address it was fetched by, and its bytes. -/
structure ICLine where
  root : Word
  line : Nat
  bytes : List Byte
  deriving DecidableEq, Repr

/-! ### Remote accesses (R313 to R327) -/

/-- The part of a stream that is not its source die: a context and class, or a command queue (R320, R344). -/
inductive StreamKey where
  | ctx (c : CtxId) (cls : Fin 16)
  | queue (q : QueueId)
  deriving DecidableEq, Repr

/-- A destination of remote accesses (R320). -/
inductive Dest where
  | die (p : DieId)
  | stack (i : StackId)
  deriving DecidableEq, Repr

/-- What a remote access does (R315 to R319). -/
inductive RKind where
  | load
  | store
  | amo (op : AmoOp) (t : Ty) (fmt : FmtCap)
  | signal
  deriving DecidableEq, Repr

/-- How a destination answered (R322). -/
inductive Answer where
  | ack
  | refuse
  | retry (after : Nat)
  | badEcc
  deriving DecidableEq, Repr

/-- How far a remote access is. -/
inductive RState where
  | waiting | reading | sent | arrived | performing | answered | landing | resend
  deriving DecidableEq, Repr

/-- A remote access (R320 to R326). -/
structure RAcc where
  id : Nat
  src : DieId
  stream : StreamKey
  ord : Nat
  eng : Fin 19
  op : Nat
  unit : Nat
  bundle : Nat
  kind : RKind
  far : Word
  len : Nat
  data : List Byte := []
  job : BitVec 8 := 0
  dest : Dest := .die 0
  phys : Nat := 0
  inc : BitVec 8 := 0
  seq : BitVec 16 := 0
  st : RState := .waiting
  sentAt : Nat := 0
  resendAt : Nat := 0
  ans : Answer := .ack
  flags : BitVec 5 := 0
  /-- The offset of the access's first byte in its unit or fetch. -/
  part : Nat := 0
  /-- Whether it waits as an `rsig.rel` does (R318), whether its translation was made before (R275), whether it is
  sent again (R324), and whether its operation no longer waits for it (R326). -/
  release : Bool := false
  fixed : Bool := false
  resent : Bool := false
  orphan : Bool := false
  /-- The refusals of its pair that the source had heard of when it was sent (R322), and the incarnation that answered
  it (R326). -/
  heard : Nat := 0
  ansInc : BitVec 8 := 0
  left : List Nat := []
  got : List (Nat × Byte) := []
  deriving DecidableEq, Repr

/-- Sequence numbers of a pair (R320, R321): the next number at the source and the next to commit. -/
structure Pair where
  src : DieId
  stream : StreamKey
  dest : Dest
  /-- The incarnation of the destination that the pair's accesses carry (R311, R326). -/
  inc : BitVec 8 := 0
  next : BitVec 16 := 0
  commit : BitVec 16 := 0
  /-- The refusals for retry that the destination has begun, and those of them that the source has heard of: an access
  sent before it has heard of one is refused behind it (R322). -/
  refused : Nat := 0
  heard : Nat := 0
  deriving DecidableEq, Repr

/-- A copy that ended in error, as `cp.rs` or `rcp.rs` resumes it (R255, R317). -/
structure CopyResume where
  op : Op
  deriving DecidableEq, Repr

/-- A remote window (R312, R330). -/
structure RWin where
  valid : Bool := false
  pinned : Bool := false
  job : BitVec 8 := 0
  size : Nat := 10
  base : BitVec 17 := 0
  deriving DecidableEq, Repr

/-- A multicast window (R351). -/
structure MWin where
  valid : Bool := false
  job : BitVec 8 := 0
  size : Nat := 10
  base : BitVec 17 := 0
  syncLost : Bool := false
  drops : BitVec 16 := 0
  lat : BitVec 12 := 0
  tgt : BitVec 128 := 0
  deriving DecidableEq, Repr

/-- A window and carve-out held by a saved space (R182), with the context whose tables translate its home and the launch
and tile that the saved task belongs to. -/
structure HeldSpace where
  rs : Word
  win : Window
  ctx : CtxId
  queue : QueueId
  serial : BitVec 32
  ringOff : BitVec 32
  pkt : Nat
  tileX : BitVec 12
  tileY : BitVec 16
  tileN : BitVec 20
  deriving DecidableEq, Repr

/-- A state that is to be written into the state word of a space in panel memory once its page has moved (R169, R325), with
the root that translates its home. -/
structure LateState where
  root : Word
  base : Word
  state : Nat
  deriving DecidableEq, Repr

/-- A translation fault of a launch's space, handler space or window image that the runtime does not resolve (R174,
R342). -/
structure LaunchFault where
  queue : QueueId
  ctx : CtxId
  img : Bool
  va : Word
  deriving DecidableEq, Repr

/-- A launch on its way to a die, or waiting there for a free context (R10, R343): its queue and packet, the place n of
its task, its words, the election term it carries and the cycle in which it arrives. -/
structure PendLaunch where
  queue : QueueId
  serial : BitVec 32
  ringOff : BitVec 32
  pkt : Nat
  n : Nat
  words : List Word
  term : BitVec 8
  ready : Nat
  deriving DecidableEq, Repr

/-! ### The die -/

/-- The sequencer of a die (R136 to R140, R164, R165, R373). -/
structure Sequencer where
  quantum : Nat := 4096
  ibFreeze : Bool := false
  holder : Option CtxId := none
  last : CtxId := 0
  gaveUp : Nat := 0
  switches : Word := 0
  ib : Sparse Word := []
  /-- The units that worked in this cycle, with the contexts they worked for, and the counters that this cycle's work
  advances at its end (R164, R165). -/
  busy : List (Nat × CtxId) := []
  counting : List Nat := []
  inReset : Bool := true
  throttled : Bool := false
  stall : Bool := false
  /-- The cycles of the period over which stalls are counted, and the stalls among them (R373). -/
  period : Nat := 0
  stalls : Nat := 0
  icache : List ICLine := []
  /-- Invalidations under way (R181): the cycle at whose end each acts, and its line, or the whole cache. -/
  icInv : List (Nat × Option Nat) := []
  /-- The next bundle number, which orders bundles of the die in time. -/
  bundles : Nat := 1
  deriving DecidableEq, Repr

/-- Counters of the cluster status block (R214). -/
structure ClusterStat where
  eccUncorrected : BitVec 32 := 0
  eccCorrected : BitVec 32 := 0
  copyRetries : BitVec 32 := 0
  fillRetries : BitVec 32 := 0
  farDrops : BitVec 32 := 0
  farMisses : BitVec 32 := 0
  routeFails : BitVec 32 := 0
  farLat : Vector (BitVec 16) 4 := .replicate 4 0
  deriving DecidableEq, Repr

/-- The die memory and remote block (R330). -/
structure MemRegs where
  root : Vector Word 4 := .replicate 4 0
  fillRoot : Word := 0
  rwin : Vector RWin 16 := .replicate 16 {}
  job : BitVec 32 := 0
  timeout : BitVec 32 := 1953
  retry : BitVec 16 := 4096
  refusals : BitVec 32 := 0
  stale : BitVec 32 := 0
  calEnable : Bool := false
  calCount : Nat := 0
  calBase : BitVec 27 := 0
  epoch : Word := 0
  fillErrors : BitVec 32 := 0
  slips : BitVec 32 := 0
  stackLost : BitVec 128 := 0
  deriving DecidableEq, Repr

/-- Boot, identity, features and telemetry of a die (R363 to R375). -/
structure BootRegs where
  stage : BitVec 4 := 0
  cause : BitVec 8 := 0
  fwSvn : BitVec 6 := 0
  ucodeSvn : BitVec 6 := 0
  minFw : BitVec 6 := 0
  minUcode : BitVec 6 := 0
  uid : Word := 0
  pubKeyHash : BitVec 256 := 0
  featAcc : BitVec 128 := 0
  featStatus : BitVec 2 := 0
  featLock : Bool := false
  blocksUsed : Nat := 0
  leaf : Nat := 0
  fwDigest : BitVec 256 := 0
  ucodeDigest : BitVec 256 := 0
  sram : Memory := []
  /-- The SRAM words with an error, whether secure storage fails its tag, and whether the runtime has ended (R378). -/
  sramBad : Sparse EccMark := []
  storeBad : Bool := false
  /-- The image set that the boot ROM has obtained (R363, step 1). -/
  images : Option (List Byte) := none
  /-- Llynafen's certificate of the die's identity public key (R368). -/
  cert : List Byte := []
  ended : Bool := false
  firmware : List Byte := []
  microcode : List Byte := []
  powerMw : BitVec 32 := 0
  temp : BitVec 16 := 0
  limitMw : BitVec 32 := 330000
  throttleCycles : Word := 0
  tmCorrected : BitVec 32 := 0
  tmUncorrected : BitVec 32 := 0
  deriving DecidableEq, Repr

/-- A far group on its way to a die (R300): the link and group it arrives on, the sync cycle, data and enables. -/
structure FarGroup where
  group : Fin 16
  cycle : Nat
  data : BitVec 512
  en : BitVec 64
  deriving DecidableEq, Repr

/-- A multicast on its way to a landing (R353). -/
structure McstWait where
  msg : McstMsg
  next : Nat
  deriving DecidableEq, Repr

/-- A die's word of a panel barrier channel (R356). -/
structure PbCtl where
  valid : Bool := false
  job : BitVec 8 := 0
  expect : BitVec 32 := 0
  deriving DecidableEq, Repr

/-- A compute die (R188 to R215, R257, R297 to R330, R336, R351, R356, R366, R375). -/
structure Die where
  inService : Bool := true
  /-- Whether the runtime drains the die, which then leads no queue by election (R349). -/
  draining : Bool := false
  incarnation : BitVec 8 := 0
  cycBase : Nat := 0
  syncBase : Nat := 0
  seq : Sequencer := {}
  ctxs : Vector Ctx 4 := .replicate 4 {}
  -- banks
  bank : Memory := []
  bankBad : Sparse EccMark := []
  tags : Sparse (BitVec 8) := []
  folds : Vector Fold 128 := .replicate 128 {}
  foldEvts : List (FoldId × FoldEvt) := []
  tokEvts : List (CtxId × TokId × TokState) := []
  stamps : List (Nat × Nat × BitVec 8) := []
  used : List (Nat × Nat) := []
  accs : List Access := []
  truth : Sparse (BitVec 512) := []
  truthBad : Sparse EccMark := []
  regBad : List RegBad := []
  farIn : List FarGroup := []
  stat : ClusterStat := {}
  -- engines
  queues : Vector (List Op) 19 := .replicate 19 []
  slots : Vector Slot 128 := .replicate 128 {}
  arrays : Vector Arr 16 := .replicate 16 {}
  cpResume : Vector (Option CopyResume) 4 := .replicate 4 none
  rcpResume : Vector (Option CopyResume) 4 := .replicate 4 none
  -- launches and held spaces
  pendLaunch : List PendLaunch := []
  launchFaults : List LaunchFault := []
  seen : List (QueueId × BitVec 32) := []
  termSeen : Vector (BitVec 8) 64 := .replicate 64 0
  heldSpaces : List HeldSpace := []
  /-- State words of spaces whose pages are migrating: they are written once the pages have moved (R325). -/
  lateStates : List LateState := []
  -- memory and remote block
  mem : MemRegs := {}
  xlat : List Xlat := []
  walks : List Walk := []
  faults : List FaultRec := []
  heldStreams : List StreamKey := []
  nextFill : Nat := 0
  fillAfter : Nat := 0
  fills : List Fill := []
  refreshOpen : List Nat := []
  stewards : List StewardReq := []
  /-- What the last access of each steward core read, and the code in which it ended (R302, R360 to R362). -/
  stewardData : Vector (List Byte) 2 := .replicate 2 []
  stewardCode : Vector (BitVec 8) 2 := .replicate 2 0
  -- panel block
  vtab : Vector VEntry 256 := .replicate 256 {}
  mwin : Vector MWin 16 := .replicate 16 {}
  mcst : List McstWait := []
  pbCtl : Vector PbCtl 16 := .replicate 16 {}
  pbLat : BitVec 11 := 768
  boot : BootRegs := {}
  deriving DecidableEq, Repr

/-! ### The panel -/

/-- A memory stack's station (R298 to R302, R325, R331). -/
structure Station where
  fitted : Bool := true
  incarnation : BitVec 8 := 0
  migActive : Vector Bool 8 := .replicate 8 false
  migSize : Vector (BitVec 5) 8 := .replicate 8 16
  migPage : Vector (BitVec 27) 8 := .replicate 8 0
  retry : BitVec 16 := 2048
  parity : BitVec 32 := 0
  refusals : BitVec 32 := 0
  chan : Word := 0xFFFFAAAA55550000
  lastRefresh : Vector Nat 32 := .replicate 32 0
  deriving DecidableEq, Repr

/-- What a queue's leader is doing (R343, R344): nothing, reading a packet, or holding at a FENCE or a SIGNAL. -/
inductive QStage where
  | idle | parsing | fencing | signalling
  deriving DecidableEq, Repr

/-- What a parsed packet that is not complete does (R344): a LAUNCH with tasks still to end, never complete once one is
lost or cut back; a COPY with the bytes of its unit in flight, stopped once an access of it has failed; a SIGNAL. -/
inductive QWork where
  | launch (left : Nat) (never : Bool)
  | copy (src dst : Word) (len done : Nat) (got : List Byte) (stopped : Bool)
  | signal (addr val : Word) (add : Bool)
  deriving DecidableEq, Repr

/-- A parsed packet that is not complete (R344). -/
structure QRec where
  id : Nat
  serial : BitVec 32
  ringOff : BitVec 32
  work : QWork
  deriving DecidableEq, Repr

/-- A FENCE at which parsing holds (R344): whether it drains, and its entries. -/
structure QFence where
  drain : Bool
  entries : List (Word × Word)
  deriving DecidableEq, Repr

/-- A command queue (R338 to R349). -/
structure CmdQueue where
  ringBase : BitVec 36 := 0
  ringSize : Nat := 12
  head : BitVec 32 := 0
  tail : BitVec 32 := 0
  root : Word := 0
  repBase : BitVec 36 := 0
  repSize : Nat := 12
  rhead : BitVec 32 := 0
  rtail : BitVec 32 := 0
  term : BitVec 8 := 0
  leader : DieId := 0
  elect : Bool := false
  stop : Bool := false
  state : Fin 5 := 0
  markSerial : BitVec 32 := 0
  markOff : BitVec 32 := 0
  markPath : Option Word := none
  stage : QStage := .idle
  /-- Parsed packets that are not complete, in order. -/
  recs : List QRec := []
  fence : QFence := { drain := false, entries := [] }
  reports : List (List (List Word)) := []
  /-- A loss record that is still to be written (R346), and the accesses of the queue that the runtime has denied a
  translation (R310). -/
  loss : Option (Word × List Word) := none
  denied : List (Fin 5 × BitVec 8) := []
  deriving DecidableEq, Repr

/-- A panel barrier channel at its root (R356 to R358): its fields as last written, the arrivals on their way to the root with the cycle in
which each reaches it, and the operations counted toward the next release. -/
structure PChan where
  valid : Bool := false
  job : BitVec 8 := 0
  expect : BitVec 32 := 0
  releases : BitVec 32 := 0
  count : BitVec 32 := 0
  inbox : List (Nat × DieId × Nat) := []
  counted : List (DieId × Nat) := []
  deriving DecidableEq, Repr

/-- A flit (R384): its header fields and 60 bytes of slot content. -/
structure Flit where
  lseq : BitVec 8 := 0
  lack : BitVec 8 := 0
  lctl : BitVec 2 := 0
  lmode : Bool := false
  idle : Bool := false
  idx : Fin 4 := 0
  content : List Byte := []
  deriving DecidableEq, Repr

/-- A key entry of a port (R398, R399): a job's current key with the low bit of its epoch, its previous key, the count
of slots encrypted with the current key, and the counts of slots decrypted with each. -/
structure KeyEntry where
  job : BitVec 8
  cur : BitVec 256
  epoch : Nat
  prev : Option (BitVec 256)
  count : Nat
  rxCur : Nat
  rxPrev : Nat
  deriving DecidableEq, Repr

/-- A slot that waits at a port, numbered, with the fabric time at which it came (R392). -/
structure PortWait where
  id : Nat
  slot : FabSlot
  since : Nat
  deriving DecidableEq, Repr

/-- A wire flit as a port has put it on its fibre (R385, R403): each byte with its wavelength. -/
abbrev WireFlit : Type := List (Byte × Nat)

/-- An optical port and its link (R384 to R386, R396 to R406). -/
structure Port where
  -- binding and light (R403 to R406, R420)
  enable : Bool := false
  role : BitVec 3 := 0
  dir : Bool := false
  path : BitVec 16 := 0
  peer : BitVec 18 := 0
  lit : BitVec 8 := 0
  relocking : BitVec 8 := 0
  /-- Wavelengths that are to lock; those that the receiver uses, and those it lacks only for a relock (R405). -/
  locking : BitVec 8 := 0
  rxLit : BitVec 8 := 0
  rxRelocking : BitVec 8 := 0
  failed : BitVec 8 := 0
  relocks : BitVec 32 := 0
  /-- Relocks begun, newest first, and the cycle in which each dark wavelength became dark (R406). -/
  relockLog : List (Fin 8 × Nat) := []
  darkAt : List (Fin 8 × Nat) := []
  -- counts and the link-code mode (R396, R401)
  tagFail : BitVec 32 := 0
  replays : BitVec 24 := 0
  lcFail : Bool := false
  modeReq : Bool := true
  mode : Bool := true
  /-- A mode request without an answer yet: its mode, its number, and how often it may still be sent again. -/
  modeWait : Option (Bool × Nat × Nat) := none
  sendCtl : BitVec 2 := 0
  ctlMode : Bool := false
  -- the transmitter (R386)
  nextSeq : BitVec 8 := 0
  lastAck : BitVec 8 := 0xFF
  ackTwice : Bool := false
  ackAt : Nat := 0
  /-- The flits not yet acknowledged, and how many of them stand on the fibre since the last replay. -/
  replay : List Flit := []
  pos : Nat := 0
  waiting : List PortWait := []
  /-- The next flit boundary, and whether an idle flit is to go out. -/
  freeAt : Nat := 0
  idleDue : Bool := false
  lastSent : Nat := 0
  sent : List WireFlit := []
  -- the receiver (R386)
  expectSeq : BitVec 8 := 0
  lack : BitVec 8 := 0xFF
  partFlits : List Flit := []
  keys : List KeyEntry := []
  /-- Whether the drain marker of this hold has been sent, and the epoch of the last one received (R410). -/
  markerSent : Bool := false
  marker : Option (BitVec 16) := none
  deriving DecidableEq, Repr

/-- A photonic path of this panel (R409, R420), with the elements that its set-up names. -/
structure Path where
  state : Fin 7 := 0
  attempts : Nat := 0
  path : BitVec 16 := 0
  go : Bool := false
  pkt : PathPkt := {}
  /-- The number of the timer that runs in this state. -/
  timer : Nat := 0
  deriving DecidableEq, Repr

/-- A waveguide switch element's reservation (R408). -/
structure Reserve where
  elem : BitVec 24
  path : BitVec 16
  origin : BitVec 18
  inPort : BitVec 20
  outPort : BitVec 20
  held : Bool
  id : Nat
  deriving DecidableEq, Repr

/-- A queue pair's engine context (R412 to R418): 0 reset, 1 ready, 2 error. -/
structure QPair where
  state : Fin 3 := 0
  job : BitVec 8 := 0
  pkey : BitVec 12 := 0
  peerQp : Fin 8192 := 0
  peer : BitVec 18 := 0
  root : Word := 0
  sqSize : Nat := 0
  sqBase : Word := 0
  rqSize : Nat := 0
  rqBase : Word := 0
  regSize : Nat := 12
  regBase : Word := 0
  sHead : BitVec 32 := 0
  sTail : BitVec 32 := 0
  rHead : BitVec 32 := 0
  rTail : BitVec 32 := 0
  cq : Fin 8192 := 0
  deriving DecidableEq, Repr

/-- An outstanding data slot at its source (R389, R390): its slot, the work it belongs to, its resends, the fabric time
at which it was last sent, and whether it is known lost. -/
structure OutSlot where
  slot : FabSlot
  work : Nat
  last : Bool
  resends : Nat
  sentAt : Nat
  deriving DecidableEq, Repr

/-- A work entry in progress at its source, or an answer to a READ (R415 to R417): how many of its slots have been sent
and how many it has. -/
structure Work where
  id : Nat
  qp : Fin 8192
  op : BitVec 4
  signal : Bool := false
  wrId : Word := 0
  laddr : Word
  off : BitVec 32 := 0
  len : Nat
  sent : Nat := 0
  slots : Nat
  /-- Bytes acknowledged, or committed for a READ (R417). -/
  acked : Nat := 0
  deriving DecidableEq, Repr

/-- An arriving pair at its destination (R389, R391): the next seq to commit, the slots that wait for it, and the status
of the last commit. -/
structure InPair where
  src : BitVec 18
  stream : BitVec 16
  next : BitVec 24 := 0
  buf : List FabSlot := []
  status : BitVec 8 := 0
  deriving DecidableEq, Repr

/-- What a panel knows of another: its incarnation and granted window (R393 to R395). -/
structure Peer where
  panel : BitVec 18
  inc : BitVec 8
  window : Nat
  deriving DecidableEq, Repr

/-- A completion that is due in a completion queue (R417). -/
structure Completion where
  qp : Fin 8192
  cq : Fin 8192
  root : Word
  wrId : Word
  status : BitVec 8
  op : BitVec 4
  recv : Bool
  bytes : Nat
  from_ : Word
  deriving DecidableEq, Repr

/-- A stream whose unsent slots are held by a refusal notice until a seq is acknowledged (R391). -/
structure FabHeld where
  stream : BitVec 16
  panel : BitVec 18
  seq : BitVec 24
  deriving DecidableEq, Repr

/-- The fabric engine and ring interface (R382 to R424). -/
structure Fabric where
  joined : Bool := false
  inc : BitVec 8 := 0
  panel : BitVec 18 := 0
  modules : BitVec 32 := 0
  members : BitVec 8 := 0
  racks : BitVec 1024 := 0
  window : BitVec 16 := 64
  retries : BitVec 4 := 4
  rto : BitVec 16 := 200
  refused : BitVec 32 := 0
  notices : BitVec 32 := 0
  stale : BitVec 32 := 0
  expired : BitVec 32 := 0
  bad : BitVec 32 := 0
  resent : BitVec 32 := 0
  ports : Vector Port 576 := .replicate 576 {}
  /-- The ports with flits to put on their fibre. -/
  busy : List PortId := []
  paths : Vector Path 64 := .replicate 64 {}
  reserve : List Reserve := []
  /-- The connections that the switch elements make (R408). -/
  switch : List (BitVec 24 × BitVec 20 × BitVec 20) := []
  /-- The path packets that have left for other panels of the control mesh, 64 bytes each (R407). -/
  mesh : List (List Byte) := []
  /-- Reconfiguration (R410), with the cycle in which hold was set and the cycles that earlier holds have taken. -/
  hold : Bool := false
  epoch : BitVec 16 := 0
  holdAt : Nat := 0
  holdTotal : Nat := 0
  -- queue pairs (R412 to R420)
  qpBase : BitVec 36 := 0
  cqBase : BitVec 38 := 0
  qpDb : BitVec 27 := 0
  qpCmd : Fin 8192 := 0
  qps : Sparse QPair := []
  lastServed : Fin 8192 := 8191
  works : List Work := []
  due : List Completion := []
  /-- What the runtime has denied a translation, with the code of its end (R310, R418). -/
  failed : List (FabReq × BitVec 8) := []
  -- pairs (R389 to R395)
  nextSeq : Sparse (BitVec 24) := []
  out : List OutSlot := []
  heldFab : List FabHeld := []
  lost : List (BitVec 16 × BitVec 18) := []
  inn : List InPair := []
  peers : List Peer := []
  /-- The windows that this panel grants its sources (R393), and the fabric manager's key as installed (R397). -/
  granted : List (BitVec 18 × Nat) := []
  fmKey : List Byte := []
  /-- Slots for which the hop's port set has no port. -/
  stuck : List PortWait := []
  deriving DecidableEq, Repr

/-- What waits in the outside world's view of the panel: reports over the management plane (R346, R363, R409). -/
inductive Notice where
  | bootFailed (d : DieId) (cause : BitVec 8)
  | checkpoint (q : QueueId)
  | pathFailed (i : Fin 64)
  | keyRefused (job : BitVec 8)
  | dissolved (job : BitVec 8)
  | attestation (report : List Byte)
  | thermal (d : DieId)
  | exposure (list : List Byte)
  | telemetry (d : DieId) (words : List Word)
  deriving DecidableEq, Repr

/-- The exposure of a compute site (R334). -/
inductive Expo where
  | exposed | spare | dead
  deriving DecidableEq, Repr

/-- A die's region of secure storage in the boot flash, as AES-256-GCM has sealed it (R368). -/
structure SealedStore where
  iv : BitVec 96
  ct : List Byte
  tag : BitVec 128
  deriving DecidableEq, Repr

/-- The package that a partner gives a bare die (R364): the stack whose station answers on each link, and the optical ports
that it connects. -/
structure BarePackage where
  links : Vector (Option StackId) 4
  ports : List PortId
  deriving DecidableEq, Repr

/-- The panel's own state (R334, R338, R346, R350, R356, R363, R370). -/
structure Panel where
  grade : BitVec 8 := 120
  expo : Vector Expo 128 := .replicate 128 .exposed
  designated : List DieId := []
  queues : Vector CmdQueue 64 := .replicate 64 {}
  chans : Vector PChan 16 := .replicate 16 {}
  pbRoot : StackId := 0
  pbMin : BitVec 11 := 0
  locked : Bool := false
  featLocked : Bool := false
  featSet : BitVec 128 := 0
  pairs : List Pair := []
  raccs : List RAcc := []
  flash : List Byte := []
  /-- The 8-byte words of the boot flash that cannot be read (R366). -/
  flashBad : List Nat := []
  /-- The regions of secure storage in the boot flash that have been written since manufacture (R368). -/
  stores : List (DieId × SealedStore) := []
  /-- Whether the RS-FEC of the management port is enabled (R376). -/
  rsFec : Bool := true
  /-- A bare die's package; none on a panel (R364). -/
  package : Option BarePackage := none
  notices : List Notice := []
  deriving DecidableEq, Repr

/-! ### The bundle in progress and the agenda -/

/-- A transfer staged by a vector memory syllable until the bundle's route syllables are known (R89). -/
structure Staged where
  acc : Access
  write : Bool
  deriving DecidableEq, Repr

/-- The bundle that is issuing: its die, context and address, the bytes of its syllables still to take, and what its
syllables have so far chosen (R70, R74, R89). -/
structure Issue where
  active : Bool := false
  die : DieId := 0
  ctx : CtxId := 0
  hnd : Bool := false
  p : Word := 0
  len : Nat := 0
  taken : Nat := 0
  buf : List Byte := []
  pfx : Option Pfx := none
  bundle : Nat := 0
  ord : Nat := 0
  nInt : Nat := 0
  nVec : Nat := 0
  rdRoute : Option Setting := none
  wrRoute : Option Setting := none
  staged : List Access := []
  target : Option Word := none
  loopSet : Option (Fin 4 × LoopLvl) := none
  loopClr : Option (BitVec 4) := none
  waits : List Wait := []
  halt : Bool := false
  trapCode : Option (BitVec 16) := none
  eret : Bool := false
  ctxsw : Option Word := none
  /-- The gate type of an uncorrectable truth-table word that the bundle has read: its task is lost (R234). -/
  lost : Option Nat := none
  deriving DecidableEq, Repr

/-- One thing that is due: the step, what it acts on, and its cycle. -/
structure Sched where
  due : Nat
  act : Instr
  arg : EvArg
  deriving DecidableEq, Repr

/-- The whole machine: the core cycle, the dies, the stations, the panel and its fabric, panel memory, the bundle in
progress, the step being performed and what it acts on, what is due, and the counters that number operations and
free values. -/
structure State where
  cycle : Nat
  dies : Vector Die 128
  stations : Vector Station 128
  panel : Panel
  fabric : Fabric
  mem : Memory
  /-- The 8-byte words of panel memory with an uncorrectable error (R302). -/
  memBad : List Nat
  iss : Issue
  ev : EvArg
  agenda : List Sched
  portsDone : Bool
  fresh : Nat
  freeCtr : Nat
  deriving DecidableEq, Repr

/-- The forms of the part (R1): a panel of grade 120, one of grade 114, and a bare die in the package that its partner gives
it. -/
inductive Form where
  | grade120 | grade114
  | bareDie (package : BarePackage)
  deriving DecidableEq, Repr

/-- The compute sites that a panel of grade 120 does not expose: its spares (R334). -/
def hidden120 : List DieId := [15, 31, 47, 63, 79, 95, 111, 127]

/-- The compute sites that a panel of grade 114 does not expose (R334). -/
def hidden114 : List DieId := [2, 4, 15, 23, 31, 39, 47, 55, 63, 79, 95, 103, 111, 127]

/-- The number of exposed sites, which programs read as the grade (R334, R364). -/
def Form.grade : Form → BitVec 8
  | .grade120 => 120
  | .grade114 => 114
  | .bareDie _ => 1

/-- The exposure of each site (R334, R364). -/
def Form.expo (f : Form) (p : DieId) : Expo :=
  match f with
  | .grade120 => if hidden120.contains p then .spare else .exposed
  | .grade114 => if hidden114.contains p then .spare else .exposed
  | .bareDie _ => if p = 0 then .exposed else .dead

/-- The designated dies (R360, R364): on a panel one exposed die in each quadrant. -/
def Form.designated : Form → List DieId
  | .grade120 => [0, 4, 64, 68]
  | .grade114 => [0, 5, 64, 68]
  | .bareDie _ => [0]

/-- Whether a station stands at a stack's site (R3, R364). -/
def Form.fitted (f : Form) (i : StackId) : Bool :=
  match f with
  | .bareDie b => b.links.contains (some i)
  | _ => true

/-- The package of a bare die (R364). -/
def Form.package : Form → Option BarePackage
  | .bareDie b => some b
  | _ => none

/-- The unique number of a die, as fused (R366). -/
def dieUid (p : DieId) : Word := Config.uidHigh ++ (BitVec.ofNat 7 p.val)

/-- The virtual die table of a die as its fuses give it: on a bare die virtual die 0 is bound to it (R364); on a panel the
runtime writes the table (R335). -/
def fusedTable (grade : BitVec 8) : Vector VEntry 256 :=
  if grade = 1 then (Vector.replicate 256 ({} : VEntry)).set 0 { present := true } else .replicate 256 {}

/-- The machine of a form right after reset: every field at the value the spec gives for reset, a boot of each powered die
due, and no image in the boot flash. -/
def State.resetOf (f : Form) : State where
  cycle := 0
  dies := Vector.ofFn fun p =>
    { inService := f.expo p == .exposed, vtab := fusedTable f.grade, boot := { uid := dieUid p, cert := Config.idCert (dieUid p) } }
  stations := Vector.ofFn fun i => { fitted := f.fitted i }
  panel := { grade := f.grade, expo := Vector.ofFn f.expo, designated := f.designated, package := f.package }
  fabric := {}
  mem := []
  memBad := []
  iss := {}
  ev := {}
  agenda := ((List.finRange 128).filterMap fun p =>
    if f.expo p == .exposed then some { due := 0, act := .dieReset, arg := { die := p, arr := true } } else none)
    ++ [{ due := 128000000, act := .rejoinDelayExpiry, arg := {} }]
  portsDone := false
  fresh := 1
  freeCtr := 0

/-- The machine right after reset: the model's panel is of grade 120. -/
def State.reset : State := State.resetOf .grade120

end Sys2Proof.Machine
end

