-- ==== Sys2Proof/Machine/Bits.lean ====
section
/-! DEFINITION. Plain helpers: canonical tables and memories, byte order, elements of a vector image, checksums. -/

namespace Sys2Proof.Machine

/-! ### Canonical tables -/

/-- The value at a key, or the default of an unlisted key. -/
def Sparse.read {α : Type} (m : Sparse α) (dflt : α) (k : Nat) : α :=
  match m with
  | [] => dflt
  | (k', v) :: r => if k' = k then v else if k < k' then dflt else Sparse.read r dflt k

/-- Drop the entry at a key. -/
def Sparse.erase {α : Type} (m : Sparse α) (k : Nat) : Sparse α :=
  match m with
  | [] => []
  | (k', v) :: r => if k' = k then r else if k < k' then (k', v) :: r else (k', v) :: Sparse.erase r k

/-- List an entry at a key, in rising order of keys. -/
def Sparse.put {α : Type} (m : Sparse α) (k : Nat) (v : α) : Sparse α :=
  match m with
  | [] => [(k, v)]
  | (k', v') :: r =>
    if k' = k then (k, v) :: r else if k < k' then (k, v) :: (k', v') :: r else (k', v') :: Sparse.put r k v

/-- Write a value, keeping the canonical form: the default is not listed. -/
def Sparse.write {α : Type} [DecidableEq α] (m : Sparse α) (dflt : α) (k : Nat) (v : α) : Sparse α :=
  if v = dflt then Sparse.erase m k else Sparse.put m k v

/-- Keys strictly above a bound, rising, and no entry equal to the default. -/
def Sparse.okFrom {α : Type} [DecidableEq α] (dflt : α) (lo : Nat) (m : Sparse α) : Bool :=
  match m with
  | [] => true
  | (k, v) :: r => decide (lo ≤ k) && !decide (v = dflt) && Sparse.okFrom dflt (k + 1) r

/-- The canonical form of a table. -/
def Sparse.wf {α : Type} [DecidableEq α] (m : Sparse α) (dflt : α) : Bool := Sparse.okFrom dflt 0 m

/-- The canonical form of a memory. -/
def Memory.wf (m : Memory) : Bool := Sparse.wf m Config.memDefault

/-- The byte at an address. -/
def Memory.read (m : Memory) (a : Nat) : Byte := Sparse.read m Config.memDefault a

/-- A memory with one byte written. -/
def Memory.write (m : Memory) (a : Nat) (v : Byte) : Memory := Sparse.write m Config.memDefault a v

/-- A memory with several bytes written, in order. -/
def Memory.writeAll (m : Memory) (l : List (Nat × Byte)) : Memory := l.foldl (fun m p => m.write p.1 p.2) m

/-- The n bytes from an address on. -/
def Memory.readN (m : Memory) (a n : Nat) : List Byte := (List.range n).map fun k => m.read (a + k)

/-! ### Bytes and words, little-endian (R6) -/

/-- The number that bytes hold, first byte least significant. -/
def natOfBytes (l : List Byte) : Nat := l.foldr (fun b acc => b.toNat + 256 * acc) 0

/-- The n low bytes of a number. -/
def bytesOfNat (n : Nat) (v : Nat) : List Byte :=
  match n with
  | 0 => []
  | n + 1 => BitVec.ofNat 8 (v % 256) :: bytesOfNat n (v / 256)

/-- A 64-bit word of bytes. -/
def wordOfBytes (l : List Byte) : Word := BitVec.ofNat 64 (natOfBytes l)

/-- The eight bytes of a word. -/
def bytesOfWord (w : Word) : List Byte := bytesOfNat 8 w.toNat

/-- Bits lo+n-1 to lo of a word, as a number. -/
def bits (w : Word) (lo n : Nat) : Nat := w.toNat / 2 ^ lo % 2 ^ n

/-- Whether a bit of a word is 1. -/
def bitAt (w : Word) (i : Nat) : Bool := w.toNat / 2 ^ i % 2 == 1

/-- A word with bits from lo on set from a field value. -/
def field (v lo n : Nat) : Nat := v % 2 ^ n * 2 ^ lo

/-- A signed field extended to 64 bits. -/
def signExt {n : Nat} (v : BitVec n) : Word := v.signExtend 64

/-- Adds 1 to a 16-bit count that saturates. -/
def satInc16 (n : BitVec 16) : BitVec 16 := if n = BitVec.allOnes 16 then n else n + 1

/-- Adds 1 to a 32-bit count that saturates. -/
def satInc (n : BitVec 32) : BitVec 32 := if n = BitVec.allOnes 32 then n else n + 1

/-! ### Elements of a vector image (R37) -/

/-- The first n elements of width w of a number, lowest first. -/
def splitNat (w n v : Nat) : List Nat :=
  match n with
  | 0 => []
  | n + 1 => v % 2 ^ w :: splitNat w n (v / 2 ^ w)

/-- The number whose elements of width w are given, lowest first. -/
def joinNat (w : Nat) (l : List Nat) : Nat := l.foldr (fun x acc => x % 2 ^ w + 2 ^ w * acc) 0

/-- The elements of width w of a vector. -/
def elems (w : Nat) (v : VReg) : List Nat := splitNat w (8192 / w) v.toNat

/-- The vector of given elements of width w. -/
def ofElems (w : Nat) (l : List Nat) : VReg := BitVec.ofNat 8192 (joinNat w l)

/-- The 256 lanes of a vector. -/
def lanes (v : VReg) : List Nat := elems 32 v

/-- The vector of 256 lanes. -/
def ofLanes (l : List Nat) : VReg := ofElems 32 l

/-- The bits of a mask, lane 0 first. -/
def maskBits (m : Mask) : List Bool := (splitNat 1 256 m.toNat).map (· == 1)

/-- The mask of given bits, lane 0 first. -/
def ofMaskBits (l : List Bool) : Mask := BitVec.ofNat 256 (joinNat 1 (l.map Bool.toNat))

/-- A signed reading of the low w bits of a number. -/
def toSigned (w v : Nat) : Int :=
  let x := v % 2 ^ w
  if x < 2 ^ (w - 1) then (x : Int) else (x : Int) - (2 ^ w : Nat)

/-- The low w bits of an integer. -/
def lowBits (w : Nat) (x : Int) : Nat := (x % (2 ^ w : Nat)).toNat

/-! ### Checksums (R169, R203) -/

/-- One bit step of CRC-32C in reflected form. -/
def crcBit (c : Nat) : Nat := if c % 2 = 1 then Nat.xor (c / 2) 0x82F63B78 else c / 2

/-- One byte step of CRC-32C. -/
def crcByte (c : Nat) (b : Byte) : Nat :=
  crcBit (crcBit (crcBit (crcBit (crcBit (crcBit (crcBit (crcBit (Nat.xor c b.toNat))))))))

/-- CRC-32C of bytes (R169). -/
def crc32c (l : List Byte) : BitVec 32 := BitVec.ofNat 32 (Nat.xor (l.foldl crcByte 0xFFFFFFFF) 0xFFFFFFFF)

/-- One bit step of CRC-16 with polynomial 0x1021. -/
def crc16Bit (c : Nat) : Nat := if c / 2 ^ 15 % 2 = 1 then Nat.xor (c * 2 % 2 ^ 16) 0x1021 else c * 2 % 2 ^ 16

/-- One byte step of CRC-16, most significant bit first. -/
def crc16Byte (c : Nat) (b : Byte) : Nat :=
  crc16Bit (crc16Bit (crc16Bit (crc16Bit (crc16Bit (crc16Bit (crc16Bit (crc16Bit (Nat.xor c (b.toNat * 256)))))))))

/-- CRC-16 of bytes (R203). -/
def crc16 (l : List Byte) : Nat := l.foldl crc16Byte 0xFFFF

/-! ### Lists -/

/-- Adds a value at the end of a list if it is not in it. -/
def addNew {α : Type} [BEq α] (l : List α) (x : α) : List α := if l.contains x then l else l ++ [x]

/-- Replaces every element that meets a condition. -/
def replaceIf {α : Type} (p : α → Bool) (f : α → α) (l : List α) : List α := l.map fun x => if p x then f x else x

end Sys2Proof.Machine
end

