-- ==== Sys2Proof/Machine/Flags.lean ====
section
/-! DEFINITION. The sticky flags of ctl.flg (R16) and the integer computations that set them (R38 to R40, R101 to
R103): every result is exact first and then reduced to its type. -/

namespace Sys2Proof.Machine

/-- The five sticky flags, bits 4 to 0 of ctl.flg (R16). -/
abbrev Flg : Type := BitVec 5

def fInvalid : Flg := 1
def fOverflow : Flg := 2
def fDivzero : Flg := 4
def fSaturated : Flg := 8
def fInexact : Flg := 16

/-- Whether a type reads its bits as signed (R36). -/
def Ty.signed : Ty → Bool
  | .s8 | .s16 | .s32 | .s64 => true
  | _ => false

/-- The integer that the low bits of a value hold under a type (R38). -/
def intVal (t : Ty) (v : Nat) : Int :=
  if Ty.signed t then toSigned t.width v else ((v % 2 ^ t.width : Nat) : Int)

/-- The least value of an integer type. -/
def tyMin (t : Ty) : Int := if Ty.signed t then -((2 ^ (t.width - 1) : Nat) : Int) else 0

/-- The greatest value of an integer type. -/
def tyMax (t : Ty) : Int :=
  if Ty.signed t then ((2 ^ (t.width - 1) : Nat) : Int) - 1 else ((2 ^ t.width : Nat) : Int) - 1

/-- Reduces an exact integer to its type (R39, R101): the w bits, and the flags. -/
def reduce (t : Ty) (sat : Bool) (x : Int) : Nat × Flg :=
  if tyMin t ≤ x && x ≤ tyMax t then (lowBits t.width x, 0)
  else if sat then (lowBits t.width (if x < tyMin t then tyMin t else tyMax t), fSaturated)
  else (lowBits t.width x, fOverflow)

/-- The scalar register value of w result bits (R38). -/
def extend (t : Ty) (v : Nat) : Word :=
  if Ty.signed t then BitVec.ofInt 64 (toSigned t.width v) else BitVec.ofNat 64 (v % 2 ^ t.width)

/-- The quotient truncated toward zero (R40). -/
def divInt (t : Ty) (sat : Bool) (a b : Int) : (Nat × Flg) :=
  if b = 0 then (0, fDivzero) else reduce t sat (Int.tdiv a b)

/-- The remainder, with the flags of its division (R40, R102): the type's minimum by −1 gives 0 and the flag that the
quotient sets. -/
def remInt (t : Ty) (sat : Bool) (a b : Int) : (Nat × Flg) :=
  if b = 0 then (lowBits t.width a, fDivzero) else (lowBits t.width (Int.tmod a b), (reduce t sat (Int.tdiv a b)).2)

/-- Bits that a logic shift right or a rotate moves (R103). -/
def shrNat (w v n : Nat) : Nat := if n < w then v % 2 ^ w / 2 ^ n else 0

def rotNat (w v n : Nat) : Nat :=
  let k := n % w
  (v % 2 ^ w * 2 ^ k + v % 2 ^ w / 2 ^ (w - k)) % 2 ^ w

/-- Zeros above the highest 1 bit of w bits. -/
def clzNat (w v : Nat) : Nat := if v % 2 ^ w = 0 then w else w - 1 - Nat.log2 (v % 2 ^ w)

/-- The number of 1 bits among w bits. -/
def popNat (w v : Nat) : Nat := (splitNat 1 w v).foldl (· + ·) 0

/-- ORs flags into the low bits of a ctl.flg value (R17). -/
def orFlags (flg : BitVec 32) (f : Flg) : BitVec 32 := flg ||| f.setWidth 32

end Sys2Proof.Machine
end

