-- ==== Sys2Proof/Machine/Num.lean ====
section
/-! DEFINITION. Number formats: floating point, D8 and their rounding (R41 to R54), as exact arithmetic on values
`n / d * 2 ^ e` that is rounded once. -/

namespace Sys2Proof.Machine

/-- A value of a floating-point or D8 operand or an exact result: a NaN, an infinity, a zero with its sign, or
`n / d * 2 ^ e` with `n` and `d` positive. -/
inductive Val where
  | nan (signalling : Bool)
  | inf (neg : Bool)
  | zero (neg : Bool)
  | fin (neg : Bool) (n d : Nat) (e : Int)
  deriving DecidableEq, Repr

/-- The parameters of R41: significand width with the hidden bit, width in all, and bias. -/
structure FFmt where
  p : Nat
  w : Nat
  bias : Nat
  deriving DecidableEq, Repr

def fmtF32 : FFmt := { p := 24, w := 32, bias := 127 }
def fmtF16 : FFmt := { p := 11, w := 16, bias := 15 }
def fmtBf16 : FFmt := { p := 8, w := 16, bias := 127 }

/-- The floating-point format of a type; binary32 for the others. -/
def fmtOf : Ty → FFmt
  | .f16 => fmtF16
  | .bf16 => fmtBf16
  | _ => fmtF32

/-- The exponent of the smallest normal. -/
def FFmt.emin (f : FFmt) : Int := 1 - (f.bias : Int)

/-- The encoding of an infinity, the canonical NaN and the largest finite value. -/
def FFmt.infBits (f : FFmt) : Nat := (2 ^ (f.w - f.p) - 1) * 2 ^ (f.p - 1)
def FFmt.nanBits (f : FFmt) : Nat := f.infBits + 2 ^ (f.p - 2)
def FFmt.maxBits (f : FFmt) : Nat := f.infBits - 1
def FFmt.signBit (f : FFmt) (neg : Bool) : Nat := if neg then 2 ^ (f.w - 1) else 0

/-- The value an encoding stands for. -/
def decodeF (f : FFmt) (b : Nat) : Val :=
  let neg := b / 2 ^ (f.w - 1) % 2 == 1
  let ex := b / 2 ^ (f.p - 1) % 2 ^ (f.w - f.p)
  let fr := b % 2 ^ (f.p - 1)
  if ex = 2 ^ (f.w - f.p) - 1 then
    if fr = 0 then .inf neg else .nan (fr / 2 ^ (f.p - 2) % 2 == 0)
  else if ex = 0 then
    if fr = 0 then .zero neg else .fin neg fr 1 (f.emin - (f.p - 1 : Nat))
  else .fin neg (2 ^ (f.p - 1) + fr) 1 ((ex : Int) - (f.bias : Int) - (f.p - 1 : Nat))

/-- Whether an encoding is a subnormal number. -/
def isSubnormal (f : FFmt) (b : Nat) : Bool :=
  b / 2 ^ (f.p - 1) % 2 ^ (f.w - f.p) == 0 && b % 2 ^ (f.p - 1) != 0

/-- The value of an operand, a subnormal replaced by a zero of its sign under flush (R43). -/
def operandF (f : FFmt) (flush : Bool) (b : Nat) : Val :=
  if flush && isSubnormal f b then .zero (b / 2 ^ (f.w - 1) % 2 == 1) else decodeF f b

/-- Whether `n / d ≥ 2 ^ l`. -/
def geTwoPow (n d : Nat) (l : Int) : Bool :=
  if 0 ≤ l then decide (d * 2 ^ l.toNat ≤ n) else decide (d ≤ n * 2 ^ (-l).toNat)

/-- `floor (log2 (n / d))` of positive `n` and `d`. -/
def floorLog2 (n d : Nat) : Int :=
  let l := (Nat.log2 n : Int) - (Nat.log2 d : Int)
  if geTwoPow n d l then l else l - 1

/-- How a rounding to an integer multiple of the spacing comes out: the lower multiple, and where the value lies. -/
structure Split where
  lo : Nat
  exact : Bool
  /-- How twice the remainder compares with the spacing. -/
  half : Ordering
  deriving DecidableEq, Repr

/-- Splits `n / d * 2 ^ sh` into its whole part and its remainder. -/
def splitAt (n d : Nat) (sh : Int) : Split :=
  let num := if 0 ≤ sh then n * 2 ^ sh.toNat else n
  let den := if 0 ≤ sh then d else d * 2 ^ (-sh).toNat
  { lo := num / den, exact := num % den == 0, half := compare (2 * (num % den)) den }

/-- The whole number a magnitude rounds to (R45); `neg` is the sign of the value. -/
def roundSplit (mode : Rnd) (neg : Bool) (s : Split) : Nat :=
  if s.exact then s.lo
  else match mode with
    | .rz => s.lo
    | .ru => if neg then s.lo else s.lo + 1
    | .rd => if neg then s.lo + 1 else s.lo
    | .rne => match s.half with
      | .lt => s.lo
      | .gt => s.lo + 1
      | .eq => if s.lo % 2 = 0 then s.lo else s.lo + 1
    | .rna => match s.half with
      | .lt => s.lo
      | _ => s.lo + 1

/-- An overflowing result (R46). -/
def overflowBits (f : FFmt) (mode : Rnd) (neg : Bool) : Nat :=
  f.signBit neg + match mode with
    | .rne | .rna => f.infBits
    | .rz => f.maxBits
    | .ru => if neg then f.maxBits else f.infBits
    | .rd => if neg then f.infBits else f.maxBits

/-- Rounds a nonzero magnitude to a format, subnormals included, and encodes it (R45, R46). -/
def roundFin (f : FFmt) (mode : Rnd) (neg : Bool) (n d : Nat) (e : Int) : Nat × Flg :=
  let ex := max (floorLog2 n d + e) f.emin
  let q := ex - (f.p - 1 : Nat)
  let s := splitAt n d (e - q)
  let r := roundSplit mode neg s
  let enc := (ex - f.emin).toNat * 2 ^ (f.p - 1) + r
  if enc ≥ f.infBits then (overflowBits f mode neg, fOverflow ||| fInexact)
  else (f.signBit neg + enc, if s.exact then 0 else fInexact)

/-- Whether a magnitude, rounded with an unbounded exponent, lies below the smallest normal (R43). -/
def isTiny (f : FFmt) (mode : Rnd) (neg : Bool) (n d : Nat) (e : Int) : Bool :=
  let ex := floorLog2 n d + e
  if f.emin ≤ ex then false
  else
    let r := roundSplit mode neg (splitAt n d (e - (ex - (f.p - 1 : Nat))))
    !(decide (ex + 1 = f.emin) && decide (2 ^ f.p ≤ r))

/-- Rounds an exact result to a format and encodes it (R42, R43, R45, R46). -/
def roundVal (f : FFmt) (mode : Rnd) (flush : Bool) (v : Val) : Nat × Flg :=
  match v with
  | .nan _ => (f.nanBits, 0)
  | .inf neg => (f.signBit neg + f.infBits, 0)
  | .zero neg => (f.signBit neg, 0)
  | .fin neg n d e =>
    if flush && isTiny f mode neg n d e then (f.signBit neg, fInexact) else roundFin f mode neg n d e

/-- The flag that a signalling NaN operand sets (R42). -/
def sigFlag : Val → Flg
  | .nan true => fInvalid
  | _ => 0

def Val.isNan : Val → Bool
  | .nan _ => true
  | _ => false

def Val.neg : Val → Bool
  | .nan _ => false
  | .inf s => s
  | .zero s => s
  | .fin s _ _ _ => s

def Val.flip : Val → Val
  | .nan s => .nan s
  | .inf s => .inf (!s)
  | .zero s => .zero (!s)
  | .fin s n d e => .fin (!s) n d e

def Val.absVal : Val → Val
  | .nan s => .nan s
  | .inf _ => .inf false
  | .zero _ => .zero false
  | .fin _ n d e => .fin false n d e

/-- The signed integer numerator of a finite value at a common exponent and denominator. -/
def scaled (neg : Bool) (n other : Nat) (e lo : Int) : Int :=
  let m : Nat := n * other * 2 ^ (e - lo).toNat
  if neg then -(m : Int) else (m : Int)

/-- The exact sum of two values that are no NaN; a sum of opposite signs that cancels is +0, or −0 under RD (R45). -/
def addExact (mode : Rnd) : Val → Val → Val × Flg
  | .inf s, .inf t => if s = t then (.inf s, 0) else (.nan false, fInvalid)
  | .inf s, _ => (.inf s, 0)
  | _, .inf t => (.inf t, 0)
  | .zero s, .zero t => (.zero (if s = t then s else decide (mode = .rd)), 0)
  | .zero _, v => (v, 0)
  | v, .zero _ => (v, 0)
  | .fin s n d e, .fin t m c g =>
    let lo := min e g
    let x := scaled s n c e lo + scaled t m d g lo
    if x = 0 then (.zero (decide (mode = .rd)), 0)
    else (.fin (decide (x < 0)) x.natAbs (d * c) lo, 0)
  | v, _ => (v, 0)

/-- The exact sum, NaN operands and flags included (R42). -/
def addVal (mode : Rnd) (a b : Val) : Val × Flg :=
  if a.isNan || b.isNan then (.nan false, sigFlag a ||| sigFlag b) else addExact mode a b

/-- The exact product of two values that are no NaN. -/
def mulExact : Val → Val → Val × Flg
  | .inf _, .zero _ => (.nan false, fInvalid)
  | .zero _, .inf _ => (.nan false, fInvalid)
  | .inf s, v => (.inf (s != v.neg), 0)
  | v, .inf s => (.inf (s != v.neg), 0)
  | .zero s, v => (.zero (s != v.neg), 0)
  | v, .zero s => (.zero (s != v.neg), 0)
  | .fin s n d e, .fin t m c g => (.fin (s != t) (n * m) (d * c) (e + g), 0)
  | v, _ => (v, 0)

/-- The exact product, NaN operands and flags included (R42). -/
def mulVal (a b : Val) : Val × Flg :=
  if a.isNan || b.isNan then (.nan false, sigFlag a ||| sigFlag b) else mulExact a b

/-- The exact `a * b + c`; 0 × ∞ is invalid whatever the addend (R42). -/
def fmaVal (mode : Rnd) (a b c : Val) : Val × Flg :=
  let p := mulVal a b
  if c.isNan then (.nan false, p.2 ||| sigFlag c)
  else if p.1.isNan then (.nan false, p.2)
  else
    let r := addExact mode p.1 c
    (r.1, p.2 ||| r.2)

/-- The exact quotient (R42; a zero divisor of a finite nonzero dividend gives an infinity and flag_divzero). -/
def divVal (a b : Val) : Val × Flg :=
  match a, b with
  | .nan s, .nan t => (.nan false, if s || t then fInvalid else 0)
  | .nan s, _ => (.nan false, if s then fInvalid else 0)
  | _, .nan t => (.nan false, if t then fInvalid else 0)
  | .inf _, .inf _ => (.nan false, fInvalid)
  | .zero _, .zero _ => (.nan false, fInvalid)
  | .inf s, v => (.inf (s != v.neg), 0)
  | v, .inf s => (.zero (s != v.neg), 0)
  | .zero s, v => (.zero (s != v.neg), 0)
  | .fin s _ _ _, .zero t => (.inf (s != t), fDivzero)
  | .fin s n d e, .fin t m c g => (.fin (s != t) (n * c) (d * m) (e - g), 0)

/-- The integer square root of a number below `4 ^ k`, one bit at a time. -/
def sqrtBits (n : Nat) : Nat → Nat → Nat
  | 0, r => r
  | k + 1, r =>
    let t := r + 2 ^ k
    sqrtBits n k (if t * t ≤ n then t else r)

/-- The square root, exact or lying strictly between two numbers far below the destination's spacing: in the second
case the odd numerator stands for it, and rounds as it does. -/
def sqrtVal (v : Val) : Val × Flg :=
  match v with
  | .nan s => (.nan false, if s then fInvalid else 0)
  | .zero s => (.zero s, 0)
  | .inf false => (.inf false, 0)
  | .inf true => (.nan false, fInvalid)
  | .fin true _ _ _ => (.nan false, fInvalid)
  | .fin false n _ e =>
    let odd := e % 2 ≠ 0
    let m := (if odd then 2 * n else n) * 2 ^ 64
    let g : Int := ((if odd then e - 1 else e) - 64) / 2
    let r := sqrtBits m (Nat.log2 m / 2 + 1) 0
    if r * r = m then (.fin false r 1 g, 0) else (.fin false (2 * r + 1) 1 (g - 1), 0)

/-- How two values that are no NaN compare, zeros of both signs equal. -/
def cmpVal (a b : Val) : Ordering :=
  match a, b with
  | .nan _, _ | _, .nan _ => .eq
  | .inf s, .inf t => if s = t then .eq else if s then .lt else .gt
  | .inf s, _ => if s then .lt else .gt
  | _, .inf t => if t then .gt else .lt
  | .zero _, .zero _ => .eq
  | .zero _, .fin t _ _ _ => if t then .gt else .lt
  | .fin s _ _ _, .zero _ => if s then .lt else .gt
  | .fin s n d e, .fin t m c g =>
    let lo := min e g
    compare (scaled s n c e lo) (scaled t m d g lo)

/-- The order of R44, −0 below +0. -/
def leR44 (a b : Val) : Bool :=
  match a, b with
  | .zero s, .zero t => s || !t
  | _, _ => cmpVal a b != .gt

/-- Max or min of R44: a NaN operand gives the canonical NaN. -/
def maxMinVal (isMax : Bool) (a b : Val) : Val × Flg :=
  if a.isNan || b.isNan then (.nan false, sigFlag a ||| sigFlag b)
  else if leR44 a b then (if isMax then b else a, 0) else (if isMax then a else b, 0)

/-! ### D8 (R49 to R54) -/

/-- The magnitude that a D8 code c, 1 to 127, stands for nominally (R49): numerator and denominator. -/
def d8Nominal (c : Nat) : Nat × Nat :=
  let z := 6 - Nat.log2 c
  if z = 6 then (10 ^ 6, 1)
  else
    let g := c / 2 ^ (5 - z) % 2
    let m := 2 ^ (5 - z) + c % 2 ^ (5 - z)
    if g = 0 then (m * 10 ^ z, 2 ^ (5 - z)) else (m, 2 ^ (5 - z) * 10 ^ (z + 1))

/-- The defined magnitude (R50): eight significant bits, nearest, ties to even. -/
def d8Mag (c : Nat) : Nat × Int :=
  let r := d8Nominal c
  let q := floorLog2 r.1 r.2 - 7
  (roundSplit .rne false (splitAt r.1 r.2 (-q)), q)

/-- The value of a D8 byte (R50, R52). NaR is a NaN that always sets flag_invalid. -/
def decodeD8 (b : Nat) : Val :=
  let c := b % 128
  let neg := b / 128 % 2 == 1
  if c = 0 then (if neg then .nan true else .zero false)
  else .fin neg (d8Mag c).1 1 (d8Mag c).2

/-- The 127 defined magnitudes with their codes. -/
def d8Table : List (Nat × Val) := (List.range 127).map fun k => (k + 1, .fin false (d8Mag (k + 1)).1 1 (d8Mag (k + 1)).2)

/-- The code with the largest magnitude at most v, 0 for none. -/
def d8Below (v : Val) : Nat × Val :=
  d8Table.foldl (fun best p => if cmpVal p.2 v != .gt && cmpVal best.2 p.2 == .lt then p else best) (0, .zero false)

/-- The code with the smallest magnitude at least v; v is at most the largest. -/
def d8Above (v : Val) : Nat × Val :=
  d8Table.foldl (fun best p => if cmpVal v p.2 != .gt && cmpVal p.2 best.2 == .lt then p else best)
    (1, .fin false (d8Mag 1).1 1 (d8Mag 1).2)

/-- A D8 byte of a magnitude code; zero has no sign (R54). -/
def d8Code (neg : Bool) (c : Nat) : Nat := if c = 0 then 0 else if neg then 128 + c else c

/-- Conversion into D8 (R54) of a value in which a NaN stands for a NaN or NaR. -/
def toD8 (mode : Rnd) (sat : Bool) (v : Val) : Nat × Flg :=
  match v with
  | .nan _ => (0x80, fInvalid)
  | .inf neg => if sat then (d8Code neg 1, fSaturated) else (0x80, fInvalid)
  | .zero _ => (0, 0)
  | .fin neg n d e =>
    let m : Val := .fin false n d e
    if cmpVal m (.fin false 999424 1 0) == .gt then
      if sat then (d8Code neg 1, fSaturated) else (0x80, fOverflow)
    else
      let lo := d8Below m
      let hi := d8Above m
      if cmpVal lo.2 m == .eq then (d8Code neg lo.1, 0)
      else
        let dlo := (addExact .rne m lo.2.flip).1
        let dhi := (addExact .rne hi.2 m.flip).1
        let near := cmpVal dlo dhi
        let c := match mode with
          | .rz => lo.1
          | .ru => if neg then lo.1 else hi.1
          | .rd => if neg then hi.1 else lo.1
          | .rne => match near with
            | .lt => lo.1
            | .gt => hi.1
            | .eq => if lo.1 % 2 ≠ hi.1 % 2 then (if lo.1 % 2 = 0 then lo.1 else hi.1) else lo.1
          | .rna => match near with
            | .lt => lo.1
            | _ => hi.1
        (d8Code neg c, fInexact)

/-! ### Conversions (R47, R48) -/

/-- An integer as an exact value. -/
def ofInt (x : Int) : Val := if x = 0 then .zero false else .fin (decide (x < 0)) x.natAbs 1 0

/-- Conversion of a value to an integer type (R48). -/
def toIntType (t : Ty) (mode : Rnd) (sat : Bool) (v : Val) : Nat × Flg :=
  let bad (neg : Bool) : Nat × Flg :=
    if sat then (lowBits t.width (if neg then tyMin t else tyMax t), fSaturated)
    else (lowBits t.width (tyMin t), fInvalid)
  match v with
  | .nan _ => (0, fInvalid)
  | .inf neg => bad neg
  | .zero _ => (0, 0)
  | .fin neg n d e =>
    let s := splitAt n d e
    let m := roundSplit mode neg s
    let x : Int := if neg then -(m : Int) else (m : Int)
    if tyMin t ≤ x && x ≤ tyMax t then (lowBits t.width x, if s.exact then 0 else fInexact) else bad neg

/-- Whether a type is an integer type of the vector lanes. -/
def isIntTy (t : Ty) : Bool := t.isVecInt || t == .s64 || t == .z64

/-- The value of an element of any type but L2, subnormals flushed if asked (R43, R50). -/
def elemVal (t : Ty) (flush : Bool) (b : Nat) : Val :=
  if t = .d8 then decodeD8 b
  else if isIntTy t then ofInt (intVal t b)
  else operandF (fmtOf t) flush (b % 2 ^ t.width)

/-- The conversion of one element (R47): between integer types exact where the type is wider, else reduced. -/
def convert (src dst : Ty) (c : Rnd × Bool × Bool) (b : Nat) : Nat × Flg :=
  let mode := c.1
  let sat := c.2.1
  let flush := c.2.2
  if isIntTy src && isIntTy dst then
    if src.width < dst.width then (lowBits dst.width (intVal src b), 0) else reduce dst sat (intVal src b)
  else
    let v := elemVal src flush b
    if dst = .d8 then toD8 mode sat v
    else if isIntTy dst then toIntType dst mode sat v
    else
      let r := roundVal (fmtOf dst) mode flush v
      (r.1, r.2 ||| sigFlag v)

end Sys2Proof.Machine
end

