-- ==== Sys2Proof/Machine/Ops.lean ====
section
/-! DEFINITION. The named operations over the state: reading and changing dies, contexts and registers, putting steps
on the agenda, panel memory and its translation tables, reports of command queues, results in flight, taking a trap
and returning from one, and the end of a task. -/

namespace Sys2Proof.Machine

/-! ### Access to vectors, dies and contexts -/

/-- A vector with the entry at an index replaced. -/
def vset {α : Type} {n : Nat} (v : Vector α n) (i : Fin n) (x : α) : Vector α n := v.set i.val x i.isLt

/-- A vector with the entry at an index changed. -/
def vmod {α : Type} {n : Nat} (v : Vector α n) (i : Fin n) (f : α → α) : Vector α n := vset v i (f v[i])

def State.die (s : State) (d : DieId) : Die := s.dies[d]

def State.setDie (s : State) (d : DieId) (x : Die) : State := { s with dies := vset s.dies d x }

def State.modDie (s : State) (d : DieId) (f : Die → Die) : State := s.setDie d (f (s.die d))

def Die.ctx (x : Die) (c : CtxId) : Ctx := x.ctxs[c]

def Die.setCtx (x : Die) (c : CtxId) (v : Ctx) : Die := { x with ctxs := vset x.ctxs c v }

def Die.modCtx (x : Die) (c : CtxId) (f : Ctx → Ctx) : Die := x.setCtx c (f (x.ctx c))

def State.ctx (s : State) (d : DieId) (c : CtxId) : Ctx := (s.die d).ctx c

def State.modCtx (s : State) (d : DieId) (c : CtxId) (f : Ctx → Ctx) : State := s.modDie d fun x => x.modCtx c f

def State.queue (s : State) (q : QueueId) : CmdQueue := s.panel.queues[q]

def State.modQueue (s : State) (q : QueueId) (f : CmdQueue → CmdQueue) : State :=
  { s with panel := { s.panel with queues := vmod s.panel.queues q f } }

def State.station (s : State) (i : StackId) : Station := s.stations[i]

def State.modStation (s : State) (i : StackId) (f : Station → Station) : State :=
  { s with stations := vmod s.stations i f }

def State.port (s : State) (p : PortId) : Port := s.fabric.ports[p]

def State.modFabric (s : State) (f : Fabric → Fabric) : State := { s with fabric := f s.fabric }

def State.modPort (s : State) (p : PortId) (f : Port → Port) : State :=
  s.modFabric fun b => { b with ports := vmod b.ports p f }

def State.modPanel (s : State) (f : Panel → Panel) : State := { s with panel := f s.panel }

/-- The register file of a context's task or handler space (R132). -/
def Ctx.file (c : Ctx) (hnd : Bool) : RegFile := if hnd then c.hnd else c.task

def Ctx.modFile (c : Ctx) (hnd : Bool) (f : RegFile → RegFile) : Ctx :=
  if hnd then { c with hnd := f c.hnd } else { c with task := f c.task }

/-- The register file in use: the handler's while the context is at supervisor privilege (R131). -/
def Ctx.rf (c : Ctx) : RegFile := c.file c.priv

/-- Adds a report over the management plane (R346, R363, R409). -/
def State.notify (s : State) (n : Notice) : State :=
  s.modPanel fun p => { p with notices := p.notices ++ [n] }

/-! ### The agenda, fresh numbers and free values -/

/-- Puts a step on the agenda for a cycle. -/
def State.sched (s : State) (due : Nat) (act : Instr) (arg : EvArg) : State :=
  { s with agenda := s.agenda ++ [{ due := due, act := act, arg := arg }] }

/-- Puts a step on the agenda unless the same step is already due in that cycle. -/
def State.schedOnce (s : State) (due : Nat) (act : Instr) (arg : EvArg) : State :=
  if s.agenda.any (fun x => x.due == due && x.act == act && x.arg == arg) then s else s.sched due act arg

/-- The state with its counter of fresh numbers advanced; the number taken is `s.fresh`. -/
def State.takeFresh (s : State) : State := { s with fresh := s.fresh + 1 }

/-- The state with its counter of free values advanced; the value taken is a function of `s.freeCtr`. -/
def State.takeFree (s : State) : State := { s with freeCtr := s.freeCtr + 1 }

/-- Puts a step on the agenda after a duration that the spec leaves open, at least one cycle. -/
def State.schedLater (s : State) (act : Instr) (arg : EvArg) : State :=
  (s.takeFree).sched (s.cycle + 1 + Config.delay s.freeCtr) act arg

/-! ### Panel memory (R307) -/

/-- The stack of a physical address. -/
def stackOf (pa : Nat) : StackId := Fin.ofNat 128 (pa / 2 ^ 36)

/-- Whether a physical address lies in fitted memory (R307). -/
def State.physOk (s : State) (pa : Nat) : Bool :=
  decide (pa < 2 ^ 43) && decide (pa % 2 ^ 36 < Config.stackBytes) && (s.station (stackOf pa)).fitted

def State.readMem (s : State) (pa n : Nat) : List Byte := s.mem.readN pa n

def State.readMem64 (s : State) (pa : Nat) : Word := wordOfBytes (s.readMem pa 8)

/-- The doorbell words that bytes of panel memory touch (R414): word n of the page that qp_db names. -/
def Fabric.bells (b : Fabric) (pa n : Nat) : List (Fin 8192) :=
  let page := b.qpDb.toNat * 2 ^ 16
  if n = 0 || decide (pa + n ≤ page) || decide (page + 2 ^ 16 ≤ pa) then []
  else
    let first := (pa - page) / 8
    (List.range ((pa + n - 1 - page) / 8 + 1 - first)).filterMap fun k =>
      if h : first + k < 8192 then some ⟨first + k, h⟩ else none

/-- Rings the doorbell words that a committed write has touched (R414). -/
def State.ringBells (s : State) (l : List (Fin 8192)) : State :=
  l.foldl (fun s n => s.sched s.cycle .doorbellWrite
    { qp := n, val := s.readMem64 (s.fabric.qpDb.toNat * 2 ^ 16 + 8 * n.val) }) s

/-- Writes bytes to panel memory from a physical address on (R307); a whole 8-byte word written is whole again (R302),
and a write to the doorbell page is a doorbell (R414). -/
def State.writeMem (s : State) (pa : Nat) (l : List Byte) : State :=
  let s := { s with mem := s.mem.writeAll ((List.range l.length).zip l |>.map fun (p : Nat × Byte) => (pa + p.1, p.2))
                    memBad := s.memBad.filter fun w => !(decide (pa ≤ 8 * w) && decide (8 * w + 8 ≤ pa + l.length)) }
  s.ringBells (s.fabric.bells pa l.length)

/-- Whether bytes of panel memory hold an uncorrectable error (R302). -/
def State.memBadAt (s : State) (pa n : Nat) : Bool :=
  s.memBad.any fun w => decide (pa < 8 * w + 8) && decide (8 * w < pa + n)

/-! ### Translation (R308, R309) -/

/-- How a walk ends. -/
inductive WalkEnd where
  | ok (e : Xlat)
  | migrating
  /-- A table word with an uncorrectable error (R302). -/
  | badEcc
  | fault (k : FaultKind) (level : Nat)
  deriving DecidableEq, Repr

/-- log2 of the page or table span that a level's entry maps (R308). -/
def levelShift : Nat → Nat
  | 0 => 39 | 1 => 30 | 2 => 21 | _ => 16

/-- The index of a virtual address at a level (R308). -/
def levelIndex (level va : Nat) : Nat :=
  if level < 3 then va / 2 ^ levelShift level % 512 else va / 2 ^ 16 % 32

/-- Whether a table entry breaks the rules of its kind (R308). -/
def badEntry (e : Word) (level : Nat) : Bool :=
  let leaf := bitAt e 1
  bits e 43 20 != 0 || bits e 5 3 != 0
    || (!leaf && bitAt e 63) || (leaf && level == 0) || (!leaf && level == 3)
    || (leaf && decide (field (bits e 8 35) 8 35 % 2 ^ levelShift level ≠ 0))
    || (!leaf && level < 2 && decide (field (bits e 8 35) 8 35 % 2 ^ 12 ≠ 0))

/-- The walk of R308 from a table on: `left` levels remain. -/
def walkFrom (s : State) (root : Word) (va : Nat) (perm : Perm) : Nat → Nat → WalkEnd
  | 0, _ => .fault .badEntry 3
  | left + 1, base =>
    let level := 3 - left
    let ea := base + 8 * levelIndex level va
    if !s.physOk ea then .fault .noMemory level
    else if s.memBadAt ea 8 then .badEcc
    else
      let e := s.readMem64 ea
      let addr := field (bits e 8 35) 8 35
      if !bitAt e 0 then .fault .notValid level
      else if badEntry e level then .fault .badEntry level
      else if bitAt e 1 then
        if bitAt e 63 then .migrating
        else
          let okPerm := match perm with
            | .read => bitAt e 2
            | .write => bitAt e 3
            | .exec => bitAt e 4
          if !okPerm then .fault .permission level
          else if !s.physOk (addr + va % 2 ^ levelShift level) then .fault .noMemory level
          else .ok { root := root, page := va / 2 ^ levelShift level, level := level, phys := addr,
                     r := bitAt e 2, w := bitAt e 3, x := bitAt e 4 }
      else walkFrom s root va perm left addr

/-- A walk of the four-level table of a root register (R308, R330). -/
def walkTable (s : State) (root : Word) (va : Word) (perm : Perm) : WalkEnd :=
  if !bitAt root 0 then .fault .notValid 0
  else if bits va 48 16 ≠ 0 then .fault .notValid 0
  else walkFrom s root va.toNat perm 4 (field (bits root 12 31) 12 31)

/-- Whether a cached entry maps an address. -/
def Xlat.covers (e : Xlat) (root va : Word) : Bool :=
  e.root == root && bits va 48 16 == 0 && e.page == va.toNat / 2 ^ levelShift e.level

/-- Whether a cached entry has a permission. -/
def Xlat.allows (e : Xlat) : Perm → Bool
  | .read => e.r
  | .write => e.w
  | .exec => e.x

def Xlat.phys' (e : Xlat) (va : Word) : Nat := e.phys + va.toNat % 2 ^ levelShift e.level

/-- The physical address of a cached translation with the permission needed (R309). -/
def Die.lookup (x : Die) (root va : Word) (perm : Perm) : Option Nat :=
  (x.xlat.find? fun e => e.covers root va && e.allows perm).map fun e => e.phys' va

/-- Puts a translation into the cache: it replaces an entry of the same page, or, with all 4,096 in use, one that the
spec leaves open (R309). -/
def Die.cache (x : Die) (e : Xlat) (free : Nat) : Die :=
  let l := x.xlat.filter fun o => !(o.root == e.root && o.level == e.level && o.page == e.page)
  let l := if l.length < 4096 then l else l.eraseIdx (Config.victim free % 4096)
  { x with xlat := l ++ [e] }

/-! ### Translation requests (R309, R310) -/

/-- Whether a requester has a walk or a fault outstanding. -/
def Die.held (x : Die) (who : Requester) : Bool :=
  x.walks.any (fun w => w.who == who) || x.faults.any (fun f => f.walk.who == who)

/-- Whether a requester stands at a fault record, or at one that waits to enter the fault queue (R310). -/
def Die.faulted (x : Die) (who : Requester) : Bool := x.faults.any fun f => f.walk.who == who

/-- How many walks run at once (R309). -/
def walkers : Nat := 16

/-- Starts a walk, or makes it wait for a walker (R309). -/
def State.startWalk (s : State) (d : DieId) (root va : Word) (perm : Perm) (who : Requester) : State :=
  let w : Walk := { id := s.fresh, root := root, va := va, perm := perm, who := who }
  let n := (s.die d).walks.length
  let s := (s.modDie d fun x => { x with walks := x.walks ++ [w] }).takeFresh
  if n < walkers then s.schedLater .translationWalkComplete { die := d, id := w.id } else s

/-- The cached entry for an address with a permission (R309). -/
def Die.entry (x : Die) (root va : Word) (perm : Perm) : Option Xlat :=
  x.xlat.find? fun e => e.covers root va && e.allows perm

/-- Translates for a requester: the cached entry, or none while the requester's walk or fault is outstanding (R309). -/
def State.translate (s : State) (d : DieId) (root va : Word) (perm : Perm) (who : Requester) : State × Option Xlat :=
  match (s.die d).entry root va perm with
  | some e => (s, some e)
  | none => (if (s.die d).held who then s else s.startWalk d root va perm who, none)

/-- Bytes from an address to the end of its page. -/
def Xlat.rest (e : Xlat) (va : Word) : Nat := 2 ^ levelShift e.level - va.toNat % 2 ^ levelShift e.level


/-! ### Runs of bytes at virtual addresses -/

/-- Whether a station's active migration range covers a byte of an access (R325, R331). -/
def Station.migrates (t : Station) (pa n : Nat) : Bool :=
  (List.finRange 8).any fun k =>
    let size := (t.migSize[k]).toNat
    let first := (t.migPage[k]).toNat * 2 ^ 16 / 2 ^ size * 2 ^ size
    t.migActive[k] && (size == 16 || size == 21 || size == 30)
      && decide (pa % 2 ^ 43 < first + 2 ^ size) && decide (first < pa % 2 ^ 43 + n)

/-- Whether a station refuses an access for retry (R325). -/
def State.refusesAt (s : State) (pa n : Nat) : Bool := (s.station (stackOf pa)).migrates pa n

/-- Counts a refusal for retry that a station sends (R331). -/
def Station.countRefusal (t : Station) : Station := { t with refusals := satInc t.refusals }

/-- Counts a refusal for retry that has reached its source (R323). -/
def Die.countRefusal (x : Die) : Die := { x with mem := { x.mem with refusals := satInc x.mem.refusals } }

/-- A station refuses a die's own access to a physical address for retry: both count it (R323, R325, R331). -/
def State.dieRefused (s : State) (d : DieId) (pa : Nat) : State :=
  (s.modStation (stackOf pa) Station.countRefusal).modDie d Die.countRefusal

/-- The cycle in which an access that a station refuses now is made again (R325). -/
def State.retryAt (s : State) (pa : Nat) : Nat := s.cycle + max 1 (s.station (stackOf pa)).retry.toNat

/-- A walk made in place, without a fault record: for a reader that has already been translated, and for the fabric
engine (R412). -/
def State.xlateNow (s : State) (root va : Word) (perm : Perm) : Option Nat :=
  match walkTable s root va perm with
  | .ok e => some (e.phys' va)
  | _ => none

/-- Bytes from a virtual address, each translated on its own page. -/
def State.readVirt (s : State) (root va : Word) (n : Nat) : Option (List Byte) :=
  (List.range n).mapM fun k => (s.xlateNow root (va + BitVec.ofNat 64 k) .read).map fun pa => s.mem.read pa

/-- The parts of a run of bytes that lie within one 64 KiB page each: offset and length. -/
def virtParts (va n : Nat) : Nat → Nat → List (Nat × Nat)
  | 0, _ => []
  | k + 1, off =>
    if off < n then
      let m := min (n - off) (2 ^ 16 - (va + off) % 2 ^ 16)
      (off, m) :: virtParts va n k (off + m)
    else []

/-- The bytes of physical runs. -/
def State.runBytes (s : State) (l : List (Nat × Nat)) : List Byte := l.flatMap fun r => s.readMem r.1 r.2

/-- Whether a byte of physical runs has an uncorrectable error (R302). -/
def State.runBad (s : State) (l : List (Nat × Nat)) : Bool := l.any fun r => s.memBadAt r.1 r.2

/-- Writes bytes over physical runs. -/
def State.runWrite (s : State) : List (Nat × Nat) → List Byte → State
  | [], _ => s
  | (pa, n) :: r, l => (s.writeMem pa (l.take n)).runWrite r (l.drop n)

/-- What a try to reach bytes brings: their physical runs, a wait for a migrating page or for the service of a fault, or
the code of an end. -/
inductive Tried where
  | done (l : List (Nat × Nat))
  | migrating
  | waits
  | fails (code : BitVec 8)
  deriving DecidableEq, Repr

/-! ### A queue's own reads and writes (R344 to R347) -/

/-- The root of a queue's own tables, in the form of mmu_root: it has no enable of its own (R347). -/
def CmdQueue.tables (q : CmdQueue) : Word := q.root ||| 1

/-- Translates the parts of a run of a queue's bytes through its leader (R309, R310, R347). -/
def State.queueRuns (s : State) (q : QueueId) (k : Fin 5) (va : Word) (perm : Perm) : List (Nat × Nat) → State × Tried
  | [] => (s, .done [])
  | (off, n) :: r =>
    let a := va + BitVec.ofNat 64 off
    match s.translate (s.queue q).leader (s.queue q).tables a perm (.queue q k) with
    | (s, none) => (s, .waits)
    | (s, some e) =>
      if s.refusesAt (e.phys' a) n then (s, .migrating)
      else match s.queueRuns q k va perm r with
        | (s, .done l) => (s, .done ((e.phys' a, n) :: l))
        | o => o

/-- Tries to reach a run of a queue's bytes: a fault waits for its service, and a denied one ends with its code (R310,
R344). -/
def State.queueTry (s : State) (q : QueueId) (k : Fin 5) (va : Word) (n : Nat) (perm : Perm) : State × Tried :=
  match (s.queue q).denied.find? fun e => e.1 == k with
  | some e => (s.modQueue q fun c => { c with denied := c.denied.filter fun o => o.1 != k }, .fails e.2)
  | none => s.queueRuns q k va perm (virtParts va.toNat n (n / 2 ^ 16 + 2) 0)

/-! ### Reports of a command queue (R345, R346) -/

/-- Whether reports of n entries fit a report ring, whose pointers count modulo its size (R345). -/
def reportFits (q : CmdQueue) (n : Nat) : Bool :=
  let size := 2 ^ q.repSize
  decide ((q.rtail.toNat % size + size - q.rhead.toNat % size) % size + 32 * n < size)

/-- The address of the entry at the tail of a report ring. -/
def CmdQueue.entryAddr (q : CmdQueue) : Word :=
  BitVec.ofNat 64 (q.repBase.toNat * 4096 + q.rtail.toNat % 2 ^ q.repSize)

/-- Writes one 32-byte report entry at the tail of its ring (R345): whether it has been disposed of. One that waits for a
page stays; one whose page the runtime denies is lost, and the queue is in the error state. -/
def State.putEntry (s : State) (q : QueueId) (e : List Word) : State × Bool :=
  match s.queueTry q 3 (s.queue q).entryAddr 32 .write with
  | (s, .done l) =>
    ((s.runWrite l (e.flatMap bytesOfWord)).modQueue q fun c =>
      { c with rtail := BitVec.ofNat 32 ((c.rtail.toNat + 32) % 2 ^ c.repSize) }, true)
  | (s, .fails _) => (s.modQueue q fun c => { c with state := 4 }, true)
  | (s, _) => (s, false)

/-- The kind of a report entry. -/
def entryKind (e : List Word) : Nat := bits (e.headD 0) 0 8

/-- Writes the loss record that a queue still owes, once its page is there (R346). -/
def State.putLoss (s : State) (q : QueueId) : State :=
  match (s.queue q).loss with
  | none => s
  | some (a, w) =>
    let gone (s : State) : State := s.modQueue q fun c => { c with loss := none }
    match s.queueTry q 4 a 32 .write with
    | (s, .done l) => gone (s.runWrite l (w.flatMap bytesOfWord))
    | (s, .fails _) => gone s
    | (s, _) => s

/-- The consequences of a report of kind 1, 2 or 5 (R346): the error state, the loss record and the signal. -/
def State.queueError (s : State) (q : QueueId) (e : List Word) : State :=
  let s := s.modQueue q fun c => { c with state := 4 }
  let c := s.queue q
  match c.markPath with
  | none => s
  | some a =>
    let w : List Word := [e.getD 0 0, e.getD 1 0, c.head.setWidth 64, c.markSerial.setWidth 64]
    ((s.modQueue q fun c => { c with loss := some (a, w) }).putLoss q).notify (.checkpoint q)

/-- Writes the waiting reports that fit their ring, oldest first (R345). -/
def State.flushReports (s : State) (q : QueueId) : Nat → State
  | 0 => s
  | n + 1 =>
    match (s.queue q).reports with
    | [] => s
    | [] :: rest => (s.modQueue q fun c => { c with reports := rest }).flushReports q n
    | (e :: es) :: rest =>
      if reportFits (s.queue q) (es.length + 1) then
        match s.putEntry q e with
        | (s, false) => s
        | (s, true) =>
          let s := s.modQueue q fun c => { c with reports := es :: rest }
          let k := entryKind e
          let s := if k = 1 || k = 2 || k = 5 then s.queueError q e else s
          s.flushReports q n
      else s

/-- How many steps the waiting reports of a queue take. -/
def CmdQueue.owed (q : CmdQueue) : Nat := q.reports.foldl (fun n es => n + es.length + 1) 0

/-- Reports an event of a queue: one entry, or two consecutive ones (R345). -/
def State.report (s : State) (q : QueueId) (es : List (List Word)) : State :=
  let s := s.modQueue q fun c => { c with reports := c.reports ++ [es] }
  s.flushReports q (s.queue q).owed

/-- Word 0 of a report entry. -/
def reportWord0 (serial : BitVec 32) (ctx : CtxId) (vdie : BitVec 8) (kind : Nat) : Word :=
  BitVec.ofNat 64 (field serial.toNat 32 32 + field ctx.val 16 2 + field vdie.toNat 8 8 + kind)

/-- A report entry about the task of a context. -/
def taskEntry (c : Ctx) (n : CtxId) (kind : Nat) (w2 w3 : Word) : List Word :=
  [reportWord0 c.serial n c.vdie kind, c.ringOff.setWidth 64, w2, w3]

/-- Whether a parsed packet is complete. -/
def QRec.complete (r : QRec) : Bool :=
  match r.work with
  | .launch left never => left == 0 && !never
  | .copy _ _ len done _ _ => decide (len ≤ done)
  | .signal _ _ _ => false

/-- The record of a launch after one of its tasks has ended, by its `halt` or in another way. -/
def QRec.taskEnds (r : QRec) (halted : Bool) : QRec :=
  match r.work with
  | .launch left never => { r with work := if halted then .launch (left - 1) never else .launch left true }
  | _ => r

/-- A task of a launch has ended: by its `halt`, or in a way that leaves the launch never complete (R344). -/
def State.launchEnds (s : State) (q : QueueId) (pkt : Nat) (halted : Bool) : State :=
  s.modQueue q fun c =>
    let l := replaceIf (fun (r : QRec) => r.id == pkt) (fun r => r.taskEnds halted) c.recs
    { c with recs := l.filter fun r => !r.complete }

/-! ### Results in flight (R18 to R21) -/

/-- The context of the bundle in progress. -/
def State.cur (s : State) : Ctx := s.ctx s.iss.die s.iss.ctx

/-- The registers that a syllable of the bundle in progress reads. -/
def State.rf (s : State) : RegFile := s.cur.rf

/-- Whether a landing sets flags only: such a landing comes after the bundle of its cycle (R17, R124). -/
def Land.isFlags : Land → Bool
  | .flags _ => true
  | _ => false

/-- Puts a result of the bundle in progress in flight: it lands in `lat` cycles, in its place of the slot order. -/
def State.land (s : State) (lat slot : Nat) (l : Land) : State :=
  let f : Flight := { due := s.cycle + lat, slot := slot, ord := s.fresh, bundle := s.iss.bundle,
                      hnd := s.cur.priv, land := l }
  ((s.modCtx s.iss.die s.iss.ctx fun c => { c with flight := c.flight ++ [f] }).takeFresh).schedOnce
    (s.cycle + lat) .resultLanding { die := s.iss.die, ctx := s.iss.ctx, flag := l.isFlags }

/-- As `land`, with the flags of the result beside it (R17); no flags, no landing of flags. -/
def State.landF (s : State) (lat slot : Nat) (l : Land) (f : Flg) : State :=
  let s := s.land lat slot l
  if f = 0 then s else s.land lat slot (.flags f)

/-- The landing cycle of a bank access, 0 for one that lands nothing (R111, R116, R242). -/
def Access.landing (a : Access) : Nat :=
  match a.kind with
  | .load _ _ _ => a.due + 1
  | .vload _ _ _ _ => a.due + 4
  | .amo _ _ _ _ _ _ _ => a.due + 2
  | _ => 0

/-- The last cycle in which a fixed-latency result of a context lands, its `arrive` and `fold.set` instructions among
them (R131, R162). -/
def State.drainDue (s : State) (d : DieId) (c : CtxId) : Nat :=
  let x := s.die d
  let m := (x.ctx c).flight.foldl (fun m f => max m f.due) 0
  let m := x.accs.foldl (fun m a => if a.ctx == c then max m a.landing else m) m
  s.agenda.foldl (fun m e =>
    if (e.act == .arrivePerform || e.act == .foldSetPerform) && e.arg.die == d && e.arg.ctx == c then max m e.due
    else m) m

/-- Whether a context is being cut back, so that a result of a bundle of its region lands nothing (R186). -/
def Ctx.cutOff (c : Ctx) (bundle : Nat) : Bool :=
  c.st == .ending && c.ending == .cutBack && decide (c.idemBundle ≤ bundle)

/-- Puts a result in flight for a given context and space: a landing that a bank access brings. `ord` is the fresh number
that the access took at its issue, so that results of one slot land in their order of issue (R21). -/
def State.landAt (s : State) (d : DieId) (c : CtxId) (due slot ord bundle : Nat) (hnd : Bool) (l : Land) : State :=
  let f : Flight := { due := due, slot := slot, ord := ord, bundle := bundle, hnd := hnd, land := l }
  if (s.ctx d c).cutOff bundle then s
  else (s.modCtx d c fun x => { x with flight := x.flight ++ [f] }).schedOnce due .resultLanding
    { die := d, ctx := c, flag := l.isFlags }

/-! ### The end of a task (R35, R132, R134, R152, R182) -/

/-- Whether an engine operation belongs to a context. -/
def Op.ofCtx (o : Op) (c : CtxId) : Bool := o.ctx == c

/-- All engine operations of a die. -/
def Die.ops (x : Die) : List Op := x.queues.toList.flatten

/-- Changes the operations of every queue of a die. -/
def Die.mapOps (x : Die) (f : Op → Op) : Die := { x with queues := x.queues.map fun l => l.map f }

/-- Clears a context's owner bits in the folds and its operand slots (R152, R257). -/
def Die.releaseOwned (x : Die) (c : CtxId) : Die :=
  { x with
    folds := x.folds.map fun f => { f with owner := f.owner &&& ~~~(1 <<< c.val : BitVec 4) }
    slots := x.slots.map fun o => if o.owner == some c then { o with owner := none } else o }

/-- Marks every pending operation of a context for an abort at its next boundary (R143). -/
def Die.abortOps (x : Die) (c : CtxId) (since : Nat) : Die :=
  x.mapOps fun o => if o.ctx == c && decide (since ≤ o.bundle) then { o with abort := true } else o

/-- A task ends as lost (R132, R134, R174, R182, R345): its window returns to the die, its operations are aborted,
its owner bits clear, the queue gets its entries, and the context waits for its operations before it is free. -/
def State.loseTask (s : State) (d : DieId) (c : CtxId) (w2 w3 : Word) (more : List (List Word)) : State :=
  let x := s.ctx d c
  let s := s.report x.queue (taskEntry x c 2 w2 w3 :: more)
  let s := s.launchEnds x.queue x.pkt false
  let s := s.modDie d fun y => (y.abortOps c 0).releaseOwned c
  let s := s.modDie d fun y =>
    let seq := y.seq
    { y with seq := { seq with holder := if seq.holder == some c then none else seq.holder
                               gaveUp := if seq.holder == some c then s.cycle else seq.gaveUp } }
  let s := s.modCtx d c fun x =>
    { x with st := .ending, ending := .lost, waits := [], priv := false, pendTrap := none, cutAt := none,
             act := none, ctxswArg := none, hasWin := false }
  let iss := if s.iss.active && s.iss.die == d && s.iss.ctx == c then {} else s.iss
  { s with iss := iss }

/-- The kind 6 entry that carries a trap record (R345). -/
def trapEntry (x : Ctx) (c : CtxId) : List Word :=
  [reportWord0 x.serial c x.vdie 6, x.trapInfo, x.trapResume, x.trapCause]

/-! ### Taking a trap and returning from one (R126 to R135) -/

/-- A base in the format of rs_task: bits 63 to 10, and the home in bit 0 (R176). -/
def spaceBase (w : Word) : Word := (w &&& ~~~(1023 : Word)) ||| (w &&& 1)

/-- trap_cause of a trap (R133). -/
def TrapRec.word (t : TrapRec) : Word :=
  BitVec.ofNat 64 (field t.swCode.toNat 32 16 + field t.syl 20 4 + field t.cause 0 8)

/-- A trap without a handler (R132): no further bundle issues, the width passes, and the task is lost once the results in
flight have landed (R131). -/
def State.loseUnhandled (s : State) (d : DieId) (c : CtxId) : State :=
  s.modDie d fun y =>
    let y := y.abortOps c 0
    let seq := y.seq
    let y := { y with seq := { seq with holder := if seq.holder == some c then none else seq.holder
                                        gaveUp := if seq.holder == some c then s.cycle else seq.gaveUp } }
    y.modCtx c fun x => { x with st := .ending, ending := .noHandler, waits := [], pendTrap := none, cutAt := none }

/-- Takes a trap in this cycle (R131): the record is written, the privilege becomes supervisor, and the handler's
first bundle waits for the results in flight and two further cycles. Without a handler the task is lost with its
record (R132); at supervisor privilege it is lost by a double trap that writes no record (R134). A wait that has already
issued is dropped: DESIGN CHOICE (log 117). -/
def State.takeTrap (s : State) (d : DieId) (c : CtxId) (t : TrapRec) : State :=
  let x := s.ctx d c
  let s := if s.iss.active && s.iss.die == d && s.iss.ctx == c then { s with iss := {} } else s
  if x.priv then
    s.loseTask d c x.trapAddr (BitVec.ofNat 64 (field t.cause 8 8 + 2)) [trapEntry x c]
  else
    let s := s.modCtx d c fun x =>
      { x with trapCause := t.word, trapAddr := t.addr, trapResume := t.resume, trapInfo := t.info }
    if x.trapVec.toNat / 4 = 0 then s.loseUnhandled d c
    else
      s.modCtx d c fun x =>
        { x with priv := true, waits := [], trapEnter := true, pendTrap := none
                 st := if x.st == .blocked || x.st == .ending then .ready else if x.st == .held then .running else x.st
                 hnd := { x.hnd with pc := x.trapVec &&& ~~~3 }
                 earliest := max (s.cycle + 3) (s.drainDue d c + 1) }

/-- Whether a space's home is panel memory (R176). -/
def homePanel (base : Word) : Bool := bitAt base 0

/-- The switch of handler spaces that a write of trap_rs has asked for begins (R180): the partition is switched once the
operations that the handler issued have ended (R170). -/
def Ctx.startHandler (c : Ctx) : Ctx :=
  if c.hndStale && c.act.isNone then
    { c with hndStale := false, act := some { hnd := true, base := spaceBase c.trapRs, byCtxsw := false, due := 0 } }
  else c

/-- The return of `eret` once the handler's results have landed (R135): the privilege becomes the task's, and the
task's bundle at trap_resume, whose bits 1 and 0 are 0 (R13), issues three cycles after the `eret` at the earliest. A
switch of handler spaces begins with it (R180). With an empty task partition the task is lost instead (R178). -/
def State.returnTrap (s : State) (d : DieId) (c : CtxId) (issued : Nat) : State :=
  if (s.ctx d c).taskEmpty then s.loseTask d c (s.ctx d c).rsTask 7 []
  else s.modCtx d c fun x =>
    { x.startHandler with priv := false, trapEnter := false, task := { x.task with pc := x.trapResume &&& ~~~3 }
                          earliest := max (issued + 3) (s.drainDue d c + 1) }

/-- The bits of the syllable in progress, as trap_info records it (R133). -/
def State.sylBits (s : State) : Word :=
  let l := s.iss.buf
  BitVec.ofNat 64 (natOfBytes (l.take (if (l.headD 0).toNat / 2 % 2 = 1 then 8 else 4)))

/-- Takes a trap of the bundle in progress, before it issues: it resumes at the bundle (R126). -/
def State.trapHere (s : State) (cause syl : Nat) (info : Word) : State :=
  s.takeTrap s.iss.die s.iss.ctx { cause := cause, syl := syl, addr := s.iss.p, resume := s.iss.p, info := info }

/-- Raises the illegal-encoding trap from a syllable of the bundle in progress (R92, R93). -/
def State.trapIllegal (s : State) : State := s.trapHere 1 s.iss.taken s.sylBits

end Sys2Proof.Machine
end

