-- ==== Sys2Proof/Machine/Operands.lean ====
section
/-! DEFINITION. Operand forms (R77 to R87): reading scalar and vector sources, lane modifiers, and the values that a
syllable captures from its prefix and from ctl.fmt; the window mapping of bank offsets (R30); and the queue entry of an
engine syllable (R141 to R148). -/

namespace Sys2Proof.Machine

/-- The value of a scalar source (R77, R22). -/
def RegFile.src (r : RegFile) : Src → Word
  | .named n => r.s[n]
  | .queue n => r.q.getD n.val 0

/-- The value of a vector source (R77, R22). -/
def RegFile.vsrc (r : RegFile) : Src → VReg
  | .named n => r.v[n]
  | .queue n => r.vq.getD n.val 0

/-- The scalar source of a syllable of the bundle in progress. -/
def State.src (s : State) (a : Src) : Word := s.rf.src a

/-- The vector source of a syllable of the bundle in progress. -/
def State.vsrc (s : State) (a : Src) : VReg := s.rf.vsrc a

/-- Swaps the nibbles of a byte. -/
def swapNibbles (b : Nat) : Nat := b % 16 * 16 + b / 16

/-- The lane value that a modifier presents (R79). -/
def modLane (m : Mod) (x : Nat) : Nat :=
  let lo := x % 2 ^ 16
  let hi := x / 2 ^ 16
  let b := splitNat 8 4 x
  match m with
  | .none => x
  | .bl => lo + 2 ^ 16 * lo
  | .bh => hi + 2 ^ 16 * hi
  | .sw => hi + 2 ^ 16 * lo
  | .rb => joinNat 8 b.reverse
  | .b0 => joinNat 8 (List.replicate 4 (x % 256))
  | .sn => joinNat 8 (b.map swapNibbles)
  | .rn => joinNat 4 (splitNat 4 8 x).reverse

/-- A vector source taken through its modifier (R79). -/
def modVec (m : Mod) (v : VReg) : VReg :=
  if m = .none then v else ofLanes ((lanes v).map (modLane m))

/-- The modifier of the first of two sources of a syllable that may have none. -/
def fstMod (w : Option (Mod × Mod)) : Mod := (w.map (·.1)).getD .none

def sndMod (w : Option (Mod × Mod)) : Mod := (w.map (·.2)).getD .none

/-- The prefix of the syllable, or an empty one. -/
def State.pfx (s : State) : Pfx := s.iss.pfx.getD {}

/-- The rounding mode that ctl.fmt holds (R14). -/
def fmtRnd (fmt : BitVec 32) : Rnd :=
  match fmt.toNat % 8 with
  | 0 => .rne | 1 => .rz | 2 => .ru | 3 => .rd | _ => .rna

/-- The activation format that ctl.fmt holds (R14). -/
def fmtAct (fmt : BitVec 32) : Ty :=
  match fmt.toNat / 256 % 16 with
  | 0 => .s8 | 1 => .z8 | 2 => .d8 | 3 => .f16 | _ => .bf16

def fmtSat (fmt : BitVec 32) : Bool := fmt.toNat / 8 % 2 == 1

def fmtFlush (fmt : BitVec 32) : Bool := fmt.toNat / 16 % 2 == 1

/-- The rounding mode, saturate bit and flush bit that a syllable captures (R59, R84, R87). -/
def capture (p : Pfx) (fmt : BitVec 32) : FmtCap :=
  { rnd := p.rnd.getD (fmtRnd fmt)
    sat := match p.sat with
      | .fromFmt => fmtSat fmt
      | .wrap => false
      | .saturate => true
    flush := match p.flush with
      | .fromFmt => fmtFlush fmt
      | .off => false
      | .on => true }

/-- What the syllable in progress captures. -/
def State.cap (s : State) : FmtCap := capture s.pfx s.rf.fmt

/-- The class of an access: the prefix's, else the syllable's own (R87). -/
def State.clsOf (s : State) (own : Fin 16) : Fin 16 := if s.pfx.clsEn then s.pfx.cls else own

/-- The expected tag that a prefix gives (R87). -/
def State.tagOf (s : State) : Option (BitVec 8) := if s.pfx.tagEn then some s.pfx.tag else none

/-- The slot of the integer syllable in progress: IA, then IB (R74). -/
def State.intSlot (s : State) : Nat := if s.iss.nInt = 0 then 0 else 1

/-- The slot LS (R21). -/
def slotLS : Nat := 2

/-- The slot of the vector syllable in progress: VA, then VB (R74). -/
def State.vecSlot (s : State) : Nat := if s.iss.nVec = 0 then 3 else 4

def slotSX : Nat := 5

def slotRC : Nat := 6

/-- The wide flag set of the vector syllable in progress (R219). -/
def State.vecFlags (s : State) : FlagSet := if s.iss.nVec = 0 then .va else .vb

/-- The mask in effect (R226). -/
def RegFile.mask (r : RegFile) : Mask := r.masks[Fin.ofNat 8 (r.depth - 1)]

/-- The bank address of a window offset (R30). -/
def Window.addr (w : Window) (off : Word) : Nat := (w.base + off.toNat % 2 ^ w.log2g) % Config.bankBytes

/-- The bank address of byte k of an access at an offset (R30, R111). -/
def Window.byteAddr (w : Window) (off : Word) (k : Nat) : Nat := w.addr (off + BitVec.ofNat 64 k)

/-! ### Fixed-latency bank accesses (R278) -/

/-- Puts a fixed-latency bank access of the bundle in progress on its way: it performs in `lat` cycles. -/
def State.access (s : State) (lat : Nat) (ord : PortStep) (slot : Nat) (cls : Fin 16) (tag : Option (BitVec 8))
    (k : AccKind) : State :=
  let a : Access := { id := s.fresh, due := s.cycle + lat, ord := ord, ctx := s.iss.ctx, bundle := s.iss.bundle,
                      hnd := s.cur.priv, slot := slot, cls := cls, tag := tag, pc := s.iss.p, win := s.cur.win,
                      kind := k }
  ((s.modDie s.iss.die fun x => { x with accs := x.accs ++ [a] }).takeFresh).sched (s.cycle + lat)
    .bankAccessPerform { die := s.iss.die, ord := ord, id := s.fresh }

/-! ### Engine syllables (R141 to R149) -/

/-- The consumed tokens an operation captures (R147). -/
def captureDeps (c : Ctx) (k : Deps) : List Dep :=
  let one (t : TokId) : List Dep :=
    if t = k.tp then [] else if c.tok[t] = .pending then [.ref c.tokOp[t]] else [.was c.tok[t]]
  one k.tc0 ++ one k.tc1 ++ one k.tc2

/-- The kind of a far address (R306): none for an address that is refused. -/
inductive FarKind where
  | panel
  | bank (vdie : BitVec 8) (win : Fin 16) (off : Nat)
  | fold (vdie : BitVec 8) (f : FoldId)
  deriving DecidableEq, Repr

def farKind (a : Word) : Option FarKind :=
  match bits a 62 2 with
  | 0 => if bits a 48 14 = 0 then some .panel else none
  | 2 =>
    if bits a 60 2 = 0 && bits a 27 21 = 0 then
      some (.bank (BitVec.ofNat 8 (bits a 52 8)) (Fin.ofNat 16 (bits a 48 4)) (bits a 0 27))
    else none
  | 3 =>
    if bits a 60 2 = 0 && bits a 7 45 = 0 then
      some (.fold (BitVec.ofNat 8 (bits a 52 8)) (Fin.ofNat 128 (bits a 0 7)))
    else none
  | _ => none

/-- The virtual die that a far address names, if it names one (R306, R311): a malformed address names none. -/
def farDie (a : Word) : Option (BitVec 8) :=
  match farKind a with
  | some (.bank v _ _) | some (.fold v _) => some v
  | _ => none

/-- The virtual dies bound at issue (R311). -/
def bindFar (c : Ctx) (l : List Word) : List Bind :=
  (l.filterMap farDie).map fun v =>
    let e := c.vtab[Fin.ofNat 256 v.toNat]
    { vdie := v, phys := e.phys, inc := e.inc }

/-- The job number of a context (rm_job, R330). -/
def Die.jobOf (x : Die) (c : CtxId) : BitVec 8 := BitVec.ofNat 8 (x.mem.job.toNat / 2 ^ (8 * c.val))

/-- A macro record (R170). -/
def macroRecord (progress : Nat) (err : BitVec 8) (st q major minor : Nat) : BitVec 128 :=
  BitVec.ofNat 128 (progress % 2 ^ 64 + 2 ^ 64 * err.toNat + 2 ^ 72 * st + 2 ^ 80 * q + 2 ^ 88 * major
    + 2 ^ 96 * minor)

/-- The line of the register space that holds the macro record of a token (R167). -/
def macroLine (t : TokId) : Nat := 136 + t.val / 16

/-- Marks a line of a register file as written (R172). -/
def RegFile.touch (r : RegFile) (line : Nat) : RegFile :=
  { r with touched := r.touched ||| BitVec.ofNat 140 (2 ^ line), dirty := r.dirty ||| BitVec.ofNat 140 (2 ^ line) }

/-- Writes a macro record and touches its line. -/
def Ctx.putRecord (c : Ctx) (hnd : Bool) (t : TokId) (r : BitVec 128) : Ctx :=
  let c := c.modFile hnd fun f => f.touch (macroLine t)
  let bit : BitVec 64 := BitVec.ofNat 64 (2 ^ t.val)
  if hnd then { c with hndRec := vset c.hndRec t r, recHnd := c.recHnd ||| bit }
  else { c with macroRec := vset c.macroRec t r, recHnd := c.recHnd &&& ~~~bit }

/-- Major and minor opcode of the syllable that issued an operation (R170). -/
def opcodeOf (i : Instr) : Nat × Nat :=
  match encode i with
  | some w => (fld w 2 5, fld w 7 5)
  | none => (0, 0)

/-- Puts an engine operation of the bundle in progress into its queue (R142), captures what R147 and R249 say, binds
a chained command to its copy (R271), and makes its token pending at the end of the cycle (R146). -/
def State.enqueue (s : State) (q : Fin 19) (ins : Instr) (k : Deps) (own : Fin 16) (v : List Word) (far : List Word)
    (follow chained : Bool) : State :=
  let c := s.cur
  let x := s.die s.iss.die
  let copy := if chained then c.unbound.head? else none
  let o : Op := { id := s.fresh, ctx := s.iss.ctx, bundle := s.iss.bundle, issued := s.cycle, ins := ins
                  major := (opcodeOf ins).1, minor := (opcodeOf ins).2
                  va := v.getD 0 0, vb := v.getD 1 0, vc := v.getD 2 0, vd := v.getD 3 0, fmt := s.cap
                  cls := s.clsOf own, tag := s.tagOf
                  tagWait := c.tagWait, tagLimit := c.tagLimit, strict := c.opStrict, act := fmtAct s.rf.fmt
                  job := x.jobOf s.iss.ctx, bind := bindFar c far, win := c.win, tp := k.tp
                  deps := captureDeps c k, fold := k.fold, follow := follow, hnd := c.priv
                  bound := match copy with
                    | some (id, none) => some id
                    | _ => none
                  boundErr := copy.any fun e => e.2 == some false }
  let s := s.modDie s.iss.die fun x =>
    { x with queues := vmod x.queues q (· ++ [o]), tokEvts := x.tokEvts ++ [(s.iss.ctx, k.tp, .pending)] }
  let s := s.modCtx s.iss.die s.iss.ctx fun c =>
    { c.putRecord c.priv k.tp (macroRecord 0 0 1 q.val o.major o.minor) with
      tokOp := vset c.tokOp k.tp o.id
      unbound := (if chained then c.unbound.drop 1 else c.unbound) ++ (if follow then [(o.id, none)] else []) }
  s.takeFresh

end Sys2Proof.Machine
end

