-- ==== Sys2Proof/Machine/ScalarInt.lean ====
section
/-! DEFINITION. The integer instructions of majors 1, 2 and 3 (R101 to R108). -/

namespace Sys2Proof.Machine

/-! ### The results of R102 and R103 on w-bit values -/

def intAdd (t : Ty) (sat : Bool) (a b : Nat) : Nat × Flg := reduce t sat (intVal t a + intVal t b)

def intSub (t : Ty) (sat : Bool) (a b : Nat) : Nat × Flg := reduce t sat (intVal t a - intVal t b)

def intMul (t : Ty) (sat : Bool) (a b : Nat) : Nat × Flg := reduce t sat (intVal t a * intVal t b)

/-- Bits 2w-1 to w of the exact product. -/
def intMulh (t : Ty) (a b : Nat) : Nat := lowBits t.width (intVal t a * intVal t b / (2 ^ t.width : Nat))

def intDiv (t : Ty) (sat : Bool) (a b : Nat) : Nat × Flg := divInt t sat (intVal t a) (intVal t b)

def intRem (t : Ty) (sat : Bool) (a b : Nat) : Nat × Flg := remInt t sat (intVal t a) (intVal t b)

def intAnd (t : Ty) (a b : Nat) : Nat := Nat.land a b % 2 ^ t.width

def intOr (t : Ty) (a b : Nat) : Nat := Nat.lor a b % 2 ^ t.width

def intXor (t : Ty) (a b : Nat) : Nat := Nat.xor a b % 2 ^ t.width

/-- a AND NOT b. -/
def intAndn (t : Ty) (a b : Nat) : Nat := Nat.xor a (Nat.land a b) % 2 ^ t.width

/-- The shift count: the low log2(w) bits of b (R103). -/
def shiftCount (t : Ty) (b : Nat) : Nat := b % t.width

def intShl (t : Ty) (sat : Bool) (a b : Nat) : Nat × Flg :=
  reduce t sat (intVal t a * ((2 ^ shiftCount t b : Nat) : Int))

def intShr (t : Ty) (a b : Nat) : Nat := shrNat t.width a (shiftCount t b)

/-- Fills with bit w-1, whatever the signedness of the type. -/
def intSar (t : Ty) (a b : Nat) : Nat :=
  lowBits t.width (toSigned t.width a / ((2 ^ shiftCount t b : Nat) : Int))

def intRot (t : Ty) (a b : Nat) : Nat := rotNat t.width a (shiftCount t b)

def intMin (t : Ty) (a b : Nat) : Nat := if intVal t a ≤ intVal t b then a % 2 ^ t.width else b % 2 ^ t.width

def intMax (t : Ty) (a b : Nat) : Nat := if intVal t a ≤ intVal t b then b % 2 ^ t.width else a % 2 ^ t.width

def intCeq (t : Ty) (a b : Nat) : Nat := if intVal t a = intVal t b then 1 else 0

def intCne (t : Ty) (a b : Nat) : Nat := if intVal t a = intVal t b then 0 else 1

def intClt (t : Ty) (a b : Nat) : Nat := if intVal t a < intVal t b then 1 else 0

def intCle (t : Ty) (a b : Nat) : Nat := if intVal t a ≤ intVal t b then 1 else 0

def intNeg (t : Ty) (sat : Bool) (a : Nat) : Nat × Flg := reduce t sat (0 - intVal t a)

def intAbs (t : Ty) (sat : Bool) (a : Nat) : Nat × Flg := reduce t sat (intVal t a).natAbs

/-- A result that sets no flag. -/
def noFlag (r : Nat) : Nat × Flg := (r, 0)

/-! ### Landing an integer result -/

/-- Lands w result bits of an integer syllable in `lat` cycles, extended by R38, with their flags. -/
def State.intLand (s : State) (lat : Nat) (d : Dst) (t : Ty) (r : Nat × Flg) : State :=
  s.landF lat s.intSlot (.scalar d (extend t r.1)) r.2

/-- Lands a 64-bit value of an integer syllable in the next cycle. -/
def State.intLand64 (s : State) (d : Dst) (v : Word) : State := s.land 1 s.intSlot (.scalar d v)

/-- The type of a major 2 instruction (R105). -/
def immTy (z : Bool) : Ty := if z then .z64 else .s64

/-- imm9 sign-extended to 64 bits, for either type (R105). -/
def imm9Val (imm : BitVec 9) : Nat := (signExt imm).toNat

/-- imm32 extended by its type (R106). -/
def imm32Val (t : Ty) (imm : BitVec 32) : Nat :=
  if Ty.signed t then (signExt imm).toNat else imm.toNat

/-- The operands of the register forms: values of sources as numbers. -/
def State.srcN (s : State) (a : Src) : Nat := (s.src a).toNat

/-! ### Major 1 (R102) -/

def execAdd (t : Ty) (d : Dst) (a b : Src) (s : State) : Host.Outcome State Fault Refusal :=
  .next (s.intLand 1 d t (intAdd t s.cap.sat (s.srcN a) (s.srcN b)))

def execSub (t : Ty) (d : Dst) (a b : Src) (s : State) : Host.Outcome State Fault Refusal :=
  .next (s.intLand 1 d t (intSub t s.cap.sat (s.srcN a) (s.srcN b)))

def execMul (t : Ty) (d : Dst) (a b : Src) (s : State) : Host.Outcome State Fault Refusal :=
  .next (s.intLand 3 d t (intMul t s.cap.sat (s.srcN a) (s.srcN b)))

def execMulh (t : Ty) (d : Dst) (a b : Src) (s : State) : Host.Outcome State Fault Refusal :=
  .next (s.intLand 3 d t (noFlag (intMulh t (s.srcN a) (s.srcN b))))

def execDiv (t : Ty) (d : Dst) (a b : Src) (s : State) : Host.Outcome State Fault Refusal :=
  .next (s.intLand 12 d t (intDiv t s.cap.sat (s.srcN a) (s.srcN b)))

def execRem (t : Ty) (d : Dst) (a b : Src) (s : State) : Host.Outcome State Fault Refusal :=
  .next (s.intLand 12 d t (intRem t s.cap.sat (s.srcN a) (s.srcN b)))

def execAnd (t : Ty) (d : Dst) (a b : Src) (s : State) : Host.Outcome State Fault Refusal :=
  .next (s.intLand 1 d t (noFlag (intAnd t (s.srcN a) (s.srcN b))))

def execOr (t : Ty) (d : Dst) (a b : Src) (s : State) : Host.Outcome State Fault Refusal :=
  .next (s.intLand 1 d t (noFlag (intOr t (s.srcN a) (s.srcN b))))

def execXor (t : Ty) (d : Dst) (a b : Src) (s : State) : Host.Outcome State Fault Refusal :=
  .next (s.intLand 1 d t (noFlag (intXor t (s.srcN a) (s.srcN b))))

def execAndn (t : Ty) (d : Dst) (a b : Src) (s : State) : Host.Outcome State Fault Refusal :=
  .next (s.intLand 1 d t (noFlag (intAndn t (s.srcN a) (s.srcN b))))

def execShl (t : Ty) (d : Dst) (a b : Src) (s : State) : Host.Outcome State Fault Refusal :=
  .next (s.intLand 1 d t (intShl t s.cap.sat (s.srcN a) (s.srcN b)))

def execShr (t : Ty) (d : Dst) (a b : Src) (s : State) : Host.Outcome State Fault Refusal :=
  .next (s.intLand 1 d t (noFlag (intShr t (s.srcN a) (s.srcN b))))

def execSar (t : Ty) (d : Dst) (a b : Src) (s : State) : Host.Outcome State Fault Refusal :=
  .next (s.intLand 1 d t (noFlag (intSar t (s.srcN a) (s.srcN b))))

def execRot (t : Ty) (d : Dst) (a b : Src) (s : State) : Host.Outcome State Fault Refusal :=
  .next (s.intLand 1 d t (noFlag (intRot t (s.srcN a) (s.srcN b))))

def execMin (t : Ty) (d : Dst) (a b : Src) (s : State) : Host.Outcome State Fault Refusal :=
  .next (s.intLand 1 d t (noFlag (intMin t (s.srcN a) (s.srcN b))))

def execMax (t : Ty) (d : Dst) (a b : Src) (s : State) : Host.Outcome State Fault Refusal :=
  .next (s.intLand 1 d t (noFlag (intMax t (s.srcN a) (s.srcN b))))

def execCeq (t : Ty) (d : Dst) (a b : Src) (s : State) : Host.Outcome State Fault Refusal :=
  .next (s.intLand 1 d t (noFlag (intCeq t (s.srcN a) (s.srcN b))))

def execCne (t : Ty) (d : Dst) (a b : Src) (s : State) : Host.Outcome State Fault Refusal :=
  .next (s.intLand 1 d t (noFlag (intCne t (s.srcN a) (s.srcN b))))

def execClt (t : Ty) (d : Dst) (a b : Src) (s : State) : Host.Outcome State Fault Refusal :=
  .next (s.intLand 1 d t (noFlag (intClt t (s.srcN a) (s.srcN b))))

def execCle (t : Ty) (d : Dst) (a b : Src) (s : State) : Host.Outcome State Fault Refusal :=
  .next (s.intLand 1 d t (noFlag (intCle t (s.srcN a) (s.srcN b))))

/-- `sel` (R104): the full 64 bits of a, or of b when c is zero. -/
def execSel (d : Dst) (c a b : Src) (s : State) : Host.Outcome State Fault Refusal :=
  .next (s.intLand64 d (if s.src c ≠ 0 then s.src a else s.src b))

def execNeg (t : Ty) (d : Dst) (a : Src) (s : State) : Host.Outcome State Fault Refusal :=
  .next (s.intLand 1 d t (intNeg t s.cap.sat (s.srcN a)))

def execAbs (t : Ty) (d : Dst) (a : Src) (s : State) : Host.Outcome State Fault Refusal :=
  .next (s.intLand 1 d t (intAbs t s.cap.sat (s.srcN a)))

def execClz (t : Ty) (d : Dst) (a : Src) (s : State) : Host.Outcome State Fault Refusal :=
  .next (s.intLand 1 d t (noFlag (clzNat t.width (s.srcN a))))

def execPopc (t : Ty) (d : Dst) (a : Src) (s : State) : Host.Outcome State Fault Refusal :=
  .next (s.intLand 1 d t (noFlag (popNat t.width (s.srcN a))))

def execMov (t : Ty) (d : Dst) (a : Src) (s : State) : Host.Outcome State Fault Refusal :=
  .next (s.intLand 1 d t (noFlag (s.srcN a % 2 ^ t.width)))

/-- The special values (R12, R107). -/
def State.special (s : State) (sv : Special) : Word :=
  match sv with
  | .tileX => s.cur.tileX.setWidth 64
  | .tileY => s.cur.tileY.setWidth 64
  | .tileN => s.cur.tileN.setWidth 64
  | .vdie => s.cur.vdie.setWidth 64
  | .grade => s.panel.grade.setWidth 64
  | .ctx => BitVec.ofNat 64 s.iss.ctx.val

def execRdsp (d : Dst) (sv : Special) (s : State) : Host.Outcome State Fault Refusal :=
  .next (s.intLand64 d (s.special sv))

/-! ### Control registers (R108, R133, R176) -/

/-- The flags that land in a given cycle in a space. -/
def Ctx.flagsDue (c : Ctx) (hnd : Bool) (cycle : Nat) : Flg :=
  c.flight.foldl (fun acc f => match f.land with
    | .flags x => if f.due ≤ cycle && f.hnd == hnd then acc ||| x else acc
    | _ => acc) 0

/-- ctl.flg of a space after the landings of a cycle (R16, R21). -/
def Ctx.flgNow (c : Ctx) (hnd : Bool) (cycle : Nat) : BitVec 32 := orFlags (c.file hnd).flg (c.flagsDue hnd cycle)

/-- A wide flag set as `rdctl` reads it: count, none, all, any (R108). -/
def wfWord (count : BitVec 9) : Word :=
  BitVec.ofNat 64 (8 * count.toNat + (if count = 0 then 4 else 0) + (if count = 256 then 2 else 0)
    + (if count = 0 then 0 else 1))

/-- ctx_mode (R133). -/
def Ctx.modeWord (c : Ctx) : Word :=
  BitVec.ofNat 64 (256 * c.tagLimit.toNat + 2 * c.opStrict.toNat + c.tagWait.toNat)

/-- spill_cfg (R176). -/
def Window.spillCfg (w : Window) : Word := BitVec.ofNat 64 (field w.carve 8 27 + field w.slots 0 8)

/-- spill_ptr (R176). -/
def Ctx.spillPtr (c : Ctx) : Word :=
  BitVec.ofNat 64 (65536 * c.spillFull.toNat + 256 * c.spillOp.toNat + c.spillWp.toNat)

/-- Whether the request of ctx_pre is seen at the start of a cycle (R184). -/
def Ctx.reqAt (c : Ctx) (cycle : Nat) : Bool := if c.preSeen ≤ cycle then c.preReq else c.preReqOld

/-- pre_stat (R176). -/
def Ctx.preStat (c : Ctx) (cycle : Nat) : Word :=
  let rem := match c.cutAt with
    | some m => if c.preSeen ≤ cycle then m - cycle else 0
    | none => 0
  BitVec.ofNat 64 (field rem 32 32 + 4 * c.preDeferred.toNat + 2 * c.preForce.toNat + (c.reqAt cycle).toNat)

/-- Number of lines set in a line map. -/
def lineCount (m : BitVec 140) : Nat := popNat 140 m.toNat

/-- rs_status (R176), of the task space. -/
def Ctx.rsStatusWord (c : Ctx) : Word :=
  BitVec.ofNat 64 (field (lineCount c.task.touched) 16 8 + field (lineCount c.task.dirty) 8 8 + c.rsStatus.toNat)

/-- The value of a control register (R108, R133, R176). -/
def Ctx.readCtl (c : Ctx) (cycle : Nat) (cr : CtlReg) : Word :=
  match cr with
  | .fmt => c.rf.fmt.setWidth 64
  | .flg => (c.flgNow c.priv cycle).setWidth 64
  | .wfVa => wfWord c.rf.wf[0]
  | .wfVb => wfWord c.rf.wf[1]
  | .wfSx => wfWord c.rf.wf[2]
  | .lr => c.rf.lr
  | .trapCause => c.trapCause
  | .trapAddr => c.trapAddr
  | .trapResume => c.trapResume
  | .trapInfo => c.trapInfo
  | .trapVec => c.trapVec
  | .trapRs => c.trapRs
  | .ctxMode => c.modeWord
  | .taskFlg => (c.flgNow false cycle).setWidth 64
  | .rsTask => c.rsTask
  | .spillCfg => c.win.spillCfg
  | .spillPtr => c.spillPtr
  | .preStat => c.preStat cycle
  | .idemPc => c.idemPc
  | .rsStatus => c.rsStatusWord

/-- The supervisor registers: numbers 16 to 29 (R108, R133, R176). -/
def supervisorReg : CtlReg → Bool
  | .fmt | .flg | .wfVa | .wfVb | .wfSx | .lr => false
  | _ => true

/-- `rdctl` (R93, R108): a supervisor register at task privilege is no legal encoding. -/
def execRdctl (d : Dst) (cr : CtlReg) (s : State) : Host.Outcome State Fault Refusal :=
  .next (if supervisorReg cr && !s.cur.priv then s.trapIllegal else s.intLand64 d (s.cur.readCtl s.cycle cr))

/-- `wrctl` (R93, R108): the write lands in the next cycle, without a register result. A wide flag set, and a supervisor
register at task privilege, are no legal encodings. -/
def execWrctl (cr : CtlReg) (a : Src) (s : State) : Host.Outcome State Fault Refusal :=
  .next (if !cr.writable || (supervisorReg cr && !s.cur.priv) then s.trapIllegal else s.land 1 s.intSlot (.ctl cr (s.src a)))

/-! ### Major 2 (R105) -/

def execAddImm (z : Bool) (d : Dst) (a : Src) (imm : BitVec 9) (s : State) : Host.Outcome State Fault Refusal :=
  .next (s.intLand 1 d (immTy z) (intAdd (immTy z) s.cap.sat (s.srcN a) (imm9Val imm)))

def execMulImm (z : Bool) (d : Dst) (a : Src) (imm : BitVec 9) (s : State) : Host.Outcome State Fault Refusal :=
  .next (s.intLand 3 d (immTy z) (intMul (immTy z) s.cap.sat (s.srcN a) (imm9Val imm)))

def execAndImm (z : Bool) (d : Dst) (a : Src) (imm : BitVec 9) (s : State) : Host.Outcome State Fault Refusal :=
  .next (s.intLand 1 d (immTy z) (noFlag (intAnd (immTy z) (s.srcN a) (imm9Val imm))))

def execOrImm (z : Bool) (d : Dst) (a : Src) (imm : BitVec 9) (s : State) : Host.Outcome State Fault Refusal :=
  .next (s.intLand 1 d (immTy z) (noFlag (intOr (immTy z) (s.srcN a) (imm9Val imm))))

def execXorImm (z : Bool) (d : Dst) (a : Src) (imm : BitVec 9) (s : State) : Host.Outcome State Fault Refusal :=
  .next (s.intLand 1 d (immTy z) (noFlag (intXor (immTy z) (s.srcN a) (imm9Val imm))))

def execShlImm (z : Bool) (d : Dst) (a : Src) (imm : BitVec 9) (s : State) : Host.Outcome State Fault Refusal :=
  .next (s.intLand 1 d (immTy z) (intShl (immTy z) s.cap.sat (s.srcN a) (imm9Val imm)))

def execShrImm (z : Bool) (d : Dst) (a : Src) (imm : BitVec 9) (s : State) : Host.Outcome State Fault Refusal :=
  .next (s.intLand 1 d (immTy z) (noFlag (intShr (immTy z) (s.srcN a) (imm9Val imm))))

def execSarImm (z : Bool) (d : Dst) (a : Src) (imm : BitVec 9) (s : State) : Host.Outcome State Fault Refusal :=
  .next (s.intLand 1 d (immTy z) (noFlag (intSar (immTy z) (s.srcN a) (imm9Val imm))))

def execCeqImm (z : Bool) (d : Dst) (a : Src) (imm : BitVec 9) (s : State) : Host.Outcome State Fault Refusal :=
  .next (s.intLand 1 d (immTy z) (noFlag (intCeq (immTy z) (s.srcN a) (imm9Val imm))))

def execCltImm (z : Bool) (d : Dst) (a : Src) (imm : BitVec 9) (s : State) : Host.Outcome State Fault Refusal :=
  .next (s.intLand 1 d (immTy z) (noFlag (intClt (immTy z) (s.srcN a) (imm9Val imm))))

def execCleImm (z : Bool) (d : Dst) (a : Src) (imm : BitVec 9) (s : State) : Host.Outcome State Fault Refusal :=
  .next (s.intLand 1 d (immTy z) (noFlag (intCle (immTy z) (s.srcN a) (imm9Val imm))))

def execMinImm (z : Bool) (d : Dst) (a : Src) (imm : BitVec 9) (s : State) : Host.Outcome State Fault Refusal :=
  .next (s.intLand 1 d (immTy z) (noFlag (intMin (immTy z) (s.srcN a) (imm9Val imm))))

def execMaxImm (z : Bool) (d : Dst) (a : Src) (imm : BitVec 9) (s : State) : Host.Outcome State Fault Refusal :=
  .next (s.intLand 1 d (immTy z) (noFlag (intMax (immTy z) (s.srcN a) (imm9Val imm))))

def execMovImm (z : Bool) (d : Dst) (imm : BitVec 9) (s : State) : Host.Outcome State Fault Refusal :=
  .next (s.intLand 1 d (immTy z) (noFlag (imm9Val imm)))

/-! ### Major 3 (R106) -/

def execAddLong (t : Ty) (d : Dst) (a : Src) (imm : BitVec 32) (s : State) : Host.Outcome State Fault Refusal :=
  .next (s.intLand 1 d t (intAdd t s.cap.sat (s.srcN a) (imm32Val t imm)))

def execMulLong (t : Ty) (d : Dst) (a : Src) (imm : BitVec 32) (s : State) : Host.Outcome State Fault Refusal :=
  .next (s.intLand 3 d t (intMul t s.cap.sat (s.srcN a) (imm32Val t imm)))

def execAndLong (t : Ty) (d : Dst) (a : Src) (imm : BitVec 32) (s : State) : Host.Outcome State Fault Refusal :=
  .next (s.intLand 1 d t (noFlag (intAnd t (s.srcN a) (imm32Val t imm))))

def execOrLong (t : Ty) (d : Dst) (a : Src) (imm : BitVec 32) (s : State) : Host.Outcome State Fault Refusal :=
  .next (s.intLand 1 d t (noFlag (intOr t (s.srcN a) (imm32Val t imm))))

def execXorLong (t : Ty) (d : Dst) (a : Src) (imm : BitVec 32) (s : State) : Host.Outcome State Fault Refusal :=
  .next (s.intLand 1 d t (noFlag (intXor t (s.srcN a) (imm32Val t imm))))

def execCeqLong (t : Ty) (d : Dst) (a : Src) (imm : BitVec 32) (s : State) : Host.Outcome State Fault Refusal :=
  .next (s.intLand 1 d t (noFlag (intCeq t (s.srcN a) (imm32Val t imm))))

def execCltLong (t : Ty) (d : Dst) (a : Src) (imm : BitVec 32) (s : State) : Host.Outcome State Fault Refusal :=
  .next (s.intLand 1 d t (noFlag (intClt t (s.srcN a) (imm32Val t imm))))

def execCleLong (t : Ty) (d : Dst) (a : Src) (imm : BitVec 32) (s : State) : Host.Outcome State Fault Refusal :=
  .next (s.intLand 1 d t (noFlag (intCle t (s.srcN a) (imm32Val t imm))))

def execMovLong (t : Ty) (d : Dst) (imm : BitVec 32) (s : State) : Host.Outcome State Fault Refusal :=
  .next (s.intLand 1 d t (noFlag (imm32Val t imm % 2 ^ t.width)))

/-- `movh` (R106): (a AND 0xFFFF_FFFF) OR (imm32 << 32). -/
def execMovh (t : Ty) (d : Dst) (a : Src) (imm : BitVec 32) (s : State) : Host.Outcome State Fault Refusal :=
  .next (s.intLand 1 d t (noFlag (s.srcN a % 2 ^ 32 + imm.toNat * 2 ^ 32)))

/-- The panel-memory address of a pool entry: (P AND NOT 7) + 8 × offset (R90, R106). -/
def poolAddr (p off : Word) : Word := (p &&& ~~~7) + 8 * off

def execAdr (d : Dst) (imm : BitVec 32) (s : State) : Host.Outcome State Fault Refusal :=
  .next (s.intLand64 d (poolAddr s.iss.p (signExt imm)))

end Sys2Proof.Machine
end

