-- ==== Sys2Proof/Machine/ScalarMem.lean ====
section
/-! DEFINITION. Literal load, scalar bank memory, the class-mask fence and the local atomics at issue (R109 to R116).
What a bank access does when it performs stands in Perform.lean. -/

namespace Sys2Proof.Machine

/-! ### The instruction cache (R31, R181) -/

/-- The bytes of a cached 64-byte line. -/
def Die.icLine (x : Die) (root : Word) (line : Nat) : Option (List Byte) :=
  (x.seq.icache.find? fun l => l.root == root && l.line == line).map (·.bytes)

/-- The byte of the instruction stream at an address, if its line is in the cache. -/
def Die.icByte (x : Die) (root va : Word) : Option Byte :=
  (x.icLine root (va.toNat / 64)).bind fun l => l[va.toNat % 64]?

/-- Bytes of the instruction stream, if all their lines are in the cache. -/
def Die.icBytes (x : Die) (root va : Word) (n : Nat) : Option (List Byte) :=
  (List.range n).mapM fun k => x.icByte root (va + BitVec.ofNat 64 k)

/-- The page-table root of a context (R306, R330). -/
def State.ctxRoot (s : State) (d : DieId) (c : CtxId) : Word := (s.die d).mem.root[c]

/-- A pool word of the bundle in progress (R90, R109): as the fetch of the bundle brought it, or as memory holds it;
for a word that does not translate, which no bundle reaches, a free value. -/
def State.poolWord (s : State) (va : Word) : Word :=
  let root := s.ctxRoot s.iss.die s.iss.ctx
  match (s.die s.iss.die).icBytes root va 8 with
  | some l => wordOfBytes l
  | none => match s.readVirt root va 8 with
    | some l => wordOfBytes l
    | none => Config.freeWord s.freeCtr

def execLit (d : Dst) (off : BitVec 15) (s : State) : Host.Outcome State Fault Refusal :=
  .next (s.land 4 slotLS (.scalar d (s.poolWord (poolAddr s.iss.p (signExt off)))))

/-! ### Loads and stores (R110 to R113) -/

/-- A scalar load on its way: it reads at c+5 and lands at c+6. -/
def State.scalarLoad (s : State) (t : Ty) (own : Fin 16) (d : Dst) (off : Word) : State :=
  s.access 5 .read slotLS (s.clsOf own) s.tagOf (.load t d off)

/-- A scalar store on its way: it commits at c+6. A tag field is without effect (R113). -/
def State.scalarStore (s : State) (t : Ty) (own : Fin 16) (v : Src) (off : Word) : State :=
  s.access 6 .scalarWrite slotLS (s.clsOf own) none (.store (t.width / 8) off (s.src v))

def execLd (t : Ty) (d : Dst) (a b : Src) (s : State) : Host.Outcome State Fault Refusal :=
  .next (s.scalarLoad t 0 d (s.src a + s.src b))

def execSt (t : Ty) (v : Src) (a b : Src) (s : State) : Host.Outcome State Fault Refusal :=
  .next (s.scalarStore t 0 v (s.src a + s.src b))

def execLdOffset (t : Ty) (cls : Fin 16) (d : Dst) (a : Src) (off : BitVec 32) (s : State) :
    Host.Outcome State Fault Refusal :=
  .next (s.scalarLoad t cls d (s.src a + signExt off))

def execStOffset (t : Ty) (cls : Fin 16) (v : Src) (a : Src) (off : BitVec 32) (s : State) :
    Host.Outcome State Fault Refusal :=
  .next (s.scalarStore t cls v (s.src a + signExt off))

/-- Adds a wait condition to the bundle in progress (R156). -/
def State.addWait (s : State) (w : Wait) : State := { s with iss := { s.iss with waits := s.iss.waits ++ [w] } }

/-- `fence.k` (R114): the next bundle waits for the context's earlier accesses of the masked classes. -/
def execFenceK (mask : BitVec 16) (s : State) : Host.Outcome State Fault Refusal :=
  .next (s.addWait (.fence mask s.iss.bundle))

/-! ### Local atomics (R115, R116) -/

/-- A local atomic on its way: it performs at c+6. -/
def State.localAmo (s : State) (op : AmoOp) (t : Ty) (own : Fin 16) (d : Dst) (a b c : Src) (off : BitVec 16) : State :=
  s.access 6 .scalarWrite slotLS (s.clsOf own) none
    (.amo op t d (s.src a + signExt off) (s.src b) (s.src c) s.cap)

def execAmoAdd (t : Ty) (cls : Fin 16) (d : Dst) (a b : Src) (off : BitVec 16) (s : State) :
    Host.Outcome State Fault Refusal := .next (s.localAmo .add t cls d a b b off)

def execAmoAnd (t : Ty) (cls : Fin 16) (d : Dst) (a b : Src) (off : BitVec 16) (s : State) :
    Host.Outcome State Fault Refusal := .next (s.localAmo .and t cls d a b b off)

def execAmoOr (t : Ty) (cls : Fin 16) (d : Dst) (a b : Src) (off : BitVec 16) (s : State) :
    Host.Outcome State Fault Refusal := .next (s.localAmo .or t cls d a b b off)

def execAmoXor (t : Ty) (cls : Fin 16) (d : Dst) (a b : Src) (off : BitVec 16) (s : State) :
    Host.Outcome State Fault Refusal := .next (s.localAmo .xor t cls d a b b off)

def execAmoMax (t : Ty) (cls : Fin 16) (d : Dst) (a b : Src) (off : BitVec 16) (s : State) :
    Host.Outcome State Fault Refusal := .next (s.localAmo .max t cls d a b b off)

def execAmoMin (t : Ty) (cls : Fin 16) (d : Dst) (a b : Src) (off : BitVec 16) (s : State) :
    Host.Outcome State Fault Refusal := .next (s.localAmo .min t cls d a b b off)

def execAmoSwap (t : Ty) (cls : Fin 16) (d : Dst) (a b : Src) (off : BitVec 16) (s : State) :
    Host.Outcome State Fault Refusal := .next (s.localAmo .swap t cls d a b b off)

/-- `amo.cas`: b is written when the old word equals c. -/
def execAmoCas (t : Ty) (cls : Fin 16) (d : Dst) (a b c : Src) (off : BitVec 16) (s : State) :
    Host.Outcome State Fault Refusal := .next (s.localAmo .cas t cls d a b c off)

def execAmoFadd (cls : Fin 16) (d : Dst) (a b : Src) (off : BitVec 16) (s : State) :
    Host.Outcome State Fault Refusal := .next (s.localAmo .fadd .f32 cls d a b b off)

def execAmoFmax (cls : Fin 16) (d : Dst) (a b : Src) (off : BitVec 16) (s : State) :
    Host.Outcome State Fault Refusal := .next (s.localAmo .fmax .f32 cls d a b b off)

def execAmoFmin (cls : Fin 16) (d : Dst) (a b : Src) (off : BitVec 16) (s : State) :
    Host.Outcome State Fault Refusal := .next (s.localAmo .fmin .f32 cls d a b b off)

def execAmoSadd (t : Ty) (cls : Fin 16) (d : Dst) (a b : Src) (off : BitVec 16) (s : State) :
    Host.Outcome State Fault Refusal := .next (s.localAmo .sadd t cls d a b b off)

/-- The new word of an atomic and its flags (R115), on w-bit words. -/
def amoNew (op : AmoOp) (t : Ty) (fmt : FmtCap) (old b c : Nat) : Nat × Flg :=
  let w := t.width
  let f (x : Nat) : Val := operandF fmtF32 fmt.flush (x % 2 ^ 32)
  match op with
  | .add => (lowBits w (intVal t old + intVal t b), 0)
  | .and => noFlag (intAnd t old b)
  | .or => noFlag (intOr t old b)
  | .xor => noFlag (intXor t old b)
  | .max => noFlag (intMax t old b)
  | .min => noFlag (intMin t old b)
  | .swap => (b % 2 ^ w, 0)
  | .cas => (if old % 2 ^ w = c % 2 ^ w then b % 2 ^ w else old % 2 ^ w, 0)
  | .fadd =>
    let r := addVal fmt.rnd (f old) (f b)
    let e := roundVal fmtF32 fmt.rnd fmt.flush r.1
    (e.1, e.2 ||| r.2)
  | .fmax =>
    let r := maxMinVal true (f old) (f b)
    let e := roundVal fmtF32 fmt.rnd fmt.flush r.1
    (e.1, e.2 ||| r.2)
  | .fmin =>
    let r := maxMinVal false (f old) (f b)
    let e := roundVal fmtF32 fmt.rnd fmt.flush r.1
    (e.1, e.2 ||| r.2)
  | .sadd => reduce t true (intVal t old + intVal t b)

end Sys2Proof.Machine
end

