-- ==== Sys2Proof/Machine/Branch.lean ====
section
/-! DEFINITION. Branches and hardware loops (R117 to R123). What a bundle of the slot BR decides is kept with the bundle
in progress; the next pc follows when the bundle ends (R122, Issue.lean). -/

namespace Sys2Proof.Machine

/-- The target of a branch of the bundle in progress: P + 4 × off (R117). -/
def State.branchTarget (s : State) {n : Nat} (off : BitVec n) : Word := s.iss.p + 4 * signExt off

/-- A branch decides (R118): taken, it gives the bundle a target. -/
def State.branch (s : State) (taken : Bool) (target : Word) : State :=
  if taken then { s with iss := { s.iss with target := some target } } else s

/-- The count of a wide flag set (R23). -/
def RegFile.count (r : RegFile) : FlagSet → BitVec 9
  | .va => r.wf[0]
  | .vb => r.wf[1]
  | .sx => r.wf[2]

/-- The address after the bundle in progress. -/
def Issue.after (i : Issue) : Word := i.p + BitVec.ofNat 64 i.len

def execBr (off : BitVec 20) (s : State) : Host.Outcome State Fault Refusal :=
  .next (s.branch true (s.branchTarget off))

def execBrz (a : Src) (off : BitVec 15) (s : State) : Host.Outcome State Fault Refusal :=
  .next (s.branch (s.src a == 0) (s.branchTarget off))

def execBrnz (a : Src) (off : BitVec 15) (s : State) : Host.Outcome State Fault Refusal :=
  .next (s.branch (s.src a != 0) (s.branchTarget off))

def execBany (fs : FlagSet) (off : BitVec 18) (s : State) : Host.Outcome State Fault Refusal :=
  .next (s.branch (s.rf.count fs != 0) (s.branchTarget off))

def execBall (fs : FlagSet) (off : BitVec 18) (s : State) : Host.Outcome State Fault Refusal :=
  .next (s.branch (s.rf.count fs == 256) (s.branchTarget off))

def execBnone (fs : FlagSet) (off : BitVec 18) (s : State) : Host.Outcome State Fault Refusal :=
  .next (s.branch (s.rf.count fs == 0) (s.branchTarget off))

def execBcntGe (fs : FlagSet) (a : Src) (off : BitVec 12) (s : State) : Host.Outcome State Fault Refusal :=
  .next (s.branch (decide (s.srcN a ≤ (s.rf.count fs).toNat)) (s.branchTarget off))

def execBcntLt (fs : FlagSet) (a : Src) (off : BitVec 12) (s : State) : Host.Outcome State Fault Refusal :=
  .next (s.branch (decide ((s.rf.count fs).toNat < s.srcN a)) (s.branchTarget off))

/-- lr := P + n lands in the next cycle, without a push (R118). -/
def State.linkHere (s : State) : State := s.land 1 slotRC (.link s.iss.after)

def execCall (off : BitVec 20) (s : State) : Host.Outcome State Fault Refusal :=
  .next (s.linkHere.branch true (s.branchTarget off))

def execRet (s : State) : Host.Outcome State Fault Refusal :=
  .next (s.branch true (s.rf.lr &&& ~~~3))

def execJmp (a : Src) (s : State) : Host.Outcome State Fault Refusal :=
  .next (s.branch true (s.src a &&& ~~~3))

def execCallr (a : Src) (s : State) : Host.Outcome State Fault Refusal :=
  .next (s.linkHere.branch true (s.src a &&& ~~~3))

/-- `loop` and `loop.sw` (R121): arms a level at the end of the bundle, or with a count of 0 branches to E. -/
def State.armLoop (s : State) (lvl : Fin 4) (sw : Bool) (a : Src) (off : BitVec 10) : State :=
  let stop := s.iss.p + 4 * off.setWidth 64
  let count := (s.src a).setWidth 32
  if count = 0 then s.branch true stop
  else { s with iss := { s.iss with
    loopSet := some (lvl, { start := s.iss.after, stop := stop, count := count, armed := true, sw := sw }) } }

/-- Whether a `loop` of the bundle in progress gives an empty body, E ≤ P + n (R121). -/
def State.loopEmpty (s : State) (off : BitVec 10) : Bool := decide (4 * off.toNat ≤ s.iss.len)

def execLoop (lvl : Fin 4) (a : Src) (off : BitVec 10) (s : State) : Host.Outcome State Fault Refusal :=
  .next (if s.loopEmpty off then s.trapIllegal else s.armLoop lvl false a off)

def execLoopSw (lvl : Fin 4) (a : Src) (off : BitVec 10) (s : State) : Host.Outcome State Fault Refusal :=
  .next (if s.loopEmpty off then s.trapIllegal else s.armLoop lvl true a off)

def execLoopClr (mask : BitVec 4) (s : State) : Host.Outcome State Fault Refusal :=
  .next { s with iss := { s.iss with loopClr := some mask } }

/-- `bskip` (R119, R227): taken when the top entry of the mask stack is all zeros. -/
def execBskip (off : BitVec 18) (s : State) : Host.Outcome State Fault Refusal :=
  .next (s.branch (s.rf.mask == 0) (s.branchTarget off))

/-- `btok` (R120): the token's state as it stood at the start of the cycle. -/
def execBtok (st : TokState) (t : TokId) (off : BitVec 12) (s : State) : Host.Outcome State Fault Refusal :=
  .next (s.branch (s.cur.tok[t] == st) (s.branchTarget off))

end Sys2Proof.Machine
end

