-- ==== Sys2Proof/Machine/Comb.lean ====
section
/-! DEFINITION. The Comb networks (R194 to R203) and the Drover (R207): traversal of a setting, forming a setting from
a permutation, BPC descriptors and route blocks. -/

namespace Sys2Proof.Machine

/-- Rotates the low 8 bits right (R194). -/
def rotR8 (p n : Nat) : Nat := (p / 2 ^ n + p * 2 ^ (8 - n)) % 256

/-- Rotates the low 8 bits left (R194). -/
def rotL8 (p n : Nat) : Nat := rotR8 p (8 - n)

/-- Whether bit i of a number is 1. -/
def natBit (v i : Nat) : Bool := v / 2 ^ i % 2 == 1

/-- The switches of one stage exchange the positions 2s and 2s+1 of a list (R194). -/
def swapPairs {α : Type} : List Bool → List α → List α
  | b :: bs, x :: y :: r => if b then y :: x :: swapPairs bs r else x :: y :: swapPairs bs r
  | _, l => l

/-- A list of 256 rearranged: place i takes what stood at place `g i`. -/
def permute (g : Nat → Nat) (d : Nat) (l : List Nat) : List Nat :=
  (List.range 256).map fun i => l.getD (g i) d

/-- The switch bits of stage k of a setting (R195). -/
def stageBits (r : Route) (k : Nat) : List Bool :=
  (splitNat 1 128 (r.toNat / 2 ^ (128 * k))).map (· == 1)

/-- Stages k, k+1, … of a network, `left` of them. -/
def stages (r : Route) : Nat → Nat → List Nat → List Nat
  | 0, _, data => data
  | left + 1, k, data =>
    let data := swapPairs (stageBits r k) data
    let data := if k ≤ 6 then permute (fun i => rotL8 i 1) 0 data
      else if k ≤ 13 then permute (fun i => rotR8 i 1) 0 data else data
    stages r left (k + 1) data

/-- What a network delivers to its 256 outputs (R194); the all-zero setting is the identity. -/
def traverse (r : Route) (data : List Nat) : List Nat := if r = 0 then data else stages r 15 0 data

/-! ### Forming a setting (R200) -/

/-- Completes a partial permutation with the unnamed inputs in ascending order. -/
def complete (l : List (Option Nat)) : List Nat :=
  let free := (List.range 256).filter fun i => !l.contains (some i)
  let rec go : List (Option Nat) → List Nat → List Nat
    | [], _ => []
    | some x :: r, fr => x :: go r fr
    | none :: r, [] => 0 :: go r []
    | none :: r, y :: fr => y :: go r fr
  go l free

/-- The inverse of a permutation of 0 to 255. -/
def inverse (l : List Nat) : List Nat := (List.range 256).map fun y => l.findIdx (· == y)

/-- The colours given so far in one level: which members have one, and which have colour 1. -/
structure Colours where
  set : Nat := 0
  one : Nat := 0
  deriving DecidableEq, Repr

/-- One round of colouring from a member on, until it meets a coloured one. -/
def colourRun (m : Nat) (f finv : List Nat) : Nat → Nat → Colours → Colours
  | 0, _, c => c
  | n + 1, u, c =>
    if natBit c.set u then c
    else
      let v := Nat.xor u m
      let c : Colours := { set := Nat.lor c.set (2 ^ u + 2 ^ v), one := Nat.lor c.one (2 ^ v) }
      colourRun m f finv n (finv.getD (Nat.xor (f.getD v 0) m) 0) c

/-- The number of the switch that serves a canonical index at a stage (R195, R200). -/
def switchNo (k c : Nat) : Nat := 128 * k + rotR8 c (if k ≤ 7 then k else 14 - k) / 2

/-- The switch bits of one level for members and images whose bit d is 0. -/
def levelBits (d : Nat) (finv : List Nat) (c : Colours) : Nat :=
  let m := 2 ^ d
  (List.range 256).foldl (fun acc x =>
    if Nat.land x m ≠ 0 then acc
    else acc + (if natBit c.one x then 2 ^ switchNo d x else 0)
      + (if natBit c.one (finv.getD x 0) then 2 ^ switchNo (14 - d) x else 0)) 0

/-- The function that the next level has to realise. -/
def nextLevel (m : Nat) (f : List Nat) (c : Colours) : List Nat :=
  (List.range 256).map fun x' =>
    let b := if Nat.land x' m = 0 then 0 else 1
    let x := if (natBit c.one x').toNat = b then x' else Nat.xor x' m
    let y := f.getD x 0
    y - Nat.land y m + b * m

/-- Levels d to 7 of Solve; all the groups of a level are taken together. -/
def solveLevels : Nat → Nat → List Nat → Nat
  | 0, _, f =>
    (List.range 256).foldl (fun acc x =>
      if Nat.land x 128 = 0 && Nat.land (f.getD x 0) 128 != 0 then acc + 2 ^ switchNo 7 x else acc) 0
  | n + 1, d, f =>
    let m := 2 ^ d
    let finv := inverse f
    let c := (List.range 256).foldl (fun c x => if Nat.land x m = 0 then colourRun m f finv 256 x c else c) {}
    levelBits d finv c + solveLevels n (d + 1) (nextLevel m f c)

/-- The setting of a permutation that names the input of each output (R200). -/
def solve (l : List (Option Nat)) : Route :=
  BitVec.ofNat 1920 (solveLevels 7 0 (inverse (complete l)))

/-! ### BPC descriptors (R201, R202) -/

/-- The source index of output p. -/
def bpcFrom (desc : BitVec 32) (p : Nat) : Nat :=
  (List.range 8).foldl (fun acc j =>
    acc + ((natBit p j != natBit desc.toNat (24 + j)).toNat) * 2 ^ bpcBit desc j) 0

/-- The setting of a valid descriptor. -/
def bpcRoute (desc : BitVec 32) : Route := solve ((List.range 256).map fun p => some (bpcFrom desc p))

/-! ### Route blocks (R203) -/

/-- How many words a block has by its header: two for each stage of a stage list (R72). -/
def blockWords (h : Word) : Nat := if bits h 32 8 = 0 then 1 + 2 * popNat 15 (bits h 0 15) else 1

/-- The stage words of a stage list as a setting. -/
def stageList (mask : Nat) : Nat → Nat → List Word → Nat
  | 0, _, _ => 0
  | left + 1, k, ws =>
    if natBit mask k then
      match ws with
      | a :: b :: r => (a.toNat + 2 ^ 64 * b.toNat) * 2 ^ (128 * k) + stageList mask left (k + 1) r
      | _ => 0
    else stageList mask left (k + 1) ws

/-- The check field of a block of words. -/
def blockCrc (h : Word) (ws : List Word) : Nat :=
  crc16 ((bytesOfWord h).take 6 ++ ws.flatMap bytesOfWord)

/-- The setting of a block that passes its check (R203). `len` is the length that the referencing syllable gives. -/
def routeBlock (ws : List Word) (len : Option Nat) : Option Route :=
  match ws with
  | [] => none
  | h :: r =>
    let n := blockWords h
    let lenOk := match len with
      | some l => l == n
      | none => true
    if !lenOk || bits h 32 8 > 1 || bits h 40 8 ≠ 0 || r.length + 1 < n then none
    else if bits h 48 16 ≠ blockCrc h (r.take (n - 1)) then none
    else if bits h 32 8 = 1 then
      let d := BitVec.ofNat 32 (bits h 0 32)
      if bpcValid d then some (bpcRoute d) else none
    else if bits h 15 17 ≠ 0 then none
    else some (BitVec.ofNat 1920 (stageList (bits h 0 15) 15 0 r))

/-- The full-form block of a setting, with the zero word that makes 256 bytes (R204). -/
def fullBlock (r : Route) : List Word :=
  let ws := (List.range 30).map fun i => BitVec.ofNat 64 (r.toNat / 2 ^ (64 * i))
  let h : Word := 0x7FFF
  (h + BitVec.ofNat 64 (2 ^ 48 * blockCrc h ws)) :: ws ++ [0]

/-! ### The Drover (R207) -/

/-- Whether an index lane is valid: it wants an input and is in range. -/
def idxValid (x : Nat) : Bool := x / 2 ^ 31 == 0 && x / 2 ^ 8 % 2 ^ 23 == 0

/-- Whether an index lane is out of range. -/
def idxBad (x : Nat) : Bool := x / 2 ^ 31 == 0 && x / 2 ^ 8 % 2 ^ 23 != 0

/-- The rank of each lane of an index vector among the valid lanes of its index; none for a lane that is not valid. -/
def ranks (l : List Nat) : List (Option Nat) :=
  (List.range l.length).map fun p =>
    let x := l.getD p 0
    if idxValid x then some ((l.take p).filter fun y => idxValid y && y % 256 == x % 256).length else none

/-- The number of passes. -/
def passes (l : List Nat) : Nat :=
  (ranks l).foldl (fun m r => match r with
    | some k => max m (k + 1)
    | none => m) 0

/-- The partial permutation of pass k. -/
def passFrom (l : List Nat) (k : Nat) : List (Option Nat) :=
  (l.zip (ranks l)).map fun x => if x.2 = some k then some (x.1 % 256) else none

/-- The setting of pass k. -/
def passSetting (l : List Nat) (k : Nat) : Route := solve (passFrom l k)

/-- The status word of a solve (R211). -/
def solveStatus (l : List Nat) : Word :=
  BitVec.ofNat 64 (65536 * (!l.any idxBad).toNat + passes l)

end Sys2Proof.Machine
end

