-- ==== Sys2Proof/Machine/Hash.lean ====
section
/-! DEFINITION. The hash and the signature check of the boot ROM (R365): SHA-256 (FIPS 180-4), and the verification of an
HSS signature of two levels, each LMS_SHA256_M32_H15 with LMOTS_SHA256_N32_W4 (RFC 8554). -/

namespace Sys2Proof.Machine

/-! ### SHA-256 -/

/-- The largest number whose k-th power does not exceed n, above r: b of its bits are still to be found. -/
def rootBelow (k n : Nat) : Nat → Nat → Nat
  | 0, r => r
  | b + 1, r => rootBelow k n b (if (r + 2 ^ b) ^ k ≤ n then r + 2 ^ b else r)

/-- The first 32 bits of the fraction of the k-th root of a number below 2^12 (FIPS 180-4, 4.2.2 and 5.3.3). -/
def rootFraction (k p : Nat) : BitVec 32 := BitVec.ofNat 32 (rootBelow k (p * 2 ^ (32 * k)) 44 0)

/-- The first 64 primes. -/
def shaPrimes : List Nat := (List.range 312).filter fun n => decide (2 ≤ n) && (List.range n).all fun d => decide (d < 2) || n % d != 0

/-- The round constants of SHA-256: from the cube roots of the first 64 primes. -/
def shaK : List (BitVec 32) := shaPrimes.map (rootFraction 3)

/-- The n bytes of a number, most significant first. -/
def beBytes (n v : Nat) : List Byte := (List.range n).map fun k => BitVec.ofNat 8 (v / 256 ^ (n - 1 - k))

/-- The number whose bytes are listed most significant first. -/
def natOfBe (l : List Byte) : Nat := l.foldl (fun n b => 256 * n + b.toNat) 0

/-- A message padded to whole blocks of 64 bytes. -/
def shaPad (l : List Byte) : List Byte :=
  l ++ 0x80 :: List.replicate ((119 - l.length % 64) % 64) 0 ++ beBytes 8 (8 * l.length)

/-- The sum of a word's rotations. -/
def spins (x : BitVec 32) (l : List Nat) : BitVec 32 := l.foldl (fun y k => y ^^^ x.rotateRight k) 0

/-- The hash value, or the working words of a round: a and its last three values, and e and its last three. -/
structure ShaWords where
  as : List (BitVec 32)
  es : List (BitVec 32)

/-- The initial hash value: from the square roots of the first eight primes. -/
def shaInit : ShaWords :=
  let l := (shaPrimes.take 8).map (rootFraction 2)
  { as := l.take 4, es := l.drop 4 }

/-- The schedule word after those of a block so far, which stand newest first. -/
def shaWord (w : List (BitVec 32)) : BitVec 32 :=
  let at_ (k : Nat) : BitVec 32 := w.getD (k - 1) 0
  at_ 16 + at_ 7 + (spins (at_ 15) [7, 18] ^^^ at_ 15 >>> 3) + (spins (at_ 2) [17, 19] ^^^ at_ 2 >>> 10)

/-- The message schedule with n more words, newest first. -/
def shaMore : Nat → List (BitVec 32) → List (BitVec 32)
  | 0, w => w
  | n + 1, w => shaMore n (shaWord w :: w)

/-- One round, with the sum of its constant and its schedule word: the oldest words leave, and a new a and a new e enter. -/
def shaRound (s : ShaWords) (kw : BitVec 32) : ShaWords :=
  let a (k : Nat) : BitVec 32 := s.as.getD k 0
  let e (k : Nat) : BitVec 32 := s.es.getD k 0
  let choice := e 2 ^^^ (e 0 &&& (e 1 ^^^ e 2))
  let majority := (a 0 &&& a 1) ||| (a 2 &&& (a 0 ||| a 1))
  let step := kw + e 3 + choice + spins (e 0) [6, 11, 25]
  { as := (step + majority + spins (a 0) [2, 13, 22]) :: s.as.take 3, es := (step + a 3) :: s.es.take 3 }

/-- The big-endian words of some bytes. -/
def beWords : Nat → List Byte → List (BitVec 32)
  | 0, _ => []
  | n + 1, l => BitVec.ofNat 32 (natOfBe (l.take 4)) :: beWords n (l.drop 4)

/-- The hash value after one more block. -/
def shaBlock (h : ShaWords) (l : List Byte) : ShaWords :=
  let sums := (shaK.zip (shaMore 48 (beWords 16 l).reverse).reverse).map fun p => p.1 + p.2
  let r := sums.foldl shaRound h
  { as := (h.as.zip r.as).map fun p => p.1 + p.2, es := (h.es.zip r.es).map fun p => p.1 + p.2 }

/-- The hash value after n blocks. -/
def shaBlocks : Nat → ShaWords → List Byte → ShaWords
  | 0, h, _ => h
  | n + 1, h, l => shaBlocks n (shaBlock h (l.take 64)) (l.drop 64)

/-- SHA-256 of a message: 32 bytes (R365). -/
def sha256 (l : List Byte) : List Byte :=
  let p := shaPad l
  let h := shaBlocks (p.length / 64) shaInit p
  (h.as ++ h.es).flatMap fun w => beBytes 4 w.toNat

/-! ### LM-OTS, LMS and HSS (RFC 8554) -/

/-- The typecodes of LMS_SHA256_M32_H15 and LMOTS_SHA256_N32_W4, the tree's height, and the chains of a one-time
signature. -/
def lmsH15 : Nat := 7
def lmotsW4 : Nat := 3
def lmsHeight : Nat := 15
def otsChains : Nat := 67

/-- The 4-bit digits of some bytes, high digit first. -/
def nibbles (l : List Byte) : List Nat := l.flatMap fun b => [b.toNat / 16, b.toNat % 16]

/-- The digits that a one-time signature signs: those of a hash and of its checksum. -/
def otsDigits (q : List Byte) : List Nat :=
  let d := nibbles q
  let sum := (d.map fun x => 15 - x).foldl (· + ·) 0
  d ++ nibbles (beBytes 2 (16 * sum)) |>.take otsChains

/-- Chain i from value j on, for n steps. -/
def otsChain (pre : List Byte) (i : Nat) : Nat → Nat → List Byte → List Byte
  | 0, _, t => t
  | n + 1, j, t => otsChain pre i n (j + 1) (sha256 (pre ++ beBytes 2 i ++ beBytes 1 j ++ t))

/-- Part k of some bytes cut into parts of 32. -/
def part32 (l : List Byte) (k : Nat) : List Byte := (l.drop (32 * k)).take 32

/-- The one-time public key that a signature of a message gives (RFC 8554, 4.6): the signature's bytes after its
typecode. -/
def otsKey (ident : List Byte) (q : Nat) (sig msg : List Byte) : List Byte :=
  let pre := ident ++ beBytes 4 q
  let h := sha256 (pre ++ beBytes 2 0x8181 ++ sig.take 32 ++ msg)
  let y := sig.drop 32
  let z := (otsDigits h).zipIdx.flatMap fun d => otsChain pre d.2 (15 - d.1) d.1 (part32 y d.2)
  sha256 (pre ++ beBytes 2 0x8080 ++ z)

/-- The root that a node and the path above it give (RFC 8554, 5.4.2). -/
def lmsRoot (ident : List Byte) : Nat → Nat → List Byte → List Byte → List Byte
  | 0, _, t, _ => t
  | n + 1, node, t, path =>
    let pre := ident ++ beBytes 4 (node / 2) ++ beBytes 2 0x8383
    let s := path.take 32
    lmsRoot ident n (node / 2) (sha256 (pre ++ (if node % 2 = 1 then s ++ t else t ++ s))) (path.drop 32)

/-- Bytes of an LMS signature and of an LMS public key of the parameter set. -/
def lmsSigLen : Nat := 4 + (4 + 32 + 32 * otsChains) + 4 + 32 * lmsHeight
def lmsKeyLen : Nat := 56

/-- Whether an LMS signature of a message verifies under an LMS public key, both of the accepted parameter set (R365;
RFC 8554, 5.4.2). -/
def lmsCheck (key msg sig : List Byte) : Bool :=
  let ident := (key.drop 8).take 16
  let q := natOfBe (sig.take 4)
  let ots := (sig.drop 8).take (32 + 32 * otsChains)
  let rest := sig.drop (8 + 32 + 32 * otsChains)
  let leaf := sha256 (ident ++ beBytes 4 (2 ^ lmsHeight + q) ++ beBytes 2 0x8282 ++ otsKey ident q ots msg)
  key.length == lmsKeyLen && sig.length == lmsSigLen
    && natOfBe (key.take 4) == lmsH15 && natOfBe ((key.drop 4).take 4) == lmotsW4
    && natOfBe ((sig.drop 4).take 4) == lmotsW4 && natOfBe (rest.take 4) == lmsH15
    && decide (q < 2 ^ lmsHeight)
    && lmsRoot ident lmsHeight (2 ^ lmsHeight + q) leaf (rest.drop 4) == key.drop 24

/-- Whether an HSS signature of a message verifies under an HSS public key of two levels (R365; RFC 8554, 6.3). -/
def hssCheck (key msg sig : List Byte) : Bool :=
  let top := key.drop 4
  let sig0 := (sig.drop 4).take lmsSigLen
  let low := (sig.drop (4 + lmsSigLen)).take lmsKeyLen
  natOfBe (key.take 4) == 2 && natOfBe (sig.take 4) == 1
    && lmsCheck top low sig0 && lmsCheck low msg (sig.drop (4 + lmsSigLen + lmsKeyLen))

end Sys2Proof.Machine
end

