-- ==== Sys2Proof/Machine/Cipher.lean ====
section
/-! DEFINITION. AES-256-GCM (FIPS 197, NIST SP 800-38D), under which ports encrypt the payloads of data slots and the
fabric manager wraps job keys (R397, R399). -/

namespace Sys2Proof.Machine

/-! ### AES-256 -/

/-- Multiplication by x in the field of AES. -/
def aesDouble (a : BitVec 8) : BitVec 8 := (a <<< 1) ^^^ (if a.msb then 0x1B else 0)

/-- Multiplication in the field of AES: the low n bits of the second factor. -/
def aesMulN (a : BitVec 8) : Nat → Nat → BitVec 8
  | 0, _ => 0
  | n + 1, b => (if b % 2 = 1 then a else 0) ^^^ aesMulN (aesDouble a) n (b / 2)

/-- The product of two elements of the field. -/
def aesTimes (a b : BitVec 8) : BitVec 8 := aesMulN a 8 b.toNat

/-- The inverse of an element, 0 for 0: its power 254. -/
def aesInv (a : BitVec 8) : BitVec 8 :=
  let sq (x : BitVec 8) : BitVec 8 := aesTimes x x
  let p (x : BitVec 8) : BitVec 8 := aesTimes (sq x) a
  sq (p (p (p (p (p (p a))))))

/-- The substitution of AES. -/
def aesSub (a : BitVec 8) : BitVec 8 :=
  let b := aesInv a
  b ^^^ b.rotateLeft 1 ^^^ b.rotateLeft 2 ^^^ b.rotateLeft 3 ^^^ b.rotateLeft 4 ^^^ 0x63

/-- The bytewise sum of two lists. -/
def xorBytes (a b : List Byte) : List Byte := List.zipWith (· ^^^ ·) a b

/-- Doubles an element n times. -/
def aesPow : Nat → BitVec 8 → BitVec 8
  | 0, a => a
  | n + 1, a => aesPow n (aesDouble a)

/-- The next n words of the key schedule of AES-256, word k being the first of them; earlier words newest first. -/
def aesExpand : Nat → Nat → List (List Byte) → List (List Byte)
  | 0, _, w => w
  | n + 1, k, w =>
    let t := w.headD []
    let t := if k % 8 = 0 then xorBytes ((t.drop 1 ++ t.take 1).map aesSub) [aesPow (k / 8 - 1) 1, 0, 0, 0]
             else if k % 8 = 4 then t.map aesSub
             else t
    aesExpand n (k + 1) (xorBytes (w.getD 7 []) t :: w)

/-- The 4-byte words of some bytes. -/
def quads : Nat → List Byte → List (List Byte)
  | 0, _ => []
  | n + 1, l => l.take 4 :: quads n (l.drop 4)

/-- The 15 round keys of a 32-byte key. -/
def aesKeys (key : List Byte) : List (List Byte) :=
  let w := (aesExpand 52 8 (quads 8 key).reverse).reverse
  (List.range 15).map fun k => ((w.drop (4 * k)).take 4).flatten

/-- The rows of the state moved: byte k of column c comes from column c + k. -/
def aesShift (l : List Byte) : List Byte :=
  (List.range 16).map fun i => l.getD ((i / 4 + i % 4) % 4 * 4 + i % 4) 0

/-- One column of the state mixed. -/
def aesMixCol (l : List Byte) : List Byte :=
  (List.range 4).map fun i =>
    let x (k : Nat) : Byte := l.getD ((i + k) % 4) 0
    aesDouble (x 0) ^^^ aesDouble (x 1) ^^^ x 1 ^^^ x 2 ^^^ x 3

/-- The rounds of AES after the first key, with the keys that are left. -/
def aesRounds : List (List Byte) → List Byte → List Byte
  | [], l => l
  | k :: ks, l =>
    let t := aesShift (l.map aesSub)
    let t := if ks.isEmpty then t else (quads 4 t).flatMap aesMixCol
    aesRounds ks (xorBytes t k)

/-- AES-256 of a block of 16 bytes under expanded keys. -/
def aesBlock (keys : List (List Byte)) (l : List Byte) : List Byte := aesRounds (keys.drop 1) (xorBytes l (keys.headD []))

/-! ### GCM -/

/-- The product in the field of GHASH, whose first bit is the coefficient of 1: n bits of x are left, the last of them
first; z is the sum so far and v the multiple of y in turn. -/
def ghashMul (x : BitVec 128) : Nat → BitVec 128 → BitVec 128 → BitVec 128
  | 0, _, z => z
  | n + 1, v, z =>
    let z := if x.getLsbD n then z ^^^ v else z
    ghashMul x n (if v.getLsbD 0 then (v >>> 1) ^^^ (0xE1 <<< 120) else v >>> 1) z

/-- GHASH over n blocks. -/
def ghashBlocks (h : BitVec 128) : Nat → List Byte → BitVec 128 → BitVec 128
  | 0, _, y => y
  | n + 1, l, y => ghashBlocks h n (l.drop 16) (ghashMul (y ^^^ BitVec.ofNat 128 (natOfBe (l.take 16))) 128 h 0)

/-- Bytes with zeros up to a whole number of blocks. -/
def padBlock (l : List Byte) : List Byte := l ++ List.replicate ((16 - l.length % 16) % 16) 0

/-- The key stream of n blocks from a counter on. -/
def gcmStream (keys : List (List Byte)) (iv : BitVec 96) : Nat → Nat → List Byte
  | 0, _ => []
  | n + 1, c => aesBlock keys (beBytes 12 iv.toNat ++ beBytes 4 c) ++ gcmStream keys iv n (c + 1)

/-- The tag of a ciphertext with associated data. -/
def gcmTag (keys : List (List Byte)) (iv : BitVec 96) (aad ct : List Byte) : List Byte :=
  let h := BitVec.ofNat 128 (natOfBe (aesBlock keys (List.replicate 16 0)))
  let l := padBlock aad ++ padBlock ct ++ beBytes 8 (8 * aad.length) ++ beBytes 8 (8 * ct.length)
  xorBytes (beBytes 16 (ghashBlocks h (l.length / 16) l 0).toNat) (gcmStream keys iv 1 1)

/-- A key's 32 bytes, byte 0 in its low bits. -/
def keyBytes (key : BitVec 256) : List Byte := bytesOfNat 32 key.toNat

/-- AES-256-GCM of a plaintext: its ciphertext and its tag, byte 0 in the low bits (R397, R399). -/
def gcmSeal (key : BitVec 256) (iv : BitVec 96) (aad msg : List Byte) : List Byte × BitVec 128 :=
  let keys := aesKeys (keyBytes key)
  let ct := xorBytes msg (gcmStream keys iv ((msg.length + 15) / 16) 2)
  (ct, BitVec.ofNat 128 (natOfBytes (gcmTag keys iv aad ct)))

/-- Opens a ciphertext: its plaintext, if the tag is right (R397, R399). -/
def gcmOpen (key : BitVec 256) (iv : BitVec 96) (aad ct : List Byte) (tag : BitVec 128) : Option (List Byte) :=
  let keys := aesKeys (keyBytes key)
  if BitVec.ofNat 128 (natOfBytes (gcmTag keys iv aad ct)) = tag then
    some (xorBytes ct (gcmStream keys iv ((ct.length + 15) / 16) 2))
  else none

end Sys2Proof.Machine
end

