-- ==== Sys2Proof/Machine/PathCode.lean ====
section
/-! DEFINITION. The 64 bytes of a control-mesh path packet (R407). -/

namespace Sys2Proof.Machine

/-- The packets of a path (R407). -/
inductive PathKind where
  | setup | ack | nak | tear | tearAck
  deriving DecidableEq, Repr

/-- The code of a packet's type field. -/
def PathKind.code : PathKind → Nat
  | .setup => 1 | .ack => 2 | .nak => 3 | .tear => 4 | .tearAck => 5

/-- The step that a packet's arrival brings. -/
def PathKind.act : PathKind → Instr
  | .setup => .setup | .ack => .ack | .nak => .nak | .tear => .tear | .tearAck => .tearAck

/-- The most switch elements on a path. -/
def pathElems : Nat := 6

/-- The word of a switch element. -/
def elemWord (e : BitVec 24 × BitVec 20 × BitVec 20) : Nat :=
  field e.1.toNat 40 24 + field e.2.1.toNat 20 20 + field e.2.2.toNat 0 20

/-- The element of a word. -/
def elemOf (w : Word) : BitVec 24 × BitVec 20 × BitVec 20 :=
  (BitVec.ofNat 24 (bits w 40 24), BitVec.ofNat 20 (bits w 20 20), BitVec.ofNat 20 (bits w 0 20))

/-- Word 0 of a packet. -/
def pathWord0 (k : PathKind) (p : PathPkt) : Nat :=
  field k.code 56 8 + field p.path.toNat 40 16 + field p.origin.toNat 22 18 + field p.target.toNat 4 18
    + field p.elems.length 0 4

/-- The 64 bytes of a packet (R407). -/
def pathBytes (k : PathKind) (p : PathPkt) : List Byte :=
  bytesOfNat 8 (pathWord0 k p) ++ ((p.elems.map elemWord ++ List.replicate 6 0).take 6).flatMap (bytesOfNat 8)
    ++ bytesOfNat 8 (if k = .nak then p.index else 0)

/-- The packet of a type that 64 bytes hold; none for other types, and for more elements than a path has (R407). -/
def pathOf (k : PathKind) (l : List Byte) : Option PathPkt :=
  let w (i : Nat) : Word := wordOfBytes ((l.drop (8 * i)).take 8)
  let n := bits (w 0) 0 4
  if l.length ≠ 64 || bits (w 0) 56 8 ≠ k.code || pathElems < n then none
  else some
    { path := BitVec.ofNat 16 (bits (w 0) 40 16), origin := BitVec.ofNat 18 (bits (w 0) 22 18)
      target := BitVec.ofNat 18 (bits (w 0) 4 18), elems := (List.range n).map fun i => elemOf (w (i + 1))
      index := if k = .nak then (w 7).toNat else 0 }

end Sys2Proof.Machine
end

