-- ==== Sys2Proof/Machine/Kem.lean ====
section
/-! DEFINITION. The decapsulation of ML-KEM-1024 (FIPS 203), by which the primary die opens a delivered job key (R368,
R397), with the SHA-3 functions that it uses (FIPS 202). -/

namespace Sys2Proof.Machine

/-! ### SHA-3 (FIPS 202) -/

/-- Lane (x, y) of a state of 25 lanes. -/
def keccakLane (a : List (BitVec 64)) (x y : Nat) : BitVec 64 := a.getD (5 * (y % 5) + x % 5) 0

/-- A state whose lane (x, y) is given. -/
def keccakOf (f : Nat → Nat → BitVec 64) : List (BitVec 64) := (List.range 25).map fun i => f (i % 5) (i / 5)

/-- The rotations of the lanes met on the walk from (1, 0): place and distance (3.2.2). -/
def rhoWalk : Nat → Nat → Nat → List (Nat × Nat)
  | 0, _, _ => []
  | n + 1, x, y => (5 * y + x, (24 - n) * (25 - n) / 2 % 64) :: rhoWalk n y ((2 * x + 3 * y) % 5)

/-- The rotation of lane (x, y). -/
def rhoOf (x y : Nat) : Nat := (((rhoWalk 24 1 0).find? fun p => p.1 == 5 * y + x).map (·.2)).getD 0

/-- The shift register of the round constants after n steps (3.2.5). -/
def keccakLfsr : Nat → Nat
  | 0 => 1
  | n + 1 => let r := 2 * keccakLfsr n; if r < 256 then r else (r - 256) ^^^ 0x71

/-- The constant of a round. -/
def keccakConst (round : Nat) : BitVec 64 :=
  BitVec.ofNat 64 (((List.range 7).map fun j => keccakLfsr (j + 7 * round) % 2 * 2 ^ (2 ^ j - 1)).sum)

/-- One round of the permutation. -/
def keccakRound (a : List (BitVec 64)) (round : Nat) : List (BitVec 64) :=
  let column (x : Nat) : BitVec 64 := keccakLane a x 0 ^^^ keccakLane a x 1 ^^^ keccakLane a x 2 ^^^ keccakLane a x 3 ^^^ keccakLane a x 4
  let b := keccakOf fun x y => keccakLane a x y ^^^ column (x + 4) ^^^ (column (x + 1)).rotateLeft 1
  let c := keccakOf fun x y => let u := (x + 3 * y) % 5; (keccakLane b u x).rotateLeft (rhoOf u x)
  let d := keccakOf fun x y => keccakLane c x y ^^^ (~~~(keccakLane c (x + 1) y) &&& keccakLane c (x + 2) y)
  keccakOf fun x y => if x = 0 && y = 0 then keccakLane d 0 0 ^^^ keccakConst round else keccakLane d x y

/-- The permutation of 24 rounds. -/
def keccak (a : List (BitVec 64)) : List (BitVec 64) := (List.range 24).foldl keccakRound a

/-- A state with a block of bytes added to its first lanes. -/
def absorbBlock (a : List (BitVec 64)) (l : List Byte) : List (BitVec 64) :=
  keccakOf fun x y => keccakLane a x y ^^^ wordOfBytes ((l.drop (8 * (5 * y + x))).take 8)

/-- Absorbs n blocks. -/
def absorb (rate : Nat) : Nat → List (BitVec 64) → List Byte → List (BitVec 64)
  | 0, a, _ => a
  | n + 1, a, l => absorb rate n (keccak (absorbBlock a (l.take rate))) (l.drop rate)

/-- The output of n blocks. -/
def squeeze (rate : Nat) : Nat → List (BitVec 64) → List Byte
  | 0, _ => []
  | n + 1, a => (a.flatMap bytesOfWord).take rate ++ squeeze rate n (keccak a)

/-- A message padded to whole blocks after its suffix bits. -/
def spongePad (rate : Nat) (suffix : Byte) (l : List Byte) : List Byte :=
  let n := rate - l.length % rate
  l ++ if n = 1 then [suffix ^^^ 0x80] else suffix :: List.replicate (n - 2) 0 ++ [0x80]

/-- A sponge of a rate: n bytes of output. -/
def sponge (rate : Nat) (suffix : Byte) (n : Nat) (l : List Byte) : List Byte :=
  let p := spongePad rate suffix l
  (squeeze rate ((n + rate - 1) / rate) (absorb rate (p.length / rate) (.replicate 25 0) p)).take n

def sha3of256 (l : List Byte) : List Byte := sponge 136 0x06 32 l
def sha3of512 (l : List Byte) : List Byte := sponge 72 0x06 64 l
def shake128 (n : Nat) (l : List Byte) : List Byte := sponge 168 0x1F n l
def shake256 (n : Nat) (l : List Byte) : List Byte := sponge 136 0x1F n l

/-! ### Polynomials of ML-KEM -/

/-- The modulus, and the number of polynomials in a vector. -/
def kemQ : Nat := 3329
def kemK : Nat := 4

/-- A polynomial's 256 coefficients, or those of its transform. -/
abbrev Poly := List Nat

def polyAdd (a b : Poly) : Poly := List.zipWith (fun x y => (x + y) % kemQ) a b
def polySub (a b : Poly) : Poly := List.zipWith (fun x y => (x + kemQ - y) % kemQ) a b
def polySum (l : List Poly) : Poly := l.foldl polyAdd (.replicate 256 0)

/-- Powers modulo the modulus, by n of the exponent's low bits. -/
def kemPowN (a : Nat) : Nat → Nat → Nat
  | 0, _ => 1
  | n + 1, e => (if e % 2 = 1 then a else 1) * kemPowN (a * a % kemQ) n (e / 2) % kemQ

def kemPow (a e : Nat) : Nat := kemPowN a 16 e

/-- Seven bits in the other order. -/
def bitRev7 (i : Nat) : Nat := ((List.range 7).map fun k => i / 2 ^ k % 2 * 2 ^ (6 - k)).sum

/-- The root of pair i of a transform: X squared less it divides the ring's polynomial (4.3). -/
def kemRoot (i : Nat) : Nat := kemPow 17 (2 * bitRev7 i + 1)

/-- The value of a polynomial with some coefficients, lowest first. -/
def horner (z : Nat) : List Nat → Nat
  | [] => 0
  | c :: r => (c + z * horner z r) % kemQ

/-- Every other entry from the first on. -/
def everyOther : List Nat → List Nat
  | [] => []
  | [a] => [a]
  | a :: _ :: r => a :: everyOther r

/-- The transform of a polynomial (4.3): for each root, the values of its even and of its odd coefficients. -/
def toNtt (f : Poly) : Poly :=
  let even := everyOther f
  let odd := everyOther (f.drop 1)
  (List.range 128).flatMap fun i => let z := kemRoot i; [horner z even, horner z odd]

/-- The polynomial of a transform: 3303 inverts 128. -/
def ofNtt (f : Poly) : Poly :=
  let roots := (List.range 128).map kemRoot
  let coeff (l : List Nat) (j : Nat) : Nat :=
    3303 * (List.zipWith (fun z c => kemPow z (256 - j) * c) roots l).sum % kemQ
  let even := everyOther f
  let odd := everyOther (f.drop 1)
  (List.range 128).flatMap fun j => [coeff even j, coeff odd j]

/-- The product of two transforms, pair by pair. -/
def nttTimesAt (i : Nat) : Poly → Poly → Poly
  | a :: b :: r, c :: d :: t =>
    [(a * c + b * d % kemQ * kemRoot i) % kemQ, (a * d + b * c) % kemQ] ++ nttTimesAt (i + 1) r t
  | _, _ => []

/-- The inner product of two vectors of transforms. -/
def nttDot (a b : List Poly) : Poly := polySum (List.zipWith (nttTimesAt 0) a b)

/-! ### Coding and sampling (4.2) -/

def bitsOfBytes (l : List Byte) : List Nat := l.flatMap fun b => (List.range 8).map fun k => b.toNat / 2 ^ k % 2

/-- Numbers of d bits each as bytes. -/
def encodePoly (d : Nat) (f : Poly) : List Byte := bytesOfNat (32 * d) (joinNat d f)

/-- The 256 numbers of d bits that bytes hold. -/
def decodePoly (d : Nat) (l : List Byte) : Poly :=
  let n := natOfBytes l
  (List.range 256).map fun i => n / 2 ^ (d * i) % 2 ^ d

/-- Part k of some bytes cut into polynomials of d bits a coefficient. -/
def polyPart (d : Nat) (l : List Byte) (k : Nat) : Poly := decodePoly d ((l.drop (32 * d * k)).take (32 * d))

def compress (d x : Nat) : Nat := (2 ^ (d + 1) * x + kemQ) / (2 * kemQ) % 2 ^ d
def decompress (d y : Nat) : Nat := (2 * kemQ * y + 2 ^ d) / 2 ^ (d + 1)

/-- The accepted numbers of a stream: two of 12 bits in every three bytes, those below the modulus. -/
def sampleFrom : List Byte → List Nat
  | a :: b :: c :: r =>
    [a.toNat + 256 * (b.toNat % 16), b.toNat / 16 + 16 * c.toNat].filter (decide <| · < kemQ) ++ sampleFrom r
  | _ => []

/-- An entry of the public matrix (Algorithm 7): 336 triples of the stream, more than the 280 that FIPS 203 asks for. -/
def sampleNtt (rho : List Byte) (j i : Nat) : Poly :=
  (sampleFrom (shake128 1008 (rho ++ [BitVec.ofNat 8 j, BitVec.ofNat 8 i]))).take 256

/-- Coefficients from bits, four of them each: the sum of two less the sum of two (Algorithm 8). -/
def sampleCbd : List Nat → Poly
  | a :: b :: c :: d :: r => (kemQ + a + b - c - d) % kemQ :: sampleCbd r
  | _ => []

/-- A noise polynomial of a seed and a number. -/
def noise (seed : List Byte) (n : Nat) : Poly := sampleCbd (bitsOfBytes (shake256 128 (seed ++ [BitVec.ofNat 8 n])))

/-! ### The key pair, encryption and decapsulation (5, 6) -/

/-- A vector of which each entry is given. -/
def kemVec (f : Nat → Poly) : List Poly := (List.range kemK).map f

/-- A key pair: the secret vector's transforms and the public key. -/
structure KemKey where
  secret : List Poly
  pub : List Byte

/-- The key pair of a seed (Algorithm 13). -/
def kemKeyOf (d : List Byte) : KemKey :=
  let g := sha3of512 (d ++ [BitVec.ofNat 8 kemK])
  let rho := g.take 32
  let sigma := g.drop 32
  let s := kemVec fun i => toNtt (noise sigma i)
  let t := kemVec fun i => polyAdd (nttDot (kemVec fun j => sampleNtt rho j i) s) (toNtt (noise sigma (kemK + i)))
  { secret := s, pub := t.flatMap (encodePoly 12) ++ rho }

/-- The encryption of a message of 32 bytes with given randomness (Algorithm 14). -/
def kemEncrypt (pub msg rand : List Byte) : List Byte :=
  let rho := pub.drop (384 * kemK)
  let t := kemVec (polyPart 12 pub)
  let y := kemVec fun i => toNtt (noise rand i)
  let u := kemVec fun i => polyAdd (ofNtt (nttDot (kemVec fun j => sampleNtt rho i j) y)) (noise rand (kemK + i))
  let v := polyAdd (polyAdd (ofNtt (nttDot t y)) (noise rand (2 * kemK))) ((decodePoly 1 msg).map (decompress 1))
  u.flatMap (fun p => encodePoly 11 (p.map (compress 11))) ++ encodePoly 5 (v.map (compress 5))

/-- The decryption of a ciphertext (Algorithm 15). -/
def kemDecrypt (secret : List Poly) (ct : List Byte) : List Byte :=
  let u := kemVec fun i => (polyPart 11 ct i).map (decompress 11)
  let v := (decodePoly 5 (ct.drop (352 * kemK))).map (decompress 5)
  encodePoly 1 ((polySub v (ofNtt (nttDot secret (u.map toNtt)))).map (compress 1))

/-- Decapsulation under the key pair of a seed of 64 bytes (Algorithms 16 and 18): the shared secret, or, for a ciphertext
that no encapsulation gives, a value of the seed's second half. -/
def kemDecaps (seed ct : List Byte) : List Byte :=
  let key := kemKeyOf (seed.take 32)
  let m := kemDecrypt key.secret ct
  let g := sha3of512 (m ++ sha3of256 key.pub)
  if kemEncrypt key.pub m (g.drop 32) = ct then g.take 32 else shake256 32 (seed.drop 32 ++ ct)

end Sys2Proof.Machine
end

