-- ==== Sys2Proof/Machine/System.lean ====
section
/-! DEFINITION. The system instructions of major 8 (R124, R125, R135, R163, R177, R181, R185) and the wait and
synchronisation instructions of major 9 (R155 to R161). -/

namespace Sys2Proof.Machine

def execNop (s : State) : Host.Outcome State Fault Refusal := .next s

/-- `halt` (R35, R124): the task ends after its bundle. -/
def execHalt (s : State) : Host.Outcome State Fault Refusal :=
  .next { s with iss := { s.iss with halt := true } }

/-- `trap imm` (R124): the bundle issues in full, and the software trap is then taken. -/
def execTrap (code : BitVec 16) (s : State) : Host.Outcome State Fault Refusal :=
  .next { s with iss := { s.iss with trapCode := some code } }

/-- The set flags that are enabled (R16, R124), before the flags of this cycle's other landings. -/
def RegFile.raised (r : RegFile) : BitVec 5 := r.flg.setWidth 5 &&& (r.flg >>> 8).setWidth 5

/-- `tfence` (R124): with an enabled flag set, the arithmetic trap is taken and the bundle does not issue. -/
def execTfence (s : State) : Host.Outcome State Fault Refusal :=
  .next (if s.rf.raised = 0 then s else s.trapHere 5 0 (s.rf.raised.setWidth 64))

/-- Makes the bundle in progress the start of the idempotent region (R185), at task privilege. -/
def State.markIdem (s : State) : State :=
  if s.cur.priv then s
  else s.modCtx s.iss.die s.iss.ctx fun c =>
    { c with idemPc := s.iss.p, idemBundle := s.iss.bundle, snapDepth := c.task.depth, snapFmt := c.task.fmt
             snapLoops := c.task.loops, snapMasks := c.task.masks
             task := ((c.task.touch 0).touch 3).touch 4 }

def execIdem (s : State) : Host.Outcome State Fault Refusal := .next s.markIdem

/-- `idem.chk` (R185): as `idem`, and a branch taken when the request stood at the start of the cycle. -/
def execIdemChk (off : BitVec 18) (s : State) : Host.Outcome State Fault Refusal :=
  .next (s.markIdem.branch (s.cur.reqAt s.cycle) (s.branchTarget off))

/-- `phase n` (R163): the context's phase from the end of this cycle on. -/
def execPhase (n : Fin 64) (s : State) : Host.Outcome State Fault Refusal :=
  .next (s.modCtx s.iss.die s.iss.ctx fun c => { c with phaseNew := some n })

/-- `ctxsw a` (R177): the switch follows the bundle; reserved operand bits change nothing but the status. -/
def execCtxsw (a : Src) (s : State) : Host.Outcome State Fault Refusal :=
  .next (if !s.cur.priv then s.trapIllegal
    else if bits (s.src a) 3 7 ≠ 0 then s.modCtx s.iss.die s.iss.ctx fun c => { c with rsStatus := 5 }
    else { s with iss := { s.iss with ctxsw := some (s.src a) } })

/-- `eret` (R135): the return follows the bundle. -/
def execEret (s : State) : Host.Outcome State Fault Refusal :=
  .next (if s.cur.priv && s.cur.trapEnter then { s with iss := { s.iss with eret := true } } else s.trapIllegal)

/-- `icinv a` (R181): a line, or the whole cache, is invalid for the fetches from the second cycle on. -/
def execIcinv (a : Src) (s : State) : Host.Outcome State Fault Refusal :=
  .next (if !s.cur.priv then s.trapIllegal
    else
      let what := if bitAt (s.src a) 0 then none else some (s.srcN a / 64)
      s.modDie s.iss.die fun x =>
        let seq := x.seq
        { x with seq := { seq with icInv := seq.icInv ++ [(s.cycle + 1, what)] } })

/-! ### Major 9 -/

/-- The tokens a `wait.tok` names (R157). -/
def tokIds : TokList → List TokId
  | .one a => [a]
  | .two a b => [a, b]
  | .three a b c => [a, b, c]

def execWaitTok (ts : TokList) (s : State) : Host.Outcome State Fault Refusal :=
  .next (s.addWait (.tokens (tokIds ts)))

/-- `wait.any` (R158): the mask is read in the issue cycle. -/
def execWaitAny (a : Src) (s : State) : Host.Outcome State Fault Refusal :=
  .next (s.addWait (.any (s.src a)))

def execWaitFold (f : FoldId) (ph : Bool) (s : State) : Host.Outcome State Fault Refusal :=
  .next (s.addWait (.fold f ph))

/-- `arrive` (R160): the low 32 bits of a are added ten cycles after issue. -/
def execArrive (f : FoldId) (a : Src) (s : State) : Host.Outcome State Fault Refusal :=
  .next (s.sched (s.cycle + 10) .arrivePerform
    { die := s.iss.die, ctx := s.iss.ctx, fold := f, val := s.src a &&& 0xFFFFFFFF, seq := s.iss.bundle })

/-- `fold.set.bytes` (R161): performs ten cycles after issue. -/
def execFoldSetBytes (f : FoldId) (a : Src) (s : State) : Host.Outcome State Fault Refusal :=
  .next (s.sched (s.cycle + 10) .foldSetPerform
    { die := s.iss.die, ctx := s.iss.ctx, fold := f, val := s.src a &&& 0xFFFFFFFF, seq := s.iss.bundle, arr := false })

/-- `fold.set.arr` (R161). -/
def execFoldSetArr (f : FoldId) (a : Src) (s : State) : Host.Outcome State Fault Refusal :=
  .next (s.sched (s.cycle + 10) .foldSetPerform
    { die := s.iss.die, ctx := s.iss.ctx, fold := f, val := s.src a &&& 0xFFFFFFFF, seq := s.iss.bundle, arr := true })

/-- `tok.clr` (R161): the masked tokens that were done or error at the start of the cycle become free at its end. -/
def execTokClr (a : Src) (s : State) : Host.Outcome State Fault Refusal :=
  let m := s.src a
  let hit := (List.finRange 64).filter fun t =>
    bitAt m t.val && (s.cur.tok[t] == .done || s.cur.tok[t] == .error)
  .next (s.modDie s.iss.die fun x => { x with tokEvts := x.tokEvts ++ hit.map fun t => (s.iss.ctx, t, .free) })

def execYield (s : State) : Host.Outcome State Fault Refusal := .next (s.addWait .yield)

end Sys2Proof.Machine
end

