-- ==== Sys2Proof/Machine/RouteOps.lean ====
section
/-! DEFINITION. The modifying syllables (R84 to R90) and the route instructions of major 17 (R204, R209 to R212). -/

namespace Sys2Proof.Machine

/-- A prefix (R85, R87): its fields hold for the next syllable of the bundle. -/
def execPfx (p : Pfx) (s : State) : Host.Outcome State Fault Refusal :=
  .next { s with iss := { s.iss with pfx := some p } }

/-- Consecutive pool words from an address on (R90). -/
def State.poolWords (s : State) (va : Word) (n : Nat) : List Word :=
  (List.range n).map fun k => s.poolWord (va + BitVec.ofNat 64 (8 * k))

/-- The setting of the route block at an address, if it passes its check; its length comes from the referencing
syllable, or from its header (R203, R205, R210). -/
def State.blockAt (s : State) (va : Word) (len : Option Nat) : Option Route :=
  routeBlock (s.poolWords va (len.getD (blockWords (s.poolWord va)))) len

/-- A route block that a bundle references fails its check: the bundle does not issue and the task is lost (R204). -/
def State.loseRoute (s : State) (va : Word) : State :=
  let d := s.iss.die
  let s := s.modDie d fun x =>
    let st := x.stat
    { x with stat := { st with routeFails := if st.routeFails = BitVec.allOnes 32 then st.routeFails
                                             else st.routeFails + 1 } }
  s.loseTask d s.iss.ctx s.iss.p (BitVec.ofNat 64 (field va.toNat 16 48 + 4)) []

/-- The pool address of a route syllable of mode 2 (R88). -/
def State.routeAddr (s : State) (off : BitVec 24) : Word := poolAddr s.iss.p (signExt off)

/-- The setting that a route syllable selects (R89, R205). -/
def State.routeOf (s : State) (src : RouteSrc) : Option Route :=
  match src with
  | .identity => some 0
  | .bpc desc => some (bpcRoute desc)
  | .pool len off => s.blockAt (s.routeAddr off) (some len.toNat)
  | .reg x => some s.cur.x[x]

/-- A bundle route syllable (R88, R89): its setting is captured for the bundle's use of its network. -/
def execBundleRoute (write : Bool) (far : BitVec 16) (src : RouteSrc) (s : State) :
    Host.Outcome State Fault Refusal :=
  .next (match s.routeOf src with
    | some r =>
      let set : Setting := { bits := r, far := far }
      { s with iss := if write then { s.iss with wrRoute := some set } else { s.iss with rdRoute := some set } }
    | none => s.loseRoute (match src with
      | .pool _ off => s.routeAddr off
      | _ => 0))

def execRteLd (xd : Fin 32) (off : BitVec 15) (s : State) : Host.Outcome State Fault Refusal :=
  let va := poolAddr s.iss.p (signExt off)
  .next (match s.blockAt va none with
    | some r => s.land 4 slotRC (.route xd r)
    | none => s.loseRoute va)

/-- `rte.bpc` (R202, R210): an invalid descriptor gives the identity. -/
def execRteBpc (xd : Fin 32) (a : Src) (s : State) : Host.Outcome State Fault Refusal :=
  let d := (s.src a).setWidth 32
  .next (s.land 4 slotRC (.route xd (if bpcValid d then bpcRoute d else 0)))

/-- `rte.solve` (R211): the setting of the pass, and the status word. -/
def execRteSolve (xd : Fin 32) (sd : Dst) (va sp : Src) (s : State) : Host.Outcome State Fault Refusal :=
  let l := lanes (s.vsrc va)
  .next ((s.land 24 slotRC (.route xd (passSetting l (s.srcN sp)))).land 24 slotRC (.scalar sd (solveStatus l)))

def execRteMv (xd xa : Fin 32) (s : State) : Host.Outcome State Fault Refusal :=
  .next (s.land 4 slotRC (.route xd s.cur.x[xa]))

/-- `rte.pass` (R211): all ones in the lanes that the pass serves. -/
def execRtePass (vd : Dst) (va sp : Src) (s : State) : Host.Outcome State Fault Refusal :=
  let k := s.srcN sp
  let l := (ranks (lanes (s.vsrc va))).map fun r => if r = some k then 2 ^ 32 - 1 else 0
  .next (s.land 24 slotRC (.vector vd (ofLanes l) (BitVec.allOnes 256)))

/-- `rte.st` (R212): a store of 32 words that commits at c+9 through the write network. -/
def execRteSt (a : Src) (xs : Fin 32) (s : State) : Host.Outcome State Fault Refusal :=
  .next (s.access 9 .netWrite slotRC (s.clsOf 0) none (.routeStore (s.src a &&& ~~~7) s.cur.x[xs]))

end Sys2Proof.Machine
end

