-- ==== Sys2Proof/Machine/VecArith.lean ====
section
/-! DEFINITION. Vector arithmetic, compares and the mask stack: majors 10, 11 and 12 (R216 to R227). -/

namespace Sys2Proof.Machine

/-! ### Element-wise computation (R217) -/

/-- The results of elements and the flags of all of them. -/
def collect (w : Nat) (l : List (Nat × Flg)) : VReg × Flg :=
  (ofElems w (l.map (·.1)), l.foldl (fun acc x => acc ||| x.2) 0)

/-- One element operation on every element of one source. -/
def mapElems (w : Nat) (f : Nat → Nat × Flg) (a : VReg) : VReg × Flg := collect w ((elems w a).map f)

/-- One element operation on every pair of elements of two sources. -/
def zipElems (w : Nat) (f : Nat → Nat → Nat × Flg) (a b : VReg) : VReg × Flg :=
  collect w (List.zipWith f (elems w a) (elems w b))

/-- Lands a vector result in `lat` cycles through the mask in effect (R218), with its flags. -/
def State.vecLand (s : State) (lat : Nat) (d : Dst) (r : VReg × Flg) : State :=
  s.landF lat s.vecSlot (.vector d r.1 s.rf.mask) r.2

/-- Lands all 256 lanes of a vector result, whatever the mask. -/
def State.vecLandAll (s : State) (lat slot : Nat) (d : Dst) (r : VReg × Flg) : State :=
  s.landF lat slot (.vector d r.1 (BitVec.allOnes 256)) r.2

/-- A vector source taken through its modifier. -/
def State.vmodSrc (s : State) (a : Src) (m : Mod) : VReg := modVec m (s.vsrc a)

/-- The two sources of a form with two modifiers. -/
def State.srcs2 (s : State) (a b : Src) (w : Option (Mod × Mod)) : VReg × VReg :=
  (s.vmodSrc a (fstMod w), s.vmodSrc b (sndMod w))

/-- An element-wise instruction of two sources (R217). -/
def State.vec2 (s : State) (lat : Nat) (t : Ty) (d : Dst) (a b : Src) (w : Option (Mod × Mod))
    (f : Nat → Nat → Nat × Flg) : State :=
  let v := s.srcs2 a b w
  s.vecLand lat d (zipElems t.width f v.1 v.2)

/-- An element-wise instruction of one source (R217). -/
def State.vec1 (s : State) (lat : Nat) (t : Ty) (d : Dst) (a : Src) (w : Option Mod) (f : Nat → Nat × Flg) : State :=
  s.vecLand lat d (mapElems t.width f (s.vmodSrc a (w.getD .none)))

/-! ### Floating point (R220, R221) -/

/-- Rounds an exact result to its format, with the flags of its computation. -/
def roundRes (t : Ty) (c : FmtCap) (r : Val × Flg) : Nat × Flg :=
  let e := roundVal (fmtOf t) c.rnd c.flush r.1
  (e.1, e.2 ||| r.2)

/-- An operand element of a floating-point operation. -/
def fop (t : Ty) (c : FmtCap) (x : Nat) : Val := operandF (fmtOf t) c.flush x

def fpAdd (t : Ty) (c : FmtCap) (a b : Nat) : Nat × Flg := roundRes t c (addVal c.rnd (fop t c a) (fop t c b))

def fpSub (t : Ty) (c : FmtCap) (a b : Nat) : Nat × Flg := roundRes t c (addVal c.rnd (fop t c a) (fop t c b).flip)

def fpMul (t : Ty) (c : FmtCap) (a b : Nat) : Nat × Flg := roundRes t c (mulVal (fop t c a) (fop t c b))

def fpFma (t : Ty) (c : FmtCap) (x y z : Nat) : Nat × Flg :=
  roundRes t c (fmaVal c.rnd (fop t c x) (fop t c y) (fop t c z))

def fpMax (t : Ty) (c : FmtCap) (a b : Nat) : Nat × Flg := roundRes t c (maxMinVal true (fop t c a) (fop t c b))

def fpMin (t : Ty) (c : FmtCap) (a b : Nat) : Nat × Flg := roundRes t c (maxMinVal false (fop t c a) (fop t c b))

def fpSqrt (t : Ty) (c : FmtCap) (a : Nat) : Nat × Flg := roundRes t c (sqrtVal (fop t c a))

def fpDiv (t : Ty) (c : FmtCap) (a b : Nat) : Nat × Flg := roundRes t c (divVal (fop t c a) (fop t c b))

/-- The sign bit cleared; no flush and no flag (R221). -/
def fpAbs (t : Ty) (a : Nat) : Nat × Flg := noFlag (a % 2 ^ (t.width - 1))

/-- The sign bit inverted (R221). -/
def fpNeg (t : Ty) (a : Nat) : Nat × Flg := noFlag (Nat.xor (a % 2 ^ t.width) (2 ^ (t.width - 1)))

def execVaddF (t : Ty) (d : Dst) (a b : Src) (w : Option (Mod × Mod)) (s : State) :
    Host.Outcome State Fault Refusal := .next (s.vec2 4 t d a b w (fpAdd t s.cap))

def execVsubF (t : Ty) (d : Dst) (a b : Src) (w : Option (Mod × Mod)) (s : State) :
    Host.Outcome State Fault Refusal := .next (s.vec2 4 t d a b w (fpSub t s.cap))

def execVmulF (t : Ty) (d : Dst) (a b : Src) (w : Option (Mod × Mod)) (s : State) :
    Host.Outcome State Fault Refusal := .next (s.vec2 4 t d a b w (fpMul t s.cap))

/-- The fused multiply-add of three vectors. -/
def State.vecFma (s : State) (t : Ty) (d : Dst) (a b c : VReg) : State :=
  let w := t.width
  s.vecLand 4 d (collect w (List.zipWith (fun x f => f x) (elems w c)
    (List.zipWith (fun x y z => fpFma t s.cap x y z) (elems w a) (elems w b))))

/-- `vfma`, 32-bit form: the addend is the register named by d, read at issue. -/
def execVfma (t : Ty) (d : Fin 16) (a b : Src) (s : State) : Host.Outcome State Fault Refusal :=
  .next (s.vecFma t (.named d) (s.vsrc a) (s.vsrc b) (s.vsrc (.named d)))

def execVfmaVw (t : Ty) (d : Dst) (a b c : Src) (ma mb mc : Mod) (s : State) : Host.Outcome State Fault Refusal :=
  .next (s.vecFma t d (s.vmodSrc a ma) (s.vmodSrc b mb) (s.vmodSrc c mc))

def execVmaxF (t : Ty) (d : Dst) (a b : Src) (w : Option (Mod × Mod)) (s : State) :
    Host.Outcome State Fault Refusal := .next (s.vec2 4 t d a b w (fpMax t s.cap))

def execVminF (t : Ty) (d : Dst) (a b : Src) (w : Option (Mod × Mod)) (s : State) :
    Host.Outcome State Fault Refusal := .next (s.vec2 4 t d a b w (fpMin t s.cap))

def execVabsF (t : Ty) (d : Dst) (a : Src) (w : Option Mod) (s : State) : Host.Outcome State Fault Refusal :=
  .next (s.vec1 4 t d a w (fpAbs t))

def execVnegF (t : Ty) (d : Dst) (a : Src) (w : Option Mod) (s : State) : Host.Outcome State Fault Refusal :=
  .next (s.vec1 4 t d a w (fpNeg t))

def execVsqrt (t : Ty) (d : Dst) (a : Src) (w : Option Mod) (s : State) : Host.Outcome State Fault Refusal :=
  .next (s.vec1 4 t d a w (fpSqrt t s.cap))

def execVdiv (t : Ty) (d : Dst) (a b : Src) (w : Option (Mod × Mod)) (s : State) :
    Host.Outcome State Fault Refusal := .next (s.vec2 4 t d a b w (fpDiv t s.cap))

/-! ### Integer and bitwise (R222, R223) -/

def execVaddI (t : Ty) (d : Dst) (a b : Src) (w : Option (Mod × Mod)) (s : State) :
    Host.Outcome State Fault Refusal := .next (s.vec2 2 t d a b w (intAdd t s.cap.sat))

def execVsubI (t : Ty) (d : Dst) (a b : Src) (w : Option (Mod × Mod)) (s : State) :
    Host.Outcome State Fault Refusal := .next (s.vec2 2 t d a b w (intSub t s.cap.sat))

def execVmulI (t : Ty) (d : Dst) (a b : Src) (w : Option (Mod × Mod)) (s : State) :
    Host.Outcome State Fault Refusal := .next (s.vec2 2 t d a b w (intMul t s.cap.sat))

def execVmulh (t : Ty) (d : Dst) (a b : Src) (w : Option (Mod × Mod)) (s : State) :
    Host.Outcome State Fault Refusal := .next (s.vec2 2 t d a b w fun x y => noFlag (intMulh t x y))

/-- A bitwise operation on whole vectors, whatever the type. -/
def State.vecBits (s : State) (d : Dst) (a b : Src) (w : Option (Mod × Mod)) (f : VReg → VReg → VReg) : State :=
  let v := s.srcs2 a b w
  s.vecLand 2 d (f v.1 v.2, 0)

def execVand (_t : Ty) (d : Dst) (a b : Src) (w : Option (Mod × Mod)) (s : State) :
    Host.Outcome State Fault Refusal := .next (s.vecBits d a b w fun x y => x &&& y)

def execVor (_t : Ty) (d : Dst) (a b : Src) (w : Option (Mod × Mod)) (s : State) :
    Host.Outcome State Fault Refusal := .next (s.vecBits d a b w fun x y => x ||| y)

def execVxor (_t : Ty) (d : Dst) (a b : Src) (w : Option (Mod × Mod)) (s : State) :
    Host.Outcome State Fault Refusal := .next (s.vecBits d a b w fun x y => x ^^^ y)

def execVandn (_t : Ty) (d : Dst) (a b : Src) (w : Option (Mod × Mod)) (s : State) :
    Host.Outcome State Fault Refusal := .next (s.vecBits d a b w fun x y => x &&& ~~~y)

def execVshl (t : Ty) (d : Dst) (a b : Src) (w : Option (Mod × Mod)) (s : State) :
    Host.Outcome State Fault Refusal := .next (s.vec2 2 t d a b w (intShl t s.cap.sat))

def execVshr (t : Ty) (d : Dst) (a b : Src) (w : Option (Mod × Mod)) (s : State) :
    Host.Outcome State Fault Refusal := .next (s.vec2 2 t d a b w fun x y => noFlag (intShr t x y))

def execVsar (t : Ty) (d : Dst) (a b : Src) (w : Option (Mod × Mod)) (s : State) :
    Host.Outcome State Fault Refusal := .next (s.vec2 2 t d a b w fun x y => noFlag (intSar t x y))

def execVminI (t : Ty) (d : Dst) (a b : Src) (w : Option (Mod × Mod)) (s : State) :
    Host.Outcome State Fault Refusal := .next (s.vec2 2 t d a b w fun x y => noFlag (intMin t x y))

def execVmaxI (t : Ty) (d : Dst) (a b : Src) (w : Option (Mod × Mod)) (s : State) :
    Host.Outcome State Fault Refusal := .next (s.vec2 2 t d a b w fun x y => noFlag (intMax t x y))

def execVabsI (t : Ty) (d : Dst) (a : Src) (w : Option Mod) (s : State) : Host.Outcome State Fault Refusal :=
  .next (s.vec1 2 t d a w (intAbs t s.cap.sat))

def execVnegI (t : Ty) (d : Dst) (a : Src) (w : Option Mod) (s : State) : Host.Outcome State Fault Refusal :=
  .next (s.vec1 2 t d a w (intNeg t s.cap.sat))

/-- `vsel` (R223): (A AND C) OR (B AND NOT C) on every bit; the modifiers are those of a, b and c. -/
def execVsel (d : Dst) (c a b : Src) (w : Option (Mod × Mod × Mod)) (s : State) :
    Host.Outcome State Fault Refusal :=
  let m := w.getD (.none, .none, .none)
  let va := s.vmodSrc a m.1
  let vb := s.vmodSrc b m.2.1
  let vc := s.vmodSrc c m.2.2
  .next (s.vecLand 2 d ((va &&& vc) ||| (vb &&& ~~~vc), 0))

def execVmov (d : Dst) (a : Src) (w : Option Mod) (s : State) : Host.Outcome State Fault Refusal :=
  .next (s.vecLand 2 d (s.vmodSrc a (w.getD .none), 0))

/-- `vbcast` (R223): every element is the low w bits of the scalar. -/
def execVbcast (t : Ty) (d : Dst) (a : Src) (_wide : Bool) (s : State) : Host.Outcome State Fault Refusal :=
  .next (s.vecLand 2 d (ofElems t.width (List.replicate (8192 / t.width) (s.srcN a)), 0))

/-! ### Compares (R224) -/

/-- How two elements compare: none when unordered; and the flag of a NaN input. -/
def cmpElem (t : Ty) (flush quiet : Bool) (a b : Nat) : Option Ordering × Flg :=
  let x := elemVal t flush a
  let y := elemVal t flush b
  if x.isNan || y.isNan then (none, if quiet then sigFlag x ||| sigFlag y else fInvalid)
  else (some (cmpVal x y), 0)

/-- The compares of major 12. -/
inductive VCmp where
  | eq | ne | lt | le | un
  deriving DecidableEq, Repr

/-- Whether a condition holds of a comparison. -/
def VCmp.holds (k : VCmp) (r : Option Ordering) : Bool :=
  match k, r with
  | .eq, some .eq => true
  | .ne, some .eq => false
  | .ne, _ => true
  | .lt, some .lt => true
  | .le, some .lt | .le, some .eq => true
  | .un, none => true
  | _, _ => false

/-- One element of a compare: all ones or zero, and its flags. -/
def cmpRes (k : VCmp) (t : Ty) (flush : Bool) (a b : Nat) : Nat × Flg :=
  let r := cmpElem t flush (k != .lt && k != .le) a b
  (if k.holds r.1 then 2 ^ t.width - 1 else 0, r.2)

/-- The number of lanes that are not zero (R219). -/
def laneCount (v : VReg) : BitVec 9 := BitVec.ofNat 9 ((lanes v).filter (· != 0)).length

/-- Lands a compare result at c+2 and its wide flag set at c+3 (R219). -/
def State.vecLandWide (s : State) (d : Dst) (r : VReg × Flg) : State :=
  (s.vecLand 2 d r).land 3 s.vecSlot (.wide s.vecFlags (laneCount r.1))

/-- A compare (R224): the flush bit is that of ctl.fmt, since no prefix is accepted. -/
def State.vecCmp (s : State) (k : VCmp) (t : Ty) (d : Dst) (a b : Src) (w : Option (Mod × Mod)) : State :=
  let v := s.srcs2 a b w
  s.vecLandWide d (zipElems t.width (cmpRes k t s.cap.flush) v.1 v.2)

def execVceq (t : Ty) (d : Dst) (a b : Src) (w : Option (Mod × Mod)) (s : State) :
    Host.Outcome State Fault Refusal := .next (s.vecCmp .eq t d a b w)

def execVcne (t : Ty) (d : Dst) (a b : Src) (w : Option (Mod × Mod)) (s : State) :
    Host.Outcome State Fault Refusal := .next (s.vecCmp .ne t d a b w)

def execVclt (t : Ty) (d : Dst) (a b : Src) (w : Option (Mod × Mod)) (s : State) :
    Host.Outcome State Fault Refusal := .next (s.vecCmp .lt t d a b w)

def execVcle (t : Ty) (d : Dst) (a b : Src) (w : Option (Mod × Mod)) (s : State) :
    Host.Outcome State Fault Refusal := .next (s.vecCmp .le t d a b w)

def execVcun (t : Ty) (d : Dst) (a b : Src) (w : Option (Mod × Mod)) (s : State) :
    Host.Outcome State Fault Refusal := .next (s.vecCmp .un t d a b w)

/-! ### The mask stack (R128, R225, R226) -/

/-- The condition of `mpush` and `mset`: the lanes that are not zero. -/
def condMask (v : VReg) : Mask := ofMaskBits ((lanes v).map (· != 0))

/-- Sets the issue depth of the mask stack in use (R226). -/
def State.setIssueDepth (s : State) (n : Nat) : State :=
  s.modCtx s.iss.die s.iss.ctx fun c => c.modFile c.priv fun r => { r with depthIssue := n }

/-- `mpush`: above depth 8 the mask-stack trap is taken and the stack is unchanged (R128). -/
def execMpush (a : Src) (w : Option Mod) (s : State) : Host.Outcome State Fault Refusal :=
  .next (if 8 ≤ s.rf.depthIssue then s.trapHere 6 0 1
    else (s.land 3 s.vecSlot (.mpush (condMask (s.vmodSrc a (w.getD .none))))).setIssueDepth (s.rf.depthIssue + 1))

def execMinv (_wide : Bool) (s : State) : Host.Outcome State Fault Refusal := .next (s.land 3 s.vecSlot .minv)

/-- `mpop`: at depth 1 the mask-stack trap is taken (R128). -/
def execMpop (_wide : Bool) (s : State) : Host.Outcome State Fault Refusal :=
  .next (if s.rf.depthIssue ≤ 1 then s.trapHere 6 0 0
    else (s.land 3 s.vecSlot .mpop).setIssueDepth (s.rf.depthIssue - 1))

def execMset (a : Src) (w : Option Mod) (s : State) : Host.Outcome State Fault Refusal :=
  .next (s.land 3 s.vecSlot (.mset (condMask (s.vmodSrc a (w.getD .none)))))

/-- `mget`: the mask in effect at issue, as all ones or zero in each lane, not merged. -/
def execMget (d : Dst) (_wide : Bool) (s : State) : Host.Outcome State Fault Refusal :=
  .next (s.vecLandAll 2 s.vecSlot d
    (ofLanes ((maskBits s.rf.mask).map fun b => if b then 2 ^ 32 - 1 else 0), 0))

end Sys2Proof.Machine
end

