-- ==== Sys2Proof/Machine/VecData.lean ====
section
/-! DEFINITION. Conversion, packing and quantising, logic simulation and vector bank memory: majors 13, 14 and 15
(R228 to R244). -/

namespace Sys2Proof.Machine

/-! ### Conversion and packing (R229, R230) -/

/-- `vcvt` (R229): a narrowing conversion takes from its result only the elements of its part. -/
def execVcvt (dt st : Ty) (d : Dst) (a : Src) (w : Option (Mod × BitVec 2)) (s : State) :
    Host.Outcome State Fault Refusal :=
  let p := (w.map fun x => x.2.toNat).getD 0
  let v := s.vmodSrc a ((w.map (·.1)).getD .none)
  let ws := st.width
  let wd := dt.width
  let n := 8192 / max ws wd
  let conv := convert st dt (s.cap.rnd, s.cap.sat, s.cap.flush)
  .next (if ws ≤ wd then
      s.vecLand 4 d (collect wd ((((elems ws v).drop (p * n)).take n).map conv))
    else
      let r := (elems ws v).map conv
      let shift := p * n * wd
      let out : VReg := BitVec.ofNat 8192 (joinNat wd (r.map (·.1)) * 2 ^ shift)
      let take : VReg := BitVec.ofNat 8192 ((2 ^ (n * wd) - 1) * 2 ^ shift)
      s.landF 4 s.vecSlot (.part d out s.rf.mask take) (r.foldl (fun acc x => acc ||| x.2) 0))

/-- `vpack` (R230): the low w bits of the 2w-bit elements of A and then of B. -/
def execVpack (t : Ty) (d : Dst) (a b : Src) (w : Option (Mod × Mod)) (s : State) :
    Host.Outcome State Fault Refusal :=
  let v := s.srcs2 a b w
  let n := t.width
  .next (s.vecLand 4 d (ofElems n ((elems (2 * n) v.1 ++ elems (2 * n) v.2).map (· % 2 ^ n)), 0))

/-- `vunpk` (R230): the w-bit elements of a part, widened to 2w bits. -/
def execVunpk (t : Ty) (d : Dst) (a : Src) (w : Option (Mod × BitVec 2)) (s : State) :
    Host.Outcome State Fault Refusal :=
  let p := (w.map fun x => x.2.toNat).getD 0
  let v := s.vmodSrc a ((w.map (·.1)).getD .none)
  let n := t.width
  let m := 8192 / (2 * n)
  .next (s.vecLand 4 d (ofElems (2 * n) ((((elems n v).drop (p * m)).take m).map fun x =>
    if t = .s8 || t = .s16 then lowBits (2 * n) (toSigned n x) else x), 0))

/-! ### Quantising (R231 to R233) -/

/-- Whether a value is finite and not zero. -/
def Val.isNum : Val → Bool
  | .fin _ _ _ _ => true
  | _ => false

/-- The larger and the smaller of two magnitudes. -/
def maxMag (a b : Val) : Val := if cmpVal a b == .lt then b else a

def minMag (a b : Val) : Val := if cmpVal a b == .lt then a else b

/-- The block starts of R231 and the largest magnitude of each block, newest block first; `cur` is the number of
elements done and `lo`, `hi` are the bounds of the open block. -/
def quantBlocks (ratio : Val) : List Val → Bool → Val → Val → List (Bool × Val) → List (Bool × Val)
  | [], _, _, _, acc => acc
  | x :: r, first, lo, hi, acc =>
    let m := x.absVal
    if x.isNum then
      let cut := !first && cmpVal (maxMag hi m) (mulExact ratio (minMag lo m)).1 == .gt
      if cut then quantBlocks ratio r false m m ((true, m) :: acc)
      else
        let hi' := maxMag hi m
        quantBlocks ratio r false (minMag lo m) hi' ((first, hi') :: acc)
    else quantBlocks ratio r false lo hi ((first, hi) :: acc)

/-- Gives every element the largest magnitude of its whole block: the list is newest first, so the last element of a
block carries it. -/
def spreadHi : List (Bool × Val) → Option Val → List (Bool × Val)
  | [], _ => []
  | (b, h) :: r, cur =>
    let hi := cur.getD h
    (b, hi) :: spreadHi r (if b then none else some hi)

/-- The scale of a block (R232). -/
def quantScale (hi : Val) (dt : Ty) : Nat :=
  match hi with
  | .fin _ n d e =>
    let k := if dt = .s8 then 127 else if dt = .z8 then 255 else 1
    min (roundVal fmtF16 .ru false (.fin false n (d * k) e)).1 0x7BFF
  | _ => 0x3C00

/-- The ratio of R231 and its flag. -/
def quantRatio (r : Val) : Val × Flg :=
  let one : Val := .fin false 1 1 0
  match r with
  | .nan _ => (one, fInvalid)
  | v => if cmpVal v one == .lt then (one, fInvalid) else (v, 0)

/-- `vquant` (R231 to R233): codes, bitmap, scales and block count, whatever the mask. -/
def execVquant (dt : Ty) (d : Dst) (a b : Src) (w : Option (Mod × Mod)) (s : State) :
    Host.Outcome State Fault Refusal :=
  let v := s.srcs2 a b w
  let c := s.cap
  let ratio := quantRatio (fop .f32 c ((lanes v.2).headD 0))
  let xs := (lanes v.1).map (fop .f32 c)
  let blocks := (spreadHi (quantBlocks ratio.1 xs true (.inf false) (.zero false) []) none).reverse
  let codes := List.zipWith (fun x (k : Bool × Val) =>
    let q := divVal x (decodeF fmtF16 (quantScale k.2 dt))
    if dt = .d8 then toD8 c.rnd c.sat q.1 else toIntType dt c.rnd c.sat q.1) xs blocks
  let scales := (blocks.filter (·.1)).map fun k => quantScale k.2 dt
  let img := joinNat 8 (codes.map (·.1)) + 2 ^ 2048 * joinNat 1 (blocks.map fun k => k.1.toNat)
    + 2 ^ 2304 * joinNat 16 scales + 2 ^ 8160 * scales.length
  .next (s.vecLandAll 4 s.vecSlot d
    (BitVec.ofNat 8192 img, codes.foldl (fun acc x => acc ||| x.2) ratio.2))

/-! ### Logic simulation (R234 to R239) -/

/-- The truth table of a gate type on a die. -/
def Die.gate (x : Die) (g : Nat) : BitVec 512 := Sparse.read x.truth Config.truthDefault g

/-- The output index of element j of a gate's inputs (R234). -/
def gateIndex (q0 q1 q2 q3 : Nat) : Nat := q0 % 4 + 4 * (q1 % 4) + 16 * (q2 % 4) + 64 * (q3 % 4)

/-- Output i of a truth table. -/
def gateOut (e : BitVec 512) (i : Nat) : Nat := e.toNat / 2 ^ (2 * i) % 4

/-- The gate type and output index of each of the 4,096 elements of a `vlut`. -/
def lutElems (q0 q1 q2 q3 t : VReg) : List (Nat × Nat) :=
  let idx := List.zipWith (fun a f => f a) (elems 2 q3) (List.zipWith (fun a f => f a) (elems 2 q2)
    (List.zipWith (fun a b c d => gateIndex a b c d) (elems 2 q0) (elems 2 q1)))
  List.zip ((lanes t).flatMap fun x => List.replicate 16 (x % 256)) idx

/-- The 64-bit words of the truth-table memory that a `vlut` reads, by 8 × gate type + word. -/
def lutWords (l : List (Nat × Nat)) : List Nat := l.map fun e => 8 * e.1 + e.2 / 32

/-- Counts a corrected error of the bank words of a die (R189, R214). -/
def ClusterStat.corrected (st : ClusterStat) : ClusterStat :=
  { st with eccCorrected := if st.eccCorrected = BitVec.allOnes 32 then st.eccCorrected else st.eccCorrected + 1 }

/-- Counts an uncorrectable bank word read (R189, R214). -/
def ClusterStat.uncorrected (st : ClusterStat) : ClusterStat :=
  { st with eccUncorrected :=
    if st.eccUncorrected = BitVec.allOnes 32 then st.eccUncorrected else st.eccUncorrected + 1 }

/-- Counts errors of the register cache or of operand memory in tm_errors (R375): one corrected, or one uncorrectable. -/
def Die.countTm (x : Die) (m : EccMark) : Die :=
  { x with boot := match m with
    | .single => { x.boot with tmCorrected := satInc x.boot.tmCorrected }
    | .double => { x.boot with tmUncorrected := satInc x.boot.tmUncorrected } }

/-- Reads some lines of a partition of a context (R175, R375): each correctable error is corrected and counted, and the
first uncorrectable line, if there is one, is counted and named. -/
def Die.readLines (x : Die) (n : CtxId) (hnd : Bool) (lines : List Nat) : Die × Option Nat :=
  if x.regBad.isEmpty then (x, none)
  else
    let hit := x.regBad.filter fun e => e.ctx == n && e.hnd == hnd && lines.contains e.line
    let y := { x with regBad := x.regBad.filter fun e =>
      !(e.ctx == n && e.hnd == hnd && lines.contains e.line && e.mark == .single) }
    (hit.foldl (fun y e => y.countTm e.mark) y, (hit.find? fun e => e.mark == .double).map (·.line))

/-- A task ends as lost by an uncorrectable word (R189, R234, R175): the source, and the address, type or line. -/
def State.loseWord (s : State) (d : DieId) (c : CtxId) (pc : Word) (source what : Nat) : State :=
  s.loseTask d c pc (BitVec.ofNat 64 (field source 62 2 + field what 16 27 + 3)) []

/-- Corrects the single-bit errors of truth-table words that are read, and counts them. -/
def Die.scrubTruth (x : Die) (ws : List Nat) : Die :=
  let hit := x.truthBad.filter fun e => e.2 == .single && ws.contains e.1
  { x with truthBad := x.truthBad.filter fun e => !(e.2 == .single && ws.contains e.1)
           stat := hit.foldl (fun st _ => st.corrected) x.stat }

/-- `vlut.l2` (R234, R236): the registers of the quad and the table are read at issue. Single-bit errors of the words read
are corrected and counted; an uncorrectable one ends the task as lost once its bundle has issued as a whole (R70). -/
def execVlut (d : Dst) (a : Fin 13) (b : Src) (w : Option Mod) (s : State) : Host.Outcome State Fault Refusal :=
  let q (k : Nat) : VReg := s.vsrc (.named (Fin.ofNat 16 (a.val + k)))
  let l := lutElems (q 0) (q 1) (q 2) (q 3) (s.vmodSrc b (w.getD .none))
  let x := s.die s.iss.die
  let bad := if x.truthBad.isEmpty then none
    else x.truthBad.find? fun e => e.2 == .double && (lutWords l).contains e.1
  let s := if x.truthBad.isEmpty then s else s.modDie s.iss.die fun x => x.scrubTruth (lutWords l)
  .next (match bad with
    | some e => { s with iss := { s.iss with lost := some (e.1 / 8) } }
    | none =>
      s.vecLand 3 d (ofElems 2 (l.map fun e => gateOut (x.gate e.1) e.2), 0))

/-- `vevt` (R238): all ones in the lanes that differ on any bit. -/
def execVevt (_t : Ty) (d : Dst) (a b : Src) (w : Option Mod) (s : State) : Host.Outcome State Fault Refusal :=
  .next (s.vecLandWide d (zipElems 32 (fun x y => noFlag (if x = y then 0 else 2 ^ 32 - 1)) (s.vsrc a)
    (s.vmodSrc b (w.getD .none))))

/-- Two drivers of a net (R237); 2 is X and 3 is Z. -/
def resolveL2 (a b : Nat) : Nat :=
  if a = 3 then b else if b = 3 then a else if a = b then a else 2

def execVres (d : Dst) (a b : Src) (w : Option Mod) (s : State) : Host.Outcome State Fault Refusal :=
  .next (s.vecLand 2 d (zipElems 2 (fun x y => noFlag (resolveL2 x y)) (s.vsrc a) (s.vmodSrc b (w.getD .none))))

/-- `vttw` (R239): sixteen entries of the truth-table memory, written at c+3; privileged. -/
def execVttw (a b : Src) (_wide : Bool) (s : State) : Host.Outcome State Fault Refusal :=
  .next (if !s.cur.priv then s.trapIllegal
    else s.land 3 s.vecSlot (.table (Fin.ofNat 16 (s.srcN b)) (s.vsrc a)))

/-! ### Vector bank memory (R240 to R243) -/

/-- Stages a bank access of the bundle in progress until its route syllables are known (R89). -/
def State.stage (s : State) (lat : Nat) (ord : PortStep) (tag : Option (BitVec 8)) (own : Fin 16) (k : AccKind) : State :=
  let a : Access := { id := s.fresh, due := s.cycle + lat, ord := ord, ctx := s.iss.ctx, bundle := s.iss.bundle,
                      hnd := s.cur.priv, slot := s.vecSlot, cls := s.clsOf own, tag := tag, pc := s.iss.p,
                      win := s.cur.win, kind := k }
  ({ s with iss := { s.iss with staged := s.iss.staged ++ [a] } }).takeFresh

/-- The class and the row offset of a vector memory form. -/
def memCls (w : Option VMem) : Fin 16 := (w.map (·.cls)).getD 0

def memRows (w : Option VMem) : Word := (w.map fun m => 1024 * signExt m.off9).getD 0

/-- The effective offset of minors 0 and 1 (R241). -/
def straightOff (a b : Word) (w : Option VMem) : Word := (a + b + memRows w) &&& ~~~7

/-- The base of minors 2 and 3 (R241). -/
def rowsBase (a : Word) (w : Option VMem) : Word := (a + memRows w) &&& ~~~1023

/-- A vector load: the banks are read at c+5. -/
def State.vecLoad (s : State) (d : Dst) (addr : VAddr) (cls : Fin 16) : State :=
  s.stage 5 .read s.tagOf cls (.vload d addr s.rf.mask {})

/-- A vector store: it commits at c+9. A tag field is without effect. -/
def State.vecStore (s : State) (v : Src) (addr : VAddr) (cls : Fin 16) : State :=
  s.stage 9 .netWrite none cls (.vstore addr (s.vsrc v) s.rf.mask {})

def execVld (d : Dst) (a b : Src) (w : Option VMem) (s : State) : Host.Outcome State Fault Refusal :=
  .next (s.vecLoad d (.straight (straightOff (s.src a) (s.src b) w)) (memCls w))

def execVldImm (d : Dst) (a : Src) (m : VMem) (s : State) : Host.Outcome State Fault Refusal :=
  .next (s.vecLoad d (.straight (straightOff (s.src a) 0 (some m))) m.cls)

def execVst (v : Src) (a b : Src) (w : Option VMem) (s : State) : Host.Outcome State Fault Refusal :=
  .next (s.vecStore v (.straight (straightOff (s.src a) (s.src b) w)) (memCls w))

def execVstImm (v : Src) (a : Src) (m : VMem) (s : State) : Host.Outcome State Fault Refusal :=
  .next (s.vecStore v (.straight (straightOff (s.src a) 0 (some m))) m.cls)

/-- The memory fields and the modifier of b of an indexed form. -/
def idxMem (w : Option (VMem × Mod)) : Option VMem := w.map (·.1)

def idxMod (w : Option (VMem × Mod)) : Mod := (w.map (·.2)).getD .none

def execVldi (d : Dst) (a b : Src) (w : Option (VMem × Mod)) (s : State) : Host.Outcome State Fault Refusal :=
  .next (s.vecLoad d (.rows (rowsBase (s.src a) (idxMem w)) (s.vmodSrc b (idxMod w))) (memCls (idxMem w)))

def execVsti (v : Src) (a b : Src) (w : Option (VMem × Mod)) (s : State) : Host.Outcome State Fault Refusal :=
  .next (s.vecStore v (.rows (rowsBase (s.src a) (idxMem w)) (s.vmodSrc b (idxMod w))) (memCls (idxMem w)))

end Sys2Proof.Machine
end

