-- ==== Sys2Proof/Machine/Perform.lean ====
section
/-! DEFINITION. What lands and what performs: results (R18 to R21, R218, R226), fixed-latency bank accesses (R111,
R116, R129, R130, R189 to R197, R206, R242, R243, R278 to R280), folds (R150 to R161) and far groups (R300). -/

namespace Sys2Proof.Machine

/-! ### Sites (R297, R300, R332) -/

/-- The coordinates of a compute die's site. -/
def dieXY (p : DieId) : Int × Int := ((2 * (p.val % 8) + p.val / 8 % 2 : Nat), (p.val / 8 : Nat))

/-- The compute die at a site, if the site is on the grid. -/
def dieAt (x y : Int) : Option DieId :=
  if 0 ≤ x && x < 16 && 0 ≤ y && y < 16 && (x + y) % 2 == 0 then some (Fin.ofNat 128 ((16 * y + x) / 2).toNat) else none

/-- The coordinates of a stack's site: stack i stands at y = i div 8, x = 2 × (i mod 8) + 1 - (y mod 2) (R307). -/
def stackXY (i : StackId) : Int × Int := ((2 * (i.val % 8) + 1 - i.val / 8 % 2 : Nat), (i.val / 8 : Nat))

def stackAt (x y : Int) : Option StackId :=
  if 0 ≤ x && x < 16 && 0 ≤ y && y < 16 && (x + y) % 2 == 1 then some (Fin.ofNat 128 ((16 * y + x) / 2).toNat) else none

/-- The step of a link or a side (R297, R301). -/
def linkStep (k : Nat) : Int × Int :=
  match k with
  | 0 => (1, 0)
  | 1 => (0, 1)
  | 2 => (-1, 0)
  | _ => (0, -1)

/-- The peer of a die on a link (R300). -/
def peerOf (p : DieId) (k : Nat) : Option DieId :=
  let c := dieXY p
  let d := linkStep k
  dieAt (c.1 + 2 * d.1) (c.2 + 2 * d.2)

/-- The hop distance of two dies (R333). -/
def hopDist (p q : DieId) : Nat :=
  let dx := (dieXY q).1 - (dieXY p).1
  let dy := (dieXY q).2 - (dieXY p).2
  max (dx + dy).natAbs (dx - dy).natAbs / 2

/-! ### Folds as bytes (R149, R150) -/

/-- The 16 bytes of a fold object. -/
def Fold.bytes (f : Fold) : List Byte :=
  bytesOfNat 4 f.expect.toNat ++ bytesOfNat 4 f.count.toNat
    ++ [f.errCode, BitVec.ofNat 8 (8 * f.err.toNat + 2 * f.unit.toNat + f.phase.toNat), f.owner.setWidth 8, 0]
    ++ bytesOfNat 4 f.flips.toNat

/-- A fold object of its 16 bytes; the reserved bits hold 0. -/
def foldOfBytes (l : List Byte) : Fold :=
  let b (k : Nat) : Nat := (l.getD k 0).toNat
  { expect := BitVec.ofNat 32 (natOfBytes (l.take 4))
    count := BitVec.ofNat 32 (natOfBytes ((l.drop 4).take 4))
    errCode := l.getD 8 0
    err := b 9 / 8 % 2 == 1
    unit := b 9 / 2 % 2 == 1
    phase := b 9 % 2 == 1
    owner := (l.getD 10 0).setWidth 4
    flips := BitVec.ofNat 32 (natOfBytes ((l.drop 12).take 4)) }

/-- A fold with one byte of its object replaced. -/
def Fold.setByte (f : Fold) (k : Nat) (b : Byte) : Fold := foldOfBytes (f.bytes.set k b)

/-! ### Bank bytes (R188, R189) -/

/-- The byte at a bank address. -/
def Die.bankByte (x : Die) (a : Nat) : Byte :=
  let a := a % Config.bankBytes
  if Config.foldBase ≤ a then
    (x.folds[Fin.ofNat 128 ((a - Config.foldBase) / 16)]).bytes.getD ((a - Config.foldBase) % 16) 0
  else x.bank.read a

/-- Writes one byte at a bank address. -/
def Die.setBankByte (x : Die) (a : Nat) (b : Byte) : Die :=
  let a := a % Config.bankBytes
  if Config.foldBase ≤ a then
    { x with folds := vmod x.folds (Fin.ofNat 128 ((a - Config.foldBase) / 16)) fun f =>
      f.setByte ((a - Config.foldBase) % 16) b }
  else { x with bank := x.bank.write a b }

/-- The error state of the word of an address. -/
def Die.eccOf (x : Die) (a : Nat) : Option EccMark :=
  (x.bankBad.find? fun e => e.1 == a % Config.bankBytes / 8).map (·.2)

/-- What a write of some bytes of words does to their error state: a whole word clears it, a part of an uncorrectable
word leaves it poisoned, and a part of a correctable one is merged into the corrected word (R189). -/
def Die.eccWrite (x : Die) (as : List Nat) : Die :=
  if x.bankBad.isEmpty then x
  else
    let full (w : Nat) : Bool := (List.range 8).all fun k => as.any fun a => a % Config.bankBytes == 8 * w + k
    let hit (w : Nat) : Bool := as.any fun a => a % Config.bankBytes / 8 == w
    { x with bankBad := x.bankBad.filter fun e => !(hit e.1 && (full e.1 || e.2 == .single)) }

/-- Writes bytes to the banks of a die. -/
def Die.bankWrite (x : Die) (l : List (Nat × Byte)) : Die :=
  (l.foldl (fun x p => x.setBankByte p.1 p.2) x).eccWrite (l.map (·.1))

/-- What reading bytes of the banks does to their words' errors (R189): each single-bit error is corrected, written back
and counted, and each uncorrectable word is counted. -/
def Die.eccRead (x : Die) (as : List Nat) : Die :=
  if x.bankBad.isEmpty then x
  else
    let ws := as.map fun a => a % Config.bankBytes / 8
    let hit := x.bankBad.filter fun e => ws.contains e.1
    { x with bankBad := x.bankBad.filter fun e => !(e.2 == .single && ws.contains e.1)
             stat := hit.foldl (fun st e => if e.2 == .single then st.corrected else st.uncorrected) x.stat }

/-- The first word of some bank bytes with an uncorrectable error: its address. -/
def Die.eccBad (x : Die) (as : List Nat) : Option Nat :=
  (x.bankBad.find? fun e => e.2 == .double && as.any fun a => a % Config.bankBytes / 8 == e.1).map fun e => 8 * e.1

/-- Reads bytes of the banks: their errors are corrected and counted, and the first uncorrectable word, if there is one,
is named (R189). -/
def Die.bankRead (x : Die) (as : List Nat) : Die × List Byte × Option Nat :=
  (x.eccRead as, as.map x.bankByte, x.eccBad as)

/-- The tag of the tile of a bank address (R190). -/
def Die.tagAt (x : Die) (a : Nat) : BitVec 8 := Sparse.read x.tags 0 (a % Config.bankBytes / 4096)

/-! ### Where an access reads and writes -/

/-- The offset of bank b's word of a vector access (R241). -/
def VAddr.wordOff (v : VAddr) (b : Nat) : Word :=
  match v with
  | .straight e => e + BitVec.ofNat 64 (8 * ((b + 128 - e.toNat / 8 % 128) % 128))
  | .rows base idx =>
    let lane : BitVec 32 := BitVec.ofNat 32 (idx.toNat / 2 ^ (64 * b))
    base + 1024 * signExt lane + BitVec.ofNat 64 (8 * b)

/-- Whether a 16-lane group is in far mode (R206). -/
def Setting.isFar (t : Setting) (g : Nat) : Bool := natBit t.far.toNat g

/-- The bank addresses that the input positions of a vector read take their bytes from, position by position; none for
a position of a far group. -/
def vecAddrs (w : Window) (v : VAddr) (t : Setting) : List (Option Nat) :=
  (List.range 256).map fun i =>
    if t.isFar (i / 16) then none else some (w.addr (v.wordOff (i / 2)) + 4 * (i % 2))

/-- What a vector store writes through its setting: the bank bytes, and for far groups the data and byte enables. -/
def vecWrites (w : Window) (v : VAddr) (data : VReg) (m : Mask) (t : Setting) : List (Nat × Byte) :=
  let out := traverse t.bits (lanes data)
  let en := traverse t.bits ((maskBits m).map Bool.toNat)
  (List.range 256).flatMap fun p =>
    if en.getD p 0 = 0 || t.isFar (p / 16) then []
    else
      let a := w.addr (v.wordOff (p / 2)) + 4 * (p % 2)
      (List.range 4).map fun k => (a + k, BitVec.ofNat 8 (out.getD p 0 / 2 ^ (8 * k)))

/-- The group of a far-mode store that goes out on its link: the data and byte enables (R206). -/
def farOut (data : VReg) (m : Mask) (t : Setting) (g : Nat) : BitVec 512 × BitVec 64 :=
  let out := ((traverse t.bits (lanes data)).drop (16 * g)).take 16
  let en := ((traverse t.bits ((maskBits m).map Bool.toNat)).drop (16 * g)).take 16
  (BitVec.ofNat 512 (joinNat 32 out), BitVec.ofNat 64 (joinNat 4 (en.map fun e => 15 * e)))

/-- The bank bytes that a store writes when it performs (R111, R212, R243). -/
def Access.writes (a : Access) : List (Nat × Byte) :=
  match a.kind with
  | .store n off v => (List.range n).map fun k => (a.win.byteAddr off k, BitVec.ofNat 8 (v.toNat / 2 ^ (8 * k)))
  | .vstore addr v m t => vecWrites a.win addr v m t
  | .routeStore off r =>
    let l := (fullBlock r).flatMap bytesOfWord
    (List.range l.length).zip l |>.map fun p => (a.win.byteAddr off p.1, p.2)
  | .drain _ _ l => l
  | _ => []

/-- The bytes of a store that its own context still sees ahead of its perform: not those that a younger access of its
class has written meanwhile, as R112 has each take effect fully before the next. -/
def Access.shown (a : Access) : List (Nat × Byte) :=
  if a.dead.isEmpty then a.writes else a.writes.filter fun p => !a.dead.contains p.1

/-- Whether an access is a transfer of an engine's drain. -/
def Access.isDrain (a : Access) : Bool :=
  match a.kind with
  | .drain _ _ _ => true
  | _ => false

/-- Whether an access comes before another in its context and class (R112): a drain is in no class. The accesses of one
bundle are ordered by their places in it, but a load never sees the new value of an atomic of its own bundle, which
performs a cycle after it: DESIGN CHOICE (log 113). -/
def Access.before (b a : Access) : Bool :=
  b.ctx == a.ctx && b.cls == a.cls && decide (b.id < a.id) && !b.isDrain && !a.isDrain

/-- The bytes that an access sees beyond the banks: those of the earlier stores of its context and class that have not
yet performed, oldest first (R112, R280). -/
def Die.pending (x : Die) (a : Access) : List (Nat × Byte) := (x.accs.filter fun b => b.before a).flatMap Access.shown

/-- An access has written some bytes: the issuing context no longer sees those of an earlier store of its class that
performs later (R112). That store still writes them in its own cycle, for every observer (R283). -/
def Die.outdate (x : Die) (a : Access) (l : List Nat) : Die :=
  { x with accs := x.accs.map fun b => if b.before a then { b with dead := b.dead ++ l } else b }

/-- Overlays pending bytes on read bytes: the youngest store of a byte stays. -/
def overlay (p : List (Nat × Byte)) (as : List Nat) (l : List Byte) : List Byte :=
  if p.isEmpty then l
  else (as.zip l).map fun e => (p.foldl (fun b q => if q.1 == e.1 then q.2 else b) e.2)

/-- The sub-banks and banks that addresses fall in (R188). -/
def portsOf (as : List Nat) : List (Nat × Nat) := (as.map fun a => (a / 8 % 128, a / 1024 % 4)).eraseDups

/-- Marks the sub-banks that fixed-latency accesses use in this cycle (R193). -/
def Die.use (x : Die) (as : List Nat) : Die := { x with used := x.used ++ portsOf as }

/-! ### Landings (R20, R21, R218, R226) -/

/-- Marks the lines of the vector queue, every entry of which a push moves (R172). -/
def RegFile.touchVq (r : RegFile) : RegFile :=
  let m : BitVec 140 := BitVec.ofNat 140 ((2 ^ 64 - 1) * 2 ^ 72)
  { r with touched := r.touched ||| m, dirty := r.dirty ||| m }

/-- Marks the four lines of a vector register. -/
def RegFile.touchV (r : RegFile) (n : Nat) : RegFile :=
  let m : BitVec 140 := BitVec.ofNat 140 (15 * 2 ^ (8 + 4 * n))
  { r with touched := r.touched ||| m, dirty := r.dirty ||| m }

/-- Lands a scalar result: its register, and a push (R20). -/
def RegFile.putScalar (r : RegFile) (d : Dst) (v : Word) : RegFile :=
  let r := match d with
    | .named n => { r with s := vset r.s n v }
    | .push => r
  { r with q := (v :: r.q).take 16 }.touch 1

/-- Lands a vector result. -/
def RegFile.putVector (r : RegFile) (d : Dst) (v : VReg) : RegFile :=
  let r := match d with
    | .named n => { r with v := vset r.v n v }.touchV n.val
    | .push => r
  { r with vq := (v :: r.vq).take 16 }.touchVq

/-- The bits that a lane mask lets through. -/
def maskImage (m : Mask) : VReg :=
  ofLanes ((maskBits m).map fun b => if b then 2 ^ 32 - 1 else 0)

/-- What a destination holds before a landing: its register, or zeros for a push (R218). -/
def RegFile.oldOf (r : RegFile) : Dst → VReg
  | .named n => r.v[n]
  | .push => 0

/-- Takes the bits of a pattern from a result and the others from the destination. -/
def mergeBits (take v old : VReg) : VReg := (v &&& take) ||| (old &&& ~~~take)

/-- The parent of the top entry of the mask stack (R226). -/
def RegFile.parentMask (r : RegFile) : Mask :=
  if 2 ≤ r.depth then r.masks[Fin.ofNat 8 (r.depth - 2)] else BitVec.allOnes 256

/-- Writes an entry of the mask stack and a depth. -/
def RegFile.setMask (r : RegFile) (i : Nat) (m : Mask) (depth : Nat) : RegFile :=
  (({ r with masks := vset r.masks (Fin.ofNat 8 i) m, depth := depth }).touch 2).touch 0

/-- What a wrctl does to ctl.fmt: the new value, and whether it held a reserved field (R15). -/
def fmtWrite (old : BitVec 32) (v : Word) (d8 : Bool) : BitVec 32 × Bool :=
  let rnd := bits v 0 3
  let act := bits v 8 4
  let badR := decide (5 ≤ rnd)
  let badA := decide (5 ≤ act) || (act == 2 && !d8)
  (BitVec.ofNat 32 ((if badA then old.toNat / 256 % 16 else act) * 256 + bits v 3 2 * 8
     + (if badR then old.toNat % 8 else rnd)), badR || badA)

/-- A write of ctl.flg: the enables are written and the flags are cleared by 1 (R16, R108). -/
def flgWrite (old : BitVec 32) (v : Word) : BitVec 32 :=
  BitVec.ofNat 32 (bits v 8 5 * 256) ||| (old &&& 0x1F &&& ~~~(v.setWidth 32))

/-- A landing in a context (R20, R108, R133, R218, R226), for the space that issued it. DESIGN CHOICE: trap_vec bits 1-0 and
trap_rs bits 9-1 read back as they were written (log 118). -/
def Ctx.applyLand (c : Ctx) (hnd d8 strict : Bool) (l : Land) : Ctx :=
  let f (g : RegFile → RegFile) : Ctx := c.modFile hnd g
  match l with
  | .scalar d v => f fun r => r.putScalar d v
  | .vector d v m => f fun r => r.putVector d (mergeBits (maskImage m) v (r.oldOf d))
  | .part d v m take => f fun r => r.putVector d (mergeBits (maskImage m &&& take) v (r.oldOf d))
  | .flags x => f fun r => { r with flg := orFlags r.flg x }.touch 0
  | .wide fs n => f fun r =>
    { r with wf := vset r.wf (match fs with | .va => 0 | .vb => 1 | .sx => 2) n }.touch 0
  | .route x v => { c with x := vset c.x x v }
  | .link v => f fun r => { r with lr := v }.touch 0
  | .mpush m => f fun r => r.setMask r.depth (r.mask &&& m) (r.depth + 1)
  | .minv => f fun r => r.setMask (r.depth - 1) (r.parentMask &&& ~~~r.mask) r.depth
  | .mpop => f fun r => { r with depth := r.depth - 1 }.touch 0
  | .mset m => f fun r => r.setMask (r.depth - 1) m r.depth
  | .table _ _ => c
  | .ctl cr v =>
    match cr with
    | .fmt => f fun r => { r with fmt := (fmtWrite r.fmt v d8).1 }.touch 0
    | .flg => f fun r => { r with flg := flgWrite r.flg v }.touch 0
    | .lr => f fun r => { r with lr := v }.touch 0
    | .trapResume => { c with trapResume := v }
    | .trapVec => { c with trapVec := v }
    | .trapRs => { c with trapRs := v, hndStale := true }
    | .ctxMode =>
      { c with tagLimit := BitVec.ofNat 5 (bits v 8 5), opStrict := bitAt v 1 && strict, tagWait := bitAt v 0 }
    | .taskFlg => c.modFile false fun r => { r with flg := flgWrite r.flg v }.touch 0
    | _ => c

/-- Whether a feature is accepted on a die (R370, R371). -/
def Die.feature (x : Die) (n : Nat) : Bool := natBit x.boot.featAcc.toNat n

/-- Inserts a flight by its place: slot first, then issue order (R21). -/
def insertFlight (f : Flight) : List Flight → List Flight
  | [] => [f]
  | g :: r =>
    if f.slot < g.slot || (f.slot == g.slot && decide (f.ord < g.ord)) then f :: g :: r else g :: insertFlight f r

/-- Whether a landing writes ctl.flg or another control register, which takes effect before the flags (R108). -/
def Land.isCtl : Land → Bool
  | .ctl _ _ => true
  | _ => false

/-- Writes sixteen entries of the truth-table memory (R239). -/
def Die.putTable (x : Die) (g : Fin 16) (v : VReg) : Die :=
  (List.range 16).foldl (fun x i =>
    { x with truth := Sparse.write x.truth Config.truthDefault (16 * g.val + i) (BitVec.ofNat 512 (v.toNat / 2 ^ (512 * i)))
             truthBad := x.truthBad.filter fun e => e.1 / 8 != 16 * g.val + i }) x

/-- Lands one result of a context. -/
def State.landOne (s : State) (d : DieId) (c : CtxId) (f : Flight) : State :=
  let x := s.die d
  let s := s.modCtx d c fun k => k.applyLand f.hnd (x.feature 1) (x.feature 7) f.land
  match f.land with
  | .table g v => s.modDie d fun x => x.putTable g v
  | .ctl .fmt v =>
    if (fmtWrite ((x.ctx c).file f.hnd).fmt v (x.feature 1)).2 then
      s.landAt d c s.cycle f.slot f.ord f.bundle f.hnd (.flags fInvalid)
    else s
  | _ => s

/-- RESULT_LANDING (R18): the results of a context that are due land in slot order; the landings that only set flags
have a step of their own, after the bundle of the cycle. Writes of control registers land before the other results of
the cycle, in slot order among themselves. DESIGN CHOICE: so a call's link stays over a `wrctl lr` of its bundle
(log 111), and of two writes of one control register the one of the later slot stays (log 112). -/
def execResultLanding (s : State) : Host.Outcome State Fault Refusal :=
  let d := s.ev.die
  let c := s.ev.ctx
  let due (f : Flight) : Bool := decide (f.due ≤ s.cycle) && f.land.isFlags == s.ev.flag
  let all := ((s.ctx d c).flight.filter due).foldl (fun l f => insertFlight f l) []
  let s := s.modCtx d c fun k => { k with flight := k.flight.filter fun f => !due f }
  .next ((all.filter (·.land.isCtl) ++ all.filter fun f => !f.land.isCtl).foldl (fun s f => s.landOne d c f) s)

/-! ### Bank accesses -/

/-- The schedule fault of an access (R130): none for a drained access of a trap, which is recorded instead (R131), and
none once the task is lost or cut back (log 122). A task that has issued `halt` and still waits for its results takes it.
DESIGN CHOICE: where a scalar and a vector load of one bundle both mismatch, the scalar one, which performs first, takes
the trap, and the vector one sets late_sched (log 116). -/
def State.schedFault (s : State) (d : DieId) (a : Access) (addr : Nat) (vec : Bool) (found want : BitVec 8) : State :=
  let x := s.ctx d a.ctx
  if (x.priv && !a.hnd) || (x.st == .ending && x.ending == .noHandler) then
    s.modCtx d a.ctx fun c => { c with trapCause := c.trapCause ||| 0x2000000 }
  else if x.st == .free || (x.st == .ending && (x.ending == .lost || x.ending == .cutBack)) then s
  else
    let info := BitVec.ofNat 64 (field addr 32 27 + 131072 * vec.toNat + field found.toNat 8 8 + want.toNat)
    s.takeTrap d a.ctx { cause := 8, addr := a.pc, resume := (x.file x.priv).pc, info := info }

/-- Reads the bytes of an access (R189, R280); an uncorrectable word ends the task as lost. -/
def State.readFor (s : State) (d : DieId) (a : Access) (as : List Nat) : State × Option (List Byte) :=
  let p := (s.die d).pending a
  let r := (s.die d).bankRead as
  let s := s.setDie d (r.1.use as)
  match r.2.2 with
  | some bad => (s.loseWord d a.ctx a.pc 0 bad, none)
  | none => (s, some (overlay p as r.2.1))

/-- A scalar load performs (R111, R113, R129, R189): it reads at c+5 and lands at c+6, unless its tile's tag differs. An
uncorrectable word loses the task whatever the tag. -/
def State.performLoad (s : State) (d : DieId) (a : Access) (t : Ty) (dst : Dst) (off : Word) : State :=
  let as := (List.range (t.width / 8)).map fun k => a.win.byteAddr off k
  let first := a.win.byteAddr off 0
  let tag := (s.die d).tagAt first
  match s.readFor d a as with
  | (s, none) => s
  | (s, some l) =>
    if a.tag.any fun w => w != tag then s.schedFault d a first false tag (a.tag.getD 0)
    else s.landAt d a.ctx (s.cycle + 1) a.slot a.id a.bundle a.hnd (.scalar dst (extend t (natOfBytes l)))

/-- A store, a route store or a drain performs: it writes its bytes. -/
def State.performStore (s : State) (d : DieId) (a : Access) : State :=
  s.modDie d fun x => ((x.bankWrite a.writes).outdate a (a.writes.map (·.1))).use (a.writes.map (·.1))

/-- A local atomic performs (R116): it reads and writes its aligned word, and lands the old value two cycles later. -/
def State.performAmo (s : State) (d : DieId) (a : Access) (op : AmoOp) (t : Ty) (dst : Dst) (off b c : Word)
    (fmt : FmtCap) : State :=
  let n := t.width / 8
  let base := off - BitVec.ofNat 64 (off.toNat % n)
  let as := (List.range n).map fun k => a.win.byteAddr base k
  match s.readFor d a as with
  | (s, none) => s
  | (s, some l) =>
    let old := natOfBytes l
    let r := amoNew op t fmt old b.toNat c.toNat
    let s := s.modDie d fun x => (x.bankWrite (as.zip (bytesOfNat n r.1))).outdate a as
    let s := s.landAt d a.ctx (s.cycle + 2) a.slot a.id a.bundle a.hnd (.scalar dst (extend t old))
    if r.2 = 0 then s else s.landAt d a.ctx (s.cycle + 2) a.slot a.id a.bundle a.hnd (.flags r.2)

/-- The far data that has arrived for a group in this cycle (R206); none reads as zeros. -/
def Die.farData (x : Die) (cycle g : Nat) : Option (BitVec 512) :=
  (x.farIn.find? fun e => e.group.val == g && e.cycle == cycle).map (·.data)

/-- The far groups of a read transfer take their data of this cycle, and each group without any counts a miss (R206). -/
def Die.takeFar (x : Die) (cycle : Nat) (t : Setting) : Die :=
  let far := (List.range 16).filter t.isFar
  let missed := (far.filter fun g => (x.farData cycle g).isNone).length
  { x with farIn := x.farIn.filter fun o => !(t.isFar o.group.val && o.cycle == cycle)
           stat := { x.stat with farMisses := Nat.repeat satInc missed x.stat.farMisses } }

/-- What an input position of a read transfer carries: its half of a bank's word, or its lane of the far data. -/
def State.laneAt (s : State) (d : DieId) (a : Access) (i : Nat) : Option Nat → Nat
  | some q =>
    let as := (List.range 4).map fun k => q + k
    natOfBytes (overlay ((s.die d).pending a) as (as.map (s.die d).bankByte))
  | none => (((s.die d).farData s.cycle (i / 16)).getD 0).toNat / 2 ^ (32 * (i % 16)) % 2 ^ 32

/-- A vector load performs (R242): the far groups' data is taken from the links (R206) and the banks are read at c+5, and
the transfer's result lands at c+9, unless a tag mismatches or a word is uncorrectable. -/
def State.performVload (s : State) (d : DieId) (a : Access) (dst : Dst) (addr : VAddr) (m : Mask) (t : Setting) : State :=
  let pos := vecAddrs a.win addr t
  let as := pos.flatMap fun p => match p with
    | some q => (List.range 4).map fun k => q + k
    | none => []
  let x := s.die d
  let data := pos.mapIdx fun i p => s.laneAt d a i p
  let s := s.setDie d (x.takeFar s.cycle t)
  match s.readFor d a as with
  | (s, none) => s
  | (s, some _) =>
    match a.tag.bind fun w => (pos.filterMap id).find? fun q => x.tagAt q != w with
    | some q => s.schedFault d a (q / 8 * 8) true (x.tagAt q) (a.tag.getD 0)
    | none =>
      s.landAt d a.ctx (s.cycle + 4) a.slot a.id a.bundle a.hnd (.vector dst (ofLanes (traverse t.bits data)) m)

/-- Sends the far groups of a vector store on their links (R206, R300). -/
def State.sendFar (s : State) (d : DieId) (v : VReg) (m : Mask) (t : Setting) : State :=
  (List.range 16).foldl (fun s g =>
    if t.isFar g then
      let lat := ((s.die d).stat.farLat[Fin.ofNat 4 (g / 4)]).toNat
      match (if lat = 0 || !s.panel.locked then none else peerOf d (g / 4)) with
      | some p =>
        let e := farOut v m t g
        s.sched (s.cycle + lat) .farGroupArrival
          { die := p, link := Fin.ofNat 4 (g / 4 + 2), grp := Fin.ofNat 16 (Nat.xor g 8), group := e.1, groupEn := e.2 }
      | none =>
        if (peerOf d (g / 4)).isSome && lat ≠ 0 then s
        else s.modDie d fun x => { x with stat := { x.stat with farDrops := satInc x.stat.farDrops } }
    else s) s

/-- A vector store performs (R243). -/
def State.performVstore (s : State) (d : DieId) (a : Access) (v : VReg) (m : Mask) (t : Setting) : State :=
  (s.performStore d a).sendFar d v m t

/-- An engine drain's transfer writes the banks (R198), and its bytes count in the fold of its operation (R151). -/
def State.performDrain (s : State) (d : DieId) (a : Access) (eng : Fin 19) (op : Nat) : State :=
  let s := s.performStore d a
  let o := ((s.die d).queues[eng]).find? fun o => o.id == op
  s.modDie d fun x =>
    { x with foldEvts := match o.bind (·.fold) with
        | some f => x.foldEvts ++ [(f, .bytes a.writes.length)]
        | none => x.foldEvts }

/-- BANK_ACCESS_PERFORM (R278): one fixed-latency access, or one transfer of a drain, performs. -/
def execBankAccessPerform (s : State) : Host.Outcome State Fault Refusal :=
  let d := s.ev.die
  match (s.die d).accs.find? fun a => a.id == s.ev.id with
  | none => .next s
  | some a =>
    let s := s.modDie d fun x => { x with accs := x.accs.filter fun b => b.id != a.id }
    .next (match a.kind with
      | .load t dst off => s.performLoad d a t dst off
      | .store _ _ _ | .routeStore _ _ => s.performStore d a
      | .amo op t dst off b c fmt => s.performAmo d a op t dst off b c fmt
      | .vload dst addr m t => s.performVload d a dst addr m t
      | .vstore _ v m t => s.performVstore d a v m t
      | .drain eng op _ => s.performDrain d a eng op)

/-- FAR_GROUP_ARRIVAL (R206, R300): far data is there for the read transfers of this cycle; what no transfer takes is
dropped at the end of the cycle. While the domain is not locked, it is discarded. -/
def execFarGroupArrival (s : State) : Host.Outcome State Fault Refusal :=
  let e := s.ev
  .next (if !s.panel.locked then s
    else if e.flag then s.modDie e.die fun x => { x with stat := { x.stat with farDrops := satInc x.stat.farDrops } }
    else s.modDie e.die fun x =>
      { x with farIn := x.farIn ++ [{ group := e.grp, cycle := s.cycle, data := e.group, en := e.groupEn }] })

/-! ### Folds (R151 to R153, R160, R161) -/

/-- Puts an effect on a fold into this cycle's update. -/
def State.foldEvt (s : State) (d : DieId) (f : FoldId) (e : FoldEvt) : State :=
  s.modDie d fun x => { x with foldEvts := x.foldEvts ++ [(f, e)] }

/-- ARRIVE_PERFORM (R160): the value is added in this cycle's update of the fold. -/
def execArrivePerform (s : State) : Host.Outcome State Fault Refusal :=
  .next (s.foldEvt s.ev.die s.ev.fold (.add (s.ev.val.toNat % 2 ^ 32)))

/-- FOLD_SET_PERFORM (R161): step 1 of this cycle's update of the fold. -/
def execFoldSetPerform (s : State) : Host.Outcome State Fault Refusal :=
  .next (s.foldEvt s.ev.die s.ev.fold (.set s.ev.ctx s.ev.arr (s.ev.val.setWidth 32)))

/-- RecordError of R153. -/
def Fold.recordError (f : Fold) (code : BitVec 8) : Fold :=
  if f.err then f else { f with err := true, errCode := code }

/-- Step 1 of R153 for one `fold.set`. -/
def Fold.doSet (f : Fold) (ctx : CtxId) (unit : Bool) (v : BitVec 32) : Fold :=
  let bit : BitVec 4 := 1 <<< ctx.val
  if f.owner = 0 || f.owner &&& bit ≠ 0 then
    { f with expect := v, count := 0, unit := unit, err := false, errCode := 0, owner := f.owner ||| bit }
  else f.recordError 0x0A

/-- Step 4 of R153: as many flips as the count holds; k whole multiples of expect flip k times. -/
def Fold.flip (f : Fold) : Fold :=
  if f.expect = 0 then f
  else
    let k := f.count.toNat / f.expect.toNat
    { f with count := BitVec.ofNat 32 (f.count.toNat % f.expect.toNat)
             phase := f.phase != (k % 2 == 1)
             flips := f.flips + BitVec.ofNat 32 k }

/-- The update of a fold in one cycle (R153): sets in context order, the sum of the additions, the errors of operations
in queue order, and the flips. DESIGN CHOICE: queue order is COPY, ARRAY M0 to M15, REMOTE, PANEL (log 119). -/
def Fold.cycle (f : Fold) (es : List FoldEvt) : Fold :=
  let f := (List.finRange 4).foldl (fun f c => es.foldl (fun f e => match e with
    | .set k u v => if k == c then f.doSet k u v else f
    | _ => f) f) f
  let total := es.foldl (fun n e => match e with
    | .add k => n + k
    | .bytes k => if f.unit then n else n + k
    | .done => if f.unit then n + 1 else n
    | _ => n) 0
  let f := if f.count.toNat + total > 0xFFFFFFFF then { f with count := 0xFFFFFFFF }.recordError 0x09
    else { f with count := BitVec.ofNat 32 (f.count.toNat + total) }
  let f := (List.range 20).foldl (fun f q => es.foldl (fun f e => match e with
    | .err k code => if k == q then f.recordError code else f
    | _ => f) f) f
  f.flip

/-- Updates every fold for a cycle (R153): those with effects by `Fold.cycle`, and the flips of all of them. -/
def Die.foldCycle (x : Die) : Die :=
  let ids := (x.foldEvts.map (·.1)).eraseDups
  { x with
    folds := (ids.foldl (fun v f => vmod v f fun o =>
      o.cycle ((x.foldEvts.filter fun e => e.1 == f).map (·.2))) x.folds).map Fold.flip
    foldEvts := [] }

end Sys2Proof.Machine
end

