-- ==== Sys2Proof/Machine/EngineOps.lean ====
section
/-! DEFINITION. Engine syllables at issue, majors 18 to 23 (R141 to R149, R248 to R251, R262, R271, R311, R313, R337,
R352): what each captures and the queue it goes to. What the operations then do stands in Copy.lean, Arrays.lean,
Remote.lean and PanelOps.lean. -/

namespace Sys2Proof.Machine

/-! ### Control words -/

/-- Whether an operation is a remote copy. -/
def isRcp : Instr → Bool
  | .rcpGet _ _ _ _ _ | .rcpPut _ _ _ _ _ | .rcpRs _ => true
  | _ => false

/-- Bytes that a copy moves (R251). -/
def copyLen (o : Op) : Nat := bits o.vb 0 32

/-- Bit 41 of a copy control word: a follow-on (R251). -/
def ctlFollow (b : Word) : Bool := bitAt b 41

/-- Bit 42: a panel-memory source of `cp.bo`. -/
def ctlSrcPanel (b : Word) : Bool := bitAt b 42

/-- The far addresses of a stream word's operation (R262, R263): the tile, and its bitmap and scales. -/
def streamFar (a b c : Word) : List Word :=
  if bitAt a 3 then (if bitAt a 5 then [b, c] else [b]) else []

/-- The virtual die numbers that an instruction names through its operands (R311, R337). -/
def namedDies (rf : RegFile) (i : Instr) : List (BitVec 8) :=
  let far (l : List Src) : List (BitVec 8) := (l.map rf.src).filterMap farDie
  match i with
  | .hops _ a b => [(rf.src a).setWidth 8, (rf.src b).setWidth 8]
  | .mwld _ a b c _ _ | .mmul _ a b c _ _ | .mdist _ a b c _ _ =>
    (streamFar (rf.src a) (rf.src b) (rf.src c)).filterMap farDie
  | .rld _ _ a _ _ | .rst _ a _ _ _ | .rcpGet _ _ a _ _ | .rcpPut _ _ a _ _ | .rsig _ _ a _ | .rsigRel _ _ a _
  | .amoAddFar _ _ a _ _ | .amoAndFar _ _ a _ _ | .amoOrFar _ _ a _ _ | .amoXorFar _ _ a _ _
  | .amoMaxFar _ _ a _ _ | .amoMinFar _ _ a _ _ | .amoFaddFar _ _ a _ _ | .amoFmaxFar _ _ a _ _
  | .amoFminFar _ _ a _ _ | .amoSaddFar _ _ a _ _ | .amoSwapFar _ _ a _ _ | .amoCasFar _ _ a _ _ => far [a]
  | _ => []

/-- The first absent virtual die that an instruction names (R126, R311, R336). -/
def Ctx.absent (c : Ctx) (i : Instr) : Option (BitVec 8) :=
  (namedDies c.rf i).find? fun v => !(c.vtab[Fin.ofNat 256 v.toNat]).present

/-- Runs a meaning unless the instruction names an absent virtual die, which traps before issue (R126). -/
def State.unlessAbsent (s : State) (i : Instr) (f : State) : State :=
  match s.cur.absent i with
  | some v => s.trapHere 7 0 (v.setWidth 64)
  | none => f

/-! ### Major 18 (R248 to R252) -/

def qCopy : Fin 19 := 0

def qRemote : Fin 19 := 17

def qPanel : Fin 19 := 18

/-- The queue of array m (R141). -/
def qArray (m : Nat) : Fin 19 := Fin.ofNat 19 (1 + m % 16)

/-- A copy: d, a and the control word b are read at issue; only `cp.bo` carries a follow-on (R251). -/
def State.copyOp (s : State) (i : Instr) (d a b : Src) (dep : Deps) (follow : Bool) : State :=
  s.enqueue qCopy i dep 0 [s.src a, s.src b, 0, s.src d] [] follow false

def execCpBb (d a b : Src) (dep : Deps) (s : State) : Host.Outcome State Fault Refusal :=
  .next (s.copyOp (.cpBb d a b dep) d a b dep false)

def execCpPb (d a b : Src) (dep : Deps) (s : State) : Host.Outcome State Fault Refusal :=
  .next (s.copyOp (.cpPb d a b dep) d a b dep false)

def execCpBp (d a b : Src) (dep : Deps) (s : State) : Host.Outcome State Fault Refusal :=
  .next (s.copyOp (.cpBp d a b dep) d a b dep false)

def execCpBo (d a b : Src) (dep : Deps) (s : State) : Host.Outcome State Fault Refusal :=
  .next (s.copyOp (.cpBo d a b dep) d a b dep (ctlFollow (s.src b)))

def execCpRs (dep : Deps) (s : State) : Host.Outcome State Fault Refusal :=
  .next (s.enqueue qCopy (.cpRs dep) dep 0 [] [] false false)

/-! ### Majors 19 and 20 (R248, R262) -/

/-- An array operation: its sources are read at issue; a far operand binds its virtual dies. -/
def State.arrayOp (s : State) (i : Instr) (m : Fin 16) (a b c : Src) (far chained : Bool) (dep : Deps) : State :=
  s.unlessAbsent i (s.enqueue (qArray m.val) i dep 0 [s.src a, s.src b, s.src c]
    (if far then streamFar (s.src a) (s.src b) (s.src c) else []) false chained)

def execMwld (m : Fin 16) (a b c : Src) (ch : Bool) (dep : Deps) (s : State) : Host.Outcome State Fault Refusal :=
  .next (s.arrayOp (.mwld m a b c ch dep) m a b c true ch dep)

def execMmul (m : Fin 16) (a b c : Src) (ch : Bool) (dep : Deps) (s : State) : Host.Outcome State Fault Refusal :=
  .next (s.arrayOp (.mmul m a b c ch dep) m a b c true ch dep)

def execMdrn (m : Fin 16) (a b c : Src) (dep : Deps) (s : State) : Host.Outcome State Fault Refusal :=
  .next (s.arrayOp (.mdrn m a b c dep) m a b c false false dep)

def execMresume (m : Fin 16) (dep : Deps) (s : State) : Host.Outcome State Fault Refusal :=
  .next (s.enqueue (qArray m.val) (.mresume m dep) dep 0 [] [] false false)

def execMdist (m : Fin 16) (a b c : Src) (ch : Bool) (dep : Deps) (s : State) : Host.Outcome State Fault Refusal :=
  .next (s.arrayOp (.mdist m a b c ch dep) m a b c true ch dep)

/-- `mcent` ignores the far bit of its stream word (R269). -/
def execMcent (m : Fin 16) (a b c : Src) (ch : Bool) (dep : Deps) (s : State) : Host.Outcome State Fault Refusal :=
  .next (s.arrayOp (.mcent m a b c ch dep) m a b c false ch dep)

def execMbest (m : Fin 16) (a b : Src) (dep : Deps) (s : State) : Host.Outcome State Fault Refusal :=
  .next (s.arrayOp (.mbest m a b dep) m a b a false false dep)

def execMcdrn (m : Fin 16) (a b c : Src) (dep : Deps) (s : State) : Host.Outcome State Fault Refusal :=
  .next (s.arrayOp (.mcdrn m a b c dep) m a b c false false dep)

/-! ### Major 21 (R259) -/

/-- An operation on an operand slot goes to the queue of its array (R141). -/
def State.slotOp (s : State) (i : Instr) (o : Fin 128) (v : Word) (dep : Deps) : State :=
  s.enqueue (qArray (o.val / 8)) i dep 0 [v] [] false false

def execSlotClaim (o : Fin 128) (dep : Deps) (s : State) : Host.Outcome State Fault Refusal :=
  .next (s.slotOp (.slotClaim o dep) o 0 dep)

def execSlotRelease (o : Fin 128) (dep : Deps) (s : State) : Host.Outcome State Fault Refusal :=
  .next (s.slotOp (.slotRelease o dep) o 0 dep)

def execSlotShape (o : Fin 128) (a : Src) (dep : Deps) (s : State) : Host.Outcome State Fault Refusal :=
  .next (s.slotOp (.slotShape o a dep) o (s.src a) dep)

def execSlotZero (o : Fin 128) (dep : Deps) (s : State) : Host.Outcome State Fault Refusal :=
  .next (s.slotOp (.slotZero o dep) o 0 dep)

/-! ### Major 22 (R313, R314) -/

/-- A remote operation: va is the far address, vb the b operand, vc the operand after it, vd the d operand. -/
def State.remoteOp (s : State) (i : Instr) (cls : Fin 16) (a : Src) (vb vc vd : Word) (dep : Deps) : State :=
  s.unlessAbsent i (s.enqueue qRemote i dep cls [s.src a, vb, vc, vd] [s.src a] false false)

def execRld (cls : Fin 16) (d a : Src) (w : Bool) (dep : Deps) (s : State) : Host.Outcome State Fault Refusal :=
  .next (s.remoteOp (.rld cls d a w dep) cls a 0 0 (s.src d) dep)

def execRst (cls : Fin 16) (a b : Src) (w : Bool) (dep : Deps) (s : State) : Host.Outcome State Fault Refusal :=
  .next (s.remoteOp (.rst cls a b w dep) cls a (s.src b) 0 0 dep)

def execRcpGet (cls : Fin 16) (d a b : Src) (dep : Deps) (s : State) : Host.Outcome State Fault Refusal :=
  .next (s.remoteOp (.rcpGet cls d a b dep) cls a (s.src b) 0 (s.src d) dep)

def execRcpPut (cls : Fin 16) (d a b : Src) (dep : Deps) (s : State) : Host.Outcome State Fault Refusal :=
  .next (s.remoteOp (.rcpPut cls d a b dep) cls a (s.src b) 0 (s.src d) dep)

def execRcpRs (dep : Deps) (s : State) : Host.Outcome State Fault Refusal :=
  .next (s.enqueue qRemote (.rcpRs dep) dep 0 [] [] false false)

def execRsig (cls : Fin 16) (d a : Src) (dep : Deps) (s : State) : Host.Outcome State Fault Refusal :=
  .next (s.remoteOp (.rsig cls d a dep) cls a 0 0 (s.src d) dep)

def execRsigRel (cls : Fin 16) (d a : Src) (dep : Deps) (s : State) : Host.Outcome State Fault Refusal :=
  .next (s.remoteOp (.rsigRel cls d a dep) cls a 0 0 (s.src d) dep)

/-- A remote atomic (R319). -/
def State.remoteAmo (s : State) (i : Instr) (cls : Fin 16) (d a b : Src) (dep : Deps) : State :=
  s.remoteOp i cls a (s.src b) 0 (s.src d) dep

def execAmoAddFar (cls : Fin 16) (d a b : Src) (dep : Deps) (s : State) : Host.Outcome State Fault Refusal :=
  .next (s.remoteAmo (.amoAddFar cls d a b dep) cls d a b dep)

def execAmoAndFar (cls : Fin 16) (d a b : Src) (dep : Deps) (s : State) : Host.Outcome State Fault Refusal :=
  .next (s.remoteAmo (.amoAndFar cls d a b dep) cls d a b dep)

def execAmoOrFar (cls : Fin 16) (d a b : Src) (dep : Deps) (s : State) : Host.Outcome State Fault Refusal :=
  .next (s.remoteAmo (.amoOrFar cls d a b dep) cls d a b dep)

def execAmoXorFar (cls : Fin 16) (d a b : Src) (dep : Deps) (s : State) : Host.Outcome State Fault Refusal :=
  .next (s.remoteAmo (.amoXorFar cls d a b dep) cls d a b dep)

def execAmoMaxFar (cls : Fin 16) (d a b : Src) (dep : Deps) (s : State) : Host.Outcome State Fault Refusal :=
  .next (s.remoteAmo (.amoMaxFar cls d a b dep) cls d a b dep)

def execAmoMinFar (cls : Fin 16) (d a b : Src) (dep : Deps) (s : State) : Host.Outcome State Fault Refusal :=
  .next (s.remoteAmo (.amoMinFar cls d a b dep) cls d a b dep)

def execAmoFaddFar (cls : Fin 16) (d a b : Src) (dep : Deps) (s : State) : Host.Outcome State Fault Refusal :=
  .next (s.remoteAmo (.amoFaddFar cls d a b dep) cls d a b dep)

def execAmoFmaxFar (cls : Fin 16) (d a b : Src) (dep : Deps) (s : State) : Host.Outcome State Fault Refusal :=
  .next (s.remoteAmo (.amoFmaxFar cls d a b dep) cls d a b dep)

def execAmoFminFar (cls : Fin 16) (d a b : Src) (dep : Deps) (s : State) : Host.Outcome State Fault Refusal :=
  .next (s.remoteAmo (.amoFminFar cls d a b dep) cls d a b dep)

def execAmoSaddFar (cls : Fin 16) (d a b : Src) (dep : Deps) (s : State) : Host.Outcome State Fault Refusal :=
  .next (s.remoteAmo (.amoSaddFar cls d a b dep) cls d a b dep)

def execAmoSwapFar (cls : Fin 16) (d a b : Src) (dep : Deps) (s : State) : Host.Outcome State Fault Refusal :=
  .next (s.remoteAmo (.amoSwapFar cls d a b dep) cls d a b dep)

/-- The scalar register after a named one: the C operand of a remote compare-and-swap (R319). -/
def State.srcAfter (s : State) : Src → Word
  | .named n => s.src (.named (n + 1))
  | .queue _ => 0

def execAmoCasFar (cls : Fin 16) (d a b : Src) (dep : Deps) (s : State) : Host.Outcome State Fault Refusal :=
  .next (s.remoteOp (.amoCasFar cls d a b dep) cls a (s.src b) (s.srcAfter b) (s.src d) dep)

/-! ### Major 23 (R337, R352) -/

/-- The physical die that an entry of the context's virtual die table binds. -/
def Ctx.physOf (c : Ctx) (v : BitVec 8) : DieId := (c.vtab[Fin.ofNat 256 v.toNat]).phys

/-- `hops` (R337): the hop distance of two virtual dies, as the table stands at issue. -/
def execHops (d : Dst) (a b : Src) (s : State) : Host.Outcome State Fault Refusal :=
  .next (s.unlessAbsent (.hops d a b) (s.intLand64 d
    (BitVec.ofNat 64 (hopDist (s.cur.physOf ((s.src a).setWidth 8)) (s.cur.physOf ((s.src b).setWidth 8))))))

/-- A multicast: offset and tag in a, data in b (R353). -/
def State.mcstOp (s : State) (i : Instr) (a b : Src) (dep : Deps) : State :=
  s.enqueue qPanel i dep 0 [s.src a, s.src b] [] false false

def execMcst (n : Fin 16) (a b : Src) (w : Bool) (dep : Deps) (s : State) : Host.Outcome State Fault Refusal :=
  .next (s.mcstOp (.mcst n a b w dep) a b dep)

def execMcstSt (n : Fin 16) (a b : Src) (w : Bool) (dep : Deps) (s : State) : Host.Outcome State Fault Refusal :=
  .next (s.mcstOp (.mcstSt n a b w dep) a b dep)

def execPbar (cls : Fin 16) (ch : Fin 16) (dep : Deps) (s : State) : Host.Outcome State Fault Refusal :=
  .next (s.enqueue qPanel (.pbar cls ch dep) dep cls [] [] false false)

def execMwin (n : Fin 16) (a : Src) (dep : Deps) (s : State) : Host.Outcome State Fault Refusal :=
  .next (if !s.cur.priv then s.trapIllegal else s.enqueue qPanel (.mwin n a dep) dep 0 [s.src a] [] false false)

end Sys2Proof.Machine
end

