-- ==== Sys2Proof/Machine/EngineCore.lean ====
section
/-! DEFINITION. What every engine operation shares: changing it in its queue, its end (R144, R146, R151, R153, R170,
R255, R271, R276, R317), its stamps (R190), and the remote accesses that engines send (R320). -/

namespace Sys2Proof.Machine

/-- An operation of a queue. -/
def State.op (s : State) (d : DieId) (q : Fin 19) (id : Nat) : Option Op := ((s.die d).queues[q]).find? fun o => o.id == id

/-- Changes an operation of a queue. -/
def State.modOp (s : State) (d : DieId) (q : Fin 19) (id : Nat) (f : Op → Op) : State :=
  s.modDie d fun x => { x with queues := vmod x.queues q fun l => replaceIf (fun o => o.id == id) f l }

/-- Writes the macro record of an operation (R170). -/
def State.putOpRecord (s : State) (d : DieId) (q : Fin 19) (o : Op) (st : Nat) : State :=
  s.modCtx d o.ctx fun c => c.putRecord o.hnd o.tp (macroRecord o.progress o.err st q.val o.major o.minor)

/-- Whether an operation of a queue stands at a translation fault (R254, R274, R310). -/
def State.atFault (s : State) (d : DieId) (q : Fin 19) (id : Nat) : Bool :=
  (s.die d).faults.any fun f => match f.walk.who with
    | .copy op _ => q == qCopy && op == id
    | .remote acc => q == qRemote && s.panel.raccs.any fun a => a.id == acc && a.op == id
    | .array e op => e == q && op == id
    | _ => false

/-- Whether an operation that ended with a code can be resumed: a copy (R255), a remote copy (R317), or an array
operation (R276). -/
def resumable (q : Fin 19) (code : BitVec 8) : Bool :=
  (if q = qRemote then [2, 3, 4, 6] else [2, 3, 4, 6, 8]).contains code.toNat

/-- Keeps the resume entry of an operation that ended in error. An array's entry is its last operation of majors 19
and 20 that ended in error, but for one that ended with code 1 without running and a `mresume` that found nothing to
resume (R261, R276). A `mwld` that runs beside it counts as started after it, since its overlap changes no result
(R264, log 167). -/
def Die.keepResume (x : Die) (q : Fin 19) (o : Op) (ran : Bool) : Die :=
  if q = qCopy then
    if resumable q o.err then { x with cpResume := vset x.cpResume o.ctx (some { op := o }) } else x
  else if q = qRemote then
    if resumable q o.err && isRcp o.ins then { x with rcpResume := vset x.rcpResume o.ctx (some { op := o }) } else x
  else if q = qPanel then x
  else match o.ins with
    | .mresume _ _ | .slotClaim _ _ | .slotRelease _ _ | .slotShape _ _ _ | .slotZero _ _ => x
    | _ =>
      if o.err = 1 && !ran then x
      else
        let beside := (x.queues[q]).any fun p => p.id != o.id && p.st == .running
        { x with arrays := vmod x.arrays (Fin.ofNat 16 (q.val - 1)) fun a =>
          { a with resume := some o, resumeAt := a.started, started := if beside then a.started + 1 else a.started } }

/-- What the end of a copy with a follow-on does to the command that binds to it (R271). -/
def Die.endFollow (x : Die) (o : Op) (ok : Bool) : Die :=
  if !o.follow then x
  else
    let x := x.modCtx o.ctx fun c =>
      { c with unbound := c.unbound.map fun e => if e.1 == o.id then (e.1, some ok) else e }
    if ok then x else x.mapOps fun p => if p.bound == some o.id then { p with boundErr := true } else p

/-- Whether a `mwld` may run beside the operations ahead of it (R264, R272): a near one, beside products, distances and
centroid sums that stream from what they have fetched; none of those writes a slot or the shadow weights. -/
def mwldOverlaps (ahead : List Op) (o : Op) : Bool :=
  (match o.ins with
    | .mwld _ _ _ _ _ _ => !bitAt o.va 3
    | _ => false)
  && ahead.all fun p => p.st == .ended || (match p.ins with
    | .mmul _ _ _ _ _ _ | .mdist _ _ _ _ _ _ | .mcent _ _ _ _ _ _ => !p.fetching
    | _ => false)

/-- Whether a queue's engine would take an operation now (R142, R147, R271, R272): those ahead of it have started, a
copy or an array operation but a `mwld` waits for those ahead to end, no consumed token is pending, and a chained command
has been handed over or its copy has failed. -/
def opReady (q : Fin 19) (ahead : List Op) (o : Op) : Bool :=
  ahead.all (fun p => p.st != .queued)
    && (q = qRemote || q = qPanel || ahead.all (fun p => p.st == .ended) || mwldOverlaps ahead o)
    && o.deps.all (fun e => match e with
      | .ref _ => false
      | .was _ => true)
    && (o.bound.isNone || o.handed || o.boundErr)

/-- Splits a queue at its first operation that has not started. -/
def firstQueued : List Op → List Op → Option (List Op × Op)
  | _, [] => none
  | ahead, o :: l => if o.st == .queued then some (ahead, o) else firstQueued (ahead ++ [o]) l

/-- The operation that a queue starts in this cycle, if there is one. A throttled die starts none (R373). -/
def Die.startable (x : Die) (q : Fin 19) : Option Op :=
  if x.seq.stall || x.seq.inReset then none
  else match firstQueued [] (x.queues[q]) with
    | some (ahead, o) => if opReady q ahead o then some o else none
    | none => none

/-- What the end of a copy with a follow-on asks of the command that binds to it (R271): the engine hands it over in the
next cycle, or, where the copy has failed and the command could start, it ends in this cycle as well. -/
def State.followEnd (s : State) (d : DieId) (id : Nat) (ok : Bool) : State :=
  match (s.die d).ops.find? fun p => p.bound == some id with
  | none => s
  | some p =>
    if ok then s.sched (s.cycle + 1) .followOnIssue { die := d, id := p.id }
    else (List.finRange 19).foldl (fun s q =>
      if ((s.die d).startable q).any fun o => o.id == p.id then
        s.schedOnce s.cycle .engineOpStart { die := d, eng := q, id := p.id }
      else s) s

/-- An operation ends in this cycle, complete with code 0, or in error (R144): its token, its flags, its record and its
fold. -/
def State.endOp (s : State) (d : DieId) (q : Fin 19) (id : Nat) (code : BitVec 8) : State :=
  match s.op d q id with
  | none => s
  | some o =>
    if o.st == .ended then s
    else
      let ok := code == 0
      let ran := o.st != .queued
      let after : TokState := if ok then .done else .error
      let o := { o with st := .ended, err := code, units := [], pend := [] }
      let s := s.modOp d q id fun _ => o
      let s := s.putOpRecord d q o (if ok then 4 else 5)
      let s := s.modCtx d o.ctx fun c => c.modFile o.hnd fun f =>
        if o.flags = 0 then f else { f with flg := orFlags f.flg o.flags }.touch 0
      let s := s.modDie d fun x =>
        let x := { x with tokEvts := x.tokEvts ++ [(o.ctx, o.tp, after)]
                          foldEvts := match o.fold with
                            | some f => x.foldEvts ++ [(f, if ok then FoldEvt.done else FoldEvt.err q.val code)]
                            | none => x.foldEvts }
        let x := x.mapOps fun p => { p with deps := p.deps.map fun e => if e == Dep.ref id then .was after else e }
        (if ok then x else x.keepResume q o ran).endFollow o ok
      if o.follow then s.followEnd d id ok else s

/-- Bytes that an operation commits in this cycle count in its bytes fold (R151). -/
def State.opBytes (s : State) (d : DieId) (o : Op) (n : Nat) : State :=
  match o.fold with
  | some f => if n = 0 then s else s.foldEvt d f (.bytes n)
  | none => s

/-- Stamps a tile at the end of this cycle; a higher key stays over a lower one (R190). -/
def Die.stamp (x : Die) (tile key : Nat) (tag : BitVec 8) : Die := { x with stamps := x.stamps ++ [(key, tile, tag)] }

/-- Stamps every tile of a list. -/
def Die.stampAll (x : Die) (tiles : List Nat) (key : Nat) (tag : BitVec 8) : Die :=
  tiles.eraseDups.foldl (fun x t => x.stamp t key tag) x

/-- The tiles of bank addresses (R188). -/
def tilesOf (as : List Nat) : List Nat := (as.map (· / 4096)).eraseDups

/-- The bytes of an 8-byte word. -/
def wordBytes (w : Nat) : List Nat := (List.range 8).map fun k => 8 * w + k

/-- The 8-byte words that addresses fall in. -/
def wordsOf (as : List Nat) : List Nat := (as.map (· / 8)).eraseDups

/-- Bank addresses of n bytes from a window offset on (R30). -/
def windowAddrs (w : Window) (off : Word) (n : Nat) : List Nat := (List.range n).map fun k => w.byteAddr off k

/-! ### Remote accesses at their source (R320) -/

/-- Puts an access of an operation at the end of its stream. -/
def State.newAcc (s : State) (d : DieId) (q : Fin 19) (o : Op) (cls : Fin 16) (unit part : Nat) (k : RKind) (far : Word)
    (len : Nat) (data : List Byte) : State :=
  let a : RAcc := { id := s.fresh, src := d, stream := .ctx o.ctx cls, ord := s.fresh, eng := q, op := o.id
                    unit := unit, part := part, bundle := o.bundle, kind := k, far := far, len := len, data := data
                    job := o.job }
  (s.modPanel fun p => { p with raccs := p.raccs ++ [a] }).takeFresh

/-- Changes an access. -/
def State.modAcc (s : State) (id : Nat) (f : RAcc → RAcc) : State :=
  s.modPanel fun p => { p with raccs := replaceIf (fun a => a.id == id) f p.raccs }

def State.acc (s : State) (id : Nat) : Option RAcc := s.panel.raccs.find? fun a => a.id == id

def State.dropAcc (s : State) (id : Nat) : State :=
  s.modPanel fun p => { p with raccs := p.raccs.filter fun a => a.id != id }

/-- The accesses of an operation of a die. -/
def State.accsOf (s : State) (d : DieId) (op : Nat) : List RAcc :=
  s.panel.raccs.filter fun a => a.src == d && a.op == op

/-- Drops the accesses of an operation that have never been sent, from a unit on: one that is to be sent again ends on its
own (R324). -/
def State.dropUnsent (s : State) (d : DieId) (op unit : Nat) : State :=
  s.modPanel fun p => { p with raccs := p.raccs.filter fun a =>
    !(a.src == d && a.op == op && decide (unit ≤ a.unit) && !a.resent && (a.st == .waiting || a.st == .reading)) }

end Sys2Proof.Machine
end

