-- ==== Sys2Proof/Machine/ArrayMath.lean ====
section
/-! DEFINITION. The arithmetic of the arrays (R56 to R64, R258, R262 to R270): operand slots, stream and drain words,
scales, cell steps, converted elements, best records and centroid means, each as a function of plain data. -/

namespace Sys2Proof.Machine

/-! ### Operand slots (R257, R258) -/

/-- Byte offset of element (i, j) of w bits, none outside the shape (R258). -/
def Slot.off (t : Slot) (i j w : Nat) : Option Nat :=
  if t.rows ≤ i || t.cols ≤ j then none
  else some ((if t.colMajor then j * t.rows + i else i * t.cols + j) * w / 8 % 32768)

/-- The slot bytes of n bytes from an offset on. -/
def slotAddrs (off n : Nat) : List Nat := (List.range n).map fun k => (off + k) % 32768

/-- Element (i, j) of w bits, 0 outside the shape. -/
def Slot.elem (t : Slot) (i j w : Nat) : Nat :=
  match t.off i j w with
  | none => 0
  | some o => natOfBytes ((slotAddrs o (w / 8)).map t.bytes.read)

/-- The slot bytes of an element that is written. -/
def Slot.put (t : Slot) (i j w v : Nat) : List (Nat × Byte) :=
  match t.off i j w with
  | none => []
  | some o => (slotAddrs o (w / 8)).zip (bytesOfNat (w / 8) v)

/-- Writes bytes to a slot; a word written whole is good again. -/
def Slot.write (t : Slot) (l : List (Nat × Byte)) : Slot :=
  { t with bytes := t.bytes.writeAll l
           bad := t.bad.filter fun w => !((List.range 8).all fun k => l.any fun p => p.1 == 8 * w.1 + k) }

/-- The 8-byte words that the first n elements of a row fall in. -/
def Slot.rowWords (t : Slot) (i n w : Nat) : List Nat :=
  (List.range n).flatMap fun j => match t.off i j w with
    | none => []
    | some o => (slotAddrs o (w / 8)).map (· / 8)

/-- A shape word's shape, if it is valid (R258). -/
def Slot.reshape (t : Slot) (a : Word) : Option Slot :=
  let r := bits a 0 9
  let c := bits a 9 9
  if r = 0 || c = 0 || 256 < r || 256 < c then none else some { t with rows := r, cols := c, colMajor := bitAt a 18 }

/-! ### Control words (R262, R266, R268, R270) -/

/-- The element type of a format code of an engine word, none for a code that is invalid (R262, R371). -/
def engineFmt (d8 : Bool) (code : Nat) : Option Ty :=
  match code with
  | 0 => some .s8
  | 1 => some .z8
  | 2 => if d8 then some .d8 else none
  | 3 => some .f16
  | 4 => some .bf16
  | _ => none

/-- The element type of a stream word: the captured default for an invalid code (R262). -/
def streamFmt (d8 : Bool) (o : Op) : Ty := (engineFmt d8 (bits o.va 6 4)).getD o.act

/-- The output type of a drain word, none for a value that drains nothing (R266). -/
def drainFmt (d8 : Bool) (o : Op) : Option Ty :=
  match bits o.va 6 4 with
  | 7 => some .f32
  | 8 => some .s32
  | k => engineFmt d8 k

/-- The slot that an operation of array m names. -/
def slotOf (m : Nat) (o : Op) : Fin 128 := Fin.ofNat 128 (8 * m + bits o.va 0 3)

/-- Rows of the reduction, and the other extent of a stream or drain word. -/
def wordK (o : Op) : Nat := bits o.va 17 7 + 1

def wordM (o : Op) : Nat := bits o.va 10 7 + 1

def wordScaled (o : Op) : Bool := bitAt o.va 5

def wordClear (o : Op) : Bool := bitAt o.va 4

def wordFar (o : Op) : Bool := bitAt o.va 3

/-- Whether a type takes scales (R57). -/
def takesScale (t : Ty) : Bool := t == .s8 || t == .z8 || t == .d8

/-- Whether a type accumulates as an integer (R63). -/
def isInt8 (t : Ty) : Bool := t == .s8 || t == .z8

/-! ### Scales (R56 to R58) -/

/-- The bits of a bitmap's bytes. -/
def bitmapBits (l : List Byte) : List Bool := l.flatMap fun b => (splitNat 1 8 b.toNat).map (· == 1)

/-- The block of each element: a block starts at element 0, at a bit of the bitmap, and after 256 elements (R56). -/
def blocksFrom : List Bool → Nat → Nat → List Nat
  | [], _, _ => []
  | b :: l, blk, since =>
    if b || since == 256 then (blk + 1) :: blocksFrom l (blk + 1) 1 else blk :: blocksFrom l blk (since + 1)

def blocksOf (l : List Bool) : List Nat :=
  match l with
  | [] => []
  | _ :: r => 0 :: blocksFrom r 0 1

/-- Bytes of the bitmap of E elements. -/
def bitmapLen (e : Nat) : Nat := 8 * ((e + 63) / 64)

/-- Bytes of the scale stream that a bitmap gives. -/
def scaleLen (e : Nat) (bitmap : List Byte) : Nat :=
  2 * ((blocksOf ((bitmapBits bitmap).take e)).getLastD 0 + 1)

/-- One element of a scaled stream of E elements (R56, R58): a block starts at element 0, at a bit of the bitmap, and after
256 elements; its scale is read where it starts. `get` gives a byte of bitmap and scales. -/
def scaleStep (e : Nat) (get : Nat → Byte) (t : ScaleAt) (j : Nat) : ScaleAt :=
  if j = 0 || natBit (get (j / 8)).toNat (j % 8) || t.since == 256 then
    let at_ := bitmapLen e + 2 * t.blk
    { blk := t.blk + 1, since := 1, cur := (get at_).toNat + 256 * (get (at_ + 1)).toNat }
  else { t with since := t.since + 1 }

/-- The scales of some elements of a stream in their order, how far it is then read, and the offsets of the bytes of bitmap
and scales that this has read. -/
def scaleRun (e : Nat) (get : Nat → Byte) (t : ScaleAt) (js : List Nat) : List Nat × ScaleAt × List Nat :=
  js.foldl (fun r j =>
    let u := scaleStep e get r.2.1 j
    let at_ := bitmapLen e + 2 * r.2.1.blk
    (r.1 ++ [u.cur], u, r.2.2 ++ (j / 8) :: if u.blk = r.2.1.blk then [] else [at_, at_ + 1])) ([], t, [])

/-- The binary16 encoding of scale 1. -/
def oneScale : Nat := 0x3C00

/-! ### Cells (R61 to R64) -/

/-- Whether a scale is a NaN or an infinity. -/
def badScale (s : Nat) : Bool := s / 2 ^ 10 % 32 == 31

/-- Whether a scale is a zero of either sign. -/
def zeroScale (s : Nat) : Bool := s % 2 ^ 15 == 0

/-- The exact term of a cell step: products, differences and scales (R57, R61, R64). A zero scale makes the term a
zero with the sign of the product of all four factors. DESIGN CHOICE: a NaN or NaR operand counts as positive in that
sign (log 110), and a distance term takes each operand times its block's scale, |a·sa − w·sw| and its square (log 156). -/
def cellTerm (metric : Nat) (a w sa sw : Nat × Val) : Val × Flg :=
  if badScale sa.1 || badScale sw.1 then (.nan false, fInvalid ||| sigFlag a.2 ||| sigFlag w.2)
  else if zeroScale sa.1 || zeroScale sw.1 then
    (.zero (((a.2.neg != w.2.neg) != sa.2.neg) != sw.2.neg), sigFlag a.2 ||| sigFlag w.2)
  else
    let x := mulVal a.2 sa.2
    let y := mulVal w.2 sw.2
    if metric = 0 then
      let p := mulVal x.1 y.1
      (p.1, x.2 ||| y.2 ||| p.2)
    else
      let d := addVal .rne x.1 y.1.flip
      let t := if metric = 1 then (d.1.absVal, (0 : Flg)) else mulVal d.1 d.1
      (t.1, x.2 ||| y.2 ||| d.2 ||| t.2)

/-- One cell step in binary32 mode (R61). -/
def cellStep (acc : Nat) (t : Val × Flg) : Nat × Flg :=
  let s := addVal .rne (decodeF fmtF32 acc) t.1
  let r := roundVal fmtF32 .rne false s.1
  (r.1, t.2 ||| s.2 ||| r.2)

/-- One cell step in integer mode (R63, R64). -/
def cellStepInt (sat : Bool) (metric : Nat) (acc : Nat) (a w : Int) : Nat × Flg :=
  let t := match metric with
    | 0 => a * w
    | 1 => ((a - w).natAbs : Int)
    | _ => (a - w) * (a - w)
  reduce .s32 sat (toSigned 32 acc + t)

/-- A row of activations: the elements with their scales. -/
structure ActRow where
  elems : List Nat
  scales : List Nat
  deriving DecidableEq, Repr

/-- The weights of column n of rows 0 to K − 1, with their scales. -/
def Weights.col (w : Weights) (n k : Nat) : List (Nat × Nat) :=
  (List.range k).map fun r =>
    ((Sparse.read w.w 0 (128 * r + n)).toNat, (Sparse.read w.scale 0x3C00 (128 * r + n)).toNat)

/-- A cell after the rows of the reduction, strictly in order (R61, R63, R64). -/
def cellRun (int sat : Bool) (metric : Nat) (fa fw : Ty) (row : ActRow) (col : List (Nat × Nat)) (acc : Nat) : Nat × Flg :=
  ((row.elems.zip row.scales).zip col).foldl (fun (r : Nat × Flg) p =>
    let q := if int then cellStepInt sat metric r.1 (intVal fa p.1.1) (intVal fw p.2.1)
      else cellStep r.1 (cellTerm metric (p.1.1, elemVal fa false p.1.1) (p.2.1, elemVal fw false p.2.1)
        (p.1.2, decodeF fmtF16 p.1.2) (p.2.2, decodeF fmtF16 p.2.2))
    (q.1, r.2 ||| q.2)) (acc, 0)

/-- What a poisoned accumulator holds (R275). -/
def poisonValue (float : Bool) : BitVec 32 := if float then 0x7FC00000 else 0x80000000

/-- The accumulator (i, n). -/
def Arr.accAt (a : Arr) (i n : Nat) : BitVec 32 := Sparse.read a.acc 0 (128 * i + n)

def Arr.setAcc (a : Arr) (i n : Nat) (v : BitVec 32) : Arr := { a with acc := Sparse.write a.acc 0 (128 * i + n) v }

/-- Clears a row of accumulators. -/
def Arr.clearRow (a : Arr) (i : Nat) : Arr := { a with acc := a.acc.filter fun e => e.1 / 128 != i }

/-- One row of activations through the live weights (R265, R267); poisoned weights give the poison value (R275). -/
def Arr.feedRow (a : Arr) (sat : Bool) (metric : Nat) (fa : Ty) (k i : Nat) (row : ActRow) : Arr × Flg :=
  if a.live.poison then
    ((List.range 128).foldl (fun a n => a.setAcc i n (poisonValue a.float)) a, fInvalid)
  else
    (List.range 128).foldl (fun (r : Arr × Flg) n =>
      let c := cellRun (!r.1.float) sat metric fa r.1.live.fmt row (r.1.live.col n k) (r.1.accAt i n).toNat
      (r.1.setAcc i n (BitVec.ofNat 32 c.1), r.2 ||| c.2)) (a, 0)

/-! ### Drained elements (R266, R270) -/

/-- An accumulator converted for a drain (R266). -/
def drainElem (float : Bool) (dst : Ty) (c : FmtCap) (v : BitVec 32) : Nat × Flg :=
  if !float then convert .s32 dst (c.rnd, c.sat, c.flush) v.toNat
  else if dst = .f32 then
    (if c.flush && isSubnormal fmtF32 v.toNat then fmtF32.signBit (v.toNat / 2 ^ 31 == 1) else v.toNat, 0)
  else convert .f32 dst (c.rnd, c.sat, c.flush) v.toNat

/-- The exact value of an accumulator under its mode. -/
def accVal (float : Bool) (v : BitVec 32) : Val :=
  if float then decodeF fmtF32 v.toNat else ofInt (toSigned 32 v.toNat)

/-- A value put into an output type with one rounding (R42, R48, R54). -/
def putVal (dst : Ty) (c : FmtCap) (v : Val) : Nat × Flg :=
  if dst = .d8 then toD8 c.rnd c.sat v
  else if isIntTy dst then toIntType dst c.rnd c.sat v
  else
    let r := roundVal (fmtOf dst) c.rnd c.flush v
    (r.1, r.2 ||| sigFlag v)

/-- A centroid mean: the exact quotient rounded once (R270). DESIGN CHOICE: the accumulator enters the quotient unflushed,
whatever the flush bit, and only the result is flushed (log 157). -/
def meanElem (float : Bool) (dst : Ty) (c : FmtCap) (v cnt : BitVec 32) : Nat × Flg :=
  let a := accVal float v
  let q := divVal a (ofInt cnt.toNat)
  let r := putVal dst c q.1
  (r.1, r.2 ||| q.2)

/-! ### Packing into transfers (R266) -/

/-- Whether an element must open a new transfer: a bank in which another word is written, or a byte written twice. -/
def mustOpen (cur el : List (Nat × Byte)) : Bool :=
  el.any fun p => cur.any fun q =>
    (q.1 / 8 % 128 == p.1 / 8 % 128 && q.1 / 1024 != p.1 / 1024) || q.1 == p.1

/-- Packs elements, each with the row that brings it, into transfers, each with its last row. -/
def pack : List (Nat × List (Nat × Byte)) → Nat × List (Nat × Byte) → List (Nat × List (Nat × Byte))
  | [], cur => if cur.2.isEmpty then [] else [cur]
  | e :: es, cur =>
    if e.2.isEmpty then pack es cur
    else if mustOpen cur.2 e.2 then cur :: pack es e
    else pack es (e.1, cur.2 ++ e.2)

def transfers (l : List (Nat × List (Nat × Byte))) : List (Nat × List (Nat × Byte)) := pack l (0, [])

/-! ### The comparator chain (R268) -/

/-- The order of two accumulator values in the chain: NaNs equal, −0 below +0. -/
def rankCmp (float : Bool) (x y : BitVec 32) : Ordering :=
  if float then
    let a := decodeF fmtF32 x.toNat
    let b := decodeF fmtF32 y.toNat
    if a.isNan || b.isNan then .eq
    else if leR44 a b then (if leR44 b a then .eq else .lt) else .gt
  else compare (toSigned 32 x.toNat) (toSigned 32 y.toNat)

/-- Whether the second of two candidates is kept over the first. -/
def keepSecond (float smallest high : Bool) (x y : BitVec 32 × Nat) : Bool :=
  let nan (v : BitVec 32) : Bool := float && (decodeF fmtF32 v.toNat).isNan
  if nan x.1 != nan y.1 then nan x.1
  else match rankCmp float x.1 y.1 with
    | .eq => if high then decide (x.2 < y.2) else decide (y.2 < x.2)
    | .lt => !smallest
    | .gt => smallest

/-- The candidate that the chain keeps. -/
def bestOf (float smallest high : Bool) : List (BitVec 32 × Nat) → Option (BitVec 32 × Nat)
  | [] => none
  | x :: l => some (l.foldl (fun b y => if keepSecond float smallest high b y then y else b) x)

/-- The value of the missing second candidate of a chain of one column. -/
def noSecond (float smallest : Bool) : BitVec 32 :=
  if float then 0x7FC00000 else if smallest then 0x7FFFFFFF else 0x80000000

/-- The words of a row's record. -/
def bestRecord (a : Arr) (smallest high second : Bool) (n i : Nat) : List (BitVec 32) :=
  let l := (List.range n).map fun k => (a.accAt i k, k)
  match bestOf a.float smallest high l with
  | none => []
  | some b =>
    let two := (bestOf a.float smallest high (l.filter fun e => e.2 != b.2)).getD
      (noSecond a.float smallest, 0xFFFFFFFF)
    [b.1, BitVec.ofNat 32 b.2] ++ (if second then [two.1, BitVec.ofNat 32 two.2] else [])

end Sys2Proof.Machine
end

