-- ==== Sys2Proof/Machine/Copy.lean ====
section
/-! DEFINITION. The copy engine (R250 to R256): units, their words at the copy ports, tags, commits, errors and the
resume entry. -/

namespace Sys2Proof.Machine

/-- Where a copy writes (R252). -/
inductive CopyTo where
  | bank | panel | slot
  deriving DecidableEq, Repr

/-- Whether a copy reads panel memory, and where it writes (R252). -/
def copyShape (o : Op) : Bool × CopyTo :=
  match o.ins with
  | .cpPb _ _ _ _ => (true, .bank)
  | .cpBp _ _ _ _ => (false, .panel)
  | .cpBo _ _ _ _ => (ctlSrcPanel o.vb, .slot)
  | _ => (false, .bank)

/-- Whether a copy stamps the tiles it writes, and the tag (R251, R253). -/
def copyStamp (o : Op) : Option (BitVec 8) :=
  match o.ins with
  | .cpBb _ _ _ _ | .cpPb _ _ _ _ => if bitAt o.vb 40 then some (BitVec.ofNat 8 (bits o.vb 32 8)) else none
  | _ => none

/-- Bytes of a unit. -/
def unitLen (len no : Nat) : Nat := min 256 (len - 256 * no)

/-- The bank addresses that a unit reads and writes. -/
def unitSrc (o : Op) (u : CUnit) : List Nat := windowAddrs o.win (o.va + BitVec.ofNat 64 (256 * u.no)) u.len

def unitDst (o : Op) (u : CUnit) : List Nat := windowAddrs o.win (o.vd + BitVec.ofNat 64 (256 * u.no)) u.len

/-- Changes a unit of an operation. -/
def Op.modUnit (o : Op) (no : Nat) (f : CUnit → CUnit) : Op := { o with units := replaceIf (fun u => u.no == no) f o.units }

/-- The source bytes that a unit still reads of a word, those of earlier units not yet written included (R250). -/
def copyBytes (x : Die) (o : Op) (u : CUnit) (word : Nat) : List Byte :=
  let early := if (copyShape o).2 == .bank then (o.units.filter fun v => decide (v.no < u.no) && v.full).flatMap fun v =>
      ((unitDst o v).zip v.got).filter fun p => v.put.contains (p.1 / 8)
    else []
  ((unitSrc o u).zip u.got).map fun p =>
    if p.1 / 8 = word then
      match early.reverse.find? fun e => e.1 == p.1 with
      | some e => e.2
      | none => x.bankByte p.1
    else p.2

/-- A copy gives up at a unit: it sends no more, and what it has not read is dropped; units that have read all of their
bytes still write them (R250, R253, R254). -/
def State.failCopy (s : State) (d : DieId) (o : Op) (unit : Nat) (code : BitVec 8) : State :=
  let sent (no : Nat) : Bool := (s.accsOf d o.id).any fun a => a.unit == no && a.st != .waiting && a.st != .reading
  let toPanel := (copyShape o).2 == .panel
  let s := s.modOp d qCopy o.id fun o =>
    { o with err := if o.err = 0 then code else o.err
             units := o.units.filter fun u =>
               decide (u.no < unit) || (decide (u.no ≠ unit) && (sent u.no || (u.full && !toPanel))) }
  s.dropUnsent d o.id unit

/-- A `cp.bo` that meets a slot of another owner ends in error and writes nothing more into it: every unit goes (R252). -/
def State.refuseSlot (s : State) (d : DieId) (o : Op) : State :=
  (s.modOp d qCopy o.id fun o => { o with err := if o.err = 0 then 3 else o.err, units := [] }).dropUnsent d o.id 0

/-- The first unit that has neither committed nor been dropped. -/
def runLength (done : List Nat) : Nat → Nat → Nat
  | 0, k => k
  | fuel + 1, k => if done.contains k then runLength done fuel (k + 1) else k

/-- A unit has written all its bytes: COPY_UNIT_COMMIT follows in this cycle (R250). -/
def State.unitWritten (s : State) (d : DieId) (o : Op) (no : Nat) : State :=
  s.schedOnce s.cycle .copyUnitCommit { die := d, id := o.id, unit := no }

/-- A full unit moves on to its destination: a slot takes it at once, panel memory by an access (R250, R252). -/
def State.placeUnit (s : State) (d : DieId) (o : Op) (u : CUnit) : State :=
  match (copyShape o).2 with
  | .bank => s
  | .slot =>
    let n : Fin 128 := Fin.ofNat 128 (bits o.vd 0 7)
    let x := s.die d
    if (x.slots[n]).owner != some o.ctx then s.refuseSlot d o
    else
      let base := bits o.vd 16 15 + 256 * u.no
      let s := s.modDie d fun x => { x with slots := vmod x.slots n fun t =>
        { t with bytes := t.bytes.writeAll ((List.range u.len).zip u.got |>.map fun p => ((base + p.1) % 32768, p.2))
                 bad := t.bad.filter fun w => !((List.range 8).all fun k =>
                   (List.range u.len).any fun j => (base + j) % 32768 == 8 * w.1 + k) } }
      (s.modOp d qCopy o.id fun o => o.modUnit u.no fun u => { u with placed := true }).unitWritten d o u.no
  | .panel =>
    let s := s.newAcc d qCopy o o.cls u.no 0 .store (o.vd + BitVec.ofNat 64 (256 * u.no)) u.len u.got
    s.modOp d qCopy o.id fun o => o.modUnit u.no fun u => { u with accs := 1, placed := true }

/-- Sends the next unit of a copy (R250). -/
def State.sendUnit (s : State) (d : DieId) (o : Op) : State :=
  let no := o.next
  let n := unitLen (copyLen o) no
  let sh := copyShape o
  let u : CUnit := { no := no, len := n, got := List.replicate n 0, next := s.cycle }
  let u := if sh.1 then { u with accs := 1 } else { u with need := wordsOf (unitSrc o u) }
  let u := if sh.2 == .bank then { u with put := wordsOf (unitDst o u) } else u
  let s := s.modOp d qCopy o.id fun o => { o with next := no + 1, units := o.units ++ [u] }
  if sh.1 then s.newAcc d qCopy o o.cls no 0 .load (o.va + BitVec.ofNat 64 (256 * no)) n [] else s

/-- The work of the copy engine in a cycle, before the ports choose (R250): a next unit, and full units to slots and to
panel memory, to panel memory in ascending order. An abort ends the wait of a unit for its tags (R34, R143). -/
def State.copyCycle (s : State) (d : DieId) (o : Op) : State :=
  let sh := copyShape o
  let panel := sh.1 || sh.2 == .panel
  let room := if panel then decide (o.units.length < 16) else o.units.all (·.full)
  let s := if o.err = 0 && !o.abort && decide (256 * o.next < copyLen o) && room then s.sendUnit d o else s
  let s := match (if o.abort then o.units.find? fun u => !u.since.isEmpty else none) with
    | some u => s.failCopy d o u.no 5
    | none => s
  o.units.foldl (fun s u =>
    match (s.op d qCopy o.id).bind fun o => (o.units.find? fun v => v.no == u.no).map fun v => (o, v) with
    | some (o, v) =>
      if v.full && !v.placed && decide (v.next ≤ s.cycle) && sh.2 != .bank
          && (sh.1 || o.units.all fun w => decide (v.no ≤ w.no) || w.placed) then s.placeUnit d o v
      else s
    | none => s) s

/-- The words that the running copy wants at the ports in this cycle (R191, R193). -/
def copyReqs (cycle : Nat) (o : Op) : List PortReq :=
  let sh := copyShape o
  let panel := sh.1 || sh.2 == .panel
  o.units.flatMap fun u =>
    let reads := u.need.map fun w : Nat =>
      ({ pri := 2, who := .unit o.id u.no, word := w, read := true, write := false, bytes := [] } : PortReq)
    let may := u.full && decide (u.next ≤ cycle) && sh.2 == .bank
      && (panel || o.units.all fun v => decide (u.no ≤ v.no) || v.put.isEmpty)
    let writes := if may then u.put.map fun w : Nat =>
        ({ pri := 2, who := .unit o.id u.no, word := w, read := false, write := true,
           bytes := ((unitDst o u).zip u.got).filter fun p => p.1 / 8 == w } : PortReq)
      else []
    reads ++ writes

/-- A word of a unit is read at a port (R250, R253): in wait mode the time of its tile runs from the cycle in which the
tile first differed, until it matches. -/
def State.unitRead (s : State) (d : DieId) (o : Op) (u : CUnit) (word : Nat) : State :=
  let x := s.die d
  let tile := word / 512
  match x.eccOf (8 * word) with
  | some .double => s.failCopy d o u.no 6
  | _ =>
    let differs := match o.tag with
      | some t => x.tagAt (8 * word) != t
      | none => false
    if differs then
      if o.tagWait then
        if u.since.any fun e => e.1 == tile then s
        else
          let s := s.modOp d qCopy o.id fun o => o.modUnit u.no fun u => { u with since := u.since ++ [(tile, s.cycle)] }
          if o.tagLimit = 31 then s
          else s.sched (s.cycle + 2 ^ o.tagLimit.toNat) .copyTagWaitLimit { die := d, id := o.id, unit := u.no }
      else s.failCopy d o u.no 8
    else
      s.modOp d qCopy o.id fun o => o.modUnit u.no fun u =>
        let u := { u with got := copyBytes x o u word, need := u.need.erase word
                          since := u.since.filter fun e => e.1 != tile }
        if u.need.isEmpty then { u with full := true, next := s.cycle + 2 } else u

/-- A word of a unit is written at a port. -/
def State.unitWrote (s : State) (d : DieId) (o : Op) (u : CUnit) (word : Nat) (bytes : List (Nat × Byte)) : State :=
  let s := s.modDie d fun x => x.bankWrite bytes
  let s := s.modOp d qCopy o.id fun o => o.modUnit u.no fun u => { u with put := u.put.erase word }
  if (u.put.erase word).isEmpty then s.unitWritten d o u.no else s

/-- A copy that has nothing left to do ends: complete, or in error (R144, R250). -/
def State.copyDone (s : State) (d : DieId) (id : Nat) : State :=
  match s.op d qCopy id with
  | none => s
  | some o =>
    if !o.units.isEmpty || !(s.accsOf d id).isEmpty then s
    else if o.err ≠ 0 then s.schedOnce s.cycle .engineOpError { die := d, eng := qCopy, id := id, code := o.err }
    else if o.abort then s.schedOnce s.cycle .engineOpError { die := d, eng := qCopy, id := id, code := 5 }
    else if copyLen o ≤ 256 * o.next then s.schedOnce s.cycle .engineOpComplete { die := d, eng := qCopy, id := id }
    else s

/-- COPY_UNIT_COMMIT (R250, R254, R256): the unit has committed; its bytes count, and the copy ends with its last
unit. -/
def execCopyUnitCommit (s : State) : Host.Outcome State Fault Refusal :=
  let d := s.ev.die
  .next (match s.op d qCopy s.ev.id with
    | none => s
    | some o =>
      match o.units.find? fun u => u.no == s.ev.unit with
      | none => s
      | some u =>
        let done := o.done ++ [u.no]
        let run := runLength done done.length (o.progress / 256)
        let o' := { o with units := o.units.filter fun v => v.no != u.no
                           done := done.filter fun k => decide (run ≤ k)
                           progress := min (copyLen o) (256 * run)
                           tiles := if (copyShape o).2 == .bank then (o.tiles ++ tilesOf (unitDst o u)).eraseDups
                                    else o.tiles }
        let s := s.modOp d qCopy o.id fun _ => o'
        let s := s.putOpRecord d qCopy o' (if s.atFault d qCopy o.id then 3 else 2)
        (s.opBytes d o u.len).copyDone d o.id)

/-- COPY_TAG_WAIT_LIMIT (R253): a tile that has not matched in 2^tag_limit cycles ends the copy in error. -/
def execCopyTagWaitLimit (s : State) : Host.Outcome State Fault Refusal :=
  let d := s.ev.die
  .next (match s.op d qCopy s.ev.id with
    | none => s
    | some o =>
      match o.units.find? fun u => u.no == s.ev.unit && u.since.any fun e => decide (e.2 + 2 ^ o.tagLimit.toNat ≤ s.cycle) with
      | none => s
      | some u => (s.failCopy d o u.no 8).copyDone d o.id)

/-- A copy starts; `cp.rs` takes over what its context's resume entry holds (R250, R255). -/
def State.startCopy (s : State) (d : DieId) (o : Op) : State :=
  let o' := match o.ins with
    | .cpRs _ =>
      match (s.die d).cpResume[o.ctx] with
      | none => { o with vb := 0 }
      | some e =>
        { o with ins := e.op.ins, va := e.op.va, vb := e.op.vb, vd := e.op.vd, cls := e.op.cls, tag := e.op.tag
                 tagWait := e.op.tagWait, tagLimit := e.op.tagLimit, win := e.op.win, job := e.op.job
                 progress := e.op.progress, next := e.op.progress / 256, tiles := e.op.tiles }
    | _ => o
  let s := s.modOp d qCopy o.id fun _ => { o' with st := .running, start := s.cycle }
  (s.putOpRecord d qCopy o' 2).copyDone d o.id

/-- What the completion of a copy does besides R144: its stamp, and a resume entry cleared by `cp.rs` (R253, R255). -/
def State.finishCopy (s : State) (d : DieId) (o : Op) : State :=
  let s := s.modDie d fun x => match copyStamp o with
    | some t => x.stampAll o.tiles 1 t
    | none => x
  if o.minor = 4 then s.modDie d fun x => { x with cpResume := vset x.cpResume o.ctx none } else s

/-- A panel-memory access of a copy has been answered (R250, R254). -/
def State.copyReply (s : State) (d : DieId) (o : Op) (a : RAcc) (code : BitVec 8) : State :=
  let s := s.dropAcc a.id
  let s := if code ≠ 0 then s.failCopy d o a.unit code
    else match o.units.find? fun u => u.no == a.unit with
      | none => s
      | some u =>
        let got := if a.kind == .load then u.got.take a.part ++ a.data ++ u.got.drop (a.part + a.len) else u.got
        let s := s.modOp d qCopy o.id fun o => o.modUnit u.no fun u =>
          { u with accs := u.accs - 1, got := got, full := u.full || u.accs == 1
                   next := if a.kind == .load then s.cycle + 1 else u.next }
        if a.kind == .store && u.accs == 1 then s.unitWritten d o u.no else s
  s.copyDone d o.id

end Sys2Proof.Machine
end

