-- ==== Sys2Proof/Machine/Issue.lean ====
section
/-! DEFINITION. The sequencer of a die: fetching and checking a bundle (R31, R70 to R76, R84 to R94), the conditions
checked before issue (R126 to R129, R139, R175, R204), waits and switch points (R26, R136 to R138, R156 to R159), the
next pc (R122), and the steps of the table that belong to them. -/

namespace Sys2Proof.Machine

/-! ### Fetching a bundle (R31, R70, R72) -/

/-- What gathering a bundle found: its syllables, or the address of a byte whose line is not in the cache. -/
inductive Gather where
  | ok (l : List RawSyl)
  | miss (va : Word)
  deriving DecidableEq, Repr

/-- Gathers up to n syllables from an address, to the first stop bit. -/
def gather (x : Die) (root : Word) : Nat → Word → List RawSyl → Gather
  | 0, _, acc => .ok acc
  | n + 1, p, acc =>
    match x.icBytes root p 4 with
    | none => .miss p
    | some lo =>
      let hi := if (lo.headD 0).toNat / 2 % 2 = 1 then x.icBytes root (p + 4) 4 else some []
      match hi with
      | none => .miss (p + 4)
      | some hi =>
        let r := rawSyl (lo ++ hi)
        if r.stop then .ok (acc ++ [r]) else gather x root n (p + BitVec.ofNat 64 r.len) (acc ++ [r])

/-- The major opcode of a syllable (R71). -/
def sylMajor (r : RawSyl) : Nat := fld r.bits 2 5

/-- Whether a syllable has major 0: a prefix (R84). -/
def sylIsPfx (r : RawSyl) : Bool := sylMajor r == 0

/-- The route block that a syllable names through its offset field: its address and the length that it gives (R72). -/
def sylBlock (r : RawSyl) (p : Word) : Option (Word × Option Nat) :=
  if sylMajor r = 17 && fld r.bits 7 5 == 0 then some (poolAddr p (signExt (BitVec.ofNat 15 (fld r.bits 17 15))), none)
  else if sylMajor r = 31 && fld r.bits 8 2 == 2 && r.len == 8 then
    some (poolAddr p (signExt (BitVec.ofNat 24 (fld r.bits 10 24))), some (fld r.bits 34 5))
  else none

/-- The first byte of some pool words whose line is not in the cache. -/
def missing (x : Die) (root va : Word) (n : Nat) : Option Word :=
  ((List.range n).map fun k => va + BitVec.ofNat 64 (8 * k)).find? fun a => (x.icBytes root a 8).isNone

/-- The first pool word of a syllable that the fetch has not brought (R72). -/
def poolMiss (x : Die) (root p : Word) (r : RawSyl) : Option Word :=
  if sylMajor r = 4 then missing x root (poolAddr p (signExt (BitVec.ofNat 15 (fld r.bits 17 15)))) 1
  else match sylBlock r p with
    | none => none
    | some (a, some n) => missing x root a n
    | some (a, none) =>
      match x.icBytes root a 8 with
      | none => some a
      | some l => missing x root a (min 31 (blockWords (wordOfBytes l)))

/-! ### The three decode passes (R73, R75, R76, R85, R86) -/

/-- A decode trap: its cause, the index of the syllable and trap_info (R73, R133). -/
structure DecTrap where
  cause : Nat
  idx : Nat
  info : Word
  deriving DecidableEq, Repr

/-- Whether an encoding is privileged (R91, R93, R108). -/
def privileged : Instr → Bool
  | .ctxsw _ | .eret | .icinv _ | .vttw _ _ _ | .mwin _ _ _ => true
  | .rdctl _ cr | .wrctl cr _ => supervisorReg cr
  | _ => false

/-- Whether an encoding holds type code 2 (R36, R371). -/
def usesD8 : Instr → Bool
  | .vand t _ _ _ _ | .vor t _ _ _ _ | .vxor t _ _ _ _ | .vandn t _ _ _ _ | .vbcast t _ _ _
  | .vceq t _ _ _ _ | .vcne t _ _ _ _ | .vclt t _ _ _ _ | .vcle t _ _ _ _ | .vcun t _ _ _ _
  | .vquant t _ _ _ _ | .vpack t _ _ _ _ | .vunpk t _ _ _ | .vevt t _ _ _ _ => t == .d8
  | .vcvt a b _ _ _ => a == .d8 || b == .d8
  | _ => false

/-- The features that an encoding needs (R371). -/
def needsFeatures (i : Instr) (major : Nat) : List Nat :=
  (if usesD8 i then [1] else []) ++ (if major = 14 then [2] else []) ++ (if major = 20 then [3] else [])
    ++ (match i with
      | .mcst _ _ _ _ _ | .mcstSt _ _ _ _ _ | .mwin _ _ _ => [4]
      | _ => [])

/-- The exit offset of a loop syllable, in bytes (R121). -/
def loopOff : Instr → Option Nat
  | .loop _ _ off | .loopSw _ _ off => some (4 * off.toNat)
  | _ => none

/-- Whether a syllable is an instruction in a context (R92, R93, R121, R135, R371). -/
def legal (x : Die) (c : Ctx) (len : Nat) (r : RawSyl) : Option Instr :=
  match decodeSyl r.bits with
  | .error _ => none
  | .ok i =>
    if privileged i && !c.priv then none
    else if i == .eret && !c.trapEnter then none
    else if (loopOff i).any (fun e => decide (e ≤ len)) then none
    else if (needsFeatures i (sylMajor r)).all x.feature then some i
    else none

/-- trap_info of a decode trap at a syllable. -/
def sylInfo (r : RawSyl) : Word := BitVec.ofNat 64 r.bits

/-- Pass 1: the first syllable that is not an instruction, or all instructions. -/
def pass1 (x : Die) (c : Ctx) (len : Nat) : Nat → List RawSyl → Except DecTrap (List Instr)
  | _, [] => .ok []
  | k, r :: rs =>
    match legal x c len r with
    | none => .error { cause := 1, idx := k, info := sylInfo r }
    | some i =>
      match pass1 x c len (k + 1) rs with
      | .ok l => .ok (i :: l)
      | .error e => .error e

/-- Whether the fields that a prefix selects are accepted before a major (R86). -/
def pfxAccepted (p : Pfx) (major : Nat) : Bool :=
  let rf := p.rnd.isSome || p.flush != .fromFmt
  (!rf || [6, 10, 13, 16, 19, 20, 22].contains major)
    && (p.sat == .fromFmt || [1, 2, 3, 6, 11, 13, 16, 19, 20, 22].contains major)
    && (!p.clsEn || [5, 6, 15, 17, 18, 22, 23].contains major)
    && (!p.tagEn || [5, 15, 18].contains major)

/-- Pass 2: the prefixes. -/
def pass2 : Nat → List (RawSyl × Instr) → Option DecTrap
  | _, [] => none
  | k, (r, i) :: rs =>
    match i with
    | .pfx p =>
      if r.stop then some { cause := 3, idx := k, info := sylInfo r }
      else match rs with
        | [] => none
        | (n, _) :: _ =>
          if sylIsPfx n || sylMajor n == 31 || !pfxAccepted p (sylMajor n) then some { cause := 4, idx := k, info := sylInfo r }
          else pass2 (k + 1) rs
    | _ => pass2 (k + 1) rs

/-- The class of a syllable (R74): 0 prefix, 1 integer, 2 scalar memory, 3 branch, 4 vector, 5 scan, 6 route, 7 engine,
8 a read route syllable, 9 a write one. -/
def sylClass (r : RawSyl) : Nat :=
  let m := sylMajor r
  if m = 0 then 0
  else if m ≤ 3 || (m == 23 && fld r.bits 7 5 == 0) then 1
  else if m ≤ 6 then 2
  else if m ≤ 9 then 3
  else if m ≤ 15 then 4
  else if m = 16 then 5
  else if m = 17 then 6
  else if m = 31 then 8 + fld r.bits 7 1
  else 7

/-- How many syllables of a class a bundle may hold (R75). -/
def classLimit (k : Nat) : Nat := if k = 0 || k = 1 || k = 4 then 2 else 1

/-- The Comb network that a syllable uses, 0 read and 1 write (R76, R212). -/
def netOf (i : Instr) : Option Nat :=
  match i with
  | .vld _ _ _ _ | .vldImm _ _ _ | .vldi _ _ _ _ => some 0
  | .vst _ _ _ _ | .vstImm _ _ _ | .vsti _ _ _ _ | .rteSt _ _ => some 1
  | _ => none

/-- Pass 3: the limits of a bundle. -/
def pass3 : Nat → List (RawSyl × Instr) → List Nat → List Nat → Option DecTrap
  | k, [], _, _ => if k = 10 then some { cause := 2, idx := 10, info := 0 } else none
  | k, (r, i) :: rs, cs, ns =>
    let cl := sylClass r
    let many := decide (classLimit cl ≤ cs.count cl)
    let net := match netOf i with
      | some n => ns.contains n
      | none => false
    if many || net then some { cause := 2, idx := k, info := sylInfo r }
    else if r.stop then none
    else pass3 (k + 1) rs (cl :: cs) (match netOf i with
      | some n => n :: ns
      | none => ns)

/-- Decodes a bundle (R73). -/
def decodeBundle (x : Die) (c : Ctx) (rs : List RawSyl) : Except DecTrap (List Instr) :=
  let len := rs.foldl (fun n r => n + r.len) 0
  match pass1 x c len 0 rs with
  | .error e => .error e
  | .ok is =>
    let l := rs.zip is
    match pass2 0 l with
    | some e => .error e
    | none =>
      match pass3 0 l [] [] with
      | some e => .error e
      | none => .ok is

/-! ### Conditions before issue -/

/-- Depth of the mask stack after some instructions, or how a push or a pop breaks its bounds (R128). -/
def maskDepth : Nat → List Instr → Except Bool Nat
  | n, [] => .ok n
  | n, i :: is =>
    match i with
    | .mpush _ _ => if 8 ≤ n then .error true else maskDepth (n + 1) is
    | .mpop _ => if n ≤ 1 then .error false else maskDepth (n - 1) is
    | _ => maskDepth n is

/-- The trap that a bundle takes before it issues, beyond the decode traps (R126, R127). -/
def preTrap (c : Ctx) (is : List Instr) : Option (Nat × Word) :=
  if is.contains .tfence && c.rf.raised != 0 then some (5, c.rf.raised.setWidth 64)
  else match maskDepth c.rf.depthIssue is with
    | .error up => some (6, if up then 1 else 0)
    | .ok _ =>
      match is.findSome? c.absent with
      | some v => some (7, v.setWidth 64)
      | none => none

/-- The vector sources of an instruction. -/
def vecSrcs : Instr → List Src
  | .vaddF _ _ a b _ | .vsubF _ _ a b _ | .vmulF _ _ a b _ | .vmaxF _ _ a b _ | .vminF _ _ a b _ | .vdiv _ _ a b _
  | .vaddI _ _ a b _ | .vsubI _ _ a b _ | .vmulI _ _ a b _ | .vmulh _ _ a b _ | .vand _ _ a b _ | .vor _ _ a b _
  | .vxor _ _ a b _ | .vandn _ _ a b _ | .vshl _ _ a b _ | .vshr _ _ a b _ | .vsar _ _ a b _ | .vminI _ _ a b _
  | .vmaxI _ _ a b _ | .vceq _ _ a b _ | .vcne _ _ a b _ | .vclt _ _ a b _ | .vcle _ _ a b _ | .vcun _ _ a b _
  | .vpack _ _ a b _ | .vevt _ _ a b _ | .vres _ a b _ => [a, b]
  | .vfma _ d a b => [.named d, a, b]
  | .vfmaVw _ _ a b c _ _ _ | .vsel _ c a b _ => [a, b, c]
  | .vabsF _ _ a _ | .vnegF _ _ a _ | .vsqrt _ _ a _ | .vabsI _ _ a _ | .vnegI _ _ a _ | .vmov _ a _ | .mpush a _
  | .mset a _ | .vcvt _ _ _ a _ | .vquant _ _ a _ _ | .vunpk _ _ a _ | .vttw a _ _ | .vst a _ _ _ | .vstImm a _ _
  | .compress _ a _ | .expand _ a _ | .rteSolve _ _ a _ | .rtePass _ a _ | .vldi _ _ a _ => [a]
  | .vsti v _ b _ => [v, b]
  | .vlut _ a b _ => b :: (List.range 4).map fun k => .named (Fin.ofNat 16 (a.val + k))
  | .scanAdd _ _ _ a w | .scanMin _ _ _ a w | .scanMax _ _ _ a w | .scanAnd _ _ a w | .scanOr _ _ a w
  | .scanXor _ _ a w | .scanFirst _ _ a w | .scanLast _ _ a w =>
    a :: ((w.bind (·.seg)).map (·.1)).toList
  | .scanMini _ _ _ a b w | .scanMaxi _ _ _ a b w => [a, b] ++ ((w.bind (·.seg)).map (·.1)).toList
  | _ => []

/-- Whether an instruction reads no scalar register. -/
def noScalar : Instr → Bool
  | .pfx _ | .bundleRoute _ _ _ | .rdsp _ _ | .rdctl _ _ | .movImm _ _ _ | .movLong _ _ _ | .adr _ _ | .lit _ _
  | .fenceK _ | .br _ | .bany _ _ | .ball _ _ | .bnone _ _ | .call _ | .ret | .loopClr _ | .bskip _ | .btok _ _ _
  | .nop | .halt | .trap _ | .tfence | .idem | .idemChk _ | .phase _ | .eret | .waitTok _ | .waitFold _ _ | .yield
  | .rteLd _ _ | .rteMv _ _ | .cpRs _ | .rcpRs _ | .mresume _ _ | .slotClaim _ _ | .slotRelease _ _ | .slotZero _ _
  | .pbar _ _ _ | .minv _ | .mpop _ | .mget _ _ => true
  | i => (vecSrcs i).length ≥ 1 && match i with
    | .vst _ _ _ _ | .vstImm _ _ _ | .vsti _ _ _ _ | .vldi _ _ _ _ | .vquant _ _ _ _ _ | .vttw _ _ _
    | .rteSolve _ _ _ _ | .rtePass _ _ _ => false
    | _ => true

/-- Whether an instruction reads the mask stack: its lanes, or the stack itself (R218, R226). -/
def readsMask : Instr → Bool
  | .vttw _ _ _ | .rteSolve _ _ _ _ | .rtePass _ _ _ | .mset _ _ | .vquant _ _ _ _ _ => false
  | .vbcast _ _ _ _ | .vld _ _ _ _ | .vldImm _ _ _ | .minv _ | .mpop _ | .mget _ _ | .bskip _ => true
  | i => !(vecSrcs i).isEmpty

/-- The lines of a register space that a bundle reads (R167, R175). -/
def linesRead (is : List Instr) : List Nat :=
  0 :: (if is.all noScalar then [] else [1]) ++ (if is.any readsMask then [2] else [])
    ++ is.flatMap fun i => (vecSrcs i).flatMap fun a =>
      let first := match a with
        | .named n => 8 + 4 * n.val
        | .queue n => 72 + 4 * n.val
      [first, first + 1, first + 2, first + 3]

/-- The queue and the produced token of an engine syllable (R141, R145). -/
def engineOf : Instr → Option (Fin 19 × TokId)
  | .cpBb _ _ _ k | .cpPb _ _ _ k | .cpBp _ _ _ k | .cpBo _ _ _ k | .cpRs k => some (qCopy, k.tp)
  | .mwld m _ _ _ _ k | .mmul m _ _ _ _ k | .mdist m _ _ _ _ k | .mcent m _ _ _ _ k => some (qArray m.val, k.tp)
  | .mdrn m _ _ _ k | .mcdrn m _ _ _ k => some (qArray m.val, k.tp)
  | .mbest m _ _ k => some (qArray m.val, k.tp)
  | .mresume m k => some (qArray m.val, k.tp)
  | .slotClaim o k | .slotRelease o k | .slotZero o k => some (qArray (o.val / 8), k.tp)
  | .slotShape o _ k => some (qArray (o.val / 8), k.tp)
  | .rld _ _ _ _ k | .rst _ _ _ _ k | .rcpGet _ _ _ _ k | .rcpPut _ _ _ _ k => some (qRemote, k.tp)
  | .rcpRs k => some (qRemote, k.tp)
  | .rsig _ _ _ k | .rsigRel _ _ _ k => some (qRemote, k.tp)
  | .amoAddFar _ _ _ _ k | .amoAndFar _ _ _ _ k | .amoOrFar _ _ _ _ k | .amoXorFar _ _ _ _ k
  | .amoMaxFar _ _ _ _ k | .amoMinFar _ _ _ _ k | .amoFaddFar _ _ _ _ k | .amoFmaxFar _ _ _ _ k
  | .amoFminFar _ _ _ _ k | .amoSaddFar _ _ _ _ k | .amoSwapFar _ _ _ _ k | .amoCasFar _ _ _ _ k =>
    some (qRemote, k.tp)
  | .mcst _ _ _ _ k | .mcstSt _ _ _ _ k => some (qPanel, k.tp)
  | .pbar _ _ k => some (qPanel, k.tp)
  | .mwin _ _ k => some (qPanel, k.tp)
  | _ => none

/-- Operations that a queue holds (R142). -/
def queueDepth : Nat := 16

/-- Whether a bundle is held before issue by its engine syllable (R139). -/
def engineHeld (x : Die) (c : Ctx) (is : List Instr) : Bool :=
  is.any fun i => match engineOf i with
    | some (q, t) => decide (queueDepth ≤ (x.queues[q]).length) || c.tok[t] == .pending
    | none => false

/-! ### Expected tags before issue (R129, R190) -/

/-- The window address, and whether it is a vector access's, of each tile word that a load of a bundle would read. -/
def readsOf (c : Ctx) (set : Setting) (i : Instr) : List (Nat × Bool) :=
  let rf := c.rf
  let vec (v : VAddr) : List (Nat × Bool) := ((vecAddrs c.win v set).filterMap id).map fun a => (a / 8 * 8, true)
  match i with
  | .ld _ _ a b => [(c.win.byteAddr (rf.src a + rf.src b) 0, false)]
  | .ldOffset _ _ _ a off => [(c.win.byteAddr (rf.src a + signExt off) 0, false)]
  | .vld _ a b w => vec (.straight (straightOff (rf.src a) (rf.src b) w))
  | .vldImm _ a m => vec (.straight (straightOff (rf.src a) 0 (some m)))
  | .vldi _ a b w => vec (.rows (rowsBase (rf.src a) (idxMem w)) (modVec (idxMod w) (rf.vsrc b)))
  | _ => []

/-- The far-mode bits that a bundle's read transfer has. -/
def readFar (is : List Instr) : BitVec 16 :=
  (is.findSome? fun i => match i with
    | .bundleRoute false far _ => some far
    | _ => none).getD 0

/-- The first tile word whose tag differs from the expected tag of its access: its address, whether the access is a
vector access, and both tags. DESIGN CHOICE: of several that differ, the first access of the bundle and its lowest bank
(log 158). -/
def tagMiss (x : Die) (c : Ctx) (far : BitVec 16) : List Instr → Option (Nat × Bool × BitVec 8 × BitVec 8)
  | .pfx p :: i :: is =>
    match (if p.tagEn then (readsOf c { bits := 0, far := far } i).find? fun a => x.tagAt a.1 != p.tag else none) with
    | some a => some (a.1, a.2, x.tagAt a.1, p.tag)
    | none => tagMiss x c far (i :: is)
  | _ :: is => tagMiss x c far is
  | [] => none

/-! ### Waits (R156 to R159, R114) -/

/-- The error of a token: the code that its macro record holds (R154, R170). -/
def Ctx.tokErr (c : Ctx) (t : TokId) : Nat :=
  (if bitAt c.recHnd t.val then c.hndRec[t] else c.macroRec[t]).toNat / 2 ^ 64 % 256

/-- trap_info of an engine error at a wait (R133). -/
def tokInfo (c : Ctx) (t : TokId) : Word := BitVec.ofNat 64 (field (c.tokErr t) 16 8 + t.val)

def foldInfo (code : BitVec 8) (f : FoldId) : Word :=
  BitVec.ofNat 64 (field code.toNat 16 8 + 2 ^ 15 + field f.val 8 7)

/-- How a wait stands. -/
inductive WaitIs where
  | no
  | met
  | error (info : Word)
  deriving DecidableEq, Repr

/-- A wait that has completed, with the lowest of some tokens in error. -/
def Ctx.tokDone (c : Ctx) (l : List TokId) : WaitIs :=
  match (List.finRange 64).find? fun t => l.contains t && c.tok[t] == .error with
  | some t => .error (tokInfo c t)
  | none => .met

/-- Whether a running remote copy has units that it has not begun (R316). -/
def Op.moreUnits (o : Op) : Bool :=
  isRcp o.ins && o.st == .running && o.err == 0 && !o.abort && decide (256 * o.next < copyLen o)

/-- Whether a remote operation of a die still has accesses to be answered (R114): it has not ended, and some access is
not yet sent or not yet answered. -/
def State.opOpen (s : State) (d : DieId) (o : Op) : Bool :=
  o.st == .queued || o.fetching || o.moreUnits
    || s.panel.raccs.any fun a => a.src == d && a.op == o.id && a.eng == qRemote && a.st != .landing

/-- The class of a remote operation: a `rcp.rs` that has not started has that of the copy that it is to resume (R317). -/
def Die.remoteCls (x : Die) (o : Op) : Fin 16 :=
  match o.ins, o.st with
  | .rcpRs _, .queued => ((x.rcpResume[o.ctx]).map fun e => e.op.cls).getD o.cls
  | _, _ => o.cls

/-- Whether an earlier remote operation of a context in some classes is still open (R114, R318, R357). -/
def State.remoteOpen (s : State) (d : DieId) (c : CtxId) (mask : BitVec 16) (before : Nat) : Bool :=
  ((s.die d).queues[qRemote]).any fun o =>
    o.ctx == c && decide (o.bundle < before) && natBit mask.toNat ((s.die d).remoteCls o).val
      && o.st != .ended && s.opOpen d o

/-- How a wait of a context stands at the start of a cycle. A fence waits for the accesses of the bundles before its own:
DESIGN CHOICE (log 114). -/
def State.waitIs (s : State) (d : DieId) (n : CtxId) (w : Wait) : WaitIs :=
  let x := s.die d
  let c := x.ctx n
  match w with
  | .tokens l => if l.any fun t => c.tok[t] == .pending then .no else c.tokDone l
  | .any mask =>
    let l := (List.finRange 64).filter fun t => bitAt mask t.val
    if l.isEmpty || l.any (fun t => c.tok[t] != .pending) then c.tokDone l else .no
  | .fold f ph =>
    let o := x.folds[f]
    if o.err then .error (foldInfo o.errCode f) else if o.phase == ph then .met else .no
  | .fence mask before =>
    let own := x.accs.any fun a =>
      a.ctx == n && !a.isDrain && decide (a.bundle < before) && natBit mask.toNat a.cls.val
    if own || s.remoteOpen d n mask before then .no else .met
  | .yield | .backEdge | .ret => .met
  | .tags _ =>
    match gather x (s.ctxRoot d n) 10 c.rf.pc [] with
    | .miss _ => .met
    | .ok rs =>
      match decodeBundle x c rs with
      | .error _ => .met
      | .ok is => if (tagMiss x c (readFar is) is).isSome then .no else .met
  | .fetch => if x.held (.fetch n) then .no else .met
  | .refill | .switchOut => .no

/-- How all waits of a context stand: not met while one is not, else the first error. -/
def State.waitsIs (s : State) (d : DieId) (n : CtxId) : WaitIs :=
  let l := (s.ctx d n).waits.map (s.waitIs d n)
  if l.contains .no then .no
  else (l.find? fun r => r != .met).getD .met

/-! ### The selector (R137, R138) -/

/-- Whether a context other than the holder is Ready. -/
def Die.otherReady (x : Die) (n : CtxId) : Bool :=
  (List.finRange 4).any fun k => k != n && (x.ctx k).st == .ready

/-- The context after another, modulo 4. -/
def nextCtx (n : CtxId) (k : Nat) : CtxId := Fin.ofNat 4 (n.val + k)

/-- Gives a context the width: its quantum count restarts, and it issues no earlier than a cycle. -/
def Die.take (x : Die) (n : CtxId) (from_ : Nat) (switch : Bool) : Die :=
  let seq := x.seq
  let x := { x with seq := { seq with holder := some n, last := n
                                      switches := if switch then seq.switches + 1 else seq.switches } }
  x.modCtx n fun c => { c with st := .running, quantum := 0, earliest := max c.earliest from_ }

/-- The first cycle in which every fixed-latency result that a context has in flight has landed before its bundle: a
result lands before the bundle of its cycle, and flags after it (R17, R18). -/
def Die.landedBy (x : Die) (n : CtxId) : Nat :=
  let m := (x.ctx n).flight.foldl (fun m f => max m (f.due + f.land.isFlags.toNat)) 0
  x.accs.foldl (fun m a =>
    if a.ctx == n then max m (match a.kind with
      | .amo _ _ _ _ _ _ _ => a.landing + 1
      | _ => a.landing)
    else m) m

/-- The width passes to another context after a switch cycle (R138): the results in flight of the context that had it land
before that context issues again (R27). -/
def Die.switchTo (x : Die) (n : CtxId) (from_ : Nat) : Die :=
  let h := x.seq.last
  let due := x.landedBy h
  (x.modCtx h fun c => { c with earliest := max c.earliest due }).take n from_ true

/-- The selector's choice in a cycle in which no context holds the width (R138). -/
def Die.choose (x : Die) (m : Nat) : Die :=
  let h := x.seq.last
  let others := [nextCtx h 1, nextCtx h 2, nextCtx h 3]
  let ready (n : CtxId) : Bool := (x.ctx n).st == .ready
  if m ≠ x.seq.gaveUp + 1 && ready h then x.take h m false
  else match others.find? ready with
    | some n => x.switchTo n (m + 1)
    | none => x

/-- A context gives up the width at the bundle of cycle k, into a state. -/
def Die.giveUp (x : Die) (n : CtxId) (k : Nat) (st : CtxState) : Die :=
  let seq := x.seq
  let x := x.modCtx n fun c => { c with st := st }
  if seq.holder == some n then { x with seq := { seq with holder := none, gaveUp := k } } else x

/-- A context blocks at the start of a cycle, which is then a switch cycle if another is Ready. -/
def State.block (s : State) (d : DieId) (n : CtxId) (l : List Wait) : State :=
  let s := s.modCtx d n fun c => { c with waits := l }
  s.modDie d fun x => (x.giveUp n (s.cycle - 1) .blocked).choose s.cycle

/-- The width passes to another Ready context at a switch point whose condition holds (R137). -/
def State.pass (s : State) (d : DieId) (n : CtxId) : State :=
  let s := s.modCtx d n fun c => { c with waits := [] }
  s.modDie d fun x => (x.giveUp n (s.cycle - 1) .ready).choose s.cycle

/-! ### Fetch misses (R31, R32) -/

/-- Loads the line of an address into the cache, or starts a walk for it; at a fault the context blocks. A line in an
active migration range is asked for again after the station's interval (R325), and an uncorrectable one loses the task
(R302, R345). -/
def State.fetchLine (s : State) (d : DieId) (n : CtxId) (va : Word) : State :=
  let root := s.ctxRoot d n
  let line := va.toNat / 64
  match s.translate d root va .exec (.fetch n) with
  | (s, some e) =>
    let pa := e.phys' (BitVec.ofNat 64 (64 * line))
    if s.refusesAt pa 64 then
      (s.dieRefused d pa).modCtx d n fun c => { c with earliest := s.retryAt pa }
    else if s.memBadAt pa 64 then s.loseTask d n (s.ctx d n).rf.pc (BitVec.ofNat 64 (field va.toNat 16 48 + 5)) []
    else
    let l : ICLine := { root := root, line := line, bytes := s.readMem pa 64 }
    let s := s.modDie d fun x =>
      let seq := x.seq
      { x with seq := { seq with icache := (seq.icache.filter fun o => !(o.root == root && o.line == line)) ++ [l] } }
    (s.modCtx d n fun c => { c with earliest := s.cycle + 1 + Config.delay s.freeCtr }).takeFree
  | (s, none) => if (s.die d).faulted (.fetch n) then s.block d n [.fetch] else s

/-! ### Issuing a bundle -/

/-- Charges a unit's work in this cycle to a context (R164). -/
def State.works (s : State) (d : DieId) (u : Nat) (n : CtxId) : State :=
  s.modDie d fun x =>
    let seq := x.seq
    { x with seq := { seq with busy := (u, n) :: seq.busy } }

/-- Starts the issue of a decoded bundle: its syllables take effect one by one in this cycle (R70). -/
def State.startIssue (s : State) (d : DieId) (n : CtxId) (rs : List RawSyl) : State :=
  let x := s.die d
  let c := x.ctx n
  let iss : Issue := { active := true, die := d, ctx := n, hnd := c.priv, p := c.rf.pc
                       len := rs.foldl (fun k r => k + r.len) 0, buf := rs.flatMap fun r => leBytes r.len r.bits
                       bundle := x.seq.bundles }
  let s := s.modDie d fun x =>
    let seq := x.seq
    { x with seq := { seq with bundles := seq.bundles + 1 } }
  let s := s.modCtx d n fun c => { c with st := .running, quantum := c.quantum + 1, waits := [] }
  { s.works d 0 n with iss := iss }

/-- The route block of a bundle that fails its check (R204). -/
def State.badBlock (s : State) (d : DieId) (n : CtxId) (p : Word) (rs : List RawSyl) : Option Word :=
  let x := s.die d
  let root := s.ctxRoot d n
  let word (a : Word) : Word := wordOfBytes ((x.icBytes root a 8).getD [])
  rs.findSome? fun r => match sylBlock r p with
    | none => none
    | some (a, len) =>
      let k := len.getD (blockWords (word a))
      if (routeBlock ((List.range k).map fun j => word (a + BitVec.ofNat 64 (8 * j))) len).isNone then some a else none

/-- The checks of a decoded bundle before it issues, and its issue (R73, R126 to R129, R139, R175, R204). -/
def State.issueDecoded (s : State) (d : DieId) (n : CtxId) (rs : List RawSyl) (is : List Instr) : State :=
  let x := s.die d
  let c := x.ctx n
  let p := c.rf.pc
  let rd := x.readLines n c.priv (linesRead is)
  let s := s.setDie d rd.1
  match rd.2 with
  | some line => s.loseWord d n p 2 line
  | none =>
  match s.badBlock d n p rs with
  | some a =>
    let s := s.modDie d fun x =>
      let st := x.stat
      { x with stat := { st with routeFails := if st.routeFails = BitVec.allOnes 32 then st.routeFails
                                               else st.routeFails + 1 } }
    s.loseTask d n p (BitVec.ofNat 64 (field a.toNat 16 48 + 4)) []
  | none =>
  match preTrap c is with
  | some (cause, info) => s.takeTrap d n { cause := cause, addr := p, resume := p, info := info }
  | none =>
  if c.tagWait && (tagMiss x c (readFar is) is).isSome then s.block d n [.tags s.cycle]
  else if engineHeld x c is then s.modCtx d n fun c => { c with st := .held }
  else s.startIssue d n rs

/-- Fetches, decodes and issues the next bundle of the running context (R72, R73). -/
def State.issueBundle (s : State) (d : DieId) (n : CtxId) : State :=
  let x := s.die d
  let c := x.ctx n
  let p := c.rf.pc
  let root := s.ctxRoot d n
  match gather x root 10 p [] with
  | .miss va => s.fetchLine d n va
  | .ok rs =>
    match rs.findSome? (poolMiss x root p) with
    | some va => s.fetchLine d n va
    | none =>
      if Config.lineLost s.freeCtr then
        (s.modDie d fun x =>
          let seq := x.seq
          { x with seq := { seq with icache := seq.icache.filter fun l =>
              !(l.root == root && l.line == p.toNat / 64) } }).takeFree
      else
        let s := s.takeFree
        match decodeBundle x c rs with
        | .error e => s.takeTrap d n { cause := e.cause, syl := e.idx, addr := p, resume := p, info := e.info }
        | .ok is => s.issueDecoded d n rs is

/-- The line of the macro record that an engine-error trap reads for its code, and whose partition it lies in. -/
def Ctx.errLine (c : Ctx) (info : Word) : Option (Bool × Nat) :=
  if bitAt info 15 then none
  else
    let t : TokId := Fin.ofNat 64 (bits info 0 6)
    some (bitAt c.recHnd t.val, macroLine t)

/-- The engine-error trap of a wait (R126, R156): taken at the end of the cycle unless another trap comes first. A record
whose line is uncorrectable loses the task instead (R175). -/
def State.waitTrap (s : State) (d : DieId) (n : CtxId) (info : Word) : State :=
  let rd := match (s.ctx d n).errLine info with
    | some (hnd, line) => (s.die d).readLines n hnd [line]
    | none => (s.die d, none)
  let s := s.setDie d rd.1
  match rd.2 with
  | some line => s.loseWord d n (s.ctx d n).waitPc 2 line
  | none => s.modCtx d n fun c =>
    { c with pendTrap := some { cause := 0x0A, addr := c.waitPc, resume := c.rf.pc, info := info } }

/-- The running context's turn in a cycle. A handler whose space is still being activated does not issue (R180), and one
whose lines come from panel memory gives up the width meanwhile (R26, R173). -/
def State.tryIssue (s : State) (d : DieId) (n : CtxId) : State :=
  let c := s.ctx d n
  if c.st == .held || c.pendTrap.isSome then s
  else if c.priv && c.act.any (·.hnd) then
    if c.act.any fun a => homePanel a.base || homePanel c.hndBase then s.block d n [.refill] else s
  else if c.waits.isEmpty then if s.cycle < c.earliest then s else s.issueBundle d n
  else match s.waitsIs d n with
    | .no => s.block d n c.waits
    | .error info => s.waitTrap d n info
    | .met =>
      if c.waits.contains .yield && (s.die d).otherReady n then s.pass d n
      else if s.cycle < c.earliest then s
      else if c.waits.contains .ret then
        let s := s.returnTrap d n (c.earliest - 3)
        if (s.ctx d n).st == .ending then s else (s.modCtx d n fun c => { c with waits := [] }).issueBundle d n
      else (s.modCtx d n fun c => { c with waits := [] }).issueBundle d n

/-- BUNDLE_ISSUE (R73, R138): the selector chooses, and the context that holds the width issues its next bundle. -/
def execBundleIssue (s : State) : Host.Outcome State Fault Refusal :=
  let d := s.ev.die
  let x := s.die d
  .next (if x.seq.inReset || x.seq.stall then s
    else
      let s := if x.seq.holder.isNone then s.modDie d fun x => x.choose s.cycle else s
      match (s.die d).seq.holder with
      | some n => s.tryIssue d n
      | none => s)

/-! ### The end of a bundle -/

/-- The next pc by the end checks of the armed loop levels (R122), the levels, and whether a back edge of a switchable
level is taken. A level whose count reaches 0, or falls below it, is disarmed with count 0. -/
def endCheck (seq : Word) (ls : Vector LoopLvl 4) : Word × Vector LoopLvl 4 × Bool :=
  let r : Option (Word × Bool) × Vector LoopLvl 4 := [3, 2, 1, 0].foldl (fun r k =>
    let i : Fin 4 := Fin.ofNat 4 k
    let l := r.2[i]
    if r.1.isSome || !(l.armed && l.stop == seq) then r
    else if 1 < l.count.toNat then (some (l.start, l.sw), vset r.2 i { l with count := l.count - 1 })
    else (none, vset r.2 i { l with count := 0, armed := false })) (none, ls)
  match r.1 with
  | some (a, sw) => (a, r.2, sw)
  | none => (seq, r.2, false)

/-- The next pc, the loop levels, whether a switchable back edge is taken and whether a branch is taken (R122). -/
def nextPc (i : Issue) (ls : Vector LoopLvl 4) : Word × Vector LoopLvl 4 × Bool × Bool :=
  match i.target with
  | some t => (t, ls, false, true)
  | none =>
    match i.loopSet, i.loopClr with
    | some (k, l), _ => (i.after, vset ls k l, false, false)
    | none, some m =>
      (i.after, Vector.ofFn fun k => if natBit m.toNat k.val then { ls[k] with armed := false } else ls[k], false, false)
    | none, none =>
      let r := endCheck i.after ls
      (r.1, r.2.1, r.2.2, false)

/-- Puts the staged vector transfers on their way, with the settings that the bundle chose (R89). -/
def State.sendStaged (s : State) : State :=
  let i := s.iss
  i.staged.foldl (fun s a =>
    let kind := match a.kind with
      | .vload d v m _ => .vload d v m (i.rdRoute.getD {})
      | .vstore v w m _ => .vstore v w m (i.wrRoute.getD {})
      | k => k
    (s.modDie i.die fun x => { x with accs := x.accs ++ [{ a with kind := kind }] }).sched a.due
      .bankAccessPerform { die := i.die, ord := a.ord, id := a.id }) s

/-- What a context does after a bundle: `halt`, `trap`, `eret`, `ctxsw` or its waits (R35, R124, R135, R156, R177). The
resume address of a software trap, or of a wait in error, is the next pc that R122 has chosen: DESIGN CHOICE
(log 115). -/
def State.afterBundle (s : State) (i : Issue) (next : Word) (back : Bool) : State :=
  let d := i.die
  let n := i.ctx
  if i.halt then
    let s := s.modCtx d n fun c =>
      { c with ending := if !c.priv then .halt else if c.taskEmpty then .noTask else .handlerHalt, cutAt := none
               waits := [] }
    s.modDie d fun x => x.giveUp n s.cycle .ending
  else
    let waits := i.waits ++ (if back then [.backEdge] else []) ++ (if i.eret then [.ret] else [])
      ++ (if i.ctxsw.isSome then [.switchOut] else [])
    let drained := s.drainDue d n + 1
    s.modCtx d n fun c =>
      { c with waits := waits, waitPc := i.p
               earliest := if i.eret then max (s.cycle + 3) drained else c.earliest
               ctxswArg := if i.ctxsw.isSome then i.ctxsw else c.ctxswArg
               pendTrap := match i.trapCode with
                 | some code => some { cause := 9, swCode := code, addr := i.p, resume := next }
                 | none => c.pendTrap }

/-- The end of a bundle: its transfers go, and the next pc is chosen (R24, R70, R122). A write of a loop level, whatever
its value, marks line 0 (R172). A bundle that has read an uncorrectable truth-table word then loses its task (R234). -/
def State.finishBundle (s : State) : State :=
  let i := s.iss
  let s := s.sendStaged
  let r := nextPc i (s.ctx i.die i.ctx).rf.loops
  let s := s.modCtx i.die i.ctx fun c =>
    let c := c.modFile i.hnd fun f =>
      let changed := r.2.1 != f.loops || (i.target.isNone && (i.loopSet.isSome || i.loopClr.any (· != 0)))
      let f := { f with pc := r.1 &&& ~~~3, loops := r.2.1 }
      if changed then f.touch 0 else f
    if r.2.2.2 then { c with earliest := max c.earliest (s.cycle + 3) } else c
  let s := { s.afterBundle i (r.1 &&& ~~~3) r.2.2.1 with iss := {} }
  match i.lost with
  | some g => s.loseWord i.die i.ctx i.p 1 g
  | none => s

/-- The units that a syllable makes work in its issue cycle (R164). DESIGN CHOICE: VA, VB, SX, the route expander and the
Drover work in that cycle only, whatever their latency (log 120). -/
def unitOf (i : Instr) (r : RawSyl) (nVec : Nat) : Option Nat :=
  match i with
  | .rteSolve _ _ _ _ | .rtePass _ _ _ => some 5
  | _ =>
    let k := sylClass r
    if k = 4 then some (1 + nVec) else if k = 5 then some 3 else if k = 6 || k = 8 || k = 9 then some 4 else none

/-- After a syllable that has taken effect: the next syllable of the bundle, or its end. -/
def State.afterSyllable (s : State) (i : Instr) (r : RawSyl) : State :=
  if !s.iss.active then s
  else
    let k := sylClass r
    let s := match unitOf i r s.iss.nVec with
      | some u => s.works s.iss.die u s.iss.ctx
      | none => s
    let iss := s.iss
    let s := { s with iss := { iss with
      buf := iss.buf.drop r.len, taken := iss.taken + 1
      nInt := if k = 1 then iss.nInt + 1 else iss.nInt
      nVec := if k = 4 then iss.nVec + 1 else iss.nVec
      pfx := if k = 0 then iss.pfx else none } }
    if r.stop then s.finishBundle else s

/-! ### Steps of the sequencer -/

/-- QUANTUM_EXPIRY (R137): at a switch point whose condition holds, a context that has used its quantum passes the width
to another Ready context. -/
def execQuantumExpiry (s : State) : Host.Outcome State Fault Refusal :=
  let d := s.ev.die
  let n := s.ev.ctx
  let x := s.die d
  let c := x.ctx n
  .next (if x.seq.holder == some n && c.st == .running && !c.waits.isEmpty && decide (x.seq.quantum ≤ c.quantum)
      && x.otherReady n && s.waitsIs d n == .met then
    if c.waits.contains .ret then
      s.modDie d fun x => (x.giveUp n (s.cycle - 1) .ready).choose s.cycle
    else s.pass d n
  else s)

/-- WAIT_CONDITION_MET (R137, R156): a Blocked context whose condition holds becomes Ready, or takes the engine-error
trap of its wait. -/
def execWaitConditionMet (s : State) : Host.Outcome State Fault Refusal :=
  let d := s.ev.die
  let n := s.ev.ctx
  .next (if (s.ctx d n).st != .blocked then s
    else match s.waitsIs d n with
      | .no => s
      | .error info => (s.modCtx d n fun c => { c with st := .ready, waits := [] }).waitTrap d n info
      | .met => s.modCtx d n fun c => { c with st := .ready, waits := c.waits.filter (· == .ret) })

/-- HELD_BUNDLE_RELEASE (R139): a held bundle whose hold reasons have cleared issues in this cycle. -/
def execHeldBundleRelease (s : State) : Host.Outcome State Fault Refusal :=
  let d := s.ev.die
  let n := s.ev.ctx
  .next (if (s.ctx d n).st == .held then s.modCtx d n fun c => { c with st := .running } else s)

/-- TAG_WAIT_LIMIT (R129, R130): a hold that has lasted its limit ends in the schedule fault, timed out. -/
def execTagWaitLimit (s : State) : Host.Outcome State Fault Refusal :=
  let d := s.ev.die
  let n := s.ev.ctx
  let x := s.die d
  let c := x.ctx n
  .next (match c.waits.find? fun w => w == .tags s.ev.seq with
    | none => s
    | some _ =>
      match gather x (s.ctxRoot d n) 10 c.rf.pc [] with
      | .miss _ => s
      | .ok rs =>
        match decodeBundle x c rs with
        | .error _ => s
        | .ok is =>
          match tagMiss x c (readFar is) is with
          | none => s
          | some (a, vec, found, want) =>
            let info := BitVec.ofNat 64 (field a 32 27 + 131072 * vec.toNat + 65536 + field found.toNat 8 8 + want.toNat)
            s.takeTrap d n { cause := 8, addr := c.rf.pc, resume := c.rf.pc, info := info })

/-- A requester of a context that is free again. -/
def Requester.leave (n : CtxId) : Requester → Requester
  | .fetch c => if c = n then .gone 0 c else .fetch c
  | .regSpace c => if c = n then .gone 5 c else .regSpace c
  | r => r

/-- The walks and fault records of a context that is free again answer nobody (R310). -/
def Die.leaveWalks (x : Die) (n : CtxId) : Die :=
  { x with walks := x.walks.map fun w => { w with who := w.who.leave n }
           faults := x.faults.map fun f => { f with walk := { f.walk with who := f.walk.who.leave n } } }

/-- Frees a context: its owner bits clear, its request is cleared and its window returns to the die (R35, R152, R182,
R184, R257). -/
def State.freeCtx (s : State) (d : DieId) (n : CtxId) : State :=
  s.modDie d fun x => ((x.releaseOwned n).leaveWalks n).modCtx n fun c =>
    { c with st := .free, priv := false, hasWin := false, taskEmpty := true, hndEmpty := true, preReq := false
             preReqOld := false, cutAt := none, preDeferred := false, waits := [], act := none, ctxswArg := none
             trapEnter := false, pendTrap := none }

/-- Whether a context has a fixed-latency effect in flight: results, bank accesses, arrivals at folds (R35, R162). -/
def State.fixedInFlight (s : State) (d : DieId) (n : CtxId) : Bool :=
  let x := s.die d
  !(x.ctx n).flight.isEmpty || x.accs.any (fun a => a.ctx == n && !a.isDrain)
    || s.agenda.any fun e => (e.act == .arrivePerform || e.act == .foldSetPerform) && e.arg.die == d && e.arg.ctx == n

/-- Whether a context has anything in flight: fixed-latency effects and engine operations (R35, R162). -/
def State.busyCtx (s : State) (d : DieId) (n : CtxId) : Bool :=
  let x := s.die d
  s.fixedInFlight d n || x.accs.any (fun a => a.ctx == n) || x.ops.any fun o => o.ctx == n

/-- The loss of a task without a handler, with its trap record, once its results have landed (R131, R132). -/
def State.endUnhandled (s : State) (d : DieId) (n : CtxId) : State :=
  if s.fixedInFlight d n then s else s.loseTask d n (s.ctx d n).trapAddr 1 [trapEntry (s.ctx d n) n]

/-- TASK_END (R35, R132, R134, R135, R162): with nothing in flight any more, the context is free, and the end of the task
is reported and counted. A task that a trap without a handler ends is lost once its results have landed. -/
def execTaskEnd (s : State) : Host.Outcome State Fault Refusal :=
  let d := s.ev.die
  let n := s.ev.ctx
  let c := s.ctx d n
  .next (if c.st == .ending && c.ending == .noHandler then s.endUnhandled d n
    else if c.st != .ending || c.ending == .cutBack || s.busyCtx d n then s
    else
      let s := match c.ending with
        | .halt => s.launchEnds c.queue c.pkt true
        | .handlerHalt =>
          (s.report c.queue [taskEntry c n 4 c.trapCause c.trapAddr]).launchEnds c.queue c.pkt true
        | _ => s
      s.freeCtx d n)

end Sys2Proof.Machine
end

