-- ==== Sys2Proof/Machine/Remote.lean ====
section
/-! DEFINITION. The remote engine and the streams (R311 to R327): starting an operation, sending its accesses, their
commit at the destination, the replies, holds for retry and time-outs. -/

namespace Sys2Proof.Machine

/-! ### Operations (R314 to R319) -/

/-- The atomic of a far minor (R313, R319). -/
def farAmo : Instr → Option AmoOp
  | .amoAddFar _ _ _ _ _ => some .add | .amoAndFar _ _ _ _ _ => some .and | .amoOrFar _ _ _ _ _ => some .or
  | .amoXorFar _ _ _ _ _ => some .xor | .amoMaxFar _ _ _ _ _ => some .max | .amoMinFar _ _ _ _ _ => some .min
  | .amoFaddFar _ _ _ _ _ => some .fadd | .amoFmaxFar _ _ _ _ _ => some .fmax | .amoFminFar _ _ _ _ _ => some .fmin
  | .amoSaddFar _ _ _ _ _ => some .sadd | .amoSwapFar _ _ _ _ _ => some .swap | .amoCasFar _ _ _ _ _ => some .cas
  | _ => none

/-- The type that a type code gives an atomic, if the atomic accepts it (R115). -/
def amoTy (op : AmoOp) (code : Nat) : Option Ty :=
  match op with
  | .fadd | .fmax | .fmin => if code = 7 then some .f32 else none
  | .sadd => if code = 8 then some .s32 else if code = 10 then some .s64 else none
  | _ =>
    match code with
    | 8 => some .s32 | 9 => some .z32 | 10 => some .s64 | 11 => some .z64
    | _ => none

/-- Whether an operation is `rcp.put`. -/
def isPut : Instr → Bool
  | .rcpPut _ _ _ _ _ => true
  | _ => false

/-- Whether `rld` or `rst` moves 8 bytes (R313). -/
def wideOf : Instr → Bool
  | .rld _ _ _ w _ | .rst _ _ _ w _ => w
  | _ => false

/-- An address rounded down to a multiple of n. -/
def alignDown (a : Word) (n : Nat) : Word := a - BitVec.ofNat 64 (a.toNat % n)

/-- Whether a remote copy stamps the tiles it writes (R316). -/
def rcpStamp (o : Op) : Option (BitVec 8) :=
  match o.ins with
  | .rcpGet _ _ _ _ _ => if bitAt o.vb 40 then some (BitVec.ofNat 8 (bits o.vb 32 8)) else none
  | _ => none

/-- A remote operation with nothing left to do ends (R314). -/
def State.remoteDone (s : State) (d : DieId) (id : Nat) : State :=
  match s.op d qRemote id with
  | none => s
  | some o =>
    if o.st != .running || !(s.accsOf d id).isEmpty then s
    else if o.err ≠ 0 then s.schedOnce s.cycle .engineOpError { die := d, eng := qRemote, id := id, code := o.err }
    else if o.abort then s.schedOnce s.cycle .engineOpError { die := d, eng := qRemote, id := id, code := 5 }
    else if isRcp o.ins && decide (256 * o.next < copyLen o) then s
    else s.schedOnce s.cycle .engineOpComplete { die := d, eng := qRemote, id := id }

/-- A remote operation starts: its accesses take their place in its stream (R314 to R319). -/
def State.startRemote (s : State) (d : DieId) (o : Op) : State :=
  let o' := match o.ins with
    | .rcpRs _ =>
      match (s.die d).rcpResume[o.ctx] with
      | none => { o with vb := 0 }
      | some e =>
        { o with ins := e.op.ins, va := e.op.va, vb := e.op.vb, vd := e.op.vd, cls := e.op.cls, win := e.op.win
                 job := e.op.job, bind := e.op.bind, progress := e.op.progress, next := e.op.progress / 256
                 tiles := e.op.tiles }
    | _ => o
  let n := if wideOf o.ins then 8 else 4
  let s := s.modOp d qRemote o.id fun _ => { o' with st := .running, start := s.cycle }
  let s := s.putOpRecord d qRemote o' 2
  let s := match o.ins with
    | .rld _ _ _ _ _ => s.newAcc d qRemote o o.cls 0 0 .load (alignDown o.va n) n []
    | .rst _ _ _ _ _ => s.newAcc d qRemote o o.cls 0 0 .store (alignDown o.va n) n (bytesOfNat n o.vb.toNat)
    | .rsig _ _ _ _ | .rsigRel _ _ _ _ => s.newAcc d qRemote o o.cls 0 0 .signal o.va 4 (bytesOfNat 4 o.vd.toNat)
    | _ =>
      match farAmo o.ins with
      | none => s
      | some op =>
        match amoTy op (bits o.vd 32 4) with
        | none => s.modOp d qRemote o.id fun p => { p with flags := p.flags ||| fInvalid }
        | some t =>
          let n := t.width / 8
          s.newAcc d qRemote o o.cls 0 0 (.amo op t o.fmt) (alignDown o.va n) n (bytesOfWord o.vb ++ bytesOfWord o.vc)
  let s := match o.ins with
    | .rsigRel _ _ _ _ => s.modPanel fun p => { p with raccs := replaceIf (fun a => a.src == d && a.op == o.id)
                                                          (fun a => { a with release := true }) p.raccs }
    | _ => s
  s.remoteDone d o.id

/-- Whether an access stands at its source, not yet sent or to be sent again. -/
def RAcc.unsent (a : RAcc) : Bool := a.st == .waiting || a.st == .reading || a.st == .resend

/-- Puts the last access of the list in its place in its stream: before those of later remote operations (R314). -/
def inOrder (l : List RAcc) : List RAcc :=
  match l.getLast? with
  | none => l
  | some a =>
    let r := l.dropLast.span fun b => !(b.src == a.src && b.stream == a.stream && b.eng == a.eng && decide (a.op < b.op))
    r.1 ++ a :: r.2

/-- An aborted remote copy begins no further unit: the units that wait with none of their bytes sent go (R143). -/
def State.dropUnbegun (s : State) (d : DieId) (op : Nat) : State :=
  let l := (s.accsOf d op).filter fun a => a.st == .waiting && a.part == 0 && !a.resent
  s.modPanel fun p => { p with raccs := p.raccs.filter fun a =>
    !(a.src == d && a.op == op && a.st == .waiting && !a.resent && l.any fun b => b.unit == a.unit) }

/-- The next unit of a running remote copy takes its place in its stream (R314, R316): the list holds the next two
units that are still to be sent. -/
def State.rcpCycle (s : State) (d : DieId) (o : Op) : State :=
  if isRcp o.ins && o.err = 0 && !o.abort && decide (256 * o.next < copyLen o)
      && decide (((s.accsOf d o.id).filter RAcc.unsent).length < 2) then
    let n := unitLen (copyLen o) o.next
    let k : RKind := if isPut o.ins then .store else .load
    let s := s.newAcc d qRemote o o.cls o.next 0 k (o.va + BitVec.ofNat 64 (256 * o.next)) n []
    let s := s.modPanel fun p => { p with raccs := inOrder p.raccs }
    s.modOp d qRemote o.id fun o => { o with next := o.next + 1 }
  else if isRcp o.ins && o.abort then s.dropUnbegun d o.id
  else s

/-! ### Pairs (R320, R321) -/

/-- Whether two pairs are of one stream and one incarnation of a destination. -/
def Pair.same (p q : Pair) : Bool := p.src == q.src && p.stream == q.stream && p.dest == q.dest && p.inc == q.inc

/-- The pair of an access as it starts: no number taken. -/
def RAcc.newPair (a : RAcc) : Pair := { src := a.src, stream := a.stream, dest := a.dest, inc := a.inc }

/-- The pair of an access. -/
def State.pair (s : State) (a : RAcc) : Pair :=
  (s.panel.pairs.find? fun p => p.same a.newPair).getD a.newPair

def State.setPair (s : State) (p : Pair) : State :=
  s.modPanel fun x => { x with pairs := (x.pairs.filter fun q => !q.same p) ++ [p] }

/-- Whether an access has been sent and is not yet acknowledged. -/
def RAcc.isOut (a : RAcc) : Bool := !a.orphan && (a.st == .sent || a.st == .arrived || a.st == .performing || a.st == .answered)

/-- Accesses of a pair that are sent and not yet acknowledged (R320). -/
def State.outOf (s : State) (src : DieId) (k : StreamKey) (t : Dest) : Nat :=
  (s.panel.raccs.filter fun a => a.src == src && a.stream == k && a.dest == t && a.isOut).length

/-- The context of a stream. -/
def StreamKey.ctxOf : StreamKey → CtxId
  | .ctx c _ => c
  | .queue _ => 0

def StreamKey.clsOf : StreamKey → Fin 16
  | .ctx _ k => k
  | .queue _ => 0

/-- Who asks for the translation of an access (R310). -/
def RAcc.who (a : RAcc) : Requester :=
  match a.stream with
  | .queue q => .queue q 2
  | .ctx _ _ =>
  if a.eng = qCopy then .copy a.op a.unit else if a.eng = qRemote then .remote a.id else .array a.eng a.op

/-- The permission that an access needs (R308). -/
def RAcc.perm (a : RAcc) : Perm := if a.kind == .load then .read else .write

/-- The root of the tables of a stream: those of its context, or of its queue (R330, R347). -/
def State.streamRoot (s : State) (d : DieId) : StreamKey → Word
  | .ctx c _ => s.ctxRoot d c
  | .queue q => (s.queue q).tables

/-- The operation of an access. -/
def State.accOp (s : State) (a : RAcc) : Option Op := s.op a.src a.eng a.op

/-- The binding of a virtual die that an operation captured (R311). -/
def Op.bound' (o : Op) (v : BitVec 8) : Option Bind := o.bind.find? fun b => b.vdie == v

/-- The destination of an access as it stands now, without starting a walk: a die, or the stack of its cached
translation. -/
def State.destNow (s : State) (a : RAcc) : Option Dest :=
  match farKind a.far with
  | none => none
  | some .panel =>
    if a.fixed then some (.stack (stackOf a.phys))
    else (((s.die a.src).entry (s.streamRoot a.src a.stream) a.far a.perm).map fun e => .stack (stackOf (e.phys' a.far)))
  | some (.bank v _ _) | some (.fold v _) => ((s.accOp a).bind fun o => o.bound' v).map fun b => .die b.phys

/-! ### Failing and finishing at the source -/

/-- Whether the destination refuses an access with one of its pair that it refused before it (R322): its source had not
heard of that refusal when it sent the access. -/
def State.behind (s : State) (a : RAcc) : Bool := decide (a.heard < (s.pair a).refused)

/-- Whether the source knows that an access it has sent will be refused behind one of its pair that has been (R322, R324). -/
def State.knownBehind (s : State) (a : RAcc) : Bool := a.isOut && decide (a.heard < (s.pair a).heard)

/-- Whether an access is behind one that its pair refused for retry, its own refusal being still to come (R322). -/
def State.awaitsRefusal (s : State) (a : RAcc) : Bool :=
  match a.st, a.ans with
  | .answered, .retry _ => true
  | .sent, _ | .arrived, _ => s.behind a
  | _, _ => false

/-- Ends the hold of a stream (R324). -/
def State.endHold (s : State) (d : DieId) (k : StreamKey) : State :=
  s.modDie d fun x => { x with heldStreams := x.heldStreams.filter (· != k) }

/-- Releases a stream once nothing of it waits to be sent again, is sent again unanswered, or is still to be refused
behind a refused access (R324). -/
def State.releaseStream (s : State) (d : DieId) (k : StreamKey) : State :=
  if (s.die d).heldStreams.contains k
      && !(s.panel.raccs.any fun a => a.src == d && a.stream == k && !a.orphan
            && (a.st == .resend || (a.resent && a.isOut) || s.awaitsRefusal a)) then s.endHold d k
  else s

/-- A unit of a remote copy is done once none of its accesses is left and none has failed (R316). -/
def State.rcpUnitDone (s : State) (d : DieId) (o : Op) (unit : Nat) : State :=
  if o.failed.contains unit || (s.accsOf d o.id).any fun a => a.unit == unit then s
  else
    let done := o.done ++ [unit]
    let run := runLength done done.length (o.progress / 256)
    let o' := { o with done := done.filter fun k => decide (run ≤ k), progress := min (copyLen o) (256 * run) }
    (s.modOp d qRemote o.id fun _ => o').putOpRecord d qRemote o' (if s.atFault d qRemote o.id then 3 else 2)

/-- An access of a remote operation has done everything (R315 to R319). -/
def State.remoteAccDone (s : State) (a : RAcc) (bytes : Nat) : State :=
  let d := a.src
  let s := s.dropAcc a.id
  let s := match s.op d qRemote a.op with
    | none => s
    | some o =>
      let o' := { o with flags := o.flags ||| a.flags
                         tiles := if isRcp o.ins && !isPut o.ins then (o.tiles ++ tilesOf (windowAddrs o.win
                             (o.vd + BitVec.ofNat 64 (256 * a.unit + a.part)) a.len)).eraseDups else o.tiles }
      let s := (s.modOp d qRemote o.id fun _ => o').opBytes d o bytes
      if isRcp o.ins then s.rcpUnitDone d o' a.unit else s
  (s.releaseStream d a.stream).remoteDone d a.op

/-- An access of a remote operation ends in error: the operation sends no access that it has not yet sent (R316, R323,
R326); those refused for retry are sent again and end on their own (R324). -/
def State.remoteAccFails (s : State) (a : RAcc) (code : BitVec 8) : State :=
  let d := a.src
  let s := s.dropAcc a.id
  let gone := (s.accsOf d a.op).filter fun b => !b.resent && (b.st == .waiting || b.st == .reading)
  let s := s.modOp d qRemote a.op fun o => { o with err := if o.err = 0 then code else o.err
                                                    failed := o.failed ++ (a :: gone).map (·.unit) }
  let s := s.dropUnsent d a.op 0
  (s.releaseStream d a.stream).remoteDone d a.op

/-- The bank addresses that a reply writes locally (R315, R316, R319). -/
def localAddrs (o : Op) (a : RAcc) : List Nat :=
  match a.kind with
  | .load => windowAddrs o.win (o.vd + BitVec.ofNat 64 (256 * a.unit + a.part)) a.len
  | .amo _ _ _ => if bitAt o.vd 63 then windowAddrs o.win (BitVec.ofNat 64 (bits o.vd 0 32)) a.len else []
  | _ => []

/-- The bytes that a bytes fold receives for an access (R315, R316). -/
def accBytes (a : RAcc) : Nat := if a.kind == .signal then 0 else a.len

/-- A remote operation's access has been acknowledged: its local bytes go to the copy ports, or it is done. -/
def State.remoteReply (s : State) (a : RAcc) : State :=
  match s.op a.src qRemote a.op with
  | none => s.dropAcc a.id
  | some o =>
    let l := localAddrs o a
    if l.isEmpty then s.remoteAccDone a (accBytes a)
    else s.modAcc a.id fun a => { a with st := .landing, left := wordsOf l, got := l.zip a.data }

/-- A word of a reply's local bytes is written at a port. -/
def State.replyWrote (s : State) (a : RAcc) (word : Nat) (bytes : List (Nat × Byte)) : State :=
  let s := s.modDie a.src fun x => x.bankWrite bytes
  let left := a.left.erase word
  let s := s.modAcc a.id fun a => { a with left := left }
  if left.isEmpty then s.remoteAccDone a (accBytes a) else s

/-! ### Sending (R298, R306, R309, R320, R326) -/

/-- Releases a stream whose refused access has ended without being sent again: those refused behind it are sent in
their order, each on its own, and the stream is released at once (R324). -/
def State.freeResends (s : State) (d : DieId) (k : StreamKey) : State :=
  let s := s.modPanel fun p =>
    { p with raccs := replaceIf (fun (b : RAcc) => b.src == d && b.stream == k && b.st == .resend)
               (fun b => { b with st := .waiting, resent := true, fixed := false }) p.raccs }
  s.endHold d k

/-- The COPY of a queue that an access belongs to. -/
def QRec.isCopyOf (r : QRec) (a : RAcc) : Bool :=
  r.id == a.op && match r.work with
    | .copy _ _ _ _ _ _ => true
    | _ => false

/-- Changes the COPY of a queue that an access belongs to (R344). -/
def State.modCopyRec (s : State) (q : QueueId) (a : RAcc) (f : QWork → QWork) : State :=
  s.modQueue q fun c => { c with recs := replaceIf (fun r => r.isCopyOf a) (fun r => { r with work := f r.work }) c.recs }

/-- An access of a queue's COPY ends in error: the copy goes no further, and the queue is in the error state (R344). -/
def State.queueAccFails (s : State) (q : QueueId) (a : RAcc) : State :=
  let s := s.modCopyRec q a fun w => match w with
    | .copy src dst len done got _ => .copy src dst len done got true
    | w => w
  let s := s.modPanel fun p => { p with raccs := p.raccs.filter fun b =>
    !(b.stream == a.stream && b.op == a.op && (b.id == a.id || b.st == .waiting)) }
  (s.modQueue q fun c => { c with state := 4 }).releaseStream a.src a.stream

/-- An access of a queue's COPY has been acknowledged: the bytes read stand ready, or the bytes written count, and the
packet is complete with its last byte (R344). -/
def State.queueReply (s : State) (q : QueueId) (a : RAcc) : State :=
  let s := s.dropAcc a.id
  let left := s.panel.raccs.any fun b => b.stream == a.stream && b.op == a.op
  let s := s.modCopyRec q a fun w => match w with
    | .copy src dst len done got stop =>
      if a.kind == .load then .copy src dst len done (got.take a.part ++ a.data ++ got.drop (a.part + a.len)) stop
      else if left then .copy src dst len done got stop
      else .copy src dst len (done + min 256 (len - done)) [] stop
    | w => w
  (s.modQueue q fun c => { c with recs := c.recs.filter fun r => !r.complete }).releaseStream a.src a.stream

/-- Ends an access in error at its source, whoever sent it. -/
def State.accFails (s : State) (fetchFails : State → RAcc → BitVec 8 → State) (a : RAcc) (code : BitVec 8) : State :=
  let s := if a.st == .resend then s.freeResends a.src a.stream else s
  match a.stream with
  | .queue q => s.queueAccFails q a
  | .ctx _ _ =>
  if a.eng = qCopy then
    match s.op a.src qCopy a.op with
    | some o => (s.copyReply a.src o a code).releaseStream a.src a.stream
    | none => s.dropAcc a.id
  else if a.eng = qRemote then s.remoteAccFails a code
  else (fetchFails s a code).releaseStream a.src a.stream

/-- Gives an access its number and sends it; it arrives after a time that the spec leaves open (R298, R320). -/
def State.putOut (s : State) (a : RAcc) : State :=
  let p := s.pair a
  let s := s.setPair { p with next := p.next + 1 }
  let s := s.modAcc a.id fun x => { a with ord := x.ord, st := .sent, seq := p.next, sentAt := s.cycle, heard := p.heard }
  let s := s.schedLater .remoteAccessCommit { id := a.id }
  let limit := (s.die a.src).mem.timeout.toNat
  if limit = 0 then s else s.sched (s.cycle + 1024 * limit) .remoteTimeout { die := a.src, id := a.id, seq := s.cycle }

/-- Splits the part of an access behind the end of a page into an access of its own, next in the stream (R250, R316). -/
def State.splitAcc (s : State) (a : RAcc) (n : Nat) : State :=
  let a := { a with st := ((s.acc a.id).map fun (x : RAcc) => x.st).getD a.st }
  let b := { a with id := s.fresh, far := a.far + BitVec.ofNat 64 n, len := a.len - n, part := a.part + n
                    data := a.data.drop n, phys := a.phys + n }
  let s := (s.modPanel fun p => { p with raccs := p.raccs.flatMap fun x =>
    if x.id == a.id then [{ a with len := n, data := a.data.take n }, b] else [x] }).takeFresh
  if a.eng = qCopy then s.modOp a.src qCopy a.op fun o => o.modUnit a.unit fun u => { u with accs := u.accs + 1 } else s

/-- An access with its destination known goes out; a put first reads its local bytes at the ports (R316). -/
def State.dispatch (s : State) (a : RAcc) : State :=
  match s.accOp a with
  | some o =>
    if isPut o.ins && a.data.isEmpty && decide (0 < a.len) then
      let l := windowAddrs o.win (o.vd + BitVec.ofNat 64 (256 * a.unit + a.part)) a.len
      s.modAcc a.id fun _ => { a with st := .reading, left := wordsOf l, got := l.map fun (x : Nat) => (x, 0) }
    else s.putOut a
  | none => match a.stream with
    | .queue _ => s.putOut a
    | .ctx _ _ => s.dropAcc a.id

/-- Sends an access: a far address of no kind is refused, a lost destination ends it, a panel-memory address is
translated (R306, R309, R320, R326). -/
def State.sendAcc (s : State) (fetchFails : State → RAcc → BitVec 8 → State) (a : RAcc) : State :=
  let d := a.src
  match farKind a.far with
  | none => s.accFails fetchFails a 3
  | some .panel =>
    let toStack (s : State) (a : RAcc) (phys : Nat) : State :=
      let i := stackOf phys
      if natBit (s.die d).mem.stackLost.toNat i.val then s.accFails fetchFails a 4
      else s.dispatch { a with phys := phys, dest := .stack i, inc := (s.station i).incarnation }
    if a.fixed then toStack s a a.phys
    else
      match s.translate d (s.streamRoot d a.stream) a.far a.perm a.who with
      | (s, none) => s
      | (s, some e) =>
        let n := e.rest a.far
        if n < a.len then
          let s := s.splitAcc a n
          match s.acc a.id with
          | some a => toStack s a (e.phys' a.far)
          | none => s
        else toStack s a (e.phys' a.far)
  | some (.bank v _ _) | some (.fold v _) =>
    match (s.accOp a).bind fun o => o.bound' v with
    | none => s.accFails fetchFails a 3
    | some b =>
      let e := ((s.ctx d a.stream.ctxOf).vtab)[Fin.ofNat 256 v.toNat]
      if e.lost then s.accFails fetchFails a 4
      else s.dispatch { a with dest := .die b.phys, inc := b.inc }

/-- Whether a lost mark covers the destination of an access (R326). -/
def State.destLost (s : State) (a : RAcc) : Bool :=
  match a.dest with
  | .stack i => natBit (s.die a.src).mem.stackLost.toNat i.val
  | .die _ => match farKind a.far with
    | some (.bank v _ _) | some (.fold v _) => (((s.ctx a.src a.stream.ctxOf).vtab)[Fin.ofNat 256 v.toNat]).lost
    | _ => false

/-- A put whose local bytes have been read goes out, unless its destination has meanwhile been marked lost (R326), or its
stream is held or its pair full: then it waits, and reads them again when it is sent (R316, R320, R324). -/
def State.putReady (s : State) (a : RAcc) : State :=
  if s.destLost a then s.remoteAccFails a 4
  else if ((s.die a.src).heldStreams.contains a.stream && !a.resent) || decide (32 ≤ s.outOf a.src a.stream a.dest) then
    s.modAcc a.id fun _ =>
      { a with st := if a.resent && (s.die a.src).heldStreams.contains a.stream then .resend else .waiting
               got := [], left := [] }
  else s.putOut { a with data := a.got.map (·.2), got := [] }

/-- A word of a put's local bytes is read at a port; the last one sends the access (R316). -/
def State.putRead (s : State) (a : RAcc) (word : Nat) : State :=
  let x := s.die a.src
  match x.eccOf (8 * word) with
  | some .double => s.remoteAccFails a 6
  | _ =>
    let a : RAcc := { a with
                      left := a.left.erase word
                      got := a.got.map fun (p : Nat × Byte) => if p.1 / 8 = word then (p.1, x.bankByte p.1) else p }
    if a.left.isEmpty then s.putReady a else s.modAcc a.id fun _ => a

/-! ### At the destination (R312, R321, R322, R325, R326) -/

/-- The incarnation of an access's destination. -/
def State.destInc (s : State) (a : RAcc) : BitVec 8 :=
  match a.dest with
  | .die p => (s.die p).incarnation
  | .stack i => (s.station i).incarnation

/-- The answer of a destination: the number counts as used, the reply travels back, and a successor that has arrived
takes its turn (R321, R322). -/
def State.answerAcc (s : State) (a : RAcc) (ans : Answer) : State :=
  let p := s.pair a
  let s := s.setPair { p with commit := a.seq + 1 }
  let s := s.modAcc a.id fun _ => { a with st := .answered, ans := ans, ansInc := s.destInc a, left := [] }
  let s := s.schedLater .remoteReplyArrival { id := a.id }
  match s.panel.raccs.find? fun b => b.src == a.src && b.stream == a.stream && b.dest == a.dest && b.inc == a.inc && b.st == .arrived
      && b.seq == a.seq + 1 with
  | some b => s.sched (s.cycle + 1) .remoteAccessCommit { id := b.id }
  | none => s

/-- The bank address that an arriving access reaches through a remote window, if it is not refused (R312). -/
def Die.windowAddr (x : Die) (win : Fin 16) (off : Nat) (a : RAcc) : Option Nat :=
  let w := x.mem.rwin[win]
  let base := 1024 * w.base.toNat
  if !w.valid || w.job != a.job || decide (2 ^ w.size < off + a.len) || base % 2 ^ w.size != 0 then none
  else some (base + off)

/-- The new bytes, the old bytes and the flags of an atomic on bytes (R115, R319). -/
def amoBytes (a : RAcc) (old : List Byte) : List Byte × BitVec 5 :=
  match a.kind with
  | .amo op t fmt =>
    let r := amoNew op t fmt (natOfBytes old) (natOfBytes (a.data.take 8)) (natOfBytes (a.data.drop 8))
    (bytesOfNat a.len r.1, r.2)
  | _ => (old, 0)

/-- A station refuses an access for retry, and counts the refusal that it sends (R322, R331). -/
def State.stationRefuses (s : State) (i : StackId) (a : RAcc) : State :=
  let t := s.station i
  (s.modStation i Station.countRefusal).answerAcc a (.retry t.retry.toNat)

/-- An access performs at a station (R302, R321, R325). -/
def State.atStation (s : State) (i : StackId) (a : RAcc) : State :=
  let t := s.station i
  if t.migrates a.phys a.len then
    let p := s.pair a
    (s.setPair { p with refused := p.refused + 1 }).stationRefuses i a
  else match a.kind with
    | .signal => s.answerAcc a .refuse
    | .load => if s.memBadAt a.phys a.len then s.answerAcc a .badEcc
               else s.answerAcc { a with data := s.readMem a.phys a.len } .ack
    | .store => (s.writeMem a.phys a.data).answerAcc a .ack
    | .amo _ _ _ =>
      if s.memBadAt a.phys a.len then s.answerAcc a .badEcc
      else
        let old := s.readMem a.phys a.len
        let r := amoBytes a old
        (s.writeMem a.phys r.1).answerAcc { a with data := old, flags := r.2 } .ack

/-- An access performs at a die: a signal at once, the others word by word at the copy ports (R191, R312, R318). -/
def State.atDie (s : State) (p : DieId) (a : RAcc) : State :=
  match farKind a.far, a.kind with
  | some (.fold _ f), .signal => (s.foldEvt p f (.add (natOfBytes a.data))).answerAcc a .ack
  | some (.bank _ w off), .signal => let _ := (w, off); s.answerAcc a .refuse
  | some (.bank _ w off), _ =>
    match (s.die p).windowAddr w off a with
    | none => s.answerAcc a .refuse
    | some base =>
      let l := (List.range a.len).map fun k => base + k
      s.modAcc a.id fun _ => { a with st := .performing, phys := base, left := wordsOf l
                                      got := l.zip (if a.kind == .store then a.data else List.replicate a.len 0) }
  | _, _ => s.answerAcc a .refuse

/-- REMOTE_ACCESS_COMMIT (R321, R322, R326): an access of another incarnation is discarded; one ahead of its
predecessor waits; one sent before its source heard of a predecessor's refusal for retry is refused with it. -/
def execRemoteAccessCommit (s : State) : Host.Outcome State Fault Refusal :=
  .next (match s.acc s.ev.id with
    | none => s
    | some a =>
      if a.st != .sent && a.st != .arrived then s
      else
        let gone := match a.dest with
          | .die p => !(s.die p).inService
          | .stack i => !(s.station i).fitted
        if gone then s
        else if a.inc ≠ s.destInc a then
          match a.dest with
          | .die p => s.modDie p fun x =>
            let m := x.mem
            { x with mem := { m with stale := if m.stale = BitVec.allOnes 32 then m.stale else m.stale + 1 } }
          | .stack _ => s
        else
          let p := s.pair a
          if p.commit ≠ a.seq then s.modAcc a.id fun a => { a with st := .arrived }
          else if s.behind a then
            match a.dest with
            | .stack i => s.stationRefuses i a
            | .die _ => s.answerAcc a (.retry 0)
          else match a.dest with
            | .die p => s.atDie p a
            | .stack i => s.atStation i a)

/-- A word of an arriving access is done at a copy port of its die (R191, R319, R321). -/
def State.arrivalWord (s : State) (p : DieId) (a : RAcc) (word : Nat) : State :=
  let x := s.die p
  let mine := a.got.filter fun e => e.1 / 8 == word
  let left := a.left.erase word
  match a.kind with
  | .store =>
    let s := s.modDie p fun x => x.bankWrite mine
    if left.isEmpty then s.answerAcc a .ack else s.modAcc a.id fun a => { a with left := left }
  | _ =>
    let s := if a.kind == .load then s else s.modDie p fun x => x.eccRead [8 * word]
    match x.eccOf (8 * word) with
    | some .double => s.answerAcc a .badEcc
    | _ =>
      let got := a.got.map fun e => if e.1 / 8 = word then (e.1, x.bankByte e.1) else e
      if left.isEmpty then
        let old := got.map (·.2)
        if a.kind == .load then s.answerAcc { a with data := old } .ack
        else
          let n := amoBytes a old
          (s.modDie p fun x => x.bankWrite ((got.map (·.1)).zip n.1)).answerAcc { a with data := old, flags := n.2 } .ack
      else s.modAcc a.id fun a => { a with left := left, got := got }

/-! ### Which access of a stream goes next -/

/-- The access that a stream sends next in this cycle, in its order (R318, R320, R324): an `rsig.rel` that waits stops
the stream, as does one whose refusal the source awaits; a full pair stops that pair, an operation at a fault stops itself or,
as a load, store or atomic, the stream. -/
def State.nextSend (s : State) (d : DieId) : List RAcc → List Dest → List Nat → Option Nat
  | [], _, _ => none
  | a :: l, pairs, ops =>
    if a.st == .reading || s.knownBehind a then none
    else if a.st != .waiting then s.nextSend d l pairs ops
    else if ops.contains a.op then s.nextSend d l pairs ops
    else if a.release && s.remoteOpen d a.stream.ctxOf (1 <<< a.stream.clsOf.val) a.bundle then none
    else
      let x := s.die d
      if (farKind a.far == some .panel) && !a.fixed && x.held a.who then
        let own := match s.accOp a with
          | some o => a.eng != qRemote || isRcp o.ins
          | none => true
        if x.faulted a.who && own then s.nextSend d l pairs (a.op :: ops) else none
      else
        match s.destNow a with
        | some t =>
          if pairs.contains t then s.nextSend d l pairs ops
          else if 32 ≤ s.outOf d a.stream t then s.nextSend d l (t :: pairs) ops
          else some a.id
        | none => some a.id

/-- The streams of a die with accesses at their source. -/
def State.streamsOf (s : State) (d : DieId) : List StreamKey :=
  ((s.panel.raccs.filter fun a => a.src == d && !a.orphan).map (·.stream)).eraseDups

/-- The accesses of a stream in its order. -/
def State.streamAccs (s : State) (d : DieId) (k : StreamKey) : List RAcc :=
  s.panel.raccs.filter fun a => a.src == d && a.stream == k && !a.orphan

/-- The access of a held stream that is to be sent again now (R324): in its place, after its interval, and only while its
pair has fewer than 32 accesses unacknowledged (R320). -/
def State.nextResend (s : State) : List RAcc → Option Nat
  | [] => none
  | a :: l =>
    if a.st == .resend then
      let full := match s.destNow { a with fixed := false } with
        | some t => decide (32 ≤ s.outOf a.src a.stream t)
        | none => false
      if a.resendAt ≤ s.cycle && !full then some a.id else none
    else if s.awaitsRefusal a then none
    else s.nextResend l

/-- Puts the sends of a die's streams for this cycle on the agenda. -/
def State.scheduleSends (s : State) (d : DieId) : State :=
  (s.streamsOf d).foldl (fun s k =>
    let l := s.streamAccs d k
    if (s.die d).heldStreams.contains k then
      match s.nextResend l with
      | some id => s.schedOnce s.cycle .retryAfterExpiry { die := d, id := id }
      | none => s
    else match s.nextSend d l [] [] with
      | some id => s.schedOnce s.cycle .remoteAccessSend { die := d, id := id }
      | none => s) s

end Sys2Proof.Machine
end

