-- ==== Sys2Proof/Machine/Arrays.lean ====
section
/-! DEFINITION. The operations of the ARRAY queues (R143, R198, R257 to R277): slot operations, the rows of each array
operation, drains, far fetches, the strict check, aborts and `mresume`. The effect of the rows of an operation is applied
when it completes or stops at a boundary (notes/assumptions/12). -/

namespace Sys2Proof.Machine

/-- What an operation of an ARRAY queue is. -/
inductive ArrKind where
  | wld | mul | dist | cent | drn | best | cdrn | resume | slot
  deriving DecidableEq, Repr

def arrKind : Instr → ArrKind
  | .mwld _ _ _ _ _ _ => .wld
  | .mmul _ _ _ _ _ _ => .mul
  | .mdist _ _ _ _ _ _ => .dist
  | .mcent _ _ _ _ _ _ => .cent
  | .mdrn _ _ _ _ _ => .drn
  | .mbest _ _ _ _ => .best
  | .mcdrn _ _ _ _ _ => .cdrn
  | .mresume _ _ => .resume
  | _ => .slot

/-- The array of an ARRAY queue. -/
def arrayOf (q : Fin 19) : Fin 16 := Fin.ofNat 16 (q.val - 1)

def State.arr (s : State) (d : DieId) (m : Fin 16) : Arr := (s.die d).arrays[m]

def State.modArr (s : State) (d : DieId) (m : Fin 16) (f : Arr → Arr) : State :=
  s.modDie d fun x => { x with arrays := vmod x.arrays m f }

def State.slot (s : State) (d : DieId) (n : Fin 128) : Slot := (s.die d).slots[n]

def State.modSlot (s : State) (d : DieId) (n : Fin 128) (f : Slot → Slot) : State :=
  s.modDie d fun x => { x with slots := vmod x.slots n f }

/-- Ends an operation in error in this cycle. -/
def State.opFails (s : State) (d : DieId) (q : Fin 19) (id : Nat) (code : BitVec 8) : State :=
  s.schedOnce s.cycle .engineOpError { die := d, eng := q, id := id, code := code }

/-- Ends an operation of an array in error in this cycle, so that no step of it has an effect from now on. -/
def State.arrFails (s : State) (d : DieId) (q : Fin 19) (id : Nat) (code : BitVec 8) : State :=
  (s.modOp d q id fun o => { o with err := code }).opFails d q id code

/-- Ends an operation as complete in a cycle. -/
def State.opDoneAt (s : State) (due : Nat) (d : DieId) (q : Fin 19) (id : Nat) : State :=
  s.schedOnce due .engineOpComplete { die := d, eng := q, id := id }

/-! ### Shape of an operation (R272) -/

/-- Rows, weight rows or centroids that an operation goes through. -/
def arrRows (k : ArrKind) (o : Op) : Nat :=
  match k with
  | .wld | .cdrn => wordK o
  | .mul | .dist | .cent | .drn | .best => wordM o
  | .resume | .slot => 0

/-- Cycles before and per row (R272). -/
def arrBase (k : ArrKind) : Nat :=
  match k with
  | .wld | .cent => 8
  | .mul | .dist => 132
  | .drn | .cdrn => 4
  | .best => 16
  | .resume | .slot => 0

def arrRate (k : ArrKind) (fa fw : Ty) : Nat :=
  match k with
  | .wld => if fa.width = 16 then 2 else 1
  | .mul | .dist => if fa.width = 16 || fw.width = 16 then 2 else 1
  | _ => 1

/-- Whether an operation writes or reads its slot; a drain to the banks, or one that drains nothing, does not. -/
def usesSlot (d8 : Bool) (k : ArrKind) (o : Op) : Bool :=
  match k with
  | .drn => (drainFmt d8 o).isSome && !bitAt o.va 3
  | .cdrn => (drainFmt d8 o).isSome
  | .best => !bitAt o.va 3
  | .resume | .slot => false
  | _ => true

/-- The elements of the stream of an operation (R264, R265). -/
def streamLen (k : ArrKind) (o : Op) : Nat := if k = .cent then 0 else wordK o * wordM o

/-- The metric of an operation (R262). -/
def metricOf (k : ArrKind) (o : Op) : Nat := if k = .dist then min 2 (bits o.va 24 2) else 0

/-- The flag of an invalid field (R249, R262, R266, R268). -/
def fieldFlags (d8 : Bool) (k : ArrKind) (o : Op) : Flg :=
  let f := bits o.va 6 4
  let bad := match k with
    | .wld | .mul | .dist | .cent => f != 15 && (engineFmt d8 f).isNone
    | .drn | .cdrn => (drainFmt d8 o).isNone
    | _ => false
  let badM := match k with
    | .dist => bits o.va 24 2 == 3
    | .best => bits o.va 8 2 == 3
    | _ => false
  if bad || badM then fInvalid else 0

/-! ### Rows (R264 to R270) -/

/-- One activation or weight row of a stream: its elements, and its scales among those of the rows from a first one on. -/
def streamRow (t : Slot) (fmt : Ty) (scales : List Nat) (n first i : Nat) : ActRow :=
  { elems := (List.range n).map fun k => t.elem i k fmt.width
    scales := if scales.isEmpty then List.replicate n oneScale else (scales.drop ((i - first) * n)).take n }

/-- Elements of a row of a stream (R264, R265). -/
def rowLen (k : ArrKind) (o : Op) : Nat := if k = .wld then wordM o else wordK o

/-- Whether an operation reads scales (R57), and whether it reads them in the banks (R263). -/
def readsScales (k : ArrKind) (o : Op) (fmt : Ty) : Bool :=
  wordScaled o && takesScale fmt && (k == .wld || k == .mul || k == .dist)

/-- The scales of the rows of an operation from its recorded step up to a row (R56 to R60, R263), how far the stream is then
read, and the offsets that this reads. -/
def rowScales (k : ArrKind) (o : Op) (fmt : Ty) (get : Nat → Byte) (upto : Nat) : List Nat × ScaleAt × List Nat :=
  if readsScales k o fmt then
    let n := rowLen k o
    scaleRun (streamLen k o) get o.sc ((List.range (upto * n)).drop (o.steps * n))
  else ([], o.sc, [])

/-- Weight rows of a `mwld` into the shadow weights (R264). -/
def Arr.loadRows (a : Arr) (t : Slot) (fmt : Ty) (scales : List Nat) (n : Nat) (rows : List Nat) : Arr :=
  { a with shadow := rows.foldl (fun w k =>
      let r := streamRow t fmt scales n (rows.headD 0) k
      ((List.range n).zip (r.elems.zip r.scales)).foldl (fun w e =>
        { w with w := Sparse.write w.w 0 (128 * k + e.1) (BitVec.ofNat 16 e.2.1)
                 scale := Sparse.write w.scale 0x3C00 (128 * k + e.1) (BitVec.ofNat 16 e.2.2) }) w) a.shadow }

/-- The centroid that row i is assigned to, less the base index (R269); `got` holds the assignment bytes. -/
def centroidOf (got : List (Nat × Byte)) (base i : Nat) : Nat :=
  let byte (j : Nat) : Byte := ((got.find? fun e => e.1 == 4 * i + j).map (·.2)).getD 0
  (2 ^ 32 + natOfBytes ((List.range 4).map byte) - base) % 2 ^ 32

/-- One element of a vector is added into the sum of its centroid (R61, R269). -/
def centStep (t : Slot) (fmt : Ty) (q i : Nat) (r : Arr × Flg) (j : Nat) : Arr × Flg :=
  let v := elemVal fmt false (t.elem i j fmt.width)
  let c := cellStep (r.1.accAt q j).toNat (v, sigFlag v)
  (r.1.setAcc q j (BitVec.ofNat 32 c.1), r.2 ||| c.2)

/-- A vector is added into the sums of a centroid, and counts there (R269). -/
def Arr.addTo (a : Arr) (t : Slot) (fmt : Ty) (k i q : Nat) : Arr × Flg :=
  if 128 ≤ q then (a, 0)
  else
    let r := (List.range k).foldl (centStep t fmt q i) (a, 0)
    ({ r.1 with cnt := Sparse.write r.1.cnt 0 q (satInc (Sparse.read r.1.cnt 0 q)) }, r.2)

/-- An assigned vector is added into the sums of its centroid. -/
def Arr.centRow (a : Arr) (t : Slot) (fmt : Ty) (base k i : Nat) (got : List (Nat × Byte)) : Arr × Flg :=
  a.addTo t fmt k i (centroidOf got base i)

/-- The drained elements of a row of `mdrn`, each with its flags (R266). -/
def Arr.drnRow (a : Arr) (dst : Ty) (c : FmtCap) (n i : Nat) : List (Nat × Flg) :=
  (List.range n).map fun k => drainElem a.float dst c (a.accAt i k)

/-- The elements of a centroid that `mcdrn` writes (R270). -/
def Arr.cdrnRow (a : Arr) (dst : Ty) (c : FmtCap) (sums : Bool) (dims n : Nat) : List (Nat × Flg) :=
  let cnt := Sparse.read a.cnt 0 n
  if cnt = 0 then []
  else (List.range dims).map fun k =>
    if sums then drainElem a.float dst c (a.accAt n k) else meanElem a.float dst c (a.accAt n k) cnt

/-- How `mbest` ranks: whether the smallest is best (R268). -/
def bestSmall (a : Arr) (o : Op) : Bool :=
  match bits o.va 8 2 with
  | 0 => true
  | 1 => false
  | _ => a.metric != 0

/-- The record of a row of `mbest` as bytes. -/
def Arr.bestBytes (a : Arr) (o : Op) (i : Nat) : List Byte :=
  (bestRecord a (bestSmall a o) (bitAt o.va 7) (bitAt o.va 6) (wordK o) i).flatMap fun w => bytesOfNat 4 w.toNat

/-- Record size of `mbest`. -/
def bestSize (o : Op) : Nat := if bitAt o.va 6 then 16 else 8

/-- What an operation writes to the banks, element by element in its order, each with its row (R266, R268, R270). -/
def bankElems (d8 : Bool) (k : ArrKind) (a : Arr) (o : Op) (rows : List Nat) : List (Nat × List (Nat × Byte)) :=
  match k with
  | .drn =>
    match drainFmt d8 o with
    | none => []
    | some dst =>
      if !bitAt o.va 3 then []
      else rows.flatMap fun i =>
        let l := a.drnRow dst o.fmt (wordK o) i
        ((List.range l.length).zip l).map fun e =>
          let w := dst.width / 8
          let off := o.vb + BitVec.ofNat 64 i * o.vc + BitVec.ofNat 64 (e.1 * w)
          (i, (windowAddrs o.win off w).zip (bytesOfNat w e.2.1))
  | .best =>
    if !bitAt o.va 3 then []
    else rows.map fun i =>
      let l := a.bestBytes o i
      (i, (windowAddrs o.win (o.vb + BitVec.ofNat 64 (bestSize o * i)) l.length).zip l)
  | .cdrn =>
    if (drainFmt d8 o).isNone || !bitAt o.va 3 then []
    else rows.map fun n =>
      (n, (windowAddrs o.win (o.vb + BitVec.ofNat 64 (4 * n)) 4).zip (bytesOfNat 4 (Sparse.read a.cnt 0 n).toNat))
  | _ => []

/-- One row of a drain (R266, R268, R270): the array as clearing leaves it, the slot bytes that it writes, its flags. -/
def drainRow (d8 : Bool) (k : ArrKind) (a : Arr) (t : Slot) (o : Op) (i : Nat) : Arr × List (Nat × Byte) × Flg :=
  match k with
  | .drn =>
    match drainFmt d8 o with
    | none => (a, [], 0)
    | some dst =>
      let l := a.drnRow dst o.fmt (wordK o) i
      (if wordClear o then (List.range (wordK o)).foldl (fun a n => a.setAcc i n 0) a else a,
       if bitAt o.va 3 then [] else ((List.range l.length).zip l).flatMap fun e => t.put i e.1 dst.width e.2.1,
       l.foldl (fun f e => f ||| e.2) 0)
  | .best =>
    let l := a.bestBytes o i
    (if bitAt o.va 5 then a.clearRow i else a,
     if bitAt o.va 3 then [] else (slotAddrs (bestSize o * i % 32768) l.length).zip l, 0)
  | .cdrn =>
    match drainFmt d8 o with
    | none => (a, [], 0)
    | some dst =>
      let l := a.cdrnRow dst o.fmt (bitAt o.va 5) (wordM o) i
      (if wordClear o then { a.clearRow i with cnt := Sparse.erase a.cnt i } else a,
       ((List.range l.length).zip l).flatMap fun e => t.put e.1 i dst.width e.2.1,
       l.foldl (fun f e => f ||| e.2) 0)
  | _ => (a, [], 0)

/-- The rows of a drain in their order. -/
def drainRows (d8 : Bool) (k : ArrKind) (a : Arr) (t : Slot) (o : Op) (rows : List Nat) :
    Arr × List (Nat × Byte) × Flg :=
  rows.foldl (fun r i =>
    let y := drainRow d8 k r.1 t o i
    (y.1, r.2.1 ++ y.2.1, r.2.2 ||| y.2.2)) (a, [], 0)

/-- What the first row of an accumulating operation does: the mode, the metric and the clear (R265, R267, R269). -/
def Arr.openRun (a : Arr) (k : ArrKind) (o : Op) (fmt : Ty) : Arr :=
  match k with
  | .mul | .dist =>
    let int := isInt8 fmt && isInt8 a.live.fmt && !wordScaled o && !a.live.scaled
    { a with float := !int
             metric := if k = .dist then Fin.ofNat 3 (metricOf k o) else a.metric
             acc := if wordClear o then [] else a.acc }
  | .cent => if wordClear o then { a with float := true, acc := [], cnt := [] } else { a with float := true }
  | .wld => { a with shadow := { fmt := fmt, scaled := wordScaled o && takesScale fmt } }
  | _ => a

/-- The slot words that the rows of a stream read (R257). -/
def readWords (k : ArrKind) (t : Slot) (o : Op) (fmt : Ty) (rows : List Nat) : List Nat :=
  match k with
  | .wld | .mul | .dist => rows.flatMap fun i => t.rowWords i (rowLen k o) fmt.width
  | .cent => rows.flatMap fun i => t.rowWords i (wordK o) fmt.width
  | _ => []

/-- The effect of rows from the recorded step on, up to a row: the array, the slot bytes and the flags. -/
def applyRows (d8 : Bool) (k : ArrKind) (a : Arr) (t : Slot) (o : Op) (scales : List Nat) (upto : Nat) :
    Arr × List (Nat × Byte) × Flg :=
  let fmt := streamFmt d8 o
  let rows := (List.range upto).drop o.steps
  let a := if o.steps = 0 && 0 < upto then a.openRun k o fmt else a
  match k with
  | .wld => (a.loadRows t fmt scales (wordM o) rows, [], 0)
  | .mul | .dist =>
    let r := rows.foldl (fun (r : Arr × Flg) i =>
      let y := r.1.feedRow o.fmt.sat (metricOf k o) fmt (wordK o) i (streamRow t fmt scales (wordK o) o.steps i)
      (y.1, r.2 ||| y.2)) (a, 0)
    (r.1, [], r.2)
  | .cent =>
    let r := rows.foldl (fun (r : Arr × Flg) i =>
      let y := r.1.centRow t fmt (bits o.va 32 32) (wordK o) i o.got
      (y.1, r.2 ||| y.2)) (a, 0)
    (r.1, [], r.2)
  | _ => drainRows d8 k a t o rows

/-- The errors of the words that a step reads (R189, R257, R375): those of its slot and of its bank bytes are corrected and
counted. -/
def State.stepScrub (s : State) (d : DieId) (n : Fin 128) (words : List Nat) (addrs : List Nat) : State :=
  let hit := if (s.slot d n).bad.isEmpty then [] else (s.slot d n).bad.filter fun e => words.contains e.1
  let s := if hit.isEmpty then s
    else s.modSlot d n fun t => { t with bad := t.bad.filter fun e => !(e.2 == .single && words.contains e.1) }
  s.modDie d fun x => hit.foldl (fun x e => x.countTm e.2) (x.eccRead addrs)

/-- A step of an operation of an ARRAY queue, in the cycle in which it ends (R143, R263): it reads its slot and its
scales and has its effect, or the operation ends in error before the step has any. DESIGN CHOICE: the bytes of a step count
in the fold together, in that cycle (log 121). -/
def State.runRows (s : State) (d : DieId) (q : Fin 19) (o : Op) (upto : Nat) : State :=
  let m := arrayOf q
  let n := slotOf m.val o
  let k := arrKind o.ins
  let x := s.die d
  let d8 := x.feature 1
  let fmt := streamFmt d8 o
  let t := s.slot d n
  let near (j : Nat) : Nat := o.win.byteAddr o.vc j
  let sc := rowScales k o fmt (if wordFar o then fun j => o.data.getD j 0 else fun j => x.bankByte (near j)) upto
  let addrs := if wordFar o then [] else sc.2.2.map near
  let words := if t.bad.isEmpty then [] else readWords k t o fmt ((List.range upto).drop o.steps)
  let s := s.stepScrub d n words addrs
  if t.bad.any (fun e => e.2 == .double && words.contains e.1) || (x.eccBad addrs).isSome then s.arrFails d q o.id 6
  else
    let r := applyRows d8 k (s.arr d m) t o sc.1 upto
    let s := s.modArr d m fun _ => r.1
    let s := if r.2.1.isEmpty then s else s.modSlot d n fun t => t.write r.2.1
    let o' := { o with flags := o.flags ||| r.2.2, steps := max o.steps upto, sc := sc.2.1
                       progress := o.progress + (upto / 16 - o.steps / 16) }
    ((s.modOp d q o.id fun _ => o').putOpRecord d q o' 2).opBytes d o r.2.1.length

/-! ### Starting (R198, R260, R272) -/

/-- Cycles of the rows that are left. -/
def State.arrTime (s : State) (d : DieId) (q : Fin 19) (o : Op) (rows : Nat) : Nat :=
  let k := arrKind o.ins
  let fmt := streamFmt ((s.die d).feature 1) o
  arrBase k + rows * arrRate k fmt (s.arr d (arrayOf q)).live.fmt

/-- The steps of an operation begin in this cycle, its operands being at hand. -/
def State.runArray (s : State) (d : DieId) (q : Fin 19) (o : Op) : State :=
  let m := arrayOf q
  let k := arrKind o.ins
  let d8 := (s.die d).feature 1
  if usesSlot d8 k o && (s.slot d (slotOf m.val o)).owner != some o.ctx then s.arrFails d q o.id 3
  else
    let rows := arrRows k o
    let pend := transfers (bankElems d8 k (s.arr d m) o ((List.range rows).drop o.steps))
    let o := { o with st := .running, start := s.cycle, fetching := false, slip := 0, first := o.steps
                      next := if k = .cent then o.steps / 16 else o.next
                      pend := pend.map fun p => (s.cycle + arrBase k - 2 + (p.1 - o.steps), p.2) }
    (s.modOp d q o.id fun _ => o).opDoneAt (s.cycle + s.arrTime d q o (rows - o.steps)) d q o.id

/-- The cycle in which the rows before a boundary have had their effect (R272). -/
def State.rowsDue (s : State) (d : DieId) (q : Fin 19) (o : Op) (r : Nat) : Nat :=
  o.start + s.arrTime d q o (r - o.first) + o.slip

/-- The cycle in which the step that follows a boundary begins (R269, R272). -/
def State.stepBegins (s : State) (d : DieId) (q : Fin 19) (o : Op) (r : Nat) : Nat :=
  s.rowsDue d q o r - arrBase (arrKind o.ins)

/-- A running operation is to end in error at a boundary: the steps before it have their effect, and the transfers of the
rows behind it do not enter the network (R143). -/
def State.stopArray (s : State) (d : DieId) (q : Fin 19) (o : Op) (r : Nat) (code : BitVec 8) : State :=
  let k := arrKind o.ins
  let d8 := (s.die d).feature 1
  let old := transfers (bankElems d8 k (s.arr d (arrayOf q)) o ((List.range (arrRows k o)).drop o.first))
  let new := transfers (bankElems d8 k (s.arr d (arrayOf q)) o ((List.range r).drop o.first))
  let entered := old.length - o.pend.length
  let s := s.modOp d q o.id fun o =>
    { o with stopAt := some r
             pend := (o.pend.zip (new.drop entered)).map fun p => (p.1.1, p.1.2.take p.2.2.length) }
  s.sched (max s.cycle (s.rowsDue d q o r)) .engineOpError { die := d, eng := q, id := o.id, code := code }

/-- A step that would begin in this cycle with a slot that its context does not own ends the operation with code 3 at the
boundary before it (R260); the steps begun before go on. -/
def State.ownCycle (s : State) (d : DieId) (q : Fin 19) (o : Op) : State :=
  let k := arrKind o.ins
  if o.fetching || o.err ≠ 0 || o.stopAt.isSome || !o.left.isEmpty || !usesSlot ((s.die d).feature 1) k o
      || (s.slot d (slotOf (arrayOf q).val o)).owner == some o.ctx then s
  else
    match (List.range (arrRows k o)).find? fun r =>
        decide (o.first < r) && r % 16 == 0 && s.stepBegins d q o r == s.cycle with
    | some r => s.stopArray d q o r 3
    | none => s

/-- The work of a running operation of an ARRAY queue in a cycle, after the ports have read and written (R192, R259, R272,
R292): the step that ends in it, or 1 KiB of a `slot.zero`. -/
def State.stepCycle (s : State) (d : DieId) (q : Fin 19) (o : Op) : State :=
  match o.ins with
  | .slotZero n _ =>
    if o.err ≠ 0 then s
    else
    let k := s.cycle - o.start
    s.modSlot d n fun t =>
      { t with bytes := t.bytes.filter fun e => e.1 / 1024 != k, bad := t.bad.filter fun e => e.1 / 128 != k }
  | _ =>
    let rows := arrRows (arrKind o.ins) o
    let r := min rows ((o.steps / 16 + 1) * 16)
    if !o.fetching && o.err = 0 && decide (o.steps < rows) && o.stopAt.all (fun e => decide (r ≤ e)) && o.left.isEmpty
        && decide (s.rowsDue d q o r ≤ s.cycle) then s.runRows d q o r
    else s

/-! ### Far fetch (R273 to R275) -/

/-- Bytes of the tile that a far fetch brings. -/
def tileLen (t : Slot) (fmt : Ty) : Nat := min 32768 (t.rows * t.cols * fmt.width / 8)

/-- The far address of a byte of the fetch, tile first, and the bytes that follow it in its part. -/
def fetchAt (o : Op) (len i : Nat) : Word × Nat :=
  if i < len then (o.vb + BitVec.ofNat 64 i, len - i)
  else (o.vc + BitVec.ofNat 64 (i - len), len + o.data.length - i)

/-- Sends the accesses of a fetch for the bytes not yet asked for; in strict mode on the translations of the check. -/
def State.fetchFrom (s : State) (d : DieId) (q : Fin 19) (o : Op) (len : Nat) : Nat → State
  | 0 => s
  | fuel + 1 =>
    match s.op d q o.id with
    | none => s
    | some o =>
      if len + o.data.length ≤ o.next then s
      else
        let at_ := fetchAt o len o.next
        let n := min 256 at_.2
        let x := (if o.strict && (farKind at_.1 == some .panel) then
            match walkTable s (s.ctxRoot d o.ctx) at_.1 .read with
            | .ok e => some e
            | _ => none
          else none)
        let n := match x with
          | some e => min n (e.rest at_.1)
          | none => n
        let id := s.fresh
        let s := s.newAcc d q o 0 o.next 0 .load at_.1 n []
        let s := match x with
          | some e => s.modAcc id fun a => { a with fixed := true, phys := e.phys' at_.1 }
          | none => s
        (s.modOp d q o.id fun o => { o with next := o.next + n }).fetchFrom d q o len fuel

/-- How a strict check of a range ends. -/
inductive Check where
  | ok
  | again
  | bad (code : BitVec 8)
  deriving DecidableEq, Repr

/-- Checks a range of panel memory page by page (R275): a page that refuses the permission is a refusal (R154). -/
def State.checkPages (s : State) (d : DieId) (c : CtxId) : Nat → Word → Nat → Check
  | 0, _, _ => .ok
  | fuel + 1, a, n =>
    if n = 0 then .ok
    else match walkTable s (s.ctxRoot d c) a .read with
      | .fault .permission _ => .bad 3
      | .fault _ _ => .bad 2
      | .migrating => .again
      | .badEcc => .bad 6
      | .ok e =>
        if natBit (s.die d).mem.stackLost.toNat (stackOf (e.phys' a)).val then .bad 4
        else if n ≤ e.rest a then .ok
        else s.checkPages d c fuel (a + BitVec.ofNat 64 (e.rest a)) (n - e.rest a)

/-- Checks a far range (R275): its pages, or its pinned remote window. -/
def State.checkFar (s : State) (d : DieId) (o : Op) (a : Word) (n : Nat) : Check :=
  match farKind a with
  | some .panel => s.checkPages d o.ctx (n / 2 ^ 16 + 2) a n
  | some (.bank v w off) =>
    match o.bound' v with
    | none => .bad 3
    | some b =>
      let e := ((s.ctx d o.ctx).vtab)[Fin.ofNat 256 v.toNat]
      let y := s.die b.phys
      let probe : RAcc := { id := 0, src := d, stream := .ctx o.ctx 0, ord := 0, eng := 0, op := 0, unit := 0
                            bundle := 0, kind := .load, far := a, len := n, job := o.job }
      if e.lost || y.incarnation != b.inc then .bad 4
      else if !(y.mem.rwin[w]).pinned || (y.windowAddr w off probe).isNone then .bad 3
      else .ok
  | _ => .bad 3

/-- Bytes at a far address as they stand, for the extent of a strict check. -/
def State.peekFar (s : State) (d : DieId) (o : Op) (a : Word) (n : Nat) : List Byte :=
  match farKind a with
  | some .panel => (s.readVirt (s.ctxRoot d o.ctx) a n).getD []
  | some (.bank v w off) =>
    match o.bound' v with
    | none => []
    | some b =>
      let y := s.die b.phys
      (List.range n).map fun k => y.bankByte (1024 * (y.mem.rwin[w]).base.toNat + off + k)
  | _ => []

/-- The strict check of a whole far operand, and the extent of its bitmap and scales (R275). -/
def State.strictCheck (s : State) (d : DieId) (o : Op) (len e : Nat) (sc : Bool) : Check × Nat :=
  match s.checkFar d o o.vb len with
  | .ok =>
    if !sc then (.ok, 0)
    else
      match s.checkFar d o o.vc (bitmapLen e) with
      | .ok =>
        let n := bitmapLen e + scaleLen e (s.peekFar d o o.vc (bitmapLen e))
        (s.checkFar d o o.vc n, n)
      | r => (r, 0)
  | r => (r, 0)

/-- A fetch goes on once nothing is outstanding: more scales, an end in error, or the steps (R273, R274). -/
def State.fetchNext (s : State) (d : DieId) (q : Fin 19) (id : Nat) : State :=
  match s.op d q id with
  | none => s
  | some o =>
    if !o.fetching || !(s.accsOf d id).isEmpty then s
    else if o.err ≠ 0 then s.opFails d q id o.err
    else
      let k := arrKind o.ins
      let t := s.slot d (slotOf (arrayOf q).val o)
      let len := tileLen t (streamFmt ((s.die d).feature 1) o)
      let e := streamLen k o
      let want := if wordScaled o then bitmapLen e + scaleLen e (o.data.take (bitmapLen e)) else 0
      if o.data.length < want then
        let o := { o with data := o.data ++ List.replicate (want - o.data.length) 0 }
        (s.modOp d q id fun _ => o).fetchFrom d q o len (want / 256 + 16)
      else
        let p := { o with progress := (len + o.data.length) / 4096 }
        (s.modOp d q id fun _ => p).runArray d q p

/-- A far fetch begins, or goes on from its recorded boundary (R273, R276). -/
def State.startFetch (s : State) (d : DieId) (q : Fin 19) (o : Op) : State :=
  let k := arrKind o.ins
  let t := s.slot d (slotOf (arrayOf q).val o)
  let fmt := streamFmt ((s.die d).feature 1) o
  let len := tileLen t fmt
  let e := streamLen k o
  if t.owner != some o.ctx then s.arrFails d q o.id 3
  else
    let first := if wordScaled o then bitmapLen e else 0
    let r := if o.strict then s.strictCheck d o len e (wordScaled o) else (.ok, first)
    match r.1 with
    | .bad code => s.arrFails d q o.id code
    | .again => s.modOp d q o.id fun p => { p with st := .queued }
    | .ok =>
      let data := o.data ++ List.replicate (r.2 - o.data.length) 0
      let o := { o with st := .running, fetching := true, data := data, start := s.cycle }
      ((s.modOp d q o.id fun _ => o).fetchFrom d q o len (len / 256 + data.length / 256 + 16)).fetchNext d q o.id

/-- The first byte of a fetch that has not come, those behind it aside. -/
def State.fetchLow (s : State) (d : DieId) (o : Op) : Nat :=
  (s.accsOf d o.id).foldl (fun m b => min m (b.unit + b.part)) o.next

/-- The record of a fetch shows the 4 KiB boundaries that it has passed (R170, R272). -/
def State.fetchProgress (s : State) (d : DieId) (q : Fin 19) (id : Nat) : State :=
  match s.op d q id with
  | none => s
  | some o =>
    let o' := { o with progress := max o.progress (s.fetchLow d o / 4096) }
    (s.modOp d q id fun _ => o').putOpRecord d q o' (if s.atFault d q id then 3 else 2)

/-- A fetch that has stood at a fault goes on from its last boundary (R274): what it had asked for behind it and not yet
sent is asked for again. -/
def State.refetch (s : State) (d : DieId) (q : Fin 19) (id : Nat) : State :=
  match s.op d q id with
  | none => s
  | some o =>
    if !o.fetching || o.err ≠ 0 then s
    else
    let low := s.fetchLow d o / 4096 * 4096
    let t := s.slot d (slotOf (arrayOf q).val o)
    let len := tileLen t (streamFmt ((s.die d).feature 1) o)
    let o := { o with next := low }
    ((s.modOp d q id fun _ => o).dropUnsent d id 0).fetchFrom d q o len (len / 256 + o.data.length / 256 + 16)

/-- The bytes of an access of a fetch have come (R273): tile bytes go to the slot. Bytes that come again count once in
the fold. -/
def State.fetchReply (s : State) (a : RAcc) : State :=
  let d := a.src
  let s := s.dropAcc a.id
  match s.op d a.eng a.op with
  | none => s
  | some o =>
    let n := slotOf (arrayOf a.eng).val o
    let len := tileLen (s.slot d n) (streamFmt ((s.die d).feature 1) o)
    let i := a.unit + a.part
    let s :=
      if i < len then s.modSlot d n fun t => t.write (((List.range a.len).map (i + ·)).zip a.data)
      else s.modOp d a.eng o.id fun o => { o with data := o.data.take (i - len) ++ a.data ++ o.data.drop (i - len + a.len) }
    let s := if o.done.contains i then s
      else (s.modOp d a.eng o.id fun o => { o with done := i :: o.done }).opBytes d o a.len
    (s.fetchProgress d a.eng o.id).fetchNext d a.eng o.id

/-- An access of a fetch has failed (R274): the operation keeps what it fetched up to the last boundary. In strict mode
a peer lost after the check poisons the result instead (R275). -/
def State.fetchFails (s : State) (a : RAcc) (code : BitVec 8) : State :=
  let d := a.src
  match s.op d a.eng a.op with
  | none => s.dropAcc a.id
  | some o =>
    if o.strict && code == 4 then
      let s := s.modOp d a.eng o.id fun o => { o with poison := true }
      (s.dropAcc a.id).fetchNext d a.eng o.id
    else
      let low := min (s.fetchLow d o) (a.unit + a.part)
      let s := s.modOp d a.eng o.id fun o =>
        { o with err := if o.err = 0 then code else o.err, next := min o.next (low / 4096 * 4096)
                 progress := min o.next (low / 4096 * 4096) / 4096 }
      ((s.dropAcc a.id).dropUnsent d o.id 0).fetchNext d a.eng o.id

/-- The bytes of an access of a fetch have come (R273): those of a 4 KiB step that begins with a slot that the context does
not own end the operation (R260). -/
def State.fetchCame (s : State) (a : RAcc) : State :=
  let i := a.unit + a.part
  match s.op a.src a.eng a.op with
  | none => s.dropAcc a.id
  | some o =>
    let t := s.slot a.src (slotOf (arrayOf a.eng).val o)
    if decide (i < tileLen t (streamFmt ((s.die a.src).feature 1) o)) && t.owner != some o.ctx
        && !o.done.any (fun j => j / 4096 == i / 4096) then s.fetchFails a 3
    else s.fetchReply a

/-! ### Start, completion and abort -/

/-- A slot operation (R258, R259): all but `slot.zero` act and complete in the cycle in which they start. -/
def State.startSlot (s : State) (d : DieId) (q : Fin 19) (o : Op) : State :=
  let s := s.modOp d q o.id fun o => { o with st := .running, start := s.cycle }
  let own (n : Fin 128) : Bool := (s.slot d n).owner == some o.ctx
  match o.ins with
  | .slotClaim n _ =>
    match (s.slot d n).owner with
    | none => (s.modSlot d n fun t => { t with owner := some o.ctx }).opDoneAt s.cycle d q o.id
    | some c => if c = o.ctx then s.opDoneAt s.cycle d q o.id else s.opFails d q o.id 3
  | .slotRelease n _ =>
    if own n then (s.modSlot d n fun t => { t with owner := none }).opDoneAt s.cycle d q o.id
    else s.opFails d q o.id 3
  | .slotShape n _ _ =>
    if !own n then s.opFails d q o.id 3
    else match (s.slot d n).reshape o.va with
      | some t => (s.modSlot d n fun _ => t).opDoneAt s.cycle d q o.id
      | none => (s.modOp d q o.id fun o => { o with flags := o.flags ||| fInvalid }).opDoneAt s.cycle d q o.id
  | .slotZero n _ => if own n then s.opDoneAt (s.cycle + 31) d q o.id else s.arrFails d q o.id 3
  | _ => s

/-- The operation that `mresume` continues, if it may (R276). -/
def Arr.toResume (a : Arr) (o : Op) : Option Op :=
  match a.resume with
  | none => none
  | some e => if e.ctx = o.ctx && a.resumeAt = a.started && resumable 1 e.err then some e else none

/-- An operation of an ARRAY queue starts. -/
def State.startArray (s : State) (d : DieId) (q : Fin 19) (o : Op) : State :=
  let m := arrayOf q
  let a := s.arr d m
  let s := s.putOpRecord d q o 2
  let go (s : State) (o : Op) : State :=
    let s := s.modOp d q o.id fun _ => { o with st := .running }
    if wordFar o && o.steps = 0 && (arrKind o.ins == .wld || arrKind o.ins == .mul || arrKind o.ins == .dist) then
      s.startFetch d q o
    else s.runArray d q o
  match arrKind o.ins with
  | .slot => (s.modArr d m fun a => { a with started := a.started + 1 }).startSlot d q o
  | .resume =>
    let s := s.modArr d m fun a => { a with started := a.started + 1 }
    match a.toResume o with
    | none => s.opFails d q o.id 8
    | some e =>
      go s { o with ins := e.ins, va := e.va, vb := e.vb, vc := e.vc, fmt := e.fmt, strict := e.strict, act := e.act
                    job := e.job, bind := e.bind, win := e.win, progress := e.progress, steps := e.steps
                    next := e.next, data := e.data, sc := e.sc, done := e.done, poison := e.poison }
  | k =>
    let again := wordFar o && o.strict && (k == .wld || k == .mul || k == .dist)
      && (let t := s.slot d (slotOf m.val o)
          let d8 := (s.die d).feature 1
          t.owner == some o.ctx
            && (s.strictCheck d o (tileLen t (streamFmt d8 o)) (streamLen k o) (wordScaled o)).1 == .again)
    if again then s.putOpRecord d q o 1
    else
      let s := s.modArr d m fun a => { a with started := a.started + 1 }
      go s { o with flags := o.flags ||| fieldFlags ((s.die d).feature 1) k o }

/-- Whether transfers of a drain are still to enter the network or to write. -/
def State.drains (s : State) (d : DieId) (o : Op) : Bool :=
  !o.pend.isEmpty || (s.die d).accs.any fun a => match a.kind with
    | .drain _ op _ => op == o.id
    | _ => false

/-- The poison of R275 after the last step of an operation whose pinned peer was lost. -/
def State.poisonArr (s : State) (d : DieId) (q : Fin 19) (o : Op) : State :=
  s.modArr d (arrayOf q) fun a =>
    match arrKind o.ins with
    | .wld => { a with live := { a.live with poison := true } }
    | _ => (List.range (wordM o)).foldl (fun a i =>
        (List.range 128).foldl (fun a n => a.setAcc i n (poisonValue a.float)) a) a

/-- The end of an operation of an ARRAY queue (R144, R257, R264, R275); it comes later where transfers or assignment reads
have been delayed, and for a `mwld` while an operation ahead of it runs. A `mresume` of an operation that had run all its
steps swaps nothing, and an operation that was poisoned stays so: DESIGN CHOICE (log 125). -/
def State.completeArray (s : State) (d : DieId) (q : Fin 19) (o : Op) : State :=
  match arrKind o.ins with
  | .slot => s.endOp d q o.id 0
  | k =>
    let rows := arrRows k o
    let ahead := ((s.die d).queues[q]).takeWhile fun p => p.id != o.id
    if o.err ≠ 0 then s
    else if s.cycle < s.rowsDue d q o rows || decide (o.steps < rows) || s.drains d o || !o.left.isEmpty
        || ahead.any fun p => p.st != .ended then
      s.opDoneAt (s.cycle + 1) d q o.id
    else
      let s := if k = .wld && decide (o.first < rows) then
          s.modArr d (arrayOf q) fun a => { a with live := a.shadow, shadow := {} }
        else s
      if o.poison then (s.poisonArr d q o).endOp d q o.id 4
      else
        let s := if o.major = 19 && o.minor = 3 then s.modArr d (arrayOf q) fun a => { a with resume := none } else s
        s.endOp d q o.id 0

/-- An operation of an ARRAY queue ends in error: one stopped at a row boundary ends once the rows before it have had
their effect, with the assignment words of a `mcent` that they need and their transfers (R143, R193, R269). -/
def State.failArray (s : State) (d : DieId) (q : Fin 19) (o : Op) (code : BitVec 8) : State :=
  match o.stopAt with
  | none => s.endOp d q o.id code
  | some r =>
    let lacks := !o.left.isEmpty && decide (16 * (o.next - 1) < r)
    if o.err ≠ 0 then s.endOp d q o.id o.err
    else if s.drains d o || lacks || decide (s.cycle < s.rowsDue d q o r) then
      s.schedOnce (s.cycle + 1) .engineOpError { die := d, eng := q, id := o.id, code := code }
    else if o.steps < r then
      let s := s.runRows d q o r
      s.endOp d q o.id (((s.op d q o.id).map (·.err)).filter (· != 0) |>.getD code)
    else s.endOp d q o.id code

/-- A running operation of an ARRAY queue is to be aborted (R143, R186): it stops at its next boundary, if there is one
before its end. -/
def State.abortArray (s : State) (d : DieId) (q : Fin 19) (o : Op) : State :=
  let k := arrKind o.ins
  if k == .slot || o.stopAt.isSome || o.err ≠ 0 then s
  else if o.fetching then
    let low := (s.accsOf d o.id).foldl (fun m a => if a.st == .waiting then min m (a.unit + a.part) else m) o.next
    let stop := (low + 4095) / 4096 * 4096
    if stop ≤ o.next then
      ((s.modOp d q o.id fun o => { o with err := 5, next := stop }).dropUnsent d o.id stop).fetchNext d q o.id
    else s
  else
    let rows := arrRows k o
    let due (r : Nat) : Nat := s.rowsDue d q o r
    match ((List.range rows).filter fun r => decide (o.steps < r) && r % 16 == 0).find? fun r => decide (s.cycle ≤ due r) with
    | none => s
    | some r => s.stopArray d q o r 5

/-! ### The network and the ports (R191, R198, R269) -/

/-- The drain whose next transfer enters the write network in this cycle: the earliest request, then queue order. -/
def Die.nextDrain (x : Die) (cycle : Nat) : Option (Fin 19 × Op) :=
  let l := (List.finRange 19).flatMap fun q =>
    (x.queues[q]).filterMap fun o => match o.pend with
      | p :: _ => if p.1 ≤ cycle then some (p.1, q, o) else none
      | [] => none
  match l with
  | [] => none
  | e :: r => some (r.foldl (fun b y => if y.1 < b.1 then y else b) e).2

/-- One transfer of a drain enters the write network at stage 0, unless a fixed-latency transfer enters it in this cycle;
it writes the banks three cycles later (R198). -/
def State.drainCycle (s : State) (d : DieId) : State :=
  let x := s.die d
  let busy := x.accs.any fun a => a.ord == .netWrite && a.due == s.cycle + 3
  match (if busy then none else x.nextDrain s.cycle) with
  | none => s
  | some (q, o) =>
    match o.pend with
    | [] => s
    | p :: rest =>
      let a : Access := { id := s.fresh, due := s.cycle + 3, ord := .netWrite, ctx := o.ctx, bundle := o.bundle
                          hnd := o.hnd, slot := 0, cls := 0, tag := none, pc := 0, win := o.win
                          kind := .drain q o.id p.2 }
      let s := s.modOp d q o.id fun o => { o with pend := rest }
      let s := (s.modDie d fun x => { x with accs := x.accs ++ [a] }).takeFresh
      s.sched a.due .bankAccessPerform { die := d, ord := .netWrite, id := a.id }

/-- The bank address of each assignment byte of a step of `mcent`, by 4 × row + byte (R269). -/
def centAddrs (o : Op) (step : Nat) : List (Nat × Nat) :=
  (((List.range (wordM o)).drop (16 * step)).take 16).flatMap fun i =>
    (List.range 4).map fun k => (4 * i + k, o.win.byteAddr (o.vb + o.vc * BitVec.ofNat 64 i) k)

/-- A step of `mcent` that begins in this cycle asks for its assignment words. -/
def State.centCycle (s : State) (d : DieId) (q : Fin 19) (o : Op) : State :=
  if arrKind o.ins == .cent && o.left.isEmpty && o.stopAt.isNone && o.err = 0 && decide (16 * o.next < wordM o)
      && decide (o.start + 16 * o.next - o.first + o.slip ≤ s.cycle) then
    s.modOp d q o.id fun o =>
      { o with left := wordsOf ((centAddrs o o.next).map (·.2)), next := o.next + 1 }
  else s

/-- The words that a `mcent` wants at the copy ports. -/
def centReqs (q : Fin 19) (o : Op) : List PortReq :=
  o.left.map fun w => { pri := 2 + q.val, who := .assign q o.id, word := w, read := true, write := false, bytes := [] }

/-- An assignment word of `mcent` is read. -/
def State.assignRead (s : State) (d : DieId) (q : Fin 19) (o : Op) (word : Nat) : State :=
  let x := s.die d
  match x.eccOf (8 * word) with
  | some .double =>
    let first := 16 * (o.next - 1)
    if o.stopAt.any fun r => decide (r ≤ first) then s.modOp d q o.id fun o => { o with left := [] }
    else (s.modOp d q o.id fun o => { o with left := [], stopAt := some first }).opFails d q o.id 6
  | _ =>
    s.modOp d q o.id fun o =>
      { o with left := o.left.erase word
               got := o.got ++ ((centAddrs o (o.next - 1)).filter fun e => e.2 / 8 == word).map fun e =>
                 (e.1, x.bankByte e.2) }

/-- A cycle in which assignment words are still missing delays the operation (R193). -/
def Op.centLate (o : Op) : Op := if arrKind o.ins == .cent && !o.left.isEmpty then { o with slip := o.slip + 1 } else o

end Sys2Proof.Machine
end

