-- ==== Sys2Proof/Machine/PanelOps.lean ====
section
/-! DEFINITION. The panel engine and the synchronous domain (R350 to R358): multicasts and their landings, panel
barriers, `mwin`, calibration, and what enters or leaves service (R301, R335, R350). -/

namespace Sys2Proof.Machine

/-! ### Multicast (R351 to R355) -/

/-- A multicast window with its control word written (R351). -/
def MWin.setCtl (w : MWin) (v : Word) : MWin :=
  let size := bits v 27 5
  { w with valid := bitAt v 63, job := BitVec.ofNat 8 (bits v 48 8), base := BitVec.ofNat 17 (bits v 10 17)
           size := if 10 ≤ size && size ≤ 26 then size else 10 }

def State.modMWin (s : State) (d : DieId) (n : Fin 16) (f : MWin → MWin) : State :=
  s.modDie d fun x => { x with mwin := vmod x.mwin n f }

/-- A multicast starts: its message goes to every target, the sender included, and it completes in `lat` cycles, or it
ends in error and sends nothing (R353). -/
def State.startMcst (s : State) (d : DieId) (o : Op) (n : Fin 16) (wide stamp : Bool) : State :=
  let w := (s.die d).mwin[n]
  if !w.valid || w.job != o.job || w.lat = 0 || !s.panel.locked then s.opFails d qPanel o.id 3
  else
    let m : McstMsg := { win := n, off := BitVec.ofNat 27 (bits o.va 0 27), tag := BitVec.ofNat 8 (bits o.va 40 8)
                         data := o.vb, wide := wide, stamp := stamp, land := s.cycle + w.lat.toNat, job := o.job
                         sender := d }
    let s := (List.finRange 128).foldl (fun s p =>
      if natBit w.tgt.toNat p.val && (s.die p).inService then s.schedLater .mcstArrival { die := p, mcst := m } else s) s
    s.opDoneAt (s.cycle + w.lat.toNat) d qPanel o.id

/-- MCST_ARRIVAL (R353, R350): an arrival that the window does not admit is dropped and counted; a late one, or one
while the domain is not locked, lands at once and is marked. -/
def execMcstArrival (s : State) : Host.Outcome State Fault Refusal :=
  let d := s.ev.die
  let m := s.ev.mcst
  let w := (s.die d).mwin[m.win]
  .next (if !w.valid || w.job != m.job || 1024 * w.base.toNat % 2 ^ w.size != 0 then
      s.modMWin d m.win fun w => { w with drops := satInc16 w.drops }
    else
      let late := decide (m.land < s.cycle) || !s.panel.locked
      let s := if late then s.modMWin d m.win fun w => { w with syncLost := true } else s
      let due := if late then s.cycle else m.land
      let s := s.modDie d fun x => { x with mcst := x.mcst ++ [{ msg := m, next := due }] }
      s.schedOnce due .mcstLanding { die := d })

/-- The bank bytes that a multicast writes (R353). -/
def mcstBytes (w : MWin) (m : McstMsg) : List (Nat × Byte) :=
  let n := if m.wide then 8 else 4
  let a := 1024 * w.base.toNat + (m.off.toNat - m.off.toNat % n) % 2 ^ w.size
  ((List.range n).map fun k => (a + k) % Config.bankBytes).zip (bytesOfNat n m.data.toNat)

/-- Inserts a landing by window and sender (R192). -/
def insertMcst (m : McstMsg) : List McstMsg → List McstMsg
  | [] => [m]
  | n :: r =>
    if 128 * m.win.val + m.sender.val < 128 * n.win.val + n.sender.val then m :: n :: r else n :: insertMcst m r

/-- The multicasts of a die that are due, in the order of R192. -/
def Die.dueMcst (x : Die) (cycle : Nat) : List McstMsg :=
  (x.mcst.filter fun e => decide (e.next ≤ cycle)).foldl (fun l e => insertMcst e.msg l) []

/-- MCST_LANDING (R192, R353): the multicast port writes every arrival due in the cycle and stamps its tile. -/
def execMcstLanding (s : State) : Host.Outcome State Fault Refusal :=
  let d := s.ev.die
  let l := (s.die d).dueMcst s.cycle
  .next (s.modDie d fun x =>
    let x := { x with mcst := x.mcst.filter fun e => !decide (e.next ≤ s.cycle) }
    l.foldl (fun x m =>
      let b := mcstBytes x.mwin[m.win] m
      let x := (x.bankWrite b).use (b.map (·.1))
      if m.stamp then x.stampAll (tilesOf (b.map (·.1))) (3 + 128 * m.win.val + m.sender.val) m.tag else x) x)

/-! ### Barriers (R356 to R358) -/

def State.chan (s : State) (k : Fin 16) : PChan := s.panel.chans[k]

def State.modChan (s : State) (k : Fin 16) (f : PChan → PChan) : State :=
  s.modPanel fun p => { p with chans := vmod p.chans k f }

/-- The channel of a `pbar`. -/
def pbarChan : Instr → Option (Fin 16)
  | .pbar _ ch _ => some ch
  | _ => none

/-- A flight time between a die and the barrier root, by its place among the free delays: at most pb_min while the domain
is locked (R357). -/
def State.rootDelay (s : State) (k : Nat) : Nat :=
  let t := Config.delay (s.freeCtr + k)
  if s.panel.locked then 1 + t % max 1 s.panel.pbMin.toNat else 1 + t

/-- A running `pbar` in a cycle: its arrival goes out once it may (R357); until then it can be aborted. -/
def State.pbarCycle (s : State) (d : DieId) (o : Op) : State :=
  match pbarChan o.ins with
  | none => s
  | some _ =>
    if o.st != .running || o.steps ≠ 0 then s
    else if o.abort then s.opFails d qPanel o.id 5
    else if o.issued + 10 ≤ s.cycle && !s.remoteOpen d o.ctx (1 <<< o.cls.val) o.bundle then
      s.schedOnce s.cycle .pbarArrivalSend { die := d, id := o.id }
    else s

/-- PBAR_ARRIVAL_SEND (R357): the arrival leaves for the root. -/
def execPbarArrivalSend (s : State) : Host.Outcome State Fault Refusal :=
  let d := s.ev.die
  .next (match (s.op d qPanel s.ev.id).bind fun o => (pbarChan o.ins).map fun ch => (o, ch) with
    | none => s
    | some (o, ch) =>
      if o.st != .running || o.steps ≠ 0 then s
      else
        let at_ := s.cycle + s.rootDelay 0
        let s := s.takeFree
        let s := s.modOp d qPanel o.id fun o => { o with steps := 1 }
        (s.modChan ch fun c => { c with inbox := c.inbox ++ [(at_, d, o.id)] }).schedOnce at_ .pbarRootCount
          { unit := ch.val })

/-- Inserts an arrival by its sender's physical number (R357). -/
def insertArrival (a : DieId × Nat) : List (DieId × Nat) → List (DieId × Nat)
  | [] => [a]
  | b :: r => if a.1.val < b.1.val then a :: b :: r else b :: insertArrival a r

/-- The cycles from a release to its completion at a die: one release flit reaches each die, and while the domain is locked
no operation completes before R + pb_lat (R350, R357). -/
def State.releaseWait (s : State) (d : DieId) : Nat :=
  let fly := s.rootDelay d.val
  if s.panel.locked then max fly (s.die d).pbLat.toNat else fly

/-- One arrival is counted at the root; the one that reaches expect makes the release (R357). -/
def State.countArrival (s : State) (k : Fin 16) (a : DieId × Nat) : State :=
  let c := s.chan k
  let c := { c with count := c.count + 1, counted := c.counted ++ [a] }
  if c.expect ≠ 0 && decide (c.expect.toNat ≤ c.count.toNat) then
    let s := s.modChan k fun _ => { c with count := c.count - c.expect, releases := c.releases + 1, counted := [] }
    let s := c.counted.foldl (fun s e => s.sched (s.cycle + s.releaseWait e.1) .pbarRelease { die := e.1, id := e.2 }) s
    { s with freeCtr := s.freeCtr + 128 }
  else s.modChan k fun _ => c

/-- PBAR_ROOT_COUNT (R357): the arrivals that reach the root in this cycle are counted in ascending die number. -/
def execPbarRootCount (s : State) : Host.Outcome State Fault Refusal :=
  let k : Fin 16 := Fin.ofNat 16 s.ev.unit
  let c := s.chan k
  let due := (c.inbox.filter fun e => decide (e.1 ≤ s.cycle)).foldl (fun l e => insertArrival e.2 l) []
  let s := s.modChan k fun c => { c with inbox := c.inbox.filter fun e => !decide (e.1 ≤ s.cycle) }
  .next (due.foldl (fun s a => s.countArrival k a) s)

/-- PBAR_RELEASE (R357): the operation completes at its die. -/
def execPbarRelease (s : State) : Host.Outcome State Fault Refusal :=
  .next (s.endOp s.ev.die qPanel s.ev.id 0)

/-- Ends the pending arrivals of a channel on every die with code 4 (R358). -/
def State.abortChan (s : State) (k : Fin 16) : State :=
  let s := s.modChan k fun c => { c with count := 0, inbox := [], counted := [] }
  (List.finRange 128).foldl (fun s d =>
    ((s.die d).queues[qPanel]).foldl (fun s o =>
      if pbarChan o.ins == some k && o.st == .running then s.opFails d qPanel o.id 4 else s) s) s

/-- PB_CTL_WRITE (R356, R358): a die's word of the channel is written, and the root counts by the fields last written;
valid 0 aborts the channel. -/
def execPbCtlWrite (s : State) : Host.Outcome State Fault Refusal :=
  let k : Fin 16 := Fin.ofNat 16 s.ev.unit
  let v := s.ev.val
  let w : PbCtl := { valid := bitAt v 63, job := BitVec.ofNat 8 (bits v 48 8), expect := BitVec.ofNat 32 (bits v 0 32) }
  let s := s.modDie s.ev.die fun x => { x with pbCtl := vset x.pbCtl k w }
  let s := s.modChan k fun c => { c with valid := w.valid, job := w.job, expect := w.expect }
  .next (if w.valid then s else s.abortChan k)

/-! ### Starting and completing operations of the PANEL queue (R352) -/

/-- An operation of the PANEL queue starts (R353, R355, R357). -/
def State.startPanel (s : State) (d : DieId) (o : Op) : State :=
  let s := s.modOp d qPanel o.id fun o => { o with st := .running, start := s.cycle }
  let s := s.putOpRecord d qPanel o 2
  match o.ins with
  | .mcst n _ _ w _ => s.startMcst d o n w false
  | .mcstSt n _ _ w _ => s.startMcst d o n w true
  | .pbar _ ch _ =>
    let c := (s.die d).pbCtl[ch]
    if !c.valid || c.job != o.job then s.opFails d qPanel o.id 3
    else match s.op d qPanel o.id with
      | some o => s.pbarCycle d o
      | none => s
  | .mwin n _ _ => (s.modMWin d n fun w => w.setCtl o.va).opDoneAt s.cycle d qPanel o.id
  | _ => s

/-- The completion of an operation of the PANEL queue: a multicast's bytes count now (R353). -/
def State.completePanel (s : State) (d : DieId) (o : Op) : State :=
  let n := match o.ins with
    | .mcst _ _ _ w _ | .mcstSt _ _ _ w _ => if w then 8 else 4
    | _ => 0
  (s.opBytes d o n).endOp d qPanel o.id 0

/-! ### Calibration and service (R300, R301, R335, R350) -/

/-- Whether a die is powered and in service. -/
def State.works' (s : State) (p : DieId) : Bool := (s.die p).inService

/-- A far latency that calibration finds: the same in both directions of a pair of peers, 0 without a peer in service
(R300). The latency itself is a free value. -/
def State.calFar (s : State) (p : DieId) (k : Fin 4) : BitVec 16 :=
  match peerOf p k.val with
  | none => 0
  | some q =>
    if s.works' p && s.works' q then
      let idx := if k.val < 2 then 2 * p.val + k.val else 2 * q.val + (k.val - 2)
      BitVec.ofNat 16 (1 + (Config.freeWord (s.freeCtr + idx)).toNat % 65535)
    else 0

/-- The longest path that calibration finds between a station and any die, at most 700 cycles: a free value (R356). -/
def State.calPath (s : State) (i : StackId) : Nat := 1 + (Config.freeWord (s.freeCtr + 256 + i.val)).toNat % 700

/-- The fitted station whose longest path is least, with the lowest stack index among equals (R357). -/
def State.calRoot (s : State) : Option StackId :=
  (List.finRange 128).foldl (fun best i =>
    if !(s.station i).fitted then best
    else match best with
      | none => some i
      | some j => if s.calPath i < s.calPath j then some i else best) none

/-- What the calibration of a panel finds (R300, R356, R357). -/
def State.freeCalib (s : State) : Calib :=
  { root := s.calRoot.getD 0
    pbMin := match s.calRoot with
      | some i => BitVec.ofNat 11 (s.calPath i)
      | none => 0
    farLat := (List.finRange 128).map fun p =>
      (p, BitVec.ofNat 64 (joinNat 16 ((List.finRange 4).map fun k => (s.calFar p k).toNat))) }

/-- The value that sync_cyc takes on a die while the domain is not locked, as the cycle at which it was 0 modulo 2^64: free,
and different on every die (R350). -/
def State.freeBase (s : State) (p : DieId) : Nat := 128 * (Config.freeWord (s.freeCtr + 384 + p.val)).toNat + p.val

/-- Drops the lock of the synchronous domain: sync_cyc goes on in each die by itself, and calibration ends after a time
that the spec leaves open (R350). -/
def State.unlock (s : State) : State :=
  let s := s.modPanel fun p => { p with locked := false }
  let dies := Vector.ofFn fun (p : DieId) => { s.die p with syncBase := s.freeBase p }
  let c := s.freeCalib
  ({ s with dies := dies, freeCtr := s.freeCtr + 512 } : State).schedLater .syncLock { cal := c }

/-- SYNC_RECAL (R350). -/
def execSyncRecal (s : State) : Host.Outcome State Fault Refusal := .next s.unlock

/-- The cycle from which every die in service counts its cycles. -/
def State.allCounting (s : State) : Nat :=
  s.dies.toList.foldl (fun m x => if x.inService then max m x.cycBase else m) 0

/-- The cycle before which the domain cannot lock: every die in service has left reset, so that its sync_off stays fixed
while the domain is locked (R350). -/
def State.lockFrom (s : State) : Nat :=
  if s.agenda.any fun e => e.act == .dieReset && !e.arg.flag then s.cycle + 1 else s.allCounting

/-- SYNC_LOCK (R300, R350, R357): calibration ends; sync_cyc restarts in step on every die and the domain is locked.
A calibration that a later change of service has overtaken does nothing; one that ends while a die is still in reset waits
for it. -/
def execSyncLock (s : State) : Host.Outcome State Fault Refusal :=
  let c := s.ev.cal
  .next (if s.agenda.any fun e => e.act == .syncLock then s
    else if s.cycle < s.lockFrom then s.sched s.lockFrom .syncLock s.ev
    else
      let dies := Vector.ofFn fun (p : DieId) =>
        let x := s.dies[p]
        let w : Word := ((c.farLat.find? fun (e : DieId × BitVec 64) => e.1 == p).map fun e => e.2).getD 0
        { x with syncBase := s.cycle
                 stat := { x.stat with farLat := Vector.ofFn fun k => BitVec.ofNat 16 (bits w (16 * k.val) 16) } }
      ({ s with dies := dies } : State).modPanel fun p => { p with locked := true, pbRoot := c.root, pbMin := c.pbMin })

/-- The stack on a link of a die (R297). On a bare die a link exists where a station has answered at bring-up (R364). -/
def State.linkStack (s : State) (p : DieId) (k : Nat) : Option StackId :=
  match s.panel.package with
  | some b => if p = 0 then b.links.toList.getD k none else none
  | none =>
    let c := dieXY p
    let d := linkStep k
    stackAt (c.1 + d.1) (c.2 + d.2)

/-- The stacks beside a die (R297). -/
def State.stacksOf (s : State) (p : DieId) : List StackId := (List.range 4).filterMap (s.linkStack p)

/-- The channels of the stacks beside a die are dealt again (R301). -/
def State.redeal (s : State) (p : DieId) : State :=
  (s.stacksOf p).foldl (fun s i => s.schedLater .channelRedeal { stack := i }) s

/-- Calls an election for a queue, unless one is under way (R349). -/
def State.callElection (s : State) (q : QueueId) : State :=
  if s.agenda.any fun e => e.act == .leaderElection && e.arg.que == q then s
  else s.schedLater .leaderElection { que := q }

/-- The queues that a die leads by election elect another leader (R349). -/
def State.leaderGone (s : State) (p : DieId) : State :=
  (List.finRange 64).foldl (fun s q =>
    if (s.queue q).leader = p && (s.queue q).elect then s.callElection q else s) s

/-- What follows a die entering or leaving service: its stacks deal their channels again, the domain is calibrated
anew, and a queue that has lost its leader elects one (R301, R349, R350). -/
def State.dieChanged (s : State) (p : DieId) : State :=
  let s := s.redeal p
  (if s.works' p then s else s.leaderGone p).unlock

/-! ### Reset of a die (R257, R261, R326, R350, R363, R370) -/

/-- A die right after its reset: everything at its reset value, but for what is fused or in secure storage, the bytes of
its banks, and, once the feature set is locked, that set. `base` is the cycle in which its core cycles begin to count. -/
def Die.afterReset (x : Die) (p : Panel) (base : Nat) (stage : BitVec 4) (inc : BitVec 8) : Die :=
  let b := x.boot
  { inService := x.inService, incarnation := inc, cycBase := base, syncBase := base
    bank := x.bank, bankBad := x.bankBad, vtab := fusedTable p.grade
    boot := { stage := stage, minFw := b.minFw, minUcode := b.minUcode, uid := b.uid, pubKeyHash := b.pubKeyHash
              blocksUsed := b.blocksUsed, leaf := b.leaf, sramBad := b.sramBad, storeBad := b.storeBad, cert := b.cert
              featAcc := if p.featLocked then p.featSet else 0
              featStatus := if p.featLocked then 1 else 0
              featLock := p.featLocked } }

/-- What of the remote accesses and pairs is left once a die is reset: its own are gone, and those that it was about to
perform are discarded, so that their sources time out (R320, R326). -/
def Panel.dropDie (p : Panel) (d : DieId) : Panel :=
  { p with raccs := (p.raccs.filter fun a => a.src != d).map fun a =>
             if a.dest == .die d && (a.st == .arrived || a.st == .performing)
             then { a with st := .sent, left := [], got := [] } else a
           pairs := p.pairs.filter fun r => r.src != d && r.dest != .die d }

/-- Whether a due step is work inside a die, which its reset ends. -/
def Sched.inside (e : Sched) (d : DieId) : Bool :=
  e.arg.die == d && match e.act with
    | .bundleIssue | .quantumExpiry | .tagWaitLimit | .resultLanding | .bankAccessPerform | .waitConditionMet
    | .heldBundleRelease | .taskLaunchStart | .taskEnd | .spillRefillComplete | .ctxswComplete | .cutBack
    | .cutBackSaveEnd | .arrivePerform | .foldSetPerform | .engineOpStart | .engineOpComplete | .engineOpError
    | .copyUnitCommit | .copyTagWaitLimit | .followOnIssue | .translationWalkComplete | .migratingLeafRewalk | .fillBegin
    | .fillComplete | .refreshWindowOpen | .refreshWindowClose | .stationForcedRefresh | .remoteAccessSend
    | .retryAfterExpiry | .remoteTimeout | .mcstLanding | .pbarArrivalSend | .pbarRelease => true
    | .dieReset => e.arg.flag
    | _ => false

/-- Resets a die: what it had in flight is gone, and its core cycles begin to count when it leaves reset, at a cycle that
the spec leaves open, different on every die (R350). -/
def State.resetDie (s : State) (d : DieId) (stage : BitVec 4) (inc : BitVec 8) : State :=
  let base := 128 * (s.cycle / 128 + 1 + Config.delay s.freeCtr) + d.val
  let s := s.takeFree
  let s := s.modDie d fun x => x.afterReset s.panel base stage inc
  let s := s.modPanel fun p => p.dropDie d
  { s with agenda := s.agenda.filter fun e => !e.inside d
           iss := if s.iss.active && s.iss.die == d then {} else s.iss }

/-- Takes a die out of service: it is held in reset (R335, R374). -/
def State.dieOff (s : State) (p : DieId) : State :=
  let s := s.resetDie p 0 ((s.die p).incarnation + 1)
  (s.modDie p fun x => { x with inService := false }).dieChanged p

/-- SERVICE_CHANGE (R335, R349, R350): a die that enters takes its virtual number in every panel table, and boots; one that
drains leads no queue by election. -/
def execServiceChange (s : State) : Host.Outcome State Fault Refusal :=
  .next (match s.ev.service with
    | .dieIn p v inc =>
      let s := s.modDie p fun x => { x with inService := true, incarnation := inc }
      let s := match v with
        | none => s
        | some v =>
          let e : VEntry := { present := true, lost := false, inc := inc, phys := p }
          { s with dies := s.dies.map fun (x : Die) => { x with vtab := vset x.vtab (Fin.ofNat 256 v.toNat) e } }
      (s.dieChanged p).sched (s.cycle + 1) .dieReset { die := p, arr := true }
    | .dieOut p => s.dieOff p
    | .stackIn i => (s.modStation i fun t => { t with fitted := true }).unlock
    | .stackOut i => (s.modStation i fun t => { t with fitted := false }).unlock
    | .draining p on =>
      let s := s.modDie p fun x => { x with draining := on }
      if on then s.leaderGone p else s)

end Sys2Proof.Machine
end

