-- ==== Sys2Proof/Machine/Identity.lean ====
section
/-! DEFINITION. A die's identity key and its secure storage (R368): signatures of LMS_SHA256_M32_H20 with
LMOTS_SHA256_N32_W4 (RFC 8554, NIST SP 800-208), and the region of the boot flash that AES-256-GCM seals. -/

namespace Sys2Proof.Machine

/-! ### Signing -/

/-- The typecode and the height of the identity key's tree. -/
def lmsH20 : Nat := 8
def idHeight : Nat := 20

/-- The private seed of an LMS key and its identifier: 32 and 16 bytes. -/
structure LmsSeed where
  seed : List Byte
  ident : List Byte
  deriving DecidableEq, Repr

/-- The seed that 48 bytes hold. -/
def lmsSeedOf (l : List Byte) : LmsSeed := { seed := l.take 32, ident := (l.drop 32).take 16 }

/-- What every hash of leaf q begins with. -/
def LmsSeed.pre (k : LmsSeed) (q : Nat) : List Byte := k.ident ++ beBytes 4 q

/-- The start of chain i of leaf q (RFC 8554, Appendix A). -/
def LmsSeed.start (k : LmsSeed) (q i : Nat) : List Byte := sha256 (k.pre q ++ beBytes 2 i ++ [0xFF] ++ k.seed)

/-- The one-time public key of leaf q: every chain to its end (RFC 8554, 4.3). -/
def LmsSeed.otsPublic (k : LmsSeed) (q : Nat) : List Byte :=
  sha256 (k.pre q ++ beBytes 2 0x8080 ++ (List.range otsChains).flatMap fun i => otsChain (k.pre q) i 15 0 (k.start q i))

/-- A node of the tree of a height, by its distance above the leaves (RFC 8554, 5.3). -/
def LmsSeed.node (k : LmsSeed) (height : Nat) : Nat → Nat → List Byte
  | 0, r => sha256 (k.pre r ++ beBytes 2 0x8282 ++ k.otsPublic (r - 2 ^ height))
  | n + 1, r => sha256 (k.pre r ++ beBytes 2 0x8383 ++ k.node height n (2 * r) ++ k.node height n (2 * r + 1))

/-- The one-time signature of a message under leaf q, with its randomizer (RFC 8554, 4.5). -/
def LmsSeed.otsSign (k : LmsSeed) (q : Nat) (rand msg : List Byte) : List Byte :=
  let digits := otsDigits (sha256 (k.pre q ++ beBytes 2 0x8181 ++ rand ++ msg))
  beBytes 4 lmotsW4 ++ rand ++ digits.zipIdx.flatMap fun d => otsChain (k.pre q) d.2 d.1 0 (k.start q d.2)

/-- The signature of a message under leaf q of a tree of a height and type (RFC 8554, 5.4.1): the siblings on the leaf's way
to the root follow the one-time signature. -/
def LmsSeed.signAt (k : LmsSeed) (height type q : Nat) (rand msg : List Byte) : List Byte :=
  beBytes 4 q ++ k.otsSign q rand msg ++ beBytes 4 type
    ++ (List.range height).flatMap fun i => k.node height i ((2 ^ height + q) / 2 ^ i ^^^ 1)

/-- A signature of the identity key (R368). The randomizer is a free value. -/
def LmsSeed.sign (k : LmsSeed) (q : Nat) (rand : BitVec 256) (msg : List Byte) : List Byte :=
  k.signAt idHeight lmsH20 q (bytesOfNat 32 rand.toNat) msg

/-- The public key of the identity key (RFC 8554, 5.3), which Llynafen certifies. -/
def LmsSeed.public (k : LmsSeed) : List Byte := beBytes 4 lmsH20 ++ beBytes 4 lmotsW4 ++ k.ident ++ k.node idHeight idHeight 1

/-! ### Secure storage -/

/-- The seed of a die's identity key, which is generated at manufacture from the die's unique secret. -/
def factorySeed (secret : BitVec 256) : List Byte := bytesOfNat 48 (Config.idSeed secret).toNat

/-- What secure storage holds: the private seed and the lower 10 bits of the leaf index. -/
def storePlain (seed : List Byte) (low : Nat) : List Byte := seed ++ bytesOfNat 2 low

/-- What a die's secure storage holds, if its tag is right. A region that has not been written since manufacture holds the
private seed and index 0. -/
def State.storeRead (s : State) (d : DieId) : Option (List Byte) :=
  let secret := Config.dieSecret (s.die d).boot.uid
  match s.panel.stores.find? fun e => e.1 == d with
  | none => some (storePlain (factorySeed secret) 0)
  | some (_, r) => gcmOpen (Config.storeKey secret) r.iv [] r.ct r.tag

/-- Writes plain bytes into a die's secure storage, sealed under a key of its secret. The IV is a free value. -/
def State.storeWrite (s : State) (d : DieId) (l : List Byte) : State :=
  let iv := Config.storeIv s.freeCtr
  let r := gcmSeal (Config.storeKey (Config.dieSecret (s.die d).boot.uid)) iv [] l
  (s.modPanel fun p => { p with stores := (d, { iv := iv, ct := r.1, tag := r.2 }) :: p.stores.filter fun e => e.1 != d }).takeFree

/-- Signs with the identity key of a die: its index is in secure storage before the signature leaves. A storage that fails
its tag ends the runtime (R378). -/
def State.signWith (s : State) (d : DieId) (index : Nat) (msg : List Byte) : State × List Byte :=
  match s.storeRead d with
  | none => (s.modDie d fun x => { x with boot := { x.boot with ended := true } }, [])
  | some l =>
    let s := s.storeWrite d (storePlain (l.take 48) (index % 1024))
    (s.takeFree, (lmsSeedOf (l.take 48)).sign index (Config.signRandom s.freeCtr) msg)

/-- The seed of a die's ML-KEM-1024 key pair, which comes from its unique secret (R368). -/
def kemSeedOf (uid : Word) : List Byte := bytesOfNat 64 (Config.kemSeed (Config.dieSecret uid)).toNat

end Sys2Proof.Machine
end

