-- ==== Sys2Proof/Machine/RemoteNet.lean ====
section
/-! DEFINITION. The steps of streams at their source (R320, R322 to R326): sending, replies, resends, time-outs, and the
migration ranges of a station (R325, R331). -/

namespace Sys2Proof.Machine

/-- REMOTE_ACCESS_SEND (R306, R309, R320). -/
def execRemoteAccessSend (s : State) : Host.Outcome State Fault Refusal :=
  .next (match s.acc s.ev.id with
    | none => s
    | some a => if a.st != .waiting then s else s.sendAcc State.fetchFails a)

/-- An acknowledgement or reply has reached the source (R250, R273, R315 to R319). -/
def State.replyAck (s : State) (a : RAcc) : State :=
  match a.stream with
  | .queue q => s.queueReply q a
  | .ctx _ _ =>
  if a.eng = qCopy then
    match s.op a.src qCopy a.op with
    | some o => (s.copyReply a.src o a 0).releaseStream a.src a.stream
    | none => (s.dropAcc a.id).releaseStream a.src a.stream
  else if a.eng = qRemote then (s.remoteReply a).releaseStream a.src a.stream
  else (s.fetchCame a).releaseStream a.src a.stream

/-- A refusal for retry holds the stream, and the access is sent again after its interval (R323, R324). -/
def State.replyRetry (s : State) (a : RAcc) (after : Nat) : State :=
  let s := s.modDie a.src fun x => { x.countRefusal with heldStreams := addNew x.heldStreams a.stream }
  let p := s.pair a
  let s := s.setPair { p with heard := max p.heard (a.heard + 1) }
  s.modAcc a.id fun a => { a with st := .resend, resent := false, resendAt := s.cycle + after }

/-- REMOTE_REPLY_ARRIVAL (R322 to R324, R326): a reply from another incarnation than the captured one ends the access with
code 4; one for an access that has ended is counted if it is a refusal for retry. -/
def execRemoteReplyArrival (s : State) : Host.Outcome State Fault Refusal :=
  .next (match s.acc s.ev.id with
    | none => s
    | some a =>
      if a.orphan then
        let s := match a.st, a.ans with
          | .answered, .retry _ => s.modDie a.src Die.countRefusal
          | _, _ => s
        s.dropAcc a.id
      else if a.st != .answered then s
      else if a.ansInc ≠ a.inc then s.accFails State.fetchFails a 4
      else match a.ans with
        | .ack => s.replyAck a
        | .refuse => s.accFails State.fetchFails a 3
        | .badEcc => s.accFails State.fetchFails a 6
        | .retry n => s.replyRetry a n)

/-- RETRY_AFTER_EXPIRY (R324): the refused access is translated again and sent with the next number of its pair. -/
def execRetryAfterExpiry (s : State) : Host.Outcome State Fault Refusal :=
  .next (match s.acc s.ev.id with
    | none => s
    | some a =>
      if a.st != .resend || decide (s.cycle < a.resendAt) then s
      else s.sendAcc State.fetchFails { a with resent := true, fixed := false })

/-- The virtual die that an access names. -/
def RAcc.vdie (a : RAcc) : Option (BitVec 8) :=
  match farKind a.far with
  | some (.bank v _ _) | some (.fold v _) => some v
  | _ => none

/-- Marks the destination of an access lost: the context's virtual die entry, or the stack's bit of the die (R326). -/
def State.markLost (s : State) (a : RAcc) : State :=
  match a.dest with
  | .stack i => s.modDie a.src fun x =>
    { x with mem := { x.mem with stackLost := x.mem.stackLost ||| BitVec.ofNat 128 (2 ^ i.val) } }
  | .die _ =>
    match a.vdie with
    | none => s
    | some v => s.modCtx a.src a.stream.ctxOf fun c =>
      { c with vtab := vmod c.vtab (Fin.ofNat 256 v.toNat) fun e => { e with lost := true } }

/-- Whether a lost mark that an access has set covers another access (R326). -/
def RAcc.covers (a b : RAcc) : Bool :=
  b.src == a.src && b.dest == a.dest && b.isOut && match a.dest with
    | .stack _ => true
    | .die _ => b.stream.ctxOf == a.stream.ctxOf && b.vdie == a.vdie

/-- Ends a sent access with code 4; the access itself may still commit at its destination (R326). -/
def State.abandon (s : State) (a : RAcc) : State :=
  let s := s.accFails State.fetchFails a 4
  s.modPanel fun p => { p with raccs := (p.raccs.filter fun b => b.id != a.id) ++ [{ a with orphan := true, op := 0 }] }

/-- REMOTE_TIMEOUT (R326): the destination is marked lost, and every access that the mark covers ends with code 4. -/
def execRemoteTimeout (s : State) : Host.Outcome State Fault Refusal :=
  .next (match s.acc s.ev.id with
    | none => s
    | some a =>
      if !a.isOut || a.sentAt ≠ s.ev.seq then s
      else
        let s := s.markLost a
        (s.panel.raccs.filter fun b => a.covers b).foldl (fun s b => s.abandon b) s)

/-- ST_MIG_WRITE (R325, R331): a write of a station's migration range. -/
def execStMigWrite (s : State) : Host.Outcome State Fault Refusal :=
  let n := s.ev.rng
  let v := s.ev.val
  .next (s.modStation s.ev.stack fun t =>
    { t with migActive := vset t.migActive n (bitAt v 63), migSize := vset t.migSize n (BitVec.ofNat 5 (bits v 48 5))
             migPage := vset t.migPage n (BitVec.ofNat 27 (bits v 16 27)) })

end Sys2Proof.Machine
end

