-- ==== Sys2Proof/Machine/Engines.lean ====
section
/-! DEFINITION. The queues of the engines (R141 to R149): which operation starts, its completion and its end in error,
the hand-over of a follow-on, and the work of running operations in a cycle. -/

namespace Sys2Proof.Machine

/-- Whether an operation runs no step because a consumed token, or the copy that it binds to, is in error (R147, R271). -/
def Op.depError (o : Op) : Bool := o.boundErr || o.deps.contains (.was .error)

/-- ENGINE_OP_START (R143, R147): the operation's first step, or its end with code 1. -/
def execEngineOpStart (s : State) : Host.Outcome State Fault Refusal :=
  let d := s.ev.die
  let q := s.ev.eng
  .next (match s.op d q s.ev.id with
    | none => s
    | some o =>
      if o.st != .queued then s
      else if o.depError then s.opFails d q o.id 1
      else if q = qCopy then s.startCopy d o
      else if q = qRemote then s.startRemote d o
      else if q = qPanel then s.startPanel d o
      else s.startArray d q o)

/-- What the completion of a remote operation does besides R144 (R316, R317). -/
def State.finishRemote (s : State) (d : DieId) (o : Op) : State :=
  let s := match rcpStamp o with
    | some t => s.modDie d fun x => x.stampAll o.tiles 2 t
    | none => s
  if isRcp o.ins && o.minor = 3 then s.modDie d fun x => { x with rcpResume := vset x.rcpResume o.ctx none } else s

/-- ENGINE_OP_COMPLETE (R144). -/
def execEngineOpComplete (s : State) : Host.Outcome State Fault Refusal :=
  let d := s.ev.die
  let q := s.ev.eng
  .next (match s.op d q s.ev.id with
    | none => s
    | some o =>
      if o.st == .ended || o.stopAt.isSome then s
      else if q = qCopy then (s.finishCopy d o).endOp d q o.id 0
      else if q = qRemote then (s.finishRemote d o).endOp d q o.id 0
      else if q = qPanel then s.completePanel d o
      else s.completeArray d q o)

/-- ENGINE_OP_ERROR (R144, R154). -/
def execEngineOpError (s : State) : Host.Outcome State Fault Refusal :=
  let d := s.ev.die
  let q := s.ev.eng
  .next (match s.op d q s.ev.id with
    | none => s
    | some o =>
      if q = qCopy || q = qRemote || q = qPanel then s.endOp d q o.id s.ev.code
      else s.failArray d q o s.ev.code)

/-- FOLLOW_ON_ISSUE (R271): the copy engine hands the bound command over; it begins in this cycle if it can. -/
def execFollowOnIssue (s : State) : Host.Outcome State Fault Refusal :=
  let d := s.ev.die
  let s := s.modDie d fun x => x.mapOps fun o => if o.id == s.ev.id then { o with handed := true } else o
  .next ((List.finRange 19).foldl (fun s q =>
    match (s.die d).startable q with
    | some o => if o.id = s.ev.id then s.schedOnce s.cycle .engineOpStart { die := d, eng := q, id := o.id } else s
    | none => s) s)

/-- An aborted copy or remote operation that stands at a translation fault ends there: its waiting accesses end aborted
(R143, R254). -/
def State.abortAtFault (s : State) (d : DieId) (o : Op) : State :=
  (s.accsOf d o.id).foldl (fun s a =>
    if (a.st == .waiting || a.st == .resend) && (s.die d).faulted a.who then s.accFails State.fetchFails a 5 else s) s

/-- Puts the starts and the aborts of a die's queues for this cycle on the agenda (R142, R143, R147). -/
def State.scanQueues (s : State) (d : DieId) : State :=
  (List.finRange 19).foldl (fun s q =>
    if ((s.die d).queues[q]).isEmpty then s
    else
      let s := ((s.die d).queues[q]).foldl (fun s o =>
        if !o.abort then s
        else if o.st == .queued then s.opFails d q o.id 5
        else if o.st == .running && q != qCopy && q != qRemote && q != qPanel then s.abortArray d q o
        else if o.st == .running && (q = qCopy || q = qRemote) then s.abortAtFault d o
        else s) s
      match (s.die d).startable q with
      | some o => if o.abort then s else s.schedOnce s.cycle .engineOpStart { die := d, eng := q, id := o.id }
      | none => s) s

/-- The work of a die's running operations in a cycle, before the ports choose (R198, R250, R260, R269, R316). -/
def State.engineCycle (s : State) (d : DieId) : State :=
  let s := (List.finRange 19).foldl (fun s q =>
    ((s.die d).queues[q]).foldl (fun s o =>
      match s.op d q o.id with
      | none => s
      | some o =>
        if o.st != .running then s
        else if q = qCopy then (s.copyCycle d o).copyDone d o.id
        else if q = qRemote then (s.rcpCycle d o).remoteDone d o.id
        else if q = qPanel then s
        else
          let s := s.ownCycle d q o
          match s.op d q o.id with
          | some o => s.centCycle d q o
          | none => s) s) s
  s.drainCycle d

/-- The steps of a die's running array operations that end in a cycle: they read the banks after every write of the cycle
(R192, R292). -/
def State.stepsCycle (s : State) (d : DieId) : State :=
  (List.finRange 16).foldl (fun s m =>
    let q : Fin 19 := Fin.ofNat 19 (m.val + 1)
    ((s.die d).queues[q]).foldl (fun s o =>
      match s.op d q o.id with
      | none => s
      | some o => if o.st == .running then s.stepCycle d q o else s) s) s

end Sys2Proof.Machine
end

