-- ==== Sys2Proof/Machine/Fills.lean ====
section
/-! DEFINITION. The fill engine of a die and the channels of a stack (R299, R301 to R305): calendar entries, fills in
flight, refresh windows, the dealing of channels, and errors of the links. -/

namespace Sys2Proof.Machine

/-- A calendar entry (R303). -/
structure CalEntry where
  valid : Bool
  refresh : Bool
  stamp : Option (BitVec 8)
  start : Nat
  src : Word
  dst : Nat
  len : Nat
  deriving DecidableEq, Repr

/-- Entry k of a die's calendar, as its banks hold it (R303, R330). -/
def Die.calEntry (x : Die) (k : Nat) : CalEntry :=
  let base := x.mem.calBase.toNat / 32 * 32
  let word (j : Nat) : Word :=
    wordOfBytes ((List.range 8).map fun i => x.bankByte ((base + 32 * k + 8 * j + i) % Config.bankBytes))
  let w := word 0
  { valid := bitAt w 63, refresh := bitAt w 62
    stamp := if bitAt w 61 then some (BitVec.ofNat 8 (bits w 48 8)) else none
    start := bits w 0 48, src := word 1, dst := bits (word 2) 0 27, len := bits (word 3) 0 32 }

/-- The bank addresses of an entry's four words. -/
def Die.entryAddrs (x : Die) (k : Nat) : List Nat :=
  (List.range 32).map fun i => (x.mem.calBase.toNat / 32 * 32 + 32 * k + i) % Config.bankBytes

/-- Whether an entry cannot be read: a word of it has an uncorrectable error (R189). -/
def Die.entryBad (x : Die) (k : Nat) : Bool := (x.eccBad (x.entryAddrs k)).isSome

/-- The first entry not yet begun that is valid or cannot be read (R189, R303). -/
def Die.nextEntry (x : Die) : Option (Nat × CalEntry) :=
  ((List.range x.mem.calCount).drop x.nextFill).findSome? fun k =>
    let e := x.calEntry k
    if e.valid || x.entryBad k then some (k, e) else none

/-- The fill engine reads the entries up to entry k, which it begins: their errors are corrected and counted (R189). -/
def Die.readEntries (x : Die) (k : Nat) : Die :=
  x.eccRead ((((List.range k).drop x.nextFill).flatMap fun j => (x.entryAddrs j).take 8) ++ x.entryAddrs k)

/-- The part's cycle in which an entry is due: `cyc` counts from the die's reset, and the calendar from fill_epoch. -/
def Die.entryStart (x : Die) (e : CalEntry) : Nat := x.cycBase + x.mem.epoch.toNat + e.start

def Die.countSlip (x : Die) : Die := { x with mem := { x.mem with slips := satInc x.mem.slips } }

/-- Whether a stack beside a die is dealing its channels anew, which holds the die's fills (R301). -/
def State.redealing (s : State) (d : DieId) : Bool :=
  s.agenda.any fun e => e.act == .channelRedeal && (s.stacksOf d).contains e.arg.stack

/-- Whether the fills of a die issue no reads in this cycle: a refresh window is open, or its channels are being dealt
(R301, R304). -/
def State.fillsHeld (s : State) (d : DieId) : Bool :=
  ((s.die d).refreshOpen.any fun t => decide (s.cycle < t)) || s.redealing d

/-- Puts the next calendar entry of a die on the agenda once it may begin (R304). -/
def State.scanCalendar (s : State) (d : DieId) : State :=
  let x := s.die d
  if !x.mem.calEnable || !x.inService then s
  else match x.nextEntry with
    | none => s
    | some (k, e) =>
      if x.entryBad k then
        if s.cycle < x.fillAfter then s else s.schedOnce s.cycle .fillBegin { die := d, id := k }
      else if s.cycle < max (x.entryStart e) x.fillAfter then s
      else if e.refresh then s.schedOnce s.cycle .refreshWindowOpen { die := d, id := k }
      else if s.fillsHeld d then s
      else s.schedOnce s.cycle .fillBegin { die := d, id := k }

/-- The start addresses of the parts of a range that lie in one 64 KiB page each. -/
def pageParts (src : Word) (len : Nat) : List Word :=
  let first := src.toNat % 65536
  (List.range ((first + len + 65535) / 65536)).map fun k =>
    if k = 0 then src else src + BitVec.ofNat 64 (65536 * k - first)

def Die.countFillError (x : Die) : Die := { x with mem := { x.mem with fillErrors := satInc x.mem.fillErrors } }

/-- FILL_BEGIN (R189, R304, R305): the entry begins, late or not. An entry that cannot be read, and a source that is no
panel address, are errors of the fill. -/
def execFillBegin (s : State) : Host.Outcome State Fault Refusal :=
  let d := s.ev.die
  let x := s.die d
  let e := x.calEntry s.ev.id
  let f : Fill := { id := s.fresh, src := e.src, dst := e.dst, len := e.len, stamp := e.stamp
                    pages := pageParts e.src e.len }
  let s := s.modDie d fun x => { x.readEntries s.ev.id with nextFill := s.ev.id + 1, fillAfter := s.cycle + 1 }
  .next (if x.entryBad s.ev.id then s.modDie d Die.countFillError
    else
      let s := if x.entryStart e < s.cycle then s.modDie d Die.countSlip else s
      let s := s.takeFresh
      if farKind e.src != some .panel then s.modDie d Die.countFillError
      else
        let s := s.modDie d fun x => { x with fills := x.fills ++ [f] }
        if e.len = 0 then s.schedOnce s.cycle .fillComplete { die := d, id := f.id } else s)

/-- Changes a fill. -/
def State.modFill (s : State) (d : DieId) (id : Nat) (f : Fill → Fill) : State :=
  s.modDie d fun x => { x with fills := replaceIf (fun (g : Fill) => g.id == id) f x.fills }

/-- A fill stops in error: it stamps nothing, and what has landed stays (R305). -/
def State.failFill (s : State) (d : DieId) (id : Nat) : State :=
  s.modDie d fun x =>
    if x.fills.any fun f => f.id == id then
      { x.countFillError with fills := x.fills.filter fun f => f.id != id }
    else x

/-- Bank addresses that a fill writes, in order (R304). -/
def Fill.addrs (f : Fill) : List Nat := (List.range f.len).map fun i => (f.dst + i) % Config.bankBytes

/-- Translates the next pages of a fill, as far as the cache reaches (R309). -/
def State.fillPages (s : State) (d : DieId) (id : Nat) : List Word → State
  | [] => s
  | va :: rest =>
    match s.translate d (s.die d).mem.fillRoot va .read (.fill id) with
    | (s, none) => s
    | (s, some e) =>
      let s := s.modFill d id fun f =>
        let stop := f.src.toNat + f.len
        { f with pages := rest, phys := f.phys ++ [(e.phys' va, min (65536 - va.toNat % 65536) (stop - va.toNat))] }
      s.fillPages d id rest

/-- The channels that a station has assigned to a die (R301, R331). -/
def State.channelsFor (s : State) (d : DieId) (i : StackId) : List (Fin 32) :=
  match (List.range 4).find? fun k => s.linkStack d k == some i with
  | none => []
  | some k => (List.finRange 32).filter fun c => bits (s.station i).chan (2 * c.val) 2 == (k + 2) % 4

/-- The words that a stack brings a die in a cycle of 0.5 ns: 80 GB/s from each channel assigned to the die, and no more
than the 1.536 TB/s of the link (R297, R301). -/
def State.fillBudget (s : State) (d : DieId) (i : StackId) : Nat := min 96 (5 * (s.channelsFor d i).length)

/-- The physical address of byte k of physical runs. -/
def physAt : List (Nat × Nat) → Nat → Nat
  | [], k => k
  | (pa, n) :: r, k => if k < n then pa + k else physAt r (k - n)

/-- The stack from which a word of a fill comes. -/
def Fill.stackOf' (f : Fill) (w : Nat × List Nat) : StackId := stackOf (physAt f.phys (w.2.headD 0))

/-- The words that a fill writes, each with the offsets of its bytes. -/
def Fill.words (f : Fill) : List (Nat × List Nat) :=
  ((f.addrs.map (· / 8)).eraseDups).map fun w =>
    (w, (List.range f.len).filter fun k => (f.dst + k) % Config.bankBytes / 8 == w)

/-- A fill whose pages are all translated asks for its bytes; they come after a time that the spec leaves open. -/
def State.fillReady (s : State) (d : DieId) (f : Fill) : State :=
  (s.modFill d f.id fun f =>
    let coming := if f.left.isEmpty then f.words else f.coming
    { f with ready := true, coming := coming
             left := if f.left.isEmpty then coming.map (·.1) else f.left
             next := max f.next (s.cycle + 1 + Config.delay s.freeCtr) }).takeFree

/-- A station refuses a fill's read of a page that is migrating: the fill translates its pages again after the station's
interval (R325). -/
def State.fillRefused (s : State) (d : DieId) (f : Fill) (pa : Nat) : State :=
  (s.dieRefused d pa).modFill d f.id fun f =>
    { f with ready := false, pages := pageParts f.src f.len, phys := [], next := s.retryAt pa }

/-- A word of a fill comes from its stack: an uncorrectable error there ends the fill (R302, R305). -/
def State.fillWord (s : State) (d : DieId) (f : Fill) (w : Nat × List Nat) : State :=
  let at_ := w.2.map fun k => (k, physAt f.phys k)
  match at_.find? fun p => s.refusesAt p.2 1 with
  | some p => s.fillRefused d f p.2
  | none =>
    if at_.any fun p => s.memBadAt p.2 1 then s.failFill d f.id
    else s.modFill d f.id fun f =>
      { f with coming := f.coming.filter fun v => v.1 != w.1
               data := f.data ++ at_.map fun p => ((f.dst + p.1) % Config.bankBytes, s.mem.read p.2) }

/-- The words of a fill that come in this cycle, after those of other fills that have used the stacks listed. -/
def State.fillTake (s : State) (d : DieId) (id : Nat) : List (Nat × List Nat) → List StackId → State × List StackId
  | [], used => (s, used)
  | w :: r, used =>
    match (s.die d).fills.find? fun g => g.id == id with
    | none => (s, used)
    | some f =>
      let i := f.stackOf' w
      if !f.ready || decide (s.cycle < f.next) then (s, used)
      else if s.fillBudget d i ≤ used.count i then s.fillTake d id r used
      else (s.fillWord d f w).fillTake d id r (i :: used)

/-- The fills of a die in a cycle, before the ports choose (R301, R304): pages are translated, and, while nothing holds
the fills, their words come. -/
def State.fillCycle (s : State) (d : DieId) : State :=
  let s := (s.die d).fills.foldl (fun s f =>
    if f.ready || f.len = 0 || decide (s.cycle < f.next) then s
    else
      let s := if (s.die d).held (.fill f.id) then s else s.fillPages d f.id f.pages
      match (s.die d).fills.find? fun g => g.id == f.id with
      | some f => if f.pages.isEmpty then s.fillReady d f else s
      | none => s) s
  if s.fillsHeld d then s
  else ((s.die d).fills.foldl (fun (r : State × List StackId) f => r.1.fillTake d f.id f.coming r.2) (s, [])).1

/-- The words of a fill that have come and have not landed want the fill ports (R191, R193). -/
def fillReqs (f : Fill) : List PortReq :=
  (f.left.filter fun w => f.data.any fun p => p.1 / 8 == w).map fun w : Nat =>
    ({ pri := 0, who := .fill f.id, word := w, read := false, write := true
       bytes := f.data.filter fun p => p.1 / 8 == w } : PortReq)

/-- A word of a fill lands; the last one completes it (R304). -/
def State.fillWrote (s : State) (d : DieId) (f : Fill) (word : Nat) (bytes : List (Nat × Byte)) : State :=
  let s := s.modDie d fun x => x.bankWrite bytes
  let s := s.modFill d f.id fun f => { f with left := f.left.erase word, data := f.data.filter fun p => p.1 / 8 != word }
  if (f.left.erase word).isEmpty then s.schedOnce s.cycle .fillComplete { die := d, id := f.id } else s

/-- FILL_COMPLETE (R304, R190): the last byte has landed, and the tiles are stamped. -/
def execFillComplete (s : State) : Host.Outcome State Fault Refusal :=
  let d := s.ev.die
  .next (match (s.die d).fills.find? fun f => f.id == s.ev.id with
    | none => s
    | some f =>
      s.modDie d fun x =>
        let x := { x with fills := x.fills.filter fun g => g.id != f.id }
        match f.stamp with
        | some t => x.stampAll (tilesOf f.addrs) 0 t
        | none => x)

/-! ### Refresh (R304) -/

/-- REFRESH_WINDOW_OPEN (R304): a refresh entry's window runs from its start for len cycles; the channels assigned to
the die are refreshed in it. -/
def execRefreshWindowOpen (s : State) : Host.Outcome State Fault Refusal :=
  let d := s.ev.die
  let x := s.die d
  let e := x.calEntry s.ev.id
  let close := x.entryStart e + e.len
  let s := s.modDie d fun x => { x.readEntries s.ev.id with nextFill := s.ev.id + 1, fillAfter := s.cycle + 1 }
  .next (if close ≤ s.cycle then s
    else
      let s := (s.stacksOf d).foldl (fun s i =>
        let l := s.channelsFor d i
        s.modStation i fun t =>
          { t with lastRefresh := Vector.ofFn fun c => if l.contains c then s.cycle else t.lastRefresh[c] }) s
      (s.modDie d fun x => { x with refreshOpen := x.refreshOpen ++ [close] }).sched close .refreshWindowClose
        { die := d, seq := close })

/-- REFRESH_WINDOW_CLOSE (R304). -/
def execRefreshWindowClose (s : State) : Host.Outcome State Fault Refusal :=
  .next (s.modDie s.ev.die fun x => { x with refreshOpen := x.refreshOpen.erase s.ev.seq })

/-- Cycles in 3.9 µs at 2.0 GHz (R304). -/
def refreshLimit : Nat := 7800

/-- Whether a fill still has words to come from a stack. -/
def Fill.from' (f : Fill) (i : StackId) : Bool := f.ready && f.coming.any fun w => f.stackOf' w == i

/-- Puts the refreshes that stations make by themselves on the agenda, where they meet a fill in flight (R304). -/
def State.scanRefresh (s : State) (d : DieId) : State :=
  (s.stacksOf d).foldl (fun s i =>
    if !((s.die d).fills.any fun f => f.from' i) then s
    else (s.channelsFor d i).foldl (fun s c =>
      let last := (s.station i).lastRefresh[c]
      if last < s.cycle && (s.cycle - last) % refreshLimit = 0 then
        s.schedOnce s.cycle .stationForcedRefresh { die := d, stack := i, chan := c }
      else s) s) s

/-- STATION_FORCED_REFRESH (R304): the fills that the channel serves are delayed, by a time that the spec leaves open, and
the delay counts as a slip. -/
def execStationForcedRefresh (s : State) : Host.Outcome State Fault Refusal :=
  let d := s.ev.die
  let i := s.ev.stack
  let until_ := s.cycle + 1 + Config.delay s.freeCtr
  let n := ((s.die d).fills.filter fun f => f.from' i).length
  .next ((s.modDie d fun x => Nat.repeat Die.countSlip n
    { x with fills := replaceIf (fun (f : Fill) => f.from' i) (fun f => { f with next := max f.next until_ }) x.fills }).takeFree)

/-! ### The calendar register, the dealing of channels, errors of links -/

/-- FILL_CAL_WRITE (R304, R330): enable going to 1 starts the calendar at entry 0; clearing it begins no more entries. -/
def execFillCalWrite (s : State) : Host.Outcome State Fault Refusal :=
  let v := s.ev.val
  .next (s.modDie s.ev.die fun x =>
    let starts := bitAt v 63 && !x.mem.calEnable
    { x with mem := { x.mem with calEnable := bitAt v 63, calCount := bits v 32 11
                                 calBase := BitVec.ofNat 27 (bits v 0 27) }
             nextFill := if starts then 0 else x.nextFill
             fillAfter := if starts then s.cycle else x.fillAfter })

/-- Whether a side of a stack is present: a powered die in service stands there (R301). -/
def State.sidePresent (s : State) (i : StackId) (side : Nat) : Bool :=
  (List.finRange 128).any fun p => s.works' p && s.linkStack p ((side + 2) % 4) == some i

/-- The side of each channel after dealing (R301). -/
def dealChannels (present : List Nat) : Word :=
  let absent := (List.range 32).filter fun c => !present.contains (c / 8)
  let side (c : Nat) : Nat :=
    if present.contains (c / 8) then c / 8
    else match absent.findIdx? (· == c) with
      | some n => present.getD (n % max 1 present.length) (c / 8)
      | none => c / 8
  BitVec.ofNat 64 (joinNat 2 ((List.range 32).map side))

/-- CHANNEL_REDEAL (R301): the present sides keep their home channels and are dealt the others; fills that were held
slip. -/
def execChannelRedeal (s : State) : Host.Outcome State Fault Refusal :=
  let i := s.ev.stack
  let present := (List.range 4).filter fun k => s.sidePresent i k
  let s := s.modStation i fun t => { t with chan := if present.isEmpty then t.chan else dealChannels present }
  .next ((List.finRange 128).foldl (fun s p =>
    if (s.stacksOf p).contains i then
      s.modDie p fun x => Nat.repeat Die.countSlip (x.fills.filter fun f => !(f.ready && f.coming.isEmpty)).length x
    else s) s)

/-- Whether a due step is a flit's arrival (R299). -/
def isFlitArrival : Instr → Bool
  | .remoteAccessCommit | .remoteReplyArrival | .mcstArrival | .farGroupArrival | .pbarRelease => true
  | _ => false

/-- UCIE_FLIT_CRC_FAIL (R299, R350): the adapter replays the flit, which arrives late; the mark in its argument tells a
late far group. -/
def execUcieFlitCrcFail (s : State) : Host.Outcome State Fault Refusal :=
  .next (match s.agenda[s.ev.id]? with
    | none => s
    | some e =>
      if isFlitArrival e.act then
        let late : Sched := { e with due := e.due + 1 + Config.delay s.freeCtr, arg := { e.arg with flag := true } }
        ({ s with agenda := s.agenda.set s.ev.id late }).takeFree
      else s)

/-- STATION_PARITY_DISCARD (R299, R331): the station discards the flit and counts it. -/
def execStationParityDiscard (s : State) : Host.Outcome State Fault Refusal :=
  let s' := s.modStation s.ev.stack fun t => { t with parity := satInc t.parity }
  .next (match s.agenda[s.ev.id]? with
    | none => s
    | some e => if isFlitArrival e.act then { s' with agenda := s'.agenda.eraseIdx s.ev.id } else s)

end Sys2Proof.Machine
end

