-- ==== Sys2Proof/Machine/Spaces.lean ====
section
/-! DEFINITION. Register spaces in memory (R166 to R174, R182): the bytes of a space, its save by R172 and its activation
by R173. -/

namespace Sys2Proof.Machine

/-! ### Home (R171) -/

/-- The address of a space's first byte. -/
def homeAddr (base : Word) : Nat := base.toNat / 1024 * 1024

/-- Bytes of a task or a handler space (R167). -/
def spaceSize (hnd : Bool) : Nat := if hnd then 0x8C00 else 0xAD00

/-- The lines of a task space's extension, from its home on (R167). -/
def extLines : List Nat := (List.range 33).map fun k => 140 + k

/-- The lines 0 to 7 of a space (R168). -/
def generalLines : List Nat := List.range 8

/-- The addresses of the first of some lines in each 64 KiB page of a space in panel memory. -/
def linePages (base : Word) (lines : List Nat) : List Word :=
  if homePanel base then
    (lines.foldl (fun (acc : List Nat) j =>
      let a := homeAddr base + 256 * j
      if acc.any fun b => b / 2 ^ 16 == a / 2 ^ 16 then acc else acc ++ [a]) []).map fun a => BitVec.ofNat 64 a
  else []

/-- A line of a space, or of a window image, is refused for retry: the context asks again after the station's interval
(R325). -/
def State.homeRefused (s : State) (d : DieId) (c : CtxId) (pa : Nat) : State :=
  (s.dieRefused d pa).modCtx d c fun x => { x with homeAfter := s.retryAt pa }

/-- Translates some pages of a space for a permission: whether all of them are there (R173), and none of them is in an
active migration range (R325). -/
def State.homeReady (s : State) (d : DieId) (c : CtxId) (perm : Perm) (who : Requester) : List Word → State × Bool
  | [] => (s, true)
  | va :: l =>
    match s.translate d (s.ctxRoot d c) va perm who with
    | (s, some e) =>
      if s.refusesAt (e.phys' va) 1 then (s.homeRefused d c (e.phys' va), false) else s.homeReady d c perm who l
    | (s, none) => (s, false)

/-- The physical address of a byte of a space in panel memory: as the cache holds it, else as the tables stand. -/
def State.homePa (s : State) (d : DieId) (root va : Word) (perm : Perm) : Option Nat :=
  match (s.die d).lookup root va perm with
  | some pa => some pa
  | none => s.xlateNow root va perm

/-- Whether a page is migrating (R308, R325): its station refuses it for retry, or a walk finds mig set. -/
def State.homeMoves (s : State) (d : DieId) (root va : Word) (perm : Perm) : Bool :=
  match s.homePa d root va perm with
  | some pa => s.refusesAt pa 1
  | none => walkTable s root va perm == .migrating

/-- Whether one of some pages of a context's space is migrating. -/
def State.pagesMove (s : State) (d : DieId) (c : CtxId) (perm : Perm) (pages : List Word) : Bool :=
  pages.any fun va => s.homeMoves d (s.ctxRoot d c) va perm

/-- Reads up to a line of a space at an offset, and whether an uncorrectable error was met. -/
def State.homeRead (s : State) (d : DieId) (c : CtxId) (base : Word) (off n : Nat) : List Byte × Bool :=
  let a := homeAddr base + off
  if homePanel base then
    match s.homePa d (s.ctxRoot d c) (BitVec.ofNat 64 a) .read with
    | some pa => (s.readMem pa n, s.memBadAt pa n)
    | none => (List.replicate n 0, true)
  else
    let x := s.die d
    let l := (List.range n).map fun k => a + k
    (l.map x.bankByte, (x.eccBad l).isSome)

/-- Counts and corrects the errors of some lines of a space in banks that are read (R189). -/
def State.homeScrub (s : State) (d : DieId) (base : Word) (lines : List Nat) : State :=
  if homePanel base || (s.die d).bankBad.isEmpty then s
  else s.modDie d fun x => x.eccRead (lines.flatMap fun j => (List.range 256).map fun k => homeAddr base + 256 * j + k)

/-- Counts and corrects the errors of some slots of a carve-out that are read (R189). -/
def Die.carveScrub (x : Die) (w : Window) (slots : List Nat) : Die :=
  if x.bankBad.isEmpty then x
  else x.eccRead (slots.flatMap fun k => (List.range 256).map fun b => w.carve + 256 * k + b)

/-- Writes up to a line of a space at an offset. DESIGN CHOICE: a home whose page does not translate takes no write
(log 163). -/
def State.homeWrite (s : State) (d : DieId) (c : CtxId) (base : Word) (off : Nat) (l : List Byte) : State :=
  let a := homeAddr base + off
  if homePanel base then
    match s.homePa d (s.ctxRoot d c) (BitVec.ofNat 64 a) .write with
    | some pa => s.writeMem pa l
    | none => s
  else s.modDie d fun x => x.bankWrite ((List.range l.length).zip l |>.map fun p => (a + p.1, p.2))

/-- Writes several lines from an offset on. -/
def State.homeWriteLines (s : State) (d : DieId) (c : CtxId) (base : Word) (off : Nat) (l : List Byte) : State :=
  (List.range ((l.length + 255) / 256)).foldl (fun s k =>
    s.homeWrite d c base (off + 256 * k) ((l.drop (256 * k)).take 256)) s

/-- Reads several lines from an offset on. -/
def State.homeReadLines (s : State) (d : DieId) (c : CtxId) (base : Word) (off n : Nat) : List Byte × Bool :=
  let l := (List.range ((n + 255) / 256)).map fun k => s.homeRead d c base (off + 256 * k) (min 256 (n - 256 * k))
  (l.flatMap (·.1), l.any (·.2))

/-- A line in a slot of a carve-out (R171). -/
def carveRead (x : Die) (w : Window) (slot : Nat) : List Byte × Bool :=
  let l := (List.range 256).map fun k => w.carve + 256 * slot + k
  (l.map x.bankByte, (x.eccBad l).isSome)

/-! ### The bytes of a space (R167 to R170) -/

/-- Bytes with segments at rising offsets and zeros between them. -/
def assemble (size : Nat) (segs : List (Nat × List Byte)) : List Byte :=
  let l := segs.foldl (fun acc p => acc ++ List.replicate (p.1 - acc.length) 0 ++ p.2) ([] : List Byte)
  l ++ List.replicate (size - l.length) 0

/-- A loop level as it is laid out (R168). -/
def loopBytes (l : LoopLvl) : List Byte :=
  bytesOfWord l.start ++ bytesOfWord l.stop ++ bytesOfNat 4 l.count.toNat
    ++ bytesOfNat 4 (l.armed.toNat + 2 * l.sw.toNat) ++ List.replicate 8 0

/-- The state word without its check (R169). -/
def stateWord (saves : BitVec 16) (phase : Fin 64) (state : Nat) : Word :=
  BitVec.ofNat 64 (field saves.toNat 16 16 + field phase.val 8 8 + state)

/-- The window record of a task (R182). -/
def windowRecord (w : Window) (x : Die) (d : DieId) (held : Bool) : Word :=
  BitVec.ofNat 64 (field w.share.val 60 4 + field held.toNat 55 1 + field x.incarnation.toNat 47 8
    + field d.val 40 7 + field w.slots 32 8 + field w.log2g 27 5 + field w.base 0 27)

/-- The general area (R168). What only a task has is zero in a handler space. -/
def generalArea (x : Die) (d : DieId) (c : Ctx) (hnd : Bool) (pc : Word) (sw : Word) (touched : BitVec 140) : List Byte :=
  let f := c.file hnd
  let task (l : List Byte) : List Byte := if hnd then List.replicate l.length 0 else l
  assemble 2048
    [(0x000, bytesOfWord pc), (0x008, bytesOfWord f.lr),
     (0x010, bytesOfNat 4 f.fmt.toNat ++ bytesOfNat 4 f.flg.toNat),
     (0x018, bytesOfWord (wfWord f.wf[0] + (wfWord f.wf[1] <<< 16) + (wfWord f.wf[2] <<< 32))),
     (0x020, bytesOfNat 8 f.depth), (0x028, bytesOfWord sw), (0x030, task (bytesOfWord c.idemPc)),
     (0x038, task (bytesOfWord c.win.spillCfg)), (0x040, task (bytesOfWord c.spillPtr)),
     (0x048, task (bytesOfWord (windowRecord c.win x d true))),
     (0x080, f.loops.toList.flatMap loopBytes), (0x100, f.s.toList.flatMap bytesOfWord),
     (0x180, (List.range 16).flatMap fun k => bytesOfWord (f.q.getD k 0)),
     (0x200, f.masks.toList.flatMap fun m => bytesOfNat 32 m.toNat),
     (0x300, task (bytesOfNat 4 c.snapFmt.toNat ++ bytesOfNat 4 c.snapDepth)),
     (0x380, task (c.snapLoops.toList.flatMap loopBytes)),
     (0x400, task (c.snapMasks.toList.flatMap fun m => bytesOfNat 32 m.toNat)),
     (0x500, f.home.toList), (0x590, bytesOfNat 18 touched.toNat)]

/-- The macro records of a space. -/
def Ctx.recs (c : Ctx) (hnd : Bool) : Vector (BitVec 128) 64 := if hnd then c.hndRec else c.macroRec

/-- A line from 8 on (R167). -/
def lineBytes (f : RegFile) (recs : Vector (BitVec 128) 64) (j : Nat) : List Byte :=
  let image (v : VReg) (k : Nat) : List Byte := bytesOfNat 256 (v.toNat / 2 ^ (2048 * k))
  if j < 72 then image f.v[Fin.ofNat 16 ((j - 8) / 4)] ((j - 8) % 4)
  else if j < 136 then image (f.vq.getD ((j - 72) / 4) 0) ((j - 72) % 4)
  else (List.range 16).flatMap fun k => bytesOfNat 16 (recs[Fin.ofNat 64 (16 * (j - 136) + k)]).toNat

/-- The code of a token's state (R167). -/
def tokCode : TokState → Nat
  | .free => 0 | .pending => 1 | .done => 2 | .error => 3

def tokOfCode : Nat → TokState
  | 0 => .free | 1 => .pending | 2 => .done | _ => .error

/-- The extension of a task space: the route registers and the tokens (R167). -/
def extension (c : Ctx) : List Byte :=
  c.x.toList.flatMap (fun r => (fullBlock r).flatMap bytesOfWord)
    ++ bytesOfNat 256 (joinNat 2 (c.tok.toList.map tokCode))

/-- The check of a space's bytes (R169): untouched lines and the check field count as zeros. -/
def spaceCheck (general : List Byte) (lines ext : List Byte) : BitVec 32 :=
  crc32c (general.take 0x2C ++ [0, 0, 0, 0] ++ general.drop 0x30 ++ lines ++ ext)

/-! ### Saving (R172) -/

/-- A move of a save: a line to home, a line of a slot to home, or a line to a slot. -/
inductive SaveAct where
  | home (j : Fin 140)
  | evict (i : Fin 140) (slot : Nat)
  | slot (j : Fin 140) (k : Nat)
  deriving DecidableEq, Repr

/-- The carve-out's pointers and the location map during a save. -/
structure SavePtr where
  map : Vector (BitVec 8) 140
  op : Nat
  wp : Nat
  full : Bool
  deriving DecidableEq, Repr

/-- The moves that SaveLines makes for some dirty lines (R172), and what it leaves. -/
def savePlan (slots : Nat) : List (Fin 140) → SavePtr → List SaveAct × SavePtr
  | [], p => ([], p)
  | j :: l, p =>
    if slots = 0 then
      let r := savePlan slots l { p with map := vset p.map j 0 }
      (.home j :: r.1, r.2)
    else
      let hit := if p.full then (List.finRange 140).find? fun i => (p.map[i]).toNat == p.op + 1 else none
      let p1 := match hit with
        | some i => { p with map := vset p.map i 0 }
        | none => p
      let p2 := if p.full then { p1 with op := (p1.op + 1) % slots, full := false } else p1
      let wp := (p2.wp + 1) % slots
      let r := savePlan slots l
        { p2 with map := vset p2.map j (BitVec.ofNat 8 (p2.wp + 1)), wp := wp, full := wp == p2.op }
      ((match hit with
        | some i => [.evict i p.op]
        | none => []) ++ .slot j p2.wp :: r.1, r.2)

/-- The moves of a save of a context's space (R172). A handler space has no carve-out, and a bank home needs none. -/
def Ctx.saveMoves (c : Ctx) (hnd : Bool) (base : Word) : List SaveAct × SavePtr :=
  let f := c.file hnd
  let dirty := (List.finRange 140).filter fun j => decide (8 ≤ j.val) && natBit f.dirty.toNat j.val
  savePlan (if hnd || !homePanel base then 0 else c.win.slots) dirty
    { map := f.home, op := c.spillOp.toNat, wp := c.spillWp.toNat, full := c.spillFull }

/-- The lines that a save of a context's space writes at home (R172). -/
def Ctx.savedLines (c : Ctx) (hnd : Bool) (base : Word) : List Nat :=
  generalLines ++ ((c.saveMoves hnd base).1.filterMap fun a => match a with
    | .home j => some j.val
    | .evict i _ => some i.val
    | .slot _ _ => none) ++ (if hnd then [] else extLines)

/-- Cycles of a save to banks: one for each line that moves, lines 0 to 7 among them (R172). -/
def Ctx.saveCycles (c : Ctx) (hnd : Bool) (base : Word) : Nat := (c.saveMoves hnd base).1.length + 8

/-- Saves a space of a context at a base with a pc and a state (R172). DESIGN CHOICE: every save sets the touched bits of
lines 0 to 7, which it writes (log 159). -/
def State.saveSpace (s : State) (d : DieId) (n : CtxId) (hnd : Bool) (base pc : Word) (state : Nat) : State :=
  let c := s.ctx d n
  let plan := c.saveMoves hnd base
  let s := plan.1.foldl (fun s a =>
    match a with
    | .home j => s.homeWrite d n base (256 * j.val) (lineBytes (c.file hnd) (c.recs hnd) j.val)
    | .evict i k =>
      (s.modDie d fun x => x.carveScrub c.win [k]).homeWrite d n base (256 * i.val) (carveRead (s.die d) c.win k).1
    | .slot j k => s.modDie d fun x => x.bankWrite ((List.range 256).zip (lineBytes (c.file hnd) (c.recs hnd) j.val)
        |>.map fun p => (c.win.carve + 256 * k + p.1, p.2))) s
  let saves := (if hnd then c.hndSaves else c.saves) + 1
  let c := c.modFile hnd fun f =>
    { f with home := plan.2.map, touched := f.touched ||| 0xFF, dirty := 0 }
  let c := if hnd then { c with hndSaves := saves, hndState := BitVec.ofNat 4 state }
    else { c with saves := saves, rsState := BitVec.ofNat 4 state, spillOp := BitVec.ofNat 8 plan.2.op
                  spillWp := BitVec.ofNat 8 plan.2.wp, spillFull := plan.2.full }
  let f := c.file hnd
  let sw := stateWord saves (if hnd then 0 else c.phase) state
  let lines := ((List.range 140).drop 8).flatMap fun j =>
    if natBit f.touched.toNat j then lineBytes f (c.recs hnd) j else List.replicate 256 0
  let ext := if hnd then [] else extension c
  let general (sw : Word) : List Byte := generalArea (s.die d) d c hnd pc sw f.touched
  let check := spaceCheck (general sw) lines ext
  let s := s.modCtx d n fun _ => c
  let s := s.homeWriteLines d n base 0x8C00 ext
  s.homeWriteLines d n base 0 (general (sw + (check.setWidth 64 <<< 32)))

/-! ### Activation (R173, R174, R178) -/

/-- A 64-bit word of a general area. -/
def areaWord (l : List Byte) (off : Nat) : Word := wordOfBytes ((l.drop off).take 8)

def loopOf (l : List Byte) (off : Nat) : LoopLvl :=
  let f := areaWord l (off + 16)
  { start := areaWord l off, stop := areaWord l (off + 8), count := BitVec.ofNat 32 (bits f 0 32)
    armed := bitAt f 32, sw := bitAt f 33 }

def maskOf (l : List Byte) (off : Nat) : Mask := BitVec.ofNat 256 (natOfBytes ((l.drop off).take 32))

/-- A mask stack depth as a space holds it. -/
def depthOf (n : Nat) : Nat := min 8 (max 1 (n % 16))

/-- What reading a space found: its general area, its lines from 8 on, its extension. -/
structure SpaceImage where
  general : List Byte
  lines : List Byte
  ext : List Byte
  deriving DecidableEq, Repr

/-- The touched map of a general area. -/
def touchedOf (g : List Byte) : BitVec 140 := BitVec.ofNat 140 (natOfBytes ((g.drop 0x590).take 18))

/-- The window of a general area's records (R168, R176, R182). -/
def windowOf (g : List Byte) : Window :=
  let w := areaWord g 0x48
  { base := bits w 0 27, log2g := bits w 27 5, share := Fin.ofNat 16 (bits w 60 4), slots := bits w 32 8
    carve := bits (areaWord g 0x38) 8 27 }

/-- The line j of a space, from home or from its slot of the carve-out (R173). -/
def State.readLine (s : State) (d : DieId) (n : CtxId) (base : Word) (g : List Byte) (j : Nat) : List Byte × Bool :=
  let k := (g.getD (0x500 + j) 0).toNat
  if k = 0 then s.homeRead d n base (256 * j) 256 else carveRead (s.die d) (windowOf g) (k - 1)

/-- The lines that an activation reads at home beyond lines 0 to 7, by a general area: the touched ones that lie there,
and a task's extension (R173). -/
def homeLines (g : List Byte) (hnd : Bool) : List Nat :=
  let t := (touchedOf g).toNat
  (((List.range 140).drop 8).filter fun j => natBit t j && g.getD (0x500 + j) 0 == 0) ++ (if hnd then [] else extLines)

/-- The slots of its carve-out that an activation reads (R173). -/
def slotLines (g : List Byte) : List Nat :=
  let t := (touchedOf g).toNat
  ((List.range 140).drop 8).filterMap fun j =>
    let k := (g.getD (0x500 + j) 0).toNat
    if natBit t j && k != 0 then some (k - 1) else none

/-- The errors that reading a whole space corrects and counts (R189). -/
def State.spaceScrub (s : State) (d : DieId) (base : Word) (hnd : Bool) (g : List Byte) : State :=
  if (s.die d).bankBad.isEmpty then s
  else (s.homeScrub d base (generalLines ++ homeLines g hnd)).modDie d fun x => x.carveScrub (windowOf g) (slotLines g)

/-- Cycles of an activation: 4, and one for each line read from banks (R173). DESIGN CHOICE: the lines of a task's
extension, which R167 numbers with no others, count no cycles, here or in a save (log 160). -/
def State.activateCycles (s : State) (d : DieId) (n : CtxId) (base : Word) : Nat :=
  let g := (s.homeReadLines d n base 0 2048).1
  let bank := !homePanel base
  let t := (touchedOf g).toNat
  4 + (if bank then 8 else 0)
    + (((List.range 140).drop 8).filter fun j => natBit t j && (bank || g.getD (0x500 + j) 0 != 0)).length

/-- Reads a space and checks it: what it holds, or the status 1 or 2 (R173, R178). -/
def State.readSpace (s : State) (d : DieId) (n : CtxId) (hnd : Bool) (base : Word) : Except Nat SpaceImage :=
  let g := s.homeReadLines d n base 0 2048
  if g.2 then .error 1
  else
    let t := (touchedOf g.1).toNat
    let ls := ((List.range 140).drop 8).map fun j =>
      if natBit t j then s.readLine d n base g.1 j else (List.replicate 256 0, false)
    let e := if hnd then ([], false) else s.homeReadLines d n base 0x8C00 (0xAD00 - 0x8C00)
    if ls.any (·.2) || e.2 then .error 1
    else
      let im : SpaceImage := { general := g.1, lines := ls.flatMap (·.1), ext := e.1 }
      if (spaceCheck im.general im.lines im.ext).toNat = bits (areaWord g.1 0x28) 32 32 then .ok im else .error 2

/-- The registers that an image holds (R167, R168). A field of ctl.fmt that holds a reserved value, type code 2 without
D8 among them (R371), is taken as 0: DESIGN CHOICE (log 123). The reserved bits of ctl.flg read 0 (R16). -/
def SpaceImage.file (im : SpaceImage) (d8 : Bool) : RegFile :=
  let g := im.general
  let vec (j : Nat) : VReg := BitVec.ofNat 8192 (natOfBytes ((im.lines.drop (256 * (j - 8))).take 1024))
  let f := areaWord g 0x10
  let w := areaWord g 0x18
  let depth := depthOf (areaWord g 0x20).toNat
  { pc := areaWord g 0 &&& ~~~3, lr := areaWord g 8
    s := Vector.ofFn fun k => areaWord g (0x100 + 8 * k.val)
    q := (List.range 16).map fun k => areaWord g (0x180 + 8 * k)
    v := Vector.ofFn fun k => vec (8 + 4 * k.val)
    vq := (List.range 16).map fun k => vec (72 + 4 * k)
    masks := Vector.ofFn fun k => maskOf g (0x200 + 32 * k.val)
    depth := depth, depthIssue := depth
    loops := Vector.ofFn fun k => loopOf g (0x80 + 32 * k.val)
    wf := Vector.ofFn fun k => BitVec.ofNat 9 (bits w (16 * k.val + 3) 9)
    fmt := (fmtWrite 0 (BitVec.ofNat 64 (bits f 0 32)) d8).1, flg := BitVec.ofNat 32 (bits f 32 32) &&& 0x1F1F
    touched := touchedOf g, dirty := 0
    home := Vector.ofFn fun k => BitVec.ofNat 8 (g.getD (0x500 + k.val) 0).toNat }

/-- The macro records of an image. -/
def SpaceImage.recs (im : SpaceImage) : Vector (BitVec 128) 64 :=
  Vector.ofFn fun k => BitVec.ofNat 128 (natOfBytes ((im.lines.drop (256 * 128 + 16 * k.val)).take 16))

/-- A route register of an image's extension: its check field is not checked (R204). -/
def SpaceImage.route (im : SpaceImage) (k : Nat) : Route :=
  let word (i : Nat) : Word := wordOfBytes ((im.ext.drop (256 * k + 8 * i)).take 8)
  BitVec.ofNat 1920 (stageList (bits (word 0) 0 15) 15 0 ((List.range 30).map fun i => word (i + 1)))

def SpaceImage.tok (im : SpaceImage) (t : Nat) : TokState :=
  tokOfCode (bits (wordOfBytes ((im.ext.drop (0x2000 + 8 * (t / 32))).take 8)) (2 * (t % 32)) 2)

/-- Puts a task space into a context (R173). -/
def Ctx.installTask (c : Ctx) (im : SpaceImage) (d8 : Bool) (base : Word) (w : Window) (bundle : Nat) : Ctx :=
  let g := im.general
  let f := im.file d8
  let sw := areaWord g 0x28
  let p := areaWord g 0x40
  let sn := areaWord g 0x300
  { c with
    task := f
    x := Vector.ofFn fun k => im.route k.val
    tok := Vector.ofFn fun t => im.tok t.val
    macroRec := im.recs, recHnd := 0, unbound := []
    rsTask := base, taskEmpty := false, hasWin := true, win := w
    spillOp := BitVec.ofNat 8 (bits p 8 8), spillWp := BitVec.ofNat 8 (bits p 0 8), spillFull := bitAt p 16
    saves := BitVec.ofNat 16 (bits sw 16 16), rsState := 1
    phase := Fin.ofNat 64 (bits sw 8 8)
    idemPc := areaWord g 0x30, idemBundle := bundle
    snapFmt := (fmtWrite 0 (BitVec.ofNat 64 (bits sn 0 32)) d8).1, snapDepth := depthOf (bits sn 32 4)
    snapLoops := Vector.ofFn fun k => loopOf g (0x380 + 32 * k.val)
    snapMasks := Vector.ofFn fun k => maskOf g (0x400 + 32 * k.val) }

/-- Puts a handler space into a context (R132, R173, R180). -/
def Ctx.installHandler (c : Ctx) (im : SpaceImage) (d8 : Bool) (base : Word) : Ctx :=
  { c with hnd := im.file d8, hndRec := im.recs, hndBase := base, hndEmpty := false, hndState := 1
           hndSaves := BitVec.ofNat 16 (bits (areaWord im.general 0x28) 16 16) }

/-- A fresh handler space in a context. -/
def Ctx.freshHandler (c : Ctx) (base : Word) : Ctx :=
  { c with hnd := {}, hndRec := .replicate 64 0, hndBase := base, hndEmpty := false, hndState := 1, hndSaves := 0 }

/-- The state of the space at a base, from its state word at home (R169). -/
def State.spaceState (s : State) (d : DieId) (n : CtxId) (base : Word) : Nat :=
  bits (wordOfBytes (s.homeRead d n base 0x28 8).1) 0 4

/-- A state word with another state (R169). -/
def withState (w : Word) (state : Nat) : Word := (w &&& ~~~15) + BitVec.ofNat 64 state

/-- Writes the state of a space into its state word at home (R174, R177, R182): where its page is migrating, once it has
moved (R325). -/
def State.setSpaceState (s : State) (d : DieId) (n : CtxId) (base : Word) (state : Nat) : State :=
  let root := s.ctxRoot d n
  if homePanel base && s.homeMoves d root (BitVec.ofNat 64 (homeAddr base)) .write then
    s.modDie d fun x => { x with lateStates := x.lateStates ++ [{ root := root, base := base, state := state }] }
  else s.homeWrite d n base 0x28 (bytesOfWord (withState (wordOfBytes (s.homeRead d n base 0x28 8).1) state))

/-- The state words that waited for their pages are written once these have moved (R325). -/
def State.scanLate (s : State) (d : DieId) : State :=
  let late := (s.die d).lateStates
  let page (l : LateState) : Word := BitVec.ofNat 64 (homeAddr l.base)
  if late.isEmpty then s
  else
    let s := late.foldl (fun s l =>
      if s.homeMoves d l.root (page l) .write then s
      else match s.homePa d l.root (page l) .write with
        | some pa => s.writeMem (pa + 0x28) (bytesOfWord (withState (s.readMem64 (pa + 0x28)) l.state))
        | none => s) s
    s.modDie d fun x => { x with lateStates := late.filter fun l => s.homeMoves d l.root (page l) .write }

/-- The window that a die holds for a saved space (R182). -/
def Die.heldFor (x : Die) (base : Word) : Option HeldSpace := x.heldSpaces.find? fun h => h.rs == base

def Die.dropHeld (x : Die) (base : Word) : Die := { x with heldSpaces := x.heldSpaces.filter fun h => h.rs != base }

/-- Whether the record of a space names this die and incarnation, and this die holds a window for it (R179, R182). -/
def State.windowHeld (s : State) (d : DieId) (n : CtxId) (base : Word) : Option HeldSpace :=
  let w := wordOfBytes (s.homeRead d n base 0x48 8).1
  let x := s.die d
  if bits w 40 7 = d.val && bits w 47 8 = x.incarnation.toNat then x.heldFor base else none

/-- Why an activation of a task space ends after lines 0 to 7 (R178): an uncorrectable error there, a state word that is
not 2 or 3, or a window that this die does not hold. -/
def State.taskStops (s : State) (d : DieId) (n : CtxId) (base : Word) : Option Nat :=
  if (s.homeReadLines d n base 0 2048).2 then some 1
  else if s.spaceState d n base ≠ 2 && s.spaceState d n base ≠ 3 then some 3
  else if (s.windowHeld d n base).isNone then some 6
  else none

/-- Activates a task space in a context: the status of R178. The space's state becomes active at home, and its window is
re-attached. -/
def State.activateTask (s : State) (d : DieId) (n : CtxId) (base : Word) : State × Nat :=
  match s.taskStops d n base, s.windowHeld d n base with
  | none, some h =>
    let g := (s.homeReadLines d n base 0 2048).1
    let r := s.readSpace d n false base
    let s := s.spaceScrub d base false g
    match r with
    | .error e => (s.setSpaceState d n base 4, e)
    | .ok im =>
      let s := s.setSpaceState d n base 1
      let s := s.homeWrite d n base 0x48 (bytesOfWord (windowRecord h.win (s.die d) d false))
      let s := s.modDie d fun x => x.dropHeld base
      let x := s.die d
      (s.modCtx d n fun c => c.installTask im (x.feature 1) base h.win x.seq.bundles, 0)
  | st, _ =>
    let s := s.homeScrub d base generalLines
    (if st = some 1 then s.setSpaceState d n base 4 else s, st.getD 6)

/-- Whether a handler space has been saved, so that its activation reads it (R132, R173). DESIGN CHOICE: a space in any
other state, 1, 4 and the reserved ones among them, starts afresh (log 162). -/
def State.handlerSaved (s : State) (d : DieId) (n : CtxId) (base : Word) : Bool :=
  s.spaceState d n base == 2 || s.spaceState d n base == 3

/-- Activates a handler space in a context: a space that has never been saved starts with every register as at launch
(R132, R173). Its state becomes active at home (R169). -/
def State.activateHandler (s : State) (d : DieId) (n : CtxId) (base : Word) : State × Nat :=
  if (s.homeReadLines d n base 0 2048).2 then ((s.homeScrub d base generalLines).setSpaceState d n base 4, 1)
  else if !s.handlerSaved d n base then
    (((s.homeScrub d base generalLines).setSpaceState d n base 1).modCtx d n fun c => c.freshHandler base, 0)
  else
    let g := (s.homeReadLines d n base 0 2048).1
    let r := s.readSpace d n true base
    let s := s.spaceScrub d base true g
    match r with
    | .error e => (s.setSpaceState d n base 4, e)
    | .ok im =>
      let s := s.setSpaceState d n base 1
      let x := s.die d
      (s.modCtx d n fun c => c.installHandler im (x.feature 1) base, 0)

/-! ### The pages that an activation needs (R173, R174) -/

/-- Whether the pages that an activation reads and writes are there (R173): lines 0 to 7 first; then, where the activation
goes on, the other lines that it reads, and the page of the state word for its write. -/
def State.spaceReady (s : State) (d : DieId) (n : CtxId) (hnd : Bool) (base : Word) (who : Requester) : State × Bool :=
  match s.homeReady d n .read who (linePages base generalLines) with
  | (s, false) => (s, false)
  | (s, true) =>
    let fresh := hnd && !s.handlerSaved d n base
    if fresh then s.homeReady d n .write who (linePages base [0])
    else if !hnd && (s.taskStops d n base).isSome then (s, true)
    else
      let g := (s.homeReadLines d n base 0 2048).1
      match s.homeReady d n .read who (linePages base (homeLines g hnd)) with
      | (s, false) => (s, false)
      | (s, true) => s.homeReady d n .write who (linePages base [0])

/-- Whether a page that an activation reads or writes has begun to migrate since it was translated (R325): the line is
refused for retry, and the activation waits on. -/
def State.activationMoves (s : State) (d : DieId) (n : CtxId) (a : Activation) : Bool :=
  let c := s.ctx d n
  let g := (s.homeReadLines d n a.base 0 2048).1
  s.pagesMove d n .read (linePages a.base (generalLines ++ homeLines g a.hnd))
    || s.pagesMove d n .write (linePages a.base [0])
    || (a.hnd && !c.hndEmpty && s.pagesMove d n .write (linePages c.hndBase (c.savedLines true c.hndBase)))

end Sys2Proof.Machine
end

