-- ==== Sys2Proof/Machine/Preempt.lean ====
section
/-! DEFINITION. Context switch and pre-emption (R173 to R186): `ctxsw`, the switch of handler spaces, the refill of a
space from panel memory, the forced cut-back, and the writes of the context control block. -/

namespace Sys2Proof.Machine

/-- What a saved task's space keeps on its die (R182). -/
def heldOf (c : Ctx) (n : CtxId) : HeldSpace :=
  { rs := c.rsTask, win := c.win, ctx := n, queue := c.queue, serial := c.serial, ringOff := c.ringOff, pkt := c.pkt
    tileX := c.tileX, tileY := c.tileY, tileN := c.tileN }

def State.hold (s : State) (d : DieId) (h : HeldSpace) : State :=
  s.modDie d fun x => { x with heldSpaces := x.heldSpaces ++ [h] }

/-- The report of a failed activation, and the launch that it leaves never complete (R174, R345). -/
def State.reportLost (s : State) (q : QueueId) (serial ringOff : BitVec 32) (pkt : Nat) (n : CtxId) (vdie : BitVec 8)
    (base : Word) (status : Nat) : State :=
  (s.report q [[reportWord0 serial n vdie 2, ringOff.setWidth 64, base, BitVec.ofNat 64 (field status 16 48 + 6)]]).launchEnds
    q pkt false

/-! ### `ctxsw` (R177, R178) -/

/-- The status of a `ctxsw`, and the handler's next bundle (R177). -/
def State.ctxswStatus (s : State) (d : DieId) (n : CtxId) (status : Nat) : State :=
  s.modCtx d n fun c =>
    { c with act := none, ctxswArg := none, waits := [], st := .ready, rsStatus := BitVec.ofNat 8 status
             earliest := max c.earliest (s.cycle + 1) }

/-- A `ctxsw` whose new space has failed its activation (R174, R178): a space that became lost is reported, and its
window returns to the die. DESIGN CHOICE: for a space that this die holds no record of, the report goes to the queue of the
outgoing task, whose launch it ends (log 161). -/
def State.ctxswFails (s : State) (d : DieId) (n : CtxId) (base : Word) (held : Option HeldSpace) (status : Nat) : State :=
  let s := if status = 1 || status = 2 || status = 4 then
      let c := s.ctx d n
      let s := s.modDie d fun x => x.dropHeld base
      match held with
      | some h => s.reportLost h.queue h.serial h.ringOff h.pkt n c.vdie base status
      | none => s.reportLost c.queue c.serial c.ringOff c.pkt n c.vdie base status
    else s
  s.ctxswStatus d n status

/-- The activation of a `ctxsw` (R177): with it the context runs the launch and the tile of the new task. -/
def State.finishCtxsw (s : State) (d : DieId) (n : CtxId) (base : Word) : State :=
  let held := (s.die d).heldFor base
  let r := s.activateTask d n base
  if r.2 ≠ 0 then r.1.ctxswFails d n base held r.2
  else
    let s := r.1.modCtx d n fun c =>
      let c := { c with trapResume := c.task.pc }
      match held with
      | none => c
      | some h => { c with queue := h.queue, serial := h.serial, ringOff := h.ringOff, pkt := h.pkt, tileX := h.tileX
                           tileY := h.tileY, tileN := h.tileN }
    s.ctxswStatus d n 0

/-- A line of a save does not translate, and the runtime does not resolve the fault (R174): the space is lost. -/
def State.saveFaults (s : State) (d : DieId) (n : CtxId) : State :=
  (s.modCtx d n fun c => { c with rsFault := false }).setSpaceState d n (s.ctx d n).rsTask 4

/-- A `ctxsw` that waits for its old task's operations goes on once nothing is pending (R177). -/
def State.scanSwitch (s : State) (d : DieId) (n : CtxId) : State :=
  let c := s.ctx d n
  let arg := c.ctxswArg.getD 0
  let base := spaceBase arg
  let s := if bitAt arg 1 then s.modDie d fun x => x.abortOps n 0 else s
  let read := if homePanel base then 0 else s.activateCycles d n base
  let start (s : State) (due : Nat) : State :=
    (s.modCtx d n fun c => { c with act := some { hnd := false, base := base, byCtxsw := true, due := due } }).sched due
      .ctxswComplete { die := d, ctx := n }
  if s.busyCtx d n || s.cycle < s.drainDue d n then s
  else if bitAt arg 2 || c.taskEmpty || !homePanel c.rsTask then
    let save := if bitAt arg 2 || c.taskEmpty then 0 else c.saveCycles false c.rsTask
    start s (s.cycle + save + max 1 read)
  else if c.rsFault then (s.saveFaults d n).loseTask d n c.rsTask (BitVec.ofNat 64 (field 4 16 48 + 6)) []
  else
    match s.homeReady d n .write (.regSpace n) (linePages c.rsTask (c.savedLines false c.rsTask)) with
    | (s, true) => start s.takeFree (s.cycle + 1 + Config.delay s.freeCtr)
    | (s, false) => s

/-- Whether a page that the save of a context's task writes has begun to migrate since it was translated (R325). -/
def State.saveMoves (s : State) (d : DieId) (n : CtxId) : Bool :=
  let c := s.ctx d n
  s.pagesMove d n .write (linePages c.rsTask (c.savedLines false c.rsTask))

/-- CTXSW_COMPLETE (R177, R178): the old task is saved or discarded, the partition is emptied, and the new space is
activated; one whose home is panel memory first waits for its lines. A save whose page migrates meanwhile waits on
(R325). -/
def execCtxswComplete (s : State) : Host.Outcome State Fault Refusal :=
  let d := s.ev.die
  let n := s.ev.ctx
  let c := s.ctx d n
  .next (match c.act with
    | none => s
    | some a =>
      if !a.byCtxsw || c.st != .blocked || a.due != s.cycle then s
      else
        let arg := c.ctxswArg.getD 0
        if !c.taskEmpty && !bitAt arg 2 && s.saveMoves d n then s.modCtx d n fun c => { c with act := none }
        else
          let s := if c.taskEmpty then s
            else if bitAt arg 2 then s.launchEnds c.queue c.pkt false
            else (s.saveSpace d n false c.rsTask (c.trapResume &&& ~~~3) 2).hold d (heldOf c n)
          let s := s.modCtx d n fun c => { c with taskEmpty := true, hasWin := false }
          if homePanel a.base then
            s.modCtx d n fun c => { c with act := some { a with due := 0 }, waits := [.refill] }
          else s.finishCtxsw d n a.base)

/-! ### Handler spaces (R180) -/

/-- A switch of handler spaces in banks: the cycles of its save and of its activation (R172, R173). -/
def State.handlerCycles (s : State) (d : DieId) (n : CtxId) (base : Word) : Nat :=
  let c := s.ctx d n
  (if c.hndEmpty then 0 else c.saveCycles true c.hndBase) + s.activateCycles d n base

/-- The switch of handler spaces completes: the old one is saved, the new one is activated, and a trap taken meanwhile
enters the handler three cycles later at the earliest (R180). A context that had given up the width is Ready again. -/
def State.finishHandler (s : State) (d : DieId) (n : CtxId) (base : Word) : State :=
  let c := s.ctx d n
  let s := if c.hndEmpty then s else s.saveSpace d n true c.hndBase c.hnd.pc 2
  let pc := c.hnd.pc
  let r := s.activateHandler d n base
  if r.2 ≠ 0 then r.1.loseTask d n base (BitVec.ofNat 64 (field r.2 16 48 + 6)) []
  else r.1.modCtx d n fun c =>
    { c with act := none, hnd := if c.priv then { c.hnd with pc := pc } else c.hnd
             earliest := if c.priv then max c.earliest (s.cycle + 3) else c.earliest
             st := if c.waits.contains .refill then .ready else c.st
             waits := c.waits.filter (· != .refill) }

/-! ### Refill from panel memory (R173, R174) -/

/-- A resumed launch whose space could not be activated (R174, R179). -/
def State.resumeFails (s : State) (d : DieId) (n : CtxId) (base : Word) (status : Nat) : State :=
  let c := s.ctx d n
  let s := s.modDie d fun x => x.dropHeld base
  (s.reportLost c.queue c.serial c.ringOff c.pkt n c.vdie base status).freeCtx d n

/-- A resumed launch's activation (R179). -/
def State.finishResume (s : State) (d : DieId) (n : CtxId) (base : Word) : State :=
  let r := s.activateTask d n base
  if r.2 ≠ 0 then r.1.resumeFails d n base r.2
  else r.1.modCtx d n fun c => { c with act := none, waits := [], st := .ready, earliest := s.cycle + 1 }

/-- An activation has met a translation fault that the runtime does not resolve (R174, R178). -/
def State.activationFaults (s : State) (d : DieId) (n : CtxId) (a : Activation) : State :=
  let s := (s.modCtx d n fun c => { c with rsFault := false }).setSpaceState d n a.base 4
  if a.hnd then s.loseTask d n a.base (BitVec.ofNat 64 (field 4 16 48 + 6)) []
  else if a.byCtxsw then s.ctxswFails d n a.base ((s.die d).heldFor a.base) 4
  else s.resumeFails d n a.base 4

/-- The activation completes in a cycle. -/
def State.refillAt (s : State) (d : DieId) (n : CtxId) (a : Activation) (due : Nat) : State :=
  (s.modCtx d n fun c => { c with act := some { a with due := due }, rsFault := false }).sched due .spillRefillComplete
    { die := d, ctx := n }

/-- An activation from panel memory translates its lines; they arrive after a time that the spec leaves open. A switch of
handler spaces translates the lines that the save of the old one writes as well. -/
def State.scanRefill (s : State) (d : DieId) (n : CtxId) (a : Activation) : State :=
  let c := s.ctx d n
  let old := if a.hnd && !c.hndEmpty then linePages c.hndBase (c.savedLines true c.hndBase) else []
  if c.rsFault then s.activationFaults d n a
  else match s.spaceReady d n a.hnd a.base (.regSpace n) with
    | (s, true) =>
      match s.homeReady d n .write (.regSpace n) old with
      | (s, true) => s.takeFree.refillAt d n a (s.cycle + 1 + Config.delay s.freeCtr)
      | (s, false) => s
    | (s, false) => s

/-- A switch of handler spaces begins once no operation that the handler issued is pending, since their records belong to
the old space (R170); then it saves and activates, in banks in a known number of cycles. -/
def State.scanHandler (s : State) (d : DieId) (n : CtxId) (a : Activation) : State :=
  if (s.die d).ops.any fun o => o.ctx == n && o.hnd && o.st != .ended then s
  else if homePanel a.base || homePanel (s.ctx d n).hndBase then s.scanRefill d n a
  else s.refillAt d n a (s.cycle + s.handlerCycles d n a.base)

/-- SPILL_REFILL_COMPLETE (R173, R174): the last line is there, and the activation checks and completes. One whose page
migrates meanwhile waits on (R325). -/
def execSpillRefillComplete (s : State) : Host.Outcome State Fault Refusal :=
  let d := s.ev.die
  let n := s.ev.ctx
  .next (match (s.ctx d n).act with
    | none => s
    | some a =>
      if a.due ≠ s.cycle then s
      else if s.activationMoves d n a then s.modCtx d n fun c => { c with act := some { a with due := 0 } }
      else if a.hnd then s.finishHandler d n a.base
      else if a.byCtxsw then s.finishCtxsw d n a.base
      else s.finishResume d n a.base)

/-! ### Forced cut-back (R184, R186) -/

/-- CUT_BACK (R186): no further bundle issues, what the region has in flight is dropped, and its operations are
aborted; deferred while a handler runs, without effect after `halt`. The activation of a resumed launch is abandoned like
any wait: its space stays saved, with its window held. DESIGN CHOICE: the operations that a handler has issued since the
region began are aborted with the task's (log 164). -/
def execCutBack (s : State) : Host.Outcome State Fault Refusal :=
  let d := s.ev.die
  let n := s.ev.ctx
  let c := s.ctx d n
  .next (if c.st == .free || c.st == .ending then s.modCtx d n fun c => { c with cutAt := none }
    else if c.priv && !(c.preDeferred && c.waits.contains .ret) then
      s.modCtx d n fun c => { c with cutAt := none, preDeferred := true }
    else
      let s := s.modDie d fun x => (x.giveUp n (s.cycle - 1) .ending).abortOps n c.idemBundle
      let s := if c.act.any (·.hnd) then s else (s.modDie d fun x => x.leaveWalks n).modCtx d n fun c =>
        { c with rsFault := false }
      let s := s.modCtx d n fun c =>
        { c with st := .ending, ending := .cutBack, waits := [], priv := false, trapEnter := false, pendTrap := none
                 cutAt := none, preDeferred := false, ctxswArg := none, act := c.act.filter (·.hnd)
                 flight := c.flight.filter fun f => decide (f.bundle < c.idemBundle) }
      { s with agenda := s.agenda.filter fun e =>
          !((e.act == .arrivePerform || e.act == .foldSetPerform) && e.arg.die == d && e.arg.ctx == n
            && decide (c.idemBundle ≤ e.arg.seq)) })

/-- The snapshot of the idempotent region put back (R186). -/
def Ctx.restored (c : Ctx) : Ctx :=
  { c with task := { c.task with pc := c.idemPc, depth := c.snapDepth, depthIssue := c.snapDepth, fmt := c.snapFmt
                                 loops := c.snapLoops, masks := c.snapMasks } }

/-- A cut-back context saves its space once nothing of it is pending (R186). A resumed launch whose activation has not
completed has nothing to save (log 124). -/
def State.scanCutBack (s : State) (d : DieId) (n : CtxId) : State :=
  let c := s.ctx d n
  let mark (s : State) : State := s.modCtx d n fun c =>
    { c with act := some { hnd := false, base := c.rsTask, byCtxsw := false, due := 1 } }
  if s.busyCtx d n then s
  else if c.taskEmpty then
    ((s.report c.queue [taskEntry c n 3 c.rsTask 0]).launchEnds c.queue c.pkt false).freeCtx d n
  else if homePanel c.rsTask then
    if c.rsFault then
      ((s.saveFaults d n).reportLost c.queue c.serial c.ringOff c.pkt n c.vdie c.rsTask 4).freeCtx d n
    else match s.homeReady d n .write (.regSpace n) (linePages c.rsTask (c.savedLines false c.rsTask)) with
      | (s, true) => (mark s).schedLater .cutBackSaveEnd { die := d, ctx := n }
      | (s, false) => s
  else (mark s).sched (s.cycle + c.saveCycles false c.rsTask) .cutBackSaveEnd { die := d, ctx := n }

/-- CUT_BACK_SAVE_END (R186): the space is saved in state 3, its window stays held, and the context is free. A save whose
page migrates meanwhile waits on (R325). -/
def execCutBackSaveEnd (s : State) : Host.Outcome State Fault Refusal :=
  let d := s.ev.die
  let n := s.ev.ctx
  let c := s.ctx d n
  .next (if c.st != .ending || c.ending != .cutBack || c.act.isNone then s
    else if s.saveMoves d n then s.modCtx d n fun c => { c with act := none }
    else
      let s := (s.modCtx d n Ctx.restored).saveSpace d n false c.rsTask (c.idemPc &&& ~~~3) 3
      let s := (s.hold d (heldOf c n)).report c.queue [taskEntry c n 3 c.rsTask 0]
      (s.launchEnds c.queue c.pkt false).freeCtx d n)

/-- Puts the steps of register spaces and cut-backs of a context on the agenda, and moves on what waits for
translations. -/
def State.scanSpaces (s : State) (d : DieId) (n : CtxId) : State :=
  let c := s.ctx d n
  if c.st == .free then s
  else
    let s := if c.cutAt.any (fun m => decide (m ≤ s.cycle)) || (c.preDeferred && (!c.priv || c.waits.contains .ret)) then
        s.schedOnce s.cycle .cutBack { die := d, ctx := n }
      else s
    if s.cycle < c.homeAfter then s
    else match c.act with
    | some a => if a.due ≠ 0 then s else if a.hnd then s.scanHandler d n a else s.scanRefill d n a
    | none =>
      if c.st == .ending then if c.ending == .cutBack then s.scanCutBack d n else s
      else if c.st == .blocked && c.waits.contains .switchOut then s.scanSwitch d n
      else if c.hndStale && !c.priv then s.modCtx d n Ctx.startHandler
      else s

/-! ### The context control block (R182, R184) -/

/-- CTX_PRE_WRITE (R184): the request is seen from the second cycle on, and a count starts afresh or stops. -/
def execCtxPreWrite (s : State) : Host.Outcome State Fault Refusal :=
  let v := s.ev.val
  let r := s.cycle + 2
  .next (s.modCtx s.ev.die s.ev.ctx fun c =>
    let req := bitAt v 0
    let force := bitAt v 1
    { c with preLimit := BitVec.ofNat 32 (bits v 32 32), preForce := force, preReq := req
             preReqOld := c.reqAt s.cycle, preSeen := r
             cutAt := if req && force then some (r + bits v 32 32) else none })

/-- WIN_REL_WRITE (R182): a held window and carve-out return to the die, and the space becomes lost at home. -/
def execWinRelWrite (s : State) : Host.Outcome State Fault Refusal :=
  let d := s.ev.die
  let base := spaceBase s.ev.val
  .next (match (s.die d).heldFor base with
    | none => s
    | some h => (s.setSpaceState d h.ctx base 4).modDie d fun x => x.dropHeld base)

end Sys2Proof.Machine
end

