-- ==== Sys2Proof/Machine/Launch.lean ====
section
/-! DEFINITION. The start of a task on its die (R10 to R13, R29, R171, R179, R182, R336, R340 to R343): the data window
and carve-out, the window image, the launch state, and the ways a launch fails. -/

namespace Sys2Proof.Machine

/-! ### Windows and carve-outs (R29, R171, R341) -/

/-- The windows that tasks and saved spaces of a die hold (R182). -/
def Die.windows (x : Die) : List Window :=
  (x.ctxs.toList.filter (·.hasWin)).map (·.win) ++ x.heldSpaces.map (·.win)

/-- The spaces of banks that no new window may touch, as first byte and length: windows, carve-outs, register spaces in
banks, and the folds (R29, R30, R171). -/
def Die.taken (x : Die) (extra : List (Nat × Nat)) : List (Nat × Nat) :=
  let space (base : Word) (hnd : Bool) : List (Nat × Nat) :=
    if homePanel base then [] else [(homeAddr base % Config.bankBytes, spaceSize hnd)]
  x.windows.flatMap (fun w => [(w.base, 2 ^ w.log2g), (w.carve, 256 * w.slots)])
    ++ x.ctxs.toList.flatMap (fun c => if c.hasWin then space c.rsTask false ++ space c.trapRs true else [])
    ++ x.heldSpaces.flatMap (fun h => space h.rs false)
    ++ [(Config.foldBase, Config.bankBytes - Config.foldBase)] ++ extra

/-- Whether a range meets one of some ranges. -/
def meets (l : List (Nat × Nat)) (a n : Nat) : Bool :=
  l.any fun p => decide (0 < p.2) && decide (a < p.1 + p.2) && decide (p.1 < a + n)

/-- The lowest multiple of a step at which a size fits among taken ranges (R29). -/
def fitAt (l : List (Nat × Nat)) (size step : Nat) : Nat → Nat → Option Nat
  | 0, _ => none
  | fuel + 1, a =>
    if Config.bankBytes < a + size then none
    else match l.find? fun p => decide (0 < p.2) && decide (a < p.1 + p.2) && decide (p.1 < a + size) with
      | none => some a
      | some p => fitAt l size step fuel ((p.1 + p.2 + step - 1) / step * step)

def fit (l : List (Nat × Nat)) (size step : Nat) : Option Nat := fitAt l size step (2 * l.length + 2) 0

/-- log2 of the window size for a request (R29). -/
def windowLog (data : Nat) : Nat := max 10 (if data ≤ 1 then 0 else Nat.log2 (data - 1) + 1)

/-- A window for a launch and whether it is newly granted, or none if it does not fit (R29, R171, R341). -/
def Die.grant (x : Die) (data slots : Nat) (share : Fin 16) (job : BitVec 8) (extra : List (Nat × Nat)) :
    Option (Window × Bool) :=
  let k := windowLog data
  if 2 ^ 26 < data then none
  else
    let taken := x.taken extra
    let group := if share = 0 then none else x.windows.find? fun w => w.share == share && w.job == job
    let win := match group with
      | some w => if w.log2g = k then some (w.base, false) else none
      | none => (fit taken (2 ^ k) (2 ^ k)).map fun b => (b, true)
    match win with
    | none => none
    | some (b, new) =>
      let carve := if slots = 0 then some 0 else fit ((b, 2 ^ k) :: taken) (256 * slots) 256
      carve.map fun c => ({ base := b, log2g := k, share := share, job := job, carve := c, slots := slots }, new)

/-! ### The window image (R342) -/

/-- What reading an image found. -/
inductive ImageRead where
  | ok (l : List (Nat × Word))
  | miss (va : Word)
  | moves (pa : Nat)
  | bad
  deriving DecidableEq, Repr

/-- A word of an image, read as code is (R342): it is there, its address has no translation yet, its page is in an active
migration range (R325), or it has an uncorrectable error. -/
inductive ImageWord where
  | ok (w : Word)
  | miss (va : Word)
  | moves (pa : Nat)
  | bad
  deriving DecidableEq, Repr

/-- Half a word of an image: code is aligned to 4 bytes, so that the halves of a word may lie in two pages. -/
def State.imageHalf (s : State) (d : DieId) (n : CtxId) (va : Word) : ImageWord :=
  match (s.die d).lookup (s.ctxRoot d n) va .exec with
  | none => .miss va
  | some pa =>
    if s.refusesAt pa 4 then .moves pa
    else if s.memBadAt pa 4 then .bad
    else .ok (wordOfBytes (s.readMem pa 4))

def State.imageWord (s : State) (d : DieId) (n : CtxId) (va : Word) : ImageWord :=
  match s.imageHalf d n va, s.imageHalf d n (va + 4) with
  | .ok lo, .ok hi => .ok (lo + (hi <<< 32))
  | .ok _, r => r
  | r, _ => r

/-- The data words of a record: its window offsets and words. -/
def State.imageData (s : State) (d : DieId) (n : CtxId) (off : Nat) : Nat → Word → ImageRead
  | 0, _ => .ok []
  | k + 1, va =>
    match s.imageWord d n va with
    | .miss a => .miss a
    | .moves pa => .moves pa
    | .bad => .bad
    | .ok w =>
      match s.imageData d n (off + 8) k (va + 8) with
      | .ok l => .ok ((off, w) :: l)
      | r => r

/-- The records of an image from an address on. -/
def State.imageFrom (s : State) (d : DieId) (n : CtxId) : Nat → Word → ImageRead
  | 0, _ => .bad
  | fuel + 1, va =>
    match s.imageWord d n va with
    | .miss a => .miss a
    | .moves pa => .moves pa
    | .bad => .bad
    | .ok h =>
      let k := bits h 32 16
      let off := bits h 0 32
      if bits h 48 15 ≠ 0 || k = 0 || off % 8 ≠ 0 then .bad
      else match s.imageData d n off k (va + 8) with
        | .ok l =>
          if bitAt h 63 then .ok l
          else match s.imageFrom d n fuel (va + BitVec.ofNat 64 (8 * (k + 1))) with
            | .ok r => .ok (l ++ r)
            | r => r
        | r => r

/-- How many records an image can hold: one for every 16 bytes of the address space. -/
def imageLimit : Nat := 2 ^ 44

/-- Zeroes a window and writes an image into it (R342). -/
def Die.prepare (x : Die) (w : Window) (image : List (Nat × Word)) : Die :=
  let inside (a : Nat) : Bool := decide (w.base ≤ a) && decide (a < w.base + 2 ^ w.log2g)
  let x := { x with bank := x.bank.filter fun e => !inside e.1
                    bankBad := x.bankBad.filter fun e => !inside (8 * e.1) }
  image.foldl (fun x e => x.bankWrite ((List.range 8).zip (bytesOfWord e.2) |>.map fun p =>
    (w.byteAddr (BitVec.ofNat 64 e.1) p.1, p.2))) x

/-! ### The launch state (R11 to R13) -/

/-- The words of a launch (R340). -/
def PendLaunch.word (p : PendLaunch) (k : Nat) : Word := p.words.getD k 0

def PendLaunch.stride (p : PendLaunch) : Nat := bits (p.word 6) 0 32

/-- The task space and the handler space of a launch's task (R340). -/
def PendLaunch.rs (p : PendLaunch) : Word := spaceBase (p.word 4 + BitVec.ofNat 64 (p.n * p.stride))

def PendLaunch.hs (p : PendLaunch) : Word := spaceBase (p.word 5 + BitVec.ofNat 64 (p.n * p.stride))

/-- The virtual die of a launch's task. -/
def PendLaunch.vdie (p : PendLaunch) : BitVec 8 := BitVec.ofNat 8 (bits (p.word 2) 0 8 + p.n)

/-- The registers of a task at launch (R13). -/
def launchFile (code : Word) (args : List Word) : RegFile :=
  { pc := code &&& ~~~3, s := Vector.ofFn fun k => if k.val < 8 then args.getD k.val 0 else 0 }

/-- A context as a launch begins in it (R12, R13, R133, R336, R340): only what ctx_pre holds stays. -/
def Ctx.begin (c : Ctx) (x : Die) (p : PendLaunch) (cycle : Nat) : Ctx :=
  let w := bits (p.word 2) 32 13
  { ({} : Ctx) with
    st := .ready, task := launchFile (p.word 1) (p.words.drop 8), vtab := x.vtab, vdie := p.vdie
    tileX := BitVec.ofNat 12 (p.n % max 1 w), tileY := BitVec.ofNat 16 (p.n / max 1 w), tileN := BitVec.ofNat 20 p.n
    queue := p.queue, serial := p.serial, ringOff := p.ringOff, pkt := p.pkt, job := BitVec.ofNat 8 (bits (p.word 3) 48 8)
    trapVec := p.word 7, trapRs := p.word 5 + BitVec.ofNat 64 (p.n * p.stride), rsTask := p.rs, taskEmpty := false
    idemPc := p.word 1 &&& ~~~3, idemBundle := x.seq.bundles, earliest := cycle + 1
    preLimit := c.preLimit, preForce := c.preForce, preReq := c.preReq, preSeen := c.preSeen, preReqOld := c.preReqOld
    cutAt := if c.cutAt.any fun m => decide (m ≤ cycle) then none else c.cutAt }

/-- rm_job with the job number of a context set (R330, R340). -/
def MemRegs.setJob (m : MemRegs) (n : CtxId) (job : BitVec 8) : MemRegs :=
  let sh := 8 * n.val
  { m with job := (m.job &&& ~~~(BitVec.ofNat 32 (255 * 2 ^ sh))) ||| BitVec.ofNat 32 (job.toNat * 2 ^ sh) }

/-! ### Starting (R179, R342, R343) -/

/-- Takes a launch off its die's list. -/
def State.dropPend (s : State) (d : DieId) (p : PendLaunch) : State :=
  s.modDie d fun x => { x with pendLaunch := x.pendLaunch.erase p
                               launchFaults := x.launchFaults.filter fun e => e.queue != p.queue }

/-- A launch that a die cannot start (R343, R345): nothing starts there. -/
def State.launchFails (s : State) (d : DieId) (p : PendLaunch) (cause : Nat) : State :=
  let s := s.dropPend d p
  (s.report p.queue [[reportWord0 p.serial 0 p.vdie 1, p.ringOff.setWidth 64, BitVec.ofNat 64 cause, 0]]).launchEnds
    p.queue p.pkt true

/-- A launch whose space or handler space cannot be activated (R174): a window that its task space holds returns to the
die (R182). -/
def State.launchLost (s : State) (d : DieId) (n : CtxId) (p : PendLaunch) (base : Word) (status : Nat) : State :=
  let s := s.dropPend d p
  let s := s.modDie d fun x => x.dropHeld p.rs
  s.reportLost p.queue p.serial p.ringOff p.pkt n p.vdie base status

/-- The context takes the launch, its handler space is activated, and the launch is off the list. -/
def State.launchInto (s : State) (d : DieId) (n : CtxId) (p : PendLaunch) : State × Nat :=
  let s := s.modDie d fun x =>
    { (x.setCtx n ((x.ctx n).begin x p s.cycle)) with mem := x.mem.setJob n (BitVec.ofNat 8 (bits (p.word 3) 48 8)) }
  (s.dropPend d p).activateHandler d n p.hs

/-- A launch whose context has been taken and whose handler space has failed (R174, R182). -/
def State.launchAbandoned (s : State) (d : DieId) (n : CtxId) (p : PendLaunch) (status : Nat) : State :=
  let s := s.modDie d fun x => x.dropHeld p.rs
  (s.reportLost p.queue p.serial p.ringOff p.pkt n p.vdie p.hs status).freeCtx d n

/-- A fresh task starts (R13, R342): its window is zeroed and its image written, one cycle for each KiB and the time
that the image takes. Its space becomes active at home (R169). -/
def State.launchFresh (s : State) (d : DieId) (n : CtxId) (p : PendLaunch) (w : Window) (new : Bool)
    (image : List (Nat × Word)) : State :=
  let r := s.launchInto d n p
  if r.2 ≠ 0 then r.1.launchAbandoned d n p r.2
  else
    let s := if new then r.1.modDie d fun x => x.prepare w image else r.1
    let wait := (if new then 2 ^ w.log2g / 1024 else 0) + (if image.isEmpty then 0 else Config.delay s.freeCtr)
    let s := if image.isEmpty then s else s.takeFree
    let s := s.setSpaceState d n p.rs 1
    let s := s.homeWrite d n p.rs 0x48 (bytesOfWord (windowRecord w (s.die d) d false))
    s.modCtx d n fun c => { c with hasWin := true, win := w, earliest := s.cycle + 1 + wait }

/-- A saved task resumes (R179): the context is Blocked until its space is active. -/
def State.launchResume (s : State) (d : DieId) (n : CtxId) (p : PendLaunch) : State :=
  let panel := homePanel p.rs
  let due := if panel then 0 else s.cycle + s.activateCycles d n p.rs
  let r := s.launchInto d n p
  if r.2 ≠ 0 then r.1.launchAbandoned d n p r.2
  else
    let s := r.1.modCtx d n fun c =>
      { c with st := .blocked, waits := [.refill], taskEmpty := true
               act := some { hnd := false, base := p.rs, byCtxsw := false, due := due } }
    if panel then s else s.sched due .spillRefillComplete { die := d, ctx := n }

/-- A fresh task's window and image (R29, R341, R342). -/
def State.launchWindow (s : State) (d : DieId) (n : CtxId) (p : PendLaunch) : State :=
  let x := s.die d
  let own (base : Word) (hnd : Bool) : List (Nat × Nat) :=
    if homePanel base then [] else [(homeAddr base % Config.bankBytes, spaceSize hnd)]
  match x.grant (bits (p.word 3) 0 32) (bits (p.word 3) 32 8) (Fin.ofNat 16 (bits (p.word 3) 44 4))
      (BitVec.ofNat 8 (bits (p.word 3) 48 8)) (own p.rs false ++ own p.hs true) with
  | none => s.launchFails d p 2
  | some (w, new) =>
    let img := bits (p.word 6) 32 32
    if !new || img = 0 then s.launchFresh d n p w new []
    else
      let at_ := p.word 1 + 8 * (BitVec.ofNat 32 img).signExtend 64
      match s.imageFrom d n imageLimit at_ with
      | .bad => s.launchFails d p 6
      | .ok l => s.launchFresh d n p w true l
      | .moves pa => s.homeRefused d n pa
      | .miss va => (s.translate d (s.ctxRoot d n) va .exec (.launch p.queue true n)).1

/-- A launch has met a translation fault that the runtime does not resolve: in its image (R342), or in its task space or
its handler space, which is lost (R174). -/
def State.launchFaulted (s : State) (d : DieId) (n : CtxId) (p : PendLaunch) (f : LaunchFault) : State :=
  let first := homeAddr p.rs
  let base := if decide (first ≤ f.va.toNat) && decide (f.va.toNat < first + spaceSize false) && homePanel p.rs then p.rs
    else p.hs
  if f.img then s.launchFails d p 6 else (s.setSpaceState d n base 4).launchLost d n p base 4

/-- A launch once lines 0 to 7 of its task space are there: it resumes a saved space, starts a fresh one, or fails (R179);
before it starts, its handler space is translated, and for a fresh task the page of its window record. -/
def State.launchReady (s : State) (d : DieId) (n : CtxId) (p : PendLaunch) : State :=
  let st := s.spaceState d n p.rs
  let saved := st = 2 || st = 3
  if (s.homeRead d n p.rs 0x28 8).2 then
    ((s.homeScrub d p.rs [0]).setSpaceState d n p.rs 4).launchLost d n p p.rs 1
  else if saved && (s.windowHeld d n p.rs).isNone then s.launchFails d p 5
  else if !saved && st ≠ 0 then s.launchFails d p 3
  else
    match s.spaceReady d n true p.hs (.launch p.queue false n) with
    | (s, false) => s
    | (s, true) =>
      if saved then s.launchResume d n p
      else match s.homeReady d n .write (.launch p.queue false n) (linePages p.rs [0]) with
        | (s, false) => s
        | (s, true) => s.launchWindow d n p

/-- A launch that its die may start in a context: a fault of its translations that has not been resolved ends it, and else
the lines 0 to 7 of its task space come first (R174, R179). -/
def State.launchTry (s : State) (d : DieId) (n : CtxId) (p : PendLaunch) : State :=
  match (s.die d).launchFaults.find? fun f => f.queue == p.queue && f.ctx == n with
  | some f => s.launchFaulted d n p f
  | none =>
    let r := s.homeReady d n .read (.launch p.queue false n) (linePages p.rs generalLines)
    if r.2 then r.1.launchReady d n p else r.1

/-- The free context in which a launch starts: the lowest. -/
def Die.freeCtxOf (x : Die) : Option CtxId := (List.finRange 4).find? fun n => (x.ctx n).st == .free

/-- TASK_LAUNCH_START (R10, R343, R349): the oldest launch of a queue on this die starts in a free context; a repeat
under an election, or one of an older term, is refused. -/
def execTaskLaunchStart (s : State) : Host.Outcome State Fault Refusal :=
  let d := s.ev.die
  let q := s.ev.que
  let x := s.die d
  .next (match x.pendLaunch.find? fun p => p.queue == q, x.freeCtxOf with
    | some p, some n =>
      if s.cycle < p.ready || s.cycle < (x.ctx n).homeAfter then s
      else if p.term.toNat < (x.termSeen[q]).toNat || ((s.queue q).elect && x.seen.contains (q, p.serial)) then
        s.dropPend d p
      else
        let s := s.launchTry d n p
        if (s.die d).pendLaunch.contains p then s
        else s.modDie d fun x =>
          { x with termSeen := vset x.termSeen q p.term
                   seen := if (s.queue q).elect then addNew x.seen (q, p.serial) else x.seen }
    | _, _ => s)

/-- Puts the starts that a die may make in this cycle on the agenda (R10, R343). -/
def State.scanLaunches (s : State) (d : DieId) : State :=
  let x := s.die d
  if x.pendLaunch.isEmpty || x.freeCtxOf.isNone || x.seq.inReset || x.seq.stall then s
  else ((x.pendLaunch.map (·.queue)).eraseDups).foldl (fun s q =>
    match x.pendLaunch.find? fun p => p.queue == q with
    | some p => if p.ready ≤ s.cycle then s.schedOnce s.cycle .taskLaunchStart { die := d, que := q } else s
    | none => s) s

end Sys2Proof.Machine
end

