-- ==== Sys2Proof/Machine/Mmu.lean ====
section
/-! DEFINITION. What a translation walk brings (R308 to R310): a cached entry, a wait for a migrating page, or a fault
record, and how the runtime disposes of a record. -/

namespace Sys2Proof.Machine

/-- Removes a walk; a walk that waited for its walker starts (R309). -/
def State.dropWalk (s : State) (d : DieId) (id : Nat) : State :=
  let s := s.modDie d fun x => { x with walks := x.walks.filter fun w => w.id != id }
  match (s.die d).walks[walkers - 1]? with
  | some w => s.schedLater .translationWalkComplete { die := d, id := w.id }
  | none => s

/-- The operation that a requester's translation stops at a fault (R254, R274, R310). -/
def State.stoppedOp (s : State) (d : DieId) : Requester → Option (Fin 19 × Op)
  | .copy op _ => (s.op d qCopy op).map fun o => (qCopy, o)
  | .remote acc =>
    (s.acc acc).bind fun a => (s.op d qRemote a.op).bind fun o => if isRcp o.ins then some (qRemote, o) else none
  | .array q op => (s.op d q op).map fun o => (q, o)
  | _ => none

/-- Writes the record of a stopped operation with a state: 3 at the fault, 2 when it goes on (R170). -/
def State.recordStop (s : State) (d : DieId) (who : Requester) (st : Nat) : State :=
  match s.stoppedOp d who with
  | some (q, o) => s.putOpRecord d q o st
  | none => s

/-- What a fault does besides its record: an operation stops, a fill slips (R305, R310). -/
def State.faultHolds (s : State) (d : DieId) (who : Requester) : State :=
  match who with
  | .fill _ => s.modDie d Die.countSlip
  | _ => s.recordStop d who 3

/-- The access of an operation's unit that waits at its source. -/
def State.waitingAcc (s : State) (d : DieId) (op : Nat) (unit : Option Nat) : Option RAcc :=
  (s.accsOf d op).find? fun a => (a.st == .waiting || a.st == .resend) && unit.all fun u => a.unit == u

/-- Ends an access, if there is one, with a code. -/
def State.failAcc (s : State) (code : BitVec 8) : Option RAcc → State
  | some a => s.accFails State.fetchFails a code
  | none => s

/-- A requester whose translation does not come ends with a code (R32, R174, R254, R274, R302, R305, R310, R344). -/
def State.requesterEnds (s : State) (d : DieId) (who : Requester) (va : Word) (code : BitVec 8) : State :=
  match who with
  | .gone _ _ => s
  | .fabric k => s.modFabric fun b => { b with failed := addNew b.failed (k, code) }
  | .queue q k =>
    if (s.queue q).leader ≠ d then s
    else if k = 2 then
      s.failAcc code (s.panel.raccs.find? fun a => a.stream == .queue q && (a.st == .waiting || a.st == .resend))
    else s.modQueue q fun c => { c with denied := addNew c.denied (k, code) }
  | .fetch c => s.loseTask d c (s.ctx d c).rf.pc (BitVec.ofNat 64 (field va.toNat 16 48 + 5)) []
  | .fill id => s.failFill d id
  | .copy op unit => s.failAcc code (s.waitingAcc d op (some unit))
  | .remote acc => s.failAcc code (s.acc acc)
  | .array _ op => s.failAcc code (s.waitingAcc d op none)
  | .regSpace c => s.modCtx d c fun x => { x with rsFault := true }
  | .launch q img c => s.modDie d fun x =>
    { x with launchFaults := if x.pendLaunch.any fun p => p.queue == q then
                               addNew x.launchFaults { queue := q, ctx := c, img := img, va := va }
                             else x.launchFaults }

/-- Whether a requester is an access that is to be sent again after a refusal for retry (R324). -/
def State.resends (s : State) (d : DieId) (who : Requester) : Bool :=
  s.panel.raccs.any fun a => a.src == d && a.st == .resend && a.who == who

/-- The end of a walk (R302, R308 to R310). A refused access whose walk finds no memory ends at once (R324, log 61). -/
def State.walkEnds (s : State) (d : DieId) (id : Nat) : State :=
  match (s.die d).walks.find? fun w => w.id == id with
  | none => s
  | some w =>
    match walkTable s w.root w.va w.perm with
    | .ok e => ((s.modDie d fun x => x.cache e s.freeCtr).takeFree).dropWalk d id
    | .migrating => s.sched (s.cycle + max 1 (s.die d).mem.retry.toNat) .migratingLeafRewalk { die := d, id := id }
    | .badEcc => (s.dropWalk d id).requesterEnds d w.who w.va 6
    | .fault k level =>
      let s := s.dropWalk d id
      if k == .noMemory && s.resends d w.who then s.requesterEnds d w.who w.va 2
      else
      let s := s.modDie d fun x => { x with faults := x.faults ++ [{ walk := w, kind := k, level := level }] }
      s.faultHolds d w.who

/-- TRANSLATION_WALK_COMPLETE (R308). -/
def execTranslationWalkComplete (s : State) : Host.Outcome State Fault Refusal := .next (s.walkEnds s.ev.die s.ev.id)

/-- MIGRATING_LEAF_REWALK (R308, R325): the walk waits rm_retry cycles and walks again, until the bit reads 0. -/
def execMigratingLeafRewalk (s : State) : Host.Outcome State Fault Refusal := .next (s.walkEnds s.ev.die s.ev.id)

/-- The context whose tables a requester uses. -/
def State.requesterCtx (s : State) (d : DieId) : Requester → Option CtxId
  | .fetch c | .regSpace c | .launch _ _ c => some c
  | .gone _ _ | .fabric _ | .fill _ | .queue _ _ => none
  | .copy op _ => (s.op d qCopy op).map (·.ctx)
  | .remote acc => (s.acc acc).map fun a => a.stream.ctxOf
  | .array q op => (s.op d q op).map (·.ctx)

/-- The root that a requester's walk uses as it stands now. -/
def State.rootOf (s : State) (d : DieId) (w : Walk) : Word :=
  match w.who, s.requesterCtx d w.who with
  | .fill _, _ => (s.die d).mem.fillRoot
  | .queue q _, _ => (s.queue q).tables
  | _, some c => s.ctxRoot d c
  | _, none => w.root

/-- Takes the oldest record out of the fault queue (R310). -/
def Die.popFault (x : Die) : Die := { x with faults := x.faults.drop 1 }

/-- MMU_RESOLVE_RETRY (R310): the oldest record's requester walks again; a far fetch goes on from its last boundary, and
its accesses walk again there (R274). -/
def execMmuResolveRetry (s : State) : Host.Outcome State Fault Refusal :=
  let d := s.ev.die
  .next (match (s.die d).faults with
    | [] => s
    | f :: _ =>
      let s := s.modDie d Die.popFault
      match f.walk.who with
      | .gone _ _ | .fabric _ => s
      | .array q op => (s.refetch d q op).recordStop d f.walk.who 2
      | _ => (s.startWalk d (s.rootOf d f.walk) f.walk.va f.walk.perm f.walk.who).recordStop d f.walk.who 2)

/-- The oldest record's requester ends with a code (R310). -/
def State.faultEnds (s : State) (d : DieId) (code : BitVec 8) : State :=
  match (s.die d).faults with
  | [] => s
  | f :: _ => (s.modDie d Die.popFault).requesterEnds d f.walk.who f.walk.va code

/-- MMU_RESOLVE_FAIL (R310): the requester ends with code 0x02. -/
def execMmuResolveFail (s : State) : Host.Outcome State Fault Refusal := .next (s.faultEnds s.ev.die 2)

/-- MMU_RESOLVE_REFUSE (R310): the requester ends with code 0x03. -/
def execMmuResolveRefuse (s : State) : Host.Outcome State Fault Refusal := .next (s.faultEnds s.ev.die 3)

/-- MMU_INVAL (R309, R330): every entry goes, or those of every context that cover a 64 KiB page. -/
def execMmuInval (s : State) : Host.Outcome State Fault Refusal :=
  let v := s.ev.val
  let va := field (bits v 16 32) 16 32
  .next (s.modDie s.ev.die fun x =>
    { x with xlat := if bitAt v 63 then [] else x.xlat.filter fun e => e.page != va / 2 ^ levelShift e.level })

end Sys2Proof.Machine
end

