-- ==== Sys2Proof/Machine/Queues.lean ====
section
/-! DEFINITION. Command queues (R338 to R349): parsing and dispatch by the leader, the packets, the writes of the queue
block and the election of a leader. -/

namespace Sys2Proof.Machine

/-! ### The ring (R338, R339) -/

/-- Bytes of a queue's ring. -/
def CmdQueue.bytes (q : CmdQueue) : Nat := 2 ^ q.ringSize

/-- Offset of the next packet, and bytes between head and tail (R338). -/
def CmdQueue.at_ (q : CmdQueue) : Nat := q.head.toNat % q.bytes

def CmdQueue.avail (q : CmdQueue) : Nat := (q.tail.toNat % q.bytes + q.bytes - q.at_) % q.bytes

/-- What reading words at virtual addresses of a queue brings. -/
inductive Words where
  | got (l : List Word)
  /-- A page is migrating, or a walk or the service of a fault is awaited (R308, R310). -/
  | later
  /-- The runtime denies a page, or a word holds an uncorrectable error (R302, R344). -/
  | fails
  deriving DecidableEq, Repr

/-- Reads 64-bit words at virtual addresses of a queue (R344). -/
def State.queueWords (s : State) (q : QueueId) : List Word → State × Words
  | [] => (s, .got [])
  | a :: r =>
    match s.queueTry q 0 a 8 .read with
    | (s, .done l) =>
      if s.runBad l then (s, .fails)
      else match s.queueWords q r with
        | (t, .got w) => (t, .got (wordOfBytes (s.runBytes l) :: w))
        | o => o
    | (s, .fails _) => (s, .fails)
    | (s, _) => (s, .later)

/-- The address of word i of the packet at the head. -/
def CmdQueue.wordAt (c : CmdQueue) (i : Nat) : Word :=
  BitVec.ofNat 64 (c.ringBase.toNat * 4096 + (c.at_ + 8 * i) % c.bytes)

/-- The length that a packet's type gives it, in words (R339, R344). -/
def packetLen (h : Word) : Option Nat :=
  match bits h 0 8 with
  | 1 => some 16
  | 2 => some 4
  | 3 => if 1 ≤ bits h 16 4 && bits h 16 4 ≤ 12 then some (1 + 2 * bits h 16 4) else none
  | 4 => some 3
  | 5 => some 2
  | _ => none

/-- Whether the fields of a packet break its format (R339, R340, R344). -/
def packetBad (w : List Word) : Bool :=
  let g (k : Nat) : Word := w.getD k 0
  let ext := bits (g 0) 16 16
  match bits (g 0) 0 8 with
  | 1 =>
    let n := bits (g 2) 8 9
    let width := bits (g 2) 32 13
    ext != 0 || bits (g 1) 0 2 != 0 || bits (g 4) 1 9 != 0 || bits (g 2) 45 19 != 0 || bits (g 2) 17 15 != 0 || bits (g 3) 56 8 != 0
      || bits (g 3) 40 4 != 0 || bits (g 6) 0 32 % 1024 != 0 || width == 0 || decide (4096 < width) || n == 0
      || decide (256 < n) || decide (256 < bits (g 2) 0 8 + n)
  | 2 => ext != 0 || bits (g 3) 48 16 != 0
  | 3 => decide (32 ≤ ext) || (List.range (bits (g 0) 16 4)).any fun i =>
      let e := g (1 + 2 * i)
      bits e 48 13 != 0 || bits e 0 3 != 0 || decide (6 ≤ bits e 61 3)
  | 4 => decide (4 ≤ ext) || bits (g 1) 0 3 != 0
  | _ => ext != 0

/-- Puts a queue into the error state without a report (R344). -/
def State.queueFault (s : State) (q : QueueId) : State := s.modQueue q fun c => { c with state := 4, stage := .idle }

/-- A malformed packet (R339): report kind 5, and the packet is not parsed. -/
def State.malformed (s : State) (q : QueueId) (h : Word) : State :=
  let s := s.modQueue q fun c => { c with stage := .idle }
  s.report q [[reportWord0 (BitVec.ofNat 32 (bits h 32 32)) 0 0 5, BitVec.ofNat 64 (s.queue q).at_, 0, 0]]

/-- The words of the packet at the head, if the leader may parse it now; else the state it leaves. A step whose packet is
no longer being parsed, since a new leader or the runtime has begun elsewhere, does nothing (R338, R349). -/
def State.parse (s : State) (q : QueueId) : State × Option (List Word) :=
  let c := s.queue q
  if c.stage != .parsing then (s, none)
  else
  let s := s.modQueue q fun c => { c with stage := .idle }
  if c.state ≠ 1 || !c.reports.isEmpty || c.avail < 8 then (s, none)
  else match s.queueWords q [c.wordAt 0] with
    | (s, .later) => (s, none)
    | (s, .fails) => (s.queueFault q, none)
    | (s, .got l) =>
      let h := l.headD 0
      match packetLen h with
      | none => (s.malformed q h, none)
      | some n =>
        if bits h 8 8 ≠ n then (s.malformed q h, none)
        else if c.avail < 8 * n then (s, none)
        else match s.queueWords q ((List.range n).map c.wordAt) with
          | (s, .later) => (s, none)
          | (s, .fails) => (s.queueFault q, none)
          | (s, .got w) => if packetBad w then (s.malformed q h, none) else (s, some w)

/-- Moves a queue's head past a packet. -/
def CmdQueue.past (c : CmdQueue) (n : Nat) : CmdQueue := { c with head := BitVec.ofNat 32 ((c.at_ + 8 * n) % c.bytes) }

/-- Records a parsed packet that is not complete, under the number `s.fresh`. -/
def State.addRec (s : State) (q : QueueId) (w : List Word) (off : Nat) (k : QWork) : State :=
  (s.modQueue q fun c =>
    { c with recs := c.recs ++ [{ id := s.fresh, serial := BitVec.ofNat 32 (bits (w.headD 0) 32 32)
                                  ringOff := BitVec.ofNat 32 off, work := k }] }).takeFresh

/-! ### LAUNCH (R340, R343, R349) -/

/-- Sends a task of a launch to its die (R343). -/
def State.dispatchTask (s : State) (q : QueueId) (w : List Word) (off pkt n : Nat) (p : DieId) : State :=
  let l : PendLaunch :=
    { queue := q, serial := BitVec.ofNat 32 (bits (w.headD 0) 32 32), ringOff := BitVec.ofNat 32 off, pkt := pkt, n := n
      words := w, term := (s.queue q).term, ready := s.cycle + 1 + Config.delay s.freeCtr }
  (s.modDie p fun x => { x with pendLaunch := x.pendLaunch ++ [l] }).takeFree

/-- LAUNCH_PACKET (R339, R340, R343): the tasks go to their dies, or, with an absent die, none does. A LAUNCH parsed again
by a new leader keeps its record. -/
def execLaunchPacket (s : State) : Host.Outcome State Fault Refusal :=
  let q := s.ev.que
  .next (match s.parse q with
    | (s, none) => s
    | (s, some w) =>
      if bits (w.headD 0) 0 8 ≠ 1 then s
      else if (s.queue q).stop then s.modQueue q fun c => { c with state := 3 }
      else
        let off := (s.queue q).at_
        let f := bits (w.getD 2 0) 0 8
        let n := bits (w.getD 2 0) 8 9
        let tab := (s.die (s.queue q).leader).vtab
        let serial := BitVec.ofNat 32 (bits (w.headD 0) 32 32)
        let entry (k : Nat) : VEntry := tab[Fin.ofNat 256 (f + k)]
        let s := s.modQueue q fun c => c.past 16
        match (List.range n).find? fun k => !(entry k).present with
        | some k =>
          s.report q [[reportWord0 serial 0 (BitVec.ofNat 8 (f + k)) 1, BitVec.ofNat 64 off, 1, 0]]
        | none =>
          let again := if (s.queue q).elect then (s.queue q).recs.find? fun r =>
              r.serial == serial && r.ringOff.toNat == off else none
          let pkt := match again with
            | some r => r.id
            | none => s.fresh
          let s := if again.isSome then s else s.addRec q w off (.launch n false)
          (List.range n).foldl (fun s k => s.dispatchTask q w off pkt k (entry k).phys) s)

/-! ### COPY (R250, R254, R344) -/

/-- The oldest COPY of a queue that goes on. -/
def CmdQueue.copyRec (c : CmdQueue) : Option QRec :=
  c.recs.find? fun r => match r.work with
    | .copy _ _ _ _ _ stopped => !stopped
    | _ => false

/-- Whether an access of a COPY is on its way. -/
def State.copyMoves (s : State) (q : QueueId) (r : QRec) : Bool :=
  s.panel.raccs.any fun a => a.stream == .queue q && a.op == r.id && !a.orphan

/-- Puts an access of a queue's COPY in the queue's stream, from its leader (R344). -/
def State.queueAcc (s : State) (q : QueueId) (r : QRec) (unit : Nat) (k : RKind) (far : Word) (n : Nat)
    (data : List Byte) : State :=
  let a : RAcc := { id := s.fresh, src := (s.queue q).leader, stream := .queue q, ord := s.fresh, eng := qCopy, op := r.id
                    unit := unit, bundle := 0, kind := k, far := far, len := n, data := data }
  (s.modPanel fun p => { p with raccs := p.raccs ++ [a] }).takeFresh

/-- The next accesses of a queue's oldest COPY: the loads of its next unit, or the stores of the bytes they brought. -/
def State.copyUnit (s : State) (q : QueueId) : State :=
  match (s.queue q).copyRec with
  | none => s
  | some r =>
    if s.copyMoves q r then s
    else match r.work with
      | .copy src dst len done got stop =>
        let n := min 256 (len - done)
        if got.isEmpty then
          let r' := { r with work := .copy src dst len done (List.replicate n 0) stop }
          (s.modQueue q fun c => { c with recs := replaceIf (fun (o : QRec) => o.id == r.id) (fun _ => r') c.recs }).queueAcc
            q r (done / 256) .load (src + BitVec.ofNat 64 done) n []
        else s.queueAcc q r (done / 256) .store (dst + BitVec.ofNat 64 done) n got
      | _ => s

/-- COPY_PACKET (R344): the packet is parsed, and its bytes then move unit by unit (`flag`). -/
def execCopyPacket (s : State) : Host.Outcome State Fault Refusal :=
  let q := s.ev.que
  .next (if s.ev.flag then s.copyUnit q
    else match s.parse q with
      | (s, none) => s
      | (s, some w) =>
        if bits (w.headD 0) 0 8 ≠ 2 then s
        else
          let off := (s.queue q).at_
          let s := s.modQueue q fun c => c.past 4
          let len := bits (w.getD 3 0) 0 48
          if len = 0 then s else s.addRec q w off (.copy (w.getD 1 0) (w.getD 2 0) len 0 [] false))

/-! ### FENCE (R344) -/

/-- Whether a word compares with a fence's value. -/
def fenceHolds (cmp : Nat) (x v : Word) : Bool :=
  match cmp with
  | 0 => x == v
  | 1 => x != v
  | 2 => decide (v.toNat ≤ x.toNat)
  | 3 => decide (x.toNat < v.toNat)
  | 4 => decide (v.toInt ≤ x.toInt)
  | _ => decide (x.toInt < v.toInt)

/-- Reads the entries of the fence at which a queue holds: parsing goes on once every entry holds. -/
def State.tryFence (s : State) (q : QueueId) : State :=
  let c := s.queue q
  if c.stage != .fencing then s
  else
    let again (s : State) : State :=
      (s.takeFree).sched (s.cycle + 1 + Config.delay s.freeCtr % 4096) .fenceReread { que := q }
    match s.queueWords q (c.fence.entries.map fun e => BitVec.ofNat 64 (bits e.1 3 45 * 8)) with
    | (s, .fails) => s.queueFault q
    | (s, .later) => again s
    | (s, .got l) =>
      if ((c.fence.entries.zip l).all fun p => fenceHolds (bits p.1.1 61 3) p.2 p.1.2)
          && (!c.fence.drain || c.recs.isEmpty) then
        s.modQueue q fun c => { c with stage := .idle }
      else again s

/-- FENCE_PACKET (R344). -/
def execFencePacket (s : State) : Host.Outcome State Fault Refusal :=
  let q := s.ev.que
  .next (match s.parse q with
    | (s, none) => s
    | (s, some w) =>
      if bits (w.headD 0) 0 8 ≠ 3 then s
      else
        let n := bits (w.headD 0) 16 4
        let f : QFence := { drain := bitAt (w.headD 0) 20
                            entries := (List.range n).map fun i => (w.getD (1 + 2 * i) 0, w.getD (2 + 2 * i) 0) }
        (s.modQueue q fun c => { c.past (1 + 2 * n) with stage := .fencing, fence := f }).tryFence q)

/-- FENCE_REREAD (R344): the leader reads the entries again, at least once every 4,096 cycles. -/
def execFenceReread (s : State) : Host.Outcome State Fault Refusal := .next (s.tryFence s.ev.que)

/-! ### SIGNAL and MARK (R344) -/

/-- What the oldest packet of a queue that is not complete does. -/
def CmdQueue.firstWork (c : CmdQueue) : Option QWork := c.recs.head?.map fun (r : QRec) => r.work

/-- The SIGNAL that stands first among a queue's packets has ended. -/
def CmdQueue.signalled (c : CmdQueue) : CmdQueue :=
  { c with recs := c.recs.drop 1, stage := if c.stage == .signalling then .idle else c.stage }

/-- Performs the SIGNAL that stands first among a queue's packets, once its page is there. -/
def State.performSignal (s : State) (q : QueueId) : State :=
  match (s.queue q).firstWork with
  | some (.signal a v add) =>
    match s.queueTry q 1 (BitVec.ofNat 64 (bits a 0 48)) 8 .write with
    | (s, .done l) =>
      let s := s.modQueue q CmdQueue.signalled
      if add && s.runBad l then s.queueFault q
      else s.runWrite l (bytesOfWord (if add then wordOfBytes (s.runBytes l) + v else v))
    | (s, .fails _) => (s.modQueue q CmdQueue.signalled).queueFault q
    | (s, _) => s
  | _ => s

/-- SIGNAL_PACKET (R344): the packet is parsed, and performed once every earlier packet is complete. -/
def execSignalPacket (s : State) : Host.Outcome State Fault Refusal :=
  let q := s.ev.que
  .next (if s.ev.flag then s.performSignal q
    else match s.parse q with
      | (s, none) => s
      | (s, some w) =>
        if bits (w.headD 0) 0 8 ≠ 4 then s
        else
          let off := (s.queue q).at_
          let s := s.addRec q w off (.signal (w.getD 1 0) (w.getD 2 0) (bitAt (w.headD 0) 16))
          s.modQueue q fun c => { c.past 3 with stage := if bitAt (w.headD 0) 17 then .signalling else .idle })

/-- MARK_PACKET (R344): the packet's offset and serial, and the checkpoint path, are recorded. -/
def execMarkPacket (s : State) : Host.Outcome State Fault Refusal :=
  let q := s.ev.que
  .next (match s.parse q with
    | (s, none) => s
    | (s, some w) =>
      if bits (w.headD 0) 0 8 ≠ 5 then s
      else s.modQueue q fun c =>
        { c.past 2 with markSerial := BitVec.ofNat 32 (bits (w.headD 0) 32 32), markOff := BitVec.ofNat 32 c.at_
                        markPath := some (BitVec.ofNat 64 (bits (w.getD 1 0) 0 48)) })

/-! ### What a queue does in a cycle -/

/-- The step that parses a packet of a type. -/
def packetStep (h : Word) : Instr :=
  match bits h 0 8 with
  | 2 => .copyPacket
  | 3 => .fencePacket
  | 4 => .signalPacket
  | 5 => .markPacket
  | _ => .launchPacket

/-- What a queue still owes its report ring and its checkpoint path (R345, R346). -/
def State.queueOwes (s : State) (q : QueueId) : State :=
  let s := if (s.queue q).reports.isEmpty then s else s.flushReports q (s.queue q).owed
  s.putLoss q

/-- Puts the packet at a queue's head on the agenda, once its words are there. -/
def State.scanPacket (s : State) (q : QueueId) : State :=
  let c := s.queue q
  if c.state ≠ 1 || c.stage != .idle || !c.reports.isEmpty || c.avail < 8 then s
  else match s.queueWords q [c.wordAt 0] with
    | (s, .later) => s
    | (s, .fails) => s.queueFault q
    | (s, .got l) =>
      let h := l.headD 0
      let n := match packetLen h with
        | some n => if bits h 8 8 = n then n else 1
        | none => 1
      if c.avail < 8 * n then s
      else if bits h 0 8 = 1 && c.stop then s.modQueue q fun c => { c with state := 3 }
      else (s.modQueue q fun c => { c with stage := .parsing }).schedLater (packetStep h) { que := q }

/-- What a queue's leader does in a cycle (R338, R344): reports that wait, a SIGNAL whose turn has come, the next unit of a
COPY, and the next packet. -/
def State.scanQueue (s : State) (q : QueueId) : State :=
  if !(s.die (s.queue q).leader).inService then s
  else
    let s := s.queueOwes q
    let s := match (s.queue q).firstWork with
      | some (.signal _ _ _) => s.schedOnce s.cycle .signalPacket { que := q, flag := true }
      | _ => s
    let s := match (s.queue q).copyRec with
      | some r => if s.copyMoves q r then s else s.schedOnce s.cycle .copyPacket { que := q, flag := true }
      | none => s
    s.scanPacket q

/-! ### The queue block (R347, R370) -/

/-- Q_TAIL_WRITE (R338). -/
def execQTailWrite (s : State) : Host.Outcome State Fault Refusal :=
  .next (s.modQueue s.ev.que fun c => { c with tail := BitVec.ofNat 32 (bits s.ev.val 0 32) })

/-- Q_RHEAD_WRITE (R345): the runtime makes room, and waiting reports are written. -/
def execQRheadWrite (s : State) : Host.Outcome State Fault Refusal :=
  let q := s.ev.que
  let s := s.modQueue q fun c => { c with rhead := BitVec.ofNat 32 (bits s.ev.val 32 32) }
  .next (s.flushReports q (s.queue q).owed)

/-- Q_CTL_WRITE (R347, R370): the leader while no election decides it, the bits, and the state; until the feature set is
locked, a write of state 1 has no effect. -/
def execQCtlWrite (s : State) : Host.Outcome State Fault Refusal :=
  let q := s.ev.que
  let v := s.ev.val
  let c := s.queue q
  let st := bits v 0 3
  .next (if st = 1 && !s.panel.featLocked then s
    else
      let s := s.modQueue q fun c =>
        { c with leader := if c.elect then c.leader else Fin.ofNat 128 (bits v 48 7), elect := bitAt v 8
                 stop := bitAt v 7, state := if st ≤ 4 then Fin.ofNat 5 st else c.state }
      if bitAt v 8 && !c.elect then s.callElection q else s)

/-- A write of q_head by the runtime: parsing goes on from there, and packets that can never complete no longer hold
those behind them. -/
def State.writeHead (s : State) (q : QueueId) (v : Word) : State :=
  s.modQueue q fun c =>
    { c with head := BitVec.ofNat 32 (bits v 0 32), stage := .idle
             recs := c.recs.filter fun r => match r.work with
               | .launch _ never => !never
               | .copy _ _ _ _ _ stopped => !stopped
               | .signal _ _ _ => true }

/-! ### Election (R349) -/

/-- Whether a die can lead a queue (R349). -/
def State.canLead (s : State) (p : DieId) : Bool :=
  let x := s.die p
  x.inService && s.panel.expo[p] != .dead && !x.seq.inReset && !x.seq.throttled && !x.draining

/-- A packet as a new leader takes it over: a COPY runs again from its first byte, under a number of its own. -/
def QRec.again (r : QRec) (id : Nat) : QRec :=
  match r.work with
  | .copy a b n _ _ stopped => { r with id := id, work := .copy a b n 0 [] stopped }
  | _ => r

/-- A new leader takes a queue over (R349): the term increases, it resumes parsing at q_head, and a copy in progress runs
again; the accesses that the old leader has not yet sent go. -/
def State.lead (s : State) (q : QueueId) (p : DieId) : State :=
  let n := s.fresh
  let s := s.modQueue q fun c =>
    { c with leader := p, term := c.term + 1, stage := if c.stage == .parsing then .idle else c.stage, denied := []
             recs := c.recs.mapIdx fun i r => r.again (n + i) }
  let s := s.modPanel fun x =>
    { x with raccs := x.raccs.filter fun a => !(a.stream == .queue q && (a.st == .waiting || a.st == .resend)) }
  { s with fresh := n + (s.queue q).recs.length }

/-- LEADER_ELECTION (R349): the lowest die that can lead does; while no die can, the election goes on. -/
def execLeaderElection (s : State) : Host.Outcome State Fault Refusal :=
  let q := s.ev.que
  .next (if !(s.queue q).elect then s
    else match (List.finRange 128).find? s.canLead with
      | none => s.schedLater .leaderElection { que := q }
      | some p => s.lead q p)

end Sys2Proof.Machine
end

