-- ==== Sys2Proof/Machine/Boot.lean ====
section
/-! DEFINITION. Boot, identity, attestation, features, power and steward accesses (R360 to R377). -/

namespace Sys2Proof.Machine

/-- The primary designated die: the lowest designated die in service (R360). -/
def State.primary (s : State) : Option DieId :=
  (List.finRange 128).find? fun p => s.panel.designated.contains p && (s.die p).inService

/-- The primary designated die, once its firmware runs and while its runtime has not ended (R363, R378). -/
def State.primaryRuns (s : State) : Option DieId :=
  s.primary.filter fun d => (s.die d).boot.stage == 4 && !(s.die d).boot.ended

/-! ### Images (R363, R365, R368) -/

/-- Programs the next unprogrammed cell of the identity key, and moves the leaf index to the start of its block (R368).
With every cell programmed the index stands past the last leaf. -/
def BootRegs.nextBlock (b : BootRegs) : BootRegs :=
  if b.blocksUsed < 1024 then { b with blocksUsed := b.blocksUsed + 1, leaf := 1024 * b.blocksUsed }
  else { b with leaf := 1024 * 1024 }

/-- An accepted image: its kind, security version, digest and payload. -/
structure Image where
  kind : Nat
  svn : BitVec 6
  digest : BitVec 256
  payload : List Byte

/-- The number in bytes lo to lo+n-1. -/
def headerNat (l : List Byte) (lo n : Nat) : Nat := natOfBytes ((l.drop lo).take n)

/-- The length of the image at the start of some bytes: header, payload and signature. -/
def imageLen (l : List Byte) : Nat := 64 + headerNat l 8 4 + headerNat l 12 4

/-- Whether an image's header fields are valid (R365). -/
def headerOk (l : List Byte) (kind : Nat) : Bool :=
  decide (64 ≤ l.length) && headerNat l 0 4 == 0x4B474937 && headerNat l 4 1 == kind
    && decide (headerNat l 5 1 ≤ 63) && headerNat l 6 2 == 0 && headerNat l 8 4 % 8 == 0
    && headerNat l 48 16 == 0 && decide (imageLen l ≤ l.length)

/-- Whether a signature verifies under the HSS public key whose SHA-256 is fused into the die (R365). -/
def signedBy (hash : BitVec 256) (msg sig : List Byte) : Bool :=
  let key := Config.hssKey hash
  BitVec.ofNat 256 (natOfBytes (sha256 key)) == hash && hssCheck key msg sig

/-- Verifies the image of a kind at the start of some bytes: the image, or the boot cause of its failure (R365, R366). -/
def verifyImage (hash : BitVec 256) (kind min : Nat) (l : List Byte) : Except (BitVec 8) Image :=
  if l.isEmpty then .error 1
  else if !headerOk l kind then .error 2
  else
    let n := headerNat l 8 4
    let payload := (l.drop 64).take n
    let sig := (l.drop (64 + n)).take (headerNat l 12 4)
    if sha256 payload != (l.drop 16).take 32 || !signedBy hash (l.take (64 + n)) sig then .error 3
    else if headerNat l 5 1 < min then .error 4
    else .ok { kind := kind, svn := BitVec.ofNat 6 (headerNat l 5 1)
               digest := BitVec.ofNat 256 (headerNat l 16 32), payload := payload }

/-- How a die obtains its image set (R363). -/
inductive ImageSet where
  | bytes (l : List Byte)
  /-- The primary designated die does not run yet. -/
  | waits
  | fails (cause : BitVec 8)

/-- The image set that a die obtains (R363): a designated die reads the boot flash, and every other die receives it from
the primary designated die once that die runs. A read that cannot be corrected, of the flash, of the secure storage, whose
tag must be right, or of the steward SRAM, is cause 5 (R366, R378). -/
def State.imageSet (s : State) (d : DieId) : ImageSet :=
  let b := (s.die d).boot
  if b.storeBad || (s.storeRead d).isNone || b.sramBad.any fun e => e.2 == .double then .fails 5
  else if s.panel.designated.contains d then
    if s.panel.flashBad.any fun w => decide (8 * w < s.panel.flash.length) then .fails 5 else .bytes s.panel.flash
  else match s.primary with
    | none => .fails 1
    | some p =>
      let stage := (s.die p).boot.stage
      if stage = 4 then .bytes s.panel.flash else if stage = 15 then .fails 1 else .waits

/-- The steward SRAM with the firmware at its start. -/
def sramOf (l : List Byte) : Memory := Memory.writeAll [] ((List.range l.length).zip l)

/-- A failed boot: the sequencer stays in reset, and the failure is reported over the management plane (R363). -/
def State.bootFails (s : State) (d : DieId) (cause : BitVec 8) : State :=
  (s.modDie d fun x => { x with boot := { x.boot with stage := 15, cause := cause } }).notify (.bootFailed d cause)

/-- The next step of the boot ROM (R363), after a time that the spec leaves open. -/
def State.romLater (s : State) (d : DieId) : State := s.schedLater .dieReset { die := d, flag := true }

/-- The firmware is verified and loaded into the steward SRAM (R363, step 2). -/
def State.bootFirmware (s : State) (d : DieId) (l : List Byte) : State :=
  let b := (s.die d).boot
  match verifyImage b.pubKeyHash 0 b.minFw.toNat l with
  | .error c => s.bootFails d c
  | .ok fw =>
    (s.modDie d fun x =>
      { x with boot := { x.boot with stage := 2, fwSvn := fw.svn, fwDigest := fw.digest, firmware := fw.payload
                                     sram := sramOf fw.payload } }).romLater d

/-- The microcode is verified and loaded into the sequencer (R363, step 3). -/
def State.bootMicrocode (s : State) (d : DieId) (l : List Byte) : State :=
  let b := (s.die d).boot
  match verifyImage b.pubKeyHash 1 b.minUcode.toNat (l.drop (imageLen l)) with
  | .error c => s.bootFails d c
  | .ok uc =>
    (s.modDie d fun x =>
      { x with boot := { x.boot with stage := 3, ucodeSvn := uc.svn, ucodeDigest := uc.digest
                                     microcode := uc.payload } }).romLater d

/-- The firmware starts: the sequencer leaves reset, and the stacks beside the die deal their channels (R301, R363). -/
def State.bootRuns (s : State) (d : DieId) : State :=
  (s.modDie d fun x =>
    let seq := x.seq
    { x with boot := { x.boot with stage := 4 }, seq := { seq with inReset := false } }).redeal d

/-- The boot ROM obtains the image set, once (R363, step 1). -/
def State.bootObtain (s : State) (d : DieId) : State :=
  match s.imageSet d with
  | .fails c => s.bootFails d c
  | .waits => s.romLater d
  | .bytes l => (s.modDie d fun x => { x with boot := { x.boot with images := some l } }).romLater d

/-- One step of the boot ROM (R363): the first failure ends the sequence. -/
def State.bootRom (s : State) (d : DieId) : State :=
  let b := (s.die d).boot
  match b.images with
  | none => if b.stage = 1 then s.bootObtain d else s
  | some l =>
    if b.stage = 1 then s.bootFirmware d l
    else if b.stage = 2 then s.bootMicrocode d l
    else if b.stage = 3 then s.bootRuns d
    else s

/-- DIE_RESET (R349, R363, R368): the die starts at its reset values, programs its next leaf block and runs the boot ROM,
whose steps follow (`flag`). But for the one at power-on and on entry into service (`arr`), a reset takes a new incarnation
(R326), and the queues that the die leads elect another leader. -/
def execDieReset (s : State) : Host.Outcome State Fault Refusal :=
  let d := s.ev.die
  .next (if !(s.die d).inService then s
    else if s.ev.flag then s.bootRom d
    else
      let arr := s.ev.arr
      let inc := (s.die d).incarnation
      let s := s.resetDie d 1 (if arr then inc else inc + 1)
      let s := s.modDie d fun x => { x with boot := x.boot.nextBlock }
      let s := if arr then s else (s.leaderGone d).unlock
      (s.takeFree).sched ((s.die d).cycBase + 1 + Config.delay s.freeCtr) .dieReset { die := d, flag := true })

/-- SVN_COMMIT (R367): a fused minimum rises to a value above it and no higher than the version that runs: with no firmware running, none. -/
def execSvnCommit (s : State) : Host.Outcome State Fault Refusal :=
  let v : BitVec 6 := BitVec.ofNat 6 (bits s.ev.val 0 6)
  .next (s.modDie s.ev.die fun x =>
    let b := x.boot
    let b := if b.stage ≠ 4 then b
      else if bitAt s.ev.val 63 then
        (if b.minUcode < v && v ≤ b.ucodeSvn then { b with minUcode := v } else b)
      else if b.minFw < v && v ≤ b.fwSvn then { b with minFw := v } else b
    { x with boot := b })

/-! ### Features (R370 to R372) -/

/-- The features that every die offers (R371). -/
def featOffer : BitVec 128 := 0xFF

/-- A write of feat_acc0 or feat_acc1: while the set is open, the accepted bits that are offered (R371, R372). -/
def State.writeAccept (s : State) (d : DieId) (half : Nat) (v : Word) : State :=
  s.modDie d fun x =>
    let b := x.boot
    if b.featLock then x
    else
      let v128 : BitVec 128 := if half = 0 then v.setWidth 128 else (v.setWidth 128) <<< 64
      let keep : BitVec 128 := if half = 0 then b.featAcc &&& (BitVec.allOnes 128 <<< 64)
        else b.featAcc &&& (BitVec.allOnes 128 >>> 64)
      { x with boot := { b with featAcc := keep ||| (v128 &&& featOffer) } }

/-- FEATURE_LOCK (R370, R372): on the primary designated die, once per panel reset. Without bit 0 the lock is refused;
otherwise the set is fixed, and every die reads it. -/
def execFeatureLock (s : State) : Host.Outcome State Fault Refusal :=
  let d := s.ev.die
  let b := (s.die d).boot
  .next (if s.primary ≠ some d || s.panel.featLocked || !bitAt s.ev.val 0 then s
    else if !natBit b.featAcc.toNat 0 then
      s.modDie d fun x => { x with boot := { x.boot with featStatus := 2 } }
    else
      let s := s.modPanel fun p => { p with featLocked := true, featSet := b.featAcc }
      { s with dies := s.dies.map fun (x : Die) =>
          { x with boot := { x.boot with featAcc := b.featAcc, featStatus := 1, featLock := true } } })

/-! ### Telemetry (R375) -/

/-- A word of a field. -/
def wfield (v lo n : Nat) : Word := BitVec.ofNat 64 (field v lo n)

/-- Two 32-bit fields of a word. -/
def hiLo (hi lo : BitVec 32) : Word := wfield hi.toNat 32 32 + wfield lo.toNat 0 32

/-- A read of the telemetry block (R375). -/
def readTelemetry (b : BootRegs) (off : Nat) : Word :=
  match off with
  | 0x00 => b.powerMw.setWidth 64
  | 0x08 => b.temp.setWidth 64
  | 0x10 => b.limitMw.setWidth 64
  | 0x18 => b.throttleCycles
  | 0x20 => hiLo b.tmCorrected b.tmUncorrected
  | _ => 0

/-! ### Attestation (R368, R369) -/

/-- The index of the next signature, and the state of the key after it: at the end of a block the next cell is programmed
first. None once the last index is used (R368). -/
def BootRegs.takeLeaf (b : BootRegs) : Option (Nat × BootRegs) :=
  if b.leaf ≥ 1024 * 1024 then none
  else
    let n := b.leaf
    some (n, if n % 1024 = 1023 then b.nextBlock else { b with leaf := n + 1 })

/-- What a die signs for an attestation: its unique number, the digests and versions of its images and the nonce. -/
def attestBody (x : Die) (nonce : BitVec 256) : List Byte :=
  let b := x.boot
  bytesOfWord b.uid ++ bytesOfNat 32 b.fwDigest.toNat ++ bytesOfNat 32 b.ucodeDigest.toNat
    ++ bytesOfNat 1 b.fwSvn.toNat ++ bytesOfNat 1 b.ucodeSvn.toNat ++ bytesOfNat 32 nonce.toNat

/-- A die's part of the report: what it signs and its signature, or the cause of its failed boot without one. A die that
can sign no more refuses. -/
def State.attestDie (s : State) (p : DieId) (nonce : BitVec 256) : State × List Byte :=
  let x := s.die p
  if x.boot.stage = 15 then (s, bytesOfNat 1 p.val ++ [x.boot.cause])
  else match x.boot.takeLeaf with
    | none => (s, bytesOfNat 1 p.val ++ [0])
    | some (n, b) =>
      let body := attestBody x nonce
      let r := (s.modDie p fun x => { x with boot := b }).signWith p n body
      (r.1, bytesOfNat 1 p.val ++ [0] ++ body ++ r.2)

/-- The exposure list as bytes (R334): on a bare die it has one entry (R364). -/
def State.exposureBytes (s : State) : List Byte :=
  (if s.panel.package.isSome then [0] else List.finRange 128).map fun p => match s.panel.expo[p] with
    | .exposed => 0
    | .spare => 1
    | .dead => 2

/-- Whether a die in service still runs its boot ROM. -/
def State.booting (s : State) (d : DieId) : Bool :=
  let x := s.die d
  x.inService && x.boot.stage != 4 && x.boot.stage != 15

/-- The signed report of the whole panel, which the primary designated die gives (R369), unless its runtime ends over it
(R378). -/
def State.attest (s : State) (p : DieId) (nonce : BitVec 256) : State :=
  let served := (List.finRange 128).filter fun d => (s.die d).inService
  let (s, parts) := served.foldl (fun (acc : State × List Byte) d =>
    let r := acc.1.attestDie d nonce
    (r.1, acc.2 ++ r.2)) (s, [])
  let body := bytesOfNat 32 nonce.toNat ++ parts ++ s.exposureBytes
    ++ bytesOfNat 16 (if s.panel.featLocked then s.panel.featSet.toNat else 0)
  match (s.die p).boot.takeLeaf with
  | none => s
  | some (n, b) =>
    let r := (s.modDie p fun x => { x with boot := b }).signWith p n body
    if (r.1.die p).boot.ended then r.1 else r.1.notify (.attestation (body ++ r.2))

/-- Bytes that an image update writes into the boot flash from a byte on: a word that is written whole can be read again. -/
def State.flashWrite (s : State) (off : Nat) (l : List Byte) : State :=
  s.modPanel fun p =>
    { p with flash := p.flash.take off ++ List.replicate (off - p.flash.length) 0 ++ l ++ p.flash.drop (off + l.length)
             flashBad := p.flashBad.filter fun w => !(decide (off ≤ 8 * w) && decide (8 * w + 8 ≤ off + l.length)) }

/-- The registers of the telemetry block, as the management port reports them (R375, R376). -/
def BootRegs.telemetry (b : BootRegs) : List Word := (List.range 5).map fun k => readTelemetry b (8 * k)

/-- A service of the management port (R369, R376) from the primary designated die p, which runs. -/
def State.manage (s : State) (p : DieId) : MgmtReq → State
  | .attest =>
    if (List.finRange 128).any s.booting then s.schedLater .attestationRequest { nonce := s.ev.nonce }
    else s.attest p s.ev.nonce
  | .image off l => s.flashWrite off l
  | .rsFec on => s.modPanel fun p => { p with rsFec := on }
  | .exposure => s.notify (.exposure s.exposureBytes)
  | .telemetry d => s.notify (.telemetry d (s.die d).boot.telemetry)

/-- ATTESTATION_REQUEST (R369, R376): the primary designated die, once it runs, answers with the report of the whole panel;
a die that is still booting is awaited. The other services of the management port come by the same step. -/
def execAttestationRequest (s : State) : Host.Outcome State Fault Refusal :=
  .next (match s.primaryRuns with
    | none => s
    | some p => s.manage p s.ev.mgmt)

/-! ### Power and heat (R373, R374) -/

/-- 110 °C in the unit of tm_temp, 1/16 °C (R374, R375). -/
def hotLimit : Int := 1760

/-- The hottest sensor of a die reads a temperature (R374): above 110 °C the die is held in reset, has failed and is
reported. -/
def State.heats (s : State) (d : DieId) (temp : BitVec 16) : State :=
  let set (s : State) : State := s.modDie d fun x => { x with boot := { x.boot with temp := temp } }
  if hotLimit < temp.toInt then (set (s.dieOff d)).notify (.thermal d) else set s

/-- THERMAL_SHUTDOWN (R374): a die's temperature is measured, and above 110 °C its hardware holds it in reset. -/
def execThermalShutdown (s : State) : Host.Outcome State Fault Refusal :=
  .next (s.heats s.ev.die (BitVec.ofNat 16 (bits s.ev.val 0 16)))

/-- POWER_THROTTLE (R373, R374): the sequencer begins (`flag`) or ends to insert stall cycles, with the power and heat
measured. -/
def execPowerThrottle (s : State) : Host.Outcome State Fault Refusal :=
  let d := s.ev.die
  let e := s.ev
  let s := s.modDie d fun x =>
    let seq := x.seq
    { x with seq := { seq with stall := e.flag }
             boot := { x.boot with powerMw := BitVec.ofNat 32 (bits e.val 0 32) } }
  .next (s.heats d (BitVec.ofNat 16 (bits e.val 32 16)))

/-- The cycles over which a die's stalls are counted: 1 ms, as its power is. DESIGN CHOICE (log 169). -/
def stallPeriod : Nat := 2000000

/-- Counts a cycle of the sequencer and a stall in it (R373): at the end of a period a die that has inserted more than half
of its cycles as stalls is throttled, and else it is not. -/
def Sequencer.countStall (x : Sequencer) : Sequencer :=
  let n := x.stalls + x.stall.toNat
  if x.period + 1 < stallPeriod then { x with period := x.period + 1, stalls := n }
  else { x with period := 0, stalls := 0, throttled := decide (stallPeriod < 2 * n) }

/-- Counts a stall cycle (R373, R375). -/
def Die.countStall (x : Die) : Die :=
  let n := x.boot.throttleCycles
  let x := { x with seq := x.seq.countStall }
  if x.seq.stall && n != BitVec.allOnes 64 then { x with boot := { x.boot with throttleCycles := n + 1 } } else x

/-- A cycle of a die's throttling: one that becomes throttled leads no queue by election any more (R349, R373). -/
def State.stallCycle (s : State) (d : DieId) : State :=
  let old := (s.die d).seq.throttled
  let s := s.modDie d Die.countStall
  if (s.die d).seq.throttled && !old then s.leaderGone d else s

/-! ### Steward accesses (R361, R362) -/

/-- Whether a steward core runs: the die has power, and its runtime has not ended (R378). Core 0 runs the boot ROM from
reset on; both run the firmware once it has started (R360, R363). -/
def Die.coreRuns (x : Die) (core : Fin 2) : Bool := x.inService && !x.boot.ended && (core == 0 || x.boot.stage == 4)

/-- A steward core's access ends in a code with what it has read. -/
def Die.stewardEnds (x : Die) (core : Fin 2) (code : BitVec 8) (l : List Byte) : Die :=
  { x with stewardData := vset x.stewardData core l, stewardCode := vset x.stewardCode core code }

/-- A steward has read some bytes. -/
def State.stewardReads (s : State) (d : DieId) (core : Fin 2) (l : List Byte) : State :=
  s.modDie d fun x => x.stewardEnds core 0 l

/-- A steward reads nothing but zeros: no memory stands at the address (R361). -/
def State.stewardZeros (s : State) (d : DieId) (a : StewardAcc) : State := s.stewardReads d a.core (List.replicate a.len 0)

/-- A steward's access to bank space waits for the copy port at the lowest priority (R362). -/
def State.stewardBank (s : State) (d : DieId) (a : StewardAcc) : State :=
  if a.len = 0 then s
  else if Config.bankBytes < a.addr + a.len then (if a.write then s else s.stewardZeros d a)
  else
    let words := (List.range ((a.addr + a.len - 1) / 8 + 1 - a.addr / 8)).map fun k => a.addr / 8 + k
    (s.modDie d fun x =>
      { x with stewards := x.stewards ++ [{ id := s.fresh, acc := a, left := words, got := [] }] }).takeFresh

/-- STEWARD_BANK_ACCESS (R361, R362): an access of a steward to a bank address. -/
def execStewardBankAccess (s : State) : Host.Outcome State Fault Refusal :=
  .next (if (s.die s.ev.die).coreRuns s.ev.acc.core then s.stewardBank s.ev.die s.ev.acc else s)

/-- What a steward's access wants of the ports in this cycle (R193, R362). -/
def stewardReqs (x : Die) : List PortReq :=
  x.stewards.flatMap fun r => r.left.map fun w =>
    let lo := 8 * w
    let bytes := if !r.acc.write then [] else
      (List.range 8).filterMap fun k =>
        if r.acc.addr ≤ lo + k && lo + k < r.acc.addr + r.acc.len then
          some (lo + k, (r.acc.data[lo + k - r.acc.addr]?).getD 0)
        else none
    { pri := 30, who := .steward r.id, word := w, read := !r.acc.write, write := r.acc.write, bytes := bytes }

/-- A steward's access once a word of it has been accepted: the bytes read, or none. -/
def StewardReq.took (r : StewardReq) (w : Nat) (l : List (Nat × Byte)) : StewardReq :=
  { r with left := r.left.filter fun v => v != w
           got := r.got ++ (if r.acc.write then [] else
             l.filter fun p => decide (r.acc.addr ≤ p.1) && decide (p.1 < r.acc.addr + r.acc.len)) }

/-- The port has accepted a word of a steward's access; a read that has all its words leaves its bytes for the steward. -/
def State.stewardWord (s : State) (d : DieId) (id w : Nat) (l : List (Nat × Byte)) : State :=
  s.modDie d fun x =>
    let rs := replaceIf (fun (r : StewardReq) => r.id == id) (fun r => r.took w l) x.stewards
    let done := rs.filter fun r => r.left.isEmpty && !r.acc.write
    done.foldl (fun (x : Die) r => x.stewardEnds r.acc.core 0 ((List.range r.acc.len).map fun k =>
      ((r.got.find? fun p => p.1 == r.acc.addr + k).map fun p => p.2).getD 0))
      { x with stewards := rs.filter fun r => !r.left.isEmpty }

/-- A steward's access to panel memory, by the station controller and outside any stream (R362). An address at which no
memory stands reads 0. A read that meets an uncorrectable error ends with code 6 (R302) and brings no bytes: DESIGN CHOICE
(log 168). -/
def State.stewardPanel (s : State) (d : DieId) (a : StewardAcc) : State :=
  if a.len = 0 then s
  else if !(List.range (a.len / 8 + 2)).all fun k => s.physOk (a.addr + min (8 * k) (a.len - 1)) then
    (if a.write then s else s.stewardZeros d a)
  else if a.write then s.writeMem a.addr (a.data.take a.len)
  else if s.memBadAt a.addr a.len then s.modDie d fun x => x.stewardEnds a.core 6 []
  else s.stewardReads d a.core (s.readMem a.addr a.len)

/-- STEWARD_PANEL_ACCESS (R361, R362): an access of a steward to a panel physical address. -/
def execStewardPanelAccess (s : State) : Host.Outcome State Fault Refusal :=
  .next (if (s.die s.ev.die).coreRuns s.ev.acc.core then s.stewardPanel s.ev.die s.ev.acc else s)

end Sys2Proof.Machine
end

