-- ==== Sys2Proof/Machine/FlitCode.lean ====
section
/-! DEFINITION. Flits on the wire (R384, R385) and the layout of a slot (R387): the flit header, the Reed-Solomon code
of link mode 1, the slot header words and the slot checksum. -/

namespace Sys2Proof.Machine

/-! ### The field of 256 elements and the code RS(76, 68) (R385) -/

/-- Doubling in the field with the polynomial x^8 + x^4 + x^3 + x^2 + 1. -/
def gfDouble (a : Nat) : Nat := if a < 128 then 2 * a else Nat.xor (2 * a) 0x11D

/-- Product of two field elements, over the low n bits of the second. -/
def gfMulN : Nat → Nat → Nat → Nat
  | 0, _, _ => 0
  | n + 1, a, b => Nat.xor (if b % 2 = 1 then a else 0) (gfMulN n (gfDouble a) (b / 2))

def gfMul (a b : Nat) : Nat := gfMulN 8 a b

/-- A power of a field element. -/
def gfPow (a : Nat) : Nat → Nat
  | 0 => 1
  | n + 1 => gfMul a (gfPow a n)

/-- The inverse of a nonzero element. -/
def gfInv (a : Nat) : Nat := gfPow a 254

/-- A power of the primitive element. -/
def gfExp (n : Nat) : Nat := gfPow 2 (n % 255)

/-- The value of a polynomial, highest coefficient first. -/
def gfHorner (l : List Nat) (x : Nat) : Nat := l.foldl (fun acc c => Nat.xor (gfMul acc x) c) 0

/-- The sum of two polynomials, lowest coefficient first. -/
def gfAdd : List Nat → List Nat → List Nat
  | [], l => l
  | l, [] => l
  | a :: l, b :: r => Nat.xor a b :: gfAdd l r

/-- A polynomial times an element. -/
def gfScale (k : Nat) (l : List Nat) : List Nat := l.map (gfMul k)

/-- The product of two polynomials, lowest coefficient first. -/
def gfProd : List Nat → List Nat → List Nat
  | [], _ => []
  | a :: l, r => gfAdd (gfScale a r) (0 :: gfProd l r)

/-- The generator, highest coefficient first, its roots the powers 0 to 7 of the primitive element; the spec does not name
the first root (PRESUMED). -/
def rsGen : List Nat := ((List.range 8).foldl (fun g j => gfProd g [gfExp j, 1]) [1]).reverse

/-- One step of the division by the generator: the remainder's eight coefficients, highest first. -/
def rsStep (g : List Nat) (rem : List Nat) (b : Nat) : List Nat :=
  gfAdd (rem.drop 1 ++ [0]) (gfScale (Nat.xor b (rem.headD 0)) g)

/-- The eight parity bytes of 68 message bytes. -/
def rsParity (l : List Nat) : List Nat := l.foldl (rsStep (rsGen.drop 1)) (List.replicate 8 0)

/-- The eight syndromes of a word. -/
def rsSyndromes (l : List Nat) : List Nat := (List.range 8).map fun j => gfHorner l (gfExp j)

/-- The state of the search for the shortest error locator: locator, its last version, its degree, the shift and the last
discrepancy. -/
structure RsSearch where
  loc : List Nat
  old : List Nat
  deg : Nat
  shift : Nat
  disc : Nat

/-- One step of the search, for syndrome n. -/
def RsSearch.step (syn : List Nat) (r : RsSearch) (n : Nat) : RsSearch :=
  let d := (List.range (r.deg + 1)).foldl (fun acc i => Nat.xor acc (gfMul (r.loc.getD i 0) (syn.getD (n - i) 0))) 0
  if d = 0 then { r with shift := r.shift + 1 }
  else
    let next := gfAdd r.loc (gfScale (gfMul d (gfInv r.disc)) (List.replicate r.shift 0 ++ r.old))
    if 2 * r.deg ≤ n then { loc := next, old := r.loc, deg := n + 1 - r.deg, shift := 1, disc := d }
    else { r with loc := next, shift := r.shift + 1 }

/-- The error locator of eight syndromes. -/
def rsLocator (syn : List Nat) : RsSearch :=
  (List.range 8).foldl (fun r n => r.step syn n) { loc := [1], old := [1], deg := 0, shift := 1, disc := 1 }

/-- The value of a polynomial, lowest coefficient first. -/
def gfEval (l : List Nat) (x : Nat) : Nat := gfHorner l.reverse x

/-- A word of 76 bytes with up to four byte errors corrected; a word with more stays as it is. -/
def rsCorrect (l : List Nat) : List Nat :=
  let syn := rsSyndromes l
  if syn.all (· == 0) then l
  else
    let r := rsLocator syn
    let places := (List.range 76).filter fun i => gfEval r.loc (gfExp (255 - (75 - i))) == 0
    if 4 < r.deg || places.length ≠ r.deg then l
    else
      let omega := (gfProd syn r.loc).take 8
      let deriv := (r.loc.drop 1).mapIdx fun i c => if i % 2 = 0 then c else 0
      let fixed := l.mapIdx fun i c =>
        if places.contains i then
          let x := gfExp (75 - i)
          let inv := gfExp (255 - (75 - i))
          Nat.xor c (gfMul x (gfMul (gfEval omega inv) (gfInv (gfEval deriv inv))))
        else c
      if (rsSyndromes fixed).all (· == 0) then fixed else l

/-! ### Flits (R384, R385) -/

def natBytes (l : List Byte) : List Nat := l.map (·.toNat)

def byteNats (l : List Nat) : List Byte := l.map (BitVec.ofNat 8)

/-- The four header bytes of a flit in a mode (R384). -/
def Flit.header (f : Flit) (mode : Bool) : List Byte :=
  bytesOfNat 4 (field f.lseq.toNat 24 8 + field f.lack.toNat 16 8 + field f.lctl.toNat 14 2 + field f.lmode.toNat 13 1
    + field f.idle.toNat 5 1 + field f.idx.val 3 2 + (if mode then 7 else 0))

/-- A flit and its link code as they go on the wire (R385). -/
def Flit.wire (f : Flit) (mode : Bool) : List Byte :=
  let body := f.header mode ++ (f.content ++ List.replicate 60 0).take 60
  let coded := body ++ bytesOfNat 4 (crc32c body).toNat
  if mode then coded ++ byteNats (rsParity (natBytes coded)) else coded

/-- The majority of the three mode copies of a flit's first byte (R385). -/
def majorityMode (b : Byte) : Bool := decide (2 ≤ b.toNat % 2 + b.toNat / 2 % 2 + b.toNat / 4 % 2)

/-- The flit that a wire flit carries, decoded in the mode that it names, or none when its CRC fails (R385). -/
def flitOfWire (l : List Byte) : Option Flit :=
  let mode := majorityMode (l.headD 0)
  if l.length ≠ (if mode then 76 else 68) then none
  else
    let coded := if mode then byteNats ((rsCorrect (natBytes l)).take 68) else l
    let body := coded.take 64
    if natOfBytes (coded.drop 64) ≠ (crc32c body).toNat then none
    else
      let h : Word := BitVec.ofNat 64 (natOfBytes (body.take 4))
      some { lseq := BitVec.ofNat 8 (bits h 24 8), lack := BitVec.ofNat 8 (bits h 16 8)
             lctl := BitVec.ofNat 2 (bits h 14 2), lmode := bitAt h 13, idle := bitAt h 5
             idx := Fin.ofNat 4 (bits h 3 2), content := body.drop 4 }

/-! ### Slots (R387, R388) -/

/-- The code of a slot kind. -/
def slotCode : SlotKind → Nat
  | .data => 0 | .ack => 1 | .notice => 2 | .grant => 3 | .drain => 4 | .idle => 5
  | .reserved k => 6 + k.val

def slotKindOf : Nat → SlotKind
  | 0 => .data | 1 => .ack | 2 => .notice | 3 => .grant | 4 => .drain | 5 => .idle
  | n => .reserved (Fin.ofNat 10 (n - 6))

/-- Header word 0 of a slot. -/
def slotWord0 (t : FabSlot) : Nat :=
  field t.dst.toNat 46 18 + field t.dstInc.toNat 38 8 + field t.src.toNat 20 18 + field t.srcInc.toNat 12 8
    + field (slotCode t.kind) 8 4 + field t.circ.toNat 7 1 + field t.dir.toNat 6 1 + field t.kep.toNat 5 1
    + field t.rsv0.toNat 0 5

/-- Header word 1 of a slot. -/
def slotWord1 (t : FabSlot) : Nat :=
  field t.stream.toNat 48 16 + field t.seq.toNat 24 24 + field t.job.toNat 16 8 + field t.len.toNat 8 8
    + field t.rsv1.toNat 0 8

/-- Header word 3 of a slot. -/
def slotWord3 (t : FabSlot) : Nat :=
  field t.rsv3.toNat 42 22 + field t.hops.toNat 32 10 + field t.crc.toNat 0 32

/-- The 192 payload bytes of a slot. -/
def slotBody (t : FabSlot) : List Byte := (t.payload ++ List.replicate 192 0).take 192

/-- Header words 0 to 2 as bytes (R399). -/
def slotAad (t : FabSlot) : List Byte := bytesOfNat 8 (slotWord0 t) ++ bytesOfNat 8 (slotWord1 t) ++ bytesOfNat 8 t.op.toNat

/-- The 240 bytes of a slot (R387). -/
def slotBytes (t : FabSlot) : List Byte :=
  (slotAad t) ++ bytesOfNat 8 (slotWord3 t) ++ (slotBody t) ++ bytesOfNat 16 t.gcm.toNat

/-- The slot of 240 bytes (R387). -/
def slotOfBytes (l : List Byte) : FabSlot :=
  let w0 := wordOfBytes (l.take 8)
  let w1 := wordOfBytes ((l.drop 8).take 8)
  let w3 := wordOfBytes ((l.drop 24).take 8)
  { dst := BitVec.ofNat 18 (bits w0 46 18), dstInc := BitVec.ofNat 8 (bits w0 38 8)
    src := BitVec.ofNat 18 (bits w0 20 18), srcInc := BitVec.ofNat 8 (bits w0 12 8)
    kind := slotKindOf (bits w0 8 4), circ := bitAt w0 7, dir := bitAt w0 6, kep := bitAt w0 5
    rsv0 := BitVec.ofNat 5 (bits w0 0 5)
    stream := BitVec.ofNat 16 (bits w1 48 16), seq := BitVec.ofNat 24 (bits w1 24 24)
    job := BitVec.ofNat 8 (bits w1 16 8), len := BitVec.ofNat 8 (bits w1 8 8), rsv1 := BitVec.ofNat 8 (bits w1 0 8)
    op := wordOfBytes ((l.drop 16).take 8)
    rsv3 := BitVec.ofNat 22 (bits w3 42 22), hops := BitVec.ofNat 10 (bits w3 32 10)
    crc := BitVec.ofNat 32 (bits w3 0 32)
    payload := (l.drop 32).take 192, gcm := BitVec.ofNat 128 (natOfBytes ((l.drop 224).take 16)) }

/-- The checksum of a slot: over bytes 0 to 223 of the plaintext, with the fields that change in flight taken as 0
(R387). -/
def slotCrc (t : FabSlot) : BitVec 32 :=
  let z := { t with crc := 0, circ := false, dir := false, kep := false, hops := 0 }
  crc32c ((slotBytes z).take 224)

/-- Whether a slot passes the destination's check (R388). -/
def slotSound (t : FabSlot) : Bool :=
  t.crc == (slotCrc t) && decide ((slotCode t.kind) ≤ 5) && decide (t.len.toNat ≤ 192)
    && t.rsv0 == 0 && t.rsv1 == 0 && t.rsv3 == 0

/-- The flits that carry a slot, in idx order (R386, R387). -/
def slotFlits (t : FabSlot) (seq : BitVec 8) : List Flit :=
  (List.finRange 4).map fun i =>
    { lseq := seq + BitVec.ofNat 8 i.val, idx := i, content := ((slotBytes t).drop (60 * i.val)).take 60 }

end Sys2Proof.Machine
end

