-- ==== Sys2Proof/Machine/Links.lean ====
section
/-! DEFINITION. The links of the fabric: rings and routes (R382, R383, R404), sending a slot on a port (R386, R399),
receiving flits, replay, and the link-code mode (R384 to R386, R396). -/

namespace Sys2Proof.Machine

/-- Whether a feature is accepted on the panel (R370, R371). -/
def State.feature (s : State) (n : Nat) : Bool :=
  match s.primary with
  | some p => (s.die p).feature n
  | none => false

/-- The time that the fabric's timers count: cycles outside any hold (R410). -/
def State.fabTime (s : State) : Nat :=
  let b := s.fabric
  s.cycle - b.holdTotal - (if b.hold then s.cycle - b.holdAt else 0)

/-! ### Light (R403) -/

/-- How many bits of a byte are set. -/
def bitCount (v : BitVec 8) : Nat := ((List.range 8).filter fun i => natBit v.toNat i).length

/-- The wavelengths in use in both directions (R420). -/
def Port.inUse (q : Port) : BitVec 8 := q.lit &&& q.rxLit

/-- A port is up while at least four of its wavelengths are lit in both directions, or dark only for a relock (R403). -/
def Port.up (q : Port) : Bool := decide (4 ≤ bitCount ((q.lit ||| q.relocking) &&& (q.rxLit ||| q.rxRelocking)))

/-- The wavelengths that send, in ascending order. -/
def Port.lams (q : Port) : List Nat := (List.range 8).filter fun i => natBit q.lit.toNat i

/-- Whether a port can put a flit on its fibre now. -/
def Port.sends (q : Port) : Bool := q.enable && q.up && !q.lams.isEmpty

/-! ### Rings and routes (R382, R383) -/

/-- The three kinds of ring (R382), with the codes of opt_cfg.role. -/
inductive Ring where
  | module | rack | hall
  deriving DecidableEq, Repr

def Ring.code : Ring → BitVec 3
  | .module => 0 | .rack => 1 | .hall => 2

def Ring.size : Ring → Nat
  | .module => 8 | .rack => 32 | .hall => 1024

/-- A panel's place in its ring of a kind. -/
def Ring.place (r : Ring) (p : BitVec 18) : Nat :=
  match r with
  | .module => p.toNat % 8
  | .rack => p.toNat / 8 % 32
  | .hall => p.toNat / 256

/-- The members of the panel's ring of a kind (R393, R401). -/
def Fabric.ringBits (b : Fabric) : Ring → Nat
  | .module => b.members.toNat
  | .rack => b.modules.toNat
  | .hall => b.racks.toNat

/-- The panel that stands at a place of the panel's ring of a kind. -/
def Fabric.panelAt (b : Fabric) (r : Ring) (i : Nat) : BitVec 18 :=
  let me := b.panel.toNat
  BitVec.ofNat 18 (match r with
    | .module => me / 8 * 8 + i
    | .rack => me / 256 * 256 + i * 8
    | .hall => i * 256)

/-- The place d steps on in a direction. -/
def ringStep (n : Nat) (dir : Bool) (i d : Nat) : Nat := if dir then (i + n - d % n) % n else (i + d) % n

/-- The next present member in a direction. -/
def ringNext (bits n : Nat) (dir : Bool) (i : Nat) : Option Nat :=
  ((List.range n).map fun d => ringStep n dir i (d + 1)).find? fun j => natBit bits j

/-- The hops to a member in a direction, among present members. -/
def ringHops (bits n : Nat) (dir : Bool) (i j : Nat) : Nat :=
  let dist := if dir then (i + n - j) % n else (j + n - i) % n
  ((List.range dist).filter fun d => natBit bits (ringStep n dir i (d + 1))).length

/-- The direction with fewer hops; direction 0 on a tie (R383). -/
def ringDir (bits n i j : Nat) : Bool := decide (ringHops bits n true i j < ringHops bits n false i j)

/-- The hops along a ring in the better direction. -/
def ringDist (bits n i j : Nat) : Nat := min (ringHops bits n true i j) (ringHops bits n false i j)

/-- Whether a panel is present by the membership registers (R383, R401). -/
def Fabric.isMember (b : Fabric) (p : BitVec 18) : Bool :=
  let me := b.panel.toNat
  if p.toNat / 8 = me / 8 then natBit b.members.toNat (p.toNat % 8)
  else if p.toNat / 256 = me / 256 then natBit b.modules.toNat (p.toNat / 8 % 32)
  else natBit b.racks.toNat (p.toNat / 256)

/-- The ring that a slot takes next toward a panel, and the place to reach on it (R383). -/
def Fabric.leg (b : Fabric) (dst : BitVec 18) : Ring × Nat :=
  let me := b.panel.toNat
  let d := dst.toNat
  if d / 8 = me / 8 then (.module, d % 8)
  else if me % 8 ≠ 0 then (.module, 0)
  else if d / 256 = me / 256 then (.rack, d / 8 % 32)
  else if me % 256 ≠ 0 then (.rack, 0)
  else (.hall, d / 256)

/-- The next hop of a slot: ring, direction and peer. A slot already on that ring keeps its direction; none when the
place to reach, or the next member, is not present. -/
def Fabric.nextHop (b : Fabric) (dst : BitVec 18) (on : Option (Ring × Bool)) : Option (Ring × Bool × BitVec 18) :=
  let (r, j) := b.leg dst
  let bits := b.ringBits r
  let i := r.place b.panel
  let fresh := ringDir bits r.size i j
  let dir := match on with
    | some (r', d) => if r' = r then d else fresh
    | none => fresh
  if !natBit bits j then none
  else (ringNext bits r.size dir i).map fun k => (r, dir, b.panelAt r k)

/-- The ring that a port belongs to: by its role, or for a path by its peer. -/
def Fabric.portRing (b : Fabric) (q : Port) : Ring :=
  if q.role = 0 then .module else if q.role = 1 then .rack else if q.role = 2 then .hall
  else if q.peer.toNat / 8 = b.panel.toNat / 8 then .module
  else if q.peer.toNat / 256 = b.panel.toNat / 256 then .rack else .hall

/-- The length of a slot's path (R383, R392): rings whose registers the panel does not hold have members that the spec
leaves to them. -/
def Fabric.pathLen (b : Fabric) (dst : BitVec 18) : Nat :=
  let me := b.panel.toNat
  let d := dst.toNat
  let down := ringDist (Config.ringMembers (d / 8)).toNat 8 0 (d % 8)
  let up := ringDist b.members.toNat 8 (me % 8) 0
  if d / 8 = me / 8 then ringDist b.members.toNat 8 (me % 8) (d % 8)
  else if d / 256 = me / 256 then up + ringDist b.modules.toNat 32 (me / 8 % 32) (d / 8 % 32) + down
  else up + ringDist b.modules.toNat 32 (me / 8 % 32) 0 + ringDist b.racks.toNat 1024 (me / 256) (d / 256)
    + ringDist (Config.ringModules (d / 256)).toNat 32 0 (d / 8 % 32) + down

/-- The hops field of a slot at its source (R392): its path and the members of the destination's ring. -/
def Fabric.hopsTo (b : Fabric) (dst : BitVec 18) : BitVec 10 :=
  let ring := if dst.toNat / 8 = b.panel.toNat / 8 then b.members else Config.ringMembers (dst.toNat / 8)
  BitVec.ofNat 10 (b.pathLen dst + bitCount ring)

/-- Whether a path of this panel is the one that a port belongs to: its identifier and its far end (R407). -/
def Path.isOf (h : Path) (q : Port) : Bool := h.path == q.path && h.pkt.target == q.peer && decide (h.state ≠ 0)

/-- Whether a path port's path is in its set: a path of this panel's own from Up until it leaves Tearing; another panel's
when its port is up (R404, R409). -/
def Fabric.pathUp (b : Fabric) (q : Port) : Bool :=
  match b.paths.toList.find? fun h => h.isOf q with
  | some h => h.state == 4 || h.state == 5
  | none => true

/-- The flits queued at a port (R404). -/
def Port.queued (q : Port) : Nat := 4 * q.waiting.length + (q.replay.length - q.pos)

/-- The port set of a hop for a role: the enabled, up ports that share it, the direction and the peer (R404). -/
def Fabric.portSet (b : Fabric) (role : BitVec 3) (dir : Bool) (peer : BitVec 18) : List PortId :=
  (List.finRange 576).filter fun p =>
    let q := b.ports[p]
    q.enable && q.up && q.dir == dir && q.peer == peer && q.role == role && (role != 3 || b.pathUp q)

/-- The port with the fewest flits queued among some, the lowest number on a tie (R404). -/
def Fabric.leastQueued (b : Fabric) (l : List PortId) : Option PortId :=
  l.foldl (fun best p => match best with
    | none => some p
    | some o => if b.ports[p].queued < b.ports[o].queued then some p else some o) none

/-- The port that a slot takes for a hop (R404): of the port set of the ring's role, or, with none there, of the path's. -/
def State.pickPort (s : State) (r : Ring) (dir : Bool) (peer : BitVec 18) : Option PortId :=
  let b := s.fabric
  (b.leastQueued (b.portSet r.code dir peer)).or (b.leastQueued (b.portSet 3 dir peer))

/-! ### Sending on a port (R386, R399, R403) -/

/-- The cycles that a wire flit takes: 25 bits a cycle on each lit wavelength (R403). -/
def flitCycles (bytes lams : Nat) : Nat := (8 * bytes + 25 * lams - 1) / (25 * lams)

/-- Makes a port's transmitter look for flits to send. -/
def State.wake (s : State) (p : PortId) : State := s.modFabric fun b => { b with busy := addNew b.busy p }

/-- Puts a flit on the fibre at a flit boundary: with the port's lack, a link control that is due, in its sending mode,
striped over the wavelengths that send (R384, R385, R403). -/
def Port.emit (q : Port) (cycle : Nat) (f : Flit) : Port :=
  let wire := { f with lack := q.lack }.wire q.mode
  let lams := q.lams
  { q with sent := q.sent ++ [wire.mapIdx fun i b => (b, lams.getD (i % lams.length) 0)]
           sendCtl := 0, lastSent := cycle, freeAt := cycle + flitCycles wire.length lams.length }

/-- A flit with the link control that a port has to send; a flit sent again keeps the one it has (R396). -/
def Port.control (q : Port) (f : Flit) : Flit :=
  if q.sendCtl = 0 then f else { f with lctl := q.sendCtl, lmode := q.ctlMode }

/-- The lseq of the last flit sent that was not idle (R386). -/
def Port.lastSeq (q : Port) : BitVec 8 := q.nextSeq - 1 - BitVec.ofNat 8 (q.replay.length - q.pos)

/-- A port's transmitter at a flit boundary (R386): the next flit of the replay buffer, or an idle flit that is due. -/
def Port.transmit (q : Port) (cycle : Nat) : Port :=
  match q.replay[q.pos]? with
  | some f =>
    let f := q.control f
    { q.emit cycle f with replay := q.replay.set q.pos f, pos := q.pos + 1 }
  | none => { q.emit cycle (q.control { lseq := q.lastSeq, idle := true }) with idleDue := false }

/-- Whether a port has something to send. -/
def Port.hasFlit (q : Port) : Bool := decide (q.pos < q.replay.length) || q.idleDue

/-- The transmitters of the busy ports in a cycle: each sends its next flit at its own flit boundary (R403, R405). -/
def State.transmitAll (s : State) : State :=
  s.fabric.busy.foldl (fun s p =>
    let q := s.port p
    if !q.hasFlit then s.modFabric fun b => { b with busy := b.busy.erase p }
    else if !q.sends || decide (s.cycle < q.freeAt) then s
    else s.modPort p fun q => q.transmit s.cycle) s

/-- The initialisation vector of a slot (R399): panel, port, four zero bits and the count of the key entry. -/
def ivOf (panel : BitVec 18) (port : BitVec 10) (count : Nat) : BitVec 96 :=
  panel ++ port ++ (0 : BitVec 4) ++ BitVec.ofNat 64 count

/-- The key entry of a job on a port. -/
def Port.key (q : Port) (job : BitVec 8) : Option KeyEntry := q.keys.find? fun e => e.job == job

def Port.setKey (q : Port) (e : KeyEntry) : Port := { q with keys := replaceIf (fun o => o.job == e.job) (fun _ => e) q.keys }

/-- A data slot encrypted for a port with its job's current key (R399). -/
def sealSlot (me : BitVec 18) (p : PortId) (e : KeyEntry) (t : FabSlot) : FabSlot :=
  let t := { t with kep := e.epoch % 2 == 1 }
  let r := gcmSeal e.cur (ivOf me (BitVec.ofNat 10 p.val) e.count) (slotAad t) (slotBody t)
  { t with payload := r.1, gcm := r.2 }

/-- Whether a waiting slot may start on a port: during a hold no data slot and no grant slot does (R410), and no data slot
of a job whose count is spent (R399). -/
def State.mayStart (s : State) (q : Port) (w : PortWait) : Bool :=
  match w.slot.kind with
  | .data => !s.fabric.hold && (match q.key w.slot.job with
    | some e => decide (e.count < 2 ^ 64)
    | none => true)
  | .grant => !s.fabric.hold
  | _ => true

/-- Starts the four flits of a slot (R386): they enter the replay buffer, from which they go out in order. -/
def State.startFlits (s : State) (p : PortId) (t : FabSlot) : State :=
  let q := s.port p
  let s := s.modPort p fun q =>
    { q with replay := q.replay ++ slotFlits t q.nextSeq, nextSeq := q.nextSeq + 4
             ackAt := if q.replay.isEmpty then s.cycle else q.ackAt
             ackTwice := if q.replay.isEmpty then false else q.ackTwice }
  let s := s.wake p
  if q.replay.isEmpty then s.sched (s.cycle + 4096) .linkReplay { port := p, seq := s.cycle } else s

/-- Takes a waiting slot to the fibre; a data slot whose port has no key of its job is discarded and counted (R399). -/
def State.startPortSlot (s : State) (p : PortId) (w : PortWait) : State :=
  let s := s.modPort p fun q => { q with waiting := q.waiting.filter fun o => o.id != w.id }
  if w.slot.kind == .drain then (s.modPort p fun q => { q with markerSent := true }).startFlits p w.slot
  else if w.slot.kind != .data then s.startFlits p w.slot
  else match (s.port p).key w.slot.job with
    | none => s.modPort p fun q => { q with tagFail := satInc q.tagFail }
    | some e =>
      let s := s.modPort p fun q => q.setKey { e with count := e.count + 1 }
      s.startFlits p (sealSlot s.fabric.panel p e w.slot)

/-- Starts the slots that wait at a port, oldest first, while the replay buffer has room for them (R386). -/
def State.pumpN (s : State) (p : PortId) : Nat → State
  | 0 => s
  | n + 1 =>
    let q := s.port p
    if !q.sends || 255 < q.replay.length + 4 then s
    else match q.waiting.find? (s.mayStart q) with
      | none => s
      | some w => (s.startPortSlot p w).pumpN p n

def State.pump (s : State) (p : PortId) : State := s.pumpN p (s.port p).waiting.length

/-- Cycles after which a slot has waited at a port for more than 100 microseconds (R392). -/
def portWait : Nat := 200000

/-- Queues a slot at a port, at which it has waited since a fabric time. -/
def State.queueSince (s : State) (p : PortId) (t : FabSlot) (since : Nat) : State :=
  let id := s.fresh
  let w : PortWait := { id := id, slot := t, since := since }
  let s := ((s.modPort p fun q => { q with waiting := q.waiting ++ [w] }).takeFresh).pump p
  if (s.port p).waiting.any fun w => w.id == id then
    s.sched (s.cycle + (portWait + 1 - (s.fabTime - since))) .slotPortWaitExpiry { port := p, id := id }
  else s

/-- Queues a slot at a port. -/
def State.queueAt (s : State) (p : PortId) (t : FabSlot) : State := s.queueSince p t s.fabTime

/-- Hands a slot for this panel to the step that its kind names (R387). -/
def State.deliver (s : State) (p : PortId) (t : FabSlot) : State :=
  let act : Instr := match t.kind with
    | .data | .idle | .reserved _ => .slotArrival
    | .ack => .slotAckArrival
    | .notice => .refusalNoticeArrival
    | .grant => .grantArrival
    | .drain => .drainMarkerArrival
  s.sched s.cycle act { port := p, slot := t, panel := t.src, stream := t.stream, slotSeq := t.seq }

/-- Sends a slot on toward its destination, from a ring or from its source: to a port of the hop's set, or, with no port
in the set, to the slots that wait for one (R383, R404). A slot whose path no longer exists is discarded and counted as
expired (R410). One that has waited at a port, or for one, since a fabric time goes on waiting where it stays (R392). -/
def State.sendSince (s : State) (t : FabSlot) (on : Option (Ring × Bool)) (was : Option PortId) (since : Nat) : State :=
  match s.fabric.nextHop t.dst on with
  | none => s.modFabric fun b => { b with expired := satInc b.expired }
  | some (r, dir, peer) =>
    let t := { t with dir := dir }
    match s.pickPort r dir peer with
    | some p => s.queueSince p t (if was = some p then since else s.fabTime)
    | none =>
      let w : PortWait := { id := s.fresh, slot := t, since := if was.isNone then since else s.fabTime }
      ((s.modFabric fun b => { b with stuck := b.stuck ++ [w] }).takeFresh).sched
        (s.cycle + (portWait + 1 - (s.fabTime - w.since))) .slotPortWaitExpiry { id := w.id, flag := true }

/-- Sends a slot that has not waited yet. -/
def State.sendOut (s : State) (t : FabSlot) (on : Option (Ring × Bool)) : State := s.sendSince t on none s.fabTime

/-- Sends a slot from this panel; one for the panel itself crosses no link. -/
def State.sendFrom (s : State) (t : FabSlot) : State :=
  if t.dst = s.fabric.panel then s.deliver 0 t else s.sendOut t none

/-- A slot of the panel's own with its checksum (R387). -/
def slotReady (t : FabSlot) : FabSlot := { t with crc := slotCrc t }

/-- Slots that wait for a port of their hop's set try again (R404). -/
def State.scanStuck (s : State) : State :=
  s.fabric.stuck.foldl (fun s w =>
    let on := some ((s.fabric.leg w.slot.dst).1, w.slot.dir)
    match s.fabric.nextHop w.slot.dst on with
    | none => s
    | some (r, dir, peer) =>
      match s.pickPort r dir peer with
      | none => s
      | some p =>
        (s.modFabric fun b => { b with stuck := b.stuck.filter fun o => o.id != w.id }).queueAt p w.slot) s

/-! ### Receiving flits (R385, R386, R399) -/

/-- The first count from one on with which a received slot opens, and what it opens to. -/
def openFrom (opens : Nat → Option (List Byte)) : Nat → Nat → Option (Nat × List Byte)
  | 0, _ => none
  | fuel + 1, n =>
    match opens n with
    | some l => some (n, l)
    | none => openFrom opens fuel (n + 1)

/-- Opens a data slot that a port has received, with the key that kep selects (R399): the slot in plain, and the key entry
with its count moved on. The IV counts the slots that the sender has encrypted, those among them that never came; the
receiving port follows that count: DESIGN CHOICE (log 175). -/
def openSlot (q : Port) (p : PortId) (t : FabSlot) : Option (Option FabSlot × KeyEntry) :=
  (q.key t.job).bind fun e =>
    let cur := t.kep == (e.epoch % 2 == 1)
    let key := if cur then some e.cur else e.prev
    let n := if cur then e.rxCur else e.rxPrev
    key.map fun k =>
      let opens (n : Nat) : Option (List Byte) :=
        gcmOpen k (ivOf q.peer (Config.farPort p.val q.peer) n) (slotAad t) (slotBody t) t.gcm
      match openFrom opens (2 ^ 64 - n) n with
      | none => (none, e)
      | some (m, l) =>
        (some { t with payload := l, gcm := 0 }, if cur then { e with rxCur := m + 1 } else { e with rxPrev := m + 1 })

/-- A slot that fails at a port is discarded and counted (R399). -/
def State.tagFails (s : State) (p : PortId) : State := s.modPort p fun q => { q with tagFail := satInc q.tagFail }

/-- Takes a slot that a port has received to its next step: its arrival here, or its way on. A panel that has joined no
ring takes none (R394). -/
def State.passOn (s : State) (p : PortId) (t : FabSlot) : State :=
  if !s.fabric.joined then s
  else if t.dst = s.fabric.panel then s.deliver p t else s.sched s.cycle .slotForward { port := p, slot := t }

/-- A port has received a whole slot: a data slot is decrypted first (R399). -/
def State.slotIn (s : State) (p : PortId) (t : FabSlot) : State :=
  if t.kind != .data then s.passOn p t
  else match openSlot (s.port p) p t with
    | none => s.tagFails p
    | some (plain, e) =>
      let s := s.modPort p fun q => q.setKey e
      match plain with
      | none => s.tagFails p
      | some t => s.passOn p t

/-- Takes the lack of a flit (R386): it frees the flits that it acknowledges; the same lack twice while later flits are
unacknowledged starts a replay. -/
def State.takeLack (s : State) (p : PortId) (lack : BitVec 8) : State :=
  let q := s.port p
  let n := (lack - q.lastAck).toNat
  if n = 0 then
    if q.pos = 0 then s
    else if q.ackTwice then
      (s.modPort p fun q => { q with ackTwice := false }).sched s.cycle .linkReplay { port := p, flag := true }
    else s.modPort p fun q => { q with ackTwice := true }
  else if n ≤ q.replay.length then
    let s := s.modPort p fun q =>
      { q with lastAck := lack, replay := q.replay.drop n, pos := q.pos - n, ackAt := s.cycle
               ackTwice := decide (n < q.replay.length) }
    let s := if n < q.replay.length then s.sched (s.cycle + 4096) .linkReplay { port := p, seq := s.cycle } else s
    s.pump p
  else s

/-- MODE_REQUEST_RECEIVED (R396): a request makes this end send in its mode and answer; of two requests for different modes
that cross, the end with the higher panel identifier keeps its own. An answer ends this end's request. Without feature bit 6 no
mode changes. -/
def State.takeMode (s : State) (p : PortId) (f : Flit) : State :=
  let q := s.port p
  if !s.feature 6 then s
  else if f.lctl = 1 then
    let crosses := match q.modeWait with
      | some (m, _, _) => m != f.lmode
      | none => false
    if crosses && q.peer < s.fabric.panel then s
    else s.modPort p fun q =>
      { q with mode := f.lmode, sendCtl := 2, ctlMode := f.lmode, modeWait := if crosses then none else q.modeWait }
  else if f.lctl = 2 then
    match q.modeWait with
    | some (m, _, _) => if m = f.lmode then s.modPort p fun q => { q with mode := m, modeWait := none } else s
    | none => s
  else s

/-- The bytes of a wire flit, if each came on the wavelength on which the receiver takes it (R403, R405). -/
def Port.gather (q : Port) (l : WireFlit) : Option (List Byte) :=
  let lams := (List.range 8).filter fun i => natBit q.rxLit.toNat i
  if (l.mapIdx fun i b => b.2 == lams.getD (i % lams.length) 8).all id then some (l.map fun b => b.1) else none

/-- A flit that the receiver accepts: its header acts, and its slot's fourth flit completes the slot (R386, R396). -/
def State.acceptFlit (s : State) (p : PortId) (f : Flit) : State :=
  let s := (s.takeLack p f.lack).takeMode p f
  let parts := (if f.idx = 0 then [] else (s.port p).partFlits) ++ [f]
  let s := s.modPort p fun q =>
    { q with expectSeq := q.expectSeq + 1, lack := f.lseq, partFlits := if f.idx = 3 then [] else parts }
  if f.idx = 3 && parts.length = 4 then s.slotIn p (slotOfBytes (parts.flatMap fun f => f.content)) else s

/-- FLIT_RECEIVE (R385, R386, R405): a flit that fails its code, or whose bytes did not come on the wavelengths in use, is
discarded; of an idle flit only lack, lctl and lmode are taken; another is accepted only if its lseq is the next. -/
def execFlitReceive (s : State) : Host.Outcome State Fault Refusal :=
  let p := s.ev.port
  let q := s.port p
  .next (if !q.enable || !q.up then s
    else match (q.gather s.ev.wire).bind flitOfWire with
      | none => s
      | some f =>
        if f.idle then (s.takeLack p f.lack).takeMode p f
        else if f.lseq ≠ q.expectSeq then s
        else s.acceptFlit p f)

/-- LINK_REPLAY (R386): the transmitter sends again every flit from lack + 1 on, because the same lack came twice (`flag`)
or none has advanced for 4,096 cycles. A timer that an advance of lack has overtaken does nothing. -/
def execLinkReplay (s : State) : Host.Outcome State Fault Refusal :=
  let p := s.ev.port
  let q := s.port p
  .next (if q.replay.isEmpty || (!s.ev.flag && s.ev.seq ≠ q.ackAt) then s
    else
      let s := (s.modPort p fun q =>
        { q with pos := 0, ackTwice := false
                 replays := if q.replays = BitVec.allOnes 24 then q.replays else q.replays + 1 }).wake p
      if s.ev.flag then s
      else
        (s.modPort p fun q => { q with ackAt := s.cycle }).sched (s.cycle + 4096) .linkReplay { port := p, seq := s.cycle })

/-- LACK_IDLE_FLIT (R386): a port that has sent nothing for 512 cycles sends an idle flit with its lack. -/
def execLackIdleFlit (s : State) : Host.Outcome State Fault Refusal :=
  let p := s.ev.port
  let q := s.port p
  .next (if !q.enable || !q.up then s
    else if s.cycle < q.lastSent + 512 && s.ev.flag then s.sched (q.lastSent + 512) .lackIdleFlit { port := p, flag := true }
    else
      ((s.modPort p fun q => { q with idleDue := true }).wake p).sched (s.cycle + 512) .lackIdleFlit
        { port := p, flag := true })

/-! ### Change of the link-code mode (R396) -/

/-- LNK_MODE_WRITE (R396): with feature bit 6, a mode other than the sending mode is requested on the next flit. -/
def execLnkModeWrite (s : State) : Host.Outcome State Fault Refusal :=
  let p := s.ev.port
  let m := s.ev.flag
  .next (if !s.feature 6 then s
    else if (s.port p).mode = m then s.modPort p fun q => { q with modeReq := m, modeWait := none }
    else
      ((s.modPort p fun q => { q with modeReq := m, modeWait := some (m, s.fresh, 8), sendCtl := 1, ctlMode := m }).takeFresh).sched
        (s.cycle + 4096) .modeRequestTimeout { port := p, id := s.fresh })

/-- MODE_REQUEST_TIMEOUT (R396): the request goes out again, up to eight times; then lc_fail is set and the mode kept. -/
def execModeRequestTimeout (s : State) : Host.Outcome State Fault Refusal :=
  let p := s.ev.port
  .next (match (s.port p).modeWait with
    | none => s
    | some (m, id, left) =>
      if id ≠ s.ev.id then s
      else if left = 0 then s.modPort p fun q => { q with modeWait := none, lcFail := true }
      else
        (s.modPort p fun q => { q with modeWait := some (m, id, left - 1), sendCtl := 1, ctlMode := m }).sched
          (s.cycle + 4096) .modeRequestTimeout { port := p, id := id })

end Sys2Proof.Machine
end

