-- ==== Sys2Proof/Machine/QueuePairs.lean ====
section
/-! DEFINITION. Queue pairs of the fabric engine (R412 to R422): contexts, translation of local addresses, completions,
the error state, doorbells and the serving of work entries. -/

namespace Sys2Proof.Machine

/-! ### Contexts in memory (R412) -/

def State.qp (s : State) (n : Fin 8192) : QPair := Sparse.read s.fabric.qps {} n.val

def State.setQp (s : State) (n : Fin 8192) (q : QPair) : State :=
  s.modFabric fun b => { b with qps := Sparse.write b.qps {} n.val q }

def State.modQp (s : State) (n : Fin 8192) (f : QPair → QPair) : State := s.setQp n (f (s.qp n))

def Fabric.qpAddr (b : Fabric) (n : Fin 8192) : Nat := b.qpBase.toNat * 128 + 128 * n.val

def Fabric.cqAddr (b : Fabric) (n : Fin 8192) : Nat := b.cqBase.toNat * 32 + 32 * n.val

/-- Writes a word at a physical address, if memory is fitted there. -/
def State.putPhys (s : State) (pa : Nat) (w : Word) : State :=
  if s.physOk pa then s.writeMem pa (bytesOfWord w) else s

/-- The context that memory holds for a queue pair, made ready (R412, R420); one that memory holds in state 2 or 3 is in
error. -/
def State.loadedQp (s : State) (n : Fin 8192) : QPair :=
  let a := s.fabric.qpAddr n
  let w (i : Nat) : Word := s.readMem64 (a + 8 * i)
  { state := if 2 ≤ bits (w 0) 62 2 then 2 else 1, job := BitVec.ofNat 8 (bits (w 0) 48 8), pkey := BitVec.ofNat 12 (bits (w 0) 32 12)
    peerQp := Fin.ofNat 8192 (bits (w 0) 18 13), peer := BitVec.ofNat 18 (bits (w 0) 0 18)
    root := BitVec.ofNat 64 (field (bits (w 1) 12 31) 12 31 + bits (w 1) 0 1)
    sqSize := bits (w 2) 59 5, sqBase := BitVec.ofNat 64 (field (bits (w 2) 6 42) 6 42)
    rqSize := bits (w 3) 59 5, rqBase := BitVec.ofNat 64 (field (bits (w 3) 6 42) 6 42)
    regSize := bits (w 4) 58 6, regBase := BitVec.ofNat 64 (bits (w 4) 0 48)
    sHead := BitVec.ofNat 32 (bits (w 5) 32 32), sTail := BitVec.ofNat 32 (bits (w 5) 0 32)
    rHead := BitVec.ofNat 32 (bits (w 6) 32 32), rTail := BitVec.ofNat 32 (bits (w 6) 0 32)
    cq := Fin.ofNat 8192 (bits (w 7) 0 13) }

/-- Writes a queue pair's state, heads and tails back to its context (R412). -/
def State.syncQp (s : State) (n : Fin 8192) : State :=
  let q := s.qp n
  let a := s.fabric.qpAddr n
  let w0 := s.readMem64 a
  let s := s.putPhys a (BitVec.ofNat 64 (field q.state.val 62 2 + bits w0 0 62))
  let s := s.putPhys (a + 40) (BitVec.ofNat 64 (field q.sHead.toNat 32 32 + q.sTail.toNat))
  s.putPhys (a + 48) (BitVec.ofNat 64 (field q.rHead.toNat 32 32 + q.rTail.toNat))

/-! ### Local addresses (R412, R416 to R418) -/

/-- How the translation of a run of local bytes ends. -/
inductive LocalRun where
  | ok (l : List (Nat × Nat))
  | migrating
  /-- A table word with an uncorrectable error (R302). -/
  | badEcc
  | fault (va : Word) (k : FaultKind) (level : Nat)
  deriving DecidableEq, Repr

/-- The physical runs of local bytes (R416): each page by the queue pair's own root. -/
def State.localRun (s : State) (root va : Word) (perm : Perm) : List (Nat × Nat) → LocalRun
  | [] => .ok []
  | (off, n) :: r =>
    let a := va + BitVec.ofNat 64 off
    match walkTable s root a perm with
    | .migrating => .migrating
    | .badEcc => .badEcc
    | .fault k level => .fault a k level
    | .ok e =>
      let pa := e.phys' a
      if s.refusesAt pa n then .migrating
      else match s.localRun root va perm r with
        | .ok l => .ok ((pa, n) :: l)
        | o => o

/-- The runs of n local bytes. -/
def State.localBytes (s : State) (root va : Word) (n : Nat) (perm : Perm) : LocalRun :=
  s.localRun root va perm (virtParts va.toNat n (n / 2 ^ 16 + 2) 0)

/-- Whether the fabric engine stands at a fault that has not been disposed of (R417, R418). -/
def State.fabFaulted (s : State) (k : FabReq) : Bool :=
  match s.primary with
  | some p => (s.die p).faulted (.fabric k)
  | none => false

/-- Tries to reach local bytes: a fault goes to the fault queue of the primary designated die and waits for its service;
a denied one ends with its code (R417, R418). -/
def State.fabTry (s : State) (k : FabReq) (root va : Word) (n : Nat) (perm : Perm) : State × Tried :=
  match s.localBytes root va n perm with
  | .ok l => (s, .done l)
  | .migrating => (s, .migrating)
  | .badEcc => (s, .fails 6)
  | .fault a kind level =>
    match s.fabric.failed.find? fun e => e.1 == k with
    | some e => (s.modFabric fun b => { b with failed := b.failed.filter fun o => o.1 != k }, .fails e.2)
    | none =>
      match s.primary with
      | none => (s, .fails 2)
      | some p =>
        if (s.die p).faulted (.fabric k) then (s, .waits)
        else
          let w : Walk := { id := s.fresh, root := root, va := a, perm := perm, who := .fabric k }
          let f : FaultRec := { walk := w, kind := kind, level := level }
          ((s.modDie p fun x => { x with faults := x.faults ++ [f] }).takeFresh, .waits)

/-! ### Completions and the error state (R417, R418, R422) -/

/-- Puts a completion in line. -/
def State.addDue (s : State) (c : Completion) : State := s.modFabric fun b => { b with due := b.due ++ [c] }

/-- A completion of a queue pair. -/
def State.completionOf (s : State) (n : Fin 8192) (wrId : Word) (status : BitVec 8) (op : BitVec 4) (recv : Bool)
    (bytes : Nat) (src : Word) : Completion :=
  let q := s.qp n
  { qp := n, cq := q.cq, root := q.root, wrId := wrId, status := status, op := op, recv := recv, bytes := bytes
    from_ := src }

/-- A queue pair enters error (R418, R422): its work in progress completes with status 0x05 and the bytes acknowledged,
after what was already due and in queue order; its posted entries follow as they are served. -/
def State.qpFails (s : State) (n : Fin 8192) : State :=
  if (s.qp n).state = 2 then s
  else
    let s := (s.modQp n fun q => { q with state := 2 }).syncQp n
    let mine := s.fabric.works.filter fun w => w.qp == n && w.op != 2
    let s := mine.foldl (fun s w => s.addDue (s.completionOf n w.wrId 5 w.op false w.acked 0)) s
    s.modFabric fun b => { b with works := b.works.filter fun w => w.qp != n }

/-- The completion that a work entry's end brings (R417, R418): a failure always writes one, with the bytes that have been
acknowledged or committed, a success if signalled. The answer to a READ has no entry of its own. -/
def State.workDue (s : State) (status : BitVec 8) (w : Work) : State :=
  if w.op = 2 || (status = 0 && !w.signal) then s
  else s.addDue (s.completionOf w.qp w.wrId status w.op false (if status = 0 then w.len else w.acked) 0)

/-- Work entries end with one status (R417, R418); a failure puts their queue pairs into error. -/
def State.endWorks (s : State) (l : List Work) (status : BitVec 8) : State :=
  let s := s.modFabric fun b => { b with works := b.works.filter fun o => !l.any fun w => w.id == o.id }
  let s := l.foldl (fun s w => s.workDue status w) s
  if status = 0 then s else (l.filter fun w => w.op != 2).foldl (fun s w => s.qpFails w.qp) s

/-- A work entry ends with a status. -/
def State.endWork (s : State) (w : Work) (status : BitVec 8) : State := s.endWorks [w] status

/-- The queue pairs that have a context. -/
def Fabric.qpNums (b : Fabric) : List (Fin 8192) := b.qps.map fun e => Fin.ofNat 8192 e.1

/-- A completion queue that is full, or whose entry cannot be reached, puts its queue pairs into error (R417, R418). -/
def State.cqFails (s : State) (c : Fin 8192) : State :=
  s.fabric.qpNums.foldl (fun s n => if (s.qp n).cq = c then s.qpFails n else s) s

/-- Adds 1 to the fold that a notify word names, by the rule of `rsig` (R318, R417). -/
def State.notifyFold (s : State) (far : Word) : State :=
  match s.primary, farKind far with
  | some p, some (.fold v f) =>
    let e := (s.die p).vtab[Fin.ofNat 256 v.toNat]
    if e.present && !e.lost && (s.die e.phys).inService && (s.die e.phys).incarnation == e.inc then
      s.foldEvt e.phys f (.add 1)
    else s
  | _, _ => s

/-- The four words of a completion entry (R417). -/
def Completion.words (c : Completion) (phase : Bool) : List Word :=
  [c.wrId,
   BitVec.ofNat 64 (field phase.toNat 63 1 + field c.status.toNat 48 8 + field c.op.toNat 44 4 + field c.qp.val 31 13
     + field c.recv.toNat 30 1),
   BitVec.ofNat 64 (field c.bytes 0 32), c.from_]

/-- COMPLETION_WRITE (R417): the entry at the tail, the tail and the phase, and then the notify fold. The completion
leaves the line; false while it waits for a fault's service or a migrating page. -/
def State.post (s : State) (c : Completion) : State × Bool :=
  let a := s.fabric.cqAddr c.cq
  let w0 := s.readMem64 a
  let w1 := s.readMem64 (a + 8)
  let size := bits w0 59 5
  let tail := bits w1 0 32
  let head := bits (s.readMem64 (a + 24)) 0 32
  let out (s : State) : State := s.modFabric fun b => { b with due := b.due.erase c }
  if (tail + 2 ^ 32 - head) % 2 ^ 32 = 2 ^ size then ((out s).cqFails c.cq, true)
  else
    let va : Word := BitVec.ofNat 64 (field (bits w0 6 42) 6 42 + 32 * (tail % 2 ^ size))
    match s.fabTry (.cq c.cq) c.root va 32 .write with
    | (s, .migrating) => (s, false)
    | (s, .waits) => (s, false)
    | (s, .fails _) => ((out s).cqFails c.cq, true)
    | (s, .done l) =>
      let s := (out s).runWrite l ((c.words (bitAt w1 32)).flatMap bytesOfWord)
      let tail' := (tail + 1) % 2 ^ 32
      let phase := bitAt w1 32 != decide (tail' % 2 ^ size = 0)
      let s := s.putPhys (a + 8) (BitVec.ofNat 64 (field (bits w1 33 31) 33 31 + field phase.toNat 32 1 + tail'))
      let far := s.readMem64 (a + 16)
      (if far = 0 then s else s.notifyFold far, true)

/-- Posts the completions in line; one that waits holds those behind it in its queue. -/
def State.postList (s : State) : List Completion → List (Fin 8192) → State
  | [], _ => s
  | c :: r, held =>
    if held.contains c.cq then s.postList r held
    else
      let (s, went) := s.post c
      s.postList r (if went then held else c.cq :: held)

def State.postDue (s : State) : State := s.postList s.fabric.due []

/-! ### Commands and doorbells (R414, R419, R420) -/

/-- Drops the work of a queue pair that is loaded or reset. Slots it has sent stay outstanding: their numbers are the
pair's (R389). -/
def State.dropWork (s : State) (n : Fin 8192) : State :=
  s.modFabric fun b =>
    { b with works := b.works.filter fun w => w.qp != n
             lost := b.lost.filter fun l => l.1.toNat != n.val
             failed := b.failed.filter fun e => e.1 != .entry n && e.1 != .bytes n }

/-- QP_LOAD (R418 to R420): the context is loaded and the queue pair ready; an error is left only by a reset. -/
def execQpLoad (s : State) : Host.Outcome State Fault Refusal :=
  let n := s.ev.qp
  .next (if !s.feature 5 || (s.qp n).state = 2 then s
    else ((s.dropWork n).setQp n (s.loadedQp n)).syncQp n)

/-- QP_RESET (R418, R420). -/
def execQpReset (s : State) : Host.Outcome State Fault Refusal :=
  let n := s.ev.qp
  .next (if !s.feature 5 then s
    else ((s.dropWork n).modQp n fun q => { q with state := 0 }).syncQp n)

/-- QP_ERROR (R420, R422). -/
def execQpError (s : State) : Host.Outcome State Fault Refusal :=
  .next (if !s.feature 5 then s else (s.qpFails s.ev.qp).postDue)

/-- Takes a doorbell's tail for one of the queues: a tail within range is the tail; one out of range puts the queue pair
into error, with a completion of its own, and names no entries (R414). -/
def State.ring (s : State) (n : Fin 8192) (recv : Bool) (t : BitVec 32) : State :=
  let q := s.qp n
  let head := if recv then q.rHead else q.sHead
  let size := if recv then q.rqSize else q.sqSize
  if (t - head).toNat ≤ 2 ^ size then s.modQp n fun q => if recv then { q with rTail := t } else { q with sTail := t }
  else (s.addDue (s.completionOf n (BitVec.allOnes 64) 3 0 recv 0 0)).qpFails n

/-- DOORBELL_WRITE (R414): the send tail from the low half and the receive tail from the high half. A queue pair in reset
has no tails. -/
def execDoorbellWrite (s : State) : Host.Outcome State Fault Refusal :=
  let n := s.ev.qp
  .next (if (s.qp n).state = 0 then s
    else
      let s := s.ring n false (BitVec.ofNat 32 (bits s.ev.val 0 32))
      let s := s.ring n true (BitVec.ofNat 32 (bits s.ev.val 32 32))
      (s.syncQp n).postDue)

/-! ### Serving entries (R413, R415, R418) -/

/-- The words of an entry of a queue pair's queue, as far as they can be reached. -/
def State.entryWords (s : State) (n : Fin 8192) (recv : Bool) : State × Tried :=
  let q := s.qp n
  if recv then s.fabTry (.entry n) q.root (q.rqBase + BitVec.ofNat 64 (32 * (q.rHead.toNat % 2 ^ q.rqSize))) 32 .read
  else s.fabTry (.entry n) q.root (q.sqBase + BitVec.ofNat 64 (64 * (q.sHead.toNat % 2 ^ q.sqSize))) 64 .read

/-- Moves a queue's head past one entry. -/
def State.pastEntry (s : State) (n : Fin 8192) (recv : Bool) : State :=
  (s.modQp n fun q => if recv then { q with rHead := q.rHead + 1 } else { q with sHead := q.sHead + 1 }).syncQp n

/-- Word i of some bytes. -/
def wordAt (l : List Byte) (i : Nat) : Word := wordOfBytes ((l.drop (8 * i)).take 8)

/-- Whether a send entry is invalid (R413). -/
def entryBad (l : List Byte) : Bool :=
  let op := bits (wordAt l 0) 60 4
  (op != 0 && op != 1 && op != 3) || bits (wordAt l 0) 32 27 != 0
    || wordAt l 4 != 0 || wordAt l 5 != 0 || wordAt l 6 != 0 || wordAt l 7 != 0

/-- How many slots a message of some bytes has (R415). -/
def slotCount (len : Nat) : Nat := max 1 ((len + 191) / 192)

/-- The work of a valid send entry. -/
def workOf (id : Nat) (n : Fin 8192) (l : List Byte) : Work :=
  let op := BitVec.ofNat 4 (bits (wordAt l 0) 60 4)
  let len := bits (wordAt l 0) 0 32
  { id := id, qp := n, op := op, signal := bitAt (wordAt l 0) 59, wrId := wordAt l 1, laddr := wordAt l 2
    off := BitVec.ofNat 32 (bits (wordAt l 3) 0 32), len := len, slots := if op = 1 then 1 else slotCount len }

/-- An entry ends before anything of it is sent, with a status. -/
def State.entryEnds (s : State) (n : Fin 8192) (recv : Bool) (wrId : Word) (op : BitVec 4) (status : BitVec 8) : State :=
  let s := s.pastEntry n recv
  let s := s.addDue (s.completionOf n wrId status op recv 0 0)
  s.qpFails n

/-- WORK_ENTRY_SERVE (R413, R415, R418, R422): the next send entry of a ready queue pair becomes work; an invalid one, or
one that cannot be reached, ends it in error. In error the next send entry (or receive entry, `flag`) completes with
status 0x05. -/
def execWorkEntryServe (s : State) : Host.Outcome State Fault Refusal :=
  let n := s.ev.qp
  let recv := s.ev.flag
  let q := s.qp n
  let left := if recv then q.rHead != q.rTail else q.sHead != q.sTail
  .next (if q.state = 0 || !left || (q.state = 1 && recv) then s
    else
      let ready := q.state = 1
      let s := if ready then s.modFabric fun b => { b with lastServed := n } else s
      match s.entryWords n recv with
      | (s, .migrating) => s
      | (s, .waits) => s
      | (s, .fails code) =>
        let wr := Config.freeWord s.freeCtr
        let op : BitVec 4 := if recv then 3 else BitVec.ofNat 4 (Config.freeWord (s.freeCtr + 1)).toNat
        (s.takeFree.takeFree.entryEnds n recv wr op (if ready then code else 5)).postDue
      | (s, .done runs) =>
        let l := s.runBytes runs
        let wr := if recv then wordAt l 0 else wordAt l 1
        let op : BitVec 4 := if recv then 3 else BitVec.ofNat 4 (bits (wordAt l 0) 60 4)
        if !ready then (s.entryEnds n recv wr op 5).postDue
        else if s.runBad runs then (s.entryEnds n recv wr op 6).postDue
        else if entryBad l then (s.entryEnds n recv wr op 8).postDue
        else
          let w := workOf s.fresh n l
          ((s.pastEntry n false).modFabric fun b => { b with works := b.works ++ [w] }).takeFresh)

end Sys2Proof.Machine
end

