-- ==== Sys2Proof/Machine/Slots.lean ====
section
/-! DEFINITION. Slots of the fabric end to end (R387 to R395, R410, R411, R415, R416): sending, forwarding, arrival and
commit, acknowledgements, refusals, grants, time-outs, incarnations and reconfiguration. -/

namespace Sys2Proof.Machine

/-! ### Pairs and peers (R389, R393 to R395) -/

/-- The incarnation that this panel holds for another, and its own. -/
def Fabric.incOf (b : Fabric) (p : BitVec 18) : BitVec 8 :=
  if p = b.panel then b.inc else ((b.peers.find? fun e => e.panel == p).map fun e => e.inc).getD 0

/-- The window that another panel grants this one (R393). -/
def Fabric.windowOf (b : Fabric) (p : BitVec 18) : Nat :=
  ((b.peers.find? fun e => e.panel == p).map fun e => e.window).getD (Config.grantWindow p).toNat

/-- Changes what is held of a panel; a panel not yet seen starts with the window that its own register gives (R393). -/
def Fabric.modPeer (b : Fabric) (p : BitVec 18) (f : Peer → Peer) : Fabric :=
  if b.peers.any fun e => e.panel == p then { b with peers := replaceIf (fun e => e.panel == p) f b.peers }
  else { b with peers := b.peers ++ [f { panel := p, inc := 0, window := (Config.grantWindow p).toNat }] }

/-- Data slots sent to a panel and not yet acknowledged (R393). -/
def Fabric.outTo (b : Fabric) (p : BitVec 18) : Nat := (b.out.filter fun o => o.slot.dst == p).length

/-- The key of a pair in the table of numbers. -/
def pairKey (stream : BitVec 16) (dst : BitVec 18) : Nat := stream.toNat * 2 ^ 18 + dst.toNat

/-- Whether a 24-bit number comes no later than another, modulo 2^24. -/
def seqLe (a b : BitVec 24) : Bool := decide ((b - a).toNat < 2 ^ 23)

/-- Whether a panel can be sent to at all: it is present, or the panel itself (R411). -/
def Fabric.reaches (b : Fabric) (p : BitVec 18) : Bool := p == b.panel || b.isMember p

/-- The stream number of a queue pair (R387). -/
def streamOf (n : Fin 8192) : BitVec 16 := BitVec.ofNat 16 n.val

/-- A control slot toward a panel about a pair. -/
def State.control (s : State) (kind : SlotKind) (dst : BitVec 18) (stream : BitVec 16) (seq : BitVec 24) (op : Word) : State :=
  let b := s.fabric
  s.sendFrom (slotReady { dst := dst, dstInc := b.incOf dst, src := b.panel, srcInc := b.inc, kind := kind
                          stream := stream, seq := seq, op := op, hops := b.hopsTo dst })

/-- Acknowledges a pair up to a number, with a status (R389). -/
def State.ackSlot (s : State) (t : FabSlot) (seq : BitVec 24) (status : BitVec 8) : State :=
  s.control .ack t.src t.stream seq (status.setWidth 64)

/-! ### Sending (R389, R390, R393, R415) -/

/-- The local bytes that a work's next slot carries: address and length; a READ request carries none. -/
def Work.next (w : Work) : Word × Nat :=
  if w.op = 1 then (w.laddr, 0) else (w.laddr + BitVec.ofNat 64 (192 * w.sent), min 192 (w.len - 192 * w.sent))

/-- Whether a work may send its next slot: no hold, its stream and its window open, and its bytes not on a page that
migrates (R391, R393, R410, R415). A work toward a panel that is absent or lost goes on, to its end (R390, R411). -/
def State.maySend (s : State) (w : Work) : Bool :=
  let b := s.fabric
  let q := s.qp w.qp
  let stream := streamOf w.qp
  if !(decide (w.sent < w.slots)) || q.state ≠ 1 || !b.joined || b.hold then false
  else if !b.reaches q.peer || b.lost.contains (stream, q.peer) then true
  else
    let a := w.next
    !(b.heldFab.any fun h => h.stream == stream) && decide (b.outTo q.peer < b.windowOf q.peer)
      && !s.fabFaulted (.bytes w.qp) && (match s.localBytes q.root a.1 a.2 .read with
        | .migrating => false
        | _ => true)

/-- The operation word of a work's next slot (R415). -/
def Work.opWord (w : Work) (q : QPair) : Word :=
  let off := match w.op.toNat with
    | 0 => w.off.toNat + 192 * w.sent
    | 1 => w.off.toNat
    | _ => 192 * w.sent
  BitVec.ofNat 64 (field w.op.toNat 60 4 + field q.peerQp.val 47 13 + field (decide (w.sent = 0)).toNat 46 1
    + field (decide (w.sent + 1 = w.slots)).toNat 45 1 + field q.pkey.toNat 33 12 + field off 0 32)

/-- Starts the resend timer of an outstanding slot (R390, R401). -/
def State.armResend (s : State) (o : OutSlot) (after : Nat) : State :=
  if s.fabric.rto = 0 then s
  else s.sched (s.cycle + after) .slotResendTimeout
    { stream := o.slot.stream, panel := o.slot.dst, slotSeq := o.slot.seq, id := o.sentAt }

/-- Cycles of the resend time-out (R401). -/
def Fabric.rtoCycles (b : Fabric) : Nat := 2000 * b.rto.toNat

/-- Sends a work's next slot with given bytes (R389, R415). -/
def State.emit (s : State) (w : Work) (l : List Byte) : State :=
  let b := s.fabric
  let q := s.qp w.qp
  let key := pairKey (streamOf w.qp) q.peer
  let seq := Sparse.read b.nextSeq 0 key
  let t := slotReady
    { dst := q.peer, dstInc := b.incOf q.peer, src := b.panel, srcInc := b.inc, kind := .data
      stream := streamOf w.qp, seq := seq, job := q.job, len := BitVec.ofNat 8 (if w.op = 1 then 0 else l.length)
      op := w.opWord q, hops := b.hopsTo q.peer, payload := (l ++ List.replicate 192 0).take 192 }
  let o : OutSlot := { slot := t, work := w.id, last := decide (w.sent + 1 = w.slots), resends := 0, sentAt := s.fabTime }
  let gone := w.op = 2 && w.sent + 1 = w.slots
  let s := s.modFabric fun b =>
    { b with nextSeq := Sparse.write b.nextSeq 0 key (seq + 1), out := b.out ++ [o]
             works := if gone then b.works.filter fun x => x.id != w.id
                      else replaceIf (fun x => x.id == w.id) (fun x => { x with sent := x.sent + 1 }) b.works }
  (s.armResend o s.fabric.rtoCycles).sendFrom t

/-- SLOT_SEND (R389, R393, R411, R415): the next slot of the queue pair's oldest work that may send one. Its local bytes
are read now. Toward an absent or a lost panel nothing is sent, and the operation ends with status 0x04. -/
def execSlotSend (s : State) : Host.Outcome State Fault Refusal :=
  let n := s.ev.qp
  .next (match s.fabric.works.find? fun w => w.qp == n && s.maySend w with
    | none => s
    | some w =>
      let b := s.fabric
      let q := s.qp n
      if !b.reaches q.peer || b.lost.contains (streamOf n, q.peer) then (s.endWork w 4).postDue
      else
        let a := w.next
        match s.fabTry (.bytes n) q.root a.1 a.2 .read with
        | (s, .migrating) => s
        | (s, .waits) => s
        | (s, .fails code) => ((s.endWork w code).qpFails n).postDue
        | (s, .done runs) =>
          if s.runBad runs then ((s.endWork w 6).qpFails n).postDue
          else s.emit w (if w.op = 1 then bytesOfNat 4 w.len else s.runBytes runs))

/-- Sends an outstanding slot again, with the same seq (R390, R391). -/
def State.resend (s : State) (o : OutSlot) (count : Nat) : State :=
  let o' := { o with resends := count, sentAt := s.fabTime }
  let s := s.modFabric fun b => { b with out := replaceIf (fun x => x == o) (fun _ => o') b.out }
  (s.armResend o' s.fabric.rtoCycles).sendFrom o.slot

/-- Finds an outstanding slot. -/
def Fabric.outSlot (b : Fabric) (stream : BitVec 16) (dst : BitVec 18) (seq : BitVec 24) : Option OutSlot :=
  b.out.find? fun o => o.slot.stream == stream && o.slot.dst == dst && o.slot.seq == seq

/-- A destination is lost for a stream (R326, R390): every operation outstanding toward it in the stream ends with 0x04, and
the slots sent after the one given up are discarded. -/
def State.streamLost (s : State) (stream : BitVec 16) (dst : BitVec 18) (seq : BitVec 24) : State :=
  let s := s.modFabric fun b =>
    { b with lost := addNew b.lost (stream, dst)
             out := b.out.filter fun x => !(x.slot.stream == stream && x.slot.dst == dst && seqLe seq x.slot.seq)
             heldFab := b.heldFab.filter fun h => !(h.stream == stream && h.panel == dst) }
  (s.endWorks (s.fabric.works.filter fun w =>
    streamOf w.qp == stream && (s.qp w.qp).peer == dst && decide (0 < w.sent)) 4).postDue

/-- SLOT_RESEND_TIMEOUT (R390, R410): a slot unacknowledged for rto is resent; after the last resend its destination is
lost for the stream. A hold pauses the timer. -/
def execSlotResendTimeout (s : State) : Host.Outcome State Fault Refusal :=
  let e := s.ev
  let b := s.fabric
  .next (match b.outSlot e.stream e.panel e.slotSeq with
    | none => s
    | some o =>
      if b.hold || b.rto = 0 || e.id ≠ o.sentAt then s
      else
        let gone := s.fabTime - o.sentAt
        if gone < b.rtoCycles then s.armResend o (b.rtoCycles - gone)
        else if o.resends < b.retries.toNat then
          (s.modFabric fun b => { b with resent := satInc b.resent }).resend o (o.resends + 1)
        else
          s.streamLost e.stream e.panel e.slotSeq)

/-! ### Forwarding (R383, R391, R392) -/

/-- A slot with one hop less, or none when that was the last (R392). -/
def hopLess (t : FabSlot) : Option FabSlot := if t.hops.toNat ≤ 1 then none else some { t with hops := t.hops - 1 }

/-- Counts a slot discarded by R392. -/
def State.slotExpires (s : State) : State := s.modFabric fun b => { b with expired := satInc b.expired }

/-- SLOT_FORWARD (R383, R392, R399): the slot loses a hop and goes on along its ring, or onto the next one. -/
def execSlotForward (s : State) : Host.Outcome State Fault Refusal :=
  let t := s.ev.slot
  .next (match hopLess t with
    | none => s.slotExpires
    | some t => s.sendOut t (some (s.fabric.portRing (s.port s.ev.port), t.dir)))

/-- SLOT_PORT_WAIT_EXPIRY (R392, R410): a slot that has waited more than 100 microseconds at a port is discarded; a hold
pauses the wait. -/
def execSlotPortWaitExpiry (s : State) : Host.Outcome State Fault Refusal :=
  let p := s.ev.port
  let id := s.ev.id
  let l := if s.ev.flag then s.fabric.stuck else (s.port p).waiting
  .next (match l.find? fun w => w.id == id with
    | none => s
    | some w =>
      if s.fabric.hold then s
      else
        let gone := s.fabTime - w.since
        if gone ≤ portWait then s.sched (s.cycle + (portWait + 1 - gone)) .slotPortWaitExpiry s.ev
        else if s.ev.flag then
          (s.modFabric fun b => { b with stuck := b.stuck.filter fun w => w.id != id }).slotExpires
        else (s.modPort p fun q => { q with waiting := q.waiting.filter fun w => w.id != id }).slotExpires)

/-! ### Refusal (R391) -/

/-- Refuses a slot that cannot commit now (R391): the first time it goes once round its ring, the second time its source
gets a notice. The retry-after is not stated. -/
def State.refuseData (s : State) (t : FabSlot) : State :=
  let s := s.modFabric fun b => { b with refused := satInc b.refused }
  if t.circ then
    let after : Word := BitVec.ofNat 64 (bits (Config.freeWord s.freeCtr) 0 32)
    s.takeFree.control .notice t.src t.stream t.seq after
  else
    let t := { t with circ := true }
    let b := s.fabric
    let here := Ring.module.place b.panel
    match ringNext b.members.toNat 8 t.dir here with
    | none => s.deliver 0 t
    | some j =>
      if j = here then s.deliver 0 t
      else match hopLess t with
        | none => s.slotExpires
        | some t => s.sendOut t (some (.module, t.dir))

/-! ### Arrival and commit (R388, R389, R395, R416) -/

/-- How a slot's commit ends: done with a status, refused for now, or waiting for a fault's service. -/
inductive Commit where
  | ok (status : BitVec 8)
  | refuse
  | waits
  deriving DecidableEq, Repr

/-- The slot's payload bytes. -/
def slotData (t : FabSlot) : List Byte := (slotBody t).take t.len.toNat

/-- A try to reach the local bytes of an arriving slot. -/
def State.commitTry (s : State) (t : FabSlot) (root va : Word) (n : Nat) (perm : Perm) : State × Tried :=
  s.fabTry (.commit t.src t.stream) root va n perm

/-- A slot's place in the operation word (R415). -/
def slotOff (t : FabSlot) : Nat := bits t.op 0 32

/-- Commits a WRITE (R416). -/
def State.commitWrite (s : State) (n : Fin 8192) (t : FabSlot) : State × Commit :=
  let q := s.qp n
  let l := slotData t
  if 2 ^ q.regSize < slotOff t + l.length then (s, .ok 3)
  else match s.commitTry t q.root (q.regBase + BitVec.ofNat 64 (slotOff t)) l.length .write with
    | (s, .done r) => (s.runWrite r l, .ok 0)
    | (s, .migrating) => (s, .refuse)
    | (s, .waits) => (s, .waits)
    | (s, .fails c) => (s.qpFails n, .ok c)

/-- Commits a READ (R415, R416): READ_DATA slots of this queue pair answer it. -/
def State.commitRead (s : State) (n : Fin 8192) (t : FabSlot) : State × Commit :=
  let q := s.qp n
  let len := natOfBytes ((slotBody t).take 4)
  let va := q.regBase + BitVec.ofNat 64 (slotOff t)
  if 2 ^ q.regSize < slotOff t + len then (s, .ok 3)
  else match s.commitTry t q.root va len .read with
    | (s, .done _) =>
      let w : Work := { id := s.fresh, qp := n, op := 2, laddr := va, len := len, slots := slotCount len }
      ((s.modFabric fun b => { b with works := b.works ++ [w] }).takeFresh, .ok 0)
    | (s, .migrating) => (s, .refuse)
    | (s, .waits) => (s, .waits)
    | (s, .fails c) => (s.qpFails n, .ok c)

/-- Commits a READ_DATA (R416, R417) into the local bytes of the oldest READ. -/
def State.commitReadData (s : State) (n : Fin 8192) (t : FabSlot) : State × Commit :=
  let q := s.qp n
  let l := slotData t
  match s.fabric.works.find? fun w => w.qp == n && w.op == 1 && decide (0 < w.sent) with
  | none => (s, .ok 3)
  | some w =>
    match s.commitTry t q.root (w.laddr + BitVec.ofNat 64 (slotOff t)) l.length .write with
    | (s, .done r) =>
      let w' := { w with acked := w.acked + l.length }
      let s := (s.runWrite r l).modFabric fun b => { b with works := replaceIf (fun x => x.id == w.id) (fun _ => w') b.works }
      (if bitAt t.op 45 then s.endWork w' 0 else s, .ok 0)
    | (s, .migrating) => (s, .refuse)
    | (s, .waits) => (s, .waits)
    | (s, .fails c) => (s.endWork w c, .ok c)

/-- Commits a SEND (R416, R417) into the receive entry at the head; the message's last slot completes the entry. -/
def State.commitSend (s : State) (n : Fin 8192) (t : FabSlot) : State × Commit :=
  let q := s.qp n
  let l := slotData t
  let ends (s : State) (wr : Word) (status : BitVec 8) (bytes : Nat) : State :=
    let src : Word := BitVec.ofNat 64 (field t.src.toNat 46 18 + field t.stream.toNat 33 13)
    (s.pastEntry n true).addDue (s.completionOf n wr status 3 true bytes src)
  if q.rHead = q.rTail then (s, if bitAt t.op 46 then .refuse else .ok 3)
  else match s.commitTry t q.root (q.rqBase + BitVec.ofNat 64 (32 * (q.rHead.toNat % 2 ^ q.rqSize))) 32 .read with
    | (s, .migrating) => (s, .refuse)
    | (s, .waits) => (s, .waits)
    | (s, .fails c) => ((ends s.takeFree (Config.freeWord s.freeCtr) c (slotOff t)).qpFails n, .ok c)
    | (s, .done r) =>
      let e := s.runBytes r
      if bits (wordAt e 2) 0 32 < slotOff t + l.length then (s, .ok 3)
      else match s.commitTry t q.root (wordAt e 1 + BitVec.ofNat 64 (slotOff t)) l.length .write with
        | (s, .migrating) => (s, .refuse)
        | (s, .waits) => (s, .waits)
        | (s, .fails c) => ((ends s (wordAt e 0) c (slotOff t)).qpFails n, .ok c)
        | (s, .done r) =>
          let s := s.runWrite r l
          (if bitAt t.op 45 then ends s (wordAt e 0) 0 (slotOff t + l.length) else s, .ok 0)

/-- Whether a queue pair admits a slot (R416). -/
def QPair.admits (q : QPair) (t : FabSlot) : Bool :=
  q.state == 1 && q.pkey != 0 && q.pkey.toNat == bits t.op 33 12 && q.job == t.job && q.peer == t.src
    && t.stream.toNat == q.peerQp.val && decide (bits t.op 60 4 ≤ 3)

/-- Commits a data slot at its queue pair (R416). -/
def State.commitSlot (s : State) (t : FabSlot) : State × Commit :=
  let n : Fin 8192 := Fin.ofNat 8192 (bits t.op 47 13)
  if !(s.qp n).admits t then (s, .ok 3)
  else match bits t.op 60 4 with
    | 0 => s.commitWrite n t
    | 1 => s.commitRead n t
    | 2 => s.commitReadData n t
    | _ => s.commitSend n t

/-- The arriving pair of a source's stream. -/
def Fabric.inPair (b : Fabric) (src : BitVec 18) (stream : BitVec 16) : InPair :=
  (b.inn.find? fun p => p.src == src && p.stream == stream).getD { src := src, stream := stream }

def Fabric.setIn (b : Fabric) (p : InPair) : Fabric :=
  { b with inn := p :: b.inn.filter fun o => !(o.src == p.src && o.stream == p.stream) }

def State.setIn (s : State) (p : InPair) : State := s.modFabric fun b => b.setIn p

/-- Commits the slots of a pair that are next in order (R389): each commit is acknowledged; one that cannot commit now is
refused, and one at a fault waits in the reorder buffer. -/
def State.commitPair (s : State) (src : BitVec 18) (stream : BitVec 16) : Nat → State
  | 0 => s
  | k + 1 =>
    let p := s.fabric.inPair src stream
    match p.buf.find? fun t => t.seq == p.next with
    | none => s
    | some t =>
      let rest := p.buf.filter fun o => o.seq != t.seq
      match s.commitSlot t with
      | (s, .waits) => s
      | (s, .refuse) => (s.setIn { p with buf := rest }).refuseData t
      | (s, .ok status) =>
        let s := s.setIn { p with buf := rest, next := p.next + 1, status := status }
        (s.ackSlot t t.seq status).commitPair src stream k

/-- Entries of the reorder buffer (R393, R401). -/
def reorderCapacity : Nat := 32768

/-- The reorder entries in use. -/
def Fabric.reorderUsed (b : Fabric) : Nat := b.inn.foldl (fun n p => n + p.buf.length) 0

/-- Whether a slot's incarnations are those that this panel has and holds (R395). -/
def Fabric.current (b : Fabric) (t : FabSlot) : Bool := t.dstInc == b.inc && t.srcInc == b.incOf t.src

/-- Counts a slot discarded by R395. -/
def State.slotStale (s : State) : State := s.modFabric fun b => { b with stale := satInc b.stale }

/-- Counts a slot discarded by R388. -/
def State.slotBad (s : State) : State := s.modFabric fun b => { b with bad := satInc b.bad }

/-- Whether a data slot's operation word keeps its reserved bit at 0 (R388, R415). -/
def dataSound (t : FabSlot) : Bool := slotSound t && (t.kind != .data || !bitAt t.op 32)

/-- The windows that this panel grants in all (R393). -/
def Fabric.grantedSum (b : Fabric) : Nat := b.granted.foldl (fun n e => n + e.2) 0

/-- A source that first appears has the window of fab_grant; where the reorder buffer no longer holds that much, it is
granted what is left (R393, R410). -/
def State.firstGrant (s : State) (src : BitVec 18) : State :=
  let b := s.fabric
  if b.granted.any fun e => e.1 == src then s
  else
    let n := min b.window.toNat (reorderCapacity - b.grantedSum)
    let s := s.modFabric fun b => { b with granted := b.granted ++ [(src, n)] }
    if n = b.window.toNat || b.hold then s else s.control .grant src 0 0 (BitVec.ofNat 64 n)

/-- A data slot that is sound and current at its destination (R389 to R391, R416, R419): a duplicate is acknowledged again;
another is refused, kept for its turn, or committed with those behind it. -/
def State.takeData (s : State) (t : FabSlot) : State :=
  if !s.feature 5 then s.ackSlot t t.seq 3
  else
    let s := s.firstGrant t.src
    let b := s.fabric
    let p := b.inPair t.src t.stream
    if !seqLe p.next t.seq then
      (s.modFabric fun b => { b with resent := satInc b.resent }).ackSlot t (p.next - 1) p.status
    else if p.buf.any fun o => o.seq == t.seq then s
    else if t.seq ≠ p.next && reorderCapacity ≤ b.reorderUsed then s.refuseData t
    else
      let s := s.setIn { p with buf := p.buf ++ [t] }
      (s.commitPair t.src t.stream (p.buf.length + 1)).postDue

/-- SLOT_ARRIVAL (R388, R395): a data slot or an idle slot at its destination is checked and counted, and a data slot is
taken. With `flag`, a pair whose next slot waited for a fault's service goes on. -/
def execSlotArrival (s : State) : Host.Outcome State Fault Refusal :=
  let t := s.ev.slot
  let b := s.fabric
  .next (if s.ev.flag then
      (s.commitPair s.ev.panel s.ev.stream (b.inPair s.ev.panel s.ev.stream).buf.length).postDue
    else if !dataSound t then s.slotBad
    else if !b.current t then s.slotStale
    else if t.kind != .data then s
    else s.takeData t)

/-! ### Acknowledgements, notices and grants (R389, R391, R393) -/

/-- What an acknowledged slot brings its operation: the bytes count, it ends with the status of the acknowledgement, or,
with its highest slot, it completes (R389, R417). -/
def State.ackOut (s : State) (o : OutSlot) (status : BitVec 8) : State :=
  match s.fabric.works.find? fun w => w.id == o.work with
  | none => s
  | some w =>
    let n := if status = 0 && (w.op = 0 || w.op = 3) then o.slot.len.toNat else 0
    let w := { w with acked := w.acked + n }
    let s := s.modFabric fun b => { b with works := replaceIf (fun x => x.id == w.id) (fun _ => w) b.works }
    if status ≠ 0 then s.endWork w status
    else if o.last && (w.op = 0 || w.op = 3) then s.endWork w 0
    else s

/-- SLOT_ACK_ARRIVAL (R389, R391, R395): every lower number of the pair is acknowledged with it, and a stream that was
held for one of them is released. -/
def execSlotAckArrival (s : State) : Host.Outcome State Fault Refusal :=
  let t := s.ev.slot
  let b := s.fabric
  .next (if !slotSound t then s.slotBad
    else if !b.current t then s.slotStale
    else
      let mine (o : OutSlot) : Bool := o.slot.stream == t.stream && o.slot.dst == t.src && seqLe o.slot.seq t.seq
      let done := b.out.filter mine
      let s := s.modFabric fun b =>
        { b with out := b.out.filter fun o => !mine o
                 heldFab := b.heldFab.filter fun h => !(h.stream == t.stream && h.panel == t.src && seqLe h.seq t.seq) }
      let status := BitVec.ofNat 8 (bits t.op 0 8)
      (done.foldl (fun s o => s.ackOut o (if o.slot.seq = t.seq then status else 0)) s).postDue)

/-- REFUSAL_NOTICE_ARRIVAL (R391, R395): the stream's unsent slots are held, and the refused slot goes again after
retry-after. -/
def execRefusalNoticeArrival (s : State) : Host.Outcome State Fault Refusal :=
  let t := s.ev.slot
  let b := s.fabric
  .next (if !slotSound t then s.slotBad
    else if !b.current t then s.slotStale
    else
      let s := s.modFabric fun b => { b with notices := satInc b.notices }
      match b.outSlot t.stream t.src t.seq with
      | none => s
      | some _ =>
        let h : FabHeld := { stream := t.stream, panel := t.src, seq := t.seq }
        (s.modFabric fun b => { b with heldFab := addNew b.heldFab h }).sched (s.cycle + max 1 (bits t.op 0 32))
          .fabricRetryAfterExpiry { stream := t.stream, panel := t.src, slotSeq := t.seq })

/-- FABRIC_RETRY_AFTER_EXPIRY (R391). -/
def execFabricRetryAfterExpiry (s : State) : Host.Outcome State Fault Refusal :=
  .next (match s.fabric.outSlot s.ev.stream s.ev.panel s.ev.slotSeq with
    | none => s
    | some o => s.resend o o.resends)

/-- GRANT_ARRIVAL (R393, R395): the window toward the granting panel. -/
def execGrantArrival (s : State) : Host.Outcome State Fault Refusal :=
  let t := s.ev.slot
  .next (if !slotSound t then s.slotBad
    else if !s.fabric.current t then s.slotStale
    else s.modFabric fun b => b.modPeer t.src fun e => { e with window := bits t.op 0 32 })

/-! ### Incarnations and reconfiguration (R394, R410, R411, R423) -/

/-- Ends with code 0x04 every operation outstanding toward a panel, and discards its pairs' numbers (R394, R411). The answer
to a READ that its earlier life sent goes with it, sent or not (R395). -/
def State.dropPeer (s : State) (p : BitVec 18) : State :=
  let open_ := s.fabric.works.filter fun w => (decide (0 < w.sent) || w.op == 2) && (s.qp w.qp).peer == p
  let s := s.modFabric fun b =>
    { b with out := b.out.filter fun o => o.slot.dst != p
             nextSeq := b.nextSeq.filter fun e => e.1 % 2 ^ 18 != p.toNat
             inn := b.inn.filter fun r => r.src != p
             granted := b.granted.filter fun e => e.1 != p
             heldFab := b.heldFab.filter fun h => h.panel != p
             lost := b.lost.filter fun l => l.2 != p }
  s.endWorks open_ 4

/-- INCARNATION_ANNOUNCEMENT (R394): what concerned the panel's old incarnation ends, and its pairs start again. -/
def execIncarnationAnnouncement (s : State) : Host.Outcome State Fault Refusal :=
  let p := s.ev.panel
  .next (if p = s.fabric.panel then s
    else
      let s := if s.fabric.incOf p = s.ev.inc then s else s.dropPeer p
      (s.modFabric fun b => b.modPeer p fun e =>
        if e.inc = s.ev.inc then e else { e with inc := s.ev.inc, window := (Config.grantWindow p).toNat }).postDue)

/-- FAB_HOLD_SET (R410, R423, R424): no new data slot starts and the timers pause; each enabled port sends its drain marker
after the last flit it has sent. -/
def execFabHoldSet (s : State) : Host.Outcome State Fault Refusal :=
  let b := s.fabric
  let epoch := BitVec.ofNat 16 (bits s.ev.val 0 16)
  .next (if b.hold then s.modFabric fun b => { b with epoch := epoch }
    else
      let s := s.modFabric fun b =>
        { b with hold := true, epoch := epoch, holdAt := s.cycle
                 ports := b.ports.map fun q => { q with markerSent := false } }
      (List.finRange 576).foldl (fun s p =>
        let q := s.port p
        if q.enable && q.up then
          s.queueAt p (slotReady { dst := q.peer, dstInc := b.incOf q.peer, src := b.panel, srcInc := b.inc, kind := .drain
                                   op := epoch.setWidth 64, hops := 1 })
        else s) s)

/-- Whether a port is drained in the reconfiguration of an epoch: it has sent its marker and has its peer's (R410, R423). -/
def Port.drained (q : Port) (epoch : BitVec 16) : Bool := !q.enable || (q.markerSent && q.marker == some epoch)

/-- DRAIN_MARKER_ARRIVAL (R410): the port has its peer's marker of an epoch, which may come before this panel's own hold. -/
def execDrainMarkerArrival (s : State) : Host.Outcome State Fault Refusal :=
  let t := s.ev.slot
  .next (if !slotSound t then s.slotBad
    else if !s.fabric.current t then s.slotStale
    else s.modPort s.ev.port fun q => { q with marker := some (BitVec.ofNat 16 (bits t.op 0 16)) })

/-- A data slot that waited during a hold goes on by the membership that now stands (R404, R410, R411): one of this panel's
own toward a panel that is no longer present is never sent, and one whose path no longer exists is expired. -/
def State.rejoinSlot (s : State) (was : Option PortId) (w : PortWait) : State :=
  let t := w.slot
  if t.src = s.fabric.panel && !t.circ then
    if !s.fabric.reaches t.dst then s
    else if t.dst = s.fabric.panel then s.deliver 0 t
    else s.sendSince t none was w.since
  else s.sendSince t (some ((s.fabric.leg t.dst).1, t.dir)) was w.since

/-- The data slots that wait at ports, and for one, are sent on anew. -/
def State.resendWaiting (s : State) : State :=
  let at_ := (List.finRange 576).flatMap fun p => (s.port p).waiting.map fun w => (some p, w)
  let l : List (Option PortId × PortWait) := at_ ++ s.fabric.stuck.map fun w => (none, w)
  let stays (w : PortWait) : Bool := w.slot.kind != .data
  let s := s.modFabric fun b =>
    { b with stuck := b.stuck.filter stays, ports := b.ports.map fun q => { q with waiting := q.waiting.filter stays } }
  (l.filter fun e => !stays e.2).foldl (fun s e => s.rejoinSlot e.1 e.2) s

/-- The ports go on with what waits at them, and the waits resume where they paused (R392, R410). -/
def State.resumePorts (s : State) : State :=
  let s := s.fabric.stuck.foldl (fun s w => s.sched (s.cycle + 1) .slotPortWaitExpiry { id := w.id, flag := true }) s
  (List.finRange 576).foldl (fun s p =>
    if (s.port p).waiting.isEmpty then s
    else
      let s := s.pump p
      (s.port p).waiting.foldl (fun s w => s.sched (s.cycle + 1) .slotPortWaitExpiry { port := p, id := w.id }) s) s

/-- FAB_HOLD_CLEAR (R410, R411): operations outstanding toward panels that are no longer present end, the data slots that
wait go on by the membership that now stands, and timers and sends resume. -/
def execFabHoldClear (s : State) : Host.Outcome State Fault Refusal :=
  let b := s.fabric
  let epoch := BitVec.ofNat 16 (bits s.ev.val 0 16)
  .next (if !b.hold then s.modFabric fun b => { b with epoch := epoch }
    else
      let s := s.modFabric fun b =>
        { b with hold := false, epoch := epoch, holdTotal := b.holdTotal + (s.cycle - b.holdAt)
                 ports := b.ports.map fun q => { q with marker := none } }
      let known := ((b.out.map fun o => o.slot.dst) ++ (b.works.map fun w => (s.qp w.qp).peer)
        ++ (b.inn.map fun r => r.src) ++ (b.nextSeq.map fun e => BitVec.ofNat 18 e.1)).eraseDups
      let s := (known.filter fun p => !b.reaches p).foldl (fun s p => s.dropPeer p) s
      let s := s.fabric.out.foldl (fun s o => s.armResend o 1) s
      s.resendWaiting.resumePorts.postDue)

/-! ### What the fabric engine does next -/

/-- Whether a queue pair has an entry to serve now: a ready one whose earlier entries are all sent, or one in error
(R415, R418). -/
def State.mayServe (s : State) (n : Fin 8192) (recv : Bool) : Bool :=
  let q := s.qp n
  if s.fabFaulted (.entry n) then false
  else if q.state = 2 then (if recv then q.rHead != q.rTail else q.sHead != q.sTail)
  else q.state == 1 && !recv && q.sHead != q.sTail
    && !(s.fabric.works.any fun w => w.qp == n && w.op != 2 && decide (w.sent < w.slots))

/-- Puts the fabric engine's work of this cycle on the agenda: one slot of the work in progress, or the next entry in
round robin; entries of queue pairs in error; and pairs whose next slot may try again (R389, R415, R418). The ports send
their next flits. -/
def State.scanFabric (s : State) : State :=
  let s := s.transmitAll
  let b := s.fabric
  if b.qps.isEmpty && b.stuck.isEmpty && b.due.isEmpty && b.inn.isEmpty then s
  else
    let s := (s.scanStuck).postDue
    let b := s.fabric
    let nums := b.qpNums
    let s := match b.works.find? s.maySend with
      | some w => s.schedOnce s.cycle .slotSend { qp := w.qp }
      | none =>
        let ready := nums.filter fun n => (s.qp n).state = 1 && s.mayServe n false
        match (ready.find? fun n => b.lastServed < n).or (ready.head?) with
        | some n => s.schedOnce s.cycle .workEntryServe { qp := n }
        | none => s
    let s := nums.foldl (fun s n =>
      if (s.qp n).state ≠ 2 then s
      else if s.mayServe n false then s.schedOnce s.cycle .workEntryServe { qp := n }
      else if s.mayServe n true then s.schedOnce s.cycle .workEntryServe { qp := n, flag := true }
      else s) s
    b.inn.foldl (fun s p =>
      if (p.buf.any fun t => t.seq == p.next) && !s.fabFaulted (.commit p.src p.stream) then
        s.schedOnce s.cycle .slotArrival { panel := p.src, stream := p.stream, flag := true }
      else s) s

end Sys2Proof.Machine
end

