-- ==== Sys2Proof/Machine/Optical.lean ====
section
/-! DEFINITION. Optical ports and photonic paths (R403 to R409): relocks, loss of light and retirement; the packets of a
path through its switch elements; and the originator's states. -/

namespace Sys2Proof.Machine

/-! ### Wavelengths (R403, R405, R406) -/

/-- A byte with one bit set or cleared. -/
def withBit (v : BitVec 8) (i : Fin 8) (b : Bool) : BitVec 8 :=
  if b then v ||| (1 <<< i.val : BitVec 8) else v &&& ~~~(1 <<< i.val : BitVec 8)

/-- A port whose link starts again, with nothing sent or received and mode 1 (R396). -/
def Port.linkReset (q : Port) : Port :=
  { q with nextSeq := 0, lastAck := 0xFF, ackTwice := false, replay := [], pos := 0, freeAt := 0, idleDue := false
           expectSeq := 0, lack := 0xFF, partFlits := [], mode := true, modeWait := none, sendCtl := 0 }

/-- A port with no light, whose rings neither lock nor relock. -/
def Port.unlit (q : Port) : Port := { q with lit := 0, rxLit := 0, relocking := 0, rxRelocking := 0, locking := 0, darkAt := [] }

/-- The paths of this panel that use a port. -/
def Fabric.pathsOf (b : Fabric) (q : Port) : List (Fin 64) :=
  if q.role ≠ 3 then [] else (List.finRange 64).filter fun i => b.paths[i].isOf q

def State.modPath (s : State) (i : Fin 64) (f : Path → Path) : State :=
  s.modFabric fun b => { b with paths := vmod b.paths i f }

/-- 10 ms, 1 ms and 10 microseconds in core cycles. -/
def ms10 : Nat := 20000000
def ms1 : Nat := 2000000
def us10 : Nat := 20000

/-- Puts a path into a state with its timer (R409): the step that ends it and after how many cycles. -/
def State.pathState (s : State) (i : Fin 64) (st : Fin 7) (timer : Option (Instr × Nat)) : State :=
  let s := s.modPath i fun h => { h with state := st, timer := s.fresh }
  let s := match timer with
    | some (a, n) => s.sched (s.cycle + n) a { path := i, id := s.fresh }
    | none => s
  s.takeFresh

/-- Sends a packet out to another panel of the control mesh. -/
def State.meshOut (s : State) (k : PathKind) (p : PathPkt) : State :=
  s.modFabric fun b => { b with mesh := b.mesh ++ [pathBytes k p] }

/-- Sends a packet of a path to the element at a place of its list, or beyond the last to the target (R407). A packet that
stops at its last element goes no further. -/
def State.toElem (s : State) (k : PathKind) (p : PathPkt) (i : Nat) (stops : Bool) : State :=
  match p.elems[i]? with
  | some e => s.schedLater k.act { elem := e.1, pkt := p, arr := stops }
  | none =>
    if stops then s
    else if p.target = s.fabric.panel then s.schedLater k.act { pkt := p, flag := true }
    else s.meshOut k p

/-- Sends an answer back to the element before place i, or from the first to the originator (R407, R408). -/
def State.backElem (s : State) (k : PathKind) (p : PathPkt) (i : Nat) : State :=
  match i with
  | i' + 1 => match p.elems[i']? with
    | some e => s.schedLater k.act { elem := e.1, pkt := p }
    | none => s
  | 0 => if p.origin = s.fabric.panel then s.schedLater k.act { pkt := p, flag := true } else s.meshOut k p

/-- The end ports of a path of this panel. -/
def State.endPorts (s : State) (i : Fin 64) : List PortId :=
  let h := s.fabric.paths[i]
  (List.finRange 576).filter fun p =>
    let q := s.port p
    q.enable && q.role == 3 && q.path == h.path && q.peer == h.pkt.target

/-- The light of a path's end port goes out as the path is torn down. -/
def State.darken (s : State) (p : PortId) : State := s.modPort p fun q => q.linkReset.unlit

/-- Sends TEAR along a path (R409). -/
def State.sendTear (s : State) (p : PathPkt) (stops : Bool) : State := s.toElem .tear p 0 stops

/-- A path goes to Back-off, with TEAR to the elements that were set up, and waits 2^k times 10 microseconds; at k = 7 it has
failed and is reported (R409). -/
def State.backOff (s : State) (i : Fin 64) (p : PathPkt) (stops : Bool) : State :=
  let k := s.fabric.paths[i].attempts
  let s := (s.endPorts i).foldl (fun s q => s.darken q) (s.sendTear p stops)
  if 7 ≤ k then (s.pathState i 6 none).notify (.pathFailed i)
  else s.pathState i 2 (some (.backOffExpiry, 2 ^ k * us10))

/-- A path goes to Tearing (R409). -/
def State.tearPath (s : State) (i : Fin 64) : State :=
  (s.sendTear s.fabric.paths[i].pkt false).pathState i 5 (some (.tearingTimeout, ms10))

/-- A port goes down (R404, R409): the flits of its replay buffer are lost to it, and a path that is up through it is torn
down. -/
def State.portDown (s : State) (p : PortId) : State :=
  let s := s.modPort p Port.linkReset
  (s.fabric.pathsOf (s.port p)).foldl (fun s i => if s.fabric.paths[i].state = 4 then s.tearPath i else s) s

/-- A port comes up: its link starts, with an idle flit due within 512 cycles (R386). -/
def State.portUp (s : State) (p : PortId) : State :=
  s.schedOnce (s.cycle + 512) .lackIdleFlit { port := p, flag := true }

/-- What a change of a port's light brings: the port goes down, comes up, or sends what waited. -/
def State.lightChanged (s : State) (p : PortId) (was : Bool) : State :=
  let now := (s.port p).up
  if was && !now then s.portDown p
  else
    let s := if now && !was then s.portUp p else s
    (s.pump p).wake p

/-- Cycles of one second, and of 20 microseconds (R406). -/
def oneSecond : Nat := 2000000000
def us20 : Nat := 40000

/-- Whether a wavelength of a port is dark, from a cycle on if so. -/
def Port.darkSince (q : Port) (l : Fin 8) : Option Nat := (q.darkAt.find? fun e => e.1 == l).map fun e => e.2

/-- Marks a wavelength dark from this cycle on, and puts its retirement on the agenda; one that is dark already stays dark
from when it was (R406). -/
def State.goesDark (s : State) (p : PortId) (l : Fin 8) : State :=
  if ((s.port p).darkSince l).isSome then s
  else
    (s.modPort p fun q => { q with darkAt := (l, s.cycle) :: q.darkAt }).sched (s.cycle + us20 + 1) .wavelengthRetire
      { port := p, lam := l, id := s.cycle }

/-- A wavelength of one direction that stops: of the transmitter, or (`rx`) of the receiver; for a relock or another
cause. -/
def Port.stops (q : Port) (rx : Bool) (l : Fin 8) (relock : Bool) : Port :=
  if rx then { q with rxLit := withBit q.rxLit l false, rxRelocking := withBit q.rxRelocking l relock }
  else { q with lit := withBit q.lit l false, relocking := withBit q.relocking l relock }

/-- RING_RELOCK_START (R405, R406): the wavelength of the transmitter's ring, or (`arr`) of the receiver's, is dark for a
relock; the third relock within one second retires it. -/
def execRingRelockStart (s : State) : Host.Outcome State Fault Refusal :=
  let p := s.ev.port
  let l := s.ev.lam
  let rx := s.ev.arr
  let q := s.port p
  .next (if !natBit (if rx then q.rxLit else q.lit).toNat l.val then s
    else
      let s := s.goesDark p l
      let s := s.modPort p fun q =>
        let q := q.stops rx l true
        { q with relocks := satInc q.relocks
                 relockLog := (l, s.cycle) :: q.relockLog.filter fun e => decide (s.cycle < e.2 + oneSecond) }
      let s := if 3 ≤ ((s.port p).relockLog.filter fun e => e.1 == l).length then
          s.sched s.cycle .wavelengthRetire { port := p, lam := l, id := ((s.port p).darkSince l).getD s.cycle }
        else s
      s.lightChanged p q.up)

/-- A path whose port now has light at this end may go up when both ends have (R409). -/
def State.mayLight (s : State) (p : PortId) : State :=
  if 4 ≤ bitCount (s.port p).inUse then
    (s.fabric.pathsOf (s.port p)).foldl (fun s i =>
      if s.fabric.paths[i].state = 3 then s.schedLater .pathLit { path := i } else s) s
  else s

/-- A wavelength of one direction taken into use; with both directions lit it has locked and is dark no more. -/
def Port.takes (q : Port) (rx : Bool) (l : Fin 8) : Port :=
  let q := if rx then { q with rxLit := withBit q.rxLit l true, rxRelocking := withBit q.rxRelocking l false }
    else { q with lit := withBit q.lit l true, relocking := withBit q.relocking l false }
  if natBit q.inUse.toNat l.val then
    { q with locking := withBit q.locking l false, darkAt := q.darkAt.filter fun e => e.1 != l }
  else q

/-- RING_RELOCK_END (R405): the wavelength of the transmitter's ring, or (`arr`) of the receiver's, is taken into use, after
a relock or another dark interval, or as the ring first locks. A ring that neither locks nor is dark takes nothing. -/
def execRingRelockEnd (s : State) : Host.Outcome State Fault Refusal :=
  let p := s.ev.port
  let l := s.ev.lam
  let q := s.port p
  .next (if q.enable && (natBit q.locking.toNat l.val || (q.darkSince l).isSome) && !natBit q.failed.toNat l.val then
      ((s.modPort p fun q => q.takes s.ev.arr l).lightChanged p q.up).mayLight p
    else s)

/-- WAVELENGTH_SIGNAL_LOSS (R403, R405, R406): the receiver loses a wavelength, which counts as lit only where the far end's
ring relocks (`flag`). -/
def execWavelengthSignalLoss (s : State) : Host.Outcome State Fault Refusal :=
  let p := s.ev.port
  let l := s.ev.lam
  let q := s.port p
  .next (if !natBit (q.rxLit ||| q.rxRelocking).toNat l.val then s
    else ((s.goesDark p l).modPort p fun q => q.stops true l s.ev.flag).lightChanged p q.up)

/-- WAVELENGTH_RETIRE (R404, R406): a wavelength still dark after more than 20 microseconds, or relocked three times within
a second, is out of use until the runtime clears its bit. A dark interval that has ended retires nothing. -/
def execWavelengthRetire (s : State) : Host.Outcome State Fault Refusal :=
  let p := s.ev.port
  let l := s.ev.lam
  let q := s.port p
  .next (if q.darkSince l ≠ some s.ev.id then s
    else
      let s := s.modPort p fun q =>
        let q := (q.stops true l false).stops false l false
        { q with failed := withBit q.failed l true, locking := withBit q.locking l false
                 darkAt := q.darkAt.filter fun e => e.1 != l }
      s.lightChanged p q.up)

/-- The rings of a port that are out of use and not retired begin to lock, of both directions (R405, R409). -/
def State.lockLam (s : State) (p : PortId) (l : Fin 8) : State :=
  if natBit ((s.port p).failed ||| (s.port p).inUse).toNat l.val then s
  else
    ((s.modPort p fun q => { q with locking := withBit q.locking l true }).schedLater .ringRelockEnd
      { port := p, lam := l }).schedLater .ringRelockEnd { port := p, lam := l, arr := true }

def State.lockLight (s : State) (p : PortId) : State := (List.finRange 8).foldl (fun s l => s.lockLam p l) s

/-! ### Switch elements (R407, R408) -/

/-- The place of an element in a packet's list. -/
def pktPlace (p : PathPkt) (e : BitVec 24) : Option Nat := p.elems.findIdx? fun x => x.1 == e

/-- Whether an element's port is reserved for another path. -/
def Fabric.portTaken (b : Fabric) (e : BitVec 24) (io : BitVec 20) (p : PathPkt) : Bool :=
  b.reserve.any fun r => r.elem == e && (r.inPort == io || r.outPort == io) && !(r.path == p.path && r.origin == p.origin)

/-- Frees an element's reservations for a path. -/
def Fabric.freeElem (b : Fabric) (e : BitVec 24) (p : PathPkt) : Fabric :=
  { b with reserve := b.reserve.filter fun r => !(r.elem == e && r.path == p.path && r.origin == p.origin) }

/-- An element's switch makes the connection of a path (R408): its ports leave the connections they had. -/
def Fabric.setSwitch (b : Fabric) (e : BitVec 24) (io : BitVec 20 × BitVec 20) : Fabric :=
  { b with switch := (e, io.1, io.2) :: b.switch.filter fun c => !(c.1 == e && (c.2.1 == io.1 || c.2.2 == io.2)) }

/-- An element's switch no longer makes the connection of a path, whose ports no other path has since reserved (R408). -/
def Fabric.restoreSwitch (b : Fabric) (e : BitVec 24) (io : BitVec 20 × BitVec 20) (p : PathPkt) : Fabric :=
  if b.portTaken e io.1 p || b.portTaken e io.2 p then b
  else { b with switch := b.switch.filter fun c => c != (e, io.1, io.2) }

/-- The packet that a step acts on: what an element or the mesh has passed on, or 64 bytes that reach this panel from
outside it (R407). -/
def State.pathPkt (s : State) (k : PathKind) : Option PathPkt :=
  if s.ev.bytes.isEmpty then some s.ev.pkt else pathOf k s.ev.bytes

/-- The ports of an element for a path. -/
def pktPorts (p : PathPkt) (k : Nat) : BitVec 20 × BitVec 20 := (p.elems[k]?.map fun x => x.2).getD (0, 0)

/-- Whether a lower path's SETUP is due at the same element in the same cycle (R408). -/
def State.lowerSetup (s : State) (p : PathPkt) : Bool :=
  s.agenda.any fun e => e.act == .setup && e.due == s.cycle && !e.arg.flag && e.arg.elem == s.ev.elem
    && decide ((if e.arg.bytes.isEmpty then e.arg.pkt else (pathOf .setup e.arg.bytes).getD p).path < p.path)

/-- The target of a SETUP answers (R408): ACK when its end port is free and enabled for the path, and then locks its
wavelengths; NAK otherwise. -/
def State.targetAnswers (s : State) (p : PathPkt) : State :=
  let ends := (List.finRange 576).filter fun i =>
    let q := s.port i
    q.enable && q.role == 3 && q.path == p.path && q.peer == p.origin && !q.up
  let n := p.elems.length
  if ends.isEmpty then s.backElem .nak { p with index := n + 1 } n
  else (ends.foldl (fun s i => s.lockLight i) s).backElem .ack p n

/-- An element takes a SETUP (R408): it reserves both ports, sets its switch and forwards, or returns NAK with its index. -/
def State.setupAt (s : State) (p : PathPkt) (e : BitVec 24) : State :=
  match pktPlace p e with
  | none => s
  | some k =>
    let io := pktPorts p k
    if s.fabric.portTaken e io.1 p || s.fabric.portTaken e io.2 p then s.backElem .nak { p with index := k + 1 } k
    else
      let r : Reserve := { elem := e, path := p.path, origin := p.origin, inPort := io.1, outPort := io.2
                           held := false, id := s.fresh }
      let s := s.modFabric fun b =>
        let b := (b.freeElem e p).setSwitch e io
        { b with reserve := r :: b.reserve }
      (s.takeFresh.sched (s.cycle + ms10) .reservationTimeout { id := r.id }).toElem .setup p (k + 1) false

/-- SETUP (R408): of two at an element in one cycle the lower path goes first. At the target (`flag`) it is answered. -/
def execSetup (s : State) : Host.Outcome State Fault Refusal :=
  .next (match s.pathPkt .setup with
    | none => s
    | some p =>
      if s.ev.flag then s.targetAnswers p
      else if s.lowerSetup p then s.sched s.cycle .setup s.ev
      else s.setupAt p s.ev.elem)

/-- The path of this panel that a packet belongs to. -/
def State.ownPath (s : State) (p : PathPkt) : Option (Fin 64) :=
  if p.origin ≠ s.fabric.panel then none
  else (List.finRange 64).find? fun i => s.fabric.paths[i].path == p.path && decide (s.fabric.paths[i].state ≠ 0)

/-- What the originator does as the answer to its SETUP comes (R409): an ACK takes the path to Lighting, and its end ports
lock their wavelengths; a NAK takes it to Back-off, with TEAR to the elements before the refusing one. -/
def State.setupAnswered (s : State) (p : PathPkt) (ack : Bool) : State :=
  match s.ownPath p with
  | none => s
  | some i =>
    if s.fabric.paths[i].state ≠ 1 then s
    else if ack then (s.endPorts i).foldl (fun s q => s.lockLight q) (s.pathState i 3 (some (.lightingTimeout, ms1)))
    else
      let mine := s.fabric.paths[i].pkt
      s.backOff i { mine with elems := mine.elems.take (p.index - 1) } true

/-- ACK (R408, R409): an element's reservation is held and the packet goes back; at the originator (`flag`) it answers. -/
def execAck (s : State) : Host.Outcome State Fault Refusal :=
  .next (match s.pathPkt .ack with
    | none => s
    | some p =>
      if s.ev.flag then s.setupAnswered p true
      else
        let s := s.modFabric fun b =>
          { b with reserve := replaceIf (fun r => r.elem == s.ev.elem && r.path == p.path && r.origin == p.origin)
                                (fun r => { r with held := true }) b.reserve }
        match pktPlace p s.ev.elem with
        | some k => s.backElem .ack p k
        | none => s)

/-- NAK (R408, R409): an element frees its reservations and passes the packet back; at the originator (`flag`) it answers. -/
def execNak (s : State) : Host.Outcome State Fault Refusal :=
  .next (match s.pathPkt .nak with
    | none => s
    | some p =>
      if s.ev.flag then s.setupAnswered p false
      else
        let s := s.modFabric fun b => b.freeElem s.ev.elem p
        match pktPlace p s.ev.elem with
        | some k => s.backElem .nak p k
        | none => s)

/-- TEAR (R408): an element frees its reservations, restores its switch and forwards; the target (`flag`) answers with
TEAR_ACK, and its end port is dark. -/
def execTear (s : State) : Host.Outcome State Fault Refusal :=
  .next (match s.pathPkt .tear with
    | none => s
    | some p =>
      if s.ev.flag then
        let ends := (List.finRange 576).filter fun i =>
          let q := s.port i
          q.role == 3 && q.path == p.path && q.peer == p.origin
        (ends.foldl (fun s i => s.darken i) s).backElem .tearAck p p.elems.length
      else match pktPlace p s.ev.elem with
        | some k =>
          (s.modFabric fun b => (b.freeElem s.ev.elem p).restoreSwitch s.ev.elem (pktPorts p k) p).toElem .tear p (k + 1)
            s.ev.arr
        | none => s)

/-- A Tearing path is Idle again: its ports leave their set (R409). -/
def State.pathIdle (s : State) (i : Fin 64) : State :=
  ((s.endPorts i).foldl (fun s p => s.darken p) s).pathState i 0 none

/-- TEAR_ACK (R408, R409). -/
def execTearAck (s : State) : Host.Outcome State Fault Refusal :=
  .next (match s.pathPkt .tearAck with
    | none => s
    | some p =>
      if s.ev.flag then
        match s.ownPath p with
        | some i => if s.fabric.paths[i].state = 5 then s.pathIdle i else s
        | none => s
      else match pktPlace p s.ev.elem with
        | some k => s.backElem .tearAck p k
        | none => s)

/-- RESERVATION_TIMEOUT (R408): a reservation that has seen no ACK is freed; the switch stays as it is set. -/
def execReservationTimeout (s : State) : Host.Outcome State Fault Refusal :=
  .next (s.modFabric fun b => { b with reserve := b.reserve.filter fun r => r.held || r.id != s.ev.id })

/-! ### The originator (R409) -/

/-- Whether a timer of a path is the one that runs. -/
def State.pathTimer (s : State) (st : Fin 7) : Bool :=
  let h := s.fabric.paths[s.ev.path]
  h.state == st && h.timer == s.ev.id

/-- Sends SETUP and waits in Setting (R409). -/
def State.sendSetup (s : State) (i : Fin 64) : State :=
  (s.toElem .setup s.fabric.paths[i].pkt 0 false).pathState i 1 (some (.setupTimeout, ms10))

/-- SETUP_TIMEOUT (R409). -/
def execSetupTimeout (s : State) : Host.Outcome State Fault Refusal :=
  let i := s.ev.path
  .next (if s.pathTimer 1 then s.backOff i s.fabric.paths[i].pkt false else s)

/-- BACK_OFF_EXPIRY (R409): SETUP goes out again. -/
def execBackOffExpiry (s : State) : Host.Outcome State Fault Refusal :=
  let i := s.ev.path
  .next (if !s.pathTimer 2 then s
    else (s.modPath i fun h => { h with attempts := h.attempts + 1 }).sendSetup i)

/-- PATH_LIT (R404, R409): with at least four wavelengths lit at both ends the path is up. -/
def execPathLit (s : State) : Host.Outcome State Fault Refusal :=
  let i := s.ev.path
  let lit := (s.endPorts i).any fun p => decide (4 ≤ bitCount (s.port p).inUse)
  .next (if s.fabric.paths[i].state = 3 && lit then s.pathState i 4 none else s)

/-- LIGHTING_TIMEOUT (R409). -/
def execLightingTimeout (s : State) : Host.Outcome State Fault Refusal :=
  let i := s.ev.path
  .next (if s.pathTimer 3 then s.backOff i s.fabric.paths[i].pkt false else s)

/-- TEARING_TIMEOUT (R409). -/
def execTearingTimeout (s : State) : Host.Outcome State Fault Refusal :=
  .next (if s.pathTimer 5 then s.pathIdle s.ev.path else s)

/-- PATH_SETUP_REQUEST (R409): an idle path sends SETUP through the elements that the request names,
of which a packet has room for six. -/
def execPathSetupRequest (s : State) : Host.Outcome State Fault Refusal :=
  let i := s.ev.path
  let s := s.modPath i fun h => { h with go := true }
  .next (if s.fabric.paths[i].state ≠ 0 || pathElems < s.ev.pkt.elems.length then s
    else
      let target := ((List.finRange 576).find? fun p =>
        let q := s.port p
        q.role == 3 && q.path == s.fabric.paths[i].path).map fun p => (s.port p).peer
      let pkt : PathPkt := { s.ev.pkt with path := s.fabric.paths[i].path, origin := s.fabric.panel
                                           target := target.getD s.ev.pkt.target }
      (s.modPath i fun h => { h with attempts := 1, pkt := pkt }).sendSetup i)

/-- PATH_TEAR_REQUEST (R409): a path that is up is torn down, and a failed one is cleared. -/
def execPathTearRequest (s : State) : Host.Outcome State Fault Refusal :=
  let i := s.ev.path
  let s := s.modPath i fun h => { h with go := false }
  .next (if s.fabric.paths[i].state = 4 then s.tearPath i
    else if s.fabric.paths[i].state = 6 then s.pathState i 0 none
    else s)

end Sys2Proof.Machine
end

