-- ==== Sys2Proof/Machine/Security.lean ====
section
/-! DEFINITION. Job keys (R397, R398, R400), the reset of the panel and its return to its rings (R394). -/

namespace Sys2Proof.Machine

/-- How many key entries a port has (R398). -/
def keyEntries : Nat := 16

/-- What the fabric manager signs of a delivery (R397). -/
def keyBody (k : KeyBlob) : List Byte := [k.job] ++ bytesOfNat 8 k.epoch ++ k.kemCt ++ k.wrapped

/-- Bytes of an ML-KEM-1024 ciphertext, and of a wrapped job key with its tag (R397). -/
def kemLen : Nat := 1568
def wrappedLen : Nat := 48

/-- The job key that a delivery carries, if its signature verifies under the installed key, and its decapsulation and its
tag succeed (R397). -/
def State.openKey (s : State) (d : DieId) (k : KeyBlob) : Option (BitVec 256) :=
  if s.fabric.fmKey.isEmpty || !Config.lmsVerify s.fabric.fmKey (keyBody k) k.sig || k.kemCt.length ≠ kemLen
      || k.wrapped.length ≠ wrappedLen then none
  else
    let shared := kemDecaps (kemSeedOf (s.die d).boot.uid) k.kemCt
    let kek := sha256 (shared ++ [k.job] ++ bytesOfNat 3 s.fabric.panel.toNat ++ bytesOfNat 8 k.epoch)
    (gcmOpen (BitVec.ofNat 256 (natOfBytes kek)) 0 [] (k.wrapped.take 32)
      (BitVec.ofNat 128 (natOfBytes (k.wrapped.drop 32)))).map fun l => BitVec.ofNat 256 (natOfBytes l)

/-- Installs a job's key of an epoch on a port (R398): the current key becomes the previous one. -/
def Port.install (q : Port) (job : BitVec 8) (epoch : Nat) (key : BitVec 256) : Port :=
  match q.key job with
  | some e =>
    if e.epoch = epoch then q
    else q.setKey { e with cur := key, epoch := epoch, prev := some e.cur, count := 0, rxCur := 0, rxPrev := e.rxCur }
  | none =>
    let e : KeyEntry := { job := job, cur := key, epoch := epoch, prev := none, count := 0, rxCur := 0, rxPrev := 0 }
    { q with keys := q.keys ++ [e] }

/-- KEY_DELIVERY (R397, R398): the primary designated die, once it runs, accepts and installs the key on every port, or,
with a port whose entries are all in use, refuses the delivery as a whole and reports it. The panel runtime installs the
fabric manager's key by the same step (`flag`). -/
def execKeyDelivery (s : State) : Host.Outcome State Fault Refusal :=
  let k := s.ev.key
  .next (if s.ev.flag then s.modFabric fun b => { b with fmKey := s.ev.bytes }
    else match s.primaryRuns with
    | none => s
    | some d => match s.openKey d k with
      | none => s
      | some key =>
        if s.fabric.ports.any fun q => (q.key k.job).isNone && decide (keyEntries ≤ q.keys.length) then
          s.notify (.keyRefused k.job)
        else
          let s := s.modFabric fun b => { b with ports := b.ports.map fun q => q.install k.job k.epoch key }
          (List.finRange 576).foldl (fun s p => if (s.port p).waiting.isEmpty then s else s.pump p) s)

/-- PARTITION_DISSOLVE (R400): every port frees its entry of the job and discards the job's queued slots; the primary die
then reports. A slot of the job that arrives later finds no key (R399). -/
def execPartitionDissolve (s : State) : Host.Outcome State Fault Refusal :=
  let j := s.ev.job
  let mine (w : PortWait) : Bool := w.slot.kind == .data && w.slot.job == j
  let s := s.modFabric fun b =>
    { b with stuck := b.stuck.filter fun w => !mine w
             ports := b.ports.map fun q =>
               { q with keys := q.keys.filter fun e => e.job != j, waiting := q.waiting.filter fun w => !mine w } }
  .next (s.notify (.dissolved j))

/-- 64 ms in core cycles (R394). -/
def ms64 : Nat := 128000000

/-- A station right after its reset: it takes a new incarnation (R326). -/
def Station.afterReset (t : Station) : Station :=
  { fitted := t.fitted, incarnation := t.incarnation + 1, lastRefresh := t.lastRefresh }

/-- PANEL_RESET (R370, R394, R398): every register of the panel is at its reset value, every die in service resets, the
feature set is open and the key entries are zeroed; the incarnation advances, and the panel stays off every ring for
64 ms. -/
def execPanelReset (s : State) : Host.Outcome State Fault Refusal :=
  let p := s.panel
  let dies := (List.finRange 128).filter fun d => (s.die d).inService
  .next
    { s with
      stations := s.stations.map Station.afterReset
      panel := { grade := p.grade, expo := p.expo, designated := p.designated, flash := p.flash
                 flashBad := p.flashBad, stores := p.stores, rsFec := p.rsFec, package := p.package
                 notices := p.notices }
      fabric := { inc := s.fabric.inc + 1 }
      iss := {}
      agenda := (dies.map fun (d : DieId) => { due := s.cycle, act := .dieReset, arg := { die := d } })
        ++ [{ due := s.cycle + ms64, act := .rejoinDelayExpiry, arg := {} }] }

/-- REJOIN_DELAY_EXPIRY (R394). -/
def execRejoinDelayExpiry (s : State) : Host.Outcome State Fault Refusal :=
  .next (s.modFabric fun b => { b with joined := true })

end Sys2Proof.Machine
end

