-- ==== Sys2Proof/Machine/Registers.lean ====
section
/-! DEFINITION. The register blocks that the runtime reaches (R140, R165, R184, R214, R330, R331, R336, R347, R351, R356,
R366, R375, R401, R420): what a write does and what a read returns. -/

namespace Sys2Proof.Machine

/-- Performs a step of the part within another, on an argument of its own. -/
def State.within (s : State) (f : State → Host.Outcome State Fault Refusal) (a : EvArg) : State :=
  match f { s with ev := a } with
  | .next t => { t with ev := s.ev }
  | _ => s

/-- A size field that stores its default outside its range. -/
def sizeField (v lo hi dflt : Nat) : Nat := if lo ≤ v && v ≤ hi then v else dflt

/-! ### Writes -/

/-- A write of the sequencer block (R140, R165). -/
def writeSeq (x : Sequencer) (off : Nat) (v : Word) : Sequencer :=
  if off = 0 then
    let q := bits v 0 17
    { x with ibFreeze := bitAt v 31, quantum := max 256 (min 65536 q) }
  else if 0x8000 ≤ off && (off - 0x8000) / 8 % 64 < 56 then
    let key := (off - 0x8000) / 8
    { x with ib := Sparse.write x.ib 0 key v, counting := x.counting.filter fun k => k != key }
  else x

/-- A write of the cluster status block (R214). The far groups that no transfer has taken in the cycle of a write of
far_count are not counted. -/
def writeCluster (x : ClusterStat) (off : Nat) (v : Word) : ClusterStat :=
  let hi := BitVec.ofNat 32 (bits v 32 32)
  let lo := BitVec.ofNat 32 (bits v 0 32)
  match off with
  | 0x00 => { x with eccUncorrected := hi, eccCorrected := lo }
  | 0x08 => { x with copyRetries := hi, fillRetries := lo }
  | 0x10 => { x with farDrops := hi, farMisses := lo }
  | 0x18 => { x with routeFails := lo }
  | _ => x

/-- The root that a write of a root register stores (R330). -/
def rootField (v : Word) : Word := BitVec.ofNat 64 (field (bits v 12 31) 12 31 + bits v 0 1)

/-- A write of the memory and remote block's plain registers (R330). -/
def writeMemRegs (m : MemRegs) (off : Nat) (v : Word) : MemRegs :=
  let hi := BitVec.ofNat 32 (bits v 32 32)
  let lo := BitVec.ofNat 32 (bits v 0 32)
  if off < 0x20 then { m with root := vset m.root (Fin.ofNat 4 (off / 8)) (rootField v) }
  else if 0x40 ≤ off && off < 0xC0 then
    let w : RWin := { valid := bitAt v 63, pinned := bitAt v 62, job := BitVec.ofNat 8 (bits v 48 8)
                      size := sizeField (bits v 27 5) 10 26 10, base := BitVec.ofNat 17 (bits v 10 17) }
    { m with rwin := vset m.rwin (Fin.ofNat 16 ((off - 0x40) / 8)) w }
  else match off with
    | 0xC0 => { m with job := lo }
    | 0xC8 => { m with timeout := lo }
    | 0xD0 => { m with retry := BitVec.ofNat 16 (bits v 0 16) }
    | 0xD8 => { m with refusals := hi, stale := lo }
    | 0xE8 => { m with epoch := v }
    | 0xF0 => { m with fillErrors := hi, slips := lo }
    | 0x100 => { m with fillRoot := rootField v }
    | 0x108 => { m with stackLost := m.stackLost &&& ~~~(v.setWidth 128) }
    | 0x110 => { m with stackLost := m.stackLost &&& ~~~((v.setWidth 128) <<< 64) }
    | _ => m

/-- A virtual die table entry as written (R336). -/
def ventryOf (v : Word) : VEntry :=
  { present := bitAt v 63, lost := bitAt v 62, inc := BitVec.ofNat 8 (bits v 40 8), phys := Fin.ofNat 128 (bits v 0 7) }

/-- A write of a die's panel block (R336, R351, R356). -/
def State.writePanelBlock (s : State) (d : DieId) (off : Nat) (v : Word) : State :=
  if off < 0x800 then
    s.modDie d fun x => { x with vtab := vset x.vtab (Fin.ofNat 256 (off / 8)) (ventryOf v) }
  else if off < 0x2800 then
    let c : CtxId := Fin.ofNat 4 ((off - 0x800) / 0x800)
    s.modCtx d c fun x => { x with vtab := vset x.vtab (Fin.ofNat 256 ((off - 0x800) / 8)) (ventryOf v) }
  else if off < 0x2A00 then
    s.modMWin d (Fin.ofNat 16 ((off - 0x2800) / 32)) fun w =>
      match (off - 0x2800) / 8 % 4 with
      | 0 => w.setCtl v
      | 1 => { w with syncLost := w.syncLost && !bitAt v 63, drops := BitVec.ofNat 16 (bits v 16 16)
                      lat := BitVec.ofNat 12 (bits v 0 12) }
      | 2 => { w with tgt := (w.tgt &&& (BitVec.allOnes 128 <<< 64)) ||| v.setWidth 128 }
      | _ => { w with tgt := (w.tgt &&& (BitVec.allOnes 128 >>> 64)) ||| (v.setWidth 128) <<< 64 }
  else if off < 0x2B00 then
    if off % 16 = 0 then s.within execPbCtlWrite { die := d, unit := (off - 0x2A00) / 16, val := v } else s
  else if off = 0x2B00 then
    let s := s.modDie d fun x => { x with pbLat := BitVec.ofNat 11 (bits v 0 11) }
    if bitAt v 62 then s.within execSyncRecal {} else s
  else s

/-- A write of the queue block (R347). -/
def State.writeQueue (s : State) (off : Nat) (v : Word) : State :=
  let q : QueueId := Fin.ofNat 64 (off / 64)
  if 4096 ≤ off then s
  else match off / 8 % 8 with
    | 0 => s.modQueue q fun c => { c with ringBase := BitVec.ofNat 36 (bits v 12 36), ringSize := sizeField (bits v 0 5) 12 24 12 }
    | 1 => s.writeHead q v
    | 2 => s.within execQTailWrite { que := q, val := v }
    | 3 => s.modQueue q fun c => { c with root := BitVec.ofNat 64 (field (bits v 12 31) 12 31) }
    | 4 => s.modQueue q fun c => { c with repBase := BitVec.ofNat 36 (bits v 12 36), repSize := sizeField (bits v 0 5) 12 24 12 }
    | 5 => s.within execQRheadWrite { que := q, val := v }
    | 6 => s.within execQCtlWrite { que := q, val := v }
    | _ => s

/-- A write of the boot and identity block (R366). -/
def State.writeBoot (s : State) (d : DieId) (off : Nat) (v : Word) : State :=
  match off with
  | 0x10 => s.within execSvnCommit { die := d, val := v }
  | 0x30 => s.writeAccept d 0 v
  | 0x38 => s.writeAccept d 1 v
  | 0x40 => s.within execFeatureLock { die := d, val := v }
  | _ => s

/-- A write of the telemetry block (R375). -/
def writeTelemetry (b : BootRegs) (off : Nat) (v : Word) : BootRegs :=
  match off with
  | 0x10 => { b with limitMw := BitVec.ofNat 32 (min 330000 (bits v 0 32)) }
  | 0x18 => { b with throttleCycles := v }
  | 0x20 => { b with tmCorrected := BitVec.ofNat 32 (bits v 32 32), tmUncorrected := BitVec.ofNat 32 (bits v 0 32) }
  | _ => b

/-- A write of a station block (R331). -/
def State.writeStation (s : State) (i : StackId) (off : Nat) (v : Word) : State :=
  if off < 0x40 then s.within execStMigWrite { stack := i, rng := Fin.ofNat 8 (off / 8), val := v }
  else s.modStation i fun t => match off with
    | 0x40 => { t with retry := BitVec.ofNat 16 (bits v 0 16) }
    | 0x48 => { t with parity := BitVec.ofNat 32 (bits v 32 32), refusals := BitVec.ofNat 32 (bits v 0 32) }
    | 0x50 => { t with chan := v }
    | _ => t

/-- A port bound to another peer counts that peer's slots from the first (R399). -/
def Port.countAnew (q : Port) (peer : BitVec 18) : Port :=
  if q.peer = peer then q else { q with keys := q.keys.map fun e => { e with rxCur := 0, rxPrev := 0 } }

/-- A port as a write of opt_cfg binds it; a port that is disabled loses its queue, its replay buffer and its light
(R420, R423). -/
def Port.config (q : Port) (v : Word) : Port :=
  let q := q.countAnew (BitVec.ofNat 18 (bits v 0 18))
  let q := { q with enable := bitAt v 63, role := BitVec.ofNat 3 (bits v 60 3), dir := bitAt v 59
                    path := BitVec.ofNat 16 (bits v 40 16), peer := BitVec.ofNat 18 (bits v 0 18) }
  if q.enable then q else { q.linkReset.unlit with waiting := [], marker := none }

/-- Whether a port is connected: on a bare die those that its package connects (R364). -/
def State.connected (s : State) (p : PortId) : Bool := s.panel.package.all fun b => b.ports.contains p

/-- A write of opt_cfg (R364, R405, R420): a port that is not connected stays disabled; a ring port that is enabled locks
its wavelengths, and a path that was up through a port that is disabled is torn down (R409). -/
def State.writeOptCfg (s : State) (p : PortId) (v : Word) : State :=
  let q := s.port p
  let v : Word := if s.connected p then v else v &&& ((1 <<< 63) - 1)
  let starts := bitAt v 63 && !q.enable
  let s := if q.enable && !bitAt v 63 && q.up then s.portDown p else s
  let s := s.modPort p fun q => q.config v
  if starts && (s.port p).role ≠ 3 then s.lockLight p else s

/-- A write of opt_stat (R406, R420): a retired wavelength whose bit is cleared may lock again. -/
def State.writeOptStat (s : State) (p : PortId) (v : Word) : State :=
  let old := (s.port p).failed
  let clr := BitVec.ofNat 8 (bits v 40 8)
  let s := s.modPort p fun q => { q with failed := q.failed &&& ~~~clr, relocks := BitVec.ofNat 32 (bits v 0 32) }
  (List.finRange 8).foldl (fun s l => if natBit (old &&& clr).toNat l.val && (s.port p).enable then s.lockLam p l else s) s

/-- A write of lnk (R396, R401). -/
def State.writeLnk (s : State) (p : PortId) (v : Word) : State :=
  let s := s.modPort p fun q =>
    { q with tagFail := BitVec.ofNat 32 (bits v 32 32), replays := BitVec.ofNat 24 (bits v 8 24)
             lcFail := q.lcFail && !bitAt v 1 }
  s.within execLnkModeWrite { port := p, flag := bitAt v 0 }

/-- A write of path_st (R409, R420); the elements of a set-up come with the request. -/
def State.writePathSt (s : State) (i : Fin 64) (v : Word) (pkt : PathPkt) : State :=
  let s := s.modPath i fun h => { h with path := BitVec.ofNat 16 (bits v 40 16) }
  if bitAt v 0 then s.within execPathSetupRequest { path := i, pkt := pkt }
  else s.within execPathTearRequest { path := i }

/-- A write of the ring interface's plain registers (R401, R420). -/
def writeFabric (b : Fabric) (off : Nat) (v : Word) : Fabric :=
  let hi := BitVec.ofNat 32 (bits v 32 32)
  let lo := BitVec.ofNat 32 (bits v 0 32)
  if 0x10 ≤ off && off < 0x90 then
    let sh := 64 * ((off - 0x10) / 8)
    let keep := b.racks &&& ~~~((BitVec.allOnes 64).setWidth 1024 <<< sh)
    { b with racks := keep ||| (v.setWidth 1024 <<< sh) }
  else match off with
    | 0x00 => if b.joined then b else { b with panel := BitVec.ofNat 18 (bits v 0 18) }
    | 0x08 => { b with modules := BitVec.ofNat 32 (bits v 8 32), members := BitVec.ofNat 8 (bits v 0 8) }
    | 0x90 => { b with window := BitVec.ofNat 16 (bits v 0 16) }
    | 0x98 => { b with retries := BitVec.ofNat 4 (bits v 16 4), rto := BitVec.ofNat 16 (bits v 0 16) }
    | 0xA0 => { b with refused := hi, notices := lo }
    | 0xA8 => { b with stale := hi, expired := lo }
    | 0xB0 => { b with bad := hi, resent := lo }
    | 0x5608 => { b with qpBase := BitVec.ofNat 36 (bits v 7 36) }
    | 0x5610 => { b with cqBase := BitVec.ofNat 38 (bits v 5 38) }
    | 0x5618 => { b with qpDb := BitVec.ofNat 27 (bits v 16 27) }
    | 0x5620 => { b with qpCmd := Fin.ofNat 8192 (bits v 0 13) }
    | _ => b

/-- A write of the ring interface block (R401, R420); one of qp_cmd has no effect without feature bit 5 (R419). -/
def State.writeRing (s : State) (off : Nat) (v : Word) (pkt : PathPkt) : State :=
  if 0x1000 ≤ off && off < 0x2200 then s.writeLnk (Fin.ofNat 576 ((off - 0x1000) / 8)) v
  else if 0x3000 ≤ off && off < 0x4200 then s.writeOptCfg (Fin.ofNat 576 ((off - 0x3000) / 8)) v
  else if 0x4200 ≤ off && off < 0x5400 then s.writeOptStat (Fin.ofNat 576 ((off - 0x4200) / 8)) v
  else if 0x5400 ≤ off && off < 0x5600 then s.writePathSt (Fin.ofNat 64 ((off - 0x5400) / 8)) v pkt
  else if off = 0x5600 then
    if bitAt v 63 then s.within execFabHoldSet { val := v } else s.within execFabHoldClear { val := v }
  else if off = 0x5620 then
    if !s.feature 5 then s
    else
    let s := s.modFabric fun b => writeFabric b off v
    let a : EvArg := { qp := s.fabric.qpCmd }
    match bits v 16 2 with
    | 1 => s.within execQpLoad a
    | 2 => s.within execQpReset a
    | 3 => s.within execQpError a
    | _ => s
  else
    let s := s.modFabric fun b => writeFabric b off v
    if off = 0x98 then s.fabric.out.foldl (fun s o => s.armResend o 1) s else s

/-- A write of a register of a block; a word that no table lists has no effect. -/
def State.regWrite (s : State) (blk : RegBlock) (off : Nat) (v : Word) (pkt : PathPkt) : State :=
  if off % 8 ≠ 0 then s
  else match blk with
    | .seq d => s.modDie d fun x => { x with seq := writeSeq x.seq off v }
    | .ctxCtl d =>
      if off = 0x100 then s.within execWinRelWrite { die := d, val := v }
      else if off < 0x100 && off % 64 = 0 then
        s.within execCtxPreWrite { die := d, ctx := Fin.ofNat 4 (off / 64), val := v }
      else s
    | .cluster d => s.modDie d fun x =>
      { x with stat := writeCluster x.stat off v, farIn := if off = 0x10 then [] else x.farIn }
    | .remote d =>
      match off with
      | 0x30 =>
        match bits v 0 2 with
        | 1 => s.within execMmuResolveRetry { die := d }
        | 2 => s.within execMmuResolveFail { die := d }
        | 3 => s.within execMmuResolveRefuse { die := d }
        | _ => s
      | 0x38 => s.within execMmuInval { die := d, val := v }
      | 0xE0 => s.within execFillCalWrite { die := d, val := v }
      | _ => s.modDie d fun x => { x with mem := writeMemRegs x.mem off v }
    | .panel d => s.writePanelBlock d off v
    | .queues => s.writeQueue off v
    | .boot d => s.writeBoot d off v
    | .telemetry d => s.modDie d fun x => { x with boot := writeTelemetry x.boot off v }
    | .station i => s.writeStation i off v
    | .ring => s.writeRing off v pkt

/-! ### Reads -/

/-- The code of a context's state (R136, R140). -/
def ctxCode : CtxState → Nat
  | .free => 0 | .ready => 1 | .running => 2 | .blocked => 3 | .held => 4 | .ending => 5

/-- A read of the sequencer block (R140, R165). -/
def readSeq (x : Die) (off : Nat) : Word :=
  let seq := x.seq
  let per (w : Nat) (f : Ctx → Nat) : Nat := joinNat w (x.ctxs.toList.map f)
  if 0x8000 ≤ off then Sparse.read seq.ib 0 ((off - 0x8000) / 8)
  else match off with
    | 0x00 => wfield seq.ibFreeze.toNat 31 1 + wfield seq.quantum 0 17
    | 0x08 => wfield seq.last.val 16 2 + BitVec.ofNat 64 (per 4 fun c => ctxCode c.st)
    | 0x10 => seq.switches
    | 0x18 => BitVec.ofNat 64 (per 8 fun c => c.phase.val)
    | 0x20 => BitVec.ofNat 64 Config.foldBase
    | _ => 0

/-- A read of the context control block (R184). -/
def readCtxCtl (x : Die) (off : Nat) : Word :=
  if off < 0x100 && off % 64 = 0 then
    let c := x.ctx (Fin.ofNat 4 (off / 64))
    wfield c.preLimit.toNat 32 32 + wfield c.preForce.toNat 1 1 + wfield c.preReq.toNat 0 1
  else 0

/-- A read of the cluster status block (R214). -/
def readCluster (x : ClusterStat) (off : Nat) : Word :=
  match off with
  | 0x00 => hiLo x.eccUncorrected x.eccCorrected
  | 0x08 => hiLo x.copyRetries x.fillRetries
  | 0x10 => hiLo x.farDrops x.farMisses
  | 0x18 => hiLo 0 x.routeFails
  | 0x20 => BitVec.ofNat 64 (joinNat 16 (x.farLat.toList.map fun v => v.toNat))
  | _ => 0

/-- The source code of a requester (R330). -/
def requesterCode : Requester → Nat
  | .gone code _ => code.val
  | .fabric _ => Config.fabricSrc.val
  | .queue _ k => if k = 2 then 2 else Config.leaderSrc.val
  | .fetch _ => 0
  | .fill _ => 1
  | .copy _ _ => 2
  | .remote _ => 3
  | .array _ _ => 4
  | .regSpace _ => 5
  | .launch _ img _ => if img then 0 else 5

/-- The context that a fault record shows (R330). -/
def State.faultCtx (s : State) (d : DieId) : Requester → CtxId
  | .gone _ c => c
  | r => (s.requesterCtx d r).getD 0

/-- The code of a fault kind (R330). -/
def faultCode : FaultKind → Nat
  | .notValid => 0 | .permission => 1 | .badEntry => 2 | .noMemory => 3

/-- mmu_fault_info for the oldest record (R330). -/
def State.faultInfo (s : State) (d : DieId) (f : FaultRec) : Word :=
  wfield 1 63 1 + wfield (requesterCode f.walk.who) 56 4 + wfield (s.faultCtx d f.walk.who).val 54 2
    + wfield (decide (f.walk.perm = .write)).toNat 53 1 + wfield (faultCode f.kind) 50 3 + wfield f.level 48 2

/-- A remote window as it reads (R330). -/
def rwinWord (w : RWin) : Word :=
  wfield w.valid.toNat 63 1 + wfield w.pinned.toNat 62 1 + wfield w.job.toNat 48 8 + wfield w.size 27 5
    + wfield w.base.toNat 10 17

/-- A die's cyc: the cycles since it left reset (R330). -/
def State.cyc (s : State) (d : DieId) : Word := BitVec.ofNat 64 (s.cycle - (s.die d).cycBase)

/-- A die's sync_cyc, modulo 2^64 (R350). -/
def State.syncCyc (s : State) (d : DieId) : Word := BitVec.ofNat 64 s.cycle - BitVec.ofNat 64 (s.die d).syncBase

/-- A read of the memory and remote block (R330). -/
def State.readRemote (s : State) (d : DieId) (off : Nat) : Word :=
  let x := s.die d
  let m := x.mem
  if off < 0x20 then m.root[Fin.ofNat 4 (off / 8)]
  else if 0x40 ≤ off && off < 0xC0 then rwinWord m.rwin[Fin.ofNat 16 ((off - 0x40) / 8)]
  else match off with
    | 0x20 => (x.faults.head?.map fun f => f.walk.va).getD 0
    | 0x28 => (x.faults.head?.map fun f => s.faultInfo d f).getD 0
    | 0xC0 => m.job.setWidth 64
    | 0xC8 => m.timeout.setWidth 64
    | 0xD0 => m.retry.setWidth 64
    | 0xD8 => hiLo m.refusals m.stale
    | 0xE0 => wfield m.calEnable.toNat 63 1 + wfield m.calCount 32 11 + wfield m.calBase.toNat 0 27
    | 0xE8 => m.epoch
    | 0xF0 => hiLo m.fillErrors m.slips
    | 0xF8 => s.cyc d
    | 0x100 => m.fillRoot
    | 0x108 => m.stackLost.setWidth 64
    | 0x110 => (m.stackLost >>> 64).setWidth 64
    | _ => 0

/-- A virtual die table entry as it reads (R336). -/
def ventryWord (e : VEntry) : Word :=
  wfield e.present.toNat 63 1 + wfield e.lost.toNat 62 1 + wfield e.inc.toNat 40 8 + wfield e.phys.val 0 7

/-- A read of a multicast window (R351). -/
def readMWin (w : MWin) : Nat → Word
  | 0 => wfield w.valid.toNat 63 1 + wfield w.job.toNat 48 8 + wfield w.size 27 5 + wfield w.base.toNat 10 17
  | 1 => wfield w.syncLost.toNat 63 1 + wfield w.drops.toNat 16 16 + wfield w.lat.toNat 0 12
  | 2 => w.tgt.setWidth 64
  | _ => (w.tgt >>> 64).setWidth 64

/-- A read of a die's panel block (R336, R351, R356). -/
def State.readPanelBlock (s : State) (d : DieId) (off : Nat) : Word :=
  let x := s.die d
  let p := s.panel
  if off < 0x800 then ventryWord x.vtab[Fin.ofNat 256 (off / 8)]
  else if off < 0x2800 then ventryWord (x.ctx (Fin.ofNat 4 ((off - 0x800) / 0x800))).vtab[Fin.ofNat 256 ((off - 0x800) / 8)]
  else if off < 0x2A00 then readMWin x.mwin[Fin.ofNat 16 ((off - 0x2800) / 32)] ((off - 0x2800) / 8 % 4)
  else if off < 0x2B00 then
    let k : Fin 16 := Fin.ofNat 16 ((off - 0x2A00) / 16)
    let w := x.pbCtl[k]
    let c := p.chans[k]
    if off % 16 = 0 then wfield w.valid.toNat 63 1 + wfield w.job.toNat 48 8 + wfield w.expect.toNat 0 32
    else hiLo c.releases c.count
  else match off with
    | 0x2B00 => wfield p.locked.toNat 63 1 + wfield p.pbRoot.val 32 8 + wfield p.pbMin.toNat 16 11
        + wfield x.pbLat.toNat 0 11
    | 0x2B08 => s.syncCyc d
    | 0x2B10 => if p.locked then s.cyc d - s.syncCyc d else 0
    | _ => 0

/-- The state that q_ctl shows (R344, R345, R347): a running queue that holds parsing is held. -/
def CmdQueue.shown (c : CmdQueue) : Nat :=
  if c.state = 1 && (c.stage == .fencing || c.stage == .signalling || !c.reports.isEmpty) then 2 else c.state.val

/-- A read of the queue block (R347). -/
def readQueue (c : CmdQueue) : Nat → Word
  | 0 => wfield c.ringBase.toNat 12 36 + wfield c.ringSize 0 5
  | 1 => c.head.setWidth 64
  | 2 => c.tail.setWidth 64
  | 3 => c.root
  | 4 => wfield c.repBase.toNat 12 36 + wfield c.repSize 0 5
  | 5 => hiLo c.rhead c.rtail
  | 6 => wfield c.term.toNat 56 8 + wfield c.leader.val 48 7 + wfield c.elect.toNat 8 1 + wfield c.stop.toNat 7 1
      + wfield c.shown 0 3
  | _ => hiLo c.markSerial c.markOff

/-- A read of the boot and identity block (R366). -/
def readBoot (b : BootRegs) (off : Nat) : Word :=
  match off with
  | 0x00 => 
    let run (v : BitVec 6) : Nat := if b.stage = 4 then v.toNat else 0
    wfield (run b.ucodeSvn) 24 8 + wfield (run b.fwSvn) 16 8 + wfield b.cause.toNat 8 8 + wfield b.stage.toNat 0 4
  | 0x08 => wfield b.minUcode.toNat 8 6 + wfield b.minFw.toNat 0 6
  | 0x18 => b.uid
  | 0x20 => featOffer.setWidth 64
  | 0x28 => (featOffer >>> 64).setWidth 64
  | 0x30 => b.featAcc.setWidth 64
  | 0x38 => (b.featAcc >>> 64).setWidth 64
  | 0x40 => wfield b.featStatus.toNat 1 2 + wfield b.featLock.toNat 0 1
  | _ => 0

/-- A read of a station block (R331). -/
def readStation (t : Station) (off : Nat) : Word :=
  if off < 0x40 then
    let n : Fin 8 := Fin.ofNat 8 (off / 8)
    wfield t.migActive[n].toNat 63 1 + wfield t.migSize[n].toNat 48 5 + wfield t.migPage[n].toNat 16 27
  else match off with
    | 0x40 => t.retry.setWidth 64
    | 0x48 => hiLo t.parity t.refusals
    | 0x50 => t.chan
    | _ => 0

/-- A read of the ring interface block (R401, R420). -/
def readRing (b : Fabric) (off : Nat) : Word :=
  if 0x10 ≤ off && off < 0x90 then (b.racks >>> (64 * ((off - 0x10) / 8))).setWidth 64
  else if 0x1000 ≤ off && off < 0x2200 then
    let q := b.ports[Fin.ofNat 576 ((off - 0x1000) / 8)]
    wfield q.tagFail.toNat 32 32 + wfield q.replays.toNat 8 24 + wfield q.lcFail.toNat 1 1 + wfield q.modeReq.toNat 0 1
  else if 0x3000 ≤ off && off < 0x4200 then
    let q := b.ports[Fin.ofNat 576 ((off - 0x3000) / 8)]
    wfield q.enable.toNat 63 1 + wfield q.role.toNat 60 3 + wfield q.dir.toNat 59 1 + wfield q.path.toNat 40 16
      + wfield q.peer.toNat 0 18
  else if 0x4200 ≤ off && off < 0x5400 then
    let q := b.ports[Fin.ofNat 576 ((off - 0x4200) / 8)]
    wfield q.up.toNat 63 1 + wfield (bitCount q.inUse) 48 8 + wfield q.failed.toNat 40 8 + wfield q.relocks.toNat 0 32
  else if 0x5400 ≤ off && off < 0x5600 then
    let h := b.paths[Fin.ofNat 64 ((off - 0x5400) / 8)]
    wfield h.state.val 60 4 + wfield h.attempts 56 4 + wfield h.path.toNat 40 16 + wfield h.go.toNat 0 1
  else match off with
    | 0x00 => wfield b.joined.toNat 63 1 + wfield b.inc.toNat 18 8 + wfield b.panel.toNat 0 18
    | 0x08 => wfield b.modules.toNat 8 32 + wfield b.members.toNat 0 8
    | 0x90 => wfield 32768 32 16 + wfield b.window.toNat 0 16
    | 0x98 => wfield b.retries.toNat 16 4 + wfield b.rto.toNat 0 16
    | 0xA0 => hiLo b.refused b.notices
    | 0xA8 => hiLo b.stale b.expired
    | 0xB0 => hiLo b.bad b.resent
    | 0x5600 => wfield b.hold.toNat 63 1 + wfield b.epoch.toNat 0 16
    | 0x5608 => wfield b.qpBase.toNat 7 36
    | 0x5610 => wfield b.cqBase.toNat 5 38
    | 0x5618 => wfield b.qpDb.toNat 16 27
    | 0x5620 => wfield b.qpCmd.val 0 13
    | _ => 0

/-- What a read of a register of a block returns; a word that no table lists reads 0. -/
def State.regRead (s : State) (blk : RegBlock) (off : Nat) : Word :=
  if off % 8 ≠ 0 then 0
  else match blk with
    | .seq d => readSeq (s.die d) off
    | .ctxCtl d => readCtxCtl (s.die d) off
    | .cluster d => readCluster (s.die d).stat off
    | .remote d => s.readRemote d off
    | .panel d => s.readPanelBlock d off
    | .queues => if off < 4096 then readQueue (s.queue (Fin.ofNat 64 (off / 64))) (off / 8 % 8) else 0
    | .boot d => readBoot (s.die d).boot off
    | .telemetry d => readTelemetry (s.die d).boot off
    | .station i => readStation (s.station i) off
    | .ring => readRing s.fabric off

end Sys2Proof.Machine
end

