-- ==== Sys2Proof/Machine/Steward.lean ====
section
/-! DEFINITION. The stewards' physical address map (R361): what stands at an address, and the accesses of the steward
software and of the runtime to it. -/

namespace Sys2Proof.Machine

/-- What an access of a steward reaches (R361). -/
inductive StewardPlace where
  | rom (off : Nat)
  | sram (off : Nat)
  | reg (b : RegBlock) (off : Nat)
  | bank (off : Nat)
  | panel (off : Nat)
  | nothing
  deriving DecidableEq, Repr

/-- Bytes of the boot ROM and of a die's steward SRAM. -/
def romBytes : Nat := 2 ^ 16
def sramBytes : Nat := 2 ^ 21

/-- The register block of a 64 KiB frame of a die's map (R361). The queue block stands on the designated dies only. -/
def State.stewardBlock (s : State) (d : DieId) (frame : Nat) : Option RegBlock :=
  match frame with
  | 0 => some (.seq d) | 1 => some (.ctxCtl d) | 2 => some (.cluster d) | 3 => some (.remote d) | 4 => some (.panel d)
  | 5 => if s.panel.designated.contains d then some .queues else none
  | 6 => some (.boot d) | 7 => some (.telemetry d)
  | _ => none

/-- The bytes of the register blocks that the map gives less than a frame (R361). -/
def frameBytes (frame : Nat) : Nat := if frame = 1 then 512 else 0x10000

/-- What stands at a steward's address a, for n bytes (R361): the blocks take aligned 64-bit accesses only. -/
def State.stewardPlace (s : State) (d : DieId) (a n : Nat) : StewardPlace :=
  let word := decide (n = 8) && a % 8 == 0
  if a + n ≤ romBytes then .rom a
  else if 0x1000000 ≤ a && a + n ≤ 0x1000000 + sramBytes then .sram (a - 0x1000000)
  else if 0x10000000 ≤ a && a < 0x10080000 then
    let off := a % 0x10000
    let frame := (a - 0x10000000) / 0x10000
    match s.stewardBlock d frame with
    | some b => if word && decide (off < frameBytes frame) then .reg b off else .nothing
    | none => .nothing
  else if 0x10080000 ≤ a && a < 0x10084000 then
    match s.linkStack d ((a - 0x10080000) / 0x1000) with
    | some i => if word then .reg (.station i) (a % 0x1000) else .nothing
    | none => .nothing
  else if 0x20000000 ≤ a && a < 0x28000000 then .bank (a - 0x20000000)
  else if 0x080000000000 ≤ a && a < 0x100000000000 then .panel (a - 0x080000000000)
  else .nothing

/-- A word of steward SRAM as an access finds it (R375, R378): a single error is corrected and counted, and a double one is
counted and ends the steward's runtime. -/
def BootRegs.sramCheck (b : BootRegs) (w : Nat) : BootRegs :=
  match b.sramBad.find? fun e => e.1 == w with
  | none => b
  | some (_, .single) => { b with sramBad := b.sramBad.filter fun e => e.1 != w, tmCorrected := satInc b.tmCorrected }
  | some (_, .double) => { b with tmUncorrected := satInc b.tmUncorrected, ended := true }

/-- A write of whole words of steward SRAM leaves no error in them; a word written in part is read first. -/
def BootRegs.sramWritten (b : BootRegs) (a n w : Nat) : BootRegs :=
  if a ≤ 8 * w && 8 * w + 8 ≤ a + n then { b with sramBad := b.sramBad.filter fun e => e.1 != w } else b.sramCheck w

/-- A steward's access to its SRAM, at an offset of it. -/
def State.stewardSram (s : State) (d : DieId) (r : StewardAcc) : State :=
  let words := (List.range ((r.addr + r.len - 1) / 8 + 1 - r.addr / 8)).map fun k => r.addr / 8 + k
  s.modDie d fun x =>
    let b := x.boot
    if r.write then
      let b := words.foldl (fun (b : BootRegs) w => b.sramWritten r.addr r.len w) b
      let data := (List.range r.len).map fun k => (r.addr + k, (r.data[k]?).getD 0)
      { x with boot := { b with sram := Memory.writeAll b.sram data } }
    else
      ({ x with boot := words.foldl (fun (b : BootRegs) w => b.sramCheck w) b } : Die).stewardEnds r.core 0
        (b.sram.readN r.addr r.len)

/-- A steward's access (R361): an address that the map does not list reads 0, and a write to it has no effect. -/
def State.stewardAccess (s : State) (d : DieId) (r : StewardAcc) : State :=
  if r.len = 0 then s
  else match s.stewardPlace d r.addr r.len with
    | .rom o =>
      if r.write then s
      else s.stewardReads d r.core ((List.range r.len).map fun k => Config.romByte (o + k))
    | .sram o => s.stewardSram d { r with addr := o }
    | .reg b o =>
      if r.write then s.regWrite b o (wordOfBytes ((r.data ++ List.replicate 8 0).take 8)) {}
      else s.stewardReads d r.core (bytesOfWord (s.regRead b o))
    | .bank o => s.stewardBank d { r with addr := o }
    | .panel o => s.stewardPanel d { r with addr := o }
    | .nothing => if r.write then s else s.stewardZeros d r

/-- REGISTER_WRITE (R7, R361, R401): a write of the runtime to a register of a block, over the management plane; or (`flag`)
an access of a steward, while its software runs, to an address of its die's map. -/
def execRegisterWrite (s : State) : Host.Outcome State Fault Refusal :=
  let d := s.ev.die
  .next (if !s.ev.flag then s.regWrite s.ev.block s.ev.off.toNat s.ev.val s.ev.pkt
    else if (s.die d).coreRuns s.ev.acc.core then s.stewardAccess d s.ev.acc
    else s)

end Sys2Proof.Machine
end

