-- ==== Sys2Proof/Machine/Cycle.lean ====
section
/-! DEFINITION. The frame of a core cycle: the order of the steps that are due in it, the choice at the copy and fill
ports (R191 to R193), the idle/busy counts (R164), the end of a cycle (R146, R153, R190), and what a new cycle puts on
the agenda. -/

namespace Sys2Proof.Machine

/-! ### The order of the steps of a cycle -/

/-- The place of a step in its cycle (R18, R20, R27, R137, R144, R186, R192). -/
def stepPhase (x : Sched) : Nat :=
  match x.act with
  | .cutBack | .ucieFlitCrcFail | .stationParityDiscard => 0
  | .waitConditionMet | .heldBundleRelease | .tagWaitLimit | .engineOpStart | .followOnIssue | .taskEnd
  | .copyTagWaitLimit | .remoteAccessSend | .retryAfterExpiry | .mcstArrival | .farGroupArrival | .ctxswComplete
  | .spillRefillComplete | .cutBackSaveEnd | .taskLaunchStart | .translationWalkComplete | .migratingLeafRewalk
  | .fillBegin | .refreshWindowOpen | .refreshWindowClose | .stationForcedRefresh | .pbarArrivalSend => 1
  | .quantumExpiry => 2
  | .resultLanding => if x.arg.flag then 6 else 3
  | .bundleIssue => 5
  | .bankAccessPerform => match x.arg.ord with
    | .netWrite => 60
    | .scalarWrite => 61
    | .read => 64
  | .mcstLanding => 62
  | .copyUnitCommit | .engineOpComplete | .engineOpError | .fillComplete | .pbarRelease | .arrivePerform
  | .foldSetPerform => 70
  | .remoteAccessCommit | .remoteReplyArrival | .remoteTimeout | .pbarRootCount | .launchPacket | .copyPacket
  | .fencePacket | .fenceReread | .signalPacket | .markPacket | .leaderElection | .flitReceive | .linkReplay
  | .lackIdleFlit | .modeRequestTimeout | .slotSend | .slotForward | .slotArrival | .slotAckArrival
  | .refusalNoticeArrival | .fabricRetryAfterExpiry | .grantArrival | .drainMarkerArrival | .slotResendTimeout
  | .slotPortWaitExpiry | .ringRelockStart | .ringRelockEnd | .wavelengthRetire | .wavelengthSignalLoss | .setup
  | .ack | .nak | .tear | .tearAck | .reservationTimeout | .setupTimeout | .backOffExpiry | .pathLit
  | .lightingTimeout | .tearingTimeout | .pathSetupRequest | .pathTearRequest | .workEntryServe | .dieReset => 80
  | _ => 90

/-- The first of the least phase among the steps that are due, with its place on the agenda. -/
def pickDue (cycle : Nat) : Nat → List Sched → Option (Nat × Nat) → Option (Nat × Nat)
  | _, [], best => best
  | k, x :: l, best =>
    let better := match best with
      | none => true
      | some b => decide (stepPhase x < b.1)
    pickDue cycle (k + 1) l (if x.due ≤ cycle && better then some (stepPhase x, k) else best)

/-- The step that the machine performs next in this cycle, with its phase. -/
def State.nextDue (s : State) : Option (Nat × Nat) := pickDue s.cycle 0 s.agenda none

/-! ### Held bundles (R139) -/

/-- Whether the next bundle of a context still meets a hold of R139. -/
def State.stillHeld (s : State) (d : DieId) (n : CtxId) : Bool :=
  let x := s.die d
  let c := x.ctx n
  match gather x (s.ctxRoot d n) 10 c.rf.pc [] with
  | .miss _ => false
  | .ok rs =>
    match decodeBundle x c rs with
    | .error _ => false
    | .ok is => engineHeld x c is

/-! ### The copy and fill ports (R191 to R193) -/

/-- The sub-bank of a word: its bank and its place in it (R188). -/
def wordPort (w : Nat) : Nat × Nat := (w % 128, w / 128 % 4)

/-- The bank bytes that the reads of this cycle's fixed-latency accesses take (R192). -/
def Access.readAddrs (a : Access) : List Nat :=
  match a.kind with
  | .load t _ off => (List.range (t.width / 8)).map fun k => a.win.byteAddr off k
  | .vload _ addr _ t => (vecAddrs a.win addr t).filterMap fun p => p
  | _ => []

/-- The sub-banks that fixed-latency accesses of a cycle use (R193): those performed and the reads still to come. -/
def Die.fixedPorts (x : Die) (cycle : Nat) : List (Nat × Nat) :=
  (x.accs.filter fun a => a.due == cycle).foldl (fun l a => l ++ portsOf a.readAddrs) x.used

/-- What the ports of a die have taken in a cycle: the fills' sub-banks, and the banks with a read and with a write. -/
structure PortUse where
  fills : List (Nat × Nat) := []
  reads : List Nat := []
  writes : List Nat := []

/-- Whether a request may be performed beside those already chosen (R191, R193). DESIGN CHOICE: a bank's fill port lands
one word in a cycle (log 166). -/
def PortUse.may (u : PortUse) (fixed : List (Nat × Nat)) (r : PortReq) : Bool :=
  let p := wordPort r.word
  if fixed.contains p then false
  else if r.pri = 0 then !u.fills.any fun q => q.1 == p.1
  else !u.fills.contains p && !(r.read && u.reads.contains p.1) && !(r.write && u.writes.contains p.1)

/-- The ports once a request is performed. -/
def PortUse.add (u : PortUse) (r : PortReq) : PortUse :=
  let p := wordPort r.word
  if r.pri = 0 then { u with fills := p :: u.fills }
  else { u with reads := if r.read then p.1 :: u.reads else u.reads
                writes := if r.write then p.1 :: u.writes else u.writes }

/-- Chooses among requests in their order: those performed, and the rest. -/
def choosePorts (fixed : List (Nat × Nat)) : PortUse → List PortReq → List PortReq × List PortReq
  | _, [] => ([], [])
  | u, r :: l =>
    if u.may fixed r then
      let y := choosePorts fixed (u.add r) l
      (r :: y.1, y.2)
    else
      let y := choosePorts fixed u l
      (y.1, r :: y.2)

/-- What an arriving remote access wants of the copy ports (R191, R319). -/
def arrivalReqs (a : RAcc) : List PortReq :=
  a.left.map fun w =>
    { pri := 1, who := .arrival a.id, word := w, read := a.kind != .store, write := a.kind != .load
      bytes := a.got.filter fun p => p.1 / 8 == w }

/-- What the local bytes of a reply want of the copy ports (R315, R316, R319). -/
def replyReqs (a : RAcc) : List PortReq :=
  a.left.map fun w =>
    { pri := 1, who := .reply a.id, word := w, read := false, write := true
      bytes := a.got.filter fun p => p.1 / 8 == w }

/-- What a put's local bytes want of the copy ports (R316). -/
def putReqs (a : RAcc) : List PortReq :=
  a.left.map fun w => { pri := 19, who := .putRead a.id, word := w, read := true, write := false, bytes := [] }

/-- The requests of the operations of a queue. -/
def Die.queueReqs (x : Die) (cycle : Nat) (q : Fin 19) : List PortReq :=
  (x.queues[q]).flatMap fun o =>
    if o.st != .running then [] else if q = qCopy then copyReqs cycle o else centReqs q o

/-- All requests of a die for its ports in this cycle, in the order of R193. -/
def State.portReqs (s : State) (d : DieId) : List PortReq :=
  let x := s.die d
  let mine (a : RAcc) : List PortReq :=
    match a.st with
    | .performing => if a.dest == .die d then arrivalReqs a else []
    | .landing => if a.src == d then replyReqs a else []
    | _ => []
  x.fills.flatMap fillReqs ++ s.panel.raccs.flatMap mine
    ++ (List.finRange 17).flatMap (fun q => x.queueReqs s.cycle (q.castLE (by decide)))
    ++ (s.panel.raccs.filter fun a => a.src == d && a.st == .reading).flatMap putReqs
    ++ stewardReqs x

/-- Performs a request at a port. -/
def State.performPort (s : State) (d : DieId) (r : PortReq) : State :=
  match r.who with
  | .fill id =>
    match (s.die d).fills.find? fun f => f.id == id with
    | some f => s.fillWrote d f r.word r.bytes
    | none => s
  | .arrival id =>
    match s.acc id with
    | some a => if a.left.contains r.word then s.arrivalWord d a r.word else s
    | none => s
  | .reply id =>
    match s.acc id with
    | some a => s.replyWrote a r.word r.bytes
    | none => s
  | .putRead id =>
    match s.acc id with
    | some a => if a.left.contains r.word then s.putRead a r.word else s
    | none => s
  | .unit op no =>
    match (s.op d qCopy op).bind fun o => (o.units.find? fun u => u.no == no).map fun u => (o, u) with
    | some (o, u) =>
      if r.write then (if u.put.contains r.word then s.unitWrote d o u r.word r.bytes else s)
      else if u.need.contains r.word then s.unitRead d o u r.word
      else s
    | none => s
  | .assign eng op =>
    match s.op d eng op with
    | some o => if o.left.contains r.word then s.assignRead d eng o r.word else s
    | none => s
  | .steward id =>
    if r.write then (s.modDie d fun x => x.bankWrite r.bytes).stewardWord d id r.word []
    else
      let as := wordBytes r.word
      s.stewardWord d id r.word (as.zip (as.map (s.die d).bankByte))

/-- Counts the requests that have to retry (R193, R214). -/
def Die.countRetries (x : Die) (l : List PortReq) : Die :=
  let fills := (l.filter fun r => r.pri == 0).length
  { x with stat := { x.stat with
      fillRetries := Nat.repeat satInc fills x.stat.fillRetries
      copyRetries := Nat.repeat satInc (l.length - fills) x.stat.copyRetries } }

/-- The fill and copy ports of a die in a cycle (R191 to R193): the writes, an atomic's read among them, and then the
reads. Every word read has its error corrected or counted, whatever becomes of its requester (R189). -/
def State.ports (s : State) (d : DieId) : State :=
  let l := s.portReqs d
  if l.isEmpty then s
  else
    let y := choosePorts ((s.die d).fixedPorts s.cycle) {} l
    let s := s.modDie d fun x => x.countRetries y.2
    let s := (y.1.filter (·.write)).foldl (fun s r => s.performPort d r) s
    let reads := y.1.filter fun r => !r.write
    let s := s.modDie d fun x => x.eccRead (reads.flatMap fun r => wordBytes r.word)
    reads.foldl (fun s r => s.performPort d r) s

/-- Whether a `mcent` of a die still lacks assignment words (R269). -/
def Die.centWaits (x : Die) : Bool := x.queues.toList.any fun l => l.any fun o => !o.left.isEmpty

/-! ### The idle/busy counts (R164) -/

/-- The engines that work in a cycle, with the contexts that they work for. -/
def Die.engineWork (x : Die) : List (Nat × CtxId) :=
  (List.finRange 19).flatMap fun q =>
    let unit := if q = qCopy then 6 else if q = qRemote then 7 else if q = qPanel then 8 else 11 + q.val
    ((x.queues[q]).filter fun o => o.st == .running).map fun o => (unit, o.ctx)

/-- The networks that work in a cycle: those whose transfer performs at the banks. -/
def Die.networkWork (x : Die) (cycle : Nat) : List (Nat × CtxId) :=
  (x.accs.filter fun a => a.due == cycle).filterMap fun a =>
    match a.kind with
    | .vload _ _ _ _ => some (9, a.ctx)
    | .vstore _ _ _ _ | .routeStore _ _ | .drain _ _ _ => some (10, a.ctx)
    | _ => none

/-- The lowest context that a unit works for. -/
def lowestCtx (u : Nat) (l : List (Nat × CtxId)) : Option CtxId :=
  (List.finRange 4).find? fun c => l.any fun e => e.1 == u && e.2 == c

/-- The one counter of each unit that this cycle's work advances (R164). -/
def Die.countUnits (x : Die) : Die :=
  let seq := x.seq
  if seq.ibFreeze || seq.inReset then { x with seq := { seq with busy := [], counting := [] } }
  else
    let work := seq.busy ++ x.engineWork
    let idle := (x.ctx (seq.holder.getD seq.last)).phase
    let keys := (List.range 28).map fun u => match lowestCtx u work with
      | some c => 64 * (x.ctx c).phase.val + 2 * u
      | none => 64 * idle.val + 2 * u + 1
    { x with seq := { seq with counting := keys, busy := [] } }

/-- The counters advance at the end of the cycle, so that a read gives the value at its start; a counter that has been
written in the cycle keeps what was written (R165). -/
def Sequencer.count (x : Sequencer) : Sequencer :=
  { x with ib := x.counting.foldl (fun t key => Sparse.write t 0 key (Sparse.read t 0 key + 1)) x.ib, counting := [] }

/-- The work of a die between the writes and the reads of a cycle: its engines, its fills, its ports and its counts. -/
def State.portDie (s : State) (d : DieId) : State :=
  if !(s.die d).inService then s
  else
    let s := (((s.engineCycle d).fillCycle d).ports d).stepsCycle d
    let s := if (s.die d).centWaits then s.modDie d fun x => x.mapOps Op.centLate else s
    s.modDie d Die.countUnits

/-- The port stage of a cycle. -/
def State.portStage (s : State) : State :=
  { (List.finRange 128).foldl (fun s d => s.portDie d) s with portsDone := true }

/-! ### The end of a cycle -/

/-- A token's transition (R146). -/
def Ctx.tokStep (c : Ctx) (t : TokId) (e : TokState) : Ctx :=
  let old := c.tok[t]
  match e with
  | .pending => { c with tok := vset c.tok t .pending }
  | .free => if old == .done || old == .error then { c with tok := vset c.tok t .free } else c
  | .done | .error => if old == .pending then { c with tok := vset c.tok t e } else c

/-- Puts a stamp into its place: ascending key (R190). DESIGN CHOICE: stamps of one kind keep the order in which their
operations ended (log 165). -/
def insertStamp (e : Nat × Nat × BitVec 8) : List (Nat × Nat × BitVec 8) → List (Nat × Nat × BitVec 8)
  | [] => [e]
  | f :: r => if e.1 < f.1 then e :: f :: r else f :: insertStamp e r

/-- The stamps of a cycle take effect in the order of R190. -/
def Die.applyStamps (x : Die) : Die :=
  let l := x.stamps.foldl (fun l e => insertStamp e l) []
  { x with tags := l.foldl (fun t e => Sparse.write t 0 e.2.1 e.2.2) x.tags, stamps := [] }

/-- The invalidations of the instruction cache that take effect (R181). -/
def Die.invalidate (x : Die) (cycle : Nat) : Die :=
  let now := x.seq.icInv.filter fun e => decide (e.1 ≤ cycle)
  let gone (l : ICLine) : Bool := now.any fun e => match e.2 with
    | none => true
    | some k => k == l.line
  let seq := x.seq
  { x with seq := { seq with icache := seq.icache.filter fun l => !gone l
                             icInv := seq.icInv.filter fun e => !decide (e.1 ≤ cycle) } }

/-- A phase chosen in a cycle holds from the next one on (R163). -/
def Ctx.takePhase (c : Ctx) : Ctx :=
  match c.phaseNew with
  | some p => { c with phase := p, phaseNew := none }
  | none => c

/-- The end of a die's cycle: folds, tokens, stamps, far data that no transfer has taken, entries of ended operations,
invalidations and phases. -/
def Die.close (x : Die) (cycle : Nat) : Die :=
  let x := x.foldCycle
  let x := { x.tokEvts.foldl (fun x e => x.modCtx e.1 fun c => c.tokStep e.2.1 e.2.2) x with tokEvts := [] }
  let x := if x.stamps.isEmpty then x else x.applyStamps
  let x := { x with stat := { x.stat with farDrops := Nat.repeat satInc x.farIn.length x.stat.farDrops }, farIn := []
                    queues := x.queues.map fun (l : List Op) => l.filter fun (o : Op) => o.st != OpState.ended
                    used := [], ctxs := x.ctxs.map Ctx.takePhase, seq := x.seq.count }
  if x.seq.icInv.isEmpty then x else x.invalidate cycle

/-- Traps of waits and of `trap` are taken at the end of their cycle (R127). -/
def State.endTraps (s : State) : State :=
  (List.finRange 128).foldl (fun s d =>
    (List.finRange 4).foldl (fun s c =>
      match (s.ctx d c).pendTrap with
      | some t => s.takeTrap d c t
      | none => s) s) s

def State.endCycle (s : State) : State :=
  let s := s.endTraps
  { s with dies := s.dies.map fun (x : Die) => x.close s.cycle }

/-! ### The start of a cycle -/

/-- Puts the steps of a context for this cycle on the agenda. -/
def State.scanCtx (s : State) (d : DieId) (n : CtxId) : State :=
  let x := s.die d
  let c := x.ctx n
  let e : EvArg := { die := d, ctx := n }
  if c.st == .free then s
  else
    let s := if c.st == .blocked && s.waitsIs d n != .no then s.schedOnce s.cycle .waitConditionMet e else s
    let s := if c.st == .held && !s.stillHeld d n then s.schedOnce s.cycle .heldBundleRelease e else s
    let s := c.waits.foldl (fun s w => match w with
      | .tags since =>
        if c.tagLimit ≠ 31 && decide (since + 2 ^ c.tagLimit.toNat ≤ s.cycle) then
          s.schedOnce s.cycle .tagWaitLimit { e with seq := since }
        else s
      | _ => s) s
    let s := if x.seq.holder == some n && c.st == .running && !c.waits.isEmpty && decide (x.seq.quantum ≤ c.quantum) then
        s.schedOnce s.cycle .quantumExpiry e
      else s
    let s := if c.st == .ending && c.ending != .cutBack then s.schedOnce s.cycle .taskEnd e else s
    s.scanSpaces d n

/-- Puts the steps of a die for this cycle on the agenda. -/
def State.scanDie (s : State) (d : DieId) : State :=
  if !(s.die d).inService then s
  else
    let s := (s.modDie d fun x =>
      let seq := x.seq
      { x with seq := { seq with busy := x.networkWork s.cycle } }).stallCycle d
    let s := (List.finRange 4).foldl (fun s n => s.scanCtx d n) (s.scanLate d)
    let s := (s.scanLaunches d).scanQueues d
    let s := ((s.die d).queues[qPanel]).foldl (fun s o => s.pbarCycle d o) s
    let s := ((s.scheduleSends d).scanCalendar d).scanRefresh d
    if !(s.die d).seq.inReset && (List.finRange 4).any fun n => (s.ctx d n).st != .free then
      s.schedOnce s.cycle .bundleIssue { die := d }
    else s

/-- Puts the steps of a new cycle on the agenda. -/
def State.startCycle (s : State) : State :=
  let s := (List.finRange 128).foldl (fun s d => s.scanDie d) s
  let s := (List.finRange 64).foldl (fun s q => s.scanQueue q) s
  s.scanFabric

/-- The end of a cycle and the start of the next (R5). -/
def State.tick (s : State) : State :=
  let s := s.endCycle
  ({ s with cycle := s.cycle + 1, portsDone := false }).startCycle

/-! ### One step -/

/-- The agenda without the entry at a place. -/
def State.dropDue (s : State) (k : Nat) : State := { s with agenda := s.agenda.eraseIdx k }

/-- What the machine does when no bundle is in progress. -/
inductive Todo where
  /-- The port stage of the cycle. -/
  | ports
  /-- The entry of the agenda at a place. -/
  | due (x : Sched) (k : Nat)
  /-- The next cycle. -/
  | tick
  deriving DecidableEq, Repr

/-- What is next: the steps before the ports, the port stage, the others, and the end of the cycle. -/
def State.todo (s : State) : Todo :=
  match s.nextDue with
  | none => if s.portsDone then .tick else .ports
  | some (p, k) =>
    if 63 ≤ p && !s.portsDone then .ports
    else match s.agenda[k]? with
      | some x => .due x k
      | none => .tick

/-! ### Placing an instruction -/

/-- A state in whose bundle in progress the bytes of one syllable stand next: the place at which a step takes it. -/
def State.placeSyllable (s : State) (nbits w : Nat) : State :=
  let bytes := leBytes 8 (w % 2 ^ nbits)
  { s with iss := { s.iss with active := true, buf := bytes, len := (rawSyl bytes).len } }

end Sys2Proof.Machine
end

