-- ==== Sys2Proof/Machine/Scan.lean ====
section
/-! DEFINITION. The scan unit: major 16 (R65, R245 to R247). -/

namespace Sys2Proof.Machine

/-- One lane of a scan: its value, payload, presence and head bits. -/
structure ScanLane where
  v : Nat
  pay : Nat
  p : Bool
  h : Bool
  deriving DecidableEq, Repr

/-- An operation of two lanes: the value and payload that stay, and the flags. -/
abbrev ScanOp : Type := (Nat × Nat) → (Nat × Nat) → (Nat × Nat) × Flg

/-- Combine of R65. -/
def combine (op : ScanOp) (a b : ScanLane) : (Nat × Nat) × Flg :=
  if !a.p then ((b.v, b.pay), 0) else if !b.p then ((a.v, a.pay), 0) else op (a.v, a.pay) (b.v, b.pay)

/-- One step of R65 at distance k: every lane at once from the previous values. -/
def scanStep (op : ScanOp) (k : Nat) (l : List ScanLane) : List ScanLane × Flg :=
  let r := List.zipWith (fun (j : Option ScanLane) (x : ScanLane) =>
    match j with
    | some y =>
      if x.h then (x, (0 : Flg))
      else
        let c := combine op y x
        ({ v := c.1.1, pay := c.1.2, p := y.p || x.p, h := y.h }, c.2)
    | none => (x, (0 : Flg))) (List.replicate k none ++ l.map some) l
  (r.map (·.1), r.foldl (fun acc x => acc ||| x.2) 0)

/-- Steps of R65 at distances 2^d, 2^(d+1), … . -/
def scanSteps (op : ScanOp) : Nat → Nat → List ScanLane × Flg → List ScanLane × Flg
  | 0, _, r => r
  | n + 1, d, r =>
    let x := scanStep op (2 ^ d) r.1
    scanSteps op n (d + 1) (x.1, r.2 ||| x.2)

/-- What each lane reads of a list of final lanes: its own, or that of the last lane of its segment. The lists are
taken from the last lane down; `last` is the final lane of the segment being walked. -/
def segLast : List (ScanLane × Bool) → Option ScanLane → List ScanLane
  | [], _ => []
  | (x, head) :: r, last =>
    let y := last.getD x
    y :: segLast r (if head then none else some y)

/-- A scan or reduction (R246): lanes present by the mask, heads given. -/
def scanRun (op : ScanOp) (red pairs : Bool) (a b : List Nat) (m : List Bool) (heads : List Bool) : VReg × Flg :=
  let l := List.zipWith (fun f h => f h) (List.zipWith (fun f p => f p)
    (List.zipWith (fun x y p h => { v := x, pay := y, p := p, h := h : ScanLane }) a b) m) heads
  let r := scanSteps op 8 0 (l, 0)
  let out := if red then (segLast (List.zip r.1 heads).reverse none).reverse else r.1
  (ofLanes (out.map fun x => if x.p then (if pairs then x.pay else x.v) else 0), r.2)

/-- The head bits: lane 0, and the lanes that are not zero in the head vector (R246). -/
def headBits (v : Option VReg) : List Bool :=
  match v with
  | none => true :: List.replicate 255 false
  | some v => true :: ((lanes v).drop 1).map (· != 0)

/-- The head vector of a scan form. -/
def State.headVec (s : State) (seg : Option (Src × Mod)) : Option VReg := seg.map fun x => s.vmodSrc x.1 x.2

/-- An operation on values that leaves the payload of the later lane. -/
def valueOp (f : Nat → Nat → Nat × Flg) : ScanOp := fun x y =>
  let r := f x.1 y.1
  ((r.1, y.2), r.2)

/-- The element operations of minors 0 to 2. -/
def scanAddOp (t : Ty) (c : FmtCap) : ScanOp := valueOp (if t = .f32 then fpAdd t c else intAdd t c.sat)

def scanMinOp (t : Ty) (c : FmtCap) : ScanOp :=
  valueOp (if t = .f32 then fpMin t c else fun a b => noFlag (intMin t a b))

def scanMaxOp (t : Ty) (c : FmtCap) : ScanOp :=
  valueOp (if t = .f32 then fpMax t c else fun a b => noFlag (intMax t a b))

/-- How the values of two lanes rank (R246): a NaN loses; equal values, or two NaNs, tie. `isMax` turns the order. -/
def rankPair (t : Ty) (c : FmtCap) (isMax : Bool) (a b : Nat) : Ordering :=
  let x := elemVal t c.flush a
  let y := elemVal t c.flush b
  if x.isNan && y.isNan then .eq
  else if x.isNan then .gt
  else if y.isNan then .lt
  else
    let o := if leR44 x y then (if leR44 y x then .eq else .lt) else .gt
    if isMax then o.swap else o

/-- The pair operation of minors 3 and 4. -/
def scanArgOp (t : Ty) (c : FmtCap) (isMax tie : Bool) : ScanOp := fun x y =>
  match rankPair t c isMax x.1 y.1 with
  | .lt => (x, 0)
  | .gt => (y, 0)
  | .eq => (if tie then y else x, 0)

/-- Whether a binary32 pattern is a signalling NaN. -/
def isSNan (b : Nat) : Bool :=
  match decodeF fmtF32 b with
  | .nan true => true
  | _ => false

/-- Lands a scan: all 256 lanes at its latency, and the wide flag set of source a at c+3 (R219, R245). -/
def State.scanLand (s : State) (lat : Nat) (d : Dst) (a : VReg) (r : VReg × Flg) : State :=
  (s.vecLandAll lat slotSX d r).land 3 slotSX (.wide .sx (laneCount a))

/-- A scan of minors 0 to 2 and 5 to 9. -/
def State.scan (s : State) (lat : Nat) (op : ScanOp) (red : Bool) (d : Dst) (a : Src) (w : Option ScanExt) : State :=
  let v := s.vmodSrc a ((w.map (·.ma)).getD .none)
  let seg := w.bind (·.seg)
  s.scanLand lat d v
    (scanRun op red false (lanes v) (lanes v) (maskBits s.rf.mask) (headBits (s.headVec seg)))

/-- A scan of minors 3 and 4 (R246). -/
def State.scanArg (s : State) (isMax : Bool) (t : Ty) (red : Bool) (d : Dst) (a b : Src) (w : Option ScanArgExt) : State :=
  let v := s.vmodSrc a ((w.map (·.ma)).getD .none)
  let pay := s.vmodSrc b ((w.map (·.mb)).getD .none)
  let seg := w.bind (·.seg)
  let tie := (w.map (·.tie)).getD false
  let m := maskBits s.rf.mask
  let r := scanRun (scanArgOp t s.cap isMax tie) red true (lanes v) (lanes pay) m (headBits (s.headVec seg))
  let sig := t = .f32 && (List.zip (lanes v) m).any fun x => x.2 && isSNan x.1
  s.scanLand (if t = .f32 then 9 else 8) d v (r.1, r.2 ||| (if sig then fInvalid else 0))

/-- The latency of a scan (R245). -/
def scanLat (t : Ty) : Nat := if t = .f32 then 9 else 8

def execScanAdd (t : Ty) (red : Bool) (d : Dst) (a : Src) (w : Option ScanExt) (s : State) :
    Host.Outcome State Fault Refusal := .next (s.scan (scanLat t) (scanAddOp t s.cap) red d a w)

def execScanMin (t : Ty) (red : Bool) (d : Dst) (a : Src) (w : Option ScanExt) (s : State) :
    Host.Outcome State Fault Refusal := .next (s.scan (scanLat t) (scanMinOp t s.cap) red d a w)

def execScanMax (t : Ty) (red : Bool) (d : Dst) (a : Src) (w : Option ScanExt) (s : State) :
    Host.Outcome State Fault Refusal := .next (s.scan (scanLat t) (scanMaxOp t s.cap) red d a w)

def execScanMini (t : Ty) (red : Bool) (d : Dst) (a b : Src) (w : Option ScanArgExt) (s : State) :
    Host.Outcome State Fault Refusal := .next (s.scanArg false t red d a b w)

def execScanMaxi (t : Ty) (red : Bool) (d : Dst) (a b : Src) (w : Option ScanArgExt) (s : State) :
    Host.Outcome State Fault Refusal := .next (s.scanArg true t red d a b w)

def execScanAnd (red : Bool) (d : Dst) (a : Src) (w : Option ScanExt) (s : State) :
    Host.Outcome State Fault Refusal := .next (s.scan 8 (valueOp fun x y => noFlag (Nat.land x y)) red d a w)

def execScanOr (red : Bool) (d : Dst) (a : Src) (w : Option ScanExt) (s : State) :
    Host.Outcome State Fault Refusal := .next (s.scan 8 (valueOp fun x y => noFlag (Nat.lor x y)) red d a w)

def execScanXor (red : Bool) (d : Dst) (a : Src) (w : Option ScanExt) (s : State) :
    Host.Outcome State Fault Refusal := .next (s.scan 8 (valueOp fun x y => noFlag (Nat.xor x y)) red d a w)

def execScanFirst (red : Bool) (d : Dst) (a : Src) (w : Option ScanExt) (s : State) :
    Host.Outcome State Fault Refusal := .next (s.scan 8 (valueOp fun x _ => noFlag x) red d a w)

def execScanLast (red : Bool) (d : Dst) (a : Src) (w : Option ScanExt) (s : State) :
    Host.Outcome State Fault Refusal := .next (s.scan 8 (valueOp fun _ y => noFlag y) red d a w)

/-- `compress` (R247): the values of the present lanes, in lane order, then zeros. -/
def compressLanes (l : List Nat) (m : List Bool) : List Nat :=
  let got := ((List.zip l m).filter (·.2)).map (·.1)
  got ++ List.replicate (256 - got.length) 0

/-- `expand` (R247): the k-th present lane takes lane k. -/
def expandLanes : List Nat → List Bool → List Nat
  | _, [] => []
  | [], _ :: m => 0 :: expandLanes [] m
  | x :: l, b :: m => if b then x :: expandLanes l m else 0 :: expandLanes (x :: l) m

def execCompress (d : Dst) (a : Src) (w : Option Mod) (s : State) : Host.Outcome State Fault Refusal :=
  let v := s.vmodSrc a (w.getD .none)
  .next (s.scanLand 8 d v (ofLanes (compressLanes (lanes v) (maskBits s.rf.mask)), 0))

def execExpand (d : Dst) (a : Src) (w : Option Mod) (s : State) : Host.Outcome State Fault Refusal :=
  let v := s.vmodSrc a (w.getD .none)
  .next (s.scanLand 8 d v (ofLanes (expandLanes (lanes v) (maskBits s.rf.mask)), 0))

end Sys2Proof.Machine
end

