-- ==== Sys2Proof/Machine/Dispatch.lean ====
section
/-! DEFINITION. The meaning of every instruction and of every step of the part: one call per constructor. -/

namespace Sys2Proof.Machine

def exec (i : Instr) (s : State) : Host.Outcome State Fault Refusal :=
  match i with
  | .pfx p => Sys2Proof.Machine.execPfx p s
  | .bundleRoute write far src => Sys2Proof.Machine.execBundleRoute write far src s
  | .add t d a b => Sys2Proof.Machine.execAdd t d a b s
  | .sub t d a b => Sys2Proof.Machine.execSub t d a b s
  | .mul t d a b => Sys2Proof.Machine.execMul t d a b s
  | .mulh t d a b => Sys2Proof.Machine.execMulh t d a b s
  | .div t d a b => Sys2Proof.Machine.execDiv t d a b s
  | .rem t d a b => Sys2Proof.Machine.execRem t d a b s
  | .and t d a b => Sys2Proof.Machine.execAnd t d a b s
  | .or t d a b => Sys2Proof.Machine.execOr t d a b s
  | .xor t d a b => Sys2Proof.Machine.execXor t d a b s
  | .andn t d a b => Sys2Proof.Machine.execAndn t d a b s
  | .shl t d a b => Sys2Proof.Machine.execShl t d a b s
  | .shr t d a b => Sys2Proof.Machine.execShr t d a b s
  | .sar t d a b => Sys2Proof.Machine.execSar t d a b s
  | .rot t d a b => Sys2Proof.Machine.execRot t d a b s
  | .min t d a b => Sys2Proof.Machine.execMin t d a b s
  | .max t d a b => Sys2Proof.Machine.execMax t d a b s
  | .ceq t d a b => Sys2Proof.Machine.execCeq t d a b s
  | .cne t d a b => Sys2Proof.Machine.execCne t d a b s
  | .clt t d a b => Sys2Proof.Machine.execClt t d a b s
  | .cle t d a b => Sys2Proof.Machine.execCle t d a b s
  | .sel d c a b => Sys2Proof.Machine.execSel d c a b s
  | .neg t d a => Sys2Proof.Machine.execNeg t d a s
  | .abs t d a => Sys2Proof.Machine.execAbs t d a s
  | .clz t d a => Sys2Proof.Machine.execClz t d a s
  | .popc t d a => Sys2Proof.Machine.execPopc t d a s
  | .mov t d a => Sys2Proof.Machine.execMov t d a s
  | .rdsp d sv => Sys2Proof.Machine.execRdsp d sv s
  | .rdctl d cr => Sys2Proof.Machine.execRdctl d cr s
  | .wrctl cr a => Sys2Proof.Machine.execWrctl cr a s
  | .addImm z d a imm => Sys2Proof.Machine.execAddImm z d a imm s
  | .mulImm z d a imm => Sys2Proof.Machine.execMulImm z d a imm s
  | .andImm z d a imm => Sys2Proof.Machine.execAndImm z d a imm s
  | .orImm z d a imm => Sys2Proof.Machine.execOrImm z d a imm s
  | .xorImm z d a imm => Sys2Proof.Machine.execXorImm z d a imm s
  | .shlImm z d a imm => Sys2Proof.Machine.execShlImm z d a imm s
  | .shrImm z d a imm => Sys2Proof.Machine.execShrImm z d a imm s
  | .sarImm z d a imm => Sys2Proof.Machine.execSarImm z d a imm s
  | .ceqImm z d a imm => Sys2Proof.Machine.execCeqImm z d a imm s
  | .cltImm z d a imm => Sys2Proof.Machine.execCltImm z d a imm s
  | .cleImm z d a imm => Sys2Proof.Machine.execCleImm z d a imm s
  | .minImm z d a imm => Sys2Proof.Machine.execMinImm z d a imm s
  | .maxImm z d a imm => Sys2Proof.Machine.execMaxImm z d a imm s
  | .movImm z d imm => Sys2Proof.Machine.execMovImm z d imm s
  | .addLong t d a imm => Sys2Proof.Machine.execAddLong t d a imm s
  | .mulLong t d a imm => Sys2Proof.Machine.execMulLong t d a imm s
  | .andLong t d a imm => Sys2Proof.Machine.execAndLong t d a imm s
  | .orLong t d a imm => Sys2Proof.Machine.execOrLong t d a imm s
  | .xorLong t d a imm => Sys2Proof.Machine.execXorLong t d a imm s
  | .ceqLong t d a imm => Sys2Proof.Machine.execCeqLong t d a imm s
  | .cltLong t d a imm => Sys2Proof.Machine.execCltLong t d a imm s
  | .cleLong t d a imm => Sys2Proof.Machine.execCleLong t d a imm s
  | .movLong t d imm => Sys2Proof.Machine.execMovLong t d imm s
  | .movh t d a imm => Sys2Proof.Machine.execMovh t d a imm s
  | .adr d imm => Sys2Proof.Machine.execAdr d imm s
  | .lit d off => Sys2Proof.Machine.execLit d off s
  | .ld t d a b => Sys2Proof.Machine.execLd t d a b s
  | .st t v a b => Sys2Proof.Machine.execSt t v a b s
  | .ldOffset t cls d a off => Sys2Proof.Machine.execLdOffset t cls d a off s
  | .stOffset t cls v a off => Sys2Proof.Machine.execStOffset t cls v a off s
  | .fenceK mask => Sys2Proof.Machine.execFenceK mask s
  | .amoAdd t cls d a b off => Sys2Proof.Machine.execAmoAdd t cls d a b off s
  | .amoAnd t cls d a b off => Sys2Proof.Machine.execAmoAnd t cls d a b off s
  | .amoOr t cls d a b off => Sys2Proof.Machine.execAmoOr t cls d a b off s
  | .amoXor t cls d a b off => Sys2Proof.Machine.execAmoXor t cls d a b off s
  | .amoMax t cls d a b off => Sys2Proof.Machine.execAmoMax t cls d a b off s
  | .amoMin t cls d a b off => Sys2Proof.Machine.execAmoMin t cls d a b off s
  | .amoSwap t cls d a b off => Sys2Proof.Machine.execAmoSwap t cls d a b off s
  | .amoCas t cls d a b c off => Sys2Proof.Machine.execAmoCas t cls d a b c off s
  | .amoFadd cls d a b off => Sys2Proof.Machine.execAmoFadd cls d a b off s
  | .amoFmax cls d a b off => Sys2Proof.Machine.execAmoFmax cls d a b off s
  | .amoFmin cls d a b off => Sys2Proof.Machine.execAmoFmin cls d a b off s
  | .amoSadd t cls d a b off => Sys2Proof.Machine.execAmoSadd t cls d a b off s
  | .br off => Sys2Proof.Machine.execBr off s
  | .brz a off => Sys2Proof.Machine.execBrz a off s
  | .brnz a off => Sys2Proof.Machine.execBrnz a off s
  | .bany fs off => Sys2Proof.Machine.execBany fs off s
  | .ball fs off => Sys2Proof.Machine.execBall fs off s
  | .bnone fs off => Sys2Proof.Machine.execBnone fs off s
  | .bcntGe fs a off => Sys2Proof.Machine.execBcntGe fs a off s
  | .bcntLt fs a off => Sys2Proof.Machine.execBcntLt fs a off s
  | .call off => Sys2Proof.Machine.execCall off s
  | .ret => Sys2Proof.Machine.execRet s
  | .jmp a => Sys2Proof.Machine.execJmp a s
  | .callr a => Sys2Proof.Machine.execCallr a s
  | .loop lvl a off => Sys2Proof.Machine.execLoop lvl a off s
  | .loopSw lvl a off => Sys2Proof.Machine.execLoopSw lvl a off s
  | .loopClr mask => Sys2Proof.Machine.execLoopClr mask s
  | .bskip off => Sys2Proof.Machine.execBskip off s
  | .btok st t off => Sys2Proof.Machine.execBtok st t off s
  | .nop => Sys2Proof.Machine.execNop s
  | .halt => Sys2Proof.Machine.execHalt s
  | .trap code => Sys2Proof.Machine.execTrap code s
  | .tfence => Sys2Proof.Machine.execTfence s
  | .idem => Sys2Proof.Machine.execIdem s
  | .idemChk off => Sys2Proof.Machine.execIdemChk off s
  | .phase n => Sys2Proof.Machine.execPhase n s
  | .ctxsw a => Sys2Proof.Machine.execCtxsw a s
  | .eret => Sys2Proof.Machine.execEret s
  | .icinv a => Sys2Proof.Machine.execIcinv a s
  | .waitTok ts => Sys2Proof.Machine.execWaitTok ts s
  | .waitAny a => Sys2Proof.Machine.execWaitAny a s
  | .waitFold f ph => Sys2Proof.Machine.execWaitFold f ph s
  | .arrive f a => Sys2Proof.Machine.execArrive f a s
  | .foldSetBytes f a => Sys2Proof.Machine.execFoldSetBytes f a s
  | .foldSetArr f a => Sys2Proof.Machine.execFoldSetArr f a s
  | .tokClr a => Sys2Proof.Machine.execTokClr a s
  | .yield => Sys2Proof.Machine.execYield s
  | .vaddF t d a b w => Sys2Proof.Machine.execVaddF t d a b w s
  | .vsubF t d a b w => Sys2Proof.Machine.execVsubF t d a b w s
  | .vmulF t d a b w => Sys2Proof.Machine.execVmulF t d a b w s
  | .vfma t d a b => Sys2Proof.Machine.execVfma t d a b s
  | .vfmaVw t d a b c ma mb mc => Sys2Proof.Machine.execVfmaVw t d a b c ma mb mc s
  | .vmaxF t d a b w => Sys2Proof.Machine.execVmaxF t d a b w s
  | .vminF t d a b w => Sys2Proof.Machine.execVminF t d a b w s
  | .vabsF t d a w => Sys2Proof.Machine.execVabsF t d a w s
  | .vnegF t d a w => Sys2Proof.Machine.execVnegF t d a w s
  | .vsqrt t d a w => Sys2Proof.Machine.execVsqrt t d a w s
  | .vdiv t d a b w => Sys2Proof.Machine.execVdiv t d a b w s
  | .vaddI t d a b w => Sys2Proof.Machine.execVaddI t d a b w s
  | .vsubI t d a b w => Sys2Proof.Machine.execVsubI t d a b w s
  | .vmulI t d a b w => Sys2Proof.Machine.execVmulI t d a b w s
  | .vmulh t d a b w => Sys2Proof.Machine.execVmulh t d a b w s
  | .vand t d a b w => Sys2Proof.Machine.execVand t d a b w s
  | .vor t d a b w => Sys2Proof.Machine.execVor t d a b w s
  | .vxor t d a b w => Sys2Proof.Machine.execVxor t d a b w s
  | .vandn t d a b w => Sys2Proof.Machine.execVandn t d a b w s
  | .vshl t d a b w => Sys2Proof.Machine.execVshl t d a b w s
  | .vshr t d a b w => Sys2Proof.Machine.execVshr t d a b w s
  | .vsar t d a b w => Sys2Proof.Machine.execVsar t d a b w s
  | .vminI t d a b w => Sys2Proof.Machine.execVminI t d a b w s
  | .vmaxI t d a b w => Sys2Proof.Machine.execVmaxI t d a b w s
  | .vabsI t d a w => Sys2Proof.Machine.execVabsI t d a w s
  | .vnegI t d a w => Sys2Proof.Machine.execVnegI t d a w s
  | .vsel d c a b w => Sys2Proof.Machine.execVsel d c a b w s
  | .vmov d a w => Sys2Proof.Machine.execVmov d a w s
  | .vbcast t d a wide => Sys2Proof.Machine.execVbcast t d a wide s
  | .vceq t d a b w => Sys2Proof.Machine.execVceq t d a b w s
  | .vcne t d a b w => Sys2Proof.Machine.execVcne t d a b w s
  | .vclt t d a b w => Sys2Proof.Machine.execVclt t d a b w s
  | .vcle t d a b w => Sys2Proof.Machine.execVcle t d a b w s
  | .vcun t d a b w => Sys2Proof.Machine.execVcun t d a b w s
  | .mpush a w => Sys2Proof.Machine.execMpush a w s
  | .minv wide => Sys2Proof.Machine.execMinv wide s
  | .mpop wide => Sys2Proof.Machine.execMpop wide s
  | .mset a w => Sys2Proof.Machine.execMset a w s
  | .mget d wide => Sys2Proof.Machine.execMget d wide s
  | .vcvt dt st d a w => Sys2Proof.Machine.execVcvt dt st d a w s
  | .vquant dt d a b w => Sys2Proof.Machine.execVquant dt d a b w s
  | .vpack t d a b w => Sys2Proof.Machine.execVpack t d a b w s
  | .vunpk t d a w => Sys2Proof.Machine.execVunpk t d a w s
  | .vlut d a b w => Sys2Proof.Machine.execVlut d a b w s
  | .vevt t d a b w => Sys2Proof.Machine.execVevt t d a b w s
  | .vres d a b w => Sys2Proof.Machine.execVres d a b w s
  | .vttw a b wide => Sys2Proof.Machine.execVttw a b wide s
  | .vld d a b w => Sys2Proof.Machine.execVld d a b w s
  | .vldImm d a m => Sys2Proof.Machine.execVldImm d a m s
  | .vst v a b w => Sys2Proof.Machine.execVst v a b w s
  | .vstImm v a m => Sys2Proof.Machine.execVstImm v a m s
  | .vldi d a b w => Sys2Proof.Machine.execVldi d a b w s
  | .vsti v a b w => Sys2Proof.Machine.execVsti v a b w s
  | .scanAdd t red d a w => Sys2Proof.Machine.execScanAdd t red d a w s
  | .scanMin t red d a w => Sys2Proof.Machine.execScanMin t red d a w s
  | .scanMax t red d a w => Sys2Proof.Machine.execScanMax t red d a w s
  | .scanMini t red d a b w => Sys2Proof.Machine.execScanMini t red d a b w s
  | .scanMaxi t red d a b w => Sys2Proof.Machine.execScanMaxi t red d a b w s
  | .scanAnd red d a w => Sys2Proof.Machine.execScanAnd red d a w s
  | .scanOr red d a w => Sys2Proof.Machine.execScanOr red d a w s
  | .scanXor red d a w => Sys2Proof.Machine.execScanXor red d a w s
  | .scanFirst red d a w => Sys2Proof.Machine.execScanFirst red d a w s
  | .scanLast red d a w => Sys2Proof.Machine.execScanLast red d a w s
  | .compress d a w => Sys2Proof.Machine.execCompress d a w s
  | .expand d a w => Sys2Proof.Machine.execExpand d a w s
  | .rteLd xd off => Sys2Proof.Machine.execRteLd xd off s
  | .rteBpc xd a => Sys2Proof.Machine.execRteBpc xd a s
  | .rteSolve xd sd va sp => Sys2Proof.Machine.execRteSolve xd sd va sp s
  | .rteMv xd xa => Sys2Proof.Machine.execRteMv xd xa s
  | .rtePass vd va sp => Sys2Proof.Machine.execRtePass vd va sp s
  | .rteSt a xs => Sys2Proof.Machine.execRteSt a xs s
  | .cpBb d a b dep => Sys2Proof.Machine.execCpBb d a b dep s
  | .cpPb d a b dep => Sys2Proof.Machine.execCpPb d a b dep s
  | .cpBp d a b dep => Sys2Proof.Machine.execCpBp d a b dep s
  | .cpBo d a b dep => Sys2Proof.Machine.execCpBo d a b dep s
  | .cpRs dep => Sys2Proof.Machine.execCpRs dep s
  | .mwld m a b c ch dep => Sys2Proof.Machine.execMwld m a b c ch dep s
  | .mmul m a b c ch dep => Sys2Proof.Machine.execMmul m a b c ch dep s
  | .mdrn m a b c dep => Sys2Proof.Machine.execMdrn m a b c dep s
  | .mresume m dep => Sys2Proof.Machine.execMresume m dep s
  | .mdist m a b c ch dep => Sys2Proof.Machine.execMdist m a b c ch dep s
  | .mcent m a b c ch dep => Sys2Proof.Machine.execMcent m a b c ch dep s
  | .mbest m a b dep => Sys2Proof.Machine.execMbest m a b dep s
  | .mcdrn m a b c dep => Sys2Proof.Machine.execMcdrn m a b c dep s
  | .slotClaim o dep => Sys2Proof.Machine.execSlotClaim o dep s
  | .slotRelease o dep => Sys2Proof.Machine.execSlotRelease o dep s
  | .slotShape o a dep => Sys2Proof.Machine.execSlotShape o a dep s
  | .slotZero o dep => Sys2Proof.Machine.execSlotZero o dep s
  | .rld cls d a w dep => Sys2Proof.Machine.execRld cls d a w dep s
  | .rst cls a b w dep => Sys2Proof.Machine.execRst cls a b w dep s
  | .rcpGet cls d a b dep => Sys2Proof.Machine.execRcpGet cls d a b dep s
  | .rcpPut cls d a b dep => Sys2Proof.Machine.execRcpPut cls d a b dep s
  | .rcpRs dep => Sys2Proof.Machine.execRcpRs dep s
  | .rsig cls d a dep => Sys2Proof.Machine.execRsig cls d a dep s
  | .rsigRel cls d a dep => Sys2Proof.Machine.execRsigRel cls d a dep s
  | .amoAddFar cls d a b dep => Sys2Proof.Machine.execAmoAddFar cls d a b dep s
  | .amoAndFar cls d a b dep => Sys2Proof.Machine.execAmoAndFar cls d a b dep s
  | .amoOrFar cls d a b dep => Sys2Proof.Machine.execAmoOrFar cls d a b dep s
  | .amoXorFar cls d a b dep => Sys2Proof.Machine.execAmoXorFar cls d a b dep s
  | .amoMaxFar cls d a b dep => Sys2Proof.Machine.execAmoMaxFar cls d a b dep s
  | .amoMinFar cls d a b dep => Sys2Proof.Machine.execAmoMinFar cls d a b dep s
  | .amoFaddFar cls d a b dep => Sys2Proof.Machine.execAmoFaddFar cls d a b dep s
  | .amoFmaxFar cls d a b dep => Sys2Proof.Machine.execAmoFmaxFar cls d a b dep s
  | .amoFminFar cls d a b dep => Sys2Proof.Machine.execAmoFminFar cls d a b dep s
  | .amoSaddFar cls d a b dep => Sys2Proof.Machine.execAmoSaddFar cls d a b dep s
  | .amoSwapFar cls d a b dep => Sys2Proof.Machine.execAmoSwapFar cls d a b dep s
  | .amoCasFar cls d a b dep => Sys2Proof.Machine.execAmoCasFar cls d a b dep s
  | .hops d a b => Sys2Proof.Machine.execHops d a b s
  | .mcst n a b w dep => Sys2Proof.Machine.execMcst n a b w dep s
  | .mcstSt n a b w dep => Sys2Proof.Machine.execMcstSt n a b w dep s
  | .pbar cls ch dep => Sys2Proof.Machine.execPbar cls ch dep s
  | .mwin n a dep => Sys2Proof.Machine.execMwin n a dep s
  | .bundleIssue => Sys2Proof.Machine.execBundleIssue s
  | .quantumExpiry => Sys2Proof.Machine.execQuantumExpiry s
  | .tagWaitLimit => Sys2Proof.Machine.execTagWaitLimit s
  | .resultLanding => Sys2Proof.Machine.execResultLanding s
  | .bankAccessPerform => Sys2Proof.Machine.execBankAccessPerform s
  | .farGroupArrival => Sys2Proof.Machine.execFarGroupArrival s
  | .waitConditionMet => Sys2Proof.Machine.execWaitConditionMet s
  | .heldBundleRelease => Sys2Proof.Machine.execHeldBundleRelease s
  | .taskLaunchStart => Sys2Proof.Machine.execTaskLaunchStart s
  | .taskEnd => Sys2Proof.Machine.execTaskEnd s
  | .spillRefillComplete => Sys2Proof.Machine.execSpillRefillComplete s
  | .ctxswComplete => Sys2Proof.Machine.execCtxswComplete s
  | .cutBack => Sys2Proof.Machine.execCutBack s
  | .cutBackSaveEnd => Sys2Proof.Machine.execCutBackSaveEnd s
  | .arrivePerform => Sys2Proof.Machine.execArrivePerform s
  | .foldSetPerform => Sys2Proof.Machine.execFoldSetPerform s
  | .engineOpStart => Sys2Proof.Machine.execEngineOpStart s
  | .engineOpComplete => Sys2Proof.Machine.execEngineOpComplete s
  | .engineOpError => Sys2Proof.Machine.execEngineOpError s
  | .copyUnitCommit => Sys2Proof.Machine.execCopyUnitCommit s
  | .copyTagWaitLimit => Sys2Proof.Machine.execCopyTagWaitLimit s
  | .followOnIssue => Sys2Proof.Machine.execFollowOnIssue s
  | .translationWalkComplete => Sys2Proof.Machine.execTranslationWalkComplete s
  | .migratingLeafRewalk => Sys2Proof.Machine.execMigratingLeafRewalk s
  | .mmuResolveRetry => Sys2Proof.Machine.execMmuResolveRetry s
  | .mmuResolveFail => Sys2Proof.Machine.execMmuResolveFail s
  | .mmuResolveRefuse => Sys2Proof.Machine.execMmuResolveRefuse s
  | .mmuInval => Sys2Proof.Machine.execMmuInval s
  | .fillBegin => Sys2Proof.Machine.execFillBegin s
  | .fillComplete => Sys2Proof.Machine.execFillComplete s
  | .refreshWindowOpen => Sys2Proof.Machine.execRefreshWindowOpen s
  | .refreshWindowClose => Sys2Proof.Machine.execRefreshWindowClose s
  | .stationForcedRefresh => Sys2Proof.Machine.execStationForcedRefresh s
  | .fillCalWrite => Sys2Proof.Machine.execFillCalWrite s
  | .channelRedeal => Sys2Proof.Machine.execChannelRedeal s
  | .ucieFlitCrcFail => Sys2Proof.Machine.execUcieFlitCrcFail s
  | .stationParityDiscard => Sys2Proof.Machine.execStationParityDiscard s
  | .remoteAccessSend => Sys2Proof.Machine.execRemoteAccessSend s
  | .remoteAccessCommit => Sys2Proof.Machine.execRemoteAccessCommit s
  | .remoteReplyArrival => Sys2Proof.Machine.execRemoteReplyArrival s
  | .retryAfterExpiry => Sys2Proof.Machine.execRetryAfterExpiry s
  | .remoteTimeout => Sys2Proof.Machine.execRemoteTimeout s
  | .stMigWrite => Sys2Proof.Machine.execStMigWrite s
  | .mcstArrival => Sys2Proof.Machine.execMcstArrival s
  | .mcstLanding => Sys2Proof.Machine.execMcstLanding s
  | .pbarArrivalSend => Sys2Proof.Machine.execPbarArrivalSend s
  | .pbarRootCount => Sys2Proof.Machine.execPbarRootCount s
  | .pbarRelease => Sys2Proof.Machine.execPbarRelease s
  | .pbCtlWrite => Sys2Proof.Machine.execPbCtlWrite s
  | .syncRecal => Sys2Proof.Machine.execSyncRecal s
  | .syncLock => Sys2Proof.Machine.execSyncLock s
  | .serviceChange => Sys2Proof.Machine.execServiceChange s
  | .leaderElection => Sys2Proof.Machine.execLeaderElection s
  | .qTailWrite => Sys2Proof.Machine.execQTailWrite s
  | .launchPacket => Sys2Proof.Machine.execLaunchPacket s
  | .copyPacket => Sys2Proof.Machine.execCopyPacket s
  | .fencePacket => Sys2Proof.Machine.execFencePacket s
  | .fenceReread => Sys2Proof.Machine.execFenceReread s
  | .signalPacket => Sys2Proof.Machine.execSignalPacket s
  | .markPacket => Sys2Proof.Machine.execMarkPacket s
  | .qRheadWrite => Sys2Proof.Machine.execQRheadWrite s
  | .qCtlWrite => Sys2Proof.Machine.execQCtlWrite s
  | .ctxPreWrite => Sys2Proof.Machine.execCtxPreWrite s
  | .winRelWrite => Sys2Proof.Machine.execWinRelWrite s
  | .dieReset => Sys2Proof.Machine.execDieReset s
  | .svnCommit => Sys2Proof.Machine.execSvnCommit s
  | .featureLock => Sys2Proof.Machine.execFeatureLock s
  | .attestationRequest => Sys2Proof.Machine.execAttestationRequest s
  | .thermalShutdown => Sys2Proof.Machine.execThermalShutdown s
  | .stewardBankAccess => Sys2Proof.Machine.execStewardBankAccess s
  | .keyDelivery => Sys2Proof.Machine.execKeyDelivery s
  | .partitionDissolve => Sys2Proof.Machine.execPartitionDissolve s
  | .panelReset => Sys2Proof.Machine.execPanelReset s
  | .rejoinDelayExpiry => Sys2Proof.Machine.execRejoinDelayExpiry s
  | .incarnationAnnouncement => Sys2Proof.Machine.execIncarnationAnnouncement s
  | .flitReceive => Sys2Proof.Machine.execFlitReceive s
  | .linkReplay => Sys2Proof.Machine.execLinkReplay s
  | .lackIdleFlit => Sys2Proof.Machine.execLackIdleFlit s
  | .lnkModeWrite => Sys2Proof.Machine.execLnkModeWrite s
  | .modeRequestTimeout => Sys2Proof.Machine.execModeRequestTimeout s
  | .slotSend => Sys2Proof.Machine.execSlotSend s
  | .slotForward => Sys2Proof.Machine.execSlotForward s
  | .slotArrival => Sys2Proof.Machine.execSlotArrival s
  | .slotAckArrival => Sys2Proof.Machine.execSlotAckArrival s
  | .refusalNoticeArrival => Sys2Proof.Machine.execRefusalNoticeArrival s
  | .fabricRetryAfterExpiry => Sys2Proof.Machine.execFabricRetryAfterExpiry s
  | .grantArrival => Sys2Proof.Machine.execGrantArrival s
  | .drainMarkerArrival => Sys2Proof.Machine.execDrainMarkerArrival s
  | .slotResendTimeout => Sys2Proof.Machine.execSlotResendTimeout s
  | .slotPortWaitExpiry => Sys2Proof.Machine.execSlotPortWaitExpiry s
  | .ringRelockStart => Sys2Proof.Machine.execRingRelockStart s
  | .ringRelockEnd => Sys2Proof.Machine.execRingRelockEnd s
  | .wavelengthRetire => Sys2Proof.Machine.execWavelengthRetire s
  | .setup => Sys2Proof.Machine.execSetup s
  | .ack => Sys2Proof.Machine.execAck s
  | .nak => Sys2Proof.Machine.execNak s
  | .tear => Sys2Proof.Machine.execTear s
  | .tearAck => Sys2Proof.Machine.execTearAck s
  | .reservationTimeout => Sys2Proof.Machine.execReservationTimeout s
  | .setupTimeout => Sys2Proof.Machine.execSetupTimeout s
  | .backOffExpiry => Sys2Proof.Machine.execBackOffExpiry s
  | .pathLit => Sys2Proof.Machine.execPathLit s
  | .lightingTimeout => Sys2Proof.Machine.execLightingTimeout s
  | .tearingTimeout => Sys2Proof.Machine.execTearingTimeout s
  | .pathSetupRequest => Sys2Proof.Machine.execPathSetupRequest s
  | .pathTearRequest => Sys2Proof.Machine.execPathTearRequest s
  | .fabHoldSet => Sys2Proof.Machine.execFabHoldSet s
  | .fabHoldClear => Sys2Proof.Machine.execFabHoldClear s
  | .qpLoad => Sys2Proof.Machine.execQpLoad s
  | .qpReset => Sys2Proof.Machine.execQpReset s
  | .qpError => Sys2Proof.Machine.execQpError s
  | .doorbellWrite => Sys2Proof.Machine.execDoorbellWrite s
  | .workEntryServe => Sys2Proof.Machine.execWorkEntryServe s
  | .registerWrite => Sys2Proof.Machine.execRegisterWrite s
  | .powerThrottle => Sys2Proof.Machine.execPowerThrottle s
  | .stewardPanelAccess => Sys2Proof.Machine.execStewardPanelAccess s
  | .wavelengthSignalLoss => Sys2Proof.Machine.execWavelengthSignalLoss s

end Sys2Proof.Machine
end

