-- ==== Sys2Proof/Machine/Step.lean ====
section
/-! DEFINITION. One step of the machine: the next syllable of the bundle in progress, else the next step that is due,
the port stage of the cycle, or the next cycle. -/

namespace Sys2Proof.Machine

/-- One step. With a bundle in progress, its next syllable is decoded and run; bytes that decode to no instruction raise
the illegal-encoding trap (R92). -/
def step (s : State) : Host.Outcome State Fault Refusal :=
  if s.iss.active then
    match decodeBytes s.iss.buf with
    | .ok (i, _, _) =>
      match exec i s with
      | .next t => .next (t.afterSyllable i (rawSyl s.iss.buf))
      | r => r
    | .error _ => .next s.trapIllegal
  else
    match s.todo with
    | .ports => .next s.portStage
    | .due x k => exec x.act { s.dropDue k with ev := x.arg }
    | .tick => .next s.tick

/-- The state with an instruction placed where the next step takes it: the head of the bundle in progress. -/
def State.withFetchWord (s : State) (nbits w : Nat) : State := s.placeSyllable nbits w

end Sys2Proof.Machine
end

