-- ==== Sys2Proof/Safety.lean ====
section
/-! DEFINITION. What a well-formed state is, and what a safe run is, in the terms that claims use. -/

namespace Sys2Proof.Machine

/-- Weights are in canonical form; a weight that is not listed is 0, with scale 1. -/
def Weights.wf (w : Weights) : Bool := Sparse.wf w.w 0 && Sparse.wf w.scale 0x3C00

/-- What an array holds is in canonical form: its weights, accumulators and counts. -/
def Arr.wf (a : Arr) : Bool := a.live.wf && a.shadow.wf && Sparse.wf a.acc 0 && Sparse.wf a.cnt 0

/-- A die's sparse tables are in canonical form: banks, tags, truth tables, steward memory, slots, array contents. -/
def Die.wf (x : Die) : Bool :=
  x.bank.wf && Sparse.wf x.tags 0 && Sparse.wf x.truth Config.truthDefault && x.boot.sram.wf
    && x.slots.toList.all (fun t => t.bytes.wf) && x.arrays.toList.all Arr.wf

/-- Panel memory and the memories of every die are in canonical form, so that equal contents are equal data. -/
def State.wf (s : State) : Bool := s.mem.wf && s.dies.toList.all Die.wf

/-- A run of k steps from a state that neither faults nor is refused. -/
def runsFor (k : Nat) (s : State) : Prop := ∃ t, Sys2Proof.core.run k s = .next t

/-! ### What a step leaves as it was -/

/-- Every byte of panel memory and of every die's banks, its folds among them, reads in `t` as it reads in `s`. -/
def State.SameBytes (s t : State) : Prop :=
  (∀ a, t.mem.read a = s.mem.read a) ∧ ∀ (d : DieId) (a : Nat), (t.die d).bankByte a = (s.die d).bankByte a

/-- `t` is `s` but for what the agenda has gained, the counter of fresh numbers, and the context of the bundle in
progress, which is `c`: every other context, all else of every die, the bundle in progress, the stations, the panel, the
fabric and panel memory are as they were. -/
structure State.OnlyHere (s t : State) (c : Ctx) : Prop where
  here : t.ctx s.iss.die s.iss.ctx = c
  others : ∀ (d : DieId) (n : CtxId), d ≠ s.iss.die ∨ n ≠ s.iss.ctx → t.ctx d n = s.ctx d n
  dies : ∀ d : DieId, { t.die d with ctxs := (s.die d).ctxs } = s.die d
  rest : { t with dies := s.dies, agenda := s.agenda, fresh := s.fresh } = s

/-- The agenda of `t` is that of `s` with the steps of `l` on it. -/
def State.Schedules (s t : State) (l : List Sched) : Prop :=
  (∀ x, x ∈ t.agenda ↔ x ∈ s.agenda ∨ x ∈ l) ∧ ∃ m, t.agenda = s.agenda ++ m

/-- The bundle in progress is all that differs between `s` and `t`, and it is `i`. -/
def State.OnlyIssue (s t : State) (i : Issue) : Prop := t = { s with iss := i }

/-! ### Results in flight -/

/-- A result as the spec describes one: the cycles until it lands, its slot (R21), and what it does. -/
structure Result where
  lat : Nat
  slot : Nat
  land : Land
  deriving DecidableEq, Repr

/-- A flight of the bundle in progress that carries a result. -/
def State.Carries (s : State) (f : Flight) (r : Result) : Prop :=
  f.due = s.cycle + r.lat ∧ f.slot = r.slot ∧ f.bundle = s.iss.bundle ∧ f.hnd = s.cur.priv ∧ f.land = r.land

/-- The step that lands a result of the bundle in progress. -/
def State.landingOf (s : State) (r : Result) : Sched :=
  { due := s.cycle + r.lat, act := .resultLanding
    arg := { die := s.iss.die, ctx := s.iss.ctx, flag := r.land.isFlags } }

/-- From `s` to `t`, results `l` of the bundle in progress have been put in flight, each with its landing on the agenda,
and nothing else has changed: no register, no flag, no byte of memory. -/
def State.Gives (s t : State) (l : List Result) : Prop :=
  ∃ fs : List Flight, List.Forall₂ s.Carries fs l ∧ s.OnlyHere t { s.cur with flight := s.cur.flight ++ fs }
    ∧ s.Schedules t (l.map s.landingOf) ∧ s.SameBytes t

/-- An instruction answers a next state in which exactly the results `l` have been put in flight. -/
def State.Yields (s : State) (i : Instr) (l : List Result) : Prop := ∃ t, exec i s = .next t ∧ s.Gives t l

/-- A result, and beside it the sticky flags it sets, if it sets any (R17). -/
def withFlags (lat slot : Nat) (l : Land) (f : Flg) : List Result :=
  { lat := lat, slot := slot, land := l } :: if f = 0 then [] else [{ lat := lat, slot := slot, land := .flags f }]

/-! ### Integer values (R36 to R40, R101) -/

/-- The low bits of a scalar register that an instruction of a type works on (R38). -/
def Ty.low (t : Ty) (a : Word) : BitVec t.width := a.setWidth t.width

/-- The integer that w bits hold under a type. -/
def Ty.int (t : Ty) (a : BitVec t.width) : Int := if Ty.signed t then a.toInt else a.toNat

/-- The register value of w result bits: signed types extend the sign, unsigned types extend with zeros (R38). -/
def Ty.ext (t : Ty) (v : BitVec t.width) : Word := if Ty.signed t then v.signExtend 64 else v.setWidth 64

/-- The rule of R39 and R101: the exact integer `x` of a result, the w bits that are kept of it, and the flag. In range
the integer itself and no flag; out of range the nearest end of the range and `saturated` with saturation, the low w bits
and `overflow` without. -/
structure Reduced (t : Ty) (sat : Bool) (x : Int) (v : BitVec t.width) (f : Flg) : Prop where
  inRange : tyMin t ≤ x → x ≤ tyMax t → Ty.int t v = x ∧ f = 0
  below : x < tyMin t → sat = true → Ty.int t v = tyMin t ∧ f = fSaturated
  above : tyMax t < x → sat = true → Ty.int t v = tyMax t ∧ f = fSaturated
  wraps : x < tyMin t ∨ tyMax t < x → sat = false → v = BitVec.ofInt t.width x ∧ f = fOverflow

/-- The integer that an instruction of a type reads of a scalar source. -/
def State.intOf (s : State) (t : Ty) (a : Src) : Int := Ty.int t (Ty.low t (s.src a))

/-- An integer instruction of the bundle in progress answers a next state in which the result of the exact integer `x`,
reduced to its type, is in flight to its destination. -/
def State.YieldsInt (s : State) (i : Instr) (lat : Nat) (t : Ty) (d : Dst) (x : Int) : Prop :=
  ∃ v f, Reduced t s.cap.sat x v f ∧ s.Yields i (withFlags lat s.intSlot (.scalar d (Ty.ext t v)) f)

/-- As `YieldsInt`, with the w bits of the result given and no flag. -/
def State.YieldsBits (s : State) (i : Instr) (lat : Nat) (t : Ty) (d : Dst) (v : BitVec t.width) : Prop :=
  s.Yields i [{ lat := lat, slot := s.intSlot, land := .scalar d (Ty.ext t v) }]

/-! ### Elements of vectors (R37, R217) -/

/-- Element j of width w of a vector register. -/
def elem (w : Nat) (v : VReg) (j : Nat) : BitVec w := v.extractLsb' (w * j) w

/-- A vector result, given element by element with the flags of each: the vector, and the union of the flags. -/
def VecOf (w : Nat) (e : Nat → BitVec w × Flg) (r : VReg) (f : Flg) : Prop :=
  (∀ j, j < 8192 / w → elem w r j = (e j).1) ∧ f = (List.range (8192 / w)).foldl (fun acc j => acc ||| (e j).2) 0

/-- As `Yields`, for a vector result given element by element: it lands through the mask in effect at issue (R218). -/
def State.YieldsVec (s : State) (i : Instr) (lat : Nat) (d : Dst) (w : Nat) (e : Nat → BitVec w × Flg) : Prop :=
  ∃ r f, VecOf w e r f ∧ s.Yields i (withFlags lat s.vecSlot (.vector d r s.rf.mask) f)

/-- As `YieldsVec`, each element being an exact integer reduced to the type (R39). -/
def State.YieldsReduced (s : State) (i : Instr) (lat : Nat) (t : Ty) (d : Dst) (x : Nat → Int) : Prop :=
  ∃ e : Nat → BitVec t.width × Flg, (∀ j, Reduced t s.cap.sat (x j) (e j).1 (e j).2) ∧ s.YieldsVec i lat d t.width e

/-- As `YieldsVec` at latency 2, with the wide flag set of the slot a cycle later: its count is the number of lanes of the
computed result that are not zero, whatever the mask (R219). -/
def State.YieldsWide (s : State) (i : Instr) (d : Dst) (w : Nat) (e : Nat → BitVec w × Flg) : Prop :=
  ∃ r f, VecOf w e r f ∧ ∃ n : BitVec 9, n.toNat = ((List.range 256).filter fun p => elem 32 r p ≠ 0).length
    ∧ s.Yields i (withFlags 2 s.vecSlot (.vector d r s.rf.mask) f
        ++ [⟨3, s.vecSlot, .wide (if s.vecSlot = 3 then .va else .vb) n⟩])

/-- The blocks of R231 over 256 elements, by the ratio `r`: where each starts, and the least and the greatest finite
nonzero magnitude that the open block has met before each element. -/
structure QuantBlocks (r : Val) (x : Nat → Val) (start : Nat → Bool) (lo hi : Nat → Val) : Prop where
  begin_ : lo 0 = .inf false ∧ hi 0 = .zero false
  skip : ∀ j, j < 256 → (x j).isNum = false → start j = decide (j = 0) ∧ lo (j + 1) = lo j ∧ hi (j + 1) = hi j
  cut : ∀ j, j < 256 → (x j).isNum = true →
    0 < j ∧ cmpVal (maxMag (hi j) (x j).absVal) (mulExact r (minMag (lo j) (x j).absVal)).1 = .gt →
    start j = true ∧ lo (j + 1) = (x j).absVal ∧ hi (j + 1) = (x j).absVal
  join : ∀ j, j < 256 → (x j).isNum = true →
    ¬ (0 < j ∧ cmpVal (maxMag (hi j) (x j).absVal) (mulExact r (minMag (lo j) (x j).absVal)).1 = .gt) →
    start j = decide (j = 0) ∧ lo (j + 1) = minMag (lo j) (x j).absVal ∧ hi (j + 1) = maxMag (hi j) (x j).absVal

/-! ### Bank accesses on their way (R278) -/

/-- From `s` to `t`, the access `a` of the bundle in progress has been put on its way, to be performed in its cycle and
place of the port order, and nothing else has changed: no register, no flag, no byte. -/
structure State.Sends (s t : State) (a : Access) : Prop where
  listed : (t.die s.iss.die).accs = (s.die s.iss.die).accs ++ [a]
  same : { t.die s.iss.die with accs := (s.die s.iss.die).accs } = s.die s.iss.die
  others : ∀ d : DieId, d ≠ s.iss.die → t.die d = s.die d
  agenda : t.agenda = s.agenda ++
    [{ due := a.due, act := .bankAccessPerform, arg := { die := s.iss.die, ord := a.ord, id := a.id } }]
  rest : { t with dies := s.dies, agenda := s.agenda, fresh := s.fresh } = s
  bytes : s.SameBytes t

/-- An instruction of the bundle in progress answers a next state in which a bank access is on its way: it is performed
`lat` cycles on, in the window of the context. -/
def State.YieldsAccess (s : State) (i : Instr) (lat : Nat) (ord : PortStep) (slot : Nat) (cls : Fin 16)
    (tag : Option (BitVec 8)) (k : AccKind) : Prop :=
  ∃ t id, exec i s = .next t ∧ s.Sends t
    { id := id, due := s.cycle + lat, ord := ord, ctx := s.iss.ctx, bundle := s.iss.bundle, hnd := s.cur.priv
      slot := slot, cls := cls, tag := tag, pc := s.iss.p, win := s.cur.win, kind := k }

/-- The class of an access (R87): the prefix's where it gives one, else the syllable's own. -/
def State.classOf (s : State) (own : Fin 16) : Fin 16 :=
  match s.iss.pfx with
  | some p => if p.clsEn then p.cls else own
  | none => own

/-- The expected tag of an access (R87): the prefix's, where it gives one. -/
def State.wantTag (s : State) : Option (BitVec 8) :=
  match s.iss.pfx with
  | some p => if p.tagEn then some p.tag else none
  | none => none

/-- The bundle in progress waits for `w` before the next, and nothing else changes. -/
def State.YieldsWait (s : State) (i : Instr) (w : Wait) : Prop :=
  exec i s = .next { s with iss := { s.iss with waits := s.iss.waits ++ [w] } }

/-- The branch of the bundle in progress: taken, the bundle has its target, and nothing else changes. -/
def State.YieldsBranch (s : State) (i : Instr) (taken : Prop) (target : Word) : Prop :=
  (taken → exec i s = .next { s with iss := { s.iss with target := some target } }) ∧ (¬ taken → exec i s = .next s)

/-! ### Engine operations at issue (R141 to R149, R170) -/

/-- What an operation of the bundle in progress captures: its operands, class, tag, formats, window, fold and token, and
each consumed token that is not its own, as the operation it waits for or as the state it has. -/
structure State.OpFor (s : State) (i : Instr) (k : Deps) (own : Fin 16) (va vb vc vd : Word) (o : Op) : Prop where
  ins : o.ins = i
  issued : o.ctx = s.iss.ctx ∧ o.bundle = s.iss.bundle ∧ o.issued = s.cycle ∧ o.hnd = s.cur.priv
  vals : o.va = va ∧ o.vb = vb ∧ o.vc = vc ∧ o.vd = vd
  captured : o.cls = s.classOf own ∧ o.tag = s.wantTag ∧ o.fmt = s.cap ∧ o.win = s.cur.win
  fold : o.fold = k.fold
  token : o.tp = k.tp
  fresh : o.st = .queued ∧ o.err = 0 ∧ o.abort = false ∧ o.progress = 0
  deps : ∀ x, x ∈ o.deps ↔ ∃ n, (n = k.tc0 ∨ n = k.tc1 ∨ n = k.tc2) ∧ n ≠ k.tp
    ∧ x = if s.cur.tok[n] = .pending then .ref s.cur.tokOp[n] else .was s.cur.tok[n]

/-- From `s` to `t`, operation `o` has joined the end of queue `q`: its token goes pending at the end of the cycle, its macro
record is begun (R170), and nothing else changes: no register, no other queue, no byte. -/
structure State.Enqueued (s t : State) (q : Fin 19) (k : Deps) (o : Op) : Prop where
  queues : ∀ p : Fin 19, (t.die s.iss.die).queues[p]
    = if p = q then (s.die s.iss.die).queues[q] ++ [o] else (s.die s.iss.die).queues[p]
  pending : (t.die s.iss.die).tokEvts = (s.die s.iss.die).tokEvts ++ [(s.iss.ctx, k.tp, .pending)]
  same : { t.die s.iss.die with queues := (s.die s.iss.die).queues, tokEvts := (s.die s.iss.die).tokEvts
                                ctxs := (s.die s.iss.die).ctxs } = s.die s.iss.die
  dies : ∀ d : DieId, d ≠ s.iss.die → t.die d = s.die d
  ctxs : ∀ n : CtxId, n ≠ s.iss.ctx → t.ctx s.iss.die n = s.ctx s.iss.die n
  tokOp : ∀ n : TokId, (t.ctx s.iss.die s.iss.ctx).tokOp[n] = if n = k.tp then o.id else s.cur.tokOp[n]
  files : ∀ h : Bool, ∃ a b, (t.ctx s.iss.die s.iss.ctx).file h = { s.cur.file h with touched := a, dirty := b }
  context : ∃ f g u m h r p, t.ctx s.iss.die s.iss.ctx = { s.cur with
      task := f, hnd := g, unbound := u, macroRec := m, hndRec := h, recHnd := r, tokOp := p }
    ∧ (let e := if s.cur.priv then h[k.tp] else m[k.tp]
       e.extractLsb' 0 64 = 0 ∧ e.extractLsb' 64 8 = 0 ∧ e.extractLsb' 72 8 = 1 ∧ (e.extractLsb' 80 8).toNat = q.val)
    ∧ ∀ n : TokId, n ≠ k.tp → m[n] = s.cur.macroRec[n] ∧ h[n] = s.cur.hndRec[n]
  rest : { t with dies := s.dies, fresh := s.fresh } = s
  bytes : s.SameBytes t

/-- An engine syllable of the bundle in progress answers a next state in which its operation stands last in queue `q`. -/
def State.YieldsOp (s : State) (i : Instr) (q : Fin 19) (k : Deps) (own : Fin 16) (va vb vc vd : Word) : Prop :=
  ∃ t o, exec i s = .next t ∧ s.OpFor i k own va vb vc vd o ∧ s.Enqueued t q k o

end Sys2Proof.Machine
end

