-- ==== Sys2Proof/Certificates/Slice0/Obligations.lean ====
section
/-! DEFINITION. The statements for the provers: what the spec's rules say of the instructions and of the machine. -/

open Sys2Proof Sys2Proof.Machine

/-! ### Encodings (R70 to R93) -/

/-- Syllables of the spec's examples, with the fields that the examples name, and `nop` and `eret`. -/
def Obligations.DecodeWords : Prop :=
  let tok (k : TokId) : Deps := { fold := none, tp := k, tc2 := k, tc1 := k, tc0 := k }
  decodeTableWord 32 0x50C41004 = some (.add .s64 (.named 1) (.named 2) (.named 3))
  ∧ decodeTableWord 32 0x00000100 = some (.pfx { rnd := some .rz })
  ∧ decodeTableWord 32 0x3C4A4029 = some (.vaddF .f32 (.named 4) (.named 5) (.queue 1) none)
  ∧ decodeTableWord 32 0x02843409 = some (.ceqImm false (.named 3) (.named 2) 10)
  ∧ decodeTableWord 32 0x0102059D = some (.loop 0 (.named 1) 4)
  ∧ decodeTableWord 32 0x000003A1 = some .eret ∧ decodeTableWord 32 0x00000021 = some .nop
  ∧ decodeTableWord 32 0x008230B5 = some (.vquant .s8 (.named 3) (.named 1) (.named 2) none)
  ∧ decodeTableWord 32 0x40823131 = some (.vclt .s32 (.named 3) (.named 1) (.named 2) none)
  ∧ decodeTableWord 32 0x0041031D = some (.bcntGe .va (.named 4) 4)
  ∧ decodeTableWord 32 0x40003025 = some (.waitTok (.one 3))
  ∧ decodeTableWord 64 0x00041041088601CB = some (.cpBo (.named 1) (.named 2) (.named 3) (tok 1))
  ∧ decodeTableWord 64 0x840C30C20298E14F =
      some (.mdrn 0 (.named 5) (.named 6) (.named 7) { fold := some 4, tp := 3, tc2 := 3, tc1 := 3, tc0 := 2 })
  ∧ decodeTableWord 64 0x000410411010F0DB = some (.rst 1 (.named 4) (.named 7) true (tok 1))
  ∧ decodeTableWord 32 0x0082305D = some (.hops (.named 3) (.named 1) (.named 2))
  ∧ decodeTableWord 64 0x000820820390B0DF = some (.mcstSt 3 (.named 4) (.named 5) true (tok 2))
  ∧ decodeTableWord 64 0x0000000000000F7F = some (.bundleRoute false 0 (.reg 3))

/-- Decoding and encoding agree: the bytes of a well-formed syllable, with either value of its s bit and whatever follows
it in the stream, decode to that syllable, every operand at every value, to its s bit and to the bytes that follow. -/
def Obligations.DecodeEncodeRoundTrip : Prop :=
  ∀ (i : Instr) (stop : Bool) (w : Nat) (rest : List Byte), i.wf = true → encodeSyl i stop = some w →
    decodeBytes (leBytes (if w / 2 % 2 = 1 then 8 else 4) w ++ rest) = .ok (i, stop, rest)

/-- What the decoder answers is a well-formed syllable: no step of the part's own units has an encoding. -/
def Obligations.DecodedIsWellFormed : Prop :=
  ∀ (w : Nat) (i : Instr), decodeSyl w = .ok i → i.wf = true ∧ i.isSyllable = true

/-- No encodings but those of the opcode map: the minors of each major, the syllable length each accepts, and the majors
that are reserved. -/
def Obligations.AssignedEncodings : Prop :=
  ∀ (w : Nat) (i : Instr), decodeSyl w = .ok i →
    let long : Bool := decide (w / 2 % 2 = 1)
    let major := w / 4 % 32
    let minor := w / 128 % 32
    (major < 24 ∨ major = 31)
    ∧ (major = 0 → long = false) ∧ (major = 1 → minor < 29 ∧ long = false) ∧ (major = 2 → minor < 14 ∧ long = false)
    ∧ (major = 3 → minor < 11 ∧ long = true) ∧ (major = 4 → minor < 1 ∧ long = false)
    ∧ (major = 5 → minor < 5 ∧ long = (decide (minor = 2) || decide (minor = 3)))
    ∧ (major = 6 → minor < 12 ∧ long = true) ∧ (major = 7 → minor < 15 ∧ long = false)
    ∧ (major = 8 → minor < 9 ∧ long = false) ∧ (major = 9 → minor < 7 ∧ long = false)
    ∧ (major = 10 → minor < 10) ∧ (major = 11 → minor < 18) ∧ (major = 12 → minor < 10) ∧ (major = 13 → minor < 4)
    ∧ (major = 14 → minor < 4) ∧ (major = 15 → minor < 4) ∧ (major = 16 → minor < 12)
    ∧ (major = 17 → minor < 6 ∧ long = false) ∧ (major = 18 → minor < 5 ∧ long = true)
    ∧ (major = 19 → minor < 4 ∧ long = true) ∧ (major = 20 → minor < 4 ∧ long = true)
    ∧ (major = 21 → minor < 4 ∧ long = true) ∧ (major = 22 → minor < 17 ∧ long = true)
    ∧ (major = 23 → minor < 4 ∧ long = !decide (minor = 0)) ∧ (major = 31 → long = true)

/-! ### One step -/

/-- A step runs the decoded syllable: with a bundle in progress whose next bytes decode, the step is that syllable's
meaning and then what follows a syllable: its bytes are taken off, it is counted, a prefix stays for it and no longer,
and after the last one the bundle ends. A bundle that its syllable has ended with a trap stays ended. -/
def Obligations.StepRunsDecoded : Prop :=
  ∀ (s t : State) (i : Instr) (stop : Bool) (rest : List Byte), s.iss.active = true →
    decodeBytes s.iss.buf = .ok (i, stop, rest) → exec i s = .next t →
    step s = .next (t.afterSyllable i (rawSyl s.iss.buf)) ∧ (rawSyl s.iss.buf).stop = stop
    ∧ s.iss.buf.drop (rawSyl s.iss.buf).len = rest
    ∧ (t.iss.active = false → step s = .next t)
    ∧ (t.iss.active = true → stop = false → ∃ u, step s = .next u ∧ u.iss.buf = t.iss.buf.drop (rawSyl s.iss.buf).len
        ∧ u.iss.taken = t.iss.taken + 1 ∧ u.iss.active = true ∧ u.iss.p = t.iss.p ∧ u.iss.target = t.iss.target
        ∧ u.agenda = t.agenda ∧ u.SameBytes t ∧ (∀ d n, u.ctx d n = t.ctx d n) 
        ∧ u.iss.pfx = if sylMajor (rawSyl s.iss.buf) = 0 then t.iss.pfx else none)

/-- Bytes of a bundle in progress that decode to nothing raise the illegal-encoding trap. -/
def Obligations.StepTrapsUndecodable : Prop :=
  ∀ (s : State) (e : Reject), s.iss.active = true → decodeBytes s.iss.buf = .error e → step s = .next s.trapIllegal

/-- With no bundle in progress, the step is the first of the least phase among the steps that are due, or the port stage,
or the next cycle: that a cycle has these phases, a port stage among them, and that a step runs one entry of the agenda, is
the model's choice (log 3). -/
def Obligations.StepDue : Prop :=
  ∀ (s : State), s.iss.active = false →
    ((∀ x ∈ s.agenda, s.cycle < x.due) → s.portsDone = true → step s = .next s.tick)
    ∧ ((∀ x ∈ s.agenda, s.cycle < x.due) → s.portsDone = false → step s = .next s.portStage)
    ∧ ∀ (l r : List Sched) (x : Sched), s.agenda = l ++ x :: r → x.due ≤ s.cycle →
        (∀ y ∈ l, y.due ≤ s.cycle → stepPhase x < stepPhase y) → (∀ y ∈ r, y.due ≤ s.cycle → stepPhase x ≤ stepPhase y) →
        (stepPhase x < 63 ∨ s.portsDone = true → step s = exec x.act { s with agenda := l ++ r, ev := x.arg })
        ∧ (63 ≤ stepPhase x → s.portsDone = false → step s = .next s.portStage)

/-- A word placed where the step takes its next syllable is the one that the next step runs. -/
def Obligations.FetchWordRuns : Prop :=
  ∀ (nbits w : Nat) (i : Instr), decodeTableWord nbits w = some i →
    ∃ u, u = State.reset.withFetchWord nbits w ∧ ∀ t, exec i u = .next t →
      step u = .next (t.afterSyllable i (rawSyl u.iss.buf))

/-- The machine never stops: every step answers a next state. -/
def Obligations.EveryStepCompletes : Prop := ∀ s : State, ∃ t, step s = .next t

/-! ### Reset and canonical form -/

/-- After reset: contexts free, queues 0, the mask stack one entry of all ones, no flag or enable, tag_limit 31, folds 0,
nobody holding the width, engine and far queues empty, the register tables' values, and 120 exposed dies in service, the
spares out. The form and which sites are spare are the model's choice (logs 1, 4, 105), and so is 0 where the spec gives no
value (log 5): a context's registers among them. -/
def Obligations.ResetValues : Prop :=
  let s := State.reset
  s.cycle = 0 ∧ s.iss.active = false ∧ s.mem = [] ∧ s.panel.grade = 120 ∧ s.panel.locked = false
  ∧ (∀ (d : DieId) (n : CtxId), (s.ctx d n).st = .free ∧ (s.ctx d n).priv = false
      ∧ (s.ctx d n).task.fmt = 0 ∧ (s.ctx d n).task.flg = 0 ∧ (s.ctx d n).task.depth = 1
      ∧ (s.ctx d n).task.masks[(0 : Fin 8)] = BitVec.allOnes 256 ∧ (s.ctx d n).tagLimit = 31
      ∧ (s.ctx d n).tagWait = false ∧ (s.ctx d n).opStrict = false ∧ (s.ctx d n).trapCause = 0
      ∧ (∀ k : Fin 16, (s.ctx d n).task.src (.queue k) = 0) ∧ (∀ t : TokId, (s.ctx d n).tok[t] = .free)
      ∧ (∀ l : Fin 4, ((s.ctx d n).task.loops[l]).armed = false))
  ∧ (∀ (d : DieId) (f : FoldId), ((s.die d).folds[f]) = {})
  ∧ (∀ d : DieId, (s.die d).seq.quantum = 4096 ∧ (s.die d).seq.holder = none ∧ (s.die d).seq.inReset = true
      ∧ (s.die d).farIn = [] ∧ (∀ q : Fin 19, (s.die d).queues[q] = []) ∧ (s.die d).pbLat = 768
      ∧ (s.die d).mem.timeout = 1953 ∧ (s.die d).mem.retry = 4096 ∧ (s.die d).boot.limitMw = 330000)
  ∧ (∀ d : DieId, (s.die d).inService = true ↔ s.panel.expo[d] = .exposed)
  ∧ (∀ d : DieId, s.panel.expo[d] = .exposed ∨ s.panel.expo[d] = .spare)
  ∧ ((List.finRange 128).filter fun d : DieId => (s.die d).inService).length = 120
  ∧ (∀ i : StackId, (s.station i).retry = 2048 ∧ (s.station i).chan = 0xFFFFAAAA55550000)
  ∧ s.fabric.window = 64 ∧ s.fabric.retries = 4 ∧ s.fabric.rto = 200
  ∧ (∀ q : QueueId, (s.queue q).state = 0 ∧ (s.queue q).head = 0 ∧ (s.queue q).tail = 0 ∧ (s.queue q).ringSize = 12
      ∧ (s.queue q).repSize = 12)
  ∧ (∀ x ∈ s.agenda, x.act = .dieReset ∨ x.act = .rejoinDelayExpiry)

/-- After reset every memory is in canonical form. -/
def Obligations.ResetWf : Prop := State.reset.wf = true

/-- Every step keeps every memory of the panel in canonical form, from whatever state: panel memory, the banks, tags and
truth tables of every die, its steward memory and its operand slots; and the accumulators, counts and weights of its arrays
their form. -/
def Obligations.StepKeepsWf : Prop :=
  ∀ s t : State, s.wf = true → step s = .next t → t.wf = true

/-! ### Integer instructions (R101 to R108) -/

/-- The instructions whose result is an exact integer reduced to its type: sums, differences, products,
negation and absolute value, in the register form. -/
def Obligations.IntegerArithmetic : Prop :=
  ∀ (s : State) (t : Ty) (d : Dst) (a b : Src), t.isScalarInt = true →
    s.YieldsInt (.add t d a b) 1 t d (s.intOf t a + s.intOf t b)
    ∧ s.YieldsInt (.sub t d a b) 1 t d (s.intOf t a - s.intOf t b)
    ∧ s.YieldsInt (.mul t d a b) 3 t d (s.intOf t a * s.intOf t b)
    ∧ s.YieldsInt (.neg t d a) 1 t d (- s.intOf t a)
    ∧ s.YieldsInt (.abs t d a) 1 t d (if s.intOf t a < 0 then - s.intOf t a else s.intOf t a)

/-- The immediate forms of the same: imm9 is sign-extended to 64 bits, imm32 is extended by the type. -/
def Obligations.IntegerArithmeticImmediate : Prop :=
  (∀ (s : State) (z : Bool) (d : Dst) (a : Src) (i : BitVec 9),
    let t : Ty := if z then .z64 else .s64
    s.YieldsInt (.addImm z d a i) 1 t d (s.intOf t a + Ty.int t (Ty.low t (i.signExtend 64)))
    ∧ s.YieldsInt (.mulImm z d a i) 3 t d (s.intOf t a * Ty.int t (Ty.low t (i.signExtend 64)))
    ∧ (i.toNat < 64 → s.YieldsInt (.shlImm z d a i) 1 t d (s.intOf t a * 2 ^ i.toNat)))
  ∧ ∀ (s : State) (t : Ty) (d : Dst) (a : Src) (i : BitVec 32), t.isScalarInt = true →
    let x : Word := if Ty.signed t then i.signExtend 64 else i.setWidth 64
    s.YieldsInt (.addLong t d a i) 1 t d (s.intOf t a + Ty.int t (Ty.low t x))
    ∧ s.YieldsInt (.mulLong t d a i) 3 t d (s.intOf t a * Ty.int t (Ty.low t x))

/-- Division and remainder truncate toward zero; with a divisor of 0 the quotient is 0 and the remainder is the dividend,
and the flag divzero is set. The type's minimum by -1 sets overflow, or saturated. The high product is the floor of the exact product by 2^w. -/
def Obligations.IntegerDivision : Prop :=
  ∀ (s : State) (t : Ty) (d : Dst) (a b : Src), t.isScalarInt = true →
    let x := s.intOf t a
    let y := s.intOf t b
    (y ≠ 0 → s.YieldsInt (.div t d a b) 12 t d (Int.tdiv x y))
    ∧ (y ≠ 0 → ¬(x = tyMin t ∧ y = -1 ∧ Ty.signed t = true) →
      s.YieldsBits (.rem t d a b) 12 t d (BitVec.ofInt t.width (Int.tmod x y)))
    ∧ (x = tyMin t ∧ y = -1 ∧ Ty.signed t = true → s.Yields (.rem t d a b)
      (withFlags 12 s.intSlot (.scalar d 0) (if s.cap.sat then fSaturated else fOverflow)))
    ∧ (y = 0 → s.Yields (.div t d a b) (withFlags 12 s.intSlot (.scalar d 0) fDivzero)
      ∧ s.Yields (.rem t d a b) (withFlags 12 s.intSlot (.scalar d (Ty.ext t (Ty.low t (s.src a)))) fDivzero))
    ∧ s.YieldsBits (.mulh t d a b) 3 t d (BitVec.ofInt t.width (x * y / 2 ^ t.width))

/-- The bitwise instructions in all their forms. -/
def Obligations.IntegerLogic : Prop :=
  (∀ (s : State) (t : Ty) (d : Dst) (a b : Src), t.isScalarInt = true →
    let x := Ty.low t (s.src a)
    let y := Ty.low t (s.src b)
    s.YieldsBits (.and t d a b) 1 t d (x &&& y) ∧ s.YieldsBits (.or t d a b) 1 t d (x ||| y)
    ∧ s.YieldsBits (.xor t d a b) 1 t d (x ^^^ y) ∧ s.YieldsBits (.andn t d a b) 1 t d (x &&& ~~~y))
  ∧ (∀ (s : State) (z : Bool) (d : Dst) (a : Src) (i : BitVec 9),
    let t : Ty := if z then .z64 else .s64
    let x := Ty.low t (s.src a)
    let y := Ty.low t (i.signExtend 64)
    s.YieldsBits (.andImm z d a i) 1 t d (x &&& y) ∧ s.YieldsBits (.orImm z d a i) 1 t d (x ||| y)
    ∧ s.YieldsBits (.xorImm z d a i) 1 t d (x ^^^ y))
  ∧ ∀ (s : State) (t : Ty) (d : Dst) (a : Src) (i : BitVec 32), t.isScalarInt = true →
    let x := Ty.low t (s.src a)
    let y := Ty.low t (if Ty.signed t then i.signExtend 64 else i.setWidth 64)
    s.YieldsBits (.andLong t d a i) 1 t d (x &&& y) ∧ s.YieldsBits (.orLong t d a i) 1 t d (x ||| y)
    ∧ s.YieldsBits (.xorLong t d a i) 1 t d (x ^^^ y)

/-- Shifts and rotates by the low log2(w) bits of b: `shl` reduces the exact product, `shr` fills with zeros, `sar` with
bit w - 1 whatever the signedness, and their patterns are extended by the type; and the counts of leading zeros and ones. -/
def Obligations.IntegerShiftsAndCounts : Prop :=
  (∀ (s : State) (t : Ty) (d : Dst) (a b : Src), t.isScalarInt = true →
    let x := Ty.low t (s.src a)
    let n := (s.src b).toNat % t.width
    s.YieldsInt (.shl t d a b) 1 t d (s.intOf t a * 2 ^ n)
    ∧ s.YieldsBits (.shr t d a b) 1 t d (x >>> n) ∧ s.YieldsBits (.sar t d a b) 1 t d (x.sshiftRight n)
    ∧ s.YieldsBits (.rot t d a b) 1 t d (x.rotateLeft n)
    ∧ (∃ n : Nat, s.YieldsBits (.clz t d a) 1 t d (BitVec.ofNat t.width n)
      ∧ n ≤ t.width ∧ x.toNat < 2 ^ (t.width - n) ∧ (n < t.width → 2 ^ (t.width - n - 1) ≤ x.toNat))
    ∧ s.YieldsBits (.popc t d a) 1 t d
        (BitVec.ofNat t.width ((List.range t.width).filter fun k => x.getLsbD k).length))
  ∧ ∀ (s : State) (z : Bool) (d : Dst) (a : Src) (i : BitVec 9), i.toNat < 64 →
    let t : Ty := if z then .z64 else .s64
    let x := Ty.low t (s.src a)
    s.YieldsBits (.shrImm z d a i) 1 t d (x >>> i.toNat) ∧ s.YieldsBits (.sarImm z d a i) 1 t d (x.sshiftRight i.toNat)

/-- Compares give 1 or 0; minimum and maximum give one of the operands, by the order of the type. -/
def Obligations.IntegerCompares : Prop :=
  (∀ (s : State) (t : Ty) (d : Dst) (a b : Src), t.isScalarInt = true →
    let x := s.intOf t a
    let y := s.intOf t b
    s.YieldsBits (.ceq t d a b) 1 t d (if x = y then 1 else 0) ∧ s.YieldsBits (.cne t d a b) 1 t d (if x = y then 0 else 1)
    ∧ s.YieldsBits (.clt t d a b) 1 t d (if x < y then 1 else 0) ∧ s.YieldsBits (.cle t d a b) 1 t d (if x ≤ y then 1 else 0)
    ∧ s.YieldsBits (.min t d a b) 1 t d (Ty.low t (if x ≤ y then s.src a else s.src b))
    ∧ s.YieldsBits (.max t d a b) 1 t d (Ty.low t (if x ≤ y then s.src b else s.src a)))
  ∧ (∀ (s : State) (z : Bool) (d : Dst) (a : Src) (i : BitVec 9),
    let t : Ty := if z then .z64 else .s64
    let x := s.intOf t a
    let y := Ty.int t (Ty.low t (i.signExtend 64))
    s.YieldsBits (.ceqImm z d a i) 1 t d (if x = y then 1 else 0)
    ∧ s.YieldsBits (.cltImm z d a i) 1 t d (if x < y then 1 else 0)
    ∧ s.YieldsBits (.cleImm z d a i) 1 t d (if x ≤ y then 1 else 0)
    ∧ s.YieldsBits (.minImm z d a i) 1 t d (Ty.low t (if x ≤ y then s.src a else i.signExtend 64))
    ∧ s.YieldsBits (.maxImm z d a i) 1 t d (Ty.low t (if x ≤ y then i.signExtend 64 else s.src a)))
  ∧ ∀ (s : State) (t : Ty) (d : Dst) (a : Src) (i : BitVec 32), t.isScalarInt = true →
    let x := s.intOf t a
    let y := Ty.int t (Ty.low t (if Ty.signed t then i.signExtend 64 else i.setWidth 64))
    s.YieldsBits (.ceqLong t d a i) 1 t d (if x = y then 1 else 0)
    ∧ s.YieldsBits (.cltLong t d a i) 1 t d (if x < y then 1 else 0)
    ∧ s.YieldsBits (.cleLong t d a i) 1 t d (if x ≤ y then 1 else 0)

/-- Moves, the select on all 64 bits, `movh` (imm32 over the low half of a) and `adr`. -/
def Obligations.IntegerMoves : Prop :=
  (∀ (s : State) (t : Ty) (d : Dst) (a : Src) (i : BitVec 32), t.isScalarInt = true →
    s.YieldsBits (.mov t d a) 1 t d (Ty.low t (s.src a))
    ∧ s.YieldsBits (.movLong t d i) 1 t d (Ty.low t (if Ty.signed t then i.signExtend 64 else i.setWidth 64)))
  ∧ ∀ (s : State) (t : Ty) (z : Bool) (d : Dst) (a b c : Src) (i : BitVec 9) (j : BitVec 32),
    s.Yields (.movImm z d i) [⟨1, s.intSlot, .scalar d (i.signExtend 64)⟩]
    ∧ s.Yields (.sel d c a b) [⟨1, s.intSlot, .scalar d (if s.src c ≠ 0 then s.src a else s.src b)⟩]
    ∧ (t = .s64 ∨ t = .z64 →
        s.Yields (.movh t d a j) [⟨1, s.intSlot, .scalar d (j ++ (s.src a).setWidth 32)⟩])
    ∧ s.Yields (.adr d j) [⟨1, s.intSlot, .scalar d ((s.iss.p &&& ~~~7) + 8 * j.signExtend 64)⟩]

/-! ### Special values, control registers, literals (R107 to R109) -/

/-- `rdsp` gives the tile, the virtual die, the grade or the context number, extended with zeros. -/
def Obligations.SpecialValues : Prop :=
  ∀ (s : State) (d : Dst),
    let gives (sv : Special) (v : Word) : Prop := s.Yields (.rdsp d sv) [⟨1, s.intSlot, .scalar d v⟩]
    gives .tileX (s.cur.tileX.setWidth 64) ∧ gives .tileY (s.cur.tileY.setWidth 64)
    ∧ gives .tileN (s.cur.tileN.setWidth 64) ∧ gives .vdie (s.cur.vdie.setWidth 64)
    ∧ gives .grade (s.panel.grade.setWidth 64) ∧ gives .ctx (BitVec.ofNat 64 s.iss.ctx.val)

/-- `rdctl` gives the register as it stands, ctl.flg with the flags that land in this cycle; `wrctl` lands in the next cycle
and has no register result. A supervisor register at task privilege, and a `wrctl` of a wide flag set, raise the
illegal-encoding trap. -/
def Obligations.ControlRegisters : Prop :=
  ∀ (s : State) (d : Dst) (a : Src) (cr : CtlReg),
    let c := s.cur
    let own : Prop := cr ∈ [CtlReg.fmt, .flg, .wfVa, .wfVb, .wfSx, .lr]
    let wide : Prop := cr ∈ [CtlReg.wfVa, .wfVb, .wfSx]
    let traps (i : Instr) : Prop := exec i s = .next (s.takeTrap s.iss.die s.iss.ctx
      { cause := 1, syl := s.iss.taken, addr := s.iss.p, resume := s.iss.p, info := s.sylBits })
    let flags (h : Bool) (v : Word) : Prop := ∃ f : Flg, v = ((c.file h).flg ||| f.setWidth 32).setWidth 64
      ∧ ∀ k : Nat, f.getLsbD k = true ↔ ∃ x ∈ c.flight, ∃ g : Flg, x.land = .flags g ∧ x.due ≤ s.cycle
          ∧ x.hnd = h ∧ g.getLsbD k = true
    let lines (m : BitVec 140) : Nat := ((List.range 140).filter fun k => m.getLsbD k).length
    (c.priv = true ∨ own → ¬ wide → s.Yields (.wrctl cr a) [⟨1, s.intSlot, .ctl cr (s.src a)⟩])
    ∧ (wide → traps (.wrctl cr a)) ∧ (c.priv = false → ¬ own → traps (.wrctl cr a) ∧ traps (.rdctl d cr))
    ∧ (c.priv = true ∨ own → ∃ v : Word, s.Yields (.rdctl d cr) [⟨1, s.intSlot, .scalar d v⟩]
      ∧ (cr = .fmt → v = s.rf.fmt.setWidth 64) ∧ (cr = .lr → v = s.rf.lr)
      ∧ (cr = .flg → flags c.priv v) ∧ (cr = .taskFlg → flags false v)
      ∧ (∀ (k : Fin 3), cr = [CtlReg.wfVa, .wfVb, .wfSx].get k →
          v = BitVec.ofNat 64 (8 * (s.rf.wf[k]).toNat + (if s.rf.wf[k] = 0 then 4 else 0)
            + (if s.rf.wf[k] = 256 then 2 else 0) + (if s.rf.wf[k] = 0 then 0 else 1)))
      ∧ (cr = .trapCause → v = c.trapCause) ∧ (cr = .trapAddr → v = c.trapAddr) ∧ (cr = .trapResume → v = c.trapResume)
      ∧ (cr = .trapInfo → v = c.trapInfo) ∧ (cr = .trapVec → v = c.trapVec) ∧ (cr = .trapRs → v = c.trapRs)
      ∧ (cr = .rsTask → v = c.rsTask) ∧ (cr = .idemPc → v = c.idemPc)
      ∧ (cr = .ctxMode → v.extractLsb' 8 5 = c.tagLimit ∧ v.getLsbD 1 = c.opStrict ∧ v.getLsbD 0 = c.tagWait
          ∧ v.extractLsb' 2 6 = 0 ∧ v.extractLsb' 13 51 = 0)
      ∧ (cr = .spillCfg → v.extractLsb' 8 27 = BitVec.ofNat 27 c.win.carve ∧ v.extractLsb' 0 8 = BitVec.ofNat 8 c.win.slots
          ∧ v.extractLsb' 35 29 = 0)
      ∧ (cr = .spillPtr → v.extractLsb' 0 8 = c.spillWp ∧ v.extractLsb' 8 8 = c.spillOp ∧ v.getLsbD 16 = c.spillFull
          ∧ v.extractLsb' 17 47 = 0)
      ∧ (cr = .preStat → v.getLsbD 0 = c.reqAt s.cycle ∧ v.getLsbD 1 = c.preForce ∧ v.getLsbD 2 = c.preDeferred
          ∧ v.extractLsb' 3 29 = 0 ∧ v.extractLsb' 32 32 = BitVec.ofNat 32 (match c.cutAt with
            | some m => if c.preSeen ≤ s.cycle then m - s.cycle else 0
            | none => 0))
      ∧ (cr = .rsStatus → v.extractLsb' 0 8 = c.rsStatus ∧ (v.extractLsb' 8 8).toNat = lines c.task.dirty
          ∧ (v.extractLsb' 16 8).toNat = lines c.task.touched ∧ v.extractLsb' 24 40 = 0))

/-- `lit` gives the eight bytes of the instruction stream at (P AND NOT 7) + 8 × offset, little-endian, in four cycles. -/
def Obligations.LiteralLoad : Prop :=
  ∀ (s : State) (d : Dst) (off : BitVec 15) (l : List Byte),
    (s.die s.iss.die).icBytes (s.ctxRoot s.iss.die s.iss.ctx) ((s.iss.p &&& ~~~7) + 8 * off.signExtend 64) 8 = some l →
    ∃ v : Word, s.Yields (.lit d off) [⟨4, 2, .scalar d v⟩]
      ∧ ∀ k < 8, v.extractLsb' (8 * k) 8 = l.getD k 0

/-! ### Scalar bank memory and local atomics at issue (R110 to R116) -/

/-- Loads and stores put their access on its way: a load reads five cycles on, a store commits six cycles on, at the
window offset of its operands, in the class of its field or prefix. -/
def Obligations.LoadsAndStoresIssue : Prop :=
  ∀ (s : State) (t : Ty) (cls : Fin 16) (d : Dst) (v a b : Src) (off : BitVec 32),
    s.YieldsAccess (.ld t d a b) 5 .read 2 (s.classOf 0) s.wantTag (.load t d (s.src a + s.src b))
    ∧ s.YieldsAccess (.ldOffset t cls d a off) 5 .read 2 (s.classOf cls) s.wantTag (.load t d (s.src a + off.signExtend 64))
    ∧ s.YieldsAccess (.st t v a b) 6 .scalarWrite 2 (s.classOf 0) none (.store (t.width / 8) (s.src a + s.src b) (s.src v))
    ∧ s.YieldsAccess (.stOffset t cls v a off) 6 .scalarWrite 2 (s.classOf cls) none
        (.store (t.width / 8) (s.src a + off.signExtend 64) (s.src v))

/-- The local atomics put their access on its way: they perform six cycles on. -/
def Obligations.LocalAtomicsIssue : Prop :=
  ∀ (s : State) (t : Ty) (cls : Fin 16) (d : Dst) (a b c : Src) (off : BitVec 16),
    let goes (i : Instr) (op : AmoOp) (t : Ty) (c : Src) : Prop :=
      s.YieldsAccess i 6 .scalarWrite 2 (s.classOf cls) none
        (.amo op t d (s.src a + off.signExtend 64) (s.src b) (s.src c) s.cap)
    goes (.amoAdd t cls d a b off) .add t b ∧ goes (.amoAnd t cls d a b off) .and t b
    ∧ goes (.amoOr t cls d a b off) .or t b ∧ goes (.amoXor t cls d a b off) .xor t b
    ∧ goes (.amoMax t cls d a b off) .max t b ∧ goes (.amoMin t cls d a b off) .min t b
    ∧ goes (.amoSwap t cls d a b off) .swap t b ∧ goes (.amoCas t cls d a b c off) .cas t c
    ∧ goes (.amoFadd cls d a b off) .fadd .f32 b ∧ goes (.amoFmax cls d a b off) .fmax .f32 b
    ∧ goes (.amoFmin cls d a b off) .fmin .f32 b ∧ goes (.amoSadd t cls d a b off) .sadd t b

/-! ### Branches, loops and waits (R114, R117 to R123, R155 to R161) -/

/-- Every branch: when it is taken and where it goes; `bskip` is taken over an empty mask, `btok` on a token's state. -/
def Obligations.Branches : Prop :=
  ∀ (s : State) (a : Src) (fs : FlagSet) (st : TokState) (tk : TokId) (o20 : BitVec 20) (o15 : BitVec 15)
    (o18 : BitVec 18) (o12 : BitVec 12),
    let n : Nat := (s.rf.wf[match fs with | .va => (0 : Fin 3) | .vb => 1 | .sx => 2]).toNat
    s.YieldsBranch (.br o20) True (s.iss.p + 4 * o20.signExtend 64)
    ∧ s.YieldsBranch (.brz a o15) (s.src a = 0) (s.iss.p + 4 * o15.signExtend 64)
    ∧ s.YieldsBranch (.brnz a o15) (s.src a ≠ 0) (s.iss.p + 4 * o15.signExtend 64)
    ∧ s.YieldsBranch (.bany fs o18) (n ≠ 0) (s.iss.p + 4 * o18.signExtend 64)
    ∧ s.YieldsBranch (.ball fs o18) (n = 256) (s.iss.p + 4 * o18.signExtend 64)
    ∧ s.YieldsBranch (.bnone fs o18) (n = 0) (s.iss.p + 4 * o18.signExtend 64)
    ∧ s.YieldsBranch (.bcntGe fs a o12) ((s.src a).toNat ≤ n) (s.iss.p + 4 * o12.signExtend 64)
    ∧ s.YieldsBranch (.bcntLt fs a o12) (n < (s.src a).toNat) (s.iss.p + 4 * o12.signExtend 64)
    ∧ s.YieldsBranch .ret True (s.rf.lr &&& ~~~3)
    ∧ s.YieldsBranch (.jmp a) True (s.src a &&& ~~~3)
    ∧ (∀ top : Fin 8, top.val + 1 = s.rf.depth →
        s.YieldsBranch (.bskip o18) (s.rf.masks[top] = 0) (s.iss.p + 4 * o18.signExtend 64))
    ∧ s.YieldsBranch (.btok st tk o12) (s.cur.tok[tk] = st) (s.iss.p + 4 * o12.signExtend 64)

/-- The calls: the bundle has its target, and the address after the bundle lands in lr in the next cycle. -/
def Obligations.Calls : Prop :=
  ∀ (s : State) (a : Src) (o20 : BitVec 20),
    let calls (i : Instr) (target : Word) : Prop :=
      ∃ t, s.Gives t [⟨1, 6, .link (s.iss.p + BitVec.ofNat 64 s.iss.len)⟩]
        ∧ exec i s = .next { t with iss := { s.iss with target := some target } }
    calls (.call o20) (s.iss.p + 4 * o20.signExtend 64) ∧ calls (.callr a) (s.src a &&& ~~~3)

/-- A `loop` with a body arms its level with the bundle after it as the start; with a count of 0 it branches to its
end. One without a body, its end not beyond the bundle, is no legal encoding: the illegal-encoding trap is taken. -/
def Obligations.HardwareLoops : Prop :=
  ∀ (s : State) (lvl : Fin 4) (a : Src) (off : BitVec 10) (m : BitVec 4) (sw : Bool),
    let i : Instr := if sw then .loopSw lvl a off else .loop lvl a off
    let stop : Word := s.iss.p + 4 * off.setWidth 64
    let count : BitVec 32 := (s.src a).setWidth 32
    let body : LoopLvl :=
      { start := s.iss.p + BitVec.ofNat 64 s.iss.len, stop := stop, count := count, armed := true, sw := sw }
    (s.iss.len < 4 * off.toNat → count = 0 → exec i s = .next { s with iss := { s.iss with target := some stop } })
    ∧ (s.iss.len < 4 * off.toNat → count ≠ 0 →
        exec i s = .next { s with iss := { s.iss with loopSet := some (lvl, body) } })
    ∧ (4 * off.toNat ≤ s.iss.len → exec i s = .next s.trapIllegal)
    ∧ exec (.loopClr m) s = .next { s with iss := { s.iss with loopClr := some m } }

/-- The waits: each gives the next bundle its condition. -/
def Obligations.WaitsIssue : Prop :=
  ∀ (s : State) (a : Src) (x y z : TokId) (f : FoldId) (ph : Bool) (m : BitVec 16),
    s.YieldsWait (.waitTok (.one x)) (.tokens [x]) ∧ s.YieldsWait (.waitTok (.two x y)) (.tokens [x, y])
    ∧ s.YieldsWait (.waitTok (.three x y z)) (.tokens [x, y, z]) ∧ s.YieldsWait (.waitAny a) (.any (s.src a))
    ∧ s.YieldsWait (.waitFold f ph) (.fold f ph) ∧ s.YieldsWait (.fenceK m) (.fence m s.iss.bundle)
    ∧ s.YieldsWait .yield .yield

/-- How a wait stands: tokens while one is pending, any while none of the masked has ended, a fold while its phase bit
differs, a class fence while an earlier bank access of the context in a masked class, which is no drain of an engine, has
not performed, or a remote access of such a class is open. That only accesses of earlier bundles count is the model's choice
(log 114). -/
def Obligations.WaitConditions : Prop :=
  ∀ (s : State) (d : DieId) (n : CtxId) (l : List TokId) (m : Word) (f : FoldId) (ph : Bool) (k : BitVec 16) (b : Nat),
    (s.waitIs d n (.tokens l) = .no ↔ ∃ t ∈ l, (s.ctx d n).tok[t] = .pending)
    ∧ (s.waitIs d n (.any m) = .no ↔ m ≠ 0 ∧ ∀ t : TokId, m.getLsbD t.val = true → (s.ctx d n).tok[t] = .pending)
    ∧ (((s.die d).folds[f]).err = false → (s.waitIs d n (.fold f ph) = .met ↔ ((s.die d).folds[f]).phase = ph))
    ∧ (s.waitIs d n (.fence k b) = .no ↔ (s.remoteOpen d n k b = true
        ∨ ∃ a ∈ (s.die d).accs, a.ctx = n ∧ a.isDrain = false ∧ a.bundle < b ∧ k.getLsbD a.cls.val = true))
    ∧ s.waitIs d n .yield = .met

/-- `arrive` and `fold.set` perform ten cycles after issue; `tok.clr` frees, at the end of the cycle, the masked tokens
that were done or in error. -/
def Obligations.FoldAndTokenInstructions : Prop :=
  ∀ (s : State) (f : FoldId) (a : Src),
    let puts (i : Instr) (act : Instr) (arr : Bool) : Prop :=
      let arg : EvArg := { die := s.iss.die, ctx := s.iss.ctx, fold := f, val := ((s.src a).setWidth 32).setWidth 64,
                           seq := s.iss.bundle, arr := arr }
      exec i s = .next { s with agenda := s.agenda ++ [{ due := s.cycle + 10, act := act, arg := arg }] }
    puts (.arrive f a) .arrivePerform false ∧ puts (.foldSetBytes f a) .foldSetPerform false
    ∧ puts (.foldSetArr f a) .foldSetPerform true
    ∧ ∃ l, exec (.tokClr a) s = .next (s.setDie s.iss.die
          { s.die s.iss.die with tokEvts := (s.die s.iss.die).tokEvts ++ l })
      ∧ ∀ e, e ∈ l ↔ ∃ k : TokId, e = (s.iss.ctx, k, .free) ∧ (s.src a).getLsbD k.val = true
          ∧ (s.cur.tok[k] = .done ∨ s.cur.tok[k] = .error)

/-! ### Bundles and the next pc (R122) -/

/-- The next pc: a taken branch wins and leaves the levels; a `loop` or `loop.clr` makes no end check; else the armed
levels that end at the bundle act from level 3 down, one whose count would not stay above 0 being disarmed (that an armed count of 0 is so too is the
model's reading, log 109). -/
def Obligations.NextPc : Prop :=
  ∀ (i : Issue) (ls : Vector LoopLvl 4),
    (∀ a, i.target = some a → (nextPc i ls).1 = a ∧ (nextPc i ls).2.1 = ls)
    ∧ (i.target = none → ∀ (k : Fin 4) (l : LoopLvl), i.loopSet = some (k, l) →
        (nextPc i ls).1 = i.p + BitVec.ofNat 64 i.len ∧ (nextPc i ls).2.1[k] = l
        ∧ ∀ j : Fin 4, j ≠ k → (nextPc i ls).2.1[j] = ls[j])
    ∧ (i.target = none → i.loopSet = none → ∀ m : BitVec 4, i.loopClr = some m →
        (nextPc i ls).1 = i.p + BitVec.ofNat 64 i.len
        ∧ ∀ j : Fin 4, (nextPc i ls).2.1[j] = if m.getLsbD j.val then { ls[j] with armed := false } else ls[j])
    ∧ (i.target = none → i.loopSet = none → i.loopClr = none →
        let ends (k : Fin 4) : Prop := ls[k].armed = true ∧ ls[k].stop = i.p + BitVec.ofNat 64 i.len
        (∀ k : Fin 4, ends k → 1 < ls[k].count.toNat → (∀ j : Fin 4, k < j → ends j → ls[j].count.toNat ≤ 1) →
          (nextPc i ls).1 = ls[k].start ∧ (nextPc i ls).2.1[k] = { ls[k] with count := ls[k].count - 1 }
          ∧ (∀ j : Fin 4, k < j → (nextPc i ls).2.1[j] = if ls[j].armed && ls[j].stop == i.p + BitVec.ofNat 64 i.len
              then { ls[j] with count := 0, armed := false } else ls[j])
          ∧ ∀ j : Fin 4, j < k → (nextPc i ls).2.1[j] = ls[j])
        ∧ ((∀ k : Fin 4, ends k → ls[k].count.toNat ≤ 1) → (nextPc i ls).1 = i.p + BitVec.ofNat 64 i.len
          ∧ ∀ j : Fin 4, (nextPc i ls).2.1[j] = if ls[j].armed && ls[j].stop == i.p + BitVec.ofNat 64 i.len
              then { ls[j] with count := 0, armed := false } else ls[j]))

/-! ### System instructions, traps and their return (R124 to R135) -/

/-- The system instructions that any privilege runs: what each leaves with the bundle or its context. -/
def Obligations.SystemInstructions : Prop :=
  ∀ (s : State) (code : BitVec 16) (n : Fin 64) (off : BitVec 18),
    exec .nop s = .next s
    ∧ exec .halt s = .next { s with iss := { s.iss with halt := true } }
    ∧ exec (.trap code) s = .next { s with iss := { s.iss with trapCode := some code } }
    ∧ ((∀ k < 5, s.rf.flg.getLsbD k = false ∨ s.rf.flg.getLsbD (8 + k) = false) → exec .tfence s = .next s)
    ∧ (∀ k < 5, s.rf.flg.getLsbD k = true → s.rf.flg.getLsbD (8 + k) = true → ∃ info : Word,
        exec .tfence s = .next (s.takeTrap s.iss.die s.iss.ctx { cause := 5, addr := s.iss.p, resume := s.iss.p, info := info })
        ∧ ∀ j, info.getLsbD j = (decide (j < 5) && s.rf.flg.getLsbD j && s.rf.flg.getLsbD (8 + j)))
    ∧ (∃ t, exec (.phase n) s = .next t ∧ s.OnlyHere t { s.cur with phaseNew := some n } ∧ s.SameBytes t)
    ∧ (s.cur.priv = false → ∃ t c, exec .idem s = .next t ∧ s.OnlyHere t c ∧ s.SameBytes t
        ∧ (let f := s.cur.task
           c = { s.cur with idemPc := s.iss.p, idemBundle := s.iss.bundle, snapDepth := f.depth
                            snapFmt := f.fmt, snapLoops := f.loops, snapMasks := f.masks
                            task := { f with touched := f.touched ||| 0x19, dirty := f.dirty ||| 0x19 } })
        ∧ exec (.idemChk off) s = .next (if s.cur.reqAt s.cycle
            then { t with iss := { s.iss with target := some (s.iss.p + 4 * off.signExtend 64) } } else t))
    ∧ (s.cur.priv = true → exec .idem s = .next s ∧ exec (.idemChk off) s = .next (if s.cur.reqAt s.cycle
        then { s with iss := { s.iss with target := some (s.iss.p + 4 * off.signExtend 64) } } else s))

/-- The privileged instructions: at task privilege each is an illegal encoding and its trap is taken, with the bits of
the syllable as its information; at supervisor privilege each has its effect. -/
def Obligations.PrivilegedInstructions : Prop :=
  ∀ (s : State) (a b : Src) (w : Bool) (n : Fin 16) (k : Deps),
    (s.cur.priv = false → ∀ i ∈ [Instr.ctxsw a, .eret, .icinv a, .vttw a b w, .mwin n a k], exec i s = .next
      (s.takeTrap s.iss.die s.iss.ctx
        { cause := 1, syl := s.iss.taken, addr := s.iss.p, resume := s.iss.p, info := s.sylBits }))
    ∧ (s.cur.priv = true →
      ((s.src a).extractLsb' 3 7 = 0 → exec (.ctxsw a) s = .next { s with iss := { s.iss with ctxsw := some (s.src a) } })
      ∧ ((s.src a).extractLsb' 3 7 ≠ 0 →
          ∃ t, exec (.ctxsw a) s = .next t ∧ s.OnlyHere t { s.cur with rsStatus := 5 } ∧ s.SameBytes t)
      ∧ (s.cur.trapEnter = true → exec .eret s = .next { s with iss := { s.iss with eret := true } })
      ∧ (s.cur.trapEnter = false → exec .eret s = .next s.trapIllegal)
      ∧ (exec (.icinv a) s = .next (s.setDie s.iss.die { s.die s.iss.die with seq :=
          { (s.die s.iss.die).seq with icInv := (s.die s.iss.die).seq.icInv ++
            [(s.cycle + 1, if (s.src a).getLsbD 0 then none else some ((s.src a).toNat / 64))] } }))
      ∧ s.Yields (.vttw a b w) [⟨3, s.vecSlot, .table (Fin.ofNat 16 (s.src b).toNat) (s.vsrc a)⟩])

/-- Taking a trap at task privilege: the record is written, the privilege becomes supervisor, the handler's pc is the
entry with its low two bits clear, its first bundle issues three cycles on or later, and every other context, register,
flag and byte is as it was; the bundle that trapped is gone, and with it what the context waited for (log 117). -/
def Obligations.TakingATrap : Prop :=
  ∀ (s : State) (d : DieId) (n : CtxId) (r : TrapRec),
    (s.ctx d n).priv = false → 4 ≤ (s.ctx d n).trapVec.toNat →
    let t := s.takeTrap d n r
    let c := s.ctx d n
    (t.ctx d n).priv = true ∧ (t.ctx d n).trapEnter = true ∧ (t.ctx d n).waits = []
    ∧ (t.ctx d n).trapAddr = r.addr ∧ (t.ctx d n).trapResume = r.resume ∧ (t.ctx d n).trapInfo = r.info
    ∧ (r.cause < 256 → r.syl < 16 → (t.ctx d n).trapCause.extractLsb' 0 8 = BitVec.ofNat 8 r.cause
        ∧ (t.ctx d n).trapCause.extractLsb' 20 4 = BitVec.ofNat 4 r.syl ∧ (t.ctx d n).trapCause.extractLsb' 32 16 = r.swCode
        ∧ (t.ctx d n).trapCause.extractLsb' 8 12 = 0 ∧ (t.ctx d n).trapCause.extractLsb' 24 8 = 0
        ∧ (t.ctx d n).trapCause.extractLsb' 48 16 = 0)
    ∧ (t.ctx d n).hnd = { c.hnd with pc := c.trapVec &&& ~~~3 } ∧ (t.ctx d n).task = c.task
    ∧ s.cycle + 3 ≤ (t.ctx d n).earliest ∧ (∀ f ∈ c.flight, f.due < (t.ctx d n).earliest)
    ∧ (t.ctx d n).flight = c.flight ∧ (t.ctx d n).x = c.x ∧ (t.ctx d n).tok = c.tok
    ∧ (∀ (e : DieId) (m : CtxId), e ≠ d ∨ m ≠ n → t.ctx e m = s.ctx e m)
    ∧ (∀ e : DieId, { t.die e with ctxs := (s.die e).ctxs } = s.die e)
    ∧ { t with dies := s.dies, iss := s.iss } = s ∧ s.SameBytes t
    ∧ (s.iss.active = true → s.iss.die = d → s.iss.ctx = n → t.iss = {})

/-- A trap with no handler (a trap_vec of 1 to 3 means none, log 17) writes its record, and the task ends as its results in flight land; a trap at supervisor
privilege loses the task at once and writes no record. Both abort the task's operations and give up the width. -/
def Obligations.LostByTrap : Prop :=
  ∀ (s : State) (d : DieId) (n : CtxId) (r : TrapRec),
    let t := s.takeTrap d n r
    let c := s.ctx d n
    let ends (k : EndKind) : Prop := (t.ctx d n).st = .ending ∧ (t.ctx d n).ending = k ∧ (t.ctx d n).priv = false
      ∧ (t.ctx d n).waits = [] ∧ (t.die d).seq.holder ≠ some n ∧ ∀ o ∈ (t.die d).ops, o.ctx = n → o.abort = true
    (c.priv = false → c.trapVec.toNat < 4 → ends .noHandler ∧ (t.ctx d n).trapAddr = r.addr
      ∧ (t.ctx d n).trapResume = r.resume ∧ (t.ctx d n).trapInfo = r.info ∧ (t.ctx d n).trapCause = r.word
      ∧ (t.ctx d n).flight = c.flight ∧ (t.ctx d n).task = c.task ∧ (t.ctx d n).hasWin = c.hasWin ∧ t.panel = s.panel)
    ∧ (c.priv = true → ends .lost ∧ (t.ctx d n).hasWin = false ∧ (t.ctx d n).trapCause = c.trapCause
      ∧ (t.ctx d n).trapAddr = c.trapAddr ∧ (t.ctx d n).trapResume = c.trapResume ∧ (t.ctx d n).trapInfo = c.trapInfo)

/-- The return from a trap: the task's pc is trap_resume with bits 1 and 0 at 0 (log 155), its privilege is the task's, and its
bundle issues three cycles after the `eret` or later, once every result in flight has landed (log 36). -/
def Obligations.ReturnFromTrap : Prop :=
  ∀ (s : State) (d : DieId) (n : CtxId) (issued : Nat), (s.ctx d n).taskEmpty = false →
    let t := s.returnTrap d n issued
    let c := s.ctx d n
    (t.ctx d n).priv = false ∧ (t.ctx d n).trapEnter = false ∧ (t.ctx d n).task = { c.task with pc := c.trapResume &&& ~~~3 }
    ∧ (t.ctx d n).hnd = c.hnd ∧ issued + 3 ≤ (t.ctx d n).earliest
    ∧ (∀ f ∈ c.flight, f.due < (t.ctx d n).earliest)
    ∧ (∀ (e : DieId) (m : CtxId), e ≠ d ∨ m ≠ n → t.ctx e m = s.ctx e m) ∧ { t with dies := s.dies } = s ∧ s.SameBytes t

/-! ### Vector instructions (R216 to R247) -/

/-- Vector floating point: each element is the operation's exact result rounded once to the format (`roundRes`), by the
captured mode and flush; the sign instructions change only the sign bit and set no flag; the 32-bit `vfma` adds its
destination. Results land four cycles on, through the mask. -/
def Obligations.VectorFloat : Prop :=
  ∀ (s : State) (t : Ty) (d : Dst) (n : Fin 16) (a b c : Src) (w : Option (Mod × Mod)) (m : Option Mod) (ma mb mc : Mod),
    t.isFloat = true →
    let bv (x : Nat × Flg) : BitVec t.width × Flg := (BitVec.ofNat t.width x.1, x.2)
    let el (a : Src) (m : Mod) (j : Nat) : BitVec t.width := elem t.width (s.vmodSrc a m) j
    let x (j : Nat) : Nat := (el a (fstMod w) j).toNat
    let y (j : Nat) : Nat := (el b (sndMod w) j).toNat
    let z (j : Nat) : BitVec t.width := el a (m.getD .none) j
    let rd (v : Nat) : Val := operandF (fmtOf t) s.cap.flush v
    let rnd (r : Val × Flg) : BitVec t.width × Flg := bv (roundRes t s.cap r)
    s.YieldsVec (.vaddF t d a b w) 4 d t.width (fun j => rnd (addVal s.cap.rnd (rd (x j)) (rd (y j))))
    ∧ s.YieldsVec (.vsubF t d a b w) 4 d t.width (fun j => rnd (addVal s.cap.rnd (rd (x j)) (rd (y j)).flip))
    ∧ s.YieldsVec (.vmulF t d a b w) 4 d t.width (fun j => rnd (mulVal (rd (x j)) (rd (y j))))
    ∧ s.YieldsVec (.vdiv t d a b w) 4 d t.width (fun j => rnd (divVal (rd (x j)) (rd (y j))))
    ∧ s.YieldsVec (.vmaxF t d a b w) 4 d t.width (fun j => rnd (maxMinVal true (rd (x j)) (rd (y j))))
    ∧ s.YieldsVec (.vminF t d a b w) 4 d t.width (fun j => rnd (maxMinVal false (rd (x j)) (rd (y j))))
    ∧ s.YieldsVec (.vsqrt t d a m) 4 d t.width (fun j => rnd (sqrtVal (rd (z j).toNat)))
    ∧ s.YieldsVec (.vfma t n a b) 4 (.named n) t.width (fun j => rnd (fmaVal s.cap.rnd
        (rd (elem t.width (s.vsrc a) j).toNat) (rd (elem t.width (s.vsrc b) j).toNat) (rd (elem t.width s.rf.v[n] j).toNat)))
    ∧ s.YieldsVec (.vfmaVw t d a b c ma mb mc) 4 d t.width (fun j => rnd (fmaVal s.cap.rnd
        (rd (el a ma j).toNat) (rd (el b mb j).toNat) (rd (el c mc j).toNat)))
    ∧ s.YieldsVec (.vabsF t d a m) 4 d t.width (fun j => (z j &&& ~~~BitVec.twoPow t.width (t.width - 1), 0))
    ∧ s.YieldsVec (.vnegF t d a m) 4 d t.width (fun j => (z j ^^^ BitVec.twoPow t.width (t.width - 1), 0))

/-- Vector integers: sums, differences, products, left shifts, negation and absolute value reduce each element's exact
integer; the others are exact on the element's bits and set no flag. Results land two cycles on, through the mask. -/
def Obligations.VectorInteger : Prop :=
  ∀ (s : State) (t : Ty) (d : Dst) (a b : Src) (w : Option (Mod × Mod)) (m : Option Mod), t.isVecInt = true →
    let p (j : Nat) : BitVec t.width := elem t.width (s.vmodSrc a (fstMod w)) j
    let q (j : Nat) : BitVec t.width := elem t.width (s.vmodSrc b (sndMod w)) j
    let x (j : Nat) : Int := Ty.int t (p j)
    let y (j : Nat) : Int := Ty.int t (q j)
    let z (j : Nat) : Int := Ty.int t (elem t.width (s.vmodSrc a (m.getD .none)) j)
    s.YieldsReduced (.vaddI t d a b w) 2 t d (fun j => x j + y j)
    ∧ s.YieldsReduced (.vsubI t d a b w) 2 t d (fun j => x j - y j)
    ∧ s.YieldsReduced (.vmulI t d a b w) 2 t d (fun j => x j * y j)
    ∧ s.YieldsReduced (.vshl t d a b w) 2 t d (fun j => x j * 2 ^ ((q j).toNat % t.width))
    ∧ s.YieldsReduced (.vnegI t d a m) 2 t d (fun j => - z j)
    ∧ s.YieldsReduced (.vabsI t d a m) 2 t d (fun j => if z j < 0 then - z j else z j)
    ∧ s.YieldsVec (.vmulh t d a b w) 2 d t.width (fun j => (BitVec.ofInt t.width (x j * y j / 2 ^ t.width), 0))
    ∧ s.YieldsVec (.vshr t d a b w) 2 d t.width (fun j => (p j >>> ((q j).toNat % t.width), 0))
    ∧ s.YieldsVec (.vsar t d a b w) 2 d t.width (fun j => ((p j).sshiftRight ((q j).toNat % t.width), 0))
    ∧ s.YieldsVec (.vminI t d a b w) 2 d t.width (fun j => (if x j ≤ y j then p j else q j, 0))
    ∧ s.YieldsVec (.vmaxI t d a b w) 2 d t.width (fun j => (if x j ≤ y j then q j else p j, 0))

/-- Vector logic and moves: whole vectors bit by bit through the mask; `vbcast` gives every element the low bits of its
scalar; `mget` gives the mask in effect as lanes, whatever the mask. And what each modifier makes of a lane. -/
def Obligations.VectorLogic : Prop :=
  (∀ (s : State) (t : Ty) (d : Dst) (a b c : Src) (w : Option (Mod × Mod)) (m : Option Mod) (k : Mod × Mod × Mod) (v : Bool),
    let x := s.vmodSrc a (fstMod w)
    let y := s.vmodSrc b (sndMod w)
    let gives (i : Instr) (r : VReg) : Prop := s.Yields i [⟨2, s.vecSlot, .vector d r s.rf.mask⟩]
    let sel (x y z : VReg) : VReg := (x &&& z) ||| (y &&& ~~~z)
    gives (.vand t d a b w) (x &&& y) ∧ gives (.vor t d a b w) (x ||| y) ∧ gives (.vxor t d a b w) (x ^^^ y)
    ∧ gives (.vandn t d a b w) (x &&& ~~~y) ∧ gives (.vmov d a m) (s.vmodSrc a (m.getD .none))
    ∧ gives (.vsel d c a b none) (sel (s.vsrc a) (s.vsrc b) (s.vsrc c))
    ∧ gives (.vsel d c a b (some k)) (sel (s.vmodSrc a k.1) (s.vmodSrc b k.2.1) (s.vmodSrc c k.2.2))
    ∧ s.YieldsVec (.vbcast t d a v) 2 d t.width (fun _ => ((s.src a).setWidth t.width, 0))
    ∧ ∃ r, s.Yields (.mget d v) [⟨2, s.vecSlot, .vector d r (BitVec.allOnes 256)⟩]
        ∧ ∀ p, p < 256 → elem 32 r p = if s.rf.mask.getLsbD p then 0xFFFFFFFF else 0)
  ∧ ∀ (m : Mod) (v : VReg) (p : Nat), p < 256 →
    let x := elem 32 v p
    let h (k : Nat) : BitVec 16 := x.extractLsb' (16 * k) 16
    let b (k : Nat) : BitVec 8 := x.extractLsb' (8 * k) 8
    let n (k : Nat) : BitVec 4 := x.extractLsb' (4 * k) 4
    elem 32 (modVec m v) p = match m with
      | .none => x
      | .bl => h 0 ++ h 0
      | .bh => h 1 ++ h 1
      | .sw => h 0 ++ h 1
      | .rb => b 0 ++ b 1 ++ b 2 ++ b 3
      | .b0 => b 0 ++ b 0 ++ b 0 ++ b 0
      | .sn => n 6 ++ n 7 ++ n 4 ++ n 5 ++ n 2 ++ n 3 ++ n 0 ++ n 1
      | .rn => n 0 ++ n 1 ++ n 2 ++ n 3 ++ n 4 ++ n 5 ++ n 6 ++ n 7

/-- The compares and `vevt`: all ones where the condition holds and zero elsewhere, with the wide flag set of the slot.
Integers compare as integers; a pair with a NaN is unordered, which only `vcne` and `vcun` hold of. -/
def Obligations.VectorCompares : Prop :=
  ∀ (s : State) (t : Ty) (d : Dst) (a b : Src) (w : Option (Mod × Mod)) (m : Option Mod),
    let p (j : Nat) : BitVec t.width := elem t.width (s.vmodSrc a (fstMod w)) j
    let q (j : Nat) : BitVec t.width := elem t.width (s.vmodSrc b (sndMod w)) j
    let ones (h : Bool) : BitVec t.width := if h then BitVec.allOnes t.width else 0
    (t.isVecInt = true →
      let x (j : Nat) : Int := Ty.int t (p j)
      let y (j : Nat) : Int := Ty.int t (q j)
      s.YieldsWide (.vceq t d a b w) d t.width (fun j => (ones (x j == y j), 0))
      ∧ s.YieldsWide (.vcne t d a b w) d t.width (fun j => (ones (x j != y j), 0))
      ∧ s.YieldsWide (.vclt t d a b w) d t.width (fun j => (ones (decide (x j < y j)), 0))
      ∧ s.YieldsWide (.vcle t d a b w) d t.width (fun j => (ones (decide (x j ≤ y j)), 0)))
    ∧ (t.isUnordered = true →
      let x (j : Nat) : Val := elemVal t s.cap.flush (p j).toNat
      let y (j : Nat) : Val := elemVal t s.cap.flush (q j).toNat
      let nan (j : Nat) : Bool := (x j).isNan || (y j).isNan
      let quiet (j : Nat) : Flg := if nan j then sigFlag (x j) ||| sigFlag (y j) else 0
      let inv (j : Nat) : Flg := if nan j then fInvalid else 0
      s.YieldsWide (.vceq t d a b w) d t.width (fun j => (ones (!nan j && cmpVal (x j) (y j) == .eq), quiet j))
      ∧ s.YieldsWide (.vcne t d a b w) d t.width (fun j => (ones (nan j || cmpVal (x j) (y j) != .eq), quiet j))
      ∧ s.YieldsWide (.vclt t d a b w) d t.width (fun j => (ones (!nan j && cmpVal (x j) (y j) == .lt), inv j))
      ∧ s.YieldsWide (.vcle t d a b w) d t.width (fun j => (ones (!nan j && cmpVal (x j) (y j) != .gt), inv j))
      ∧ s.YieldsWide (.vcun t d a b w) d t.width (fun j => (ones (nan j), quiet j)))
    ∧ s.YieldsWide (.vevt t d a b m) d 32 (fun j =>
        (if elem 32 (s.vsrc a) j = elem 32 (s.vmodSrc b (m.getD .none)) j then 0 else BitVec.allOnes 32, 0))

/-- The mask stack at issue: a push above depth 8 and a pop below depth 1 take the mask-stack trap; otherwise each lands
three cycles on, with the lanes of its source that are not zero as its condition, and the issue depth moves at once. -/
def Obligations.MaskStackIssue : Prop :=
  ∀ (s : State) (a : Src) (m : Option Mod) (v : Bool),
    let lands (i : Instr) (l : Land) (depth : Nat) : Prop :=
      ∃ t, s.Gives t [⟨3, s.vecSlot, l⟩] ∧ exec i s = .next (t.modCtx s.iss.die s.iss.ctx fun c =>
        c.modFile c.priv fun r => { r with depthIssue := depth })
    let traps (i : Instr) (info : Word) : Prop := exec i s = .next (s.takeTrap s.iss.die s.iss.ctx
      { cause := 6, addr := s.iss.p, resume := s.iss.p, info := info })
    ∃ cond : Mask, (∀ p, p < 256 → cond.getLsbD p = decide (elem 32 (s.vmodSrc a (m.getD .none)) p ≠ 0))
      ∧ (8 ≤ s.rf.depthIssue → traps (.mpush a m) 1)
      ∧ (s.rf.depthIssue < 8 → lands (.mpush a m) (.mpush cond) (s.rf.depthIssue + 1))
      ∧ (s.rf.depthIssue ≤ 1 → traps (.mpop v) 0)
      ∧ (1 < s.rf.depthIssue → lands (.mpop v) .mpop (s.rf.depthIssue - 1))
      ∧ s.Yields (.minv v) [⟨3, s.vecSlot, .minv⟩] ∧ s.Yields (.mset a m) [⟨3, s.vecSlot, .mset cond⟩]

/-- Conversions: `vcvt` converts each element of its part, a narrowing one keeping the rest of its destination; `vpack` and
`vunpk` move patterns; `vquant` opens its blocks by the ratio, gives each the scale of its largest magnitude and each element
its code under that scale, lists the starts and the scales, and counts the blocks. -/
def Obligations.VectorConversions : Prop :=
  ∀ (s : State) (t u : Ty) (d : Dst) (a b : Src) (w : Option (Mod × Mod)) (k : Option (Mod × BitVec 2)),
    let x := s.vmodSrc a (fstMod w)
    let y := s.vmodSrc b (sndMod w)
    let p : Nat := (k.map fun e => e.2.toNat).getD 0
    let z := s.vmodSrc a ((k.map (·.1)).getD .none)
    let n : Nat := 8192 / max t.width u.width
    let conv (v : BitVec u.width) : BitVec t.width × Flg :=
      let r := convert u t (s.cap.rnd, s.cap.sat, s.cap.flush) v.toNat
      (BitVec.ofNat t.width r.1, r.2)
    (t.isCode0to9 = true → u.isCode0to9 = true → p < max t.width u.width / min t.width u.width →
      (u.width ≤ t.width → s.YieldsVec (.vcvt t u d a k) 4 d t.width (fun j => conv (elem u.width z (p * n + j))))
      ∧ (t.width < u.width → ∃ r take : VReg, ∃ g : Flg,
          (∀ j, j < n → elem t.width r (p * n + j) = (conv (elem u.width z j)).1)
          ∧ g = (List.range n).foldl (fun acc j => acc ||| (conv (elem u.width z j)).2) 0
          ∧ (∀ i, i < 8192 → take.getLsbD i = (decide (p * n * t.width ≤ i) && decide (i < (p + 1) * n * t.width)))
          ∧ s.Yields (.vcvt t u d a k) (withFlags 4 s.vecSlot (.part d r s.rf.mask take) g)))
    ∧ (t.isPack = true →
      s.YieldsVec (.vpack t d a b w) 4 d t.width (fun j =>
        ((if j < 4096 / t.width then elem (2 * t.width) x j else elem (2 * t.width) y (j - 4096 / t.width)).setWidth
          t.width, 0))
      ∧ (p < 2 → s.YieldsVec (.vunpk t d a k) 4 d (2 * t.width) (fun j =>
          let e := elem t.width z (p * (4096 / t.width) + j)
          (if t = .s8 ∨ t = .s16 then e.signExtend (2 * t.width) else e.setWidth (2 * t.width), 0))))
    ∧ (t.isQuant = true → ∃ (r : VReg) (f : Flg) (start : Nat → Bool) (lo hi top : Nat → Val),
        let rd (v : BitVec 32) : Val := operandF fmtF32 s.cap.flush v.toNat
        let e (j : Nat) : Val := rd (elem 32 x j)
        let ratio := quantRatio (rd (elem 32 y 0))
        let begun (j : Nat) : Nat := ((List.range j).filter start).length
        let scale (j : Nat) : Nat := quantScale (top j) t
        let code (j : Nat) : Nat × Flg :=
          let q := (divVal (e j) (decodeF fmtF16 (scale j))).1
          if t = .d8 then toD8 s.cap.rnd s.cap.sat q else toIntType t s.cap.rnd s.cap.sat q
        s.Yields (.vquant t d a b w) (withFlags 4 s.vecSlot (.vector d r (BitVec.allOnes 256)) f)
        ∧ QuantBlocks ratio.1 e start lo hi
        ∧ (∀ j k, j ≤ k → k < 256 → (∀ i, j < i → i ≤ k → start i = false) → (k = 255 ∨ start (k + 1) = true) →
            top j = hi (k + 1))
        ∧ (∀ j, j < 256 → r.getLsbD (2048 + j) = start j ∧ elem 8 r j = BitVec.ofNat 8 (code j).1
          ∧ (start j = true → elem 16 r (144 + begun j) = BitVec.ofNat 16 (scale j)))
        ∧ (∀ i, 2304 + 16 * begun 256 ≤ i → i < 8160 → r.getLsbD i = false)
        ∧ (r.extractLsb' 8160 32).toNat = begun 256
        ∧ f = (List.range 256).foldl (fun acc j => acc ||| (code j).2) ratio.2)

/-- Logic simulation: `vlut` reads the output that its four inputs select in the gate's table; `vres` resolves two drivers,
two of the same giving that value, Z giving the other, and any other pair X; `vevt` is all ones in the lanes that differ. -/
def Obligations.GateLogic : Prop :=
  ∀ (s : State) (t : Ty) (d : Dst) (q : Fin 13) (a b : Src) (m : Option Mod),
    let y := s.vmodSrc b (m.getD .none)
    let v (k : Nat) (h : k < 4) (j : Nat) : Nat := (elem 2 s.rf.v[q.val + k] j).toNat
    let table (g : Nat) : BitVec 512 := Sparse.read (s.die s.iss.die).truth (Config.truthDefault) g
    ((s.die s.iss.die).truthBad = [] → s.YieldsVec (.vlut d q b m) 3 d 2 (fun j =>
      let i := v 0 (by decide) j + 4 * v 1 (by decide) j + 16 * v 2 (by decide) j + 64 * v 3 (by decide) j
      ((table ((elem 32 y (j / 16)).toNat % 256)).extractLsb' (2 * i) 2, 0)))
    ∧ (∃ e : Nat → BitVec 2, s.YieldsVec (.vres d a b m) 2 d 2 (fun j => (e j, 0)) ∧ ∀ j, j < 4096 →
        let p := elem 2 (s.vsrc a) j
        let r := elem 2 y j
        (p = r → e j = p) ∧ (p = 3 → e j = r) ∧ (r = 3 → e j = p) ∧ (p ≠ 3 → r ≠ 3 → p ≠ r → e j = 2))
    ∧ s.YieldsWide (.vevt t d a b m) d 32 (fun j => (if elem 32 (s.vsrc a) j = elem 32 y j then 0 else BitVec.allOnes 32, 0))

/-- Vector loads and stores wait for the end of the bundle, which gives them its route settings: a load reads five cycles
on, a store commits nine cycles on, at the straight words of its offset or at the rows that its lanes name; the mask and the
data are those at issue. Nothing else changes. -/
def Obligations.VectorMemoryIssue : Prop :=
  ∀ (s : State) (d : Dst) (v a b : Src) (w : Option VMem) (m : VMem) (k : Option (VMem × Mod)),
    let rows (w : Option VMem) : Word := match w with
      | some m => 1024 * m.off9.signExtend 64
      | none => 0
    let cls (w : Option VMem) : Fin 16 := match w with
      | some m => s.classOf m.cls
      | none => s.classOf 0
    let stages (i : Instr) (lat : Nat) (ord : PortStep) (tag : Option (BitVec 8)) (cls : Fin 16) (acc : AccKind) : Prop :=
      let one : Access :=
        { id := s.fresh, due := s.cycle + lat, ord := ord, ctx := s.iss.ctx, bundle := s.iss.bundle, hnd := s.cur.priv
          slot := s.vecSlot, cls := cls, tag := tag, pc := s.iss.p, win := s.cur.win, kind := acc }
      exec i s = .next { s with iss := { s.iss with staged := s.iss.staged ++ [one] }, fresh := s.fresh + 1 }
    let loads (i : Instr) (w : Option VMem) (at_ : VAddr) : Prop :=
      stages i 5 .read s.wantTag (cls w) (.vload d at_ s.rf.mask {})
    let stores (i : Instr) (w : Option VMem) (at_ : VAddr) : Prop :=
      stages i 9 .netWrite none (cls w) (.vstore at_ (s.vsrc v) s.rf.mask {})
    let straight (x : Word) : VAddr := .straight (x &&& ~~~7)
    let byRow (k : Option (VMem × Mod)) : VAddr := .rows ((s.src a + rows (k.map (·.1))) &&& ~~~1023)
      (match k with
        | some e => s.vmodSrc b e.2
        | none => s.vsrc b)
    loads (.vld d a b w) w (straight (s.src a + s.src b + rows w))
    ∧ loads (.vldImm d a m) (some m) (straight (s.src a + rows (some m)))
    ∧ stores (.vst v a b w) w (straight (s.src a + s.src b + rows w))
    ∧ stores (.vstImm v a m) (some m) (straight (s.src a + rows (some m)))
    ∧ loads (.vldi d a b k) (k.map (·.1)) (byRow k) ∧ stores (.vsti v a b k) (k.map (·.1)) (byRow k)

/-- The scans: every lane of the result lands whatever the mask, eight cycles on or nine for binary32, with the scan unit's
wide flag set, the lanes of the source that are not zero, three cycles on. The values are those of the scan order
(`scanRun`) over the lanes present; `compress` and `expand` move the present lanes. -/
def Obligations.Scans : Prop :=
  ∀ (s : State) (t : Ty) (red : Bool) (d : Dst) (a b : Src) (w : Option ScanExt) (k : Option ScanArgExt) (m : Option Mod),
    let wide (i : Instr) (x : VReg) (lat : Nat) (r : VReg) (f : Flg) : Prop := ∃ n : BitVec 9,
      n.toNat = ((List.range 256).filter fun p => elem 32 x p ≠ 0).length
      ∧ s.Yields i (withFlags lat 5 (.vector d r (BitVec.allOnes 256)) f ++ [⟨3, 5, .wide .sx n⟩])
    let x := s.vmodSrc a (match w with | some e => e.ma | none => .none)
    let heads (seg : Option (Src × Mod)) : List Bool := headBits (seg.map fun e => s.vmodSrc e.1 e.2)
    let m0 := maskBits s.rf.mask
    let runs (i : Instr) (lat : Nat) (op : ScanOp) : Prop :=
      let r := scanRun op red false (lanes x) (lanes x) m0 (heads (w.bind (·.seg)))
      wide i x lat r.1 r.2
    let bitwise (f : Nat → Nat → Nat) : ScanOp := fun p q => ((f p.1 q.1, q.2), 0)
    let lat : Nat := if t = .f32 then 9 else 8
    runs (.scanAdd t red d a w) lat (scanAddOp t s.cap) ∧ runs (.scanMin t red d a w) lat (scanMinOp t s.cap)
    ∧ runs (.scanMax t red d a w) lat (scanMaxOp t s.cap)
    ∧ runs (.scanAnd red d a w) 8 (bitwise Nat.land) ∧ runs (.scanOr red d a w) 8 (bitwise Nat.lor)
    ∧ runs (.scanXor red d a w) 8 (bitwise Nat.xor) ∧ runs (.scanFirst red d a w) 8 (bitwise fun p _ => p)
    ∧ runs (.scanLast red d a w) 8 (bitwise fun _ q => q)
    ∧ (∀ big : Bool,
        let i : Instr := if big then .scanMaxi t red d a b k else .scanMini t red d a b k
        let y := s.vmodSrc a (match k with | some e => e.ma | none => .none)
        let z := s.vmodSrc b (match k with | some e => e.mb | none => .none)
        let r := scanRun (scanArgOp t s.cap big (match k with | some e => e.tie | none => false)) red true
          (lanes y) (lanes z) m0 (heads (k.bind (·.seg)))
        ∃ f, wide i y lat r.1 (r.2 ||| f) ∧ (f = 0 ∨ f = fInvalid)
          ∧ (f = fInvalid ↔ t = .f32 ∧ ∃ p, p < 256 ∧ s.rf.mask.getLsbD p = true ∧ isSNan (elem 32 y p).toNat = true))
    ∧ (let y := s.vmodSrc a (m.getD .none)
       let before (p : Nat) : Nat := ((List.range p).filter fun q => s.rf.mask.getLsbD q).length
       ∃ r u, wide (.compress d a m) y 8 r 0 ∧ wide (.expand d a m) y 8 u 0 ∧ ∀ p, p < 256 →
         (s.rf.mask.getLsbD p = true → elem 32 r (before p) = elem 32 y p ∧ elem 32 u p = elem 32 y (before p))
         ∧ (s.rf.mask.getLsbD p = false → elem 32 u p = 0) ∧ (before 256 ≤ p → elem 32 r p = 0))

/-- The scan order gives what one walk over the lanes gives, for every operation that associates: lane i holds the
combination of the present lanes of its segment up to i, and a reduction that of its whole segment; 0 where there is none. -/
def Obligations.ScanOrderIsSequential : Prop :=
  ∀ (op : ScanOp) (red pairs : Bool) (a b : List Nat) (m h : List Bool),
    (∀ x y z, (op (op x y).1 z).1 = (op x (op y z).1).1) → a.length = 256 → b.length = 256 → m.length = 256 →
    h.length = 256 → h.getD 0 false = true →
    let at_ (i : Nat) : Option (Nat × Nat) := if m.getD i false then some (a.getD i 0, b.getD i 0) else none
    let both (x y : Option (Nat × Nat)) : Option (Nat × Nat) := match x, y with
      | some p, some q => some (op p q).1
      | some p, none => some p
      | none, q => q
    let run (i : Nat) : Option (Nat × Nat) :=
      (List.range (i + 1)).foldl (fun acc j => both (if h.getD j false then none else acc) (at_ j)) none
    let out (x : Option (Nat × Nat)) : BitVec 32 := match x with
      | some p => BitVec.ofNat 32 (if pairs then p.2 else p.1)
      | none => 0
    ∀ i j, i ≤ j → j < 256 → (∀ k, i < k → k ≤ j → h.getD k false = false) → (j = 255 ∨ h.getD (j + 1) false = true) →
      elem 32 (scanRun op red pairs a b m h).1 i = out (run (if red then j else i))

/-- Prefixes, route syllables and route instructions. A prefix holds for the next syllable; a bundle route syllable gives
the bundle its read or write setting; `rte` instructions land a setting, a status or a mask, or store a block. A block that
fails its check ends the task as lost, and is counted. -/
def Obligations.PrefixesAndRoutes : Prop :=
  ∀ (s : State) (p : Pfx) (wr : Bool) (far : BitVec 16) (src : RouteSrc) (xd xa : Fin 32) (off : BitVec 15) (a v sp : Src)
    (d : Dst),
    let va : Word := (s.iss.p &&& ~~~7) + 8 * off.signExtend 64
    let fails (i : Instr) (va : Word) : Prop := exec i s = .next
      ((s.setDie s.iss.die { s.die s.iss.die with stat := { (s.die s.iss.die).stat with
          routeFails := if (s.die s.iss.die).stat.routeFails = BitVec.allOnes 32 then BitVec.allOnes 32
            else (s.die s.iss.die).stat.routeFails + 1 } }).loseTask s.iss.die s.iss.ctx s.iss.p
            (BitVec.ofNat 64 (va.toNat % 2 ^ 48 * 2 ^ 16 + 4)) [])
    exec (.pfx p) s = .next { s with iss := { s.iss with pfx := some p } }
    ∧ (∀ r, s.routeOf src = some r → exec (.bundleRoute wr far src) s = .next (if wr
        then { s with iss := { s.iss with wrRoute := some { bits := r, far := far } } }
        else { s with iss := { s.iss with rdRoute := some { bits := r, far := far } } }))
    ∧ s.routeOf .identity = some 0 ∧ (∀ x, s.routeOf (.reg x) = some s.cur.x[x])
    ∧ (∀ n o, s.routeOf (.pool n o) = none → fails (.bundleRoute wr far (.pool n o)) ((s.iss.p &&& ~~~7) + 8 * o.signExtend 64))
    ∧ (∀ r, s.blockAt va none = some r → s.Yields (.rteLd xd off) [⟨4, 6, .route xd r⟩])
    ∧ (s.blockAt va none = none → fails (.rteLd xd off) va)
    ∧ s.Yields (.rteMv xd xa) [⟨4, 6, .route xd s.cur.x[xa]⟩]
    ∧ s.Yields (.rteBpc xd a) [⟨4, 6, .route xd
        (if bpcValid ((s.src a).setWidth 32) then bpcRoute ((s.src a).setWidth 32) else 0)⟩]
    ∧ (let l := lanes (s.vsrc v)
       s.Yields (.rteSolve xd d v sp) [⟨24, 6, .route xd (passSetting l (s.src sp).toNat)⟩, ⟨24, 6, .scalar d (solveStatus l)⟩]
       ∧ ∃ r, s.Yields (.rtePass d v sp) [⟨24, 6, .vector d r (BitVec.allOnes 256)⟩]
         ∧ ∀ q, q < 256 → elem 32 r q = if (ranks l).getD q none = some (s.src sp).toNat then BitVec.allOnes 32 else 0)
    ∧ s.YieldsAccess (.rteSt a xd) 9 .netWrite 6 (s.classOf 0) none (.routeStore (s.src a &&& ~~~7) s.cur.x[xd])

/-! ### Engine syllables (R141 to R149, R248 to R262, R311 to R319, R337, R352) -/

/-- Engine syllables at issue: copies go to queue 0, the operations of array m and its slots to queue m + 1, remote
operations to queue 17 and panel operations to queue 18, each with its operands as they read at issue. A form that names an
absent virtual die through a far address traps instead; a malformed address names none. -/
def Obligations.EngineSyllables : Prop :=
  ∀ (s : State) (d a b c : Src) (m n : Fin 16) (o : Fin 128) (cls : Fin 16) (w ch : Bool) (k : Deps),
    let A := s.src a
    let B := s.src b
    let C := s.src c
    let D := s.src d
    let arr : Fin 19 := ⟨m.val + 1, by omega⟩
    let own : Fin 19 := ⟨o.val / 8 + 1, by omega⟩
    let names (x : Word) (v : Fin 256) : Prop := (x.extractLsb' 52 8).toNat = v.val
      ∧ ((x.extractLsb' 60 4 = 8 ∧ x.extractLsb' 27 21 = 0) ∨ (x.extractLsb' 60 4 = 12 ∧ x.extractLsb' 7 45 = 0))
    let clear (x : Word) : Prop := ∀ v : Fin 256, names x v → s.cur.vtab[v].present = true
    let traps (i : Instr) (v : Fin 256) : Prop := exec i s = .next (s.takeTrap s.iss.die s.iss.ctx
      { cause := 7, addr := s.iss.p, resume := s.iss.p, info := BitVec.ofNat 64 v.val })
    let streams : List Instr := [.mwld m a b c ch k, .mmul m a b c ch k, .mdist m a b c ch k]
    let gets : List Instr := [.rld cls d a w k, .rsig cls d a k, .rsigRel cls d a k]
    let puts : List Instr := [.rcpGet cls d a b k, .rcpPut cls d a b k, .amoAddFar cls d a b k, .amoAndFar cls d a b k,
      .amoOrFar cls d a b k, .amoXorFar cls d a b k, .amoMaxFar cls d a b k, .amoMinFar cls d a b k,
      .amoFaddFar cls d a b k, .amoFmaxFar cls d a b k, .amoFminFar cls d a b k, .amoSaddFar cls d a b k,
      .amoSwapFar cls d a b k]
    (∀ i ∈ [Instr.cpBb d a b k, .cpPb d a b k, .cpBp d a b k, .cpBo d a b k], s.YieldsOp i 0 k 0 A B 0 D)
    ∧ s.YieldsOp (.cpRs k) 0 k 0 0 0 0 0 ∧ s.YieldsOp (.rcpRs k) 17 k 0 0 0 0 0 ∧ s.YieldsOp (.mresume m k) arr k 0 0 0 0 0
    ∧ (∀ i ∈ [Instr.slotClaim o k, .slotRelease o k, .slotZero o k], s.YieldsOp i own k 0 0 0 0 0)
    ∧ s.YieldsOp (.slotShape o a k) own k 0 A 0 0 0
    ∧ (∀ i ∈ [Instr.mdrn m a b c k, .mcdrn m a b c k, .mcent m a b c ch k], s.YieldsOp i arr k 0 A B C 0)
    ∧ s.YieldsOp (.mbest m a b k) arr k 0 A B A 0
    ∧ (∀ i ∈ [Instr.mcst n a b w k, .mcstSt n a b w k], s.YieldsOp i 18 k 0 A B 0 0)
    ∧ s.YieldsOp (.pbar cls n k) 18 k cls 0 0 0 0
    ∧ (s.cur.priv = true → s.YieldsOp (.mwin n a k) 18 k 0 A 0 0 0)
    ∧ ((A.getLsbD 3 = true → clear B ∧ (A.getLsbD 5 = true → clear C)) → ∀ i ∈ streams, s.YieldsOp i arr k 0 A B C 0)
    ∧ (clear A → (∀ i ∈ gets, s.YieldsOp i 17 k cls A 0 0 D) ∧ s.YieldsOp (.rst cls a b w k) 17 k cls A B 0 0
      ∧ (∀ i ∈ puts, s.YieldsOp i 17 k cls A B 0 D)
      ∧ ∀ r : Fin 16, s.YieldsOp (.amoCasFar cls d a (.named r) k) 17 k cls A (s.src (.named r)) (s.src (.named (r + 1))) D)
    ∧ (∀ v : Fin 256, s.cur.vtab[v].present = false →
      (names A v → (∀ i ∈ gets ++ puts, traps i v) ∧ traps (.rst cls a b w k) v ∧ traps (.amoCasFar cls d a b k) v)
      ∧ (A.getLsbD 3 = true → (names B v ∨ (clear B ∧ A.getLsbD 5 = true ∧ names C v)) → ∀ i ∈ streams, traps i v))

/-- `hops`: compute die p stands at y = p div 8, x = 2 (p mod 8) + y mod 2, where x + y is even and p = (16 y + x) div 2;
the distance of the two dies that the context's table gives is that of the grid, at most 15. With either absent the bundle
traps, and trap_info names the first absent of a, then b. -/
def Obligations.Hops : Prop :=
  ∀ (s : State) (d : Dst) (a b : Src),
    let x (p : DieId) : Int := 2 * (p.val % 8) + p.val / 8 % 2
    let y (p : DieId) : Int := p.val / 8
    let u : Fin 256 := ⟨(s.src a).toNat % 256, Nat.mod_lt _ (by decide)⟩
    let v : Fin 256 := ⟨(s.src b).toNat % 256, Nat.mod_lt _ (by decide)⟩
    let p := s.cur.vtab[u].phys
    let q := s.cur.vtab[v].phys
    let dx := x q - x p
    let dy := y q - y p
    (∀ p : DieId, (x p + y p) % 2 = 0 ∧ (p.val : Int) = (16 * y p + x p) / 2 ∧ 0 ≤ x p ∧ x p < 16 ∧ y p < 16)
    ∧ (s.cur.vtab[u].present = true → s.cur.vtab[v].present = true → ∃ n : Nat,
        (n : Int) = max (|dx + dy|) (|dx - dy|) / 2 ∧ n ≤ 15
        ∧ s.Yields (.hops d a b) [⟨1, s.intSlot, .scalar d (BitVec.ofNat 64 n)⟩])
    ∧ (s.cur.vtab[u].present = false → exec (.hops d a b) s = .next (s.takeTrap s.iss.die s.iss.ctx
        { cause := 7, addr := s.iss.p, resume := s.iss.p, info := BitVec.ofNat 64 u.val }))
    ∧ (s.cur.vtab[u].present = true → s.cur.vtab[v].present = false → exec (.hops d a b) s
        = .next (s.takeTrap s.iss.die s.iss.ctx
          { cause := 7, addr := s.iss.p, resume := s.iss.p, info := BitVec.ofNat 64 v.val }))

/-! ### Landings and bank accesses (R17 to R23, R111 to R116, R192, R226, R241 to R243, R278, R280) -/

/-- A result lands: a scalar or vector result is pushed, the newest sixteen staying, and written to the register it names, a
vector through its mask; flags are joined; a wide flag set, a route register, lr, an entry of the mask stack or a control
register is replaced, a reserved field of ctl.fmt keeping its value and raising invalid; trap_vec, trap_rs and
trap_resume are kept as written (logs 118, 155). Nothing else of the context changes
but the marks of written lines, and nothing outside it but for the truth tables. -/
def Obligations.ResultLanding : Prop :=
  ∀ (s : State) (f : Flight),
    let d := s.ev.die
    let n := s.ev.ctx
    let x := s.ctx d n
    (x.flight.filter fun g => decide (g.due ≤ s.cycle) && g.land.isFlags == s.ev.flag) = [f] →
    let r := x.file f.hnd
    let d8 : Bool := (s.die d).boot.featAcc.getLsbD 1
    let badRnd (v : Word) : Prop := 5 ≤ (v.extractLsb' 0 3).toNat
    let badAct (v : Word) : Prop := 5 ≤ (v.extractLsb' 8 4).toNat ∨ (v.extractLsb' 8 4 = 2 ∧ d8 = false)
    let invalid : Prop := ∃ v, f.land = .ctl .fmt v ∧ (badRnd v ∨ badAct v) ∧ x.cutOff f.bundle = false
    ∃ t, exec .resultLanding s = .next t ∧
      (let y := t.ctx d n
       let u := y.file f.hnd
       (∀ g, g ∈ y.flight ↔ (g ∈ x.flight ∧ g ≠ f) ∨ (invalid ∧ g = { f with due := s.cycle, land := .flags fInvalid }))
       ∧ (∃ p q, y = { x with
            flight := y.flight, task := p, hnd := q, x := y.x, trapResume := y.trapResume
            trapVec := y.trapVec, trapRs := y.trapRs, hndStale := y.hndStale, tagLimit := y.tagLimit
            tagWait := y.tagWait, opStrict := y.opStrict })
       ∧ (∃ p q, y.file (!f.hnd) = { x.file (!f.hnd) with flg := (y.file (!f.hnd)).flg, touched := p, dirty := q })
       ∧ ((∀ v, f.land ≠ .ctl .taskFlg v) → y.file (!f.hnd) = x.file (!f.hnd))
       ∧ u.pc = r.pc ∧ u.loops = r.loops ∧ u.depthIssue = r.depthIssue ∧ u.home = r.home
       ∧ (∀ e m, e ≠ d ∨ m ≠ n → t.ctx e m = s.ctx e m) ∧ s.SameBytes t
       ∧ (∀ e, { t.die e with ctxs := (s.die e).ctxs, truth := (s.die e).truth, truthBad := (s.die e).truthBad } = s.die e)
       ∧ (∀ e, (∀ g v, f.land ≠ .table g v) ∨ e ≠ d → (t.die e).truth = (s.die e).truth ∧ (t.die e).truthBad = (s.die e).truthBad)
       ∧ { t with dies := s.dies, agenda := s.agenda } = s
       ∧ ((∀ v, f.land ≠ .ctl .fmt v) → t.agenda = s.agenda)
       ∧ (invalid → ∀ e, e ∈ t.agenda ↔ e ∈ s.agenda ∨ e = {
            due := s.cycle, act := .resultLanding, arg := { die := d, ctx := n, flag := true } })
       ∧ ((∀ z v, f.land ≠ .scalar z v) → u.q = r.q ∧ u.s = r.s)
       ∧ ((∀ z v m, f.land ≠ .vector z v m) → (∀ z v m k, f.land ≠ .part z v m k) → u.vq = r.vq ∧ u.v = r.v)
       ∧ ((∀ v, f.land ≠ .flags v) → (∀ v, f.land ≠ .ctl .flg v) → (∀ v, f.land ≠ .ctl .taskFlg v) → u.flg = r.flg)
       ∧ ((∀ v, f.land ≠ .ctl .fmt v) → u.fmt = r.fmt) ∧ ((∀ k c, f.land ≠ .wide k c) → u.wf = r.wf)
       ∧ ((∀ v, f.land ≠ .link v) → (∀ v, f.land ≠ .ctl .lr v) → u.lr = r.lr)
       ∧ ((∀ c, f.land ≠ .mpush c) → f.land ≠ .minv → f.land ≠ .mpop → (∀ c, f.land ≠ .mset c) →
            u.masks = r.masks ∧ u.depth = r.depth)
       ∧ ((∀ z v, f.land ≠ .route z v) → y.x = x.x)
       ∧ ((∀ v, f.land ≠ .ctl .trapResume v) → y.trapResume = x.trapResume)
       ∧ ((∀ v, f.land ≠ .ctl .trapVec v) → y.trapVec = x.trapVec)
       ∧ ((∀ v, f.land ≠ .ctl .trapRs v) → y.trapRs = x.trapRs ∧ y.hndStale = x.hndStale)
       ∧ ((∀ v, f.land ≠ .ctl .ctxMode v) → y.tagLimit = x.tagLimit ∧ y.tagWait = x.tagWait ∧ y.opStrict = x.opStrict)
       ∧ (match f.land with
          | .scalar z v => u.q = (v :: r.q).take 16 ∧ ∀ k : Fin 16, u.s[k] = if z = .named k then v else r.s[k]
          | .vector z v m => ∃ w : VReg, u.vq = (w :: r.vq).take 16
              ∧ (∀ k : Fin 16, u.v[k] = if z = .named k then w else r.v[k])
              ∧ ∀ p, p < 256 → elem 32 w p = if m.getLsbD p then elem 32 v p else match z with
                | .named k => elem 32 r.v[k] p
                | .push => 0
          | .part z v m k => ∃ w : VReg, u.vq = (w :: r.vq).take 16
              ∧ (∀ k : Fin 16, u.v[k] = if z = .named k then w else r.v[k])
              ∧ ∀ p, p < 8192 → w.getLsbD p = if m.getLsbD (p / 32) && k.getLsbD p then v.getLsbD p else match z with
                | .named k => r.v[k].getLsbD p
                | .push => false
          | .flags v => u.flg = r.flg ||| v.setWidth 32
          | .wide fs c => u.wf = r.wf.set (match fs with | .va => 0 | .vb => 1 | .sx => 2) c (by cases fs <;> decide)
          | .route z v => ∀ k : Fin 32, y.x[k] = if k = z then v else x.x[k]
          | .link v => u.lr = v
          | .mpush c => 1 ≤ r.depth → r.depth < 8 → u.depth = r.depth + 1 ∧ ∀ k : Fin 8,
              u.masks[k] = if k.val = r.depth then r.masks[r.depth - 1]! &&& c else r.masks[k]
          | .minv => 1 ≤ r.depth → r.depth ≤ 8 → u.depth = r.depth ∧ ∀ k : Fin 8, u.masks[k] =
              if k.val + 1 = r.depth then (if r.depth = 1 then BitVec.allOnes 256 else r.masks[r.depth - 2]!) &&& ~~~r.masks[k]
              else r.masks[k]
          | .mpop => u.depth = r.depth - 1 ∧ u.masks = r.masks
          | .mset c => 1 ≤ r.depth → r.depth ≤ 8 → u.depth = r.depth ∧ ∀ k : Fin 8,
              u.masks[k] = if k.val + 1 = r.depth then c else r.masks[k]
          | .table g v => (s.die d).wf = true → ∀ k, Sparse.read (t.die d).truth Config.truthDefault k
              = if k / 16 = g.val then v.extractLsb' (512 * (k % 16)) 512
                else Sparse.read (s.die d).truth Config.truthDefault k
          | .ctl c v =>
              let cleared (a b : BitVec 32) : Prop := b.extractLsb' 8 5 = v.extractLsb' 8 5
                ∧ ∀ k < 5, b.getLsbD k = (a.getLsbD k && !v.getLsbD k)
              (c = .flg → cleared r.flg u.flg) ∧ (c = .taskFlg → cleared x.task.flg y.task.flg)
              ∧ (c = .fmt → (badRnd v → u.fmt.extractLsb' 0 3 = r.fmt.extractLsb' 0 3)
                ∧ (¬ badRnd v → u.fmt.extractLsb' 0 3 = v.extractLsb' 0 3) ∧ u.fmt.extractLsb' 3 2 = v.extractLsb' 3 2
                ∧ (badAct v → u.fmt.extractLsb' 8 4 = r.fmt.extractLsb' 8 4)
                ∧ (¬ badAct v → u.fmt.extractLsb' 8 4 = v.extractLsb' 8 4) ∧ u.fmt &&& 0xFFFFF0E0 = 0)
              ∧ (c = .lr → u.lr = v) ∧ (c = .trapResume → y.trapResume = v) ∧ (c = .trapVec → y.trapVec = v)
              ∧ (c = .trapRs → y.trapRs = v ∧ y.hndStale = true)
              ∧ (c = .ctxMode → y.tagLimit = v.extractLsb' 8 5 ∧ y.tagWait = v.getLsbD 0
                ∧ y.opStrict = (v.getLsbD 1 && (s.die d).boot.featAcc.getLsbD 7))))

/-- Two results of one cycle land in the order of their slots, and in one slot in their order of issue: the later is q1 and
is what a register that both name holds. -/
def Obligations.LandingOrder : Prop :=
  ∀ (s : State) (f g : Flight) (z : Fin 16) (v w : Word),
    let d := s.ev.die
    let n := s.ev.ctx
    let x := s.ctx d n
    let due := x.flight.filter fun g => decide (g.due ≤ s.cycle) && g.land.isFlags == s.ev.flag
    due = [f, g] ∨ due = [g, f] → f.hnd = g.hnd → f.slot < g.slot ∨ (f.slot = g.slot ∧ f.ord < g.ord) →
    f.land = .scalar (.named z) v → g.land = .scalar (.named z) w →
    ∃ t, exec .resultLanding s = .next t ∧ ((t.ctx d n).file f.hnd).s[z] = w
      ∧ ((t.ctx d n).file f.hnd).q = (w :: v :: (x.file f.hnd).q).take 16

/-- A bank access performs: a load's bytes land in the next cycle and a vector load's lanes four cycles on, a local atomic
replaces its aligned word and lands the old one two cycles on, a store writes its bytes; every other byte of every die and of
panel memory stays, and every other context. Reads see the earlier stores of their context and class (logs 11, 113). A tag
that matches changes nothing; one that differs lands nothing and takes the schedule fault, which a drained access only
records. A setting permutes the lanes of a vector access, loads and stores alike; a far group reads no bank and writes none:
its lanes come from its link, and go out on it to the peer. -/
def Obligations.BankAccessPerforms : Prop :=
  ∀ (s : State) (a : Access),
    let d := s.ev.die
    let x := s.die d
    x.accs.find? (fun b => b.id == s.ev.id) = some a → a.id = s.ev.id → x.wf = true → x.bankBad = [] →
    let saw (y : Nat) : Byte := match (x.pending a).reverse.find? (fun p => p.1 == y) with
      | some p => p.2
      | none => x.bankByte y
    let at_ (off : Word) (k : Nat) : Nat := (a.win.base + (off + BitVec.ofNat 64 k).toNat % 2 ^ a.win.log2g) % Config.bankBytes
    let flies (t : State) (lat : Nat) (l : Land) : Prop := (s.ctx d a.ctx).cutOff a.bundle = false →
      { due := s.cycle + lat, slot := a.slot, ord := a.id, bundle := a.bundle, hnd := a.hnd, land := l }
        ∈ (t.ctx d a.ctx).flight
    let quiet (t : State) (l : List Nat) : Prop := (∀ e, e ≠ d → t.die e = s.die e) ∧ t.mem = s.mem ∧ t.panel = s.panel
      ∧ (∀ m, m ≠ a.ctx → t.ctx d m = s.ctx d m)
      ∧ (t.die d).accs = (x.accs.filter fun b => b.id != a.id).map
          (fun b => if b.before a then { b with dead := b.dead ++ l } else b)
      ∧ ∃ fl, t.ctx d a.ctx = { s.ctx d a.ctx with flight := (s.ctx d a.ctx).flight ++ fl }
    let quiet' (t : State) : Prop := (∀ e, e ≠ d → t.die e = s.die e) ∧ t.mem = s.mem ∧ t.panel = s.panel
      ∧ (∀ m, m ≠ a.ctx → t.ctx d m = s.ctx d m) ∧ (t.die d).accs = x.accs.filter (fun b => b.id != a.id) ∧ s.SameBytes t
    let puts (t : State) (l : List (Nat × Byte)) : Prop := quiet t (l.map (·.1)) ∧ ((∀ p ∈ l, p.1 < Config.foldBase) →
      ∀ y, y < Config.bankBytes → (t.die d).bankByte y = match l.reverse.find? (fun p => p.1 == y) with
        | some p => p.2
        | none => x.bankByte y)
    (∀ ty z off, a.kind = .load ty z off → (∀ w, a.tag = some w → x.tagAt (at_ off 0) = w) → ty.isScalarInt = true →
      ∃ t, exec .bankAccessPerform s = .next t ∧ quiet t [] ∧ s.SameBytes t ∧ ∃ v : BitVec ty.width,
        flies t 1 (.scalar z (Ty.ext ty v)) ∧ ∀ k, k < ty.width / 8 → v.extractLsb' (8 * k) 8 = saw (at_ off k))
    ∧ (∀ n off v, a.kind = .store n off v → ∃ t, exec .bankAccessPerform s = .next t
      ∧ puts t ((List.range n).map fun k => (at_ off k, v.extractLsb' (8 * k) 8)))
    ∧ (∀ off r, a.kind = .routeStore off r → ∃ t, exec .bankAccessPerform s = .next t
      ∧ puts t ((List.range 256).map fun k => (at_ off k, ((fullBlock r).getD (k / 8) 0).extractLsb' (8 * (k % 8)) 8)))
    ∧ (∀ op ty z off b c fm, a.kind = .amo op ty z off b c fm → ty.isAmo = true ∨ ty = .f32 →
      let w := ty.width
      let base : Word := off &&& ~~~BitVec.ofNat 64 (w / 8 - 1)
      ∃ t new, exec .bankAccessPerform s = .next t ∧ ∃ old : BitVec w,
        (∀ k, k < w / 8 → old.extractLsb' (8 * k) 8 = saw (at_ base k)) ∧ flies t 2 (.scalar z (Ty.ext ty old))
        ∧ puts t ((List.range (w / 8)).map fun k => (at_ base k, new.extractLsb' (8 * k) 8))
        ∧ (op = .add → new = old + Ty.low ty b) ∧ (op = .and → new = old &&& Ty.low ty b)
        ∧ (op = .or → new = old ||| Ty.low ty b) ∧ (op = .xor → new = old ^^^ Ty.low ty b)
        ∧ (op = .swap → new = Ty.low ty b) ∧ (op = .cas → new = if old = Ty.low ty c then Ty.low ty b else old)
        ∧ (op = .max → Ty.int ty new = max (Ty.int ty old) (Ty.int ty (Ty.low ty b)))
        ∧ (op = .min → Ty.int ty new = min (Ty.int ty old) (Ty.int ty (Ty.low ty b)))
        ∧ (op = .sadd → ∃ f, Reduced ty true (Ty.int ty old + Ty.int ty (Ty.low ty b)) new f ∧ (f ≠ 0 → flies t 2 (.flags f)))
        ∧ (ty = .f32 →
          let rd (v : Nat) : Val := operandF fmtF32 fm.flush v
          let o := rd old.toNat
          let e := rd (b.toNat % 2 ^ 32)
          let gives (r : Val × Flg) : Prop := new = BitVec.ofNat w (roundRes .f32 fm r).1
            ∧ ((roundRes .f32 fm r).2 ≠ 0 → flies t 2 (.flags (roundRes .f32 fm r).2))
          (op = .fadd → gives (addVal fm.rnd o e)) ∧ (op = .fmax → gives (maxMinVal true o e))
          ∧ (op = .fmin → gives (maxMinVal false o e))))
    ∧ (∀ z v m, a.kind = .vload z v m {} → a.tag = none → ∃ t r, exec .bankAccessPerform s = .next t ∧ quiet t []
      ∧ s.SameBytes t ∧ flies t 4 (.vector z r m)
      ∧ ∀ p k, p < 256 → k < 4 → (elem 32 r p).extractLsb' (8 * k) 8 = saw (at_ (v.wordOff (p / 2)) 0 + 4 * (p % 2) + k))
    ∧ (∀ v data m, a.kind = .vstore v data m {} → ∃ t, exec .bankAccessPerform s = .next t
      ∧ puts t ((List.range 1024).flatMap fun k => if m.getLsbD (k / 4)
        then [(at_ (v.wordOff (k / 8)) 0 + k % 8, data.extractLsb' (8 * k) 8)] else []))
    ∧ (let half (v : VAddr) (p : Nat) : Nat := at_ (v.wordOff (p / 2)) 0 + 4 * (p % 2)
       let c := s.ctx d a.ctx
       let faults (t : State) (w : BitVec 8) (vec : Bool) (y : Nat) : Prop :=
         (c.priv = true → a.hnd = false → quiet' t ∧ t.ctx d a.ctx = { c with trapCause := c.trapCause ||| 0x2000000 })
         ∧ (c.priv = false → c.st = .free → quiet' t ∧ t.ctx d a.ctx = c)
         ∧ (c.priv = false → 4 ≤ c.trapVec.toNat → c.st = .ready ∨ c.st = .running ∨ c.st = .blocked ∨ c.st = .held →
            let k := t.ctx d a.ctx
            quiet' t ∧ k.priv = true ∧ k.trapEnter = true ∧ k.trapAddr = a.pc ∧ k.trapResume = c.task.pc ∧ k.task = c.task
            ∧ k.hnd = { c.hnd with pc := c.trapVec &&& ~~~3 } ∧ k.flight = c.flight
            ∧ k.trapCause.extractLsb' 0 8 = 8 ∧ k.trapCause.extractLsb' 8 56 = 0
            ∧ k.trapInfo.extractLsb' 0 8 = w ∧ k.trapInfo.extractLsb' 8 8 = x.tagAt y ∧ k.trapInfo.extractLsb' 16 1 = 0
            ∧ k.trapInfo.getLsbD 17 = vec ∧ k.trapInfo.extractLsb' 32 27 = BitVec.ofNat 27 y)
       (∀ ty z off w, a.kind = .load ty z off → a.tag = some w → x.tagAt (at_ off 0) ≠ w →
         ∃ t, exec .bankAccessPerform s = .next t ∧ faults t w false (at_ off 0))
       ∧ (∀ z v m f, a.kind = .vload z v m f →
         let here (p : Nat) : Prop := p < 256 ∧ f.far.getLsbD (p / 16) = false
         (∀ w p, a.tag = some w → here p → x.tagAt (half v p) ≠ w → ∃ t q, exec .bankAccessPerform s = .next t ∧ here q
           ∧ x.tagAt (half v q) ≠ w ∧ faults t w true (half v q / 8 * 8))
         ∧ ((∀ w p, a.tag = some w → here p → x.tagAt (half v p) = w) → ∃ t, ∃ l : List Nat,
           exec .bankAccessPerform s = .next t ∧ quiet t [] ∧ s.SameBytes t ∧ l.length = 256
           ∧ flies t 4 (.vector z (ofLanes (traverse f.bits l)) m)
           ∧ (∀ p, here p → ∀ k, k < 4 → BitVec.ofNat 8 (l.getD p 0 / 2 ^ (8 * k)) = saw (half v p + k))
           ∧ ∀ p, p < 256 → f.far.getLsbD (p / 16) = true → l.getD p 0
             = match x.farIn.find? fun e => e.group.val == p / 16 && e.cycle == s.cycle with
               | some e => (e.data.extractLsb' (32 * (p % 16)) 32).toNat
               | none => 0))
       ∧ ∀ v data m f, a.kind = .vstore v data m f →
         let out := traverse f.bits (lanes data)
         let en := traverse f.bits ((maskBits m).map Bool.toNat)
         ∃ t, exec .bankAccessPerform s = .next t
         ∧ puts t ((List.range 1024).flatMap fun k => if en.getD (k / 4) 0 ≠ 0 ∧ f.far.getLsbD (k / 64) = false
           then [(half v (k / 4) + k % 4, BitVec.ofNat 8 (out.getD (k / 4) 0 / 2 ^ (8 * (k % 4))))] else [])
         ∧ ∀ (g : Fin 16) (p : DieId), f.far.getLsbD g.val = true → s.panel.locked = true → peerOf d (g.val / 4) = some p →
           let lat := x.stat.farLat[Fin.ofNat 4 (g.val / 4)]
           lat ≠ 0 → ∃ e ∈ t.agenda, e.act = .farGroupArrival ∧ e.due = s.cycle + lat.toNat ∧ e.arg.die = p
             ∧ e.arg.link = Fin.ofNat 4 (g.val / 4 + 2) ∧ e.arg.grp = Fin.ofNat 16 (Nat.xor g.val 8)
             ∧ ∀ k, k < 16 → (e.arg.group.extractLsb' (32 * k) 32).toNat = out.getD (16 * g.val + k) 0 % 2 ^ 32)

/-! ### Steps of the sequencer (R26, R27, R35, R73, R128 to R130, R137 to R139, R151 to R156, R160, R161, R206) -/

/-- The sequencer's steps: a bundle that meets no check or hold begins to issue, its bytes next, unless an engine hold
keeps it or the cache has lost its line (log 8); a met wait readies its context; a spent quantum passes the width at a
switch point, the results in flight of the old holder landing before it issues again (log 126); of contexts that are Ready
the first after the last holder takes the width, behind the holder itself where no switch cycle is due; a tag wait at its limit traps; an ended
task with nothing in flight frees its context; arrivals and sets join their fold's update; far data waits for its
cycle. -/
def Obligations.SequencerSteps : Prop :=
  ∀ (s : State),
    let d := s.ev.die
    let n := s.ev.ctx
    let x := s.die d
    let c := s.ctx d n
    (∀ (m : CtxId) (rs : List RawSyl) (is : List Instr), x.seq.inReset = false → x.seq.stall = false →
      x.seq.holder = some m →
      let k := s.ctx d m
      let lost := Config.lineLost s.freeCtr
      k.st = .running → k.waits = [] → k.pendTrap = none → k.act = none → k.earliest ≤ s.cycle →
      gather x (s.ctxRoot d m) 10 k.rf.pc [] = .ok rs → rs.findSome? (poolMiss x (s.ctxRoot d m) k.rf.pc) = none →
      decodeBundle x k rs = .ok is → x.regBad = [] → s.badBlock d m k.rf.pc rs = none → preTrap k is = none →
      k.tagWait = false →
      (lost = true → ∃ t, exec .bundleIssue s = .next t ∧ t.ctx d m = k ∧ t.iss = s.iss ∧ s.SameBytes t)
      ∧ (lost = false → engineHeld x k is = true → ∃ t, exec .bundleIssue s = .next t
        ∧ t.ctx d m = { k with st := .held } ∧ t.iss = s.iss ∧ s.SameBytes t)
      ∧ (lost = false → engineHeld x k is = false → ∃ t, exec .bundleIssue s = .next t ∧ t.iss.active = true ∧ t.iss.die = d
        ∧ t.iss.ctx = m ∧ t.iss.p = k.rf.pc ∧ t.iss.taken = 0 ∧ t.iss.buf = rs.flatMap (fun r => leBytes r.len r.bits)
        ∧ t.iss.target = none ∧ t.iss.waits = [] ∧ t.iss.bundle = x.seq.bundles
        ∧ t.ctx d m = { k with quantum := k.quantum + 1 } ∧ (∀ e l, e ≠ d ∨ l ≠ m → t.ctx e l = s.ctx e l)
        ∧ s.SameBytes t ∧ { t with dies := s.dies, iss := s.iss, freeCtr := s.freeCtr } = s))
    ∧ (c.st = .blocked → s.waitsIs d n = .met → ∃ t, exec .waitConditionMet s = .next t
        ∧ t.ctx d n = { c with st := .ready, waits := c.waits.filter (· == .ret) } ∧ s.SameBytes t)
    ∧ (∀ info, c.st = .blocked → s.waitsIs d n = .error info → x.regBad = [] → ∃ t, exec .waitConditionMet s = .next t
        ∧ t.ctx d n = { c with st := .ready, waits := [], pendTrap := some { cause := 0x0A, addr := c.waitPc, resume := c.rf.pc, info := info } } ∧ s.SameBytes t)
    ∧ (c.st = .held → ∃ t, exec .heldBundleRelease s = .next t ∧ t.ctx d n = { c with st := .running } ∧ s.SameBytes t)
    ∧ (x.seq.holder = some n → x.seq.last = n → 0 < s.cycle → c.st = .running → c.waits ≠ [] → (∀ w ∈ c.waits, w ≠ .ret) →
      x.seq.quantum ≤ c.quantum → s.waitsIs d n = .met → ∀ k : CtxId,
      [n + 1, n + 2, n + 3].find? (fun m => (s.ctx d m).st == .ready) = some k →
      ∃ t, exec .quantumExpiry s = .next t ∧ k ≠ n ∧ (s.ctx d k).st = .ready ∧ (t.die d).seq.holder = some k
        ∧ (t.die d).seq.switches = x.seq.switches + 1 ∧ (t.ctx d n).st = .ready ∧ (t.ctx d n).waits = []
        ∧ (∀ f ∈ c.flight, f.due ≤ (t.ctx d n).earliest) ∧ (t.ctx d n).task = c.task ∧ (t.ctx d n).flight = c.flight
        ∧ t.ctx d k = { s.ctx d k with st := .running, quantum := 0, earliest := max (s.ctx d k).earliest (s.cycle + 1) }
        ∧ (∀ e l, e ≠ d ∨ (l ≠ n ∧ l ≠ k) → t.ctx e l = s.ctx e l) ∧ s.SameBytes t ∧ { t with dies := s.dies } = s)
    ∧ (let h := x.seq.last
       let idle (k : CtxId) : Prop := (s.ctx d k).waits = [] ∧ (s.ctx d k).act = none ∧ (s.ctx d k).pendTrap = none
       let takes (k : CtxId) (m z : Nat) : Prop := ∃ t, exec .bundleIssue s = .next t ∧ (t.die d).seq.holder = some k
         ∧ (t.die d).seq.last = k ∧ (t.die d).seq.switches = x.seq.switches + BitVec.ofNat 64 z ∧ t.iss = s.iss
         ∧ t.ctx d k = { s.ctx d k with st := .running, quantum := 0, earliest := max (s.ctx d k).earliest m }
         ∧ (∀ e l, e ≠ d ∨ (l ≠ k ∧ l ≠ h) → t.ctx e l = s.ctx e l) ∧ s.SameBytes t ∧ { t with dies := s.dies } = s
       x.seq.inReset = false → x.seq.stall = false → x.seq.holder = none →
       (s.cycle ≠ x.seq.gaveUp + 1 → (s.ctx d h).st = .ready → idle h → s.cycle < (s.ctx d h).earliest → takes h s.cycle 0)
       ∧ (s.cycle = x.seq.gaveUp + 1 ∨ (s.ctx d h).st ≠ .ready → ∀ k,
          [h + 1, h + 2, h + 3].find? (fun m => (s.ctx d m).st == .ready) = some k → idle k → takes k (s.cycle + 1) 1))
    ∧ (∀ rs is a vec found want, Wait.tags s.ev.seq ∈ c.waits → gather x (s.ctxRoot d n) 10 c.rf.pc [] = .ok rs →
      decodeBundle x c rs = .ok is → tagMiss x c (readFar is) is = some (a, vec, found, want) →
      ∃ info : Word, exec .tagWaitLimit s = .next (s.takeTrap d n
          { cause := 8, addr := c.rf.pc, resume := c.rf.pc, info := info })
        ∧ info.extractLsb' 0 8 = want ∧ info.extractLsb' 8 8 = found ∧ info.getLsbD 16 = true ∧ info.getLsbD 17 = vec
        ∧ info.extractLsb' 32 27 = BitVec.ofNat 27 a)
    ∧ (c.st = .ending → c.ending = .halt ∨ c.ending = .lost ∨ c.ending = .noTask → s.busyCtx d n = false →
      ∃ t, exec .taskEnd s = .next t
        ∧ (let k := t.ctx d n
           k.st = .free ∧ k.priv = false ∧ k.hasWin = false ∧ k.taskEmpty = true ∧ k.hndEmpty = true ∧ k.waits = []
           ∧ k.cutAt = none ∧ k.act = none)
        ∧ (∀ f : FoldId, ((t.die d).folds[f]).owner = (x.folds[f]).owner &&& ~~~(1 <<< n.val : BitVec 4))
        ∧ (∀ o : Fin 128, ((t.die d).slots[o]).owner = if (x.slots[o]).owner = some n then none else (x.slots[o]).owner)
        ∧ (∀ o : Fin 128, ((t.die d).slots[o]).bytes = (x.slots[o]).bytes)
        ∧ (∀ e l, e ≠ d ∨ l ≠ n → t.ctx e l = s.ctx e l) ∧ (c.ending ≠ .halt → t.panel = s.panel)
        ∧ t.mem = s.mem ∧ t.agenda = s.agenda)
    ∧ exec .arrivePerform s = .next (s.setDie d
      { x with foldEvts := x.foldEvts ++ [(s.ev.fold, .add (s.ev.val.toNat % 2 ^ 32))] })
    ∧ exec .foldSetPerform s = .next (s.setDie d
      { x with foldEvts := x.foldEvts ++ [(s.ev.fold, .set s.ev.ctx s.ev.arr (s.ev.val.setWidth 32))] })
    ∧ (s.panel.locked = true → s.ev.flag = false → exec .farGroupArrival s = .next (s.setDie d { x with farIn := x.farIn ++
        [{ group := s.ev.grp, cycle := s.cycle, data := s.ev.group, en := s.ev.groupEn }] }))
    ∧ (s.panel.locked = true → s.ev.flag = true → exec .farGroupArrival s = .next (s.setDie d
        { x with stat := { x.stat with farDrops := satInc x.stat.farDrops } }))
    ∧ (s.panel.locked = false → exec .farGroupArrival s = .next s)

/-! ### Launches, register spaces and pre-emption (R10 to R13, R172 to R186, R340 to R343) -/

/-- A launch that its die can start begins in its lowest free context (log 26), with the launch's registers, tile, window and
trap values, a zeroed new window and its space active; without room nothing starts. An activation brings a saved space into
its context with its window; `ctxsw` then resumes there and says how it went; a handler space that was never saved starts
empty (logs 21, 162) and becomes active; a released window loses its space. One whose page migrates waits on. A write of
ctx_pre asks for pre-emption, and a forced cut-back drops what its region has in flight, aborts its operations (log 164), and
saves the space in state 3 at the region's start. -/
def Obligations.TaskSpaces : Prop :=
  (∀ (s : State) (p : PendLaunch) (n : CtxId),
    let d := s.ev.die
    let x := s.die d
    let data := (p.word 3).toNat % 2 ^ 32
    let slots := ((p.word 3).extractLsb' 32 8).toNat
    let rsAt := homeAddr p.rs % Config.bankBytes
    let own := [(rsAt, 0xAD00), (homeAddr p.hs % Config.bankBytes, 0x8C00)]
    let granted := x.grant data slots (Fin.ofNat 16 ((p.word 3).extractLsb' 44 4).toNat) ((p.word 3).extractLsb' 48 8) own
    (x.pendLaunch.find? fun p => p.queue == s.ev.que) = some p → x.pendLaunch.Nodup → x.freeCtxOf = some n →
    p.ready ≤ s.cycle → (x.ctx n).homeAfter ≤ s.cycle → (∀ f ∈ x.launchFaults, f.queue ≠ p.queue ∨ f.ctx ≠ n) →
    (x.termSeen[s.ev.que]).toNat ≤ p.term.toNat → (s.queue s.ev.que).elect = false →
    p.rs.getLsbD 0 = false → p.hs.getLsbD 0 = false → x.bankBad = [] →
    s.spaceState d n p.rs = 0 → s.spaceState d n p.hs < 2 →
    (∀ w, granted = some (w, true) → (p.word 6).extractLsb' 32 32 = 0 → ∃ t, exec .taskLaunchStart s = .next t
      ∧ (let k := t.ctx d n
         k.st = .ready ∧ k.priv = false ∧ k.task.pc = p.word 1 &&& ~~~3
         ∧ (∀ r : Fin 16, k.task.s[r] = if r.val < 8 then p.word (8 + r.val) else 0)
         ∧ (∀ r : Fin 16, k.task.v[r] = 0) ∧ k.task.q = [] ∧ k.task.depth = 1 ∧ k.task.masks[0] = BitVec.allOnes 256
         ∧ k.task.flg = 0 ∧ k.task.fmt = 0 ∧ (∀ m : TokId, k.tok[m] = .free) ∧ k.tileN = BitVec.ofNat 20 p.n
         ∧ (let width := max 1 ((p.word 2).extractLsb' 32 13).toNat
            k.tileX = BitVec.ofNat 12 (p.n % width) ∧ k.tileY = BitVec.ofNat 16 (p.n / width))
         ∧ k.vdie = (p.word 2).extractLsb' 0 8 + BitVec.ofNat 8 p.n ∧ k.queue = p.queue ∧ k.serial = p.serial
         ∧ k.job = (p.word 3).extractLsb' 48 8 ∧ k.trapVec = p.word 7 ∧ k.rsTask = p.rs ∧ k.idemPc = p.word 1 &&& ~~~3
         ∧ k.hasWin = true ∧ k.win = w ∧ k.vtab = x.vtab ∧ k.earliest = s.cycle + 1 + 2 ^ w.log2g / 1024)
      ∧ (t.die d).pendLaunch = x.pendLaunch.erase p ∧ (t.die d).termSeen[s.ev.que] = p.term
      ∧ (x.wf = true → ∀ a, w.base ≤ a → a < w.base + 2 ^ w.log2g → a < Config.foldBase →
          a < rsAt + 0x28 ∨ rsAt + 0x30 ≤ a → a < rsAt + 0x48 ∨ rsAt + 0x50 ≤ a → (t.die d).bankByte a = 0)
      ∧ (x.wf = true → rsAt + 0x30 ≤ Config.foldBase → ((t.die d).bankByte (rsAt + 0x28)).extractLsb' 0 4 = 1)
      ∧ (∀ e m, e ≠ d ∨ m ≠ n → t.ctx e m = s.ctx e m) ∧ t.mem = s.mem)
    ∧ (granted = none → ∃ t, exec .taskLaunchStart s = .next t ∧ (t.die d).pendLaunch = x.pendLaunch.erase p
      ∧ (∀ e m, t.ctx e m = s.ctx e m) ∧ ∀ (e : DieId) (a : Nat), (t.die e).bankByte a = (s.die e).bankByte a))
  ∧ (∀ (s : State) (a : Activation) (h : HeldSpace) (im : SpaceImage),
    let d := s.ev.die
    let n := s.ev.ctx
    let x := s.die d
    let c := s.ctx d n
    let d8 : Bool := x.boot.featAcc.getLsbD 1
    let saved := (s.homeReadLines d n a.base 0 2048).2 = false
      ∧ (s.spaceState d n a.base = 2 ∨ s.spaceState d n a.base = 3) ∧ s.windowHeld d n a.base = some h
      ∧ s.readSpace d n false a.base = .ok im
    let holds (t : State) : Prop := (t.ctx d n).task = im.file d8 ∧ (t.ctx d n).win = h.win ∧ (t.ctx d n).hasWin = true
      ∧ (t.ctx d n).taskEmpty = false ∧ (t.ctx d n).rsTask = a.base ∧ (t.ctx d n).act = none ∧ (t.ctx d n).waits = []
      ∧ (t.ctx d n).st = .ready ∧ (t.ctx d n).idemPc = wordOfBytes ((im.general.drop 0x30).take 8)
      ∧ (∀ k : Fin 32, (t.ctx d n).x[k] = im.route k.val) ∧ (∀ k : TokId, (t.ctx d n).tok[k] = im.tok k.val)
      ∧ (t.die d).heldSpaces = x.heldSpaces.filter (fun k => k.rs != a.base)
      ∧ (∀ e m, e ≠ d ∨ m ≠ n → t.ctx e m = s.ctx e m) ∧ ∀ e, e ≠ d → t.die e = s.die e
    c.act = some a → a.due = s.cycle → x.bankBad = [] →
    (a.hnd = false → a.byCtxsw = true → c.st = .blocked → a.base.getLsbD 0 = false → c.taskEmpty = true →
      (saved → ∃ t, exec .ctxswComplete s = .next t ∧ holds t ∧ (t.ctx d n).rsStatus = 0
        ∧ (t.ctx d n).trapResume = (im.file d8).pc ∧ (t.ctx d n).queue = h.queue ∧ (t.ctx d n).tileN = h.tileN)
      ∧ ((s.homeReadLines d n a.base 0 2048).2 = false → s.spaceState d n a.base < 2 → ∃ t,
        exec .ctxswComplete s = .next t ∧ (t.ctx d n).rsStatus = 3 ∧ (t.ctx d n).st = .ready ∧ (t.ctx d n).act = none
        ∧ (t.ctx d n).taskEmpty = true ∧ s.SameBytes t))
    ∧ (a.hnd = false → a.byCtxsw = true → c.st = .blocked → a.base.getLsbD 0 = true → c.taskEmpty = true →
      ∃ t, exec .ctxswComplete s = .next t ∧ t.ctx d n
        = { c with act := some { a with due := 0 }, waits := [.refill], hasWin := false } ∧ s.SameBytes t)
    ∧ (s.activationMoves d n a = true → ∃ t, exec .spillRefillComplete s = .next t
        ∧ t.ctx d n = { c with act := some { a with due := 0 } } ∧ s.SameBytes t)
    ∧ (s.activationMoves d n a = false → a.hnd = false → a.byCtxsw = false → saved → ∃ t, exec .spillRefillComplete s = .next t ∧ holds t
        ∧ (t.ctx d n).earliest = s.cycle + 1)
    ∧ (s.activationMoves d n a = false → a.hnd = true → c.hndEmpty = true → (s.homeReadLines d n a.base 0 2048).2 = false → s.spaceState d n a.base < 2 → ∃ t,
        exec .spillRefillComplete s = .next t ∧ (t.ctx d n).hnd = (if c.priv then { ({} : RegFile) with pc := c.hnd.pc } else {})
        ∧ (t.ctx d n).hndBase = a.base ∧ (t.ctx d n).hndEmpty = false ∧ (t.ctx d n).act = none
        ∧ (t.ctx d n).task = c.task ∧ (∀ e m, e ≠ d ∨ m ≠ n → t.ctx e m = s.ctx e m)
        ∧ (a.base.getLsbD 0 = true → ∀ (e : DieId) (y : Nat), (t.die e).bankByte y = (s.die e).bankByte y)
        ∧ (a.base.getLsbD 0 = false → t.mem = s.mem ∧ (∀ e, e ≠ d → t.die e = s.die e)
          ∧ (homeAddr a.base + 0x30 ≤ Config.foldBase → x.wf = true → ∀ y, y < Config.bankBytes → (t.die d).bankByte y
            = if y = homeAddr a.base + 0x28 then (x.bankByte y &&& 0xF0) + 1 else x.bankByte y))))
  ∧ (∀ (s : State) (h : HeldSpace),
    let d := s.ev.die
    let x := s.die d
    let base := spaceBase s.ev.val
    (x.heldFor base = none → exec .winRelWrite s = .next s)
    ∧ (x.heldFor base = some h → base.getLsbD 0 = false → homeAddr base + 0x30 ≤ Config.foldBase → x.wf = true → ∃ t,
        exec .winRelWrite s = .next t ∧ (t.die d).heldSpaces = x.heldSpaces.filter (fun k => k.rs != base)
        ∧ t.mem = s.mem ∧ (∀ e m, t.ctx e m = s.ctx e m)
        ∧ ∀ y, y < Config.bankBytes → (t.die d).bankByte y
          = if y = homeAddr base + 0x28 then (x.bankByte y &&& 0xF0) + 4 else x.bankByte y))
  ∧ ∀ (s : State),
    let d := s.ev.die
    let n := s.ev.ctx
    let x := s.die d
    let c := s.ctx d n
    let v := s.ev.val
    (∃ t, exec .ctxPreWrite s = .next t ∧ s.SameBytes t ∧ t.ctx d n =
      { c with preLimit := v.extractLsb' 32 32, preForce := v.getLsbD 1, preReq := v.getLsbD 0, preReqOld := c.reqAt s.cycle
               preSeen := s.cycle + 2
               cutAt := if v.getLsbD 0 = true ∧ v.getLsbD 1 = true then some (s.cycle + 2 + (v.extractLsb' 32 32).toNat)
                 else none })
    ∧ (c.st ≠ .free → c.st ≠ .ending → c.priv = false → ∃ t, exec .cutBack s = .next t
      ∧ t.ctx d n = { c with st := .ending, ending := .cutBack, waits := [], trapEnter := false, pendTrap := none
                             cutAt := none, preDeferred := false, ctxswArg := none, act := c.act.filter (·.hnd)
                             rsFault := c.rsFault && c.act.any (·.hnd)
                             flight := c.flight.filter fun f => decide (f.bundle < c.idemBundle) }
      ∧ (∀ q : Fin 19, (t.die d).queues[q] = (x.queues[q]).map fun o =>
          if o.ctx = n ∧ c.idemBundle ≤ o.bundle then { o with abort := true } else o)
      ∧ (t.die d).seq.holder = (if x.seq.holder = some n then none else x.seq.holder)
      ∧ (∀ e, e ∈ t.agenda ↔ e ∈ s.agenda ∧ ¬ ((e.act = .arrivePerform ∨ e.act = .foldSetPerform) ∧ e.arg.die = d
          ∧ e.arg.ctx = n ∧ c.idemBundle ≤ e.arg.seq))
      ∧ s.SameBytes t ∧ (∀ e m, e ≠ d ∨ m ≠ n → t.ctx e m = s.ctx e m)
      ∧ { t with dies := s.dies, agenda := s.agenda } = s)
    ∧ (c.st ≠ .free → c.st ≠ .ending → c.priv = true → (∀ w ∈ c.waits, w ≠ .ret) → ∃ t, exec .cutBack s
        = .next t ∧ s.SameBytes t ∧ t.ctx d n = { c with cutAt := none, preDeferred := true })
    ∧ (c.st = .free ∨ c.st = .ending → ∃ t, exec .cutBack s = .next t ∧ t.ctx d n = { c with cutAt := none })
    ∧ (c.st = .ending → c.ending = .cutBack → c.act ≠ none → s.saveMoves d n = true →
      exec .cutBackSaveEnd s = .next (s.modCtx d n fun c => { c with act := none }))
    ∧ (c.st = .ending → c.ending = .cutBack → c.act ≠ none → s.saveMoves d n = false → ∃ t,
      exec .cutBackSaveEnd s = .next t
      ∧ (t.ctx d n).st = .free ∧ (t.ctx d n).hasWin = false
      ∧ (∃ k ∈ (t.die d).heldSpaces, k.rs = c.rsTask ∧ k.win = c.win ∧ k.queue = c.queue ∧ k.tileN = c.tileN)
      ∧ (∀ e m, e ≠ d ∨ m ≠ n → t.ctx e m = s.ctx e m)
      ∧ (c.rsTask.getLsbD 0 = false → homeAddr c.rsTask + 0xAD00 ≤ Config.foldBase → x.wf = true →
        (∀ k, k < 8 → (t.die d).bankByte (homeAddr c.rsTask + k) = (c.idemPc &&& ~~~3).extractLsb' (8 * k) 8)
        ∧ ((t.die d).bankByte (homeAddr c.rsTask + 0x28)).extractLsb' 0 4 = 3))

/-! ### Steps of the engines and of the streams (R142 to R153, R170, R250 to R276, R309, R320 to R326) -/

/-- The engines' and streams' steps: an operation starts, an array's with its time to completion, or ends with code 1 for a
consumed token in error and with 3 for a slot not its own; its completion or error sets its token, fold and record, stamps,
wakes what consumes it, and keeps what can resume; copied units count; a tag wait ends at its limit; a follow-on is handed
over. The rows of an array operation change the accumulators, counts, shadow weights and slot that R264 to R270 say. An access
is sent, to a die or to panel memory, with the next number of its pair (keyed by the incarnation, log 57) and a time limit,
performs in its turn or waits, is refused for retry (then resent) or acknowledged; a time-out marks its destination lost. -/
def Obligations.EngineSteps : Prop :=
  (∀ (s : State) (o : Op),
    let d := s.ev.die
    let x := s.die d
    let id := s.ev.id
    let found (q : Fin 19) : Prop := s.ev.eng = q ∧ s.op d q id = some o
    let now (t : State) (q : Fin 19) (f : Op → Prop) : Prop := ∃ p, t.op d q id = some p ∧ f p
    let quiet (t : State) : Prop := s.SameBytes t ∧ (∀ e, e ≠ d → t.die e = s.die e)
      ∧ { t with dies := s.dies, agenda := s.agenda } = s
    let record (t : State) (k : Nat) : Prop := ((t.ctx d o.ctx).recs o.hnd)[o.tp].extractLsb' 72 8 = BitVec.ofNat 8 k
    let ends (t : State) (q : Fin 19) (code : BitVec 8) (st : TokState) : Prop := now t q (fun p => p.st = .ended ∧ p.err = code)
      ∧ (t.die d).tokEvts = x.tokEvts ++ [(o.ctx, o.tp, st)]
      ∧ (t.die d).foldEvts = x.foldEvts ++ (match o.fold with
          | some f => [(f, if code = 0 then .done else .err q.val code)]
          | none => [])
      ∧ (∀ (r : Fin 19), ∀ p ∈ (t.die d).queues[r], .ref id ∉ p.deps) ∧ quiet t
    (found 0 → o.st = .queued → o.depError = false → (∀ k, o.ins ≠ .cpRs k) → ∃ t, exec .engineOpStart s = .next t
      ∧ now t 0 (fun p => p = { o with st := .running, start := s.cycle }) ∧ record t 2 ∧ quiet t)
    ∧ (∀ q, found q → o.st = .queued → o.depError = true → ∃ t, exec .engineOpStart s = .next t ∧ quiet t ∧ t.dies = s.dies
      ∧ { due := s.cycle, act := .engineOpError, arg := { die := d, eng := q, id := id, code := 1 } } ∈ t.agenda)
    ∧ (∀ q, q = 0 ∨ q = 17 → found q → o.st ≠ .ended → o.stopAt = none → ∃ t, exec .engineOpComplete s = .next t
      ∧ ends t q 0 .done ∧ record t 4
      ∧ (q = 0 → (t.die d).stamps = x.stamps ++ match copyStamp o with
          | some g => o.tiles.eraseDups.map fun y => (1, y, g)
          | none => [])
      ∧ (q = 0 → o.minor = 4 → (t.die d).cpResume[o.ctx] = none))
    ∧ (∀ q : Fin 19, 1 ≤ q.val → q.val ≤ 16 → found q → o.st = .queued → o.depError = false →
      let k := arrKind o.ins
      let m := arrayOf q
      let fmt := streamFmt (x.feature 1) o
      let two (b : Prop) [Decidable b] : Nat := if b then 2 else 1
      let time := match k with
        | .wld => 8 + wordK o * two (fmt.width = 16)
        | .mul | .dist => 132 + wordM o * two (fmt.width = 16 ∨ (x.arrays[m]).live.fmt.width = 16)
        | .cent => 8 + wordM o
        | .drn => 4 + wordM o
        | .cdrn => 4 + wordK o
        | .best => 16 + wordM o
        | .resume | .slot => 0
      let done (t : State) (n : Nat) : Prop := { due := n, act := .engineOpComplete, arg := { die := d, eng := q, id := id } } ∈ t.agenda
      let fails (t : State) (code : BitVec 8) : Prop :=
        { due := s.cycle, act := .engineOpError, arg := { die := d, eng := q, id := id, code := code } } ∈ t.agenda
      let mine (n : Fin 128) : Prop := (x.slots[n]).owner = some o.ctx
      let slotIs (t : State) (n : Fin 128) (z : Slot) : Prop := quiet t ∧ (t.die d).slots[n] = z
        ∧ ∀ p, p ≠ n → (t.die d).slots[p] = x.slots[p]
      (k ≠ .slot → k ≠ .resume → wordFar o = false ∨ (k ≠ .wld ∧ k ≠ .mul ∧ k ≠ .dist) → o.steps = 0 →
        (usesSlot (x.feature 1) k o = true → ¬ mine (slotOf m.val o) → ∃ t, exec .engineOpStart s = .next t ∧ fails t 3 ∧ quiet t
          ∧ (t.die d).slots = x.slots)
        ∧ ((usesSlot (x.feature 1) k o = true → mine (slotOf m.val o)) → ∃ t, exec .engineOpStart s = .next t
          ∧ done t (s.cycle + time) ∧ record t 2 ∧ quiet t ∧ (t.die d).slots = x.slots
          ∧ now t q (fun p => p.st = .running ∧ p.start = s.cycle ∧ p.steps = 0 ∧ p.va = o.va ∧ p.vb = o.vb ∧ p.vc = o.vc
            ∧ p.flags = o.flags ||| fieldFlags (x.feature 1) k o
            ∧ p.pend.map (·.2) = (transfers (bankElems (x.feature 1) k x.arrays[m] o (List.range (arrRows k o)))).map (·.2))))
      ∧ (∀ n dep, o.ins = .slotClaim n dep →
        ((x.slots[n]).owner = none → ∃ t, exec .engineOpStart s = .next t ∧ slotIs t n { x.slots[n] with owner := some o.ctx }
          ∧ done t s.cycle)
        ∧ (mine n → ∃ t, exec .engineOpStart s = .next t ∧ slotIs t n x.slots[n] ∧ done t s.cycle)
        ∧ (∀ c, (x.slots[n]).owner = some c → c ≠ o.ctx → ∃ t, exec .engineOpStart s = .next t ∧ slotIs t n x.slots[n]
          ∧ fails t 3))
      ∧ (∀ n dep, o.ins = .slotRelease n dep →
        (mine n → ∃ t, exec .engineOpStart s = .next t ∧ slotIs t n { x.slots[n] with owner := none } ∧ done t s.cycle)
        ∧ (¬ mine n → ∃ t, exec .engineOpStart s = .next t ∧ slotIs t n x.slots[n] ∧ fails t 3))
      ∧ (∀ n a dep, o.ins = .slotShape n a dep →
        let rows := (o.va.extractLsb' 0 9).toNat
        let cols := (o.va.extractLsb' 9 9).toNat
        let fits : Prop := 1 ≤ rows ∧ rows ≤ 256 ∧ 1 ≤ cols ∧ cols ≤ 256
        (mine n → fits → ∃ t, exec .engineOpStart s = .next t ∧ done t s.cycle
          ∧ slotIs t n { x.slots[n] with rows := rows, cols := cols, colMajor := o.va.getLsbD 18 })
        ∧ (mine n → ¬ fits → ∃ t, exec .engineOpStart s = .next t ∧ done t s.cycle ∧ slotIs t n x.slots[n]
          ∧ now t q (fun p => p.flags = o.flags ||| fInvalid))
        ∧ (¬ mine n → ∃ t, exec .engineOpStart s = .next t ∧ slotIs t n x.slots[n] ∧ fails t 3))
      ∧ (∀ n dep, o.ins = .slotZero n dep →
        (mine n → ∃ t, exec .engineOpStart s = .next t ∧ slotIs t n x.slots[n] ∧ done t (s.cycle + 31))
        ∧ (¬ mine n → ∃ t, exec .engineOpStart s = .next t ∧ slotIs t n x.slots[n] ∧ fails t 3)))
    ∧ (∀ q : Fin 19, 1 ≤ q.val → q.val ≤ 16 → found q → o.st ≠ .ended → o.stopAt = none →
      let k := arrKind o.ins
      let m := arrayOf q
      let a := x.arrays[m]
      (s.ev.code ≠ 0 → ∃ t, exec .engineOpError s = .next t ∧ ends t q s.ev.code .error ∧ record t 5
        ∧ (k ≠ .slot → k ≠ .resume → s.ev.code ≠ 1 ∨ o.st ≠ .queued → ∃ e, ((t.die d).arrays[m]).resume = some e
          ∧ e.ins = o.ins ∧ e.va = o.va ∧ e.vb = o.vb ∧ e.vc = o.vc ∧ e.steps = o.steps ∧ e.err = s.ev.code))
      ∧ (k = .slot → ∃ t, exec .engineOpComplete s = .next t ∧ ends t q 0 .done ∧ record t 4 ∧ (t.die d).arrays = x.arrays)
      ∧ (k ≠ .slot → o.err = 0 → s.rowsDue d q o (arrRows k o) ≤ s.cycle → arrRows k o ≤ o.steps → s.drains d o = false →
        o.left = [] → (∀ p ∈ (x.queues[q]).takeWhile fun p => p.id != id, p.st = .ended) → o.poison = false →
        ∃ t, exec .engineOpComplete s = .next t ∧ ends t q 0 .done ∧ record t 4
        ∧ ((t.die d).arrays[m]).acc = a.acc ∧ ((t.die d).arrays[m]).cnt = a.cnt
        ∧ (k = .wld → o.first < arrRows k o → ((t.die d).arrays[m]).live = a.shadow ∧ ((t.die d).arrays[m]).shadow = {})
        ∧ (k ≠ .wld → ((t.die d).arrays[m]).live = a.live ∧ ((t.die d).arrays[m]).shadow = a.shadow)))
    ∧ (∀ q, q = 0 ∨ q = 17 ∨ q = 18 → found q → o.st ≠ .ended → s.ev.code ≠ 0 → ∃ t, exec .engineOpError s = .next t
      ∧ ends t q s.ev.code .error ∧ record t 5
      ∧ (q = 0 → s.ev.code.toNat ∈ [2, 3, 4, 6, 8] → ∃ e, (t.die d).cpResume[o.ctx] = some e ∧ e.op.progress = o.progress
          ∧ e.op.ins = o.ins ∧ e.op.va = o.va ∧ e.op.vb = o.vb ∧ e.op.vd = o.vd)
      ∧ (q = 0 → s.ev.code.toNat ∉ [2, 3, 4, 6, 8] → (t.die d).cpResume = x.cpResume))
    ∧ (∀ u, s.op d 0 id = some o → (o.units.find? fun u => u.no == s.ev.unit) = some u →
      o.done = [] → o.progress = 256 * u.no → ∃ t, exec .copyUnitCommit s = .next t ∧ quiet t
      ∧ now t 0 (fun p => p.progress = min (copyLen o) (256 * (u.no + 1)) ∧ p.units = o.units.filter fun v => v.no != u.no)
      ∧ record t (if s.atFault d 0 id then 3 else 2) ∧ (t.die d).foldEvts = x.foldEvts ++ match o.fold with
          | some f => if u.len = 0 then [] else [(f, .bytes u.len)]
          | none => [])
    ∧ (∀ u, s.op d 0 id = some o → (o.units.find? fun u => u.no == s.ev.unit && u.since.any fun e => decide (e.2 + 2 ^ o.tagLimit.toNat ≤ s.cycle)) = some u →
      ∃ t, exec .copyTagWaitLimit s = .next t ∧ s.SameBytes t ∧ t.mem = s.mem
        ∧ now t 0 (fun p => p.err = (if o.err = 0 then 8 else o.err) ∧ ∀ v, v ∈ p.units → v ∈ o.units ∧ v.no ≠ s.ev.unit))
    ∧ (∃ t, exec .followOnIssue s = .next t ∧ quiet t ∧ ∀ q : Fin 19, (t.die d).queues[q] = (x.queues[q]).map fun p =>
        if p.id = id then { p with handed := true } else p))
  ∧ (∀ (s : State) (d : DieId) (q : Fin 19) (o : Op),
    let m := arrayOf q
    let x := s.die d
    let a := x.arrays[m]
    let n := slotOf m.val o
    let t := x.slots[n]
    let k := arrKind o.ins
    let fmt := streamFmt (x.feature 1) o
    let r := min (arrRows k o) ((o.steps / 16 + 1) * 16)
    let rows := (List.range r).drop o.steps
    let now (i : Nat) : Bool := decide (o.steps ≤ i) && decide (i < r)
    let first : Bool := o.steps == 0
    let clear : Bool := wordClear o
    let get (j : Nat) : Byte := if wordFar o then o.data.getD j 0 else x.bankByte (o.win.byteAddr o.vc j)
    let row (i : Nat) : ActRow := streamRow t fmt (rowScales k o fmt get r).1 (rowLen k o) o.steps i
    1 ≤ q.val → q.val ≤ 16 → s.op d q o.id = some o → x.wf = true → x.bankBad = [] → t.bad = [] → o.fetching = false →
    o.err = 0 → o.stopAt = none → o.left = [] → o.steps < arrRows k o → s.rowsDue d q o r ≤ s.cycle →
    let u := s.stepCycle d q o
    let b := (u.die d).arrays[m]
    let v := (u.die d).slots[n]
    (u.mem = s.mem ∧ (∀ e, e ≠ d → u.die e = s.die e) ∧ (∀ y, (u.die d).bankByte y = x.bankByte y)
      ∧ (∀ p, p ≠ m → (u.die d).arrays[p] = x.arrays[p]) ∧ (∀ p, p ≠ n → (u.die d).slots[p] = x.slots[p])
      ∧ b.live = a.live ∧ (k ≠ .wld → b.shadow = a.shadow)
      ∧ ∃ p, u.op d q o.id = some p ∧ p.steps = r ∧ p.progress = o.progress + (r / 16 - o.steps / 16))
    ∧ (k = .wld → v = t ∧ b.acc = a.acc ∧ b.cnt = a.cnt ∧ (first = true → b.shadow.fmt = fmt) ∧ ∀ i j, j < 128 →
        Sparse.read b.shadow.w 0 (128 * i + j) = (if now i = true ∧ j < wordM o then BitVec.ofNat 16 (t.elem i j fmt.width)
          else if first then 0 else Sparse.read a.shadow.w 0 (128 * i + j))
        ∧ Sparse.read b.shadow.scale 0x3C00 (128 * i + j)
          = (if now i = true ∧ j < wordM o then BitVec.ofNat 16 ((row i).scales.getD j 0)
            else if first then 0x3C00 else Sparse.read a.shadow.scale 0x3C00 (128 * i + j)))
    ∧ (k = .mul ∨ k = .dist →
        let int : Bool := if first then isInt8 fmt && isInt8 a.live.fmt && !wordScaled o && !a.live.scaled else !a.float
        let metric := if k = .dist then min 2 (o.va.extractLsb' 24 2).toNat else 0
        v = t ∧ b.cnt = a.cnt ∧ b.float = !int ∧ (first = true → k = .dist → b.metric.val = metric) ∧ ∀ i j, j < 128 →
        let was := if first = true ∧ clear = true then 0 else a.accAt i j
        (now i = false → b.accAt i j = was)
        ∧ (now i = true → a.live.poison = true → b.accAt i j = poisonValue (!int))
        ∧ (now i = true → a.live.poison = false →
          b.accAt i j = BitVec.ofNat 32
            (cellRun int o.fmt.sat metric fmt a.live.fmt (row i) (a.live.col j (wordK o)) was.toNat).1
          ∧ (int = true → o.fmt.sat = false → metric = 0 → b.accAt i j = was + BitVec.ofInt 32
            ((List.range (wordK o)).map fun z => intVal fmt (t.elem i z fmt.width)
              * intVal a.live.fmt (Sparse.read a.live.w 0 (128 * z + j)).toNat).sum)))
    ∧ (k = .cent → v = t ∧ (first = true → b.float = true) ∧ ∀ c, c < 128 →
        let mine := rows.filter fun i => centroidOf o.got (o.va.extractLsb' 32 32).toNat i == c
        Sparse.read b.cnt 0 c
          = mine.foldl (fun z _ => satInc z) (if first = true ∧ clear = true then 0 else Sparse.read a.cnt 0 c)
        ∧ ∀ j, j < 128 →
          let was := if first = true ∧ clear = true then 0 else a.accAt c j
          b.accAt c j = if j < wordK o then mine.foldl (fun w i =>
              let e := elemVal fmt false (t.elem i j fmt.width)
              BitVec.ofNat 32 (cellStep w.toNat (e, sigFlag e)).1) was
            else was)
    ∧ (k = .drn ∨ k = .cdrn → drainFmt (x.feature 1) o = none → b = a ∧ v = t)
    ∧ (∀ y, k = .drn → drainFmt (x.feature 1) o = some y → b.cnt = a.cnt
        ∧ (∀ i j, j < 128 → b.accAt i j = if now i = true ∧ clear = true ∧ j < wordK o then 0 else a.accAt i j)
        ∧ v = if o.va.getLsbD 3 then t else t.write (rows.flatMap fun i => (List.range (wordK o)).flatMap fun j =>
            t.put i j y.width (drainElem a.float y o.fmt (a.accAt i j)).1))
    ∧ (k = .best → b.cnt = a.cnt
        ∧ (∀ i j, j < 128 → b.accAt i j = if now i = true ∧ o.va.getLsbD 5 = true then 0 else a.accAt i j)
        ∧ v = if o.va.getLsbD 3 then t else t.write (rows.flatMap fun i =>
            let l := (bestRecord a (bestSmall a o) (o.va.getLsbD 7) (o.va.getLsbD 6) (wordK o) i).flatMap fun w => bytesOfNat 4 w.toNat
            (slotAddrs ((if o.va.getLsbD 6 then 16 else 8) * i) l.length).zip l))
    ∧ (∀ y, k = .cdrn → drainFmt (x.feature 1) o = some y →
        (∀ c j, j < 128 → b.accAt c j = if now c = true ∧ clear = true then 0 else a.accAt c j)
        ∧ (∀ c, Sparse.read b.cnt 0 c = if now c = true ∧ clear = true then 0 else Sparse.read a.cnt 0 c)
        ∧ v = t.write (rows.flatMap fun c => if Sparse.read a.cnt 0 c = 0 then [] else (List.range (wordM o)).flatMap fun j =>
            t.put j c y.width (if o.va.getLsbD 5 then drainElem a.float y o.fmt (a.accAt c j)
              else meanElem a.float y o.fmt (a.accAt c j) (Sparse.read a.cnt 0 c)).1)))
  ∧ ∀ (s : State) (a : RAcc),
    let p := s.pair a
    let src := s.die a.src
    let after (t : State) (f : RAcc → Prop) : Prop := ∃ b, t.acc a.id = some b ∧ f b
    let quiet (t : State) : Prop := s.SameBytes t ∧ t.dies = s.dies ∧ t.mem = s.mem ∧ t.stations = s.stations
    let answers (t : State) (f : RAcc → Prop) : Prop := (t.pair a).commit = a.seq + 1
      ∧ after t fun c => c.st = .answered ∧ c.ansInc = a.inc ∧ f c
    let turned (t : State) (i : StackId) : Prop := t.dies = s.dies ∧ t.mem = s.mem
      ∧ (t.station i).refusals = satInc (s.station i).refusals
      ∧ answers t fun c => c.ans = .retry (s.station i).retry.toNat
    let goes (t : State) (r : RAcc) : Prop := quiet t ∧ after t (fun c => c.st = .sent ∧ c.dest = r.dest ∧ c.inc = r.inc
        ∧ c.phys = r.phys ∧ c.len = r.len ∧ c.data = r.data ∧ c.seq = (s.pair r).next ∧ c.sentAt = s.cycle
        ∧ c.heard = (s.pair r).heard)
      ∧ (t.pair r).next = (s.pair r).next + 1
      ∧ (∃ e ∈ t.agenda, e.act = .remoteAccessCommit ∧ e.arg.id = a.id ∧ s.cycle < e.due)
      ∧ (src.mem.timeout ≠ 0 → ∃ e ∈ t.agenda, e.act = .remoteTimeout ∧ e.arg.id = a.id ∧ e.arg.seq = s.cycle
          ∧ e.due = s.cycle + 1024 * src.mem.timeout.toNat)
    s.acc s.ev.id = some a →
    (∀ o v w off b, farKind a.far = some (.bank v w off) → s.accOp a = some o → isPut o.ins = false → o.bound' v = some b →
      (((s.ctx a.src a.stream.ctxOf).vtab)[Fin.ofNat 256 v.toNat]).lost = false →
      let r : RAcc := { a with dest := .die b.phys, inc := b.inc }
      (a.st = .waiting → ∃ t, exec .remoteAccessSend s = .next t ∧ goes t r)
      ∧ (a.st = .resend → a.resendAt ≤ s.cycle → ∃ t, exec .retryAfterExpiry s = .next t ∧ goes t r
        ∧ after t (fun c => c.resent = true)))
    ∧ (∀ o, farKind a.far = some .panel → a.eng = 17 → s.accOp a = some o → isPut o.ins = false →
      let look := src.entry (s.streamRoot a.src a.stream) a.far a.perm
      (a.st = .waiting → a.fixed = false → look = none → src.held a.who = false → exec .remoteAccessSend s
        = .next (s.startWalk a.src (s.streamRoot a.src a.stream) a.far a.perm a.who))
      ∧ ∀ e, look = some e → src.mem.stackLost.getLsbD (stackOf (e.phys' a.far)).val = false →
        let i := stackOf (e.phys' a.far)
        let n := min a.len (e.rest a.far)
        let r : RAcc := { a with dest := .stack i, inc := (s.station i).incarnation, phys := e.phys' a.far, len := n
                                 data := if e.rest a.far < a.len then a.data.take n else a.data }
        let splits (t : State) : Prop := e.rest a.far < a.len → a.id ≠ s.fresh → ∃ b ∈ t.panel.raccs, b.id = s.fresh
          ∧ b.far = a.far + BitVec.ofNat 64 n ∧ b.len = a.len - n ∧ b.part = a.part + n ∧ b.data = a.data.drop n ∧ b.op = a.op ∧ b.unit = a.unit
        (a.st = .waiting → a.fixed = false → ∃ t, exec .remoteAccessSend s = .next t ∧ goes t r ∧ splits t)
        ∧ (a.st = .resend → a.resendAt ≤ s.cycle → ∃ t, exec .retryAfterExpiry s = .next t ∧ goes t r ∧ splits t
          ∧ after t (fun c => c.resent = true)))
    ∧ (a.st = .sent ∨ a.st = .arrived →
      (∀ i : StackId, a.dest = .stack i → (s.station i).fitted = true → a.inc = (s.station i).incarnation →
        (a.seq ≠ p.commit → ∃ t, exec .remoteAccessCommit s = .next t ∧ quiet t ∧ after t (fun c => c.st = .arrived))
        ∧ (a.seq = p.commit → a.heard < p.refused → ∃ t, exec .remoteAccessCommit s = .next t ∧ turned t i
          ∧ (t.pair a).refused = p.refused)
        ∧ (a.seq = p.commit → p.refused ≤ a.heard → (s.station i).migrates a.phys a.len = true → ∃ t,
          exec .remoteAccessCommit s = .next t ∧ turned t i ∧ (t.pair a).refused = p.refused + 1)
        ∧ (a.seq = p.commit → p.refused ≤ a.heard → (s.station i).migrates a.phys a.len = false →
          (a.kind = .load → s.memBadAt a.phys a.len = false → ∃ t, exec .remoteAccessCommit s = .next t ∧ quiet t
            ∧ answers t fun c => c.ans = .ack ∧ c.data = s.readMem a.phys a.len)
          ∧ (a.kind = .load → s.memBadAt a.phys a.len = true → ∃ t, exec .remoteAccessCommit s = .next t ∧ quiet t
            ∧ answers t fun c => c.ans = .badEcc)
          ∧ (a.kind = .store → s.mem.wf = true → ∃ t, exec .remoteAccessCommit s = .next t ∧ t.dies = s.dies
            ∧ answers t (fun c => c.ans = .ack) ∧ ∀ y, t.mem.read y
              = if a.phys ≤ y ∧ y < a.phys + a.data.length then a.data.getD (y - a.phys) 0 else s.mem.read y)
          ∧ (a.kind = .signal → ∃ t, exec .remoteAccessCommit s = .next t ∧ quiet t ∧ answers t fun c => c.ans = .refuse)))
      ∧ (∀ q : DieId, a.dest = .die q → (s.die q).inService = true →
        (a.inc ≠ (s.die q).incarnation → exec .remoteAccessCommit s = .next (s.setDie q { s.die q with
            mem := { (s.die q).mem with stale := satInc (s.die q).mem.stale } }))
        ∧ (∀ v f, a.inc = (s.die q).incarnation → a.seq = p.commit → p.refused ≤ a.heard →
          farKind a.far = some (.fold v f) → a.kind = .signal → ∃ t, exec .remoteAccessCommit s = .next t ∧ t.mem = s.mem
          ∧ (t.die q).foldEvts = (s.die q).foldEvts ++ [(f, .add (natOfBytes a.data))]
          ∧ answers t fun c => c.ans = .ack)))
    ∧ (a.orphan = false → a.st = .answered → a.ansInc = a.inc →
      (∀ n, a.ans = .retry n → ∃ t, exec .remoteReplyArrival s = .next t ∧ t.mem = s.mem ∧ s.SameBytes t
        ∧ after t (fun c => c.st = .resend ∧ c.resendAt = s.cycle + n) ∧ a.stream ∈ (t.die a.src).heldStreams
        ∧ (t.pair a).heard = max p.heard (a.heard + 1) ∧ (t.die a.src).mem.refusals = satInc src.mem.refusals)
      ∧ ∀ o c k, a.ans = .ack → a.stream = .ctx c k → a.eng = 17 → a.kind = .store → s.op a.src 17 a.op = some o →
        o.st = .running → o.err = 0 → o.abort = false → isRcp o.ins = false →
        (∀ b ∈ s.panel.raccs, b.src = a.src → b.op = a.op → b.id = a.id) → ∃ t, exec .remoteReplyArrival s = .next t
        ∧ t.acc a.id = none ∧ t.mem = s.mem ∧ s.SameBytes t
        ∧ { due := s.cycle, act := .engineOpComplete, arg := { die := a.src, eng := 17, id := a.op } } ∈ t.agenda)
    ∧ (a.orphan = true → ∃ t, exec .remoteReplyArrival s = .next t ∧ t.acc a.id = none ∧ t.mem = s.mem ∧ s.SameBytes t
      ∧ (∀ n, a.st = .answered → a.ans = .retry n → (t.die a.src).mem.refusals = satInc src.mem.refusals)
      ∧ ((∀ n, a.ans ≠ .retry n) → t.dies = s.dies))
    ∧ (a.isOut = true → a.sentAt = s.ev.seq →
      (∀ b ∈ s.panel.raccs, a.covers b = true → b.eng = 17 ∧ ∃ c k, b.stream = .ctx c k) →
      ∀ i, a.dest = .stack i → ∃ t, exec .remoteTimeout s = .next t ∧ s.SameBytes t ∧ t.mem = s.mem
      ∧ (t.die a.src).mem.stackLost = src.mem.stackLost ||| BitVec.twoPow 128 i.val
      ∧ after t (fun c => c.orphan = true))
    ∧ (a.isOut = false ∨ a.sentAt ≠ s.ev.seq → exec .remoteTimeout s = .next s)

/-! ### Steps of translation, fills and links (R299 to R310, R325, R330, R331) -/

/-- The memory's steps: a walk brings a translation, waits for a page in motion, or leaves a fault record; the runtime has the
oldest record walked again, or ended with code 2 or 3; invalidations drop cached entries; calendar entries begin, late ones and
unreadable ones count, and a fill that has landed stamps its tiles; refresh windows open and close, and a forced refresh delays
fills; channels are dealt to the sides present; a failed flit is replayed later, a discarded one counts; migration ranges are
written. An entry that cannot be read counts as an error and is passed (log 131), and an event of a flit acts on its entry of
the agenda (log 62); a refused access that finds no memory ends at once (log 61). -/
def Obligations.MemorySteps : Prop :=
  ∀ (s : State),
    let d := s.ev.die
    let x := s.die d
    let id := s.ev.id
    let v := s.ev.val
    let quiet (t : State) : Prop := s.SameBytes t ∧ (∀ e, e ≠ d → t.die e = s.die e)
    (∀ w, (x.walks.find? fun w => w.id == id) = some w → ∀ i ∈ [Instr.translationWalkComplete, .migratingLeafRewalk],
      (∀ e, walkTable s w.root w.va w.perm = .ok e → ∃ t, exec i s = .next t ∧ quiet t ∧ e ∈ (t.die d).xlat
        ∧ (t.die d).walks = x.walks.filter (fun k => k.id != id) ∧ (t.die d).faults = x.faults)
      ∧ (walkTable s w.root w.va w.perm = .migrating → exec i s = .next { s with agenda := s.agenda ++
          [{ due := s.cycle + max 1 x.mem.retry.toNat, act := .migratingLeafRewalk, arg := { die := d, id := id } }] })
      ∧ (∀ l, walkTable s w.root w.va w.perm = .fault .noMemory l → s.resends d w.who = true → ∃ t, exec i s = .next t
        ∧ (t.die d).faults = x.faults)
      ∧ (∀ k l, walkTable s w.root w.va w.perm = .fault k l → ¬(k = .noMemory ∧ s.resends d w.who = true) → ∃ t, exec i s = .next t ∧ quiet t ∧ (t.die d).xlat = x.xlat
        ∧ (t.die d).faults = x.faults ++ [{ walk := w, kind := k, level := l }]
        ∧ (t.die d).walks = x.walks.filter (fun k => k.id != id))
      ∧ (∀ n, walkTable s w.root w.va w.perm = .badEcc → w.who = .regSpace n → ∃ t, exec i s = .next t ∧ quiet t
        ∧ (t.ctx d n).rsFault = true ∧ (t.die d).walks = x.walks.filter (fun k => k.id != id)
        ∧ (t.die d).faults = x.faults))
    ∧ (∀ f l, x.faults = f :: l →
      ((∀ c n, f.walk.who ≠ .gone c n) → (∀ k, f.walk.who ≠ .fabric k) → (∀ q n, f.walk.who ≠ .array q n) → ∃ t,
        exec .mmuResolveRetry s = .next t ∧ quiet t ∧ (t.die d).faults = l
        ∧ ∃ w, (t.die d).walks = x.walks ++ [w] ∧ w.who = f.walk.who ∧ w.va = f.walk.va ∧ w.perm = f.walk.perm)
      ∧ ∀ i code, (i = Instr.mmuResolveFail ∧ code = 2) ∨ (i = .mmuResolveRefuse ∧ code = 3) →
        (∀ n, f.walk.who = .regSpace n → exec i s
          = .next (s.setDie d ({ x with faults := l }.setCtx n { x.ctx n with rsFault := true })))
        ∧ (∀ c n, f.walk.who = .gone c n → exec i s = .next (s.setDie d { x with faults := l }))
        ∧ (∀ k, f.walk.who = .fabric k → ∃ t, exec i s = .next t ∧ quiet t ∧ (t.die d).faults = l
          ∧ (k, code) ∈ t.fabric.failed)
        ∧ (∀ g, f.walk.who = .fill g → (∃ h ∈ x.fills, h.id = g) → exec i s = .next (s.setDie d
            { x with faults := l, fills := x.fills.filter fun h => h.id != g
                     mem := { x.mem with fillErrors := satInc x.mem.fillErrors } })))
    ∧ (∃ t, exec .mmuInval s = .next t ∧ t = s.setDie d { x with xlat := (t.die d).xlat }
      ∧ ∀ e, e ∈ (t.die d).xlat ↔ e ∈ x.xlat ∧ v.getLsbD 63 = false
        ∧ e.page ≠ 65536 * (v.extractLsb' 16 32).toNat / 2 ^ levelShift e.level)
    ∧ (let c := x.calEntry id
       let late := decide (x.entryStart c < s.cycle)
       (x.entryBad id = true → ∃ t, exec .fillBegin s = .next t ∧ quiet t ∧ (t.die d).fills = x.fills
        ∧ (t.die d).mem.fillErrors = satInc x.mem.fillErrors ∧ (t.die d).nextFill = id + 1)
       ∧ (x.entryBad id = false → farKind c.src = some .panel → ∃ t f, exec .fillBegin s = .next t ∧ quiet t
        ∧ (t.die d).fills = x.fills ++ [f] ∧ f.src = c.src ∧ f.dst = c.dst ∧ f.len = c.len ∧ f.stamp = c.stamp
        ∧ f.ready = false ∧ (t.die d).nextFill = id + 1
        ∧ (t.die d).mem.slips = if late then satInc x.mem.slips else x.mem.slips)
       ∧ (x.entryBad id = false → farKind c.src ≠ some .panel → ∃ t, exec .fillBegin s = .next t ∧ quiet t
        ∧ (t.die d).fills = x.fills ∧ (t.die d).mem.fillErrors = satInc x.mem.fillErrors ∧ (t.die d).nextFill = id + 1)
       ∧ (let close := x.entryStart c + c.len
          (s.cycle < close → ∃ t, exec .refreshWindowOpen s = .next t ∧ quiet t
            ∧ (t.die d).refreshOpen = x.refreshOpen ++ [close] ∧ (t.die d).nextFill = id + 1
            ∧ (∀ i ∈ s.stacksOf d, ∀ c ∈ s.channelsFor d i, (t.station i).lastRefresh[c] = s.cycle)
            ∧ { due := close, act := .refreshWindowClose, arg := { die := d, seq := close } } ∈ t.agenda)
          ∧ (close ≤ s.cycle → ∃ t, exec .refreshWindowOpen s = .next t ∧ quiet t ∧ t.agenda = s.agenda
            ∧ (t.die d).refreshOpen = x.refreshOpen ∧ (t.die d).nextFill = id + 1 ∧ t.stations = s.stations)))
    ∧ exec .refreshWindowClose s = .next (s.setDie d { x with refreshOpen := x.refreshOpen.erase s.ev.seq })
    ∧ (∀ f, (x.fills.find? fun f => f.id == id) = some f → ∃ t, exec .fillComplete s = .next t ∧ quiet t
      ∧ (t.die d).fills = x.fills.filter (fun g => g.id != id) ∧ (t.die d).stamps = x.stamps ++ match f.stamp with
          | some g => (tilesOf f.addrs).eraseDups.map fun y => (0, y, g)
          | none => [])
    ∧ (let hit := x.fills.filter fun f => f.from' s.ev.stack
       ∃ t, exec .stationForcedRefresh s = .next t ∧ quiet t
        ∧ (t.die d).mem.slips.toNat = min (2 ^ 32 - 1) (x.mem.slips.toNat + hit.length)
        ∧ ∃ k, s.cycle < k ∧ (t.die d).fills = x.fills.map fun f =>
            if f.from' s.ev.stack then { f with next := max f.next k } else f)
    ∧ (let starts := v.getLsbD 63 && !x.mem.calEnable
       exec .fillCalWrite s = .next (s.setDie d
        { x with mem := { x.mem with calEnable := v.getLsbD 63, calCount := (v.extractLsb' 32 11).toNat
                                     calBase := v.extractLsb' 0 27 }
                 nextFill := if starts then 0 else x.nextFill, fillAfter := if starts then s.cycle else x.fillAfter }))
    ∧ (let i := s.ev.stack
       let here (k : Nat) : Bool := s.sidePresent i k
       let present := (List.range 4).filter here
       ∃ t, exec .channelRedeal s = .next t ∧ s.SameBytes t ∧ (∀ j, j ≠ i → t.station j = s.station j)
        ∧ (present = [] → (t.station i).chan = (s.station i).chan)
        ∧ (present ≠ [] → ∀ c, c < 32 →
          let side := ((t.station i).chan.extractLsb' (2 * c) 2).toNat
          let before := ((List.range c).filter fun k => !here (k / 8)).length
          side = if here (c / 8) then c / 8 else present.getD (before % present.length) 0))
    ∧ (∀ e, s.agenda[id]? = some e →
      (isFlitArrival e.act = true → (∃ t late, exec .ucieFlitCrcFail s = .next t ∧ e.due < late
          ∧ t.agenda = s.agenda.set id { e with due := late, arg := { e.arg with flag := true } } ∧ t.dies = s.dies
          ∧ t.mem = s.mem)
        ∧ ∃ t, exec .stationParityDiscard s = .next t ∧ t.agenda = s.agenda.eraseIdx id ∧ t.dies = s.dies ∧ t.mem = s.mem
          ∧ (t.station s.ev.stack).parity = satInc (s.station s.ev.stack).parity)
      ∧ (isFlitArrival e.act = false → exec .ucieFlitCrcFail s = .next s ∧ exec .stationParityDiscard s = .next s))
    ∧ (let n := s.ev.rng
       ∃ t, exec .stMigWrite s = .next t ∧ (t.station s.ev.stack).migActive[n] = v.getLsbD 63
        ∧ (t.station s.ev.stack).migSize[n] = v.extractLsb' 48 5 ∧ (t.station s.ev.stack).migPage[n] = v.extractLsb' 16 27
        ∧ (∀ m, m ≠ n → (t.station s.ev.stack).migActive[m] = (s.station s.ev.stack).migActive[m])
        ∧ (∀ j, j ≠ s.ev.stack → t.station j = s.station j) ∧ { t with stations := s.stations } = s)

/-! ### Steps of the panel engine, the domain and the command queues (R335, R338 to R350, R353, R356 to R358, R370) -/

/-- The panel's steps: a multicast that its window admits lands in its cycle, late ones at once and marked, others are dropped
and counted; barrier arrivals go to the root, which counts them and releases when the count is reached, and a channel made
invalid aborts its own; the domain loses its lock, and locks with sync_cyc in step; a die enters service and boots, or leaves
it held in reset; the lowest die that can lead does; register writes of a queue; a leader parses each packet that stands at
the head: tasks go to their dies, bytes move, a fence holds, a signal is written, a mark is kept. The root counts by the pb_ctl last
written on any die (log 52), and an election goes on while no die can lead (log 152). -/
def Obligations.PanelSteps : Prop :=
  (∀ (s : State),
    let d := s.ev.die
    let x := s.die d
    let v := s.ev.val
    let others (t : State) : Prop := ∀ e, e ≠ d → t.die e = s.die e
    (let m := s.ev.mcst
     let w := x.mwin[m.win]
     let admits := w.valid = true ∧ w.job = m.job ∧ 1024 * w.base.toNat % 2 ^ w.size = 0
     (¬ admits → exec .mcstArrival s = .next (s.setDie d { x with mwin := vset x.mwin m.win { w with drops := satInc16 w.drops } }))
     ∧ (admits → ∀ late, late = (decide (m.land < s.cycle) || !s.panel.locked) → ∃ t, exec .mcstArrival s = .next t ∧ others t
        ∧ s.SameBytes t ∧ (t.die d).mcst = x.mcst ++ [{ msg := m, next := if late then s.cycle else m.land }]
        ∧ (t.die d).mwin = (if late then vset x.mwin m.win { w with syncLost := true } else x.mwin)
        ∧ { due := if late then s.cycle else m.land, act := .mcstLanding, arg := { die := d } } ∈ t.agenda))
    ∧ (∀ m k, x.mcst = [{ msg := m, next := k }] → k ≤ s.cycle → x.wf = true → x.bankBad = [] →
      let w := x.mwin[m.win]
      let n := if m.wide then 8 else 4
      let a := 1024 * w.base.toNat + (m.off.toNat - m.off.toNat % n) % 2 ^ w.size
      a + n ≤ Config.foldBase → ∃ t, exec .mcstLanding s = .next t ∧ others t ∧ t.mem = s.mem ∧ (t.die d).mcst = []
        ∧ (∀ y, y < Config.bankBytes → (t.die d).bankByte y
          = if a ≤ y ∧ y < a + n then m.data.extractLsb' (8 * (y - a)) 8 else x.bankByte y)
        ∧ (m.stamp = false → (t.die d).stamps = x.stamps))
    ∧ (∀ o ch, s.op d 18 s.ev.id = some o → pbarChan o.ins = some ch → o.st = .running → o.steps = 0 → ∃ t k,
      exec .pbarArrivalSend s = .next t ∧ s.SameBytes t ∧ others t ∧ s.cycle < k
      ∧ (s.panel.locked = true → k ≤ s.cycle + max 1 s.panel.pbMin.toNat)
      ∧ (t.chan ch).inbox = (s.chan ch).inbox ++ [(k, d, o.id)]
      ∧ { due := k, act := .pbarRootCount, arg := { unit := ch.val } } ∈ t.agenda)
    ∧ (∀ (ch : Fin 16) k a, s.ev.unit = ch.val → (s.chan ch).inbox = [(k, a)] → k ≤ s.cycle →
      let c := s.chan ch
      (c.expect = 0 ∨ (c.count + 1).toNat < c.expect.toNat → ∃ t, exec .pbarRootCount s = .next t ∧ t.dies = s.dies
        ∧ t.agenda = s.agenda ∧ t.chan ch = { c with count := c.count + 1, inbox := [], counted := c.counted ++ [a] })
      ∧ (c.expect ≠ 0 → c.expect.toNat ≤ (c.count + 1).toNat → ∃ t, exec .pbarRootCount s = .next t ∧ t.dies = s.dies
        ∧ t.chan ch = { c with count := c.count + 1 - c.expect, releases := c.releases + 1, inbox := [], counted := [] }
        ∧ ∃ w : DieId → Nat, (∀ e, 1 ≤ w e ∧ (s.panel.locked = true → (s.die e).pbLat.toNat ≤ w e))
            ∧ ∀ e ∈ c.counted ++ [a], { due := s.cycle + w e.1, act := .pbarRelease, arg := { die := e.1, id := e.2 } } ∈ t.agenda))
    ∧ (∀ o, s.op d 18 s.ev.id = some o → o.st ≠ .ended → ∃ t, exec .pbarRelease s = .next t ∧ s.SameBytes t ∧ others t
      ∧ (∃ p, t.op d 18 s.ev.id = some p ∧ p.st = .ended ∧ p.err = 0)
      ∧ (t.die d).tokEvts = x.tokEvts ++ [(o.ctx, o.tp, .done)])
    ∧ (∀ ch : Fin 16, s.ev.unit = ch.val →
      let w : PbCtl := { valid := v.getLsbD 63, job := v.extractLsb' 48 8, expect := v.extractLsb' 0 32 }
      let c := { s.chan ch with valid := w.valid, job := w.job, expect := w.expect }
      (v.getLsbD 63 = true → ∃ t, exec .pbCtlWrite s = .next t ∧ t.chan ch = c ∧ t.agenda = s.agenda
        ∧ t.dies = (s.setDie d { x with pbCtl := vset x.pbCtl ch w }).dies)
      ∧ (v.getLsbD 63 = false → ∃ t, exec .pbCtlWrite s = .next t ∧ t.chan ch = { c with count := 0, inbox := [], counted := [] }
        ∧ t.dies = (s.setDie d { x with pbCtl := vset x.pbCtl ch w }).dies
        ∧ ∀ (e : DieId), ∀ o ∈ (s.die e).queues[qPanel], pbarChan o.ins = some ch → o.st = .running →
            { due := s.cycle, act := .engineOpError, arg := { die := e, eng := 18, id := o.id, code := 4 } } ∈ t.agenda))
    ∧ (∃ t k, exec .syncRecal s = .next t ∧ t.panel = { s.panel with locked := false } ∧ s.cycle < k
      ∧ (∃ c, { due := k, act := .syncLock, arg := { cal := c } } ∈ t.agenda)
      ∧ (∀ p : DieId, (t.die p).syncBase % 128 = p.val ∧ t.die p = { s.die p with syncBase := (t.die p).syncBase })
      ∧ t.mem = s.mem)
    ∧ ((∀ e ∈ s.agenda, e.act ≠ .syncLock) → s.cycle < s.lockFrom →
      exec .syncLock s = .next { s with agenda := s.agenda ++ [{ due := s.lockFrom, act := .syncLock, arg := s.ev }] })
    ∧ ((∀ e ∈ s.agenda, e.act ≠ .syncLock) → (∀ p : DieId, (s.die p).inService = true → (s.die p).cycBase ≤ s.cycle) →
        (∀ e ∈ s.agenda, e.act = .dieReset → e.arg.flag = true) → ∃ t, exec .syncLock s = .next t
      ∧ t.panel = { s.panel with locked := true, pbRoot := s.ev.cal.root, pbMin := s.ev.cal.pbMin }
      ∧ (∀ p : DieId, (t.die p).syncBase = s.cycle ∧ (t.die p).stat = { (s.die p).stat with farLat := (t.die p).stat.farLat }
        ∧ t.die p = { s.die p with syncBase := s.cycle, stat := (t.die p).stat })
      ∧ { t with dies := s.dies, panel := s.panel } = s)
    ∧ ((∃ e ∈ s.agenda, e.act = .syncLock) → exec .syncLock s = .next s)
    ∧ (∀ p v inc, s.ev.service = .dieIn p (some v) inc → ∃ t, exec .serviceChange s = .next t ∧ (t.die p).inService = true
      ∧ (t.die p).incarnation = inc ∧ t.panel.locked = false
      ∧ (∀ e : DieId, ((t.die e).vtab)[Fin.ofNat 256 v.toNat] = { present := true, lost := false, inc := inc, phys := p })
      ∧ { due := s.cycle + 1, act := .dieReset, arg := { die := p, arr := true } } ∈ t.agenda)
    ∧ (∀ p, s.ev.service = .dieOut p → ∃ t, exec .serviceChange s = .next t ∧ (t.die p).inService = false
      ∧ (t.die p).seq.inReset = true ∧ (t.die p).boot.stage = 0 ∧ (t.die p).bank = (s.die p).bank ∧ t.panel.locked = false
      ∧ (∀ n : CtxId, (t.ctx p n).st = .free) ∧ (∀ e ∈ t.agenda, e.inside p = false))
    ∧ (∀ i, s.ev.service = .stackIn i ∨ s.ev.service = .stackOut i → ∃ t, exec .serviceChange s = .next t
      ∧ ((t.station i).fitted = true ↔ s.ev.service = .stackIn i) ∧ t.panel.locked = false)
    ∧ (∀ p on, s.ev.service = .draining p on → ∃ t, exec .serviceChange s = .next t ∧ t.dies
      = (s.setDie p { s.die p with draining := on }).dies ∧ t.mem = s.mem))
  ∧ ∀ (s : State),
    let q := s.ev.que
    let c := s.queue q
    let v := s.ev.val
    let quiet (t : State) : Prop := s.SameBytes t ∧ t.dies = s.dies ∧ ∀ p, p ≠ q → t.queue p = s.queue p
    let words (w : List Word) (type n : Nat) : Prop := s.parse q = (s.modQueue q fun c => { c with stage := .idle }, some w)
      ∧ ((w.headD 0).extractLsb' 0 8).toNat = type ∧ w.length = n
    let headPast (n : Nat) : BitVec 32 := BitVec.ofNat 32 ((c.at_ + 8 * n) % c.bytes)
    let serial (w : List Word) : BitVec 32 := (w.headD 0).extractLsb' 32 32
    let rec_ (w : List Word) (k : QWork) : QRec := { id := s.fresh, serial := serial w, ringOff := BitVec.ofNat 32 c.at_, work := k }
    exec .qTailWrite s = .next (s.modQueue q fun c => { c with tail := v.extractLsb' 0 32 })
    ∧ (let r := s.modQueue q fun c => { c with rhead := v.extractLsb' 32 32 }
       (c.reports = [] → exec .qRheadWrite s = .next r)
       ∧ ∀ e u, c.reports = [[e]] → reportFits (r.queue q) 1 = true → r.putEntry q e = (u, true) →
          entryKind e ∉ [1, 2, 5] → exec .qRheadWrite s = .next (u.modQueue q fun c => { c with reports := [] }))
    ∧ ((v.extractLsb' 0 3 = 1 ∧ s.panel.featLocked = false → exec .qCtlWrite s = .next s)
      ∧ (v.extractLsb' 0 3 ≠ 1 ∨ s.panel.featLocked = true → ∃ t, exec .qCtlWrite s = .next t ∧ quiet t
        ∧ t.queue q = { c with leader := if c.elect then c.leader else Fin.ofNat 128 (v.extractLsb' 48 7).toNat
                               elect := v.getLsbD 8, stop := v.getLsbD 7
                               state := (t.queue q).state }
        ∧ ((v.extractLsb' 0 3).toNat ≤ 4 → ((t.queue q).state).val = (v.extractLsb' 0 3).toNat)
        ∧ (v.getLsbD 8 = true → c.elect = false → ∃ e ∈ t.agenda, e.act = .leaderElection ∧ e.arg.que = q
          ∧ (e ∈ s.agenda ∨ s.cycle < e.due))))
    ∧ ((c.elect = false → exec .leaderElection s = .next s)
      ∧ (c.elect = true → (∀ p, s.canLead p = false) → ∃ t, exec .leaderElection s = .next t ∧ quiet t ∧ t.panel = s.panel
        ∧ ∃ e ∈ t.agenda, e.act = .leaderElection ∧ e.arg.que = q ∧ s.cycle < e.due)
      ∧ ∀ p, c.elect = true → s.canLead p = true → (∀ r, r < p → s.canLead r = false) → ∃ t, exec .leaderElection s = .next t
        ∧ quiet t ∧ (t.queue q).leader = p ∧ (t.queue q).term = c.term + 1 ∧ (t.queue q).head = c.head
        ∧ (t.queue q).recs.length = c.recs.length ∧ (c.stage = .parsing → (t.queue q).stage = .idle))
    ∧ (∀ w, words w 1 16 →
      let f := ((w.getD 2 0).extractLsb' 0 8).toNat
      let n := ((w.getD 2 0).extractLsb' 8 9).toNat
      let entry (k : Nat) : VEntry := (s.die c.leader).vtab[Fin.ofNat 256 (f + k)]
      (c.stop = true → ∃ t, exec .launchPacket s = .next t ∧ quiet t ∧ t.queue q = { c with stage := .idle, state := 3 })
      ∧ (c.stop = false → c.elect = false → (∀ k, k < n → (entry k).present = true) → ∃ t, exec .launchPacket s = .next t
        ∧ s.SameBytes t ∧ t.queue q = { c with stage := .idle, head := headPast 16, recs := c.recs ++ [rec_ w (.launch n false)] }
        ∧ ∀ k, k < n → ∃ l ∈ (t.die (entry k).phys).pendLaunch, l.queue = q ∧ l.serial = serial w ∧ l.n = k ∧ l.words = w
          ∧ l.term = c.term ∧ l.pkt = s.fresh ∧ s.cycle < l.ready)
      ∧ (∀ k, c.stop = false → k < n → (entry k).present = false → ∃ t, exec .launchPacket s = .next t
        ∧ (t.queue q).head = headPast 16 ∧ (t.queue q).recs = c.recs
        ∧ ∀ e : DieId, (t.die e).pendLaunch = (s.die e).pendLaunch))
    ∧ (s.ev.flag = false → ∀ w, words w 2 4 → (w.getD 3 0).extractLsb' 0 48 ≠ 0 → ∃ t, exec .copyPacket s = .next t ∧ quiet t
      ∧ t.queue q = { c with stage := .idle, head := headPast 4, recs := c.recs ++
          [rec_ w (.copy (w.getD 1 0) (w.getD 2 0) ((w.getD 3 0).extractLsb' 0 48).toNat 0 [] false)] })
    ∧ (s.ev.flag = true → ∀ r src dst len done got, c.copyRec = some r → r.work = .copy src dst len done got false →
      s.copyMoves q r = false → ∃ t a, exec .copyPacket s = .next t ∧ quiet t ∧ t.panel.raccs = s.panel.raccs ++ [a]
      ∧ a.src = c.leader ∧ a.stream = .queue q ∧ a.op = r.id ∧ a.st = .waiting ∧ a.len = min 256 (len - done)
      ∧ (got = [] → a.kind = .load ∧ a.far = src + BitVec.ofNat 64 done)
      ∧ (got ≠ [] → a.kind = .store ∧ a.far = dst + BitVec.ofNat 64 done ∧ a.data = got))
    ∧ (∀ w n, words w 3 (1 + 2 * n) → n = ((w.headD 0).extractLsb' 16 4).toNat → ∃ t, exec .fencePacket s = .next t
      ∧ s.SameBytes t ∧ (t.queue q).head = headPast (1 + 2 * n) ∧ (t.queue q).recs = c.recs
      ∧ ((t.queue q).stage = .idle ∨ ((t.queue q).stage = .fencing ∧ ∃ e ∈ t.agenda, e.act = .fenceReread ∧ e.arg.que = q
          ∧ s.cycle < e.due ∧ e.due ≤ s.cycle + 4096)))
    ∧ (∀ l, c.stage = .fencing → s.queueWords q (c.fence.entries.map fun e => BitVec.ofNat 64 (bits e.1 3 45 * 8)) = (s, .got l) →
      let holds := (∀ p ∈ c.fence.entries.zip l, fenceHolds (bits p.1.1 61 3) p.2 p.1.2 = true)
        ∧ (c.fence.drain = true → c.recs = [])
      (holds → exec .fenceReread s = .next (s.modQueue q fun c => { c with stage := .idle }))
      ∧ (¬ holds → ∃ t, exec .fenceReread s = .next t ∧ quiet t ∧ t.queue q = c
        ∧ ∃ e ∈ t.agenda, e.act = .fenceReread ∧ e.arg.que = q ∧ s.cycle < e.due ∧ e.due ≤ s.cycle + 4096))
    ∧ (s.ev.flag = false → ∀ w, words w 4 3 → ∃ t, exec .signalPacket s = .next t ∧ quiet t ∧ t.queue q
      = { c with head := headPast 3, stage := if (w.headD 0).getLsbD 17 then .signalling else .idle
                 recs := c.recs ++ [rec_ w (.signal (w.getD 1 0) (w.getD 2 0) ((w.headD 0).getLsbD 16))] })
    ∧ (s.ev.flag = true → ∀ a value add pa, c.firstWork = some (.signal a value add) → s.mem.wf = true →
      s.queueTry q 1 ((a.extractLsb' 0 48).setWidth 64) 8 .write = (s, .done [(pa, 8)]) →
      (add = true → s.memBadAt pa 8 = false) → ∃ t, exec .signalPacket s = .next t ∧ t.dies = s.dies
      ∧ (t.queue q).recs = c.recs.drop 1 ∧ (∀ y, y < pa ∨ pa + 8 ≤ y → t.mem.read y = s.mem.read y)
      ∧ t.readMem64 pa = if add then s.readMem64 pa + value else value)
    ∧ ∀ w, words w 5 2 → exec .markPacket s = .next (s.modQueue q fun c => { c with
        stage := .idle, head := headPast 2, markSerial := serial w, markOff := BitVec.ofNat 32 c.at_
        markPath := some (((w.getD 1 0).extractLsb' 0 48).setWidth 64) })

/-! ### Steps of the dies' systems (R326, R361 to R375, R394, R397 to R400, R410, R411) -/

/-- The systems' steps: a reset die starts in its boot ROM at its reset values, obtains its images, verifies and loads each or
fails with its cause, and runs (log 64: what its reset keeps); minimum versions rise; the primary locks the features once, attests once every die has booted, and does the other services of
its port, installs keys or refuses them (under the delivered key, log 67); heat takes a die out, power stalls it; stewards reach banks (zeros
past bank space, log 136), panel memory (code 6 at an error, log 168) and registers; a dissolved job's keys
and slots go; a panel reset resets all but what log 103 names, and rejoins later; an announced incarnation ends what stood open toward its panel; holds
begin and end. -/
def Obligations.SystemSteps : Prop :=
  ∀ (s : State),
    let d := s.ev.die
    let x := s.die d
    let b := x.boot
    let v := s.ev.val
    let others (t : State) : Prop := ∀ e, e ≠ d → t.die e = s.die e
    let primary : Prop := s.primary = some d
    let romGoesOn (t : State) : Prop := ∃ r ∈ t.agenda, r.act = .dieReset ∧ r.arg.die = d ∧ r.arg.flag = true ∧ s.cycle < r.due
    let fails (c : BitVec 8) : Prop := ∃ t, exec .dieReset s = .next t ∧ others t
      ∧ t.die d = { x with boot := { b with stage := 15, cause := c } } ∧ t.panel.notices = s.panel.notices ++ [.bootFailed d c]
    (x.inService = false → exec .dieReset s = .next s)
    ∧ (x.inService = true → s.ev.flag = false → ∃ t, exec .dieReset s = .next t ∧ (t.die d).boot.stage = 1
      ∧ (t.die d).seq.inReset = true ∧ (t.die d).bank = x.bank ∧ (∀ n : CtxId, (t.ctx d n).st = .free)
      ∧ (t.die d).incarnation = (if s.ev.arr then x.incarnation else x.incarnation + 1)
      ∧ (t.die d).boot.minFw = b.minFw ∧ (t.die d).boot.minUcode = b.minUcode ∧ (t.die d).boot.uid = b.uid
      ∧ (b.blocksUsed < 1024 → (t.die d).boot.blocksUsed = b.blocksUsed + 1 ∧ (t.die d).boot.leaf = 1024 * b.blocksUsed)
      ∧ (∀ e, e ≠ d → t.die e = { s.die e with syncBase := (t.die e).syncBase }) ∧ t.mem = s.mem ∧ romGoesOn t)
    ∧ (x.inService = true → s.ev.flag = true →
      (b.stage = 1 → b.images = none →
        (∀ l, s.imageSet d = .bytes l → ∃ t, exec .dieReset s = .next t ∧ others t ∧ romGoesOn t
          ∧ t.die d = { x with boot := { b with images := some l } })
        ∧ (∀ c, s.imageSet d = .fails c → fails c)
        ∧ (s.imageSet d = .waits → ∃ t, exec .dieReset s = .next t ∧ romGoesOn t ∧ t.dies = s.dies ∧ t.panel = s.panel))
      ∧ (b.stage = 3 → b.images.isSome = true → ∃ t, exec .dieReset s = .next t ∧ others t ∧ t.mem = s.mem
        ∧ t.die d = { x with boot := { b with stage := 4 }, seq := { x.seq with inReset := false } })
      ∧ ∀ l k, b.stage.toNat = k + 1 → k < 2 → b.images = some l →
        let image := verifyImage b.pubKeyHash k (if k = 0 then b.minFw else b.minUcode).toNat (if k = 0 then l else l.drop (imageLen l))
        (∀ c, image = .error c → fails c)
        ∧ (∀ m, image = .ok m → ∃ t, exec .dieReset s = .next t ∧ (t.die d).boot.stage = b.stage + 1 ∧ others t ∧ romGoesOn t
          ∧ (k = 0 → (t.die d).boot.fwSvn = m.svn ∧ (t.die d).boot.fwDigest = m.digest ∧ (t.die d).boot.firmware = m.payload)
          ∧ (k = 1 → (t.die d).boot.ucodeSvn = m.svn ∧ (t.die d).boot.ucodeDigest = m.digest ∧ (t.die d).boot.microcode = m.payload)))
    ∧ (let n := v.extractLsb' 0 6
       let uc := v.getLsbD 63
       let rises : Prop := b.stage = 4 ∧ (if uc then b.minUcode < n ∧ n ≤ b.ucodeSvn else b.minFw < n ∧ n ≤ b.fwSvn)
       (rises → exec .svnCommit s = .next (s.setDie d
          { x with boot := if uc then { b with minUcode := n } else { b with minFw := n } }))
       ∧ (¬ rises → exec .svnCommit s = .next s))
    ∧ (let open_ : Prop := primary ∧ s.panel.featLocked = false ∧ v.getLsbD 0 = true
       (open_ → b.featAcc.getLsbD 0 = false → exec .featureLock s = .next (s.setDie d { x with boot := { b with featStatus := 2 } }))
       ∧ (open_ → b.featAcc.getLsbD 0 = true → ∃ t, exec .featureLock s = .next t
          ∧ t.panel = { s.panel with featLocked := true, featSet := b.featAcc } ∧ t.mem = s.mem ∧ t.agenda = s.agenda
          ∧ ∀ e : DieId, t.die e = { s.die e with boot :=
              { (s.die e).boot with featAcc := b.featAcc, featStatus := 1, featLock := true } })
       ∧ (¬ open_ → exec .featureLock s = .next s))
    ∧ ((s.primaryRuns = none → exec .attestationRequest s = .next s)
       ∧ (∀ p, s.primaryRuns = some p → s.ev.mgmt = .attest → (∀ e, s.booting e = false) → (s.storeRead p).isSome = true →
          (s.die p).boot.leaf < 1024 * 1024 → (s.die p).boot.leaf % 1024 < 1022 → ∃ t r, exec .attestationRequest s = .next t
          ∧ t.panel.notices = s.panel.notices ++ [.attestation r] ∧ t.mem = s.mem ∧ t.agenda = s.agenda
          ∧ r.take 32 = bytesOfNat 32 s.ev.nonce.toNat ∧ (t.die p).boot.leaf = (s.die p).boot.leaf + 2)
       ∧ (∀ p, s.primaryRuns = some p → s.ev.mgmt = .attest → (∃ e, s.booting e = true) → ∃ t r,
          exec .attestationRequest s = .next t ∧ t.agenda = s.agenda ++ [r] ∧ r.act = .attestationRequest
          ∧ r.arg.nonce = s.ev.nonce ∧ s.cycle < r.due ∧ t.dies = s.dies ∧ t.panel = s.panel)
       ∧ ∀ p, s.primaryRuns = some p →
         (∀ off l, s.ev.mgmt = .image off l → ∃ t, exec .attestationRequest s = .next t ∧ t.dies = s.dies ∧ t.mem = s.mem
           ∧ (∀ k, k < l.length → t.panel.flash[off + k]? = l[k]?)
           ∧ ∀ k, k < off ∨ off + l.length ≤ k → k < s.panel.flash.length → t.panel.flash[k]? = s.panel.flash[k]?)
         ∧ (∀ on, s.ev.mgmt = .rsFec on → exec .attestationRequest s = .next (s.modPanel fun q => { q with rsFec := on }))
         ∧ (∀ e, s.ev.mgmt = .telemetry e → exec .attestationRequest s = .next (s.notify (.telemetry e
             ([0x00, 0x08, 0x10, 0x18, 0x20].map (readTelemetry (s.die e).boot))))))
    ∧ (¬ 1760 < (v.extractLsb' 0 16).toInt → exec .thermalShutdown s
      = .next (s.setDie d { x with boot := { b with temp := v.extractLsb' 0 16 } }))
    ∧ (1760 < (v.extractLsb' 0 16).toInt → ∃ t, exec .thermalShutdown s = .next t ∧ (t.die d).inService = false ∧ (t.die d).seq.inReset = true
      ∧ (t.die d).boot.temp = v.extractLsb' 0 16 ∧ t.panel.notices = s.panel.notices ++ [.thermal d] ∧ t.panel.locked = false
      ∧ (∀ r ∈ t.agenda, r.inside d = false) ∧ t.mem = s.mem)
    ∧ (¬ 1760 < (v.extractLsb' 32 16).toInt → exec .powerThrottle s = .next (s.setDie d
      { x with seq := { x.seq with stall := s.ev.flag }
               boot := { b with powerMw := v.extractLsb' 0 32, temp := v.extractLsb' 32 16 } }))
    ∧ (1760 < (v.extractLsb' 32 16).toInt → ∃ t, exec .powerThrottle s = .next t ∧ (t.die d).inService = false
      ∧ t.panel.notices = s.panel.notices ++ [.thermal d])
    ∧ (x.coreRuns s.ev.acc.core = true → let a := s.ev.acc
      0 < a.len → (a.addr + a.len ≤ Config.bankBytes → ∃ t r, exec .stewardBankAccess s = .next t ∧ s.SameBytes t ∧ others t
          ∧ (t.die d).stewards = x.stewards ++ [r] ∧ r.acc = a ∧ r.got = []
          ∧ ∀ w, w ∈ r.left ↔ a.addr / 8 ≤ w ∧ w ≤ (a.addr + a.len - 1) / 8)
        ∧ (Config.bankBytes < a.addr + a.len → a.write = false → exec .stewardBankAccess s
          = .next (s.setDie d (x.stewardEnds a.core 0 (List.replicate a.len 0))))
        ∧ ((∀ k, k < a.len → s.physOk (a.addr + k) = true) → (a.write = false → exec .stewardPanelAccess s
            = .next (s.setDie d (if s.memBadAt a.addr a.len then x.stewardEnds a.core 6 []
                else x.stewardEnds a.core 0 (s.readMem a.addr a.len))))
          ∧ (a.write = true → a.data.length = a.len → s.mem.wf = true → ∃ t, exec .stewardPanelAccess s = .next t
            ∧ t.dies = s.dies ∧ ∀ y, t.mem.read y
              = if a.addr ≤ y ∧ y < a.addr + a.len then a.data.getD (y - a.addr) 0 else s.mem.read y)))
    ∧ (let k := s.ev.key
       (s.ev.flag = true → exec .keyDelivery s = .next (s.modFabric fun f => { f with fmKey := s.ev.bytes }))
       ∧ (s.ev.flag = false → s.primaryRuns = none → exec .keyDelivery s = .next s)
       ∧ ∀ p, s.ev.flag = false → s.primaryRuns = some p →
         let full := ∃ i : PortId, (s.port i).key k.job = none ∧ keyEntries ≤ (s.port i).keys.length
         (s.openKey p k = none → exec .keyDelivery s = .next s)
         ∧ (∀ key, s.openKey p k = some key → full → exec .keyDelivery s = .next (s.notify (.keyRefused k.job)))
         ∧ (∀ key, s.openKey p k = some key → ¬ full → (∀ i : PortId, (s.port i).waiting = []) → ∃ t, exec .keyDelivery s = .next t
           ∧ t.dies = s.dies ∧ t.mem = s.mem ∧ (∀ i : PortId, t.port i = (s.port i).install k.job k.epoch key)
           ∧ ∀ i : PortId, (∀ e, (s.port i).key k.job = some e → e.epoch ≠ k.epoch) →
             ((t.port i).key k.job).map (fun e => (e.cur, e.epoch)) = some (key, k.epoch)))
    ∧ (∃ t, exec .partitionDissolve s = .next t ∧ t.panel.notices = s.panel.notices ++ [.dissolved s.ev.job]
      ∧ t.dies = s.dies ∧ t.mem = s.mem ∧ ∀ i : PortId, (t.port i).keys = (s.port i).keys.filter (fun e => e.job != s.ev.job)
        ∧ (t.port i).waiting = (s.port i).waiting.filter fun w => !(w.slot.kind == .data && w.slot.job == s.ev.job))
    ∧ (∃ t, exec .panelReset s = .next t ∧ t.fabric = { inc := s.fabric.inc + 1 } ∧ t.panel.featLocked = false
      ∧ t.panel.raccs = [] ∧ (∀ q : QueueId, t.queue q = {}) ∧ t.iss = {} ∧ t.mem = s.mem ∧ t.dies = s.dies
      ∧ (∀ i : StackId, (t.station i).incarnation = (s.station i).incarnation + 1)
      ∧ ∀ r, r ∈ t.agenda ↔ (∃ e : DieId, (s.die e).inService = true ∧ r = { due := s.cycle, act := .dieReset, arg := { die := e } })
          ∨ r = { due := s.cycle + 128000000, act := .rejoinDelayExpiry, arg := {} })
    ∧ exec .rejoinDelayExpiry s = .next (s.modFabric fun f => { f with joined := true })
    ∧ (let p := s.ev.panel
       (p = s.fabric.panel → exec .incarnationAnnouncement s = .next s)
       ∧ (p ≠ s.fabric.panel → ∃ t, exec .incarnationAnnouncement s = .next t ∧ t.fabric.incOf p = s.ev.inc
         ∧ (s.fabric.incOf p ≠ s.ev.inc → (∀ o ∈ t.fabric.out, o.slot.dst ≠ p) ∧ (∀ r ∈ t.fabric.inn, r.src ≠ p)
           ∧ t.fabric.windowOf p = (Config.grantWindow p).toNat)))
    ∧ (s.ev.flag = false →
      let off := s.ev.off.toNat
      let writes (blk : RegBlock) (k : Nat) (f : State → Prop) : Prop := s.ev.block = blk → off = k →
        ∃ t, exec .registerWrite s = .next t ∧ f t ∧ t.mem = s.mem
      (off % 8 ≠ 0 → exec .registerWrite s = .next s)
      ∧ ∀ (e : DieId) (i : StackId), writes (.cluster e) 0 (fun t => t.regRead (.cluster e) 0 = v)
        ∧ writes (.seq e) 0 (fun t => (t.die e).seq.ibFreeze = v.getLsbD 31
            ∧ (t.die e).seq.quantum = max 256 (min 65536 (v.extractLsb' 0 17).toNat))
        ∧ writes (.remote e) 0xC8 (fun t => (t.die e).mem.timeout = v.extractLsb' 0 32)
        ∧ writes (.panel e) 0 (fun t => (t.die e).vtab[(0 : Fin 256)] = ventryOf v)
        ∧ writes (.telemetry e) 0x10 (fun t => (t.die e).boot.limitMw.toNat = min 330000 (v.extractLsb' 0 32).toNat)
        ∧ writes (.station i) 0x40 (fun t => (t.station i).retry = v.extractLsb' 0 16)
        ∧ writes .queues 0x10 (fun t => (t.queue 0).tail = v.extractLsb' 0 32)
        ∧ writes .ring 0x90 (fun t => t.fabric.window = v.extractLsb' 0 16)
        ∧ ((s.die e).boot.featLock = false → writes (.boot e) 0x30 (fun t =>
            (t.die e).boot.featAcc.setWidth 64 = v &&& 0xFF)))
    ∧ (s.ev.flag = true → x.coreRuns s.ev.acc.core = true → let a := s.ev.acc
      0 < a.len → ∀ r o, s.stewardPlace d a.addr a.len = .reg r o →
        (a.write = true → exec .registerWrite s = .next (s.regWrite r o (wordOfBytes ((a.data ++ List.replicate 8 0).take 8)) {}))
        ∧ (a.write = false → exec .registerWrite s = .next (s.setDie d (x.stewardEnds a.core 0 (bytesOfWord (s.regRead r o))))))
    ∧ (let f := s.fabric
       let epoch := v.extractLsb' 0 16
       (f.hold = true → exec .fabHoldSet s = .next (s.modFabric fun f => { f with epoch := epoch }))
       ∧ (f.hold = false → (∀ i : PortId, ∀ w ∈ (s.port i).waiting, w.id < s.fresh) → ∃ t, exec .fabHoldSet s = .next t
         ∧ t.dies = s.dies ∧ t.mem = s.mem ∧ t.fabric.hold = true ∧ t.fabric.epoch = epoch ∧ t.fabric.holdAt = s.cycle
         ∧ ∀ i : PortId, (s.port i).enable = true → (s.port i).up = true → (t.port i).markerSent = true
           ∨ ∃ w ∈ (t.port i).waiting, w.slot.kind = .drain ∧ w.slot.op = epoch.setWidth 64)
       ∧ (f.hold = false → exec .fabHoldClear s = .next (s.modFabric fun f => { f with epoch := epoch }))
       ∧ (f.hold = true → ∃ t, exec .fabHoldClear s = .next t ∧ t.fabric.hold = false ∧ t.fabric.epoch = epoch
         ∧ t.fabric.holdTotal = f.holdTotal + (s.cycle - f.holdAt) ∧ (∀ i : PortId, (t.port i).marker = none)
         ∧ ∀ o ∈ t.fabric.out, f.reaches o.slot.dst = true))

/-! ### Steps of the fabric (R383 to R396, R404, R410 to R422) -/

/-- The fabric's steps: a port takes a flit that is sound and next, and sends again or idly when due; its mode is requested and,
after eight requests (log 79), given up; slots are sent with the next number, forwarded with a hop less, checked, committed in order, acknowledged, refused,
resent and lost; windows and drain markers come; slots that wait too long expire; queue pairs are loaded, reset, put into
error, rung, and their entries become work. A qp_cmd of error on a pair in reset has its effect too (log 139). -/
def Obligations.FabricSteps : Prop :=
  ∀ (s : State),
    let p := s.ev.port
    let q := s.port p
    let b := s.fabric
    let quiet (t : State) : Prop := t.dies = s.dies ∧ t.mem = s.mem ∧ t.panel = s.panel
    let live : Prop := q.enable = true ∧ q.up = true
    let later (t : State) (n : Nat) (a : Instr) (arg : EvArg) : Prop := { due := s.cycle + n, act := a, arg := arg } ∈ t.agenda
    let slot := s.ev.slot
    let counts (i : Instr) (sound : FabSlot → Bool) : Prop :=
      (sound slot = false → exec i s = .next (s.modFabric fun b => { b with bad := satInc b.bad }))
      ∧ (sound slot = true → b.current slot = false → exec i s = .next (s.modFabric fun b => { b with stale := satInc b.stale }))
    ((¬ live ∨ (q.gather s.ev.wire).bind flitOfWire = none → exec .flitReceive s = .next s)
      ∧ ∀ f, live → (q.gather s.ev.wire).bind flitOfWire = some f →
        (f.idle = true → exec .flitReceive s = .next ((s.takeLack p f.lack).takeMode p f))
        ∧ (f.idle = false → f.lseq ≠ q.expectSeq → exec .flitReceive s = .next s)
        ∧ (f.idle = false → f.lseq = q.expectSeq → ∃ t, exec .flitReceive s = .next t ∧ quiet t
          ∧ (t.port p).expectSeq = q.expectSeq + 1 ∧ (t.port p).lack = f.lseq
          ∧ (t.port p).partFlits = if f.idx = 3 then [] else (if f.idx = 0 then [] else q.partFlits) ++ [f]))
    ∧ (let r := { q with pos := 0, ackTwice := false, replays := if q.replays = BitVec.allOnes 24 then q.replays else q.replays + 1 }
       (q.replay = [] ∨ (s.ev.flag = false ∧ s.ev.seq ≠ q.ackAt) → exec .linkReplay s = .next s)
       ∧ (q.replay ≠ [] → s.ev.flag = true → ∃ t, exec .linkReplay s = .next t ∧ quiet t ∧ t.port p = r ∧ p ∈ t.fabric.busy)
       ∧ (q.replay ≠ [] → s.ev.flag = false → s.ev.seq = q.ackAt → ∃ t, exec .linkReplay s = .next t ∧ quiet t
         ∧ t.port p = { r with ackAt := s.cycle } ∧ p ∈ t.fabric.busy ∧ later t 4096 .linkReplay { port := p, seq := s.cycle }))
    ∧ ((¬ live → exec .lackIdleFlit s = .next s)
      ∧ (live → s.cycle < q.lastSent + 512 → s.ev.flag = true → exec .lackIdleFlit s = .next { s with agenda := s.agenda ++
          [{ due := q.lastSent + 512, act := .lackIdleFlit, arg := { port := p, flag := true } }] })
      ∧ (live → q.lastSent + 512 ≤ s.cycle ∨ s.ev.flag = false → ∃ t, exec .lackIdleFlit s = .next t ∧ quiet t
        ∧ t.port p = { q with idleDue := true } ∧ p ∈ t.fabric.busy ∧ later t 512 .lackIdleFlit { port := p, flag := true }))
    ∧ (let m := s.ev.flag
       (s.feature 6 = false → exec .lnkModeWrite s = .next s)
       ∧ (s.feature 6 = true → q.mode = m → exec .lnkModeWrite s = .next (s.modPort p fun q => { q with modeReq := m, modeWait := none }))
       ∧ (s.feature 6 = true → q.mode ≠ m → ∃ t, exec .lnkModeWrite s = .next t ∧ quiet t
         ∧ t.port p = { q with modeReq := m, modeWait := some (m, s.fresh, 8), sendCtl := 1, ctlMode := m }
         ∧ later t 4096 .modeRequestTimeout { port := p, id := s.fresh }))
    ∧ (∀ m n, q.modeWait = some (m, s.ev.id, n) →
      (n = 0 → exec .modeRequestTimeout s = .next (s.modPort p fun q => { q with modeWait := none, lcFail := true }))
      ∧ (n ≠ 0 → ∃ t, exec .modeRequestTimeout s = .next t ∧ quiet t
        ∧ t.port p = { q with modeWait := some (m, s.ev.id, n - 1), sendCtl := 1, ctlMode := m }
        ∧ later t 4096 .modeRequestTimeout { port := p, id := s.ev.id }))
    ∧ (∀ w, (b.works.find? fun w => w.qp == s.ev.qp && s.maySend w) = some w →
      let k := s.qp s.ev.qp
      let stream := streamOf s.ev.qp
      let key := pairKey stream k.peer
      let seq := Sparse.read b.nextSeq 0 key
      let goes : Prop := b.reaches k.peer = true ∧ b.lost.contains (stream, k.peer) = false
      (¬ goes → ∃ t, exec .slotSend s = .next t ∧ ∀ o ∈ t.fabric.works, o.id ≠ w.id)
      ∧ (∀ runs, goes → s.localBytes k.root w.next.1 w.next.2 .read = .ok runs → s.runBad runs = false →
        Sparse.wf b.nextSeq 0 = true → ∃ t o, exec .slotSend s = .next t ∧ quiet t ∧ t.fabric.out = b.out ++ [o]
        ∧ Sparse.read t.fabric.nextSeq 0 key = seq + 1 ∧ o.work = w.id ∧ o.resends = 0 ∧ o.slot.kind = .data
        ∧ o.slot.stream = stream ∧ o.slot.seq = seq ∧ o.slot.dst = k.peer ∧ o.slot.src = b.panel ∧ o.slot.job = k.job
        ∧ o.slot.op = w.opWord k ∧ o.slot.crc = slotCrc o.slot
        ∧ o.slot.payload = ((if w.op = 1 then bytesOfNat 4 w.len else s.runBytes runs) ++ List.replicate 192 0).take 192))
    ∧ ((slot.hops.toNat ≤ 1 → exec .slotForward s = .next (s.modFabric fun b => { b with expired := satInc b.expired }))
      ∧ (1 < slot.hops.toNat → ∀ r dir peer, b.nextHop slot.dst (some (b.portRing q, slot.dir)) = some (r, dir, peer) →
        let on : FabSlot := { slot with hops := slot.hops - 1, dir := dir }
        (∀ i, s.pickPort r dir peer = some i → exec .slotForward s = .next (s.queueAt i on))
        ∧ (s.pickPort r dir peer = none → ∃ t w, exec .slotForward s = .next t ∧ quiet t ∧ t.fabric.stuck = b.stuck ++ [w]
          ∧ w.slot = on ∧ later t (portWait + 1) .slotPortWaitExpiry { id := w.id, flag := true })))
    ∧ (s.ev.flag = false → counts .slotArrival dataSound
      ∧ (dataSound slot = true → b.current slot = true →
        let a := b.inPair slot.src slot.stream
        (slot.kind ≠ .data → exec .slotArrival s = .next s)
        ∧ (slot.kind = .data → s.feature 5 = false → exec .slotArrival s = .next (s.ackSlot slot slot.seq 3))
        ∧ (slot.kind = .data → s.feature 5 = true → (b.granted.any fun e => e.1 == slot.src) = true →
          (seqLe a.next slot.seq = false → exec .slotArrival s
            = .next ((s.modFabric fun b => { b with resent := satInc b.resent }).ackSlot slot (a.next - 1) a.status))
          ∧ (∀ runs, a.next = slot.seq → a.buf = [] → b.due = [] → slot.op.extractLsb' 60 4 = 0 →
            let n : Fin 8192 := Fin.ofNat 8192 (slot.op.extractLsb' 47 13).toNat
            let l := slotData slot
            (s.qp n).admits slot = true → slotOff slot + l.length ≤ 2 ^ (s.qp n).regSize →
            s.localBytes (s.qp n).root ((s.qp n).regBase + BitVec.ofNat 64 (slotOff slot)) l.length .write = .ok runs →
            ∃ t, exec .slotArrival s = .next t ∧ t.mem = (s.runWrite runs l).mem ∧ t.dies = s.dies
            ∧ (t.fabric.inPair slot.src slot.stream).next = slot.seq + 1
            ∧ (t.fabric.inPair slot.src slot.stream).status = 0 ∧ (t.fabric.inPair slot.src slot.stream).buf = []))))
    ∧ (counts .slotAckArrival slotSound ∧ (slotSound slot = true → b.current slot = true → ∃ t, exec .slotAckArrival s = .next t
      ∧ t.fabric.out = b.out.filter fun o =>
          !(o.slot.stream == slot.stream && o.slot.dst == slot.src && seqLe o.slot.seq slot.seq)))
    ∧ (counts .refusalNoticeArrival slotSound ∧ ∀ o, slotSound slot = true → b.current slot = true →
      b.outSlot slot.stream slot.src slot.seq = some o → ∃ t, exec .refusalNoticeArrival s = .next t ∧ quiet t
      ∧ t.fabric.notices = satInc b.notices ∧ { stream := slot.stream, panel := slot.src, seq := slot.seq } ∈ t.fabric.heldFab
      ∧ later t (max 1 (slot.op.extractLsb' 0 32).toNat) .fabricRetryAfterExpiry
          { stream := slot.stream, panel := slot.src, slotSeq := slot.seq })
    ∧ ((b.outSlot s.ev.stream s.ev.panel s.ev.slotSeq = none → exec .fabricRetryAfterExpiry s = .next s)
      ∧ ∀ o, b.outSlot s.ev.stream s.ev.panel s.ev.slotSeq = some o → ∃ t, exec .fabricRetryAfterExpiry s = .next t ∧ quiet t
        ∧ t.fabric.out = b.out.map fun e => if e = o then { o with sentAt := s.fabTime } else e)
    ∧ (counts .grantArrival slotSound ∧ (slotSound slot = true → b.current slot = true → ∃ t, exec .grantArrival s = .next t
      ∧ quiet t ∧ t.fabric.windowOf slot.src = (slot.op.extractLsb' 0 32).toNat))
    ∧ (counts .drainMarkerArrival slotSound ∧ (slotSound slot = true → b.current slot = true → exec .drainMarkerArrival s
      = .next (s.modPort p fun q => { q with marker := some (slot.op.extractLsb' 0 16) })))
    ∧ (∀ o, b.outSlot s.ev.stream s.ev.panel s.ev.slotSeq = some o →
      let off := b.hold = true ∨ b.rto = 0 ∨ s.ev.id ≠ o.sentAt
      (off → exec .slotResendTimeout s = .next s)
      ∧ (¬ off → b.rtoCycles ≤ s.fabTime - o.sentAt → o.resends < b.retries.toNat → ∃ t, exec .slotResendTimeout s = .next t
        ∧ quiet t ∧ t.fabric.resent = satInc b.resent
        ∧ t.fabric.out = b.out.map fun e => if e = o then { o with resends := o.resends + 1, sentAt := s.fabTime } else e)
      ∧ (¬ off → b.rtoCycles ≤ s.fabTime - o.sentAt → b.retries.toNat ≤ o.resends → ∃ t, exec .slotResendTimeout s = .next t
        ∧ (s.ev.stream, s.ev.panel) ∈ t.fabric.lost
        ∧ ∀ e ∈ t.fabric.out, e.slot.stream = s.ev.stream → e.slot.dst = s.ev.panel → seqLe s.ev.slotSeq e.slot.seq = false))
    ∧ (let l := if s.ev.flag then b.stuck else q.waiting
       (∀ w, (l.find? fun w => w.id == s.ev.id) = some w →
        let gone := s.fabTime - w.since
        (b.hold = true → exec .slotPortWaitExpiry s = .next s)
        ∧ (b.hold = false → gone ≤ portWait → exec .slotPortWaitExpiry s = .next { s with agenda := s.agenda ++
            [{ due := s.cycle + (portWait + 1 - gone), act := .slotPortWaitExpiry, arg := s.ev }] })
        ∧ (b.hold = false → portWait < gone → ∃ t, exec .slotPortWaitExpiry s = .next t ∧ quiet t
          ∧ t.fabric.expired = satInc b.expired ∧ (if s.ev.flag then t.fabric.stuck else (t.port p).waiting)
            = l.filter fun w => w.id != s.ev.id))
       ∧ ((l.find? fun w => w.id == s.ev.id) = none → exec .slotPortWaitExpiry s = .next s))
    ∧ (let n := s.ev.qp
       let k := s.qp n
       let sTail := s.ev.val.extractLsb' 0 32
       let rTail := s.ev.val.extractLsb' 32 32
       (s.feature 5 = false → exec .qpLoad s = .next s ∧ exec .qpReset s = .next s ∧ exec .qpError s = .next s)
       ∧ (k.state = 2 → exec .qpLoad s = .next s)
       ∧ (s.feature 5 = true → Sparse.wf b.qps {} = true →
        (k.state ≠ 2 → ∃ t, exec .qpLoad s = .next t ∧ t.dies = s.dies ∧ t.qp n = s.loadedQp n)
        ∧ (∃ t, exec .qpReset s = .next t ∧ t.dies = s.dies ∧ t.qp n = { k with state := 0 }
          ∧ t.fabric.works = b.works.filter fun w => w.qp != n)
        ∧ (k.state ≠ 2 → ∃ t, exec .qpError s = .next t ∧ (t.qp n).state = 2 ∧ ∀ w ∈ t.fabric.works, w.qp ≠ n))
       ∧ (k.state = 0 → exec .doorbellWrite s = .next s)
       ∧ (k.state ≠ 0 → Sparse.wf b.qps {} = true →
        ((sTail - k.sHead).toNat ≤ 2 ^ k.sqSize → (rTail - k.rHead).toNat ≤ 2 ^ k.rqSize → b.due = [] → ∃ t,
          exec .doorbellWrite s = .next t ∧ t.dies = s.dies ∧ t.qp n = { k with sTail := sTail, rTail := rTail })
        ∧ (2 ^ k.sqSize < (sTail - k.sHead).toNat → ∃ t, exec .doorbellWrite s = .next t ∧ (t.qp n).state = 2))
       ∧ (∀ runs, k.state = 1 → s.ev.flag = false → k.sHead ≠ k.sTail → Sparse.wf b.qps {} = true →
        s.localBytes k.root (k.sqBase + BitVec.ofNat 64 (64 * (k.sHead.toNat % 2 ^ k.sqSize))) 64 .read = .ok runs →
        s.runBad runs = false →
        (entryBad (s.runBytes runs) = false → ∃ t, exec .workEntryServe s = .next t ∧ t.dies = s.dies
          ∧ t.fabric.works = b.works ++ [workOf s.fresh n (s.runBytes runs)] ∧ (t.qp n).sHead = k.sHead + 1
          ∧ t.fabric.lastServed = n)
        ∧ (entryBad (s.runBytes runs) = true → ∃ t, exec .workEntryServe s = .next t ∧ (t.qp n).state = 2))
       ∧ (k.state = 0 → exec .workEntryServe s = .next s))

/-! ### Steps of the light and of photonic paths (R403 to R409) -/

/-- The light's and the paths' steps: a relocking wavelength is dark and counted, and taken again; a lost one is dark; one dark too
long is retired. An element reserves its ports for a SETUP and sets its switch, or answers NAK; ACK holds the reservation, NAK
and TEAR free it, and one without ACK runs out. At its originator a path goes from Idle to Setting, Lighting and Up, backs off
with growing waits, fails at the seventh set-up (log 98), and is torn down, its ports switched back after the TEAR (log 148); a
path of more than six elements is ignored (log 150). -/
def Obligations.PhotonicSteps : Prop :=
  (∀ (s : State),
    let p := s.ev.port
    let l := s.ev.lam
    let q := s.port p
    let quiet (t : State) : Prop := t.dies = s.dies ∧ t.mem = s.mem
    let is (v : BitVec 8) : Prop := v.getLsbD l.val = true
    let rx := s.ev.arr
    let used := if rx then q.rxLit else q.lit
    (¬ is used → exec .ringRelockStart s = .next s)
    ∧ (is used → ∃ t, exec .ringRelockStart s = .next t ∧ quiet t ∧ (t.port p).relocks = satInc q.relocks
      ∧ (t.port p).lit = (if rx then q.lit else withBit q.lit l false)
      ∧ (t.port p).rxLit = (if rx then withBit q.rxLit l false else q.rxLit)
      ∧ is (if rx then (t.port p).rxRelocking else (t.port p).relocking) ∧ ((t.port p).darkSince l).isSome = true
      ∧ (q.darkSince l = none → ∃ e ∈ t.agenda, e.act = .wavelengthRetire ∧ e.arg.port = p ∧ e.arg.lam = l
          ∧ e.arg.id = s.cycle ∧ e.due = s.cycle + 40001))
    ∧ (let locks : Prop := q.enable = true ∧ (is q.locking ∨ (q.darkSince l).isSome = true) ∧ ¬ is q.failed
       (¬ locks → exec .ringRelockEnd s = .next s)
       ∧ (locks → ∃ t, exec .ringRelockEnd s = .next t ∧ quiet t ∧ is (if rx then (t.port p).rxLit else (t.port p).lit)
         ∧ (is (if rx then q.lit else q.rxLit) → (t.port p).darkSince l = none ∧ ¬ is (t.port p).locking)))
    ∧ ((¬ is (q.rxLit ||| q.rxRelocking) → exec .wavelengthSignalLoss s = .next s)
      ∧ (is (q.rxLit ||| q.rxRelocking) → ∃ t, exec .wavelengthSignalLoss s = .next t ∧ quiet t
        ∧ (t.port p).rxLit = withBit q.rxLit l false ∧ (t.port p).rxRelocking = withBit q.rxRelocking l s.ev.flag
        ∧ ((t.port p).darkSince l).isSome = true))
    ∧ ((q.darkSince l ≠ some s.ev.id → exec .wavelengthRetire s = .next s)
      ∧ (q.darkSince l = some s.ev.id → ∃ t, exec .wavelengthRetire s = .next t ∧ quiet t
        ∧ (t.port p).failed = withBit q.failed l true ∧ (t.port p).lit = withBit q.lit l false
        ∧ (t.port p).rxLit = withBit q.rxLit l false ∧ (t.port p).darkSince l = none)))
  ∧ (∀ (s : State) (p : PathPkt),
    let b := s.fabric
    let e := s.ev.elem
    let quiet (t : State) : Prop := t.dies = s.dies ∧ t.mem = s.mem ∧ t.panel = s.panel
    let goes (t : State) (a : Instr) (el : BitVec 24) (k : PathPkt) : Prop :=
      ∃ r ∈ t.agenda, r.act = a ∧ r.arg.elem = el ∧ r.arg.pkt = k ∧ s.cycle < r.due
    let mine (r : Reserve) : Bool := r.elem == e && r.path == p.path && r.origin == p.origin
    (s.pathPkt .setup = some p → s.ev.flag = false →
      (s.lowerSetup p = true → exec .setup s = .next { s with agenda := s.agenda ++
          [{ due := s.cycle, act := .setup, arg := s.ev }] })
      ∧ ∀ k io, s.lowerSetup p = false → pktPlace p e = some k → p.elems[k]?.map (·.2) = some io →
        let taken := b.portTaken e io.1 p || b.portTaken e io.2 p
        (taken = false → ∃ t, exec .setup s = .next t ∧ quiet t ∧ (e, io.1, io.2) ∈ t.fabric.switch
          ∧ (∃ r ∈ t.fabric.reserve, r.elem = e ∧ r.path = p.path ∧ r.origin = p.origin ∧ r.inPort = io.1 ∧ r.outPort = io.2
              ∧ r.held = false ∧ { due := s.cycle + 20000000, act := .reservationTimeout, arg := { id := r.id } } ∈ t.agenda)
          ∧ ∀ n, p.elems[k + 1]? = some n → goes t .setup n.1 p)
        ∧ (taken = true → ∃ t, exec .setup s = .next t ∧ quiet t ∧ t.fabric.reserve = b.reserve ∧ t.fabric.switch = b.switch
          ∧ ∀ j n, k = j + 1 → p.elems[j]? = some n → goes t .nak n.1 { p with index := k + 1 }))
    ∧ (s.pathPkt .setup = some p → s.ev.flag = true → ∀ j n, p.elems.length = j + 1 → p.elems[j]? = some n →
      let end_ (i : PortId) : Prop := (s.port i).enable = true ∧ (s.port i).role = 3 ∧ (s.port i).path = p.path
        ∧ (s.port i).peer = p.origin ∧ (s.port i).up = false
      ((∃ i, end_ i) → ∃ t, exec .setup s = .next t ∧ quiet t ∧ goes t .ack n.1 p)
      ∧ ((∀ i, ¬ end_ i) → ∃ t, exec .setup s = .next t ∧ quiet t ∧ goes t .nak n.1 { p with index := j + 2 }))
    ∧ (s.pathPkt .ack = some p → s.ev.flag = false → ∃ t, exec .ack s = .next t ∧ quiet t
      ∧ t.fabric.reserve = b.reserve.map (fun r => if mine r then { r with held := true } else r)
      ∧ ∀ j n, pktPlace p e = some (j + 1) → p.elems[j]? = some n → goes t .ack n.1 p)
    ∧ (s.pathPkt .nak = some p → s.ev.flag = false → ∃ t, exec .nak s = .next t ∧ quiet t
      ∧ t.fabric.reserve = b.reserve.filter (fun r => !mine r) ∧ t.fabric.switch = b.switch
      ∧ ∀ j n, pktPlace p e = some (j + 1) → p.elems[j]? = some n → goes t .nak n.1 p)
    ∧ (s.pathPkt .tear = some p → s.ev.flag = false → ∀ k, pktPlace p e = some k → ∃ t, exec .tear s = .next t ∧ quiet t
      ∧ t.fabric.reserve = b.reserve.filter (fun r => !mine r)
      ∧ (∀ io, p.elems[k]?.map (·.2) = some io → b.portTaken e io.1 p = false → b.portTaken e io.2 p = false →
        t.fabric.switch = b.switch.filter fun c => c != (e, io.1, io.2))
      ∧ ∀ n, p.elems[k + 1]? = some n → goes t .tear n.1 p)
    ∧ (s.pathPkt .tear = some p → s.ev.flag = true → ∀ j n, p.elems.length = j + 1 → p.elems[j]? = some n → ∃ t,
      exec .tear s = .next t ∧ quiet t ∧ goes t .tearAck n.1 p
      ∧ ∀ i : PortId, (s.port i).role = 3 → (s.port i).path = p.path → (s.port i).peer = p.origin →
          (t.port i).lit = 0 ∧ (t.port i).rxLit = 0 ∧ (t.port i).replay = [])
    ∧ (s.pathPkt .tearAck = some p → s.ev.flag = false → ∀ j n, pktPlace p e = some (j + 1) → p.elems[j]? = some n → ∃ t,
      exec .tearAck s = .next t ∧ quiet t ∧ t.fabric = b ∧ goes t .tearAck n.1 p)
    ∧ (∀ k ∈ [(PathKind.setup, Instr.setup), (.ack, .ack), (.nak, .nak), (.tear, .tear), (.tearAck, .tearAck)],
      s.pathPkt k.1 = none → exec k.2 s = .next s)
    ∧ exec .reservationTimeout s = .next (s.modFabric fun b => { b with reserve := b.reserve.filter fun r => r.held || r.id != s.ev.id }))
  ∧ ∀ (s : State) (i : Fin 64),
    let h := s.fabric.paths[i]
    let path (t : State) : Path := t.fabric.paths[i]
    let quiet (t : State) : Prop := t.dies = s.dies ∧ t.mem = s.mem
    let timed (t : State) (n : Nat) (a : Instr) : Prop :=
      { due := s.cycle + n, act := a, arg := { path := i, id := (path t).timer } } ∈ t.agenda
    let backs (t : State) : Prop := quiet t ∧ (h.attempts < 7 → (path t).state = 2 ∧ timed t (2 ^ h.attempts * 20000) .backOffExpiry)
      ∧ (7 ≤ h.attempts → (path t).state = 6 ∧ t.panel.notices = s.panel.notices ++ [.pathFailed i])
    (∀ p, s.ev.flag = true → s.ownPath p = some i → h.state = 1 →
      (s.pathPkt .ack = some p → ∃ t, exec .ack s = .next t ∧ quiet t ∧ (path t).state = 3 ∧ timed t 2000000 .lightingTimeout)
      ∧ (s.pathPkt .nak = some p → ∃ t, exec .nak s = .next t ∧ backs t))
    ∧ (∀ p, s.ev.flag = true → s.ownPath p = some i → h.state = 5 → s.pathPkt .tearAck = some p → ∃ t,
      exec .tearAck s = .next t ∧ quiet t ∧ (path t).state = 0)
    ∧ (s.ev.path = i →
      (h.state = 1 → h.timer = s.ev.id → ∃ t, exec .setupTimeout s = .next t ∧ backs t)
      ∧ (h.state ≠ 1 ∨ h.timer ≠ s.ev.id → exec .setupTimeout s = .next s)
      ∧ (h.state = 2 → h.timer = s.ev.id → ∃ t, exec .backOffExpiry s = .next t ∧ quiet t ∧ (path t).state = 1
        ∧ (path t).attempts = h.attempts + 1 ∧ (path t).pkt = h.pkt ∧ timed t 20000000 .setupTimeout)
      ∧ (h.state ≠ 2 ∨ h.timer ≠ s.ev.id → exec .backOffExpiry s = .next s)
      ∧ (h.state = 3 → (∃ p ∈ s.endPorts i, 4 ≤ bitCount (s.port p).inUse) → ∃ t, exec .pathLit s = .next t ∧ quiet t
        ∧ (path t).state = 4)
      ∧ (h.state ≠ 3 ∨ (∀ p ∈ s.endPorts i, bitCount (s.port p).inUse < 4) → exec .pathLit s = .next s)
      ∧ (h.state = 3 → h.timer = s.ev.id → ∃ t, exec .lightingTimeout s = .next t ∧ backs t)
      ∧ (h.state ≠ 3 ∨ h.timer ≠ s.ev.id → exec .lightingTimeout s = .next s)
      ∧ (h.state = 5 → h.timer = s.ev.id → ∃ t, exec .tearingTimeout s = .next t ∧ quiet t ∧ (path t).state = 0)
      ∧ (h.state ≠ 5 ∨ h.timer ≠ s.ev.id → exec .tearingTimeout s = .next s)
      ∧ (h.state = 0 → s.ev.pkt.elems.length ≤ 6 → ∃ t, exec .pathSetupRequest s = .next t ∧ quiet t ∧ (path t).state = 1
        ∧ (path t).go = true ∧ (path t).attempts = 1 ∧ (path t).pkt.path = h.path ∧ (path t).pkt.origin = s.fabric.panel
        ∧ (path t).pkt.elems = s.ev.pkt.elems ∧ timed t 20000000 .setupTimeout)
      ∧ (h.state ≠ 0 ∨ 6 < s.ev.pkt.elems.length → exec .pathSetupRequest s = .next (s.modPath i fun h => { h with go := true }))
      ∧ (h.state = 4 → ∃ t, exec .pathTearRequest s = .next t ∧ quiet t ∧ (path t).state = 5 ∧ (path t).go = false
        ∧ timed t 20000000 .tearingTimeout)
      ∧ (h.state = 6 → ∃ t, exec .pathTearRequest s = .next t ∧ quiet t ∧ (path t).state = 0 ∧ (path t).go = false)
      ∧ (h.state ≠ 4 → h.state ≠ 6 → exec .pathTearRequest s = .next (s.modPath i fun h => { h with go := false })))
end

