-- ==== Sys2Proof/Laws/Memory.lean ====
section
/-! SUPPORT. The laws of canonical tables and memories: what a write leaves to read, and that every operation over a
memory keeps its canonical form. -/

namespace Sys2Proof.Machine

variable {α : Type} [DecidableEq α]

/-! ### Tables -/

theorem Sparse.okFrom_mono {d : α} {lo lo' : Nat} (h : lo' ≤ lo) : ∀ {m : Sparse α}, Sparse.okFrom d lo m = true →
    Sparse.okFrom d lo' m = true
  | [], _ => rfl
  | (k, v) :: r, hm => by
    simp only [Sparse.okFrom, Bool.and_eq_true, decide_eq_true_eq] at hm ⊢
    exact ⟨⟨by omega, hm.1.2⟩, hm.2⟩

/-- Below its bound a canonical table lists nothing. -/
theorem Sparse.read_below {d : α} : ∀ {m : Sparse α} {lo k : Nat}, Sparse.okFrom d lo m = true → k < lo →
    Sparse.read m d k = d
  | [], _, _, _, _ => rfl
  | (k', v) :: r, lo, k, hm, hk => by
    simp only [Sparse.okFrom, Bool.and_eq_true, decide_eq_true_eq] at hm
    simp only [Sparse.read]
    rw [if_neg (by omega), if_pos (by omega)]

theorem Sparse.okFrom_erase {d : α} {k : Nat} : ∀ {m : Sparse α} {lo : Nat}, Sparse.okFrom d lo m = true →
    Sparse.okFrom d lo (Sparse.erase m k) = true
  | [], _, _ => rfl
  | (k', v) :: r, lo, hm => by
    have hm' := hm
    simp only [Sparse.okFrom, Bool.and_eq_true, decide_eq_true_eq] at hm
    unfold Sparse.erase
    split
    · exact Sparse.okFrom_mono (by omega) hm.2
    · split
      · exact hm'
      · simp only [Sparse.okFrom, Bool.and_eq_true, decide_eq_true_eq]
        exact ⟨hm.1, Sparse.okFrom_erase hm.2⟩

theorem Sparse.okFrom_put {d : α} {k : Nat} {v : α} (hv : v ≠ d) : ∀ {m : Sparse α} {lo : Nat}, lo ≤ k →
    Sparse.okFrom d lo m = true → Sparse.okFrom d lo (Sparse.put m k v) = true
  | [], lo, hl, _ => by simp [Sparse.put, Sparse.okFrom, hv, hl]
  | (k', w) :: r, lo, hl, hm => by
    have hm' := hm
    simp only [Sparse.okFrom, Bool.and_eq_true, decide_eq_true_eq] at hm
    unfold Sparse.put
    split
    · next e => subst e; simp [Sparse.okFrom, hv, hl, hm.2]
    · split
      · simp only [Sparse.okFrom, Bool.and_eq_true, decide_eq_true_eq]
        exact ⟨⟨hl, by simp [hv]⟩, ⟨by omega, hm.1.2⟩, hm.2⟩
      · simp only [Sparse.okFrom, Bool.and_eq_true, decide_eq_true_eq]
        exact ⟨hm.1, Sparse.okFrom_put hv (by omega) hm.2⟩

/-- A write keeps the canonical form. -/
theorem Sparse.wf_write {m : Sparse α} {d : α} (k : Nat) (v : α) (h : Sparse.wf m d = true) :
    Sparse.wf (Sparse.write m d k v) d = true := by
  unfold Sparse.write
  split
  · exact Sparse.okFrom_erase h
  · next hv => exact Sparse.okFrom_put hv (Nat.zero_le _) h

/-- Dropping entries keeps the canonical form. -/
theorem Sparse.okFrom_filter {d : α} (p : Nat × α → Bool) : ∀ {m : Sparse α} {lo : Nat}, Sparse.okFrom d lo m = true →
    Sparse.okFrom d lo (m.filter p) = true
  | [], _, _ => rfl
  | (k, v) :: r, lo, hm => by
    simp only [Sparse.okFrom, Bool.and_eq_true, decide_eq_true_eq] at hm
    rw [List.filter_cons]
    split
    · simp only [Sparse.okFrom, Bool.and_eq_true, decide_eq_true_eq]
      exact ⟨hm.1, Sparse.okFrom_filter p hm.2⟩
    · exact Sparse.okFrom_mono (by omega) (Sparse.okFrom_filter p hm.2)

theorem Sparse.read_erase {d : α} {k j : Nat} : ∀ {m : Sparse α} {lo : Nat}, Sparse.okFrom d lo m = true →
    Sparse.read (Sparse.erase m k) d j = if j = k then d else Sparse.read m d j
  | [], _, _ => by simp [Sparse.erase, Sparse.read]
  | (k', v) :: r, lo, hm => by
    simp only [Sparse.okFrom, Bool.and_eq_true, decide_eq_true_eq] at hm
    unfold Sparse.erase
    split
    · next e =>
      subst e
      by_cases hj : j = k'
      · subst hj; rw [if_pos rfl]; exact Sparse.read_below hm.2 (by omega)
      · rw [if_neg hj]
        conv => rhs; unfold Sparse.read
        rw [if_neg (Ne.symm hj)]
        split
        · next h => exact Sparse.read_below hm.2 (by omega)
        · rfl
    · next hk =>
      split
      · next hlt =>
        split
        · next hj => subst hj; simp only [Sparse.read]; rw [if_neg hk, if_pos hlt]
        · rfl
      · next hge =>
        unfold Sparse.read
        split
        · next e => rw [if_neg (by omega)]
        · split
          · simp
          · exact Sparse.read_erase hm.2

theorem Sparse.read_put {d : α} {k j : Nat} {v : α} : ∀ {m : Sparse α} {lo : Nat}, Sparse.okFrom d lo m = true →
    Sparse.read (Sparse.put m k v) d j = if j = k then v else Sparse.read m d j
  | [], _, _ => by
    by_cases hj : j = k
    · subst hj; simp [Sparse.put, Sparse.read]
    · simp [Sparse.put, Sparse.read, hj, Ne.symm hj]
  | (k', w) :: r, lo, hm => by
    simp only [Sparse.okFrom, Bool.and_eq_true, decide_eq_true_eq] at hm
    unfold Sparse.put
    split
    · next e =>
      subst e
      by_cases hj : j = k'
      · subst hj; simp [Sparse.read]
      · simp [Sparse.read, hj, Ne.symm hj]
    · next hk =>
      split
      · next hlt =>
        by_cases hj : j = k
        · subst hj; simp [Sparse.read]
        · rw [if_neg hj]
          conv => lhs; unfold Sparse.read
          rw [if_neg (Ne.symm hj)]
          split
          · next h => simp only [Sparse.read]; rw [if_neg (by omega), if_pos (by omega)]
          · rfl
      · next hge =>
        unfold Sparse.read
        split
        · next e => rw [if_neg (by omega)]
        · split
          · next h => rw [if_neg (by omega)]
          · exact Sparse.read_put hm.2

/-- What a write leaves to read: the value at its key, and at every other key what stood there. -/
theorem Sparse.read_write {m : Sparse α} {d : α} (k j : Nat) (v : α) (h : Sparse.wf m d = true) :
    Sparse.read (Sparse.write m d k v) d j = if j = k then v else Sparse.read m d j := by
  unfold Sparse.write
  split
  · next e => subst e; exact Sparse.read_erase h
  · exact Sparse.read_put h

/-- Canonical tables that read alike are the same data. -/
theorem Sparse.ext_okFrom {d : α} : ∀ {m n : Sparse α} {lo : Nat}, Sparse.okFrom d lo m = true →
    Sparse.okFrom d lo n = true → (∀ k, Sparse.read m d k = Sparse.read n d k) → m = n
  | [], [], _, _, _, _ => rfl
  | [], (k, v) :: r, lo, _, hn, h => by
    simp only [Sparse.okFrom, Bool.and_eq_true, decide_eq_true_eq, Bool.not_eq_true', decide_eq_false_iff_not] at hn
    have := h k
    simp only [Sparse.read, if_true] at this
    exact absurd this.symm hn.1.2
  | (k, v) :: r, [], lo, hm, _, h => by
    simp only [Sparse.okFrom, Bool.and_eq_true, decide_eq_true_eq, Bool.not_eq_true', decide_eq_false_iff_not] at hm
    have := h k
    simp only [Sparse.read, if_true] at this
    exact absurd this hm.1.2
  | (k, v) :: r, (k', v') :: r', lo, hm, hn, h => by
    simp only [Sparse.okFrom, Bool.and_eq_true, decide_eq_true_eq, Bool.not_eq_true', decide_eq_false_iff_not] at hm hn
    have hk : k = k' := by
      by_contra hne
      rcases Nat.lt_or_gt_of_ne hne with hlt | hgt
      · have := h k
        simp only [Sparse.read, if_true, if_neg (Ne.symm hne), if_pos hlt] at this
        exact hm.1.2 this
      · have := h k'
        simp only [Sparse.read, if_true, if_neg hne, if_pos hgt] at this
        exact hn.1.2 this.symm
    subst hk
    have hv : v = v' := by have := h k; simpa [Sparse.read] using this
    subst hv
    congr 1
    refine Sparse.ext_okFrom hm.2 hn.2 fun j => ?_
    rcases Nat.lt_trichotomy j k with hj | hj | hj
    · rw [Sparse.read_below hm.2 (by omega), Sparse.read_below hn.2 (by omega)]
    · rw [Sparse.read_below hm.2 (by omega), Sparse.read_below hn.2 (by omega)]
    · have := h j
      simp only [Sparse.read] at this
      rwa [if_neg (by omega), if_neg (by omega), if_neg (by omega), if_neg (by omega)] at this

/-! ### Memories -/

theorem Memory.wf_write {m : Memory} (a : Nat) (v : Byte) (h : m.wf = true) : (m.write a v).wf = true :=
  Sparse.wf_write a v h

theorem Memory.read_write {m : Memory} (a b : Nat) (v : Byte) (h : m.wf = true) :
    (m.write a v).read b = if b = a then v else m.read b := Sparse.read_write a b v h

theorem Memory.wf_writeAll {m : Memory} (l : List (Nat × Byte)) (h : m.wf = true) : (m.writeAll l).wf = true := by
  unfold Memory.writeAll
  induction l generalizing m with
  | nil => exact h
  | cons p r ih => exact ih (Memory.wf_write _ _ h)

/-- A byte that a list of writes does not name stays as it was. -/
theorem Memory.read_writeAll {m : Memory} (l : List (Nat × Byte)) (a : Nat) (h : m.wf = true) (ha : ∀ p ∈ l, p.1 ≠ a) :
    (m.writeAll l).read a = m.read a := by
  unfold Memory.writeAll
  induction l generalizing m with
  | nil => rfl
  | cons p r ih =>
    rw [List.foldl_cons, ih (Memory.wf_write _ _ h) (fun q hq => ha q (List.mem_cons_of_mem _ hq)),
      Memory.read_write _ _ _ h, if_neg (Ne.symm (ha p List.mem_cons_self))]

/-! ### The banks of a die -/

theorem Die.wf_iff (x : Die) : x.wf = true ↔ x.bank.wf = true ∧ Sparse.wf x.tags 0 = true
    ∧ Sparse.wf x.truth Config.truthDefault = true ∧ x.boot.sram.wf = true
    ∧ x.slots.toList.all (fun t => t.bytes.wf) = true ∧ x.arrays.toList.all Arr.wf = true := by
  unfold Die.wf
  simp only [Bool.and_eq_true, and_assoc]

theorem Die.wf_setBankByte {x : Die} (a : Nat) (b : Byte) (h : x.wf = true) : (x.setBankByte a b).wf = true := by
  rw [Die.wf_iff] at h ⊢
  unfold Die.setBankByte
  dsimp only
  split
  · exact h
  · exact ⟨Memory.wf_write _ _ h.1, h.2⟩

theorem Die.wf_eccWrite {x : Die} (l : List Nat) (h : x.wf = true) : (x.eccWrite l).wf = true := by
  unfold Die.eccWrite
  split
  · exact h
  · exact h

/-- A write to the banks keeps every table of the die in canonical form. -/
theorem Die.wf_bankWrite {x : Die} (l : List (Nat × Byte)) (h : x.wf = true) : (x.bankWrite l).wf = true := by
  unfold Die.bankWrite
  refine Die.wf_eccWrite _ ?_
  induction l generalizing x with
  | nil => exact h
  | cons p r ih => exact ih (Die.wf_setBankByte _ _ h)

/-- A read of the banks keeps them as they were, but for the errors that it corrects. -/
theorem Die.bankRead_bank (x : Die) (l : List Nat) : (x.bankRead l).1.bank = x.bank ∧ (x.bankRead l).1.folds = x.folds := by
  unfold Die.bankRead Die.eccRead
  dsimp only
  split <;> exact ⟨rfl, rfl⟩

/-- Outside the fold area a byte of the banks is a byte of the bank memory. -/
theorem Die.bankByte_low (x : Die) (a : Nat) (ha : a % Config.bankBytes < Config.foldBase) :
    x.bankByte a = x.bank.read (a % Config.bankBytes) := if_neg (Nat.not_le.mpr ha)

theorem Die.setBankByte_low (x : Die) (a : Nat) (b : Byte) (ha : a % Config.bankBytes < Config.foldBase) :
    x.setBankByte a b = { x with bank := x.bank.write (a % Config.bankBytes) b } := if_neg (Nat.not_le.mpr ha)

/-- A byte written outside the fold area reads back, and every other byte outside it reads as before. -/
theorem Die.bankByte_setBankByte {x : Die} (a c : Nat) (b : Byte) (h : x.wf = true)
    (ha : a % Config.bankBytes < Config.foldBase) (hc : c % Config.bankBytes < Config.foldBase) :
    (x.setBankByte a b).bankByte c = if c % Config.bankBytes = a % Config.bankBytes then b else x.bankByte c := by
  rw [Die.setBankByte_low x a b ha, Die.bankByte_low _ c hc, Die.bankByte_low _ c hc]
  exact Memory.read_write _ _ b ((Die.wf_iff x).mp h).1

theorem Die.wf_applyStamps {x : Die} (h : x.wf = true) : x.applyStamps.wf = true := by
  rw [Die.wf_iff] at h ⊢
  refine ⟨h.1, ?_, h.2.2⟩
  show Sparse.wf (List.foldl _ x.tags _) 0 = true
  generalize List.foldl (fun l e => insertStamp e l) [] x.stamps = l
  have ht := h.2.1
  generalize x.tags = t at ht
  induction l generalizing t with
  | nil => exact ht
  | cons p r ih => exact ih _ (Sparse.wf_write _ _ ht)

theorem Die.wf_putTable {x : Die} (g : Fin 16) (v : VReg) (h : x.wf = true) : (x.putTable g v).wf = true := by
  unfold Die.putTable
  generalize List.range 16 = l
  induction l generalizing x with
  | nil => exact h
  | cons p r ih =>
    refine ih ?_
    rw [Die.wf_iff] at h ⊢
    exact ⟨h.1, h.2.1, Sparse.wf_write _ _ h.2.2.1, h.2.2.2⟩

theorem Die.wf_prepare {x : Die} (w : Window) (image : List (Nat × Word)) (h : x.wf = true) :
    (x.prepare w image).wf = true := by
  unfold Die.prepare
  dsimp only
  have h0 : ({ x with
      bank := x.bank.filter fun e => !(decide (w.base ≤ e.1) && decide (e.1 < w.base + 2 ^ w.log2g))
      bankBad := x.bankBad.filter fun e => !(decide (w.base ≤ 8 * e.1) && decide (8 * e.1 < w.base + 2 ^ w.log2g)) } :
        Die).wf = true := by
    rw [Die.wf_iff] at h ⊢
    exact ⟨Sparse.okFrom_filter _ h.1, h.2⟩
  generalize ({ x with
      bank := x.bank.filter fun e => !(decide (w.base ≤ e.1) && decide (e.1 < w.base + 2 ^ w.log2g))
      bankBad := x.bankBad.filter fun e => !(decide (w.base ≤ 8 * e.1) && decide (8 * e.1 < w.base + 2 ^ w.log2g)) } :
        Die) = y at h0
  induction image generalizing y with
  | nil => exact h0
  | cons p r ih => exact ih _ (Die.wf_bankWrite _ h0)

/-! ### Panel memory -/

theorem State.ringBells_mem (s : State) (l : List (Fin 8192)) : (s.ringBells l).mem = s.mem ∧ (s.ringBells l).dies = s.dies := by
  unfold State.ringBells
  induction l generalizing s with
  | nil => exact ⟨rfl, rfl⟩
  | cons p r ih => exact ih _

/-- A write to panel memory keeps every memory of the state in canonical form. -/
theorem State.wf_writeMem {s : State} (pa : Nat) (l : List Byte) (h : s.wf = true) : (s.writeMem pa l).wf = true := by
  unfold State.wf at h ⊢
  simp only [Bool.and_eq_true] at h ⊢
  unfold State.writeMem
  dsimp only
  rw [(State.ringBells_mem _ _).1, (State.ringBells_mem _ _).2]
  exact ⟨Memory.wf_writeAll _ h.1, h.2⟩

/-- A byte of panel memory outside the bytes written reads as before. -/
theorem State.read_writeMem {s : State} (pa : Nat) (l : List Byte) (a : Nat) (h : s.mem.wf = true)
    (ha : a < pa ∨ pa + l.length ≤ a) : (s.writeMem pa l).mem.read a = s.mem.read a := by
  unfold State.writeMem
  dsimp only
  rw [(State.ringBells_mem _ _).1]
  refine Memory.read_writeAll _ _ h ?_
  intro p hp
  rw [List.mem_map] at hp
  obtain ⟨q, hq, rfl⟩ := hp
  have := (List.of_mem_zip hq).1
  rw [List.mem_range] at this
  dsimp only
  omega

/-- Memory after reset is in canonical form: it lists nothing. -/
theorem State.reset_mem_wf : State.reset.mem.wf = true := rfl

end Sys2Proof.Machine
end

