-- ==== Sys2Proof/Laws/Array.lean ====
section
/-! SUPPORT. What the rows of an array operation do to the accumulators, the counts, the shadow weights and the operand slot
(R264 to R270), said once for each kind. -/

namespace Sys2Proof.Machine

section Tables
variable {α : Type} [DecidableEq α]

theorem Sparse.read_filterFrom {d : α} (p : Nat × α → Bool) (k : Nat) : ∀ {m : Sparse α} {lo : Nat},
    Sparse.okFrom d lo m = true → Sparse.read (m.filter p) d k = if p (k, Sparse.read m d k) then Sparse.read m d k else d := by
  intro m
  induction m with
  | nil => intro lo _; exact (ite_self d).symm
  | cons e r ih =>
    obtain ⟨a, v⟩ := e
    intro lo h
    simp only [Sparse.okFrom, Bool.and_eq_true, decide_eq_true_eq, Bool.not_eq_true'] at h
    have hr := ih h.2
    rw [List.filter_cons]
    by_cases ha : a = k
    · subst ha
      simp only [Sparse.read, if_true]
      split
      · simp [Sparse.read]
      · rw [Sparse.read_below (Sparse.okFrom_filter p h.2) (Nat.lt_succ_self _)]
    · by_cases hk : k < a
      · have hb := Sparse.read_below (Sparse.okFrom_filter p h.2) (Nat.lt_succ_of_lt hk)
        simp only [Sparse.read, if_neg ha, if_pos hk]
        split
        · simp [Sparse.read, ha, hk]
        · simp [hb]
      · simp only [Sparse.read, if_neg ha, if_neg hk]
        split
        · simpa only [Sparse.read, if_neg ha, if_neg hk] using hr
        · exact hr

/-- A table whose entries are filtered by their keys. -/
theorem Sparse.read_filter {m : Sparse α} {d : α} (p : Nat → Bool) (k : Nat) (h : Sparse.wf m d = true) :
    Sparse.read (m.filter fun e => p e.1) d k = if p k then Sparse.read m d k else d :=
  Sparse.read_filterFrom _ k h

end Tables

/-! ### Accumulators -/

theorem Arr.accAt_setAcc {a : Arr} (h : Sparse.wf a.acc 0 = true) (v : BitVec 32) {i n j m : Nat} (hn : n < 128) (hm : m < 128) :
    (a.setAcc i n v).accAt j m = if j = i ∧ m = n then v else a.accAt j m := by
  unfold Arr.accAt Arr.setAcc
  rw [Sparse.read_write _ _ _ h]
  by_cases e : j = i ∧ m = n
  · obtain ⟨rfl, rfl⟩ := e
    simp
  · rw [if_neg e, if_neg (by omega)]

theorem Arr.setAcc_wf {a : Arr} (h : Sparse.wf a.acc 0 = true) (i n : Nat) (v : BitVec 32) : Sparse.wf (a.setAcc i n v).acc 0 = true :=
  Sparse.wf_write _ _ h

theorem Arr.setAcc_eq (a : Arr) (i n : Nat) (v : BitVec 32) : a.setAcc i n v = { a with acc := (a.setAcc i n v).acc } := rfl

theorem Arr.accAt_clearRow {a : Arr} (h : Sparse.wf a.acc 0 = true) {i j m : Nat} (hm : m < 128) :
    (a.clearRow i).accAt j m = if j = i then 0 else a.accAt j m := by
  unfold Arr.accAt Arr.clearRow
  rw [Sparse.read_filter (fun k => k / 128 != i) _ h]
  have : (128 * j + m) / 128 = j := by omega
  simp [this]

theorem Arr.clearRow_wf {a : Arr} (h : Sparse.wf a.acc 0 = true) (i : Nat) : Sparse.wf (a.clearRow i).acc 0 = true :=
  Sparse.okFrom_filter _ h

/-- `b` is `a` with accumulators that read as `f` says. -/
structure Arr.AccIs (a b : Arr) (f : Nat → Nat → BitVec 32) : Prop where
  rest : b = { a with acc := b.acc }
  wf : Sparse.wf b.acc 0 = true
  at_ : ∀ i n, n < 128 → b.accAt i n = f i n

theorem Arr.AccIs.self {a : Arr} (h : Sparse.wf a.acc 0 = true) : a.AccIs a a.accAt := ⟨rfl, h, fun _ _ _ => rfl⟩

theorem Arr.AccIs.set {a b : Arr} {f : Nat → Nat → BitVec 32} (h : a.AccIs b f) (i : Nat) {n : Nat} (hn : n < 128) (v : BitVec 32) :
    a.AccIs (b.setAcc i n v) fun j m => if j = i ∧ m = n then v else f j m where
  rest := by rw [Arr.setAcc_eq, h.rest]
  wf := Arr.setAcc_wf h.wf _ _ _
  at_ j m hm := by rw [Arr.accAt_setAcc h.wf v hn hm, h.at_ j m hm]

theorem Arr.AccIs.congr {a b : Arr} {f g : Nat → Nat → BitVec 32} (h : a.AccIs b f) (e : ∀ i n, n < 128 → f i n = g i n) :
    a.AccIs b g := ⟨h.rest, h.wf, fun i n hn => (h.at_ i n hn).trans (e i n hn)⟩

theorem Arr.AccIs.trans {a b c : Arr} {f g : Nat → Nat → BitVec 32} (h : a.AccIs b f) (k : b.AccIs c g) : a.AccIs c g where
  rest := by rw [k.rest, h.rest]
  wf := k.wf
  at_ := k.at_

/-- Steps over the columns of one row, each of which sets its column. -/
theorem Arr.AccIs.foldCols {σ : Type} {a : Arr} (h : Sparse.wf a.acc 0 = true) (arr : σ → Arr) (step : σ → Nat → σ) (i : Nat)
    (g : Nat → BitVec 32)
    (hs : ∀ t f n, n < 128 → a.AccIs (arr t) f → f i n = a.accAt i n → arr (step t n) = (arr t).setAcc i n (g n))
    {t : σ} (ht : arr t = a) {c : Nat} (hc : c ≤ 128) :
    a.AccIs (arr ((List.range c).foldl step t)) fun j m => if j = i ∧ m < c then g m else a.accAt j m := by
  induction c with
  | zero => rw [List.range_zero, List.foldl_nil, ht]; exact (Arr.AccIs.self h).congr fun j m _ => by simp
  | succ c ih =>
    have q := ih (by omega)
    rw [List.range_succ, List.foldl_append, List.foldl_cons, List.foldl_nil, hs _ _ c (by omega) q (by simp)]
    refine (q.set i (by omega) _).congr fun j m _ => ?_
    by_cases hj : j = i <;> by_cases hm : m = c
    · simp [hj, hm]
    · simp [hj, hm, show (m < c + 1) ↔ m < c by omega]
    · simp [hj]
    · simp [hj]

/-- Steps over rows, each of which sets its row. -/
theorem Arr.AccIs.foldRows {σ : Type} {a : Arr} (h : Sparse.wf a.acc 0 = true) (arr : σ → Arr) (step : σ → Nat → σ)
    (g : Nat → Nat → BitVec 32)
    (hs : ∀ t f i, a.AccIs (arr t) f → (∀ m, m < 128 → f i m = a.accAt i m) →
      (arr t).AccIs (arr (step t i)) fun j m => if j = i then g i m else (arr t).accAt j m)
    {l : List Nat} (hl : l.Nodup) {t : σ} (ht : arr t = a) :
    a.AccIs (arr (l.foldl step t)) fun j m => if j ∈ l then g j m else a.accAt j m := by
  induction l using List.reverseRecOn with
  | nil => rw [List.foldl_nil, ht]; exact (Arr.AccIs.self h).congr fun j m _ => by simp
  | append_singleton l i ih =>
    obtain ⟨hl1, -, hd⟩ := List.nodup_append.mp hl
    have q := ih hl1
    have hi : i ∉ l := fun hm => hd i hm i (List.mem_singleton_self i) rfl
    rw [List.foldl_append, List.foldl_cons, List.foldl_nil]
    refine (q.trans (hs _ _ i q fun m _ => if_neg hi)).congr fun j m hm => ?_
    rw [q.at_ j m hm]
    by_cases hj : j = i
    · simp [hj]
    · simp [hj]

/-- One row of activations through the weights (R265, R267, R275). -/
theorem Arr.feedRow_acc {a : Arr} (h : Sparse.wf a.acc 0 = true) (sat : Bool) (metric : Nat) (fa : Ty) (k i : Nat) (row : ActRow) :
    a.AccIs (a.feedRow sat metric fa k i row).1 fun j m =>
      if j = i then
        if a.live.poison then poisonValue a.float
        else BitVec.ofNat 32 (cellRun (!a.float) sat metric fa a.live.fmt row (a.live.col m k) (a.accAt i m).toNat).1
      else a.accAt j m := by
  unfold Arr.feedRow
  split
  · rename_i hp
    have q := Arr.AccIs.foldCols h (fun b : Arr => b) (fun b n => b.setAcc i n (poisonValue b.float)) i
      (fun _ => poisonValue a.float) (fun t f n _ q _ => by rw [show t.float = a.float by rw [q.rest]]) rfl (le_refl 128)
    exact q.congr fun j m hm => by simp [hm]
  · have q := Arr.AccIs.foldCols h Prod.fst (fun (r : Arr × Flg) n =>
        let c := cellRun (!r.1.float) sat metric fa r.1.live.fmt row (r.1.live.col n k) (r.1.accAt i n).toNat
        (r.1.setAcc i n (BitVec.ofNat 32 c.1), r.2 ||| c.2)) i
      (fun m => BitVec.ofNat 32 (cellRun (!a.float) sat metric fa a.live.fmt row (a.live.col m k) (a.accAt i m).toNat).1)
      (fun t f n hn q e => by
        rw [← e, ← q.at_ i n hn, ← show t.1.float = a.float by rw [q.rest], ← show t.1.live = a.live by rw [q.rest]])
      (t := (a, 0)) rfl (le_refl 128)
    exact q.congr fun j m hm => by simp [hm]

/-- Rows of activations through the weights (R265, R267). -/
theorem Arr.feedRows_acc {a : Arr} (h : Sparse.wf a.acc 0 = true) (sat : Bool) (metric : Nat) (fa : Ty) (k : Nat) (row : Nat → ActRow)
    {l : List Nat} (hl : l.Nodup) (f : Flg) :
    a.AccIs (l.foldl (fun (r : Arr × Flg) i =>
        let y := r.1.feedRow sat metric fa k i (row i)
        (y.1, r.2 ||| y.2)) (a, f)).1 fun j m =>
      if j ∈ l then
        if a.live.poison then poisonValue a.float
        else BitVec.ofNat 32 (cellRun (!a.float) sat metric fa a.live.fmt (row j) (a.live.col m k) (a.accAt j m).toNat).1
      else a.accAt j m :=
  Arr.AccIs.foldRows h (Prod.fst : Arr × Flg → Arr) (fun (r : Arr × Flg) i =>
      let y := r.1.feedRow sat metric fa k i (row i)
      (y.1, r.2 ||| y.2))
    (fun i m => if a.live.poison then poisonValue a.float
      else BitVec.ofNat 32 (cellRun (!a.float) sat metric fa a.live.fmt (row i) (a.live.col m k) (a.accAt i m).toNat).1)
    (fun t f i q e => (Arr.feedRow_acc q.wf sat metric fa k i (row i)).congr fun j m hm => by
      rw [q.at_ i m hm, e m hm, show t.1.float = a.float by rw [q.rest], show t.1.live = a.live by rw [q.rest]])
    hl (t := (a, f)) rfl

/-! ### Integer cells -/

theorem ofNat_lowBits (w : Nat) (x : Int) : BitVec.ofNat w (lowBits w x) = BitVec.ofInt w x := by
  refine BitVec.eq_of_toInt_eq ?_
  have hp : (0 : Int) ≤ x % (2 ^ w : Nat) := Int.emod_nonneg _ (by positivity)
  rw [BitVec.toInt_ofInt, ← Int.emod_bmod x (2 ^ w)]
  unfold lowBits
  rw [← BitVec.ofInt_natCast, BitVec.toInt_ofInt, Int.toNat_of_nonneg hp]

theorem ofInt_toSigned (w v : Nat) : BitVec.ofInt w (toSigned w v) = BitVec.ofNat w v := by
  rw [← ofNat_lowBits]
  refine BitVec.eq_of_toNat_eq ?_
  unfold toSigned lowBits
  simp only [BitVec.toNat_ofNat]
  split
  · rw [← Int.natCast_emod, Int.toNat_natCast]; simp
  · rw [Int.sub_emod_right, ← Int.natCast_emod, Int.toNat_natCast]; simp

/-- One unsaturated integer step of a product (R63). -/
theorem cellStepInt_dot (acc : Nat) (a w : Int) :
    BitVec.ofNat 32 (cellStepInt false 0 acc a w).1 = BitVec.ofNat 32 acc + BitVec.ofInt 32 (a * w) := by
  have e : (cellStepInt false 0 acc a w).1 = lowBits 32 (toSigned 32 acc + a * w) := by
    unfold cellStepInt reduce
    simp only [Bool.false_eq_true, if_false]
    split <;> rfl
  rw [e, ofNat_lowBits, BitVec.ofInt_add, ofInt_toSigned]

/-- A cell in integer mode without saturation: the old value and the dot product, modulo 2^32 (R63). -/
theorem cellRun_dot (metric : Nat) (hm : metric = 0) (fa fw : Ty) (x : Nat → Nat) {n : Nat} (scales : List Nat)
    (hs : scales.length = n) (w : Weights) (j acc : Nat) :
    BitVec.ofNat 32 (cellRun true false metric fa fw ⟨(List.range n).map x, scales⟩ (w.col j n) acc).1
      = BitVec.ofNat 32 acc + BitVec.ofInt 32 ((List.range n).map fun k =>
          intVal fa (x k) * intVal fw (Sparse.read w.w 0 (128 * k + j)).toNat).sum := by
  subst hm
  have e : (((List.range n).map x).zip scales).zip (w.col j n) = (List.range n).map fun k =>
      ((x k, scales.getD k 0), ((Sparse.read w.w 0 (128 * k + j)).toNat, (Sparse.read w.scale 0x3C00 (128 * k + j)).toNat)) := by
    refine List.ext_getElem (by simp [Weights.col, hs]) fun k h1 h2 => ?_
    simp only [List.length_map, List.length_range] at h2
    have hk : k < scales.length := by omega
    simp [Weights.col, hk]
  unfold cellRun
  rw [e, List.foldl_map]
  simp only [if_true]
  clear e hs
  induction n with
  | zero => simp
  | succ n ih =>
    rw [List.range_succ, List.foldl_append, List.foldl_cons, List.foldl_nil, cellStepInt_dot, ih, List.map_append, List.sum_append,
      BitVec.ofInt_add, List.map_singleton, List.sum_singleton, BitVec.add_assoc]

/-! ### Drains -/

theorem zip_range_flatMap {α β : Type} (f : Nat → α) (g : Nat × α → List β) (n : Nat) :
    ((List.range n).zip ((List.range n).map f)).flatMap g = (List.range n).flatMap fun k => g (k, f k) := by
  induction n with
  | zero => rfl
  | succ n ih =>
    rw [List.range_succ, List.map_append, List.zip_append (by simp), List.flatMap_append, List.flatMap_append, ih]
    rfl

/-- A row whose first columns are set to zero. -/
theorem Arr.clearCols_acc {a : Arr} (h : Sparse.wf a.acc 0 = true) (i : Nat) {k : Nat} (hk : k ≤ 128) :
    a.AccIs ((List.range k).foldl (fun b n => b.setAcc i n 0) a) fun j m => if j = i ∧ m < k then 0 else a.accAt j m :=
  Arr.AccIs.foldCols h (fun b : Arr => b) (fun b n => b.setAcc i n 0) i (fun _ => 0) (fun _ _ _ _ _ _ => rfl) rfl hk

theorem wordK_le (o : Op) : wordK o ≤ 128 := by
  unfold wordK bits
  omega

theorem wordM_le (o : Op) : wordM o ≤ 128 := by
  unfold wordM bits
  omega

/-- The rows of a drain, row by row: `P b l` is what holds of the array `b` after the rows `l`. -/
theorem drainRows_each {d8 : Bool} {k : ArrKind} {a : Arr} {t : Slot} {o : Op} (P : Arr → List Nat → Prop)
    (puts : Nat → List (Nat × Byte)) (h0 : P a [])
    (hs : ∀ b l i, P b l → i ∉ l → (drainRow d8 k b t o i).2.1 = puts i ∧ P (drainRow d8 k b t o i).1 (l ++ [i]))
    {l : List Nat} (hl : l.Nodup) :
    P (drainRows d8 k a t o l).1 l ∧ (drainRows d8 k a t o l).2.1 = l.flatMap puts := by
  induction l using List.reverseRecOn with
  | nil => exact ⟨h0, rfl⟩
  | append_singleton l i ih =>
    obtain ⟨hl1, -, hd⟩ := List.nodup_append.mp hl
    obtain ⟨q, p⟩ := ih hl1
    have e : drainRows d8 k a t o (l ++ [i]) = (let r := drainRows d8 k a t o l
        let y := drainRow d8 k r.1 t o i
        (y.1, r.2.1 ++ y.2.1, r.2.2 ||| y.2.2)) := by
      unfold drainRows
      rw [List.foldl_append]
      rfl
    obtain ⟨hp, hq⟩ := hs _ l i q fun hm => hd i hm i (List.mem_singleton_self i) rfl
    rw [e]
    refine ⟨hq, ?_⟩
    dsimp only
    rw [p, hp, List.flatMap_append, List.flatMap_singleton]

/-- Rows of `mdrn` (R266). -/
theorem drainRows_drn {d8 : Bool} {a : Arr} (h : Sparse.wf a.acc 0 = true) (t : Slot) {o : Op} {dst : Ty}
    (hd : drainFmt d8 o = some dst) {l : List Nat} (hl : l.Nodup) :
    (a.AccIs (drainRows d8 .drn a t o l).1 fun j m => if j ∈ l ∧ wordClear o = true ∧ m < wordK o then 0 else a.accAt j m)
    ∧ (drainRows d8 .drn a t o l).2.1 = l.flatMap fun i => if bitAt o.va 3 then [] else
        (List.range (wordK o)).flatMap fun k => t.put i k dst.width (drainElem a.float dst o.fmt (a.accAt i k)).1 := by
  refine drainRows_each (P := fun b l => a.AccIs b fun j m => if j ∈ l ∧ wordClear o = true ∧ m < wordK o then 0 else a.accAt j m)
    _ ((Arr.AccIs.self h).congr fun j m _ => by simp) (fun b l i q hi => ?_) hl
  have fl : b.float = a.float := by rw [q.rest]
  unfold drainRow
  simp only [hd]
  constructor
  · split
    · rfl
    · unfold Arr.drnRow
      rw [List.length_map, List.length_range, zip_range_flatMap]
      refine List.flatMap_congr fun k hk => ?_
      rw [fl, q.at_ i k (lt_of_lt_of_le (List.mem_range.mp hk) (wordK_le o)), if_neg fun c => hi c.1]
  · by_cases hc : wordClear o = true
    · rw [if_pos hc]
      refine (q.trans (Arr.clearCols_acc q.wf i (wordK_le o))).congr fun j m hm => ?_
      rw [q.at_ j m hm]
      by_cases hj : j = i <;> simp [hj, hc, hi]
    · rw [if_neg hc]
      exact q.congr fun j m _ => by simp [hc]

/-- Rows of `mdrn` with an invalid output type drain nothing (R266). -/
theorem drainRows_none {d8 : Bool} {k : ArrKind} (hk : k = .drn ∨ k = .cdrn) (a : Arr) (t : Slot) {o : Op}
    (hd : drainFmt d8 o = none) {l : List Nat} (hl : l.Nodup) :
    (drainRows d8 k a t o l).1 = a ∧ (drainRows d8 k a t o l).2.1 = [] := by
  have := drainRows_each (d8 := d8) (k := k) (a := a) (t := t) (o := o) (P := fun b _ => b = a) (fun _ => []) rfl
    (fun b l i q _ => by
      subst q
      unfold drainRow
      rcases hk with rfl | rfl <;> simp [hd]) hl
  exact ⟨this.1, by rw [this.2]; simp⟩

theorem Arr.bestBytes_congr {a b : Arr} {o : Op} {i : Nat} (hf : b.float = a.float) (hm : b.metric = a.metric)
    (h : ∀ m, m < 128 → b.accAt i m = a.accAt i m) : b.bestBytes o i = a.bestBytes o i := by
  have hl : ((List.range (wordK o)).map fun k => (b.accAt i k, k)) = (List.range (wordK o)).map fun k => (a.accAt i k, k) :=
    List.map_congr_left fun k hk => by rw [h k (lt_of_lt_of_le (List.mem_range.mp hk) (wordK_le o))]
  unfold Arr.bestBytes bestRecord bestSmall
  rw [hl, hf, hm]

/-- Rows of `mbest` (R268). -/
theorem drainRows_best {d8 : Bool} {a : Arr} (h : Sparse.wf a.acc 0 = true) (t : Slot) (o : Op) {l : List Nat} (hl : l.Nodup) :
    (a.AccIs (drainRows d8 .best a t o l).1 fun j m => if j ∈ l ∧ bitAt o.va 5 = true then 0 else a.accAt j m)
    ∧ (drainRows d8 .best a t o l).2.1 = l.flatMap fun i => if bitAt o.va 3 then [] else
        (slotAddrs (bestSize o * i % 32768) (a.bestBytes o i).length).zip (a.bestBytes o i) := by
  refine drainRows_each (P := fun b l => a.AccIs b fun j m => if j ∈ l ∧ bitAt o.va 5 = true then 0 else a.accAt j m)
    _ ((Arr.AccIs.self h).congr fun j m _ => by simp) (fun b l i q hi => ?_) hl
  have e : b.bestBytes o i = a.bestBytes o i := Arr.bestBytes_congr (by rw [q.rest]) (by rw [q.rest]) fun m hm => by
    rw [q.at_ i m hm, if_neg fun c => hi c.1]
  unfold drainRow
  simp only [e, true_and]
  by_cases hc : bitAt o.va 5 = true
  · rw [if_pos hc]
    have hw := Arr.clearRow_wf q.wf i
    refine ⟨by unfold Arr.clearRow; rw [q.rest], hw, fun j m hm => ?_⟩
    rw [Arr.accAt_clearRow q.wf hm, q.at_ j m hm]
    by_cases hj : j = i <;> simp [hj, hc]
  · rw [if_neg hc]
    exact q.congr fun j m _ => by simp [hc]

/-- What `mcdrn` leaves of an array. -/
structure Arr.Drained (a b : Arr) (gone : Nat → Prop) [DecidablePred gone] : Prop where
  rest : b = { a with acc := b.acc, cnt := b.cnt }
  wf : Sparse.wf b.acc 0 = true ∧ Sparse.wf b.cnt 0 = true
  acc : ∀ i n, n < 128 → b.accAt i n = if gone i then 0 else a.accAt i n
  cnt : ∀ i, Sparse.read b.cnt 0 i = if gone i then 0 else Sparse.read a.cnt 0 i

/-- Centroids of `mcdrn` (R270). -/
theorem drainRows_cdrn {d8 : Bool} {a : Arr} (h : Sparse.wf a.acc 0 = true) (hn : Sparse.wf a.cnt 0 = true) (t : Slot) {o : Op}
    {dst : Ty} (hd : drainFmt d8 o = some dst) {l : List Nat} (hl : l.Nodup) :
    a.Drained (drainRows d8 .cdrn a t o l).1 (fun j => j ∈ l ∧ wordClear o = true)
    ∧ (drainRows d8 .cdrn a t o l).2.1 = l.flatMap fun c => if Sparse.read a.cnt 0 c = 0 then [] else
        (List.range (wordM o)).flatMap fun j => t.put j c dst.width
          (if bitAt o.va 5 then drainElem a.float dst o.fmt (a.accAt c j)
            else meanElem a.float dst o.fmt (a.accAt c j) (Sparse.read a.cnt 0 c)).1 := by
  refine drainRows_each (P := fun b l => a.Drained b fun j => j ∈ l ∧ wordClear o = true) _
    ⟨rfl, ⟨h, hn⟩, fun i n _ => by simp, fun i => by simp⟩ (fun b l i q hi => ?_) hl
  have fl : b.float = a.float := by rw [q.rest]
  have hc' : Sparse.read b.cnt 0 i = Sparse.read a.cnt 0 i := by rw [q.cnt, if_neg fun c => hi c.1]
  unfold drainRow
  simp only [hd]
  constructor
  · unfold Arr.cdrnRow
    dsimp only
    rw [hc']
    split
    · rfl
    · rw [List.length_map, List.length_range, zip_range_flatMap]
      refine List.flatMap_congr fun k hk => ?_
      rw [fl, q.acc i k (lt_of_lt_of_le (List.mem_range.mp hk) (wordM_le o))]
      simp only [hi, false_and, if_false]
  · by_cases hc : wordClear o = true
    · rw [if_pos hc]
      refine ⟨?_, ⟨Arr.clearRow_wf q.wf.1 i, Sparse.okFrom_erase q.wf.2⟩, fun j m hm => ?_, fun j => ?_⟩
      · unfold Arr.clearRow
        rw [q.rest]
      · have := Arr.accAt_clearRow q.wf.1 (i := i) (j := j) hm
        unfold Arr.accAt at this ⊢
        rw [this]
        have e := q.acc j m hm
        unfold Arr.accAt at e
        rw [e]
        by_cases hj : j = i <;> simp [hj, hc]
      · dsimp only
        rw [Sparse.read_erase q.wf.2, q.cnt]
        by_cases hj : j = i <;> simp [hj, hc]
    · rw [if_neg hc]
      exact ⟨q.rest, q.wf, fun j m hm => by rw [q.acc j m hm]; simp [hc], fun j => by rw [q.cnt]; simp [hc]⟩

/-! ### Centroid sums -/

/-- What `mcent` leaves of an array: the sums of each centroid, and its count. -/
structure Arr.Summed (a b : Arr) (f : Nat → Nat → BitVec 32) (g : Nat → BitVec 32) : Prop where
  rest : b = { a with acc := b.acc, cnt := b.cnt }
  wf : Sparse.wf b.acc 0 = true ∧ Sparse.wf b.cnt 0 = true
  acc : ∀ q n, q < 128 → n < 128 → b.accAt q n = f q n
  cnt : ∀ q, q < 128 → Sparse.read b.cnt 0 q = g q

theorem centStep_fst (t : Slot) (fmt : Ty) (q i : Nat) (r : Arr × Flg) (j : Nat) :
    (centStep t fmt q i r j).1 = r.1.setAcc q j (BitVec.ofNat 32 (cellStep (r.1.accAt q j).toNat
      (elemVal fmt false (t.elem i j fmt.width), sigFlag (elemVal fmt false (t.elem i j fmt.width)))).1) := by
  unfold centStep
  rfl

/-- A vector added into the sums of a centroid (R269). -/
theorem Arr.addTo_summed {a : Arr} (h : Sparse.wf a.acc 0 = true) (hn : Sparse.wf a.cnt 0 = true) (t : Slot) (fmt : Ty)
    {k : Nat} (hk : k ≤ 128) (i c : Nat) :
    let v (j : Nat) : Val := elemVal fmt false (t.elem i j fmt.width)
    a.Summed (a.addTo t fmt k i c).1
      (fun q j => if q = c ∧ j < k then BitVec.ofNat 32 (cellStep (a.accAt q j).toNat (v j, sigFlag (v j))).1
        else a.accAt q j)
      (fun q => if q = c then satInc (Sparse.read a.cnt 0 q) else Sparse.read a.cnt 0 q) := by
  intro v
  unfold Arr.addTo
  split
  · refine ⟨rfl, ⟨h, hn⟩, fun q n hq _ => ?_, fun q hq => ?_⟩
    · rw [if_neg (by omega)]
    · rw [if_neg (by omega)]
  · have q := Arr.AccIs.foldCols h (Prod.fst : Arr × Flg → Arr) (centStep t fmt c i) c
      (fun j => BitVec.ofNat 32 (cellStep (a.accAt c j).toNat (v j, sigFlag (v j))).1)
      (fun u f n hn q e => by rw [centStep_fst, ← e, ← q.at_ c n hn]) (t := (a, 0)) rfl hk
    generalize (List.range k).foldl (centStep t fmt c i) (a, 0) = r at q ⊢
    have e : r.1.cnt = a.cnt := by rw [q.rest]
    dsimp only
    refine ⟨by rw [q.rest], ⟨q.wf, Sparse.wf_write _ _ (by rw [e]; exact hn)⟩, fun z n _ hz => ?_, fun z _ => ?_⟩
    · have := q.at_ z n hz
      unfold Arr.accAt at this ⊢
      rw [this]
      by_cases hc : z = c <;> simp [hc]
    · dsimp only
      rw [e, Sparse.read_write _ _ _ hn]
      by_cases hc : z = c <;> simp [hc]

/-- Rows of `mcent`: each centroid takes the vectors assigned to it, in row order (R269). -/
theorem Arr.centRows_summed {a : Arr} (h : Sparse.wf a.acc 0 = true) (hn : Sparse.wf a.cnt 0 = true) (t : Slot) (fmt : Ty)
    (base : Nat) {k : Nat} (hk : k ≤ 128) (got : List (Nat × Byte)) (l : List Nat) (f : Flg) :
    let v (i j : Nat) : Val := elemVal fmt false (t.elem i j fmt.width)
    let mine (q : Nat) : List Nat := l.filter fun i => centroidOf got base i == q
    a.Summed (l.foldl (fun (r : Arr × Flg) i =>
        let y := r.1.centRow t fmt base k i got
        (y.1, r.2 ||| y.2)) (a, f)).1
      (fun q j => if j < k then (mine q).foldl (fun w i => BitVec.ofNat 32 (cellStep w.toNat (v i j, sigFlag (v i j))).1) (a.accAt q j)
        else a.accAt q j)
      (fun q => (mine q).foldl (fun n _ => satInc n) (Sparse.read a.cnt 0 q)) := by
  intro v mine
  induction l using List.reverseRecOn with
  | nil => exact ⟨rfl, ⟨h, hn⟩, fun q n _ _ => by simp [mine], fun q _ => rfl⟩
  | append_singleton l i ih =>
    rw [List.foldl_append, List.foldl_cons, List.foldl_nil]
    generalize l.foldl (fun (r : Arr × Flg) i =>
        let y := r.1.centRow t fmt base k i got
        (y.1, r.2 ||| y.2)) (a, f) = r at ih ⊢
    have s := Arr.addTo_summed ih.wf.1 ih.wf.2 t fmt hk i (centroidOf got base i)
    unfold Arr.centRow
    refine ⟨by rw [s.rest, ih.rest], s.wf, fun q n hq hn' => ?_, fun q hq => ?_⟩
    · rw [s.acc q n hq hn', ih.acc q n hq hn']
      dsimp only [mine]
      rw [List.filter_append, List.foldl_append]
      by_cases hc : centroidOf got base i = q
      · by_cases hj : n < k <;> simp [hc, hj, v]
      · by_cases hj : n < k <;> simp [hc, Ne.symm hc, hj]
    · rw [s.cnt q hq, ih.cnt q hq]
      dsimp only [mine]
      rw [List.filter_append, List.foldl_append]
      by_cases hc : centroidOf got base i = q
      · simp [hc]
      · simp [hc, Ne.symm hc]

/-! ### Weights -/

/-- What loading rows leaves of the weights: `g` gives the weight at a row and a column, `h` its scale. -/
structure Weights.Reads (w v : Weights) (g h : Nat → Nat → BitVec 16) : Prop where
  rest : v = { w with w := v.w, scale := v.scale }
  wf : v.wf = true
  w_ : ∀ i n, n < 128 → Sparse.read v.w 0 (128 * i + n) = g i n
  scale_ : ∀ i n, n < 128 → Sparse.read v.scale 0x3C00 (128 * i + n) = h i n

/-- A row of weights. -/
theorem Weights.Reads.row {w v : Weights} {g h : Nat → Nat → BitVec 16} (r : w.Reads v g h) (k : Nat) (x y : Nat → BitVec 16)
    {c : Nat} (hc : c ≤ 128) :
    w.Reads ((List.range c).foldl (fun w j =>
        { w with w := Sparse.write w.w 0 (128 * k + j) (x j), scale := Sparse.write w.scale 0x3C00 (128 * k + j) (y j) }) v)
      (fun i m => if i = k ∧ m < c then x m else g i m) (fun i m => if i = k ∧ m < c then y m else h i m) := by
  induction c with
  | zero => exact ⟨r.rest, r.wf, fun i n hn => by simpa using r.w_ i n hn, fun i n hn => by simpa using r.scale_ i n hn⟩
  | succ c ih =>
    have q := ih (by omega)
    rw [List.range_succ, List.foldl_append, List.foldl_cons, List.foldl_nil]
    generalize (List.range c).foldl (fun (w : Weights) j =>
        { w with w := Sparse.write w.w 0 (128 * k + j) (x j), scale := Sparse.write w.scale 0x3C00 (128 * k + j) (y j) }) v = u
      at q ⊢
    have hw := q.wf
    simp only [Weights.wf, Bool.and_eq_true] at hw
    have key (i m : Nat) (hm : m < 128) : (128 * i + m = 128 * k + c ↔ i = k ∧ m = c) := by omega
    refine ⟨by dsimp only; rw [q.rest], ?_, fun i m hm => ?_, fun i m hm => ?_⟩
    · simp only [Weights.wf, Bool.and_eq_true]
      exact ⟨Sparse.wf_write _ _ hw.1, Sparse.wf_write _ _ hw.2⟩
    · dsimp only
      rw [Sparse.read_write _ _ _ hw.1, q.w_ i m hm, if_congr (key i m hm) rfl rfl]
      by_cases hi : i = k <;> by_cases hmc : m = c
      · simp [hi, hmc]
      · simp [hi, hmc, show (m < c + 1) ↔ m < c by omega]
      · simp [hi]
      · simp [hi]
    · dsimp only
      rw [Sparse.read_write _ _ _ hw.2, q.scale_ i m hm, if_congr (key i m hm) rfl rfl]
      by_cases hi : i = k <;> by_cases hmc : m = c
      · simp [hi, hmc]
      · simp [hi, hmc, show (m < c + 1) ↔ m < c by omega]
      · simp [hi]
      · simp [hi]

theorem foldl_zip_range {α β σ : Type} (f : σ → Nat × α × β → σ) (x : Nat → α) (y : List β) (d : β) (n : Nat) (hy : y.length = n) (s : σ) :
    ((List.range n).zip (((List.range n).map x).zip y)).foldl f s = (List.range n).foldl (fun s j => f s (j, x j, y.getD j d)) s := by
  have e : (List.range n).zip (((List.range n).map x).zip y) = (List.range n).map fun j => (j, x j, y.getD j d) := by
    refine List.ext_getElem (by simp [hy]) fun j h1 h2 => ?_
    simp only [List.length_map, List.length_range] at h2
    have hj : j < y.length := by omega
    simp [hj]
  rw [e, List.foldl_map]

/-- Rows of a `mwld` into the shadow weights (R264). -/
theorem Arr.loadRows_reads {a : Arr} (h : a.shadow.wf = true) (t : Slot) (fmt : Ty) (scales : List Nat) {n : Nat} (hn : n ≤ 128)
    {rows : List Nat} (first : Nat) (hf : rows.headD 0 = first ∨ rows = [])
    (hsc : ∀ k ∈ rows, (streamRow t fmt scales n first k).scales.length = n) :
    let b := a.loadRows t fmt scales n rows
    b = { a with shadow := b.shadow }
    ∧ a.shadow.Reads b.shadow
      (fun k j => if k ∈ rows ∧ j < n then BitVec.ofNat 16 (t.elem k j fmt.width) else Sparse.read a.shadow.w 0 (128 * k + j))
      (fun k j => if k ∈ rows ∧ j < n then BitVec.ofNat 16 ((streamRow t fmt scales n first k).scales.getD j 0)
        else Sparse.read a.shadow.scale 0x3C00 (128 * k + j)) := by
  intro b
  refine ⟨rfl, ?_⟩
  have e : b.shadow = rows.foldl (fun w k => (List.range n).foldl (fun w j =>
      { w with w := Sparse.write w.w 0 (128 * k + j) (BitVec.ofNat 16 (t.elem k j fmt.width))
               scale := Sparse.write w.scale 0x3C00 (128 * k + j)
                 (BitVec.ofNat 16 ((streamRow t fmt scales n first k).scales.getD j 0)) }) w) a.shadow := by
    dsimp only [b, Arr.loadRows]
    refine List.foldl_ext _ _ _ fun w k hk => ?_
    have hr : rows.headD 0 = first := hf.resolve_right (List.ne_nil_of_mem hk)
    rw [hr]
    exact foldl_zip_range _ _ _ 0 n (hsc k hk) w
  rw [e]
  clear hf e b
  induction rows using List.reverseRecOn with
  | nil => exact ⟨rfl, h, fun i m _ => by simp, fun i m _ => by simp⟩
  | append_singleton l i ih =>
    have q := (ih fun k hk => hsc k (List.mem_append_left _ hk)).row i (fun j => BitVec.ofNat 16 (t.elem i j fmt.width))
      (fun j => BitVec.ofNat 16 ((streamRow t fmt scales n first i).scales.getD j 0)) hn
    rw [List.foldl_append, List.foldl_cons, List.foldl_nil]
    refine ⟨q.rest, q.wf, fun k m hm => ?_, fun k m hm => ?_⟩
    · rw [q.w_ k m hm]
      by_cases hk : k = i <;> by_cases hmn : m < n <;> simp [hk, hmn]
    · rw [q.scale_ k m hm]
      by_cases hk : k = i <;> by_cases hmn : m < n <;> simp [hk, hmn]

/-! ### Scales -/

theorem scaleRun_length (e : Nat) (get : Nat → Byte) (t : ScaleAt) (js : List Nat) : (scaleRun e get t js).1.length = js.length := by
  unfold scaleRun
  induction js using List.reverseRecOn with
  | nil => rfl
  | append_singleton l j ih =>
    rw [List.foldl_append, List.foldl_cons, List.foldl_nil, List.length_append, ih]
    simp

/-- A row of a stream has a scale for each of its elements (R57). -/
theorem streamRow_scales_length (k : ArrKind) (o : Op) (fmt : Ty) (get : Nat → Byte) (t : Slot) {upto i : Nat} (h0 : o.steps ≤ i)
    (h1 : i < upto) : (streamRow t fmt (rowScales k o fmt get upto).1 (rowLen k o) o.steps i).scales.length = rowLen k o := by
  unfold streamRow
  dsimp only
  split
  · exact List.length_replicate
  · rename_i hne
    unfold rowScales at hne ⊢
    split
    · rename_i hr
      dsimp only
      rw [List.length_take, List.length_drop, scaleRun_length, List.length_drop, List.length_range]
      obtain ⟨y, rfl⟩ := Nat.exists_eq_add_of_le h0
      obtain ⟨z, rfl⟩ := Nat.exists_eq_add_of_lt h1
      rw [Nat.add_sub_cancel_left, show (o.steps + y + z + 1) * rowLen k o = o.steps * rowLen k o + (y * rowLen k o
        + (z * rowLen k o + rowLen k o)) by ring, Nat.add_sub_cancel_left, Nat.add_sub_cancel_left]
      omega
    · rename_i hr
      rw [if_neg hr] at hne
      exact absurd rfl hne

end Sys2Proof.Machine
end

