-- ==== Sys2Proof/Laws/Decode.lean ====
section
/-! SUPPORT. Fields of encoded syllables: what `fld` reads of each encoding form, and the codes of operands. -/

namespace Sys2Proof.Laws

open Sys2Proof

/-! ### Codes of operands -/

theorem src_lt (a : Src) : a.code < 32 := by cases a <;> simp only [Src.code] <;> omega

theorem dst_lt (d : Dst) : d.code < 32 := by cases d <;> simp only [Dst.code] <;> omega

theorem ty_lt (t : Ty) : t.code < 16 := by cases t <;> decide

theorem mod_lt (m : Mod) : m.code < 8 := by cases m <;> decide

theorem bool_lt (b : Bool) : b.toNat < 2 := by cases b <;> decide

theorem fs_lt (f : FlagSet) : f.code < 3 := by cases f <;> decide

theorem btok_lt (t : TokState) : t.btokCode < 4 := by cases t <;> decide

theorem special_lt (t : Special) : t.code < 32 := by cases t <;> decide

theorem ctl_lt (t : CtlReg) : t.code < 32 := by cases t <;> decide

theorem decSrc_code (a : Src) : decSrc a.code = a := by
  cases a with
  | named n => revert n; decide
  | queue n => revert n; decide

theorem decDst_code (d : Dst) : decDst d.code = .ok d := by
  cases d with
  | named n => revert n; decide
  | push => rfl

theorem decMod_code (m : Mod) : decMod m.code = m := by cases m <;> rfl

theorem decTy_code {ok : Ty → Bool} {t : Ty} (h : ok t = true) : decTy ok t.code = .ok t := by
  cases t <;> simp [decTy, Ty.ofCode?, Ty.code, h]

theorem decFs_code (f : FlagSet) : decFs f.code = .ok f := by cases f <;> rfl

theorem decBtok_code (t : TokState) : decBtok t.btokCode = t := by cases t <;> rfl

theorem decSpecial_code (t : Special) : decSpecial t.code = .ok t := by cases t <;> rfl

theorem decCtl_code (t : CtlReg) : decCtlReg t.code = .ok t := by cases t <;> rfl

theorem bool_code (b : Bool) : (b.toNat == 1) = b := by cases b <;> rfl

theorem fin_code {n : Nat} [NeZero n] (x : Fin n) : Fin.ofNat n x.val = x := Fin.ext (Nat.mod_eq_of_lt x.isLt)

theorem bv_code {n : Nat} (x : BitVec n) : BitVec.ofNat n x.toNat = x := BitVec.eq_of_toNat_eq (by simp)

/-! ### Fields of the encoding forms -/

/-- The field above bit 31. -/
theorem fld_high {W lo hi : Nat} (hW : W = lo + 2 ^ 32 * hi) (h : lo < 2 ^ 32) (k n : Nat) :
    fld W (32 + k) n = fld hi k n := by
  subst hW
  unfold fld
  rw [Nat.pow_add, ← Nat.div_div_eq_div_mul]
  have : (lo + 2 ^ 32 * hi) / 2 ^ 32 = hi := by omega
  rw [this]

/-- The fields of a standard form (R80), whatever stands above bit 31. -/
structure LoFields (W M m d a b t r l st : Nat) : Prop where
  s : fld W 0 1 = st
  l : fld W 1 1 = l
  major : fld W 2 5 = M
  minor : fld W 7 5 = m
  d : fld W 12 5 = d
  a : fld W 17 5 = a
  b : fld W 22 5 = b
  t : fld W 27 4 = t
  r : fld W 31 1 = r

theorem loFields {M m d a b t r l st : Nat} (hi : Nat) (hM : M < 32) (hm : m < 32) (hd : d < 32) (ha : a < 32)
    (hb : b < 32) (ht : t < 16) (hr : r < 2) (hl : l < 2) (hs : st < 2) :
    LoFields (encLo M m d a b t r l + 2 ^ 32 * hi + st) M m d a b t r l st := by
  constructor <;> unfold fld encLo <;> omega

theorem loFields0 {M m d a b t r l st : Nat} (hM : M < 32) (hm : m < 32) (hd : d < 32) (ha : a < 32)
    (hb : b < 32) (ht : t < 16) (hr : r < 2) (hl : l < 2) (hs : st < 2) :
    LoFields (encLo M m d a b t r l + st) M m d a b t r l st := by
  have h := loFields 0 hM hm hd ha hb ht hr hl hs
  rwa [Nat.mul_zero, Nat.add_zero] at h

/-- The spans of several fields of a standard form that decoders read at once. -/
structure LoSpans (W d a b t r : Nat) : Prop where
  s22_10 : fld W 22 10 = b + 32 * t + 512 * r
  s22_9 : fld W 22 9 = b + 32 * t
  s27_5 : fld W 27 5 = t + 16 * r
  s12_20 : fld W 12 20 = d + 32 * a + 1024 * b + 32768 * t + 524288 * r
  s17_15 : fld W 17 15 = a + 32 * b + 1024 * t + 16384 * r
  s22_1 : fld W 22 1 = b % 2
  s23_4 : fld W 23 4 = b / 2
  s26_1 : fld W 26 1 = b / 16
  s22_4 : fld W 22 4 = b % 16

theorem loSpans {M m d a b t r l st : Nat} (hi : Nat) (hM : M < 32) (hm : m < 32) (hd : d < 32) (ha : a < 32)
    (hb : b < 32) (ht : t < 16) (hr : r < 2) (hl : l < 2) (hs : st < 2) :
    LoSpans (encLo M m d a b t r l + 2 ^ 32 * hi + st) d a b t r := by
  constructor <;> unfold fld encLo <;> omega

theorem loSpans0 {M m d a b t r l st : Nat} (hM : M < 32) (hm : m < 32) (hd : d < 32) (ha : a < 32)
    (hb : b < 32) (ht : t < 16) (hr : r < 2) (hl : l < 2) (hs : st < 2) :
    LoSpans (encLo M m d a b t r l + st) d a b t r := by
  have h := loSpans 0 hM hm hd ha hb ht hr hl hs
  rwa [Nat.mul_zero, Nat.add_zero] at h

/-- A standard form is less than 2^32. -/
theorem lo_lt {M m d a b t r l st : Nat} (hM : M < 32) (hm : m < 32) (hd : d < 32) (ha : a < 32)
    (hb : b < 32) (ht : t < 16) (hr : r < 2) (hl : l < 2) (hs : st < 2) : encLo M m d a b t r l + st < 2 ^ 32 := by
  unfold encLo; omega

/-- The bits above bit 31 of a Form VW (R83). -/
def hiNat (ma mb mc c t2 ext : Nat) : Nat := ma + 8 * mb + 64 * mc + 512 * c + 16384 * t2 + 262144 * ext

theorem encHi_eq (ma mb mc c t2 ext : Nat) : encHi ma mb mc c t2 ext = 2 ^ 32 * hiNat ma mb mc c t2 ext := by
  unfold encHi hiNat; omega

/-- The fields of a Form VW above bit 31 and the spans of them that decoders read at once. -/
structure HiFields (W ma mb mc c t2 ext : Nat) : Prop where
  f32_3 : fld W 32 3 = ma
  f35_3 : fld W 35 3 = mb
  f38_3 : fld W 38 3 = mc
  f41_5 : fld W 41 5 = c
  f46_4 : fld W 46 4 = t2
  f50_1 : fld W 50 1 = ext % 2
  f50_2 : fld W 50 2 = ext % 4
  f51_1 : fld W 51 1 = ext / 2 % 2
  f51_9 : fld W 51 9 = ext / 2 % 512
  f51_13 : fld W 51 13 = ext / 2
  f52_12 : fld W 52 12 = ext / 4
  f60_4 : fld W 60 4 = ext / 1024
  f38_26 : fld W 38 26 = mc + 8 * c + 256 * t2 + 4096 * ext
  f35_29 : fld W 35 29 = mb + 8 * mc + 64 * c + 2048 * t2 + 32768 * ext
  f32_32 : fld W 32 32 = ma + 8 * mb + 64 * mc + 512 * c + 16384 * t2 + 262144 * ext
  f35_11 : fld W 35 11 = mb + 8 * mc + 64 * c
  f46_18 : fld W 46 18 = t2 + 16 * ext
  f41_23 : fld W 41 23 = c + 32 * t2 + 512 * ext
  f32_18 : fld W 32 18 = ma + 8 * mb + 64 * mc + 512 * c + 16384 * t2
  f38_13 : fld W 38 13 = mc + 8 * c + 256 * t2 + 4096 * (ext % 2)
  f38_8 : fld W 38 8 = mc + 8 * c

theorem hiFields {lo ma mb mc c t2 ext st : Nat} (hlo : lo + st < 2 ^ 32) (h1 : ma < 8) (h2 : mb < 8) (h3 : mc < 8)
    (h4 : c < 32) (h5 : t2 < 16) (h6 : ext < 16384) :
    HiFields (lo + encHi ma mb mc c t2 ext + st) ma mb mc c t2 ext := by
  have e := fld_high (W := lo + encHi ma mb mc c t2 ext + st) (lo := lo + st) (hi := hiNat ma mb mc c t2 ext)
    (by rw [encHi_eq]; omega) hlo
  constructor
  · rw [e 0 3]; unfold fld hiNat; omega
  · rw [e 3 3]; unfold fld hiNat; omega
  · rw [e 6 3]; unfold fld hiNat; omega
  · rw [e 9 5]; unfold fld hiNat; omega
  · rw [e 14 4]; unfold fld hiNat; omega
  · rw [e 18 1]; unfold fld hiNat; omega
  · rw [e 18 2]; unfold fld hiNat; omega
  · rw [e 19 1]; unfold fld hiNat; omega
  · rw [e 19 9]; unfold fld hiNat; omega
  · rw [e 19 13]; unfold fld hiNat; omega
  · rw [e 20 12]; unfold fld hiNat; omega
  · rw [e 28 4]; unfold fld hiNat; omega
  · rw [e 6 26]; unfold fld hiNat; omega
  · rw [e 3 29]; unfold fld hiNat; omega
  · rw [e 0 32]; unfold fld hiNat; omega
  · rw [e 3 11]; unfold fld hiNat; omega
  · rw [e 14 18]; unfold fld hiNat; omega
  · rw [e 9 23]; unfold fld hiNat; omega
  · rw [e 0 18]; unfold fld hiNat; omega
  · rw [e 6 13]; unfold fld hiNat; omega
  · rw [e 6 8]; unfold fld hiNat; omega

/-- The immediate of Form L (R82) and of an offset access (R110). -/
theorem imm32_field {lo st : Nat} (hlo : lo + st < 2 ^ 32) (i : BitVec 32) :
    fld (lo + 2 ^ 32 * i.toNat + st) 32 32 = i.toNat := by
  have e := fld_high (W := lo + 2 ^ 32 * i.toNat + st) (lo := lo + st) (hi := i.toNat) (by omega) hlo 0 32
  have h := i.isLt
  exact e.trans (by unfold fld; omega)

/-- The fields of a local atomic above bit 31 (R115). -/
structure AmoFields (W c cls off : Nat) : Prop where
  f32_10 : fld W 32 10 = 32 * c
  f32_5 : fld W 32 5 = 0
  f37_5 : fld W 37 5 = c
  f42_2 : fld W 42 2 = 0
  f44_4 : fld W 44 4 = cls
  f48_16 : fld W 48 16 = off

theorem amoFields {lo c cls off st : Nat} (hlo : lo + st < 2 ^ 32) (hc : c < 32) (hk : cls < 16) (ho : off < 65536) :
    AmoFields (lo + 2 ^ 37 * c + 2 ^ 44 * cls + 2 ^ 48 * off + st) c cls off := by
  have e := fld_high (W := lo + 2 ^ 37 * c + 2 ^ 44 * cls + 2 ^ 48 * off + st) (lo := lo + st)
    (hi := 32 * c + 4096 * cls + 65536 * off) (by omega) hlo
  constructor
  · rw [e 0 10]; unfold fld; omega
  · rw [e 0 5]; unfold fld; omega
  · rw [e 5 5]; unfold fld; omega
  · rw [e 10 2]; unfold fld; omega
  · rw [e 12 4]; unfold fld; omega
  · rw [e 16 16]; unfold fld; omega

/-- The common bits of a syllable of the slot BR or RC (R117), and its bits 31 to 12. -/
structure BFields (W M m rest : Nat) : Prop where
  l : fld W 1 1 = 0
  major : fld W 2 5 = M
  minor : fld W 7 5 = m
  rest : ∀ k n, fld W (12 + k) n = fld rest k n

theorem bFields {M m rest st : Nat} (hM : M < 32) (hm : m < 32) (hs : st < 2) :
    BFields (encB M m rest + st) M m rest := by
  refine ⟨?_, ?_, ?_, fun k n => ?_⟩
  · unfold fld encB; omega
  · unfold fld encB; omega
  · unfold fld encB; omega
  · unfold fld
    rw [Nat.pow_add, ← Nat.div_div_eq_div_mul]
    have : (encB M m rest + st) / 2 ^ 12 = rest := by unfold encB; omega
    rw [this]

/-- The fields of majors 19, 20, 22 and 23 below bit 32. -/
structure EFields (W M m top a b c z : Nat) : Prop where
  l : fld W 1 1 = 1
  major : fld W 2 5 = M
  minor : fld W 7 5 = m
  f12_1 : fld W 12 1 = z
  f13_5 : fld W 13 5 = c
  f18_5 : fld W 18 5 = b
  f23_5 : fld W 23 5 = a
  f28_4 : fld W 28 4 = top
  f12_6 : fld W 12 6 = z + 2 * c
  f12_12 : fld W 12 12 = z + 2 * c + 64 * b + 2048 * (a % 2)
  f12_16 : fld W 12 16 = z + 2 * c + 64 * b + 2048 * a
  f12_20 : fld W 12 20 = z + 2 * c + 64 * b + 2048 * a + 65536 * top
  f23_1 : fld W 23 1 = a % 2
  f24_4 : fld W 24 4 = a / 2

theorem deps_lt (k : Deps) : k.code < 2 ^ 32 := by
  unfold Deps.code
  have h0 := k.tc0.isLt; have h1 := k.tc1.isLt; have h2 := k.tc2.isLt; have h3 := k.tp.isLt
  cases k.fold with
  | none => simp only; omega
  | some f => have := f.isLt; simp only; omega

theorem decDeps_of {W : Nat} (k : Deps) (e : ∀ j n, fld W (32 + j) n = fld k.code j n) : decDeps W = .ok k := by
  rcases k with ⟨fo, tp, t2, t1, t0⟩
  have h0 := t0.isLt; have h1 := t1.isLt; have h2 := t2.isLt; have h3 := tp.isLt
  have e0 : fld W 32 6 = t0.val := by rw [e 0 6]; cases fo <;> simp only [fld, Deps.code] <;> omega
  have e1 : fld W 38 6 = t1.val := by rw [e 6 6]; cases fo <;> simp only [fld, Deps.code] <;> omega
  have e2 : fld W 44 6 = t2.val := by rw [e 12 6]; cases fo <;> simp only [fld, Deps.code] <;> omega
  have e3 : fld W 50 6 = tp.val := by rw [e 18 6]; cases fo <;> simp only [fld, Deps.code] <;> omega
  cases fo with
  | none =>
    have e4 : fld W 56 7 = 0 := by rw [e 24 7]; simp only [fld, Deps.code]; omega
    have e5 : fld W 63 1 = 0 := by rw [e 31 1]; simp only [fld, Deps.code]; omega
    simp only [decDeps, e0, e1, e2, e3, e4, e5, fin_code]
    rfl
  | some f =>
    have h4 := f.isLt
    have e4 : fld W 56 7 = f.val := by rw [e 24 7]; simp only [fld, Deps.code]; omega
    have e5 : fld W 63 1 = 1 := by rw [e 31 1]; simp only [fld, Deps.code]; omega
    simp only [decDeps, e0, e1, e2, e3, e4, e5, fin_code]
    rfl

theorem eFields {M m top a b c z st : Nat} (k : Deps) (hM : M < 32) (hm : m < 32) (ht : top < 16) (ha : a < 32)
    (hb : b < 32) (hc : c < 32) (hz : z < 2) (hs : st < 2) : EFields (encE M m top a b c z k + st) M m top a b c z := by
  constructor <;> unfold fld encE <;> omega

theorem eDeps {M m top a b c z st : Nat} (k : Deps) (hM : M < 32) (hm : m < 32) (ht : top < 16) (ha : a < 32)
    (hb : b < 32) (hc : c < 32) (hz : z < 2) (hs : st < 2) : decDeps (encE M m top a b c z k + st) = .ok k :=
  decDeps_of k (fld_high (lo := 2 + 2 ^ 2 * M + 2 ^ 7 * m + 2 ^ 12 * z + 2 ^ 13 * c + 2 ^ 18 * b + 2 ^ 23 * a
    + 2 ^ 28 * top + st) (by unfold encE; omega) (by omega))

/-! ### Small facts of arithmetic that the decoders meet -/

theorem code_div (a : Src) : a.code / 16 < 2 := by have := src_lt a; omega

theorem two_mul_mod (n : Nat) : 2 * n % 2 = 0 := by omega

theorem two_mul_div (n : Nat) : 2 * n / 2 = n := by omega

theorem two_mul_one_mod (n : Nat) : (2 * n + 1) % 2 = 1 := by omega

theorem two_mul_one_div (n : Nat) : (2 * n + 1) / 2 = n := by omega

theorem bv_ne_zero {n : Nat} {x : BitVec n} (h : (x != 0) = true) : (x.toNat != 0) = true := by
  have h1 : x ≠ 0 := by simpa using h
  have h2 : x.toNat ≠ 0 := fun e => h1 (BitVec.eq_of_toNat_eq (by simpa using e))
  simpa using h2

theorem amo_hi (l c k o : Nat) :
    l + 2 ^ 32 * (32 * c + 4096 * k + 65536 * o) = l + 2 ^ 37 * c + 2 ^ 44 * k + 2 ^ 48 * o := by omega

theorem ext_lt (m : VMem) (nb : Nat) (h : nb < 2) : m.ext nb < 16384 := by
  have h1 := m.off9.isLt
  have h2 := m.cls.isLt
  unfold VMem.ext; omega

theorem ext_nb0 (m : VMem) : m.ext 0 % 2 = 0 := by unfold VMem.ext; omega

theorem ext_nb1 (m : VMem) : m.ext 1 % 2 = 1 := by unfold VMem.ext; omega

theorem ext_off0 (m : VMem) : m.ext 0 / 2 % 512 = m.off9.toNat := by
  have h1 := m.off9.isLt
  unfold VMem.ext; omega

theorem ext_off1 (m : VMem) : m.ext 1 / 2 % 512 = m.off9.toNat := by
  have h1 := m.off9.isLt
  unfold VMem.ext; omega

theorem ext_cls0 (m : VMem) : m.ext 0 / 1024 = m.cls.val := by
  have h1 := m.off9.isLt
  unfold VMem.ext; omega

theorem ext_cls1 (m : VMem) : m.ext 1 / 1024 = m.cls.val := by
  have h1 := m.off9.isLt
  unfold VMem.ext; omega

theorem seg0_odd (b : Bool) : (0 + 2 * b.toNat) % 2 = 0 := by omega

theorem seg0_tie (b : Bool) : (0 + 2 * b.toNat) / 2 % 2 = b.toNat := by cases b <;> rfl

theorem seg0_hi (b : Bool) : (0 + 2 * b.toNat) / 4 = 0 := by cases b <;> rfl

theorem seg1_odd (b : Bool) : (1 + 2 * b.toNat) % 2 = 1 := by omega

theorem seg1_tie (b : Bool) : (1 + 2 * b.toNat) / 2 % 2 = b.toNat := by cases b <;> rfl

theorem seg1_hi (b : Bool) : (1 + 2 * b.toNat) / 4 = 0 := by cases b <;> rfl

theorem decRnd_code (r : Option Rnd) : decRnd (rndCode r) = .ok r := by
  cases r with
  | none => rfl
  | some r => cases r <;> rfl

theorem decSat_code (r : SatSel) : decSat r.code = .ok r := by cases r <;> rfl

theorem decFlush_code (r : FlushSel) : decFlush r.code = .ok r := by cases r <;> rfl

theorem rnd_lt (r : Option Rnd) : rndCode r < 8 := by
  cases r with
  | none => decide
  | some r => cases r <;> decide

theorem sat_lt (r : SatSel) : r.code < 4 := by cases r <;> decide

theorem flush_lt (r : FlushSel) : r.code < 4 := by cases r <;> decide

/-! ### The other encoding forms -/

/-- Bits above bit 31 of a number below 2^32. -/
theorem hi_zero {W : Nat} (h : W < 2 ^ 32) : fld W 32 32 = 0 := by unfold fld; omega

/-- The fields of Form I (R81). -/
structure IFields (W m d a imm z : Nat) : Prop where
  l : fld W 1 1 = 0
  major : fld W 2 5 = 2
  minor : fld W 7 5 = m
  d : fld W 12 5 = d
  a : fld W 17 5 = a
  imm : fld W 22 9 = imm
  z : fld W 31 1 = z

theorem iFields {m st : Nat} (hm : m < 32) {z : Bool} {d : Dst} {a : Src} {imm : BitVec 9} (hs : st < 2) :
    IFields (encI m z d a imm + st) m d.code a.code imm.toNat z.toNat := by
  have h1 := dst_lt d
  have h2 := src_lt a
  have h3 := imm.isLt
  have h4 := bool_lt z
  constructor <;> unfold fld encI <;> omega

/-- The fields of a copy syllable (R248). -/
structure CpFields (W m d a b : Nat) : Prop where
  l : fld W 1 1 = 1
  major : fld W 2 5 = 18
  minor : fld W 7 5 = m
  f12_5 : fld W 12 5 = 0
  f12_20 : fld W 12 20 = 32 * b + 1024 * a + 32768 * d
  f17_5 : fld W 17 5 = b
  f22_5 : fld W 22 5 = a
  f27_5 : fld W 27 5 = d

theorem cpFields {m st : Nat} {d a b : Src} (k : Deps) (hm : m < 32) (hs : st < 2) :
    CpFields (encCp m d a b k + st) m d.code a.code b.code := by
  have h1 := src_lt d
  have h2 := src_lt a
  have h3 := src_lt b
  constructor <;> unfold fld encCp <;> omega

theorem cpDeps {m st : Nat} {d a b : Src} (k : Deps) (hm : m < 32) (hs : st < 2) :
    decDeps (encCp m d a b k + st) = .ok k := by
  have h1 := src_lt d
  have h2 := src_lt a
  have h3 := src_lt b
  exact decDeps_of k (fld_high (lo := 2 + 2 ^ 2 * 18 + 2 ^ 7 * m + 2 ^ 17 * b.code + 2 ^ 22 * a.code + 2 ^ 27 * d.code
    + st) (by unfold encCp; omega) (by omega))

/-- The fields of a slot syllable (R259). -/
structure SlotFields (W m o a : Nat) : Prop where
  l : fld W 1 1 = 1
  major : fld W 2 5 = 21
  minor : fld W 7 5 = m
  f12_8 : fld W 12 8 = 0
  f20_5 : fld W 20 5 = a
  o : fld W 25 7 = o
  f12_13 : fld W 12 13 = 256 * a

theorem slotFields {m a st : Nat} (o : Fin 128) (k : Deps) (hm : m < 32) (ha : a < 32) (hs : st < 2) :
    SlotFields (encSlot m o a k + st) m o.val a := by
  have h1 := o.isLt
  constructor <;> unfold fld encSlot <;> omega

theorem slotDeps {m a st : Nat} (o : Fin 128) (k : Deps) (hm : m < 32) (ha : a < 32) (hs : st < 2) :
    decDeps (encSlot m o a k + st) = .ok k := by
  have h1 := o.isLt
  exact decDeps_of k (fld_high (lo := 2 + 2 ^ 2 * 21 + 2 ^ 7 * m + 2 ^ 20 * a + 2 ^ 25 * o.val + st)
    (by unfold encSlot; omega) (by omega))

/-- The fields of a prefix (R84). -/
structure PfxFields (W rnd sat flush clsEn cls tagEn tag : Nat) : Prop where
  l : fld W 1 1 = 0
  major : fld W 2 5 = 0
  rnd : fld W 7 3 = rnd
  sat : fld W 10 2 = sat
  flush : fld W 12 2 = flush
  clsEn : fld W 14 1 = clsEn
  cls : fld W 15 4 = cls
  tagEn : fld W 19 1 = tagEn
  tag : fld W 20 8 = tag
  f28_4 : fld W 28 4 = 0

theorem pfxFields {st : Nat} (tag : BitVec 8) (tagEn : Bool) (cls : Fin 16) (clsEn : Bool) (flush : FlushSel)
    (sat : SatSel) (rnd : Option Rnd) (hs : st < 2) :
    PfxFields (2 ^ 7 * rndCode rnd + 2 ^ 10 * sat.code + 2 ^ 12 * flush.code + 2 ^ 14 * clsEn.toNat + 2 ^ 15 * cls.val
      + 2 ^ 19 * tagEn.toNat + 2 ^ 20 * tag.toNat + st) (rndCode rnd) sat.code flush.code clsEn.toNat cls.val
      tagEn.toNat tag.toNat := by
  have h1 := tag.isLt
  have h2 := bool_lt tagEn
  have h3 := cls.isLt
  have h4 := bool_lt clsEn
  have h5 := flush_lt flush
  have h6 := sat_lt sat
  have h7 := rnd_lt rnd
  constructor <;> unfold fld <;> omega

/-- The fields of a bundle route syllable (R88): `k` is its mode and `y` its bits 41 to 10. -/
structure BrFields (W wr far k y : Nat) : Prop where
  l : fld W 1 1 = 1
  major : fld W 2 5 = 31
  wr : fld W 7 1 = wr
  mode : fld W 8 2 = k
  far : fld W 42 16 = far
  f58_6 : fld W 58 6 = 0
  f10_32 : fld W 10 32 = y
  f39_3 : fld W 39 3 = y / 2 ^ 29 % 2 ^ 3
  f34_5 : fld W 34 5 = y / 2 ^ 24 % 2 ^ 5
  f10_24 : fld W 10 24 = y % 2 ^ 24
  f15_27 : fld W 15 27 = y / 2 ^ 5 % 2 ^ 27
  f10_5 : fld W 10 5 = y % 2 ^ 5

theorem brFields {x k y wr far st : Nat} (hx : x = 2 ^ 8 * k + 2 ^ 10 * y) (hy : y < 2 ^ 32 ∧ k < 4) (hw : wr < 2)
    (hf : far < 2 ^ 16) (hs : st < 2) :
    BrFields (2 + 2 ^ 2 * 31 + 2 ^ 7 * wr + x + 2 ^ 42 * far + st) wr far k y := by
  obtain ⟨hy, hk⟩ := hy
  subst hx
  constructor <;> unfold fld <;> omega

/-! ### An encoded syllable has its s bit clear and the length that its l bit gives -/

/-- Bits of a syllable with the s bit clear, within the length that the l bit gives (R71). -/
def Fits (w : Nat) : Prop := fld w 0 1 = 0 ∧ (fld w 1 1 = 1 ∧ w < 2 ^ 64 ∨ fld w 1 1 = 0 ∧ w < 2 ^ 32)

theorem fits_lo0 {M m d a b t r : Nat} (hM : M < 32) (hm : m < 32) (hd : d < 32) (ha : a < 32) (hb : b < 32)
    (ht : t < 16) (hr : r < 2) : Fits (encLo M m d a b t r 0) := by unfold Fits fld encLo; omega

theorem fits_lo1 {M m d a b t r : Nat} (hM : M < 32) (hm : m < 32) (hd : d < 32) (ha : a < 32) (hb : b < 32)
    (ht : t < 16) (hr : r < 2) : Fits (encLo M m d a b t r 1) := by unfold Fits fld encLo; omega

theorem fits_vw {M m d a b t r ma mb mc c t2 ext : Nat} (hM : M < 32) (hm : m < 32) (hd : d < 32) (ha : a < 32)
    (hb : b < 32) (ht : t < 16) (hr : r < 2) (h1 : ma < 8) (h2 : mb < 8) (h3 : mc < 8) (h4 : c < 32) (h5 : t2 < 16)
    (h6 : ext < 16384) : Fits (encLo M m d a b t r 1 + encHi ma mb mc c t2 ext) := by
  unfold Fits fld encLo encHi; omega

theorem fits_imm {M m d a b t r : Nat} (hM : M < 32) (hm : m < 32) (hd : d < 32) (ha : a < 32) (hb : b < 32)
    (ht : t < 16) (hr : r < 2) (i : BitVec 32) : Fits (encLo M m d a b t r 1 + 2 ^ 32 * i.toNat) := by
  have := i.isLt
  unfold Fits fld encLo; omega

theorem fits_amo {M m d a b t r c cls off : Nat} (hM : M < 32) (hm : m < 32) (hd : d < 32) (ha : a < 32) (hb : b < 32)
    (ht : t < 16) (hr : r < 2) (hc : c < 32) (hk : cls < 16) (ho : off < 65536) :
    Fits (encLo M m d a b t r 1 + 2 ^ 37 * c + 2 ^ 44 * cls + 2 ^ 48 * off) := by unfold Fits fld encLo; omega

theorem fits_I {m : Nat} (hm : m < 32) {z : Bool} {d : Dst} {a : Src} {imm : BitVec 9} : Fits (encI m z d a imm) := by
  have h1 := dst_lt d
  have h2 := src_lt a
  have h3 := imm.isLt
  have h4 := bool_lt z
  unfold Fits fld encI; omega

theorem fits_B {M m rest : Nat} (hM : M < 32) (hm : m < 32) (hr : rest < 2 ^ 20) : Fits (encB M m rest) := by
  unfold Fits fld encB; omega

theorem fits_cp {m : Nat} {d a b : Src} (k : Deps) (hm : m < 32) : Fits (encCp m d a b k) := by
  have h1 := src_lt d
  have h2 := src_lt a
  have h3 := src_lt b
  have h4 := deps_lt k
  unfold Fits fld encCp; omega

theorem fits_slot {m a : Nat} (o : Fin 128) (k : Deps) (hm : m < 32) (ha : a < 32) : Fits (encSlot m o a k) := by
  have h1 := o.isLt
  have h4 := deps_lt k
  unfold Fits fld encSlot; omega

theorem fits_E {M m top a b c z : Nat} (k : Deps) (hM : M < 32) (hm : m < 32) (ht : top < 16) (ha : a < 32)
    (hb : b < 32) (hc : c < 32) (hz : z < 2) : Fits (encE M m top a b c z k) := by
  have h4 := deps_lt k
  unfold Fits fld encE; omega

theorem fits_pfx (tag : BitVec 8) (tagEn : Bool) (cls : Fin 16) (clsEn : Bool) (flush : FlushSel) (sat : SatSel)
    (rnd : Option Rnd) : Fits (2 ^ 7 * rndCode rnd + 2 ^ 10 * sat.code + 2 ^ 12 * flush.code + 2 ^ 14 * clsEn.toNat
      + 2 ^ 15 * cls.val + 2 ^ 19 * tagEn.toNat + 2 ^ 20 * tag.toNat) := by
  have h1 := tag.isLt
  have h2 := bool_lt tagEn
  have h3 := cls.isLt
  have h4 := bool_lt clsEn
  have h5 := flush_lt flush
  have h6 := sat_lt sat
  have h7 := rnd_lt rnd
  unfold Fits fld; omega

theorem fits_br {x wr far : Nat} (hx : x / 2 ^ 8 * 2 ^ 8 = x ∧ x < 2 ^ 42) (hw : wr < 2) (hf : far < 2 ^ 16) :
    Fits (2 + 2 ^ 2 * 31 + 2 ^ 7 * wr + x + 2 ^ 42 * far) := by unfold Fits fld; omega

end Sys2Proof.Laws
end

