-- ==== Sys2Proof/Laws/State.lean ====
section
/-! SUPPORT. One lemma per field per update of the state, true by rfl, so that no proof unfolds a record update; and
reading a die or a context after it is changed. -/

namespace Sys2Proof.Machine

variable (s : State)

@[simp] theorem State.setDie_cycle (d : DieId) (x : Die) : (s.setDie d x).cycle = s.cycle := rfl

@[simp] theorem State.setDie_stations (d : DieId) (x : Die) : (s.setDie d x).stations = s.stations := rfl

@[simp] theorem State.setDie_panel (d : DieId) (x : Die) : (s.setDie d x).panel = s.panel := rfl

@[simp] theorem State.setDie_fabric (d : DieId) (x : Die) : (s.setDie d x).fabric = s.fabric := rfl

@[simp] theorem State.setDie_mem (d : DieId) (x : Die) : (s.setDie d x).mem = s.mem := rfl

@[simp] theorem State.setDie_memBad (d : DieId) (x : Die) : (s.setDie d x).memBad = s.memBad := rfl

@[simp] theorem State.setDie_iss (d : DieId) (x : Die) : (s.setDie d x).iss = s.iss := rfl

@[simp] theorem State.setDie_ev (d : DieId) (x : Die) : (s.setDie d x).ev = s.ev := rfl

@[simp] theorem State.setDie_agenda (d : DieId) (x : Die) : (s.setDie d x).agenda = s.agenda := rfl

@[simp] theorem State.setDie_portsDone (d : DieId) (x : Die) : (s.setDie d x).portsDone = s.portsDone := rfl

@[simp] theorem State.setDie_fresh (d : DieId) (x : Die) : (s.setDie d x).fresh = s.fresh := rfl

@[simp] theorem State.setDie_freeCtr (d : DieId) (x : Die) : (s.setDie d x).freeCtr = s.freeCtr := rfl

@[simp] theorem State.modDie_cycle (d : DieId) (f : Die → Die) : (s.modDie d f).cycle = s.cycle := rfl

@[simp] theorem State.modDie_stations (d : DieId) (f : Die → Die) : (s.modDie d f).stations = s.stations := rfl

@[simp] theorem State.modDie_panel (d : DieId) (f : Die → Die) : (s.modDie d f).panel = s.panel := rfl

@[simp] theorem State.modDie_fabric (d : DieId) (f : Die → Die) : (s.modDie d f).fabric = s.fabric := rfl

@[simp] theorem State.modDie_mem (d : DieId) (f : Die → Die) : (s.modDie d f).mem = s.mem := rfl

@[simp] theorem State.modDie_memBad (d : DieId) (f : Die → Die) : (s.modDie d f).memBad = s.memBad := rfl

@[simp] theorem State.modDie_iss (d : DieId) (f : Die → Die) : (s.modDie d f).iss = s.iss := rfl

@[simp] theorem State.modDie_ev (d : DieId) (f : Die → Die) : (s.modDie d f).ev = s.ev := rfl

@[simp] theorem State.modDie_agenda (d : DieId) (f : Die → Die) : (s.modDie d f).agenda = s.agenda := rfl

@[simp] theorem State.modDie_portsDone (d : DieId) (f : Die → Die) : (s.modDie d f).portsDone = s.portsDone := rfl

@[simp] theorem State.modDie_fresh (d : DieId) (f : Die → Die) : (s.modDie d f).fresh = s.fresh := rfl

@[simp] theorem State.modDie_freeCtr (d : DieId) (f : Die → Die) : (s.modDie d f).freeCtr = s.freeCtr := rfl

@[simp] theorem State.modCtx_cycle (d : DieId) (c : CtxId) (f : Ctx → Ctx) : (s.modCtx d c f).cycle = s.cycle := rfl

@[simp] theorem State.modCtx_stations (d : DieId) (c : CtxId) (f : Ctx → Ctx) : (s.modCtx d c f).stations = s.stations := rfl

@[simp] theorem State.modCtx_panel (d : DieId) (c : CtxId) (f : Ctx → Ctx) : (s.modCtx d c f).panel = s.panel := rfl

@[simp] theorem State.modCtx_fabric (d : DieId) (c : CtxId) (f : Ctx → Ctx) : (s.modCtx d c f).fabric = s.fabric := rfl

@[simp] theorem State.modCtx_mem (d : DieId) (c : CtxId) (f : Ctx → Ctx) : (s.modCtx d c f).mem = s.mem := rfl

@[simp] theorem State.modCtx_memBad (d : DieId) (c : CtxId) (f : Ctx → Ctx) : (s.modCtx d c f).memBad = s.memBad := rfl

@[simp] theorem State.modCtx_iss (d : DieId) (c : CtxId) (f : Ctx → Ctx) : (s.modCtx d c f).iss = s.iss := rfl

@[simp] theorem State.modCtx_ev (d : DieId) (c : CtxId) (f : Ctx → Ctx) : (s.modCtx d c f).ev = s.ev := rfl

@[simp] theorem State.modCtx_agenda (d : DieId) (c : CtxId) (f : Ctx → Ctx) : (s.modCtx d c f).agenda = s.agenda := rfl

@[simp] theorem State.modCtx_portsDone (d : DieId) (c : CtxId) (f : Ctx → Ctx) : (s.modCtx d c f).portsDone = s.portsDone := rfl

@[simp] theorem State.modCtx_fresh (d : DieId) (c : CtxId) (f : Ctx → Ctx) : (s.modCtx d c f).fresh = s.fresh := rfl

@[simp] theorem State.modCtx_freeCtr (d : DieId) (c : CtxId) (f : Ctx → Ctx) : (s.modCtx d c f).freeCtr = s.freeCtr := rfl

@[simp] theorem State.modQueue_cycle (q : QueueId) (f : CmdQueue → CmdQueue) : (s.modQueue q f).cycle = s.cycle := rfl

@[simp] theorem State.modQueue_dies (q : QueueId) (f : CmdQueue → CmdQueue) : (s.modQueue q f).dies = s.dies := rfl

@[simp] theorem State.modQueue_stations (q : QueueId) (f : CmdQueue → CmdQueue) : (s.modQueue q f).stations = s.stations := rfl

@[simp] theorem State.modQueue_fabric (q : QueueId) (f : CmdQueue → CmdQueue) : (s.modQueue q f).fabric = s.fabric := rfl

@[simp] theorem State.modQueue_mem (q : QueueId) (f : CmdQueue → CmdQueue) : (s.modQueue q f).mem = s.mem := rfl

@[simp] theorem State.modQueue_memBad (q : QueueId) (f : CmdQueue → CmdQueue) : (s.modQueue q f).memBad = s.memBad := rfl

@[simp] theorem State.modQueue_iss (q : QueueId) (f : CmdQueue → CmdQueue) : (s.modQueue q f).iss = s.iss := rfl

@[simp] theorem State.modQueue_ev (q : QueueId) (f : CmdQueue → CmdQueue) : (s.modQueue q f).ev = s.ev := rfl

@[simp] theorem State.modQueue_agenda (q : QueueId) (f : CmdQueue → CmdQueue) : (s.modQueue q f).agenda = s.agenda := rfl

@[simp] theorem State.modQueue_portsDone (q : QueueId) (f : CmdQueue → CmdQueue) : (s.modQueue q f).portsDone = s.portsDone := rfl

@[simp] theorem State.modQueue_fresh (q : QueueId) (f : CmdQueue → CmdQueue) : (s.modQueue q f).fresh = s.fresh := rfl

@[simp] theorem State.modQueue_freeCtr (q : QueueId) (f : CmdQueue → CmdQueue) : (s.modQueue q f).freeCtr = s.freeCtr := rfl

@[simp] theorem State.modStation_cycle (i : StackId) (f : Station → Station) : (s.modStation i f).cycle = s.cycle := rfl

@[simp] theorem State.modStation_dies (i : StackId) (f : Station → Station) : (s.modStation i f).dies = s.dies := rfl

@[simp] theorem State.modStation_panel (i : StackId) (f : Station → Station) : (s.modStation i f).panel = s.panel := rfl

@[simp] theorem State.modStation_fabric (i : StackId) (f : Station → Station) : (s.modStation i f).fabric = s.fabric := rfl

@[simp] theorem State.modStation_mem (i : StackId) (f : Station → Station) : (s.modStation i f).mem = s.mem := rfl

@[simp] theorem State.modStation_memBad (i : StackId) (f : Station → Station) : (s.modStation i f).memBad = s.memBad := rfl

@[simp] theorem State.modStation_iss (i : StackId) (f : Station → Station) : (s.modStation i f).iss = s.iss := rfl

@[simp] theorem State.modStation_ev (i : StackId) (f : Station → Station) : (s.modStation i f).ev = s.ev := rfl

@[simp] theorem State.modStation_agenda (i : StackId) (f : Station → Station) : (s.modStation i f).agenda = s.agenda := rfl

@[simp] theorem State.modStation_portsDone (i : StackId) (f : Station → Station) : (s.modStation i f).portsDone = s.portsDone := rfl

@[simp] theorem State.modStation_fresh (i : StackId) (f : Station → Station) : (s.modStation i f).fresh = s.fresh := rfl

@[simp] theorem State.modStation_freeCtr (i : StackId) (f : Station → Station) : (s.modStation i f).freeCtr = s.freeCtr := rfl

@[simp] theorem State.modFabric_cycle (f : Fabric → Fabric) : (s.modFabric f).cycle = s.cycle := rfl

@[simp] theorem State.modFabric_dies (f : Fabric → Fabric) : (s.modFabric f).dies = s.dies := rfl

@[simp] theorem State.modFabric_stations (f : Fabric → Fabric) : (s.modFabric f).stations = s.stations := rfl

@[simp] theorem State.modFabric_panel (f : Fabric → Fabric) : (s.modFabric f).panel = s.panel := rfl

@[simp] theorem State.modFabric_mem (f : Fabric → Fabric) : (s.modFabric f).mem = s.mem := rfl

@[simp] theorem State.modFabric_memBad (f : Fabric → Fabric) : (s.modFabric f).memBad = s.memBad := rfl

@[simp] theorem State.modFabric_iss (f : Fabric → Fabric) : (s.modFabric f).iss = s.iss := rfl

@[simp] theorem State.modFabric_ev (f : Fabric → Fabric) : (s.modFabric f).ev = s.ev := rfl

@[simp] theorem State.modFabric_agenda (f : Fabric → Fabric) : (s.modFabric f).agenda = s.agenda := rfl

@[simp] theorem State.modFabric_portsDone (f : Fabric → Fabric) : (s.modFabric f).portsDone = s.portsDone := rfl

@[simp] theorem State.modFabric_fresh (f : Fabric → Fabric) : (s.modFabric f).fresh = s.fresh := rfl

@[simp] theorem State.modFabric_freeCtr (f : Fabric → Fabric) : (s.modFabric f).freeCtr = s.freeCtr := rfl

@[simp] theorem State.modPort_cycle (p : PortId) (f : Port → Port) : (s.modPort p f).cycle = s.cycle := rfl

@[simp] theorem State.modPort_dies (p : PortId) (f : Port → Port) : (s.modPort p f).dies = s.dies := rfl

@[simp] theorem State.modPort_stations (p : PortId) (f : Port → Port) : (s.modPort p f).stations = s.stations := rfl

@[simp] theorem State.modPort_panel (p : PortId) (f : Port → Port) : (s.modPort p f).panel = s.panel := rfl

@[simp] theorem State.modPort_mem (p : PortId) (f : Port → Port) : (s.modPort p f).mem = s.mem := rfl

@[simp] theorem State.modPort_memBad (p : PortId) (f : Port → Port) : (s.modPort p f).memBad = s.memBad := rfl

@[simp] theorem State.modPort_iss (p : PortId) (f : Port → Port) : (s.modPort p f).iss = s.iss := rfl

@[simp] theorem State.modPort_ev (p : PortId) (f : Port → Port) : (s.modPort p f).ev = s.ev := rfl

@[simp] theorem State.modPort_agenda (p : PortId) (f : Port → Port) : (s.modPort p f).agenda = s.agenda := rfl

@[simp] theorem State.modPort_portsDone (p : PortId) (f : Port → Port) : (s.modPort p f).portsDone = s.portsDone := rfl

@[simp] theorem State.modPort_fresh (p : PortId) (f : Port → Port) : (s.modPort p f).fresh = s.fresh := rfl

@[simp] theorem State.modPort_freeCtr (p : PortId) (f : Port → Port) : (s.modPort p f).freeCtr = s.freeCtr := rfl

@[simp] theorem State.modPanel_cycle (f : Panel → Panel) : (s.modPanel f).cycle = s.cycle := rfl

@[simp] theorem State.modPanel_dies (f : Panel → Panel) : (s.modPanel f).dies = s.dies := rfl

@[simp] theorem State.modPanel_stations (f : Panel → Panel) : (s.modPanel f).stations = s.stations := rfl

@[simp] theorem State.modPanel_fabric (f : Panel → Panel) : (s.modPanel f).fabric = s.fabric := rfl

@[simp] theorem State.modPanel_mem (f : Panel → Panel) : (s.modPanel f).mem = s.mem := rfl

@[simp] theorem State.modPanel_memBad (f : Panel → Panel) : (s.modPanel f).memBad = s.memBad := rfl

@[simp] theorem State.modPanel_iss (f : Panel → Panel) : (s.modPanel f).iss = s.iss := rfl

@[simp] theorem State.modPanel_ev (f : Panel → Panel) : (s.modPanel f).ev = s.ev := rfl

@[simp] theorem State.modPanel_agenda (f : Panel → Panel) : (s.modPanel f).agenda = s.agenda := rfl

@[simp] theorem State.modPanel_portsDone (f : Panel → Panel) : (s.modPanel f).portsDone = s.portsDone := rfl

@[simp] theorem State.modPanel_fresh (f : Panel → Panel) : (s.modPanel f).fresh = s.fresh := rfl

@[simp] theorem State.modPanel_freeCtr (f : Panel → Panel) : (s.modPanel f).freeCtr = s.freeCtr := rfl

@[simp] theorem State.notify_cycle (n : Notice) : (s.notify n).cycle = s.cycle := rfl

@[simp] theorem State.notify_dies (n : Notice) : (s.notify n).dies = s.dies := rfl

@[simp] theorem State.notify_stations (n : Notice) : (s.notify n).stations = s.stations := rfl

@[simp] theorem State.notify_fabric (n : Notice) : (s.notify n).fabric = s.fabric := rfl

@[simp] theorem State.notify_mem (n : Notice) : (s.notify n).mem = s.mem := rfl

@[simp] theorem State.notify_memBad (n : Notice) : (s.notify n).memBad = s.memBad := rfl

@[simp] theorem State.notify_iss (n : Notice) : (s.notify n).iss = s.iss := rfl

@[simp] theorem State.notify_ev (n : Notice) : (s.notify n).ev = s.ev := rfl

@[simp] theorem State.notify_agenda (n : Notice) : (s.notify n).agenda = s.agenda := rfl

@[simp] theorem State.notify_portsDone (n : Notice) : (s.notify n).portsDone = s.portsDone := rfl

@[simp] theorem State.notify_fresh (n : Notice) : (s.notify n).fresh = s.fresh := rfl

@[simp] theorem State.notify_freeCtr (n : Notice) : (s.notify n).freeCtr = s.freeCtr := rfl

@[simp] theorem State.sched_cycle (due : Nat) (act : Instr) (arg : EvArg) : (s.sched due act arg).cycle = s.cycle := rfl

@[simp] theorem State.sched_dies (due : Nat) (act : Instr) (arg : EvArg) : (s.sched due act arg).dies = s.dies := rfl

@[simp] theorem State.sched_stations (due : Nat) (act : Instr) (arg : EvArg) : (s.sched due act arg).stations = s.stations := rfl

@[simp] theorem State.sched_panel (due : Nat) (act : Instr) (arg : EvArg) : (s.sched due act arg).panel = s.panel := rfl

@[simp] theorem State.sched_fabric (due : Nat) (act : Instr) (arg : EvArg) : (s.sched due act arg).fabric = s.fabric := rfl

@[simp] theorem State.sched_mem (due : Nat) (act : Instr) (arg : EvArg) : (s.sched due act arg).mem = s.mem := rfl

@[simp] theorem State.sched_memBad (due : Nat) (act : Instr) (arg : EvArg) : (s.sched due act arg).memBad = s.memBad := rfl

@[simp] theorem State.sched_iss (due : Nat) (act : Instr) (arg : EvArg) : (s.sched due act arg).iss = s.iss := rfl

@[simp] theorem State.sched_ev (due : Nat) (act : Instr) (arg : EvArg) : (s.sched due act arg).ev = s.ev := rfl

@[simp] theorem State.sched_portsDone (due : Nat) (act : Instr) (arg : EvArg) : (s.sched due act arg).portsDone = s.portsDone := rfl

@[simp] theorem State.sched_fresh (due : Nat) (act : Instr) (arg : EvArg) : (s.sched due act arg).fresh = s.fresh := rfl

@[simp] theorem State.sched_freeCtr (due : Nat) (act : Instr) (arg : EvArg) : (s.sched due act arg).freeCtr = s.freeCtr := rfl

@[simp] theorem State.takeFresh_cycle : (s.takeFresh).cycle = s.cycle := rfl

@[simp] theorem State.takeFresh_dies : (s.takeFresh).dies = s.dies := rfl

@[simp] theorem State.takeFresh_stations : (s.takeFresh).stations = s.stations := rfl

@[simp] theorem State.takeFresh_panel : (s.takeFresh).panel = s.panel := rfl

@[simp] theorem State.takeFresh_fabric : (s.takeFresh).fabric = s.fabric := rfl

@[simp] theorem State.takeFresh_mem : (s.takeFresh).mem = s.mem := rfl

@[simp] theorem State.takeFresh_memBad : (s.takeFresh).memBad = s.memBad := rfl

@[simp] theorem State.takeFresh_iss : (s.takeFresh).iss = s.iss := rfl

@[simp] theorem State.takeFresh_ev : (s.takeFresh).ev = s.ev := rfl

@[simp] theorem State.takeFresh_agenda : (s.takeFresh).agenda = s.agenda := rfl

@[simp] theorem State.takeFresh_portsDone : (s.takeFresh).portsDone = s.portsDone := rfl

@[simp] theorem State.takeFresh_freeCtr : (s.takeFresh).freeCtr = s.freeCtr := rfl

@[simp] theorem State.takeFree_cycle : (s.takeFree).cycle = s.cycle := rfl

@[simp] theorem State.takeFree_dies : (s.takeFree).dies = s.dies := rfl

@[simp] theorem State.takeFree_stations : (s.takeFree).stations = s.stations := rfl

@[simp] theorem State.takeFree_panel : (s.takeFree).panel = s.panel := rfl

@[simp] theorem State.takeFree_fabric : (s.takeFree).fabric = s.fabric := rfl

@[simp] theorem State.takeFree_mem : (s.takeFree).mem = s.mem := rfl

@[simp] theorem State.takeFree_memBad : (s.takeFree).memBad = s.memBad := rfl

@[simp] theorem State.takeFree_iss : (s.takeFree).iss = s.iss := rfl

@[simp] theorem State.takeFree_ev : (s.takeFree).ev = s.ev := rfl

@[simp] theorem State.takeFree_agenda : (s.takeFree).agenda = s.agenda := rfl

@[simp] theorem State.takeFree_portsDone : (s.takeFree).portsDone = s.portsDone := rfl

@[simp] theorem State.takeFree_fresh : (s.takeFree).fresh = s.fresh := rfl

@[simp] theorem State.addWait_cycle (w : Wait) : (s.addWait w).cycle = s.cycle := rfl

@[simp] theorem State.addWait_dies (w : Wait) : (s.addWait w).dies = s.dies := rfl

@[simp] theorem State.addWait_stations (w : Wait) : (s.addWait w).stations = s.stations := rfl

@[simp] theorem State.addWait_panel (w : Wait) : (s.addWait w).panel = s.panel := rfl

@[simp] theorem State.addWait_fabric (w : Wait) : (s.addWait w).fabric = s.fabric := rfl

@[simp] theorem State.addWait_mem (w : Wait) : (s.addWait w).mem = s.mem := rfl

@[simp] theorem State.addWait_memBad (w : Wait) : (s.addWait w).memBad = s.memBad := rfl

@[simp] theorem State.addWait_ev (w : Wait) : (s.addWait w).ev = s.ev := rfl

@[simp] theorem State.addWait_agenda (w : Wait) : (s.addWait w).agenda = s.agenda := rfl

@[simp] theorem State.addWait_portsDone (w : Wait) : (s.addWait w).portsDone = s.portsDone := rfl

@[simp] theorem State.addWait_fresh (w : Wait) : (s.addWait w).fresh = s.fresh := rfl

@[simp] theorem State.addWait_freeCtr (w : Wait) : (s.addWait w).freeCtr = s.freeCtr := rfl

@[simp] theorem State.dropDue_cycle (k : Nat) : (s.dropDue k).cycle = s.cycle := rfl

@[simp] theorem State.dropDue_dies (k : Nat) : (s.dropDue k).dies = s.dies := rfl

@[simp] theorem State.dropDue_stations (k : Nat) : (s.dropDue k).stations = s.stations := rfl

@[simp] theorem State.dropDue_panel (k : Nat) : (s.dropDue k).panel = s.panel := rfl

@[simp] theorem State.dropDue_fabric (k : Nat) : (s.dropDue k).fabric = s.fabric := rfl

@[simp] theorem State.dropDue_mem (k : Nat) : (s.dropDue k).mem = s.mem := rfl

@[simp] theorem State.dropDue_memBad (k : Nat) : (s.dropDue k).memBad = s.memBad := rfl

@[simp] theorem State.dropDue_iss (k : Nat) : (s.dropDue k).iss = s.iss := rfl

@[simp] theorem State.dropDue_ev (k : Nat) : (s.dropDue k).ev = s.ev := rfl

@[simp] theorem State.dropDue_portsDone (k : Nat) : (s.dropDue k).portsDone = s.portsDone := rfl

@[simp] theorem State.dropDue_fresh (k : Nat) : (s.dropDue k).fresh = s.fresh := rfl

@[simp] theorem State.dropDue_freeCtr (k : Nat) : (s.dropDue k).freeCtr = s.freeCtr := rfl

@[simp] theorem State.modPanel_panel (f : Panel → Panel) : (s.modPanel f).panel = f s.panel := rfl

@[simp] theorem State.modFabric_fabric (f : Fabric → Fabric) : (s.modFabric f).fabric = f s.fabric := rfl

@[simp] theorem State.sched_agenda (due : Nat) (act : Instr) (arg : EvArg) :
    (s.sched due act arg).agenda = s.agenda ++ [{ due := due, act := act, arg := arg }] := rfl

@[simp] theorem State.takeFresh_fresh : s.takeFresh.fresh = s.fresh + 1 := rfl

@[simp] theorem State.takeFree_freeCtr : s.takeFree.freeCtr = s.freeCtr + 1 := rfl

/-! ### Vectors -/

section vectors

variable {α : Type} {n : Nat}

@[simp] theorem vset_same (v : Vector α n) (i : Fin n) (x : α) : (vset v i x)[i] = x := by simp [vset]

@[simp] theorem vset_val (v : Vector α n) (i : Fin n) (x : α) : (vset v i x)[i.val] = x := by simp [vset]

theorem vset_other (v : Vector α n) {i j : Fin n} (x : α) (h : i ≠ j) : (vset v i x)[j] = v[j] := by
  have h' : i.val ≠ j.val := fun e => h (Fin.ext e)
  simp only [vset, Fin.getElem_fin]
  exact Vector.getElem_set_ne i.isLt j.isLt h'

theorem vset_get (v : Vector α n) (i j : Fin n) (x : α) : (vset v i x)[j] = if i = j then x else v[j] := by
  split
  · next h => subst h; exact vset_same v i x
  · next h => exact vset_other v x h

theorem vset_self (v : Vector α n) (i : Fin n) : vset v i v[i] = v := by simp [vset]

theorem vset_vset (v : Vector α n) (i : Fin n) (x y : α) : vset (vset v i x) i y = vset v i y := by simp [vset]

end vectors

/-! ### Dies -/

@[simp] theorem State.die_setDie (d : DieId) (x : Die) : (s.setDie d x).die d = x := vset_same _ _ _

theorem State.die_setDie_other {d e : DieId} (x : Die) (h : d ≠ e) : (s.setDie d x).die e = s.die e :=
  vset_other _ _ h

@[simp] theorem State.die_modDie (d : DieId) (f : Die → Die) : (s.modDie d f).die d = f (s.die d) := vset_same _ _ _

theorem State.die_modDie_other {d e : DieId} (f : Die → Die) (h : d ≠ e) : (s.modDie d f).die e = s.die e :=
  vset_other _ _ h

theorem State.die_modDie_get (d e : DieId) (f : Die → Die) :
    (s.modDie d f).die e = if d = e then f (s.die d) else s.die e := vset_get _ _ _ _

@[simp] theorem State.die_sched (due : Nat) (act : Instr) (arg : EvArg) (d : DieId) :
    (s.sched due act arg).die d = s.die d := rfl

@[simp] theorem State.die_takeFresh (d : DieId) : s.takeFresh.die d = s.die d := rfl

@[simp] theorem State.die_takeFree (d : DieId) : s.takeFree.die d = s.die d := rfl

@[simp] theorem State.die_modPanel (f : Panel → Panel) (d : DieId) : (s.modPanel f).die d = s.die d := rfl

@[simp] theorem State.die_modFabric (f : Fabric → Fabric) (d : DieId) : (s.modFabric f).die d = s.die d := rfl

@[simp] theorem State.die_modQueue (q : QueueId) (f : CmdQueue → CmdQueue) (d : DieId) :
    (s.modQueue q f).die d = s.die d := rfl

@[simp] theorem State.queue_modQueue (q : QueueId) (f : CmdQueue → CmdQueue) :
    (s.modQueue q f).queue q = f (s.queue q) := vset_same _ _ _

@[simp] theorem State.station_modStation (i : StackId) (f : Station → Station) :
    (s.modStation i f).station i = f (s.station i) := vset_same _ _ _

@[simp] theorem State.port_modPort (p : PortId) (f : Port → Port) : (s.modPort p f).port p = f (s.port p) :=
  vset_same _ _ _

/-! ### Contexts -/

@[simp] theorem Die.ctx_setCtx (x : Die) (c : CtxId) (v : Ctx) : (x.setCtx c v).ctx c = v := vset_same _ _ _

theorem Die.ctx_setCtx_other (x : Die) {c n : CtxId} (v : Ctx) (h : c ≠ n) : (x.setCtx c v).ctx n = x.ctx n :=
  vset_other _ _ h

@[simp] theorem Die.ctx_modCtx (x : Die) (c : CtxId) (f : Ctx → Ctx) : (x.modCtx c f).ctx c = f (x.ctx c) :=
  vset_same _ _ _

theorem Die.ctx_modCtx_other (x : Die) {c n : CtxId} (f : Ctx → Ctx) (h : c ≠ n) : (x.modCtx c f).ctx n = x.ctx n :=
  vset_other _ _ h

@[simp] theorem State.ctx_modCtx (d : DieId) (c : CtxId) (f : Ctx → Ctx) :
    (s.modCtx d c f).ctx d c = f (s.ctx d c) := by
  simp only [State.ctx, State.modCtx, State.die_modDie, Die.ctx_modCtx]

theorem State.ctx_modCtx_other {d e : DieId} {c n : CtxId} (f : Ctx → Ctx) (h : e ≠ d ∨ n ≠ c) :
    (s.modCtx d c f).ctx e n = s.ctx e n := by
  simp only [State.ctx, State.modCtx]
  by_cases hd : d = e
  · subst hd
    have hc : c ≠ n := fun e => by subst e; simp at h
    rw [State.die_modDie, Die.ctx_modCtx_other _ _ hc]
  · rw [State.die_modDie_other _ _ hd]

@[simp] theorem State.ctx_sched (due : Nat) (act : Instr) (arg : EvArg) (d : DieId) (c : CtxId) :
    (s.sched due act arg).ctx d c = s.ctx d c := rfl

@[simp] theorem State.ctx_takeFresh (d : DieId) (c : CtxId) : s.takeFresh.ctx d c = s.ctx d c := rfl

/-- Changing a context leaves the die otherwise as it was. -/
theorem State.dies_modCtx (d e : DieId) (c : CtxId) (f : Ctx → Ctx) :
    { (s.modCtx d c f).die e with ctxs := (s.die e).ctxs } = s.die e := by
  simp only [State.modCtx]
  by_cases h : d = e
  · subst h
    rw [State.die_modDie]
    rfl
  · rw [State.die_modDie_other _ _ h]

/-! ### The agenda -/

/-- `schedOnce` puts a step on the agenda, or finds it there, and changes nothing else. -/
theorem State.schedOnce_eq (due : Nat) (act : Instr) (arg : EvArg) :
    ∃ m, s.schedOnce due act arg = { s with agenda := s.agenda ++ m }
      ∧ ∀ x, (x ∈ s.agenda ∨ x ∈ m) ↔ (x ∈ s.agenda ∨ x = { due := due, act := act, arg := arg }) := by
  unfold State.schedOnce
  split
  · next h =>
    refine ⟨[], by simp, fun x => ?_⟩
    obtain ⟨y, hy, he⟩ := List.any_eq_true.mp h
    have : y = { due := due, act := act, arg := arg } := by
      cases y
      simp only [Bool.and_eq_true, beq_iff_eq] at he
      obtain ⟨⟨h1, h2⟩, h3⟩ := he
      subst h1 h2 h3
      rfl
    constructor
    · rintro (h | h)
      · exact .inl h
      · simp at h
    · rintro (h | h)
      · exact .inl h
      · exact .inl (h ▸ this ▸ hy)
  · exact ⟨[_], rfl, fun x => by simp⟩

end Sys2Proof.Machine
end

