-- ==== Sys2Proof/Laws/Land.lean ====
section
/-! SUPPORT. What putting a result in flight does, said once: `Gives` of the operations that the meanings of the
syllables end in. -/

namespace Sys2Proof.Machine

variable {s t u : State}

theorem State.SameBytes.refl (s : State) : s.SameBytes s := ⟨fun _ => rfl, fun _ _ => rfl⟩

theorem State.SameBytes.trans (h : s.SameBytes t) (k : t.SameBytes u) : s.SameBytes u :=
  ⟨fun a => (k.1 a).trans (h.1 a), fun d a => (k.2 d a).trans (h.2 d a)⟩

/-- A byte of the banks depends on the folds and the bank bytes only. -/
theorem Die.bankByte_congr {x y : Die} (hb : y.bank = x.bank) (hf : y.folds = x.folds) (a : Nat) :
    y.bankByte a = x.bankByte a := by simp only [Die.bankByte, hb, hf]

/-- Changing contexts changes no byte. -/
theorem State.sameBytes_modCtx (s : State) (d : DieId) (c : CtxId) (f : Ctx → Ctx) : s.SameBytes (s.modCtx d c f) := by
  refine ⟨fun _ => rfl, fun e a => ?_⟩
  have h := s.dies_modCtx d e c f
  exact Die.bankByte_congr (by rw [← h]) (by rw [← h]) a

theorem State.Schedules.refl (s : State) : s.Schedules s [] := ⟨fun x => by simp, [], by simp⟩

/-- Results in flight one after the other. -/
theorem State.Gives.trans {l m : List Result} (h : s.Gives t l) (k : t.Gives u m) : s.Gives u (l ++ m) := by
  obtain ⟨fs, hc, hh, hs, hb⟩ := h
  obtain ⟨gs, kc, kh, ks, kb⟩ := k
  have hr := hh.rest
  have hi : t.iss = s.iss := by have e := congrArg State.iss hr; exact e
  have hy : t.cycle = s.cycle := by have e := congrArg State.cycle hr; exact e
  have hcur : t.cur = { s.cur with flight := s.cur.flight ++ fs } := by
    unfold State.cur; rw [hi]; exact hh.here
  have hp : t.cur.priv = s.cur.priv := by rw [hcur]
  have hcar : ∀ f r, t.Carries f r ↔ s.Carries f r := by
    intro f r; unfold State.Carries; rw [hi, hy, hp]
  have hland : ∀ r, t.landingOf r = s.landingOf r := by
    intro r; unfold State.landingOf; rw [hi, hy]
  refine ⟨fs ++ gs, ?_, ⟨?_, ?_, ?_, ?_⟩, ⟨?_, ?_⟩, hb.trans kb⟩
  · exact List.rel_append hc (kc.imp fun f r h => (hcar f r).mp h)
  · have := kh.here
    rw [hi, hcur] at this
    rw [this, List.append_assoc]
  · intro d n h
    rw [← hi] at h
    rw [kh.others d n h]
    rw [hi] at h
    exact hh.others d n h
  · intro d
    have h1 := kh.dies d
    have h2 := hh.dies d
    rw [← h2, ← h1]
  · have h1 := kh.rest
    rw [← hr, ← h1]
  · intro x
    rw [ks.1 x, hs.1 x, List.map_append, List.mem_append, or_assoc]
    simp only [funext hland]
  · obtain ⟨a, ha⟩ := hs.2
    obtain ⟨b, hb'⟩ := ks.2
    exact ⟨a ++ b, by rw [hb', ha, List.append_assoc]⟩

/-- A result put in flight. -/
theorem State.land_gives (s : State) (lat slot : Nat) (l : Land) :
    s.Gives (s.land lat slot l) [{ lat := lat, slot := slot, land := l }] := by
  let f : Flight := { due := s.cycle + lat, slot := slot, ord := s.fresh, bundle := s.iss.bundle,
                      hnd := s.cur.priv, land := l }
  let w : State := (s.modCtx s.iss.die s.iss.ctx fun c => { c with flight := c.flight ++ [f] }).takeFresh
  obtain ⟨m, hm, hx⟩ := w.schedOnce_eq (s.cycle + lat) .resultLanding
    { die := s.iss.die, ctx := s.iss.ctx, flag := l.isFlags }
  have e : s.land lat slot l = { w with agenda := w.agenda ++ m } := hm
  refine ⟨[f], .cons ⟨rfl, rfl, rfl, rfl, rfl⟩ .nil, ⟨?_, ?_, ?_, ?_⟩, ⟨?_, ?_⟩, ?_⟩
  · rw [e]
    exact s.ctx_modCtx s.iss.die s.iss.ctx _
  · intro d n h
    rw [e]
    exact s.ctx_modCtx_other _ h
  · intro d
    rw [e]
    exact s.dies_modCtx s.iss.die d s.iss.ctx _
  · rw [e]; rfl
  · intro x
    rw [e]
    show x ∈ s.agenda ++ m ↔ _
    rw [List.mem_append]
    refine (hx x).trans ?_
    simp [State.landingOf]
    rfl
  · rw [e]; exact ⟨m, rfl⟩
  · rw [e]; exact s.sameBytes_modCtx s.iss.die s.iss.ctx _

/-- A result with its flags put in flight. -/
theorem State.landF_gives (s : State) (lat slot : Nat) (l : Land) (f : Flg) :
    s.Gives (s.landF lat slot l f) (withFlags lat slot l f) := by
  unfold State.landF withFlags
  split
  · exact s.land_gives lat slot l
  · exact (s.land_gives lat slot l).trans ((s.land lat slot l).land_gives lat slot (.flags f))

end Sys2Proof.Machine
end

