-- ==== Sys2Proof/Laws/Issue.lean ====
section
/-! SUPPORT. What putting a bank access on its way does, said once; the class and the tag that a syllable captures; bits
and fields of words; the last landing of a context. -/

namespace Sys2Proof.Machine

/-- Putting a bank access on its way, said once. -/
theorem State.access_sends (s : State) (lat : Nat) (ord : PortStep) (slot : Nat) (cls : Fin 16) (tag : Option (BitVec 8))
    (k : AccKind) : s.Sends (s.access lat ord slot cls tag k)
      { id := s.fresh, due := s.cycle + lat, ord := ord, ctx := s.iss.ctx, bundle := s.iss.bundle, hnd := s.cur.priv
        slot := slot, cls := cls, tag := tag, pc := s.iss.p, win := s.cur.win, kind := k } := by
  have hd : ∀ d, (s.access lat ord slot cls tag k).die d = (s.modDie s.iss.die fun x => { x with accs := x.accs ++ [
      { id := s.fresh, due := s.cycle + lat, ord := ord, ctx := s.iss.ctx, bundle := s.iss.bundle, hnd := s.cur.priv
        slot := slot, cls := cls, tag := tag, pc := s.iss.p, win := s.cur.win, kind := k }] }).die d := fun _ => rfl
  refine ⟨?_, ?_, ?_, rfl, rfl, fun _ => rfl, ?_⟩
  · rw [hd, State.die_modDie]
  · rw [hd, State.die_modDie]
  · intro d h; rw [hd, State.die_modDie_other _ _ (Ne.symm h)]
  · intro d a
    by_cases h : d = s.iss.die
    · subst h; rw [hd, State.die_modDie]; rfl
    · rw [hd, State.die_modDie_other _ _ (Ne.symm h)]

/-- A meaning that is one access on its way. -/
theorem State.yieldsAccess_of (s : State) (i : Instr) (lat ord slot cls tag k)
  (h : exec i s = .next (s.access lat ord slot cls tag k)) : s.YieldsAccess i lat ord slot cls tag k :=
  ⟨_, _, h, s.access_sends ..⟩

/-- The class that a syllable captures (R87). -/
theorem State.clsOf_eq (s : State) (own) : s.clsOf own = s.classOf own := by
  unfold State.clsOf State.classOf State.pfx
  cases s.iss.pfx <;> rfl

/-- The tag that a syllable captures (R87). -/
theorem State.tagOf_eq (s : State) : s.tagOf = s.wantTag := by
  unfold State.tagOf State.wantTag State.pfx
  cases s.iss.pfx <;> rfl

/-- A bit of a number. -/
theorem natBit_eq (v i : Nat) : natBit v i = v.testBit i := by
  simp [natBit, Nat.testBit, Nat.shiftRight_eq_div_pow]

/-- A bit of a word. -/
theorem bitAt_eq (w : Word) (i : Nat) : bitAt w i = w.getLsbD i := by
  simp [bitAt, BitVec.getLsbD, Nat.testBit, Nat.shiftRight_eq_div_pow]

/-- A field of a word. -/
theorem bits_eq (w : Word) (lo n : Nat) : bits w lo n = (w.extractLsb' lo n).toNat := by
  simp [bits, BitVec.extractLsb'_toNat, Nat.shiftRight_eq_div_pow]

/-- Every result in flight lands by the drain cycle (R131). -/
theorem State.drainDue_ge (s : State) (d : DieId) (n : CtxId) : ∀ f ∈ (s.ctx d n).flight, f.due ≤ s.drainDue d n := by
  intro f hf
  have h1 : ∀ (l : List Flight) (m : Nat), m ≤ l.foldl (fun m f => max m f.due) m ∧ ∀ f ∈ l, f.due ≤ l.foldl (fun m f => max m f.due) m := by
    intro l
    induction l with
    | nil => simp
    | cons g l ih =>
      intro m
      have := ih (max m g.due)
      refine ⟨by simp; omega, ?_⟩
      simp only [List.mem_cons, forall_eq_or_imp, List.foldl_cons]
      exact ⟨by omega, this.2⟩
  have h2 : ∀ (l : List Access) (p : Access → Bool) (g : Access → Nat) (m : Nat), m ≤ l.foldl (fun m f => if p f then max m (g f) else m) m := by
    intro l p g
    induction l with
    | nil => simp
    | cons a l ih =>
      intro m
      have := ih (if p a then max m (g a) else m)
      simp only [List.foldl_cons]
      refine Nat.le_trans ?_ this
      split <;> omega
  have h3 : ∀ (l : List Sched) (p : Sched → Bool) (m : Nat), m ≤ l.foldl (fun m f => if p f then max m f.due else m) m := by
    intro l p
    induction l with
    | nil => simp
    | cons a l ih =>
      intro m
      have := ih (if p a then max m a.due else m)
      simp only [List.foldl_cons]
      refine Nat.le_trans ?_ this
      split <;> omega
  unfold State.drainDue
  refine Nat.le_trans ((h1 _ 0).2 f hf) ?_
  refine Nat.le_trans (h2 _ _ _ _) (h3 _ _ _)

end Sys2Proof.Machine
end

