-- ==== Sys2Proof/Laws/Engine.lean ====
section
/-! SUPPORT. What putting an engine operation into its queue does, said once. -/

namespace Sys2Proof.Machine

theorem mem_captureDeps (c : Ctx) (k : Deps) (x : Dep) : x ∈ captureDeps c k ↔
    ∃ n, (n = k.tc0 ∨ n = k.tc1 ∨ n = k.tc2) ∧ n ≠ k.tp
      ∧ x = if c.tok[n] = .pending then .ref c.tokOp[n] else .was c.tok[n] := by
  have one : ∀ t : TokId, (x ∈ (if t = k.tp then [] else if c.tok[t] = .pending then [Dep.ref c.tokOp[t]]
      else [Dep.was c.tok[t]])) ↔ t ≠ k.tp ∧ x = if c.tok[t] = .pending then .ref c.tokOp[t] else .was c.tok[t] := by
    intro t
    by_cases h : t = k.tp
    · simp [h]
    · rw [if_neg h]
      split <;> simp [h]
  unfold captureDeps
  simp only [List.mem_append, one]
  constructor
  · rintro ((h | h) | h)
    · exact ⟨_, .inl rfl, h⟩
    · exact ⟨_, .inr (.inl rfl), h⟩
    · exact ⟨_, .inr (.inr rfl), h⟩
  · rintro ⟨n, rfl | rfl | rfl, h⟩
    · exact .inl (.inl h)
    · exact .inl (.inr h)
    · exact .inr h

/-- The operation that `enqueue` makes. -/
def State.newOp (s : State) (ins : Instr) (k : Deps) (own : Fin 16) (v far : List Word) (follow chained : Bool) : Op :=
  let c := s.cur
  let x := s.die s.iss.die
  let copy := if chained then c.unbound.head? else none
  { id := s.fresh, ctx := s.iss.ctx, bundle := s.iss.bundle, issued := s.cycle, ins := ins
    major := (opcodeOf ins).1, minor := (opcodeOf ins).2
    va := v.getD 0 0, vb := v.getD 1 0, vc := v.getD 2 0, vd := v.getD 3 0, fmt := s.cap
    cls := s.clsOf own, tag := s.tagOf
    tagWait := c.tagWait, tagLimit := c.tagLimit, strict := c.opStrict, act := fmtAct s.rf.fmt
    job := x.jobOf s.iss.ctx, bind := bindFar c far, win := c.win, tp := k.tp
    deps := captureDeps c k, fold := k.fold, follow := follow, hnd := c.priv
    bound := match copy with
      | some (id, none) => some id
      | _ => none
    boundErr := copy.any fun e => e.2 == some false }

theorem State.newOp_for (s : State) (i : Instr) (k : Deps) (own : Fin 16) (v far : List Word) (fo chn : Bool) :
    s.OpFor i k own (v.getD 0 0) (v.getD 1 0) (v.getD 2 0) (v.getD 3 0) (s.newOp i k own v far fo chn) :=
  ⟨rfl, ⟨rfl, rfl, rfl, rfl⟩, ⟨rfl, rfl, rfl, rfl⟩, ⟨s.clsOf_eq own, s.tagOf_eq, rfl, rfl⟩, rfl, rfl, ⟨rfl, rfl, rfl, rfl⟩,
    mem_captureDeps _ _⟩

/-- The fields of a macro record that is begun (R170). -/
theorem macroRecord_fields (q : Fin 19) (a b : Nat) :
    let e := macroRecord 0 0 1 q.val a b
    e.extractLsb' 0 64 = 0 ∧ e.extractLsb' 64 8 = 0 ∧ e.extractLsb' 72 8 = 1 ∧ (e.extractLsb' 80 8).toNat = q.val := by
  have hq := q.isLt
  intro e
  have he : e.toNat = (2 ^ 72 * (1 + 2 ^ 8 * (q.val + 2 ^ 8 * (a + 2 ^ 8 * b)))) % 2 ^ 128 := by
    show (macroRecord 0 0 1 q.val a b).toNat = _
    unfold macroRecord
    rw [BitVec.toNat_ofNat]
    congr 1
    simp
    ring
  generalize hz : q.val + 2 ^ 8 * (a + 2 ^ 8 * b) = z at he
  have hz2 : z % 256 = q.val := by subst hz; omega
  refine ⟨?_, ?_, ?_, ?_⟩
  · apply BitVec.eq_of_toNat_eq
    rw [BitVec.extractLsb'_toNat, he, Nat.shiftRight_eq_div_pow]
    show _ = 0; omega
  · apply BitVec.eq_of_toNat_eq
    rw [BitVec.extractLsb'_toNat, he, Nat.shiftRight_eq_div_pow]
    show _ = 0; omega
  · apply BitVec.eq_of_toNat_eq
    rw [BitVec.extractLsb'_toNat, he, Nat.shiftRight_eq_div_pow]
    show _ = 1; omega
  · rw [BitVec.extractLsb'_toNat, he, Nat.shiftRight_eq_div_pow]; omega

theorem Ctx.putRecord_file (c : Ctx) (hnd h : Bool) (t : TokId) (e : BitVec 128) :
    (c.putRecord hnd t e).file h = if h = hnd then (c.file h).touch (macroLine t) else c.file h := by
  cases hnd <;> cases h <;> rfl

/-- A macro record put into a context, and what else an operation leaves there. -/
theorem Ctx.putRecord_parts (c : Ctx) (t : TokId) (e : BitVec 128) (p : Vector Nat 64) (un : List (Nat × Option Bool)) :
    ∃ f g u m h r q, { c.putRecord c.priv t e with tokOp := p, unbound := un } = { c with
        task := f, hnd := g, unbound := u, macroRec := m, hndRec := h, recHnd := r, tokOp := q }
      ∧ (if c.priv then h[t] else m[t]) = e ∧ ∀ n : TokId, n ≠ t → m[n] = c.macroRec[n] ∧ h[n] = c.hndRec[n] := by
  unfold Ctx.putRecord Ctx.modFile
  by_cases hp : c.priv = true
  · refine ⟨c.task, c.hnd.touch (macroLine t), un, c.macroRec, vset c.hndRec t e, c.recHnd ||| BitVec.ofNat 64 (2 ^ t.val),
      p, ?_, ?_, fun n hn => ⟨rfl, ?_⟩⟩
    · simp only [hp, if_true]
    · rw [if_pos hp, vset_get, if_pos rfl]
    · rw [vset_get, if_neg (Ne.symm hn)]
  · refine ⟨c.task.touch (macroLine t), c.hnd, un, vset c.macroRec t e, c.hndRec,
      c.recHnd &&& ~~~BitVec.ofNat 64 (2 ^ t.val), p, ?_, ?_, fun n hn => ⟨?_, rfl⟩⟩
    · simp only [if_neg hp]
    · rw [if_neg hp, vset_get, if_pos rfl]
    · rw [vset_get, if_neg (Ne.symm hn)]

/-- An operation put into its queue. -/
theorem State.enqueue_enqueued (s : State) (q : Fin 19) (i : Instr) (k : Deps) (own : Fin 16) (v far : List Word)
    (fo chn : Bool) : s.Enqueued (s.enqueue q i k own v far fo chn) q k (s.newOp i k own v far fo chn) := by
  let o := s.newOp i k own v far fo chn
  let u := s.modDie s.iss.die fun x =>
    { x with queues := vmod x.queues q (· ++ [o]), tokEvts := x.tokEvts ++ [(s.iss.ctx, k.tp, .pending)] }
  let g : Ctx → Ctx := fun c =>
    { c.putRecord c.priv k.tp (macroRecord 0 0 1 q.val o.major o.minor) with
      tokOp := vset c.tokOp k.tp o.id
      unbound := (if chn then c.unbound.drop 1 else c.unbound) ++ (if fo then [(o.id, none)] else []) }
  have e : s.enqueue q i k own v far fo chn = (u.modCtx s.iss.die s.iss.ctx g).takeFresh := rfl
  let w : Die → Die := fun x =>
    { x with queues := vmod x.queues q (· ++ [o]), tokEvts := x.tokEvts ++ [(s.iss.ctx, k.tp, .pending)] }
  have hu : u.die s.iss.die = w (s.die s.iss.die) := s.die_modDie ..
  have hc : u.ctx s.iss.die s.iss.ctx = s.cur := by
    show (u.die s.iss.die).ctx s.iss.ctx = _
    rw [hu]; rfl
  have hd : { (u.modCtx s.iss.die s.iss.ctx g).die s.iss.die with ctxs := (u.die s.iss.die).ctxs } = u.die s.iss.die :=
    u.dies_modCtx ..
  have hq : ((u.modCtx s.iss.die s.iss.ctx g).die s.iss.die).queues = (u.die s.iss.die).queues := by rw [← hd]
  have ht : ((u.modCtx s.iss.die s.iss.ctx g).die s.iss.die).tokEvts = (u.die s.iss.die).tokEvts := by rw [← hd]
  have hx : (u.modCtx s.iss.die s.iss.ctx g).ctx s.iss.die s.iss.ctx = g s.cur := by
    rw [State.ctx_modCtx, hc]
  rw [e]
  refine ⟨?_, ?_, ?_, ?_, ?_, ?_, ?_, ?_, rfl, ?_⟩
  · intro p
    show ((u.modCtx s.iss.die s.iss.ctx g).die s.iss.die).queues[p] = _
    rw [hq, hu]
    show (vmod (s.die s.iss.die).queues q (· ++ [o]))[p] = _
    unfold vmod
    rw [vset_get]
    by_cases h : q = p
    · subst h; rw [if_pos rfl]; try rfl
    · rw [if_neg h, if_neg (Ne.symm h)]
  · show ((u.modCtx s.iss.die s.iss.ctx g).die s.iss.die).tokEvts = _
    rw [ht, hu]
  · let r : Die → Die := fun x => { x with
      queues := (s.die s.iss.die).queues, tokEvts := (s.die s.iss.die).tokEvts, ctxs := (s.die s.iss.die).ctxs }
    show r ((u.modCtx s.iss.die s.iss.ctx g).die s.iss.die) = _
    have h2 : r ((u.modCtx s.iss.die s.iss.ctx g).die s.iss.die) = r (u.die s.iss.die) :=
      (show _ = r { (u.modCtx s.iss.die s.iss.ctx g).die s.iss.die with ctxs := (u.die s.iss.die).ctxs } from rfl).trans
        (congrArg r hd)
    rw [h2, hu]
  · intro d h
    show (u.modCtx s.iss.die s.iss.ctx g).die d = _
    unfold State.modCtx
    rw [State.die_modDie_other _ _ (Ne.symm h), State.die_modDie_other _ _ (Ne.symm h)]
  · intro n h
    show (u.modCtx s.iss.die s.iss.ctx g).ctx s.iss.die n = _
    rw [u.ctx_modCtx_other _ (Or.inr h)]
    show (u.die s.iss.die).ctx n = _
    rw [hu]; rfl
  · intro n
    show ((u.modCtx s.iss.die s.iss.ctx g).ctx s.iss.die s.iss.ctx).tokOp[n] = _
    rw [hx]
    show (vset s.cur.tokOp k.tp o.id)[n] = _
    rw [vset_get]
    by_cases h : k.tp = n
    · subst h; rw [if_pos rfl]; try rfl
    · rw [if_neg h, if_neg (Ne.symm h)]
  · intro h
    show ∃ a b, ((u.modCtx s.iss.die s.iss.ctx g).ctx s.iss.die s.iss.ctx).file h = _
    rw [hx]
    have e : (g s.cur).file h = (s.cur.putRecord s.cur.priv k.tp (macroRecord 0 0 1 q.val o.major o.minor)).file h := rfl
    rw [e, Ctx.putRecord_file]
    split
    · exact ⟨_, _, rfl⟩
    · exact ⟨(s.cur.file h).touched, (s.cur.file h).dirty, rfl⟩
  · show ∃ f g' u' m h r p, (u.modCtx s.iss.die s.iss.ctx g).ctx s.iss.die s.iss.ctx = _ ∧ _
    rw [hx]
    have hm := macroRecord_fields q o.major o.minor
    obtain ⟨f, g', u', m, h, r, p, h1, h2, h3⟩ := Ctx.putRecord_parts s.cur k.tp (macroRecord 0 0 1 q.val o.major o.minor)
      (vset s.cur.tokOp k.tp o.id)
      ((if chn then s.cur.unbound.drop 1 else s.cur.unbound) ++ (if fo then [(o.id, none)] else []))
    refine ⟨f, g', u', m, h, r, p, h1, ?_, h3⟩
    rw [h2]; exact hm
  · refine ⟨fun _ => rfl, fun d a => ?_⟩
    show ((u.modCtx s.iss.die s.iss.ctx g).die d).bankByte a = _
    refine ((State.sameBytes_modCtx u s.iss.die s.iss.ctx g).2 d a).trans ?_
    by_cases h : d = s.iss.die
    · subst h; rw [hu]; rfl
    · rw [State.die_modDie_other _ _ (Ne.symm h)]

/-- A meaning that puts an operation into a queue. -/
theorem State.yieldsOp_of (s : State) (q : Fin 19) (i : Instr) (k : Deps) (own : Fin 16) (v far : List Word)
    (fo chn : Bool) (h : exec i s = .next (s.enqueue q i k own v far fo chn)) :
    s.YieldsOp i q k own (v.getD 0 0) (v.getD 1 0) (v.getD 2 0) (v.getD 3 0) :=
  ⟨_, _, h, s.newOp_for i k own v far fo chn, s.enqueue_enqueued q i k own v far fo chn⟩

end Sys2Proof.Machine
end

