-- ==== Sys2Proof/Laws/Fabric.lean ====
section
/-! SUPPORT. What sending on the fabric may change, said once: the ports, the busy ports, the slots that wait for a port, the
count of expired slots, the agenda and the fresh numbers. -/

namespace Sys2Proof.Machine

/-- A state that differs at most in what sending changes. -/
def State.SendsOnly (s t : State) : Prop :=
  t = { s with agenda := t.agenda, fresh := t.fresh
               fabric := { s.fabric with ports := t.fabric.ports, busy := t.fabric.busy, stuck := t.fabric.stuck
                                         expired := t.fabric.expired } }

theorem State.SendsOnly.refl (s : State) : s.SendsOnly s := rfl

theorem State.SendsOnly.trans {s t u : State} (h : s.SendsOnly t) (k : t.SendsOnly u) : s.SendsOnly u := by
  rw [State.SendsOnly] at h k
  rw [State.SendsOnly, k, h]

theorem State.sends_sched (s : State) (n : Nat) (a : Instr) (e : EvArg) : s.SendsOnly (s.sched n a e) := rfl

theorem State.sends_takeFresh (s : State) : s.SendsOnly s.takeFresh := rfl

theorem State.sends_modPort (s : State) (p : PortId) (f : Port → Port) : s.SendsOnly (s.modPort p f) := rfl

theorem State.sends_wake (s : State) (p : PortId) : s.SendsOnly (s.wake p) := rfl

theorem State.sends_startFlits (s : State) (p : PortId) (t : FabSlot) : s.SendsOnly (s.startFlits p t) := by
  unfold State.startFlits
  dsimp only
  split <;> rfl

theorem State.sends_startPortSlot (s : State) (p : PortId) (w : PortWait) : s.SendsOnly (s.startPortSlot p w) := by
  unfold State.startPortSlot
  refine (s.sends_modPort p fun q => { q with waiting := q.waiting.filter fun o => o.id != w.id }).trans ?_
  dsimp only
  split
  · exact (State.sends_modPort _ p fun q => { q with markerSent := true }).trans (State.sends_startFlits _ _ _)
  · split
    · exact State.sends_startFlits _ _ _
    · split
      · exact State.sends_modPort _ _ _
      · exact (State.sends_modPort _ p _).trans (State.sends_startFlits _ _ _)

theorem State.sends_pumpN (p : PortId) (n : Nat) : ∀ s : State, s.SendsOnly (s.pumpN p n) := by
  induction n with
  | zero => exact State.SendsOnly.refl
  | succ n ih =>
    intro s
    unfold State.pumpN
    dsimp only
    split
    · rfl
    · split
      · rfl
      · exact (s.sends_startPortSlot p _).trans (ih _)

theorem State.sends_pump (s : State) (p : PortId) : s.SendsOnly (s.pump p) := State.sends_pumpN _ _ _

theorem State.sends_queueSince (s : State) (p : PortId) (t : FabSlot) (since : Nat) : s.SendsOnly (s.queueSince p t since) := by
  have h : s.SendsOnly (((s.modPort p fun q => { q with waiting := q.waiting ++ [{ id := s.fresh, slot := t, since := since }] }
      ).takeFresh).pump p) :=
    ((s.sends_modPort p _).trans (State.sends_takeFresh _)).trans (State.sends_pump _ p)
  unfold State.queueSince
  dsimp only
  split
  · exact h.trans (State.sends_sched _ _ _ _)
  · exact h

theorem State.sends_deliver (s : State) (p : PortId) (t : FabSlot) : s.SendsOnly (s.deliver p t) := State.sends_sched _ _ _ _

theorem State.sends_sendSince (s : State) (t : FabSlot) (on : Option (Ring × Bool)) (was : Option PortId) (since : Nat) :
    s.SendsOnly (s.sendSince t on was since) := by
  unfold State.sendSince
  split
  · rfl
  · dsimp only
    split
    · exact s.sends_queueSince _ _ _
    · rfl

theorem State.sends_sendOut (s : State) (t : FabSlot) (on : Option (Ring × Bool)) : s.SendsOnly (s.sendOut t on) :=
  s.sends_sendSince _ _ _ _

theorem State.sends_sendFrom (s : State) (t : FabSlot) : s.SendsOnly (s.sendFrom t) := by
  unfold State.sendFrom
  split
  · exact s.sends_deliver _ _
  · exact s.sends_sendOut _ _

theorem State.sends_control (s : State) (k : SlotKind) (p : BitVec 18) (n : BitVec 16) (q : BitVec 24) (w : Word) :
    s.SendsOnly (s.control k p n q w) := s.sends_sendFrom _

theorem State.sends_ackSlot (s : State) (t : FabSlot) (q : BitVec 24) (c : BitVec 8) : s.SendsOnly (s.ackSlot t q c) :=
  s.sends_control _ _ _ _ _

theorem State.sends_armResend (s : State) (o : OutSlot) (n : Nat) : s.SendsOnly (s.armResend o n) := by
  unfold State.armResend
  split <;> rfl

theorem State.sends_takeLack (s : State) (p : PortId) (v : BitVec 8) : s.SendsOnly (s.takeLack p v) := by
  unfold State.takeLack
  dsimp only
  repeat' split
  all_goals first
    | rfl
    | exact (State.sends_modPort _ p _).trans (State.sends_pump _ p)

theorem State.sends_takeMode (s : State) (p : PortId) (f : Flit) : s.SendsOnly (s.takeMode p f) := by
  unfold State.takeMode
  dsimp only
  repeat' split
  all_goals rfl

theorem State.sends_passOn (s : State) (p : PortId) (t : FabSlot) : s.SendsOnly (s.passOn p t) := by
  unfold State.passOn
  repeat' split
  all_goals rfl

theorem State.sends_slotIn (s : State) (p : PortId) (t : FabSlot) : s.SendsOnly (s.slotIn p t) := by
  unfold State.slotIn
  split
  · exact s.sends_passOn p t
  · split
    · rfl
    · dsimp only
      split
      · rfl
      · exact (s.sends_modPort p _).trans (State.sends_passOn _ _ _)

theorem State.sends_acceptFlit (s : State) (p : PortId) (f : Flit) : s.SendsOnly (s.acceptFlit p f) := by
  have last (u : State) (c : Bool) (v : FabSlot) (h : s.SendsOnly u) : s.SendsOnly (if c then u.slotIn p v else u) := by
    split
    · exact h.trans (State.sends_slotIn _ _ _)
    · exact h
  exact last _ _ _ (((s.sends_takeLack p f.lack).trans (State.sends_takeMode _ p f)).trans (State.sends_modPort _ p _))

/-- What sending never changes. -/
theorem State.SendsOnly.frame {s t : State} (h : s.SendsOnly t) : t.dies = s.dies ∧ t.mem = s.mem ∧ t.panel = s.panel
    ∧ t.stations = s.stations ∧ t.cycle = s.cycle ∧ t.freeCtr = s.freeCtr ∧ t.ev = s.ev ∧ t.fabric.out = s.fabric.out
    ∧ t.fabric.works = s.fabric.works ∧ t.fabric.inn = s.fabric.inn ∧ t.fabric.qps = s.fabric.qps ∧ t.fabric.due = s.fabric.due
    ∧ t.fabric.peers = s.fabric.peers ∧ t.fabric.nextSeq = s.fabric.nextSeq ∧ t.fabric.paths = s.fabric.paths
    ∧ t.fabric.hold = s.fabric.hold ∧ t.fabric.lost = s.fabric.lost ∧ t.fabric.heldFab = s.fabric.heldFab := by
  rw [State.SendsOnly] at h
  rw [h]
  exact ⟨rfl, rfl, rfl, rfl, rfl, rfl, rfl, rfl, rfl, rfl, rfl, rfl, rfl, rfl, rfl, rfl, rfl, rfl⟩

end Sys2Proof.Machine
end

