-- ==== Sys2Proof/Laws/Int.lean ====
section
/-! SUPPORT. The integer helpers of the meanings in the terms of the claims: the integer that w bits hold, extension of a
result, and reduction of an exact integer to its type (R36 to R40, R101). -/

namespace Sys2Proof.Machine

theorem width_pos (t : Ty) : 0 < t.width := by cases t <;> decide

theorem toSigned_eq (w v : Nat) (h : 0 < w) : toSigned w v = (BitVec.ofNat w v).toInt := by
  unfold toSigned
  rw [BitVec.toInt_eq_toNat_cond, BitVec.toNat_ofNat]
  have e : 2 ^ w = 2 * 2 ^ (w - 1) := by
    obtain ⟨k, rfl⟩ : ∃ k, w = k + 1 := ⟨w - 1, by omega⟩
    rw [Nat.pow_succ, Nat.add_sub_cancel]; omega
  simp only [e]
  split <;> split <;> omega

/-- What a number reads as under a type. -/
theorem intVal_ofNat (t : Ty) (n : Nat) : intVal t n = Ty.int t (BitVec.ofNat t.width n) := by
  unfold intVal Ty.int
  split
  · exact toSigned_eq _ _ (width_pos t)
  · rw [BitVec.toNat_ofNat]

/-- What a source reads as under a type. -/
theorem intVal_low (t : Ty) (a : Word) : intVal t a.toNat = Ty.int t (Ty.low t a) := by
  rw [intVal_ofNat]
  congr 1
  exact BitVec.eq_of_toNat_eq (by simp [Ty.low])

theorem intVal_src (s : State) (t : Ty) (a : Src) : intVal t (s.srcN a) = s.intOf t a := intVal_low t _

/-- The register value of result bits. -/
theorem extend_eq (t : Ty) (n : Nat) : extend t n = Ty.ext t (BitVec.ofNat t.width n) := by
  unfold extend Ty.ext
  split
  · rw [toSigned_eq _ _ (width_pos t)]
    rfl
  · apply BitVec.eq_of_toNat_eq
    simp

theorem lowBits_ofNat (w : Nat) (x : Int) : BitVec.ofNat w (lowBits w x) = BitVec.ofInt w x := by
  apply BitVec.eq_of_toNat_eq
  rw [BitVec.toNat_ofNat, BitVec.toNat_ofInt]
  unfold lowBits
  apply Nat.mod_eq_of_lt
  have h : (0 : Int) < ((2 ^ w : Nat) : Int) := by exact_mod_cast Nat.two_pow_pos w
  have h1 := Int.emod_lt_of_pos x h
  have h2 := Int.emod_nonneg x (Int.ne_of_gt h)
  omega

/-- An integer in the range of its type is what its low bits hold. -/
theorem int_ofInt (t : Ty) (x : Int) (h1 : tyMin t ≤ x) (h2 : x ≤ tyMax t) : Ty.int t (BitVec.ofInt t.width x) = x := by
  have hw := width_pos t
  have e : (2 ^ t.width : Nat) = 2 * 2 ^ (t.width - 1) := by
    obtain ⟨k, hk⟩ : ∃ k, t.width = k + 1 := ⟨t.width - 1, by omega⟩
    rw [hk, Nat.pow_succ, Nat.add_sub_cancel]; omega
  have hp : 0 < 2 ^ (t.width - 1) := Nat.two_pow_pos _
  unfold Ty.int
  unfold tyMin at h1
  unfold tyMax at h2
  split
  · next hs =>
    simp only [hs, if_true] at h1 h2
    rw [BitVec.toInt_ofInt, Int.bmod_def]
    generalize 2 ^ (t.width - 1) = k at *
    rw [e]
    by_cases hx : 0 ≤ x
    · rw [Int.emod_eq_of_lt hx (by omega), if_pos (by omega)]
    · have h3 : x % ((2 * k : Nat) : Int) = x + ((2 * k : Nat) : Int) := by
        rw [← Int.add_emod_right]
        exact Int.emod_eq_of_lt (by omega) (by omega)
      rw [h3, if_neg (by omega)]
      omega
  · next hs =>
    simp only [hs] at h1 h2
    simp only [Bool.false_eq_true, if_false] at h1 h2
    rw [BitVec.toNat_ofInt]
    have h3 : x % ((2 ^ t.width : Nat) : Int) = x := Int.emod_eq_of_lt h1 (by omega)
    rw [h3]
    omega

theorem tyMin_le_tyMax (t : Ty) : tyMin t ≤ tyMax t := by
  unfold tyMin tyMax
  have hp : 0 < 2 ^ (t.width - 1) := Nat.two_pow_pos _
  have hq : 0 < 2 ^ t.width := Nat.two_pow_pos _
  split <;> omega

/-- Reduction of an exact integer to its type (R39, R101). -/
theorem reduce_spec (t : Ty) (sat : Bool) (x : Int) :
    Reduced t sat x (BitVec.ofNat t.width (reduce t sat x).1) (reduce t sat x).2 := by
  have hm := tyMin_le_tyMax t
  unfold reduce
  split
  · next h =>
    simp only [Bool.and_eq_true, decide_eq_true_eq] at h
    obtain ⟨h1, h2⟩ := h
    refine ⟨fun _ _ => ⟨?_, rfl⟩, fun h => by omega, fun h => by omega, fun h => by omega⟩
    simp only [lowBits_ofNat]
    exact int_ofInt t x h1 h2
  · next h =>
    simp only [Bool.and_eq_true, decide_eq_true_eq] at h
    split
    · next hs =>
      refine ⟨fun a b => absurd ⟨a, b⟩ h, fun hb _ => ?_, fun ha _ => ?_, fun _ h' => by simp [hs] at h'⟩
      · simp only [if_pos hb, lowBits_ofNat]
        exact ⟨int_ofInt t _ (Int.le_refl _) hm, trivial⟩
      · simp only [if_neg (show ¬ x < tyMin t by omega), lowBits_ofNat]
        exact ⟨int_ofInt t _ hm (Int.le_refl _), trivial⟩
    · next hs =>
      refine ⟨fun a b => absurd ⟨a, b⟩ h, fun _ h' => absurd h' hs, fun _ h' => absurd h' hs, fun _ _ => ?_⟩
      exact ⟨lowBits_ofNat _ _, rfl⟩

/-- A reduced integer result of the bundle in progress. -/
theorem State.intLand_gives (s : State) (lat : Nat) (d : Dst) (t : Ty) (r : Nat × Flg) :
    s.Gives (s.intLand lat d t r) (withFlags lat s.intSlot (.scalar d (Ty.ext t (BitVec.ofNat t.width r.1))) r.2) := by
  unfold State.intLand
  rw [extend_eq t r.1]
  exact s.landF_gives _ _ _ _

/-- An instruction whose meaning lands a reduced integer yields it. -/
theorem State.yieldsInt_of (s : State) (i : Instr) (lat : Nat) (t : Ty) (d : Dst) (x : Int)
    (h : exec i s = .next (s.intLand lat d t (reduce t s.cap.sat x))) : s.YieldsInt i lat t d x :=
  ⟨_, _, reduce_spec t s.cap.sat x, _, h, s.intLand_gives lat d t _⟩

/-- An instruction whose meaning lands w bits without a flag yields them. -/
theorem State.yieldsBits_of (s : State) (i : Instr) (lat : Nat) (t : Ty) (d : Dst) (n : Nat) (v : BitVec t.width)
    (h : exec i s = .next (s.intLand lat d t (noFlag n))) (hv : BitVec.ofNat t.width n = v) :
    s.YieldsBits i lat t d v := by
  subst hv
  exact ⟨_, h, s.intLand_gives lat d t (noFlag n)⟩

/-! ### The meanings on w-bit values, in bit vectors -/

/-- The bits of the integer that some bits hold. -/
theorem ofInt_int (t : Ty) (v : BitVec t.width) : BitVec.ofInt t.width (Ty.int t v) = v := by
  unfold Ty.int; split <;> simp

/-- The bitwise meanings act on the low bits (R102). -/
theorem intAnd_eq (t : Ty) (a b : Word) : BitVec.ofNat t.width (intAnd t a.toNat b.toNat) = Ty.low t a &&& Ty.low t b := by
  apply BitVec.eq_of_toNat_eq; unfold intAnd Ty.low
  simp only [BitVec.toNat_ofNat, BitVec.toNat_and, BitVec.toNat_setWidth, Nat.mod_mod]
  exact Nat.and_mod_two_pow ..

/-- As `intAnd_eq`. -/
theorem intOr_eq (t : Ty) (a b : Word) : BitVec.ofNat t.width (intOr t a.toNat b.toNat) = Ty.low t a ||| Ty.low t b := by
  apply BitVec.eq_of_toNat_eq; unfold intOr Ty.low
  simp only [BitVec.toNat_ofNat, BitVec.toNat_or, BitVec.toNat_setWidth, Nat.mod_mod]
  exact Nat.or_mod_two_pow ..

/-- As `intAnd_eq`. -/
theorem intXor_eq (t : Ty) (a b : Word) : BitVec.ofNat t.width (intXor t a.toNat b.toNat) = Ty.low t a ^^^ Ty.low t b := by
  apply BitVec.eq_of_toNat_eq; unfold intXor Ty.low
  simp only [BitVec.toNat_ofNat, BitVec.toNat_xor, BitVec.toNat_setWidth, Nat.mod_mod]
  exact Nat.xor_mod_two_pow ..

/-- As `intAnd_eq`. -/
theorem intAndn_eq (t : Ty) (a b : Word) : BitVec.ofNat t.width (intAndn t a.toNat b.toNat) = Ty.low t a &&& ~~~Ty.low t b := by
  have hw : t.width ≤ 64 := by cases t <;> decide
  have : BitVec.ofNat t.width (intAndn t a.toNat b.toNat) = (a ^^^ (a &&& b)).setWidth t.width := by
    apply BitVec.eq_of_toNat_eq; unfold intAndn
    simp only [BitVec.toNat_ofNat, BitVec.toNat_xor, BitVec.toNat_and, BitVec.toNat_setWidth, Nat.mod_mod]
    rfl
  rw [this]; unfold Ty.low
  ext i hi
  simp [show i < 64 by omega, hi]
  cases a[i] <;> cases b[i] <;> rfl

/-- The value of a short immediate (R105). -/
theorem imm9Val_eq (i : BitVec 9) : imm9Val i = (i.signExtend 64).toNat := rfl

/-- The value of a long immediate (R106). -/
theorem imm32Val_eq (t : Ty) (i : BitVec 32) : imm32Val t i = (if Ty.signed t then i.signExtend 64 else i.setWidth 64 : Word).toNat := by
  unfold imm32Val signExt; split <;> simp
  omega

/-- A shift count in a short immediate. -/
theorem imm9Val_mod (i : BitVec 9) (h : i.toNat < 64) : imm9Val i % 64 = i.toNat := by
  unfold imm9Val signExt
  revert i; decide

/-- `shr` is the logical right shift of the low bits (R103). -/
theorem shrNat_eq (t : Ty) (a : Word) (n : Nat) (h : n < t.width) : BitVec.ofNat t.width (shrNat t.width a.toNat n) = Ty.low t a >>> n := by
  apply BitVec.eq_of_toNat_eq
  unfold shrNat Ty.low
  simp [h, Nat.shiftRight_eq_div_pow]
  apply Nat.mod_eq_of_lt
  exact Nat.lt_of_le_of_lt (Nat.div_le_self _ _) (Nat.mod_lt _ (Nat.two_pow_pos _))

/-- `sar` is the arithmetic right shift of the low bits (R103). -/
theorem sar_eq (t : Ty) (a : Word) (n : Nat) : BitVec.ofNat t.width (lowBits t.width (toSigned t.width a.toNat / ((2 ^ n : Nat) : Int))) = (Ty.low t a).sshiftRight n := by
  rw [lowBits_ofNat, toSigned_eq _ _ (width_pos t)]
  apply BitVec.eq_of_toInt_eq
  rw [BitVec.toInt_sshiftRight, BitVec.toInt_ofInt, Int.shiftRight_eq_div_pow]
  have : BitVec.ofNat t.width a.toNat = Ty.low t a := BitVec.eq_of_toNat_eq (by simp [Ty.low])
  rw [this, ← BitVec.toInt_ofInt, ← Int.shiftRight_eq_div_pow, ← BitVec.toInt_sshiftRight, BitVec.ofInt_toInt]

/-- `rot` is the left rotate of the low bits (R103). -/
theorem rotNat_eq (t : Ty) (a : Word) (n : Nat) (h : n < t.width) : BitVec.ofNat t.width (rotNat t.width a.toNat n) = (Ty.low t a).rotateLeft n := by
  have hx : a.toNat % 2 ^ t.width = (Ty.low t a).toNat := by simp [Ty.low]
  unfold rotNat
  simp only [Nat.mod_eq_of_lt h, hx]
  generalize Ty.low t a = x
  rw [BitVec.rotateLeft_def, Nat.mod_eq_of_lt h]
  have e : x <<< n ||| x >>> (t.width - n) = x <<< n + x >>> (t.width - n) := by
    rw [BitVec.add_eq_or_of_and_eq_zero]
    ext i hi
    simp
    intro h1 h2
    apply BitVec.getLsbD_of_ge; omega
  rw [e]
  apply BitVec.eq_of_toNat_eq
  simp [Nat.shiftLeft_eq, Nat.shiftRight_eq_div_pow]

/-- The count of leading zeros is what the highest 1 bit says. -/
theorem clzNat_spec (t : Ty) (a : Word) : let n := clzNat t.width a.toNat
   n ≤ t.width ∧ (Ty.low t a).toNat < 2 ^ (t.width - n) ∧ (n < t.width → 2 ^ (t.width - n - 1) ≤ (Ty.low t a).toNat) := by
  intro n
  have hx : a.toNat % 2 ^ t.width = (Ty.low t a).toNat := by simp [Ty.low]
  have hl := (Ty.low t a).isLt
  simp only [n, clzNat, hx] 
  generalize (Ty.low t a).toNat = x at *
  have hw := width_pos t
  split
  · next h => simp [h]
  · next h =>
    have h1 := (Nat.log2_lt h).mpr hl
    refine ⟨by omega, ?_, fun _ => ?_⟩
    · rw [show t.width - (t.width - 1 - x.log2) = x.log2 + 1 by omega]; exact Nat.lt_log2_self
    · rw [show t.width - (t.width - 1 - x.log2) - 1 = x.log2 by omega]; exact Nat.log2_self_le h

/-- A sum from an accumulator. -/
theorem foldl_add_eq (l : List Nat) (a : Nat) : l.foldl (· + ·) a = a + l.foldl (· + ·) 0 := by
  induction l generalizing a with
  | nil => simp
  | cons x l ih => simp only [List.foldl_cons]; rw [ih, ih (0 + x)]; omega

/-- The count of ones is the number of 1 bits. -/
theorem popNat_eq (w v : Nat) : popNat w v = ((List.range w).filter fun k => v.testBit k).length := by
  unfold popNat
  induction w generalizing v with
  | zero => rfl
  | succ n ih =>
    rw [show splitNat 1 (n+1) v = v % 2 ^ 1 :: splitNat 1 n (v / 2 ^ 1) from rfl, List.foldl_cons, foldl_add_eq, ih, List.range_succ_eq_map]
    rw [List.filter_cons, List.filter_map]
    have : (fun k => (v / 2 ^ 1).testBit k) = ((fun k => v.testBit k) ∘ Nat.succ) := by
      funext k; simp [Nat.testBit_succ]
    rw [this]
    by_cases h : v % 2 = 1
    · simp [h]; omega
    · simp [h]; omega

end Sys2Proof.Machine
end

