-- ==== Sys2Proof/Laws/Parts.lean ====
section
/-! SUPPORT. One lemma per field of the state for each change of a part of it (an operation, an access, a slot, a pair, a
path, a queue pair, a source's stream), and reading such a part after it is changed. -/

namespace Sys2Proof.Machine

variable (s : State)

/-! ### The parts of a die, of the panel and of the fabric -/

@[simp] theorem State.modOp_cycle (d : DieId) (q : Fin 19) (id : Nat) (f : Op → Op) : (s.modOp d q id f).cycle = s.cycle := rfl

@[simp] theorem State.modOp_stations (d : DieId) (q : Fin 19) (id : Nat) (f : Op → Op) : (s.modOp d q id f).stations = s.stations := rfl

@[simp] theorem State.modOp_panel (d : DieId) (q : Fin 19) (id : Nat) (f : Op → Op) : (s.modOp d q id f).panel = s.panel := rfl

@[simp] theorem State.modOp_fabric (d : DieId) (q : Fin 19) (id : Nat) (f : Op → Op) : (s.modOp d q id f).fabric = s.fabric := rfl

@[simp] theorem State.modOp_mem (d : DieId) (q : Fin 19) (id : Nat) (f : Op → Op) : (s.modOp d q id f).mem = s.mem := rfl

@[simp] theorem State.modOp_memBad (d : DieId) (q : Fin 19) (id : Nat) (f : Op → Op) : (s.modOp d q id f).memBad = s.memBad := rfl

@[simp] theorem State.modOp_iss (d : DieId) (q : Fin 19) (id : Nat) (f : Op → Op) : (s.modOp d q id f).iss = s.iss := rfl

@[simp] theorem State.modOp_ev (d : DieId) (q : Fin 19) (id : Nat) (f : Op → Op) : (s.modOp d q id f).ev = s.ev := rfl

@[simp] theorem State.modOp_agenda (d : DieId) (q : Fin 19) (id : Nat) (f : Op → Op) : (s.modOp d q id f).agenda = s.agenda := rfl

@[simp] theorem State.modOp_portsDone (d : DieId) (q : Fin 19) (id : Nat) (f : Op → Op) : (s.modOp d q id f).portsDone = s.portsDone := rfl

@[simp] theorem State.modOp_fresh (d : DieId) (q : Fin 19) (id : Nat) (f : Op → Op) : (s.modOp d q id f).fresh = s.fresh := rfl

@[simp] theorem State.modOp_freeCtr (d : DieId) (q : Fin 19) (id : Nat) (f : Op → Op) : (s.modOp d q id f).freeCtr = s.freeCtr := rfl

@[simp] theorem State.modArr_cycle (d : DieId) (m : Fin 16) (f : Arr → Arr) : (s.modArr d m f).cycle = s.cycle := rfl

@[simp] theorem State.modArr_stations (d : DieId) (m : Fin 16) (f : Arr → Arr) : (s.modArr d m f).stations = s.stations := rfl

@[simp] theorem State.modArr_panel (d : DieId) (m : Fin 16) (f : Arr → Arr) : (s.modArr d m f).panel = s.panel := rfl

@[simp] theorem State.modArr_fabric (d : DieId) (m : Fin 16) (f : Arr → Arr) : (s.modArr d m f).fabric = s.fabric := rfl

@[simp] theorem State.modArr_mem (d : DieId) (m : Fin 16) (f : Arr → Arr) : (s.modArr d m f).mem = s.mem := rfl

@[simp] theorem State.modArr_memBad (d : DieId) (m : Fin 16) (f : Arr → Arr) : (s.modArr d m f).memBad = s.memBad := rfl

@[simp] theorem State.modArr_iss (d : DieId) (m : Fin 16) (f : Arr → Arr) : (s.modArr d m f).iss = s.iss := rfl

@[simp] theorem State.modArr_ev (d : DieId) (m : Fin 16) (f : Arr → Arr) : (s.modArr d m f).ev = s.ev := rfl

@[simp] theorem State.modArr_agenda (d : DieId) (m : Fin 16) (f : Arr → Arr) : (s.modArr d m f).agenda = s.agenda := rfl

@[simp] theorem State.modArr_portsDone (d : DieId) (m : Fin 16) (f : Arr → Arr) : (s.modArr d m f).portsDone = s.portsDone := rfl

@[simp] theorem State.modArr_fresh (d : DieId) (m : Fin 16) (f : Arr → Arr) : (s.modArr d m f).fresh = s.fresh := rfl

@[simp] theorem State.modArr_freeCtr (d : DieId) (m : Fin 16) (f : Arr → Arr) : (s.modArr d m f).freeCtr = s.freeCtr := rfl

@[simp] theorem State.modSlot_cycle (d : DieId) (n : Fin 128) (f : Slot → Slot) : (s.modSlot d n f).cycle = s.cycle := rfl

@[simp] theorem State.modSlot_stations (d : DieId) (n : Fin 128) (f : Slot → Slot) : (s.modSlot d n f).stations = s.stations := rfl

@[simp] theorem State.modSlot_panel (d : DieId) (n : Fin 128) (f : Slot → Slot) : (s.modSlot d n f).panel = s.panel := rfl

@[simp] theorem State.modSlot_fabric (d : DieId) (n : Fin 128) (f : Slot → Slot) : (s.modSlot d n f).fabric = s.fabric := rfl

@[simp] theorem State.modSlot_mem (d : DieId) (n : Fin 128) (f : Slot → Slot) : (s.modSlot d n f).mem = s.mem := rfl

@[simp] theorem State.modSlot_memBad (d : DieId) (n : Fin 128) (f : Slot → Slot) : (s.modSlot d n f).memBad = s.memBad := rfl

@[simp] theorem State.modSlot_iss (d : DieId) (n : Fin 128) (f : Slot → Slot) : (s.modSlot d n f).iss = s.iss := rfl

@[simp] theorem State.modSlot_ev (d : DieId) (n : Fin 128) (f : Slot → Slot) : (s.modSlot d n f).ev = s.ev := rfl

@[simp] theorem State.modSlot_agenda (d : DieId) (n : Fin 128) (f : Slot → Slot) : (s.modSlot d n f).agenda = s.agenda := rfl

@[simp] theorem State.modSlot_portsDone (d : DieId) (n : Fin 128) (f : Slot → Slot) : (s.modSlot d n f).portsDone = s.portsDone := rfl

@[simp] theorem State.modSlot_fresh (d : DieId) (n : Fin 128) (f : Slot → Slot) : (s.modSlot d n f).fresh = s.fresh := rfl

@[simp] theorem State.modSlot_freeCtr (d : DieId) (n : Fin 128) (f : Slot → Slot) : (s.modSlot d n f).freeCtr = s.freeCtr := rfl

@[simp] theorem State.modFill_cycle (d : DieId) (id : Nat) (f : Fill → Fill) : (s.modFill d id f).cycle = s.cycle := rfl

@[simp] theorem State.modFill_stations (d : DieId) (id : Nat) (f : Fill → Fill) : (s.modFill d id f).stations = s.stations := rfl

@[simp] theorem State.modFill_panel (d : DieId) (id : Nat) (f : Fill → Fill) : (s.modFill d id f).panel = s.panel := rfl

@[simp] theorem State.modFill_fabric (d : DieId) (id : Nat) (f : Fill → Fill) : (s.modFill d id f).fabric = s.fabric := rfl

@[simp] theorem State.modFill_mem (d : DieId) (id : Nat) (f : Fill → Fill) : (s.modFill d id f).mem = s.mem := rfl

@[simp] theorem State.modFill_memBad (d : DieId) (id : Nat) (f : Fill → Fill) : (s.modFill d id f).memBad = s.memBad := rfl

@[simp] theorem State.modFill_iss (d : DieId) (id : Nat) (f : Fill → Fill) : (s.modFill d id f).iss = s.iss := rfl

@[simp] theorem State.modFill_ev (d : DieId) (id : Nat) (f : Fill → Fill) : (s.modFill d id f).ev = s.ev := rfl

@[simp] theorem State.modFill_agenda (d : DieId) (id : Nat) (f : Fill → Fill) : (s.modFill d id f).agenda = s.agenda := rfl

@[simp] theorem State.modFill_portsDone (d : DieId) (id : Nat) (f : Fill → Fill) : (s.modFill d id f).portsDone = s.portsDone := rfl

@[simp] theorem State.modFill_fresh (d : DieId) (id : Nat) (f : Fill → Fill) : (s.modFill d id f).fresh = s.fresh := rfl

@[simp] theorem State.modFill_freeCtr (d : DieId) (id : Nat) (f : Fill → Fill) : (s.modFill d id f).freeCtr = s.freeCtr := rfl

@[simp] theorem State.modMWin_cycle (d : DieId) (n : Fin 16) (f : MWin → MWin) : (s.modMWin d n f).cycle = s.cycle := rfl

@[simp] theorem State.modMWin_stations (d : DieId) (n : Fin 16) (f : MWin → MWin) : (s.modMWin d n f).stations = s.stations := rfl

@[simp] theorem State.modMWin_panel (d : DieId) (n : Fin 16) (f : MWin → MWin) : (s.modMWin d n f).panel = s.panel := rfl

@[simp] theorem State.modMWin_fabric (d : DieId) (n : Fin 16) (f : MWin → MWin) : (s.modMWin d n f).fabric = s.fabric := rfl

@[simp] theorem State.modMWin_mem (d : DieId) (n : Fin 16) (f : MWin → MWin) : (s.modMWin d n f).mem = s.mem := rfl

@[simp] theorem State.modMWin_memBad (d : DieId) (n : Fin 16) (f : MWin → MWin) : (s.modMWin d n f).memBad = s.memBad := rfl

@[simp] theorem State.modMWin_iss (d : DieId) (n : Fin 16) (f : MWin → MWin) : (s.modMWin d n f).iss = s.iss := rfl

@[simp] theorem State.modMWin_ev (d : DieId) (n : Fin 16) (f : MWin → MWin) : (s.modMWin d n f).ev = s.ev := rfl

@[simp] theorem State.modMWin_agenda (d : DieId) (n : Fin 16) (f : MWin → MWin) : (s.modMWin d n f).agenda = s.agenda := rfl

@[simp] theorem State.modMWin_portsDone (d : DieId) (n : Fin 16) (f : MWin → MWin) : (s.modMWin d n f).portsDone = s.portsDone := rfl

@[simp] theorem State.modMWin_fresh (d : DieId) (n : Fin 16) (f : MWin → MWin) : (s.modMWin d n f).fresh = s.fresh := rfl

@[simp] theorem State.modMWin_freeCtr (d : DieId) (n : Fin 16) (f : MWin → MWin) : (s.modMWin d n f).freeCtr = s.freeCtr := rfl

@[simp] theorem State.foldEvt_cycle (d : DieId) (k : FoldId) (e : FoldEvt) : (s.foldEvt d k e).cycle = s.cycle := rfl

@[simp] theorem State.foldEvt_stations (d : DieId) (k : FoldId) (e : FoldEvt) : (s.foldEvt d k e).stations = s.stations := rfl

@[simp] theorem State.foldEvt_panel (d : DieId) (k : FoldId) (e : FoldEvt) : (s.foldEvt d k e).panel = s.panel := rfl

@[simp] theorem State.foldEvt_fabric (d : DieId) (k : FoldId) (e : FoldEvt) : (s.foldEvt d k e).fabric = s.fabric := rfl

@[simp] theorem State.foldEvt_mem (d : DieId) (k : FoldId) (e : FoldEvt) : (s.foldEvt d k e).mem = s.mem := rfl

@[simp] theorem State.foldEvt_memBad (d : DieId) (k : FoldId) (e : FoldEvt) : (s.foldEvt d k e).memBad = s.memBad := rfl

@[simp] theorem State.foldEvt_iss (d : DieId) (k : FoldId) (e : FoldEvt) : (s.foldEvt d k e).iss = s.iss := rfl

@[simp] theorem State.foldEvt_ev (d : DieId) (k : FoldId) (e : FoldEvt) : (s.foldEvt d k e).ev = s.ev := rfl

@[simp] theorem State.foldEvt_agenda (d : DieId) (k : FoldId) (e : FoldEvt) : (s.foldEvt d k e).agenda = s.agenda := rfl

@[simp] theorem State.foldEvt_portsDone (d : DieId) (k : FoldId) (e : FoldEvt) : (s.foldEvt d k e).portsDone = s.portsDone := rfl

@[simp] theorem State.foldEvt_fresh (d : DieId) (k : FoldId) (e : FoldEvt) : (s.foldEvt d k e).fresh = s.fresh := rfl

@[simp] theorem State.foldEvt_freeCtr (d : DieId) (k : FoldId) (e : FoldEvt) : (s.foldEvt d k e).freeCtr = s.freeCtr := rfl

@[simp] theorem State.modAcc_cycle (id : Nat) (f : RAcc → RAcc) : (s.modAcc id f).cycle = s.cycle := rfl

@[simp] theorem State.modAcc_dies (id : Nat) (f : RAcc → RAcc) : (s.modAcc id f).dies = s.dies := rfl

@[simp] theorem State.modAcc_stations (id : Nat) (f : RAcc → RAcc) : (s.modAcc id f).stations = s.stations := rfl

@[simp] theorem State.modAcc_fabric (id : Nat) (f : RAcc → RAcc) : (s.modAcc id f).fabric = s.fabric := rfl

@[simp] theorem State.modAcc_mem (id : Nat) (f : RAcc → RAcc) : (s.modAcc id f).mem = s.mem := rfl

@[simp] theorem State.modAcc_memBad (id : Nat) (f : RAcc → RAcc) : (s.modAcc id f).memBad = s.memBad := rfl

@[simp] theorem State.modAcc_iss (id : Nat) (f : RAcc → RAcc) : (s.modAcc id f).iss = s.iss := rfl

@[simp] theorem State.modAcc_ev (id : Nat) (f : RAcc → RAcc) : (s.modAcc id f).ev = s.ev := rfl

@[simp] theorem State.modAcc_agenda (id : Nat) (f : RAcc → RAcc) : (s.modAcc id f).agenda = s.agenda := rfl

@[simp] theorem State.modAcc_portsDone (id : Nat) (f : RAcc → RAcc) : (s.modAcc id f).portsDone = s.portsDone := rfl

@[simp] theorem State.modAcc_fresh (id : Nat) (f : RAcc → RAcc) : (s.modAcc id f).fresh = s.fresh := rfl

@[simp] theorem State.modAcc_freeCtr (id : Nat) (f : RAcc → RAcc) : (s.modAcc id f).freeCtr = s.freeCtr := rfl

@[simp] theorem State.dropAcc_cycle (id : Nat) : (s.dropAcc id).cycle = s.cycle := rfl

@[simp] theorem State.dropAcc_dies (id : Nat) : (s.dropAcc id).dies = s.dies := rfl

@[simp] theorem State.dropAcc_stations (id : Nat) : (s.dropAcc id).stations = s.stations := rfl

@[simp] theorem State.dropAcc_fabric (id : Nat) : (s.dropAcc id).fabric = s.fabric := rfl

@[simp] theorem State.dropAcc_mem (id : Nat) : (s.dropAcc id).mem = s.mem := rfl

@[simp] theorem State.dropAcc_memBad (id : Nat) : (s.dropAcc id).memBad = s.memBad := rfl

@[simp] theorem State.dropAcc_iss (id : Nat) : (s.dropAcc id).iss = s.iss := rfl

@[simp] theorem State.dropAcc_ev (id : Nat) : (s.dropAcc id).ev = s.ev := rfl

@[simp] theorem State.dropAcc_agenda (id : Nat) : (s.dropAcc id).agenda = s.agenda := rfl

@[simp] theorem State.dropAcc_portsDone (id : Nat) : (s.dropAcc id).portsDone = s.portsDone := rfl

@[simp] theorem State.dropAcc_fresh (id : Nat) : (s.dropAcc id).fresh = s.fresh := rfl

@[simp] theorem State.dropAcc_freeCtr (id : Nat) : (s.dropAcc id).freeCtr = s.freeCtr := rfl

@[simp] theorem State.setPair_cycle (p : Pair) : (s.setPair p).cycle = s.cycle := rfl

@[simp] theorem State.setPair_dies (p : Pair) : (s.setPair p).dies = s.dies := rfl

@[simp] theorem State.setPair_stations (p : Pair) : (s.setPair p).stations = s.stations := rfl

@[simp] theorem State.setPair_fabric (p : Pair) : (s.setPair p).fabric = s.fabric := rfl

@[simp] theorem State.setPair_mem (p : Pair) : (s.setPair p).mem = s.mem := rfl

@[simp] theorem State.setPair_memBad (p : Pair) : (s.setPair p).memBad = s.memBad := rfl

@[simp] theorem State.setPair_iss (p : Pair) : (s.setPair p).iss = s.iss := rfl

@[simp] theorem State.setPair_ev (p : Pair) : (s.setPair p).ev = s.ev := rfl

@[simp] theorem State.setPair_agenda (p : Pair) : (s.setPair p).agenda = s.agenda := rfl

@[simp] theorem State.setPair_portsDone (p : Pair) : (s.setPair p).portsDone = s.portsDone := rfl

@[simp] theorem State.setPair_fresh (p : Pair) : (s.setPair p).fresh = s.fresh := rfl

@[simp] theorem State.setPair_freeCtr (p : Pair) : (s.setPair p).freeCtr = s.freeCtr := rfl

@[simp] theorem State.modChan_cycle (k : Fin 16) (f : PChan → PChan) : (s.modChan k f).cycle = s.cycle := rfl

@[simp] theorem State.modChan_dies (k : Fin 16) (f : PChan → PChan) : (s.modChan k f).dies = s.dies := rfl

@[simp] theorem State.modChan_stations (k : Fin 16) (f : PChan → PChan) : (s.modChan k f).stations = s.stations := rfl

@[simp] theorem State.modChan_fabric (k : Fin 16) (f : PChan → PChan) : (s.modChan k f).fabric = s.fabric := rfl

@[simp] theorem State.modChan_mem (k : Fin 16) (f : PChan → PChan) : (s.modChan k f).mem = s.mem := rfl

@[simp] theorem State.modChan_memBad (k : Fin 16) (f : PChan → PChan) : (s.modChan k f).memBad = s.memBad := rfl

@[simp] theorem State.modChan_iss (k : Fin 16) (f : PChan → PChan) : (s.modChan k f).iss = s.iss := rfl

@[simp] theorem State.modChan_ev (k : Fin 16) (f : PChan → PChan) : (s.modChan k f).ev = s.ev := rfl

@[simp] theorem State.modChan_agenda (k : Fin 16) (f : PChan → PChan) : (s.modChan k f).agenda = s.agenda := rfl

@[simp] theorem State.modChan_portsDone (k : Fin 16) (f : PChan → PChan) : (s.modChan k f).portsDone = s.portsDone := rfl

@[simp] theorem State.modChan_fresh (k : Fin 16) (f : PChan → PChan) : (s.modChan k f).fresh = s.fresh := rfl

@[simp] theorem State.modChan_freeCtr (k : Fin 16) (f : PChan → PChan) : (s.modChan k f).freeCtr = s.freeCtr := rfl

@[simp] theorem State.modPath_cycle (i : Fin 64) (f : Path → Path) : (s.modPath i f).cycle = s.cycle := rfl

@[simp] theorem State.modPath_dies (i : Fin 64) (f : Path → Path) : (s.modPath i f).dies = s.dies := rfl

@[simp] theorem State.modPath_stations (i : Fin 64) (f : Path → Path) : (s.modPath i f).stations = s.stations := rfl

@[simp] theorem State.modPath_panel (i : Fin 64) (f : Path → Path) : (s.modPath i f).panel = s.panel := rfl

@[simp] theorem State.modPath_mem (i : Fin 64) (f : Path → Path) : (s.modPath i f).mem = s.mem := rfl

@[simp] theorem State.modPath_memBad (i : Fin 64) (f : Path → Path) : (s.modPath i f).memBad = s.memBad := rfl

@[simp] theorem State.modPath_iss (i : Fin 64) (f : Path → Path) : (s.modPath i f).iss = s.iss := rfl

@[simp] theorem State.modPath_ev (i : Fin 64) (f : Path → Path) : (s.modPath i f).ev = s.ev := rfl

@[simp] theorem State.modPath_agenda (i : Fin 64) (f : Path → Path) : (s.modPath i f).agenda = s.agenda := rfl

@[simp] theorem State.modPath_portsDone (i : Fin 64) (f : Path → Path) : (s.modPath i f).portsDone = s.portsDone := rfl

@[simp] theorem State.modPath_fresh (i : Fin 64) (f : Path → Path) : (s.modPath i f).fresh = s.fresh := rfl

@[simp] theorem State.modPath_freeCtr (i : Fin 64) (f : Path → Path) : (s.modPath i f).freeCtr = s.freeCtr := rfl

@[simp] theorem State.setQp_cycle (n : Fin 8192) (q : QPair) : (s.setQp n q).cycle = s.cycle := rfl

@[simp] theorem State.setQp_dies (n : Fin 8192) (q : QPair) : (s.setQp n q).dies = s.dies := rfl

@[simp] theorem State.setQp_stations (n : Fin 8192) (q : QPair) : (s.setQp n q).stations = s.stations := rfl

@[simp] theorem State.setQp_panel (n : Fin 8192) (q : QPair) : (s.setQp n q).panel = s.panel := rfl

@[simp] theorem State.setQp_mem (n : Fin 8192) (q : QPair) : (s.setQp n q).mem = s.mem := rfl

@[simp] theorem State.setQp_memBad (n : Fin 8192) (q : QPair) : (s.setQp n q).memBad = s.memBad := rfl

@[simp] theorem State.setQp_iss (n : Fin 8192) (q : QPair) : (s.setQp n q).iss = s.iss := rfl

@[simp] theorem State.setQp_ev (n : Fin 8192) (q : QPair) : (s.setQp n q).ev = s.ev := rfl

@[simp] theorem State.setQp_agenda (n : Fin 8192) (q : QPair) : (s.setQp n q).agenda = s.agenda := rfl

@[simp] theorem State.setQp_portsDone (n : Fin 8192) (q : QPair) : (s.setQp n q).portsDone = s.portsDone := rfl

@[simp] theorem State.setQp_fresh (n : Fin 8192) (q : QPair) : (s.setQp n q).fresh = s.fresh := rfl

@[simp] theorem State.setQp_freeCtr (n : Fin 8192) (q : QPair) : (s.setQp n q).freeCtr = s.freeCtr := rfl

@[simp] theorem State.modQp_cycle (n : Fin 8192) (f : QPair → QPair) : (s.modQp n f).cycle = s.cycle := rfl

@[simp] theorem State.modQp_dies (n : Fin 8192) (f : QPair → QPair) : (s.modQp n f).dies = s.dies := rfl

@[simp] theorem State.modQp_stations (n : Fin 8192) (f : QPair → QPair) : (s.modQp n f).stations = s.stations := rfl

@[simp] theorem State.modQp_panel (n : Fin 8192) (f : QPair → QPair) : (s.modQp n f).panel = s.panel := rfl

@[simp] theorem State.modQp_mem (n : Fin 8192) (f : QPair → QPair) : (s.modQp n f).mem = s.mem := rfl

@[simp] theorem State.modQp_memBad (n : Fin 8192) (f : QPair → QPair) : (s.modQp n f).memBad = s.memBad := rfl

@[simp] theorem State.modQp_iss (n : Fin 8192) (f : QPair → QPair) : (s.modQp n f).iss = s.iss := rfl

@[simp] theorem State.modQp_ev (n : Fin 8192) (f : QPair → QPair) : (s.modQp n f).ev = s.ev := rfl

@[simp] theorem State.modQp_agenda (n : Fin 8192) (f : QPair → QPair) : (s.modQp n f).agenda = s.agenda := rfl

@[simp] theorem State.modQp_portsDone (n : Fin 8192) (f : QPair → QPair) : (s.modQp n f).portsDone = s.portsDone := rfl

@[simp] theorem State.modQp_fresh (n : Fin 8192) (f : QPair → QPair) : (s.modQp n f).fresh = s.fresh := rfl

@[simp] theorem State.modQp_freeCtr (n : Fin 8192) (f : QPair → QPair) : (s.modQp n f).freeCtr = s.freeCtr := rfl

@[simp] theorem State.setIn_cycle (p : InPair) : (s.setIn p).cycle = s.cycle := rfl

@[simp] theorem State.setIn_dies (p : InPair) : (s.setIn p).dies = s.dies := rfl

@[simp] theorem State.setIn_stations (p : InPair) : (s.setIn p).stations = s.stations := rfl

@[simp] theorem State.setIn_panel (p : InPair) : (s.setIn p).panel = s.panel := rfl

@[simp] theorem State.setIn_mem (p : InPair) : (s.setIn p).mem = s.mem := rfl

@[simp] theorem State.setIn_memBad (p : InPair) : (s.setIn p).memBad = s.memBad := rfl

@[simp] theorem State.setIn_iss (p : InPair) : (s.setIn p).iss = s.iss := rfl

@[simp] theorem State.setIn_ev (p : InPair) : (s.setIn p).ev = s.ev := rfl

@[simp] theorem State.setIn_agenda (p : InPair) : (s.setIn p).agenda = s.agenda := rfl

@[simp] theorem State.setIn_portsDone (p : InPair) : (s.setIn p).portsDone = s.portsDone := rfl

@[simp] theorem State.setIn_fresh (p : InPair) : (s.setIn p).fresh = s.fresh := rfl

@[simp] theorem State.setIn_freeCtr (p : InPair) : (s.setIn p).freeCtr = s.freeCtr := rfl

@[simp] theorem State.addDue_cycle (c : Completion) : (s.addDue c).cycle = s.cycle := rfl

@[simp] theorem State.addDue_dies (c : Completion) : (s.addDue c).dies = s.dies := rfl

@[simp] theorem State.addDue_stations (c : Completion) : (s.addDue c).stations = s.stations := rfl

@[simp] theorem State.addDue_panel (c : Completion) : (s.addDue c).panel = s.panel := rfl

@[simp] theorem State.addDue_mem (c : Completion) : (s.addDue c).mem = s.mem := rfl

@[simp] theorem State.addDue_memBad (c : Completion) : (s.addDue c).memBad = s.memBad := rfl

@[simp] theorem State.addDue_iss (c : Completion) : (s.addDue c).iss = s.iss := rfl

@[simp] theorem State.addDue_ev (c : Completion) : (s.addDue c).ev = s.ev := rfl

@[simp] theorem State.addDue_agenda (c : Completion) : (s.addDue c).agenda = s.agenda := rfl

@[simp] theorem State.addDue_portsDone (c : Completion) : (s.addDue c).portsDone = s.portsDone := rfl

@[simp] theorem State.addDue_fresh (c : Completion) : (s.addDue c).fresh = s.fresh := rfl

@[simp] theorem State.addDue_freeCtr (c : Completion) : (s.addDue c).freeCtr = s.freeCtr := rfl

/-! ### Reading a part after it is changed -/

/-- Looking for the element of a number in a list in which the elements of that number have been changed. -/
theorem find_replaceIf {α : Type} (p : α → Bool) (f : α → α) (hf : ∀ x, p x = true → p (f x) = true) (l : List α) :
    (replaceIf p f l).find? p = (l.find? p).map f := by
  unfold replaceIf
  induction l with
  | nil => rfl
  | cons a l ih =>
    by_cases h : p a = true
    · simp [h, hf a h]
    · simp [h, ih]

theorem State.op_modOp (d : DieId) (q : Fin 19) (id : Nat) (f : Op → Op) (hf : ∀ o, o.id = id → (f o).id = id) :
    (s.modOp d q id f).op d q id = (s.op d q id).map f := by
  have hq : ((s.modOp d q id f).die d).queues[q] = replaceIf (fun o => o.id == id) f (s.die d).queues[q] := by
    have h : ((s.modOp d q id f).die d).queues = vmod (s.die d).queues q fun l => replaceIf (fun o => o.id == id) f l :=
      congrArg Die.queues (State.die_modDie s d _)
    rw [h]
    exact vset_same _ _ _
  unfold State.op
  rw [hq]
  exact find_replaceIf _ _ (fun x h => by simp only [beq_iff_eq] at h ⊢; exact hf x h) _

theorem State.acc_modAcc (id : Nat) (f : RAcc → RAcc) (hf : ∀ a, a.id = id → (f a).id = id) :
    (s.modAcc id f).acc id = (s.acc id).map f :=
  find_replaceIf _ _ (fun x h => by simp only [beq_iff_eq] at h ⊢; exact hf x h) _

theorem State.acc_dropAcc (id : Nat) : (s.dropAcc id).acc id = none := by
  simp [State.acc, State.dropAcc, State.modPanel]

theorem Pair.same_self (p : Pair) : p.same p = true := by simp [Pair.same]

/-- The pair that has just been written is the one that is read. -/
theorem State.pair_setPair (p : Pair) (a : RAcc) (h : p.same a.newPair = true) : (s.setPair p).pair a = p := by
  have hn : ((s.panel.pairs.filter fun q => !q.same p).find? fun q => q.same a.newPair) = none := by
    rw [List.find?_eq_none]
    intro q hq hs
    have hp := (List.mem_filter.mp hq).2
    simp only [Pair.same, Bool.and_eq_true, beq_iff_eq, Bool.not_eq_true'] at h hs hp
    simp [hs, h] at hp
  simp [State.pair, State.setPair, State.modPanel, List.find?_append, hn, h]

theorem State.inPair_setIn (p : InPair) : (s.setIn p).fabric.inPair p.src p.stream = p := by
  simp [State.setIn, State.modFabric, Fabric.inPair, Fabric.setIn]

theorem State.path_modPath (i : Fin 64) (f : Path → Path) : (s.modPath i f).fabric.paths[i] = f s.fabric.paths[i] :=
  vset_same _ _ _

end Sys2Proof.Machine
end

