-- ==== Sys2Proof/Laws/PerInstr.lean ====
section
/-! SUPPORT. The family `RoundTrip`: decoding what `encode` gives for a well-formed instruction gives the instruction
back, one lemma for each constructor. A step that is no syllable has no encoding. -/

namespace Sys2Proof.Laws.RoundTrip

open Sys2Proof Sys2Proof.Laws

set_option linter.unusedSimpArgs false

/-- The encoded bits have the s bit clear and the length that the l bit gives, and they decode to the instruction
whatever the s bit is. -/
def Statement (i : Instr) : Prop :=
  ∀ w : Nat, encode i = some w → i.wf = true → Fits w ∧ ∀ st : Nat, st < 2 → decodeSyl (w + st) = .ok i

theorem add (t : Ty) (d : Dst) (a b : Src) : Statement (.add t d a b) := by
  intro w hw hwf
  have ht : t.isScalarInt = true := hwf
  obtain rfl : encLo 1 0 (d.code) (a.code) (b.code) (t.code) (0) 0 = w := Option.some.inj hw
  refine ⟨fits_lo0 (M := 1) (m := 0) (d := d.code) (a := a.code) (b := b.code) (t := t.code) (r := 0) (by decide)
    (by decide) (dst_lt d) (src_lt a) (src_lt b) (ty_lt t) (by decide), fun st hst => ?_⟩
  have F := loFields0 (M := 1) (m := 0) (d := d.code) (a := a.code) (b := b.code) (t := t.code) (r := 0) (l := 0)
    (by decide) (by decide) (dst_lt d) (src_lt a) (src_lt b) (ty_lt t) (by decide) (by decide) hst
  generalize encLo 1 0 (d.code) (a.code) (b.code) (t.code) (0) 0 + st = W at F ⊢
  simp only [decodeSyl, F.major, decInt, decTab, needL, zero, guardOr, dstD, srcA, srcB, F.l, F.major, F.minor, F.d,
    F.a, F.b, F.t, F.r, decTy_code ht, decSrc_code, decDst_code, decMod_code, fin_code, bv_code, bool_code]
  rfl

theorem sub (t : Ty) (d : Dst) (a b : Src) : Statement (.sub t d a b) := by
  intro w hw hwf
  have ht : t.isScalarInt = true := hwf
  obtain rfl : encLo 1 1 (d.code) (a.code) (b.code) (t.code) (0) 0 = w := Option.some.inj hw
  refine ⟨fits_lo0 (M := 1) (m := 1) (d := d.code) (a := a.code) (b := b.code) (t := t.code) (r := 0) (by decide)
    (by decide) (dst_lt d) (src_lt a) (src_lt b) (ty_lt t) (by decide), fun st hst => ?_⟩
  have F := loFields0 (M := 1) (m := 1) (d := d.code) (a := a.code) (b := b.code) (t := t.code) (r := 0) (l := 0)
    (by decide) (by decide) (dst_lt d) (src_lt a) (src_lt b) (ty_lt t) (by decide) (by decide) hst
  generalize encLo 1 1 (d.code) (a.code) (b.code) (t.code) (0) 0 + st = W at F ⊢
  simp only [decodeSyl, F.major, decInt, decTab, needL, zero, guardOr, dstD, srcA, srcB, F.l, F.major, F.minor, F.d,
    F.a, F.b, F.t, F.r, decTy_code ht, decSrc_code, decDst_code, decMod_code, fin_code, bv_code, bool_code]
  rfl

theorem mul (t : Ty) (d : Dst) (a b : Src) : Statement (.mul t d a b) := by
  intro w hw hwf
  have ht : t.isScalarInt = true := hwf
  obtain rfl : encLo 1 2 (d.code) (a.code) (b.code) (t.code) (0) 0 = w := Option.some.inj hw
  refine ⟨fits_lo0 (M := 1) (m := 2) (d := d.code) (a := a.code) (b := b.code) (t := t.code) (r := 0) (by decide)
    (by decide) (dst_lt d) (src_lt a) (src_lt b) (ty_lt t) (by decide), fun st hst => ?_⟩
  have F := loFields0 (M := 1) (m := 2) (d := d.code) (a := a.code) (b := b.code) (t := t.code) (r := 0) (l := 0)
    (by decide) (by decide) (dst_lt d) (src_lt a) (src_lt b) (ty_lt t) (by decide) (by decide) hst
  generalize encLo 1 2 (d.code) (a.code) (b.code) (t.code) (0) 0 + st = W at F ⊢
  simp only [decodeSyl, F.major, decInt, decTab, needL, zero, guardOr, dstD, srcA, srcB, F.l, F.major, F.minor, F.d,
    F.a, F.b, F.t, F.r, decTy_code ht, decSrc_code, decDst_code, decMod_code, fin_code, bv_code, bool_code]
  rfl

theorem mulh (t : Ty) (d : Dst) (a b : Src) : Statement (.mulh t d a b) := by
  intro w hw hwf
  have ht : t.isScalarInt = true := hwf
  obtain rfl : encLo 1 3 (d.code) (a.code) (b.code) (t.code) (0) 0 = w := Option.some.inj hw
  refine ⟨fits_lo0 (M := 1) (m := 3) (d := d.code) (a := a.code) (b := b.code) (t := t.code) (r := 0) (by decide)
    (by decide) (dst_lt d) (src_lt a) (src_lt b) (ty_lt t) (by decide), fun st hst => ?_⟩
  have F := loFields0 (M := 1) (m := 3) (d := d.code) (a := a.code) (b := b.code) (t := t.code) (r := 0) (l := 0)
    (by decide) (by decide) (dst_lt d) (src_lt a) (src_lt b) (ty_lt t) (by decide) (by decide) hst
  generalize encLo 1 3 (d.code) (a.code) (b.code) (t.code) (0) 0 + st = W at F ⊢
  simp only [decodeSyl, F.major, decInt, decTab, needL, zero, guardOr, dstD, srcA, srcB, F.l, F.major, F.minor, F.d,
    F.a, F.b, F.t, F.r, decTy_code ht, decSrc_code, decDst_code, decMod_code, fin_code, bv_code, bool_code]
  rfl

theorem div (t : Ty) (d : Dst) (a b : Src) : Statement (.div t d a b) := by
  intro w hw hwf
  have ht : t.isScalarInt = true := hwf
  obtain rfl : encLo 1 4 (d.code) (a.code) (b.code) (t.code) (0) 0 = w := Option.some.inj hw
  refine ⟨fits_lo0 (M := 1) (m := 4) (d := d.code) (a := a.code) (b := b.code) (t := t.code) (r := 0) (by decide)
    (by decide) (dst_lt d) (src_lt a) (src_lt b) (ty_lt t) (by decide), fun st hst => ?_⟩
  have F := loFields0 (M := 1) (m := 4) (d := d.code) (a := a.code) (b := b.code) (t := t.code) (r := 0) (l := 0)
    (by decide) (by decide) (dst_lt d) (src_lt a) (src_lt b) (ty_lt t) (by decide) (by decide) hst
  generalize encLo 1 4 (d.code) (a.code) (b.code) (t.code) (0) 0 + st = W at F ⊢
  simp only [decodeSyl, F.major, decInt, decTab, needL, zero, guardOr, dstD, srcA, srcB, F.l, F.major, F.minor, F.d,
    F.a, F.b, F.t, F.r, decTy_code ht, decSrc_code, decDst_code, decMod_code, fin_code, bv_code, bool_code]
  rfl

theorem rem (t : Ty) (d : Dst) (a b : Src) : Statement (.rem t d a b) := by
  intro w hw hwf
  have ht : t.isScalarInt = true := hwf
  obtain rfl : encLo 1 5 (d.code) (a.code) (b.code) (t.code) (0) 0 = w := Option.some.inj hw
  refine ⟨fits_lo0 (M := 1) (m := 5) (d := d.code) (a := a.code) (b := b.code) (t := t.code) (r := 0) (by decide)
    (by decide) (dst_lt d) (src_lt a) (src_lt b) (ty_lt t) (by decide), fun st hst => ?_⟩
  have F := loFields0 (M := 1) (m := 5) (d := d.code) (a := a.code) (b := b.code) (t := t.code) (r := 0) (l := 0)
    (by decide) (by decide) (dst_lt d) (src_lt a) (src_lt b) (ty_lt t) (by decide) (by decide) hst
  generalize encLo 1 5 (d.code) (a.code) (b.code) (t.code) (0) 0 + st = W at F ⊢
  simp only [decodeSyl, F.major, decInt, decTab, needL, zero, guardOr, dstD, srcA, srcB, F.l, F.major, F.minor, F.d,
    F.a, F.b, F.t, F.r, decTy_code ht, decSrc_code, decDst_code, decMod_code, fin_code, bv_code, bool_code]
  rfl

theorem and (t : Ty) (d : Dst) (a b : Src) : Statement (.and t d a b) := by
  intro w hw hwf
  have ht : t.isScalarInt = true := hwf
  obtain rfl : encLo 1 6 (d.code) (a.code) (b.code) (t.code) (0) 0 = w := Option.some.inj hw
  refine ⟨fits_lo0 (M := 1) (m := 6) (d := d.code) (a := a.code) (b := b.code) (t := t.code) (r := 0) (by decide)
    (by decide) (dst_lt d) (src_lt a) (src_lt b) (ty_lt t) (by decide), fun st hst => ?_⟩
  have F := loFields0 (M := 1) (m := 6) (d := d.code) (a := a.code) (b := b.code) (t := t.code) (r := 0) (l := 0)
    (by decide) (by decide) (dst_lt d) (src_lt a) (src_lt b) (ty_lt t) (by decide) (by decide) hst
  generalize encLo 1 6 (d.code) (a.code) (b.code) (t.code) (0) 0 + st = W at F ⊢
  simp only [decodeSyl, F.major, decInt, decTab, needL, zero, guardOr, dstD, srcA, srcB, F.l, F.major, F.minor, F.d,
    F.a, F.b, F.t, F.r, decTy_code ht, decSrc_code, decDst_code, decMod_code, fin_code, bv_code, bool_code]
  rfl

theorem or (t : Ty) (d : Dst) (a b : Src) : Statement (.or t d a b) := by
  intro w hw hwf
  have ht : t.isScalarInt = true := hwf
  obtain rfl : encLo 1 7 (d.code) (a.code) (b.code) (t.code) (0) 0 = w := Option.some.inj hw
  refine ⟨fits_lo0 (M := 1) (m := 7) (d := d.code) (a := a.code) (b := b.code) (t := t.code) (r := 0) (by decide)
    (by decide) (dst_lt d) (src_lt a) (src_lt b) (ty_lt t) (by decide), fun st hst => ?_⟩
  have F := loFields0 (M := 1) (m := 7) (d := d.code) (a := a.code) (b := b.code) (t := t.code) (r := 0) (l := 0)
    (by decide) (by decide) (dst_lt d) (src_lt a) (src_lt b) (ty_lt t) (by decide) (by decide) hst
  generalize encLo 1 7 (d.code) (a.code) (b.code) (t.code) (0) 0 + st = W at F ⊢
  simp only [decodeSyl, F.major, decInt, decTab, needL, zero, guardOr, dstD, srcA, srcB, F.l, F.major, F.minor, F.d,
    F.a, F.b, F.t, F.r, decTy_code ht, decSrc_code, decDst_code, decMod_code, fin_code, bv_code, bool_code]
  rfl

theorem xor (t : Ty) (d : Dst) (a b : Src) : Statement (.xor t d a b) := by
  intro w hw hwf
  have ht : t.isScalarInt = true := hwf
  obtain rfl : encLo 1 8 (d.code) (a.code) (b.code) (t.code) (0) 0 = w := Option.some.inj hw
  refine ⟨fits_lo0 (M := 1) (m := 8) (d := d.code) (a := a.code) (b := b.code) (t := t.code) (r := 0) (by decide)
    (by decide) (dst_lt d) (src_lt a) (src_lt b) (ty_lt t) (by decide), fun st hst => ?_⟩
  have F := loFields0 (M := 1) (m := 8) (d := d.code) (a := a.code) (b := b.code) (t := t.code) (r := 0) (l := 0)
    (by decide) (by decide) (dst_lt d) (src_lt a) (src_lt b) (ty_lt t) (by decide) (by decide) hst
  generalize encLo 1 8 (d.code) (a.code) (b.code) (t.code) (0) 0 + st = W at F ⊢
  simp only [decodeSyl, F.major, decInt, decTab, needL, zero, guardOr, dstD, srcA, srcB, F.l, F.major, F.minor, F.d,
    F.a, F.b, F.t, F.r, decTy_code ht, decSrc_code, decDst_code, decMod_code, fin_code, bv_code, bool_code]
  rfl

theorem andn (t : Ty) (d : Dst) (a b : Src) : Statement (.andn t d a b) := by
  intro w hw hwf
  have ht : t.isScalarInt = true := hwf
  obtain rfl : encLo 1 9 (d.code) (a.code) (b.code) (t.code) (0) 0 = w := Option.some.inj hw
  refine ⟨fits_lo0 (M := 1) (m := 9) (d := d.code) (a := a.code) (b := b.code) (t := t.code) (r := 0) (by decide)
    (by decide) (dst_lt d) (src_lt a) (src_lt b) (ty_lt t) (by decide), fun st hst => ?_⟩
  have F := loFields0 (M := 1) (m := 9) (d := d.code) (a := a.code) (b := b.code) (t := t.code) (r := 0) (l := 0)
    (by decide) (by decide) (dst_lt d) (src_lt a) (src_lt b) (ty_lt t) (by decide) (by decide) hst
  generalize encLo 1 9 (d.code) (a.code) (b.code) (t.code) (0) 0 + st = W at F ⊢
  simp only [decodeSyl, F.major, decInt, decTab, needL, zero, guardOr, dstD, srcA, srcB, F.l, F.major, F.minor, F.d,
    F.a, F.b, F.t, F.r, decTy_code ht, decSrc_code, decDst_code, decMod_code, fin_code, bv_code, bool_code]
  rfl

theorem shl (t : Ty) (d : Dst) (a b : Src) : Statement (.shl t d a b) := by
  intro w hw hwf
  have ht : t.isScalarInt = true := hwf
  obtain rfl : encLo 1 10 (d.code) (a.code) (b.code) (t.code) (0) 0 = w := Option.some.inj hw
  refine ⟨fits_lo0 (M := 1) (m := 10) (d := d.code) (a := a.code) (b := b.code) (t := t.code) (r := 0) (by decide)
    (by decide) (dst_lt d) (src_lt a) (src_lt b) (ty_lt t) (by decide), fun st hst => ?_⟩
  have F := loFields0 (M := 1) (m := 10) (d := d.code) (a := a.code) (b := b.code) (t := t.code) (r := 0) (l := 0)
    (by decide) (by decide) (dst_lt d) (src_lt a) (src_lt b) (ty_lt t) (by decide) (by decide) hst
  generalize encLo 1 10 (d.code) (a.code) (b.code) (t.code) (0) 0 + st = W at F ⊢
  simp only [decodeSyl, F.major, decInt, decTab, needL, zero, guardOr, dstD, srcA, srcB, F.l, F.major, F.minor, F.d,
    F.a, F.b, F.t, F.r, decTy_code ht, decSrc_code, decDst_code, decMod_code, fin_code, bv_code, bool_code]
  rfl

theorem shr (t : Ty) (d : Dst) (a b : Src) : Statement (.shr t d a b) := by
  intro w hw hwf
  have ht : t.isScalarInt = true := hwf
  obtain rfl : encLo 1 11 (d.code) (a.code) (b.code) (t.code) (0) 0 = w := Option.some.inj hw
  refine ⟨fits_lo0 (M := 1) (m := 11) (d := d.code) (a := a.code) (b := b.code) (t := t.code) (r := 0) (by decide)
    (by decide) (dst_lt d) (src_lt a) (src_lt b) (ty_lt t) (by decide), fun st hst => ?_⟩
  have F := loFields0 (M := 1) (m := 11) (d := d.code) (a := a.code) (b := b.code) (t := t.code) (r := 0) (l := 0)
    (by decide) (by decide) (dst_lt d) (src_lt a) (src_lt b) (ty_lt t) (by decide) (by decide) hst
  generalize encLo 1 11 (d.code) (a.code) (b.code) (t.code) (0) 0 + st = W at F ⊢
  simp only [decodeSyl, F.major, decInt, decTab, needL, zero, guardOr, dstD, srcA, srcB, F.l, F.major, F.minor, F.d,
    F.a, F.b, F.t, F.r, decTy_code ht, decSrc_code, decDst_code, decMod_code, fin_code, bv_code, bool_code]
  rfl

theorem sar (t : Ty) (d : Dst) (a b : Src) : Statement (.sar t d a b) := by
  intro w hw hwf
  have ht : t.isScalarInt = true := hwf
  obtain rfl : encLo 1 12 (d.code) (a.code) (b.code) (t.code) (0) 0 = w := Option.some.inj hw
  refine ⟨fits_lo0 (M := 1) (m := 12) (d := d.code) (a := a.code) (b := b.code) (t := t.code) (r := 0) (by decide)
    (by decide) (dst_lt d) (src_lt a) (src_lt b) (ty_lt t) (by decide), fun st hst => ?_⟩
  have F := loFields0 (M := 1) (m := 12) (d := d.code) (a := a.code) (b := b.code) (t := t.code) (r := 0) (l := 0)
    (by decide) (by decide) (dst_lt d) (src_lt a) (src_lt b) (ty_lt t) (by decide) (by decide) hst
  generalize encLo 1 12 (d.code) (a.code) (b.code) (t.code) (0) 0 + st = W at F ⊢
  simp only [decodeSyl, F.major, decInt, decTab, needL, zero, guardOr, dstD, srcA, srcB, F.l, F.major, F.minor, F.d,
    F.a, F.b, F.t, F.r, decTy_code ht, decSrc_code, decDst_code, decMod_code, fin_code, bv_code, bool_code]
  rfl

theorem rot (t : Ty) (d : Dst) (a b : Src) : Statement (.rot t d a b) := by
  intro w hw hwf
  have ht : t.isScalarInt = true := hwf
  obtain rfl : encLo 1 13 (d.code) (a.code) (b.code) (t.code) (0) 0 = w := Option.some.inj hw
  refine ⟨fits_lo0 (M := 1) (m := 13) (d := d.code) (a := a.code) (b := b.code) (t := t.code) (r := 0) (by decide)
    (by decide) (dst_lt d) (src_lt a) (src_lt b) (ty_lt t) (by decide), fun st hst => ?_⟩
  have F := loFields0 (M := 1) (m := 13) (d := d.code) (a := a.code) (b := b.code) (t := t.code) (r := 0) (l := 0)
    (by decide) (by decide) (dst_lt d) (src_lt a) (src_lt b) (ty_lt t) (by decide) (by decide) hst
  generalize encLo 1 13 (d.code) (a.code) (b.code) (t.code) (0) 0 + st = W at F ⊢
  simp only [decodeSyl, F.major, decInt, decTab, needL, zero, guardOr, dstD, srcA, srcB, F.l, F.major, F.minor, F.d,
    F.a, F.b, F.t, F.r, decTy_code ht, decSrc_code, decDst_code, decMod_code, fin_code, bv_code, bool_code]
  rfl

theorem min (t : Ty) (d : Dst) (a b : Src) : Statement (.min t d a b) := by
  intro w hw hwf
  have ht : t.isScalarInt = true := hwf
  obtain rfl : encLo 1 14 (d.code) (a.code) (b.code) (t.code) (0) 0 = w := Option.some.inj hw
  refine ⟨fits_lo0 (M := 1) (m := 14) (d := d.code) (a := a.code) (b := b.code) (t := t.code) (r := 0) (by decide)
    (by decide) (dst_lt d) (src_lt a) (src_lt b) (ty_lt t) (by decide), fun st hst => ?_⟩
  have F := loFields0 (M := 1) (m := 14) (d := d.code) (a := a.code) (b := b.code) (t := t.code) (r := 0) (l := 0)
    (by decide) (by decide) (dst_lt d) (src_lt a) (src_lt b) (ty_lt t) (by decide) (by decide) hst
  generalize encLo 1 14 (d.code) (a.code) (b.code) (t.code) (0) 0 + st = W at F ⊢
  simp only [decodeSyl, F.major, decInt, decTab, needL, zero, guardOr, dstD, srcA, srcB, F.l, F.major, F.minor, F.d,
    F.a, F.b, F.t, F.r, decTy_code ht, decSrc_code, decDst_code, decMod_code, fin_code, bv_code, bool_code]
  rfl

theorem max (t : Ty) (d : Dst) (a b : Src) : Statement (.max t d a b) := by
  intro w hw hwf
  have ht : t.isScalarInt = true := hwf
  obtain rfl : encLo 1 15 (d.code) (a.code) (b.code) (t.code) (0) 0 = w := Option.some.inj hw
  refine ⟨fits_lo0 (M := 1) (m := 15) (d := d.code) (a := a.code) (b := b.code) (t := t.code) (r := 0) (by decide)
    (by decide) (dst_lt d) (src_lt a) (src_lt b) (ty_lt t) (by decide), fun st hst => ?_⟩
  have F := loFields0 (M := 1) (m := 15) (d := d.code) (a := a.code) (b := b.code) (t := t.code) (r := 0) (l := 0)
    (by decide) (by decide) (dst_lt d) (src_lt a) (src_lt b) (ty_lt t) (by decide) (by decide) hst
  generalize encLo 1 15 (d.code) (a.code) (b.code) (t.code) (0) 0 + st = W at F ⊢
  simp only [decodeSyl, F.major, decInt, decTab, needL, zero, guardOr, dstD, srcA, srcB, F.l, F.major, F.minor, F.d,
    F.a, F.b, F.t, F.r, decTy_code ht, decSrc_code, decDst_code, decMod_code, fin_code, bv_code, bool_code]
  rfl

theorem ceq (t : Ty) (d : Dst) (a b : Src) : Statement (.ceq t d a b) := by
  intro w hw hwf
  have ht : t.isScalarInt = true := hwf
  obtain rfl : encLo 1 16 (d.code) (a.code) (b.code) (t.code) (0) 0 = w := Option.some.inj hw
  refine ⟨fits_lo0 (M := 1) (m := 16) (d := d.code) (a := a.code) (b := b.code) (t := t.code) (r := 0) (by decide)
    (by decide) (dst_lt d) (src_lt a) (src_lt b) (ty_lt t) (by decide), fun st hst => ?_⟩
  have F := loFields0 (M := 1) (m := 16) (d := d.code) (a := a.code) (b := b.code) (t := t.code) (r := 0) (l := 0)
    (by decide) (by decide) (dst_lt d) (src_lt a) (src_lt b) (ty_lt t) (by decide) (by decide) hst
  generalize encLo 1 16 (d.code) (a.code) (b.code) (t.code) (0) 0 + st = W at F ⊢
  simp only [decodeSyl, F.major, decInt, decTab, needL, zero, guardOr, dstD, srcA, srcB, F.l, F.major, F.minor, F.d,
    F.a, F.b, F.t, F.r, decTy_code ht, decSrc_code, decDst_code, decMod_code, fin_code, bv_code, bool_code]
  rfl

theorem cne (t : Ty) (d : Dst) (a b : Src) : Statement (.cne t d a b) := by
  intro w hw hwf
  have ht : t.isScalarInt = true := hwf
  obtain rfl : encLo 1 17 (d.code) (a.code) (b.code) (t.code) (0) 0 = w := Option.some.inj hw
  refine ⟨fits_lo0 (M := 1) (m := 17) (d := d.code) (a := a.code) (b := b.code) (t := t.code) (r := 0) (by decide)
    (by decide) (dst_lt d) (src_lt a) (src_lt b) (ty_lt t) (by decide), fun st hst => ?_⟩
  have F := loFields0 (M := 1) (m := 17) (d := d.code) (a := a.code) (b := b.code) (t := t.code) (r := 0) (l := 0)
    (by decide) (by decide) (dst_lt d) (src_lt a) (src_lt b) (ty_lt t) (by decide) (by decide) hst
  generalize encLo 1 17 (d.code) (a.code) (b.code) (t.code) (0) 0 + st = W at F ⊢
  simp only [decodeSyl, F.major, decInt, decTab, needL, zero, guardOr, dstD, srcA, srcB, F.l, F.major, F.minor, F.d,
    F.a, F.b, F.t, F.r, decTy_code ht, decSrc_code, decDst_code, decMod_code, fin_code, bv_code, bool_code]
  rfl

theorem clt (t : Ty) (d : Dst) (a b : Src) : Statement (.clt t d a b) := by
  intro w hw hwf
  have ht : t.isScalarInt = true := hwf
  obtain rfl : encLo 1 18 (d.code) (a.code) (b.code) (t.code) (0) 0 = w := Option.some.inj hw
  refine ⟨fits_lo0 (M := 1) (m := 18) (d := d.code) (a := a.code) (b := b.code) (t := t.code) (r := 0) (by decide)
    (by decide) (dst_lt d) (src_lt a) (src_lt b) (ty_lt t) (by decide), fun st hst => ?_⟩
  have F := loFields0 (M := 1) (m := 18) (d := d.code) (a := a.code) (b := b.code) (t := t.code) (r := 0) (l := 0)
    (by decide) (by decide) (dst_lt d) (src_lt a) (src_lt b) (ty_lt t) (by decide) (by decide) hst
  generalize encLo 1 18 (d.code) (a.code) (b.code) (t.code) (0) 0 + st = W at F ⊢
  simp only [decodeSyl, F.major, decInt, decTab, needL, zero, guardOr, dstD, srcA, srcB, F.l, F.major, F.minor, F.d,
    F.a, F.b, F.t, F.r, decTy_code ht, decSrc_code, decDst_code, decMod_code, fin_code, bv_code, bool_code]
  rfl

theorem cle (t : Ty) (d : Dst) (a b : Src) : Statement (.cle t d a b) := by
  intro w hw hwf
  have ht : t.isScalarInt = true := hwf
  obtain rfl : encLo 1 19 (d.code) (a.code) (b.code) (t.code) (0) 0 = w := Option.some.inj hw
  refine ⟨fits_lo0 (M := 1) (m := 19) (d := d.code) (a := a.code) (b := b.code) (t := t.code) (r := 0) (by decide)
    (by decide) (dst_lt d) (src_lt a) (src_lt b) (ty_lt t) (by decide), fun st hst => ?_⟩
  have F := loFields0 (M := 1) (m := 19) (d := d.code) (a := a.code) (b := b.code) (t := t.code) (r := 0) (l := 0)
    (by decide) (by decide) (dst_lt d) (src_lt a) (src_lt b) (ty_lt t) (by decide) (by decide) hst
  generalize encLo 1 19 (d.code) (a.code) (b.code) (t.code) (0) 0 + st = W at F ⊢
  simp only [decodeSyl, F.major, decInt, decTab, needL, zero, guardOr, dstD, srcA, srcB, F.l, F.major, F.minor, F.d,
    F.a, F.b, F.t, F.r, decTy_code ht, decSrc_code, decDst_code, decMod_code, fin_code, bv_code, bool_code]
  rfl

theorem sel (d : Dst) (c a b : Src) : Statement (.sel d c a b) := by
  intro w hw hwf
  obtain rfl : encLo 1 20 (d.code) (a.code) (b.code) (c.code % 16) (c.code / 16) 0 = w := Option.some.inj hw
  refine ⟨fits_lo0 (M := 1) (m := 20) (d := d.code) (a := a.code) (b := b.code) (t := c.code % 16) (r := c.code / 16)
    (by decide) (by decide) (dst_lt d) (src_lt a) (src_lt b) (Nat.mod_lt _ (by decide)) (code_div c), fun st hst =>
    ?_⟩
  have F := loFields0 (M := 1) (m := 20) (d := d.code) (a := a.code) (b := b.code) (t := c.code % 16) (r := c.code /
    16) (l := 0) (by decide) (by decide) (dst_lt d) (src_lt a) (src_lt b) (Nat.mod_lt _ (by decide)) (code_div c)
    (by decide) hst
  have G := loSpans0 (M := 1) (m := 20) (d := d.code) (a := a.code) (b := b.code) (t := c.code % 16) (r := c.code /
    16) (l := 0) (by decide) (by decide) (dst_lt d) (src_lt a) (src_lt b) (Nat.mod_lt _ (by decide)) (code_div c)
    (by decide) hst
  generalize encLo 1 20 (d.code) (a.code) (b.code) (c.code % 16) (c.code / 16) 0 + st = W at F G ⊢
  simp only [decodeSyl, F.major, decInt, needL, zero, guardOr, dstD, srcA, srcB, F.l, F.major, F.minor, F.d, F.a,
    F.b, F.t, F.r, G.s27_5, Nat.mod_add_div, decSrc_code, decDst_code, decMod_code, fin_code, bv_code, bool_code]
  rfl

theorem neg (t : Ty) (d : Dst) (a : Src) : Statement (.neg t d a) := by
  intro w hw hwf
  have ht : t.isScalarInt = true := hwf
  obtain rfl : encLo 1 21 (d.code) (a.code) (0) (t.code) (0) 0 = w := Option.some.inj hw
  refine ⟨fits_lo0 (M := 1) (m := 21) (d := d.code) (a := a.code) (b := 0) (t := t.code) (r := 0) (by decide)
    (by decide) (dst_lt d) (src_lt a) (by decide) (ty_lt t) (by decide), fun st hst => ?_⟩
  have F := loFields0 (M := 1) (m := 21) (d := d.code) (a := a.code) (b := 0) (t := t.code) (r := 0) (l := 0)
    (by decide) (by decide) (dst_lt d) (src_lt a) (by decide) (ty_lt t) (by decide) (by decide) hst
  generalize encLo 1 21 (d.code) (a.code) (0) (t.code) (0) 0 + st = W at F ⊢
  simp only [decodeSyl, F.major, decInt, decTa, needL, zero, guardOr, dstD, srcA, srcB, F.l, F.major, F.minor, F.d,
    F.a, F.b, F.t, F.r, decTy_code ht, decSrc_code, decDst_code, decMod_code, fin_code, bv_code, bool_code]
  rfl

theorem abs (t : Ty) (d : Dst) (a : Src) : Statement (.abs t d a) := by
  intro w hw hwf
  have ht : t.isScalarInt = true := hwf
  obtain rfl : encLo 1 22 (d.code) (a.code) (0) (t.code) (0) 0 = w := Option.some.inj hw
  refine ⟨fits_lo0 (M := 1) (m := 22) (d := d.code) (a := a.code) (b := 0) (t := t.code) (r := 0) (by decide)
    (by decide) (dst_lt d) (src_lt a) (by decide) (ty_lt t) (by decide), fun st hst => ?_⟩
  have F := loFields0 (M := 1) (m := 22) (d := d.code) (a := a.code) (b := 0) (t := t.code) (r := 0) (l := 0)
    (by decide) (by decide) (dst_lt d) (src_lt a) (by decide) (ty_lt t) (by decide) (by decide) hst
  generalize encLo 1 22 (d.code) (a.code) (0) (t.code) (0) 0 + st = W at F ⊢
  simp only [decodeSyl, F.major, decInt, decTa, needL, zero, guardOr, dstD, srcA, srcB, F.l, F.major, F.minor, F.d,
    F.a, F.b, F.t, F.r, decTy_code ht, decSrc_code, decDst_code, decMod_code, fin_code, bv_code, bool_code]
  rfl

theorem clz (t : Ty) (d : Dst) (a : Src) : Statement (.clz t d a) := by
  intro w hw hwf
  have ht : t.isScalarInt = true := hwf
  obtain rfl : encLo 1 23 (d.code) (a.code) (0) (t.code) (0) 0 = w := Option.some.inj hw
  refine ⟨fits_lo0 (M := 1) (m := 23) (d := d.code) (a := a.code) (b := 0) (t := t.code) (r := 0) (by decide)
    (by decide) (dst_lt d) (src_lt a) (by decide) (ty_lt t) (by decide), fun st hst => ?_⟩
  have F := loFields0 (M := 1) (m := 23) (d := d.code) (a := a.code) (b := 0) (t := t.code) (r := 0) (l := 0)
    (by decide) (by decide) (dst_lt d) (src_lt a) (by decide) (ty_lt t) (by decide) (by decide) hst
  generalize encLo 1 23 (d.code) (a.code) (0) (t.code) (0) 0 + st = W at F ⊢
  simp only [decodeSyl, F.major, decInt, decTa, needL, zero, guardOr, dstD, srcA, srcB, F.l, F.major, F.minor, F.d,
    F.a, F.b, F.t, F.r, decTy_code ht, decSrc_code, decDst_code, decMod_code, fin_code, bv_code, bool_code]
  rfl

theorem popc (t : Ty) (d : Dst) (a : Src) : Statement (.popc t d a) := by
  intro w hw hwf
  have ht : t.isScalarInt = true := hwf
  obtain rfl : encLo 1 24 (d.code) (a.code) (0) (t.code) (0) 0 = w := Option.some.inj hw
  refine ⟨fits_lo0 (M := 1) (m := 24) (d := d.code) (a := a.code) (b := 0) (t := t.code) (r := 0) (by decide)
    (by decide) (dst_lt d) (src_lt a) (by decide) (ty_lt t) (by decide), fun st hst => ?_⟩
  have F := loFields0 (M := 1) (m := 24) (d := d.code) (a := a.code) (b := 0) (t := t.code) (r := 0) (l := 0)
    (by decide) (by decide) (dst_lt d) (src_lt a) (by decide) (ty_lt t) (by decide) (by decide) hst
  generalize encLo 1 24 (d.code) (a.code) (0) (t.code) (0) 0 + st = W at F ⊢
  simp only [decodeSyl, F.major, decInt, decTa, needL, zero, guardOr, dstD, srcA, srcB, F.l, F.major, F.minor, F.d,
    F.a, F.b, F.t, F.r, decTy_code ht, decSrc_code, decDst_code, decMod_code, fin_code, bv_code, bool_code]
  rfl

theorem mov (t : Ty) (d : Dst) (a : Src) : Statement (.mov t d a) := by
  intro w hw hwf
  have ht : t.isScalarInt = true := hwf
  obtain rfl : encLo 1 25 (d.code) (a.code) (0) (t.code) (0) 0 = w := Option.some.inj hw
  refine ⟨fits_lo0 (M := 1) (m := 25) (d := d.code) (a := a.code) (b := 0) (t := t.code) (r := 0) (by decide)
    (by decide) (dst_lt d) (src_lt a) (by decide) (ty_lt t) (by decide), fun st hst => ?_⟩
  have F := loFields0 (M := 1) (m := 25) (d := d.code) (a := a.code) (b := 0) (t := t.code) (r := 0) (l := 0)
    (by decide) (by decide) (dst_lt d) (src_lt a) (by decide) (ty_lt t) (by decide) (by decide) hst
  generalize encLo 1 25 (d.code) (a.code) (0) (t.code) (0) 0 + st = W at F ⊢
  simp only [decodeSyl, F.major, decInt, decTa, needL, zero, guardOr, dstD, srcA, srcB, F.l, F.major, F.minor, F.d,
    F.a, F.b, F.t, F.r, decTy_code ht, decSrc_code, decDst_code, decMod_code, fin_code, bv_code, bool_code]
  rfl

theorem rdsp (d : Dst) (sv : Special) : Statement (.rdsp d sv) := by
  intro w hw hwf
  obtain rfl : encLo 1 26 (d.code) (sv.code) (0) (0) (0) 0 = w := Option.some.inj hw
  refine ⟨fits_lo0 (M := 1) (m := 26) (d := d.code) (a := sv.code) (b := 0) (t := 0) (r := 0) (by decide) (by decide)
    (dst_lt d) (special_lt sv) (by decide) (by decide) (by decide), fun st hst => ?_⟩
  have F := loFields0 (M := 1) (m := 26) (d := d.code) (a := sv.code) (b := 0) (t := 0) (r := 0) (l := 0) (by decide)
    (by decide) (dst_lt d) (special_lt sv) (by decide) (by decide) (by decide) (by decide) hst
  have G := loSpans0 (M := 1) (m := 26) (d := d.code) (a := sv.code) (b := 0) (t := 0) (r := 0) (l := 0) (by decide)
    (by decide) (dst_lt d) (special_lt sv) (by decide) (by decide) (by decide) (by decide) hst
  generalize encLo 1 26 (d.code) (sv.code) (0) (0) (0) 0 + st = W at F G ⊢
  simp only [decodeSyl, F.major, decInt, needL, zero, guardOr, dstD, srcA, srcB, F.l, F.major, F.minor, F.d, F.a,
    F.b, F.t, F.r, G.s22_10, decSpecial_code, decSrc_code, decDst_code, decMod_code, fin_code, bv_code, bool_code]
  rfl

theorem rdctl (d : Dst) (cr : CtlReg) : Statement (.rdctl d cr) := by
  intro w hw hwf
  obtain rfl : encLo 1 27 (d.code) (cr.code) (0) (0) (0) 0 = w := Option.some.inj hw
  refine ⟨fits_lo0 (M := 1) (m := 27) (d := d.code) (a := cr.code) (b := 0) (t := 0) (r := 0) (by decide) (by decide)
    (dst_lt d) (ctl_lt cr) (by decide) (by decide) (by decide), fun st hst => ?_⟩
  have F := loFields0 (M := 1) (m := 27) (d := d.code) (a := cr.code) (b := 0) (t := 0) (r := 0) (l := 0) (by decide)
    (by decide) (dst_lt d) (ctl_lt cr) (by decide) (by decide) (by decide) (by decide) hst
  have G := loSpans0 (M := 1) (m := 27) (d := d.code) (a := cr.code) (b := 0) (t := 0) (r := 0) (l := 0) (by decide)
    (by decide) (dst_lt d) (ctl_lt cr) (by decide) (by decide) (by decide) (by decide) hst
  generalize encLo 1 27 (d.code) (cr.code) (0) (0) (0) 0 + st = W at F G ⊢
  simp only [decodeSyl, F.major, decInt, needL, zero, guardOr, dstD, srcA, srcB, F.l, F.major, F.minor, F.d, F.a,
    F.b, F.t, F.r, G.s22_10, decCtl_code, decSrc_code, decDst_code, decMod_code, fin_code, bv_code, bool_code]
  rfl

theorem wrctl (cr : CtlReg) (a : Src) : Statement (.wrctl cr a) := by
  intro w hw hwf
  have ht : cr.writable = true := hwf
  obtain rfl : encLo 1 28 (cr.code) (a.code) (0) (0) (0) 0 = w := Option.some.inj hw
  refine ⟨fits_lo0 (M := 1) (m := 28) (d := cr.code) (a := a.code) (b := 0) (t := 0) (r := 0) (by decide) (by decide)
    (ctl_lt cr) (src_lt a) (by decide) (by decide) (by decide), fun st hst => ?_⟩
  have F := loFields0 (M := 1) (m := 28) (d := cr.code) (a := a.code) (b := 0) (t := 0) (r := 0) (l := 0) (by decide)
    (by decide) (ctl_lt cr) (src_lt a) (by decide) (by decide) (by decide) (by decide) hst
  have G := loSpans0 (M := 1) (m := 28) (d := cr.code) (a := a.code) (b := 0) (t := 0) (r := 0) (l := 0) (by decide)
    (by decide) (ctl_lt cr) (src_lt a) (by decide) (by decide) (by decide) (by decide) hst
  generalize encLo 1 28 (cr.code) (a.code) (0) (0) (0) 0 + st = W at F G ⊢
  simp only [decodeSyl, F.major, decInt, needL, zero, guardOr, dstD, srcA, srcB, F.l, F.major, F.minor, F.d, F.a,
    F.b, F.t, F.r, G.s22_10, decCtl_code, bind, Except.bind, ht, decSrc_code, decDst_code, decMod_code, fin_code,
    bv_code, bool_code]
  rfl

theorem addImm (z : Bool) (d : Dst) (a : Src) (imm : BitVec 9) : Statement (.addImm z d a imm) := by
  intro w hw hwf
  obtain rfl : encI 0 z d a imm = w := Option.some.inj hw
  refine ⟨fits_I (m := 0) (by decide), fun st hst => ?_⟩
  have F := iFields (by decide) (d := d) (a := a) (z := z) (imm := imm) (m := 0) hst
  simp only [decodeSyl, F.major, decIntImm, decImm, needL, zero, guardOr, dstD, srcA, srcB, F.l, F.minor, F.d, F.a,
    F.imm, F.z, decSrc_code, decDst_code, decMod_code, fin_code, bv_code, bool_code]
  rfl

theorem mulImm (z : Bool) (d : Dst) (a : Src) (imm : BitVec 9) : Statement (.mulImm z d a imm) := by
  intro w hw hwf
  obtain rfl : encI 1 z d a imm = w := Option.some.inj hw
  refine ⟨fits_I (m := 1) (by decide), fun st hst => ?_⟩
  have F := iFields (by decide) (d := d) (a := a) (z := z) (imm := imm) (m := 1) hst
  simp only [decodeSyl, F.major, decIntImm, decImm, needL, zero, guardOr, dstD, srcA, srcB, F.l, F.minor, F.d, F.a,
    F.imm, F.z, decSrc_code, decDst_code, decMod_code, fin_code, bv_code, bool_code]
  rfl

theorem andImm (z : Bool) (d : Dst) (a : Src) (imm : BitVec 9) : Statement (.andImm z d a imm) := by
  intro w hw hwf
  obtain rfl : encI 2 z d a imm = w := Option.some.inj hw
  refine ⟨fits_I (m := 2) (by decide), fun st hst => ?_⟩
  have F := iFields (by decide) (d := d) (a := a) (z := z) (imm := imm) (m := 2) hst
  simp only [decodeSyl, F.major, decIntImm, decImm, needL, zero, guardOr, dstD, srcA, srcB, F.l, F.minor, F.d, F.a,
    F.imm, F.z, decSrc_code, decDst_code, decMod_code, fin_code, bv_code, bool_code]
  rfl

theorem orImm (z : Bool) (d : Dst) (a : Src) (imm : BitVec 9) : Statement (.orImm z d a imm) := by
  intro w hw hwf
  obtain rfl : encI 3 z d a imm = w := Option.some.inj hw
  refine ⟨fits_I (m := 3) (by decide), fun st hst => ?_⟩
  have F := iFields (by decide) (d := d) (a := a) (z := z) (imm := imm) (m := 3) hst
  simp only [decodeSyl, F.major, decIntImm, decImm, needL, zero, guardOr, dstD, srcA, srcB, F.l, F.minor, F.d, F.a,
    F.imm, F.z, decSrc_code, decDst_code, decMod_code, fin_code, bv_code, bool_code]
  rfl

theorem xorImm (z : Bool) (d : Dst) (a : Src) (imm : BitVec 9) : Statement (.xorImm z d a imm) := by
  intro w hw hwf
  obtain rfl : encI 4 z d a imm = w := Option.some.inj hw
  refine ⟨fits_I (m := 4) (by decide), fun st hst => ?_⟩
  have F := iFields (by decide) (d := d) (a := a) (z := z) (imm := imm) (m := 4) hst
  simp only [decodeSyl, F.major, decIntImm, decImm, needL, zero, guardOr, dstD, srcA, srcB, F.l, F.minor, F.d, F.a,
    F.imm, F.z, decSrc_code, decDst_code, decMod_code, fin_code, bv_code, bool_code]
  rfl

theorem shlImm (z : Bool) (d : Dst) (a : Src) (imm : BitVec 9) : Statement (.shlImm z d a imm) := by
  intro w hw hwf
  have ht : decide (imm.toNat < 64) = true := hwf
  obtain rfl : encI 5 z d a imm = w := Option.some.inj hw
  refine ⟨fits_I (m := 5) (by decide), fun st hst => ?_⟩
  have F := iFields (by decide) (d := d) (a := a) (z := z) (imm := imm) (m := 5) hst
  simp only [decodeSyl, F.major, decIntImm, decImm, decImmSh, bind, Except.bind, ht, needL, zero, guardOr, dstD,
    srcA, srcB, F.l, F.minor, F.d, F.a, F.imm, F.z, decSrc_code, decDst_code, decMod_code, fin_code, bv_code,
    bool_code]
  rfl

theorem shrImm (z : Bool) (d : Dst) (a : Src) (imm : BitVec 9) : Statement (.shrImm z d a imm) := by
  intro w hw hwf
  have ht : decide (imm.toNat < 64) = true := hwf
  obtain rfl : encI 6 z d a imm = w := Option.some.inj hw
  refine ⟨fits_I (m := 6) (by decide), fun st hst => ?_⟩
  have F := iFields (by decide) (d := d) (a := a) (z := z) (imm := imm) (m := 6) hst
  simp only [decodeSyl, F.major, decIntImm, decImm, decImmSh, bind, Except.bind, ht, needL, zero, guardOr, dstD,
    srcA, srcB, F.l, F.minor, F.d, F.a, F.imm, F.z, decSrc_code, decDst_code, decMod_code, fin_code, bv_code,
    bool_code]
  rfl

theorem sarImm (z : Bool) (d : Dst) (a : Src) (imm : BitVec 9) : Statement (.sarImm z d a imm) := by
  intro w hw hwf
  have ht : decide (imm.toNat < 64) = true := hwf
  obtain rfl : encI 7 z d a imm = w := Option.some.inj hw
  refine ⟨fits_I (m := 7) (by decide), fun st hst => ?_⟩
  have F := iFields (by decide) (d := d) (a := a) (z := z) (imm := imm) (m := 7) hst
  simp only [decodeSyl, F.major, decIntImm, decImm, decImmSh, bind, Except.bind, ht, needL, zero, guardOr, dstD,
    srcA, srcB, F.l, F.minor, F.d, F.a, F.imm, F.z, decSrc_code, decDst_code, decMod_code, fin_code, bv_code,
    bool_code]
  rfl

theorem ceqImm (z : Bool) (d : Dst) (a : Src) (imm : BitVec 9) : Statement (.ceqImm z d a imm) := by
  intro w hw hwf
  obtain rfl : encI 8 z d a imm = w := Option.some.inj hw
  refine ⟨fits_I (m := 8) (by decide), fun st hst => ?_⟩
  have F := iFields (by decide) (d := d) (a := a) (z := z) (imm := imm) (m := 8) hst
  simp only [decodeSyl, F.major, decIntImm, decImm, needL, zero, guardOr, dstD, srcA, srcB, F.l, F.minor, F.d, F.a,
    F.imm, F.z, decSrc_code, decDst_code, decMod_code, fin_code, bv_code, bool_code]
  rfl

theorem cltImm (z : Bool) (d : Dst) (a : Src) (imm : BitVec 9) : Statement (.cltImm z d a imm) := by
  intro w hw hwf
  obtain rfl : encI 9 z d a imm = w := Option.some.inj hw
  refine ⟨fits_I (m := 9) (by decide), fun st hst => ?_⟩
  have F := iFields (by decide) (d := d) (a := a) (z := z) (imm := imm) (m := 9) hst
  simp only [decodeSyl, F.major, decIntImm, decImm, needL, zero, guardOr, dstD, srcA, srcB, F.l, F.minor, F.d, F.a,
    F.imm, F.z, decSrc_code, decDst_code, decMod_code, fin_code, bv_code, bool_code]
  rfl

theorem cleImm (z : Bool) (d : Dst) (a : Src) (imm : BitVec 9) : Statement (.cleImm z d a imm) := by
  intro w hw hwf
  obtain rfl : encI 10 z d a imm = w := Option.some.inj hw
  refine ⟨fits_I (m := 10) (by decide), fun st hst => ?_⟩
  have F := iFields (by decide) (d := d) (a := a) (z := z) (imm := imm) (m := 10) hst
  simp only [decodeSyl, F.major, decIntImm, decImm, needL, zero, guardOr, dstD, srcA, srcB, F.l, F.minor, F.d, F.a,
    F.imm, F.z, decSrc_code, decDst_code, decMod_code, fin_code, bv_code, bool_code]
  rfl

theorem minImm (z : Bool) (d : Dst) (a : Src) (imm : BitVec 9) : Statement (.minImm z d a imm) := by
  intro w hw hwf
  obtain rfl : encI 11 z d a imm = w := Option.some.inj hw
  refine ⟨fits_I (m := 11) (by decide), fun st hst => ?_⟩
  have F := iFields (by decide) (d := d) (a := a) (z := z) (imm := imm) (m := 11) hst
  simp only [decodeSyl, F.major, decIntImm, decImm, needL, zero, guardOr, dstD, srcA, srcB, F.l, F.minor, F.d, F.a,
    F.imm, F.z, decSrc_code, decDst_code, decMod_code, fin_code, bv_code, bool_code]
  rfl

theorem maxImm (z : Bool) (d : Dst) (a : Src) (imm : BitVec 9) : Statement (.maxImm z d a imm) := by
  intro w hw hwf
  obtain rfl : encI 12 z d a imm = w := Option.some.inj hw
  refine ⟨fits_I (m := 12) (by decide), fun st hst => ?_⟩
  have F := iFields (by decide) (d := d) (a := a) (z := z) (imm := imm) (m := 12) hst
  simp only [decodeSyl, F.major, decIntImm, decImm, needL, zero, guardOr, dstD, srcA, srcB, F.l, F.minor, F.d, F.a,
    F.imm, F.z, decSrc_code, decDst_code, decMod_code, fin_code, bv_code, bool_code]
  rfl

theorem movImm (z : Bool) (d : Dst) (imm : BitVec 9) : Statement (.movImm z d imm) := by
  intro w hw hwf
  obtain rfl : encI 13 z d (.named 0) imm = w := Option.some.inj hw
  refine ⟨fits_I (m := 13) (by decide), fun st hst => ?_⟩
  have F := iFields (by decide) (d := d) (a := (.named 0)) (z := z) (imm := imm) (m := 13) hst
  simp only [decodeSyl, F.major, decIntImm, decImm, needL, zero, guardOr, dstD, srcA, srcB, F.l, F.minor, F.d, F.a,
    F.imm, F.z, decSrc_code, decDst_code, decMod_code, fin_code, bv_code, bool_code]
  rfl

theorem addLong (t : Ty) (d : Dst) (a : Src) (imm : BitVec 32) : Statement (.addLong t d a imm) := by
  intro w hw hwf
  have ht : t.isScalarInt = true := hwf
  obtain rfl : encLo 3 0 (d.code) (a.code) (0) (t.code) (0) 1 + 2 ^ 32 * imm.toNat = w := Option.some.inj hw
  refine ⟨fits_imm (M := 3) (m := 0) (d := d.code) (a := a.code) (b := 0) (t := t.code) (r := 0) (by decide)
    (by decide) (dst_lt d) (src_lt a) (by decide) (ty_lt t) (by decide) imm, fun st hst => ?_⟩
  have F := loFields (M := 3) (m := 0) (d := d.code) (a := a.code) (b := 0) (t := t.code) (r := 0) (l := 1) imm.toNat
    (by decide) (by decide) (dst_lt d) (src_lt a) (by decide) (ty_lt t) (by decide) (by decide) hst
  have H := imm32_field (lo_lt (M := 3) (m := 0) (d := d.code) (a := a.code) (b := 0) (t := t.code) (r := 0) (l := 1)
    (by decide) (by decide) (dst_lt d) (src_lt a) (by decide) (ty_lt t) (by decide) (by decide) hst) imm
  generalize encLo 3 0 (d.code) (a.code) (0) (t.code) (0) 1 + 2 ^ 32 * imm.toNat + st = W at F H ⊢
  simp only [decodeSyl, F.major, decIntLong, decL, needL, zero, guardOr, dstD, srcA, srcB, F.l, F.major, F.minor,
    F.d, F.a, F.b, F.t, F.r, H, decTy_code ht, decSrc_code, decDst_code, decMod_code, fin_code, bv_code, bool_code]
  rfl

theorem mulLong (t : Ty) (d : Dst) (a : Src) (imm : BitVec 32) : Statement (.mulLong t d a imm) := by
  intro w hw hwf
  have ht : t.isScalarInt = true := hwf
  obtain rfl : encLo 3 1 (d.code) (a.code) (0) (t.code) (0) 1 + 2 ^ 32 * imm.toNat = w := Option.some.inj hw
  refine ⟨fits_imm (M := 3) (m := 1) (d := d.code) (a := a.code) (b := 0) (t := t.code) (r := 0) (by decide)
    (by decide) (dst_lt d) (src_lt a) (by decide) (ty_lt t) (by decide) imm, fun st hst => ?_⟩
  have F := loFields (M := 3) (m := 1) (d := d.code) (a := a.code) (b := 0) (t := t.code) (r := 0) (l := 1) imm.toNat
    (by decide) (by decide) (dst_lt d) (src_lt a) (by decide) (ty_lt t) (by decide) (by decide) hst
  have H := imm32_field (lo_lt (M := 3) (m := 1) (d := d.code) (a := a.code) (b := 0) (t := t.code) (r := 0) (l := 1)
    (by decide) (by decide) (dst_lt d) (src_lt a) (by decide) (ty_lt t) (by decide) (by decide) hst) imm
  generalize encLo 3 1 (d.code) (a.code) (0) (t.code) (0) 1 + 2 ^ 32 * imm.toNat + st = W at F H ⊢
  simp only [decodeSyl, F.major, decIntLong, decL, needL, zero, guardOr, dstD, srcA, srcB, F.l, F.major, F.minor,
    F.d, F.a, F.b, F.t, F.r, H, decTy_code ht, decSrc_code, decDst_code, decMod_code, fin_code, bv_code, bool_code]
  rfl

theorem andLong (t : Ty) (d : Dst) (a : Src) (imm : BitVec 32) : Statement (.andLong t d a imm) := by
  intro w hw hwf
  have ht : t.isScalarInt = true := hwf
  obtain rfl : encLo 3 2 (d.code) (a.code) (0) (t.code) (0) 1 + 2 ^ 32 * imm.toNat = w := Option.some.inj hw
  refine ⟨fits_imm (M := 3) (m := 2) (d := d.code) (a := a.code) (b := 0) (t := t.code) (r := 0) (by decide)
    (by decide) (dst_lt d) (src_lt a) (by decide) (ty_lt t) (by decide) imm, fun st hst => ?_⟩
  have F := loFields (M := 3) (m := 2) (d := d.code) (a := a.code) (b := 0) (t := t.code) (r := 0) (l := 1) imm.toNat
    (by decide) (by decide) (dst_lt d) (src_lt a) (by decide) (ty_lt t) (by decide) (by decide) hst
  have H := imm32_field (lo_lt (M := 3) (m := 2) (d := d.code) (a := a.code) (b := 0) (t := t.code) (r := 0) (l := 1)
    (by decide) (by decide) (dst_lt d) (src_lt a) (by decide) (ty_lt t) (by decide) (by decide) hst) imm
  generalize encLo 3 2 (d.code) (a.code) (0) (t.code) (0) 1 + 2 ^ 32 * imm.toNat + st = W at F H ⊢
  simp only [decodeSyl, F.major, decIntLong, decL, needL, zero, guardOr, dstD, srcA, srcB, F.l, F.major, F.minor,
    F.d, F.a, F.b, F.t, F.r, H, decTy_code ht, decSrc_code, decDst_code, decMod_code, fin_code, bv_code, bool_code]
  rfl

theorem orLong (t : Ty) (d : Dst) (a : Src) (imm : BitVec 32) : Statement (.orLong t d a imm) := by
  intro w hw hwf
  have ht : t.isScalarInt = true := hwf
  obtain rfl : encLo 3 3 (d.code) (a.code) (0) (t.code) (0) 1 + 2 ^ 32 * imm.toNat = w := Option.some.inj hw
  refine ⟨fits_imm (M := 3) (m := 3) (d := d.code) (a := a.code) (b := 0) (t := t.code) (r := 0) (by decide)
    (by decide) (dst_lt d) (src_lt a) (by decide) (ty_lt t) (by decide) imm, fun st hst => ?_⟩
  have F := loFields (M := 3) (m := 3) (d := d.code) (a := a.code) (b := 0) (t := t.code) (r := 0) (l := 1) imm.toNat
    (by decide) (by decide) (dst_lt d) (src_lt a) (by decide) (ty_lt t) (by decide) (by decide) hst
  have H := imm32_field (lo_lt (M := 3) (m := 3) (d := d.code) (a := a.code) (b := 0) (t := t.code) (r := 0) (l := 1)
    (by decide) (by decide) (dst_lt d) (src_lt a) (by decide) (ty_lt t) (by decide) (by decide) hst) imm
  generalize encLo 3 3 (d.code) (a.code) (0) (t.code) (0) 1 + 2 ^ 32 * imm.toNat + st = W at F H ⊢
  simp only [decodeSyl, F.major, decIntLong, decL, needL, zero, guardOr, dstD, srcA, srcB, F.l, F.major, F.minor,
    F.d, F.a, F.b, F.t, F.r, H, decTy_code ht, decSrc_code, decDst_code, decMod_code, fin_code, bv_code, bool_code]
  rfl

theorem xorLong (t : Ty) (d : Dst) (a : Src) (imm : BitVec 32) : Statement (.xorLong t d a imm) := by
  intro w hw hwf
  have ht : t.isScalarInt = true := hwf
  obtain rfl : encLo 3 4 (d.code) (a.code) (0) (t.code) (0) 1 + 2 ^ 32 * imm.toNat = w := Option.some.inj hw
  refine ⟨fits_imm (M := 3) (m := 4) (d := d.code) (a := a.code) (b := 0) (t := t.code) (r := 0) (by decide)
    (by decide) (dst_lt d) (src_lt a) (by decide) (ty_lt t) (by decide) imm, fun st hst => ?_⟩
  have F := loFields (M := 3) (m := 4) (d := d.code) (a := a.code) (b := 0) (t := t.code) (r := 0) (l := 1) imm.toNat
    (by decide) (by decide) (dst_lt d) (src_lt a) (by decide) (ty_lt t) (by decide) (by decide) hst
  have H := imm32_field (lo_lt (M := 3) (m := 4) (d := d.code) (a := a.code) (b := 0) (t := t.code) (r := 0) (l := 1)
    (by decide) (by decide) (dst_lt d) (src_lt a) (by decide) (ty_lt t) (by decide) (by decide) hst) imm
  generalize encLo 3 4 (d.code) (a.code) (0) (t.code) (0) 1 + 2 ^ 32 * imm.toNat + st = W at F H ⊢
  simp only [decodeSyl, F.major, decIntLong, decL, needL, zero, guardOr, dstD, srcA, srcB, F.l, F.major, F.minor,
    F.d, F.a, F.b, F.t, F.r, H, decTy_code ht, decSrc_code, decDst_code, decMod_code, fin_code, bv_code, bool_code]
  rfl

theorem ceqLong (t : Ty) (d : Dst) (a : Src) (imm : BitVec 32) : Statement (.ceqLong t d a imm) := by
  intro w hw hwf
  have ht : t.isScalarInt = true := hwf
  obtain rfl : encLo 3 5 (d.code) (a.code) (0) (t.code) (0) 1 + 2 ^ 32 * imm.toNat = w := Option.some.inj hw
  refine ⟨fits_imm (M := 3) (m := 5) (d := d.code) (a := a.code) (b := 0) (t := t.code) (r := 0) (by decide)
    (by decide) (dst_lt d) (src_lt a) (by decide) (ty_lt t) (by decide) imm, fun st hst => ?_⟩
  have F := loFields (M := 3) (m := 5) (d := d.code) (a := a.code) (b := 0) (t := t.code) (r := 0) (l := 1) imm.toNat
    (by decide) (by decide) (dst_lt d) (src_lt a) (by decide) (ty_lt t) (by decide) (by decide) hst
  have H := imm32_field (lo_lt (M := 3) (m := 5) (d := d.code) (a := a.code) (b := 0) (t := t.code) (r := 0) (l := 1)
    (by decide) (by decide) (dst_lt d) (src_lt a) (by decide) (ty_lt t) (by decide) (by decide) hst) imm
  generalize encLo 3 5 (d.code) (a.code) (0) (t.code) (0) 1 + 2 ^ 32 * imm.toNat + st = W at F H ⊢
  simp only [decodeSyl, F.major, decIntLong, decL, needL, zero, guardOr, dstD, srcA, srcB, F.l, F.major, F.minor,
    F.d, F.a, F.b, F.t, F.r, H, decTy_code ht, decSrc_code, decDst_code, decMod_code, fin_code, bv_code, bool_code]
  rfl

theorem cltLong (t : Ty) (d : Dst) (a : Src) (imm : BitVec 32) : Statement (.cltLong t d a imm) := by
  intro w hw hwf
  have ht : t.isScalarInt = true := hwf
  obtain rfl : encLo 3 6 (d.code) (a.code) (0) (t.code) (0) 1 + 2 ^ 32 * imm.toNat = w := Option.some.inj hw
  refine ⟨fits_imm (M := 3) (m := 6) (d := d.code) (a := a.code) (b := 0) (t := t.code) (r := 0) (by decide)
    (by decide) (dst_lt d) (src_lt a) (by decide) (ty_lt t) (by decide) imm, fun st hst => ?_⟩
  have F := loFields (M := 3) (m := 6) (d := d.code) (a := a.code) (b := 0) (t := t.code) (r := 0) (l := 1) imm.toNat
    (by decide) (by decide) (dst_lt d) (src_lt a) (by decide) (ty_lt t) (by decide) (by decide) hst
  have H := imm32_field (lo_lt (M := 3) (m := 6) (d := d.code) (a := a.code) (b := 0) (t := t.code) (r := 0) (l := 1)
    (by decide) (by decide) (dst_lt d) (src_lt a) (by decide) (ty_lt t) (by decide) (by decide) hst) imm
  generalize encLo 3 6 (d.code) (a.code) (0) (t.code) (0) 1 + 2 ^ 32 * imm.toNat + st = W at F H ⊢
  simp only [decodeSyl, F.major, decIntLong, decL, needL, zero, guardOr, dstD, srcA, srcB, F.l, F.major, F.minor,
    F.d, F.a, F.b, F.t, F.r, H, decTy_code ht, decSrc_code, decDst_code, decMod_code, fin_code, bv_code, bool_code]
  rfl

theorem cleLong (t : Ty) (d : Dst) (a : Src) (imm : BitVec 32) : Statement (.cleLong t d a imm) := by
  intro w hw hwf
  have ht : t.isScalarInt = true := hwf
  obtain rfl : encLo 3 7 (d.code) (a.code) (0) (t.code) (0) 1 + 2 ^ 32 * imm.toNat = w := Option.some.inj hw
  refine ⟨fits_imm (M := 3) (m := 7) (d := d.code) (a := a.code) (b := 0) (t := t.code) (r := 0) (by decide)
    (by decide) (dst_lt d) (src_lt a) (by decide) (ty_lt t) (by decide) imm, fun st hst => ?_⟩
  have F := loFields (M := 3) (m := 7) (d := d.code) (a := a.code) (b := 0) (t := t.code) (r := 0) (l := 1) imm.toNat
    (by decide) (by decide) (dst_lt d) (src_lt a) (by decide) (ty_lt t) (by decide) (by decide) hst
  have H := imm32_field (lo_lt (M := 3) (m := 7) (d := d.code) (a := a.code) (b := 0) (t := t.code) (r := 0) (l := 1)
    (by decide) (by decide) (dst_lt d) (src_lt a) (by decide) (ty_lt t) (by decide) (by decide) hst) imm
  generalize encLo 3 7 (d.code) (a.code) (0) (t.code) (0) 1 + 2 ^ 32 * imm.toNat + st = W at F H ⊢
  simp only [decodeSyl, F.major, decIntLong, decL, needL, zero, guardOr, dstD, srcA, srcB, F.l, F.major, F.minor,
    F.d, F.a, F.b, F.t, F.r, H, decTy_code ht, decSrc_code, decDst_code, decMod_code, fin_code, bv_code, bool_code]
  rfl

theorem movLong (t : Ty) (d : Dst) (imm : BitVec 32) : Statement (.movLong t d imm) := by
  intro w hw hwf
  have ht : t.isScalarInt = true := hwf
  obtain rfl : encLo 3 8 (d.code) (0) (0) (t.code) (0) 1 + 2 ^ 32 * imm.toNat = w := Option.some.inj hw
  refine ⟨fits_imm (M := 3) (m := 8) (d := d.code) (a := 0) (b := 0) (t := t.code) (r := 0) (by decide) (by decide)
    (dst_lt d) (by decide) (by decide) (ty_lt t) (by decide) imm, fun st hst => ?_⟩
  have F := loFields (M := 3) (m := 8) (d := d.code) (a := 0) (b := 0) (t := t.code) (r := 0) (l := 1) imm.toNat
    (by decide) (by decide) (dst_lt d) (by decide) (by decide) (ty_lt t) (by decide) (by decide) hst
  have H := imm32_field (lo_lt (M := 3) (m := 8) (d := d.code) (a := 0) (b := 0) (t := t.code) (r := 0) (l := 1)
    (by decide) (by decide) (dst_lt d) (by decide) (by decide) (ty_lt t) (by decide) (by decide) hst) imm
  generalize encLo 3 8 (d.code) (0) (0) (t.code) (0) 1 + 2 ^ 32 * imm.toNat + st = W at F H ⊢
  simp only [decodeSyl, F.major, decIntLong, decL, needL, zero, guardOr, dstD, srcA, srcB, F.l, F.major, F.minor,
    F.d, F.a, F.b, F.t, F.r, H, decTy_code ht, decSrc_code, decDst_code, decMod_code, fin_code, bv_code, bool_code]
  rfl

theorem movh (t : Ty) (d : Dst) (a : Src) (imm : BitVec 32) : Statement (.movh t d a imm) := by
  intro w hw hwf
  have ht : (t == .s64 || t == .z64) = true := hwf
  obtain rfl : encLo 3 9 (d.code) (a.code) (0) (t.code) (0) 1 + 2 ^ 32 * imm.toNat = w := Option.some.inj hw
  refine ⟨fits_imm (M := 3) (m := 9) (d := d.code) (a := a.code) (b := 0) (t := t.code) (r := 0) (by decide)
    (by decide) (dst_lt d) (src_lt a) (by decide) (ty_lt t) (by decide) imm, fun st hst => ?_⟩
  have F := loFields (M := 3) (m := 9) (d := d.code) (a := a.code) (b := 0) (t := t.code) (r := 0) (l := 1) imm.toNat
    (by decide) (by decide) (dst_lt d) (src_lt a) (by decide) (ty_lt t) (by decide) (by decide) hst
  have H := imm32_field (lo_lt (M := 3) (m := 9) (d := d.code) (a := a.code) (b := 0) (t := t.code) (r := 0) (l := 1)
    (by decide) (by decide) (dst_lt d) (src_lt a) (by decide) (ty_lt t) (by decide) (by decide) hst) imm
  generalize encLo 3 9 (d.code) (a.code) (0) (t.code) (0) 1 + 2 ^ 32 * imm.toNat + st = W at F H ⊢
  simp only [decodeSyl, F.major, decIntLong, decL, needL, zero, guardOr, dstD, srcA, srcB, F.l, F.major, F.minor,
    F.d, F.a, F.b, F.t, F.r, H, decTy_code (ok := fun t => t == .s64 || t == .z64) ht, decSrc_code, decDst_code,
    decMod_code, fin_code, bv_code, bool_code]
  rfl

theorem adr (d : Dst) (imm : BitVec 32) : Statement (.adr d imm) := by
  intro w hw hwf
  obtain rfl : encLo 3 10 (d.code) (0) (0) (11) (0) 1 + 2 ^ 32 * imm.toNat = w := Option.some.inj hw
  refine ⟨fits_imm (M := 3) (m := 10) (d := d.code) (a := 0) (b := 0) (t := 11) (r := 0) (by decide) (by decide)
    (dst_lt d) (by decide) (by decide) (by decide) (by decide) imm, fun st hst => ?_⟩
  have F := loFields (M := 3) (m := 10) (d := d.code) (a := 0) (b := 0) (t := 11) (r := 0) (l := 1) imm.toNat
    (by decide) (by decide) (dst_lt d) (by decide) (by decide) (by decide) (by decide) (by decide) hst
  have H := imm32_field (lo_lt (M := 3) (m := 10) (d := d.code) (a := 0) (b := 0) (t := 11) (r := 0) (l := 1)
    (by decide) (by decide) (dst_lt d) (by decide) (by decide) (by decide) (by decide) (by decide) hst) imm
  generalize encLo 3 10 (d.code) (0) (0) (11) (0) 1 + 2 ^ 32 * imm.toNat + st = W at F H ⊢
  simp only [decodeSyl, F.major, decIntLong, decL, needL, zero, guardOr, dstD, srcA, srcB, F.l, F.major, F.minor,
    F.d, F.a, F.b, F.t, F.r, H, decSrc_code, decDst_code, decMod_code, fin_code, bv_code, bool_code]
  rfl

theorem lit (d : Dst) (off : BitVec 15) : Statement (.lit d off) := by
  intro w hw hwf
  obtain rfl : 2 ^ 2 * 4 + 2 ^ 12 * d.code + 2 ^ 17 * off.toNat = w := Option.some.inj hw
  have h1 := dst_lt d
  have h2 := off.isLt
  refine ⟨by unfold Fits fld; omega, fun st hst => ?_⟩
  have e1 : fld (2 ^ 2 * 4 + 2 ^ 12 * d.code + 2 ^ 17 * off.toNat + st) 1 1 = 0 := by unfold fld; omega
  have e2 : fld (2 ^ 2 * 4 + 2 ^ 12 * d.code + 2 ^ 17 * off.toNat + st) 2 5 = 4 := by unfold fld; omega
  have e3 : fld (2 ^ 2 * 4 + 2 ^ 12 * d.code + 2 ^ 17 * off.toNat + st) 7 5 = 0 := by unfold fld; omega
  have e4 : fld (2 ^ 2 * 4 + 2 ^ 12 * d.code + 2 ^ 17 * off.toNat + st) 12 5 = d.code := by unfold fld; omega
  have e5 : fld (2 ^ 2 * 4 + 2 ^ 12 * d.code + 2 ^ 17 * off.toNat + st) 17 15 = off.toNat := by unfold fld; omega
  simp only [decodeSyl, e2, needL, guardOr, dstD, e1, e3, e4, e5, decDst_code, bv_code]
  rfl

theorem ld (t : Ty) (d : Dst) (a b : Src) : Statement (.ld t d a b) := by
  intro w hw hwf
  have ht : t.isScalarInt = true := hwf
  obtain rfl : encLo 5 0 (d.code) (a.code) (b.code) (t.code) (0) 0 = w := Option.some.inj hw
  refine ⟨fits_lo0 (M := 5) (m := 0) (d := d.code) (a := a.code) (b := b.code) (t := t.code) (r := 0) (by decide)
    (by decide) (dst_lt d) (src_lt a) (src_lt b) (ty_lt t) (by decide), fun st hst => ?_⟩
  have F := loFields0 (M := 5) (m := 0) (d := d.code) (a := a.code) (b := b.code) (t := t.code) (r := 0) (l := 0)
    (by decide) (by decide) (dst_lt d) (src_lt a) (src_lt b) (ty_lt t) (by decide) (by decide) hst
  generalize encLo 5 0 (d.code) (a.code) (b.code) (t.code) (0) 0 + st = W at F ⊢
  simp only [decodeSyl, F.major, decMem, decTab, needL, zero, guardOr, dstD, srcA, srcB, F.l, F.major, F.minor, F.d,
    F.a, F.b, F.t, F.r, decTy_code ht, decSrc_code, decDst_code, decMod_code, fin_code, bv_code, bool_code]
  rfl

theorem st (t : Ty) (v : Src) (a b : Src) : Statement (.st t v a b) := by
  intro w hw hwf
  have ht : t.isScalarInt = true := hwf
  obtain rfl : encLo 5 1 (v.code) (a.code) (b.code) (t.code) (0) 0 = w := Option.some.inj hw
  refine ⟨fits_lo0 (M := 5) (m := 1) (d := v.code) (a := a.code) (b := b.code) (t := t.code) (r := 0) (by decide)
    (by decide) (src_lt v) (src_lt a) (src_lt b) (ty_lt t) (by decide), fun st hst => ?_⟩
  have F := loFields0 (M := 5) (m := 1) (d := v.code) (a := a.code) (b := b.code) (t := t.code) (r := 0) (l := 0)
    (by decide) (by decide) (src_lt v) (src_lt a) (src_lt b) (ty_lt t) (by decide) (by decide) hst
  generalize encLo 5 1 (v.code) (a.code) (b.code) (t.code) (0) 0 + st = W at F ⊢
  simp only [decodeSyl, F.major, decMem, needL, zero, guardOr, dstD, srcA, srcB, F.l, F.major, F.minor, F.d, F.a,
    F.b, F.t, F.r, decTy_code ht, decSrc_code, decDst_code, decMod_code, fin_code, bv_code, bool_code]
  rfl

theorem ldOffset (t : Ty) (cls : Fin 16) (d : Dst) (a : Src) (off : BitVec 32) : Statement (.ldOffset t cls d a off)
  := by
  intro w hw hwf
  have ht : t.isScalarInt = true := hwf
  obtain rfl : encLo 5 2 (d.code) (a.code) (2 * cls.val) (t.code) (0) 1 + 2 ^ 32 * off.toNat = w := Option.some.inj hw
  refine ⟨fits_imm (M := 5) (m := 2) (d := d.code) (a := a.code) (b := 2 * cls.val) (t := t.code) (r := 0)
    (by decide) (by decide) (dst_lt d) (src_lt a) (by omega) (ty_lt t) (by decide) off, fun st hst => ?_⟩
  have F := loFields (M := 5) (m := 2) (d := d.code) (a := a.code) (b := 2 * cls.val) (t := t.code) (r := 0) (l := 1)
    off.toNat (by decide) (by decide) (dst_lt d) (src_lt a) (by omega) (ty_lt t) (by decide) (by decide) hst
  have G := loSpans (M := 5) (m := 2) (d := d.code) (a := a.code) (b := 2 * cls.val) (t := t.code) (r := 0) (l := 1)
    off.toNat (by decide) (by decide) (dst_lt d) (src_lt a) (by omega) (ty_lt t) (by decide) (by decide) hst
  have H := imm32_field (lo_lt (M := 5) (m := 2) (d := d.code) (a := a.code) (b := 2 * cls.val) (t := t.code) (r
    := 0) (l := 1) (by decide) (by decide) (dst_lt d) (src_lt a) (by omega) (ty_lt t) (by decide) (by decide) hst) off
  generalize encLo 5 2 (d.code) (a.code) (2 * cls.val) (t.code) (0) 1 + 2 ^ 32 * off.toNat + st = W at F G H ⊢
  simp only [decodeSyl, F.major, decMem, needL, zero, guardOr, dstD, srcA, srcB, F.l, F.major, F.minor, F.d, F.a,
    F.b, F.t, F.r, H, G.s22_1, G.s23_4, two_mul_mod, two_mul_div, decTy_code ht, decSrc_code, decDst_code,
    decMod_code, fin_code, bv_code, bool_code]
  rfl

theorem stOffset (t : Ty) (cls : Fin 16) (v : Src) (a : Src) (off : BitVec 32) : Statement (.stOffset t cls v a off)
  := by
  intro w hw hwf
  have ht : t.isScalarInt = true := hwf
  obtain rfl : encLo 5 3 (v.code) (a.code) (2 * cls.val) (t.code) (0) 1 + 2 ^ 32 * off.toNat = w := Option.some.inj hw
  refine ⟨fits_imm (M := 5) (m := 3) (d := v.code) (a := a.code) (b := 2 * cls.val) (t := t.code) (r := 0)
    (by decide) (by decide) (src_lt v) (src_lt a) (by omega) (ty_lt t) (by decide) off, fun st hst => ?_⟩
  have F := loFields (M := 5) (m := 3) (d := v.code) (a := a.code) (b := 2 * cls.val) (t := t.code) (r := 0) (l := 1)
    off.toNat (by decide) (by decide) (src_lt v) (src_lt a) (by omega) (ty_lt t) (by decide) (by decide) hst
  have G := loSpans (M := 5) (m := 3) (d := v.code) (a := a.code) (b := 2 * cls.val) (t := t.code) (r := 0) (l := 1)
    off.toNat (by decide) (by decide) (src_lt v) (src_lt a) (by omega) (ty_lt t) (by decide) (by decide) hst
  have H := imm32_field (lo_lt (M := 5) (m := 3) (d := v.code) (a := a.code) (b := 2 * cls.val) (t := t.code) (r
    := 0) (l := 1) (by decide) (by decide) (src_lt v) (src_lt a) (by omega) (ty_lt t) (by decide) (by decide) hst) off
  generalize encLo 5 3 (v.code) (a.code) (2 * cls.val) (t.code) (0) 1 + 2 ^ 32 * off.toNat + st = W at F G H ⊢
  simp only [decodeSyl, F.major, decMem, needL, zero, guardOr, dstD, srcA, srcB, F.l, F.major, F.minor, F.d, F.a,
    F.b, F.t, F.r, H, G.s22_1, G.s23_4, two_mul_mod, two_mul_div, decTy_code ht, decSrc_code, decDst_code,
    decMod_code, fin_code, bv_code, bool_code]
  rfl

theorem amoAdd (t : Ty) (cls : Fin 16) (d : Dst) (a b : Src) (off : BitVec 16) : Statement (.amoAdd t cls d a b off)
  := by
  intro w hw hwf
  have ht : t.isAmo = true := hwf
  obtain rfl : encLo 6 0 (d.code) (a.code) (b.code) (t.code) (0) 1 + 2 ^ 37 * 0 + 2 ^ 44 * cls.val + 2 ^ 48 *
    off.toNat = w := Option.some.inj hw
  refine ⟨fits_amo (M := 6) (m := 0) (d := d.code) (a := a.code) (b := b.code) (t := t.code) (r := 0) (by decide)
    (by decide) (dst_lt d) (src_lt a) (src_lt b) (ty_lt t) (by decide) (by decide) cls.isLt off.isLt, fun st hst =>
    ?_⟩
  have F := loFields (M := 6) (m := 0) (d := d.code) (a := a.code) (b := b.code) (t := t.code) (r := 0) (l := 1) (32
    * 0 + 4096 * cls.val + 65536 * off.toNat) (by decide) (by decide) (dst_lt d) (src_lt a) (src_lt b) (ty_lt t)
    (by decide) (by decide) hst
  rw [amo_hi] at F
  have H := amoFields (c := 0) (cls := cls.val) (off := off.toNat) (lo_lt (M := 6) (m := 0) (d := d.code) (a
    := a.code) (b := b.code) (t := t.code) (r := 0) (l := 1) (by decide) (by decide) (dst_lt d) (src_lt a) (src_lt b)
    (ty_lt t) (by decide) (by decide) hst) (by decide) cls.isLt off.isLt
  generalize encLo 6 0 (d.code) (a.code) (b.code) (t.code) (0) 1 + 2 ^ 37 * 0 + 2 ^ 44 * cls.val + 2 ^ 48 * off.toNat
    + st = W at F H ⊢
  simp only [decodeSyl, F.major, decAmos, decAmo, needL, zero, guardOr, dstD, srcA, srcB, F.l, F.major, F.minor, F.d,
    F.a, F.b, F.t, F.r, H.f32_10, H.f32_5, H.f37_5, H.f42_2, H.f44_4, H.f48_16, decTy_code ht, decSrc_code,
    decDst_code, decMod_code, fin_code, bv_code, bool_code]
  rfl

theorem amoAnd (t : Ty) (cls : Fin 16) (d : Dst) (a b : Src) (off : BitVec 16) : Statement (.amoAnd t cls d a b off)
  := by
  intro w hw hwf
  have ht : t.isAmo = true := hwf
  obtain rfl : encLo 6 1 (d.code) (a.code) (b.code) (t.code) (0) 1 + 2 ^ 37 * 0 + 2 ^ 44 * cls.val + 2 ^ 48 *
    off.toNat = w := Option.some.inj hw
  refine ⟨fits_amo (M := 6) (m := 1) (d := d.code) (a := a.code) (b := b.code) (t := t.code) (r := 0) (by decide)
    (by decide) (dst_lt d) (src_lt a) (src_lt b) (ty_lt t) (by decide) (by decide) cls.isLt off.isLt, fun st hst =>
    ?_⟩
  have F := loFields (M := 6) (m := 1) (d := d.code) (a := a.code) (b := b.code) (t := t.code) (r := 0) (l := 1) (32
    * 0 + 4096 * cls.val + 65536 * off.toNat) (by decide) (by decide) (dst_lt d) (src_lt a) (src_lt b) (ty_lt t)
    (by decide) (by decide) hst
  rw [amo_hi] at F
  have H := amoFields (c := 0) (cls := cls.val) (off := off.toNat) (lo_lt (M := 6) (m := 1) (d := d.code) (a
    := a.code) (b := b.code) (t := t.code) (r := 0) (l := 1) (by decide) (by decide) (dst_lt d) (src_lt a) (src_lt b)
    (ty_lt t) (by decide) (by decide) hst) (by decide) cls.isLt off.isLt
  generalize encLo 6 1 (d.code) (a.code) (b.code) (t.code) (0) 1 + 2 ^ 37 * 0 + 2 ^ 44 * cls.val + 2 ^ 48 * off.toNat
    + st = W at F H ⊢
  simp only [decodeSyl, F.major, decAmos, decAmo, needL, zero, guardOr, dstD, srcA, srcB, F.l, F.major, F.minor, F.d,
    F.a, F.b, F.t, F.r, H.f32_10, H.f32_5, H.f37_5, H.f42_2, H.f44_4, H.f48_16, decTy_code ht, decSrc_code,
    decDst_code, decMod_code, fin_code, bv_code, bool_code]
  rfl

theorem amoOr (t : Ty) (cls : Fin 16) (d : Dst) (a b : Src) (off : BitVec 16) : Statement (.amoOr t cls d a b off)
  := by
  intro w hw hwf
  have ht : t.isAmo = true := hwf
  obtain rfl : encLo 6 2 (d.code) (a.code) (b.code) (t.code) (0) 1 + 2 ^ 37 * 0 + 2 ^ 44 * cls.val + 2 ^ 48 *
    off.toNat = w := Option.some.inj hw
  refine ⟨fits_amo (M := 6) (m := 2) (d := d.code) (a := a.code) (b := b.code) (t := t.code) (r := 0) (by decide)
    (by decide) (dst_lt d) (src_lt a) (src_lt b) (ty_lt t) (by decide) (by decide) cls.isLt off.isLt, fun st hst =>
    ?_⟩
  have F := loFields (M := 6) (m := 2) (d := d.code) (a := a.code) (b := b.code) (t := t.code) (r := 0) (l := 1) (32
    * 0 + 4096 * cls.val + 65536 * off.toNat) (by decide) (by decide) (dst_lt d) (src_lt a) (src_lt b) (ty_lt t)
    (by decide) (by decide) hst
  rw [amo_hi] at F
  have H := amoFields (c := 0) (cls := cls.val) (off := off.toNat) (lo_lt (M := 6) (m := 2) (d := d.code) (a
    := a.code) (b := b.code) (t := t.code) (r := 0) (l := 1) (by decide) (by decide) (dst_lt d) (src_lt a) (src_lt b)
    (ty_lt t) (by decide) (by decide) hst) (by decide) cls.isLt off.isLt
  generalize encLo 6 2 (d.code) (a.code) (b.code) (t.code) (0) 1 + 2 ^ 37 * 0 + 2 ^ 44 * cls.val + 2 ^ 48 * off.toNat
    + st = W at F H ⊢
  simp only [decodeSyl, F.major, decAmos, decAmo, needL, zero, guardOr, dstD, srcA, srcB, F.l, F.major, F.minor, F.d,
    F.a, F.b, F.t, F.r, H.f32_10, H.f32_5, H.f37_5, H.f42_2, H.f44_4, H.f48_16, decTy_code ht, decSrc_code,
    decDst_code, decMod_code, fin_code, bv_code, bool_code]
  rfl

theorem amoXor (t : Ty) (cls : Fin 16) (d : Dst) (a b : Src) (off : BitVec 16) : Statement (.amoXor t cls d a b off)
  := by
  intro w hw hwf
  have ht : t.isAmo = true := hwf
  obtain rfl : encLo 6 3 (d.code) (a.code) (b.code) (t.code) (0) 1 + 2 ^ 37 * 0 + 2 ^ 44 * cls.val + 2 ^ 48 *
    off.toNat = w := Option.some.inj hw
  refine ⟨fits_amo (M := 6) (m := 3) (d := d.code) (a := a.code) (b := b.code) (t := t.code) (r := 0) (by decide)
    (by decide) (dst_lt d) (src_lt a) (src_lt b) (ty_lt t) (by decide) (by decide) cls.isLt off.isLt, fun st hst =>
    ?_⟩
  have F := loFields (M := 6) (m := 3) (d := d.code) (a := a.code) (b := b.code) (t := t.code) (r := 0) (l := 1) (32
    * 0 + 4096 * cls.val + 65536 * off.toNat) (by decide) (by decide) (dst_lt d) (src_lt a) (src_lt b) (ty_lt t)
    (by decide) (by decide) hst
  rw [amo_hi] at F
  have H := amoFields (c := 0) (cls := cls.val) (off := off.toNat) (lo_lt (M := 6) (m := 3) (d := d.code) (a
    := a.code) (b := b.code) (t := t.code) (r := 0) (l := 1) (by decide) (by decide) (dst_lt d) (src_lt a) (src_lt b)
    (ty_lt t) (by decide) (by decide) hst) (by decide) cls.isLt off.isLt
  generalize encLo 6 3 (d.code) (a.code) (b.code) (t.code) (0) 1 + 2 ^ 37 * 0 + 2 ^ 44 * cls.val + 2 ^ 48 * off.toNat
    + st = W at F H ⊢
  simp only [decodeSyl, F.major, decAmos, decAmo, needL, zero, guardOr, dstD, srcA, srcB, F.l, F.major, F.minor, F.d,
    F.a, F.b, F.t, F.r, H.f32_10, H.f32_5, H.f37_5, H.f42_2, H.f44_4, H.f48_16, decTy_code ht, decSrc_code,
    decDst_code, decMod_code, fin_code, bv_code, bool_code]
  rfl

theorem amoMax (t : Ty) (cls : Fin 16) (d : Dst) (a b : Src) (off : BitVec 16) : Statement (.amoMax t cls d a b off)
  := by
  intro w hw hwf
  have ht : t.isAmo = true := hwf
  obtain rfl : encLo 6 4 (d.code) (a.code) (b.code) (t.code) (0) 1 + 2 ^ 37 * 0 + 2 ^ 44 * cls.val + 2 ^ 48 *
    off.toNat = w := Option.some.inj hw
  refine ⟨fits_amo (M := 6) (m := 4) (d := d.code) (a := a.code) (b := b.code) (t := t.code) (r := 0) (by decide)
    (by decide) (dst_lt d) (src_lt a) (src_lt b) (ty_lt t) (by decide) (by decide) cls.isLt off.isLt, fun st hst =>
    ?_⟩
  have F := loFields (M := 6) (m := 4) (d := d.code) (a := a.code) (b := b.code) (t := t.code) (r := 0) (l := 1) (32
    * 0 + 4096 * cls.val + 65536 * off.toNat) (by decide) (by decide) (dst_lt d) (src_lt a) (src_lt b) (ty_lt t)
    (by decide) (by decide) hst
  rw [amo_hi] at F
  have H := amoFields (c := 0) (cls := cls.val) (off := off.toNat) (lo_lt (M := 6) (m := 4) (d := d.code) (a
    := a.code) (b := b.code) (t := t.code) (r := 0) (l := 1) (by decide) (by decide) (dst_lt d) (src_lt a) (src_lt b)
    (ty_lt t) (by decide) (by decide) hst) (by decide) cls.isLt off.isLt
  generalize encLo 6 4 (d.code) (a.code) (b.code) (t.code) (0) 1 + 2 ^ 37 * 0 + 2 ^ 44 * cls.val + 2 ^ 48 * off.toNat
    + st = W at F H ⊢
  simp only [decodeSyl, F.major, decAmos, decAmo, needL, zero, guardOr, dstD, srcA, srcB, F.l, F.major, F.minor, F.d,
    F.a, F.b, F.t, F.r, H.f32_10, H.f32_5, H.f37_5, H.f42_2, H.f44_4, H.f48_16, decTy_code ht, decSrc_code,
    decDst_code, decMod_code, fin_code, bv_code, bool_code]
  rfl

theorem amoMin (t : Ty) (cls : Fin 16) (d : Dst) (a b : Src) (off : BitVec 16) : Statement (.amoMin t cls d a b off)
  := by
  intro w hw hwf
  have ht : t.isAmo = true := hwf
  obtain rfl : encLo 6 5 (d.code) (a.code) (b.code) (t.code) (0) 1 + 2 ^ 37 * 0 + 2 ^ 44 * cls.val + 2 ^ 48 *
    off.toNat = w := Option.some.inj hw
  refine ⟨fits_amo (M := 6) (m := 5) (d := d.code) (a := a.code) (b := b.code) (t := t.code) (r := 0) (by decide)
    (by decide) (dst_lt d) (src_lt a) (src_lt b) (ty_lt t) (by decide) (by decide) cls.isLt off.isLt, fun st hst =>
    ?_⟩
  have F := loFields (M := 6) (m := 5) (d := d.code) (a := a.code) (b := b.code) (t := t.code) (r := 0) (l := 1) (32
    * 0 + 4096 * cls.val + 65536 * off.toNat) (by decide) (by decide) (dst_lt d) (src_lt a) (src_lt b) (ty_lt t)
    (by decide) (by decide) hst
  rw [amo_hi] at F
  have H := amoFields (c := 0) (cls := cls.val) (off := off.toNat) (lo_lt (M := 6) (m := 5) (d := d.code) (a
    := a.code) (b := b.code) (t := t.code) (r := 0) (l := 1) (by decide) (by decide) (dst_lt d) (src_lt a) (src_lt b)
    (ty_lt t) (by decide) (by decide) hst) (by decide) cls.isLt off.isLt
  generalize encLo 6 5 (d.code) (a.code) (b.code) (t.code) (0) 1 + 2 ^ 37 * 0 + 2 ^ 44 * cls.val + 2 ^ 48 * off.toNat
    + st = W at F H ⊢
  simp only [decodeSyl, F.major, decAmos, decAmo, needL, zero, guardOr, dstD, srcA, srcB, F.l, F.major, F.minor, F.d,
    F.a, F.b, F.t, F.r, H.f32_10, H.f32_5, H.f37_5, H.f42_2, H.f44_4, H.f48_16, decTy_code ht, decSrc_code,
    decDst_code, decMod_code, fin_code, bv_code, bool_code]
  rfl

theorem amoSwap (t : Ty) (cls : Fin 16) (d : Dst) (a b : Src) (off : BitVec 16) : Statement (.amoSwap t cls d a b
  off) := by
  intro w hw hwf
  have ht : t.isAmo = true := hwf
  obtain rfl : encLo 6 6 (d.code) (a.code) (b.code) (t.code) (0) 1 + 2 ^ 37 * 0 + 2 ^ 44 * cls.val + 2 ^ 48 *
    off.toNat = w := Option.some.inj hw
  refine ⟨fits_amo (M := 6) (m := 6) (d := d.code) (a := a.code) (b := b.code) (t := t.code) (r := 0) (by decide)
    (by decide) (dst_lt d) (src_lt a) (src_lt b) (ty_lt t) (by decide) (by decide) cls.isLt off.isLt, fun st hst =>
    ?_⟩
  have F := loFields (M := 6) (m := 6) (d := d.code) (a := a.code) (b := b.code) (t := t.code) (r := 0) (l := 1) (32
    * 0 + 4096 * cls.val + 65536 * off.toNat) (by decide) (by decide) (dst_lt d) (src_lt a) (src_lt b) (ty_lt t)
    (by decide) (by decide) hst
  rw [amo_hi] at F
  have H := amoFields (c := 0) (cls := cls.val) (off := off.toNat) (lo_lt (M := 6) (m := 6) (d := d.code) (a
    := a.code) (b := b.code) (t := t.code) (r := 0) (l := 1) (by decide) (by decide) (dst_lt d) (src_lt a) (src_lt b)
    (ty_lt t) (by decide) (by decide) hst) (by decide) cls.isLt off.isLt
  generalize encLo 6 6 (d.code) (a.code) (b.code) (t.code) (0) 1 + 2 ^ 37 * 0 + 2 ^ 44 * cls.val + 2 ^ 48 * off.toNat
    + st = W at F H ⊢
  simp only [decodeSyl, F.major, decAmos, decAmo, needL, zero, guardOr, dstD, srcA, srcB, F.l, F.major, F.minor, F.d,
    F.a, F.b, F.t, F.r, H.f32_10, H.f32_5, H.f37_5, H.f42_2, H.f44_4, H.f48_16, decTy_code ht, decSrc_code,
    decDst_code, decMod_code, fin_code, bv_code, bool_code]
  rfl

theorem amoCas (t : Ty) (cls : Fin 16) (d : Dst) (a b c : Src) (off : BitVec 16) : Statement (.amoCas t cls d a b c
  off) := by
  intro w hw hwf
  have ht : t.isAmo = true := hwf
  obtain rfl : encLo 6 7 (d.code) (a.code) (b.code) (t.code) (0) 1 + 2 ^ 37 * c.code + 2 ^ 44 * cls.val + 2 ^ 48 *
    off.toNat = w := Option.some.inj hw
  refine ⟨fits_amo (M := 6) (m := 7) (d := d.code) (a := a.code) (b := b.code) (t := t.code) (r := 0) (by decide)
    (by decide) (dst_lt d) (src_lt a) (src_lt b) (ty_lt t) (by decide) (src_lt c) cls.isLt off.isLt, fun st hst => ?_⟩
  have F := loFields (M := 6) (m := 7) (d := d.code) (a := a.code) (b := b.code) (t := t.code) (r := 0) (l := 1) (32
    * c.code + 4096 * cls.val + 65536 * off.toNat) (by decide) (by decide) (dst_lt d) (src_lt a) (src_lt b) (ty_lt t)
    (by decide) (by decide) hst
  rw [amo_hi] at F
  have H := amoFields (c := c.code) (cls := cls.val) (off := off.toNat) (lo_lt (M := 6) (m := 7) (d := d.code) (a
    := a.code) (b := b.code) (t := t.code) (r := 0) (l := 1) (by decide) (by decide) (dst_lt d) (src_lt a) (src_lt b)
    (ty_lt t) (by decide) (by decide) hst) (src_lt c) cls.isLt off.isLt
  generalize encLo 6 7 (d.code) (a.code) (b.code) (t.code) (0) 1 + 2 ^ 37 * c.code + 2 ^ 44 * cls.val
    + 2 ^ 48 * off.toNat + st = W at F H ⊢
  simp only [decodeSyl, F.major, decAmos, decAmo, needL, zero, guardOr, dstD, srcA, srcB, F.l, F.major, F.minor, F.d,
    F.a, F.b, F.t, F.r, H.f32_10, H.f32_5, H.f37_5, H.f42_2, H.f44_4, H.f48_16, decTy_code ht, decSrc_code,
    decDst_code, decMod_code, fin_code, bv_code, bool_code]
  rfl

theorem amoFadd (cls : Fin 16) (d : Dst) (a b : Src) (off : BitVec 16) : Statement (.amoFadd cls d a b off) := by
  intro w hw hwf
  obtain rfl : encLo 6 8 (d.code) (a.code) (b.code) (7) (0) 1 + 2 ^ 37 * 0 + 2 ^ 44 * cls.val + 2 ^ 48 * off.toNat =
    w := Option.some.inj hw
  refine ⟨fits_amo (M := 6) (m := 8) (d := d.code) (a := a.code) (b := b.code) (t := 7) (r := 0) (by decide)
    (by decide) (dst_lt d) (src_lt a) (src_lt b) (by decide) (by decide) (by decide) cls.isLt off.isLt, fun st hst =>
    ?_⟩
  have F := loFields (M := 6) (m := 8) (d := d.code) (a := a.code) (b := b.code) (t := 7) (r := 0) (l := 1) (32 * 0 +
    4096 * cls.val + 65536 * off.toNat) (by decide) (by decide) (dst_lt d) (src_lt a) (src_lt b) (by decide)
    (by decide) (by decide) hst
  rw [amo_hi] at F
  have H := amoFields (c := 0) (cls := cls.val) (off := off.toNat) (lo_lt (M := 6) (m := 8) (d := d.code) (a
    := a.code) (b := b.code) (t := 7) (r := 0) (l := 1) (by decide) (by decide) (dst_lt d) (src_lt a) (src_lt b)
    (by decide) (by decide) (by decide) hst) (by decide) cls.isLt off.isLt
  generalize encLo 6 8 (d.code) (a.code) (b.code) (7) (0) 1 + 2 ^ 37 * 0 + 2 ^ 44 * cls.val + 2 ^ 48 * off.toNat
    + st = W at F H ⊢
  simp only [decodeSyl, F.major, decAmos, decAmo, needL, zero, guardOr, dstD, srcA, srcB, F.l, F.major, F.minor, F.d,
    F.a, F.b, F.t, F.r, H.f32_10, H.f32_5, H.f37_5, H.f42_2, H.f44_4, H.f48_16, decSrc_code, decDst_code,
    decMod_code, fin_code, bv_code, bool_code]
  rfl

theorem amoFmax (cls : Fin 16) (d : Dst) (a b : Src) (off : BitVec 16) : Statement (.amoFmax cls d a b off) := by
  intro w hw hwf
  obtain rfl : encLo 6 9 (d.code) (a.code) (b.code) (7) (0) 1 + 2 ^ 37 * 0 + 2 ^ 44 * cls.val + 2 ^ 48 * off.toNat =
    w := Option.some.inj hw
  refine ⟨fits_amo (M := 6) (m := 9) (d := d.code) (a := a.code) (b := b.code) (t := 7) (r := 0) (by decide)
    (by decide) (dst_lt d) (src_lt a) (src_lt b) (by decide) (by decide) (by decide) cls.isLt off.isLt, fun st hst =>
    ?_⟩
  have F := loFields (M := 6) (m := 9) (d := d.code) (a := a.code) (b := b.code) (t := 7) (r := 0) (l := 1) (32 * 0 +
    4096 * cls.val + 65536 * off.toNat) (by decide) (by decide) (dst_lt d) (src_lt a) (src_lt b) (by decide)
    (by decide) (by decide) hst
  rw [amo_hi] at F
  have H := amoFields (c := 0) (cls := cls.val) (off := off.toNat) (lo_lt (M := 6) (m := 9) (d := d.code) (a
    := a.code) (b := b.code) (t := 7) (r := 0) (l := 1) (by decide) (by decide) (dst_lt d) (src_lt a) (src_lt b)
    (by decide) (by decide) (by decide) hst) (by decide) cls.isLt off.isLt
  generalize encLo 6 9 (d.code) (a.code) (b.code) (7) (0) 1 + 2 ^ 37 * 0 + 2 ^ 44 * cls.val + 2 ^ 48 * off.toNat
    + st = W at F H ⊢
  simp only [decodeSyl, F.major, decAmos, decAmo, needL, zero, guardOr, dstD, srcA, srcB, F.l, F.major, F.minor, F.d,
    F.a, F.b, F.t, F.r, H.f32_10, H.f32_5, H.f37_5, H.f42_2, H.f44_4, H.f48_16, decSrc_code, decDst_code,
    decMod_code, fin_code, bv_code, bool_code]
  rfl

theorem amoFmin (cls : Fin 16) (d : Dst) (a b : Src) (off : BitVec 16) : Statement (.amoFmin cls d a b off) := by
  intro w hw hwf
  obtain rfl : encLo 6 10 (d.code) (a.code) (b.code) (7) (0) 1 + 2 ^ 37 * 0 + 2 ^ 44 * cls.val + 2 ^ 48 * off.toNat =
    w := Option.some.inj hw
  refine ⟨fits_amo (M := 6) (m := 10) (d := d.code) (a := a.code) (b := b.code) (t := 7) (r := 0) (by decide)
    (by decide) (dst_lt d) (src_lt a) (src_lt b) (by decide) (by decide) (by decide) cls.isLt off.isLt, fun st hst =>
    ?_⟩
  have F := loFields (M := 6) (m := 10) (d := d.code) (a := a.code) (b := b.code) (t := 7) (r := 0) (l := 1) (32 * 0
    + 4096 * cls.val + 65536 * off.toNat) (by decide) (by decide) (dst_lt d) (src_lt a) (src_lt b) (by decide)
    (by decide) (by decide) hst
  rw [amo_hi] at F
  have H := amoFields (c := 0) (cls := cls.val) (off := off.toNat) (lo_lt (M := 6) (m := 10) (d := d.code) (a
    := a.code) (b := b.code) (t := 7) (r := 0) (l := 1) (by decide) (by decide) (dst_lt d) (src_lt a) (src_lt b)
    (by decide) (by decide) (by decide) hst) (by decide) cls.isLt off.isLt
  generalize encLo 6 10 (d.code) (a.code) (b.code) (7) (0) 1 + 2 ^ 37 * 0 + 2 ^ 44 * cls.val + 2 ^ 48 * off.toNat
    + st = W at F H ⊢
  simp only [decodeSyl, F.major, decAmos, decAmo, needL, zero, guardOr, dstD, srcA, srcB, F.l, F.major, F.minor, F.d,
    F.a, F.b, F.t, F.r, H.f32_10, H.f32_5, H.f37_5, H.f42_2, H.f44_4, H.f48_16, decSrc_code, decDst_code,
    decMod_code, fin_code, bv_code, bool_code]
  rfl

theorem amoSadd (t : Ty) (cls : Fin 16) (d : Dst) (a b : Src) (off : BitVec 16) : Statement (.amoSadd t cls d a b
  off) := by
  intro w hw hwf
  have ht : t.isSadd = true := hwf
  obtain rfl : encLo 6 11 (d.code) (a.code) (b.code) (t.code) (0) 1 + 2 ^ 37 * 0 + 2 ^ 44 * cls.val + 2 ^ 48 *
    off.toNat = w := Option.some.inj hw
  refine ⟨fits_amo (M := 6) (m := 11) (d := d.code) (a := a.code) (b := b.code) (t := t.code) (r := 0) (by decide)
    (by decide) (dst_lt d) (src_lt a) (src_lt b) (ty_lt t) (by decide) (by decide) cls.isLt off.isLt, fun st hst =>
    ?_⟩
  have F := loFields (M := 6) (m := 11) (d := d.code) (a := a.code) (b := b.code) (t := t.code) (r := 0) (l := 1) (32
    * 0 + 4096 * cls.val + 65536 * off.toNat) (by decide) (by decide) (dst_lt d) (src_lt a) (src_lt b) (ty_lt t)
    (by decide) (by decide) hst
  rw [amo_hi] at F
  have H := amoFields (c := 0) (cls := cls.val) (off := off.toNat) (lo_lt (M := 6) (m := 11) (d := d.code) (a
    := a.code) (b := b.code) (t := t.code) (r := 0) (l := 1) (by decide) (by decide) (dst_lt d) (src_lt a) (src_lt b)
    (ty_lt t) (by decide) (by decide) hst) (by decide) cls.isLt off.isLt
  generalize encLo 6 11 (d.code) (a.code) (b.code) (t.code) (0) 1 + 2 ^ 37 * 0 + 2 ^ 44 * cls.val
    + 2 ^ 48 * off.toNat + st = W at F H ⊢
  simp only [decodeSyl, F.major, decAmos, decAmo, needL, zero, guardOr, dstD, srcA, srcB, F.l, F.major, F.minor, F.d,
    F.a, F.b, F.t, F.r, H.f32_10, H.f32_5, H.f37_5, H.f42_2, H.f44_4, H.f48_16, decTy_code ht, decSrc_code,
    decDst_code, decMod_code, fin_code, bv_code, bool_code]
  rfl

theorem fenceK (mask : BitVec 16) : Statement (.fenceK mask) := by
  intro w hw hwf
  obtain rfl : encB 5 4 (2 ^ 4 * mask.toNat) = w := Option.some.inj hw
  have hmask := mask.isLt
  refine ⟨fits_B (by decide) (by decide) (by omega), fun st hst => ?_⟩
  have F := bFields (M := 5) (m := 4) (rest := 2 ^ 4 * mask.toNat) (by decide) (by decide) hst
  have e12_4 : fld (encB 5 4 (2 ^ 4 * mask.toNat) + st) 12 4 = 0 := by rw [F.rest 0 4]; unfold fld; omega
  have e16_16 : fld (encB 5 4 (2 ^ 4 * mask.toNat) + st) 16 16 = mask.toNat := by rw [F.rest 4 16]; unfold fld; omega
  simp only [decodeSyl, F.major, decMem, needL, zero, guardOr, dstD, srcA, srcB, F.l, F.minor, e12_4, e16_16,
    decSrc_code, decDst_code, decMod_code, fin_code, bv_code, bool_code]
  rfl

theorem br (off : BitVec 20) : Statement (.br off) := by
  intro w hw hwf
  obtain rfl : encB 7 0 (off.toNat) = w := Option.some.inj hw
  have hoff := off.isLt
  refine ⟨fits_B (by decide) (by decide) (by omega), fun st hst => ?_⟩
  have F := bFields (M := 7) (m := 0) (rest := off.toNat) (by decide) (by decide) hst
  have e12_20 : fld (encB 7 0 (off.toNat) + st) 12 20 = off.toNat := by rw [F.rest 0 20]; unfold fld; omega
  simp only [decodeSyl, F.major, decBranch, needL, zero, guardOr, dstD, srcA, srcB, F.l, F.minor, e12_20,
    decSrc_code, decDst_code, decMod_code, fin_code, bv_code, bool_code]
  rfl

theorem brz (a : Src) (off : BitVec 15) : Statement (.brz a off) := by
  intro w hw hwf
  obtain rfl : encB 7 1 (a.code + 2 ^ 5 * off.toNat) = w := Option.some.inj hw
  have ha := src_lt a
  have hoff := off.isLt
  refine ⟨fits_B (by decide) (by decide) (by omega), fun st hst => ?_⟩
  have F := bFields (M := 7) (m := 1) (rest := a.code + 2 ^ 5 * off.toNat) (by decide) (by decide) hst
  have e12_5 : fld (encB 7 1 (a.code + 2 ^ 5 * off.toNat) + st) 12 5 = a.code := by rw [F.rest 0 5]; unfold fld; omega
  have e17_15 : fld (encB 7 1 (a.code + 2 ^ 5 * off.toNat) + st) 17 15 = off.toNat := by
    rw [F.rest 5 15]; unfold fld; omega
  simp only [decodeSyl, F.major, decBranch, needL, zero, guardOr, dstD, srcA, srcB, F.l, F.minor, e12_5, e17_15,
    decSrc_code, decDst_code, decMod_code, fin_code, bv_code, bool_code]
  rfl

theorem brnz (a : Src) (off : BitVec 15) : Statement (.brnz a off) := by
  intro w hw hwf
  obtain rfl : encB 7 2 (a.code + 2 ^ 5 * off.toNat) = w := Option.some.inj hw
  have ha := src_lt a
  have hoff := off.isLt
  refine ⟨fits_B (by decide) (by decide) (by omega), fun st hst => ?_⟩
  have F := bFields (M := 7) (m := 2) (rest := a.code + 2 ^ 5 * off.toNat) (by decide) (by decide) hst
  have e12_5 : fld (encB 7 2 (a.code + 2 ^ 5 * off.toNat) + st) 12 5 = a.code := by rw [F.rest 0 5]; unfold fld; omega
  have e17_15 : fld (encB 7 2 (a.code + 2 ^ 5 * off.toNat) + st) 17 15 = off.toNat := by
    rw [F.rest 5 15]; unfold fld; omega
  simp only [decodeSyl, F.major, decBranch, needL, zero, guardOr, dstD, srcA, srcB, F.l, F.minor, e12_5, e17_15,
    decSrc_code, decDst_code, decMod_code, fin_code, bv_code, bool_code]
  rfl

theorem bany (fs : FlagSet) (off : BitVec 18) : Statement (.bany fs off) := by
  intro w hw hwf
  obtain rfl : encB 7 3 (fs.code + 2 ^ 2 * off.toNat) = w := Option.some.inj hw
  have hf := fs_lt fs
  have hoff := off.isLt
  refine ⟨fits_B (by decide) (by decide) (by omega), fun st hst => ?_⟩
  have F := bFields (M := 7) (m := 3) (rest := fs.code + 2 ^ 2 * off.toNat) (by decide) (by decide) hst
  have e12_2 : fld (encB 7 3 (fs.code + 2 ^ 2 * off.toNat) + st) 12 2 = fs.code := by
    rw [F.rest 0 2]; unfold fld; omega
  have e14_18 : fld (encB 7 3 (fs.code + 2 ^ 2 * off.toNat) + st) 14 18 = off.toNat := by
    rw [F.rest 2 18]; unfold fld; omega
  simp only [decodeSyl, F.major, decBranch, needL, zero, guardOr, dstD, srcA, srcB, F.l, F.minor, e12_2, e14_18,
    decFs_code, decSrc_code, decDst_code, decMod_code, fin_code, bv_code, bool_code]
  rfl

theorem ball (fs : FlagSet) (off : BitVec 18) : Statement (.ball fs off) := by
  intro w hw hwf
  obtain rfl : encB 7 4 (fs.code + 2 ^ 2 * off.toNat) = w := Option.some.inj hw
  have hf := fs_lt fs
  have hoff := off.isLt
  refine ⟨fits_B (by decide) (by decide) (by omega), fun st hst => ?_⟩
  have F := bFields (M := 7) (m := 4) (rest := fs.code + 2 ^ 2 * off.toNat) (by decide) (by decide) hst
  have e12_2 : fld (encB 7 4 (fs.code + 2 ^ 2 * off.toNat) + st) 12 2 = fs.code := by
    rw [F.rest 0 2]; unfold fld; omega
  have e14_18 : fld (encB 7 4 (fs.code + 2 ^ 2 * off.toNat) + st) 14 18 = off.toNat := by
    rw [F.rest 2 18]; unfold fld; omega
  simp only [decodeSyl, F.major, decBranch, needL, zero, guardOr, dstD, srcA, srcB, F.l, F.minor, e12_2, e14_18,
    decFs_code, decSrc_code, decDst_code, decMod_code, fin_code, bv_code, bool_code]
  rfl

theorem bnone (fs : FlagSet) (off : BitVec 18) : Statement (.bnone fs off) := by
  intro w hw hwf
  obtain rfl : encB 7 5 (fs.code + 2 ^ 2 * off.toNat) = w := Option.some.inj hw
  have hf := fs_lt fs
  have hoff := off.isLt
  refine ⟨fits_B (by decide) (by decide) (by omega), fun st hst => ?_⟩
  have F := bFields (M := 7) (m := 5) (rest := fs.code + 2 ^ 2 * off.toNat) (by decide) (by decide) hst
  have e12_2 : fld (encB 7 5 (fs.code + 2 ^ 2 * off.toNat) + st) 12 2 = fs.code := by
    rw [F.rest 0 2]; unfold fld; omega
  have e14_18 : fld (encB 7 5 (fs.code + 2 ^ 2 * off.toNat) + st) 14 18 = off.toNat := by
    rw [F.rest 2 18]; unfold fld; omega
  simp only [decodeSyl, F.major, decBranch, needL, zero, guardOr, dstD, srcA, srcB, F.l, F.minor, e12_2, e14_18,
    decFs_code, decSrc_code, decDst_code, decMod_code, fin_code, bv_code, bool_code]
  rfl

theorem bcntGe (fs : FlagSet) (a : Src) (off : BitVec 12) : Statement (.bcntGe fs a off) := by
  intro w hw hwf
  obtain rfl : encB 7 6 (fs.code + 2 ^ 2 * a.code + 2 ^ 8 * off.toNat) = w := Option.some.inj hw
  have hf := fs_lt fs
  have ha := src_lt a
  have hoff := off.isLt
  refine ⟨fits_B (by decide) (by decide) (by omega), fun st hst => ?_⟩
  have F := bFields (M := 7) (m := 6) (rest := fs.code + 2 ^ 2 * a.code + 2 ^ 8 * off.toNat) (by decide) (by decide)
    hst
  have e12_2 : fld (encB 7 6 (fs.code + 2 ^ 2 * a.code + 2 ^ 8 * off.toNat) + st) 12 2 = fs.code := by
    rw [F.rest 0 2]; unfold fld; omega
  have e14_5 : fld (encB 7 6 (fs.code + 2 ^ 2 * a.code + 2 ^ 8 * off.toNat) + st) 14 5 = a.code := by
    rw [F.rest 2 5]; unfold fld; omega
  have e19_1 : fld (encB 7 6 (fs.code + 2 ^ 2 * a.code + 2 ^ 8 * off.toNat) + st) 19 1 = 0 := by
    rw [F.rest 7 1]; unfold fld; omega
  have e20_12 : fld (encB 7 6 (fs.code + 2 ^ 2 * a.code + 2 ^ 8 * off.toNat) + st) 20 12 = off.toNat := by
    rw [F.rest 8 12]; unfold fld; omega
  simp only [decodeSyl, F.major, decBranch, needL, zero, guardOr, dstD, srcA, srcB, F.l, F.minor, e12_2, e14_5,
    e19_1, e20_12, decFs_code, decSrc_code, decDst_code, decMod_code, fin_code, bv_code, bool_code]
  rfl

theorem bcntLt (fs : FlagSet) (a : Src) (off : BitVec 12) : Statement (.bcntLt fs a off) := by
  intro w hw hwf
  obtain rfl : encB 7 6 (fs.code + 2 ^ 2 * a.code + 2 ^ 7 + 2 ^ 8 * off.toNat) = w := Option.some.inj hw
  have hf := fs_lt fs
  have ha := src_lt a
  have hoff := off.isLt
  refine ⟨fits_B (by decide) (by decide) (by omega), fun st hst => ?_⟩
  have F := bFields (M := 7) (m := 6) (rest := fs.code + 2 ^ 2 * a.code + 2 ^ 7 + 2 ^ 8 * off.toNat) (by decide)
    (by decide) hst
  have e12_2 : fld (encB 7 6 (fs.code + 2 ^ 2 * a.code + 2 ^ 7 + 2 ^ 8 * off.toNat) + st) 12 2 = fs.code := by
    rw [F.rest 0 2]; unfold fld; omega
  have e14_5 : fld (encB 7 6 (fs.code + 2 ^ 2 * a.code + 2 ^ 7 + 2 ^ 8 * off.toNat) + st) 14 5 = a.code := by
    rw [F.rest 2 5]; unfold fld; omega
  have e19_1 : fld (encB 7 6 (fs.code + 2 ^ 2 * a.code + 2 ^ 7 + 2 ^ 8 * off.toNat) + st) 19 1 = 1 := by
    rw [F.rest 7 1]; unfold fld; omega
  have e20_12 : fld (encB 7 6 (fs.code + 2 ^ 2 * a.code + 2 ^ 7 + 2 ^ 8 * off.toNat) + st) 20 12 = off.toNat := by
    rw [F.rest 8 12]; unfold fld; omega
  simp only [decodeSyl, F.major, decBranch, needL, zero, guardOr, dstD, srcA, srcB, F.l, F.minor, e12_2, e14_5,
    e19_1, e20_12, decFs_code, decSrc_code, decDst_code, decMod_code, fin_code, bv_code, bool_code]
  rfl

theorem call (off : BitVec 20) : Statement (.call off) := by
  intro w hw hwf
  obtain rfl : encB 7 7 (off.toNat) = w := Option.some.inj hw
  have hoff := off.isLt
  refine ⟨fits_B (by decide) (by decide) (by omega), fun st hst => ?_⟩
  have F := bFields (M := 7) (m := 7) (rest := off.toNat) (by decide) (by decide) hst
  have e12_20 : fld (encB 7 7 (off.toNat) + st) 12 20 = off.toNat := by rw [F.rest 0 20]; unfold fld; omega
  simp only [decodeSyl, F.major, decBranch, needL, zero, guardOr, dstD, srcA, srcB, F.l, F.minor, e12_20,
    decSrc_code, decDst_code, decMod_code, fin_code, bv_code, bool_code]
  rfl

theorem ret : Statement (.ret) := by
  intro w hw hwf
  obtain rfl : encB 7 8 (0) = w := Option.some.inj hw
  refine ⟨fits_B (by decide) (by decide) (by omega), fun st hst => ?_⟩
  have F := bFields (M := 7) (m := 8) (rest := 0) (by decide) (by decide) hst
  have e12_20 : fld (encB 7 8 (0) + st) 12 20 = 0 := by rw [F.rest 0 20]; unfold fld; omega
  simp only [decodeSyl, F.major, decBranch, needL, zero, guardOr, dstD, srcA, srcB, F.l, F.minor, e12_20,
    decSrc_code, decDst_code, decMod_code, fin_code, bv_code, bool_code]
  rfl

theorem jmp (a : Src) : Statement (.jmp a) := by
  intro w hw hwf
  obtain rfl : encB 7 9 (2 ^ 5 * a.code) = w := Option.some.inj hw
  have ha := src_lt a
  refine ⟨fits_B (by decide) (by decide) (by omega), fun st hst => ?_⟩
  have F := bFields (M := 7) (m := 9) (rest := 2 ^ 5 * a.code) (by decide) (by decide) hst
  have e22_10 : fld (encB 7 9 (2 ^ 5 * a.code) + st) 22 10 = 0 := by rw [F.rest 10 10]; unfold fld; omega
  have e12_5 : fld (encB 7 9 (2 ^ 5 * a.code) + st) 12 5 = 0 := by rw [F.rest 0 5]; unfold fld; omega
  have e17_5 : fld (encB 7 9 (2 ^ 5 * a.code) + st) 17 5 = a.code := by rw [F.rest 5 5]; unfold fld; omega
  simp only [decodeSyl, F.major, decBranch, needL, zero, guardOr, dstD, srcA, srcB, F.l, F.minor, e22_10, e12_5,
    e17_5, decSrc_code, decDst_code, decMod_code, fin_code, bv_code, bool_code]
  rfl

theorem callr (a : Src) : Statement (.callr a) := by
  intro w hw hwf
  obtain rfl : encB 7 10 (2 ^ 5 * a.code) = w := Option.some.inj hw
  have ha := src_lt a
  refine ⟨fits_B (by decide) (by decide) (by omega), fun st hst => ?_⟩
  have F := bFields (M := 7) (m := 10) (rest := 2 ^ 5 * a.code) (by decide) (by decide) hst
  have e22_10 : fld (encB 7 10 (2 ^ 5 * a.code) + st) 22 10 = 0 := by rw [F.rest 10 10]; unfold fld; omega
  have e12_5 : fld (encB 7 10 (2 ^ 5 * a.code) + st) 12 5 = 0 := by rw [F.rest 0 5]; unfold fld; omega
  have e17_5 : fld (encB 7 10 (2 ^ 5 * a.code) + st) 17 5 = a.code := by rw [F.rest 5 5]; unfold fld; omega
  simp only [decodeSyl, F.major, decBranch, needL, zero, guardOr, dstD, srcA, srcB, F.l, F.minor, e22_10, e12_5,
    e17_5, decSrc_code, decDst_code, decMod_code, fin_code, bv_code, bool_code]
  rfl

theorem loop (lvl : Fin 4) (a : Src) (off : BitVec 10) : Statement (.loop lvl a off) := by
  intro w hw hwf
  have ht : (off != 0) = true := hwf
  obtain rfl : encB 7 11 (2 ^ 2 * lvl.val + 2 ^ 5 * a.code + 2 ^ 10 * off.toNat) = w := Option.some.inj hw
  have ha := src_lt a
  have hoff := off.isLt
  have hlvl := lvl.isLt
  refine ⟨fits_B (by decide) (by decide) (by omega), fun st hst => ?_⟩
  have F := bFields (M := 7) (m := 11) (rest := 2 ^ 2 * lvl.val + 2 ^ 5 * a.code + 2 ^ 10 * off.toNat) (by decide)
    (by decide) hst
  have e12_2 : fld (encB 7 11 (2 ^ 2 * lvl.val + 2 ^ 5 * a.code + 2 ^ 10 * off.toNat) + st) 12 2 = 0 := by
    rw [F.rest 0 2]; unfold fld; omega
  have e22_10 : fld (encB 7 11 (2 ^ 2 * lvl.val + 2 ^ 5 * a.code + 2 ^ 10 * off.toNat) + st) 22 10 = off.toNat := by
    rw [F.rest 10 10]; unfold fld; omega
  have e14_2 : fld (encB 7 11 (2 ^ 2 * lvl.val + 2 ^ 5 * a.code + 2 ^ 10 * off.toNat) + st) 14 2 = lvl.val := by
    rw [F.rest 2 2]; unfold fld; omega
  have e16_1 : fld (encB 7 11 (2 ^ 2 * lvl.val + 2 ^ 5 * a.code + 2 ^ 10 * off.toNat) + st) 16 1 = 0 := by
    rw [F.rest 4 1]; unfold fld; omega
  have e17_5 : fld (encB 7 11 (2 ^ 2 * lvl.val + 2 ^ 5 * a.code + 2 ^ 10 * off.toNat) + st) 17 5 = a.code := by
    rw [F.rest 5 5]; unfold fld; omega
  have hz := bv_ne_zero ht
  simp only [decodeSyl, F.major, decBranch, needL, zero, guardOr, dstD, srcA, srcB, F.l, F.minor, e12_2, e22_10,
    e14_2, e16_1, e17_5, bind, Except.bind, hz, decSrc_code, decDst_code, decMod_code, fin_code, bv_code, bool_code]
  rfl

theorem loopSw (lvl : Fin 4) (a : Src) (off : BitVec 10) : Statement (.loopSw lvl a off) := by
  intro w hw hwf
  have ht : (off != 0) = true := hwf
  obtain rfl : encB 7 11 (2 ^ 2 * lvl.val + 2 ^ 4 + 2 ^ 5 * a.code + 2 ^ 10 * off.toNat) = w := Option.some.inj hw
  have ha := src_lt a
  have hoff := off.isLt
  have hlvl := lvl.isLt
  refine ⟨fits_B (by decide) (by decide) (by omega), fun st hst => ?_⟩
  have F := bFields (M := 7) (m := 11) (rest := 2 ^ 2 * lvl.val + 2 ^ 4 + 2 ^ 5 * a.code + 2 ^ 10 * off.toNat)
    (by decide) (by decide) hst
  have e12_2 : fld (encB 7 11 (2 ^ 2 * lvl.val + 2 ^ 4 + 2 ^ 5 * a.code + 2 ^ 10 * off.toNat) + st) 12 2 = 0 := by
    rw [F.rest 0 2]; unfold fld; omega
  have e22_10 : fld (encB 7 11 (2 ^ 2 * lvl.val + 2 ^ 4 + 2 ^ 5 * a.code + 2 ^ 10 * off.toNat) + st) 22 10 =
    off.toNat := by
    rw [F.rest 10 10]; unfold fld; omega
  have e14_2 : fld (encB 7 11 (2 ^ 2 * lvl.val + 2 ^ 4 + 2 ^ 5 * a.code + 2 ^ 10 * off.toNat) + st) 14 2 = lvl.val
    := by
    rw [F.rest 2 2]; unfold fld; omega
  have e16_1 : fld (encB 7 11 (2 ^ 2 * lvl.val + 2 ^ 4 + 2 ^ 5 * a.code + 2 ^ 10 * off.toNat) + st) 16 1 = 1 := by
    rw [F.rest 4 1]; unfold fld; omega
  have e17_5 : fld (encB 7 11 (2 ^ 2 * lvl.val + 2 ^ 4 + 2 ^ 5 * a.code + 2 ^ 10 * off.toNat) + st) 17 5 = a.code
    := by
    rw [F.rest 5 5]; unfold fld; omega
  have hz := bv_ne_zero ht
  simp only [decodeSyl, F.major, decBranch, needL, zero, guardOr, dstD, srcA, srcB, F.l, F.minor, e12_2, e22_10,
    e14_2, e16_1, e17_5, bind, Except.bind, hz, decSrc_code, decDst_code, decMod_code, fin_code, bv_code, bool_code]
  rfl

theorem loopClr (mask : BitVec 4) : Statement (.loopClr mask) := by
  intro w hw hwf
  obtain rfl : encB 7 12 (mask.toNat) = w := Option.some.inj hw
  have hmask := mask.isLt
  refine ⟨fits_B (by decide) (by decide) (by omega), fun st hst => ?_⟩
  have F := bFields (M := 7) (m := 12) (rest := mask.toNat) (by decide) (by decide) hst
  have e16_16 : fld (encB 7 12 (mask.toNat) + st) 16 16 = 0 := by rw [F.rest 4 16]; unfold fld; omega
  have e12_4 : fld (encB 7 12 (mask.toNat) + st) 12 4 = mask.toNat := by rw [F.rest 0 4]; unfold fld; omega
  simp only [decodeSyl, F.major, decBranch, needL, zero, guardOr, dstD, srcA, srcB, F.l, F.minor, e16_16, e12_4,
    decSrc_code, decDst_code, decMod_code, fin_code, bv_code, bool_code]
  rfl

theorem bskip (off : BitVec 18) : Statement (.bskip off) := by
  intro w hw hwf
  obtain rfl : encB 7 13 (2 ^ 2 * off.toNat) = w := Option.some.inj hw
  have hoff := off.isLt
  refine ⟨fits_B (by decide) (by decide) (by omega), fun st hst => ?_⟩
  have F := bFields (M := 7) (m := 13) (rest := 2 ^ 2 * off.toNat) (by decide) (by decide) hst
  have e12_2 : fld (encB 7 13 (2 ^ 2 * off.toNat) + st) 12 2 = 0 := by rw [F.rest 0 2]; unfold fld; omega
  have e14_18 : fld (encB 7 13 (2 ^ 2 * off.toNat) + st) 14 18 = off.toNat := by rw [F.rest 2 18]; unfold fld; omega
  simp only [decodeSyl, F.major, decBranch, needL, zero, guardOr, dstD, srcA, srcB, F.l, F.minor, e12_2, e14_18,
    decSrc_code, decDst_code, decMod_code, fin_code, bv_code, bool_code]
  rfl

theorem btok (st_ : TokState) (t : TokId) (off : BitVec 12) : Statement (.btok st_ t off) := by
  intro w hw hwf
  obtain rfl : encB 7 14 (t.val + 2 ^ 6 * st_.btokCode + 2 ^ 8 * off.toNat) = w := Option.some.inj hw
  have hb := btok_lt st_
  have ht := t.isLt
  have hoff := off.isLt
  refine ⟨fits_B (by decide) (by decide) (by omega), fun st hst => ?_⟩
  have F := bFields (M := 7) (m := 14) (rest := t.val + 2 ^ 6 * st_.btokCode + 2 ^ 8 * off.toNat) (by decide)
    (by decide) hst
  have e18_2 : fld (encB 7 14 (t.val + 2 ^ 6 * st_.btokCode + 2 ^ 8 * off.toNat) + st) 18 2 = st_.btokCode := by
    rw [F.rest 6 2]; unfold fld; omega
  have e12_6 : fld (encB 7 14 (t.val + 2 ^ 6 * st_.btokCode + 2 ^ 8 * off.toNat) + st) 12 6 = t.val := by
    rw [F.rest 0 6]; unfold fld; omega
  have e20_12 : fld (encB 7 14 (t.val + 2 ^ 6 * st_.btokCode + 2 ^ 8 * off.toNat) + st) 20 12 = off.toNat := by
    rw [F.rest 8 12]; unfold fld; omega
  simp only [decodeSyl, F.major, decBranch, needL, zero, guardOr, dstD, srcA, srcB, F.l, F.minor, e18_2, e12_6,
    e20_12, decBtok_code, decSrc_code, decDst_code, decMod_code, fin_code, bv_code, bool_code]
  rfl

theorem nop : Statement (.nop) := by
  intro w hw hwf
  obtain rfl : encB 8 0 (0) = w := Option.some.inj hw
  refine ⟨fits_B (by decide) (by decide) (by omega), fun st hst => ?_⟩
  have F := bFields (M := 8) (m := 0) (rest := 0) (by decide) (by decide) hst
  have e12_20 : fld (encB 8 0 (0) + st) 12 20 = 0 := by rw [F.rest 0 20]; unfold fld; omega
  simp only [decodeSyl, F.major, decSystem, needL, zero, guardOr, dstD, srcA, srcB, F.l, F.minor, e12_20,
    decSrc_code, decDst_code, decMod_code, fin_code, bv_code, bool_code]
  rfl

theorem halt : Statement (.halt) := by
  intro w hw hwf
  obtain rfl : encB 8 1 (0) = w := Option.some.inj hw
  refine ⟨fits_B (by decide) (by decide) (by omega), fun st hst => ?_⟩
  have F := bFields (M := 8) (m := 1) (rest := 0) (by decide) (by decide) hst
  have e12_20 : fld (encB 8 1 (0) + st) 12 20 = 0 := by rw [F.rest 0 20]; unfold fld; omega
  simp only [decodeSyl, F.major, decSystem, needL, zero, guardOr, dstD, srcA, srcB, F.l, F.minor, e12_20,
    decSrc_code, decDst_code, decMod_code, fin_code, bv_code, bool_code]
  rfl

theorem tfence : Statement (.tfence) := by
  intro w hw hwf
  obtain rfl : encB 8 3 (0) = w := Option.some.inj hw
  refine ⟨fits_B (by decide) (by decide) (by omega), fun st hst => ?_⟩
  have F := bFields (M := 8) (m := 3) (rest := 0) (by decide) (by decide) hst
  have e12_20 : fld (encB 8 3 (0) + st) 12 20 = 0 := by rw [F.rest 0 20]; unfold fld; omega
  simp only [decodeSyl, F.major, decSystem, needL, zero, guardOr, dstD, srcA, srcB, F.l, F.minor, e12_20,
    decSrc_code, decDst_code, decMod_code, fin_code, bv_code, bool_code]
  rfl

theorem eret : Statement (.eret) := by
  intro w hw hwf
  obtain rfl : encB 8 7 (0) = w := Option.some.inj hw
  refine ⟨fits_B (by decide) (by decide) (by omega), fun st hst => ?_⟩
  have F := bFields (M := 8) (m := 7) (rest := 0) (by decide) (by decide) hst
  have e12_20 : fld (encB 8 7 (0) + st) 12 20 = 0 := by rw [F.rest 0 20]; unfold fld; omega
  simp only [decodeSyl, F.major, decSystem, needL, zero, guardOr, dstD, srcA, srcB, F.l, F.minor, e12_20,
    decSrc_code, decDst_code, decMod_code, fin_code, bv_code, bool_code]
  rfl

theorem trap (code : BitVec 16) : Statement (.trap code) := by
  intro w hw hwf
  obtain rfl : encB 8 2 (2 ^ 4 * code.toNat) = w := Option.some.inj hw
  have hcode := code.isLt
  refine ⟨fits_B (by decide) (by decide) (by omega), fun st hst => ?_⟩
  have F := bFields (M := 8) (m := 2) (rest := 2 ^ 4 * code.toNat) (by decide) (by decide) hst
  have e12_4 : fld (encB 8 2 (2 ^ 4 * code.toNat) + st) 12 4 = 0 := by rw [F.rest 0 4]; unfold fld; omega
  have e16_16 : fld (encB 8 2 (2 ^ 4 * code.toNat) + st) 16 16 = code.toNat := by rw [F.rest 4 16]; unfold fld; omega
  simp only [decodeSyl, F.major, decSystem, needL, zero, guardOr, dstD, srcA, srcB, F.l, F.minor, e12_4, e16_16,
    decSrc_code, decDst_code, decMod_code, fin_code, bv_code, bool_code]
  rfl

theorem idem : Statement (.idem) := by
  intro w hw hwf
  obtain rfl : encB 8 4 (0) = w := Option.some.inj hw
  refine ⟨fits_B (by decide) (by decide) (by omega), fun st hst => ?_⟩
  have F := bFields (M := 8) (m := 4) (rest := 0) (by decide) (by decide) hst
  have e12_1 : fld (encB 8 4 (0) + st) 12 1 = 0 := by rw [F.rest 0 1]; unfold fld; omega
  have e13_1 : fld (encB 8 4 (0) + st) 13 1 = 0 := by rw [F.rest 1 1]; unfold fld; omega
  have e14_18 : fld (encB 8 4 (0) + st) 14 18 = 0 := by rw [F.rest 2 18]; unfold fld; omega
  simp only [decodeSyl, F.major, decSystem, needL, zero, guardOr, dstD, srcA, srcB, F.l, F.minor, e12_1, e13_1,
    e14_18, decSrc_code, decDst_code, decMod_code, fin_code, bv_code, bool_code]
  rfl

theorem idemChk (off : BitVec 18) : Statement (.idemChk off) := by
  intro w hw hwf
  obtain rfl : encB 8 4 (2 + 2 ^ 2 * off.toNat) = w := Option.some.inj hw
  have hoff := off.isLt
  refine ⟨fits_B (by decide) (by decide) (by omega), fun st hst => ?_⟩
  have F := bFields (M := 8) (m := 4) (rest := 2 + 2 ^ 2 * off.toNat) (by decide) (by decide) hst
  have e12_1 : fld (encB 8 4 (2 + 2 ^ 2 * off.toNat) + st) 12 1 = 0 := by rw [F.rest 0 1]; unfold fld; omega
  have e13_1 : fld (encB 8 4 (2 + 2 ^ 2 * off.toNat) + st) 13 1 = 1 := by rw [F.rest 1 1]; unfold fld; omega
  have e14_18 : fld (encB 8 4 (2 + 2 ^ 2 * off.toNat) + st) 14 18 = off.toNat := by
    rw [F.rest 2 18]; unfold fld; omega
  simp only [decodeSyl, F.major, decSystem, needL, zero, guardOr, dstD, srcA, srcB, F.l, F.minor, e12_1, e13_1,
    e14_18, decSrc_code, decDst_code, decMod_code, fin_code, bv_code, bool_code]
  rfl

theorem phase (n : Fin 64) : Statement (.phase n) := by
  intro w hw hwf
  obtain rfl : encB 8 5 (n.val) = w := Option.some.inj hw
  have hn := n.isLt
  refine ⟨fits_B (by decide) (by decide) (by omega), fun st hst => ?_⟩
  have F := bFields (M := 8) (m := 5) (rest := n.val) (by decide) (by decide) hst
  have e18_14 : fld (encB 8 5 (n.val) + st) 18 14 = 0 := by rw [F.rest 6 14]; unfold fld; omega
  have e12_6 : fld (encB 8 5 (n.val) + st) 12 6 = n.val := by rw [F.rest 0 6]; unfold fld; omega
  simp only [decodeSyl, F.major, decSystem, needL, zero, guardOr, dstD, srcA, srcB, F.l, F.minor, e18_14, e12_6,
    decSrc_code, decDst_code, decMod_code, fin_code, bv_code, bool_code]
  rfl

theorem ctxsw (a : Src) : Statement (.ctxsw a) := by
  intro w hw hwf
  obtain rfl : encB 8 6 (2 ^ 5 * a.code) = w := Option.some.inj hw
  have ha := src_lt a
  refine ⟨fits_B (by decide) (by decide) (by omega), fun st hst => ?_⟩
  have F := bFields (M := 8) (m := 6) (rest := 2 ^ 5 * a.code) (by decide) (by decide) hst
  have e22_10 : fld (encB 8 6 (2 ^ 5 * a.code) + st) 22 10 = 0 := by rw [F.rest 10 10]; unfold fld; omega
  have e12_5 : fld (encB 8 6 (2 ^ 5 * a.code) + st) 12 5 = 0 := by rw [F.rest 0 5]; unfold fld; omega
  have e17_5 : fld (encB 8 6 (2 ^ 5 * a.code) + st) 17 5 = a.code := by rw [F.rest 5 5]; unfold fld; omega
  simp only [decodeSyl, F.major, decSystem, needL, zero, guardOr, dstD, srcA, srcB, F.l, F.minor, e22_10, e12_5,
    e17_5, decSrc_code, decDst_code, decMod_code, fin_code, bv_code, bool_code]
  rfl

theorem icinv (a : Src) : Statement (.icinv a) := by
  intro w hw hwf
  obtain rfl : encB 8 8 (2 ^ 5 * a.code) = w := Option.some.inj hw
  have ha := src_lt a
  refine ⟨fits_B (by decide) (by decide) (by omega), fun st hst => ?_⟩
  have F := bFields (M := 8) (m := 8) (rest := 2 ^ 5 * a.code) (by decide) (by decide) hst
  have e22_10 : fld (encB 8 8 (2 ^ 5 * a.code) + st) 22 10 = 0 := by rw [F.rest 10 10]; unfold fld; omega
  have e12_5 : fld (encB 8 8 (2 ^ 5 * a.code) + st) 12 5 = 0 := by rw [F.rest 0 5]; unfold fld; omega
  have e17_5 : fld (encB 8 8 (2 ^ 5 * a.code) + st) 17 5 = a.code := by rw [F.rest 5 5]; unfold fld; omega
  simp only [decodeSyl, F.major, decSystem, needL, zero, guardOr, dstD, srcA, srcB, F.l, F.minor, e22_10, e12_5,
    e17_5, decSrc_code, decDst_code, decMod_code, fin_code, bv_code, bool_code]
  rfl

theorem waitTok (ts : TokList) : Statement (.waitTok ts) := by
  intro w hw hwf
  cases ts with
  | one a =>
    obtain rfl : encB 9 0 (a.val + 2 ^ 18) = w := Option.some.inj hw
    refine ⟨fits_B (by decide) (by decide) (by omega), fun st hst => ?_⟩
    have F := bFields (M := 9) (m := 0) (rest := a.val + 2 ^ 18) (by decide) (by decide) hst
    have ha := a.isLt
    have e1 : fld (encB 9 0 (a.val + 2 ^ 18) + st) 12 6 = a.val := by rw [F.rest 0 6]; unfold fld; omega
    have e2 : fld (encB 9 0 (a.val + 2 ^ 18) + st) 30 2 = 1 := by rw [F.rest 18 2]; unfold fld; omega
    have e3 : fld (encB 9 0 (a.val + 2 ^ 18) + st) 18 12 = 0 := by rw [F.rest 6 12]; unfold fld; omega
    simp only [decodeSyl, F.major, decWait, needL, zero, guardOr, F.l, F.minor, e1, e2, e3, fin_code]
    rfl
  | two a b =>
    obtain rfl : encB 9 0 (a.val + 2 ^ 6 * b.val + 2 * 2 ^ 18) = w := Option.some.inj hw
    refine ⟨fits_B (by decide) (by decide) (by omega), fun st hst => ?_⟩
    have F := bFields (M := 9) (m := 0) (rest := a.val + 2 ^ 6 * b.val + 2 * 2 ^ 18) (by decide) (by decide) hst
    have ha := a.isLt
    have hb := b.isLt
    have e1 : fld (encB 9 0 (a.val + 2 ^ 6 * b.val + 2 * 2 ^ 18) + st) 12 6 = a.val := by
      rw [F.rest 0 6]; unfold fld; omega
    have e2 : fld (encB 9 0 (a.val + 2 ^ 6 * b.val + 2 * 2 ^ 18) + st) 18 6 = b.val := by
      rw [F.rest 6 6]; unfold fld; omega
    have e3 : fld (encB 9 0 (a.val + 2 ^ 6 * b.val + 2 * 2 ^ 18) + st) 30 2 = 2 := by
      rw [F.rest 18 2]; unfold fld; omega
    have e4 : fld (encB 9 0 (a.val + 2 ^ 6 * b.val + 2 * 2 ^ 18) + st) 24 6 = 0 := by
      rw [F.rest 12 6]; unfold fld; omega
    simp only [decodeSyl, F.major, decWait, needL, zero, guardOr, F.l, F.minor, e1, e2, e3, e4, fin_code]
    rfl
  | three a b c =>
    obtain rfl : encB 9 0 (a.val + 2 ^ 6 * b.val + 2 ^ 12 * c.val + 3 * 2 ^ 18) = w := Option.some.inj hw
    refine ⟨fits_B (by decide) (by decide) (by omega), fun st hst => ?_⟩
    have F := bFields (M := 9) (m := 0) (rest := a.val + 2 ^ 6 * b.val + 2 ^ 12 * c.val + 3 * 2 ^ 18) (by decide)
      (by decide) hst
    have ha := a.isLt
    have hb := b.isLt
    have hc := c.isLt
    have e1 : fld (encB 9 0 (a.val + 2 ^ 6 * b.val + 2 ^ 12 * c.val + 3 * 2 ^ 18) + st) 12 6 = a.val := by
      rw [F.rest 0 6]; unfold fld; omega
    have e2 : fld (encB 9 0 (a.val + 2 ^ 6 * b.val + 2 ^ 12 * c.val + 3 * 2 ^ 18) + st) 18 6 = b.val := by
      rw [F.rest 6 6]; unfold fld; omega
    have e3 : fld (encB 9 0 (a.val + 2 ^ 6 * b.val + 2 ^ 12 * c.val + 3 * 2 ^ 18) + st) 24 6 = c.val := by
      rw [F.rest 12 6]; unfold fld; omega
    have e4 : fld (encB 9 0 (a.val + 2 ^ 6 * b.val + 2 ^ 12 * c.val + 3 * 2 ^ 18) + st) 30 2 = 3 := by
      rw [F.rest 18 2]; unfold fld; omega
    simp only [decodeSyl, F.major, decWait, needL, zero, guardOr, F.l, F.minor, e1, e2, e3, e4, fin_code]
    rfl

theorem waitAny (a : Src) : Statement (.waitAny a) := by
  intro w hw hwf
  obtain rfl : encB 9 1 (2 ^ 5 * a.code) = w := Option.some.inj hw
  have ha := src_lt a
  refine ⟨fits_B (by decide) (by decide) (by omega), fun st hst => ?_⟩
  have F := bFields (M := 9) (m := 1) (rest := 2 ^ 5 * a.code) (by decide) (by decide) hst
  have e22_10 : fld (encB 9 1 (2 ^ 5 * a.code) + st) 22 10 = 0 := by rw [F.rest 10 10]; unfold fld; omega
  have e12_5 : fld (encB 9 1 (2 ^ 5 * a.code) + st) 12 5 = 0 := by rw [F.rest 0 5]; unfold fld; omega
  have e17_5 : fld (encB 9 1 (2 ^ 5 * a.code) + st) 17 5 = a.code := by rw [F.rest 5 5]; unfold fld; omega
  simp only [decodeSyl, F.major, decWait, needL, zero, guardOr, dstD, srcA, srcB, F.l, F.minor, e22_10, e12_5, e17_5,
    decSrc_code, decDst_code, decMod_code, fin_code, bv_code, bool_code]
  rfl

theorem waitFold (f : FoldId) (ph : Bool) : Statement (.waitFold f ph) := by
  intro w hw hwf
  obtain rfl : encB 9 2 (2 ^ 12 * ph.toNat + 2 ^ 13 * f.val) = w := Option.some.inj hw
  have hp := bool_lt ph
  have hf := f.isLt
  refine ⟨fits_B (by decide) (by decide) (by omega), fun st hst => ?_⟩
  have F := bFields (M := 9) (m := 2) (rest := 2 ^ 12 * ph.toNat + 2 ^ 13 * f.val) (by decide) (by decide) hst
  have e12_12 : fld (encB 9 2 (2 ^ 12 * ph.toNat + 2 ^ 13 * f.val) + st) 12 12 = 0 := by
    rw [F.rest 0 12]; unfold fld; omega
  have e25_7 : fld (encB 9 2 (2 ^ 12 * ph.toNat + 2 ^ 13 * f.val) + st) 25 7 = f.val := by
    rw [F.rest 13 7]; unfold fld; omega
  have e24_1 : fld (encB 9 2 (2 ^ 12 * ph.toNat + 2 ^ 13 * f.val) + st) 24 1 = ph.toNat := by
    rw [F.rest 12 1]; unfold fld; omega
  simp only [decodeSyl, F.major, decWait, needL, zero, guardOr, dstD, srcA, srcB, F.l, F.minor, e12_12, e25_7, e24_1,
    decSrc_code, decDst_code, decMod_code, fin_code, bv_code, bool_code]
  rfl

theorem arrive (f : FoldId) (a : Src) : Statement (.arrive f a) := by
  intro w hw hwf
  obtain rfl : encB 9 3 (2 ^ 5 * a.code + 2 ^ 13 * f.val) = w := Option.some.inj hw
  have ha := src_lt a
  have hf := f.isLt
  refine ⟨fits_B (by decide) (by decide) (by omega), fun st hst => ?_⟩
  have F := bFields (M := 9) (m := 3) (rest := 2 ^ 5 * a.code + 2 ^ 13 * f.val) (by decide) (by decide) hst
  have e22_3 : fld (encB 9 3 (2 ^ 5 * a.code + 2 ^ 13 * f.val) + st) 22 3 = 0 := by
    rw [F.rest 10 3]; unfold fld; omega
  have e12_5 : fld (encB 9 3 (2 ^ 5 * a.code + 2 ^ 13 * f.val) + st) 12 5 = 0 := by rw [F.rest 0 5]; unfold fld; omega
  have e25_7 : fld (encB 9 3 (2 ^ 5 * a.code + 2 ^ 13 * f.val) + st) 25 7 = f.val := by
    rw [F.rest 13 7]; unfold fld; omega
  have e17_5 : fld (encB 9 3 (2 ^ 5 * a.code + 2 ^ 13 * f.val) + st) 17 5 = a.code := by
    rw [F.rest 5 5]; unfold fld; omega
  simp only [decodeSyl, F.major, decWait, needL, zero, guardOr, dstD, srcA, srcB, F.l, F.minor, e22_3, e12_5, e25_7,
    e17_5, decSrc_code, decDst_code, decMod_code, fin_code, bv_code, bool_code]
  rfl

theorem foldSetBytes (f : FoldId) (a : Src) : Statement (.foldSetBytes f a) := by
  intro w hw hwf
  obtain rfl : encB 9 4 (2 ^ 5 * a.code + 2 ^ 13 * f.val) = w := Option.some.inj hw
  have ha := src_lt a
  have hf := f.isLt
  refine ⟨fits_B (by decide) (by decide) (by omega), fun st hst => ?_⟩
  have F := bFields (M := 9) (m := 4) (rest := 2 ^ 5 * a.code + 2 ^ 13 * f.val) (by decide) (by decide) hst
  have e22_2 : fld (encB 9 4 (2 ^ 5 * a.code + 2 ^ 13 * f.val) + st) 22 2 = 0 := by
    rw [F.rest 10 2]; unfold fld; omega
  have e12_5 : fld (encB 9 4 (2 ^ 5 * a.code + 2 ^ 13 * f.val) + st) 12 5 = 0 := by rw [F.rest 0 5]; unfold fld; omega
  have e25_7 : fld (encB 9 4 (2 ^ 5 * a.code + 2 ^ 13 * f.val) + st) 25 7 = f.val := by
    rw [F.rest 13 7]; unfold fld; omega
  have e17_5 : fld (encB 9 4 (2 ^ 5 * a.code + 2 ^ 13 * f.val) + st) 17 5 = a.code := by
    rw [F.rest 5 5]; unfold fld; omega
  have e24_1 : fld (encB 9 4 (2 ^ 5 * a.code + 2 ^ 13 * f.val) + st) 24 1 = 0 := by
    rw [F.rest 12 1]; unfold fld; omega
  simp only [decodeSyl, F.major, decWait, needL, zero, guardOr, dstD, srcA, srcB, F.l, F.minor, e22_2, e12_5, e25_7,
    e17_5, e24_1, decSrc_code, decDst_code, decMod_code, fin_code, bv_code, bool_code]
  rfl

theorem foldSetArr (f : FoldId) (a : Src) : Statement (.foldSetArr f a) := by
  intro w hw hwf
  obtain rfl : encB 9 4 (2 ^ 5 * a.code + 2 ^ 12 + 2 ^ 13 * f.val) = w := Option.some.inj hw
  have ha := src_lt a
  have hf := f.isLt
  refine ⟨fits_B (by decide) (by decide) (by omega), fun st hst => ?_⟩
  have F := bFields (M := 9) (m := 4) (rest := 2 ^ 5 * a.code + 2 ^ 12 + 2 ^ 13 * f.val) (by decide) (by decide) hst
  have e22_2 : fld (encB 9 4 (2 ^ 5 * a.code + 2 ^ 12 + 2 ^ 13 * f.val) + st) 22 2 = 0 := by
    rw [F.rest 10 2]; unfold fld; omega
  have e12_5 : fld (encB 9 4 (2 ^ 5 * a.code + 2 ^ 12 + 2 ^ 13 * f.val) + st) 12 5 = 0 := by
    rw [F.rest 0 5]; unfold fld; omega
  have e25_7 : fld (encB 9 4 (2 ^ 5 * a.code + 2 ^ 12 + 2 ^ 13 * f.val) + st) 25 7 = f.val := by
    rw [F.rest 13 7]; unfold fld; omega
  have e17_5 : fld (encB 9 4 (2 ^ 5 * a.code + 2 ^ 12 + 2 ^ 13 * f.val) + st) 17 5 = a.code := by
    rw [F.rest 5 5]; unfold fld; omega
  have e24_1 : fld (encB 9 4 (2 ^ 5 * a.code + 2 ^ 12 + 2 ^ 13 * f.val) + st) 24 1 = 1 := by
    rw [F.rest 12 1]; unfold fld; omega
  simp only [decodeSyl, F.major, decWait, needL, zero, guardOr, dstD, srcA, srcB, F.l, F.minor, e22_2, e12_5, e25_7,
    e17_5, e24_1, decSrc_code, decDst_code, decMod_code, fin_code, bv_code, bool_code]
  rfl

theorem tokClr (a : Src) : Statement (.tokClr a) := by
  intro w hw hwf
  obtain rfl : encB 9 5 (2 ^ 5 * a.code) = w := Option.some.inj hw
  have ha := src_lt a
  refine ⟨fits_B (by decide) (by decide) (by omega), fun st hst => ?_⟩
  have F := bFields (M := 9) (m := 5) (rest := 2 ^ 5 * a.code) (by decide) (by decide) hst
  have e22_10 : fld (encB 9 5 (2 ^ 5 * a.code) + st) 22 10 = 0 := by rw [F.rest 10 10]; unfold fld; omega
  have e12_5 : fld (encB 9 5 (2 ^ 5 * a.code) + st) 12 5 = 0 := by rw [F.rest 0 5]; unfold fld; omega
  have e17_5 : fld (encB 9 5 (2 ^ 5 * a.code) + st) 17 5 = a.code := by rw [F.rest 5 5]; unfold fld; omega
  simp only [decodeSyl, F.major, decWait, needL, zero, guardOr, dstD, srcA, srcB, F.l, F.minor, e22_10, e12_5, e17_5,
    decSrc_code, decDst_code, decMod_code, fin_code, bv_code, bool_code]
  rfl

theorem yield : Statement (.yield) := by
  intro w hw hwf
  obtain rfl : encB 9 6 (0) = w := Option.some.inj hw
  refine ⟨fits_B (by decide) (by decide) (by omega), fun st hst => ?_⟩
  have F := bFields (M := 9) (m := 6) (rest := 0) (by decide) (by decide) hst
  have e12_20 : fld (encB 9 6 (0) + st) 12 20 = 0 := by rw [F.rest 0 20]; unfold fld; omega
  simp only [decodeSyl, F.major, decWait, needL, zero, guardOr, dstD, srcA, srcB, F.l, F.minor, e12_20, decSrc_code,
    decDst_code, decMod_code, fin_code, bv_code, bool_code]
  rfl

theorem vaddF (t : Ty) (d : Dst) (a b : Src) (w : Option (Mod × Mod)) : Statement (.vaddF t d a b w) := by
  intro u hw hwf
  have ht : t.isFloat = true := hwf
  rcases w with _ | ⟨ma, mb⟩
  · obtain rfl : encLo 10 0 (d.code) (a.code) (b.code) (t.code) (0) 0 = u := Option.some.inj hw
    refine ⟨fits_lo0 (M := 10) (m := 0) (d := d.code) (a := a.code) (b := b.code) (t := t.code) (r := 0) (by decide)
      (by decide) (dst_lt d) (src_lt a) (src_lt b) (ty_lt t) (by decide), fun st hst => ?_⟩
    have F := loFields0 (M := 10) (m := 0) (d := d.code) (a := a.code) (b := b.code) (t := t.code) (r := 0) (l := 0)
      (by decide) (by decide) (dst_lt d) (src_lt a) (src_lt b) (ty_lt t) (by decide) (by decide) hst
    generalize encLo 10 0 (d.code) (a.code) (b.code) (t.code) (0) 0 + st = W at F ⊢
    simp only [decodeSyl, F.major, decVFloat, decVab, hi2, isVW, needL, zero, guardOr, dstD, srcA, srcB, F.l,
      F.major, F.minor, F.d, F.a, F.b, F.t, F.r, decTy_code ht, decSrc_code, decDst_code, decMod_code, fin_code,
      bv_code, bool_code]
    rfl
  · obtain rfl : encLo 10 0 (d.code) (a.code) (b.code) (t.code) (0) 1 + encHi (ma.code) (mb.code) (0) (0) (0) (0) = u
      := Option.some.inj hw
    refine ⟨fits_vw (M := 10) (m := 0) (d := d.code) (a := a.code) (b := b.code) (t := t.code) (r := 0) (by decide)
      (by decide) (dst_lt d) (src_lt a) (src_lt b) (ty_lt t) (by decide) (mod_lt ma) (mod_lt mb) (by decide)
      (by decide) (by decide) (by decide), fun st hst => ?_⟩
    have F := loFields (M := 10) (m := 0) (d := d.code) (a := a.code) (b := b.code) (t := t.code) (r := 0) (l := 1)
      (hiNat (ma.code) (mb.code) (0) (0) (0) (0)) (by decide) (by decide) (dst_lt d) (src_lt a) (src_lt b) (ty_lt t)
      (by decide) (by decide) hst
    have H := hiFields (ma := ma.code) (mb := mb.code) (mc := 0) (c := 0) (t2 := 0) (ext := 0) (lo_lt (M := 10) (m
      := 0) (d := d.code) (a := a.code) (b := b.code) (t := t.code) (r := 0) (l := 1) (by decide) (by decide) (dst_lt
      d) (src_lt a) (src_lt b) (ty_lt t) (by decide) (by decide) hst) (mod_lt ma) (mod_lt mb) (by decide) (by decide)
      (by decide) (by decide)
    rw [← encHi_eq] at F
    generalize encLo 10 0 (d.code) (a.code) (b.code) (t.code) (0) 1 + encHi (ma.code) (mb.code) (0) (0) (0) (0)
      + st = W at F H ⊢
    simp only [decodeSyl, F.major, decVFloat, decVab, hi2, isVW, needL, zero, guardOr, dstD, srcA, srcB, F.l,
      F.major, F.minor, F.d, F.a, F.b, F.t, F.r, H.f32_3, H.f35_3, H.f38_26, decTy_code ht, decSrc_code, decDst_code,
      decMod_code, fin_code, bv_code, bool_code]
    rfl

theorem vsubF (t : Ty) (d : Dst) (a b : Src) (w : Option (Mod × Mod)) : Statement (.vsubF t d a b w) := by
  intro u hw hwf
  have ht : t.isFloat = true := hwf
  rcases w with _ | ⟨ma, mb⟩
  · obtain rfl : encLo 10 1 (d.code) (a.code) (b.code) (t.code) (0) 0 = u := Option.some.inj hw
    refine ⟨fits_lo0 (M := 10) (m := 1) (d := d.code) (a := a.code) (b := b.code) (t := t.code) (r := 0) (by decide)
      (by decide) (dst_lt d) (src_lt a) (src_lt b) (ty_lt t) (by decide), fun st hst => ?_⟩
    have F := loFields0 (M := 10) (m := 1) (d := d.code) (a := a.code) (b := b.code) (t := t.code) (r := 0) (l := 0)
      (by decide) (by decide) (dst_lt d) (src_lt a) (src_lt b) (ty_lt t) (by decide) (by decide) hst
    generalize encLo 10 1 (d.code) (a.code) (b.code) (t.code) (0) 0 + st = W at F ⊢
    simp only [decodeSyl, F.major, decVFloat, decVab, hi2, isVW, needL, zero, guardOr, dstD, srcA, srcB, F.l,
      F.major, F.minor, F.d, F.a, F.b, F.t, F.r, decTy_code ht, decSrc_code, decDst_code, decMod_code, fin_code,
      bv_code, bool_code]
    rfl
  · obtain rfl : encLo 10 1 (d.code) (a.code) (b.code) (t.code) (0) 1 + encHi (ma.code) (mb.code) (0) (0) (0) (0) = u
      := Option.some.inj hw
    refine ⟨fits_vw (M := 10) (m := 1) (d := d.code) (a := a.code) (b := b.code) (t := t.code) (r := 0) (by decide)
      (by decide) (dst_lt d) (src_lt a) (src_lt b) (ty_lt t) (by decide) (mod_lt ma) (mod_lt mb) (by decide)
      (by decide) (by decide) (by decide), fun st hst => ?_⟩
    have F := loFields (M := 10) (m := 1) (d := d.code) (a := a.code) (b := b.code) (t := t.code) (r := 0) (l := 1)
      (hiNat (ma.code) (mb.code) (0) (0) (0) (0)) (by decide) (by decide) (dst_lt d) (src_lt a) (src_lt b) (ty_lt t)
      (by decide) (by decide) hst
    have H := hiFields (ma := ma.code) (mb := mb.code) (mc := 0) (c := 0) (t2 := 0) (ext := 0) (lo_lt (M := 10) (m
      := 1) (d := d.code) (a := a.code) (b := b.code) (t := t.code) (r := 0) (l := 1) (by decide) (by decide) (dst_lt
      d) (src_lt a) (src_lt b) (ty_lt t) (by decide) (by decide) hst) (mod_lt ma) (mod_lt mb) (by decide) (by decide)
      (by decide) (by decide)
    rw [← encHi_eq] at F
    generalize encLo 10 1 (d.code) (a.code) (b.code) (t.code) (0) 1 + encHi (ma.code) (mb.code) (0) (0) (0) (0)
      + st = W at F H ⊢
    simp only [decodeSyl, F.major, decVFloat, decVab, hi2, isVW, needL, zero, guardOr, dstD, srcA, srcB, F.l,
      F.major, F.minor, F.d, F.a, F.b, F.t, F.r, H.f32_3, H.f35_3, H.f38_26, decTy_code ht, decSrc_code, decDst_code,
      decMod_code, fin_code, bv_code, bool_code]
    rfl

theorem vmulF (t : Ty) (d : Dst) (a b : Src) (w : Option (Mod × Mod)) : Statement (.vmulF t d a b w) := by
  intro u hw hwf
  have ht : t.isFloat = true := hwf
  rcases w with _ | ⟨ma, mb⟩
  · obtain rfl : encLo 10 2 (d.code) (a.code) (b.code) (t.code) (0) 0 = u := Option.some.inj hw
    refine ⟨fits_lo0 (M := 10) (m := 2) (d := d.code) (a := a.code) (b := b.code) (t := t.code) (r := 0) (by decide)
      (by decide) (dst_lt d) (src_lt a) (src_lt b) (ty_lt t) (by decide), fun st hst => ?_⟩
    have F := loFields0 (M := 10) (m := 2) (d := d.code) (a := a.code) (b := b.code) (t := t.code) (r := 0) (l := 0)
      (by decide) (by decide) (dst_lt d) (src_lt a) (src_lt b) (ty_lt t) (by decide) (by decide) hst
    generalize encLo 10 2 (d.code) (a.code) (b.code) (t.code) (0) 0 + st = W at F ⊢
    simp only [decodeSyl, F.major, decVFloat, decVab, hi2, isVW, needL, zero, guardOr, dstD, srcA, srcB, F.l,
      F.major, F.minor, F.d, F.a, F.b, F.t, F.r, decTy_code ht, decSrc_code, decDst_code, decMod_code, fin_code,
      bv_code, bool_code]
    rfl
  · obtain rfl : encLo 10 2 (d.code) (a.code) (b.code) (t.code) (0) 1 + encHi (ma.code) (mb.code) (0) (0) (0) (0) = u
      := Option.some.inj hw
    refine ⟨fits_vw (M := 10) (m := 2) (d := d.code) (a := a.code) (b := b.code) (t := t.code) (r := 0) (by decide)
      (by decide) (dst_lt d) (src_lt a) (src_lt b) (ty_lt t) (by decide) (mod_lt ma) (mod_lt mb) (by decide)
      (by decide) (by decide) (by decide), fun st hst => ?_⟩
    have F := loFields (M := 10) (m := 2) (d := d.code) (a := a.code) (b := b.code) (t := t.code) (r := 0) (l := 1)
      (hiNat (ma.code) (mb.code) (0) (0) (0) (0)) (by decide) (by decide) (dst_lt d) (src_lt a) (src_lt b) (ty_lt t)
      (by decide) (by decide) hst
    have H := hiFields (ma := ma.code) (mb := mb.code) (mc := 0) (c := 0) (t2 := 0) (ext := 0) (lo_lt (M := 10) (m
      := 2) (d := d.code) (a := a.code) (b := b.code) (t := t.code) (r := 0) (l := 1) (by decide) (by decide) (dst_lt
      d) (src_lt a) (src_lt b) (ty_lt t) (by decide) (by decide) hst) (mod_lt ma) (mod_lt mb) (by decide) (by decide)
      (by decide) (by decide)
    rw [← encHi_eq] at F
    generalize encLo 10 2 (d.code) (a.code) (b.code) (t.code) (0) 1 + encHi (ma.code) (mb.code) (0) (0) (0) (0)
      + st = W at F H ⊢
    simp only [decodeSyl, F.major, decVFloat, decVab, hi2, isVW, needL, zero, guardOr, dstD, srcA, srcB, F.l,
      F.major, F.minor, F.d, F.a, F.b, F.t, F.r, H.f32_3, H.f35_3, H.f38_26, decTy_code ht, decSrc_code, decDst_code,
      decMod_code, fin_code, bv_code, bool_code]
    rfl

theorem vmaxF (t : Ty) (d : Dst) (a b : Src) (w : Option (Mod × Mod)) : Statement (.vmaxF t d a b w) := by
  intro u hw hwf
  have ht : t.isFloat = true := hwf
  rcases w with _ | ⟨ma, mb⟩
  · obtain rfl : encLo 10 4 (d.code) (a.code) (b.code) (t.code) (0) 0 = u := Option.some.inj hw
    refine ⟨fits_lo0 (M := 10) (m := 4) (d := d.code) (a := a.code) (b := b.code) (t := t.code) (r := 0) (by decide)
      (by decide) (dst_lt d) (src_lt a) (src_lt b) (ty_lt t) (by decide), fun st hst => ?_⟩
    have F := loFields0 (M := 10) (m := 4) (d := d.code) (a := a.code) (b := b.code) (t := t.code) (r := 0) (l := 0)
      (by decide) (by decide) (dst_lt d) (src_lt a) (src_lt b) (ty_lt t) (by decide) (by decide) hst
    generalize encLo 10 4 (d.code) (a.code) (b.code) (t.code) (0) 0 + st = W at F ⊢
    simp only [decodeSyl, F.major, decVFloat, decVab, hi2, isVW, needL, zero, guardOr, dstD, srcA, srcB, F.l,
      F.major, F.minor, F.d, F.a, F.b, F.t, F.r, decTy_code ht, decSrc_code, decDst_code, decMod_code, fin_code,
      bv_code, bool_code]
    rfl
  · obtain rfl : encLo 10 4 (d.code) (a.code) (b.code) (t.code) (0) 1 + encHi (ma.code) (mb.code) (0) (0) (0) (0) = u
      := Option.some.inj hw
    refine ⟨fits_vw (M := 10) (m := 4) (d := d.code) (a := a.code) (b := b.code) (t := t.code) (r := 0) (by decide)
      (by decide) (dst_lt d) (src_lt a) (src_lt b) (ty_lt t) (by decide) (mod_lt ma) (mod_lt mb) (by decide)
      (by decide) (by decide) (by decide), fun st hst => ?_⟩
    have F := loFields (M := 10) (m := 4) (d := d.code) (a := a.code) (b := b.code) (t := t.code) (r := 0) (l := 1)
      (hiNat (ma.code) (mb.code) (0) (0) (0) (0)) (by decide) (by decide) (dst_lt d) (src_lt a) (src_lt b) (ty_lt t)
      (by decide) (by decide) hst
    have H := hiFields (ma := ma.code) (mb := mb.code) (mc := 0) (c := 0) (t2 := 0) (ext := 0) (lo_lt (M := 10) (m
      := 4) (d := d.code) (a := a.code) (b := b.code) (t := t.code) (r := 0) (l := 1) (by decide) (by decide) (dst_lt
      d) (src_lt a) (src_lt b) (ty_lt t) (by decide) (by decide) hst) (mod_lt ma) (mod_lt mb) (by decide) (by decide)
      (by decide) (by decide)
    rw [← encHi_eq] at F
    generalize encLo 10 4 (d.code) (a.code) (b.code) (t.code) (0) 1 + encHi (ma.code) (mb.code) (0) (0) (0) (0)
      + st = W at F H ⊢
    simp only [decodeSyl, F.major, decVFloat, decVab, hi2, isVW, needL, zero, guardOr, dstD, srcA, srcB, F.l,
      F.major, F.minor, F.d, F.a, F.b, F.t, F.r, H.f32_3, H.f35_3, H.f38_26, decTy_code ht, decSrc_code, decDst_code,
      decMod_code, fin_code, bv_code, bool_code]
    rfl

theorem vminF (t : Ty) (d : Dst) (a b : Src) (w : Option (Mod × Mod)) : Statement (.vminF t d a b w) := by
  intro u hw hwf
  have ht : t.isFloat = true := hwf
  rcases w with _ | ⟨ma, mb⟩
  · obtain rfl : encLo 10 5 (d.code) (a.code) (b.code) (t.code) (0) 0 = u := Option.some.inj hw
    refine ⟨fits_lo0 (M := 10) (m := 5) (d := d.code) (a := a.code) (b := b.code) (t := t.code) (r := 0) (by decide)
      (by decide) (dst_lt d) (src_lt a) (src_lt b) (ty_lt t) (by decide), fun st hst => ?_⟩
    have F := loFields0 (M := 10) (m := 5) (d := d.code) (a := a.code) (b := b.code) (t := t.code) (r := 0) (l := 0)
      (by decide) (by decide) (dst_lt d) (src_lt a) (src_lt b) (ty_lt t) (by decide) (by decide) hst
    generalize encLo 10 5 (d.code) (a.code) (b.code) (t.code) (0) 0 + st = W at F ⊢
    simp only [decodeSyl, F.major, decVFloat, decVab, hi2, isVW, needL, zero, guardOr, dstD, srcA, srcB, F.l,
      F.major, F.minor, F.d, F.a, F.b, F.t, F.r, decTy_code ht, decSrc_code, decDst_code, decMod_code, fin_code,
      bv_code, bool_code]
    rfl
  · obtain rfl : encLo 10 5 (d.code) (a.code) (b.code) (t.code) (0) 1 + encHi (ma.code) (mb.code) (0) (0) (0) (0) = u
      := Option.some.inj hw
    refine ⟨fits_vw (M := 10) (m := 5) (d := d.code) (a := a.code) (b := b.code) (t := t.code) (r := 0) (by decide)
      (by decide) (dst_lt d) (src_lt a) (src_lt b) (ty_lt t) (by decide) (mod_lt ma) (mod_lt mb) (by decide)
      (by decide) (by decide) (by decide), fun st hst => ?_⟩
    have F := loFields (M := 10) (m := 5) (d := d.code) (a := a.code) (b := b.code) (t := t.code) (r := 0) (l := 1)
      (hiNat (ma.code) (mb.code) (0) (0) (0) (0)) (by decide) (by decide) (dst_lt d) (src_lt a) (src_lt b) (ty_lt t)
      (by decide) (by decide) hst
    have H := hiFields (ma := ma.code) (mb := mb.code) (mc := 0) (c := 0) (t2 := 0) (ext := 0) (lo_lt (M := 10) (m
      := 5) (d := d.code) (a := a.code) (b := b.code) (t := t.code) (r := 0) (l := 1) (by decide) (by decide) (dst_lt
      d) (src_lt a) (src_lt b) (ty_lt t) (by decide) (by decide) hst) (mod_lt ma) (mod_lt mb) (by decide) (by decide)
      (by decide) (by decide)
    rw [← encHi_eq] at F
    generalize encLo 10 5 (d.code) (a.code) (b.code) (t.code) (0) 1 + encHi (ma.code) (mb.code) (0) (0) (0) (0)
      + st = W at F H ⊢
    simp only [decodeSyl, F.major, decVFloat, decVab, hi2, isVW, needL, zero, guardOr, dstD, srcA, srcB, F.l,
      F.major, F.minor, F.d, F.a, F.b, F.t, F.r, H.f32_3, H.f35_3, H.f38_26, decTy_code ht, decSrc_code, decDst_code,
      decMod_code, fin_code, bv_code, bool_code]
    rfl

theorem vdiv (t : Ty) (d : Dst) (a b : Src) (w : Option (Mod × Mod)) : Statement (.vdiv t d a b w) := by
  intro u hw hwf
  have ht : t.isFloat = true := hwf
  rcases w with _ | ⟨ma, mb⟩
  · obtain rfl : encLo 10 9 (d.code) (a.code) (b.code) (t.code) (0) 0 = u := Option.some.inj hw
    refine ⟨fits_lo0 (M := 10) (m := 9) (d := d.code) (a := a.code) (b := b.code) (t := t.code) (r := 0) (by decide)
      (by decide) (dst_lt d) (src_lt a) (src_lt b) (ty_lt t) (by decide), fun st hst => ?_⟩
    have F := loFields0 (M := 10) (m := 9) (d := d.code) (a := a.code) (b := b.code) (t := t.code) (r := 0) (l := 0)
      (by decide) (by decide) (dst_lt d) (src_lt a) (src_lt b) (ty_lt t) (by decide) (by decide) hst
    generalize encLo 10 9 (d.code) (a.code) (b.code) (t.code) (0) 0 + st = W at F ⊢
    simp only [decodeSyl, F.major, decVFloat, decVab, hi2, isVW, needL, zero, guardOr, dstD, srcA, srcB, F.l,
      F.major, F.minor, F.d, F.a, F.b, F.t, F.r, decTy_code ht, decSrc_code, decDst_code, decMod_code, fin_code,
      bv_code, bool_code]
    rfl
  · obtain rfl : encLo 10 9 (d.code) (a.code) (b.code) (t.code) (0) 1 + encHi (ma.code) (mb.code) (0) (0) (0) (0) = u
      := Option.some.inj hw
    refine ⟨fits_vw (M := 10) (m := 9) (d := d.code) (a := a.code) (b := b.code) (t := t.code) (r := 0) (by decide)
      (by decide) (dst_lt d) (src_lt a) (src_lt b) (ty_lt t) (by decide) (mod_lt ma) (mod_lt mb) (by decide)
      (by decide) (by decide) (by decide), fun st hst => ?_⟩
    have F := loFields (M := 10) (m := 9) (d := d.code) (a := a.code) (b := b.code) (t := t.code) (r := 0) (l := 1)
      (hiNat (ma.code) (mb.code) (0) (0) (0) (0)) (by decide) (by decide) (dst_lt d) (src_lt a) (src_lt b) (ty_lt t)
      (by decide) (by decide) hst
    have H := hiFields (ma := ma.code) (mb := mb.code) (mc := 0) (c := 0) (t2 := 0) (ext := 0) (lo_lt (M := 10) (m
      := 9) (d := d.code) (a := a.code) (b := b.code) (t := t.code) (r := 0) (l := 1) (by decide) (by decide) (dst_lt
      d) (src_lt a) (src_lt b) (ty_lt t) (by decide) (by decide) hst) (mod_lt ma) (mod_lt mb) (by decide) (by decide)
      (by decide) (by decide)
    rw [← encHi_eq] at F
    generalize encLo 10 9 (d.code) (a.code) (b.code) (t.code) (0) 1 + encHi (ma.code) (mb.code) (0) (0) (0) (0)
      + st = W at F H ⊢
    simp only [decodeSyl, F.major, decVFloat, decVab, hi2, isVW, needL, zero, guardOr, dstD, srcA, srcB, F.l,
      F.major, F.minor, F.d, F.a, F.b, F.t, F.r, H.f32_3, H.f35_3, H.f38_26, decTy_code ht, decSrc_code, decDst_code,
      decMod_code, fin_code, bv_code, bool_code]
    rfl

theorem vabsF (t : Ty) (d : Dst) (a : Src) (w : Option Mod) : Statement (.vabsF t d a w) := by
  intro u hw hwf
  have ht : t.isFloat = true := hwf
  rcases w with _ | ma
  · obtain rfl : encLo 10 6 (d.code) (a.code) (0) (t.code) (0) 0 = u := Option.some.inj hw
    refine ⟨fits_lo0 (M := 10) (m := 6) (d := d.code) (a := a.code) (b := 0) (t := t.code) (r := 0) (by decide)
      (by decide) (dst_lt d) (src_lt a) (by decide) (ty_lt t) (by decide), fun st hst => ?_⟩
    have F := loFields0 (M := 10) (m := 6) (d := d.code) (a := a.code) (b := 0) (t := t.code) (r := 0) (l := 0)
      (by decide) (by decide) (dst_lt d) (src_lt a) (by decide) (ty_lt t) (by decide) (by decide) hst
    generalize encLo 10 6 (d.code) (a.code) (0) (t.code) (0) 0 + st = W at F ⊢
    simp only [decodeSyl, F.major, decVFloat, decVa, hi1, isVW, needL, zero, guardOr, dstD, srcA, srcB, F.l, F.major,
      F.minor, F.d, F.a, F.b, F.t, F.r, decTy_code ht, decSrc_code, decDst_code, decMod_code, fin_code, bv_code,
      bool_code]
    rfl
  · obtain rfl : encLo 10 6 (d.code) (a.code) (0) (t.code) (0) 1 + encHi (ma.code) (0) (0) (0) (0) (0) = u
      := Option.some.inj hw
    refine ⟨fits_vw (M := 10) (m := 6) (d := d.code) (a := a.code) (b := 0) (t := t.code) (r := 0) (by decide)
      (by decide) (dst_lt d) (src_lt a) (by decide) (ty_lt t) (by decide) (mod_lt ma) (by decide) (by decide)
      (by decide) (by decide) (by decide), fun st hst => ?_⟩
    have F := loFields (M := 10) (m := 6) (d := d.code) (a := a.code) (b := 0) (t := t.code) (r := 0) (l := 1) (hiNat
      (ma.code) (0) (0) (0) (0) (0)) (by decide) (by decide) (dst_lt d) (src_lt a) (by decide) (ty_lt t) (by decide)
      (by decide) hst
    have H := hiFields (ma := ma.code) (mb := 0) (mc := 0) (c := 0) (t2 := 0) (ext := 0) (lo_lt (M := 10) (m := 6) (d
      := d.code) (a := a.code) (b := 0) (t := t.code) (r := 0) (l := 1) (by decide) (by decide) (dst_lt d) (src_lt a)
      (by decide) (ty_lt t) (by decide) (by decide) hst) (mod_lt ma) (by decide) (by decide) (by decide) (by decide)
      (by decide)
    rw [← encHi_eq] at F
    generalize encLo 10 6 (d.code) (a.code) (0) (t.code) (0) 1 + encHi (ma.code) (0) (0) (0) (0) (0) + st = W at F H ⊢
    simp only [decodeSyl, F.major, decVFloat, decVa, hi1, isVW, needL, zero, guardOr, dstD, srcA, srcB, F.l, F.major,
      F.minor, F.d, F.a, F.b, F.t, F.r, H.f32_3, H.f35_29, decTy_code ht, decSrc_code, decDst_code, decMod_code,
      fin_code, bv_code, bool_code]
    rfl

theorem vnegF (t : Ty) (d : Dst) (a : Src) (w : Option Mod) : Statement (.vnegF t d a w) := by
  intro u hw hwf
  have ht : t.isFloat = true := hwf
  rcases w with _ | ma
  · obtain rfl : encLo 10 7 (d.code) (a.code) (0) (t.code) (0) 0 = u := Option.some.inj hw
    refine ⟨fits_lo0 (M := 10) (m := 7) (d := d.code) (a := a.code) (b := 0) (t := t.code) (r := 0) (by decide)
      (by decide) (dst_lt d) (src_lt a) (by decide) (ty_lt t) (by decide), fun st hst => ?_⟩
    have F := loFields0 (M := 10) (m := 7) (d := d.code) (a := a.code) (b := 0) (t := t.code) (r := 0) (l := 0)
      (by decide) (by decide) (dst_lt d) (src_lt a) (by decide) (ty_lt t) (by decide) (by decide) hst
    generalize encLo 10 7 (d.code) (a.code) (0) (t.code) (0) 0 + st = W at F ⊢
    simp only [decodeSyl, F.major, decVFloat, decVa, hi1, isVW, needL, zero, guardOr, dstD, srcA, srcB, F.l, F.major,
      F.minor, F.d, F.a, F.b, F.t, F.r, decTy_code ht, decSrc_code, decDst_code, decMod_code, fin_code, bv_code,
      bool_code]
    rfl
  · obtain rfl : encLo 10 7 (d.code) (a.code) (0) (t.code) (0) 1 + encHi (ma.code) (0) (0) (0) (0) (0) = u
      := Option.some.inj hw
    refine ⟨fits_vw (M := 10) (m := 7) (d := d.code) (a := a.code) (b := 0) (t := t.code) (r := 0) (by decide)
      (by decide) (dst_lt d) (src_lt a) (by decide) (ty_lt t) (by decide) (mod_lt ma) (by decide) (by decide)
      (by decide) (by decide) (by decide), fun st hst => ?_⟩
    have F := loFields (M := 10) (m := 7) (d := d.code) (a := a.code) (b := 0) (t := t.code) (r := 0) (l := 1) (hiNat
      (ma.code) (0) (0) (0) (0) (0)) (by decide) (by decide) (dst_lt d) (src_lt a) (by decide) (ty_lt t) (by decide)
      (by decide) hst
    have H := hiFields (ma := ma.code) (mb := 0) (mc := 0) (c := 0) (t2 := 0) (ext := 0) (lo_lt (M := 10) (m := 7) (d
      := d.code) (a := a.code) (b := 0) (t := t.code) (r := 0) (l := 1) (by decide) (by decide) (dst_lt d) (src_lt a)
      (by decide) (ty_lt t) (by decide) (by decide) hst) (mod_lt ma) (by decide) (by decide) (by decide) (by decide)
      (by decide)
    rw [← encHi_eq] at F
    generalize encLo 10 7 (d.code) (a.code) (0) (t.code) (0) 1 + encHi (ma.code) (0) (0) (0) (0) (0) + st = W at F H ⊢
    simp only [decodeSyl, F.major, decVFloat, decVa, hi1, isVW, needL, zero, guardOr, dstD, srcA, srcB, F.l, F.major,
      F.minor, F.d, F.a, F.b, F.t, F.r, H.f32_3, H.f35_29, decTy_code ht, decSrc_code, decDst_code, decMod_code,
      fin_code, bv_code, bool_code]
    rfl

theorem vsqrt (t : Ty) (d : Dst) (a : Src) (w : Option Mod) : Statement (.vsqrt t d a w) := by
  intro u hw hwf
  have ht : t.isFloat = true := hwf
  rcases w with _ | ma
  · obtain rfl : encLo 10 8 (d.code) (a.code) (0) (t.code) (0) 0 = u := Option.some.inj hw
    refine ⟨fits_lo0 (M := 10) (m := 8) (d := d.code) (a := a.code) (b := 0) (t := t.code) (r := 0) (by decide)
      (by decide) (dst_lt d) (src_lt a) (by decide) (ty_lt t) (by decide), fun st hst => ?_⟩
    have F := loFields0 (M := 10) (m := 8) (d := d.code) (a := a.code) (b := 0) (t := t.code) (r := 0) (l := 0)
      (by decide) (by decide) (dst_lt d) (src_lt a) (by decide) (ty_lt t) (by decide) (by decide) hst
    generalize encLo 10 8 (d.code) (a.code) (0) (t.code) (0) 0 + st = W at F ⊢
    simp only [decodeSyl, F.major, decVFloat, decVa, hi1, isVW, needL, zero, guardOr, dstD, srcA, srcB, F.l, F.major,
      F.minor, F.d, F.a, F.b, F.t, F.r, decTy_code ht, decSrc_code, decDst_code, decMod_code, fin_code, bv_code,
      bool_code]
    rfl
  · obtain rfl : encLo 10 8 (d.code) (a.code) (0) (t.code) (0) 1 + encHi (ma.code) (0) (0) (0) (0) (0) = u
      := Option.some.inj hw
    refine ⟨fits_vw (M := 10) (m := 8) (d := d.code) (a := a.code) (b := 0) (t := t.code) (r := 0) (by decide)
      (by decide) (dst_lt d) (src_lt a) (by decide) (ty_lt t) (by decide) (mod_lt ma) (by decide) (by decide)
      (by decide) (by decide) (by decide), fun st hst => ?_⟩
    have F := loFields (M := 10) (m := 8) (d := d.code) (a := a.code) (b := 0) (t := t.code) (r := 0) (l := 1) (hiNat
      (ma.code) (0) (0) (0) (0) (0)) (by decide) (by decide) (dst_lt d) (src_lt a) (by decide) (ty_lt t) (by decide)
      (by decide) hst
    have H := hiFields (ma := ma.code) (mb := 0) (mc := 0) (c := 0) (t2 := 0) (ext := 0) (lo_lt (M := 10) (m := 8) (d
      := d.code) (a := a.code) (b := 0) (t := t.code) (r := 0) (l := 1) (by decide) (by decide) (dst_lt d) (src_lt a)
      (by decide) (ty_lt t) (by decide) (by decide) hst) (mod_lt ma) (by decide) (by decide) (by decide) (by decide)
      (by decide)
    rw [← encHi_eq] at F
    generalize encLo 10 8 (d.code) (a.code) (0) (t.code) (0) 1 + encHi (ma.code) (0) (0) (0) (0) (0) + st = W at F H ⊢
    simp only [decodeSyl, F.major, decVFloat, decVa, hi1, isVW, needL, zero, guardOr, dstD, srcA, srcB, F.l, F.major,
      F.minor, F.d, F.a, F.b, F.t, F.r, H.f32_3, H.f35_29, decTy_code ht, decSrc_code, decDst_code, decMod_code,
      fin_code, bv_code, bool_code]
    rfl

theorem vfma (t : Ty) (d : Fin 16) (a b : Src) : Statement (.vfma t d a b) := by
  intro w hw hwf
  have ht : t.isFloat = true := hwf
  obtain rfl : encLo 10 3 (d.val) (a.code) (b.code) (t.code) (0) 0 = w := Option.some.inj hw
  refine ⟨fits_lo0 (M := 10) (m := 3) (d := d.val) (a := a.code) (b := b.code) (t := t.code) (r := 0) (by decide)
    (by decide) (by omega) (src_lt a) (src_lt b) (ty_lt t) (by decide), fun st hst => ?_⟩
  have F := loFields0 (M := 10) (m := 3) (d := d.val) (a := a.code) (b := b.code) (t := t.code) (r := 0) (l := 0)
    (by decide) (by decide) (by omega) (src_lt a) (src_lt b) (ty_lt t) (by decide) (by decide) hst
  have hd : decide (d.val < 16) = true := decide_eq_true d.isLt
  generalize encLo 10 3 (d.val) (a.code) (b.code) (t.code) (0) 0 + st = W at F ⊢
  simp only [decodeSyl, F.major, decVFloat, isVW, needL, zero, guardOr, dstD, srcA, srcB, F.l, F.major, F.minor, F.d,
    F.a, F.b, F.t, F.r, bind, Except.bind, hd, decTy_code ht, decSrc_code, decDst_code, decMod_code, fin_code,
    bv_code, bool_code]
  rfl

theorem vfmaVw (t : Ty) (d : Dst) (a b c : Src) (ma mb mc : Mod) : Statement (.vfmaVw t d a b c ma mb mc) := by
  intro w hw hwf
  have ht : t.isFloat = true := hwf
  obtain rfl : encLo 10 3 (d.code) (a.code) (b.code) (t.code) (0) 1 + encHi (ma.code) (mb.code) (mc.code) (c.code)
    (0) (0) = w := Option.some.inj hw
  refine ⟨fits_vw (M := 10) (m := 3) (d := d.code) (a := a.code) (b := b.code) (t := t.code) (r := 0) (by decide)
    (by decide) (dst_lt d) (src_lt a) (src_lt b) (ty_lt t) (by decide) (mod_lt ma) (mod_lt mb) (mod_lt mc) (src_lt c)
    (by decide) (by decide), fun st hst => ?_⟩
  have F := loFields (M := 10) (m := 3) (d := d.code) (a := a.code) (b := b.code) (t := t.code) (r := 0) (l := 1)
    (hiNat (ma.code) (mb.code) (mc.code) (c.code) (0) (0)) (by decide) (by decide) (dst_lt d) (src_lt a) (src_lt b)
    (ty_lt t) (by decide) (by decide) hst
  have H := hiFields (ma := ma.code) (mb := mb.code) (mc := mc.code) (c := c.code) (t2 := 0) (ext := 0) (lo_lt (M
    := 10) (m := 3) (d := d.code) (a := a.code) (b := b.code) (t := t.code) (r := 0) (l := 1) (by decide) (by decide)
    (dst_lt d) (src_lt a) (src_lt b) (ty_lt t) (by decide) (by decide) hst) (mod_lt ma) (mod_lt mb) (mod_lt mc)
    (src_lt c) (by decide) (by decide)
  rw [← encHi_eq] at F
  generalize encLo 10 3 (d.code) (a.code) (b.code) (t.code) (0) 1
    + encHi (ma.code) (mb.code) (mc.code) (c.code) (0) (0) + st = W at F H ⊢
  simp only [decodeSyl, F.major, decVFloat, isVW, needL, zero, guardOr, dstD, srcA, srcB, F.l, F.major, F.minor, F.d,
    F.a, F.b, F.t, F.r, H.f32_3, H.f35_3, H.f38_3, H.f41_5, H.f46_18, decTy_code ht, decSrc_code, decDst_code,
    decMod_code, fin_code, bv_code, bool_code]
  rfl

theorem vaddI (t : Ty) (d : Dst) (a b : Src) (w : Option (Mod × Mod)) : Statement (.vaddI t d a b w) := by
  intro u hw hwf
  have ht : t.isVecInt = true := hwf
  rcases w with _ | ⟨ma, mb⟩
  · obtain rfl : encLo 11 0 (d.code) (a.code) (b.code) (t.code) (0) 0 = u := Option.some.inj hw
    refine ⟨fits_lo0 (M := 11) (m := 0) (d := d.code) (a := a.code) (b := b.code) (t := t.code) (r := 0) (by decide)
      (by decide) (dst_lt d) (src_lt a) (src_lt b) (ty_lt t) (by decide), fun st hst => ?_⟩
    have F := loFields0 (M := 11) (m := 0) (d := d.code) (a := a.code) (b := b.code) (t := t.code) (r := 0) (l := 0)
      (by decide) (by decide) (dst_lt d) (src_lt a) (src_lt b) (ty_lt t) (by decide) (by decide) hst
    generalize encLo 11 0 (d.code) (a.code) (b.code) (t.code) (0) 0 + st = W at F ⊢
    simp only [decodeSyl, F.major, decVInt, decVab, hi2, isVW, needL, zero, guardOr, dstD, srcA, srcB, F.l, F.major,
      F.minor, F.d, F.a, F.b, F.t, F.r, decTy_code ht, decSrc_code, decDst_code, decMod_code, fin_code, bv_code,
      bool_code]
    rfl
  · obtain rfl : encLo 11 0 (d.code) (a.code) (b.code) (t.code) (0) 1 + encHi (ma.code) (mb.code) (0) (0) (0) (0) = u
      := Option.some.inj hw
    refine ⟨fits_vw (M := 11) (m := 0) (d := d.code) (a := a.code) (b := b.code) (t := t.code) (r := 0) (by decide)
      (by decide) (dst_lt d) (src_lt a) (src_lt b) (ty_lt t) (by decide) (mod_lt ma) (mod_lt mb) (by decide)
      (by decide) (by decide) (by decide), fun st hst => ?_⟩
    have F := loFields (M := 11) (m := 0) (d := d.code) (a := a.code) (b := b.code) (t := t.code) (r := 0) (l := 1)
      (hiNat (ma.code) (mb.code) (0) (0) (0) (0)) (by decide) (by decide) (dst_lt d) (src_lt a) (src_lt b) (ty_lt t)
      (by decide) (by decide) hst
    have H := hiFields (ma := ma.code) (mb := mb.code) (mc := 0) (c := 0) (t2 := 0) (ext := 0) (lo_lt (M := 11) (m
      := 0) (d := d.code) (a := a.code) (b := b.code) (t := t.code) (r := 0) (l := 1) (by decide) (by decide) (dst_lt
      d) (src_lt a) (src_lt b) (ty_lt t) (by decide) (by decide) hst) (mod_lt ma) (mod_lt mb) (by decide) (by decide)
      (by decide) (by decide)
    rw [← encHi_eq] at F
    generalize encLo 11 0 (d.code) (a.code) (b.code) (t.code) (0) 1 + encHi (ma.code) (mb.code) (0) (0) (0) (0)
      + st = W at F H ⊢
    simp only [decodeSyl, F.major, decVInt, decVab, hi2, isVW, needL, zero, guardOr, dstD, srcA, srcB, F.l, F.major,
      F.minor, F.d, F.a, F.b, F.t, F.r, H.f32_3, H.f35_3, H.f38_26, decTy_code ht, decSrc_code, decDst_code,
      decMod_code, fin_code, bv_code, bool_code]
    rfl

theorem vsubI (t : Ty) (d : Dst) (a b : Src) (w : Option (Mod × Mod)) : Statement (.vsubI t d a b w) := by
  intro u hw hwf
  have ht : t.isVecInt = true := hwf
  rcases w with _ | ⟨ma, mb⟩
  · obtain rfl : encLo 11 1 (d.code) (a.code) (b.code) (t.code) (0) 0 = u := Option.some.inj hw
    refine ⟨fits_lo0 (M := 11) (m := 1) (d := d.code) (a := a.code) (b := b.code) (t := t.code) (r := 0) (by decide)
      (by decide) (dst_lt d) (src_lt a) (src_lt b) (ty_lt t) (by decide), fun st hst => ?_⟩
    have F := loFields0 (M := 11) (m := 1) (d := d.code) (a := a.code) (b := b.code) (t := t.code) (r := 0) (l := 0)
      (by decide) (by decide) (dst_lt d) (src_lt a) (src_lt b) (ty_lt t) (by decide) (by decide) hst
    generalize encLo 11 1 (d.code) (a.code) (b.code) (t.code) (0) 0 + st = W at F ⊢
    simp only [decodeSyl, F.major, decVInt, decVab, hi2, isVW, needL, zero, guardOr, dstD, srcA, srcB, F.l, F.major,
      F.minor, F.d, F.a, F.b, F.t, F.r, decTy_code ht, decSrc_code, decDst_code, decMod_code, fin_code, bv_code,
      bool_code]
    rfl
  · obtain rfl : encLo 11 1 (d.code) (a.code) (b.code) (t.code) (0) 1 + encHi (ma.code) (mb.code) (0) (0) (0) (0) = u
      := Option.some.inj hw
    refine ⟨fits_vw (M := 11) (m := 1) (d := d.code) (a := a.code) (b := b.code) (t := t.code) (r := 0) (by decide)
      (by decide) (dst_lt d) (src_lt a) (src_lt b) (ty_lt t) (by decide) (mod_lt ma) (mod_lt mb) (by decide)
      (by decide) (by decide) (by decide), fun st hst => ?_⟩
    have F := loFields (M := 11) (m := 1) (d := d.code) (a := a.code) (b := b.code) (t := t.code) (r := 0) (l := 1)
      (hiNat (ma.code) (mb.code) (0) (0) (0) (0)) (by decide) (by decide) (dst_lt d) (src_lt a) (src_lt b) (ty_lt t)
      (by decide) (by decide) hst
    have H := hiFields (ma := ma.code) (mb := mb.code) (mc := 0) (c := 0) (t2 := 0) (ext := 0) (lo_lt (M := 11) (m
      := 1) (d := d.code) (a := a.code) (b := b.code) (t := t.code) (r := 0) (l := 1) (by decide) (by decide) (dst_lt
      d) (src_lt a) (src_lt b) (ty_lt t) (by decide) (by decide) hst) (mod_lt ma) (mod_lt mb) (by decide) (by decide)
      (by decide) (by decide)
    rw [← encHi_eq] at F
    generalize encLo 11 1 (d.code) (a.code) (b.code) (t.code) (0) 1 + encHi (ma.code) (mb.code) (0) (0) (0) (0)
      + st = W at F H ⊢
    simp only [decodeSyl, F.major, decVInt, decVab, hi2, isVW, needL, zero, guardOr, dstD, srcA, srcB, F.l, F.major,
      F.minor, F.d, F.a, F.b, F.t, F.r, H.f32_3, H.f35_3, H.f38_26, decTy_code ht, decSrc_code, decDst_code,
      decMod_code, fin_code, bv_code, bool_code]
    rfl

theorem vmulI (t : Ty) (d : Dst) (a b : Src) (w : Option (Mod × Mod)) : Statement (.vmulI t d a b w) := by
  intro u hw hwf
  have ht : t.isVecInt = true := hwf
  rcases w with _ | ⟨ma, mb⟩
  · obtain rfl : encLo 11 2 (d.code) (a.code) (b.code) (t.code) (0) 0 = u := Option.some.inj hw
    refine ⟨fits_lo0 (M := 11) (m := 2) (d := d.code) (a := a.code) (b := b.code) (t := t.code) (r := 0) (by decide)
      (by decide) (dst_lt d) (src_lt a) (src_lt b) (ty_lt t) (by decide), fun st hst => ?_⟩
    have F := loFields0 (M := 11) (m := 2) (d := d.code) (a := a.code) (b := b.code) (t := t.code) (r := 0) (l := 0)
      (by decide) (by decide) (dst_lt d) (src_lt a) (src_lt b) (ty_lt t) (by decide) (by decide) hst
    generalize encLo 11 2 (d.code) (a.code) (b.code) (t.code) (0) 0 + st = W at F ⊢
    simp only [decodeSyl, F.major, decVInt, decVab, hi2, isVW, needL, zero, guardOr, dstD, srcA, srcB, F.l, F.major,
      F.minor, F.d, F.a, F.b, F.t, F.r, decTy_code ht, decSrc_code, decDst_code, decMod_code, fin_code, bv_code,
      bool_code]
    rfl
  · obtain rfl : encLo 11 2 (d.code) (a.code) (b.code) (t.code) (0) 1 + encHi (ma.code) (mb.code) (0) (0) (0) (0) = u
      := Option.some.inj hw
    refine ⟨fits_vw (M := 11) (m := 2) (d := d.code) (a := a.code) (b := b.code) (t := t.code) (r := 0) (by decide)
      (by decide) (dst_lt d) (src_lt a) (src_lt b) (ty_lt t) (by decide) (mod_lt ma) (mod_lt mb) (by decide)
      (by decide) (by decide) (by decide), fun st hst => ?_⟩
    have F := loFields (M := 11) (m := 2) (d := d.code) (a := a.code) (b := b.code) (t := t.code) (r := 0) (l := 1)
      (hiNat (ma.code) (mb.code) (0) (0) (0) (0)) (by decide) (by decide) (dst_lt d) (src_lt a) (src_lt b) (ty_lt t)
      (by decide) (by decide) hst
    have H := hiFields (ma := ma.code) (mb := mb.code) (mc := 0) (c := 0) (t2 := 0) (ext := 0) (lo_lt (M := 11) (m
      := 2) (d := d.code) (a := a.code) (b := b.code) (t := t.code) (r := 0) (l := 1) (by decide) (by decide) (dst_lt
      d) (src_lt a) (src_lt b) (ty_lt t) (by decide) (by decide) hst) (mod_lt ma) (mod_lt mb) (by decide) (by decide)
      (by decide) (by decide)
    rw [← encHi_eq] at F
    generalize encLo 11 2 (d.code) (a.code) (b.code) (t.code) (0) 1 + encHi (ma.code) (mb.code) (0) (0) (0) (0)
      + st = W at F H ⊢
    simp only [decodeSyl, F.major, decVInt, decVab, hi2, isVW, needL, zero, guardOr, dstD, srcA, srcB, F.l, F.major,
      F.minor, F.d, F.a, F.b, F.t, F.r, H.f32_3, H.f35_3, H.f38_26, decTy_code ht, decSrc_code, decDst_code,
      decMod_code, fin_code, bv_code, bool_code]
    rfl

theorem vmulh (t : Ty) (d : Dst) (a b : Src) (w : Option (Mod × Mod)) : Statement (.vmulh t d a b w) := by
  intro u hw hwf
  have ht : t.isVecInt = true := hwf
  rcases w with _ | ⟨ma, mb⟩
  · obtain rfl : encLo 11 3 (d.code) (a.code) (b.code) (t.code) (0) 0 = u := Option.some.inj hw
    refine ⟨fits_lo0 (M := 11) (m := 3) (d := d.code) (a := a.code) (b := b.code) (t := t.code) (r := 0) (by decide)
      (by decide) (dst_lt d) (src_lt a) (src_lt b) (ty_lt t) (by decide), fun st hst => ?_⟩
    have F := loFields0 (M := 11) (m := 3) (d := d.code) (a := a.code) (b := b.code) (t := t.code) (r := 0) (l := 0)
      (by decide) (by decide) (dst_lt d) (src_lt a) (src_lt b) (ty_lt t) (by decide) (by decide) hst
    generalize encLo 11 3 (d.code) (a.code) (b.code) (t.code) (0) 0 + st = W at F ⊢
    simp only [decodeSyl, F.major, decVInt, decVab, hi2, isVW, needL, zero, guardOr, dstD, srcA, srcB, F.l, F.major,
      F.minor, F.d, F.a, F.b, F.t, F.r, decTy_code ht, decSrc_code, decDst_code, decMod_code, fin_code, bv_code,
      bool_code]
    rfl
  · obtain rfl : encLo 11 3 (d.code) (a.code) (b.code) (t.code) (0) 1 + encHi (ma.code) (mb.code) (0) (0) (0) (0) = u
      := Option.some.inj hw
    refine ⟨fits_vw (M := 11) (m := 3) (d := d.code) (a := a.code) (b := b.code) (t := t.code) (r := 0) (by decide)
      (by decide) (dst_lt d) (src_lt a) (src_lt b) (ty_lt t) (by decide) (mod_lt ma) (mod_lt mb) (by decide)
      (by decide) (by decide) (by decide), fun st hst => ?_⟩
    have F := loFields (M := 11) (m := 3) (d := d.code) (a := a.code) (b := b.code) (t := t.code) (r := 0) (l := 1)
      (hiNat (ma.code) (mb.code) (0) (0) (0) (0)) (by decide) (by decide) (dst_lt d) (src_lt a) (src_lt b) (ty_lt t)
      (by decide) (by decide) hst
    have H := hiFields (ma := ma.code) (mb := mb.code) (mc := 0) (c := 0) (t2 := 0) (ext := 0) (lo_lt (M := 11) (m
      := 3) (d := d.code) (a := a.code) (b := b.code) (t := t.code) (r := 0) (l := 1) (by decide) (by decide) (dst_lt
      d) (src_lt a) (src_lt b) (ty_lt t) (by decide) (by decide) hst) (mod_lt ma) (mod_lt mb) (by decide) (by decide)
      (by decide) (by decide)
    rw [← encHi_eq] at F
    generalize encLo 11 3 (d.code) (a.code) (b.code) (t.code) (0) 1 + encHi (ma.code) (mb.code) (0) (0) (0) (0)
      + st = W at F H ⊢
    simp only [decodeSyl, F.major, decVInt, decVab, hi2, isVW, needL, zero, guardOr, dstD, srcA, srcB, F.l, F.major,
      F.minor, F.d, F.a, F.b, F.t, F.r, H.f32_3, H.f35_3, H.f38_26, decTy_code ht, decSrc_code, decDst_code,
      decMod_code, fin_code, bv_code, bool_code]
    rfl

theorem vand (t : Ty) (d : Dst) (a b : Src) (w : Option (Mod × Mod)) : Statement (.vand t d a b w) := by
  intro u hw hwf
  have ht : t.isLogic = true := hwf
  rcases w with _ | ⟨ma, mb⟩
  · obtain rfl : encLo 11 4 (d.code) (a.code) (b.code) (t.code) (0) 0 = u := Option.some.inj hw
    refine ⟨fits_lo0 (M := 11) (m := 4) (d := d.code) (a := a.code) (b := b.code) (t := t.code) (r := 0) (by decide)
      (by decide) (dst_lt d) (src_lt a) (src_lt b) (ty_lt t) (by decide), fun st hst => ?_⟩
    have F := loFields0 (M := 11) (m := 4) (d := d.code) (a := a.code) (b := b.code) (t := t.code) (r := 0) (l := 0)
      (by decide) (by decide) (dst_lt d) (src_lt a) (src_lt b) (ty_lt t) (by decide) (by decide) hst
    generalize encLo 11 4 (d.code) (a.code) (b.code) (t.code) (0) 0 + st = W at F ⊢
    simp only [decodeSyl, F.major, decVInt, decVab, hi2, isVW, needL, zero, guardOr, dstD, srcA, srcB, F.l, F.major,
      F.minor, F.d, F.a, F.b, F.t, F.r, decTy_code ht, decSrc_code, decDst_code, decMod_code, fin_code, bv_code,
      bool_code]
    rfl
  · obtain rfl : encLo 11 4 (d.code) (a.code) (b.code) (t.code) (0) 1 + encHi (ma.code) (mb.code) (0) (0) (0) (0) = u
      := Option.some.inj hw
    refine ⟨fits_vw (M := 11) (m := 4) (d := d.code) (a := a.code) (b := b.code) (t := t.code) (r := 0) (by decide)
      (by decide) (dst_lt d) (src_lt a) (src_lt b) (ty_lt t) (by decide) (mod_lt ma) (mod_lt mb) (by decide)
      (by decide) (by decide) (by decide), fun st hst => ?_⟩
    have F := loFields (M := 11) (m := 4) (d := d.code) (a := a.code) (b := b.code) (t := t.code) (r := 0) (l := 1)
      (hiNat (ma.code) (mb.code) (0) (0) (0) (0)) (by decide) (by decide) (dst_lt d) (src_lt a) (src_lt b) (ty_lt t)
      (by decide) (by decide) hst
    have H := hiFields (ma := ma.code) (mb := mb.code) (mc := 0) (c := 0) (t2 := 0) (ext := 0) (lo_lt (M := 11) (m
      := 4) (d := d.code) (a := a.code) (b := b.code) (t := t.code) (r := 0) (l := 1) (by decide) (by decide) (dst_lt
      d) (src_lt a) (src_lt b) (ty_lt t) (by decide) (by decide) hst) (mod_lt ma) (mod_lt mb) (by decide) (by decide)
      (by decide) (by decide)
    rw [← encHi_eq] at F
    generalize encLo 11 4 (d.code) (a.code) (b.code) (t.code) (0) 1 + encHi (ma.code) (mb.code) (0) (0) (0) (0)
      + st = W at F H ⊢
    simp only [decodeSyl, F.major, decVInt, decVab, hi2, isVW, needL, zero, guardOr, dstD, srcA, srcB, F.l, F.major,
      F.minor, F.d, F.a, F.b, F.t, F.r, H.f32_3, H.f35_3, H.f38_26, decTy_code ht, decSrc_code, decDst_code,
      decMod_code, fin_code, bv_code, bool_code]
    rfl

theorem vor (t : Ty) (d : Dst) (a b : Src) (w : Option (Mod × Mod)) : Statement (.vor t d a b w) := by
  intro u hw hwf
  have ht : t.isLogic = true := hwf
  rcases w with _ | ⟨ma, mb⟩
  · obtain rfl : encLo 11 5 (d.code) (a.code) (b.code) (t.code) (0) 0 = u := Option.some.inj hw
    refine ⟨fits_lo0 (M := 11) (m := 5) (d := d.code) (a := a.code) (b := b.code) (t := t.code) (r := 0) (by decide)
      (by decide) (dst_lt d) (src_lt a) (src_lt b) (ty_lt t) (by decide), fun st hst => ?_⟩
    have F := loFields0 (M := 11) (m := 5) (d := d.code) (a := a.code) (b := b.code) (t := t.code) (r := 0) (l := 0)
      (by decide) (by decide) (dst_lt d) (src_lt a) (src_lt b) (ty_lt t) (by decide) (by decide) hst
    generalize encLo 11 5 (d.code) (a.code) (b.code) (t.code) (0) 0 + st = W at F ⊢
    simp only [decodeSyl, F.major, decVInt, decVab, hi2, isVW, needL, zero, guardOr, dstD, srcA, srcB, F.l, F.major,
      F.minor, F.d, F.a, F.b, F.t, F.r, decTy_code ht, decSrc_code, decDst_code, decMod_code, fin_code, bv_code,
      bool_code]
    rfl
  · obtain rfl : encLo 11 5 (d.code) (a.code) (b.code) (t.code) (0) 1 + encHi (ma.code) (mb.code) (0) (0) (0) (0) = u
      := Option.some.inj hw
    refine ⟨fits_vw (M := 11) (m := 5) (d := d.code) (a := a.code) (b := b.code) (t := t.code) (r := 0) (by decide)
      (by decide) (dst_lt d) (src_lt a) (src_lt b) (ty_lt t) (by decide) (mod_lt ma) (mod_lt mb) (by decide)
      (by decide) (by decide) (by decide), fun st hst => ?_⟩
    have F := loFields (M := 11) (m := 5) (d := d.code) (a := a.code) (b := b.code) (t := t.code) (r := 0) (l := 1)
      (hiNat (ma.code) (mb.code) (0) (0) (0) (0)) (by decide) (by decide) (dst_lt d) (src_lt a) (src_lt b) (ty_lt t)
      (by decide) (by decide) hst
    have H := hiFields (ma := ma.code) (mb := mb.code) (mc := 0) (c := 0) (t2 := 0) (ext := 0) (lo_lt (M := 11) (m
      := 5) (d := d.code) (a := a.code) (b := b.code) (t := t.code) (r := 0) (l := 1) (by decide) (by decide) (dst_lt
      d) (src_lt a) (src_lt b) (ty_lt t) (by decide) (by decide) hst) (mod_lt ma) (mod_lt mb) (by decide) (by decide)
      (by decide) (by decide)
    rw [← encHi_eq] at F
    generalize encLo 11 5 (d.code) (a.code) (b.code) (t.code) (0) 1 + encHi (ma.code) (mb.code) (0) (0) (0) (0)
      + st = W at F H ⊢
    simp only [decodeSyl, F.major, decVInt, decVab, hi2, isVW, needL, zero, guardOr, dstD, srcA, srcB, F.l, F.major,
      F.minor, F.d, F.a, F.b, F.t, F.r, H.f32_3, H.f35_3, H.f38_26, decTy_code ht, decSrc_code, decDst_code,
      decMod_code, fin_code, bv_code, bool_code]
    rfl

theorem vxor (t : Ty) (d : Dst) (a b : Src) (w : Option (Mod × Mod)) : Statement (.vxor t d a b w) := by
  intro u hw hwf
  have ht : t.isLogic = true := hwf
  rcases w with _ | ⟨ma, mb⟩
  · obtain rfl : encLo 11 6 (d.code) (a.code) (b.code) (t.code) (0) 0 = u := Option.some.inj hw
    refine ⟨fits_lo0 (M := 11) (m := 6) (d := d.code) (a := a.code) (b := b.code) (t := t.code) (r := 0) (by decide)
      (by decide) (dst_lt d) (src_lt a) (src_lt b) (ty_lt t) (by decide), fun st hst => ?_⟩
    have F := loFields0 (M := 11) (m := 6) (d := d.code) (a := a.code) (b := b.code) (t := t.code) (r := 0) (l := 0)
      (by decide) (by decide) (dst_lt d) (src_lt a) (src_lt b) (ty_lt t) (by decide) (by decide) hst
    generalize encLo 11 6 (d.code) (a.code) (b.code) (t.code) (0) 0 + st = W at F ⊢
    simp only [decodeSyl, F.major, decVInt, decVab, hi2, isVW, needL, zero, guardOr, dstD, srcA, srcB, F.l, F.major,
      F.minor, F.d, F.a, F.b, F.t, F.r, decTy_code ht, decSrc_code, decDst_code, decMod_code, fin_code, bv_code,
      bool_code]
    rfl
  · obtain rfl : encLo 11 6 (d.code) (a.code) (b.code) (t.code) (0) 1 + encHi (ma.code) (mb.code) (0) (0) (0) (0) = u
      := Option.some.inj hw
    refine ⟨fits_vw (M := 11) (m := 6) (d := d.code) (a := a.code) (b := b.code) (t := t.code) (r := 0) (by decide)
      (by decide) (dst_lt d) (src_lt a) (src_lt b) (ty_lt t) (by decide) (mod_lt ma) (mod_lt mb) (by decide)
      (by decide) (by decide) (by decide), fun st hst => ?_⟩
    have F := loFields (M := 11) (m := 6) (d := d.code) (a := a.code) (b := b.code) (t := t.code) (r := 0) (l := 1)
      (hiNat (ma.code) (mb.code) (0) (0) (0) (0)) (by decide) (by decide) (dst_lt d) (src_lt a) (src_lt b) (ty_lt t)
      (by decide) (by decide) hst
    have H := hiFields (ma := ma.code) (mb := mb.code) (mc := 0) (c := 0) (t2 := 0) (ext := 0) (lo_lt (M := 11) (m
      := 6) (d := d.code) (a := a.code) (b := b.code) (t := t.code) (r := 0) (l := 1) (by decide) (by decide) (dst_lt
      d) (src_lt a) (src_lt b) (ty_lt t) (by decide) (by decide) hst) (mod_lt ma) (mod_lt mb) (by decide) (by decide)
      (by decide) (by decide)
    rw [← encHi_eq] at F
    generalize encLo 11 6 (d.code) (a.code) (b.code) (t.code) (0) 1 + encHi (ma.code) (mb.code) (0) (0) (0) (0)
      + st = W at F H ⊢
    simp only [decodeSyl, F.major, decVInt, decVab, hi2, isVW, needL, zero, guardOr, dstD, srcA, srcB, F.l, F.major,
      F.minor, F.d, F.a, F.b, F.t, F.r, H.f32_3, H.f35_3, H.f38_26, decTy_code ht, decSrc_code, decDst_code,
      decMod_code, fin_code, bv_code, bool_code]
    rfl

theorem vandn (t : Ty) (d : Dst) (a b : Src) (w : Option (Mod × Mod)) : Statement (.vandn t d a b w) := by
  intro u hw hwf
  have ht : t.isLogic = true := hwf
  rcases w with _ | ⟨ma, mb⟩
  · obtain rfl : encLo 11 7 (d.code) (a.code) (b.code) (t.code) (0) 0 = u := Option.some.inj hw
    refine ⟨fits_lo0 (M := 11) (m := 7) (d := d.code) (a := a.code) (b := b.code) (t := t.code) (r := 0) (by decide)
      (by decide) (dst_lt d) (src_lt a) (src_lt b) (ty_lt t) (by decide), fun st hst => ?_⟩
    have F := loFields0 (M := 11) (m := 7) (d := d.code) (a := a.code) (b := b.code) (t := t.code) (r := 0) (l := 0)
      (by decide) (by decide) (dst_lt d) (src_lt a) (src_lt b) (ty_lt t) (by decide) (by decide) hst
    generalize encLo 11 7 (d.code) (a.code) (b.code) (t.code) (0) 0 + st = W at F ⊢
    simp only [decodeSyl, F.major, decVInt, decVab, hi2, isVW, needL, zero, guardOr, dstD, srcA, srcB, F.l, F.major,
      F.minor, F.d, F.a, F.b, F.t, F.r, decTy_code ht, decSrc_code, decDst_code, decMod_code, fin_code, bv_code,
      bool_code]
    rfl
  · obtain rfl : encLo 11 7 (d.code) (a.code) (b.code) (t.code) (0) 1 + encHi (ma.code) (mb.code) (0) (0) (0) (0) = u
      := Option.some.inj hw
    refine ⟨fits_vw (M := 11) (m := 7) (d := d.code) (a := a.code) (b := b.code) (t := t.code) (r := 0) (by decide)
      (by decide) (dst_lt d) (src_lt a) (src_lt b) (ty_lt t) (by decide) (mod_lt ma) (mod_lt mb) (by decide)
      (by decide) (by decide) (by decide), fun st hst => ?_⟩
    have F := loFields (M := 11) (m := 7) (d := d.code) (a := a.code) (b := b.code) (t := t.code) (r := 0) (l := 1)
      (hiNat (ma.code) (mb.code) (0) (0) (0) (0)) (by decide) (by decide) (dst_lt d) (src_lt a) (src_lt b) (ty_lt t)
      (by decide) (by decide) hst
    have H := hiFields (ma := ma.code) (mb := mb.code) (mc := 0) (c := 0) (t2 := 0) (ext := 0) (lo_lt (M := 11) (m
      := 7) (d := d.code) (a := a.code) (b := b.code) (t := t.code) (r := 0) (l := 1) (by decide) (by decide) (dst_lt
      d) (src_lt a) (src_lt b) (ty_lt t) (by decide) (by decide) hst) (mod_lt ma) (mod_lt mb) (by decide) (by decide)
      (by decide) (by decide)
    rw [← encHi_eq] at F
    generalize encLo 11 7 (d.code) (a.code) (b.code) (t.code) (0) 1 + encHi (ma.code) (mb.code) (0) (0) (0) (0)
      + st = W at F H ⊢
    simp only [decodeSyl, F.major, decVInt, decVab, hi2, isVW, needL, zero, guardOr, dstD, srcA, srcB, F.l, F.major,
      F.minor, F.d, F.a, F.b, F.t, F.r, H.f32_3, H.f35_3, H.f38_26, decTy_code ht, decSrc_code, decDst_code,
      decMod_code, fin_code, bv_code, bool_code]
    rfl

theorem vshl (t : Ty) (d : Dst) (a b : Src) (w : Option (Mod × Mod)) : Statement (.vshl t d a b w) := by
  intro u hw hwf
  have ht : t.isVecInt = true := hwf
  rcases w with _ | ⟨ma, mb⟩
  · obtain rfl : encLo 11 8 (d.code) (a.code) (b.code) (t.code) (0) 0 = u := Option.some.inj hw
    refine ⟨fits_lo0 (M := 11) (m := 8) (d := d.code) (a := a.code) (b := b.code) (t := t.code) (r := 0) (by decide)
      (by decide) (dst_lt d) (src_lt a) (src_lt b) (ty_lt t) (by decide), fun st hst => ?_⟩
    have F := loFields0 (M := 11) (m := 8) (d := d.code) (a := a.code) (b := b.code) (t := t.code) (r := 0) (l := 0)
      (by decide) (by decide) (dst_lt d) (src_lt a) (src_lt b) (ty_lt t) (by decide) (by decide) hst
    generalize encLo 11 8 (d.code) (a.code) (b.code) (t.code) (0) 0 + st = W at F ⊢
    simp only [decodeSyl, F.major, decVInt, decVab, hi2, isVW, needL, zero, guardOr, dstD, srcA, srcB, F.l, F.major,
      F.minor, F.d, F.a, F.b, F.t, F.r, decTy_code ht, decSrc_code, decDst_code, decMod_code, fin_code, bv_code,
      bool_code]
    rfl
  · obtain rfl : encLo 11 8 (d.code) (a.code) (b.code) (t.code) (0) 1 + encHi (ma.code) (mb.code) (0) (0) (0) (0) = u
      := Option.some.inj hw
    refine ⟨fits_vw (M := 11) (m := 8) (d := d.code) (a := a.code) (b := b.code) (t := t.code) (r := 0) (by decide)
      (by decide) (dst_lt d) (src_lt a) (src_lt b) (ty_lt t) (by decide) (mod_lt ma) (mod_lt mb) (by decide)
      (by decide) (by decide) (by decide), fun st hst => ?_⟩
    have F := loFields (M := 11) (m := 8) (d := d.code) (a := a.code) (b := b.code) (t := t.code) (r := 0) (l := 1)
      (hiNat (ma.code) (mb.code) (0) (0) (0) (0)) (by decide) (by decide) (dst_lt d) (src_lt a) (src_lt b) (ty_lt t)
      (by decide) (by decide) hst
    have H := hiFields (ma := ma.code) (mb := mb.code) (mc := 0) (c := 0) (t2 := 0) (ext := 0) (lo_lt (M := 11) (m
      := 8) (d := d.code) (a := a.code) (b := b.code) (t := t.code) (r := 0) (l := 1) (by decide) (by decide) (dst_lt
      d) (src_lt a) (src_lt b) (ty_lt t) (by decide) (by decide) hst) (mod_lt ma) (mod_lt mb) (by decide) (by decide)
      (by decide) (by decide)
    rw [← encHi_eq] at F
    generalize encLo 11 8 (d.code) (a.code) (b.code) (t.code) (0) 1 + encHi (ma.code) (mb.code) (0) (0) (0) (0)
      + st = W at F H ⊢
    simp only [decodeSyl, F.major, decVInt, decVab, hi2, isVW, needL, zero, guardOr, dstD, srcA, srcB, F.l, F.major,
      F.minor, F.d, F.a, F.b, F.t, F.r, H.f32_3, H.f35_3, H.f38_26, decTy_code ht, decSrc_code, decDst_code,
      decMod_code, fin_code, bv_code, bool_code]
    rfl

theorem vshr (t : Ty) (d : Dst) (a b : Src) (w : Option (Mod × Mod)) : Statement (.vshr t d a b w) := by
  intro u hw hwf
  have ht : t.isVecInt = true := hwf
  rcases w with _ | ⟨ma, mb⟩
  · obtain rfl : encLo 11 9 (d.code) (a.code) (b.code) (t.code) (0) 0 = u := Option.some.inj hw
    refine ⟨fits_lo0 (M := 11) (m := 9) (d := d.code) (a := a.code) (b := b.code) (t := t.code) (r := 0) (by decide)
      (by decide) (dst_lt d) (src_lt a) (src_lt b) (ty_lt t) (by decide), fun st hst => ?_⟩
    have F := loFields0 (M := 11) (m := 9) (d := d.code) (a := a.code) (b := b.code) (t := t.code) (r := 0) (l := 0)
      (by decide) (by decide) (dst_lt d) (src_lt a) (src_lt b) (ty_lt t) (by decide) (by decide) hst
    generalize encLo 11 9 (d.code) (a.code) (b.code) (t.code) (0) 0 + st = W at F ⊢
    simp only [decodeSyl, F.major, decVInt, decVab, hi2, isVW, needL, zero, guardOr, dstD, srcA, srcB, F.l, F.major,
      F.minor, F.d, F.a, F.b, F.t, F.r, decTy_code ht, decSrc_code, decDst_code, decMod_code, fin_code, bv_code,
      bool_code]
    rfl
  · obtain rfl : encLo 11 9 (d.code) (a.code) (b.code) (t.code) (0) 1 + encHi (ma.code) (mb.code) (0) (0) (0) (0) = u
      := Option.some.inj hw
    refine ⟨fits_vw (M := 11) (m := 9) (d := d.code) (a := a.code) (b := b.code) (t := t.code) (r := 0) (by decide)
      (by decide) (dst_lt d) (src_lt a) (src_lt b) (ty_lt t) (by decide) (mod_lt ma) (mod_lt mb) (by decide)
      (by decide) (by decide) (by decide), fun st hst => ?_⟩
    have F := loFields (M := 11) (m := 9) (d := d.code) (a := a.code) (b := b.code) (t := t.code) (r := 0) (l := 1)
      (hiNat (ma.code) (mb.code) (0) (0) (0) (0)) (by decide) (by decide) (dst_lt d) (src_lt a) (src_lt b) (ty_lt t)
      (by decide) (by decide) hst
    have H := hiFields (ma := ma.code) (mb := mb.code) (mc := 0) (c := 0) (t2 := 0) (ext := 0) (lo_lt (M := 11) (m
      := 9) (d := d.code) (a := a.code) (b := b.code) (t := t.code) (r := 0) (l := 1) (by decide) (by decide) (dst_lt
      d) (src_lt a) (src_lt b) (ty_lt t) (by decide) (by decide) hst) (mod_lt ma) (mod_lt mb) (by decide) (by decide)
      (by decide) (by decide)
    rw [← encHi_eq] at F
    generalize encLo 11 9 (d.code) (a.code) (b.code) (t.code) (0) 1 + encHi (ma.code) (mb.code) (0) (0) (0) (0)
      + st = W at F H ⊢
    simp only [decodeSyl, F.major, decVInt, decVab, hi2, isVW, needL, zero, guardOr, dstD, srcA, srcB, F.l, F.major,
      F.minor, F.d, F.a, F.b, F.t, F.r, H.f32_3, H.f35_3, H.f38_26, decTy_code ht, decSrc_code, decDst_code,
      decMod_code, fin_code, bv_code, bool_code]
    rfl

theorem vsar (t : Ty) (d : Dst) (a b : Src) (w : Option (Mod × Mod)) : Statement (.vsar t d a b w) := by
  intro u hw hwf
  have ht : t.isVecInt = true := hwf
  rcases w with _ | ⟨ma, mb⟩
  · obtain rfl : encLo 11 10 (d.code) (a.code) (b.code) (t.code) (0) 0 = u := Option.some.inj hw
    refine ⟨fits_lo0 (M := 11) (m := 10) (d := d.code) (a := a.code) (b := b.code) (t := t.code) (r := 0) (by decide)
      (by decide) (dst_lt d) (src_lt a) (src_lt b) (ty_lt t) (by decide), fun st hst => ?_⟩
    have F := loFields0 (M := 11) (m := 10) (d := d.code) (a := a.code) (b := b.code) (t := t.code) (r := 0) (l := 0)
      (by decide) (by decide) (dst_lt d) (src_lt a) (src_lt b) (ty_lt t) (by decide) (by decide) hst
    generalize encLo 11 10 (d.code) (a.code) (b.code) (t.code) (0) 0 + st = W at F ⊢
    simp only [decodeSyl, F.major, decVInt, decVab, hi2, isVW, needL, zero, guardOr, dstD, srcA, srcB, F.l, F.major,
      F.minor, F.d, F.a, F.b, F.t, F.r, decTy_code ht, decSrc_code, decDst_code, decMod_code, fin_code, bv_code,
      bool_code]
    rfl
  · obtain rfl : encLo 11 10 (d.code) (a.code) (b.code) (t.code) (0) 1 + encHi (ma.code) (mb.code) (0) (0) (0) (0) =
      u := Option.some.inj hw
    refine ⟨fits_vw (M := 11) (m := 10) (d := d.code) (a := a.code) (b := b.code) (t := t.code) (r := 0) (by decide)
      (by decide) (dst_lt d) (src_lt a) (src_lt b) (ty_lt t) (by decide) (mod_lt ma) (mod_lt mb) (by decide)
      (by decide) (by decide) (by decide), fun st hst => ?_⟩
    have F := loFields (M := 11) (m := 10) (d := d.code) (a := a.code) (b := b.code) (t := t.code) (r := 0) (l := 1)
      (hiNat (ma.code) (mb.code) (0) (0) (0) (0)) (by decide) (by decide) (dst_lt d) (src_lt a) (src_lt b) (ty_lt t)
      (by decide) (by decide) hst
    have H := hiFields (ma := ma.code) (mb := mb.code) (mc := 0) (c := 0) (t2 := 0) (ext := 0) (lo_lt (M := 11) (m
      := 10) (d := d.code) (a := a.code) (b := b.code) (t := t.code) (r := 0) (l := 1) (by decide) (by decide)
      (dst_lt d) (src_lt a) (src_lt b) (ty_lt t) (by decide) (by decide) hst) (mod_lt ma) (mod_lt mb) (by decide)
      (by decide) (by decide) (by decide)
    rw [← encHi_eq] at F
    generalize encLo 11 10 (d.code) (a.code) (b.code) (t.code) (0) 1 + encHi (ma.code) (mb.code) (0) (0) (0) (0)
      + st = W at F H ⊢
    simp only [decodeSyl, F.major, decVInt, decVab, hi2, isVW, needL, zero, guardOr, dstD, srcA, srcB, F.l, F.major,
      F.minor, F.d, F.a, F.b, F.t, F.r, H.f32_3, H.f35_3, H.f38_26, decTy_code ht, decSrc_code, decDst_code,
      decMod_code, fin_code, bv_code, bool_code]
    rfl

theorem vminI (t : Ty) (d : Dst) (a b : Src) (w : Option (Mod × Mod)) : Statement (.vminI t d a b w) := by
  intro u hw hwf
  have ht : t.isVecInt = true := hwf
  rcases w with _ | ⟨ma, mb⟩
  · obtain rfl : encLo 11 11 (d.code) (a.code) (b.code) (t.code) (0) 0 = u := Option.some.inj hw
    refine ⟨fits_lo0 (M := 11) (m := 11) (d := d.code) (a := a.code) (b := b.code) (t := t.code) (r := 0) (by decide)
      (by decide) (dst_lt d) (src_lt a) (src_lt b) (ty_lt t) (by decide), fun st hst => ?_⟩
    have F := loFields0 (M := 11) (m := 11) (d := d.code) (a := a.code) (b := b.code) (t := t.code) (r := 0) (l := 0)
      (by decide) (by decide) (dst_lt d) (src_lt a) (src_lt b) (ty_lt t) (by decide) (by decide) hst
    generalize encLo 11 11 (d.code) (a.code) (b.code) (t.code) (0) 0 + st = W at F ⊢
    simp only [decodeSyl, F.major, decVInt, decVab, hi2, isVW, needL, zero, guardOr, dstD, srcA, srcB, F.l, F.major,
      F.minor, F.d, F.a, F.b, F.t, F.r, decTy_code ht, decSrc_code, decDst_code, decMod_code, fin_code, bv_code,
      bool_code]
    rfl
  · obtain rfl : encLo 11 11 (d.code) (a.code) (b.code) (t.code) (0) 1 + encHi (ma.code) (mb.code) (0) (0) (0) (0) =
      u := Option.some.inj hw
    refine ⟨fits_vw (M := 11) (m := 11) (d := d.code) (a := a.code) (b := b.code) (t := t.code) (r := 0) (by decide)
      (by decide) (dst_lt d) (src_lt a) (src_lt b) (ty_lt t) (by decide) (mod_lt ma) (mod_lt mb) (by decide)
      (by decide) (by decide) (by decide), fun st hst => ?_⟩
    have F := loFields (M := 11) (m := 11) (d := d.code) (a := a.code) (b := b.code) (t := t.code) (r := 0) (l := 1)
      (hiNat (ma.code) (mb.code) (0) (0) (0) (0)) (by decide) (by decide) (dst_lt d) (src_lt a) (src_lt b) (ty_lt t)
      (by decide) (by decide) hst
    have H := hiFields (ma := ma.code) (mb := mb.code) (mc := 0) (c := 0) (t2 := 0) (ext := 0) (lo_lt (M := 11) (m
      := 11) (d := d.code) (a := a.code) (b := b.code) (t := t.code) (r := 0) (l := 1) (by decide) (by decide)
      (dst_lt d) (src_lt a) (src_lt b) (ty_lt t) (by decide) (by decide) hst) (mod_lt ma) (mod_lt mb) (by decide)
      (by decide) (by decide) (by decide)
    rw [← encHi_eq] at F
    generalize encLo 11 11 (d.code) (a.code) (b.code) (t.code) (0) 1 + encHi (ma.code) (mb.code) (0) (0) (0) (0)
      + st = W at F H ⊢
    simp only [decodeSyl, F.major, decVInt, decVab, hi2, isVW, needL, zero, guardOr, dstD, srcA, srcB, F.l, F.major,
      F.minor, F.d, F.a, F.b, F.t, F.r, H.f32_3, H.f35_3, H.f38_26, decTy_code ht, decSrc_code, decDst_code,
      decMod_code, fin_code, bv_code, bool_code]
    rfl

theorem vmaxI (t : Ty) (d : Dst) (a b : Src) (w : Option (Mod × Mod)) : Statement (.vmaxI t d a b w) := by
  intro u hw hwf
  have ht : t.isVecInt = true := hwf
  rcases w with _ | ⟨ma, mb⟩
  · obtain rfl : encLo 11 12 (d.code) (a.code) (b.code) (t.code) (0) 0 = u := Option.some.inj hw
    refine ⟨fits_lo0 (M := 11) (m := 12) (d := d.code) (a := a.code) (b := b.code) (t := t.code) (r := 0) (by decide)
      (by decide) (dst_lt d) (src_lt a) (src_lt b) (ty_lt t) (by decide), fun st hst => ?_⟩
    have F := loFields0 (M := 11) (m := 12) (d := d.code) (a := a.code) (b := b.code) (t := t.code) (r := 0) (l := 0)
      (by decide) (by decide) (dst_lt d) (src_lt a) (src_lt b) (ty_lt t) (by decide) (by decide) hst
    generalize encLo 11 12 (d.code) (a.code) (b.code) (t.code) (0) 0 + st = W at F ⊢
    simp only [decodeSyl, F.major, decVInt, decVab, hi2, isVW, needL, zero, guardOr, dstD, srcA, srcB, F.l, F.major,
      F.minor, F.d, F.a, F.b, F.t, F.r, decTy_code ht, decSrc_code, decDst_code, decMod_code, fin_code, bv_code,
      bool_code]
    rfl
  · obtain rfl : encLo 11 12 (d.code) (a.code) (b.code) (t.code) (0) 1 + encHi (ma.code) (mb.code) (0) (0) (0) (0) =
      u := Option.some.inj hw
    refine ⟨fits_vw (M := 11) (m := 12) (d := d.code) (a := a.code) (b := b.code) (t := t.code) (r := 0) (by decide)
      (by decide) (dst_lt d) (src_lt a) (src_lt b) (ty_lt t) (by decide) (mod_lt ma) (mod_lt mb) (by decide)
      (by decide) (by decide) (by decide), fun st hst => ?_⟩
    have F := loFields (M := 11) (m := 12) (d := d.code) (a := a.code) (b := b.code) (t := t.code) (r := 0) (l := 1)
      (hiNat (ma.code) (mb.code) (0) (0) (0) (0)) (by decide) (by decide) (dst_lt d) (src_lt a) (src_lt b) (ty_lt t)
      (by decide) (by decide) hst
    have H := hiFields (ma := ma.code) (mb := mb.code) (mc := 0) (c := 0) (t2 := 0) (ext := 0) (lo_lt (M := 11) (m
      := 12) (d := d.code) (a := a.code) (b := b.code) (t := t.code) (r := 0) (l := 1) (by decide) (by decide)
      (dst_lt d) (src_lt a) (src_lt b) (ty_lt t) (by decide) (by decide) hst) (mod_lt ma) (mod_lt mb) (by decide)
      (by decide) (by decide) (by decide)
    rw [← encHi_eq] at F
    generalize encLo 11 12 (d.code) (a.code) (b.code) (t.code) (0) 1 + encHi (ma.code) (mb.code) (0) (0) (0) (0)
      + st = W at F H ⊢
    simp only [decodeSyl, F.major, decVInt, decVab, hi2, isVW, needL, zero, guardOr, dstD, srcA, srcB, F.l, F.major,
      F.minor, F.d, F.a, F.b, F.t, F.r, H.f32_3, H.f35_3, H.f38_26, decTy_code ht, decSrc_code, decDst_code,
      decMod_code, fin_code, bv_code, bool_code]
    rfl

theorem vabsI (t : Ty) (d : Dst) (a : Src) (w : Option Mod) : Statement (.vabsI t d a w) := by
  intro u hw hwf
  have ht : t.isVecInt = true := hwf
  rcases w with _ | ma
  · obtain rfl : encLo 11 13 (d.code) (a.code) (0) (t.code) (0) 0 = u := Option.some.inj hw
    refine ⟨fits_lo0 (M := 11) (m := 13) (d := d.code) (a := a.code) (b := 0) (t := t.code) (r := 0) (by decide)
      (by decide) (dst_lt d) (src_lt a) (by decide) (ty_lt t) (by decide), fun st hst => ?_⟩
    have F := loFields0 (M := 11) (m := 13) (d := d.code) (a := a.code) (b := 0) (t := t.code) (r := 0) (l := 0)
      (by decide) (by decide) (dst_lt d) (src_lt a) (by decide) (ty_lt t) (by decide) (by decide) hst
    generalize encLo 11 13 (d.code) (a.code) (0) (t.code) (0) 0 + st = W at F ⊢
    simp only [decodeSyl, F.major, decVInt, decVa, hi1, isVW, needL, zero, guardOr, dstD, srcA, srcB, F.l, F.major,
      F.minor, F.d, F.a, F.b, F.t, F.r, decTy_code ht, decSrc_code, decDst_code, decMod_code, fin_code, bv_code,
      bool_code]
    rfl
  · obtain rfl : encLo 11 13 (d.code) (a.code) (0) (t.code) (0) 1 + encHi (ma.code) (0) (0) (0) (0) (0) = u
      := Option.some.inj hw
    refine ⟨fits_vw (M := 11) (m := 13) (d := d.code) (a := a.code) (b := 0) (t := t.code) (r := 0) (by decide)
      (by decide) (dst_lt d) (src_lt a) (by decide) (ty_lt t) (by decide) (mod_lt ma) (by decide) (by decide)
      (by decide) (by decide) (by decide), fun st hst => ?_⟩
    have F := loFields (M := 11) (m := 13) (d := d.code) (a := a.code) (b := 0) (t := t.code) (r := 0) (l := 1)
      (hiNat (ma.code) (0) (0) (0) (0) (0)) (by decide) (by decide) (dst_lt d) (src_lt a) (by decide) (ty_lt t)
      (by decide) (by decide) hst
    have H := hiFields (ma := ma.code) (mb := 0) (mc := 0) (c := 0) (t2 := 0) (ext := 0) (lo_lt (M := 11) (m := 13)
      (d := d.code) (a := a.code) (b := 0) (t := t.code) (r := 0) (l := 1) (by decide) (by decide) (dst_lt d) (src_lt
      a) (by decide) (ty_lt t) (by decide) (by decide) hst) (mod_lt ma) (by decide) (by decide) (by decide)
      (by decide) (by decide)
    rw [← encHi_eq] at F
    generalize encLo 11 13 (d.code) (a.code) (0) (t.code) (0) 1 + encHi (ma.code) (0) (0) (0) (0) (0) + st = W
      at F H ⊢
    simp only [decodeSyl, F.major, decVInt, decVa, hi1, isVW, needL, zero, guardOr, dstD, srcA, srcB, F.l, F.major,
      F.minor, F.d, F.a, F.b, F.t, F.r, H.f32_3, H.f35_29, decTy_code ht, decSrc_code, decDst_code, decMod_code,
      fin_code, bv_code, bool_code]
    rfl

theorem vnegI (t : Ty) (d : Dst) (a : Src) (w : Option Mod) : Statement (.vnegI t d a w) := by
  intro u hw hwf
  have ht : t.isVecInt = true := hwf
  rcases w with _ | ma
  · obtain rfl : encLo 11 14 (d.code) (a.code) (0) (t.code) (0) 0 = u := Option.some.inj hw
    refine ⟨fits_lo0 (M := 11) (m := 14) (d := d.code) (a := a.code) (b := 0) (t := t.code) (r := 0) (by decide)
      (by decide) (dst_lt d) (src_lt a) (by decide) (ty_lt t) (by decide), fun st hst => ?_⟩
    have F := loFields0 (M := 11) (m := 14) (d := d.code) (a := a.code) (b := 0) (t := t.code) (r := 0) (l := 0)
      (by decide) (by decide) (dst_lt d) (src_lt a) (by decide) (ty_lt t) (by decide) (by decide) hst
    generalize encLo 11 14 (d.code) (a.code) (0) (t.code) (0) 0 + st = W at F ⊢
    simp only [decodeSyl, F.major, decVInt, decVa, hi1, isVW, needL, zero, guardOr, dstD, srcA, srcB, F.l, F.major,
      F.minor, F.d, F.a, F.b, F.t, F.r, decTy_code ht, decSrc_code, decDst_code, decMod_code, fin_code, bv_code,
      bool_code]
    rfl
  · obtain rfl : encLo 11 14 (d.code) (a.code) (0) (t.code) (0) 1 + encHi (ma.code) (0) (0) (0) (0) (0) = u
      := Option.some.inj hw
    refine ⟨fits_vw (M := 11) (m := 14) (d := d.code) (a := a.code) (b := 0) (t := t.code) (r := 0) (by decide)
      (by decide) (dst_lt d) (src_lt a) (by decide) (ty_lt t) (by decide) (mod_lt ma) (by decide) (by decide)
      (by decide) (by decide) (by decide), fun st hst => ?_⟩
    have F := loFields (M := 11) (m := 14) (d := d.code) (a := a.code) (b := 0) (t := t.code) (r := 0) (l := 1)
      (hiNat (ma.code) (0) (0) (0) (0) (0)) (by decide) (by decide) (dst_lt d) (src_lt a) (by decide) (ty_lt t)
      (by decide) (by decide) hst
    have H := hiFields (ma := ma.code) (mb := 0) (mc := 0) (c := 0) (t2 := 0) (ext := 0) (lo_lt (M := 11) (m := 14)
      (d := d.code) (a := a.code) (b := 0) (t := t.code) (r := 0) (l := 1) (by decide) (by decide) (dst_lt d) (src_lt
      a) (by decide) (ty_lt t) (by decide) (by decide) hst) (mod_lt ma) (by decide) (by decide) (by decide)
      (by decide) (by decide)
    rw [← encHi_eq] at F
    generalize encLo 11 14 (d.code) (a.code) (0) (t.code) (0) 1 + encHi (ma.code) (0) (0) (0) (0) (0) + st = W
      at F H ⊢
    simp only [decodeSyl, F.major, decVInt, decVa, hi1, isVW, needL, zero, guardOr, dstD, srcA, srcB, F.l, F.major,
      F.minor, F.d, F.a, F.b, F.t, F.r, H.f32_3, H.f35_29, decTy_code ht, decSrc_code, decDst_code, decMod_code,
      fin_code, bv_code, bool_code]
    rfl

theorem vsel (d : Dst) (c a b : Src) (w : Option (Mod × Mod × Mod)) : Statement (.vsel d c a b w) := by
  intro u hw hwf
  rcases w with _ | ⟨ma, mb, mc⟩
  · obtain rfl : encLo 11 15 (d.code) (a.code) (b.code) (c.code % 16) (c.code / 16) 0 = u := Option.some.inj hw
    refine ⟨fits_lo0 (M := 11) (m := 15) (d := d.code) (a := a.code) (b := b.code) (t := c.code % 16) (r := c.code /
      16) (by decide) (by decide) (dst_lt d) (src_lt a) (src_lt b) (Nat.mod_lt _ (by decide)) (code_div c), fun st
      hst => ?_⟩
    have F := loFields0 (M := 11) (m := 15) (d := d.code) (a := a.code) (b := b.code) (t := c.code % 16) (r := c.code
      / 16) (l := 0) (by decide) (by decide) (dst_lt d) (src_lt a) (src_lt b) (Nat.mod_lt _ (by decide)) (code_div c)
      (by decide) hst
    have G := loSpans0 (M := 11) (m := 15) (d := d.code) (a := a.code) (b := b.code) (t := c.code % 16) (r := c.code
      / 16) (l := 0) (by decide) (by decide) (dst_lt d) (src_lt a) (src_lt b) (Nat.mod_lt _ (by decide)) (code_div c)
      (by decide) hst
    generalize encLo 11 15 (d.code) (a.code) (b.code) (c.code % 16) (c.code / 16) 0 + st = W at F G ⊢
    simp only [decodeSyl, F.major, decVInt, isVW, needL, zero, guardOr, dstD, srcA, srcB, F.l, F.major, F.minor, F.d,
      F.a, F.b, F.t, F.r, G.s27_5, Nat.mod_add_div, decSrc_code, decDst_code, decMod_code, fin_code, bv_code,
      bool_code]
    rfl
  · obtain rfl : encLo 11 15 (d.code) (a.code) (b.code) (c.code % 16) (c.code / 16) 1 + encHi (ma.code) (mb.code)
      (mc.code) (0) (0) (0) = u := Option.some.inj hw
    refine ⟨fits_vw (M := 11) (m := 15) (d := d.code) (a := a.code) (b := b.code) (t := c.code % 16) (r := c.code /
      16) (by decide) (by decide) (dst_lt d) (src_lt a) (src_lt b) (Nat.mod_lt _ (by decide)) (code_div c) (mod_lt
      ma) (mod_lt mb) (mod_lt mc) (by decide) (by decide) (by decide), fun st hst => ?_⟩
    have F := loFields (M := 11) (m := 15) (d := d.code) (a := a.code) (b := b.code) (t := c.code % 16) (r := c.code
      / 16) (l := 1) (hiNat (ma.code) (mb.code) (mc.code) (0) (0) (0)) (by decide) (by decide) (dst_lt d) (src_lt a)
      (src_lt b) (Nat.mod_lt _ (by decide)) (code_div c) (by decide) hst
    have G := loSpans (M := 11) (m := 15) (d := d.code) (a := a.code) (b := b.code) (t := c.code % 16) (r := c.code /
      16) (l := 1) (hiNat (ma.code) (mb.code) (mc.code) (0) (0) (0)) (by decide) (by decide) (dst_lt d) (src_lt a)
      (src_lt b) (Nat.mod_lt _ (by decide)) (code_div c) (by decide) hst
    have H := hiFields (ma := ma.code) (mb := mb.code) (mc := mc.code) (c := 0) (t2 := 0) (ext := 0) (lo_lt (M := 11)
      (m := 15) (d := d.code) (a := a.code) (b := b.code) (t := c.code % 16) (r := c.code / 16) (l := 1) (by decide)
      (by decide) (dst_lt d) (src_lt a) (src_lt b) (Nat.mod_lt _ (by decide)) (code_div c) (by decide) hst) (mod_lt
      ma) (mod_lt mb) (mod_lt mc) (by decide) (by decide) (by decide)
    rw [← encHi_eq] at F G
    generalize encLo 11 15 (d.code) (a.code) (b.code) (c.code % 16) (c.code / 16) 1
      + encHi (ma.code) (mb.code) (mc.code) (0) (0) (0) + st = W at F G H ⊢
    simp only [decodeSyl, F.major, decVInt, isVW, needL, zero, guardOr, dstD, srcA, srcB, F.l, F.major, F.minor, F.d,
      F.a, F.b, F.t, F.r, H.f32_3, H.f35_3, H.f38_3, H.f41_23, G.s27_5, Nat.mod_add_div, decSrc_code, decDst_code,
      decMod_code, fin_code, bv_code, bool_code]
    rfl

theorem vmov (d : Dst) (a : Src) (w : Option Mod) : Statement (.vmov d a w) := by
  intro u hw hwf
  rcases w with _ | ma
  · obtain rfl : encLo 11 16 (d.code) (a.code) (0) (0) (0) 0 = u := Option.some.inj hw
    refine ⟨fits_lo0 (M := 11) (m := 16) (d := d.code) (a := a.code) (b := 0) (t := 0) (r := 0) (by decide)
      (by decide) (dst_lt d) (src_lt a) (by decide) (by decide) (by decide), fun st hst => ?_⟩
    have F := loFields0 (M := 11) (m := 16) (d := d.code) (a := a.code) (b := 0) (t := 0) (r := 0) (l := 0)
      (by decide) (by decide) (dst_lt d) (src_lt a) (by decide) (by decide) (by decide) (by decide) hst
    have G := loSpans0 (M := 11) (m := 16) (d := d.code) (a := a.code) (b := 0) (t := 0) (r := 0) (l := 0)
      (by decide) (by decide) (dst_lt d) (src_lt a) (by decide) (by decide) (by decide) (by decide) hst
    generalize encLo 11 16 (d.code) (a.code) (0) (0) (0) 0 + st = W at F G ⊢
    simp only [decodeSyl, F.major, decVInt, hi1, isVW, needL, zero, guardOr, dstD, srcA, srcB, F.l, F.major, F.minor,
      F.d, F.a, F.b, F.t, F.r, G.s22_10, decSrc_code, decDst_code, decMod_code, fin_code, bv_code, bool_code]
    rfl
  · obtain rfl : encLo 11 16 (d.code) (a.code) (0) (0) (0) 1 + encHi (ma.code) (0) (0) (0) (0) (0) = u
      := Option.some.inj hw
    refine ⟨fits_vw (M := 11) (m := 16) (d := d.code) (a := a.code) (b := 0) (t := 0) (r := 0) (by decide)
      (by decide) (dst_lt d) (src_lt a) (by decide) (by decide) (by decide) (mod_lt ma) (by decide) (by decide)
      (by decide) (by decide) (by decide), fun st hst => ?_⟩
    have F := loFields (M := 11) (m := 16) (d := d.code) (a := a.code) (b := 0) (t := 0) (r := 0) (l := 1) (hiNat
      (ma.code) (0) (0) (0) (0) (0)) (by decide) (by decide) (dst_lt d) (src_lt a) (by decide) (by decide)
      (by decide) (by decide) hst
    have G := loSpans (M := 11) (m := 16) (d := d.code) (a := a.code) (b := 0) (t := 0) (r := 0) (l := 1) (hiNat
      (ma.code) (0) (0) (0) (0) (0)) (by decide) (by decide) (dst_lt d) (src_lt a) (by decide) (by decide)
      (by decide) (by decide) hst
    have H := hiFields (ma := ma.code) (mb := 0) (mc := 0) (c := 0) (t2 := 0) (ext := 0) (lo_lt (M := 11) (m := 16)
      (d := d.code) (a := a.code) (b := 0) (t := 0) (r := 0) (l := 1) (by decide) (by decide) (dst_lt d) (src_lt a)
      (by decide) (by decide) (by decide) (by decide) hst) (mod_lt ma) (by decide) (by decide) (by decide)
      (by decide) (by decide)
    rw [← encHi_eq] at F G
    generalize encLo 11 16 (d.code) (a.code) (0) (0) (0) 1 + encHi (ma.code) (0) (0) (0) (0) (0) + st = W at F G H ⊢
    simp only [decodeSyl, F.major, decVInt, hi1, isVW, needL, zero, guardOr, dstD, srcA, srcB, F.l, F.major, F.minor,
      F.d, F.a, F.b, F.t, F.r, H.f32_3, H.f35_29, G.s22_10, decSrc_code, decDst_code, decMod_code, fin_code, bv_code,
      bool_code]
    rfl

theorem vbcast (t : Ty) (d : Dst) (a : Src) (wide : Bool) : Statement (.vbcast t d a wide) := by
  intro w hw hwf
  have ht : t.isLogic = true := hwf
  cases wide
  · obtain rfl : encLo 11 17 (d.code) (a.code) (0) (t.code) (0) 0 = w := Option.some.inj hw
    refine ⟨fits_lo0 (M := 11) (m := 17) (d := d.code) (a := a.code) (b := 0) (t := t.code) (r := 0) (by decide)
      (by decide) (dst_lt d) (src_lt a) (by decide) (ty_lt t) (by decide), fun st hst => ?_⟩
    have F := loFields0 (M := 11) (m := 17) (d := d.code) (a := a.code) (b := 0) (t := t.code) (r := 0) (l := 0)
      (by decide) (by decide) (dst_lt d) (src_lt a) (by decide) (ty_lt t) (by decide) (by decide) hst
    generalize encLo 11 17 (d.code) (a.code) (0) (t.code) (0) 0 + st = W at F ⊢
    simp only [decodeSyl, F.major, decVInt, hi0, isVW, needL, zero, guardOr, dstD, srcA, srcB, F.l, F.major, F.minor,
      F.d, F.a, F.b, F.t, F.r, decTy_code ht, decSrc_code, decDst_code, decMod_code, fin_code, bv_code, bool_code]
    rfl
  · obtain rfl : encLo 11 17 (d.code) (a.code) (0) (t.code) (0) 1 = w := Option.some.inj hw
    refine ⟨fits_lo1 (M := 11) (m := 17) (d := d.code) (a := a.code) (b := 0) (t := t.code) (r := 0) (by decide)
      (by decide) (dst_lt d) (src_lt a) (by decide) (ty_lt t) (by decide), fun st hst => ?_⟩
    have F := loFields0 (M := 11) (m := 17) (d := d.code) (a := a.code) (b := 0) (t := t.code) (r := 0) (l := 1)
      (by decide) (by decide) (dst_lt d) (src_lt a) (by decide) (ty_lt t) (by decide) (by decide) hst
    have H := hi_zero (lo_lt (M := 11) (m := 17) (d := d.code) (a := a.code) (b := 0) (t := t.code) (r := 0) (l := 1)
      (by decide) (by decide) (dst_lt d) (src_lt a) (by decide) (ty_lt t) (by decide) (by decide) hst)
    generalize encLo 11 17 (d.code) (a.code) (0) (t.code) (0) 1 + st = W at F H ⊢
    simp only [decodeSyl, F.major, decVInt, hi0, isVW, needL, zero, guardOr, dstD, srcA, srcB, F.l, F.major, F.minor,
      F.d, F.a, F.b, F.t, F.r, H, decTy_code ht, decSrc_code, decDst_code, decMod_code, fin_code, bv_code, bool_code]
    rfl

theorem vceq (t : Ty) (d : Dst) (a b : Src) (w : Option (Mod × Mod)) : Statement (.vceq t d a b w) := by
  intro u hw hwf
  have ht : t.isCode0to9 = true := hwf
  rcases w with _ | ⟨ma, mb⟩
  · obtain rfl : encLo 12 0 (d.code) (a.code) (b.code) (t.code) (0) 0 = u := Option.some.inj hw
    refine ⟨fits_lo0 (M := 12) (m := 0) (d := d.code) (a := a.code) (b := b.code) (t := t.code) (r := 0) (by decide)
      (by decide) (dst_lt d) (src_lt a) (src_lt b) (ty_lt t) (by decide), fun st hst => ?_⟩
    have F := loFields0 (M := 12) (m := 0) (d := d.code) (a := a.code) (b := b.code) (t := t.code) (r := 0) (l := 0)
      (by decide) (by decide) (dst_lt d) (src_lt a) (src_lt b) (ty_lt t) (by decide) (by decide) hst
    generalize encLo 12 0 (d.code) (a.code) (b.code) (t.code) (0) 0 + st = W at F ⊢
    simp only [decodeSyl, F.major, decVCmp, decVab, hi2, isVW, needL, zero, guardOr, dstD, srcA, srcB, F.l, F.major,
      F.minor, F.d, F.a, F.b, F.t, F.r, decTy_code ht, decSrc_code, decDst_code, decMod_code, fin_code, bv_code,
      bool_code]
    rfl
  · obtain rfl : encLo 12 0 (d.code) (a.code) (b.code) (t.code) (0) 1 + encHi (ma.code) (mb.code) (0) (0) (0) (0) = u
      := Option.some.inj hw
    refine ⟨fits_vw (M := 12) (m := 0) (d := d.code) (a := a.code) (b := b.code) (t := t.code) (r := 0) (by decide)
      (by decide) (dst_lt d) (src_lt a) (src_lt b) (ty_lt t) (by decide) (mod_lt ma) (mod_lt mb) (by decide)
      (by decide) (by decide) (by decide), fun st hst => ?_⟩
    have F := loFields (M := 12) (m := 0) (d := d.code) (a := a.code) (b := b.code) (t := t.code) (r := 0) (l := 1)
      (hiNat (ma.code) (mb.code) (0) (0) (0) (0)) (by decide) (by decide) (dst_lt d) (src_lt a) (src_lt b) (ty_lt t)
      (by decide) (by decide) hst
    have H := hiFields (ma := ma.code) (mb := mb.code) (mc := 0) (c := 0) (t2 := 0) (ext := 0) (lo_lt (M := 12) (m
      := 0) (d := d.code) (a := a.code) (b := b.code) (t := t.code) (r := 0) (l := 1) (by decide) (by decide) (dst_lt
      d) (src_lt a) (src_lt b) (ty_lt t) (by decide) (by decide) hst) (mod_lt ma) (mod_lt mb) (by decide) (by decide)
      (by decide) (by decide)
    rw [← encHi_eq] at F
    generalize encLo 12 0 (d.code) (a.code) (b.code) (t.code) (0) 1 + encHi (ma.code) (mb.code) (0) (0) (0) (0)
      + st = W at F H ⊢
    simp only [decodeSyl, F.major, decVCmp, decVab, hi2, isVW, needL, zero, guardOr, dstD, srcA, srcB, F.l, F.major,
      F.minor, F.d, F.a, F.b, F.t, F.r, H.f32_3, H.f35_3, H.f38_26, decTy_code ht, decSrc_code, decDst_code,
      decMod_code, fin_code, bv_code, bool_code]
    rfl

theorem vcne (t : Ty) (d : Dst) (a b : Src) (w : Option (Mod × Mod)) : Statement (.vcne t d a b w) := by
  intro u hw hwf
  have ht : t.isCode0to9 = true := hwf
  rcases w with _ | ⟨ma, mb⟩
  · obtain rfl : encLo 12 1 (d.code) (a.code) (b.code) (t.code) (0) 0 = u := Option.some.inj hw
    refine ⟨fits_lo0 (M := 12) (m := 1) (d := d.code) (a := a.code) (b := b.code) (t := t.code) (r := 0) (by decide)
      (by decide) (dst_lt d) (src_lt a) (src_lt b) (ty_lt t) (by decide), fun st hst => ?_⟩
    have F := loFields0 (M := 12) (m := 1) (d := d.code) (a := a.code) (b := b.code) (t := t.code) (r := 0) (l := 0)
      (by decide) (by decide) (dst_lt d) (src_lt a) (src_lt b) (ty_lt t) (by decide) (by decide) hst
    generalize encLo 12 1 (d.code) (a.code) (b.code) (t.code) (0) 0 + st = W at F ⊢
    simp only [decodeSyl, F.major, decVCmp, decVab, hi2, isVW, needL, zero, guardOr, dstD, srcA, srcB, F.l, F.major,
      F.minor, F.d, F.a, F.b, F.t, F.r, decTy_code ht, decSrc_code, decDst_code, decMod_code, fin_code, bv_code,
      bool_code]
    rfl
  · obtain rfl : encLo 12 1 (d.code) (a.code) (b.code) (t.code) (0) 1 + encHi (ma.code) (mb.code) (0) (0) (0) (0) = u
      := Option.some.inj hw
    refine ⟨fits_vw (M := 12) (m := 1) (d := d.code) (a := a.code) (b := b.code) (t := t.code) (r := 0) (by decide)
      (by decide) (dst_lt d) (src_lt a) (src_lt b) (ty_lt t) (by decide) (mod_lt ma) (mod_lt mb) (by decide)
      (by decide) (by decide) (by decide), fun st hst => ?_⟩
    have F := loFields (M := 12) (m := 1) (d := d.code) (a := a.code) (b := b.code) (t := t.code) (r := 0) (l := 1)
      (hiNat (ma.code) (mb.code) (0) (0) (0) (0)) (by decide) (by decide) (dst_lt d) (src_lt a) (src_lt b) (ty_lt t)
      (by decide) (by decide) hst
    have H := hiFields (ma := ma.code) (mb := mb.code) (mc := 0) (c := 0) (t2 := 0) (ext := 0) (lo_lt (M := 12) (m
      := 1) (d := d.code) (a := a.code) (b := b.code) (t := t.code) (r := 0) (l := 1) (by decide) (by decide) (dst_lt
      d) (src_lt a) (src_lt b) (ty_lt t) (by decide) (by decide) hst) (mod_lt ma) (mod_lt mb) (by decide) (by decide)
      (by decide) (by decide)
    rw [← encHi_eq] at F
    generalize encLo 12 1 (d.code) (a.code) (b.code) (t.code) (0) 1 + encHi (ma.code) (mb.code) (0) (0) (0) (0)
      + st = W at F H ⊢
    simp only [decodeSyl, F.major, decVCmp, decVab, hi2, isVW, needL, zero, guardOr, dstD, srcA, srcB, F.l, F.major,
      F.minor, F.d, F.a, F.b, F.t, F.r, H.f32_3, H.f35_3, H.f38_26, decTy_code ht, decSrc_code, decDst_code,
      decMod_code, fin_code, bv_code, bool_code]
    rfl

theorem vclt (t : Ty) (d : Dst) (a b : Src) (w : Option (Mod × Mod)) : Statement (.vclt t d a b w) := by
  intro u hw hwf
  have ht : t.isCode0to9 = true := hwf
  rcases w with _ | ⟨ma, mb⟩
  · obtain rfl : encLo 12 2 (d.code) (a.code) (b.code) (t.code) (0) 0 = u := Option.some.inj hw
    refine ⟨fits_lo0 (M := 12) (m := 2) (d := d.code) (a := a.code) (b := b.code) (t := t.code) (r := 0) (by decide)
      (by decide) (dst_lt d) (src_lt a) (src_lt b) (ty_lt t) (by decide), fun st hst => ?_⟩
    have F := loFields0 (M := 12) (m := 2) (d := d.code) (a := a.code) (b := b.code) (t := t.code) (r := 0) (l := 0)
      (by decide) (by decide) (dst_lt d) (src_lt a) (src_lt b) (ty_lt t) (by decide) (by decide) hst
    generalize encLo 12 2 (d.code) (a.code) (b.code) (t.code) (0) 0 + st = W at F ⊢
    simp only [decodeSyl, F.major, decVCmp, decVab, hi2, isVW, needL, zero, guardOr, dstD, srcA, srcB, F.l, F.major,
      F.minor, F.d, F.a, F.b, F.t, F.r, decTy_code ht, decSrc_code, decDst_code, decMod_code, fin_code, bv_code,
      bool_code]
    rfl
  · obtain rfl : encLo 12 2 (d.code) (a.code) (b.code) (t.code) (0) 1 + encHi (ma.code) (mb.code) (0) (0) (0) (0) = u
      := Option.some.inj hw
    refine ⟨fits_vw (M := 12) (m := 2) (d := d.code) (a := a.code) (b := b.code) (t := t.code) (r := 0) (by decide)
      (by decide) (dst_lt d) (src_lt a) (src_lt b) (ty_lt t) (by decide) (mod_lt ma) (mod_lt mb) (by decide)
      (by decide) (by decide) (by decide), fun st hst => ?_⟩
    have F := loFields (M := 12) (m := 2) (d := d.code) (a := a.code) (b := b.code) (t := t.code) (r := 0) (l := 1)
      (hiNat (ma.code) (mb.code) (0) (0) (0) (0)) (by decide) (by decide) (dst_lt d) (src_lt a) (src_lt b) (ty_lt t)
      (by decide) (by decide) hst
    have H := hiFields (ma := ma.code) (mb := mb.code) (mc := 0) (c := 0) (t2 := 0) (ext := 0) (lo_lt (M := 12) (m
      := 2) (d := d.code) (a := a.code) (b := b.code) (t := t.code) (r := 0) (l := 1) (by decide) (by decide) (dst_lt
      d) (src_lt a) (src_lt b) (ty_lt t) (by decide) (by decide) hst) (mod_lt ma) (mod_lt mb) (by decide) (by decide)
      (by decide) (by decide)
    rw [← encHi_eq] at F
    generalize encLo 12 2 (d.code) (a.code) (b.code) (t.code) (0) 1 + encHi (ma.code) (mb.code) (0) (0) (0) (0)
      + st = W at F H ⊢
    simp only [decodeSyl, F.major, decVCmp, decVab, hi2, isVW, needL, zero, guardOr, dstD, srcA, srcB, F.l, F.major,
      F.minor, F.d, F.a, F.b, F.t, F.r, H.f32_3, H.f35_3, H.f38_26, decTy_code ht, decSrc_code, decDst_code,
      decMod_code, fin_code, bv_code, bool_code]
    rfl

theorem vcle (t : Ty) (d : Dst) (a b : Src) (w : Option (Mod × Mod)) : Statement (.vcle t d a b w) := by
  intro u hw hwf
  have ht : t.isCode0to9 = true := hwf
  rcases w with _ | ⟨ma, mb⟩
  · obtain rfl : encLo 12 3 (d.code) (a.code) (b.code) (t.code) (0) 0 = u := Option.some.inj hw
    refine ⟨fits_lo0 (M := 12) (m := 3) (d := d.code) (a := a.code) (b := b.code) (t := t.code) (r := 0) (by decide)
      (by decide) (dst_lt d) (src_lt a) (src_lt b) (ty_lt t) (by decide), fun st hst => ?_⟩
    have F := loFields0 (M := 12) (m := 3) (d := d.code) (a := a.code) (b := b.code) (t := t.code) (r := 0) (l := 0)
      (by decide) (by decide) (dst_lt d) (src_lt a) (src_lt b) (ty_lt t) (by decide) (by decide) hst
    generalize encLo 12 3 (d.code) (a.code) (b.code) (t.code) (0) 0 + st = W at F ⊢
    simp only [decodeSyl, F.major, decVCmp, decVab, hi2, isVW, needL, zero, guardOr, dstD, srcA, srcB, F.l, F.major,
      F.minor, F.d, F.a, F.b, F.t, F.r, decTy_code ht, decSrc_code, decDst_code, decMod_code, fin_code, bv_code,
      bool_code]
    rfl
  · obtain rfl : encLo 12 3 (d.code) (a.code) (b.code) (t.code) (0) 1 + encHi (ma.code) (mb.code) (0) (0) (0) (0) = u
      := Option.some.inj hw
    refine ⟨fits_vw (M := 12) (m := 3) (d := d.code) (a := a.code) (b := b.code) (t := t.code) (r := 0) (by decide)
      (by decide) (dst_lt d) (src_lt a) (src_lt b) (ty_lt t) (by decide) (mod_lt ma) (mod_lt mb) (by decide)
      (by decide) (by decide) (by decide), fun st hst => ?_⟩
    have F := loFields (M := 12) (m := 3) (d := d.code) (a := a.code) (b := b.code) (t := t.code) (r := 0) (l := 1)
      (hiNat (ma.code) (mb.code) (0) (0) (0) (0)) (by decide) (by decide) (dst_lt d) (src_lt a) (src_lt b) (ty_lt t)
      (by decide) (by decide) hst
    have H := hiFields (ma := ma.code) (mb := mb.code) (mc := 0) (c := 0) (t2 := 0) (ext := 0) (lo_lt (M := 12) (m
      := 3) (d := d.code) (a := a.code) (b := b.code) (t := t.code) (r := 0) (l := 1) (by decide) (by decide) (dst_lt
      d) (src_lt a) (src_lt b) (ty_lt t) (by decide) (by decide) hst) (mod_lt ma) (mod_lt mb) (by decide) (by decide)
      (by decide) (by decide)
    rw [← encHi_eq] at F
    generalize encLo 12 3 (d.code) (a.code) (b.code) (t.code) (0) 1 + encHi (ma.code) (mb.code) (0) (0) (0) (0)
      + st = W at F H ⊢
    simp only [decodeSyl, F.major, decVCmp, decVab, hi2, isVW, needL, zero, guardOr, dstD, srcA, srcB, F.l, F.major,
      F.minor, F.d, F.a, F.b, F.t, F.r, H.f32_3, H.f35_3, H.f38_26, decTy_code ht, decSrc_code, decDst_code,
      decMod_code, fin_code, bv_code, bool_code]
    rfl

theorem vcun (t : Ty) (d : Dst) (a b : Src) (w : Option (Mod × Mod)) : Statement (.vcun t d a b w) := by
  intro u hw hwf
  have ht : t.isUnordered = true := hwf
  rcases w with _ | ⟨ma, mb⟩
  · obtain rfl : encLo 12 4 (d.code) (a.code) (b.code) (t.code) (0) 0 = u := Option.some.inj hw
    refine ⟨fits_lo0 (M := 12) (m := 4) (d := d.code) (a := a.code) (b := b.code) (t := t.code) (r := 0) (by decide)
      (by decide) (dst_lt d) (src_lt a) (src_lt b) (ty_lt t) (by decide), fun st hst => ?_⟩
    have F := loFields0 (M := 12) (m := 4) (d := d.code) (a := a.code) (b := b.code) (t := t.code) (r := 0) (l := 0)
      (by decide) (by decide) (dst_lt d) (src_lt a) (src_lt b) (ty_lt t) (by decide) (by decide) hst
    generalize encLo 12 4 (d.code) (a.code) (b.code) (t.code) (0) 0 + st = W at F ⊢
    simp only [decodeSyl, F.major, decVCmp, decVab, hi2, isVW, needL, zero, guardOr, dstD, srcA, srcB, F.l, F.major,
      F.minor, F.d, F.a, F.b, F.t, F.r, decTy_code ht, decSrc_code, decDst_code, decMod_code, fin_code, bv_code,
      bool_code]
    rfl
  · obtain rfl : encLo 12 4 (d.code) (a.code) (b.code) (t.code) (0) 1 + encHi (ma.code) (mb.code) (0) (0) (0) (0) = u
      := Option.some.inj hw
    refine ⟨fits_vw (M := 12) (m := 4) (d := d.code) (a := a.code) (b := b.code) (t := t.code) (r := 0) (by decide)
      (by decide) (dst_lt d) (src_lt a) (src_lt b) (ty_lt t) (by decide) (mod_lt ma) (mod_lt mb) (by decide)
      (by decide) (by decide) (by decide), fun st hst => ?_⟩
    have F := loFields (M := 12) (m := 4) (d := d.code) (a := a.code) (b := b.code) (t := t.code) (r := 0) (l := 1)
      (hiNat (ma.code) (mb.code) (0) (0) (0) (0)) (by decide) (by decide) (dst_lt d) (src_lt a) (src_lt b) (ty_lt t)
      (by decide) (by decide) hst
    have H := hiFields (ma := ma.code) (mb := mb.code) (mc := 0) (c := 0) (t2 := 0) (ext := 0) (lo_lt (M := 12) (m
      := 4) (d := d.code) (a := a.code) (b := b.code) (t := t.code) (r := 0) (l := 1) (by decide) (by decide) (dst_lt
      d) (src_lt a) (src_lt b) (ty_lt t) (by decide) (by decide) hst) (mod_lt ma) (mod_lt mb) (by decide) (by decide)
      (by decide) (by decide)
    rw [← encHi_eq] at F
    generalize encLo 12 4 (d.code) (a.code) (b.code) (t.code) (0) 1 + encHi (ma.code) (mb.code) (0) (0) (0) (0)
      + st = W at F H ⊢
    simp only [decodeSyl, F.major, decVCmp, decVab, hi2, isVW, needL, zero, guardOr, dstD, srcA, srcB, F.l, F.major,
      F.minor, F.d, F.a, F.b, F.t, F.r, H.f32_3, H.f35_3, H.f38_26, decTy_code ht, decSrc_code, decDst_code,
      decMod_code, fin_code, bv_code, bool_code]
    rfl

theorem mpush (a : Src) (w : Option Mod) : Statement (.mpush a w) := by
  intro u hw hwf
  rcases w with _ | ma
  · obtain rfl : encLo 12 5 (0) (a.code) (0) (0) (0) 0 = u := Option.some.inj hw
    refine ⟨fits_lo0 (M := 12) (m := 5) (d := 0) (a := a.code) (b := 0) (t := 0) (r := 0) (by decide) (by decide)
      (by decide) (src_lt a) (by decide) (by decide) (by decide), fun st hst => ?_⟩
    have F := loFields0 (M := 12) (m := 5) (d := 0) (a := a.code) (b := 0) (t := 0) (r := 0) (l := 0) (by decide)
      (by decide) (by decide) (src_lt a) (by decide) (by decide) (by decide) (by decide) hst
    have G := loSpans0 (M := 12) (m := 5) (d := 0) (a := a.code) (b := 0) (t := 0) (r := 0) (l := 0) (by decide)
      (by decide) (by decide) (src_lt a) (by decide) (by decide) (by decide) (by decide) hst
    generalize encLo 12 5 (0) (a.code) (0) (0) (0) 0 + st = W at F G ⊢
    simp only [decodeSyl, F.major, decVCmp, hi1, isVW, needL, zero, guardOr, dstD, srcA, srcB, F.l, F.major, F.minor,
      F.d, F.a, F.b, F.t, F.r, G.s22_10, decSrc_code, decDst_code, decMod_code, fin_code, bv_code, bool_code]
    rfl
  · obtain rfl : encLo 12 5 (0) (a.code) (0) (0) (0) 1 + encHi (ma.code) (0) (0) (0) (0) (0) = u := Option.some.inj hw
    refine ⟨fits_vw (M := 12) (m := 5) (d := 0) (a := a.code) (b := 0) (t := 0) (r := 0) (by decide) (by decide)
      (by decide) (src_lt a) (by decide) (by decide) (by decide) (mod_lt ma) (by decide) (by decide) (by decide)
      (by decide) (by decide), fun st hst => ?_⟩
    have F := loFields (M := 12) (m := 5) (d := 0) (a := a.code) (b := 0) (t := 0) (r := 0) (l := 1) (hiNat (ma.code)
      (0) (0) (0) (0) (0)) (by decide) (by decide) (by decide) (src_lt a) (by decide) (by decide) (by decide)
      (by decide) hst
    have G := loSpans (M := 12) (m := 5) (d := 0) (a := a.code) (b := 0) (t := 0) (r := 0) (l := 1) (hiNat (ma.code)
      (0) (0) (0) (0) (0)) (by decide) (by decide) (by decide) (src_lt a) (by decide) (by decide) (by decide)
      (by decide) hst
    have H := hiFields (ma := ma.code) (mb := 0) (mc := 0) (c := 0) (t2 := 0) (ext := 0) (lo_lt (M := 12) (m := 5) (d
      := 0) (a := a.code) (b := 0) (t := 0) (r := 0) (l := 1) (by decide) (by decide) (by decide) (src_lt a)
      (by decide) (by decide) (by decide) (by decide) hst) (mod_lt ma) (by decide) (by decide) (by decide)
      (by decide) (by decide)
    rw [← encHi_eq] at F G
    generalize encLo 12 5 (0) (a.code) (0) (0) (0) 1 + encHi (ma.code) (0) (0) (0) (0) (0) + st = W at F G H ⊢
    simp only [decodeSyl, F.major, decVCmp, hi1, isVW, needL, zero, guardOr, dstD, srcA, srcB, F.l, F.major, F.minor,
      F.d, F.a, F.b, F.t, F.r, H.f32_3, H.f35_29, G.s22_10, decSrc_code, decDst_code, decMod_code, fin_code, bv_code,
      bool_code]
    rfl

theorem mset (a : Src) (w : Option Mod) : Statement (.mset a w) := by
  intro u hw hwf
  rcases w with _ | ma
  · obtain rfl : encLo 12 8 (0) (a.code) (0) (0) (0) 0 = u := Option.some.inj hw
    refine ⟨fits_lo0 (M := 12) (m := 8) (d := 0) (a := a.code) (b := 0) (t := 0) (r := 0) (by decide) (by decide)
      (by decide) (src_lt a) (by decide) (by decide) (by decide), fun st hst => ?_⟩
    have F := loFields0 (M := 12) (m := 8) (d := 0) (a := a.code) (b := 0) (t := 0) (r := 0) (l := 0) (by decide)
      (by decide) (by decide) (src_lt a) (by decide) (by decide) (by decide) (by decide) hst
    have G := loSpans0 (M := 12) (m := 8) (d := 0) (a := a.code) (b := 0) (t := 0) (r := 0) (l := 0) (by decide)
      (by decide) (by decide) (src_lt a) (by decide) (by decide) (by decide) (by decide) hst
    generalize encLo 12 8 (0) (a.code) (0) (0) (0) 0 + st = W at F G ⊢
    simp only [decodeSyl, F.major, decVCmp, hi1, isVW, needL, zero, guardOr, dstD, srcA, srcB, F.l, F.major, F.minor,
      F.d, F.a, F.b, F.t, F.r, G.s22_10, decSrc_code, decDst_code, decMod_code, fin_code, bv_code, bool_code]
    rfl
  · obtain rfl : encLo 12 8 (0) (a.code) (0) (0) (0) 1 + encHi (ma.code) (0) (0) (0) (0) (0) = u := Option.some.inj hw
    refine ⟨fits_vw (M := 12) (m := 8) (d := 0) (a := a.code) (b := 0) (t := 0) (r := 0) (by decide) (by decide)
      (by decide) (src_lt a) (by decide) (by decide) (by decide) (mod_lt ma) (by decide) (by decide) (by decide)
      (by decide) (by decide), fun st hst => ?_⟩
    have F := loFields (M := 12) (m := 8) (d := 0) (a := a.code) (b := 0) (t := 0) (r := 0) (l := 1) (hiNat (ma.code)
      (0) (0) (0) (0) (0)) (by decide) (by decide) (by decide) (src_lt a) (by decide) (by decide) (by decide)
      (by decide) hst
    have G := loSpans (M := 12) (m := 8) (d := 0) (a := a.code) (b := 0) (t := 0) (r := 0) (l := 1) (hiNat (ma.code)
      (0) (0) (0) (0) (0)) (by decide) (by decide) (by decide) (src_lt a) (by decide) (by decide) (by decide)
      (by decide) hst
    have H := hiFields (ma := ma.code) (mb := 0) (mc := 0) (c := 0) (t2 := 0) (ext := 0) (lo_lt (M := 12) (m := 8) (d
      := 0) (a := a.code) (b := 0) (t := 0) (r := 0) (l := 1) (by decide) (by decide) (by decide) (src_lt a)
      (by decide) (by decide) (by decide) (by decide) hst) (mod_lt ma) (by decide) (by decide) (by decide)
      (by decide) (by decide)
    rw [← encHi_eq] at F G
    generalize encLo 12 8 (0) (a.code) (0) (0) (0) 1 + encHi (ma.code) (0) (0) (0) (0) (0) + st = W at F G H ⊢
    simp only [decodeSyl, F.major, decVCmp, hi1, isVW, needL, zero, guardOr, dstD, srcA, srcB, F.l, F.major, F.minor,
      F.d, F.a, F.b, F.t, F.r, H.f32_3, H.f35_29, G.s22_10, decSrc_code, decDst_code, decMod_code, fin_code, bv_code,
      bool_code]
    rfl

theorem minv (wide : Bool) : Statement (.minv wide) := by
  intro w hw hwf
  cases wide
  · obtain rfl : encLo 12 6 (0) (0) (0) (0) (0) 0 = w := Option.some.inj hw
    refine ⟨fits_lo0 (M := 12) (m := 6) (d := 0) (a := 0) (b := 0) (t := 0) (r := 0) (by decide) (by decide)
      (by decide) (by decide) (by decide) (by decide) (by decide), fun st hst => ?_⟩
    have F := loFields0 (M := 12) (m := 6) (d := 0) (a := 0) (b := 0) (t := 0) (r := 0) (l := 0) (by decide)
      (by decide) (by decide) (by decide) (by decide) (by decide) (by decide) (by decide) hst
    have G := loSpans0 (M := 12) (m := 6) (d := 0) (a := 0) (b := 0) (t := 0) (r := 0) (l := 0) (by decide)
      (by decide) (by decide) (by decide) (by decide) (by decide) (by decide) (by decide) hst
    generalize encLo 12 6 (0) (0) (0) (0) (0) 0 + st = W at F G ⊢
    simp only [decodeSyl, F.major, decVCmp, hi0, isVW, needL, zero, guardOr, dstD, srcA, srcB, F.l, F.major, F.minor,
      F.d, F.a, F.b, F.t, F.r, G.s12_20, decSrc_code, decDst_code, decMod_code, fin_code, bv_code, bool_code]
    rfl
  · obtain rfl : encLo 12 6 (0) (0) (0) (0) (0) 1 = w := Option.some.inj hw
    refine ⟨fits_lo1 (M := 12) (m := 6) (d := 0) (a := 0) (b := 0) (t := 0) (r := 0) (by decide) (by decide)
      (by decide) (by decide) (by decide) (by decide) (by decide), fun st hst => ?_⟩
    have F := loFields0 (M := 12) (m := 6) (d := 0) (a := 0) (b := 0) (t := 0) (r := 0) (l := 1) (by decide)
      (by decide) (by decide) (by decide) (by decide) (by decide) (by decide) (by decide) hst
    have G := loSpans0 (M := 12) (m := 6) (d := 0) (a := 0) (b := 0) (t := 0) (r := 0) (l := 1) (by decide)
      (by decide) (by decide) (by decide) (by decide) (by decide) (by decide) (by decide) hst
    have H := hi_zero (lo_lt (M := 12) (m := 6) (d := 0) (a := 0) (b := 0) (t := 0) (r := 0) (l := 1) (by decide)
      (by decide) (by decide) (by decide) (by decide) (by decide) (by decide) (by decide) hst)
    generalize encLo 12 6 (0) (0) (0) (0) (0) 1 + st = W at F G H ⊢
    simp only [decodeSyl, F.major, decVCmp, hi0, isVW, needL, zero, guardOr, dstD, srcA, srcB, F.l, F.major, F.minor,
      F.d, F.a, F.b, F.t, F.r, G.s12_20, H, decSrc_code, decDst_code, decMod_code, fin_code, bv_code, bool_code]
    rfl

theorem mpop (wide : Bool) : Statement (.mpop wide) := by
  intro w hw hwf
  cases wide
  · obtain rfl : encLo 12 7 (0) (0) (0) (0) (0) 0 = w := Option.some.inj hw
    refine ⟨fits_lo0 (M := 12) (m := 7) (d := 0) (a := 0) (b := 0) (t := 0) (r := 0) (by decide) (by decide)
      (by decide) (by decide) (by decide) (by decide) (by decide), fun st hst => ?_⟩
    have F := loFields0 (M := 12) (m := 7) (d := 0) (a := 0) (b := 0) (t := 0) (r := 0) (l := 0) (by decide)
      (by decide) (by decide) (by decide) (by decide) (by decide) (by decide) (by decide) hst
    have G := loSpans0 (M := 12) (m := 7) (d := 0) (a := 0) (b := 0) (t := 0) (r := 0) (l := 0) (by decide)
      (by decide) (by decide) (by decide) (by decide) (by decide) (by decide) (by decide) hst
    generalize encLo 12 7 (0) (0) (0) (0) (0) 0 + st = W at F G ⊢
    simp only [decodeSyl, F.major, decVCmp, hi0, isVW, needL, zero, guardOr, dstD, srcA, srcB, F.l, F.major, F.minor,
      F.d, F.a, F.b, F.t, F.r, G.s12_20, decSrc_code, decDst_code, decMod_code, fin_code, bv_code, bool_code]
    rfl
  · obtain rfl : encLo 12 7 (0) (0) (0) (0) (0) 1 = w := Option.some.inj hw
    refine ⟨fits_lo1 (M := 12) (m := 7) (d := 0) (a := 0) (b := 0) (t := 0) (r := 0) (by decide) (by decide)
      (by decide) (by decide) (by decide) (by decide) (by decide), fun st hst => ?_⟩
    have F := loFields0 (M := 12) (m := 7) (d := 0) (a := 0) (b := 0) (t := 0) (r := 0) (l := 1) (by decide)
      (by decide) (by decide) (by decide) (by decide) (by decide) (by decide) (by decide) hst
    have G := loSpans0 (M := 12) (m := 7) (d := 0) (a := 0) (b := 0) (t := 0) (r := 0) (l := 1) (by decide)
      (by decide) (by decide) (by decide) (by decide) (by decide) (by decide) (by decide) hst
    have H := hi_zero (lo_lt (M := 12) (m := 7) (d := 0) (a := 0) (b := 0) (t := 0) (r := 0) (l := 1) (by decide)
      (by decide) (by decide) (by decide) (by decide) (by decide) (by decide) (by decide) hst)
    generalize encLo 12 7 (0) (0) (0) (0) (0) 1 + st = W at F G H ⊢
    simp only [decodeSyl, F.major, decVCmp, hi0, isVW, needL, zero, guardOr, dstD, srcA, srcB, F.l, F.major, F.minor,
      F.d, F.a, F.b, F.t, F.r, G.s12_20, H, decSrc_code, decDst_code, decMod_code, fin_code, bv_code, bool_code]
    rfl

theorem mget (d : Dst) (wide : Bool) : Statement (.mget d wide) := by
  intro w hw hwf
  cases wide
  · obtain rfl : encLo 12 9 (d.code) (0) (0) (0) (0) 0 = w := Option.some.inj hw
    refine ⟨fits_lo0 (M := 12) (m := 9) (d := d.code) (a := 0) (b := 0) (t := 0) (r := 0) (by decide) (by decide)
      (dst_lt d) (by decide) (by decide) (by decide) (by decide), fun st hst => ?_⟩
    have F := loFields0 (M := 12) (m := 9) (d := d.code) (a := 0) (b := 0) (t := 0) (r := 0) (l := 0) (by decide)
      (by decide) (dst_lt d) (by decide) (by decide) (by decide) (by decide) (by decide) hst
    have G := loSpans0 (M := 12) (m := 9) (d := d.code) (a := 0) (b := 0) (t := 0) (r := 0) (l := 0) (by decide)
      (by decide) (dst_lt d) (by decide) (by decide) (by decide) (by decide) (by decide) hst
    generalize encLo 12 9 (d.code) (0) (0) (0) (0) 0 + st = W at F G ⊢
    simp only [decodeSyl, F.major, decVCmp, hi0, isVW, needL, zero, guardOr, dstD, srcA, srcB, F.l, F.major, F.minor,
      F.d, F.a, F.b, F.t, F.r, G.s17_15, decSrc_code, decDst_code, decMod_code, fin_code, bv_code, bool_code]
    rfl
  · obtain rfl : encLo 12 9 (d.code) (0) (0) (0) (0) 1 = w := Option.some.inj hw
    refine ⟨fits_lo1 (M := 12) (m := 9) (d := d.code) (a := 0) (b := 0) (t := 0) (r := 0) (by decide) (by decide)
      (dst_lt d) (by decide) (by decide) (by decide) (by decide), fun st hst => ?_⟩
    have F := loFields0 (M := 12) (m := 9) (d := d.code) (a := 0) (b := 0) (t := 0) (r := 0) (l := 1) (by decide)
      (by decide) (dst_lt d) (by decide) (by decide) (by decide) (by decide) (by decide) hst
    have G := loSpans0 (M := 12) (m := 9) (d := d.code) (a := 0) (b := 0) (t := 0) (r := 0) (l := 1) (by decide)
      (by decide) (dst_lt d) (by decide) (by decide) (by decide) (by decide) (by decide) hst
    have H := hi_zero (lo_lt (M := 12) (m := 9) (d := d.code) (a := 0) (b := 0) (t := 0) (r := 0) (l := 1)
      (by decide) (by decide) (dst_lt d) (by decide) (by decide) (by decide) (by decide) (by decide) hst)
    generalize encLo 12 9 (d.code) (0) (0) (0) (0) 1 + st = W at F G H ⊢
    simp only [decodeSyl, F.major, decVCmp, hi0, isVW, needL, zero, guardOr, dstD, srcA, srcB, F.l, F.major, F.minor,
      F.d, F.a, F.b, F.t, F.r, G.s17_15, H, decSrc_code, decDst_code, decMod_code, fin_code, bv_code, bool_code]
    rfl

theorem vcvt (dt st_ : Ty) (d : Dst) (a : Src) (w : Option (Mod × BitVec 2)) : Statement (.vcvt dt st_ d a w) := by
  intro u hw hwf
  have hs := ty_lt st_
  rcases w with _ | ⟨ma, p⟩
  · have hq : (dt.isCode0to9 && st_.isCode0to9 && true) = true := hwf
    obtain ⟨h1, h2⟩ := Bool.and_eq_true_iff.mp (Bool.and_eq_true_iff.mp hq).1
    obtain rfl : encLo 13 0 (d.code) (a.code) (st_.code) (dt.code) (0) 0 = u := Option.some.inj hw
    refine ⟨fits_lo0 (M := 13) (m := 0) (d := d.code) (a := a.code) (b := st_.code) (t := dt.code) (r := 0)
      (by decide) (by decide) (dst_lt d) (src_lt a) (by have := ty_lt st_; omega) (ty_lt dt) (by decide), fun st hst
      => ?_⟩
    have F := loFields0 (M := 13) (m := 0) (d := d.code) (a := a.code) (b := st_.code) (t := dt.code) (r := 0) (l
      := 0) (by decide) (by decide) (dst_lt d) (src_lt a) (by have := ty_lt st_; omega) (ty_lt dt) (by decide)
      (by decide) hst
    have G := loSpans0 (M := 13) (m := 0) (d := d.code) (a := a.code) (b := st_.code) (t := dt.code) (r := 0) (l
      := 0) (by decide) (by decide) (dst_lt d) (src_lt a) (by have := ty_lt st_; omega) (ty_lt dt) (by decide)
      (by decide) hst
    have g1 : st_.code / 16 = 0 := by omega
    have g2 : st_.code % 16 = st_.code := by omega
    generalize encLo 13 0 (d.code) (a.code) (st_.code) (dt.code) (0) 0 + st = W at F G ⊢
    simp only [decodeSyl, F.major, decVCvt, hiPart, isVW, needL, zero, guardOr, dstD, srcA, srcB, F.l, F.major,
      F.minor, F.d, F.a, F.b, F.t, F.r, G.s26_1, G.s22_4, g1, g2, decTy_code h1, decTy_code h2, decSrc_code,
      decDst_code, decMod_code, fin_code, bv_code, bool_code]
    rfl
  · have hq : (dt.isCode0to9 && st_.isCode0to9 && decide (p.toNat < cvtParts dt st_)) = true := hwf
    obtain ⟨hq', h3⟩ := Bool.and_eq_true_iff.mp hq
    obtain ⟨h1, h2⟩ := Bool.and_eq_true_iff.mp hq'
    have hp := p.isLt
    obtain rfl : encLo 13 0 (d.code) (a.code) (st_.code) (dt.code) (0) 1 + encHi (ma.code) (0) (0) (0) (st_.code)
      (p.toNat) = u := Option.some.inj hw
    refine ⟨fits_vw (M := 13) (m := 0) (d := d.code) (a := a.code) (b := st_.code) (t := dt.code) (r := 0)
      (by decide) (by decide) (dst_lt d) (src_lt a) (by have := ty_lt st_; omega) (ty_lt dt) (by decide) (mod_lt ma)
      (by decide) (by decide) (by decide) hs (by omega), fun st hst => ?_⟩
    have F := loFields (M := 13) (m := 0) (d := d.code) (a := a.code) (b := st_.code) (t := dt.code) (r := 0) (l
      := 1) (hiNat (ma.code) (0) (0) (0) (st_.code) (p.toNat)) (by decide) (by decide) (dst_lt d) (src_lt a)
      (by have := ty_lt st_; omega) (ty_lt dt) (by decide) (by decide) hst
    have G := loSpans (M := 13) (m := 0) (d := d.code) (a := a.code) (b := st_.code) (t := dt.code) (r := 0) (l := 1)
      (hiNat (ma.code) (0) (0) (0) (st_.code) (p.toNat)) (by decide) (by decide) (dst_lt d) (src_lt a)
      (by have := ty_lt st_; omega) (ty_lt dt) (by decide) (by decide) hst
    have H := hiFields (ma := ma.code) (mb := 0) (mc := 0) (c := 0) (t2 := st_.code) (ext := p.toNat) (lo_lt (M
      := 13) (m := 0) (d := d.code) (a := a.code) (b := st_.code) (t := dt.code) (r := 0) (l := 1) (by decide)
      (by decide) (dst_lt d) (src_lt a) (by have := ty_lt st_; omega) (ty_lt dt) (by decide) (by decide) hst) (mod_lt
      ma) (by decide) (by decide) (by decide) hs (by omega)
    rw [← encHi_eq] at F G
    have g1 : st_.code / 16 = 0 := by omega
    have g2 : st_.code % 16 = st_.code := by omega
    have g3 : p.toNat / 4 = 0 := by omega
    have g4 : p.toNat % 4 = p.toNat := by omega
    generalize encLo 13 0 (d.code) (a.code) (st_.code) (dt.code) (0) 1
      + encHi (ma.code) (0) (0) (0) (st_.code) (p.toNat) + st = W at F G H ⊢
    simp only [decodeSyl, F.major, decVCvt, hiPart, isVW, bind, Except.bind, needL, zero, guardOr, dstD, srcA, srcB,
      F.l, F.major, F.minor, F.d, F.a, F.b, F.t, F.r, H.f32_3, H.f35_11, H.f52_12, H.f46_4, H.f50_2, G.s26_1,
      G.s22_4, g1, g2, g3, g4, h3, beq_self_eq_true, if_true, decTy_code h1, decTy_code h2, decSrc_code, decDst_code,
      decMod_code, fin_code, bv_code, bool_code]

theorem vquant (dt : Ty) (d : Dst) (a b : Src) (w : Option (Mod × Mod)) : Statement (.vquant dt d a b w) := by
  intro u hw hwf
  have ht : dt.isQuant = true := hwf
  rcases w with _ | ⟨ma, mb⟩
  · obtain rfl : encLo 13 1 (d.code) (a.code) (b.code) (dt.code) (0) 0 = u := Option.some.inj hw
    refine ⟨fits_lo0 (M := 13) (m := 1) (d := d.code) (a := a.code) (b := b.code) (t := dt.code) (r := 0) (by decide)
      (by decide) (dst_lt d) (src_lt a) (src_lt b) (ty_lt dt) (by decide), fun st hst => ?_⟩
    have F := loFields0 (M := 13) (m := 1) (d := d.code) (a := a.code) (b := b.code) (t := dt.code) (r := 0) (l := 0)
      (by decide) (by decide) (dst_lt d) (src_lt a) (src_lt b) (ty_lt dt) (by decide) (by decide) hst
    generalize encLo 13 1 (d.code) (a.code) (b.code) (dt.code) (0) 0 + st = W at F ⊢
    simp only [decodeSyl, F.major, decVCvt, decVab, hi2, isVW, needL, zero, guardOr, dstD, srcA, srcB, F.l, F.major,
      F.minor, F.d, F.a, F.b, F.t, F.r, decTy_code ht, decSrc_code, decDst_code, decMod_code, fin_code, bv_code,
      bool_code]
    rfl
  · obtain rfl : encLo 13 1 (d.code) (a.code) (b.code) (dt.code) (0) 1 + encHi (ma.code) (mb.code) (0) (0) (0) (0) =
      u := Option.some.inj hw
    refine ⟨fits_vw (M := 13) (m := 1) (d := d.code) (a := a.code) (b := b.code) (t := dt.code) (r := 0) (by decide)
      (by decide) (dst_lt d) (src_lt a) (src_lt b) (ty_lt dt) (by decide) (mod_lt ma) (mod_lt mb) (by decide)
      (by decide) (by decide) (by decide), fun st hst => ?_⟩
    have F := loFields (M := 13) (m := 1) (d := d.code) (a := a.code) (b := b.code) (t := dt.code) (r := 0) (l := 1)
      (hiNat (ma.code) (mb.code) (0) (0) (0) (0)) (by decide) (by decide) (dst_lt d) (src_lt a) (src_lt b) (ty_lt dt)
      (by decide) (by decide) hst
    have H := hiFields (ma := ma.code) (mb := mb.code) (mc := 0) (c := 0) (t2 := 0) (ext := 0) (lo_lt (M := 13) (m
      := 1) (d := d.code) (a := a.code) (b := b.code) (t := dt.code) (r := 0) (l := 1) (by decide) (by decide)
      (dst_lt d) (src_lt a) (src_lt b) (ty_lt dt) (by decide) (by decide) hst) (mod_lt ma) (mod_lt mb) (by decide)
      (by decide) (by decide) (by decide)
    rw [← encHi_eq] at F
    generalize encLo 13 1 (d.code) (a.code) (b.code) (dt.code) (0) 1 + encHi (ma.code) (mb.code) (0) (0) (0) (0)
      + st = W at F H ⊢
    simp only [decodeSyl, F.major, decVCvt, decVab, hi2, isVW, needL, zero, guardOr, dstD, srcA, srcB, F.l, F.major,
      F.minor, F.d, F.a, F.b, F.t, F.r, H.f32_3, H.f35_3, H.f38_26, decTy_code ht, decSrc_code, decDst_code,
      decMod_code, fin_code, bv_code, bool_code]
    rfl

theorem vpack (t : Ty) (d : Dst) (a b : Src) (w : Option (Mod × Mod)) : Statement (.vpack t d a b w) := by
  intro u hw hwf
  have ht : t.isPack = true := hwf
  rcases w with _ | ⟨ma, mb⟩
  · obtain rfl : encLo 13 2 (d.code) (a.code) (b.code) (t.code) (0) 0 = u := Option.some.inj hw
    refine ⟨fits_lo0 (M := 13) (m := 2) (d := d.code) (a := a.code) (b := b.code) (t := t.code) (r := 0) (by decide)
      (by decide) (dst_lt d) (src_lt a) (src_lt b) (ty_lt t) (by decide), fun st hst => ?_⟩
    have F := loFields0 (M := 13) (m := 2) (d := d.code) (a := a.code) (b := b.code) (t := t.code) (r := 0) (l := 0)
      (by decide) (by decide) (dst_lt d) (src_lt a) (src_lt b) (ty_lt t) (by decide) (by decide) hst
    generalize encLo 13 2 (d.code) (a.code) (b.code) (t.code) (0) 0 + st = W at F ⊢
    simp only [decodeSyl, F.major, decVCvt, decVab, hi2, isVW, needL, zero, guardOr, dstD, srcA, srcB, F.l, F.major,
      F.minor, F.d, F.a, F.b, F.t, F.r, decTy_code ht, decSrc_code, decDst_code, decMod_code, fin_code, bv_code,
      bool_code]
    rfl
  · obtain rfl : encLo 13 2 (d.code) (a.code) (b.code) (t.code) (0) 1 + encHi (ma.code) (mb.code) (0) (0) (0) (0) = u
      := Option.some.inj hw
    refine ⟨fits_vw (M := 13) (m := 2) (d := d.code) (a := a.code) (b := b.code) (t := t.code) (r := 0) (by decide)
      (by decide) (dst_lt d) (src_lt a) (src_lt b) (ty_lt t) (by decide) (mod_lt ma) (mod_lt mb) (by decide)
      (by decide) (by decide) (by decide), fun st hst => ?_⟩
    have F := loFields (M := 13) (m := 2) (d := d.code) (a := a.code) (b := b.code) (t := t.code) (r := 0) (l := 1)
      (hiNat (ma.code) (mb.code) (0) (0) (0) (0)) (by decide) (by decide) (dst_lt d) (src_lt a) (src_lt b) (ty_lt t)
      (by decide) (by decide) hst
    have H := hiFields (ma := ma.code) (mb := mb.code) (mc := 0) (c := 0) (t2 := 0) (ext := 0) (lo_lt (M := 13) (m
      := 2) (d := d.code) (a := a.code) (b := b.code) (t := t.code) (r := 0) (l := 1) (by decide) (by decide) (dst_lt
      d) (src_lt a) (src_lt b) (ty_lt t) (by decide) (by decide) hst) (mod_lt ma) (mod_lt mb) (by decide) (by decide)
      (by decide) (by decide)
    rw [← encHi_eq] at F
    generalize encLo 13 2 (d.code) (a.code) (b.code) (t.code) (0) 1 + encHi (ma.code) (mb.code) (0) (0) (0) (0)
      + st = W at F H ⊢
    simp only [decodeSyl, F.major, decVCvt, decVab, hi2, isVW, needL, zero, guardOr, dstD, srcA, srcB, F.l, F.major,
      F.minor, F.d, F.a, F.b, F.t, F.r, H.f32_3, H.f35_3, H.f38_26, decTy_code ht, decSrc_code, decDst_code,
      decMod_code, fin_code, bv_code, bool_code]
    rfl

theorem vunpk (t : Ty) (d : Dst) (a : Src) (w : Option (Mod × BitVec 2)) : Statement (.vunpk t d a w) := by
  intro u hw hwf
  rcases w with _ | ⟨ma, p⟩
  · have hq : (t.isPack && true) = true := hwf
    have ht := (Bool.and_eq_true_iff.mp hq).1
    obtain rfl : encLo 13 3 (d.code) (a.code) (0) (t.code) (0) 0 = u := Option.some.inj hw
    refine ⟨fits_lo0 (M := 13) (m := 3) (d := d.code) (a := a.code) (b := 0) (t := t.code) (r := 0) (by decide)
      (by decide) (dst_lt d) (src_lt a) (by decide) (ty_lt t) (by decide), fun st hst => ?_⟩
    have F := loFields0 (M := 13) (m := 3) (d := d.code) (a := a.code) (b := 0) (t := t.code) (r := 0) (l := 0)
      (by decide) (by decide) (dst_lt d) (src_lt a) (by decide) (ty_lt t) (by decide) (by decide) hst
    generalize encLo 13 3 (d.code) (a.code) (0) (t.code) (0) 0 + st = W at F ⊢
    simp only [decodeSyl, F.major, decVCvt, hiPart, isVW, needL, zero, guardOr, dstD, srcA, srcB, F.l, F.major,
      F.minor, F.d, F.a, F.b, F.t, F.r, decTy_code ht, decSrc_code, decDst_code, decMod_code, fin_code, bv_code,
      bool_code]
    rfl
  · have hq : (t.isPack && decide (p.toNat < 2)) = true := hwf
    obtain ⟨ht, h3⟩ := Bool.and_eq_true_iff.mp hq
    have hp := p.isLt
    obtain rfl : encLo 13 3 (d.code) (a.code) (0) (t.code) (0) 1 + encHi (ma.code) (0) (0) (0) (0) (p.toNat) = u
      := Option.some.inj hw
    refine ⟨fits_vw (M := 13) (m := 3) (d := d.code) (a := a.code) (b := 0) (t := t.code) (r := 0) (by decide)
      (by decide) (dst_lt d) (src_lt a) (by decide) (ty_lt t) (by decide) (mod_lt ma) (by decide) (by decide)
      (by decide) (by decide) (by omega), fun st hst => ?_⟩
    have F := loFields (M := 13) (m := 3) (d := d.code) (a := a.code) (b := 0) (t := t.code) (r := 0) (l := 1) (hiNat
      (ma.code) (0) (0) (0) (0) (p.toNat)) (by decide) (by decide) (dst_lt d) (src_lt a) (by decide) (ty_lt t)
      (by decide) (by decide) hst
    have H := hiFields (ma := ma.code) (mb := 0) (mc := 0) (c := 0) (t2 := 0) (ext := p.toNat) (lo_lt (M := 13) (m
      := 3) (d := d.code) (a := a.code) (b := 0) (t := t.code) (r := 0) (l := 1) (by decide) (by decide) (dst_lt d)
      (src_lt a) (by decide) (ty_lt t) (by decide) (by decide) hst) (mod_lt ma) (by decide) (by decide) (by decide)
      (by decide) (by omega)
    rw [← encHi_eq] at F
    have g3 : p.toNat / 4 = 0 := by omega
    have g4 : p.toNat % 4 = p.toNat := by omega
    generalize encLo 13 3 (d.code) (a.code) (0) (t.code) (0) 1 + encHi (ma.code) (0) (0) (0) (0) (p.toNat) + st = W
      at F H ⊢
    simp only [decodeSyl, F.major, decVCvt, hiPart, isVW, bind, Except.bind, needL, zero, guardOr, dstD, srcA, srcB,
      F.l, F.major, F.minor, F.d, F.a, F.b, F.t, F.r, H.f32_3, H.f35_11, H.f52_12, H.f46_4, H.f50_2, g3, g4, h3,
      beq_self_eq_true, if_true, decTy_code ht, decSrc_code, decDst_code, decMod_code, fin_code, bv_code, bool_code]

theorem vlut (d : Dst) (a : Fin 13) (b : Src) (w : Option Mod) : Statement (.vlut d a b w) := by
  intro u hw hwf
  rcases w with _ | mb
  · obtain rfl : encLo 14 0 (d.code) (a.val) (b.code) (12) (0) 0 = u := Option.some.inj hw
    refine ⟨fits_lo0 (M := 14) (m := 0) (d := d.code) (a := a.val) (b := b.code) (t := 12) (r := 0) (by decide)
      (by decide) (dst_lt d) (by omega) (src_lt b) (by decide) (by decide), fun st hst => ?_⟩
    have F := loFields0 (M := 14) (m := 0) (d := d.code) (a := a.val) (b := b.code) (t := 12) (r := 0) (l := 0)
      (by decide) (by decide) (dst_lt d) (by omega) (src_lt b) (by decide) (by decide) (by decide) hst
    have hA : decide (a.val < 13) = true := decide_eq_true a.isLt
    generalize encLo 14 0 (d.code) (a.val) (b.code) (12) (0) 0 + st = W at F ⊢
    simp only [decodeSyl, F.major, decVLogic, hiB, isVW, needL, zero, guardOr, dstD, srcA, srcB, F.l, F.major,
      F.minor, F.d, F.a, F.b, F.t, F.r, hA, decSrc_code, decDst_code, decMod_code, fin_code, bv_code, bool_code]
    rfl
  · obtain rfl : encLo 14 0 (d.code) (a.val) (b.code) (12) (0) 1 + encHi (0) (mb.code) (0) (0) (0) (0) = u
      := Option.some.inj hw
    refine ⟨fits_vw (M := 14) (m := 0) (d := d.code) (a := a.val) (b := b.code) (t := 12) (r := 0) (by decide)
      (by decide) (dst_lt d) (by omega) (src_lt b) (by decide) (by decide) (by decide) (mod_lt mb) (by decide)
      (by decide) (by decide) (by decide), fun st hst => ?_⟩
    have F := loFields (M := 14) (m := 0) (d := d.code) (a := a.val) (b := b.code) (t := 12) (r := 0) (l := 1) (hiNat
      (0) (mb.code) (0) (0) (0) (0)) (by decide) (by decide) (dst_lt d) (by omega) (src_lt b) (by decide) (by decide)
      (by decide) hst
    have H := hiFields (ma := 0) (mb := mb.code) (mc := 0) (c := 0) (t2 := 0) (ext := 0) (lo_lt (M := 14) (m := 0) (d
      := d.code) (a := a.val) (b := b.code) (t := 12) (r := 0) (l := 1) (by decide) (by decide) (dst_lt d) (by omega)
      (src_lt b) (by decide) (by decide) (by decide) hst) (by decide) (mod_lt mb) (by decide) (by decide) (by decide)
      (by decide)
    rw [← encHi_eq] at F
    have hA : decide (a.val < 13) = true := decide_eq_true a.isLt
    generalize encLo 14 0 (d.code) (a.val) (b.code) (12) (0) 1 + encHi (0) (mb.code) (0) (0) (0) (0) + st = W at F H ⊢
    simp only [decodeSyl, F.major, decVLogic, hiB, isVW, needL, zero, guardOr, dstD, srcA, srcB, F.l, F.major,
      F.minor, F.d, F.a, F.b, F.t, F.r, H.f32_3, H.f35_3, H.f38_26, hA, decSrc_code, decDst_code, decMod_code,
      fin_code, bv_code, bool_code]
    rfl

theorem vevt (t : Ty) (d : Dst) (a b : Src) (w : Option Mod) : Statement (.vevt t d a b w) := by
  intro u hw hwf
  have ht : t.isLogic = true := hwf
  rcases w with _ | mb
  · obtain rfl : encLo 14 1 (d.code) (a.code) (b.code) (t.code) (0) 0 = u := Option.some.inj hw
    refine ⟨fits_lo0 (M := 14) (m := 1) (d := d.code) (a := a.code) (b := b.code) (t := t.code) (r := 0) (by decide)
      (by decide) (dst_lt d) (src_lt a) (src_lt b) (ty_lt t) (by decide), fun st hst => ?_⟩
    have F := loFields0 (M := 14) (m := 1) (d := d.code) (a := a.code) (b := b.code) (t := t.code) (r := 0) (l := 0)
      (by decide) (by decide) (dst_lt d) (src_lt a) (src_lt b) (ty_lt t) (by decide) (by decide) hst
    generalize encLo 14 1 (d.code) (a.code) (b.code) (t.code) (0) 0 + st = W at F ⊢
    simp only [decodeSyl, F.major, decVLogic, hiB, isVW, needL, zero, guardOr, dstD, srcA, srcB, F.l, F.major,
      F.minor, F.d, F.a, F.b, F.t, F.r, decTy_code ht, decSrc_code, decDst_code, decMod_code, fin_code, bv_code,
      bool_code]
    rfl
  · obtain rfl : encLo 14 1 (d.code) (a.code) (b.code) (t.code) (0) 1 + encHi (0) (mb.code) (0) (0) (0) (0) = u
      := Option.some.inj hw
    refine ⟨fits_vw (M := 14) (m := 1) (d := d.code) (a := a.code) (b := b.code) (t := t.code) (r := 0) (by decide)
      (by decide) (dst_lt d) (src_lt a) (src_lt b) (ty_lt t) (by decide) (by decide) (mod_lt mb) (by decide)
      (by decide) (by decide) (by decide), fun st hst => ?_⟩
    have F := loFields (M := 14) (m := 1) (d := d.code) (a := a.code) (b := b.code) (t := t.code) (r := 0) (l := 1)
      (hiNat (0) (mb.code) (0) (0) (0) (0)) (by decide) (by decide) (dst_lt d) (src_lt a) (src_lt b) (ty_lt t)
      (by decide) (by decide) hst
    have H := hiFields (ma := 0) (mb := mb.code) (mc := 0) (c := 0) (t2 := 0) (ext := 0) (lo_lt (M := 14) (m := 1) (d
      := d.code) (a := a.code) (b := b.code) (t := t.code) (r := 0) (l := 1) (by decide) (by decide) (dst_lt d)
      (src_lt a) (src_lt b) (ty_lt t) (by decide) (by decide) hst) (by decide) (mod_lt mb) (by decide) (by decide)
      (by decide) (by decide)
    rw [← encHi_eq] at F
    generalize encLo 14 1 (d.code) (a.code) (b.code) (t.code) (0) 1 + encHi (0) (mb.code) (0) (0) (0) (0) + st = W
      at F H ⊢
    simp only [decodeSyl, F.major, decVLogic, hiB, isVW, needL, zero, guardOr, dstD, srcA, srcB, F.l, F.major,
      F.minor, F.d, F.a, F.b, F.t, F.r, H.f32_3, H.f35_3, H.f38_26, decTy_code ht, decSrc_code, decDst_code,
      decMod_code, fin_code, bv_code, bool_code]
    rfl

theorem vres (d : Dst) (a b : Src) (w : Option Mod) : Statement (.vres d a b w) := by
  intro u hw hwf
  rcases w with _ | mb
  · obtain rfl : encLo 14 2 (d.code) (a.code) (b.code) (12) (0) 0 = u := Option.some.inj hw
    refine ⟨fits_lo0 (M := 14) (m := 2) (d := d.code) (a := a.code) (b := b.code) (t := 12) (r := 0) (by decide)
      (by decide) (dst_lt d) (src_lt a) (src_lt b) (by decide) (by decide), fun st hst => ?_⟩
    have F := loFields0 (M := 14) (m := 2) (d := d.code) (a := a.code) (b := b.code) (t := 12) (r := 0) (l := 0)
      (by decide) (by decide) (dst_lt d) (src_lt a) (src_lt b) (by decide) (by decide) (by decide) hst
    generalize encLo 14 2 (d.code) (a.code) (b.code) (12) (0) 0 + st = W at F ⊢
    simp only [decodeSyl, F.major, decVLogic, hiB, isVW, needL, zero, guardOr, dstD, srcA, srcB, F.l, F.major,
      F.minor, F.d, F.a, F.b, F.t, F.r, decSrc_code, decDst_code, decMod_code, fin_code, bv_code, bool_code]
    rfl
  · obtain rfl : encLo 14 2 (d.code) (a.code) (b.code) (12) (0) 1 + encHi (0) (mb.code) (0) (0) (0) (0) = u
      := Option.some.inj hw
    refine ⟨fits_vw (M := 14) (m := 2) (d := d.code) (a := a.code) (b := b.code) (t := 12) (r := 0) (by decide)
      (by decide) (dst_lt d) (src_lt a) (src_lt b) (by decide) (by decide) (by decide) (mod_lt mb) (by decide)
      (by decide) (by decide) (by decide), fun st hst => ?_⟩
    have F := loFields (M := 14) (m := 2) (d := d.code) (a := a.code) (b := b.code) (t := 12) (r := 0) (l := 1)
      (hiNat (0) (mb.code) (0) (0) (0) (0)) (by decide) (by decide) (dst_lt d) (src_lt a) (src_lt b) (by decide)
      (by decide) (by decide) hst
    have H := hiFields (ma := 0) (mb := mb.code) (mc := 0) (c := 0) (t2 := 0) (ext := 0) (lo_lt (M := 14) (m := 2) (d
      := d.code) (a := a.code) (b := b.code) (t := 12) (r := 0) (l := 1) (by decide) (by decide) (dst_lt d) (src_lt
      a) (src_lt b) (by decide) (by decide) (by decide) hst) (by decide) (mod_lt mb) (by decide) (by decide)
      (by decide) (by decide)
    rw [← encHi_eq] at F
    generalize encLo 14 2 (d.code) (a.code) (b.code) (12) (0) 1 + encHi (0) (mb.code) (0) (0) (0) (0) + st = W
      at F H ⊢
    simp only [decodeSyl, F.major, decVLogic, hiB, isVW, needL, zero, guardOr, dstD, srcA, srcB, F.l, F.major,
      F.minor, F.d, F.a, F.b, F.t, F.r, H.f32_3, H.f35_3, H.f38_26, decSrc_code, decDst_code, decMod_code, fin_code,
      bv_code, bool_code]
    rfl

theorem vttw (a b : Src) (wide : Bool) : Statement (.vttw a b wide) := by
  intro w hw hwf
  cases wide
  · obtain rfl : encLo 14 3 (0) (a.code) (b.code) (0) (0) 0 = w := Option.some.inj hw
    refine ⟨fits_lo0 (M := 14) (m := 3) (d := 0) (a := a.code) (b := b.code) (t := 0) (r := 0) (by decide)
      (by decide) (by decide) (src_lt a) (src_lt b) (by decide) (by decide), fun st hst => ?_⟩
    have F := loFields0 (M := 14) (m := 3) (d := 0) (a := a.code) (b := b.code) (t := 0) (r := 0) (l := 0)
      (by decide) (by decide) (by decide) (src_lt a) (src_lt b) (by decide) (by decide) (by decide) hst
    have G := loSpans0 (M := 14) (m := 3) (d := 0) (a := a.code) (b := b.code) (t := 0) (r := 0) (l := 0) (by decide)
      (by decide) (by decide) (src_lt a) (src_lt b) (by decide) (by decide) (by decide) hst
    generalize encLo 14 3 (0) (a.code) (b.code) (0) (0) 0 + st = W at F G ⊢
    simp only [decodeSyl, F.major, decVLogic, hi0, isVW, needL, zero, guardOr, dstD, srcA, srcB, F.l, F.major,
      F.minor, F.d, F.a, F.b, F.t, F.r, G.s27_5, decSrc_code, decDst_code, decMod_code, fin_code, bv_code, bool_code]
    rfl
  · obtain rfl : encLo 14 3 (0) (a.code) (b.code) (0) (0) 1 = w := Option.some.inj hw
    refine ⟨fits_lo1 (M := 14) (m := 3) (d := 0) (a := a.code) (b := b.code) (t := 0) (r := 0) (by decide)
      (by decide) (by decide) (src_lt a) (src_lt b) (by decide) (by decide), fun st hst => ?_⟩
    have F := loFields0 (M := 14) (m := 3) (d := 0) (a := a.code) (b := b.code) (t := 0) (r := 0) (l := 1)
      (by decide) (by decide) (by decide) (src_lt a) (src_lt b) (by decide) (by decide) (by decide) hst
    have G := loSpans0 (M := 14) (m := 3) (d := 0) (a := a.code) (b := b.code) (t := 0) (r := 0) (l := 1) (by decide)
      (by decide) (by decide) (src_lt a) (src_lt b) (by decide) (by decide) (by decide) hst
    have H := hi_zero (lo_lt (M := 14) (m := 3) (d := 0) (a := a.code) (b := b.code) (t := 0) (r := 0) (l := 1)
      (by decide) (by decide) (by decide) (src_lt a) (src_lt b) (by decide) (by decide) (by decide) hst)
    generalize encLo 14 3 (0) (a.code) (b.code) (0) (0) 1 + st = W at F G H ⊢
    simp only [decodeSyl, F.major, decVLogic, hi0, isVW, needL, zero, guardOr, dstD, srcA, srcB, F.l, F.major,
      F.minor, F.d, F.a, F.b, F.t, F.r, G.s27_5, H, decSrc_code, decDst_code, decMod_code, fin_code, bv_code,
      bool_code]
    rfl

theorem vld (d : Dst) (a b : Src) (w : Option VMem) : Statement (.vld d a b w) := by
  intro u hw hwf
  rcases w with _ | mm
  · obtain rfl : encLo 15 0 (d.code) (a.code) (b.code) (0) (0) 0 = u := Option.some.inj hw
    refine ⟨fits_lo0 (M := 15) (m := 0) (d := d.code) (a := a.code) (b := b.code) (t := 0) (r := 0) (by decide)
      (by decide) (dst_lt d) (src_lt a) (src_lt b) (by decide) (by decide), fun st hst => ?_⟩
    have F := loFields0 (M := 15) (m := 0) (d := d.code) (a := a.code) (b := b.code) (t := 0) (r := 0) (l := 0)
      (by decide) (by decide) (dst_lt d) (src_lt a) (src_lt b) (by decide) (by decide) (by decide) hst
    have G := loSpans0 (M := 15) (m := 0) (d := d.code) (a := a.code) (b := b.code) (t := 0) (r := 0) (l := 0)
      (by decide) (by decide) (dst_lt d) (src_lt a) (src_lt b) (by decide) (by decide) (by decide) hst
    generalize encLo 15 0 (d.code) (a.code) (b.code) (0) (0) 0 + st = W at F G ⊢
    simp only [decodeSyl, F.major, decVMem, hiMem, isVW, needL, zero, guardOr, dstD, srcA, srcB, F.l, F.major,
      F.minor, F.d, F.a, F.b, F.t, F.r, G.s27_5, decSrc_code, decDst_code, decMod_code, fin_code, bv_code, bool_code]
    rfl
  · obtain rfl : encLo 15 0 (d.code) (a.code) (b.code) (0) (0) 1 + encHi (0) (0) (0) (0) (0) (mm.ext 0) = u
      := Option.some.inj hw
    refine ⟨fits_vw (M := 15) (m := 0) (d := d.code) (a := a.code) (b := b.code) (t := 0) (r := 0) (by decide)
      (by decide) (dst_lt d) (src_lt a) (src_lt b) (by decide) (by decide) (by decide) (by decide) (by decide)
      (by decide) (by decide) (ext_lt mm 0 (by decide)), fun st hst => ?_⟩
    have F := loFields (M := 15) (m := 0) (d := d.code) (a := a.code) (b := b.code) (t := 0) (r := 0) (l := 1) (hiNat
      (0) (0) (0) (0) (0) (mm.ext 0)) (by decide) (by decide) (dst_lt d) (src_lt a) (src_lt b) (by decide)
      (by decide) (by decide) hst
    have G := loSpans (M := 15) (m := 0) (d := d.code) (a := a.code) (b := b.code) (t := 0) (r := 0) (l := 1) (hiNat
      (0) (0) (0) (0) (0) (mm.ext 0)) (by decide) (by decide) (dst_lt d) (src_lt a) (src_lt b) (by decide)
      (by decide) (by decide) hst
    have H := hiFields (ma := 0) (mb := 0) (mc := 0) (c := 0) (t2 := 0) (ext := mm.ext 0) (lo_lt (M := 15) (m := 0)
      (d := d.code) (a := a.code) (b := b.code) (t := 0) (r := 0) (l := 1) (by decide) (by decide) (dst_lt d) (src_lt
      a) (src_lt b) (by decide) (by decide) (by decide) hst) (by decide) (by decide) (by decide) (by decide)
      (by decide) (ext_lt mm 0 (by decide))
    rw [← encHi_eq] at F G
    generalize encLo 15 0 (d.code) (a.code) (b.code) (0) (0) 1 + encHi (0) (0) (0) (0) (0) (mm.ext 0) + st = W
      at F G H ⊢
    simp only [decodeSyl, F.major, decVMem, hiMem, isVW, needL, zero, guardOr, dstD, srcA, srcB, F.l, F.major,
      F.minor, F.d, F.a, F.b, F.t, F.r, H.f32_18, H.f50_1, H.f51_9, H.f60_4, G.s27_5, ext_nb0, ext_off0, ext_cls0,
      decSrc_code, decDst_code, decMod_code, fin_code, bv_code, bool_code]
    rfl

theorem vst (v : Src) (a b : Src) (w : Option VMem) : Statement (.vst v a b w) := by
  intro u hw hwf
  rcases w with _ | mm
  · obtain rfl : encLo 15 1 (v.code) (a.code) (b.code) (0) (0) 0 = u := Option.some.inj hw
    refine ⟨fits_lo0 (M := 15) (m := 1) (d := v.code) (a := a.code) (b := b.code) (t := 0) (r := 0) (by decide)
      (by decide) (src_lt v) (src_lt a) (src_lt b) (by decide) (by decide), fun st hst => ?_⟩
    have F := loFields0 (M := 15) (m := 1) (d := v.code) (a := a.code) (b := b.code) (t := 0) (r := 0) (l := 0)
      (by decide) (by decide) (src_lt v) (src_lt a) (src_lt b) (by decide) (by decide) (by decide) hst
    have G := loSpans0 (M := 15) (m := 1) (d := v.code) (a := a.code) (b := b.code) (t := 0) (r := 0) (l := 0)
      (by decide) (by decide) (src_lt v) (src_lt a) (src_lt b) (by decide) (by decide) (by decide) hst
    generalize encLo 15 1 (v.code) (a.code) (b.code) (0) (0) 0 + st = W at F G ⊢
    simp only [decodeSyl, F.major, decVMem, hiMem, isVW, needL, zero, guardOr, dstD, srcA, srcB, F.l, F.major,
      F.minor, F.d, F.a, F.b, F.t, F.r, G.s27_5, decSrc_code, decDst_code, decMod_code, fin_code, bv_code, bool_code]
    rfl
  · obtain rfl : encLo 15 1 (v.code) (a.code) (b.code) (0) (0) 1 + encHi (0) (0) (0) (0) (0) (mm.ext 0) = u
      := Option.some.inj hw
    refine ⟨fits_vw (M := 15) (m := 1) (d := v.code) (a := a.code) (b := b.code) (t := 0) (r := 0) (by decide)
      (by decide) (src_lt v) (src_lt a) (src_lt b) (by decide) (by decide) (by decide) (by decide) (by decide)
      (by decide) (by decide) (ext_lt mm 0 (by decide)), fun st hst => ?_⟩
    have F := loFields (M := 15) (m := 1) (d := v.code) (a := a.code) (b := b.code) (t := 0) (r := 0) (l := 1) (hiNat
      (0) (0) (0) (0) (0) (mm.ext 0)) (by decide) (by decide) (src_lt v) (src_lt a) (src_lt b) (by decide)
      (by decide) (by decide) hst
    have G := loSpans (M := 15) (m := 1) (d := v.code) (a := a.code) (b := b.code) (t := 0) (r := 0) (l := 1) (hiNat
      (0) (0) (0) (0) (0) (mm.ext 0)) (by decide) (by decide) (src_lt v) (src_lt a) (src_lt b) (by decide)
      (by decide) (by decide) hst
    have H := hiFields (ma := 0) (mb := 0) (mc := 0) (c := 0) (t2 := 0) (ext := mm.ext 0) (lo_lt (M := 15) (m := 1)
      (d := v.code) (a := a.code) (b := b.code) (t := 0) (r := 0) (l := 1) (by decide) (by decide) (src_lt v) (src_lt
      a) (src_lt b) (by decide) (by decide) (by decide) hst) (by decide) (by decide) (by decide) (by decide)
      (by decide) (ext_lt mm 0 (by decide))
    rw [← encHi_eq] at F G
    generalize encLo 15 1 (v.code) (a.code) (b.code) (0) (0) 1 + encHi (0) (0) (0) (0) (0) (mm.ext 0) + st = W
      at F G H ⊢
    simp only [decodeSyl, F.major, decVMem, hiMem, isVW, needL, zero, guardOr, dstD, srcA, srcB, F.l, F.major,
      F.minor, F.d, F.a, F.b, F.t, F.r, H.f32_18, H.f50_1, H.f51_9, H.f60_4, G.s27_5, ext_nb0, ext_off0, ext_cls0,
      decSrc_code, decDst_code, decMod_code, fin_code, bv_code, bool_code]
    rfl

theorem vldi (d : Dst) (a b : Src) (w : Option (VMem × Mod)) : Statement (.vldi d a b w) := by
  intro u hw hwf
  rcases w with _ | ⟨mm, mb⟩
  · obtain rfl : encLo 15 2 (d.code) (a.code) (b.code) (0) (0) 0 = u := Option.some.inj hw
    refine ⟨fits_lo0 (M := 15) (m := 2) (d := d.code) (a := a.code) (b := b.code) (t := 0) (r := 0) (by decide)
      (by decide) (dst_lt d) (src_lt a) (src_lt b) (by decide) (by decide), fun st hst => ?_⟩
    have F := loFields0 (M := 15) (m := 2) (d := d.code) (a := a.code) (b := b.code) (t := 0) (r := 0) (l := 0)
      (by decide) (by decide) (dst_lt d) (src_lt a) (src_lt b) (by decide) (by decide) (by decide) hst
    have G := loSpans0 (M := 15) (m := 2) (d := d.code) (a := a.code) (b := b.code) (t := 0) (r := 0) (l := 0)
      (by decide) (by decide) (dst_lt d) (src_lt a) (src_lt b) (by decide) (by decide) (by decide) hst
    generalize encLo 15 2 (d.code) (a.code) (b.code) (0) (0) 0 + st = W at F G ⊢
    simp only [decodeSyl, F.major, decVMem, hiMem, isVW, needL, zero, guardOr, dstD, srcA, srcB, F.l, F.major,
      F.minor, F.d, F.a, F.b, F.t, F.r, G.s27_5, decSrc_code, decDst_code, decMod_code, fin_code, bv_code, bool_code]
    rfl
  · obtain rfl : encLo 15 2 (d.code) (a.code) (b.code) (0) (0) 1 + encHi (0) (mb.code) (0) (0) (0) (mm.ext 0) = u
      := Option.some.inj hw
    refine ⟨fits_vw (M := 15) (m := 2) (d := d.code) (a := a.code) (b := b.code) (t := 0) (r := 0) (by decide)
      (by decide) (dst_lt d) (src_lt a) (src_lt b) (by decide) (by decide) (by decide) (mod_lt mb) (by decide)
      (by decide) (by decide) (ext_lt mm 0 (by decide)), fun st hst => ?_⟩
    have F := loFields (M := 15) (m := 2) (d := d.code) (a := a.code) (b := b.code) (t := 0) (r := 0) (l := 1) (hiNat
      (0) (mb.code) (0) (0) (0) (mm.ext 0)) (by decide) (by decide) (dst_lt d) (src_lt a) (src_lt b) (by decide)
      (by decide) (by decide) hst
    have G := loSpans (M := 15) (m := 2) (d := d.code) (a := a.code) (b := b.code) (t := 0) (r := 0) (l := 1) (hiNat
      (0) (mb.code) (0) (0) (0) (mm.ext 0)) (by decide) (by decide) (dst_lt d) (src_lt a) (src_lt b) (by decide)
      (by decide) (by decide) hst
    have H := hiFields (ma := 0) (mb := mb.code) (mc := 0) (c := 0) (t2 := 0) (ext := mm.ext 0) (lo_lt (M := 15) (m
      := 2) (d := d.code) (a := a.code) (b := b.code) (t := 0) (r := 0) (l := 1) (by decide) (by decide) (dst_lt d)
      (src_lt a) (src_lt b) (by decide) (by decide) (by decide) hst) (by decide) (mod_lt mb) (by decide) (by decide)
      (by decide) (ext_lt mm 0 (by decide))
    rw [← encHi_eq] at F G
    generalize encLo 15 2 (d.code) (a.code) (b.code) (0) (0) 1 + encHi (0) (mb.code) (0) (0) (0) (mm.ext 0) + st = W
      at F G H ⊢
    simp only [decodeSyl, F.major, decVMem, hiMem, isVW, needL, zero, guardOr, dstD, srcA, srcB, F.l, F.major,
      F.minor, F.d, F.a, F.b, F.t, F.r, H.f32_3, H.f32_18, H.f35_3, H.f38_13, H.f50_1, H.f51_9, H.f60_4, G.s27_5,
      ext_nb0, ext_off0, ext_cls0, decSrc_code, decDst_code, decMod_code, fin_code, bv_code, bool_code]
    rfl

theorem vsti (v : Src) (a b : Src) (w : Option (VMem × Mod)) : Statement (.vsti v a b w) := by
  intro u hw hwf
  rcases w with _ | ⟨mm, mb⟩
  · obtain rfl : encLo 15 3 (v.code) (a.code) (b.code) (0) (0) 0 = u := Option.some.inj hw
    refine ⟨fits_lo0 (M := 15) (m := 3) (d := v.code) (a := a.code) (b := b.code) (t := 0) (r := 0) (by decide)
      (by decide) (src_lt v) (src_lt a) (src_lt b) (by decide) (by decide), fun st hst => ?_⟩
    have F := loFields0 (M := 15) (m := 3) (d := v.code) (a := a.code) (b := b.code) (t := 0) (r := 0) (l := 0)
      (by decide) (by decide) (src_lt v) (src_lt a) (src_lt b) (by decide) (by decide) (by decide) hst
    have G := loSpans0 (M := 15) (m := 3) (d := v.code) (a := a.code) (b := b.code) (t := 0) (r := 0) (l := 0)
      (by decide) (by decide) (src_lt v) (src_lt a) (src_lt b) (by decide) (by decide) (by decide) hst
    generalize encLo 15 3 (v.code) (a.code) (b.code) (0) (0) 0 + st = W at F G ⊢
    simp only [decodeSyl, F.major, decVMem, hiMem, isVW, needL, zero, guardOr, dstD, srcA, srcB, F.l, F.major,
      F.minor, F.d, F.a, F.b, F.t, F.r, G.s27_5, decSrc_code, decDst_code, decMod_code, fin_code, bv_code, bool_code]
    rfl
  · obtain rfl : encLo 15 3 (v.code) (a.code) (b.code) (0) (0) 1 + encHi (0) (mb.code) (0) (0) (0) (mm.ext 0) = u
      := Option.some.inj hw
    refine ⟨fits_vw (M := 15) (m := 3) (d := v.code) (a := a.code) (b := b.code) (t := 0) (r := 0) (by decide)
      (by decide) (src_lt v) (src_lt a) (src_lt b) (by decide) (by decide) (by decide) (mod_lt mb) (by decide)
      (by decide) (by decide) (ext_lt mm 0 (by decide)), fun st hst => ?_⟩
    have F := loFields (M := 15) (m := 3) (d := v.code) (a := a.code) (b := b.code) (t := 0) (r := 0) (l := 1) (hiNat
      (0) (mb.code) (0) (0) (0) (mm.ext 0)) (by decide) (by decide) (src_lt v) (src_lt a) (src_lt b) (by decide)
      (by decide) (by decide) hst
    have G := loSpans (M := 15) (m := 3) (d := v.code) (a := a.code) (b := b.code) (t := 0) (r := 0) (l := 1) (hiNat
      (0) (mb.code) (0) (0) (0) (mm.ext 0)) (by decide) (by decide) (src_lt v) (src_lt a) (src_lt b) (by decide)
      (by decide) (by decide) hst
    have H := hiFields (ma := 0) (mb := mb.code) (mc := 0) (c := 0) (t2 := 0) (ext := mm.ext 0) (lo_lt (M := 15) (m
      := 3) (d := v.code) (a := a.code) (b := b.code) (t := 0) (r := 0) (l := 1) (by decide) (by decide) (src_lt v)
      (src_lt a) (src_lt b) (by decide) (by decide) (by decide) hst) (by decide) (mod_lt mb) (by decide) (by decide)
      (by decide) (ext_lt mm 0 (by decide))
    rw [← encHi_eq] at F G
    generalize encLo 15 3 (v.code) (a.code) (b.code) (0) (0) 1 + encHi (0) (mb.code) (0) (0) (0) (mm.ext 0) + st = W
      at F G H ⊢
    simp only [decodeSyl, F.major, decVMem, hiMem, isVW, needL, zero, guardOr, dstD, srcA, srcB, F.l, F.major,
      F.minor, F.d, F.a, F.b, F.t, F.r, H.f32_3, H.f32_18, H.f35_3, H.f38_13, H.f50_1, H.f51_9, H.f60_4, G.s27_5,
      ext_nb0, ext_off0, ext_cls0, decSrc_code, decDst_code, decMod_code, fin_code, bv_code, bool_code]
    rfl

theorem vldImm (d : Dst) (a : Src) (m : VMem) : Statement (.vldImm d a m) := by
  intro w hw hwf
  obtain rfl : encLo 15 0 (d.code) (a.code) (0) (0) (0) 1 + encHi (0) (0) (0) (0) (0) (m.ext 1) = w
    := Option.some.inj hw
  refine ⟨fits_vw (M := 15) (m := 0) (d := d.code) (a := a.code) (b := 0) (t := 0) (r := 0) (by decide) (by decide)
    (dst_lt d) (src_lt a) (by decide) (by decide) (by decide) (by decide) (by decide) (by decide) (by decide)
    (by decide) (ext_lt m 1 (by decide)), fun st hst => ?_⟩
  have F := loFields (M := 15) (m := 0) (d := d.code) (a := a.code) (b := 0) (t := 0) (r := 0) (l := 1) (hiNat (0)
    (0) (0) (0) (0) (m.ext 1)) (by decide) (by decide) (dst_lt d) (src_lt a) (by decide) (by decide) (by decide)
    (by decide) hst
  have G := loSpans (M := 15) (m := 0) (d := d.code) (a := a.code) (b := 0) (t := 0) (r := 0) (l := 1) (hiNat (0) (0)
    (0) (0) (0) (m.ext 1)) (by decide) (by decide) (dst_lt d) (src_lt a) (by decide) (by decide) (by decide)
    (by decide) hst
  have H := hiFields (ma := 0) (mb := 0) (mc := 0) (c := 0) (t2 := 0) (ext := m.ext 1) (lo_lt (M := 15) (m := 0) (d
    := d.code) (a := a.code) (b := 0) (t := 0) (r := 0) (l := 1) (by decide) (by decide) (dst_lt d) (src_lt a)
    (by decide) (by decide) (by decide) (by decide) hst) (by decide) (by decide) (by decide) (by decide) (by decide)
    (ext_lt m 1 (by decide))
  rw [← encHi_eq] at F G
  generalize encLo 15 0 (d.code) (a.code) (0) (0) (0) 1 + encHi (0) (0) (0) (0) (0) (m.ext 1) + st = W at F G H ⊢
  simp only [decodeSyl, F.major, decVMem, hiMem, isVW, needL, zero, guardOr, dstD, srcA, srcB, F.l, F.major, F.minor,
    F.d, F.a, F.b, F.t, F.r, H.f32_18, H.f50_1, H.f51_9, H.f60_4, G.s27_5, ext_nb1, ext_off1, ext_cls1, decSrc_code,
    decDst_code, decMod_code, fin_code, bv_code, bool_code]
  rfl

theorem vstImm (v : Src) (a : Src) (m : VMem) : Statement (.vstImm v a m) := by
  intro w hw hwf
  obtain rfl : encLo 15 1 (v.code) (a.code) (0) (0) (0) 1 + encHi (0) (0) (0) (0) (0) (m.ext 1) = w
    := Option.some.inj hw
  refine ⟨fits_vw (M := 15) (m := 1) (d := v.code) (a := a.code) (b := 0) (t := 0) (r := 0) (by decide) (by decide)
    (src_lt v) (src_lt a) (by decide) (by decide) (by decide) (by decide) (by decide) (by decide) (by decide)
    (by decide) (ext_lt m 1 (by decide)), fun st hst => ?_⟩
  have F := loFields (M := 15) (m := 1) (d := v.code) (a := a.code) (b := 0) (t := 0) (r := 0) (l := 1) (hiNat (0)
    (0) (0) (0) (0) (m.ext 1)) (by decide) (by decide) (src_lt v) (src_lt a) (by decide) (by decide) (by decide)
    (by decide) hst
  have G := loSpans (M := 15) (m := 1) (d := v.code) (a := a.code) (b := 0) (t := 0) (r := 0) (l := 1) (hiNat (0) (0)
    (0) (0) (0) (m.ext 1)) (by decide) (by decide) (src_lt v) (src_lt a) (by decide) (by decide) (by decide)
    (by decide) hst
  have H := hiFields (ma := 0) (mb := 0) (mc := 0) (c := 0) (t2 := 0) (ext := m.ext 1) (lo_lt (M := 15) (m := 1) (d
    := v.code) (a := a.code) (b := 0) (t := 0) (r := 0) (l := 1) (by decide) (by decide) (src_lt v) (src_lt a)
    (by decide) (by decide) (by decide) (by decide) hst) (by decide) (by decide) (by decide) (by decide) (by decide)
    (ext_lt m 1 (by decide))
  rw [← encHi_eq] at F G
  generalize encLo 15 1 (v.code) (a.code) (0) (0) (0) 1 + encHi (0) (0) (0) (0) (0) (m.ext 1) + st = W at F G H ⊢
  simp only [decodeSyl, F.major, decVMem, hiMem, isVW, needL, zero, guardOr, dstD, srcA, srcB, F.l, F.major, F.minor,
    F.d, F.a, F.b, F.t, F.r, H.f32_18, H.f50_1, H.f51_9, H.f60_4, G.s27_5, ext_nb1, ext_off1, ext_cls1, decSrc_code,
    decDst_code, decMod_code, fin_code, bv_code, bool_code]
  rfl

theorem scanAdd (t : Ty) (red : Bool) (d : Dst) (a : Src) (w : Option ScanExt) : Statement (.scanAdd t red d a w)
  := by
  intro u hw hwf
  have ht : t.isScan = true := hwf
  rcases w with _ | ⟨ma, _ | ⟨c, mc⟩⟩
  · obtain rfl : encLo 16 0 (d.code) (a.code) (0) (t.code) (red.toNat) 0 = u := Option.some.inj hw
    refine ⟨fits_lo0 (M := 16) (m := 0) (d := d.code) (a := a.code) (b := 0) (t := t.code) (r := red.toNat)
      (by decide) (by decide) (dst_lt d) (src_lt a) (by decide) (ty_lt t) (bool_lt red), fun st hst => ?_⟩
    have F := loFields0 (M := 16) (m := 0) (d := d.code) (a := a.code) (b := 0) (t := t.code) (r := red.toNat) (l
      := 0) (by decide) (by decide) (dst_lt d) (src_lt a) (by decide) (ty_lt t) (bool_lt red) (by decide) hst
    generalize encLo 16 0 (d.code) (a.code) (0) (t.code) (red.toNat) 0 + st = W at F ⊢
    simp only [decodeSyl, F.major, decScan, decScanT, hiScan, isVW, needL, zero, guardOr, dstD, srcA, srcB, F.l,
      F.major, F.minor, F.d, F.a, F.b, F.t, F.r, decTy_code ht, decSrc_code, decDst_code, decMod_code, fin_code,
      bv_code, bool_code]
    rfl
  · obtain rfl : encLo 16 0 (d.code) (a.code) (0) (t.code) (red.toNat) 1 + encHi (ma.code) (0) (0) (0) (0) (0) = u
      := Option.some.inj hw
    refine ⟨fits_vw (M := 16) (m := 0) (d := d.code) (a := a.code) (b := 0) (t := t.code) (r := red.toNat)
      (by decide) (by decide) (dst_lt d) (src_lt a) (by decide) (ty_lt t) (bool_lt red) (mod_lt ma) (by decide)
      (by decide) (by decide) (by decide) (by decide), fun st hst => ?_⟩
    have F := loFields (M := 16) (m := 0) (d := d.code) (a := a.code) (b := 0) (t := t.code) (r := red.toNat) (l
      := 1) (hiNat (ma.code) (0) (0) (0) (0) (0)) (by decide) (by decide) (dst_lt d) (src_lt a) (by decide) (ty_lt t)
      (bool_lt red) (by decide) hst
    have H := hiFields (ma := ma.code) (mb := 0) (mc := 0) (c := 0) (t2 := 0) (ext := 0) (lo_lt (M := 16) (m := 0) (d
      := d.code) (a := a.code) (b := 0) (t := t.code) (r := red.toNat) (l := 1) (by decide) (by decide) (dst_lt d)
      (src_lt a) (by decide) (ty_lt t) (bool_lt red) (by decide) hst) (mod_lt ma) (by decide) (by decide) (by decide)
      (by decide) (by decide)
    rw [← encHi_eq] at F
    generalize encLo 16 0 (d.code) (a.code) (0) (t.code) (red.toNat) 1 + encHi (ma.code) (0) (0) (0) (0) (0) + st = W
      at F H ⊢
    simp only [decodeSyl, F.major, decScan, decScanT, hiScan, decSeg, isVW, needL, zero, guardOr, dstD, srcA, srcB,
      F.l, F.major, F.minor, F.d, F.a, F.b, F.t, F.r, H.f32_3, H.f35_3, H.f46_4, H.f50_1, H.f51_13, H.f52_12,
      H.f51_1, H.f38_8, H.f38_3, H.f41_5, decTy_code ht, decSrc_code, decDst_code, decMod_code, fin_code, bv_code,
      bool_code]
    rfl
  · obtain rfl : encLo 16 0 (d.code) (a.code) (0) (t.code) (red.toNat) 1 + encHi (ma.code) (0) (mc.code) (c.code) (0)
      (1) = u := Option.some.inj hw
    refine ⟨fits_vw (M := 16) (m := 0) (d := d.code) (a := a.code) (b := 0) (t := t.code) (r := red.toNat)
      (by decide) (by decide) (dst_lt d) (src_lt a) (by decide) (ty_lt t) (bool_lt red) (mod_lt ma) (by decide)
      (mod_lt mc) (src_lt c) (by decide) (by decide), fun st hst => ?_⟩
    have F := loFields (M := 16) (m := 0) (d := d.code) (a := a.code) (b := 0) (t := t.code) (r := red.toNat) (l
      := 1) (hiNat (ma.code) (0) (mc.code) (c.code) (0) (1)) (by decide) (by decide) (dst_lt d) (src_lt a)
      (by decide) (ty_lt t) (bool_lt red) (by decide) hst
    have H := hiFields (ma := ma.code) (mb := 0) (mc := mc.code) (c := c.code) (t2 := 0) (ext := 1) (lo_lt (M := 16)
      (m := 0) (d := d.code) (a := a.code) (b := 0) (t := t.code) (r := red.toNat) (l := 1) (by decide) (by decide)
      (dst_lt d) (src_lt a) (by decide) (ty_lt t) (bool_lt red) (by decide) hst) (mod_lt ma) (by decide) (mod_lt mc)
      (src_lt c) (by decide) (by decide)
    rw [← encHi_eq] at F
    generalize encLo 16 0 (d.code) (a.code) (0) (t.code) (red.toNat) 1
      + encHi (ma.code) (0) (mc.code) (c.code) (0) (1) + st = W at F H ⊢
    simp only [decodeSyl, F.major, decScan, decScanT, hiScan, decSeg, isVW, needL, zero, guardOr, dstD, srcA, srcB,
      F.l, F.major, F.minor, F.d, F.a, F.b, F.t, F.r, H.f32_3, H.f35_3, H.f46_4, H.f50_1, H.f51_13, H.f52_12,
      H.f51_1, H.f38_8, H.f38_3, H.f41_5, decTy_code ht, decSrc_code, decDst_code, decMod_code, fin_code, bv_code,
      bool_code]
    rfl

theorem scanMin (t : Ty) (red : Bool) (d : Dst) (a : Src) (w : Option ScanExt) : Statement (.scanMin t red d a w)
  := by
  intro u hw hwf
  have ht : t.isScan = true := hwf
  rcases w with _ | ⟨ma, _ | ⟨c, mc⟩⟩
  · obtain rfl : encLo 16 1 (d.code) (a.code) (0) (t.code) (red.toNat) 0 = u := Option.some.inj hw
    refine ⟨fits_lo0 (M := 16) (m := 1) (d := d.code) (a := a.code) (b := 0) (t := t.code) (r := red.toNat)
      (by decide) (by decide) (dst_lt d) (src_lt a) (by decide) (ty_lt t) (bool_lt red), fun st hst => ?_⟩
    have F := loFields0 (M := 16) (m := 1) (d := d.code) (a := a.code) (b := 0) (t := t.code) (r := red.toNat) (l
      := 0) (by decide) (by decide) (dst_lt d) (src_lt a) (by decide) (ty_lt t) (bool_lt red) (by decide) hst
    generalize encLo 16 1 (d.code) (a.code) (0) (t.code) (red.toNat) 0 + st = W at F ⊢
    simp only [decodeSyl, F.major, decScan, decScanT, hiScan, isVW, needL, zero, guardOr, dstD, srcA, srcB, F.l,
      F.major, F.minor, F.d, F.a, F.b, F.t, F.r, decTy_code ht, decSrc_code, decDst_code, decMod_code, fin_code,
      bv_code, bool_code]
    rfl
  · obtain rfl : encLo 16 1 (d.code) (a.code) (0) (t.code) (red.toNat) 1 + encHi (ma.code) (0) (0) (0) (0) (0) = u
      := Option.some.inj hw
    refine ⟨fits_vw (M := 16) (m := 1) (d := d.code) (a := a.code) (b := 0) (t := t.code) (r := red.toNat)
      (by decide) (by decide) (dst_lt d) (src_lt a) (by decide) (ty_lt t) (bool_lt red) (mod_lt ma) (by decide)
      (by decide) (by decide) (by decide) (by decide), fun st hst => ?_⟩
    have F := loFields (M := 16) (m := 1) (d := d.code) (a := a.code) (b := 0) (t := t.code) (r := red.toNat) (l
      := 1) (hiNat (ma.code) (0) (0) (0) (0) (0)) (by decide) (by decide) (dst_lt d) (src_lt a) (by decide) (ty_lt t)
      (bool_lt red) (by decide) hst
    have H := hiFields (ma := ma.code) (mb := 0) (mc := 0) (c := 0) (t2 := 0) (ext := 0) (lo_lt (M := 16) (m := 1) (d
      := d.code) (a := a.code) (b := 0) (t := t.code) (r := red.toNat) (l := 1) (by decide) (by decide) (dst_lt d)
      (src_lt a) (by decide) (ty_lt t) (bool_lt red) (by decide) hst) (mod_lt ma) (by decide) (by decide) (by decide)
      (by decide) (by decide)
    rw [← encHi_eq] at F
    generalize encLo 16 1 (d.code) (a.code) (0) (t.code) (red.toNat) 1 + encHi (ma.code) (0) (0) (0) (0) (0) + st = W
      at F H ⊢
    simp only [decodeSyl, F.major, decScan, decScanT, hiScan, decSeg, isVW, needL, zero, guardOr, dstD, srcA, srcB,
      F.l, F.major, F.minor, F.d, F.a, F.b, F.t, F.r, H.f32_3, H.f35_3, H.f46_4, H.f50_1, H.f51_13, H.f52_12,
      H.f51_1, H.f38_8, H.f38_3, H.f41_5, decTy_code ht, decSrc_code, decDst_code, decMod_code, fin_code, bv_code,
      bool_code]
    rfl
  · obtain rfl : encLo 16 1 (d.code) (a.code) (0) (t.code) (red.toNat) 1 + encHi (ma.code) (0) (mc.code) (c.code) (0)
      (1) = u := Option.some.inj hw
    refine ⟨fits_vw (M := 16) (m := 1) (d := d.code) (a := a.code) (b := 0) (t := t.code) (r := red.toNat)
      (by decide) (by decide) (dst_lt d) (src_lt a) (by decide) (ty_lt t) (bool_lt red) (mod_lt ma) (by decide)
      (mod_lt mc) (src_lt c) (by decide) (by decide), fun st hst => ?_⟩
    have F := loFields (M := 16) (m := 1) (d := d.code) (a := a.code) (b := 0) (t := t.code) (r := red.toNat) (l
      := 1) (hiNat (ma.code) (0) (mc.code) (c.code) (0) (1)) (by decide) (by decide) (dst_lt d) (src_lt a)
      (by decide) (ty_lt t) (bool_lt red) (by decide) hst
    have H := hiFields (ma := ma.code) (mb := 0) (mc := mc.code) (c := c.code) (t2 := 0) (ext := 1) (lo_lt (M := 16)
      (m := 1) (d := d.code) (a := a.code) (b := 0) (t := t.code) (r := red.toNat) (l := 1) (by decide) (by decide)
      (dst_lt d) (src_lt a) (by decide) (ty_lt t) (bool_lt red) (by decide) hst) (mod_lt ma) (by decide) (mod_lt mc)
      (src_lt c) (by decide) (by decide)
    rw [← encHi_eq] at F
    generalize encLo 16 1 (d.code) (a.code) (0) (t.code) (red.toNat) 1
      + encHi (ma.code) (0) (mc.code) (c.code) (0) (1) + st = W at F H ⊢
    simp only [decodeSyl, F.major, decScan, decScanT, hiScan, decSeg, isVW, needL, zero, guardOr, dstD, srcA, srcB,
      F.l, F.major, F.minor, F.d, F.a, F.b, F.t, F.r, H.f32_3, H.f35_3, H.f46_4, H.f50_1, H.f51_13, H.f52_12,
      H.f51_1, H.f38_8, H.f38_3, H.f41_5, decTy_code ht, decSrc_code, decDst_code, decMod_code, fin_code, bv_code,
      bool_code]
    rfl

theorem scanMax (t : Ty) (red : Bool) (d : Dst) (a : Src) (w : Option ScanExt) : Statement (.scanMax t red d a w)
  := by
  intro u hw hwf
  have ht : t.isScan = true := hwf
  rcases w with _ | ⟨ma, _ | ⟨c, mc⟩⟩
  · obtain rfl : encLo 16 2 (d.code) (a.code) (0) (t.code) (red.toNat) 0 = u := Option.some.inj hw
    refine ⟨fits_lo0 (M := 16) (m := 2) (d := d.code) (a := a.code) (b := 0) (t := t.code) (r := red.toNat)
      (by decide) (by decide) (dst_lt d) (src_lt a) (by decide) (ty_lt t) (bool_lt red), fun st hst => ?_⟩
    have F := loFields0 (M := 16) (m := 2) (d := d.code) (a := a.code) (b := 0) (t := t.code) (r := red.toNat) (l
      := 0) (by decide) (by decide) (dst_lt d) (src_lt a) (by decide) (ty_lt t) (bool_lt red) (by decide) hst
    generalize encLo 16 2 (d.code) (a.code) (0) (t.code) (red.toNat) 0 + st = W at F ⊢
    simp only [decodeSyl, F.major, decScan, decScanT, hiScan, isVW, needL, zero, guardOr, dstD, srcA, srcB, F.l,
      F.major, F.minor, F.d, F.a, F.b, F.t, F.r, decTy_code ht, decSrc_code, decDst_code, decMod_code, fin_code,
      bv_code, bool_code]
    rfl
  · obtain rfl : encLo 16 2 (d.code) (a.code) (0) (t.code) (red.toNat) 1 + encHi (ma.code) (0) (0) (0) (0) (0) = u
      := Option.some.inj hw
    refine ⟨fits_vw (M := 16) (m := 2) (d := d.code) (a := a.code) (b := 0) (t := t.code) (r := red.toNat)
      (by decide) (by decide) (dst_lt d) (src_lt a) (by decide) (ty_lt t) (bool_lt red) (mod_lt ma) (by decide)
      (by decide) (by decide) (by decide) (by decide), fun st hst => ?_⟩
    have F := loFields (M := 16) (m := 2) (d := d.code) (a := a.code) (b := 0) (t := t.code) (r := red.toNat) (l
      := 1) (hiNat (ma.code) (0) (0) (0) (0) (0)) (by decide) (by decide) (dst_lt d) (src_lt a) (by decide) (ty_lt t)
      (bool_lt red) (by decide) hst
    have H := hiFields (ma := ma.code) (mb := 0) (mc := 0) (c := 0) (t2 := 0) (ext := 0) (lo_lt (M := 16) (m := 2) (d
      := d.code) (a := a.code) (b := 0) (t := t.code) (r := red.toNat) (l := 1) (by decide) (by decide) (dst_lt d)
      (src_lt a) (by decide) (ty_lt t) (bool_lt red) (by decide) hst) (mod_lt ma) (by decide) (by decide) (by decide)
      (by decide) (by decide)
    rw [← encHi_eq] at F
    generalize encLo 16 2 (d.code) (a.code) (0) (t.code) (red.toNat) 1 + encHi (ma.code) (0) (0) (0) (0) (0) + st = W
      at F H ⊢
    simp only [decodeSyl, F.major, decScan, decScanT, hiScan, decSeg, isVW, needL, zero, guardOr, dstD, srcA, srcB,
      F.l, F.major, F.minor, F.d, F.a, F.b, F.t, F.r, H.f32_3, H.f35_3, H.f46_4, H.f50_1, H.f51_13, H.f52_12,
      H.f51_1, H.f38_8, H.f38_3, H.f41_5, decTy_code ht, decSrc_code, decDst_code, decMod_code, fin_code, bv_code,
      bool_code]
    rfl
  · obtain rfl : encLo 16 2 (d.code) (a.code) (0) (t.code) (red.toNat) 1 + encHi (ma.code) (0) (mc.code) (c.code) (0)
      (1) = u := Option.some.inj hw
    refine ⟨fits_vw (M := 16) (m := 2) (d := d.code) (a := a.code) (b := 0) (t := t.code) (r := red.toNat)
      (by decide) (by decide) (dst_lt d) (src_lt a) (by decide) (ty_lt t) (bool_lt red) (mod_lt ma) (by decide)
      (mod_lt mc) (src_lt c) (by decide) (by decide), fun st hst => ?_⟩
    have F := loFields (M := 16) (m := 2) (d := d.code) (a := a.code) (b := 0) (t := t.code) (r := red.toNat) (l
      := 1) (hiNat (ma.code) (0) (mc.code) (c.code) (0) (1)) (by decide) (by decide) (dst_lt d) (src_lt a)
      (by decide) (ty_lt t) (bool_lt red) (by decide) hst
    have H := hiFields (ma := ma.code) (mb := 0) (mc := mc.code) (c := c.code) (t2 := 0) (ext := 1) (lo_lt (M := 16)
      (m := 2) (d := d.code) (a := a.code) (b := 0) (t := t.code) (r := red.toNat) (l := 1) (by decide) (by decide)
      (dst_lt d) (src_lt a) (by decide) (ty_lt t) (bool_lt red) (by decide) hst) (mod_lt ma) (by decide) (mod_lt mc)
      (src_lt c) (by decide) (by decide)
    rw [← encHi_eq] at F
    generalize encLo 16 2 (d.code) (a.code) (0) (t.code) (red.toNat) 1
      + encHi (ma.code) (0) (mc.code) (c.code) (0) (1) + st = W at F H ⊢
    simp only [decodeSyl, F.major, decScan, decScanT, hiScan, decSeg, isVW, needL, zero, guardOr, dstD, srcA, srcB,
      F.l, F.major, F.minor, F.d, F.a, F.b, F.t, F.r, H.f32_3, H.f35_3, H.f46_4, H.f50_1, H.f51_13, H.f52_12,
      H.f51_1, H.f38_8, H.f38_3, H.f41_5, decTy_code ht, decSrc_code, decDst_code, decMod_code, fin_code, bv_code,
      bool_code]
    rfl

theorem scanMini (t : Ty) (red : Bool) (d : Dst) (a b : Src) (w : Option ScanArgExt) : Statement (.scanMini t red d a
  b w) := by
  intro u hw hwf
  have ht : t.isScan = true := hwf
  rcases w with _ | ⟨ma, mb, tie, _ | ⟨c, mc⟩⟩
  · obtain rfl : encLo 16 3 (d.code) (a.code) (b.code) (t.code) (red.toNat) 0 = u := Option.some.inj hw
    refine ⟨fits_lo0 (M := 16) (m := 3) (d := d.code) (a := a.code) (b := b.code) (t := t.code) (r := red.toNat)
      (by decide) (by decide) (dst_lt d) (src_lt a) (src_lt b) (ty_lt t) (bool_lt red), fun st hst => ?_⟩
    have F := loFields0 (M := 16) (m := 3) (d := d.code) (a := a.code) (b := b.code) (t := t.code) (r := red.toNat)
      (l := 0) (by decide) (by decide) (dst_lt d) (src_lt a) (src_lt b) (ty_lt t) (bool_lt red) (by decide) hst
    generalize encLo 16 3 (d.code) (a.code) (b.code) (t.code) (red.toNat) 0 + st = W at F ⊢
    simp only [decodeSyl, F.major, decScan, decScanArg, hiScanArg, isVW, needL, zero, guardOr, dstD, srcA, srcB, F.l,
      F.major, F.minor, F.d, F.a, F.b, F.t, F.r, decTy_code ht, decSrc_code, decDst_code, decMod_code, fin_code,
      bv_code, bool_code]
    rfl
  · obtain rfl : encLo 16 3 (d.code) (a.code) (b.code) (t.code) (red.toNat) 1 + encHi (ma.code) (mb.code) (0) (0) (0)
      (0 + 2 * tie.toNat) = u := Option.some.inj hw
    refine ⟨fits_vw (M := 16) (m := 3) (d := d.code) (a := a.code) (b := b.code) (t := t.code) (r := red.toNat)
      (by decide) (by decide) (dst_lt d) (src_lt a) (src_lt b) (ty_lt t) (bool_lt red) (mod_lt ma) (mod_lt mb)
      (by decide) (by decide) (by decide) (by have := bool_lt tie; omega), fun st hst => ?_⟩
    have F := loFields (M := 16) (m := 3) (d := d.code) (a := a.code) (b := b.code) (t := t.code) (r := red.toNat) (l
      := 1) (hiNat (ma.code) (mb.code) (0) (0) (0) (0 + 2 * tie.toNat)) (by decide) (by decide) (dst_lt d) (src_lt a)
      (src_lt b) (ty_lt t) (bool_lt red) (by decide) hst
    have H := hiFields (ma := ma.code) (mb := mb.code) (mc := 0) (c := 0) (t2 := 0) (ext := 0 + 2 * tie.toNat) (lo_lt
      (M := 16) (m := 3) (d := d.code) (a := a.code) (b := b.code) (t := t.code) (r := red.toNat) (l := 1)
      (by decide) (by decide) (dst_lt d) (src_lt a) (src_lt b) (ty_lt t) (bool_lt red) (by decide) hst) (mod_lt ma)
      (mod_lt mb) (by decide) (by decide) (by decide) (by have := bool_lt tie; omega)
    rw [← encHi_eq] at F
    have hti := bool_lt tie
    generalize encLo 16 3 (d.code) (a.code) (b.code) (t.code) (red.toNat) 1
      + encHi (ma.code) (mb.code) (0) (0) (0) (0 + 2 * tie.toNat) + st = W at F H ⊢
    simp only [decodeSyl, F.major, decScan, decScanArg, hiScanArg, decSeg, isVW, needL, zero, guardOr, dstD, srcA,
      srcB, F.l, F.major, F.minor, F.d, F.a, F.b, F.t, F.r, H.f32_3, H.f35_3, H.f46_4, H.f50_1, H.f51_13, H.f52_12,
      H.f51_1, H.f38_8, H.f38_3, H.f41_5, seg0_odd tie, seg0_tie tie, seg0_hi tie, decTy_code ht, decSrc_code,
      decDst_code, decMod_code, fin_code, bv_code, bool_code]
    rfl
  · obtain rfl : encLo 16 3 (d.code) (a.code) (b.code) (t.code) (red.toNat) 1 + encHi (ma.code) (mb.code) (mc.code)
      (c.code) (0) (1 + 2 * tie.toNat) = u := Option.some.inj hw
    refine ⟨fits_vw (M := 16) (m := 3) (d := d.code) (a := a.code) (b := b.code) (t := t.code) (r := red.toNat)
      (by decide) (by decide) (dst_lt d) (src_lt a) (src_lt b) (ty_lt t) (bool_lt red) (mod_lt ma) (mod_lt mb)
      (mod_lt mc) (src_lt c) (by decide) (by have := bool_lt tie; omega), fun st hst => ?_⟩
    have F := loFields (M := 16) (m := 3) (d := d.code) (a := a.code) (b := b.code) (t := t.code) (r := red.toNat) (l
      := 1) (hiNat (ma.code) (mb.code) (mc.code) (c.code) (0) (1 + 2 * tie.toNat)) (by decide) (by decide) (dst_lt d)
      (src_lt a) (src_lt b) (ty_lt t) (bool_lt red) (by decide) hst
    have H := hiFields (ma := ma.code) (mb := mb.code) (mc := mc.code) (c := c.code) (t2 := 0) (ext := 1 + 2 *
      tie.toNat) (lo_lt (M := 16) (m := 3) (d := d.code) (a := a.code) (b := b.code) (t := t.code) (r := red.toNat)
      (l := 1) (by decide) (by decide) (dst_lt d) (src_lt a) (src_lt b) (ty_lt t) (bool_lt red) (by decide) hst)
      (mod_lt ma) (mod_lt mb) (mod_lt mc) (src_lt c) (by decide) (by have := bool_lt tie; omega)
    rw [← encHi_eq] at F
    have hti := bool_lt tie
    generalize encLo 16 3 (d.code) (a.code) (b.code) (t.code) (red.toNat) 1
      + encHi (ma.code) (mb.code) (mc.code) (c.code) (0) (1 + 2 * tie.toNat) + st = W at F H ⊢
    simp only [decodeSyl, F.major, decScan, decScanArg, hiScanArg, decSeg, isVW, needL, zero, guardOr, dstD, srcA,
      srcB, F.l, F.major, F.minor, F.d, F.a, F.b, F.t, F.r, H.f32_3, H.f35_3, H.f46_4, H.f50_1, H.f51_13, H.f52_12,
      H.f51_1, H.f38_8, H.f38_3, H.f41_5, seg1_odd tie, seg1_tie tie, seg1_hi tie, decTy_code ht, decSrc_code,
      decDst_code, decMod_code, fin_code, bv_code, bool_code]
    rfl

theorem scanMaxi (t : Ty) (red : Bool) (d : Dst) (a b : Src) (w : Option ScanArgExt) : Statement (.scanMaxi t red d a
  b w) := by
  intro u hw hwf
  have ht : t.isScan = true := hwf
  rcases w with _ | ⟨ma, mb, tie, _ | ⟨c, mc⟩⟩
  · obtain rfl : encLo 16 4 (d.code) (a.code) (b.code) (t.code) (red.toNat) 0 = u := Option.some.inj hw
    refine ⟨fits_lo0 (M := 16) (m := 4) (d := d.code) (a := a.code) (b := b.code) (t := t.code) (r := red.toNat)
      (by decide) (by decide) (dst_lt d) (src_lt a) (src_lt b) (ty_lt t) (bool_lt red), fun st hst => ?_⟩
    have F := loFields0 (M := 16) (m := 4) (d := d.code) (a := a.code) (b := b.code) (t := t.code) (r := red.toNat)
      (l := 0) (by decide) (by decide) (dst_lt d) (src_lt a) (src_lt b) (ty_lt t) (bool_lt red) (by decide) hst
    generalize encLo 16 4 (d.code) (a.code) (b.code) (t.code) (red.toNat) 0 + st = W at F ⊢
    simp only [decodeSyl, F.major, decScan, decScanArg, hiScanArg, isVW, needL, zero, guardOr, dstD, srcA, srcB, F.l,
      F.major, F.minor, F.d, F.a, F.b, F.t, F.r, decTy_code ht, decSrc_code, decDst_code, decMod_code, fin_code,
      bv_code, bool_code]
    rfl
  · obtain rfl : encLo 16 4 (d.code) (a.code) (b.code) (t.code) (red.toNat) 1 + encHi (ma.code) (mb.code) (0) (0) (0)
      (0 + 2 * tie.toNat) = u := Option.some.inj hw
    refine ⟨fits_vw (M := 16) (m := 4) (d := d.code) (a := a.code) (b := b.code) (t := t.code) (r := red.toNat)
      (by decide) (by decide) (dst_lt d) (src_lt a) (src_lt b) (ty_lt t) (bool_lt red) (mod_lt ma) (mod_lt mb)
      (by decide) (by decide) (by decide) (by have := bool_lt tie; omega), fun st hst => ?_⟩
    have F := loFields (M := 16) (m := 4) (d := d.code) (a := a.code) (b := b.code) (t := t.code) (r := red.toNat) (l
      := 1) (hiNat (ma.code) (mb.code) (0) (0) (0) (0 + 2 * tie.toNat)) (by decide) (by decide) (dst_lt d) (src_lt a)
      (src_lt b) (ty_lt t) (bool_lt red) (by decide) hst
    have H := hiFields (ma := ma.code) (mb := mb.code) (mc := 0) (c := 0) (t2 := 0) (ext := 0 + 2 * tie.toNat) (lo_lt
      (M := 16) (m := 4) (d := d.code) (a := a.code) (b := b.code) (t := t.code) (r := red.toNat) (l := 1)
      (by decide) (by decide) (dst_lt d) (src_lt a) (src_lt b) (ty_lt t) (bool_lt red) (by decide) hst) (mod_lt ma)
      (mod_lt mb) (by decide) (by decide) (by decide) (by have := bool_lt tie; omega)
    rw [← encHi_eq] at F
    have hti := bool_lt tie
    generalize encLo 16 4 (d.code) (a.code) (b.code) (t.code) (red.toNat) 1
      + encHi (ma.code) (mb.code) (0) (0) (0) (0 + 2 * tie.toNat) + st = W at F H ⊢
    simp only [decodeSyl, F.major, decScan, decScanArg, hiScanArg, decSeg, isVW, needL, zero, guardOr, dstD, srcA,
      srcB, F.l, F.major, F.minor, F.d, F.a, F.b, F.t, F.r, H.f32_3, H.f35_3, H.f46_4, H.f50_1, H.f51_13, H.f52_12,
      H.f51_1, H.f38_8, H.f38_3, H.f41_5, seg0_odd tie, seg0_tie tie, seg0_hi tie, decTy_code ht, decSrc_code,
      decDst_code, decMod_code, fin_code, bv_code, bool_code]
    rfl
  · obtain rfl : encLo 16 4 (d.code) (a.code) (b.code) (t.code) (red.toNat) 1 + encHi (ma.code) (mb.code) (mc.code)
      (c.code) (0) (1 + 2 * tie.toNat) = u := Option.some.inj hw
    refine ⟨fits_vw (M := 16) (m := 4) (d := d.code) (a := a.code) (b := b.code) (t := t.code) (r := red.toNat)
      (by decide) (by decide) (dst_lt d) (src_lt a) (src_lt b) (ty_lt t) (bool_lt red) (mod_lt ma) (mod_lt mb)
      (mod_lt mc) (src_lt c) (by decide) (by have := bool_lt tie; omega), fun st hst => ?_⟩
    have F := loFields (M := 16) (m := 4) (d := d.code) (a := a.code) (b := b.code) (t := t.code) (r := red.toNat) (l
      := 1) (hiNat (ma.code) (mb.code) (mc.code) (c.code) (0) (1 + 2 * tie.toNat)) (by decide) (by decide) (dst_lt d)
      (src_lt a) (src_lt b) (ty_lt t) (bool_lt red) (by decide) hst
    have H := hiFields (ma := ma.code) (mb := mb.code) (mc := mc.code) (c := c.code) (t2 := 0) (ext := 1 + 2 *
      tie.toNat) (lo_lt (M := 16) (m := 4) (d := d.code) (a := a.code) (b := b.code) (t := t.code) (r := red.toNat)
      (l := 1) (by decide) (by decide) (dst_lt d) (src_lt a) (src_lt b) (ty_lt t) (bool_lt red) (by decide) hst)
      (mod_lt ma) (mod_lt mb) (mod_lt mc) (src_lt c) (by decide) (by have := bool_lt tie; omega)
    rw [← encHi_eq] at F
    have hti := bool_lt tie
    generalize encLo 16 4 (d.code) (a.code) (b.code) (t.code) (red.toNat) 1
      + encHi (ma.code) (mb.code) (mc.code) (c.code) (0) (1 + 2 * tie.toNat) + st = W at F H ⊢
    simp only [decodeSyl, F.major, decScan, decScanArg, hiScanArg, decSeg, isVW, needL, zero, guardOr, dstD, srcA,
      srcB, F.l, F.major, F.minor, F.d, F.a, F.b, F.t, F.r, H.f32_3, H.f35_3, H.f46_4, H.f50_1, H.f51_13, H.f52_12,
      H.f51_1, H.f38_8, H.f38_3, H.f41_5, seg1_odd tie, seg1_tie tie, seg1_hi tie, decTy_code ht, decSrc_code,
      decDst_code, decMod_code, fin_code, bv_code, bool_code]
    rfl

theorem scanAnd (red : Bool) (d : Dst) (a : Src) (w : Option ScanExt) : Statement (.scanAnd red d a w) := by
  intro u hw hwf
  rcases w with _ | ⟨ma, _ | ⟨c, mc⟩⟩
  · obtain rfl : encLo 16 5 (d.code) (a.code) (0) (0) (red.toNat) 0 = u := Option.some.inj hw
    refine ⟨fits_lo0 (M := 16) (m := 5) (d := d.code) (a := a.code) (b := 0) (t := 0) (r := red.toNat) (by decide)
      (by decide) (dst_lt d) (src_lt a) (by decide) (by decide) (bool_lt red), fun st hst => ?_⟩
    have F := loFields0 (M := 16) (m := 5) (d := d.code) (a := a.code) (b := 0) (t := 0) (r := red.toNat) (l := 0)
      (by decide) (by decide) (dst_lt d) (src_lt a) (by decide) (by decide) (bool_lt red) (by decide) hst
    have G := loSpans0 (M := 16) (m := 5) (d := d.code) (a := a.code) (b := 0) (t := 0) (r := red.toNat) (l := 0)
      (by decide) (by decide) (dst_lt d) (src_lt a) (by decide) (by decide) (bool_lt red) (by decide) hst
    generalize encLo 16 5 (d.code) (a.code) (0) (0) (red.toNat) 0 + st = W at F G ⊢
    simp only [decodeSyl, F.major, decScan, decScanU, hiScan, isVW, needL, zero, guardOr, dstD, srcA, srcB, F.l,
      F.major, F.minor, F.d, F.a, F.b, F.t, F.r, G.s22_9, decSrc_code, decDst_code, decMod_code, fin_code, bv_code,
      bool_code]
    rfl
  · obtain rfl : encLo 16 5 (d.code) (a.code) (0) (0) (red.toNat) 1 + encHi (ma.code) (0) (0) (0) (0) (0) = u
      := Option.some.inj hw
    refine ⟨fits_vw (M := 16) (m := 5) (d := d.code) (a := a.code) (b := 0) (t := 0) (r := red.toNat) (by decide)
      (by decide) (dst_lt d) (src_lt a) (by decide) (by decide) (bool_lt red) (mod_lt ma) (by decide) (by decide)
      (by decide) (by decide) (by decide), fun st hst => ?_⟩
    have F := loFields (M := 16) (m := 5) (d := d.code) (a := a.code) (b := 0) (t := 0) (r := red.toNat) (l := 1)
      (hiNat (ma.code) (0) (0) (0) (0) (0)) (by decide) (by decide) (dst_lt d) (src_lt a) (by decide) (by decide)
      (bool_lt red) (by decide) hst
    have G := loSpans (M := 16) (m := 5) (d := d.code) (a := a.code) (b := 0) (t := 0) (r := red.toNat) (l := 1)
      (hiNat (ma.code) (0) (0) (0) (0) (0)) (by decide) (by decide) (dst_lt d) (src_lt a) (by decide) (by decide)
      (bool_lt red) (by decide) hst
    have H := hiFields (ma := ma.code) (mb := 0) (mc := 0) (c := 0) (t2 := 0) (ext := 0) (lo_lt (M := 16) (m := 5) (d
      := d.code) (a := a.code) (b := 0) (t := 0) (r := red.toNat) (l := 1) (by decide) (by decide) (dst_lt d) (src_lt
      a) (by decide) (by decide) (bool_lt red) (by decide) hst) (mod_lt ma) (by decide) (by decide) (by decide)
      (by decide) (by decide)
    rw [← encHi_eq] at F G
    generalize encLo 16 5 (d.code) (a.code) (0) (0) (red.toNat) 1 + encHi (ma.code) (0) (0) (0) (0) (0) + st = W
      at F G H ⊢
    simp only [decodeSyl, F.major, decScan, decScanU, hiScan, decSeg, isVW, needL, zero, guardOr, dstD, srcA, srcB,
      F.l, F.major, F.minor, F.d, F.a, F.b, F.t, F.r, H.f32_3, H.f35_3, H.f46_4, H.f50_1, H.f51_13, H.f52_12,
      H.f51_1, H.f38_8, H.f38_3, H.f41_5, G.s22_9, decSrc_code, decDst_code, decMod_code, fin_code, bv_code,
      bool_code]
    rfl
  · obtain rfl : encLo 16 5 (d.code) (a.code) (0) (0) (red.toNat) 1 + encHi (ma.code) (0) (mc.code) (c.code) (0) (1)
      = u := Option.some.inj hw
    refine ⟨fits_vw (M := 16) (m := 5) (d := d.code) (a := a.code) (b := 0) (t := 0) (r := red.toNat) (by decide)
      (by decide) (dst_lt d) (src_lt a) (by decide) (by decide) (bool_lt red) (mod_lt ma) (by decide) (mod_lt mc)
      (src_lt c) (by decide) (by decide), fun st hst => ?_⟩
    have F := loFields (M := 16) (m := 5) (d := d.code) (a := a.code) (b := 0) (t := 0) (r := red.toNat) (l := 1)
      (hiNat (ma.code) (0) (mc.code) (c.code) (0) (1)) (by decide) (by decide) (dst_lt d) (src_lt a) (by decide)
      (by decide) (bool_lt red) (by decide) hst
    have G := loSpans (M := 16) (m := 5) (d := d.code) (a := a.code) (b := 0) (t := 0) (r := red.toNat) (l := 1)
      (hiNat (ma.code) (0) (mc.code) (c.code) (0) (1)) (by decide) (by decide) (dst_lt d) (src_lt a) (by decide)
      (by decide) (bool_lt red) (by decide) hst
    have H := hiFields (ma := ma.code) (mb := 0) (mc := mc.code) (c := c.code) (t2 := 0) (ext := 1) (lo_lt (M := 16)
      (m := 5) (d := d.code) (a := a.code) (b := 0) (t := 0) (r := red.toNat) (l := 1) (by decide) (by decide)
      (dst_lt d) (src_lt a) (by decide) (by decide) (bool_lt red) (by decide) hst) (mod_lt ma) (by decide) (mod_lt
      mc) (src_lt c) (by decide) (by decide)
    rw [← encHi_eq] at F G
    generalize encLo 16 5 (d.code) (a.code) (0) (0) (red.toNat) 1 + encHi (ma.code) (0) (mc.code) (c.code) (0) (1)
      + st = W at F G H ⊢
    simp only [decodeSyl, F.major, decScan, decScanU, hiScan, decSeg, isVW, needL, zero, guardOr, dstD, srcA, srcB,
      F.l, F.major, F.minor, F.d, F.a, F.b, F.t, F.r, H.f32_3, H.f35_3, H.f46_4, H.f50_1, H.f51_13, H.f52_12,
      H.f51_1, H.f38_8, H.f38_3, H.f41_5, G.s22_9, decSrc_code, decDst_code, decMod_code, fin_code, bv_code,
      bool_code]
    rfl

theorem scanOr (red : Bool) (d : Dst) (a : Src) (w : Option ScanExt) : Statement (.scanOr red d a w) := by
  intro u hw hwf
  rcases w with _ | ⟨ma, _ | ⟨c, mc⟩⟩
  · obtain rfl : encLo 16 6 (d.code) (a.code) (0) (0) (red.toNat) 0 = u := Option.some.inj hw
    refine ⟨fits_lo0 (M := 16) (m := 6) (d := d.code) (a := a.code) (b := 0) (t := 0) (r := red.toNat) (by decide)
      (by decide) (dst_lt d) (src_lt a) (by decide) (by decide) (bool_lt red), fun st hst => ?_⟩
    have F := loFields0 (M := 16) (m := 6) (d := d.code) (a := a.code) (b := 0) (t := 0) (r := red.toNat) (l := 0)
      (by decide) (by decide) (dst_lt d) (src_lt a) (by decide) (by decide) (bool_lt red) (by decide) hst
    have G := loSpans0 (M := 16) (m := 6) (d := d.code) (a := a.code) (b := 0) (t := 0) (r := red.toNat) (l := 0)
      (by decide) (by decide) (dst_lt d) (src_lt a) (by decide) (by decide) (bool_lt red) (by decide) hst
    generalize encLo 16 6 (d.code) (a.code) (0) (0) (red.toNat) 0 + st = W at F G ⊢
    simp only [decodeSyl, F.major, decScan, decScanU, hiScan, isVW, needL, zero, guardOr, dstD, srcA, srcB, F.l,
      F.major, F.minor, F.d, F.a, F.b, F.t, F.r, G.s22_9, decSrc_code, decDst_code, decMod_code, fin_code, bv_code,
      bool_code]
    rfl
  · obtain rfl : encLo 16 6 (d.code) (a.code) (0) (0) (red.toNat) 1 + encHi (ma.code) (0) (0) (0) (0) (0) = u
      := Option.some.inj hw
    refine ⟨fits_vw (M := 16) (m := 6) (d := d.code) (a := a.code) (b := 0) (t := 0) (r := red.toNat) (by decide)
      (by decide) (dst_lt d) (src_lt a) (by decide) (by decide) (bool_lt red) (mod_lt ma) (by decide) (by decide)
      (by decide) (by decide) (by decide), fun st hst => ?_⟩
    have F := loFields (M := 16) (m := 6) (d := d.code) (a := a.code) (b := 0) (t := 0) (r := red.toNat) (l := 1)
      (hiNat (ma.code) (0) (0) (0) (0) (0)) (by decide) (by decide) (dst_lt d) (src_lt a) (by decide) (by decide)
      (bool_lt red) (by decide) hst
    have G := loSpans (M := 16) (m := 6) (d := d.code) (a := a.code) (b := 0) (t := 0) (r := red.toNat) (l := 1)
      (hiNat (ma.code) (0) (0) (0) (0) (0)) (by decide) (by decide) (dst_lt d) (src_lt a) (by decide) (by decide)
      (bool_lt red) (by decide) hst
    have H := hiFields (ma := ma.code) (mb := 0) (mc := 0) (c := 0) (t2 := 0) (ext := 0) (lo_lt (M := 16) (m := 6) (d
      := d.code) (a := a.code) (b := 0) (t := 0) (r := red.toNat) (l := 1) (by decide) (by decide) (dst_lt d) (src_lt
      a) (by decide) (by decide) (bool_lt red) (by decide) hst) (mod_lt ma) (by decide) (by decide) (by decide)
      (by decide) (by decide)
    rw [← encHi_eq] at F G
    generalize encLo 16 6 (d.code) (a.code) (0) (0) (red.toNat) 1 + encHi (ma.code) (0) (0) (0) (0) (0) + st = W
      at F G H ⊢
    simp only [decodeSyl, F.major, decScan, decScanU, hiScan, decSeg, isVW, needL, zero, guardOr, dstD, srcA, srcB,
      F.l, F.major, F.minor, F.d, F.a, F.b, F.t, F.r, H.f32_3, H.f35_3, H.f46_4, H.f50_1, H.f51_13, H.f52_12,
      H.f51_1, H.f38_8, H.f38_3, H.f41_5, G.s22_9, decSrc_code, decDst_code, decMod_code, fin_code, bv_code,
      bool_code]
    rfl
  · obtain rfl : encLo 16 6 (d.code) (a.code) (0) (0) (red.toNat) 1 + encHi (ma.code) (0) (mc.code) (c.code) (0) (1)
      = u := Option.some.inj hw
    refine ⟨fits_vw (M := 16) (m := 6) (d := d.code) (a := a.code) (b := 0) (t := 0) (r := red.toNat) (by decide)
      (by decide) (dst_lt d) (src_lt a) (by decide) (by decide) (bool_lt red) (mod_lt ma) (by decide) (mod_lt mc)
      (src_lt c) (by decide) (by decide), fun st hst => ?_⟩
    have F := loFields (M := 16) (m := 6) (d := d.code) (a := a.code) (b := 0) (t := 0) (r := red.toNat) (l := 1)
      (hiNat (ma.code) (0) (mc.code) (c.code) (0) (1)) (by decide) (by decide) (dst_lt d) (src_lt a) (by decide)
      (by decide) (bool_lt red) (by decide) hst
    have G := loSpans (M := 16) (m := 6) (d := d.code) (a := a.code) (b := 0) (t := 0) (r := red.toNat) (l := 1)
      (hiNat (ma.code) (0) (mc.code) (c.code) (0) (1)) (by decide) (by decide) (dst_lt d) (src_lt a) (by decide)
      (by decide) (bool_lt red) (by decide) hst
    have H := hiFields (ma := ma.code) (mb := 0) (mc := mc.code) (c := c.code) (t2 := 0) (ext := 1) (lo_lt (M := 16)
      (m := 6) (d := d.code) (a := a.code) (b := 0) (t := 0) (r := red.toNat) (l := 1) (by decide) (by decide)
      (dst_lt d) (src_lt a) (by decide) (by decide) (bool_lt red) (by decide) hst) (mod_lt ma) (by decide) (mod_lt
      mc) (src_lt c) (by decide) (by decide)
    rw [← encHi_eq] at F G
    generalize encLo 16 6 (d.code) (a.code) (0) (0) (red.toNat) 1 + encHi (ma.code) (0) (mc.code) (c.code) (0) (1)
      + st = W at F G H ⊢
    simp only [decodeSyl, F.major, decScan, decScanU, hiScan, decSeg, isVW, needL, zero, guardOr, dstD, srcA, srcB,
      F.l, F.major, F.minor, F.d, F.a, F.b, F.t, F.r, H.f32_3, H.f35_3, H.f46_4, H.f50_1, H.f51_13, H.f52_12,
      H.f51_1, H.f38_8, H.f38_3, H.f41_5, G.s22_9, decSrc_code, decDst_code, decMod_code, fin_code, bv_code,
      bool_code]
    rfl

theorem scanXor (red : Bool) (d : Dst) (a : Src) (w : Option ScanExt) : Statement (.scanXor red d a w) := by
  intro u hw hwf
  rcases w with _ | ⟨ma, _ | ⟨c, mc⟩⟩
  · obtain rfl : encLo 16 7 (d.code) (a.code) (0) (0) (red.toNat) 0 = u := Option.some.inj hw
    refine ⟨fits_lo0 (M := 16) (m := 7) (d := d.code) (a := a.code) (b := 0) (t := 0) (r := red.toNat) (by decide)
      (by decide) (dst_lt d) (src_lt a) (by decide) (by decide) (bool_lt red), fun st hst => ?_⟩
    have F := loFields0 (M := 16) (m := 7) (d := d.code) (a := a.code) (b := 0) (t := 0) (r := red.toNat) (l := 0)
      (by decide) (by decide) (dst_lt d) (src_lt a) (by decide) (by decide) (bool_lt red) (by decide) hst
    have G := loSpans0 (M := 16) (m := 7) (d := d.code) (a := a.code) (b := 0) (t := 0) (r := red.toNat) (l := 0)
      (by decide) (by decide) (dst_lt d) (src_lt a) (by decide) (by decide) (bool_lt red) (by decide) hst
    generalize encLo 16 7 (d.code) (a.code) (0) (0) (red.toNat) 0 + st = W at F G ⊢
    simp only [decodeSyl, F.major, decScan, decScanU, hiScan, isVW, needL, zero, guardOr, dstD, srcA, srcB, F.l,
      F.major, F.minor, F.d, F.a, F.b, F.t, F.r, G.s22_9, decSrc_code, decDst_code, decMod_code, fin_code, bv_code,
      bool_code]
    rfl
  · obtain rfl : encLo 16 7 (d.code) (a.code) (0) (0) (red.toNat) 1 + encHi (ma.code) (0) (0) (0) (0) (0) = u
      := Option.some.inj hw
    refine ⟨fits_vw (M := 16) (m := 7) (d := d.code) (a := a.code) (b := 0) (t := 0) (r := red.toNat) (by decide)
      (by decide) (dst_lt d) (src_lt a) (by decide) (by decide) (bool_lt red) (mod_lt ma) (by decide) (by decide)
      (by decide) (by decide) (by decide), fun st hst => ?_⟩
    have F := loFields (M := 16) (m := 7) (d := d.code) (a := a.code) (b := 0) (t := 0) (r := red.toNat) (l := 1)
      (hiNat (ma.code) (0) (0) (0) (0) (0)) (by decide) (by decide) (dst_lt d) (src_lt a) (by decide) (by decide)
      (bool_lt red) (by decide) hst
    have G := loSpans (M := 16) (m := 7) (d := d.code) (a := a.code) (b := 0) (t := 0) (r := red.toNat) (l := 1)
      (hiNat (ma.code) (0) (0) (0) (0) (0)) (by decide) (by decide) (dst_lt d) (src_lt a) (by decide) (by decide)
      (bool_lt red) (by decide) hst
    have H := hiFields (ma := ma.code) (mb := 0) (mc := 0) (c := 0) (t2 := 0) (ext := 0) (lo_lt (M := 16) (m := 7) (d
      := d.code) (a := a.code) (b := 0) (t := 0) (r := red.toNat) (l := 1) (by decide) (by decide) (dst_lt d) (src_lt
      a) (by decide) (by decide) (bool_lt red) (by decide) hst) (mod_lt ma) (by decide) (by decide) (by decide)
      (by decide) (by decide)
    rw [← encHi_eq] at F G
    generalize encLo 16 7 (d.code) (a.code) (0) (0) (red.toNat) 1 + encHi (ma.code) (0) (0) (0) (0) (0) + st = W
      at F G H ⊢
    simp only [decodeSyl, F.major, decScan, decScanU, hiScan, decSeg, isVW, needL, zero, guardOr, dstD, srcA, srcB,
      F.l, F.major, F.minor, F.d, F.a, F.b, F.t, F.r, H.f32_3, H.f35_3, H.f46_4, H.f50_1, H.f51_13, H.f52_12,
      H.f51_1, H.f38_8, H.f38_3, H.f41_5, G.s22_9, decSrc_code, decDst_code, decMod_code, fin_code, bv_code,
      bool_code]
    rfl
  · obtain rfl : encLo 16 7 (d.code) (a.code) (0) (0) (red.toNat) 1 + encHi (ma.code) (0) (mc.code) (c.code) (0) (1)
      = u := Option.some.inj hw
    refine ⟨fits_vw (M := 16) (m := 7) (d := d.code) (a := a.code) (b := 0) (t := 0) (r := red.toNat) (by decide)
      (by decide) (dst_lt d) (src_lt a) (by decide) (by decide) (bool_lt red) (mod_lt ma) (by decide) (mod_lt mc)
      (src_lt c) (by decide) (by decide), fun st hst => ?_⟩
    have F := loFields (M := 16) (m := 7) (d := d.code) (a := a.code) (b := 0) (t := 0) (r := red.toNat) (l := 1)
      (hiNat (ma.code) (0) (mc.code) (c.code) (0) (1)) (by decide) (by decide) (dst_lt d) (src_lt a) (by decide)
      (by decide) (bool_lt red) (by decide) hst
    have G := loSpans (M := 16) (m := 7) (d := d.code) (a := a.code) (b := 0) (t := 0) (r := red.toNat) (l := 1)
      (hiNat (ma.code) (0) (mc.code) (c.code) (0) (1)) (by decide) (by decide) (dst_lt d) (src_lt a) (by decide)
      (by decide) (bool_lt red) (by decide) hst
    have H := hiFields (ma := ma.code) (mb := 0) (mc := mc.code) (c := c.code) (t2 := 0) (ext := 1) (lo_lt (M := 16)
      (m := 7) (d := d.code) (a := a.code) (b := 0) (t := 0) (r := red.toNat) (l := 1) (by decide) (by decide)
      (dst_lt d) (src_lt a) (by decide) (by decide) (bool_lt red) (by decide) hst) (mod_lt ma) (by decide) (mod_lt
      mc) (src_lt c) (by decide) (by decide)
    rw [← encHi_eq] at F G
    generalize encLo 16 7 (d.code) (a.code) (0) (0) (red.toNat) 1 + encHi (ma.code) (0) (mc.code) (c.code) (0) (1)
      + st = W at F G H ⊢
    simp only [decodeSyl, F.major, decScan, decScanU, hiScan, decSeg, isVW, needL, zero, guardOr, dstD, srcA, srcB,
      F.l, F.major, F.minor, F.d, F.a, F.b, F.t, F.r, H.f32_3, H.f35_3, H.f46_4, H.f50_1, H.f51_13, H.f52_12,
      H.f51_1, H.f38_8, H.f38_3, H.f41_5, G.s22_9, decSrc_code, decDst_code, decMod_code, fin_code, bv_code,
      bool_code]
    rfl

theorem scanFirst (red : Bool) (d : Dst) (a : Src) (w : Option ScanExt) : Statement (.scanFirst red d a w) := by
  intro u hw hwf
  rcases w with _ | ⟨ma, _ | ⟨c, mc⟩⟩
  · obtain rfl : encLo 16 8 (d.code) (a.code) (0) (0) (red.toNat) 0 = u := Option.some.inj hw
    refine ⟨fits_lo0 (M := 16) (m := 8) (d := d.code) (a := a.code) (b := 0) (t := 0) (r := red.toNat) (by decide)
      (by decide) (dst_lt d) (src_lt a) (by decide) (by decide) (bool_lt red), fun st hst => ?_⟩
    have F := loFields0 (M := 16) (m := 8) (d := d.code) (a := a.code) (b := 0) (t := 0) (r := red.toNat) (l := 0)
      (by decide) (by decide) (dst_lt d) (src_lt a) (by decide) (by decide) (bool_lt red) (by decide) hst
    have G := loSpans0 (M := 16) (m := 8) (d := d.code) (a := a.code) (b := 0) (t := 0) (r := red.toNat) (l := 0)
      (by decide) (by decide) (dst_lt d) (src_lt a) (by decide) (by decide) (bool_lt red) (by decide) hst
    generalize encLo 16 8 (d.code) (a.code) (0) (0) (red.toNat) 0 + st = W at F G ⊢
    simp only [decodeSyl, F.major, decScan, decScanU, hiScan, isVW, needL, zero, guardOr, dstD, srcA, srcB, F.l,
      F.major, F.minor, F.d, F.a, F.b, F.t, F.r, G.s22_9, decSrc_code, decDst_code, decMod_code, fin_code, bv_code,
      bool_code]
    rfl
  · obtain rfl : encLo 16 8 (d.code) (a.code) (0) (0) (red.toNat) 1 + encHi (ma.code) (0) (0) (0) (0) (0) = u
      := Option.some.inj hw
    refine ⟨fits_vw (M := 16) (m := 8) (d := d.code) (a := a.code) (b := 0) (t := 0) (r := red.toNat) (by decide)
      (by decide) (dst_lt d) (src_lt a) (by decide) (by decide) (bool_lt red) (mod_lt ma) (by decide) (by decide)
      (by decide) (by decide) (by decide), fun st hst => ?_⟩
    have F := loFields (M := 16) (m := 8) (d := d.code) (a := a.code) (b := 0) (t := 0) (r := red.toNat) (l := 1)
      (hiNat (ma.code) (0) (0) (0) (0) (0)) (by decide) (by decide) (dst_lt d) (src_lt a) (by decide) (by decide)
      (bool_lt red) (by decide) hst
    have G := loSpans (M := 16) (m := 8) (d := d.code) (a := a.code) (b := 0) (t := 0) (r := red.toNat) (l := 1)
      (hiNat (ma.code) (0) (0) (0) (0) (0)) (by decide) (by decide) (dst_lt d) (src_lt a) (by decide) (by decide)
      (bool_lt red) (by decide) hst
    have H := hiFields (ma := ma.code) (mb := 0) (mc := 0) (c := 0) (t2 := 0) (ext := 0) (lo_lt (M := 16) (m := 8) (d
      := d.code) (a := a.code) (b := 0) (t := 0) (r := red.toNat) (l := 1) (by decide) (by decide) (dst_lt d) (src_lt
      a) (by decide) (by decide) (bool_lt red) (by decide) hst) (mod_lt ma) (by decide) (by decide) (by decide)
      (by decide) (by decide)
    rw [← encHi_eq] at F G
    generalize encLo 16 8 (d.code) (a.code) (0) (0) (red.toNat) 1 + encHi (ma.code) (0) (0) (0) (0) (0) + st = W
      at F G H ⊢
    simp only [decodeSyl, F.major, decScan, decScanU, hiScan, decSeg, isVW, needL, zero, guardOr, dstD, srcA, srcB,
      F.l, F.major, F.minor, F.d, F.a, F.b, F.t, F.r, H.f32_3, H.f35_3, H.f46_4, H.f50_1, H.f51_13, H.f52_12,
      H.f51_1, H.f38_8, H.f38_3, H.f41_5, G.s22_9, decSrc_code, decDst_code, decMod_code, fin_code, bv_code,
      bool_code]
    rfl
  · obtain rfl : encLo 16 8 (d.code) (a.code) (0) (0) (red.toNat) 1 + encHi (ma.code) (0) (mc.code) (c.code) (0) (1)
      = u := Option.some.inj hw
    refine ⟨fits_vw (M := 16) (m := 8) (d := d.code) (a := a.code) (b := 0) (t := 0) (r := red.toNat) (by decide)
      (by decide) (dst_lt d) (src_lt a) (by decide) (by decide) (bool_lt red) (mod_lt ma) (by decide) (mod_lt mc)
      (src_lt c) (by decide) (by decide), fun st hst => ?_⟩
    have F := loFields (M := 16) (m := 8) (d := d.code) (a := a.code) (b := 0) (t := 0) (r := red.toNat) (l := 1)
      (hiNat (ma.code) (0) (mc.code) (c.code) (0) (1)) (by decide) (by decide) (dst_lt d) (src_lt a) (by decide)
      (by decide) (bool_lt red) (by decide) hst
    have G := loSpans (M := 16) (m := 8) (d := d.code) (a := a.code) (b := 0) (t := 0) (r := red.toNat) (l := 1)
      (hiNat (ma.code) (0) (mc.code) (c.code) (0) (1)) (by decide) (by decide) (dst_lt d) (src_lt a) (by decide)
      (by decide) (bool_lt red) (by decide) hst
    have H := hiFields (ma := ma.code) (mb := 0) (mc := mc.code) (c := c.code) (t2 := 0) (ext := 1) (lo_lt (M := 16)
      (m := 8) (d := d.code) (a := a.code) (b := 0) (t := 0) (r := red.toNat) (l := 1) (by decide) (by decide)
      (dst_lt d) (src_lt a) (by decide) (by decide) (bool_lt red) (by decide) hst) (mod_lt ma) (by decide) (mod_lt
      mc) (src_lt c) (by decide) (by decide)
    rw [← encHi_eq] at F G
    generalize encLo 16 8 (d.code) (a.code) (0) (0) (red.toNat) 1 + encHi (ma.code) (0) (mc.code) (c.code) (0) (1)
      + st = W at F G H ⊢
    simp only [decodeSyl, F.major, decScan, decScanU, hiScan, decSeg, isVW, needL, zero, guardOr, dstD, srcA, srcB,
      F.l, F.major, F.minor, F.d, F.a, F.b, F.t, F.r, H.f32_3, H.f35_3, H.f46_4, H.f50_1, H.f51_13, H.f52_12,
      H.f51_1, H.f38_8, H.f38_3, H.f41_5, G.s22_9, decSrc_code, decDst_code, decMod_code, fin_code, bv_code,
      bool_code]
    rfl

theorem scanLast (red : Bool) (d : Dst) (a : Src) (w : Option ScanExt) : Statement (.scanLast red d a w) := by
  intro u hw hwf
  rcases w with _ | ⟨ma, _ | ⟨c, mc⟩⟩
  · obtain rfl : encLo 16 9 (d.code) (a.code) (0) (0) (red.toNat) 0 = u := Option.some.inj hw
    refine ⟨fits_lo0 (M := 16) (m := 9) (d := d.code) (a := a.code) (b := 0) (t := 0) (r := red.toNat) (by decide)
      (by decide) (dst_lt d) (src_lt a) (by decide) (by decide) (bool_lt red), fun st hst => ?_⟩
    have F := loFields0 (M := 16) (m := 9) (d := d.code) (a := a.code) (b := 0) (t := 0) (r := red.toNat) (l := 0)
      (by decide) (by decide) (dst_lt d) (src_lt a) (by decide) (by decide) (bool_lt red) (by decide) hst
    have G := loSpans0 (M := 16) (m := 9) (d := d.code) (a := a.code) (b := 0) (t := 0) (r := red.toNat) (l := 0)
      (by decide) (by decide) (dst_lt d) (src_lt a) (by decide) (by decide) (bool_lt red) (by decide) hst
    generalize encLo 16 9 (d.code) (a.code) (0) (0) (red.toNat) 0 + st = W at F G ⊢
    simp only [decodeSyl, F.major, decScan, decScanU, hiScan, isVW, needL, zero, guardOr, dstD, srcA, srcB, F.l,
      F.major, F.minor, F.d, F.a, F.b, F.t, F.r, G.s22_9, decSrc_code, decDst_code, decMod_code, fin_code, bv_code,
      bool_code]
    rfl
  · obtain rfl : encLo 16 9 (d.code) (a.code) (0) (0) (red.toNat) 1 + encHi (ma.code) (0) (0) (0) (0) (0) = u
      := Option.some.inj hw
    refine ⟨fits_vw (M := 16) (m := 9) (d := d.code) (a := a.code) (b := 0) (t := 0) (r := red.toNat) (by decide)
      (by decide) (dst_lt d) (src_lt a) (by decide) (by decide) (bool_lt red) (mod_lt ma) (by decide) (by decide)
      (by decide) (by decide) (by decide), fun st hst => ?_⟩
    have F := loFields (M := 16) (m := 9) (d := d.code) (a := a.code) (b := 0) (t := 0) (r := red.toNat) (l := 1)
      (hiNat (ma.code) (0) (0) (0) (0) (0)) (by decide) (by decide) (dst_lt d) (src_lt a) (by decide) (by decide)
      (bool_lt red) (by decide) hst
    have G := loSpans (M := 16) (m := 9) (d := d.code) (a := a.code) (b := 0) (t := 0) (r := red.toNat) (l := 1)
      (hiNat (ma.code) (0) (0) (0) (0) (0)) (by decide) (by decide) (dst_lt d) (src_lt a) (by decide) (by decide)
      (bool_lt red) (by decide) hst
    have H := hiFields (ma := ma.code) (mb := 0) (mc := 0) (c := 0) (t2 := 0) (ext := 0) (lo_lt (M := 16) (m := 9) (d
      := d.code) (a := a.code) (b := 0) (t := 0) (r := red.toNat) (l := 1) (by decide) (by decide) (dst_lt d) (src_lt
      a) (by decide) (by decide) (bool_lt red) (by decide) hst) (mod_lt ma) (by decide) (by decide) (by decide)
      (by decide) (by decide)
    rw [← encHi_eq] at F G
    generalize encLo 16 9 (d.code) (a.code) (0) (0) (red.toNat) 1 + encHi (ma.code) (0) (0) (0) (0) (0) + st = W
      at F G H ⊢
    simp only [decodeSyl, F.major, decScan, decScanU, hiScan, decSeg, isVW, needL, zero, guardOr, dstD, srcA, srcB,
      F.l, F.major, F.minor, F.d, F.a, F.b, F.t, F.r, H.f32_3, H.f35_3, H.f46_4, H.f50_1, H.f51_13, H.f52_12,
      H.f51_1, H.f38_8, H.f38_3, H.f41_5, G.s22_9, decSrc_code, decDst_code, decMod_code, fin_code, bv_code,
      bool_code]
    rfl
  · obtain rfl : encLo 16 9 (d.code) (a.code) (0) (0) (red.toNat) 1 + encHi (ma.code) (0) (mc.code) (c.code) (0) (1)
      = u := Option.some.inj hw
    refine ⟨fits_vw (M := 16) (m := 9) (d := d.code) (a := a.code) (b := 0) (t := 0) (r := red.toNat) (by decide)
      (by decide) (dst_lt d) (src_lt a) (by decide) (by decide) (bool_lt red) (mod_lt ma) (by decide) (mod_lt mc)
      (src_lt c) (by decide) (by decide), fun st hst => ?_⟩
    have F := loFields (M := 16) (m := 9) (d := d.code) (a := a.code) (b := 0) (t := 0) (r := red.toNat) (l := 1)
      (hiNat (ma.code) (0) (mc.code) (c.code) (0) (1)) (by decide) (by decide) (dst_lt d) (src_lt a) (by decide)
      (by decide) (bool_lt red) (by decide) hst
    have G := loSpans (M := 16) (m := 9) (d := d.code) (a := a.code) (b := 0) (t := 0) (r := red.toNat) (l := 1)
      (hiNat (ma.code) (0) (mc.code) (c.code) (0) (1)) (by decide) (by decide) (dst_lt d) (src_lt a) (by decide)
      (by decide) (bool_lt red) (by decide) hst
    have H := hiFields (ma := ma.code) (mb := 0) (mc := mc.code) (c := c.code) (t2 := 0) (ext := 1) (lo_lt (M := 16)
      (m := 9) (d := d.code) (a := a.code) (b := 0) (t := 0) (r := red.toNat) (l := 1) (by decide) (by decide)
      (dst_lt d) (src_lt a) (by decide) (by decide) (bool_lt red) (by decide) hst) (mod_lt ma) (by decide) (mod_lt
      mc) (src_lt c) (by decide) (by decide)
    rw [← encHi_eq] at F G
    generalize encLo 16 9 (d.code) (a.code) (0) (0) (red.toNat) 1 + encHi (ma.code) (0) (mc.code) (c.code) (0) (1)
      + st = W at F G H ⊢
    simp only [decodeSyl, F.major, decScan, decScanU, hiScan, decSeg, isVW, needL, zero, guardOr, dstD, srcA, srcB,
      F.l, F.major, F.minor, F.d, F.a, F.b, F.t, F.r, H.f32_3, H.f35_3, H.f46_4, H.f50_1, H.f51_13, H.f52_12,
      H.f51_1, H.f38_8, H.f38_3, H.f41_5, G.s22_9, decSrc_code, decDst_code, decMod_code, fin_code, bv_code,
      bool_code]
    rfl

theorem compress (d : Dst) (a : Src) (w : Option Mod) : Statement (.compress d a w) := by
  intro u hw hwf
  rcases w with _ | ma
  · obtain rfl : encLo 16 10 (d.code) (a.code) (0) (0) (0) 0 = u := Option.some.inj hw
    refine ⟨fits_lo0 (M := 16) (m := 10) (d := d.code) (a := a.code) (b := 0) (t := 0) (r := 0) (by decide)
      (by decide) (dst_lt d) (src_lt a) (by decide) (by decide) (by decide), fun st hst => ?_⟩
    have F := loFields0 (M := 16) (m := 10) (d := d.code) (a := a.code) (b := 0) (t := 0) (r := 0) (l := 0)
      (by decide) (by decide) (dst_lt d) (src_lt a) (by decide) (by decide) (by decide) (by decide) hst
    have G := loSpans0 (M := 16) (m := 10) (d := d.code) (a := a.code) (b := 0) (t := 0) (r := 0) (l := 0)
      (by decide) (by decide) (dst_lt d) (src_lt a) (by decide) (by decide) (by decide) (by decide) hst
    generalize encLo 16 10 (d.code) (a.code) (0) (0) (0) 0 + st = W at F G ⊢
    simp only [decodeSyl, F.major, decScan, hi1, isVW, needL, zero, guardOr, dstD, srcA, srcB, F.l, F.major, F.minor,
      F.d, F.a, F.b, F.t, F.r, G.s22_10, decSrc_code, decDst_code, decMod_code, fin_code, bv_code, bool_code]
    rfl
  · obtain rfl : encLo 16 10 (d.code) (a.code) (0) (0) (0) 1 + encHi (ma.code) (0) (0) (0) (0) (0) = u
      := Option.some.inj hw
    refine ⟨fits_vw (M := 16) (m := 10) (d := d.code) (a := a.code) (b := 0) (t := 0) (r := 0) (by decide)
      (by decide) (dst_lt d) (src_lt a) (by decide) (by decide) (by decide) (mod_lt ma) (by decide) (by decide)
      (by decide) (by decide) (by decide), fun st hst => ?_⟩
    have F := loFields (M := 16) (m := 10) (d := d.code) (a := a.code) (b := 0) (t := 0) (r := 0) (l := 1) (hiNat
      (ma.code) (0) (0) (0) (0) (0)) (by decide) (by decide) (dst_lt d) (src_lt a) (by decide) (by decide)
      (by decide) (by decide) hst
    have G := loSpans (M := 16) (m := 10) (d := d.code) (a := a.code) (b := 0) (t := 0) (r := 0) (l := 1) (hiNat
      (ma.code) (0) (0) (0) (0) (0)) (by decide) (by decide) (dst_lt d) (src_lt a) (by decide) (by decide)
      (by decide) (by decide) hst
    have H := hiFields (ma := ma.code) (mb := 0) (mc := 0) (c := 0) (t2 := 0) (ext := 0) (lo_lt (M := 16) (m := 10)
      (d := d.code) (a := a.code) (b := 0) (t := 0) (r := 0) (l := 1) (by decide) (by decide) (dst_lt d) (src_lt a)
      (by decide) (by decide) (by decide) (by decide) hst) (mod_lt ma) (by decide) (by decide) (by decide)
      (by decide) (by decide)
    rw [← encHi_eq] at F G
    generalize encLo 16 10 (d.code) (a.code) (0) (0) (0) 1 + encHi (ma.code) (0) (0) (0) (0) (0) + st = W at F G H ⊢
    simp only [decodeSyl, F.major, decScan, hi1, isVW, needL, zero, guardOr, dstD, srcA, srcB, F.l, F.major, F.minor,
      F.d, F.a, F.b, F.t, F.r, H.f32_3, H.f35_29, G.s22_10, decSrc_code, decDst_code, decMod_code, fin_code, bv_code,
      bool_code]
    rfl

theorem expand (d : Dst) (a : Src) (w : Option Mod) : Statement (.expand d a w) := by
  intro u hw hwf
  rcases w with _ | ma
  · obtain rfl : encLo 16 11 (d.code) (a.code) (0) (0) (0) 0 = u := Option.some.inj hw
    refine ⟨fits_lo0 (M := 16) (m := 11) (d := d.code) (a := a.code) (b := 0) (t := 0) (r := 0) (by decide)
      (by decide) (dst_lt d) (src_lt a) (by decide) (by decide) (by decide), fun st hst => ?_⟩
    have F := loFields0 (M := 16) (m := 11) (d := d.code) (a := a.code) (b := 0) (t := 0) (r := 0) (l := 0)
      (by decide) (by decide) (dst_lt d) (src_lt a) (by decide) (by decide) (by decide) (by decide) hst
    have G := loSpans0 (M := 16) (m := 11) (d := d.code) (a := a.code) (b := 0) (t := 0) (r := 0) (l := 0)
      (by decide) (by decide) (dst_lt d) (src_lt a) (by decide) (by decide) (by decide) (by decide) hst
    generalize encLo 16 11 (d.code) (a.code) (0) (0) (0) 0 + st = W at F G ⊢
    simp only [decodeSyl, F.major, decScan, hi1, isVW, needL, zero, guardOr, dstD, srcA, srcB, F.l, F.major, F.minor,
      F.d, F.a, F.b, F.t, F.r, G.s22_10, decSrc_code, decDst_code, decMod_code, fin_code, bv_code, bool_code]
    rfl
  · obtain rfl : encLo 16 11 (d.code) (a.code) (0) (0) (0) 1 + encHi (ma.code) (0) (0) (0) (0) (0) = u
      := Option.some.inj hw
    refine ⟨fits_vw (M := 16) (m := 11) (d := d.code) (a := a.code) (b := 0) (t := 0) (r := 0) (by decide)
      (by decide) (dst_lt d) (src_lt a) (by decide) (by decide) (by decide) (mod_lt ma) (by decide) (by decide)
      (by decide) (by decide) (by decide), fun st hst => ?_⟩
    have F := loFields (M := 16) (m := 11) (d := d.code) (a := a.code) (b := 0) (t := 0) (r := 0) (l := 1) (hiNat
      (ma.code) (0) (0) (0) (0) (0)) (by decide) (by decide) (dst_lt d) (src_lt a) (by decide) (by decide)
      (by decide) (by decide) hst
    have G := loSpans (M := 16) (m := 11) (d := d.code) (a := a.code) (b := 0) (t := 0) (r := 0) (l := 1) (hiNat
      (ma.code) (0) (0) (0) (0) (0)) (by decide) (by decide) (dst_lt d) (src_lt a) (by decide) (by decide)
      (by decide) (by decide) hst
    have H := hiFields (ma := ma.code) (mb := 0) (mc := 0) (c := 0) (t2 := 0) (ext := 0) (lo_lt (M := 16) (m := 11)
      (d := d.code) (a := a.code) (b := 0) (t := 0) (r := 0) (l := 1) (by decide) (by decide) (dst_lt d) (src_lt a)
      (by decide) (by decide) (by decide) (by decide) hst) (mod_lt ma) (by decide) (by decide) (by decide)
      (by decide) (by decide)
    rw [← encHi_eq] at F G
    generalize encLo 16 11 (d.code) (a.code) (0) (0) (0) 1 + encHi (ma.code) (0) (0) (0) (0) (0) + st = W at F G H ⊢
    simp only [decodeSyl, F.major, decScan, hi1, isVW, needL, zero, guardOr, dstD, srcA, srcB, F.l, F.major, F.minor,
      F.d, F.a, F.b, F.t, F.r, H.f32_3, H.f35_29, G.s22_10, decSrc_code, decDst_code, decMod_code, fin_code, bv_code,
      bool_code]
    rfl

theorem rteLd (xd : Fin 32) (off : BitVec 15) : Statement (.rteLd xd off) := by
  intro w hw hwf
  obtain rfl : encB 17 0 (xd.val + 2 ^ 5 * off.toNat) = w := Option.some.inj hw
  have hx := xd.isLt
  have hoff := off.isLt
  refine ⟨fits_B (by decide) (by decide) (by omega), fun st hst => ?_⟩
  have F := bFields (M := 17) (m := 0) (rest := xd.val + 2 ^ 5 * off.toNat) (by decide) (by decide) hst
  have e12_5 : fld (encB 17 0 (xd.val + 2 ^ 5 * off.toNat) + st) 12 5 = xd.val := by
    rw [F.rest 0 5]; unfold fld; omega
  have e17_15 : fld (encB 17 0 (xd.val + 2 ^ 5 * off.toNat) + st) 17 15 = off.toNat := by
    rw [F.rest 5 15]; unfold fld; omega
  simp only [decodeSyl, F.major, decRoute, needL, zero, guardOr, dstD, srcA, srcB, F.l, F.minor, e12_5, e17_15,
    decSrc_code, decDst_code, decMod_code, fin_code, bv_code, bool_code]
  rfl

theorem rteBpc (xd : Fin 32) (a : Src) : Statement (.rteBpc xd a) := by
  intro w hw hwf
  obtain rfl : encB 17 1 (xd.val + 2 ^ 5 * a.code) = w := Option.some.inj hw
  have hx := xd.isLt
  have ha := src_lt a
  refine ⟨fits_B (by decide) (by decide) (by omega), fun st hst => ?_⟩
  have F := bFields (M := 17) (m := 1) (rest := xd.val + 2 ^ 5 * a.code) (by decide) (by decide) hst
  have e12_5 : fld (encB 17 1 (xd.val + 2 ^ 5 * a.code) + st) 12 5 = xd.val := by rw [F.rest 0 5]; unfold fld; omega
  have e22_10 : fld (encB 17 1 (xd.val + 2 ^ 5 * a.code) + st) 22 10 = 0 := by rw [F.rest 10 10]; unfold fld; omega
  have e17_5 : fld (encB 17 1 (xd.val + 2 ^ 5 * a.code) + st) 17 5 = a.code := by rw [F.rest 5 5]; unfold fld; omega
  simp only [decodeSyl, F.major, decRoute, needL, zero, guardOr, dstD, srcA, srcB, F.l, F.minor, e12_5, e22_10,
    e17_5, decSrc_code, decDst_code, decMod_code, fin_code, bv_code, bool_code]
  rfl

theorem rteSolve (xd : Fin 32) (sd : Dst) (va : Src) (sp : Src) : Statement (.rteSolve xd sd va sp) := by
  intro w hw hwf
  obtain rfl : encB 17 2 (xd.val + 2 ^ 5 * va.code + 2 ^ 10 * sd.code + 2 ^ 15 * sp.code) = w := Option.some.inj hw
  have hx := xd.isLt
  have hva := src_lt va
  have hsp := src_lt sp
  have hsd := dst_lt sd
  refine ⟨fits_B (by decide) (by decide) (by omega), fun st hst => ?_⟩
  have F := bFields (M := 17) (m := 2) (rest := xd.val + 2 ^ 5 * va.code + 2 ^ 10 * sd.code + 2 ^ 15 * sp.code)
    (by decide) (by decide) hst
  have e12_5 : fld (encB 17 2 (xd.val + 2 ^ 5 * va.code + 2 ^ 10 * sd.code + 2 ^ 15 * sp.code) + st) 12 5 = xd.val
    := by
    rw [F.rest 0 5]; unfold fld; omega
  have e22_5 : fld (encB 17 2 (xd.val + 2 ^ 5 * va.code + 2 ^ 10 * sd.code + 2 ^ 15 * sp.code) + st) 22 5 = sd.code
    := by
    rw [F.rest 10 5]; unfold fld; omega
  have e17_5 : fld (encB 17 2 (xd.val + 2 ^ 5 * va.code + 2 ^ 10 * sd.code + 2 ^ 15 * sp.code) + st) 17 5 = va.code
    := by
    rw [F.rest 5 5]; unfold fld; omega
  have e27_5 : fld (encB 17 2 (xd.val + 2 ^ 5 * va.code + 2 ^ 10 * sd.code + 2 ^ 15 * sp.code) + st) 27 5 = sp.code
    := by
    rw [F.rest 15 5]; unfold fld; omega
  simp only [decodeSyl, F.major, decRoute, needL, zero, guardOr, dstD, srcA, srcB, F.l, F.minor, e12_5, e22_5, e17_5,
    e27_5, decSrc_code, decDst_code, decMod_code, fin_code, bv_code, bool_code]
  rfl

theorem rteMv (xd xa : Fin 32) : Statement (.rteMv xd xa) := by
  intro w hw hwf
  obtain rfl : encB 17 3 (xd.val + 2 ^ 5 * xa.val) = w := Option.some.inj hw
  have hx := xd.isLt
  have hxa := xa.isLt
  refine ⟨fits_B (by decide) (by decide) (by omega), fun st hst => ?_⟩
  have F := bFields (M := 17) (m := 3) (rest := xd.val + 2 ^ 5 * xa.val) (by decide) (by decide) hst
  have e12_5 : fld (encB 17 3 (xd.val + 2 ^ 5 * xa.val) + st) 12 5 = xd.val := by rw [F.rest 0 5]; unfold fld; omega
  have e22_10 : fld (encB 17 3 (xd.val + 2 ^ 5 * xa.val) + st) 22 10 = 0 := by rw [F.rest 10 10]; unfold fld; omega
  have e17_5 : fld (encB 17 3 (xd.val + 2 ^ 5 * xa.val) + st) 17 5 = xa.val := by rw [F.rest 5 5]; unfold fld; omega
  simp only [decodeSyl, F.major, decRoute, needL, zero, guardOr, dstD, srcA, srcB, F.l, F.minor, e12_5, e22_10,
    e17_5, decSrc_code, decDst_code, decMod_code, fin_code, bv_code, bool_code]
  rfl

theorem rtePass (vd : Dst) (va : Src) (sp : Src) : Statement (.rtePass vd va sp) := by
  intro w hw hwf
  obtain rfl : encB 17 4 (vd.code + 2 ^ 5 * va.code + 2 ^ 15 * sp.code) = w := Option.some.inj hw
  have hva := src_lt va
  have hsp := src_lt sp
  have hvd := dst_lt vd
  refine ⟨fits_B (by decide) (by decide) (by omega), fun st hst => ?_⟩
  have F := bFields (M := 17) (m := 4) (rest := vd.code + 2 ^ 5 * va.code + 2 ^ 15 * sp.code) (by decide) (by decide)
    hst
  have e12_5 : fld (encB 17 4 (vd.code + 2 ^ 5 * va.code + 2 ^ 15 * sp.code) + st) 12 5 = vd.code := by
    rw [F.rest 0 5]; unfold fld; omega
  have e22_5 : fld (encB 17 4 (vd.code + 2 ^ 5 * va.code + 2 ^ 15 * sp.code) + st) 22 5 = 0 := by
    rw [F.rest 10 5]; unfold fld; omega
  have e17_5 : fld (encB 17 4 (vd.code + 2 ^ 5 * va.code + 2 ^ 15 * sp.code) + st) 17 5 = va.code := by
    rw [F.rest 5 5]; unfold fld; omega
  have e27_5 : fld (encB 17 4 (vd.code + 2 ^ 5 * va.code + 2 ^ 15 * sp.code) + st) 27 5 = sp.code := by
    rw [F.rest 15 5]; unfold fld; omega
  simp only [decodeSyl, F.major, decRoute, needL, zero, guardOr, dstD, srcA, srcB, F.l, F.minor, e12_5, e22_5, e17_5,
    e27_5, decSrc_code, decDst_code, decMod_code, fin_code, bv_code, bool_code]
  rfl

theorem rteSt (a : Src) (xs : Fin 32) : Statement (.rteSt a xs) := by
  intro w hw hwf
  obtain rfl : encB 17 5 (xs.val + 2 ^ 5 * a.code) = w := Option.some.inj hw
  have hxs := xs.isLt
  have ha := src_lt a
  refine ⟨fits_B (by decide) (by decide) (by omega), fun st hst => ?_⟩
  have F := bFields (M := 17) (m := 5) (rest := xs.val + 2 ^ 5 * a.code) (by decide) (by decide) hst
  have e12_5 : fld (encB 17 5 (xs.val + 2 ^ 5 * a.code) + st) 12 5 = xs.val := by rw [F.rest 0 5]; unfold fld; omega
  have e22_10 : fld (encB 17 5 (xs.val + 2 ^ 5 * a.code) + st) 22 10 = 0 := by rw [F.rest 10 10]; unfold fld; omega
  have e17_5 : fld (encB 17 5 (xs.val + 2 ^ 5 * a.code) + st) 17 5 = a.code := by rw [F.rest 5 5]; unfold fld; omega
  simp only [decodeSyl, F.major, decRoute, needL, zero, guardOr, dstD, srcA, srcB, F.l, F.minor, e12_5, e22_10,
    e17_5, decSrc_code, decDst_code, decMod_code, fin_code, bv_code, bool_code]
  rfl

theorem cpBb (d a b : Src) (dep : Deps) : Statement (.cpBb d a b dep) := by
  intro w hw hwf
  obtain rfl : encCp 0 d a b dep = w := Option.some.inj hw
  refine ⟨fits_cp (m := 0) (d := d) (a := a) (b := b) dep (by decide), fun st hst => ?_⟩
  have F := cpFields (m := 0) (d := d) (a := a) (b := b) dep (by decide) hst
  have K := cpDeps (m := 0) (d := d) (a := a) (b := b) dep (by decide) hst
  simp only [decodeSyl, F.major, decCopy, needL, zero, guardOr, dstD, srcA, srcB, F.l, F.minor, F.f12_5, F.f27_5,
    F.f22_5, F.f17_5, F.f12_20, K, decSrc_code, decDst_code, decMod_code, fin_code, bv_code, bool_code]
  rfl

theorem cpPb (d a b : Src) (dep : Deps) : Statement (.cpPb d a b dep) := by
  intro w hw hwf
  obtain rfl : encCp 1 d a b dep = w := Option.some.inj hw
  refine ⟨fits_cp (m := 1) (d := d) (a := a) (b := b) dep (by decide), fun st hst => ?_⟩
  have F := cpFields (m := 1) (d := d) (a := a) (b := b) dep (by decide) hst
  have K := cpDeps (m := 1) (d := d) (a := a) (b := b) dep (by decide) hst
  simp only [decodeSyl, F.major, decCopy, needL, zero, guardOr, dstD, srcA, srcB, F.l, F.minor, F.f12_5, F.f27_5,
    F.f22_5, F.f17_5, F.f12_20, K, decSrc_code, decDst_code, decMod_code, fin_code, bv_code, bool_code]
  rfl

theorem cpBp (d a b : Src) (dep : Deps) : Statement (.cpBp d a b dep) := by
  intro w hw hwf
  obtain rfl : encCp 2 d a b dep = w := Option.some.inj hw
  refine ⟨fits_cp (m := 2) (d := d) (a := a) (b := b) dep (by decide), fun st hst => ?_⟩
  have F := cpFields (m := 2) (d := d) (a := a) (b := b) dep (by decide) hst
  have K := cpDeps (m := 2) (d := d) (a := a) (b := b) dep (by decide) hst
  simp only [decodeSyl, F.major, decCopy, needL, zero, guardOr, dstD, srcA, srcB, F.l, F.minor, F.f12_5, F.f27_5,
    F.f22_5, F.f17_5, F.f12_20, K, decSrc_code, decDst_code, decMod_code, fin_code, bv_code, bool_code]
  rfl

theorem cpBo (d a b : Src) (dep : Deps) : Statement (.cpBo d a b dep) := by
  intro w hw hwf
  obtain rfl : encCp 3 d a b dep = w := Option.some.inj hw
  refine ⟨fits_cp (m := 3) (d := d) (a := a) (b := b) dep (by decide), fun st hst => ?_⟩
  have F := cpFields (m := 3) (d := d) (a := a) (b := b) dep (by decide) hst
  have K := cpDeps (m := 3) (d := d) (a := a) (b := b) dep (by decide) hst
  simp only [decodeSyl, F.major, decCopy, needL, zero, guardOr, dstD, srcA, srcB, F.l, F.minor, F.f12_5, F.f27_5,
    F.f22_5, F.f17_5, F.f12_20, K, decSrc_code, decDst_code, decMod_code, fin_code, bv_code, bool_code]
  rfl

theorem cpRs (dep : Deps) : Statement (.cpRs dep) := by
  intro w hw hwf
  obtain rfl : encCp 4 (.named 0) (.named 0) (.named 0) dep = w := Option.some.inj hw
  refine ⟨fits_cp (m := 4) (d := (.named 0)) (a := (.named 0)) (b := (.named 0)) dep (by decide), fun st hst => ?_⟩
  have F := cpFields (m := 4) (d := (.named 0)) (a := (.named 0)) (b := (.named 0)) dep (by decide) hst
  have K := cpDeps (m := 4) (d := (.named 0)) (a := (.named 0)) (b := (.named 0)) dep (by decide) hst
  simp only [decodeSyl, F.major, decCopy, needL, zero, guardOr, dstD, srcA, srcB, F.l, F.minor, F.f12_5, F.f27_5,
    F.f22_5, F.f17_5, F.f12_20, K, decSrc_code, decDst_code, decMod_code, fin_code, bv_code, bool_code]
  rfl

theorem mwld (m : Fin 16) (a b c : Src) (ch : Bool) (dep : Deps) : Statement (.mwld m a b c ch dep) := by
  intro w hw hwf
  obtain rfl : encE 19 0 (m.val) (a.code) (b.code) (c.code) (ch.toNat) dep = w := Option.some.inj hw
  refine ⟨fits_E (M := 19) (m := 0) (top := m.val) (a := a.code) (b := b.code) (c := c.code) (z := ch.toNat) dep
    (by decide) (by decide) m.isLt (src_lt a) (src_lt b) (src_lt c) (bool_lt ch), fun st hst => ?_⟩
  have F := eFields (M := 19) (m := 0) (top := m.val) (a := a.code) (b := b.code) (c := c.code) (z := ch.toNat) dep
    (by decide) (by decide) m.isLt (src_lt a) (src_lt b) (src_lt c) (bool_lt ch) hst
  have K := eDeps (M := 19) (m := 0) (top := m.val) (a := a.code) (b := b.code) (c := c.code) (z := ch.toNat) dep
    (by decide) (by decide) m.isLt (src_lt a) (src_lt b) (src_lt c) (bool_lt ch) hst
  generalize encE 19 0 (m.val) (a.code) (b.code) (c.code) (ch.toNat) dep + st = W at F K ⊢
  simp only [decodeSyl, F.major, decMatrix, needL, zero, guardOr, dstD, srcA, srcB, F.l, F.minor, F.f28_4, F.f23_5,
    F.f18_5, F.f13_5, F.f12_1, K, arrM, arrA, arrB, arrC, decSrc_code, decDst_code, decMod_code, fin_code, bv_code,
    bool_code]
  rfl

theorem mmul (m : Fin 16) (a b c : Src) (ch : Bool) (dep : Deps) : Statement (.mmul m a b c ch dep) := by
  intro w hw hwf
  obtain rfl : encE 19 1 (m.val) (a.code) (b.code) (c.code) (ch.toNat) dep = w := Option.some.inj hw
  refine ⟨fits_E (M := 19) (m := 1) (top := m.val) (a := a.code) (b := b.code) (c := c.code) (z := ch.toNat) dep
    (by decide) (by decide) m.isLt (src_lt a) (src_lt b) (src_lt c) (bool_lt ch), fun st hst => ?_⟩
  have F := eFields (M := 19) (m := 1) (top := m.val) (a := a.code) (b := b.code) (c := c.code) (z := ch.toNat) dep
    (by decide) (by decide) m.isLt (src_lt a) (src_lt b) (src_lt c) (bool_lt ch) hst
  have K := eDeps (M := 19) (m := 1) (top := m.val) (a := a.code) (b := b.code) (c := c.code) (z := ch.toNat) dep
    (by decide) (by decide) m.isLt (src_lt a) (src_lt b) (src_lt c) (bool_lt ch) hst
  generalize encE 19 1 (m.val) (a.code) (b.code) (c.code) (ch.toNat) dep + st = W at F K ⊢
  simp only [decodeSyl, F.major, decMatrix, needL, zero, guardOr, dstD, srcA, srcB, F.l, F.minor, F.f28_4, F.f23_5,
    F.f18_5, F.f13_5, F.f12_1, K, arrM, arrA, arrB, arrC, decSrc_code, decDst_code, decMod_code, fin_code, bv_code,
    bool_code]
  rfl

theorem mdrn (m : Fin 16) (a b c : Src) (dep : Deps) : Statement (.mdrn m a b c dep) := by
  intro w hw hwf
  obtain rfl : encE 19 2 (m.val) (a.code) (b.code) (c.code) (0) dep = w := Option.some.inj hw
  refine ⟨fits_E (M := 19) (m := 2) (top := m.val) (a := a.code) (b := b.code) (c := c.code) (z := 0) dep (by decide)
    (by decide) m.isLt (src_lt a) (src_lt b) (src_lt c) (by decide), fun st hst => ?_⟩
  have F := eFields (M := 19) (m := 2) (top := m.val) (a := a.code) (b := b.code) (c := c.code) (z := 0) dep
    (by decide) (by decide) m.isLt (src_lt a) (src_lt b) (src_lt c) (by decide) hst
  have K := eDeps (M := 19) (m := 2) (top := m.val) (a := a.code) (b := b.code) (c := c.code) (z := 0) dep
    (by decide) (by decide) m.isLt (src_lt a) (src_lt b) (src_lt c) (by decide) hst
  generalize encE 19 2 (m.val) (a.code) (b.code) (c.code) (0) dep + st = W at F K ⊢
  simp only [decodeSyl, F.major, decMatrix, needL, zero, guardOr, dstD, srcA, srcB, F.l, F.minor, F.f28_4, F.f23_5,
    F.f18_5, F.f13_5, F.f12_1, K, arrM, arrA, arrB, arrC, decSrc_code, decDst_code, decMod_code, fin_code, bv_code,
    bool_code]
  rfl

theorem mresume (m : Fin 16) (dep : Deps) : Statement (.mresume m dep) := by
  intro w hw hwf
  obtain rfl : encE 19 3 (m.val) (0) (0) (0) (0) dep = w := Option.some.inj hw
  refine ⟨fits_E (M := 19) (m := 3) (top := m.val) (a := 0) (b := 0) (c := 0) (z := 0) dep (by decide) (by decide)
    m.isLt (by decide) (by decide) (by decide) (by decide), fun st hst => ?_⟩
  have F := eFields (M := 19) (m := 3) (top := m.val) (a := 0) (b := 0) (c := 0) (z := 0) dep (by decide) (by decide)
    m.isLt (by decide) (by decide) (by decide) (by decide) hst
  have K := eDeps (M := 19) (m := 3) (top := m.val) (a := 0) (b := 0) (c := 0) (z := 0) dep (by decide) (by decide)
    m.isLt (by decide) (by decide) (by decide) (by decide) hst
  generalize encE 19 3 (m.val) (0) (0) (0) (0) dep + st = W at F K ⊢
  simp only [decodeSyl, F.major, decMatrix, needL, zero, guardOr, dstD, srcA, srcB, F.l, F.minor, F.f28_4, F.f23_5,
    F.f18_5, F.f13_5, F.f12_1, F.f12_16, K, arrM, arrA, arrB, arrC, decSrc_code, decDst_code, decMod_code, fin_code,
    bv_code, bool_code]
  rfl

theorem mdist (m : Fin 16) (a b c : Src) (ch : Bool) (dep : Deps) : Statement (.mdist m a b c ch dep) := by
  intro w hw hwf
  obtain rfl : encE 20 0 (m.val) (a.code) (b.code) (c.code) (ch.toNat) dep = w := Option.some.inj hw
  refine ⟨fits_E (M := 20) (m := 0) (top := m.val) (a := a.code) (b := b.code) (c := c.code) (z := ch.toNat) dep
    (by decide) (by decide) m.isLt (src_lt a) (src_lt b) (src_lt c) (bool_lt ch), fun st hst => ?_⟩
  have F := eFields (M := 20) (m := 0) (top := m.val) (a := a.code) (b := b.code) (c := c.code) (z := ch.toNat) dep
    (by decide) (by decide) m.isLt (src_lt a) (src_lt b) (src_lt c) (bool_lt ch) hst
  have K := eDeps (M := 20) (m := 0) (top := m.val) (a := a.code) (b := b.code) (c := c.code) (z := ch.toNat) dep
    (by decide) (by decide) m.isLt (src_lt a) (src_lt b) (src_lt c) (bool_lt ch) hst
  generalize encE 20 0 (m.val) (a.code) (b.code) (c.code) (ch.toNat) dep + st = W at F K ⊢
  simp only [decodeSyl, F.major, decDistance, needL, zero, guardOr, dstD, srcA, srcB, F.l, F.minor, F.f28_4, F.f23_5,
    F.f18_5, F.f13_5, F.f12_1, K, arrM, arrA, arrB, arrC, decSrc_code, decDst_code, decMod_code, fin_code, bv_code,
    bool_code]
  rfl

theorem mcent (m : Fin 16) (a b c : Src) (ch : Bool) (dep : Deps) : Statement (.mcent m a b c ch dep) := by
  intro w hw hwf
  obtain rfl : encE 20 1 (m.val) (a.code) (b.code) (c.code) (ch.toNat) dep = w := Option.some.inj hw
  refine ⟨fits_E (M := 20) (m := 1) (top := m.val) (a := a.code) (b := b.code) (c := c.code) (z := ch.toNat) dep
    (by decide) (by decide) m.isLt (src_lt a) (src_lt b) (src_lt c) (bool_lt ch), fun st hst => ?_⟩
  have F := eFields (M := 20) (m := 1) (top := m.val) (a := a.code) (b := b.code) (c := c.code) (z := ch.toNat) dep
    (by decide) (by decide) m.isLt (src_lt a) (src_lt b) (src_lt c) (bool_lt ch) hst
  have K := eDeps (M := 20) (m := 1) (top := m.val) (a := a.code) (b := b.code) (c := c.code) (z := ch.toNat) dep
    (by decide) (by decide) m.isLt (src_lt a) (src_lt b) (src_lt c) (bool_lt ch) hst
  generalize encE 20 1 (m.val) (a.code) (b.code) (c.code) (ch.toNat) dep + st = W at F K ⊢
  simp only [decodeSyl, F.major, decDistance, needL, zero, guardOr, dstD, srcA, srcB, F.l, F.minor, F.f28_4, F.f23_5,
    F.f18_5, F.f13_5, F.f12_1, K, arrM, arrA, arrB, arrC, decSrc_code, decDst_code, decMod_code, fin_code, bv_code,
    bool_code]
  rfl

theorem mbest (m : Fin 16) (a b : Src) (dep : Deps) : Statement (.mbest m a b dep) := by
  intro w hw hwf
  obtain rfl : encE 20 2 (m.val) (a.code) (b.code) (0) (0) dep = w := Option.some.inj hw
  refine ⟨fits_E (M := 20) (m := 2) (top := m.val) (a := a.code) (b := b.code) (c := 0) (z := 0) dep (by decide)
    (by decide) m.isLt (src_lt a) (src_lt b) (by decide) (by decide), fun st hst => ?_⟩
  have F := eFields (M := 20) (m := 2) (top := m.val) (a := a.code) (b := b.code) (c := 0) (z := 0) dep (by decide)
    (by decide) m.isLt (src_lt a) (src_lt b) (by decide) (by decide) hst
  have K := eDeps (M := 20) (m := 2) (top := m.val) (a := a.code) (b := b.code) (c := 0) (z := 0) dep (by decide)
    (by decide) m.isLt (src_lt a) (src_lt b) (by decide) (by decide) hst
  generalize encE 20 2 (m.val) (a.code) (b.code) (0) (0) dep + st = W at F K ⊢
  simp only [decodeSyl, F.major, decDistance, needL, zero, guardOr, dstD, srcA, srcB, F.l, F.minor, F.f28_4, F.f23_5,
    F.f18_5, F.f13_5, F.f12_1, F.f12_6, K, arrM, arrA, arrB, arrC, decSrc_code, decDst_code, decMod_code, fin_code,
    bv_code, bool_code]
  rfl

theorem mcdrn (m : Fin 16) (a b c : Src) (dep : Deps) : Statement (.mcdrn m a b c dep) := by
  intro w hw hwf
  obtain rfl : encE 20 3 (m.val) (a.code) (b.code) (c.code) (0) dep = w := Option.some.inj hw
  refine ⟨fits_E (M := 20) (m := 3) (top := m.val) (a := a.code) (b := b.code) (c := c.code) (z := 0) dep (by decide)
    (by decide) m.isLt (src_lt a) (src_lt b) (src_lt c) (by decide), fun st hst => ?_⟩
  have F := eFields (M := 20) (m := 3) (top := m.val) (a := a.code) (b := b.code) (c := c.code) (z := 0) dep
    (by decide) (by decide) m.isLt (src_lt a) (src_lt b) (src_lt c) (by decide) hst
  have K := eDeps (M := 20) (m := 3) (top := m.val) (a := a.code) (b := b.code) (c := c.code) (z := 0) dep
    (by decide) (by decide) m.isLt (src_lt a) (src_lt b) (src_lt c) (by decide) hst
  generalize encE 20 3 (m.val) (a.code) (b.code) (c.code) (0) dep + st = W at F K ⊢
  simp only [decodeSyl, F.major, decDistance, needL, zero, guardOr, dstD, srcA, srcB, F.l, F.minor, F.f28_4, F.f23_5,
    F.f18_5, F.f13_5, F.f12_1, K, arrM, arrA, arrB, arrC, decSrc_code, decDst_code, decMod_code, fin_code, bv_code,
    bool_code]
  rfl

theorem slotClaim (o : Fin 128) (dep : Deps) : Statement (.slotClaim o dep) := by
  intro w hw hwf
  obtain rfl : encSlot 0 o 0 dep = w := Option.some.inj hw
  refine ⟨fits_slot (m := 0) (a := 0) o dep (by decide) (by decide), fun st hst => ?_⟩
  have F := slotFields (m := 0) (a := 0) o dep (by decide) (by decide) hst
  have K := slotDeps (m := 0) (a := 0) o dep (by decide) (by decide) hst
  simp only [decodeSyl, F.major, decSlot, needL, zero, guardOr, dstD, srcA, srcB, F.l, F.minor, F.o, F.f12_13, K,
    decSrc_code, decDst_code, decMod_code, fin_code, bv_code, bool_code]
  rfl

theorem slotRelease (o : Fin 128) (dep : Deps) : Statement (.slotRelease o dep) := by
  intro w hw hwf
  obtain rfl : encSlot 1 o 0 dep = w := Option.some.inj hw
  refine ⟨fits_slot (m := 1) (a := 0) o dep (by decide) (by decide), fun st hst => ?_⟩
  have F := slotFields (m := 1) (a := 0) o dep (by decide) (by decide) hst
  have K := slotDeps (m := 1) (a := 0) o dep (by decide) (by decide) hst
  simp only [decodeSyl, F.major, decSlot, needL, zero, guardOr, dstD, srcA, srcB, F.l, F.minor, F.o, F.f12_13, K,
    decSrc_code, decDst_code, decMod_code, fin_code, bv_code, bool_code]
  rfl

theorem slotShape (o : Fin 128) (a : Src) (dep : Deps) : Statement (.slotShape o a dep) := by
  intro w hw hwf
  obtain rfl : encSlot 2 o a.code dep = w := Option.some.inj hw
  refine ⟨fits_slot (m := 2) (a := a.code) o dep (by decide) (src_lt a), fun st hst => ?_⟩
  have F := slotFields (m := 2) (a := a.code) o dep (by decide) (src_lt a) hst
  have K := slotDeps (m := 2) (a := a.code) o dep (by decide) (src_lt a) hst
  simp only [decodeSyl, F.major, decSlot, needL, zero, guardOr, dstD, srcA, srcB, F.l, F.minor, F.o, F.f12_8,
    F.f20_5, K, decSrc_code, decDst_code, decMod_code, fin_code, bv_code, bool_code]
  rfl

theorem slotZero (o : Fin 128) (dep : Deps) : Statement (.slotZero o dep) := by
  intro w hw hwf
  obtain rfl : encSlot 3 o 0 dep = w := Option.some.inj hw
  refine ⟨fits_slot (m := 3) (a := 0) o dep (by decide) (by decide), fun st hst => ?_⟩
  have F := slotFields (m := 3) (a := 0) o dep (by decide) (by decide) hst
  have K := slotDeps (m := 3) (a := 0) o dep (by decide) (by decide) hst
  simp only [decodeSyl, F.major, decSlot, needL, zero, guardOr, dstD, srcA, srcB, F.l, F.minor, F.o, F.f12_13, K,
    decSrc_code, decDst_code, decMod_code, fin_code, bv_code, bool_code]
  rfl

theorem rld (cls : Fin 16) (d a : Src) (w : Bool) (dep : Deps) : Statement (.rld cls d a w dep) := by
  intro u hw hwf
  obtain rfl : encE 22 0 (cls.val) (d.code) (a.code) (0) (w.toNat) dep = u := Option.some.inj hw
  refine ⟨fits_E (M := 22) (m := 0) (top := cls.val) (a := d.code) (b := a.code) (c := 0) (z := w.toNat) dep
    (by decide) (by decide) cls.isLt (src_lt d) (src_lt a) (by decide) (bool_lt w), fun st hst => ?_⟩
  have F := eFields (M := 22) (m := 0) (top := cls.val) (a := d.code) (b := a.code) (c := 0) (z := w.toNat) dep
    (by decide) (by decide) cls.isLt (src_lt d) (src_lt a) (by decide) (bool_lt w) hst
  have K := eDeps (M := 22) (m := 0) (top := cls.val) (a := d.code) (b := a.code) (c := 0) (z := w.toNat) dep
    (by decide) (by decide) cls.isLt (src_lt d) (src_lt a) (by decide) (bool_lt w) hst
  generalize encE 22 0 (cls.val) (d.code) (a.code) (0) (w.toNat) dep + st = W at F K ⊢
  simp only [decodeSyl, F.major, decRemote, needL, zero, guardOr, dstD, srcA, srcB, F.l, F.minor, F.f28_4, F.f23_5,
    F.f18_5, F.f13_5, F.f12_1, K, remCls, arrA, arrB, arrC, decSrc_code, decDst_code, decMod_code, fin_code, bv_code,
    bool_code]
  rfl

theorem rst (cls : Fin 16) (a b : Src) (w : Bool) (dep : Deps) : Statement (.rst cls a b w dep) := by
  intro u hw hwf
  obtain rfl : encE 22 1 (cls.val) (0) (a.code) (b.code) (w.toNat) dep = u := Option.some.inj hw
  refine ⟨fits_E (M := 22) (m := 1) (top := cls.val) (a := 0) (b := a.code) (c := b.code) (z := w.toNat) dep
    (by decide) (by decide) cls.isLt (by decide) (src_lt a) (src_lt b) (bool_lt w), fun st hst => ?_⟩
  have F := eFields (M := 22) (m := 1) (top := cls.val) (a := 0) (b := a.code) (c := b.code) (z := w.toNat) dep
    (by decide) (by decide) cls.isLt (by decide) (src_lt a) (src_lt b) (bool_lt w) hst
  have K := eDeps (M := 22) (m := 1) (top := cls.val) (a := 0) (b := a.code) (c := b.code) (z := w.toNat) dep
    (by decide) (by decide) cls.isLt (by decide) (src_lt a) (src_lt b) (bool_lt w) hst
  generalize encE 22 1 (cls.val) (0) (a.code) (b.code) (w.toNat) dep + st = W at F K ⊢
  simp only [decodeSyl, F.major, decRemote, needL, zero, guardOr, dstD, srcA, srcB, F.l, F.minor, F.f28_4, F.f23_5,
    F.f18_5, F.f13_5, F.f12_1, K, remCls, arrA, arrB, arrC, decSrc_code, decDst_code, decMod_code, fin_code, bv_code,
    bool_code]
  rfl

theorem rcpGet (cls : Fin 16) (d a b : Src) (dep : Deps) : Statement (.rcpGet cls d a b dep) := by
  intro w hw hwf
  obtain rfl : encE 22 2 (cls.val) (d.code) (a.code) (b.code) (0) dep = w := Option.some.inj hw
  refine ⟨fits_E (M := 22) (m := 2) (top := cls.val) (a := d.code) (b := a.code) (c := b.code) (z := 0) dep
    (by decide) (by decide) cls.isLt (src_lt d) (src_lt a) (src_lt b) (by decide), fun st hst => ?_⟩
  have F := eFields (M := 22) (m := 2) (top := cls.val) (a := d.code) (b := a.code) (c := b.code) (z := 0) dep
    (by decide) (by decide) cls.isLt (src_lt d) (src_lt a) (src_lt b) (by decide) hst
  have K := eDeps (M := 22) (m := 2) (top := cls.val) (a := d.code) (b := a.code) (c := b.code) (z := 0) dep
    (by decide) (by decide) cls.isLt (src_lt d) (src_lt a) (src_lt b) (by decide) hst
  generalize encE 22 2 (cls.val) (d.code) (a.code) (b.code) (0) dep + st = W at F K ⊢
  simp only [decodeSyl, F.major, decRemote, needL, zero, guardOr, dstD, srcA, srcB, F.l, F.minor, F.f28_4, F.f23_5,
    F.f18_5, F.f13_5, F.f12_1, K, remCls, arrA, arrB, arrC, decSrc_code, decDst_code, decMod_code, fin_code, bv_code,
    bool_code]
  rfl

theorem rcpPut (cls : Fin 16) (d a b : Src) (dep : Deps) : Statement (.rcpPut cls d a b dep) := by
  intro w hw hwf
  obtain rfl : encE 22 2 (cls.val) (d.code) (a.code) (b.code) (1) dep = w := Option.some.inj hw
  refine ⟨fits_E (M := 22) (m := 2) (top := cls.val) (a := d.code) (b := a.code) (c := b.code) (z := 1) dep
    (by decide) (by decide) cls.isLt (src_lt d) (src_lt a) (src_lt b) (by decide), fun st hst => ?_⟩
  have F := eFields (M := 22) (m := 2) (top := cls.val) (a := d.code) (b := a.code) (c := b.code) (z := 1) dep
    (by decide) (by decide) cls.isLt (src_lt d) (src_lt a) (src_lt b) (by decide) hst
  have K := eDeps (M := 22) (m := 2) (top := cls.val) (a := d.code) (b := a.code) (c := b.code) (z := 1) dep
    (by decide) (by decide) cls.isLt (src_lt d) (src_lt a) (src_lt b) (by decide) hst
  generalize encE 22 2 (cls.val) (d.code) (a.code) (b.code) (1) dep + st = W at F K ⊢
  simp only [decodeSyl, F.major, decRemote, needL, zero, guardOr, dstD, srcA, srcB, F.l, F.minor, F.f28_4, F.f23_5,
    F.f18_5, F.f13_5, F.f12_1, K, remCls, arrA, arrB, arrC, decSrc_code, decDst_code, decMod_code, fin_code, bv_code,
    bool_code]
  rfl

theorem rcpRs (dep : Deps) : Statement (.rcpRs dep) := by
  intro w hw hwf
  obtain rfl : encE 22 3 (0) (0) (0) (0) (0) dep = w := Option.some.inj hw
  refine ⟨fits_E (M := 22) (m := 3) (top := 0) (a := 0) (b := 0) (c := 0) (z := 0) dep (by decide) (by decide)
    (by decide) (by decide) (by decide) (by decide) (by decide), fun st hst => ?_⟩
  have F := eFields (M := 22) (m := 3) (top := 0) (a := 0) (b := 0) (c := 0) (z := 0) dep (by decide) (by decide)
    (by decide) (by decide) (by decide) (by decide) (by decide) hst
  have K := eDeps (M := 22) (m := 3) (top := 0) (a := 0) (b := 0) (c := 0) (z := 0) dep (by decide) (by decide)
    (by decide) (by decide) (by decide) (by decide) (by decide) hst
  generalize encE 22 3 (0) (0) (0) (0) (0) dep + st = W at F K ⊢
  simp only [decodeSyl, F.major, decRemote, needL, zero, guardOr, dstD, srcA, srcB, F.l, F.minor, F.f12_20, K,
    remCls, arrA, arrB, arrC, decSrc_code, decDst_code, decMod_code, fin_code, bv_code, bool_code]
  rfl

theorem rsig (cls : Fin 16) (d a : Src) (dep : Deps) : Statement (.rsig cls d a dep) := by
  intro w hw hwf
  obtain rfl : encE 22 4 (cls.val) (d.code) (a.code) (0) (0) dep = w := Option.some.inj hw
  refine ⟨fits_E (M := 22) (m := 4) (top := cls.val) (a := d.code) (b := a.code) (c := 0) (z := 0) dep (by decide)
    (by decide) cls.isLt (src_lt d) (src_lt a) (by decide) (by decide), fun st hst => ?_⟩
  have F := eFields (M := 22) (m := 4) (top := cls.val) (a := d.code) (b := a.code) (c := 0) (z := 0) dep (by decide)
    (by decide) cls.isLt (src_lt d) (src_lt a) (by decide) (by decide) hst
  have K := eDeps (M := 22) (m := 4) (top := cls.val) (a := d.code) (b := a.code) (c := 0) (z := 0) dep (by decide)
    (by decide) cls.isLt (src_lt d) (src_lt a) (by decide) (by decide) hst
  generalize encE 22 4 (cls.val) (d.code) (a.code) (0) (0) dep + st = W at F K ⊢
  simp only [decodeSyl, F.major, decRemote, needL, zero, guardOr, dstD, srcA, srcB, F.l, F.minor, F.f28_4, F.f23_5,
    F.f18_5, F.f13_5, F.f12_1, K, remCls, arrA, arrB, arrC, decSrc_code, decDst_code, decMod_code, fin_code, bv_code,
    bool_code]
  rfl

theorem rsigRel (cls : Fin 16) (d a : Src) (dep : Deps) : Statement (.rsigRel cls d a dep) := by
  intro w hw hwf
  obtain rfl : encE 22 4 (cls.val) (d.code) (a.code) (0) (1) dep = w := Option.some.inj hw
  refine ⟨fits_E (M := 22) (m := 4) (top := cls.val) (a := d.code) (b := a.code) (c := 0) (z := 1) dep (by decide)
    (by decide) cls.isLt (src_lt d) (src_lt a) (by decide) (by decide), fun st hst => ?_⟩
  have F := eFields (M := 22) (m := 4) (top := cls.val) (a := d.code) (b := a.code) (c := 0) (z := 1) dep (by decide)
    (by decide) cls.isLt (src_lt d) (src_lt a) (by decide) (by decide) hst
  have K := eDeps (M := 22) (m := 4) (top := cls.val) (a := d.code) (b := a.code) (c := 0) (z := 1) dep (by decide)
    (by decide) cls.isLt (src_lt d) (src_lt a) (by decide) (by decide) hst
  generalize encE 22 4 (cls.val) (d.code) (a.code) (0) (1) dep + st = W at F K ⊢
  simp only [decodeSyl, F.major, decRemote, needL, zero, guardOr, dstD, srcA, srcB, F.l, F.minor, F.f28_4, F.f23_5,
    F.f18_5, F.f13_5, F.f12_1, K, remCls, arrA, arrB, arrC, decSrc_code, decDst_code, decMod_code, fin_code, bv_code,
    bool_code]
  rfl

theorem amoAddFar (cls : Fin 16) (d a b : Src) (dep : Deps) : Statement (.amoAddFar cls d a b dep) := by
  intro w hw hwf
  obtain rfl : encE 22 5 (cls.val) (d.code) (a.code) (b.code) (0) dep = w := Option.some.inj hw
  refine ⟨fits_E (M := 22) (m := 5) (top := cls.val) (a := d.code) (b := a.code) (c := b.code) (z := 0) dep
    (by decide) (by decide) cls.isLt (src_lt d) (src_lt a) (src_lt b) (by decide), fun st hst => ?_⟩
  have F := eFields (M := 22) (m := 5) (top := cls.val) (a := d.code) (b := a.code) (c := b.code) (z := 0) dep
    (by decide) (by decide) cls.isLt (src_lt d) (src_lt a) (src_lt b) (by decide) hst
  have K := eDeps (M := 22) (m := 5) (top := cls.val) (a := d.code) (b := a.code) (c := b.code) (z := 0) dep
    (by decide) (by decide) cls.isLt (src_lt d) (src_lt a) (src_lt b) (by decide) hst
  generalize encE 22 5 (cls.val) (d.code) (a.code) (b.code) (0) dep + st = W at F K ⊢
  simp only [decodeSyl, F.major, decRemote, needL, zero, guardOr, dstD, srcA, srcB, F.l, F.minor, F.f28_4, F.f23_5,
    F.f18_5, F.f13_5, F.f12_1, K, remCls, arrA, arrB, arrC, decAmoFar, decSrc_code, decDst_code, decMod_code,
    fin_code, bv_code, bool_code]
  rfl

theorem amoAndFar (cls : Fin 16) (d a b : Src) (dep : Deps) : Statement (.amoAndFar cls d a b dep) := by
  intro w hw hwf
  obtain rfl : encE 22 6 (cls.val) (d.code) (a.code) (b.code) (0) dep = w := Option.some.inj hw
  refine ⟨fits_E (M := 22) (m := 6) (top := cls.val) (a := d.code) (b := a.code) (c := b.code) (z := 0) dep
    (by decide) (by decide) cls.isLt (src_lt d) (src_lt a) (src_lt b) (by decide), fun st hst => ?_⟩
  have F := eFields (M := 22) (m := 6) (top := cls.val) (a := d.code) (b := a.code) (c := b.code) (z := 0) dep
    (by decide) (by decide) cls.isLt (src_lt d) (src_lt a) (src_lt b) (by decide) hst
  have K := eDeps (M := 22) (m := 6) (top := cls.val) (a := d.code) (b := a.code) (c := b.code) (z := 0) dep
    (by decide) (by decide) cls.isLt (src_lt d) (src_lt a) (src_lt b) (by decide) hst
  generalize encE 22 6 (cls.val) (d.code) (a.code) (b.code) (0) dep + st = W at F K ⊢
  simp only [decodeSyl, F.major, decRemote, needL, zero, guardOr, dstD, srcA, srcB, F.l, F.minor, F.f28_4, F.f23_5,
    F.f18_5, F.f13_5, F.f12_1, K, remCls, arrA, arrB, arrC, decAmoFar, decSrc_code, decDst_code, decMod_code,
    fin_code, bv_code, bool_code]
  rfl

theorem amoOrFar (cls : Fin 16) (d a b : Src) (dep : Deps) : Statement (.amoOrFar cls d a b dep) := by
  intro w hw hwf
  obtain rfl : encE 22 7 (cls.val) (d.code) (a.code) (b.code) (0) dep = w := Option.some.inj hw
  refine ⟨fits_E (M := 22) (m := 7) (top := cls.val) (a := d.code) (b := a.code) (c := b.code) (z := 0) dep
    (by decide) (by decide) cls.isLt (src_lt d) (src_lt a) (src_lt b) (by decide), fun st hst => ?_⟩
  have F := eFields (M := 22) (m := 7) (top := cls.val) (a := d.code) (b := a.code) (c := b.code) (z := 0) dep
    (by decide) (by decide) cls.isLt (src_lt d) (src_lt a) (src_lt b) (by decide) hst
  have K := eDeps (M := 22) (m := 7) (top := cls.val) (a := d.code) (b := a.code) (c := b.code) (z := 0) dep
    (by decide) (by decide) cls.isLt (src_lt d) (src_lt a) (src_lt b) (by decide) hst
  generalize encE 22 7 (cls.val) (d.code) (a.code) (b.code) (0) dep + st = W at F K ⊢
  simp only [decodeSyl, F.major, decRemote, needL, zero, guardOr, dstD, srcA, srcB, F.l, F.minor, F.f28_4, F.f23_5,
    F.f18_5, F.f13_5, F.f12_1, K, remCls, arrA, arrB, arrC, decAmoFar, decSrc_code, decDst_code, decMod_code,
    fin_code, bv_code, bool_code]
  rfl

theorem amoXorFar (cls : Fin 16) (d a b : Src) (dep : Deps) : Statement (.amoXorFar cls d a b dep) := by
  intro w hw hwf
  obtain rfl : encE 22 8 (cls.val) (d.code) (a.code) (b.code) (0) dep = w := Option.some.inj hw
  refine ⟨fits_E (M := 22) (m := 8) (top := cls.val) (a := d.code) (b := a.code) (c := b.code) (z := 0) dep
    (by decide) (by decide) cls.isLt (src_lt d) (src_lt a) (src_lt b) (by decide), fun st hst => ?_⟩
  have F := eFields (M := 22) (m := 8) (top := cls.val) (a := d.code) (b := a.code) (c := b.code) (z := 0) dep
    (by decide) (by decide) cls.isLt (src_lt d) (src_lt a) (src_lt b) (by decide) hst
  have K := eDeps (M := 22) (m := 8) (top := cls.val) (a := d.code) (b := a.code) (c := b.code) (z := 0) dep
    (by decide) (by decide) cls.isLt (src_lt d) (src_lt a) (src_lt b) (by decide) hst
  generalize encE 22 8 (cls.val) (d.code) (a.code) (b.code) (0) dep + st = W at F K ⊢
  simp only [decodeSyl, F.major, decRemote, needL, zero, guardOr, dstD, srcA, srcB, F.l, F.minor, F.f28_4, F.f23_5,
    F.f18_5, F.f13_5, F.f12_1, K, remCls, arrA, arrB, arrC, decAmoFar, decSrc_code, decDst_code, decMod_code,
    fin_code, bv_code, bool_code]
  rfl

theorem amoMaxFar (cls : Fin 16) (d a b : Src) (dep : Deps) : Statement (.amoMaxFar cls d a b dep) := by
  intro w hw hwf
  obtain rfl : encE 22 9 (cls.val) (d.code) (a.code) (b.code) (0) dep = w := Option.some.inj hw
  refine ⟨fits_E (M := 22) (m := 9) (top := cls.val) (a := d.code) (b := a.code) (c := b.code) (z := 0) dep
    (by decide) (by decide) cls.isLt (src_lt d) (src_lt a) (src_lt b) (by decide), fun st hst => ?_⟩
  have F := eFields (M := 22) (m := 9) (top := cls.val) (a := d.code) (b := a.code) (c := b.code) (z := 0) dep
    (by decide) (by decide) cls.isLt (src_lt d) (src_lt a) (src_lt b) (by decide) hst
  have K := eDeps (M := 22) (m := 9) (top := cls.val) (a := d.code) (b := a.code) (c := b.code) (z := 0) dep
    (by decide) (by decide) cls.isLt (src_lt d) (src_lt a) (src_lt b) (by decide) hst
  generalize encE 22 9 (cls.val) (d.code) (a.code) (b.code) (0) dep + st = W at F K ⊢
  simp only [decodeSyl, F.major, decRemote, needL, zero, guardOr, dstD, srcA, srcB, F.l, F.minor, F.f28_4, F.f23_5,
    F.f18_5, F.f13_5, F.f12_1, K, remCls, arrA, arrB, arrC, decAmoFar, decSrc_code, decDst_code, decMod_code,
    fin_code, bv_code, bool_code]
  rfl

theorem amoMinFar (cls : Fin 16) (d a b : Src) (dep : Deps) : Statement (.amoMinFar cls d a b dep) := by
  intro w hw hwf
  obtain rfl : encE 22 10 (cls.val) (d.code) (a.code) (b.code) (0) dep = w := Option.some.inj hw
  refine ⟨fits_E (M := 22) (m := 10) (top := cls.val) (a := d.code) (b := a.code) (c := b.code) (z := 0) dep
    (by decide) (by decide) cls.isLt (src_lt d) (src_lt a) (src_lt b) (by decide), fun st hst => ?_⟩
  have F := eFields (M := 22) (m := 10) (top := cls.val) (a := d.code) (b := a.code) (c := b.code) (z := 0) dep
    (by decide) (by decide) cls.isLt (src_lt d) (src_lt a) (src_lt b) (by decide) hst
  have K := eDeps (M := 22) (m := 10) (top := cls.val) (a := d.code) (b := a.code) (c := b.code) (z := 0) dep
    (by decide) (by decide) cls.isLt (src_lt d) (src_lt a) (src_lt b) (by decide) hst
  generalize encE 22 10 (cls.val) (d.code) (a.code) (b.code) (0) dep + st = W at F K ⊢
  simp only [decodeSyl, F.major, decRemote, needL, zero, guardOr, dstD, srcA, srcB, F.l, F.minor, F.f28_4, F.f23_5,
    F.f18_5, F.f13_5, F.f12_1, K, remCls, arrA, arrB, arrC, decAmoFar, decSrc_code, decDst_code, decMod_code,
    fin_code, bv_code, bool_code]
  rfl

theorem amoFaddFar (cls : Fin 16) (d a b : Src) (dep : Deps) : Statement (.amoFaddFar cls d a b dep) := by
  intro w hw hwf
  obtain rfl : encE 22 11 (cls.val) (d.code) (a.code) (b.code) (0) dep = w := Option.some.inj hw
  refine ⟨fits_E (M := 22) (m := 11) (top := cls.val) (a := d.code) (b := a.code) (c := b.code) (z := 0) dep
    (by decide) (by decide) cls.isLt (src_lt d) (src_lt a) (src_lt b) (by decide), fun st hst => ?_⟩
  have F := eFields (M := 22) (m := 11) (top := cls.val) (a := d.code) (b := a.code) (c := b.code) (z := 0) dep
    (by decide) (by decide) cls.isLt (src_lt d) (src_lt a) (src_lt b) (by decide) hst
  have K := eDeps (M := 22) (m := 11) (top := cls.val) (a := d.code) (b := a.code) (c := b.code) (z := 0) dep
    (by decide) (by decide) cls.isLt (src_lt d) (src_lt a) (src_lt b) (by decide) hst
  generalize encE 22 11 (cls.val) (d.code) (a.code) (b.code) (0) dep + st = W at F K ⊢
  simp only [decodeSyl, F.major, decRemote, needL, zero, guardOr, dstD, srcA, srcB, F.l, F.minor, F.f28_4, F.f23_5,
    F.f18_5, F.f13_5, F.f12_1, K, remCls, arrA, arrB, arrC, decAmoFar, decSrc_code, decDst_code, decMod_code,
    fin_code, bv_code, bool_code]
  rfl

theorem amoFmaxFar (cls : Fin 16) (d a b : Src) (dep : Deps) : Statement (.amoFmaxFar cls d a b dep) := by
  intro w hw hwf
  obtain rfl : encE 22 12 (cls.val) (d.code) (a.code) (b.code) (0) dep = w := Option.some.inj hw
  refine ⟨fits_E (M := 22) (m := 12) (top := cls.val) (a := d.code) (b := a.code) (c := b.code) (z := 0) dep
    (by decide) (by decide) cls.isLt (src_lt d) (src_lt a) (src_lt b) (by decide), fun st hst => ?_⟩
  have F := eFields (M := 22) (m := 12) (top := cls.val) (a := d.code) (b := a.code) (c := b.code) (z := 0) dep
    (by decide) (by decide) cls.isLt (src_lt d) (src_lt a) (src_lt b) (by decide) hst
  have K := eDeps (M := 22) (m := 12) (top := cls.val) (a := d.code) (b := a.code) (c := b.code) (z := 0) dep
    (by decide) (by decide) cls.isLt (src_lt d) (src_lt a) (src_lt b) (by decide) hst
  generalize encE 22 12 (cls.val) (d.code) (a.code) (b.code) (0) dep + st = W at F K ⊢
  simp only [decodeSyl, F.major, decRemote, needL, zero, guardOr, dstD, srcA, srcB, F.l, F.minor, F.f28_4, F.f23_5,
    F.f18_5, F.f13_5, F.f12_1, K, remCls, arrA, arrB, arrC, decAmoFar, decSrc_code, decDst_code, decMod_code,
    fin_code, bv_code, bool_code]
  rfl

theorem amoFminFar (cls : Fin 16) (d a b : Src) (dep : Deps) : Statement (.amoFminFar cls d a b dep) := by
  intro w hw hwf
  obtain rfl : encE 22 13 (cls.val) (d.code) (a.code) (b.code) (0) dep = w := Option.some.inj hw
  refine ⟨fits_E (M := 22) (m := 13) (top := cls.val) (a := d.code) (b := a.code) (c := b.code) (z := 0) dep
    (by decide) (by decide) cls.isLt (src_lt d) (src_lt a) (src_lt b) (by decide), fun st hst => ?_⟩
  have F := eFields (M := 22) (m := 13) (top := cls.val) (a := d.code) (b := a.code) (c := b.code) (z := 0) dep
    (by decide) (by decide) cls.isLt (src_lt d) (src_lt a) (src_lt b) (by decide) hst
  have K := eDeps (M := 22) (m := 13) (top := cls.val) (a := d.code) (b := a.code) (c := b.code) (z := 0) dep
    (by decide) (by decide) cls.isLt (src_lt d) (src_lt a) (src_lt b) (by decide) hst
  generalize encE 22 13 (cls.val) (d.code) (a.code) (b.code) (0) dep + st = W at F K ⊢
  simp only [decodeSyl, F.major, decRemote, needL, zero, guardOr, dstD, srcA, srcB, F.l, F.minor, F.f28_4, F.f23_5,
    F.f18_5, F.f13_5, F.f12_1, K, remCls, arrA, arrB, arrC, decAmoFar, decSrc_code, decDst_code, decMod_code,
    fin_code, bv_code, bool_code]
  rfl

theorem amoSaddFar (cls : Fin 16) (d a b : Src) (dep : Deps) : Statement (.amoSaddFar cls d a b dep) := by
  intro w hw hwf
  obtain rfl : encE 22 14 (cls.val) (d.code) (a.code) (b.code) (0) dep = w := Option.some.inj hw
  refine ⟨fits_E (M := 22) (m := 14) (top := cls.val) (a := d.code) (b := a.code) (c := b.code) (z := 0) dep
    (by decide) (by decide) cls.isLt (src_lt d) (src_lt a) (src_lt b) (by decide), fun st hst => ?_⟩
  have F := eFields (M := 22) (m := 14) (top := cls.val) (a := d.code) (b := a.code) (c := b.code) (z := 0) dep
    (by decide) (by decide) cls.isLt (src_lt d) (src_lt a) (src_lt b) (by decide) hst
  have K := eDeps (M := 22) (m := 14) (top := cls.val) (a := d.code) (b := a.code) (c := b.code) (z := 0) dep
    (by decide) (by decide) cls.isLt (src_lt d) (src_lt a) (src_lt b) (by decide) hst
  generalize encE 22 14 (cls.val) (d.code) (a.code) (b.code) (0) dep + st = W at F K ⊢
  simp only [decodeSyl, F.major, decRemote, needL, zero, guardOr, dstD, srcA, srcB, F.l, F.minor, F.f28_4, F.f23_5,
    F.f18_5, F.f13_5, F.f12_1, K, remCls, arrA, arrB, arrC, decAmoFar, decSrc_code, decDst_code, decMod_code,
    fin_code, bv_code, bool_code]
  rfl

theorem amoSwapFar (cls : Fin 16) (d a b : Src) (dep : Deps) : Statement (.amoSwapFar cls d a b dep) := by
  intro w hw hwf
  obtain rfl : encE 22 15 (cls.val) (d.code) (a.code) (b.code) (0) dep = w := Option.some.inj hw
  refine ⟨fits_E (M := 22) (m := 15) (top := cls.val) (a := d.code) (b := a.code) (c := b.code) (z := 0) dep
    (by decide) (by decide) cls.isLt (src_lt d) (src_lt a) (src_lt b) (by decide), fun st hst => ?_⟩
  have F := eFields (M := 22) (m := 15) (top := cls.val) (a := d.code) (b := a.code) (c := b.code) (z := 0) dep
    (by decide) (by decide) cls.isLt (src_lt d) (src_lt a) (src_lt b) (by decide) hst
  have K := eDeps (M := 22) (m := 15) (top := cls.val) (a := d.code) (b := a.code) (c := b.code) (z := 0) dep
    (by decide) (by decide) cls.isLt (src_lt d) (src_lt a) (src_lt b) (by decide) hst
  generalize encE 22 15 (cls.val) (d.code) (a.code) (b.code) (0) dep + st = W at F K ⊢
  simp only [decodeSyl, F.major, decRemote, needL, zero, guardOr, dstD, srcA, srcB, F.l, F.minor, F.f28_4, F.f23_5,
    F.f18_5, F.f13_5, F.f12_1, K, remCls, arrA, arrB, arrC, decAmoFar, decSrc_code, decDst_code, decMod_code,
    fin_code, bv_code, bool_code]
  rfl

theorem amoCasFar (cls : Fin 16) (d a b : Src) (dep : Deps) : Statement (.amoCasFar cls d a b dep) := by
  intro w hw hwf
  have ht : b.isPair = true := hwf
  obtain rfl : encE 22 16 (cls.val) (d.code) (a.code) (b.code) (0) dep = w := Option.some.inj hw
  refine ⟨fits_E (M := 22) (m := 16) (top := cls.val) (a := d.code) (b := a.code) (c := b.code) (z := 0) dep
    (by decide) (by decide) cls.isLt (src_lt d) (src_lt a) (src_lt b) (by decide), fun st hst => ?_⟩
  have F := eFields (M := 22) (m := 16) (top := cls.val) (a := d.code) (b := a.code) (c := b.code) (z := 0) dep
    (by decide) (by decide) cls.isLt (src_lt d) (src_lt a) (src_lt b) (by decide) hst
  have K := eDeps (M := 22) (m := 16) (top := cls.val) (a := d.code) (b := a.code) (c := b.code) (z := 0) dep
    (by decide) (by decide) cls.isLt (src_lt d) (src_lt a) (src_lt b) (by decide) hst
  generalize encE 22 16 (cls.val) (d.code) (a.code) (b.code) (0) dep + st = W at F K ⊢
  simp only [decodeSyl, F.major, decRemote, needL, zero, guardOr, dstD, srcA, srcB, F.l, F.minor, F.f28_4, F.f23_5,
    F.f18_5, F.f13_5, F.f12_1, K, remCls, arrA, arrB, arrC, decAmoFar, ht, decSrc_code, decDst_code, decMod_code,
    fin_code, bv_code, bool_code]
  rfl

theorem hops (d : Dst) (a b : Src) : Statement (.hops d a b) := by
  intro w hw hwf
  obtain rfl : encLo 23 0 (d.code) (a.code) (b.code) (0) (0) 0 = w := Option.some.inj hw
  refine ⟨fits_lo0 (M := 23) (m := 0) (d := d.code) (a := a.code) (b := b.code) (t := 0) (r := 0) (by decide)
    (by decide) (dst_lt d) (src_lt a) (src_lt b) (by decide) (by decide), fun st hst => ?_⟩
  have F := loFields0 (M := 23) (m := 0) (d := d.code) (a := a.code) (b := b.code) (t := 0) (r := 0) (l := 0)
    (by decide) (by decide) (dst_lt d) (src_lt a) (src_lt b) (by decide) (by decide) (by decide) hst
  have G := loSpans0 (M := 23) (m := 0) (d := d.code) (a := a.code) (b := b.code) (t := 0) (r := 0) (l := 0)
    (by decide) (by decide) (dst_lt d) (src_lt a) (src_lt b) (by decide) (by decide) (by decide) hst
  generalize encLo 23 0 (d.code) (a.code) (b.code) (0) (0) 0 + st = W at F G ⊢
  simp only [decodeSyl, F.major, decPanel, needL, zero, guardOr, dstD, srcA, srcB, F.l, F.major, F.minor, F.d, F.a,
    F.b, F.t, F.r, G.s27_5, decSrc_code, decDst_code, decMod_code, fin_code, bv_code, bool_code]
  rfl

theorem mcst (n : Fin 16) (a b : Src) (w : Bool) (dep : Deps) : Statement (.mcst n a b w dep) := by
  intro u hw hwf
  have ht : dep.noEdges = true := hwf
  obtain rfl : encE 23 1 (0) (2 * n.val) (a.code) (b.code) (w.toNat) dep = u := Option.some.inj hw
  refine ⟨fits_E (M := 23) (m := 1) (top := 0) (a := 2 * n.val) (b := a.code) (c := b.code) (z := w.toNat) dep
    (by decide) (by decide) (by decide) (by omega) (src_lt a) (src_lt b) (bool_lt w), fun st hst => ?_⟩
  have F := eFields (M := 23) (m := 1) (top := 0) (a := 2 * n.val) (b := a.code) (c := b.code) (z := w.toNat) dep
    (by decide) (by decide) (by decide) (by omega) (src_lt a) (src_lt b) (bool_lt w) hst
  have K := eDeps (M := 23) (m := 1) (top := 0) (a := 2 * n.val) (b := a.code) (c := b.code) (z := w.toNat) dep
    (by decide) (by decide) (by decide) (by omega) (src_lt a) (src_lt b) (bool_lt w) hst
  generalize encE 23 1 (0) (2 * n.val) (a.code) (b.code) (w.toNat) dep + st = W at F K ⊢
  simp only [decodeSyl, F.major, decPanel, needL, zero, guardOr, dstD, srcA, srcB, F.l, F.minor, F.f28_4, F.f23_5,
    F.f18_5, F.f13_5, F.f12_1, F.f23_1, F.f24_4, F.f12_12, F.f12_6, K, remCls, arrB, arrC, two_mul_mod, two_mul_div,
    two_mul_one_mod, two_mul_one_div, decSrc_code, decDst_code, decMod_code, fin_code, bv_code, bool_code]
  simp [bind, Except.bind, ht]

theorem mcstSt (n : Fin 16) (a b : Src) (w : Bool) (dep : Deps) : Statement (.mcstSt n a b w dep) := by
  intro u hw hwf
  have ht : dep.noEdges = true := hwf
  obtain rfl : encE 23 1 (0) (2 * n.val + 1) (a.code) (b.code) (w.toNat) dep = u := Option.some.inj hw
  refine ⟨fits_E (M := 23) (m := 1) (top := 0) (a := 2 * n.val + 1) (b := a.code) (c := b.code) (z := w.toNat) dep
    (by decide) (by decide) (by decide) (by omega) (src_lt a) (src_lt b) (bool_lt w), fun st hst => ?_⟩
  have F := eFields (M := 23) (m := 1) (top := 0) (a := 2 * n.val + 1) (b := a.code) (c := b.code) (z := w.toNat) dep
    (by decide) (by decide) (by decide) (by omega) (src_lt a) (src_lt b) (bool_lt w) hst
  have K := eDeps (M := 23) (m := 1) (top := 0) (a := 2 * n.val + 1) (b := a.code) (c := b.code) (z := w.toNat) dep
    (by decide) (by decide) (by decide) (by omega) (src_lt a) (src_lt b) (bool_lt w) hst
  generalize encE 23 1 (0) (2 * n.val + 1) (a.code) (b.code) (w.toNat) dep + st = W at F K ⊢
  simp only [decodeSyl, F.major, decPanel, needL, zero, guardOr, dstD, srcA, srcB, F.l, F.minor, F.f28_4, F.f23_5,
    F.f18_5, F.f13_5, F.f12_1, F.f23_1, F.f24_4, F.f12_12, F.f12_6, K, remCls, arrB, arrC, two_mul_mod, two_mul_div,
    two_mul_one_mod, two_mul_one_div, decSrc_code, decDst_code, decMod_code, fin_code, bv_code, bool_code]
  simp [bind, Except.bind, ht]

theorem pbar (cls : Fin 16) (ch : Fin 16) (dep : Deps) : Statement (.pbar cls ch dep) := by
  intro w hw hwf
  obtain rfl : encE 23 2 (cls.val) (2 * ch.val) (0) (0) (0) dep = w := Option.some.inj hw
  refine ⟨fits_E (M := 23) (m := 2) (top := cls.val) (a := 2 * ch.val) (b := 0) (c := 0) (z := 0) dep (by decide)
    (by decide) cls.isLt (by omega) (by decide) (by decide) (by decide), fun st hst => ?_⟩
  have F := eFields (M := 23) (m := 2) (top := cls.val) (a := 2 * ch.val) (b := 0) (c := 0) (z := 0) dep (by decide)
    (by decide) cls.isLt (by omega) (by decide) (by decide) (by decide) hst
  have K := eDeps (M := 23) (m := 2) (top := cls.val) (a := 2 * ch.val) (b := 0) (c := 0) (z := 0) dep (by decide)
    (by decide) cls.isLt (by omega) (by decide) (by decide) (by decide) hst
  generalize encE 23 2 (cls.val) (2 * ch.val) (0) (0) (0) dep + st = W at F K ⊢
  simp only [decodeSyl, F.major, decPanel, needL, zero, guardOr, dstD, srcA, srcB, F.l, F.minor, F.f28_4, F.f23_5,
    F.f18_5, F.f13_5, F.f12_1, F.f23_1, F.f24_4, F.f12_12, F.f12_6, K, remCls, arrB, arrC, two_mul_mod, two_mul_div,
    two_mul_one_mod, two_mul_one_div, decSrc_code, decDst_code, decMod_code, fin_code, bv_code, bool_code]
  rfl

theorem mwin (n : Fin 16) (a : Src) (dep : Deps) : Statement (.mwin n a dep) := by
  intro w hw hwf
  obtain rfl : encE 23 3 (0) (2 * n.val) (a.code) (0) (0) dep = w := Option.some.inj hw
  refine ⟨fits_E (M := 23) (m := 3) (top := 0) (a := 2 * n.val) (b := a.code) (c := 0) (z := 0) dep (by decide)
    (by decide) (by decide) (by omega) (src_lt a) (by decide) (by decide), fun st hst => ?_⟩
  have F := eFields (M := 23) (m := 3) (top := 0) (a := 2 * n.val) (b := a.code) (c := 0) (z := 0) dep (by decide)
    (by decide) (by decide) (by omega) (src_lt a) (by decide) (by decide) hst
  have K := eDeps (M := 23) (m := 3) (top := 0) (a := 2 * n.val) (b := a.code) (c := 0) (z := 0) dep (by decide)
    (by decide) (by decide) (by omega) (src_lt a) (by decide) (by decide) hst
  generalize encE 23 3 (0) (2 * n.val) (a.code) (0) (0) dep + st = W at F K ⊢
  simp only [decodeSyl, F.major, decPanel, needL, zero, guardOr, dstD, srcA, srcB, F.l, F.minor, F.f28_4, F.f23_5,
    F.f18_5, F.f13_5, F.f12_1, F.f23_1, F.f24_4, F.f12_12, F.f12_6, K, remCls, arrB, arrC, two_mul_mod, two_mul_div,
    two_mul_one_mod, two_mul_one_div, decSrc_code, decDst_code, decMod_code, fin_code, bv_code, bool_code]
  rfl

theorem pfx (p : Pfx) : Statement (.pfx p) := by
  intro w hw hwf
  rcases p with ⟨tag, tagEn, cls, clsEn, flush, sat, rnd⟩
  obtain rfl : 2 ^ 7 * rndCode rnd + 2 ^ 10 * sat.code + 2 ^ 12 * flush.code + 2 ^ 14 * clsEn.toNat + 2 ^ 15 * cls.val
    + 2 ^ 19 * tagEn.toNat + 2 ^ 20 * tag.toNat = w := Option.some.inj hw
  refine ⟨fits_pfx tag tagEn cls clsEn flush sat rnd, fun st hst => ?_⟩
  have F := pfxFields tag tagEn cls clsEn flush sat rnd hst
  simp only [decodeSyl, F.major, decPfx, needL, zero, guardOr, F.l, F.f28_4, F.rnd, F.sat, F.flush, F.clsEn, F.cls,
    F.tagEn, F.tag, decRnd_code, decSat_code, decFlush_code, fin_code, bv_code, bool_code]
  rfl

theorem bundleRoute (write : Bool) (far : BitVec 16) (src : RouteSrc) : Statement (.bundleRoute write far src) := by
  intro w hw hwf
  have hb := bool_lt write
  have hf := far.isLt
  cases src with
  | identity =>
    obtain rfl : 2 + 2 ^ 2 * 31 + 2 ^ 7 * write.toNat + 0 + 2 ^ 42 * far.toNat = w := Option.some.inj hw
    refine ⟨fits_br (x := 0) (by omega) hb hf, fun st hst => ?_⟩
    have F := brFields (x := 0) (k := 0) (y := 0) (by decide) (by decide) hb hf hst
    have e : fld 0 10 32 = 0 := by decide
    simp only [decodeSyl, F.major, decBundleRoute, needL, zero, guardOr, F.l, F.f58_6, F.wr, F.far, F.mode, F.f10_32]
    rw [bv_code, bool_code]
    rfl
  | bpc desc =>
    obtain rfl : 2 + 2 ^ 2 * 31 + 2 ^ 7 * write.toNat + (2 ^ 8 + 2 ^ 10 * desc.toNat) + 2 ^ 42 * far.toNat = w :=
      Option.some.inj hw
    have ht : bpcValid desc = true := hwf
    have hd := desc.isLt
    refine ⟨fits_br (x := 2 ^ 8 + 2 ^ 10 * desc.toNat) (by omega) hb hf, fun st hst => ?_⟩
    have F := brFields (x := 2 ^ 8 + 2 ^ 10 * desc.toNat) (k := 1) (y := desc.toNat) (by omega) (by omega) hb hf hst
    simp only [decodeSyl, F.major, decBundleRoute, needL, zero, guardOr, F.l, F.f58_6, F.wr, F.far, F.mode, F.f10_32,
      bv_code, bool_code, bind, Except.bind, ht]
    rfl
  | pool len off =>
    obtain rfl : 2 + 2 ^ 2 * 31 + 2 ^ 7 * write.toNat + (2 * 2 ^ 8 + 2 ^ 10 * off.toNat + 2 ^ 34 * len.toNat)
      + 2 ^ 42 * far.toNat = w := Option.some.inj hw
    have ht : (len != 0) = true := hwf
    have hz := bv_ne_zero ht
    have hl := len.isLt
    have ho := off.isLt
    refine ⟨fits_br (x := 2 * 2 ^ 8 + 2 ^ 10 * off.toNat + 2 ^ 34 * len.toNat) (by omega) hb hf, fun st hst => ?_⟩
    have F := brFields (x := 2 * 2 ^ 8 + 2 ^ 10 * off.toNat + 2 ^ 34 * len.toNat) (k := 2)
      (y := off.toNat + 2 ^ 24 * len.toNat) (by omega) (by omega) hb hf hst
    have e1 : (off.toNat + 2 ^ 24 * len.toNat) / 2 ^ 29 % 2 ^ 3 = 0 := by omega
    have e2 : (off.toNat + 2 ^ 24 * len.toNat) / 2 ^ 24 % 2 ^ 5 = len.toNat := by omega
    have e3 : (off.toNat + 2 ^ 24 * len.toNat) % 2 ^ 24 = off.toNat := by omega
    simp only [decodeSyl, F.major, decBundleRoute, needL, zero, guardOr, F.l, F.f58_6, F.wr, F.far, F.mode, F.f39_3,
      F.f34_5, F.f10_24, e1, e2, e3, bv_code, bool_code, bind, Except.bind, hz]
    rfl
  | reg x =>
    obtain rfl : 2 + 2 ^ 2 * 31 + 2 ^ 7 * write.toNat + (3 * 2 ^ 8 + 2 ^ 10 * x.val) + 2 ^ 42 * far.toNat = w :=
      Option.some.inj hw
    have hx := x.isLt
    refine ⟨fits_br (x := 3 * 2 ^ 8 + 2 ^ 10 * x.val) (by omega) hb hf, fun st hst => ?_⟩
    have F := brFields (x := 3 * 2 ^ 8 + 2 ^ 10 * x.val) (k := 3) (y := x.val) (by omega) (by omega) hb hf hst
    have e1 : x.val / 2 ^ 5 % 2 ^ 27 = 0 := by omega
    have e2 : x.val % 2 ^ 5 = x.val := by omega
    simp only [decodeSyl, F.major, decBundleRoute, needL, zero, guardOr, F.l, F.f58_6, F.wr, F.far, F.mode, F.f15_27,
      F.f10_5, e1, e2, bv_code, bool_code, fin_code]
    rfl

theorem bundleIssue : Statement .bundleIssue := by
  intro w hw
  cases hw

theorem quantumExpiry : Statement .quantumExpiry := by
  intro w hw
  cases hw

theorem tagWaitLimit : Statement .tagWaitLimit := by
  intro w hw
  cases hw

theorem resultLanding : Statement .resultLanding := by
  intro w hw
  cases hw

theorem bankAccessPerform : Statement .bankAccessPerform := by
  intro w hw
  cases hw

theorem farGroupArrival : Statement .farGroupArrival := by
  intro w hw
  cases hw

theorem waitConditionMet : Statement .waitConditionMet := by
  intro w hw
  cases hw

theorem heldBundleRelease : Statement .heldBundleRelease := by
  intro w hw
  cases hw

theorem taskLaunchStart : Statement .taskLaunchStart := by
  intro w hw
  cases hw

theorem taskEnd : Statement .taskEnd := by
  intro w hw
  cases hw

theorem spillRefillComplete : Statement .spillRefillComplete := by
  intro w hw
  cases hw

theorem ctxswComplete : Statement .ctxswComplete := by
  intro w hw
  cases hw

theorem cutBack : Statement .cutBack := by
  intro w hw
  cases hw

theorem cutBackSaveEnd : Statement .cutBackSaveEnd := by
  intro w hw
  cases hw

theorem arrivePerform : Statement .arrivePerform := by
  intro w hw
  cases hw

theorem foldSetPerform : Statement .foldSetPerform := by
  intro w hw
  cases hw

theorem engineOpStart : Statement .engineOpStart := by
  intro w hw
  cases hw

theorem engineOpComplete : Statement .engineOpComplete := by
  intro w hw
  cases hw

theorem engineOpError : Statement .engineOpError := by
  intro w hw
  cases hw

theorem copyUnitCommit : Statement .copyUnitCommit := by
  intro w hw
  cases hw

theorem copyTagWaitLimit : Statement .copyTagWaitLimit := by
  intro w hw
  cases hw

theorem followOnIssue : Statement .followOnIssue := by
  intro w hw
  cases hw

theorem translationWalkComplete : Statement .translationWalkComplete := by
  intro w hw
  cases hw

theorem migratingLeafRewalk : Statement .migratingLeafRewalk := by
  intro w hw
  cases hw

theorem mmuResolveRetry : Statement .mmuResolveRetry := by
  intro w hw
  cases hw

theorem mmuResolveFail : Statement .mmuResolveFail := by
  intro w hw
  cases hw

theorem mmuResolveRefuse : Statement .mmuResolveRefuse := by
  intro w hw
  cases hw

theorem mmuInval : Statement .mmuInval := by
  intro w hw
  cases hw

theorem fillBegin : Statement .fillBegin := by
  intro w hw
  cases hw

theorem fillComplete : Statement .fillComplete := by
  intro w hw
  cases hw

theorem refreshWindowOpen : Statement .refreshWindowOpen := by
  intro w hw
  cases hw

theorem refreshWindowClose : Statement .refreshWindowClose := by
  intro w hw
  cases hw

theorem stationForcedRefresh : Statement .stationForcedRefresh := by
  intro w hw
  cases hw

theorem fillCalWrite : Statement .fillCalWrite := by
  intro w hw
  cases hw

theorem channelRedeal : Statement .channelRedeal := by
  intro w hw
  cases hw

theorem ucieFlitCrcFail : Statement .ucieFlitCrcFail := by
  intro w hw
  cases hw

theorem stationParityDiscard : Statement .stationParityDiscard := by
  intro w hw
  cases hw

theorem remoteAccessSend : Statement .remoteAccessSend := by
  intro w hw
  cases hw

theorem remoteAccessCommit : Statement .remoteAccessCommit := by
  intro w hw
  cases hw

theorem remoteReplyArrival : Statement .remoteReplyArrival := by
  intro w hw
  cases hw

theorem retryAfterExpiry : Statement .retryAfterExpiry := by
  intro w hw
  cases hw

theorem remoteTimeout : Statement .remoteTimeout := by
  intro w hw
  cases hw

theorem stMigWrite : Statement .stMigWrite := by
  intro w hw
  cases hw

theorem mcstArrival : Statement .mcstArrival := by
  intro w hw
  cases hw

theorem mcstLanding : Statement .mcstLanding := by
  intro w hw
  cases hw

theorem pbarArrivalSend : Statement .pbarArrivalSend := by
  intro w hw
  cases hw

theorem pbarRootCount : Statement .pbarRootCount := by
  intro w hw
  cases hw

theorem pbarRelease : Statement .pbarRelease := by
  intro w hw
  cases hw

theorem pbCtlWrite : Statement .pbCtlWrite := by
  intro w hw
  cases hw

theorem syncRecal : Statement .syncRecal := by
  intro w hw
  cases hw

theorem syncLock : Statement .syncLock := by
  intro w hw
  cases hw

theorem serviceChange : Statement .serviceChange := by
  intro w hw
  cases hw

theorem leaderElection : Statement .leaderElection := by
  intro w hw
  cases hw

theorem qTailWrite : Statement .qTailWrite := by
  intro w hw
  cases hw

theorem launchPacket : Statement .launchPacket := by
  intro w hw
  cases hw

theorem copyPacket : Statement .copyPacket := by
  intro w hw
  cases hw

theorem fencePacket : Statement .fencePacket := by
  intro w hw
  cases hw

theorem fenceReread : Statement .fenceReread := by
  intro w hw
  cases hw

theorem signalPacket : Statement .signalPacket := by
  intro w hw
  cases hw

theorem markPacket : Statement .markPacket := by
  intro w hw
  cases hw

theorem qRheadWrite : Statement .qRheadWrite := by
  intro w hw
  cases hw

theorem qCtlWrite : Statement .qCtlWrite := by
  intro w hw
  cases hw

theorem ctxPreWrite : Statement .ctxPreWrite := by
  intro w hw
  cases hw

theorem winRelWrite : Statement .winRelWrite := by
  intro w hw
  cases hw

theorem dieReset : Statement .dieReset := by
  intro w hw
  cases hw

theorem svnCommit : Statement .svnCommit := by
  intro w hw
  cases hw

theorem featureLock : Statement .featureLock := by
  intro w hw
  cases hw

theorem attestationRequest : Statement .attestationRequest := by
  intro w hw
  cases hw

theorem thermalShutdown : Statement .thermalShutdown := by
  intro w hw
  cases hw

theorem stewardBankAccess : Statement .stewardBankAccess := by
  intro w hw
  cases hw

theorem keyDelivery : Statement .keyDelivery := by
  intro w hw
  cases hw

theorem partitionDissolve : Statement .partitionDissolve := by
  intro w hw
  cases hw

theorem panelReset : Statement .panelReset := by
  intro w hw
  cases hw

theorem rejoinDelayExpiry : Statement .rejoinDelayExpiry := by
  intro w hw
  cases hw

theorem incarnationAnnouncement : Statement .incarnationAnnouncement := by
  intro w hw
  cases hw

theorem flitReceive : Statement .flitReceive := by
  intro w hw
  cases hw

theorem linkReplay : Statement .linkReplay := by
  intro w hw
  cases hw

theorem lackIdleFlit : Statement .lackIdleFlit := by
  intro w hw
  cases hw

theorem lnkModeWrite : Statement .lnkModeWrite := by
  intro w hw
  cases hw

theorem modeRequestTimeout : Statement .modeRequestTimeout := by
  intro w hw
  cases hw

theorem slotSend : Statement .slotSend := by
  intro w hw
  cases hw

theorem slotForward : Statement .slotForward := by
  intro w hw
  cases hw

theorem slotArrival : Statement .slotArrival := by
  intro w hw
  cases hw

theorem slotAckArrival : Statement .slotAckArrival := by
  intro w hw
  cases hw

theorem refusalNoticeArrival : Statement .refusalNoticeArrival := by
  intro w hw
  cases hw

theorem fabricRetryAfterExpiry : Statement .fabricRetryAfterExpiry := by
  intro w hw
  cases hw

theorem grantArrival : Statement .grantArrival := by
  intro w hw
  cases hw

theorem drainMarkerArrival : Statement .drainMarkerArrival := by
  intro w hw
  cases hw

theorem slotResendTimeout : Statement .slotResendTimeout := by
  intro w hw
  cases hw

theorem slotPortWaitExpiry : Statement .slotPortWaitExpiry := by
  intro w hw
  cases hw

theorem ringRelockStart : Statement .ringRelockStart := by
  intro w hw
  cases hw

theorem ringRelockEnd : Statement .ringRelockEnd := by
  intro w hw
  cases hw

theorem wavelengthRetire : Statement .wavelengthRetire := by
  intro w hw
  cases hw

theorem setup : Statement .setup := by
  intro w hw
  cases hw

theorem ack : Statement .ack := by
  intro w hw
  cases hw

theorem nak : Statement .nak := by
  intro w hw
  cases hw

theorem tear : Statement .tear := by
  intro w hw
  cases hw

theorem tearAck : Statement .tearAck := by
  intro w hw
  cases hw

theorem reservationTimeout : Statement .reservationTimeout := by
  intro w hw
  cases hw

theorem setupTimeout : Statement .setupTimeout := by
  intro w hw
  cases hw

theorem backOffExpiry : Statement .backOffExpiry := by
  intro w hw
  cases hw

theorem pathLit : Statement .pathLit := by
  intro w hw
  cases hw

theorem lightingTimeout : Statement .lightingTimeout := by
  intro w hw
  cases hw

theorem tearingTimeout : Statement .tearingTimeout := by
  intro w hw
  cases hw

theorem pathSetupRequest : Statement .pathSetupRequest := by
  intro w hw
  cases hw

theorem pathTearRequest : Statement .pathTearRequest := by
  intro w hw
  cases hw

theorem fabHoldSet : Statement .fabHoldSet := by
  intro w hw
  cases hw

theorem fabHoldClear : Statement .fabHoldClear := by
  intro w hw
  cases hw

theorem qpLoad : Statement .qpLoad := by
  intro w hw
  cases hw

theorem qpReset : Statement .qpReset := by
  intro w hw
  cases hw

theorem qpError : Statement .qpError := by
  intro w hw
  cases hw

theorem doorbellWrite : Statement .doorbellWrite := by
  intro w hw
  cases hw

theorem workEntryServe : Statement .workEntryServe := by
  intro w hw
  cases hw

theorem registerWrite : Statement .registerWrite := by
  intro w hw
  cases hw

theorem powerThrottle : Statement .powerThrottle := by
  intro w hw
  cases hw

theorem stewardPanelAccess : Statement .stewardPanelAccess := by
  intro w hw
  cases hw

theorem wavelengthSignalLoss : Statement .wavelengthSignalLoss := by
  intro w hw
  cases hw

end Sys2Proof.Laws.RoundTrip
end

