-- ==== Sys2Proof/Laws/Sequencer.lean ====
section
/-! SUPPORT. What the sequencer's shared operations do, each said once: starting to issue, giving the width up, switching
to another context, passing the width on, and freeing a context. -/

namespace Sys2Proof.Machine

/-- The fold that `landedBy` makes over results is no less than where it starts, nor than any of them. -/
theorem flights_bound (l : List Flight) (m : Nat) : m ≤ l.foldl (fun m f => max m (f.due + f.land.isFlags.toNat)) m ∧
   ∀ f ∈ l, f.due ≤ l.foldl (fun m f => max m (f.due + f.land.isFlags.toNat)) m := by
  induction l generalizing m with
  | nil => simp
  | cons a l ih =>
    simp only [List.foldl_cons, List.mem_cons]
    have := ih (max m (a.due + a.land.isFlags.toNat))
    refine ⟨by omega, ?_⟩
    rintro f (rfl | hf)
    · omega
    · exact this.2 f hf

/-- The fold that `landedBy` makes over accesses is no less than where it starts. -/
theorem accesses_bound (l : List Access) (n : CtxId) (m : Nat) : m ≤ l.foldl (fun m a =>
    if a.ctx == n then max m (match a.kind with
      | .amo _ _ _ _ _ _ _ => a.landing + 1
      | _ => a.landing)
    else m) m := by
  induction l generalizing m with
  | nil => simp
  | cons a l ih =>
    simp only [List.foldl_cons]
    refine le_trans ?_ (ih _)
    split <;> omega

/-- No result of a context lands after `landedBy`. -/
theorem Die.landedBy_ge (x : Die) (n : CtxId) : ∀ f ∈ (x.ctx n).flight, f.due ≤ x.landedBy n := by
  intro f hf
  exact le_trans ((flights_bound _ 0).2 f hf) (accesses_bound _ _ _)

/-- A change of a die that keeps its banks and folds changes no byte. -/
theorem State.sameBytes_modDie (s : State) (d : DieId) (f : Die → Die) (h : (f (s.die d)).bank = (s.die d).bank)
    (h' : (f (s.die d)).folds = (s.die d).folds) : s.SameBytes (s.modDie d f) := by
  refine ⟨fun _ => rfl, fun e a => ?_⟩
  by_cases he : d = e
  · subst he; rw [State.die_modDie]; exact Die.bankByte_congr h h' a
  · rw [State.die_modDie_other _ _ he]

theorem State.ctx_modDie_other (s : State) {d e : DieId} (f : Die → Die) (n : CtxId) (h : d ≠ e) : (s.modDie d f).ctx e n = s.ctx e n := by
  unfold State.ctx; rw [State.die_modDie_other _ _ h]

theorem State.ctx_modDie (s : State) (d : DieId) (f : Die → Die) (n : CtxId) : (s.modDie d f).ctx d n = (f (s.die d)).ctx n := by
  unfold State.ctx; rw [State.die_modDie]

theorem State.ctx_modDie_same (s : State) (d e : DieId) (f : Die → Die) (n : CtxId) (h : ∀ x, (f x).ctxs = x.ctxs) : (s.modDie d f).ctx e n = s.ctx e n := by
  by_cases he : d = e
  · subst he; rw [State.ctx_modDie]; unfold Die.ctx; rw [h]; rfl
  · exact State.ctx_modDie_other _ _ _ he

/-- All that starting to issue a bundle does. -/
theorem State.startIssue_spec (s : State) (d : DieId) (n : CtxId) (rs : List RawSyl) :
    let x := s.die d
    let k := s.ctx d n
    let t := s.startIssue d n rs
    t.iss = { active := true, die := d, ctx := n, hnd := k.priv, p := k.rf.pc, len := rs.foldl (fun k r => k + r.len) 0
              buf := rs.flatMap fun r => leBytes r.len r.bits, bundle := x.seq.bundles }
    ∧ t.ctx d n = { k with st := .running, quantum := k.quantum + 1, waits := [] }
    ∧ (∀ e l, e ≠ d ∨ l ≠ n → t.ctx e l = s.ctx e l) ∧ s.SameBytes t ∧ { t with dies := s.dies, iss := s.iss } = s := by
  intro x k t
  let f1 (x : Die) : Die := { x with seq := { x.seq with bundles := x.seq.bundles + 1 } }
  let f2 (x : Die) : Die := { x with seq := { x.seq with busy := (0, n) :: x.seq.busy } }
  let g (c : Ctx) : Ctx := { c with st := .running, quantum := c.quantum + 1, waits := [] }
  let u := ((s.modDie d f1).modCtx d n g).modDie d f2
  have hc : ∀ e l, t.ctx e l = u.ctx e l := fun _ _ => rfl
  have c1 : ∀ e l, u.ctx e l = ((s.modDie d f1).modCtx d n g).ctx e l := fun e l => State.ctx_modDie_same _ d e f2 l (fun _ => rfl)
  have c2 : ∀ e l, (s.modDie d f1).ctx e l = s.ctx e l := fun e l => State.ctx_modDie_same _ d e f1 l (fun _ => rfl)
  refine ⟨rfl, ?_, ?_, ?_, rfl⟩
  · rw [hc, c1, State.ctx_modCtx, c2]
  · intro e l h
    rw [hc, c1, State.ctx_modCtx_other _ _ h, c2]
  · have h : s.SameBytes u := ((State.sameBytes_modDie s d f1 rfl rfl).trans (State.sameBytes_modCtx _ d n g)).trans (State.sameBytes_modDie _ d f2 rfl rfl)
    exact h

/-- The holder of the width gives it up. -/
theorem Die.giveUp_holder (x : Die) (n k st) (h : x.seq.holder = some n) : x.giveUp n k st =
    { (x.modCtx n fun c => { c with st := st }) with seq := { x.seq with holder := none, gaveUp := k } } := by
  simp only [Die.giveUp]
  have : (x.seq.holder == some n) = true := by simp [h]
  rw [if_pos this]

/-- A search of the three other contexts finds one if there is one. -/
theorem nextCtx_find (n m : CtxId) (p : CtxId → Bool) (hm : m ≠ n) (hp : p m = true) :
    ∃ k, [nextCtx n 1, nextCtx n 2, nextCtx n 3].find? p = some k ∧ k ≠ n ∧ p k = true := by
  have hm' : m ∈ [nextCtx n 1, nextCtx n 2, nextCtx n 3] := by clear hp; clear p; revert n m; decide
  cases hf : [nextCtx n 1, nextCtx n 2, nextCtx n 3].find? p with
  | none =>
    rw [List.find?_eq_none] at hf
    exact absurd hp (hf m hm')
  | some k =>
    refine ⟨k, rfl, ?_, List.find?_some hf⟩
    have := List.mem_of_find?_eq_some hf
    clear hf hm' hm hp; clear p; revert k n; decide

/-- In the cycle after the width was given up, the first of the others that is Ready is switched to. -/
theorem Die.choose_other (x : Die) (m : Nat) (n : CtxId) (k : CtxId) (h : x.seq.last = n) (hg : m = x.seq.gaveUp + 1)
   (hf : [nextCtx n 1, nextCtx n 2, nextCtx n 3].find? (fun l => (x.ctx l).st == .ready) = some k) :
   x.choose m = x.switchTo k (m + 1) := by
  unfold Die.choose
  simp only [h]
  rw [if_neg (by simp [hg]), hf]

/-- All that a switch to another context does. -/
theorem Die.switchTo_spec (x : Die) (n k : CtxId) (m : Nat) (h : x.seq.last = n) (hk : k ≠ n) :
   let y := x.switchTo k m
   y.seq = { x.seq with holder := some k, last := k, switches := x.seq.switches + 1 }
   ∧ y.ctx n = { x.ctx n with earliest := max (x.ctx n).earliest (x.landedBy n) }
   ∧ y.ctx k = { x.ctx k with st := .running, quantum := 0, earliest := max (x.ctx k).earliest m }
   ∧ (∀ l, l ≠ n → l ≠ k → y.ctx l = x.ctx l) ∧ y.bank = x.bank ∧ y.folds = x.folds := by
  intro y
  have e : y = (x.modCtx n fun c => { c with earliest := max c.earliest (x.landedBy n) }).take k m true := by
    show x.switchTo k m = _
    simp only [Die.switchTo, h]
  let z : Die := { (x.modCtx n fun c => { c with earliest := max c.earliest (x.landedBy n) }) with seq := { x.seq with holder := some k, last := k, switches := x.seq.switches + 1 } }
  have e2 : y = z.modCtx k fun c => { c with st := .running, quantum := 0, earliest := max c.earliest m } := by rw [e]; rfl
  have hz : ∀ l, z.ctx l = (x.modCtx n fun c => { c with earliest := max c.earliest (x.landedBy n) }).ctx l := fun _ => rfl
  rw [e2]
  refine ⟨rfl, ?_, ?_, ?_, rfl, rfl⟩
  · rw [Die.ctx_modCtx_other _ _ hk, hz, Die.ctx_modCtx]
  · rw [Die.ctx_modCtx, hz, Die.ctx_modCtx_other _ _ hk.symm]
  · intro l h1 h2
    rw [Die.ctx_modCtx_other _ _ h2.symm, hz, Die.ctx_modCtx_other _ _ h1.symm]

/-- All that passing the width on does, if another context is Ready. -/
theorem State.pass_spec (s : State) (d : DieId) (n m : CtxId) (h0 : (s.die d).seq.holder = some n) (h1 : (s.die d).seq.last = n)
   (hc : 0 < s.cycle) (hm : m ≠ n) (hr : (s.ctx d m).st = .ready) :
   let t := s.pass d n
   ∃ k : CtxId, k ≠ n ∧ (s.ctx d k).st = .ready ∧ (t.die d).seq.holder = some k ∧ (t.die d).seq.switches = (s.die d).seq.switches + 1
     ∧ t.ctx d n = { s.ctx d n with st := .ready, waits := [], earliest := max (s.ctx d n).earliest ((s.die d).landedBy n) }
     ∧ t.ctx d k = { s.ctx d k with st := .running, quantum := 0, earliest := max (s.ctx d k).earliest (s.cycle + 1) }
     ∧ (∀ e l, e ≠ d ∨ (l ≠ n ∧ l ≠ k) → t.ctx e l = s.ctx e l) ∧ s.SameBytes t ∧ { t with dies := s.dies } = s := by
  intro t
  let s1 := s.modCtx d n fun c => { c with waits := [] }
  let x := s.die d
  let x0 := s1.die d
  have hx0 : x0 = x.modCtx n fun c => { c with waits := [] } := State.die_modDie ..
  let x1 := x0.modCtx n fun c => { c with st := .ready }
  let x2 : Die := { x1 with seq := { x.seq with holder := none, gaveUp := s.cycle - 1 } }
  have hx2 : x0.giveUp n (s.cycle - 1) .ready = x2 := by
    have : x0.seq = x.seq := by rw [hx0]; rfl
    rw [Die.giveUp_holder _ _ _ _ (by rw [hx0]; exact h0), this]
  have hctx : ∀ l, l ≠ n → x2.ctx l = x.ctx l := by
    intro l h
    show x1.ctx l = _
    rw [Die.ctx_modCtx_other _ _ h.symm, hx0, Die.ctx_modCtx_other _ _ h.symm]
  have hctxn : x2.ctx n = { x.ctx n with st := .ready, waits := [] } := by
    show x1.ctx n = _
    rw [Die.ctx_modCtx, hx0, Die.ctx_modCtx]
  obtain ⟨k, hf, hk, hp⟩ := nextCtx_find n m (fun l => (x2.ctx l).st == .ready) hm (by rw [hctx m hm]; exact beq_iff_eq.mpr hr)
  have hp' : (x.ctx k).st = .ready := by rw [← hctx k hk]; simpa using hp
  have hch := Die.choose_other x2 s.cycle n k h1 (by show s.cycle = s.cycle - 1 + 1; omega) hf
  have ht : t.die d = x2.switchTo k (s.cycle + 1) := by
    show (s1.modDie d fun x => (x.giveUp n (s.cycle - 1) .ready).choose s.cycle).die d = _
    rw [State.die_modDie, ← hch, ← hx2]
  have hl : x2.landedBy n = x.landedBy n := by
    unfold Die.landedBy; rw [hctxn]
    have : x2.accs = x.accs := by show x0.accs = _; rw [hx0]; rfl
    rw [this]
  obtain ⟨q1, q2, q3, q4, q5, q6⟩ := Die.switchTo_spec x2 n k (s.cycle + 1) h1 hk
  refine ⟨k, hk, hp', ?_, ?_, ?_, ?_, ?_, ?_, rfl⟩
  · rw [ht, q1]
  · rw [ht, q1]
  · show (t.die d).ctx n = _
    rw [ht, q2, hctxn, hl]; rfl
  · show (t.die d).ctx k = _
    rw [ht, q3, hctx k hk]; rfl
  · intro e l h
    by_cases he : d = e
    · subst he
      have h := h.resolve_left (fun h => h rfl)
      show (t.die d).ctx l = _
      rw [ht, q4 l h.1 h.2, hctx l h.1]; rfl
    · show (t.die e).ctx l = _
      have : t.die e = s1.die e := State.die_modDie_other _ _ he
      rw [this]; 
      exact State.ctx_modCtx_other _ _ (.inl (Ne.symm he))
  · refine (State.sameBytes_modCtx _ d n _).trans (State.sameBytes_modDie s1 d _ ?_ ?_)
    · show ((x0.giveUp n (s.cycle - 1) .ready).choose s.cycle).bank = x0.bank
      rw [hx2, hch, q5]; rfl
    · show ((x0.giveUp n (s.cycle - 1) .ready).choose s.cycle).folds = x0.folds
      rw [hx2, hch, q6]; rfl

/-- All that freeing a context does to the machine, but for the walks that it leaves. -/
theorem State.freeCtx_spec (s : State) (d : DieId) (n : CtxId) :
  let t := s.freeCtx d n
  ((t.ctx d n).st = .free ∧ (t.ctx d n).priv = false ∧ (t.ctx d n).hasWin = false ∧ (t.ctx d n).taskEmpty = true ∧ (t.ctx d n).hndEmpty = true ∧ (t.ctx d n).waits = []
           ∧ (t.ctx d n).cutAt = none ∧ (t.ctx d n).act = none)
        ∧ (∀ f : FoldId, ((t.die d).folds[f]).owner = ((s.die d).folds[f]).owner &&& ~~~(1 <<< n.val : BitVec 4))
        ∧ (∀ o : Fin 128, ((t.die d).slots[o]).owner = if ((s.die d).slots[o]).owner = some n then none else ((s.die d).slots[o]).owner)
        ∧ (∀ o : Fin 128, ((t.die d).slots[o]).bytes = ((s.die d).slots[o]).bytes)
        ∧ (∀ e l, e ≠ d ∨ l ≠ n → t.ctx e l = s.ctx e l) ∧ { t with dies := s.dies } = s := by
  intro t
  let f (x : Die) : Die := ((x.releaseOwned n).leaveWalks n).modCtx n fun c =>
    { c with st := .free, priv := false, hasWin := false, taskEmpty := true, hndEmpty := true, preReq := false
             preReqOld := false, cutAt := none, preDeferred := false, waits := [], act := none, ctxswArg := none
             trapEnter := false, pendTrap := none }
  have ht : t.die d = f (s.die d) := State.die_modDie ..
  have hfo : (t.die d).folds = (s.die d).folds.map fun f => { f with owner := f.owner &&& ~~~(1 <<< n.val : BitVec 4) } := by rw [ht]; rfl
  have hsl : (t.die d).slots = (s.die d).slots.map fun o => if o.owner == some n then { o with owner := none } else o := by rw [ht]; rfl
  refine ⟨?_, ?_, ?_, ?_, ?_, rfl⟩
  · have : t.ctx d n = (f (s.die d)).ctx n := by show (t.die d).ctx n = _; rw [ht]
    rw [this]
    have : (f (s.die d)).ctx n = _ := Die.ctx_modCtx ..
    rw [this]; exact ⟨rfl, rfl, rfl, rfl, rfl, rfl, rfl, rfl⟩
  · intro f; rw [hfo]; simp
  · intro o; rw [hsl]; simp only [Fin.getElem_fin, Vector.getElem_map, beq_iff_eq]; split <;> rfl
  · intro o; rw [hsl]; simp only [Fin.getElem_fin, Vector.getElem_map, beq_iff_eq]; split <;> rfl
  · intro e l h
    by_cases he : d = e
    · subst he
      have h := h.resolve_left (fun h => h rfl)
      show (t.die d).ctx l = _
      rw [ht]
      exact Die.ctx_modCtx_other _ _ (Ne.symm h)
    · exact State.ctx_modDie_other _ _ _ he

end Sys2Proof.Machine
end

