-- ==== Sys2Proof/Laws/Vec.lean ====
section
/-! SUPPORT. Elements of vector images in the terms of the claims (R37, R217): what splitting and joining give element by
element, and the vector results of one and of two sources. -/

namespace Sys2Proof.Machine

theorem splitNat_length (w : Nat) : ∀ n v, (splitNat w n v).length = n
  | 0, _ => rfl
  | n + 1, v => by simp [splitNat, splitNat_length w n]

theorem splitNat_getD (w : Nat) : ∀ n v j, j < n → (splitNat w n v).getD j 0 = v / 2 ^ (w * j) % 2 ^ w
  | n + 1, v, 0, _ => by simp [splitNat]
  | n + 1, v, j + 1, h => by
    simp only [splitNat, List.getD_cons_succ]
    rw [splitNat_getD w n _ j (by omega), Nat.div_div_eq_div_mul, ← Nat.pow_add]
    congr 3
    rw [Nat.mul_add, Nat.add_comm, Nat.mul_one]

theorem joinNat_getD (w : Nat) : ∀ (l : List Nat) (j : Nat), joinNat w l / 2 ^ (w * j) % 2 ^ w = l.getD j 0 % 2 ^ w
  | [], j => by simp [joinNat]
  | x :: l, 0 => by
    show (x % 2 ^ w + 2 ^ w * joinNat w l) / 2 ^ (w * 0) % 2 ^ w = _
    simp
  | x :: l, j + 1 => by
    show (x % 2 ^ w + 2 ^ w * joinNat w l) / 2 ^ (w * (j + 1)) % 2 ^ w = _
    rw [Nat.mul_add, Nat.mul_one, Nat.add_comm (w * j), Nat.pow_add, ← Nat.div_div_eq_div_mul,
      Nat.add_mul_div_left _ _ (Nat.two_pow_pos w), Nat.div_eq_of_lt (Nat.mod_lt _ (Nat.two_pow_pos w)), Nat.zero_add,
      joinNat_getD w l j]
    rfl

/-- An element of a vector, as a number. -/
theorem elems_getD (w : Nat) (v : VReg) (j : Nat) (h : j < 8192 / w) : (elems w v).getD j 0 = (elem w v j).toNat := by
  unfold elems elem
  rw [splitNat_getD _ _ _ _ h, BitVec.extractLsb'_toNat, Nat.shiftRight_eq_div_pow]

theorem elems_length (w : Nat) (v : VReg) : (elems w v).length = 8192 / w := splitNat_length ..

/-- An element of a vector that is made of elements. -/
theorem elem_ofElems (w : Nat) (l : List Nat) (j : Nat) (h : j < 8192 / w) :
    elem w (ofElems w l) j = BitVec.ofNat w (l.getD j 0) := by
  have hw : 0 < w := Nat.pos_of_ne_zero fun e => by subst e; simp at h
  have hb : w * j + w ≤ 8192 := by
    have h1 : (j + 1) * w ≤ 8192 / w * w := Nat.mul_le_mul_right w h
    have h2 := Nat.div_mul_le_self 8192 w
    have h3 : (j + 1) * w = w * j + w := by ring
    omega
  apply BitVec.eq_of_toNat_eq
  unfold elem ofElems
  rw [BitVec.extractLsb'_toNat, BitVec.toNat_ofNat, BitVec.toNat_ofNat, Nat.shiftRight_eq_div_pow, ← joinNat_getD w l j]
  have e : 2 ^ 8192 = 2 ^ (w * j) * (2 ^ w * 2 ^ (8192 - (w * j + w))) := by
    rw [← Nat.pow_add, ← Nat.pow_add]; congr 1; omega
  rw [e, Nat.mod_mul_right_div_self, Nat.mod_mul_right_mod]

/-- A vector is known by its elements. -/
theorem elem_ext (w : Nat) (h : 8192 = 8192 / w * w) {a b : VReg} (e : ∀ j, j < 8192 / w → elem w a j = elem w b j) :
    a = b := by
  have hw : 0 < w := Nat.pos_of_ne_zero fun e => by subst e; simp at h
  apply BitVec.eq_of_getLsbD_eq
  intro i hi
  have hj : i / w < 8192 / w := by
    rw [Nat.div_lt_iff_lt_mul hw, ← h]; exact hi
  have := congrArg (fun x => x.getLsbD (i % w)) (e (i / w) hj)
  simp only [elem, BitVec.getLsbD_extractLsb'] at this
  have hm := Nat.mod_lt i hw
  have hs : w * (i / w) + i % w = i := Nat.div_add_mod i w
  rw [hs] at this
  simpa [hm] using this

theorem foldl_or_map (l : List (Nat × Flg)) (f : Flg) :
    l.foldl (fun acc x => acc ||| x.2) f = (l.map (·.2)).foldl (fun acc x => acc ||| x) f := by
  rw [List.foldl_map]

theorem list_eq_range {α : Type} (l : List α) (g : Nat → α) (n : Nat) (hl : l.length = n)
    (h : ∀ j, (hj : j < l.length) → l[j] = g j) : l = (List.range n).map g := by
  apply List.ext_getElem
  · simp [hl]
  · intro j h1 h2
    rw [h j h1]; simp

/-- A collected result is its elements and the union of their flags. -/
theorem vecOf_collect (w : Nat) (l : List (Nat × Flg)) (g : Nat → Nat × Flg) (hl : l.length = 8192 / w)
    (h : ∀ j, (hj : j < l.length) → l[j] = g j) :
    VecOf w (fun j => (BitVec.ofNat w (g j).1, (g j).2)) (collect w l).1 (collect w l).2 := by
  have e := list_eq_range l g _ hl h
  refine ⟨fun j hj => ?_, ?_⟩
  · unfold collect
    rw [elem_ofElems _ _ _ hj, e]
    simp [List.getD, hj]
  · unfold collect
    rw [e, List.foldl_map]

/-- The result of one operation on every element of a source. -/
theorem vecOf_map (w : Nat) (f : Nat → Nat × Flg) (a : VReg) :
    VecOf w (fun j => (BitVec.ofNat w (f (elem w a j).toNat).1, (f (elem w a j).toNat).2)) (mapElems w f a).1
      (mapElems w f a).2 := by
  refine vecOf_collect w _ (fun j => f (elem w a j).toNat) (by simp [elems_length]) ?_
  intro j hj
  have hj' : j < 8192 / w := by simpa [elems_length] using hj
  rw [List.getElem_map, ← elems_getD _ _ _ hj']
  simp [List.getD, elems_length, hj']

/-- The result of one operation on every pair of elements of two sources. -/
theorem vecOf_zip (w : Nat) (f : Nat → Nat → Nat × Flg) (a b : VReg) :
    VecOf w (fun j => (BitVec.ofNat w (f (elem w a j).toNat (elem w b j).toNat).1,
      (f (elem w a j).toNat (elem w b j).toNat).2)) (zipElems w f a b).1 (zipElems w f a b).2 := by
  refine vecOf_collect w _ (fun j => f (elem w a j).toNat (elem w b j).toNat) (by simp [elems_length]) ?_
  intro j hj
  have hj' : j < 8192 / w := by simpa [elems_length] using hj
  rw [List.getElem_zipWith, ← elems_getD _ _ _ hj', ← elems_getD _ _ _ hj']
  simp [List.getD, elems_length, hj']

/-- A vector result of the bundle in progress, with its flags. -/
theorem State.vecLand_gives (s : State) (lat : Nat) (d : Dst) (r : VReg × Flg) :
    s.Gives (s.vecLand lat d r) (withFlags lat s.vecSlot (.vector d r.1 s.rf.mask) r.2) := s.landF_gives ..

end Sys2Proof.Machine
end

