-- ==== Sys2Proof/Tests/Slice0.lean ====
section
/-! SUPPORT. Tests: words written out from the spec's encodings and what they decode to, refused words and ill-formed terms,
small results, and a witness for the hypotheses of each statement. -/


namespace Sys2Proof.Tests

open Sys2Proof Sys2Proof.Machine

set_option Elab.async false

/-! ### Words of each family, written out field by field from the spec's encodings (R80 to R88, R110, R115, R117, R124,
R155, R209, R220 to R248, R313, R337, R352): each pair is the lowest bit of a field and its value. -/

/-- A word, given by the lowest bit and the value of each of its fields. -/
def fields (l : List (Nat × Nat)) : Nat := l.foldl (fun w f => w + f.2 * 2 ^ f.1) 0

/-- The dependence fields of `tok=t4, dep=t1:t2, fold=b5` (R145, its example). -/
def exampleDeps : Deps := { fold := some 5, tp := 4, tc2 := 4, tc1 := 2, tc0 := 1 }

/-- Bits 63 to 32 of the same. -/
def depFields : List (Nat × Nat) := [(63, 1), (56, 5), (50, 4), (44, 4), (38, 2), (32, 1)]

theorem test_dep_word : fields depFields = 0x8510408100000000 := by decide +kernel

theorem test_decode_prefix : decodeTableWord 32 (fields [(20, 0x5A), (19, 1), (15, 9), (14, 1), (12, 2), (10, 1), (7, 5)])
    = some (.pfx { tag := 0x5A, tagEn := true, cls := 9, clsEn := true, flush := .on, sat := .wrap, rnd := some .rna }) := by
  decide +kernel

theorem test_decode_integer :
    decodeTableWord 32 (fields [(27, 6), (22, 9), (17, 18), (12, 5), (7, 13), (2, 1)])
      = some (.rot .z16 (.named 5) (.queue 2) (.named 9))
    ∧ decodeTableWord 32 (fields [(27, 0b0011), (31, 1), (22, 7), (17, 6), (12, 31), (7, 20), (2, 1)])
      = some (.sel .push (.queue 3) (.named 6) (.named 7))
    ∧ decodeTableWord 32 (fields [(31, 1), (22, 0x1FF), (17, 2), (12, 1), (7, 9), (2, 2)])
      = some (.cltImm true (.named 1) (.named 2) 0x1FF)
    ∧ decodeTableWord 64 (fields [(32, 0xDEADBEEF), (27, 11), (17, 3), (12, 4), (7, 0), (2, 3), (1, 1)])
      = some (.addLong .z64 (.named 4) (.named 3) 0xDEADBEEF) := by decide +kernel

theorem test_decode_memory :
    decodeTableWord 32 (fields [(27, 8), (22, 3), (17, 2), (12, 1), (7, 0), (2, 5)])
      = some (.ld .s32 (.named 1) (.named 2) (.named 3))
    ∧ decodeTableWord 64 (fields [(32, 0xFFFFFFF8), (27, 11), (23, 6), (17, 2), (12, 30), (7, 3), (2, 5), (1, 1)])
      = some (.stOffset .z64 6 (.queue 14) (.named 2) 0xFFFFFFF8)
    ∧ decodeTableWord 64 (fields [(48, 0x8000), (44, 15), (37, 7), (27, 10), (22, 6), (17, 5), (12, 4), (7, 7), (2, 6), (1, 1)])
      = some (.amoCas .s64 15 (.named 4) (.named 5) (.named 6) (.named 7) 0x8000) := by decide +kernel

theorem test_decode_control :
    decodeTableWord 32 (fields [(17, 0x7FFF), (12, 19), (7, 2), (2, 7)]) = some (.brnz (.queue 3) 0x7FFF)
    ∧ decodeTableWord 32 (fields [(20, 0x800), (19, 1), (14, 5), (12, 2), (7, 6), (2, 7)]) = some (.bcntLt .sx (.named 5) 0x800)
    ∧ decodeTableWord 32 (fields [(22, 9), (17, 3), (16, 1), (14, 2), (7, 11), (2, 7)]) = some (.loopSw 2 (.named 3) 9)
    ∧ decodeTableWord 32 (fields [(20, 1), (18, 2), (12, 33), (7, 14), (2, 7)]) = some (.btok .error 33 1)
    ∧ decodeTableWord 32 (fields [(16, 0xBEEF), (7, 2), (2, 8)]) = some (.trap 0xBEEF)
    ∧ decodeTableWord 32 (fields [(30, 2), (18, 63), (12, 1), (7, 0), (2, 9)]) = some (.waitTok (.two 1 63))
    ∧ decodeTableWord 32 (fields [(25, 127), (24, 1), (17, 8), (7, 4), (2, 9)]) = some (.foldSetArr 127 (.named 8)) := by
  decide +kernel

theorem test_decode_vector :
    decodeTableWord 64 (fields [(35, 2), (32, 4), (27, 4), (22, 3), (17, 2), (12, 1), (7, 9), (2, 10), (1, 1)])
      = some (.vdiv .bf16 (.named 1) (.named 2) (.named 3) (some (.rb, .bh)))
    ∧ decodeTableWord 32 (fields [(27, 1), (22, 31), (17, 16), (12, 31), (7, 12), (2, 11)])
      = some (.vmaxI .z8 .push (.queue 0) (.queue 15) none)
    ∧ decodeTableWord 32 (fields [(27, 7), (22, 3), (17, 2), (12, 1), (7, 4), (2, 12)])
      = some (.vcun .f32 (.named 1) (.named 2) (.named 3) none)
    ∧ decodeTableWord 64 (fields [(50, 1), (46, 7), (32, 6), (27, 3), (22, 7), (17, 2), (12, 1), (7, 0), (2, 13), (1, 1)])
      = some (.vcvt .f16 .f32 (.named 1) (.named 2) (some (.sn, 1)))
    ∧ decodeTableWord 32 (fields [(27, 12), (22, 5), (17, 12), (12, 1), (7, 0), (2, 14)])
      = some (.vlut (.named 1) 12 (.named 5) none)
    ∧ decodeTableWord 64 (fields [(60, 3), (51, 0x1FF), (50, 1), (17, 2), (12, 1), (7, 1), (2, 15), (1, 1)])
      = some (.vstImm (.named 1) (.named 2) { cls := 3, off9 := 0x1FF })
    ∧ decodeTableWord 64 (fields [(51, 1), (50, 1), (41, 6), (38, 1), (35, 5), (32, 3), (31, 1), (27, 9), (22, 4), (17, 2), (12, 1),
        (7, 3), (2, 16), (1, 1)])
      = some (.scanMini .z32 true (.named 1) (.named 2) (.named 4)
          (some { ma := .sw, mb := .b0, seg := some (.named 6, .bl), tie := true })) := by decide +kernel

theorem test_decode_routes :
    decodeTableWord 32 (fields [(27, 9), (22, 31), (17, 2), (12, 30), (7, 2), (2, 17)])
      = some (.rteSolve 30 .push (.named 2) (.named 9))
    ∧ decodeTableWord 64 (fields [(42, 0x8001), (34, 31), (10, 0xFFFFFF), (8, 2), (7, 1), (2, 31), (1, 1)])
      = some (.bundleRoute true 0x8001 (.pool 31 0xFFFFFF)) := by decide +kernel

theorem test_decode_engines :
    decodeTableWord 64 (fields (depFields ++ [(27, 31), (22, 2), (17, 3), (7, 1), (2, 18), (1, 1)]))
      = some (.cpPb (.queue 15) (.named 2) (.named 3) exampleDeps)
    ∧ decodeTableWord 64 (fields (depFields ++ [(28, 15), (23, 1), (18, 2), (13, 3), (12, 1), (7, 1), (2, 19), (1, 1)]))
      = some (.mmul 15 (.named 1) (.named 2) (.named 3) true exampleDeps)
    ∧ decodeTableWord 64 (fields (depFields ++ [(28, 4), (23, 1), (18, 2), (13, 3), (7, 3), (2, 20), (1, 1)]))
      = some (.mcdrn 4 (.named 1) (.named 2) (.named 3) exampleDeps)
    ∧ decodeTableWord 64 (fields (depFields ++ [(25, 127), (20, 9), (7, 2), (2, 21), (1, 1)]))
      = some (.slotShape 127 (.named 9) exampleDeps)
    ∧ decodeTableWord 64 (fields (depFields ++ [(28, 7), (23, 1), (18, 2), (13, 4), (7, 16), (2, 22), (1, 1)]))
      = some (.amoCasFar 7 (.named 1) (.named 2) (.named 4) exampleDeps)
    ∧ decodeTableWord 64 (fields (depFields ++ [(28, 7), (24, 11), (7, 2), (2, 23), (1, 1)]))
      = some (.pbar 7 11 exampleDeps)
    ∧ decodeTableWord 32 (fields [(22, 3), (17, 2), (12, 1), (2, 23)]) = some (.hops (.named 1) (.named 2) (.named 3)) := by
  decide +kernel

/-- Reserved encodings are refused: a type code of 13, destination 16, minor 29 of major 1, major 24, a shift by 64, an odd
expected value of a far `amo.cas`, and a route pool block of length 0. -/
theorem test_decode_refuses :
    decodeTableWord 32 (fields [(27, 13), (2, 1)]) = none ∧ decodeTableWord 32 (fields [(27, 10), (12, 16), (2, 1)]) = none
    ∧ decodeTableWord 32 (fields [(7, 29), (2, 1)]) = none ∧ decodeTableWord 32 (fields [(2, 24)]) = none
    ∧ decodeTableWord 32 (fields [(22, 64), (7, 5), (2, 2)]) = none
    ∧ decodeTableWord 64 (fields (depFields ++ [(13, 3), (7, 16), (2, 22), (1, 1)])) = none
    ∧ decodeTableWord 64 (fields [(8, 2), (2, 31), (1, 1)]) = none := by decide +kernel

/-! ### Ill-formed terms, one for each check of `Instr.wf` -/

theorem test_illFormed_types :
    Instr.wf (.add .f32 (.named 0) (.named 0) (.named 0)) = false ∧ Instr.wf (.neg .l2 (.named 0) (.named 0)) = false
    ∧ Instr.wf (.addLong .d8 (.named 0) (.named 0) 0) = false ∧ Instr.wf (.movh .s32 (.named 0) (.named 0) 0) = false
    ∧ Instr.wf (.ld .f16 (.named 0) (.named 0) (.named 0)) = false
    ∧ Instr.wf (.amoAdd .s16 0 (.named 0) (.named 0) (.named 0) 0) = false
    ∧ Instr.wf (.amoSadd .z32 0 (.named 0) (.named 0) (.named 0) 0) = false
    ∧ Instr.wf (.vaddF .d8 (.named 0) (.named 0) (.named 0) none) = false
    ∧ Instr.wf (.vfma .s32 0 (.named 0) (.named 0)) = false
    ∧ Instr.wf (.vfmaVw .s8 (.named 0) (.named 0) (.named 0) (.named 0) .none .none .none) = false
    ∧ Instr.wf (.vsqrt .z8 (.named 0) (.named 0) none) = false
    ∧ Instr.wf (.vaddI .f32 (.named 0) (.named 0) (.named 0) none) = false
    ∧ Instr.wf (.vabsI .s64 (.named 0) (.named 0) none) = false
    ∧ Instr.wf (.vand .s64 (.named 0) (.named 0) (.named 0) none) = false
    ∧ Instr.wf (.vbcast .z64 (.named 0) (.named 0) false) = false
    ∧ Instr.wf (.vceq .l2 (.named 0) (.named 0) (.named 0) none) = false
    ∧ Instr.wf (.vcun .s8 (.named 0) (.named 0) (.named 0) none) = false
    ∧ Instr.wf (.vquant .f16 (.named 0) (.named 0) (.named 0) none) = false
    ∧ Instr.wf (.vpack .s32 (.named 0) (.named 0) (.named 0) none) = false
    ∧ Instr.wf (.vevt .s64 (.named 0) (.named 0) (.named 0) none) = false
    ∧ Instr.wf (.scanAdd .f16 false (.named 0) (.named 0) none) = false
    ∧ Instr.wf (.scanMaxi .s16 false (.named 0) (.named 0) (.named 0) none) = false := by decide

theorem test_illFormed_values :
    Instr.wf (.bundleRoute false 0 (.bpc 1)) = false ∧ Instr.wf (.bundleRoute false 0 (.pool 0 3)) = false
    ∧ Instr.wf (.wrctl .wfSx (.named 0)) = false ∧ Instr.wf (.shlImm false (.named 0) (.named 0) 64) = false
    ∧ Instr.wf (.loop 0 (.named 0) 0) = false
    ∧ Instr.wf (.vcvt .f16 .f32 (.named 0) (.named 0) (some (.none, 2))) = false
    ∧ Instr.wf (.vcvt .l2 .f32 (.named 0) (.named 0) none) = false
    ∧ Instr.wf (.vunpk .s8 (.named 0) (.named 0) (some (.none, 2))) = false
    ∧ Instr.wf (.vunpk .f32 (.named 0) (.named 0) none) = false
    ∧ Instr.wf (.amoCasFar 0 (.named 0) (.named 0) (.named 1) { tp := 0, tc2 := 0, tc1 := 0, tc0 := 0, fold := none }) = false
    ∧ Instr.wf (.mcst 0 (.named 0) (.named 0) true { tp := 1, tc2 := 1, tc1 := 0, tc0 := 1, fold := none }) = false
    ∧ Instr.wf (.mcstSt 0 (.named 0) (.named 0) true { tp := 1, tc2 := 0, tc1 := 1, tc0 := 1, fold := none }) = false := by
  decide

/-! ### States for tests: die 0 with what a test gives it, context 0 running, and a bundle in progress -/

/-- Reset with nothing due and die 0 as given, in cycle 100. -/
def onDie (x : Die) : State :=
  { State.reset with cycle := 100, agenda := [], portsDone := true, dies := State.reset.dies.set 0 x }

/-- Die 0 with context 0 as given, which holds the width. -/
def dieWith (c : Ctx) : Die :=
  { inService := true, seq := { holder := some 0, inReset := false }
    ctxs := (Vector.replicate 4 ({} : Ctx)).set 0 c }

/-- A bundle at 0x1000 with the bytes given is in progress in context 0 of die 0. -/
def inBundle (c : Ctx) (buf : List Byte) : State :=
  { onDie (dieWith c) with iss := { active := true, p := 0x1000, len := 4, bundle := 7, buf := buf } }

/-- A task with s2 = 7, s3 = -1 and s4 = the most negative number. -/
def task : Ctx :=
  { st := .running, task := { ({} : RegFile) with s := #v[0, 0, 7, 0xFFFFFFFFFFFFFFFF, 0x8000000000000000, 0, 0, 0, 0, 0, 0, 0, 0, 0, 0, 0] } }

/-- The same in its handler. -/
def handler : Ctx := { task with priv := true, trapEnter := true, hnd := task.task }

/-- What the meaning of an instruction leaves, `s` where it leaves nothing. -/
def after (i : Instr) (s : State) : State :=
  match exec i s with
  | .next t => t
  | _ => s

/-- Whether an outcome is a next state. -/
def isNext : Host.Outcome State Fault Refusal → Bool
  | .next _ => true
  | _ => false

/-- The results that a context has in flight. -/
def flights (s : State) : List (Nat × Nat × Land) := (s.ctx 0 0).flight.map fun f => (f.due, f.slot, f.land)

/-! ### Encoding and the step -/

def addWord : Nat := fields [(27, 10), (22, 4), (17, 3), (12, 1), (7, 0), (2, 1), (0, 1)]

theorem test_witness_DecodeEncodeRoundTrip :
    Instr.wf (.add .s64 (.named 1) (.named 3) (.named 4)) = true
    ∧ encodeSyl (.add .s64 (.named 1) (.named 3) (.named 4)) true = some addWord := by decide +kernel

theorem test_witness_DecodedIsWellFormed :
    decodeSyl addWord = .ok (.add .s64 (.named 1) (.named 3) (.named 4)) := by decide +kernel

theorem test_witness_StepRunsDecoded :
    let s := inBundle task (leBytes 4 addWord)
    s.iss.active = true ∧ decodeBytes s.iss.buf = .ok (.add .s64 (.named 1) (.named 3) (.named 4), true, [])
    ∧ exec (.add .s64 (.named 1) (.named 3) (.named 4)) s = .next (after (.add .s64 (.named 1) (.named 3) (.named 4)) s) :=
  ⟨rfl, by decide +kernel, rfl⟩

theorem test_witness_StepTrapsUndecodable :
    ∃ e, decodeBytes (inBundle task (leBytes 4 (24 * 4))).iss.buf = .error e := ⟨_, rfl⟩

theorem test_witness_StepDue :
    let late : Sched := { due := 100, act := .bundleIssue, arg := {} }
    let first : Sched := { due := 99, act := .resultLanding, arg := {} }
    let s := { onDie {} with agenda := [late, first] }
    s.iss.active = false ∧ first.due ≤ s.cycle ∧ stepPhase first < stepPhase late ∧ s.agenda = [late] ++ first :: [] := by
  decide +kernel

theorem test_witness_FetchWordRuns : decodeTableWord 32 addWord = some (.add .s64 (.named 1) (.named 3) (.named 4)) := by
  decide +kernel

theorem test_witness_StepKeepsWf : State.reset.wf = true ∧ isNext (step State.reset) = true := by decide +kernel

/-! ### Scalar instructions; expected values by hand from R39, R40, R101 to R109 -/

/-- The largest signed number plus 1 wraps to the smallest and sets overflow (R39). -/
theorem test_add_wraps : flights (after (.addImm false (.named 5) (.queue 0) 1)
    (inBundle { task with task := { task.task with q := [0x7FFFFFFFFFFFFFFF] } } []))
    = [(101, 0, .scalar (.named 5) 0x8000000000000000), (101, 0, .flags fOverflow)] := by decide +kernel

/-- -1 divided by 7 truncates to 0, and the remainder takes the sign of the dividend (R40). -/
theorem test_div_truncates :
    flights (after (.div .s64 (.named 5) (.named 3) (.named 2)) (inBundle task [])) = [(112, 0, .scalar (.named 5) 0)]
    ∧ flights (after (.rem .s64 .push (.named 3) (.named 2)) (inBundle task []))
      = [(112, 0, .scalar .push 0xFFFFFFFFFFFFFFFF)] := by decide +kernel

/-- The smallest number divided by -1 (R40, R102). -/
theorem test_div_min : flights (after (.rem .s64 (.named 5) (.named 4) (.named 3)) (inBundle task []))
    = [(112, 0, .scalar (.named 5) 0), (112, 0, .flags fOverflow)] := by decide +kernel

/-- A 16-bit rotate by 17 is one by 1, and its pattern is extended without sign (R103). -/
theorem test_rot : flights (after (.rot .z16 (.named 5) (.named 3) (.named 2))
    (inBundle { task with task := { task.task with s := task.task.s.set 3 0x18001 |>.set 2 17 } } []))
    = [(101, 0, .scalar (.named 5) 0x0003)] := by decide +kernel

/-- `clt.z64` against imm9 -1 compares with all ones (R105, its example). -/
theorem test_clt_unsigned : flights (after (.cltImm true (.named 1) (.named 2) 0x1FF) (inBundle task []))
    = [(101, 0, .scalar (.named 1) 1)] := by decide +kernel

theorem test_witness_IntegerDivision :
    let s := inBundle task []
    Ty.isScalarInt .s64 = true ∧ s.intOf .s64 (.named 2) ≠ 0 ∧ s.intOf .s64 (.named 0) = 0
    ∧ s.intOf .s64 (.named 4) = tyMin .s64 ∧ s.intOf .s64 (.named 3) = -1 ∧ Ty.signed .s64 = true
    ∧ ¬ (s.intOf .s64 (.named 2) = tyMin .s64) := by decide +kernel

theorem test_witness_immediates : (63 : BitVec 9).toNat < 64 ∧ Ty.isScalarInt .z16 = true := by decide

theorem test_witness_ControlRegisters :
    (inBundle task []).cur.priv = false ∧ (inBundle handler []).cur.priv = true
    ∧ CtlReg.fmt ∈ [CtlReg.fmt, .flg, .wfVa, .wfVb, .wfSx, .lr] ∧ CtlReg.fmt ∉ [CtlReg.wfVa, .wfVb, .wfSx]
    ∧ CtlReg.wfSx ∈ [CtlReg.wfVa, .wfVb, .wfSx] ∧ CtlReg.rsStatus ∉ [CtlReg.fmt, .flg, .wfVa, .wfVb, .wfSx, .lr] := by
  decide +kernel

/-- ctx_mode reads tag_limit 31 after reset (R133); `wrctl` lands in the next cycle. -/
theorem test_control :
    flights (after (.rdctl (.named 1) .ctxMode) (inBundle handler [])) = [(101, 0, .scalar (.named 1) 0x1F00)]
    ∧ flights (after (.wrctl .lr (.named 2)) (inBundle task [])) = [(101, 0, .ctl .lr 7)]
    ∧ ((after (.rdctl (.named 1) .trapVec) (inBundle task [])).ctx 0 0).trapCause.extractLsb' 0 8 = 1 := by decide +kernel

/-- A line of the instruction cache at 0x1000 whose byte k is k. -/
def poolDie : Die :=
  { dieWith task with seq := { (dieWith task).seq with icache := [{ root := 0, line := 64, bytes := (List.range 64).map (BitVec.ofNat 8) }] } }

theorem test_witness_LiteralLoad :
    let s := { onDie poolDie with iss := { active := true, p := 0x1004, len := 4 } }
    (s.die s.iss.die).icBytes (s.ctxRoot s.iss.die s.iss.ctx) ((s.iss.p &&& ~~~7) + 8 * (7 : BitVec 15).signExtend 64) 8
      = some [56, 57, 58, 59, 60, 61, 62, 63]
    ∧ flights (after (.lit (.named 1) 7) s) = [(104, 2, .scalar (.named 1) 0x3F3E3D3C3B3A3938)] := by decide +kernel

/-- A store of s3 at window offset 7 - 1 goes on its way to commit six cycles on (R111). -/
theorem test_store : ((after (.st .z16 (.named 3) (.named 2) (.named 3)) (inBundle task [])).die 0).accs.map
    (fun a => (a.due, a.ord, a.cls, a.kind)) = [(106, .scalarWrite, 0, .store 2 6 0xFFFFFFFFFFFFFFFF)] := by decide +kernel

/-! ### Branches, loops and waits (R117 to R122, R155) -/

theorem test_branch :
    (after (.brnz (.named 2) 0x7FFF) (inBundle task [])).iss.target = some 0xFFC
    ∧ (after (.brz (.named 2) 0x7FFF) (inBundle task [])).iss.target = none
    ∧ (after (.jmp (.named 2)) (inBundle task [])).iss.target = some 4 := by decide +kernel

theorem test_witness_Branches :
    ((0 : Fin 8).val + 1 = (inBundle task []).rf.depth) ∧ (inBundle task []).src (.named 0) = 0
    ∧ (inBundle task []).src (.named 2) ≠ 0 ∧ (inBundle task []).rf.masks[(0 : Fin 8)] ≠ 0 := by decide +kernel

theorem test_witness_HardwareLoops :
    (inBundle task []).iss.len < 4 * (2 : BitVec 10).toNat ∧ 4 * (1 : BitVec 10).toNat ≤ (inBundle task []).iss.len
    ∧ ((inBundle task []).src (.named 0)).setWidth 32 = (0 : BitVec 32)
    ∧ ((inBundle task []).src (.named 2)).setWidth 32 ≠ (0 : BitVec 32) := by decide +kernel

/-- Two armed levels end at the bundle: the inner one has run out, the outer one goes round (R122). -/
def twoLoops : Vector LoopLvl 4 :=
  #v[{}, { start := 0x800, stop := 0x1004, count := 2, armed := true }, {}, { start := 0xF00, stop := 0x1004, count := 1, armed := true }]

theorem test_witness_NextPc :
    let i : Issue := { p := 0x1000, len := 4 }
    (twoLoops[(1 : Fin 4)].armed = true ∧ twoLoops[(1 : Fin 4)].stop = i.p + BitVec.ofNat 64 i.len
      ∧ 1 < twoLoops[(1 : Fin 4)].count.toNat ∧ twoLoops[(3 : Fin 4)].count.toNat ≤ 1)
    ∧ (nextPc i twoLoops).1 = 0x800 ∧ ((nextPc i twoLoops).2.1[(3 : Fin 4)]).armed = false
    ∧ ((nextPc i twoLoops).2.1[(1 : Fin 4)]).count = 1
    ∧ (nextPc { i with target := some 0x40 } twoLoops).1 = 0x40
    ∧ (nextPc { i with loopClr := some 0xF } twoLoops).1 = 0x1004 := by decide +kernel

theorem test_witness_WaitConditions :
    let s := inBundle { task with tok := (Vector.replicate 64 TokState.free).set 5 .pending } []
    (s.ctx 0 0).tok[(5 : TokId)] = .pending ∧ ((s.die 0).folds[(3 : FoldId)]).err = false
    ∧ s.waitIs 0 0 (.tokens [5]) = .no ∧ s.waitIs 0 0 (.tokens [6]) = .met := by decide +kernel

/-! ### System instructions and traps (R124 to R135) -/

theorem test_witness_SystemInstructions :
    (∀ k < 5, (inBundle task []).rf.flg.getLsbD k = false ∨ (inBundle task []).rf.flg.getLsbD (8 + k) = false)
    ∧ (let s := inBundle { task with task := { task.task with flg := 0x101 } } []
       s.rf.flg.getLsbD 0 = true ∧ s.rf.flg.getLsbD (8 + 0) = true)
    ∧ (inBundle task []).cur.priv = false ∧ (inBundle handler []).cur.priv = true := by decide +kernel

/-- `tfence` with an enabled sticky flag takes the arithmetic trap, cause 5, before its bundle (R124, R126). -/
theorem test_tfence :
    let s := { onDie (dieWith { task with trapVec := 0x2003, task := { task.task with flg := 0x1F08 } }) with
               iss := { active := true, p := 0x1000, len := 4 } }
    let c := (after .tfence s).ctx 0 0
    c.priv = true ∧ c.hnd.pc = 0x2000 ∧ c.trapAddr = 0x1000 ∧ c.trapInfo = 8 ∧ c.trapCause = 5 := by decide +kernel

theorem test_witness_PrivilegedInstructions :
    let s := inBundle handler []
    s.cur.priv = true ∧ (s.src (.named 0)).extractLsb' 3 7 = 0 ∧ (s.src (.named 3)).extractLsb' 3 7 ≠ 0
    ∧ s.cur.trapEnter = true ∧ (inBundle { handler with trapEnter := false } []).cur.trapEnter = false := by decide +kernel

theorem test_witness_TakingATrap :
    let c := { task with trapVec := (0x2000 : Word) }
    ((inBundle c []).ctx 0 0).priv = false ∧ 4 ≤ ((inBundle c []).ctx 0 0).trapVec.toNat
    ∧ (inBundle c []).iss.active = true := by decide +kernel

theorem test_witness_LostByTrap :
    ((inBundle task []).ctx 0 0).priv = false ∧ ((inBundle task []).ctx 0 0).trapVec.toNat < 4
    ∧ ((inBundle handler []).ctx 0 0).priv = true := by decide +kernel

theorem test_witness_ReturnFromTrap :
    let s := inBundle { handler with taskEmpty := false, trapResume := 0x1237 } []
    (s.ctx 0 0).taskEmpty = false ∧ ((s.returnTrap 0 0 100).ctx 0 0).task.pc = 0x1234 := by decide +kernel

/-! ### Vector instructions (R216 to R247); expected values by hand from the rules -/

/-- A vector whose first lanes are as listed, the rest 0. -/
def lanes4 (l : List Nat) : VReg := BitVec.ofNat 8192 (l.foldr (fun x w => x + 2 ^ 32 * w) 0)

/-- A task with v1 = 1.0, 2.0, NaN, 4 and v2 = 0.5, 2.0, 1.0, 4 in its first lanes. -/
def vtask : Ctx :=
  { task with task := { task.task with v := ((Vector.replicate 16 (0 : VReg)).set 1
      (lanes4 [0x3F800000, 0x40000000, 0x7FC00000, 4])).set 2 (lanes4 [0x3F000000, 0x40000000, 0x3F800000, 4]) } }

/-- The first four lanes of the vector that an instruction puts in flight, with its cycle. -/
def vecOut (i : Instr) (c : Ctx) : List (Nat × List Nat) :=
  (flights (after i (inBundle c []))).filterMap fun f => match f.2.2 with
    | .vector _ v _ => some (f.1, (List.range 4).map fun k => (elem 32 v k).toNat)
    | _ => none

theorem test_vadd : vecOut (.vaddF .f32 (.named 3) (.named 1) (.named 2) none) vtask
    = [(104, [0x3FC00000, 0x40800000, 0x7FC00000, 8])] := by decide +kernel

theorem test_vmul_int : vecOut (.vmulI .s16 (.named 3) (.named 2) (.named 2) none)
    { vtask with task := { vtask.task with v := vtask.task.v.set 2 (lanes4 [0x00030002, 0xFFFF0100]) } }
    = [(102, [0x00090004, 0x00010000, 0, 0])] := by decide +kernel

/-- A pair with a NaN is unordered: only `vcne` and `vcun` hold of it (R224); the wide flag set follows (R219). -/
theorem test_vcompare :
    vecOut (.vcne .f32 (.named 3) (.named 1) (.named 2) none) vtask = [(102, [0xFFFFFFFF, 0, 0xFFFFFFFF, 0])]
    ∧ vecOut (.vcle .f32 (.named 3) (.named 1) (.named 2) none) vtask = [(102, [0, 0xFFFFFFFF, 0, 0xFFFFFFFF])]
    ∧ (103, 3, Land.wide .va 2) ∈ flights (after (.vcne .f32 (.named 3) (.named 1) (.named 2) none) (inBundle vtask [])) := by
  decide +kernel

/-- The modifiers swap the halves of a and take byte 0 of b (R79). -/
theorem test_modifiers : vecOut (.vor .s32 (.named 3) (.named 1) (.named 2) (some (.sw, .b0)))
    { vtask with task := { vtask.task with v := (vtask.task.v.set 1 (lanes4 [0x12340000])).set 2 (lanes4 [0x99000042]) } }
    = [(102, [0x42421234 ||| 0x42424242, 0, 0, 0])] := by decide +kernel

theorem test_witness_vector_types :
    Ty.isFloat .bf16 = true ∧ Ty.isVecInt .z32 = true ∧ Ty.isUnordered .d8 = true ∧ Ty.isCode0to9 .s8 = true
    ∧ (0 : Nat) < max (Ty.width .f16) (Ty.width .f32) / min (Ty.width .f16) (Ty.width .f32)
    ∧ Ty.width .f16 < Ty.width .f32 ∧ Ty.isPack .z8 = true ∧ Ty.isQuant .z8 = true := by decide

theorem test_witness_MaskStackIssue :
    let at_ (k : Nat) : State := inBundle { task with task := { task.task with depthIssue := k } } []
    8 ≤ (at_ 8).rf.depthIssue ∧ (at_ 7).rf.depthIssue < 8 ∧ (at_ 1).rf.depthIssue ≤ 1 ∧ 1 < (at_ 2).rf.depthIssue := by
  decide +kernel

/-- `vpack` keeps the low halves of a's elements and then of b's; a signed `vunpk` extends the sign (R230). -/
theorem test_pack : vecOut (.vpack .s16 (.named 3) (.named 1) (.named 2) none)
    { vtask with task := { vtask.task with v := vtask.task.v.set 1 (lanes4 [0xAAAA0001, 0xAAAA0002, 3, 4]) } }
    = [(104, [0x00020001, 0x00040003, 0, 0])]
    ∧ vecOut (.vunpk .s16 (.named 3) (.named 1) none)
      { vtask with task := { vtask.task with v := vtask.task.v.set 1 (lanes4 [0x7FFF8000]) } }
    = [(104, [0xFFFF8000, 0x00007FFF, 0, 0])] := by decide +kernel

/-- A binary32 to binary16 conversion of 1.0 and 2.0 (R47); the subnormal in lane 3 sets flags. -/
theorem test_convert : (flights (after (.vcvt .f16 .f32 (.named 3) (.named 1) none) (inBundle vtask []))).map (fun f =>
    match f.2.2 with
    | .part _ v _ take => [(elem 16 v 0).toNat, (elem 16 v 1).toNat, (take.getLsbD 4095).toNat, (take.getLsbD 4096).toNat]
    | _ => []) = [[0x3C00, 0x4000, 1, 0], []] := by decide +kernel

/-- Two drivers resolve: the same gives the same, Z the other, else X (R238), in the codes 0, 1, X = 2 and Z = 3. -/
theorem test_witness_GateLogic : ((inBundle vtask []).die (inBundle vtask []).iss.die).truthBad = []
    ∧ vecOut (.vres (.named 3) (.named 1) (.named 2) none)
      { vtask with task := { vtask.task with v := (vtask.task.v.set 1 (lanes4 [0b00011110])).set 2 (lanes4 [0b11001010]) } }
    = [(102, [0b00101010, 0, 0, 0])] := by decide +kernel

/-- A sum scan and its reduction over the first lanes (R244, R245): 4 lanes, the mask all ones. -/
theorem test_scan : vecOut (.scanAdd .z32 false (.named 3) (.named 1) none)
    { vtask with task := { vtask.task with v := vtask.task.v.set 1 (lanes4 [1, 2, 3, 4]) } } = [(108, [1, 3, 6, 10])]
    ∧ vecOut (.compress (.named 3) (.named 1) none)
      { vtask with task := { vtask.task with v := vtask.task.v.set 1 (lanes4 [1, 2, 3, 4]),
                                             masks := vtask.task.masks.set 0 0b1010 } } = [(108, [2, 4, 0, 0])] := by
  decide +kernel

theorem test_witness_ScanOrderIsSequential :
    let op : ScanOp := fun x y => ((x.1 + y.1, x.2), 0)
    (∀ x y z, (op (op x y).1 z).1 = (op x (op y z).1).1) ∧ (List.replicate 256 1).length = 256
    ∧ (true :: List.replicate 255 false).length = 256 ∧ (true :: List.replicate 255 false).getD 0 false = true
    ∧ (∀ k, 0 < k → k ≤ 255 → (true :: List.replicate 255 false).getD k false = false) :=
  ⟨fun _ _ _ => by simp [Nat.add_assoc], List.length_replicate, congrArg (· + 1) List.length_replicate, rfl, fun k h _ => by
    cases k with
    | zero => exact absurd h (by decide)
    | succ k =>
      show (List.replicate 255 false).getD k false = false
      rw [List.getD_eq_getElem?_getD, List.getElem?_replicate]; split <;> rfl⟩

/-! ### Prefixes, routes, engine syllables and `hops` -/

/-- A prefix gives the next syllable's scalar instruction its saturation (R84). -/
theorem test_prefix : flights (after (.mulImm false (.named 5) (.named 4) 2)
    (let s := inBundle task []; { s with iss := { s.iss with pfx := some { sat := .saturate } } }))
    = [(103, 0, .scalar (.named 5) 0x8000000000000000), (103, 0, .flags fSaturated)] := by decide +kernel

theorem test_witness_PrefixesAndRoutes :
    let s := { onDie poolDie with iss := { active := true, p := 0x1000, len := 8 } }
    s.routeOf (.reg 3) = some 0 ∧ s.routeOf (.pool 1 0) = none ∧ s.blockAt 0x1000 none = none := by decide +kernel

/-- A die whose context 0 may name virtual die 5, which is die 17, and no other. -/
def tabled : Ctx := { task with vtab := (Vector.replicate 256 {}).set 5 { present := true, phys := 17 }
                                task := { task.task with s := task.task.s.set 8 (0x8 <<< 60 ||| 5 <<< 52) |>.set 9 5 |>.set 10 0x28 } }

theorem test_witness_EngineSyllables :
    let s := inBundle tabled []
    let names (x : Word) (v : Fin 256) : Prop := (x.extractLsb' 52 8).toNat = v.val
      ∧ ((x.extractLsb' 60 4 = 8 ∧ x.extractLsb' 27 21 = 0) ∨ (x.extractLsb' 60 4 = 12 ∧ x.extractLsb' 7 45 = 0))
    names (s.src (.named 8)) 5 ∧ s.cur.vtab[(5 : Fin 256)].present = true ∧ s.cur.vtab[(6 : Fin 256)].present = false
    ∧ (s.src (.named 10)).getLsbD 3 = true ∧ (s.src (.named 10)).getLsbD 5 = true ∧ (inBundle handler []).cur.priv = true
    ∧ names (0x8 <<< 60 ||| 6 <<< 52) 6 ∧ names (0xC <<< 60 ||| 6 <<< 52 ||| 0x7F) 6
    ∧ ¬ names (0xC <<< 60 ||| 6 <<< 52 ||| 0x80) 6 := by decide +kernel

theorem test_engine_syllable : ((after (.rsig 3 (.named 2) (.named 8) exampleDeps) (inBundle tabled [])).die 0).queues[(17 : Fin 19)].map
    (fun o => (o.cls.val, o.va.toNat, o.vd.toNat, o.tp.val, o.bind.map (·.phys.val)))
    = [(3, 0x8050000000000000, 7, 4, [17])] := by decide +kernel

/-- Die 0 stands at (0, 0) and die 17 at (2, 2): two hops (R333). -/
theorem test_witness_Hops :
    let s := inBundle { tabled with vtab := tabled.vtab.set 0 { present := true, phys := 0 } } []
    s.cur.vtab[(⟨(s.src (.named 9)).toNat % 256, Nat.mod_lt _ (by decide)⟩ : Fin 256)].present = true
    ∧ s.cur.vtab[(0 : Fin 256)].present = true ∧ s.cur.vtab[(7 : Fin 256)].present = false
    ∧ flights (after (.hops (.named 1) (.named 0) (.named 9)) s) = [(101, 0, .scalar (.named 1) 2)]
    ∧ ((after (.hops (.named 1) (.named 0) (.named 2)) s).ctx 0 0).trapInfo = 7 := by decide +kernel

/-! ### Landings and bank accesses -/

/-- A flight that lands now. -/
def flight (l : Land) : Flight := { due := 100, slot := 0, ord := 1, bundle := 7, hnd := false, land := l }

/-- Die 0 with flights in context 0, when a landing step is at hand. -/
def landing (l : List Flight) : State := { onDie (dieWith { task with flight := l }) with ev := { die := 0, ctx := 0 } }

theorem test_witness_ResultLanding :
    let s := landing [flight (.ctl .fmt 0x705), { flight (.scalar .push 1) with due := 101 }]
    ((s.ctx 0 0).flight.filter fun g => decide (g.due ≤ s.cycle) && g.land.isFlags == s.ev.flag)
      = [flight (.ctl .fmt 0x705)]
    ∧ 5 ≤ ((0x705 : Word).extractLsb' 0 3).toNat ∧ 5 ≤ ((0x705 : Word).extractLsb' 8 4).toNat
    ∧ ¬ 5 ≤ ((0x304 : Word).extractLsb' 0 3).toNat ∧ ¬ 5 ≤ ((0x304 : Word).extractLsb' 8 4).toNat
    ∧ (0x200 : Word).extractLsb' 8 4 = 2 ∧ (s.die 0).boot.featAcc.getLsbD 1 = false
    ∧ (s.ctx 0 0).cutOff 7 = false ∧ 1 ≤ (s.ctx 0 0).task.depth ∧ (s.ctx 0 0).task.depth < 8 ∧ (s.die 0).wf = true := by
  decide +kernel

/-- A push lands the AND of the entry in effect and its condition; a pop then takes it off (R226). -/
theorem test_mask_lands :
    let c := (after .resultLanding (landing [flight (.mpush 0b0110)])).ctx 0 0
    c.task.depth = 2 ∧ c.task.masks[(1 : Fin 8)] = 0b0110 ∧ c.task.mask = 0b0110 := by decide +kernel

theorem test_witness_LandingOrder :
    let f := flight (.scalar (.named 3) 1)
    let g := { flight (.scalar (.named 3) 2) with slot := 1 }
    let s := landing [g, f]
    ((s.ctx 0 0).flight.filter fun g => decide (g.due ≤ s.cycle) && g.land.isFlags == s.ev.flag) = [g, f]
    ∧ f.hnd = g.hnd ∧ f.slot < g.slot ∧ ((after .resultLanding s).ctx 0 0).task.s[(3 : Fin 16)] = 2
    ∧ ((after .resultLanding s).ctx 0 0).task.q = [2, 1] := by decide +kernel

/-- An access of context 0, with a window of 1 KiB at 0x400, when its step is at hand. -/
def accessing (k : AccKind) : State :=
  let a : Access := { id := 9, due := 100, ord := .read, ctx := 0, bundle := 7, hnd := false, slot := 2, cls := 0, tag := none
                      pc := 0, win := { base := 0x400 }, kind := k }
  { onDie { dieWith task with accs := [a], bank := [(0x400, 0x80), (0x7FF, 0x7F)] } with ev := { die := 0, id := 9 } }

theorem test_witness_BankAccessPerforms :
    let s := accessing (.load .s16 (.named 1) 0x3FF)
    (∃ a, (s.die 0).accs.find? (fun b => b.id == s.ev.id) = some a ∧ a.id = s.ev.id) ∧ (s.die 0).wf = true
    ∧ (s.die 0).bankBad = [] ∧ Ty.isScalarInt .s16 = true ∧ Ty.isAmo .z64 = true ∧ (s.ctx 0 0).cutOff 7 = false
    ∧ peerOf 0 0 = some 1 ∧ (2 : BitVec 16).getLsbD 1 = true ∧ (2 : BitVec 16).getLsbD 0 = false :=
  ⟨⟨_, rfl, rfl⟩, by decide +kernel⟩

/-- A load at hand that expects tag 5, where its tile's tag is 0, with context 0 as given. -/
def mistagged (c : Ctx) : State :=
  let s := accessing (.load .s16 (.named 1) 0x3FF)
  { s with dies := s.dies.set 0 { s.die 0 with accs := (s.die 0).accs.map (fun a => { a with tag := some 5 })
                                               ctxs := (s.die 0).ctxs.set 0 c } }

/-- In the handler the fault is only recorded; with a handler installed the task's load takes it (R126, R130). -/
theorem test_witness_BankAccessPerforms_tags :
    ((mistagged handler).die 0).tagAt 0x7FF ≠ 5
    ∧ ((after .bankAccessPerform (mistagged handler)).ctx 0 0).trapCause = 0x2000000
    ∧ (let c := (after .bankAccessPerform (mistagged { task with trapVec := 0x2000 })).ctx 0 0
       c.priv = true ∧ c.trapCause = 8 ∧ c.trapInfo = 0x7FF00000005) := by decide +kernel

/-- A load that wraps at the window's end (R30, R111) takes its second byte from the window's start, and extends its sign; a
store wraps so too; an atomic add gives the old word and leaves the sum. -/
theorem test_bank_accesses :
    flights (after .bankAccessPerform (accessing (.load .s16 (.named 1) 0x3FF)))
      = [(101, 2, .scalar (.named 1) 0xFFFFFFFFFFFF807F)]
    ∧ ((after .bankAccessPerform (accessing (.store 2 0x7FF 0xABCD))).die 0).bank = [(0x400, 0xAB), (0x7FF, 0xCD)]
    ∧ flights (after .bankAccessPerform (accessing (.amo .add .z32 (.named 1) 2 0x90 0 {})))
      = [(102, 2, .scalar (.named 1) 0x80)]
    ∧ ((after .bankAccessPerform (accessing (.amo .add .z32 (.named 1) 2 0x90 0 {}))).die 0).bank
      = [(0x400, 0x10), (0x401, 0x01), (0x7FF, 0x7F)] := by decide +kernel

/-! ### Steps of the sequencer, of launches and of register spaces -/

/-- A state in which a step at hand acts on what `e` gives. -/
def at_ (s : State) (e : EvArg) : State := { s with ev := e }

/-- Die 0 with the bytes given cached at 0x1000, where its running task is. -/
def codeDie (c : Ctx) (code : List Byte) : Die :=
  { dieWith { c with task := { c.task with pc := 0x1000 } } with
    seq := { holder := some 0, inReset := false
             icache := [{ root := 0, line := 64, bytes := (code ++ List.replicate 64 0).take 64 }] } }

/-- What the statement on bundle issue asks, with the value of the engine hold. -/
def issues (s : State) (held : Bool) : Bool :=
  let x := s.die 0
  let k := s.ctx 0 0
  match gather x (s.ctxRoot 0 0) 10 k.rf.pc [] with
  | .ok rs => match decodeBundle x k rs with
    | .ok is => (rs.findSome? (poolMiss x (s.ctxRoot 0 0) k.rf.pc)).isNone && x.regBad.isEmpty
        && (s.badBlock 0 0 k.rf.pc rs).isNone && (preTrap k is).isNone && !k.tagWait && engineHeld x k is == held
        && k.st == .running && k.waits.isEmpty && k.act.isNone && decide (k.earliest ≤ s.cycle) && !x.seq.stall
    | .error _ => false
  | .miss _ => false

theorem test_witness_SequencerSteps_issue :
    issues (onDie (codeDie task (leBytes 4 0x21))) false = true
    ∧ issues (onDie (codeDie { task with tok := (Vector.replicate 64 TokState.free).set 4 .pending }
        (leBytes 8 (fields (depFields ++ [(7, 4), (2, 18), (1, 1), (0, 1)]))))) true = true := by decide +kernel

theorem test_witness_SequencerSteps_waits :
    let s := onDie (dieWith { task with st := .blocked, waits := [.tokens [3]] })
    let e := onDie (dieWith { task with st := .blocked, waits := [.tokens [3]], tok := (Vector.replicate 64 TokState.free).set 3 .error })
    (s.ctx 0 0).st = .blocked ∧ s.waitsIs 0 0 = .met ∧ (∃ info, e.waitsIs 0 0 = .error info) ∧ (e.die 0).regBad = [] :=
  ⟨by decide +kernel, by decide +kernel, ⟨_, rfl⟩, by decide +kernel⟩

theorem test_witness_SequencerSteps_quantum :
    let s := onDie { dieWith { task with waits := [.yield], quantum := 4096 } with
      ctxs := #v[{ task with waits := [.yield], quantum := 4096 }, {}, { task with st := .ready }, {}] }
    let x := s.die 0
    x.seq.holder = some 0 ∧ x.seq.last = 0 ∧ 0 < s.cycle ∧ (s.ctx 0 0).st = .running ∧ (s.ctx 0 0).waits ≠ []
    ∧ (∀ w ∈ (s.ctx 0 0).waits, w ≠ .ret) ∧ x.seq.quantum ≤ (s.ctx 0 0).quantum ∧ s.waitsIs 0 0 = .met
    ∧ (2 : CtxId) ≠ 0 ∧ (s.ctx 0 2).st = .ready
    ∧ ((after .quantumExpiry s).die 0).seq.holder = some 2 := by decide +kernel

/-- A `ld` at window offset 0 that expects tag 5, where the tile's tag is 9, has waited since cycle 20. -/
def tagWaits : State :=
  at_ (onDie { codeDie { task with st := .blocked, tagWait := true, waits := [.tags 20], trapVec := 0x2000 }
      (leBytes 4 (fields [(20, 5), (19, 1)]) ++ leBytes 4 (fields [(27, 10), (22, 0), (17, 0), (12, 1), (2, 5), (0, 1)])) with
    tags := [(0, 9)] }) { seq := 20 }

theorem test_witness_SequencerSteps_order :
    let s := onDie { dieWith {} with seq := { holder := none, last := 2, inReset := false }
                                     ctxs := #v[{ task with st := .ready }, { task with st := .ready }, {}, {}] }
    let x := s.die 0
    x.seq.holder = none ∧ x.seq.stall = false ∧ (s.ctx 0 2).st ≠ .ready ∧ ((x.seq.last + 1, x.seq.last + 2) = ((3, 0) : CtxId × CtxId))
    ∧ [x.seq.last + 1, x.seq.last + 2, x.seq.last + 3].find? (fun m => (s.ctx 0 m).st == .ready) = some 0
    ∧ (s.ctx 0 0).waits = [] ∧ (s.ctx 0 0).act = none ∧ (s.ctx 0 0).pendTrap = none
    ∧ ((after .bundleIssue s).die 0).seq.holder = some 0 := by decide +kernel

theorem test_witness_SequencerSteps_tags :
    Wait.tags 20 ∈ (tagWaits.ctx 0 0).waits
    ∧ (match gather (tagWaits.die 0) (tagWaits.ctxRoot 0 0) 10 (tagWaits.ctx 0 0).rf.pc [] with
      | .ok rs => match decodeBundle (tagWaits.die 0) (tagWaits.ctx 0 0) rs with
        | .ok is => tagMiss (tagWaits.die 0) (tagWaits.ctx 0 0) (readFar is) is
        | .error _ => none
      | .miss _ => none) = some (0, false, 9, 5)
    ∧ (let c := (after .tagWaitLimit tagWaits).ctx 0 0
       c.trapCause = 8 ∧ c.trapInfo = 0x10905 ∧ c.trapAddr = 0x1000) := by decide +kernel

theorem test_witness_SequencerSteps_end :
    let s := onDie (dieWith { task with st := .ending, ending := .halt })
    (s.ctx 0 0).st = .ending ∧ (s.ctx 0 0).ending = .halt ∧ s.busyCtx 0 0 = false
    ∧ ((after .taskEnd s).ctx 0 0).st = .free := by decide +kernel

/-- A launch of one task on die 0: its code at 0x4000, a window of 1 KiB, its register space at bank address 0x100000 and its
handler's at 0x120000. -/
def launch : PendLaunch :=
  { queue := 3, serial := 8, ringOff := 0, pkt := 1, n := 5, term := 2, ready := 90
    words := [0, 0x4000, 0x2 <<< 32, 0x400 ||| 8 <<< 48, 0x100000, 0x120000, 0, 0x2000, 1, 2, 3, 4, 5, 6, 7, 8] }

/-- Die 0 with no task and the launch waiting. -/
def launchState : State := at_ (onDie { seq := { inReset := false }, pendLaunch := [launch] }) { que := 3 }

theorem test_witness_TaskSpaces_launch :
    let x := launchState.die 0
    (x.pendLaunch.find? fun p => p.queue == launchState.ev.que) = some launch ∧ x.freeCtxOf = some 0
    ∧ launch.ready ≤ launchState.cycle ∧ (x.ctx 0).homeAfter ≤ launchState.cycle
    ∧ (∀ f ∈ x.launchFaults, f.queue ≠ launch.queue ∨ f.ctx ≠ 0) ∧ (x.termSeen[launchState.ev.que]).toNat ≤ launch.term.toNat
    ∧ (launchState.queue 3).elect = false ∧ launch.rs.getLsbD 0 = false ∧ launch.hs.getLsbD 0 = false ∧ x.bankBad = []
    ∧ launchState.spaceState 0 0 launch.rs = 0 ∧ launchState.spaceState 0 0 launch.hs < 2 ∧ (launch.word 6).extractLsb' 32 32 = 0
    ∧ x.wf = true := by decide +kernel

/-- The window that a launch asks for is granted, new; one of more than 64 MiB is not (R29). -/
theorem test_witness_TaskSpaces_grant :
    let x := launchState.die 0
    (x.grant 0x400 0 0 8 [(0x100000, 0xAD00), (0x120000, 0x8C00)]).map (·.2) = some true
    ∧ (x.grant (2 ^ 26 + 1) 0 0 8 []) = none
    ∧ ((after .taskLaunchStart launchState).ctx 0 0).task.pc = 0x4000
    ∧ ((after .taskLaunchStart launchState).ctx 0 0).task.s[(7 : Fin 16)] = 8
    ∧ ((after .taskLaunchStart launchState).ctx 0 0).tileX = 1
    ∧ ((after .taskLaunchStart launchState).ctx 0 0).tileY = 2 := by decide +kernel

/-- A context whose task activates the space at a base, or whose handler does. -/
def activating (hnd byCtxsw : Bool) (base : Word) : State :=
  onDie (dieWith { task with st := .blocked, act := some { hnd := hnd, base := base, byCtxsw := byCtxsw, due := 100 } })

theorem test_witness_TaskSpaces_activation :
    let s := activating false true 0x100000
    let c := s.ctx 0 0
    c.act = some { hnd := false, base := 0x100000, byCtxsw := true, due := s.cycle } ∧ (s.die 0).bankBad = []
    ∧ c.st = .blocked ∧ c.taskEmpty = true ∧ c.hndEmpty = true ∧ (s.homeReadLines 0 0 0x100000 0 2048).2 = false
    ∧ s.activationMoves 0 0 { hnd := false, base := 0x100000, byCtxsw := true, due := 100 } = false
    ∧ s.spaceState 0 0 0x100000 < 2 ∧ ((0x100000 : Word).getLsbD 0 = false) ∧ ((0x100001 : Word).getLsbD 0 = true)
    ∧ ((after .ctxswComplete s).ctx 0 0).rsStatus = 3
    ∧ ((after .spillRefillComplete (activating true false 0x100000)).ctx 0 0).hndEmpty = false := by decide +kernel

/-- Die 0 holds the window of the space at 0x100000. -/
def held : State :=
  at_ (onDie { heldSpaces := [{ rs := 0x100000, win := {}, ctx := 0, queue := 0, serial := 0, ringOff := 0, pkt := 0
                                tileX := 0, tileY := 0, tileN := 0 }], bank := [(0x100028, 2)] }) { val := 0x100000 }

theorem test_witness_TaskSpaces_release :
    ((held.die 0).heldFor (spaceBase held.ev.val)).isSome = true ∧ ((onDie {}).die 0).heldFor (spaceBase 0x100000) = none
    ∧ (spaceBase held.ev.val).getLsbD 0 = false ∧ homeAddr (spaceBase held.ev.val) + 0x30 ≤ Config.foldBase
    ∧ (held.die 0).wf = true ∧ ((after .winRelWrite held).die 0).bankByte 0x100028 = 4 := by decide +kernel

/-- Context 0 in its idempotent region since bundle 5, with an operation of the region and one before it. -/
def cutting (c : Ctx) : State :=
  onDie { dieWith { c with idemBundle := 5 } with
    queues := (Vector.replicate 19 []).set 17 [{ id := 1, ctx := 0, bundle := 4, issued := 1, ins := .nop },
                                                { id := 2, ctx := 0, bundle := 5, issued := 2, ins := .nop }] }

theorem test_witness_TaskSpaces_cutBack :
    ((cutting task).ctx 0 0).st ≠ .free ∧ ((cutting task).ctx 0 0).st ≠ .ending ∧ ((cutting task).ctx 0 0).priv = false
    ∧ (((after .cutBack (cutting task)).die 0).queues[(17 : Fin 19)]).map (·.abort) = [false, true]
    ∧ ((cutting handler).ctx 0 0).priv = true ∧ (∀ w ∈ ((cutting handler).ctx 0 0).waits, w ≠ .ret)
    ∧ ((cutting { task with st := .ending }).ctx 0 0).st = .ending := by decide +kernel

theorem test_witness_TaskSpaces_save :
    let a : Activation := { hnd := false, base := 0x100000, byCtxsw := false, due := 0 }
    let s := cutting { task with st := .ending, ending := .cutBack, act := some a, rsTask := 0x100000 }
    (s.ctx 0 0).ending = .cutBack ∧ (s.ctx 0 0).act ≠ none ∧ (s.ctx 0 0).rsTask.getLsbD 0 = false
    ∧ homeAddr (s.ctx 0 0).rsTask + 0xAD00 ≤ Config.foldBase ∧ (s.die 0).wf = true ∧ s.saveMoves 0 0 = false := by
  decide +kernel

/-! ### Steps of the engines and of the streams -/

/-- Die 0 with an operation in queue q, when a step of it is at hand. -/
def operating (q : Fin 19) (o : Op) (e : EvArg) : State :=
  at_ (onDie { dieWith task with queues := (Vector.replicate 19 []).set q [o] }) { e with eng := q, id := o.id }

/-- A copy of 300 bytes between banks that runs, its first unit read and placed, with a fold and a stamp. -/
def copyOp : Op :=
  { id := 4, ctx := 0, bundle := 7, issued := 90, ins := .cpBb (.named 0) (.named 1) (.named 2) exampleDeps, major := 18
    vb := 300 ||| 1 <<< 40 ||| 0x77 <<< 32, tp := 4, fold := some 5, st := .running, start := 95, tiles := [2, 2, 3]
    units := [{ no := 0, len := 256, next := 0, full := true, placed := true }, { no := 1, len := 44, next := 0, since := [(0, 90)] }] }

theorem test_witness_EngineSteps_ops :
    let s := operating 0 { copyOp with st := .queued, units := [] } {}
    (s.ev.eng = 0 ∧ s.op 0 0 4 = some { copyOp with st := .queued, units := [] })
    ∧ Op.depError { copyOp with deps := [] } = false ∧ Op.depError { copyOp with deps := [.was .error] } = true
    ∧ copyOp.stopAt = none ∧ copyOp.st ≠ .ended ∧ copyOp.done = [] ∧ copyOp.progress = 256 * 0
    ∧ (copyOp.units.find? fun u => u.no == (operating 0 copyOp { unit := 0 }).ev.unit).isSome = true
    ∧ (copyOp.units.find? fun u => u.no == (operating 0 copyOp { unit := 1 }).ev.unit
        && u.since.any fun e => decide (e.2 + 2 ^ ({ copyOp with tagLimit := 2 } : Op).tagLimit.toNat ≤ 100)).isSome = true
    ∧ copyLen copyOp = 300 ∧ copyStamp copyOp = some 0x77 := by decide +kernel

/-- A unit's commit counts its bytes in the fold and the record; the end of the copy its token, and each tile once; an error
keeps the copy for `cp.rs` (R250, R151, R256, R255). -/
theorem test_copy_steps :
    let s := after .copyUnitCommit (operating 0 copyOp { unit := 0 })
    (s.op 0 0 4).map (·.progress) = some 256 ∧ (s.die 0).foldEvts = [(5, .bytes 256)]
    ∧ ((after .engineOpComplete (operating 0 copyOp {})).die 0).tokEvts = [(0, 4, .done)]
    ∧ ((after .engineOpComplete (operating 0 copyOp {})).die 0).stamps = [(1, 2, 0x77), (1, 3, 0x77)]
    ∧ (((after .engineOpError (operating 0 copyOp { code := 8 })).die 0).cpResume[(0 : CtxId)]).isSome = true
    ∧ (((after .engineOpError (operating 0 copyOp { code := 5 })).die 0).cpResume[(0 : CtxId)]).isSome = false := by
  decide +kernel

/-- An operation of array 0 on slot 0 with one row, one dimension and S8 elements, whose word has the bits given besides. -/
def arrayOp (i : Instr) (va : Word) : Op :=
  { id := 4, ctx := 0, bundle := 7, issued := 90, ins := i, major := 19, va := va, tp := 4, st := .running, act := .s8 }

/-- Die 0 with such an operation, its slot owned and holding 3 in its first element, weight 5 and an accumulator of 100. -/
def arrays (o : Op) (start : Nat) : State :=
  let s := operating 1 { o with start := start } {}
  let x := s.die 0
  { s with dies := s.dies.set 0 { x with
      slots := x.slots.set 0 { owner := some 0, bytes := [(0, 3)] }
      arrays := x.arrays.set 0 { live := { w := [(0, 5)] }, shadow := { w := [(0, 9)] }, acc := [(0, 100)] } } }

/-- A `mwld` takes the slot's element into the shadow weights, a `mmul` adds 3 · 5, a `mdrn` writes the accumulator, a `mcent`
adds 3 and counts it; a slot is claimed, and one that is not owned refuses an operation (R257 to R270). -/
theorem test_witness_EngineSteps_arrays :
    let r : Src := .named 0
    let wld := arrayOp (.mwld 0 r r r false exampleDeps) 0
    let mul := arrayOp (.mmul 0 r r r false exampleDeps) 0
    let drn := arrayOp (.mdrn 0 r r r exampleDeps) 0x10
    let cent := arrayOp (.mcent 0 r r r false exampleDeps) 0x10
    let run (o : Op) (k : Nat) : State := arrays o (100 - k)
    let arr (s : State) : Arr := (s.die 0).arrays[(0 : Fin 16)]
    let step (o : Op) (k : Nat) : Arr := arr ((run o k).stepCycle 0 1 { o with start := 100 - k })
    (∀ p ∈ [(wld, 9), (mul, 133), (drn, 5), (cent, 9)], (arrays p.1 0).rowsDue 0 1 p.1 1 = p.2)
    ∧ (arrays wld 0).op 0 1 4 = some wld ∧ ((arrays wld 0).die 0).wf = true ∧ wld.steps < arrRows .wld wld ∧ wordFar wld = false
    ∧ (step wld 9).shadow.w = [(0, 3)] ∧ (step wld 9).live.w = [(0, 5)]
    ∧ (step mul 100).acc = [(0, 100)]
    ∧ (arr ({ arrays mul 67 with cycle := 200 }.stepCycle 0 1 { mul with start := 67 })).acc = [(0, 115)]
    ∧ (step drn 5).acc = [] ∧ (step cent 9).cnt = [(0, 1)] ∧ usesSlot false .wld wld = true
    ∧ (arr (after .engineOpComplete (arrays { wld with steps := 1 } 0))).live.w = [(0, 9)]
    ∧ ((after .engineOpStart (arrays { arrayOp (.slotClaim 1 exampleDeps) 0 with st := .queued } 0)).die 0).slots[(1 : Fin 128)].owner = some 0
    ∧ (after .engineOpStart (arrays { wld with st := .queued, va := 1 } 0)).agenda.map (fun e => (e.due, e.act, e.arg.code))
      = [(100, .engineOpError, 3)]
    ∧ (after .engineOpStart (arrays { wld with st := .queued } 0)).agenda.map (fun e => (e.due, e.act)) = [(109, .engineOpComplete)] := by
  decide +kernel

/-- An `rsig` of context 0, bound to virtual die 5 on die 17. -/
def sigOp : Op :=
  { id := 4, ctx := 0, bundle := 7, issued := 90, ins := .rsig 0 (.named 2) (.named 8) exampleDeps, major := 22, minor := 4
    va := 0xC <<< 60 ||| 5 <<< 52 ||| 9, vd := 7, tp := 4, st := .running, bind := [{ vdie := 5, phys := 17, inc := 0 }] }

/-- An access of it. -/
def acc : RAcc :=
  { id := 8, src := 0, stream := .ctx 0 0, ord := 1, eng := 17, op := 4, unit := 0, bundle := 7, kind := .store
    far := 0x8 <<< 60 ||| 5 <<< 52, len := 8, data := [1, 2, 3, 4, 5, 6, 7, 8] }

/-- The operation and one access of it, when a step of the access is at hand. -/
def accessed (o : Op) (a : RAcc) (e : EvArg) : State :=
  let s := onDie { dieWith task with queues := (Vector.replicate 19 []).set 17 [o] }
  at_ { s with panel := { s.panel with raccs := [a] } } { e with id := a.id }

theorem test_witness_EngineSteps_send :
    let s := accessed { sigOp with ins := .rst 0 (.named 1) (.named 2) true exampleDeps, minor := 1 } acc {}
    s.acc s.ev.id = some acc ∧ (∃ v w off, farKind acc.far = some (.bank v w off)) ∧ (s.accOp acc).isSome = true
    ∧ isPut (.rst 0 (.named 1) (.named 2) true exampleDeps) = false
    ∧ Op.bound' sigOp 5 = some { vdie := 5, phys := 17, inc := 0 }
    ∧ (((s.ctx 0 (StreamKey.ctxOf acc.stream)).vtab)[Fin.ofNat 256 5]).lost = false ∧ acc.st = .waiting
    ∧ (s.die 0).mem.timeout ≠ 0 :=
  ⟨by decide +kernel, ⟨5, 0, 0, by decide +kernel⟩, by decide +kernel⟩

/-- A store to panel memory goes to the stack of its page, and one that leaves its page is split (R309, R320). -/
theorem test_witness_EngineSteps_panel :
    let e : Xlat := { root := 0x1001, page := 0, level := 3, phys := 3 <<< 36, r := true, w := true, x := false }
    let o : Op := { sigOp with ins := .rst 0 (.named 1) (.named 2) true exampleDeps, minor := 1 }
    let s (l : List Xlat) : State :=
      let s := accessed o { acc with far := 65532 } {}
      { s with fresh := 50, dies := s.dies.set 0 { s.die 0 with xlat := l, mem := { root := #v[0x1001, 0, 0, 0] } } }
    farKind (65532 : Word) = some .panel ∧ (s []).accOp acc = some o ∧ isPut o.ins = false
    ∧ ((s []).die 0).entry ((s []).streamRoot 0 acc.stream) 65532 .write = none ∧ ((s []).die 0).held acc.who = false
    ∧ ((s [e]).die 0).entry 0x1001 65532 .write = some e ∧ e.rest 65532 = 4 ∧ stackOf (e.phys' 65532) = 3
    ∧ (after .remoteAccessSend (s [e])).panel.raccs.map (fun a => (a.id, a.far.toNat, a.len, a.st == .sent))
      = [(8, 65532, 4, true), (50, 65536, 4, false)] := by decide +kernel

/-- The access stands at stack 3, first of its pair. -/
def atStack (a : RAcc) : RAcc := { a with st := .sent, dest := .stack 3, phys := 3 <<< 36, seq := 0 }

theorem test_witness_EngineSteps_station :
    let s := accessed sigOp (atStack acc) {}
    let a := atStack acc
    s.acc s.ev.id = some a ∧ a.st = .sent ∧ (s.station 3).fitted = true ∧ a.inc = (s.station 3).incarnation
    ∧ a.seq = (s.pair a).commit ∧ (s.pair a).refused ≤ a.heard ∧ (s.station 3).migrates a.phys a.len = false
    ∧ s.mem.wf = true ∧ (s.memBadAt a.phys a.len = false)
    ∧ ((s.setPair { s.pair a with refused := 1 }).pair a).refused = 1
    ∧ { s.station 3 with migActive := vset (s.station 3).migActive 0 true, migPage := vset (s.station 3).migPage 0 (3 <<< 20)
      : Station }.migrates a.phys a.len = true
    ∧ ({ s with memBad := [3 <<< 33] } : State).memBadAt a.phys a.len = true
    ∧ ({ a with seq := 1 } : RAcc).seq ≠ (s.pair a).commit
    ∧ ((after .remoteAccessCommit s).mem.read (3 <<< 36 + 7) = 8) := by decide +kernel

theorem test_witness_EngineSteps_die :
    let a := { acc with st := .sent, dest := .die 17, kind := .signal, far := sigOp.va, data := [5, 0, 0, 0] }
    let s := accessed sigOp a {}
    (s.die 17).inService = true ∧ a.inc = (s.die 17).incarnation ∧ a.seq = (s.pair a).commit
    ∧ farKind a.far = some (.fold 5 9) ∧ ({ a with inc := 1 } : RAcc).inc ≠ (s.die 17).incarnation
    ∧ ((after .remoteAccessCommit s).die 17).foldEvts = [(9, .add 5)] := by decide +kernel

theorem test_witness_EngineSteps_replies :
    let a := { atStack acc with st := .answered }
    let s := accessed sigOp a {}
    a.orphan = false ∧ a.st = .answered ∧ a.ansInc = a.inc ∧ a.ans = .ack ∧ s.op 0 17 a.op = some sigOp
    ∧ sigOp.st = .running ∧ sigOp.err = 0 ∧ sigOp.abort = false ∧ isRcp sigOp.ins = false
    ∧ (∀ b ∈ s.panel.raccs, b.src = a.src → b.op = a.op → b.id = a.id)
    ∧ ((after .remoteReplyArrival s).acc 8 = none)
    ∧ (((after .remoteReplyArrival (accessed sigOp { a with ans := .retry 2048 } {})).acc 8).map (·.resendAt) = some 2148)
    ∧ ((after .remoteReplyArrival (accessed sigOp { a with ans := .retry 9, orphan := true } {})).die 0).mem.refusals = 1 := by
  decide +kernel

theorem test_witness_EngineSteps_timeout :
    let a := { atStack acc with sentAt := 60 }
    let s := accessed sigOp a { seq := 60 }
    a.isOut = true ∧ a.sentAt = s.ev.seq ∧ a.dest = .stack 3 ∧ (∀ b ∈ s.panel.raccs, a.covers b = true → b.eng = 17)
    ∧ ((after .remoteTimeout s).die 0).mem.stackLost = 8 ∧ ({ a with orphan := true } : RAcc).isOut = false := by
  decide +kernel

/-! ### Steps of translation, fills and links -/

/-- Tables at 0x1000 in stack 0: one page of 1 GiB at address 0, readable and writable; the eighth byte of its leaf as given. -/
def tables (top : Byte) : Memory :=
  [(0x1000, 0x01), (0x1001, 0x20), (0x2000, 0x0F)] ++ (if top = 0 then [] else [(0x2007, top)])

/-- A walk of context 0's register space for the permission and address given. -/
def walking (top : Byte) (p : Perm) (va : Word) : State :=
  let w : Walk := { id := 6, root := 0x1001, va := va, perm := p, who := .regSpace 0 }
  at_ { onDie { dieWith task with walks := [w] } with mem := tables top } { id := 6 }

theorem test_witness_MemorySteps_walks :
    (((walking 0 .read 0x12345).die 0).walks.find? fun w => w.id == 6).isSome = true
    ∧ walkTable (walking 0 .write 0) 0x1001 0x12345 .write
      = .ok { root := 0x1001, page := 0, level := 1, phys := 0, r := true, w := true, x := false }
    ∧ walkTable (walking 0x80 .exec 0) 0x1001 0x12345 .exec = .migrating
    ∧ walkTable (walking 0 .exec 0) 0x1001 0x12345 .exec = .fault .permission 1
    ∧ walkTable (walking 0 .read 0) 0x1001 0x40000000 .read = .fault .notValid 1
    ∧ walkTable { walking 0 .read 0 with memBad := [0x400] } 0x1001 0 .read = .badEcc
    ∧ ((after .translationWalkComplete (walking 0 .exec 0x12345)).die 0).faults.length = 1 := by decide +kernel

/-- The walk of a refused access that finds no memory (log 61). -/
theorem test_witness_MemorySteps_resends :
    let a : RAcc := { acc with st := .resend }
    let s := walking 0 .read 0x40000000
    let t := { s with panel := { s.panel with raccs := [a] } }
    t.resends 0 a.who = true ∧ t.resends 0 (.regSpace 0) = false
    ∧ walkTable { s with stations := Vector.replicate 128 { fitted := false } } 0x1001 0 .read = .fault .noMemory 0 := by
  decide +kernel

theorem test_witness_MemorySteps_faults :
    let f (who : Requester) : FaultRec := { walk := { id := 6, root := 0, va := 0, perm := .read, who := who }, kind := .notValid, level := 0 }
    let s (who : Requester) : State := onDie { dieWith task with faults := [f who], fills := [{ id := 2, src := 0, dst := 0, len := 64, stamp := none, pages := [] }] }
    ((s (.regSpace 0)).die 0).faults = f (.regSpace 0) :: []
    ∧ (∀ c n, Requester.regSpace 0 ≠ .gone c n) ∧ (∀ k, Requester.regSpace 0 ≠ .fabric k)
    ∧ (∀ q n, Requester.regSpace 0 ≠ .array q n) ∧ (∃ h ∈ ((s (.fill 2)).die 0).fills, h.id = 2)
    ∧ ((after .mmuResolveFail (s (.regSpace 0))).ctx 0 0).rsFault = true
    ∧ (after .mmuResolveRefuse (s (.fabric (.entry 4)))).fabric.failed = [(.entry 4, 3)]
    ∧ ((after .mmuResolveFail (s (.fill 2))).die 0).mem.fillErrors = 1 :=
  ⟨by decide +kernel, nofun, nofun, nofun, ⟨_, List.mem_singleton.mpr rfl, rfl⟩, by decide +kernel⟩

/-- A calendar of one entry at bank address 0x40: a fill of 64 bytes from panel address 0 that starts at 90, or a refresh. -/
def calendar (refresh : Bool) : Die :=
  { dieWith task with
    mem := { calEnable := true, calCount := 1, calBase := 0x40 }
    bank := [(0x40, 90), (0x47, if refresh then 0xC0 else 0x80), (0x51, 0x10), (0x58, 64)] }

theorem test_witness_MemorySteps_fills :
    let s := onDie (calendar false)
    let x := s.die 0
    x.entryBad 0 = false ∧ farKind (x.calEntry 0).src = some .panel ∧ x.entryStart (x.calEntry 0) < s.cycle
    ∧ farKind (0x4 <<< 60) ≠ some .panel ∧ { calendar false with bankBad := [(8, .double)] }.entryBad 0 = true
    ∧ s.cycle < x.entryStart ((onDie (calendar true)).die 0 |>.calEntry 0) + 64
    ∧ ((after .fillBegin s).die 0).mem.slips = 1 ∧ ((after .fillBegin s).die 0).fills.length = 1
    ∧ (after .refreshWindowOpen s).agenda.map (fun e => (e.due, e.act)) = [(154, .refreshWindowClose)] := by decide +kernel

/-- A fill that has landed on tiles 1 and 2 stamps them. -/
theorem test_fill_complete :
    let f : Fill := { id := 2, src := 0, dst := 8000, len := 400, stamp := some 9, pages := [] }
    let s := at_ (onDie { dieWith task with fills := [f] }) { id := 2 }
    ((s.die 0).fills.find? fun f => f.id == 2) = some f
    ∧ ((after .fillComplete s).die 0).stamps = [(0, 1, 9), (0, 2, 9)] := by decide +kernel

theorem test_witness_MemorySteps_links :
    let e : Sched := { due := 120, act := .remoteReplyArrival, arg := {} }
    let s := { onDie {} with agenda := [e, { e with act := .taskEnd }] }
    s.agenda[0]? = some e ∧ isFlitArrival e.act = true ∧ isFlitArrival .taskEnd = false
    ∧ (after .stationParityDiscard s).agenda.map (·.act) = [.taskEnd]
    ∧ ((after .stationParityDiscard s).station 0).parity = 1
    ∧ (List.range 4).filter (fun k => s.sidePresent 0 k) ≠ []
    ∧ (List.range 4).filter (fun k => { s with dies := Vector.replicate 128 { inService := false } }.sidePresent 0 k) = [] := by
  decide +kernel

/-! ### Steps of the panel engine, the domain and the command queues -/

/-- Die 0 with a window of 1 KiB at bank address 0x400 for multicasts of job 3. -/
def mcastDie : Die :=
  { dieWith task with mwin := (Vector.replicate 16 {}).set 2 { valid := true, job := 3, base := 1 }, mcst := [] }

/-- A multicast of eight bytes to offset 0x10 of it. -/
def mcastMsg : McstMsg := { win := 2, off := 0x10, data := 0x0807060504030201, wide := true, land := 100, job := 3 }

theorem test_witness_PanelSteps_multicast :
    let s := at_ (onDie mcastDie) { mcst := mcastMsg }
    let w := (s.die 0).mwin[s.ev.mcst.win]
    (w.valid = true ∧ w.job = s.ev.mcst.job ∧ 1024 * w.base.toNat % 2 ^ w.size = 0)
    ∧ ¬ (w.job = ({ mcastMsg with job := 4 } : McstMsg).job)
    ∧ (let l := onDie { mcastDie with mcst := [{ msg := mcastMsg, next := 100 }] }
       (l.die 0).wf = true ∧ (l.die 0).bankBad = [] ∧ 1024 * w.base.toNat + (0x10 - 0x10 % 8) % 2 ^ w.size + 8 ≤ Config.foldBase
       ∧ ((after .mcstLanding l).die 0).bankByte 0x417 = 8)
    ∧ ((after .mcstArrival s).die 0).mwin[(2 : Fin 16)].syncLost = true := by decide +kernel

/-- A `pbar` of channel 5 that runs. -/
def pbarOp : Op :=
  { id := 4, ctx := 0, bundle := 7, issued := 90, ins := .pbar 0 5 exampleDeps, major := 23, minor := 2, tp := 4, st := .running }

/-- Channel 5 with an arrival of two at its root. -/
def counting (e : BitVec 32) : State :=
  let s := onDie { dieWith task with queues := (Vector.replicate 19 []).set 18 [pbarOp] }
  at_ { s with panel := { s.panel with chans := s.panel.chans.set 5 { valid := true, expect := e, inbox := [(99, 0, 4)] } } }
    { unit := 5, id := 4, val := 1 <<< 63 ||| 2 }

theorem test_witness_PanelSteps_barrier :
    let s := counting 2
    s.op 0 18 s.ev.id = some pbarOp ∧ pbarChan pbarOp.ins = some 5 ∧ pbarOp.st = .running ∧ pbarOp.steps = 0
    ∧ s.ev.unit = (5 : Fin 16).val ∧ (s.chan 5).inbox = [(99, 0, 4)] ∧ 99 ≤ s.cycle
    ∧ (s.chan 5).expect ≠ 0 ∧ ((s.chan 5).count + 1).toNat < (s.chan 5).expect.toNat
    ∧ ((counting 1).chan 5).expect.toNat ≤ (((counting 1).chan 5).count + 1).toNat ∧ ((counting 0).chan 5).expect = 0
    ∧ s.ev.val.getLsbD 63 = true ∧ ((after .pbarRootCount s).chan 5).count = 1
    ∧ ((after .pbarRootCount (counting 1)).chan 5).releases = 1 := by decide +kernel

theorem test_witness_PanelSteps_service :
    let s (v : Service) : State := at_ (onDie {}) { service := v }
    ((s (.dieIn 15 (some 9) 1)).ev.service = .dieIn 15 (some 9) 1) ∧ (∀ e ∈ (onDie {}).agenda, e.act ≠ .syncLock)
    ∧ (after .syncLock (onDie {})).panel.locked = true ∧ (∀ e ∈ (onDie {}).agenda, e.act = .dieReset → e.arg.flag = true)
    ∧ (onDie { inService := true, cycBase := 300 }).lockFrom = 300
    ∧ (after .syncLock (onDie { inService := true, cycBase := 300 })).agenda.map (·.due) = [300]
    ∧ (((after .serviceChange (s (.dieIn 15 (some 9) 1))).die 3).vtab[(9 : Fin 256)]).phys = 15
    ∧ ((after .serviceChange (s (.dieOut 4))).die 4).inService = false
    ∧ ((after .serviceChange (s (.stackOut 4))).station 4).fitted = false
    ∧ ((after .serviceChange (s (.draining 4 true))).die 4).draining = true := by decide +kernel

/-- Queue 2, led by die 0 whose cache has the page of its ring, with a packet at its head. -/
def queued (w : List Word) : State :=
  let s := onDie { dieWith task with
    vtab := (Vector.replicate 256 {}).set 0 { present := true }
    xlat := [{ root := 0x1001, page := 0, level := 1, phys := 0, r := true, w := true, x := false }] }
  at_ { s with
    mem := (List.range w.length).flatMap (fun k =>
      ((bytesOfWord (w.getD k 0)).zipIdx.map fun b => (8 * k + b.2, b.1)).filter fun e => e.2 != 0)
    panel := { s.panel with queues := s.panel.queues.set 2 { state := 1, stage := .parsing, tail := BitVec.ofNat 32 (8 * w.length), root := 0x1001 } } }
    { que := 2 }

/-- The queue as parsing leaves it, with the words of its packet. -/
def parsed (w : List Word) : State × Option (List Word) := ((queued w).modQueue 2 fun c => { c with stage := .idle }, some w)

def launchWords : List Word := [7 <<< 32 ||| 0x1001, 0x4000, 1 <<< 8 ||| 1 <<< 32, 0x400, 0x100000, 0x120000, 0, 0, 1, 2, 3, 4, 5, 6, 7, 8]

theorem test_witness_PanelSteps_packets :
    (queued launchWords).parse 2 = parsed launchWords
    ∧ (queued [0x402, 0x1000, 0x2000, 600]).parse 2 = parsed [0x402, 0x1000, 0x2000, 600]
    ∧ (queued [0x10303, 1 <<< 61 ||| 0x40, 5]).parse 2 = parsed [0x10303, 1 <<< 61 ||| 0x40, 5]
    ∧ (queued [0x304, 0x40, 9]).parse 2 = parsed [0x304, 0x40, 9]
    ∧ (queued [0x700000205, 0x3000]).parse 2 = parsed [0x700000205, 0x3000] := ⟨rfl, rfl, rfl, rfl, rfl⟩

theorem test_witness_PanelSteps_launch :
    let s := queued launchWords
    ((launchWords.headD 0).extractLsb' 0 8).toNat = 1 ∧ launchWords.length = 16 ∧ (s.queue 2).stop = false
    ∧ (s.queue 2).elect = false ∧ ((s.die (s.queue 2).leader).vtab[Fin.ofNat 256 0]).present = true
    ∧ ((s.die (s.queue 2).leader).vtab[Fin.ofNat 256 1]).present = false
    ∧ ((after .launchPacket s).die 0).pendLaunch.length = 1 ∧ ((after .launchPacket s).queue 2).head = 128 := by decide +kernel

/-- A COPY of the queue in progress, before and after its unit's bytes have come, and a SIGNAL that adds. -/
def working (w : QWork) : State :=
  let s := queued [0, 0, 0, 0, 0, 0, 0, 0, 5]
  at_ { s with panel := { s.panel with queues := s.panel.queues.set 2 { s.queue 2 with recs := [{ id := 9, serial := 7, ringOff := 0, work := w }] } } }
    { que := 2, flag := true }

theorem test_witness_PanelSteps_work :
    (∃ r, ((working (.copy 0x1000 0x2000 600 256 [1] false)).queue 2).copyRec = some r
      ∧ r.work = .copy 0x1000 0x2000 600 256 [1] false ∧ (working (.copy 0x1000 0x2000 600 256 [1] false)).copyMoves 2 r = false)
    ∧ ((working (.signal 0x40 3 true)).queue 2).firstWork = some (.signal 0x40 3 true) ∧ (working (.signal 0x40 3 true)).mem.wf = true
    ∧ (working (.signal 0x40 3 true)).queueTry 2 1 (((0x40 : Word).extractLsb' 0 48).setWidth 64) 8 .write
      = (working (.signal 0x40 3 true), .done [(0x40, 8)])
    ∧ (working (.signal 0x40 3 true)).memBadAt 0x40 8 = false
    ∧ (after .signalPacket (working (.signal 0x40 3 true))).readMem64 0x40 = 8 :=
  ⟨⟨_, rfl, rfl, by decide +kernel⟩, by decide +kernel, by decide +kernel, rfl, by decide +kernel⟩

/-- Queue 2 holds at a fence whose word, 5 at 0x40, is to equal v, and its packets in progress are none. -/
def fencing (v : Word) : State :=
  let s := queued [0, 0, 0, 0, 0, 0, 0, 0, 5]
  let c := { s.queue 2 with stage := .fencing, fence := { drain := true, entries := [(0x40, v)] } }
  { s with panel := { s.panel with queues := s.panel.queues.set 2 c } }

theorem test_witness_PanelSteps_fence :
    ((fencing 5).queue 2).stage = .fencing
    ∧ (fencing 5).queueWords 2 (((fencing 5).queue 2).fence.entries.map fun e => BitVec.ofNat 64 (bits e.1 3 45 * 8))
      = (fencing 5, .got [5])
    ∧ fenceHolds (bits 0x40 61 3) 5 5 = true ∧ fenceHolds (bits 0x40 61 3) 5 6 = false ∧ ((fencing 5).queue 2).recs = []
    ∧ ((after .fenceReread (fencing 5)).queue 2).stage = .idle ∧ ((after .fenceReread (fencing 6)).queue 2).stage = .fencing :=
  ⟨by decide +kernel, rfl, by decide +kernel⟩

theorem test_witness_PanelSteps_registers :
    let s := onDie {}
    (s.queue 0).reports = [] ∧ (s.queue 0).elect = false
    ∧ ((1 : Word).extractLsb' 0 3 = 1 ∧ s.panel.featLocked = false) ∧ (0x104 : Word).extractLsb' 0 3 ≠ 1
    ∧ (0x104 : Word).getLsbD 8 = true ∧ s.canLead 3 = false
    ∧ ({ s with dies := Vector.replicate 128 { seq := { inReset := false } } } : State).canLead 0 = true
    ∧ (∀ p : DieId, State.reset.canLead p = false) ∧ entryKind [4] ∉ [1, 2, 5]
    ∧ reportFits { (s.queue 0) with repSize := 12, rtail := 4096 - 64 } 1 = true
    ∧ reportFits { (s.queue 0) with repSize := 12, rtail := 4096 - 32 } 1 = false := by decide +kernel

/-! ### Steps of the dies' systems and of the fabric -/

/-- Die 0 with its boot state as given, with leaves of block 2 left. -/
def bootDie (b : BootRegs) : Die := { dieWith task with boot := b }

theorem test_witness_SystemSteps_boot :
    let s (b : BootRegs) (fl : Bool) : State := at_ (onDie (bootDie b)) { flag := fl }
    let b : BootRegs := { stage := 4, blocksUsed := 2, minFw := 3 }
    ((after .dieReset (s b false)).die 0).boot.stage = 1 ∧ ((after .dieReset (s b false)).die 0).boot.leaf = 2048
    ∧ ((after .dieReset (s b false)).die 0).boot.minFw = 3
    ∧ ({ b with stage := 1 } : BootRegs).stage.toNat = 0 + 1
    ∧ ((after .dieReset (s { b with stage := 1 } true)).die 0).boot.images = some []
    ∧ ((after .dieReset (s { b with stage := 1, images := some [] } true)).die 0).boot.cause = 1
    ∧ ((after .dieReset (s { b with stage := 3, images := some [] } true)).die 0).boot.stage = 4 := by decide +kernel

theorem test_witness_SystemSteps_image :
    (match (onDie (bootDie { stage := 1 })).imageSet 0 with
      | .bytes l => l.isEmpty
      | _ => false) = true := by decide +kernel

theorem test_witness_SystemSteps_versions :
    let s (v : Word) : State := at_ (onDie (bootDie { stage := 4, minFw := 3, fwSvn := 5, minUcode := 1, ucodeSvn := 2, featAcc := 0x61 })) { val := v }
    ((after .svnCommit (s 5)).die 0).boot.minFw = 5 ∧ ((after .svnCommit (s 6)).die 0).boot.minFw = 3
    ∧ ((after .svnCommit (s 0x8000000000000002)).die 0).boot.minUcode = 2
    ∧ (s 1).primary = some 0 ∧ (s 1).panel.featLocked = false
    ∧ ((after .featureLock (s 1)).die 7).boot.featAcc = 0x61
    ∧ ((after .featureLock (onDie (bootDie { stage := 4 }))).die 0).boot.featStatus = 0
    ∧ ((after .featureLock (at_ (onDie (bootDie { stage := 4 })) { val := 1 })).die 0).boot.featStatus = 2 := by decide +kernel

theorem test_witness_SystemSteps_power :
    let s := at_ (onDie (bootDie { stage := 4, leaf := 2048 }))
      { val := 0x5F000006E1, flag := true, nonce := 9, acc := { write := false, addr := 0x10, len := 8, data := [] } }
    (∀ e, ({ s with dies := Vector.replicate 128 (s.die 0) } : State).booting e = false) ∧ (s.die 0).boot.leaf % 1024 < 1022 ∧ s.primary = some 0
    ∧ s.primaryRuns = some 0 ∧ s.ev.mgmt = .attest ∧ (s.storeRead 0).isSome = true
    ∧ (at_ s { mgmt := .rsFec true }).ev.mgmt = .rsFec true ∧ (onDie {}).primaryRuns = none
    ∧ (after .attestationRequest (at_ s { mgmt := .image 2 [7] })).panel.flash = [0, 0, 7]
    ∧ 1760 < (s.ev.val.extractLsb' 0 16).toInt ∧ ¬ 1760 < (s.ev.val.extractLsb' 32 16).toInt
    ∧ ((after .thermalShutdown s).die 0).inService = false ∧ (after .thermalShutdown s).panel.notices = [.thermal 0]
    ∧ ((after .powerThrottle s).die 0).boot.temp = 0x5F ∧ ((after .powerThrottle s).die 0).seq.stall = true
    ∧ (s.die 0).coreRuns s.ev.acc.core = true ∧ ((after .stewardBankAccess s).die 0).stewards.length = 1
    ∧ (∀ k, k < 8 → s.physOk (0x10 + k) = true) ∧ s.mem.wf = true := by decide +kernel

theorem test_witness_SystemSteps_keys :
    let s := at_ (onDie (bootDie { stage := 4 })) { key := { job := 3, epoch := 1, kemCt := [], wrapped := [], sig := [] }, job := 3 }
    s.ev.flag = false ∧ s.primary = some 0 ∧ s.openKey 0 s.ev.key = none
    ∧ (after .partitionDissolve s).panel.notices = [.dissolved 3] ∧ (after .panelReset s).fabric.inc = s.fabric.inc + 1
    ∧ (after .incarnationAnnouncement (at_ s { panel := 5, inc := 9 })).fabric.incOf 5 = 9 := by decide +kernel

/-- A steward's write of a word to a register block of die 0's runtime. -/
def writing (b : RegBlock) (o : Nat) (v : Word) : State :=
  at_ (onDie (bootDie { stage := 4 })) { block := b, off := BitVec.ofNat 16 o, val := v }

theorem test_witness_SystemSteps_registers :
    ((after .registerWrite (writing (.boot 0) 0x30 0x161)).die 0).boot.featAcc = 0x61
    ∧ ((after .registerWrite (writing (.seq 0) 0 0x80000400)).die 0).seq.ibFreeze = true
    ∧ (onDie (bootDie { stage := 4 })).stewardPlace 0 0x10060030 8 = .reg (.boot 0) 0x30 := by decide +kernel

theorem test_witness_SystemSteps_panel_registers :
    ((after .registerWrite (writing .queues 0x10 24)).queue 0).tail = 24
    ∧ (after .registerWrite (writing .ring 0x90 0x30)).fabric.window = 0x30 := by decide +kernel

theorem test_witness_SystemSteps_station_register :
    ((after .registerWrite (writing (.station 4) 0x40 7)).station 4).retry = 7 := by decide +kernel

/-- Reset with nothing due, in cycle 100, and a hold or none. -/
def holding (on : Bool) : State :=
  { State.reset with cycle := 100, agenda := [], ev := { val := 5 }, fabric := { State.reset.fabric with hold := on } }

theorem test_witness_SystemSteps_hold :
    (holding false).fabric.hold = false ∧ (∀ i : PortId, ∀ w ∈ ((holding false).port i).waiting, w.id < (holding false).fresh)
    ∧ (holding true).fabric.hold = true :=
  ⟨rfl, by intro i w h; simp [holding, State.port, State.reset, State.resetOf] at h, rfl⟩

theorem test_hold_epoch :
    (after .fabHoldSet (holding true)).fabric.epoch = 5 ∧ (after .fabHoldClear (holding false)).fabric.epoch = 5 := by decide +kernel

/-- Die 0 runs with all features, the fabric as given, memory with tables of a page at 0, and an argument. -/
def onFabric (b : Fabric) (e : EvArg) : State :=
  at_ { onDie (bootDie { stage := 4, featAcc := 0xFF }) with fabric := b, mem := tables 0 } e

/-- Port 2 as given on a panel that has itself and panel 1 on its module ring. -/
def cabled (q : Port) : Fabric :=
  { joined := true, members := 3, ports := (Vector.replicate 576 {}).set 2 { q with enable := true, peer := 1, lit := 0xFF, rxLit := 0xFF }
    nextSeq := [], peers := [{ panel := 1, inc := 4, window := 8 }], granted := [(1, 8)] }

def goodFlit : Flit := { lseq := 0, idx := 0, content := List.replicate 60 7 }

/-- A flit as it stands on eight wavelengths. -/
def onWire (f : Flit) : WireFlit := (f.wire true).mapIdx fun i b => (b, i % 8)

theorem test_witness_FabricSteps_flit :
    let q : Port := { replay := [goodFlit], modeReq := true }
    let s := onFabric (cabled q) { port := 2, wire := onWire goodFlit, flag := false, id := 7 }
    (s.port 2).enable = true ∧ (s.port 2).up = true ∧ ((s.port 2).gather s.ev.wire).bind flitOfWire = some goodFlit
    ∧ goodFlit.idle = false ∧ goodFlit.lseq = (s.port 2).expectSeq ∧ ((after .flitReceive s).port 2).expectSeq = 1
    ∧ ((({ rxLit := 0x7F } : Port).gather s.ev.wire).bind flitOfWire) = none
    ∧ s.ev.seq = (s.port 2).ackAt ∧ (s.port 2).replay ≠ [] ∧ ((after .linkReplay s).port 2).replays = 1
    ∧ s.ev.flag = false ∧ ((after .lackIdleFlit s).port 2).idleDue = true := by decide +kernel

theorem test_witness_FabricSteps_mode :
    let q : Port := { modeWait := some (false, 7, 3) }
    let s := onFabric (cabled q) { port := 2, id := 7, flag := false }
    s.feature 6 = true ∧ (s.port 2).mode ≠ s.ev.flag ∧ (s.port 2).modeWait = some (false, s.ev.id, 3)
    ∧ ((after .lnkModeWrite s).port 2).modeWait = some (false, s.fresh, 8)
    ∧ ((after .modeRequestTimeout s).port 2).modeWait = some (false, 7, 2) := by decide +kernel

/-- Queue pair 9 with panel 1, the window of its region and its queues on the page at 0. -/
def pairOf (st : Fin 3) : QPair :=
  { state := st, job := 3, pkey := 5, peerQp := 9, peer := 1, root := 0x1001, sqSize := 4, sqBase := 0x3000, rqSize := 4, rqBase := 0x4000
    regSize := 12, regBase := 0x5000, sTail := 2 }

/-- Panel 0 with that pair, a WRITE of 300 bytes in progress on it, and an outstanding slot of it. -/
def paired (st : Fin 3) : Fabric :=
  { cabled {} with qps := [(9, pairOf st)], works := [{ id := 11, qp := 9, op := 0, laddr := 0x6000, len := 300, slots := 2 }] }

theorem test_witness_FabricSteps_send :
    let s := onFabric (paired 1) { qp := 9 }
    let w : Work := { id := 11, qp := 9, op := 0, laddr := 0x6000, len := 300, slots := 2 }
    (s.fabric.works.find? fun w => w.qp == s.ev.qp && s.maySend w) = some w ∧ s.fabric.reaches 1 = true
    ∧ s.localBytes 0x1001 w.next.1 w.next.2 .read = .ok [(0x6000, 192)] ∧ s.runBad [(0x6000, 192)] = false
    ∧ Sparse.wf s.fabric.nextSeq 0 = true := by decide +kernel

theorem test_witness_FabricSteps_gone :
    let s := onFabric { paired 1 with members := 1 } { qp := 9 }
    (s.fabric.works.find? fun w => w.qp == s.ev.qp && s.maySend w).isSome = true ∧ s.fabric.reaches 1 = false
    ∧ (after .slotSend s).fabric.works = [] := by decide +kernel

/-- A slot from panel 1 to this one, with the checksum it carries. -/
def slotOf (kind : SlotKind) (op : Word) : FabSlot :=
  slotReady { dst := 0, dstInc := 0, src := 1, srcInc := 4, kind := kind, stream := 9, seq := 0, job := 3, len := 8, op := op, hops := 5
              payload := List.replicate 192 6 }

/-- A WRITE of eight bytes to offset 16 of queue pair 9, its last slot. -/
def writeSlot : FabSlot := slotOf .data (BitVec.ofNat 64 (9 * 2 ^ 47 + 2 ^ 46 + 2 ^ 45 + 5 * 2 ^ 33 + 16))

theorem test_witness_FabricSteps_arrival :
    let s := onFabric (paired 1) { slot := writeSlot }
    dataSound writeSlot = true ∧ s.fabric.current writeSlot = true ∧ writeSlot.kind = .data ∧ s.feature 5 = true
    ∧ (s.fabric.granted.any fun e => e.1 == writeSlot.src) = true ∧ (s.fabric.inPair 1 9).next = 0 ∧ (s.fabric.inPair 1 9).buf = []
    ∧ s.fabric.due = [] ∧ writeSlot.op.extractLsb' 60 4 = 0 ∧ (s.qp 9).admits writeSlot = true ∧ slotOff writeSlot = 16
    ∧ (slotData writeSlot).length = 8 ∧ s.localBytes 0x1001 0x5010 8 .write = .ok [(0x5010, 8)] := by decide +kernel

theorem test_witness_FabricSteps_unsound :
    let b := paired 1
    dataSound { writeSlot with job := 4 } = false ∧ b.current { writeSlot with srcInc := 3 } = false
    ∧ slotSound { writeSlot with len := 193 } = false
    ∧ (after .slotArrival (onFabric b { slot := { writeSlot with job := 4 } })).fabric.bad = 1
    ∧ slotSound (slotOf .grant 12) = true ∧ b.current (slotOf .grant 12) = true
    ∧ (after .grantArrival (onFabric b { slot := slotOf .grant 12 })).fabric.windowOf 1 = 12
    ∧ ((after .drainMarkerArrival (onFabric b { port := 2, slot := slotOf .drain 12 })).port 2).marker = some 12 := by decide +kernel

/-- The same with a slot of the pair outstanding since fabric time 60, and the time-out of one microsecond. -/
def outFabric (resends : Nat) : Fabric :=
  { paired 1 with rto := 0, out := [{ slot := { writeSlot with dst := 1, src := 0 }, work := 11, last := true, resends := resends, sentAt := 60 }] }

theorem test_witness_FabricSteps_ack :
    let s (k : SlotKind) : State := onFabric (outFabric 0) { slot := slotOf k 0, stream := 9, panel := 1, slotSeq := 0, id := 60 }
    ((s .notice).fabric.outSlot 9 1 0).isSome = true ∧ slotSound (slotOf .notice 0) = true
    ∧ slotSound (slotOf .ack 0) = true ∧ (s .ack).fabric.current (slotOf .ack 0) = true
    ∧ (after .refusalNoticeArrival (s .notice)).fabric.notices = 1 := by decide +kernel

theorem test_witness_FabricSteps_resend :
    let s (n : Nat) (now : Nat) : State :=
      { onFabric { outFabric n with rto := 1, retries := 4 } { stream := 9, panel := 1, slotSeq := 0, id := 60 } with cycle := now }
    ((s 0 2060).fabric.outSlot 9 1 0).isSome = true ∧ (s 0 2060).fabric.rtoCycles ≤ (s 0 2060).fabTime - 60
    ∧ (after .slotResendTimeout (s 4 2060)).fabric.lost = [(9, 1)] ∧ (after .slotResendTimeout (s 4 2060)).fabric.out = [] := by
  decide +kernel

theorem test_witness_FabricSteps_next_hop :
    let s := onFabric (cabled { dir := true }) { port := 2, slot := { writeSlot with dst := 1, hops := 3, dir := true } }
    s.fabric.nextHop 1 (some (s.fabric.portRing (s.port 2), true)) = some (.module, true, 1) := by decide +kernel

theorem test_witness_FabricSteps_port :
    (onFabric (cabled { dir := true }) {}).pickPort .module true 1 = some 2 := by
  have one : (List.finRange 576).filter (fun p : PortId => p == 2) = [2] := by decide +kernel
  have set : (cabled { dir := true }).portSet 0 true 1 = [2] := by
    rw [← one]
    refine List.filter_congr fun p _ => ?_
    by_cases h : p = 2
    · subst h; decide +kernel
    · have h' : (2 : Nat) ≠ p.val := fun e => h (Fin.ext e.symm)
      simp [cabled, h, h']
  have fab : (onFabric (cabled { dir := true }) {}).fabric = cabled { dir := true } := rfl
  have least : ∀ b : Fabric, b.leastQueued [2] = some 2 := fun _ => rfl
  simp only [State.pickPort, fab]
  rw [show Ring.module.code = (0 : BitVec 3) from rfl, set, least]
  rfl

theorem test_witness_FabricSteps_no_port : (onFabric {} {}).pickPort .module true 1 = none := by
  simp [onFabric, at_, onDie, State.pickPort, Fabric.portSet, Fabric.leastQueued]

theorem test_slot_expires :
    (after .slotForward (onFabric (cabled {}) { port := 2, slot := { writeSlot with hops := 1 } })).fabric.expired = 1 := by decide +kernel

theorem test_witness_FabricSteps_expiry :
    let w : PortWait := { id := 7, slot := writeSlot, since := 0 }
    let s (h : Bool) (c : Nat) : State := { onFabric { cabled { waiting := [w] } with hold := h, stuck := [w] } { port := 2, id := 7 } with cycle := c }
    (((s false 100).port 2).waiting.find? fun w => w.id == 7) = some w ∧ (s true 9).fabric.hold = true
    ∧ (s false 100).fabTime ≤ portWait ∧ portWait < (s false (portWait + 1)).fabTime
    ∧ ((after .slotPortWaitExpiry (s false (portWait + 1))).port 2).waiting = [] := by decide +kernel

theorem test_witness_FabricSteps_pairs :
    let s (st : Fin 3) (v : Word) : State := onFabric (paired st) { qp := 9, val := v }
    (s 1 0).feature 5 = true ∧ Sparse.wf (s 1 0).fabric.qps {} = true ∧ ((s 1 0).qp 9).state ≠ 2
    ∧ ((after .qpReset (s 1 0)).qp 9).state = 0 ∧ ((after .qpError (s 1 0)).qp 9).state = 2
    ∧ ((after .doorbellWrite (s 1 0x300000005)).qp 9).sTail = 5 ∧ ((after .doorbellWrite (s 1 0x300000011)).qp 9).state = 2 := by
  decide +kernel

theorem test_witness_FabricSteps_load :
    ((after .qpLoad (onFabric (paired 0) { qp := 9 })).qp 9).state = 1 := by decide +kernel

theorem test_witness_FabricSteps_entry :
    let s := onFabric (paired 1) { qp := 9 }
    s.localBytes 0x1001 (0x3000 + BitVec.ofNat 64 (64 * (0 % 2 ^ 4))) 64 .read = .ok [(0x3000, 64)] ∧ s.runBad [(0x3000, 64)] = false
    ∧ entryBad (s.runBytes [(0x3000, 64)]) = false ∧ entryBad (List.replicate 7 0 ++ [0x20]) = true := by decide +kernel

/-! ### Steps of the light and of photonic paths -/

/-- Port 2 as given, with wavelength 3 of it the argument. -/
def lighting (q : Port) (e : EvArg) : State := onFabric (cabled q) { e with port := 2, lam := 3 }

theorem test_witness_PhotonicSteps_light :
    let dark : Port := { darkAt := [(3, 60)], locking := 8 }
    let s (q : Port) (rx : Bool) : State := lighting q { arr := rx, id := 60 }
    ((s {} false).port 2).lit.getLsbD 3 = true ∧ ((s {} true).port 2).rxLit.getLsbD 3 = true ∧ ((s {} false).port 2).darkSince 3 = none
    ∧ ((after .ringRelockStart (s {} false)).port 2).relocks = 1 ∧ ((after .ringRelockStart (s {} true)).port 2).rxLit = 0xF7
    ∧ ((s dark false).port 2).darkSince 3 = some 60 ∧ ((s dark false).port 2).enable = true
    ∧ ((after .ringRelockEnd (s dark false)).port 2).darkSince 3 = none
    ∧ ((after .wavelengthSignalLoss (s {} false)).port 2).rxLit = 0xF7
    ∧ ((after .wavelengthRetire (s dark false)).port 2).failed = 8 := by decide +kernel

/-- Path 4 of panel 0 toward panel 1, over the elements 20 and 21. -/
def pathPacket : PathPkt := { path := 4, origin := 0, target := 1, elems := [(20, 1, 2), (21, 3, 4)] }

theorem test_witness_PhotonicSteps_setup :
    let r : Reserve := { elem := 20, path := 5, origin := 0, inPort := 1, outPort := 7, held := true, id := 1 }
    let s (l : List Reserve) : State := onFabric { cabled {} with reserve := l } { pkt := pathPacket, elem := 20 }
    (s []).pathPkt .setup = some pathPacket ∧ (s []).lowerSetup pathPacket = false ∧ pktPlace pathPacket 20 = some 0
    ∧ pktPlace pathPacket 21 = some (0 + 1) ∧ pathPacket.elems[0]?.map (·.2) = some (1, 2)
    ∧ (s []).fabric.portTaken 20 1 pathPacket = false ∧ (s [r]).fabric.portTaken 20 1 pathPacket = true
    ∧ (after .setup (s [])).fabric.switch = [(20, 1, 2)] ∧ (after .setup (s [r])).fabric.switch = []
    ∧ pathPacket.elems.length = 1 + 1 ∧ pathPacket.elems[1]? = some (21, 3, 4) := by decide +kernel

theorem test_witness_PhotonicSteps_lower :
    let e : Sched := { due := 100, act := .setup, arg := { pkt := { pathPacket with path := 3 }, elem := 20 } }
    let s : State := { onFabric (cabled {}) { pkt := pathPacket, elem := 20 } with agenda := [e] }
    s.lowerSetup pathPacket = true ∧ (after .setup s).agenda.map (fun e => e.arg.pkt.path) = [3, 4] := by decide +kernel

theorem test_witness_PhotonicSteps_elements :
    let r : Reserve := { elem := 20, path := 4, origin := 0, inPort := 1, outPort := 2, held := false, id := 7 }
    let s := onFabric { cabled {} with reserve := [r], switch := [(20, 1, 2)] } { pkt := pathPacket, elem := 20, id := 7 }
    (after .ack s).fabric.reserve = [{ r with held := true }] ∧ (after .nak s).fabric.reserve = []
    ∧ (after .nak s).fabric.switch = [(20, 1, 2)] ∧ (after .tear s).fabric.switch = []
    ∧ (after .reservationTimeout s).fabric.reserve = []
    ∧ (onFabric (cabled {}) { bytes := [1] }).pathPkt .setup = none := by decide +kernel

/-- The path in a state, with its timer, and what comes of it. -/
def pathIn (st : Fin 7) (attempts : Nat) : State :=
  let h : Path := { state := st, attempts := attempts, path := 4, pkt := pathPacket, timer := 60 }
  onFabric { cabled {} with paths := (Vector.replicate 64 {}).set 6 h } { pkt := pathPacket, flag := true, path := 6, id := 60 }

theorem test_witness_PhotonicSteps_origin :
    (pathIn 1 0).ownPath pathPacket = some 6 ∧ ((pathIn 1 0).fabric.paths[(6 : Fin 64)]).timer = (pathIn 1 0).ev.id
    ∧ ((after .backOffExpiry (pathIn 2 2)).fabric.paths[(6 : Fin 64)]).attempts = 3
    ∧ ((after .pathSetupRequest (pathIn 0 0)).fabric.paths[(6 : Fin 64)]).state = 1
    ∧ ((after .pathTearRequest (pathIn 6 0)).fabric.paths[(6 : Fin 64)]).state = 0 := by decide +kernel

theorem test_witness_PhotonicSteps_lit : ∃ p ∈ (onFabric
    { cabled { role := 3, path := 4 } with paths := (Vector.replicate 64 {}).set 6 { state := 3, path := 4, pkt := pathPacket } } {}).endPorts 6,
    4 ≤ bitCount ((cabled { role := 3, path := 4 }).ports[p]).inUse :=
  ⟨2, by simp only [State.endPorts, List.mem_filter]; exact ⟨List.mem_finRange _, by decide +kernel⟩, by decide +kernel⟩

theorem test_witness_PhotonicSteps_end :
    let q := (onFabric (cabled {}) {}).port 2
    { q with role := 3, path := 4, peer := 0, lit := 0 }.up = false ∧ ∀ i : PortId, ((onFabric {} {}).port i).enable = false := by
  exact ⟨by decide +kernel, fun i => by simp [onFabric, at_, onDie, State.port]⟩

end Sys2Proof.Tests
end

