-- ==== Sys2Proof/Proofs/IntegerDivision.lean ====
section
/-! PROOFS. Integer division, remainder and high product (R40, R102): the obligation IntegerDivision. -/

namespace Sys2Proof.Machine

/-! ### The range of a type, and of a quotient in it -/

/-- The integer that w bits hold under a type lies in the range of the type (R38). -/
theorem int_mem_range (t : Ty) (v : BitVec t.width) : tyMin t ≤ Ty.int t v ∧ Ty.int t v ≤ tyMax t := by
  unfold tyMin tyMax Ty.int
  split
  · have hlo := v.le_toInt
    have hhi := v.toInt_lt
    push_cast
    omega
  · have hhi := v.isLt
    omega

/-- In a two's complement range only the minimum by -1 has a quotient outside the range: a divisor 1 keeps the dividend,
-1 negates it, and any other at least halves it. -/
theorem tdiv_mem_signed_range {k x y : Int} (hlo : -k ≤ x) (hhi : x ≤ k - 1) (hy : y ≠ 0) (hmin : ¬(x = -k ∧ y = -1)) :
    -k ≤ x.tdiv y ∧ x.tdiv y ≤ k - 1 := by
  by_cases h1 : y = 1
  · rw [h1, Int.tdiv_one]; exact ⟨hlo, hhi⟩
  by_cases hneg : y = -1
  · rw [hneg, Int.tdiv_neg, Int.tdiv_one]; omega
  · have hhalf : (x.tdiv y).natAbs ≤ x.natAbs / 2 := by
      rw [Int.natAbs_tdiv]
      exact Nat.div_le_div_left (by omega) (by decide)
    omega

/-- The quotient of two values of a type is in its range, but for the minimum by -1 of a signed type. -/
theorem tdiv_mem_range {t : Ty} {x y : Int} (hx : tyMin t ≤ x ∧ x ≤ tyMax t) (hy : tyMin t ≤ y) (hy0 : y ≠ 0)
    (hmin : ¬(x = tyMin t ∧ y = -1 ∧ Ty.signed t = true)) : tyMin t ≤ x.tdiv y ∧ x.tdiv y ≤ tyMax t := by
  cases hs : Ty.signed t with
  | true =>
    simp only [tyMin, tyMax, hs, if_true] at hx hmin ⊢
    exact tdiv_mem_signed_range hx.1 hx.2 hy0 fun ⟨hk, hneg⟩ => hmin ⟨hk, hneg, trivial⟩
  | false =>
    have h0 : tyMin t = 0 := by simp [tyMin, hs]
    rw [h0] at hx hy ⊢
    exact ⟨Int.tdiv_nonneg hx.1 hy, (Int.tdiv_le_self y hx.1).trans hx.2⟩

/-- The minimum of a signed type by -1 lies above the range. -/
theorem tyMax_lt_tyMin_tdiv {t : Ty} (hs : Ty.signed t = true) : tyMax t < (tyMin t).tdiv (-1) := by
  rw [Int.tdiv_neg, Int.tdiv_one]
  simp only [tyMin, tyMax, hs, if_true]
  omega

/-! ### The flags of a reduction (R39) -/

theorem reduce_flag_of_mem {t : Ty} (sat : Bool) {x : Int} (h : tyMin t ≤ x ∧ x ≤ tyMax t) : (reduce t sat x).2 = 0 :=
  ((reduce_spec t sat x).inRange h.1 h.2).2

theorem reduce_flag_of_above {t : Ty} (sat : Bool) {x : Int} (h : tyMax t < x) :
    (reduce t sat x).2 = if sat then fSaturated else fOverflow := by
  have hr := reduce_spec t sat x
  cases sat with
  | true => exact (hr.above h rfl).2
  | false => exact (hr.wraps (.inr h) rfl).2

/-! ### Quotient, remainder and high product (R40, R102) -/

theorem divInt_zero (t : Ty) (sat : Bool) (x : Int) : divInt t sat x 0 = (0, fDivzero) := if_pos rfl

theorem divInt_of_ne_zero (t : Ty) (sat : Bool) (x : Int) {y : Int} (hy : y ≠ 0) :
    divInt t sat x y = reduce t sat (x.tdiv y) := if_neg hy

theorem remInt_zero (t : Ty) (sat : Bool) (x : Int) : remInt t sat x 0 = (lowBits t.width x, fDivzero) := if_pos rfl

theorem remInt_of_ne_zero (t : Ty) (sat : Bool) (x : Int) {y : Int} (hy : y ≠ 0) :
    remInt t sat x y = (lowBits t.width (x.tmod y), (reduce t sat (x.tdiv y)).2) := if_neg hy

/-- A remainder whose quotient is in range sets no flag. -/
theorem remInt_of_mem {t : Ty} (sat : Bool) {x y : Int} (hy : y ≠ 0) (h : tyMin t ≤ x.tdiv y ∧ x.tdiv y ≤ tyMax t) :
    remInt t sat x y = noFlag (lowBits t.width (x.tmod y)) := by
  rw [remInt_of_ne_zero t sat x hy, reduce_flag_of_mem sat h, noFlag]

/-- The minimum by -1 leaves the remainder 0, with the flag of its quotient. -/
theorem remInt_tyMin_neg_one {t : Ty} (sat : Bool) (hs : Ty.signed t = true) :
    remInt t sat (tyMin t) (-1) = (0, if sat then fSaturated else fOverflow) := by
  rw [remInt_of_ne_zero t sat _ (by decide), reduce_flag_of_above sat (tyMax_lt_tyMin_tdiv hs), Int.tmod_neg, Int.tmod_one]
  simp [lowBits]

/-- The bits of the high product are those of the floor of the product by 2^w. -/
theorem intMulh_eq (t : Ty) (a b : Nat) :
    BitVec.ofNat t.width (intMulh t a b) = BitVec.ofInt t.width (intVal t a * intVal t b / 2 ^ t.width) := by
  rw [intMulh, lowBits_ofNat, Nat.cast_pow, Nat.cast_ofNat]

/-! ### What the instructions do -/

theorem State.intOf_mem_range (s : State) (t : Ty) (a : Src) : tyMin t ≤ s.intOf t a ∧ s.intOf t a ≤ tyMax t :=
  int_mem_range t _

/-- The low bits of the integer that a source holds are the low bits of the source. -/
theorem State.lowBits_intOf (s : State) (t : Ty) (a : Src) :
    BitVec.ofNat t.width (lowBits t.width (s.intOf t a)) = Ty.low t (s.src a) :=
  (lowBits_ofNat _ _).trans (ofInt_int t _)

theorem Ty.ext_zero (t : Ty) : Ty.ext t 0 = 0 := by
  unfold Ty.ext
  split
  · apply BitVec.eq_of_toInt_eq
    simp [BitVec.toInt_signExtend]
  · simp

theorem exec_div (s : State) (t : Ty) (d : Dst) (a b : Src) :
    exec (.div t d a b) s = .next (s.intLand 12 d t (divInt t s.cap.sat (s.intOf t a) (s.intOf t b))) := by
  rw [← intVal_src, ← intVal_src]; rfl

theorem exec_rem (s : State) (t : Ty) (d : Dst) (a b : Src) :
    exec (.rem t d a b) s = .next (s.intLand 12 d t (remInt t s.cap.sat (s.intOf t a) (s.intOf t b))) := by
  rw [← intVal_src, ← intVal_src]; rfl

theorem exec_mulh (s : State) (t : Ty) (d : Dst) (a b : Src) :
    exec (.mulh t d a b) s = .next (s.intLand 3 d t (noFlag (intMulh t (s.srcN a) (s.srcN b)))) := rfl

/-- An instruction whose meaning lands w bits with flags yields both. -/
theorem State.yields_of_intLand (s : State) {i : Instr} {lat : Nat} {t : Ty} {d : Dst} {n : Nat} {f : Flg}
    {v : BitVec t.width} (h : exec i s = .next (s.intLand lat d t (n, f))) (hv : BitVec.ofNat t.width n = v) :
    s.Yields i (withFlags lat s.intSlot (.scalar d (Ty.ext t v)) f) := by
  subst hv
  exact ⟨_, h, s.intLand_gives lat d t (n, f)⟩

theorem State.div_yields (s : State) (t : Ty) (d : Dst) (a b : Src) (hy : s.intOf t b ≠ 0) :
    s.YieldsInt (.div t d a b) 12 t d ((s.intOf t a).tdiv (s.intOf t b)) := by
  apply s.yieldsInt_of
  rw [exec_div, divInt_of_ne_zero _ _ _ hy]

theorem State.div_yields_of_zero (s : State) (t : Ty) (d : Dst) (a b : Src) (hy : s.intOf t b = 0) :
    s.Yields (.div t d a b) (withFlags 12 s.intSlot (.scalar d 0) fDivzero) := by
  have h := exec_div s t d a b
  rw [hy, divInt_zero] at h
  simpa only [Ty.ext_zero] using s.yields_of_intLand h (v := 0) rfl

theorem State.rem_yields (s : State) (t : Ty) (d : Dst) (a b : Src) (hy : s.intOf t b ≠ 0)
    (hmin : ¬(s.intOf t a = tyMin t ∧ s.intOf t b = -1 ∧ Ty.signed t = true)) :
    s.YieldsBits (.rem t d a b) 12 t d (BitVec.ofInt t.width ((s.intOf t a).tmod (s.intOf t b))) := by
  have hq := tdiv_mem_range (s.intOf_mem_range t a) (s.intOf_mem_range t b).1 hy hmin
  refine s.yieldsBits_of _ _ _ _ _ _ ?_ (lowBits_ofNat _ _)
  rw [exec_rem, remInt_of_mem _ hy hq]

theorem State.rem_yields_of_min (s : State) (t : Ty) (d : Dst) (a b : Src) (hx : s.intOf t a = tyMin t)
    (hy : s.intOf t b = -1) (hs : Ty.signed t = true) :
    s.Yields (.rem t d a b) (withFlags 12 s.intSlot (.scalar d 0) (if s.cap.sat then fSaturated else fOverflow)) := by
  have h := exec_rem s t d a b
  rw [hx, hy, remInt_tyMin_neg_one _ hs] at h
  simpa only [Ty.ext_zero] using s.yields_of_intLand h (v := 0) rfl

theorem State.rem_yields_of_zero (s : State) (t : Ty) (d : Dst) (a b : Src) (hy : s.intOf t b = 0) :
    s.Yields (.rem t d a b) (withFlags 12 s.intSlot (.scalar d (Ty.ext t (Ty.low t (s.src a)))) fDivzero) := by
  have h := exec_rem s t d a b
  rw [hy, remInt_zero] at h
  exact s.yields_of_intLand h (s.lowBits_intOf t a)

theorem State.mulh_yields (s : State) (t : Ty) (d : Dst) (a b : Src) :
    s.YieldsBits (.mulh t d a b) 3 t d (BitVec.ofInt t.width (s.intOf t a * s.intOf t b / 2 ^ t.width)) := by
  refine s.yieldsBits_of _ _ _ _ _ _ (exec_mulh s t d a b) ?_
  rw [intMulh_eq, intVal_src, intVal_src]

/-- Settles O15: the one quotient out of range is the signed minimum by -1, so that only there, and with a divisor of 0,
the remainder sets a flag. -/
theorem integerDivision : Obligations.IntegerDivision := by
  intro s t d a b _
  refine ⟨s.div_yields t d a b, s.rem_yields t d a b, ?_, ?_, s.mulh_yields t d a b⟩
  · rintro ⟨hx, hy, hs⟩
    exact s.rem_yields_of_min t d a b hx hy hs
  · exact fun hy => ⟨s.div_yields_of_zero t d a b hy, s.rem_yields_of_zero t d a b hy⟩

end Sys2Proof.Machine
end

