-- ==== Sys2Proof/Proofs/IntegerShiftsAndCounts.lean ====
section
/-! PROOFS. Integer shifts, rotates and bit counts (R102, R103, R105): the obligation IntegerShiftsAndCounts. -/

namespace Sys2Proof.Machine

/-! ### The shift count (R103, R105) -/

theorem shiftCount_lt (t : Ty) (b : Nat) : shiftCount t b < t.width := Nat.mod_lt b (width_pos t)

theorem immTy_width (z : Bool) : (immTy z).width = 64 := by cases z <;> rfl

/-- A short immediate that the decoder accepts as a shift count is the count. -/
theorem shiftCount_imm9Val (z : Bool) {i : BitVec 9} (hi : i.toNat < 64) : shiftCount (immTy z) (imm9Val i) = i.toNat := by
  rw [shiftCount, immTy_width, imm9Val_mod i hi]

/-! ### Shifts, rotates and the count of ones on the low bits of a source (R102, R103) -/

/-- The fill of `intShr` for a count of w or more never shows, as a count is less than w. -/
theorem intShr_eq (t : Ty) (a : Word) (b : Nat) :
    BitVec.ofNat t.width (intShr t a.toNat b) = Ty.low t a >>> shiftCount t b :=
  shrNat_eq t a _ (shiftCount_lt t b)

theorem intSar_eq (t : Ty) (a : Word) (b : Nat) :
    BitVec.ofNat t.width (intSar t a.toNat b) = (Ty.low t a).sshiftRight (shiftCount t b) :=
  sar_eq t a _

theorem intRot_eq (t : Ty) (a : Word) (b : Nat) :
    BitVec.ofNat t.width (intRot t a.toNat b) = (Ty.low t a).rotateLeft (shiftCount t b) :=
  rotNat_eq t a _ (shiftCount_lt t b)

theorem Ty.getLsbD_low {t : Ty} (a : Word) {k : Nat} (hk : k < t.width) : (Ty.low t a).getLsbD k = a.toNat.testBit k := by
  rw [Ty.low, BitVec.getLsbD_setWidth, decide_eq_true hk, Bool.true_and]
  rfl

/-- Only the low w bits of a source are counted. -/
theorem popNat_low (t : Ty) (a : Word) :
    popNat t.width a.toNat = ((List.range t.width).filter fun k => (Ty.low t a).getLsbD k).length := by
  rw [popNat_eq]
  exact congrArg _ (List.filter_congr fun k hk => (Ty.getLsbD_low a (List.mem_range.mp hk)).symm)

/-! ### What the instructions do -/

theorem exec_shl (s : State) (t : Ty) (d : Dst) (a b : Src) :
    exec (.shl t d a b) s
      = .next (s.intLand 1 d t (reduce t s.cap.sat (s.intOf t a * 2 ^ ((s.src b).toNat % t.width)))) := by
  have hexec : exec (.shl t d a b) s = .next (s.intLand 1 d t (intShl t s.cap.sat (s.srcN a) (s.srcN b))) := rfl
  rw [hexec, intShl, intVal_src, Nat.cast_pow, Nat.cast_ofNat]
  rfl

theorem State.shl_yields (s : State) (t : Ty) (d : Dst) (a b : Src) :
    s.YieldsInt (.shl t d a b) 1 t d (s.intOf t a * 2 ^ ((s.src b).toNat % t.width)) :=
  s.yieldsInt_of _ _ _ _ _ (exec_shl s t d a b)

theorem State.shr_yields (s : State) (t : Ty) (d : Dst) (a b : Src) :
    s.YieldsBits (.shr t d a b) 1 t d (Ty.low t (s.src a) >>> ((s.src b).toNat % t.width)) :=
  s.yieldsBits_of _ _ _ _ _ _ rfl (intShr_eq t (s.src a) (s.srcN b))

theorem State.sar_yields (s : State) (t : Ty) (d : Dst) (a b : Src) :
    s.YieldsBits (.sar t d a b) 1 t d ((Ty.low t (s.src a)).sshiftRight ((s.src b).toNat % t.width)) :=
  s.yieldsBits_of _ _ _ _ _ _ rfl (intSar_eq t (s.src a) (s.srcN b))

theorem State.rot_yields (s : State) (t : Ty) (d : Dst) (a b : Src) :
    s.YieldsBits (.rot t d a b) 1 t d ((Ty.low t (s.src a)).rotateLeft ((s.src b).toNat % t.width)) :=
  s.yieldsBits_of _ _ _ _ _ _ rfl (intRot_eq t (s.src a) (s.srcN b))

theorem State.clz_yields (s : State) (t : Ty) (d : Dst) (a : Src) :
    s.YieldsBits (.clz t d a) 1 t d (BitVec.ofNat t.width (clzNat t.width (s.srcN a))) :=
  s.yieldsBits_of _ _ _ _ _ _ rfl rfl

theorem State.popc_yields (s : State) (t : Ty) (d : Dst) (a : Src) :
    s.YieldsBits (.popc t d a) 1 t d
      (BitVec.ofNat t.width ((List.range t.width).filter fun k => (Ty.low t (s.src a)).getLsbD k).length) :=
  s.yieldsBits_of _ _ _ _ _ _ rfl (congrArg _ (popNat_low t (s.src a)))

theorem State.shrImm_yields (s : State) (z : Bool) (d : Dst) (a : Src) {i : BitVec 9} (hi : i.toNat < 64) :
    s.YieldsBits (.shrImm z d a i) 1 (immTy z) d (Ty.low (immTy z) (s.src a) >>> i.toNat) := by
  have hbits := intShr_eq (immTy z) (s.src a) (imm9Val i)
  rw [shiftCount_imm9Val z hi] at hbits
  exact s.yieldsBits_of _ _ _ _ _ _ rfl hbits

theorem State.sarImm_yields (s : State) (z : Bool) (d : Dst) (a : Src) {i : BitVec 9} (hi : i.toNat < 64) :
    s.YieldsBits (.sarImm z d a i) 1 (immTy z) d ((Ty.low (immTy z) (s.src a)).sshiftRight i.toNat) := by
  have hbits := intSar_eq (immTy z) (s.src a) (imm9Val i)
  rw [shiftCount_imm9Val z hi] at hbits
  exact s.yieldsBits_of _ _ _ _ _ _ rfl hbits

/-- Settles O17: a count is less than the width, so that each pattern is the shift or rotate of the low bits by the whole
count, and the count of leading zeros is the model's own. -/
theorem integerShiftsAndCounts : Obligations.IntegerShiftsAndCounts := by
  refine ⟨fun s t d a b _ => ⟨s.shl_yields t d a b, s.shr_yields t d a b, s.sar_yields t d a b, s.rot_yields t d a b, ?_,
    s.popc_yields t d a⟩, fun s z d a i hi => ⟨s.shrImm_yields z d a hi, s.sarImm_yields z d a hi⟩⟩
  exact ⟨clzNat t.width (s.srcN a), s.clz_yields t d a, clzNat_spec t (s.src a)⟩

end Sys2Proof.Machine
end

