-- ==== Sys2Proof/Proofs/GateLogic.lean ====
section
/-! PROOFS. Logic simulation (R234, R237, R238): the obligation GateLogic. -/

namespace Sys2Proof.Machine

/-! ### Elements as a list over their indices -/

/-- The elements of a vector, as a list over their indices. -/
theorem elems_eq_map_range (w : Nat) (v : VReg) :
    elems w v = (List.range (8192 / w)).map fun j => (elem w v j).toNat := by
  refine list_eq_range _ _ _ (elems_length w v) fun j hj => ?_
  rw [← elems_getD w v j (elems_length w v ▸ hj), List.getD_eq_getElem _ _ hj]

theorem lanes_eq_map_range (v : VReg) : lanes v = (List.range 256).map fun p => (elem 32 v p).toNat :=
  elems_eq_map_range 32 v

/-- Every entry m times over is the entry at the index by m. -/
theorem flatMap_replicate_map_range {α : Type} {m : Nat} (hm : 0 < m) (n : Nat) (f : Nat → α) :
    ((List.range n).map f).flatMap (List.replicate m) = (List.range (n * m)).map fun j => f (j / m) := by
  induction n with
  | zero => simp
  | succ n ih =>
    have hlast : (List.range m).map (fun k => f ((n * m + k) / m)) = List.replicate m (f n) := by
      refine List.eq_replicate_iff.mpr ⟨by simp, fun x hx => ?_⟩
      obtain ⟨k, hk, rfl⟩ := List.mem_map.mp hx
      rw [Nat.mul_comm, Nat.mul_add_div hm, Nat.div_eq_of_lt (List.mem_range.mp hk), Nat.add_zero]
    rw [List.range_succ, List.map_append, List.flatMap_append, ih, Nat.succ_mul, List.range_add, List.map_append,
      List.map_map]
    simpa [Function.comp_def] using hlast.symm

/-! ### Vector results without flags, and with the wide flag set (R218, R219) -/

theorem foldl_or_no_flags (l : List Nat) : l.foldl (fun acc _ => acc ||| (0 : Flg)) 0 = 0 :=
  List.foldl_fixed' (fun _ => BitVec.or_zero) l

/-- A vector made of elements, none of which sets a flag. -/
theorem vecOf_ofElems (w : Nat) (g : Nat → Nat) :
    VecOf w (fun j => (BitVec.ofNat w (g j), 0)) (ofElems w ((List.range (8192 / w)).map g)) 0 := by
  refine ⟨fun j hj => ?_, (foldl_or_no_flags _).symm⟩
  rw [elem_ofElems w _ j hj]
  simp [List.getD, hj]

/-- The count of the wide flag set is the number of lanes that are not zero; it fits its nine bits. -/
theorem laneCount_toNat (v : VReg) :
    (laneCount v).toNat = ((List.range 256).filter fun p => elem 32 v p ≠ 0).length := by
  have hcount : ((lanes v).filter (· != 0)).length = ((List.range 256).filter fun p => elem 32 v p ≠ 0).length := by
    rw [lanes_eq_map_range, List.filter_map, List.length_map]
    refine congrArg _ (List.filter_congr fun p _ => ?_)
    simp [bne, BitVec.toNat_eq, Bool.beq_eq_decide_eq]
  have hle := List.length_filter_le (fun p => decide (elem 32 v p ≠ 0)) (List.range 256)
  rw [List.length_range] at hle
  rw [laneCount, hcount, BitVec.toNat_ofNat, Nat.mod_eq_of_lt (by omega)]

theorem State.vecFlags_eq (s : State) : s.vecFlags = if s.vecSlot = 3 then .va else .vb := by
  unfold State.vecFlags State.vecSlot
  split <;> rfl

/-- A vector result with its flags, and the wide flag set of its slot, put in flight. -/
theorem State.vecLandWide_gives (s : State) (d : Dst) (r : VReg × Flg) :
    s.Gives (s.vecLandWide d r) (withFlags 2 s.vecSlot (.vector d r.1 s.rf.mask) r.2
      ++ [⟨3, s.vecSlot, .wide (if s.vecSlot = 3 then .va else .vb) (laneCount r.1)⟩]) := by
  rw [← s.vecFlags_eq]
  exact (s.vecLand_gives 2 d r).trans ((s.vecLand 2 d r).land_gives 3 s.vecSlot _)

theorem State.yieldsVec_of (s : State) {i : Instr} {lat : Nat} {d : Dst} {w : Nat} {e : Nat → BitVec w × Flg}
    {r : VReg × Flg} (hexec : exec i s = .next (s.vecLand lat d r)) (hr : VecOf w e r.1 r.2) :
    s.YieldsVec i lat d w e :=
  ⟨r.1, r.2, hr, _, hexec, s.vecLand_gives lat d r⟩

theorem State.yieldsWide_of (s : State) {i : Instr} {d : Dst} {w : Nat} {e : Nat → BitVec w × Flg} {r : VReg × Flg}
    (hexec : exec i s = .next (s.vecLandWide d r)) (hr : VecOf w e r.1 r.2) : s.YieldsWide i d w e :=
  ⟨r.1, r.2, hr, laneCount r.1, laneCount_toNat r.1, _, hexec, s.vecLandWide_gives d r⟩

/-! ### `vlut` (R234, R236) -/

/-- The four inputs of element j of a gate, as the index of its output. -/
def gateInputs (q0 q1 q2 q3 : VReg) (j : Nat) : Nat :=
  (elem 2 q0 j).toNat + 4 * (elem 2 q1 j).toNat + 16 * (elem 2 q2 j).toNat + 64 * (elem 2 q3 j).toNat

/-- Inputs of two bits each are taken whole. -/
theorem gateIndex_elem (q0 q1 q2 q3 : VReg) (j : Nat) :
    gateIndex (elem 2 q0 j).toNat (elem 2 q1 j).toNat (elem 2 q2 j).toNat (elem 2 q3 j).toNat
      = gateInputs q0 q1 q2 q3 j := by
  have hlt (q : VReg) : (elem 2 q j).toNat % 4 = (elem 2 q j).toNat := Nat.mod_eq_of_lt (elem 2 q j).isLt
  simp only [gateIndex, gateInputs, hlt]

/-- Sixteen elements in a row share the gate type in their lane. -/
theorem lutElems_eq (q0 q1 q2 q3 t : VReg) :
    lutElems q0 q1 q2 q3 t
      = (List.range 4096).map fun j => ((elem 32 t (j / 16)).toNat % 256, gateInputs q0 q1 q2 q3 j) := by
  have htypes : (lanes t).flatMap (fun x => List.replicate 16 (x % 256))
      = (List.range 4096).map fun j => (elem 32 t (j / 16)).toNat % 256 := by
    rw [lanes_eq_map_range, List.flatMap_map]
    simpa only [List.flatMap_map] using
      flatMap_replicate_map_range (m := 16) (by decide) 256 fun p => (elem 32 t p).toNat % 256
  have hel (q : VReg) : elems 2 q = (List.range 4096).map fun j => (elem 2 q j).toNat := elems_eq_map_range 2 q
  simp only [lutElems, htypes, hel, List.zipWith_map, List.zipWith_self, List.zip_map', gateIndex_elem]

/-- Output i of a truth table lies in bits 2i+1 to 2i. -/
theorem ofNat_gateOut (e : BitVec 512) (i : Nat) : BitVec.ofNat 2 (gateOut e i) = e.extractLsb' (2 * i) 2 := by
  apply BitVec.eq_of_toNat_eq
  rw [BitVec.toNat_ofNat, BitVec.extractLsb'_toNat, Nat.shiftRight_eq_div_pow]
  exact Nat.mod_mod _ _

/-- Register k of the quad of a `vlut`. -/
theorem State.vsrc_quad (s : State) (q : Fin 13) (k : Nat) (hk : k < 4) :
    s.vsrc (.named (Fin.ofNat 16 (q.val + k))) = s.rf.v[q.val + k] := by
  have hmod : (q.val + k) % 16 = q.val + k := Nat.mod_eq_of_lt (by omega)
  simp only [State.vsrc, RegFile.vsrc, Fin.getElem_fin, Fin.ofNat, hmod]

/-- With no bad word in the truth-table memory, `vlut` lands the output of each gate. -/
theorem exec_vlut (s : State) (d : Dst) (q : Fin 13) (b : Src) (m : Option Mod)
    (hbad : (s.die s.iss.die).truthBad = []) :
    exec (.vlut d q b m) s = .next (s.vecLand 3 d (ofElems 2 ((List.range 4096).map fun j =>
      gateOut ((s.die s.iss.die).gate ((elem 32 (s.vmodSrc b (m.getD .none)) (j / 16)).toNat % 256))
        (gateInputs s.rf.v[q.val] s.rf.v[q.val + 1] s.rf.v[q.val + 2] s.rf.v[q.val + 3] j)), 0)) := by
  have hexec : exec (.vlut d q b m) s = execVlut d q b m s := rfl
  have hfirst : s.vsrc (.named (Fin.ofNat 16 q.val)) = s.rf.v[q.val] := s.vsrc_quad q 0 (by decide)
  simp only [hexec, execVlut, hbad, List.isEmpty_nil, if_true, lutElems_eq, List.map_map, Function.comp_def,
    Nat.add_zero, hfirst, s.vsrc_quad q 1 (by decide), s.vsrc_quad q 2 (by decide), s.vsrc_quad q 3 (by decide)]

theorem State.vlut_yields (s : State) (d : Dst) (q : Fin 13) (b : Src) (m : Option Mod)
    (hbad : (s.die s.iss.die).truthBad = []) :
    s.YieldsVec (.vlut d q b m) 3 d 2 fun j =>
      (((s.die s.iss.die).gate ((elem 32 (s.vmodSrc b (m.getD .none)) (j / 16)).toNat % 256)).extractLsb'
        (2 * gateInputs s.rf.v[q.val] s.rf.v[q.val + 1] s.rf.v[q.val + 2] s.rf.v[q.val + 3] j) 2, 0) := by
  simp only [← ofNat_gateOut]
  exact s.yieldsVec_of (exec_vlut s d q b m hbad) (vecOf_ofElems 2 _)

/-! ### `vres` (R237) -/

/-- The value of a net with two drivers. -/
def resolved (p r : BitVec 2) : BitVec 2 := BitVec.ofNat 2 (resolveL2 p.toNat r.toNat)

/-- The table of R237, in which 2 is X and 3 is Z. -/
theorem resolved_spec (p r : BitVec 2) :
    (p = r → resolved p r = p) ∧ (p = 3 → resolved p r = r) ∧ (r = 3 → resolved p r = p)
      ∧ (p ≠ 3 → r ≠ 3 → p ≠ r → resolved p r = 2) := by
  revert p r
  decide

theorem State.vres_yields (s : State) (d : Dst) (a b : Src) (m : Option Mod) :
    s.YieldsVec (.vres d a b m) 2 d 2 fun j =>
      (resolved (elem 2 (s.vsrc a) j) (elem 2 (s.vmodSrc b (m.getD .none)) j), 0) :=
  s.yieldsVec_of rfl (vecOf_zip 2 (fun x y => noFlag (resolveL2 x y)) _ _)

/-! ### `vevt` (R238) -/

/-- All ones in a lane of two unequal values, as the bits of a number. -/
theorem ofNat_ones_of_ne (x y : BitVec 32) :
    BitVec.ofNat 32 (if x.toNat = y.toNat then 0 else 2 ^ 32 - 1) = if x = y then 0 else BitVec.allOnes 32 := by
  by_cases h : x = y
  · rw [if_pos h, if_pos (congrArg _ h)]
    rfl
  · rw [if_neg h, if_neg (mt BitVec.eq_of_toNat_eq h)]
    rfl

theorem State.vevt_yields (s : State) (t : Ty) (d : Dst) (a b : Src) (m : Option Mod) :
    s.YieldsWide (.vevt t d a b m) d 32 fun j =>
      (if elem 32 (s.vsrc a) j = elem 32 (s.vmodSrc b (m.getD .none)) j then 0 else BitVec.allOnes 32, 0) := by
  simp only [← ofNat_ones_of_ne]
  exact s.yieldsWide_of rfl (vecOf_zip 32 (fun x y => noFlag (if x = y then 0 else 2 ^ 32 - 1)) _ _)

/-- Settles O43: each instruction lands one vector, whose elements are the outputs that the inputs select, the resolved
drivers and the lanes that differ. -/
theorem gateLogic : Obligations.GateLogic := by
  intro s t d q a b m
  exact ⟨s.vlut_yields d q b m, ⟨_, s.vres_yields d a b m, fun _ _ => resolved_spec _ _⟩, s.vevt_yields t d a b m⟩

end Sys2Proof.Machine
end

