-- ==== Sys2Proof/Proofs/DecodeEncode.lean ====
section
/-! PROOFS. Decoding what `encode` gives (R70, R71, R92): the obligation DecodeEncodeRoundTrip. -/

namespace Sys2Proof

/-! ### Bytes of a number, little-endian (R6) -/

theorem leBytes_length : ∀ n w : Nat, (leBytes n w).length = n
  | 0, _ => rfl
  | n + 1, w => by rw [leBytes, List.length_cons, leBytes_length n]

theorem leNat_leBytes : ∀ n w : Nat, leNat (leBytes n w) = w % 256 ^ n
  | 0, w => by rw [pow_zero, Nat.mod_one]; rfl
  | n + 1, w => by
    rw [leBytes, leNat, leNat_leBytes n, BitVec.toNat_ofNat,
      show 256 ^ (n + 1) = 256 * 256 ^ n from Nat.pow_succ', Nat.mod_mul]

theorem take_leBytes : ∀ m n w : Nat, (leBytes (m + n) w).take m = leBytes m w
  | 0, _, _ => by rw [List.take_zero]; rfl
  | m + 1, n, w => by
    rw [Nat.succ_add, leBytes, List.take_succ_cons, take_leBytes m, leBytes]

/-! ### The syllable at the head of its own bytes (R71) -/

theorem rawSyl_leBytes_long {w : Nat} (hl : fld w 1 1 = 1) (hw : w < 2 ^ 64) (rest : List Byte) :
    rawSyl (leBytes 8 w ++ rest) = { bits := w, stop := fld w 0 1 == 1, len := 8 } := by
  have h4 : (leBytes 8 w ++ rest).take 4 = leBytes 4 w := by
    rw [List.take_append_of_le_length (by rw [leBytes_length]; decide), take_leBytes 4 4]
  have h8 : (leBytes 8 w ++ rest).take 8 = leBytes 8 w := List.take_left' (leBytes_length 8 w)
  have hlow : fld (w % 256 ^ 4) 1 1 = fld w 1 1 ∧ fld (w % 256 ^ 4) 0 1 = fld w 0 1 := by unfold fld; omega
  unfold rawSyl
  rw [h4, h8, leNat_leBytes, leNat_leBytes]
  dsimp only
  rw [hlow.1, hlow.2, if_pos hl, show 256 ^ 8 = 2 ^ 64 from rfl, Nat.mod_eq_of_lt hw]

theorem rawSyl_leBytes_short {w : Nat} (hl : fld w 1 1 = 0) (hw : w < 2 ^ 32) (rest : List Byte) :
    rawSyl (leBytes 4 w ++ rest) = { bits := w, stop := fld w 0 1 == 1, len := 4 } := by
  have h4 : (leBytes 4 w ++ rest).take 4 = leBytes 4 w := List.take_left' (leBytes_length 4 w)
  unfold rawSyl
  rw [h4, leNat_leBytes]
  dsimp only
  rw [show 256 ^ 4 = 2 ^ 32 from rfl, Nat.mod_eq_of_lt hw, if_neg (by rw [hl]; decide)]

/-- The bits of a syllable, laid out at the length of its l bit, are what the decoder takes off the stream. -/
theorem decodeBytes_leBytes {w : Nat} {i : Instr}
    (hw : fld w 1 1 = 1 ∧ w < 2 ^ 64 ∨ fld w 1 1 = 0 ∧ w < 2 ^ 32) (hi : decodeSyl w = .ok i) (rest : List Byte) :
    decodeBytes (leBytes (if w / 2 % 2 = 1 then 8 else 4) w ++ rest) = .ok (i, fld w 0 1 == 1, rest) := by
  have hfld : fld w 1 1 = w / 2 % 2 := by unfold fld; omega
  unfold decodeBytes
  obtain ⟨hl, hlt⟩ | ⟨hl, hlt⟩ := hw
  · rw [if_pos (hfld ▸ hl), rawSyl_leBytes_long hl hlt]
    simp only [hi, List.drop_left' (leBytes_length 8 w)]
  · rw [if_neg (by omega), rawSyl_leBytes_short hl hlt]
    simp only [hi, List.drop_left' (leBytes_length 4 w)]

namespace Laws

/-- The s bit stands in bit 0 alone. -/
theorem Fits.add_stop {w : Nat} (h : Fits w) (stop : Bool) :
    (fld (w + stop.toNat) 0 1 == 1) = stop ∧ (fld (w + stop.toNat) 1 1 = 1 ∧ w + stop.toNat < 2 ^ 64
      ∨ fld (w + stop.toNat) 1 1 = 0 ∧ w + stop.toNat < 2 ^ 32) := by
  unfold Fits fld at h
  cases stop
  · unfold fld
    rw [beq_eq_false_iff_ne, Bool.toNat_false]
    omega
  · unfold fld
    rw [beq_iff_eq, Bool.toNat_true]
    omega

namespace RoundTrip

/-- Every instruction that has an encoding is what its encoding decodes to. -/
theorem every : ∀ i : Instr, Statement i
  | .pfx p => pfx p | .bundleRoute write far src => bundleRoute write far src | .add t d a b => add t d a b
  | .sub t d a b => sub t d a b | .mul t d a b => mul t d a b | .mulh t d a b => mulh t d a b
  | .div t d a b => div t d a b | .rem t d a b => rem t d a b | .and t d a b => and t d a b
  | .or t d a b => or t d a b | .xor t d a b => xor t d a b | .andn t d a b => andn t d a b
  | .shl t d a b => shl t d a b | .shr t d a b => shr t d a b | .sar t d a b => sar t d a b
  | .rot t d a b => rot t d a b | .min t d a b => min t d a b | .max t d a b => max t d a b
  | .ceq t d a b => ceq t d a b | .cne t d a b => cne t d a b | .clt t d a b => clt t d a b
  | .cle t d a b => cle t d a b | .sel d c a b => sel d c a b | .neg t d a => neg t d a
  | .abs t d a => abs t d a | .clz t d a => clz t d a | .popc t d a => popc t d a | .mov t d a => mov t d a
  | .rdsp d sv => rdsp d sv | .rdctl d cr => rdctl d cr | .wrctl cr a => wrctl cr a
  | .addImm z d a imm => addImm z d a imm | .mulImm z d a imm => mulImm z d a imm
  | .andImm z d a imm => andImm z d a imm | .orImm z d a imm => orImm z d a imm
  | .xorImm z d a imm => xorImm z d a imm | .shlImm z d a imm => shlImm z d a imm
  | .shrImm z d a imm => shrImm z d a imm | .sarImm z d a imm => sarImm z d a imm
  | .ceqImm z d a imm => ceqImm z d a imm | .cltImm z d a imm => cltImm z d a imm
  | .cleImm z d a imm => cleImm z d a imm | .minImm z d a imm => minImm z d a imm
  | .maxImm z d a imm => maxImm z d a imm | .movImm z d imm => movImm z d imm
  | .addLong t d a imm => addLong t d a imm | .mulLong t d a imm => mulLong t d a imm
  | .andLong t d a imm => andLong t d a imm | .orLong t d a imm => orLong t d a imm
  | .xorLong t d a imm => xorLong t d a imm | .ceqLong t d a imm => ceqLong t d a imm
  | .cltLong t d a imm => cltLong t d a imm | .cleLong t d a imm => cleLong t d a imm
  | .movLong t d imm => movLong t d imm | .movh t d a imm => movh t d a imm | .adr d imm => adr d imm
  | .lit d off => lit d off | .ld t d a b => ld t d a b | .st t v a b => st t v a b
  | .ldOffset t cls d a off => ldOffset t cls d a off | .stOffset t cls v a off => stOffset t cls v a off
  | .fenceK mask => fenceK mask | .amoAdd t cls d a b off => amoAdd t cls d a b off
  | .amoAnd t cls d a b off => amoAnd t cls d a b off | .amoOr t cls d a b off => amoOr t cls d a b off
  | .amoXor t cls d a b off => amoXor t cls d a b off | .amoMax t cls d a b off => amoMax t cls d a b off
  | .amoMin t cls d a b off => amoMin t cls d a b off | .amoSwap t cls d a b off => amoSwap t cls d a b off
  | .amoCas t cls d a b c off => amoCas t cls d a b c off | .amoFadd cls d a b off => amoFadd cls d a b off
  | .amoFmax cls d a b off => amoFmax cls d a b off | .amoFmin cls d a b off => amoFmin cls d a b off
  | .amoSadd t cls d a b off => amoSadd t cls d a b off | .br off => br off | .brz a off => brz a off
  | .brnz a off => brnz a off | .bany fs off => bany fs off | .ball fs off => ball fs off
  | .bnone fs off => bnone fs off | .bcntGe fs a off => bcntGe fs a off | .bcntLt fs a off => bcntLt fs a off
  | .call off => call off | .ret => ret | .jmp a => jmp a | .callr a => callr a
  | .loop lvl a off => loop lvl a off | .loopSw lvl a off => loopSw lvl a off | .loopClr mask => loopClr mask
  | .bskip off => bskip off | .btok st t off => btok st t off | .nop => nop | .halt => halt
  | .trap code => trap code | .tfence => tfence | .idem => idem | .idemChk off => idemChk off
  | .phase n => phase n | .ctxsw a => ctxsw a | .eret => eret | .icinv a => icinv a
  | .waitTok ts => waitTok ts | .waitAny a => waitAny a | .waitFold f ph => waitFold f ph
  | .arrive f a => arrive f a | .foldSetBytes f a => foldSetBytes f a | .foldSetArr f a => foldSetArr f a
  | .tokClr a => tokClr a | .yield => yield | .vaddF t d a b w => vaddF t d a b w
  | .vsubF t d a b w => vsubF t d a b w | .vmulF t d a b w => vmulF t d a b w | .vfma t d a b => vfma t d a b
  | .vfmaVw t d a b c ma mb mc => vfmaVw t d a b c ma mb mc | .vmaxF t d a b w => vmaxF t d a b w
  | .vminF t d a b w => vminF t d a b w | .vabsF t d a w => vabsF t d a w | .vnegF t d a w => vnegF t d a w
  | .vsqrt t d a w => vsqrt t d a w | .vdiv t d a b w => vdiv t d a b w | .vaddI t d a b w => vaddI t d a b w
  | .vsubI t d a b w => vsubI t d a b w | .vmulI t d a b w => vmulI t d a b w
  | .vmulh t d a b w => vmulh t d a b w | .vand t d a b w => vand t d a b w | .vor t d a b w => vor t d a b w
  | .vxor t d a b w => vxor t d a b w | .vandn t d a b w => vandn t d a b w
  | .vshl t d a b w => vshl t d a b w | .vshr t d a b w => vshr t d a b w | .vsar t d a b w => vsar t d a b w
  | .vminI t d a b w => vminI t d a b w | .vmaxI t d a b w => vmaxI t d a b w
  | .vabsI t d a w => vabsI t d a w | .vnegI t d a w => vnegI t d a w | .vsel d c a b w => vsel d c a b w
  | .vmov d a w => vmov d a w | .vbcast t d a wide => vbcast t d a wide | .vceq t d a b w => vceq t d a b w
  | .vcne t d a b w => vcne t d a b w | .vclt t d a b w => vclt t d a b w | .vcle t d a b w => vcle t d a b w
  | .vcun t d a b w => vcun t d a b w | .mpush a w => mpush a w | .minv wide => minv wide
  | .mpop wide => mpop wide | .mset a w => mset a w | .mget d wide => mget d wide
  | .vcvt dt st d a w => vcvt dt st d a w | .vquant dt d a b w => vquant dt d a b w
  | .vpack t d a b w => vpack t d a b w | .vunpk t d a w => vunpk t d a w | .vlut d a b w => vlut d a b w
  | .vevt t d a b w => vevt t d a b w | .vres d a b w => vres d a b w | .vttw a b wide => vttw a b wide
  | .vld d a b w => vld d a b w | .vldImm d a m => vldImm d a m | .vst v a b w => vst v a b w
  | .vstImm v a m => vstImm v a m | .vldi d a b w => vldi d a b w | .vsti v a b w => vsti v a b w
  | .scanAdd t red d a w => scanAdd t red d a w | .scanMin t red d a w => scanMin t red d a w
  | .scanMax t red d a w => scanMax t red d a w | .scanMini t red d a b w => scanMini t red d a b w
  | .scanMaxi t red d a b w => scanMaxi t red d a b w | .scanAnd red d a w => scanAnd red d a w
  | .scanOr red d a w => scanOr red d a w | .scanXor red d a w => scanXor red d a w
  | .scanFirst red d a w => scanFirst red d a w | .scanLast red d a w => scanLast red d a w
  | .compress d a w => compress d a w | .expand d a w => expand d a w | .rteLd xd off => rteLd xd off
  | .rteBpc xd a => rteBpc xd a | .rteSolve xd sd va sp => rteSolve xd sd va sp | .rteMv xd xa => rteMv xd xa
  | .rtePass vd va sp => rtePass vd va sp | .rteSt a xs => rteSt a xs | .cpBb d a b dep => cpBb d a b dep
  | .cpPb d a b dep => cpPb d a b dep | .cpBp d a b dep => cpBp d a b dep | .cpBo d a b dep => cpBo d a b dep
  | .cpRs dep => cpRs dep | .mwld m a b c ch dep => mwld m a b c ch dep
  | .mmul m a b c ch dep => mmul m a b c ch dep | .mdrn m a b c dep => mdrn m a b c dep
  | .mresume m dep => mresume m dep | .mdist m a b c ch dep => mdist m a b c ch dep
  | .mcent m a b c ch dep => mcent m a b c ch dep | .mbest m a b dep => mbest m a b dep
  | .mcdrn m a b c dep => mcdrn m a b c dep | .slotClaim o dep => slotClaim o dep
  | .slotRelease o dep => slotRelease o dep | .slotShape o a dep => slotShape o a dep
  | .slotZero o dep => slotZero o dep | .rld cls d a w dep => rld cls d a w dep
  | .rst cls a b w dep => rst cls a b w dep | .rcpGet cls d a b dep => rcpGet cls d a b dep
  | .rcpPut cls d a b dep => rcpPut cls d a b dep | .rcpRs dep => rcpRs dep
  | .rsig cls d a dep => rsig cls d a dep | .rsigRel cls d a dep => rsigRel cls d a dep
  | .amoAddFar cls d a b dep => amoAddFar cls d a b dep | .amoAndFar cls d a b dep => amoAndFar cls d a b dep
  | .amoOrFar cls d a b dep => amoOrFar cls d a b dep | .amoXorFar cls d a b dep => amoXorFar cls d a b dep
  | .amoMaxFar cls d a b dep => amoMaxFar cls d a b dep | .amoMinFar cls d a b dep => amoMinFar cls d a b dep
  | .amoFaddFar cls d a b dep => amoFaddFar cls d a b dep
  | .amoFmaxFar cls d a b dep => amoFmaxFar cls d a b dep
  | .amoFminFar cls d a b dep => amoFminFar cls d a b dep
  | .amoSaddFar cls d a b dep => amoSaddFar cls d a b dep
  | .amoSwapFar cls d a b dep => amoSwapFar cls d a b dep
  | .amoCasFar cls d a b dep => amoCasFar cls d a b dep | .hops d a b => hops d a b
  | .mcst n a b w dep => mcst n a b w dep | .mcstSt n a b w dep => mcstSt n a b w dep
  | .pbar cls ch dep => pbar cls ch dep | .mwin n a dep => mwin n a dep | .bundleIssue => bundleIssue
  | .quantumExpiry => quantumExpiry | .tagWaitLimit => tagWaitLimit | .resultLanding => resultLanding
  | .bankAccessPerform => bankAccessPerform | .farGroupArrival => farGroupArrival
  | .waitConditionMet => waitConditionMet | .heldBundleRelease => heldBundleRelease
  | .taskLaunchStart => taskLaunchStart | .taskEnd => taskEnd | .spillRefillComplete => spillRefillComplete
  | .ctxswComplete => ctxswComplete | .cutBack => cutBack | .cutBackSaveEnd => cutBackSaveEnd
  | .arrivePerform => arrivePerform | .foldSetPerform => foldSetPerform | .engineOpStart => engineOpStart
  | .engineOpComplete => engineOpComplete | .engineOpError => engineOpError
  | .copyUnitCommit => copyUnitCommit | .copyTagWaitLimit => copyTagWaitLimit
  | .followOnIssue => followOnIssue | .translationWalkComplete => translationWalkComplete
  | .migratingLeafRewalk => migratingLeafRewalk | .mmuResolveRetry => mmuResolveRetry
  | .mmuResolveFail => mmuResolveFail | .mmuResolveRefuse => mmuResolveRefuse | .mmuInval => mmuInval
  | .fillBegin => fillBegin | .fillComplete => fillComplete | .refreshWindowOpen => refreshWindowOpen
  | .refreshWindowClose => refreshWindowClose | .stationForcedRefresh => stationForcedRefresh
  | .fillCalWrite => fillCalWrite | .channelRedeal => channelRedeal | .ucieFlitCrcFail => ucieFlitCrcFail
  | .stationParityDiscard => stationParityDiscard | .remoteAccessSend => remoteAccessSend
  | .remoteAccessCommit => remoteAccessCommit | .remoteReplyArrival => remoteReplyArrival
  | .retryAfterExpiry => retryAfterExpiry | .remoteTimeout => remoteTimeout | .stMigWrite => stMigWrite
  | .mcstArrival => mcstArrival | .mcstLanding => mcstLanding | .pbarArrivalSend => pbarArrivalSend
  | .pbarRootCount => pbarRootCount | .pbarRelease => pbarRelease | .pbCtlWrite => pbCtlWrite
  | .syncRecal => syncRecal | .syncLock => syncLock | .serviceChange => serviceChange
  | .leaderElection => leaderElection | .qTailWrite => qTailWrite | .launchPacket => launchPacket
  | .copyPacket => copyPacket | .fencePacket => fencePacket | .fenceReread => fenceReread
  | .signalPacket => signalPacket | .markPacket => markPacket | .qRheadWrite => qRheadWrite
  | .qCtlWrite => qCtlWrite | .ctxPreWrite => ctxPreWrite | .winRelWrite => winRelWrite
  | .dieReset => dieReset | .svnCommit => svnCommit | .featureLock => featureLock
  | .attestationRequest => attestationRequest | .thermalShutdown => thermalShutdown
  | .stewardBankAccess => stewardBankAccess | .keyDelivery => keyDelivery
  | .partitionDissolve => partitionDissolve | .panelReset => panelReset
  | .rejoinDelayExpiry => rejoinDelayExpiry | .incarnationAnnouncement => incarnationAnnouncement
  | .flitReceive => flitReceive | .linkReplay => linkReplay | .lackIdleFlit => lackIdleFlit
  | .lnkModeWrite => lnkModeWrite | .modeRequestTimeout => modeRequestTimeout | .slotSend => slotSend
  | .slotForward => slotForward | .slotArrival => slotArrival | .slotAckArrival => slotAckArrival
  | .refusalNoticeArrival => refusalNoticeArrival | .fabricRetryAfterExpiry => fabricRetryAfterExpiry
  | .grantArrival => grantArrival | .drainMarkerArrival => drainMarkerArrival
  | .slotResendTimeout => slotResendTimeout | .slotPortWaitExpiry => slotPortWaitExpiry
  | .ringRelockStart => ringRelockStart | .ringRelockEnd => ringRelockEnd
  | .wavelengthRetire => wavelengthRetire | .setup => setup | .ack => ack | .nak => nak | .tear => tear
  | .tearAck => tearAck | .reservationTimeout => reservationTimeout | .setupTimeout => setupTimeout
  | .backOffExpiry => backOffExpiry | .pathLit => pathLit | .lightingTimeout => lightingTimeout
  | .tearingTimeout => tearingTimeout | .pathSetupRequest => pathSetupRequest
  | .pathTearRequest => pathTearRequest | .fabHoldSet => fabHoldSet | .fabHoldClear => fabHoldClear
  | .qpLoad => qpLoad | .qpReset => qpReset | .qpError => qpError | .doorbellWrite => doorbellWrite
  | .workEntryServe => workEntryServe | .registerWrite => registerWrite | .powerThrottle => powerThrottle
  | .stewardPanelAccess => stewardPanelAccess | .wavelengthSignalLoss => wavelengthSignalLoss

end RoundTrip

end Laws

/-- Settles O2: each encoded form is decoded to the instruction whatever the s bit is, and bytes carry the bits at the
length that the l bit gives. -/
theorem decodeEncodeRoundTrip : Obligations.DecodeEncodeRoundTrip := by
  intro i stop w rest hwf he
  obtain ⟨v, hv, rfl⟩ := Option.map_eq_some_iff.mp he
  obtain ⟨hfits, hdec⟩ := Laws.RoundTrip.every i v hv hwf
  obtain ⟨hstop, hlen⟩ := hfits.add_stop stop
  rw [decodeBytes_leBytes hlen (hdec _ (Bool.toNat_lt stop)), hstop]

end Sys2Proof
end

