-- ==== Sys2Proof/Proofs/Decoder.lean ====
section
/-! PROOFS. What the decoder answers (R91, R92): the obligations DecodedIsWellFormed and AssignedEncodings. -/

namespace Sys2Proof

/-! ### What a decoder accepts -/

/-- Whatever a decoder answers has the property. -/
def Accepts {α : Type} (P : α → Prop) (x : Except Reject α) : Prop := ∀ a, x = .ok a → P a

namespace Accepts

variable {α β : Type} {P : β → Prop} {Q : α → Prop} {x : Except Reject α} {f : α → Except Reject β}

theorem ok {b : β} (h : P b) : Accepts P (.ok b) := by
  intro a ha
  cases ha
  exact h

theorem error {e : Reject} : Accepts P (.error e) := by
  intro a ha
  cases ha

theorem bind (hx : Accepts Q x) (hf : ∀ a, Q a → Accepts P (f a)) : Accepts P (x >>= f) := by
  cases x with
  | error e => exact error
  | ok a => exact hf a (hx a rfl)

theorem step (hf : ∀ a, Accepts P (f a)) : Accepts P (x >>= f) := bind (Q := fun _ => True) (fun _ _ => trivial) fun a _ => hf a

theorem ite {c : Prop} [Decidable c] {y z : Except Reject β} (hy : c → Accepts P y) (hz : ¬c → Accepts P z) :
    Accepts P (if c then y else z) := by
  split
  · exact hy ‹_›
  · exact hz ‹_›

end Accepts

theorem guardOr_accepts (c : Bool) (e : Reject) : Accepts (fun _ => c = true) (guardOr c e) :=
  .ite (fun h => .ok h) fun _ => .error

theorem decTy_accepts (ok : Ty → Bool) (n : Nat) : Accepts (fun t => ok t = true) (decTy ok n) := by
  unfold decTy
  split
  · exact .ite (fun h => .ok h) fun _ => .error
  · exact .error

theorem needL_accepts (w l : Nat) : Accepts (fun _ => fld w 1 1 = l) (needL w l) := by
  intro a h
  exact beq_iff_eq.mp (guardOr_accepts _ _ a h)

theorem ofNat_fld_ne_zero {w lo n : Nat} (h : (fld w lo n != 0) = true) : (BitVec.ofNat n (fld w lo n) != 0) = true := by
  rw [bne_iff_ne] at h ⊢
  intro e
  have hz := congrArg BitVec.toNat e
  rw [BitVec.toNat_ofNat, fld, Nat.mod_mod] at hz
  exact h hz

/-! ### The shared decoders -/

section

variable {P : Instr → Prop} (w : Nat) {ok : Ty → Bool}

theorem decTab_accepts {k : Ty → Dst → Src → Src → Instr} (h : ∀ t d a b, t.isScalarInt = true → P (k t d a b)) :
    Accepts P (decTab w k) :=
  .step fun _ => .bind (decTy_accepts _ _) fun _ ht => .step fun _ => .ok (h _ _ _ _ ht)

theorem decTa_accepts {k : Ty → Dst → Src → Instr} (h : ∀ t d a, t.isScalarInt = true → P (k t d a)) :
    Accepts P (decTa w k) :=
  .step fun _ => .step fun _ => .bind (decTy_accepts _ _) fun _ ht => .step fun _ => .ok (h _ _ _ ht)

theorem decImm_accepts {k : Bool → Dst → Src → BitVec 9 → Instr} (h : ∀ z d a, P (k z d a (BitVec.ofNat 9 (fld w 22 9)))) :
    Accepts P (decImm w k) :=
  .step fun _ => .ok (h _ _ _)

theorem decImmSh_accepts {k : Bool → Dst → Src → BitVec 9 → Instr} (h : ∀ z d a i, i.toNat < 64 → P (k z d a i)) :
    Accepts P (decImmSh w k) :=
  .bind (guardOr_accepts _ _) fun _ hn => decImm_accepts w fun _ _ _ => h _ _ _ _ (by
    have := of_decide_eq_true hn
    rw [BitVec.toNat_ofNat]
    omega)

theorem decL_accepts {k : Ty → Dst → Src → BitVec 32 → Instr} (h : ∀ t d a i, ok t = true → P (k t d a i)) :
    Accepts P (decL w ok k) :=
  .step fun _ => .step fun _ => .bind (decTy_accepts _ _) fun _ ht => .step fun _ => .ok (h _ _ _ _ ht)

theorem decAmo_accepts {k : Ty → Fin 16 → Dst → Src → Src → BitVec 16 → Instr}
    (h : ∀ t c d a b o, ok t = true → P (k t c d a b o)) : Accepts P (decAmo w ok k) :=
  .step fun _ => .step fun _ => .step fun _ => .step fun _ => .bind (decTy_accepts _ _) fun _ ht => .step fun _ =>
    .ok (h _ _ _ _ _ _ ht)

theorem decVab_accepts {k : Ty → Dst → Src → Src → Option (Mod × Mod) → Instr}
    (h : ∀ t d a b m, ok t = true → P (k t d a b m)) : Accepts P (decVab w ok k) :=
  .step fun _ => .bind (decTy_accepts _ _) fun _ ht => .step fun _ => .step fun _ => .ok (h _ _ _ _ _ ht)

theorem decVa_accepts {k : Ty → Dst → Src → Option Mod → Instr} (h : ∀ t d a m, ok t = true → P (k t d a m)) :
    Accepts P (decVa w ok k) :=
  .step fun _ => .step fun _ => .bind (decTy_accepts _ _) fun _ ht => .step fun _ => .step fun _ => .ok (h _ _ _ _ ht)

theorem decScanT_accepts {k : Ty → Bool → Dst → Src → Option ScanExt → Instr}
    (h : ∀ t r d a e, t.isScan = true → P (k t r d a e)) : Accepts P (decScanT w k) :=
  .step fun _ => .bind (decTy_accepts _ _) fun _ ht => .step fun _ => .step fun _ => .ok (h _ _ _ _ _ ht)

theorem decScanArg_accepts {k : Ty → Bool → Dst → Src → Src → Option ScanArgExt → Instr}
    (h : ∀ t r d a b e, t.isScan = true → P (k t r d a b e)) : Accepts P (decScanArg w k) :=
  .bind (decTy_accepts _ _) fun _ ht => .step fun _ => .step fun _ => .ok (h _ _ _ _ _ _ ht)

theorem decScanU_accepts {k : Bool → Dst → Src → Option ScanExt → Instr} (h : ∀ r d a e, P (k r d a e)) :
    Accepts P (decScanU w k) :=
  .step fun _ => .step fun _ => .step fun _ => .ok (h _ _ _ _)

theorem decAmoFar_accepts {k : Fin 16 → Src → Src → Src → Deps → Instr} (h : ∀ c d a e, P (k c d a (arrC w) e)) :
    Accepts P (decAmoFar w k) :=
  .step fun _ => .step fun _ => .ok (h _ _ _ _)

end

/-! ### Major by major, what is decoded is a well-formed syllable -/

/-- A well-formed syllable. -/
def Instr.Legal (i : Instr) : Prop := i.wf = true ∧ i.isSyllable = true

theorem decPfx_legal (w : Nat) : Accepts Instr.Legal (decPfx w) :=
  .step fun _ => .step fun _ => .step fun _ => .step fun _ => .step fun _ => .ok ⟨rfl, rfl⟩

theorem decInt_legal (w : Nat) : Accepts Instr.Legal (decInt w) := by
  refine .step fun _ => ?_
  split
  iterate 20
    next => exact decTab_accepts w fun _ _ _ _ ht => ⟨ht, rfl⟩
  · exact .step fun _ => .ok ⟨rfl, rfl⟩
  iterate 5
    next => exact decTa_accepts w fun _ _ _ ht => ⟨ht, rfl⟩
  · exact .step fun _ => .step fun _ => .step fun _ => .ok ⟨rfl, rfl⟩
  · exact .step fun _ => .step fun _ => .step fun _ => .ok ⟨rfl, rfl⟩
  · exact .step fun _ => .step fun _ => .bind (guardOr_accepts _ _) fun _ hc => .ok ⟨hc, rfl⟩
  · exact .error

theorem decIntImm_legal (w : Nat) : Accepts Instr.Legal (decIntImm w) := by
  refine .step fun _ => ?_
  split
  iterate 5
    next => exact decImm_accepts w fun _ _ _ => ⟨rfl, rfl⟩
  iterate 3
    next => exact decImmSh_accepts w fun _ _ _ _ hi => ⟨decide_eq_true hi, rfl⟩
  iterate 5
    next => exact decImm_accepts w fun _ _ _ => ⟨rfl, rfl⟩
  · exact .step fun _ => .step fun _ => .ok ⟨rfl, rfl⟩
  · exact .error

theorem decIntLong_legal (w : Nat) : Accepts Instr.Legal (decIntLong w) := by
  refine .step fun _ => ?_
  split
  iterate 8
    next => exact decL_accepts w fun _ _ _ _ ht => ⟨ht, rfl⟩
  · exact .step fun _ => decL_accepts w fun _ _ _ _ ht => ⟨ht, rfl⟩
  · exact decL_accepts w fun _ _ _ _ ht => ⟨ht, rfl⟩
  · exact .step fun _ => decL_accepts w fun _ _ _ _ _ => ⟨rfl, rfl⟩
  · exact .error

theorem decMem_legal (w : Nat) : Accepts Instr.Legal (decMem w) := by
  unfold decMem
  split
  · exact .step fun _ => decTab_accepts w fun _ _ _ _ ht => ⟨ht, rfl⟩
  · exact .step fun _ => .step fun _ => .bind (decTy_accepts _ _) fun _ ht => .ok ⟨ht, rfl⟩
  · exact .step fun _ => .step fun _ => .step fun _ => .bind (decTy_accepts _ _) fun _ ht => .step fun _ => .ok ⟨ht, rfl⟩
  · exact .step fun _ => .step fun _ => .step fun _ => .bind (decTy_accepts _ _) fun _ ht => .ok ⟨ht, rfl⟩
  · exact .step fun _ => .step fun _ => .ok ⟨rfl, rfl⟩
  · exact .error

theorem decAmos_legal (w : Nat) : Accepts Instr.Legal (decAmos w) := by
  unfold decAmos
  split
  iterate 7
    next => exact decAmo_accepts w fun _ _ _ _ _ _ ht => ⟨ht, rfl⟩
  · exact .step fun _ => .step fun _ => .step fun _ => .step fun _ => .bind (decTy_accepts _ _) fun _ ht =>
      .step fun _ => .ok ⟨ht, rfl⟩
  iterate 3
    next => exact decAmo_accepts w fun _ _ _ _ _ _ _ => ⟨rfl, rfl⟩
  · exact decAmo_accepts w fun _ _ _ _ _ _ ht => ⟨ht, rfl⟩
  · exact .error

theorem decBranch_legal (w : Nat) : Accepts Instr.Legal (decBranch w) := by
  refine .step fun _ => ?_
  split
  iterate 3
    next => exact .ok ⟨rfl, rfl⟩
  iterate 3
    next => exact .step fun _ => .ok ⟨rfl, rfl⟩
  · exact .step fun _ => .ite (fun _ => .ok ⟨rfl, rfl⟩) fun _ => .ok ⟨rfl, rfl⟩
  · exact .ok ⟨rfl, rfl⟩
  · exact .step fun _ => .ok ⟨rfl, rfl⟩
  iterate 2
    next => exact .step fun _ => .step fun _ => .ok ⟨rfl, rfl⟩
  · refine .step fun _ => .bind (guardOr_accepts _ _) fun _ hn => ?_
    have hoff := ofNat_fld_ne_zero hn
    exact .ite (fun _ => .ok ⟨hoff, rfl⟩) fun _ => .ok ⟨hoff, rfl⟩
  iterate 2
    next => exact .step fun _ => .ok ⟨rfl, rfl⟩
  · exact .ok ⟨rfl, rfl⟩
  · exact .error

theorem decSystem_legal (w : Nat) : Accepts Instr.Legal (decSystem w) := by
  refine .step fun _ => ?_
  split
  iterate 4
    next => exact .step fun _ => .ok ⟨rfl, rfl⟩
  · exact .step fun _ => .ite (fun _ => .step fun _ => .ok ⟨rfl, rfl⟩) fun _ => .ok ⟨rfl, rfl⟩
  · exact .step fun _ => .ok ⟨rfl, rfl⟩
  · exact .step fun _ => .step fun _ => .ok ⟨rfl, rfl⟩
  · exact .step fun _ => .ok ⟨rfl, rfl⟩
  · exact .step fun _ => .step fun _ => .ok ⟨rfl, rfl⟩
  · exact .error

theorem decWait_legal (w : Nat) : Accepts Instr.Legal (decWait w) := by
  refine .step fun _ => ?_
  split
  · dsimp only
    split
    · exact .step fun _ => .ok ⟨rfl, rfl⟩
    · exact .step fun _ => .ok ⟨rfl, rfl⟩
    · exact .ok ⟨rfl, rfl⟩
    · exact .error
  · exact .step fun _ => .step fun _ => .ok ⟨rfl, rfl⟩
  · exact .step fun _ => .ok ⟨rfl, rfl⟩
  · exact .step fun _ => .step fun _ => .ok ⟨rfl, rfl⟩
  · exact .step fun _ => .step fun _ => .ite (fun _ => .ok ⟨rfl, rfl⟩) fun _ => .ok ⟨rfl, rfl⟩
  · exact .step fun _ => .step fun _ => .ok ⟨rfl, rfl⟩
  · exact .step fun _ => .ok ⟨rfl, rfl⟩
  · exact .error

theorem decVFloat_legal (w : Nat) : Accepts Instr.Legal (decVFloat w) := by
  unfold decVFloat
  split
  iterate 3
    next => exact decVab_accepts w fun _ _ _ _ _ ht => ⟨ht, rfl⟩
  · refine .step fun _ => .bind (decTy_accepts _ _) fun _ ht => .ite (fun _ => ?_) fun _ => ?_
    · exact .step fun _ => .step fun _ => .ok ⟨ht, rfl⟩
    · exact .step fun _ => .ok ⟨ht, rfl⟩
  iterate 2
    next => exact decVab_accepts w fun _ _ _ _ _ ht => ⟨ht, rfl⟩
  iterate 3
    next => exact decVa_accepts w fun _ _ _ _ ht => ⟨ht, rfl⟩
  · exact decVab_accepts w fun _ _ _ _ _ ht => ⟨ht, rfl⟩
  · exact .error

theorem decVInt_legal (w : Nat) : Accepts Instr.Legal (decVInt w) := by
  unfold decVInt
  split
  iterate 13
    next => exact decVab_accepts w fun _ _ _ _ _ ht => ⟨ht, rfl⟩
  iterate 2
    next => exact decVa_accepts w fun _ _ _ _ ht => ⟨ht, rfl⟩
  · exact .step fun _ => .ite (fun _ => .step fun _ => .ok ⟨rfl, rfl⟩) fun _ => .ok ⟨rfl, rfl⟩
  · exact .step fun _ => .step fun _ => .step fun _ => .ok ⟨rfl, rfl⟩
  · exact .step fun _ => .step fun _ => .bind (decTy_accepts _ _) fun _ ht => .step fun _ => .step fun _ => .ok ⟨ht, rfl⟩
  · exact .error

theorem decVCmp_legal (w : Nat) : Accepts Instr.Legal (decVCmp w) := by
  unfold decVCmp
  split
  iterate 5
    next => exact decVab_accepts w fun _ _ _ _ _ ht => ⟨ht, rfl⟩
  · exact .step fun _ => .step fun _ => .step fun _ => .ok ⟨rfl, rfl⟩
  iterate 2
    next => exact .step fun _ => .step fun _ => .ok ⟨rfl, rfl⟩
  iterate 2
    next => exact .step fun _ => .step fun _ => .step fun _ => .ok ⟨rfl, rfl⟩
  · exact .error

theorem decVCvt_legal (w : Nat) : Accepts Instr.Legal (decVCvt w) := by
  unfold decVCvt
  split
  · refine .step fun _ => .step fun _ => .bind (decTy_accepts _ _) fun _ ht => .bind (decTy_accepts _ _) fun _ hs =>
      .step fun _ => .step fun h => ?_
    split
    · exact .ok ⟨by simp [Instr.wf, ht, hs], rfl⟩
    · exact .bind (guardOr_accepts _ _) fun _ hp => .ok ⟨by simp [Instr.wf, ht, hs, of_decide_eq_true hp], rfl⟩
  iterate 2
    next => exact decVab_accepts w fun _ _ _ _ _ ht => ⟨ht, rfl⟩
  · refine .step fun _ => .step fun _ => .bind (decTy_accepts _ _) fun _ ht => .step fun _ => .step fun h => ?_
    split
    · exact .ok ⟨by simp [Instr.wf, ht], rfl⟩
    · exact .bind (guardOr_accepts _ _) fun _ hp => .ok ⟨by simp [Instr.wf, ht, of_decide_eq_true hp], rfl⟩
  · exact .error

theorem decVLogic_legal (w : Nat) : Accepts Instr.Legal (decVLogic w) := by
  unfold decVLogic
  split
  · exact .step fun _ => .step fun _ => .step fun _ => .step fun _ => .step fun _ => .ok ⟨rfl, rfl⟩
  · exact .step fun _ => .bind (decTy_accepts _ _) fun _ ht => .step fun _ => .step fun _ => .ok ⟨ht, rfl⟩
  · exact .step fun _ => .step fun _ => .step fun _ => .step fun _ => .ok ⟨rfl, rfl⟩
  · exact .step fun _ => .step fun _ => .step fun _ => .ok ⟨rfl, rfl⟩
  · exact .error

theorem decVMem_legal (w : Nat) : Accepts Instr.Legal (decVMem w) := by
  refine .step fun _ => ?_
  split
  · refine .step fun _ => .ite (fun _ => .step fun _ => .ite (fun _ => ?_) fun _ => ?_) fun _ => .ok ⟨rfl, rfl⟩
    · exact .step fun _ => .ok ⟨rfl, rfl⟩
    · exact .ok ⟨rfl, rfl⟩
  · refine .ite (fun _ => .step fun _ => .ite (fun _ => ?_) fun _ => ?_) fun _ => .ok ⟨rfl, rfl⟩
    · exact .step fun _ => .ok ⟨rfl, rfl⟩
    · exact .ok ⟨rfl, rfl⟩
  · exact .step fun _ => .ite (fun _ => .step fun _ => .step fun _ => .ok ⟨rfl, rfl⟩) fun _ => .ok ⟨rfl, rfl⟩
  · exact .ite (fun _ => .step fun _ => .step fun _ => .ok ⟨rfl, rfl⟩) fun _ => .ok ⟨rfl, rfl⟩
  · exact .error

theorem decScan_legal (w : Nat) : Accepts Instr.Legal (decScan w) := by
  unfold decScan
  split
  iterate 3
    next => exact decScanT_accepts w fun _ _ _ _ _ ht => ⟨ht, rfl⟩
  iterate 2
    next => exact decScanArg_accepts w fun _ _ _ _ _ _ ht => ⟨ht, rfl⟩
  iterate 5
    next => exact decScanU_accepts w fun _ _ _ _ => ⟨rfl, rfl⟩
  iterate 2
    next => exact .step fun _ => .step fun _ => .step fun _ => .ok ⟨rfl, rfl⟩
  · exact .error

theorem decRoute_legal (w : Nat) : Accepts Instr.Legal (decRoute w) := by
  refine .step fun _ => ?_
  dsimp only
  split
  · exact .ok ⟨rfl, rfl⟩
  iterate 3
    next => exact .step fun _ => .ok ⟨rfl, rfl⟩
  · exact .step fun _ => .step fun _ => .ok ⟨rfl, rfl⟩
  · exact .step fun _ => .ok ⟨rfl, rfl⟩
  · exact .error

theorem decCopy_legal (w : Nat) : Accepts Instr.Legal (decCopy w) := by
  refine .step fun _ => ?_
  dsimp only
  split
  iterate 5
    next => exact .step fun _ => .step fun _ => .ok ⟨rfl, rfl⟩
  · exact .error

theorem decMatrix_legal (w : Nat) : Accepts Instr.Legal (decMatrix w) := by
  refine .step fun _ => ?_
  split
  iterate 2
    next => exact .step fun _ => .ok ⟨rfl, rfl⟩
  iterate 2
    next => exact .step fun _ => .step fun _ => .ok ⟨rfl, rfl⟩
  · exact .error

theorem decDistance_legal (w : Nat) : Accepts Instr.Legal (decDistance w) := by
  refine .step fun _ => ?_
  split
  iterate 2
    next => exact .step fun _ => .ok ⟨rfl, rfl⟩
  iterate 2
    next => exact .step fun _ => .step fun _ => .ok ⟨rfl, rfl⟩
  · exact .error

theorem decSlot_legal (w : Nat) : Accepts Instr.Legal (decSlot w) := by
  refine .step fun _ => ?_
  dsimp only
  split
  iterate 4
    next => exact .step fun _ => .step fun _ => .ok ⟨rfl, rfl⟩
  · exact .error

theorem decRemote_legal (w : Nat) : Accepts Instr.Legal (decRemote w) := by
  refine .step fun _ => ?_
  split
  iterate 2
    next => exact .step fun _ => .step fun _ => .ok ⟨rfl, rfl⟩
  · exact .step fun _ => .ite (fun _ => .ok ⟨rfl, rfl⟩) fun _ => .ok ⟨rfl, rfl⟩
  · exact .step fun _ => .step fun _ => .ok ⟨rfl, rfl⟩
  · exact .step fun _ => .step fun _ => .ite (fun _ => .ok ⟨rfl, rfl⟩) fun _ => .ok ⟨rfl, rfl⟩
  iterate 11
    next => exact decAmoFar_accepts w fun _ _ _ _ => ⟨rfl, rfl⟩
  · exact .bind (guardOr_accepts _ _) fun _ hp => decAmoFar_accepts w fun _ _ _ _ => ⟨hp, rfl⟩
  · exact .error

theorem decPanel_legal (w : Nat) : Accepts Instr.Legal (decPanel w) := by
  unfold decPanel
  dsimp only
  split
  · exact .step fun _ => .step fun _ => .step fun _ => .ok ⟨rfl, rfl⟩
  · exact .step fun _ => .step fun _ => .step fun _ => .bind (guardOr_accepts _ _) fun _ he =>
      .ite (fun _ => .ok ⟨he, rfl⟩) fun _ => .ok ⟨he, rfl⟩
  · exact .step fun _ => .step fun _ => .step fun _ => .ok ⟨rfl, rfl⟩
  · exact .step fun _ => .step fun _ => .step fun _ => .step fun _ => .step fun _ => .ok ⟨rfl, rfl⟩
  · exact .error

theorem decBundleRoute_legal (w : Nat) : Accepts Instr.Legal (decBundleRoute w) := by
  refine .step fun _ => .step fun _ => ?_
  dsimp only
  split
  · exact .step fun _ => .ok ⟨rfl, rfl⟩
  · exact .bind (guardOr_accepts _ _) fun _ hv => .ok ⟨hv, rfl⟩
  · exact .step fun _ => .bind (guardOr_accepts _ _) fun _ hn => .ok ⟨ofNat_fld_ne_zero hn, rfl⟩
  · exact .step fun _ => .ok ⟨rfl, rfl⟩

theorem decodeSyl_legal (w : Nat) : Accepts Instr.Legal (decodeSyl w) := by
  unfold decodeSyl
  split
  · exact decPfx_legal w
  · exact decInt_legal w
  · exact decIntImm_legal w
  · exact decIntLong_legal w
  · exact .step fun _ => .step fun _ => .step fun _ => .ok ⟨rfl, rfl⟩
  · exact decMem_legal w
  · exact decAmos_legal w
  · exact decBranch_legal w
  · exact decSystem_legal w
  · exact decWait_legal w
  · exact decVFloat_legal w
  · exact decVInt_legal w
  · exact decVCmp_legal w
  · exact decVCvt_legal w
  · exact decVLogic_legal w
  · exact decVMem_legal w
  · exact decScan_legal w
  · exact decRoute_legal w
  · exact decCopy_legal w
  · exact decMatrix_legal w
  · exact decDistance_legal w
  · exact decSlot_legal w
  · exact decRemote_legal w
  · exact decPanel_legal w
  · exact decBundleRoute_legal w
  · exact .error

/-- Settles O3: every arm of the decoder makes the checks of the instruction it builds before it answers. -/
theorem decodedIsWellFormed : Obligations.DecodedIsWellFormed := fun w i h => decodeSyl_legal w i h

/-! ### The minors and the lengths of each major (R91) -/

/-- The minors of a major and the length that its syllables have. -/
def Among (w n : Nat) (long : Bool) (_ : Instr) : Prop := w / 128 % 32 < n ∧ decide (w / 2 % 2 = 1) = long

theorem long_of_fld {w : Nat} (l : Bool) (h : fld w 1 1 = l.toNat) : decide (w / 2 % 2 = 1) = l := by
  have e : w / 2 % 2 = l.toNat := h
  rw [e]
  cases l <;> rfl

theorem needL_long (w : Nat) (l : Bool) : Accepts (fun _ => decide (w / 2 % 2 = 1) = l) (needL w l.toNat) := by
  intro a h
  exact long_of_fld l (needL_accepts _ _ a h)

theorem minor_of_fld {w k n : Nat} (h : fld w 7 5 = k) (hn : k < n) : w / 128 % 32 < n := by
  subst h
  exact hn

theorem decInt_among (w : Nat) : Accepts (Among w 29 false) (decInt w) := by
  refine .bind (needL_long w false) fun _ hl => ?_
  split
  case h_30 => exact .error
  all_goals exact fun _ _ => ⟨minor_of_fld ‹_› (by decide), hl⟩

theorem decIntImm_among (w : Nat) : Accepts (Among w 14 false) (decIntImm w) := by
  refine .bind (needL_long w false) fun _ hl => ?_
  split
  case h_15 => exact .error
  all_goals exact fun _ _ => ⟨minor_of_fld ‹_› (by decide), hl⟩

theorem decIntLong_among (w : Nat) : Accepts (Among w 11 true) (decIntLong w) := by
  refine .bind (needL_long w true) fun _ hl => ?_
  split
  case h_12 => exact .error
  all_goals exact fun _ _ => ⟨minor_of_fld ‹_› (by decide), hl⟩

theorem decBranch_among (w : Nat) : Accepts (Among w 15 false) (decBranch w) := by
  refine .bind (needL_long w false) fun _ hl => ?_
  split
  case h_16 => exact .error
  all_goals exact fun _ _ => ⟨minor_of_fld ‹_› (by decide), hl⟩

theorem decSystem_among (w : Nat) : Accepts (Among w 9 false) (decSystem w) := by
  refine .bind (needL_long w false) fun _ hl => ?_
  split
  case h_10 => exact .error
  all_goals exact fun _ _ => ⟨minor_of_fld ‹_› (by decide), hl⟩

theorem decWait_among (w : Nat) : Accepts (Among w 7 false) (decWait w) := by
  refine .bind (needL_long w false) fun _ hl => ?_
  split
  case h_8 => exact .error
  all_goals exact fun _ _ => ⟨minor_of_fld ‹_› (by decide), hl⟩

theorem decRoute_among (w : Nat) : Accepts (Among w 6 false) (decRoute w) := by
  refine .bind (needL_long w false) fun _ hl => ?_
  dsimp only
  split
  case h_7 => exact .error
  all_goals exact fun _ _ => ⟨minor_of_fld ‹_› (by decide), hl⟩

theorem decCopy_among (w : Nat) : Accepts (Among w 5 true) (decCopy w) := by
  refine .bind (needL_long w true) fun _ hl => ?_
  dsimp only
  split
  case h_6 => exact .error
  all_goals exact fun _ _ => ⟨minor_of_fld ‹_› (by decide), hl⟩

theorem decMatrix_among (w : Nat) : Accepts (Among w 4 true) (decMatrix w) := by
  refine .bind (needL_long w true) fun _ hl => ?_
  split
  case h_5 => exact .error
  all_goals exact fun _ _ => ⟨minor_of_fld ‹_› (by decide), hl⟩

theorem decDistance_among (w : Nat) : Accepts (Among w 4 true) (decDistance w) := by
  refine .bind (needL_long w true) fun _ hl => ?_
  split
  case h_5 => exact .error
  all_goals exact fun _ _ => ⟨minor_of_fld ‹_› (by decide), hl⟩

theorem decSlot_among (w : Nat) : Accepts (Among w 4 true) (decSlot w) := by
  refine .bind (needL_long w true) fun _ hl => ?_
  dsimp only
  split
  case h_5 => exact .error
  all_goals exact fun _ _ => ⟨minor_of_fld ‹_› (by decide), hl⟩

theorem decRemote_among (w : Nat) : Accepts (Among w 17 true) (decRemote w) := by
  refine .bind (needL_long w true) fun _ hl => ?_
  split
  case h_18 => exact .error
  all_goals exact fun _ _ => ⟨minor_of_fld ‹_› (by decide), hl⟩

theorem decVFloat_minor (w : Nat) : Accepts (fun _ => w / 128 % 32 < 10) (decVFloat w) := by
  unfold decVFloat
  split
  case h_11 => exact .error
  all_goals exact fun _ _ => minor_of_fld ‹_› (by decide)

theorem decVInt_minor (w : Nat) : Accepts (fun _ => w / 128 % 32 < 18) (decVInt w) := by
  unfold decVInt
  split
  case h_19 => exact .error
  all_goals exact fun _ _ => minor_of_fld ‹_› (by decide)

theorem decVCmp_minor (w : Nat) : Accepts (fun _ => w / 128 % 32 < 10) (decVCmp w) := by
  unfold decVCmp
  split
  case h_11 => exact .error
  all_goals exact fun _ _ => minor_of_fld ‹_› (by decide)

theorem decVCvt_minor (w : Nat) : Accepts (fun _ => w / 128 % 32 < 4) (decVCvt w) := by
  unfold decVCvt
  split
  case h_5 => exact .error
  all_goals exact fun _ _ => minor_of_fld ‹_› (by decide)

theorem decVLogic_minor (w : Nat) : Accepts (fun _ => w / 128 % 32 < 4) (decVLogic w) := by
  unfold decVLogic
  split
  case h_5 => exact .error
  all_goals exact fun _ _ => minor_of_fld ‹_› (by decide)

theorem decScan_minor (w : Nat) : Accepts (fun _ => w / 128 % 32 < 12) (decScan w) := by
  unfold decScan
  split
  case h_13 => exact .error
  all_goals exact fun _ _ => minor_of_fld ‹_› (by decide)

theorem decVMem_minor (w : Nat) : Accepts (fun _ => w / 128 % 32 < 4) (decVMem w) := by
  refine .step fun _ => ?_
  split
  case h_5 => exact .error
  all_goals exact fun _ _ => minor_of_fld ‹_› (by decide)

theorem decAmo_long (w : Nat) (ok : Ty → Bool) (k : Ty → Fin 16 → Dst → Src → Src → BitVec 16 → Instr) :
    Accepts (fun _ => decide (w / 2 % 2 = 1) = true) (decAmo w ok k) :=
  .bind (needL_long w true) fun _ hl _ _ => hl

theorem decAmos_among (w : Nat) : Accepts (Among w 12 true) (decAmos w) := by
  unfold decAmos
  split
  case h_8 => exact .bind (needL_long w true) fun _ hl _ _ => ⟨minor_of_fld ‹_› (by decide), hl⟩
  case h_13 => exact .error
  all_goals exact fun i hi => ⟨minor_of_fld ‹_› (by decide), decAmo_long w _ _ i hi⟩

theorem decMem_among (w : Nat) : Accepts (Among w 5 (decide (w / 128 % 32 = 2) || decide (w / 128 % 32 = 3))) (decMem w) := by
  unfold decMem
  split
  case h_6 => exact .error
  all_goals
    next hm =>
    refine .bind (needL_accepts w _) fun _ hl _ _ => ⟨minor_of_fld hm (by decide), ?_⟩
    rw [show w / 128 % 32 = _ from hm]
    exact long_of_fld _ hl

theorem decPanel_among (w : Nat) : Accepts (Among w 4 (!decide (w / 128 % 32 = 0))) (decPanel w) := by
  unfold decPanel
  dsimp only
  split
  case h_5 => exact .error
  all_goals
    next hm =>
    refine .bind (needL_accepts w _) fun _ hl _ _ => ⟨minor_of_fld hm (by decide), ?_⟩
    rw [show w / 128 % 32 = _ from hm]
    exact long_of_fld _ hl

theorem decPfx_long (w : Nat) : Accepts (fun _ => decide (w / 2 % 2 = 1) = false) (decPfx w) :=
  .bind (needL_long w false) fun _ hl _ _ => hl

theorem decBundleRoute_long (w : Nat) : Accepts (fun _ => decide (w / 2 % 2 = 1) = true) (decBundleRoute w) :=
  .bind (needL_long w true) fun _ hl _ _ => hl

/-- What the arm of a major accepts holds of whatever a syllable of that major decodes to. -/
theorem major_arm {w M : Nat} {i : Instr} {P : Instr → Prop} {dec : Nat → Except Reject Instr}
    (h : decodeSyl w = .ok i) (hdec : Accepts P (dec w))
    (hM : fld w 2 5 = M → decodeSyl w = dec w := by intro e; simp only [decodeSyl, e]) (hm : w / 4 % 32 = M) : P i :=
  hdec i ((hM hm).symm.trans h)

/-- Settles O4: an arm stands behind the check of its syllable's length, and the arms of a major are its minors. -/
theorem assignedEncodings : Obligations.AssignedEncodings := by
  intro w i h
  have hmajor : fld w 2 5 < 24 ∨ fld w 2 5 = 31 := by
    unfold decodeSyl at h
    split at h
    case h_26 => cases h
    all_goals omega
  have hlit : fld w 2 5 = 4 → Among w 1 false i := fun hm => by
    simp only [decodeSyl, hm] at h
    exact Accepts.bind (P := Among w 1 false) (needL_long w false) (fun _ hl => .bind (guardOr_accepts _ _) fun _ hz _ _ =>
      ⟨minor_of_fld (beq_iff_eq.mp hz) (by decide), hl⟩) i h
  refine ⟨hmajor, major_arm h (decPfx_long w), ?_⟩
  exact ⟨major_arm h (decInt_among w), major_arm h (decIntImm_among w), major_arm h (decIntLong_among w), hlit,
    major_arm h (decMem_among w), major_arm h (decAmos_among w), major_arm h (decBranch_among w),
    major_arm h (decSystem_among w), major_arm h (decWait_among w), major_arm h (decVFloat_minor w),
    major_arm h (decVInt_minor w), major_arm h (decVCmp_minor w), major_arm h (decVCvt_minor w),
    major_arm h (decVLogic_minor w), major_arm h (decVMem_minor w), major_arm h (decScan_minor w),
    major_arm h (decRoute_among w), major_arm h (decCopy_among w), major_arm h (decMatrix_among w),
    major_arm h (decDistance_among w), major_arm h (decSlot_among w), major_arm h (decRemote_among w),
    major_arm h (decPanel_among w), major_arm h (decBundleRoute_long w)⟩

end Sys2Proof
end

