-- ==== Sys2Proof/Proofs/IntegerInstructions.lean ====
section
/-! PROOFS. The integer instructions of majors 1, 2 and 3 other than division, shifts and counts (R101 to R107): the
obligations IntegerArithmetic, IntegerArithmeticImmediate, IntegerLogic, IntegerCompares, IntegerMoves and SpecialValues. -/

namespace Sys2Proof.Machine

/-! ### Operands and results in the terms of the claims -/

theorem intVal_imm9 (z : Bool) (i : BitVec 9) :
    intVal (immTy z) (imm9Val i) = Ty.int (immTy z) (Ty.low (immTy z) (i.signExtend 64)) := intVal_low _ _

theorem intVal_imm32 (t : Ty) (i : BitVec 32) :
    intVal t (imm32Val t i) = Ty.int t (Ty.low t (if Ty.signed t then i.signExtend 64 else i.setWidth 64)) := by
  rw [imm32Val_eq]
  exact intVal_low _ _

theorem Ty.low_ofNat (t : Ty) (a : Word) : BitVec.ofNat t.width (a.toNat % 2 ^ t.width) = Ty.low t a := by
  apply BitVec.eq_of_toNat_eq
  simp [Ty.low]

theorem ofNat_ite_one_zero (w : Nat) (c : Prop) [Decidable c] :
    BitVec.ofNat w (if c then 1 else 0) = if c then 1 else 0 := by
  split <;> rfl

theorem ofNat_ite_zero_one (w : Nat) (c : Prop) [Decidable c] :
    BitVec.ofNat w (if c then 0 else 1) = if c then 0 else 1 := by
  split <;> rfl

/-- The choice of `min`, on the low bits of two words. -/
theorem intMin_eq (t : Ty) (a b : Word) : BitVec.ofNat t.width (intMin t a.toNat b.toNat)
    = Ty.low t (if Ty.int t (Ty.low t a) ≤ Ty.int t (Ty.low t b) then a else b) := by
  unfold intMin
  rw [intVal_low, intVal_low]
  split <;> exact Ty.low_ofNat t _

/-- The choice of `max`, on the low bits of two words. -/
theorem intMax_eq (t : Ty) (a b : Word) : BitVec.ofNat t.width (intMax t a.toNat b.toNat)
    = Ty.low t (if Ty.int t (Ty.low t a) ≤ Ty.int t (Ty.low t b) then b else a) := by
  unfold intMax
  rw [intVal_low, intVal_low]
  split <;> exact Ty.low_ofNat t _

/-! ### Sums, differences and products (R102, R105, R106) -/

theorem exec_add (s : State) (t : Ty) (d : Dst) (a b : Src) :
    exec (.add t d a b) s = .next (s.intLand 1 d t (reduce t s.cap.sat (s.intOf t a + s.intOf t b))) := by
  rw [← intVal_src, ← intVal_src]; rfl

theorem exec_sub (s : State) (t : Ty) (d : Dst) (a b : Src) :
    exec (.sub t d a b) s = .next (s.intLand 1 d t (reduce t s.cap.sat (s.intOf t a - s.intOf t b))) := by
  rw [← intVal_src, ← intVal_src]; rfl

theorem exec_mul (s : State) (t : Ty) (d : Dst) (a b : Src) :
    exec (.mul t d a b) s = .next (s.intLand 3 d t (reduce t s.cap.sat (s.intOf t a * s.intOf t b))) := by
  rw [← intVal_src, ← intVal_src]; rfl

theorem exec_neg (s : State) (t : Ty) (d : Dst) (a : Src) :
    exec (.neg t d a) s = .next (s.intLand 1 d t (reduce t s.cap.sat (- s.intOf t a))) := by
  rw [← intVal_src, ← Int.zero_sub]; rfl

theorem exec_abs (s : State) (t : Ty) (d : Dst) (a : Src) : exec (.abs t d a) s
    = .next (s.intLand 1 d t (reduce t s.cap.sat (if s.intOf t a < 0 then - s.intOf t a else s.intOf t a))) := by
  have h (x : Int) : (if x < 0 then -x else x) = x.natAbs := by split <;> omega
  rw [h, ← intVal_src]; rfl

theorem exec_addImm (s : State) (z : Bool) (d : Dst) (a : Src) (i : BitVec 9) :
    exec (.addImm z d a i) s = .next (s.intLand 1 d (immTy z) (reduce (immTy z) s.cap.sat
      (s.intOf (immTy z) a + Ty.int (immTy z) (Ty.low (immTy z) (i.signExtend 64))))) := by
  rw [← intVal_src, ← intVal_imm9]; rfl

theorem exec_mulImm (s : State) (z : Bool) (d : Dst) (a : Src) (i : BitVec 9) :
    exec (.mulImm z d a i) s = .next (s.intLand 3 d (immTy z) (reduce (immTy z) s.cap.sat
      (s.intOf (immTy z) a * Ty.int (immTy z) (Ty.low (immTy z) (i.signExtend 64))))) := by
  rw [← intVal_src, ← intVal_imm9]; rfl

theorem exec_shlImm (s : State) (z : Bool) (d : Dst) (a : Src) {i : BitVec 9} (hi : i.toNat < 64) :
    exec (.shlImm z d a i) s = .next (s.intLand 1 d (immTy z) (reduce (immTy z) s.cap.sat
      (s.intOf (immTy z) a * 2 ^ i.toNat))) := by
  rw [← intVal_src, ← shiftCount_imm9Val z hi, show (2 : Int) ^ _ = ((2 ^ _ : Nat) : Int) from (Nat.cast_pow 2 _).symm]
  rfl

theorem exec_addLong (s : State) (t : Ty) (d : Dst) (a : Src) (i : BitVec 32) :
    exec (.addLong t d a i) s = .next (s.intLand 1 d t (reduce t s.cap.sat
      (s.intOf t a + Ty.int t (Ty.low t (if Ty.signed t then i.signExtend 64 else i.setWidth 64))))) := by
  rw [← intVal_src, ← intVal_imm32]; rfl

theorem exec_mulLong (s : State) (t : Ty) (d : Dst) (a : Src) (i : BitVec 32) :
    exec (.mulLong t d a i) s = .next (s.intLand 3 d t (reduce t s.cap.sat
      (s.intOf t a * Ty.int t (Ty.low t (if Ty.signed t then i.signExtend 64 else i.setWidth 64))))) := by
  rw [← intVal_src, ← intVal_imm32]; rfl

/-- Settles O13: each result is the exact integer of its sources, reduced by the rule of R39. -/
theorem integerArithmetic : Obligations.IntegerArithmetic := fun s t d a b _ =>
  ⟨s.yieldsInt_of _ _ _ _ _ (exec_add s t d a b), s.yieldsInt_of _ _ _ _ _ (exec_sub s t d a b),
    s.yieldsInt_of _ _ _ _ _ (exec_mul s t d a b), s.yieldsInt_of _ _ _ _ _ (exec_neg s t d a),
    s.yieldsInt_of _ _ _ _ _ (exec_abs s t d a)⟩

/-- Settles O14: an immediate is the integer of its extension to 64 bits under the type. -/
theorem integerArithmeticImmediate : Obligations.IntegerArithmeticImmediate :=
  ⟨fun s z d a i => ⟨s.yieldsInt_of _ _ _ _ _ (exec_addImm s z d a i), s.yieldsInt_of _ _ _ _ _ (exec_mulImm s z d a i),
      fun hi => s.yieldsInt_of _ _ _ _ _ (exec_shlImm s z d a hi)⟩,
    fun s t d a i _ => ⟨s.yieldsInt_of _ _ _ _ _ (exec_addLong s t d a i), s.yieldsInt_of _ _ _ _ _ (exec_mulLong s t d a i)⟩⟩

/-! ### Bitwise instructions -/

/-- A bitwise function of two numbers that is the bitwise operation of their low bits. -/
def IsBitwise (f : Ty → Nat → Nat → Nat) (g : ∀ t : Ty, BitVec t.width → BitVec t.width → BitVec t.width) : Prop :=
  ∀ (t : Ty) (a b : Word), BitVec.ofNat t.width (f t a.toNat b.toNat) = g t (Ty.low t a) (Ty.low t b)

theorem IsBitwise.reg {f g} (h : IsBitwise f g) (s : State) {i : Instr} {t : Ty} {d : Dst} {a b : Src}
    (e : exec i s = .next (s.intLand 1 d t (noFlag (f t (s.srcN a) (s.srcN b))))) :
    s.YieldsBits i 1 t d (g t (Ty.low t (s.src a)) (Ty.low t (s.src b))) :=
  s.yieldsBits_of _ _ _ _ _ _ e (h t _ _)

theorem IsBitwise.imm {f g} (h : IsBitwise f g) (s : State) {j : Instr} {t : Ty} {d : Dst} {a : Src} {i : BitVec 9}
    (e : exec j s = .next (s.intLand 1 d t (noFlag (f t (s.srcN a) (imm9Val i))))) :
    s.YieldsBits j 1 t d (g t (Ty.low t (s.src a)) (Ty.low t (i.signExtend 64))) :=
  s.yieldsBits_of _ _ _ _ _ _ e (h t _ _)

theorem IsBitwise.long {f g} (h : IsBitwise f g) (s : State) {j : Instr} {t : Ty} {d : Dst} {a : Src} {i : BitVec 32}
    (e : exec j s = .next (s.intLand 1 d t (noFlag (f t (s.srcN a) (imm32Val t i))))) :
    s.YieldsBits j 1 t d (g t (Ty.low t (s.src a)) (Ty.low t (if Ty.signed t then i.signExtend 64 else i.setWidth 64))) :=
  s.yieldsBits_of _ _ _ _ _ _ e (by rw [imm32Val_eq]; exact h t _ _)

/-- Settles O16: each bitwise function works on the low bits of its operands alone. -/
theorem integerLogic : Obligations.IntegerLogic := by
  have hand : IsBitwise intAnd fun _ x y => x &&& y := intAnd_eq
  have hor : IsBitwise intOr fun _ x y => x ||| y := intOr_eq
  have hxor : IsBitwise intXor fun _ x y => x ^^^ y := intXor_eq
  have handn : IsBitwise intAndn fun _ x y => x &&& ~~~y := intAndn_eq
  refine ⟨fun s t d a b _ => ?_, fun s z d a i => ?_, fun s t d a i _ => ?_⟩
  · exact ⟨hand.reg s rfl, hor.reg s rfl, hxor.reg s rfl, handn.reg s rfl⟩
  · exact ⟨hand.imm s rfl, hor.imm s rfl, hxor.imm s rfl⟩
  · exact ⟨hand.long s rfl, hor.long s rfl, hxor.long s rfl⟩

/-! ### Compares, minimum and maximum -/

/-- A compare or choice of two numbers that is a function of two words. -/
def IsWordFn (f : Ty → Nat → Nat → Nat) (g : ∀ t : Ty, Word → Word → BitVec t.width) : Prop :=
  ∀ (t : Ty) (a b : Word), BitVec.ofNat t.width (f t a.toNat b.toNat) = g t a b

theorem IsWordFn.reg {f g} (h : IsWordFn f g) (s : State) {i : Instr} {t : Ty} {d : Dst} {a b : Src}
    (e : exec i s = .next (s.intLand 1 d t (noFlag (f t (s.srcN a) (s.srcN b))))) :
    s.YieldsBits i 1 t d (g t (s.src a) (s.src b)) :=
  s.yieldsBits_of _ _ _ _ _ _ e (h t _ _)

theorem IsWordFn.imm {f g} (h : IsWordFn f g) (s : State) {j : Instr} {t : Ty} {d : Dst} {a : Src} {i : BitVec 9}
    (e : exec j s = .next (s.intLand 1 d t (noFlag (f t (s.srcN a) (imm9Val i))))) :
    s.YieldsBits j 1 t d (g t (s.src a) (i.signExtend 64)) :=
  s.yieldsBits_of _ _ _ _ _ _ e (h t _ _)

theorem IsWordFn.long {f g} (h : IsWordFn f g) (s : State) {j : Instr} {t : Ty} {d : Dst} {a : Src} {i : BitVec 32}
    (e : exec j s = .next (s.intLand 1 d t (noFlag (f t (s.srcN a) (imm32Val t i))))) :
    s.YieldsBits j 1 t d (g t (s.src a) (if Ty.signed t then i.signExtend 64 else i.setWidth 64)) :=
  s.yieldsBits_of _ _ _ _ _ _ e (by rw [imm32Val_eq]; exact h t _ _)

theorem intCeq_word : IsWordFn intCeq fun t a b => if Ty.int t (Ty.low t a) = Ty.int t (Ty.low t b) then 1 else 0 := by
  intro t a b
  rw [intCeq, intVal_low, intVal_low, ofNat_ite_one_zero]

theorem intCne_word : IsWordFn intCne fun t a b => if Ty.int t (Ty.low t a) = Ty.int t (Ty.low t b) then 0 else 1 := by
  intro t a b
  rw [intCne, intVal_low, intVal_low, ofNat_ite_zero_one]

theorem intClt_word : IsWordFn intClt fun t a b => if Ty.int t (Ty.low t a) < Ty.int t (Ty.low t b) then 1 else 0 := by
  intro t a b
  rw [intClt, intVal_low, intVal_low, ofNat_ite_one_zero]

theorem intCle_word : IsWordFn intCle fun t a b => if Ty.int t (Ty.low t a) ≤ Ty.int t (Ty.low t b) then 1 else 0 := by
  intro t a b
  rw [intCle, intVal_low, intVal_low, ofNat_ite_one_zero]

/-- Settles O18: the order is that of the integers that the low bits hold under the type. -/
theorem integerCompares : Obligations.IntegerCompares := by
  refine ⟨fun s t d a b _ => ?_, fun s z d a i => ?_, fun s t d a i _ => ?_⟩
  · exact ⟨intCeq_word.reg s rfl, intCne_word.reg s rfl, intClt_word.reg s rfl, intCle_word.reg s rfl,
      IsWordFn.reg intMin_eq s rfl, IsWordFn.reg intMax_eq s rfl⟩
  · exact ⟨intCeq_word.imm s rfl, intClt_word.imm s rfl, intCle_word.imm s rfl,
      IsWordFn.imm intMin_eq s rfl, IsWordFn.imm intMax_eq s rfl⟩
  · exact ⟨intCeq_word.long s rfl, intClt_word.long s rfl, intCle_word.long s rfl⟩

/-! ### Moves and special values (R104, R106, R107) -/

theorem State.intLand64_yields (s : State) {i : Instr} {d : Dst} {v : Word} (h : exec i s = .next (s.intLand64 d v)) :
    s.Yields i [⟨1, s.intSlot, .scalar d v⟩] := ⟨_, h, s.land_gives _ _ _⟩

/-- A result of a 64-bit type is its own register value. -/
theorem State.intLand_yields_of_width (s : State) {i : Instr} {t : Ty} {d : Dst} {n : Nat} (ht : t = .s64 ∨ t = .z64)
    (h : exec i s = .next (s.intLand 1 d t (noFlag n))) :
    s.Yields i [⟨1, s.intSlot, .scalar d (BitVec.ofNat 64 n)⟩] := by
  have hext : extend t n = BitVec.ofNat 64 n := by
    rw [extend_eq]
    obtain rfl | rfl := ht
    · exact BitVec.signExtend_eq _
    · exact BitVec.setWidth_eq _
  have := s.intLand_gives 1 d t (noFlag n)
  rw [← extend_eq, show (noFlag n).1 = n from rfl, hext] at this
  exact ⟨_, h, this⟩

theorem movh_word (a : Word) (j : BitVec 32) :
    BitVec.ofNat 64 (a.toNat % 2 ^ 32 + j.toNat * 2 ^ 32) = j ++ a.setWidth 32 := by
  apply BitVec.eq_of_toNat_eq
  have ha := Nat.mod_lt a.toNat (Nat.two_pow_pos 32)
  have hj := j.isLt
  rw [BitVec.toNat_ofNat, BitVec.toNat_append, BitVec.toNat_setWidth, Nat.shiftLeft_eq,
    ← Nat.shiftLeft_eq, ← Nat.shiftLeft_add_eq_or_of_lt ha, Nat.shiftLeft_eq, Nat.add_comm]
  exact Nat.mod_eq_of_lt (by omega)

theorem State.movLong_yields (s : State) (t : Ty) (d : Dst) (i : BitVec 32) : s.YieldsBits (.movLong t d i) 1 t d
    (Ty.low t (if Ty.signed t then i.signExtend 64 else i.setWidth 64)) := by
  refine s.yieldsBits_of _ _ _ _ (imm32Val t i % 2 ^ t.width) _ rfl ?_
  rw [imm32Val_eq]
  exact Ty.low_ofNat t _

theorem State.movImm_yields (s : State) (z : Bool) (d : Dst) (i : BitVec 9) :
    s.Yields (.movImm z d i) [⟨1, s.intSlot, .scalar d (i.signExtend 64)⟩] := by
  have := s.intLand_yields_of_width (i := .movImm z d i) (t := immTy z) (n := imm9Val i) (d := d)
    (by cases z <;> simp [immTy]) rfl
  rwa [imm9Val_eq, BitVec.ofNat_toNat, BitVec.setWidth_eq] at this

theorem State.movh_yields (s : State) {t : Ty} (ht : t = .s64 ∨ t = .z64) (d : Dst) (a : Src) (j : BitVec 32) :
    s.Yields (.movh t d a j) [⟨1, s.intSlot, .scalar d (j ++ (s.src a).setWidth 32)⟩] := by
  rw [← movh_word]
  exact s.intLand_yields_of_width ht rfl

/-- Settles O19. -/
theorem integerMoves : Obligations.IntegerMoves := by
  refine ⟨fun s t d a i _ => ?_, fun s t z d a b c i j => ?_⟩
  · exact ⟨s.yieldsBits_of _ _ _ _ _ _ rfl (Ty.low_ofNat t _), s.movLong_yields t d i⟩
  · exact ⟨s.movImm_yields z d i, s.intLand64_yields rfl, fun ht => s.movh_yields ht d a j, s.intLand64_yields rfl⟩

/-- Settles O20: each special value is that of `State.special`. -/
theorem specialValues : Obligations.SpecialValues := fun s d =>
  have h (sv : Special) : s.Yields (.rdsp d sv) [⟨1, s.intSlot, .scalar d (s.special sv)⟩] := s.intLand64_yields rfl
  ⟨h .tileX, h .tileY, h .tileN, h .vdie, h .grade, h .ctx⟩

end Sys2Proof.Machine
end

