-- ==== Sys2Proof/Proofs/Step.lean ====
section
/-! PROOFS. One step of the machine and the state after reset: the obligations DecodeWords, StepRunsDecoded,
StepTrapsUndecodable, StepDue, FetchWordRuns, EveryStepCompletes, ResetValues and ResetWf. -/

namespace Sys2Proof.Machine

/-- Settles O1: each word is the spec's own, evaluated by the decoder. -/
theorem decodeWords : Obligations.DecodeWords := by
  unfold Obligations.DecodeWords
  decide +kernel

/-! ### A step with a bundle in progress -/

theorem decodeBytes_eq_ok {bs : List Byte} {i : Instr} {stop : Bool} {rest : List Byte}
    (h : decodeBytes bs = .ok (i, stop, rest)) :
    decodeSyl (rawSyl bs).bits = .ok i ∧ (rawSyl bs).stop = stop ∧ bs.drop (rawSyl bs).len = rest := by
  unfold decodeBytes at h
  dsimp only at h
  split at h
  · cases h
    exact ⟨‹_›, rfl, rfl⟩
  · cases h

theorem step_of_decodes {s t : State} {i : Instr} {stop : Bool} {rest : List Byte} (ha : s.iss.active = true)
    (hd : decodeBytes s.iss.buf = .ok (i, stop, rest)) (he : exec i s = .next t) :
    step s = .next (t.afterSyllable i (rawSyl s.iss.buf)) := by
  simp only [step, ha, hd, he, if_true]

theorem step_of_undecodable {s : State} {e : Reject} (ha : s.iss.active = true) (hd : decodeBytes s.iss.buf = .error e) :
    step s = .next s.trapIllegal := by
  simp only [step, ha, hd, if_true]

theorem step_of_inactive {s : State} (ha : s.iss.active = false) :
    step s = match s.todo with
      | .ports => .next s.portStage
      | .due x k => exec x.act { s.dropDue k with ev := x.arg }
      | .tick => .next s.tick := by
  unfold step
  rw [ha]
  rfl

theorem State.afterSyllable_of_ended {t : State} (h : t.iss.active = false) (i : Instr) (r : RawSyl) :
    t.afterSyllable i r = t := by
  simp only [State.afterSyllable, h, Bool.not_false, if_true]

theorem sylClass_eq_zero (r : RawSyl) : sylClass r = 0 ↔ sylMajor r = 0 := by
  unfold sylClass
  dsimp only
  split
  · simp [*]
  · repeat' split
    all_goals simp [*]

/-- The work of a syllable is counted on its die, and nothing else. -/
theorem State.works_frame (s : State) (d : DieId) (u : Nat) (n : CtxId) :
    (s.works d u n).agenda = s.agenda ∧ (s.works d u n).SameBytes s
      ∧ ∀ e m, (s.works d u n).ctx e m = s.ctx e m := by
  refine ⟨rfl, ?_, fun e m => s.ctx_modDie_same d e _ m fun _ => rfl⟩
  obtain ⟨hm, hd⟩ := s.sameBytes_modDie d (fun x => { x with seq := { x.seq with busy := (u, n) :: x.seq.busy } }) rfl rfl
  exact ⟨fun a => (hm a).symm, fun e a => (hd e a).symm⟩

/-- After a syllable that does not end its bundle: its bytes are gone, and it is counted. -/
theorem State.afterSyllable_of_goes_on {t : State} (ha : t.iss.active = true) (i : Instr) {r : RawSyl} (hr : r.stop = false) :
    let u := t.afterSyllable i r
    u.iss.buf = t.iss.buf.drop r.len ∧ u.iss.taken = t.iss.taken + 1 ∧ u.iss.active = true ∧ u.iss.p = t.iss.p
      ∧ u.iss.target = t.iss.target ∧ u.agenda = t.agenda ∧ u.SameBytes t ∧ (∀ d n, u.ctx d n = t.ctx d n)
      ∧ u.iss.pfx = if sylMajor r = 0 then t.iss.pfx else none := by
  intro u
  have hu : u = t.afterSyllable i r := rfl
  simp only [State.afterSyllable, ha, Bool.not_true, Bool.false_eq_true, if_false, hr, sylClass_eq_zero] at hu
  rw [hu]
  cases unitOf i r t.iss.nVec with
  | none => exact ⟨rfl, rfl, ha, rfl, rfl, rfl, State.SameBytes.refl t, fun _ _ => rfl, rfl⟩
  | some w =>
    obtain ⟨hagenda, hbytes, hctx⟩ := t.works_frame t.iss.die w t.iss.ctx
    exact ⟨rfl, rfl, ha, rfl, rfl, hagenda, hbytes, hctx, rfl⟩

/-- Settles O5. -/
theorem stepRunsDecoded : Obligations.StepRunsDecoded := by
  intro s t i stop rest ha hd he
  obtain ⟨-, hstop, hrest⟩ := decodeBytes_eq_ok hd
  have hstep := step_of_decodes ha hd he
  refine ⟨hstep, hstop, hrest, fun ht => ?_, fun ht hgo => ⟨_, hstep, ?_⟩⟩
  · rw [hstep, State.afterSyllable_of_ended ht]
  · exact State.afterSyllable_of_goes_on ht i (hstop.trans hgo)

/-- Settles O6. -/
theorem stepTrapsUndecodable : Obligations.StepTrapsUndecodable := fun _ _ ha hd => step_of_undecodable ha hd

/-- Settles O8: the placed bytes are those that the table word is decoded from. -/
theorem fetchWordRuns : Obligations.FetchWordRuns := by
  intro nbits w i h
  refine ⟨_, rfl, fun t he => ?_⟩
  unfold decodeTableWord at h
  split at h
  · next j stop rest hd =>
    cases h
    exact step_of_decodes rfl hd he
  · cases h

/-! ### A step with no bundle in progress -/

section

variable {cycle : Nat}

theorem pickDue_cons (k : Nat) (x : Sched) (l : List Sched) (best : Option (Nat × Nat)) :
    pickDue cycle k (x :: l) best = pickDue cycle (k + 1) l
      (if x.due ≤ cycle ∧ ∀ b, best = some b → stepPhase x < b.1 then some (stepPhase x, k) else best) := by
  cases best <;> simp [pickDue]

theorem pickDue_of_none_better {l : List Sched} {k : Nat} {best : Option (Nat × Nat)}
    (h : ∀ y ∈ l, y.due ≤ cycle → ∃ b, best = some b ∧ b.1 ≤ stepPhase y) : pickDue cycle k l best = best := by
  induction l generalizing k with
  | nil => rfl
  | cons y l ih =>
    rw [pickDue_cons, if_neg]
    · exact ih fun z hz => h z (List.mem_cons_of_mem y hz)
    · rintro ⟨hd, hlt⟩
      obtain ⟨b, hb, hle⟩ := h y List.mem_cons_self hd
      exact Nat.not_lt.mpr hle (hlt b hb)

theorem pickDue_append (l m : List Sched) (k : Nat) (best : Option (Nat × Nat)) :
    pickDue cycle k (l ++ m) best = pickDue cycle (k + l.length) m (pickDue cycle k l best) := by
  induction l generalizing k best with
  | nil => rfl
  | cons y l ih =>
    rw [List.cons_append, pickDue_cons, ih, List.length_cons, Nat.add_comm l.length 1, ← Nat.add_assoc, pickDue_cons]

/-- What is picked has the phase of a step that is due. -/
theorem pickDue_phase (l : List Sched) (k : Nat) (best : Option (Nat × Nat)) :
    pickDue cycle k l best = best ∨ ∃ y ∈ l, y.due ≤ cycle ∧ ∃ j, pickDue cycle k l best = some (stepPhase y, j) := by
  induction l generalizing k best with
  | nil => exact .inl rfl
  | cons y l ih =>
    rw [pickDue_cons]
    split
    · next hc =>
      obtain h | ⟨z, hz, hdz, j, h⟩ := ih (k + 1) (some (stepPhase y, k))
      · exact .inr ⟨y, List.mem_cons_self, hc.1, k, h⟩
      · exact .inr ⟨z, List.mem_cons_of_mem y hz, hdz, j, h⟩
    · obtain h | ⟨z, hz, hdz, j, h⟩ := ih (k + 1) best
      · exact .inl h
      · exact .inr ⟨z, List.mem_cons_of_mem y hz, hdz, j, h⟩

/-- A step that is due is picked when the due ones before it have greater phases and those after it no smaller ones. -/
theorem pickDue_first {l r : List Sched} {x : Sched} (hx : x.due ≤ cycle)
    (hl : ∀ y ∈ l, y.due ≤ cycle → stepPhase x < stepPhase y) (hr : ∀ y ∈ r, y.due ≤ cycle → stepPhase x ≤ stepPhase y) :
    pickDue cycle 0 (l ++ x :: r) none = some (stepPhase x, l.length) := by
  rw [pickDue_append, Nat.zero_add, pickDue_cons, if_pos]
  · exact pickDue_of_none_better fun y hy hd => ⟨_, rfl, hr y hy hd⟩
  · refine ⟨hx, fun b hb => ?_⟩
    obtain h | ⟨y, hy, hd, j, h⟩ := pickDue_phase (cycle := cycle) l 0 none
    · cases h.symm.trans hb
    · cases h.symm.trans hb
      exact hl y hy hd

end

theorem State.nextDue_of_none_due {s : State} (h : ∀ x ∈ s.agenda, s.cycle < x.due) : s.nextDue = none :=
  pickDue_of_none_better fun y hy hd => absurd (h y hy) (Nat.not_lt.mpr hd)

/-- Settles O7: `pickDue` goes through the agenda and keeps the first of the least phase. -/
theorem stepDue : Obligations.StepDue := by
  intro s ha
  refine ⟨fun hn hp => ?_, fun hn hp => ?_, fun l r x hs hx hl hr => ?_⟩
  · rw [step_of_inactive ha, State.todo, State.nextDue_of_none_due hn, hp]
    rfl
  · rw [step_of_inactive ha, State.todo, State.nextDue_of_none_due hn, hp]
    rfl
  · have hnext : s.nextDue = some (stepPhase x, l.length) := by
      rw [State.nextDue, hs]
      exact pickDue_first hx hl hr
    have hat : s.agenda[l.length]? = some x := by rw [hs, List.getElem?_append_right (Nat.le_refl _), Nat.sub_self]; rfl
    have hdrop : s.dropDue l.length = { s with agenda := l ++ r } := by
      unfold State.dropDue
      rw [hs, List.eraseIdx_append_of_length_le (Nat.le_refl _), Nat.sub_self]
      rfl
    refine ⟨fun h => ?_, fun h63 hp => ?_⟩
    · have hlate : (decide (63 ≤ stepPhase x) && !s.portsDone) = false := by
        obtain h | h := h
        · rw [decide_eq_false (Nat.not_le.mpr h), Bool.false_and]
        · rw [h, Bool.not_true, Bool.and_false]
      rw [step_of_inactive ha, State.todo, hnext]
      simp only [hlate, hat, Bool.false_eq_true, if_false, hdrop]
    · rw [step_of_inactive ha, State.todo, hnext]
      simp only [decide_eq_true h63, hp, Bool.not_false, Bool.and_self, if_true]

/-! ### Every step answers a next state -/

theorem exec_next (i : Instr) (s : State) : ∃ t, exec i s = .next t := by
  cases i with
  | bankAccessPerform =>
    simp only [exec, execBankAccessPerform]
    split
    · exact ⟨_, rfl⟩
    · exact ⟨_, rfl⟩
  | _ => exact ⟨_, rfl⟩

/-- Settles O9: no arm of `exec` refuses or faults. -/
theorem everyStepCompletes : Obligations.EveryStepCompletes := by
  intro s
  unfold step
  split
  · split
    · next i _ _ _ =>
      obtain ⟨t, ht⟩ := exec_next i s
      rw [ht]
      exact ⟨_, rfl⟩
    · exact ⟨_, rfl⟩
  · split
    · exact ⟨_, rfl⟩
    · exact exec_next _ _
    · exact ⟨_, rfl⟩

/-! ### The state after reset -/

/-- A die after reset: only whether it serves, its fused table and its identity differ from the values of the fields. -/
theorem State.reset_die (d : DieId) : State.reset.die d =
    { inService := Form.grade120.expo d == .exposed, vtab := fusedTable 120
      boot := { uid := dieUid d, cert := Config.idCert (dieUid d) } } := Vector.getElem_ofFn _

theorem State.reset_ctx (d : DieId) (n : CtxId) : State.reset.ctx d n = {} := by
  rw [State.ctx, State.reset_die]
  exact Vector.getElem_replicate _

theorem State.reset_expo (d : DieId) : State.reset.panel.expo[d] = Form.grade120.expo d := Vector.getElem_ofFn _

theorem State.reset_inService (d : DieId) : (State.reset.die d).inService = (Form.grade120.expo d == .exposed) := by
  rw [State.reset_die]

theorem State.reset_agenda {x : Sched} (h : x ∈ State.reset.agenda) : x.act = .dieReset ∨ x.act = .rejoinDelayExpiry := by
  obtain h | h := List.mem_append.mp h
  · obtain ⟨d, -, hd⟩ := List.mem_filterMap.mp h
    split at hd
    · cases hd
      exact .inl rfl
    · cases hd
  · cases List.mem_singleton.mp h
    exact .inr rfl

theorem reset_queue (k : Fin 16) : ({} : Ctx).task.src (.queue k) = 0 := rfl

/-- Settles O10: a field that the form does not set has the value of its declaration. -/
theorem resetValues : Obligations.ResetValues := by
  have hexpo : ∀ d : DieId, Form.grade120.expo d = .exposed ∨ Form.grade120.expo d = .spare := by decide +kernel
  have hcount : ((List.finRange 128).filter fun d : DieId => Form.grade120.expo d == .exposed).length = 120 := by
    decide +kernel
  refine ⟨rfl, rfl, rfl, rfl, rfl, fun d n => ?_, fun d f => ?_, fun d => ?_, fun d => ?_, fun d => ?_, ?_, fun i => ?_, rfl, rfl,
    rfl, fun q => ?_, fun x hx => State.reset_agenda hx⟩
  · rw [State.reset_ctx]
    exact ⟨rfl, rfl, rfl, rfl, rfl, rfl, rfl, rfl, rfl, rfl, reset_queue, fun t => Vector.getElem_replicate _,
      fun l => congrArg LoopLvl.armed (Vector.getElem_replicate _)⟩
  · rw [State.reset_die]
    exact Vector.getElem_replicate _
  · rw [State.reset_die]
    exact ⟨rfl, rfl, rfl, rfl, fun q => Vector.getElem_replicate _, rfl, rfl, rfl, rfl⟩
  · rw [State.reset_inService, State.reset_expo, beq_iff_eq]
  · rw [State.reset_expo]
    exact hexpo d
  · simp only [State.reset_inService]
    exact hcount
  · have h : State.reset.station i = { fitted := true } := Vector.getElem_ofFn _
    rw [h]
    exact ⟨rfl, rfl⟩
  · have h : State.reset.queue q = {} := Vector.getElem_replicate _
    rw [h]
    exact ⟨rfl, rfl, rfl, rfl, rfl⟩

/-- The memories of a state are in canonical form if panel memory and the tables of each die are. -/
theorem State.wf_iff (s : State) : s.wf = true ↔ s.mem.wf = true ∧ ∀ d : DieId, (s.die d).wf = true := by
  unfold State.wf
  rw [Bool.and_eq_true, List.all_eq_true]
  refine and_congr_right fun _ => ⟨fun h d => h _ (Vector.mem_toList_iff.mpr (Vector.getElem_mem d.isLt)), fun h x hx => ?_⟩
  obtain ⟨i, hi, rfl⟩ := Vector.getElem_of_mem (Vector.mem_toList_iff.mp hx)
  exact h ⟨i, hi⟩

/-- Settles O11: every table lists nothing. -/
theorem resetWf : Obligations.ResetWf := by
  refine (State.wf_iff _).mpr ⟨State.reset_mem_wf, fun d => ?_⟩
  rw [State.reset_die]
  rfl

end Sys2Proof.Machine
end

