-- ==== Sys2Proof/Proofs/ScalarIssue.lean ====
section
/-! PROOFS. Literals, scalar bank memory, branches, loops, waits, tokens and folds at issue (R109 to R121, R155 to R161):
the obligations LiteralLoad, LoadsAndStoresIssue, LocalAtomicsIssue, Branches, Calls, HardwareLoops, WaitsIssue and
FoldAndTokenInstructions. -/

namespace Sys2Proof.Machine

/-! ### Literals (R109) -/

theorem natOfBytes_byte (l : List Byte) (k : Nat) : natOfBytes l / 2 ^ (8 * k) % 2 ^ 8 = (l.getD k 0).toNat := by
  induction l generalizing k with
  | nil => simp [natOfBytes]
  | cons b l ih =>
    have hb := b.isLt
    show (b.toNat + 256 * natOfBytes l) / _ % _ = _
    cases k with
    | zero =>
      rw [Nat.mul_zero, Nat.pow_zero, Nat.div_one, List.getD_cons_zero]
      omega
    | succ k =>
      rw [List.getD_cons_succ, ← ih, Nat.mul_succ, Nat.add_comm (8 * k), Nat.pow_add, ← Nat.div_div_eq_div_mul,
        show (b.toNat + 256 * natOfBytes l) / 2 ^ 8 = natOfBytes l by omega]

/-- Byte k of a word of bytes. -/
theorem wordOfBytes_byte (l : List Byte) {k : Nat} (hk : k < 8) : (wordOfBytes l).extractLsb' (8 * k) 8 = l.getD k 0 := by
  apply BitVec.eq_of_toNat_eq
  rw [BitVec.extractLsb'_toNat, Nat.shiftRight_eq_div_pow, wordOfBytes, BitVec.toNat_ofNat, ← natOfBytes_byte,
    show 64 = 8 * k + (64 - 8 * k) by omega, Nat.pow_add, Nat.mod_mul_right_div_self,
    Nat.mod_mod_of_dvd _ (Nat.pow_dvd_pow 2 (by omega))]

/-- Settles O22: the pool word is that of the cached lines. -/
theorem literalLoad : Obligations.LiteralLoad := by
  intro s d off l hl
  refine ⟨wordOfBytes l, ⟨_, rfl, ?_⟩, fun k hk => wordOfBytes_byte l hk⟩
  have hword : s.poolWord (poolAddr s.iss.p (signExt off)) = wordOfBytes l := by
    unfold State.poolWord poolAddr signExt
    dsimp only
    rw [hl]
  rw [← hword]
  exact s.land_gives _ _ _

/-! ### Scalar bank memory (R110 to R116) -/

theorem State.yieldsAccess_captured (s : State) {i : Instr} {lat slot : Nat} {ord : PortStep} {own : Fin 16}
    {tag : Option (BitVec 8)} {k : AccKind} (h : exec i s = .next (s.access lat ord slot (s.clsOf own) tag k)) :
    s.YieldsAccess i lat ord slot (s.classOf own) tag k := by
  rw [← s.clsOf_eq]
  exact s.yieldsAccess_of _ _ _ _ _ _ _ h

theorem State.scalarLoad_yields (s : State) {i : Instr} {t : Ty} {own : Fin 16} {d : Dst} {off : Word}
    (h : exec i s = .next (s.scalarLoad t own d off)) :
    s.YieldsAccess i 5 .read 2 (s.classOf own) s.wantTag (.load t d off) := by
  rw [← s.tagOf_eq]
  exact s.yieldsAccess_captured h

/-- Settles O23. -/
theorem loadsAndStoresIssue : Obligations.LoadsAndStoresIssue := fun s _ _ _ _ _ _ _ =>
  ⟨s.scalarLoad_yields rfl, s.scalarLoad_yields rfl, s.yieldsAccess_captured rfl, s.yieldsAccess_captured rfl⟩

/-- Settles O24: each atomic is `State.localAmo` of its operation. -/
theorem localAtomicsIssue : Obligations.LocalAtomicsIssue := fun s _ _ _ _ _ _ _ =>
  ⟨s.yieldsAccess_captured rfl, s.yieldsAccess_captured rfl, s.yieldsAccess_captured rfl, s.yieldsAccess_captured rfl,
    s.yieldsAccess_captured rfl, s.yieldsAccess_captured rfl, s.yieldsAccess_captured rfl, s.yieldsAccess_captured rfl,
    s.yieldsAccess_captured rfl, s.yieldsAccess_captured rfl, s.yieldsAccess_captured rfl, s.yieldsAccess_captured rfl⟩

/-! ### Branches and calls (R117 to R120) -/

theorem State.yieldsBranch_of (s : State) {i : Instr} {b : Bool} {taken : Prop} {target : Word}
    (h : exec i s = .next (s.branch b target)) (hb : b = true ↔ taken) : s.YieldsBranch i taken target := by
  refine ⟨fun ht => ?_, fun ht => ?_⟩
  · rw [h, State.branch, if_pos (hb.mpr ht)]
  · rw [h, State.branch, if_neg (mt hb.mp ht)]

theorem RegFile.count_eq (r : RegFile) (fs : FlagSet) :
    r.count fs = r.wf[match fs with | .va => (0 : Fin 3) | .vb => 1 | .sx => 2] := by
  cases fs <;> rfl

theorem State.mask_eq_top (s : State) {top : Fin 8} (h : top.val + 1 = s.rf.depth) : s.rf.mask = s.rf.masks[top] := by
  have hi : Fin.ofNat 8 (s.rf.depth - 1) = top := Fin.ext (by rw [← h]; exact Nat.mod_eq_of_lt top.isLt)
  simp only [RegFile.mask, hi]

/-- Settles O25: each branch is `State.branch` of its condition. -/
theorem branches : Obligations.Branches := by
  intro s a fs st tk o20 o15 o18 o12 n
  have hcount (k : BitVec 9) : s.rf.count fs = k ↔ n = k.toNat := by
    rw [RegFile.count_eq]
    exact ⟨congrArg BitVec.toNat, BitVec.eq_of_toNat_eq⟩
  have hn : (s.rf.count fs).toNat = n := congrArg BitVec.toNat (s.rf.count_eq fs)
  refine ⟨s.yieldsBranch_of (b := true) rfl (iff_of_true rfl trivial), s.yieldsBranch_of rfl beq_iff_eq,
    s.yieldsBranch_of rfl bne_iff_ne, s.yieldsBranch_of rfl (bne_iff_ne.trans (not_congr (hcount 0))),
    s.yieldsBranch_of rfl (beq_iff_eq.trans (hcount 256)), s.yieldsBranch_of rfl (beq_iff_eq.trans (hcount 0)),
    s.yieldsBranch_of rfl ?_, s.yieldsBranch_of rfl ?_, s.yieldsBranch_of (b := true) rfl (iff_of_true rfl trivial),
    s.yieldsBranch_of (b := true) rfl (iff_of_true rfl trivial), fun top ht => s.yieldsBranch_of rfl ?_,
    s.yieldsBranch_of rfl beq_iff_eq⟩
  · rw [decide_eq_true_iff, hn]
    rfl
  · rw [decide_eq_true_iff, hn]
    rfl
  · rw [beq_iff_eq, s.mask_eq_top ht]

/-- Results in flight leave the bundle in progress as it was. -/
theorem State.Gives.iss_eq {s t : State} {l : List Result} (h : s.Gives t l) : t.iss = s.iss := by
  obtain ⟨_, _, honly, _⟩ := h
  have e := congrArg State.iss honly.rest
  exact e

/-- Settles O26: the link is in flight, and then the branch is taken. -/
theorem calls : Obligations.Calls := by
  intro s a o20 goes
  have hlink : s.Gives s.linkHere [⟨1, 6, .link (s.iss.p + BitVec.ofNat 64 s.iss.len)⟩] := s.land_gives _ _ _
  have htaken (target : Word) : s.linkHere.branch true target
      = { s.linkHere with iss := { s.iss with target := some target } } := by
    rw [← hlink.iss_eq]
    rfl
  exact ⟨⟨_, hlink, congrArg Host.Outcome.next (htaken _)⟩, _, hlink, congrArg Host.Outcome.next (htaken _)⟩

/-! ### Hardware loops (R121) -/

theorem exec_loop (s : State) (lvl : Fin 4) (a : Src) (off : BitVec 10) (sw : Bool) :
    exec (if sw then .loopSw lvl a off else .loop lvl a off) s
      = .next (if s.loopEmpty off then s.trapIllegal else s.armLoop lvl sw a off) := by
  cases sw <;> rfl

/-- Settles O27. -/
theorem hardwareLoops : Obligations.HardwareLoops := by
  intro s lvl a off m sw i stop count body
  have hi : exec i s = _ := exec_loop s lvl a off sw
  refine ⟨fun hlen hc => ?_, fun hlen hc => ?_, fun hlen => ?_, rfl⟩
  · rw [hi, State.loopEmpty, if_neg (by simpa using hlen), State.armLoop]
    exact congrArg Host.Outcome.next (if_pos hc)
  · rw [hi, State.loopEmpty, if_neg (by simpa using hlen), State.armLoop]
    exact congrArg Host.Outcome.next (if_neg hc)
  · rw [hi, State.loopEmpty, if_pos (decide_eq_true hlen)]

/-! ### Waits, folds and tokens (R155 to R161) -/

/-- Settles O28. -/
theorem waitsIssue : Obligations.WaitsIssue := fun _ _ _ _ _ _ _ _ => ⟨rfl, rfl, rfl, rfl, rfl, rfl, rfl⟩

theorem and_low32 (w : Word) : w &&& 0xFFFFFFFF = (w.setWidth 32).setWidth 64 := by
  apply BitVec.eq_of_toNat_eq
  rw [BitVec.toNat_and, BitVec.toNat_setWidth, BitVec.toNat_setWidth]
  exact (Nat.and_two_pow_sub_one_eq_mod w.toNat 32).trans
    (Nat.mod_eq_of_lt (lt_trans (Nat.mod_lt _ (by decide)) (by decide))).symm

theorem mem_freed_tokens (s : State) (m : Word) (e : CtxId × TokId × TokState) :
    e ∈ (((List.finRange 64).filter fun t : TokId => bitAt m t.val && (s.cur.tok[t] == .done || s.cur.tok[t] == .error)).map
        fun t => (s.iss.ctx, t, TokState.free))
      ↔ ∃ k : TokId, e = (s.iss.ctx, k, .free) ∧ m.getLsbD k.val = true ∧ (s.cur.tok[k] = .done ∨ s.cur.tok[k] = .error) := by
  simp only [List.mem_map, List.mem_filter, List.mem_finRange, true_and, Bool.and_eq_true, Bool.or_eq_true, beq_iff_eq,
    bitAt_eq]
  exact exists_congr fun k => and_comm.trans (and_congr_left' eq_comm)

/-- Settles O30. -/
theorem foldAndTokenInstructions : Obligations.FoldAndTokenInstructions := by
  intro s f a
  refine ⟨?_, ?_, ?_, _, rfl, fun e => mem_freed_tokens s (s.src a) e⟩
  all_goals
    rw [← and_low32]
    rfl

end Sys2Proof.Machine
end

