-- ==== Sys2Proof/Proofs/Reports.lean ====
section
/-! PROOFS. What a report of a command queue may change (R345, R346), said once: panel memory, the panel, the agenda, the
counters, and the walks that dies have under way. -/

namespace Sys2Proof.Machine

/-- From `s` to `t` a queue has at most read and written memory, translated through its leader and reported. -/
structure State.Reports (s t : State) : Prop where
  dies : ∀ d : DieId, ∃ w, t.die d = { s.die d with walks := w }
  rest : t = { s with dies := t.dies, panel := t.panel, mem := t.mem, memBad := t.memBad, agenda := t.agenda
                      fresh := t.fresh, freeCtr := t.freeCtr }
  memory : s.mem.wf = true → t.mem.wf = true

namespace State.Reports

variable {s t u : State}

theorem refl (s : State) : s.Reports s := ⟨fun _ => ⟨_, rfl⟩, rfl, id⟩

theorem trans (h : s.Reports t) (k : t.Reports u) : s.Reports u := by
  refine ⟨fun d => ?_, ?_, k.memory ∘ h.memory⟩
  · obtain ⟨v, hv⟩ := h.dies d
    obtain ⟨w, hw⟩ := k.dies d
    exact ⟨w, by rw [hw, hv]⟩
  · rw [k.rest, h.rest]

/-- Changing what is neither a die nor panel memory. -/
theorem of_frame (hd : t.dies = s.dies) (hm : t.mem = s.mem)
    (hr : t = { s with dies := t.dies, panel := t.panel, mem := t.mem, memBad := t.memBad, agenda := t.agenda
                       fresh := t.fresh, freeCtr := t.freeCtr }) : s.Reports t :=
  ⟨fun d => ⟨(s.die d).walks, by unfold State.die; rw [hd]⟩, hr, fun h => by rw [hm]; exact h⟩

theorem modQueue (s : State) (q : QueueId) (f : CmdQueue → CmdQueue) : s.Reports (s.modQueue q f) := of_frame rfl rfl rfl

theorem notify (s : State) (n : Notice) : s.Reports (s.notify n) := of_frame rfl rfl rfl

theorem sched (s : State) (due : Nat) (a : Instr) (e : EvArg) : s.Reports (s.sched due a e) := of_frame rfl rfl rfl

theorem schedLater (s : State) (a : Instr) (e : EvArg) : s.Reports (s.schedLater a e) := of_frame rfl rfl rfl

theorem ringBells (s : State) (l : List (Fin 8192)) : s.Reports (s.ringBells l) := by
  unfold State.ringBells
  induction l generalizing s with
  | nil => exact refl s
  | cons n l ih => exact (sched s _ _ _).trans (ih _)

theorem writeMem (s : State) (pa : Nat) (l : List Byte) : s.Reports (s.writeMem pa l) := by
  unfold State.writeMem
  exact trans (t := { s with mem := s.mem.writeAll _, memBad := s.memBad.filter _ })
    ⟨fun _ => ⟨_, rfl⟩, rfl, Memory.wf_writeAll _⟩ (ringBells _ _)

theorem runWrite (s : State) (r : List (Nat × Nat)) (l : List Byte) : s.Reports (s.runWrite r l) := by
  induction r generalizing s l with
  | nil => exact refl s
  | cons p r ih => exact (writeMem s _ _).trans (ih _ _)

theorem walks (s : State) (d : DieId) (w : List Walk) : s.Reports (s.modDie d fun x => { x with walks := w }) := by
  refine ⟨fun e => ?_, rfl, id⟩
  by_cases h : d = e
  · subst h
    exact ⟨w, s.die_modDie d _⟩
  · exact ⟨_, s.die_modDie_other _ h⟩

theorem startWalk (s : State) (d : DieId) (root va : Word) (p : Perm) (who : Requester) :
    s.Reports (s.startWalk d root va p who) := by
  unfold State.startWalk
  have h : s.Reports (s.modDie d fun x => { x with walks := x.walks ++
      [{ id := s.fresh, root := root, va := va, perm := p, who := who }] }).takeFresh :=
    (walks s d _).trans (of_frame rfl rfl rfl)
  dsimp only
  split
  · exact h.trans (schedLater _ _ _)
  · exact h

theorem translate (s : State) (d : DieId) (root va : Word) (p : Perm) (who : Requester) :
    s.Reports (s.translate d root va p who).1 := by
  unfold State.translate
  split
  · exact refl s
  · dsimp only
    split
    · exact refl s
    · exact startWalk s _ _ _ _ _

theorem queueRuns (s : State) (q : QueueId) (k : Fin 5) (va : Word) (p : Perm) (l : List (Nat × Nat)) :
    s.Reports (s.queueRuns q k va p l).1 := by
  induction l generalizing s with
  | nil => exact refl s
  | cons r l ih =>
    unfold State.queueRuns
    dsimp only
    have h := translate s (s.queue q).leader (s.queue q).tables (va + BitVec.ofNat 64 r.1) p (.queue q k)
    generalize s.translate (s.queue q).leader (s.queue q).tables (va + BitVec.ofNat 64 r.1) p (.queue q k) = m at h ⊢
    obtain ⟨t, o⟩ := m
    cases o with
    | none => exact h
    | some e =>
      dsimp only
      have ht := h.trans (ih t)
      generalize t.queueRuns q k va p l = m at ht ⊢
      obtain ⟨u, o⟩ := m
      split
      · exact h
      · cases o <;> exact ht

theorem queueTry (s : State) (q : QueueId) (k : Fin 5) (va : Word) (n : Nat) (p : Perm) :
    s.Reports (s.queueTry q k va n p).1 := by
  unfold State.queueTry
  split
  · exact modQueue s _ _
  · exact queueRuns s _ _ _ _ _

theorem putEntry (s : State) (q : QueueId) (e : List Word) : s.Reports (s.putEntry q e).1 := by
  unfold State.putEntry
  have h := queueTry s q 3 (s.queue q).entryAddr 32 .write
  generalize s.queueTry q 3 (s.queue q).entryAddr 32 .write = m at h ⊢
  obtain ⟨t, o⟩ := m
  cases o with
  | done l => exact h.trans ((runWrite t _ _).trans (modQueue _ _ _))
  | fails c => exact h.trans (modQueue t _ _)
  | migrating => exact h
  | waits => exact h

theorem putLoss (s : State) (q : QueueId) : s.Reports (s.putLoss q) := by
  unfold State.putLoss
  split
  · exact refl s
  · next a w _ =>
    dsimp only
    have h := queueTry s q 4 a 32 .write
    generalize s.queueTry q 4 a 32 .write = m at h ⊢
    obtain ⟨t, o⟩ := m
    cases o with
    | done l => exact h.trans ((runWrite t _ _).trans (modQueue _ _ _))
    | fails c => exact h.trans (modQueue t _ _)
    | migrating => exact h
    | waits => exact h

theorem queueError (s : State) (q : QueueId) (e : List Word) : s.Reports (s.queueError q e) := by
  unfold State.queueError
  dsimp only
  split
  · exact modQueue s _ _
  · exact (modQueue s _ _).trans ((modQueue _ _ _).trans ((putLoss _ q).trans (notify _ _)))

theorem flushReports (s : State) (q : QueueId) (n : Nat) : s.Reports (s.flushReports q n) := by
  induction n generalizing s with
  | zero => exact refl s
  | succ n ih =>
    unfold State.flushReports
    split
    · exact refl s
    · exact (modQueue s _ _).trans (ih _)
    · next e es rest _ =>
      split
      · have h := putEntry s q e
        generalize s.putEntry q e = m at h ⊢
        obtain ⟨t, b⟩ := m
        cases b with
        | false => exact h
        | true =>
          dsimp only
          refine h.trans ((modQueue t q fun c => { c with reports := es :: rest }).trans ?_)
          split
          · exact (queueError _ q e).trans (ih _)
          · exact ih _
      · exact refl s

theorem report (s : State) (q : QueueId) (es : List (List Word)) : s.Reports (s.report q es) :=
  (modQueue s _ _).trans (flushReports _ _ _)

theorem launchEnds (s : State) (q : QueueId) (pkt : Nat) (halted : Bool) : s.Reports (s.launchEnds q pkt halted) :=
  modQueue s _ _

/-! What a report leaves as it was. -/

theorem ctx (h : s.Reports t) (d : DieId) (n : CtxId) : t.ctx d n = s.ctx d n := by
  obtain ⟨w, hw⟩ := h.dies d
  rw [State.ctx, hw]
  rfl

theorem iss (h : s.Reports t) : t.iss = s.iss := by rw [h.rest]

theorem cycle (h : s.Reports t) : t.cycle = s.cycle := by rw [h.rest]

theorem fabric (h : s.Reports t) : t.fabric = s.fabric := by rw [h.rest]

theorem stations (h : s.Reports t) : t.stations = s.stations := by rw [h.rest]

theorem seq (h : s.Reports t) (d : DieId) : (t.die d).seq = (s.die d).seq := by
  obtain ⟨w, hw⟩ := h.dies d
  rw [hw]

end State.Reports

end Sys2Proof.Machine
end

