-- ==== Sys2Proof/Proofs/ControlRegisters.lean ====
section
/-! PROOFS. The control registers as `rdctl` reads them and `wrctl` writes them (R108, R133, R176). -/

namespace Sys2Proof.Machine

/-- A field of a word made of a number. -/
theorem toNat_field_ofNat (n lo w : Nat) : ((BitVec.ofNat 64 n).extractLsb' lo w).toNat = n % 2 ^ 64 / 2 ^ lo % 2 ^ w := by
  simp only [BitVec.extractLsb'_toNat, BitVec.toNat_ofNat, Nat.shiftRight_eq_div_pow]

/-- A field of a word made of a number, as bits. -/
theorem field_ofNat_eq {n lo w : Nat} {v : BitVec w} (h : n % 2 ^ 64 / 2 ^ lo % 2 ^ w = v.toNat) :
    (BitVec.ofNat 64 n).extractLsb' lo w = v := BitVec.eq_of_toNat_eq ((toNat_field_ofNat n lo w).trans h)

/-- A bit of a word made of a number. -/
theorem bit_ofNat_eq {n lo : Nat} {b : Bool} (h : n % 2 ^ 64 / 2 ^ lo % 2 = b.toNat) : (BitVec.ofNat 64 n).getLsbD lo = b := by
  rw [← bitAt_eq, bitAt, BitVec.toNat_ofNat, h]
  cases b <;> rfl

/-! ### Reading -/

theorem Ctx.modeWord_fields (c : Ctx) : c.modeWord.extractLsb' 8 5 = c.tagLimit ∧ c.modeWord.getLsbD 1 = c.opStrict
    ∧ c.modeWord.getLsbD 0 = c.tagWait ∧ c.modeWord.extractLsb' 2 6 = 0 ∧ c.modeWord.extractLsb' 13 51 = 0 := by
  have hl := c.tagLimit.isLt
  have hs := c.opStrict.toNat_le
  have hw := c.tagWait.toNat_le
  unfold Ctx.modeWord
  refine ⟨field_ofNat_eq ?_, bit_ofNat_eq ?_, bit_ofNat_eq ?_, field_ofNat_eq ?_, field_ofNat_eq ?_⟩ <;> simp <;> omega

theorem Window.spillCfg_fields (w : Window) : w.spillCfg.extractLsb' 8 27 = BitVec.ofNat 27 w.carve
    ∧ w.spillCfg.extractLsb' 0 8 = BitVec.ofNat 8 w.slots ∧ w.spillCfg.extractLsb' 35 29 = 0 := by
  unfold Window.spillCfg field
  refine ⟨field_ofNat_eq ?_, field_ofNat_eq ?_, field_ofNat_eq ?_⟩ <;> simp <;> omega

theorem Ctx.spillPtr_fields (c : Ctx) : c.spillPtr.extractLsb' 0 8 = c.spillWp ∧ c.spillPtr.extractLsb' 8 8 = c.spillOp
    ∧ c.spillPtr.getLsbD 16 = c.spillFull ∧ c.spillPtr.extractLsb' 17 47 = 0 := by
  have hw := c.spillWp.isLt
  have ho := c.spillOp.isLt
  have hf := c.spillFull.toNat_le
  unfold Ctx.spillPtr
  refine ⟨field_ofNat_eq ?_, field_ofNat_eq ?_, bit_ofNat_eq ?_, field_ofNat_eq ?_⟩ <;> simp <;> omega

theorem Ctx.preStat_fields (c : Ctx) (cycle : Nat) : (c.preStat cycle).getLsbD 0 = c.reqAt cycle
    ∧ (c.preStat cycle).getLsbD 1 = c.preForce ∧ (c.preStat cycle).getLsbD 2 = c.preDeferred
    ∧ (c.preStat cycle).extractLsb' 3 29 = 0 ∧ (c.preStat cycle).extractLsb' 32 32 = BitVec.ofNat 32 (match c.cutAt with
        | some m => if c.preSeen ≤ cycle then m - cycle else 0
        | none => 0) := by
  have hr := (c.reqAt cycle).toNat_le
  have hf := c.preForce.toNat_le
  have hd := c.preDeferred.toNat_le
  unfold Ctx.preStat field
  cases c.cutAt <;>
    refine ⟨bit_ofNat_eq ?_, bit_ofNat_eq ?_, bit_ofNat_eq ?_, field_ofNat_eq ?_, field_ofNat_eq ?_⟩ <;> simp <;> omega

/-- The lines set in a line map, counted. -/
theorem lineCount_eq (m : BitVec 140) : lineCount m = ((List.range 140).filter fun k => m.getLsbD k).length :=
  popNat_eq 140 m.toNat

theorem lineCount_le (m : BitVec 140) : lineCount m ≤ 140 := by
  rw [lineCount_eq]
  exact (List.length_filter_le _ _).trans_eq List.length_range

theorem Ctx.rsStatusWord_fields (c : Ctx) : c.rsStatusWord.extractLsb' 0 8 = c.rsStatus
    ∧ (c.rsStatusWord.extractLsb' 8 8).toNat = lineCount c.task.dirty
    ∧ (c.rsStatusWord.extractLsb' 16 8).toNat = lineCount c.task.touched ∧ c.rsStatusWord.extractLsb' 24 40 = 0 := by
  have hs := c.rsStatus.isLt
  have hd := lineCount_le c.task.dirty
  have ht := lineCount_le c.task.touched
  unfold Ctx.rsStatusWord field
  refine ⟨field_ofNat_eq ?_, (toNat_field_ofNat _ _ _).trans ?_, (toNat_field_ofNat _ _ _).trans ?_, field_ofNat_eq ?_⟩ <;>
    simp <;> omega

/-- The flags that land by a cycle in a space: those of some flight (R16). -/
theorem Ctx.flagsDue_bit (c : Ctx) (h : Bool) (cycle k : Nat) : (c.flagsDue h cycle).getLsbD k = true ↔
    ∃ x ∈ c.flight, ∃ g : Flg, x.land = .flags g ∧ x.due ≤ cycle ∧ x.hnd = h ∧ g.getLsbD k = true := by
  unfold Ctx.flagsDue
  suffices H : ∀ (l : List Flight) (f : Flg), (l.foldl (fun acc x => match x.land with
      | .flags g => if x.due ≤ cycle && x.hnd == h then acc ||| g else acc
      | _ => acc) f).getLsbD k = true ↔ f.getLsbD k = true ∨
        ∃ x ∈ l, ∃ g : Flg, x.land = .flags g ∧ x.due ≤ cycle ∧ x.hnd = h ∧ g.getLsbD k = true by
    refine (H c.flight 0).trans ?_
    simp
  intro l
  induction l with
  | nil => simp
  | cons x l ih =>
    intro f
    rw [List.foldl_cons, ih]
    cases hx : x.land
    case flags g =>
      by_cases hd : x.due ≤ cycle <;> by_cases hh : x.hnd = h <;> simp [hx, hd, hh, or_assoc]
    all_goals simp [hx]

/-- What `rdctl` reads of a space's flags (R16, R108). -/
theorem Ctx.flgNow_reads (c : Ctx) (h : Bool) (cycle : Nat) : ∃ f : Flg,
    (c.flgNow h cycle).setWidth 64 = ((c.file h).flg ||| f.setWidth 32).setWidth 64
      ∧ ∀ k : Nat, f.getLsbD k = true ↔ ∃ x ∈ c.flight, ∃ g : Flg, x.land = .flags g ∧ x.due ≤ cycle
          ∧ x.hnd = h ∧ g.getLsbD k = true :=
  ⟨c.flagsDue h cycle, rfl, c.flagsDue_bit h cycle⟩

/-! ### Who may -/

theorem supervisorReg_eq_false (cr : CtlReg) : supervisorReg cr = false ↔ cr ∈ [CtlReg.fmt, .flg, .wfVa, .wfVb, .wfSx, .lr] := by
  cases cr <;> decide

theorem CtlReg.writable_eq_false (cr : CtlReg) : cr.writable = false ↔ cr ∈ [CtlReg.wfVa, .wfVb, .wfSx] := by
  cases cr <;> decide

/-- A legal `rdctl` gives the register as it stands. -/
theorem rdctl_yields (s : State) (d : Dst) {cr : CtlReg} (h : (supervisorReg cr && !s.cur.priv) = false) :
    s.Yields (.rdctl d cr) [⟨1, s.intSlot, .scalar d (s.cur.readCtl s.cycle cr)⟩] := by
  refine ⟨_, ?_, s.land_gives 1 s.intSlot (.scalar d (s.cur.readCtl s.cycle cr))⟩
  show Host.Outcome.next (if _ then _ else _) = _
  rw [h]
  rfl

/-- The illegal-encoding trap of the syllable in progress, with its record. -/
theorem State.trapIllegal_eq (s : State) : s.trapIllegal = s.takeTrap s.iss.die s.iss.ctx
    { cause := 1, syl := s.iss.taken, addr := s.iss.p, resume := s.iss.p, info := s.sylBits } := rfl

/-- Settles O21: by the right to the register, then by the word that each register reads as. -/
theorem controlRegisters : Obligations.ControlRegisters := by
  unfold Obligations.ControlRegisters
  intro s d a cr
  have allowed : s.cur.priv = true ∨ cr ∈ [CtlReg.fmt, .flg, .wfVa, .wfVb, .wfSx, .lr] →
      (supervisorReg cr && !s.cur.priv) = false := by
    rintro (h | h)
    · simp [h]
    · simp [(supervisorReg_eq_false cr).mpr h]
  refine ⟨fun h hw => ?_, fun hw => ?_, fun hp ho => ?_, fun h => ?_⟩
  · refine ⟨_, ?_, s.land_gives 1 s.intSlot (.ctl cr (s.src a))⟩
    have hw' : cr.writable = true := by simpa using mt (CtlReg.writable_eq_false cr).mp hw
    show Host.Outcome.next (if _ then _ else _) = _
    rw [hw', allowed h]
    rfl
  · show Host.Outcome.next (if _ then _ else _) = _
    rw [(CtlReg.writable_eq_false cr).mpr hw]
    rfl
  · have hs : supervisorReg cr = true := by simpa using mt (supervisorReg_eq_false cr).mp ho
    constructor
    · show Host.Outcome.next (if _ then _ else _) = _
      rw [hs, hp]
      simp [s.trapIllegal_eq]
    · show Host.Outcome.next (if _ then _ else _) = _
      rw [hs, hp]
      rfl
  · refine ⟨_, rdctl_yields s d (allowed h), ?_⟩
    refine ⟨?_, ?_, ?_, ?_, ?_, ?_, ?_, ?_, ?_, ?_, ?_, ?_, ?_, ?_, ?_, ?_, ?_, ?_⟩
    case refine_5 =>
      rintro k rfl
      fin_cases k <;> rfl
    case refine_3 => rintro rfl; exact s.cur.flgNow_reads _ _
    case refine_4 => rintro rfl; exact s.cur.flgNow_reads _ _
    case refine_14 => rintro rfl; exact s.cur.modeWord_fields
    case refine_15 => rintro rfl; exact s.cur.win.spillCfg_fields
    case refine_16 => rintro rfl; exact s.cur.spillPtr_fields
    case refine_17 => rintro rfl; exact s.cur.preStat_fields _
    case refine_18 =>
      rintro rfl
      obtain ⟨hs, hd, ht, hz⟩ := s.cur.rsStatusWord_fields
      exact ⟨hs, hd.trans (lineCount_eq _), ht.trans (lineCount_eq _), hz⟩
    all_goals rintro rfl; rfl

end Sys2Proof.Machine
end

