-- ==== Sys2Proof/Proofs/WaitsAndLoops.lean ====
section
/-! PROOFS. How a wait stands (R114, R156 to R159) and how the next pc is chosen (R122). -/

namespace Sys2Proof.Machine

/-! ### Waits -/

/-- Tokens that are looked at once they have ended stand met, or in error: never "not yet". -/
theorem Ctx.tokDone_ne_no (c : Ctx) (l : List TokId) : c.tokDone l ≠ .no := by
  unfold Ctx.tokDone
  split <;> simp

theorem State.waitIs_tokens (s : State) (d : DieId) (n : CtxId) (l : List TokId) :
    s.waitIs d n (.tokens l) = .no ↔ ∃ t ∈ l, (s.ctx d n).tok[t] = .pending := by
  show (if l.any fun t => (s.ctx d n).tok[t] == .pending then WaitIs.no else (s.ctx d n).tokDone l) = .no ↔ _
  split
  · next h => simpa using h
  · next h => simpa [Ctx.tokDone_ne_no] using h

theorem State.waitIs_any (s : State) (d : DieId) (n : CtxId) (m : Word) :
    s.waitIs d n (.any m) = .no ↔ m ≠ 0 ∧ ∀ t : TokId, m.getLsbD t.val = true → (s.ctx d n).tok[t] = .pending := by
  have hm : (∃ t : TokId, m.getLsbD t.val = true) ↔ m ≠ 0 := by
    constructor
    · rintro ⟨t, ht⟩ rfl
      simp at ht
    · intro h
      by_contra hn
      exact h (BitVec.eq_of_getLsbD_eq fun k hk => by simpa using fun e => hn ⟨⟨k, hk⟩, e⟩)
  let l := (List.finRange 64).filter fun t : TokId => bitAt m t.val
  have hl : ∀ t, t ∈ l ↔ m.getLsbD t.val = true := fun t => by simp [l, bitAt_eq]
  have he : l.isEmpty = false ↔ m ≠ 0 := by
    rw [← hm, ← Bool.not_eq_true, List.isEmpty_iff, List.eq_nil_iff_forall_not_mem]
    simp [hl]
  show (if l.isEmpty || l.any (fun t => (s.ctx d n).tok[t] != .pending) then (s.ctx d n).tokDone l else WaitIs.no) = .no ↔ _
  rw [← he]
  split
  · next h =>
    simp only [Ctx.tokDone_ne_no, false_iff, not_and, not_forall]
    intro hne
    rw [hne, Bool.false_or, List.any_eq_true] at h
    obtain ⟨t, ht, hp⟩ := h
    exact ⟨t, (hl t).mp ht, by simpa using hp⟩
  · next h =>
    simp only [Bool.or_eq_true, not_or, Bool.not_eq_true] at h
    refine iff_of_true rfl ⟨h.1, fun t ht => ?_⟩
    simpa using List.any_eq_false.mp h.2 t ((hl t).mpr ht)

theorem State.waitIs_fold (s : State) (d : DieId) (n : CtxId) (f : FoldId) (ph : Bool) (h : ((s.die d).folds[f]).err = false) :
    s.waitIs d n (.fold f ph) = .met ↔ ((s.die d).folds[f]).phase = ph := by
  show (if ((s.die d).folds[f]).err then WaitIs.error _ else if ((s.die d).folds[f]).phase == ph then .met else .no) = .met ↔ _
  rw [h]
  simp

theorem State.waitIs_fence (s : State) (d : DieId) (n : CtxId) (k : BitVec 16) (b : Nat) :
    s.waitIs d n (.fence k b) = .no ↔ (s.remoteOpen d n k b = true
      ∨ ∃ a ∈ (s.die d).accs, a.ctx = n ∧ a.isDrain = false ∧ a.bundle < b ∧ k.getLsbD a.cls.val = true) := by
  show (if ((s.die d).accs.any fun a => a.ctx == n && !a.isDrain && decide (a.bundle < b) && natBit k.toNat a.cls.val)
    || s.remoteOpen d n k b then WaitIs.no else .met) = .no ↔ _
  have hb : ∀ i, natBit k.toNat i = k.getLsbD i := fun i => natBit_eq _ _
  rw [ite_eq_left_iff]
  cases s.remoteOpen d n k b <;> simp [hb, and_assoc]

/-- Settles O29, wait by wait. -/
theorem waitConditions : Obligations.WaitConditions := fun s d n l m f ph k b =>
  ⟨s.waitIs_tokens d n l, s.waitIs_any d n m, s.waitIs_fold d n f ph, s.waitIs_fence d n k b, rfl⟩

/-! ### The next pc -/

/-- An armed level that ends at the bundle. -/
def LoopLvl.ends (l : LoopLvl) (seq : Word) : Bool := l.armed && l.stop == seq

/-- A level after an end check that it did not pass: one that ends here is disarmed. -/
def LoopLvl.spent (l : LoopLvl) (seq : Word) : LoopLvl := if l.ends seq then { l with count := 0, armed := false } else l

/-- The end check of one level, where no higher level has gone back. -/
def endStep (seq : Word) (r : Option (Word × Bool) × Vector LoopLvl 4) (i : Fin 4) :
    Option (Word × Bool) × Vector LoopLvl 4 :=
  if r.1.isSome || !r.2[i].ends seq then r
  else if 1 < r.2[i].count.toNat then (some (r.2[i].start, r.2[i].sw), vset r.2 i { r.2[i] with count := r.2[i].count - 1 })
  else (none, vset r.2 i { r.2[i] with count := 0, armed := false })

/-- The end checks of the levels, from the highest down. -/
def endSteps (seq : Word) (ls : Vector LoopLvl 4) : Option (Word × Bool) × Vector LoopLvl 4 :=
  [3, 2, 1, 0].foldl (endStep seq) (none, ls)

theorem endCheck_levels (seq : Word) (ls : Vector LoopLvl 4) : (endCheck seq ls).2.1 = (endSteps seq ls).2 := by
  show Prod.fst (Prod.snd (match (endSteps seq ls).1 with
    | some (a, sw) => (a, (endSteps seq ls).2, sw)
    | none => (seq, (endSteps seq ls).2, false))) = _
  split <;> rfl

theorem endCheck_pc (seq : Word) (ls : Vector LoopLvl 4) : (endCheck seq ls).1 = ((endSteps seq ls).1.map (·.1)).getD seq := by
  show Prod.fst (match (endSteps seq ls).1 with
    | some (a, sw) => (a, (endSteps seq ls).2, sw)
    | none => (seq, (endSteps seq ls).2, false)) = _
  cases (endSteps seq ls).1 <;> rfl

/-- Once a level has gone back, no lower level acts. -/
theorem endStep_foldl_some (seq : Word) (l : List (Fin 4)) (a : Word × Bool) (ls : Vector LoopLvl 4) :
    l.foldl (endStep seq) (some a, ls) = (some a, ls) := by
  induction l with
  | nil => rfl
  | cons i l ih => exact ih

/-- Levels none of which can go back: those that end here are disarmed, the others stay. -/
theorem endStep_foldl_spent {seq : Word} {l : List (Fin 4)} (hl : l.Nodup) {ls : Vector LoopLvl 4}
    (h : ∀ i ∈ l, ls[i].ends seq = true → ls[i].count.toNat ≤ 1) :
    (l.foldl (endStep seq) (none, ls)).1 = none ∧
      ∀ j : Fin 4, (l.foldl (endStep seq) (none, ls)).2[j] = if j ∈ l then ls[j].spent seq else ls[j] := by
  induction l generalizing ls with
  | nil => simp
  | cons i l ih =>
    obtain ⟨hi, hn⟩ := List.nodup_cons.mp hl
    have hstep : endStep seq (none, ls) i = (none, vset ls i (ls[i].spent seq)) := by
      unfold endStep LoopLvl.spent
      cases he : ls[i].ends seq
      · exact congrArg (Prod.mk none) (vset_self ls i).symm
      · simp only [Nat.not_lt.mpr (h i (List.mem_cons_self ..) he)]
        rfl
    have hother : ∀ j, j ≠ i → (vset ls i (ls[i].spent seq))[j] = ls[j] := fun j hj => vset_other _ _ hj.symm
    rw [List.foldl_cons, hstep]
    obtain ⟨hnone, hget⟩ := ih hn (ls := vset ls i (ls[i].spent seq)) fun j hj => by
      rw [hother j fun e => hi (e ▸ hj)]
      exact h j (List.mem_cons_of_mem _ hj)
    refine ⟨hnone, fun j => ?_⟩
    rw [hget j]
    by_cases hj : j = i
    · subst hj
      rw [if_neg hi, if_pos (List.mem_cons_self ..), vset_same]
    · simp only [hother j hj, List.mem_cons, hj, false_or]

/-- The levels in the order of their checks, cut at one of them. -/
theorem levels_split (k : Fin 4) : ∃ hi lo : List (Fin 4), [3, 2, 1, 0] = hi ++ k :: lo ∧ hi.Nodup ∧ ∀ j, j ∈ hi ↔ k < j := by
  fin_cases k
  · exact ⟨[3, 2, 1], [], rfl, by decide, by decide⟩
  · exact ⟨[3, 2], [0], rfl, by decide, by decide⟩
  · exact ⟨[3], [1, 0], rfl, by decide, by decide⟩
  · exact ⟨[], [2, 1, 0], rfl, by decide, by decide⟩

/-- The highest level that can go back does: the higher ones that end here are disarmed, the lower ones stay. -/
theorem endSteps_back {seq : Word} {ls : Vector LoopLvl 4} {k : Fin 4} (he : ls[k].ends seq = true)
    (hc : 1 < ls[k].count.toNat) (h : ∀ j : Fin 4, k < j → ls[j].ends seq = true → ls[j].count.toNat ≤ 1) :
    (endSteps seq ls).1 = some (ls[k].start, ls[k].sw)
      ∧ (endSteps seq ls).2[k] = { ls[k] with count := ls[k].count - 1 }
      ∧ (∀ j : Fin 4, k < j → (endSteps seq ls).2[j] = ls[j].spent seq) ∧ ∀ j : Fin 4, j < k → (endSteps seq ls).2[j] = ls[j] := by
  obtain ⟨hi, lo, hsplit, hn, hmem⟩ := levels_split k
  unfold endSteps
  rw [hsplit, List.foldl_append, List.foldl_cons]
  obtain ⟨hnone, hget⟩ := endStep_foldl_spent hn (seq := seq) (ls := ls) fun j hj => h j ((hmem j).mp hj)
  generalize hi.foldl (endStep seq) (none, ls) = r at hnone hget
  obtain ⟨o, v⟩ := r
  subst hnone
  have hk : v[k] = ls[k] := by
    have := hget k
    rwa [if_neg (by simp [hmem])] at this
  have hstep : endStep seq (none, v) k
      = (some (ls[k].start, ls[k].sw), vset v k { ls[k] with count := ls[k].count - 1 }) := by
    unfold endStep
    simp only [hk, he, hc]
    rfl
  rw [hstep, endStep_foldl_some]
  refine ⟨rfl, vset_same _ _ _, fun j hj => ?_, fun j hj => ?_⟩
  · rw [vset_other _ _ hj.ne, hget j, if_pos ((hmem j).mpr hj)]
  · rw [vset_other _ _ hj.ne', hget j, if_neg (by simp [hmem, Fin.le_of_lt hj])]

/-- Where no level can go back, those that end here are disarmed. -/
theorem endSteps_falls {seq : Word} {ls : Vector LoopLvl 4} (h : ∀ j : Fin 4, ls[j].ends seq = true → ls[j].count.toNat ≤ 1) :
    (endSteps seq ls).1 = none ∧ ∀ j : Fin 4, (endSteps seq ls).2[j] = ls[j].spent seq := by
  obtain ⟨hnone, hget⟩ := endStep_foldl_spent (l := [3, 2, 1, 0]) (by decide) (seq := seq) (ls := ls) fun j _ => h j
  refine ⟨hnone, fun j => (hget j).trans (if_pos ?_)⟩
  fin_cases j <;> decide

theorem LoopLvl.ends_iff (l : LoopLvl) (seq : Word) : l.ends seq = true ↔ l.armed = true ∧ l.stop = seq := by
  simp [LoopLvl.ends]

/-- Settles O31: a branch, a loop write and a clear by the definition, the end checks level by level. -/
theorem nextPc_spec : Obligations.NextPc := by
  unfold Obligations.NextPc
  intro i ls
  refine ⟨fun a ht => ?_, fun ht k l hl => ?_, fun ht hl m hm => ?_, fun ht hl hm => ?_⟩
  · simp [nextPc, ht]
  · simp only [nextPc, ht, hl]
    exact ⟨rfl, vset_same _ _ _, fun j hj => vset_other _ _ hj.symm⟩
  · simp only [nextPc, ht, hl, hm]
    exact ⟨rfl, fun j => by simp [natBit_eq]; rfl⟩
  · have hpc : (nextPc i ls).1 = (endCheck i.after ls).1 := by simp only [nextPc, ht, hl, hm]
    have hls : (nextPc i ls).2.1 = (endCheck i.after ls).2.1 := by simp only [nextPc, ht, hl, hm]
    rw [hpc, hls, endCheck_pc, endCheck_levels]
    refine ⟨fun k hk hc hj => ?_, fun h => ?_⟩
    · obtain ⟨h1, h2, h3, h4⟩ := endSteps_back ((LoopLvl.ends_iff _ i.after).mpr hk) hc
        fun j hkj he => hj j hkj ((LoopLvl.ends_iff _ _).mp he)
      rw [h1]
      exact ⟨rfl, h2, h3, h4⟩
    · obtain ⟨h1, h2⟩ := endSteps_falls (seq := i.after) fun j he => h j ((LoopLvl.ends_iff _ _).mp he)
      rw [h1]
      exact ⟨rfl, h2⟩

end Sys2Proof.Machine
end

