-- ==== Sys2Proof/Proofs/SystemInstructions.lean ====
section
/-! PROOFS. The system instructions and the privileged ones (R124, R135, R177, R181, R185). -/

namespace Sys2Proof.Machine

/-! ### System instructions -/

theorem RegFile.raised_bit (r : RegFile) (k : Nat) :
    r.raised.getLsbD k = (decide (k < 5) && r.flg.getLsbD k && r.flg.getLsbD (8 + k)) := by
  unfold RegFile.raised
  by_cases h : k < 5 <;> simp [h]

theorem RegFile.raised_eq_zero (r : RegFile) :
    r.raised = 0 ↔ ∀ k < 5, r.flg.getLsbD k = false ∨ r.flg.getLsbD (8 + k) = false := by
  constructor
  · intro h k hk
    have := r.raised_bit k
    rw [h] at this
    cases hf : r.flg.getLsbD k
    · exact .inl rfl
    · exact .inr (by simpa [hk, hf] using this.symm)
  · intro h
    refine BitVec.eq_of_getLsbD_eq fun k hk => ?_
    rw [r.raised_bit k]
    rcases h k hk with h | h <;> simp [h]

/-- Changing the context of the bundle in progress is a change there only. -/
theorem State.onlyHere_modCtx (s : State) (f : Ctx → Ctx) : s.OnlyHere (s.modCtx s.iss.die s.iss.ctx f) (f s.cur) :=
  ⟨s.ctx_modCtx _ _ f, fun _ _ h => s.ctx_modCtx_other f h, fun d => s.dies_modCtx _ d _ f, rfl⟩

/-- The lines of a mark of the idempotent region: 0, 3 and 4. -/
theorem touch_idem (f : RegFile) : ((f.touch 0).touch 3).touch 4
    = { f with touched := f.touched ||| 0x19, dirty := f.dirty ||| 0x19 } := by
  have h : ∀ m : BitVec 140, m ||| 1 ||| 8 ||| 16 = m ||| 0x19 := fun m => by rw [BitVec.or_assoc, BitVec.or_assoc]; rfl
  show { f with touched := _, dirty := _ } = _
  congr 1
  · exact h _
  · exact h _

theorem State.branch_eq (s : State) (b : Bool) (target : Word) :
    s.branch b target = if b then { s with iss := { s.iss with target := some target } } else s := by
  cases b <;> rfl

/-- Settles O32, instruction by instruction. -/
theorem systemInstructions : Obligations.SystemInstructions := by
  unfold Obligations.SystemInstructions
  intro s code n off
  refine ⟨rfl, rfl, rfl, fun h => ?_, fun k hk h1 h2 => ?_, ?_, fun hp => ?_, fun hp => ?_⟩
  · show Host.Outcome.next (if s.rf.raised = 0 then s else _) = _
    rw [if_pos (s.rf.raised_eq_zero.mpr h)]
  · have hne : s.rf.raised ≠ 0 := fun h => by simpa [h1, h2] using s.rf.raised_eq_zero.mp h k hk
    refine ⟨s.rf.raised.setWidth 64, ?_, fun j => ?_⟩
    · show Host.Outcome.next (if s.rf.raised = 0 then s else _) = _
      rw [if_neg hne]
      rfl
    · rw [BitVec.getLsbD_setWidth, s.rf.raised_bit]
      by_cases hj : j < 5
      · simp [hj, show j < 64 by omega]
      · simp [hj]
  · exact ⟨_, rfl, s.onlyHere_modCtx _, s.sameBytes_modCtx _ _ _⟩
  · have hm : s.markIdem = s.modCtx s.iss.die s.iss.ctx _ := if_neg (by simp [hp])
    refine ⟨s.markIdem, _, rfl, hm ▸ s.onlyHere_modCtx _, hm ▸ s.sameBytes_modCtx _ _ _, ?_, ?_⟩
    · dsimp only
      rw [touch_idem]
    · show Host.Outcome.next (s.markIdem.branch _ _) = _
      rw [State.branch_eq, hm]
      rfl
  · have hm : s.markIdem = s := if_pos hp
    refine ⟨congrArg _ hm, ?_⟩
    show Host.Outcome.next (s.markIdem.branch _ _) = _
    rw [State.branch_eq, hm]
    rfl

/-! ### Privileged instructions -/

/-- Settles O33: each at task privilege, then each at supervisor privilege. -/
theorem privilegedInstructions : Obligations.PrivilegedInstructions := by
  unfold Obligations.PrivilegedInstructions
  intro s a b w n k
  refine ⟨fun hp i hi => ?_, fun hp => ⟨fun h0 => ?_, fun h0 => ?_, fun ht => ?_, fun ht => ?_, ?_, ?_⟩⟩
  · simp only [List.mem_cons, List.not_mem_nil, or_false] at hi
    obtain rfl | rfl | rfl | rfl | rfl := hi <;> show Host.Outcome.next (if _ then _ else _) = _ <;> simp [hp, s.trapIllegal_eq]
  · show Host.Outcome.next (if _ then _ else if bits (s.src a) 3 7 ≠ 0 then _ else _) = _
    rw [bits_eq, h0]
    simp [hp]
  · have hb : bits (s.src a) 3 7 ≠ 0 := fun h => h0 (BitVec.eq_of_toNat_eq ((bits_eq _ _ _).symm.trans h))
    refine ⟨s.modCtx s.iss.die s.iss.ctx fun c => { c with rsStatus := 5 }, ?_, s.onlyHere_modCtx _, s.sameBytes_modCtx _ _ _⟩
    show Host.Outcome.next (if _ then _ else if bits (s.src a) 3 7 ≠ 0 then _ else _) = _
    rw [if_pos hb]
    simp [hp]
  · show Host.Outcome.next (if _ then _ else _) = _
    simp [hp, ht]
  · show Host.Outcome.next (if _ then _ else _) = _
    simp [ht]
  · show Host.Outcome.next (if _ then _ else _) = _
    simp only [hp, bitAt_eq]
    rfl
  · refine ⟨_, ?_, s.land_gives 3 s.vecSlot (.table (Fin.ofNat 16 (s.src b).toNat) (s.vsrc a))⟩
    show Host.Outcome.next (if _ then _ else _) = _
    simp only [hp]
    rfl

end Sys2Proof.Machine
end

