-- ==== Sys2Proof/Proofs/Traps.lean ====
section
/-! PROOFS. Traps: taken, returned from, and lost (R126 to R135). -/

namespace Sys2Proof.Machine

/-- The state in which a trap is taken: a bundle in progress of the context is gone. -/
def State.dropBundle (s : State) (d : DieId) (n : CtxId) : State :=
  if s.iss.active && s.iss.die == d && s.iss.ctx == n then { s with iss := {} } else s

theorem State.dropBundle_iss (s : State) (d : DieId) (n : CtxId) : s.dropBundle d n = { s with iss := (s.dropBundle d n).iss } := by
  unfold State.dropBundle
  split <;> rfl

@[simp] theorem State.dropBundle_dies (s : State) (d : DieId) (n : CtxId) : (s.dropBundle d n).dies = s.dies := by
  rw [s.dropBundle_iss]

@[simp] theorem State.dropBundle_ctx (s : State) (d e : DieId) (n m : CtxId) : (s.dropBundle d n).ctx e m = s.ctx e m := by
  rw [s.dropBundle_iss]
  rfl

@[simp] theorem State.dropBundle_cycle (s : State) (d : DieId) (n : CtxId) : (s.dropBundle d n).cycle = s.cycle := by
  rw [s.dropBundle_iss]

theorem State.drainDue_issue (s : State) (i : Issue) (e : DieId) (m : CtxId) :
    ({ s with iss := i } : State).drainDue e m = s.drainDue e m := by
  unfold State.drainDue
  simp only [State.die]

@[simp] theorem State.dropBundle_drainDue (s : State) (d e : DieId) (n m : CtxId) :
    (s.dropBundle d n).drainDue e m = s.drainDue e m :=
  (congrArg (fun t => State.drainDue t e m) (s.dropBundle_iss d n)).trans (s.drainDue_issue _ e m)

/-- A context whose trap record has been written, `cause` being the word that tells its cause (R133). -/
def Ctx.record (c : Ctx) (r : TrapRec) (cause : Word) : Ctx :=
  { c with trapCause := cause, trapAddr := r.addr, trapResume := r.resume, trapInfo := r.info }

@[simp] theorem Ctx.record_flight (c : Ctx) (r : TrapRec) (w : Word) : (c.record r w).flight = c.flight := rfl

/-! ### A trap that has a handler -/

/-- A context that enters its handler at `pc`: it runs it from `earliest` on (R131). -/
def Ctx.enterHandler (c : Ctx) (pc : Word) (earliest : Nat) : Ctx :=
  { c with
    priv := true, waits := [], trapEnter := true, pendTrap := none
    st := if c.st == .blocked || c.st == .ending then .ready else if c.st == .held then .running else c.st
    hnd := { c.hnd with pc := pc }
    earliest := earliest }

theorem State.modCtx_modCtx (s : State) (d : DieId) (n : CtxId) (f g : Ctx → Ctx) :
    (s.modCtx d n f).modCtx d n g = s.modCtx d n (g ∘ f) := by
  have h : ∀ x : Die, (x.modCtx n f).modCtx n g = x.modCtx n (g ∘ f) := fun x => by
    simp only [Die.modCtx, Die.setCtx, Die.ctx, vset_same, vset_vset]
    rfl
  simp only [State.modCtx, State.modDie, State.setDie, State.die, vset_same, vset_vset, h]

/-- Writing a context's own record leaves the cycle in which its results have landed. -/
theorem State.drainDue_modCtx (s : State) (d : DieId) (n : CtxId) (f : Ctx → Ctx) (hf : ∀ c, (f c).flight = c.flight) :
    (s.modCtx d n f).drainDue d n = s.drainDue d n := by
  have hx : (s.modCtx d n f).die d = (s.die d).modCtx n f := s.die_modDie d _
  have ha : ((s.die d).modCtx n f).accs = (s.die d).accs := rfl
  simp only [State.drainDue, hx, Die.ctx_modCtx, hf, ha, State.modCtx_agenda]

/-- The record and the entry of the handler are one change of the context. -/
theorem State.record_enter (s : State) (d : DieId) (n : CtxId) (r : TrapRec) (w : Word) (late : Nat) :
    (s.modCtx d n fun c => c.record r w).modCtx d n (fun c => c.enterHandler (c.trapVec &&& ~~~3) late)
      = s.modCtx d n fun c => (c.record r w).enterHandler (c.trapVec &&& ~~~3) late := by
  rw [State.modCtx_modCtx]
  rfl

/-- A trap taken at task privilege, where there is a handler (R131). -/
theorem State.takeTrap_handled (s : State) (d : DieId) (n : CtxId) (r : TrapRec) (hp : (s.ctx d n).priv = false)
    (hv : 4 ≤ (s.ctx d n).trapVec.toNat) : s.takeTrap d n r
      = (s.dropBundle d n).modCtx d n fun c => (c.record r r.word).enterHandler (c.trapVec &&& ~~~3) (max (s.cycle + 3) (s.drainDue d n + 1)) := by
  have hc : ((s.dropBundle d n).modCtx d n fun c => c.record r r.word).cycle = s.cycle :=
    (State.modCtx_cycle _ _ _ _).trans (s.dropBundle_cycle d n)
  have hd : ((s.dropBundle d n).modCtx d n fun c => c.record r r.word).drainDue d n = s.drainDue d n := by
    rw [State.drainDue_modCtx _ _ _ _ fun c => c.record_flight r _, s.dropBundle_drainDue]
  have h : s.takeTrap d n r = ((s.dropBundle d n).modCtx d n fun c => c.record r r.word).modCtx d n fun c =>
      c.enterHandler (c.trapVec &&& ~~~3) (max (((s.dropBundle d n).modCtx d n fun c => c.record r r.word).cycle + 3)
        (((s.dropBundle d n).modCtx d n fun c => c.record r r.word).drainDue d n + 1)) := by
    show (if (s.ctx d n).priv then _ else if (s.ctx d n).trapVec.toNat / 4 = 0 then _ else _) = _
    rw [hp, if_neg Bool.false_ne_true, if_neg (by omega)]
    generalize r.word = w
    rfl
  rw [h, hc, hd]
  exact State.record_enter _ _ _ _ _ _

theorem TrapRec.word_fields (r : TrapRec) :
    r.word.extractLsb' 0 8 = BitVec.ofNat 8 r.cause ∧ r.word.extractLsb' 20 4 = BitVec.ofNat 4 r.syl
      ∧ r.word.extractLsb' 32 16 = r.swCode ∧ r.word.extractLsb' 8 12 = 0 ∧ r.word.extractLsb' 24 8 = 0
      ∧ r.word.extractLsb' 48 16 = 0 := by
  have hw := r.swCode.isLt
  unfold TrapRec.word field
  refine ⟨field_ofNat_eq ?_, field_ofNat_eq ?_, field_ofNat_eq ?_, field_ofNat_eq ?_, field_ofNat_eq ?_, field_ofNat_eq ?_⟩ <;>
    simp <;> omega

/-- A change of one context, after which the bundle in progress of that context is gone, leaves everything else. -/
theorem State.dropBundle_modCtx_frame (s : State) (d : DieId) (n : CtxId) (f : Ctx → Ctx) :
    (∀ (e : DieId) (m : CtxId), e ≠ d ∨ m ≠ n → ((s.dropBundle d n).modCtx d n f).ctx e m = s.ctx e m)
    ∧ (∀ e : DieId, { ((s.dropBundle d n).modCtx d n f).die e with ctxs := (s.die e).ctxs } = s.die e)
    ∧ { (s.dropBundle d n).modCtx d n f with dies := s.dies, iss := s.iss } = s
    ∧ s.SameBytes ((s.dropBundle d n).modCtx d n f)
    ∧ (s.iss.active = true → s.iss.die = d → s.iss.ctx = n → ((s.dropBundle d n).modCtx d n f).iss = {}) := by
  have hs := s.dropBundle_iss d n
  refine ⟨fun e m h => ?_, fun e => ?_, ?_, ?_, fun ha hd hn => ?_⟩
  · rw [State.ctx_modCtx_other _ _ h, State.dropBundle_ctx]
  · have := (s.dropBundle d n).dies_modCtx d e n f
    simpa only [State.die, State.dropBundle_dies] using this
  · rw [hs]
    rfl
  · refine State.SameBytes.trans ?_ (State.sameBytes_modCtx _ _ _ _)
    rw [hs]
    exact State.SameBytes.refl s
  · show (s.dropBundle d n).iss = {}
    simp [State.dropBundle, ha, hd, hn]

/-- What a context that has just taken a trap holds. -/
theorem Ctx.enterHandler_fields {c x : Ctx} {r : TrapRec} {cause pc : Word} {late : Nat}
    (h : x = (c.record r cause).enterHandler pc late) : x.priv = true ∧ x.trapEnter = true ∧ x.waits = []
      ∧ x.trapAddr = r.addr ∧ x.trapResume = r.resume ∧ x.trapInfo = r.info ∧ x.trapCause = cause
      ∧ x.hnd = { c.hnd with pc := pc } ∧ x.task = c.task ∧ x.earliest = late ∧ x.flight = c.flight ∧ x.x = c.x
      ∧ x.tok = c.tok := by
  subst h
  exact ⟨rfl, rfl, rfl, rfl, rfl, rfl, rfl, rfl, rfl, rfl, rfl, rfl, rfl⟩

/-- Settles O34: the trap is one change of the context that takes it. -/
theorem takingATrap : Obligations.TakingATrap := by
  unfold Obligations.TakingATrap
  intro s d n r hp hv t c
  have h : t = _ := s.takeTrap_handled d n r hp hv
  have here := (congrArg (fun t => State.ctx t d n) h).trans (State.ctx_modCtx _ d n _)
  rw [State.dropBundle_ctx] at here
  obtain ⟨hpriv, henter, hwaits, haddr, hresume, hinfo, hcause, hhnd, htask, hlate, hflight, hx, htok⟩ :=
    Ctx.enterHandler_fields here
  have hframe := s.dropBundle_modCtx_frame d n fun c =>
    (c.record r r.word).enterHandler (c.trapVec &&& ~~~3) (max (s.cycle + 3) (s.drainDue d n + 1))
  rw [← h] at hframe
  obtain ⟨hothers, hdies, hrest, hbytes, hiss⟩ := hframe
  refine ⟨hpriv, henter, hwaits, haddr, hresume, hinfo, fun _ _ => ?_, hhnd, htask, ?_, fun f hf => ?_, hflight, hx, htok,
    hothers, hdies, hrest, hbytes, hiss⟩
  · rw [hcause]
    exact r.word_fields
  · rw [hlate]
    exact Nat.le_max_left _ _
  · have := s.drainDue_ge d n f hf
    rw [hlate]
    omega

/-! ### The return from a trap -/

theorem Ctx.startHandler_frame (c : Ctx) : c.startHandler = { c with hndStale := c.startHandler.hndStale, act := c.startHandler.act } := by
  unfold Ctx.startHandler
  split <;> rfl

/-- Settles O36: the return is one change of the context that returns. -/
theorem returnFromTrap : Obligations.ReturnFromTrap := by
  unfold Obligations.ReturnFromTrap
  intro s d n issued he
  have h : s.returnTrap d n issued = s.modCtx d n fun x => { x.startHandler with
      priv := false, trapEnter := false, task := { x.task with pc := x.trapResume &&& ~~~3 }
      earliest := max (issued + 3) (s.drainDue d n + 1) } := if_neg (by simp [he])
  have here : (s.returnTrap d n issued).ctx d n = { (s.ctx d n).startHandler with
      priv := false, trapEnter := false, task := { (s.ctx d n).task with pc := (s.ctx d n).trapResume &&& ~~~3 }
      earliest := max (issued + 3) (s.drainDue d n + 1) } := by
    rw [h, State.ctx_modCtx]
  dsimp only
  rw [here]
  refine ⟨rfl, rfl, rfl, ?_, Nat.le_max_left _ _, fun f hf => ?_, fun e m hm => ?_, ?_, ?_⟩
  · rw [Ctx.startHandler_frame]
  · have := s.drainDue_ge d n f hf
    show f.due < max _ _
    omega
  · rw [h, State.ctx_modCtx_other _ _ hm]
  · rw [h]
    rfl
  · rw [h]
    exact s.sameBytes_modCtx d n _

end Sys2Proof.Machine
end

