-- ==== Sys2Proof/Proofs/LostTasks.lean ====
section
/-! PROOFS. How a task is lost: with its record where there is no handler, at once by a double trap (R131, R132, R134). -/

namespace Sys2Proof.Machine

theorem Die.ops_mapOps (x : Die) (f : Op → Op) : (x.mapOps f).ops = x.ops.map f := by
  simp only [Die.ops, Die.mapOps, Vector.toList_map, List.map_flatten]

/-- After an abort of all of a context's operations each of them is to end at its next boundary. -/
theorem Die.abort_of_abortOps (x : Die) (n : CtxId) : ∀ o ∈ (x.abortOps n 0).ops, o.ctx = n → o.abort = true := by
  intro o ho
  rw [Die.abortOps, Die.ops_mapOps, List.mem_map] at ho
  obtain ⟨p, -, rfl⟩ := ho
  split
  · exact fun _ => rfl
  · next h => exact fun hp => absurd hp (by simpa using h)

/-- The width after a context has given it up. -/
theorem holder_given_up (h : Option CtxId) (n : CtxId) : (if h == some n then none else h) ≠ some n := by
  split
  · simp
  · next hn => simpa using hn

/-- How a context ends that has lost its task or is about to (R132). -/
def Ctx.unhandled (c : Ctx) : Ctx :=
  { c with st := .ending, ending := .noHandler, waits := [], pendTrap := none, cutAt := none }

/-- What a die is after a context on it has given up the width and its operations (R132). -/
structure Die.GaveUp (x : Die) (n : CtxId) : Prop where
  width : x.seq.holder ≠ some n
  aborted : ∀ o ∈ x.ops, o.ctx = n → o.abort = true

theorem State.loseUnhandled_spec (s : State) (d : DieId) (n : CtxId) :
    (s.loseUnhandled d n).ctx d n = (s.ctx d n).unhandled ∧ ((s.loseUnhandled d n).die d).GaveUp n
      ∧ (s.loseUnhandled d n).panel = s.panel := by
  have hd : (s.loseUnhandled d n).die d = _ := s.die_modDie d _
  refine ⟨?_, ?_, rfl⟩
  · rw [State.ctx, hd, Die.ctx_modCtx]
    rfl
  · rw [hd]
    exact ⟨holder_given_up _ _, (s.die d).abort_of_abortOps n⟩

/-- How a context stands whose task is lost (R134). -/
def Ctx.lost (c : Ctx) : Ctx :=
  { c with st := .ending, ending := .lost, waits := [], priv := false, pendTrap := none, cutAt := none, act := none
           ctxswArg := none, hasWin := false }

theorem State.loseTask_spec (s : State) (d : DieId) (n : CtxId) (w2 w3 : Word) (more : List (List Word)) :
    (s.loseTask d n w2 w3 more).ctx d n = (s.ctx d n).lost ∧ ((s.loseTask d n w2 w3 more).die d).GaveUp n := by
  have hr : s.Reports ((s.report (s.ctx d n).queue (taskEntry (s.ctx d n) n 2 w2 w3 :: more)).launchEnds
      (s.ctx d n).queue (s.ctx d n).pkt false) := (State.Reports.report s _ _).trans (State.Reports.launchEnds _ _ _ _)
  unfold State.loseTask
  dsimp only
  generalize (s.report (s.ctx d n).queue (taskEntry (s.ctx d n) n 2 w2 w3 :: more)).launchEnds
      (s.ctx d n).queue (s.ctx d n).pkt false = t at hr
  refine ⟨(State.ctx_modCtx _ d n _).trans ?_, ?_⟩
  · rw [State.ctx, State.die_modDie, State.die_modDie]
    exact congrArg Ctx.lost (hr.ctx d n)
  · show Die.GaveUp (State.die (State.modCtx _ d n _) d) n
    rw [State.modCtx, State.die_modDie, State.die_modDie, State.die_modDie]
    exact ⟨holder_given_up _ _, Die.abort_of_abortOps _ n⟩

/-- A trap without a handler: the record is written, and the task is lost (R132). -/
theorem State.takeTrap_unhandled (s : State) (d : DieId) (n : CtxId) (r : TrapRec) (hp : (s.ctx d n).priv = false)
    (hv : (s.ctx d n).trapVec.toNat < 4) : s.takeTrap d n r
      = ((s.dropBundle d n).modCtx d n fun c => c.record r r.word).loseUnhandled d n := by
  show (if (s.ctx d n).priv then _ else if (s.ctx d n).trapVec.toNat / 4 = 0 then _ else _) = _
  rw [hp, if_neg Bool.false_ne_true, if_pos (by omega)]
  rfl

/-- A double trap (R134). -/
theorem State.takeTrap_double (s : State) (d : DieId) (n : CtxId) (r : TrapRec) (hp : (s.ctx d n).priv = true) :
    s.takeTrap d n r = (s.dropBundle d n).loseTask d n (s.ctx d n).trapAddr
      (BitVec.ofNat 64 (field r.cause 8 8 + 2)) [trapEntry (s.ctx d n) n] := by
  show (if (s.ctx d n).priv then _ else _) = _
  rw [if_pos hp]
  rfl

theorem Ctx.unhandled_fields {c x : Ctx} {r : TrapRec} {cause : Word} (h : x = (c.record r cause).unhandled) :
    x.st = .ending ∧ x.ending = .noHandler ∧ x.priv = c.priv ∧ x.waits = [] ∧ x.trapAddr = r.addr
      ∧ x.trapResume = r.resume ∧ x.trapInfo = r.info ∧ x.trapCause = cause ∧ x.flight = c.flight ∧ x.task = c.task
      ∧ x.hasWin = c.hasWin := by
  subst h
  exact ⟨rfl, rfl, rfl, rfl, rfl, rfl, rfl, rfl, rfl, rfl, rfl⟩

/-- Settles O35, by the privilege at which the trap comes. -/
theorem lostByTrap : Obligations.LostByTrap := by
  unfold Obligations.LostByTrap
  intro s d n r t c ends
  refine ⟨fun hp hv => ?_, fun hp => ?_⟩
  · have h : t = _ := s.takeTrap_unhandled d n r hp hv
    obtain ⟨hctx, hgave, hpanel⟩ := ((s.dropBundle d n).modCtx d n fun c => c.record r r.word).loseUnhandled_spec d n
    rw [← h] at hctx hgave hpanel
    rw [State.ctx_modCtx, State.dropBundle_ctx] at hctx
    obtain ⟨hst, hend, hpriv, hwaits, haddr, hresume, hinfo, hcause, hflight, htask, hwin⟩ := Ctx.unhandled_fields hctx
    refine ⟨⟨hst, hend, hpriv.trans hp, hwaits, hgave.width, hgave.aborted⟩, haddr, hresume, hinfo, hcause, hflight,
      htask, hwin, hpanel.trans ?_⟩
    rw [State.modCtx_panel, s.dropBundle_iss]
  · have h : t = _ := s.takeTrap_double d n r hp
    obtain ⟨hctx, hgave⟩ := (s.dropBundle d n).loseTask_spec d n (s.ctx d n).trapAddr
      (BitVec.ofNat 64 (field r.cause 8 8 + 2)) [trapEntry (s.ctx d n) n]
    rw [← h] at hctx hgave
    rw [State.dropBundle_ctx] at hctx
    refine ⟨⟨?_, ?_, ?_, ?_, hgave.width, hgave.aborted⟩, ?_, ?_, ?_, ?_, ?_⟩ <;> rw [hctx] <;> rfl

end Sys2Proof.Machine
end

