-- ==== Sys2Proof/Proofs/VectorArithmetic.lean ====
section
/-! PROOFS. Vector arithmetic, floating point and integer, element by element (R216 to R222). -/

namespace Sys2Proof.Machine

/-! ### Element-wise forms -/

section forms

variable (s : State) {i : Instr} {lat : Nat} {d : Dst} {t : Ty} {e : Nat → BitVec t.width × Flg}

/-- A two-source form gives every element what its function gives of the two source elements. -/
theorem State.vec2_yields {a b : Src} {w : Option (Mod × Mod)} {f : Nat → Nat → Nat × Flg}
    (hexec : exec i s = .next (s.vec2 lat t d a b w f))
    (he : ∀ j, e j = (BitVec.ofNat t.width (f (elem t.width (s.vmodSrc a (fstMod w)) j).toNat
        (elem t.width (s.vmodSrc b (sndMod w)) j).toNat).1,
      (f (elem t.width (s.vmodSrc a (fstMod w)) j).toNat (elem t.width (s.vmodSrc b (sndMod w)) j).toNat).2)) :
    s.YieldsVec i lat d t.width e := by
  obtain rfl : e = _ := funext he
  exact s.yieldsVec_of hexec (vecOf_zip _ _ _ _)

/-- A one-source form. -/
theorem State.vec1_yields {a : Src} {m : Option Mod} {f : Nat → Nat × Flg}
    (hexec : exec i s = .next (s.vec1 lat t d a m f))
    (he : ∀ j, e j = (BitVec.ofNat t.width (f (elem t.width (s.vmodSrc a (m.getD .none)) j).toNat).1,
      (f (elem t.width (s.vmodSrc a (m.getD .none)) j).toNat).2)) : s.YieldsVec i lat d t.width e := by
  obtain rfl : e = _ := funext he
  exact s.yieldsVec_of hexec (vecOf_map _ _ _)

end forms

/-! ### Floating point -/

/-- The result of one operation on every triple of elements of three sources. -/
theorem vecOf_zip3 (w : Nat) (f : Nat → Nat → Nat → Nat × Flg) (a b c : VReg) :
    let r := collect w (List.zipWith (fun x f => f x) (elems w c)
      (List.zipWith (fun x y z => f x y z) (elems w a) (elems w b)))
    VecOf w (fun j => (BitVec.ofNat w (f (elem w a j).toNat (elem w b j).toNat (elem w c j).toNat).1,
      (f (elem w a j).toNat (elem w b j).toNat (elem w c j).toNat).2)) r.1 r.2 := by
  refine vecOf_collect w _ (fun j => f (elem w a j).toNat (elem w b j).toNat (elem w c j).toNat) (by simp [elems_length]) ?_
  intro j hj
  have hj' : j < 8192 / w := by simpa [elems_length] using hj
  rw [List.getElem_zipWith, List.getElem_zipWith, ← elems_getD _ _ _ hj', ← elems_getD _ _ _ hj', ← elems_getD _ _ _ hj']
  simp [List.getD, elems_length, hj']

/-- `vabs` on a pattern clears its sign bit. -/
theorem fpAbs_eq (t : Ty) (z : BitVec t.width) :
    BitVec.ofNat t.width (fpAbs t z.toNat).1 = z &&& ~~~BitVec.twoPow t.width (t.width - 1) := by
  have hw := width_pos t
  refine BitVec.eq_of_getLsbD_eq fun k hk => ?_
  simp only [fpAbs, noFlag, BitVec.getLsbD_ofNat, Nat.testBit_mod_two_pow, BitVec.getLsbD_and, BitVec.getLsbD_not,
    BitVec.getLsbD_twoPow, BitVec.testBit_toNat, hk]
  by_cases h : k = t.width - 1
  · simp [h, hw]
  · simp [show k < t.width - 1 by omega, Ne.symm h]

/-- `vneg` on a pattern inverts its sign bit. -/
theorem fpNeg_eq (t : Ty) (z : BitVec t.width) :
    BitVec.ofNat t.width (fpNeg t z.toNat).1 = z ^^^ BitVec.twoPow t.width (t.width - 1) := by
  apply BitVec.eq_of_toNat_eq
  have hp : 2 ^ (t.width - 1) < 2 ^ t.width := Nat.pow_lt_pow_right (by decide) (by have := width_pos t; omega)
  show (BitVec.ofNat t.width (Nat.xor (z.toNat % 2 ^ t.width) (2 ^ (t.width - 1)))).toNat = _
  rw [Nat.mod_eq_of_lt z.isLt, BitVec.toNat_ofNat, BitVec.toNat_xor, BitVec.toNat_twoPow, Nat.mod_eq_of_lt hp]
  exact Nat.mod_eq_of_lt (Nat.xor_lt_two_pow z.isLt hp)

/-- Settles O37: each form is its function on every element. -/
theorem vectorFloat : Obligations.VectorFloat := by
  unfold Obligations.VectorFloat
  intro s t d n a b c w m ma mb mc _
  exact ⟨s.vec2_yields rfl fun _ => rfl, s.vec2_yields rfl fun _ => rfl, s.vec2_yields rfl fun _ => rfl,
    s.vec2_yields rfl fun _ => rfl, s.vec2_yields rfl fun _ => rfl, s.vec2_yields rfl fun _ => rfl,
    s.vec1_yields rfl fun _ => rfl, s.yieldsVec_of rfl (vecOf_zip3 t.width (fpFma t s.cap) _ _ _),
    s.yieldsVec_of rfl (vecOf_zip3 t.width (fpFma t s.cap) _ _ _),
    s.vec1_yields rfl fun _ => congrArg (·, 0) (fpAbs_eq t _).symm, s.vec1_yields rfl fun _ => congrArg (·, 0) (fpNeg_eq t _).symm⟩

/-! ### Integers -/

/-- What an element reads as under its type. -/
theorem intVal_toNat (t : Ty) (v : BitVec t.width) : intVal t v.toNat = Ty.int t v := by
  rw [intVal_ofNat, BitVec.ofNat_toNat, BitVec.setWidth_eq]

/-- An element stands in the low bits of a word. -/
theorem exists_low (t : Ty) (v : BitVec t.width) : ∃ a : Word, Ty.low t a = v ∧ a.toNat = v.toNat := by
  have hw : t.width ≤ 64 := by cases t <;> decide
  refine ⟨v.setWidth 64, ?_, BitVec.toNat_setWidth_of_le hw⟩
  rw [Ty.low, BitVec.setWidth_setWidth_of_le _ hw, BitVec.setWidth_eq]

section reduced

variable (s : State) {i : Instr} {lat : Nat} {d : Dst} {t : Ty} {x : Nat → Int}

/-- A two-source form whose elements are reduced integers. -/
theorem State.vec2_reduced {a b : Src} {w : Option (Mod × Mod)} {f : Nat → Nat → Nat × Flg}
    (hexec : exec i s = .next (s.vec2 lat t d a b w f))
    (hf : ∀ j, f (elem t.width (s.vmodSrc a (fstMod w)) j).toNat (elem t.width (s.vmodSrc b (sndMod w)) j).toNat
      = reduce t s.cap.sat (x j)) : s.YieldsReduced i lat t d x :=
  ⟨fun j => (BitVec.ofNat t.width (reduce t s.cap.sat (x j)).1, (reduce t s.cap.sat (x j)).2),
    fun j => reduce_spec t s.cap.sat (x j), s.vec2_yields hexec fun j => by rw [hf]⟩

/-- A one-source form whose elements are reduced integers. -/
theorem State.vec1_reduced {a : Src} {m : Option Mod} {f : Nat → Nat × Flg} (hexec : exec i s = .next (s.vec1 lat t d a m f))
    (hf : ∀ j, f (elem t.width (s.vmodSrc a (m.getD .none)) j).toNat = reduce t s.cap.sat (x j)) :
    s.YieldsReduced i lat t d x :=
  ⟨fun j => (BitVec.ofNat t.width (reduce t s.cap.sat (x j)).1, (reduce t s.cap.sat (x j)).2),
    fun j => reduce_spec t s.cap.sat (x j), s.vec1_yields hexec fun j => by rw [hf]⟩

end reduced

section bits

variable (t : Ty) (p q : BitVec t.width)

theorem intMulh_elem : BitVec.ofNat t.width (intMulh t p.toNat q.toNat)
    = BitVec.ofInt t.width (Ty.int t p * Ty.int t q / 2 ^ t.width) := by
  rw [intMulh, intVal_toNat, intVal_toNat, lowBits_ofNat, Nat.cast_pow, Nat.cast_ofNat]

theorem intShr_elem : BitVec.ofNat t.width (intShr t p.toNat q.toNat) = p >>> (q.toNat % t.width) := by
  obtain ⟨a, rfl, ha⟩ := exists_low t p
  rw [← ha]
  exact intShr_eq t a _

theorem intSar_elem : BitVec.ofNat t.width (intSar t p.toNat q.toNat) = p.sshiftRight (q.toNat % t.width) := by
  obtain ⟨a, rfl, ha⟩ := exists_low t p
  rw [← ha]
  exact intSar_eq t a _

theorem intMin_elem : BitVec.ofNat t.width (intMin t p.toNat q.toNat) = if Ty.int t p ≤ Ty.int t q then p else q := by
  rw [intMin, intVal_toNat, intVal_toNat, Nat.mod_eq_of_lt p.isLt, Nat.mod_eq_of_lt q.isLt]
  split <;> simp

theorem intMax_elem : BitVec.ofNat t.width (intMax t p.toNat q.toNat) = if Ty.int t p ≤ Ty.int t q then q else p := by
  rw [intMax, intVal_toNat, intVal_toNat, Nat.mod_eq_of_lt p.isLt, Nat.mod_eq_of_lt q.isLt]
  split <;> simp

end bits

/-- Settles O38: exact integers reduced to the type, then the forms on the elements' bits. -/
theorem vectorInteger : Obligations.VectorInteger := by
  unfold Obligations.VectorInteger
  intro s t d a b w m _
  have hshl : ∀ k : Nat, ((2 ^ k : Nat) : Int) = 2 ^ k := fun k => by rw [Nat.cast_pow, Nat.cast_ofNat]
  refine ⟨s.vec2_reduced rfl fun j => ?_, s.vec2_reduced rfl fun j => ?_, s.vec2_reduced rfl fun j => ?_,
    s.vec2_reduced rfl fun j => ?_, s.vec1_reduced rfl fun j => ?_, s.vec1_reduced rfl fun j => ?_,
    s.vec2_yields rfl fun j => congrArg (·, 0) (intMulh_elem t _ _).symm,
    s.vec2_yields rfl fun j => congrArg (·, 0) (intShr_elem t _ _).symm,
    s.vec2_yields rfl fun j => congrArg (·, 0) (intSar_elem t _ _).symm,
    s.vec2_yields rfl fun j => congrArg (·, 0) (intMin_elem t _ _).symm,
    s.vec2_yields rfl fun j => congrArg (·, 0) (intMax_elem t _ _).symm⟩
  · rw [intAdd, intVal_toNat, intVal_toNat]
  · rw [intSub, intVal_toNat, intVal_toNat]
  · rw [intMul, intVal_toNat, intVal_toNat]
  · rw [intShl, intVal_toNat, hshl]
    rfl
  · rw [intNeg, intVal_toNat, Int.zero_sub]
  · rw [intAbs, intVal_toNat]
    congr 1
    dsimp only
    split <;> omega

end Sys2Proof.Machine
end

