-- ==== Sys2Proof/Proofs/VectorLogic.lean ====
section
/-! PROOFS. Vector logic, moves and modifiers, compares, and the mask stack at issue (R79, R219, R223 to R226). -/

namespace Sys2Proof.Machine

/-! ### Modifiers -/

/-- Joining patterns puts the first of them lowest. -/
theorem ofNat_joinNat_cons (m w x : Nat) (l : List Nat) :
    BitVec.ofNat (m + w) (joinNat w (x :: l)) = BitVec.ofNat m (joinNat w l) ++ BitVec.ofNat w x := by
  have hlt : x % 2 ^ w < 2 ^ w := Nat.mod_lt _ (Nat.two_pow_pos w)
  apply BitVec.eq_of_toNat_eq
  rw [BitVec.toNat_append, ← Nat.shiftLeft_add_eq_or_of_lt (BitVec.isLt _), Nat.shiftLeft_eq, BitVec.toNat_ofNat,
    BitVec.toNat_ofNat, BitVec.toNat_ofNat]
  show (x % 2 ^ w + 2 ^ w * joinNat w l) % 2 ^ (m + w) = _
  rw [Nat.add_comm m w, Nat.pow_add, Nat.mod_mul, Nat.add_mul_mod_self_left, Nat.mod_mod,
    Nat.add_mul_div_left _ _ (Nat.two_pow_pos w), Nat.div_eq_of_lt hlt, Nat.zero_add, Nat.add_comm, Nat.mul_comm]

theorem ofNat_joinNat_single (w x : Nat) : BitVec.ofNat w (joinNat w [x]) = BitVec.ofNat w x := by
  apply BitVec.eq_of_toNat_eq
  simp [joinNat]

/-- Four patterns joined. -/
theorem ofNat_joinNat_four (w a b c d : Nat) : BitVec.ofNat (w + w + w + w) (joinNat w [a, b, c, d])
    = BitVec.ofNat w d ++ BitVec.ofNat w c ++ BitVec.ofNat w b ++ BitVec.ofNat w a := by
  rw [ofNat_joinNat_cons, ofNat_joinNat_cons, ofNat_joinNat_cons, ofNat_joinNat_single]

/-- Eight nibbles joined. -/
theorem ofNat_joinNat_eight (a b c d e f g h : Nat) : BitVec.ofNat 32 (joinNat 4 [a, b, c, d, e, f, g, h])
    = BitVec.ofNat 4 h ++ BitVec.ofNat 4 g ++ BitVec.ofNat 4 f ++ BitVec.ofNat 4 e ++ BitVec.ofNat 4 d ++ BitVec.ofNat 4 c
      ++ BitVec.ofNat 4 b ++ BitVec.ofNat 4 a := by
  show BitVec.ofNat (4 + 4 + 4 + 4 + 4 + 4 + 4 + 4) _ = _
  rw [ofNat_joinNat_cons, ofNat_joinNat_cons, ofNat_joinNat_cons, ofNat_joinNat_cons, ofNat_joinNat_cons,
    ofNat_joinNat_cons, ofNat_joinNat_cons, ofNat_joinNat_single]

/-- A byte with its nibbles swapped is its high nibble below its low one. -/
theorem joinNat_swapNibbles {c : Nat} (hc : c < 256) {l m : List Nat} (h : joinNat 8 l = joinNat 4 m) :
    joinNat 8 (swapNibbles c :: l) = joinNat 4 (c / 16 :: c % 16 :: m) := by
  show swapNibbles c % 2 ^ 8 + 2 ^ 8 * joinNat 8 l = c / 16 % 2 ^ 4 + 2 ^ 4 * (c % 16 % 2 ^ 4 + 2 ^ 4 * joinNat 4 m)
  have hhi : c / 16 < 16 := by omega
  rw [h, swapNibbles, Nat.mod_eq_of_lt (show c / 16 < 2 ^ 4 from hhi), Nat.mod_eq_of_lt (show c % 16 < 2 ^ 4 from Nat.mod_lt _ (by decide)),
    Nat.mod_eq_of_lt (by omega)]
  ring

/-- A field of a lane. -/
theorem ofNat_eq_field {n w v : Nat} {x : BitVec n} (lo : Nat) (h : v % 2 ^ w = x.toNat / 2 ^ lo % 2 ^ w) :
    BitVec.ofNat w v = x.extractLsb' lo w := by
  apply BitVec.eq_of_toNat_eq
  rw [BitVec.toNat_ofNat, BitVec.extractLsb'_toNat, Nat.shiftRight_eq_div_pow, h]

/-- A lane of a vector that went through a modifier. -/
theorem elem_modVec (m : Mod) (v : VReg) {p : Nat} (hp : p < 256) :
    elem 32 (modVec m v) p = BitVec.ofNat 32 (modLane m (elem 32 v p).toNat) := by
  unfold modVec
  split
  · next h => simp [h, modLane]
  · rw [ofLanes, elem_ofElems _ _ _ hp, lanes_eq_map_range]
    simp [List.getD, hp]

section modifiers

variable (x : BitVec 32)

theorem modLane_halves :
    BitVec.ofNat 32 (modLane .bl x.toNat) = x.extractLsb' 0 16 ++ x.extractLsb' 0 16
    ∧ BitVec.ofNat 32 (modLane .bh x.toNat) = x.extractLsb' 16 16 ++ x.extractLsb' 16 16
    ∧ BitVec.ofNat 32 (modLane .sw x.toNat) = x.extractLsb' 0 16 ++ x.extractLsb' 16 16 := by
  have hx := x.isLt
  have two : ∀ lo hi : Nat, lo < 2 ^ 16 → hi < 2 ^ 16 →
      BitVec.ofNat 32 (lo + 2 ^ 16 * hi) = BitVec.ofNat 16 hi ++ BitVec.ofNat 16 lo := fun lo hi h1 h2 => by
    rw [← ofNat_joinNat_single 16 hi, ← ofNat_joinNat_cons 16]
    congr 1
    show _ = lo % 2 ^ 16 + 2 ^ 16 * (hi % 2 ^ 16 + 2 ^ 16 * 0)
    omega
  have hlo : BitVec.ofNat 16 (x.toNat % 2 ^ 16) = x.extractLsb' 0 16 := ofNat_eq_field 0 (by omega)
  have hhi : BitVec.ofNat 16 (x.toNat / 2 ^ 16) = x.extractLsb' 16 16 := ofNat_eq_field 16 rfl
  rw [← hlo, ← hhi]
  exact ⟨two _ _ (by omega) (by omega), two _ _ (by omega) (by omega), two _ _ (by omega) (by omega)⟩

theorem splitNat_bytes (v : Nat) : splitNat 8 4 v = [v % 256, v / 256 % 256, v / 256 / 256 % 256, v / 256 / 256 / 256 % 256] := rfl

theorem modLane_bytes :
    BitVec.ofNat 32 (modLane .rb x.toNat)
      = x.extractLsb' 0 8 ++ x.extractLsb' 8 8 ++ x.extractLsb' 16 8 ++ x.extractLsb' 24 8
    ∧ BitVec.ofNat 32 (modLane .b0 x.toNat)
      = x.extractLsb' 0 8 ++ x.extractLsb' 0 8 ++ x.extractLsb' 0 8 ++ x.extractLsb' 0 8 := by
  have h0 : BitVec.ofNat 8 (x.toNat % 256) = x.extractLsb' 0 8 := ofNat_eq_field 0 (by omega)
  have h1 : BitVec.ofNat 8 (x.toNat / 256 % 256) = x.extractLsb' 8 8 := ofNat_eq_field 8 (by omega)
  have h2 : BitVec.ofNat 8 (x.toNat / 256 / 256 % 256) = x.extractLsb' 16 8 := ofNat_eq_field 16 (by omega)
  have h3 : BitVec.ofNat 8 (x.toNat / 256 / 256 / 256 % 256) = x.extractLsb' 24 8 := ofNat_eq_field 24 (by omega)
  rw [← h0, ← h1, ← h2, ← h3]
  exact ⟨ofNat_joinNat_four 8 _ _ _ _, ofNat_joinNat_four 8 _ _ _ _⟩

theorem modLane_nibbles :
    BitVec.ofNat 32 (modLane .sn x.toNat) = x.extractLsb' 24 4 ++ x.extractLsb' 28 4 ++ x.extractLsb' 16 4
        ++ x.extractLsb' 20 4 ++ x.extractLsb' 8 4 ++ x.extractLsb' 12 4 ++ x.extractLsb' 0 4 ++ x.extractLsb' 4 4
    ∧ BitVec.ofNat 32 (modLane .rn x.toNat) = x.extractLsb' 0 4 ++ x.extractLsb' 4 4 ++ x.extractLsb' 8 4
        ++ x.extractLsb' 12 4 ++ x.extractLsb' 16 4 ++ x.extractLsb' 20 4 ++ x.extractLsb' 24 4 ++ x.extractLsb' 28 4 := by
  have hx := x.isLt
  constructor
  · have hlist : modLane .sn x.toNat = joinNat 4 [x.toNat % 256 / 16, x.toNat % 256 % 16, x.toNat / 256 % 256 / 16,
        x.toNat / 256 % 256 % 16, x.toNat / 256 / 256 % 256 / 16, x.toNat / 256 / 256 % 256 % 16,
        x.toNat / 256 / 256 / 256 % 256 / 16, x.toNat / 256 / 256 / 256 % 256 % 16] :=
      joinNat_swapNibbles (Nat.mod_lt _ (by decide)) (joinNat_swapNibbles (Nat.mod_lt _ (by decide))
        (joinNat_swapNibbles (Nat.mod_lt _ (by decide)) (joinNat_swapNibbles (Nat.mod_lt _ (by decide)) rfl)))
    rw [hlist, ofNat_joinNat_eight, ofNat_eq_field (x := x) 0 (v := x.toNat % 256 % 16) (by omega),
      ofNat_eq_field (x := x) 4 (v := x.toNat % 256 / 16) (by omega),
      ofNat_eq_field (x := x) 8 (v := x.toNat / 256 % 256 % 16) (by omega),
      ofNat_eq_field (x := x) 12 (v := x.toNat / 256 % 256 / 16) (by omega),
      ofNat_eq_field (x := x) 16 (v := x.toNat / 256 / 256 % 256 % 16) (by omega),
      ofNat_eq_field (x := x) 20 (v := x.toNat / 256 / 256 % 256 / 16) (by omega),
      ofNat_eq_field (x := x) 24 (v := x.toNat / 256 / 256 / 256 % 256 % 16) (by omega),
      ofNat_eq_field (x := x) 28 (v := x.toNat / 256 / 256 / 256 % 256 / 16) (by omega)]
  · have hnibble : ∀ k < 8, BitVec.ofNat 4 ((splitNat 4 8 x.toNat).getD k 0) = x.extractLsb' (4 * k) 4 := fun k hk =>
      ofNat_eq_field (4 * k) (by rw [splitNat_getD _ _ _ _ hk, Nat.mod_mod])
    rw [← hnibble 0 (by decide), ← hnibble 1 (by decide), ← hnibble 2 (by decide), ← hnibble 3 (by decide),
      ← hnibble 4 (by decide), ← hnibble 5 (by decide), ← hnibble 6 (by decide), ← hnibble 7 (by decide)]
    exact ofNat_joinNat_eight _ _ _ _ _ _ _ _

end modifiers

/-! ### Logic and moves -/

/-- A vector result without flags, through the mask. -/
theorem State.vecLand_yields (s : State) {i : Instr} {lat : Nat} {d : Dst} {r : VReg}
    (h : exec i s = .next (s.vecLand lat d (r, 0))) : s.Yields i [⟨lat, s.vecSlot, .vector d r s.rf.mask⟩] :=
  ⟨_, h, s.vecLand_gives lat d (r, 0)⟩

/-- A vector result without flags that lands in every lane. -/
theorem State.vecLandAll_yields (s : State) {i : Instr} {lat slot : Nat} {d : Dst} {r : VReg}
    (h : exec i s = .next (s.vecLandAll lat slot d (r, 0))) : s.Yields i [⟨lat, slot, .vector d r (BitVec.allOnes 256)⟩] :=
  ⟨_, h, s.landF_gives lat slot (.vector d r (BitVec.allOnes 256)) 0⟩

theorem elem_replicate (w n : Nat) {j : Nat} (hj : j < 8192 / w) :
    elem w (ofElems w (List.replicate (8192 / w) n)) j = BitVec.ofNat w n := by
  rw [elem_ofElems _ _ _ hj]
  simp [List.getD, hj]

theorem State.vbcast_yields (s : State) (t : Ty) (d : Dst) (a : Src) (v : Bool) :
    s.YieldsVec (.vbcast t d a v) 2 d t.width fun _ => ((s.src a).setWidth t.width, 0) := by
  have h : VecOf t.width (fun _ => ((s.src a).setWidth t.width, 0))
      (ofElems t.width (List.replicate (8192 / t.width) (s.srcN a))) 0 := by
    refine ⟨fun j hj => ?_, (foldl_or_no_flags _).symm⟩
    rw [elem_replicate _ _ hj]
    exact BitVec.eq_of_toNat_eq (by simp [State.srcN])
  exact s.yieldsVec_of rfl h

/-- The bits of a mask as a list over the lanes. -/
theorem maskBits_eq_map_range (m : Mask) : maskBits m = (List.range 256).map fun p => m.getLsbD p := by
  unfold maskBits
  rw [list_eq_range (splitNat 1 256 m.toNat) (fun p => m.toNat / 2 ^ p % 2) 256 (splitNat_length ..) fun p hp => ?_, List.map_map]
  · refine List.map_congr_left fun p _ => ?_
    rw [← BitVec.testBit_toNat, ← natBit_eq]
    rfl
  · rw [splitNat_length] at hp
    rw [← List.getD_eq_getElem _ 0, splitNat_getD _ _ _ _ hp, Nat.one_mul, pow_one]

theorem State.mget_yields (s : State) (d : Dst) (v : Bool) :
    ∃ r, s.Yields (.mget d v) [⟨2, s.vecSlot, .vector d r (BitVec.allOnes 256)⟩]
      ∧ ∀ p, p < 256 → elem 32 r p = if s.rf.mask.getLsbD p then 0xFFFFFFFF else 0 := by
  refine ⟨_, s.vecLandAll_yields rfl, fun p hp => ?_⟩
  rw [ofLanes, elem_ofElems _ _ _ hp, maskBits_eq_map_range]
  cases h : s.rf.mask.getLsbD p <;> rw [BitVec.getLsbD_eq_getElem hp] at h <;> simp [List.getD, hp, h]

/-- Settles O39: each bitwise form is one vector; a modifier's lane is what `modLane` makes of it. -/
theorem vectorLogic : Obligations.VectorLogic := by
  unfold Obligations.VectorLogic
  refine ⟨fun s t d a b c w m k v => ?_, fun m v p hp => ?_⟩
  · exact ⟨s.vecLand_yields rfl, s.vecLand_yields rfl, s.vecLand_yields rfl, s.vecLand_yields rfl, s.vecLand_yields rfl,
      s.vecLand_yields rfl, s.vecLand_yields rfl, s.vbcast_yields t d a v, s.mget_yields d v⟩
  · dsimp only
    rw [elem_modVec m v hp]
    generalize elem 32 v p = x
    obtain ⟨hbl, hbh, hsw⟩ := modLane_halves x
    obtain ⟨hrb, hb0⟩ := modLane_bytes x
    obtain ⟨hsn, hrn⟩ := modLane_nibbles x
    cases m
    case none => simp [modLane]
    case bl => exact hbl
    case bh => exact hbh
    case sw => exact hsw
    case rb => exact hrb
    case b0 => exact hb0
    case sn => exact hsn
    case rn => exact hrn

end Sys2Proof.Machine
end

