-- ==== Sys2Proof/Proofs/VectorCompares.lean ====
section
/-! PROOFS. Vector compares with their wide flags, and the mask stack at issue (R128, R219, R224 to R226). -/

namespace Sys2Proof.Machine

/-! ### How two elements compare -/

theorem isNan_ofInt (x : Int) : (ofInt x).isNan = false := by
  unfold ofInt
  split <;> rfl

theorem scaled_natAbs (x : Int) : scaled (decide (x < 0)) x.natAbs 1 0 0 = x := by
  by_cases h : x < 0
  · simp only [scaled, h, decide_true, if_true, sub_self, Int.toNat_zero, pow_zero, mul_one]
    omega
  · simp only [scaled, h, decide_false, Bool.false_eq_true, if_false, sub_self, Int.toNat_zero, pow_zero, mul_one]
    omega

/-- Integers compare as integers. -/
theorem cmpVal_ofInt (x y : Int) : cmpVal (ofInt x) (ofInt y) = compare x y := by
  have hneg : ∀ z : Int, z ≠ 0 → (if decide (z < 0) then Ordering.gt else .lt) = compare 0 z := fun z hz => by
    rcases lt_or_gt_of_ne hz with h | h
    · rw [if_pos (by simpa using h), compare_gt_iff_gt.mpr h]
    · rw [if_neg (by simpa using h.le), compare_lt_iff_lt.mpr h]
  have hpos : ∀ z : Int, z ≠ 0 → (if decide (z < 0) then Ordering.lt else .gt) = compare z 0 := fun z hz => by
    rcases lt_or_gt_of_ne hz with h | h
    · rw [if_pos (by simpa using h), compare_lt_iff_lt.mpr h]
    · rw [if_neg (by simpa using h.le), compare_gt_iff_gt.mpr h]
  unfold ofInt
  split
  · next hx =>
    split
    · next hy => rw [hx, hy]; rfl
    · next hy => rw [hx]; exact hneg y hy
  · next hx =>
    split
    · next hy => rw [hy]; exact hpos x hx
    · show compare (scaled _ _ 1 0 (min 0 0)) (scaled _ _ 1 0 (min 0 0)) = _
      rw [min_self, scaled_natAbs, scaled_natAbs]

/-- The value of an integer element. -/
theorem elemVal_int {t : Ty} (ht : t.isVecInt = true) (flush : Bool) (v : BitVec t.width) :
    elemVal t flush v.toNat = ofInt (Ty.int t v) := by
  have h1 : t ≠ .d8 := by rintro rfl; simp [Ty.isVecInt] at ht
  have h2 : isIntTy t = true := by simp [isIntTy, ht]
  rw [elemVal, if_neg h1, if_pos h2, intVal_toNat]

/-! ### What a compare gives of two elements -/

/-- All ones where a condition holds, zero elsewhere. -/
def onesIf (w : Nat) (h : Bool) : BitVec w := if h then BitVec.allOnes w else 0

theorem ofNat_onesIf (w : Nat) (h : Bool) : BitVec.ofNat w (if h then 2 ^ w - 1 else 0) = onesIf w h := by
  cases h
  · rfl
  · exact (BitVec.eq_of_toNat_eq (by simp) : BitVec.ofNat w (2 ^ w - 1) = BitVec.allOnes w)

/-- The pattern of a compare and its flags. -/
theorem cmpRes_eq (k : VCmp) (t : Ty) (flush : Bool) (a b : Nat) :
    (BitVec.ofNat t.width (cmpRes k t flush a b).1, (cmpRes k t flush a b).2)
      = (onesIf t.width (k.holds (cmpElem t flush (k != .lt && k != .le) a b).1),
          (cmpElem t flush (k != .lt && k != .le) a b).2) := by
  simp only [cmpRes, ofNat_onesIf]

/-- What the conditions make of two elements, and the flags: a pair with a NaN is unordered. -/
theorem cmpElem_spec (t : Ty) (flush quiet : Bool) (a b : Nat) :
    let x := elemVal t flush a
    let y := elemVal t flush b
    let nan := x.isNan || y.isNan
    let r := cmpElem t flush quiet a b
    VCmp.holds .eq r.1 = (!nan && cmpVal x y == .eq) ∧ VCmp.holds .ne r.1 = (nan || cmpVal x y != .eq)
      ∧ VCmp.holds .lt r.1 = (!nan && cmpVal x y == .lt) ∧ VCmp.holds .le r.1 = (!nan && cmpVal x y != .gt)
      ∧ VCmp.holds .un r.1 = nan
      ∧ r.2 = if nan then (if quiet then sigFlag x ||| sigFlag y else fInvalid) else 0 := by
  dsimp only [cmpElem]
  cases (elemVal t flush a).isNan || (elemVal t flush b).isNan
  · cases cmpVal (elemVal t flush a) (elemVal t flush b) <;> exact ⟨rfl, rfl, rfl, rfl, rfl, rfl⟩
  · exact ⟨rfl, rfl, rfl, rfl, rfl, rfl⟩

theorem cmpElem_int {t : Ty} (ht : t.isVecInt = true) (flush quiet : Bool) (p q : BitVec t.width) :
    cmpElem t flush quiet p.toNat q.toNat = (some (compare (Ty.int t p) (Ty.int t q)), 0) := by
  simp only [cmpElem, elemVal_int ht, isNan_ofInt, Bool.or_self, Bool.false_eq_true, if_false, cmpVal_ofInt]

/-- The conditions, of two integers. -/
theorem VCmp.holds_compare (x y : Int) :
    VCmp.holds .eq (some (compare x y)) = (x == y) ∧ VCmp.holds .ne (some (compare x y)) = (x != y)
    ∧ VCmp.holds .lt (some (compare x y)) = decide (x < y) ∧ VCmp.holds .le (some (compare x y)) = decide (x ≤ y) := by
  rcases lt_trichotomy x y with h | rfl | h
  · rw [compare_lt_iff_lt.mpr h]
    simp [VCmp.holds, h, h.ne, h.le]
  · rw [compare_eq_iff_eq.mpr rfl]
    simp [VCmp.holds]
  · rw [compare_gt_iff_gt.mpr h]
    simp [VCmp.holds, h.ne', h.le, h]

/-- A compare of two vectors, element by element. -/
theorem State.vecCmp_yields (s : State) (k : VCmp) {i : Instr} {t : Ty} {d : Dst} {a b : Src} {w : Option (Mod × Mod)}
    {e : Nat → BitVec t.width × Flg} (hexec : exec i s = .next (s.vecCmp k t d a b w))
    (he : ∀ j, e j = (onesIf t.width (k.holds (cmpElem t s.cap.flush (k != .lt && k != .le)
        (elem t.width (s.vmodSrc a (fstMod w)) j).toNat (elem t.width (s.vmodSrc b (sndMod w)) j).toNat).1),
      (cmpElem t s.cap.flush (k != .lt && k != .le)
        (elem t.width (s.vmodSrc a (fstMod w)) j).toNat (elem t.width (s.vmodSrc b (sndMod w)) j).toNat).2)) :
    s.YieldsWide i d t.width e := by
  have h := vecOf_zip t.width (cmpRes k t s.cap.flush) (s.vmodSrc a (fstMod w)) (s.vmodSrc b (sndMod w))
  simp only [cmpRes_eq] at h
  obtain rfl : e = _ := funext he
  exact s.yieldsWide_of hexec h

/-- Settles O40: integers by their order, the other types by their values, an unordered pair apart. -/
theorem vectorCompares : Obligations.VectorCompares := by
  unfold Obligations.VectorCompares
  intro s t d a b w m
  refine ⟨fun ht => ?_, fun _ => ?_, s.vevt_yields t d a b m⟩
  · refine ⟨s.vecCmp_yields .eq rfl fun j => ?_, s.vecCmp_yields .ne rfl fun j => ?_, s.vecCmp_yields .lt rfl fun j => ?_,
      s.vecCmp_yields .le rfl fun j => ?_⟩ <;> rw [cmpElem_int ht] <;>
      obtain ⟨heq, hne, hlt, hle⟩ := VCmp.holds_compare (Ty.int t (elem t.width (s.vmodSrc a (fstMod w)) j))
        (Ty.int t (elem t.width (s.vmodSrc b (sndMod w)) j))
    · rw [heq]; rfl
    · rw [hne]; rfl
    · rw [hlt]; rfl
    · rw [hle]; rfl
  · refine ⟨s.vecCmp_yields .eq rfl fun j => ?_, s.vecCmp_yields .ne rfl fun j => ?_, s.vecCmp_yields .lt rfl fun j => ?_,
      s.vecCmp_yields .le rfl fun j => ?_, s.vecCmp_yields .un rfl fun j => ?_⟩ <;>
      obtain ⟨heq, hne, hlt, hle, hun, hflag⟩ := cmpElem_spec t s.cap.flush _
        (elem t.width (s.vmodSrc a (fstMod w)) j).toNat (elem t.width (s.vmodSrc b (sndMod w)) j).toNat
    · rw [heq, hflag]; rfl
    · rw [hne, hflag]; rfl
    · rw [hlt, hflag]; rfl
    · rw [hle, hflag]; rfl
    · rw [hun, hflag]; rfl

/-! ### The mask stack -/

theorem getLsbD_ofMaskBits (l : List Bool) {p : Nat} (hp : p < 256) : (ofMaskBits l).getLsbD p = l.getD p false := by
  have h := joinNat_getD 1 (l.map Bool.toNat) p
  rw [Nat.one_mul, pow_one] at h
  have hb : ∀ b : Bool, (b.toNat % 2 == 1) = b := fun b => by cases b <;> rfl
  rw [← BitVec.testBit_toNat, ← natBit_eq, ofMaskBits, BitVec.toNat_ofNat, natBit_eq, Nat.testBit_mod_two_pow, ← natBit_eq,
    natBit, h]
  simp [hp, List.getD]
  cases l[p]? <;> simp [hb]

theorem getLsbD_condMask (v : VReg) {p : Nat} (hp : p < 256) : (condMask v).getLsbD p = decide (elem 32 v p ≠ 0) := by
  rw [condMask, getLsbD_ofMaskBits _ hp, lanes_eq_map_range]
  simp [List.getD, hp, bne, BitVec.toNat_eq, Bool.beq_eq_decide_eq]

/-- Moving the issue depth once a result is in flight. -/
theorem State.Gives.setIssueDepth_eq {s t : State} {l : List Result} (h : s.Gives t l) (n : Nat) :
    t.setIssueDepth n = t.modCtx s.iss.die s.iss.ctx fun c => c.modFile c.priv fun r => { r with depthIssue := n } := by
  rw [State.setIssueDepth, h.iss_eq]

/-- Settles O41, instruction by instruction and by the issue depth. -/
theorem maskStackIssue : Obligations.MaskStackIssue := by
  unfold Obligations.MaskStackIssue
  intro s a m v
  refine ⟨condMask (s.vmodSrc a (m.getD .none)), fun p hp => getLsbD_condMask _ hp, fun h => ?_, fun h => ?_, fun h => ?_,
    fun h => ?_, ⟨_, rfl, s.land_gives _ _ _⟩, ⟨_, rfl, s.land_gives _ _ _⟩⟩
  · show Host.Outcome.next (if 8 ≤ s.rf.depthIssue then _ else _) = _
    rw [if_pos h]
    rfl
  · have hg := s.land_gives 3 s.vecSlot (.mpush (condMask (s.vmodSrc a (m.getD .none))))
    refine ⟨_, hg, ?_⟩
    show Host.Outcome.next (if 8 ≤ s.rf.depthIssue then _ else _) = _
    rw [if_neg (by omega), ← hg.setIssueDepth_eq]
  · show Host.Outcome.next (if s.rf.depthIssue ≤ 1 then _ else _) = _
    rw [if_pos h]
    rfl
  · have hg := s.land_gives 3 s.vecSlot .mpop
    refine ⟨_, hg, ?_⟩
    show Host.Outcome.next (if s.rf.depthIssue ≤ 1 then _ else _) = _
    rw [if_neg (by omega), ← hg.setIssueDepth_eq]

end Sys2Proof.Machine
end

