-- ==== Sys2Proof/Proofs/VectorMemory.lean ====
section
/-! PROOFS. Vector loads and stores at issue (R89, R240 to R243). -/

namespace Sys2Proof.Machine

/-- The access that a vector memory syllable stages. -/
def State.staged (s : State) (lat : Nat) (ord : PortStep) (tag : Option (BitVec 8)) (cls : Fin 16) (k : AccKind) : Access :=
  { id := s.fresh, due := s.cycle + lat, ord := ord, ctx := s.iss.ctx, bundle := s.iss.bundle, hnd := s.cur.priv
    slot := s.vecSlot, cls := cls, tag := tag, pc := s.iss.p, win := s.cur.win, kind := k }

theorem State.stage_eq (s : State) (lat : Nat) (ord : PortStep) (tag : Option (BitVec 8)) (own : Fin 16) (k : AccKind) :
    s.stage lat ord tag own k = { s with
      iss := { s.iss with staged := s.iss.staged ++ [s.staged lat ord tag (s.classOf own) k] }, fresh := s.fresh + 1 } := by
  rw [State.stage, s.clsOf_eq]
  rfl

theorem State.vecLoad_eq (s : State) (d : Dst) (x : VAddr) (own : Fin 16) : s.vecLoad d x own = { s with
    iss := { s.iss with
      staged := s.iss.staged ++ [s.staged 5 .read s.wantTag (s.classOf own) (.vload d x s.rf.mask {})] }
    fresh := s.fresh + 1 } := by
  rw [State.vecLoad, s.tagOf_eq, s.stage_eq]

theorem State.vecStore_eq (s : State) (v : Src) (x : VAddr) (own : Fin 16) : s.vecStore v x own = { s with
    iss := { s.iss with
      staged := s.iss.staged ++ [s.staged 9 .netWrite none (s.classOf own) (.vstore x (s.vsrc v) s.rf.mask {})] }
    fresh := s.fresh + 1 } := by
  rw [State.vecStore, s.stage_eq]

theorem straightOff_zero (a : Word) (m : VMem) : straightOff a 0 (some m) = (a + 1024 * m.off9.signExtend 64) &&& ~~~7 := by
  rw [straightOff, show a + 0 = a from BitVec.add_zero a]
  rfl

/-- Settles O44: each form stages one access; a form without memory fields has row offset 0 and class 0. -/
theorem vectorMemoryIssue : Obligations.VectorMemoryIssue := by
  unfold Obligations.VectorMemoryIssue
  intro s d v a b w m k
  refine ⟨?_, ?_, ?_, ?_, ?_, ?_⟩
  · cases w <;> exact congrArg Host.Outcome.next (s.vecLoad_eq d _ _)
  · show Host.Outcome.next (s.vecLoad d (.straight (straightOff (s.src a) 0 (some m))) m.cls) = _
    rw [straightOff_zero]
    exact congrArg Host.Outcome.next (s.vecLoad_eq d _ _)
  · cases w <;> exact congrArg Host.Outcome.next (s.vecStore_eq v _ _)
  · show Host.Outcome.next (s.vecStore v (.straight (straightOff (s.src a) 0 (some m))) m.cls) = _
    rw [straightOff_zero]
    exact congrArg Host.Outcome.next (s.vecStore_eq v _ _)
  · cases k <;> exact congrArg Host.Outcome.next (s.vecLoad_eq d _ _)
  · cases k <;> exact congrArg Host.Outcome.next (s.vecStore_eq v _ _)

end Sys2Proof.Machine
end

