-- ==== Sys2Proof/Proofs/Scans.lean ====
section
/-! PROOFS. The scan unit at issue: scans, reductions, `compress` and `expand` (R245 to R247). -/

namespace Sys2Proof.Machine

/-! ### Landing -/

theorem State.scanLand_yields (s : State) {i : Instr} {lat : Nat} {d : Dst} {x : VReg} {r : VReg × Flg}
    (h : exec i s = .next (s.scanLand lat d x r)) : ∃ n : BitVec 9,
      n.toNat = ((List.range 256).filter fun p => elem 32 x p ≠ 0).length
      ∧ s.Yields i (withFlags lat 5 (.vector d r.1 (BitVec.allOnes 256)) r.2 ++ [⟨3, 5, .wide .sx n⟩]) :=
  ⟨laneCount x, laneCount_toNat x, _, h,
    (s.landF_gives lat slotSX (.vector d r.1 (BitVec.allOnes 256)) r.2).trans (State.land_gives _ 3 slotSX _)⟩

/-! ### Signalling NaNs among the present lanes -/

/-- The present lanes, of some property. -/
theorem any_present (v : VReg) (m : Mask) (f : Nat → Bool) : ((List.zip (lanes v) (maskBits m)).any fun x => x.2 && f x.1) = true
    ↔ ∃ p, p < 256 ∧ m.getLsbD p = true ∧ f (elem 32 v p).toNat = true := by
  rw [lanes_eq_map_range, maskBits_eq_map_range, List.zip_map', List.any_map, List.any_eq_true]
  simp

/-! ### Present lanes in order -/

/-- The number of present lanes before a lane. -/
def presentBefore (f : Nat → Bool) (p : Nat) : Nat := ((List.range p).filter f).length

/-- The present lanes, in lane order: each stands at the number of present lanes before it. -/
theorem filter_range_getD (f : Nat → Bool) {n p : Nat} (hp : p < n) (hf : f p = true) (g : Nat → Nat) :
    (((List.range n).filter f).map g).getD (presentBefore f p) 0 = g p := by
  obtain ⟨k, rfl⟩ : ∃ k, n = p + (k + 1) := ⟨n - p - 1, by omega⟩
  rw [List.range_add, List.range_succ_eq_map, List.filter_append, List.map_append, presentBefore]
  simp [List.getD, hf]

theorem compressLanes_eq (v : VReg) (m : Mask) : compressLanes (lanes v) (maskBits m)
    = (((List.range 256).filter fun p => m.getLsbD p).map fun p => (elem 32 v p).toNat)
      ++ List.replicate (256 - presentBefore (fun p => m.getLsbD p) 256) 0 := by
  have h : ((List.zip (lanes v) (maskBits m)).filter (·.2)).map (·.1)
      = ((List.range 256).filter fun p => m.getLsbD p).map fun p => (elem 32 v p).toNat := by
    rw [lanes_eq_map_range, maskBits_eq_map_range, List.zip_map', List.filter_map, List.map_map]
    rfl
  rw [compressLanes, h, List.length_map]
  rfl

theorem presentBefore_lt {f : Nat → Bool} {n p : Nat} (hp : p < n) (hf : f p = true) : presentBefore f p < presentBefore f n := by
  obtain ⟨k, rfl⟩ : ∃ k, n = p + (k + 1) := ⟨n - p - 1, by omega⟩
  rw [presentBefore, presentBefore, List.range_add, List.range_succ_eq_map, List.filter_append, List.length_append]
  simp [hf]

theorem presentBefore_le (f : Nat → Bool) (n : Nat) : presentBefore f n ≤ n := by
  have := List.length_filter_le f (List.range n)
  rwa [List.length_range] at this

/-- `compress` moves each present lane to its place in their order. -/
theorem elem_compress (v : VReg) (m : Mask) {p : Nat} (hp : p < 256) (hm : m.getLsbD p = true) :
    elem 32 (ofLanes (compressLanes (lanes v) (maskBits m))) (presentBefore (fun p => m.getLsbD p) p) = elem 32 v p := by
  have hlt := presentBefore_lt (f := fun p => m.getLsbD p) hp hm
  have hle := presentBefore_le (fun p => m.getLsbD p) 256
  rw [ofLanes, elem_ofElems _ _ _ (by omega), compressLanes_eq, List.getD_append _ _ _ _ (by simpa [presentBefore] using hlt),
    filter_range_getD (fun p => m.getLsbD p) hp hm]
  simp

/-- After the present lanes `compress` gives zeros. -/
theorem elem_compress_rest (v : VReg) (m : Mask) {p : Nat} (hp : p < 256)
    (h : presentBefore (fun p => m.getLsbD p) 256 ≤ p) : elem 32 (ofLanes (compressLanes (lanes v) (maskBits m))) p = 0 := by
  rw [ofLanes, elem_ofElems _ _ _ hp, compressLanes_eq, List.getD_append_right _ _ _ _ (by simpa [presentBefore] using h)]
  simp

theorem expandLanes_getD (l : List Nat) (m : List Bool) {p : Nat} (hp : p < m.length) : (expandLanes l m).getD p 0
    = if m.getD p false then l.getD ((m.take p).countP id) 0 else 0 := by
  induction m generalizing l p with
  | nil => simp at hp
  | cons b m ih =>
    cases l with
    | nil =>
      cases p with
      | zero => simp [expandLanes]
      | succ p => simpa [expandLanes] using ih [] (by simpa using hp)
    | cons x l =>
      cases p with
      | zero => cases b <;> simp [expandLanes]
      | succ p =>
        have hp' : p < m.length := by simpa using hp
        cases b
        · simpa [expandLanes] using ih (x :: l) hp'
        · simpa [expandLanes, List.countP_cons] using ih l hp'

/-- `expand` gives each present lane the lane of its place in their order, and the others zero. -/
theorem elem_expand (v : VReg) (m : Mask) {p : Nat} (hp : p < 256) : elem 32 (ofLanes (expandLanes (lanes v) (maskBits m))) p
    = if m.getLsbD p then elem 32 v (presentBefore (fun p => m.getLsbD p) p) else 0 := by
  have hcount : ((maskBits m).take p).countP id = presentBefore (fun p => m.getLsbD p) p := by
    rw [maskBits_eq_map_range, ← List.map_take, List.take_range, Nat.min_eq_left hp.le, List.countP_map, presentBefore,
      List.countP_eq_length_filter]
    rfl
  have hle := presentBefore_le (fun p => m.getLsbD p) p
  have hm : (maskBits m).getD p false = m.getLsbD p := by
    rw [maskBits_eq_map_range]
    simp [List.getD, hp]
  rw [ofLanes, elem_ofElems _ _ _ hp, expandLanes_getD _ _ (by rw [maskBits_eq_map_range]; simpa using hp), hm, hcount]
  split
  · rw [show lanes v = elems 32 v from rfl, elems_getD _ _ _ (by omega)]
    simp
  · rfl

/-! ### The instructions -/

theorem State.scan_yields (s : State) {i : Instr} {lat : Nat} {op : ScanOp} {red : Bool} {d : Dst} {a : Src}
    {w : Option ScanExt} {x : VReg} {h : List Bool} (hexec : exec i s = .next (s.scan lat op red d a w))
    (hx : s.vmodSrc a ((w.map (·.ma)).getD .none) = x) (hh : headBits (s.headVec (w.bind (·.seg))) = h) :
    ∃ n : BitVec 9, n.toNat = ((List.range 256).filter fun p => elem 32 x p ≠ 0).length
      ∧ s.Yields i (withFlags lat 5 (.vector d (scanRun op red false (lanes x) (lanes x) (maskBits s.rf.mask) h).1
        (BitVec.allOnes 256)) (scanRun op red false (lanes x) (lanes x) (maskBits s.rf.mask) h).2 ++ [⟨3, 5, .wide .sx n⟩]) := by
  subst hx hh
  exact s.scanLand_yields hexec

/-- The flag of a signalling NaN among the present lanes. -/
def State.scanSignal (s : State) (t : Ty) (x : VReg) : Bool :=
  t = .f32 && (List.zip (lanes x) (maskBits s.rf.mask)).any fun y => y.2 && isSNan y.1

theorem State.scanSignal_flag (s : State) (t : Ty) (x : VReg) : (if s.scanSignal t x then fInvalid else 0) = fInvalid ↔
    t = .f32 ∧ ∃ p, p < 256 ∧ s.rf.mask.getLsbD p = true ∧ isSNan (elem 32 x p).toNat = true := by
  rw [← any_present, ← decide_eq_true_iff (p := t = .f32), ← Bool.and_eq_true]
  show _ ↔ s.scanSignal t x = true
  cases s.scanSignal t x <;> decide

/-- The scan of minors 3 and 4, before the flag of its source. -/
def State.scanArgRun (s : State) (big : Bool) (t : Ty) (red : Bool) (a b : Src) (w : Option ScanArgExt) : VReg × Flg :=
  scanRun (scanArgOp t s.cap big ((w.map (·.tie)).getD false)) red true
    (lanes (s.vmodSrc a ((w.map (·.ma)).getD .none))) (lanes (s.vmodSrc b ((w.map (·.mb)).getD .none)))
    (maskBits s.rf.mask) (headBits (s.headVec (w.bind (·.seg))))

theorem State.scanArg_yields (s : State) {i : Instr} (big : Bool) {t : Ty} {red : Bool} {d : Dst} {a b : Src}
    {w : Option ScanArgExt} {y z : VReg} {tie : Bool} {h : List Bool}
    (hexec : exec i s = .next (s.scanArg big t red d a b w))
    (hy : s.vmodSrc a ((w.map (·.ma)).getD .none) = y) (hz : s.vmodSrc b ((w.map (·.mb)).getD .none) = z)
    (ht : (w.map (·.tie)).getD false = tie) (hh : headBits (s.headVec (w.bind (·.seg))) = h) :
    let r := scanRun (scanArgOp t s.cap big tie) red true (lanes y) (lanes z) (maskBits s.rf.mask) h
    ∃ f, (∃ n : BitVec 9, n.toNat = ((List.range 256).filter fun p => elem 32 y p ≠ 0).length
        ∧ s.Yields i (withFlags (if t = .f32 then 9 else 8) 5 (.vector d r.1 (BitVec.allOnes 256)) (r.2 ||| f)
          ++ [⟨3, 5, .wide .sx n⟩])) ∧ (f = 0 ∨ f = fInvalid)
      ∧ (f = fInvalid ↔ t = .f32 ∧ ∃ p, p < 256 ∧ s.rf.mask.getLsbD p = true ∧ isSNan (elem 32 y p).toNat = true) := by
  subst hy hz ht hh
  have hland : exec i s = .next (s.scanLand (if t = .f32 then 9 else 8) d (s.vmodSrc a ((w.map (·.ma)).getD .none))
      ((s.scanArgRun big t red a b w).1, (s.scanArgRun big t red a b w).2
        ||| (if s.scanSignal t (s.vmodSrc a ((w.map (·.ma)).getD .none)) then fInvalid else 0))) := hexec
  refine ⟨_, s.scanLand_yields hland, ?_, s.scanSignal_flag t _⟩
  split
  · exact .inr rfl
  · exact .inl rfl

/-- Settles O45: each scan lands what `scanRun` gives; `compress` and `expand` by the count of present lanes before a lane. -/
theorem scans : Obligations.Scans := by
  unfold Obligations.Scans
  intro s t red d a b w k m
  have hx : s.vmodSrc a ((w.map (·.ma)).getD .none) = s.vmodSrc a (match w with | some e => e.ma | none => .none) := by
    cases w <;> rfl
  have hh : headBits (s.headVec (w.bind (·.seg))) = headBits ((w.bind (·.seg)).map fun e => s.vmodSrc e.1 e.2) := rfl
  refine ⟨s.scan_yields rfl hx hh, s.scan_yields rfl hx hh, s.scan_yields rfl hx hh, s.scan_yields rfl hx hh,
    s.scan_yields rfl hx hh, s.scan_yields rfl hx hh, s.scan_yields rfl hx hh, s.scan_yields rfl hx hh, fun big => ?_, ?_⟩
  · refine s.scanArg_yields big (a := a) (b := b) (w := k) ?_ ?_ ?_ ?_ rfl
    · cases big <;> rfl
    · cases k <;> rfl
    · cases k <;> rfl
    · cases k <;> rfl
  · let y := s.vmodSrc a (m.getD .none)
    refine ⟨_, _, s.scanLand_yields (r := (ofLanes (compressLanes (lanes y) (maskBits s.rf.mask)), 0)) rfl,
      s.scanLand_yields (r := (ofLanes (expandLanes (lanes y) (maskBits s.rf.mask)), 0)) rfl, fun p hp => ⟨fun hm => ⟨elem_compress _ _ hp hm, ?_⟩,
      fun hm => ?_, fun h => elem_compress_rest _ _ hp h⟩⟩
    · exact (elem_expand _ _ hp).trans (if_pos hm)
    · exact (elem_expand _ _ hp).trans (if_neg (by simp [hm]))

end Sys2Proof.Machine
end

