-- ==== Sys2Proof/Proofs/ScanOrder.lean ====
section
/-! PROOFS. The scan network gives what one walk over the lanes gives (R65, R246): each step joins neighbouring windows of
lanes, and joining windows associates. -/

namespace Sys2Proof.Machine

/-! ### Windows of lanes -/

/-- What a window of lanes holds: its combination, if a lane is present, and whether a segment begins in it. -/
abbrev ScanPart : Type := Option (Nat × Nat) × Bool

/-- The combination of two lanes or of two windows, of which none or one may be empty. -/
def scanBoth (op : ScanOp) (x y : Option (Nat × Nat)) : Option (Nat × Nat) :=
  match x, y with
  | some p, some q => some (op p q).1
  | some p, none => some p
  | none, q => q

/-- Two neighbouring windows joined: one in which a segment begins takes nothing from the left. -/
def scanJoin (op : ScanOp) (x y : ScanPart) : ScanPart := if y.2 then y else (scanBoth op x.1 y.1, x.2)

/-- What a lane of the network holds. -/
def ScanLane.part (x : ScanLane) : ScanPart := (if x.p then some (x.v, x.pay) else none, x.h)

/-- The window of n + 1 lanes from lane lo on. -/
def scanWindow (op : ScanOp) (e : Nat → ScanPart) (lo : Nat) : Nat → ScanPart
  | 0 => e lo
  | n + 1 => scanJoin op (scanWindow op e lo n) (e (lo + (n + 1)))

section windows

variable {op : ScanOp} (ha : ∀ x y z, (op (op x y).1 z).1 = (op x (op y z).1).1)
include ha

theorem scanBoth_assoc (x y z : Option (Nat × Nat)) : scanBoth op (scanBoth op x y) z = scanBoth op x (scanBoth op y z) := by
  cases x <;> cases y <;> cases z <;> simp [scanBoth, ha]

theorem scanJoin_assoc (x y z : ScanPart) : scanJoin op (scanJoin op x y) z = scanJoin op x (scanJoin op y z) := by
  obtain ⟨x, hx⟩ := x
  obtain ⟨y, hy⟩ := y
  obtain ⟨z, hz⟩ := z
  cases hy <;> cases hz <;> simp [scanJoin, scanBoth_assoc ha]

/-- Neighbouring windows join to their union. -/
theorem scanWindow_join (e : Nat → ScanPart) (lo m n : Nat) :
    scanJoin op (scanWindow op e lo m) (scanWindow op e (lo + (m + 1)) n) = scanWindow op e lo (m + 1 + n) := by
  induction n with
  | zero => rfl
  | succ n ih =>
    show scanJoin op _ (scanJoin op _ _) = scanJoin op (scanWindow op e lo (m + 1 + n)) (e (lo + (m + 1 + n + 1)))
    rw [← scanJoin_assoc ha, ih]
    congr 2
    omega

end windows

/-! ### One step of the network -/

/-- A lane after a step that gives it the lane `y`. -/
def scanPass (op : ScanOp) (y x : ScanLane) : ScanLane :=
  if x.h then x else { v := (combine op y x).1.1, pay := (combine op y x).1.2, p := y.p || x.p, h := y.h }

theorem scanPass_part (op : ScanOp) (y x : ScanLane) : (scanPass op y x).part = scanJoin op y.part x.part := by
  obtain ⟨yv, ypay, yp, yh⟩ := y
  obtain ⟨v, pay, p, h⟩ := x
  cases h <;> cases yp <;> cases p <;> rfl

/-- The lanes after a step at distance k. -/
def scanPassAll (op : ScanOp) (k : Nat) (f : Nat → ScanLane) (i : Nat) : ScanLane :=
  if i < k then f i else scanPass op (f (i - k)) (f i)

theorem scanStep_eq (op : ScanOp) (k n : Nat) (f : Nat → ScanLane) :
    (scanStep op k ((List.range n).map f)).1 = (List.range n).map (scanPassAll op k f) := by
  refine list_eq_range _ _ n (by simp [scanStep]) fun i hi => ?_
  have hn : i < n := by simpa [scanStep] using hi
  simp only [scanStep, List.getElem_map, List.getElem_zipWith, scanPassAll]
  by_cases h : i < k
  · rw [List.getElem_append_left (by simpa using h), if_pos h]
    simp
  · rw [List.getElem_append_right (by simpa using h), if_neg h]
    simp only [List.length_replicate, List.getElem_map, List.getElem_range, scanPass]
    split <;> rfl

/-- After steps at distances 1 to 2^(d-1) each lane holds the window of 2^d lanes up to it, as far as there are lanes. -/
theorem scanPassAll_window {op : ScanOp} (ha : ∀ x y z, (op (op x y).1 z).1 = (op x (op y z).1).1) (e : Nat → ScanPart)
    (k : Nat) (hk : 0 < k) {f : Nat → ScanLane}
    (hf : ∀ i, (f i).part = scanWindow op e (i + 1 - k) (min (k - 1) i)) (i : Nat) :
    (scanPassAll op k f i).part = scanWindow op e (i + 1 - 2 * k) (min (2 * k - 1) i) := by
  unfold scanPassAll
  split
  · next h =>
    rw [hf, Nat.min_eq_right (by omega), Nat.min_eq_right (by omega), Nat.sub_eq_zero_of_le (by omega),
      Nat.sub_eq_zero_of_le (by omega)]
  · next h =>
    rw [scanPass_part, hf, hf, Nat.min_eq_left (show k - 1 ≤ i by omega)]
    have hlo : i + 1 - k = (i - k + 1 - k) + (min (k - 1) (i - k) + 1) := by omega
    rw [hlo, scanWindow_join ha]
    congr 1 <;> omega

theorem scanSteps_eq {op : ScanOp} (ha : ∀ x y z, (op (op x y).1 z).1 = (op x (op y z).1).1) (e : Nat → ScanPart) (m : Nat) :
    ∀ (n d : Nat) (f : Nat → ScanLane) (g : Flg),
      (∀ i, (f i).part = scanWindow op e (i + 1 - 2 ^ d) (min (2 ^ d - 1) i)) →
      ∃ f' : Nat → ScanLane, (scanSteps op n d ((List.range m).map f, g)).1 = (List.range m).map f'
        ∧ ∀ i, (f' i).part = scanWindow op e (i + 1 - 2 ^ (d + n)) (min (2 ^ (d + n) - 1) i)
  | 0, d, f, g, hf => ⟨f, rfl, hf⟩
  | n + 1, d, f, g, hf => by
    obtain ⟨f', h1, h2⟩ := scanSteps_eq ha e m n (d + 1) (scanPassAll op (2 ^ d) f)
      (g ||| (scanStep op (2 ^ d) ((List.range m).map f)).2) fun i => by
        rw [scanPassAll_window ha e (2 ^ d) (Nat.two_pow_pos d) hf, Nat.pow_succ, Nat.mul_comm 2]
    refine ⟨f', ?_, fun i => ?_⟩
    · rw [← h1, ← scanStep_eq]
      rfl
    · rw [h2, Nat.add_assoc, Nat.add_comm 1]

/-! ### The last of a run -/

/-- What each entry of a list reads that is walked from its head: the first entry after the last mark, or `last` where there
is no mark yet. -/
def runLast {α : Type} : List (α × Bool) → Option α → List α
  | [], _ => []
  | (x, mark) :: l, last => last.getD x :: runLast l (if mark then none else some (last.getD x))

section runs

variable {α : Type}

theorem runLast_length (l : List (α × Bool)) (last : Option α) : (runLast l last).length = l.length := by
  induction l generalizing last with
  | nil => rfl
  | cons x l ih => simp [runLast, ih]

/-- As long as there is no mark, every entry reads the same. -/
theorem runLast_inside (l : List (α × Bool)) (y : α) {q : Nat} (hq : q < l.length)
    (h : ∀ k, (hk : k < q) → (l[k]).2 = false) : (runLast l (some y))[q]'(by rw [runLast_length]; exact hq) = y := by
  induction l generalizing q with
  | nil => simp at hq
  | cons x l ih =>
    cases q with
    | zero => rfl
    | succ q =>
      have h0 : x.2 = false := h 0 (Nat.succ_pos q)
      simp only [runLast, h0, List.getElem_cons_succ]
      exact ih (by simpa using hq) fun k hk => h (k + 1) (Nat.succ_lt_succ hk)

/-- An entry reads the first one after the last mark before it. -/
theorem runLast_get (l : List (α × Bool)) (last : Option α) {q₀ q : Nat} (hle : q₀ ≤ q) (hq : q < l.length)
    (hstart : (q₀ = 0 ∧ last = none) ∨ ∃ k, ∃ hk : k < l.length, q₀ = k + 1 ∧ (l[k]).2 = true)
    (h : ∀ k, (hk : k < q) → q₀ ≤ k → (l[k]).2 = false) :
    (runLast l last)[q]'(by rw [runLast_length]; exact hq) = (l[q₀]).1 := by
  induction l generalizing last q₀ q with
  | nil => simp at hq
  | cons x l ih =>
    obtain ⟨rfl, rfl⟩ | ⟨k, hk, rfl, hmark⟩ := hstart
    · cases q with
      | zero => rfl
      | succ q =>
        have h0 : x.2 = false := h 0 (Nat.succ_pos q) (Nat.le_refl 0)
        simp only [runLast, h0, List.getElem_cons_succ]
        exact runLast_inside l x.1 (by simpa using hq) fun k hk => h (k + 1) (Nat.succ_lt_succ hk) (Nat.zero_le _)
    · obtain ⟨q, rfl⟩ : ∃ r, q = r + 1 := ⟨q - 1, by omega⟩
      simp only [runLast, List.getElem_cons_succ]
      refine ih _ (by omega) (by simpa using hq) ?_ fun i hi hki => h (i + 1) (by omega) (by omega)
      cases k with
      | zero =>
        have h0 : x.2 = true := hmark
        exact .inl ⟨rfl, by rw [h0]; rfl⟩
      | succ k => exact .inr ⟨k, by simpa using hk, rfl, hmark⟩

/-- Walked from the last entry down, each reads the last entry of its run: a mark begins a run. -/
theorem runLast_reverse_get (r : List α) (marks : List Bool) (hr : r.length = marks.length) {i j : Nat} (hij : i ≤ j)
    (hj : j < r.length) (hin : ∀ k, i < k → k ≤ j → marks.getD k false = false)
    (hend : j + 1 = r.length ∨ marks.getD (j + 1) false = true) :
    ((runLast (List.zip r marks).reverse none).reverse)[i]'(by simp [runLast_length]; omega) = r[j] := by
  have hlen : (List.zip r marks).reverse.length = r.length := by simp [hr]
  have hat : ∀ k, (hk : k < r.length) → (List.zip r marks).reverse[r.length - 1 - k]'(by omega)
      = (r[k], marks[k]'(by omega)) := fun k hk => by
    rw [List.getElem_reverse, List.getElem_zip]
    have hk' : (List.zip r marks).length - 1 - (r.length - 1 - k) = k := by
      rw [List.length_zip]
      omega
    simp only [hk']
  have hmark : ∀ k, (hk : k < r.length) → ((List.zip r marks).reverse[r.length - 1 - k]'(by omega)).2 = marks.getD k false :=
    fun k hk => by rw [hat k hk, List.getD_eq_getElem _ _ (by omega)]
  rw [List.getElem_reverse]
  have hi : (runLast (List.zip r marks).reverse none).length - 1 - i = r.length - 1 - i := by rw [runLast_length, hlen]
  simp only [hi]
  refine (runLast_get _ none (q₀ := r.length - 1 - j) (by omega) (by omega) ?_ fun k hk hjk => ?_).trans ?_
  · by_cases he : j + 1 = r.length
    · exact .inl ⟨by omega, rfl⟩
    · refine .inr ⟨r.length - 1 - (j + 1), by omega, by omega, ?_⟩
      rw [hmark (j + 1) (by omega)]
      exact hend.resolve_left he
  · have hk' : k = r.length - 1 - (r.length - 1 - k) := by omega
    have := hmark (r.length - 1 - k) (by omega)
    simp only [← hk'] at this
    rw [this]
    exact hin _ (by omega) (by omega)
  · rw [hat j hj]

end runs

/-- A reduction gives each lane the last lane of its segment. -/
theorem segLast_eq (l : List (ScanLane × Bool)) (last : Option ScanLane) : segLast l last = runLast l last := by
  induction l generalizing last with
  | nil => rfl
  | cons x l ih => rw [segLast, ih]; rfl

/-! ### The walk -/

/-- The walk over the lanes from lane 0 is the window from lane 0. -/
theorem scanWalk_eq (op : ScanOp) (at_ : Nat → Option (Nat × Nat)) (h : Nat → Bool) (i : Nat) :
    (List.range (i + 1)).foldl (fun acc j => scanBoth op (if h j then none else acc) (at_ j)) none
      = (scanWindow op (fun j => (at_ j, h j)) 0 i).1 := by
  induction i with
  | zero =>
    show scanBoth op (if h 0 then none else none) (at_ 0) = at_ 0
    rw [ite_self]
    rfl
  | succ i ih =>
    rw [List.range_succ, List.foldl_append, ih, List.foldl_cons, List.foldl_nil]
    show _ = (scanJoin op (scanWindow op (fun j => (at_ j, h j)) 0 i) (at_ (0 + (i + 1)), h (0 + (i + 1)))).1
    rw [Nat.zero_add, scanJoin]
    cases h (i + 1) <;> rfl

/-- What a lane of a scan shows: its value or its payload, 0 where no lane is present. -/
def scanShow (pairs : Bool) (x : Option (Nat × Nat)) : Nat :=
  match x with
  | some p => if pairs then p.2 else p.1
  | none => 0

theorem scanShow_part (pairs : Bool) (x : ScanLane) :
    (if x.p then (if pairs then x.pay else x.v) else 0) = scanShow pairs x.part.1 := by
  obtain ⟨v, pay, p, h⟩ := x
  cases p <;> rfl

/-- Lane i of the operands of a scan. -/
def scanLaneOf (a b : List Nat) (m h : List Bool) (i : Nat) : ScanLane :=
  { v := a.getD i 0, pay := b.getD i 0, p := m.getD i false, h := h.getD i false }

theorem scanLanes_eq {a b : List Nat} {m h : List Bool} (ha : a.length = 256) (hb : b.length = 256) (hm : m.length = 256)
    (hh : h.length = 256) : List.zipWith (fun f h => f h) (List.zipWith (fun f p => f p)
      (List.zipWith (fun x y p h => { v := x, pay := y, p := p, h := h : ScanLane }) a b) m) h
      = (List.range 256).map (scanLaneOf a b m h) := by
  refine list_eq_range _ _ 256 (by simp [ha, hb, hm, hh]) fun i hi => ?_
  have hi' : i < 256 := by simpa [ha, hb, hm, hh] using hi
  simp only [List.getElem_zipWith, scanLaneOf]
  rw [List.getD_eq_getElem _ _ (by omega), List.getD_eq_getElem _ _ (by omega), List.getD_eq_getElem _ _ (by omega),
    List.getD_eq_getElem _ _ (by omega)]

/-- Settles O46: after its eight steps every lane holds the window from lane 0. -/
theorem scanOrderIsSequential : Obligations.ScanOrderIsSequential := by
  unfold Obligations.ScanOrderIsSequential
  intro op red pairs a b m h hassoc ha hb hm hh _ at_ both run out i j hij hj hin hend
  let e : Nat → ScanPart := fun i => (at_ i, h.getD i false)
  obtain ⟨f, hf, hwin⟩ := scanSteps_eq hassoc e 256 8 0 (scanLaneOf a b m h) 0 fun i => by
    rw [Nat.pow_zero, Nat.add_sub_cancel, Nat.sub_self, Nat.zero_min]
    rfl
  have hfull : ∀ i < 256, (f i).part = scanWindow op e 0 i := fun i hi => by
    rw [hwin, Nat.sub_eq_zero_of_le (by omega), Nat.min_eq_right (by omega)]
  have hrun : ∀ i, run i = (scanWindow op e 0 i).1 := scanWalk_eq op at_ fun i => h.getD i false
  have hout : ∀ x, out x = BitVec.ofNat 32 (scanShow pairs x) := fun x => by cases x <;> rfl
  have hlane : ∀ l : List ScanLane, ∀ x, l[i]? = some x →
      elem 32 (ofLanes (l.map fun x => if x.p then (if pairs then x.pay else x.v) else 0)) i = out x.part.1 := fun l x hx => by
    rw [ofLanes, elem_ofElems _ _ _ (by omega), hout, ← scanShow_part]
    simp [List.getD, hx]
  have hscan : (scanRun op red pairs a b m h).1 = ofLanes ((if red then
      (runLast (List.zip ((List.range 256).map f) h).reverse none).reverse else (List.range 256).map f).map
        fun x => if x.p then (if pairs then x.pay else x.v) else 0) := by
    rw [scanRun, scanLanes_eq ha hb hm hh, hf, segLast_eq]
  rw [hscan, hrun]
  cases red with
  | false =>
    rw [if_neg Bool.false_ne_true, if_neg Bool.false_ne_true, ← hfull i (by omega)]
    exact hlane _ (f i) (by simp [show i < 256 by omega])
  | true =>
    rw [if_pos rfl, if_pos rfl, ← hfull j hj]
    refine hlane _ (f j) ?_
    have hseg := runLast_reverse_get ((List.range 256).map f) h (by simp [hh]) hij (by simpa using hj) hin
      (hend.imp (by simp) id)
    rw [List.getElem?_eq_getElem (by simp [runLast_length, hh]; omega)]
    simpa using hseg

end Sys2Proof.Machine
end

