-- ==== Sys2Proof/Proofs/Conversions.lean ====
section
/-! PROOFS. Conversion and packing of vectors (R229, R230). -/

namespace Sys2Proof.Machine

theorem width_of_code0to9 {t : Ty} (h : t.isCode0to9 = true) : t.width = 8 ∨ t.width = 16 ∨ t.width = 32 := by
  cases t <;> simp [Ty.isCode0to9, Ty.width] at h ⊢

theorem width_of_pack {t : Ty} (h : t.isPack = true) : t.width = 8 ∨ t.width = 16 := by
  cases t <;> simp [Ty.isPack, Ty.width] at h ⊢

theorem getElem_elems (w : Nat) (v : VReg) {j : Nat} (hj : j < (elems w v).length) : (elems w v)[j] = (elem w v j).toNat := by
  rw [← elems_getD w v j (elems_length w v ▸ hj), List.getD_eq_getElem _ _ hj]

/-- A run of elements of a vector, each through a function. -/
theorem vecOf_part (ws wd : Nat) (v : VReg) (f : Nat → Nat × Flg) {p n : Nat} (hn : n = 8192 / wd)
    (hp : p * n + n ≤ 8192 / ws) :
    VecOf wd (fun j => (BitVec.ofNat wd (f (elem ws v (p * n + j)).toNat).1, (f (elem ws v (p * n + j)).toNat).2))
      (collect wd ((((elems ws v).drop (p * n)).take n).map f)).1 (collect wd ((((elems ws v).drop (p * n)).take n).map f)).2 := by
  have hlen : (((elems ws v).drop (p * n)).take n).length = n := by
    rw [List.length_take, List.length_drop, elems_length]
    omega
  refine vecOf_collect wd _ (fun j => f (elem ws v (p * n + j)).toNat) (by rw [List.length_map, hlen, hn]) fun j hj => ?_
  rw [List.getElem_map, List.getElem_take, List.getElem_drop, getElem_elems]

/-! ### A part of a vector -/

/-- An element of a vector whose elements stand `s` elements up. -/
theorem elem_shifted (w : Nat) (l : List Nat) {s j : Nat} (h : w * (s + j) + w ≤ 8192) :
    elem w (BitVec.ofNat 8192 (joinNat w l * 2 ^ (w * s))) (s + j) = BitVec.ofNat w (l.getD j 0) := by
  apply BitVec.eq_of_toNat_eq
  have hpow : 2 ^ (w * (s + j)) = 2 ^ (w * s) * 2 ^ (w * j) := by rw [Nat.mul_add, Nat.pow_add]
  have hsplit : ∀ N, w * (s + j) + w ≤ N → 2 ^ N = 2 ^ (w * (s + j)) * (2 ^ w * 2 ^ (N - (w * (s + j) + w))) := fun N hN => by
    rw [← Nat.pow_add, ← Nat.pow_add]
    congr 1
    omega
  rw [elem, BitVec.extractLsb'_toNat, BitVec.toNat_ofNat, BitVec.toNat_ofNat, Nat.shiftRight_eq_div_pow, ← joinNat_getD w l j,
    hsplit 8192 h, Nat.mod_mul_right_div_self, Nat.mod_mul_right_mod, hpow, ← Nat.div_div_eq_div_mul,
    Nat.mul_div_cancel _ (Nat.two_pow_pos _)]

/-- The bits of a pattern that takes `m` bits from bit `s` on. -/
theorem getLsbD_take (s m : Nat) {i : Nat} (hi : i < 8192) :
    (BitVec.ofNat 8192 ((2 ^ m - 1) * 2 ^ s)).getLsbD i = (decide (s ≤ i) && decide (i < s + m)) := by
  rw [BitVec.getLsbD_ofNat, Nat.mul_comm, Nat.testBit_two_pow_mul, Nat.testBit_two_pow_sub_one, decide_eq_true hi, Bool.true_and]
  by_cases h : s ≤ i
  · congr 1
    exact decide_eq_decide.mpr (by omega)
  · simp [h]

/-- What a narrowing conversion lands: the converted elements in their part, and the bits of that part. -/
theorem vcvt_narrow (ws wd : Nat) (v : VReg) (f : Nat → Nat × Flg) {p n : Nat} (hn : n = 8192 / ws)
    (hp : (p + 1) * n * wd ≤ 8192) :
    let r := (elems ws v).map f
    (∀ j, j < n → elem wd (BitVec.ofNat 8192 (joinNat wd (r.map (·.1)) * 2 ^ (p * n * wd))) (p * n + j)
        = BitVec.ofNat wd (f (elem ws v j).toNat).1)
    ∧ r.foldl (fun acc x => acc ||| x.2) (0 : Flg) = (List.range n).foldl (fun acc j => acc ||| (f (elem ws v j).toNat).2) 0
    ∧ ∀ i, i < 8192 → (BitVec.ofNat 8192 ((2 ^ (n * wd) - 1) * 2 ^ (p * n * wd))).getLsbD i
        = (decide (p * n * wd ≤ i) && decide (i < (p + 1) * n * wd)) := by
  have hrange : (elems ws v).map f = (List.range n).map fun j => f (elem ws v j).toNat := by
    rw [elems_eq_map_range, List.map_map, hn]
    rfl
  refine ⟨fun j hj => ?_, ?_, fun i hi => ?_⟩
  · have hle : wd * (p * n + j) + wd ≤ 8192 := by
      have : (p * n + (j + 1)) * wd ≤ (p + 1) * n * wd := Nat.mul_le_mul_right wd (by rw [Nat.succ_mul]; omega)
      have e : (p * n + (j + 1)) * wd = wd * (p * n + j) + wd := by ring
      omega
    rw [Nat.mul_comm (p * n) wd, elem_shifted wd _ hle, hrange]
    simp [List.getD, hj]
  · rw [hrange, List.foldl_map]
  · rw [getLsbD_take _ _ hi, ← Nat.add_mul, Nat.succ_mul]

theorem collect_noFlag (w : Nat) (l : List Nat) (f : Nat → Nat) :
    collect w (l.map fun x => noFlag (f x)) = (ofElems w (l.map f), 0) := by
  rw [collect, List.map_map, List.foldl_map]
  exact congrArg _ (foldl_or_no_flags _)

/-! ### `vpack` and `vunpk` -/

theorem State.vpack_yields (s : State) {t : Ty} (ht : t.isPack = true) (d : Dst) (a b : Src) (w : Option (Mod × Mod)) :
    s.YieldsVec (.vpack t d a b w) 4 d t.width (fun j =>
      ((if j < 4096 / t.width then elem (2 * t.width) (s.vmodSrc a (fstMod w)) j
        else elem (2 * t.width) (s.vmodSrc b (sndMod w)) (j - 4096 / t.width)).setWidth t.width, 0)) := by
  refine s.yieldsVec_of (r := (ofElems t.width ((elems (2 * t.width) (s.vmodSrc a (fstMod w))
    ++ elems (2 * t.width) (s.vmodSrc b (sndMod w))).map (· % 2 ^ t.width)), 0)) rfl ⟨fun j hj => ?_, (foldl_or_no_flags _).symm⟩
  have hhalf : 8192 / (2 * t.width) = 4096 / t.width ∧ 8192 / t.width = 4096 / t.width + 4096 / t.width := by
    rcases width_of_pack ht with h | h <;> rw [h] <;> decide
  have hbits : ∀ x : BitVec (2 * t.width), BitVec.ofNat t.width (x.toNat % 2 ^ t.width) = x.setWidth t.width := fun x =>
    BitVec.eq_of_toNat_eq (by simp)
  rw [elem_ofElems _ _ _ hj]
  simp only [List.getD, List.getElem?_map]
  split
  · next h =>
    rw [List.getElem?_append_left (by rw [elems_length]; omega), List.getElem?_eq_getElem (by rw [elems_length]; omega),
      getElem_elems]
    exact hbits _
  · next h =>
    rw [List.getElem?_append_right (by rw [elems_length]; omega), elems_length, hhalf.1,
      List.getElem?_eq_getElem (by rw [elems_length]; omega), getElem_elems]
    exact hbits _

/-- An element widened by its type. -/
theorem vunpk_elem (t : Ty) (x : BitVec t.width) :
    BitVec.ofNat (2 * t.width) (if t = .s8 || t = .s16 then lowBits (2 * t.width) (toSigned t.width x.toNat) else x.toNat)
      = if t = .s8 ∨ t = .s16 then x.signExtend (2 * t.width) else x.setWidth (2 * t.width) := by
  by_cases h : t = .s8 ∨ t = .s16
  · rw [if_pos (by simpa using h), if_pos h, lowBits_ofNat, toSigned_eq _ _ (width_pos t), BitVec.ofNat_toNat,
      BitVec.setWidth_eq]
    rfl
  · rw [if_neg (by simpa using h), if_neg h, BitVec.ofNat_toNat]

theorem State.vunpk_yields (s : State) {t : Ty} (ht : t.isPack = true) (d : Dst) (a : Src) (k : Option (Mod × BitVec 2))
    {p : Nat} (hp : (k.map fun e => e.2.toNat).getD 0 = p) (hlt : p < 2) :
    s.YieldsVec (.vunpk t d a k) 4 d (2 * t.width) (fun j =>
      let e := elem t.width (s.vmodSrc a ((k.map (·.1)).getD .none)) (p * (4096 / t.width) + j)
      (if t = .s8 ∨ t = .s16 then e.signExtend (2 * t.width) else e.setWidth (2 * t.width), 0)) := by
  have hm : 8192 / (2 * t.width) = 4096 / t.width := by
    rcases width_of_pack ht with h | h <;> rw [h]
  have hfit : p * (8192 / (2 * t.width)) + 8192 / (2 * t.width) ≤ 8192 / t.width := by
    rcases width_of_pack ht with h | h <;> rw [h] <;> omega
  have hvec := vecOf_part t.width (2 * t.width) (s.vmodSrc a ((k.map (·.1)).getD .none)) (fun x =>
    noFlag (if t = .s8 || t = .s16 then lowBits (2 * t.width) (toSigned t.width x) else x)) rfl hfit
  rw [collect_noFlag] at hvec
  simp only [noFlag, vunpk_elem] at hvec
  rw [← hm]
  refine s.yieldsVec_of (r := (ofElems _ _, 0)) ?_ hvec
  rw [← hp]
  rfl

/-- A part of a conversion lies in the wider of its two vectors. -/
theorem part_fits {a b p : Nat} (ha : a = 8 ∨ a = 16 ∨ a = 32) (hb : b = 8 ∨ b = 16 ∨ b = 32) (hp : p < max a b / min a b) :
    (b ≤ a → p * (8192 / max a b) + 8192 / max a b ≤ 8192 / b) ∧ (a < b → (p + 1) * (8192 / max a b) * a ≤ 8192) := by
  rcases ha with rfl | rfl | rfl <;> rcases hb with rfl | rfl | rfl <;> simp at hp ⊢ <;> omega

theorem State.vcvt_yields (s : State) {t u : Ty} (ht : t.isCode0to9 = true) (hu : u.isCode0to9 = true) (d : Dst) (a : Src)
    (k : Option (Mod × BitVec 2)) {p : Nat} (hp : (k.map fun e => e.2.toNat).getD 0 = p)
    (hlt : p < max t.width u.width / min t.width u.width) :
    let z := s.vmodSrc a ((k.map (·.1)).getD .none)
    let n : Nat := 8192 / max t.width u.width
    let conv (v : BitVec u.width) : BitVec t.width × Flg :=
      let r := convert u t (s.cap.rnd, s.cap.sat, s.cap.flush) v.toNat
      (BitVec.ofNat t.width r.1, r.2)
    (u.width ≤ t.width → s.YieldsVec (.vcvt t u d a k) 4 d t.width (fun j => conv (elem u.width z (p * n + j))))
      ∧ (t.width < u.width → ∃ r take : VReg, ∃ g : Flg,
          (∀ j, j < n → elem t.width r (p * n + j) = (conv (elem u.width z j)).1)
          ∧ g = (List.range n).foldl (fun acc j => acc ||| (conv (elem u.width z j)).2) 0
          ∧ (∀ i, i < 8192 → take.getLsbD i = (decide (p * n * t.width ≤ i) && decide (i < (p + 1) * n * t.width)))
          ∧ s.Yields (.vcvt t u d a k) (withFlags 4 s.vecSlot (.part d r s.rf.mask take) g)) := by
  have hexec : exec (.vcvt t u d a k) s = execVcvt t u d a k s := rfl
  rw [execVcvt] at hexec
  dsimp only at hexec
  rw [hp] at hexec
  refine ⟨fun hw => ?_, fun hw => ?_⟩
  · have hmax : 8192 / max t.width u.width = 8192 / t.width := by rw [max_eq_left hw]
    have hfit := (part_fits (width_of_code0to9 ht) (width_of_code0to9 hu) hlt).1 hw
    refine s.yieldsVec_of ?_ (vecOf_part u.width t.width _ (convert u t (s.cap.rnd, s.cap.sat, s.cap.flush)) hmax hfit)
    rw [hexec, if_pos hw, max_comm]
  · have hmax : 8192 / max t.width u.width = 8192 / u.width := by rw [max_eq_right hw.le]
    have hfit := (part_fits (width_of_code0to9 ht) (width_of_code0to9 hu) hlt).2 hw
    obtain ⟨helems, hflags, htake⟩ := vcvt_narrow u.width t.width (s.vmodSrc a ((k.map (·.1)).getD .none))
      (convert u t (s.cap.rnd, s.cap.sat, s.cap.flush)) hmax hfit
    refine ⟨_, _, _, helems, hflags, htake, _, ?_, s.landF_gives _ _ _ _⟩
    rw [hexec, if_neg (by omega), max_comm]

end Sys2Proof.Machine
end

