-- ==== Sys2Proof/Proofs/Quantising.lean ====
section
/-! PROOFS. Quantising: the blocks, their scales, and the image of a quantised vector (R231 to R233). -/

namespace Sys2Proof.Machine

/-! ### Blocks -/

/-- Whether a block begins at an element of value `x`, for the bounds of the open block (R231). -/
def quantCut (ratio : Val) (lo hi x : Val) (first : Bool) : Bool :=
  !first && cmpVal (maxMag hi x.absVal) (mulExact ratio (minMag lo x.absVal)).1 == .gt

/-- The bounds of the open block after an element of value `x`. -/
def quantNext (ratio : Val) (r : Val × Val) (x : Val) (first : Bool) : Val × Val :=
  if x.isNum then
    if quantCut ratio r.1 r.2 x first then (x.absVal, x.absVal) else (minMag r.1 x.absVal, maxMag r.2 x.absVal)
  else r

/-- The bounds of the open block before element j. -/
def quantBounds (ratio : Val) (x : Nat → Val) : Nat → Val × Val
  | 0 => (.inf false, .zero false)
  | j + 1 => quantNext ratio (quantBounds ratio x j) (x j) (j == 0)

/-- Whether a block begins at element j. -/
def quantStart (ratio : Val) (x : Nat → Val) (j : Nat) : Bool :=
  j == 0 || ((x j).isNum && quantCut ratio (quantBounds ratio x j).1 (quantBounds ratio x j).2 (x j) (j == 0))

theorem quantBlocks_spec (ratio : Val) (x : Nat → Val) :
    QuantBlocks ratio x (quantStart ratio x) (fun j => (quantBounds ratio x j).1) fun j => (quantBounds ratio x j).2 := by
  refine ⟨⟨rfl, rfl⟩, fun j _ h => ?_, fun j _ h hc => ?_, fun j _ h hc => ?_⟩
  · have hb : quantBounds ratio x (j + 1) = quantBounds ratio x j := by simp [quantBounds, quantNext, h]
    refine ⟨?_, by rw [hb], by rw [hb]⟩
    simp [quantStart, h, Bool.beq_eq_decide_eq]
  · have hcut : quantCut ratio (quantBounds ratio x j).1 (quantBounds ratio x j).2 (x j) (j == 0) = true := by
      simp [quantCut, hc.2, Nat.ne_of_gt hc.1]
    have hb : quantBounds ratio x (j + 1) = ((x j).absVal, (x j).absVal) := by
      rw [quantBounds, quantNext, if_pos h, if_pos hcut]
    refine ⟨?_, by rw [hb], by rw [hb]⟩
    simp [quantStart, h, hcut]
  · have hcut : quantCut ratio (quantBounds ratio x j).1 (quantBounds ratio x j).2 (x j) (j == 0) = false := by
      rw [Bool.eq_false_iff]
      intro hn
      simp only [quantCut, Bool.and_eq_true, Bool.not_eq_true', beq_eq_false_iff_ne, beq_iff_eq] at hn
      exact hc ⟨Nat.pos_of_ne_zero hn.1, hn.2⟩
    have hb : quantBounds ratio x (j + 1)
        = (minMag (quantBounds ratio x j).1 (x j).absVal, maxMag (quantBounds ratio x j).2 (x j).absVal) := by
      rw [quantBounds, quantNext, if_pos h, hcut, if_neg Bool.false_ne_true]
    refine ⟨?_, by rw [hb], by rw [hb]⟩
    rw [quantStart, hcut]
    simp [Bool.beq_eq_decide_eq]

/-- The walk over the elements from element j on, newest block first. -/
theorem quantBlocks_eq (ratio : Val) (x : Nat → Val) (n : Nat) : ∀ (j : Nat) (acc : List (Bool × Val)),
    quantBlocks ratio ((List.range n).map fun k => x (j + k)) (j == 0) (quantBounds ratio x j).1 (quantBounds ratio x j).2 acc
      = ((List.range n).map fun k => (quantStart ratio x (j + k), (quantBounds ratio x (j + k + 1)).2)).reverse ++ acc := by
  induction n with
  | zero => intro j acc; rfl
  | succ n ih =>
    intro j acc
    have hshift : ((List.range n).map fun k => x (j + (k + 1))) = (List.range n).map fun k => x (j + 1 + k) :=
      List.map_congr_left fun k _ => by rw [Nat.add_right_comm, Nat.add_assoc]
    have hnext := ih (j + 1) ((quantStart ratio x j, (quantBounds ratio x (j + 1)).2) :: acc)
    rw [List.range_succ_eq_map, List.map_cons, List.map_cons, List.map_map, List.map_map]
    simp only [Function.comp_def, Nat.succ_eq_add_one, hshift, Nat.add_zero]
    have hstep : ∀ r : List Val, quantBlocks ratio (x j :: r) (j == 0) (quantBounds ratio x j).1 (quantBounds ratio x j).2 acc
        = quantBlocks ratio r (j + 1 == 0) (quantBounds ratio x (j + 1)).1 (quantBounds ratio x (j + 1)).2
            ((quantStart ratio x j, (quantBounds ratio x (j + 1)).2) :: acc) := fun r => by
      have h1 : (j + 1 == 0) = false := by simp
      rw [h1, quantStart, quantBounds, quantNext]
      by_cases hx : (x j).isNum = true
      · cases hc : quantCut ratio (quantBounds ratio x j).1 (quantBounds ratio x j).2 (x j) (j == 0)
        · rw [quantBlocks]
          unfold quantCut at hc
          simp [hx, hc]
        · rw [quantBlocks]
          unfold quantCut at hc
          simp [hx, hc]
      · rw [quantBlocks]
        simp [hx]
    rw [hstep, hnext, List.reverse_cons, List.append_assoc]
    refine congrArg₂ _ (congrArg _ (List.map_congr_left fun k _ => ?_)) rfl
    rw [show j + 1 + k = j + (k + 1) by omega]

/-! ### The largest magnitude of a whole block -/

theorem spreadHi_eq (l : List (Bool × Val)) (cur : Option Val) :
    spreadHi l cur = List.zip (l.map (·.1)) (runLast (l.map Prod.swap) cur) := by
  induction l generalizing cur with
  | nil => rfl
  | cons x l ih => rw [spreadHi, ih]; rfl

theorem reverse_zip_reverse {α β : Type} (l : List α) (m : List β) (h : l.length = m.length) :
    (List.zip l.reverse m).reverse = List.zip l m.reverse := by
  refine List.ext_getElem (by simp [h]) fun i h1 h2 => ?_
  have hi : i < l.length := by
    rw [List.length_zip] at h2
    omega
  simp only [List.getElem_reverse, List.getElem_zip, List.length_zip, List.length_reverse]
  congr 2 <;> omega

/-- The largest magnitude of each element's block. -/
def quantTops (start : Nat → Bool) (hi : Nat → Val) : List Val :=
  (runLast (List.zip ((List.range 256).map fun k => hi (k + 1)) ((List.range 256).map start)).reverse none).reverse

theorem quantTops_length (start : Nat → Bool) (hi : Nat → Val) : (quantTops start hi).length = 256 := by
  simp [quantTops, runLast_length]

def quantTop (start : Nat → Bool) (hi : Nat → Val) (j : Nat) : Val := (quantTops start hi).getD j (.zero false)

theorem spread_blocks (start : Nat → Bool) (hi : Nat → Val) :
    (spreadHi ((List.range 256).map fun k => (start k, hi (k + 1))).reverse none).reverse
      = (List.range 256).map fun j => (start j, quantTop start hi j) := by
  have h : (spreadHi ((List.range 256).map fun k => (start k, hi (k + 1))).reverse none).reverse
      = List.zip ((List.range 256).map start) (quantTops start hi) := by
    rw [spreadHi_eq, List.map_reverse, List.map_reverse, List.map_map, List.map_map, reverse_zip_reverse _ _ ?_, quantTops,
      List.zip_map']
    · rfl
    · simp [runLast_length]
  rw [h]
  refine list_eq_range _ _ 256 (by simp [quantTops_length]) fun j hj => ?_
  rw [List.getElem_zip, quantTop, List.getD_eq_getElem _ _ (by simpa [quantTops_length] using hj)]
  simp

/-- Each element's block has the magnitude that the walk held after the block's last element. -/
theorem quantTop_eq (start : Nat → Bool) (hi : Nat → Val) {j k : Nat} (hjk : j ≤ k) (hk : k < 256)
    (hin : ∀ i, j < i → i ≤ k → start i = false) (hend : k = 255 ∨ start (k + 1) = true) :
    quantTop start hi j = hi (k + 1) := by
  have hget : ∀ i, i < 256 → ((List.range 256).map start).getD i false = start i := fun i h => by simp [List.getD, h]
  rw [quantTop, List.getD_eq_getElem _ _ (by rw [quantTops_length]; omega)]
  refine (runLast_reverse_get ((List.range 256).map fun k => hi (k + 1)) ((List.range 256).map start) (by simp) hjk (by simpa)
    (fun i h1 h2 => (hget i (by omega)).trans (hin i h1 h2)) ?_).trans (by simp)
  by_cases h : k = 255
  · exact .inl (by simp [h])
  · exact .inr ((hget _ (by omega)).trans (hend.resolve_left h))

/-! ### The image -/

/-- Four numbers placed one above the other, in `a`, `b` and `c` bits and the rest. -/
def stack4 (a b c w x y z : Nat) : Nat := w + 2 ^ a * (x + 2 ^ b * (y + 2 ^ c * z))

theorem field_below {k x y lo n : Nat} (h : lo + n ≤ k) : (x + 2 ^ k * y) / 2 ^ lo % 2 ^ n = x / 2 ^ lo % 2 ^ n := by
  obtain ⟨m, rfl⟩ : ∃ m, k = lo + n + m := ⟨k - (lo + n), by omega⟩
  rw [Nat.pow_add, Nat.pow_add, Nat.mul_assoc, Nat.mul_assoc, Nat.add_mul_div_left _ _ (Nat.two_pow_pos lo),
    Nat.add_mul_mod_self_left]

theorem field_above {k x y n : Nat} (lo : Nat) (h : x < 2 ^ k) : (x + 2 ^ k * y) / 2 ^ (k + lo) % 2 ^ n = y / 2 ^ lo % 2 ^ n := by
  rw [Nat.pow_add, ← Nat.div_div_eq_div_mul, Nat.add_mul_div_left _ _ (Nat.two_pow_pos k), Nat.div_eq_of_lt h, Nat.zero_add]

theorem joinNat_lt (w : Nat) (l : List Nat) : joinNat w l < 2 ^ (w * l.length) := by
  induction l with
  | nil => simp [joinNat]
  | cons x l ih =>
    have hx := Nat.mod_lt x (Nat.two_pow_pos w)
    have hle : 2 ^ w * (joinNat w l + 1) ≤ 2 ^ w * 2 ^ (w * l.length) := Nat.mul_le_mul_left _ ih
    rw [List.length_cons, Nat.mul_succ, Nat.add_comm, Nat.pow_add]
    show x % 2 ^ w + 2 ^ w * joinNat w l < _
    rw [Nat.mul_succ] at hle
    omega

/-- A field of a vector image. -/
theorem toNat_field_image {n lo w : Nat} (h : lo + w ≤ 8192) :
    ((BitVec.ofNat 8192 n).extractLsb' lo w).toNat = n / 2 ^ lo % 2 ^ w := by
  have hsplit : ∀ N, lo + w ≤ N → 2 ^ N = 2 ^ lo * (2 ^ w * 2 ^ (N - (lo + w))) := fun N hN => by
    rw [← Nat.pow_add, ← Nat.pow_add]
    congr 1
    omega
  rw [BitVec.extractLsb'_toNat, BitVec.toNat_ofNat, Nat.shiftRight_eq_div_pow, hsplit 8192 h, Nat.mod_mul_right_div_self,
    Nat.mod_mul_right_mod]

theorem getLsbD_image {n i : Nat} (h : i < 8192) : (BitVec.ofNat 8192 n).getLsbD i = (n / 2 ^ i % 2 ^ 1 == 1) := by
  rw [BitVec.getLsbD_ofNat, decide_eq_true h, Bool.true_and, pow_one]
  exact (natBit_eq n i).symm

section stack

variable {a b c w x y z n : Nat}

theorem stack4_eq : w + 2 ^ a * x + 2 ^ (a + b) * y + 2 ^ (a + b + c) * z = stack4 a b c w x y z := by
  rw [stack4, Nat.pow_add, Nat.pow_add]
  ring

theorem stack4_first {lo : Nat} (h : lo + n ≤ a) : stack4 a b c w x y z / 2 ^ lo % 2 ^ n = w / 2 ^ lo % 2 ^ n :=
  field_below h

theorem stack4_second (lo : Nat) (hw : w < 2 ^ a) (h : lo + n ≤ b) :
    stack4 a b c w x y z / 2 ^ (a + lo) % 2 ^ n = x / 2 ^ lo % 2 ^ n := by
  rw [stack4, field_above lo hw, field_below h]

theorem stack4_third (lo : Nat) (hw : w < 2 ^ a) (hx : x < 2 ^ b) (h : lo + n ≤ c) :
    stack4 a b c w x y z / 2 ^ (a + b + lo) % 2 ^ n = y / 2 ^ lo % 2 ^ n := by
  rw [stack4, Nat.add_assoc, field_above _ hw, field_above lo hx, field_below h]

theorem stack4_fourth (lo : Nat) (hw : w < 2 ^ a) (hx : x < 2 ^ b) (hy : y < 2 ^ c) :
    stack4 a b c w x y z / 2 ^ (a + b + c + lo) % 2 ^ n = z / 2 ^ lo % 2 ^ n := by
  rw [stack4, Nat.add_assoc, Nat.add_assoc, field_above _ hw, field_above _ hx, field_above lo hy]

end stack

/-- The image of a quantised vector: codes, starts, scales and their count (R233). -/
def quantImage (codes starts scales : List Nat) : VReg :=
  BitVec.ofNat 8192 (joinNat 8 codes + 2 ^ 2048 * joinNat 1 starts + 2 ^ 2304 * joinNat 16 scales + 2 ^ 8160 * scales.length)

section image

variable {codes starts scales : List Nat} (hc : codes.length = 256) (hs : starts.length = 256) (hk : scales.length ≤ 256)
include hc hs hk

theorem quantImage_eq : quantImage codes starts scales
      = BitVec.ofNat 8192 (stack4 2048 256 5856 (joinNat 8 codes) (joinNat 1 starts) (joinNat 16 scales) scales.length)
    ∧ joinNat 8 codes < 2 ^ 2048 ∧ joinNat 1 starts < 2 ^ 256 ∧ joinNat 16 scales < 2 ^ 5856 := by
  have h1 : (2 : Nat) ^ 2304 = 2 ^ (2048 + 256) := congrArg (fun e => 2 ^ e) rfl
  have h2 : (2 : Nat) ^ 8160 = 2 ^ (2048 + 256 + 5856) := congrArg (fun e => 2 ^ e) rfl
  refine ⟨by rw [quantImage, h1, h2, stack4_eq], ?_, ?_, ?_⟩
  · have := joinNat_lt 8 codes
    rwa [hc] at this
  · have := joinNat_lt 1 starts
    rwa [hs] at this
  · exact (joinNat_lt 16 scales).trans_le (Nat.pow_le_pow_right (by decide) (by omega))

theorem quantImage_code {j : Nat} (hj : j < 256) : elem 8 (quantImage codes starts scales) j = BitVec.ofNat 8 (codes.getD j 0) := by
  obtain ⟨himage, -, -, -⟩ := quantImage_eq hc hs hk
  apply BitVec.eq_of_toNat_eq
  rw [elem, himage, toNat_field_image (by omega), stack4_first (by omega), joinNat_getD, BitVec.toNat_ofNat]

theorem quantImage_start {j : Nat} (hj : j < 256) :
    (quantImage codes starts scales).getLsbD (2048 + j) = (starts.getD j 0 % 2 == 1) := by
  obtain ⟨himage, hw, -, -⟩ := quantImage_eq hc hs hk
  have h := joinNat_getD 1 starts j
  rw [Nat.one_mul] at h
  rw [himage, getLsbD_image (by omega), stack4_second j hw (by omega), h, pow_one]

theorem quantImage_scale {k : Nat} (hlt : k < 256) :
    elem 16 (quantImage codes starts scales) (144 + k) = BitVec.ofNat 16 (scales.getD k 0) := by
  obtain ⟨himage, hw, hx, -⟩ := quantImage_eq hc hs hk
  apply BitVec.eq_of_toNat_eq
  rw [elem, himage, toNat_field_image (by omega), show 16 * (144 + k) = 2048 + 256 + 16 * k by omega,
    stack4_third (16 * k) hw hx (by omega), joinNat_getD, BitVec.toNat_ofNat]

theorem quantImage_gap {i : Nat} (h1 : 2304 + 16 * scales.length ≤ i) (h2 : i < 8160) :
    (quantImage codes starts scales).getLsbD i = false := by
  obtain ⟨himage, hw, hx, -⟩ := quantImage_eq hc hs hk
  obtain ⟨k, rfl⟩ : ∃ k, i = 2048 + 256 + k := ⟨i - 2304, by omega⟩
  have hlt : joinNat 16 scales < 2 ^ k := (joinNat_lt 16 scales).trans_le (Nat.pow_le_pow_right (by decide) (by omega))
  rw [himage, getLsbD_image (by omega), stack4_third k hw hx (by omega), Nat.div_eq_of_lt hlt]
  rfl

theorem quantImage_count : ((quantImage codes starts scales).extractLsb' 8160 32).toNat = scales.length := by
  obtain ⟨himage, hw, hx, hy⟩ := quantImage_eq hc hs hk
  rw [himage, toNat_field_image (by omega)]
  refine (stack4_fourth 0 hw hx hy).trans ?_
  rw [pow_zero, Nat.div_one]
  exact Nat.mod_eq_of_lt (by omega)

end image

/-! ### `vquant` -/

/-- The code of a value under a scale, with its flags (R232). -/
def quantCode (t : Ty) (c : FmtCap) (x : Val) (scale : Nat) : Nat × Flg :=
  let q := (divVal x (decodeF fmtF16 scale)).1
  if t = .d8 then toD8 c.rnd c.sat q else toIntType t c.rnd c.sat q

section quant

variable (t : Ty) (c : FmtCap) (ratio : Val × Flg) (e : Nat → Val)

/-- The scale of an element's block. -/
def quantScaleAt (j : Nat) : Nat :=
  quantScale (quantTop (quantStart ratio.1 e) (fun j => (quantBounds ratio.1 e j).2) j) t

def quantCodes : List (Nat × Flg) := (List.range 256).map fun j => quantCode t c (e j) (quantScaleAt t ratio e j)

def quantStarts : List Nat := (List.range 256).map fun j => (quantStart ratio.1 e j).toNat

def quantScales : List Nat := ((List.range 256).filter (quantStart ratio.1 e)).map (quantScaleAt t ratio e)

theorem quantScales_length : (quantScales t ratio e).length = presentBefore (quantStart ratio.1 e) 256 := List.length_map _

theorem quant_blocks : (spreadHi (quantBlocks ratio.1 ((List.range 256).map e) true (.inf false) (.zero false) []) none).reverse
    = (List.range 256).map fun j => (quantStart ratio.1 e j,
        quantTop (quantStart ratio.1 e) (fun j => (quantBounds ratio.1 e j).2) j) := by
  have h := quantBlocks_eq ratio.1 e 256 0 []
  have h0 : quantBounds ratio.1 e 0 = (.inf false, .zero false) := rfl
  simp only [Nat.zero_add, List.append_nil, h0, beq_self_eq_true] at h
  rw [h, spread_blocks (quantStart ratio.1 e) fun j => (quantBounds ratio.1 e j).2]

end quant

theorem fop_f32 (c : FmtCap) (v : Nat) : fop .f32 c v = operandF fmtF32 c.flush v := rfl

section

variable (s : State) (t : Ty) (d : Dst) (a b : Src) (w : Option (Mod × Mod)) {e : Nat → Val} {ratio : Val × Flg}
  (he : ∀ j, fop .f32 s.cap (elem 32 (s.vmodSrc a (fstMod w)) j).toNat = e j)
  (hr : quantRatio (fop .f32 s.cap (elem 32 (s.vmodSrc b (sndMod w)) 0).toNat) = ratio)
include he hr

theorem exec_vquant : exec (.vquant t d a b w) s = .next (s.vecLandAll 4 s.vecSlot d
      (quantImage ((quantCodes t s.cap ratio e).map (·.1)) (quantStarts ratio e) (quantScales t ratio e),
        (quantCodes t s.cap ratio e).foldl (fun acc x => acc ||| x.2) ratio.2)) := by
  have hx : (lanes (s.srcs2 a b w).1).map (fop .f32 s.cap) = (List.range 256).map e := by
    rw [lanes_eq_map_range, List.map_map]
    exact List.map_congr_left fun j _ => he j
  have hy : quantRatio (fop .f32 s.cap ((lanes (s.srcs2 a b w).2).headD 0)) = ratio := by
    rw [lanes_eq_map_range]
    exact hr
  have hexec : exec (.vquant t d a b w) s = execVquant t d a b w s := rfl
  rw [hexec, execVquant]
  dsimp only
  rw [hx, hy, quant_blocks, List.zipWith_map, List.zipWith_self, List.filter_map, List.map_map, List.map_map]
  refine congrArg Host.Outcome.next (congrArg (s.vecLandAll 4 s.vecSlot d) (Prod.ext ?_ ?_))
  · show quantImage _ _ _ = quantImage _ _ _
    refine congr (congr (congrArg quantImage ?_) ?_) ?_
    · rw [quantCodes, List.map_map]
      rfl
    · rfl
    · rw [quantScales, List.map_map]
      rfl
  · dsimp only
    rw [quantCodes]
    rfl

end

/-- Settles O42: a part of a conversion, packing, and the image of a quantised vector. -/
theorem vectorConversions : Obligations.VectorConversions := by
  unfold Obligations.VectorConversions
  intro s t u d a b w k
  refine ⟨fun ht hu hp => s.vcvt_yields ht hu d a k rfl hp, fun ht => ⟨s.vpack_yields ht d a b w,
    fun hp => s.vunpk_yields ht d a k rfl hp⟩, fun _ => ?_⟩
  have hexec := exec_vquant s t d a b w (fun j => fop_f32 s.cap _) (congrArg quantRatio (fop_f32 s.cap _))
  dsimp only
  generalize operandF fmtF32 s.cap.flush = rd at hexec ⊢
  generalize quantRatio (rd (elem 32 (s.vmodSrc b (sndMod w)) 0).toNat) = ratio at hexec ⊢
  generalize he : (fun j => rd (elem 32 (s.vmodSrc a (fstMod w)) j).toNat) = e at hexec ⊢
  have hej : ∀ j, rd (elem 32 (s.vmodSrc a (fstMod w)) j).toNat = e j := congrFun he
  simp only [hej]
  have hc : ((quantCodes t s.cap ratio e).map (·.1)).length = 256 := by simp [quantCodes]
  have hs : (quantStarts ratio e).length = 256 := by simp [quantStarts]
  have hlen := quantScales_length t ratio e
  have hk : (quantScales t ratio e).length ≤ 256 := hlen.trans_le (presentBefore_le _ 256)
  refine ⟨_, _, quantStart ratio.1 e, fun j => (quantBounds ratio.1 e j).1, fun j => (quantBounds ratio.1 e j).2,
    quantTop (quantStart ratio.1 e) fun j => (quantBounds ratio.1 e j).2, ⟨_, hexec, s.landF_gives _ _ _ _⟩,
    quantBlocks_spec ratio.1 e, fun j k hjk hk hin hend => quantTop_eq _ _ hjk hk hin hend, fun j hj => ⟨?_, ?_, fun hst => ?_⟩,
    fun i h1 h2 => quantImage_gap hc hs hk (by rw [hlen]; exact h1) h2, (quantImage_count hc hs hk).trans hlen, ?_⟩
  · rw [quantImage_start hc hs hk hj]
    cases h : quantStart ratio.1 e j <;> simp [quantStarts, List.getD, hj, h]
  · rw [quantImage_code hc hs hk hj]
    simp [quantCodes, List.getD, hj]
    rfl
  · have hlt := presentBefore_lt hj hst
    have hle := presentBefore_le (quantStart ratio.1 e) 256
    refine (quantImage_scale hc hs hk (k := presentBefore (quantStart ratio.1 e) j) (by omega)).trans ?_
    rw [quantScales, filter_range_getD _ hj hst]
    rfl
  · dsimp only
    rw [quantCodes, List.foldl_map]
    rfl

end Sys2Proof.Machine
end

