-- ==== Sys2Proof/Proofs/Routes.lean ====
section
/-! PROOFS. Route syllables and route instructions (R84 to R90, R204, R209 to R212). -/

namespace Sys2Proof.Machine

/-- The number of route blocks that failed, which stays at its greatest value. -/
def routeFailed (n : BitVec 32) : BitVec 32 := if n = BitVec.allOnes 32 then BitVec.allOnes 32 else n + 1

/-- The statistics with one more failed route block. -/
def ClusterStat.countRoute (t : ClusterStat) : ClusterStat := { t with routeFails := routeFailed t.routeFails }

/-- What a route block that fails its check leaves: the die counts it, and the task is lost with the block's address. -/
theorem State.loseRoute_eq (s : State) (va : Word) : s.loseRoute va =
    (s.setDie s.iss.die { s.die s.iss.die with stat := (s.die s.iss.die).stat.countRoute }).loseTask s.iss.die s.iss.ctx
      s.iss.p (BitVec.ofNat 64 (va.toNat % 2 ^ 48 * 2 ^ 16 + 4)) [] := by
  have hcount : ∀ t : ClusterStat, { t with routeFails := if t.routeFails = BitVec.allOnes 32 then t.routeFails
      else t.routeFails + 1 } = t.countRoute := by
    intro t
    unfold ClusterStat.countRoute routeFailed
    split
    · next h => rw [h]
    · rfl
  unfold State.loseRoute State.modDie
  dsimp only
  rw [hcount]
  unfold field
  generalize va.toNat % 2 ^ 48 * 2 ^ 16 + 4 = info
  rfl

theorem State.exec_bundleRoute (s : State) (wr : Bool) (far : BitVec 16) (src : RouteSrc) :
    exec (.bundleRoute wr far src) s = execBundleRoute wr far src s := rfl

theorem State.execBundleRoute_some (s : State) {src : RouteSrc} {r : Route} (h : s.routeOf src = some r) (wr : Bool)
    (far : BitVec 16) : exec (.bundleRoute wr far src) s = .next (if wr
      then { s with iss := { s.iss with wrRoute := some { bits := r, far := far } } }
      else { s with iss := { s.iss with rdRoute := some { bits := r, far := far } } }) := by
  rw [s.exec_bundleRoute]
  unfold execBundleRoute
  rw [h]
  cases wr
  · rfl
  · rfl

theorem State.execBundleRoute_pool_none (s : State) {n : BitVec 5} {o : BitVec 24} (h : s.routeOf (.pool n o) = none)
    (wr : Bool) (far : BitVec 16) :
    exec (.bundleRoute wr far (.pool n o)) s = .next (s.loseRoute ((s.iss.p &&& ~~~7) + 8 * o.signExtend 64)) := by
  rw [s.exec_bundleRoute]
  unfold execBundleRoute
  rw [h]
  rfl

section rteLd

variable (s : State) (xd : Fin 32) (off : BitVec 15)

theorem State.rteLd_yields {r : Route} (h : s.blockAt ((s.iss.p &&& ~~~7) + 8 * off.signExtend 64) none = some r) :
    s.Yields (.rteLd xd off) [⟨4, 6, .route xd r⟩] := by
  refine ⟨_, ?_, s.land_gives 4 slotRC (.route xd r)⟩
  show execRteLd xd off s = _
  have h' : s.blockAt (poolAddr s.iss.p (signExt off)) none = some r := h
  rw [execRteLd, h']

theorem State.execRteLd_none (h : s.blockAt ((s.iss.p &&& ~~~7) + 8 * off.signExtend 64) none = none) :
    exec (.rteLd xd off) s = .next (s.loseRoute ((s.iss.p &&& ~~~7) + 8 * off.signExtend 64)) := by
  show execRteLd xd off s = _
  have h' : s.blockAt (poolAddr s.iss.p (signExt off)) none = none := h
  rw [execRteLd, h']
  rfl

end rteLd

/-- The lanes that a pass serves. -/
theorem State.rtePass_yields (s : State) (d : Dst) (v sp : Src) :
    ∃ r, s.Yields (.rtePass d v sp) [⟨24, 6, .vector d r (BitVec.allOnes 256)⟩] ∧ ∀ q, q < 256 → elem 32 r q
      = if (ranks (lanes (s.vsrc v))).getD q none = some (s.src sp).toNat then BitVec.allOnes 32 else 0 := by
  refine ⟨_, ⟨_, rfl, s.land_gives 24 slotRC _⟩, fun q hq => ?_⟩
  have hlen : (ranks (lanes (s.vsrc v))).length = 256 := by simp [ranks, lanes, elems, splitNat_length]
  have hq' : q < (ranks (lanes (s.vsrc v))).length := by omega
  rw [ofLanes, elem_ofElems _ _ _ (by omega)]
  generalize ranks (lanes (s.vsrc v)) = l at hq'
  rw [List.getD_eq_getElem _ _ (by simpa using hq'), List.getElem_map, List.getD_eq_getElem _ _ hq', State.srcN]
  split <;> rfl

/-- Settles O47: each route instruction is a landing, a loss, or one access. -/
theorem prefixesAndRoutes : Obligations.PrefixesAndRoutes := by
  unfold Obligations.PrefixesAndRoutes
  intro s p wr far src xd xa off a v sp d va fails
  have hfails : ∀ (i : Instr) (va : Word), exec i s = .next (s.loseRoute va) → fails i va := fun i va h =>
    h.trans (congrArg Host.Outcome.next (s.loseRoute_eq va))
  refine ⟨rfl, fun r h => s.execBundleRoute_some h wr far, rfl, fun _ => rfl,
    fun n o h => hfails _ _ (s.execBundleRoute_pool_none h wr far), fun r h => s.rteLd_yields xd off h,
    fun h => hfails _ _ (s.execRteLd_none xd off h), ⟨_, rfl, s.land_gives 4 slotRC _⟩,
    ⟨_, rfl, s.land_gives 4 slotRC _⟩, ⟨⟨_, rfl, ?_⟩, s.rtePass_yields d v sp⟩, ?_⟩
  · exact (s.land_gives 24 slotRC _).trans (State.land_gives _ 24 slotRC _)
  · exact s.yieldsAccess_of _ _ _ _ _ _ _ (congrArg Host.Outcome.next (congrArg (fun c => s.access 9 .netWrite slotRC c none
      (.routeStore (s.src a &&& ~~~7) s.cur.x[xd])) (s.clsOf_eq 0)))

end Sys2Proof.Machine
end

