-- ==== Sys2Proof/Proofs/EngineIssue.lean ====
section
/-! PROOFS. Engine syllables and `hops` at issue (R141 to R149, R248 to R262, R306, R311 to R319, R333, R337). -/

namespace Sys2Proof.Machine

/-! ### The virtual die of a far address -/

/-- Whether an address is a well-formed bank or fold address (R306). -/
def FarFormed (x : Word) : Prop :=
  (x.extractLsb' 60 4 = 8 ∧ x.extractLsb' 27 21 = 0) ∨ (x.extractLsb' 60 4 = 12 ∧ x.extractLsb' 7 45 = 0)

/-- The address names a virtual die. -/
def FarNames (x : Word) (v : Fin 256) : Prop := (x.extractLsb' 52 8).toNat = v.val ∧ FarFormed x

theorem extractLsb'_eq_iff_bits (x : Word) (lo w k : Nat) (hk : k < 2 ^ w) :
    x.extractLsb' lo w = BitVec.ofNat w k ↔ bits x lo w = k := by
  rw [bits_eq]
  refine ⟨fun h => ?_, fun h => BitVec.eq_of_toNat_eq ?_⟩
  · rw [h, BitVec.toNat_ofNat, Nat.mod_eq_of_lt hk]
  · rw [h, BitVec.toNat_ofNat, Nat.mod_eq_of_lt hk]

/-- The top four bits of an address as its kind and the two bits below. -/
theorem bits_top_eq_iff (x : Word) {k : Nat} : bits x 60 4 = 4 * k ↔ bits x 62 2 = k ∧ bits x 60 2 = 0 := by
  unfold bits
  omega

theorem farFormed_iff (x : Word) : FarFormed x ↔ (bits x 62 2 = 2 ∧ bits x 60 2 = 0 ∧ bits x 27 21 = 0)
    ∨ (bits x 62 2 = 3 ∧ bits x 60 2 = 0 ∧ bits x 7 45 = 0) := by
  have h8 := (extractLsb'_eq_iff_bits x 60 4 8 (by decide)).trans (bits_top_eq_iff x (k := 2))
  have h12 := (extractLsb'_eq_iff_bits x 60 4 12 (by decide)).trans (bits_top_eq_iff x (k := 3))
  have h27 := extractLsb'_eq_iff_bits x 27 21 0 (by decide)
  have h7 := extractLsb'_eq_iff_bits x 7 45 0 (by decide)
  unfold FarFormed
  exact or_congr ((and_congr h8 h27).trans and_assoc) ((and_congr h12 h7).trans and_assoc)

theorem farDie_of_formed {x : Word} (h : FarFormed x) : farDie x = some (BitVec.ofNat 8 (bits x 52 8)) := by
  unfold farDie farKind
  rcases (farFormed_iff x).mp h with ⟨hk, h60, hz⟩ | ⟨hk, h60, hz⟩ <;> simp [hk, h60, hz]

theorem farDie_of_not_formed {x : Word} (h : ¬ FarFormed x) : farDie x = none := by
  rw [farFormed_iff] at h
  unfold farDie farKind
  split
  · next hk => split at hk <;> simp_all
  · next hk => split at hk <;> simp_all
  · rfl

theorem farDie_of_names {x : Word} {v : Fin 256} (h : FarNames x v) : farDie x = some (BitVec.ofNat 8 v.val) := by
  obtain ⟨hv, hf⟩ := h
  rw [farDie_of_formed hf, bits_eq, hv]

theorem farNames_of_farDie {x : Word} {b : BitVec 8} (h : farDie x = some b) : FarNames x (Fin.ofNat 256 b.toNat) := by
  by_cases hf : FarFormed x
  · rw [farDie_of_formed hf, Option.some_inj] at h
    refine ⟨?_, hf⟩
    have hlt : bits x 52 8 < 256 := Nat.mod_lt _ (by decide)
    rw [← h, ← bits_eq, BitVec.toNat_ofNat]
    show bits x 52 8 = bits x 52 8 % 256 % 256
    omega
  · rw [farDie_of_not_formed hf] at h
    cases h

/-! ### Absent virtual dies -/

/-- Every virtual die that an address names is present. -/
def Ctx.Clear (c : Ctx) (x : Word) : Prop := ∀ v : Fin 256, FarNames x v → c.vtab[v].present = true

/-- The first absent virtual die among those that addresses name. -/
def Ctx.firstAbsent (c : Ctx) (l : List Word) : Option (BitVec 8) :=
  (l.filterMap farDie).find? fun v => !(c.vtab[Fin.ofNat 256 v.toNat]).present

section firstAbsent

variable {c : Ctx} {x : Word} {l : List Word} {v : Fin 256}

theorem Ctx.firstAbsent_cons_clear (h : c.Clear x) : c.firstAbsent (x :: l) = c.firstAbsent l := by
  unfold Ctx.firstAbsent
  cases hx : farDie x with
  | none => rw [List.filterMap_cons_none hx]
  | some b =>
    have hp := h _ (farNames_of_farDie hx)
    rw [List.filterMap_cons_some hx, List.find?_cons_of_neg (by rw [hp]; decide)]

theorem Ctx.firstAbsent_nil : c.firstAbsent [] = none := rfl

theorem ofNat_toNat_ofNat (v : Fin 256) : Fin.ofNat 256 (BitVec.ofNat 8 v.val).toNat = v := by
  apply Fin.ext
  show v.val % 2 ^ 8 % 256 = v.val
  omega

/-- The entry of the virtual die table that a number names. -/
theorem Ctx.vtab_ofNat (c : Ctx) (v : Fin 256) : c.vtab[Fin.ofNat 256 (BitVec.ofNat 8 v.val).toNat] = c.vtab[v] :=
  congrArg (fun u : Fin 256 => c.vtab[u]) (ofNat_toNat_ofNat v)

theorem Ctx.firstAbsent_cons_absent (h : FarNames x v) (ha : c.vtab[v].present = false) :
    c.firstAbsent (x :: l) = some (BitVec.ofNat 8 v.val) := by
  unfold Ctx.firstAbsent
  rw [List.filterMap_cons_some (farDie_of_names h), List.find?_cons_of_pos]
  rw [c.vtab_ofNat, ha]
  rfl

end firstAbsent

/-- The trap of an instruction that names an absent virtual die (R126). -/
def State.trapAbsent (s : State) (v : Fin 256) : State := s.takeTrap s.iss.die s.iss.ctx
  { cause := 7, addr := s.iss.p, resume := s.iss.p, info := BitVec.ofNat 64 v.val }

theorem State.unlessAbsent_none {s : State} {i : Instr} (h : s.cur.absent i = none) (f : State) : s.unlessAbsent i f = f := by
  rw [State.unlessAbsent, h]

theorem State.unlessAbsent_some {s : State} {i : Instr} {v : Fin 256} (h : s.cur.absent i = some (BitVec.ofNat 8 v.val))
    (f : State) : s.unlessAbsent i f = s.trapAbsent v := by
  have hinfo : (BitVec.ofNat 8 v.val).setWidth 64 = BitVec.ofNat 64 v.val := by
    apply BitVec.eq_of_toNat_eq
    simp
  rw [State.unlessAbsent, h]
  dsimp only
  rw [hinfo, State.trapHere, State.trapAbsent]

/-! ### Array operations -/

section arrays

variable {s : State} {i : Instr} {m : Fin 16} {a b c : Src} {ch : Bool} {k : Deps}

theorem qArray_eq (m : Fin 16) : qArray m.val = ⟨m.val + 1, by omega⟩ := by
  apply Fin.ext
  show (1 + m.val % 16) % 19 = m.val + 1
  omega

theorem State.arrayOp_yields {far : Bool} (h : exec i s = .next (s.arrayOp i m a b c far ch k))
    (ha : s.cur.absent i = none) :
    s.YieldsOp i ⟨m.val + 1, by omega⟩ k 0 (s.src a) (s.src b) (s.src c) 0 := by
  rw [State.arrayOp, State.unlessAbsent_none ha, qArray_eq] at h
  exact s.yieldsOp_of _ _ _ _ _ _ _ _ h

theorem State.absent_stream (hn : namedDies s.cur.rf i = (streamFar (s.src a) (s.src b) (s.src c)).filterMap farDie) :
    s.cur.absent i = s.cur.firstAbsent (streamFar (s.src a) (s.src b) (s.src c)) := by
  rw [Ctx.absent, hn, Ctx.firstAbsent]

/-- The far addresses of a stream operation, all of whose virtual dies are present. -/
theorem Ctx.firstAbsent_streamFar_clear {c : Ctx} {x y z : Word}
    (h : x.getLsbD 3 = true → c.Clear y ∧ (x.getLsbD 5 = true → c.Clear z)) : c.firstAbsent (streamFar x y z) = none := by
  unfold streamFar
  rw [bitAt_eq, bitAt_eq]
  by_cases h3 : x.getLsbD 3 = true
  · obtain ⟨hy, hz⟩ := h h3
    rw [if_pos h3]
    by_cases h5 : x.getLsbD 5 = true
    · rw [if_pos h5, Ctx.firstAbsent_cons_clear hy, Ctx.firstAbsent_cons_clear (hz h5), Ctx.firstAbsent_nil]
    · rw [if_neg h5, Ctx.firstAbsent_cons_clear hy, Ctx.firstAbsent_nil]
  · rw [if_neg h3, Ctx.firstAbsent_nil]

theorem Ctx.firstAbsent_streamFar_absent {c : Ctx} {x y z : Word} {v : Fin 256} (hv : c.vtab[v].present = false)
    (h3 : x.getLsbD 3 = true) (h : FarNames y v ∨ (c.Clear y ∧ x.getLsbD 5 = true ∧ FarNames z v)) :
    c.firstAbsent (streamFar x y z) = some (BitVec.ofNat 8 v.val) := by
  unfold streamFar
  rw [bitAt_eq, bitAt_eq, if_pos h3]
  rcases h with hy | ⟨hy, h5, hz⟩
  · split <;> exact Ctx.firstAbsent_cons_absent hy hv
  · rw [if_pos h5, Ctx.firstAbsent_cons_clear hy]
    exact Ctx.firstAbsent_cons_absent hz hv

/-- The stream operations, which may have far operands. -/
def streamOps (m : Fin 16) (a b c : Src) (ch : Bool) (k : Deps) : List Instr :=
  [.mwld m a b c ch k, .mmul m a b c ch k, .mdist m a b c ch k]

theorem State.exec_streamOps (hi : i ∈ streamOps m a b c ch k) : exec i s = .next (s.arrayOp i m a b c true ch k)
    ∧ namedDies s.cur.rf i = (streamFar (s.src a) (s.src b) (s.src c)).filterMap farDie := by
  simp only [streamOps, List.mem_cons, List.not_mem_nil, or_false] at hi
  rcases hi with rfl | rfl | rfl <;> exact ⟨rfl, rfl⟩

theorem State.streamOps_yield (hi : i ∈ streamOps m a b c ch k) (h : (s.src a).getLsbD 3 = true →
    s.cur.Clear (s.src b) ∧ ((s.src a).getLsbD 5 = true → s.cur.Clear (s.src c))) :
    s.YieldsOp i ⟨m.val + 1, by omega⟩ k 0 (s.src a) (s.src b) (s.src c) 0 := by
  obtain ⟨he, hn⟩ := State.exec_streamOps (s := s) hi
  exact State.arrayOp_yields he ((State.absent_stream hn).trans (Ctx.firstAbsent_streamFar_clear h))

theorem State.streamOps_trap (hi : i ∈ streamOps m a b c ch k) {v : Fin 256} (hv : s.cur.vtab[v].present = false)
    (h3 : (s.src a).getLsbD 3 = true) (h : FarNames (s.src b) v
      ∨ (s.cur.Clear (s.src b) ∧ (s.src a).getLsbD 5 = true ∧ FarNames (s.src c) v)) :
    exec i s = .next (s.trapAbsent v) := by
  obtain ⟨he, hn⟩ := State.exec_streamOps (s := s) hi
  rw [he, State.arrayOp,
    State.unlessAbsent_some ((State.absent_stream hn).trans (Ctx.firstAbsent_streamFar_absent hv h3 h))]

end arrays

/-! ### Remote operations -/

/-- A remote operation of one far address: what it captures, and what it names. -/
structure State.Remote (s : State) (i : Instr) (cls : Fin 16) (a : Src) (vb vc vd : Word) (k : Deps) : Prop where
  runs : exec i s = .next (s.remoteOp i cls a vb vc vd k)
  names : namedDies s.cur.rf i = [s.src a].filterMap farDie

namespace State.Remote

variable {s : State} {i : Instr} {cls : Fin 16} {a : Src} {vb vc vd : Word} {k : Deps}

theorem absent (h : s.Remote i cls a vb vc vd k) : s.cur.absent i = s.cur.firstAbsent [s.src a] := by
  rw [Ctx.absent, h.names, Ctx.firstAbsent]

theorem yields (h : s.Remote i cls a vb vc vd k) (hc : s.cur.Clear (s.src a)) :
    s.YieldsOp i 17 k cls (s.src a) vb vc vd := by
  have he := h.runs
  rw [State.remoteOp, State.unlessAbsent_none (h.absent.trans (Ctx.firstAbsent_cons_clear hc))] at he
  exact s.yieldsOp_of _ _ _ _ _ _ _ _ he

theorem traps (h : s.Remote i cls a vb vc vd k) {v : Fin 256} (hv : s.cur.vtab[v].present = false)
    (hn : FarNames (s.src a) v) : exec i s = .next (s.trapAbsent v) := by
  rw [h.runs, State.remoteOp, State.unlessAbsent_some (h.absent.trans (Ctx.firstAbsent_cons_absent hn hv))]

end State.Remote

section remote

variable (s : State) {i : Instr} (cls : Fin 16) (d a b : Src) (w : Bool) (k : Deps)

/-- The remote operations that only name what they read. -/
def remoteGets : List Instr := [.rld cls d a w k, .rsig cls d a k, .rsigRel cls d a k]

/-- The remote operations that carry a second operand. -/
def remotePuts : List Instr := [.rcpGet cls d a b k, .rcpPut cls d a b k, .amoAddFar cls d a b k, .amoAndFar cls d a b k,
  .amoOrFar cls d a b k, .amoXorFar cls d a b k, .amoMaxFar cls d a b k, .amoMinFar cls d a b k,
  .amoFaddFar cls d a b k, .amoFmaxFar cls d a b k, .amoFminFar cls d a b k, .amoSaddFar cls d a b k,
  .amoSwapFar cls d a b k]

theorem State.remote_gets (hi : i ∈ remoteGets cls d a w k) : s.Remote i cls a 0 0 (s.src d) k := by
  simp only [remoteGets, List.mem_cons, List.not_mem_nil, or_false] at hi
  rcases hi with rfl | rfl | rfl <;> exact ⟨rfl, rfl⟩

theorem State.remote_puts (hi : i ∈ remotePuts cls d a b k) : s.Remote i cls a (s.src b) 0 (s.src d) k := by
  simp only [remotePuts, List.mem_cons, List.not_mem_nil, or_false] at hi
  rcases hi with rfl | rfl | rfl | rfl | rfl | rfl | rfl | rfl | rfl | rfl | rfl | rfl | rfl <;> exact ⟨rfl, rfl⟩

theorem State.remote_rst : s.Remote (.rst cls a b w k) cls a (s.src b) 0 0 k := ⟨rfl, rfl⟩

theorem State.remote_amoCas : s.Remote (.amoCasFar cls d a b k) cls a (s.src b) (s.srcAfter b) (s.src d) k := ⟨rfl, rfl⟩

end remote

/-- Settles O48: each form is one operation put into its queue, or the trap of the first absent die. -/
theorem engineSyllables : Obligations.EngineSyllables := by
  unfold Obligations.EngineSyllables
  intro s d a b c m n o cls w ch k A B C D arr own names clear traps streams gets puts
  have hown : qArray (o.val / 8) = own := by
    apply Fin.ext
    show (1 + o.val / 8 % 16) % 19 = o.val / 8 + 1
    omega
  have op : ∀ (i : Instr) (q : Fin 19) (cl : Fin 16) (v : List Word) (fo : Bool),
      exec i s = .next (s.enqueue q i k cl v [] fo false) →
      s.YieldsOp i q k cl (v.getD 0 0) (v.getD 1 0) (v.getD 2 0) (v.getD 3 0) :=
    fun i q cl v fo h => s.yieldsOp_of q i k cl v [] fo false h
  have slot : ∀ (i : Instr) (v : Word), exec i s = .next (s.slotOp i o v k) → s.YieldsOp i own k 0 v 0 0 0 := by
    intro i v h
    rw [State.slotOp, hown] at h
    exact op i own 0 [v] false h
  have arrayPlain : ∀ (i : Instr) (x y z : Src) (cn : Bool), exec i s = .next (s.arrayOp i m x y z false cn k) →
      s.cur.absent i = none → s.YieldsOp i arr k 0 (s.src x) (s.src y) (s.src z) 0 :=
    fun i x y z cn h ha => State.arrayOp_yields h ha
  refine ⟨?copies, op _ 0 0 [] false rfl, op _ 17 0 [] false rfl, ?resume, ?slots, slot _ _ rfl, ?drains,
    arrayPlain _ a b a false rfl rfl, ?casts, op _ 18 cls [] false rfl, ?mwin,
    fun h i hi => State.streamOps_yield hi h, fun h => ⟨fun i hi => (s.remote_gets cls d a w k hi).yields h,
      (s.remote_rst cls a b w k).yields h, fun i hi => (s.remote_puts cls d a b k hi).yields h,
      fun r => (s.remote_amoCas cls d a (.named r) k).yields h⟩, fun v hv => ⟨fun hn => ⟨fun i hi => ?_,
      (s.remote_rst cls a b w k).traps hv hn, (s.remote_amoCas cls d a b k).traps hv hn⟩,
      fun h3 h i hi => State.streamOps_trap hi hv h3 h⟩⟩
  case copies =>
    simp only [List.forall_mem_cons, List.not_mem_nil, false_imp_iff, implies_true, and_true]
    exact ⟨op _ 0 0 [A, B, 0, D] false rfl, op _ 0 0 [A, B, 0, D] false rfl, op _ 0 0 [A, B, 0, D] false rfl,
      op _ 0 0 [A, B, 0, D] (ctlFollow B) rfl⟩
  case resume =>
    have h : exec (.mresume m k) s = .next (s.enqueue (qArray m.val) (.mresume m k) k 0 [] [] false false) := rfl
    rw [qArray_eq] at h
    exact op _ arr 0 [] false h
  case slots =>
    simp only [List.forall_mem_cons, List.not_mem_nil, false_imp_iff, implies_true, and_true]
    exact ⟨slot _ 0 rfl, slot _ 0 rfl, slot _ 0 rfl⟩
  case drains =>
    simp only [List.forall_mem_cons, List.not_mem_nil, false_imp_iff, implies_true, and_true]
    exact ⟨arrayPlain _ a b c false rfl rfl, arrayPlain _ a b c false rfl rfl, arrayPlain _ a b c ch rfl rfl⟩
  case casts =>
    simp only [List.forall_mem_cons, List.not_mem_nil, false_imp_iff, implies_true, and_true]
    exact ⟨op _ 18 0 [A, B] false rfl, op _ 18 0 [A, B] false rfl⟩
  case mwin =>
    intro hp
    refine op _ 18 0 [A] false ?_
    show Host.Outcome.next (if !s.cur.priv then s.trapIllegal else _) = _
    rw [hp]
    rfl
  rcases List.mem_append.mp hi with hi | hi
  · exact (s.remote_gets cls d a w k hi).traps hv hn
  · exact (s.remote_puts cls d a b k hi).traps hv hn

/-! ### Hops -/

section hops

variable (s : State) (d : Dst) (a b : Src)

/-- The virtual die that an operand of `hops` names. -/
def State.hopsDie (a : Src) : Fin 256 := ⟨(s.src a).toNat % 256, Nat.mod_lt _ (by decide)⟩

theorem setWidth_eq_ofNat_hopsDie : (s.src a).setWidth 8 = BitVec.ofNat 8 (s.hopsDie a).val := by
  apply BitVec.eq_of_toNat_eq
  rw [BitVec.toNat_setWidth, BitVec.toNat_ofNat]
  exact (Nat.mod_mod _ _).symm

theorem absent_hops : s.cur.absent (.hops d a b) = [BitVec.ofNat 8 (s.hopsDie a).val, BitVec.ofNat 8 (s.hopsDie b).val].find?
    fun v => !(s.cur.vtab[Fin.ofNat 256 v.toNat]).present := by
  rw [← setWidth_eq_ofNat_hopsDie, ← setWidth_eq_ofNat_hopsDie]
  rfl

theorem physOf_hopsDie : s.cur.physOf ((s.src a).setWidth 8) = s.cur.vtab[s.hopsDie a].phys := by
  rw [setWidth_eq_ofNat_hopsDie, Ctx.physOf, Ctx.vtab_ofNat]

theorem hopDist_le (p q : DieId) : hopDist p q ≤ 15 := by
  have hp := p.isLt
  have hq := q.isLt
  unfold hopDist dieXY
  dsimp only
  omega

theorem hopDist_cast (p q : DieId) : (hopDist p q : Int) = max (|((dieXY q).1 - (dieXY p).1) + ((dieXY q).2 - (dieXY p).2)|)
    (|((dieXY q).1 - (dieXY p).1) - ((dieXY q).2 - (dieXY p).2)|) / 2 := by
  unfold hopDist
  simp only [Int.abs_eq_natAbs]
  push_cast
  rfl

end hops

/-- Settles O49: the sites of the grid are those of `dieXY`, and its distance is `hopDist`. -/
theorem hops : Obligations.Hops := by
  unfold Obligations.Hops
  intro s d a b x y u v p q dx dy
  have hxy : ∀ p, dieXY p = (x p, y p) := fun p => by
    show (((2 * (p.val % 8) + p.val / 8 % 2 : Nat) : Int), ((p.val / 8 : Nat) : Int)) = _
    push_cast
    rfl
  have hrun : exec (.hops d a b) s = .next (s.unlessAbsent (.hops d a b)
      (s.intLand64 d (BitVec.ofNat 64 (hopDist p q)))) := by
    show Host.Outcome.next (s.unlessAbsent (.hops d a b) (s.intLand64 d (BitVec.ofNat 64
      (hopDist (s.cur.physOf ((s.src a).setWidth 8)) (s.cur.physOf ((s.src b).setWidth 8)))))) = _
    rw [physOf_hopsDie, physOf_hopsDie]
    rfl
  have habs := absent_hops s d a b
  refine ⟨fun p => ?_, fun hu hv => ⟨hopDist p q, ?_, hopDist_le p q, ?_⟩, fun hu => ?_, fun hu hv => ?_⟩
  · have hp := p.isLt
    show (2 * ((p.val : Int) % 8) + (p.val : Int) / 8 % 2 + (p.val : Int) / 8) % 2 = 0 ∧ (p.val : Int)
      = (16 * ((p.val : Int) / 8) + (2 * ((p.val : Int) % 8) + (p.val : Int) / 8 % 2)) / 2
      ∧ 0 ≤ 2 * ((p.val : Int) % 8) + (p.val : Int) / 8 % 2 ∧ 2 * ((p.val : Int) % 8) + (p.val : Int) / 8 % 2 < 16
      ∧ (p.val : Int) / 8 < 16
    omega
  · rw [hopDist_cast, hxy p, hxy q]
  · refine ⟨_, hrun.trans (congrArg Host.Outcome.next (State.unlessAbsent_none ?_ _)), s.land_gives 1 s.intSlot _⟩
    rw [habs, List.find?_cons_of_neg, List.find?_cons_of_neg, List.find?_nil]
    · rw [Ctx.vtab_ofNat, show s.cur.vtab[s.hopsDie b].present = true from hv]; decide
    · rw [Ctx.vtab_ofNat, show s.cur.vtab[s.hopsDie a].present = true from hu]; decide
  · refine hrun.trans (congrArg Host.Outcome.next (State.unlessAbsent_some (v := u) (habs.trans ?_) _))
    rw [List.find?_cons_of_pos]
    · rfl
    · rw [Ctx.vtab_ofNat, show s.cur.vtab[s.hopsDie a].present = false from hu]; rfl
  · refine hrun.trans (congrArg Host.Outcome.next (State.unlessAbsent_some (v := v) (habs.trans ?_) _))
    rw [List.find?_cons_of_neg, List.find?_cons_of_pos]
    · rfl
    · rw [Ctx.vtab_ofNat, show s.cur.vtab[s.hopsDie b].present = false from hv]; rfl
    · rw [Ctx.vtab_ofNat, show s.cur.vtab[s.hopsDie a].present = true from hu]; decide

end Sys2Proof.Machine
end

