-- ==== Sys2Proof/Proofs/LandingEffects.lean ====
section
/-! PROOFS. What a landing does to a register file and to a context (R15, R16, R20, R108, R133, R218, R226). -/

namespace Sys2Proof.Machine

/-! ### The two parts of a landing -/

/-- What a landing does to the register file of the space that issued it. -/
def Land.onFile (d8 : Bool) (l : Land) (r : RegFile) : RegFile :=
  match l with
  | .scalar d v => r.putScalar d v
  | .vector d v m => r.putVector d (mergeBits (maskImage m) v (r.oldOf d))
  | .part d v m take => r.putVector d (mergeBits (maskImage m &&& take) v (r.oldOf d))
  | .flags x => { r with flg := orFlags r.flg x }.touch 0
  | .wide fs n => { r with wf := vset r.wf (match fs with | .va => 0 | .vb => 1 | .sx => 2) n }.touch 0
  | .link v => { r with lr := v }.touch 0
  | .mpush m => r.setMask r.depth (r.mask &&& m) (r.depth + 1)
  | .minv => r.setMask (r.depth - 1) (r.parentMask &&& ~~~r.mask) r.depth
  | .mpop => { r with depth := r.depth - 1 }.touch 0
  | .mset m => r.setMask (r.depth - 1) m r.depth
  | .ctl .fmt v => { r with fmt := (fmtWrite r.fmt v d8).1 }.touch 0
  | .ctl .flg v => { r with flg := flgWrite r.flg v }.touch 0
  | .ctl .lr v => { r with lr := v }.touch 0
  | _ => r

/-- What a landing does to the rest of the context, and to the task's flags by name. -/
def Land.onCtx (strict : Bool) (l : Land) (c : Ctx) : Ctx :=
  match l with
  | .route x v => { c with x := vset c.x x v }
  | .ctl .trapResume v => { c with trapResume := v }
  | .ctl .trapVec v => { c with trapVec := v }
  | .ctl .trapRs v => { c with trapRs := v, hndStale := true }
  | .ctl .ctxMode v =>
    { c with tagLimit := BitVec.ofNat 5 (bits v 8 5), opStrict := bitAt v 1 && strict, tagWait := bitAt v 0 }
  | .ctl .taskFlg v => { c with task := { c.task with flg := flgWrite c.task.flg v }.touch 0 }
  | _ => c

section files

variable (c : Ctx) (h : Bool) (f : RegFile → RegFile)

theorem Ctx.modFile_id : c.modFile h (fun r => r) = c := by cases h <;> rfl

@[simp] theorem Ctx.file_modFile_same : (c.modFile h f).file h = f (c.file h) := by cases h <;> rfl

@[simp] theorem Ctx.file_modFile_not : (c.modFile h f).file (!h) = c.file (!h) := by cases h <;> rfl

/-- Changing a file leaves the rest of the context. -/
theorem Ctx.modFile_rest : { c.modFile h f with task := c.task, hnd := c.hnd } = c := by cases h <;> rfl

end files

theorem Ctx.applyLand_eq (c : Ctx) (h d8 strict : Bool) (l : Land) :
    c.applyLand h d8 strict l = (l.onCtx strict c).modFile h (l.onFile d8) := by
  cases l with
  | ctl cr v =>
    cases cr with
    | fmt => rfl
    | flg => rfl
    | lr => rfl
    | _ => exact (Ctx.modFile_id _ h).symm
  | route x v => exact (Ctx.modFile_id _ h).symm
  | table g v => exact (Ctx.modFile_id _ h).symm
  | _ => rfl

/-! ### What a landing leaves of the register file -/

section onFile

variable (d8 : Bool) (l : Land) (r : RegFile)

theorem RegFile.putScalar_rest (d : Dst) (v : Word) : ∃ p q, r.putScalar d v =
    { r with q := (v :: r.q).take 16, s := (r.putScalar d v).s, touched := p, dirty := q } := by
  cases d <;> exact ⟨_, _, rfl⟩

theorem RegFile.putVector_rest (d : Dst) (v : VReg) : ∃ p q, r.putVector d v =
    { r with vq := (v :: r.vq).take 16, v := (r.putVector d v).v, touched := p, dirty := q } := by
  cases d <;> exact ⟨_, _, rfl⟩

theorem Land.onFile_kept : (l.onFile d8 r).pc = r.pc ∧ (l.onFile d8 r).loops = r.loops
    ∧ (l.onFile d8 r).depthIssue = r.depthIssue ∧ (l.onFile d8 r).home = r.home := by
  cases l with
  | scalar d v => cases d <;> exact ⟨rfl, rfl, rfl, rfl⟩
  | vector d v m => cases d <;> exact ⟨rfl, rfl, rfl, rfl⟩
  | part d v m k => cases d <;> exact ⟨rfl, rfl, rfl, rfl⟩
  | ctl cr v => cases cr <;> exact ⟨rfl, rfl, rfl, rfl⟩
  | _ => exact ⟨rfl, rfl, rfl, rfl⟩

theorem Land.onFile_scalars (h : ∀ z v, l ≠ .scalar z v) : (l.onFile d8 r).q = r.q ∧ (l.onFile d8 r).s = r.s := by
  cases l with
  | scalar d v => exact absurd rfl (h d v)
  | vector d v m => cases d <;> exact ⟨rfl, rfl⟩
  | part d v m k => cases d <;> exact ⟨rfl, rfl⟩
  | ctl cr v => cases cr <;> exact ⟨rfl, rfl⟩
  | _ => exact ⟨rfl, rfl⟩

theorem Land.onFile_vectors (h : ∀ z v m, l ≠ .vector z v m) (hp : ∀ z v m k, l ≠ .part z v m k) :
    (l.onFile d8 r).vq = r.vq ∧ (l.onFile d8 r).v = r.v := by
  cases l with
  | scalar d v => cases d <;> exact ⟨rfl, rfl⟩
  | vector d v m => exact absurd rfl (h d v m)
  | part d v m k => exact absurd rfl (hp d v m k)
  | ctl cr v => cases cr <;> exact ⟨rfl, rfl⟩
  | _ => exact ⟨rfl, rfl⟩

theorem Land.onFile_flg (h : ∀ v, l ≠ .flags v) (hc : ∀ v, l ≠ .ctl .flg v) : (l.onFile d8 r).flg = r.flg := by
  cases l with
  | scalar d v => cases d <;> rfl
  | vector d v m => cases d <;> rfl
  | part d v m k => cases d <;> rfl
  | flags v => exact absurd rfl (h v)
  | ctl cr v =>
    cases cr with
    | flg => exact absurd rfl (hc v)
    | _ => rfl
  | _ => rfl

theorem Land.onFile_fmt (h : ∀ v, l ≠ .ctl .fmt v) : (l.onFile d8 r).fmt = r.fmt := by
  cases l with
  | scalar d v => cases d <;> rfl
  | vector d v m => cases d <;> rfl
  | part d v m k => cases d <;> rfl
  | ctl cr v =>
    cases cr with
    | fmt => exact absurd rfl (h v)
    | _ => rfl
  | _ => rfl

theorem Land.onFile_wide (h : ∀ k c, l ≠ .wide k c) : (l.onFile d8 r).wf = r.wf := by
  cases l with
  | scalar d v => cases d <;> rfl
  | vector d v m => cases d <;> rfl
  | part d v m k => cases d <;> rfl
  | wide k c => exact absurd rfl (h k c)
  | ctl cr v => cases cr <;> rfl
  | _ => rfl

theorem Land.onFile_lr (h : ∀ v, l ≠ .link v) (hc : ∀ v, l ≠ .ctl .lr v) : (l.onFile d8 r).lr = r.lr := by
  cases l with
  | scalar d v => cases d <;> rfl
  | vector d v m => cases d <;> rfl
  | part d v m k => cases d <;> rfl
  | link v => exact absurd rfl (h v)
  | ctl cr v =>
    cases cr with
    | lr => exact absurd rfl (hc v)
    | _ => rfl
  | _ => rfl

theorem Land.onFile_masks (hpush : ∀ c, l ≠ .mpush c) (hinv : l ≠ .minv) (hpop : l ≠ .mpop) (hset : ∀ c, l ≠ .mset c) :
    (l.onFile d8 r).masks = r.masks ∧ (l.onFile d8 r).depth = r.depth := by
  cases l with
  | scalar d v => cases d <;> exact ⟨rfl, rfl⟩
  | vector d v m => cases d <;> exact ⟨rfl, rfl⟩
  | part d v m k => cases d <;> exact ⟨rfl, rfl⟩
  | mpush c => exact absurd rfl (hpush c)
  | minv => exact absurd rfl hinv
  | mpop => exact absurd rfl hpop
  | mset c => exact absurd rfl (hset c)
  | ctl cr v => cases cr <;> exact ⟨rfl, rfl⟩
  | _ => exact ⟨rfl, rfl⟩

end onFile

/-! ### What a landing leaves of the context -/

section onCtx

variable (strict : Bool) (l : Land) (c : Ctx)

theorem Land.onCtx_rest : ∃ p, l.onCtx strict c = { c with
    task := p, x := (l.onCtx strict c).x, trapResume := (l.onCtx strict c).trapResume
    trapVec := (l.onCtx strict c).trapVec, trapRs := (l.onCtx strict c).trapRs, hndStale := (l.onCtx strict c).hndStale
    tagLimit := (l.onCtx strict c).tagLimit, tagWait := (l.onCtx strict c).tagWait
    opStrict := (l.onCtx strict c).opStrict } := by
  cases l with
  | ctl cr v => cases cr <;> exact ⟨_, rfl⟩
  | _ => exact ⟨_, rfl⟩

theorem Land.onCtx_hnd : (l.onCtx strict c).hnd = c.hnd := by
  cases l with
  | ctl cr v => cases cr <;> rfl
  | _ => rfl

theorem Land.onCtx_task : ∃ p q, (l.onCtx strict c).task = { c.task with
    flg := (l.onCtx strict c).task.flg, touched := p, dirty := q } := by
  cases l with
  | ctl cr v => cases cr <;> exact ⟨_, _, rfl⟩
  | _ => exact ⟨_, _, rfl⟩

theorem Land.onCtx_file (h : ∀ v, l ≠ .ctl .taskFlg v) (b : Bool) : (l.onCtx strict c).file b = c.file b := by
  cases l with
  | ctl cr v =>
    cases cr with
    | taskFlg => exact absurd rfl (h v)
    | _ => cases b <;> rfl
  | _ => cases b <;> rfl

theorem Land.onCtx_x (h : ∀ z v, l ≠ .route z v) : (l.onCtx strict c).x = c.x := by
  cases l with
  | route z v => exact absurd rfl (h z v)
  | ctl cr v => cases cr <;> rfl
  | _ => rfl

theorem Land.onCtx_trapResume (h : ∀ v, l ≠ .ctl .trapResume v) : (l.onCtx strict c).trapResume = c.trapResume := by
  cases l with
  | ctl cr v =>
    cases cr with
    | trapResume => exact absurd rfl (h v)
    | _ => rfl
  | _ => rfl

theorem Land.onCtx_trapVec (h : ∀ v, l ≠ .ctl .trapVec v) : (l.onCtx strict c).trapVec = c.trapVec := by
  cases l with
  | ctl cr v =>
    cases cr with
    | trapVec => exact absurd rfl (h v)
    | _ => rfl
  | _ => rfl

theorem Land.onCtx_trapRs (h : ∀ v, l ≠ .ctl .trapRs v) :
    (l.onCtx strict c).trapRs = c.trapRs ∧ (l.onCtx strict c).hndStale = c.hndStale := by
  cases l with
  | ctl cr v =>
    cases cr with
    | trapRs => exact absurd rfl (h v)
    | _ => exact ⟨rfl, rfl⟩
  | _ => exact ⟨rfl, rfl⟩

theorem Land.onCtx_ctxMode (h : ∀ v, l ≠ .ctl .ctxMode v) : (l.onCtx strict c).tagLimit = c.tagLimit
    ∧ (l.onCtx strict c).tagWait = c.tagWait ∧ (l.onCtx strict c).opStrict = c.opStrict := by
  cases l with
  | ctl cr v =>
    cases cr with
    | ctxMode => exact absurd rfl (h v)
    | _ => exact ⟨rfl, rfl, rfl⟩
  | _ => exact ⟨rfl, rfl, rfl⟩

end onCtx

/-! ### What a landing writes -/

theorem RegFile.putScalar_s (r : RegFile) (z : Dst) (v : Word) (k : Fin 16) :
    (r.putScalar z v).s[k] = if z = .named k then v else r.s[k] := by
  cases z with
  | push => simp [RegFile.putScalar, RegFile.touch]
  | named n => exact (vset_get r.s n k v).trans (by simp)

theorem RegFile.putVector_v (r : RegFile) (z : Dst) (v : VReg) (k : Fin 16) :
    (r.putVector z v).v[k] = if z = .named k then v else r.v[k] := by
  cases z with
  | push => simp [RegFile.putVector, RegFile.touchVq]
  | named n => exact (vset_get r.v n k v).trans (by simp)

theorem getLsbD_mergeBits (take v old : VReg) {p : Nat} (hp : p < 8192) :
    (mergeBits take v old).getLsbD p = if take.getLsbD p then v.getLsbD p else old.getLsbD p := by
  simp only [mergeBits, BitVec.getLsbD_or, BitVec.getLsbD_and, BitVec.getLsbD_not, hp, decide_true, Bool.true_and]
  cases take.getLsbD p <;> simp

theorem elem_maskImage (m : Mask) {j : Nat} (hj : j < 256) :
    elem 32 (maskImage m) j = if m.getLsbD j then BitVec.allOnes 32 else 0 := by
  rw [maskImage, ofLanes, elem_ofElems _ _ _ hj, maskBits_eq_map_range]
  cases h : m.getLsbD j <;> rw [BitVec.getLsbD_eq_getElem hj] at h <;> simp [List.getD, hj, h]

/-- A bit of a vector is a bit of its lane. -/
theorem getLsbD_eq_elem (v : VReg) (p : Nat) : v.getLsbD p = (elem 32 v (p / 32)).getLsbD (p % 32) := by
  have hm : p % 32 < 32 := Nat.mod_lt _ (by decide)
  rw [elem, BitVec.getLsbD_extractLsb', Nat.div_add_mod]
  simp [hm]

theorem getLsbD_maskImage (m : Mask) {p : Nat} (hp : p < 8192) : (maskImage m).getLsbD p = m.getLsbD (p / 32) := by
  have hm : p % 32 < 32 := Nat.mod_lt _ (by decide)
  rw [getLsbD_eq_elem, elem_maskImage m (by omega)]
  cases m.getLsbD (p / 32)
  · simp
  · rw [if_pos rfl, BitVec.getLsbD_allOnes, decide_eq_true hm]

/-- A lane of a result merged through a mask. -/
theorem elem_mergeBits_maskImage (m : Mask) (v old : VReg) {j : Nat} (hj : j < 256) :
    elem 32 (mergeBits (maskImage m) v old) j = if m.getLsbD j then elem 32 v j else elem 32 old j := by
  apply BitVec.eq_of_getLsbD_eq
  intro i hi
  have hij : (32 * j + i) / 32 = j := by omega
  have hlt : 32 * j + i < 8192 := by omega
  rw [elem, BitVec.getLsbD_extractLsb', getLsbD_mergeBits _ _ _ hlt, getLsbD_maskImage _ hlt, hij]
  cases m.getLsbD j <;> simp [elem, hi]

theorem getLsbD_oldOf (r : RegFile) (z : Dst) (p : Nat) : (r.oldOf z).getLsbD p = match z with
    | .named k => r.v[k].getLsbD p
    | .push => false := by
  cases z with
  | named n => rfl
  | push => simp [RegFile.oldOf]

theorem elem_oldOf (r : RegFile) (z : Dst) (j : Nat) : elem 32 (r.oldOf z) j = match z with
    | .named k => elem 32 r.v[k] j
    | .push => 0 := by
  cases z with
  | named n => rfl
  | push => simp [RegFile.oldOf, elem]

/-! ### The mask stack -/

section masks

variable (r : RegFile)

theorem RegFile.setMask_depth (i : Nat) (m : Mask) (n : Nat) : (r.setMask i m n).depth = n := rfl

theorem RegFile.setMask_masks {i : Nat} (hi : i < 8) (m : Mask) (n : Nat) (k : Fin 8) :
    (r.setMask i m n).masks[k] = if k.val = i then m else r.masks[k] := by
  refine (vset_get r.masks (Fin.ofNat 8 i) k m).trans ?_
  have he : Fin.ofNat 8 i = k ↔ k.val = i := by
    rw [Fin.ext_iff]
    show i % 8 = k.val ↔ _
    omega
  simp only [he]

theorem getElem_ofNat_eq_getElem! {n : Nat} (hn : n < 8) : r.masks[Fin.ofNat 8 n] = r.masks[n]! := by
  have h : n % 8 = n := Nat.mod_eq_of_lt hn
  simp [h, hn]

theorem RegFile.mask_eq (hd : 1 ≤ r.depth) (h8 : r.depth ≤ 8) : r.mask = r.masks[r.depth - 1]! :=
  getElem_ofNat_eq_getElem! r (by omega)

theorem RegFile.parentMask_eq (hd : 1 ≤ r.depth) (h8 : r.depth ≤ 8) :
    r.parentMask = if r.depth = 1 then BitVec.allOnes 256 else r.masks[r.depth - 2]! := by
  unfold RegFile.parentMask
  by_cases h1 : r.depth = 1
  · rw [if_pos h1, if_neg (by omega)]
  · rw [if_neg h1, if_pos (by omega), getElem_ofNat_eq_getElem! r (by omega)]

/-- The place of the top entry. -/
theorem val_eq_top_iff (hd : 1 ≤ r.depth) (k : Fin 8) : k.val = r.depth - 1 ↔ k.val + 1 = r.depth := by omega

end masks

/-! ### Control registers -/

theorem getLsbD_flgWrite (old : BitVec 32) (v : Word) :
    (flgWrite old v).extractLsb' 8 5 = v.extractLsb' 8 5 ∧ ∀ k < 5, (flgWrite old v).getLsbD k = (old.getLsbD k && !v.getLsbD k) := by
  have hen : BitVec.ofNat 32 (bits v 8 5 * 256) = (v.extractLsb' 8 5).setWidth 32 <<< 8 := by
    have hlt : bits v 8 5 < 32 := Nat.mod_lt _ (by decide)
    apply BitVec.eq_of_toNat_eq
    rw [bits_eq] at hlt ⊢
    simp only [BitVec.toNat_ofNat, BitVec.toNat_shiftLeft, BitVec.toNat_setWidth, Nat.shiftLeft_eq]
    omega
  have hF : ∀ k : Nat, (0x1F : BitVec 32).getLsbD k = decide (k < 5) := by
    intro k
    by_cases hk : k < 32
    · exact (by decide : ∀ k : Fin 32, (0x1F : BitVec 32).getLsbD k.val = decide (k.val < 5)) ⟨k, hk⟩
    · rw [BitVec.getLsbD_of_ge _ _ (by omega)]
      simp
      omega
  unfold flgWrite
  rw [hen]
  constructor
  · apply BitVec.eq_of_getLsbD_eq
    intro i hi
    have h32 : 8 + i < 32 := by omega
    have hi32 : i < 32 := by omega
    simp only [BitVec.getLsbD_extractLsb', BitVec.getLsbD_or, BitVec.getLsbD_and, BitVec.getLsbD_shiftLeft, hF,
      BitVec.getLsbD_setWidth]
    have h5 : ¬ 8 + i < 5 := by omega
    simp [hi, h32, hi32, h5]
  · intro k hk
    have h8 : k < 8 := by omega
    have h32 : k < 32 := by omega
    simp only [BitVec.getLsbD_or, BitVec.getLsbD_and, BitVec.getLsbD_not, BitVec.getLsbD_shiftLeft, hF,
      BitVec.getLsbD_setWidth]
    simp [hk, h8, h32]

/-- A ctl.fmt word of its three fields. -/
theorem fmtWord_fields (act : Fin 16) (mid : Fin 4) (rnd : Fin 8) :
    let w := BitVec.ofNat 32 (act.val * 256 + mid.val * 8 + rnd.val)
    w.extractLsb' 0 3 = BitVec.ofNat 3 rnd.val ∧ w.extractLsb' 3 2 = BitVec.ofNat 2 mid.val
      ∧ w.extractLsb' 8 4 = BitVec.ofNat 4 act.val ∧ w &&& 0xFFFFF0E0 = 0 := by
  revert act mid rnd
  decide +kernel

/-- A rounding mode that is reserved (R15). -/
def BadRnd (v : Word) : Prop := 5 ≤ (v.extractLsb' 0 3).toNat

/-- An activation function that is reserved, or not there without the feature (R15). -/
def BadAct (d8 : Bool) (v : Word) : Prop := 5 ≤ (v.extractLsb' 8 4).toNat ∨ (v.extractLsb' 8 4 = 2 ∧ d8 = false)

theorem fmtWrite_bad (old : BitVec 32) (v : Word) (d8 : Bool) :
    (fmtWrite old v d8).2 = true ↔ BadRnd v ∨ BadAct d8 v := by
  have hact : v.extractLsb' 8 4 = 2 ↔ bits v 8 4 = 2 := by
    rw [bits_eq, ← BitVec.toNat_inj]
    rfl
  unfold fmtWrite BadRnd BadAct
  simp only [hact, ← bits_eq, Bool.or_eq_true, Bool.and_eq_true, decide_eq_true_eq, beq_iff_eq, Bool.not_eq_true']

/-- What a write of ctl.fmt leaves in each field. -/
theorem fmtWrite_fields (old : BitVec 32) (v : Word) (d8 : Bool) : let w := (fmtWrite old v d8).1
    (BadRnd v → w.extractLsb' 0 3 = old.extractLsb' 0 3) ∧ (¬ BadRnd v → w.extractLsb' 0 3 = v.extractLsb' 0 3)
      ∧ w.extractLsb' 3 2 = v.extractLsb' 3 2 ∧ (BadAct d8 v → w.extractLsb' 8 4 = old.extractLsb' 8 4)
      ∧ (¬ BadAct d8 v → w.extractLsb' 8 4 = v.extractLsb' 8 4) ∧ w &&& 0xFFFFF0E0 = 0 := by
  intro w
  have hbr : decide (5 ≤ bits v 0 3) = true ↔ BadRnd v := by rw [decide_eq_true_iff, bits_eq]; rfl
  have hba : (decide (5 ≤ bits v 8 4) || (bits v 8 4 == 2 && !d8)) = true ↔ BadAct d8 v := by
    have hact : v.extractLsb' 8 4 = 2 ↔ bits v 8 4 = 2 := by
      rw [bits_eq, ← BitVec.toNat_inj]
      rfl
    unfold BadAct
    simp only [hact, ← bits_eq, Bool.or_eq_true, Bool.and_eq_true, decide_eq_true_eq, beq_iff_eq, Bool.not_eq_true']
  have field : ∀ {n : Nat} (x : BitVec n) (lo k m : Nat), m = x.toNat / 2 ^ lo % 2 ^ k →
      BitVec.ofNat k m = x.extractLsb' lo k := by
    intro n x lo k m h
    apply BitVec.eq_of_toNat_eq
    rw [BitVec.toNat_ofNat, BitVec.extractLsb'_toNat, Nat.shiftRight_eq_div_pow, h, Nat.mod_mod]
  let act : Nat := if decide (5 ≤ bits v 8 4) || (bits v 8 4 == 2 && !d8) then old.toNat / 256 % 16 else bits v 8 4
  let rnd : Nat := if decide (5 ≤ bits v 0 3) then old.toNat % 8 else bits v 0 3
  have hact : act < 16 := by
    unfold act
    split
    · exact Nat.mod_lt _ (by decide)
    · exact Nat.mod_lt _ (by decide)
  have hrnd : rnd < 8 := by
    unfold rnd
    split
    · exact Nat.mod_lt _ (by decide)
    · exact Nat.mod_lt _ (by decide)
  obtain ⟨h0, h3, h8, hz⟩ := fmtWord_fields ⟨act, hact⟩ ⟨bits v 3 2, Nat.mod_lt _ (by decide)⟩ ⟨rnd, hrnd⟩
  refine ⟨fun h => h0.trans ?_, fun h => h0.trans ?_, h3.trans (field v 3 2 _ rfl), fun h => h8.trans ?_,
    fun h => h8.trans ?_, hz⟩
  · exact field old 0 3 _ (by show rnd = _; unfold rnd; rw [if_pos (hbr.mpr h)]; omega)
  · exact field v 0 3 _ (by show rnd = _; unfold rnd; rw [if_neg (fun e => h (hbr.mp e))]; rfl)
  · exact field old 8 4 _ (by show act = _; unfold act; rw [if_pos (hba.mpr h)]; rfl)
  · exact field v 8 4 _ (by show act = _; unfold act; rw [if_neg (fun e => h (hba.mp e))]; rfl)

end Sys2Proof.Machine
end

