-- ==== Sys2Proof/Proofs/Landing.lean ====
section
/-! PROOFS. The landing of results in a state (R17 to R23, R218, R226). -/

namespace Sys2Proof.Machine

/-! ### One result -/

section landOne

variable (s : State) (d : DieId) (n : CtxId) (f : Flight)

/-- The context after a result has landed in it. -/
def State.landed : Ctx := (s.ctx d n).applyLand f.hnd ((s.die d).feature 1) ((s.die d).feature 7) f.land

/-- The invalid flag that a reserved field of ctl.fmt raises (R15). -/
def State.raisedBy : Flight := { f with due := s.cycle, land := .flags fInvalid }

/-- Whether a result is a write of a reserved field to ctl.fmt. -/
def State.Reserved : Prop :=
  ∃ v, f.land = .ctl .fmt v ∧ (fmtWrite ((s.ctx d n).file f.hnd).fmt v ((s.die d).feature 1)).2 = true

theorem Ctx.applyLand_flight (c : Ctx) (h d8 strict : Bool) (l : Land) :
    (c.applyLand h d8 strict l).flight = c.flight ∧ ∀ b, (c.applyLand h d8 strict l).cutOff b = c.cutOff b := by
  obtain ⟨p, hp⟩ := l.onCtx_rest strict c
  have hrest := (l.onCtx strict c).modFile_rest h (l.onFile d8)
  rw [c.applyLand_eq]
  generalize (l.onCtx strict c).modFile h (l.onFile d8) = y at hrest
  have h1 : y.flight = (l.onCtx strict c).flight := by rw [← hrest]
  have h2 : ∀ b, y.cutOff b = (l.onCtx strict c).cutOff b := fun b => by rw [← hrest]; rfl
  rw [h1]
  refine ⟨by rw [hp], fun b => ?_⟩
  rw [h2, hp]
  rfl

theorem State.landOne_plain (ht : ∀ g v, f.land ≠ .table g v) (hr : ¬ s.Reserved d n f) :
    s.landOne d n f = s.modCtx d n fun _ => s.landed d n f := by
  have h : s.modCtx d n (fun k => k.applyLand f.hnd ((s.die d).feature 1) ((s.die d).feature 7) f.land)
    = s.modCtx d n fun _ => s.landed d n f := rfl
  unfold State.landOne
  dsimp only
  split
  · next g v e => exact absurd e (ht g v)
  · next v e =>
    exact (if_neg fun e' => hr ⟨v, e, e'⟩).trans h
  · exact h

theorem State.landOne_table {g : Fin 16} {v : VReg} (h : f.land = .table g v) :
    s.landOne d n f = (s.modCtx d n fun _ => s.landed d n f).modDie d fun x => x.putTable g v := by
  unfold State.landOne State.landed
  rw [h]
  rfl

theorem State.landOne_reserved (hr : s.Reserved d n f) :
    s.landOne d n f = (s.modCtx d n fun _ => s.landed d n f).landAt d n s.cycle f.slot f.ord f.bundle f.hnd
      (.flags fInvalid) := by
  obtain ⟨v, hl, hb⟩ := hr
  unfold State.landOne State.landed
  rw [hl]
  dsimp only
  exact if_pos hb

end landOne

/-- From `s` to `t` one result has landed, and `u` is the context that it leaves. -/
structure State.Lands (s t : State) (d : DieId) (n : CtxId) (f : Flight) : Prop where
  here : ∃ l, t.ctx d n = { s.landed d n f with flight := l } ∧ ∀ g, g ∈ l ↔ g ∈ (s.ctx d n).flight
    ∨ ((s.Reserved d n f ∧ (s.ctx d n).cutOff f.bundle = false) ∧ g = s.raisedBy f)
  others : ∀ e m, e ≠ d ∨ m ≠ n → t.ctx e m = s.ctx e m
  bytes : s.SameBytes t
  dies : ∀ e, { t.die e with ctxs := (s.die e).ctxs, truth := (s.die e).truth, truthBad := (s.die e).truthBad } = s.die e
  truth : ∀ e, (∀ g v, f.land ≠ .table g v) ∨ e ≠ d →
    (t.die e).truth = (s.die e).truth ∧ (t.die e).truthBad = (s.die e).truthBad
  table : ∀ g v, f.land = .table g v → (t.die d).truth = ((s.die d).putTable g v).truth
  rest : { t with dies := s.dies, agenda := s.agenda } = s
  quiet : ¬ s.Reserved d n f → t.agenda = s.agenda
  raises : s.Reserved d n f → (s.ctx d n).cutOff f.bundle = false → ∀ e, e ∈ t.agenda ↔ e ∈ s.agenda
    ∨ e = { due := s.cycle, act := .resultLanding, arg := { die := d, ctx := n, flag := true } }

section lands

variable {s : State} {d : DieId} {n : CtxId} {f : Flight}

/-- A context changed, and perhaps an entry put on the agenda. -/
theorem State.lands_modCtx (l : List Flight) (m : List Sched) (ht : ∀ g v, f.land ≠ .table g v)
    (hl : ∀ g, g ∈ l ↔ g ∈ (s.ctx d n).flight
      ∨ ((s.Reserved d n f ∧ (s.ctx d n).cutOff f.bundle = false) ∧ g = s.raisedBy f))
    (hq : ¬ s.Reserved d n f → m = [])
    (hm : s.Reserved d n f → (s.ctx d n).cutOff f.bundle = false → ∀ e, e ∈ s.agenda ++ m ↔ e ∈ s.agenda
      ∨ e = { due := s.cycle, act := .resultLanding, arg := { die := d, ctx := n, flag := true } }) :
    s.Lands { (s.modCtx d n fun _ => { s.landed d n f with flight := l }) with agenda := s.agenda ++ m } d n f where
  here := ⟨l, s.ctx_modCtx d n _, hl⟩
  others := fun _ _ h => s.ctx_modCtx_other _ h
  bytes := s.sameBytes_modCtx d n _
  dies := fun e => congrArg (fun x : Die => { x with truth := (s.die e).truth, truthBad := (s.die e).truthBad })
    (s.dies_modCtx d e n fun _ => { s.landed d n f with flight := l })
  truth := fun e _ => by
    have h := s.dies_modCtx d e n fun _ => { s.landed d n f with flight := l }
    show ((s.modCtx d n fun _ => { s.landed d n f with flight := l }).die e).truth = _ ∧ _
    rw [← h]
    exact ⟨rfl, rfl⟩
  table := fun g v h => absurd h (ht g v)
  rest := rfl
  quiet := fun h => by
    rw [hq h]
    exact List.append_nil _
  raises := hm

theorem State.landed_flight (s : State) (d : DieId) (n : CtxId) (f : Flight) :
    { s.landed d n f with flight := (s.ctx d n).flight } = s.landed d n f := by
  have h := ((s.ctx d n).applyLand_flight f.hnd ((s.die d).feature 1) ((s.die d).feature 7) f.land).1
  show { (s.ctx d n).applyLand f.hnd ((s.die d).feature 1) ((s.die d).feature 7) f.land with
    flight := (s.ctx d n).flight } = (s.ctx d n).applyLand f.hnd ((s.die d).feature 1) ((s.die d).feature 7) f.land
  rw [← h]

theorem State.reserved_not_table (hr : s.Reserved d n f) : ∀ g v, f.land ≠ .table g v := by
  obtain ⟨v, hl, _⟩ := hr
  intro g w h
  rw [hl] at h
  cases h

/-- A result that raises nothing. -/
theorem State.landOne_plain_lands (ht : ∀ g v, f.land ≠ .table g v) (hr : ¬ s.Reserved d n f) :
    s.Lands (s.landOne d n f) d n f := by
  have h := State.lands_modCtx (s := s) (d := d) (n := n) (f := f) (s.ctx d n).flight [] ht
    (fun g => ⟨.inl, fun h => h.elim id fun e => absurd e.1.1 hr⟩) (fun _ => rfl) (fun h => absurd h hr)
  rw [s.landed_flight, List.append_nil] at h
  rw [s.landOne_plain d n f ht hr]
  exact h

/-- A write of a reserved field, which raises invalid unless the context is being cut back. -/
theorem State.landOne_reserved_lands (hr : s.Reserved d n f) : s.Lands (s.landOne d n f) d n f := by
  have ht := State.reserved_not_table hr
  have hcut : ((s.modCtx d n fun _ => s.landed d n f).ctx d n).cutOff f.bundle = (s.ctx d n).cutOff f.bundle := by
    rw [State.ctx_modCtx]
    exact ((s.ctx d n).applyLand_flight _ _ _ _).2 _
  rw [s.landOne_reserved d n f hr, State.landAt, hcut]
  by_cases hc : (s.ctx d n).cutOff f.bundle = true
  · rw [if_pos hc]
    have h := State.lands_modCtx (s := s) (d := d) (n := n) (f := f) (s.ctx d n).flight [] ht
      (fun g => ⟨.inl, fun h => h.elim id fun e => absurd (e.1.2.symm.trans hc) (by decide)⟩) (fun _ => rfl)
      (fun _ h => absurd (h.symm.trans hc) (by decide))
    rw [s.landed_flight, List.append_nil] at h
    exact h
  · rw [if_neg hc, State.modCtx_modCtx]
    let l := (s.ctx d n).flight ++ [s.raisedBy f]
    have hland : (fun x : Ctx => { x with flight := x.flight ++ [s.raisedBy f] }) (s.landed d n f)
        = { s.landed d n f with flight := l } := by
      show { s.landed d n f with flight := (s.landed d n f).flight ++ [s.raisedBy f] } = _
      rw [← s.landed_flight d n f]
    obtain ⟨m, hm, hx⟩ := (s.modCtx d n fun _ => { s.landed d n f with flight := l }).schedOnce_eq s.cycle .resultLanding
      { die := d, ctx := n, flag := true }
    have h := State.lands_modCtx (s := s) (d := d) (n := n) (f := f) l m ht
      (fun g => by
        rw [List.mem_append, List.mem_singleton]
        exact or_congr Iff.rfl ⟨fun e => ⟨⟨hr, Bool.eq_false_iff.mpr hc⟩, e⟩, fun e => e.2⟩)
      (fun h => absurd hr h) (fun _ _ e => List.mem_append.trans (hx e))
    show s.Lands ((s.modCtx d n fun _ => (fun x : Ctx => { x with flight := x.flight ++ [s.raisedBy f] })
      (s.landed d n f)).schedOnce s.cycle .resultLanding { die := d, ctx := n, flag := true }) d n f
    rw [hland, hm]
    exact h

theorem Die.putTable_rest (x : Die) (g : Fin 16) (v : VReg) :
    { x.putTable g v with truth := x.truth, truthBad := x.truthBad } = x := by
  unfold Die.putTable
  generalize List.range 16 = l
  suffices h : ∀ y : Die, { y with truth := x.truth, truthBad := x.truthBad } = x → { l.foldl (fun x i =>
      { x with truth := Sparse.write x.truth Config.truthDefault (16 * g.val + i) (BitVec.ofNat 512 (v.toNat / 2 ^ (512 * i)))
               truthBad := x.truthBad.filter fun e => e.1 / 8 != 16 * g.val + i }) y with
      truth := x.truth, truthBad := x.truthBad } = x from h x rfl
  induction l with
  | nil => exact fun y h => h
  | cons i l ih => exact fun y h => ih _ h

/-- A write of truth tables, which changes no context. -/
theorem State.landOne_table_lands {g : Fin 16} {v : VReg} (hl : f.land = .table g v) :
    s.Lands (s.landOne d n f) d n f := by
  have hr : ¬ s.Reserved d n f := fun ⟨w, e, _⟩ => by rw [hl] at e; cases e
  have hsame : s.landed d n f = s.ctx d n := by
    unfold State.landed
    rw [hl]
    rfl
  have hself : (s.modCtx d n fun _ => s.landed d n f) = s := by
    rw [hsame]
    show ({ s with dies := vset s.dies d { s.die d with ctxs := vset (s.die d).ctxs n (s.ctx d n) } } : State) = s
    have h1 : ({ s.die d with ctxs := vset (s.die d).ctxs n (s.ctx d n) } : Die) = s.die d := by
      rw [show s.ctx d n = (s.die d).ctxs[n] from rfl, vset_self]
    rw [h1, show s.die d = s.dies[d] from rfl, vset_self]
  have hrest := (s.die d).putTable_rest g v
  rw [s.landOne_table d n f hl, hself]
  have hdie : ∀ e, ∃ p q, (s.modDie d fun x => x.putTable g v).die e = { s.die e with truth := p, truthBad := q } := by
    intro e
    by_cases h : d = e
    · subst h
      refine ⟨((s.die d).putTable g v).truth, ((s.die d).putTable g v).truthBad, ?_⟩
      rw [State.die_modDie]
      exact congrArg (fun x : Die => { x with
        truth := ((s.die d).putTable g v).truth, truthBad := ((s.die d).putTable g v).truthBad }) hrest
    · exact ⟨_, _, s.die_modDie_other _ h⟩
  have hctx : ∀ e m, (s.modDie d fun x => x.putTable g v).ctx e m = s.ctx e m := by
    intro e m
    obtain ⟨p, q, h⟩ := hdie e
    unfold State.ctx
    rw [h]
    rfl
  refine ⟨⟨(s.ctx d n).flight, ?_, fun g => ⟨.inl, fun h => h.elim id fun e => absurd e.1.1 hr⟩⟩, fun e m _ => hctx e m,
    ⟨fun _ => rfl, fun e a => ?_⟩, fun e => ?_, fun e h => ?_, fun g' v' h => ?_, rfl, fun _ => rfl,
    fun h => absurd h hr⟩
  · rw [s.landed_flight, hsame, hctx]
  · obtain ⟨p, q, h⟩ := hdie e
    exact Die.bankByte_congr (by rw [h]) (by rw [h]) a
  · obtain ⟨p, q, h⟩ := hdie e
    rw [h]
  · have hne : d ≠ e := fun hde => h.elim (fun h => h g v hl) fun h => h hde.symm
    rw [s.die_modDie_other _ hne]
    exact ⟨rfl, rfl⟩
  · rw [hl] at h
    cases h
    rw [State.die_modDie]

/-- What the landing of one result changes. -/
theorem State.landOne_lands (s : State) (d : DieId) (n : CtxId) (f : Flight) : s.Lands (s.landOne d n f) d n f := by
  by_cases hr : s.Reserved d n f
  · exact State.landOne_reserved_lands hr
  · by_cases ht : ∃ g v, f.land = .table g v
    · obtain ⟨g, v, h⟩ := ht
      exact State.landOne_table_lands h
    · exact State.landOne_plain_lands (fun g v h => ht ⟨g, v, h⟩) hr

end lands

end Sys2Proof.Machine
end

