-- ==== Sys2Proof/Proofs/ResultLanding.lean ====
section
/-! PROOFS. RESULT_LANDING of one result and of two (R17 to R23). -/

namespace Sys2Proof.Machine

/-! ### The results that are due -/

section due

variable (s : State)

/-- Whether the running step lands a result. -/
def State.landsNow (f : Flight) : Bool := decide (f.due ≤ s.cycle) && f.land.isFlags == s.ev.flag

/-- The results that the running step lands, in their order. -/
def State.dueFlights : List Flight :=
  ((s.ctx s.ev.die s.ev.ctx).flight.filter s.landsNow).foldl (fun l f => insertFlight f l) []

/-- The state without the results that are due. -/
def State.settled : State :=
  s.modCtx s.ev.die s.ev.ctx fun k => { k with flight := k.flight.filter fun f => !s.landsNow f }

theorem State.exec_resultLanding : exec .resultLanding s = .next ((s.dueFlights.filter (·.land.isCtl)
    ++ s.dueFlights.filter fun f => !f.land.isCtl).foldl (fun u f => u.landOne s.ev.die s.ev.ctx f) s.settled) := rfl

theorem State.exec_resultLanding_one {f : Flight} (h : (s.ctx s.ev.die s.ev.ctx).flight.filter s.landsNow = [f]) :
    exec .resultLanding s = .next (s.settled.landOne s.ev.die s.ev.ctx f) := by
  have hd : s.dueFlights = [f] := by rw [State.dueFlights, h]; rfl
  rw [State.exec_resultLanding, hd]
  cases hc : f.land.isCtl <;> simp [hc]

theorem insertFlight_pair {f g : Flight} (h : f.slot < g.slot ∨ (f.slot = g.slot ∧ f.ord < g.ord)) :
    insertFlight f [g] = [f, g] ∧ insertFlight g [f] = [f, g] := by
  constructor
  · unfold insertFlight
    rw [if_pos (by simpa using h)]
  · unfold insertFlight
    rw [if_neg (by simp; omega)]
    rfl

theorem State.exec_resultLanding_two {f g : Flight}
    (h : (s.ctx s.ev.die s.ev.ctx).flight.filter s.landsNow = [f, g]
      ∨ (s.ctx s.ev.die s.ev.ctx).flight.filter s.landsNow = [g, f])
    (hlt : f.slot < g.slot ∨ (f.slot = g.slot ∧ f.ord < g.ord)) (hf : f.land.isCtl = false) (hg : g.land.isCtl = false) :
    exec .resultLanding s = .next ((s.settled.landOne s.ev.die s.ev.ctx f).landOne s.ev.die s.ev.ctx g) := by
  have hd : s.dueFlights = [f, g] := by
    unfold State.dueFlights
    rcases h with h | h
    · rw [h]
      exact (insertFlight_pair hlt).2
    · rw [h]
      exact (insertFlight_pair hlt).1
  rw [State.exec_resultLanding, hd]
  simp [hf, hg]

theorem State.ctx_settled : s.settled.ctx s.ev.die s.ev.ctx = { s.ctx s.ev.die s.ev.ctx with
    flight := (s.ctx s.ev.die s.ev.ctx).flight.filter fun f => !s.landsNow f } := s.ctx_modCtx ..

theorem State.die_settled (e : DieId) : ∃ c, s.settled.die e = { s.die e with ctxs := c } := by
  have h := s.dies_modCtx s.ev.die e s.ev.ctx fun k => { k with flight := k.flight.filter fun f => !s.landsNow f }
  exact ⟨(s.settled.die e).ctxs, by rw [← h]; rfl⟩

end due

/-! ### The context after one result -/

section landed

variable (c : Ctx) (fl : List Flight) (h d8 strict : Bool) (l : Land)

theorem Land.onCtx_flight : l.onCtx strict { c with flight := fl } = { l.onCtx strict c with flight := fl } := by
  cases l with
  | ctl cr v => cases cr <;> rfl
  | _ => rfl

theorem Ctx.modFile_flight (f : RegFile → RegFile) :
    ({ c with flight := fl } : Ctx).modFile h f = { c.modFile h f with flight := fl } := by cases h <;> rfl

theorem Ctx.applyLand_withFlight (r : List Flight) :
    { ({ c with flight := r } : Ctx).applyLand h d8 strict l with flight := fl }
      = { (l.onCtx strict c).modFile h (l.onFile d8) with flight := fl } := by
  rw [Ctx.applyLand_eq, Land.onCtx_flight, Ctx.modFile_flight]

theorem Ctx.modFile_parts (f : RegFile → RegFile) : ∃ p q, c.modFile h f = { c with task := p, hnd := q } := by
  cases h <;> exact ⟨_, _, rfl⟩

theorem Ctx.file_withFlight (b : Bool) : ({ c with flight := fl } : Ctx).file b = c.file b := by cases b <;> rfl

end landed

/-- The context `y` is what a result of kind `l` and of the space `h` leaves of `x`. -/
structure Ctx.Landed (d8 strict : Bool) (l : Land) (h : Bool) (x y : Ctx) : Prop where
  own : y.file h = l.onFile d8 ((l.onCtx strict x).file h)
  other : y.file (!h) = (l.onCtx strict x).file (!h)
  rest : ∃ p q, y = { l.onCtx strict x with task := p, hnd := q, flight := y.flight }

namespace Ctx.Landed

variable {d8 strict : Bool} {l : Land} {h : Bool} {x y : Ctx}

theorem of_applyLand (r fl : List Flight) :
    Ctx.Landed d8 strict l h x { ({ x with flight := r } : Ctx).applyLand h d8 strict l with flight := fl } := by
  rw [Ctx.applyLand_withFlight]
  obtain ⟨p, q, hpq⟩ := (l.onCtx strict x).modFile_parts h (l.onFile d8)
  exact ⟨by rw [Ctx.file_withFlight, Ctx.file_modFile_same], by rw [Ctx.file_withFlight, Ctx.file_modFile_not],
    p, q, by rw [hpq]⟩

variable (k : Ctx.Landed d8 strict l h x y)

include k

theorem context : ∃ p q, y = { x with
    flight := y.flight, task := p, hnd := q, x := y.x, trapResume := y.trapResume, trapVec := y.trapVec
    trapRs := y.trapRs, hndStale := y.hndStale, tagLimit := y.tagLimit, tagWait := y.tagWait, opStrict := y.opStrict } := by
  obtain ⟨p, q, hy⟩ := k.rest
  obtain ⟨p', hz⟩ := l.onCtx_rest strict x
  generalize l.onCtx strict x = z at hy hz
  refine ⟨p, q, ?_⟩
  rw [hy, hz]

theorem otherFile : ∃ p q, y.file (!h) = { x.file (!h) with flg := (y.file (!h)).flg, touched := p, dirty := q } := by
  rw [k.other]
  cases h with
  | true => exact l.onCtx_task strict x
  | false => exact ⟨x.hnd.touched, x.hnd.dirty, by
      show (l.onCtx strict x).hnd = { x.hnd with flg := (l.onCtx strict x).hnd.flg }
      rw [l.onCtx_hnd]⟩

theorem own_eq (ht : ∀ v, l ≠ .ctl .taskFlg v) : y.file h = l.onFile d8 (x.file h) := by
  rw [k.own, l.onCtx_file strict x ht]

/-- The file that the result lands in differs from the old one by the landing, and for the task's flags by name. -/
theorem own_base : ∃ r : RegFile, y.file h = l.onFile d8 r ∧ (∃ p q, r = { x.file h with flg := r.flg, touched := p, dirty := q })
    ∧ ((∀ v, l ≠ .ctl .taskFlg v) → r = x.file h) := by
  refine ⟨_, k.own, ?_, fun ht => l.onCtx_file strict x ht h⟩
  cases h with
  | false => exact l.onCtx_task strict x
  | true => exact ⟨x.hnd.touched, x.hnd.dirty, by
      show (l.onCtx strict x).hnd = { x.hnd with flg := (l.onCtx strict x).hnd.flg }
      rw [l.onCtx_hnd]⟩

/-- The fields of the context that no file holds. -/
theorem fields : y.x = (l.onCtx strict x).x ∧ y.trapResume = (l.onCtx strict x).trapResume
    ∧ y.trapVec = (l.onCtx strict x).trapVec ∧ y.trapRs = (l.onCtx strict x).trapRs
    ∧ y.hndStale = (l.onCtx strict x).hndStale ∧ y.tagLimit = (l.onCtx strict x).tagLimit
    ∧ y.tagWait = (l.onCtx strict x).tagWait ∧ y.opStrict = (l.onCtx strict x).opStrict := by
  obtain ⟨p, q, hy⟩ := k.rest
  rw [hy]
  exact ⟨rfl, rfl, rfl, rfl, rfl, rfl, rfl, rfl⟩

end Ctx.Landed

/-! ### Truth tables -/

/-- Writing the entries of a group into a table of truth tables. -/
def writeGroup (t : Sparse (BitVec 512)) (g : Nat) (v : VReg) (n : Nat) : Sparse (BitVec 512) :=
  (List.range n).foldl (fun t i =>
    Sparse.write t Config.truthDefault (16 * g + i) (BitVec.ofNat 512 (v.toNat / 2 ^ (512 * i)))) t

theorem Die.truth_putTable (x : Die) (g : Fin 16) (v : VReg) : (x.putTable g v).truth = writeGroup x.truth g.val v 16 := by
  unfold Die.putTable writeGroup
  generalize List.range 16 = l
  induction l generalizing x with
  | nil => rfl
  | cons i l ih => exact ih _

theorem read_writeGroup {t : Sparse (BitVec 512)} (g : Nat) (v : VReg) (h : Sparse.wf t Config.truthDefault = true) :
    ∀ n, n ≤ 16 → Sparse.wf (writeGroup t g v n) Config.truthDefault = true ∧ ∀ k,
      Sparse.read (writeGroup t g v n) Config.truthDefault k = if k / 16 = g ∧ k % 16 < n
        then v.extractLsb' (512 * (k % 16)) 512 else Sparse.read t Config.truthDefault k
  | 0, _ => ⟨h, fun k => by rw [if_neg (by omega)]; rfl⟩
  | n + 1, hn => by
    obtain ⟨hw, hr⟩ := read_writeGroup g v h n (by omega)
    have hstep : writeGroup t g v (n + 1) = Sparse.write (writeGroup t g v n) Config.truthDefault (16 * g + n)
        (BitVec.ofNat 512 (v.toNat / 2 ^ (512 * n))) := by
      unfold writeGroup
      rw [List.range_succ, List.foldl_append]
      rfl
    have hval : BitVec.ofNat 512 (v.toNat / 2 ^ (512 * n)) = v.extractLsb' (512 * n) 512 := by
      rw [BitVec.extractLsb', Nat.shiftRight_eq_div_pow]
    rw [hstep]
    refine ⟨Sparse.wf_write _ _ hw, fun k => ?_⟩
    rw [Sparse.read_write _ _ _ hw, hr k]
    by_cases hk : k = 16 * g + n
    · have hm : k % 16 = n := by omega
      rw [if_pos hk, if_pos (by omega), hval, hm]
    · rw [if_neg hk]
      have hiff : (k / 16 = g ∧ k % 16 < n) ↔ (k / 16 = g ∧ k % 16 < n + 1) := by omega
      simp only [hiff]

theorem Die.feature_eq (x : Die) (n : Nat) : x.feature n = x.boot.featAcc.getLsbD n := by
  rw [Die.feature, natBit_eq, BitVec.testBit_toNat]

/-! ### What each kind of result leaves -/

section kinds

variable {d8 strict : Bool} {h : Bool} {x y : Ctx}

theorem Ctx.Landed.scalar {z : Dst} {v : Word} (k : Ctx.Landed d8 strict (.scalar z v) h x y) :
    (y.file h).q = (v :: (x.file h).q).take 16 ∧ ∀ i : Fin 16, (y.file h).s[i] = if z = .named i then v else (x.file h).s[i] := by
  rw [k.own_eq fun w e => by cases e]
  refine ⟨?_, fun i => (x.file h).putScalar_s z v i⟩
  obtain ⟨p, q, e⟩ := (x.file h).putScalar_rest z v
  show ((x.file h).putScalar z v).q = _
  rw [e]

theorem RegFile.putVector_vq (r : RegFile) (z : Dst) (v : VReg) : (r.putVector z v).vq = (v :: r.vq).take 16 := by
  obtain ⟨p, q, e⟩ := r.putVector_rest z v
  rw [e]

theorem Ctx.Landed.vector {z : Dst} {v : VReg} {m : Mask} (k : Ctx.Landed d8 strict (.vector z v m) h x y) :
    ∃ w : VReg, (y.file h).vq = (w :: (x.file h).vq).take 16
      ∧ (∀ i : Fin 16, (y.file h).v[i] = if z = .named i then w else (x.file h).v[i])
      ∧ ∀ p, p < 256 → elem 32 w p = if m.getLsbD p then elem 32 v p else elem 32 ((x.file h).oldOf z) p := by
  rw [k.own_eq fun w e => by cases e]
  exact ⟨mergeBits (maskImage m) v ((x.file h).oldOf z), RegFile.putVector_vq .., fun i => RegFile.putVector_v ..,
    fun p hp => elem_mergeBits_maskImage m v _ hp⟩

theorem Ctx.Landed.part {z : Dst} {v : VReg} {m : Mask} {t : VReg} (k : Ctx.Landed d8 strict (.part z v m t) h x y) :
    ∃ w : VReg, (y.file h).vq = (w :: (x.file h).vq).take 16
      ∧ (∀ i : Fin 16, (y.file h).v[i] = if z = .named i then w else (x.file h).v[i])
      ∧ ∀ p, p < 8192 → w.getLsbD p = if m.getLsbD (p / 32) && t.getLsbD p then v.getLsbD p
        else ((x.file h).oldOf z).getLsbD p := by
  rw [k.own_eq fun w e => by cases e]
  refine ⟨mergeBits (maskImage m &&& t) v ((x.file h).oldOf z), RegFile.putVector_vq .., fun i => RegFile.putVector_v .., fun p hp => ?_⟩
  rw [getLsbD_mergeBits _ _ _ hp, BitVec.getLsbD_and, getLsbD_maskImage m hp]

theorem Ctx.Landed.mpush {c : Mask} (k : Ctx.Landed d8 strict (.mpush c) h x y) (h1 : 1 ≤ (x.file h).depth)
    (h8 : (x.file h).depth < 8) : (y.file h).depth = (x.file h).depth + 1 ∧ ∀ i : Fin 8,
      (y.file h).masks[i] = if i.val = (x.file h).depth then (x.file h).masks[(x.file h).depth - 1]! &&& c
        else (x.file h).masks[i] := by
  rw [k.own_eq fun w e => by cases e]
  refine ⟨rfl, fun i => ?_⟩
  rw [← (x.file h).mask_eq h1 (by omega)]
  exact (x.file h).setMask_masks h8 _ _ i

theorem Ctx.Landed.minv (k : Ctx.Landed d8 strict .minv h x y) (h1 : 1 ≤ (x.file h).depth)
    (h8 : (x.file h).depth ≤ 8) : (y.file h).depth = (x.file h).depth ∧ ∀ i : Fin 8, (y.file h).masks[i]
      = if i.val + 1 = (x.file h).depth then (if (x.file h).depth = 1 then BitVec.allOnes 256
          else (x.file h).masks[(x.file h).depth - 2]!) &&& ~~~(x.file h).masks[i] else (x.file h).masks[i] := by
  rw [k.own_eq fun w e => by cases e]
  refine ⟨rfl, fun i => ?_⟩
  refine ((x.file h).setMask_masks (i := (x.file h).depth - 1) (by omega) _ _ i).trans ?_
  rw [← (x.file h).parentMask_eq h1 h8]
  by_cases hi : i.val + 1 = (x.file h).depth
  · have hn : (x.file h).depth - 1 = i.val := by omega
    have htop : (x.file h).mask = (x.file h).masks[i] := by
      have hi' : Fin.ofNat 8 ((x.file h).depth - 1) = i := Fin.ext (by
        show ((x.file h).depth - 1) % 8 = i.val
        omega)
      exact congrArg (fun j : Fin 8 => (x.file h).masks[j]) hi'
    rw [if_pos hn.symm, if_pos hi, htop]
  · rw [if_neg (by omega), if_neg hi]

theorem Ctx.Landed.mset {c : Mask} (k : Ctx.Landed d8 strict (.mset c) h x y) (h1 : 1 ≤ (x.file h).depth)
    (h8 : (x.file h).depth ≤ 8) : (y.file h).depth = (x.file h).depth ∧ ∀ i : Fin 8,
      (y.file h).masks[i] = if i.val + 1 = (x.file h).depth then c else (x.file h).masks[i] := by
  rw [k.own_eq fun w e => by cases e]
  refine ⟨rfl, fun i => ?_⟩
  refine ((x.file h).setMask_masks (i := (x.file h).depth - 1) (by omega) _ _ i).trans ?_
  simp only [val_eq_top_iff _ h1]

theorem Ctx.Landed.taskFlg {v : Word} (k : Ctx.Landed d8 strict (.ctl .taskFlg v) h x y) :
    y.task.flg = flgWrite x.task.flg v := by
  cases h with
  | false =>
    have e := k.own
    exact congrArg RegFile.flg e
  | true =>
    have e := k.other
    exact congrArg RegFile.flg e

theorem Ctx.Landed.ctxMode {v : Word} (k : Ctx.Landed d8 strict (.ctl .ctxMode v) h x y) :
    y.tagLimit = v.extractLsb' 8 5 ∧ y.tagWait = v.getLsbD 0 ∧ y.opStrict = (v.getLsbD 1 && strict) := by
  obtain ⟨_, _, _, _, _, hl, hw, ho⟩ := k.fields
  refine ⟨?_, hw.trans (bitAt_eq v 0), ?_⟩
  · rw [hl]
    show BitVec.ofNat 5 (bits v 8 5) = _
    rw [bits_eq, BitVec.ofNat_toNat, BitVec.setWidth_eq]
  · rw [ho]
    show (bitAt v 1 && strict) = _
    rw [bitAt_eq]

end kinds

/-! ### The obligations -/

section one

variable {s : State} {f : Flight} {t : State}

theorem State.settled_feature (s : State) (e : DieId) (n : Nat) : (s.settled.die e).feature n = (s.die e).feature n := by
  obtain ⟨c, h⟩ := s.die_settled e
  rw [h]
  rfl

/-- The context after the one result that was due. -/
theorem State.Lands.landed (L : s.settled.Lands t s.ev.die s.ev.ctx f) :
    Ctx.Landed ((s.die s.ev.die).boot.featAcc.getLsbD 1) ((s.die s.ev.die).boot.featAcc.getLsbD 7) f.land f.hnd
      (s.ctx s.ev.die s.ev.ctx) (t.ctx s.ev.die s.ev.ctx) := by
  obtain ⟨l, hl, _⟩ := L.here
  rw [hl, State.landed, s.ctx_settled, s.settled_feature, s.settled_feature, Die.feature_eq, Die.feature_eq]
  exact Ctx.Landed.of_applyLand _ l

/-- The result is a write of a reserved field to ctl.fmt. -/
theorem State.reserved_settled (s : State) (f : Flight) : s.settled.Reserved s.ev.die s.ev.ctx f ↔
    ∃ v, f.land = .ctl .fmt v ∧ (BadRnd v ∨ BadAct ((s.die s.ev.die).boot.featAcc.getLsbD 1) v) := by
  unfold State.Reserved
  rw [s.settled_feature, Die.feature_eq]
  simp only [fmtWrite_bad]

theorem State.cutOff_settled (s : State) (b : Nat) :
    (s.settled.ctx s.ev.die s.ev.ctx).cutOff b = (s.ctx s.ev.die s.ev.ctx).cutOff b := by
  rw [s.ctx_settled]
  rfl

/-- What stays in flight is what was not due. -/
theorem State.mem_flight_settled (h : (s.ctx s.ev.die s.ev.ctx).flight.filter s.landsNow = [f]) (g : Flight) :
    g ∈ (s.settled.ctx s.ev.die s.ev.ctx).flight ↔ g ∈ (s.ctx s.ev.die s.ev.ctx).flight ∧ g ≠ f := by
  have hdue : ∀ g, g ∈ (s.ctx s.ev.die s.ev.ctx).flight ∧ s.landsNow g = true ↔ g = f := fun g => by
    rw [← List.mem_filter, h, List.mem_singleton]
  rw [s.ctx_settled]
  show g ∈ (s.ctx s.ev.die s.ev.ctx).flight.filter _ ↔ _
  rw [List.mem_filter]
  refine and_congr_right fun hg => ⟨fun hn e => ?_, fun hn => ?_⟩
  · rw [((hdue g).mpr e).2] at hn
    exact absurd hn (by decide)
  · cases hl : s.landsNow g with
    | false => rfl
    | true => exact absurd ((hdue g).mp ⟨hg, hl⟩) hn

theorem State.Lands.ofSettled_dies (L : s.settled.Lands t s.ev.die s.ev.ctx f) (e : DieId) :
    { t.die e with ctxs := (s.die e).ctxs, truth := (s.die e).truth, truthBad := (s.die e).truthBad } = s.die e := by
  obtain ⟨c, h⟩ := s.die_settled e
  have hd := L.dies e
  rw [h] at hd
  exact congrArg (fun x : Die => { x with ctxs := (s.die e).ctxs }) hd

theorem State.Lands.ofSettled_table (L : s.settled.Lands t s.ev.die s.ev.ctx f) {g : Fin 16} {v : VReg}
    (hl : f.land = .table g v) (hw : (s.die s.ev.die).wf = true) (k : Nat) :
    Sparse.read (t.die s.ev.die).truth Config.truthDefault k = if k / 16 = g.val then v.extractLsb' (512 * (k % 16)) 512
      else Sparse.read (s.die s.ev.die).truth Config.truthDefault k := by
  obtain ⟨c, h⟩ := s.die_settled s.ev.die
  have ht : (s.settled.die s.ev.die).truth = (s.die s.ev.die).truth := by rw [h]
  rw [L.table g v hl, Die.truth_putTable, ht, (read_writeGroup g.val v ((Die.wf_iff _).mp hw).2.2.1 16 (Nat.le_refl _)).2 k]
  have hiff : (k / 16 = g.val ∧ k % 16 < 16) ↔ k / 16 = g.val := by omega
  simp only [hiff]

end one

/-- Settles O50: the one result that is due lands by `landOne`; its file and its context change as its kind says. -/
theorem resultLanding : Obligations.ResultLanding := by
  unfold Obligations.ResultLanding
  intro s f d n x hdue r d8 badRnd badAct invalid
  have hone : x.flight.filter s.landsNow = [f] := hdue
  refine ⟨_, s.exec_resultLanding_one hone, ?_⟩
  have L := s.settled.landOne_lands s.ev.die s.ev.ctx f
  generalize s.settled.landOne s.ev.die s.ev.ctx f = t at L ⊢
  have K := L.landed
  intro y u
  have hinv : invalid ↔ s.settled.Reserved d n f ∧ (s.settled.ctx d n).cutOff f.bundle = false := by
    rw [s.cutOff_settled, s.reserved_settled]
    exact ⟨fun ⟨v, hl, hb, hc⟩ => ⟨⟨v, hl, hb⟩, hc⟩, fun ⟨⟨v, hl, hb⟩, hc⟩ => ⟨v, hl, hb, hc⟩⟩
  obtain ⟨fl, hfl, hmem⟩ := L.here
  obtain ⟨r0, hu, ⟨p0, q0, hr0⟩, hr0'⟩ := K.own_base
  obtain ⟨hkept1, hkept2, hkept3, hkept4⟩ := f.land.onFile_kept d8 r0
  obtain ⟨hx, htr, htv, hrs, hst, htl, htw, hos⟩ := K.fields
  have hu' : u = f.land.onFile d8 r0 := hu
  have hbase : ∀ {α : Type} (g : RegFile → α), (∀ a b c, g { r with flg := a, touched := b, dirty := c } = g r) →
      g r0 = g r := fun g h => (congrArg g hr0).trans (h _ _ _)
  refine ⟨fun g => ?flight, K.context, K.otherFile, fun ht => ?other, ?pc, ?loops, ?depthIssue, ?home, fun e m h => ?ctxs,
    ?bytes, L.ofSettled_dies, fun e h => ?truth, ?rest, fun h => ?quiet, fun h e => ?raises, fun h => ?scalars,
    fun h hp => ?vectors, fun h hc ht => ?flg, fun h => ?fmt, fun h => ?wide, fun h hc => ?lr, fun h1 h2 h3 h4 => ?masks,
    fun h => hx.trans (f.land.onCtx_x _ x h), fun h => htr.trans (f.land.onCtx_trapResume _ x h),
    fun h => htv.trans (f.land.onCtx_trapVec _ x h), fun h => ?trapRs, fun h => ?ctxMode, ?kind⟩
  case flight =>
    have hy : y.flight = fl := by
      show (t.ctx d n).flight = fl
      rw [hfl]
    rw [hy, hmem g, State.mem_flight_settled hone, hinv]
    rfl
  case other => exact K.other.trans (f.land.onCtx_file _ x ht _)
  case pc => exact (congrArg RegFile.pc hu').trans (hkept1.trans (hbase RegFile.pc fun _ _ _ => rfl))
  case loops => exact (congrArg RegFile.loops hu').trans (hkept2.trans (hbase RegFile.loops fun _ _ _ => rfl))
  case depthIssue => exact (congrArg RegFile.depthIssue hu').trans (hkept3.trans (hbase RegFile.depthIssue fun _ _ _ => rfl))
  case home => exact (congrArg RegFile.home hu').trans (hkept4.trans (hbase RegFile.home fun _ _ _ => rfl))
  case ctxs => exact (L.others e m h).trans (s.ctx_modCtx_other _ h)
  case bytes => exact (s.sameBytes_modCtx s.ev.die s.ev.ctx _).trans L.bytes
  case truth =>
    obtain ⟨c, hc⟩ := s.die_settled e
    have ht := L.truth e h
    rw [hc] at ht
    exact ht
  case rest => exact congrArg (fun z : State => { z with dies := s.dies }) L.rest
  case quiet =>
    refine L.quiet fun hr => ?_
    obtain ⟨v, hl, _⟩ := (s.reserved_settled f).mp hr
    exact h v hl
  case raises =>
    obtain ⟨hr, hc⟩ := hinv.mp h
    exact L.raises hr hc e
  case scalars =>
    obtain ⟨h1, h2⟩ := f.land.onFile_scalars d8 r0 h
    rw [hu']
    exact ⟨h1.trans (hbase RegFile.q fun _ _ _ => rfl), h2.trans (hbase RegFile.s fun _ _ _ => rfl)⟩
  case vectors =>
    obtain ⟨h1, h2⟩ := f.land.onFile_vectors d8 r0 h hp
    rw [hu']
    exact ⟨h1.trans (hbase RegFile.vq fun _ _ _ => rfl), h2.trans (hbase RegFile.v fun _ _ _ => rfl)⟩
  case flg => rw [hu', f.land.onFile_flg d8 r0 h hc, hr0' ht]
  case fmt => exact (congrArg RegFile.fmt hu').trans ((f.land.onFile_fmt d8 r0 h).trans (hbase RegFile.fmt fun _ _ _ => rfl))
  case wide => exact (congrArg RegFile.wf hu').trans ((f.land.onFile_wide d8 r0 h).trans (hbase RegFile.wf fun _ _ _ => rfl))
  case lr => exact (congrArg RegFile.lr hu').trans ((f.land.onFile_lr d8 r0 h hc).trans (hbase RegFile.lr fun _ _ _ => rfl))
  case masks =>
    obtain ⟨e1, e2⟩ := f.land.onFile_masks d8 r0 h1 h2 h3 h4
    rw [hu']
    exact ⟨e1.trans (hbase RegFile.masks fun _ _ _ => rfl), e2.trans (hbase RegFile.depth fun _ _ _ => rfl)⟩
  case trapRs =>
    obtain ⟨h1, h2⟩ := f.land.onCtx_trapRs ((s.die d).boot.featAcc.getLsbD 7) x h
    exact ⟨hrs.trans h1, hst.trans h2⟩
  case ctxMode =>
    obtain ⟨h1, h2, h3⟩ := f.land.onCtx_ctxMode ((s.die d).boot.featAcc.getLsbD 7) x h
    exact ⟨htl.trans h1, htw.trans h2, hos.trans h3⟩
  case kind =>
    cases hl : f.land with
    | scalar z v => rw [hl] at K; exact K.scalar
    | vector z v m =>
      rw [hl] at K
      obtain ⟨w, hq, hv, hw⟩ := K.vector
      exact ⟨w, hq, hv, fun p hp => (hw p hp).trans (by rw [elem_oldOf] <;> cases z <;> rfl)⟩
    | part z v m k =>
      rw [hl] at K
      obtain ⟨w, hq, hv, hw⟩ := K.part
      exact ⟨w, hq, hv, fun p hp => (hw p hp).trans (by rw [getLsbD_oldOf] <;> cases z <;> rfl)⟩
    | flags v =>
      rw [hl] at K
      exact congrArg RegFile.flg (K.own_eq fun _ e => by cases e)
    | wide fs c =>
      rw [hl] at K
      have h := congrArg RegFile.wf (K.own_eq fun _ e => by cases e)
      cases fs <;> exact h
    | route z v =>
      intro k
      rw [hl] at hx
      rw [hx]
      exact (vset_get x.x z k v).trans (by simp [eq_comm])
    | ctl c v =>
      rw [hl] at K
      refine ⟨fun h => ?_, fun h => ?_, fun h => ?_, fun h => ?_, fun h => ?_, fun h => ?_, fun h => ?_, fun h => ?_⟩ <;> subst h
      · rw [congrArg RegFile.flg (K.own_eq fun _ e => by cases e)]
        exact getLsbD_flgWrite _ _
      · rw [K.taskFlg]
        exact getLsbD_flgWrite _ _
      · rw [congrArg RegFile.fmt (K.own_eq fun _ e => by cases e)]
        exact fmtWrite_fields _ _ _
      · exact congrArg RegFile.lr (K.own_eq fun _ e => by cases e)
      · rw [hl] at htr; exact htr
      · rw [hl] at htv; exact htv
      · rw [hl] at hrs hst; exact ⟨hrs, hst⟩
      · exact K.ctxMode
    | link v =>
      rw [hl] at K
      exact congrArg RegFile.lr (K.own_eq fun _ e => by cases e)
    | mpush c => rw [hl] at K; exact K.mpush
    | minv => rw [hl] at K; exact K.minv
    | mpop =>
      rw [hl] at K
      have h := K.own_eq fun _ e => by cases e
      exact ⟨(congrArg RegFile.depth h).trans rfl, (congrArg RegFile.masks h).trans rfl⟩
    | mset c => rw [hl] at K; exact K.mset
    | table g v => exact L.ofSettled_table hl

/-- A scalar result lands in the file of its space, and leaves the other files. -/
theorem State.landOne_scalar (s : State) (d : DieId) (n : CtxId) (f : Flight) {z : Dst} {v : Word}
    (h : f.land = .scalar z v) :
    ((s.landOne d n f).ctx d n).file f.hnd = ((s.ctx d n).file f.hnd).putScalar z v := by
  have ht : ∀ g w, f.land ≠ .table g w := fun g w e => by rw [h] at e; cases e
  have hr : ¬ s.Reserved d n f := fun ⟨w, e, _⟩ => by rw [h] at e; cases e
  rw [s.landOne_plain d n f ht hr, State.ctx_modCtx, State.landed, h]
  exact Ctx.file_modFile_same _ _ _

/-- Settles O51: the step lands the result of the lower slot, or of the earlier issue, and then the other. -/
theorem landingOrder : Obligations.LandingOrder := by
  unfold Obligations.LandingOrder
  intro s f g z v w d n x due hdue hhnd hlt hf hg
  have hctl : f.land.isCtl = false ∧ g.land.isCtl = false := by rw [hf, hg]; exact ⟨rfl, rfl⟩
  refine ⟨_, s.exec_resultLanding_two hdue hlt hctl.1 hctl.2, ?_⟩
  have hfile : (((s.settled.landOne d n f).landOne d n g).ctx d n).file f.hnd
      = ((x.file f.hnd).putScalar (.named z) v).putScalar (.named z) w := by
    rw [hhnd, State.landOne_scalar _ _ _ g hg, ← hhnd, State.landOne_scalar _ _ _ f hf, s.ctx_settled, Ctx.file_withFlight]
  rw [hfile]
  refine ⟨(RegFile.putScalar_s _ _ _ z).trans (if_pos rfl), ?_⟩
  show (w :: (v :: (x.file f.hnd).q).take 16).take 16 = _
  simp [List.take_take]

end Sys2Proof.Machine
end

