-- ==== Sys2Proof/Proofs/BankBytes.lean ====
section
/-! PROOFS. What reads and writes of the banks give and leave (R111, R112, R188, R189, R280). -/

namespace Sys2Proof.Machine

/-! ### Bytes of numbers -/

theorem bytesOfNat_eq : ∀ n v, bytesOfNat n v = (List.range n).map fun k => BitVec.ofNat 8 (v / 2 ^ (8 * k))
  | 0, _ => rfl
  | n + 1, v => by
    have h0 : BitVec.ofNat 8 (v % 256) = BitVec.ofNat 8 (v / 2 ^ (8 * 0)) := by
      apply BitVec.eq_of_toNat_eq
      simp
    have hk : ∀ k, v / 256 / 2 ^ (8 * k) = v / 2 ^ (8 * (k + 1)) := fun k => by
      rw [Nat.div_div_eq_div_mul, Nat.mul_add, Nat.pow_add, Nat.mul_comm 256]
    rw [bytesOfNat, bytesOfNat_eq n, List.range_succ_eq_map, List.map_cons, List.map_map, h0]
    congr 1
    exact List.map_congr_left fun k _ => by rw [Function.comp_apply, hk]

theorem ofNat_div_eq_extractLsb' {w : Nat} (v : BitVec w) (k n : Nat) : BitVec.ofNat n (v.toNat / 2 ^ k) = v.extractLsb' k n := by
  rw [BitVec.extractLsb', Nat.shiftRight_eq_div_pow]

/-- A byte of the value of some bytes. -/
theorem extractLsb'_natOfBytes {w : Nat} (l : List Byte) {k : Nat} (hk : 8 * k + 8 ≤ w) :
    (BitVec.ofNat w (natOfBytes l)).extractLsb' (8 * k) 8 = l.getD k 0 := by
  apply BitVec.eq_of_toNat_eq
  have hw : w = 8 * k + (8 + (w - (8 * k + 8))) := by omega
  rw [BitVec.extractLsb'_toNat, BitVec.toNat_ofNat, Nat.shiftRight_eq_div_pow, hw, Nat.pow_add, Nat.pow_add,
    Nat.mod_mul_right_div_self, Nat.mod_mul_right_mod, natOfBytes_byte]

/-! ### The last write of a byte -/

/-- What a byte holds after writes in their order, where it held `b`. -/
def lastWrite (l : List (Nat × Byte)) (y : Nat) (b : Byte) : Byte :=
  match l.reverse.find? (fun p => p.1 == y) with
  | some p => p.2
  | none => b

theorem lastWrite_append (l : List (Nat × Byte)) (q : Nat × Byte) (y : Nat) (b : Byte) :
    lastWrite (l ++ [q]) y b = if q.1 == y then q.2 else lastWrite l y b := by
  unfold lastWrite
  rw [List.reverse_append, List.reverse_singleton, List.singleton_append, List.find?_cons]
  cases q.1 == y <;> rfl

theorem foldl_lastWrite (l : List (Nat × Byte)) (y : Nat) (b : Byte) :
    l.foldl (fun b q => if q.1 == y then q.2 else b) b = lastWrite l y b := by
  induction l using List.reverseRecOn with
  | nil => rfl
  | append_singleton l q ih => rw [List.foldl_append, ih, lastWrite_append]; rfl

/-- Pending bytes over what the banks hold. -/
theorem overlay_map (p : List (Nat × Byte)) (as : List Nat) (f : Nat → Byte) :
    overlay p as (as.map f) = as.map fun y => lastWrite p y (f y) := by
  unfold overlay
  split
  · next h =>
    rw [List.isEmpty_iff] at h
    subst h
    rfl
  · induction as with
    | nil => rfl
    | cons a as ih =>
      rw [List.map_cons, List.map_cons, List.zip_cons_cons, List.map_cons, ih]
      congr 1
      exact foldl_lastWrite p a (f a)

/-! ### Writes of the banks -/

section banks

variable {x : Die}

theorem Die.setBankByte_parts (x : Die) (a : Nat) (b : Byte) : ∃ m f, x.setBankByte a b = { x with bank := m, folds := f } := by
  unfold Die.setBankByte
  dsimp only
  split
  · exact ⟨_, _, rfl⟩
  · exact ⟨_, _, rfl⟩

/-- The bytes of a write, before the error states. -/
def Die.setBytes (x : Die) (l : List (Nat × Byte)) : Die := l.foldl (fun x p => x.setBankByte p.1 p.2) x

theorem Die.setBytes_append (x : Die) (l : List (Nat × Byte)) (p : Nat × Byte) :
    x.setBytes (l ++ [p]) = (x.setBytes l).setBankByte p.1 p.2 := by
  unfold Die.setBytes
  rw [List.foldl_append]
  rfl

theorem Die.setBytes_parts (l : List (Nat × Byte)) : ∀ x : Die, ∃ m f, x.setBytes l = { x with bank := m, folds := f } := by
  induction l using List.reverseRecOn with
  | nil => exact fun x => ⟨x.bank, x.folds, rfl⟩
  | append_singleton l p ih =>
    intro x
    obtain ⟨m, f, h⟩ := ih x
    obtain ⟨m', f', h'⟩ := (x.setBytes l).setBankByte_parts p.1 p.2
    rw [Die.setBytes_append, h', h]
    exact ⟨m', f', rfl⟩

theorem Die.wf_setBytes (h : x.wf = true) (l : List (Nat × Byte)) : (x.setBytes l).wf = true := by
  induction l using List.reverseRecOn with
  | nil => exact h
  | append_singleton l p ih =>
    rw [Die.setBytes_append]
    exact Die.wf_setBankByte _ _ ih

/-- A byte of the fold area depends on the folds only. -/
theorem Die.bankByte_of_folds {x z : Die} (hf : z.folds = x.folds) {y : Nat} (hy : Config.foldBase ≤ y % Config.bankBytes) :
    z.bankByte y = x.bankByte y := by
  simp only [Die.bankByte, hy, hf, if_true]

/-- A byte of the banks after writes outside the folds. -/
theorem Die.bankByte_setBytes (h : x.wf = true) (l : List (Nat × Byte)) (hl : ∀ p ∈ l, p.1 < Config.foldBase) {y : Nat}
    (hy : y < Config.bankBytes) : (x.setBytes l).bankByte y = lastWrite l y (x.bankByte y) := by
  induction l using List.reverseRecOn with
  | nil => rfl
  | append_singleton l p ih =>
    have hp : p.1 < Config.foldBase := hl p (List.mem_append_right _ (List.mem_singleton_self p))
    have hle : Config.foldBase ≤ Config.bankBytes := by decide
    have hpm : p.1 % Config.bankBytes = p.1 := Nat.mod_eq_of_lt (by omega)
    have hym : y % Config.bankBytes = y := Nat.mod_eq_of_lt hy
    have hp' : p.1 % Config.bankBytes < Config.foldBase := hpm.symm ▸ hp
    have ih := ih fun q hq => hl q (List.mem_append_left _ hq)
    rw [Die.setBytes_append, lastWrite_append, ← ih]
    by_cases hlow : y < Config.foldBase
    · rw [Die.bankByte_setBankByte _ _ _ (Die.wf_setBytes h l) hp' (hym.symm ▸ hlow), hpm, hym]
      exact if_congr (by rw [beq_iff_eq]; exact eq_comm) rfl rfl
    · have hne : (p.1 == y) = false := by
        rw [beq_eq_false_iff_ne]
        omega
      rw [if_neg (Bool.eq_false_iff.mp hne), Die.setBankByte_low _ _ _ hp']
      refine Die.bankByte_of_folds ?_ (hym.symm ▸ Nat.le_of_not_lt hlow)
      rfl

theorem Die.bankWrite_clean (h : x.bankBad = []) (l : List (Nat × Byte)) : x.bankWrite l = x.setBytes l := by
  have hb : (x.setBytes l).bankBad = [] := by
    obtain ⟨m, f, e⟩ := Die.setBytes_parts l x
    rw [e]
    exact h
  show (x.setBytes l).eccWrite (l.map (·.1)) = x.setBytes l
  unfold Die.eccWrite
  rw [hb]
  rfl

theorem Die.bankRead_clean (h : x.bankBad = []) (as : List Nat) : x.bankRead as = (x, as.map x.bankByte, none) := by
  unfold Die.bankRead Die.eccRead Die.eccBad
  rw [h]
  rfl

end banks

/-! ### Accesses -/

/-- The removal of an access leaves what the younger accesses see before it. -/
theorem Die.pending_filter (x : Die) (a : Access) :
    ({ x with accs := x.accs.filter fun b => b.id != a.id } : Die).pending a = x.pending a := by
  unfold Die.pending
  show ((x.accs.filter fun b => b.id != a.id).filter fun b => b.before a).flatMap _ = _
  rw [List.filter_filter]
  congr 1
  refine List.filter_congr fun b _ => ?_
  cases h : b.before a with
  | false => rfl
  | true =>
    simp only [Access.before, Bool.and_eq_true, decide_eq_true_eq] at h
    have hlt := h.1.1.2
    simp only [Bool.true_and, bne_iff_ne, ne_eq]
    omega

/-- What an access sees of a byte: the youngest earlier store of its context and class, else the banks (R112, R280). -/
def Die.sees (x : Die) (a : Access) (y : Nat) : Byte := lastWrite (x.pending a) y (x.bankByte y)

/-- A read of banks without errors. -/
theorem State.readFor_clean (s : State) (d : DieId) (a : Access) (as : List Nat) (h : (s.die d).bankBad = []) :
    s.readFor d a as = (s.setDie d ((s.die d).use as), some (as.map ((s.die d).sees a))) := by
  unfold State.readFor
  dsimp only
  rw [Die.bankRead_clean h]
  dsimp only
  rw [overlay_map]
  rfl

/-! ### Results that an access puts in flight -/

/-- From `s` to `t` only results in flight of one context have come. -/
structure State.Adds (s t : State) (d : DieId) (n : CtxId) : Prop where
  dies : ∀ e, e ≠ d → t.die e = s.die e
  here : ∃ c, t.die d = { s.die d with ctxs := c }
  outer : t.mem = s.mem ∧ t.panel = s.panel ∧ t.cycle = s.cycle
  ctxs : ∀ m, m ≠ n → t.ctx d m = s.ctx d m
  flight : ∃ fl, t.ctx d n = { s.ctx d n with flight := (s.ctx d n).flight ++ fl }

namespace State.Adds

variable {s t u : State} {d : DieId} {n : CtxId}

theorem refl (s : State) (d : DieId) (n : CtxId) : s.Adds s d n :=
  ⟨fun _ _ => rfl, ⟨(s.die d).ctxs, rfl⟩, ⟨rfl, rfl, rfl⟩, fun _ _ => rfl, [], by rw [List.append_nil]⟩

theorem trans (h : s.Adds t d n) (k : t.Adds u d n) : s.Adds u d n := by
  obtain ⟨c, hc⟩ := h.here
  obtain ⟨c', hc'⟩ := k.here
  obtain ⟨fl, hf⟩ := h.flight
  obtain ⟨fl', hf'⟩ := k.flight
  obtain ⟨hm, hp, hy⟩ := h.outer
  obtain ⟨hm', hp', hy'⟩ := k.outer
  refine ⟨fun e he => (k.dies e he).trans (h.dies e he), ⟨c', by rw [hc', hc]⟩, ⟨hm'.trans hm, hp'.trans hp, hy'.trans hy⟩,
    fun m hm => (k.ctxs m hm).trans (h.ctxs m hm), fl ++ fl', ?_⟩
  rw [hf', hf, List.append_assoc]

theorem sameBytes (h : s.Adds t d n) : s.SameBytes t := by
  obtain ⟨c, hc⟩ := h.here
  refine ⟨fun a => by rw [h.outer.1], fun e a => ?_⟩
  by_cases he : e = d
  · subst he; rw [hc]; rfl
  · rw [h.dies e he]

/-- What is in flight stays in flight. -/
theorem mem_flight (h : s.Adds t d n) {f : Flight} (hf : f ∈ (s.ctx d n).flight) : f ∈ (t.ctx d n).flight := by
  obtain ⟨fl, e⟩ := h.flight
  rw [e]
  exact List.mem_append_left _ hf

theorem cutOff (h : s.Adds t d n) (b : Nat) : (t.ctx d n).cutOff b = (s.ctx d n).cutOff b := by
  obtain ⟨fl, e⟩ := h.flight
  rw [e]
  rfl

theorem agenda (h : s.Adds t d n) (m : List Sched) : s.Adds { t with agenda := m } d n :=
  ⟨h.dies, h.here, h.outer, h.ctxs, h.flight⟩

end State.Adds

theorem State.modCtx_adds (s : State) (d : DieId) (n : CtxId) (fl : List Flight) :
    s.Adds (s.modCtx d n fun x => { x with flight := x.flight ++ fl }) d n :=
  ⟨fun _ he => s.die_modDie_other _ (Ne.symm he), ⟨_, s.die_modDie d _⟩, ⟨rfl, rfl, rfl⟩,
    fun _ hk => s.ctx_modCtx_other _ (Or.inr hk), fl, s.ctx_modCtx d n _⟩

section landAt

variable (s : State) (d : DieId) (n : CtxId) (due slot ord bundle : Nat) (hnd : Bool) (l : Land)

theorem State.landAt_adds : s.Adds (s.landAt d n due slot ord bundle hnd l) d n := by
  unfold State.landAt
  dsimp only
  split
  · exact State.Adds.refl s d n
  · obtain ⟨m, hm, _⟩ := (s.modCtx d n fun x => { x with flight := x.flight ++ [
      { due := due, slot := slot, ord := ord, bundle := bundle, hnd := hnd, land := l }] }).schedOnce_eq due .resultLanding
      { die := d, ctx := n, flag := l.isFlags }
    rw [hm]
    exact (s.modCtx_adds d n _).agenda _

theorem State.mem_flight_landAt (h : (s.ctx d n).cutOff bundle = false) :
    { due := due, slot := slot, ord := ord, bundle := bundle, hnd := hnd, land := l }
      ∈ ((s.landAt d n due slot ord bundle hnd l).ctx d n).flight := by
  unfold State.landAt
  dsimp only
  rw [h, if_neg Bool.false_ne_true]
  obtain ⟨m, hm, _⟩ := (s.modCtx d n fun x => { x with flight := x.flight ++ [
    { due := due, slot := slot, ord := ord, bundle := bundle, hnd := hnd, land := l }] }).schedOnce_eq due .resultLanding
    { die := d, ctx := n, flag := l.isFlags }
  rw [hm]
  show _ ∈ ((s.modCtx d n _).ctx d n).flight
  rw [s.ctx_modCtx]
  exact List.mem_append_right _ (List.mem_singleton_self _)

end landAt

/-- A die replaced by one with the same contexts. -/
theorem State.ctx_setDie {s : State} {d : DieId} {y : Die} (h : y.ctxs = (s.die d).ctxs) (e : DieId) (m : CtxId) :
    (s.setDie d y).ctx e m = s.ctx e m := by
  unfold State.ctx Die.ctx
  by_cases he : d = e
  · subst he; rw [State.die_setDie, h]
  · rw [State.die_setDie_other s y he]

theorem State.setDie_setDie (s : State) (d : DieId) (x y : Die) : (s.setDie d x).setDie d y = s.setDie d y := by
  unfold State.setDie
  dsimp only
  rw [vset_vset]

end Sys2Proof.Machine
end

