-- ==== Sys2Proof/Proofs/BankAccesses.lean ====
section
/-! PROOFS. BANK_ACCESS_PERFORM of the scalar accesses (R111 to R116, R212). -/

namespace Sys2Proof.Machine

/-! ### The running step -/

section performing

variable (s : State) (a : Access)

/-- The die of the running step without an access. -/
def State.dieWithout : Die :=
  { s.die s.ev.die with accs := (s.die s.ev.die).accs.filter fun b => b.id != a.id }

/-- The state without an access of the die of the running step. -/
def State.without : State := s.setDie s.ev.die (s.dieWithout a)

/-- An access performs. -/
def State.perform (d : DieId) : State :=
  match a.kind with
  | .load t dst off => s.performLoad d a t dst off
  | .store _ _ _ | .routeStore _ _ => s.performStore d a
  | .amo op t dst off b c fmt => s.performAmo d a op t dst off b c fmt
  | .vload dst addr m t => s.performVload d a dst addr m t
  | .vstore _ v m t => s.performVstore d a v m t
  | .drain eng op _ => s.performDrain d a eng op

theorem State.exec_bankAccessPerform {s : State} {a : Access}
    (h : (s.die s.ev.die).accs.find? (fun b => b.id == s.ev.id) = some a) :
    exec .bankAccessPerform s = .next ((s.without a).perform a s.ev.die) := by
  show execBankAccessPerform s = _
  unfold execBankAccessPerform
  dsimp only
  rw [h]
  dsimp only
  unfold State.perform
  cases a.kind <;> rfl

@[simp] theorem State.die_without : (s.without a).die s.ev.die = s.dieWithout a := s.die_setDie _ _

theorem State.ctx_without (e : DieId) (m : CtxId) : (s.without a).ctx e m = s.ctx e m :=
  State.ctx_setDie (s := s) (y := s.dieWithout a) rfl e m

@[simp] theorem State.dieWithout_sees : (s.dieWithout a).sees a = (s.die s.ev.die).sees a := by
  funext y
  unfold Die.sees State.dieWithout
  rw [Die.pending_filter]
  rfl

end performing

/-- From `s` to `t` an access has performed: its context has results in flight, its die has the accesses of `l`. -/
structure State.Quiet (s t : State) (a : Access) (l : List Access) : Prop where
  dies : ∀ e, e ≠ s.ev.die → t.die e = s.die e
  mem : t.mem = s.mem
  panel : t.panel = s.panel
  ctxs : ∀ m, m ≠ a.ctx → t.ctx s.ev.die m = s.ctx s.ev.die m
  accs : (t.die s.ev.die).accs = l
  flight : ∃ fl, t.ctx s.ev.die a.ctx = { s.ctx s.ev.die a.ctx with flight := (s.ctx s.ev.die a.ctx).flight ++ fl }

/-- The accesses that stay, the bytes that an access has written being no longer seen of the older ones. -/
def Die.outdated (x : Die) (a : Access) (l : List Nat) : List Access :=
  (x.accs.filter fun b => b.id != a.id).map fun b => if b.before a then { b with dead := b.dead ++ l } else b

theorem Die.outdated_nil (x : Die) (a : Access) : x.outdated a [] = x.accs.filter fun b => b.id != a.id := by
  unfold Die.outdated
  refine (List.map_congr_left fun b _ => ?_).trans (List.map_id _)
  rw [List.append_nil]
  split <;> rfl

section quiet

variable {s t : State} {a : Access} {y : Die}

/-- The die of an access is replaced, with its contexts, and results come in flight. -/
theorem State.Adds.quiet (hc : y.ctxs = (s.die s.ev.die).ctxs) (h : (s.setDie s.ev.die y).Adds t s.ev.die a.ctx) :
    s.Quiet t a y.accs := by
  obtain ⟨c, hh⟩ := h.here
  obtain ⟨fl, hf⟩ := h.flight
  rw [State.ctx_setDie hc] at hf
  refine ⟨fun e he => (h.dies e he).trans (s.die_setDie_other y (Ne.symm he)), h.outer.1, h.outer.2.1,
    fun m hm => (h.ctxs m hm).trans (State.ctx_setDie hc _ _), ?_, fl, hf⟩
  rw [hh, s.die_setDie]

theorem State.sameBytes_setDie (hb : y.bank = (s.die s.ev.die).bank) (hf : y.folds = (s.die s.ev.die).folds) :
    s.SameBytes (s.setDie s.ev.die y) := by
  refine ⟨fun _ => rfl, fun e n => ?_⟩
  by_cases he : s.ev.die = e
  · subst he
    rw [s.die_setDie]
    exact Die.bankByte_congr hb hf n
  · rw [s.die_setDie_other y he]

/-- The result of an access is in flight, unless its context is being cut back. -/
def State.Flies (s t : State) (a : Access) (lat : Nat) (l : Land) : Prop :=
  (s.ctx s.ev.die a.ctx).cutOff a.bundle = false →
    { due := s.cycle + lat, slot := a.slot, ord := a.id, bundle := a.bundle, hnd := a.hnd, land := l }
      ∈ (t.ctx s.ev.die a.ctx).flight

theorem State.flies_landAt {u : State} (hc : ∀ b, (u.ctx s.ev.die a.ctx).cutOff b = (s.ctx s.ev.die a.ctx).cutOff b)
    (hy : u.cycle = s.cycle) (lat : Nat) (l : Land) :
    s.Flies (u.landAt s.ev.die a.ctx (u.cycle + lat) a.slot a.id a.bundle a.hnd l) a lat l := by
  intro h
  rw [hy]
  exact u.mem_flight_landAt _ _ _ _ _ _ _ _ ((hc _).trans h)

theorem State.Flies.later {u : State} {lat : Nat} {l : Land} (h : s.Flies t a lat l) (k : t.Adds u s.ev.die a.ctx) :
    s.Flies u a lat l := fun hc => k.mem_flight (h hc)

end quiet

/-! ### Loads -/

theorem State.performLoad_clean (s : State) (d : DieId) (a : Access) (t : Ty) (dst : Dst) (off : Word)
    (hb : (s.die d).bankBad = []) (ht : ∀ w, a.tag = some w → (s.die d).tagAt (a.win.byteAddr off 0) = w) :
    s.performLoad d a t dst off = (s.setDie d ((s.die d).use ((List.range (t.width / 8)).map fun k => a.win.byteAddr off k))).landAt
      d a.ctx (s.cycle + 1) a.slot a.id a.bundle a.hnd (.scalar dst (extend t (natOfBytes
        ((List.range (t.width / 8)).map fun k => (s.die d).sees a (a.win.byteAddr off k))))) := by
  unfold State.performLoad
  dsimp only
  rw [s.readFor_clean d a _ hb]
  dsimp only
  rw [if_neg, List.map_map]
  · rfl
  · cases htag : a.tag with
    | none => exact Bool.false_ne_true
    | some w =>
      rw [ht w htag]
      simp

/-- The bytes of the value that a load or an atomic reads. -/
theorem extractLsb'_natOfBytes_range {w n : Nat} (f : Nat → Byte) {k : Nat} (hk : k < n) (hw : 8 * n ≤ w) :
    (BitVec.ofNat w (natOfBytes ((List.range n).map f))).extractLsb' (8 * k) 8 = f k := by
  rw [extractLsb'_natOfBytes _ (by omega)]
  simp [List.getD, hk]

/-! ### Stores -/

/-- An access has written the bytes of `l`. -/
structure State.Puts (s t : State) (a : Access) (l : List (Nat × Byte)) : Prop where
  quiet : s.Quiet t a ((s.die s.ev.die).outdated a (l.map (·.1)))
  bytes : (∀ p ∈ l, p.1 < Config.foldBase) → ∀ y, y < Config.bankBytes →
    (t.die s.ev.die).bankByte y = lastWrite l y ((s.die s.ev.die).bankByte y)

/-- The die of an access once its bytes are written. -/
def Die.stored (x : Die) (a : Access) (l : List (Nat × Byte)) : Die := (x.setBytes l).outdate a (l.map (·.1))

section stores

variable {s t : State} {a : Access} {l : List (Nat × Byte)}

theorem Die.stored_parts (x : Die) (a : Access) (l : List (Nat × Byte)) : ∃ m f, x.stored a l = { x with
    bank := m, folds := f, accs := x.accs.map fun b => if b.before a then { b with dead := b.dead ++ l.map (·.1) } else b } := by
  obtain ⟨m, f, h⟩ := Die.setBytes_parts l x
  refine ⟨m, f, ?_⟩
  rw [Die.stored, h]
  rfl

/-- The bytes of an access are written, the die else as it was but for its ports, and results come in flight. -/
theorem State.Adds.puts (hw : (s.die s.ev.die).wf = true) (us : List (Nat × Nat))
    (h : (s.setDie s.ev.die { (s.dieWithout a).stored a l with used := us }).Adds t s.ev.die a.ctx) : s.Puts t a l := by
  obtain ⟨m, f, hp⟩ := (s.dieWithout a).stored_parts a l
  refine ⟨?_, fun hl y hy => ?_⟩
  · rw [hp] at h
    exact State.Adds.quiet (y := { s.dieWithout a with
      bank := m, folds := f, used := us, accs := (s.die s.ev.die).outdated a (l.map (·.1)) }) rfl h
  · have hw' : (s.dieWithout a).wf = true := (Die.wf_iff _).mpr ((Die.wf_iff _).mp hw)
    have hb := Die.bankByte_setBytes hw' l hl hy
    obtain ⟨c, hc⟩ := h.here
    rw [s.die_setDie] at hc
    rw [hc]
    exact hb

theorem State.performStore_clean (s : State) (d : DieId) (a : Access) (hb : (s.die d).bankBad = []) :
    s.performStore d a = s.setDie d (((s.die d).stored a a.writes).use (a.writes.map (·.1))) := by
  unfold State.performStore Die.stored State.modDie
  dsimp only
  rw [Die.bankWrite_clean hb]

/-- A store performs. -/
theorem State.performStore_puts (hw : (s.die s.ev.die).wf = true) (hb : (s.die s.ev.die).bankBad = []) (hl : a.writes = l) :
    s.Puts ((s.without a).performStore s.ev.die a) a l := by
  have hb' : ((s.without a).die s.ev.die).bankBad = [] := by rw [State.die_without]; exact hb
  rw [State.performStore_clean _ _ _ hb', hl, State.die_without, State.without, State.setDie_setDie]
  exact State.Adds.puts hw _ (State.Adds.refl _ _ _)

end stores

/-! ### The bytes of stores -/

/-- Lists over rows of equal length, in one list. -/
theorem flatMap_range_mul {α : Type} (m : Nat) (g : Nat → Nat → List α) : ∀ n,
    ((List.range n).flatMap fun p => (List.range m).flatMap (g p)) = (List.range (n * m)).flatMap fun k => g (k / m) (k % m)
  | 0 => by simp
  | n + 1 => by
    rw [List.range_succ, List.flatMap_append, flatMap_range_mul m g n, Nat.add_mul, Nat.one_mul, List.range_add,
      List.flatMap_append, List.flatMap_map]
    simp only [List.flatMap_cons, List.flatMap_nil, List.append_nil]
    congr 1
    refine List.flatMap_congr fun k hk => ?_
    have hk' : k < m := List.mem_range.mp hk
    rw [Nat.mul_comm n m, Nat.mul_add_div (by omega), Nat.div_eq_of_lt hk', Nat.mul_add_mod, Nat.mod_eq_of_lt hk', Nat.add_zero]

theorem flatMap_singleton {α β : Type} (f : α → β) (l : List α) : (l.flatMap fun x => [f x]) = l.map f := by
  induction l with
  | nil => rfl
  | cons x l ih => rw [List.flatMap_cons, ih]; rfl

/-- The bytes of some words. -/
theorem flatMap_bytesOfWord (l : List Word) : l.flatMap bytesOfWord
    = (List.range (l.length * 8)).map fun k => (l.getD (k / 8) 0).extractLsb' (8 * (k % 8)) 8 := by
  have hl : l = (List.range l.length).map fun p => l.getD p 0 :=
    list_eq_range l (fun p => l.getD p 0) l.length rfl fun p hp => by rw [List.getD_eq_getElem _ _ hp]
  have hw : ∀ w : Word, bytesOfWord w = (List.range 8).flatMap fun k => [w.extractLsb' (8 * k) 8] := fun w => by
    rw [bytesOfWord, bytesOfNat_eq, flatMap_singleton]
    simp only [ofNat_div_eq_extractLsb']
  rw [← flatMap_singleton (fun k => (l.getD (k / 8) 0).extractLsb' (8 * (k % 8)) 8) (List.range (l.length * 8)),
    ← flatMap_range_mul 8 (fun p k => [(l.getD p 0).extractLsb' (8 * k) 8])]
  conv => lhs; rw [hl, List.flatMap_map]
  simp only [hw]

theorem zip_range_map {α β : Type} (n : Nat) (f : Nat → α) (g : Nat → β) :
    (((List.range n).zip ((List.range n).map f)).map fun p => (g p.1, p.2)) = (List.range n).map fun k => (g k, f k) := by
  induction List.range n with
  | nil => rfl
  | cons k l ih => rw [List.map_cons, List.zip_cons_cons, List.map_cons, ih, List.map_cons]

theorem Access.writes_store {a : Access} {n : Nat} {off v : Word} (h : a.kind = .store n off v) :
    a.writes = (List.range n).map fun k => (a.win.byteAddr off k, v.extractLsb' (8 * k) 8) := by
  unfold Access.writes
  rw [h]
  simp only [ofNat_div_eq_extractLsb']

theorem Access.writes_routeStore {a : Access} {off : Word} {r : Route} (h : a.kind = .routeStore off r) :
    a.writes = (List.range 256).map fun k =>
      (a.win.byteAddr off k, ((fullBlock r).getD (k / 8) 0).extractLsb' (8 * (k % 8)) 8) := by
  have hlen : (fullBlock r).length = 32 := by simp [fullBlock]
  unfold Access.writes
  rw [h]
  dsimp only
  rw [flatMap_bytesOfWord, hlen, List.length_map, List.length_range]
  exact zip_range_map 256 _ _

/-! ### Atomics -/

section atomics

variable {t : Ty} {op : AmoOp} {fm : FmtCap}

/-- The types of atomics are 4 or 8 bytes. -/
theorem amo_width (h : t.isAmo = true ∨ t = .f32) : t.width = 32 ∨ t.width = 64 := by
  cases t <;> simp [Ty.isAmo, Ty.width] at h ⊢

/-- The aligned word of an offset. -/
theorem sub_mod_eq_and_not (off : Word) (k : Nat) :
    off - BitVec.ofNat 64 (off.toNat % 2 ^ k) = off &&& ~~~BitVec.ofNat 64 (2 ^ k - 1) := by
  have hlt := off.isLt
  have hle : off.toNat % 2 ^ k ≤ off.toNat := Nat.mod_le _ _
  have hval : off - BitVec.ofNat 64 (off.toNat % 2 ^ k) = BitVec.ofNat 64 (2 ^ k * (off.toNat / 2 ^ k)) := by
    apply BitVec.eq_of_toNat_eq
    have hd := Nat.div_add_mod off.toNat (2 ^ k)
    rw [BitVec.toNat_sub, BitVec.toNat_ofNat, BitVec.toNat_ofNat, Nat.mod_eq_of_lt (show off.toNat % 2 ^ k < 2 ^ 64 by omega),
      Nat.mod_eq_of_lt (show 2 ^ k * (off.toNat / 2 ^ k) < 2 ^ 64 by omega)]
    omega
  rw [hval]
  apply BitVec.eq_of_getLsbD_eq
  intro i hi
  rw [BitVec.getLsbD_and, BitVec.getLsbD_not, BitVec.getLsbD_ofNat, BitVec.getLsbD_ofNat, Nat.testBit_two_pow_sub_one,
    Nat.testBit_two_pow_mul, Nat.testBit_div_two_pow]
  by_cases h : i < k
  · simp [hi, h]
  · have h' : k ≤ i := Nat.le_of_not_lt h
    simp [hi, h, h', BitVec.getLsbD]

variable (o : BitVec t.width) (b c : Word)

theorem mod_two_pow_eq_iff_low (b : Word) : o.toNat % 2 ^ t.width = b.toNat % 2 ^ t.width ↔ o = Ty.low t b := by
  rw [← BitVec.toNat_inj, Ty.low, BitVec.toNat_setWidth, Nat.mod_eq_of_lt o.isLt]

theorem amoNew_add : BitVec.ofNat t.width (amoNew .add t fm o.toNat b.toNat c.toNat).1 = o + Ty.low t b := by
  show BitVec.ofNat t.width (lowBits t.width (intVal t o.toNat + intVal t b.toNat)) = _
  rw [lowBits_ofNat, intVal_toNat, intVal_low, BitVec.ofInt_add, ofInt_int, ofInt_int]

theorem amoNew_logic : BitVec.ofNat t.width (amoNew .and t fm o.toNat b.toNat c.toNat).1 = o &&& Ty.low t b
    ∧ BitVec.ofNat t.width (amoNew .or t fm o.toNat b.toNat c.toNat).1 = o ||| Ty.low t b
    ∧ BitVec.ofNat t.width (amoNew .xor t fm o.toNat b.toNat c.toNat).1 = o ^^^ Ty.low t b := by
  obtain ⟨a, rfl, ha⟩ := exists_low t o
  rw [← ha]
  exact ⟨intAnd_eq t a b, intOr_eq t a b, intXor_eq t a b⟩

theorem amoNew_swap : BitVec.ofNat t.width (amoNew .swap t fm o.toNat b.toNat c.toNat).1 = Ty.low t b := Ty.low_ofNat t b

theorem amoNew_cas : BitVec.ofNat t.width (amoNew .cas t fm o.toNat b.toNat c.toNat).1
    = if o = Ty.low t c then Ty.low t b else o := by
  show BitVec.ofNat t.width (if o.toNat % 2 ^ t.width = c.toNat % 2 ^ t.width then b.toNat % 2 ^ t.width
    else o.toNat % 2 ^ t.width) = _
  simp only [mod_two_pow_eq_iff_low]
  split
  · exact Ty.low_ofNat t b
  · simp

theorem amoNew_max : Ty.int t (BitVec.ofNat t.width (amoNew .max t fm o.toNat b.toNat c.toNat).1)
    = max (Ty.int t o) (Ty.int t (Ty.low t b)) := by
  obtain ⟨a, rfl, ha⟩ := exists_low t o
  rw [← ha, show (amoNew .max t fm a.toNat b.toNat c.toNat).1 = intMax t a.toNat b.toNat from rfl, intMax_eq]
  split
  · next h => rw [max_eq_right h]
  · next h => rw [max_eq_left (le_of_not_ge h)]

theorem amoNew_min : Ty.int t (BitVec.ofNat t.width (amoNew .min t fm o.toNat b.toNat c.toNat).1)
    = min (Ty.int t o) (Ty.int t (Ty.low t b)) := by
  obtain ⟨a, rfl, ha⟩ := exists_low t o
  rw [← ha, show (amoNew .min t fm a.toNat b.toNat c.toNat).1 = intMin t a.toNat b.toNat from rfl, intMin_eq]
  split
  · next h => rw [min_eq_left h]
  · next h => rw [min_eq_right (le_of_not_ge h)]

theorem amoNew_sadd : Reduced t true (Ty.int t o + Ty.int t (Ty.low t b))
    (BitVec.ofNat t.width (amoNew .sadd t fm o.toNat b.toNat c.toNat).1) (amoNew .sadd t fm o.toNat b.toNat c.toNat).2 := by
  rw [show amoNew .sadd t fm o.toNat b.toNat c.toNat = reduce t true (intVal t o.toNat + intVal t b.toNat) from rfl,
    intVal_toNat, intVal_low]
  exact reduce_spec t true _

end atomics

/-- An operand of a floating-point atomic. -/
def FmtCap.operand (fm : FmtCap) (v : Nat) : Val := operandF fmtF32 fm.flush v

theorem amoNew_float (fm : FmtCap) (o : BitVec 32) (b c : Nat) :
    amoNew .fadd .f32 fm o.toNat b c = roundRes .f32 fm (addVal fm.rnd (fm.operand o.toNat) (fm.operand (b % 2 ^ 32)))
    ∧ amoNew .fmax .f32 fm o.toNat b c = roundRes .f32 fm (maxMinVal true (fm.operand o.toNat) (fm.operand (b % 2 ^ 32)))
    ∧ amoNew .fmin .f32 fm o.toNat b c = roundRes .f32 fm (maxMinVal false (fm.operand o.toNat) (fm.operand (b % 2 ^ 32))) := by
  have ho : o.toNat % 2 ^ 32 = o.toNat := Nat.mod_eq_of_lt o.isLt
  have e : fm.operand o.toNat = operandF fmtF32 fm.flush (o.toNat % 2 ^ 32) := by rw [ho]; rfl
  rw [e]
  exact ⟨rfl, rfl, rfl⟩

/-- The bytes that an atomic writes. -/
def Access.amoBytes (a : Access) (w : Nat) (base : Word) (new : BitVec w) : List (Nat × Byte) :=
  (List.range (w / 8)).map fun k => (a.win.byteAddr base k, new.extractLsb' (8 * k) 8)

/-- The old word of an atomic. -/
def State.amoOld (s : State) (a : Access) (w : Nat) (base : Word) : BitVec w :=
  BitVec.ofNat w (natOfBytes ((List.range (w / 8)).map fun k => (s.die s.ev.die).sees a (a.win.byteAddr base k)))

section perform

variable {s : State} {a : Access} {op : AmoOp} {t : Ty} {dst : Dst} {off b c : Word} {fm : FmtCap}

theorem natOfBytes_lt : ∀ l : List Byte, natOfBytes l < 2 ^ (8 * l.length)
  | [] => by simp [natOfBytes]
  | x :: l => by
    have hx := x.isLt
    have ih := natOfBytes_lt l
    rw [List.length_cons, Nat.mul_add, Nat.pow_add]
    show x.toNat + 256 * natOfBytes l < _
    omega

theorem Die.setBytes_used (x : Die) (us : List (Nat × Nat)) (l : List (Nat × Byte)) :
    ({ x with used := us } : Die).setBytes l = { x.setBytes l with used := us } := by
  have one : ∀ (y : Die) (p : Nat × Byte), ({ y with used := us } : Die).setBankByte p.1 p.2
      = { y.setBankByte p.1 p.2 with used := us } := fun y p => by
    unfold Die.setBankByte
    dsimp only
    split <;> rfl
  induction l using List.reverseRecOn with
  | nil => rfl
  | append_singleton l p ih => rw [Die.setBytes_append, Die.setBytes_append, ih, one]

/-- The value of the bytes that an atomic reads. -/
theorem State.amoOld_toNat (s : State) (a : Access) {w : Nat} (hw : w / 8 * 8 = w) (base : Word) :
    (s.amoOld a w base).toNat
      = natOfBytes ((List.range (w / 8)).map fun k => (s.die s.ev.die).sees a (a.win.byteAddr base k)) := by
  have h := natOfBytes_lt ((List.range (w / 8)).map fun k => (s.die s.ev.die).sees a (a.win.byteAddr base k))
  rw [List.length_map, List.length_range, Nat.mul_comm, hw] at h
  rw [State.amoOld, BitVec.toNat_ofNat, Nat.mod_eq_of_lt h]

theorem Access.amoBytes_eq (a : Access) {w : Nat} (hw : w / 8 * 8 = w) (base : Word) (r : Nat) :
    ((List.range (w / 8)).map fun k => a.win.byteAddr base k).zip (bytesOfNat (w / 8) r)
      = a.amoBytes w base (BitVec.ofNat w r) := by
  rw [bytesOfNat_eq, List.zip_map', Access.amoBytes]
  refine List.map_congr_left fun k hk => ?_
  have hk' := List.mem_range.mp hk
  congr 1
  apply BitVec.eq_of_toNat_eq
  have hsplit : w = 8 * k + (8 + (w - (8 * k + 8))) := by omega
  rw [BitVec.toNat_ofNat, BitVec.extractLsb'_toNat, BitVec.toNat_ofNat, Nat.shiftRight_eq_div_pow]
  conv => rhs; rw [hsplit, Nat.pow_add, Nat.pow_add, Nat.mod_mul_right_div_self, Nat.mod_mul_right_mod]

theorem Die.use_bankWrite_outdate (x : Die) (hb : x.bankBad = []) (a : Access) (m : List Nat) (l : List (Nat × Byte)) :
    ((x.use m).bankWrite l).outdate a (l.map (·.1)) = { x.stored a l with used := (x.use m).used } := by
  rw [Die.bankWrite_clean (show (x.use m).bankBad = [] from hb), show x.use m = { x with used := (x.use m).used } from rfl]
  generalize (x.use m).used = us
  rw [Die.setBytes_used]
  rfl

/-- A local atomic performs: its bytes are written, and the old word and its flags come in flight. -/
theorem State.performAmo_spec (hw : (s.die s.ev.die).wf = true) (hb : (s.die s.ev.die).bankBad = [])
    (ht : t.isAmo = true ∨ t = .f32) : let base := off &&& ~~~BitVec.ofNat 64 (t.width / 8 - 1)
    let old := s.amoOld a t.width base
    let r := amoNew op t fm old.toNat b.toNat c.toNat
    let u := (s.without a).performAmo s.ev.die a op t dst off b c fm
    s.Puts u a (a.amoBytes t.width base (BitVec.ofNat t.width r.1)) ∧ s.Flies u a 2 (.scalar dst (Ty.ext t old))
      ∧ (r.2 ≠ 0 → s.Flies u a 2 (.flags r.2)) := by
  intro base old r u
  have hw8 : t.width / 8 * 8 = t.width := by rcases amo_width ht with h | h <;> rw [h]
  have hbase : off - BitVec.ofNat 64 (off.toNat % (t.width / 8)) = base := by
    unfold base
    rcases amo_width ht with h | h <;> rw [h]
    · exact sub_mod_eq_and_not off 2
    · exact sub_mod_eq_and_not off 3
  let as := (List.range (t.width / 8)).map fun k => a.win.byteAddr base k
  let l := a.amoBytes t.width base (BitVec.ofNat t.width r.1)
  have hread := (s.without a).readFor_clean s.ev.die a as (by rw [State.die_without]; exact hb)
  have hbytes : as.map (((s.without a).die s.ev.die).sees a)
      = (List.range (t.width / 8)).map fun k => (s.die s.ev.die).sees a (a.win.byteAddr base k) := by
    rw [State.die_without, State.dieWithout_sees, List.map_map]
    rfl
  have hold : natOfBytes (as.map (((s.without a).die s.ev.die).sees a)) = old.toNat := by
    rw [hbytes, s.amoOld_toNat a hw8]
  have hzip : as.zip (bytesOfNat (t.width / 8) r.1) = l := a.amoBytes_eq hw8 base r.1
  have has : as = l.map (·.1) := by
    unfold l Access.amoBytes
    rw [List.map_map]
    rfl
  let y : Die := { (s.dieWithout a).stored a l with used := ((s.dieWithout a).use as).used }
  have hwrite : ((s.without a).setDie s.ev.die (((s.without a).die s.ev.die).use as)).modDie s.ev.die
      (fun x => (x.bankWrite (as.zip (bytesOfNat (t.width / 8) r.1))).outdate a as) = s.setDie s.ev.die y := by
    have hy : (((s.dieWithout a).use as).bankWrite l).outdate a as = y := by
      have h := (s.dieWithout a).use_bankWrite_outdate hb a as l
      rw [← has] at h
      exact h
    rw [hzip, State.die_without, State.modDie, State.die_setDie, State.without, State.setDie_setDie, State.setDie_setDie, hy]
  let v := (s.setDie s.ev.die y).landAt s.ev.die a.ctx ((s.setDie s.ev.die y).cycle + 2) a.slot a.id a.bundle a.hnd
    (.scalar dst (extend t old.toNat))
  have hv : (s.setDie s.ev.die y).Adds v s.ev.die a.ctx := State.landAt_adds ..
  have hu : u = if r.2 = 0 then v else v.landAt s.ev.die a.ctx (v.cycle + 2) a.slot a.id a.bundle a.hnd (.flags r.2) := by
    show (s.without a).performAmo s.ev.die a op t dst off b c fm = _
    unfold State.performAmo
    dsimp only
    rw [hbase, hread]
    dsimp only
    rw [hold, hwrite]
  have huv : v.Adds u s.ev.die a.ctx := by
    rw [hu]
    split
    · exact State.Adds.refl _ _ _
    · exact State.landAt_adds ..
  have hcut : ∀ n, ((s.setDie s.ev.die y).ctx s.ev.die a.ctx).cutOff n = (s.ctx s.ev.die a.ctx).cutOff n := fun n => by
    rw [State.ctx_setDie]
    obtain ⟨m, f, h⟩ := (s.dieWithout a).stored_parts a l
    unfold y
    rw [h]
    rfl
  have hext : extend t old.toNat = Ty.ext t old := by
    rw [extend_eq, BitVec.ofNat_toNat, BitVec.setWidth_eq]
  refine ⟨State.Adds.puts hw _ (hv.trans huv), ?_, fun hf => ?_⟩
  · rw [← hext]
    exact (State.flies_landAt hcut rfl 2 _).later huv
  · rw [hu, if_neg hf]
    exact State.flies_landAt (fun n => (hv.cutOff n).trans (hcut n)) hv.outer.2.2 2 _

end perform

end Sys2Proof.Machine
end

