-- ==== Sys2Proof/Proofs/VectorAccesses.lean ====
section
/-! PROOFS. BANK_ACCESS_PERFORM of the vector accesses, far groups and the schedule fault (R129 to R131, R206, R241 to
R243). -/

namespace Sys2Proof.Machine

/-! ### The schedule fault -/

/-- From `s` to `t` an access is gone and nothing else of the dies has changed but its context. -/
structure State.Faulted (s t : State) (a : Access) : Prop where
  dies : ∀ e, e ≠ s.ev.die → t.die e = s.die e
  mem : t.mem = s.mem
  panel : t.panel = s.panel
  ctxs : ∀ m, m ≠ a.ctx → t.ctx s.ev.die m = s.ctx s.ev.die m
  accs : (t.die s.ev.die).accs = (s.die s.ev.die).accs.filter fun b => b.id != a.id
  bytes : s.SameBytes t

/-- The information of a schedule fault (R130). -/
def schedInfo (addr : Nat) (vec : Bool) (found want : BitVec 8) : Word :=
  BitVec.ofNat 64 (field addr 32 27 + 131072 * vec.toNat + field found.toNat 8 8 + want.toNat)

theorem schedInfo_fields (addr : Nat) (vec : Bool) (found want : BitVec 8) : let i := schedInfo addr vec found want
    i.extractLsb' 0 8 = want ∧ i.extractLsb' 8 8 = found ∧ i.extractLsb' 16 1 = 0 ∧ i.getLsbD 17 = vec
      ∧ i.extractLsb' 32 27 = BitVec.ofNat 27 addr := by
  have hf := found.isLt
  have hw := want.isLt
  have hv : vec.toNat < 2 := vec.toNat_lt
  intro i
  unfold i schedInfo field
  refine ⟨field_ofNat_eq ?_, field_ofNat_eq ?_, field_ofNat_eq ?_, ?_, field_ofNat_eq ?_⟩
  · omega
  · omega
  · rw [show (0 : BitVec 1).toNat = 0 from rfl]
    omega
  · rw [BitVec.getLsbD_ofNat, Nat.testBit_eq_decide_div_mod_eq]
    have hbit : (addr % 2 ^ 27 * 2 ^ 32 + 131072 * vec.toNat + found.toNat % 2 ^ 8 * 2 ^ 8 + want.toNat) / 2 ^ 17 % 2
        = vec.toNat := by omega
    rw [hbit]
    cases vec <;> rfl
  · rw [BitVec.toNat_ofNat]
    omega

/-- The state of an access about to fault: the access is gone, and its die has the contexts, accesses, bytes and tags that
it had. -/
structure State.Gone (s u : State) (a : Access) : Prop where
  eq : ∃ y, u = s.setDie s.ev.die y ∧ y.ctxs = (s.die s.ev.die).ctxs ∧ y.bank = (s.die s.ev.die).bank
    ∧ y.folds = (s.die s.ev.die).folds ∧ y.accs = (s.die s.ev.die).accs.filter fun b => b.id != a.id

section gone

variable {s u : State} {a : Access}

theorem State.Gone.ctx (h : s.Gone u a) (e : DieId) (m : CtxId) : u.ctx e m = s.ctx e m := by
  obtain ⟨y, rfl, hc, _⟩ := h.eq
  exact State.ctx_setDie hc e m

theorem State.Gone.faulted (h : s.Gone u a) : s.Faulted u a := by
  obtain ⟨y, rfl, hc, hb, hf, ha⟩ := h.eq
  exact ⟨fun e he => s.die_setDie_other y (Ne.symm he), rfl, rfl, fun m _ => State.ctx_setDie hc _ _,
    by rw [s.die_setDie]; exact ha, State.sameBytes_setDie hb hf⟩

/-- A change of the context of the access, and of the bundle in progress. -/
theorem State.Gone.faulted_modCtx (h : s.Gone u a) (i : Issue) (f : Ctx → Ctx) :
    s.Faulted (({ u with iss := i } : State).modCtx s.ev.die a.ctx f) a := by
  obtain ⟨hd, hm, hp, hc, ha, hb⟩ := h.faulted
  have hdies := ({ u with iss := i } : State).dies_modCtx s.ev.die s.ev.die a.ctx f
  refine ⟨fun e he => (State.die_modDie_other _ _ (Ne.symm he)).trans (hd e he), hm, hp,
    fun m hm => (State.ctx_modCtx_other _ _ (Or.inr hm)).trans (hc m hm), ?_,
    hb.trans (State.sameBytes_modCtx { u with iss := i } _ _ _)⟩
  exact (congrArg Die.accs hdies).trans ha

theorem State.schedFault_recorded (d : DieId) (addr : Nat) (vec : Bool) (found want : BitVec 8)
    (hp : (u.ctx d a.ctx).priv = true) (hh : a.hnd = false) : u.schedFault d a addr vec found want
      = u.modCtx d a.ctx fun c => { c with trapCause := c.trapCause ||| 0x2000000 } := by
  unfold State.schedFault
  dsimp only
  rw [hp, hh]
  rfl

theorem State.schedFault_free (d : DieId) (addr : Nat) (vec : Bool) (found want : BitVec 8)
    (hp : (u.ctx d a.ctx).priv = false) (hs : (u.ctx d a.ctx).st = .free) : u.schedFault d a addr vec found want = u := by
  unfold State.schedFault
  dsimp only
  rw [hp, hs]
  rfl

theorem State.schedFault_trap (d : DieId) (addr : Nat) (vec : Bool) (found want : BitVec 8)
    (hp : (u.ctx d a.ctx).priv = false) (hs : (u.ctx d a.ctx).st = .ready ∨ (u.ctx d a.ctx).st = .running
      ∨ (u.ctx d a.ctx).st = .blocked ∨ (u.ctx d a.ctx).st = .held) : u.schedFault d a addr vec found want
      = u.takeTrap d a.ctx { cause := 8, addr := a.pc, resume := (u.ctx d a.ctx).task.pc
                             info := schedInfo addr vec found want } := by
  have hf : ((u.ctx d a.ctx).st == .free) = false ∧ ((u.ctx d a.ctx).st == .ending) = false := by
    rcases hs with h | h | h | h <;> rw [h] <;> exact ⟨rfl, rfl⟩
  unfold State.schedFault
  dsimp only
  rw [hp, hf.1, hf.2, if_neg (by simp), if_neg (by simp)]
  rfl

end gone

/-- What a schedule fault leaves, by the state of its context. -/
structure State.FaultTaken (s t : State) (a : Access) (w : BitVec 8) (found : BitVec 8) (vec : Bool) (y : Nat) : Prop where
  recorded : (s.ctx s.ev.die a.ctx).priv = true → a.hnd = false → s.Faulted t a ∧ t.ctx s.ev.die a.ctx
    = { s.ctx s.ev.die a.ctx with trapCause := (s.ctx s.ev.die a.ctx).trapCause ||| 0x2000000 }
  free : (s.ctx s.ev.die a.ctx).priv = false → (s.ctx s.ev.die a.ctx).st = .free →
    s.Faulted t a ∧ t.ctx s.ev.die a.ctx = s.ctx s.ev.die a.ctx
  trap : (s.ctx s.ev.die a.ctx).priv = false → 4 ≤ (s.ctx s.ev.die a.ctx).trapVec.toNat →
    (s.ctx s.ev.die a.ctx).st = .ready ∨ (s.ctx s.ev.die a.ctx).st = .running ∨ (s.ctx s.ev.die a.ctx).st = .blocked
      ∨ (s.ctx s.ev.die a.ctx).st = .held → s.Faulted t a ∧ ∃ late, t.ctx s.ev.die a.ctx
    = ((s.ctx s.ev.die a.ctx).record { cause := 8, addr := a.pc, resume := (s.ctx s.ev.die a.ctx).task.pc
                                       info := schedInfo y vec found w } 8).enterHandler
        ((s.ctx s.ev.die a.ctx).trapVec &&& ~~~3) late

theorem trapWord_schedFault (addr resume info : Word) :
    TrapRec.word { cause := 8, addr := addr, resume := resume, info := info } = 8 := by
  simp [TrapRec.word, field]

theorem State.Gone.schedFault {s u : State} {a : Access} (h : s.Gone u a) (addr : Nat) (vec : Bool) (found want : BitVec 8) :
    s.FaultTaken (u.schedFault s.ev.die a addr vec found want) a want found vec addr := by
  refine ⟨fun hp hh => ?_, fun hp hs => ?_, fun hp hv hs => ?_⟩
  · rw [State.schedFault_recorded _ _ _ _ _ (by rw [h.ctx]; exact hp) hh]
    exact ⟨h.faulted_modCtx u.iss _, by rw [State.ctx_modCtx, h.ctx]⟩
  · rw [State.schedFault_free _ _ _ _ _ (by rw [h.ctx]; exact hp) (by rw [h.ctx]; exact hs)]
    exact ⟨h.faulted, h.ctx _ _⟩
  · rw [State.schedFault_trap _ _ _ _ _ (by rw [h.ctx]; exact hp) (by rw [h.ctx]; exact hs),
      State.takeTrap_handled _ _ _ _ (by rw [h.ctx]; exact hp) (by rw [h.ctx]; exact hv), State.dropBundle_iss,
      trapWord_schedFault, h.ctx]
    refine ⟨h.faulted_modCtx _ _, max (u.cycle + 3) (u.drainDue s.ev.die a.ctx + 1), ?_⟩
    rw [State.ctx_modCtx]
    generalize max (u.cycle + 3) (u.drainDue s.ev.die a.ctx + 1) = late
    have hc : ({ u with iss := (u.dropBundle s.ev.die a.ctx).iss } : State).ctx s.ev.die a.ctx = s.ctx s.ev.die a.ctx := h.ctx _ _
    rw [hc]

/-- A scalar load whose tile's tag differs. -/
theorem State.performLoad_mistagged (s : State) (d : DieId) (a : Access) (t : Ty) (dst : Dst) (off : Word)
    (hb : (s.die d).bankBad = []) {w : BitVec 8} (ha : a.tag = some w) (ht : (s.die d).tagAt (a.win.byteAddr off 0) ≠ w) :
    s.performLoad d a t dst off = (s.setDie d ((s.die d).use ((List.range (t.width / 8)).map fun k => a.win.byteAddr off k))).schedFault
      d a (a.win.byteAddr off 0) false ((s.die d).tagAt (a.win.byteAddr off 0)) w := by
  unfold State.performLoad
  dsimp only
  rw [s.readFor_clean d a _ hb]
  dsimp only
  rw [ha, if_pos (by simp [Ne.symm ht])]
  rfl

/-! ### Vector loads -/

/-- The bank address of a half of a vector access's word (R241). -/
def Access.half (a : Access) (v : VAddr) (p : Nat) : Nat := a.win.byteAddr (v.wordOff (p / 2)) 0 + 4 * (p % 2)

theorem Window.byteAddr_zero (w : Window) (off : Word) : w.byteAddr off 0 = w.addr off := by
  simp [Window.byteAddr]

theorem Setting.isFar_eq (t : Setting) (g : Nat) : t.isFar g = t.far.getLsbD g := by
  rw [Setting.isFar, natBit_eq, BitVec.testBit_toNat]

/-- What a near position takes its bytes from. -/
theorem vecAddrs_eq (a : Access) (v : VAddr) (t : Setting) : vecAddrs a.win v t = (List.range 256).map fun p =>
    if t.far.getLsbD (p / 16) then none else some (a.half v p) := by
  unfold vecAddrs Access.half
  simp only [Setting.isFar_eq, Window.byteAddr_zero]

/-- The die of a vector load once its banks and links are read. -/
def Die.vread (x : Die) (cycle : Nat) (t : Setting) (as : List Nat) : Die := (x.takeFar cycle t).use as

theorem Die.vread_parts (x : Die) (cycle : Nat) (t : Setting) (as : List Nat) :
    ∃ i st us, x.vread cycle t as = { x with farIn := i, stat := st, used := us } := ⟨_, _, _, rfl⟩

section vload

variable (s : State) (d : DieId) (a : Access) (dst : Dst) (v : VAddr) (m : Mask) (t : Setting)

/-- The bytes that a vector load reads. -/
def Access.vreads (a : Access) (v : VAddr) (t : Setting) : List Nat :=
  (vecAddrs a.win v t).flatMap fun p => match p with
    | some q => (List.range 4).map fun k => q + k
    | none => []

/-- The lanes that come into a vector load's network. -/
def State.vlanes : List Nat := (vecAddrs a.win v t).mapIdx fun i p => s.laneAt d a i p

theorem State.performVload_clean (hb : (s.die d).bankBad = []) : s.performVload d a dst v m t =
    match a.tag.bind fun w => ((vecAddrs a.win v t).filterMap id).find? fun q => (s.die d).tagAt q != w with
    | some q => (s.setDie d ((s.die d).vread s.cycle t (a.vreads v t))).schedFault d a (q / 8 * 8) true ((s.die d).tagAt q)
        (a.tag.getD 0)
    | none => (s.setDie d ((s.die d).vread s.cycle t (a.vreads v t))).landAt d a.ctx (s.cycle + 4) a.slot a.id a.bundle a.hnd
        (.vector dst (ofLanes (traverse t.bits (s.vlanes d a v t))) m) := by
  have hread := (s.setDie d ((s.die d).takeFar s.cycle t)).readFor_clean d a (a.vreads v t) (by rw [s.die_setDie]; exact hb)
  rw [s.die_setDie, State.setDie_setDie] at hread
  unfold State.performVload
  dsimp only
  generalize hr : (s.setDie d ((s.die d).takeFar s.cycle t)).readFor d a _ = r
  rw [hr.symm.trans hread]
  rfl

theorem State.vlanes_length : (s.vlanes d a v t).length = 256 := by
  rw [State.vlanes, List.length_mapIdx, vecAddrs, List.length_map, List.length_range]

theorem State.vlanes_getD {p : Nat} (hp : p < 256) : (s.vlanes d a v t).getD p 0
    = s.laneAt d a p (if t.far.getLsbD (p / 16) then none else some (a.half v p)) := by
  rw [List.getD_eq_getElem _ _ (by rw [State.vlanes_length]; exact hp)]
  simp [State.vlanes, vecAddrs_eq]

/-- A byte of a near lane. -/
theorem State.vlanes_near {p k : Nat} (hp : p < 256) (hn : t.far.getLsbD (p / 16) = false) (hk : k < 4) :
    BitVec.ofNat 8 ((s.vlanes d a v t).getD p 0 / 2 ^ (8 * k)) = (s.die d).sees a (a.half v p + k) := by
  rw [State.vlanes_getD _ _ _ _ _ hp, hn, if_neg Bool.false_ne_true]
  unfold State.laneAt
  dsimp only
  rw [overlay_map]
  apply BitVec.eq_of_toNat_eq
  rw [BitVec.toNat_ofNat, natOfBytes_byte, List.map_map]
  simp [List.getD, hk, Die.sees]

/-- A far lane. -/
theorem State.vlanes_far {p : Nat} (hp : p < 256) (hn : t.far.getLsbD (p / 16) = true) : (s.vlanes d a v t).getD p 0
    = match (s.die d).farIn.find? fun e => e.group.val == p / 16 && e.cycle == s.cycle with
      | some e => (e.data.extractLsb' (32 * (p % 16)) 32).toNat
      | none => 0 := by
  rw [State.vlanes_getD _ _ _ _ _ hp, hn, if_pos rfl]
  unfold State.laneAt Die.farData
  dsimp only
  cases (s.die d).farIn.find? fun e => e.group.val == p / 16 && e.cycle == s.cycle with
  | none => simp
  | some e =>
    rw [Option.map_some, Option.getD_some]
    dsimp only
    rw [BitVec.extractLsb'_toNat, Nat.shiftRight_eq_div_pow]

/-- The near half whose tag differs first. -/
theorem find_half {x : Die} {w : BitVec 8} :
    (∀ q, ((vecAddrs a.win v t).filterMap id).find? (fun q => x.tagAt q != w) = some q →
      ∃ p, (p < 256 ∧ t.far.getLsbD (p / 16) = false) ∧ q = a.half v p ∧ x.tagAt (a.half v p) ≠ w)
    ∧ (((vecAddrs a.win v t).filterMap id).find? (fun q => x.tagAt q != w) = none →
      ∀ p, p < 256 ∧ t.far.getLsbD (p / 16) = false → x.tagAt (a.half v p) = w) := by
  have hmem : ∀ q, q ∈ (vecAddrs a.win v t).filterMap id ↔
      ∃ p, (p < 256 ∧ t.far.getLsbD (p / 16) = false) ∧ q = a.half v p := by
    intro q
    rw [vecAddrs_eq, List.filterMap_map, List.mem_filterMap]
    refine exists_congr fun p => ?_
    rw [List.mem_range, and_assoc, Function.comp_apply]
    refine and_congr_right fun _ => ?_
    cases t.far.getLsbD (p / 16) <;> simp [eq_comm]
  refine ⟨fun q h => ?_, fun h p hp => ?_⟩
  · obtain ⟨p, hp, rfl⟩ := (hmem q).mp (List.mem_of_find?_eq_some h)
    exact ⟨p, hp, rfl, by simpa using List.find?_some h⟩
  · simpa using List.find?_eq_none.mp h _ ((hmem _).mpr ⟨p, hp, rfl⟩)

end vload

/-! ### Vector stores -/

/-- The bytes that a vector store writes. -/
theorem Access.writes_vstore {a : Access} {v : VAddr} {data : VReg} {m : Mask} {t : Setting}
    (h : a.kind = .vstore v data m t) : let out := traverse t.bits (lanes data)
    let en := traverse t.bits ((maskBits m).map Bool.toNat)
    a.writes = (List.range 1024).flatMap fun k => if en.getD (k / 4) 0 ≠ 0 ∧ t.far.getLsbD (k / 64) = false
      then [(a.half v (k / 4) + k % 4, BitVec.ofNat 8 (out.getD (k / 4) 0 / 2 ^ (8 * (k % 4))))] else [] := by
  intro out en
  have hrow : ∀ p, (if en.getD p 0 = 0 || t.far.getLsbD (p / 16) then [] else (List.range 4).map fun k =>
        (a.half v p + k, BitVec.ofNat 8 (out.getD p 0 / 2 ^ (8 * k))))
      = (List.range 4).flatMap fun k => if en.getD p 0 ≠ 0 ∧ t.far.getLsbD (p / 16) = false
        then [(a.half v p + k, BitVec.ofNat 8 (out.getD p 0 / 2 ^ (8 * k)))] else [] := by
    intro p
    generalize en.getD p 0 = z
    by_cases h0 : z = 0
    · simp [h0]
    · cases t.far.getLsbD (p / 16) <;> simp [h0, ← flatMap_singleton]
  have hw : a.writes = (List.range 256).flatMap fun p => if en.getD p 0 = 0 || t.far.getLsbD (p / 16) then []
      else (List.range 4).map fun k => (a.half v p + k, BitVec.ofNat 8 (out.getD p 0 / 2 ^ (8 * k))) := by
    unfold Access.writes
    rw [h]
    unfold vecWrites Access.half
    simp only [Setting.isFar_eq, Window.byteAddr_zero]
    rfl
  rw [hw]
  simp only [hrow]
  rw [flatMap_range_mul 4 fun p k => if en.getD p 0 ≠ 0 ∧ t.far.getLsbD (p / 16) = false
        then [(a.half v p + k, BitVec.ofNat 8 (out.getD p 0 / 2 ^ (8 * k)))] else []]
  refine List.flatMap_congr fun k _ => ?_
  rw [show k / 4 / 16 = k / 64 from by omega]

/-- The bytes that a vector store writes through no setting. -/
theorem Access.writes_vstore_identity {a : Access} {v : VAddr} {data : VReg} {m : Mask} (h : a.kind = .vstore v data m {}) :
    a.writes = (List.range 1024).flatMap fun k => if m.getLsbD (k / 4)
      then [(a.win.byteAddr (v.wordOff (k / 8)) 0 + k % 8, data.extractLsb' (8 * k) 8)] else [] := by
  rw [Access.writes_vstore h]
  refine List.flatMap_congr fun k hk => ?_
  have hk' := List.mem_range.mp hk
  have hp : k / 4 < 256 := by omega
  have hen : (traverse 0 ((maskBits m).map Bool.toNat)).getD (k / 4) 0 = (m.getLsbD (k / 4)).toNat := by
    rw [traverse, if_pos rfl, maskBits_eq_map_range, List.map_map]
    simp [List.getD, hp]
  have haddr : a.half v (k / 4) + k % 4 = a.win.byteAddr (v.wordOff (k / 8)) 0 + k % 8 := by
    rw [Access.half, show k / 4 / 2 = k / 8 from by omega]
    omega
  have hval : BitVec.ofNat 8 ((traverse 0 (lanes data)).getD (k / 4) 0 / 2 ^ (8 * (k % 4))) = data.extractLsb' (8 * k) 8 := by
    rw [traverse, if_pos rfl, lanes, elems_getD _ _ _ hp, ofNat_div_eq_extractLsb', elem]
    apply BitVec.eq_of_getLsbD_eq
    intro i hi
    have hsum : 32 * (k / 4) + (8 * (k % 4) + i) = 8 * k + i := by omega
    have hlt : 8 * (k % 4) + i < 32 := by omega
    simp [hi, hsum, hlt]
  show (if (traverse 0 ((maskBits m).map Bool.toNat)).getD (k / 4) 0 ≠ 0 ∧ (0 : BitVec 16).getLsbD (k / 64) = false then
    [(a.half v (k / 4) + k % 4, BitVec.ofNat 8 ((traverse 0 (lanes data)).getD (k / 4) 0 / 2 ^ (8 * (k % 4))))] else []) = _
  rw [hen, haddr, hval]
  cases m.getLsbD (k / 4) <;> simp

/-! ### Far groups of a store -/

/-- The entry of the agenda that a far group of a store goes out in (R206). -/
def State.farEntry (s : State) (d p : DieId) (data : VReg) (m : Mask) (t : Setting) (g : Nat) : Sched :=
  { due := s.cycle + ((s.die d).stat.farLat[Fin.ofNat 4 (g / 4)]).toNat, act := .farGroupArrival
    arg := { die := p, link := Fin.ofNat 4 (g / 4 + 2), grp := Fin.ofNat 16 (Nat.xor g 8), group := (farOut data m t g).1
             groupEn := (farOut data m t g).2 } }

/-- From `s` to `u` the far groups of a store in `l` have gone out, or are counted as dropped. -/
structure State.FarSent (s u : State) (d : DieId) (data : VReg) (m : Mask) (t : Setting) (l : List Nat) : Prop where
  frame : ∃ ag k, u = { s with
    agenda := ag, dies := vset s.dies d { s.die d with stat := { (s.die d).stat with farDrops := k } } }
  sent : ∀ g ∈ l, t.far.getLsbD g = true → s.panel.locked = true → ∀ p, peerOf d (g / 4) = some p →
    (s.die d).stat.farLat[Fin.ofNat 4 (g / 4)] ≠ 0 → s.farEntry d p data m t g ∈ u.agenda

/-- One far group of a store. -/
def State.sendGroup (s : State) (d : DieId) (data : VReg) (m : Mask) (t : Setting) (g : Nat) : State :=
  if t.isFar g then
    let lat := ((s.die d).stat.farLat[Fin.ofNat 4 (g / 4)]).toNat
    match (if lat = 0 || !s.panel.locked then none else peerOf d (g / 4)) with
    | some p =>
      let e := farOut data m t g
      s.sched (s.cycle + lat) .farGroupArrival
        { die := p, link := Fin.ofNat 4 (g / 4 + 2), grp := Fin.ofNat 16 (Nat.xor g 8), group := e.1, groupEn := e.2 }
    | none =>
      if (peerOf d (g / 4)).isSome && lat ≠ 0 then s
      else s.modDie d fun x => { x with stat := { x.stat with farDrops := satInc x.stat.farDrops } }
  else s

theorem State.sendFar_eq (s : State) (d : DieId) (data : VReg) (m : Mask) (t : Setting) :
    s.sendFar d data m t = (List.range 16).foldl (fun u g => u.sendGroup d data m t g) s := rfl

section far

variable {s u : State} {d : DieId} {data : VReg} {m : Mask} {t : Setting} {l : List Nat}

theorem State.FarSent.refl (s : State) : s.FarSent s d data m t [] := by
  refine ⟨⟨s.agenda, (s.die d).stat.farDrops, ?_⟩, fun g h => absurd h List.not_mem_nil⟩
  have hv : vset s.dies d (s.die d) = s.dies := vset_self s.dies d
  show s = { s with dies := vset s.dies d (s.die d) }
  rw [hv]

theorem State.FarSent.die (h : s.FarSent u d data m t l) : ∃ k, u.die d = { s.die d with
    stat := { (s.die d).stat with farDrops := k } } := by
  obtain ⟨ag, k, rfl⟩ := h.frame
  exact ⟨k, vset_same _ _ _⟩

theorem State.FarSent.drop_frame (h : s.FarSent u d data m t l) :
    ∃ ag k, (u.modDie d fun x => { x with stat := { x.stat with farDrops := satInc x.stat.farDrops } }) = { s with
      agenda := ag, dies := vset s.dies d { s.die d with stat := { (s.die d).stat with farDrops := k } } } := by
  obtain ⟨k, hk⟩ := h.die
  obtain ⟨ag, k', hu⟩ := h.frame
  refine ⟨ag, satInc k, ?_⟩
  unfold State.modDie
  rw [hk, hu]
  unfold State.setDie
  dsimp only
  rw [vset_vset]

/-- What is on the agenda stays there when a group goes out. -/
theorem State.FarSent.step (h : s.FarSent u d data m t l) (g : Nat) : s.FarSent (u.sendGroup d data m t g) d data m t (l ++ [g]) := by
  obtain ⟨ag, k, hu⟩ := h.frame
  have hlat : (u.die d).stat.farLat = (s.die d).stat.farLat := by
    obtain ⟨k', hk⟩ := h.die
    rw [hk]
  have hcyc : u.cycle = s.cycle := by rw [hu]
  have hlock : u.panel.locked = s.panel.locked := by rw [hu]
  have keep : ∀ w : State, (∃ ag k, w = { s with
        agenda := ag, dies := vset s.dies d { s.die d with stat := { (s.die d).stat with farDrops := k } } }) →
      (∀ e ∈ u.agenda, e ∈ w.agenda) → (t.far.getLsbD g = true → s.panel.locked = true → ∀ p, peerOf d (g / 4) = some p →
        (s.die d).stat.farLat[Fin.ofNat 4 (g / 4)] ≠ 0 → s.farEntry d p data m t g ∈ w.agenda) →
      s.FarSent w d data m t (l ++ [g]) := by
    intro w hw hsub hg
    refine ⟨hw, fun g' hg' => ?_⟩
    rcases List.mem_append.mp hg' with hl | hl
    · exact fun h1 h2 p h3 h4 => hsub _ (h.sent g' hl h1 h2 p h3 h4)
    · rw [List.mem_singleton.mp hl]
      exact hg
  unfold State.sendGroup
  by_cases hf : t.isFar g = true
  · have hf' := hf
    rw [Setting.isFar_eq] at hf'
    rw [if_pos hf]
    dsimp only
    rw [hlat, hlock, hcyc]
    by_cases hc : ((s.die d).stat.farLat[Fin.ofNat 4 (g / 4)].toNat = 0 || !s.panel.locked) = true
    · rw [if_pos hc]
      have hvac : t.far.getLsbD g = true → s.panel.locked = true → ∀ p, peerOf d (g / 4) = some p →
          (s.die d).stat.farLat[Fin.ofNat 4 (g / 4)] ≠ 0 → ∀ w : State, s.farEntry d p data m t g ∈ w.agenda :=
        fun _ h2 p _ h4 w => by
          have h4' : (s.die d).stat.farLat[Fin.ofNat 4 (g / 4)].toNat ≠ 0 := fun e => h4 (BitVec.eq_of_toNat_eq e)
          rw [h2, decide_eq_false h4'] at hc
          exact absurd hc (by decide)
      dsimp only
      split
      · exact keep u ⟨ag, k, hu⟩ (fun _ he => he) fun h1 h2 p h3 h4 => hvac h1 h2 p h3 h4 u
      · exact keep _ h.drop_frame (fun _ he => he) fun h1 h2 p h3 h4 => hvac h1 h2 p h3 h4 _
    · rw [if_neg hc]
      cases hp : peerOf d (g / 4) with
      | some p =>
        refine keep _ ⟨ag ++ [s.farEntry d p data m t g], k, by rw [hu]; rfl⟩ (fun e he => List.mem_append_left _ he)
          fun _ _ p' h3 _ => ?_
        rw [hp] at h3
        rw [← Option.some.inj h3]
        exact List.mem_append_right _ (List.mem_singleton_self _)
      | none =>
        dsimp only
        split
        · exact keep u ⟨ag, k, hu⟩ (fun _ he => he) fun _ _ p h3 => by rw [hp] at h3; cases h3
        · exact keep _ h.drop_frame (fun _ he => he) fun _ _ p h3 => by rw [hp] at h3; cases h3
  · rw [if_neg hf]
    refine keep u ⟨ag, k, hu⟩ (fun _ he => he) fun h1 => ?_
    rw [Setting.isFar_eq] at hf
    exact absurd h1 hf

/-- The far groups of a store go out. -/
theorem State.sendFar_sent (s : State) (d : DieId) (data : VReg) (m : Mask) (t : Setting) :
    s.FarSent (s.sendFar d data m t) d data m t (List.range 16) := by
  rw [State.sendFar_eq]
  have h : ∀ n, s.FarSent ((List.range n).foldl (fun u g => u.sendGroup d data m t g) s) d data m t (List.range n) := by
    intro n
    induction n with
    | zero => exact State.FarSent.refl s
    | succ n ih =>
      rw [List.range_succ, List.foldl_append]
      exact ih.step n
  exact h 16

/-- Sending the far groups leaves what the store has written. -/
theorem State.FarSent.puts {s₀ : State} {a : Access} {b : List (Nat × Byte)} (h : s.FarSent u s₀.ev.die data m t l)
    (k : s₀.Puts s a b) : s₀.Puts u a b := by
  obtain ⟨n, hn⟩ := h.die
  obtain ⟨ag, n', hu⟩ := h.frame
  have hother : ∀ e, e ≠ s₀.ev.die → u.die e = s.die e := fun e he => by
    rw [hu]
    exact vset_other _ _ (Ne.symm he)
  have hctx : ∀ c, u.ctx s₀.ev.die c = s.ctx s₀.ev.die c := fun c => by
    unfold State.ctx
    rw [hn]
    rfl
  obtain ⟨fl, hf⟩ := k.quiet.flight
  refine ⟨⟨fun e he => (hother e he).trans (k.quiet.dies e he), ?_, ?_, fun c hc => (hctx c).trans (k.quiet.ctxs c hc), ?_,
    fl, (hctx _).trans hf⟩, fun hl y hy => ?_⟩
  · rw [hu]
    exact k.quiet.mem
  · rw [hu]
    exact k.quiet.panel
  · rw [hn]
    exact k.quiet.accs
  · rw [hn]
    exact k.bytes hl y hy

/-- A lane of a far group. -/
theorem farOut_lane (data : VReg) (m : Mask) (t : Setting) (g : Nat) {k : Nat} (hk : k < 16) :
    ((farOut data m t g).1.extractLsb' (32 * k) 32).toNat = (traverse t.bits (lanes data)).getD (16 * g + k) 0 % 2 ^ 32 := by
  have hget : (((traverse t.bits (lanes data)).drop (16 * g)).take 16).getD k 0
      = (traverse t.bits (lanes data)).getD (16 * g + k) 0 := by
    simp [List.getD, hk]
  have hsplit : 512 = 32 * k + (32 + (512 - (32 * k + 32))) := by omega
  unfold farOut
  rw [BitVec.extractLsb'_toNat, BitVec.toNat_ofNat, Nat.shiftRight_eq_div_pow, ← hget, ← joinNat_getD 32]
  conv => lhs; rw [hsplit, Nat.pow_add, Nat.pow_add, Nat.mod_mul_right_div_self, Nat.mod_mul_right_mod]

end far

end Sys2Proof.Machine
end

