-- ==== Sys2Proof/Proofs/BankAccessPerforms.lean ====
section
/-! PROOFS. BANK_ACCESS_PERFORM, every kind of access (R111 to R116, R129, R130, R206, R212, R241 to R243). -/

namespace Sys2Proof.Machine

/-! ### Loads whose tags match -/

/-- A load of a scalar type reads whole bytes. -/
theorem scalarInt_width {t : Ty} (h : t.isScalarInt = true) : t.width / 8 * 8 = t.width := by
  cases t <;> revert h <;> decide

section loads

variable {s : State} {a : Access}

/-- A change of what an access reads from leaves its contexts, bytes and accesses. -/
theorem State.gone_without (y : Die) (hc : y.ctxs = (s.die s.ev.die).ctxs) (hb : y.bank = (s.die s.ev.die).bank)
    (hf : y.folds = (s.die s.ev.die).folds) (ha : y.accs = (s.dieWithout a).accs) :
    s.Gone ((s.without a).setDie s.ev.die y) a :=
  ⟨y, s.setDie_setDie _ _ _, hc, hb, hf, ha⟩

/-- A result that lands once the access is gone. -/
theorem State.Gone.landAt {u : State} (h : s.Gone u a) (hy : u.cycle = s.cycle) (lat : Nat) (l : Land) :
    let t := u.landAt s.ev.die a.ctx (u.cycle + lat) a.slot a.id a.bundle a.hnd l
    s.Quiet t a ((s.die s.ev.die).outdated a []) ∧ s.SameBytes t ∧ s.Flies t a lat l := by
  intro t
  have hk : u.Adds t s.ev.die a.ctx := State.landAt_adds ..
  have hfl : s.Flies t a lat l := State.flies_landAt (fun b => by rw [h.ctx]) hy lat l
  have hb := h.faulted.bytes.trans hk.sameBytes
  obtain ⟨y, hu, hc, _, _, ha⟩ := h.eq
  rw [Die.outdated_nil, ← ha]
  rw [hu] at hk
  exact ⟨hk.quiet hc, hb, hfl⟩

end loads

/-! ### Each kind of access -/

/-- A byte of a near lane of a vector load. -/
theorem State.vload_near {s : State} {a : Access} {v : VAddr} {f : Setting} {p k : Nat} (hp : p < 256) (hn : f.far.getLsbD (p / 16) = false)
    (hk : k < 4) : BitVec.ofNat 8 (((s.without a).vlanes s.ev.die a v f).getD p 0 / 2 ^ (8 * k))
      = (s.die s.ev.die).sees a (a.half v p + k) := by
  rw [State.vlanes_near _ _ _ _ _ hp hn hk, s.die_without, State.dieWithout_sees]

section kinds

variable {s : State} {a : Access} (hfind : (s.die s.ev.die).accs.find? (fun b => b.id == s.ev.id) = some a)
  (hw : (s.die s.ev.die).wf = true) (hb : (s.die s.ev.die).bankBad = [])

include hfind hb

theorem State.load_performs {t : Ty} {z : Dst} {off : Word} (hk : a.kind = .load t z off)
    (ht : ∀ w, a.tag = some w → (s.die s.ev.die).tagAt (a.win.byteAddr off 0) = w) (hs : t.isScalarInt = true) :
    ∃ u, exec .bankAccessPerform s = .next u ∧ s.Quiet u a ((s.die s.ev.die).outdated a []) ∧ s.SameBytes u
      ∧ ∃ v : BitVec t.width, s.Flies u a 1 (.scalar z (Ty.ext t v))
        ∧ ∀ k, k < t.width / 8 → v.extractLsb' (8 * k) 8 = (s.die s.ev.die).sees a (a.win.byteAddr off k) := by
  have hd : (s.without a).die s.ev.die = s.dieWithout a := s.die_without a
  have hp : (s.without a).perform a s.ev.die = (s.without a).performLoad s.ev.die a t z off := by rw [State.perform, hk]
  have hg : s.Gone ((s.without a).setDie s.ev.die ((s.dieWithout a).use ((List.range (t.width / 8)).map fun k =>
    a.win.byteAddr off k))) a := State.gone_without _ rfl rfl rfl rfl
  obtain ⟨hq, hsb, hf⟩ := hg.landAt rfl 1 (.scalar z (Ty.ext t (BitVec.ofNat t.width (natOfBytes
    ((List.range (t.width / 8)).map fun k => (s.die s.ev.die).sees a (a.win.byteAddr off k))))))
  refine ⟨_, ?_, hq, hsb, _, hf, fun k hk => extractLsb'_natOfBytes_range _ hk (by have := scalarInt_width hs; omega)⟩
  rw [State.exec_bankAccessPerform hfind, hp, State.performLoad_clean _ _ _ _ _ _ (by rw [hd]; exact hb)
    (by rw [hd]; exact ht), hd, State.dieWithout_sees, extend_eq]
  rfl

theorem State.load_mistagged {t : Ty} {z : Dst} {off : Word} {w : BitVec 8} (hk : a.kind = .load t z off)
    (ha : a.tag = some w) (ht : (s.die s.ev.die).tagAt (a.win.byteAddr off 0) ≠ w) :
    ∃ u, exec .bankAccessPerform s = .next u ∧ s.FaultTaken u a w ((s.die s.ev.die).tagAt (a.win.byteAddr off 0)) false
      (a.win.byteAddr off 0) := by
  have hd : (s.without a).die s.ev.die = s.dieWithout a := s.die_without a
  have hp : (s.without a).perform a s.ev.die = (s.without a).performLoad s.ev.die a t z off := by rw [State.perform, hk]
  have hg : s.Gone ((s.without a).setDie s.ev.die ((s.dieWithout a).use ((List.range (t.width / 8)).map fun k =>
    a.win.byteAddr off k))) a := State.gone_without _ rfl rfl rfl rfl
  refine ⟨_, ?_, hg.schedFault (a.win.byteAddr off 0) false ((s.die s.ev.die).tagAt (a.win.byteAddr off 0)) w⟩
  rw [State.exec_bankAccessPerform hfind, hp, State.performLoad_mistagged _ _ _ _ _ _ (by rw [hd]; exact hb) ha
    (by rw [hd]; exact ht), hd]
  rfl

/-- The step of a vector load. -/
theorem State.exec_vload {z : Dst} {v : VAddr} {m : Mask} {f : Setting} (hk : a.kind = .vload z v m f) :
    exec .bankAccessPerform s = .next
      (match a.tag.bind fun w => ((vecAddrs a.win v f).filterMap id).find? fun q => (s.die s.ev.die).tagAt q != w with
      | some q => ((s.without a).setDie s.ev.die ((s.dieWithout a).vread s.cycle f (a.vreads v f))).schedFault s.ev.die a
          (q / 8 * 8) true ((s.die s.ev.die).tagAt q) (a.tag.getD 0)
      | none => ((s.without a).setDie s.ev.die ((s.dieWithout a).vread s.cycle f (a.vreads v f))).landAt s.ev.die a.ctx
          (s.cycle + 4) a.slot a.id a.bundle a.hnd
          (.vector z (ofLanes (traverse f.bits ((s.without a).vlanes s.ev.die a v f))) m)) := by
  have hd : (s.without a).die s.ev.die = s.dieWithout a := s.die_without a
  have hp : (s.without a).perform a s.ev.die = (s.without a).performVload s.ev.die a z v m f := by rw [State.perform, hk]
  rw [State.exec_bankAccessPerform hfind, hp, State.performVload_clean _ _ _ _ _ _ _ (by rw [hd]; exact hb), hd]
  rfl

theorem State.vload_mistagged {z : Dst} {v : VAddr} {m : Mask} {f : Setting} {w : BitVec 8} {p : Nat}
    (hk : a.kind = .vload z v m f) (ha : a.tag = some w) (hp : p < 256 ∧ f.far.getLsbD (p / 16) = false)
    (ht : (s.die s.ev.die).tagAt (a.half v p) ≠ w) :
    ∃ u q, exec .bankAccessPerform s = .next u ∧ (q < 256 ∧ f.far.getLsbD (q / 16) = false)
      ∧ (s.die s.ev.die).tagAt (a.half v q) ≠ w
      ∧ s.FaultTaken u a w ((s.die s.ev.die).tagAt (a.half v q)) true (a.half v q / 8 * 8) := by
  obtain ⟨hsome, hnone⟩ := find_half a v f (x := s.die s.ev.die) (w := w)
  have hg : s.Gone ((s.without a).setDie s.ev.die ((s.dieWithout a).vread s.cycle f (a.vreads v f))) a :=
    State.gone_without _ rfl rfl rfl rfl
  cases hq : ((vecAddrs a.win v f).filterMap id).find? fun q => (s.die s.ev.die).tagAt q != w with
  | none => exact absurd (hnone hq p hp) ht
  | some y =>
    obtain ⟨q, hq', rfl, hne⟩ := hsome y hq
    refine ⟨_, q, ?_, hq', hne, hg.schedFault (a.half v q / 8 * 8) true ((s.die s.ev.die).tagAt (a.half v q)) w⟩
    rw [State.exec_vload hfind hb hk, ha, Option.bind_some, hq]
    rfl

theorem State.vload_performs {z : Dst} {v : VAddr} {m : Mask} {f : Setting} (hk : a.kind = .vload z v m f)
    (ht : ∀ w p, a.tag = some w → p < 256 ∧ f.far.getLsbD (p / 16) = false → (s.die s.ev.die).tagAt (a.half v p) = w) :
    ∃ u, exec .bankAccessPerform s = .next u ∧ s.Quiet u a ((s.die s.ev.die).outdated a []) ∧ s.SameBytes u
      ∧ s.Flies u a 4 (.vector z (ofLanes (traverse f.bits ((s.without a).vlanes s.ev.die a v f))) m) := by
  have hg : s.Gone ((s.without a).setDie s.ev.die ((s.dieWithout a).vread s.cycle f (a.vreads v f))) a :=
    State.gone_without _ rfl rfl rfl rfl
  have hnone : (a.tag.bind fun w => ((vecAddrs a.win v f).filterMap id).find? fun q => (s.die s.ev.die).tagAt q != w) = none := by
    cases ha : a.tag with
    | none => rfl
    | some w =>
      rw [Option.bind_some]
      cases hq : ((vecAddrs a.win v f).filterMap id).find? fun q => (s.die s.ev.die).tagAt q != w with
      | none => rfl
      | some y =>
        obtain ⟨p, hp, _, hne⟩ := (find_half a v f (x := s.die s.ev.die) (w := w)).1 y hq
        exact absurd (ht w p ha hp) hne
  refine ⟨_, ?_, hg.landAt rfl 4 (.vector z (ofLanes (traverse f.bits ((s.without a).vlanes s.ev.die a v f))) m)⟩
  rw [State.exec_vload hfind hb hk, hnone]
  rfl

include hw

theorem State.store_performs {l : List (Nat × Byte)} (hp : ∀ u : State, u.perform a s.ev.die = u.performStore s.ev.die a)
    (hl : a.writes = l) : ∃ u, exec .bankAccessPerform s = .next u ∧ s.Puts u a l := by
  refine ⟨_, State.exec_bankAccessPerform hfind, ?_⟩
  rw [hp]
  exact State.performStore_puts hw hb hl

/-- The step of a vector store: its near groups are written, its far groups go out. -/
theorem State.vstore_performs {v : VAddr} {data : VReg} {m : Mask} {f : Setting} {l : List (Nat × Byte)}
    (hk : a.kind = .vstore v data m f) (hl : a.writes = l) :
    ∃ u, exec .bankAccessPerform s = .next u ∧ s.Puts u a l ∧ ∀ (g : Fin 16) (p : DieId), f.far.getLsbD g.val = true →
      s.panel.locked = true → peerOf s.ev.die (g.val / 4) = some p →
      (s.die s.ev.die).stat.farLat[Fin.ofNat 4 (g.val / 4)] ≠ 0 → s.farEntry s.ev.die p data m f g.val ∈ u.agenda := by
  let w := (s.without a).performStore s.ev.die a
  have hp : (s.without a).perform a s.ev.die = w.sendFar s.ev.die data m f := by rw [State.perform, hk]; rfl
  have hb' : ((s.without a).die s.ev.die).bankBad = [] := by rw [State.die_without]; exact hb
  have hputs : s.Puts w a l := State.performStore_puts hw hb hl
  have hsent := w.sendFar_sent s.ev.die data m f
  have hpan : w.panel = s.panel := hputs.quiet.panel
  have hweq := State.performStore_clean (s.without a) s.ev.die a hb'
  have hstat : (w.die s.ev.die).stat = (s.die s.ev.die).stat := by
    obtain ⟨b, f', e⟩ := (s.dieWithout a).stored_parts a a.writes
    show (((s.without a).performStore s.ev.die a).die s.ev.die).stat = _
    rw [hweq, State.die_setDie, State.die_without]
    show ((s.dieWithout a).stored a a.writes).stat = _
    rw [e]
    rfl
  have hcyc : w.cycle = s.cycle := by
    show ((s.without a).performStore s.ev.die a).cycle = _
    rw [hweq]
    rfl
  refine ⟨_, (State.exec_bankAccessPerform hfind).trans (congrArg Host.Outcome.next hp), hsent.puts hputs,
    fun g p h1 h2 h3 h4 => ?_⟩
  have h := hsent.sent g.val (List.mem_range.mpr g.isLt) h1 (by rw [hpan]; exact h2) p h3 (by rw [hstat]; exact h4)
  rw [State.farEntry, hstat, hcyc] at h
  exact h

end kinds

/-! ### The obligation -/

/-- A lane of what a vector load delivers through no setting. -/
theorem elem_traverse_identity {l : List Nat} {p k : Nat} (hp : p < 256) (hk : k < 4) :
    (elem 32 (ofLanes (traverse 0 l)) p).extractLsb' (8 * k) 8 = BitVec.ofNat 8 (l.getD p 0 / 2 ^ (8 * k)) := by
  have hsplit : 32 = 8 * k + (8 + (32 - (8 * k + 8))) := by omega
  rw [traverse, if_pos rfl, ofLanes, elem_ofElems _ _ _ hp]
  apply BitVec.eq_of_toNat_eq
  rw [BitVec.extractLsb'_toNat, BitVec.toNat_ofNat, BitVec.toNat_ofNat, Nat.shiftRight_eq_div_pow]
  conv => lhs; rw [hsplit, Nat.pow_add, Nat.pow_add, Nat.mod_mul_right_div_self, Nat.mod_mul_right_mod]

/-- A word of the banks lies in one tile. -/
theorem Die.tagAt_word (x : Die) (y : Nat) : x.tagAt (y / 8 * 8) = x.tagAt y := by
  have h : y / 8 * 8 % Config.bankBytes / 4096 = y % Config.bankBytes / 4096 := by
    rw [show Config.bankBytes = 134217728 from rfl]
    omega
  rw [Die.tagAt, Die.tagAt, h]

/-- Settles O52: each kind of access performs as its lemma says. -/
theorem bankAccessPerforms : Obligations.BankAccessPerforms := by
  unfold Obligations.BankAccessPerforms
  intro s a d x hfind hid hw hb saw at_ flies quiet quiet' puts
  have hquiet : ∀ t l, s.Quiet t a (x.outdated a l) → quiet t l := fun t l q =>
    ⟨q.dies, q.mem, q.panel, q.ctxs, q.accs, q.flight⟩
  have hputs : ∀ t l, s.Puts t a l → puts t l := fun t l q => ⟨hquiet t _ q.quiet, q.bytes⟩
  have hfault : ∀ t, s.Faulted t a → quiet' t := fun t q => ⟨q.dies, q.mem, q.panel, q.ctxs, q.accs, q.bytes⟩
  refine ⟨fun ty z off hk ht hs => ?load, fun n off v hk => ?store, fun off r hk => ?routeStore,
    fun op ty z off b c fm hk hty => ?amo, fun z v m hk ht => ?vload, fun v data m hk => ?vstore, ?tagged⟩
  case load =>
    obtain ⟨u, hu, q, hsb, v, hf, hv⟩ := State.load_performs hfind hb hk ht hs
    exact ⟨u, hu, hquiet u [] q, hsb, v, hf, hv⟩
  case store =>
    obtain ⟨u, hu, q⟩ := State.store_performs hfind hw hb (fun u => by rw [State.perform, hk]) (Access.writes_store hk)
    exact ⟨u, hu, hputs u _ q⟩
  case routeStore =>
    obtain ⟨u, hu, q⟩ := State.store_performs hfind hw hb (fun u => by rw [State.perform, hk]) (Access.writes_routeStore hk)
    exact ⟨u, hu, hputs u _ q⟩
  case amo =>
    intro w base
    let old := s.amoOld a ty.width base
    obtain ⟨hp, hl, hf⟩ := State.performAmo_spec (op := op) (dst := z) (off := off) (b := b) (c := c) (fm := fm) hw hb hty
    have hrun : exec .bankAccessPerform s = .next ((s.without a).performAmo s.ev.die a op ty z off b c fm) :=
      (State.exec_bankAccessPerform hfind).trans (by rw [State.perform, hk])
    have hold : ∀ k, k < ty.width / 8 → old.extractLsb' (8 * k) 8 = saw (at_ base k) := fun k hk =>
      extractLsb'_natOfBytes_range _ hk (by rcases amo_width hty with h | h <;> omega)
    refine ⟨_, BitVec.ofNat ty.width (amoNew op ty fm old.toNat b.toNat c.toNat).1, hrun, old, hold, hl, hputs _ _ hp, ?_⟩
    refine ⟨?_, ?_, ?_, ?_, ?_, ?_, ?_, ?_, ?_, ?_⟩
    · rintro rfl; exact amoNew_add old b c
    · rintro rfl; exact (amoNew_logic old b c).1
    · rintro rfl; exact (amoNew_logic old b c).2.1
    · rintro rfl; exact (amoNew_logic old b c).2.2
    · rintro rfl; exact amoNew_swap old b c
    · rintro rfl; exact amoNew_cas old b c
    · rintro rfl; exact amoNew_max old b c
    · rintro rfl; exact amoNew_min old b c
    · rintro rfl; exact ⟨_, amoNew_sadd old b c, hf⟩
    · rintro rfl rd o e gives
      have hflag : ∀ q, amoNew op .f32 fm old.toNat b.toNat c.toNat = q → q.2 ≠ 0 →
          flies ((s.without a).performAmo s.ev.die a op .f32 z off b c fm) 2 (.flags q.2) := by
        rintro q rfl
        exact hf
      have hgives : ∀ r, amoNew op .f32 fm old.toNat b.toNat c.toNat = roundRes .f32 fm r → gives r := fun r h =>
        ⟨congrArg (fun q : Nat × Flg => BitVec.ofNat Ty.f32.width q.1) h, hflag _ h⟩
      obtain ⟨hadd, hmax, hmin⟩ := amoNew_float fm old b.toNat c.toNat
      refine ⟨?_, ?_, ?_⟩
      · rintro rfl; exact hgives _ hadd
      · rintro rfl; exact hgives _ hmax
      · rintro rfl; exact hgives _ hmin
  case vload =>
    obtain ⟨u, hu, q, hsb, hf⟩ := State.vload_performs hfind hb hk fun w p hw => by rw [ht] at hw; cases hw
    refine ⟨u, _, hu, hquiet u [] q, hsb, hf, fun p k hp hk => ?_⟩
    exact (elem_traverse_identity hp hk).trans (State.vload_near hp (BitVec.getLsbD_zero) hk)
  case vstore =>
    obtain ⟨u, hu, q, _⟩ := State.vstore_performs hfind hw hb hk (Access.writes_vstore_identity hk)
    exact ⟨u, hu, hputs u _ q⟩
  case tagged =>
    intro half c faults
    have hfaults : ∀ t w vec y, s.FaultTaken t a w (x.tagAt y) vec y → faults t w vec y := by
      intro t w vec y h
      refine ⟨fun hp hh => ?_, fun hp hs => ?_, fun hp hv hs => ?_⟩
      · obtain ⟨hq, hc⟩ := h.recorded hp hh
        exact ⟨hfault t hq, hc⟩
      · obtain ⟨hq, hc⟩ := h.free hp hs
        exact ⟨hfault t hq, hc⟩
      · obtain ⟨hq, late, hc⟩ := h.trap hp hv hs
        obtain ⟨e1, e2, _, e3, e4, e5, e6, e7, e8, _, e9, _, _⟩ := Ctx.enterHandler_fields hc
        obtain ⟨i1, i2, i3, i4, i5⟩ := schedInfo_fields y vec (x.tagAt y) w
        intro k
        refine ⟨hfault t hq, e1, e2, e3, e4, e8, e7, e9, ?_, ?_, ?_⟩
        · rw [e6]; rfl
        · rw [e6]; rfl
        · rw [e5]; exact ⟨i1, i2, i3, i4, i5⟩
    refine ⟨fun ty z off w hk ha ht => ?_, fun z v m f hk => ⟨fun w p ha hp ht => ?_, fun ht => ?_⟩, fun v data m f hk => ?_⟩
    · obtain ⟨u, hu, h⟩ := State.load_mistagged hfind hb hk ha ht
      exact ⟨u, hu, hfaults _ _ _ _ h⟩
    · obtain ⟨u, q, hu, hq, hne, h⟩ := State.vload_mistagged hfind hb hk ha hp ht
      rw [← x.tagAt_word] at h
      exact ⟨u, q, hu, hq, hne, hfaults _ _ _ _ h⟩
    · obtain ⟨u, hu, q, hsb, hf⟩ := State.vload_performs hfind hb hk ht
      refine ⟨u, (s.without a).vlanes d a v f, hu, hquiet u [] q, hsb, State.vlanes_length _ _ _ _ _, hf,
        fun p hp k hk => State.vload_near hp.1 hp.2 hk, fun p hp hfar => ?_⟩
      rw [State.vlanes_far _ _ _ _ _ hp hfar, s.die_without]
      rfl
    · obtain ⟨u, hu, q, hfar⟩ := State.vstore_performs hfind hw hb hk (Access.writes_vstore hk)
      exact ⟨u, hu, hputs u _ q, fun g p h1 h2 h3 h4 => ⟨_, hfar g p h1 h2 h3 h4, rfl, rfl, rfl, rfl, rfl,
        fun k hk => farOut_lane data m f g.val hk⟩⟩

end Sys2Proof.Machine
end

