-- ==== Sys2Proof/Proofs/SequencerSteps.lean ====
section
/-! PROOFS. The sequencer's steps: bundles that begin to issue, the selector, waits and quanta (R73, R126, R137 to R139). -/

namespace Sys2Proof.Machine

variable {s : State} {d : DieId} {n : CtxId}

/-! ### A bundle begins to issue -/

theorem State.setDie_self (s : State) (d : DieId) : s.setDie d (s.die d) = s := by
  have hv : vset s.dies d (s.die d) = s.dies := vset_self s.dies d
  unfold State.setDie
  rw [hv]

/-- Where no word of the register banks is marked, reading lines finds nothing. -/
theorem Die.readLines_clean {x : Die} (h : x.regBad = []) (n : CtxId) (hnd : Bool) (l : List Nat) :
    x.readLines n hnd l = (x, none) := by
  unfold Die.readLines
  rw [h]
  rfl

/-- A bundle that meets no check is held by its engine syllables, or begins to issue. -/
theorem State.issueDecoded_clean {rs : List RawSyl} {is : List Instr} (hr : (s.die d).regBad = [])
    (hb : s.badBlock d n (s.ctx d n).rf.pc rs = none) (ht : preTrap (s.ctx d n) is = none) (hw : (s.ctx d n).tagWait = false) :
    s.issueDecoded d n rs is = if engineHeld (s.die d) (s.ctx d n) is then s.modCtx d n fun c => { c with st := .held }
      else s.startIssue d n rs := by
  unfold State.issueDecoded
  simp only [Die.readLines_clean hr, s.setDie_self]
  rw [show (s.die d).ctx n = s.ctx d n from rfl, hb, ht, hw]
  rfl

/-- A die whose cache holds some lines. -/
def Die.withLines (x : Die) (l : List ICLine) : Die := { x with seq := { x.seq with icache := l } }

/-- The issue of a bundle whose bytes are at hand: its line may be lost, or it decodes and meets its checks. -/
theorem State.issueBundle_of_gather {rs : List RawSyl} (hg : gather (s.die d) (s.ctxRoot d n) 10 (s.ctx d n).rf.pc [] = .ok rs)
    (hp : rs.findSome? (poolMiss (s.die d) (s.ctxRoot d n) (s.ctx d n).rf.pc) = none) :
    (Config.lineLost s.freeCtr = true → ∃ l, s.issueBundle d n = (s.modDie d (·.withLines l)).takeFree)
    ∧ (Config.lineLost s.freeCtr = false → ∀ is, decodeBundle (s.die d) (s.ctx d n) rs = .ok is →
        s.issueBundle d n = s.takeFree.issueDecoded d n rs is) := by
  unfold State.issueBundle
  simp only [show (s.die d).ctx n = s.ctx d n from rfl, hg, hp]
  refine ⟨fun h => ?_, fun h is hd => ?_⟩
  · rw [if_pos h]
    exact ⟨_, rfl⟩
  · rw [if_neg (by rw [h]; decide), hd]

/-- A running context that waits for nothing and that no earlier cycle bars issues its bundle. -/
theorem State.tryIssue_runs (hst : (s.ctx d n).st = .running) (hw : (s.ctx d n).waits = []) (ht : (s.ctx d n).pendTrap = none)
    (ha : (s.ctx d n).act = none) (he : (s.ctx d n).earliest ≤ s.cycle) : s.tryIssue d n = s.issueBundle d n := by
  unfold State.tryIssue
  simp only [hst, hw, ht, ha]
  simp [Nat.not_lt.mpr he]

/-- An idle context that a later cycle bars does not issue. -/
theorem State.tryIssue_early (hw : (s.ctx d n).waits = []) (ht : (s.ctx d n).pendTrap = none) (ha : (s.ctx d n).act = none)
    (he : s.cycle < (s.ctx d n).earliest) : s.tryIssue d n = s := by
  unfold State.tryIssue
  simp only [hw, ht, ha]
  simp [he]

/-- The step of a die whose width a context holds is that context's turn. -/
theorem State.exec_bundleIssue_held (hr : (s.die s.ev.die).seq.inReset = false) (hs : (s.die s.ev.die).seq.stall = false)
    (hh : (s.die s.ev.die).seq.holder = some n) : exec .bundleIssue s = .next (s.tryIssue s.ev.die n) := by
  show Host.Outcome.next _ = _
  simp only [hr, hs, hh, Bool.false_or, Bool.false_eq_true, ↓reduceIte, Option.isNone_some]

/-- The step of a die whose width nobody holds: the selector's choice, and the turn of the context that it chose. -/
theorem State.exec_bundleIssue_free {k : CtxId} (hr : (s.die s.ev.die).seq.inReset = false)
    (hs : (s.die s.ev.die).seq.stall = false) (hh : (s.die s.ev.die).seq.holder = none)
    (hk : ((s.die s.ev.die).choose s.cycle).seq.holder = some k) :
    exec .bundleIssue s = .next ((s.modDie s.ev.die fun x => x.choose s.cycle).tryIssue s.ev.die k) := by
  show Host.Outcome.next _ = _
  simp only [hr, hs, hh, Bool.false_or, Bool.false_eq_true, ↓reduceIte, Option.isNone_none, State.die_modDie, hk]

/-! ### The selector -/

theorem nextCtx_eq_add (n : CtxId) : [nextCtx n 1, nextCtx n 2, nextCtx n 3] = [n + 1, n + 2, n + 3] := by
  revert n
  decide

theorem ne_of_mem_others {k : CtxId} (h : k ∈ [n + 1, n + 2, n + 3]) : k ≠ n := by
  revert k n
  decide

theorem ne_of_find_others {p : CtxId → Bool} {k : CtxId} (h : [n + 1, n + 2, n + 3].find? p = some k) : k ≠ n :=
  ne_of_mem_others (List.mem_of_find?_eq_some h)

/-- The last holder, Ready where no switch cycle is due, takes the width again. -/
theorem Die.choose_last {x : Die} {m : Nat} (hg : m ≠ x.seq.gaveUp + 1) (hr : (x.ctx x.seq.last).st = .ready) :
    x.choose m = x.take x.seq.last m false := by
  unfold Die.choose
  simp [hg, hr]

/-- At a switch cycle, or where the last holder is not Ready, the first Ready of the others is switched to. -/
theorem Die.choose_next {x : Die} {m : Nat} {k : CtxId} (h : m = x.seq.gaveUp + 1 ∨ (x.ctx x.seq.last).st ≠ .ready)
    (hf : [x.seq.last + 1, x.seq.last + 2, x.seq.last + 3].find? (fun l => (x.ctx l).st == .ready) = some k) :
    x.choose m = x.switchTo k (m + 1) := by
  unfold Die.choose
  have hn : ¬ ((m ≠ x.seq.gaveUp + 1 && (x.ctx x.seq.last).st == .ready) = true) := by
    simp only [Bool.and_eq_true, decide_eq_true_eq, beq_iff_eq]
    exact fun ⟨h1, h2⟩ => h.elim h1 (· h2)
  dsimp only
  rw [if_neg hn, nextCtx_eq_add, hf]

/-- A die that a context has taken the width of, in a state that is otherwise as it was but for the last holder's earliest
cycle. -/
structure Die.TakenBy (x y : Die) (k : CtxId) (m z : Nat) : Prop where
  holder : y.seq.holder = some k
  last : y.seq.last = k
  switches : y.seq.switches = x.seq.switches + BitVec.ofNat 64 z
  ctx : y.ctx k = { x.ctx k with st := .running, quantum := 0, earliest := max (x.ctx k).earliest m }
  others : ∀ l, l ≠ k → l ≠ x.seq.last → y.ctx l = x.ctx l
  bank : y.bank = x.bank
  folds : y.folds = x.folds

theorem Die.take_takenBy (x : Die) (m : Nat) : x.TakenBy (x.take x.seq.last m false) x.seq.last m 0 where
  holder := rfl
  last := rfl
  switches := (BitVec.add_zero _).symm
  ctx := Die.ctx_modCtx _ _ _
  others _ h _ := Die.ctx_modCtx_other _ _ h.symm
  bank := rfl
  folds := rfl

theorem Die.switchTo_takenBy (x : Die) {k : CtxId} (m : Nat) (hk : k ≠ x.seq.last) : x.TakenBy (x.switchTo k m) k m 1 := by
  obtain ⟨hseq, _, hctx, hothers, hbank, hfolds⟩ := Die.switchTo_spec x x.seq.last k m rfl hk
  exact ⟨congrArg Sequencer.holder hseq, congrArg Sequencer.last hseq, congrArg Sequencer.switches hseq, hctx,
    fun l h1 h2 => hothers l h2 h1, hbank, hfolds⟩

/-- What the step does where the selector's choice is a context that a later cycle bars from issue. -/
theorem State.bundleIssue_takes {k : CtxId} {m z : Nat} (hr : (s.die s.ev.die).seq.inReset = false)
    (hs : (s.die s.ev.die).seq.stall = false) (hh : (s.die s.ev.die).seq.holder = none)
    (ht : (s.die s.ev.die).TakenBy ((s.die s.ev.die).choose s.cycle) k m z)
    (hidle : (s.ctx s.ev.die k).waits = [] ∧ (s.ctx s.ev.die k).act = none ∧ (s.ctx s.ev.die k).pendTrap = none)
    (he : s.cycle < max (s.ctx s.ev.die k).earliest m) :
    let d := s.ev.die
    let x := s.die d
    ∃ t, exec .bundleIssue s = .next t ∧ (t.die d).seq.holder = some k
      ∧ (t.die d).seq.last = k ∧ (t.die d).seq.switches = x.seq.switches + BitVec.ofNat 64 z ∧ t.iss = s.iss
      ∧ t.ctx d k = { s.ctx d k with st := .running, quantum := 0, earliest := max (s.ctx d k).earliest m }
      ∧ (∀ e l, e ≠ d ∨ (l ≠ k ∧ l ≠ x.seq.last) → t.ctx e l = s.ctx e l) ∧ s.SameBytes t ∧ { t with dies := s.dies } = s := by
  intro d x
  obtain ⟨hw, ha, hp⟩ := hidle
  let t := s.modDie d fun x => x.choose s.cycle
  have hctx : t.ctx d k = { s.ctx d k with st := .running, quantum := 0, earliest := max (s.ctx d k).earliest m } :=
    (s.ctx_modDie d _ k).trans ht.ctx
  have hearly : t.cycle < (t.ctx d k).earliest := by rw [hctx]; exact he
  have hstep : exec .bundleIssue s = .next t := by
    rw [State.exec_bundleIssue_free hr hs hh ht.holder,
      State.tryIssue_early (by rw [hctx]; exact hw) (by rw [hctx]; exact hp) (by rw [hctx]; exact ha) hearly]
  have hdie : t.die d = x.choose s.cycle := s.die_modDie d _
  refine ⟨t, hstep, ?_, ?_, ?_, rfl, hctx, fun e l h => ?_, s.sameBytes_modDie d _ ht.bank ht.folds, rfl⟩
  · rw [hdie]; exact ht.holder
  · rw [hdie]; exact ht.last
  · rw [hdie]; exact ht.switches
  · by_cases hde : d = e
    · subst hde
      obtain ⟨h1, h2⟩ := h.resolve_left fun hne => hne rfl
      exact (s.ctx_modDie d _ l).trans (ht.others l h1 h2)
    · exact s.ctx_modDie_other _ l hde

/-! ### Quanta -/

/-- The die of a context that gives up the width at a switch point, before the selector's choice. -/
def Die.passed (x : Die) (n : CtxId) (k : Nat) : Die :=
  { (x.modCtx n fun c => { c with st := .ready, waits := [] }) with seq := { x.seq with holder := none, gaveUp := k } }

theorem Die.modCtx_modCtx (x : Die) (n : CtxId) (f g : Ctx → Ctx) : (x.modCtx n f).modCtx n g = x.modCtx n fun c => g (f c) := by
  simp only [Die.modCtx, Die.setCtx, Die.ctx, vset_same, vset_vset]

theorem Die.giveUp_waits {x : Die} (hh : x.seq.holder = some n) (k : Nat) :
    (x.modCtx n fun c => { c with waits := [] }).giveUp n k .ready = x.passed n k := by
  refine (Die.giveUp_holder (x.modCtx n fun c => { c with waits := [] }) n k .ready hh).trans ?_
  exact congrArg (fun y : Die => { y with seq := { x.seq with holder := none, gaveUp := k } }) (x.modCtx_modCtx n _ _)

theorem State.pass_eq (hh : (s.die d).seq.holder = some n) :
    s.pass d n = s.setDie d (((s.die d).passed n (s.cycle - 1)).choose s.cycle) := by
  let y : Die := (s.die d).modCtx n fun c => { c with waits := [] }
  have h1 : s.pass d n = (s.setDie d y).setDie d (((((s.setDie d y).die d)).giveUp n (s.cycle - 1) .ready).choose s.cycle) := rfl
  rw [h1, State.die_setDie, State.setDie_setDie, Die.giveUp_waits hh]

theorem Die.passed_ctx (x : Die) (n : CtxId) (k : Nat) :
    (x.passed n k).ctx n = { x.ctx n with st := .ready, waits := [] } :=
  Die.ctx_modCtx x n fun c => { c with st := .ready, waits := [] }

theorem Die.passed_ctx_other (x : Die) {n l : CtxId} (k : Nat) (h : l ≠ n) :
    (x.passed n k).ctx l = x.ctx l :=
  Die.ctx_modCtx_other x (fun c => { c with st := .ready, waits := [] }) h.symm

theorem Die.passed_landedBy (x : Die) (n : CtxId) (k : Nat) : (x.passed n k).landedBy n = x.landedBy n := by
  unfold Die.landedBy
  rw [x.passed_ctx]
  rfl

/-- At a switch point whose condition holds, a spent quantum passes the width to the first Ready of the other contexts. -/
theorem State.exec_quantumExpiry (hh : (s.die s.ev.die).seq.holder = some s.ev.ctx)
    (hst : (s.ctx s.ev.die s.ev.ctx).st = .running) (hw : (s.ctx s.ev.die s.ev.ctx).waits ≠ [])
    (hret : ∀ w ∈ (s.ctx s.ev.die s.ev.ctx).waits, w ≠ .ret)
    (hq : (s.die s.ev.die).seq.quantum ≤ (s.ctx s.ev.die s.ev.ctx).quantum) (hm : s.waitsIs s.ev.die s.ev.ctx = .met)
    {k : CtxId} (hk : k ≠ s.ev.ctx) (hr : (s.ctx s.ev.die k).st = .ready) :
    exec .quantumExpiry s = .next (s.pass s.ev.die s.ev.ctx) := by
  have hother : (s.die s.ev.die).otherReady s.ev.ctx = true := by
    unfold Die.otherReady
    rw [List.any_eq_true]
    refine ⟨k, List.mem_finRange k, ?_⟩
    rw [Bool.and_eq_true, bne_iff_ne, beq_iff_eq]
    exact ⟨hk, hr⟩
  have hcond : ((s.die s.ev.die).seq.holder == some s.ev.ctx && (s.ctx s.ev.die s.ev.ctx).st == .running
      && !(s.ctx s.ev.die s.ev.ctx).waits.isEmpty
      && decide ((s.die s.ev.die).seq.quantum ≤ (s.ctx s.ev.die s.ev.ctx).quantum)
      && (s.die s.ev.die).otherReady s.ev.ctx && s.waitsIs s.ev.die s.ev.ctx == .met) = true := by
    simp [hh, hst, hw, hq, hother, hm]
  have hnot : ¬ ((s.ctx s.ev.die s.ev.ctx).waits.contains .ret = true) := by
    rw [List.contains_iff_mem]
    exact fun h => hret _ h rfl
  exact congrArg Host.Outcome.next ((if_pos hcond).trans (if_neg hnot))

/-- What passing the width does, where the first Ready of the other contexts is known. -/
theorem State.pass_to {k : CtxId} (hh : (s.die d).seq.holder = some n) (hl : (s.die d).seq.last = n) (hc : 0 < s.cycle)
    (hf : [n + 1, n + 2, n + 3].find? (fun m => (s.ctx d m).st == .ready) = some k) :
    let x := s.die d
    let t := s.pass d n
    (t.die d).seq.holder = some k ∧ (t.die d).seq.switches = x.seq.switches + 1
      ∧ t.ctx d n = { s.ctx d n with st := .ready, waits := [], earliest := max (s.ctx d n).earliest (x.landedBy n) }
      ∧ t.ctx d k = { s.ctx d k with st := .running, quantum := 0, earliest := max (s.ctx d k).earliest (s.cycle + 1) }
      ∧ (∀ e l, e ≠ d ∨ (l ≠ n ∧ l ≠ k) → t.ctx e l = s.ctx e l) ∧ s.SameBytes t ∧ { t with dies := s.dies } = s := by
  intro x t
  have hk : k ≠ n := ne_of_find_others hf
  let p := x.passed n (s.cycle - 1)
  have hfind : [nextCtx n 1, nextCtx n 2, nextCtx n 3].find? (fun l => (p.ctx l).st == .ready) = some k := by
    rw [nextCtx_eq_add, ← hf]
    refine List.find?_congr fun l hmem => ?_
    have hln : l ≠ n := ne_of_mem_others hmem
    rw [x.passed_ctx_other _ hln]
    rfl
  have hch : p.choose s.cycle = p.switchTo k (s.cycle + 1) :=
    Die.choose_other p s.cycle n k hl (by show s.cycle = s.cycle - 1 + 1; omega) hfind
  have ht : t = s.setDie d (p.switchTo k (s.cycle + 1)) := (State.pass_eq hh).trans (congrArg _ hch)
  have hdie : t.die d = p.switchTo k (s.cycle + 1) := by rw [ht, State.die_setDie]
  obtain ⟨hseq, hn, hctx, hothers, hbank, hfolds⟩ := Die.switchTo_spec p n k (s.cycle + 1) hl hk
  refine ⟨?_, ?_, ?_, ?_, fun e l h => ?_, ?_, ?_⟩
  · rw [hdie, hseq]
  · rw [hdie, hseq]; rfl
  · show (t.die d).ctx n = _
    rw [hdie, hn, x.passed_ctx, x.passed_landedBy]; rfl
  · show (t.die d).ctx k = _
    rw [hdie, hctx, x.passed_ctx_other _ hk]; rfl
  · by_cases hde : d = e
    · subst hde
      obtain ⟨h1, h2⟩ := h.resolve_left fun hne => hne rfl
      show (t.die d).ctx l = _
      rw [hdie, hothers l h1 h2, x.passed_ctx_other _ h1]; rfl
    · show (t.die e).ctx l = _
      rw [ht, State.die_setDie_other _ _ hde]; rfl
  · rw [ht]
    exact State.sameBytes_modDie s d (fun _ => p.switchTo k (s.cycle + 1)) hbank hfolds
  · rw [ht]; rfl

end Sys2Proof.Machine
end

