-- ==== Sys2Proof/Proofs/TaskEnds.lean ====
section
/-! PROOFS. Waits that end, tag waits at their limit and ended tasks; and the sequencer's steps as a whole (R35, R126,
R129, R137). -/

namespace Sys2Proof.Machine

variable {s : State} {d : DieId} {n : CtxId}

/-! ### Waits that end -/

/-- A wait in error whose record line can be read leaves its trap with its context. -/
theorem State.waitTrap_clean (hr : (s.die d).regBad = []) (info : Word) : s.waitTrap d n info = s.modCtx d n fun c =>
    { c with pendTrap := some { cause := 0x0A, addr := c.waitPc, resume := c.rf.pc, info := info } } := by
  unfold State.waitTrap
  cases (s.ctx d n).errLine info with
  | none =>
    dsimp only
    rw [s.setDie_self]
  | some e =>
    dsimp only
    rw [Die.readLines_clean hr]
    dsimp only
    rw [s.setDie_self]

theorem State.exec_waitConditionMet_met (hb : (s.ctx s.ev.die s.ev.ctx).st = .blocked)
    (hm : s.waitsIs s.ev.die s.ev.ctx = .met) : exec .waitConditionMet s
      = .next (s.modCtx s.ev.die s.ev.ctx fun c => { c with st := .ready, waits := c.waits.filter (· == .ret) }) := by
  show execWaitConditionMet s = _
  unfold execWaitConditionMet
  simp only [hb, hm]
  rfl

theorem State.exec_waitConditionMet_error {info : Word} (hb : (s.ctx s.ev.die s.ev.ctx).st = .blocked)
    (hm : s.waitsIs s.ev.die s.ev.ctx = .error info) (hr : (s.die s.ev.die).regBad = []) : exec .waitConditionMet s
      = .next ((s.modCtx s.ev.die s.ev.ctx fun c => { c with st := .ready, waits := [] }).modCtx s.ev.die s.ev.ctx fun c =>
        { c with pendTrap := some { cause := 0x0A, addr := c.waitPc, resume := c.rf.pc, info := info } }) := by
  have hw : ((s.modCtx s.ev.die s.ev.ctx fun c => { c with st := .ready, waits := [] }).die s.ev.die).regBad = [] := by
    unfold State.modCtx
    rw [State.die_modDie]
    exact hr
  show execWaitConditionMet s = _
  unfold execWaitConditionMet
  simp only [hb, hm]
  exact congrArg Host.Outcome.next (State.waitTrap_clean hw info)

/-- Starting to issue changes a running context that waits for nothing in its quantum count only. -/
theorem Ctx.started_eq (k : Ctx) (hst : k.st = .running) (hw : k.waits = []) :
    { k with st := .running, quantum := k.quantum + 1, waits := [] } = { k with quantum := k.quantum + 1 } := by
  rw [← hst, ← hw]

/-! ### Tag waits at their limit -/

/-- trap_info of a tag wait that has timed out (R133). -/
def timeoutInfo (addr : Nat) (vec : Bool) (found want : BitVec 8) : Word :=
  BitVec.ofNat 64 (field addr 32 27 + 131072 * vec.toNat + 65536 + field found.toNat 8 8 + want.toNat)

theorem timeoutInfo_fields (addr : Nat) (vec : Bool) (found want : BitVec 8) : let i := timeoutInfo addr vec found want
    i.extractLsb' 0 8 = want ∧ i.extractLsb' 8 8 = found ∧ i.getLsbD 16 = true ∧ i.getLsbD 17 = vec
      ∧ i.extractLsb' 32 27 = BitVec.ofNat 27 addr := by
  have hf := found.isLt
  have hw := want.isLt
  have hv : vec.toNat < 2 := vec.toNat_lt
  intro i
  unfold i timeoutInfo field
  refine ⟨field_ofNat_eq ?_, field_ofNat_eq ?_, ?_, ?_, field_ofNat_eq ?_⟩
  · omega
  · omega
  · rw [BitVec.getLsbD_ofNat, Nat.testBit_eq_decide_div_mod_eq]
    have hbit : (addr % 2 ^ 27 * 2 ^ 32 + 131072 * vec.toNat + 65536 + found.toNat % 2 ^ 8 * 2 ^ 8 + want.toNat) / 2 ^ 16 % 2
        = 1 := by omega
    rw [hbit]
    rfl
  · rw [BitVec.getLsbD_ofNat, Nat.testBit_eq_decide_div_mod_eq]
    have hbit : (addr % 2 ^ 27 * 2 ^ 32 + 131072 * vec.toNat + 65536 + found.toNat % 2 ^ 8 * 2 ^ 8 + want.toNat) / 2 ^ 17 % 2
        = vec.toNat := by omega
    rw [hbit]
    cases vec <;> rfl
  · rw [BitVec.toNat_ofNat]
    omega

/-- A context that still waits on the tags of its next bundle takes the schedule fault at the limit. -/
theorem State.exec_tagWaitLimit {rs : List RawSyl} {is : List Instr} {a : Nat} {vec : Bool} {found want : BitVec 8}
    (hw : Wait.tags s.ev.seq ∈ (s.ctx s.ev.die s.ev.ctx).waits)
    (hg : gather (s.die s.ev.die) (s.ctxRoot s.ev.die s.ev.ctx) 10 (s.ctx s.ev.die s.ev.ctx).rf.pc [] = .ok rs)
    (hd : decodeBundle (s.die s.ev.die) (s.ctx s.ev.die s.ev.ctx) rs = .ok is)
    (hm : tagMiss (s.die s.ev.die) (s.ctx s.ev.die s.ev.ctx) (readFar is) is = some (a, vec, found, want)) :
    let pc := (s.ctx s.ev.die s.ev.ctx).rf.pc
    exec .tagWaitLimit s = .next (s.takeTrap s.ev.die s.ev.ctx
      { cause := 8, addr := pc, resume := pc, info := timeoutInfo a vec found want }) := by
  intro pc
  have hsome : ((s.ctx s.ev.die s.ev.ctx).waits.find? fun w => w == .tags s.ev.seq).isSome = true := by
    rw [List.find?_isSome]
    exact ⟨_, hw, beq_self_eq_true _⟩
  obtain ⟨w, hfind⟩ := Option.isSome_iff_exists.mp hsome
  show execTagWaitLimit s = _
  unfold execTagWaitLimit
  simp only [show (s.die s.ev.die).ctx s.ev.ctx = s.ctx s.ev.die s.ev.ctx from rfl, hfind, hg, hd, hm]
  rfl

/-! ### Ended tasks -/

/-- An ended task with nothing in flight frees its context, its end reported at the panel after a halt. -/
theorem State.exec_taskEnd (hst : (s.ctx s.ev.die s.ev.ctx).st = .ending)
    (he : (s.ctx s.ev.die s.ev.ctx).ending = .halt ∨ (s.ctx s.ev.die s.ev.ctx).ending = .lost
      ∨ (s.ctx s.ev.die s.ev.ctx).ending = .noTask) (hb : s.busyCtx s.ev.die s.ev.ctx = false) :
    ∃ p, ((s.ctx s.ev.die s.ev.ctx).ending ≠ .halt → p = s.panel)
      ∧ exec .taskEnd s = .next (({ s with panel := p } : State).freeCtx s.ev.die s.ev.ctx) := by
  have hne : ((s.ctx s.ev.die s.ev.ctx).st == .ending && (s.ctx s.ev.die s.ev.ctx).ending == .noHandler) = false := by
    obtain h | h | h := he <;> rw [h, hst] <;> rfl
  have hgo : ((s.ctx s.ev.die s.ev.ctx).st != .ending || (s.ctx s.ev.die s.ev.ctx).ending == .cutBack
      || s.busyCtx s.ev.die s.ev.ctx) = false := by
    obtain h | h | h := he <;> rw [h, hst, hb] <;> rfl
  show ∃ p, _ ∧ execTaskEnd s = _
  unfold execTaskEnd
  simp only [hne, hgo]
  obtain h | h | h := he
  · refine ⟨(s.launchEnds (s.ctx s.ev.die s.ev.ctx).queue (s.ctx s.ev.die s.ev.ctx).pkt true).panel, fun hh => absurd h hh, ?_⟩
    rw [h]
    rfl
  · refine ⟨s.panel, fun _ => rfl, ?_⟩
    rw [h]
    rfl
  · refine ⟨s.panel, fun _ => rfl, ?_⟩
    rw [h]
    rfl

/-! ### The sequencer's steps -/

/-- Far data goes to its link's arrivals while the domain is locked, a late or foreign group being counted. -/
theorem State.exec_farGroupArrival (s : State) : exec .farGroupArrival s = .next (if !s.panel.locked then s
    else if s.ev.flag then
      s.modDie s.ev.die fun x => { x with stat := { x.stat with farDrops := satInc x.stat.farDrops } }
    else s.modDie s.ev.die fun x =>
      { x with farIn := x.farIn ++ [{ group := s.ev.grp, cycle := s.cycle, data := s.ev.group, en := s.ev.groupEn }] }) := rfl

/-- Settles O53, by the step: what the selector, the issue, the waits, the quanta and the task ends leave. -/
theorem sequencerSteps : Obligations.SequencerSteps := by
  unfold Obligations.SequencerSteps
  intro s d n x c
  refine ⟨?_, ?_, ?_, ?_, ?_, ?_, ?_, ?_, rfl, rfl, ?_, ?_, ?_⟩
  · intro m rs is hir hstall hh k lost hst hw ht ha he hg hp hdec hr hb hpre htw
    have hrun : exec .bundleIssue s = .next (s.issueBundle d m) := by
      rw [State.exec_bundleIssue_held hir hstall hh, State.tryIssue_runs hst hw ht ha he]
    obtain ⟨hlost, hhere⟩ := State.issueBundle_of_gather hg hp
    refine ⟨fun hl => ?_, fun hl hheld => ?_, fun hl hheld => ?_⟩
    · obtain ⟨l, h⟩ := hlost hl
      have hctx := s.ctx_modDie_same d d (·.withLines l) m fun _ => rfl
      exact ⟨_, hrun.trans (congrArg _ h), hctx, rfl, s.sameBytes_modDie d (·.withLines l) rfl rfl⟩
    · have h := (hhere hl is hdec).trans ((State.issueDecoded_clean (s := s.takeFree) hr hb hpre htw).trans (if_pos hheld))
      exact ⟨_, hrun.trans (congrArg _ h), s.takeFree.ctx_modCtx d m _, rfl, s.takeFree.sameBytes_modCtx d m _⟩
    · have hnot : ¬ engineHeld x k is = true := by rw [hheld]; decide
      have h := (hhere hl is hdec).trans ((State.issueDecoded_clean (s := s.takeFree) hr hb hpre htw).trans (if_neg hnot))
      obtain ⟨hiss, hctx, hothers, hbytes, hrest⟩ := s.takeFree.startIssue_spec d m rs
      exact ⟨_, hrun.trans (congrArg _ h), congrArg Issue.active hiss, congrArg Issue.die hiss, congrArg Issue.ctx hiss,
        congrArg Issue.p hiss, congrArg Issue.taken hiss, congrArg Issue.buf hiss, congrArg Issue.target hiss,
        congrArg Issue.waits hiss, congrArg Issue.bundle hiss, hctx.trans (k.started_eq hst hw), hothers, hbytes,
        congrArg (fun t : State => { t with freeCtr := s.freeCtr }) hrest⟩
  · intro hb hm
    exact ⟨_, State.exec_waitConditionMet_met hb hm, s.ctx_modCtx d n _, s.sameBytes_modCtx d n _⟩
  · intro info hb hm hr
    refine ⟨_, State.exec_waitConditionMet_error hb hm hr, ?_, (s.sameBytes_modCtx d n _).trans (State.sameBytes_modCtx _ d n _)⟩
    rw [State.ctx_modCtx, State.ctx_modCtx]
    rfl
  · intro hheld
    refine ⟨_, congrArg Host.Outcome.next (if_pos (beq_iff_eq.mpr hheld)), s.ctx_modCtx d n _, s.sameBytes_modCtx d n _⟩
  · intro hh hl hc hst hw hret hq hm k hf
    have hk : k ≠ n := ne_of_find_others hf
    have hr : (s.ctx d k).st = .ready := by simpa using List.find?_some hf
    obtain ⟨h1, h2, h3, h4, h5, h6, h7⟩ := State.pass_to (s := s) (d := d) hh hl hc hf
    refine ⟨_, State.exec_quantumExpiry hh hst hw hret hq hm hk hr, hk, hr, h1, h2, ?_, ?_, fun f hmem => ?_, ?_, ?_, h4, h5,
      h6, h7⟩
    · rw [h3]
    · rw [h3]
    · rw [h3]
      exact (Die.landedBy_ge x n f hmem).trans (le_max_right _ _)
    · rw [h3]
    · rw [h3]
  · intro h idle takes hir hstall hh
    refine ⟨fun hg hr hi he => ?_, fun hg k hf hi => ?_⟩
    · refine State.bundleIssue_takes hir hstall hh ?_ hi (lt_of_lt_of_le he (le_max_left _ _))
      rw [Die.choose_last hg hr]
      exact x.take_takenBy s.cycle
    · refine State.bundleIssue_takes hir hstall hh ?_ hi (by omega)
      rw [Die.choose_next hg hf]
      exact x.switchTo_takenBy _ (ne_of_find_others hf)
  · intro rs is a vec found want hw hg hd hm
    exact ⟨_, State.exec_tagWaitLimit hw hg hd hm, timeoutInfo_fields a vec found want⟩
  · intro hst he hb
    obtain ⟨p, hp, hstep⟩ := State.exec_taskEnd hst he hb
    obtain ⟨h1, h2, h3, h4, h5, h6⟩ := State.freeCtx_spec { s with panel := p } d n
    refine ⟨_, hstep, h1, h2, h3, h4, h5, fun hne => ?_, ?_, ?_⟩
    · have h := congrArg State.panel h6
      exact h.trans (hp hne)
    · have h := congrArg State.mem h6
      exact h
    · have h := congrArg State.agenda h6
      exact h
  · intro hl hf
    rw [State.exec_farGroupArrival, hl, hf]
    rfl
  · intro hl hf
    rw [State.exec_farGroupArrival, hl, hf]
    rfl
  · intro hl
    rw [State.exec_farGroupArrival, hl]
    rfl

end Sys2Proof.Machine
end

