-- ==== Sys2Proof/Proofs/Light.lean ====
section
/-! PROOFS. The light of the optical ports: what the operations on ports and paths keep, and the steps of one wavelength
(R403, R405, R406). -/

namespace Sys2Proof.Machine

variable {s t u : State}

/-! ### What changes of a port keep -/

theorem State.port_modPort_other (s : State) {p q : PortId} (f : Port → Port) (h : p ≠ q) : (s.modPort p f).port q = s.port q :=
  vset_other _ _ h

/-- A port that differs at most in what sending changes (R386, R399). -/
def Port.SendsOnly (q r : Port) : Prop := r = { q with keys := r.keys, waiting := r.waiting, replay := r.replay
                                                       nextSeq := r.nextSeq, ackAt := r.ackAt, ackTwice := r.ackTwice
                                                       markerSent := r.markerSent, tagFail := r.tagFail }

theorem Port.SendsOnly.trans {q r v : Port} (h : q.SendsOnly r) (k : r.SendsOnly v) : q.SendsOnly v := by
  rw [Port.SendsOnly] at h k
  rw [Port.SendsOnly, k, h]

/-- What a port that starts the slots that wait at it may change. -/
structure State.Pumps (s t : State) : Prop where
  sends : s.SendsOnly t
  agenda : ∀ e ∈ s.agenda, e ∈ t.agenda
  ports : ∀ p, (s.port p).SendsOnly (t.port p)

namespace State.Pumps

theorem refl (s : State) : s.Pumps s := ⟨.refl s, fun _ h => h, fun _ => rfl⟩

theorem trans (h : s.Pumps t) (k : t.Pumps u) : s.Pumps u :=
  ⟨h.sends.trans k.sends, fun e he => k.agenda e (h.agenda e he), fun p => (h.ports p).trans (k.ports p)⟩

theorem modPort (s : State) (p : PortId) (f : Port → Port) (h : (s.port p).SendsOnly (f (s.port p))) :
    s.Pumps (s.modPort p f) := by
  refine ⟨s.sends_modPort p f, fun _ h => h, fun q => ?_⟩
  by_cases hq : p = q
  · subst hq
    rw [State.port_modPort]
    exact h
  · rw [s.port_modPort_other f hq]
    rfl

theorem sched (s : State) (n : Nat) (a : Instr) (e : EvArg) : s.Pumps (s.sched n a e) :=
  ⟨s.sends_sched n a e, fun _ h => List.mem_append_left _ h, fun _ => rfl⟩

theorem wake (s : State) (p : PortId) : s.Pumps (s.wake p) := ⟨s.sends_wake p, fun _ h => h, fun _ => rfl⟩

theorem startFlits (s : State) (p : PortId) (x : FabSlot) : s.Pumps (s.startFlits p x) := by
  unfold State.startFlits
  dsimp only
  split
  · exact ((modPort s p _ (by exact rfl)).trans (wake _ p)).trans (sched _ _ _ _)
  · exact (modPort s p _ (by exact rfl)).trans (wake _ p)

theorem startPortSlot (s : State) (p : PortId) (w : PortWait) : s.Pumps (s.startPortSlot p w) := by
  unfold State.startPortSlot
  refine (modPort s p (fun q => { q with waiting := q.waiting.filter fun o => o.id != w.id }) rfl).trans ?_
  dsimp only
  split
  · exact (modPort _ p _ (by exact rfl)).trans (startFlits _ _ _)
  · split
    · exact startFlits _ _ _
    · split
      · exact modPort _ p _ (by exact rfl)
      · exact (modPort _ p _ (by exact rfl)).trans (startFlits _ _ _)

theorem pumpN (p : PortId) (n : Nat) : ∀ s : State, s.Pumps (s.pumpN p n) := by
  induction n with
  | zero => exact refl
  | succ n ih =>
    intro s
    unfold State.pumpN
    dsimp only
    split
    · exact refl s
    · split
      · exact refl s
      · exact (startPortSlot s p _).trans (ih _)

theorem pump (s : State) (p : PortId) : s.Pumps (s.pump p) := pumpN p _ s

end State.Pumps

/-- The light of a port: its wavelengths in use, those that lock or relock, those retired, and since when they are dark. -/
def Port.light (q : Port) : Port :=
  { lit := q.lit, rxLit := q.rxLit, relocking := q.relocking, rxRelocking := q.rxRelocking, locking := q.locking
    failed := q.failed, relocks := q.relocks, darkAt := q.darkAt }

/-- A later state of the same cycle whose ports have the light that they had, and whose agenda holds what it held. -/
structure State.KeepsLight (s t : State) : Prop where
  dies : t.dies = s.dies
  mem : t.mem = s.mem
  cycle : t.cycle = s.cycle
  agenda : ∀ e ∈ s.agenda, e ∈ t.agenda
  light : ∀ p, (t.port p).light = (s.port p).light

namespace State.KeepsLight

theorem refl (s : State) : s.KeepsLight s := ⟨rfl, rfl, rfl, fun _ h => h, fun _ => rfl⟩

theorem trans (h : s.KeepsLight t) (k : t.KeepsLight u) : s.KeepsLight u :=
  ⟨k.dies.trans h.dies, k.mem.trans h.mem, k.cycle.trans h.cycle, fun e he => k.agenda e (h.agenda e he),
    fun p => (k.light p).trans (h.light p)⟩

theorem modPort (s : State) (p : PortId) (f : Port → Port) (h : (f (s.port p)).light = (s.port p).light) :
    s.KeepsLight (s.modPort p f) := by
  refine ⟨rfl, rfl, rfl, fun _ h => h, fun q => ?_⟩
  by_cases hq : p = q
  · subst hq
    rw [State.port_modPort]
    exact h
  · rw [s.port_modPort_other f hq]

theorem sched (s : State) (n : Nat) (a : Instr) (e : EvArg) : s.KeepsLight (s.sched n a e) :=
  ⟨rfl, rfl, rfl, fun _ h => List.mem_append_left _ h, fun _ => rfl⟩

theorem schedLater (s : State) (a : Instr) (e : EvArg) : s.KeepsLight (s.schedLater a e) :=
  ⟨rfl, rfl, rfl, fun _ h => List.mem_append_left _ h, fun _ => rfl⟩

theorem schedOnce (s : State) (n : Nat) (a : Instr) (e : EvArg) : s.KeepsLight (s.schedOnce n a e) := by
  obtain ⟨m, hm, _⟩ := s.schedOnce_eq n a e
  rw [hm]
  exact ⟨rfl, rfl, rfl, fun _ h => List.mem_append_left _ h, fun _ => rfl⟩

theorem takeFresh (s : State) : s.KeepsLight s.takeFresh := ⟨rfl, rfl, rfl, fun _ h => h, fun _ => rfl⟩

theorem wake (s : State) (p : PortId) : s.KeepsLight (s.wake p) := ⟨rfl, rfl, rfl, fun _ h => h, fun _ => rfl⟩

theorem modPath (s : State) (i : Fin 64) (f : Path → Path) : s.KeepsLight (s.modPath i f) :=
  ⟨rfl, rfl, rfl, fun _ h => h, fun _ => rfl⟩

theorem meshOut (s : State) (k : PathKind) (p : PathPkt) : s.KeepsLight (s.meshOut k p) :=
  ⟨rfl, rfl, rfl, fun _ h => h, fun _ => rfl⟩

theorem foldl {α : Type} (f : State → α → State) (h : ∀ (s : State) (a : α), s.KeepsLight (f s a)) (l : List α) :
    ∀ s : State, s.KeepsLight (l.foldl f s) := by
  induction l with
  | nil => exact refl
  | cons a l ih => exact fun s => (h s a).trans (ih _)

theorem of_pumps (h : s.Pumps t) : s.KeepsLight t := by
  obtain ⟨hdies, hmem, _, _, hcycle, _⟩ := h.sends.frame
  refine ⟨hdies, hmem, hcycle, h.agenda, fun p => ?_⟩
  rw [h.ports p]
  rfl

theorem toElem (s : State) (k : PathKind) (p : PathPkt) (i : Nat) (stops : Bool) : s.KeepsLight (s.toElem k p i stops) := by
  unfold State.toElem
  split
  · exact schedLater _ _ _
  · split
    · exact refl s
    · split
      · exact schedLater _ _ _
      · exact meshOut _ _ _

theorem pathState (s : State) (i : Fin 64) (st : Fin 7) (timer : Option (Instr × Nat)) : s.KeepsLight (s.pathState i st timer) := by
  unfold State.pathState
  dsimp only
  cases timer with
  | none => exact (modPath s i _).trans (takeFresh _)
  | some a => exact ((modPath s i _).trans (sched _ _ _ _)).trans (takeFresh _)

theorem tearPath (s : State) (i : Fin 64) : s.KeepsLight (s.tearPath i) := (toElem s _ _ _ _).trans (pathState _ _ _ _)

theorem portDown (s : State) (p : PortId) : s.KeepsLight (s.portDown p) := by
  refine (modPort s p Port.linkReset rfl).trans (foldl _ (fun s i => ?_) _ _)
  split
  · exact tearPath s i
  · exact refl s

theorem lightChanged (s : State) (p : PortId) (was : Bool) : s.KeepsLight (s.lightChanged p was) := by
  unfold State.lightChanged
  dsimp only
  split
  · exact portDown s p
  · refine KeepsLight.trans ?_ ((of_pumps (.pump _ p)).trans (wake _ p))
    split
    · exact schedOnce _ _ _ _
    · exact refl s

theorem mayLight (s : State) (p : PortId) : s.KeepsLight (s.mayLight p) := by
  unfold State.mayLight
  split
  · refine foldl _ (fun s i => ?_) _ _
    split
    · exact schedLater _ _ _
    · exact refl s
  · exact refl s

/-- The fields of a port's light. -/
theorem fields (h : s.KeepsLight t) (p : PortId) : (t.port p).lit = (s.port p).lit ∧ (t.port p).rxLit = (s.port p).rxLit
    ∧ (t.port p).relocking = (s.port p).relocking ∧ (t.port p).rxRelocking = (s.port p).rxRelocking
    ∧ (t.port p).locking = (s.port p).locking ∧ (t.port p).failed = (s.port p).failed
    ∧ (t.port p).relocks = (s.port p).relocks ∧ ∀ l, (t.port p).darkSince l = (s.port p).darkSince l := by
  have hl := h.light p
  exact ⟨(congrArg Port.lit hl :), (congrArg Port.rxLit hl :), (congrArg Port.relocking hl :),
    (congrArg Port.rxRelocking hl :), (congrArg Port.locking hl :), (congrArg Port.failed hl :),
    (congrArg Port.relocks hl :), fun l => (congrArg (fun q : Port => q.darkSince l) hl :)⟩

end State.KeepsLight

/-! ### Wavelengths -/

theorem natBit_toNat (v : BitVec 8) (i : Nat) : natBit v.toNat i = v.getLsbD i := natBit_eq _ _

theorem getLsbD_withBit (v : BitVec 8) (i : Fin 8) (b : Bool) (j : Fin 8) :
    (withBit v i b).getLsbD j.val = if i = j then b else v.getLsbD j.val := by
  have hbit : (1 <<< i.val : BitVec 8).getLsbD j.val = decide (i = j) := by
    clear v b
    revert i j
    decide
  unfold withBit
  cases b
  · simp only [Bool.false_eq_true, if_false, BitVec.getLsbD_and, BitVec.getLsbD_not, hbit, j.isLt, decide_true, Bool.true_and]
    by_cases h : i = j <;> simp [h]
  · simp only [if_true, BitVec.getLsbD_or, hbit]
    by_cases h : i = j <;> simp [h]

theorem withBit_self (v : BitVec 8) (i : Fin 8) (b : Bool) : (withBit v i b).getLsbD i.val = b := by
  rw [getLsbD_withBit, if_pos rfl]

/-- A wavelength that is no longer marked is not dark. -/
theorem darkSince_filter (q : Port) (l : Fin 8) :
    ({ q with darkAt := q.darkAt.filter fun e => e.1 != l } : Port).darkSince l = none := by
  unfold Port.darkSince
  rw [Option.map_eq_none_iff, List.find?_eq_none]
  intro e he
  have hne : (e.1 != l) = true := (List.mem_filter.mp he).2
  rw [beq_iff_eq]
  exact bne_iff_ne.mp hne

/-- A wavelength that goes dark is marked, and its retirement stands on the agenda unless it was dark before. -/
theorem State.goesDark_spec (s : State) (p : PortId) (l : Fin 8) :
    let t := s.goesDark p l
    t.dies = s.dies ∧ t.mem = s.mem ∧ t.cycle = s.cycle ∧ ((t.port p).darkSince l).isSome = true
      ∧ (∃ m, t.port p = { s.port p with darkAt := m })
      ∧ ((s.port p).darkSince l = none → { due := s.cycle + 40001, act := .wavelengthRetire
                                           arg := { port := p, lam := l, id := s.cycle } } ∈ t.agenda) := by
  intro t
  by_cases h : ((s.port p).darkSince l).isSome = true
  · have ht : t = s := if_pos h
    rw [ht]
    refine ⟨rfl, rfl, rfl, h, ⟨_, rfl⟩, fun hn => ?_⟩
    rw [hn] at h
    exact absurd h Bool.false_ne_true
  · have ht : t = (s.modPort p fun q => { q with darkAt := (l, s.cycle) :: q.darkAt }).sched (s.cycle + us20 + 1)
        .wavelengthRetire { port := p, lam := l, id := s.cycle } := if_neg h
    have hp : t.port p = { s.port p with darkAt := (l, s.cycle) :: (s.port p).darkAt } := by
      rw [ht]
      exact s.port_modPort p _
    refine ⟨?_, ?_, ?_, ?_, ⟨_, hp⟩, fun _ => ?_⟩
    · rw [ht]; rfl
    · rw [ht]; rfl
    · rw [ht]; rfl
    · rw [hp]
      simp [Port.darkSince]
    · rw [ht, State.sched_agenda]
      exact List.mem_append_right _ (List.mem_singleton.mpr rfl)

end Sys2Proof.Machine
end

