-- ==== Sys2Proof/Proofs/LightSteps.lean ====
section
/-! PROOFS. The steps of one wavelength: relocks, losses and retirement (R403, R405, R406). -/

namespace Sys2Proof.Machine

variable {s : State}

/-- A port after one wavelength of a direction stops. -/
theorem Port.stops_lit (q : Port) (rx : Bool) (l : Fin 8) (b : Bool) :
    (q.stops rx l b).lit = (if rx then q.lit else withBit q.lit l false)
    ∧ (q.stops rx l b).rxLit = (if rx then withBit q.rxLit l false else q.rxLit)
    ∧ (if rx then (q.stops rx l b).rxRelocking else (q.stops rx l b).relocking).getLsbD l.val = b := by
  cases rx
  · exact ⟨rfl, rfl, withBit_self _ _ _⟩
  · exact ⟨rfl, rfl, withBit_self _ _ _⟩

theorem Port.stops_relocks (q : Port) (rx : Bool) (l : Fin 8) (b : Bool) : (q.stops rx l b).relocks = q.relocks := by
  cases rx <;> rfl

theorem Port.stops_dark (q : Port) (rx : Bool) (l : Fin 8) (b : Bool) (m : Fin 8) :
    (q.stops rx l b).darkSince m = q.darkSince m := by
  cases rx <;> rfl

/-- A wavelength in use that relocks: it is dark and counted. -/
theorem State.ringRelockStart_lit (h : natBit (if s.ev.arr then (s.port s.ev.port).rxLit else (s.port s.ev.port).lit).toNat
      s.ev.lam.val = true) :
    let p := s.ev.port
    let l := s.ev.lam
    let q := s.port p
    let rx := s.ev.arr
    ∃ t, exec .ringRelockStart s = .next t ∧ (t.dies = s.dies ∧ t.mem = s.mem) ∧ (t.port p).relocks = satInc q.relocks
      ∧ (t.port p).lit = (if rx then q.lit else withBit q.lit l false)
      ∧ (t.port p).rxLit = (if rx then withBit q.rxLit l false else q.rxLit)
      ∧ (if rx then (t.port p).rxRelocking else (t.port p).relocking).getLsbD l.val = true
      ∧ ((t.port p).darkSince l).isSome = true
      ∧ (q.darkSince l = none → ∃ e ∈ t.agenda, e.act = .wavelengthRetire ∧ e.arg.port = p ∧ e.arg.lam = l
          ∧ e.arg.id = s.cycle ∧ e.due = s.cycle + 40001) := by
  intro p l q rx
  let f : Port → Port := fun q =>
    let q := q.stops rx l true
    { q with relocks := satInc q.relocks
             relockLog := (l, (s.goesDark p l).cycle) :: q.relockLog.filter fun e => decide ((s.goesDark p l).cycle < e.2 + oneSecond) }
  let u := (s.goesDark p l).modPort p f
  let v := if 3 ≤ ((u.port p).relockLog.filter fun e => e.1 == l).length then
      u.sched u.cycle .wavelengthRetire { port := p, lam := l, id := ((u.port p).darkSince l).getD u.cycle } else u
  have hstep : exec .ringRelockStart s = .next (v.lightChanged p q.up) := by
    refine congrArg Host.Outcome.next (if_neg ?_)
    rw [h]
    decide
  obtain ⟨hdies, hmem, _, hdark, ⟨m, hport⟩, hagenda⟩ := s.goesDark_spec p l
  have huv : u.KeepsLight v := by
    unfold v
    split
    · exact .sched _ _ _ _
    · exact .refl u
  have hk : u.KeepsLight (v.lightChanged p q.up) := huv.trans (.lightChanged v p q.up)
  obtain ⟨h1, h2, h3, h4, _, _, h7, h8⟩ := hk.fields p
  have hup : u.port p = f { q with darkAt := m } := by
    rw [show u.port p = f ((s.goesDark p l).port p) from State.port_modPort _ _ _, hport]
  obtain ⟨e1, e2, e3⟩ := Port.stops_lit { q with darkAt := m } rx l true
  refine ⟨_, hstep, ⟨hk.dies.trans hdies, hk.mem.trans hmem⟩, ?_, ?_, ?_, ?_, ?_, fun hn => ?_⟩
  · rw [h7, hup]
    exact congrArg satInc (Port.stops_relocks _ rx l true)
  · rw [h1, hup]
    exact e1
  · rw [h2, hup]
    exact e2
  · rw [h4, h3, hup]
    exact e3
  · rw [h8, hup]
    have hs : (f { q with darkAt := m }).darkSince l = ({ q with darkAt := m } : Port).darkSince l := Port.stops_dark _ rx l true l
    rw [hs, ← hport]
    exact hdark
  · exact ⟨_, hk.agenda _ (hagenda hn), rfl, rfl, rfl, rfl, rfl⟩

/-- What a port that takes a wavelength into use has. -/
theorem Port.takes_spec (q : Port) (rx : Bool) (l : Fin 8) :
    (if rx then (q.takes rx l).rxLit else (q.takes rx l).lit).getLsbD l.val = true
    ∧ ((if rx then q.lit else q.rxLit).getLsbD l.val = true → (q.takes rx l).darkSince l = none
      ∧ ¬ (q.takes rx l).locking.getLsbD l.val = true) := by
  have hset : ∀ k : Port, (({ k with
      locking := withBit k.locking l false, darkAt := k.darkAt.filter fun e => e.1 != l } : Port).darkSince l = none)
      ∧ ¬ (withBit k.locking l false).getLsbD l.val = true := fun k =>
    ⟨darkSince_filter { k with locking := withBit k.locking l false } l, by rw [withBit_self]; decide⟩
  unfold Port.takes
  dsimp only
  cases rx
  · simp only [Bool.false_eq_true, if_false]
    have hin : (withBit q.lit l true &&& q.rxLit).getLsbD l.val = q.rxLit.getLsbD l.val := by
      rw [BitVec.getLsbD_and, withBit_self, Bool.true_and]
    rw [natBit_toNat]
    unfold Port.inUse
    dsimp only
    rw [hin]
    split
    · exact ⟨withBit_self _ _ _, fun _ => hset _⟩
    · next hn => exact ⟨withBit_self _ _ _, fun hy => absurd hy hn⟩
  · simp only [if_true]
    have hin : (q.lit &&& withBit q.rxLit l true).getLsbD l.val = q.lit.getLsbD l.val := by
      rw [BitVec.getLsbD_and, withBit_self, Bool.and_true]
    rw [natBit_toNat]
    unfold Port.inUse
    dsimp only
    rw [hin]
    split
    · exact ⟨withBit_self _ _ _, fun _ => hset _⟩
    · next hn => exact ⟨withBit_self _ _ _, fun hy => absurd hy hn⟩

/-- The end of a relock: a wavelength that locks or is dark, and is not retired, is taken into use. -/
theorem State.exec_ringRelockEnd (s : State) : exec .ringRelockEnd s = .next (
    if (s.port s.ev.port).enable = true ∧ ((s.port s.ev.port).locking.getLsbD s.ev.lam.val = true
        ∨ ((s.port s.ev.port).darkSince s.ev.lam).isSome = true) ∧ ¬ (s.port s.ev.port).failed.getLsbD s.ev.lam.val = true then
      ((s.modPort s.ev.port fun q => q.takes s.ev.arr s.ev.lam).lightChanged s.ev.port (s.port s.ev.port).up).mayLight s.ev.port
    else s) := by
  refine congrArg Host.Outcome.next (if_congr ?_ rfl rfl)
  simp only [natBit_toNat, Bool.and_eq_true, Bool.or_eq_true, Bool.not_eq_true', Bool.not_eq_true, and_assoc]

/-- A wavelength that the receiver loses. -/
theorem State.wavelengthSignalLoss_lit
    (h : natBit ((s.port s.ev.port).rxLit ||| (s.port s.ev.port).rxRelocking).toNat s.ev.lam.val = true) :
    let p := s.ev.port
    let l := s.ev.lam
    let q := s.port p
    ∃ t, exec .wavelengthSignalLoss s = .next t ∧ (t.dies = s.dies ∧ t.mem = s.mem)
      ∧ (t.port p).rxLit = withBit q.rxLit l false ∧ (t.port p).rxRelocking = withBit q.rxRelocking l s.ev.flag
      ∧ ((t.port p).darkSince l).isSome = true := by
  intro p l q
  let u := (s.goesDark p l).modPort p fun q => q.stops true l s.ev.flag
  have hstep : exec .wavelengthSignalLoss s = .next (u.lightChanged p q.up) := by
    refine congrArg Host.Outcome.next (if_neg ?_)
    rw [h]
    decide
  obtain ⟨hdies, hmem, _, hdark, ⟨m, hport⟩, _⟩ := s.goesDark_spec p l
  have hk : u.KeepsLight (u.lightChanged p q.up) := .lightChanged u p q.up
  obtain ⟨_, h2, _, h4, _, _, _, h8⟩ := hk.fields p
  have hup : u.port p = ({ q with darkAt := m } : Port).stops true l s.ev.flag := by
    rw [show u.port p = ((s.goesDark p l).port p).stops true l s.ev.flag from State.port_modPort _ _ _, hport]
  refine ⟨_, hstep, ⟨hk.dies.trans hdies, hk.mem.trans hmem⟩, ?_, ?_, ?_⟩
  · rw [h2, hup]; rfl
  · rw [h4, hup]; rfl
  · rw [h8, hup, Port.stops_dark, ← hport]
    exact hdark

/-- A wavelength dark too long is retired. -/
theorem State.wavelengthRetire_dark (h : (s.port s.ev.port).darkSince s.ev.lam = some s.ev.id) :
    let p := s.ev.port
    let l := s.ev.lam
    let q := s.port p
    ∃ t, exec .wavelengthRetire s = .next t ∧ (t.dies = s.dies ∧ t.mem = s.mem)
      ∧ (t.port p).failed = withBit q.failed l true ∧ (t.port p).lit = withBit q.lit l false
      ∧ (t.port p).rxLit = withBit q.rxLit l false ∧ (t.port p).darkSince l = none := by
  intro p l q
  let f : Port → Port := fun q =>
    let q := (q.stops true l false).stops false l false
    { q with failed := withBit q.failed l true, locking := withBit q.locking l false
             darkAt := q.darkAt.filter fun e => e.1 != l }
  let u := s.modPort p f
  have hstep : exec .wavelengthRetire s = .next (u.lightChanged p q.up) :=
    congrArg Host.Outcome.next (if_neg fun hn => hn h)
  have hk : u.KeepsLight (u.lightChanged p q.up) := .lightChanged u p q.up
  obtain ⟨h1, h2, _, _, _, h6, _, h8⟩ := hk.fields p
  have hup : u.port p = f q := State.port_modPort _ _ _
  refine ⟨_, hstep, ⟨hk.dies, hk.mem⟩, ?_, ?_, ?_, ?_⟩
  · rw [h6, hup]; rfl
  · rw [h1, hup]; rfl
  · rw [h2, hup]; rfl
  · rw [h8, hup]
    exact darkSince_filter ({ (q.stops true l false).stops false l false with
      failed := withBit q.failed l true, locking := withBit q.locking l false } : Port) l

end Sys2Proof.Machine
end

