-- ==== Sys2Proof/Proofs/PathPackets.lean ====
section
/-! PROOFS. The packets of photonic paths: where they go, and what switch elements and targets do with them (R407, R408). -/

namespace Sys2Proof.Machine

variable {s t u : State}

/-! ### What passing packets keeps -/

/-- A later state of the same cycle with the same reservations, connections and paths, whose agenda holds what it held. -/
structure State.Passes (s t : State) : Prop where
  dies : t.dies = s.dies
  mem : t.mem = s.mem
  panel : t.panel = s.panel
  cycle : t.cycle = s.cycle
  agenda : ∀ e ∈ s.agenda, e ∈ t.agenda
  reserve : t.fabric.reserve = s.fabric.reserve
  switch : t.fabric.switch = s.fabric.switch
  paths : t.fabric.paths = s.fabric.paths
  origin : t.fabric.panel = s.fabric.panel

namespace State.Passes

theorem refl (s : State) : s.Passes s := ⟨rfl, rfl, rfl, rfl, fun _ h => h, rfl, rfl, rfl, rfl⟩

theorem trans (h : s.Passes t) (k : t.Passes u) : s.Passes u :=
  ⟨k.dies.trans h.dies, k.mem.trans h.mem, k.panel.trans h.panel, k.cycle.trans h.cycle,
    fun e he => k.agenda e (h.agenda e he), k.reserve.trans h.reserve, k.switch.trans h.switch, k.paths.trans h.paths,
    k.origin.trans h.origin⟩

theorem modPort (s : State) (p : PortId) (f : Port → Port) : s.Passes (s.modPort p f) :=
  ⟨rfl, rfl, rfl, rfl, fun _ h => h, rfl, rfl, rfl, rfl⟩

theorem sched (s : State) (n : Nat) (a : Instr) (e : EvArg) : s.Passes (s.sched n a e) :=
  ⟨rfl, rfl, rfl, rfl, fun _ h => List.mem_append_left _ h, rfl, rfl, rfl, rfl⟩

theorem schedLater (s : State) (a : Instr) (e : EvArg) : s.Passes (s.schedLater a e) :=
  ⟨rfl, rfl, rfl, rfl, fun _ h => List.mem_append_left _ h, rfl, rfl, rfl, rfl⟩

theorem takeFresh (s : State) : s.Passes s.takeFresh := ⟨rfl, rfl, rfl, rfl, fun _ h => h, rfl, rfl, rfl, rfl⟩

theorem meshOut (s : State) (k : PathKind) (p : PathPkt) : s.Passes (s.meshOut k p) :=
  ⟨rfl, rfl, rfl, rfl, fun _ h => h, rfl, rfl, rfl, rfl⟩

theorem foldl {α : Type} (f : State → α → State) (h : ∀ (s : State) (a : α), s.Passes (f s a)) (l : List α) :
    ∀ s : State, s.Passes (l.foldl f s) := by
  induction l with
  | nil => exact refl
  | cons a l ih => exact fun s => (h s a).trans (ih _)

theorem toElem (s : State) (k : PathKind) (p : PathPkt) (i : Nat) (stops : Bool) : s.Passes (s.toElem k p i stops) := by
  unfold State.toElem
  split
  · exact schedLater _ _ _
  · split
    · exact refl s
    · split
      · exact schedLater _ _ _
      · exact meshOut _ _ _

theorem backElem (s : State) (k : PathKind) (p : PathPkt) (i : Nat) : s.Passes (s.backElem k p i) := by
  unfold State.backElem
  split
  · split
    · exact schedLater _ _ _
    · exact refl s
  · split
    · exact schedLater _ _ _
    · exact meshOut _ _ _

theorem lockLight (s : State) (p : PortId) : s.Passes (s.lockLight p) := by
  refine foldl _ (fun s l => ?_) _ s
  unfold State.lockLam
  split
  · exact refl s
  · exact ((modPort s p _).trans (schedLater _ _ _)).trans (schedLater _ _ _)

theorem darken (s : State) (p : PortId) : s.Passes (s.darken p) := modPort s p _

end State.Passes

/-- A packet of a path goes to an element in a later cycle. -/
def State.Goes (s t : State) (a : Instr) (el : BitVec 24) (k : PathPkt) : Prop :=
  ∃ r ∈ t.agenda, r.act = a ∧ r.arg.elem = el ∧ r.arg.pkt = k ∧ s.cycle < r.due

theorem State.schedLater_goes (s : State) (a : Instr) (e : EvArg) : s.Goes (s.schedLater a e) a e.elem e.pkt := by
  have hlt : s.cycle < s.cycle + 1 + Config.delay s.freeCtr := by omega
  generalize hd : s.cycle + 1 + Config.delay s.freeCtr = d at hlt
  have hmem : { due := d, act := a, arg := e } ∈ (s.schedLater a e).agenda := by
    rw [← hd]
    exact List.mem_append_right _ (List.mem_singleton.mpr rfl)
  exact ⟨_, hmem, rfl, rfl, rfl, hlt⟩

theorem State.Goes.later {a : Instr} {el : BitVec 24} {k : PathPkt} (hc : t.cycle = s.cycle) (h : t.Goes u a el k) :
    s.Goes u a el k := by
  unfold State.Goes at h ⊢
  rw [← hc]
  exact h

/-- A packet that goes on goes to the element at its place, where one stands there. -/
theorem State.toElem_goes (s : State) (k : PathKind) (p : PathPkt) (i : Nat) (stops : Bool)
    {n : BitVec 24 × BitVec 20 × BitVec 20} (h : p.elems[i]? = some n) : s.Goes (s.toElem k p i stops) k.act n.1 p := by
  unfold State.toElem
  rw [h]
  exact s.schedLater_goes _ _

/-- An answer goes back to the element before its place. -/
theorem State.backElem_goes (s : State) (k : PathKind) (p : PathPkt) (j : Nat)
    {n : BitVec 24 × BitVec 20 × BitVec 20} (h : p.elems[j]? = some n) : s.Goes (s.backElem k p (j + 1)) k.act n.1 p := by
  unfold State.backElem
  dsimp only
  rw [h]
  exact s.schedLater_goes _ _

/-! ### SETUP -/

/-- The state in which an element has reserved its ports for a path, set its switch and started its time for ACK. -/
def State.reserved (s : State) (p : PathPkt) (e : BitVec 24) (io : BitVec 20 × BitVec 20) : State :=
  (s.modFabric fun b =>
    let b := (b.freeElem e p).setSwitch e io
    { b with reserve := { elem := e, path := p.path, origin := p.origin, inPort := io.1, outPort := io.2, held := false
                          id := s.fresh } :: b.reserve }).takeFresh.sched (s.cycle + ms10) .reservationTimeout { id := s.fresh }

theorem State.reserved_agenda (s : State) (p : PathPkt) (e : BitVec 24) (io : BitVec 20 × BitVec 20) :
    { due := s.cycle + 20000000, act := .reservationTimeout, arg := { id := s.fresh } } ∈ (s.reserved p e io).agenda := by
  rw [← show ms10 = 20000000 from rfl]
  exact List.mem_append_right _ (List.mem_singleton.mpr rfl)

/-- An element whose ports are not taken reserves them, sets its switch and passes the SETUP on. -/
theorem State.setupAt_free (s : State) {p : PathPkt} {e : BitVec 24} {k : Nat} {io : BitVec 20 × BitVec 20}
    (hk : pktPlace p e = some k) (hio : p.elems[k]?.map (·.2) = some io)
    (ht : (s.fabric.portTaken e io.1 p || s.fabric.portTaken e io.2 p) = false) :
    s.setupAt p e = (s.reserved p e io).toElem .setup p (k + 1) false := by
  have hports : pktPorts p k = io := by
    unfold pktPorts
    exact congrArg (·.getD (0, 0)) hio
  unfold State.setupAt
  rw [hk]
  dsimp only
  rw [hports, ht]
  rfl

theorem State.reserved_frame (s : State) (p : PathPkt) (e : BitVec 24) (io : BitVec 20 × BitVec 20) :
    (s.reserved p e io).dies = s.dies ∧ (s.reserved p e io).mem = s.mem ∧ (s.reserved p e io).panel = s.panel := by
  unfold State.reserved
  refine ⟨?_, ?_, ?_⟩
  · rw [State.sched_dies, State.takeFresh_dies, State.modFabric_dies]
  · rw [State.sched_mem, State.takeFresh_mem, State.modFabric_mem]
  · rw [State.sched_panel, State.takeFresh_panel, State.modFabric_panel]

theorem State.reserved_passes (s : State) {p : PathPkt} {e : BitVec 24} {io : BitVec 20 × BitVec 20} {t : State}
    (h : (s.reserved p e io).Passes t) : (t.dies = s.dies ∧ t.mem = s.mem ∧ t.panel = s.panel) ∧ (e, io.1, io.2) ∈ t.fabric.switch
      ∧ ∃ r ∈ t.fabric.reserve, r.elem = e ∧ r.path = p.path ∧ r.origin = p.origin ∧ r.inPort = io.1 ∧ r.outPort = io.2
          ∧ r.held = false ∧ { due := s.cycle + 20000000, act := .reservationTimeout, arg := { id := r.id } } ∈ t.agenda := by
  have hsw : (e, io.1, io.2) ∈ (s.reserved p e io).fabric.switch := List.mem_cons_self ..
  have hres : { elem := e, path := p.path, origin := p.origin, inPort := io.1, outPort := io.2, held := false
                id := s.fresh } ∈ (s.reserved p e io).fabric.reserve := List.mem_cons_self ..
  obtain ⟨h1, h2, h3⟩ := s.reserved_frame p e io
  rw [← h.switch] at hsw
  rw [← h.reserve] at hres
  exact ⟨⟨h.dies.trans h1, h.mem.trans h2, h.panel.trans h3⟩, hsw, _, hres, rfl, rfl, rfl, rfl, rfl, rfl, h.agenda _ (s.reserved_agenda p e io)⟩

/-- An element with a port taken by another path answers NAK and changes nothing else. -/
theorem State.setupAt_taken (s : State) {p : PathPkt} {e : BitVec 24} {k : Nat} {io : BitVec 20 × BitVec 20}
    (hk : pktPlace p e = some k) (hio : p.elems[k]?.map (·.2) = some io)
    (ht : (s.fabric.portTaken e io.1 p || s.fabric.portTaken e io.2 p) = true) :
    s.setupAt p e = s.backElem .nak { p with index := k + 1 } k := by
  have hports : pktPorts p k = io := by
    unfold pktPorts
    exact congrArg (·.getD (0, 0)) hio
  unfold State.setupAt
  rw [hk]
  dsimp only
  rw [hports, ht]
  rfl

/-- The end ports at which a target can take a path. -/
def State.targetEnds (s : State) (p : PathPkt) : List PortId := (List.finRange 576).filter fun i =>
  let q := s.port i
  q.enable && q.role == 3 && q.path == p.path && q.peer == p.origin && !q.up

theorem State.mem_targetEnds (s : State) (p : PathPkt) (i : PortId) : i ∈ s.targetEnds p ↔ (s.port i).enable = true
    ∧ (s.port i).role = 3 ∧ (s.port i).path = p.path ∧ (s.port i).peer = p.origin ∧ (s.port i).up = false := by
  unfold State.targetEnds
  simp only [List.mem_filter, List.mem_finRange, true_and, Bool.and_eq_true, beq_iff_eq, Bool.not_eq_true', and_assoc]

/-- A target answers by its free end ports. -/
theorem State.targetAnswers_eq (s : State) (p : PathPkt) : s.targetAnswers p = if (s.targetEnds p).isEmpty = true then
    s.backElem .nak { p with index := p.elems.length + 1 } p.elems.length
    else ((s.targetEnds p).foldl (fun s i => s.lockLight i) s).backElem .ack p p.elems.length := rfl

/-- A target with an end port that is free answers ACK. -/
theorem State.targetAnswers_ack (s : State) {p : PathPkt} {j : Nat} {n : BitVec 24 × BitVec 20 × BitVec 20}
    (hl : p.elems.length = j + 1) (hn : p.elems[j]? = some n) {i : PortId} (hi : i ∈ s.targetEnds p) :
    s.Passes (s.targetAnswers p) ∧ s.Goes (s.targetAnswers p) .ack n.1 p := by
  have hne : (s.targetEnds p).isEmpty = false := by
    cases h : s.targetEnds p with
    | nil => rw [h] at hi; exact absurd hi (List.not_mem_nil)
    | cons a l => rfl
  let u := (s.targetEnds p).foldl (fun s i => s.lockLight i) s
  have ht : s.targetAnswers p = u.backElem .ack p (j + 1) := by
    have hnot : ¬ (s.targetEnds p).isEmpty = true := by rw [hne]; decide
    rw [s.targetAnswers_eq, if_neg hnot, hl]
  have hu : s.Passes u := .foldl _ (fun s i => .lockLight s i) _ s
  rw [ht]
  exact ⟨hu.trans (.backElem u _ p _), (u.backElem_goes .ack p j hn).later hu.cycle⟩

/-- A target without one answers NAK, with an index beyond its elements. -/
theorem State.targetAnswers_nak (s : State) {p : PathPkt} {j : Nat} {n : BitVec 24 × BitVec 20 × BitVec 20}
    (hl : p.elems.length = j + 1) (hn : p.elems[j]? = some n) (hi : ∀ i, i ∉ s.targetEnds p) :
    s.Passes (s.targetAnswers p) ∧ s.Goes (s.targetAnswers p) .nak n.1 { p with index := j + 2 } := by
  have ht : s.targetAnswers p = s.backElem .nak { p with index := j + 2 } (j + 1) := by
    have hemp : (s.targetEnds p).isEmpty = true := by
      rw [List.eq_nil_iff_forall_not_mem.mpr hi]
      rfl
    rw [s.targetAnswers_eq, if_pos hemp, hl]
  rw [ht]
  exact ⟨.backElem s _ _ _, s.backElem_goes .nak _ j hn⟩

/-! ### TEAR -/

theorem State.port_darken (s : State) (p q : PortId) :
    (s.darken p).port q = if p = q then (s.port q).linkReset.unlit else s.port q := by
  by_cases h : p = q
  · subst h
    rw [if_pos rfl]
    exact s.port_modPort p _
  · rw [if_neg h]
    exact s.port_modPort_other _ h

/-- Ports that go dark one after the other. -/
theorem State.port_darkenAll (l : List PortId) (q : PortId) : ∀ s : State, q ∈ l →
    ∃ k : Port, (l.foldl (fun s i => s.darken i) s).port q = k.linkReset.unlit := by
  induction l with
  | nil => exact fun _ h => absurd h List.not_mem_nil
  | cons a l ih =>
    intro s h
    by_cases hq : q ∈ l
    · exact ih (s.darken a) hq
    · have ha : a = q := ((List.mem_cons.mp h).resolve_right hq).symm
      refine ⟨s.port q, ?_⟩
      have hkeep : ∀ (m : List PortId) (u : State), q ∉ m → (m.foldl (fun s i => s.darken i) u).port q = u.port q := by
        intro m
        induction m with
        | nil => exact fun _ _ => rfl
        | cons b m ihm =>
          intro u hm
          rw [List.foldl_cons, ihm _ fun hmem => hm (List.mem_cons_of_mem _ hmem), u.port_darken,
            if_neg fun hbq : b = q => hm (hbq ▸ List.mem_cons_self ..)]
      rw [List.foldl_cons, hkeep l _ hq, s.port_darken, if_pos ha]

/-- The ports of a target that end a path. -/
def State.tearEnds (s : State) (p : PathPkt) : List PortId := (List.finRange 576).filter fun i =>
  let q := s.port i
  q.role == 3 && q.path == p.path && q.peer == p.origin

theorem State.mem_tearEnds (s : State) (p : PathPkt) (i : PortId) : i ∈ s.tearEnds p ↔
    (s.port i).role = 3 ∧ (s.port i).path = p.path ∧ (s.port i).peer = p.origin := by
  unfold State.tearEnds
  simp only [List.mem_filter, List.mem_finRange, true_and, Bool.and_eq_true, beq_iff_eq, and_assoc]

end Sys2Proof.Machine
end

