-- ==== Sys2Proof/Proofs/PhotonicSteps.lean ====
section
/-! PROOFS. The originator of a photonic path, and the steps of the light and of the paths as a whole (R403 to R409). -/

namespace Sys2Proof.Machine

variable {s t u : State}

/-! ### The originator -/

theorem ms10_eq : ms10 = 20000000 := rfl

theorem ms1_eq : ms1 = 2000000 := rfl

theorem us10_eq : us10 = 20000 := rfl

/-- A timer of a path that runs for some cycles. -/
def State.Timed (s t : State) (i : Fin 64) (n : Nat) (a : Instr) : Prop :=
  { due := s.cycle + n, act := a, arg := { path := i, id := t.fabric.paths[i].timer } } ∈ t.agenda

/-- A path goes into a state, with a timer or none, and neither dies nor memory change. -/
structure State.PathInto (s t : State) (i : Fin 64) (st : Fin 7) (timer : Option (Instr × Nat)) : Prop where
  dies : t.dies = s.dies
  mem : t.mem = s.mem
  panel : t.panel = s.panel
  path : ∃ n, t.fabric.paths[i] = { s.fabric.paths[i] with state := st, timer := n }
  timed : ∀ a n, timer = some (a, n) → s.Timed t i n a

theorem State.PathInto.state {i : Fin 64} {st : Fin 7} {timer : Option (Instr × Nat)} (h : s.PathInto t i st timer) :
    t.fabric.paths[i].state = st := by
  obtain ⟨n, hp⟩ := h.path
  rw [hp]

theorem State.PathInto.after {i : Fin 64} {st : Fin 7} {timer : Option (Instr × Nat)} (k : s.Passes u)
    (h : u.PathInto t i st timer) : s.PathInto t i st timer := by
  refine ⟨h.dies.trans k.dies, h.mem.trans k.mem, h.panel.trans k.panel, ?_, fun a n hn => ?_⟩
  · rw [← k.paths]
    exact h.path
  · have hu := h.timed a n hn
    unfold State.Timed at hu ⊢
    rw [← k.cycle]
    exact hu

theorem State.pathState_into (s : State) (i : Fin 64) (st : Fin 7) (timer : Option (Instr × Nat)) :
    s.PathInto (s.pathState i st timer) i st timer := by
  have hpath := s.path_modPath i fun h => { h with state := st, timer := s.fresh }
  cases timer with
  | none => exact ⟨rfl, rfl, rfl, ⟨s.fresh, hpath⟩, fun _ _ h => nomatch h⟩
  | some a =>
    obtain ⟨a, n⟩ := a
    have hk : (s.pathState i st (some (a, n))).fabric.paths[i] = { s.fabric.paths[i] with state := st, timer := s.fresh } :=
      hpath
    refine ⟨rfl, rfl, rfl, ⟨s.fresh, hk⟩, fun b m h => ?_⟩
    cases h
    unfold State.Timed
    rw [hk]
    exact List.mem_append_right _ (List.mem_singleton.mpr rfl)

/-- A path that sends SETUP is Setting, and waits for the answer. -/
theorem State.sendSetup_into (s : State) (i : Fin 64) : s.PathInto (s.sendSetup i) i 1 (some (.setupTimeout, ms10)) :=
  .after (.toElem s _ _ _ _) (State.pathState_into _ _ _ _)

theorem State.tearPath_into (s : State) (i : Fin 64) : s.PathInto (s.tearPath i) i 5 (some (.tearingTimeout, ms10)) :=
  .after (.toElem s _ _ _ _) (State.pathState_into _ _ _ _)

theorem State.pathIdle_into (s : State) (i : Fin 64) : s.PathInto (s.pathIdle i) i 0 none :=
  .after (.foldl _ (fun s p => .darken s p) _ s) (State.pathState_into _ _ _ _)

/-- What a path that backs off leaves (R409). -/
structure State.BacksOff (s t : State) (i : Fin 64) : Prop where
  dies : t.dies = s.dies
  mem : t.mem = s.mem
  waits : s.fabric.paths[i].attempts < 7 →
    t.fabric.paths[i].state = 2 ∧ s.Timed t i (2 ^ s.fabric.paths[i].attempts * us10) .backOffExpiry
  fails : 7 ≤ s.fabric.paths[i].attempts →
    t.fabric.paths[i].state = 6 ∧ t.panel.notices = s.panel.notices ++ [.pathFailed i]

theorem State.backOff_backs (s : State) (i : Fin 64) (p : PathPkt) (stops : Bool) : s.BacksOff (s.backOff i p stops) i := by
  have hp : s.Passes ((s.endPorts i).foldl (fun s q => s.darken q) (s.sendTear p stops)) :=
    (State.Passes.toElem s .tear p 0 stops).trans (.foldl _ (fun s q => .darken s q) _ _)
  generalize hu : (s.endPorts i).foldl (fun s q => s.darken q) (s.sendTear p stops) = u at hp
  have hb : s.backOff i p stops = if 7 ≤ s.fabric.paths[i].attempts then (u.pathState i 6 none).notify (.pathFailed i)
      else u.pathState i 2 (some (.backOffExpiry, 2 ^ s.fabric.paths[i].attempts * us10)) := by
    rw [← hu]
    rfl
  rw [hb]
  by_cases h7 : 7 ≤ s.fabric.paths[i].attempts
  · rw [if_pos h7]
    have hi : s.PathInto (u.pathState i 6 none) i 6 none := .after hp (State.pathState_into u i 6 none)
    refine ⟨hi.dies, hi.mem, fun hlt => absurd h7 (Nat.not_le.mpr hlt), fun _ => ⟨hi.state, ?_⟩⟩
    exact congrArg (fun q : Panel => q.notices ++ [.pathFailed i]) hi.panel
  · rw [if_neg h7]
    have hi := State.PathInto.after hp (State.pathState_into u i 2 (some (.backOffExpiry, 2 ^ s.fabric.paths[i].attempts * us10)))
    exact ⟨hi.dies, hi.mem, fun _ => ⟨hi.state, hi.timed _ _ rfl⟩, fun h => absurd h h7⟩

theorem State.setupAnswered_nak (s : State) {p : PathPkt} {i : Fin 64} (ho : s.ownPath p = some i)
    (h1 : s.fabric.paths[i].state = 1) : s.BacksOff (s.setupAnswered p false) i := by
  have h : s.setupAnswered p false = s.backOff i { s.fabric.paths[i].pkt with
      elems := s.fabric.paths[i].pkt.elems.take (p.index - 1) } true := by
    unfold State.setupAnswered
    rw [ho]
    exact if_neg fun hn => hn h1
  rw [h]
  exact s.backOff_backs i _ true

theorem State.setupAnswered_ack (s : State) {p : PathPkt} {i : Fin 64} (ho : s.ownPath p = some i)
    (h1 : s.fabric.paths[i].state = 1) : s.PathInto (s.setupAnswered p true) i 3 (some (.lightingTimeout, ms1)) := by
  have h : s.setupAnswered p true = (s.endPorts i).foldl (fun s q => s.lockLight q)
      (s.pathState i 3 (some (.lightingTimeout, ms1))) := by
    unfold State.setupAnswered
    rw [ho]
    exact if_neg fun hn => hn h1
  have hi := s.pathState_into i 3 (some (.lightingTimeout, ms1))
  have hp : (s.pathState i 3 (some (.lightingTimeout, ms1))).Passes (s.setupAnswered p true) := by
    rw [h]
    exact .foldl _ (fun s q => .lockLight s q) _ _
  refine ⟨hp.dies.trans hi.dies, hp.mem.trans hi.mem, hp.panel.trans hi.panel, ?_, fun a n hn => ?_⟩
  · rw [hp.paths]
    exact hi.path
  · have hu := hi.timed a n hn
    unfold State.Timed at hu ⊢
    rw [hp.paths]
    exact hp.agenda _ hu

theorem State.pathTimer_iff (s : State) (st : Fin 7) : s.pathTimer st = true ↔
    s.fabric.paths[s.ev.path].state = st ∧ s.fabric.paths[s.ev.path].timer = s.ev.id := by
  unfold State.pathTimer
  rw [Bool.and_eq_true, beq_iff_eq, beq_iff_eq]

end Sys2Proof.Machine
end

