-- ==== Sys2Proof/Proofs/Photonics.lean ====
section
/-! PROOFS. The steps of the light and of the paths as a whole (R403 to R409). -/

namespace Sys2Proof.Machine

variable {s : State}

/-! ### Packets at switch elements and at their ends -/

theorem State.exec_setup {p : PathPkt} (h : s.pathPkt .setup = some p) : exec .setup s = .next (
    if s.ev.flag then s.targetAnswers p
    else if s.lowerSetup p then s.sched s.cycle .setup s.ev
    else s.setupAt p s.ev.elem) := by
  show execSetup s = _
  unfold execSetup
  rw [h]

/-- The mark of a path's reservations at an element. -/
def Reserve.isAt (r : Reserve) (e : BitVec 24) (p : PathPkt) : Bool := r.elem == e && r.path == p.path && r.origin == p.origin

/-- The state in which an element holds its reservations for a path. -/
def State.holds (s : State) (p : PathPkt) : State := s.modFabric fun b =>
  { b with reserve := replaceIf (fun r => r.isAt s.ev.elem p) (fun r => { r with held := true }) b.reserve }

/-- An answer that passes an element goes back to the element before. -/
def State.answers (s : State) (k : PathKind) (p : PathPkt) (e : BitVec 24) : State :=
  match pktPlace p e with
  | some n => s.backElem k p n
  | none => s

theorem State.exec_ack {p : PathPkt} (h : s.pathPkt .ack = some p) : exec .ack s = .next (
    if s.ev.flag then s.setupAnswered p true else (s.holds p).answers .ack p s.ev.elem) := by
  show execAck s = _
  unfold execAck
  rw [h]
  rfl

theorem State.exec_nak {p : PathPkt} (h : s.pathPkt .nak = some p) : exec .nak s = .next (
    if s.ev.flag then s.setupAnswered p false
    else (s.modFabric fun b => b.freeElem s.ev.elem p).answers .nak p s.ev.elem) := by
  show execNak s = _
  unfold execNak
  rw [h]
  rfl

theorem State.answers_passes (u : State) (k : PathKind) (p : PathPkt) (e : BitVec 24) : u.Passes (u.answers k p e) := by
  unfold State.answers
  split
  · exact .backElem u k p _
  · exact .refl u

theorem State.answers_goes (u : State) (k : PathKind) {p : PathPkt} {e : BitVec 24} {j : Nat}
    {n : BitVec 24 × BitVec 20 × BitVec 20} (h : pktPlace p e = some (j + 1)) (hn : p.elems[j]? = some n) :
    u.Goes (u.answers k p e) k.act n.1 p := by
  unfold State.answers
  rw [h]
  exact u.backElem_goes k p j hn

theorem State.exec_tear {p : PathPkt} (h : s.pathPkt .tear = some p) :
    (s.ev.flag = true → exec .tear s
      = .next (((s.tearEnds p).foldl (fun s i => s.darken i) s).backElem .tearAck p p.elems.length))
    ∧ ∀ k, s.ev.flag = false → pktPlace p s.ev.elem = some k → exec .tear s
      = .next ((s.modFabric fun b => (b.freeElem s.ev.elem p).restoreSwitch s.ev.elem (pktPorts p k) p).toElem .tear p (k + 1)
          s.ev.arr) := by
  refine ⟨fun hf => ?_, fun k hf hk => ?_⟩
  · show execTear s = _
    unfold execTear State.tearEnds
    rw [h, hf]
    rfl
  · show execTear s = _
    unfold execTear
    rw [h, hf]
    dsimp only
    rw [hk]
    rfl

theorem State.exec_tearAck {p : PathPkt} (h : s.pathPkt .tearAck = some p) :
    (∀ i, s.ev.flag = true → s.ownPath p = some i → s.fabric.paths[i].state = 5 → exec .tearAck s = .next (s.pathIdle i))
    ∧ ∀ k, s.ev.flag = false → pktPlace p s.ev.elem = some k → exec .tearAck s = .next (s.backElem .tearAck p k) := by
  refine ⟨fun i hf ho h5 => ?_, fun k hf hk => ?_⟩
  · show execTearAck s = _
    unfold execTearAck
    rw [h, hf]
    dsimp only
    rw [ho]
    exact congrArg Host.Outcome.next (if_pos h5)
  · show execTearAck s = _
    unfold execTearAck
    rw [h, hf]
    dsimp only
    rw [hk]
    rfl

/-- A packet that is none leaves everything. -/
theorem State.exec_noPacket {k : PathKind × Instr}
    (hk : k ∈ [(PathKind.setup, Instr.setup), (.ack, .ack), (.nak, .nak), (.tear, .tear), (.tearAck, .tearAck)])
    (h : s.pathPkt k.1 = none) : exec k.2 s = .next s := by
  simp only [List.mem_cons, List.not_mem_nil, or_false] at hk
  obtain rfl | rfl | rfl | rfl | rfl := hk
  · show execSetup s = _
    unfold execSetup
    rw [h]
  · show execAck s = _
    unfold execAck
    rw [h]
  · show execNak s = _
    unfold execNak
    rw [h]
  · show execTear s = _
    unfold execTear
    rw [h]
  · show execTearAck s = _
    unfold execTearAck
    rw [h]

/-- A connection that a TEAR ends. -/
theorem Fabric.restoreSwitch_free {b : Fabric} {e : BitVec 24} {p : PathPkt} {io : BitVec 20 × BitVec 20}
    (h1 : b.portTaken e io.1 p = false) (h2 : b.portTaken e io.2 p = false) :
    ((b.freeElem e p).restoreSwitch e io p).switch = b.switch.filter fun c => c != (e, io.1, io.2) := by
  have hfree : ∀ x, b.portTaken e x p = false → (b.freeElem e p).portTaken e x p = false := by
    intro x hx
    unfold Fabric.portTaken at hx ⊢
    rw [List.any_eq_false] at hx ⊢
    exact fun r hr => hx r (List.mem_filter.mp hr).1
  unfold Fabric.restoreSwitch
  rw [hfree _ h1, hfree _ h2]
  rfl

theorem Fabric.restoreSwitch_reserve (b : Fabric) (e : BitVec 24) (io : BitVec 20 × BitVec 20) (p : PathPkt) :
    (b.restoreSwitch e io p).reserve = b.reserve := by
  unfold Fabric.restoreSwitch
  split <;> rfl

theorem pktPorts_of {p : PathPkt} {k : Nat} {io : BitVec 20 × BitVec 20} (h : p.elems[k]?.map (·.2) = some io) :
    pktPorts p k = io := congrArg (·.getD (0, 0)) h

theorem Port.dark_fields (k : Port) : k.linkReset.unlit.lit = 0 ∧ k.linkReset.unlit.rxLit = 0 ∧ k.linkReset.unlit.replay = [] :=
  ⟨rfl, rfl, rfl⟩

/-! ### The timers of a path -/

/-- A step of a path's timer that no longer runs does nothing. -/
theorem State.pathTimer_false {st : Fin 7} (h : s.fabric.paths[s.ev.path].state ≠ st ∨ s.fabric.paths[s.ev.path].timer ≠ s.ev.id) :
    ¬ s.pathTimer st = true := by
  rw [s.pathTimer_iff]
  exact fun ⟨h1, h2⟩ => h.elim (fun hn => hn h1) fun hn => hn h2

/-- The state in which the runtime's wish for a path is noted. -/
def State.asked (s : State) (on : Bool) : State := s.modPath s.ev.path fun h => { h with go := on }

theorem State.asked_path (s : State) (on : Bool) :
    (s.asked on).fabric.paths[s.ev.path] = { s.fabric.paths[s.ev.path] with go := on } :=
  s.path_modPath s.ev.path fun h => { h with go := on }

/-- The packet of the SETUP that a request sends. -/
def State.requestPkt (s : State) : PathPkt :=
  let target := ((List.finRange 576).find? fun p =>
    let q := s.port p
    q.role == 3 && q.path == s.fabric.paths[s.ev.path].path).map fun p => (s.port p).peer
  { s.ev.pkt with path := s.fabric.paths[s.ev.path].path, origin := s.fabric.panel, target := target.getD s.ev.pkt.target }

theorem State.requestPkt_fields (s : State) : (s.asked true).requestPkt.path = s.fabric.paths[s.ev.path].path
    ∧ (s.asked true).requestPkt.origin = s.fabric.panel ∧ (s.asked true).requestPkt.elems = s.ev.pkt.elems :=
  ⟨(congrArg Path.path (s.asked_path true) :), rfl, rfl⟩

/-- A path that lights goes up where one of its end ports has four wavelengths in use. -/
theorem State.exec_pathLit (s : State) : exec .pathLit s = .next (
    if s.fabric.paths[s.ev.path].state = 3 ∧ ∃ p ∈ s.endPorts s.ev.path, 4 ≤ bitCount (s.port p).inUse then
      s.pathState s.ev.path 4 none
    else s) := by
  refine congrArg Host.Outcome.next (if_congr ?_ rfl rfl)
  rw [Bool.and_eq_true, decide_eq_true_iff, List.any_eq_true]
  simp only [decide_eq_true_iff]

theorem State.exec_pathSetupRequest (s : State) : exec .pathSetupRequest s = .next (
    if (decide ((s.asked true).fabric.paths[s.ev.path].state ≠ 0) || decide (pathElems < s.ev.pkt.elems.length)) = true then
      s.asked true
    else ((s.asked true).modPath s.ev.path fun h => { h with attempts := 1, pkt := (s.asked true).requestPkt }).sendSetup
      s.ev.path) := rfl

/-- Whether a request finds its path idle and its elements few enough. -/
theorem State.request_refused_iff (s : State) : (decide ((s.asked true).fabric.paths[s.ev.path].state ≠ 0)
    || decide (pathElems < s.ev.pkt.elems.length)) = true
      ↔ s.fabric.paths[s.ev.path].state ≠ 0 ∨ 6 < s.ev.pkt.elems.length := by
  rw [s.asked_path, Bool.or_eq_true, decide_eq_true_iff, decide_eq_true_iff]
  rfl

theorem State.exec_pathTearRequest (s : State) : exec .pathTearRequest s = .next (
    if s.fabric.paths[s.ev.path].state = 4 then (s.asked false).tearPath s.ev.path
    else if s.fabric.paths[s.ev.path].state = 6 then (s.asked false).pathState s.ev.path 0 none
    else s.asked false) := by
  have hpath : (s.asked false).fabric.paths[s.ev.path].state = s.fabric.paths[s.ev.path].state := by rw [s.asked_path]
  rw [← hpath]
  rfl

theorem State.port_backElem (s : State) (k : PathKind) (p : PathPkt) (j : Nat) (i : PortId) :
    (s.backElem k p j).port i = s.port i := by
  unfold State.backElem
  split
  · split <;> rfl
  · split <;> rfl

theorem State.fabric_backElem (s : State) (k : PathKind) (p : PathPkt) (j : Nat)
    {n : BitVec 24 × BitVec 20 × BitVec 20} (h : p.elems[j]? = some n) : (s.backElem k p (j + 1)).fabric = s.fabric := by
  unfold State.backElem
  dsimp only
  rw [h]
  rfl

theorem State.reserved_cycle (s : State) (p : PathPkt) (e : BitVec 24) (io : BitVec 20 × BitVec 20) :
    (s.reserved p e io).cycle = s.cycle := by
  unfold State.reserved
  rw [State.sched_cycle, State.takeFresh_cycle, State.modFabric_cycle]

/-! ### The steps of the light and of the paths -/

/-- Settles O60, by the step: the light of a wavelength, the packets of a path, and the states of its originator. -/
theorem photonicSteps : Obligations.PhotonicSteps := by
  unfold Obligations.PhotonicSteps
  refine ⟨fun s => ?_, fun s p => ?_, fun s i => ?_⟩
  · intro p l q quiet is rx used
    refine ⟨fun hn => ?_, fun hu => ?_, ⟨fun hn => ?_, fun hl => ?_⟩, ⟨fun hn => ?_, fun hl => ?_⟩, fun hn => ?_, fun hd => ?_⟩
    · refine congrArg Host.Outcome.next (if_pos ?_)
      rw [natBit_toNat, Bool.not_eq_true']
      exact Bool.eq_false_iff.mpr hn
    · exact State.ringRelockStart_lit ((natBit_toNat _ _).trans hu)
    · rw [State.exec_ringRelockEnd, if_neg hn]
    · obtain ⟨h1, h2⟩ := q.takes_spec rx l
      let u := s.modPort p fun q => q.takes rx l
      have hk : u.KeepsLight ((u.lightChanged p q.up).mayLight p) := (State.KeepsLight.lightChanged u p q.up).trans (.mayLight _ p)
      obtain ⟨k1, k2, _, _, k5, _, _, k8⟩ := hk.fields p
      have hup : u.port p = q.takes rx l := State.port_modPort _ _ _
      rw [hup] at k1 k2 k5 k8
      refine ⟨_, (State.exec_ringRelockEnd s).trans (congrArg _ (if_pos hl)), ⟨hk.dies, hk.mem⟩, ?_, fun hother => ?_⟩
      · show is (if rx then _ else _)
        rw [k1, k2]
        exact h1
      · obtain ⟨h3, h4⟩ := h2 hother
        refine ⟨(k8 l).trans h3, ?_⟩
        show ¬ is _
        rw [k5]
        exact h4
    · refine congrArg Host.Outcome.next (if_pos ?_)
      rw [natBit_toNat, Bool.not_eq_true']
      exact Bool.eq_false_iff.mpr hn
    · exact State.wavelengthSignalLoss_lit ((natBit_toNat _ _).trans hl)
    · exact congrArg Host.Outcome.next (if_pos hn)
    · exact State.wavelengthRetire_dark hd
  · intro b e quiet goes mine
    refine ⟨fun hp hf => ⟨fun hl => ?_, fun k io hl hk hio => ⟨fun ht => ?_, fun ht => ?_⟩⟩, fun hp hf j n hl hn => ?_,
      fun hp hf => ?_, fun hp hf => ?_, fun hp hf k hk => ?_, fun hp hf j n hl hn => ?_, fun hp hf j n hk hn => ?_,
      fun k hk hp => State.exec_noPacket hk hp, rfl⟩
    · rw [State.exec_setup hp, hf, hl]
      rfl
    · have hstep : exec .setup s = .next ((s.reserved p e io).toElem .setup p (k + 1) false) := by
        rw [State.exec_setup hp, hf, hl]
        exact congrArg Host.Outcome.next (s.setupAt_free hk hio ht)
      obtain ⟨h1, h2, h3⟩ := s.reserved_passes (.toElem (s.reserved p e io) .setup p (k + 1) false)
      exact ⟨_, hstep, h1, h2, h3, fun n hn =>
        ((s.reserved p e io).toElem_goes .setup p (k + 1) false hn).later (s.reserved_cycle p e io)⟩
    · have hstep : exec .setup s = .next (s.backElem .nak { p with index := k + 1 } k) := by
        rw [State.exec_setup hp, hf, hl]
        exact congrArg Host.Outcome.next (s.setupAt_taken hk hio ht)
      have hb : s.Passes (s.backElem .nak { p with index := k + 1 } k) := .backElem s _ _ _
      refine ⟨_, hstep, ⟨hb.dies, hb.mem, hb.panel⟩, hb.reserve, hb.switch, fun j n hj hn => ?_⟩
      subst hj
      exact s.backElem_goes .nak { p with index := j + 1 + 1 } j hn
    · have hstep : exec .setup s = .next (s.targetAnswers p) := by
        rw [State.exec_setup hp, if_pos hf]
      refine ⟨fun ⟨i, hi⟩ => ?_, fun hi => ?_⟩
      · obtain ⟨h1, h2⟩ := s.targetAnswers_ack hl hn ((s.mem_targetEnds p i).mpr hi)
        exact ⟨_, hstep, ⟨h1.dies, h1.mem, h1.panel⟩, h2⟩
      · obtain ⟨h1, h2⟩ := s.targetAnswers_nak hl hn fun i hmem => hi i ((s.mem_targetEnds p i).mp hmem)
        exact ⟨_, hstep, ⟨h1.dies, h1.mem, h1.panel⟩, h2⟩
    · have hstep : exec .ack s = .next ((s.holds p).answers .ack p e) := by
        rw [State.exec_ack hp, hf]
        rfl
      have hb := (s.holds p).answers_passes .ack p e
      exact ⟨_, hstep, ⟨hb.dies, hb.mem, hb.panel⟩, hb.reserve, fun j n hj hn =>
        ((s.holds p).answers_goes .ack hj hn).later rfl⟩
    · have hstep : exec .nak s = .next ((s.modFabric fun b => b.freeElem e p).answers .nak p e) := by
        rw [State.exec_nak hp, hf]
        rfl
      have hb := (s.modFabric fun b => b.freeElem e p).answers_passes .nak p e
      exact ⟨_, hstep, ⟨hb.dies, hb.mem, hb.panel⟩, hb.reserve, hb.switch, fun j n hj hn =>
        ((s.modFabric fun b => b.freeElem e p).answers_goes .nak hj hn).later rfl⟩
    · let u := s.modFabric fun b => (b.freeElem e p).restoreSwitch e (pktPorts p k) p
      have hb : u.Passes (u.toElem .tear p (k + 1) s.ev.arr) := .toElem u _ _ _ _
      refine ⟨_, (State.exec_tear hp).2 k hf hk, ⟨hb.dies, hb.mem, hb.panel⟩, ?_, fun io hio h1 h2 => ?_, fun n hn =>
        (u.toElem_goes .tear p (k + 1) s.ev.arr hn).later rfl⟩
      · rw [hb.reserve]
        exact Fabric.restoreSwitch_reserve _ _ _ _
      · rw [hb.switch]
        show ((b.freeElem e p).restoreSwitch e (pktPorts p k) p).switch = _
        rw [pktPorts_of hio]
        exact Fabric.restoreSwitch_free h1 h2
    · let u := (s.tearEnds p).foldl (fun s i => s.darken i) s
      have hu : s.Passes u := .foldl _ (fun s i => .darken s i) _ s
      have hb : s.Passes (u.backElem .tearAck p (j + 1)) := hu.trans (.backElem u _ p _)
      have hstep : exec .tear s = .next (u.backElem .tearAck p (j + 1)) := by
        rw [(State.exec_tear hp).1 hf, hl]
      refine ⟨_, hstep, ⟨hb.dies, hb.mem, hb.panel⟩, (u.backElem_goes .tearAck p j hn).later hu.cycle, fun i h1 h2 h3 => ?_⟩
      obtain ⟨k, hk⟩ := State.port_darkenAll (s.tearEnds p) i s ((s.mem_tearEnds p i).mpr ⟨h1, h2, h3⟩)
      rw [u.port_backElem, hk]
      exact k.dark_fields
    · have hstep := (State.exec_tearAck hp).2 _ hf hk
      have hb : s.Passes (s.backElem .tearAck p (j + 1)) := .backElem s _ p _
      refine ⟨_, hstep, ⟨hb.dies, hb.mem, hb.panel⟩, ?_, s.backElem_goes .tearAck p j hn⟩
      exact s.fabric_backElem .tearAck p j hn
  · intro h path quiet timed backs
    have hbacks : ∀ t, s.BacksOff t i → backs t := fun t ht => ⟨⟨ht.dies, ht.mem⟩, ht.waits, ht.fails⟩
    refine ⟨fun p hf ho h1 => ⟨fun hp => ?_, fun hp => ?_⟩, fun p hf ho h5 hp => ?_, fun hi => ?_⟩
    · have hstep : exec .ack s = .next (s.setupAnswered p true) := by
        rw [State.exec_ack hp, hf]
        rfl
      have hk := s.setupAnswered_ack ho h1
      exact ⟨_, hstep, ⟨hk.dies, hk.mem⟩, hk.state, hk.timed _ _ rfl⟩
    · have hstep : exec .nak s = .next (s.setupAnswered p false) := by
        rw [State.exec_nak hp, hf]
        rfl
      exact ⟨_, hstep, hbacks _ (s.setupAnswered_nak ho h1)⟩
    · have hk := s.pathIdle_into i
      exact ⟨_, (State.exec_tearAck hp).1 i hf ho h5, ⟨hk.dies, hk.mem⟩, hk.state⟩
    · subst hi
      refine ⟨fun h1 ht => ?_, fun hn => congrArg Host.Outcome.next (if_neg (State.pathTimer_false hn)), fun h2 ht => ?_,
        fun hn => ?_, fun h3 hl => ?_, fun hn => ?_, fun h3 ht => ?_,
        fun hn => congrArg Host.Outcome.next (if_neg (State.pathTimer_false hn)), fun h5 ht => ?_,
        fun hn => congrArg Host.Outcome.next (if_neg (State.pathTimer_false hn)), fun h0 h6 => ?_, fun hn => ?_,
        fun h4 => ?_, fun h6 => ?_, fun h4 h6 => ?_⟩
      · exact ⟨_, congrArg Host.Outcome.next (if_pos ((s.pathTimer_iff 1).mpr ⟨h1, ht⟩)), hbacks _ (s.backOff_backs _ _ _)⟩
      · have hno : ¬ (!s.pathTimer 2) = true := by
          rw [(s.pathTimer_iff 2).mpr ⟨h2, ht⟩]
          decide
        let u := s.modPath s.ev.path fun h => { h with attempts := h.attempts + 1 }
        have hu : u.fabric.paths[s.ev.path] = { s.fabric.paths[s.ev.path] with attempts := s.fabric.paths[s.ev.path].attempts + 1 } :=
          s.path_modPath s.ev.path fun h => { h with attempts := h.attempts + 1 }
        have hk := u.sendSetup_into s.ev.path
        refine ⟨_, congrArg Host.Outcome.next (if_neg hno), ⟨hk.dies, hk.mem⟩, hk.state, ?_, ?_, hk.timed _ _ rfl⟩
        · obtain ⟨n, hp⟩ := hk.path
          show ((u.sendSetup s.ev.path).fabric.paths[s.ev.path]).attempts = _
          rw [hp, hu]
        · obtain ⟨n, hp⟩ := hk.path
          show ((u.sendSetup s.ev.path).fabric.paths[s.ev.path]).pkt = _
          rw [hp, hu]
      · have hyes : (!s.pathTimer 2) = true := by
          rw [Bool.eq_false_iff.mpr (State.pathTimer_false hn)]
          rfl
        exact congrArg Host.Outcome.next (if_pos hyes)
      · have hk := s.pathState_into s.ev.path 4 none
        exact ⟨_, s.exec_pathLit.trans (congrArg _ (if_pos ⟨h3, hl⟩)), ⟨hk.dies, hk.mem⟩, hk.state⟩
      · rw [s.exec_pathLit, if_neg fun ⟨h3, p, hp, hl⟩ => hn.elim (fun h => h h3) fun h => absurd (h p hp) (Nat.not_lt.mpr hl)]
      · exact ⟨_, congrArg Host.Outcome.next (if_pos ((s.pathTimer_iff 3).mpr ⟨h3, ht⟩)), hbacks _ (s.backOff_backs _ _ _)⟩
      · have hk := s.pathIdle_into s.ev.path
        exact ⟨_, congrArg Host.Outcome.next (if_pos ((s.pathTimer_iff 5).mpr ⟨h5, ht⟩)), ⟨hk.dies, hk.mem⟩, hk.state⟩
      · obtain ⟨hpath, horigin, helems⟩ := s.requestPkt_fields
        let u := (s.asked true).modPath s.ev.path fun h => { h with attempts := 1, pkt := (s.asked true).requestPkt }
        have hu : u.fabric.paths[s.ev.path] = { s.fabric.paths[s.ev.path] with
            go := true, attempts := 1, pkt := (s.asked true).requestPkt } := by
          refine ((s.asked true).path_modPath s.ev.path fun h => { h with attempts := 1, pkt := (s.asked true).requestPkt }).trans ?_
          rw [s.asked_path]
        have hno := mt s.request_refused_iff.mp fun h => h.elim (fun h => h h0) fun h => absurd h6 (Nat.not_le.mpr h)
        have hk := u.sendSetup_into s.ev.path
        obtain ⟨n, hp⟩ := hk.path
        rw [hu] at hp
        refine ⟨_, s.exec_pathSetupRequest.trans (congrArg _ (if_neg hno)), ⟨hk.dies, hk.mem⟩, hk.state, ?_, ?_, ?_, ?_, ?_,
          hk.timed _ _ rfl⟩
        · exact (congrArg Path.go hp :)
        · exact (congrArg Path.attempts hp :)
        · exact (congrArg (fun h : Path => h.pkt.path) hp :).trans hpath
        · exact (congrArg (fun h : Path => h.pkt.origin) hp :).trans horigin
        · exact (congrArg (fun h : Path => h.pkt.elems) hp :).trans helems
      · rw [State.exec_pathSetupRequest, if_pos (s.request_refused_iff.mpr hn)]
        rfl
      · have hk := (s.asked false).tearPath_into s.ev.path
        refine ⟨_, s.exec_pathTearRequest.trans (congrArg _ (if_pos h4)), ⟨hk.dies, hk.mem⟩, hk.state, ?_, hk.timed _ _ rfl⟩
        obtain ⟨n, hp⟩ := hk.path
        show (((s.asked false).tearPath s.ev.path).fabric.paths[s.ev.path]).go = false
        rw [hp, s.asked_path]
      · have hk := (s.asked false).pathState_into s.ev.path 0 none
        have hne : ¬ s.fabric.paths[s.ev.path].state = 4 := by rw [show s.fabric.paths[s.ev.path].state = 6 from h6]; decide
        refine ⟨_, s.exec_pathTearRequest.trans (congrArg _ ((if_neg hne).trans (if_pos h6))), ⟨hk.dies, hk.mem⟩, hk.state, ?_⟩
        obtain ⟨n, hp⟩ := hk.path
        show (((s.asked false).pathState s.ev.path 0 none).fabric.paths[s.ev.path]).go = false
        rw [hp, s.asked_path]
      · rw [State.exec_pathTearRequest, if_neg h4, if_neg h6]
        rfl

end Sys2Proof.Machine
end

