-- ==== Sys2Proof/Proofs/Links.lean ====
section
/-! PROOFS. Flits on a link and its mode: receiving, replays, idle flits, mode requests; and slots that wait at ports or go
on (R383, R385, R386, R392, R396). -/

namespace Sys2Proof.Machine

variable {s : State}

/-! ### Receiving -/

/-- What a port's receiver expects and holds. -/
def Port.receiver (q : Port) : BitVec 8 × BitVec 8 × List Flit := (q.expectSeq, q.lack, q.partFlits)

theorem State.receiver_modPort (s : State) (p : PortId) (f : Port → Port) (h : (f (s.port p)).receiver = (s.port p).receiver) :
    ((s.modPort p f).port p).receiver = (s.port p).receiver := by
  rw [State.port_modPort]
  exact h

theorem State.receiver_pump (s : State) (p : PortId) : ((s.pump p).port p).receiver = (s.port p).receiver := by
  rw [(State.Pumps.pump s p).ports p]
  rfl

theorem State.receiver_takeLack (s : State) (p : PortId) (v : BitVec 8) :
    ((s.takeLack p v).port p).receiver = (s.port p).receiver := by
  unfold State.takeLack
  dsimp only
  split
  · split
    · rfl
    · split
      · exact s.receiver_modPort p (fun q => { q with ackTwice := false }) rfl
      · exact s.receiver_modPort p (fun q => { q with ackTwice := true }) rfl
  · split
    · rw [State.receiver_pump]
      split
      · exact s.receiver_modPort p _ rfl
      · exact s.receiver_modPort p _ rfl
    · rfl

theorem State.receiver_takeMode (s : State) (p : PortId) (f : Flit) :
    ((s.takeMode p f).port p).receiver = (s.port p).receiver := by
  unfold State.takeMode
  dsimp only
  split
  · rfl
  · split
    · split
      · split
        · rfl
        · exact s.receiver_modPort p _ rfl
      · split
        · rfl
        · exact s.receiver_modPort p _ rfl
    · split
      · split
        · split
          · exact s.receiver_modPort p _ rfl
          · rfl
        · rfl
      · rfl

theorem State.receiver_passOn (s : State) (p q : PortId) (t : FabSlot) : (s.passOn q t).port p = s.port p := by
  unfold State.passOn
  split
  · rfl
  · split <;> rfl

theorem State.receiver_slotIn (s : State) (p : PortId) (t : FabSlot) :
    ((s.slotIn p t).port p).receiver = (s.port p).receiver := by
  unfold State.slotIn
  split
  · rw [State.receiver_passOn]
  · split
    · exact s.receiver_modPort p (fun q => { q with tagFail := satInc q.tagFail }) rfl
    · next plain e _ =>
      have hk : ((s.modPort p fun q => q.setKey e).port p).receiver = (s.port p).receiver := s.receiver_modPort p _ rfl
      dsimp only
      split
      · exact ((s.modPort p fun q => q.setKey e).receiver_modPort p (fun q => { q with tagFail := satInc q.tagFail }) rfl).trans hk
      · rw [State.receiver_passOn]
        exact hk

/-- What an accepted flit leaves its port's receiver with. -/
theorem State.receiver_acceptFlit (s : State) (p : PortId) (f : Flit) : ((s.acceptFlit p f).port p).receiver
    = ((s.port p).expectSeq + 1, f.lseq,
      if f.idx = 3 then [] else (if f.idx = 0 then [] else (s.port p).partFlits) ++ [f]) := by
  have h : (((s.takeLack p f.lack).takeMode p f).port p).receiver = (s.port p).receiver :=
    (State.receiver_takeMode _ p f).trans (s.receiver_takeLack p f.lack)
  have h1 : (((s.takeLack p f.lack).takeMode p f).port p).expectSeq = (s.port p).expectSeq := congrArg Prod.fst h
  have h2 : (((s.takeLack p f.lack).takeMode p f).port p).partFlits = (s.port p).partFlits :=
    congrArg (fun v : BitVec 8 × BitVec 8 × List Flit => v.2.2) h
  have last (u : State) (c : Bool) (v : FabSlot) : ((if c then u.slotIn p v else u).port p).receiver = (u.port p).receiver := by
    cases c
    · rfl
    · exact u.receiver_slotIn p v
  refine (last _ _ _).trans ?_
  rw [State.port_modPort]
  unfold Port.receiver
  dsimp only
  rw [h1, h2]

/-- A port that is not in use takes no flit; one in use takes a flit that is sound, by whether it is idle and next. -/
theorem State.exec_flitReceive (s : State) : exec .flitReceive s = .next (
    if ¬ ((s.port s.ev.port).enable = true ∧ (s.port s.ev.port).up = true) then s
    else match ((s.port s.ev.port).gather s.ev.wire).bind flitOfWire with
      | none => s
      | some f =>
        if f.idle = true then (s.takeLack s.ev.port f.lack).takeMode s.ev.port f
        else if f.lseq ≠ (s.port s.ev.port).expectSeq then s
        else s.acceptFlit s.ev.port f) := by
  refine congrArg Host.Outcome.next ?_
  refine (if_congr ?_ rfl ?_)
  · rw [Bool.or_eq_true, Bool.not_eq_true', Bool.not_eq_true', not_and_or, Bool.not_eq_true, Bool.not_eq_true]
  · generalize ((s.port s.ev.port).gather s.ev.wire).bind flitOfWire = r
    cases r <;> rfl

/-! ### Replays, idle flits and the mode -/

theorem mem_addNew_self {α : Type} [BEq α] [LawfulBEq α] (l : List α) (x : α) : x ∈ addNew l x := by
  unfold addNew
  split
  · next h => exact List.contains_iff_mem.mp h
  · exact List.mem_append_right _ (List.mem_singleton.mpr rfl)

/-- A port that is to send again every flit of its replay buffer. -/
def Port.replaying (q : Port) : Port :=
  { q with pos := 0, ackTwice := false, replays := if q.replays = BitVec.allOnes 24 then q.replays else q.replays + 1 }

/-- A replay that a doubled lack asks for, or one whose timer still stands. -/
theorem State.exec_linkReplay (h : (s.port s.ev.port).replay ≠ []) :
    (s.ev.flag = true → exec .linkReplay s = .next ((s.modPort s.ev.port Port.replaying).wake s.ev.port))
    ∧ (s.ev.flag = false → s.ev.seq = (s.port s.ev.port).ackAt → exec .linkReplay s = .next
      ((((s.modPort s.ev.port Port.replaying).wake s.ev.port).modPort s.ev.port fun q => { q with ackAt := s.cycle }).sched
        (s.cycle + 4096) .linkReplay { port := s.ev.port, seq := s.cycle })) := by
  have he : (s.port s.ev.port).replay.isEmpty = false := List.isEmpty_eq_false_iff.mpr h
  refine ⟨fun hf => ?_, fun hf hs => ?_⟩
  · show execLinkReplay s = _
    unfold execLinkReplay
    simp only [he, hf]
    exact congrArg Host.Outcome.next (if_pos hf)
  · show execLinkReplay s = _
    unfold execLinkReplay
    simp only [he, hf, hs]
    refine congrArg Host.Outcome.next ((if_neg ?_).trans (if_neg ?_))
    · simp
    · exact Bool.eq_false_iff.mp hf

theorem State.exec_linkReplay_none (h : (s.port s.ev.port).replay = [] ∨ (s.ev.flag = false ∧ s.ev.seq ≠ (s.port s.ev.port).ackAt)) :
    exec .linkReplay s = .next s := by
  refine congrArg Host.Outcome.next (if_pos ?_)
  obtain h | ⟨hf, hs⟩ := h
  · rw [h]
    rfl
  · rw [hf, Bool.or_eq_true, decide_eq_true hs]
    exact .inr rfl

theorem State.exec_lackIdleFlit (s : State) : exec .lackIdleFlit s = .next (
    if ¬ ((s.port s.ev.port).enable = true ∧ (s.port s.ev.port).up = true) then s
    else if s.cycle < (s.port s.ev.port).lastSent + 512 ∧ s.ev.flag = true then
      s.sched ((s.port s.ev.port).lastSent + 512) .lackIdleFlit { port := s.ev.port, flag := true }
    else ((s.modPort s.ev.port fun q => { q with idleDue := true }).wake s.ev.port).sched (s.cycle + 512) .lackIdleFlit
      { port := s.ev.port, flag := true }) := by
  refine congrArg Host.Outcome.next (if_congr ?_ rfl (if_congr ?_ rfl rfl))
  · rw [Bool.or_eq_true, Bool.not_eq_true', Bool.not_eq_true', not_and_or, Bool.not_eq_true, Bool.not_eq_true]
  · rw [Bool.and_eq_true, decide_eq_true_iff]

theorem State.exec_lnkModeWrite (s : State) : exec .lnkModeWrite s = .next (
    if s.feature 6 = false then s
    else if (s.port s.ev.port).mode = s.ev.flag then
      s.modPort s.ev.port fun q => { q with modeReq := s.ev.flag, modeWait := none }
    else ((s.modPort s.ev.port fun q => { q with modeReq := s.ev.flag, modeWait := some (s.ev.flag, s.fresh, 8), sendCtl := 1
                                                 ctlMode := s.ev.flag }).takeFresh).sched (s.cycle + 4096) .modeRequestTimeout
      { port := s.ev.port, id := s.fresh }) :=
  congrArg Host.Outcome.next (if_congr (iff_of_eq (Bool.not_eq_true' _)) rfl rfl)

theorem State.exec_modeRequestTimeout {m : Bool} {n : Nat} (h : (s.port s.ev.port).modeWait = some (m, s.ev.id, n)) :
    exec .modeRequestTimeout s = .next (
      if n = 0 then s.modPort s.ev.port fun q => { q with modeWait := none, lcFail := true }
      else (s.modPort s.ev.port fun q => { q with modeWait := some (m, s.ev.id, n - 1), sendCtl := 1, ctlMode := m }).sched
        (s.cycle + 4096) .modeRequestTimeout { port := s.ev.port, id := s.ev.id }) := by
  show execModeRequestTimeout s = _
  unfold execModeRequestTimeout
  dsimp only
  rw [h]
  exact congrArg Host.Outcome.next (if_neg fun hn => hn rfl)

/-! ### Slots on their way -/

/-- A slot that goes on: of its hop's port set it takes a port, or it waits for one. -/
theorem State.exec_slotForward (h : 1 < s.ev.slot.hops.toNat) {r : Ring} {dir : Bool} {peer : BitVec 18}
    (hn : s.fabric.nextHop s.ev.slot.dst (some (s.fabric.portRing (s.port s.ev.port), s.ev.slot.dir)) = some (r, dir, peer)) :
    let on : FabSlot := { s.ev.slot with hops := s.ev.slot.hops - 1, dir := dir }
    (∀ i, s.pickPort r dir peer = some i → exec .slotForward s = .next (s.queueAt i on))
    ∧ (s.pickPort r dir peer = none → exec .slotForward s = .next
        (((s.modFabric fun b => { b with stuck := b.stuck ++ [{ id := s.fresh, slot := on, since := s.fabTime }] }).takeFresh).sched
          (s.cycle + (portWait + 1)) .slotPortWaitExpiry { id := s.fresh, flag := true })) := by
  intro on
  have hhop : hopLess s.ev.slot = some { s.ev.slot with hops := s.ev.slot.hops - 1 } := if_neg (by omega)
  have hstep : exec .slotForward s = .next (s.sendSince { s.ev.slot with hops := s.ev.slot.hops - 1 }
      (some (s.fabric.portRing (s.port s.ev.port), s.ev.slot.dir)) none s.fabTime) := by
    show execSlotForward s = _
    unfold execSlotForward
    dsimp only
    rw [hhop]
    rfl
  rw [hstep]
  unfold State.sendSince
  dsimp only
  rw [hn]
  dsimp only
  refine ⟨fun i hi => ?_, fun hi => ?_⟩
  · rw [hi]
    dsimp only
    rw [ite_self]
    rfl
  · rw [hi]
    dsimp only
    rw [Option.isNone_none, if_pos rfl, Nat.sub_self, Nat.sub_zero]

/-- The slots among which one whose wait ends stands: those that wait for a port, or at one. -/
def State.waitList (s : State) : List PortWait := if s.ev.flag then s.fabric.stuck else (s.port s.ev.port).waiting

theorem State.exec_slotPortWaitExpiry (s : State) :
    exec .slotPortWaitExpiry s = .next (match s.waitList.find? fun w => w.id == s.ev.id with
    | none => s
    | some w =>
      if s.fabric.hold = true then s
      else if s.fabTime - w.since ≤ portWait then
        s.sched (s.cycle + (portWait + 1 - (s.fabTime - w.since))) .slotPortWaitExpiry s.ev
      else if s.ev.flag = true then
        (s.modFabric fun b => { b with stuck := b.stuck.filter fun w => w.id != s.ev.id }).slotExpires
      else (s.modPort s.ev.port fun q => { q with waiting := q.waiting.filter fun w => w.id != s.ev.id }).slotExpires) := by
  show execSlotPortWaitExpiry s = _
  unfold execSlotPortWaitExpiry State.waitList
  rfl

end Sys2Proof.Machine
end

