-- ==== Sys2Proof/Proofs/FabricEngine.lean ====
section
/-! PROOFS. The fabric engine's ends: what completions, failing queue pairs and writes back to their contexts may change
(R412, R417, R418, R422). -/

namespace Sys2Proof.Machine

variable {s t u : State}

/-! ### Queue pairs and memory -/

theorem State.qp_setQp (s : State) (n m : Fin 8192) (q : QPair) (h : Sparse.wf s.fabric.qps {} = true) :
    (s.setQp n q).qp m = if m = n then q else s.qp m := by
  show Sparse.read (Sparse.write s.fabric.qps {} n.val q) {} m.val = _
  rw [Sparse.read_write _ _ _ h]
  by_cases hm : m = n
  · rw [if_pos hm, if_pos (by rw [hm])]
  · rw [if_neg hm, if_neg (fun hv : m.val = n.val => hm (Fin.ext hv))]
    rfl

theorem State.wf_setQp (s : State) (n : Fin 8192) (q : QPair) (h : Sparse.wf s.fabric.qps {} = true) :
    Sparse.wf (s.setQp n q).fabric.qps {} = true := Sparse.wf_write _ _ h

theorem State.ringBells_fabric (s : State) (l : List (Fin 8192)) : (s.ringBells l).fabric = s.fabric :=
  (State.Reports.ringBells s l).fabric

/-- What writing to panel memory leaves as it was. -/
structure State.Writes (s t : State) : Prop where
  dies : t.dies = s.dies
  fabric : t.fabric = s.fabric
  stations : t.stations = s.stations
  panel : t.panel = s.panel
  cycle : t.cycle = s.cycle
  fresh : t.fresh = s.fresh
  ev : t.ev = s.ev

namespace State.Writes

theorem refl (s : State) : s.Writes s := ⟨rfl, rfl, rfl, rfl, rfl, rfl, rfl⟩

theorem trans (h : s.Writes t) (k : t.Writes u) : s.Writes u :=
  ⟨k.dies.trans h.dies, k.fabric.trans h.fabric, k.stations.trans h.stations, k.panel.trans h.panel, k.cycle.trans h.cycle,
    k.fresh.trans h.fresh, k.ev.trans h.ev⟩

theorem ringBells (l : List (Fin 8192)) : ∀ s : State, s.Writes (s.ringBells l) := by
  unfold State.ringBells
  induction l with
  | nil => exact refl
  | cons n l ih =>
    intro s
    have h : s.Writes (s.sched s.cycle .doorbellWrite
        { qp := n, val := s.readMem64 (s.fabric.qpDb.toNat * 2 ^ 16 + 8 * n.val) }) := ⟨rfl, rfl, rfl, rfl, rfl, rfl, rfl⟩
    exact h.trans (ih _)

theorem writeMem (s : State) (pa : Nat) (l : List Byte) : s.Writes (s.writeMem pa l) := by
  unfold State.writeMem
  exact trans (t := { s with mem := s.mem.writeAll _, memBad := s.memBad.filter _ }) ⟨rfl, rfl, rfl, rfl, rfl, rfl, rfl⟩
    (ringBells _ _)

theorem runWrite (r : List (Nat × Nat)) : ∀ (s : State) (l : List Byte), s.Writes (s.runWrite r l) := by
  induction r with
  | nil => exact fun s _ => refl s
  | cons p r ih => exact fun s l => (writeMem s _ _).trans (ih _ _)

theorem putPhys (s : State) (pa : Nat) (w : Word) : s.Writes (s.putPhys pa w) := by
  unfold State.putPhys
  split
  · exact writeMem s _ _
  · exact refl s

theorem syncQp (s : State) (n : Fin 8192) : s.Writes (s.syncQp n) :=
  ((putPhys s _ _).trans (putPhys _ _ _)).trans (putPhys _ _ _)

theorem qp (h : s.Writes t) (n : Fin 8192) : t.qp n = s.qp n := by
  unfold State.qp
  rw [h.fabric]

end State.Writes

/-- The bytes that memory holds after a write depend on what it held only. -/
theorem State.writeMem_mem (h : t.mem = s.mem) (pa : Nat) (l : List Byte) : (t.writeMem pa l).mem = (s.writeMem pa l).mem := by
  unfold State.writeMem
  rw [(State.ringBells_mem _ _).1, (State.ringBells_mem _ _).1, h]

theorem State.runWrite_mem (r : List (Nat × Nat)) : ∀ (s t : State) (l : List Byte), t.mem = s.mem →
    (t.runWrite r l).mem = (s.runWrite r l).mem := by
  induction r with
  | nil => exact fun _ _ _ h => h
  | cons p r ih => exact fun s t l h => ih _ _ _ (State.writeMem_mem h _ _)

/-! ### Translation depends on memory and stations only -/

theorem walkFrom_congr (hm : t.mem = s.mem) (hb : t.memBad = s.memBad) (hs : t.stations = s.stations) (root : Word) (va : Nat)
    (perm : Perm) (n : Nat) : ∀ base, walkFrom t root va perm n base = walkFrom s root va perm n base := by
  have hok : ∀ pa, t.physOk pa = s.physOk pa := fun pa => by unfold State.physOk State.station; rw [hs]
  have hbad : ∀ pa k, t.memBadAt pa k = s.memBadAt pa k := fun pa k => by unfold State.memBadAt; rw [hb]
  have hread : ∀ pa, t.readMem64 pa = s.readMem64 pa := fun pa => by unfold State.readMem64 State.readMem; rw [hm]
  induction n with
  | zero => exact fun _ => rfl
  | succ n ih =>
    intro base
    unfold walkFrom
    simp only [hok, hbad, hread, ih]

theorem walkTable_congr (hm : t.mem = s.mem) (hb : t.memBad = s.memBad) (hs : t.stations = s.stations) (root va : Word)
    (perm : Perm) : walkTable t root va perm = walkTable s root va perm := by
  unfold walkTable
  rw [walkFrom_congr hm hb hs]

theorem State.localBytes_congr (hm : t.mem = s.mem) (hb : t.memBad = s.memBad) (hs : t.stations = s.stations) (root va : Word)
    (n : Nat) (perm : Perm) : t.localBytes root va n perm = s.localBytes root va n perm := by
  unfold State.localBytes
  generalize virtParts va.toNat n (n / 2 ^ 16 + 2) 0 = l
  have hr : ∀ pa k, t.refusesAt pa k = s.refusesAt pa k := fun pa k => by unfold State.refusesAt State.station; rw [hs]
  induction l with
  | nil => rfl
  | cons p l ih =>
    obtain ⟨off, k⟩ := p
    unfold State.localRun
    simp only [walkTable_congr hm hb hs, hr, ih]

/-- Local bytes that translate are reached at once. -/
theorem State.fabTry_ok {k : FabReq} {root va : Word} {n : Nat} {perm : Perm} {l : List (Nat × Nat)}
    (h : s.localBytes root va n perm = .ok l) : s.fabTry k root va n perm = (s, .done l) := by
  unfold State.fabTry
  rw [h]

/-! ### Completions in line -/

/-- A structural recursion over a list that passes a state along keeps what its nil and cons cases keep. -/
theorem brecOn_keeps {α β : Type} {R : State → State → Prop}
    (F : (x : List α) → List.below (motive := fun _ => State → β → State) x → State → β → State)
    (h0 : ∀ B s b, R s (F [] B s b))
    (h1 : ∀ a l (B : List.below (motive := fun _ => State → β → State) (a :: l)), (∀ s b, R s (B.1 s b)) →
      ∀ s b, R s (F (a :: l) B s b)) (l : List α) : ∀ s b, R s (List.brecOn l F s b) := by
  induction l with
  | nil => exact fun s b => h0 _ s b
  | cons a l ih => exact fun s b => h1 a l _ ih s b

/-- What every completion keeps, posting those in line keeps. The recursion is opened with `State.post` as a variable: its
sums with 2 ^ 32 are too large for the kernel to evaluate. -/
theorem State.postList_keeps {R : State → State → Prop} (refl : ∀ s, R s s) (trans : ∀ s t u, R s t → R t u → R s u)
    (post : ∀ s c, R s (s.post c).1) (s : State) (l : List Completion) (held : List (Fin 8192)) :
    R s (s.postList l held) := by
  delta State.postList
  refine brecOn_keeps (R := R) State.postList._f ?_ ?_ l s held
  · exact fun _ s _ => refl s
  · intro c l B hB s held
    delta State.postList._f
    obtain ⟨f, hf⟩ : ∃ f, f = State.post := ⟨_, rfl⟩
    rw [← hf] at post ⊢
    dsimp only
    split
    · exact hB s held
    · exact trans _ _ _ (post s c) (hB _ _)

/-! ### Ends of operations -/

/-- A state in which some operations of the fabric engine have ended: what works, queue pairs and completions may have
become of it. -/
structure State.Ends (s t : State) : Prop where
  fabric : t.fabric = { s.fabric with works := t.fabric.works, qps := t.fabric.qps, due := t.fabric.due
                                      failed := t.fabric.failed }
  works : ∀ w ∈ t.fabric.works, ∃ v ∈ s.fabric.works, v.id = w.id ∧ v.qp = w.qp
  wf : Sparse.wf s.fabric.qps {} = true → Sparse.wf t.fabric.qps {} = true
  failed : Sparse.wf s.fabric.qps {} = true → ∀ n, (s.qp n).state = 2 → (t.qp n).state = 2
  ev : t.ev = s.ev

namespace State.Ends

theorem of_writes (h : s.Writes t) : s.Ends t :=
  ⟨by rw [h.fabric], fun w hw => ⟨w, by rw [← h.fabric]; exact hw, rfl, rfl⟩, fun hwf => by rw [h.fabric]; exact hwf,
    fun _ n hn => by rw [h.qp]; exact hn, h.ev⟩

theorem refl (s : State) : s.Ends s := of_writes (.refl s)

theorem trans (h : s.Ends t) (k : t.Ends u) : s.Ends u := by
  refine ⟨?_, fun w hw => ?_, fun hwf => k.wf (h.wf hwf), fun hwf n hn => k.failed (h.wf hwf) n (h.failed hwf n hn),
    k.ev.trans h.ev⟩
  · rw [k.fabric, h.fabric]
  · obtain ⟨v, hv, h1, h2⟩ := k.works w hw
    obtain ⟨x, hx, h3, h4⟩ := h.works v hv
    exact ⟨x, hx, h3.trans h1, h4.trans h2⟩

/-- Changing nothing of the fabric. -/
theorem of_fabric (h : t.fabric = s.fabric) (he : t.ev = s.ev) : s.Ends t :=
  ⟨by rw [h], fun w hw => ⟨w, by rw [← h]; exact hw, rfl, rfl⟩, fun hwf => by rw [h]; exact hwf,
    fun _ n hn => by unfold State.qp; rw [h]; exact hn, he⟩

theorem foldl {α : Type} (f : State → α → State) (h : ∀ (s : State) (a : α), s.Ends (f s a)) (l : List α) :
    ∀ s : State, s.Ends (l.foldl f s) := by
  induction l with
  | nil => exact refl
  | cons a l ih => exact fun s => (h s a).trans (ih _)

theorem modDue (s : State) (f : List Completion → List Completion) (g : List (FabReq × BitVec 8) → List (FabReq × BitVec 8)) :
    s.Ends (s.modFabric fun b => { b with due := f b.due, failed := g b.failed }) :=
  ⟨rfl, fun w hw => ⟨w, hw, rfl, rfl⟩, fun hwf => hwf, fun _ _ hn => hn, rfl⟩

theorem addDue (s : State) (c : Completion) : s.Ends (s.addDue c) := modDue s (· ++ [c]) id

theorem filterWorks (s : State) (p : Work → Bool) : s.Ends (s.modFabric fun b => { b with works := b.works.filter p }) :=
  ⟨rfl, fun w hw => ⟨w, (List.mem_filter.mp hw).1, rfl, rfl⟩, fun hwf => hwf, fun _ _ hn => hn, rfl⟩

theorem fabTry (s : State) (k : FabReq) (root va : Word) (n : Nat) (perm : Perm) : s.Ends (s.fabTry k root va n perm).1 := by
  unfold State.fabTry
  split
  · exact refl s
  · exact refl s
  · exact refl s
  · split
    · exact modDue s id fun l => l.filter fun o => o.1 != k
    · split
      · exact refl s
      · split
        · exact refl s
        · exact of_fabric rfl rfl

/-- A queue pair that changes without leaving the error state. -/
theorem modQp (s : State) (n : Fin 8192) (f : QPair → QPair) (hf : (s.qp n).state = 2 → (f (s.qp n)).state = 2) :
    s.Ends (s.modQp n f) := by
  refine ⟨rfl, fun w hw => ⟨w, hw, rfl, rfl⟩, s.wf_setQp n _, fun hwf m hm => ?_, rfl⟩
  unfold State.modQp
  rw [s.qp_setQp n m _ hwf]
  split
  · next h => subst h; exact hf hm
  · exact hm

theorem qpFails (s : State) (n : Fin 8192) : s.Ends (s.qpFails n) := by
  unfold State.qpFails
  split
  · exact refl s
  · exact (((modQp s n _ fun _ => rfl).trans (of_writes (.syncQp _ n))).trans (foldl _ (fun s w => addDue s _) _ _)).trans
      (filterWorks _ _)

theorem workDue (s : State) (v : BitVec 8) (w : Work) : s.Ends (s.workDue v w) := by
  unfold State.workDue
  split
  · exact refl s
  · exact addDue s _

/-- Works that end are gone first; what follows is their completions and the failure of their queue pairs. -/
theorem endWorks_from (s : State) (l : List Work) (v : BitVec 8) :
    (s.modFabric fun b => { b with works := b.works.filter fun o => !l.any fun w => w.id == o.id }).Ends (s.endWorks l v) := by
  have h := foldl (fun (s : State) (w : Work) => s.workDue v w) (fun s w => workDue s v w) l
    (s.modFabric fun b => { b with works := b.works.filter fun o => !l.any fun w => w.id == o.id })
  unfold State.endWorks
  dsimp only
  split
  · exact h
  · exact h.trans (foldl _ (fun (s : State) (w : Work) => qpFails s w.qp) _ _)

theorem endWorks (s : State) (l : List Work) (v : BitVec 8) : s.Ends (s.endWorks l v) :=
  (filterWorks s _).trans (endWorks_from s l v)

theorem cqFails (s : State) (c : Fin 8192) : s.Ends (s.cqFails c) := by
  refine foldl _ (fun s n => ?_) _ s
  split
  · exact qpFails s n
  · exact refl s

theorem notifyFold (s : State) (far : Word) : s.Ends (s.notifyFold far) := by
  unfold State.notifyFold
  split
  · dsimp only
    split
    · exact of_fabric rfl rfl
    · exact refl s
  · exact refl s

/-- Adding 1 to the fold of a notify word, where there is one. -/
theorem notifies (s : State) (far : Word) : s.Ends (if far = 0 then s else s.notifyFold far) := by
  split
  · exact refl s
  · exact notifyFold s far

theorem post {s : State} {c : Completion} {r : State × Bool} (hr : s.post c = r) : s.Ends r.1 := by
  unfold State.post at hr
  extract_lets a w0 w1 size tail head out va tail' at hr
  have hout : ∀ u : State, u.Ends (out u) := fun u => modDue u (·.erase c) id
  clear_value a w0 w1 size tail head out
  clear_value va
  split at hr
  · subst hr
    exact (hout s).trans (cqFails _ _)
  · have h := fabTry s (.cq c.cq) c.root va 32 .write
    generalize s.fabTry (.cq c.cq) c.root va 32 .write = o at h hr
    obtain ⟨u, o⟩ := o
    cases o with
    | migrating => subst hr; exact h
    | waits => subst hr; exact h
    | fails v => subst hr; exact (h.trans (hout u)).trans (cqFails _ _)
    | done l =>
      dsimp -zeta only at hr
      extract_lets x phase y far at hr
      have hx : s.Ends x := (h.trans (hout u)).trans (of_writes (.runWrite l _ _))
      clear_value phase x
      clear_value tail'
      have hy : s.Ends y := hx.trans (of_writes (.putPhys _ _ _))
      clear_value far y
      subst hr
      exact hy.trans (notifies y far)

theorem postDue (s : State) : s.Ends s.postDue :=
  State.postList_keeps refl (fun _ _ _ h k => h.trans k) (fun _ _ => post rfl) s _ _

theorem ackOut (s : State) (o : OutSlot) (v : BitVec 8) : s.Ends (s.ackOut o v) := by
  unfold State.ackOut
  split
  · exact refl s
  · next w hw =>
    have hmem : w ∈ s.fabric.works := List.mem_of_find?_eq_some hw
    dsimp only
    have h : ∀ n : Nat, s.Ends (s.modFabric fun b => { b with
        works := replaceIf (fun x => x.id == w.id) (fun _ => { w with acked := w.acked + n }) b.works }) := by
      refine fun n => ⟨rfl, fun x hx => ?_, fun hwf => hwf, fun _ _ hn => hn, rfl⟩
      obtain ⟨y, hy, he⟩ := List.mem_map.mp hx
      by_cases hyw : (y.id == w.id) = true
      · rw [if_pos hyw] at he
        exact ⟨w, hmem, by rw [← he], by rw [← he]⟩
      · rw [if_neg hyw] at he
        exact ⟨y, hy, by rw [he], by rw [he]⟩
    split
    · exact (h _).trans (endWorks _ _ _)
    · split
      · exact (h _).trans (endWorks _ _ _)
      · exact h _

end State.Ends

end Sys2Proof.Machine
end

