-- ==== Sys2Proof/Proofs/SlotsOnTheWay.lean ====
section
/-! PROOFS. Slots end to end: sending, acknowledgements, refusals, resends and grants (R389, R390, R391, R393, R415). -/

namespace Sys2Proof.Machine

variable {s t : State}

/-! ### Sending -/

/-- A work that ends is no longer among the works. -/
theorem State.endWork_gone (s : State) (w : Work) (v : BitVec 8) : ∀ o ∈ (s.endWork w v).postDue.fabric.works, o.id ≠ w.id := by
  intro o ho heq
  obtain ⟨x, hx, hid, -⟩ := ((State.Ends.endWorks_from s [w] v).trans (.postDue _)).works o ho
  have hf := (List.mem_filter.mp hx).2
  rw [hid, heq] at hf
  simp at hf

/-- A slot toward a panel that is absent or lost is not sent: its operation ends. -/
theorem State.exec_slotSend_lost {w : Work} (hw : (s.fabric.works.find? fun w => w.qp == s.ev.qp && s.maySend w) = some w)
    (h : ¬ (s.fabric.reaches (s.qp s.ev.qp).peer = true
      ∧ s.fabric.lost.contains (streamOf s.ev.qp, (s.qp s.ev.qp).peer) = false)) :
    exec .slotSend s = .next (s.endWork w 4).postDue := by
  show execSlotSend s = _
  unfold execSlotSend
  dsimp only
  rw [hw]
  refine congrArg Host.Outcome.next (if_pos ?_)
  rw [Bool.or_eq_true, Bool.not_eq_true']
  rw [not_and_or, Bool.not_eq_true, Bool.not_eq_false] at h
  exact h

/-- The bytes of a work's next slot. -/
def State.nextBytes (s : State) (w : Work) (runs : List (Nat × Nat)) : List Byte :=
  if w.op = 1 then bytesOfNat 4 w.len else s.runBytes runs

theorem State.exec_slotSend_goes {w : Work} {runs : List (Nat × Nat)}
    (hw : (s.fabric.works.find? fun w => w.qp == s.ev.qp && s.maySend w) = some w)
    (h : s.fabric.reaches (s.qp s.ev.qp).peer = true)
    (hl : s.fabric.lost.contains (streamOf s.ev.qp, (s.qp s.ev.qp).peer) = false)
    (hr : s.localBytes (s.qp s.ev.qp).root w.next.1 w.next.2 .read = .ok runs) (hb : s.runBad runs = false) :
    exec .slotSend s = .next (s.emit w (s.nextBytes w runs)) := by
  show execSlotSend s = _
  unfold execSlotSend
  dsimp only
  rw [hw]
  refine congrArg Host.Outcome.next ((if_neg ?_).trans ?_)
  · rw [h, hl]
    exact Bool.false_ne_true
  · rw [State.fabTry_ok hr]
    exact if_neg (by rw [hb]; exact Bool.false_ne_true)

/-- The slot that a work sends next. -/
def State.nextSlot (s : State) (w : Work) (l : List Byte) : FabSlot :=
  slotReady { dst := (s.qp w.qp).peer, dstInc := s.fabric.incOf (s.qp w.qp).peer, src := s.fabric.panel, srcInc := s.fabric.inc
              kind := .data, stream := streamOf w.qp
              seq := Sparse.read s.fabric.nextSeq 0 (pairKey (streamOf w.qp) (s.qp w.qp).peer), job := (s.qp w.qp).job
              len := BitVec.ofNat 8 (if w.op = 1 then 0 else l.length), op := w.opWord (s.qp w.qp)
              hops := s.fabric.hopsTo (s.qp w.qp).peer, payload := (l ++ List.replicate 192 0).take 192 }

theorem slotReady_crc (t : FabSlot) : (slotReady t).crc = slotCrc (slotReady t) := rfl

/-- What sending a work's next slot does to the fabric, but for its way out. -/
theorem State.emit_frame (s : State) (w : Work) (l : List Byte) : (s.emit w l).dies = s.dies ∧ (s.emit w l).mem = s.mem
    ∧ (s.emit w l).panel = s.panel
    ∧ (s.emit w l).fabric.out = s.fabric.out ++ [{ slot := s.nextSlot w l, work := w.id, last := decide (w.sent + 1 = w.slots)
                                                   resends := 0, sentAt := s.fabTime }]
    ∧ (s.emit w l).fabric.nextSeq = Sparse.write s.fabric.nextSeq 0 (pairKey (streamOf w.qp) (s.qp w.qp).peer)
      (Sparse.read s.fabric.nextSeq 0 (pairKey (streamOf w.qp) (s.qp w.qp).peer) + 1) := by
  obtain ⟨hd, hm, hp, -, -, -, -, ho, -, -, -, -, -, hn, -⟩ :=
    ((State.sends_armResend _ _ _).trans (State.sends_sendFrom _ (s.nextSlot w l)) :
      State.SendsOnly (s.modFabric _) (s.emit w l)).frame
  exact ⟨hd, hm, hp, ho, hn⟩

/-! ### Checks at arrival -/

/-- Whether a slot of a kind is discarded before anything else: at a fault of its form, or of another incarnation. -/
def State.Counts (s : State) (i : Instr) (sound : FabSlot → Bool) : Prop :=
  (sound s.ev.slot = false → exec i s = .next (s.modFabric fun b => { b with bad := satInc b.bad }))
  ∧ (sound s.ev.slot = true → s.fabric.current s.ev.slot = false →
    exec i s = .next (s.modFabric fun b => { b with stale := satInc b.stale }))

/-- A step that first checks its slot. -/
theorem State.counts_of {i : Instr} {sound : FabSlot → Bool} {r : State}
    (h : exec i s = .next (if !sound s.ev.slot then s.slotBad else if !s.fabric.current s.ev.slot then s.slotStale else r)) :
    s.Counts i sound := by
  refine ⟨fun hs => ?_, fun hs hc => ?_⟩
  · rw [h, hs]
    rfl
  · rw [h, hs, hc]
    rfl

/-- A slot that passes its checks. -/
theorem State.passes_checks {i : Instr} {sound : FabSlot → Bool} {r : State}
    (h : exec i s = .next (if !sound s.ev.slot then s.slotBad else if !s.fabric.current s.ev.slot then s.slotStale else r))
    (hs : sound s.ev.slot = true) (hc : s.fabric.current s.ev.slot = true) : exec i s = .next r := by
  rw [h, hs, hc]
  rfl

/-! ### Acknowledgements and notices -/

theorem State.slotAckArrival_out (hs : slotSound s.ev.slot = true) (hc : s.fabric.current s.ev.slot = true) :
    ∃ t, exec .slotAckArrival s = .next t ∧ t.fabric.out = s.fabric.out.filter fun o =>
      !(o.slot.stream == s.ev.slot.stream && o.slot.dst == s.ev.slot.src && seqLe o.slot.seq s.ev.slot.seq) := by
  refine ⟨_, State.passes_checks rfl hs hc, ?_⟩
  exact congrArg Fabric.out (State.Ends.trans (State.Ends.foldl _ (fun s o => .ackOut s o _) _ _) (.postDue _)).fabric

theorem State.refusalNotice_holds {o : OutSlot} (hs : slotSound s.ev.slot = true) (hc : s.fabric.current s.ev.slot = true)
    (ho : s.fabric.outSlot s.ev.slot.stream s.ev.slot.src s.ev.slot.seq = some o) :
    exec .refusalNoticeArrival s = .next
      (((s.modFabric fun b => { b with notices := satInc b.notices }).modFabric fun b =>
          { b with heldFab := addNew b.heldFab ⟨s.ev.slot.stream, s.ev.slot.src, s.ev.slot.seq⟩ }).sched
        (s.cycle + max 1 (bits s.ev.slot.op 0 32)) .fabricRetryAfterExpiry
        { stream := s.ev.slot.stream, panel := s.ev.slot.src, slotSeq := s.ev.slot.seq }) := by
  rw [State.passes_checks (i := .refusalNoticeArrival) rfl hs hc]
  refine congrArg Host.Outcome.next ?_
  show (match s.fabric.outSlot s.ev.slot.stream s.ev.slot.src s.ev.slot.seq with | none => _ | some _ => _) = _
  rw [ho] <;> rfl

/-! ### Sending again -/

/-- What a resend does to the outstanding slots. -/
theorem State.resend_frame (s : State) (o : OutSlot) (n : Nat) : (s.resend o n).dies = s.dies ∧ (s.resend o n).mem = s.mem
    ∧ (s.resend o n).panel = s.panel ∧ (s.resend o n).fabric.resent = s.fabric.resent
    ∧ (s.resend o n).fabric.out = s.fabric.out.map fun e => if e = o then { o with resends := n, sentAt := s.fabTime } else e := by
  have h : State.SendsOnly (s.modFabric fun b =>
      { b with out := replaceIf (fun x => x == o) (fun _ => { o with resends := n, sentAt := s.fabTime }) b.out }) (s.resend o n) :=
    (State.sends_armResend _ _ _).trans (State.sends_sendFrom _ _)
  obtain ⟨hd, hm, hp, -, -, -, -, ho, -⟩ := h.frame
  refine ⟨hd, hm, hp, ?_, ho.trans ?_⟩
  · rw [show (s.resend o n).fabric = _ from congrArg State.fabric h]
    rfl
  · exact List.map_congr_left fun e _ => by simp only [beq_iff_eq]

theorem State.exec_fabricRetryAfterExpiry (s : State) : exec .fabricRetryAfterExpiry s = .next
    (match s.fabric.outSlot s.ev.stream s.ev.panel s.ev.slotSeq with
      | none => s
      | some o => s.resend o o.resends) := rfl

/-- A slot given up: its destination is lost for its stream, and it and the slots after it are discarded. -/
theorem State.streamLost_lost (s : State) (n : BitVec 16) (p : BitVec 18) (q : BitVec 24) :
    (n, p) ∈ (s.streamLost n p q).fabric.lost
    ∧ ∀ e ∈ (s.streamLost n p q).fabric.out, e.slot.stream = n → e.slot.dst = p → seqLe q e.slot.seq = false := by
  have h := ((State.Ends.endWorks _ _ 4).trans (.postDue _) : State.Ends (s.modFabric fun b =>
    { b with lost := addNew b.lost (n, p)
             out := b.out.filter fun x => !(x.slot.stream == n && x.slot.dst == p && seqLe q x.slot.seq)
             heldFab := b.heldFab.filter fun h => !(h.stream == n && h.panel == p) }) (s.streamLost n p q)).fabric
  refine ⟨?_, fun e he hn hp => ?_⟩
  · rw [show (s.streamLost n p q).fabric.lost = _ from congrArg Fabric.lost h]
    exact mem_addNew_self _ _
  · rw [show (s.streamLost n p q).fabric.out = _ from congrArg Fabric.out h] at he
    have hf := (List.mem_filter.mp he).2
    rw [hn, hp] at hf
    simpa using hf

theorem State.exec_slotResendTimeout {o : OutSlot} (ho : s.fabric.outSlot s.ev.stream s.ev.panel s.ev.slotSeq = some o) :
    exec .slotResendTimeout s = .next (
      if s.fabric.hold = true ∨ s.fabric.rto = 0 ∨ s.ev.id ≠ o.sentAt then s
      else if s.fabTime - o.sentAt < s.fabric.rtoCycles then s.armResend o (s.fabric.rtoCycles - (s.fabTime - o.sentAt))
      else if o.resends < s.fabric.retries.toNat then
        (s.modFabric fun b => { b with resent := satInc b.resent }).resend o (o.resends + 1)
      else s.streamLost s.ev.stream s.ev.panel s.ev.slotSeq) := by
  show execSlotResendTimeout s = _
  unfold execSlotResendTimeout
  dsimp only
  rw [ho]
  refine congrArg Host.Outcome.next (if_congr ?_ rfl rfl)
  rw [Bool.or_eq_true, Bool.or_eq_true, decide_eq_true_iff, decide_eq_true_iff, or_assoc]

/-! ### Windows -/

/-- The window that is held of a panel once it is changed. -/
theorem Fabric.windowOf_modPeer (b : Fabric) (p : BitVec 18) (n : Nat) :
    (b.modPeer p fun e => { e with window := n }).windowOf p = n := by
  unfold Fabric.modPeer
  split
  · next h =>
    obtain ⟨e, he, hp⟩ := List.any_eq_true.mp h
    show (((replaceIf (fun e => e.panel == p) (fun e : Peer => { e with window := n }) b.peers).find? fun e => e.panel == p).map
      fun e => e.window).getD _ = n
    rw [find_replaceIf (fun e : Peer => e.panel == p) (fun e : Peer => { e with window := n }) fun _ h => h]
    obtain ⟨x, hx⟩ := Option.isSome_iff_exists.mp (List.find?_isSome (p := fun e : Peer => e.panel == p) |>.mpr ⟨e, he, hp⟩)
    rw [hx]
    rfl
  · next h =>
    have hn : (b.peers.find? fun e => e.panel == p) = none :=
      List.find?_eq_none.mpr fun e he hp => h (List.any_eq_true.mpr ⟨e, he, hp⟩)
    show (((b.peers ++ [_]).find? fun e : Peer => e.panel == p).map fun e : Peer => e.window).getD _ = n
    rw [List.find?_append, hn]
    simp

end Sys2Proof.Machine
end

