-- ==== Sys2Proof/Proofs/QueuePairs.lean ====
section
/-! PROOFS. Arrival and commit of a data slot, and the queue pairs' commands, doorbells and entries (R389, R412 to R422). -/

namespace Sys2Proof.Machine

variable {s t : State}

/-! ### Arrival -/

theorem Fabric.inPair_key (b : Fabric) (p : BitVec 18) (n : BitVec 16) : (b.inPair p n).src = p ∧ (b.inPair p n).stream = n := by
  unfold Fabric.inPair
  cases h : b.inn.find? fun r => r.src == p && r.stream == n with
  | none => exact ⟨rfl, rfl⟩
  | some r =>
    have hr := List.find?_some h
    rw [Bool.and_eq_true, beq_iff_eq, beq_iff_eq] at hr
    exact hr

/-- What is read of a pair that has just been set. -/
theorem State.inPair_set {r : InPair} {p : BitVec 18} {n : BitVec 16} (hp : r.src = p) (hn : r.stream = n) :
    (s.setIn r).fabric.inPair p n = r := by
  rw [← hp, ← hn]
  exact s.inPair_setIn r

/-- The step of a slot that arrives, sound and of the standing incarnations. -/
theorem State.exec_slotArrival_passes (hf : s.ev.flag = false) (hs : dataSound s.ev.slot = true)
    (hc : s.fabric.current s.ev.slot = true) :
    exec .slotArrival s = .next (if s.ev.slot.kind != .data then s else s.takeData s.ev.slot) := by
  show execSlotArrival s = _
  unfold execSlotArrival
  dsimp only
  rw [hf, hs, hc]
  rfl

theorem State.takeData_granted {v : FabSlot} (h5 : s.feature 5 = true) (hg : (s.fabric.granted.any fun e => e.1 == v.src) = true) :
    s.takeData v = (if !seqLe (s.fabric.inPair v.src v.stream).next v.seq then
        (s.modFabric fun b => { b with resent := satInc b.resent }).ackSlot v ((s.fabric.inPair v.src v.stream).next - 1)
          (s.fabric.inPair v.src v.stream).status
      else if (s.fabric.inPair v.src v.stream).buf.any fun o => o.seq == v.seq then s
      else if v.seq ≠ (s.fabric.inPair v.src v.stream).next && reorderCapacity ≤ s.fabric.reorderUsed then s.refuseData v
      else
        ((s.setIn { s.fabric.inPair v.src v.stream with buf := (s.fabric.inPair v.src v.stream).buf ++ [v] }).commitPair v.src
          v.stream ((s.fabric.inPair v.src v.stream).buf.length + 1)).postDue) := by
  have hfirst : s.firstGrant v.src = s := if_pos hg
  unfold State.takeData
  rw [h5, hfirst]
  rfl

/-- The queue pair that a slot is for. -/
def slotQp (v : FabSlot) : Fin 8192 := Fin.ofNat 8192 (bits v.op 47 13)

/-- A WRITE that its queue pair admits, within the region and where its bytes can be reached, commits. -/
theorem State.commitSlot_write {v : FabSlot} {runs : List (Nat × Nat)} (hop : bits v.op 60 4 = 0)
    (ha : (s.qp (slotQp v)).admits v = true) (hl : slotOff v + (slotData v).length ≤ 2 ^ (s.qp (slotQp v)).regSize)
    (hr : s.localBytes (s.qp (slotQp v)).root ((s.qp (slotQp v)).regBase + BitVec.ofNat 64 (slotOff v)) (slotData v).length .write
      = .ok runs) :
    s.commitSlot v = (s.runWrite runs (slotData v), .ok 0) := by
  have hw : s.commitWrite (slotQp v) v = (s.runWrite runs (slotData v), .ok 0) := by
    unfold State.commitWrite State.commitTry
    dsimp only
    rw [if_neg (Nat.not_lt.mpr hl), State.fabTry_ok hr]
  rw [← hw]
  show (if !(s.qp (slotQp v)).admits v then _ else _) = _
  rw [ha, hop]
  rfl

/-- The slot that is next of its pair, the only one in the buffer, commits and is acknowledged. -/
theorem State.commitPair_one {r : InPair} {v : FabSlot} (hk : s.fabric.inPair v.src v.stream = r) (hb : r.buf = [v])
    (hn : r.next = v.seq) (hc : s.commitSlot v = (t, .ok 0)) :
    s.commitPair v.src v.stream 1 = (t.setIn { r with buf := [], next := v.seq + 1, status := 0 }).ackSlot v v.seq 0 := by
  rw [State.commitPair]
  dsimp only
  have hfind : [v].find? (fun o => o.seq == v.seq) = some v := List.find?_cons_of_pos (beq_self_eq_true v.seq)
  rw [hk, hb, hn, hfind]
  dsimp only
  rw [hc]
  dsimp only
  rw [List.filter_cons_of_neg (by simp), List.filter_nil]
  rfl

/-- With no completion in line nothing is posted. -/
theorem State.postDue_nil (h : s.fabric.due = []) : s.postDue = s := by
  unfold State.postDue
  rw [h]
  rfl

/-- A WRITE that is next of its pair and can be committed: its bytes are in memory, and the pair is past it. -/
theorem State.slotArrival_commits {v : FabSlot} {runs : List (Nat × Nat)} (hv : s.ev.slot = v) (hf : s.ev.flag = false)
    (hs : dataSound v = true) (hc : s.fabric.current v = true) (hkind : v.kind = .data) (h5 : s.feature 5 = true)
    (hg : (s.fabric.granted.any fun e => e.1 == v.src) = true) (hn : (s.fabric.inPair v.src v.stream).next = v.seq)
    (hbuf : (s.fabric.inPair v.src v.stream).buf = []) (hdue : s.fabric.due = []) (hop : bits v.op 60 4 = 0)
    (ha : (s.qp (slotQp v)).admits v = true) (hl : slotOff v + (slotData v).length ≤ 2 ^ (s.qp (slotQp v)).regSize)
    (hr : s.localBytes (s.qp (slotQp v)).root ((s.qp (slotQp v)).regBase + BitVec.ofNat 64 (slotOff v)) (slotData v).length .write
      = .ok runs) :
    ∃ t, exec .slotArrival s = .next t ∧ t.mem = (s.runWrite runs (slotData v)).mem ∧ t.dies = s.dies
      ∧ (t.fabric.inPair v.src v.stream).next = v.seq + 1 ∧ (t.fabric.inPair v.src v.stream).status = 0
      ∧ (t.fabric.inPair v.src v.stream).buf = [] := by
  obtain ⟨hsrc, hstream⟩ := s.fabric.inPair_key v.src v.stream
  generalize hp : s.fabric.inPair v.src v.stream = p at hn hbuf hsrc hstream
  let u := s.setIn { p with buf := [v] }
  let x := (u.runWrite runs (slotData v)).setIn { p with buf := [], next := v.seq + 1, status := 0 }
  have hcommit : u.commitSlot v = (u.runWrite runs (slotData v), .ok 0) :=
    State.commitSlot_write hop ha hl (by
      rw [State.localBytes_congr (t := u) (s := s) rfl rfl rfl]
      exact hr)
  have hpair : u.commitPair v.src v.stream 1 = x.ackSlot v v.seq 0 :=
    State.commitPair_one (r := { p with buf := [v] }) (State.inPair_set hsrc hstream) rfl hn hcommit
  have hw := State.Writes.runWrite runs u (slotData v)
  have hx : x.fabric = u.fabric.setIn { p with buf := [], next := v.seq + 1, status := 0 } :=
    congrArg (fun b : Fabric => b.setIn { p with buf := [], next := v.seq + 1, status := 0 }) hw.fabric
  obtain ⟨hd, hm, -, -, -, -, -, -, -, hi, -, hdu, -⟩ := (State.sends_ackSlot x v v.seq 0).frame
  have hinn : ((x.ackSlot v v.seq 0).fabric.inPair v.src v.stream) = { p with buf := [], next := v.seq + 1, status := 0 } := by
    rw [show (x.ackSlot v v.seq 0).fabric.inPair v.src v.stream = x.fabric.inPair v.src v.stream by
      unfold Fabric.inPair; rw [hi]]
    exact State.inPair_set hsrc hstream
  have hstep : exec .slotArrival s = .next (x.ackSlot v v.seq 0) := by
    rw [State.exec_slotArrival_passes hf (by rw [hv]; exact hs) (by rw [hv]; exact hc), hv, if_neg (by rw [hkind]; decide),
      State.takeData_granted h5 hg, hp, hn, hbuf]
    have hle : seqLe v.seq v.seq = true := by simp [seqLe]
    rw [hle, if_neg (by decide), if_neg (by simp), if_neg (by simp)]
    show Host.Outcome.next (State.postDue (u.commitPair v.src v.stream 1)) = _
    rw [hpair]
    refine congrArg Host.Outcome.next ?_
    exact State.postDue_nil (by rw [hdu, hx]; exact hdue)
  refine ⟨_, hstep, ?_, ?_, ?_, ?_, ?_⟩
  · rw [hm]
    exact State.runWrite_mem _ _ _ _ rfl
  · rw [hd]
    exact hw.dies
  · rw [hinn]
  · rw [hinn]
  · rw [hinn]

/-! ### Commands and doorbells -/

theorem State.qp_setQp_self (n : Fin 8192) (q : QPair) (h : Sparse.wf s.fabric.qps {} = true) : (s.setQp n q).qp n = q := by
  rw [s.qp_setQp n n q h, if_pos rfl]

theorem State.qp_modQp_self (n : Fin 8192) (f : QPair → QPair) (h : Sparse.wf s.fabric.qps {} = true) :
    (s.modQp n f).qp n = f (s.qp n) := State.qp_setQp_self n _ h

theorem State.exec_qpOff (h : s.feature 5 = false) :
    exec .qpLoad s = .next s ∧ exec .qpReset s = .next s ∧ exec .qpError s = .next s := by
  have h1 : (!s.feature 5) = true := by rw [h]; rfl
  exact ⟨congrArg Host.Outcome.next (if_pos (by rw [h1]; rfl)), congrArg Host.Outcome.next (if_pos h1),
    congrArg Host.Outcome.next (if_pos h1)⟩

theorem State.exec_qpLoad_error (h : (s.qp s.ev.qp).state = 2) : exec .qpLoad s = .next s :=
  congrArg Host.Outcome.next (if_pos (by rw [h, Bool.or_eq_true]; exact .inr (decide_eq_true rfl)))

theorem State.qpLoad_loads (h5 : s.feature 5 = true) (hwf : Sparse.wf s.fabric.qps {} = true) (h : (s.qp s.ev.qp).state ≠ 2) :
    ∃ t, exec .qpLoad s = .next t ∧ t.dies = s.dies ∧ t.qp s.ev.qp = s.loadedQp s.ev.qp := by
  have hw := State.Writes.syncQp ((s.dropWork s.ev.qp).setQp s.ev.qp (s.loadedQp s.ev.qp)) s.ev.qp
  refine ⟨_, congrArg Host.Outcome.next (if_neg ?_), hw.dies, (hw.qp _).trans ?_⟩
  · rw [h5, decide_eq_false h]
    exact Bool.false_ne_true
  · exact State.qp_setQp_self (s := s.dropWork s.ev.qp) _ _ hwf

theorem State.qpReset_resets (h5 : s.feature 5 = true) (hwf : Sparse.wf s.fabric.qps {} = true) :
    ∃ t, exec .qpReset s = .next t ∧ t.dies = s.dies ∧ t.qp s.ev.qp = { s.qp s.ev.qp with state := 0 }
      ∧ t.fabric.works = s.fabric.works.filter fun w => w.qp != s.ev.qp := by
  have hw := State.Writes.syncQp ((s.dropWork s.ev.qp).modQp s.ev.qp fun q => { q with state := 0 }) s.ev.qp
  refine ⟨_, congrArg Host.Outcome.next (if_neg ?_), hw.dies, (hw.qp _).trans ?_, congrArg Fabric.works hw.fabric⟩
  · rw [h5]
    exact Bool.false_ne_true
  · exact State.qp_modQp_self (s := s.dropWork s.ev.qp) _ _ hwf

/-- A queue pair that fails is in error, and has no work left. -/
theorem State.qpFails_error (hwf : Sparse.wf s.fabric.qps {} = true) (n : Fin 8192) : ((s.qpFails n).qp n).state = 2 := by
  unfold State.qpFails
  split
  · next h => exact h
  · have h : s.Ends ((s.modQp n fun q => { q with state := 2 }).syncQp n) :=
      (State.Ends.modQp s n _ fun _ => rfl).trans (.of_writes (.syncQp _ n))
    refine ((State.Ends.foldl _ (fun s w => .addDue s _) _ _).trans (.filterWorks _ _)).failed (h.wf hwf) n ?_
    rw [(State.Writes.syncQp _ n).qp, State.qp_modQp_self _ _ hwf]

theorem State.qpFails_works {n : Fin 8192} (h : (s.qp n).state ≠ 2) : ∀ w ∈ (s.qpFails n).fabric.works, w.qp ≠ n := by
  unfold State.qpFails
  rw [if_neg h]
  intro w hw
  exact bne_iff_ne.mp (List.mem_filter.mp hw).2

theorem State.qpError_fails (h5 : s.feature 5 = true) (hwf : Sparse.wf s.fabric.qps {} = true) (h : (s.qp s.ev.qp).state ≠ 2) :
    ∃ t, exec .qpError s = .next t ∧ (t.qp s.ev.qp).state = 2 ∧ ∀ w ∈ t.fabric.works, w.qp ≠ s.ev.qp := by
  have hp := State.Ends.postDue (s.qpFails s.ev.qp)
  refine ⟨_, congrArg Host.Outcome.next (if_neg ?_), ?_, ?_⟩
  · rw [h5]
    exact Bool.false_ne_true
  · exact hp.failed ((State.Ends.qpFails s s.ev.qp).wf hwf) _ (State.qpFails_error hwf _)
  · intro w hw
    obtain ⟨v, hv, -, hq⟩ := hp.works w hw
    rw [← hq]
    exact State.qpFails_works h v hv

/-- A tail within range is taken. -/
theorem State.ring_send {n : Fin 8192} {v : BitVec 32} (h : (v - (s.qp n).sHead).toNat ≤ 2 ^ (s.qp n).sqSize) :
    s.ring n false v = s.modQp n fun q => { q with sTail := v } := if_pos h

theorem State.ring_recv {n : Fin 8192} {v : BitVec 32} (h : (v - (s.qp n).rHead).toNat ≤ 2 ^ (s.qp n).rqSize) :
    s.ring n true v = s.modQp n fun q => { q with rTail := v } := if_pos h

/-- A tail out of range puts the queue pair into error. -/
theorem State.ring_fails {n : Fin 8192} {v : BitVec 32} (h : 2 ^ (s.qp n).sqSize < (v - (s.qp n).sHead).toNat) :
    s.ring n false v = (s.addDue (s.completionOf n (BitVec.allOnes 64) 3 0 false 0 0)).qpFails n := if_neg (Nat.not_le.mpr h)

theorem State.Ends.ring (s : State) (n : Fin 8192) (recv : Bool) (v : BitVec 32) : s.Ends (s.ring n recv v) := by
  cases recv
  · by_cases h : (v - (s.qp n).sHead).toNat ≤ 2 ^ (s.qp n).sqSize
    · rw [State.ring_send h]
      exact .modQp s n _ id
    · rw [State.ring_fails (Nat.not_le.mp h)]
      exact (State.Ends.addDue s _).trans (.qpFails _ n)
  · by_cases h : (v - (s.qp n).rHead).toNat ≤ 2 ^ (s.qp n).rqSize
    · rw [State.ring_recv h]
      exact .modQp s n _ id
    · rw [show s.ring n true v = (s.addDue (s.completionOf n (BitVec.allOnes 64) 3 0 true 0 0)).qpFails n from if_neg h]
      exact (State.Ends.addDue s _).trans (.qpFails _ n)

theorem State.exec_doorbellWrite (s : State) : exec .doorbellWrite s = .next (
    if (s.qp s.ev.qp).state = 0 then s
    else (((s.ring s.ev.qp false (s.ev.val.extractLsb' 0 32)).ring s.ev.qp true (s.ev.val.extractLsb' 32 32)).syncQp
      s.ev.qp).postDue) := by
  have hb : ∀ lo, BitVec.ofNat 32 (bits s.ev.val lo 32) = s.ev.val.extractLsb' lo 32 := fun lo => by
    rw [bits_eq, BitVec.ofNat_toNat, BitVec.setWidth_eq]
  show execDoorbellWrite s = _
  unfold execDoorbellWrite
  dsimp only
  rw [hb 0, (State.Ends.ring s s.ev.qp false (s.ev.val.extractLsb' 0 32)).ev, hb 32]

theorem State.doorbell_takes (h : (s.qp s.ev.qp).state ≠ 0) (hwf : Sparse.wf s.fabric.qps {} = true)
    (hs : (s.ev.val.extractLsb' 0 32 - (s.qp s.ev.qp).sHead).toNat ≤ 2 ^ (s.qp s.ev.qp).sqSize)
    (hr : (s.ev.val.extractLsb' 32 32 - (s.qp s.ev.qp).rHead).toNat ≤ 2 ^ (s.qp s.ev.qp).rqSize) (hdue : s.fabric.due = []) :
    ∃ t, exec .doorbellWrite s = .next t ∧ t.dies = s.dies
      ∧ t.qp s.ev.qp = { s.qp s.ev.qp with sTail := s.ev.val.extractLsb' 0 32, rTail := s.ev.val.extractLsb' 32 32 } := by
  have hring := State.exec_doorbellWrite s
  rw [if_neg h] at hring
  generalize s.ev.qp = n, s.ev.val.extractLsb' 0 32 = v, s.ev.val.extractLsb' 32 32 = w at *
  have h1 : (s.modQp n fun q => { q with sTail := v }).qp n = { s.qp n with sTail := v } := State.qp_modQp_self n _ hwf
  rw [State.ring_send hs, State.ring_recv (by rw [h1]; exact hr)] at hring
  have hw := State.Writes.syncQp ((s.modQp n fun q => { q with sTail := v }).modQp n fun q => { q with rTail := w }) n
  refine ⟨_, hring.trans (congrArg Host.Outcome.next (State.postDue_nil ?_)), hw.dies, (hw.qp n).trans ?_⟩
  · rw [hw.fabric]
    exact hdue
  · rw [State.qp_modQp_self n _ ((State.Ends.modQp s n (fun q => { q with sTail := v }) id).wf hwf), h1]

theorem State.doorbell_fails (h : (s.qp s.ev.qp).state ≠ 0) (hwf : Sparse.wf s.fabric.qps {} = true)
    (hs : 2 ^ (s.qp s.ev.qp).sqSize < (s.ev.val.extractLsb' 0 32 - (s.qp s.ev.qp).sHead).toNat) :
    ∃ t, exec .doorbellWrite s = .next t ∧ (t.qp s.ev.qp).state = 2 := by
  have hring := State.exec_doorbellWrite s
  rw [if_neg h] at hring
  generalize s.ev.qp = n, s.ev.val.extractLsb' 0 32 = v, s.ev.val.extractLsb' 32 32 = w at *
  have he : ((s.ring n false v).qp n).state = 2 := by
    rw [State.ring_fails hs]
    exact State.qpFails_error (s := s.addDue _) hwf n
  have hp := ((State.Ends.ring (s.ring n false v) n true w).trans (.of_writes (.syncQp _ n))).trans (.postDue _)
  exact ⟨_, hring, hp.failed ((State.Ends.ring s n false v).wf hwf) n he⟩

/-! ### Serving entries -/

theorem State.exec_workEntryServe_reset (h : (s.qp s.ev.qp).state = 0) : exec .workEntryServe s = .next s :=
  congrArg Host.Outcome.next (if_pos (by rw [h]; rfl))

/-- A ready queue pair's send entry that can be read: it becomes work, or it ends in error. -/
theorem State.exec_workEntryServe {runs : List (Nat × Nat)} (h : (s.qp s.ev.qp).state = 1) (hf : s.ev.flag = false)
    (hne : (s.qp s.ev.qp).sHead ≠ (s.qp s.ev.qp).sTail)
    (hr : s.localBytes (s.qp s.ev.qp).root ((s.qp s.ev.qp).sqBase
      + BitVec.ofNat 64 (64 * ((s.qp s.ev.qp).sHead.toNat % 2 ^ (s.qp s.ev.qp).sqSize))) 64 .read = .ok runs)
    (hb : s.runBad runs = false) :
    let u := s.modFabric fun b => { b with lastServed := s.ev.qp }
    let l := s.runBytes runs
    exec .workEntryServe s = .next (if entryBad l = true then
        (u.entryEnds s.ev.qp false (wordAt l 1) (BitVec.ofNat 4 (bits (wordAt l 0) 60 4)) 8).postDue
      else ((u.pastEntry s.ev.qp false).modFabric fun b => { b with works := b.works ++ [workOf s.fresh s.ev.qp l] }).takeFresh) := by
  intro u l
  have hw : u.entryWords s.ev.qp false = (u, .done runs) := by
    unfold State.entryWords
    dsimp only
    rw [if_neg Bool.false_ne_true]
    refine State.fabTry_ok ?_
    rw [State.localBytes_congr (t := u) (s := s) rfl rfl rfl]
    exact hr
  show execWorkEntryServe s = _
  unfold execWorkEntryServe
  dsimp only
  rw [hf, h]
  refine congrArg Host.Outcome.next ((if_neg ?_).trans ?_)
  · simp [hne]
  · rw [if_pos rfl, show State.entryWords _ s.ev.qp false = _ from hw]
    dsimp only
    have hbu : u.runBad runs = false := hb
    have hl : u.runBytes runs = l := rfl
    rw [if_neg (by decide), hbu, if_neg Bool.false_ne_true, hl, if_neg Bool.false_ne_true, if_neg Bool.false_ne_true] <;> rfl

theorem State.writes_pastEntry (s : State) (n : Fin 8192) :
    (s.modQp n fun q => { q with sHead := q.sHead + 1 }).Writes (s.pastEntry n false) := .syncQp _ n

theorem State.pastEntry_frame (hwf : Sparse.wf s.fabric.qps {} = true) (n : Fin 8192) :
    (s.pastEntry n false).dies = s.dies ∧ (s.pastEntry n false).fabric.works = s.fabric.works
      ∧ (s.pastEntry n false).fabric.lastServed = s.fabric.lastServed
      ∧ ((s.pastEntry n false).qp n).sHead = (s.qp n).sHead + 1 := by
  have hw := s.writes_pastEntry n
  generalize s.pastEntry n false = x at hw ⊢
  refine ⟨hw.dies, (congrArg Fabric.works hw.fabric :), (congrArg Fabric.lastServed hw.fabric :), ?_⟩
  rw [hw.qp, State.qp_modQp_self n _ hwf]

/-- A valid entry becomes work. -/
theorem State.entryServe_works (n : Fin 8192) (w : Work) (hwf : Sparse.wf s.fabric.qps {} = true) :
    let t := (((s.modFabric fun b => { b with lastServed := n }).pastEntry n false).modFabric fun b =>
      { b with works := b.works ++ [w] }).takeFresh
    t.dies = s.dies ∧ t.fabric.works = s.fabric.works ++ [w] ∧ (t.qp n).sHead = (s.qp n).sHead + 1 ∧ t.fabric.lastServed = n := by
  obtain ⟨hd, hw, hl, hq⟩ := State.pastEntry_frame (s := s.modFabric fun b => { b with lastServed := n }) hwf n
  generalize State.pastEntry _ n false = x at *
  exact ⟨hd, congrArg (· ++ [w]) hw, hq, hl⟩

theorem State.entryServe_fails {n : Fin 8192} (wr : Word) (op : BitVec 4) (v : BitVec 8) (hwf : Sparse.wf s.fabric.qps {} = true) :
    ((s.entryEnds n false wr op v).postDue.qp n).state = 2 := by
  have hp : s.Ends (s.pastEntry n false) := (State.Ends.modQp s n _ id).trans (.of_writes (.syncQp _ n))
  have hd := hp.trans (.addDue _ ((s.pastEntry n false).completionOf n wr v op false 0 0))
  have he := State.qpFails_error (hd.wf hwf) n
  exact (State.Ends.postDue _).failed ((hd.trans (.qpFails _ n)).wf hwf) n he

end Sys2Proof.Machine
end

