-- ==== Sys2Proof/Proofs/FabricSteps.lean ====
section
/-! PROOFS. The fabric's steps: flits, slots, pairs and queue pairs (R383 to R396, R410 to R422). -/

namespace Sys2Proof.Machine

variable {s : State}

/-- What sending leaves of the dies, of memory and of the panel. -/
theorem State.SendsOnly.quiet {t : State} (h : s.SendsOnly t) : t.dies = s.dies ∧ t.mem = s.mem ∧ t.panel = s.panel := by
  obtain ⟨hd, hm, hp, -⟩ := h.frame
  exact ⟨hd, hm, hp⟩

/-- A flit that is next of its port is taken. -/
theorem State.flitReceive_next {f : Flit} (hl : (s.port s.ev.port).enable = true ∧ (s.port s.ev.port).up = true)
    (hf : ((s.port s.ev.port).gather s.ev.wire).bind flitOfWire = some f) (hi : f.idle = false)
    (hn : f.lseq = (s.port s.ev.port).expectSeq) : exec .flitReceive s = .next (s.acceptFlit s.ev.port f) := by
  rw [State.exec_flitReceive, if_neg (not_not.mpr hl), hf]
  dsimp only
  rw [if_neg (by rw [hi]; exact Bool.false_ne_true), if_neg (not_not.mpr hn)]

theorem State.exec_slotForward_expires (h : s.ev.slot.hops.toNat ≤ 1) :
    exec .slotForward s = .next (s.modFabric fun b => { b with expired := satInc b.expired }) := by
  have hn : hopLess s.ev.slot = none := if_pos h
  show execSlotForward s = _
  unfold execSlotForward
  dsimp only
  rw [hn] <;> rfl

theorem State.exec_slotArrival_new (hf : s.ev.flag = false) : exec .slotArrival s = .next
    (if !dataSound s.ev.slot then s.slotBad else if !s.fabric.current s.ev.slot then s.slotStale
      else if s.ev.slot.kind != .data then s else s.takeData s.ev.slot) :=
  congrArg Host.Outcome.next (if_neg (by rw [hf]; exact Bool.false_ne_true))

theorem State.extract32_max (w : Word) : max 1 (w.extractLsb' 0 32).toNat = max 1 (bits w 0 32) := by rw [bits_eq]

/-- Settles O59: each step of the fabric by its own lemma; what a step ends (completions, failing queue pairs, posting)
changes only what `State.Ends` says, and what it sends only what `State.SendsOnly` says. -/
theorem fabricSteps : Obligations.FabricSteps := by
  unfold Obligations.FabricSteps
  intro s p q b quiet live later slot counts
  refine ⟨⟨?_, fun f hl hf => ⟨fun hi => ?_, fun hi hn => ?_, fun hi hn => ?_⟩⟩, ?c2, ?c3, ?c4, ?c5, ?c6, ?c7, ?c8, ?c9,
    ⟨State.counts_of rfl, ?c10⟩, ⟨?_, ?c11⟩, ⟨State.counts_of rfl, ?c12⟩, ⟨State.counts_of rfl, ?c13⟩, ?c14, ?c15, ?c16⟩
  · intro h
    rw [State.exec_flitReceive]
    by_cases hl : live
    · rw [if_neg (not_not.mpr hl), h.resolve_left (not_not.mpr hl)]
    · rw [if_pos hl]
  · rw [State.exec_flitReceive, if_neg (not_not.mpr hl), hf]
    exact congrArg Host.Outcome.next (if_pos hi)
  · rw [State.exec_flitReceive, if_neg (not_not.mpr hl), hf]
    exact congrArg Host.Outcome.next ((if_neg (by rw [hi]; exact Bool.false_ne_true)).trans (if_pos hn))
  · have hr := s.receiver_acceptFlit p f
    exact ⟨_, State.flitReceive_next hl hf hi hn, (s.sends_acceptFlit p f).quiet, congrArg Prod.fst hr,
      congrArg (fun v : BitVec 8 × BitVec 8 × List Flit => v.2.1) hr,
      congrArg (fun v : BitVec 8 × BitVec 8 × List Flit => v.2.2) hr⟩
  case c2 =>
    intro r
    refine ⟨State.exec_linkReplay_none, fun hr hf => ?_, fun hr hf hs => ?_⟩
    · refine ⟨_, (State.exec_linkReplay hr).1 hf, ⟨rfl, rfl, rfl⟩, State.port_modPort s p _, mem_addNew_self _ _⟩
    · refine ⟨_, (State.exec_linkReplay hr).2 hf hs, ⟨rfl, rfl, rfl⟩, ?_, mem_addNew_self _ _, ?_⟩
      · exact (State.port_modPort _ p _).trans (congrArg (fun q : Port => { q with ackAt := s.cycle }) (State.port_modPort s p _))
      · exact List.mem_append_right _ (List.mem_singleton.mpr rfl)
  case c3 =>
    refine ⟨fun hl => ?_, fun hl hc hf => ?_, fun hl hc => ?_⟩
    · rw [State.exec_lackIdleFlit, if_pos hl]
    · rw [State.exec_lackIdleFlit, if_neg (not_not.mpr hl), if_pos ⟨hc, hf⟩]
      rfl
    · refine ⟨_, (State.exec_lackIdleFlit s).trans (congrArg Host.Outcome.next ((if_neg (not_not.mpr hl)).trans
        (if_neg ?_))), ⟨rfl, rfl, rfl⟩, State.port_modPort s p _, mem_addNew_self _ _,
        List.mem_append_right _ (List.mem_singleton.mpr rfl)⟩
      rintro ⟨hn, hf⟩
      obtain h | h := hc
      · exact absurd hn (Nat.not_lt.mpr h)
      · exact Bool.false_ne_true (h.symm.trans hf)
  case c4 =>
    intro m
    refine ⟨fun h6 => ?_, fun h6 hm => ?_, fun h6 hm => ?_⟩
    · rw [State.exec_lnkModeWrite, if_pos h6]
    · rw [State.exec_lnkModeWrite, if_neg (by rw [h6]; decide), if_pos hm]
    · exact ⟨_, (State.exec_lnkModeWrite s).trans (congrArg Host.Outcome.next ((if_neg (by rw [h6]; decide)).trans (if_neg hm))),
        ⟨rfl, rfl, rfl⟩, State.port_modPort s p _, List.mem_append_right _ (List.mem_singleton.mpr rfl)⟩
  case c5 =>
    refine fun m n h => ⟨fun hn => ?_, fun hn => ?_⟩
    · rw [State.exec_modeRequestTimeout h, if_pos hn]
    · exact ⟨_, (State.exec_modeRequestTimeout h).trans (congrArg Host.Outcome.next (if_neg hn)), ⟨rfl, rfl, rfl⟩,
        State.port_modPort s p _, List.mem_append_right _ (List.mem_singleton.mpr rfl)⟩
  case c6 =>
    intro w hw k stream key seq goes
    refine ⟨fun hg => ⟨_, State.exec_slotSend_lost hw hg, State.endWork_gone s w 4⟩, fun runs hg hr hb hwf => ?_⟩
    have hq : w.qp = s.ev.qp := by
      have := List.find?_some hw
      rw [Bool.and_eq_true, beq_iff_eq] at this
      exact this.1
    obtain ⟨hd, hm, hp, ho, hn⟩ := s.emit_frame w (s.nextBytes w runs)
    rw [hq] at hn
    refine ⟨_, _, State.exec_slotSend_goes hw hg.1 hg.2 hr hb, ⟨hd, hm, hp⟩, ho, ?_, rfl, rfl, rfl, ?_⟩
    · rw [hn, Sparse.read_write _ _ _ hwf, if_pos rfl]
    · dsimp only [State.nextSlot, slotReady]
      rw [hq]
      exact ⟨rfl, rfl, rfl, rfl, rfl, rfl, rfl, rfl⟩
  case c7 =>
    refine ⟨State.exec_slotForward_expires, fun hh r dir peer hn => ?_⟩
    intro on
    obtain ⟨hpick, hwait⟩ := State.exec_slotForward hh hn
    exact ⟨hpick, fun hp => ⟨_, _, hwait hp, ⟨rfl, rfl, rfl⟩, rfl, rfl, List.mem_append_right _ (List.mem_singleton.mpr rfl)⟩⟩
  case c8 =>
    intro hf
    refine ⟨State.counts_of (State.exec_slotArrival_new hf), fun hs hc => ?_⟩
    intro a
    have hstep := State.exec_slotArrival_passes hf hs hc
    refine ⟨fun hk => ?_, fun hk h5 => ?_, fun hk h5 hg => ⟨fun hd => ?_, ?_⟩⟩
    · rw [hstep, if_pos (bne_iff_ne.mpr hk)]
    · rw [hstep, if_neg (by rw [hk]; decide)]
      exact congrArg Host.Outcome.next (if_pos (by rw [h5]; rfl))
    · rw [hstep, if_neg (by rw [hk]; decide), State.takeData_granted h5 hg]
      exact congrArg Host.Outcome.next (if_pos (by rw [hd]; rfl))
    · intro runs hn hbuf hdue hop n l ha hl hr
      have hqp : slotQp slot = n := by
        unfold slotQp
        rw [bits_eq]
      rw [← hqp] at ha hl hr
      exact State.slotArrival_commits rfl hf hs hc hk h5 hg hn hbuf hdue (by rw [bits_eq, hop]; rfl) ha hl hr
  case c9 => exact ⟨State.counts_of rfl, State.slotAckArrival_out⟩
  case c10 =>
    intro o hs hc ho
    refine ⟨_, State.refusalNotice_holds hs hc ho, ⟨rfl, rfl, rfl⟩, rfl, mem_addNew_self _ _, ?_⟩
    rw [State.extract32_max]
    exact List.mem_append_right _ (List.mem_singleton.mpr rfl)
  · intro ho
    rw [State.exec_fabricRetryAfterExpiry, ho]
  case c11 =>
    intro o ho
    obtain ⟨hd, hm, hp, -, hout⟩ := s.resend_frame o o.resends
    refine ⟨_, ?_, ⟨hd, hm, hp⟩, hout⟩
    rw [State.exec_fabricRetryAfterExpiry, ho]
  case c12 =>
    intro hs hc
    refine ⟨_, State.passes_checks rfl hs hc, ⟨rfl, rfl, rfl⟩, ?_⟩
    rw [← bits_eq]
    exact Fabric.windowOf_modPeer _ _ _
  case c13 =>
    intro hs hc
    rw [State.passes_checks (i := .drainMarkerArrival) rfl hs hc, bits_eq, BitVec.ofNat_toNat, BitVec.setWidth_eq]
  case c14 =>
    intro o ho off
    rw [State.exec_slotResendTimeout ho]
    refine ⟨fun h => ?_, fun h hg hr => ?_, fun h hg hr => ?_⟩
    · rw [if_pos h]
    · rw [if_neg h, if_neg (Nat.not_lt.mpr hg), if_pos hr]
      obtain ⟨hd, hm, hp, hres, hout⟩ :=
        (s.modFabric fun b => { b with resent := satInc b.resent }).resend_frame o (o.resends + 1)
      exact ⟨_, rfl, ⟨hd, hm, hp⟩, hres, hout⟩
    · rw [if_neg h, if_neg (Nat.not_lt.mpr hg), if_neg (Nat.not_lt.mpr hr)]
      exact ⟨_, rfl, s.streamLost_lost _ _ _⟩
  case c15 =>
    intro l
    rw [State.exec_slotPortWaitExpiry]
    have hlist : s.waitList = l := rfl
    rw [hlist]
    refine ⟨fun w hw => ?_, fun hn => by rw [hn]⟩
    intro gone
    rw [hw]
    refine ⟨fun hh => ?_, fun hh hg => ?_, fun hh hg => ?_⟩
    · exact congrArg Host.Outcome.next (if_pos hh)
    · exact congrArg Host.Outcome.next ((if_neg (by rw [hh]; exact Bool.false_ne_true)).trans (if_pos hg))
    · dsimp only
      rw [if_neg (by rw [hh]; exact Bool.false_ne_true), if_neg (Nat.not_le.mpr hg)]
      by_cases hf : s.ev.flag = true
      · have hl : l = b.stuck := if_pos hf
        rw [if_pos hf, hl]
        exact ⟨_, rfl, ⟨rfl, rfl, rfl⟩, rfl, if_pos hf⟩
      · have hl : l = q.waiting := if_neg hf
        rw [if_neg hf, hl]
        exact ⟨_, rfl, ⟨rfl, rfl, rfl⟩, rfl, (if_neg hf).trans (congrArg Port.waiting (State.port_modPort s p _))⟩
  case c16 =>
    intro n k sTail rTail
    refine ⟨State.exec_qpOff, State.exec_qpLoad_error, fun h5 hwf => ⟨State.qpLoad_loads h5 hwf, State.qpReset_resets h5 hwf,
      State.qpError_fails h5 hwf⟩, fun h0 => ?_, fun h0 hwf => ⟨State.doorbell_takes h0 hwf, State.doorbell_fails h0 hwf⟩,
      fun runs h1 hf hne hwf hr hb => ?_, State.exec_workEntryServe_reset⟩
    · rw [State.exec_doorbellWrite, if_pos h0]
    · have hstep := State.exec_workEntryServe h1 hf hne hr hb
      dsimp only at hstep
      refine ⟨fun hbad => ?_, fun hbad => ?_⟩
      · obtain ⟨hd, hw, hq, hl⟩ := State.entryServe_works (s := s) n (workOf s.fresh n (s.runBytes runs)) hwf
        exact ⟨_, hstep.trans (congrArg Host.Outcome.next (if_neg (by rw [hbad]; exact Bool.false_ne_true))), hd, hw, hq, hl⟩
      · rw [if_pos hbad] at hstep
        exact ⟨_, hstep, State.entryServe_fails (s := s.modFabric fun b => { b with lastServed := n }) _ _ _ hwf⟩

end Sys2Proof.Machine
end

