-- ==== Sys2Proof/Proofs/Stores.lean ====
section
/-! PROOFS. What a state stores: panel memory and the tables of every die. Most of what a step does leaves the store as it
is; one lemma per function of the model says so, and a state with the same store reads the same bytes and is as canonical
(R186 to R189, R307). -/

namespace Sys2Proof.Machine

variable {s t : State} {x y : Die}

/-! ### The store -/

/-- The tables of a die: its banks with their folds, its tags and truth tables, its steward memory, the bytes of its operand
slots, and the weights, accumulators and counts of its arrays. -/
structure DieStore where
  bank : Memory
  folds : Vector Fold 128
  tags : Sparse (BitVec 8)
  truth : Sparse (BitVec 512)
  sram : Memory
  slots : List Memory
  arrays : List (Sparse (BitVec 16) × Sparse (BitVec 16) × Sparse (BitVec 16) × Sparse (BitVec 16) × Sparse (BitVec 32)
    × Sparse (BitVec 32))

/-- The tables of an array: its weights and their scales, live and shadow, its accumulators and its counts. -/
def Arr.tables (a : Arr) : Sparse (BitVec 16) × Sparse (BitVec 16) × Sparse (BitVec 16) × Sparse (BitVec 16)
    × Sparse (BitVec 32) × Sparse (BitVec 32) :=
  (a.live.w, a.live.scale, a.shadow.w, a.shadow.scale, a.acc, a.cnt)

def Die.store (x : Die) : DieStore :=
  { bank := x.bank, folds := x.folds, tags := x.tags, truth := x.truth, sram := x.boot.sram
    slots := x.slots.toList.map Slot.bytes, arrays := x.arrays.toList.map Arr.tables }

/-- What a state stores: panel memory and the tables of every die. -/
structure Store where
  mem : Memory
  die : DieId → DieStore

def State.store (s : State) : Store := { mem := s.mem, die := fun d => (s.die d).store }

/-! ### Canonical stores -/

/-- The tables of a die are in canonical form. -/
structure DieStore.Canonical (m : DieStore) : Prop where
  bank : m.bank.wf = true
  tags : Sparse.wf m.tags 0 = true
  truth : Sparse.wf m.truth Config.truthDefault = true
  sram : m.sram.wf = true
  slots : ∀ b ∈ m.slots, b.wf = true
  arrays : ∀ a ∈ m.arrays, ((Sparse.wf a.1 0 = true ∧ Sparse.wf a.2.1 0x3C00 = true)
    ∧ Sparse.wf a.2.2.1 0 = true ∧ Sparse.wf a.2.2.2.1 0x3C00 = true)
    ∧ Sparse.wf a.2.2.2.2.1 0 = true ∧ Sparse.wf a.2.2.2.2.2 0 = true

structure Store.Canonical (m : Store) : Prop where
  mem : m.mem.wf = true
  die : ∀ d, (m.die d).Canonical

theorem Arr.wf_iff_tables (a : Arr) : a.wf = true ↔ ((Sparse.wf a.tables.1 0 = true ∧ Sparse.wf a.tables.2.1 0x3C00 = true)
    ∧ Sparse.wf a.tables.2.2.1 0 = true ∧ Sparse.wf a.tables.2.2.2.1 0x3C00 = true)
    ∧ Sparse.wf a.tables.2.2.2.2.1 0 = true ∧ Sparse.wf a.tables.2.2.2.2.2 0 = true := by
  unfold Arr.wf Weights.wf Arr.tables
  simp only [Bool.and_eq_true, and_assoc]

theorem Die.wf_iff_canonical (x : Die) : x.wf = true ↔ x.store.Canonical := by
  rw [Die.wf_iff]
  have hs : x.slots.toList.all (fun t => t.bytes.wf) = true ↔ ∀ b ∈ x.store.slots, b.wf = true := by
    rw [List.all_eq_true, show x.store.slots = x.slots.toList.map Slot.bytes from rfl, List.forall_mem_map]
  have ha : x.arrays.toList.all Arr.wf = true ↔ ∀ a ∈ x.store.arrays, ((Sparse.wf a.1 0 = true ∧ Sparse.wf a.2.1 0x3C00 = true)
      ∧ Sparse.wf a.2.2.1 0 = true ∧ Sparse.wf a.2.2.2.1 0x3C00 = true)
      ∧ Sparse.wf a.2.2.2.2.1 0 = true ∧ Sparse.wf a.2.2.2.2.2 0 = true := by
    rw [List.all_eq_true, show x.store.arrays = x.arrays.toList.map Arr.tables from rfl, List.forall_mem_map]
    exact forall_congr' fun a => imp_congr_right fun _ => a.wf_iff_tables
  rw [hs, ha]
  exact ⟨fun ⟨h1, h2, h3, h4, h5, h6⟩ => ⟨h1, h2, h3, h4, h5, h6⟩, fun ⟨h1, h2, h3, h4, h5, h6⟩ => ⟨h1, h2, h3, h4, h5, h6⟩⟩

theorem State.wf_iff_canonical (s : State) : s.wf = true ↔ s.store.Canonical := by
  rw [State.wf_iff]
  exact ⟨fun ⟨hm, hd⟩ => ⟨hm, fun d => ((s.die d).wf_iff_canonical).mp (hd d)⟩,
    fun ⟨hm, hd⟩ => ⟨hm, fun d => ((s.die d).wf_iff_canonical).mpr (hd d)⟩⟩

/-- A state with the same store reads the same bytes. -/
theorem State.sameBytes_of_store (h : t.store = s.store) : s.SameBytes t := by
  refine ⟨fun a => by rw [show t.mem = s.mem from congrArg Store.mem h], fun d a => ?_⟩
  have hd : (t.die d).store = (s.die d).store := congrFun (congrArg Store.die h) d
  unfold Die.bankByte
  rw [show (t.die d).bank = (s.die d).bank from congrArg DieStore.bank hd,
    show (t.die d).folds = (s.die d).folds from congrArg DieStore.folds hd]

theorem State.store_mem (h : t.store = s.store) : t.mem = s.mem := congrArg Store.mem h

theorem State.store_die (h : t.store = s.store) (d : DieId) : (t.die d).store = (s.die d).store := congrFun (congrArg Store.die h) d

/-! ### Die by die -/

theorem Die.store_def (x : Die) : x.store = ⟨x.bank, x.folds, x.tags, x.truth, x.boot.sram,
    x.slots.toList.map Slot.bytes, x.arrays.toList.map Arr.tables⟩ := by
  cases x
  rfl

/-- What a die has besides its tables is not stored. -/
@[simp] theorem Die.store_with
    (inService' : Bool) (draining' : Bool) (incarnation' : BitVec 8) (cycBase' : Nat) (syncBase' : Nat)
    (seq' : Sequencer) (ctxs' : Vector Ctx 4) (bankBad' : Sparse EccMark) (foldEvts' : List (FoldId × FoldEvt))
    (tokEvts' : List (CtxId × TokId × TokState)) (stamps' : List (Nat × Nat × BitVec 8)) (used' : List (Nat × Nat))
    (accs' : List Access) (truthBad' : Sparse EccMark) (regBad' : List RegBad) (farIn' : List FarGroup)
    (stat' : ClusterStat) (queues' : Vector (List Op) 19) (cpResume' : Vector (Option CopyResume) 4)
    (rcpResume' : Vector (Option CopyResume) 4) (pendLaunch' : List PendLaunch) (launchFaults' : List LaunchFault)
    (seen' : List (QueueId × BitVec 32)) (termSeen' : Vector (BitVec 8) 64) (heldSpaces' : List HeldSpace)
    (lateStates' : List LateState) (mem' : MemRegs) (xlat' : List Xlat) (walks' : List Walk) (faults' : List FaultRec)
    (heldStreams' : List StreamKey) (nextFill' : Nat) (fillAfter' : Nat) (fills' : List Fill)
    (refreshOpen' : List Nat) (stewards' : List StewardReq) (stewardData' : Vector (List Byte) 2)
    (stewardCode' : Vector (BitVec 8) 2) (vtab' : Vector VEntry 256) (mwin' : Vector MWin 16) (mcst' : List McstWait)
    (pbCtl' : Vector PbCtl 16) (pbLat' : BitVec 11) (boot' : BootRegs)
    (h : boot'.sram = x.boot.sram) :
    { x with
            inService := inService', draining := draining', incarnation := incarnation', cycBase := cycBase',
            syncBase := syncBase', seq := seq', ctxs := ctxs', bankBad := bankBad', foldEvts := foldEvts',
            tokEvts := tokEvts', stamps := stamps', used := used', accs := accs', truthBad := truthBad',
            regBad := regBad', farIn := farIn', stat := stat', queues := queues', cpResume := cpResume',
            rcpResume := rcpResume', pendLaunch := pendLaunch', launchFaults := launchFaults', seen := seen',
            termSeen := termSeen', heldSpaces := heldSpaces', lateStates := lateStates', mem := mem', xlat := xlat',
            walks := walks', faults := faults', heldStreams := heldStreams', nextFill := nextFill',
            fillAfter := fillAfter', fills := fills', refreshOpen := refreshOpen', stewards := stewards',
            stewardData := stewardData', stewardCode := stewardCode', vtab := vtab', mwin := mwin', mcst := mcst',
            pbCtl := pbCtl', pbLat := pbLat', boot := boot' }.store = x.store := by
  rw [Die.store_def, Die.store_def, h]

@[simp] theorem Die.store_ite (c : Prop) [Decidable c] (x y : Die) : (if c then x else y).store = if c then x.store else y.store :=
  apply_ite Die.store c x y

@[simp] theorem State.store_ite (c : Prop) [Decidable c] (s t : State) :
    (if c then s else t).store = if c then s.store else t.store := apply_ite State.store c s t

@[simp] theorem Store.canonical_ite {c : Prop} [Decidable c] {m n : Store} (hm : m.Canonical) (hn : n.Canonical) :
    (if c then m else n).Canonical := by
  split
  · exact hm
  · exact hn

@[simp] theorem DieStore.canonical_ite {c : Prop} [Decidable c] {m n : DieStore} (hm : m.Canonical) (hn : n.Canonical) :
    (if c then m else n).Canonical := by
  split
  · exact hm
  · exact hn

theorem State.store_ext (hm : t.mem = s.mem) (hd : ∀ d, (t.die d).store = (s.die d).store) : t.store = s.store := by
  unfold State.store
  rw [hm, funext hd]

/-- What differs in neither memory nor the dies has the same store. -/
theorem State.store_of (hm : t.mem = s.mem) (hd : t.dies = s.dies) : t.store = s.store := by
  unfold State.store State.die
  rw [hm, hd]

@[simp] theorem State.store_setDie {d : DieId} (h : x.store = (s.die d).store) : (s.setDie d x).store = s.store := by
  refine congrArg (Store.mk s.mem) (funext fun e => ?_)
  by_cases hd : d = e
  · subst hd
    rw [State.die_setDie]
    exact h
  · rw [State.die_setDie_other _ _ hd]

@[simp] theorem State.store_modDie {d : DieId} {f : Die → Die} (h : (f (s.die d)).store = (s.die d).store) :
    (s.modDie d f).store = s.store := State.store_setDie h

@[simp] theorem Store.Canonical.die_of (h : s.store.Canonical) (d : DieId) : (s.die d).store.Canonical := h.die d

@[simp] theorem State.canonical_setDie {d : DieId} (h : s.store.Canonical) (hx : x.store.Canonical) : (s.setDie d x).store.Canonical := by
  refine ⟨h.mem, fun e => ?_⟩
  by_cases hd : d = e
  · subst hd
    show (State.die _ _).store.Canonical
    rw [State.die_setDie]
    exact hx
  · show (State.die _ _).store.Canonical
    rw [State.die_setDie_other _ _ hd]
    exact h.die e

@[simp] theorem State.canonical_modDie {d : DieId} {f : Die → Die} (h : s.store.Canonical) (hf : (f (s.die d)).store.Canonical) :
    (s.modDie d f).store.Canonical := State.canonical_setDie h hf

/-! ### Folds over lists -/

theorem State.store_foldl {α : Type} {f : State → α → State} (h : ∀ (s : State) (a : α), (f s a).store = s.store) (l : List α) :
    ∀ s : State, (l.foldl f s).store = s.store := by
  induction l with
  | nil => exact fun _ => rfl
  | cons a l ih => exact fun s => (ih _).trans (h s a)

theorem Die.store_foldl {α : Type} {f : Die → α → Die} (h : ∀ (x : Die) (a : α), (f x a).store = x.store) (l : List α) :
    ∀ x : Die, (l.foldl f x).store = x.store := by
  induction l with
  | nil => exact fun _ => rfl
  | cons a l ih => exact fun s => (ih _).trans (h s a)

theorem State.canonical_foldl {α : Type} {f : State → α → State} (h : ∀ (s : State) (a : α), s.store.Canonical →
    (f s a).store.Canonical) (l : List α) : ∀ s : State, s.store.Canonical → (l.foldl f s).store.Canonical := by
  induction l with
  | nil => exact fun _ hs => hs
  | cons a l ih => exact fun s hs => ih _ (h s a hs)

theorem Die.canonical_foldl {α : Type} {f : Die → α → Die} (h : ∀ (x : Die) (a : α), x.store.Canonical →
    (f x a).store.Canonical) (l : List α) : ∀ x : Die, x.store.Canonical → (l.foldl f x).store.Canonical := by
  induction l with
  | nil => exact fun _ hs => hs
  | cons a l ih => exact fun s hs => ih _ (h s a hs)

/-! ### The agenda, counters, the panel, the stations and the fabric -/

@[simp] theorem State.store_sched (n : Nat) (a : Instr) (e : EvArg) : (s.sched n a e).store = s.store := (rfl)

@[simp] theorem State.store_schedOnce (n : Nat) (a : Instr) (e : EvArg) : (s.schedOnce n a e).store = s.store := by
  unfold State.schedOnce
  simp

@[simp] theorem State.store_takeFresh : s.takeFresh.store = s.store := (rfl)

@[simp] theorem State.store_takeFree : s.takeFree.store = s.store := (rfl)

@[simp] theorem State.store_schedLater (a : Instr) (e : EvArg) : (s.schedLater a e).store = s.store := (rfl)

@[simp] theorem State.store_modQueue (q : QueueId) (f : CmdQueue → CmdQueue) : (s.modQueue q f).store = s.store := (rfl)

@[simp] theorem State.store_modStation (i : StackId) (f : Station → Station) : (s.modStation i f).store = s.store := (rfl)

@[simp] theorem State.store_modFabric (f : Fabric → Fabric) : (s.modFabric f).store = s.store := (rfl)

@[simp] theorem State.store_modPort (p : PortId) (f : Port → Port) : (s.modPort p f).store = s.store := (rfl)

@[simp] theorem State.store_modPanel (f : Panel → Panel) : (s.modPanel f).store = s.store := (rfl)

@[simp] theorem State.store_notify (n : Notice) : (s.notify n).store = s.store := (rfl)

/-- What a state has besides its memories is not stored. -/
@[simp] theorem State.store_with (k : Nat) (st : Vector Station 128) (p : Panel) (b : Fabric) (m : List Nat) (i : Issue)
    (e : EvArg) (l : List Sched) (o : Bool) (n c : Nat) :
    ({ s with cycle := k, stations := st, panel := p, fabric := b, memBad := m, iss := i, ev := e, agenda := l, portsDone := o
              fresh := n, freeCtr := c } : State).store = s.store := (rfl)

theorem State.canonical_of_store (h : t.store = s.store) (hs : s.store.Canonical) : t.store.Canonical := h ▸ hs

theorem Die.canonical_of_store (h : y.store = x.store) (hx : x.store.Canonical) : y.store.Canonical := h ▸ hx

theorem State.canonical_iss {i : Issue} (h : s.store.Canonical) : ({ s with iss := i } : State).store.Canonical := h

/-! ### Contexts -/

@[simp] theorem Die.store_setCtx (c : CtxId) (v : Ctx) : (x.setCtx c v).store = x.store := (rfl)

@[simp] theorem Die.store_modCtx (c : CtxId) (f : Ctx → Ctx) : (x.modCtx c f).store = x.store := (rfl)

@[simp] theorem State.store_modCtx (d : DieId) (c : CtxId) (f : Ctx → Ctx) : (s.modCtx d c f).store = s.store :=
  State.store_modDie rfl

/-- What only sends on the fabric stores nothing. -/
theorem State.SendsOnly.store (h : s.SendsOnly t) : t.store = s.store := by
  obtain ⟨hd, hm, -⟩ := h.frame
  exact State.store_of hm hd

end Sys2Proof.Machine
end

