-- ==== Sys2Proof/Proofs/IssueStores.lean ====
section
/-! PROOFS. Issue, results in flight, walks, reports and the bank accesses on their way change no table of a die and no byte of
panel memory: one lemma per function of the model, for `simp`. -/

namespace Sys2Proof.Machine

@[simp] theorem State.store_ringBells (s : State) (l : List (Fin 8192)) :
    (s.ringBells l).store = s.store :=
  State.store_foldl (fun _ _ => State.store_sched _ _ _) l s

@[simp] theorem Die.store_cache (x : Die) (e : Xlat) (free : ℕ) :
    (x.cache e free).store = x.store := (rfl)

@[simp] theorem State.store_startWalk (s : State) (d : DieId) (root : Word) (va : Word) (perm : Perm) (who : Requester) :
    (s.startWalk d root va perm who).store = s.store := by
  unfold State.startWalk
  simp

@[simp] theorem State.store_translate (s : State) (d : DieId) (root : Word) (va : Word) (perm : Perm) (who : Requester) :
    (s.translate d root va perm who).1.store = s.store := by
  unfold State.translate
  split <;> simp

@[simp] theorem Die.store_countRefusal (x : Die) :
    x.countRefusal.store = x.store := (rfl)

@[simp] theorem State.store_dieRefused (s : State) (d : DieId) (pa : ℕ) :
    (s.dieRefused d pa).store = s.store :=
  State.store_modDie rfl

@[simp] theorem State.store_queueRuns (s : State) (q : QueueId) (k : Fin 5) (va : Word) (perm : Perm) (a : List (ℕ × ℕ)) :
    (s.queueRuns q k va perm a).1.store = s.store := by
  induction a generalizing s with
  | nil => rfl
  | cons r l ih =>
    unfold State.queueRuns
    dsimp only
    have h := s.store_translate (s.queue q).leader (s.queue q).tables (va + BitVec.ofNat 64 r.1) perm (.queue q k)
    generalize s.translate (s.queue q).leader (s.queue q).tables (va + BitVec.ofNat 64 r.1) perm (.queue q k) = m at h ⊢
    obtain ⟨t, o⟩ := m
    cases o with
    | none => exact h
    | some e =>
      dsimp only
      split
      · exact h
      · have hi := ih t
        generalize t.queueRuns q k va perm l = m at hi ⊢
        obtain ⟨u, o⟩ := m
        cases o <;> exact hi.trans h

@[simp] theorem State.store_queueTry (s : State) (q : QueueId) (k : Fin 5) (va : Word) (n : ℕ) (perm : Perm) :
    (s.queueTry q k va n perm).1.store = s.store := by
  unfold State.queueTry
  split <;> simp

@[simp] theorem State.store_launchEnds (s : State) (q : QueueId) (pkt : ℕ) (halted : Bool) :
    (s.launchEnds q pkt halted).store = s.store := (rfl)

@[simp] theorem State.store_land (s : State) (lat : ℕ) (slot : ℕ) (l : Land) :
    (s.land lat slot l).store = s.store := by
  unfold State.land
  simp

@[simp] theorem State.store_landF (s : State) (lat : ℕ) (slot : ℕ) (l : Land) (f : Flg) :
    (s.landF lat slot l f).store = s.store := by
  unfold State.landF
  simp

@[simp] theorem State.store_landAt (s : State) (d : DieId) (c : CtxId) (due : ℕ) (slot : ℕ) (ord : ℕ) (bundle : ℕ) (hnd
    : Bool) (l : Land) :
    (s.landAt d c due slot ord bundle hnd l).store = s.store := by
  unfold State.landAt
  simp

@[simp] theorem Die.store_mapOps (x : Die) (f : Op → Op) :
    (x.mapOps f).store = x.store := (rfl)

@[simp] theorem Die.store_abortOps (x : Die) (c : CtxId) (since : ℕ) :
    (x.abortOps c since).store = x.store := (rfl)

@[simp] theorem State.store_loseUnhandled (s : State) (d : DieId) (c : CtxId) :
    (s.loseUnhandled d c).store = s.store :=
  State.store_modDie rfl

@[simp] theorem State.store_access (s : State) (lat : ℕ) (ord : PortStep) (slot : ℕ) (cls : Fin 16) (tag : Option
    (BitVec 8)) (k : AccKind) :
    (s.access lat ord slot cls tag k).store = s.store := by
  unfold State.access
  simp

@[simp] theorem State.store_enqueue (s : State) (q : Fin 19) (ins : Instr) (k : Deps) (own : Fin 16) (v : List Word)
    (far : List Word) (follow : Bool) (chained : Bool) :
    (s.enqueue q ins k own v far follow chained).store = s.store := by
  unfold State.enqueue
  simp

@[simp] theorem State.store_intLand (s : State) (lat : ℕ) (d : Dst) (t : Ty) (r : ℕ × Flg) :
    (s.intLand lat d t r).store = s.store := by
  unfold State.intLand
  simp

@[simp] theorem State.store_intLand64 (s : State) (d : Dst) (v : Word) :
    (s.intLand64 d v).store = s.store := by
  unfold State.intLand64
  simp

@[simp] theorem State.store_scalarLoad (s : State) (t : Ty) (own : Fin 16) (d : Dst) (off : Word) :
    (s.scalarLoad t own d off).store = s.store := by
  unfold State.scalarLoad
  simp

@[simp] theorem State.store_scalarStore (s : State) (t : Ty) (own : Fin 16) (v : Src) (off : Word) :
    (s.scalarStore t own v off).store = s.store := by
  unfold State.scalarStore
  simp

@[simp] theorem State.store_addWait (s : State) (w : Wait) :
    (s.addWait w).store = s.store := (rfl)

@[simp] theorem State.store_localAmo (s : State) (op : AmoOp) (t : Ty) (own : Fin 16) (d : Dst) (a : Src) (b : Src) (c :
    Src) (off : BitVec 16) :
    (s.localAmo op t own d a b c off).store = s.store := by
  unfold State.localAmo
  simp

@[simp] theorem State.store_branch (s : State) (taken : Bool) (target : Word) :
    (s.branch taken target).store = s.store := by
  unfold State.branch
  split <;> rfl

@[simp] theorem State.store_linkHere (s : State) :
    s.linkHere.store = s.store := by
  unfold State.linkHere
  simp

@[simp] theorem State.store_armLoop (s : State) (lvl : Fin 4) (sw : Bool) (a : Src) (off : BitVec 10) :
    (s.armLoop lvl sw a off).store = s.store := by
  unfold State.armLoop
  dsimp only
  split
  · simp
  · rfl

@[simp] theorem State.store_markIdem (s : State) :
    s.markIdem.store = s.store := by
  unfold State.markIdem
  simp

@[simp] theorem State.store_vecLand (s : State) (lat : ℕ) (d : Dst) (r : VReg × Flg) :
    (s.vecLand lat d r).store = s.store := by
  unfold State.vecLand
  simp

@[simp] theorem State.store_vecLandAll (s : State) (lat : ℕ) (slot : ℕ) (d : Dst) (r : VReg × Flg) :
    (s.vecLandAll lat slot d r).store = s.store := by
  unfold State.vecLandAll
  simp

@[simp] theorem State.store_vec2 (s : State) (lat : ℕ) (t : Ty) (d : Dst) (a : Src) (b : Src) (w : Option (Mod × Mod))
    (f : ℕ → ℕ → ℕ × Flg) :
    (s.vec2 lat t d a b w f).store = s.store := by
  unfold State.vec2
  simp

@[simp] theorem State.store_vec1 (s : State) (lat : ℕ) (t : Ty) (d : Dst) (a : Src) (w : Option Mod) (f : ℕ → ℕ × Flg) :
    (s.vec1 lat t d a w f).store = s.store := by
  unfold State.vec1
  simp

@[simp] theorem State.store_vecFma (s : State) (t : Ty) (d : Dst) (a : VReg) (b : VReg) (c : VReg) :
    (s.vecFma t d a b c).store = s.store := by
  unfold State.vecFma
  simp

@[simp] theorem State.store_vecBits (s : State) (d : Dst) (a : Src) (b : Src) (w : Option (Mod × Mod)) (f : VReg → VReg
    → VReg) :
    (s.vecBits d a b w f).store = s.store := by
  unfold State.vecBits
  simp

@[simp] theorem State.store_vecLandWide (s : State) (d : Dst) (r : VReg × Flg) :
    (s.vecLandWide d r).store = s.store := by
  unfold State.vecLandWide
  simp

@[simp] theorem State.store_vecCmp (s : State) (k : VCmp) (t : Ty) (d : Dst) (a : Src) (b : Src) (w : Option (Mod × Mod)) :
    (s.vecCmp k t d a b w).store = s.store := by
  unfold State.vecCmp
  simp

@[simp] theorem State.store_setIssueDepth (s : State) (n : ℕ) :
    (s.setIssueDepth n).store = s.store := by
  unfold State.setIssueDepth
  simp

@[simp] theorem Die.store_countTm (x : Die) (m : EccMark) :
    (x.countTm m).store = x.store := by
  unfold Die.countTm
  split <;> simp

@[simp] theorem Die.store_scrubTruth (x : Die) (ws : List ℕ) :
    (x.scrubTruth ws).store = x.store := (rfl)

@[simp] theorem State.store_stage (s : State) (lat : ℕ) (ord : PortStep) (tag : Option (BitVec 8)) (own : Fin 16) (k :
    AccKind) :
    (s.stage lat ord tag own k).store = s.store := (rfl)

@[simp] theorem State.store_vecLoad (s : State) (d : Dst) (addr : VAddr) (cls : Fin 16) :
    (s.vecLoad d addr cls).store = s.store := (rfl)

@[simp] theorem State.store_vecStore (s : State) (v : Src) (addr : VAddr) (cls : Fin 16) :
    (s.vecStore v addr cls).store = s.store := (rfl)

@[simp] theorem Die.store_eccWrite (x : Die) (as : List ℕ) :
    (x.eccWrite as).store = x.store := by
  unfold Die.eccWrite
  simp

@[simp] theorem Die.store_eccRead (x : Die) (as : List ℕ) :
    (x.eccRead as).store = x.store := by
  unfold Die.eccRead
  simp

@[simp] theorem Die.store_bankRead (x : Die) (as : List ℕ) :
    (x.bankRead as).1.store = x.store := by
  unfold Die.bankRead
  simp

@[simp] theorem Die.store_outdate (x : Die) (a : Access) (l : List ℕ) :
    (x.outdate a l).store = x.store := (rfl)

@[simp] theorem Die.store_use (x : Die) (as : List ℕ) :
    (x.use as).store = x.store := (rfl)

@[simp] theorem Die.store_takeFar (x : Die) (cycle : ℕ) (t : Setting) :
    (x.takeFar cycle t).store = x.store := (rfl)

@[simp] theorem State.store_sendFar (s : State) (d : DieId) (v : VReg) (m : Mask) (t : Setting) :
    (s.sendFar d v m t).store = s.store := by
  refine State.store_foldl (fun s g => ?_) _ s
  dsimp only
  repeat' split
  all_goals simp

@[simp] theorem State.store_foldEvt (s : State) (d : DieId) (f : FoldId) (e : FoldEvt) :
    (s.foldEvt d f e).store = s.store := by
  unfold State.foldEvt
  simp

@[simp] theorem State.store_copyOp (s : State) (i : Instr) (d : Src) (a : Src) (b : Src) (dep : Deps) (follow : Bool) :
    (s.copyOp i d a b dep follow).store = s.store := by
  unfold State.copyOp
  simp

end Sys2Proof.Machine
end

