-- ==== Sys2Proof/Proofs/EngineStores.lean ====
section
/-! PROOFS. The queues of the engines, the copies on their way and the sequencer change no table of a die and no byte of panel
memory but where their data goes: one lemma per function of the model, for `simp`. -/

namespace Sys2Proof.Machine

@[simp] theorem State.store_slotOp (s : State) (i : Instr) (o : Fin 128) (v : Word) (dep : Deps) :
    (s.slotOp i o v dep).store = s.store := by
  unfold State.slotOp
  simp

@[simp] theorem State.store_mcstOp (s : State) (i : Instr) (a : Src) (b : Src) (dep : Deps) :
    (s.mcstOp i a b dep).store = s.store := by
  unfold State.mcstOp
  simp

@[simp] theorem State.store_modOp (s : State) (d : DieId) (q : Fin 19) (id : ℕ) (f : Op → Op) :
    (s.modOp d q id f).store = s.store := by
  unfold State.modOp
  simp

@[simp] theorem State.store_putOpRecord (s : State) (d : DieId) (q : Fin 19) (o : Op) (st : ℕ) :
    (s.putOpRecord d q o st).store = s.store := by
  unfold State.putOpRecord
  simp

@[simp] theorem Die.store_keepResume (x : Die) (q : Fin 19) (o : Op) (ran : Bool) :
    (x.keepResume q o ran).store = x.store := by
  have hv : ∀ (m : Fin 16) (f : Arr → Arr), (∀ a, (f a).tables = a.tables) →
      { x with arrays := vmod x.arrays m f }.store = x.store := by
    intro m f hf
    rw [Die.store_def, Die.store_def, DieStore.mk.injEq]
    refine ⟨rfl, rfl, rfl, rfl, rfl, rfl, List.ext_getElem (by simp) fun n h1 h2 => ?_⟩
    simp only [List.getElem_map, Vector.getElem_toList, vmod, vset, Vector.getElem_set]
    split
    · next h => subst h; exact hf _
    · rfl
  unfold Die.keepResume
  split
  · split <;> rfl
  · split
    · split <;> rfl
    · split
      · rfl
      · split
        case h_6 =>
          split
          · rfl
          · exact hv _ _ fun _ => rfl
        all_goals rfl

@[simp] theorem Die.store_endFollow (x : Die) (o : Op) (ok : Bool) :
    (x.endFollow o ok).store = x.store := by
  unfold Die.endFollow
  simp

@[simp] theorem State.store_followEnd (s : State) (d : DieId) (id : ℕ) (ok : Bool) :
    (s.followEnd d id ok).store = s.store := by
  unfold State.followEnd
  split
  · rfl
  · split
    · rfl
    · exact State.store_foldl (fun s q => by split <;> simp) _ s

@[simp] theorem State.store_opBytes (s : State) (d : DieId) (o : Op) (n : ℕ) :
    (s.opBytes d o n).store = s.store := by
  unfold State.opBytes
  split <;> simp

@[simp] theorem Die.store_stamp (x : Die) (tile : ℕ) (key : ℕ) (tag : BitVec 8) :
    (x.stamp tile key tag).store = x.store := (rfl)

@[simp] theorem Die.store_stampAll (x : Die) (tiles : List ℕ) (key : ℕ) (tag : BitVec 8) :
    (x.stampAll tiles key tag).store = x.store :=
  Die.store_foldl (fun x k => x.store_stamp k key tag) _ x

@[simp] theorem State.store_newAcc (s : State) (d : DieId) (q : Fin 19) (o : Op) (cls : Fin 16) (unit : ℕ) (part : ℕ) (k
    : RKind) (far : Word) (len : ℕ) (data : List Byte) :
    (s.newAcc d q o cls unit part k far len data).store = s.store := (rfl)

@[simp] theorem State.store_modAcc (s : State) (id : ℕ) (f : RAcc → RAcc) :
    (s.modAcc id f).store = s.store := (rfl)

@[simp] theorem State.store_dropAcc (s : State) (id : ℕ) :
    (s.dropAcc id).store = s.store := (rfl)

@[simp] theorem State.store_dropUnsent (s : State) (d : DieId) (op : ℕ) (unit : ℕ) :
    (s.dropUnsent d op unit).store = s.store := (rfl)

@[simp] theorem State.store_failCopy (s : State) (d : DieId) (o : Op) (unit : ℕ) (code : BitVec 8) :
    (s.failCopy d o unit code).store = s.store := by
  unfold State.failCopy
  simp

@[simp] theorem State.store_refuseSlot (s : State) (d : DieId) (o : Op) :
    (s.refuseSlot d o).store = s.store := by
  unfold State.refuseSlot
  simp

@[simp] theorem State.store_unitWritten (s : State) (d : DieId) (o : Op) (no : ℕ) :
    (s.unitWritten d o no).store = s.store := by
  unfold State.unitWritten
  simp

@[simp] theorem State.store_sendUnit (s : State) (d : DieId) (o : Op) :
    (s.sendUnit d o).store = s.store := by
  unfold State.sendUnit
  simp

@[simp] theorem State.store_unitRead (s : State) (d : DieId) (o : Op) (u : CUnit) (word : ℕ) :
    (s.unitRead d o u word).store = s.store := by
  unfold State.unitRead
  dsimp only
  repeat' split
  all_goals simp

@[simp] theorem State.store_copyDone (s : State) (d : DieId) (id : ℕ) :
    (s.copyDone d id).store = s.store := by
  unfold State.copyDone
  split <;> simp

@[simp] theorem State.store_startCopy (s : State) (d : DieId) (o : Op) :
    (s.startCopy d o).store = s.store := by
  unfold State.startCopy
  simp

@[simp] theorem State.store_finishCopy (s : State) (d : DieId) (o : Op) :
    (s.finishCopy d o).store = s.store := by
  have h : (s.modDie d fun x => match copyStamp o with
      | some t => x.stampAll o.tiles 1 t
      | none => x).store = s.store :=
    State.store_modDie (by cases copyStamp o <;> simp)
  unfold State.finishCopy
  dsimp only
  split
  · exact (State.store_modDie rfl).trans h
  · exact h

@[simp] theorem State.store_copyReply (s : State) (d : DieId) (o : Op) (a : RAcc) (code : BitVec 8) :
    (s.copyReply d o a code).store = s.store := by
  unfold State.copyReply
  repeat' split
  all_goals simp

@[simp] theorem Die.store_take (x : Die) (n : CtxId) (from_ : ℕ) (switch : Bool) :
    (x.take n from_ switch).store = x.store := (rfl)

@[simp] theorem Die.store_switchTo (x : Die) (n : CtxId) (from_ : ℕ) :
    (x.switchTo n from_).store = x.store := (rfl)

@[simp] theorem Die.store_choose (x : Die) (m : ℕ) :
    (x.choose m).store = x.store := by
  unfold Die.choose
  dsimp only
  repeat' split
  all_goals simp

@[simp] theorem Die.store_giveUp (x : Die) (n : CtxId) (k : ℕ) (st : CtxState) :
    (x.giveUp n k st).store = x.store := by
  unfold Die.giveUp
  dsimp only
  split <;> rfl

@[simp] theorem State.store_block (s : State) (d : DieId) (n : CtxId) (l : List Wait) :
    (s.block d n l).store = s.store := by
  unfold State.block
  simp

@[simp] theorem State.store_pass (s : State) (d : DieId) (n : CtxId) :
    (s.pass d n).store = s.store := by
  unfold State.pass
  simp

@[simp] theorem State.store_works (s : State) (d : DieId) (u : ℕ) (n : CtxId) :
    (s.works d u n).store = s.store := by
  unfold State.works
  simp

@[simp] theorem State.store_startIssue (s : State) (d : DieId) (n : CtxId) (rs : List RawSyl) :
    (s.startIssue d n rs).store = s.store := by
  unfold State.startIssue
  dsimp only
  simp

@[simp] theorem State.store_sendStaged (s : State) :
    s.sendStaged.store = s.store :=
  State.store_foldl (fun s a => by simp) _ s

@[simp] theorem State.store_afterBundle (s : State) (i : Issue) (next : Word) (back : Bool) :
    (s.afterBundle i next back).store = s.store := by
  unfold State.afterBundle
  simp

@[simp] theorem Die.store_leaveWalks (x : Die) (n : CtxId) :
    (x.leaveWalks n).store = x.store := (rfl)

end Sys2Proof.Machine
end

