-- ==== Sys2Proof/Proofs/RemoteStores.lean ====
section
/-! PROOFS. The remote streams, the stations, the starts and ends of operations and the panel's barriers change no table of a
die and no byte of panel memory but where their data goes: one lemma per function of the model, for `simp`. -/

namespace Sys2Proof.Machine

@[simp] theorem State.store_remoteDone (s : State) (d : DieId) (id : ℕ) :
    (s.remoteDone d id).store = s.store := by
  unfold State.remoteDone
  split <;> simp

@[simp] theorem State.store_startRemote (s : State) (d : DieId) (o : Op) :
    (s.startRemote d o).store = s.store := by
  unfold State.startRemote
  repeat' split
  all_goals simp

@[simp] theorem State.store_dropUnbegun (s : State) (d : DieId) (op : ℕ) :
    (s.dropUnbegun d op).store = s.store := (rfl)

@[simp] theorem State.store_rcpCycle (s : State) (d : DieId) (o : Op) :
    (s.rcpCycle d o).store = s.store := by
  unfold State.rcpCycle
  simp

@[simp] theorem State.store_setPair (s : State) (p : Pair) :
    (s.setPair p).store = s.store := (rfl)

@[simp] theorem State.store_endHold (s : State) (d : DieId) (k : StreamKey) :
    (s.endHold d k).store = s.store := by
  unfold State.endHold
  simp

@[simp] theorem State.store_releaseStream (s : State) (d : DieId) (k : StreamKey) :
    (s.releaseStream d k).store = s.store := by
  unfold State.releaseStream
  simp

@[simp] theorem State.store_rcpUnitDone (s : State) (d : DieId) (o : Op) (unit : ℕ) :
    (s.rcpUnitDone d o unit).store = s.store := by
  unfold State.rcpUnitDone
  simp

@[simp] theorem State.store_remoteAccDone (s : State) (a : RAcc) (bytes : ℕ) :
    (s.remoteAccDone a bytes).store = s.store := by
  unfold State.remoteAccDone
  dsimp only
  repeat' split
  all_goals simp

@[simp] theorem State.store_remoteAccFails (s : State) (a : RAcc) (code : BitVec 8) :
    (s.remoteAccFails a code).store = s.store := by
  unfold State.remoteAccFails
  simp

@[simp] theorem State.store_remoteReply (s : State) (a : RAcc) :
    (s.remoteReply a).store = s.store := by
  unfold State.remoteReply
  split <;> simp

@[simp] theorem State.store_freeResends (s : State) (d : DieId) (k : StreamKey) :
    (s.freeResends d k).store = s.store := by
  unfold State.freeResends
  simp

@[simp] theorem State.store_modCopyRec (s : State) (q : QueueId) (a : RAcc) (f : QWork → QWork) :
    (s.modCopyRec q a f).store = s.store := (rfl)

@[simp] theorem State.store_queueAccFails (s : State) (q : QueueId) (a : RAcc) :
    (s.queueAccFails q a).store = s.store := by
  unfold State.queueAccFails
  simp

@[simp] theorem State.store_queueReply (s : State) (q : QueueId) (a : RAcc) :
    (s.queueReply q a).store = s.store := by
  unfold State.queueReply
  simp

@[simp] theorem State.store_accFails (s : State) (fetchFails : State → RAcc → BitVec 8 → State) (a : RAcc) (code :
    BitVec 8) (hf : ∀ (s : State) (a : RAcc) (v : BitVec 8), (fetchFails s a v).store = s.store) :
    (s.accFails fetchFails a code).store = s.store := by
  unfold State.accFails
  extract_lets u
  have hu : u.store = s.store := by
    simp only [u]
    split <;> simp
  clear_value u
  repeat' split
  all_goals simp [hu, hf]

@[simp] theorem State.store_putOut (s : State) (a : RAcc) :
    (s.putOut a).store = s.store := by
  unfold State.putOut
  dsimp only
  repeat' split
  all_goals simp

@[simp] theorem State.store_splitAcc (s : State) (a : RAcc) (n : ℕ) :
    (s.splitAcc a n).store = s.store := by
  unfold State.splitAcc
  simp

@[simp] theorem State.store_dispatch (s : State) (a : RAcc) :
    (s.dispatch a).store = s.store := by
  unfold State.dispatch
  repeat' split
  all_goals simp

@[simp] theorem State.store_sendAcc (s : State) (fetchFails : State → RAcc → BitVec 8 → State) (a : RAcc) (hf : ∀ (s :
    State) (a : RAcc) (v : BitVec 8), (fetchFails s a v).store = s.store) :
    (s.sendAcc fetchFails a).store = s.store := by
  have hfail : ∀ (u : State) (a : RAcc) (v : BitVec 8), (u.accFails fetchFails a v).store = u.store := fun u a v =>
    u.store_accFails fetchFails a v hf
  unfold State.sendAcc
  extract_lets d toStack
  split
  · exact hfail _ _ _
  · have hstack : ∀ (u : State) (a : RAcc) (k : Nat), (toStack u a k).store = u.store := by
      intro u a k
      simp only [toStack]
      split
      · exact hfail _ _ _
      · simp
    clear_value toStack
    split
    · exact hstack _ _ _
    · have h := s.store_translate d (s.streamRoot d a.stream) a.far a.perm a.who
      generalize s.translate d (s.streamRoot d a.stream) a.far a.perm a.who = m at h ⊢
      obtain ⟨t, o⟩ := m
      cases o with
      | none => exact h
      | some e =>
        dsimp only
        split
        · split
          · exact (hstack _ _ _).trans ((State.store_splitAcc _ _ _).trans h)
          · exact (State.store_splitAcc _ _ _).trans h
        · exact (hstack _ _ _).trans h
  all_goals
    split
    · exact hfail _ _ _
    · dsimp only
      split
      · exact hfail _ _ _
      · simp

@[simp] theorem State.store_putReady (s : State) (a : RAcc) :
    (s.putReady a).store = s.store := by
  unfold State.putReady
  simp

@[simp] theorem State.store_putRead (s : State) (a : RAcc) (word : ℕ) :
    (s.putRead a word).store = s.store := by
  unfold State.putRead
  dsimp only
  repeat' split
  all_goals simp

@[simp] theorem State.store_answerAcc (s : State) (a : RAcc) (ans : Answer) :
    (s.answerAcc a ans).store = s.store := by
  unfold State.answerAcc
  dsimp only
  repeat' split
  all_goals simp

@[simp] theorem State.store_stationRefuses (s : State) (i : StackId) (a : RAcc) :
    (s.stationRefuses i a).store = s.store := by
  unfold State.stationRefuses
  simp

@[simp] theorem State.store_atDie (s : State) (p : DieId) (a : RAcc) :
    (s.atDie p a).store = s.store := by
  unfold State.atDie
  repeat' split
  all_goals simp

@[simp] theorem State.store_scheduleSends (s : State) (d : DieId) :
    (s.scheduleSends d).store = s.store := by
  refine State.store_foldl (fun s k => ?_) _ s
  dsimp only
  split
  · split <;> simp
  · split <;> simp

@[simp] theorem State.store_opFails (s : State) (d : DieId) (q : Fin 19) (id : ℕ) (code : BitVec 8) :
    (s.opFails d q id code).store = s.store := by
  unfold State.opFails
  simp

@[simp] theorem State.store_arrFails (s : State) (d : DieId) (q : Fin 19) (id : ℕ) (code : BitVec 8) :
    (s.arrFails d q id code).store = s.store := by
  unfold State.arrFails
  simp

@[simp] theorem State.store_opDoneAt (s : State) (due : ℕ) (d : DieId) (q : Fin 19) (id : ℕ) :
    (s.opDoneAt due d q id).store = s.store := by
  unfold State.opDoneAt
  simp

@[simp] theorem State.store_runArray (s : State) (d : DieId) (q : Fin 19) (o : Op) :
    (s.runArray d q o).store = s.store := by
  unfold State.runArray
  simp

@[simp] theorem State.store_stopArray (s : State) (d : DieId) (q : Fin 19) (o : Op) (r : ℕ) (code : BitVec 8) :
    (s.stopArray d q o r code).store = s.store := by
  unfold State.stopArray
  simp

@[simp] theorem State.store_ownCycle (s : State) (d : DieId) (q : Fin 19) (o : Op) :
    (s.ownCycle d q o).store = s.store := by
  unfold State.ownCycle
  dsimp only
  repeat' split
  all_goals simp

@[simp] theorem State.store_fetchFrom (s : State) (d : DieId) (q : Fin 19) (o : Op) (len : ℕ) (a : ℕ) :
    (s.fetchFrom d q o len a).store = s.store := by
  induction a generalizing s o with
  | zero => rfl
  | succ n ih =>
    unfold State.fetchFrom
    split
    · rfl
    · split
      · rfl
      · extract_lets at_ n x m id u v
        have hu : u.store = s.store := s.store_newAcc _ _ _ _ _ _ _ _ _ _
        have hv : v.store = s.store := by
          refine Eq.trans ?_ hu
          cases hx : x <;> simp [v, hx]
        exact (ih _ _).trans ((State.store_modOp _ _ _ _ _).trans hv)

@[simp] theorem State.store_fetchNext (s : State) (d : DieId) (q : Fin 19) (id : ℕ) :
    (s.fetchNext d q id).store = s.store := by
  unfold State.fetchNext
  split <;> simp

@[simp] theorem State.store_startFetch (s : State) (d : DieId) (q : Fin 19) (o : Op) :
    (s.startFetch d q o).store = s.store := by
  unfold State.startFetch
  dsimp only
  repeat' split
  all_goals simp

@[simp] theorem State.store_fetchProgress (s : State) (d : DieId) (q : Fin 19) (id : ℕ) :
    (s.fetchProgress d q id).store = s.store := by
  unfold State.fetchProgress
  split <;> simp

@[simp] theorem State.store_refetch (s : State) (d : DieId) (q : Fin 19) (id : ℕ) :
    (s.refetch d q id).store = s.store := by
  unfold State.refetch
  split <;> simp

@[simp] theorem State.store_fetchFails (s : State) (a : RAcc) (code : BitVec 8) :
    (s.fetchFails a code).store = s.store := by
  unfold State.fetchFails
  dsimp only
  repeat' split
  all_goals simp

@[simp] theorem State.store_abortArray (s : State) (d : DieId) (q : Fin 19) (o : Op) :
    (s.abortArray d q o).store = s.store := by
  unfold State.abortArray
  dsimp only
  repeat' split
  all_goals simp

@[simp] theorem State.store_drainCycle (s : State) (d : DieId) :
    (s.drainCycle d).store = s.store := by
  unfold State.drainCycle
  dsimp only
  repeat' split
  all_goals simp

@[simp] theorem State.store_centCycle (s : State) (d : DieId) (q : Fin 19) (o : Op) :
    (s.centCycle d q o).store = s.store := by
  unfold State.centCycle
  simp

@[simp] theorem State.store_assignRead (s : State) (d : DieId) (q : Fin 19) (o : Op) (word : ℕ) :
    (s.assignRead d q o word).store = s.store := by
  unfold State.assignRead
  dsimp only
  repeat' split
  all_goals simp

@[simp] theorem State.store_modMWin (s : State) (d : DieId) (n : Fin 16) (f : MWin → MWin) :
    (s.modMWin d n f).store = s.store := by
  unfold State.modMWin
  simp

@[simp] theorem State.store_startMcst (s : State) (d : DieId) (o : Op) (n : Fin 16) (wide : Bool) (stamp : Bool) :
    (s.startMcst d o n wide stamp).store = s.store := by
  unfold State.startMcst
  dsimp only
  split
  · simp
  · rw [State.store_opDoneAt]
    exact State.store_foldl (fun s p => by split <;> rfl) _ s

@[simp] theorem State.store_modChan (s : State) (k : Fin 16) (f : PChan → PChan) :
    (s.modChan k f).store = s.store := (rfl)

@[simp] theorem State.store_pbarCycle (s : State) (d : DieId) (o : Op) :
    (s.pbarCycle d o).store = s.store := by
  unfold State.pbarCycle
  split <;> simp

@[simp] theorem State.store_countArrival (s : State) (k : Fin 16) (a : DieId × ℕ) :
    (s.countArrival k a).store = s.store := by
  unfold State.countArrival
  dsimp only
  split
  · exact Eq.trans (State.store_of (s := List.foldl _ _ _) rfl rfl) (State.store_foldl (fun _ _ => State.store_sched _ _ _) _ _)
  · rfl

@[simp] theorem State.store_abortChan (s : State) (k : Fin 16) :
    (s.abortChan k).store = s.store := by
  refine State.store_foldl (fun s d => ?_) _ _
  exact State.store_foldl (fun s o => by split <;> simp) _ s

@[simp] theorem State.store_startPanel (s : State) (d : DieId) (o : Op) :
    (s.startPanel d o).store = s.store := by
  unfold State.startPanel
  dsimp only
  repeat' split
  all_goals simp

theorem State.schedLater_mem (s : State) (a : Instr) (e : EvArg) : (s.schedLater a e).mem = s.mem := (rfl)

theorem State.unlock_dies (s : State) : s.unlock.dies = Vector.ofFn fun (p : DieId) =>
    { s.die p with syncBase := (s.modPanel fun p => { p with locked := false }).freeBase p } := by
  unfold State.unlock
  extract_lets u dies c
  rfl

theorem State.unlock_mem (s : State) : s.unlock.mem = s.mem := by
  unfold State.unlock
  extract_lets u dies c
  rw [State.schedLater_mem]
  rfl

@[simp] theorem State.store_unlock (s : State) :
    s.unlock.store = s.store := by
  refine State.store_ext s.unlock_mem fun p => ?_
  have h : s.unlock.die p = { s.die p with syncBase := (s.modPanel fun p => { p with locked := false }).freeBase p } := by
    rw [State.die, State.unlock_dies]
    exact Vector.getElem_ofFn p.isLt
  rw [h]
  simp

@[simp] theorem State.store_redeal (s : State) (p : DieId) :
    (s.redeal p).store = s.store :=
  State.store_foldl (fun _ _ => State.store_schedLater _ _) _ s

@[simp] theorem State.store_callElection (s : State) (q : QueueId) :
    (s.callElection q).store = s.store := by
  unfold State.callElection
  simp

@[simp] theorem State.store_leaderGone (s : State) (p : DieId) :
    (s.leaderGone p).store = s.store :=
  State.store_foldl (fun s q => by split <;> simp) _ s

@[simp] theorem State.store_dieChanged (s : State) (p : DieId) :
    (s.dieChanged p).store = s.store := by
  unfold State.dieChanged
  simp

@[simp] theorem State.store_storeWrite (s : State) (d : DieId) (l : List Byte) :
    (s.storeWrite d l).store = s.store := (rfl)

@[simp] theorem State.store_replyRetry (s : State) (a : RAcc) (after : ℕ) :
    (s.replyRetry a after).store = s.store :=
  (State.store_modAcc _ _ _).trans ((State.store_setPair _ _).trans (State.store_modDie rfl))

@[simp] theorem State.store_markLost (s : State) (a : RAcc) :
    (s.markLost a).store = s.store := by
  unfold State.markLost
  repeat' split
  all_goals simp

@[simp] theorem State.store_abandon (s : State) (a : RAcc) :
    (s.abandon a).store = s.store := by
  unfold State.abandon
  simp

@[simp] theorem State.store_finishRemote (s : State) (d : DieId) (o : Op) :
    (s.finishRemote d o).store = s.store := by
  unfold State.finishRemote
  dsimp only
  have h : ∀ u : State, u.store = s.store → (if isRcp o.ins && o.minor = 3 then
      u.modDie d fun x => { x with rcpResume := vset x.rcpResume o.ctx none } else u).store = s.store := by
    intro u hu
    split
    · exact (State.store_modDie rfl).trans hu
    · exact hu
  refine h _ ?_
  split <;> simp

end Sys2Proof.Machine
end

