-- ==== Sys2Proof/Proofs/SpaceStores.lean ====
section
/-! PROOFS. Fills on their way, the states of register spaces, the packets of a queue and the images of a boot change no table
of a die and no byte of panel memory but where their data goes: one lemma per function of the model, for `simp`. -/

namespace Sys2Proof.Machine

@[simp] theorem State.store_abortAtFault (s : State) (d : DieId) (o : Op) :
    (s.abortAtFault d o).store = s.store := by
  refine State.store_foldl (fun s a => ?_) _ s
  split
  · exact s.store_accFails _ a 5 State.store_fetchFails
  · rfl

@[simp] theorem State.store_scanQueues (s : State) (d : DieId) :
    (s.scanQueues d).store = s.store := by
  refine State.store_foldl (fun s q => ?_) _ s
  split
  · rfl
  · have h := State.store_foldl (f := fun (s : State) (o : Op) =>
        if !o.abort then s
        else if o.st == .queued then s.opFails d q o.id 5
        else if o.st == .running && q != qCopy && q != qRemote && q != qPanel then s.abortArray d q o
        else if o.st == .running && (q = qCopy || q = qRemote) then s.abortAtFault d o
        else s) (fun s o => by simp) ((s.die d).queues[q]) s
    dsimp only
    generalize List.foldl _ s ((s.die d).queues[q]) = u at h ⊢
    split
    · split <;> simp [h]
    · exact h

@[simp] theorem Die.store_readEntries (x : Die) (k : ℕ) :
    (x.readEntries k).store = x.store := by
  unfold Die.readEntries
  simp

@[simp] theorem Die.store_countSlip (x : Die) :
    x.countSlip.store = x.store := (rfl)

@[simp] theorem State.store_scanCalendar (s : State) (d : DieId) :
    (s.scanCalendar d).store = s.store := by
  unfold State.scanCalendar
  dsimp only
  repeat' split
  all_goals simp

@[simp] theorem Die.store_countFillError (x : Die) :
    x.countFillError.store = x.store := (rfl)

@[simp] theorem State.store_modFill (s : State) (d : DieId) (id : ℕ) (f : Fill → Fill) :
    (s.modFill d id f).store = s.store := by
  unfold State.modFill
  simp

@[simp] theorem State.store_failFill (s : State) (d : DieId) (id : ℕ) :
    (s.failFill d id).store = s.store :=
  State.store_modDie (by split <;> rfl)

@[simp] theorem State.store_fillPages (s : State) (d : DieId) (id : ℕ) (a : List Word) :
    (s.fillPages d id a).store = s.store := by
  induction a generalizing s with
  | nil => rfl
  | cons va l ih =>
    unfold State.fillPages
    have h := s.store_translate d (s.die d).mem.fillRoot va .read (.fill id)
    generalize s.translate d (s.die d).mem.fillRoot va .read (.fill id) = m at h ⊢
    obtain ⟨t, o⟩ := m
    cases o with
    | none => exact h
    | some e => exact (ih _).trans ((State.store_modFill _ _ _ _).trans h)

@[simp] theorem State.store_fillReady (s : State) (d : DieId) (f : Fill) :
    (s.fillReady d f).store = s.store := by
  unfold State.fillReady
  simp

@[simp] theorem State.store_fillRefused (s : State) (d : DieId) (f : Fill) (pa : ℕ) :
    (s.fillRefused d f pa).store = s.store := by
  unfold State.fillRefused
  simp

@[simp] theorem State.store_fillWord (s : State) (d : DieId) (f : Fill) (w : ℕ × List ℕ) :
    (s.fillWord d f w).store = s.store := by
  unfold State.fillWord
  dsimp only
  repeat' split
  all_goals simp

@[simp] theorem State.store_fillTake (s : State) (d : DieId) (id : ℕ) (a : List (ℕ × List ℕ)) (a' : List StackId) :
    (s.fillTake d id a a').1.store = s.store := by
  induction a generalizing s a' with
  | nil => rfl
  | cons w l ih =>
    unfold State.fillTake
    split
    · rfl
    · dsimp only
      split
      · rfl
      · split
        · exact ih s a'
        · exact (ih _ _).trans (by simp)

@[simp] theorem State.store_fillCycle (s : State) (d : DieId) :
    (s.fillCycle d).store = s.store := by
  have hpages : ∀ (s : State) (l : List Fill), (l.foldl (fun s f =>
      if f.ready || f.len = 0 || decide (s.cycle < f.next) then s
      else
        let s := if (s.die d).held (.fill f.id) then s else s.fillPages d f.id f.pages
        match (s.die d).fills.find? fun g => g.id == f.id with
        | some f => if f.pages.isEmpty then s.fillReady d f else s
        | none => s) s).store = s.store := by
    refine fun s l => State.store_foldl (fun s f => ?_) l s
    split
    · rfl
    · dsimp only
      split
      · split <;> simp
      · simp
  have htake : ∀ (l : List Fill) (r : State × List StackId),
      (l.foldl (fun (r : State × List StackId) f => r.1.fillTake d f.id f.coming r.2) r).1.store = r.1.store := by
    intro l
    induction l with
    | nil => exact fun _ => rfl
    | cons f l ih => exact fun r => (ih _).trans (by simp)
  unfold State.fillCycle
  dsimp only
  split
  · exact hpages s _
  · exact (htake _ _).trans (hpages s _)

@[simp] theorem State.store_scanRefresh (s : State) (d : DieId) :
    (s.scanRefresh d).store = s.store := by
  refine State.store_foldl (fun s i => ?_) _ s
  split
  · rfl
  · exact State.store_foldl (fun s c => by dsimp only; split <;> simp) _ s

@[simp] theorem State.store_homeRefused (s : State) (d : DieId) (c : CtxId) (pa : ℕ) :
    (s.homeRefused d c pa).store = s.store := by
  unfold State.homeRefused
  simp

@[simp] theorem State.store_homeReady (s : State) (d : DieId) (c : CtxId) (perm : Perm) (who : Requester) (a : List Word) :
    (s.homeReady d c perm who a).1.store = s.store := by
  induction a generalizing s with
  | nil => rfl
  | cons va l ih =>
    unfold State.homeReady
    have h := s.store_translate d (s.ctxRoot d c) va perm who
    generalize s.translate d (s.ctxRoot d c) va perm who = m at h ⊢
    obtain ⟨t, o⟩ := m
    cases o with
    | none => exact h
    | some e =>
      dsimp only
      split
      · exact (State.store_homeRefused _ _ _ _).trans h
      · exact (ih t).trans h

@[simp] theorem State.store_homeScrub (s : State) (d : DieId) (base : Word) (lines : List ℕ) :
    (s.homeScrub d base lines).store = s.store := by
  unfold State.homeScrub
  simp

@[simp] theorem Die.store_carveScrub (x : Die) (w : Window) (slots : List ℕ) :
    (x.carveScrub w slots).store = x.store := by
  unfold Die.carveScrub
  simp

@[simp] theorem State.store_spaceScrub (s : State) (d : DieId) (base : Word) (hnd : Bool) (g : List Byte) :
    (s.spaceScrub d base hnd g).store = s.store := by
  unfold State.spaceScrub
  simp

@[simp] theorem Die.store_dropHeld (x : Die) (base : Word) :
    (x.dropHeld base).store = x.store := (rfl)

@[simp] theorem State.store_spaceReady (s : State) (d : DieId) (n : CtxId) (hnd : Bool) (base : Word) (who : Requester) :
    (s.spaceReady d n hnd base who).1.store = s.store := by
  unfold State.spaceReady
  have h := s.store_homeReady d n .read who (linePages base generalLines)
  generalize s.homeReady d n .read who (linePages base generalLines) = m at h ⊢
  obtain ⟨t, b⟩ := m
  cases b with
  | false => exact h
  | true =>
    dsimp only
    split
    · exact (State.store_homeReady _ _ _ _ _ _).trans h
    · split
      · exact h
      · generalize linePages base (homeLines _ hnd) = l
        have h' := (t.store_homeReady d n .read who l).trans h
        generalize t.homeReady d n .read who l = m at h' ⊢
        obtain ⟨u, b⟩ := m
        cases b with
        | false => exact h'
        | true => exact (State.store_homeReady _ _ _ _ _ _).trans h'

@[simp] theorem State.store_hold (s : State) (d : DieId) (h : HeldSpace) :
    (s.hold d h).store = s.store := by
  unfold State.hold
  simp

@[simp] theorem State.store_ctxswStatus (s : State) (d : DieId) (n : CtxId) (status : ℕ) :
    (s.ctxswStatus d n status).store = s.store := by
  unfold State.ctxswStatus
  simp

@[simp] theorem State.store_refillAt (s : State) (d : DieId) (n : CtxId) (a : Activation) (due : ℕ) :
    (s.refillAt d n a due).store = s.store := by
  unfold State.refillAt
  simp

@[simp] theorem State.store_dropPend (s : State) (d : DieId) (p : PendLaunch) :
    (s.dropPend d p).store = s.store := by
  unfold State.dropPend
  simp

@[simp] theorem State.store_scanLaunches (s : State) (d : DieId) :
    (s.scanLaunches d).store = s.store := by
  unfold State.scanLaunches
  dsimp only
  split
  · rfl
  · refine State.store_foldl (fun s q => ?_) _ s
    split
    · split <;> simp
    · rfl

@[simp] theorem State.store_dropWalk (s : State) (d : DieId) (id : ℕ) :
    (s.dropWalk d id).store = s.store := by
  unfold State.dropWalk
  dsimp only
  repeat' split
  all_goals simp

@[simp] theorem State.store_recordStop (s : State) (d : DieId) (who : Requester) (st : ℕ) :
    (s.recordStop d who st).store = s.store := by
  unfold State.recordStop
  split <;> simp

@[simp] theorem State.store_faultHolds (s : State) (d : DieId) (who : Requester) :
    (s.faultHolds d who).store = s.store := by
  unfold State.faultHolds
  split
  · exact State.store_modDie rfl
  · simp

@[simp] theorem State.store_failAcc (s : State) (code : BitVec 8) (a : Option RAcc) :
    (s.failAcc code a).store = s.store := by
  unfold State.failAcc
  split <;> simp

@[simp] theorem Die.store_popFault (x : Die) :
    x.popFault.store = x.store := (rfl)

@[simp] theorem State.store_queueWords (s : State) (q : QueueId) (a : List Word) :
    (s.queueWords q a).1.store = s.store := by
  induction a generalizing s with
  | nil => rfl
  | cons va l ih =>
    unfold State.queueWords
    have h := s.store_queueTry q 0 va 8 .read
    generalize s.queueTry q 0 va 8 .read = m at h ⊢
    obtain ⟨t, o⟩ := m
    cases o with
    | done r =>
      dsimp only
      split
      · exact h
      · have hi := (ih t).trans h
        generalize t.queueWords q l = m at hi ⊢
        obtain ⟨u, w⟩ := m
        cases w <;> exact hi
    | waits => exact h
    | migrating => exact h
    | fails v => exact h

@[simp] theorem State.store_queueFault (s : State) (q : QueueId) :
    (s.queueFault q).store = s.store := (rfl)

@[simp] theorem State.store_addRec (s : State) (q : QueueId) (w : List Word) (off : ℕ) (k : QWork) :
    (s.addRec q w off k).store = s.store := (rfl)

@[simp] theorem State.store_dispatchTask (s : State) (q : QueueId) (w : List Word) (off : ℕ) (pkt : ℕ) (n : ℕ) (p : DieId) :
    (s.dispatchTask q w off pkt n p).store = s.store := by
  unfold State.dispatchTask
  simp

@[simp] theorem State.store_queueAcc (s : State) (q : QueueId) (r : QRec) (unit : ℕ) (k : RKind) (far : Word) (n : ℕ)
    (data : List Byte) :
    (s.queueAcc q r unit k far n data).store = s.store := (rfl)

@[simp] theorem State.store_copyUnit (s : State) (q : QueueId) :
    (s.copyUnit q).store = s.store := by
  unfold State.copyUnit
  repeat' split
  all_goals simp

@[simp] theorem State.store_tryFence (s : State) (q : QueueId) :
    (s.tryFence q).store = s.store := by
  unfold State.tryFence
  extract_lets c again
  split
  · rfl
  · have h := s.store_queueWords q (c.fence.entries.map fun e => BitVec.ofNat 64 (bits e.1 3 45 * 8))
    generalize s.queueWords q (c.fence.entries.map fun e => BitVec.ofNat 64 (bits e.1 3 45 * 8)) = m at h ⊢
    obtain ⟨t, w⟩ := m
    cases w with
    | fails => exact (State.store_queueFault _ _).trans h
    | later => exact h
    | got l =>
      dsimp only
      split <;> exact h

@[simp] theorem State.store_scanPacket (s : State) (q : QueueId) :
    (s.scanPacket q).store = s.store := by
  unfold State.scanPacket
  extract_lets c
  split
  · rfl
  · have h := s.store_queueWords q [c.wordAt 0]
    generalize s.queueWords q [c.wordAt 0] = m at h ⊢
    obtain ⟨t, w⟩ := m
    cases w with
    | later => exact h
    | fails => exact (State.store_queueFault _ _).trans h
    | got l =>
      dsimp only
      repeat' split
      all_goals exact h

@[simp] theorem State.store_writeHead (s : State) (q : QueueId) (v : Word) :
    (s.writeHead q v).store = s.store := (rfl)

@[simp] theorem State.store_lead (s : State) (q : QueueId) (p : DieId) :
    (s.lead q p).store = s.store := (rfl)

@[simp] theorem State.store_romLater (s : State) (d : DieId) :
    (s.romLater d).store = s.store := (rfl)

@[simp] theorem State.store_flashWrite (s : State) (off : ℕ) (l : List Byte) :
    (s.flashWrite off l).store = s.store := (rfl)

@[simp] theorem Die.store_stewardEnds (x : Die) (core : Fin 2) (code : BitVec 8) (l : List Byte) :
    (x.stewardEnds core code l).store = x.store := (rfl)

@[simp] theorem State.store_stewardReads (s : State) (d : DieId) (core : Fin 2) (l : List Byte) :
    (s.stewardReads d core l).store = s.store :=
  State.store_modDie rfl

@[simp] theorem State.store_stewardZeros (s : State) (d : DieId) (a : StewardAcc) :
    (s.stewardZeros d a).store = s.store := by
  unfold State.stewardZeros
  simp

@[simp] theorem State.store_stewardBank (s : State) (d : DieId) (a : StewardAcc) :
    (s.stewardBank d a).store = s.store := by
  unfold State.stewardBank
  simp

@[simp] theorem State.store_stewardWord (s : State) (d : DieId) (id : ℕ) (w : ℕ) (l : List (ℕ × Byte)) :
    (s.stewardWord d id w l).store = s.store :=
  State.store_modDie ((Die.store_foldl (fun x r => by simp) _ _).trans rfl)

end Sys2Proof.Machine
end

