-- ==== Sys2Proof/Proofs/FabricStores.lean ====
section
/-! PROOFS. Links, slots on their way, light, paths, keys, registers and the agenda of a cycle change no table of a die and no
byte of panel memory: one lemma per function of the model, for `simp`. -/

namespace Sys2Proof.Machine

@[simp] theorem State.store_wake (s : State) (p : PortId) :
    (s.wake p).store = s.store := (rfl)

@[simp] theorem State.store_transmitAll (s : State) :
    s.transmitAll.store = s.store := by
  refine State.store_foldl (fun s p => ?_) _ s
  dsimp only
  split
  · rfl
  · split <;> rfl

@[simp] theorem State.store_startFlits (s : State) (p : PortId) (t : FabSlot) :
    (s.startFlits p t).store = s.store := by
  unfold State.startFlits
  simp

@[simp] theorem State.store_startPortSlot (s : State) (p : PortId) (w : PortWait) :
    (s.startPortSlot p w).store = s.store := by
  unfold State.startPortSlot
  dsimp only
  repeat' split
  all_goals simp

@[simp] theorem State.store_pumpN (s : State) (p : PortId) (a : ℕ) :
    (s.pumpN p a).store = s.store :=
  (State.sends_pumpN p a s).store

@[simp] theorem State.store_pump (s : State) (p : PortId) :
    (s.pump p).store = s.store := by
  unfold State.pump
  simp

@[simp] theorem State.store_queueSince (s : State) (p : PortId) (t : FabSlot) (since : ℕ) :
    (s.queueSince p t since).store = s.store := by
  unfold State.queueSince
  simp

@[simp] theorem State.store_queueAt (s : State) (p : PortId) (t : FabSlot) :
    (s.queueAt p t).store = s.store := by
  unfold State.queueAt
  simp

@[simp] theorem State.store_deliver (s : State) (p : PortId) (t : FabSlot) :
    (s.deliver p t).store = s.store := (rfl)

@[simp] theorem State.store_sendSince (s : State) (t : FabSlot) (on : Option (Ring × Bool)) (was : Option PortId) (since
    : ℕ) :
    (s.sendSince t on was since).store = s.store := by
  unfold State.sendSince
  repeat' split
  all_goals simp

@[simp] theorem State.store_sendOut (s : State) (t : FabSlot) (on : Option (Ring × Bool)) :
    (s.sendOut t on).store = s.store := by
  unfold State.sendOut
  simp

@[simp] theorem State.store_sendFrom (s : State) (t : FabSlot) :
    (s.sendFrom t).store = s.store := by
  unfold State.sendFrom
  simp

@[simp] theorem State.store_scanStuck (s : State) :
    s.scanStuck.store = s.store := by
  refine State.store_foldl (fun s w => ?_) _ s
  dsimp only
  split
  · rfl
  · split <;> simp

@[simp] theorem State.store_tagFails (s : State) (p : PortId) :
    (s.tagFails p).store = s.store := (rfl)

@[simp] theorem State.store_passOn (s : State) (p : PortId) (t : FabSlot) :
    (s.passOn p t).store = s.store := by
  unfold State.passOn
  simp

@[simp] theorem State.store_slotIn (s : State) (p : PortId) (t : FabSlot) :
    (s.slotIn p t).store = s.store := by
  unfold State.slotIn
  repeat' split
  all_goals simp

@[simp] theorem State.store_takeLack (s : State) (p : PortId) (lack : BitVec 8) :
    (s.takeLack p lack).store = s.store := by
  unfold State.takeLack
  simp

@[simp] theorem State.store_takeMode (s : State) (p : PortId) (f : Flit) :
    (s.takeMode p f).store = s.store := by
  unfold State.takeMode
  dsimp only
  repeat' split
  all_goals simp

@[simp] theorem State.store_acceptFlit (s : State) (p : PortId) (f : Flit) :
    (s.acceptFlit p f).store = s.store := by
  unfold State.acceptFlit
  simp

@[simp] theorem State.store_setQp (s : State) (n : Fin 8192) (q : QPair) :
    (s.setQp n q).store = s.store := (rfl)

@[simp] theorem State.store_modQp (s : State) (n : Fin 8192) (f : QPair → QPair) :
    (s.modQp n f).store = s.store := (rfl)

@[simp] theorem State.store_fabTry (s : State) (k : FabReq) (root : Word) (va : Word) (n : ℕ) (perm : Perm) :
    (s.fabTry k root va n perm).1.store = s.store := by
  unfold State.fabTry
  repeat' split
  all_goals simp

@[simp] theorem State.store_addDue (s : State) (c : Completion) :
    (s.addDue c).store = s.store := (rfl)

@[simp] theorem State.store_workDue (s : State) (status : BitVec 8) (w : Work) :
    (s.workDue status w).store = s.store := by
  unfold State.workDue
  simp

@[simp] theorem State.store_notifyFold (s : State) (far : Word) :
    (s.notifyFold far).store = s.store := by
  unfold State.notifyFold
  split <;> simp

@[simp] theorem State.store_dropWork (s : State) (n : Fin 8192) :
    (s.dropWork n).store = s.store := (rfl)

@[simp] theorem State.store_entryWords (s : State) (n : Fin 8192) (recv : Bool) :
    (s.entryWords n recv).1.store = s.store := by
  unfold State.entryWords
  split <;> simp

@[simp] theorem State.store_control (s : State) (kind : SlotKind) (dst : BitVec 18) (stream : BitVec 16) (seq : BitVec
    24) (op : Word) :
    (s.control kind dst stream seq op).store = s.store := by
  unfold State.control
  simp

@[simp] theorem State.store_ackSlot (s : State) (t : FabSlot) (seq : BitVec 24) (status : BitVec 8) :
    (s.ackSlot t seq status).store = s.store := by
  unfold State.ackSlot
  simp

@[simp] theorem State.store_armResend (s : State) (o : OutSlot) (after : ℕ) :
    (s.armResend o after).store = s.store := by
  unfold State.armResend
  simp

@[simp] theorem State.store_emit (s : State) (w : Work) (l : List Byte) :
    (s.emit w l).store = s.store := by
  unfold State.emit
  simp

@[simp] theorem State.store_resend (s : State) (o : OutSlot) (count : ℕ) :
    (s.resend o count).store = s.store := by
  unfold State.resend
  simp

@[simp] theorem State.store_slotExpires (s : State) :
    s.slotExpires.store = s.store := (rfl)

@[simp] theorem State.store_refuseData (s : State) (t : FabSlot) :
    (s.refuseData t).store = s.store := by
  unfold State.refuseData
  dsimp only
  repeat' split
  all_goals simp

@[simp] theorem State.store_commitTry (s : State) (t : FabSlot) (root : Word) (va : Word) (n : ℕ) (perm : Perm) :
    (s.commitTry t root va n perm).1.store = s.store := by
  unfold State.commitTry
  simp

@[simp] theorem State.store_setIn (s : State) (p : InPair) :
    (s.setIn p).store = s.store := (rfl)

@[simp] theorem State.store_slotStale (s : State) :
    s.slotStale.store = s.store := (rfl)

@[simp] theorem State.store_slotBad (s : State) :
    s.slotBad.store = s.store := (rfl)

@[simp] theorem State.store_firstGrant (s : State) (src : BitVec 18) :
    (s.firstGrant src).store = s.store := by
  unfold State.firstGrant
  simp

@[simp] theorem State.store_rejoinSlot (s : State) (was : Option PortId) (w : PortWait) :
    (s.rejoinSlot was w).store = s.store := by
  unfold State.rejoinSlot
  simp

@[simp] theorem State.store_resendWaiting (s : State) :
    s.resendWaiting.store = s.store := by
  unfold State.resendWaiting
  extract_lets at_ l stays u
  clear_value l
  exact (State.store_foldl (fun (s : State) (e : Option PortId × PortWait) => s.store_rejoinSlot e.1 e.2) _ u).trans rfl

@[simp] theorem State.store_resumePorts (s : State) :
    s.resumePorts.store = s.store := by
  refine (State.store_foldl (fun s p => ?_) _ _).trans (State.store_foldl (fun _ _ => State.store_sched _ _ _) _ s)
  dsimp only
  split
  · rfl
  · exact (State.store_foldl (fun _ _ => State.store_sched _ _ _) _ _).trans (s.store_pump p)

@[simp] theorem State.store_modPath (s : State) (i : Fin 64) (f : Path → Path) :
    (s.modPath i f).store = s.store := (rfl)

@[simp] theorem State.store_pathState (s : State) (i : Fin 64) (st : Fin 7) (timer : Option (Instr × ℕ)) :
    (s.pathState i st timer).store = s.store := by
  unfold State.pathState
  split <;> simp

@[simp] theorem State.store_meshOut (s : State) (k : PathKind) (p : PathPkt) :
    (s.meshOut k p).store = s.store := (rfl)

@[simp] theorem State.store_toElem (s : State) (k : PathKind) (p : PathPkt) (i : ℕ) (stops : Bool) :
    (s.toElem k p i stops).store = s.store := by
  unfold State.toElem
  split <;> simp

@[simp] theorem State.store_backElem (s : State) (k : PathKind) (p : PathPkt) (i : ℕ) :
    (s.backElem k p i).store = s.store := by
  unfold State.backElem
  repeat' split
  all_goals simp

@[simp] theorem State.store_darken (s : State) (p : PortId) :
    (s.darken p).store = s.store := (rfl)

@[simp] theorem State.store_sendTear (s : State) (p : PathPkt) (stops : Bool) :
    (s.sendTear p stops).store = s.store := by
  unfold State.sendTear
  simp

@[simp] theorem State.store_backOff (s : State) (i : Fin 64) (p : PathPkt) (stops : Bool) :
    (s.backOff i p stops).store = s.store := by
  have h := (State.store_foldl (fun s q => s.store_darken q) (s.endPorts i) (s.sendTear p stops)).trans (s.store_sendTear p stops)
  unfold State.backOff
  dsimp only
  split <;> simp [h]

@[simp] theorem State.store_tearPath (s : State) (i : Fin 64) :
    (s.tearPath i).store = s.store := by
  unfold State.tearPath
  simp

@[simp] theorem State.store_portDown (s : State) (p : PortId) :
    (s.portDown p).store = s.store :=
  State.store_foldl (fun s i => by split <;> simp) _ _

@[simp] theorem State.store_portUp (s : State) (p : PortId) :
    (s.portUp p).store = s.store := by
  unfold State.portUp
  simp

@[simp] theorem State.store_lightChanged (s : State) (p : PortId) (was : Bool) :
    (s.lightChanged p was).store = s.store := by
  unfold State.lightChanged
  simp

@[simp] theorem State.store_goesDark (s : State) (p : PortId) (l : Fin 8) :
    (s.goesDark p l).store = s.store := by
  unfold State.goesDark
  simp

@[simp] theorem State.store_mayLight (s : State) (p : PortId) :
    (s.mayLight p).store = s.store := by
  unfold State.mayLight
  split
  · exact State.store_foldl (fun s i => by split <;> simp) _ s
  · rfl

@[simp] theorem State.store_lockLam (s : State) (p : PortId) (l : Fin 8) :
    (s.lockLam p l).store = s.store := by
  unfold State.lockLam
  simp

@[simp] theorem State.store_lockLight (s : State) (p : PortId) :
    (s.lockLight p).store = s.store :=
  State.store_foldl (fun s l => s.store_lockLam p l) _ s

@[simp] theorem State.store_targetAnswers (s : State) (p : PathPkt) :
    (s.targetAnswers p).store = s.store := by
  unfold State.targetAnswers
  dsimp only
  split
  · simp
  · exact (State.store_backElem _ _ _ _).trans (State.store_foldl (fun s i => s.store_lockLight i) _ s)

@[simp] theorem State.store_setupAt (s : State) (p : PathPkt) (e : BitVec 24) :
    (s.setupAt p e).store = s.store := by
  unfold State.setupAt
  split <;> simp

@[simp] theorem State.store_setupAnswered (s : State) (p : PathPkt) (ack : Bool) :
    (s.setupAnswered p ack).store = s.store := by
  unfold State.setupAnswered
  split
  · rfl
  · split
    · rfl
    · split
      · exact (State.store_foldl (fun s q => s.store_lockLight q) _ _).trans (by simp)
      · simp

@[simp] theorem State.store_pathIdle (s : State) (i : Fin 64) :
    (s.pathIdle i).store = s.store :=
  (State.store_pathState _ _ _ _).trans (State.store_foldl (fun s p => s.store_darken p) _ s)

@[simp] theorem State.store_sendSetup (s : State) (i : Fin 64) :
    (s.sendSetup i).store = s.store := by
  unfold State.sendSetup
  simp

@[simp] theorem State.store_writeOptCfg (s : State) (p : PortId) (v : Word) :
    (s.writeOptCfg p v).store = s.store := by
  unfold State.writeOptCfg
  simp

@[simp] theorem State.store_writeOptStat (s : State) (p : PortId) (v : Word) :
    (s.writeOptStat p v).store = s.store :=
  State.store_foldl (fun s l => by split <;> simp) _ _

@[simp] theorem Die.store_countRetries (x : Die) (l : List PortReq) :
    (x.countRetries l).store = x.store := (rfl)

@[simp] theorem Die.store_countUnits (x : Die) :
    x.countUnits.store = x.store := by
  unfold Die.countUnits
  simp

@[simp] theorem Die.store_invalidate (x : Die) (cycle : ℕ) :
    (x.invalidate cycle).store = x.store := (rfl)

@[simp] theorem State.store_dropDue (s : State) (k : ℕ) :
    (s.dropDue k).store = s.store := (rfl)

@[simp] theorem State.store_placeSyllable (s : State) (nbits : ℕ) (w : ℕ) :
    (s.placeSyllable nbits w).store = s.store := (rfl)

@[simp] theorem State.store_scanLand (s : State) (lat : ℕ) (d : Dst) (a : VReg) (r : VReg × Flg) :
    (s.scanLand lat d a r).store = s.store := by
  unfold State.scanLand
  simp

@[simp] theorem State.store_scan (s : State) (lat : ℕ) (op : ScanOp) (red : Bool) (d : Dst) (a : Src) (w : Option ScanExt) :
    (s.scan lat op red d a w).store = s.store := by
  unfold State.scan
  simp

@[simp] theorem State.store_scanArg (s : State) (isMax : Bool) (t : Ty) (red : Bool) (d : Dst) (a : Src) (b : Src) (w :
    Option ScanArgExt) :
    (s.scanArg isMax t red d a b w).store = s.store := by
  unfold State.scanArg
  simp

@[simp] theorem State.store_withFetchWord (s : State) (nbits : ℕ) (w : ℕ) :
    (s.withFetchWord nbits w).store = s.store := (rfl)

end Sys2Proof.Machine
end

