-- ==== Sys2Proof/Proofs/CanonicalTables.lean ====
section
/-! PROOFS. The writes to a table keep every table in canonical form: banks, tags, truth tables, steward memory, slots and what
the rows of an array operation change (R186 to R190, R257 to R275). The functions that only look like a write store nothing. -/

namespace Sys2Proof.Machine

variable {s : State} {x : Die}

/-! ### Banks, tags and truth tables -/

@[simp] theorem Die.canonical_bankWrite (l : List (Nat × Byte)) (h : x.store.Canonical) : (x.bankWrite l).store.Canonical := by
  rw [← Die.wf_iff_canonical] at h ⊢
  exact Die.wf_bankWrite l h

@[simp] theorem Die.canonical_putTable (g : Fin 16) (v : VReg) (h : x.store.Canonical) : (x.putTable g v).store.Canonical := by
  rw [← Die.wf_iff_canonical] at h ⊢
  exact Die.wf_putTable g v h

@[simp] theorem Die.canonical_prepare (w : Window) (image : List (Nat × Word)) (h : x.store.Canonical) :
    (x.prepare w image).store.Canonical := by
  rw [← Die.wf_iff_canonical] at h ⊢
  exact Die.wf_prepare w image h

@[simp] theorem Die.canonical_applyStamps (h : x.store.Canonical) : x.applyStamps.store.Canonical := by
  rw [← Die.wf_iff_canonical] at h ⊢
  exact Die.wf_applyStamps h

@[simp] theorem Die.canonical_foldCycle (h : x.store.Canonical) : x.foldCycle.store.Canonical := ⟨h.1, h.2, h.3, h.4, h.5, h.6⟩

@[simp] theorem Die.store_readLines (n : CtxId) (hnd : Bool) (lines : List Nat) : (x.readLines n hnd lines).1.store = x.store := by
  unfold Die.readLines
  dsimp only
  split
  · rfl
  · exact Die.store_foldl (fun (x : Die) (e : RegBad) => x.store_countTm e.mark) _ _

/-! ### Vectors -/

theorem forall_mem_vmod {α : Type} {n : Nat} {p : α → Prop} {v : Vector α n} (i : Fin n) {f : α → α} (hv : ∀ y ∈ v, p y)
    (hf : p v[i] → p (f v[i])) : ∀ y ∈ vmod v i f, p y := by
  intro y hy
  obtain ⟨k, hk, rfl⟩ := Vector.getElem_of_mem hy
  have hget : (vmod v i f)[k] = if i = ⟨k, hk⟩ then f v[i] else v[k] := vset_get v i ⟨k, hk⟩ _
  rw [hget]
  split
  · exact hf (hv _ (Vector.getElem_mem _))
  · exact hv _ (Vector.getElem_mem _)

/-! ### Slots -/

theorem Die.canonical_slots_iff {v : Vector Slot 128} : (∀ b ∈ { x with slots := v }.store.slots, b.wf = true)
    ↔ ∀ t ∈ v, t.bytes.wf = true := by
  have hs : { x with slots := v }.store.slots = v.toList.map Slot.bytes := rfl
  rw [hs, List.forall_mem_map]
  exact forall_congr' fun t => imp_congr_left Vector.mem_toList_iff

theorem Die.canonical_slots {v : Vector Slot 128} (h : x.store.Canonical) (hv : ∀ t ∈ v, t.bytes.wf = true) :
    { x with slots := v }.store.Canonical := ⟨h.1, h.2, h.3, h.4, Die.canonical_slots_iff.mpr hv, h.6⟩

theorem DieStore.Canonical.mem_slots (h : x.store.Canonical) : ∀ t ∈ x.slots, t.bytes.wf = true :=
  Die.canonical_slots_iff.mp h.slots

@[simp] theorem State.canonical_modSlot (d : DieId) (n : Fin 128) {f : Slot → Slot} (h : s.store.Canonical)
    (hf : ∀ t, t.bytes.wf = true → (f t).bytes.wf = true) : (s.modSlot d n f).store.Canonical :=
  State.canonical_modDie h (Die.canonical_slots (h.die d) (forall_mem_vmod n (h.die d).mem_slots (hf _)))

theorem map_vmod {α β : Type} {n : Nat} (g : α → β) (v : Vector α n) (i : Fin n) (f : α → α) (h : g (f v[i]) = g v[i]) :
    (vmod v i f).toList.map g = v.toList.map g := by
  have hm : (vmod v i f).map g = v.map g := by
    ext k hk
    have hget : (vmod v i f)[k] = if i = ⟨k, hk⟩ then f v[i] else v[k] := vset_get v i ⟨k, hk⟩ _
    rw [Vector.getElem_map, Vector.getElem_map, hget]
    split
    · next e =>
      subst e
      exact h
    · rfl
  rw [← Vector.toList_map, ← Vector.toList_map, hm]

@[simp] theorem State.store_modSlot (d : DieId) (n : Fin 128) {f : Slot → Slot} (hf : (f (s.slot d n)).bytes = (s.slot d n).bytes) :
    (s.modSlot d n f).store = s.store := by
  refine State.store_modDie ?_
  rw [Die.store_def, Die.store_def]
  exact congrArg (fun l => (⟨_, _, _, _, _, l, _⟩ : DieStore)) (map_vmod _ _ _ _ hf)

@[simp] theorem Slot.wf_write (t : Slot) (l : List (Nat × Byte)) (h : t.bytes.wf = true) : (t.write l).bytes.wf = true :=
  Memory.wf_writeAll _ h

@[simp] theorem Die.canonical_releaseOwned (c : CtxId) (h : x.store.Canonical) : (x.releaseOwned c).store.Canonical := by
  refine ⟨h.1, h.2, h.3, h.4, (Die.canonical_slots_iff (x := x)).mpr fun t ht => ?_, h.6⟩
  obtain ⟨u, hu, rfl⟩ := Vector.mem_map.mp ht
  split
  · exact h.mem_slots u hu
  · exact h.mem_slots u hu

/-! ### Arrays -/

theorem Die.canonical_arrays_iff {v : Vector Arr 16} : (∀ a ∈ { x with arrays := v }.store.arrays, ((Sparse.wf a.1 0 = true
    ∧ Sparse.wf a.2.1 0x3C00 = true) ∧ Sparse.wf a.2.2.1 0 = true ∧ Sparse.wf a.2.2.2.1 0x3C00 = true)
    ∧ Sparse.wf a.2.2.2.2.1 0 = true ∧ Sparse.wf a.2.2.2.2.2 0 = true) ↔ ∀ a ∈ v, a.wf = true := by
  have hs : { x with arrays := v }.store.arrays = v.toList.map Arr.tables := rfl
  rw [hs, List.forall_mem_map]
  exact forall_congr' fun a => imp_congr Vector.mem_toList_iff a.wf_iff_tables.symm

@[simp] theorem State.store_modArr (d : DieId) (m : Fin 16) {f : Arr → Arr} (hf : (f (s.arr d m)).tables = (s.arr d m).tables) :
    (s.modArr d m f).store = s.store := by
  refine State.store_modDie ?_
  rw [Die.store_def, Die.store_def]
  exact congrArg (fun l => (⟨_, _, _, _, _, _, l⟩ : DieStore)) (map_vmod _ _ _ _ hf)

/-- What an array has besides its tables is not stored. -/
@[simp] theorem Arr.tables_with (a : Arr) (c : Bool) (m : Fin 3) (r : Option Op) (n k : Nat) :
    ({ a with float := c, metric := m, resume := r, started := n, resumeAt := k } : Arr).tables = a.tables := by
  unfold Arr.tables
  rfl

theorem DieStore.Canonical.mem_arrays (h : x.store.Canonical) : ∀ a ∈ x.arrays, a.wf = true :=
  Die.canonical_arrays_iff.mp h.arrays

theorem DieStore.Canonical.arr (h : x.store.Canonical) (m : Fin 16) : (x.arrays[m]).wf = true :=
  h.mem_arrays _ (Vector.getElem_mem _)

@[simp] theorem State.canonical_modArr (d : DieId) (m : Fin 16) {f : Arr → Arr} (h : s.store.Canonical)
    (hf : ((s.die d).arrays[m]).wf = true → (f (s.die d).arrays[m]).wf = true) : (s.modArr d m f).store.Canonical := by
  have ha := forall_mem_vmod m (h.die d).mem_arrays hf
  exact State.canonical_modDie h ⟨(h.die d).1, (h.die d).2, (h.die d).3, (h.die d).4, (h.die d).5, Die.canonical_arrays_iff.mpr ha⟩

/-- An array's tables in canonical form, one by one. -/
structure Arr.Canonical (a : Arr) : Prop where
  live : a.live.wf = true
  shadow : a.shadow.wf = true
  acc : Sparse.wf a.acc 0 = true
  cnt : Sparse.wf a.cnt 0 = true

theorem Arr.wf_iff (a : Arr) : a.wf = true ↔ a.Canonical := by
  unfold Arr.wf
  simp only [Bool.and_eq_true, and_assoc]
  exact ⟨fun ⟨h1, h2, h3, h4⟩ => ⟨h1, h2, h3, h4⟩, fun ⟨h1, h2, h3, h4⟩ => ⟨h1, h2, h3, h4⟩⟩

variable {a : Arr}

/-- What an array has besides its tables is not stored. -/
@[simp] theorem Arr.wf_with (a : Arr) (c : Bool) (m : Fin 3) (r : Option Op) (n k : Nat) :
    ({ a with float := c, metric := m, resume := r, started := n, resumeAt := k } : Arr).wf = a.wf := by
  unfold Arr.wf
  rfl

theorem Arr.Canonical.setAcc (h : a.Canonical) (i n : Nat) (v : BitVec 32) : (a.setAcc i n v).Canonical :=
  ⟨h.live, h.shadow, Arr.setAcc_wf h.acc i n v, h.cnt⟩

theorem Arr.Canonical.clearRow (h : a.Canonical) (i : Nat) : (a.clearRow i).Canonical :=
  ⟨h.live, h.shadow, Arr.clearRow_wf h.acc i, h.cnt⟩

/-- What each step of a walk over a list keeps, the walk keeps. -/
theorem foldl_keeps {α β : Type} {p : β → Prop} {f : β → α → β} (hf : ∀ b a, p b → p (f b a)) (l : List α) :
    ∀ b, p b → p (l.foldl f b) := by
  induction l with
  | nil => exact fun _ h => h
  | cons a l ih => exact fun b h => ih _ (hf b a h)

theorem Arr.Canonical.poisoned (h : a.Canonical) (i : Nat) :
    ((List.range 128).foldl (fun (a : Arr) n => a.setAcc i n (poisonValue a.float)) a).Canonical :=
  foldl_keeps (fun _ _ hb => hb.setAcc _ _ _) _ _ h

theorem Arr.Canonical.feedRow (h : a.Canonical) (sat : Bool) (metric : Nat) (fa : Ty) (k i : Nat) (row : ActRow) :
    (a.feedRow sat metric fa k i row).1.Canonical := by
  unfold Arr.feedRow
  split
  · exact h.poisoned i
  · exact foldl_keeps (p := fun r : Arr × Flg => r.1.Canonical) (fun _ _ hb => hb.setAcc _ _ _) _ _ h

theorem Weights.wf_iff (w : Weights) : w.wf = true ↔ Sparse.wf w.w 0 = true ∧ Sparse.wf w.scale 0x3C00 = true := by
  unfold Weights.wf
  rw [Bool.and_eq_true]

theorem Arr.Canonical.loadRows (h : a.Canonical) (t : Slot) (fmt : Ty) (scales : List Nat) (n : Nat) (rows : List Nat) :
    (a.loadRows t fmt scales n rows).Canonical := by
  refine ⟨h.live, ?_, h.acc, h.cnt⟩
  refine foldl_keeps (p := fun w : Weights => w.wf = true) (fun w k hw => ?_) _ _ h.shadow
  refine foldl_keeps (p := fun w : Weights => w.wf = true) (fun w e hw => ?_) _ _ hw
  rw [Weights.wf_iff] at hw ⊢
  exact ⟨Sparse.wf_write _ _ hw.1, Sparse.wf_write _ _ hw.2⟩

theorem Arr.Canonical.addTo (h : a.Canonical) (t : Slot) (fmt : Ty) (k i q : Nat) : (a.addTo t fmt k i q).1.Canonical := by
  unfold Arr.addTo
  split
  · exact h
  · have hr : ((List.range k).foldl (centStep t fmt q i) (a, 0)).1.Canonical :=
      foldl_keeps (p := fun r : Arr × Flg => r.1.Canonical) (fun _ _ hb => hb.setAcc _ _ _) _ _ h
    exact ⟨hr.live, hr.shadow, hr.acc, Sparse.wf_write _ _ hr.cnt⟩

theorem Arr.Canonical.drainRow (h : a.Canonical) (d8 : Bool) (k : ArrKind) (t : Slot) (o : Op) (i : Nat) :
    (Machine.drainRow d8 k a t o i).1.Canonical := by
  unfold Machine.drainRow
  split
  · split
    · exact h
    · dsimp only
      split
      · exact foldl_keeps (fun _ _ hb => hb.setAcc _ _ _) _ _ h
      · exact h
  · dsimp only
    split
    · exact h.clearRow i
    · exact h
  · split
    · exact h
    · dsimp only
      split
      · exact ⟨h.live, h.shadow, Arr.clearRow_wf h.acc i, Sparse.okFrom_erase h.cnt⟩
      · exact h
  · exact h

theorem Arr.Canonical.openRun (h : a.Canonical) (k : ArrKind) (o : Op) (fmt : Ty) : (a.openRun k o fmt).Canonical := by
  have hacc (c : Bool) : Sparse.wf (if c then [] else a.acc) 0 = true := by
    split
    · rfl
    · exact h.acc
  unfold Arr.openRun
  split
  · exact ⟨h.live, h.shadow, hacc _, h.cnt⟩
  · exact ⟨h.live, h.shadow, hacc _, h.cnt⟩
  · split
    · exact ⟨h.live, h.shadow, rfl, rfl⟩
    · exact ⟨h.live, h.shadow, h.acc, h.cnt⟩
  · exact ⟨h.live, rfl, h.acc, h.cnt⟩
  · exact h

/-- The rows of an operation keep the tables of its array in canonical form (R264 to R270). -/
theorem Arr.Canonical.applyRows (h : a.Canonical) (d8 : Bool) (k : ArrKind) (t : Slot) (o : Op) (scales : List Nat) (upto : Nat) :
    (Machine.applyRows d8 k a t o scales upto).1.Canonical := by
  have ho : (if o.steps = 0 && 0 < upto then a.openRun k o (streamFmt d8 o) else a).Canonical := by
    split
    · exact h.openRun _ _ _
    · exact h
  unfold Machine.applyRows
  dsimp only
  generalize (if o.steps = 0 && 0 < upto then a.openRun k o (streamFmt d8 o) else a) = b at ho ⊢
  split
  · exact ho.loadRows _ _ _ _ _
  · refine foldl_keeps (p := fun r : Arr × Flg => r.1.Canonical) (fun r i hr => ?_) _ (b, 0) ho
    exact hr.feedRow _ _ _ _ _ _
  · refine foldl_keeps (p := fun r : Arr × Flg => r.1.Canonical) (fun r i hr => ?_) _ (b, 0) ho
    exact hr.feedRow _ _ _ _ _ _
  · refine foldl_keeps (p := fun r : Arr × Flg => r.1.Canonical) (fun r i hr => ?_) _ (b, 0) ho
    exact hr.addTo _ _ _ _ _
  · refine foldl_keeps (p := fun r : Arr × List (Nat × Byte) × Flg => r.1.Canonical) (fun r i hr => ?_) _ (b, [], 0) ho
    exact hr.drainRow _ _ _ _ _

/-! ### Panel memory -/

@[simp] theorem State.canonical_writeMem (pa : Nat) (l : List Byte) (h : s.store.Canonical) : (s.writeMem pa l).store.Canonical := by
  rw [← State.wf_iff_canonical] at h ⊢
  exact State.wf_writeMem pa l h

end Sys2Proof.Machine
end

