-- ==== Sys2Proof/Proofs/IssueCanonical.lean ====
section
/-! PROOFS. Reports, traps, landings, bank accesses and engine syllables keep every table in canonical form; one lemma per
function of the model, for `simp`. -/

namespace Sys2Proof.Machine

@[simp] theorem State.canonical_runWrite (s : State) (a : List (ℕ × ℕ)) (a' : List Byte) (h : s.store.Canonical) :
    (s.runWrite a a').store.Canonical := by
  induction a generalizing s a' with
  | nil => exact h
  | cons r l ih => exact ih _ _ (State.canonical_writeMem _ _ h)

@[simp] theorem State.canonical_putEntry (s : State) (q : QueueId) (e : List Word) (h : s.store.Canonical) :
    (s.putEntry q e).1.store.Canonical := by
  unfold State.putEntry
  have hq := s.store_queueTry q 3 (s.queue q).entryAddr 32 .write
  generalize s.queueTry q 3 (s.queue q).entryAddr 32 .write = m at hq ⊢
  obtain ⟨t, o⟩ := m
  replace h : t.store.Canonical := hq ▸ h
  cases o <;> simp [h]

@[simp] theorem State.canonical_putLoss (s : State) (q : QueueId) (h : s.store.Canonical) :
    (s.putLoss q).store.Canonical := by
  unfold State.putLoss
  split
  · exact h
  next a w e =>
    have hq := s.store_queueTry q 4 a 32 .write
    dsimp only
    generalize s.queueTry q 4 a 32 .write = m at hq ⊢
    obtain ⟨t, o⟩ := m
    replace h : t.store.Canonical := hq ▸ h
    cases o <;> simp [h]

@[simp] theorem State.canonical_queueError (s : State) (q : QueueId) (e : List Word) (h : s.store.Canonical) :
    (s.queueError q e).store.Canonical := by
  unfold State.queueError
  dsimp only
  split <;> simp [h]

@[simp] theorem State.canonical_flushReports (s : State) (q : QueueId) (a : ℕ) (h : s.store.Canonical) :
    (s.flushReports q a).store.Canonical := by
  induction a generalizing s with
  | zero => exact h
  | succ n ih =>
    unfold State.flushReports
    split
    · exact h
    · exact ih _ (by simp [h])
    next e es rest he =>
      split
      · have hp := State.canonical_putEntry s q e h
        generalize s.putEntry q e = m at hp ⊢
        obtain ⟨t, b⟩ := m
        replace hp : t.store.Canonical := hp
        cases b with
        | false => exact hp
        | true =>
          refine ih _ ?_
          split <;> simp [hp]
      · exact h

@[simp] theorem State.canonical_report (s : State) (q : QueueId) (es : List (List Word)) (h : s.store.Canonical) :
    (s.report q es).store.Canonical := by
  unfold State.report
  simp [h]

@[simp] theorem State.canonical_loseTask (s : State) (d : DieId) (c : CtxId) (w2 : Word) (w3 : Word) (more : List (List
    Word)) (h : s.store.Canonical) :
    (s.loseTask d c w2 w3 more).store.Canonical := by
  unfold State.loseTask
  extract_lets x r e l o v iss
  have hr : r.store.Canonical := State.canonical_report _ _ _ h
  have he : e.store.Canonical := State.canonical_of_store (State.store_launchEnds _ _ _ _) hr
  have hl : l.store.Canonical := State.canonical_modDie he
    (Die.canonical_releaseOwned c (Die.canonical_of_store (Die.store_abortOps _ _ _) (he.die_of d)))
  clear_value l
  refine State.canonical_iss ?_
  simp [v, o, hl]

@[simp] theorem State.canonical_takeTrap (s : State) (d : DieId) (c : CtxId) (t : TrapRec) (h : s.store.Canonical) :
    (s.takeTrap d c t).store.Canonical := by
  unfold State.takeTrap
  simp [h]

@[simp] theorem State.canonical_returnTrap (s : State) (d : DieId) (c : CtxId) (issued : ℕ) (h : s.store.Canonical) :
    (s.returnTrap d c issued).store.Canonical := by
  unfold State.returnTrap
  simp [h]

@[simp] theorem State.canonical_trapHere (s : State) (cause : ℕ) (syl : ℕ) (info : Word) (h : s.store.Canonical) :
    (s.trapHere cause syl info).store.Canonical := by
  unfold State.trapHere
  simp [h]

@[simp] theorem State.canonical_trapIllegal (s : State) (h : s.store.Canonical) :
    s.trapIllegal.store.Canonical := by
  unfold State.trapIllegal
  simp [h]

@[simp] theorem State.canonical_loseRoute (s : State) (va : Word) (h : s.store.Canonical) :
    (s.loseRoute va).store.Canonical := by
  unfold State.loseRoute
  refine State.canonical_loseTask _ _ _ _ _ _ ?_
  simp [h]

@[simp] theorem State.canonical_loseWord (s : State) (d : DieId) (c : CtxId) (pc : Word) (source : ℕ) (what : ℕ) (h :
    s.store.Canonical) :
    (s.loseWord d c pc source what).store.Canonical := by
  unfold State.loseWord
  simp [h]

@[simp] theorem State.canonical_landOne (s : State) (d : DieId) (c : CtxId) (f : Flight) (h : s.store.Canonical) :
    (s.landOne d c f).store.Canonical := by
  unfold State.landOne
  extract_lets x t
  have ht : t.store.Canonical := State.canonical_of_store (State.store_modCtx _ _ _) h
  clear_value t
  split
  · exact State.canonical_modDie ht (Die.canonical_putTable _ _ (ht.die_of d))
  · split <;> simp [ht]
  · exact ht

@[simp] theorem State.canonical_schedFault (s : State) (d : DieId) (a : Access) (addr : ℕ) (vec : Bool) (found : BitVec
    8) (want : BitVec 8) (h : s.store.Canonical) :
    (s.schedFault d a addr vec found want).store.Canonical := by
  unfold State.schedFault
  dsimp only
  repeat' split
  all_goals simp [h]

@[simp] theorem State.canonical_readFor (s : State) (d : DieId) (a : Access) (as : List ℕ) (h : s.store.Canonical) :
    (s.readFor d a as).1.store.Canonical := by
  unfold State.readFor
  extract_lets p r t
  have ht : t.store.Canonical := State.canonical_setDie h (Die.canonical_of_store (by simp [r]) (h.die_of d))
  clear_value t
  split
  · exact State.canonical_loseWord _ _ _ _ _ _ ht
  · exact ht

@[simp] theorem State.canonical_performLoad (s : State) (d : DieId) (a : Access) (t : Ty) (dst : Dst) (off : Word) (h :
    s.store.Canonical) :
    (s.performLoad d a t dst off).store.Canonical := by
  unfold State.performLoad
  extract_lets as first tag
  have hr := State.canonical_readFor s d a as h
  generalize s.readFor d a as = m at hr ⊢
  obtain ⟨t, o⟩ := m
  replace hr : t.store.Canonical := hr
  cases o with
  | none => exact hr
  | some l =>
    dsimp only
    split
    · exact State.canonical_schedFault _ _ _ _ _ _ _ hr
    · simp [hr]

@[simp] theorem State.canonical_performStore (s : State) (d : DieId) (a : Access) (h : s.store.Canonical) :
    (s.performStore d a).store.Canonical :=
  State.canonical_modDie h (Die.canonical_of_store (by simp) (Die.canonical_bankWrite a.writes (h.die_of d)))

@[simp] theorem State.canonical_performAmo (s : State) (d : DieId) (a : Access) (op : AmoOp) (t : Ty) (dst : Dst) (off :
    Word) (b : Word) (c : Word) (fmt : FmtCap) (h : s.store.Canonical) :
    (s.performAmo d a op t dst off b c fmt).store.Canonical := by
  unfold State.performAmo
  extract_lets n base as
  have hr := State.canonical_readFor s d a as h
  generalize s.readFor d a as = m at hr ⊢
  obtain ⟨u, o⟩ := m
  replace hr : u.store.Canonical := hr
  cases o with
  | none => exact hr
  | some l =>
    dsimp only
    generalize amoNew op t fmt (natOfBytes l) b.toNat c.toNat = r
    generalize hv : (u.modDie d fun x => (x.bankWrite (as.zip (bytesOfNat n r.1))).outdate a as) = v
    have hw : v.store.Canonical := hv ▸ State.canonical_modDie hr
      (Die.canonical_of_store (Die.store_outdate _ _ _) (Die.canonical_bankWrite _ (hr.die_of d)))
    split <;> simp [hw]

@[simp] theorem State.canonical_performVload (s : State) (d : DieId) (a : Access) (dst : Dst) (addr : VAddr) (m : Mask)
    (t : Setting) (h : s.store.Canonical) :
    (s.performVload d a dst addr m t).store.Canonical := by
  unfold State.performVload
  extract_lets pos as x data u
  have hu : u.store.Canonical := State.canonical_of_store (State.store_setDie (Die.store_takeFar _ _ _)) h
  have hr := State.canonical_readFor u d a as hu
  generalize u.readFor d a as = m at hr ⊢
  obtain ⟨t, o⟩ := m
  replace hr : t.store.Canonical := hr
  cases o with
  | none => exact hr
  | some l =>
    dsimp only
    split
    · exact State.canonical_schedFault _ _ _ _ _ _ _ hr
    · simp [hr]

@[simp] theorem State.canonical_performVstore (s : State) (d : DieId) (a : Access) (v : VReg) (m : Mask) (t : Setting)
    (h : s.store.Canonical) :
    (s.performVstore d a v m t).store.Canonical := by
  unfold State.performVstore
  simp [h]

@[simp] theorem State.canonical_performDrain (s : State) (d : DieId) (a : Access) (eng : Fin 19) (op : ℕ) (h :
    s.store.Canonical) :
    (s.performDrain d a eng op).store.Canonical := by
  unfold State.performDrain
  simp [h]

@[simp] theorem State.canonical_unlessAbsent (s : State) (i : Instr) (f : State) (h : s.store.Canonical)
    (hf : f.store.Canonical) : (s.unlessAbsent i f).store.Canonical := by
  unfold State.unlessAbsent
  split
  · exact State.canonical_trapHere _ _ _ _ h
  · exact hf

end Sys2Proof.Machine
end

