-- ==== Sys2Proof/Proofs/EngineCanonical.lean ====
section
/-! PROOFS. Copies, array rows, replies, arrivals, resets of a die and the bundles' issue keep every table in canonical form;
one lemma per function of the model, for `simp`. -/

namespace Sys2Proof.Machine

@[simp] theorem State.canonical_arrayOp (s : State) (i : Instr) (m : Fin 16) (a : Src) (b : Src) (c : Src) (far : Bool)
    (chained : Bool) (dep : Deps) (h : s.store.Canonical) :
    (s.arrayOp i m a b c far chained dep).store.Canonical := by
  unfold State.arrayOp
  simp [h]

@[simp] theorem State.canonical_remoteOp (s : State) (i : Instr) (cls : Fin 16) (a : Src) (vb : Word) (vc : Word) (vd :
    Word) (dep : Deps) (h : s.store.Canonical) :
    (s.remoteOp i cls a vb vc vd dep).store.Canonical := by
  unfold State.remoteOp
  simp [h]

@[simp] theorem State.canonical_remoteAmo (s : State) (i : Instr) (cls : Fin 16) (d : Src) (a : Src) (b : Src) (dep :
    Deps) (h : s.store.Canonical) :
    (s.remoteAmo i cls d a b dep).store.Canonical := by
  unfold State.remoteAmo
  simp [h]

@[simp] theorem State.store_endOp (s : State) (d : DieId) (q : Fin 19) (id : ℕ) (code : BitVec 8) :
    (s.endOp d q id code).store = s.store := by
  unfold State.endOp
  split <;> simp

@[simp] theorem State.canonical_placeUnit (s : State) (d : DieId) (o : Op) (u : CUnit) (h : s.store.Canonical) :
    (s.placeUnit d o u).store.Canonical := by
  unfold State.placeUnit
  split
  · exact h
  · extract_lets n x base t
    split
    · simp [h]
    · have ht : t.store.Canonical := State.canonical_modDie h
        (Die.canonical_slots (h.die_of d) (forall_mem_vmod n (h.die_of d).mem_slots fun hb => Memory.wf_writeAll _ hb))
      clear_value t
      simp [ht]
  · simp [h]

@[simp] theorem State.canonical_copyCycle (s : State) (d : DieId) (o : Op) (h : s.store.Canonical) :
    (s.copyCycle d o).store.Canonical := by
  unfold State.copyCycle
  extract_lets sh panel room t u
  have ht : t.store.Canonical := State.canonical_of_store (by simp [t]) h
  have hu : u.store.Canonical := State.canonical_of_store (by simp only [u]; split <;> simp) ht
  refine State.canonical_foldl (fun s v hs => ?_) _ u hu
  split
  · split
    · exact State.canonical_placeUnit _ _ _ _ hs
    · exact hs
  · exact hs

@[simp] theorem State.canonical_unitWrote (s : State) (d : DieId) (o : Op) (u : CUnit) (word : ℕ) (bytes : List (ℕ ×
    Byte)) (h : s.store.Canonical) :
    (s.unitWrote d o u word bytes).store.Canonical := by
  unfold State.unitWrote
  extract_lets t u
  have ht : t.store.Canonical := State.canonical_modDie h (Die.canonical_bankWrite _ (h.die_of d))
  clear_value t
  split <;> simp [u, ht]

@[simp] theorem State.canonical_fetchLine (s : State) (d : DieId) (n : CtxId) (va : Word) (h : s.store.Canonical) :
    (s.fetchLine d n va).store.Canonical := by
  unfold State.fetchLine
  extract_lets root line
  have hq := s.store_translate d root va .exec (.fetch n)
  generalize s.translate d root va .exec (.fetch n) = m at hq ⊢
  obtain ⟨t, o⟩ := m
  replace h : t.store.Canonical := hq ▸ h
  cases o with
  | none => dsimp only; split <;> simp [h]
  | some e =>
    dsimp only
    split
    · simp [h]
    · split <;> simp [h]

@[simp] theorem State.canonical_issueDecoded (s : State) (d : DieId) (n : CtxId) (rs : List RawSyl) (is : List Instr) (h
    : s.store.Canonical) :
    (s.issueDecoded d n rs is).store.Canonical := by
  unfold State.issueDecoded
  extract_lets x c p rd t u
  have ht : t.store.Canonical := State.canonical_of_store (State.store_setDie (Die.store_readLines _ _ _)) h
  have hu : u.store.Canonical := State.canonical_of_store (State.store_modDie (by simp)) ht
  clear_value t u
  split
  · exact State.canonical_loseWord _ _ _ _ _ _ ht
  · split
    · exact State.canonical_loseTask _ _ _ _ _ _ hu
    · split
      · exact State.canonical_takeTrap _ _ _ _ ht
      · split
        · simp [ht]
        · split <;> simp [ht]

@[simp] theorem State.canonical_issueBundle (s : State) (d : DieId) (n : CtxId) (h : s.store.Canonical) :
    (s.issueBundle d n).store.Canonical := by
  unfold State.issueBundle
  extract_lets x c p root t
  have ht : t.store.Canonical := State.canonical_of_store State.store_takeFree h
  clear_value t
  split
  · exact State.canonical_fetchLine _ _ _ _ h
  · split
    · exact State.canonical_fetchLine _ _ _ _ h
    · split
      · simp [h]
      · split
        · exact State.canonical_takeTrap _ _ _ _ ht
        · exact State.canonical_issueDecoded _ _ _ _ _ ht

@[simp] theorem State.canonical_waitTrap (s : State) (d : DieId) (n : CtxId) (info : Word) (h : s.store.Canonical) :
    (s.waitTrap d n info).store.Canonical := by
  unfold State.waitTrap
  extract_lets rd t
  have hrd : rd.1.store = (s.die d).store := by
    unfold rd
    split <;> simp
  have ht : t.store.Canonical := State.canonical_of_store (State.store_setDie hrd) h
  clear_value t
  split
  · exact State.canonical_loseWord _ _ _ _ _ _ ht
  · simp [ht]

@[simp] theorem State.canonical_tryIssue (s : State) (d : DieId) (n : CtxId) (h : s.store.Canonical) :
    (s.tryIssue d n).store.Canonical := by
  unfold State.tryIssue
  extract_lets c t
  have ht : t.store.Canonical := State.canonical_returnTrap _ _ _ _ h
  clear_value t
  split
  · exact h
  · split
    · split <;> simp [h]
    · split
      · split
        · exact h
        · exact State.canonical_issueBundle _ _ _ h
      · split
        · simp [h]
        · exact State.canonical_waitTrap _ _ _ _ h
        · split
          · simp [h]
          · split
            · exact h
            · split
              · split
                · exact ht
                · refine State.canonical_issueBundle _ _ _ ?_
                  simp [ht]
              · refine State.canonical_issueBundle _ _ _ ?_
                simp [h]

@[simp] theorem State.canonical_finishBundle (s : State) (h : s.store.Canonical) :
    s.finishBundle.store.Canonical := by
  unfold State.finishBundle
  extract_lets i t r u v w
  have ht : t.store.Canonical := State.canonical_of_store (State.store_sendStaged _) h
  have hu : u.store.Canonical := State.canonical_of_store (State.store_modCtx _ _ _) ht
  clear_value u
  have hv : v.store.Canonical := State.canonical_of_store (State.store_afterBundle _ _ _ _) hu
  have hw : w.store.Canonical := State.canonical_iss hv
  clear_value w
  split
  · exact State.canonical_loseWord _ _ _ _ _ _ hw
  · exact hw

@[simp] theorem State.canonical_afterSyllable (s : State) (i : Instr) (r : RawSyl) (h : s.store.Canonical) :
    (s.afterSyllable i r).store.Canonical := by
  unfold State.afterSyllable
  repeat' split
  all_goals simp [h]

@[simp] theorem State.canonical_freeCtx (s : State) (d : DieId) (n : CtxId) (h : s.store.Canonical) :
    (s.freeCtx d n).store.Canonical :=
  State.canonical_modDie h (Die.canonical_of_store (by simp) (Die.canonical_releaseOwned n (h.die_of d)))

@[simp] theorem State.canonical_endUnhandled (s : State) (d : DieId) (n : CtxId) (h : s.store.Canonical) :
    (s.endUnhandled d n).store.Canonical := by
  unfold State.endUnhandled
  simp [h]

@[simp] theorem State.canonical_replyWrote (s : State) (a : RAcc) (word : ℕ) (bytes : List (ℕ × Byte)) (h :
    s.store.Canonical) :
    (s.replyWrote a word bytes).store.Canonical := by
  unfold State.replyWrote
  extract_lets t left u
  have ht : t.store.Canonical := State.canonical_modDie h (Die.canonical_bankWrite _ (h.die_of _))
  clear_value t
  split <;> simp [u, ht]

@[simp] theorem State.canonical_atStation (s : State) (i : StackId) (a : RAcc) (h : s.store.Canonical) :
    (s.atStation i a).store.Canonical := by
  unfold State.atStation
  repeat' split
  all_goals simp [h]

@[simp] theorem State.canonical_arrivalWord (s : State) (p : DieId) (a : RAcc) (word : ℕ) (h : s.store.Canonical) :
    (s.arrivalWord p a word).store.Canonical := by
  unfold State.arrivalWord
  extract_lets x mine left t u got old n
  have ht : t.store.Canonical := State.canonical_modDie h (Die.canonical_bankWrite _ (h.die_of _))
  have hu : u.store.Canonical := State.canonical_of_store (by simp [u]) h
  clear_value t u
  split
  · split <;> simp [ht]
  · split
    · simp [hu]
    · split
      · split
        · simp [hu]
        · exact State.canonical_of_store (State.store_answerAcc _ _ _)
            (State.canonical_modDie hu (Die.canonical_bankWrite _ (hu.die_of _)))
      · simp [hu]

@[simp] theorem State.store_stepScrub (s : State) (d : DieId) (n : Fin 128) (words : List ℕ) (addrs : List ℕ) :
    (s.stepScrub d n words addrs).store = s.store := by
  unfold State.stepScrub
  extract_lets hit t
  have ht : t.store = s.store := by
    unfold t
    split
    · rfl
    · exact State.store_modSlot _ _ rfl
  clear_value t
  rw [← ht]
  exact State.store_modDie ((Die.store_foldl (fun (x : Die) (e : Nat × EccMark) => x.store_countTm e.2) _ _).trans (by simp))

@[simp] theorem State.canonical_runRows (s : State) (d : DieId) (q : Fin 19) (o : Op) (upto : ℕ) (h : s.store.Canonical) :
    (s.runRows d q o upto).store.Canonical := by
  unfold State.runRows
  extract_lets m n k x d8 fmt t near sc addrs words u r v w o'
  have hu : u.store.Canonical := State.canonical_of_store (State.store_stepScrub _ _ _ _ _) h
  clear_value u
  have hv : v.store.Canonical := State.canonical_modArr d m hu fun _ => by
    rw [Arr.wf_iff]
    exact Arr.Canonical.applyRows ((Arr.wf_iff _).mp ((hu.die_of d).arr m)) _ _ _ _ _ _
  clear_value v
  have hw : w.store.Canonical := by
    unfold w
    split
    · exact hv
    · exact State.canonical_modSlot d n hv fun y hy => Slot.wf_write y _ hy
  clear_value w
  split
  · simp [hu]
  · simp [hw]

@[simp] theorem State.canonical_stepCycle (s : State) (d : DieId) (q : Fin 19) (o : Op) (h : s.store.Canonical) :
    (s.stepCycle d q o).store.Canonical := by
  unfold State.stepCycle
  split
  · split
    · exact h
    · exact State.canonical_modSlot _ _ h fun y hy => Sparse.okFrom_filter _ hy
  · extract_lets rows r
    split
    · exact State.canonical_runRows _ _ _ _ _ h
    · exact h

@[simp] theorem State.canonical_fetchReply (s : State) (a : RAcc) (h : s.store.Canonical) :
    (s.fetchReply a).store.Canonical := by
  unfold State.fetchReply
  extract_lets d t i
  have ht : t.store.Canonical := State.canonical_of_store (State.store_dropAcc _ _) h
  clear_value t
  split
  · exact ht
  · extract_lets n len u v
    have hu : u.store.Canonical := by
      unfold u
      split
      · exact State.canonical_modSlot d n ht fun y hy => Slot.wf_write y _ hy
      · simp [ht]
    clear_value u
    have hv : v.store.Canonical := by
      unfold v
      split <;> simp [hu]
    clear_value v
    simp [hv]

@[simp] theorem State.canonical_fetchCame (s : State) (a : RAcc) (h : s.store.Canonical) :
    (s.fetchCame a).store.Canonical := by
  unfold State.fetchCame
  split <;> simp [h]

@[simp] theorem State.store_startSlot (s : State) (d : DieId) (q : Fin 19) (o : Op) :
    (s.startSlot d q o).store = s.store := by
  unfold State.startSlot
  extract_lets t own
  have ht : t.store = s.store := State.store_modOp _ _ _ _ _
  clear_value t
  rw [← ht]
  split
  · split
    · exact (State.store_opDoneAt _ _ _ _ _).trans (State.store_modSlot _ _ rfl)
    · split <;> simp
  · split
    · exact (State.store_opDoneAt _ _ _ _ _).trans (State.store_modSlot _ _ rfl)
    · simp
  next n _ _ _ =>
    split
    · simp
    · split
      next u hr =>
        refine (State.store_opDoneAt _ _ _ _ _).trans (State.store_modSlot _ _ ?_)
        unfold Slot.reshape at hr
        dsimp only at hr
        split at hr
        · cases hr
        · cases hr
          rfl
      · simp
  · split <;> simp
  · rfl

@[simp] theorem State.store_startArray (s : State) (d : DieId) (q : Fin 19) (o : Op) :
    (s.startArray d q o).store = s.store := by
  unfold State.startArray
  dsimp only
  repeat' split
  all_goals simp

@[simp] theorem State.canonical_poisonArr (s : State) (d : DieId) (q : Fin 19) (o : Op) (h : s.store.Canonical) :
    (s.poisonArr d q o).store.Canonical := by
  unfold State.poisonArr
  refine State.canonical_modArr d (arrayOf q) h fun ha => ?_
  rw [Arr.wf_iff] at ha ⊢
  split
  · exact ⟨ha.live, ha.shadow, ha.acc, ha.cnt⟩
  · exact foldl_keeps (fun _ i hb => hb.poisoned i) _ _ ha

@[simp] theorem State.canonical_completeArray (s : State) (d : DieId) (q : Fin 19) (o : Op) (h : s.store.Canonical) :
    (s.completeArray d q o).store.Canonical := by
  unfold State.completeArray
  split
  · simp [h]
  · extract_lets rows ahead t u
    have ht : t.store.Canonical := by
      unfold t
      split
      · refine State.canonical_modArr d (arrayOf q) h fun ha => ?_
        rw [Arr.wf_iff] at ha ⊢
        exact ⟨ha.shadow, rfl, ha.acc, ha.cnt⟩
      · exact h
    clear_value t
    have hu : u.store.Canonical := by
      unfold u
      split
      · exact State.canonical_of_store (State.store_modArr _ _ rfl) ht
      · exact ht
    clear_value u
    split
    · exact h
    · split
      · simp [h]
      · split
        · exact State.canonical_of_store (State.store_endOp _ _ _ _ _) (State.canonical_poisonArr _ _ _ _ ht)
        · simp [hu]

@[simp] theorem State.canonical_failArray (s : State) (d : DieId) (q : Fin 19) (o : Op) (code : BitVec 8) (h :
    s.store.Canonical) :
    (s.failArray d q o code).store.Canonical := by
  unfold State.failArray
  repeat' split
  all_goals simp [h]

@[simp] theorem State.store_completePanel (s : State) (d : DieId) (o : Op) :
    (s.completePanel d o).store = s.store := by
  unfold State.completePanel
  simp

@[simp] theorem Die.canonical_afterReset (x : Die) (p : Panel) (base : ℕ) (stage : BitVec 4) (inc : BitVec 8) (h :
    x.store.Canonical) :
    (x.afterReset p base stage inc).store.Canonical := by
  refine ⟨h.bank, rfl, rfl, rfl, fun b hb => ?_, fun a ha => ?_⟩
  · have hs : (x.afterReset p base stage inc).slots = Vector.replicate 128 {} := rfl
    rw [Die.store_def, hs, Vector.toList_replicate, List.map_replicate] at hb
    rw [List.eq_of_mem_replicate hb]
    rfl
  · have hs : (x.afterReset p base stage inc).arrays = Vector.replicate 16 {} := rfl
    rw [Die.store_def, hs, Vector.toList_replicate, List.map_replicate] at ha
    rw [List.eq_of_mem_replicate ha]
    exact ⟨⟨⟨rfl, rfl⟩, rfl, rfl⟩, rfl, rfl⟩

@[simp] theorem State.canonical_resetDie (s : State) (d : DieId) (stage : BitVec 4) (inc : BitVec 8) (h :
    s.store.Canonical) :
    (s.resetDie d stage inc).store.Canonical := by
  unfold State.resetDie
  extract_lets base t u v
  have ht : t.store.Canonical := State.canonical_of_store State.store_takeFree h
  have hu : u.store.Canonical := State.canonical_modDie ht (Die.canonical_afterReset _ _ _ _ _ (ht.die_of d))
  have hv : v.store.Canonical := State.canonical_of_store (State.store_modPanel _) hu
  exact hv

@[simp] theorem State.canonical_dieOff (s : State) (p : DieId) (h : s.store.Canonical) :
    (s.dieOff p).store.Canonical := by
  unfold State.dieOff
  simp [h]

@[simp] theorem State.store_signWith (s : State) (d : DieId) (index : ℕ) (msg : List Byte) :
    (s.signWith d index msg).1.store = s.store := by
  unfold State.signWith
  split <;> simp

@[simp] theorem State.canonical_replyAck (s : State) (a : RAcc) (h : s.store.Canonical) :
    (s.replyAck a).store.Canonical := by
  unfold State.replyAck
  repeat' split
  all_goals simp [h]

@[simp] theorem State.canonical_engineCycle (s : State) (d : DieId) (h : s.store.Canonical) :
    (s.engineCycle d).store.Canonical := by
  unfold State.engineCycle
  refine State.canonical_of_store (State.store_drainCycle _ _) ?_
  refine State.canonical_foldl (fun s q hs => State.canonical_foldl (fun s o hs => ?_) _ s hs) _ s h
  split
  · exact hs
  · split
    · exact hs
    · split
      · exact State.canonical_of_store (State.store_copyDone _ _ _) (State.canonical_copyCycle _ _ _ hs)
      · split
        · simp [hs]
        · split
          · exact hs
          · extract_lets t
            have ht : t.store.Canonical := State.canonical_of_store (State.store_ownCycle _ _ _ _) hs
            clear_value t
            split <;> simp [ht]

@[simp] theorem State.canonical_stepsCycle (s : State) (d : DieId) (h : s.store.Canonical) :
    (s.stepsCycle d).store.Canonical := by
  unfold State.stepsCycle
  refine State.canonical_foldl (fun s m hs => State.canonical_foldl (fun s o hs => ?_) _ s hs) _ s h
  split
  · exact hs
  · split
    · exact State.canonical_stepCycle _ _ _ _ hs
    · exact hs

end Sys2Proof.Machine
end

