-- ==== Sys2Proof/Proofs/SpaceCanonical.lean ====
section
/-! PROOFS. Fills, register spaces, launches, walks, packets, boot and attestation keep every table in canonical form; one
lemma per function of the model, for `simp`. -/

namespace Sys2Proof.Machine

@[simp] theorem State.canonical_fillWrote (s : State) (d : DieId) (f : Fill) (word : ℕ) (bytes : List (ℕ × Byte)) (h :
    s.store.Canonical) :
    (s.fillWrote d f word bytes).store.Canonical := by
  unfold State.fillWrote
  extract_lets t u
  have ht : t.store.Canonical := State.canonical_modDie h (Die.canonical_bankWrite _ (h.die_of d))
  clear_value t
  split <;> simp [u, ht]

@[simp] theorem State.canonical_homeWrite (s : State) (d : DieId) (c : CtxId) (base : Word) (off : ℕ) (l : List Byte) (h
    : s.store.Canonical) :
    (s.homeWrite d c base off l).store.Canonical := by
  unfold State.homeWrite
  extract_lets a
  split
  · split
    · exact State.canonical_writeMem _ _ h
    · exact h
  · exact State.canonical_modDie h (Die.canonical_bankWrite _ (h.die_of d))

@[simp] theorem State.canonical_homeWriteLines (s : State) (d : DieId) (c : CtxId) (base : Word) (off : ℕ) (l : List
    Byte) (h : s.store.Canonical) :
    (s.homeWriteLines d c base off l).store.Canonical :=
  State.canonical_foldl (fun _ _ hs => State.canonical_homeWrite _ _ _ _ _ _ hs) _ s h

@[simp] theorem State.canonical_saveSpace (s : State) (d : DieId) (n : CtxId) (hnd : Bool) (base : Word) (pc : Word)
    (state : ℕ) (h : s.store.Canonical) :
    (s.saveSpace d n hnd base pc state).store.Canonical := by
  unfold State.saveSpace
  extract_lets c plan t saves c1 c2 f sw lines ext general check u v
  have ht : t.store.Canonical := by
    refine State.canonical_foldl (fun s a hs => ?_) _ s h
    split
    · exact State.canonical_homeWrite _ _ _ _ _ _ hs
    · exact State.canonical_homeWrite _ _ _ _ _ _ (State.canonical_of_store (State.store_modDie (by simp)) hs)
    · exact State.canonical_modDie hs (Die.canonical_bankWrite _ (hs.die_of d))
  clear_value t
  have hu : u.store.Canonical := State.canonical_of_store (State.store_modCtx _ _ _) ht
  exact State.canonical_homeWriteLines _ _ _ _ _ _ (State.canonical_homeWriteLines _ _ _ _ _ _ hu)

@[simp] theorem State.canonical_setSpaceState (s : State) (d : DieId) (n : CtxId) (base : Word) (state : ℕ) (h :
    s.store.Canonical) :
    (s.setSpaceState d n base state).store.Canonical := by
  unfold State.setSpaceState
  simp [h]

@[simp] theorem State.canonical_scanLate (s : State) (d : DieId) (h : s.store.Canonical) :
    (s.scanLate d).store.Canonical := by
  unfold State.scanLate
  extract_lets late page t
  have ht : t.store.Canonical := by
    refine State.canonical_foldl (fun s l hs => ?_) _ s h
    split
    · exact hs
    · split
      · exact State.canonical_writeMem _ _ hs
      · exact hs
  clear_value t
  split
  · exact h
  · simp [ht]

@[simp] theorem State.canonical_activateTask (s : State) (d : DieId) (n : CtxId) (base : Word) (h : s.store.Canonical) :
    (s.activateTask d n base).1.store.Canonical := by
  unfold State.activateTask
  split
  · extract_lets g r t u v w x
    have ht : t.store.Canonical := State.canonical_of_store (State.store_spaceScrub _ _ _ _ _) h
    clear_value t
    have hu : u.store.Canonical := State.canonical_setSpaceState _ _ _ _ _ ht
    have hv : v.store.Canonical := State.canonical_homeWrite _ _ _ _ _ _ hu
    have hw : w.store.Canonical := State.canonical_of_store (State.store_modDie (by simp)) hv
    clear_value w r
    cases r with
    | error e => exact State.canonical_setSpaceState _ _ _ _ _ ht
    | ok im => exact State.canonical_of_store (State.store_modCtx _ _ _) hw
  · extract_lets t
    have ht : t.store.Canonical := State.canonical_of_store (State.store_homeScrub _ _ _ _) h
    clear_value t
    dsimp only
    split
    · exact State.canonical_setSpaceState _ _ _ _ _ ht
    · exact ht

@[simp] theorem State.canonical_activateHandler (s : State) (d : DieId) (n : CtxId) (base : Word) (h : s.store.Canonical) :
    (s.activateHandler d n base).1.store.Canonical := by
  unfold State.activateHandler
  have hh : (s.homeScrub d base generalLines).store.Canonical := State.canonical_of_store (State.store_homeScrub _ _ _ _) h
  split
  · exact State.canonical_setSpaceState _ _ _ _ _ hh
  · split
    · exact State.canonical_of_store (State.store_modCtx _ _ _) (State.canonical_setSpaceState _ _ _ _ _ hh)
    · extract_lets g r t u x
      have ht : t.store.Canonical := State.canonical_of_store (State.store_spaceScrub _ _ _ _ _) h
      clear_value t
      have hu : u.store.Canonical := State.canonical_setSpaceState _ _ _ _ _ ht
      clear_value u r
      cases r with
      | error e => exact State.canonical_setSpaceState _ _ _ _ _ ht
      | ok im => exact State.canonical_of_store (State.store_modCtx _ _ _) hu

@[simp] theorem State.canonical_reportLost (s : State) (q : QueueId) (serial : BitVec 32) (ringOff : BitVec 32) (pkt :
    ℕ) (n : CtxId) (vdie : BitVec 8) (base : Word) (status : ℕ) (h : s.store.Canonical) :
    (s.reportLost q serial ringOff pkt n vdie base status).store.Canonical := by
  unfold State.reportLost
  simp [h]

@[simp] theorem State.canonical_ctxswFails (s : State) (d : DieId) (n : CtxId) (base : Word) (held : Option HeldSpace)
    (status : ℕ) (h : s.store.Canonical) :
    (s.ctxswFails d n base held status).store.Canonical := by
  unfold State.ctxswFails
  repeat' split
  all_goals simp [h]

@[simp] theorem State.canonical_finishCtxsw (s : State) (d : DieId) (n : CtxId) (base : Word) (h : s.store.Canonical) :
    (s.finishCtxsw d n base).store.Canonical := by
  unfold State.finishCtxsw
  extract_lets held r t
  have hr : r.1.store.Canonical := State.canonical_activateTask _ _ _ _ h
  clear_value r
  split
  · exact State.canonical_ctxswFails _ _ _ _ _ _ hr
  · simp [t, hr]

@[simp] theorem State.canonical_saveFaults (s : State) (d : DieId) (n : CtxId) (h : s.store.Canonical) :
    (s.saveFaults d n).store.Canonical := by
  unfold State.saveFaults
  simp [h]

@[simp] theorem State.canonical_scanSwitch (s : State) (d : DieId) (n : CtxId) (h : s.store.Canonical) :
    (s.scanSwitch d n).store.Canonical := by
  unfold State.scanSwitch
  extract_lets c arg base t read start save
  have ht : t.store.Canonical := by
    unfold t
    split <;> simp [h]
  have hstart (u : State) (n : Nat) : (start u n).store = u.store := by simp [start]
  clear_value t start
  split
  · exact ht
  · split
    · simp [hstart, ht]
    · split
      · exact State.canonical_loseTask _ _ _ _ _ _ (State.canonical_saveFaults _ _ _ ht)
      · have hq := t.store_homeReady d n .write (.regSpace n) (linePages c.rsTask (c.savedLines false c.rsTask))
        generalize t.homeReady d n .write (.regSpace n) (linePages c.rsTask (c.savedLines false c.rsTask)) = m at hq ⊢
        obtain ⟨u, b⟩ := m
        replace ht : u.store.Canonical := hq ▸ ht
        cases b <;> simp [hstart, ht]

@[simp] theorem State.canonical_finishHandler (s : State) (d : DieId) (n : CtxId) (base : Word) (h : s.store.Canonical) :
    (s.finishHandler d n base).store.Canonical := by
  unfold State.finishHandler
  extract_lets c t pc r
  have ht : t.store.Canonical := by
    unfold t
    split
    · exact h
    · exact State.canonical_saveSpace _ _ _ _ _ _ _ h
  clear_value t
  have hr : r.1.store.Canonical := State.canonical_activateHandler _ _ _ _ ht
  clear_value r
  split
  · exact State.canonical_loseTask _ _ _ _ _ _ hr
  · simp [hr]

@[simp] theorem State.canonical_resumeFails (s : State) (d : DieId) (n : CtxId) (base : Word) (status : ℕ) (h :
    s.store.Canonical) :
    (s.resumeFails d n base status).store.Canonical := by
  unfold State.resumeFails
  exact State.canonical_freeCtx _ _ _ (State.canonical_reportLost _ _ _ _ _ _ _ _ _ (State.canonical_of_store (by simp) h))

@[simp] theorem State.canonical_finishResume (s : State) (d : DieId) (n : CtxId) (base : Word) (h : s.store.Canonical) :
    (s.finishResume d n base).store.Canonical := by
  unfold State.finishResume
  extract_lets r
  have hr : r.1.store.Canonical := State.canonical_activateTask _ _ _ _ h
  clear_value r
  split
  · exact State.canonical_resumeFails _ _ _ _ _ hr
  · simp [hr]

@[simp] theorem State.canonical_activationFaults (s : State) (d : DieId) (n : CtxId) (a : Activation) (h :
    s.store.Canonical) :
    (s.activationFaults d n a).store.Canonical := by
  unfold State.activationFaults
  repeat' split
  all_goals simp [h]

@[simp] theorem State.canonical_scanRefill (s : State) (d : DieId) (n : CtxId) (a : Activation) (h : s.store.Canonical) :
    (s.scanRefill d n a).store.Canonical := by
  unfold State.scanRefill
  extract_lets c old
  split
  · exact State.canonical_activationFaults _ _ _ _ h
  · have hq := s.store_spaceReady d n a.hnd a.base (.regSpace n)
    generalize s.spaceReady d n a.hnd a.base (.regSpace n) = m at hq ⊢
    obtain ⟨t, b⟩ := m
    replace h : t.store.Canonical := hq ▸ h
    cases b with
    | false => exact h
    | true =>
      dsimp only
      have hq := t.store_homeReady d n .write (.regSpace n) old
      generalize t.homeReady d n .write (.regSpace n) old = m at hq ⊢
      obtain ⟨u, b⟩ := m
      replace h : u.store.Canonical := hq ▸ h
      cases b <;> simp [h]

@[simp] theorem State.canonical_scanHandler (s : State) (d : DieId) (n : CtxId) (a : Activation) (h : s.store.Canonical) :
    (s.scanHandler d n a).store.Canonical := by
  unfold State.scanHandler
  split <;> simp [h]

@[simp] theorem State.canonical_scanCutBack (s : State) (d : DieId) (n : CtxId) (h : s.store.Canonical) :
    (s.scanCutBack d n).store.Canonical := by
  unfold State.scanCutBack
  extract_lets c mark
  have hmark (u : State) : (mark u).store = u.store := by simp [mark]
  clear_value mark
  split
  · exact h
  · split
    · exact State.canonical_freeCtx _ _ _ (State.canonical_of_store (State.store_launchEnds _ _ _ _) (State.canonical_report _ _ _ h))
    · split
      · split
        · exact State.canonical_freeCtx _ _ _ (State.canonical_reportLost _ _ _ _ _ _ _ _ _ (State.canonical_saveFaults _ _ _ h))
        · have hq := s.store_homeReady d n .write (.regSpace n) (linePages c.rsTask (c.savedLines false c.rsTask))
          generalize s.homeReady d n .write (.regSpace n) (linePages c.rsTask (c.savedLines false c.rsTask)) = m at hq ⊢
          obtain ⟨u, b⟩ := m
          replace h : u.store.Canonical := hq ▸ h
          cases b <;> simp [hmark, h]
      · simp [hmark, h]

@[simp] theorem State.canonical_scanSpaces (s : State) (d : DieId) (n : CtxId) (h : s.store.Canonical) :
    (s.scanSpaces d n).store.Canonical := by
  unfold State.scanSpaces
  extract_lets c t
  have ht : t.store.Canonical := by
    unfold t
    split <;> simp [h]
  clear_value t
  split
  · exact h
  · split
    · exact ht
    · split
      · split
        · exact ht
        · split
          · exact State.canonical_scanHandler _ _ _ _ ht
          · exact State.canonical_scanRefill _ _ _ _ ht
      · split
        · split
          · exact State.canonical_scanCutBack _ _ _ ht
          · exact ht
        · split
          · exact State.canonical_scanSwitch _ _ _ ht
          · split <;> simp [ht]

@[simp] theorem State.canonical_launchFails (s : State) (d : DieId) (p : PendLaunch) (cause : ℕ) (h : s.store.Canonical) :
    (s.launchFails d p cause).store.Canonical := by
  unfold State.launchFails
  simp [h]

@[simp] theorem State.canonical_launchLost (s : State) (d : DieId) (n : CtxId) (p : PendLaunch) (base : Word) (status :
    ℕ) (h : s.store.Canonical) :
    (s.launchLost d n p base status).store.Canonical := by
  unfold State.launchLost
  simp [h]

@[simp] theorem State.canonical_launchInto (s : State) (d : DieId) (n : CtxId) (p : PendLaunch) (h : s.store.Canonical) :
    (s.launchInto d n p).1.store.Canonical := by
  unfold State.launchInto
  exact State.canonical_activateHandler _ _ _ _ (State.canonical_of_store (by simp) h)

@[simp] theorem State.canonical_launchAbandoned (s : State) (d : DieId) (n : CtxId) (p : PendLaunch) (status : ℕ) (h :
    s.store.Canonical) :
    (s.launchAbandoned d n p status).store.Canonical := by
  unfold State.launchAbandoned
  exact State.canonical_freeCtx _ _ _ (State.canonical_reportLost _ _ _ _ _ _ _ _ _ (State.canonical_of_store (by simp) h))

@[simp] theorem State.canonical_launchFresh (s : State) (d : DieId) (n : CtxId) (p : PendLaunch) (w : Window) (new :
    Bool) (image : List (ℕ × Word)) (h : s.store.Canonical) :
    (s.launchFresh d n p w new image).store.Canonical := by
  unfold State.launchFresh
  extract_lets r t wait u v y
  have hr : r.1.store.Canonical := State.canonical_launchInto _ _ _ _ h
  clear_value r
  have ht : t.store.Canonical := by
    unfold t
    split
    · exact State.canonical_modDie hr (Die.canonical_prepare _ _ (hr.die_of d))
    · exact hr
  clear_value t
  have hu : u.store.Canonical := by
    unfold u
    split <;> simp [ht]
  clear_value u
  have hv : v.store.Canonical := State.canonical_setSpaceState _ _ _ _ _ hu
  have hy : y.store.Canonical := State.canonical_homeWrite _ _ _ _ _ _ hv
  clear_value y
  split
  · exact State.canonical_launchAbandoned _ _ _ _ _ hr
  · simp [hy]

@[simp] theorem State.canonical_launchResume (s : State) (d : DieId) (n : CtxId) (p : PendLaunch) (h : s.store.Canonical) :
    (s.launchResume d n p).store.Canonical := by
  unfold State.launchResume
  extract_lets panel due r t
  have hr : r.1.store.Canonical := State.canonical_launchInto _ _ _ _ h
  clear_value r
  split
  · exact State.canonical_launchAbandoned _ _ _ _ _ hr
  · split <;> simp [t, hr]

@[simp] theorem State.canonical_launchWindow (s : State) (d : DieId) (n : CtxId) (p : PendLaunch) (h : s.store.Canonical) :
    (s.launchWindow d n p).store.Canonical := by
  unfold State.launchWindow
  extract_lets x own img at_
  split
  · exact State.canonical_launchFails _ _ _ _ h
  · split
    · exact State.canonical_launchFresh _ _ _ _ _ _ _ h
    · split
      · exact State.canonical_launchFails _ _ _ _ h
      · exact State.canonical_launchFresh _ _ _ _ _ _ _ h
      · simp [h]
      · simp [h]

@[simp] theorem State.canonical_launchFaulted (s : State) (d : DieId) (n : CtxId) (p : PendLaunch) (f : LaunchFault) (h
    : s.store.Canonical) :
    (s.launchFaulted d n p f).store.Canonical := by
  unfold State.launchFaulted
  split <;> simp [h]

@[simp] theorem State.canonical_launchReady (s : State) (d : DieId) (n : CtxId) (p : PendLaunch) (h : s.store.Canonical) :
    (s.launchReady d n p).store.Canonical := by
  unfold State.launchReady
  extract_lets st saved
  split
  · exact State.canonical_launchLost _ _ _ _ _ _
      (State.canonical_setSpaceState _ _ _ _ _ (State.canonical_of_store (State.store_homeScrub _ _ _ _) h))
  · split
    · exact State.canonical_launchFails _ _ _ _ h
    · split
      · exact State.canonical_launchFails _ _ _ _ h
      · have hq := s.store_spaceReady d n true p.hs (.launch p.queue false n)
        generalize s.spaceReady d n true p.hs (.launch p.queue false n) = m at hq ⊢
        obtain ⟨t, b⟩ := m
        replace h : t.store.Canonical := hq ▸ h
        cases b with
        | false => exact h
        | true =>
          dsimp only
          split
          · exact State.canonical_launchResume _ _ _ _ h
          · have hq := t.store_homeReady d n .write (.launch p.queue false n) (linePages p.rs [0])
            generalize t.homeReady d n .write (.launch p.queue false n) (linePages p.rs [0]) = m at hq ⊢
            obtain ⟨u, b⟩ := m
            replace h : u.store.Canonical := hq ▸ h
            cases b with
            | false => exact h
            | true => exact State.canonical_launchWindow _ _ _ _ h

@[simp] theorem State.canonical_launchTry (s : State) (d : DieId) (n : CtxId) (p : PendLaunch) (h : s.store.Canonical) :
    (s.launchTry d n p).store.Canonical := by
  unfold State.launchTry
  split <;> simp [h]

@[simp] theorem State.canonical_requesterEnds (s : State) (d : DieId) (who : Requester) (va : Word) (code : BitVec 8) (h
    : s.store.Canonical) :
    (s.requesterEnds d who va code).store.Canonical := by
  unfold State.requesterEnds
  split <;> simp [h]

@[simp] theorem State.canonical_walkEnds (s : State) (d : DieId) (id : ℕ) (h : s.store.Canonical) :
    (s.walkEnds d id).store.Canonical := by
  unfold State.walkEnds
  repeat' split
  all_goals simp [h]

@[simp] theorem State.canonical_faultEnds (s : State) (d : DieId) (code : BitVec 8) (h : s.store.Canonical) :
    (s.faultEnds d code).store.Canonical := by
  unfold State.faultEnds
  split <;> simp [h]

@[simp] theorem State.canonical_malformed (s : State) (q : QueueId) (h : Word) (hs : s.store.Canonical) :
    (s.malformed q h).store.Canonical := by
  unfold State.malformed
  exact State.canonical_report _ _ _ (State.canonical_of_store (State.store_modQueue _ _) hs)

@[simp] theorem State.canonical_parse (s : State) (q : QueueId) (h : s.store.Canonical) :
    (s.parse q).1.store.Canonical := by
  unfold State.parse
  extract_lets c t
  have ht : t.store.Canonical := State.canonical_of_store (State.store_modQueue _ _) h
  clear_value t
  split
  · exact h
  · split
    · exact ht
    · have hq := t.store_queueWords q [c.wordAt 0]
      generalize t.queueWords q [c.wordAt 0] = m at hq ⊢
      obtain ⟨u, o⟩ := m
      replace ht : u.store.Canonical := hq ▸ ht
      cases o with
      | later => exact ht
      | fails => simp [ht]
      | got l =>
        dsimp only
        split
        · exact State.canonical_malformed _ _ _ ht
        next n _ =>
          split
          · exact State.canonical_malformed _ _ _ ht
          · split
            · exact ht
            · have hq := u.store_queueWords q ((List.range n).map c.wordAt)
              generalize u.queueWords q ((List.range n).map c.wordAt) = m at hq ⊢
              obtain ⟨v, o⟩ := m
              replace ht : v.store.Canonical := hq ▸ ht
              cases o with
              | later => exact ht
              | fails => simp [ht]
              | got w =>
                dsimp only
                split
                · exact State.canonical_malformed _ _ _ ht
                · exact ht

@[simp] theorem State.canonical_performSignal (s : State) (q : QueueId) (h : s.store.Canonical) :
    (s.performSignal q).store.Canonical := by
  unfold State.performSignal
  split
  next a v add _ =>
    have hq := s.store_queueTry q 1 (BitVec.ofNat 64 (bits a 0 48)) 8 .write
    generalize s.queueTry q 1 (BitVec.ofNat 64 (bits a 0 48)) 8 .write = m at hq ⊢
    obtain ⟨t, o⟩ := m
    replace h : t.store.Canonical := hq ▸ h
    cases o with
    | done l =>
      dsimp only
      split
      · simp [h]
      · exact State.canonical_runWrite _ _ _ (State.canonical_of_store (State.store_modQueue _ _) h)
    | fails _ => simp [h]
    | waits => exact h
    | migrating => exact h
  · exact h

@[simp] theorem State.canonical_queueOwes (s : State) (q : QueueId) (h : s.store.Canonical) :
    (s.queueOwes q).store.Canonical := by
  unfold State.queueOwes
  split <;> simp [h]

@[simp] theorem State.canonical_scanQueue (s : State) (q : QueueId) (h : s.store.Canonical) :
    (s.scanQueue q).store.Canonical := by
  unfold State.scanQueue
  extract_lets t u v
  have ht : t.store.Canonical := State.canonical_queueOwes _ _ h
  clear_value t
  have hu : u.store.Canonical := by
    unfold u
    split <;> simp [ht]
  clear_value u
  have hv : v.store.Canonical := by
    unfold v
    split
    · split <;> simp [hu]
    · exact hu
  clear_value v
  split
  · exact h
  · simp [hv]

@[simp] theorem State.store_bootFails (s : State) (d : DieId) (cause : BitVec 8) :
    (s.bootFails d cause).store = s.store := by
  unfold State.bootFails
  simp

@[simp] theorem State.canonical_bootFirmware (s : State) (d : DieId) (l : List Byte) (h : s.store.Canonical) :
    (s.bootFirmware d l).store.Canonical := by
  unfold State.bootFirmware
  extract_lets b
  split
  · simp [h]
  · have hd := h.die_of d
    exact State.canonical_of_store (State.store_romLater _ _)
      (State.canonical_modDie h ⟨hd.1, hd.2, hd.3, Memory.wf_writeAll _ rfl, hd.5, hd.6⟩)

@[simp] theorem State.store_bootMicrocode (s : State) (d : DieId) (l : List Byte) :
    (s.bootMicrocode d l).store = s.store := by
  unfold State.bootMicrocode
  dsimp only
  repeat' split
  all_goals simp

@[simp] theorem State.store_bootRuns (s : State) (d : DieId) :
    (s.bootRuns d).store = s.store := by
  unfold State.bootRuns
  simp

@[simp] theorem State.canonical_bootObtain (s : State) (d : DieId) (h : s.store.Canonical) :
    (s.bootObtain d).store.Canonical := by
  unfold State.bootObtain
  split <;> simp [h]

@[simp] theorem State.canonical_bootRom (s : State) (d : DieId) (h : s.store.Canonical) :
    (s.bootRom d).store.Canonical := by
  unfold State.bootRom
  extract_lets b
  split
  · split
    · exact State.canonical_bootObtain _ _ h
    · exact h
  · split
    · exact State.canonical_bootFirmware _ _ _ h
    · split
      · simp [h]
      · split <;> simp [h]

@[simp] theorem State.store_writeAccept (s : State) (d : DieId) (half : ℕ) (v : Word) :
    (s.writeAccept d half v).store = s.store := by
  unfold State.writeAccept
  simp

theorem BootRegs.takeLeaf_sram {b c : BootRegs} {n : Nat} (h : b.takeLeaf = some (n, c)) : c.sram = b.sram := by
  unfold BootRegs.takeLeaf at h
  split at h
  · cases h
  · dsimp only at h
    obtain ⟨-, rfl⟩ := Prod.mk.inj (Option.some.inj h)
    split
    · unfold BootRegs.nextBlock
      split <;> rfl
    · rfl

@[simp] theorem State.store_attestDie (s : State) (p : DieId) (nonce : BitVec 256) :
    (s.attestDie p nonce).1.store = s.store := by
  unfold State.attestDie
  extract_lets x
  split
  · rfl
  · split
    · rfl
    next n b hb =>
      refine (State.store_signWith _ _ _ _).trans (State.store_modDie ?_)
      have hs : b.sram = (s.die p).boot.sram := BootRegs.takeLeaf_sram hb
      simp [hs]

@[simp] theorem State.store_attest (s : State) (p : DieId) (nonce : BitVec 256) :
    (s.attest p nonce).store = s.store := by
  unfold State.attest
  extract_lets served
  have hf : ∀ (l : List DieId) (acc : State × List Byte), (l.foldl (fun (acc : State × List Byte) d =>
      let r := acc.1.attestDie d nonce
      (r.1, acc.2 ++ r.2)) acc).1.store = acc.1.store := by
    intro l
    induction l with
    | nil => exact fun _ => rfl
    | cons d l ih => exact fun acc => (ih _).trans (State.store_attestDie _ _ _)
  specialize hf served (s, [])
  generalize served.foldl _ (s, []) = m at hf ⊢
  obtain ⟨t, parts⟩ := m
  replace hf : t.store = s.store := hf
  dsimp -zeta only
  extract_lets body
  split
  · exact hf
  next n b hb =>
    extract_lets r
    have hr : r.1.store = t.store := by
      refine (State.store_signWith _ _ _ _).trans (State.store_modDie ?_)
      have hs : b.sram = (t.die p).boot.sram := BootRegs.takeLeaf_sram hb
      simp [hs]
    clear_value r
    split
    · exact hr.trans hf
    · exact (State.store_notify _).trans (hr.trans hf)

@[simp] theorem State.store_manage (s : State) (p : DieId) (a : MgmtReq) :
    (s.manage p a).store = s.store := by
  unfold State.manage
  split <;> simp

@[simp] theorem State.canonical_heats (s : State) (d : DieId) (temp : BitVec 16) (h : s.store.Canonical) :
    (s.heats d temp).store.Canonical := by
  unfold State.heats
  simp [h]

@[simp] theorem Die.store_countStall (x : Die) :
    x.countStall.store = x.store := by
  unfold Die.countStall
  simp

@[simp] theorem State.store_stallCycle (s : State) (d : DieId) :
    (s.stallCycle d).store = s.store := by
  unfold State.stallCycle
  simp

@[simp] theorem State.canonical_stewardPanel (s : State) (d : DieId) (a : StewardAcc) (h : s.store.Canonical) :
    (s.stewardPanel d a).store.Canonical := by
  unfold State.stewardPanel
  repeat' split
  all_goals simp [h]

end Sys2Proof.Machine
end

