-- ==== Sys2Proof/Proofs/FabricCanonical.lean ====
section
/-! PROOFS. Queue pairs, slots, the ports of a cycle and its end and start keep every table in canonical form; one lemma per
function of the model, for `simp`. -/

namespace Sys2Proof.Machine

@[simp] theorem State.canonical_putPhys (s : State) (pa : ℕ) (w : Word) (h : s.store.Canonical) :
    (s.putPhys pa w).store.Canonical := by
  unfold State.putPhys
  simp [h]

@[simp] theorem State.canonical_syncQp (s : State) (n : Fin 8192) (h : s.store.Canonical) :
    (s.syncQp n).store.Canonical := by
  unfold State.syncQp
  exact State.canonical_putPhys _ _ _ (State.canonical_putPhys _ _ _ (State.canonical_putPhys _ _ _ h))

@[simp] theorem State.canonical_qpFails (s : State) (n : Fin 8192) (h : s.store.Canonical) :
    (s.qpFails n).store.Canonical := by
  unfold State.qpFails
  extract_lets t mine u
  have ht : t.store.Canonical := State.canonical_syncQp _ _ (State.canonical_of_store (by simp) h)
  clear_value t
  have hu : u.store = t.store := State.store_foldl (fun s w => State.store_addDue _ _) _ t
  clear_value u
  split
  · exact h
  · simp [hu, ht]

@[simp] theorem State.canonical_endWorks (s : State) (l : List Work) (status : BitVec 8) (h : s.store.Canonical) :
    (s.endWorks l status).store.Canonical := by
  unfold State.endWorks
  extract_lets t u
  have hu : u.store = s.store := (State.store_foldl (fun s w => State.store_workDue _ _ _) _ t).trans (State.store_modFabric _)
  replace hu : u.store.Canonical := State.canonical_of_store hu h
  clear_value u
  split
  · exact hu
  · exact State.canonical_foldl (fun s w hs => State.canonical_qpFails _ _ hs) _ u hu

@[simp] theorem State.canonical_endWork (s : State) (w : Work) (status : BitVec 8) (h : s.store.Canonical) :
    (s.endWork w status).store.Canonical := by
  unfold State.endWork
  simp [h]

@[simp] theorem State.canonical_cqFails (s : State) (c : Fin 8192) (h : s.store.Canonical) :
    (s.cqFails c).store.Canonical := by
  unfold State.cqFails
  refine State.canonical_foldl (fun s n hs => ?_) _ s h
  split
  · exact State.canonical_qpFails _ _ hs
  · exact hs

@[simp] theorem State.canonical_post (s : State) (c : Completion) (h : s.store.Canonical) :
    (s.post c).1.store.Canonical := by
  unfold State.post
  extract_lets a w0 w1 size tail head out va tail'
  have hout (t : State) : (out t).store = t.store := State.store_modFabric _
  clear_value out
  split
  · exact State.canonical_cqFails _ _ (hout s ▸ h)
  · have hq := s.store_fabTry (.cq c.cq) c.root va 32 .write
    generalize s.fabTry (.cq c.cq) c.root va 32 .write = m at hq ⊢
    obtain ⟨t, o⟩ := m
    replace h : t.store.Canonical := hq ▸ h
    cases o with
    | migrating => exact h
    | waits => exact h
    | fails _ => exact State.canonical_cqFails _ _ (hout t ▸ h)
    | done l =>
      dsimp -zeta only
      extract_lets u phase v far
      have hu : u.store.Canonical := State.canonical_runWrite _ _ _ (hout t ▸ h)
      have hv : v.store.Canonical := State.canonical_putPhys _ _ _ hu
      clear_value v
      dsimp only
      split
      · exact hv
      · exact (State.store_notifyFold v far).symm ▸ hv

@[simp] theorem State.canonical_postList (s : State) (a : List Completion) (a' : List (Fin 8192)) (h : s.store.Canonical) :
    (s.postList a a').store.Canonical :=
  State.postList_keeps (R := fun s t => s.store.Canonical → t.store.Canonical) (fun _ h => h) (fun _ _ _ h k hs => k (h hs))
    State.canonical_post s a a' h

@[simp] theorem State.canonical_postDue (s : State) (h : s.store.Canonical) :
    s.postDue.store.Canonical := by
  unfold State.postDue
  simp [h]

@[simp] theorem State.canonical_ring (s : State) (n : Fin 8192) (recv : Bool) (t : BitVec 32) (h : s.store.Canonical) :
    (s.ring n recv t).store.Canonical := by
  unfold State.ring
  simp [h]

@[simp] theorem State.canonical_pastEntry (s : State) (n : Fin 8192) (recv : Bool) (h : s.store.Canonical) :
    (s.pastEntry n recv).store.Canonical := by
  unfold State.pastEntry
  simp [h]

@[simp] theorem State.canonical_entryEnds (s : State) (n : Fin 8192) (recv : Bool) (wrId : Word) (op : BitVec 4) (status
    : BitVec 8) (h : s.store.Canonical) :
    (s.entryEnds n recv wrId op status).store.Canonical := by
  unfold State.entryEnds
  simp [h]

@[simp] theorem State.canonical_streamLost (s : State) (stream : BitVec 16) (dst : BitVec 18) (seq : BitVec 24) (h :
    s.store.Canonical) :
    (s.streamLost stream dst seq).store.Canonical := by
  unfold State.streamLost
  simp [h]

@[simp] theorem State.canonical_commitWrite (s : State) (n : Fin 8192) (t : FabSlot) (h : s.store.Canonical) :
    (s.commitWrite n t).1.store.Canonical := by
  unfold State.commitWrite
  extract_lets q l
  split
  · exact h
  · have hq := s.store_commitTry t q.root (q.regBase + BitVec.ofNat 64 (slotOff t)) l.length .write
    generalize s.commitTry t q.root (q.regBase + BitVec.ofNat 64 (slotOff t)) l.length .write = m at hq ⊢
    obtain ⟨u, o⟩ := m
    replace h : u.store.Canonical := hq ▸ h
    cases o with
    | done r => exact State.canonical_runWrite _ _ _ h
    | migrating => exact h
    | waits => exact h
    | fails c => exact State.canonical_qpFails _ _ h

@[simp] theorem State.canonical_commitRead (s : State) (n : Fin 8192) (t : FabSlot) (h : s.store.Canonical) :
    (s.commitRead n t).1.store.Canonical := by
  unfold State.commitRead
  extract_lets q len va
  split
  · exact h
  · have hq := s.store_commitTry t q.root va len .read
    generalize s.commitTry t q.root va len .read = m at hq ⊢
    obtain ⟨u, o⟩ := m
    replace h : u.store.Canonical := hq ▸ h
    cases o with
    | done r => simp [h]
    | migrating => exact h
    | waits => exact h
    | fails c => exact State.canonical_qpFails _ _ h

@[simp] theorem State.canonical_commitReadData (s : State) (n : Fin 8192) (t : FabSlot) (h : s.store.Canonical) :
    (s.commitReadData n t).1.store.Canonical := by
  unfold State.commitReadData
  extract_lets q l
  split
  · exact h
  next w _ =>
    have hq := s.store_commitTry t q.root (w.laddr + BitVec.ofNat 64 (slotOff t)) l.length .write
    generalize s.commitTry t q.root (w.laddr + BitVec.ofNat 64 (slotOff t)) l.length .write = m at hq ⊢
    obtain ⟨u, o⟩ := m
    replace h : u.store.Canonical := hq ▸ h
    cases o with
    | done r =>
      dsimp -zeta only
      extract_lets w' v
      have hv : v.store.Canonical := State.canonical_of_store (State.store_modFabric _) (State.canonical_runWrite _ _ _ h)
      clear_value v
      dsimp only
      split
      · exact State.canonical_endWork _ _ _ hv
      · exact hv
    | migrating => exact h
    | waits => exact h
    | fails c => exact State.canonical_endWork _ _ _ h

@[simp] theorem State.canonical_commitSend (s : State) (n : Fin 8192) (t : FabSlot) (h : s.store.Canonical) :
    (s.commitSend n t).1.store.Canonical := by
  unfold State.commitSend
  extract_lets q l _ ends
  have hends (u : State) (w : Word) (v : BitVec 8) (n : Nat) (hu : u.store.Canonical) : (ends u w v n).store.Canonical :=
    State.canonical_of_store (State.store_addDue _ _) (State.canonical_pastEntry _ _ _ hu)
  clear_value ends
  split
  · exact h
  · have hq := s.store_commitTry t q.root (q.rqBase + BitVec.ofNat 64 (32 * (q.rHead.toNat % 2 ^ q.rqSize))) 32 .read
    generalize s.commitTry t q.root (q.rqBase + BitVec.ofNat 64 (32 * (q.rHead.toNat % 2 ^ q.rqSize))) 32 .read = m at hq ⊢
    obtain ⟨u, o⟩ := m
    replace h : u.store.Canonical := hq ▸ h
    cases o with
    | migrating => exact h
    | waits => exact h
    | fails c => exact State.canonical_qpFails _ _ (hends _ _ _ _ (State.canonical_of_store State.store_takeFree h))
    | done r =>
      dsimp -zeta only
      extract_lets e
      split
      · exact h
      · have hq := u.store_commitTry t q.root (wordAt e 1 + BitVec.ofNat 64 (slotOff t)) l.length .write
        generalize u.commitTry t q.root (wordAt e 1 + BitVec.ofNat 64 (slotOff t)) l.length .write = m at hq ⊢
        obtain ⟨v, o⟩ := m
        replace h : v.store.Canonical := hq ▸ h
        cases o with
        | migrating => exact h
        | waits => exact h
        | fails c => exact State.canonical_qpFails _ _ (hends _ _ _ _ h)
        | done r =>
          dsimp only
          split
          · exact hends _ _ _ _ (State.canonical_runWrite _ _ _ h)
          · exact State.canonical_runWrite _ _ _ h

@[simp] theorem State.canonical_commitSlot (s : State) (t : FabSlot) (h : s.store.Canonical) :
    (s.commitSlot t).1.store.Canonical := by
  unfold State.commitSlot
  extract_lets n
  split
  · exact h
  · split
    · exact State.canonical_commitWrite _ _ _ h
    · exact State.canonical_commitRead _ _ _ h
    · exact State.canonical_commitReadData _ _ _ h
    · exact State.canonical_commitSend _ _ _ h

@[simp] theorem State.canonical_commitPair (s : State) (src : BitVec 18) (stream : BitVec 16) (a : ℕ) (h :
    s.store.Canonical) :
    (s.commitPair src stream a).store.Canonical := by
  induction a generalizing s with
  | zero => exact h
  | succ k ih =>
    unfold State.commitPair
    extract_lets p
    split
    · exact h
    next t _ =>
      have hs := State.canonical_commitSlot s t h
      generalize s.commitSlot t = m at hs ⊢
      obtain ⟨u, o⟩ := m
      replace hs : u.store.Canonical := hs
      cases o with
      | waits => exact hs
      | refuse => simp [hs]
      | ok v => exact ih _ (State.canonical_of_store (by simp) hs)

@[simp] theorem State.canonical_takeData (s : State) (t : FabSlot) (h : s.store.Canonical) :
    (s.takeData t).store.Canonical := by
  unfold State.takeData
  extract_lets u b p v
  have hu : u.store.Canonical := State.canonical_of_store (State.store_firstGrant _ _) h
  clear_value u
  split
  · simp [h]
  · split
    · simp [hu]
    · split
      · exact hu
      · split
        · simp [hu]
        · exact State.canonical_postDue _ (State.canonical_commitPair _ _ _ _ (State.canonical_of_store (State.store_setIn _ _) hu))

@[simp] theorem State.canonical_ackOut (s : State) (o : OutSlot) (status : BitVec 8) (h : s.store.Canonical) :
    (s.ackOut o status).store.Canonical := by
  unfold State.ackOut
  split
  · exact h
  · extract_lets n w u
    have hu : u.store.Canonical := State.canonical_of_store (State.store_modFabric _) h
    clear_value u
    split
    · exact State.canonical_endWork _ _ _ hu
    · split
      · exact State.canonical_endWork _ _ _ hu
      · exact hu

@[simp] theorem State.canonical_dropPeer (s : State) (p : BitVec 18) (h : s.store.Canonical) :
    (s.dropPeer p).store.Canonical := by
  unfold State.dropPeer
  simp [h]

@[simp] theorem State.canonical_scanFabric (s : State) (h : s.store.Canonical) :
    s.scanFabric.store.Canonical := by
  unfold State.scanFabric
  extract_lets t b u c nums ready v w
  have ht : t.store.Canonical := State.canonical_of_store (State.store_transmitAll _) h
  clear_value t
  have hu : u.store.Canonical := State.canonical_postDue _ (State.canonical_of_store (State.store_scanStuck _) ht)
  clear_value u
  have hv : v.store.Canonical := by
    unfold v
    split
    · simp [hu]
    · split <;> simp [hu]
  clear_value v
  have hw : w.store.Canonical := by
    refine State.canonical_foldl (fun s n hs => ?_) _ v hv
    split
    · exact hs
    · split
      · simp [hs]
      · split <;> simp [hs]
  clear_value w
  split
  · exact ht
  · refine State.canonical_foldl (fun s p hs => ?_) _ w hw
    split <;> simp [hs]

theorem BootRegs.sramCheck_sram (b : BootRegs) (w : Nat) : (b.sramCheck w).sram = b.sram := by
  unfold BootRegs.sramCheck
  split <;> rfl

theorem BootRegs.sramWritten_sram (b : BootRegs) (a n w : Nat) : (b.sramWritten a n w).sram = b.sram := by
  unfold BootRegs.sramWritten
  split
  · rfl
  · exact b.sramCheck_sram w

@[simp] theorem State.canonical_stewardSram (s : State) (d : DieId) (r : StewardAcc) (h : s.store.Canonical) :
    (s.stewardSram d r).store.Canonical := by
  unfold State.stewardSram
  extract_lets words
  refine State.canonical_modDie h ?_
  have hd := h.die_of d
  have hc (l : List Nat) (b : BootRegs) (hb : b.sram.wf = true) :
      (l.foldl (fun (b : BootRegs) w => b.sramCheck w) b).sram.wf = true :=
    foldl_keeps (p := fun b : BootRegs => b.sram.wf = true) (fun b w hb => by rw [BootRegs.sramCheck_sram]; exact hb) l b hb
  have hw (l : List Nat) (b : BootRegs) (hb : b.sram.wf = true) :
      (l.foldl (fun (b : BootRegs) w => b.sramWritten r.addr r.len w) b).sram.wf = true :=
    foldl_keeps (p := fun b : BootRegs => b.sram.wf = true) (fun b w hb => by rw [BootRegs.sramWritten_sram]; exact hb) l b hb
  dsimp only
  split
  · exact ⟨hd.1, hd.2, hd.3, Memory.wf_writeAll _ (hw _ _ hd.sram), hd.5, hd.6⟩
  · refine Die.canonical_of_store (Die.store_stewardEnds _ _ _ _) ?_
    exact ⟨hd.1, hd.2, hd.3, hc _ _ hd.sram, hd.5, hd.6⟩

@[simp] theorem State.canonical_performPort (s : State) (d : DieId) (r : PortReq) (h : s.store.Canonical) :
    (s.performPort d r).store.Canonical := by
  unfold State.performPort
  split
  · split
    · exact State.canonical_fillWrote _ _ _ _ _ h
    · exact h
  · split
    · split
      · exact State.canonical_arrivalWord _ _ _ _ h
      · exact h
    · exact h
  · split
    · exact State.canonical_replyWrote _ _ _ _ h
    · exact h
  · split
    · split <;> simp [h]
    · exact h
  · split
    · split
      · split
        · exact State.canonical_unitWrote _ _ _ _ _ _ h
        · exact h
      · split <;> simp [h]
    · exact h
  · split
    · split <;> simp [h]
    · exact h
  · split
    · exact State.canonical_of_store (State.store_stewardWord _ _ _ _ _)
        (State.canonical_modDie h (Die.canonical_bankWrite _ (h.die_of d)))
    · simp [h]

@[simp] theorem State.canonical_ports (s : State) (d : DieId) (h : s.store.Canonical) :
    (s.ports d).store.Canonical := by
  unfold State.ports
  extract_lets l y t u reads v
  have ht : t.store.Canonical := State.canonical_of_store (State.store_modDie (by simp)) h
  clear_value t
  have hu : u.store.Canonical := State.canonical_foldl (fun s r hs => State.canonical_performPort _ _ _ hs) _ t ht
  clear_value u
  have hv : v.store.Canonical := State.canonical_of_store (State.store_modDie (by simp)) hu
  clear_value v
  split
  · exact h
  · exact State.canonical_foldl (fun s r hs => State.canonical_performPort _ _ _ hs) _ v hv

@[simp] theorem State.canonical_portDie (s : State) (d : DieId) (h : s.store.Canonical) :
    (s.portDie d).store.Canonical := by
  unfold State.portDie
  extract_lets t u
  have ht : t.store.Canonical := State.canonical_stepsCycle _ _ (State.canonical_ports _ _
    (State.canonical_of_store (State.store_fillCycle _ _) (State.canonical_engineCycle _ _ h)))
  clear_value t
  have hu : u.store.Canonical := by
    unfold u
    split <;> simp [ht]
  clear_value u
  split
  · exact h
  · simp [hu]

@[simp] theorem State.canonical_portStage (s : State) (h : s.store.Canonical) :
    s.portStage.store.Canonical := by
  unfold State.portStage
  have hf := State.canonical_foldl (fun s d hs => State.canonical_portDie s d hs) (List.finRange 128) s h
  generalize List.foldl _ s (List.finRange 128) = t at hf ⊢
  exact hf

@[simp] theorem Die.canonical_close (x : Die) (cycle : ℕ) (h : x.store.Canonical) :
    (x.close cycle).store.Canonical := by
  unfold Die.close
  extract_lets y w z u st v
  have hy : y.store.Canonical := Die.canonical_foldCycle h
  clear_value y
  have hz : z.store.Canonical := by
    have hf := Die.store_foldl (f := fun (x : Die) (e : CtxId × TokId × TokState) => x.modCtx e.1 fun c => c.tokStep e.2.1 e.2.2)
      (fun x e => Die.store_modCtx _ _) y.tokEvts y
    have hf' := Die.canonical_of_store hf hy
    exact ⟨hf'.1, hf'.2, hf'.3, hf'.4, hf'.5, hf'.6⟩
  clear_value z
  have hu : u.store.Canonical := by
    unfold u
    split
    · exact hz
    · exact Die.canonical_applyStamps hz
  clear_value u
  have hv : v.store.Canonical := ⟨hu.1, hu.2, hu.3, hu.4, hu.5, hu.6⟩
  clear_value v
  split
  · exact hv
  · simp [hv]

@[simp] theorem State.canonical_endTraps (s : State) (h : s.store.Canonical) :
    s.endTraps.store.Canonical := by
  unfold State.endTraps
  refine State.canonical_foldl (fun s d hs => State.canonical_foldl (fun s c hs => ?_) _ s hs) _ s h
  split
  · exact State.canonical_takeTrap _ _ _ _ hs
  · exact hs

theorem State.canonical_mapDies {s : State} {f : Die → Die} (h : s.store.Canonical)
    (hf : ∀ x : Die, x.store.Canonical → (f x).store.Canonical) : ({ s with dies := s.dies.map f } : State).store.Canonical := by
  refine ⟨h.mem, fun d => ?_⟩
  have hd : State.die { s with dies := s.dies.map f } d = f (s.die d) := Vector.getElem_map _ _
  have hs : State.store { s with dies := s.dies.map f } = ⟨s.mem, fun d => (State.die { s with dies := s.dies.map f } d).store⟩ := rfl
  rw [hs]
  dsimp only
  rw [hd]
  exact hf _ (h.die_of d)

@[simp] theorem State.canonical_endCycle (s : State) (h : s.store.Canonical) :
    s.endCycle.store.Canonical := by
  unfold State.endCycle
  extract_lets t
  have ht : t.store.Canonical := State.canonical_endTraps _ h
  clear_value t
  exact State.canonical_mapDies ht fun x hx => Die.canonical_close x t.cycle hx

@[simp] theorem State.canonical_scanCtx (s : State) (d : DieId) (n : CtxId) (h : s.store.Canonical) :
    (s.scanCtx d n).store.Canonical := by
  unfold State.scanCtx
  extract_lets x c e t u v w y
  have ht : t.store.Canonical := by
    unfold t
    split <;> simp [h]
  clear_value t
  have hu : u.store.Canonical := by
    unfold u
    split <;> simp [ht]
  clear_value u
  have hv : v.store.Canonical := by
    refine State.canonical_foldl (fun s w hs => ?_) _ u hu
    split
    · split <;> simp [hs]
    · exact hs
  clear_value v
  have hw : w.store.Canonical := by
    unfold w
    split <;> simp [hv]
  clear_value w
  have hy : y.store.Canonical := by
    unfold y
    split <;> simp [hw]
  clear_value y
  split
  · exact h
  · exact State.canonical_scanSpaces _ _ _ hy

@[simp] theorem State.canonical_scanDie (s : State) (d : DieId) (h : s.store.Canonical) :
    (s.scanDie d).store.Canonical := by
  unfold State.scanDie
  extract_lets t u v w y
  have ht : t.store.Canonical := State.canonical_of_store (by simp [t]) h
  clear_value t
  have hu : u.store.Canonical :=
    State.canonical_foldl (fun s n hs => State.canonical_scanCtx _ _ _ hs) _ _ (State.canonical_scanLate _ _ ht)
  clear_value u
  have hv : v.store.Canonical := State.canonical_of_store (by simp [v]) hu
  clear_value v
  have hw : w.store.Canonical := State.canonical_of_store (State.store_foldl (fun s o => State.store_pbarCycle _ _ _) _ v) hv
  clear_value w
  have hy : y.store.Canonical := State.canonical_of_store (by simp [y]) hw
  clear_value y
  split
  · exact h
  · split <;> simp [hy]

@[simp] theorem State.canonical_startCycle (s : State) (h : s.store.Canonical) :
    s.startCycle.store.Canonical := by
  unfold State.startCycle
  extract_lets t u
  have ht : t.store.Canonical := State.canonical_foldl (fun s d hs => State.canonical_scanDie _ _ hs) _ s h
  have hu : u.store.Canonical := State.canonical_foldl (fun s q hs => State.canonical_scanQueue _ _ hs) _ t ht
  exact State.canonical_scanFabric _ hu

@[simp] theorem State.canonical_tick (s : State) (h : s.store.Canonical) :
    s.tick.store.Canonical := by
  unfold State.tick
  simp [h]

end Sys2Proof.Machine
end

