-- ==== Sys2Proof/Proofs/CanonicalSteps.lean ====
section
/-! PROOFS. Steps that keep every table in canonical form, and what a register write does within a step (R186 to R190). -/

namespace Sys2Proof.Machine

/-- From a state whose tables are in canonical form, a step answers one whose tables are. -/
def KeepsCanonical (f : State → Host.Outcome State Fault Refusal) : Prop :=
  ∀ s t, s.store.Canonical → f s = .next t → t.store.Canonical

namespace KeepsCanonical

variable {f : State → Host.Outcome State Fault Refusal} {g : State → State}

theorem next (hf : ∀ s, f s = .next (g s)) (hg : ∀ s, s.store.Canonical → (g s).store.Canonical) : KeepsCanonical f := by
  intro s t hs ht
  rw [hf s] at ht
  exact Host.Outcome.next.inj ht ▸ hg s hs

theorem of_store (hf : ∀ s, f s = .next (g s)) (hg : ∀ s, (g s).store = s.store) : KeepsCanonical f :=
  next hf fun s hs => State.canonical_of_store (hg s) hs

/-- A step within a step. -/
theorem within (hf : KeepsCanonical f) {s : State} (h : s.store.Canonical) (a : EvArg) : (s.within f a).store.Canonical := by
  unfold State.within
  split
  next t ht =>
    have hk : t.store.Canonical := hf { s with ev := a } t h ht
    exact hk
  · exact h

end KeepsCanonical

theorem State.store_dies {s : State} {v : Vector Die 128} (h : ∀ d : DieId, (v[d]).store = (s.die d).store) :
    ({ s with dies := v } : State).store = s.store := State.store_ext rfl h

theorem Die.store_repeat {f : Die → Die} (h : ∀ x, (f x).store = x.store) (n : Nat) (x : Die) :
    (Nat.repeat f n x).store = x.store := by
  induction n with
  | zero => rfl
  | succ n ih => exact (h _).trans ih

theorem Die.store_nextBlock (x : Die) : { x with boot := x.boot.nextBlock }.store = x.store := by
  refine Die.store_with (x := x) (h := ?_) ..
  unfold BootRegs.nextBlock
  split <;> rfl

end Sys2Proof.Machine
end

