-- ==== Sys2Proof/Proofs/CanonicalEvents.lean ====
section
/-! PROOFS. The steps of landings, accesses, engines, copies, the sequencer, remote streams, fills and the panel keep every
table in canonical form. -/

namespace Sys2Proof.Machine

theorem execResultLanding_keepsCanonical : KeepsCanonical execResultLanding := by
  refine .next (fun _ => rfl) fun s h => ?_
  exact State.canonical_foldl (fun s f hs => State.canonical_landOne _ _ _ _ hs) _ _
    (State.canonical_of_store (State.store_modCtx _ _ _) h)

theorem execBankAccessPerform_keepsCanonical : KeepsCanonical execBankAccessPerform := by
  intro s t h ht
  unfold execBankAccessPerform at ht
  extract_lets d at ht
  split at ht
  · exact Host.Outcome.next.inj ht ▸ h
  next a _ =>
    extract_lets u at ht
    rw [← Host.Outcome.next.inj ht]
    have hu : u.store.Canonical := State.canonical_of_store (State.store_modDie (by simp)) h
    clear_value u
    split
    · exact State.canonical_performLoad _ _ _ _ _ _ hu
    · exact State.canonical_performStore _ _ _ hu
    · exact State.canonical_performStore _ _ _ hu
    · exact State.canonical_performAmo _ _ _ _ _ _ _ _ _ _ hu
    · exact State.canonical_performVload _ _ _ _ _ _ _ hu
    · exact State.canonical_performVstore _ _ _ _ _ _ hu
    · exact State.canonical_performDrain _ _ _ _ _ hu

theorem execFarGroupArrival_keepsCanonical : KeepsCanonical execFarGroupArrival := by
  refine .next (fun _ => rfl) fun s h => ?_
  simp [h]

theorem execArrivePerform_keepsCanonical : KeepsCanonical execArrivePerform := by
  refine .next (fun _ => rfl) fun s h => ?_
  simp [h]

theorem execFoldSetPerform_keepsCanonical : KeepsCanonical execFoldSetPerform := by
  refine .next (fun _ => rfl) fun s h => ?_
  simp [h]

theorem execCopyUnitCommit_keepsCanonical : KeepsCanonical execCopyUnitCommit := by
  refine .next (fun _ => rfl) fun s h => ?_
  dsimp only
  repeat' split
  all_goals simp [h]

theorem execCopyTagWaitLimit_keepsCanonical : KeepsCanonical execCopyTagWaitLimit := by
  refine .of_store (fun _ => rfl) fun s => ?_
  split
  · rfl
  · split <;> simp

theorem execBundleIssue_keepsCanonical : KeepsCanonical execBundleIssue := by
  refine .next (fun _ => rfl) fun s h => ?_
  dsimp only
  repeat' split
  all_goals simp [h]

theorem execQuantumExpiry_keepsCanonical : KeepsCanonical execQuantumExpiry := by
  refine .next (fun _ => rfl) fun s h => ?_
  simp [h]

theorem execWaitConditionMet_keepsCanonical : KeepsCanonical execWaitConditionMet := by
  refine .next (fun _ => rfl) fun s h => ?_
  split
  · exact h
  · split
    · exact h
    · exact State.canonical_waitTrap _ _ _ _ (State.canonical_of_store (State.store_modCtx _ _ _) h)
    · simp [h]

theorem execHeldBundleRelease_keepsCanonical : KeepsCanonical execHeldBundleRelease := by
  refine .next (fun _ => rfl) fun s h => ?_
  simp [h]

theorem execTagWaitLimit_keepsCanonical : KeepsCanonical execTagWaitLimit := by
  refine .next (fun _ => rfl) fun s h => ?_
  dsimp only
  repeat' split
  all_goals simp [h]

theorem execTaskEnd_keepsCanonical : KeepsCanonical execTaskEnd := by
  refine .next (fun _ => rfl) fun s h => ?_
  dsimp only
  repeat' split
  all_goals simp [h]

theorem execRemoteAccessCommit_keepsCanonical : KeepsCanonical execRemoteAccessCommit := by
  refine .next (fun _ => rfl) fun s h => ?_
  dsimp only
  repeat' split
  all_goals simp [h]

theorem execMcstArrival_keepsCanonical : KeepsCanonical execMcstArrival := by
  refine .next (fun _ => rfl) fun s h => ?_
  simp [h]

theorem execMcstLanding_keepsCanonical : KeepsCanonical execMcstLanding := by
  refine .next (fun _ => rfl) fun s h => ?_
  refine State.canonical_modDie h (Die.canonical_foldl (fun x m hx => ?_) _ _
    (Die.canonical_of_store (x := s.die s.ev.die) (by simp) (h.die_of _)))
  dsimp only
  have hb (l : List (Nat × Byte)) := Die.canonical_bankWrite l hx
  split <;> simp [hb]

theorem execPbarArrivalSend_keepsCanonical : KeepsCanonical execPbarArrivalSend := by
  refine .next (fun _ => rfl) fun s h => ?_
  split <;> simp [h]

theorem execPbarRootCount_keepsCanonical : KeepsCanonical execPbarRootCount := by
  refine .next (fun _ => rfl) fun s h => ?_
  exact State.canonical_of_store ((State.store_foldl (fun s a => State.store_countArrival _ _ _) _ _).trans (by simp)) h

theorem execPbarRelease_keepsCanonical : KeepsCanonical execPbarRelease := by
  refine .next (fun _ => rfl) fun s h => ?_
  simp [h]

theorem execPbCtlWrite_keepsCanonical : KeepsCanonical execPbCtlWrite := by
  refine .next (fun _ => rfl) fun s h => ?_
  simp [h]

theorem execSyncRecal_keepsCanonical : KeepsCanonical execSyncRecal := by
  refine .next (fun _ => rfl) fun s h => ?_
  simp [h]

theorem execSyncLock_keepsCanonical : KeepsCanonical execSyncLock := by
  refine .of_store (fun _ => rfl) fun s => ?_
  split
  · rfl
  · split
    · simp
    · refine (State.store_modPanel _).trans (State.store_dies fun d => ?_)
      rw [Fin.getElem_fin, Vector.getElem_ofFn]
      exact Die.store_def _

theorem execServiceChange_keepsCanonical : KeepsCanonical execServiceChange := by
  refine .next (fun _ => rfl) fun s h => ?_
  split
  next p v inc _ =>
    extract_lets t e u
    have ht : t.store.Canonical := State.canonical_of_store (State.store_modDie (by simp)) h
    clear_value t
    have hu : u.store.Canonical := by
      unfold u
      split
      · exact ht
      · exact State.canonical_mapDies ht fun x hx => Die.canonical_of_store (Die.store_def _) hx
    clear_value u
    simp [hu]
  · exact State.canonical_dieOff _ _ h
  · simp [h]
  · simp [h]
  · split <;> simp [h]

theorem execRemoteAccessSend_keepsCanonical : KeepsCanonical execRemoteAccessSend := by
  refine .next (fun _ => rfl) fun s h => ?_
  split <;> simp [h]

theorem execRemoteReplyArrival_keepsCanonical : KeepsCanonical execRemoteReplyArrival := by
  refine .next (fun _ => rfl) fun s h => ?_
  dsimp only
  repeat' split
  all_goals simp [h]

theorem execRetryAfterExpiry_keepsCanonical : KeepsCanonical execRetryAfterExpiry := by
  refine .next (fun _ => rfl) fun s h => ?_
  split <;> simp [h]

theorem execRemoteTimeout_keepsCanonical : KeepsCanonical execRemoteTimeout := by
  refine .of_store (fun _ => rfl) fun s => ?_
  split
  · rfl
  · split
    · rfl
    · exact (State.store_foldl (fun s b => State.store_abandon _ _) _ _).trans (State.store_markLost _ _)

theorem execStMigWrite_keepsCanonical : KeepsCanonical execStMigWrite := by
  refine .next (fun _ => rfl) fun s h => ?_
  simp [h]

theorem execEngineOpStart_keepsCanonical : KeepsCanonical execEngineOpStart := by
  refine .next (fun _ => rfl) fun s h => ?_
  split <;> simp [h]

theorem execEngineOpComplete_keepsCanonical : KeepsCanonical execEngineOpComplete := by
  refine .next (fun _ => rfl) fun s h => ?_
  split
  · exact h
  · split
    · exact h
    · split
      · simp [h]
      · split
        · simp [h]
        · split
          · simp [h]
          · exact State.canonical_completeArray _ _ _ _ h

theorem execEngineOpError_keepsCanonical : KeepsCanonical execEngineOpError := by
  refine .next (fun _ => rfl) fun s h => ?_
  split <;> simp [h]

theorem execFollowOnIssue_keepsCanonical : KeepsCanonical execFollowOnIssue := by
  refine .of_store (fun _ => rfl) fun s => ?_
  refine (State.store_foldl (fun s q => ?_) _ _).trans (State.store_modDie (Die.store_mapOps _ _))
  split
  · split <;> simp
  · rfl

theorem execFillBegin_keepsCanonical : KeepsCanonical execFillBegin := by
  refine .next (fun _ => rfl) fun s h => ?_
  dsimp only
  repeat' split
  all_goals simp [h]

theorem execFillComplete_keepsCanonical : KeepsCanonical execFillComplete := by
  refine .next (fun _ => rfl) fun s h => ?_
  dsimp only
  repeat' split
  all_goals simp [h]

theorem execRefreshWindowOpen_keepsCanonical : KeepsCanonical execRefreshWindowOpen := by
  refine .of_store (fun _ => rfl) fun s => ?_
  have ht (f : Die → Die) (hf : ∀ x, (f x).store = x.store) : (s.modDie s.ev.die f).store = s.store := State.store_modDie (hf _)
  dsimp only
  split
  · exact ht _ fun x => by simp
  · refine Eq.trans ?_ (ht (fun x => { x.readEntries s.ev.id with nextFill := s.ev.id + 1, fillAfter := s.cycle + 1 }) fun x => by simp)
    exact (State.store_sched _ _ _).trans ((State.store_modDie (by simp)).trans
      (State.store_foldl (fun s i => State.store_modStation _ _) _ _))

theorem execRefreshWindowClose_keepsCanonical : KeepsCanonical execRefreshWindowClose := by
  refine .next (fun _ => rfl) fun s h => ?_
  simp [h]

theorem execStationForcedRefresh_keepsCanonical : KeepsCanonical execStationForcedRefresh := by
  refine .of_store (fun _ => rfl) fun s => ?_
  refine State.store_takeFree.trans (State.store_modDie ?_)
  exact (Die.store_repeat Die.store_countSlip _ _).trans (by simp)

theorem execFillCalWrite_keepsCanonical : KeepsCanonical execFillCalWrite := by
  refine .next (fun _ => rfl) fun s h => ?_
  simp [h]

theorem execChannelRedeal_keepsCanonical : KeepsCanonical execChannelRedeal := by
  refine .of_store (fun _ => rfl) fun s => ?_
  refine (State.store_foldl (fun s p => ?_) _ _).trans (State.store_modStation _ _)
  split
  · exact State.store_modDie (Die.store_repeat Die.store_countSlip _ _)
  · rfl

theorem execUcieFlitCrcFail_keepsCanonical : KeepsCanonical execUcieFlitCrcFail := by
  refine .next (fun _ => rfl) fun s h => ?_
  split <;> simp [h]

theorem execStationParityDiscard_keepsCanonical : KeepsCanonical execStationParityDiscard := by
  refine .next (fun _ => rfl) fun s h => ?_
  split <;> simp [h]

theorem execCtxswComplete_keepsCanonical : KeepsCanonical execCtxswComplete := by
  refine .next (fun _ => rfl) fun s h => ?_
  dsimp only
  repeat' split
  all_goals simp [h]

end Sys2Proof.Machine
end

