-- ==== Sys2Proof/Proofs/CanonicalSystems.lean ====
section
/-! PROOFS. The steps of register spaces, walks, queues, boot, keys, links, slots, light and paths keep every table in canonical
form. -/

namespace Sys2Proof.Machine

theorem execSpillRefillComplete_keepsCanonical : KeepsCanonical execSpillRefillComplete := by
  refine .next (fun _ => rfl) fun s h => ?_
  split
  · exact h
  · split
    · exact h
    · split
      · simp [h]
      · split
        · exact State.canonical_finishHandler _ _ _ _ h
        · split
          · exact State.canonical_finishCtxsw _ _ _ _ h
          · exact State.canonical_finishResume _ _ _ _ h

theorem execCutBack_keepsCanonical : KeepsCanonical execCutBack := by
  refine .of_store (fun _ => rfl) fun s => ?_
  split
  · simp
  · split
    · simp
    · extract_lets t u v
      have ht : t.store = s.store := State.store_modDie (by simp)
      have hu : u.store = t.store := by
        unfold u
        split <;> simp
      have hv : v.store = u.store := State.store_modCtx _ _ _
      exact hv.trans (hu.trans ht)

theorem execCutBackSaveEnd_keepsCanonical : KeepsCanonical execCutBackSaveEnd := by
  refine .next (fun _ => rfl) fun s h => ?_
  split
  · exact h
  · split
    · simp [h]
    · have hs := State.canonical_saveSpace _ s.ev.die s.ev.ctx false (s.ctx s.ev.die s.ev.ctx).rsTask
        ((s.ctx s.ev.die s.ev.ctx).idemPc &&& ~~~3) 3
        (State.canonical_of_store (State.store_modCtx s.ev.die s.ev.ctx Ctx.restored) h)
      exact State.canonical_freeCtx _ _ _ (State.canonical_of_store (State.store_launchEnds _ _ _ _)
        (State.canonical_report _ _ _ (State.canonical_of_store (State.store_hold _ _ _) hs)))

theorem execCtxPreWrite_keepsCanonical : KeepsCanonical execCtxPreWrite := by
  refine .next (fun _ => rfl) fun s h => ?_
  simp [h]

theorem execWinRelWrite_keepsCanonical : KeepsCanonical execWinRelWrite := by
  refine .next (fun _ => rfl) fun s h => ?_
  split <;> simp [h]

theorem execTaskLaunchStart_keepsCanonical : KeepsCanonical execTaskLaunchStart := by
  refine .next (fun _ => rfl) fun s h => ?_
  dsimp only
  repeat' split
  all_goals simp [h]

theorem execTranslationWalkComplete_keepsCanonical : KeepsCanonical execTranslationWalkComplete := by
  refine .next (fun _ => rfl) fun s h => ?_
  simp [h]

theorem execMigratingLeafRewalk_keepsCanonical : KeepsCanonical execMigratingLeafRewalk := by
  refine .next (fun _ => rfl) fun s h => ?_
  simp [h]

theorem execMmuResolveRetry_keepsCanonical : KeepsCanonical execMmuResolveRetry := by
  refine .next (fun _ => rfl) fun s h => ?_
  dsimp only
  repeat' split
  all_goals simp [h]

theorem execMmuResolveFail_keepsCanonical : KeepsCanonical execMmuResolveFail := by
  refine .next (fun _ => rfl) fun s h => ?_
  simp [h]

theorem execMmuResolveRefuse_keepsCanonical : KeepsCanonical execMmuResolveRefuse := by
  refine .next (fun _ => rfl) fun s h => ?_
  simp [h]

theorem execMmuInval_keepsCanonical : KeepsCanonical execMmuInval := by
  refine .next (fun _ => rfl) fun s h => ?_
  simp [h]

theorem execLaunchPacket_keepsCanonical : KeepsCanonical execLaunchPacket := by
  refine .next (fun _ => rfl) fun s h => ?_
  have hp := State.canonical_parse s s.ev.que h
  generalize s.parse s.ev.que = m at hp ⊢
  obtain ⟨t, o⟩ := m
  replace hp : t.store.Canonical := hp
  cases o with
  | none => exact hp
  | some w =>
    dsimp only
    split
    · exact hp
    · split
      · simp [hp]
      · split
        · exact State.canonical_report _ _ _ (State.canonical_of_store (State.store_modQueue _ _) hp)
        · refine State.canonical_of_store ((State.store_foldl (fun s k => State.store_dispatchTask _ _ _ _ _ _ _) _ _).trans ?_) hp
          split <;> simp

theorem execCopyPacket_keepsCanonical : KeepsCanonical execCopyPacket := by
  refine .next (fun _ => rfl) fun s h => ?_
  split
  · simp [h]
  · have hp := State.canonical_parse s s.ev.que h
    generalize s.parse s.ev.que = m at hp ⊢
    obtain ⟨t, o⟩ := m
    replace hp : t.store.Canonical := hp
    cases o with
    | none => exact hp
    | some w =>
      dsimp only
      split
      · exact hp
      · split <;> simp [hp]

theorem execFencePacket_keepsCanonical : KeepsCanonical execFencePacket := by
  refine .next (fun _ => rfl) fun s h => ?_
  have hp := State.canonical_parse s s.ev.que h
  generalize s.parse s.ev.que = m at hp ⊢
  obtain ⟨t, o⟩ := m
  replace hp : t.store.Canonical := hp
  cases o with
  | none => exact hp
  | some w =>
    dsimp only
    split
    · exact hp
    · simp [hp]

theorem execFenceReread_keepsCanonical : KeepsCanonical execFenceReread := by
  refine .next (fun _ => rfl) fun s h => ?_
  simp [h]

theorem execSignalPacket_keepsCanonical : KeepsCanonical execSignalPacket := by
  refine .next (fun _ => rfl) fun s h => ?_
  split
  · exact State.canonical_performSignal _ _ h
  · have hp := State.canonical_parse s s.ev.que h
    generalize s.parse s.ev.que = m at hp ⊢
    obtain ⟨t, o⟩ := m
    replace hp : t.store.Canonical := hp
    cases o with
    | none => exact hp
    | some w =>
      dsimp only
      split
      · exact hp
      · simp [hp]

theorem execMarkPacket_keepsCanonical : KeepsCanonical execMarkPacket := by
  refine .next (fun _ => rfl) fun s h => ?_
  have hp := State.canonical_parse s s.ev.que h
  generalize s.parse s.ev.que = m at hp ⊢
  obtain ⟨t, o⟩ := m
  replace hp : t.store.Canonical := hp
  cases o with
  | none => exact hp
  | some w =>
    dsimp only
    split
    · exact hp
    · simp [hp]

theorem execQTailWrite_keepsCanonical : KeepsCanonical execQTailWrite := by
  refine .next (fun _ => rfl) fun s h => ?_
  simp [h]

theorem execQRheadWrite_keepsCanonical : KeepsCanonical execQRheadWrite := by
  refine .next (fun _ => rfl) fun s h => ?_
  simp [h]

theorem execQCtlWrite_keepsCanonical : KeepsCanonical execQCtlWrite := by
  refine .next (fun _ => rfl) fun s h => ?_
  simp [h]

theorem execLeaderElection_keepsCanonical : KeepsCanonical execLeaderElection := by
  refine .of_store (fun _ => rfl) fun s => ?_
  split
  · rfl
  · split <;> simp

theorem execDieReset_keepsCanonical : KeepsCanonical execDieReset := by
  refine .next (fun _ => rfl) fun s h => ?_
  split
  · exact h
  · split
    · exact State.canonical_bootRom _ _ h
    · extract_lets arr inc t u v
      have ht : t.store.Canonical := State.canonical_resetDie _ _ _ _ h
      clear_value t
      have hu : u.store.Canonical := State.canonical_of_store (State.store_modDie (Die.store_nextBlock _)) ht
      clear_value u
      have hv : v.store.Canonical := by
        unfold v
        split <;> simp [hu]
      clear_value v
      simp [hv]

theorem execSvnCommit_keepsCanonical : KeepsCanonical execSvnCommit := by
  refine .of_store (fun _ => rfl) fun s => ?_
  refine State.store_modDie ?_
  dsimp only
  split
  · rfl
  · split
    · split <;> rfl
    · split <;> rfl

theorem execFeatureLock_keepsCanonical : KeepsCanonical execFeatureLock := by
  refine .next (fun _ => rfl) fun s h => ?_
  split
  · exact h
  · split
    · simp [h]
    · extract_lets t
      have ht : t.store.Canonical := State.canonical_of_store (State.store_modPanel _) h
      clear_value t
      exact State.canonical_mapDies ht fun x hx => Die.canonical_of_store (Die.store_def _) hx

theorem execAttestationRequest_keepsCanonical : KeepsCanonical execAttestationRequest := by
  refine .next (fun _ => rfl) fun s h => ?_
  split <;> simp [h]

theorem execThermalShutdown_keepsCanonical : KeepsCanonical execThermalShutdown := by
  refine .next (fun _ => rfl) fun s h => ?_
  simp [h]

theorem execPowerThrottle_keepsCanonical : KeepsCanonical execPowerThrottle := by
  refine .next (fun _ => rfl) fun s h => ?_
  refine State.canonical_heats _ _ _ (State.canonical_of_store (State.store_modDie ?_) h)
  exact Die.store_def _

theorem execStewardBankAccess_keepsCanonical : KeepsCanonical execStewardBankAccess := by
  refine .next (fun _ => rfl) fun s h => ?_
  simp [h]

theorem execStewardPanelAccess_keepsCanonical : KeepsCanonical execStewardPanelAccess := by
  refine .next (fun _ => rfl) fun s h => ?_
  simp [h]

theorem execFlitReceive_keepsCanonical : KeepsCanonical execFlitReceive := by
  refine .of_store (fun _ => rfl) fun s => ?_
  split
  · rfl
  · split
    · rfl
    · split
      · simp
      · split <;> simp

theorem execLinkReplay_keepsCanonical : KeepsCanonical execLinkReplay := by
  refine .next (fun _ => rfl) fun s h => ?_
  simp [h]

theorem execLackIdleFlit_keepsCanonical : KeepsCanonical execLackIdleFlit := by
  refine .next (fun _ => rfl) fun s h => ?_
  simp [h]

theorem execLnkModeWrite_keepsCanonical : KeepsCanonical execLnkModeWrite := by
  refine .next (fun _ => rfl) fun s h => ?_
  simp [h]

theorem execModeRequestTimeout_keepsCanonical : KeepsCanonical execModeRequestTimeout := by
  refine .next (fun _ => rfl) fun s h => ?_
  split <;> simp [h]

theorem execQpLoad_keepsCanonical : KeepsCanonical execQpLoad := by
  refine .next (fun _ => rfl) fun s h => ?_
  simp [h]

theorem execQpReset_keepsCanonical : KeepsCanonical execQpReset := by
  refine .next (fun _ => rfl) fun s h => ?_
  simp [h]

theorem execQpError_keepsCanonical : KeepsCanonical execQpError := by
  refine .next (fun _ => rfl) fun s h => ?_
  split <;> simp [h]

theorem execDoorbellWrite_keepsCanonical : KeepsCanonical execDoorbellWrite := by
  refine .next (fun _ => rfl) fun s h => ?_
  split
  · exact h
  · exact State.canonical_postDue _ (State.canonical_syncQp _ _ (State.canonical_ring _ _ _ _ (State.canonical_ring _ _ _ _ h)))

theorem execWorkEntryServe_keepsCanonical : KeepsCanonical execWorkEntryServe := by
  intro s v h hv
  unfold execWorkEntryServe at hv
  extract_lets n recv q left ready t at hv
  rw [← Host.Outcome.next.inj hv]
  split
  · exact h
  · have ht : t.store.Canonical := by
      unfold t
      split <;> simp [h]
    clear_value t
    have hq := t.store_entryWords n recv
    generalize t.entryWords n recv = m at hq ⊢
    obtain ⟨u, o⟩ := m
    replace ht : u.store.Canonical := hq ▸ ht
    cases o with
    | migrating => exact ht
    | waits => exact ht
    | fails c =>
      exact State.canonical_postDue _ (State.canonical_entryEnds _ _ _ _ _ _ (State.canonical_of_store (by simp) ht))
    | done runs =>
      dsimp only
      split
      · exact State.canonical_postDue _ (State.canonical_entryEnds _ _ _ _ _ _ ht)
      · split
        · exact State.canonical_postDue _ (State.canonical_entryEnds _ _ _ _ _ _ ht)
        · split
          · exact State.canonical_postDue _ (State.canonical_entryEnds _ _ _ _ _ _ ht)
          · exact State.canonical_of_store (State.store_takeFresh.trans (State.store_modFabric _)) (State.canonical_pastEntry _ _ _ ht)

theorem execSlotSend_keepsCanonical : KeepsCanonical execSlotSend := by
  intro s v h hv
  unfold execSlotSend at hv
  extract_lets n b q at hv
  rw [← Host.Outcome.next.inj hv]
  split
  · exact h
  next w _ =>
    split
    · exact State.canonical_postDue _ (State.canonical_endWork _ _ _ h)
    · extract_lets a
      have hq := s.store_fabTry (.bytes n) q.root a.1 a.2 .read
      generalize s.fabTry (.bytes n) q.root a.1 a.2 .read = m at hq ⊢
      obtain ⟨u, o⟩ := m
      replace h : u.store.Canonical := hq ▸ h
      cases o with
      | migrating => exact h
      | waits => exact h
      | fails c => exact State.canonical_postDue _ (State.canonical_qpFails _ _ (State.canonical_endWork _ _ _ h))
      | done runs =>
        dsimp only
        split
        · exact State.canonical_postDue _ (State.canonical_qpFails _ _ (State.canonical_endWork _ _ _ h))
        · simp [h]

theorem execSlotResendTimeout_keepsCanonical : KeepsCanonical execSlotResendTimeout := by
  refine .next (fun _ => rfl) fun s h => ?_
  dsimp only
  repeat' split
  all_goals simp [h]

theorem execSlotForward_keepsCanonical : KeepsCanonical execSlotForward := by
  refine .next (fun _ => rfl) fun s h => ?_
  split <;> simp [h]

theorem execSlotPortWaitExpiry_keepsCanonical : KeepsCanonical execSlotPortWaitExpiry := by
  refine .next (fun _ => rfl) fun s h => ?_
  split <;> simp [h]

theorem execSlotArrival_keepsCanonical : KeepsCanonical execSlotArrival := by
  refine .next (fun _ => rfl) fun s h => ?_
  split
  · exact State.canonical_postDue _ (State.canonical_commitPair _ _ _ _ h)
  · split
    · simp [h]
    · split
      · simp [h]
      · split
        · exact h
        · exact State.canonical_takeData _ _ h

theorem execSlotAckArrival_keepsCanonical : KeepsCanonical execSlotAckArrival := by
  refine .next (fun _ => rfl) fun s h => ?_
  split
  · simp [h]
  · split
    · simp [h]
    · exact State.canonical_postDue _ (State.canonical_foldl (fun s o hs => State.canonical_ackOut _ _ _ hs) _ _
        (State.canonical_of_store (State.store_modFabric _) h))

theorem execRefusalNoticeArrival_keepsCanonical : KeepsCanonical execRefusalNoticeArrival := by
  refine .next (fun _ => rfl) fun s h => ?_
  dsimp only
  repeat' split
  all_goals simp [h]

theorem execFabricRetryAfterExpiry_keepsCanonical : KeepsCanonical execFabricRetryAfterExpiry := by
  refine .next (fun _ => rfl) fun s h => ?_
  split <;> simp [h]

theorem execGrantArrival_keepsCanonical : KeepsCanonical execGrantArrival := by
  refine .next (fun _ => rfl) fun s h => ?_
  simp [h]

theorem execIncarnationAnnouncement_keepsCanonical : KeepsCanonical execIncarnationAnnouncement := by
  refine .next (fun _ => rfl) fun s h => ?_
  dsimp only
  repeat' split
  all_goals simp [h]

theorem execFabHoldSet_keepsCanonical : KeepsCanonical execFabHoldSet := by
  refine .of_store (fun _ => rfl) fun s => ?_
  split
  · simp
  · refine (State.store_foldl (fun s p => ?_) _ _).trans (State.store_modFabric _)
    dsimp only
    split <;> simp

theorem execDrainMarkerArrival_keepsCanonical : KeepsCanonical execDrainMarkerArrival := by
  refine .next (fun _ => rfl) fun s h => ?_
  simp [h]

theorem execFabHoldClear_keepsCanonical : KeepsCanonical execFabHoldClear := by
  refine .next (fun _ => rfl) fun s h => ?_
  split
  · simp [h]
  · extract_lets t known u v
    have ht : t.store.Canonical := State.canonical_of_store (State.store_modFabric _) h
    clear_value t
    have hu : u.store.Canonical := State.canonical_foldl (fun s p hs => State.canonical_dropPeer _ _ hs) _ t ht
    clear_value u
    have hv : v.store.Canonical := State.canonical_of_store (State.store_foldl (fun s o => State.store_armResend _ _ _) _ u) hu
    exact State.canonical_postDue _ (State.canonical_of_store (by simp) hv)

theorem execRingRelockStart_keepsCanonical : KeepsCanonical execRingRelockStart := by
  refine .next (fun _ => rfl) fun s h => ?_
  simp [h]

theorem execRingRelockEnd_keepsCanonical : KeepsCanonical execRingRelockEnd := by
  refine .next (fun _ => rfl) fun s h => ?_
  simp [h]

theorem execWavelengthSignalLoss_keepsCanonical : KeepsCanonical execWavelengthSignalLoss := by
  refine .next (fun _ => rfl) fun s h => ?_
  simp [h]

theorem execWavelengthRetire_keepsCanonical : KeepsCanonical execWavelengthRetire := by
  refine .next (fun _ => rfl) fun s h => ?_
  simp [h]

theorem execSetup_keepsCanonical : KeepsCanonical execSetup := by
  refine .next (fun _ => rfl) fun s h => ?_
  split <;> simp [h]

theorem execAck_keepsCanonical : KeepsCanonical execAck := by
  refine .next (fun _ => rfl) fun s h => ?_
  dsimp only
  repeat' split
  all_goals simp [h]

theorem execNak_keepsCanonical : KeepsCanonical execNak := by
  refine .next (fun _ => rfl) fun s h => ?_
  dsimp only
  repeat' split
  all_goals simp [h]

theorem execTear_keepsCanonical : KeepsCanonical execTear := by
  refine .of_store (fun _ => rfl) fun s => ?_
  split
  · rfl
  · split
    · exact (State.store_backElem _ _ _ _).trans (State.store_foldl (fun s i => State.store_darken _ _) _ _)
    · split <;> simp

theorem execTearAck_keepsCanonical : KeepsCanonical execTearAck := by
  refine .of_store (fun _ => rfl) fun s => ?_
  split
  · rfl
  · split
    · split
      · split <;> simp
      · rfl
    · split <;> simp

theorem execReservationTimeout_keepsCanonical : KeepsCanonical execReservationTimeout := by
  refine .next (fun _ => rfl) fun s h => ?_
  simp [h]

theorem execSetupTimeout_keepsCanonical : KeepsCanonical execSetupTimeout := by
  refine .next (fun _ => rfl) fun s h => ?_
  simp [h]

theorem execBackOffExpiry_keepsCanonical : KeepsCanonical execBackOffExpiry := by
  refine .next (fun _ => rfl) fun s h => ?_
  simp [h]

theorem execPathLit_keepsCanonical : KeepsCanonical execPathLit := by
  refine .next (fun _ => rfl) fun s h => ?_
  simp [h]

theorem execLightingTimeout_keepsCanonical : KeepsCanonical execLightingTimeout := by
  refine .next (fun _ => rfl) fun s h => ?_
  simp [h]

theorem execTearingTimeout_keepsCanonical : KeepsCanonical execTearingTimeout := by
  refine .next (fun _ => rfl) fun s h => ?_
  simp [h]

theorem execPathSetupRequest_keepsCanonical : KeepsCanonical execPathSetupRequest := by
  refine .next (fun _ => rfl) fun s h => ?_
  simp [h]

theorem execPathTearRequest_keepsCanonical : KeepsCanonical execPathTearRequest := by
  refine .next (fun _ => rfl) fun s h => ?_
  simp [h]

theorem execKeyDelivery_keepsCanonical : KeepsCanonical execKeyDelivery := by
  refine .of_store (fun _ => rfl) fun s => ?_
  dsimp only
  split
  · simp
  · split
    · rfl
    · split
      · rfl
      · split
        · simp
        · refine (State.store_foldl (fun s p => ?_) _ _).trans (State.store_modFabric _)
          split <;> simp

theorem execPartitionDissolve_keepsCanonical : KeepsCanonical execPartitionDissolve := by
  refine .next (fun _ => rfl) fun s h => ?_
  simp [h]

theorem execPanelReset_keepsCanonical : KeepsCanonical execPanelReset := by
  refine .next (fun _ => rfl) fun s h => ?_
  simp [h]

theorem execRejoinDelayExpiry_keepsCanonical : KeepsCanonical execRejoinDelayExpiry := by
  refine .next (fun _ => rfl) fun s h => ?_
  simp [h]

end Sys2Proof.Machine
end

