-- ==== Sys2Proof/Proofs/CanonicalRegisters.lean ====
section
/-! PROOFS. Writes of registers, by a die's own core or a steward, keep every table in canonical form: each is a step within the
step, or a field that is not stored. -/

namespace Sys2Proof.Machine

variable {s : State}

theorem State.canonical_writePanelBlock (d : DieId) (off : Nat) (v : Word) (h : s.store.Canonical) :
    (s.writePanelBlock d off v).store.Canonical := by
  unfold State.writePanelBlock
  split
  · simp [h]
  · split
    · simp [h]
    · split
      · exact State.canonical_of_store (State.store_modMWin _ _ _ _) h
      · split
        · split
          · exact execPbCtlWrite_keepsCanonical.within h _
          · exact h
        · split
          · extract_lets t
            have ht : t.store.Canonical := State.canonical_of_store (State.store_modDie (by simp)) h
            clear_value t
            split
            · exact execSyncRecal_keepsCanonical.within ht _
            · exact ht
          · exact h

theorem State.canonical_writeStation (i : StackId) (off : Nat) (v : Word) (h : s.store.Canonical) :
    (s.writeStation i off v).store.Canonical := by
  unfold State.writeStation
  split
  · exact execStMigWrite_keepsCanonical.within h _
  · exact State.canonical_of_store (State.store_modStation _ _) h

theorem State.canonical_writeLnk (p : PortId) (v : Word) (h : s.store.Canonical) : (s.writeLnk p v).store.Canonical :=
  execLnkModeWrite_keepsCanonical.within (State.canonical_of_store (State.store_modPort _ _) h) _

theorem State.canonical_writePathSt (i : Fin 64) (v : Word) (pkt : PathPkt) (h : s.store.Canonical) :
    (s.writePathSt i v pkt).store.Canonical := by
  unfold State.writePathSt
  extract_lets t
  have ht : t.store.Canonical := State.canonical_of_store (State.store_modPath _ _ _) h
  clear_value t
  split
  · exact execPathSetupRequest_keepsCanonical.within ht _
  · exact execPathTearRequest_keepsCanonical.within ht _

theorem State.canonical_writeQueue (off : Nat) (v : Word) (h : s.store.Canonical) : (s.writeQueue off v).store.Canonical := by
  unfold State.writeQueue
  extract_lets q
  split
  · exact h
  · split
    · simp [h]
    · simp [h]
    · exact execQTailWrite_keepsCanonical.within h _
    · simp [h]
    · simp [h]
    · exact execQRheadWrite_keepsCanonical.within h _
    · exact execQCtlWrite_keepsCanonical.within h _
    · exact h

theorem State.canonical_writeBoot (d : DieId) (off : Nat) (v : Word) (h : s.store.Canonical) :
    (s.writeBoot d off v).store.Canonical := by
  unfold State.writeBoot
  split
  · exact execSvnCommit_keepsCanonical.within h _
  · simp [h]
  · simp [h]
  · exact execFeatureLock_keepsCanonical.within h _
  · exact h

theorem State.canonical_writeRing (off : Nat) (v : Word) (pkt : PathPkt) (h : s.store.Canonical) :
    (s.writeRing off v pkt).store.Canonical := by
  unfold State.writeRing
  split
  · exact State.canonical_writeLnk _ _ h
  · split
    · simp [h]
    · split
      · simp [h]
      · split
        · exact State.canonical_writePathSt _ _ _ h
        · split
          · split
            · exact execFabHoldSet_keepsCanonical.within h _
            · exact execFabHoldClear_keepsCanonical.within h _
          · have ht : (s.modFabric fun b => writeFabric b off v).store.Canonical :=
              State.canonical_of_store (State.store_modFabric _) h
            split
            · split
              · exact h
              · extract_lets t a
                replace ht : t.store.Canonical := ht
                clear_value t
                split
                · exact execQpLoad_keepsCanonical.within ht _
                · exact execQpReset_keepsCanonical.within ht _
                · exact execQpError_keepsCanonical.within ht _
                · exact ht
            · dsimp only
              split
              · exact State.canonical_of_store (State.store_foldl (fun s o => State.store_armResend _ _ _) _ _) ht
              · exact ht

theorem Die.store_writeTelemetry (x : Die) (off : Nat) (v : Word) : { x with boot := writeTelemetry x.boot off v }.store = x.store := by
  refine Die.store_with (x := x) (h := ?_) ..
  unfold writeTelemetry
  split <;> rfl

/-- A register write keeps every table in canonical form. -/
theorem State.canonical_regWrite (blk : RegBlock) (off : Nat) (v : Word) (pkt : PathPkt) (h : s.store.Canonical) :
    (s.regWrite blk off v pkt).store.Canonical := by
  unfold State.regWrite
  split
  · exact h
  · split
    · simp [h]
    · split
      · exact execWinRelWrite_keepsCanonical.within h _
      · split
        · exact execCtxPreWrite_keepsCanonical.within h _
        · exact h
    · simp [h]
    · split
      · split
        · exact execMmuResolveRetry_keepsCanonical.within h _
        · exact execMmuResolveFail_keepsCanonical.within h _
        · exact execMmuResolveRefuse_keepsCanonical.within h _
        · exact h
      · exact execMmuInval_keepsCanonical.within h _
      · exact execFillCalWrite_keepsCanonical.within h _
      · simp [h]
    · exact State.canonical_writePanelBlock _ _ _ h
    · exact State.canonical_writeQueue _ _ h
    · exact State.canonical_writeBoot _ _ _ h
    · exact State.canonical_of_store (State.store_modDie (Die.store_writeTelemetry _ _ _)) h
    · exact State.canonical_writeStation _ _ _ h
    · exact State.canonical_writeRing _ _ _ h

theorem State.canonical_stewardAccess (d : DieId) (r : StewardAcc) (h : s.store.Canonical) :
    (s.stewardAccess d r).store.Canonical := by
  unfold State.stewardAccess
  split
  · simp [h]
  · split
    · split <;> simp [h]
    · exact State.canonical_stewardSram _ _ _ h
    · split
      · exact State.canonical_regWrite _ _ _ _ h
      · simp [h]
    · simp [h]
    · exact State.canonical_stewardPanel _ _ _ h
    · split <;> simp [h]

theorem execRegisterWrite_keepsCanonical : KeepsCanonical execRegisterWrite := by
  refine .next (fun _ => rfl) fun s h => ?_
  split
  · exact State.canonical_regWrite _ _ _ _ h
  · split
    · exact State.canonical_stewardAccess _ _ h
    · exact h

end Sys2Proof.Machine
end

