-- ==== Sys2Proof/Proofs/StepKeepsWf.lean ====
section
/-! PROOFS. Every instruction, every step of the part and every cycle keeps the tables of the machine in canonical form (O12). -/

namespace Sys2Proof.Machine

/-- The instructions, by what they put in flight or on its way, and then the steps of the part. -/
theorem exec_keepsCanonical (i : Instr) : KeepsCanonical (exec i) := by
  cases i
  case add | sub | mul | mulh | div | rem | and | or | xor | andn | shl | shr | sar | rot | min | max | ceq | cne | clt
      | cle | neg | abs | clz | popc | mov | addImm | mulImm | andImm | orImm | xorImm | shlImm | shrImm |
      sarImm | ceqImm | cltImm | cleImm | minImm | maxImm | movImm | addLong | mulLong | andLong | orLong |
      xorLong | ceqLong | cltLong | cleLong | movLong | movh =>
    exact .of_store (fun _ => rfl) fun _ => State.store_intLand _ _ _ _ _
  case sel | rdsp | adr =>
    exact .of_store (fun _ => rfl) fun _ => State.store_intLand64 _ _ _
  case lit | minv | mset | rteBpc | rteMv | rtePass =>
    exact .of_store (fun _ => rfl) fun _ => State.store_land _ _ _ _
  case ld | ldOffset =>
    exact .of_store (fun _ => rfl) fun _ => State.store_scalarLoad _ _ _ _ _
  case st | stOffset =>
    exact .of_store (fun _ => rfl) fun _ => State.store_scalarStore _ _ _ _ _
  case fenceK | waitTok | waitAny | waitFold | yield =>
    exact .of_store (fun _ => rfl) fun _ => State.store_addWait _ _
  case amoAdd | amoAnd | amoOr | amoXor | amoMax | amoMin | amoSwap | amoCas | amoFadd | amoFmax | amoFmin | amoSadd =>
    exact .of_store (fun _ => rfl) fun _ => State.store_localAmo _ _ _ _ _ _ _ _ _
  case br | brz | brnz | bany | ball | bnone | bcntGe | bcntLt | ret | jmp | bskip | btok =>
    exact .of_store (fun _ => rfl) fun _ => State.store_branch _ _ _
  case arrive | foldSetBytes | foldSetArr =>
    exact .of_store (fun _ => rfl) fun _ => State.store_sched _ _ _
  case vaddF | vsubF | vmulF | vmaxF | vminF | vdiv | vaddI | vsubI | vmulI | vmulh | vshl | vshr | vsar | vminI |
      vmaxI =>
    exact .of_store (fun _ => rfl) fun _ => State.store_vec2 _ _ _ _ _ _ _ _
  case vfma | vfmaVw =>
    exact .of_store (fun _ => rfl) fun _ => State.store_vecFma _ _ _ _ _ _
  case vabsF | vnegF | vsqrt | vabsI | vnegI =>
    exact .of_store (fun _ => rfl) fun _ => State.store_vec1 _ _ _ _ _ _ _
  case vand | vor | vxor | vandn =>
    exact .of_store (fun _ => rfl) fun _ => State.store_vecBits _ _ _ _ _ _
  case vsel | vmov | vbcast | vpack | vunpk | vres =>
    exact .of_store (fun _ => rfl) fun _ => State.store_vecLand _ _ _ _
  case vceq | vcne | vclt | vcle | vcun =>
    exact .of_store (fun _ => rfl) fun _ => State.store_vecCmp _ _ _ _ _ _ _
  case mget | vquant =>
    exact .of_store (fun _ => rfl) fun _ => State.store_vecLandAll _ _ _ _ _
  case vevt =>
    exact .of_store (fun _ => rfl) fun _ => State.store_vecLandWide _ _ _
  case vld | vldImm | vldi =>
    exact .of_store (fun _ => rfl) fun _ => State.store_vecLoad _ _ _ _
  case vst | vstImm | vsti =>
    exact .of_store (fun _ => rfl) fun _ => State.store_vecStore _ _ _ _
  case scanAdd | scanMin | scanMax | scanAnd | scanOr | scanXor | scanFirst | scanLast =>
    exact .of_store (fun _ => rfl) fun _ => State.store_scan _ _ _ _ _ _ _
  case scanMini | scanMaxi =>
    exact .of_store (fun _ => rfl) fun _ => State.store_scanArg _ _ _ _ _ _ _ _
  case compress | expand =>
    exact .of_store (fun _ => rfl) fun _ => State.store_scanLand _ _ _ _ _
  case rteSt =>
    exact .of_store (fun _ => rfl) fun _ => State.store_access _ _ _ _ _ _ _
  case cpBb | cpPb | cpBp | cpBo =>
    exact .of_store (fun _ => rfl) fun _ => State.store_copyOp _ _ _ _ _ _ _
  case cpRs | mresume | rcpRs | pbar =>
    exact .of_store (fun _ => rfl) fun _ => State.store_enqueue _ _ _ _ _ _ _ _ _
  case mwld | mmul | mdrn | mdist | mcent | mbest | mcdrn =>
    exact .next (fun _ => rfl) fun _ h => State.canonical_arrayOp _ _ _ _ _ _ _ _ _ h
  case slotClaim | slotRelease | slotShape | slotZero =>
    exact .of_store (fun _ => rfl) fun _ => State.store_slotOp _ _ _ _ _
  case rld | rst | rcpGet | rcpPut | rsig | rsigRel | amoCasFar =>
    exact .next (fun _ => rfl) fun _ h => State.canonical_remoteOp _ _ _ _ _ _ _ _ h
  case amoAddFar | amoAndFar | amoOrFar | amoXorFar | amoMaxFar | amoMinFar | amoFaddFar | amoFmaxFar | amoFminFar |
      amoSaddFar | amoSwapFar =>
    exact .next (fun _ => rfl) fun _ h => State.canonical_remoteAmo _ _ _ _ _ _ _ h
  case mcst | mcstSt =>
    exact .of_store (fun _ => rfl) fun _ => State.store_mcstOp _ _ _ _ _
  case pfx | loopClr | nop | halt | trap =>
    exact .of_store (fun _ => rfl) fun _ => rfl
  case idem =>
    exact .of_store (fun _ => rfl) fun _ => State.store_markIdem _
  case call | callr | idemChk | phase | tokClr | rteSolve =>
    exact .of_store (fun _ => rfl) fun _ => by simp
  case vcvt | vlut =>
    exact .of_store (fun _ => rfl) fun _ => by dsimp only; split <;> simp
  case rdctl | wrctl | loop | loopSw | tfence | eret | icinv | mpush | mpop | vttw | mwin =>
    exact .next (fun _ => rfl) fun _ h => by split <;> simp [h]
  case ctxsw =>
    refine .next (fun _ => rfl) fun _ h => ?_
    dsimp only
    split
    · simp [h]
    · split <;> simp [h]
  case bundleRoute | rteLd =>
    exact .next (fun _ => rfl) fun _ h => by split <;> simp [h]
  case hops =>
    exact .next (fun _ => rfl) fun _ h => State.canonical_unlessAbsent _ _ _ h (State.canonical_of_store (State.store_intLand64 _ _ _) h)
  case bundleIssue => exact execBundleIssue_keepsCanonical
  case quantumExpiry => exact execQuantumExpiry_keepsCanonical
  case tagWaitLimit => exact execTagWaitLimit_keepsCanonical
  case resultLanding => exact execResultLanding_keepsCanonical
  case bankAccessPerform => exact execBankAccessPerform_keepsCanonical
  case farGroupArrival => exact execFarGroupArrival_keepsCanonical
  case waitConditionMet => exact execWaitConditionMet_keepsCanonical
  case heldBundleRelease => exact execHeldBundleRelease_keepsCanonical
  case taskLaunchStart => exact execTaskLaunchStart_keepsCanonical
  case taskEnd => exact execTaskEnd_keepsCanonical
  case spillRefillComplete => exact execSpillRefillComplete_keepsCanonical
  case ctxswComplete => exact execCtxswComplete_keepsCanonical
  case cutBack => exact execCutBack_keepsCanonical
  case cutBackSaveEnd => exact execCutBackSaveEnd_keepsCanonical
  case arrivePerform => exact execArrivePerform_keepsCanonical
  case foldSetPerform => exact execFoldSetPerform_keepsCanonical
  case engineOpStart => exact execEngineOpStart_keepsCanonical
  case engineOpComplete => exact execEngineOpComplete_keepsCanonical
  case engineOpError => exact execEngineOpError_keepsCanonical
  case copyUnitCommit => exact execCopyUnitCommit_keepsCanonical
  case copyTagWaitLimit => exact execCopyTagWaitLimit_keepsCanonical
  case followOnIssue => exact execFollowOnIssue_keepsCanonical
  case translationWalkComplete => exact execTranslationWalkComplete_keepsCanonical
  case migratingLeafRewalk => exact execMigratingLeafRewalk_keepsCanonical
  case mmuResolveRetry => exact execMmuResolveRetry_keepsCanonical
  case mmuResolveFail => exact execMmuResolveFail_keepsCanonical
  case mmuResolveRefuse => exact execMmuResolveRefuse_keepsCanonical
  case mmuInval => exact execMmuInval_keepsCanonical
  case fillBegin => exact execFillBegin_keepsCanonical
  case fillComplete => exact execFillComplete_keepsCanonical
  case refreshWindowOpen => exact execRefreshWindowOpen_keepsCanonical
  case refreshWindowClose => exact execRefreshWindowClose_keepsCanonical
  case stationForcedRefresh => exact execStationForcedRefresh_keepsCanonical
  case fillCalWrite => exact execFillCalWrite_keepsCanonical
  case channelRedeal => exact execChannelRedeal_keepsCanonical
  case ucieFlitCrcFail => exact execUcieFlitCrcFail_keepsCanonical
  case stationParityDiscard => exact execStationParityDiscard_keepsCanonical
  case remoteAccessSend => exact execRemoteAccessSend_keepsCanonical
  case remoteAccessCommit => exact execRemoteAccessCommit_keepsCanonical
  case remoteReplyArrival => exact execRemoteReplyArrival_keepsCanonical
  case retryAfterExpiry => exact execRetryAfterExpiry_keepsCanonical
  case remoteTimeout => exact execRemoteTimeout_keepsCanonical
  case stMigWrite => exact execStMigWrite_keepsCanonical
  case mcstArrival => exact execMcstArrival_keepsCanonical
  case mcstLanding => exact execMcstLanding_keepsCanonical
  case pbarArrivalSend => exact execPbarArrivalSend_keepsCanonical
  case pbarRootCount => exact execPbarRootCount_keepsCanonical
  case pbarRelease => exact execPbarRelease_keepsCanonical
  case pbCtlWrite => exact execPbCtlWrite_keepsCanonical
  case syncRecal => exact execSyncRecal_keepsCanonical
  case syncLock => exact execSyncLock_keepsCanonical
  case serviceChange => exact execServiceChange_keepsCanonical
  case leaderElection => exact execLeaderElection_keepsCanonical
  case qTailWrite => exact execQTailWrite_keepsCanonical
  case launchPacket => exact execLaunchPacket_keepsCanonical
  case copyPacket => exact execCopyPacket_keepsCanonical
  case fencePacket => exact execFencePacket_keepsCanonical
  case fenceReread => exact execFenceReread_keepsCanonical
  case signalPacket => exact execSignalPacket_keepsCanonical
  case markPacket => exact execMarkPacket_keepsCanonical
  case qRheadWrite => exact execQRheadWrite_keepsCanonical
  case qCtlWrite => exact execQCtlWrite_keepsCanonical
  case ctxPreWrite => exact execCtxPreWrite_keepsCanonical
  case winRelWrite => exact execWinRelWrite_keepsCanonical
  case dieReset => exact execDieReset_keepsCanonical
  case svnCommit => exact execSvnCommit_keepsCanonical
  case featureLock => exact execFeatureLock_keepsCanonical
  case attestationRequest => exact execAttestationRequest_keepsCanonical
  case thermalShutdown => exact execThermalShutdown_keepsCanonical
  case stewardBankAccess => exact execStewardBankAccess_keepsCanonical
  case keyDelivery => exact execKeyDelivery_keepsCanonical
  case partitionDissolve => exact execPartitionDissolve_keepsCanonical
  case panelReset => exact execPanelReset_keepsCanonical
  case rejoinDelayExpiry => exact execRejoinDelayExpiry_keepsCanonical
  case incarnationAnnouncement => exact execIncarnationAnnouncement_keepsCanonical
  case flitReceive => exact execFlitReceive_keepsCanonical
  case linkReplay => exact execLinkReplay_keepsCanonical
  case lackIdleFlit => exact execLackIdleFlit_keepsCanonical
  case lnkModeWrite => exact execLnkModeWrite_keepsCanonical
  case modeRequestTimeout => exact execModeRequestTimeout_keepsCanonical
  case slotSend => exact execSlotSend_keepsCanonical
  case slotForward => exact execSlotForward_keepsCanonical
  case slotArrival => exact execSlotArrival_keepsCanonical
  case slotAckArrival => exact execSlotAckArrival_keepsCanonical
  case refusalNoticeArrival => exact execRefusalNoticeArrival_keepsCanonical
  case fabricRetryAfterExpiry => exact execFabricRetryAfterExpiry_keepsCanonical
  case grantArrival => exact execGrantArrival_keepsCanonical
  case drainMarkerArrival => exact execDrainMarkerArrival_keepsCanonical
  case slotResendTimeout => exact execSlotResendTimeout_keepsCanonical
  case slotPortWaitExpiry => exact execSlotPortWaitExpiry_keepsCanonical
  case ringRelockStart => exact execRingRelockStart_keepsCanonical
  case ringRelockEnd => exact execRingRelockEnd_keepsCanonical
  case wavelengthRetire => exact execWavelengthRetire_keepsCanonical
  case setup => exact execSetup_keepsCanonical
  case ack => exact execAck_keepsCanonical
  case nak => exact execNak_keepsCanonical
  case tear => exact execTear_keepsCanonical
  case tearAck => exact execTearAck_keepsCanonical
  case reservationTimeout => exact execReservationTimeout_keepsCanonical
  case setupTimeout => exact execSetupTimeout_keepsCanonical
  case backOffExpiry => exact execBackOffExpiry_keepsCanonical
  case pathLit => exact execPathLit_keepsCanonical
  case lightingTimeout => exact execLightingTimeout_keepsCanonical
  case tearingTimeout => exact execTearingTimeout_keepsCanonical
  case pathSetupRequest => exact execPathSetupRequest_keepsCanonical
  case pathTearRequest => exact execPathTearRequest_keepsCanonical
  case fabHoldSet => exact execFabHoldSet_keepsCanonical
  case fabHoldClear => exact execFabHoldClear_keepsCanonical
  case qpLoad => exact execQpLoad_keepsCanonical
  case qpReset => exact execQpReset_keepsCanonical
  case qpError => exact execQpError_keepsCanonical
  case doorbellWrite => exact execDoorbellWrite_keepsCanonical
  case workEntryServe => exact execWorkEntryServe_keepsCanonical
  case registerWrite => exact execRegisterWrite_keepsCanonical
  case powerThrottle => exact execPowerThrottle_keepsCanonical
  case stewardPanelAccess => exact execStewardPanelAccess_keepsCanonical
  case wavelengthSignalLoss => exact execWavelengthSignalLoss_keepsCanonical

/-- A step with a bundle in progress, of an entry of the agenda, of the ports or of the next cycle. -/
theorem step_keepsCanonical : KeepsCanonical step := by
  intro s t h ht
  unfold step at ht
  split at ht
  · split at ht
    next i _ _ _ =>
      split at ht
      next u hu =>
        rw [← Host.Outcome.next.inj ht]
        exact State.canonical_afterSyllable _ _ _ (exec_keepsCanonical i s u h hu)
      next r hr => exact absurd ht (hr t)
    · rw [← Host.Outcome.next.inj ht]
      exact State.canonical_trapIllegal _ h
  · split at ht
    · rw [← Host.Outcome.next.inj ht]
      exact State.canonical_portStage _ h
    next x k _ => exact exec_keepsCanonical x.act { s.dropDue k with ev := x.arg } t h ht
    · rw [← Host.Outcome.next.inj ht]
      exact State.canonical_tick _ h

/-- Settles O12: what every instruction and every step of the part stores is in canonical form, function by function. -/
theorem stepKeepsWf : Obligations.StepKeepsWf := by
  unfold Obligations.StepKeepsWf
  intro s t h ht
  rw [State.wf_iff_canonical] at h ⊢
  exact step_keepsCanonical s t h ht

end Sys2Proof.Machine
end

