-- ==== Sys2Proof/Proofs/AccessEnds.lean ====
section
/-! PROOFS. What the end of an access changes (R254, R324): the operations and the held streams of dies, the panel, the agenda
and the identities given out, said once. -/

namespace Sys2Proof.Machine

/-- From `s` to `t` accesses have ended: of the dies only operations and held streams have changed, of the rest the panel, the
agenda and the next identity. -/
structure State.EndsAccess (s t : State) : Prop where
  dies : ∀ d : DieId, ∃ q h, t.die d = { s.die d with queues := q, heldStreams := h }
  rest : t = { s with dies := t.dies, panel := t.panel, agenda := t.agenda, fresh := t.fresh }

namespace State.EndsAccess

variable {s t u : State}

theorem refl (s : State) : s.EndsAccess s := ⟨fun _ => ⟨_, _, rfl⟩, rfl⟩

theorem trans (h : s.EndsAccess t) (k : t.EndsAccess u) : s.EndsAccess u := by
  refine ⟨fun d => ?_, ?_⟩
  · obtain ⟨q, v, hv⟩ := h.dies d
    obtain ⟨r, w, hw⟩ := k.dies d
    exact ⟨r, w, by rw [hw, hv]⟩
  · rw [k.rest, h.rest]

/-- Changing the panel, the agenda or the next identity alone. -/
theorem of_frame (hd : t.dies = s.dies)
    (hr : t = { s with dies := t.dies, panel := t.panel, agenda := t.agenda, fresh := t.fresh }) : s.EndsAccess t :=
  ⟨fun d => ⟨(s.die d).queues, (s.die d).heldStreams, by unfold State.die; rw [hd]⟩, hr⟩

/-- A property that each of the two outcomes of a test has. -/
theorem ite {c : Prop} [Decidable c] (h : s.EndsAccess t) (k : s.EndsAccess u) : s.EndsAccess (if c then t else u) := by
  split
  · exact h
  · exact k

theorem modPanel (s : State) (f : Panel → Panel) : s.EndsAccess (s.modPanel f) := of_frame rfl rfl

theorem modQueue (s : State) (q : QueueId) (f : CmdQueue → CmdQueue) : s.EndsAccess (s.modQueue q f) := of_frame rfl rfl

theorem schedOnce (s : State) (due : Nat) (a : Instr) (e : EvArg) : s.EndsAccess (s.schedOnce due a e) := by
  obtain ⟨m, hm, -⟩ := State.schedOnce_eq (s := s) due a e
  rw [hm]
  exact of_frame rfl rfl

theorem modDie (s : State) (d : DieId) (f : Die → Die) (h : ∃ q v, f (s.die d) = { s.die d with queues := q, heldStreams := v }) :
    s.EndsAccess (s.modDie d f) := by
  refine ⟨fun e => ?_, rfl⟩
  rw [State.die_modDie_get]
  split
  case isTrue heq => subst heq; exact h
  case isFalse => exact ⟨_, _, rfl⟩

theorem modOp (s : State) (d : DieId) (q : Fin 19) (id : Nat) (f : Op → Op) : s.EndsAccess (s.modOp d q id f) :=
  modDie s d _ ⟨_, _, rfl⟩

theorem dropAcc (s : State) (id : Nat) : s.EndsAccess (s.dropAcc id) := modPanel s _

theorem modAcc (s : State) (id : Nat) (f : RAcc → RAcc) : s.EndsAccess (s.modAcc id f) := modPanel s _

theorem dropUnsent (s : State) (d : DieId) (op unit : Nat) : s.EndsAccess (s.dropUnsent d op unit) := modPanel s _

theorem newAcc (s : State) (d : DieId) (q : Fin 19) (o : Op) (cls : Fin 16) (unit part : Nat) (k : RKind) (far : Word)
    (len : Nat) (data : List Byte) : s.EndsAccess (s.newAcc d q o cls unit part k far len data) := of_frame rfl rfl

theorem endHold (s : State) (d : DieId) (k : StreamKey) : s.EndsAccess (s.endHold d k) := modDie s d _ ⟨_, _, rfl⟩

theorem freeResends (s : State) (d : DieId) (k : StreamKey) : s.EndsAccess (s.freeResends d k) := (modPanel s _).trans (endHold _ _ _)

theorem releaseStream (s : State) (d : DieId) (k : StreamKey) : s.EndsAccess (s.releaseStream d k) := ite (endHold s d k) (refl s)

/-! ### Accesses of queues, of copies and of remote operations -/

theorem queueAccFails (s : State) (q : QueueId) (a : RAcc) : s.EndsAccess (s.queueAccFails q a) :=
  (((modQueue s q _).trans (modPanel _ _)).trans (modQueue _ q _)).trans (releaseStream _ _ _)

theorem failCopy (s : State) (d : DieId) (o : Op) (unit : Nat) (code : BitVec 8) : s.EndsAccess (s.failCopy d o unit code) :=
  (modOp s d qCopy o.id _).trans (dropUnsent _ _ _ _)

theorem copyDone (s : State) (d : DieId) (id : Nat) : s.EndsAccess (s.copyDone d id) := by
  unfold State.copyDone
  split
  · exact refl s
  · exact ite (refl s) (ite (schedOnce s _ _ _) (ite (schedOnce s _ _ _) (ite (schedOnce s _ _ _) (refl s))))

theorem copyReply (s : State) (d : DieId) (o : Op) (a : RAcc) (code : BitVec 8) : s.EndsAccess (s.copyReply d o a code) := by
  refine (dropAcc s a.id).trans (trans ?_ (copyDone _ _ _))
  refine ite (failCopy _ _ _ _ _) ?_
  split
  · exact refl _
  · exact ite ((modOp _ _ _ _ _).trans (schedOnce _ _ _ _)) (modOp _ _ _ _ _)

theorem remoteDone (s : State) (d : DieId) (id : Nat) : s.EndsAccess (s.remoteDone d id) := by
  unfold State.remoteDone
  split
  · exact refl s
  · exact ite (refl s) (ite (schedOnce s _ _ _) (ite (schedOnce s _ _ _) (ite (refl s) (schedOnce s _ _ _))))

theorem remoteAccFails (s : State) (a : RAcc) (code : BitVec 8) : s.EndsAccess (s.remoteAccFails a code) :=
  ((((dropAcc s a.id).trans (modOp _ _ _ _ _)).trans (dropUnsent _ _ _ _)).trans (releaseStream _ _ _)).trans (remoteDone _ _ _)

/-! ### Far fetches of arrays -/

theorem opFails (s : State) (d : DieId) (q : Fin 19) (id : Nat) (code : BitVec 8) : s.EndsAccess (s.opFails d q id code) :=
  schedOnce s _ _ _

theorem runArray (s : State) (d : DieId) (q : Fin 19) (o : Op) : s.EndsAccess (s.runArray d q o) :=
  ite ((modOp s d q o.id _).trans (opFails _ _ _ _ _)) ((modOp s d q o.id _).trans (schedOnce _ _ _ _))

theorem fetchFrom (d : DieId) (q : Fin 19) (len n : Nat) : ∀ (s : State) (o : Op), s.EndsAccess (s.fetchFrom d q o len n) := by
  induction n with
  | zero => exact fun s _ => refl s
  | succ n ih =>
    intro s o
    unfold State.fetchFrom
    split
    · exact refl s
    · refine ite (refl s) (trans ?_ (ih _ _))
      refine trans ?_ (modOp _ d q _ _)
      split
      · exact (newAcc s _ _ _ _ _ _ _ _ _ _).trans (modAcc _ _ _)
      · exact newAcc s _ _ _ _ _ _ _ _ _ _

theorem fetchNext (s : State) (d : DieId) (q : Fin 19) (id : Nat) : s.EndsAccess (s.fetchNext d q id) := by
  unfold State.fetchNext
  split
  · exact refl s
  · exact ite (refl s) (ite (opFails s _ _ _ _)
      (ite ((modOp s d q id _).trans (fetchFrom _ _ _ _ _ _)) ((modOp s d q id _).trans (runArray _ _ _ _))))

theorem fetchFails (s : State) (a : RAcc) (code : BitVec 8) : s.EndsAccess (s.fetchFails a code) := by
  unfold State.fetchFails
  dsimp only
  split
  · exact dropAcc s _
  · exact ite (((modOp s _ _ _ _).trans (dropAcc _ _)).trans (fetchNext _ _ _ _))
      ((((modOp s _ _ _ _).trans (dropAcc _ _)).trans (dropUnsent _ _ _ _)).trans (fetchNext _ _ _ _))

/-! ### Any access -/

theorem accFails (s : State) (a : RAcc) (code : BitVec 8) : s.EndsAccess (s.accFails State.fetchFails a code) := by
  unfold State.accFails
  have h := ite (c := (a.st == .resend) = true) (freeResends s a.src a.stream) (refl s)
  generalize (if (a.st == .resend) = true then s.freeResends a.src a.stream else s) = t at h ⊢
  refine h.trans ?_
  dsimp only
  split
  · exact queueAccFails _ _ _
  · refine ite ?_ (ite (remoteAccFails _ _ _) ((fetchFails _ _ _).trans (releaseStream _ _ _)))
    split
    · exact (copyReply _ _ _ _ _).trans (releaseStream _ _ _)
    · exact dropAcc _ _

theorem failAcc (s : State) (code : BitVec 8) (a : Option RAcc) : s.EndsAccess (s.failAcc code a) := by
  cases a with
  | none => exact refl s
  | some a => exact accFails s a code

end State.EndsAccess

end Sys2Proof.Machine
end

