-- ==== Sys2Proof/Proofs/OneDie.lean ====
section
/-! PROOFS. Steps that change one die: what such a step leaves, and the steps of translation as such changes (R308 to R310). -/

namespace Sys2Proof.Machine

/-! ### A change of one die -/

/-- From `s` to `t` of the dies and of panel memory nothing has changed but die `d`, which is now `y`. -/
structure State.TurnsDie (s t : State) (d : DieId) (y : Die) : Prop where
  dies : t.dies = (s.setDie d y).dies
  mem : t.mem = s.mem

/-- A step of die `d` that changes no byte and no other die. -/
def State.QuietAt (s t : State) (d : DieId) : Prop := s.SameBytes t ∧ ∀ e, e ≠ d → t.die e = s.die e

namespace State.TurnsDie

variable {s t u : State} {d : DieId} {y : Die}

theorem setDie (s : State) (d : DieId) (y : Die) : s.TurnsDie (s.setDie d y) d y := ⟨rfl, rfl⟩

theorem refl (s : State) (d : DieId) : s.TurnsDie s d (s.die d) := ⟨(vset_self _ _).symm, rfl⟩

theorem die (h : s.TurnsDie t d y) : t.die d = y := (congrArg (fun v : Vector Die 128 => v[d]) h.dies).trans (State.die_setDie s d y)

theorem die_other (h : s.TurnsDie t d y) {e : DieId} (he : e ≠ d) : t.die e = s.die e :=
  (congrArg (fun v : Vector Die 128 => v[e]) h.dies).trans (s.die_setDie_other y he.symm)

theorem store (h : s.TurnsDie t d y) (hy : y.store = (s.die d).store) : t.store = s.store :=
  (State.store_of h.mem h.dies : t.store = (s.setDie d y).store).trans (State.store_setDie hy)

theorem quiet (h : s.TurnsDie t d y) (hy : y.store = (s.die d).store) : s.QuietAt t d :=
  ⟨State.sameBytes_of_store (h.store hy), fun _ he => h.die_other he⟩

/-- A further change of the same die. -/
theorem modDie (h : s.TurnsDie t d y) (f : Die → Die) : s.TurnsDie (t.modDie d f) d (f y) := by
  refine ⟨?_, h.mem⟩
  change vset t.dies d (f (t.die d)) = vset s.dies d (f y)
  rw [h.die, show t.dies = vset s.dies d y from h.dies, vset_vset]

/-- What follows may change anything else. -/
theorem of_dies (h : s.TurnsDie t d y) (hd : u.dies = t.dies) (hm : u.mem = t.mem) : s.TurnsDie u d y :=
  ⟨hd.trans h.dies, hm.trans h.mem⟩

theorem ite {c : Prop} [Decidable c] {z : Die} (h : s.TurnsDie t d y) (k : s.TurnsDie u d z) :
    s.TurnsDie (if c then t else u) d (if c then y else z) := by
  split
  · exact h
  · exact k

theorem takeFree (h : s.TurnsDie t d y) : s.TurnsDie t.takeFree d y := h.of_dies rfl rfl

theorem of_ite {c : Prop} [Decidable c] (h : s.TurnsDie t d y) (k : s.TurnsDie u d y) : s.TurnsDie (if c then t else u) d y := by
  split
  · exact h
  · exact k

theorem schedOnce (h : s.TurnsDie t d y) (due : Nat) (a : Instr) (e : EvArg) : s.TurnsDie (t.schedOnce due a e) d y := by
  obtain ⟨m, hm, -⟩ := State.schedOnce_eq (s := t) due a e
  rw [hm]
  exact h.of_dies rfl rfl

theorem dropWalk (h : s.TurnsDie t d y) (id : Nat) :
    s.TurnsDie (t.dropWalk d id) d { y with walks := y.walks.filter fun w => w.id != id } := by
  refine (h.modDie fun x => { x with walks := x.walks.filter fun w => w.id != id }).of_dies ?_ ?_
  all_goals
    unfold State.dropWalk
    dsimp only
    split <;> rfl

theorem startWalk (h : s.TurnsDie t d y) (root va : Word) (perm : Perm) (who : Requester) :
    s.TurnsDie (t.startWalk d root va perm who) d
      { y with walks := y.walks ++ [{ id := t.fresh, root := root, va := va, perm := perm, who := who }] } := by
  refine (h.modDie fun x => { x with walks := x.walks ++
    [{ id := t.fresh, root := root, va := va, perm := perm, who := who }] }).of_dies ?_ ?_
  all_goals
    unfold State.startWalk
    dsimp only
    split <;> rfl

theorem modCtx (h : s.TurnsDie t d y) (c : CtxId) (f : Ctx → Ctx) : s.TurnsDie (t.modCtx d c f) d (y.modCtx c f) := h.modDie _

theorem recordStop (h : s.TurnsDie t d y) (who : Requester) (st : Nat) :
    ∃ cs, s.TurnsDie (t.recordStop d who st) d { y with ctxs := cs } := by
  unfold State.recordStop
  split
  · exact ⟨_, h.modCtx _ _⟩
  · exact ⟨y.ctxs, h⟩

theorem faultHolds (h : s.TurnsDie t d y) (who : Requester) :
    ∃ cs m, s.TurnsDie (t.faultHolds d who) d { y with ctxs := cs, mem := m } := by
  unfold State.faultHolds
  split
  · exact ⟨y.ctxs, _, h.modDie Die.countSlip⟩
  · obtain ⟨cs, hc⟩ := h.recordStop who 3
    exact ⟨cs, y.mem, hc⟩

end State.TurnsDie

section
variable {s t : State}

/-! ### The end of a walk -/

/-- The walk that a step ends, if it is still under way. -/
theorem State.walkEnds_of {d : DieId} {id : Nat} {w : Walk} (hw : ((s.die d).walks.find? fun w => w.id == id) = some w) :
    s.walkEnds d id = match walkTable s w.root w.va w.perm with
      | .ok e => ((s.modDie d fun x => x.cache e s.freeCtr).takeFree).dropWalk d id
      | .migrating => s.sched (s.cycle + max 1 (s.die d).mem.retry.toNat) .migratingLeafRewalk { die := d, id := id }
      | .badEcc => (s.dropWalk d id).requesterEnds d w.who w.va 6
      | .fault k level =>
        let s := s.dropWalk d id
        if k == .noMemory && s.resends d w.who then s.requesterEnds d w.who w.va 2
        else
          (s.modDie d fun x => { x with faults := x.faults ++ [{ walk := w, kind := k, level := level }] }).faultHolds d w.who := by
  unfold State.walkEnds
  rw [hw] <;> rfl

theorem Die.mem_cache (x : Die) (e : Xlat) (free : Nat) : e ∈ (x.cache e free).xlat := by
  unfold Die.cache
  simp

theorem State.resends_dropWalk (s : State) (d : DieId) (id : Nat) (who : Requester) :
    (s.dropWalk d id).resends d who = s.resends d who := by
  have h : (s.dropWalk d id).panel = s.panel := by
    unfold State.dropWalk
    dsimp only
    split <;> rfl
  unfold State.resends
  rw [h]

/-- The requester of a resent access is an access, which ends alone (R324). -/
theorem State.requesterEnds_resends {d : DieId} {who : Requester} (h : s.resends d who = true) (t : State) (va : Word) (code : BitVec 8) :
    t.EndsAccess (t.requesterEnds d who va code) := by
  obtain ⟨a, -, ha⟩ := List.any_eq_true.mp h
  simp only [Bool.and_eq_true, beq_iff_eq] at ha
  obtain ⟨-, rfl⟩ := ha
  unfold RAcc.who
  split
  · exact .ite (.refl t) (.failAcc t _ _)
  · split
    · exact .failAcc t _ _
    · split
      · exact .failAcc t _ _
      · exact .failAcc t _ _

theorem State.EndsAccess.faults (h : s.EndsAccess t) (d : DieId) : (t.die d).faults = (s.die d).faults := by
  obtain ⟨q, v, hd⟩ := h.dies d
  rw [hd]

theorem State.exec_walkEnds {i : Instr} (hi : i ∈ [Instr.translationWalkComplete, .migratingLeafRewalk]) :
    exec i s = .next (s.walkEnds s.ev.die s.ev.id) := by
  simp only [List.mem_cons, List.not_mem_nil, or_false] at hi
  obtain rfl | rfl := hi
  · rfl
  · rfl

variable {d : DieId} {id : Nat} {w : Walk}

theorem State.walkEnds_ok (hw : ((s.die d).walks.find? fun w => w.id == id) = some w) {e : Xlat}
    (he : walkTable s w.root w.va w.perm = .ok e) : s.QuietAt (s.walkEnds d id) d ∧ e ∈ ((s.walkEnds d id).die d).xlat
    ∧ ((s.walkEnds d id).die d).walks = (s.die d).walks.filter (fun k => k.id != id)
    ∧ ((s.walkEnds d id).die d).faults = (s.die d).faults := by
  rw [State.walkEnds_of hw, he]
  have h := (((TurnsDie.refl s d).modDie fun x => x.cache e s.freeCtr).of_dies (u := (s.modDie d fun x => x.cache e s.freeCtr).takeFree)
    rfl rfl).dropWalk id
  refine ⟨h.quiet ?_, ?_, ?_, ?_⟩
  · exact Die.store_with (h := rfl) ..
  · rw [h.die]
    exact Die.mem_cache _ _ _
  · rw [h.die]
    rfl
  · rw [h.die]
    rfl

theorem State.walkEnds_fault (hw : ((s.die d).walks.find? fun w => w.id == id) = some w) {k : FaultKind} {l : Nat}
    (hk : walkTable s w.root w.va w.perm = .fault k l) (hr : ¬(k = .noMemory ∧ s.resends d w.who = true)) :
    s.QuietAt (s.walkEnds d id) d ∧ ((s.walkEnds d id).die d).xlat = (s.die d).xlat
    ∧ ((s.walkEnds d id).die d).faults = (s.die d).faults ++ [{ walk := w, kind := k, level := l }]
    ∧ ((s.walkEnds d id).die d).walks = (s.die d).walks.filter (fun k => k.id != id) := by
  rw [State.walkEnds_of hw, hk]
  dsimp only
  rw [State.resends_dropWalk, if_neg (by simpa using hr)]
  obtain ⟨cs, m, h⟩ := (((TurnsDie.refl s d).dropWalk id).modDie fun x =>
    { x with faults := x.faults ++ [{ walk := w, kind := k, level := l }] }).faultHolds w.who
  refine ⟨h.quiet ?_, ?_, ?_, ?_⟩
  · exact Die.store_with (h := rfl) ..
  all_goals rw [h.die]

theorem State.walkEnds_resends (hw : ((s.die d).walks.find? fun w => w.id == id) = some w) {l : Nat}
    (hk : walkTable s w.root w.va w.perm = .fault .noMemory l) (hr : s.resends d w.who = true) :
    ((s.walkEnds d id).die d).faults = (s.die d).faults := by
  rw [State.walkEnds_of hw, hk]
  dsimp only
  rw [State.resends_dropWalk, if_pos (by simpa using hr), (State.requesterEnds_resends hr _ _ _).faults, ((TurnsDie.refl s d).dropWalk id).die]

theorem State.walkEnds_badEcc (hw : ((s.die d).walks.find? fun w => w.id == id) = some w)
    (hk : walkTable s w.root w.va w.perm = .badEcc) {n : CtxId} (hn : w.who = .regSpace n) :
    s.QuietAt (s.walkEnds d id) d ∧ ((s.walkEnds d id).ctx d n).rsFault = true
    ∧ ((s.walkEnds d id).die d).walks = (s.die d).walks.filter (fun k => k.id != id)
    ∧ ((s.walkEnds d id).die d).faults = (s.die d).faults := by
  have he : s.walkEnds d id = (s.dropWalk d id).modCtx d n fun x => { x with rsFault := true } := by
    rw [State.walkEnds_of hw, hk, hn]
    rfl
  rw [he]
  have h := ((TurnsDie.refl s d).dropWalk id).modCtx n fun x => { x with rsFault := true }
  refine ⟨h.quiet ?_, ?_, ?_, ?_⟩
  · exact Die.store_with (h := rfl) ..
  · exact congrArg Ctx.rsFault (State.ctx_modCtx _ d n _)
  · rw [h.die]
    rfl
  · rw [h.die]
    rfl

/-! ### The runtime's answers to fault records -/

theorem Die.popFault_cons {x : Die} {f : FaultRec} {l : List FaultRec} (h : x.faults = f :: l) : x.popFault = { x with faults := l } := by
  unfold Die.popFault
  rw [h]
  rfl

variable {f : FaultRec} {l : List FaultRec}

theorem State.exec_mmuResolveRetry (hf : (s.die s.ev.die).faults = f :: l) (hg : ∀ c n, f.walk.who ≠ .gone c n)
    (hk : ∀ k, f.walk.who ≠ .fabric k) (ha : ∀ q n, f.walk.who ≠ .array q n) :
    ∃ t, exec .mmuResolveRetry s = .next t ∧ s.QuietAt t s.ev.die ∧ (t.die s.ev.die).faults = l
      ∧ ∃ w, (t.die s.ev.die).walks = (s.die s.ev.die).walks ++ [w] ∧ w.who = f.walk.who ∧ w.va = f.walk.va
        ∧ w.perm = f.walk.perm := by
  have he : exec .mmuResolveRetry s = .next (((s.modDie s.ev.die Die.popFault).startWalk s.ev.die
      ((s.modDie s.ev.die Die.popFault).rootOf s.ev.die f.walk) f.walk.va f.walk.perm f.walk.who).recordStop s.ev.die f.walk.who 2) := by
    change Host.Outcome.next _ = _
    rw [hf]
    dsimp only
    split
    case h_1 hw => exact absurd hw (hg _ _)
    case h_2 hw => exact absurd hw (hk _)
    case h_3 hw => exact absurd hw (ha _ _)
    case h_4 => rfl
  have h := (TurnsDie.refl s s.ev.die).modDie Die.popFault
  rw [Die.popFault_cons hf] at h
  obtain ⟨cs, h⟩ := (h.startWalk ((s.modDie s.ev.die Die.popFault).rootOf s.ev.die f.walk) f.walk.va f.walk.perm f.walk.who).recordStop f.walk.who 2
  refine ⟨_, he, h.quiet ?_, ?_, _, (congrArg Die.walks h.die).trans rfl, rfl, rfl, rfl⟩
  · exact Die.store_with (h := rfl) ..
  · rw [h.die]

theorem State.exec_mmuResolve (hf : (s.die s.ev.die).faults = f :: l) {i : Instr} {code : BitVec 8}
    (hi : (i = Instr.mmuResolveFail ∧ code = 2) ∨ (i = .mmuResolveRefuse ∧ code = 3)) :
    exec i s = .next ((s.setDie s.ev.die { s.die s.ev.die with faults := l }).requesterEnds s.ev.die f.walk.who f.walk.va code) := by
  have he : s.faultEnds s.ev.die code
      = (s.setDie s.ev.die { s.die s.ev.die with faults := l }).requesterEnds s.ev.die f.walk.who f.walk.va code := by
    unfold State.faultEnds
    rw [hf]
    change (s.setDie s.ev.die (s.die s.ev.die).popFault).requesterEnds s.ev.die f.walk.who f.walk.va code = _
    rw [Die.popFault_cons hf]
  rw [← he]
  obtain ⟨rfl, rfl⟩ | ⟨rfl, rfl⟩ := hi
  · rfl
  · rfl

theorem State.failFill_of {g : Nat} (h : ∃ f ∈ (s.die d).fills, f.id = g) : s.failFill d g = s.setDie d { s.die d with
    fills := (s.die d).fills.filter fun f => f.id != g
    mem := { (s.die d).mem with fillErrors := satInc (s.die d).mem.fillErrors } } := by
  have hg : ((s.die d).fills.any fun f => f.id == g) = true := by
    obtain ⟨f, hf, hg⟩ := h
    exact List.any_eq_true.mpr ⟨f, hf, beq_iff_eq.mpr hg⟩
  exact congrArg (s.setDie d) (if_pos hg)

theorem State.mmuResolve_answers (hf : (s.die s.ev.die).faults = f :: l) {i : Instr} {code : BitVec 8}
    (hi : (i = Instr.mmuResolveFail ∧ code = 2) ∨ (i = .mmuResolveRefuse ∧ code = 3)) :
    (∀ n, f.walk.who = .regSpace n → exec i s = .next (s.setDie s.ev.die ({ s.die s.ev.die with faults := l }.setCtx n
        { (s.die s.ev.die).ctx n with rsFault := true })))
    ∧ (∀ c n, f.walk.who = .gone c n → exec i s = .next (s.setDie s.ev.die { s.die s.ev.die with faults := l }))
    ∧ (∀ k, f.walk.who = .fabric k → ∃ t, exec i s = .next t ∧ s.QuietAt t s.ev.die ∧ (t.die s.ev.die).faults = l
      ∧ (k, code) ∈ t.fabric.failed)
    ∧ (∀ g, f.walk.who = .fill g → (∃ h ∈ (s.die s.ev.die).fills, h.id = g) → exec i s = .next (s.setDie s.ev.die
        { s.die s.ev.die with
            faults := l, fills := (s.die s.ev.die).fills.filter fun h => h.id != g
            mem := { (s.die s.ev.die).mem with fillErrors := satInc (s.die s.ev.die).mem.fillErrors } })) := by
  rw [State.exec_mmuResolve hf hi]
  refine ⟨fun n hw => ?_, fun c n hw => ?_, fun k hw => ?_, fun g hw hg => ?_⟩
  · rw [hw]
    change Host.Outcome.next ((s.setDie _ _).modCtx s.ev.die n _) = _
    unfold State.modCtx State.modDie
    rw [State.setDie_setDie, State.die_setDie]
    rfl
  · rw [hw]
    rfl
  · refine ⟨_, rfl, ?_⟩
    rw [hw]
    have h := (TurnsDie.setDie s s.ev.die { s.die s.ev.die with faults := l }).of_dies
      (u := (s.setDie s.ev.die { s.die s.ev.die with faults := l }).requesterEnds s.ev.die (.fabric k) f.walk.va code) rfl rfl
    exact ⟨h.quiet (Die.store_with (h := rfl) ..), congrArg Die.faults h.die, mem_addNew_self _ _⟩
  · rw [hw]
    change Host.Outcome.next ((s.setDie _ _).failFill s.ev.die g) = _
    rw [State.failFill_of (by rw [State.die_setDie]; exact hg), State.setDie_setDie, State.die_setDie]

/-! ### Invalidation -/

theorem State.exec_mmuInval (s : State) : exec .mmuInval s = .next (s.setDie s.ev.die { s.die s.ev.die with
    xlat := if s.ev.val.getLsbD 63 then [] else (s.die s.ev.die).xlat.filter fun e =>
      e.page != 65536 * (s.ev.val.extractLsb' 16 32).toNat / 2 ^ levelShift e.level }) := by
  have hv : field (bits s.ev.val 16 32) 16 32 = 65536 * (s.ev.val.extractLsb' 16 32).toNat := by
    rw [bits_eq]
    unfold field
    rw [Nat.mod_eq_of_lt (BitVec.isLt _), Nat.mul_comm, show 2 ^ 16 = 65536 from rfl]
  rw [← hv, ← bitAt_eq]
  rfl

theorem mem_inval (b : Bool) (l : List Xlat) (p : Xlat → Bool) (e : Xlat) :
    e ∈ (if b then [] else l.filter p) ↔ e ∈ l ∧ b = false ∧ p e = true := by
  cases b <;> simp

end

end Sys2Proof.Machine
end

