-- ==== Sys2Proof/Proofs/Fills.lean ====
section
/-! PROOFS. The fill engine of a die (R301 to R305): its calendar, refresh windows and completions, the channels that a stack
deals, and errors of the links. -/

namespace Sys2Proof.Machine

section
variable {s t : State}

/-! ### Calendar entries -/

theorem Die.readEntries_eq (x : Die) (k : Nat) : ∃ b c, x.readEntries k = { x with bankBad := b, stat := c } := by
  unfold Die.readEntries Die.eccRead
  split
  · exact ⟨x.bankBad, x.stat, rfl⟩
  · exact ⟨_, _, rfl⟩

/-- The die after the fill engine has read its entries up to entry k, and gone past it. -/
theorem State.readEntries_turns (s : State) (d : DieId) (k : Nat) : ∃ b c, s.TurnsDie
    (s.modDie d fun x => { x.readEntries k with nextFill := k + 1, fillAfter := s.cycle + 1 }) d
    { s.die d with bankBad := b, stat := c, nextFill := k + 1, fillAfter := s.cycle + 1 } := by
  obtain ⟨b, c, h⟩ := (s.die d).readEntries_eq k
  refine ⟨b, c, ?_⟩
  have ht := (TurnsDie.refl s d).modDie fun x => { x.readEntries k with nextFill := k + 1, fillAfter := s.cycle + 1 }
  rw [h] at ht
  exact ht

theorem State.fillBegin_bad (h : (s.die s.ev.die).entryBad s.ev.id = true) : ∃ t, exec .fillBegin s = .next t
    ∧ s.QuietAt t s.ev.die ∧ (t.die s.ev.die).fills = (s.die s.ev.die).fills
    ∧ (t.die s.ev.die).mem.fillErrors = satInc (s.die s.ev.die).mem.fillErrors ∧ (t.die s.ev.die).nextFill = s.ev.id + 1 := by
  obtain ⟨b, c, ht⟩ := s.readEntries_turns s.ev.die s.ev.id
  replace ht := ht.modDie Die.countFillError
  refine ⟨_, congrArg Host.Outcome.next (if_pos h), ht.quiet (Die.store_with (h := rfl) ..), ?_, ?_, ?_⟩
  all_goals
    rw [ht.die]
    rfl

/-- The die once a legible entry has begun, late or not. -/
theorem State.TurnsDie.slips {d : DieId} {y : Die} (h : s.TurnsDie t d y) (late : Prop) [Decidable late] :
    s.TurnsDie (if late then t.modDie d Die.countSlip else t) d
      { y with mem := { y.mem with slips := if late then satInc y.mem.slips else y.mem.slips } } := by
  split
  · exact h.modDie Die.countSlip
  · exact h

/-- What a legible entry does, once it has begun: a fill comes of it, or an error where its source is no panel address. -/
theorem State.fillBegin_good (h : (s.die s.ev.die).entryBad s.ev.id = false) :
    let c := (s.die s.ev.die).calEntry s.ev.id
    ∃ u bad stat, s.TurnsDie u s.ev.die { s.die s.ev.die with
        bankBad := bad, stat := stat, nextFill := s.ev.id + 1, fillAfter := s.cycle + 1
        mem := { (s.die s.ev.die).mem with
          slips := if (s.die s.ev.die).entryStart c < s.cycle then satInc (s.die s.ev.die).mem.slips else (s.die s.ev.die).mem.slips } }
      ∧ exec .fillBegin s = .next (
        if farKind c.src != some .panel then u.modDie s.ev.die Die.countFillError
        else
          let f : Fill := { id := s.fresh, src := c.src, dst := c.dst, len := c.len, stamp := c.stamp, pages := pageParts c.src c.len }
          let v := u.modDie s.ev.die fun x => { x with fills := x.fills ++ [f] }
          if c.len = 0 then v.schedOnce v.cycle .fillComplete { die := s.ev.die, id := s.fresh } else v) := by
  intro c
  obtain ⟨bad, stat, ht⟩ := s.readEntries_turns s.ev.die s.ev.id
  refine ⟨_, bad, stat, (ht.slips ((s.die s.ev.die).entryStart c < s.cycle)).of_dies (u := (if (s.die s.ev.die).entryStart c < s.cycle
    then (s.modDie s.ev.die fun x => { x.readEntries s.ev.id with nextFill := s.ev.id + 1, fillAfter := s.cycle + 1 }).modDie
      s.ev.die Die.countSlip
    else s.modDie s.ev.die fun x => { x.readEntries s.ev.id with nextFill := s.ev.id + 1, fillAfter := s.cycle + 1 }).takeFresh)
    rfl rfl, ?_⟩
  exact congrArg Host.Outcome.next (if_neg (ne_true_of_eq_false h))

theorem State.fillBegin_panel (h : (s.die s.ev.die).entryBad s.ev.id = false)
    (hp : farKind ((s.die s.ev.die).calEntry s.ev.id).src = some .panel) :
    ∃ t f, exec .fillBegin s = .next t ∧ s.QuietAt t s.ev.die
      ∧ (t.die s.ev.die).fills = (s.die s.ev.die).fills ++ [f] ∧ f.src = ((s.die s.ev.die).calEntry s.ev.id).src
      ∧ f.dst = ((s.die s.ev.die).calEntry s.ev.id).dst ∧ f.len = ((s.die s.ev.die).calEntry s.ev.id).len
      ∧ f.stamp = ((s.die s.ev.die).calEntry s.ev.id).stamp ∧ f.ready = false ∧ (t.die s.ev.die).nextFill = s.ev.id + 1
      ∧ (t.die s.ev.die).mem.slips = if decide ((s.die s.ev.die).entryStart ((s.die s.ev.die).calEntry s.ev.id) < s.cycle)
          then satInc (s.die s.ev.die).mem.slips else (s.die s.ev.die).mem.slips := by
  obtain ⟨u, bad, stat, hu, he⟩ := State.fillBegin_good h
  rw [if_neg (by rw [hp]; decide)] at he
  generalize hf : ({ id := s.fresh, src := ((s.die s.ev.die).calEntry s.ev.id).src, dst := ((s.die s.ev.die).calEntry s.ev.id).dst
                     len := ((s.die s.ev.die).calEntry s.ev.id).len, stamp := ((s.die s.ev.die).calEntry s.ev.id).stamp
                     pages := pageParts ((s.die s.ev.die).calEntry s.ev.id).src ((s.die s.ev.die).calEntry s.ev.id).len } : Fill) = f
    at he
  have hv := hu.modDie fun x => { x with fills := x.fills ++ [f] }
  have ht : s.TurnsDie _ s.ev.die _ := State.TurnsDie.of_ite (c := ((s.die s.ev.die).calEntry s.ev.id).len = 0)
    (hv.schedOnce u.cycle .fillComplete { die := s.ev.die, id := s.fresh }) hv
  have hd := ht.die
  subst hf
  exact ⟨_, _, he, ht.quiet (Die.store_with (h := rfl) ..), (congrArg Die.fills hd).trans rfl, rfl, rfl, rfl, rfl, rfl,
    (congrArg Die.nextFill hd).trans rfl, (congrArg (fun x => x.mem.slips) hd).trans (by simp only [decide_eq_true_eq])⟩

theorem State.fillBegin_other (h : (s.die s.ev.die).entryBad s.ev.id = false)
    (hp : farKind ((s.die s.ev.die).calEntry s.ev.id).src ≠ some .panel) :
    ∃ t, exec .fillBegin s = .next t ∧ s.QuietAt t s.ev.die ∧ (t.die s.ev.die).fills = (s.die s.ev.die).fills
      ∧ (t.die s.ev.die).mem.fillErrors = satInc (s.die s.ev.die).mem.fillErrors ∧ (t.die s.ev.die).nextFill = s.ev.id + 1 := by
  obtain ⟨u, bad, stat, hu, he⟩ := State.fillBegin_good h
  rw [if_pos (by simpa using hp)] at he
  replace hu := hu.modDie Die.countFillError
  refine ⟨_, he, hu.quiet (Die.store_with (h := rfl) ..), ?_⟩
  rw [hu.die]
  exact ⟨rfl, rfl, rfl⟩

/-! ### Refresh windows -/

/-- The channels of the listed stacks that are assigned to a die are refreshed. -/
def State.refreshAll (s : State) (d : DieId) (l : List StackId) : State :=
  l.foldl (fun s i =>
    let l := s.channelsFor d i
    s.modStation i fun t => { t with lastRefresh := Vector.ofFn fun c => if l.contains c then s.cycle else t.lastRefresh[c] }) s

/-- From `s` to `t` stations have had channels refreshed in this cycle, and nothing else has changed. -/
structure State.Refreshes (s t : State) : Prop where
  rest : t = { s with stations := t.stations }
  chan : ∀ i, (t.station i).chan = (s.station i).chan
  kept : ∀ i (c : Fin 32), (s.station i).lastRefresh[c] = s.cycle → (t.station i).lastRefresh[c] = s.cycle

theorem State.Refreshes.refl (s : State) : s.Refreshes s := ⟨rfl, fun _ => rfl, fun _ _ h => h⟩

theorem State.Refreshes.cycle (h : s.Refreshes t) : t.cycle = s.cycle := by rw [h.rest]

theorem State.Refreshes.trans {u : State} (h : s.Refreshes t) (k : t.Refreshes u) : s.Refreshes u := by
  refine ⟨?_, fun i => (k.chan i).trans (h.chan i), fun i c hc => ?_⟩
  · rw [k.rest, h.rest]
  · rw [← h.cycle]
    exact k.kept i c ((h.kept i c hc).trans h.cycle.symm)

theorem State.Refreshes.channelsFor (h : s.Refreshes t) (d : DieId) (i : StackId) : t.channelsFor d i = s.channelsFor d i := by
  have hl : ∀ k, t.linkStack d k = s.linkStack d k := fun k => by rw [h.rest]; rfl
  unfold State.channelsFor
  simp only [hl, h.chan]

theorem State.refreshStation (s : State) (d : DieId) (i : StackId) :
    let t := s.modStation i fun t => { t with
      lastRefresh := Vector.ofFn fun c => if (s.channelsFor d i).contains c then s.cycle else t.lastRefresh[c] }
    s.Refreshes t ∧ ∀ c ∈ s.channelsFor d i, (t.station i).lastRefresh[c] = s.cycle := by
  intro t
  have hi : t.station i = { s.station i with
      lastRefresh := Vector.ofFn fun c => if (s.channelsFor d i).contains c then s.cycle else (s.station i).lastRefresh[c] } :=
    s.station_modStation i _
  have ho : ∀ j, j ≠ i → t.station j = s.station j := fun j hj => vset_other _ _ hj.symm
  refine ⟨⟨rfl, fun j => ?_, fun j c hc => ?_⟩, fun c hc => ?_⟩
  · by_cases hj : j = i
    · subst hj; rw [hi]
    · rw [ho j hj]
  · by_cases hj : j = i
    · subst hj
      rw [hi]
      simpa using fun _ => hc
    · rw [ho j hj]
      exact hc
  · rw [hi]
    simp [hc]

theorem State.refreshAll_spec (d : DieId) (l : List StackId) : ∀ s : State, s.Refreshes (s.refreshAll d l)
    ∧ ∀ i ∈ l, ∀ c ∈ s.channelsFor d i, ((s.refreshAll d l).station i).lastRefresh[c] = s.cycle := by
  induction l with
  | nil => exact fun s => ⟨.refl s, fun _ h => absurd h List.not_mem_nil⟩
  | cons j l ih =>
    intro s
    obtain ⟨hj, hc⟩ := s.refreshStation d j
    obtain ⟨hl, hr⟩ := ih (s.modStation j fun t => { t with
      lastRefresh := Vector.ofFn fun c => if (s.channelsFor d j).contains c then s.cycle else t.lastRefresh[c] })
    refine ⟨hj.trans hl, fun i hi c hm => ?_⟩
    obtain rfl | hi := List.mem_cons.mp hi
    · exact hl.kept i c (hc c hm)
    · exact hr i hi c (by rw [hj.channelsFor]; exact hm)

theorem State.refreshWindowOpen_due {close : Nat}
    (hc : close = (s.die s.ev.die).entryStart ((s.die s.ev.die).calEntry s.ev.id) + ((s.die s.ev.die).calEntry s.ev.id).len)
    (h : s.cycle < close) : ∃ t, exec .refreshWindowOpen s = .next t ∧ s.QuietAt t s.ev.die
      ∧ (t.die s.ev.die).refreshOpen = (s.die s.ev.die).refreshOpen ++ [close] ∧ (t.die s.ev.die).nextFill = s.ev.id + 1
      ∧ (∀ i ∈ s.stacksOf s.ev.die, ∀ c ∈ s.channelsFor s.ev.die i, (t.station i).lastRefresh[c] = s.cycle)
      ∧ { due := close, act := .refreshWindowClose, arg := { die := s.ev.die, seq := close } } ∈ t.agenda := by
  obtain ⟨bad, stat, ht⟩ := s.readEntries_turns s.ev.die s.ev.id
  generalize hr : (s.modDie s.ev.die fun x => { x.readEntries s.ev.id with nextFill := s.ev.id + 1, fillAfter := s.cycle + 1 }) = r at ht
  have he : exec .refreshWindowOpen s = .next (((r.refreshAll s.ev.die (r.stacksOf s.ev.die)).modDie s.ev.die fun x =>
      { x with refreshOpen := x.refreshOpen ++ [close] }).sched close .refreshWindowClose { die := s.ev.die, seq := close }) := by
    subst hr hc
    exact congrArg Host.Outcome.next (if_neg (Nat.not_le.mpr h))
  obtain ⟨hf, hall⟩ := State.refreshAll_spec s.ev.die (r.stacksOf s.ev.die) r
  have hu := (((ht.of_dies (u := r.refreshAll s.ev.die (r.stacksOf s.ev.die)) (by rw [hf.rest]) (by rw [hf.rest])).modDie fun x =>
      { x with refreshOpen := x.refreshOpen ++ [close] }).of_dies (u := ((r.refreshAll s.ev.die (r.stacksOf s.ev.die)).modDie s.ev.die fun x =>
      { x with refreshOpen := x.refreshOpen ++ [close] }).sched close .refreshWindowClose { die := s.ev.die, seq := close }) rfl rfl)
  refine ⟨_, he, hu.quiet (Die.store_with (h := rfl) ..), ?_, ?_, fun i hi c hm => ?_, ?_⟩
  · rw [hu.die]
  · rw [hu.die]
  · subst hr
    exact hall i hi c hm
  · exact List.mem_append_right _ (List.mem_singleton.mpr rfl)

theorem State.refreshWindowOpen_over {close : Nat}
    (hc : close = (s.die s.ev.die).entryStart ((s.die s.ev.die).calEntry s.ev.id) + ((s.die s.ev.die).calEntry s.ev.id).len)
    (h : close ≤ s.cycle) : ∃ t, exec .refreshWindowOpen s = .next t ∧ s.QuietAt t s.ev.die ∧ t.agenda = s.agenda
      ∧ (t.die s.ev.die).refreshOpen = (s.die s.ev.die).refreshOpen ∧ (t.die s.ev.die).nextFill = s.ev.id + 1
      ∧ t.stations = s.stations := by
  obtain ⟨bad, stat, ht⟩ := s.readEntries_turns s.ev.die s.ev.id
  subst hc
  refine ⟨_, congrArg Host.Outcome.next (if_pos h), ht.quiet (Die.store_with (h := rfl) ..), rfl, ?_, ?_, rfl⟩
  · rw [ht.die]
  · rw [ht.die]

/-! ### Fills that end, and fills that wait -/

theorem Die.stampAll_eq (l : List Nat) (key : Nat) (g : BitVec 8) (x : Die) :
    x.stampAll l key g = { x with stamps := x.stamps ++ l.eraseDups.map fun y => (key, y, g) } := by
  unfold Die.stampAll
  generalize l.eraseDups = m
  induction m generalizing x with
  | nil => simp
  | cons y m ih =>
    rw [List.foldl_cons, ih]
    unfold Die.stamp
    simp

theorem State.fillComplete_found {f : Fill} (h : ((s.die s.ev.die).fills.find? fun f => f.id == s.ev.id) = some f) :
    ∃ t, exec .fillComplete s = .next t ∧ s.QuietAt t s.ev.die
      ∧ (t.die s.ev.die).fills = (s.die s.ev.die).fills.filter (fun g => g.id != s.ev.id)
      ∧ (t.die s.ev.die).stamps = (s.die s.ev.die).stamps ++ match f.stamp with
          | some g => (tilesOf f.addrs).eraseDups.map fun y => (0, y, g)
          | none => [] := by
  have hid : f.id = s.ev.id := beq_iff_eq.mp (List.find?_some (p := fun f : Fill => f.id == s.ev.id) h)
  have he : exec .fillComplete s = .next (s.modDie s.ev.die fun x =>
      { x with
          fills := x.fills.filter fun g => g.id != s.ev.id
          stamps := x.stamps ++ match f.stamp with
            | some g => (tilesOf f.addrs).eraseDups.map fun y => (0, y, g)
            | none => [] }) := by
    change Host.Outcome.next _ = _
    rw [h]
    dsimp only
    rw [hid]
    cases f.stamp with
    | none =>
      simp only [List.append_nil]
    | some g =>
      simp only [Die.stampAll_eq]
  have ht := (TurnsDie.refl s s.ev.die).modDie fun x =>
      { x with
          fills := x.fills.filter fun g => g.id != s.ev.id
          stamps := x.stamps ++ match f.stamp with
            | some g => (tilesOf f.addrs).eraseDups.map fun y => (0, y, g)
            | none => [] }
  refine ⟨_, he, ht.quiet (Die.store_with (h := rfl) ..), ?_, ?_⟩
  all_goals rw [ht.die]

theorem satInc_toNat (v : BitVec 32) : (satInc v).toNat = min (2 ^ 32 - 1) (v.toNat + 1) := by
  unfold satInc
  split
  case isTrue h =>
    subst h
    rfl
  case isFalse h =>
    have hv : v.toNat ≠ 2 ^ 32 - 1 := fun hv => h (BitVec.eq_of_toNat_eq (hv.trans (BitVec.toNat_allOnes).symm))
    rw [BitVec.toNat_add, show (1 : BitVec 32).toNat = 1 from rfl]
    have := v.isLt
    omega

theorem Die.countSlips_eq (n : Nat) (x : Die) : ∃ v, Nat.repeat Die.countSlip n x = { x with mem := { x.mem with slips := v } }
    ∧ v.toNat = min (2 ^ 32 - 1) (x.mem.slips.toNat + n) := by
  induction n with
  | zero =>
    refine ⟨x.mem.slips, rfl, ?_⟩
    have := x.mem.slips.isLt
    omega
  | succ n ih =>
    obtain ⟨v, hv, hn⟩ := ih
    refine ⟨satInc v, ?_, ?_⟩
    · change (Nat.repeat Die.countSlip n x).countSlip = _
      rw [hv]
      rfl
    · rw [satInc_toNat, hn]
      omega

theorem State.exec_stationForcedRefresh (s : State) : ∃ t, exec .stationForcedRefresh s = .next t ∧ s.QuietAt t s.ev.die
    ∧ (t.die s.ev.die).mem.slips.toNat = min (2 ^ 32 - 1) ((s.die s.ev.die).mem.slips.toNat
      + ((s.die s.ev.die).fills.filter fun f => f.from' s.ev.stack).length)
    ∧ ∃ k, s.cycle < k ∧ (t.die s.ev.die).fills = (s.die s.ev.die).fills.map fun f =>
        if f.from' s.ev.stack then { f with next := max f.next k } else f := by
  obtain ⟨v, hv, hn⟩ := Die.countSlips_eq ((s.die s.ev.die).fills.filter fun f => f.from' s.ev.stack).length
    { s.die s.ev.die with
        fills := replaceIf (fun (f : Fill) => f.from' s.ev.stack)
          (fun f => { f with next := max f.next (s.cycle + 1 + Config.delay s.freeCtr) }) (s.die s.ev.die).fills }
  have ht := (TurnsDie.refl s s.ev.die).modDie fun x =>
    Nat.repeat Die.countSlip ((s.die s.ev.die).fills.filter fun f => f.from' s.ev.stack).length { x with
        fills := replaceIf (fun (f : Fill) => f.from' s.ev.stack)
          (fun f => { f with next := max f.next (s.cycle + 1 + Config.delay s.freeCtr) }) x.fills }
  replace ht := ht.takeFree
  rw [hv] at ht
  refine ⟨_, rfl, ht.quiet (Die.store_with (h := rfl) ..), ?_, s.cycle + 1 + Config.delay s.freeCtr, by omega, ?_⟩
  · rw [ht.die]
    exact hn
  · rw [ht.die]
    rfl

theorem State.exec_fillCalWrite (s : State) : exec .fillCalWrite s = .next (s.setDie s.ev.die
    { s.die s.ev.die with
        mem := { (s.die s.ev.die).mem with
          calEnable := s.ev.val.getLsbD 63, calCount := (s.ev.val.extractLsb' 32 11).toNat, calBase := s.ev.val.extractLsb' 0 27 }
        nextFill := if s.ev.val.getLsbD 63 && !(s.die s.ev.die).mem.calEnable then 0 else (s.die s.ev.die).nextFill
        fillAfter := if s.ev.val.getLsbD 63 && !(s.die s.ev.die).mem.calEnable then s.cycle else (s.die s.ev.die).fillAfter }) := by
  have hb : BitVec.ofNat 27 (bits s.ev.val 0 27) = s.ev.val.extractLsb' 0 27 := by
    rw [bits_eq]
    exact BitVec.eq_of_toNat_eq (by simp)
  rw [← bitAt_eq, ← bits_eq, ← hb]
  rfl

end

end Sys2Proof.Machine
end

