-- ==== Sys2Proof/Proofs/MemorySteps.lean ====
section
/-! PROOFS. The dealing of a stack's channels (R301), errors of the links, migration ranges, and the steps of the memory. -/

namespace Sys2Proof.Machine

section
variable {s t : State}

/-! ### Channels -/

/-- The place of an element that a filter of a range keeps: what it keeps before. -/
theorem findIdx_filter_range (p : Nat → Bool) {c n : Nat} (hc : c < n) (hp : p c = true) :
    ((List.range n).filter p).findIdx? (· == c) = some ((List.range c).filter p).length := by
  obtain ⟨m, rfl⟩ : ∃ m, n = c + (m + 1) := ⟨n - c - 1, by omega⟩
  have hr : List.range (c + (m + 1)) = List.range c ++ c :: (List.range m).map (fun k => c + (k + 1)) := by
    rw [List.range_add, List.range_succ_eq_map]
    simp
  rw [hr, List.filter_append, List.filter_cons_of_pos hp, List.findIdx?_append]
  have hn : ((List.range c).filter p).findIdx? (· == c) = none := by
    rw [List.findIdx?_eq_none_iff]
    intro x hx
    have := List.mem_range.mp (List.mem_filter.mp hx).1
    simp
    omega
  rw [hn]
  simp [List.findIdx?_cons]

theorem mem_presentSides (here : Nat → Bool) {k : Nat} (hk : k < 4) : ((List.range 4).filter here).contains k = here k := by
  rw [Bool.eq_iff_iff, List.contains_iff_mem]
  simp [hk]

/-- The sides that are present are sides. -/
theorem getD_presentSides_lt (here : Nat → Bool) (n : Nat) : ((List.range 4).filter here).getD n 0 < 4 := by
  rw [List.getD_eq_getElem?_getD]
  cases h : ((List.range 4).filter here)[n]? with
  | none => exact Nat.zero_lt_succ 3
  | some k => exact List.mem_range.mp (List.mem_filter.mp (List.mem_of_getElem? h)).1

/-- The side that a channel is dealt to: its home where that is present, else the next of those present in turn. -/
def dealtSide (here : Nat → Bool) (c : Nat) : Nat :=
  if here (c / 8) then c / 8
  else ((List.range 4).filter here).getD (((List.range c).filter fun k => !here (k / 8)).length % ((List.range 4).filter here).length) 0

theorem dealChannels_eq (here : Nat → Bool) (hp : (List.range 4).filter here ≠ []) :
    dealChannels ((List.range 4).filter here) = BitVec.ofNat 64 (joinNat 2 ((List.range 32).map (dealtSide here))) := by
  have hs : ∀ k ∈ List.range 32, ((List.range 4).filter here).contains (k / 8) = here (k / 8) := fun k hk =>
    mem_presentSides here (by have := List.mem_range.mp hk; omega)
  have hl : 0 < ((List.range 4).filter here).length := List.length_pos_of_ne_nil hp
  unfold dealChannels
  rw [List.filter_congr (q := fun c => !here (c / 8)) fun k hk => by rw [hs k hk]]
  refine congrArg (fun l => BitVec.ofNat 64 (joinNat 2 l)) (List.map_congr_left fun c hc => ?_)
  rw [hs c hc]
  unfold dealtSide
  cases hh : here (c / 8) with
  | true => rfl
  | false =>
    rw [findIdx_filter_range (fun k => !here (k / 8)) (List.mem_range.mp hc) (by rw [hh]; rfl)]
    simp only [Bool.false_eq_true, if_false]
    rw [Nat.max_eq_right hl, List.getD_eq_getElem _ _ (Nat.mod_lt _ hl), List.getD_eq_getElem _ _ (Nat.mod_lt _ hl)]

theorem dealtSide_lt (here : Nat → Bool) {c : Nat} (hc : c < 32) : dealtSide here c < 4 := by
  unfold dealtSide
  split
  · omega
  · exact getD_presentSides_lt here _

/-- What the dealing register holds for a channel. -/
theorem dealChannels_side (here : Nat → Bool) (hp : (List.range 4).filter here ≠ []) {c : Nat} (hc : c < 32) :
    ((dealChannels ((List.range 4).filter here)).extractLsb' (2 * c) 2).toNat = dealtSide here c := by
  have hlt : joinNat 2 ((List.range 32).map (dealtSide here)) < 2 ^ 64 := by
    have := joinNat_lt 2 ((List.range 32).map (dealtSide here))
    rwa [List.length_map, List.length_range] at this
  rw [dealChannels_eq here hp, BitVec.extractLsb'_toNat, BitVec.toNat_ofNat, Nat.mod_eq_of_lt hlt, Nat.shiftRight_eq_div_pow,
    joinNat_getD, List.getD_eq_getElem _ _ (by simpa using hc), List.getElem_map, List.getElem_range,
    Nat.mod_eq_of_lt (show _ < 2 ^ 2 from dealtSide_lt here hc)]

theorem State.exec_channelRedeal (s : State) : ∃ t, exec .channelRedeal s = .next t ∧ s.SameBytes t
    ∧ t.stations = (s.modStation s.ev.stack fun t => { t with
      chan := if ((List.range 4).filter fun k => s.sidePresent s.ev.stack k).isEmpty then t.chan
        else dealChannels ((List.range 4).filter fun k => s.sidePresent s.ev.stack k) }).stations := by
  refine ⟨_, rfl, State.sameBytes_of_store ?_, ?_⟩
  · refine (State.store_foldl (fun s p => ?_) _ _).trans (State.store_modStation _ _)
    split
    · exact State.store_modDie (Die.store_repeat Die.store_countSlip _ _)
    · rfl
  · refine foldl_keeps (p := fun t : State => t.stations = (s.modStation s.ev.stack _).stations) (fun t p ht => ?_) _ _ rfl
    split
    · exact ht
    · exact ht

/-- The channels of the stack after the dealing, and the other stacks. -/
theorem State.channelRedeal_spec (s : State) :
    let here (k : Nat) : Bool := s.sidePresent s.ev.stack k
    let present := (List.range 4).filter here
    ∃ t, exec .channelRedeal s = .next t ∧ s.SameBytes t ∧ (∀ j, j ≠ s.ev.stack → t.station j = s.station j)
      ∧ (present = [] → (t.station s.ev.stack).chan = (s.station s.ev.stack).chan)
      ∧ (present ≠ [] → ∀ c, c < 32 →
        let side := ((t.station s.ev.stack).chan.extractLsb' (2 * c) 2).toNat
        let before := ((List.range c).filter fun k => !here (k / 8)).length
        side = if here (c / 8) then c / 8 else present.getD (before % present.length) 0) := by
  intro here present
  obtain ⟨t, he, hb, hs⟩ := s.exec_channelRedeal
  have hi : (t.station s.ev.stack).chan = if present.isEmpty then (s.station s.ev.stack).chan else dealChannels present :=
    (congrArg (fun v : Vector Station 128 => v[s.ev.stack].chan) hs).trans (congrArg Station.chan (s.station_modStation s.ev.stack _))
  refine ⟨t, he, hb, fun j hj => ?_, fun hp => ?_, fun hp c hc => ?_⟩
  · exact (congrArg (fun v : Vector Station 128 => v[j]) hs).trans (vset_other _ _ hj.symm)
  · rw [hi, hp]
    rfl
  · dsimp only
    rw [hi, if_neg (by rwa [List.isEmpty_iff])]
    exact dealChannels_side here hp hc

/-! ### Flits and migration ranges -/

theorem State.exec_ucieFlitCrcFail {e : Sched} (h : s.agenda[s.ev.id]? = some e) : exec .ucieFlitCrcFail s = .next (
    if isFlitArrival e.act then
      { s with agenda := s.agenda.set s.ev.id { e with due := e.due + 1 + Config.delay s.freeCtr, arg := { e.arg with flag := true } }
               freeCtr := s.freeCtr + 1 }
    else s) := by
  change Host.Outcome.next _ = _
  rw [h]
  rfl

theorem State.exec_stationParityDiscard {e : Sched} (h : s.agenda[s.ev.id]? = some e) : exec .stationParityDiscard s = .next (
    if isFlitArrival e.act then
      { (s.modStation s.ev.stack fun t => { t with parity := satInc t.parity }) with agenda := s.agenda.eraseIdx s.ev.id }
    else s) := by
  change Host.Outcome.next _ = _
  rw [h]
  rfl

theorem State.stationParityDiscard_arrival {e : Sched} (h : s.agenda[s.ev.id]? = some e) (ha : isFlitArrival e.act = true) :
    ∃ t, exec .stationParityDiscard s = .next t ∧ t.agenda = s.agenda.eraseIdx s.ev.id ∧ t.dies = s.dies ∧ t.mem = s.mem
      ∧ (t.station s.ev.stack).parity = satInc (s.station s.ev.stack).parity := by
  refine ⟨_, State.exec_stationParityDiscard h, ?_⟩
  rw [if_pos ha]
  exact ⟨rfl, rfl, rfl, congrArg Station.parity (s.station_modStation s.ev.stack _)⟩

theorem State.ucieFlitCrcFail_arrival {e : Sched} (h : s.agenda[s.ev.id]? = some e) (ha : isFlitArrival e.act = true) :
    ∃ t late, exec .ucieFlitCrcFail s = .next t ∧ e.due < late
      ∧ t.agenda = s.agenda.set s.ev.id { e with due := late, arg := { e.arg with flag := true } } ∧ t.dies = s.dies
      ∧ t.mem = s.mem := by
  refine ⟨_, e.due + 1 + Config.delay s.freeCtr, State.exec_ucieFlitCrcFail h, by omega, ?_⟩
  rw [if_pos ha]
  exact ⟨rfl, rfl, rfl⟩

theorem State.exec_stMigWrite (s : State) : exec .stMigWrite s = .next (s.modStation s.ev.stack fun t => { t with
    migActive := vset t.migActive s.ev.rng (s.ev.val.getLsbD 63), migSize := vset t.migSize s.ev.rng (s.ev.val.extractLsb' 48 5)
    migPage := vset t.migPage s.ev.rng (s.ev.val.extractLsb' 16 27) }) := by
  have hf : ∀ lo n, BitVec.ofNat n (bits s.ev.val lo n) = s.ev.val.extractLsb' lo n := fun lo n => by
    rw [bits_eq]
    exact BitVec.eq_of_toNat_eq (by simp)
  rw [← bitAt_eq, ← hf, ← hf]
  rfl

theorem State.stMigWrite_spec (s : State) : ∃ t, exec .stMigWrite s = .next t
    ∧ (t.station s.ev.stack).migActive[s.ev.rng] = s.ev.val.getLsbD 63
    ∧ (t.station s.ev.stack).migSize[s.ev.rng] = s.ev.val.extractLsb' 48 5
    ∧ (t.station s.ev.stack).migPage[s.ev.rng] = s.ev.val.extractLsb' 16 27
    ∧ (∀ m, m ≠ s.ev.rng → (t.station s.ev.stack).migActive[m] = (s.station s.ev.stack).migActive[m])
    ∧ (∀ j, j ≠ s.ev.stack → t.station j = s.station j) ∧ { t with stations := s.stations } = s := by
  refine ⟨_, s.exec_stMigWrite, ?_⟩
  rw [State.station_modStation]
  exact ⟨vset_same _ _ _, vset_same _ _ _, vset_same _ _ _, fun m hm => vset_other _ _ hm.symm, fun j hj => vset_other _ _ hj.symm, rfl⟩

end

/-- Settles O56: walks, the runtime's answers and invalidations change the one die; a calendar's entries begin in order; what
the stations do is theirs alone. -/
theorem memorySteps : Obligations.MemorySteps := by
  intro s d x id v quiet
  refine ⟨fun w hw i hi => ?_, fun f l hf => ⟨?_, fun i code hi => ?_⟩, ?_, ⟨?_, ?_, ?_, ?_, ?_⟩, rfl, fun f hf => ?_, ?_, ?_, ?_,
    fun e he => ⟨fun ha => ?_, fun ha => ?_⟩, ?_⟩
  · rw [State.exec_walkEnds hi]
    refine ⟨fun e he => ?_, fun hm => ?_, fun l hl hr => ?_, fun k l hk hr => ?_, fun n hb hn => ?_⟩
    · obtain ⟨hq, hx, hk, hf⟩ := State.walkEnds_ok hw he
      exact ⟨_, rfl, hq, hx, hk, hf⟩
    · rw [State.walkEnds_of hw, hm]
      rfl
    · exact ⟨_, rfl, State.walkEnds_resends hw hl hr⟩
    · obtain ⟨hq, hx, hk, hf⟩ := State.walkEnds_fault hw hk hr
      exact ⟨_, rfl, hq, hx, hk, hf⟩
    · obtain ⟨hq, hx, hk, hf⟩ := State.walkEnds_badEcc hw hb hn
      exact ⟨_, rfl, hq, hx, hk, hf⟩
  · exact State.exec_mmuResolveRetry hf
  · exact State.mmuResolve_answers hf hi
  · refine ⟨_, s.exec_mmuInval, ?_, fun e => ?_⟩
    · rw [State.die_setDie]
    · rw [State.die_setDie]
      exact (mem_inval _ _ _ e).trans (by rw [bne_iff_ne])
  · exact State.fillBegin_bad
  · exact State.fillBegin_panel
  · exact State.fillBegin_other
  · exact State.refreshWindowOpen_due rfl
  · exact State.refreshWindowOpen_over rfl
  · exact State.fillComplete_found hf
  · exact s.exec_stationForcedRefresh
  · exact s.exec_fillCalWrite
  · exact s.channelRedeal_spec
  · exact ⟨State.ucieFlitCrcFail_arrival he ha, State.stationParityDiscard_arrival he ha⟩
  · rw [State.exec_ucieFlitCrcFail he, State.exec_stationParityDiscard he, ha]
    exact ⟨rfl, rfl⟩
  · exact s.stMigWrite_spec

end Sys2Proof.Machine
end

