-- ==== Sys2Proof/Proofs/OperationEnds.lean ====
section
/-! PROOFS. Steps of a die's engines as changes of the one die and the agenda, operation records, and the end of an operation
(R144, R147, R170). -/

namespace Sys2Proof.Machine

/-! ### A step of one die's engines -/

/-- From `s` to `t` nothing has changed but the agenda and die `d`, which is now `y`. -/
structure State.ActsOn (s t : State) (d : DieId) (y : Die) : Prop extends s.TurnsDie t d y where
  rest : { t with dies := s.dies, agenda := s.agenda } = s

/-- A change of an operation within its queue. -/
def Die.modOp (x : Die) (q : Fin 19) (id : Nat) (f : Op → Op) : Die :=
  { x with queues := vmod x.queues q fun l => replaceIf (fun o => o.id == id) f l }

/-- An operation's operation record, written with a state. -/
def Die.putOpRecord (x : Die) (q : Fin 19) (o : Op) (st : Nat) : Die :=
  x.modCtx o.ctx fun c => c.putRecord o.hnd o.tp (macroRecord o.progress o.err st q.val o.major o.minor)

/-- An operation of a die, looked up in its queue. -/
def Die.op (x : Die) (q : Fin 19) (id : Nat) : Option Op := (x.queues[q]).find? fun o => o.id == id

namespace State.ActsOn

variable {s t u : State} {d : DieId} {y z : Die}

theorem refl (s : State) (d : DieId) : s.ActsOn s d (s.die d) := ⟨.refl s d, rfl⟩

theorem modDie (h : s.ActsOn t d y) (f : Die → Die) : s.ActsOn (t.modDie d f) d (f y) := ⟨h.toTurnsDie.modDie f, h.rest⟩

theorem modOp (h : s.ActsOn t d y) (q : Fin 19) (id : Nat) (f : Op → Op) : s.ActsOn (t.modOp d q id f) d (y.modOp q id f) :=
  h.modDie fun x => x.modOp q id f

theorem modCtx (h : s.ActsOn t d y) (c : CtxId) (f : Ctx → Ctx) : s.ActsOn (t.modCtx d c f) d (y.modCtx c f) := h.modDie _

theorem putOpRecord (h : s.ActsOn t d y) (q : Fin 19) (o : Op) (st : Nat) : s.ActsOn (t.putOpRecord d q o st) d (y.putOpRecord q o st) :=
  h.modDie fun x => x.putOpRecord q o st

theorem sched (h : s.ActsOn t d y) (due : Nat) (a : Instr) (e : EvArg) : s.ActsOn (t.sched due a e) d y :=
  ⟨h.toTurnsDie.of_dies rfl rfl, h.rest⟩

theorem schedOnce (h : s.ActsOn t d y) (due : Nat) (a : Instr) (e : EvArg) : s.ActsOn (t.schedOnce due a e) d y := by
  refine ⟨h.toTurnsDie.schedOnce due a e, ?_⟩
  obtain ⟨m, hm, -⟩ := State.schedOnce_eq (s := t) due a e
  rw [hm]
  exact h.rest

theorem of_ite {c : Prop} [Decidable c] (h : s.ActsOn t d y) (k : s.ActsOn u d y) : s.ActsOn (if c then t else u) d y := by
  split
  · exact h
  · exact k

theorem foldl {α : Type} (f : State → α → State) (hf : ∀ t a, s.ActsOn t d y → s.ActsOn (f t a) d y) (l : List α) :
    ∀ t, s.ActsOn t d y → s.ActsOn (l.foldl f t) d y := by
  induction l with
  | nil => exact fun _ h => h
  | cons a l ih => exact fun t h => ih _ (hf t a h)

theorem followEnd (h : s.ActsOn t d y) (id : Nat) (ok : Bool) : s.ActsOn (t.followEnd d id ok) d y := by
  unfold State.followEnd
  split
  · exact h
  · refine of_ite (h.sched _ _ _) (foldl _ (fun u q hu => ?_) _ _ h)
    exact of_ite (hu.schedOnce _ _ _) hu

theorem op (h : s.ActsOn t d y) (q : Fin 19) (id : Nat) : t.op d q id = y.op q id := by
  unfold State.op
  rw [h.die]
  rfl

theorem cycle (h : s.ActsOn t d y) : t.cycle = s.cycle := (congrArg State.cycle h.rest :)

theorem stations (h : s.ActsOn t d y) : t.stations = s.stations := (congrArg State.stations h.rest :)

theorem panel (h : s.ActsOn t d y) : t.panel = s.panel := (congrArg State.panel h.rest :)

theorem ctx (h : s.ActsOn t d y) (c : CtxId) : t.ctx d c = y.ctx c := congrArg (fun x : Die => x.ctx c) h.die

end State.ActsOn

/-! ### Operations -/

theorem State.op_eq (s : State) (d : DieId) (q : Fin 19) (id : Nat) : s.op d q id = (s.die d).op q id := rfl

theorem Die.op_id {x : Die} {q : Fin 19} {id : Nat} {o : Op} (h : x.op q id = some o) : o.id = id :=
  beq_iff_eq.mp (List.find?_some (p := fun o : Op => o.id == id) h)

theorem Die.queues_modOp (x : Die) (q : Fin 19) (id : Nat) (f : Op → Op) (r : Fin 19) : ((x.modOp q id f).queues)[r]
    = if q = r then replaceIf (fun o => o.id == id) f x.queues[r] else x.queues[r] := by
  refine (vset_get _ q r _).trans ?_
  split
  case isTrue h => subst h; rfl
  case isFalse => rfl

theorem Die.op_modOp (x : Die) (q : Fin 19) (id : Nat) (f : Op → Op) (hf : ∀ o, o.id = id → (f o).id = id) :
    (x.modOp q id f).op q id = (x.op q id).map f := by
  unfold Die.op
  rw [Die.queues_modOp, if_pos rfl]
  exact find_replaceIf _ _ (fun x h => by simp only [beq_iff_eq] at h ⊢; exact hf x h) _

theorem Die.mapOps_queues (x : Die) (f : Op → Op) (r : Fin 19) : ((x.mapOps f).queues)[r] = (x.queues[r]).map f := by
  unfold Die.mapOps
  simp

theorem Die.op_mapOps (x : Die) (q : Fin 19) (id : Nat) (f : Op → Op) (hf : ∀ o, (f o).id = o.id) :
    (x.mapOps f).op q id = (x.op q id).map f := by
  unfold Die.op
  rw [Die.mapOps_queues, List.find?_map]
  refine congrArg (Option.map f) (congrArg (fun p => List.find? p _) (funext fun o => ?_))
  exact congrArg (· == id) (hf o)

/-! ### Macro records -/

theorem Ctx.recs_putRecord (c : Ctx) (hnd : Bool) (t : TokId) (r : BitVec 128) : ((c.putRecord hnd t r).recs hnd)[t] = r := by
  cases hnd
  · exact vset_same _ _ _
  · exact vset_same _ _ _

theorem Ctx.recs_modFile (c : Ctx) (h k : Bool) (f : RegFile → RegFile) : (c.modFile h f).recs k = c.recs k := by
  cases h <;> rfl

theorem macroRecord_state (progress : Nat) (err : BitVec 8) (st : Nat) (q : Fin 19) (major minor : Nat) :
    (macroRecord progress err st q.val major minor).extractLsb' 72 8 = BitVec.ofNat 8 st := by
  have he := err.isLt
  refine BitVec.eq_of_toNat_eq ?_
  rw [BitVec.extractLsb'_toNat, Nat.shiftRight_eq_div_pow]
  unfold macroRecord
  rw [BitVec.toNat_ofNat, BitVec.toNat_ofNat]
  have hp : progress % 2 ^ 64 < 2 ^ 64 := Nat.mod_lt _ (by positivity)
  generalize progress % 2 ^ 64 = p at hp ⊢
  omega

/-- A context with its operation record of an operation at a state. -/
theorem Die.record_putOpRecord (x : Die) (q : Fin 19) (o : Op) (st : Nat) :
    (((x.putOpRecord q o st).ctx o.ctx).recs o.hnd)[o.tp].extractLsb' 72 8 = BitVec.ofNat 8 st := by
  unfold Die.putOpRecord
  rw [Die.ctx_modCtx, Ctx.recs_putRecord, macroRecord_state]

/-! ### The end of an operation -/

/-- An operation as it ends with a code. -/
def Op.ended (o : Op) (code : BitVec 8) : Op := { o with st := .ended, err := code, units := [], pend := [] }

/-- The consumers of an operation see how its token ended. -/
def Op.sees (id : Nat) (after : TokState) (p : Op) : Op :=
  { p with deps := p.deps.map fun e => if e == Dep.ref id then .was after else e }

/-- The token state that an end with a code leaves. -/
def endToken (code : BitVec 8) : TokState := if code == 0 then .done else .error

/-- The events of an operation's end, for its token and its fold. -/
def Die.endEvents (x : Die) (q : Fin 19) (o : Op) (code : BitVec 8) : Die :=
  { x with
      tokEvts := x.tokEvts ++ [(o.ctx, o.tp, endToken code)]
      foldEvts := match o.fold with
        | some f => x.foldEvts ++ [(f, if code == 0 then FoldEvt.done else FoldEvt.err q.val code)]
        | none => x.foldEvts }

/-- A die whose operation has ended, with its token and fold not told yet. -/
def Die.opStops (x : Die) (q : Fin 19) (o : Op) (code : BitVec 8) : Die :=
  ((x.modOp q o.id fun _ => o.ended code).putOpRecord q (o.ended code) (if code == 0 then 4 else 5)).modCtx o.ctx fun c =>
    c.modFile o.hnd fun f => if o.flags = 0 then f else { f with flg := orFlags f.flg o.flags }.touch 0

/-- A die whose operation has ended, with its token and fold told. -/
def Die.opTold (x : Die) (q : Fin 19) (o : Op) (code : BitVec 8) : Die :=
  ((x.opStops q o code).endEvents q o code).mapOps (Op.sees o.id (endToken code))

/-- A die once an operation has ended: what may be resumed is kept, and its follow-on is told. -/
def Die.opEnds (x : Die) (q : Fin 19) (o : Op) (code : BitVec 8) : Die :=
  (if code == 0 then x.opTold q o code else (x.opTold q o code).keepResume q (o.ended code) (o.st != .queued)).endFollow
    (o.ended code) (code == 0)

section
variable {s t : State} {d : DieId} {x y : Die} {q : Fin 19} {id : Nat} {o : Op}

theorem State.ActsOn.endOp (h : s.ActsOn t d y) (ho : y.op q id = some o) (hne : o.st ≠ .ended) (code : BitVec 8) :
    s.ActsOn (t.endOp d q id code) d (y.opEnds q o code) := by
  have hid := Die.op_id ho
  subst hid
  have ht : t.op d q o.id = some o := (h.op q o.id).trans ho
  have he := ((((h.modOp q o.id fun _ => o.ended code).putOpRecord q (o.ended code) (if code == 0 then 4 else 5)).modCtx o.ctx fun c =>
    c.modFile o.hnd fun f => if o.flags = 0 then f else { f with flg := orFlags f.flg o.flags }.touch 0).modDie fun x =>
      ((if code == 0 then (x.endEvents q o code).mapOps (Op.sees o.id (endToken code))
        else ((x.endEvents q o code).mapOps (Op.sees o.id (endToken code))).keepResume q (o.ended code) (o.st != .queued)).endFollow
          (o.ended code) (code == 0)))
  have hs := of_ite (c := o.follow = true) (he.followEnd o.id (code == 0)) he
  have hne' : (o.st == .ended) = false := by simpa using hne
  unfold State.endOp
  rw [ht]
  dsimp only
  rw [hne']
  exact hs

/-! ### What the end of an operation changes -/

theorem Die.keepResume_eq (x : Die) (q : Fin 19) (o : Op) (ran : Bool) :
    ∃ c r a, x.keepResume q o ran = { x with cpResume := c, rcpResume := r, arrays := a } := by
  unfold Die.keepResume
  repeat' split
  all_goals exact ⟨_, _, _, rfl⟩

/-- What a follow-on is told changes in its command. -/
def Op.hears (id : Nat) (p : Op) : Op := if p.bound == some id then { p with boundErr := true } else p

theorem Op.hears_eq (b : Bool) (id : Nat) (p : Op) : ∃ e, (if b then p.hears id else p) = { p with boundErr := e } := by
  unfold Op.hears
  split
  · split
    · exact ⟨_, rfl⟩
    · exact ⟨p.boundErr, rfl⟩
  · exact ⟨p.boundErr, rfl⟩

theorem Die.endFollow_eq (x : Die) (o : Op) (ok : Bool) : ∃ c v, x.endFollow o ok = { x with ctxs := c, queues := v }
    ∧ (∀ r : Fin 19, v[r] = (x.queues[r]).map fun p => if o.follow && !ok then p.hears o.id else p)
    ∧ ∀ (n : CtxId) (h : Bool), ((x.endFollow o ok).ctx n).recs h = (x.ctx n).recs h := by
  have hk : ∀ (c : Ctx) (l : List (Nat × Option Bool)) (h : Bool), Ctx.recs { c with unbound := l } h = c.recs h := fun _ _ h => by
    cases h <;> rfl
  have hc : ∀ (n : CtxId) (h : Bool) (g : Ctx → List (Nat × Option Bool)),
      ((x.modCtx o.ctx fun c => { c with unbound := g c }).ctx n).recs h = (x.ctx n).recs h := fun n h g => by
    by_cases hn : o.ctx = n
    · subst hn
      rw [Die.ctx_modCtx]
      exact hk _ _ h
    · rw [Die.ctx_modCtx_other _ _ hn]
  unfold Die.endFollow
  cases o.follow with
  | false => exact ⟨x.ctxs, x.queues, rfl, fun r => by simp, fun _ _ => rfl⟩
  | true =>
    cases ok with
    | true =>
      exact ⟨_, x.queues, rfl, fun r => by simp,
        fun n h => hc n h fun c => c.unbound.map fun (e : Nat × Option Bool) => if e.1 == o.id then (e.1, some true) else e⟩
    | false =>
      exact ⟨_, _, rfl, fun r => Die.mapOps_queues _ _ r,
        fun n h => hc n h fun c => c.unbound.map fun (e : Nat × Option Bool) => if e.1 == o.id then (e.1, some false) else e⟩

/-- The parts of a die that the end of an operation leaves. -/
theorem Die.opTold_eq (x : Die) (q : Fin 19) (o : Op) (code : BitVec 8) : ∃ c v, x.opTold q o code = { x with
      ctxs := c, queues := v, tokEvts := x.tokEvts ++ [(o.ctx, o.tp, endToken code)], foldEvts := (x.endEvents q o code).foldEvts }
    ∧ ∀ r : Fin 19, v[r] = (if q = r then replaceIf (fun p => p.id == o.id) (fun _ => o.ended code) x.queues[r]
        else x.queues[r]).map (Op.sees o.id (endToken code)) := by
  have hm := Die.mapOps_queues ((x.opStops q o code).endEvents q o code) (Op.sees o.id (endToken code))
  have hq : ((x.opStops q o code).endEvents q o code).queues = (x.modOp q o.id fun _ => o.ended code).queues := rfl
  refine ⟨(x.opTold q o code).ctxs, (x.opTold q o code).queues, rfl, fun r => (hm r).trans ?_⟩
  rw [hq, Die.queues_modOp]

theorem Die.opTold_record (x : Die) (q : Fin 19) (o : Op) (code : BitVec 8) :
    (((x.opTold q o code).ctx o.ctx).recs o.hnd)[o.tp].extractLsb' 72 8 = BitVec.ofNat 8 (if code == 0 then 4 else 5) := by
  change (((x.opStops q o code).ctx o.ctx).recs o.hnd)[o.tp].extractLsb' 72 8 = _
  unfold Die.opStops
  rw [Die.ctx_modCtx, Ctx.recs_modFile]
  exact Die.record_putOpRecord _ q (o.ended code) _

/-- The end of an operation, field by field. -/
theorem Die.opEnds_eq (x : Die) (q : Fin 19) (o : Op) (code : BitVec 8) : ∃ c v r s a, x.opEnds q o code = { x with
      ctxs := c, queues := v, tokEvts := x.tokEvts ++ [(o.ctx, o.tp, endToken code)], foldEvts := (x.endEvents q o code).foldEvts
      cpResume := r, rcpResume := s, arrays := a }
    ∧ (if code == 0 then r = x.cpResume ∧ s = x.rcpResume ∧ a = x.arrays
      else ((x.opTold q o code).keepResume q (o.ended code) (o.st != .queued)).cpResume = r
        ∧ ((x.opTold q o code).keepResume q (o.ended code) (o.st != .queued)).arrays = a)
    ∧ (∀ r : Fin 19, v[r] = ((if q = r then replaceIf (fun p => p.id == o.id) (fun _ => o.ended code) x.queues[r]
        else x.queues[r]).map (Op.sees o.id (endToken code))).map fun p => if o.follow && code != 0 then p.hears o.id else p)
    ∧ (((x.opEnds q o code).ctx o.ctx).recs o.hnd)[o.tp].extractLsb' 72 8 = BitVec.ofNat 8 (if code == 0 then 4 else 5) := by
  have hr := x.opTold_record q o code
  obtain ⟨c, v, ht, hv⟩ := x.opTold_eq q o code
  by_cases hc : (code == 0) = true
  · have he : x.opEnds q o code = (x.opTold q o code).endFollow (o.ended code) (code == 0) := by
      unfold Die.opEnds
      rw [if_pos hc]
    obtain ⟨c', v', hf, hv', hk⟩ := (x.opTold q o code).endFollow_eq (o.ended code) (code == 0)
    rw [he]
    refine ⟨c', v', x.cpResume, x.rcpResume, x.arrays, ?_, ?_, fun r => ?_, ?_⟩
    · rw [hf, ht]
    · rw [if_pos hc]
      exact ⟨rfl, rfl, rfl⟩
    · rw [hv', ht, ← hv]
      rfl
    · rw [hk, hr]
  · have he : x.opEnds q o code
        = ((x.opTold q o code).keepResume q (o.ended code) (o.st != .queued)).endFollow (o.ended code) (code == 0) := by
      unfold Die.opEnds
      rw [if_neg hc]
    obtain ⟨r, s, a, hw⟩ := (x.opTold q o code).keepResume_eq q (o.ended code) (o.st != .queued)
    obtain ⟨c', v', hf, hv', hk⟩ := ((x.opTold q o code).keepResume q (o.ended code) (o.st != .queued)).endFollow_eq
      (o.ended code) (code == 0)
    rw [he]
    refine ⟨c', v', r, s, a, ?_, ?_, fun r => ?_, ?_⟩
    · rw [hf, hw, ht]
    · rw [if_neg hc, hw]
      exact ⟨rfl, rfl⟩
    · rw [hv', hw, ht, ← hv]
      rfl
    · rw [hk, hw]
      exact hr

/-- No operation waits any more for one that has ended. -/
theorem Die.opEnds_deps (x : Die) (q : Fin 19) (o : Op) (code : BitVec 8) (r : Fin 19) {p : Op}
    (hp : p ∈ ((x.opEnds q o code).queues)[r]) : Dep.ref o.id ∉ p.deps := by
  obtain ⟨c, v, _, _, _, he, -, hv, -⟩ := x.opEnds_eq q o code
  rw [he] at hp
  replace hp : p ∈ v[r] := hp
  rw [hv, List.map_map] at hp
  obtain ⟨a, -, rfl⟩ := List.mem_map.mp hp
  have hd : Dep.ref o.id ∉ (Op.sees o.id (endToken code) a).deps := by
    unfold Op.sees
    intro hm
    obtain ⟨e, -, he⟩ := List.mem_map.mp hm
    split at he
    · cases he
    case isFalse hne => exact hne (by rw [he]; exact beq_self_eq_true _)
  obtain ⟨b, hb⟩ := Op.hears_eq (o.follow && code != 0) o.id (Op.sees o.id (endToken code) a)
  dsimp only [Function.comp]
  rw [hb]
  exact hd

/-- The operation itself, once it has ended. -/
theorem Die.opEnds_op (ho : x.op q o.id = some o) (code : BitVec 8) :
    ∃ p, (x.opEnds q o code).op q o.id = some p ∧ p.st = .ended ∧ p.err = code := by
  obtain ⟨c, v, _, _, _, he, -, hv, -⟩ := x.opEnds_eq q o code
  have hid : ∀ p : Op, (if o.follow && code != 0 then (Op.sees o.id (endToken code) p).hears o.id
      else Op.sees o.id (endToken code) p).id = p.id := fun p => by
    obtain ⟨b, hb⟩ := Op.hears_eq (o.follow && code != 0) o.id (Op.sees o.id (endToken code) p)
    rw [hb]
    rfl
  have hop : (x.opEnds q o code).op q o.id = some (if o.follow && code != 0 then
      (Op.sees o.id (endToken code) (o.ended code)).hears o.id else Op.sees o.id (endToken code) (o.ended code)) := by
    rw [he]
    change (v[q]).find? (fun p => p.id == o.id) = _
    rw [hv, List.map_map, List.find?_map, if_pos rfl]
    have hp : ((fun p : Op => p.id == o.id) ∘ ((fun p => if o.follow && code != 0 then p.hears o.id else p) ∘ Op.sees o.id (endToken code)))
        = fun p => p.id == o.id := funext fun p => congrArg (· == o.id) (hid p)
    rw [hp, find_replaceIf (fun p : Op => p.id == o.id) (fun _ => o.ended code) fun _ _ => beq_self_eq_true o.id]
    change Option.map _ (Option.map _ (x.op q o.id)) = _
    rw [ho]
    rfl
  obtain ⟨b, hb⟩ := Op.hears_eq (o.follow && code != 0) o.id (Op.sees o.id (endToken code) (o.ended code))
  rw [hb] at hop
  exact ⟨_, hop, rfl, rfl⟩

end

end Sys2Proof.Machine
end

