-- ==== Sys2Proof/Proofs/PanelEngine.lean ====
section
/-! PROOFS. The panel engine's steps (R351 to R358): multicasts at their arrival and landing, and the barriers. -/

namespace Sys2Proof.Machine

section
variable {s t : State}

/-! ### Multicasts -/

/-- Whether a window admits a multicast (R353). -/
def MWin.admits (w : MWin) (m : McstMsg) : Prop := w.valid = true ∧ w.job = m.job ∧ 1024 * w.base.toNat % 2 ^ w.size = 0

theorem MWin.admits_iff (w : MWin) (m : McstMsg) :
    (!w.valid || w.job != m.job || 1024 * w.base.toNat % 2 ^ w.size != 0) = true ↔ ¬w.admits m := by
  unfold MWin.admits
  simp only [Bool.or_eq_true, Bool.not_eq_true', bne_iff_ne, ← Bool.not_eq_true]
  tauto

theorem State.mcstArrival_dropped {w : MWin} (hw : (s.die s.ev.die).mwin[s.ev.mcst.win] = w) (h : ¬w.admits s.ev.mcst) :
    exec .mcstArrival s = .next (s.setDie s.ev.die { s.die s.ev.die with
      mwin := vset (s.die s.ev.die).mwin s.ev.mcst.win { w with drops := satInc16 w.drops } }) := by
  subst hw
  exact congrArg Host.Outcome.next (if_pos ((MWin.admits_iff _ _).mpr h))

/-- The die to which a multicast has come: a late one marks its window. -/
theorem State.TurnsDie.lateMark {w : MWin} (m : McstMsg) (hw : (s.die s.ev.die).mwin[m.win] = w) (late : Bool) :
    s.TurnsDie (if late then s.modMWin s.ev.die m.win fun w => { w with syncLost := true } else s) s.ev.die
      { s.die s.ev.die with
          mwin := if late then vset (s.die s.ev.die).mwin m.win { w with syncLost := true } else (s.die s.ev.die).mwin } := by
  subst hw
  cases late
  · exact .refl s _
  · exact (TurnsDie.refl s s.ev.die).modDie fun x => { x with mwin := vmod x.mwin m.win fun w => { w with syncLost := true } }

/-- A landing joins those that await it, at the cycle it is due in. -/
theorem State.mcstArrival_admitted {w : MWin} (hw : (s.die s.ev.die).mwin[s.ev.mcst.win] = w) (h : w.admits s.ev.mcst)
    {late : Bool} (hl : late = (decide (s.ev.mcst.land < s.cycle) || !s.panel.locked)) :
    ∃ t, exec .mcstArrival s = .next t ∧ (∀ e, e ≠ s.ev.die → t.die e = s.die e) ∧ s.SameBytes t
      ∧ (t.die s.ev.die).mcst = (s.die s.ev.die).mcst ++ [{ msg := s.ev.mcst, next := if late then s.cycle else s.ev.mcst.land }]
      ∧ (t.die s.ev.die).mwin
        = (if late then vset (s.die s.ev.die).mwin s.ev.mcst.win { w with syncLost := true } else (s.die s.ev.die).mwin)
      ∧ { due := if late then s.cycle else s.ev.mcst.land, act := .mcstLanding, arg := { die := s.ev.die } } ∈ t.agenda := by
  have hm := TurnsDie.lateMark s.ev.mcst hw late
  have hn : ¬(!w.valid || w.job != s.ev.mcst.job || 1024 * w.base.toNat % 2 ^ w.size != 0) = true := fun hb =>
    (MWin.admits_iff _ _).mp hb h
  subst hw
  have hu := hm.modDie fun x =>
    { x with mcst := x.mcst ++ [{ msg := s.ev.mcst, next := if late then s.cycle else s.ev.mcst.land }] }
  generalize hg : (if late then s.modMWin s.ev.die s.ev.mcst.win fun w => { w with syncLost := true } else s).modDie s.ev.die
    (fun x => { x with mcst := x.mcst ++ [{ msg := s.ev.mcst, next := if late then s.cycle else s.ev.mcst.land }] }) = u at hu
  have he : exec .mcstArrival s
      = .next (u.schedOnce (if late then s.cycle else s.ev.mcst.land) .mcstLanding { die := s.ev.die }) := by
    refine (congrArg Host.Outcome.next (if_neg hn)).trans ?_
    rw [← hl, ← hg]
    cases late <;> rfl
  have ht := hu.schedOnce (if late then s.cycle else s.ev.mcst.land) .mcstLanding { die := s.ev.die }
  obtain ⟨m, hs, hin⟩ := State.schedOnce_eq (s := u) (if late then s.cycle else s.ev.mcst.land) .mcstLanding { die := s.ev.die }
  refine ⟨_, he, fun e hne => ht.die_other hne, (ht.quiet (Die.store_with (h := rfl) ..)).1, ?_, ?_, ?_⟩
  · rw [ht.die]
  · rw [ht.die]
  · rw [hs]
    exact List.mem_append.mpr ((hin _).mpr (Or.inr rfl))

/-- What a block of bytes that a write covers holds. -/
theorem lastWrite_block (a n : Nat) (f : Nat → Byte) (y : Nat) (b : Byte) :
    lastWrite ((List.range n).map fun k => (a + k, f k)) y b = if a ≤ y ∧ y < a + n then f (y - a) else b := by
  induction n with
  | zero =>
    rw [if_neg (by omega)]
    rfl
  | succ n ih =>
    rw [List.range_succ, List.map_append, List.map_singleton, lastWrite_append, ih]
    by_cases hy : a + n = y
    · subst hy
      simp
    · rw [if_neg (by simpa using hy)]
      exact if_congr (by omega) rfl rfl

/-- The bytes of a multicast stand in a row in the banks. -/
theorem mcstBytes_eq (w : MWin) (m : McstMsg) {n a : Nat} (hn : n = if m.wide then 8 else 4)
    (ha : a = 1024 * w.base.toNat + (m.off.toNat - m.off.toNat % n) % 2 ^ w.size) (hf : a + n ≤ Config.foldBase) :
    mcstBytes w m = (List.range n).map fun k => (a + k, m.data.extractLsb' (8 * k) 8) := by
  have hb : mcstBytes w m = ((List.range n).map fun k => (a + k) % Config.bankBytes).zip (bytesOfNat n m.data.toNat) := by
    subst ha hn
    rfl
  have hle : Config.foldBase ≤ Config.bankBytes := by decide
  rw [hb, bytesOfNat_eq, List.map_congr_left (g := fun k => a + k) fun k hk => Nat.mod_eq_of_lt
    (by have := List.mem_range.mp hk; omega)]
  simp only [ofNat_div_eq_extractLsb']
  rw [List.zip_map']

/-- A die to which a multicast lands. -/
def Die.mcstLands (x : Die) (m : McstMsg) : Die :=
  let b := mcstBytes x.mwin[m.win] m
  let y := (x.bankWrite b).use (b.map (·.1))
  if m.stamp then y.stampAll (tilesOf (b.map (·.1))) (3 + 128 * m.win.val + m.sender.val) m.tag else y

theorem Die.mcstLands_eq {z : Die} {m : McstMsg} (hb : z.bankBad = []) {l : List (Nat × Byte)} (hl : mcstBytes z.mwin[m.win] m = l) :
    ∃ us st, z.mcstLands m = { z.setBytes l with used := us, stamps := st } ∧ (m.stamp = false → st = z.stamps) := by
  obtain ⟨bk, fo, e⟩ := Die.setBytes_parts l z
  unfold Die.mcstLands
  rw [hl]
  dsimp only
  rw [Die.bankWrite_clean hb]
  split
  case isTrue hs =>
    rw [Die.stampAll_eq]
    exact ⟨_, _, rfl, fun hf => absurd hs (ne_true_of_eq_false hf)⟩
  case isFalse =>
    refine ⟨((z.setBytes l).use (l.map (·.1))).used, z.stamps, ?_, fun _ => rfl⟩
    rw [e]
    rfl

theorem State.exec_mcstLanding {m : McstMsg} {k : Nat} (h : (s.die s.ev.die).mcst = [{ msg := m, next := k }]) (hk : k ≤ s.cycle) :
    exec .mcstLanding s = .next (s.setDie s.ev.die (({ s.die s.ev.die with mcst := [] } : Die).mcstLands m)) := by
  have hd : (s.die s.ev.die).dueMcst s.cycle = [m] := by
    unfold Die.dueMcst
    rw [h, List.filter_cons_of_pos (by simpa using hk)]
    rfl
  have hf : (s.die s.ev.die).mcst.filter (fun e => !decide (e.next ≤ s.cycle)) = [] := by
    rw [h, List.filter_cons_of_neg (by simpa using hk)]
    rfl
  change Host.Outcome.next (s.setDie s.ev.die (((s.die s.ev.die).dueMcst s.cycle).foldl Die.mcstLands
    { s.die s.ev.die with mcst := (s.die s.ev.die).mcst.filter fun e => !decide (e.next ≤ s.cycle) })) = _
  rw [hd, hf]
  rfl

theorem State.mcstLanding_spec {m : McstMsg} {k : Nat} (h : (s.die s.ev.die).mcst = [{ msg := m, next := k }]) (hk : k ≤ s.cycle)
    (hw : (s.die s.ev.die).wf = true) (hb : (s.die s.ev.die).bankBad = []) {n a : Nat} (hn : n = if m.wide then 8 else 4)
    (ha : a = 1024 * ((s.die s.ev.die).mwin[m.win]).base.toNat + (m.off.toNat - m.off.toNat % n) % 2 ^ ((s.die s.ev.die).mwin[m.win]).size)
    (hf : a + n ≤ Config.foldBase) :
    ∃ t, exec .mcstLanding s = .next t ∧ (∀ e, e ≠ s.ev.die → t.die e = s.die e) ∧ t.mem = s.mem ∧ (t.die s.ev.die).mcst = []
      ∧ (∀ y, y < Config.bankBytes → (t.die s.ev.die).bankByte y
        = if a ≤ y ∧ y < a + n then m.data.extractLsb' (8 * (y - a)) 8 else (s.die s.ev.die).bankByte y)
      ∧ (m.stamp = false → (t.die s.ev.die).stamps = (s.die s.ev.die).stamps) := by
  let l := (List.range n).map fun k => (a + k, m.data.extractLsb' (8 * k) 8)
  have hp : ∀ q ∈ l, q.1 < Config.foldBase := fun q hq => by
    obtain ⟨j, hj, rfl⟩ := List.mem_map.mp hq
    have := List.mem_range.mp hj
    simp only
    omega
  obtain ⟨us, st, e, hst⟩ := Die.mcstLands_eq (z := { s.die s.ev.die with mcst := [] }) (m := m) hb (mcstBytes_eq _ m hn ha hf)
  have ht := TurnsDie.setDie s s.ev.die (({ s.die s.ev.die with mcst := [] } : Die).mcstLands m)
  obtain ⟨bk, fo, hz⟩ := Die.setBytes_parts l { s.die s.ev.die with mcst := [] }
  refine ⟨_, State.exec_mcstLanding h hk, fun e hne => ht.die_other hne, rfl, ?_, fun y hy => ?_, fun hs => ?_⟩
  · rw [ht.die, e]
    exact congrArg Die.mcst hz
  · rw [ht.die, e]
    exact (Die.bankByte_setBytes (x := { s.die s.ev.die with mcst := [] }) hw l hp hy).trans (lastWrite_block _ _ _ _ _)
  · rw [ht.die, e]
    exact hst hs

/-! ### Barriers -/

theorem State.modChan_congr {s : State} {k : Fin 16} {f g : PChan → PChan} (h : f (s.chan k) = g (s.chan k)) :
    s.modChan k f = s.modChan k g :=
  congrArg (fun c => s.modPanel fun p => { p with chans := vset p.chans k c }) h

@[simp] theorem State.chan_modChan (s : State) (k : Fin 16) (f : PChan → PChan) : (s.modChan k f).chan k = f (s.chan k) := vset_same _ _ _

theorem State.rootDelay_pos (s : State) (k : Nat) : 1 ≤ s.rootDelay k := by
  unfold State.rootDelay
  dsimp only
  split <;> omega

theorem State.rootDelay_locked (h : s.panel.locked = true) (k : Nat) : s.rootDelay k ≤ max 1 s.panel.pbMin.toNat := by
  unfold State.rootDelay
  rw [if_pos h]
  have := Nat.mod_lt (Config.delay (s.freeCtr + k)) (show 0 < max 1 s.panel.pbMin.toNat by omega)
  omega

theorem State.pbarArrivalSend_spec {o : Op} {ch : Fin 16} (ho : s.op s.ev.die 18 s.ev.id = some o) (hc : pbarChan o.ins = some ch)
    (hr : o.st = .running) (hz : o.steps = 0) : ∃ t k, exec .pbarArrivalSend s = .next t ∧ s.SameBytes t
      ∧ (∀ e, e ≠ s.ev.die → t.die e = s.die e) ∧ s.cycle < k
      ∧ (s.panel.locked = true → k ≤ s.cycle + max 1 s.panel.pbMin.toNat)
      ∧ (t.chan ch).inbox = (s.chan ch).inbox ++ [(k, s.ev.die, o.id)]
      ∧ { due := k, act := .pbarRootCount, arg := { unit := ch.val } } ∈ t.agenda := by
  let u := (s.takeFree.modOp s.ev.die qPanel o.id fun o => { o with steps := 1 }).modChan ch fun c =>
    { c with inbox := c.inbox ++ [(s.cycle + s.rootDelay 0, s.ev.die, o.id)] }
  have he : exec .pbarArrivalSend s = .next (u.schedOnce (s.cycle + s.rootDelay 0) .pbarRootCount { unit := ch.val }) := by
    have hb : (s.op s.ev.die qPanel s.ev.id).bind (fun o => (pbarChan o.ins).map fun ch => (o, ch)) = some (o, ch) := by
      rw [show s.op s.ev.die qPanel s.ev.id = some o from ho]
      simp [hc]
    change Host.Outcome.next _ = _
    rw [hb]
    dsimp only
    rw [if_neg (by rw [hr, hz]; decide)]
  have hu : s.TurnsDie u s.ev.die ((s.die s.ev.die).modOp qPanel o.id fun o => { o with steps := 1 }) :=
    (((TurnsDie.refl s s.ev.die).takeFree).modDie fun x => x.modOp qPanel o.id fun o => { o with steps := 1 }).of_dies rfl rfl
  have ht := hu.schedOnce (s.cycle + s.rootDelay 0) .pbarRootCount { unit := ch.val }
  have hq := ht.quiet (Die.store_with (h := rfl) ..)
  obtain ⟨m, hm, hin⟩ := State.schedOnce_eq (s := u) (s.cycle + s.rootDelay 0) .pbarRootCount { unit := ch.val }
  refine ⟨_, s.cycle + s.rootDelay 0, he, hq.1, hq.2, ?_, fun hl => ?_, ?_, ?_⟩
  · have := s.rootDelay_pos 0
    omega
  · have := State.rootDelay_locked hl 0
    omega
  · rw [hm]
    exact congrArg PChan.inbox (State.chan_modChan _ ch _)
  · rw [hm]
    exact List.mem_append.mpr ((hin _).mpr (Or.inr rfl))

theorem State.exec_pbarRootCount {ch : Fin 16} {k : Nat} {a : DieId × Nat} (hu : s.ev.unit = ch.val)
    (hi : (s.chan ch).inbox = [(k, a)]) (hk : k ≤ s.cycle) :
    exec .pbarRootCount s = .next ((s.modChan ch fun c => { c with inbox := [] }).countArrival ch a) := by
  have hc : Fin.ofNat 16 s.ev.unit = ch := by rw [hu]; exact Fin.ext (Nat.mod_eq_of_lt ch.isLt)
  have hf : (s.chan ch).inbox.filter (fun e => decide (e.1 ≤ s.cycle)) = [(k, a)] := by
    rw [hi, List.filter_cons_of_pos (by simpa using hk)]
    rfl
  have hn : (s.chan ch).inbox.filter (fun e => !decide (e.1 ≤ s.cycle)) = [] := by
    rw [hi, List.filter_cons_of_neg (by simpa using hk)]
    rfl
  have hg : (s.modChan ch fun c => { c with inbox := c.inbox.filter fun e => !decide (e.1 ≤ s.cycle) })
      = s.modChan ch fun c => { c with inbox := [] } := State.modChan_congr (by rw [hn])
  have he : exec .pbarRootCount s = .next ((((s.chan ch).inbox.filter fun e => decide (e.1 ≤ s.cycle)).foldl
      (fun l e => insertArrival e.2 l) []).foldl (fun s a => s.countArrival ch a)
      (s.modChan ch fun c => { c with inbox := c.inbox.filter fun e => !decide (e.1 ≤ s.cycle) })) := by
    rw [← hc]
    rfl
  rw [he, hf, hg]
  rfl

/-- The releases of a barrier go to the dies that have arrived (R357). -/
theorem State.releases_eq (l : List (DieId × Nat)) : ∀ s : State,
    l.foldl (fun s e => s.sched (s.cycle + s.releaseWait e.1) .pbarRelease { die := e.1, id := e.2 }) s
      = { s with agenda := s.agenda ++ l.map fun e =>
            { due := s.cycle + s.releaseWait e.1, act := .pbarRelease, arg := { die := e.1, id := e.2 } } } := by
  induction l with
  | nil => intro s; simp
  | cons a l ih =>
    intro s
    rw [List.foldl_cons, ih]
    simp only [State.sched, List.map_cons, List.append_assoc, List.singleton_append]
    rfl

theorem State.countArrival_waits {ch : Fin 16} {a : DieId × Nat}
    (h : (s.chan ch).expect = 0 ∨ ((s.chan ch).count + 1).toNat < (s.chan ch).expect.toNat) :
    s.countArrival ch a = s.modChan ch fun c => { c with count := c.count + 1, counted := c.counted ++ [a] } := by
  unfold State.countArrival
  dsimp only
  rw [if_neg]
  · exact State.modChan_congr rfl
  · obtain h | h := h
    · simp [h]
    · simp only [Bool.and_eq_true, decide_eq_true_eq, not_and]
      intro _
      omega

theorem State.countArrival_releases {ch : Fin 16} {a : DieId × Nat} (h0 : (s.chan ch).expect ≠ 0)
    (h : (s.chan ch).expect.toNat ≤ ((s.chan ch).count + 1).toNat) :
    ∃ m, s.countArrival ch a = { s.modChan ch fun c => { c with
        count := c.count + 1 - c.expect, releases := c.releases + 1, counted := [] } with
      agenda := s.agenda ++ m, freeCtr := s.freeCtr + 128 }
      ∧ ∀ e ∈ (s.chan ch).counted ++ [a],
        { due := s.cycle + s.releaseWait e.1, act := .pbarRelease, arg := { die := e.1, id := e.2 } } ∈ m := by
  refine ⟨((s.chan ch).counted ++ [a]).map fun e =>
    { due := s.cycle + s.releaseWait e.1, act := .pbarRelease, arg := { die := e.1, id := e.2 } }, ?_,
    fun e he => List.mem_map.mpr ⟨e, he, rfl⟩⟩
  unfold State.countArrival
  dsimp only
  rw [if_pos (by simpa using ⟨h0, h⟩), State.releases_eq]
  rfl

theorem State.releaseWait_pos (s : State) (d : DieId) : 1 ≤ s.releaseWait d := by
  have := s.rootDelay_pos d.val
  unfold State.releaseWait
  dsimp only
  split <;> omega

theorem State.releaseWait_locked (h : s.panel.locked = true) (d : DieId) : (s.die d).pbLat.toNat ≤ s.releaseWait d := by
  unfold State.releaseWait
  rw [if_pos h]
  exact Nat.le_max_right _ _

theorem State.pbarRootCount_spec {ch : Fin 16} {k : Nat} {a : DieId × Nat} (hu : s.ev.unit = ch.val)
    (hi : (s.chan ch).inbox = [(k, a)]) (hk : k ≤ s.cycle) :
    let c := s.chan ch
    (c.expect = 0 ∨ (c.count + 1).toNat < c.expect.toNat → ∃ t, exec .pbarRootCount s = .next t ∧ t.dies = s.dies
        ∧ t.agenda = s.agenda ∧ t.chan ch = { c with count := c.count + 1, inbox := [], counted := c.counted ++ [a] })
      ∧ (c.expect ≠ 0 → c.expect.toNat ≤ (c.count + 1).toNat → ∃ t, exec .pbarRootCount s = .next t ∧ t.dies = s.dies
        ∧ t.chan ch = { c with count := c.count + 1 - c.expect, releases := c.releases + 1, inbox := [], counted := [] }
        ∧ ∃ w : DieId → Nat, (∀ e, 1 ≤ w e ∧ (s.panel.locked = true → (s.die e).pbLat.toNat ≤ w e))
            ∧ ∀ e ∈ c.counted ++ [a], { due := s.cycle + w e.1, act := .pbarRelease, arg := { die := e.1, id := e.2 } } ∈ t.agenda) := by
  intro c
  rw [State.exec_pbarRootCount hu hi hk]
  let r := s.modChan ch fun c => { c with inbox := [] }
  have hr : r.chan ch = { c with inbox := [] } := State.chan_modChan _ _ _
  refine ⟨fun h => ⟨_, rfl, ?_⟩, fun h0 h => ⟨_, rfl, ?_⟩⟩
  · rw [State.countArrival_waits (s := r) (by rw [hr]; exact h)]
    refine ⟨rfl, rfl, ?_⟩
    rw [State.chan_modChan, hr]
  · obtain ⟨m, hm, hin⟩ := State.countArrival_releases (s := r) (a := a) (by rw [hr]; exact h0) (by rw [hr]; exact h)
    rw [hm]
    refine ⟨rfl, ?_, s.releaseWait, fun e => ⟨s.releaseWait_pos e, fun hl => State.releaseWait_locked hl e⟩, fun e he => ?_⟩
    · refine (State.chan_modChan r ch _).trans ?_
      rw [hr]
    · rw [hr] at hin
      exact List.mem_append_right _ (hin e he)

/-- A barrier's operation ends at its die when its release comes. -/
theorem State.pbarRelease_spec {o : Op} (ho : s.op s.ev.die 18 s.ev.id = some o) (hne : o.st ≠ .ended) :
    ∃ t, exec .pbarRelease s = .next t ∧ s.SameBytes t ∧ (∀ e, e ≠ s.ev.die → t.die e = s.die e)
      ∧ (∃ p, t.op s.ev.die 18 s.ev.id = some p ∧ p.st = .ended ∧ p.err = 0)
      ∧ (t.die s.ev.die).tokEvts = (s.die s.ev.die).tokEvts ++ [(o.ctx, o.tp, .done)] := by
  have h := (ActsOn.refl s s.ev.die).endOp (q := qPanel) (id := s.ev.id) ho hne 0
  have hid : o.id = s.ev.id := Die.op_id ho
  obtain ⟨p, hp, hst, herr⟩ := Die.opEnds_op (x := s.die s.ev.die) (q := qPanel) (o := o) (by rw [hid]; exact ho) 0
  obtain ⟨c, v, r, u, a, he, -⟩ := (s.die s.ev.die).opEnds_eq qPanel o 0
  refine ⟨_, rfl, State.sameBytes_of_store (State.store_endOp _ _ _ _ _), fun e hne => h.die_other hne, ⟨p, ?_, hst, herr⟩, ?_⟩
  · rw [hid] at hp
    exact (h.op qPanel s.ev.id).trans hp
  · exact (congrArg Die.tokEvts h.die).trans (congrArg Die.tokEvts he)

/-! ### A channel's control word -/

/-- A write of a channel's word, on the die that it is written on and at the root. -/
def State.writeChan (s : State) (d : DieId) (ch : Fin 16) (w : PbCtl) : State :=
  (s.modDie d fun x => { x with pbCtl := vset x.pbCtl ch w }).modChan ch fun c =>
    { c with valid := w.valid, job := w.job, expect := w.expect }

theorem State.exec_pbCtlWrite {ch : Fin 16} (hu : s.ev.unit = ch.val) {w : PbCtl}
    (hw : w = { valid := s.ev.val.getLsbD 63, job := s.ev.val.extractLsb' 48 8, expect := s.ev.val.extractLsb' 0 32 }) :
    exec .pbCtlWrite s = .next (if w.valid then s.writeChan s.ev.die ch w else (s.writeChan s.ev.die ch w).abortChan ch) := by
  have hf : ∀ lo n, BitVec.ofNat n (bits s.ev.val lo n) = s.ev.val.extractLsb' lo n := fun lo n => by
    rw [bits_eq]
    exact BitVec.eq_of_toNat_eq (by simp)
  have hc : Fin.ofNat 16 s.ev.unit = ch := by
    rw [hu]
    exact Fin.ext (Nat.mod_eq_of_lt ch.isLt)
  rw [← bitAt_eq, ← hf, ← hf] at hw
  subst hw
  rw [← hc]
  rfl

/-- The pending operations of a die on a channel fail, when the channel is aborted (R358). -/
def State.abortOn (s : State) (k : Fin 16) (d : DieId) : State :=
  ((s.die d).queues[qPanel]).foldl (fun s o =>
    if pbarChan o.ins == some k && o.st == .running then s.opFails d qPanel o.id 4 else s) s

/-- From `s` to `t` only the agenda has grown. -/
def State.OnlySends (s t : State) : Prop := ∃ m, t = { s with agenda := s.agenda ++ m }

theorem State.OnlySends.refl (s : State) : s.OnlySends s := ⟨[], by simp⟩

theorem State.OnlySends.trans {u : State} (h : s.OnlySends t) (k : t.OnlySends u) : s.OnlySends u := by
  obtain ⟨m, rfl⟩ := h
  obtain ⟨n, rfl⟩ := k
  exact ⟨m ++ n, by simp⟩

theorem State.OnlySends.mem (h : s.OnlySends t) {e : Sched} (he : e ∈ s.agenda) : e ∈ t.agenda := by
  obtain ⟨m, rfl⟩ := h
  exact List.mem_append_left _ he

theorem State.OnlySends.schedOnce (s : State) (due : Nat) (a : Instr) (e : EvArg) :
    s.OnlySends (s.schedOnce due a e) ∧ { due := due, act := a, arg := e } ∈ (s.schedOnce due a e).agenda := by
  obtain ⟨m, hm, hin⟩ := State.schedOnce_eq (s := s) due a e
  rw [hm]
  exact ⟨⟨m, rfl⟩, List.mem_append.mpr ((hin _).mpr (Or.inr rfl))⟩

theorem State.OnlySends.foldl {α : Type} (f : State → α → State) (hf : ∀ (u : State) a, u.OnlySends (f u a)) (l : List α) :
    ∀ s : State, s.OnlySends (l.foldl f s) := by
  induction l with
  | nil => exact fun s => .refl s
  | cons a l ih => exact fun s => (hf s a).trans (ih _)

theorem State.abortOn_sends (k : Fin 16) (d : DieId) (s : State) : s.OnlySends (s.abortOn k d) := by
  refine State.OnlySends.foldl _ (fun u o => ?_) _ _
  split
  · exact (State.OnlySends.schedOnce u _ _ _).1
  · exact .refl u

theorem State.abortOn_mem (k : Fin 16) (d : DieId) {o : Op} (hc : pbarChan o.ins = some k) (hr : o.st = .running) (l : List Op) :
    ∀ s : State, o ∈ l → { due := s.cycle, act := .engineOpError, arg := { die := d, eng := 18, id := o.id, code := 4 } }
      ∈ (l.foldl (fun s o => if pbarChan o.ins == some k && o.st == .running then s.opFails d qPanel o.id 4 else s) s).agenda := by
  have hs : ∀ (u : State) (p : Op),
      u.OnlySends (if pbarChan p.ins == some k && p.st == .running then u.opFails d qPanel p.id 4 else u) := fun u p => by
    split
    · exact (State.OnlySends.schedOnce u _ _ _).1
    · exact .refl u
  induction l with
  | nil => exact fun s h => absurd h List.not_mem_nil
  | cons p l ih =>
    intro s h
    obtain rfl | h := List.mem_cons.mp h
    · refine (State.OnlySends.foldl _ hs l _).mem ?_
      dsimp only
      rw [if_pos (by simp [hc, hr])]
      exact (State.OnlySends.schedOnce s s.cycle .engineOpError { die := d, eng := qPanel, id := o.id, code := 4 }).2
    · have hn := ih (if pbarChan p.ins == some k && p.st == .running then s.opFails d qPanel p.id 4 else s) h
      obtain ⟨m, hm⟩ := hs s p
      rw [show (if pbarChan p.ins == some k && p.st == .running then s.opFails d qPanel p.id 4 else s).cycle = s.cycle by rw [hm]] at hn
      exact hn

theorem State.abortAll_spec (k : Fin 16) (l : List DieId) : ∀ s : State, s.OnlySends (l.foldl (fun s d => s.abortOn k d) s)
    ∧ ∀ d ∈ l, ∀ o ∈ (s.die d).queues[qPanel], pbarChan o.ins = some k → o.st = .running →
      { due := s.cycle, act := .engineOpError, arg := { die := d, eng := 18, id := o.id, code := 4 } }
        ∈ (l.foldl (fun s d => s.abortOn k d) s).agenda := by
  induction l with
  | nil => exact fun s => ⟨.refl s, fun _ h => absurd h List.not_mem_nil⟩
  | cons e l ih =>
    intro s
    have h1 := s.abortOn_sends k e
    obtain ⟨h2, hin⟩ := ih (s.abortOn k e)
    refine ⟨h1.trans h2, fun d hd o ho hc hr => ?_⟩
    obtain rfl | hd := List.mem_cons.mp hd
    · exact h2.mem (State.abortOn_mem k d hc hr _ s ho)
    · obtain ⟨m, hm⟩ := h1
      have hcy : (s.abortOn k e).cycle = s.cycle := by rw [hm]
      have hdi : (s.abortOn k e).die d = s.die d := by
        rw [hm]
        rfl
      have hd := hin d hd o (by rw [hdi]; exact ho) hc hr
      rw [hcy] at hd
      exact hd

theorem State.pbCtlWrite_spec {ch : Fin 16} (hu : s.ev.unit = ch.val) :
    let w : PbCtl := { valid := s.ev.val.getLsbD 63, job := s.ev.val.extractLsb' 48 8, expect := s.ev.val.extractLsb' 0 32 }
    let c := { s.chan ch with valid := w.valid, job := w.job, expect := w.expect }
    let y := { s.die s.ev.die with pbCtl := vset (s.die s.ev.die).pbCtl ch w }
    (s.ev.val.getLsbD 63 = true → ∃ t, exec .pbCtlWrite s = .next t ∧ t.chan ch = c ∧ t.agenda = s.agenda
        ∧ t.dies = (s.setDie s.ev.die y).dies)
      ∧ (s.ev.val.getLsbD 63 = false → ∃ t, exec .pbCtlWrite s = .next t ∧ t.chan ch = { c with count := 0, inbox := [], counted := [] }
        ∧ t.dies = (s.setDie s.ev.die y).dies
        ∧ ∀ (e : DieId), ∀ o ∈ (s.die e).queues[qPanel], pbarChan o.ins = some ch → o.st = .running →
            { due := s.cycle, act := .engineOpError, arg := { die := e, eng := 18, id := o.id, code := 4 } } ∈ t.agenda) := by
  intro w c y
  rw [State.exec_pbCtlWrite hu (w := w) rfl]
  refine ⟨fun hv => ⟨_, rfl, ?_⟩, fun hv => ⟨_, rfl, ?_⟩⟩
  · rw [if_pos hv]
    exact ⟨State.chan_modChan _ _ _, rfl, rfl⟩
  · rw [if_neg (ne_true_of_eq_false hv)]
    let u := (s.writeChan s.ev.die ch w).modChan ch fun c => { c with count := 0, inbox := [], counted := [] }
    obtain ⟨hs, hin⟩ := State.abortAll_spec ch (List.finRange 128) u
    have he : (s.writeChan s.ev.die ch w).abortChan ch = (List.finRange 128).foldl (fun s d => s.abortOn ch d) u := rfl
    rw [he]
    obtain ⟨m, hm⟩ := hs
    refine ⟨?_, ?_, fun e o ho hc hr => ?_⟩
    · rw [hm]
      refine (State.chan_modChan (s.writeChan s.ev.die ch w) ch _).trans ?_
      rw [State.writeChan, State.chan_modChan]
      rfl
    · rw [hm]
      rfl
    · refine hin e (List.mem_finRange e) o ?_ hc hr
      change o ∈ ((s.modDie s.ev.die fun x => { x with pbCtl := vset x.pbCtl ch w }).die e).queues[qPanel]
      rw [State.die_modDie_get]
      split
      · next heq => subst heq; exact ho
      · exact ho

end

end Sys2Proof.Machine
end

