-- ==== Sys2Proof/Proofs/Domain.lean ====
section
/-! PROOFS. The synchronous domain and changes of service (R335, R349, R350): what a calibration and its end set, and what
follows a die or a stack entering or leaving. -/

namespace Sys2Proof.Machine

section
variable {s t u : State}

@[simp] theorem State.schedLater_panel (s : State) (a : Instr) (e : EvArg) : (s.schedLater a e).panel = s.panel := (rfl)

@[simp] theorem State.schedLater_stations (s : State) (a : Instr) (e : EvArg) : (s.schedLater a e).stations = s.stations := (rfl)

@[simp] theorem State.schedLater_cycle (s : State) (a : Instr) (e : EvArg) : (s.schedLater a e).cycle = s.cycle := (rfl)

@[simp] theorem State.schedLater_dies (s : State) (a : Instr) (e : EvArg) : (s.schedLater a e).dies = s.dies := (rfl)

theorem State.schedLater_agenda (s : State) (a : Instr) (e : EvArg) :
    (s.schedLater a e).agenda = s.agenda ++ [{ due := s.cycle + 1 + Config.delay s.freeCtr, act := a, arg := e }] := (rfl)

/-! ### Calls for steps that are no work inside a die -/

/-- From `s` to `t` steps have been put on the agenda that no reset of a die ends, and free values taken. -/
def State.Calls (s t : State) : Prop :=
  ∃ m f, t = { s with agenda := s.agenda ++ m, freeCtr := f } ∧ ∀ e ∈ m, ∀ d, e.inside d = false

namespace State.Calls

theorem refl (s : State) : s.Calls s := ⟨[], s.freeCtr, by simp, fun _ h => absurd h List.not_mem_nil⟩

theorem trans (h : s.Calls t) (k : t.Calls u) : s.Calls u := by
  obtain ⟨m, f, rfl, hm⟩ := h
  obtain ⟨n, g, rfl, hn⟩ := k
  exact ⟨m ++ n, g, by simp, fun e he => (List.mem_append.mp he).elim (hm e) (hn e)⟩

theorem foldl {α : Type} (f : State → α → State) (hf : ∀ (u : State) a, u.Calls (f u a)) (l : List α) :
    ∀ s : State, s.Calls (l.foldl f s) := by
  induction l with
  | nil => exact fun s => .refl s
  | cons a l ih => exact fun s => (hf s a).trans (ih _)

theorem schedLater (s : State) {a : Instr} {e : EvArg} (h : ∀ n d, ({ due := n, act := a, arg := e } : Sched).inside d = false) :
    s.Calls (s.schedLater a e) :=
  ⟨[{ due := s.cycle + 1 + Config.delay s.freeCtr, act := a, arg := e }], s.freeCtr + 1, rfl, fun x hx d => by
    rw [List.mem_singleton.mp hx]
    exact h _ d⟩

theorem redeal (s : State) (p : DieId) : s.Calls (s.redeal p) :=
  foldl _ (fun u i => schedLater (a := .channelRedeal) (e := { stack := i }) u fun _ _ => Bool.and_false _) _ s

theorem callElection (s : State) (q : QueueId) : s.Calls (s.callElection q) := by
  unfold State.callElection
  split
  · exact refl s
  · exact schedLater s fun _ _ => Bool.and_false _

theorem leaderGone (s : State) (p : DieId) : s.Calls (s.leaderGone p) := by
  refine foldl _ (fun u q => ?_) _ s
  split
  · exact callElection u q
  · exact refl u

theorem dies (h : s.Calls t) : t.dies = s.dies := by
  obtain ⟨m, f, rfl, -⟩ := h
  rfl

theorem die (h : s.Calls t) (d : DieId) : t.die d = s.die d := by
  obtain ⟨m, f, rfl, -⟩ := h
  rfl

theorem panel (h : s.Calls t) : t.panel = s.panel := by
  obtain ⟨m, f, rfl, -⟩ := h
  rfl

theorem mem (h : s.Calls t) : t.mem = s.mem := by
  obtain ⟨m, f, rfl, -⟩ := h
  rfl

theorem inside (h : s.Calls t) {d : DieId} (hs : ∀ e ∈ s.agenda, e.inside d = false) : ∀ e ∈ t.agenda, e.inside d = false := by
  obtain ⟨m, f, rfl, hm⟩ := h
  exact fun e he => (List.mem_append.mp he).elim (hs e) fun h => hm e h d

end State.Calls

/-! ### Losing the lock -/

/-- From `s` to `t` the domain has lost its lock: each die counts on from a cycle of its own, and a calibration is under way. -/
structure State.Unlocks (s t : State) : Prop where
  panel : t.panel = { s.panel with locked := false }
  mem : t.mem = s.mem
  stations : t.stations = s.stations
  cycle : t.cycle = s.cycle
  base : ∀ p : DieId, (t.die p).syncBase % 128 = p.val
  die : ∀ p : DieId, t.die p = { s.die p with syncBase := (t.die p).syncBase }
  agenda : ∃ k c, s.cycle < k ∧ t.agenda = s.agenda ++ [{ due := k, act := .syncLock, arg := { cal := c } }]

theorem State.unlock_unlocks (s : State) : s.Unlocks s.unlock := by
  have hd : ∀ p : DieId, s.unlock.die p = { s.die p with syncBase := (s.modPanel fun p => { p with locked := false }).freeBase p } :=
    fun p => by
      rw [State.die, State.unlock_dies]
      exact Vector.getElem_ofFn p.isLt
  refine ⟨?_, s.unlock_mem, ?_, ?_, fun p => ?_, fun p => ?_, ?_⟩
  · unfold State.unlock
    extract_lets t dies c
    rw [State.schedLater_panel]
    rfl
  · unfold State.unlock
    extract_lets t dies c
    rw [State.schedLater_stations]
    rfl
  · unfold State.unlock
    extract_lets t dies c
    rw [State.schedLater_cycle]
    rfl
  · rw [hd]
    change (128 * _ + p.val) % 128 = p.val
    rw [Nat.mul_add_mod]
    exact Nat.mod_eq_of_lt p.isLt
  · rw [hd]
  · unfold State.unlock
    extract_lets t dies c
    exact ⟨s.cycle + 1 + Config.delay (t.freeCtr + 512), c, by omega, State.schedLater_agenda _ _ _⟩

theorem State.syncRecal_spec (s : State) : ∃ t k, exec .syncRecal s = .next t ∧ t.panel = { s.panel with locked := false } ∧ s.cycle < k
    ∧ (∃ c, { due := k, act := .syncLock, arg := { cal := c } } ∈ t.agenda)
    ∧ (∀ p : DieId, (t.die p).syncBase % 128 = p.val ∧ t.die p = { s.die p with syncBase := (t.die p).syncBase })
    ∧ t.mem = s.mem := by
  have h := s.unlock_unlocks
  obtain ⟨k, c, hk, ha⟩ := h.agenda
  exact ⟨s.unlock, k, rfl, h.panel, hk, ⟨c, by rw [ha]; exact List.mem_append_right _ (List.mem_singleton.mpr rfl)⟩,
    fun p => ⟨h.base p, h.die p⟩, h.mem⟩

/-! ### Locking -/

theorem State.exec_syncLock_overtaken (h : ∃ e ∈ s.agenda, e.act = .syncLock) : exec .syncLock s = .next s := by
  obtain ⟨e, he, ha⟩ := h
  exact congrArg Host.Outcome.next (if_pos (List.any_eq_true.mpr ⟨e, he, by simp [ha]⟩))

theorem State.not_overtaken (h : ∀ e ∈ s.agenda, e.act ≠ .syncLock) : ¬(s.agenda.any fun e => e.act == .syncLock) = true := by
  rw [List.any_eq_true]
  rintro ⟨e, he, ha⟩
  exact h e he (by simpa using ha)

theorem State.exec_syncLock_early (h : ∀ e ∈ s.agenda, e.act ≠ .syncLock) (hc : s.cycle < s.lockFrom) :
    exec .syncLock s = .next { s with agenda := s.agenda ++ [{ due := s.lockFrom, act := .syncLock, arg := s.ev }] } :=
  congrArg Host.Outcome.next ((if_neg (State.not_overtaken h)).trans (if_pos hc))

theorem foldl_max_le {k : Nat} (l : List Die) (h : ∀ x ∈ l, x.inService = true → x.cycBase ≤ k) :
    ∀ m, m ≤ k → l.foldl (fun m x => if x.inService then max m x.cycBase else m) m ≤ k := by
  induction l with
  | nil => exact fun _ hm => hm
  | cons x l ih =>
    intro m hm
    refine ih (fun y hy => h y (List.mem_cons_of_mem _ hy)) _ ?_
    dsimp only
    split
    · next hi => exact Nat.max_le.mpr ⟨hm, h x List.mem_cons_self hi⟩
    · exact hm

theorem State.lockFrom_le (hc : ∀ p : DieId, (s.die p).inService = true → (s.die p).cycBase ≤ s.cycle)
    (hr : ∀ e ∈ s.agenda, e.act = .dieReset → e.arg.flag = true) : s.lockFrom ≤ s.cycle := by
  have hn : ¬(s.agenda.any fun e => e.act == .dieReset && !e.arg.flag) = true := by
    rw [List.any_eq_true]
    rintro ⟨e, he, ha⟩
    simp only [Bool.and_eq_true, beq_iff_eq, Bool.not_eq_true'] at ha
    rw [hr e he ha.1] at ha
    exact absurd ha.2 (by decide)
  unfold State.lockFrom
  rw [if_neg hn]
  refine foldl_max_le _ (fun x hx => ?_) 0 (Nat.zero_le _)
  obtain ⟨i, hi, rfl⟩ := List.mem_iff_getElem.mp hx
  rw [Vector.length_toList] at hi
  exact hc ⟨i, hi⟩

/-- The dies as a calibration ends: every one counts from this cycle. -/
def State.lockDies (s : State) (c : Calib) : Vector Die 128 := Vector.ofFn fun (p : DieId) =>
  let x := s.dies[p]
  let w : Word := ((c.farLat.find? fun (e : DieId × BitVec 64) => e.1 == p).map fun e => e.2).getD 0
  { x with
      syncBase := s.cycle
      stat := { x.stat with farLat := Vector.ofFn fun k => BitVec.ofNat 16 (bits w (16 * k.val) 16) } }

/-- The state in which a calibration ends: the domain is locked. -/
def State.lockWith (s : State) (c : Calib) : State :=
  { s with dies := s.lockDies c, panel := { s.panel with locked := true, pbRoot := c.root, pbMin := c.pbMin } }

theorem State.lockWith_rest (s : State) (c : Calib) : { s.lockWith c with dies := s.dies, panel := s.panel } = s := by
  unfold State.lockWith
  rfl

theorem State.lockWith_die (s : State) (c : Calib) (p : DieId) :
    ∃ w, (s.lockWith c).die p = { s.die p with syncBase := s.cycle, stat := { (s.die p).stat with farLat := w } } :=
  ⟨_, (Vector.getElem_ofFn p.isLt).trans rfl⟩

theorem State.syncLock_locks (h : ∀ e ∈ s.agenda, e.act ≠ .syncLock)
    (hc : ∀ p : DieId, (s.die p).inService = true → (s.die p).cycBase ≤ s.cycle)
    (hr : ∀ e ∈ s.agenda, e.act = .dieReset → e.arg.flag = true) : ∃ t, exec .syncLock s = .next t
      ∧ t.panel = { s.panel with locked := true, pbRoot := s.ev.cal.root, pbMin := s.ev.cal.pbMin }
      ∧ (∀ p : DieId, (t.die p).syncBase = s.cycle ∧ (t.die p).stat = { (s.die p).stat with farLat := (t.die p).stat.farLat }
        ∧ t.die p = { s.die p with syncBase := s.cycle, stat := (t.die p).stat })
      ∧ { t with dies := s.dies, panel := s.panel } = s := by
  have he : exec .syncLock s = .next (s.lockWith s.ev.cal) := congrArg Host.Outcome.next
    ((if_neg (State.not_overtaken h)).trans (if_neg (Nat.not_lt.mpr (State.lockFrom_le hc hr))))
  refine ⟨_, he, rfl, fun p => ?_, s.lockWith_rest _⟩
  obtain ⟨w, hw⟩ := s.lockWith_die s.ev.cal p
  rw [hw]
  exact ⟨rfl, rfl, rfl⟩

/-! ### Dies and stacks that come and go -/

/-- What follows a change of service: the stacks beside the die deal anew, and the domain has lost its lock. -/
theorem State.dieChanged_unlocks (s : State) (p : DieId) : ∃ r, s.Calls r ∧ r.Unlocks (s.dieChanged p) := by
  refine ⟨_, (State.Calls.redeal s p).trans (?_ : State.Calls _ (if (s.redeal p).works' p then s.redeal p else (s.redeal p).leaderGone p)),
    State.unlock_unlocks _⟩
  split
  · exact .refl _
  · exact .leaderGone _ _

/-- What a change of service leaves of dies and stacks, and that the lock is lost. -/
theorem State.dieChanged_spec (s : State) (p : DieId) : (∀ e : DieId, ∃ k, (s.dieChanged p).die e = { s.die e with syncBase := k })
    ∧ (s.dieChanged p).panel.locked = false
    ∧ ∀ d : DieId, (∀ e ∈ s.agenda, e.inside d = false) → ∀ e ∈ (s.dieChanged p).agenda, e.inside d = false := by
  obtain ⟨r, hc, hu⟩ := s.dieChanged_unlocks p
  refine ⟨fun e => ⟨_, (hu.die e).trans (by rw [hc.die])⟩, ?_, fun d hd e he => ?_⟩
  · rw [hu.panel]
  · obtain ⟨k, c, -, ha⟩ := hu.agenda
    rw [ha] at he
    obtain he | he := List.mem_append.mp he
    · exact hc.inside hd e he
    · rw [List.mem_singleton.mp he]
      exact Bool.and_false _

/-- A die that enters service, entered in every panel table. -/
def State.dieEnters (s : State) (p : DieId) (v : BitVec 8) (inc : BitVec 8) : State :=
  let r := s.modDie p fun x => { x with inService := true, incarnation := inc }
  { r with dies := r.dies.map fun (x : Die) =>
      { x with vtab := vset x.vtab (Fin.ofNat 256 v.toNat) { present := true, lost := false, inc := inc, phys := p } } }

theorem State.dieEnters_die (s : State) (p : DieId) (v : BitVec 8) (inc : BitVec 8) (e : DieId) : (s.dieEnters p v inc).die e =
    { (s.modDie p fun x => { x with inService := true, incarnation := inc }).die e with
      vtab := vset ((s.modDie p fun x => { x with inService := true, incarnation := inc }).die e).vtab (Fin.ofNat 256 v.toNat)
        { present := true, lost := false, inc := inc, phys := p } } :=
  Vector.getElem_map _ e.isLt

theorem State.serviceChange_dieIn {p : DieId} {v inc : BitVec 8} (h : s.ev.service = .dieIn p (some v) inc) :
    ∃ t, exec .serviceChange s = .next t ∧ (t.die p).inService = true ∧ (t.die p).incarnation = inc ∧ t.panel.locked = false
      ∧ (∀ e : DieId, ((t.die e).vtab)[Fin.ofNat 256 v.toNat] = { present := true, lost := false, inc := inc, phys := p })
      ∧ { due := s.cycle + 1, act := .dieReset, arg := { die := p, arr := true } } ∈ t.agenda := by
  have he : exec .serviceChange s = .next (((s.dieEnters p v inc).dieChanged p).sched (s.cycle + 1) .dieReset { die := p, arr := true }) := by
    change Host.Outcome.next _ = _
    rw [h]
    rfl
  obtain ⟨hd, hl, -⟩ := (s.dieEnters p v inc).dieChanged_spec p
  have hd : ∀ e : DieId, ∃ k, (((s.dieEnters p v inc).dieChanged p).sched (s.cycle + 1) .dieReset { die := p, arr := true }).die e
      = { (s.dieEnters p v inc).die e with syncBase := k } := hd
  refine ⟨_, he, ?_, ?_, hl, fun e => ?_, List.mem_append_right _ (List.mem_singleton.mpr rfl)⟩
  · obtain ⟨k, hk⟩ := hd p
    rw [hk, State.dieEnters_die, State.die_modDie]
  · obtain ⟨k, hk⟩ := hd p
    rw [hk, State.dieEnters_die, State.die_modDie]
  · obtain ⟨k, hk⟩ := hd e
    rw [hk, State.dieEnters_die]
    exact vset_same _ _ _

/-! ### Reset of a die -/

theorem State.resetDie_die (s : State) (d : DieId) (stage : BitVec 4) (inc : BitVec 8) :
    ∃ base, (s.resetDie d stage inc).die d = (s.die d).afterReset s.panel base stage inc := by
  unfold State.resetDie
  extract_lets base t u v
  exact ⟨base, (State.die_modDie t d fun x => x.afterReset t.panel base stage inc).trans rfl⟩

theorem State.resetDie_agenda (s : State) (d : DieId) (stage : BitVec 4) (inc : BitVec 8) :
    ∀ e ∈ (s.resetDie d stage inc).agenda, e.inside d = false := by
  unfold State.resetDie
  extract_lets base t u v
  intro e he
  simpa using (List.mem_filter.mp he).2

theorem State.serviceChange_dieOut {p : DieId} (h : s.ev.service = .dieOut p) :
    ∃ t, exec .serviceChange s = .next t ∧ (t.die p).inService = false ∧ (t.die p).seq.inReset = true ∧ (t.die p).boot.stage = 0
      ∧ (t.die p).bank = (s.die p).bank ∧ t.panel.locked = false
      ∧ (∀ n : CtxId, (t.ctx p n).st = .free) ∧ (∀ e ∈ t.agenda, e.inside p = false) := by
  have he : exec .serviceChange s = .next (s.dieOff p) := by
    change Host.Outcome.next _ = _
    rw [h]
  obtain ⟨hd, hl, ha⟩ := ((s.resetDie p 0 ((s.die p).incarnation + 1)).modDie p fun x => { x with inService := false }).dieChanged_spec p
  obtain ⟨k, hk⟩ := hd p
  obtain ⟨base, hb⟩ := s.resetDie_die p 0 ((s.die p).incarnation + 1)
  rw [State.die_modDie, hb] at hk
  replace hk : (s.dieOff p).die p = _ := hk
  refine ⟨_, he, ?_, ?_, ?_, ?_, hl, fun n => ?_, ha p (s.resetDie_agenda p 0 _)⟩
  · rw [hk]
  · rw [hk]
    rfl
  · rw [hk]
    rfl
  · rw [hk]
    rfl
  · unfold State.ctx
    rw [hk]
    exact congrArg Ctx.st (Vector.getElem_replicate n.isLt)

theorem State.serviceChange_stack {i : StackId} (h : s.ev.service = .stackIn i ∨ s.ev.service = .stackOut i) :
    ∃ t, exec .serviceChange s = .next t ∧ ((t.station i).fitted = true ↔ s.ev.service = .stackIn i) ∧ t.panel.locked = false := by
  have hf : ∀ b : Bool, ((s.modStation i fun t => { t with fitted := b }).unlock.station i).fitted = b := fun b => by
    unfold State.station
    rw [(State.unlock_unlocks _).stations]
    exact congrArg Station.fitted (s.station_modStation i _)
  have hl : ∀ b : Bool, (s.modStation i fun t => { t with fitted := b }).unlock.panel.locked = false := fun b => by
    rw [(State.unlock_unlocks _).panel]
  obtain h | h := h
  · have he : exec .serviceChange s = .next (s.modStation i fun t => { t with fitted := true }).unlock := by
      change Host.Outcome.next _ = _
      rw [h]
    exact ⟨_, he, by rw [hf, h]; simp, hl true⟩
  · have he : exec .serviceChange s = .next (s.modStation i fun t => { t with fitted := false }).unlock := by
      change Host.Outcome.next _ = _
      rw [h]
    exact ⟨_, he, by rw [hf, h]; simp, hl false⟩

theorem State.serviceChange_draining {p : DieId} {on : Bool} (h : s.ev.service = .draining p on) :
    ∃ t, exec .serviceChange s = .next t ∧ t.dies = (s.setDie p { s.die p with draining := on }).dies ∧ t.mem = s.mem := by
  have he : exec .serviceChange s = .next (if on then (s.modDie p fun x => { x with draining := on }).leaderGone p
      else s.modDie p fun x => { x with draining := on }) := by
    change Host.Outcome.next _ = _
    rw [h]
  have hc : (s.modDie p fun x => { x with draining := on }).Calls (if on then (s.modDie p fun x => { x with draining := on }).leaderGone p
      else s.modDie p fun x => { x with draining := on }) := by
    split
    · exact .leaderGone _ _
    · exact .refl _
  exact ⟨_, he, hc.dies, hc.mem⟩

end

end Sys2Proof.Machine
end

