-- ==== Sys2Proof/Proofs/QueueReads.lean ====
section
/-! PROOFS. What a command queue's own reads and reports leave of the queue (R345, R346, R349): everything but its state, its
report ring, the record of a loss and what the runtime has denied it. -/

namespace Sys2Proof.Machine

/-- From `s` to `t` queue `q` has at most read and reported. -/
structure State.Tells (s t : State) (q : QueueId) : Prop where
  queue : ∃ st rt rep ls dn, t.queue q = { s.queue q with state := st, rtail := rt, reports := rep, loss := ls, denied := dn }
  cycle : t.cycle = s.cycle

namespace State.Tells

variable {s t u : State} {q : QueueId}

theorem of_panel (h : t.panel = s.panel) (hc : t.cycle = s.cycle) : s.Tells t q :=
  ⟨⟨_, _, _, _, _, by unfold State.queue; rw [h]⟩, hc⟩

theorem refl (s : State) : s.Tells s q := of_panel rfl rfl

theorem trans (h : s.Tells t q) (k : t.Tells u q) : s.Tells u q := by
  obtain ⟨_, _, _, _, _, hq⟩ := h.queue
  obtain ⟨_, _, _, _, _, kq⟩ := k.queue
  exact ⟨⟨_, _, _, _, _, by rw [kq, hq]⟩, k.cycle.trans h.cycle⟩

theorem modQueue (s : State) (q : QueueId) (f : CmdQueue → CmdQueue)
    (h : ∃ st rt rep ls dn, f (s.queue q) = { s.queue q with state := st, rtail := rt, reports := rep, loss := ls, denied := dn }) :
    s.Tells (s.modQueue q f) q := by
  refine ⟨?_, rfl⟩
  rw [State.queue_modQueue]
  exact h

theorem runWrite (s : State) (r : List (Nat × Nat)) (l : List Byte) : s.Tells (s.runWrite r l) q :=
  of_panel (State.Writes.runWrite r s l).panel (State.Writes.runWrite r s l).cycle

theorem translate (s : State) (d : DieId) (root va : Word) (p : Perm) (who : Requester) :
    s.Tells (s.translate d root va p who).1 q := by
  unfold State.translate
  split
  · exact refl s
  · dsimp only
    split
    · exact refl s
    · unfold State.startWalk
      dsimp only
      split
      · exact of_panel rfl rfl
      · exact of_panel rfl rfl

theorem queueRuns (k : Fin 5) (va : Word) (p : Perm) (l : List (Nat × Nat)) : ∀ s : State, s.Tells (s.queueRuns q k va p l).1 q := by
  induction l with
  | nil => exact fun s => refl s
  | cons r l ih =>
    intro s
    unfold State.queueRuns
    dsimp only
    have h := translate (q := q) s (s.queue q).leader (s.queue q).tables (va + BitVec.ofNat 64 r.1) p (.queue q k)
    generalize s.translate (s.queue q).leader (s.queue q).tables (va + BitVec.ofNat 64 r.1) p (.queue q k) = m at h ⊢
    obtain ⟨t, o⟩ := m
    cases o with
    | none => exact h
    | some e =>
      dsimp only
      have ht := h.trans (ih t)
      generalize t.queueRuns q k va p l = m at ht ⊢
      obtain ⟨u, o⟩ := m
      split
      · exact h
      · cases o <;> exact ht

theorem queueTry (s : State) (q : QueueId) (k : Fin 5) (va : Word) (n : Nat) (p : Perm) : s.Tells (s.queueTry q k va n p).1 q := by
  unfold State.queueTry
  split
  · exact modQueue s _ _ ⟨_, _, _, _, _, rfl⟩
  · exact queueRuns _ _ _ _ s

theorem queueWords (q : QueueId) (l : List Word) : ∀ s : State, s.Tells (s.queueWords q l).1 q := by
  induction l with
  | nil => exact fun s => refl s
  | cons a l ih =>
    intro s
    unfold State.queueWords
    have h := queueTry s q 0 a 8 .read
    generalize s.queueTry q 0 a 8 .read = m at h ⊢
    obtain ⟨t, o⟩ := m
    cases o with
    | done r =>
      dsimp only
      have ht := h.trans (ih t)
      generalize t.queueWords q l = m at ht ⊢
      obtain ⟨u, o⟩ := m
      split
      · exact h
      · cases o <;> exact ht
    | fails c => exact h
    | migrating => exact h
    | waits => exact h

theorem putEntry (s : State) (q : QueueId) (e : List Word) : s.Tells (s.putEntry q e).1 q := by
  unfold State.putEntry
  have h := queueTry s q 3 (s.queue q).entryAddr 32 .write
  generalize s.queueTry q 3 (s.queue q).entryAddr 32 .write = m at h ⊢
  obtain ⟨t, o⟩ := m
  cases o with
  | done l => exact h.trans ((runWrite t _ _).trans (modQueue _ _ _ ⟨_, _, _, _, _, rfl⟩))
  | fails c => exact h.trans (modQueue t _ _ ⟨_, _, _, _, _, rfl⟩)
  | migrating => exact h
  | waits => exact h

theorem putLoss (s : State) (q : QueueId) : s.Tells (s.putLoss q) q := by
  unfold State.putLoss
  split
  · exact refl s
  · next a w _ =>
    dsimp only
    have h := queueTry s q 4 a 32 .write
    generalize s.queueTry q 4 a 32 .write = m at h ⊢
    obtain ⟨t, o⟩ := m
    cases o with
    | done l => exact h.trans ((runWrite t _ _).trans (modQueue _ _ _ ⟨_, _, _, _, _, rfl⟩))
    | fails c => exact h.trans (modQueue t _ _ ⟨_, _, _, _, _, rfl⟩)
    | migrating => exact h
    | waits => exact h

theorem queueError (s : State) (q : QueueId) (e : List Word) : s.Tells (s.queueError q e) q := by
  unfold State.queueError
  dsimp only
  split
  · exact modQueue s _ _ ⟨_, _, _, _, _, rfl⟩
  · exact (modQueue s _ _ ⟨_, _, _, _, _, rfl⟩).trans ((modQueue _ _ _ ⟨_, _, _, _, _, rfl⟩).trans
      ((putLoss _ q).trans ⟨⟨_, _, _, _, _, rfl⟩, rfl⟩))

theorem flushReports (q : QueueId) (n : Nat) : ∀ s : State, s.Tells (s.flushReports q n) q := by
  induction n with
  | zero => exact fun s => refl s
  | succ n ih =>
    intro s
    unfold State.flushReports
    split
    · exact refl s
    · exact (modQueue s _ _ ⟨_, _, _, _, _, rfl⟩).trans (ih _)
    · next e es rest _ =>
      split
      · have h := putEntry s q e
        generalize s.putEntry q e = m at h ⊢
        obtain ⟨t, b⟩ := m
        cases b with
        | false => exact h
        | true =>
          dsimp only
          refine h.trans ((modQueue t q (fun c => { c with reports := es :: rest }) ⟨_, _, _, _, _, rfl⟩).trans ?_)
          split
          · exact (queueError _ q e).trans (ih _)
          · exact ih _
      · exact refl s

theorem report (s : State) (q : QueueId) (es : List (List Word)) : s.Tells (s.report q es) q :=
  (modQueue s _ _ ⟨_, _, _, _, _, rfl⟩).trans (flushReports _ _ _)

/-! What a queue keeps. -/

theorem head (h : s.Tells t q) : (t.queue q).head = (s.queue q).head := by
  obtain ⟨_, _, _, _, _, hq⟩ := h.queue
  rw [hq]

theorem recs (h : s.Tells t q) : (t.queue q).recs = (s.queue q).recs := by
  obtain ⟨_, _, _, _, _, hq⟩ := h.queue
  rw [hq]

theorem stage (h : s.Tells t q) : (t.queue q).stage = (s.queue q).stage := by
  obtain ⟨_, _, _, _, _, hq⟩ := h.queue
  rw [hq]

end State.Tells

end Sys2Proof.Machine
end

