-- ==== Sys2Proof/Proofs/QueueSteps.lean ====
section
/-! PROOFS. The steps of command queues (R338 to R349): the writes of the queue block, the election of a leader, and the
packets. -/

namespace Sys2Proof.Machine

/-- A step of a queue that changes no byte, no die and no other queue. -/
structure State.QueueQuiet (s t : State) (q : QueueId) : Prop where
  bytes : s.SameBytes t
  dies : t.dies = s.dies
  others : ∀ p, p ≠ q → t.queue p = s.queue p

section
variable {s t u : State} {q : QueueId}

theorem State.queue_modQueue_other (s : State) {p q : QueueId} (f : CmdQueue → CmdQueue) (h : q ≠ p) : (s.modQueue q f).queue p = s.queue p :=
  vset_other _ _ h

theorem State.QueueQuiet.refl (s : State) (q : QueueId) : s.QueueQuiet s q := ⟨.refl s, rfl, fun _ _ => rfl⟩

theorem State.QueueQuiet.modQueue (h : s.QueueQuiet t q) (f : CmdQueue → CmdQueue) : s.QueueQuiet (t.modQueue q f) q :=
  ⟨h.bytes.trans (State.sameBytes_of_store (State.store_of rfl rfl)), h.dies,
    fun p hp => (t.queue_modQueue_other f hp.symm).trans (h.others p hp)⟩

/-- What follows may change anything but dies, memory and the queues. -/
theorem State.QueueQuiet.then (h : s.QueueQuiet t q) (hd : u.dies = t.dies) (hm : u.mem = t.mem) (hq : u.panel.queues = t.panel.queues) :
    s.QueueQuiet u q :=
  ⟨h.bytes.trans (State.sameBytes_of_store (State.store_of hm hd)), hd.trans h.dies, fun p hp => by
    unfold State.queue
    rw [hq]
    exact h.others p hp⟩

theorem State.modQueue_modQueue (s : State) (q : QueueId) (f g : CmdQueue → CmdQueue) :
    (s.modQueue q f).modQueue q g = s.modQueue q fun c => g (f c) := by
  have hv : vmod (vmod s.panel.queues q f) q g = vmod s.panel.queues q fun c => g (f c) := by
    unfold vmod
    rw [vset_same, vset_vset]
  exact congrArg (fun v => ({ s with panel := { s.panel with queues := v } } : State)) hv

theorem State.modQueue_congr {f g : CmdQueue → CmdQueue} (h : f (s.queue q) = g (s.queue q)) : s.modQueue q f = s.modQueue q g :=
  congrArg (fun c => ({ s with panel := { s.panel with queues := vset s.panel.queues q c } } : State)) h

/-! ### The queue block -/

theorem State.exec_qTailWrite (s : State) :
    exec .qTailWrite s = .next (s.modQueue s.ev.que fun c => { c with tail := s.ev.val.extractLsb' 0 32 }) := by
  have hf : BitVec.ofNat 32 (bits s.ev.val 0 32) = s.ev.val.extractLsb' 0 32 := by
    rw [bits_eq]
    exact BitVec.eq_of_toNat_eq (by simp)
  rw [← hf]
  rfl

theorem State.exec_qRheadWrite {r : State} (hr : r = s.modQueue s.ev.que fun c => { c with rhead := s.ev.val.extractLsb' 32 32 }) :
    exec .qRheadWrite s = .next (r.flushReports s.ev.que (r.queue s.ev.que).owed) := by
  have hf : BitVec.ofNat 32 (bits s.ev.val 32 32) = s.ev.val.extractLsb' 32 32 := by
    rw [bits_eq]
    exact BitVec.eq_of_toNat_eq (by simp)
  subst hr
  rw [← hf]
  rfl

theorem State.flushReports_none (h : (s.queue q).reports = []) (n : Nat) : s.flushReports q n = s := by
  cases n with
  | zero => rfl
  | succ n =>
    unfold State.flushReports
    rw [h]

/-- One waiting entry that fits is written, and nothing waits any more. -/
theorem State.flushReports_one {e : List Word} (h : (s.queue q).reports = [[e]]) (hf : reportFits (s.queue q) 1 = true)
    (hp : s.putEntry q e = (u, true)) (hk : entryKind e ∉ [1, 2, 5]) :
    s.flushReports q 2 = u.modQueue q fun c => { c with reports := [] } := by
  have hk' : ¬(entryKind e = 1 ∨ entryKind e = 2 ∨ entryKind e = 5) := by simpa using hk
  have hn : ∀ t : State, (t.queue q).reports = [[]] → t.flushReports q 1 = t.modQueue q fun c => { c with reports := [] } := fun t ht => by
    unfold State.flushReports
    rw [ht]
    rfl
  unfold State.flushReports
  rw [h]
  dsimp only
  rw [show ([] : List (List Word)).length + 1 = 1 from rfl, if_pos hf, hp]
  dsimp only
  rw [if_neg (by simpa [and_assoc] using hk'), hn _ (by rw [State.queue_modQueue]), State.modQueue_modQueue]

theorem State.qRheadWrite_spec (s : State) :
    let q := s.ev.que
    let r := s.modQueue q fun c => { c with rhead := s.ev.val.extractLsb' 32 32 }
    ((s.queue q).reports = [] → exec .qRheadWrite s = .next r)
      ∧ ∀ e u, (s.queue q).reports = [[e]] → reportFits (r.queue q) 1 = true → r.putEntry q e = (u, true) →
        entryKind e ∉ [1, 2, 5] → exec .qRheadWrite s = .next (u.modQueue q fun c => { c with reports := [] }) := by
  intro q r
  rw [State.exec_qRheadWrite (r := r) rfl]
  have hr : (r.queue q).reports = (s.queue q).reports := (congrArg CmdQueue.reports (State.queue_modQueue s q _)).trans rfl
  refine ⟨fun h => ?_, fun e u h hf hp hk => ?_⟩
  · exact congrArg Host.Outcome.next (State.flushReports_none (hr.trans h) _)
  · have ho : (r.queue q).owed = 2 := by
      unfold CmdQueue.owed
      rw [hr, h]
      rfl
    change Host.Outcome.next (r.flushReports q (r.queue q).owed) = _
    rw [ho, State.flushReports_one (hr.trans h) hf hp hk]

/-- Calling an election leaves the queues, and an election of the queue is then due. -/
theorem State.callElection_spec (s : State) (q : QueueId) : s.Calls (s.callElection q)
    ∧ ∃ e ∈ (s.callElection q).agenda, e.act = .leaderElection ∧ e.arg.que = q ∧ (e ∈ s.agenda ∨ s.cycle < e.due) := by
  refine ⟨.callElection s q, ?_⟩
  unfold State.callElection
  split
  case isTrue h =>
    obtain ⟨e, he, ha⟩ := List.any_eq_true.mp h
    simp only [Bool.and_eq_true, beq_iff_eq] at ha
    exact ⟨e, he, ha.1, ha.2, Or.inl he⟩
  case isFalse =>
    refine ⟨{ due := s.cycle + 1 + Config.delay s.freeCtr, act := .leaderElection, arg := { que := q } }, ?_, rfl, rfl, Or.inr ?_⟩
    · exact List.mem_append_right _ (List.mem_singleton.mpr rfl)
    · change s.cycle < s.cycle + 1 + _
      omega

/-- A queue after a write of its control word. -/
def CmdQueue.setCtl (c : CmdQueue) (v : Word) : CmdQueue :=
  { c with
      leader := if c.elect then c.leader else Fin.ofNat 128 (v.extractLsb' 48 7).toNat
      elect := v.getLsbD 8, stop := v.getLsbD 7
      state := if (v.extractLsb' 0 3).toNat ≤ 4 then Fin.ofNat 5 (v.extractLsb' 0 3).toNat else c.state }

theorem State.exec_qCtlWrite (s : State) : exec .qCtlWrite s = .next (
    if s.ev.val.extractLsb' 0 3 = 1 ∧ s.panel.featLocked = false then s
    else
      let t := s.modQueue s.ev.que fun c => c.setCtl s.ev.val
      if s.ev.val.getLsbD 8 && !(s.queue s.ev.que).elect then t.callElection s.ev.que else t) := by
  have hb : (decide (bits s.ev.val 0 3 = 1) && !s.panel.featLocked) = true
      ↔ s.ev.val.extractLsb' 0 3 = 1 ∧ s.panel.featLocked = false := by
    rw [bits_eq, Bool.and_eq_true, decide_eq_true_eq, Bool.not_eq_true', ← BitVec.toNat_inj]
    rfl
  have he : exec .qCtlWrite s = .next (
      if (decide (bits s.ev.val 0 3 = 1) && !s.panel.featLocked) = true then s
      else
        let t := s.modQueue s.ev.que fun c => { c with
            leader := if c.elect then c.leader else Fin.ofNat 128 (bits s.ev.val 48 7), elect := bitAt s.ev.val 8
            stop := bitAt s.ev.val 7, state := if bits s.ev.val 0 3 ≤ 4 then Fin.ofNat 5 (bits s.ev.val 0 3) else c.state }
        if bitAt s.ev.val 8 && !(s.queue s.ev.que).elect then t.callElection s.ev.que else t) := rfl
  rw [he]
  simp only [hb]
  simp only [bits_eq, bitAt_eq]
  rfl

theorem State.qCtlWrite_spec (s : State) :
    let q := s.ev.que
    let c := s.queue q
    let v := s.ev.val
    (v.extractLsb' 0 3 = 1 ∧ s.panel.featLocked = false → exec .qCtlWrite s = .next s)
      ∧ (v.extractLsb' 0 3 ≠ 1 ∨ s.panel.featLocked = true → ∃ t, exec .qCtlWrite s = .next t ∧ s.QueueQuiet t q
        ∧ t.queue q = { c with leader := if c.elect then c.leader else Fin.ofNat 128 (v.extractLsb' 48 7).toNat
                               elect := v.getLsbD 8, stop := v.getLsbD 7
                               state := (t.queue q).state }
        ∧ ((v.extractLsb' 0 3).toNat ≤ 4 → ((t.queue q).state).val = (v.extractLsb' 0 3).toNat)
        ∧ (v.getLsbD 8 = true → c.elect = false → ∃ e ∈ t.agenda, e.act = .leaderElection ∧ e.arg.que = q
          ∧ (e ∈ s.agenda ∨ s.cycle < e.due))) := by
  intro q c v
  rw [State.exec_qCtlWrite]
  refine ⟨fun h => congrArg Host.Outcome.next (if_pos h), fun h => ⟨_, congrArg Host.Outcome.next (if_neg ?_), ?_⟩⟩
  · rintro ⟨h1, h2⟩
    exact h.elim (fun h => h h1) fun h => absurd h (ne_true_of_eq_false h2)
  · let t := s.modQueue q fun c => c.setCtl v
    have hc : t.Calls (if v.getLsbD 8 && !c.elect then t.callElection q else t) := by
      split
      · exact .callElection t q
      · exact .refl t
    change s.QueueQuiet (if v.getLsbD 8 && !c.elect then t.callElection q else t) q ∧ _
    have hq : (if v.getLsbD 8 && !c.elect then t.callElection q else t).queue q = c.setCtl v := by
      unfold State.queue
      rw [hc.panel]
      exact State.queue_modQueue s q _
    refine ⟨((State.QueueQuiet.refl s q).modQueue _).then hc.dies hc.mem (by rw [hc.panel]), ?_, fun h4 => ?_, fun h8 hel => ?_⟩
    · change State.queue (if v.getLsbD 8 && !c.elect then t.callElection q else t) q = _
      rw [hq]
      rfl
    · change (State.queue (if v.getLsbD 8 && !c.elect then t.callElection q else t) q).state.val = _
      rw [hq]
      unfold CmdQueue.setCtl
      dsimp only
      rw [if_pos h4]
      exact Nat.mod_eq_of_lt (by omega)
    · have hb : (v.getLsbD 8 && !c.elect) = true := by rw [h8, hel]; rfl
      change ∃ e ∈ (if v.getLsbD 8 && !c.elect then t.callElection q else t).agenda, _
      rw [if_pos hb]
      exact (t.callElection_spec q).2

/-! ### Election -/

theorem find_finRange_least {n : Nat} {p : Fin n → Bool} {i : Fin n} (hi : p i = true) (hl : ∀ j, j < i → p j = false) :
    (List.finRange n).find? p = some i := by
  rw [List.find?_eq_some_iff_getElem]
  refine ⟨hi, i.val, by simp, by simp, fun j hj => ?_⟩
  rw [List.getElem_finRange]
  have := hl ⟨j, by omega⟩ hj
  simpa using this

theorem State.leaderElection_spec (s : State) :
    let q := s.ev.que
    let c := s.queue q
    (c.elect = false → exec .leaderElection s = .next s)
      ∧ (c.elect = true → (∀ p, s.canLead p = false) → ∃ t, exec .leaderElection s = .next t ∧ s.QueueQuiet t q ∧ t.panel = s.panel
        ∧ ∃ e ∈ t.agenda, e.act = .leaderElection ∧ e.arg.que = q ∧ s.cycle < e.due)
      ∧ ∀ p, c.elect = true → s.canLead p = true → (∀ r, r < p → s.canLead r = false) → ∃ t, exec .leaderElection s = .next t
        ∧ s.QueueQuiet t q ∧ (t.queue q).leader = p ∧ (t.queue q).term = c.term + 1 ∧ (t.queue q).head = c.head
        ∧ (t.queue q).recs.length = c.recs.length ∧ (c.stage = .parsing → (t.queue q).stage = .idle) := by
  intro q c
  have he : c.elect = true → exec .leaderElection s = .next (match (List.finRange 128).find? s.canLead with
      | none => s.schedLater .leaderElection { que := q }
      | some p => s.lead q p) := fun h => congrArg Host.Outcome.next (if_neg (by
        change ¬(!c.elect) = true
        rw [h]
        decide))
  refine ⟨fun h => congrArg Host.Outcome.next (if_pos ?_), fun h hn => ?_, fun p h hp hl => ?_⟩
  · change (!c.elect) = true
    rw [h]
    rfl
  · rw [List.find?_eq_none.mpr fun p _ => ne_true_of_eq_false (hn p)] at he
    refine ⟨_, he h, (State.QueueQuiet.refl s q).then rfl rfl rfl, rfl, _,
      List.mem_append_right _ (List.mem_singleton.mpr rfl), rfl, rfl, ?_⟩
    change s.cycle < s.cycle + 1 + _
    omega
  · rw [find_finRange_least hp hl] at he
    have hq : (s.lead q p).queue q = { c with
        leader := p, term := c.term + 1, stage := if c.stage == .parsing then .idle else c.stage, denied := []
        recs := c.recs.mapIdx fun i r => r.again (s.fresh + i) } := State.queue_modQueue s q _
    refine ⟨s.lead q p, he h, ⟨State.sameBytes_of_store (State.store_of rfl rfl), rfl,
      fun r hr => (State.queue_modQueue_other s _ hr.symm :)⟩, ?_⟩
    rw [hq]
    refine ⟨rfl, rfl, rfl, List.length_mapIdx, fun hs => ?_⟩
    dsimp only
    rw [hs]
    rfl

end

end Sys2Proof.Machine
end

