-- ==== Sys2Proof/Proofs/Packets.lean ====
section
/-! PROOFS. The packets of a command queue (R339 to R344), and the steps of the panel. -/

namespace Sys2Proof.Machine

section
variable {s t u : State} {q : QueueId}

theorem ofNat_bits (w : Word) (lo n : Nat) : BitVec.ofNat n (bits w lo n) = w.extractLsb' lo n := by
  rw [bits_eq]
  exact BitVec.eq_of_toNat_eq (by simp)

theorem ofNat_bits_low (w : Word) (n m : Nat) : BitVec.ofNat m (bits w 0 n) = (w.extractLsb' 0 n).setWidth m := by
  rw [bits_eq]
  refine BitVec.eq_of_toNat_eq ?_
  simp [BitVec.toNat_ofNat, BitVec.toNat_setWidth]

/-! ### Words of panel memory -/

/-- What a byte of memory holds after writes in their order. -/
theorem Memory.read_writeAll_eq (l : List (Nat × Byte)) (y : Nat) : ∀ m : Memory, m.wf = true →
    (m.writeAll l).read y = lastWrite l y (m.read y) := by
  induction l with
  | nil => exact fun _ _ => rfl
  | cons p l ih =>
    intro m h
    have hw : m.writeAll (p :: l) = (m.write p.1 p.2).writeAll l := rfl
    have hp : (m.write p.1 p.2).wf = true := Memory.wf_writeAll [p] h
    rw [hw, ih _ hp, Memory.read_write _ _ _ h, ← foldl_lastWrite, ← foldl_lastWrite, List.foldl_cons]
    congr 1
    by_cases hy : y = p.1
    · rw [if_pos hy, if_pos (by simpa using hy.symm)]
    · rw [if_neg hy, if_neg (by simpa using fun h => hy h.symm)]

/-- A word is that of its bytes. -/
theorem wordOfBytes_extract (w : Word) : wordOfBytes ((List.range 8).map fun k => w.extractLsb' (8 * k) 8) = w := by
  refine BitVec.eq_of_getLsbD_eq fun i hi => ?_
  have hb := congrArg (fun b : Byte => b.getLsbD (i % 8))
    (extractLsb'_natOfBytes_range (w := 64) (n := 8) (fun k => w.extractLsb' (8 * k) 8) (k := i / 8) (by omega) (by omega))
  have h8 : i % 8 < 8 := Nat.mod_lt _ (by decide)
  have hi' : 8 * (i / 8) + i % 8 = i := Nat.div_add_mod i 8
  simp only [BitVec.getLsbD_extractLsb', h8, decide_true, Bool.true_and, hi'] at hb
  exact hb

/-- A word that is written reads back. -/
theorem State.readMem64_writeMem (s : State) (pa : Nat) (w : Word) (h : s.mem.wf = true) :
    (s.writeMem pa (bytesOfWord w)).readMem64 pa = w := by
  have hl : ((List.range (bytesOfWord w).length).zip (bytesOfWord w)).map (fun (p : Nat × Byte) => (pa + p.1, p.2))
      = (List.range 8).map fun k => (pa + k, w.extractLsb' (8 * k) 8) := by
    rw [bytesOfWord, bytesOfNat_eq]
    simp only [ofNat_div_eq_extractLsb']
    rfl
  have hm : (s.writeMem pa (bytesOfWord w)).mem
      = s.mem.writeAll ((List.range 8).map fun k => (pa + k, w.extractLsb' (8 * k) 8)) := by
    unfold State.writeMem
    rw [(State.ringBells_mem _ _).1, ← hl]
  have hr : (s.writeMem pa (bytesOfWord w)).readMem pa 8 = (List.range 8).map fun k => w.extractLsb' (8 * k) 8 := by
    unfold State.readMem Memory.readN
    rw [hm]
    refine List.map_congr_left fun k hk => ?_
    have hk8 := List.mem_range.mp hk
    rw [Memory.read_writeAll_eq _ _ _ h, lastWrite_block, if_pos ⟨by omega, by omega⟩, Nat.add_sub_cancel_left]
  unfold State.readMem64
  rw [hr, wordOfBytes_extract]

/-! ### What a parsed packet is -/

/-- The packet at the head is parsed: it has the words `w`, and is of a type. -/
structure State.Parses (s : State) (q : QueueId) (w : List Word) (type : Nat) : Prop where
  parse : s.parse q = (s.modQueue q fun c => { c with stage := .idle }, some w)
  type : bits (w.headD 0) 0 8 = type

theorem State.parses_of {w : List Word} {type n : Nat}
    (h : s.parse q = (s.modQueue q fun c => { c with stage := .idle }, some w)
      ∧ ((w.headD 0).extractLsb' 0 8).toNat = type ∧ w.length = n) : s.Parses q w type :=
  ⟨h.1, (bits_eq _ _ _).trans h.2.1⟩

/-- The record of a packet that is not complete (R344). -/
def State.packetRec (s : State) (c : CmdQueue) (w : List Word) (k : QWork) : QRec :=
  { id := s.fresh, serial := (w.headD 0).extractLsb' 32 32, ringOff := BitVec.ofNat 32 c.at_, work := k }

theorem State.addRec_eq (s : State) (q : QueueId) (w : List Word) (k : QWork) (c : CmdQueue) : s.addRec q w c.at_ k
    = (s.modQueue q fun d => { d with recs := d.recs ++ [s.packetRec c w k] }).takeFresh := by
  unfold State.addRec State.packetRec
  rw [ofNat_bits]

/-! ### MARK -/

theorem State.markPacket_spec {w : List Word} (h : s.Parses s.ev.que w 5) :
    exec .markPacket s = .next (s.modQueue s.ev.que fun c => { c with
        stage := .idle, head := BitVec.ofNat 32 (((s.queue s.ev.que).at_ + 8 * 2) % (s.queue s.ev.que).bytes)
        markSerial := (w.headD 0).extractLsb' 32 32, markOff := BitVec.ofNat 32 (s.queue s.ev.que).at_
        markPath := some (((w.getD 1 0).extractLsb' 0 48).setWidth 64) }) := by
  change execMarkPacket s = _
  unfold execMarkPacket
  dsimp only
  rw [h.parse]
  dsimp only
  rw [if_neg (by simpa using h.type), State.modQueue_modQueue, ofNat_bits, ofNat_bits_low]
  exact congrArg Host.Outcome.next (State.modQueue_congr rfl)

/-! ### LAUNCH -/

theorem State.exec_launchPacket_stop {w : List Word} (h : s.Parses s.ev.que w 1) (hs : (s.queue s.ev.que).stop = true) :
    exec .launchPacket s = .next (s.modQueue s.ev.que fun c => { c with stage := .idle, state := 3 }) := by
  change execLaunchPacket s = _
  unfold execLaunchPacket
  dsimp only
  rw [h.parse]
  dsimp only
  rw [if_neg (by simpa using h.type), if_pos, State.modQueue_modQueue]
  rw [State.queue_modQueue]
  exact hs

/-- The table that places the tasks of a LAUNCH (R340). -/
def State.launchEntry (s : State) (q : QueueId) (w : List Word) (k : Nat) : VEntry :=
  (s.die (s.queue q).leader).vtab[Fin.ofNat 256 (((w.getD 2 0).extractLsb' 0 8).toNat + k)]

/-- The queue once a packet of `n` words is behind its head. -/
def CmdQueue.idlePast (c : CmdQueue) (n : Nat) : CmdQueue :=
  { c with stage := .idle, head := BitVec.ofNat 32 ((c.at_ + 8 * n) % c.bytes) }

theorem State.exec_launchPacket {w : List Word} (h : s.Parses s.ev.que w 1) (hs : (s.queue s.ev.que).stop = false) {o : Option Nat}
    (ho : (List.range ((w.getD 2 0).extractLsb' 8 9).toNat).find? (fun k => !(s.launchEntry s.ev.que w k).present) = o) :
    (∀ k, o = some k → ∃ e, exec .launchPacket s
      = .next ((s.modQueue s.ev.que fun c => c.idlePast 16).report s.ev.que e))
    ∧ (o = none → (s.queue s.ev.que).elect = false → exec .launchPacket s
      = .next ((List.range ((w.getD 2 0).extractLsb' 8 9).toNat).foldl
          (fun t k => t.dispatchTask s.ev.que w (s.queue s.ev.que).at_ s.fresh k (s.launchEntry s.ev.que w k).phys)
          (((s.modQueue s.ev.que fun c => c.idlePast 16).addRec s.ev.que w (s.queue s.ev.que).at_
            (.launch ((w.getD 2 0).extractLsb' 8 9).toNat false))))) := by
  have hq := State.queue_modQueue s s.ev.que fun c => { c with stage := .idle }
  have he : ∀ k, (((s.modQueue s.ev.que fun c => { c with stage := .idle }).die
      ((s.modQueue s.ev.que fun c => { c with stage := .idle }).queue s.ev.que).leader).vtab)[Fin.ofNat 256 (bits (w.getD 2 0) 0 8 + k)]
      = s.launchEntry s.ev.que w k := fun k => by
    rw [hq]
    exact congrArg (fun i => (s.die (s.queue s.ev.que).leader).vtab[Fin.ofNat 256 (i + k)]) (bits_eq (w.getD 2 0) 0 8)
  have hst : ((s.modQueue s.ev.que fun c => { c with stage := .idle }).queue s.ev.que).stop = false := by
    rw [hq]
    exact hs
  have hat : ((s.modQueue s.ev.que fun c => { c with stage := .idle }).queue s.ev.que).at_ = (s.queue s.ev.que).at_ := by
    rw [hq]
    rfl
  have hgo : exec .launchPacket s = execLaunchPacket s := rfl
  unfold execLaunchPacket at hgo
  dsimp only at hgo
  rw [h.parse] at hgo
  dsimp only at hgo
  rw [if_neg (by simpa using h.type), if_neg (by rw [hst]; decide)] at hgo
  simp only [he, hat] at hgo
  rw [bits_eq _ 8 9, ho, State.modQueue_modQueue] at hgo
  have hp : (s.modQueue s.ev.que fun c => ({ c with stage := .idle } : CmdQueue).past 16)
      = s.modQueue s.ev.que fun c => c.idlePast 16 := rfl
  rw [hp] at hgo
  refine ⟨fun k hk => ?_, fun hn hel => ?_⟩
  · subst hk
    exact ⟨_, hgo⟩
  · subst hn
    have hel' : ((s.modQueue s.ev.que fun c => c.idlePast 16).queue s.ev.que).elect = false := by
      rw [State.queue_modQueue]
      exact hel
    dsimp only at hgo
    rw [hel', if_neg Bool.false_ne_true] at hgo
    exact hgo

/-- Tasks have been sent to dies. -/
structure State.Sent (s t : State) : Prop where
  store : t.store = s.store
  panel : t.panel = s.panel
  cycle : t.cycle = s.cycle
  tasks : ∀ d, ∀ l ∈ (s.die d).pendLaunch, l ∈ (t.die d).pendLaunch

theorem State.Sent.trans (h : s.Sent t) (k : t.Sent u) : s.Sent u :=
  ⟨k.store.trans h.store, k.panel.trans h.panel, k.cycle.trans h.cycle, fun d l hl => k.tasks d l (h.tasks d l hl)⟩

/-- The task of a LAUNCH that a die holds (R343). -/
structure PendLaunch.IsTask (l : PendLaunch) (s : State) (q : QueueId) (w : List Word) (pkt k : Nat) : Prop where
  queue : l.queue = q
  serial : l.serial = (w.headD 0).extractLsb' 32 32
  n : l.n = k
  words : l.words = w
  term : l.term = (s.queue q).term
  pkt : l.pkt = pkt
  ready : s.cycle < l.ready

theorem State.dispatchTask_spec (s : State) (q : QueueId) (w : List Word) (off pkt k : Nat) (p : DieId) :
    s.Sent (s.dispatchTask q w off pkt k p) ∧ ∃ l ∈ ((s.dispatchTask q w off pkt k p).die p).pendLaunch, l.IsTask s q w pkt k := by
  let l : PendLaunch :=
    { queue := q, serial := BitVec.ofNat 32 (bits (w.headD 0) 32 32), ringOff := BitVec.ofNat 32 off, pkt := pkt, n := k
      words := w, term := (s.queue q).term, ready := s.cycle + 1 + Config.delay s.freeCtr }
  have he : s.dispatchTask q w off pkt k p = (s.modDie p fun x => { x with pendLaunch := x.pendLaunch ++ [l] }).takeFree := rfl
  have hd : ∀ d, ((s.dispatchTask q w off pkt k p).die d) = (s.modDie p fun x => { x with pendLaunch := x.pendLaunch ++ [l] }).die d :=
    fun d => rfl
  refine ⟨⟨?_, rfl, rfl, fun d m hm => ?_⟩, l, ?_, rfl, ofNat_bits _ _ _, rfl, rfl, rfl, rfl, ?_⟩
  · rw [he, State.store_takeFree]
    exact State.store_modDie (Die.store_with (h := rfl) ..)
  · rw [hd]
    by_cases hp : p = d
    · subst hp
      rw [State.die_modDie]
      exact List.mem_append_left _ hm
    · rw [State.die_modDie_other _ _ hp]
      exact hm
  · rw [hd, State.die_modDie]
    exact List.mem_append_right _ (List.mem_singleton.mpr rfl)
  · change s.cycle < s.cycle + 1 + _
    omega

theorem State.dispatchTasks_spec (q : QueueId) (w : List Word) (off pkt : Nat) (p : Nat → DieId) (ks : List Nat) : ∀ s : State,
    s.Sent (ks.foldl (fun t k => t.dispatchTask q w off pkt k (p k)) s)
      ∧ ∀ k ∈ ks, ∃ l ∈ ((ks.foldl (fun t k => t.dispatchTask q w off pkt k (p k)) s).die (p k)).pendLaunch, l.IsTask s q w pkt k := by
  induction ks with
  | nil => exact fun s => ⟨⟨rfl, rfl, rfl, fun _ _ h => h⟩, fun k hk => absurd hk List.not_mem_nil⟩
  | cons a ks ih =>
    intro s
    obtain ⟨h1, l, hl, hit⟩ := s.dispatchTask_spec q w off pkt a (p a)
    obtain ⟨h2, hall⟩ := ih (s.dispatchTask q w off pkt a (p a))
    refine ⟨h1.trans h2, fun k hk => ?_⟩
    rcases List.mem_cons.mp hk with rfl | hk
    · exact ⟨l, h2.tasks _ l hl, hit⟩
    · obtain ⟨m, hm, hmt⟩ := hall k hk
      refine ⟨m, hm, { hmt with term := hmt.term.trans ?_, ready := ?_ }⟩
      · unfold State.queue
        rw [h1.panel]
      · have := hmt.ready
        rw [h1.cycle] at this
        exact this

theorem State.launchPacket_stops {w : List Word} (h : s.Parses s.ev.que w 1) (hs : (s.queue s.ev.que).stop = true) :
    ∃ t, exec .launchPacket s = .next t ∧ s.QueueQuiet t s.ev.que
      ∧ t.queue s.ev.que = { s.queue s.ev.que with stage := .idle, state := 3 } :=
  ⟨_, State.exec_launchPacket_stop h hs, (State.QueueQuiet.refl s _).modQueue _, State.queue_modQueue s _ _⟩

theorem State.launchPacket_sends {w : List Word} (h : s.Parses s.ev.que w 1) (hs : (s.queue s.ev.que).stop = false)
    (hel : (s.queue s.ev.que).elect = false)
    (hp : ∀ k, k < ((w.getD 2 0).extractLsb' 8 9).toNat → (s.launchEntry s.ev.que w k).present = true) :
    ∃ t, exec .launchPacket s = .next t ∧ s.SameBytes t
      ∧ t.queue s.ev.que = { (s.queue s.ev.que).idlePast 16 with recs := (s.queue s.ev.que).recs
          ++ [s.packetRec (s.queue s.ev.que) w (.launch ((w.getD 2 0).extractLsb' 8 9).toNat false)] }
      ∧ ∀ k, k < ((w.getD 2 0).extractLsb' 8 9).toNat → ∃ l ∈ (t.die (s.launchEntry s.ev.que w k).phys).pendLaunch,
          l.IsTask s s.ev.que w s.fresh k := by
  have hn : (List.range ((w.getD 2 0).extractLsb' 8 9).toNat).find? (fun k => !(s.launchEntry s.ev.que w k).present) = none :=
    List.find?_eq_none.mpr fun k hk => by simp [hp k (List.mem_range.mp hk)]
  have hu : (s.modQueue s.ev.que fun c => c.idlePast 16).addRec s.ev.que w (s.queue s.ev.que).at_
        (.launch ((w.getD 2 0).extractLsb' 8 9).toNat false)
      = (s.modQueue s.ev.que fun c => { c.idlePast 16 with recs := c.recs
          ++ [s.packetRec (s.queue s.ev.que) w (.launch ((w.getD 2 0).extractLsb' 8 9).toNat false)] }).takeFresh := by
    rw [State.addRec_eq, State.modQueue_modQueue]
    rfl
  have he := (State.exec_launchPacket h hs hn).2 rfl hel
  rw [hu] at he
  obtain ⟨hsent, hall⟩ := State.dispatchTasks_spec s.ev.que w (s.queue s.ev.que).at_ s.fresh
    (fun k => (s.launchEntry s.ev.que w k).phys) (List.range ((w.getD 2 0).extractLsb' 8 9).toNat)
    (s.modQueue s.ev.que fun c => { c.idlePast 16 with recs := c.recs
          ++ [s.packetRec (s.queue s.ev.que) w (.launch ((w.getD 2 0).extractLsb' 8 9).toNat false)] }).takeFresh
  have hq := State.queue_modQueue s s.ev.que fun c => { c.idlePast 16 with recs := c.recs
          ++ [s.packetRec (s.queue s.ev.que) w (.launch ((w.getD 2 0).extractLsb' 8 9).toNat false)] }
  refine ⟨_, he, State.sameBytes_of_store (hsent.store.trans rfl), ?_, fun k hk => ?_⟩
  · exact (congrArg (fun p : Panel => p.queues[s.ev.que]) hsent.panel).trans hq
  · obtain ⟨l, hl, ht⟩ := hall k (List.mem_range.mpr hk)
    exact ⟨l, hl, { ht with term := ht.term.trans ((congrArg CmdQueue.term hq).trans rfl) }⟩

theorem State.launchPacket_absent {w : List Word} (h : s.Parses s.ev.que w 1) (hs : (s.queue s.ev.que).stop = false) {k : Nat}
    (hk : k < ((w.getD 2 0).extractLsb' 8 9).toNat) (hp : (s.launchEntry s.ev.que w k).present = false) :
    ∃ t, exec .launchPacket s = .next t ∧ (t.queue s.ev.que).head = ((s.queue s.ev.que).idlePast 16).head
      ∧ (t.queue s.ev.que).recs = (s.queue s.ev.que).recs ∧ ∀ e : DieId, (t.die e).pendLaunch = (s.die e).pendLaunch := by
  obtain ⟨k', hf⟩ := Option.isSome_iff_exists.mp ((List.find?_isSome (p := fun k => !(s.launchEntry s.ev.que w k).present)).mpr
    ⟨k, List.mem_range.mpr hk, by simp [hp]⟩)
  obtain ⟨e, he⟩ := (State.exec_launchPacket h hs hf).1 k' rfl
  have ht := State.Tells.report (s.modQueue s.ev.que fun c => c.idlePast 16) s.ev.que e
  have hq := State.queue_modQueue s s.ev.que fun c => c.idlePast 16
  refine ⟨_, he, ht.head.trans ((congrArg CmdQueue.head hq).trans rfl), ht.recs.trans ((congrArg CmdQueue.recs hq).trans rfl), fun d => ?_⟩
  obtain ⟨v, hv⟩ := (State.Reports.report (s.modQueue s.ev.que fun c => c.idlePast 16) s.ev.que e).dies d
  rw [hv]
  rfl

end

end Sys2Proof.Machine
end

