-- ==== Sys2Proof/Proofs/PanelSteps.lean ====
section
/-! PROOFS. The COPY, FENCE and SIGNAL packets (R344), and the steps of the panel. -/

namespace Sys2Proof.Machine

section
variable {s t u : State} {q : QueueId}

/-! ### COPY -/

theorem State.copyPacket_parsed {w : List Word} (hf : s.ev.flag = false) (h : s.Parses s.ev.que w 2)
    (hl : (w.getD 3 0).extractLsb' 0 48 ≠ 0) :
    ∃ t, exec .copyPacket s = .next t ∧ s.QueueQuiet t s.ev.que
      ∧ t.queue s.ev.que = { (s.queue s.ev.que).idlePast 4 with recs := (s.queue s.ev.que).recs
          ++ [s.packetRec (s.queue s.ev.que) w (.copy (w.getD 1 0) (w.getD 2 0) ((w.getD 3 0).extractLsb' 0 48).toNat 0 [] false)] } := by
  have hat : ((s.modQueue s.ev.que fun c => { c with stage := .idle }).queue s.ev.que).at_ = (s.queue s.ev.que).at_ := by
    rw [State.queue_modQueue]
    rfl
  have hn : ¬((w.getD 3 0).extractLsb' 0 48).toNat = 0 := fun h0 => hl (BitVec.eq_of_toNat_eq h0)
  have hgo : exec .copyPacket s = execCopyPacket s := rfl
  unfold execCopyPacket at hgo
  dsimp only at hgo
  rw [hf, if_neg Bool.false_ne_true, h.parse] at hgo
  dsimp only at hgo
  rw [if_neg (by simpa using h.type), hat, bits_eq _ 0 48, if_neg hn, State.addRec_eq, State.modQueue_modQueue,
    State.modQueue_modQueue] at hgo
  exact ⟨_, hgo, ((State.QueueQuiet.refl s _).modQueue _).then rfl rfl rfl, State.queue_modQueue s _ _⟩

/-- Putting an access of a COPY on its way. -/
theorem State.queueAcc_spec (s : State) (q : QueueId) (r : QRec) (unit : Nat) (k : RKind) (far : Word) (n : Nat) (data : List Byte) :
    s.QueueQuiet (s.queueAcc q r unit k far n data) q ∧ ∃ a, (s.queueAcc q r unit k far n data).panel.raccs = s.panel.raccs ++ [a]
      ∧ a.src = (s.queue q).leader ∧ a.stream = .queue q ∧ a.op = r.id ∧ a.st = .waiting ∧ a.len = n ∧ a.kind = k ∧ a.far = far
      ∧ a.data = data :=
  ⟨(State.QueueQuiet.refl s q).then rfl rfl rfl, _, rfl, rfl, rfl, rfl, rfl, rfl, rfl, rfl, rfl⟩

theorem State.copyPacket_unit (hf : s.ev.flag = true) {r : QRec} {src dst : Word} {len done : Nat} {got : List Byte}
    (hr : (s.queue s.ev.que).copyRec = some r) (hw : r.work = .copy src dst len done got false) (hm : s.copyMoves s.ev.que r = false) :
    ∃ t a, exec .copyPacket s = .next t ∧ s.QueueQuiet t s.ev.que ∧ t.panel.raccs = s.panel.raccs ++ [a]
      ∧ a.src = (s.queue s.ev.que).leader ∧ a.stream = .queue s.ev.que ∧ a.op = r.id ∧ a.st = .waiting ∧ a.len = min 256 (len - done)
      ∧ (got = [] → a.kind = .load ∧ a.far = src + BitVec.ofNat 64 done)
      ∧ (got ≠ [] → a.kind = .store ∧ a.far = dst + BitVec.ofNat 64 done ∧ a.data = got) := by
  have hgo : exec .copyPacket s = .next (s.copyUnit s.ev.que) := congrArg Host.Outcome.next (if_pos hf)
  unfold State.copyUnit at hgo
  rw [hr] at hgo
  dsimp only at hgo
  rw [hm, if_neg Bool.false_ne_true, hw] at hgo
  dsimp only at hgo
  by_cases hg : got = []
  · rw [if_pos (by rw [hg]; rfl)] at hgo
    obtain ⟨hq, a, ha, hsrc, hs, ho, hst, hlen, hk, hfar, -⟩ := State.queueAcc_spec (s.modQueue s.ev.que fun c => { c with
      recs := replaceIf (fun (o : QRec) => o.id == r.id)
        (fun _ => { r with work := .copy src dst len done (List.replicate (min 256 (len - done)) 0) false }) c.recs })
      s.ev.que r (done / 256) .load (src + BitVec.ofNat 64 done) (min 256 (len - done)) []
    refine ⟨_, a, hgo, ⟨(State.sameBytes_of_store (State.store_of rfl rfl)).trans hq.bytes, hq.dies, fun p hp => ?_⟩, ha, ?_, hs, ho, hst,
      hlen, fun _ => ⟨hk, hfar⟩, fun h => absurd hg h⟩
    · exact (hq.others p hp).trans (s.queue_modQueue_other _ hp.symm)
    · rw [hsrc, State.queue_modQueue]
  · rw [if_neg (by simpa using hg)] at hgo
    obtain ⟨hq, a, ha, hsrc, hs, ho, hst, hlen, hk, hfar, hd⟩ := State.queueAcc_spec s
      s.ev.que r (done / 256) .store (dst + BitVec.ofNat 64 done) (min 256 (len - done)) got
    exact ⟨_, a, hgo, hq, ha, hsrc, hs, ho, hst, hlen, fun h => absurd h hg, fun _ => ⟨hk, hfar, hd⟩⟩

/-! ### FENCE -/

/-- A fence is read again within 4,096 cycles (R344). -/
def State.RereadDue (s t : State) (q : QueueId) : Prop :=
  ∃ e ∈ t.agenda, e.act = .fenceReread ∧ e.arg.que = q ∧ s.cycle < e.due ∧ e.due ≤ s.cycle + 4096

/-- A state with a fence to be read again. -/
def State.rereadLater (s : State) (q : QueueId) : State :=
  s.takeFree.sched (s.cycle + 1 + Config.delay s.freeCtr % 4096) .fenceReread { que := q }

theorem State.rereadLater_due (s : State) (q : QueueId) : s.RereadDue (s.rereadLater q) q := by
  refine ⟨_, List.mem_append_right _ (List.mem_singleton.mpr rfl), rfl, rfl, ?_, ?_⟩
  · change s.cycle < s.cycle + 1 + _
    omega
  · change s.cycle + 1 + Config.delay s.freeCtr % 4096 ≤ s.cycle + 4096
    have := Nat.mod_lt (Config.delay s.freeCtr) (show 4096 > 0 by decide)
    omega

/-- What holds a fence's queue no longer (R344). -/
def CmdQueue.fenceOpen (c : CmdQueue) (l : List Word) : Bool :=
  ((c.fence.entries.zip l).all fun p => fenceHolds (bits p.1.1 61 3) p.2 p.1.2) && (!c.fence.drain || c.recs.isEmpty)

theorem State.tryFence_eq (hst : (s.queue q).stage = .fencing) : s.tryFence q
    = match s.queueWords q ((s.queue q).fence.entries.map fun e => BitVec.ofNat 64 (bits e.1 3 45 * 8)) with
      | (t, .fails) => t.queueFault q
      | (t, .later) => t.rereadLater q
      | (t, .got l) => if (s.queue q).fenceOpen l then t.modQueue q fun c => { c with stage := .idle } else t.rereadLater q := by
  unfold State.tryFence
  dsimp only
  rw [if_neg (by rw [hst]; decide)] <;> rfl

/-- What a try of a fence leaves: the queue has read, and goes on or holds. -/
theorem State.tryFence_spec (hst : (s.queue q).stage = .fencing) : (s.tryFence q).store = s.store
    ∧ ((s.tryFence q).queue q).head = (s.queue q).head ∧ ((s.tryFence q).queue q).recs = (s.queue q).recs
    ∧ (((s.tryFence q).queue q).stage = .idle ∨ ((s.tryFence q).queue q).stage = .fencing ∧ s.RereadDue (s.tryFence q) q) := by
  rw [State.tryFence_eq hst]
  have h := State.Tells.queueWords q ((s.queue q).fence.entries.map fun e => BitVec.ofNat 64 (bits e.1 3 45 * 8)) s
  have hs := State.store_queueWords s q ((s.queue q).fence.entries.map fun e => BitVec.ofNat 64 (bits e.1 3 45 * 8))
  generalize s.queueWords q ((s.queue q).fence.entries.map fun e => BitVec.ofNat 64 (bits e.1 3 45 * 8)) = m at h hs ⊢
  obtain ⟨t, o⟩ := m
  have hmod : ∀ f : CmdQueue → CmdQueue, (f (t.queue q)).head = (t.queue q).head → (f (t.queue q)).recs = (t.queue q).recs →
      (f (t.queue q)).stage = .idle → (t.modQueue q f).store = s.store ∧ ((t.modQueue q f).queue q).head = (s.queue q).head
      ∧ ((t.modQueue q f).queue q).recs = (s.queue q).recs ∧ (((t.modQueue q f).queue q).stage = .idle
        ∨ ((t.modQueue q f).queue q).stage = .fencing ∧ s.RereadDue (t.modQueue q f) q) := fun f h1 h2 h3 => by
    rw [State.queue_modQueue]
    exact ⟨hs, h1.trans h.head, h2.trans h.recs, Or.inl h3⟩
  have hlater : (t.rereadLater q).store = s.store ∧ ((t.rereadLater q).queue q).head = (s.queue q).head
      ∧ ((t.rereadLater q).queue q).recs = (s.queue q).recs ∧ (((t.rereadLater q).queue q).stage = .idle
        ∨ ((t.rereadLater q).queue q).stage = .fencing ∧ s.RereadDue (t.rereadLater q) q) := by
    refine ⟨hs, h.head, h.recs, Or.inr ⟨h.stage.trans hst, ?_⟩⟩
    have hd := t.rereadLater_due q
    unfold State.RereadDue at hd ⊢
    rw [h.cycle] at hd
    exact hd
  cases o with
  | fails => exact hmod _ rfl rfl rfl
  | later => exact hlater
  | got l =>
    dsimp only
    split
    · exact hmod _ rfl rfl rfl
    · exact hlater

theorem State.fencePacket_spec {w : List Word} (h : s.Parses s.ev.que w 3) :
    ∃ t, exec .fencePacket s = .next t ∧ s.SameBytes t
      ∧ (t.queue s.ev.que).head = ((s.queue s.ev.que).idlePast (1 + 2 * ((w.headD 0).extractLsb' 16 4).toNat)).head
      ∧ (t.queue s.ev.que).recs = (s.queue s.ev.que).recs
      ∧ ((t.queue s.ev.que).stage = .idle ∨ ((t.queue s.ev.que).stage = .fencing ∧ s.RereadDue t s.ev.que)) := by
  have hgo : exec .fencePacket s = execFencePacket s := rfl
  unfold execFencePacket at hgo
  dsimp only at hgo
  rw [h.parse] at hgo
  dsimp only at hgo
  rw [if_neg (by simpa using h.type), State.modQueue_modQueue, bits_eq _ 16 4] at hgo
  generalize hu : s.modQueue s.ev.que _ = u at hgo
  have hq : ∃ f, u.queue s.ev.que = { (s.queue s.ev.que).idlePast (1 + 2 * ((w.headD 0).extractLsb' 16 4).toNat) with
      stage := .fencing, fence := f } := ⟨_, by rw [← hu]; exact State.queue_modQueue s _ _⟩
  have hs : u.store = s.store := by rw [← hu]; rfl
  have hc : u.cycle = s.cycle := by rw [← hu]; rfl
  clear hu
  obtain ⟨f, hq⟩ := hq
  obtain ⟨h1, h2, h3, h4⟩ := State.tryFence_spec (s := u) (q := s.ev.que) (by rw [hq])
  rw [hq] at h2 h3
  unfold State.RereadDue at h4
  rw [hc] at h4
  exact ⟨_, hgo, State.sameBytes_of_store (h1.trans hs), h2, h3, h4⟩

theorem CmdQueue.fenceOpen_iff (c : CmdQueue) (l : List Word) : c.fenceOpen l = true
    ↔ (∀ p ∈ c.fence.entries.zip l, fenceHolds (bits p.1.1 61 3) p.2 p.1.2 = true) ∧ (c.fence.drain = true → c.recs = []) := by
  unfold CmdQueue.fenceOpen
  rw [Bool.and_eq_true, List.all_eq_true]
  cases c.fence.drain <;> simp

theorem State.fenceReread_spec {l : List Word} (hst : (s.queue s.ev.que).stage = .fencing)
    (hw : s.queueWords s.ev.que ((s.queue s.ev.que).fence.entries.map fun e => BitVec.ofNat 64 (bits e.1 3 45 * 8)) = (s, .got l)) :
    ((s.queue s.ev.que).fenceOpen l = true → exec .fenceReread s = .next (s.modQueue s.ev.que fun c => { c with stage := .idle }))
      ∧ (¬(s.queue s.ev.que).fenceOpen l = true → ∃ t, exec .fenceReread s = .next t ∧ s.QueueQuiet t s.ev.que
        ∧ t.queue s.ev.que = s.queue s.ev.que ∧ s.RereadDue t s.ev.que) := by
  have hgo : exec .fenceReread s = .next (s.tryFence s.ev.que) := rfl
  rw [State.tryFence_eq hst, hw] at hgo
  dsimp only at hgo
  refine ⟨fun h => ?_, fun h => ?_⟩
  · rw [hgo, if_pos h]
  · rw [if_neg h] at hgo
    exact ⟨_, hgo, (State.QueueQuiet.refl s _).then rfl rfl rfl, rfl, s.rereadLater_due _⟩

/-! ### SIGNAL -/

theorem State.signalPacket_parsed {w : List Word} (hf : s.ev.flag = false) (h : s.Parses s.ev.que w 4) :
    ∃ t, exec .signalPacket s = .next t ∧ s.QueueQuiet t s.ev.que
      ∧ t.queue s.ev.que = { (s.queue s.ev.que).idlePast 3 with
          stage := if (w.headD 0).getLsbD 17 then .signalling else .idle
          recs := (s.queue s.ev.que).recs
            ++ [s.packetRec (s.queue s.ev.que) w (.signal (w.getD 1 0) (w.getD 2 0) ((w.headD 0).getLsbD 16))] } := by
  have hat : ((s.modQueue s.ev.que fun c => { c with stage := .idle }).queue s.ev.que).at_ = (s.queue s.ev.que).at_ := by
    rw [State.queue_modQueue]
    rfl
  have hgo : exec .signalPacket s = execSignalPacket s := rfl
  unfold execSignalPacket at hgo
  dsimp only at hgo
  rw [hf, if_neg Bool.false_ne_true, h.parse] at hgo
  dsimp only at hgo
  rw [if_neg (by simpa using h.type), hat, State.addRec_eq, State.modQueue_modQueue, bitAt_eq, bitAt_eq] at hgo
  have hq := State.queue_modQueue s s.ev.que fun c => { ({ c with stage := .idle } : CmdQueue) with
    recs := c.recs ++ [s.packetRec (s.queue s.ev.que) w (.signal (w.getD 1 0) (w.getD 2 0) ((w.headD 0).getLsbD 16))] }
  refine ⟨_, hgo, ⟨State.sameBytes_of_store (State.store_of rfl rfl), rfl, fun p hp => ?_⟩, ?_⟩
  · exact (State.queue_modQueue_other _ _ hp.symm).trans (s.queue_modQueue_other _ hp.symm)
  rw [State.queue_modQueue]
  exact congrArg (fun c : CmdQueue => { c.past 3 with stage := if (w.headD 0).getLsbD 17 then .signalling else .idle }) hq

theorem State.signalPacket_performs (hf : s.ev.flag = true) {a value : Word} {add : Bool} {pa : Nat}
    (hw : (s.queue s.ev.que).firstWork = some (.signal a value add)) (hwf : s.mem.wf = true)
    (ht : s.queueTry s.ev.que 1 ((a.extractLsb' 0 48).setWidth 64) 8 .write = (s, .done [(pa, 8)]))
    (hb : add = true → s.memBadAt pa 8 = false) :
    ∃ t, exec .signalPacket s = .next t ∧ t.dies = s.dies ∧ (t.queue s.ev.que).recs = (s.queue s.ev.que).recs.drop 1
      ∧ (∀ y, y < pa ∨ pa + 8 ≤ y → t.mem.read y = s.mem.read y)
      ∧ t.readMem64 pa = if add then s.readMem64 pa + value else value := by
  have hgo : exec .signalPacket s = .next (s.performSignal s.ev.que) := congrArg Host.Outcome.next (if_pos hf)
  have hbad : (s.modQueue s.ev.que CmdQueue.signalled).runBad [(pa, 8)] = s.memBadAt pa 8 := Bool.or_false _
  have hbytes : (s.modQueue s.ev.que CmdQueue.signalled).runBytes [(pa, 8)] = s.readMem pa 8 := List.append_nil _
  have htake : ∀ w : Word, (bytesOfWord w).take 8 = bytesOfWord w := fun w => by
    rw [bytesOfWord, bytesOfNat_eq]
    exact List.take_of_length_le (by simp)
  have hrun : ∀ (r : State) (w : Word), r.runWrite [(pa, 8)] (bytesOfWord w) = r.writeMem pa (bytesOfWord w) := fun r w =>
    congrArg (r.writeMem pa) (htake w)
  have hadd : ¬(add && s.memBadAt pa 8) = true := by
    cases add with
    | false => exact Bool.false_ne_true
    | true => rw [hb rfl]; exact Bool.false_ne_true
  unfold State.performSignal at hgo
  rw [hw] at hgo
  dsimp only at hgo
  rw [ofNat_bits_low, ht] at hgo
  dsimp only at hgo
  rw [hbad, hbytes, if_neg hadd, hrun] at hgo
  have hW := State.Writes.writeMem (s.modQueue s.ev.que CmdQueue.signalled) pa
    (bytesOfWord (if add then wordOfBytes (s.readMem pa 8) + value else value))
  refine ⟨_, hgo, hW.dies, ?_, fun y hy => ?_, ?_⟩
  · refine (congrArg (fun p : Panel => (p.queues[s.ev.que]).recs) hW.panel).trans ?_
    exact (congrArg CmdQueue.recs (State.queue_modQueue s s.ev.que CmdQueue.signalled)).trans rfl
  · refine State.read_writeMem (s := s.modQueue s.ev.que CmdQueue.signalled) pa _ y hwf ?_
    rw [bytesOfWord, bytesOfNat_eq]
    simpa using hy
  · exact State.readMem64_writeMem (s.modQueue s.ev.que CmdQueue.signalled) pa _ hwf

end

/-- Settles O57: each step of the panel from the lemma that says what it does; those of a queue leave the dies, memory and the
other queues (`State.QueueQuiet`), and a packet acts once its words are parsed (`State.Parses`). -/
theorem panelSteps : Obligations.PanelSteps := by
  unfold Obligations.PanelSteps
  refine ⟨fun s => ?_, fun s => ?_⟩
  · intro d x v others
    exact ⟨⟨State.mcstArrival_dropped rfl, fun h late hl => State.mcstArrival_admitted rfl h hl⟩,
      fun m k hm hk hw hb hf => State.mcstLanding_spec hm hk hw hb rfl rfl hf,
      fun o ch ho hc hr hz => State.pbarArrivalSend_spec ho hc hr hz,
      fun ch k a hu hi hk => State.pbarRootCount_spec hu hi hk,
      fun o ho hne => State.pbarRelease_spec ho hne,
      fun ch hu => State.pbCtlWrite_spec hu,
      s.syncRecal_spec, State.exec_syncLock_early, State.syncLock_locks, State.exec_syncLock_overtaken,
      fun p v inc h => State.serviceChange_dieIn h, fun p h => State.serviceChange_dieOut h,
      fun i h => State.serviceChange_stack h, fun p on h => State.serviceChange_draining h⟩
  · intro q c v quiet words headPast serial rec_
    have hquiet : ∀ {t : State}, s.QueueQuiet t q → quiet t := fun h => ⟨h.bytes, h.dies, h.others⟩
    have hparse : ∀ {w : List Word} {type n : Nat}, words w type n → s.Parses q w type := State.parses_of
    obtain ⟨hctl, hctl'⟩ := s.qCtlWrite_spec
    obtain ⟨hel, hel0, hel1⟩ := s.leaderElection_spec
    refine ⟨s.exec_qTailWrite, s.qRheadWrite_spec, ⟨hctl, fun h => ?_⟩, ⟨hel, fun h h0 => ?_, fun p h hp hl => ?_⟩, fun w hw => ⟨fun hs => ?_, fun hs hel hp => ?_, fun k hs hk hp => ?_⟩,
      fun hf w hw hl => ?_, fun hf r src dst len done got hr hk hm => ?_, fun w n hw hn => ?_, fun l hst hl => ?_, fun hf w hw => ?_,
      fun hf a value add pa hk hwf ht hb => State.signalPacket_performs hf hk hwf ht hb,
      fun w hw => State.markPacket_spec (hparse hw)⟩
    · obtain ⟨t, he, hq, hc⟩ := hctl' h
      exact ⟨t, he, hquiet hq, hc⟩
    · obtain ⟨t, he, hq, hc⟩ := hel0 h h0
      exact ⟨t, he, hquiet hq, hc⟩
    · obtain ⟨t, he, hq, hc⟩ := hel1 p h hp hl
      exact ⟨t, he, hquiet hq, hc⟩
    · obtain ⟨t, he, hq, hc⟩ := State.launchPacket_stops (hparse hw) hs
      exact ⟨t, he, hquiet hq, hc⟩
    · obtain ⟨t, he, hb, hc, hall⟩ := State.launchPacket_sends (hparse hw) hs hel hp
      refine ⟨t, he, hb, hc, fun k hk => ?_⟩
      obtain ⟨l, hl, hit⟩ := hall k hk
      exact ⟨l, hl, hit.queue, hit.serial, hit.n, hit.words, hit.term, hit.pkt, hit.ready⟩
    · exact State.launchPacket_absent (hparse hw) hs hk hp
    · obtain ⟨t, he, hq, hc⟩ := State.copyPacket_parsed hf (hparse hw) hl
      exact ⟨t, he, hquiet hq, hc⟩
    · obtain ⟨t, a, he, hq, ha⟩ := State.copyPacket_unit hf hr hk hm
      exact ⟨t, a, he, hquiet hq, ha⟩
    · subst hn
      exact State.fencePacket_spec (hparse hw)
    · obtain ⟨h1, h2⟩ := State.fenceReread_spec hst hl
      rw [CmdQueue.fenceOpen_iff] at h1 h2
      refine ⟨h1, fun h => ?_⟩
      obtain ⟨t, he, hq, hc, hd⟩ := h2 h
      exact ⟨t, he, hquiet hq, hc, hd⟩
    · obtain ⟨t, he, hq, hc⟩ := State.signalPacket_parsed hf (hparse hw)
      exact ⟨t, he, hquiet hq, hc⟩

end Sys2Proof.Machine
end

