-- ==== Sys2Proof/Proofs/Boot.lean ====
section
/-! PROOFS. The reset of a die and its boot ROM (R349, R363, R365, R368), minimum versions (R367) and the feature lock
(R370, R372). -/

namespace Sys2Proof.Machine

section
variable {s t u : State} {d : DieId}

/-- The boot ROM of a die takes its next step later. -/
def State.RomGoesOn (s t : State) (d : DieId) : Prop :=
  ∃ r ∈ t.agenda, r.act = .dieReset ∧ r.arg.die = d ∧ r.arg.flag = true ∧ s.cycle < r.due

theorem State.romLater_goesOn (h : t.cycle = s.cycle) (d : DieId) : s.RomGoesOn (t.romLater d) d := by
  refine ⟨_, List.mem_append_right _ (List.mem_singleton.mpr rfl), rfl, rfl, rfl, ?_⟩
  change s.cycle < t.cycle + 1 + _
  omega

theorem State.TurnsDie.romLater {y : Die} (h : s.TurnsDie t d y) (e : DieId) : s.TurnsDie (t.romLater e) d y := h.of_dies rfl rfl

/-! ### Reset -/

theorem State.resetDie_turns (s : State) (d : DieId) (stage : BitVec 4) (inc : BitVec 8) :
    ∃ base, s.cycle < base ∧ s.TurnsDie (s.resetDie d stage inc) d ((s.die d).afterReset s.panel base stage inc) := by
  unfold State.resetDie
  extract_lets base t u v
  refine ⟨base, ?_, ((TurnsDie.refl s d).takeFree.modDie fun x => x.afterReset t.panel base stage inc).of_dies rfl rfl⟩
  have := Nat.lt_div_mul_add (a := s.cycle) (b := 128) (by decide)
  have : 128 * (s.cycle / 128 + 1 + Config.delay s.freeCtr) = s.cycle / 128 * 128 + 128 + 128 * Config.delay s.freeCtr := by ring
  change s.cycle < 128 * (s.cycle / 128 + 1 + Config.delay s.freeCtr) + d.val
  omega

/-- The die of a reset, at the next block of its identity key. -/
def Die.restarted (x : Die) (p : Panel) (base : Nat) (inc : BitVec 8) : Die :=
  let y := x.afterReset p base 1 inc
  { y with boot := y.boot.nextBlock }

/-- The steps of a reset that come before the boot ROM, to an incarnation. -/
def State.restart (s : State) (d : DieId) (arr : Bool) (inc : BitVec 8) : State :=
  let t := (s.resetDie d 1 inc).modDie d fun x => { x with boot := x.boot.nextBlock }
  if arr then t else (t.leaderGone d).unlock

/-- The incarnation that a reset of a die gives it. -/
def State.nextInc (s : State) (d : DieId) (arr : Bool) : BitVec 8 := if arr then (s.die d).incarnation else (s.die d).incarnation + 1

theorem State.exec_dieReset_off (h : (s.die s.ev.die).inService = false) : exec .dieReset s = .next s :=
  congrArg Host.Outcome.next (if_pos (by rw [h]; rfl))

theorem State.exec_dieReset_starts (h : (s.die s.ev.die).inService = true) (hf : s.ev.flag = false) {r : State}
    (hr : r = s.restart s.ev.die s.ev.arr (s.nextInc s.ev.die s.ev.arr)) : exec .dieReset s
    = .next (r.takeFree.sched ((r.die s.ev.die).cycBase + 1 + Config.delay r.freeCtr) .dieReset { die := s.ev.die, flag := true }) := by
  subst hr
  exact congrArg Host.Outcome.next ((if_neg (by rw [h]; decide)).trans (if_neg (by rw [hf]; decide)))

/-- What a reset leaves of the dies: the one that resets, and where the others count from. -/
theorem State.restart_die (s : State) (d : DieId) (arr : Bool) (inc : BitVec 8) {r : State} (hr : r = s.restart d arr inc) :
    ∃ base k, s.cycle < base ∧ r.die d = { (s.die d).restarted s.panel base inc with syncBase := k }
      ∧ (∀ e, e ≠ d → r.die e = { s.die e with syncBase := (r.die e).syncBase }) ∧ r.mem = s.mem := by
  obtain ⟨base, hb, ht⟩ := s.resetDie_turns d 1 inc
  replace ht := ht.modDie fun x => { x with boot := x.boot.nextBlock }
  unfold State.restart at hr
  dsimp only at hr
  generalize (s.resetDie d 1 inc).modDie d (fun x => { x with boot := x.boot.nextBlock }) = t at ht hr
  refine ⟨base, ?_⟩
  cases arr with
  | true =>
    rw [if_pos rfl] at hr
    subst hr
    exact ⟨base, hb, ht.die, fun e he => by rw [ht.die_other he], ht.mem⟩
  | false =>
    rw [if_neg Bool.false_ne_true] at hr
    have hc := State.Calls.leaderGone t d
    have hu := (t.leaderGone d).unlock_unlocks
    rw [← hr] at hu
    refine ⟨(r.die d).syncBase, hb, ?_, fun e he => ?_, (hu.mem.trans hc.mem).trans ht.mem⟩
    · rw [hu.die d, hc.die, ht.die]
      rfl
    · rw [hu.die e, hc.die, ht.die_other he]

theorem BootRegs.nextBlock_keeps (b : BootRegs) : b.nextBlock = { b with blocksUsed := b.nextBlock.blocksUsed, leaf := b.nextBlock.leaf } := by
  unfold BootRegs.nextBlock
  split <;> rfl

theorem BootRegs.nextBlock_moves {b : BootRegs} (h : b.blocksUsed < 1024) :
    b.nextBlock.blocksUsed = b.blocksUsed + 1 ∧ b.nextBlock.leaf = 1024 * b.blocksUsed := by
  unfold BootRegs.nextBlock
  rw [if_pos h]
  exact ⟨rfl, rfl⟩

theorem State.dieReset_starts (h : (s.die s.ev.die).inService = true) (hf : s.ev.flag = false) :
    ∃ t, exec .dieReset s = .next t ∧ (t.die s.ev.die).boot.stage = 1
      ∧ (t.die s.ev.die).seq.inReset = true ∧ (t.die s.ev.die).bank = (s.die s.ev.die).bank ∧ (∀ n : CtxId, (t.ctx s.ev.die n).st = .free)
      ∧ (t.die s.ev.die).incarnation = s.nextInc s.ev.die s.ev.arr
      ∧ (t.die s.ev.die).boot.minFw = (s.die s.ev.die).boot.minFw ∧ (t.die s.ev.die).boot.minUcode = (s.die s.ev.die).boot.minUcode
      ∧ (t.die s.ev.die).boot.uid = (s.die s.ev.die).boot.uid
      ∧ ((s.die s.ev.die).boot.blocksUsed < 1024 → (t.die s.ev.die).boot.blocksUsed = (s.die s.ev.die).boot.blocksUsed + 1
        ∧ (t.die s.ev.die).boot.leaf = 1024 * (s.die s.ev.die).boot.blocksUsed)
      ∧ (∀ e, e ≠ s.ev.die → t.die e = { s.die e with syncBase := (t.die e).syncBase }) ∧ t.mem = s.mem ∧ s.RomGoesOn t s.ev.die := by
  obtain ⟨r, hr⟩ : ∃ r, r = s.restart s.ev.die s.ev.arr (s.nextInc s.ev.die s.ev.arr) := ⟨_, rfl⟩
  obtain ⟨base, k, hb, hd, ho, hm⟩ := s.restart_die s.ev.die s.ev.arr (s.nextInc s.ev.die s.ev.arr) hr
  have he := State.exec_dieReset_starts h hf hr
  clear hr
  have hdie : ∀ e, (r.takeFree.sched ((r.die s.ev.die).cycBase + 1 + Config.delay r.freeCtr) .dieReset
      { die := s.ev.die, flag := true }).die e = r.die e := fun e => rfl
  have hboot := (((s.die s.ev.die).afterReset s.panel base 1 (s.nextInc s.ev.die s.ev.arr)).boot).nextBlock_keeps
  have hk : (r.die s.ev.die).boot
      = ((s.die s.ev.die).afterReset s.panel base 1 (s.nextInc s.ev.die s.ev.arr)).boot.nextBlock := by
    rw [hd]
    rfl
  refine ⟨_, he, ?_⟩
  simp only [State.ctx, hdie]
  rw [hk]
  refine ⟨?_, ?_, ?_, fun n => ?_, ?_, ?_, ?_, ?_, fun hu => BootRegs.nextBlock_moves hu, ho, hm, ?_⟩
  · rw [hboot]
    rfl
  · rw [hd]
    rfl
  · rw [hd]
    rfl
  · rw [hd]
    exact congrArg Ctx.st (Vector.getElem_replicate n.isLt)
  · rw [hd]
    rfl
  · rw [hboot]
    rfl
  · rw [hboot]
    rfl
  · rw [hboot]
    rfl
  · refine ⟨_, List.mem_append_right _ (List.mem_singleton.mpr rfl), rfl, rfl, rfl, ?_⟩
    dsimp only
    rw [hd]
    change s.cycle < base + 1 + _
    omega

/-! ### The boot ROM -/

theorem State.exec_dieReset_rom (h : (s.die s.ev.die).inService = true) (hf : s.ev.flag = true) :
    exec .dieReset s = .next (s.bootRom s.ev.die) :=
  congrArg Host.Outcome.next ((if_neg (by rw [h]; decide)).trans (if_pos hf))

/-- The boot of a die has failed with a cause. -/
def State.BootFailed (s t : State) (d : DieId) (c : BitVec 8) : Prop :=
  (∀ e, e ≠ d → t.die e = s.die e) ∧ t.die d = { s.die d with boot := { (s.die d).boot with stage := 15, cause := c } }
    ∧ t.panel.notices = s.panel.notices ++ [.bootFailed d c]

theorem State.bootFails_failed (s : State) (d : DieId) (c : BitVec 8) : s.BootFailed (s.bootFails d c) d c := by
  have h := ((TurnsDie.refl s d).modDie fun x => { x with boot := { x.boot with stage := 15, cause := c } }).of_dies
    (u := s.bootFails d c) rfl rfl
  exact ⟨fun e he => h.die_other he, h.die, rfl⟩

theorem State.bootRom_obtain (hst : (s.die d).boot.stage = 1) (hi : (s.die d).boot.images = none) : s.bootRom d = s.bootObtain d := by
  unfold State.bootRom
  dsimp only
  rw [hi]
  exact if_pos hst

theorem State.bootRom_runs (hst : (s.die d).boot.stage = 3) (hi : (s.die d).boot.images.isSome = true) : s.bootRom d = s.bootRuns d := by
  obtain ⟨l, hl⟩ := Option.isSome_iff_exists.mp hi
  unfold State.bootRom
  dsimp only
  rw [hl]
  dsimp only
  rw [if_neg (by rw [hst]; decide), if_neg (by rw [hst]; decide), if_pos hst]

theorem State.bootObtain_spec (s : State) (d : DieId) :
    (∀ l, s.imageSet d = .bytes l → s.TurnsDie (s.bootObtain d) d { s.die d with boot := { (s.die d).boot with images := some l } }
        ∧ s.RomGoesOn (s.bootObtain d) d)
      ∧ (∀ c, s.imageSet d = .fails c → s.BootFailed (s.bootObtain d) d c)
      ∧ (s.imageSet d = .waits → s.RomGoesOn (s.bootObtain d) d ∧ (s.bootObtain d).dies = s.dies ∧ (s.bootObtain d).panel = s.panel) := by
  unfold State.bootObtain
  refine ⟨fun l h => ?_, fun c h => ?_, fun h => ?_⟩
  · rw [h]
    exact ⟨((TurnsDie.refl s d).modDie fun x => { x with boot := { x.boot with images := some l } }).romLater d,
      State.romLater_goesOn rfl d⟩
  · rw [h]
    exact s.bootFails_failed d c
  · rw [h]
    exact ⟨State.romLater_goesOn rfl d, rfl, rfl⟩

theorem State.bootRuns_turns (s : State) (d : DieId) : s.TurnsDie (s.bootRuns d) d
    { s.die d with boot := { (s.die d).boot with stage := 4 }, seq := { (s.die d).seq with inReset := false } } :=
  let h := (TurnsDie.refl s d).modDie fun x =>
    { x with boot := { x.boot with stage := 4 }, seq := { x.seq with inReset := false } }
  h.of_dies (State.Calls.redeal _ d).dies (State.Calls.redeal _ d).mem

/-- The die once an image of kind 0, its firmware, or 1, its microcode, is loaded. -/
def Die.loaded (x : Die) (k : Nat) (m : Image) : Die :=
  if k = 0 then { x with boot := { x.boot with stage := 2, fwSvn := m.svn, fwDigest := m.digest, firmware := m.payload
                                               sram := sramOf m.payload } }
  else { x with boot := { x.boot with stage := 3, ucodeSvn := m.svn, ucodeDigest := m.digest, microcode := m.payload } }

/-- What the boot ROM verifies: the firmware, and then the microcode behind it. -/
def BootRegs.verifies (b : BootRegs) (k : Nat) (l : List Byte) : Except (BitVec 8) Image :=
  verifyImage b.pubKeyHash k (if k = 0 then b.minFw else b.minUcode).toNat (if k = 0 then l else l.drop (imageLen l))

/-- The two loading steps of the boot ROM, as one. -/
theorem State.bootRom_loads {l : List Byte} {k : Nat} (hst : (s.die d).boot.stage.toNat = k + 1) (hk : k < 2)
    (hi : (s.die d).boot.images = some l) : s.bootRom d = match (s.die d).boot.verifies k l with
      | .error c => s.bootFails d c
      | .ok m => (s.modDie d fun x => x.loaded k m).romLater d := by
  unfold State.bootRom
  dsimp only
  rw [hi]
  dsimp only
  match k, hk with
  | 0, _ =>
    rw [if_pos (BitVec.eq_of_toNat_eq (y := 1) hst)]
    rfl
  | 1, _ =>
    have h2 := BitVec.eq_of_toNat_eq (y := 2) hst
    rw [if_neg (by rw [h2]; decide), if_pos h2]
    rfl

theorem State.bootRom_load_spec {l : List Byte} {k : Nat} (hst : (s.die d).boot.stage.toNat = k + 1) (hk : k < 2)
    (hi : (s.die d).boot.images = some l) :
    (∀ c, (s.die d).boot.verifies k l = .error c → s.BootFailed (s.bootRom d) d c)
      ∧ ∀ m, (s.die d).boot.verifies k l = .ok m → s.TurnsDie (s.bootRom d) d ((s.die d).loaded k m) ∧ s.RomGoesOn (s.bootRom d) d := by
  rw [State.bootRom_loads hst hk hi]
  refine ⟨fun c h => ?_, fun m h => ?_⟩
  · rw [h]
    exact s.bootFails_failed d c
  · rw [h]
    exact ⟨((TurnsDie.refl s d).modDie fun x => x.loaded k m).romLater d, State.romLater_goesOn rfl d⟩

theorem Die.loaded_spec (x : Die) {k : Nat} (m : Image) (hst : x.boot.stage.toNat = k + 1) (hk : k < 2) :
    (x.loaded k m).boot.stage = x.boot.stage + 1
      ∧ (k = 0 → (x.loaded k m).boot.fwSvn = m.svn ∧ (x.loaded k m).boot.fwDigest = m.digest ∧ (x.loaded k m).boot.firmware = m.payload)
      ∧ (k = 1 → (x.loaded k m).boot.ucodeSvn = m.svn ∧ (x.loaded k m).boot.ucodeDigest = m.digest
        ∧ (x.loaded k m).boot.microcode = m.payload) := by
  have hs : x.boot.stage + 1 = BitVec.ofNat 4 (k + 2) := BitVec.eq_of_toNat_eq (by
    rw [BitVec.toNat_add, hst, BitVec.toNat_ofNat]
    rfl)
  rw [hs]
  unfold Die.loaded
  match k, hk with
  | 0, _ => exact ⟨rfl, fun _ => ⟨rfl, rfl, rfl⟩, fun h => absurd h (by decide)⟩
  | 1, _ => exact ⟨rfl, fun h => absurd h (by decide), fun _ => ⟨rfl, rfl, rfl⟩⟩

/-! ### Minimum versions -/

/-- Whether a write of a minimum version has an effect (R367). -/
def BootRegs.rises (b : BootRegs) (v : Word) : Prop :=
  b.stage = 4 ∧ (if v.getLsbD 63 then b.minUcode < v.extractLsb' 0 6 ∧ v.extractLsb' 0 6 ≤ b.ucodeSvn
    else b.minFw < v.extractLsb' 0 6 ∧ v.extractLsb' 0 6 ≤ b.fwSvn)

/-- The registers after a write of a minimum version (R367). -/
def BootRegs.commitSvn (b : BootRegs) (uc : Bool) (n : BitVec 6) : BootRegs :=
  if b.stage ≠ 4 then b
  else if uc then (if b.minUcode < n && n ≤ b.ucodeSvn then { b with minUcode := n } else b)
  else if b.minFw < n && n ≤ b.fwSvn then { b with minFw := n } else b

theorem State.exec_svnCommit (s : State) : exec .svnCommit s = .next (s.setDie s.ev.die { s.die s.ev.die with
    boot := (s.die s.ev.die).boot.commitSvn (s.ev.val.getLsbD 63) (s.ev.val.extractLsb' 0 6) }) := by
  rw [← ofNat_bits, ← bitAt_eq]
  rfl

theorem BootRegs.commitSvn_rises {b : BootRegs} {v : Word} (h : b.rises v) : b.commitSvn (v.getLsbD 63) (v.extractLsb' 0 6)
    = if v.getLsbD 63 then { b with minUcode := v.extractLsb' 0 6 } else { b with minFw := v.extractLsb' 0 6 } := by
  obtain ⟨hst, h⟩ := h
  unfold BootRegs.commitSvn
  rw [if_neg (by simpa using hst)]
  cases hu : v.getLsbD 63 with
  | true =>
    rw [hu, if_pos rfl] at h
    rw [if_pos rfl, if_pos rfl, if_pos (by simpa using h)]
  | false =>
    rw [hu, if_neg Bool.false_ne_true] at h
    rw [if_neg Bool.false_ne_true, if_neg Bool.false_ne_true, if_pos (by simpa using h)]

theorem BootRegs.commitSvn_stays {b : BootRegs} {v : Word} (h : ¬b.rises v) : b.commitSvn (v.getLsbD 63) (v.extractLsb' 0 6) = b := by
  unfold BootRegs.commitSvn
  split
  · rfl
  · next hst =>
    have hst : b.stage = 4 := by simpa using hst
    unfold BootRegs.rises at h
    cases hu : v.getLsbD 63 with
    | true =>
      rw [hu, if_pos rfl] at h
      rw [if_pos rfl, if_neg (fun hn => h ⟨hst, by simpa using hn⟩)]
    | false =>
      rw [hu, if_neg Bool.false_ne_true] at h
      rw [if_neg Bool.false_ne_true, if_neg (fun hn => h ⟨hst, by simpa using hn⟩)]

theorem State.svnCommit_spec (s : State) :
    ((s.die s.ev.die).boot.rises s.ev.val → exec .svnCommit s = .next (s.setDie s.ev.die { s.die s.ev.die with
        boot := if s.ev.val.getLsbD 63 then { (s.die s.ev.die).boot with minUcode := s.ev.val.extractLsb' 0 6 }
          else { (s.die s.ev.die).boot with minFw := s.ev.val.extractLsb' 0 6 } }))
      ∧ (¬(s.die s.ev.die).boot.rises s.ev.val → exec .svnCommit s = .next s) := by
  rw [State.exec_svnCommit]
  refine ⟨fun h => by rw [BootRegs.commitSvn_rises h], fun h => ?_⟩
  rw [BootRegs.commitSvn_stays h]
  exact congrArg Host.Outcome.next (s.setDie_self s.ev.die)

/-! ### The feature lock -/

/-- Whether a write of feat_ctl reaches the lock (R370). -/
def State.LockOpen (s : State) : Prop :=
  s.primary = some s.ev.die ∧ s.panel.featLocked = false ∧ s.ev.val.getLsbD 0 = true

theorem State.exec_featureLock (s : State) : exec .featureLock s = .next (
    if s.primary ≠ some s.ev.die || s.panel.featLocked || !s.ev.val.getLsbD 0 then s
    else if !(s.die s.ev.die).boot.featAcc.getLsbD 0 then
      s.setDie s.ev.die { s.die s.ev.die with boot := { (s.die s.ev.die).boot with featStatus := 2 } }
    else { s with
      panel := { s.panel with featLocked := true, featSet := (s.die s.ev.die).boot.featAcc }
      dies := s.dies.map fun (x : Die) =>
        { x with boot := { x.boot with featAcc := (s.die s.ev.die).boot.featAcc, featStatus := 1, featLock := true } } }) := by
  rw [← bitAt_eq, show (s.die s.ev.die).boot.featAcc.getLsbD 0 = natBit (s.die s.ev.die).boot.featAcc.toNat 0 from
    (natBit_eq _ _).symm]
  rfl

theorem State.lockOpen_iff (s : State) : ¬(s.primary ≠ some s.ev.die || s.panel.featLocked || !s.ev.val.getLsbD 0) = true ↔ s.LockOpen := by
  unfold State.LockOpen
  simp [and_assoc]

theorem State.featureLock_spec (s : State) :
    (s.LockOpen → (s.die s.ev.die).boot.featAcc.getLsbD 0 = false → exec .featureLock s
        = .next (s.setDie s.ev.die { s.die s.ev.die with boot := { (s.die s.ev.die).boot with featStatus := 2 } }))
      ∧ (s.LockOpen → (s.die s.ev.die).boot.featAcc.getLsbD 0 = true → ∃ t, exec .featureLock s = .next t
        ∧ t.panel = { s.panel with featLocked := true, featSet := (s.die s.ev.die).boot.featAcc } ∧ t.mem = s.mem ∧ t.agenda = s.agenda
        ∧ ∀ e : DieId, t.die e = { s.die e with boot :=
            { (s.die e).boot with featAcc := (s.die s.ev.die).boot.featAcc, featStatus := 1, featLock := true } })
      ∧ (¬s.LockOpen → exec .featureLock s = .next s) := by
  rw [State.exec_featureLock]
  refine ⟨fun h h0 => ?_, fun h h1 => ?_, fun h => ?_⟩
  · rw [if_neg (s.lockOpen_iff.mpr h), if_pos (by rw [h0]; rfl)]
  · rw [if_neg (s.lockOpen_iff.mpr h), if_neg (by rw [h1]; decide)]
    exact ⟨_, rfl, rfl, rfl, rfl, fun e => Vector.getElem_map _ e.isLt⟩
  · rw [if_pos]
    by_contra hc
    exact h (s.lockOpen_iff.mp hc)

end

end Sys2Proof.Machine
end

