-- ==== Sys2Proof/Proofs/Management.lean ====
section
/-! PROOFS. The services of the management port (R369, R376), power and heat (R373, R374), and the accesses of stewards
(R361, R362). -/

namespace Sys2Proof.Machine

section
variable {s t u : State} {d p : DieId}

/-! ### Signing -/

/-- What a sealed record holds can be read again. -/
theorem gcmOpen_gcmSeal (key : BitVec 256) (iv : BitVec 96) (aad msg : List Byte) :
    (gcmOpen key iv aad (gcmSeal key iv aad msg).1 (gcmSeal key iv aad msg).2).isSome = true := by
  unfold gcmOpen gcmSeal
  dsimp only
  rw [if_pos rfl]
  rfl

/-- From `s` to `t` dies have signed: only boot registers, the secure stores and free values may have changed. -/
structure State.Signs (s t : State) : Prop where
  rest : t = { s with dies := t.dies, panel := { s.panel with stores := t.panel.stores }, freeCtr := t.freeCtr }
  uid : ∀ d, (t.die d).boot.uid = (s.die d).boot.uid

namespace State.Signs

theorem refl (s : State) : s.Signs s := ⟨rfl, fun _ => rfl⟩

theorem trans (h : s.Signs t) (k : t.Signs u) : s.Signs u := by
  refine ⟨?_, fun d => (k.uid d).trans (h.uid d)⟩
  rw [k.rest, h.rest]

theorem modBoot (s : State) (d : DieId) (f : BootRegs → BootRegs) (h : (f (s.die d).boot).uid = (s.die d).boot.uid) :
    s.Signs (s.modDie d fun x => { x with boot := f x.boot }) := by
  refine ⟨rfl, fun e => ?_⟩
  by_cases he : d = e
  · subst he
    rw [State.die_modDie]
    exact h
  · rw [State.die_modDie_other _ _ he]

end State.Signs

/-- What signing leaves of the other dies. -/
structure State.SignsAt (s t : State) (d : DieId) : Prop where
  signs : s.Signs t
  others : ∀ e, e ≠ d → (t.die e).boot = (s.die e).boot
  stores : ∀ e, e ≠ d → (t.panel.stores.find? fun r => r.1 == e) = s.panel.stores.find? fun r => r.1 == e

theorem State.SignsAt.trans (h : s.SignsAt t d) (k : t.SignsAt u d) : s.SignsAt u d :=
  ⟨h.signs.trans k.signs, fun e he => (k.others e he).trans (h.others e he), fun e he => (k.stores e he).trans (h.stores e he)⟩

theorem State.signsAt_modBoot (s : State) (d : DieId) (f : BootRegs → BootRegs) (h : (f (s.die d).boot).uid = (s.die d).boot.uid) :
    s.SignsAt (s.modDie d fun x => { x with boot := f x.boot }) d :=
  ⟨.modBoot s d f h, fun _ he => congrArg Die.boot (State.die_modDie_other _ _ he.symm), fun _ _ => rfl⟩

/-- A record of secure storage that is replaced is that of its die. -/
theorem find_store {l : List (DieId × SealedStore)} (x : SealedStore) (d e : DieId) :
    (((d, x) :: l.filter fun r => r.1 != d).find? fun r => r.1 == e) = if d = e then some (d, x) else l.find? fun r => r.1 == e := by
  rw [List.find?_cons]
  by_cases h : d = e
  · rw [if_pos h, show ((d, x).1 == e) = true by simpa using h]
  · rw [if_neg h, show ((d, x).1 == e) = false by simpa using h, List.find?_filter]
    dsimp only
    refine congrArg (fun f => l.find? f) (funext fun r => ?_)
    by_cases hr : r.1 = e
    · simp [hr, Ne.symm h]
    · simp [hr]

theorem State.storeRead_congr (hu : (t.die d).boot.uid = (s.die d).boot.uid)
    (hs : (t.panel.stores.find? fun r => r.1 == d) = s.panel.stores.find? fun r => r.1 == d) : t.storeRead d = s.storeRead d := by
  unfold State.storeRead
  rw [hu, hs]

/-- A die that can read its secure storage signs, and can read it again. -/
theorem State.signWith_spec (s : State) (d : DieId) (index : Nat) (msg : List Byte) :
    s.SignsAt (s.signWith d index msg).1 d ∧ ((s.storeRead d).isSome = true →
      ((s.signWith d index msg).1.die d).boot = (s.die d).boot ∧ ((s.signWith d index msg).1.storeRead d).isSome = true) := by
  unfold State.signWith
  cases hr : s.storeRead d with
  | none => exact ⟨s.signsAt_modBoot d (fun b => { b with ended := true }) rfl, fun h => absurd h (by decide)⟩
  | some l =>
    dsimp only
    have hf := fun e => find_store (l := s.panel.stores) (d := d) (e := e)
      { iv := Config.storeIv s.freeCtr
        ct := (gcmSeal (Config.storeKey (Config.dieSecret (s.die d).boot.uid)) (Config.storeIv s.freeCtr) []
          (storePlain (l.take 48) (index % 1024))).1
        tag := (gcmSeal (Config.storeKey (Config.dieSecret (s.die d).boot.uid)) (Config.storeIv s.freeCtr) []
          (storePlain (l.take 48) (index % 1024))).2 }
    refine ⟨⟨⟨rfl, fun _ => rfl⟩, fun _ _ => rfl, fun e he => (hf e).trans (if_neg he.symm)⟩, fun _ => ⟨rfl, ?_⟩⟩
    have hw := (hf d).trans (if_pos rfl)
    unfold State.storeRead
    dsimp only
    rw [show ((s.storeWrite d (storePlain (l.take 48) (index % 1024))).takeFree.panel.stores.find? fun r => r.1 == d) = _ from hw]
    exact gcmOpen_gcmSeal _ _ _ _

/-- The next index of a key with room left in its block. -/
theorem BootRegs.takeLeaf_of {b : BootRegs} (h : b.leaf < 1024 * 1024) (hb : b.leaf % 1024 < 1023) :
    b.takeLeaf = some (b.leaf, { b with leaf := b.leaf + 1 }) := by
  unfold BootRegs.takeLeaf
  rw [if_neg (Nat.not_le.mpr h)]
  dsimp only
  rw [if_neg (by omega)]

/-- The boot registers of a die that has taken a leaf. -/
theorem BootRegs.takeLeaf_uid {b c : BootRegs} {n : Nat} (h : b.takeLeaf = some (n, c)) : c.uid = b.uid := by
  unfold BootRegs.takeLeaf at h
  split at h
  · exact absurd h (by simp)
  · dsimp only at h
    rw [Option.some.injEq, Prod.mk.injEq] at h
    rw [← h.2]
    split
    · rw [b.nextBlock_keeps]
    · rfl

/-! ### Attestation -/

theorem State.attestDie_signs (s : State) (d : DieId) (nonce : BitVec 256) : s.SignsAt (s.attestDie d nonce).1 d := by
  unfold State.attestDie
  dsimp only
  split
  · exact ⟨.refl s, fun _ _ => rfl, fun _ _ => rfl⟩
  · split
    · exact ⟨.refl s, fun _ _ => rfl, fun _ _ => rfl⟩
    · next n b h =>
      exact (s.signsAt_modBoot d (fun _ => b) (BootRegs.takeLeaf_uid h)).trans (State.signWith_spec _ _ _ _).1

/-- What a die that runs must have for its signatures (R368). -/
structure State.CanSign (s : State) (d : DieId) (leaf : Nat) : Prop where
  stage : (s.die d).boot.stage = 4
  runs : (s.die d).boot.ended = false
  leaf : (s.die d).boot.leaf = leaf
  reads : (s.storeRead d).isSome = true

theorem State.CanSign.other {n : Nat} (h : s.CanSign p n) (k : s.SignsAt t d) (hd : p ≠ d) : t.CanSign p n :=
  ⟨by rw [k.others p hd]; exact h.stage, by rw [k.others p hd]; exact h.runs, by rw [k.others p hd]; exact h.leaf,
    by rw [State.storeRead_congr (k.signs.uid p) (k.stores p hd)]; exact h.reads⟩

/-- A die that takes a leaf and signs. -/
theorem State.CanSign.signs {n : Nat} (h : s.CanSign p n) (hn : n < 1024 * 1024) (hb : n % 1024 < 1023) (msg : List Byte) :
    (s.die p).boot.takeLeaf = some (n, { (s.die p).boot with leaf := n + 1 })
      ∧ ((s.modDie p fun x => { x with boot := { (s.die p).boot with leaf := n + 1 } }).signWith p n msg).1.CanSign p (n + 1) := by
  have hl := h.leaf
  refine ⟨by subst hl; exact BootRegs.takeLeaf_of hn hb, ?_⟩
  have hd : ((s.modDie p fun x => { x with boot := { (s.die p).boot with leaf := n + 1 } }).die p).boot
      = { (s.die p).boot with leaf := n + 1 } := by rw [State.die_modDie]
  have hr : ((s.modDie p fun x => { x with boot := { (s.die p).boot with leaf := n + 1 } }).storeRead p).isSome = true := by
    exact (congrArg Option.isSome (State.storeRead_congr (s := s) ((congrArg BootRegs.uid hd).trans rfl) rfl)).trans h.reads
  obtain ⟨hs1, hs2⟩ := (State.signWith_spec _ p n msg).2 hr
  exact ⟨by rw [hs1, hd]; exact h.stage, by rw [hs1, hd]; exact h.runs, by rw [hs1, hd], hs2⟩

theorem State.attestDie_self {n : Nat} (h : s.CanSign p n) (hn : n < 1024 * 1024) (hb : n % 1024 < 1023) (nonce : BitVec 256) :
    (s.attestDie p nonce).1.CanSign p (n + 1) := by
  obtain ⟨ht, hs⟩ := h.signs hn hb (attestBody (s.die p) nonce)
  unfold State.attestDie
  dsimp only
  rw [if_neg (by rw [h.stage]; decide), ht]
  exact hs

/-- The next part of the report. -/
def State.attestNext (nonce : BitVec 256) (acc : State × List Byte) (d : DieId) : State × List Byte :=
  ((acc.1.attestDie d nonce).1, acc.2 ++ (acc.1.attestDie d nonce).2)

/-- The parts of the report: the die `p` takes one leaf, if it is among those that sign. -/
theorem State.attestNext_foldl (nonce : BitVec 256) {p : DieId} (l : List DieId) : ∀ acc : State × List Byte, l.Nodup →
    acc.1.Signs (l.foldl (State.attestNext nonce) acc).1 ∧ ∀ n, acc.1.CanSign p n →
      (p ∈ l → n < 1024 * 1024 ∧ n % 1024 < 1023) → (l.foldl (State.attestNext nonce) acc).1.CanSign p (if p ∈ l then n + 1 else n) := by
  induction l with
  | nil => exact fun acc _ => ⟨.refl _, fun n h _ => h⟩
  | cons d l ih =>
    intro acc hnd
    obtain ⟨hd, hl⟩ := List.nodup_cons.mp hnd
    have hs := acc.1.attestDie_signs d nonce
    obtain ⟨ih1, ih2⟩ := ih (State.attestNext nonce acc d) hl
    refine ⟨hs.signs.trans ih1, fun n h hn => ?_⟩
    by_cases hp : p = d
    · subst hp
      obtain ⟨hn, hb⟩ := hn List.mem_cons_self
      have := ih2 (n + 1) (State.attestDie_self h hn hb nonce) fun hm => absurd hm hd
      rw [if_neg hd] at this
      rw [if_pos List.mem_cons_self]
      exact this
    · have := ih2 n (h.other hs hp) fun hm => hn (List.mem_cons_of_mem _ hm)
      simpa [hp] using this

theorem State.primaryRuns_iff : s.primaryRuns = some p ↔ s.primary = some p ∧ (s.die p).boot.stage = 4 ∧ (s.die p).boot.ended = false := by
  unfold State.primaryRuns
  simp [Option.filter_eq_some_iff]

theorem State.primary_inService (h : s.primary = some p) : (s.die p).inService = true := by
  have := List.find?_some h
  simp only [Bool.and_eq_true] at this
  exact this.2

theorem State.exec_attestationRequest (h : s.primaryRuns = some p) : exec .attestationRequest s = .next (s.manage p s.ev.mgmt) := by
  change Host.Outcome.next _ = _
  rw [h]

theorem State.exec_attestationRequest_none (h : s.primaryRuns = none) : exec .attestationRequest s = .next s := by
  change Host.Outcome.next _ = _
  rw [h]

/-- What the primary die signs: the nonce, the dies' parts, the exposure list and the features (R369). -/
def State.reportBody (s : State) (nonce : BitVec 256) (parts : List Byte) : List Byte :=
  bytesOfNat 32 nonce.toNat ++ parts ++ s.exposureBytes ++ bytesOfNat 16 (if s.panel.featLocked then s.panel.featSet.toNat else 0)

theorem State.attest_report (hp : s.primaryRuns = some p) (hr : (s.storeRead p).isSome = true)
    (hl : (s.die p).boot.leaf < 1024 * 1024) (hb : (s.die p).boot.leaf % 1024 < 1022) (nonce : BitVec 256) :
    ∃ r, (s.attest p nonce).panel.notices = s.panel.notices ++ [.attestation r] ∧ (s.attest p nonce).mem = s.mem
      ∧ (s.attest p nonce).agenda = s.agenda ∧ r.take 32 = bytesOfNat 32 nonce.toNat
      ∧ ((s.attest p nonce).die p).boot.leaf = (s.die p).boot.leaf + 2 := by
  obtain ⟨h1, h2, h3⟩ := State.primaryRuns_iff.mp hp
  have hmem : p ∈ (List.finRange 128).filter fun d => (s.die d).inService :=
    List.mem_filter.mpr ⟨List.mem_finRange p, State.primary_inService h1⟩
  obtain ⟨hs, hc⟩ := State.attestNext_foldl nonce (p := p) ((List.finRange 128).filter fun d => (s.die d).inService) (s, [])
    ((List.nodup_finRange 128).filter _)
  replace hc := hc (s.die p).boot.leaf ⟨h2, h3, rfl, hr⟩ fun _ => ⟨hl, by omega⟩
  rw [if_pos hmem] at hc
  have he : s.attest p nonce = (match ((List.finRange 128).filter fun d => (s.die d).inService).foldl (State.attestNext nonce) (s, []) with
    | (t, parts) => match (t.die p).boot.takeLeaf with
      | none => t
      | some (n, b) =>
        let r := (t.modDie p fun x => { x with boot := b }).signWith p n (t.reportBody nonce parts)
        if (r.1.die p).boot.ended then r.1 else r.1.notify (.attestation (t.reportBody nonce parts ++ r.2))) := rfl
  rw [he]
  generalize ((List.finRange 128).filter fun d => (s.die d).inService).foldl (State.attestNext nonce) (s, []) = acc at hs hc
  obtain ⟨t, parts⟩ := acc
  dsimp only at hs hc ⊢
  obtain ⟨ht, hsg⟩ := hc.signs (by omega) (by omega) (t.reportBody nonce parts)
  have hu : (t.modDie p fun x => { x with boot := { (t.die p).boot with leaf := (s.die p).boot.leaf + 1 + 1 } }).Signs _ :=
    (State.signWith_spec _ p ((s.die p).boot.leaf + 1) (t.reportBody nonce parts)).1.signs
  rw [ht]
  dsimp only
  generalize (t.modDie p fun x => { x with boot := { (t.die p).boot with leaf := (s.die p).boot.leaf + 1 + 1 } }).signWith p
    ((s.die p).boot.leaf + 1) (t.reportBody nonce parts) = r at hsg hu
  obtain ⟨u, sig⟩ := r
  dsimp only at hsg hu ⊢
  rw [if_neg (by rw [hsg.runs]; decide)]
  have hv := (State.Signs.modBoot t p (fun _ => { (t.die p).boot with leaf := (s.die p).boot.leaf + 1 + 1 }) rfl).trans hu
  have hw := hs.trans hv
  refine ⟨t.reportBody nonce parts ++ sig, ?_, ?_, ?_, ?_, hsg.leaf⟩
  · exact congrArg (· ++ _) ((congrArg (fun s : State => s.panel.notices) hw.rest).trans rfl)
  · exact (congrArg State.mem hw.rest).trans rfl
  · exact (congrArg State.agenda hw.rest).trans rfl
  · unfold State.reportBody
    rw [List.append_assoc, List.append_assoc, List.append_assoc, List.take_left']
    rw [bytesOfNat_eq, List.length_map, List.length_range]

theorem State.not_booting (h : ∀ e, s.booting e = false) : ((List.finRange 128).any s.booting) = false := by
  rw [List.any_eq_false]
  exact fun e _ => by rw [h e]; decide

theorem State.attestationRequest_waits (hp : s.primaryRuns = some p) (hm : s.ev.mgmt = .attest) (hb : ∃ e, s.booting e = true) :
    ∃ t r, exec .attestationRequest s = .next t ∧ t.agenda = s.agenda ++ [r] ∧ r.act = .attestationRequest
      ∧ r.arg.nonce = s.ev.nonce ∧ s.cycle < r.due ∧ t.dies = s.dies ∧ t.panel = s.panel := by
  obtain ⟨e, he⟩ := hb
  have hany : ((List.finRange 128).any s.booting) = true := List.any_eq_true.mpr ⟨e, List.mem_finRange e, he⟩
  rw [State.exec_attestationRequest hp, hm]
  refine ⟨_, _, congrArg Host.Outcome.next (if_pos hany), rfl, rfl, rfl, ?_, rfl, rfl⟩
  change s.cycle < s.cycle + 1 + _
  omega

theorem State.attestationRequest_reports (hp : s.primaryRuns = some p) (hm : s.ev.mgmt = .attest) (hb : ∀ e, s.booting e = false)
    (hr : (s.storeRead p).isSome = true) (hl : (s.die p).boot.leaf < 1024 * 1024) (hn : (s.die p).boot.leaf % 1024 < 1022) :
    ∃ t r, exec .attestationRequest s = .next t ∧ t.panel.notices = s.panel.notices ++ [.attestation r] ∧ t.mem = s.mem
      ∧ t.agenda = s.agenda ∧ r.take 32 = bytesOfNat 32 s.ev.nonce.toNat ∧ (t.die p).boot.leaf = (s.die p).boot.leaf + 2 := by
  obtain ⟨r, h⟩ := State.attest_report hp hr hl hn s.ev.nonce
  rw [State.exec_attestationRequest hp, hm]
  exact ⟨_, r, congrArg Host.Outcome.next (if_neg (by rw [State.not_booting hb]; decide)), h⟩

/-- Bytes written into the flash stand there, and the others stay. -/
theorem flash_write {α : Type} (f l : List α) (z : α) (off k : Nat) :
    (k < l.length → (f.take off ++ List.replicate (off - f.length) z ++ l ++ f.drop (off + l.length))[off + k]? = l[k]?)
      ∧ (k < off ∨ off + l.length ≤ k → k < f.length →
        (f.take off ++ List.replicate (off - f.length) z ++ l ++ f.drop (off + l.length))[k]? = f[k]?) := by
  have hlen : (f.take off ++ List.replicate (off - f.length) z).length = off := by simp; omega
  refine ⟨fun hk => ?_, fun hk hf => ?_⟩
  · rw [List.getElem?_append_left (by rw [List.length_append, hlen]; omega), List.getElem?_append_right (by omega), hlen,
      Nat.add_sub_cancel_left]
  · rcases hk with hk | hk
    · rw [List.append_assoc, List.append_assoc, List.getElem?_append_left (by simp; omega), List.getElem?_take_of_lt hk]
    · rw [List.getElem?_append_right (by rw [List.length_append, hlen]; omega), List.length_append, hlen, List.getElem?_drop,
        Nat.add_sub_cancel' hk]

theorem State.attestationRequest_image (hp : s.primaryRuns = some p) {off : Nat} {l : List Byte} (hm : s.ev.mgmt = .image off l) :
    ∃ t, exec .attestationRequest s = .next t ∧ t.dies = s.dies ∧ t.mem = s.mem
      ∧ (∀ k, k < l.length → t.panel.flash[off + k]? = l[k]?)
      ∧ ∀ k, k < off ∨ off + l.length ≤ k → k < s.panel.flash.length → t.panel.flash[k]? = s.panel.flash[k]? := by
  rw [State.exec_attestationRequest hp, hm]
  exact ⟨_, rfl, rfl, rfl, fun k => (flash_write s.panel.flash l 0 off k).1, fun k => (flash_write s.panel.flash l 0 off k).2⟩

end

end Sys2Proof.Machine
end

