-- ==== Sys2Proof/Proofs/Stewards.lean ====
section
/-! PROOFS. Power and heat (R373, R374), and the accesses of stewards to banks and to panel memory (R361, R362). -/

namespace Sys2Proof.Machine

section
variable {s t u : State} {d p : DieId}

/-! ### Power and heat -/

/-- What taking a die out of service leaves (R335, R374). -/
theorem State.dieOff_spec (s : State) (d : DieId) : ((s.dieOff d).die d).inService = false ∧ ((s.dieOff d).die d).seq.inReset = true
    ∧ (s.dieOff d).panel.notices = s.panel.notices ∧ (s.dieOff d).panel.locked = false
    ∧ (∀ r ∈ (s.dieOff d).agenda, r.inside d = false) ∧ (s.dieOff d).mem = s.mem := by
  obtain ⟨base, -, ht⟩ := s.resetDie_turns d 0 ((s.die d).incarnation + 1)
  have hp : (s.resetDie d 0 ((s.die d).incarnation + 1)).panel.notices = s.panel.notices := rfl
  have ha := s.resetDie_agenda d 0 ((s.die d).incarnation + 1)
  unfold State.dieOff
  dsimp only
  generalize s.resetDie d 0 ((s.die d).incarnation + 1) = r at ht hp ha
  have hu := ht.modDie fun x => { x with inService := false }
  obtain ⟨v, hc, hl⟩ := (r.modDie d fun x => { x with inService := false }).dieChanged_unlocks d
  obtain ⟨-, hlock, hin⟩ := (r.modDie d fun x => { x with inService := false }).dieChanged_spec d
  have hd := hl.die d
  rw [hc.die, hu.die] at hd
  refine ⟨?_, ?_, ?_, hlock, hin d ha, (hl.mem.trans hc.mem).trans hu.mem⟩
  · exact (congrArg Die.inService hd).trans rfl
  · exact (congrArg (fun x : Die => x.seq.inReset) hd).trans rfl
  · rw [hl.panel, hc.panel]
    exact hp

theorem State.heats_cold {v : BitVec 16} (h : ¬1760 < v.toInt) :
    s.heats d v = s.setDie d { s.die d with boot := { (s.die d).boot with temp := v } } := if_neg h

theorem State.heats_hot {v : BitVec 16} (h : 1760 < v.toInt) : ((s.heats d v).die d).inService = false
    ∧ ((s.heats d v).die d).seq.inReset = true ∧ ((s.heats d v).die d).boot.temp = v
    ∧ (s.heats d v).panel.notices = s.panel.notices ++ [.thermal d] ∧ (s.heats d v).panel.locked = false
    ∧ (∀ r ∈ (s.heats d v).agenda, r.inside d = false) ∧ (s.heats d v).mem = s.mem := by
  have he : s.heats d v = ((s.dieOff d).modDie d fun x => { x with boot := { x.boot with temp := v } }).notify (.thermal d) := if_pos h
  obtain ⟨h1, h2, h3, h4, h5, h6⟩ := s.dieOff_spec d
  rw [he]
  generalize s.dieOff d = r at h1 h2 h3 h4 h5 h6
  have hd : (((r.modDie d fun x => { x with boot := { x.boot with temp := v } }).notify (.thermal d)).die d)
      = { r.die d with boot := { (r.die d).boot with temp := v } } :=
    r.die_modDie d fun x => { x with boot := { x.boot with temp := v } }
  rw [hd]
  exact ⟨h1, h2, rfl, congrArg (· ++ [Notice.thermal d]) h3, h4, h5, h6⟩

theorem State.exec_thermalShutdown (s : State) : exec .thermalShutdown s = .next (s.heats s.ev.die (s.ev.val.extractLsb' 0 16)) := by
  rw [← ofNat_bits]
  rfl

/-- The state as the power of a die is measured. -/
def State.powered (s : State) : State := s.modDie s.ev.die fun x =>
  { x with seq := { x.seq with stall := s.ev.flag }, boot := { x.boot with powerMw := s.ev.val.extractLsb' 0 32 } }

theorem State.exec_powerThrottle (s : State) : exec .powerThrottle s = .next (s.powered.heats s.ev.die (s.ev.val.extractLsb' 32 16)) := by
  unfold State.powered
  rw [← ofNat_bits, ← ofNat_bits]
  rfl

theorem State.powerThrottle_cold (h : ¬1760 < (s.ev.val.extractLsb' 32 16).toInt) : exec .powerThrottle s
    = .next (s.setDie s.ev.die { s.die s.ev.die with
        seq := { (s.die s.ev.die).seq with stall := s.ev.flag }
        boot := { (s.die s.ev.die).boot with powerMw := s.ev.val.extractLsb' 0 32, temp := s.ev.val.extractLsb' 32 16 } }) := by
  have hd : s.powered.die s.ev.die = { s.die s.ev.die with
      seq := { (s.die s.ev.die).seq with stall := s.ev.flag }
      boot := { (s.die s.ev.die).boot with powerMw := s.ev.val.extractLsb' 0 32 } } := s.die_modDie s.ev.die _
  rw [State.exec_powerThrottle, State.heats_cold h, hd]
  exact congrArg Host.Outcome.next (s.setDie_setDie _ _ _)

theorem State.powerThrottle_hot (h : 1760 < (s.ev.val.extractLsb' 32 16).toInt) : ∃ t, exec .powerThrottle s = .next t
    ∧ (t.die s.ev.die).inService = false ∧ t.panel.notices = s.panel.notices ++ [.thermal s.ev.die] := by
  obtain ⟨h1, -, -, h4, -⟩ := State.heats_hot (s := s.powered) (d := s.ev.die) h
  exact ⟨_, s.exec_powerThrottle, h1, h4⟩

/-! ### Bank space -/

theorem State.exec_stewardBankAccess (h : (s.die s.ev.die).coreRuns s.ev.acc.core = true) :
    exec .stewardBankAccess s = .next (s.stewardBank s.ev.die s.ev.acc) := congrArg Host.Outcome.next (if_pos h)

/-- The words that an access touches. -/
theorem mem_stewardWords {a n w : Nat} (h : 0 < n) :
    w ∈ ((List.range ((a + n - 1) / 8 + 1 - a / 8)).map fun k => a / 8 + k) ↔ a / 8 ≤ w ∧ w ≤ (a + n - 1) / 8 := by
  have hle : a / 8 ≤ (a + n - 1) / 8 := Nat.div_le_div_right (by omega)
  simp only [List.mem_map, List.mem_range]
  constructor
  · rintro ⟨k, hk, rfl⟩
    omega
  · rintro ⟨h1, h2⟩
    exact ⟨w - a / 8, by omega, by omega⟩

theorem State.stewardBankAccess_waits (h : (s.die s.ev.die).coreRuns s.ev.acc.core = true) (hl : 0 < s.ev.acc.len)
    (ha : s.ev.acc.addr + s.ev.acc.len ≤ Config.bankBytes) :
    ∃ t r, exec .stewardBankAccess s = .next t ∧ s.SameBytes t ∧ (∀ e, e ≠ s.ev.die → t.die e = s.die e)
      ∧ (t.die s.ev.die).stewards = (s.die s.ev.die).stewards ++ [r] ∧ r.acc = s.ev.acc ∧ r.got = []
      ∧ ∀ w, w ∈ r.left ↔ s.ev.acc.addr / 8 ≤ w ∧ w ≤ (s.ev.acc.addr + s.ev.acc.len - 1) / 8 := by
  let r : StewardReq := { id := s.fresh, acc := s.ev.acc
                          left := (List.range ((s.ev.acc.addr + s.ev.acc.len - 1) / 8 + 1 - s.ev.acc.addr / 8)).map fun k =>
                            s.ev.acc.addr / 8 + k
                          got := [] }
  have ht := ((TurnsDie.refl s s.ev.die).modDie fun x => { x with stewards := x.stewards ++ [r] }).of_dies
    (u := (s.modDie s.ev.die fun x => { x with stewards := x.stewards ++ [r] }).takeFresh) rfl rfl
  have he : s.stewardBank s.ev.die s.ev.acc = (s.modDie s.ev.die fun x => { x with stewards := x.stewards ++ [r] }).takeFresh :=
    (if_neg (by omega)).trans (if_neg (by omega))
  rw [State.exec_stewardBankAccess h, he]
  exact ⟨_, r, rfl, (ht.quiet (Die.store_with (h := rfl) ..)).1, fun e hne => ht.die_other hne, by rw [ht.die], rfl, rfl,
    fun w => mem_stewardWords hl⟩

theorem State.stewardBankAccess_past (h : (s.die s.ev.die).coreRuns s.ev.acc.core = true) (hl : 0 < s.ev.acc.len)
    (ha : Config.bankBytes < s.ev.acc.addr + s.ev.acc.len) (hw : s.ev.acc.write = false) : exec .stewardBankAccess s
      = .next (s.setDie s.ev.die ((s.die s.ev.die).stewardEnds s.ev.acc.core 0 (List.replicate s.ev.acc.len 0))) := by
  rw [State.exec_stewardBankAccess h]
  exact congrArg Host.Outcome.next ((if_neg (by omega)).trans ((if_pos ha).trans (if_neg (by rw [hw]; decide))))

/-! ### Panel memory -/

theorem State.exec_stewardPanelAccess (h : (s.die s.ev.die).coreRuns s.ev.acc.core = true) (hl : 0 < s.ev.acc.len)
    (hp : ∀ k, k < s.ev.acc.len → s.physOk (s.ev.acc.addr + k) = true) : exec .stewardPanelAccess s = .next (
      if s.ev.acc.write then s.writeMem s.ev.acc.addr (s.ev.acc.data.take s.ev.acc.len)
      else s.setDie s.ev.die (if s.memBadAt s.ev.acc.addr s.ev.acc.len then (s.die s.ev.die).stewardEnds s.ev.acc.core 6 []
        else (s.die s.ev.die).stewardEnds s.ev.acc.core 0 (s.readMem s.ev.acc.addr s.ev.acc.len))) := by
  have hall : (List.range (s.ev.acc.len / 8 + 2)).all (fun k => s.physOk (s.ev.acc.addr + min (8 * k) (s.ev.acc.len - 1))) = true :=
    List.all_eq_true.mpr fun k _ => hp _ (by omega)
  have he : exec .stewardPanelAccess s = .next (s.stewardPanel s.ev.die s.ev.acc) := congrArg Host.Outcome.next (if_pos h)
  rw [he]
  refine congrArg Host.Outcome.next ((if_neg (by omega)).trans ((if_neg (by rw [hall]; decide)).trans ?_))
  by_cases hw : s.ev.acc.write = true
  · exact (if_pos hw).trans (if_pos hw).symm
  · refine (if_neg hw).trans (Eq.trans ?_ (if_neg hw).symm)
    by_cases hb : s.memBadAt s.ev.acc.addr s.ev.acc.len = true
    · rw [if_pos hb, if_pos hb]
      rfl
    · rw [if_neg hb, if_neg hb]
      rfl

/-- A byte of panel memory after a write of some bytes. -/
theorem State.read_writeMem_eq (s : State) (a : Nat) (l : List Byte) (h : s.mem.wf = true) (y : Nat) :
    (s.writeMem a l).mem.read y = if a ≤ y ∧ y < a + l.length then l.getD (y - a) 0 else s.mem.read y := by
  have hl : ((List.range l.length).zip l).map (fun (p : Nat × Byte) => (a + p.1, p.2))
      = (List.range l.length).map fun k => (a + k, l.getD k 0) := by
    refine List.ext_getElem (by simp) fun i h1 h2 => ?_
    have hi : i < l.length := by simpa using h2
    simp [List.getElem?_eq_getElem hi]
  have hm : (s.writeMem a l).mem = s.mem.writeAll ((List.range l.length).map fun k => (a + k, l.getD k 0)) := by
    unfold State.writeMem
    rw [(State.ringBells_mem _ _).1, ← hl]
  rw [hm, Memory.read_writeAll_eq _ _ _ h, lastWrite_block a l.length (fun k => l.getD k 0)]

theorem State.stewardPanelAccess_spec (h : (s.die s.ev.die).coreRuns s.ev.acc.core = true) (hl : 0 < s.ev.acc.len)
    (hp : ∀ k, k < s.ev.acc.len → s.physOk (s.ev.acc.addr + k) = true) :
    (s.ev.acc.write = false → exec .stewardPanelAccess s
        = .next (s.setDie s.ev.die (if s.memBadAt s.ev.acc.addr s.ev.acc.len then (s.die s.ev.die).stewardEnds s.ev.acc.core 6 []
            else (s.die s.ev.die).stewardEnds s.ev.acc.core 0 (s.readMem s.ev.acc.addr s.ev.acc.len))))
      ∧ (s.ev.acc.write = true → s.ev.acc.data.length = s.ev.acc.len → s.mem.wf = true → ∃ t, exec .stewardPanelAccess s = .next t
        ∧ t.dies = s.dies ∧ ∀ y, t.mem.read y = if s.ev.acc.addr ≤ y ∧ y < s.ev.acc.addr + s.ev.acc.len
          then s.ev.acc.data.getD (y - s.ev.acc.addr) 0 else s.mem.read y) := by
  rw [State.exec_stewardPanelAccess h hl hp]
  refine ⟨fun hw => by rw [if_neg (by rw [hw]; decide)], fun hw hn hwf => ?_⟩
  rw [if_pos hw, List.take_of_length_le hn.le]
  refine ⟨_, rfl, (State.Writes.writeMem s _ _).dies, fun y => ?_⟩
  rw [State.read_writeMem_eq _ _ _ hwf, hn]

end

end Sys2Proof.Machine
end

