-- ==== Sys2Proof/Proofs/KeysAndResets.lean ====
section
/-! PROOFS. Job keys (R397, R398, R400), the reset of the panel and its return to its rings, and incarnations (R394). -/

namespace Sys2Proof.Machine

section
variable {s t u : State} {d p : DieId}

/-! ### Keys -/

theorem State.exec_keyDelivery_manager (h : s.ev.flag = true) :
    exec .keyDelivery s = .next (s.modFabric fun f => { f with fmKey := s.ev.bytes }) := congrArg Host.Outcome.next (if_pos h)

/-- A port has no room for the key of a job. -/
def State.keysFull (s : State) (job : BitVec 8) : Prop := ∃ i : PortId, (s.port i).key job = none ∧ keyEntries ≤ (s.port i).keys.length

theorem State.keysFull_iff (s : State) (job : BitVec 8) :
    (s.fabric.ports.any fun q => (q.key job).isNone && decide (keyEntries ≤ q.keys.length)) = true ↔ s.keysFull job := by
  rw [Vector.any_iff_exists]
  simp only [Bool.and_eq_true, Option.isNone_iff_eq_none, decide_eq_true_eq]
  exact ⟨fun ⟨i, hi, h⟩ => ⟨⟨i, hi⟩, h⟩, fun ⟨i, h⟩ => ⟨i.val, i.isLt, h⟩⟩

/-- The state once a key is installed on every port. -/
def State.installed (s : State) (job : BitVec 8) (epoch : Nat) (key : BitVec 256) : State :=
  s.modFabric fun b => { b with ports := b.ports.map fun q => q.install job epoch key }

theorem State.exec_keyDelivery_none (hf : s.ev.flag = false) (hp : s.primaryRuns = none) : exec .keyDelivery s = .next s := by
  refine congrArg Host.Outcome.next ((if_neg (by rw [hf]; decide)).trans ?_)
  rw [hp]

theorem State.exec_keyDelivery (hf : s.ev.flag = false) (hp : s.primaryRuns = some p) : exec .keyDelivery s = .next (
    match s.openKey p s.ev.key with
    | none => s
    | some key =>
      if s.fabric.ports.any fun q => (q.key s.ev.key.job).isNone && decide (keyEntries ≤ q.keys.length) then
        s.notify (.keyRefused s.ev.key.job)
      else (List.finRange 576).foldl (fun s p => if (s.port p).waiting.isEmpty then s else s.pump p)
        (s.installed s.ev.key.job s.ev.key.epoch key)) := by
  refine congrArg Host.Outcome.next ((if_neg (by rw [hf]; decide)).trans ?_)
  rw [hp] <;> rfl

theorem Port.install_keys (q : Port) (job : BitVec 8) (epoch : Nat) (key : BitVec 256) :
    q.install job epoch key = { q with keys := (q.install job epoch key).keys } := by
  unfold Port.install
  split
  · split <;> rfl
  · rfl

/-- A port whose entry is of another epoch, or that has none, holds the key that is installed. -/
theorem Port.key_install {q : Port} {job : BitVec 8} {epoch : Nat} {key : BitVec 256} (h : ∀ e, q.key job = some e → e.epoch ≠ epoch) :
    ((q.install job epoch key).key job).map (fun e => (e.cur, e.epoch)) = some (key, epoch) := by
  unfold Port.install
  cases hk : q.key job with
  | none =>
    dsimp only
    unfold Port.key at hk ⊢
    rw [List.find?_append, hk]
    simp
  | some e =>
    have hj : e.job = job := by simpa using List.find?_some hk
    dsimp only
    rw [if_neg (h e hk)]
    unfold Port.setKey Port.key at *
    dsimp only
    rw [hj]
    rw [find_replaceIf (fun o : KeyEntry => o.job == job) (fun _ : KeyEntry => { e with job := job, cur := key, epoch := epoch, prev := some e.cur, count := 0, rxCur := 0, rxPrev := e.rxCur })
      fun _ _ => by simp, hk]
    rfl

theorem State.port_installed (s : State) (job : BitVec 8) (epoch : Nat) (key : BitVec 256) (i : PortId) :
    (s.installed job epoch key).port i = (s.port i).install job epoch key := Vector.getElem_map _ i.isLt

/-- Where no port has a slot that waits, none is pumped. -/
theorem State.pumpAll_idle (h : ∀ i : PortId, (s.port i).waiting = []) (l : List PortId) :
    l.foldl (fun s p => if (s.port p).waiting.isEmpty then s else s.pump p) s = s := by
  induction l with
  | nil => rfl
  | cons p l ih => rw [List.foldl_cons, if_pos (by rw [h p]; rfl), ih]

theorem State.keyDelivery_spec (hf : s.ev.flag = false) (hp : s.primaryRuns = some p) :
    (s.openKey p s.ev.key = none → exec .keyDelivery s = .next s)
      ∧ (∀ key, s.openKey p s.ev.key = some key → s.keysFull s.ev.key.job →
          exec .keyDelivery s = .next (s.notify (.keyRefused s.ev.key.job)))
      ∧ (∀ key, s.openKey p s.ev.key = some key → ¬s.keysFull s.ev.key.job → (∀ i : PortId, (s.port i).waiting = []) →
          exec .keyDelivery s = .next (s.installed s.ev.key.job s.ev.key.epoch key)) := by
  rw [State.exec_keyDelivery hf hp]
  refine ⟨fun h => by rw [h], fun key h hfull => ?_, fun key h hroom hidle => ?_⟩
  · rw [h]
    dsimp only
    rw [if_pos ((s.keysFull_iff _).mpr hfull)]
  · rw [h]
    dsimp only
    rw [if_neg fun hn => hroom ((s.keysFull_iff _).mp hn), State.pumpAll_idle]
    intro i
    rw [State.port_installed, Port.install_keys]
    exact hidle i

theorem State.partitionDissolve_spec (s : State) : ∃ t, exec .partitionDissolve s = .next t
    ∧ t.panel.notices = s.panel.notices ++ [.dissolved s.ev.job] ∧ t.dies = s.dies ∧ t.mem = s.mem
    ∧ ∀ i : PortId, (t.port i).keys = (s.port i).keys.filter (fun e => e.job != s.ev.job)
      ∧ (t.port i).waiting = (s.port i).waiting.filter fun w => !(w.slot.kind == .data && w.slot.job == s.ev.job) :=
  ⟨_, rfl, rfl, rfl, rfl, fun i => ⟨congrArg Port.keys (Vector.getElem_map _ i.isLt), congrArg Port.waiting (Vector.getElem_map _ i.isLt)⟩⟩

/-! ### The reset of the panel -/

theorem State.panelReset_spec (s : State) : ∃ t, exec .panelReset s = .next t ∧ t.fabric = { inc := s.fabric.inc + 1 }
    ∧ t.panel.featLocked = false ∧ t.panel.raccs = [] ∧ (∀ q : QueueId, t.queue q = {}) ∧ t.iss = {} ∧ t.mem = s.mem ∧ t.dies = s.dies
    ∧ (∀ i : StackId, (t.station i).incarnation = (s.station i).incarnation + 1)
    ∧ ∀ r, r ∈ t.agenda ↔ (∃ e : DieId, (s.die e).inService = true ∧ r = { due := s.cycle, act := .dieReset, arg := { die := e } })
        ∨ r = { due := s.cycle + 128000000, act := .rejoinDelayExpiry, arg := {} } := by
  refine ⟨_, rfl, rfl, rfl, rfl, fun q => Vector.getElem_replicate q.isLt, rfl, rfl, rfl,
    fun i => congrArg Station.incarnation (Vector.getElem_map _ i.isLt), fun r => ?_⟩
  rw [List.mem_append, List.mem_singleton, List.mem_map]
  refine or_congr ⟨fun ⟨e, he, hr⟩ => ⟨e, (List.mem_filter.mp he).2, hr.symm⟩, fun ⟨e, he, hr⟩ =>
    ⟨e, List.mem_filter.mpr ⟨List.mem_finRange e, he⟩, hr.symm⟩⟩ Iff.rfl

/-! ### Incarnations -/

/-- A change of what is held of a panel changes nothing else. -/
theorem Fabric.modPeer_peers (b : Fabric) (p : BitVec 18) (f : Peer → Peer) : b.modPeer p f = { b with peers := (b.modPeer p f).peers } := by
  unfold Fabric.modPeer
  split <;> rfl

/-- What is held of a panel, once it is changed. -/
theorem Fabric.find_modPeer (b : Fabric) (p : BitVec 18) (f : Peer → Peer) (hf : ∀ e, e.panel = p → (f e).panel = p) :
    ((b.modPeer p f).peers.find? fun e => e.panel == p)
      = some (f (((b.peers.find? fun e => e.panel == p)).getD { panel := p, inc := 0, window := (Config.grantWindow p).toNat })) := by
  unfold Fabric.modPeer
  split
  · next h =>
    obtain ⟨e, he, hp⟩ := List.any_eq_true.mp h
    obtain ⟨x, hx⟩ := Option.isSome_iff_exists.mp (List.find?_isSome (p := fun e : Peer => e.panel == p) |>.mpr ⟨e, he, hp⟩)
    change (replaceIf (fun e => e.panel == p) f b.peers).find? (fun e : Peer => e.panel == p) = _
    rw [find_replaceIf (fun e : Peer => e.panel == p) f (fun e h => by simpa using hf e (by simpa using h)), hx]
    rfl
  · next h =>
    have hn : (b.peers.find? fun e => e.panel == p) = none :=
      List.find?_eq_none.mpr fun e he hp => h (List.any_eq_true.mpr ⟨e, he, hp⟩)
    change (b.peers ++ [_]).find? (fun e : Peer => e.panel == p) = _
    rw [List.find?_append, hn]
    simp [hf]

/-- What is held of a panel as its incarnation is announced. -/
def Peer.announced (inc : BitVec 8) (p : BitVec 18) (e : Peer) : Peer :=
  if e.inc = inc then e else { e with inc := inc, window := (Config.grantWindow p).toNat }

theorem Peer.announced_inc (inc : BitVec 8) (p : BitVec 18) (e : Peer) : (e.announced inc p).inc = inc := by
  unfold Peer.announced
  split
  · assumption
  · rfl

theorem Peer.announced_panel (inc : BitVec 8) (p : BitVec 18) (e : Peer) : (e.announced inc p).panel = e.panel := by
  unfold Peer.announced
  split <;> rfl

/-- What dropping a panel leaves: nothing sent to it and nothing received from it, and what else was. -/
theorem State.dropPeer_frame (s : State) (p : BitVec 18) : (s.dropPeer p).fabric.out = s.fabric.out.filter (fun o => o.slot.dst != p)
    ∧ (s.dropPeer p).fabric.inn = s.fabric.inn.filter (fun r => r.src != p) ∧ (s.dropPeer p).fabric.peers = s.fabric.peers
    ∧ (s.dropPeer p).fabric.panel = s.fabric.panel := by
  unfold State.dropPeer
  extract_lets open_ t
  have h := State.Ends.endWorks t open_ 4
  rw [h.fabric]
  exact ⟨rfl, rfl, rfl, rfl⟩

theorem State.dropPeer_ev (s : State) (p : BitVec 18) : (s.dropPeer p).ev = s.ev := by
  unfold State.dropPeer
  extract_lets open_ t
  exact (State.Ends.endWorks t open_ 4).ev

theorem State.exec_incarnationAnnouncement_own (h : s.ev.panel = s.fabric.panel) : exec .incarnationAnnouncement s = .next s :=
  congrArg Host.Outcome.next (if_pos h)

theorem State.incarnationAnnouncement_spec (h : s.ev.panel ≠ s.fabric.panel) : ∃ t, exec .incarnationAnnouncement s = .next t
    ∧ t.fabric.incOf s.ev.panel = s.ev.inc
    ∧ (s.fabric.incOf s.ev.panel ≠ s.ev.inc → (∀ o ∈ t.fabric.out, o.slot.dst ≠ s.ev.panel) ∧ (∀ r ∈ t.fabric.inn, r.src ≠ s.ev.panel)
      ∧ t.fabric.windowOf s.ev.panel = (Config.grantWindow s.ev.panel).toNat) := by
  let r := if s.fabric.incOf s.ev.panel = s.ev.inc then s else s.dropPeer s.ev.panel
  have he : exec .incarnationAnnouncement s
      = .next (r.modFabric fun b => b.modPeer s.ev.panel (Peer.announced r.ev.inc s.ev.panel)).postDue := congrArg Host.Outcome.next (if_neg h)
  have hev : r.ev = s.ev := by
    dsimp only [r]
    split
    · rfl
    · exact s.dropPeer_ev _
  rw [hev] at he
  have hr : r.fabric.peers = s.fabric.peers ∧ r.fabric.panel = s.fabric.panel := by
    dsimp only [r]
    split
    · exact ⟨rfl, rfl⟩
    · exact ⟨(s.dropPeer_frame _).2.2.1, (s.dropPeer_frame _).2.2.2⟩
  have hgone : s.fabric.incOf s.ev.panel ≠ s.ev.inc → r = s.dropPeer s.ev.panel := fun hne => if_neg hne
  clear_value r
  have hk := State.Ends.postDue (r.modFabric fun b => b.modPeer s.ev.panel (Peer.announced s.ev.inc s.ev.panel))
  generalize (r.modFabric fun b => b.modPeer s.ev.panel (Peer.announced s.ev.inc s.ev.panel)).postDue = t at he hk
  have hm := r.fabric.modPeer_peers s.ev.panel (Peer.announced s.ev.inc s.ev.panel)
  have hfab : t.fabric = { r.fabric with peers := (r.fabric.modPeer s.ev.panel (Peer.announced s.ev.inc s.ev.panel)).peers
                                         works := t.fabric.works, qps := t.fabric.qps, due := t.fabric.due
                                         failed := t.fabric.failed } := by
    rw [hk.fabric]
    change ({ r.fabric.modPeer s.ev.panel (Peer.announced s.ev.inc s.ev.panel) with
      works := _, qps := _, due := _, failed := _ } : Fabric) = _
    rw [hm]
  have hfind : (t.fabric.peers.find? fun e => e.panel == s.ev.panel) = some (Peer.announced s.ev.inc s.ev.panel
      ((s.fabric.peers.find? fun e => e.panel == s.ev.panel).getD
        { panel := s.ev.panel, inc := 0, window := (Config.grantWindow s.ev.panel).toNat })) := by
    rw [hfab, ← hr.1]
    exact r.fabric.find_modPeer _ _ fun e hp => (Peer.announced_panel _ _ e).trans hp
  have hpanel : t.fabric.panel = s.fabric.panel := by rw [hfab]; exact hr.2
  refine ⟨t, he, ?_, fun hne => ⟨fun o ho => ?_, fun x hx => ?_, ?_⟩⟩
  · unfold Fabric.incOf
    rw [hfind, if_neg (by rw [hpanel]; exact h)]
    exact Peer.announced_inc _ _ _
  · rw [hfab] at ho
    change o ∈ r.fabric.out at ho
    rw [hgone hne, (s.dropPeer_frame _).1] at ho
    simpa using (List.mem_filter.mp ho).2
  · rw [hfab] at hx
    change x ∈ r.fabric.inn at hx
    rw [hgone hne, (s.dropPeer_frame _).2.1] at hx
    simpa using (List.mem_filter.mp hx).2
  · unfold Fabric.windowOf
    rw [hfind]
    unfold Fabric.incOf at hne
    rw [if_neg h] at hne
    dsimp only [Option.map_some, Option.getD_some]
    unfold Peer.announced
    rw [if_neg]
    intro hinc
    apply hne
    cases hx : s.fabric.peers.find? fun e => e.panel == s.ev.panel with
    | none => rw [hx] at hinc; exact hinc
    | some e => rw [hx] at hinc; exact hinc

end

end Sys2Proof.Machine
end

