-- ==== Sys2Proof/Proofs/Holds.lean ====
section
/-! PROOFS. The hold of the fabric for a reconfiguration (R410, R411, R423): the drain markers that it sends, and what goes on
when it ends. -/

namespace Sys2Proof.Machine

section
variable {s t u : State} {p : PortId}

/-! ### What waits at a port, and its marker -/

/-- The slots that wait at a port, and whether its drain marker has gone out. -/
def State.queued (s : State) (i : PortId) : List PortWait × Bool := ((s.port i).waiting, (s.port i).markerSent)

theorem State.queued_modPort (s : State) (p i : PortId) (f : Port → Port) : (s.modPort p f).queued i
    = if i = p then ((f (s.port p)).waiting, (f (s.port p)).markerSent) else s.queued i := by
  unfold State.queued
  by_cases h : i = p
  · subst h
    rw [if_pos rfl, State.port_modPort]
  · rw [if_neg h, s.port_modPort_other f fun h' => h h'.symm]

theorem State.queued_modPort_keep (s : State) (p i : PortId) (f : Port → Port)
    (h : (f (s.port p)).waiting = (s.port p).waiting ∧ (f (s.port p)).markerSent = (s.port p).markerSent) :
    (s.modPort p f).queued i = s.queued i := by
  rw [s.queued_modPort, h.1, h.2]
  split
  · next hi => subst hi; rfl
  · rfl

/-- What is put on the fibre leaves what waits. -/
theorem State.startFlits_queued (s : State) (p i : PortId) (x : FabSlot) : (s.startFlits p x).queued i = s.queued i
    ∧ (s.startFlits p x).fresh = s.fresh := by
  unfold State.startFlits
  dsimp only
  split
  · exact ⟨s.queued_modPort_keep p i _ ⟨rfl, rfl⟩, rfl⟩
  · exact ⟨s.queued_modPort_keep p i _ ⟨rfl, rfl⟩, rfl⟩

/-- What a slot that starts leaves: it waits no more, and a marker has gone out. -/
theorem State.startPortSlot_queued (s : State) (p i : PortId) (w : PortWait) : (s.startPortSlot p w).queued i
    = (if i = p then ((s.port p).waiting.filter (fun o => o.id != w.id), (s.port p).markerSent || w.slot.kind == .drain)
      else s.queued i) ∧ (s.startPortSlot p w).fresh = s.fresh := by
  have h0 : ∀ i, (s.modPort p fun q => { q with waiting := q.waiting.filter fun o => o.id != w.id }).queued i
      = if i = p then ((s.port p).waiting.filter (fun o => o.id != w.id), (s.port p).markerSent) else s.queued i := fun i =>
    s.queued_modPort p i fun q => { q with waiting := q.waiting.filter fun o => o.id != w.id }
  have hf : (s.modPort p fun q => { q with waiting := q.waiting.filter fun o => o.id != w.id }).fresh = s.fresh := rfl
  unfold State.startPortSlot
  dsimp only
  generalize (s.modPort p fun q => { q with waiting := q.waiting.filter fun o => o.id != w.id }) = r at h0 hf
  by_cases hd : (w.slot.kind == .drain) = true
  · rw [if_pos hd, hd, Bool.or_true]
    refine ⟨(State.startFlits_queued _ p i _).1.trans ?_, (State.startFlits_queued _ p i _).2.trans hf⟩
    have hw : (r.port p).waiting = (s.port p).waiting.filter fun o => o.id != w.id :=
      congrArg Prod.fst ((h0 p).trans (if_pos rfl))
    rw [r.queued_modPort p i fun q => { q with markerSent := true }]
    by_cases hi : i = p
    · rw [if_pos hi, if_pos hi, hw]
    · rw [if_neg hi, if_neg hi, h0, if_neg hi]
  · rw [if_neg hd, Bool.eq_false_iff.mpr hd, Bool.or_false, ← hf, ← h0]
    split
    · exact State.startFlits_queued r p i _
    · split
      · exact ⟨r.queued_modPort_keep p i _ ⟨rfl, rfl⟩, rfl⟩
      · exact ⟨(State.startFlits_queued _ p i _).1.trans (r.queued_modPort_keep p i _ ⟨rfl, rfl⟩), (State.startFlits_queued _ p i _).2⟩

/-- A port has sent its marker of an epoch, or a marker that no other slot can be taken for waits there. -/
def Marked (q : List PortWait × Bool) (v : Word) : Prop :=
  q.2 = true ∨ ∃ w ∈ q.1, w.slot.kind = .drain ∧ w.slot.op = v ∧ ∀ o ∈ q.1, o.id = w.id → o = w

/-- From `s` to `t` slots that waited at ports have started: none waits that did not, and a marker that waited still does or
is out. -/
structure State.Starts (s t : State) : Prop where
  fresh : t.fresh = s.fresh
  waits : ∀ i, ∀ w ∈ (t.queued i).1, w ∈ (s.queued i).1
  marked : ∀ i v, Marked (s.queued i) v → Marked (t.queued i) v

theorem State.Starts.refl (s : State) : s.Starts s := ⟨rfl, fun _ _ h => h, fun _ _ h => h⟩

theorem State.Starts.trans (h : s.Starts t) (k : t.Starts u) : s.Starts u :=
  ⟨k.fresh.trans h.fresh, fun i w hw => h.waits i w (k.waits i w hw), fun i v hm => k.marked i v (h.marked i v hm)⟩

theorem State.Starts.startPortSlot {w : PortWait} (h : w ∈ (s.port p).waiting) : s.Starts (s.startPortSlot p w) := by
  have hq := fun i => (s.startPortSlot_queued p i w).1
  refine ⟨(s.startPortSlot_queued p p w).2, fun i o ho => ?_, fun i v hm => ?_⟩
  · rw [hq] at ho
    by_cases hi : i = p
    · subst hi
      rw [if_pos rfl] at ho
      exact (List.mem_filter.mp ho).1
    · rwa [if_neg hi] at ho
  · rw [hq]
    by_cases hi : i = p
    · subst hi
      rw [if_pos rfl]
      rcases hm with hm | ⟨x, hx, hk, hop, huniq⟩
      · exact Or.inl (by rw [show (s.port i).markerSent = true from hm]; rfl)
      · by_cases hid : w.id = x.id
        · have hwx : w = x := huniq w h hid
          exact Or.inl (by rw [hwx, hk]; exact Bool.or_true _)
        · exact Or.inr ⟨x, List.mem_filter.mpr ⟨hx, by simpa using fun h' : x.id = w.id => hid h'.symm⟩, hk, hop,
            fun o ho => huniq o (List.mem_filter.mp ho).1⟩
    · rw [if_neg hi]
      exact hm

theorem State.Starts.pumpN (p : PortId) (n : Nat) : ∀ s : State, s.Starts (s.pumpN p n) := by
  induction n with
  | zero => exact .refl
  | succ n ih =>
    intro s
    unfold State.pumpN
    dsimp only
    split
    · exact .refl s
    · split
      · exact .refl s
      · next w hw => exact (startPortSlot (List.mem_of_find?_eq_some hw)).trans (ih _)

/-- The numbers of the slots that wait at ports have been taken. -/
def State.NumbersTaken (s : State) : Prop := ∀ i : PortId, ∀ w ∈ (s.queued i).1, w.id < s.fresh

/-- Queueing a drain marker at a port. -/
theorem State.queueAt_marks (h : s.NumbersTaken) (p : PortId) {x : FabSlot} (hx : x.kind = .drain) :
    (s.queueAt p x).NumbersTaken ∧ Marked ((s.queueAt p x).queued p) x.op
      ∧ ∀ i v, Marked (s.queued i) v → Marked ((s.queueAt p x).queued i) v := by
  let w : PortWait := { id := s.fresh, slot := x, since := s.fabTime }
  let r := (s.modPort p fun q => { q with waiting := q.waiting ++ [w] }).takeFresh
  have hq : ∀ i, r.queued i = if i = p then ((s.port p).waiting ++ [w], (s.port p).markerSent) else s.queued i := fun i =>
    s.queued_modPort p i fun q => { q with waiting := q.waiting ++ [w] }
  have hfr : r.fresh = s.fresh + 1 := rfl
  have hend : ∃ m, (s.queueAt p x).queued = (r.pump p).queued ∧ (s.queueAt p x).fresh = m ∧ m = (r.pump p).fresh := by
    unfold State.queueAt State.queueSince
    dsimp only
    split
    · exact ⟨_, rfl, rfl, rfl⟩
    · exact ⟨_, rfl, rfl, rfl⟩
  obtain ⟨m, hqu, hm, hmf⟩ := hend
  have hs : r.Starts (r.pump p) := State.Starts.pumpN p _ r
  clear_value r
  have htaken : r.NumbersTaken := fun i o ho => by
    rw [hq] at ho
    rw [hfr]
    by_cases hi : i = p
    · subst hi
      rw [if_pos rfl] at ho
      rcases List.mem_append.mp ho with ho | ho
      · exact Nat.lt_succ_of_lt (h i o ho)
      · rw [List.mem_singleton.mp ho]
        exact Nat.lt_succ_self _
    · rw [if_neg hi] at ho
      exact Nat.lt_succ_of_lt (h i o ho)
  refine ⟨fun i o ho => ?_, ?_, fun i v hv => ?_⟩
  · rw [hqu] at ho
    rw [hm, hmf, hs.fresh]
    exact htaken i o (hs.waits i o ho)
  · rw [hqu]
    refine hs.marked p x.op (Or.inr ⟨w, ?_, hx, rfl, fun o ho hid => ?_⟩)
    · rw [hq, if_pos rfl]
      exact List.mem_append_right _ (List.mem_singleton.mpr rfl)
    · rw [hq, if_pos rfl] at ho
      rcases List.mem_append.mp ho with ho | ho
      · exact absurd hid (Nat.ne_of_lt (h p o ho))
      · exact List.mem_singleton.mp ho
  · rw [hqu]
    refine hs.marked i v ?_
    rw [hq]
    by_cases hi : i = p
    · subst hi
      rw [if_pos rfl]
      rcases hv with hv | ⟨y, hy, hk, hop, huniq⟩
      · exact Or.inl hv
      · refine Or.inr ⟨y, List.mem_append_left _ hy, hk, hop, fun o ho hid => ?_⟩
        rcases List.mem_append.mp ho with ho | ho
        · exact huniq o ho hid
        · rw [List.mem_singleton.mp ho] at hid
          exact absurd hid.symm (Nat.ne_of_lt (h i y hy))
    · rw [if_neg hi]
      exact hv

theorem State.Pumps.queueSince (s : State) (p : PortId) (x : FabSlot) (n : Nat) : s.Pumps (s.queueSince p x n) := by
  have h : s.Pumps (((s.modPort p fun q => { q with waiting := q.waiting ++ [{ id := s.fresh, slot := x, since := n }] }
      ).takeFresh).pump p) :=
    ((State.Pumps.modPort s p _ (by exact rfl)).trans ⟨State.sends_takeFresh _, fun _ h => h, fun _ => rfl⟩).trans (.pump _ p)
  unfold State.queueSince
  dsimp only
  split
  · exact h.trans (.sched _ _ _ _)
  · exact h

/-- What starting slots keeps of a state and of the fabric's hold. -/
theorem State.Pumps.holdFrame (h : s.Pumps t) : t.dies = s.dies ∧ t.mem = s.mem ∧ t.fabric.hold = s.fabric.hold
    ∧ t.fabric.epoch = s.fabric.epoch ∧ t.fabric.holdAt = s.fabric.holdAt := by
  have hs := h.sends
  rw [State.SendsOnly] at hs
  exact ⟨(congrArg State.dies hs :), (congrArg State.mem hs :), (congrArg (fun u : State => u.fabric.hold) hs :),
    (congrArg (fun u : State => u.fabric.epoch) hs :), (congrArg (fun u : State => u.fabric.holdAt) hs :)⟩

/-- The marker that a port sends in an epoch (R410). -/
def Fabric.marker (b : Fabric) (q : Port) (epoch : BitVec 16) : FabSlot :=
  slotReady { dst := q.peer, dstInc := b.incOf q.peer, src := b.panel, srcInc := b.inc, kind := .drain
              op := epoch.setWidth 64, hops := 1 }

/-- Each port that is on and up queues its marker. -/
def State.markAll (b : Fabric) (epoch : BitVec 16) (s : State) (p : PortId) : State :=
  if (s.port p).enable && (s.port p).up then s.queueAt p (b.marker (s.port p) epoch) else s

theorem State.markAll_foldl (b : Fabric) (epoch : BitVec 16) (l : List PortId) : ∀ s : State, s.NumbersTaken →
    s.Pumps (l.foldl (State.markAll b epoch) s)
      ∧ (∀ i v, Marked (s.queued i) v → Marked ((l.foldl (State.markAll b epoch) s).queued i) v)
      ∧ ∀ i ∈ l, (s.port i).enable = true → (s.port i).up = true →
        Marked ((l.foldl (State.markAll b epoch) s).queued i) (epoch.setWidth 64) := by
  induction l with
  | nil => exact fun s _ => ⟨.refl s, fun _ _ h => h, fun _ h => absurd h List.not_mem_nil⟩
  | cons p l ih =>
    intro s hn
    have hstep : s.Pumps (s.markAll b epoch p) ∧ (s.markAll b epoch p).NumbersTaken
        ∧ (∀ i v, Marked (s.queued i) v → Marked ((s.markAll b epoch p).queued i) v)
        ∧ ((s.port p).enable = true → (s.port p).up = true → Marked ((s.markAll b epoch p).queued p) (epoch.setWidth 64)) := by
      unfold State.markAll
      split
      · obtain ⟨h1, h2, h3⟩ := State.queueAt_marks hn p (x := b.marker (s.port p) epoch) rfl
        exact ⟨.queueSince s p _ _, h1, h3, fun _ _ => h2⟩
      · next hno => exact ⟨.refl s, hn, fun _ _ h => h, fun h1 h2 => absurd (by rw [h1, h2]; rfl) hno⟩
    obtain ⟨hp, ht, hm, hme⟩ := hstep
    obtain ⟨i1, i2, i3⟩ := ih _ ht
    refine ⟨hp.trans i1, fun i v h => i2 i v (hm i v h), fun i hi he hup => ?_⟩
    rcases List.mem_cons.mp hi with rfl | hi
    · exact i2 i _ (hme he hup)
    · have hport := hp.ports i
      exact i3 i hi ((congrArg Port.enable hport).trans he) ((congrArg Port.up hport).trans hup)

/-- The state once the hold itself has begun. -/
def State.held (s : State) : State := s.modFabric fun b =>
  { b with hold := true, epoch := s.ev.val.extractLsb' 0 16, holdAt := s.cycle
           ports := b.ports.map fun q => { q with markerSent := false } }

theorem State.exec_fabHoldSet (s : State) : exec .fabHoldSet s = .next (
    if s.fabric.hold then s.modFabric fun b => { b with epoch := s.ev.val.extractLsb' 0 16 }
    else (List.finRange 576).foldl (State.markAll s.fabric (s.ev.val.extractLsb' 0 16)) s.held) := by
  unfold State.held
  rw [← ofNat_bits]
  rfl

/-- What the markers of a hold leave, whatever the order of the ports. -/
theorem State.held_marks (hn : ∀ i : PortId, ∀ w ∈ (s.port i).waiting, w.id < s.fresh) {l : List PortId} (hl : ∀ i, i ∈ l)
    {epoch : BitVec 16} (hep : epoch = s.ev.val.extractLsb' 0 16) (ht : t = l.foldl (State.markAll s.fabric epoch) s.held) :
    t.dies = s.dies ∧ t.mem = s.mem ∧ t.fabric.hold = true ∧ t.fabric.epoch = epoch ∧ t.fabric.holdAt = s.cycle
      ∧ ∀ i : PortId, (s.port i).enable = true → (s.port i).up = true → (t.port i).markerSent = true
        ∨ ∃ w ∈ (t.port i).waiting, w.slot.kind = .drain ∧ w.slot.op = epoch.setWidth 64 := by
  have hport : ∀ i, s.held.port i = { s.port i with markerSent := false } := fun i => Vector.getElem_map _ i.isLt
  obtain ⟨hp, -, hmk⟩ := State.markAll_foldl s.fabric epoch l s.held fun i w hw => by
    unfold State.queued at hw
    rw [hport] at hw
    exact hn i w hw
  rw [← ht] at hp hmk
  obtain ⟨k1, k2, k3, k4, k5⟩ := hp.holdFrame
  exact ⟨k1.trans rfl, k2.trans rfl, k3.trans rfl, k4.trans hep.symm, k5.trans rfl,
    fun i hen hup => (hmk i (hl i) (by rw [hport]; exact hen) (by rw [hport]; exact hup)).imp id
      fun ⟨w, hw, hk, hop, _⟩ => ⟨w, hw, hk, hop⟩⟩

theorem State.fabHoldSet_begins (h : s.fabric.hold = false) (hn : ∀ i : PortId, ∀ w ∈ (s.port i).waiting, w.id < s.fresh) :
    ∃ t, exec .fabHoldSet s = .next t ∧ t.dies = s.dies ∧ t.mem = s.mem ∧ t.fabric.hold = true
      ∧ t.fabric.epoch = s.ev.val.extractLsb' 0 16 ∧ t.fabric.holdAt = s.cycle
      ∧ ∀ i : PortId, (s.port i).enable = true → (s.port i).up = true → (t.port i).markerSent = true
        ∨ ∃ w ∈ (t.port i).waiting, w.slot.kind = .drain ∧ w.slot.op = (s.ev.val.extractLsb' 0 16).setWidth 64 := by
  have he := s.exec_fabHoldSet
  rw [if_neg (by rw [h]; decide)] at he
  exact ⟨_, he, State.held_marks hn (fun i => List.mem_finRange i) rfl rfl⟩

/-! ### The end of a hold -/

/-- From `s` to `t` the fabric goes on: its hold, its epoch, the slots outstanding and the markers of its ports stay. -/
structure State.GoesOn (s t : State) : Prop where
  hold : t.fabric.hold = s.fabric.hold
  epoch : t.fabric.epoch = s.fabric.epoch
  total : t.fabric.holdTotal = s.fabric.holdTotal
  out : t.fabric.out = s.fabric.out
  marker : ∀ i, (t.port i).marker = (s.port i).marker

namespace State.GoesOn

theorem refl (s : State) : s.GoesOn s := ⟨rfl, rfl, rfl, rfl, fun _ => rfl⟩

theorem trans (h : s.GoesOn t) (k : t.GoesOn u) : s.GoesOn u :=
  ⟨k.hold.trans h.hold, k.epoch.trans h.epoch, k.total.trans h.total, k.out.trans h.out, fun i => (k.marker i).trans (h.marker i)⟩

theorem foldl {α : Type} (f : State → α → State) (h : ∀ (s : State) (a : α), s.GoesOn (f s a)) (l : List α) :
    ∀ s : State, s.GoesOn (l.foldl f s) := by
  induction l with
  | nil => exact refl
  | cons a l ih => exact fun s => (h s a).trans (ih _)

theorem of_pumps (h : s.Pumps t) : s.GoesOn t := by
  have hs := h.sends
  rw [State.SendsOnly] at hs
  exact ⟨(congrArg (fun r : State => r.fabric.hold) hs :), (congrArg (fun r : State => r.fabric.epoch) hs :),
    (congrArg (fun r : State => r.fabric.holdTotal) hs :), (congrArg (fun r : State => r.fabric.out) hs :),
    fun i => (congrArg Port.marker (h.ports i) :)⟩

theorem of_ends (h : s.Ends t) : s.GoesOn t := by
  have hs := h.fabric
  exact ⟨(congrArg Fabric.hold hs :), (congrArg Fabric.epoch hs :), (congrArg Fabric.holdTotal hs :), (congrArg Fabric.out hs :),
    fun i => (congrArg (fun b : Fabric => (b.ports[i]).marker) hs :)⟩

theorem sched (s : State) (n : Nat) (a : Instr) (e : EvArg) : s.GoesOn (s.sched n a e) := of_pumps (.sched s n a e)

theorem armResend (s : State) (o : OutSlot) (n : Nat) : s.GoesOn (s.armResend o n) := by
  unfold State.armResend
  split
  · exact refl s
  · exact sched s _ _ _

theorem sendSince (s : State) (x : FabSlot) (on : Option (Ring × Bool)) (was : Option PortId) (n : Nat) :
    s.GoesOn (s.sendSince x on was n) := by
  unfold State.sendSince
  split
  · exact ⟨rfl, rfl, rfl, rfl, fun _ => rfl⟩
  · dsimp only
    split
    · exact of_pumps (.queueSince s _ _ _)
    · exact ⟨rfl, rfl, rfl, rfl, fun _ => rfl⟩

theorem rejoinSlot (s : State) (was : Option PortId) (w : PortWait) : s.GoesOn (s.rejoinSlot was w) := by
  unfold State.rejoinSlot
  dsimp only
  split
  · split
    · exact refl s
    · split
      · exact sched s _ _ _
      · exact sendSince s _ _ _ _
  · exact sendSince s _ _ _ _

theorem resendWaiting (s : State) : s.GoesOn s.resendWaiting := by
  unfold State.resendWaiting
  extract_lets at_ l stays r
  have hr : s.GoesOn r := ⟨rfl, rfl, rfl, rfl, fun i => (congrArg Port.marker (Vector.getElem_map _ i.isLt) :)⟩
  exact hr.trans (foldl _ (fun (s : State) (e : Option PortId × PortWait) => rejoinSlot s e.1 e.2) _ r)

theorem resumePorts (s : State) : s.GoesOn s.resumePorts := by
  unfold State.resumePorts
  extract_lets r
  refine GoesOn.trans (foldl _ (fun (s : State) (w : PortWait) => sched s _ _ _) _ s) (foldl _ (fun s p => ?_) _ r)
  split
  · exact refl s
  · exact (of_pumps (.pump s p)).trans (foldl _ (fun (s : State) (w : PortWait) => sched s _ _ _) _ _)

end State.GoesOn

/-- What dropping some panels leaves. -/
theorem State.dropPeers_frame (l : List (BitVec 18)) : ∀ s : State,
    (l.foldl (fun s p => s.dropPeer p) s).fabric.hold = s.fabric.hold
      ∧ (l.foldl (fun s p => s.dropPeer p) s).fabric.epoch = s.fabric.epoch
      ∧ (l.foldl (fun s p => s.dropPeer p) s).fabric.holdTotal = s.fabric.holdTotal
      ∧ (l.foldl (fun s p => s.dropPeer p) s).fabric.ports = s.fabric.ports
      ∧ ∀ o ∈ (l.foldl (fun s p => s.dropPeer p) s).fabric.out, o ∈ s.fabric.out ∧ o.slot.dst ∉ l := by
  induction l with
  | nil => exact fun s => ⟨rfl, rfl, rfl, rfl, fun o ho => ⟨ho, List.not_mem_nil⟩⟩
  | cons p l ih =>
    intro s
    have hd : (s.dropPeer p).fabric.hold = s.fabric.hold ∧ (s.dropPeer p).fabric.epoch = s.fabric.epoch
        ∧ (s.dropPeer p).fabric.holdTotal = s.fabric.holdTotal ∧ (s.dropPeer p).fabric.ports = s.fabric.ports := by
      unfold State.dropPeer
      extract_lets open_ t
      rw [(State.Ends.endWorks t open_ 4).fabric]
      exact ⟨rfl, rfl, rfl, rfl⟩
    obtain ⟨h1, h2, h3, h4⟩ := hd
    obtain ⟨i1, i2, i3, i4, i5⟩ := ih (s.dropPeer p)
    refine ⟨i1.trans h1, i2.trans h2, i3.trans h3, i4.trans h4, fun o ho => ?_⟩
    obtain ⟨ho, hl⟩ := i5 o ho
    rw [(s.dropPeer_frame p).1] at ho
    obtain ⟨ho, hp⟩ := List.mem_filter.mp ho
    exact ⟨ho, fun hm => (List.mem_cons.mp hm).elim (fun h => by simp [h] at hp) hl⟩

/-- The panels that something stands open toward. -/
def State.known (s : State) (b : Fabric) : List (BitVec 18) :=
  ((b.out.map fun o => o.slot.dst) ++ (b.works.map fun w => (s.qp w.qp).peer)
    ++ (b.inn.map fun r => r.src) ++ (b.nextSeq.map fun e => BitVec.ofNat 18 e.1)).eraseDups

/-- The state once the hold itself has ended. -/
def State.unheld (s : State) : State := s.modFabric fun b =>
  { b with hold := false, epoch := s.ev.val.extractLsb' 0 16, holdTotal := b.holdTotal + (s.cycle - b.holdAt)
           ports := b.ports.map fun q => { q with marker := none } }

/-- What goes on once a hold has ended. -/
def State.resumed (s : State) : State := (s.fabric.out.foldl (fun s o => s.armResend o 1) s).resendWaiting.resumePorts.postDue

theorem State.GoesOn.resumed (s : State) : s.GoesOn s.resumed :=
  (((foldl _ (fun (s : State) (o : OutSlot) => armResend s o 1) _ s).trans (resendWaiting _)).trans (resumePorts _)).trans
    (of_ends (.postDue _))

theorem State.exec_fabHoldClear_none (h : s.fabric.hold = false) :
    exec .fabHoldClear s = .next (s.modFabric fun f => { f with epoch := s.ev.val.extractLsb' 0 16 }) := by
  rw [← ofNat_bits]
  exact congrArg Host.Outcome.next (if_pos (by rw [h]; rfl))

theorem State.exec_fabHoldClear (h : s.fabric.hold = true) : exec .fabHoldClear s
    = .next (((s.unheld.known s.fabric).filter fun p => !s.fabric.reaches p).foldl (fun s p => s.dropPeer p) s.unheld).resumed := by
  unfold State.unheld
  rw [← ofNat_bits]
  exact congrArg Host.Outcome.next (if_neg (by rw [h]; decide))

theorem State.fabHoldClear_ends (h : s.fabric.hold = true) : ∃ t, exec .fabHoldClear s = .next t ∧ t.fabric.hold = false
    ∧ t.fabric.epoch = s.ev.val.extractLsb' 0 16 ∧ t.fabric.holdTotal = s.fabric.holdTotal + (s.cycle - s.fabric.holdAt)
    ∧ (∀ i : PortId, (t.port i).marker = none) ∧ ∀ o ∈ t.fabric.out, s.fabric.reaches o.slot.dst = true := by
  have hu : s.unheld.fabric.hold = false ∧ s.unheld.fabric.epoch = s.ev.val.extractLsb' 0 16
      ∧ s.unheld.fabric.holdTotal = s.fabric.holdTotal + (s.cycle - s.fabric.holdAt) ∧ s.unheld.fabric.out = s.fabric.out
      ∧ ∀ i : PortId, (s.unheld.fabric.ports[i]).marker = none :=
    ⟨rfl, rfl, rfl, rfl, fun i => congrArg Port.marker (Vector.getElem_map _ i.isLt)⟩
  obtain ⟨u1, u2, u3, u4, u5⟩ := hu
  have he := State.exec_fabHoldClear h
  have hk : ∀ o ∈ s.fabric.out, o.slot.dst ∈ s.unheld.known s.fabric := fun o ho => by
    unfold State.known
    simp only [List.mem_eraseDups, List.mem_append, List.mem_map]
    exact Or.inl (Or.inl (Or.inl ⟨o, ho, rfl⟩))
  generalize s.unheld.known s.fabric = known at he hk
  obtain ⟨d1, d2, d3, d4, d5⟩ := State.dropPeers_frame (known.filter fun p => !s.fabric.reaches p) s.unheld
  generalize (known.filter fun p => !s.fabric.reaches p).foldl (fun s p => s.dropPeer p) s.unheld = r at he d1 d2 d3 d4 d5
  have hg := State.GoesOn.resumed r
  refine ⟨_, he, hg.hold.trans (d1.trans u1), hg.epoch.trans (d2.trans u2), hg.total.trans (d3.trans u3), fun i => ?_, fun o ho => ?_⟩
  · refine (hg.marker i).trans ?_
    unfold State.port
    rw [d4]
    exact u5 i
  · rw [hg.out] at ho
    obtain ⟨ho, hn⟩ := d5 o ho
    rw [u4] at ho
    by_contra hr
    exact hn (List.mem_filter.mpr ⟨hk o ho, by rw [Bool.eq_false_iff.mpr hr]; rfl⟩)

end

end Sys2Proof.Machine
end

