-- ==== Sys2Proof/Proofs/SystemSteps.lean ====
section
/-! PROOFS. Writes of registers by the runtime and by stewards (R330, R331, R336, R347, R361, R366, R375, R401), and the steps of
the systems. -/

namespace Sys2Proof.Machine

section
variable {s t u : State} {d e : DieId}

/-! ### Writes of registers -/

theorem State.exec_registerWrite {blk : RegBlock} {k : Nat} (hf : s.ev.flag = false) (hb : s.ev.block = blk) (ho : s.ev.off.toNat = k) :
    exec .registerWrite s = .next (s.regWrite blk k s.ev.val s.ev.pkt) := by
  subst hb ho
  exact congrArg Host.Outcome.next (if_pos (by rw [hf]; rfl))

theorem State.regWrite_unaligned {k : Nat} (h : k % 8 ≠ 0) (blk : RegBlock) (v : Word) (p : PathPkt) : s.regWrite blk k v p = s := if_pos h

theorem State.regWrite_seq (s : State) (e : DieId) (v : Word) (p : PathPkt) :
    s.regWrite (.seq e) 0 v p = s.modDie e fun x => { x with seq := writeSeq x.seq 0 v } := rfl

theorem State.regWrite_cluster (s : State) (e : DieId) (v : Word) (p : PathPkt) : s.regWrite (.cluster e) 0 v p
    = s.modDie e fun x => { x with stat := writeCluster x.stat 0 v, farIn := if 0 = 0x10 then [] else x.farIn } := rfl

theorem State.regWrite_timeout (s : State) (e : DieId) (v : Word) (p : PathPkt) : s.regWrite (.remote e) 0xC8 v p
    = s.modDie e fun x => { x with mem := writeMemRegs x.mem 0xC8 v } := rfl

theorem State.regWrite_vtab (s : State) (e : DieId) (v : Word) (p : PathPkt) : s.regWrite (.panel e) 0 v p
    = s.modDie e fun x => { x with vtab := vset x.vtab (Fin.ofNat 256 (0 / 8)) (ventryOf v) } := rfl

theorem State.regWrite_limit (s : State) (e : DieId) (v : Word) (p : PathPkt) : s.regWrite (.telemetry e) 0x10 v p
    = s.modDie e fun x => { x with boot := writeTelemetry x.boot 0x10 v } := rfl

theorem State.regWrite_retry (s : State) (i : StackId) (v : Word) (p : PathPkt) : s.regWrite (.station i) 0x40 v p
    = s.modStation i fun t => { t with retry := v.extractLsb' 0 16 } := by
  rw [← ofNat_bits]
  rfl

theorem State.regWrite_tail (s : State) (v : Word) (p : PathPkt) : s.regWrite .queues 0x10 v p
    = s.modQueue 0 fun c => { c with tail := v.extractLsb' 0 32 } := by
  rw [← ofNat_bits]
  rfl

theorem State.regWrite_window (s : State) (v : Word) (p : PathPkt) : s.regWrite .ring 0x90 v p
    = s.modFabric fun b => { b with window := v.extractLsb' 0 16 } := by
  rw [← ofNat_bits]
  rfl

theorem State.regWrite_featAcc (s : State) (e : DieId) (v : Word) (p : PathPkt) :
    s.regWrite (.boot e) 0x30 v p = s.writeAccept e 0 v := rfl

/-- Two halves of a word make the word. -/
theorem hiLo_halves (v : Word) : hiLo (v.extractLsb' 32 32) (v.extractLsb' 0 32) = v := by
  have hv : ∀ n : Nat, (v.extractLsb' n 32).toNat = v.toNat / 2 ^ n % 2 ^ 32 := fun n => by
    rw [BitVec.extractLsb'_toNat, Nat.shiftRight_eq_div_pow]
  refine BitVec.eq_of_toNat_eq ?_
  have h := v.isLt
  unfold hiLo wfield field
  rw [BitVec.toNat_add, BitVec.toNat_ofNat, BitVec.toNat_ofNat, hv, hv]
  generalize v.toNat = n at h ⊢
  norm_num at h ⊢
  omega

/-- The accepted features as they read after a write. -/
theorem featAcc_low (a : BitVec 128) (v : Word) :
    ((a &&& (BitVec.allOnes 128 <<< 64)) ||| (v.setWidth 128 &&& featOffer)).setWidth 64 = v &&& 0xFF := by
  refine BitVec.eq_of_getLsbD_eq fun i hi => ?_
  have ho : ∀ i : Fin 64, featOffer.getLsbD i = (0xFF : Word).getLsbD i := by decide
  have hh : (BitVec.allOnes 128 <<< 64).getLsbD i = false := by
    rw [BitVec.getLsbD_shiftLeft]
    simp [hi]
  rw [BitVec.getLsbD_setWidth, BitVec.getLsbD_or, BitVec.getLsbD_and, BitVec.getLsbD_and, BitVec.getLsbD_and, BitVec.getLsbD_setWidth,
    show featOffer.getLsbD i = _ from ho ⟨i, hi⟩, hh]
  simp [hi, Nat.lt_of_lt_of_le hi (show 64 ≤ 128 by decide)]

theorem State.registerWrite_cluster (hf : s.ev.flag = false) (hb : s.ev.block = .cluster e) (ho : s.ev.off.toNat = 0) :
    ∃ t, exec .registerWrite s = .next t ∧ t.regRead (.cluster e) 0 = s.ev.val ∧ t.mem = s.mem := by
  rw [State.exec_registerWrite hf hb ho, State.regWrite_cluster]
  refine ⟨_, rfl, ?_, rfl⟩
  change readCluster (State.die _ e).stat 0 = _
  rw [State.die_modDie]
  have h := hiLo_halves s.ev.val
  rw [← ofNat_bits, ← ofNat_bits] at h
  exact h

theorem State.registerWrite_seq (hf : s.ev.flag = false) (hb : s.ev.block = .seq e) (ho : s.ev.off.toNat = 0) :
    ∃ t, exec .registerWrite s = .next t ∧ ((t.die e).seq.ibFreeze = s.ev.val.getLsbD 31
      ∧ (t.die e).seq.quantum = max 256 (min 65536 (s.ev.val.extractLsb' 0 17).toNat)) ∧ t.mem = s.mem := by
  rw [State.exec_registerWrite hf hb ho, State.regWrite_seq, ← bits_eq, ← bitAt_eq]
  refine ⟨_, rfl, ?_, rfl⟩
  rw [State.die_modDie]
  exact ⟨rfl, rfl⟩

theorem State.registerWrite_timeout (hf : s.ev.flag = false) (hb : s.ev.block = .remote e) (ho : s.ev.off.toNat = 0xC8) :
    ∃ t, exec .registerWrite s = .next t ∧ (t.die e).mem.timeout = s.ev.val.extractLsb' 0 32 ∧ t.mem = s.mem := by
  rw [State.exec_registerWrite hf hb ho, State.regWrite_timeout, ← ofNat_bits]
  refine ⟨_, rfl, ?_, rfl⟩
  rw [State.die_modDie]
  rfl

theorem State.registerWrite_vtab (hf : s.ev.flag = false) (hb : s.ev.block = .panel e) (ho : s.ev.off.toNat = 0) :
    ∃ t, exec .registerWrite s = .next t ∧ (t.die e).vtab[(0 : Fin 256)] = ventryOf s.ev.val ∧ t.mem = s.mem := by
  rw [State.exec_registerWrite hf hb ho, State.regWrite_vtab]
  refine ⟨_, rfl, ?_, rfl⟩
  rw [State.die_modDie]
  exact vset_same _ _ _

theorem State.registerWrite_limit (hf : s.ev.flag = false) (hb : s.ev.block = .telemetry e) (ho : s.ev.off.toNat = 0x10) :
    ∃ t, exec .registerWrite s = .next t ∧ (t.die e).boot.limitMw.toNat = min 330000 (s.ev.val.extractLsb' 0 32).toNat
      ∧ t.mem = s.mem := by
  rw [State.exec_registerWrite hf hb ho, State.regWrite_limit, ← bits_eq]
  refine ⟨_, rfl, ?_, rfl⟩
  rw [State.die_modDie]
  refine (BitVec.toNat_ofNat _ _).trans (Nat.mod_eq_of_lt ?_)
  exact Nat.lt_of_le_of_lt (Nat.min_le_left _ _) (by decide)

theorem State.registerWrite_retry {i : StackId} (hf : s.ev.flag = false) (hb : s.ev.block = .station i) (ho : s.ev.off.toNat = 0x40) :
    ∃ t, exec .registerWrite s = .next t ∧ (t.station i).retry = s.ev.val.extractLsb' 0 16 ∧ t.mem = s.mem := by
  rw [State.exec_registerWrite hf hb ho, State.regWrite_retry]
  exact ⟨_, rfl, congrArg Station.retry (s.station_modStation i _), rfl⟩

theorem State.registerWrite_tail (hf : s.ev.flag = false) (hb : s.ev.block = .queues) (ho : s.ev.off.toNat = 0x10) :
    ∃ t, exec .registerWrite s = .next t ∧ (t.queue 0).tail = s.ev.val.extractLsb' 0 32 ∧ t.mem = s.mem := by
  rw [State.exec_registerWrite hf hb ho, State.regWrite_tail]
  exact ⟨_, rfl, congrArg CmdQueue.tail (s.queue_modQueue 0 _), rfl⟩

theorem State.registerWrite_window (hf : s.ev.flag = false) (hb : s.ev.block = .ring) (ho : s.ev.off.toNat = 0x90) :
    ∃ t, exec .registerWrite s = .next t ∧ t.fabric.window = s.ev.val.extractLsb' 0 16 ∧ t.mem = s.mem := by
  rw [State.exec_registerWrite hf hb ho, State.regWrite_window]
  exact ⟨_, rfl, rfl, rfl⟩

theorem State.registerWrite_featAcc (hf : s.ev.flag = false) (hl : (s.die e).boot.featLock = false) (hb : s.ev.block = .boot e)
    (ho : s.ev.off.toNat = 0x30) : ∃ t, exec .registerWrite s = .next t ∧ (t.die e).boot.featAcc.setWidth 64 = s.ev.val &&& 0xFF
      ∧ t.mem = s.mem := by
  rw [State.exec_registerWrite hf hb ho, State.regWrite_featAcc]
  refine ⟨_, rfl, ?_, rfl⟩
  rw [show ((s.writeAccept e 0 s.ev.val).die e) = _ from s.die_modDie e _, if_neg (by rw [hl]; decide)]
  exact featAcc_low _ _

/-! ### Registers as stewards reach them -/

theorem State.registerWrite_steward (hf : s.ev.flag = true) (hc : (s.die s.ev.die).coreRuns s.ev.acc.core = true)
    (hl : 0 < s.ev.acc.len) {r : RegBlock} {o : Nat} (hp : s.stewardPlace s.ev.die s.ev.acc.addr s.ev.acc.len = .reg r o) :
    exec .registerWrite s = .next (
      if s.ev.acc.write then s.regWrite r o (wordOfBytes ((s.ev.acc.data ++ List.replicate 8 0).take 8)) {}
      else s.setDie s.ev.die ((s.die s.ev.die).stewardEnds s.ev.acc.core 0 (bytesOfWord (s.regRead r o)))) := by
  have he : exec .registerWrite s = .next (s.stewardAccess s.ev.die s.ev.acc) :=
    congrArg Host.Outcome.next ((if_neg (by rw [hf]; decide)).trans (if_pos hc))
  rw [he]
  refine congrArg Host.Outcome.next ((if_neg (by omega)).trans ?_)
  rw [hp] <;> rfl

end

/-- Settles O58: each step of the systems from the lemma that says what it does (`State.dieReset_starts`, the lemmas of
the boot ROM, `State.attest_report`, `State.heats_hot`, `State.fabHoldSet_begins` and their like). -/
theorem systemSteps : Obligations.SystemSteps := by
  unfold Obligations.SystemSteps
  intro s d x b v others primary romGoesOn fails
  have hfails : ∀ {t : State} {c : BitVec 8}, exec .dieReset s = .next t → s.BootFailed t d c → fails c :=
    fun he ⟨ho, hd, hn⟩ => ⟨_, he, ho, hd, hn⟩
  refine ⟨State.exec_dieReset_off, State.dieReset_starts, fun hs hf => ⟨fun hst hi => ⟨fun l hl => ?_, fun c hc => ?_, fun hw => ?_⟩,
    fun hst hi => ?_, fun l k hst hk hi => ⟨fun c hc => ?_, fun m hm => ?_⟩⟩, s.svnCommit_spec, s.featureLock_spec,
    ⟨State.exec_attestationRequest_none, fun p hp hm hb hr hl hn => State.attestationRequest_reports hp hm hb hr hl hn,
      fun p hp hm hb => State.attestationRequest_waits hp hm hb, fun p hp => ⟨fun off l hm => State.attestationRequest_image hp hm,
        fun on hm => ?_, fun e hm => ?_⟩⟩, fun h => ?_, fun h => ?_, State.powerThrottle_cold, State.powerThrottle_hot,
    fun hc => fun hl => ⟨State.stewardBankAccess_waits hc hl, State.stewardBankAccess_past hc hl, State.stewardPanelAccess_spec hc hl⟩,
    ⟨State.exec_keyDelivery_manager, State.exec_keyDelivery_none, fun p hf hp => ?_⟩, s.partitionDissolve_spec, s.panelReset_spec, rfl,
    ⟨State.exec_incarnationAnnouncement_own, State.incarnationAnnouncement_spec⟩, fun hf => ⟨fun ho => ?_, fun e i =>
      ⟨State.registerWrite_cluster hf, State.registerWrite_seq hf, State.registerWrite_timeout hf, State.registerWrite_vtab hf,
        State.registerWrite_limit hf, State.registerWrite_retry hf, State.registerWrite_tail hf, State.registerWrite_window hf,
        State.registerWrite_featAcc hf⟩⟩, fun hf hc => fun hl r o hp => ?_,
    ⟨fun h => ?_, State.fabHoldSet_begins, State.exec_fabHoldClear_none, State.fabHoldClear_ends⟩⟩
  · have he := State.exec_dieReset_rom hs hf
    obtain ⟨ht, hg⟩ := (s.bootObtain_spec d).1 l hl
    rw [State.bootRom_obtain hst hi] at he
    exact ⟨_, he, fun e hne => ht.die_other hne, hg, ht.die⟩
  · have he := State.exec_dieReset_rom hs hf
    rw [State.bootRom_obtain hst hi] at he
    exact hfails he ((s.bootObtain_spec d).2.1 c hc)
  · have he := State.exec_dieReset_rom hs hf
    rw [State.bootRom_obtain hst hi] at he
    exact ⟨_, he, (s.bootObtain_spec d).2.2 hw⟩
  · have he := State.exec_dieReset_rom hs hf
    rw [State.bootRom_runs hst hi] at he
    have ht := s.bootRuns_turns d
    exact ⟨_, he, fun e hne => ht.die_other hne, ht.mem, ht.die⟩
  · exact hfails (State.exec_dieReset_rom hs hf) ((State.bootRom_load_spec hst hk hi).1 c hc)
  · obtain ⟨ht, hg⟩ := (State.bootRom_load_spec hst hk hi).2 m hm
    obtain ⟨h1, h2, h3⟩ := x.loaded_spec m hst hk
    refine ⟨_, State.exec_dieReset_rom hs hf, ?_⟩
    rw [ht.die]
    exact ⟨h1, fun e hne => ht.die_other hne, hg, h2, h3⟩
  · rw [State.exec_attestationRequest hp, hm] <;> rfl
  · rw [State.exec_attestationRequest hp, hm] <;> rfl
  · rw [State.exec_thermalShutdown]
    exact congrArg Host.Outcome.next (State.heats_cold h)
  · exact ⟨_, s.exec_thermalShutdown, State.heats_hot h⟩
  · obtain ⟨h1, h2, h3⟩ := State.keyDelivery_spec hf hp
    refine ⟨h1, h2, fun key hk hroom hidle => ⟨_, h3 key hk hroom hidle, rfl, rfl, fun i => s.port_installed _ _ _ i, fun i hne => ?_⟩⟩
    rw [State.port_installed]
    exact Port.key_install hne
  · rw [State.exec_registerWrite hf rfl rfl, State.regWrite_unaligned ho]
  · rw [State.registerWrite_steward hf hc hl hp]
    exact ⟨fun hw => by rw [if_pos hw], fun hw => by rw [if_neg (by rw [hw]; decide)]⟩
  · rw [State.exec_fabHoldSet, if_pos h]

end Sys2Proof.Machine
end

