-- ==== Sys2Proof/Proofs/SpaceBytes.lean ====
section
/-! PROOFS. The bytes of register spaces: a block of bytes in a die's banks, and the lines and the state word of a space at
home (R169, R171, R172). -/

namespace Sys2Proof.Machine

/-! ### A block of bank bytes -/

section blocks
variable {x : Die}

theorem bankBytes_foldBase : Config.bankBytes = 134217728 ∧ Config.foldBase = 134215680 := by decide

/-- Writes a block of bytes to the banks from an address on. -/
def Die.putBlock (x : Die) (a : Nat) (l : List Byte) : Die :=
  x.bankWrite ((List.range l.length).zip l |>.map fun p => (a + p.1, p.2))

theorem Die.bankByte_eccWrite (x : Die) (as : List Nat) (y : Nat) : (x.eccWrite as).bankByte y = x.bankByte y := by
  unfold Die.eccWrite
  split <;> rfl

theorem Die.bankWrite_parts (x : Die) (l : List (Nat × Byte)) :
    ∃ m f b, x.bankWrite l = { x with bank := m, folds := f, bankBad := b } := by
  obtain ⟨m, f, h⟩ := Die.setBytes_parts l x
  change ∃ m f b, (x.setBytes l).eccWrite (l.map (·.1)) = _
  rw [h]
  unfold Die.eccWrite
  split
  · exact ⟨m, f, x.bankBad, rfl⟩
  · exact ⟨m, f, _, rfl⟩

/-- A byte outside the folds after writes anywhere: addresses are taken modulo the size of the banks. -/
theorem Die.bankByte_setBytes_low (h : x.wf = true) (l : List (Nat × Byte)) {y : Nat} (hy : y < Config.foldBase) :
    (x.setBytes l).bankByte y = lastWrite (l.map fun p => (p.1 % Config.bankBytes, p.2)) y (x.bankByte y) := by
  induction l using List.reverseRecOn with
  | nil => rfl
  | append_singleton l p ih =>
    have hle : Config.foldBase ≤ Config.bankBytes := by decide
    have hym : y % Config.bankBytes = y := Nat.mod_eq_of_lt (by omega)
    rw [Die.setBytes_append, List.map_append, List.map_singleton, lastWrite_append, ← ih]
    by_cases hp : p.1 % Config.bankBytes < Config.foldBase
    · rw [Die.bankByte_setBankByte _ _ _ (Die.wf_setBytes h l) hp (hym.symm ▸ hy), hym]
      exact if_congr (by rw [beq_iff_eq]; exact eq_comm) rfl rfl
    · rw [if_neg (by simp only [beq_iff_eq]; omega), Die.bankByte_low _ _ (hym.symm ▸ hy), Die.bankByte_low _ _ (hym.symm ▸ hy)]
      unfold Die.setBankByte
      dsimp only
      rw [if_pos (Nat.le_of_not_lt hp)]

/-- The writes of a block, its addresses taken modulo the size of the banks. -/
theorem block_eq (a : Nat) (l : List Byte) : ((List.range l.length).zip l).map (fun p => (a + p.1, p.2))
    = (List.range l.length).map fun k => (a + k, l.getD k 0) := by
  refine List.ext_getElem (by simp) fun k h1 h2 => ?_
  simp only [List.length_map, List.length_range] at h2
  simp [List.getElem?_eq_getElem h2]

theorem Die.bankByte_putBlock (h : x.wf = true) {a b : Nat} {l : List Byte} (hb : a % Config.bankBytes = b)
    (hl : b + l.length ≤ Config.bankBytes) {y : Nat} (hy : y < Config.bankBytes)
    (hf : y < Config.foldBase ∨ a + l.length ≤ Config.foldBase) :
    (x.putBlock a l).bankByte y = if b ≤ y ∧ y < b + l.length then l.getD (y - b) 0 else x.bankByte y := by
  have hc := bankBytes_foldBase
  unfold Die.putBlock
  rw [block_eq]
  refine (Die.bankByte_eccWrite _ _ _).trans ?_
  by_cases hy' : y < Config.foldBase
  · refine (Die.bankByte_setBytes_low h _ hy').trans ?_
    rw [List.map_map, List.map_congr_left (g := fun k => (b + k, l.getD k 0)), lastWrite_block]
    intro k hk
    have hk := List.mem_range.mp hk
    show ((a + k) % Config.bankBytes, _) = _
    rw [Nat.add_mod, hb, Nat.mod_eq_of_lt (a := k) (by omega), Nat.mod_eq_of_lt (by omega)]
  · have ha : a + l.length ≤ Config.foldBase := hf.resolve_left hy'
    have hab : b = a := by rw [← hb, Nat.mod_eq_of_lt (by omega)]
    subst hab
    refine (Die.bankByte_setBytes h _ (fun p hp => ?_) hy).trans (lastWrite_block _ _ _ _ _)
    obtain ⟨k, hk, rfl⟩ := List.mem_map.mp hp
    have hk := List.mem_range.mp hk
    show b + k < _
    omega

theorem Die.wf_putBlock (h : x.wf = true) (a : Nat) (l : List Byte) : (x.putBlock a l).wf = true := Die.wf_bankWrite _ h

end blocks

/-! ### Words and their bytes -/

theorem length_bytesOfNat (n v : Nat) : (bytesOfNat n v).length = n := by
  rw [bytesOfNat_eq, List.length_map, List.length_range]

theorem length_bytesOfWord (w : Word) : (bytesOfWord w).length = 8 := length_bytesOfNat _ _

theorem bytesOfWord_getD (w : Word) {k : Nat} (hk : k < 8) : (bytesOfWord w).getD k 0 = w.extractLsb' (8 * k) 8 := by
  unfold bytesOfWord
  rw [bytesOfNat_eq]
  simp [hk, ofNat_div_eq_extractLsb']

theorem and_not15_toNat (w : Word) : (w &&& ~~~(15 : Word)).toNat = w.toNat / 16 * 16 := by
  have h : w &&& ~~~(15 : Word) = (w >>> 4) <<< 4 := by
    refine BitVec.eq_of_getLsbD_eq fun i hi => ?_
    by_cases h4 : i < 4
    · have h15 : (15 : Word).getLsbD i = true := by
        obtain rfl | rfl | rfl | rfl : i = 0 ∨ i = 1 ∨ i = 2 ∨ i = 3 := by omega
        all_goals rfl
      have hn : (~~~(15 : Word)).getLsbD i = false := by rw [BitVec.getLsbD_not, h15]; simp
      rw [BitVec.getLsbD_and, hn, BitVec.getLsbD_shiftLeft]
      simp [h4]
    · have h15 : (15 : Word).getLsbD i = false := Nat.testBit_lt_two_pow
        (lt_of_lt_of_le (b := 2 ^ 4) (by decide) (Nat.pow_le_pow_right (by decide) (by omega)))
      have hn : (~~~(15 : Word)).getLsbD i = true := by rw [BitVec.getLsbD_not, h15]; simp [hi]
      rw [BitVec.getLsbD_and, hn, BitVec.getLsbD_shiftLeft, BitVec.getLsbD_ushiftRight, Nat.add_sub_cancel' (by omega)]
      simp [h4, hi]
  have hw := w.isLt
  rw [h, BitVec.toNat_shiftLeft, BitVec.toNat_ushiftRight, Nat.shiftLeft_eq, Nat.shiftRight_eq_div_pow]
  exact Nat.mod_eq_of_lt (by omega)

theorem withState_toNat (w : Word) {st : Nat} (hst : st < 16) : (withState w st).toNat = w.toNat / 16 * 16 + st := by
  have hw := w.isLt
  unfold withState
  rw [BitVec.toNat_add, and_not15_toNat, BitVec.toNat_ofNat]
  omega

theorem byte_and_high (b : Byte) : (b &&& 0xF0).toNat = b.toNat / 16 * 16 := by revert b; decide

/-- The low byte of a state word holds the state; its other bytes are as they were. -/
theorem withState_byte (w : Word) {st : Nat} (hst : st < 16) (k : Nat) : (withState w st).extractLsb' (8 * k) 8
    = if k = 0 then (w.extractLsb' 0 8 &&& 0xF0) + BitVec.ofNat 8 st else w.extractLsb' (8 * k) 8 := by
  refine BitVec.eq_of_toNat_eq ?_
  rw [BitVec.extractLsb'_toNat, Nat.shiftRight_eq_div_pow, withState_toNat w hst]
  split
  case isTrue h =>
    subst h
    rw [BitVec.toNat_add, byte_and_high, BitVec.extractLsb'_toNat, BitVec.toNat_ofNat, Nat.shiftRight_eq_div_pow]
    omega
  case isFalse h =>
    obtain ⟨j, rfl⟩ := Nat.exists_eq_succ_of_ne_zero h
    have h256 : 2 ^ (8 * j.succ) = 256 * 2 ^ (8 * j) := by rw [Nat.mul_succ, Nat.pow_add, Nat.mul_comm]
    rw [BitVec.extractLsb'_toNat, Nat.shiftRight_eq_div_pow, h256, ← Nat.div_div_eq_div_mul, ← Nat.div_div_eq_div_mul,
      show (w.toNat / 16 * 16 + st) / 256 = w.toNat / 256 by omega]

/-- The state that a state word has been given. -/
theorem withState_state (w : Word) {st : Nat} (hst : st < 16) :
    ((withState w st).extractLsb' 0 8).extractLsb' 0 4 = BitVec.ofNat 4 st := by
  refine BitVec.eq_of_toNat_eq ?_
  rw [BitVec.extractLsb'_toNat, BitVec.extractLsb'_toNat, withState_toNat w hst, BitVec.toNat_ofNat,
    Nat.shiftRight_eq_div_pow, Nat.shiftRight_eq_div_pow]
  omega

end Sys2Proof.Machine
end

