-- ==== Sys2Proof/Proofs/SpacesAtHome.lean ====
section
/-! PROOFS. The lines of a register space at home: where they are read and written, and what writing them leaves (R171, R172). -/

namespace Sys2Proof.Machine

section
variable {s t u : State} {d : DieId} {n m : CtxId} {base : Word} {x y : Die}

/-! ### What writing a space leaves -/

/-- A die but for the bytes of its banks, their errors, and the state words that wait for their pages. -/
structure Die.Stores (x y : Die) : Prop where
  parts : ∃ bk fo bad st late, y = { x with bank := bk, folds := fo, bankBad := bad, stat := st, lateStates := late }
  wf : x.wf = true → y.wf = true

namespace Die.Stores

theorem refl (x : Die) : x.Stores x := ⟨⟨_, _, _, _, _, rfl⟩, id⟩

theorem trans {z : Die} (h : x.Stores y) (k : y.Stores z) : x.Stores z := by
  obtain ⟨⟨_, _, _, _, _, rfl⟩, hw⟩ := h
  obtain ⟨⟨bk, fo, bad, st, late, hz⟩, kw⟩ := k
  exact ⟨⟨bk, fo, bad, st, late, hz⟩, kw ∘ hw⟩

theorem bankWrite (x : Die) (l : List (Nat × Byte)) : x.Stores (x.bankWrite l) := by
  obtain ⟨bk, fo, bad, h⟩ := x.bankWrite_parts l
  exact ⟨⟨bk, fo, bad, x.stat, x.lateStates, h⟩, Die.wf_bankWrite l⟩

theorem eccRead (x : Die) (as : List Nat) : x.Stores (x.eccRead as) := by
  unfold Die.eccRead
  split
  · exact refl x
  · exact ⟨⟨_, _, _, _, _, rfl⟩, id⟩

theorem carveScrub (x : Die) (w : Window) (l : List Nat) : x.Stores (x.carveScrub w l) := by
  unfold Die.carveScrub
  split
  · exact refl x
  · exact eccRead x _

theorem late (x : Die) (l : List LateState) : x.Stores { x with lateStates := l } := ⟨⟨_, _, _, _, _, rfl⟩, id⟩

theorem ctx (h : x.Stores y) (n : CtxId) : y.ctx n = x.ctx n := by
  obtain ⟨_, _, _, _, _, rfl⟩ := h.parts
  rfl

theorem held (h : x.Stores y) : y.heldSpaces = x.heldSpaces := by
  obtain ⟨_, _, _, _, _, rfl⟩ := h.parts
  rfl

theorem seq (h : x.Stores y) : y.seq = x.seq := by
  obtain ⟨_, _, _, _, _, rfl⟩ := h.parts
  rfl

theorem boot (h : x.Stores y) : y.boot = x.boot := by
  obtain ⟨_, _, _, _, _, rfl⟩ := h.parts
  rfl

theorem pendLaunch (h : x.Stores y) : y.pendLaunch = x.pendLaunch := by
  obtain ⟨_, _, _, _, _, rfl⟩ := h.parts
  rfl

end Die.Stores

/-- From `s` to `t` no die has changed but die `d`, in what writing a space changes, and neither has what is neither a die
nor panel memory. -/
structure State.StoresAt (s t : State) (d : DieId) : Prop where
  die : (s.die d).Stores (t.die d)
  others : ∀ e, e ≠ d → t.die e = s.die e
  cycle : t.cycle = s.cycle
  ev : t.ev = s.ev

namespace State.StoresAt

theorem refl (s : State) (d : DieId) : s.StoresAt s d := ⟨.refl _, fun _ _ => rfl, rfl, rfl⟩

theorem trans (h : s.StoresAt t d) (k : t.StoresAt u d) : s.StoresAt u d :=
  ⟨h.die.trans k.die, fun e he => (k.others e he).trans (h.others e he), k.cycle.trans h.cycle, k.ev.trans h.ev⟩

theorem modDie (s : State) (d : DieId) (f : Die → Die) (h : (s.die d).Stores (f (s.die d))) : s.StoresAt (s.modDie d f) d :=
  ⟨(State.die_modDie s d f).symm ▸ h, fun _ he => State.die_modDie_other _ _ he.symm, rfl, rfl⟩

theorem of_writes (h : s.Writes t) (d : DieId) : s.StoresAt t d := by
  have hd (e : DieId) : t.die e = s.die e := congrArg (fun v : Vector Die 128 => v[e]) h.dies
  exact ⟨(hd d).symm ▸ .refl _, fun e _ => hd e, h.cycle, h.ev⟩

theorem ctx (h : s.StoresAt t d) (e : DieId) (m : CtxId) : t.ctx e m = s.ctx e m := by
  by_cases he : e = d
  · subst he
    exact h.die.ctx m
  · exact congrArg (fun x : Die => x.ctx m) (h.others e he)

theorem homeWrite (s : State) (d : DieId) (n : CtxId) (base : Word) (off : Nat) (l : List Byte) :
    s.StoresAt (s.homeWrite d n base off l) d := by
  unfold State.homeWrite
  dsimp only
  split
  · split
    · exact of_writes (State.Writes.writeMem s _ _) d
    · exact refl s d
  · exact modDie s d _ (.bankWrite _ _)

theorem foldl {α : Type} (f : State → α → State) (hf : ∀ (s : State) a, s.StoresAt (f s a) d) (l : List α) :
    ∀ s : State, s.StoresAt (l.foldl f s) d := by
  induction l with
  | nil => exact fun s => refl s d
  | cons a l ih => exact fun s => (hf s a).trans (ih _)

theorem homeWriteLines (s : State) (d : DieId) (n : CtxId) (base : Word) (off : Nat) (l : List Byte) :
    s.StoresAt (s.homeWriteLines d n base off l) d := foldl _ (fun s _ => homeWrite s d n base _ _) _ s

theorem setSpaceState (s : State) (d : DieId) (n : CtxId) (base : Word) (st : Nat) :
    s.StoresAt (s.setSpaceState d n base st) d := by
  unfold State.setSpaceState
  dsimp only
  split
  · exact modDie s d _ (.late _ _)
  · exact homeWrite s d n base _ _

end State.StoresAt

/-! ### A space in banks -/

theorem State.homeWrite_bank (h : homePanel base = false) (s : State) (d : DieId) (n : CtxId) (off : Nat) (l : List Byte) :
    s.homeWrite d n base off l = s.modDie d fun x => x.putBlock (homeAddr base + off) l := by
  unfold State.homeWrite
  rw [h]
  rfl

/-- The addresses of bytes of a space in banks. -/
def homeBytes (base : Word) (off k : Nat) : List Nat := (List.range k).map fun j => homeAddr base + off + j

theorem State.homeRead_bank (h : homePanel base = false) (s : State) (d : DieId) (n : CtxId) (off k : Nat) :
    s.homeRead d n base off k
      = ((homeBytes base off k).map (s.die d).bankByte, ((s.die d).eccBad (homeBytes base off k)).isSome) := by
  unfold State.homeRead
  rw [h]
  rfl

/-- The reading of a line in banks depends on the banks of its die only. -/
theorem State.homeRead_congr (h : homePanel base = false) (hb : (t.die d).bank = (s.die d).bank)
    (hf : (t.die d).folds = (s.die d).folds) (he : (t.die d).bankBad = (s.die d).bankBad) (off k : Nat) :
    t.homeRead d n base off k = s.homeRead d m base off k := by
  have hy : (t.die d).bankByte = (s.die d).bankByte := by
    funext a
    unfold Die.bankByte
    rw [hb, hf]
  rw [State.homeRead_bank h, State.homeRead_bank h, Die.eccBad, Die.eccBad, hy, he]

theorem State.homeReadLines_congr (h : ∀ off k, t.homeRead d n base off k = s.homeRead d m base off k) (off k : Nat) :
    t.homeReadLines d n base off k = s.homeReadLines d m base off k := by
  unfold State.homeReadLines
  simp only [h]

theorem State.spaceState_congr (h : ∀ off k, t.homeRead d n base off k = s.homeRead d m base off k) :
    t.spaceState d n base = s.spaceState d m base := by
  unfold State.spaceState
  rw [h]

theorem State.homeRead_sound (h : homePanel base = false) (hb : (s.die d).bankBad = []) (off k : Nat) :
    (s.homeRead d n base off k).2 = false := by
  rw [State.homeRead_bank h, Die.eccBad, hb]
  rfl

theorem State.homeReadLines_sound (h : homePanel base = false) (hb : (s.die d).bankBad = []) (off k : Nat) :
    (s.homeReadLines d n base off k).2 = false := by
  unfold State.homeReadLines
  rw [List.any_eq_false]
  intro p hp
  obtain ⟨j, -, rfl⟩ := List.mem_map.mp hp
  rw [State.homeRead_sound h hb]
  exact Bool.false_ne_true

theorem linePages_bank (h : homePanel base = false) (l : List Nat) : linePages base l = [] := by
  unfold linePages
  rw [h]
  rfl

theorem State.homeScrub_clean (h : homePanel base = true ∨ (s.die d).bankBad = []) (l : List Nat) : s.homeScrub d base l = s := by
  unfold State.homeScrub
  obtain h | h := h
  all_goals simp [h]

/-- A die whose space at a base has been given a state. -/
def Die.putState (x : Die) (base : Word) (st : Nat) : Die :=
  x.putBlock (homeAddr base + 0x28) (bytesOfWord (withState (wordOfBytes ((homeBytes base 0x28 8).map x.bankByte)) st))

theorem State.setSpaceState_bank (h : homePanel base = false) (s : State) (d : DieId) (n : CtxId) (st : Nat) :
    s.setSpaceState d n base st = s.modDie d fun x => x.putState base st := by
  unfold State.setSpaceState
  dsimp only
  rw [h, Bool.false_and, if_neg Bool.false_ne_true, State.homeWrite_bank h, State.homeRead_bank h]
  unfold State.modDie Die.putState
  rfl

theorem Die.Stores.putState (x : Die) (base : Word) (st : Nat) : x.Stores (x.putState base st) := .bankWrite _ _

theorem Die.Stores.putBlock (x : Die) (a : Nat) (l : List Byte) : x.Stores (x.putBlock a l) := .bankWrite _ _

/-- The low byte of the state word holds the state, and every other byte is as it was. -/
theorem Die.bankByte_putState (hx : x.wf = true) {st : Nat} (hst : st < 16) (hf : homeAddr base + 0x30 ≤ Config.foldBase) {a : Nat}
    (ha : a < Config.bankBytes) : (x.putState base st).bankByte a
      = if a = homeAddr base + 0x28 then (x.bankByte a &&& 0xF0) + BitVec.ofNat 8 st else x.bankByte a := by
  have hc := bankBytes_foldBase
  unfold Die.putState
  rw [Die.bankByte_putBlock hx (Nat.mod_eq_of_lt (by omega)) (by rw [length_bytesOfWord]; omega) ha
    (.inr (by rw [length_bytesOfWord]; omega)), length_bytesOfWord]
  split
  case isTrue h =>
    obtain ⟨k, hk, rfl⟩ : ∃ k, k < 8 ∧ a = homeAddr base + 0x28 + k := ⟨a - (homeAddr base + 0x28), by omega, by omega⟩
    have hw (j : Nat) (hj : j < 8) := wordOfBytes_byte ((homeBytes base 0x28 8).map x.bankByte) hj
    have hw0 := hw 0 (by decide)
    rw [Nat.add_sub_cancel_left, bytesOfWord_getD _ hk, withState_byte _ hst]
    by_cases h0 : k = 0
    · subst h0
      rw [if_pos rfl, if_pos (by omega), show (0 : Nat) = 8 * 0 from rfl, hw0]
      rfl
    · rw [if_neg h0, if_neg (by omega), hw k hk]
      simp [homeBytes, hk]
  case isFalse h => rw [if_neg (by omega)]

/-- The state in the low byte of a state word that has been written, wherever its space stands outside the folds. -/
theorem Die.bankByte_putState_low (hx : x.wf = true) {st a : Nat} (hst : st < 16)
    (ha : homeAddr base % Config.bankBytes = a) (hf : a + 0x30 ≤ Config.foldBase) :
    ((x.putState base st).bankByte (a + 0x28)).extractLsb' 0 4 = BitVec.ofNat 4 st := by
  have hc := bankBytes_foldBase
  unfold Die.putState
  rw [Die.bankByte_putBlock (b := a + 0x28) hx (by rw [Nat.add_mod, ha, Nat.mod_eq_of_lt (a := 0x28) (by omega), Nat.mod_eq_of_lt (by omega)])
    (by rw [length_bytesOfWord]; omega) (by omega) (.inl (by omega)), length_bytesOfWord, if_pos (by omega), Nat.sub_self,
    bytesOfWord_getD _ (by decide), withState_state _ hst]

/-- A byte outside the state word and outside the folds. -/
theorem Die.bankByte_putState_other (hx : x.wf = true) {st a y : Nat} (ha : homeAddr base % Config.bankBytes = a)
    (hy : y < Config.foldBase) (ho : y < a + 0x28 ∨ a + 0x30 ≤ y) : (x.putState base st).bankByte y = x.bankByte y := by
  have hc := bankBytes_foldBase
  have hd : a % 1024 = 0 := by
    rw [← ha, Nat.mod_mod_of_dvd _ (by decide), homeAddr]
    exact Nat.mul_mod_left _ _
  have hlt : a < Config.bankBytes := ha ▸ Nat.mod_lt _ (by decide)
  unfold Die.putState
  rw [Die.bankByte_putBlock (b := a + 0x28) hx (by rw [Nat.add_mod, ha, Nat.mod_eq_of_lt (a := 0x28) (by omega), Nat.mod_eq_of_lt (by omega)])
    (by rw [length_bytesOfWord]; omega) (by omega) (.inl hy), length_bytesOfWord, if_neg (by omega)]

end

end Sys2Proof.Machine
end

