-- ==== Sys2Proof/Proofs/CutBack.lean ====
section
/-! PROOFS. Writes of the context control block, the release of a held window, and the forced cut-back (R182, R184, R186). -/

namespace Sys2Proof.Machine

section
variable {s : State} {d : DieId} {n : CtxId} {x : Die}

/-! ### The context control block -/

theorem State.exec_ctxPreWrite_spec : exec .ctxPreWrite s = .next (s.modCtx s.ev.die s.ev.ctx fun c =>
    { c with preLimit := s.ev.val.extractLsb' 32 32, preForce := s.ev.val.getLsbD 1, preReq := s.ev.val.getLsbD 0
             preReqOld := c.reqAt s.cycle, preSeen := s.cycle + 2
             cutAt := if s.ev.val.getLsbD 0 = true ∧ s.ev.val.getLsbD 1 = true
               then some (s.cycle + 2 + (s.ev.val.extractLsb' 32 32).toNat) else none }) := by
  change execCtxPreWrite s = _
  unfold execCtxPreWrite
  simp only [bits_eq, bitAt_eq, BitVec.ofNat_toNat, BitVec.setWidth_eq, Bool.and_eq_true]

theorem State.exec_winRelWrite_none (h : (s.die s.ev.die).heldFor (spaceBase s.ev.val) = none) :
    exec .winRelWrite s = .next s := by
  change execWinRelWrite s = _
  unfold execWinRelWrite
  dsimp only
  rw [h]

theorem State.exec_winRelWrite_some {h : HeldSpace} (hh : (s.die s.ev.die).heldFor (spaceBase s.ev.val) = some h) :
    exec .winRelWrite s = .next ((s.setSpaceState s.ev.die h.ctx (spaceBase s.ev.val) 4).modDie s.ev.die
      fun x => x.dropHeld (spaceBase s.ev.val)) := by
  change execWinRelWrite s = _
  unfold execWinRelWrite
  dsimp only
  rw [hh]

/-- The release of a window whose space stands in banks. -/
theorem State.winRelWrite_spec {h : HeldSpace} {base : Word} (hb : spaceBase s.ev.val = base)
    (hh : (s.die s.ev.die).heldFor base = some h) (hp : homePanel base = false) :
    exec .winRelWrite s = .next (s.setDie s.ev.die (((s.die s.ev.die).putState base 4).dropHeld base)) := by
  subst hb
  rw [State.exec_winRelWrite_some hh, State.setSpaceState_bank hp]
  unfold State.modDie
  rw [State.die_setDie, State.setDie_setDie]

/-! ### The forced cut-back -/

/-- A die whose context is cut back: the width, the operations of the region and what the context waits for are given up. -/
def Die.cutBack (x : Die) (n : CtxId) (k bundle : Nat) (hnd : Bool) : Die :=
  let y := (x.giveUp n k .ending).abortOps n bundle
  if hnd then y else (y.leaveWalks n).modCtx n fun c => { c with rsFault := false }

/-- A context that is cut back. -/
def Ctx.cutBack (c : Ctx) : Ctx :=
  { c with st := .ending, ending := .cutBack, waits := [], priv := false, trapEnter := false, pendTrap := none, cutAt := none
           preDeferred := false, ctxswArg := none, act := c.act.filter (·.hnd)
           flight := c.flight.filter fun f => decide (f.bundle < c.idemBundle) }

/-- The entries of the agenda that a cut-back takes away. -/
def CutBackDrops (d : DieId) (n : CtxId) (bundle : Nat) (e : Sched) : Prop :=
  (e.act = .arrivePerform ∨ e.act = .foldSetPerform) ∧ e.arg.die = d ∧ e.arg.ctx = n ∧ bundle ≤ e.arg.seq

theorem State.exec_cutBack_done (h : (s.ctx s.ev.die s.ev.ctx).st = .free ∨ (s.ctx s.ev.die s.ev.ctx).st = .ending) :
    exec .cutBack s = .next (s.modCtx s.ev.die s.ev.ctx fun c => { c with cutAt := none }) := by
  change execCutBack s = _
  unfold execCutBack
  dsimp only
  rw [if_pos (by simpa using h)]

theorem State.exec_cutBack_deferred (hf : (s.ctx s.ev.die s.ev.ctx).st ≠ .free) (he : (s.ctx s.ev.die s.ev.ctx).st ≠ .ending)
    (hp : (s.ctx s.ev.die s.ev.ctx).priv = true) (hw : ∀ w ∈ (s.ctx s.ev.die s.ev.ctx).waits, w ≠ .ret) :
    exec .cutBack s = .next (s.modCtx s.ev.die s.ev.ctx fun c => { c with cutAt := none, preDeferred := true }) := by
  change execCutBack s = _
  unfold execCutBack
  dsimp only
  have hr : (s.ctx s.ev.die s.ev.ctx).waits.contains .ret = false := by
    rw [List.contains_eq_mem, decide_eq_false_iff_not]
    exact fun h => hw _ h rfl
  rw [if_neg (by simp [hf, he]), hp, hr, Bool.and_false]
  rfl

theorem State.exec_cutBack_cuts (hf : (s.ctx s.ev.die s.ev.ctx).st ≠ .free) (he : (s.ctx s.ev.die s.ev.ctx).st ≠ .ending)
    (hp : (s.ctx s.ev.die s.ev.ctx).priv = false) :
    ∃ a, exec .cutBack s = .next { s.setDie s.ev.die (((s.die s.ev.die).cutBack s.ev.ctx (s.cycle - 1)
        (s.ctx s.ev.die s.ev.ctx).idemBundle ((s.ctx s.ev.die s.ev.ctx).act.any (·.hnd))).modCtx s.ev.ctx Ctx.cutBack)
          with agenda := a }
      ∧ ∀ e, e ∈ a ↔ e ∈ s.agenda ∧ ¬ CutBackDrops s.ev.die s.ev.ctx (s.ctx s.ev.die s.ev.ctx).idemBundle e := by
  refine ⟨s.agenda.filter fun e => !((e.act == .arrivePerform || e.act == .foldSetPerform) && e.arg.die == s.ev.die
    && e.arg.ctx == s.ev.ctx && decide ((s.ctx s.ev.die s.ev.ctx).idemBundle ≤ e.arg.seq)), ?_, fun e => ?_⟩
  · change execCutBack s = _
    unfold execCutBack
    dsimp only
    rw [if_neg (by simp [hf, he]), hp, Bool.false_and, if_neg Bool.false_ne_true]
    unfold Die.cutBack
    cases (s.ctx s.ev.die s.ev.ctx).act.any (·.hnd) with
    | true =>
      rw [if_pos rfl, if_pos rfl]
      unfold State.modCtx State.modDie
      rw [State.die_setDie, State.setDie_setDie]
      rfl
    | false =>
      rw [if_neg Bool.false_ne_true, if_neg Bool.false_ne_true]
      unfold State.modCtx State.modDie
      rw [State.die_setDie, State.setDie_setDie, State.die_setDie, State.setDie_setDie, State.die_setDie, State.setDie_setDie]
      rfl
  · rw [List.mem_filter, Bool.not_eq_true', ← Bool.not_eq_true]
    refine and_congr_right fun _ => not_congr ?_
    simp [CutBackDrops, and_assoc]

theorem Die.giveUp_eq (x : Die) (n : CtxId) (k : Nat) (st : CtxState) :
    ∃ seq, x.giveUp n k st = { x.modCtx n fun c => { c with st := st } with seq := seq }
      ∧ seq.holder = if x.seq.holder = some n then none else x.seq.holder := by
  unfold Die.giveUp
  dsimp only
  by_cases hh : x.seq.holder = some n
  · rw [if_pos (by simpa using hh), if_pos hh]
    exact ⟨_, rfl, rfl⟩
  · rw [if_neg (by simpa using hh), if_neg hh]
    exact ⟨x.seq, rfl, rfl⟩

/-- An operation that a cut-back of a region aborts. -/
def Op.cutBack (n : CtxId) (bundle : Nat) (o : Op) : Op :=
  if o.ctx = n ∧ bundle ≤ o.bundle then { o with abort := true } else o

theorem Die.abortOps_eq (x : Die) (n : CtxId) (bundle : Nat) : x.abortOps n bundle = x.mapOps (Op.cutBack n bundle) := by
  unfold Die.abortOps
  congr 1
  funext o
  unfold Op.cutBack
  exact if_congr (by simp) rfl rfl

/-- What a cut-back leaves of its die. -/
theorem Die.cutBack_eq (x : Die) (n : CtxId) (k bundle : Nat) (hnd : Bool) :
    ∃ seq ws fs, (x.cutBack n k bundle hnd).modCtx n Ctx.cutBack
        = { (x.modCtx n fun c => { c.cutBack with rsFault := c.rsFault && hnd }).mapOps (Op.cutBack n bundle) with
            seq := seq, walks := ws, faults := fs }
      ∧ seq.holder = if x.seq.holder = some n then none else x.seq.holder := by
  obtain ⟨seq, hg, hh⟩ := x.giveUp_eq n k .ending
  unfold Die.cutBack
  rw [hg, Die.abortOps_eq]
  cases hnd with
  | true =>
    rw [if_pos rfl]
    refine ⟨seq, x.walks, x.faults, ?_, hh⟩
    simp only [Bool.and_true]
    change ({ ((x.modCtx n fun c => { c with st := .ending }).modCtx n Ctx.cutBack).mapOps (Op.cutBack n bundle) with seq := seq } : Die) = _
    rw [Die.modCtx_modCtx]
    rfl
  | false =>
    rw [if_neg Bool.false_ne_true]
    refine ⟨seq, (x.leaveWalks n).walks, (x.leaveWalks n).faults, ?_, hh⟩
    simp only [Bool.and_false]
    change ({ (((x.modCtx n fun c => { c with st := .ending }).modCtx n fun c => { c with rsFault := false }).modCtx n
      Ctx.cutBack).mapOps (Op.cutBack n bundle) with seq := seq, walks := (x.leaveWalks n).walks, faults := (x.leaveWalks n).faults } : Die) = _
    rw [Die.modCtx_modCtx, Die.modCtx_modCtx]
    rfl

/-- A context that is cut back at task privilege. -/
theorem Ctx.cutBack_eq {c : Ctx} (h : c.priv = false) (b : Bool) : { c.cutBack with rsFault := b }
    = { c with st := .ending, ending := .cutBack, waits := [], trapEnter := false, pendTrap := none, cutAt := none
               preDeferred := false, ctxswArg := none, act := c.act.filter (·.hnd), rsFault := b
               flight := c.flight.filter fun f => decide (f.bundle < c.idemBundle) } := by
  unfold Ctx.cutBack
  rw [← h]

/-- The forced cut-back of a task. -/
theorem State.cutBack_spec (hf : (s.ctx s.ev.die s.ev.ctx).st ≠ .free) (he : (s.ctx s.ev.die s.ev.ctx).st ≠ .ending)
    (hp : (s.ctx s.ev.die s.ev.ctx).priv = false) :
    let d := s.ev.die
    let n := s.ev.ctx
    let c := s.ctx d n
    ∃ t, exec .cutBack s = .next t
      ∧ t.ctx d n = { c with st := .ending, ending := .cutBack, waits := [], trapEnter := false, pendTrap := none
                             cutAt := none, preDeferred := false, ctxswArg := none, act := c.act.filter (·.hnd)
                             rsFault := c.rsFault && c.act.any (·.hnd)
                             flight := c.flight.filter fun f => decide (f.bundle < c.idemBundle) }
      ∧ (∀ q : Fin 19, (t.die d).queues[q] = ((s.die d).queues[q]).map fun o =>
          if o.ctx = n ∧ c.idemBundle ≤ o.bundle then { o with abort := true } else o)
      ∧ (t.die d).seq.holder = (if (s.die d).seq.holder = some n then none else (s.die d).seq.holder)
      ∧ (∀ e, e ∈ t.agenda ↔ e ∈ s.agenda ∧ ¬ CutBackDrops d n c.idemBundle e)
      ∧ s.SameBytes t ∧ (∀ e m, e ≠ d ∨ m ≠ n → t.ctx e m = s.ctx e m)
      ∧ { t with dies := s.dies, agenda := s.agenda } = s := by
  intro d n c
  obtain ⟨a, hx, ha⟩ := State.exec_cutBack_cuts hf he hp
  obtain ⟨seq, ws, fs, hy, hh⟩ := (s.die d).cutBack_eq n (s.cycle - 1) c.idemBundle (c.act.any (·.hnd))
  rw [hy] at hx
  have ht : s.TurnsDie { s.setDie d { ((s.die d).modCtx n fun c' => { c'.cutBack with rsFault := c'.rsFault && c.act.any (·.hnd) }).mapOps
      (Op.cutBack n c.idemBundle) with seq := seq, walks := ws, faults := fs } with agenda := a } d _ := ⟨rfl, rfl⟩
  refine ⟨_, hx, ?_, fun q => ?_, ?_, ha, (ht.quiet (Die.store_with (h := rfl) ..)).1, fun e m hem => ?_, rfl⟩
  · refine (congrArg (fun x : Die => x.ctx n) ht.die).trans (Eq.trans ?_ (Ctx.cutBack_eq hp _))
    exact (s.die d).ctx_modCtx n fun c' => { c'.cutBack with rsFault := c'.rsFault && c.act.any (·.hnd) }
  · rw [ht.die]
    exact Die.mapOps_queues _ _ q
  · rw [ht.die]
    exact hh
  · by_cases hed : e = d
    · subst hed
      refine (congrArg (fun x : Die => x.ctx m) ht.die).trans ?_
      exact (s.die d).ctx_modCtx_other (fun c' => { c'.cutBack with rsFault := c'.rsFault && c.act.any (·.hnd) })
        (hem.resolve_left fun h => h rfl).symm
    · exact congrArg (fun x : Die => x.ctx m) (ht.die_other hed)

end

end Sys2Proof.Machine
end

