-- ==== Sys2Proof/Proofs/Activation.lean ====
section
/-! PROOFS. The activation of a task space and of a handler space (R132, R173, R174, R177 to R180). -/

namespace Sys2Proof.Machine

section
variable {s t u : State} {d : DieId} {n : CtxId} {base : Word} {h : HeldSpace} {im : SpaceImage}

/-! ### A saved task space -/

/-- A space at a base holds a saved task with a window of this die, and reads without an error. -/
structure State.Saved (s : State) (d : DieId) (n : CtxId) (base : Word) (h : HeldSpace) (im : SpaceImage) : Prop where
  sound : (s.homeReadLines d n base 0 2048).2 = false
  state : s.spaceState d n base = 2 ∨ s.spaceState d n base = 3
  held : s.windowHeld d n base = some h
  image : s.readSpace d n false base = .ok im

theorem State.Saved.heldFor (k : s.Saved d n base h im) : (s.die d).heldFor base = some h := by
  have hh := k.held
  unfold State.windowHeld at hh
  dsimp only at hh
  split at hh
  · exact hh
  · exact absurd hh (by simp)

/-- A task in a context that its space has been read into. -/
theorem State.Saved.activateTask (k : s.Saved d n base h im) (hb : (s.die d).bankBad = []) :
    ∃ u, s.StoresAt u d ∧ s.activateTask d n base = ((u.modDie d fun x => x.dropHeld base).modCtx d n fun c =>
      c.installTask im ((s.die d).feature 1) base h.win (s.die d).seq.bundles, 0) := by
  have ht : s.taskStops d n base = none := by
    unfold State.taskStops
    rw [k.sound, k.held, if_neg Bool.false_ne_true, if_neg]
    · rfl
    obtain h | h := k.state
    all_goals simp [h]
  have hs (g : List Byte) : s.spaceScrub d base false g = s := by
    unfold State.spaceScrub
    rw [hb]
    rfl
  have hu : s.StoresAt ((s.setSpaceState d n base 1).homeWrite d n base 0x48
      (bytesOfWord (windowRecord h.win ((s.setSpaceState d n base 1).die d) d false))) d :=
    (State.StoresAt.setSpaceState s d n base 1).trans (.homeWrite _ _ _ _ _ _)
  refine ⟨_, hu, ?_⟩
  unfold State.activateTask
  rw [ht, k.held]
  dsimp only
  rw [hs, k.image]
  dsimp only
  rw [State.die_modDie]
  unfold Die.feature Die.dropHeld
  dsimp only
  rw [hu.die.seq, hu.die.boot]

/-- What an activated task's context, and its die, hold. -/
structure State.Activates (s t : State) (d : DieId) (n : CtxId) (base : Word) (h : HeldSpace) (im : SpaceImage) : Prop where
  task : (t.ctx d n).task = im.file ((s.die d).boot.featAcc.getLsbD 1)
  win : (t.ctx d n).win = h.win
  hasWin : (t.ctx d n).hasWin = true
  taskEmpty : (t.ctx d n).taskEmpty = false
  rsTask : (t.ctx d n).rsTask = base
  act : (t.ctx d n).act = none
  waits : (t.ctx d n).waits = []
  st : (t.ctx d n).st = .ready
  idemPc : (t.ctx d n).idemPc = wordOfBytes ((im.general.drop 0x30).take 8)
  x : ∀ k : Fin 32, (t.ctx d n).x[k] = im.route k.val
  tok : ∀ k : TokId, (t.ctx d n).tok[k] = im.tok k.val
  heldSpaces : (t.die d).heldSpaces = (s.die d).heldSpaces.filter (fun k => k.rs != base)
  others : ∀ e m, e ≠ d ∨ m ≠ n → t.ctx e m = s.ctx e m
  dies : ∀ e, e ≠ d → t.die e = s.die e

/-- What is done to an activated context. -/
theorem State.Saved.activates (k : s.Saved d n base h im) (hb : (s.die d).bankBad = []) (f : Ctx → Ctx)
    (hf : ∀ c, ∃ tr q se ro pk tx ty tn ca rs ea, f c = { c with
      act := none, waits := [], st := .ready, trapResume := tr, queue := q, serial := se, ringOff := ro, pkt := pk
      tileX := tx, tileY := ty, tileN := tn, ctxswArg := ca, rsStatus := rs, earliest := ea }) :
    s.Activates ((s.activateTask d n base).1.modCtx d n f) d n base h im := by
  obtain ⟨u, hu, he⟩ := k.activateTask hb
  have h8 : (s.die d).feature 1 = (s.die d).boot.featAcc.getLsbD 1 := natBit_eq _ _
  rw [he, h8]
  dsimp only
  generalize hI : (fun c : Ctx => c.installTask im ((s.die d).boot.featAcc.getLsbD 1) base h.win (s.die d).seq.bundles) = I
  obtain ⟨tr, q, se, ro, pk, tx, ty, tn, ca, rs, ea, hc⟩ := hf (I (u.ctx d n))
  have hn : ((((u.modDie d fun x => x.dropHeld base).modCtx d n I).modCtx d n f).ctx d n) = f (I (u.ctx d n)) := by
    rw [State.ctx_modCtx, State.ctx_modCtx, State.ctx_modDie_same u d d (fun x => x.dropHeld base) n fun _ => rfl]
  subst hI
  rw [hc] at hn
  refine ⟨(congrArg Ctx.task hn :), (congrArg Ctx.win hn :), (congrArg Ctx.hasWin hn :), (congrArg Ctx.taskEmpty hn :),
    (congrArg Ctx.rsTask hn :), (congrArg Ctx.act hn :), (congrArg Ctx.waits hn :), (congrArg Ctx.st hn :),
    ?_, fun j => ?_, fun j => ?_, ?_, fun e m hem => ?_, fun e he => ?_⟩
  · refine (congrArg Ctx.idemPc hn).trans ?_
    show areaWord im.general 0x30 = _
    unfold areaWord
    rfl
  · refine (congrArg (fun c : Ctx => c.x[j]) hn).trans ?_
    exact Vector.getElem_ofFn _
  · refine (congrArg (fun c : Ctx => c.tok[j]) hn).trans ?_
    exact Vector.getElem_ofFn _
  · rw [State.modCtx, State.die_modDie, State.modCtx, State.die_modDie, State.die_modDie]
    exact congrArg (List.filter fun k : HeldSpace => k.rs != base) hu.die.held
  · rw [State.ctx_modCtx_other _ _ hem, State.ctx_modCtx_other _ _ hem,
      State.ctx_modDie_same u d e (fun x => x.dropHeld base) m fun _ => rfl, hu.ctx]
  · rw [State.modCtx, State.die_modDie_other _ _ he.symm, State.modCtx, State.die_modDie_other _ _ he.symm,
      State.die_modDie_other _ _ he.symm, hu.others e he]

/-! ### The paths of an activation -/

/-- A resumed launch whose space is active (R179). -/
theorem State.finishResume_saved (k : s.Saved d n base h im) (hb : (s.die d).bankBad = []) :
    s.finishResume d n base = (s.activateTask d n base).1.modCtx d n fun c =>
      { c with act := none, waits := [], st := .ready, earliest := s.cycle + 1 } := by
  obtain ⟨u, hu, he⟩ := k.activateTask hb
  unfold State.finishResume
  dsimp only
  rw [he]
  dsimp only
  rw [if_neg (by simp)]

/-- A launch resumes in a context whose space has been read (R179). -/
theorem State.Saved.resumes (k : s.Saved d n base h im) (hb : (s.die d).bankBad = []) :
    s.Activates (s.finishResume d n base) d n base h im ∧ ((s.finishResume d n base).ctx d n).earliest = s.cycle + 1 := by
  rw [State.finishResume_saved k hb]
  exact ⟨k.activates hb _ fun c => ⟨c.trapResume, c.queue, c.serial, c.ringOff, c.pkt, c.tileX, c.tileY, c.tileN, c.ctxswArg,
    c.rsStatus, s.cycle + 1, rfl⟩, congrArg Ctx.earliest (State.ctx_modCtx ..)⟩

/-- The launch, the tile and the resume address that a `ctxsw` gives its context, and the context after it. -/
def Ctx.switched (c : Ctx) (h : HeldSpace) (cycle : Nat) : Ctx :=
  { c with trapResume := c.task.pc, queue := h.queue, serial := h.serial, ringOff := h.ringOff, pkt := h.pkt, tileX := h.tileX
           tileY := h.tileY, tileN := h.tileN, act := none, ctxswArg := none, waits := [], st := .ready, rsStatus := 0
           earliest := max c.earliest (cycle + 1) }

theorem State.finishCtxsw_saved (k : s.Saved d n base h im) (hb : (s.die d).bankBad = []) :
    s.finishCtxsw d n base = (s.activateTask d n base).1.modCtx d n fun c => c.switched h s.cycle := by
  obtain ⟨u, hu, he⟩ := k.activateTask hb
  have hc : ((s.activateTask d n base).1).cycle = s.cycle := by
    rw [he]
    exact hu.cycle
  have h0 : (s.activateTask d n base).2 = 0 := by rw [he]
  unfold State.finishCtxsw
  dsimp only
  rw [k.heldFor]
  generalize s.activateTask d n base = r at hc h0
  rw [if_neg (not_not.mpr h0)]
  unfold State.ctxswStatus
  rw [State.modCtx_modCtx, State.modCtx_cycle, hc]
  rfl

/-- A context resumes after a `ctxsw` with the launch of the space that it has taken (R177, R178). -/
theorem State.Saved.switches (k : s.Saved d n base h im) (hb : (s.die d).bankBad = []) :
    let t := s.finishCtxsw d n base
    s.Activates t d n base h im ∧ (t.ctx d n).rsStatus = 0
      ∧ (t.ctx d n).trapResume = (im.file ((s.die d).boot.featAcc.getLsbD 1)).pc ∧ (t.ctx d n).queue = h.queue
      ∧ (t.ctx d n).tileN = h.tileN := by
  intro t
  have ht : t = (s.activateTask d n base).1.modCtx d n fun c => c.switched h s.cycle := State.finishCtxsw_saved k hb
  clear_value t
  subst ht
  have ha := k.activates hb (fun c => c.switched h s.cycle) fun c => ⟨c.task.pc, h.queue, h.serial, h.ringOff, h.pkt, h.tileX,
    h.tileY, h.tileN, none, 0, max c.earliest (s.cycle + 1), rfl⟩
  have hn := State.ctx_modCtx (s := (s.activateTask d n base).1) d n fun c => c.switched h s.cycle
  refine ⟨ha, (congrArg Ctx.rsStatus hn).trans rfl, ?_, (congrArg Ctx.queue hn).trans rfl, (congrArg Ctx.tileN hn).trans rfl⟩
  rw [← ha.task, hn]
  rfl

/-! ### The activation of a `ctxsw` -/

theorem carveRead_congr {x y : Die} (hb : y.bank = x.bank) (hf : y.folds = x.folds) (he : y.bankBad = x.bankBad) (w : Window)
    (k : Nat) : carveRead y w k = carveRead x w k := by
  have hy : y.bankByte = x.bankByte := by
    funext a
    unfold Die.bankByte
    rw [hb, hf]
  unfold carveRead Die.eccBad
  rw [hy, he]

theorem State.homeRead_modCtx (hp : homePanel base = false) (f : Ctx → Ctx) (off k : Nat) :
    (s.modCtx d n f).homeRead d n base off k = s.homeRead d n base off k := by
  have hd : (s.modCtx d n f).die d = (s.die d).modCtx n f := State.die_modDie s d _
  refine State.homeRead_congr hp ?_ ?_ ?_ off k
  all_goals
    rw [hd]
    rfl

theorem State.readSpace_modCtx (hp : homePanel base = false) (f : Ctx → Ctx) (hnd : Bool) :
    (s.modCtx d n f).readSpace d n hnd base = s.readSpace d n hnd base := by
  have hd : (s.modCtx d n f).die d = (s.die d).modCtx n f := State.die_modDie s d _
  have hr := State.homeRead_modCtx (s := s) (d := d) (n := n) hp f
  have hl (g : List Byte) (j : Nat) : (s.modCtx d n f).readLine d n base g j = s.readLine d n base g j := by
    unfold State.readLine
    dsimp only
    rw [hr, hd, carveRead_congr (x := s.die d) (y := (s.die d).modCtx n f) rfl rfl rfl]
  unfold State.readSpace
  simp only [State.homeReadLines_congr hr, hl]

/-- A change of the context leaves a saved space in banks as it is. -/
theorem State.Saved.modCtx (k : s.Saved d n base h im) (hp : homePanel base = false) (f : Ctx → Ctx) :
    (s.modCtx d n f).Saved d n base h im := by
  have hd : (s.modCtx d n f).die d = (s.die d).modCtx n f := State.die_modDie s d _
  have hr := State.homeRead_modCtx (s := s) (d := d) (n := n) hp f
  refine ⟨?_, ?_, ?_, ?_⟩
  · rw [State.homeReadLines_congr hr]
    exact k.sound
  · rw [State.spaceState_congr hr]
    exact k.state
  · rw [← k.held]
    unfold State.windowHeld
    rw [hr, hd]
    rfl
  · rw [State.readSpace_modCtx hp]
    exact k.image

theorem State.Activates.of_modCtx {f : Ctx → Ctx} (k : (s.modCtx d n f).Activates t d n base h im) : s.Activates t d n base h im := by
  have hd : (s.modCtx d n f).die d = (s.die d).modCtx n f := State.die_modDie s d _
  refine { k with task := ?_, heldSpaces := ?_, others := fun e m hem => ?_, dies := fun e he => ?_ }
  · rw [k.task, hd]
    rfl
  · rw [k.heldSpaces, hd]
    rfl
  · rw [k.others e m hem, State.ctx_modCtx_other _ _ hem]
  · rw [k.dies e he, State.modCtx, State.die_modDie_other _ _ he.symm]

/-- A context whose old task has left it (R177). -/
def Ctx.vacated (c : Ctx) : Ctx := { c with taskEmpty := true, hasWin := false }

theorem State.exec_ctxswComplete_empty {a : Activation} (ha : (s.ctx s.ev.die s.ev.ctx).act = some a) (hd : a.due = s.cycle)
    (hb : a.byCtxsw = true) (hs : (s.ctx s.ev.die s.ev.ctx).st = .blocked) (he : (s.ctx s.ev.die s.ev.ctx).taskEmpty = true) :
    exec .ctxswComplete s = .next (if homePanel a.base then
        (s.modCtx s.ev.die s.ev.ctx Ctx.vacated).modCtx s.ev.die s.ev.ctx fun c =>
          { c with act := some { a with due := 0 }, waits := [.refill] }
      else (s.modCtx s.ev.die s.ev.ctx Ctx.vacated).finishCtxsw s.ev.die s.ev.ctx a.base) := by
  change execCtxswComplete s = _
  unfold execCtxswComplete
  dsimp only
  rw [ha]
  dsimp only
  rw [hb, hs, hd, he]
  rw [if_neg (by simp), Bool.not_true, Bool.false_and, Bool.false_and, if_neg Bool.false_ne_true, if_pos rfl]
  rfl

/-- A space that is neither saved nor in order ends its activation after its general area (R178). -/
theorem State.activateTask_never (h0 : (s.homeReadLines d n base 0 2048).2 = false) (h1 : s.spaceState d n base < 2)
    (hb : (s.die d).bankBad = []) : s.activateTask d n base = (s, 3) := by
  have ht : s.taskStops d n base = some 3 := by
    unfold State.taskStops
    rw [h0, if_neg Bool.false_ne_true, if_pos]
    simp only [Bool.and_eq_true, decide_eq_true_eq]
    omega
  unfold State.activateTask
  rw [ht]
  dsimp only
  rw [State.homeScrub_clean (.inr hb)]
  rfl

/-- The handler goes on with the status of a `ctxsw` whose space has no saved task (R178). -/
theorem State.finishCtxsw_never (h0 : (s.homeReadLines d n base 0 2048).2 = false) (h1 : s.spaceState d n base < 2)
    (hb : (s.die d).bankBad = []) : s.finishCtxsw d n base = s.ctxswStatus d n 3 := by
  unfold State.finishCtxsw State.ctxswFails
  dsimp only
  rw [State.activateTask_never h0 h1 hb]
  rfl

/-- The three ends of a `ctxsw` whose old task is gone (R177, R178). -/
theorem State.ctxswComplete_spec {a : Activation} (ha : (s.ctx s.ev.die s.ev.ctx).act = some a) (hd : a.due = s.cycle)
    (hw : a.byCtxsw = true) (hs : (s.ctx s.ev.die s.ev.ctx).st = .blocked) (he : (s.ctx s.ev.die s.ev.ctx).taskEmpty = true)
    (hb : (s.die s.ev.die).bankBad = []) :
    (homePanel a.base = false → s.Saved s.ev.die s.ev.ctx a.base h im → ∃ t, exec .ctxswComplete s = .next t
      ∧ s.Activates t s.ev.die s.ev.ctx a.base h im ∧ (t.ctx s.ev.die s.ev.ctx).rsStatus = 0
      ∧ (t.ctx s.ev.die s.ev.ctx).trapResume = (im.file ((s.die s.ev.die).boot.featAcc.getLsbD 1)).pc
      ∧ (t.ctx s.ev.die s.ev.ctx).queue = h.queue ∧ (t.ctx s.ev.die s.ev.ctx).tileN = h.tileN)
    ∧ (homePanel a.base = false → (s.homeReadLines s.ev.die s.ev.ctx a.base 0 2048).2 = false →
      s.spaceState s.ev.die s.ev.ctx a.base < 2 → ∃ t, exec .ctxswComplete s = .next t
      ∧ (t.ctx s.ev.die s.ev.ctx).rsStatus = 3 ∧ (t.ctx s.ev.die s.ev.ctx).st = .ready ∧ (t.ctx s.ev.die s.ev.ctx).act = none
      ∧ (t.ctx s.ev.die s.ev.ctx).taskEmpty = true ∧ s.SameBytes t)
    ∧ (homePanel a.base = true → ∃ t, exec .ctxswComplete s = .next t
      ∧ t.ctx s.ev.die s.ev.ctx = { s.ctx s.ev.die s.ev.ctx with act := some { a with due := 0 }, waits := [.refill]
                                                                 hasWin := false }
      ∧ s.SameBytes t) := by
  have hx := State.exec_ctxswComplete_empty ha hd hw hs he
  have hv : (s.modCtx s.ev.die s.ev.ctx Ctx.vacated).die s.ev.die = (s.die s.ev.die).modCtx s.ev.ctx Ctx.vacated :=
    State.die_modDie s _ _
  have hb' : ((s.modCtx s.ev.die s.ev.ctx Ctx.vacated).die s.ev.die).bankBad = [] := by
    rw [hv]
    exact hb
  refine ⟨fun hp k => ⟨_, hx, ?_⟩, fun hp h0 h1 => ⟨_, hx, ?_⟩, fun hp => ⟨_, hx, ?_⟩⟩
  · obtain ⟨h1, h2, h3, h4, h5⟩ := (k.modCtx hp Ctx.vacated).switches hb'
    rw [hp, if_neg Bool.false_ne_true]
    refine ⟨h1.of_modCtx, h2, h3.trans ?_, h4, h5⟩
    rw [hv]
    rfl
  · have hr := State.homeRead_modCtx (s := s) (d := s.ev.die) (n := s.ev.ctx) hp Ctx.vacated
    rw [hp, if_neg Bool.false_ne_true, State.finishCtxsw_never (by rw [State.homeReadLines_congr hr]; exact h0)
      (by rw [State.spaceState_congr hr]; exact h1) hb']
    unfold State.ctxswStatus
    rw [State.ctx_modCtx, State.ctx_modCtx]
    exact ⟨rfl, rfl, rfl, rfl, (State.sameBytes_modCtx _ _ _ _).trans (State.sameBytes_modCtx _ _ _ _)⟩
  · rw [if_pos hp, State.ctx_modCtx, State.ctx_modCtx]
    refine ⟨?_, (State.sameBytes_modCtx _ _ _ _).trans (State.sameBytes_modCtx _ _ _ _)⟩
    unfold Ctx.vacated
    dsimp only
    rw [← he]

/-! ### The end of an activation -/

theorem State.exec_spillRefillComplete {a : Activation} (ha : (s.ctx s.ev.die s.ev.ctx).act = some a) (hd : a.due = s.cycle) :
    exec .spillRefillComplete s = .next (
      if s.activationMoves s.ev.die s.ev.ctx a then
        s.modCtx s.ev.die s.ev.ctx fun c => { c with act := some { a with due := 0 } }
      else if a.hnd then s.finishHandler s.ev.die s.ev.ctx a.base
      else if a.byCtxsw then s.finishCtxsw s.ev.die s.ev.ctx a.base
      else s.finishResume s.ev.die s.ev.ctx a.base) := by
  change execSpillRefillComplete s = _
  unfold execSpillRefillComplete
  dsimp only
  rw [ha]
  dsimp only
  rw [if_neg (not_not.mpr hd)]

/-! ### A fresh handler space -/

theorem State.activateHandler_fresh (h0 : (s.homeReadLines d n base 0 2048).2 = false) (h1 : s.spaceState d n base < 2)
    (hb : homePanel base = true ∨ (s.die d).bankBad = []) :
    s.activateHandler d n base = ((s.setSpaceState d n base 1).modCtx d n fun c => c.freshHandler base, 0) := by
  have hf : s.handlerSaved d n base = false := by
    unfold State.handlerSaved
    rw [Bool.or_eq_false_iff, beq_eq_false_iff_ne, beq_eq_false_iff_ne]
    omega
  unfold State.activateHandler
  rw [h0, hf, if_neg Bool.false_ne_true, State.homeScrub_clean hb]
  rfl

/-- What a switch to a fresh handler space makes of a context. -/
def Ctx.newHandler (c : Ctx) (base : Word) (pc : Word) (cycle : Nat) : Ctx :=
  let k := c.freshHandler base
  { k with act := none, hnd := if c.priv then { k.hnd with pc := pc } else k.hnd
           earliest := if c.priv then max c.earliest (cycle + 3) else c.earliest
           st := if c.waits.contains .refill then .ready else c.st
           waits := c.waits.filter (· != .refill) }

theorem State.finishHandler_fresh (h0 : (s.homeReadLines d n base 0 2048).2 = false) (h1 : s.spaceState d n base < 2)
    (hb : homePanel base = true ∨ (s.die d).bankBad = []) (he : (s.ctx d n).hndEmpty = true) :
    s.finishHandler d n base = (s.setSpaceState d n base 1).modCtx d n
      fun c => c.newHandler base (s.ctx d n).hnd.pc s.cycle := by
  have hc := (State.StoresAt.setSpaceState s d n base 1).cycle
  unfold State.finishHandler
  dsimp only
  rw [he, if_pos rfl, State.activateHandler_fresh h0 h1 hb]
  dsimp only
  rw [if_neg (by simp), State.modCtx_modCtx]
  rfl

/-- The bytes of the banks where a space's state is written to panel memory, or waits to be. -/
theorem State.bankByte_setSpaceState_panel (hp : homePanel base = true) (st : Nat) (e : DieId) (y : Nat) :
    ((s.setSpaceState d n base st).die e).bankByte y = (s.die e).bankByte y := by
  unfold State.setSpaceState
  dsimp only
  split
  · exact (State.sameBytes_modDie s d (fun x => { x with lateStates := x.lateStates ++ [_] }) rfl rfl).2 e y
  · unfold State.homeWrite
    dsimp only
    rw [if_pos hp]
    split
    · exact congrArg (fun v : Vector Die 128 => v[e].bankByte y) (State.Writes.writeMem s _ _).dies
    · rfl

/-- A switch to a handler space that has never been saved (R132, R173, R180). -/
theorem State.finishHandler_spec (h0 : (s.homeReadLines d n base 0 2048).2 = false) (h1 : s.spaceState d n base < 2)
    (hb : (s.die d).bankBad = []) (he : (s.ctx d n).hndEmpty = true) :
    let t := s.finishHandler d n base
    let c := s.ctx d n
    (t.ctx d n).hnd = (if c.priv then { ({} : RegFile) with pc := c.hnd.pc } else {})
    ∧ (t.ctx d n).hndBase = base ∧ (t.ctx d n).hndEmpty = false ∧ (t.ctx d n).act = none
    ∧ (t.ctx d n).task = c.task ∧ (∀ e m, e ≠ d ∨ m ≠ n → t.ctx e m = s.ctx e m)
    ∧ (homePanel base = true → ∀ (e : DieId) (y : Nat), (t.die e).bankByte y = (s.die e).bankByte y)
    ∧ (homePanel base = false → t.mem = s.mem ∧ (∀ e, e ≠ d → t.die e = s.die e)
      ∧ (homeAddr base + 0x30 ≤ Config.foldBase → (s.die d).wf = true → ∀ y, y < Config.bankBytes → (t.die d).bankByte y
        = if y = homeAddr base + 0x28 then ((s.die d).bankByte y &&& 0xF0) + 1 else (s.die d).bankByte y)) := by
  intro t c
  have hu := State.StoresAt.setSpaceState s d n base 1
  have ht : t = (s.setSpaceState d n base 1).modCtx d n fun k => k.newHandler base c.hnd.pc s.cycle :=
    State.finishHandler_fresh h0 h1 (.inr hb) he
  have hn : t.ctx d n = c.newHandler base c.hnd.pc s.cycle := by
    rw [ht, State.ctx_modCtx, hu.ctx]
  clear_value t
  have hf (e : DieId) (y : Nat) : (t.die e).bankByte y = ((s.setSpaceState d n base 1).die e).bankByte y := by
    rw [ht]
    exact (State.sameBytes_modCtx _ d n _).2 e y
  refine ⟨(congrArg Ctx.hnd hn).trans rfl, (congrArg Ctx.hndBase hn).trans rfl, (congrArg Ctx.hndEmpty hn).trans rfl,
    (congrArg Ctx.act hn).trans rfl, (congrArg Ctx.task hn).trans rfl, fun e m hem => ?_, fun hp e y => ?_,
    fun hp => ⟨?_, fun e he => ?_, fun hf' hw y hy => ?_⟩⟩
  · rw [ht, State.ctx_modCtx_other _ _ hem, hu.ctx]
  · rw [hf, State.bankByte_setSpaceState_panel hp]
  · rw [ht, State.setSpaceState_bank hp]
    rfl
  · rw [ht, State.modCtx, State.die_modDie_other _ _ he.symm, hu.others e he]
  · rw [hf, State.setSpaceState_bank hp, State.die_modDie, Die.bankByte_putState hw (by decide) hf' hy]
    rfl

end

end Sys2Proof.Machine
end

