-- ==== Sys2Proof/Proofs/SavedSpaces.lean ====
section
/-! PROOFS. The save of a task space: the bytes of its general area, and the end of a forced cut-back (R168, R172, R186). -/

namespace Sys2Proof.Machine

/-! ### Bytes assembled from segments -/

/-- Bytes with a segment put at its offset. -/
def placeSeg (acc : List Byte) (p : Nat × List Byte) : List Byte := acc ++ List.replicate (p.1 - acc.length) 0 ++ p.2

/-- Where some segments end. -/
def segsEnd (segs : List (Nat × List Byte)) (n : Nat) : Nat := segs.foldl (fun n p => max n p.1 + p.2.length) n

theorem assemble_eq (size : Nat) (segs : List (Nat × List Byte)) : assemble size segs
    = segs.foldl placeSeg [] ++ List.replicate (size - (segs.foldl placeSeg []).length) 0 := rfl

theorem length_foldl_placeSeg (segs : List (Nat × List Byte)) :
    ∀ acc : List Byte, (segs.foldl placeSeg acc).length = segsEnd segs acc.length := by
  induction segs with
  | nil => exact fun _ => rfl
  | cons p segs ih =>
    intro acc
    have hl : (placeSeg acc p).length = max acc.length p.1 + p.2.length := by
      simp only [placeSeg, List.length_append, List.length_replicate]
      omega
    rw [List.foldl_cons, ih, hl]
    rfl

theorem length_assemble {size : Nat} {segs : List (Nat × List Byte)} (h : segsEnd segs 0 ≤ size) :
    (assemble size segs).length = size := by
  have hl := length_foldl_placeSeg segs []
  rw [List.length_nil] at hl
  rw [assemble_eq, List.length_append, List.length_replicate, hl]
  omega

theorem foldl_placeSeg_prefix (segs : List (Nat × List Byte)) : ∀ acc : List Byte, ∃ r, segs.foldl placeSeg acc = acc ++ r := by
  induction segs with
  | nil => exact fun acc => ⟨[], (List.append_nil acc).symm⟩
  | cons p segs ih =>
    intro acc
    obtain ⟨r, hr⟩ := ih (placeSeg acc p)
    exact ⟨List.replicate (p.1 - acc.length) 0 ++ p.2 ++ r, by rw [List.foldl_cons, hr, placeSeg]; simp only [List.append_assoc]⟩

/-- A segment stands at its offset. -/
theorem assemble_getD {size off i k : Nat} {l : List Byte} (pre post : List (Nat × List Byte)) (hi : i = off + k)
    (h : segsEnd pre 0 ≤ off) (hk : k < l.length) : (assemble size (pre ++ (off, l) :: post)).getD i 0 = l.getD k 0 := by
  subst hi
  have hl := length_foldl_placeSeg pre []
  rw [List.length_nil] at hl
  obtain ⟨r, hr⟩ := foldl_placeSeg_prefix post (placeSeg (pre.foldl placeSeg []) (off, l))
  rw [assemble_eq, List.foldl_append, List.foldl_cons, hr, placeSeg]
  generalize pre.foldl placeSeg [] = acc at hl
  simp only [List.append_assoc]
  rw [List.getD_append_right _ _ _ _ (by omega), List.getD_append_right _ _ _ _ (by simp only [List.length_replicate]; omega),
    List.length_replicate, List.getD_append _ _ _ _ (by omega)]
  congr 1
  omega

/-! ### The general area of a task -/

section general
variable (x : Die) (d : DieId) (c : Ctx) (pc sw : Word) (touched : BitVec 140)

theorem length_loopBytes (l : LoopLvl) : (loopBytes l).length = 32 := by
  simp [loopBytes, length_bytesOfWord, length_bytesOfNat]

theorem generalArea_spec : (generalArea x d c false pc sw touched).length = 2048
    ∧ (∀ k, k < 8 → (generalArea x d c false pc sw touched).getD k 0 = pc.extractLsb' (8 * k) 8)
    ∧ (generalArea x d c false pc sw touched).getD 0x28 0 = sw.extractLsb' 0 8 := by
  have hw : ∀ w : Word, (bytesOfWord w).length = 8 := length_bytesOfWord
  unfold generalArea
  dsimp only
  refine ⟨length_assemble ?_, fun k hk => ?_, ?_⟩
  · simp [segsEnd, hw, length_bytesOfNat, length_loopBytes]
  · exact (assemble_getD [] _ (Nat.zero_add k).symm (Nat.le_refl _) (by rw [hw]; exact hk)).trans (bytesOfWord_getD _ hk)
  · refine (assemble_getD (k := 0) [_, _, _, _, _] _ rfl ?_ (by rw [hw]; decide)).trans (bytesOfWord_getD _ (by decide))
    simp [segsEnd, hw, length_bytesOfNat]

end general

/-! ### Lines written in banks -/

section
variable {s t : State} {d : DieId} {n : CtxId} {base : Word}

theorem State.bankByte_homeWrite (hp : homePanel base = false) (hw : (s.die d).wf = true) {off : Nat} {l : List Byte}
    (hf : homeAddr base + off + l.length ≤ Config.foldBase) {y : Nat} (hy : y < Config.bankBytes) :
    ((s.homeWrite d n base off l).die d).bankByte y = if homeAddr base + off ≤ y ∧ y < homeAddr base + off + l.length
      then l.getD (y - (homeAddr base + off)) 0 else (s.die d).bankByte y := by
  have hc := bankBytes_foldBase
  rw [State.homeWrite_bank hp, State.die_modDie, Die.bankByte_putBlock hw (Nat.mod_eq_of_lt (by omega)) (by omega) hy (.inr hf)]

/-- Lines that are written in banks stand there. -/
theorem State.bankByte_homeWriteLines (hp : homePanel base = false) (hw : (s.die d).wf = true) {off : Nat} {l : List Byte}
    (hf : homeAddr base + off + l.length ≤ Config.foldBase) {y : Nat} (hy : y < Config.bankBytes) :
    ((s.homeWriteLines d n base off l).die d).bankByte y = if homeAddr base + off ≤ y ∧ y < homeAddr base + off + l.length
      then l.getD (y - (homeAddr base + off)) 0 else (s.die d).bankByte y := by
  have hm : ∀ m, m ≤ (l.length + 255) / 256 →
      let u := (List.range m).foldl (fun s k => s.homeWrite d n base (off + 256 * k) ((l.drop (256 * k)).take 256)) s
      (u.die d).wf = true ∧ (u.die d).bankByte y = if homeAddr base + off ≤ y ∧ y < homeAddr base + off + min (256 * m) l.length
        then l.getD (y - (homeAddr base + off)) 0 else (s.die d).bankByte y := by
    intro m
    induction m with
    | zero => exact fun _ => ⟨hw, (if_neg (by omega)).symm⟩
    | succ m ih =>
      intro hm u
      obtain ⟨hu, hb⟩ := ih (by omega)
      have hlen : ((l.drop (256 * m)).take 256).length = min 256 (l.length - 256 * m) := by simp
      have hu' : u = ((List.range m).foldl (fun s k => s.homeWrite d n base (off + 256 * k) ((l.drop (256 * k)).take 256)) s).homeWrite
          d n base (off + 256 * m) ((l.drop (256 * m)).take 256) := by
        show (List.range (m + 1)).foldl _ s = _
        rw [List.range_succ, List.foldl_append]
        rfl
      refine ⟨hu' ▸ (State.StoresAt.homeWrite _ d n base _ _).die.wf hu, ?_⟩
      rw [hu', State.bankByte_homeWrite hp hu (by rw [hlen]; omega) hy, hb, hlen]
      by_cases h1 : homeAddr base + (off + 256 * m) ≤ y ∧ y < homeAddr base + (off + 256 * m) + min 256 (l.length - 256 * m)
      · rw [if_pos h1, if_pos (by omega)]
        obtain ⟨k, rfl⟩ := Nat.exists_eq_add_of_le h1.1
        rw [Nat.add_sub_cancel_left, show homeAddr base + (off + 256 * m) + k - (homeAddr base + off) = 256 * m + k by omega]
        simp only [List.getD_eq_getElem?_getD, List.getElem?_take, List.getElem?_drop]
        rw [if_pos (by omega)]
      · rw [if_neg h1]
        exact if_congr (by omega) rfl rfl
  have h := (hm _ (Nat.le_refl _)).2
  rw [show min (256 * ((l.length + 255) / 256)) l.length = l.length by omega] at h
  exact h

/-! ### The save of a task space -/

/-- The state in the low byte of a state word with its check. -/
theorem stateWord_state (saves : BitVec 16) (phase : Fin 64) (st : Nat) (check : BitVec 32) :
    ((stateWord saves phase st + (check.setWidth 64 <<< 32)).extractLsb' 0 8).extractLsb' 0 4 = BitVec.ofNat 4 st := by
  refine BitVec.eq_of_toNat_eq ?_
  rw [BitVec.extractLsb'_toNat, BitVec.extractLsb'_toNat, BitVec.toNat_add, BitVec.toNat_shiftLeft, BitVec.toNat_ofNat,
    Nat.shiftRight_eq_div_pow, Nat.shiftRight_eq_div_pow, Nat.shiftLeft_eq, stateWord, BitVec.toNat_ofNat, field, field]
  omega

theorem State.saveSpace_eq (s : State) (d : DieId) (n : CtxId) (base pc : Word) (st : Nat) :
    ∃ v c w ext touched, s.StoresAt v d ∧ s.saveSpace d n false base pc st = ((v.modCtx d n fun _ => c).homeWriteLines d n base 0x8C00
        ext).homeWriteLines d n base 0 (generalArea (v.die d) d c false pc w touched)
      ∧ (w.extractLsb' 0 8).extractLsb' 0 4 = BitVec.ofNat 4 st := by
  have hv (c : Ctx) (s : State) (a : SaveAct) : s.StoresAt (match a with
      | .home j => s.homeWrite d n base (256 * j.val) (lineBytes (c.file false) (c.recs false) j.val)
      | .evict i k =>
        (s.modDie d fun x => x.carveScrub c.win [k]).homeWrite d n base (256 * i.val) (carveRead (s.die d) c.win k).1
      | .slot j k => s.modDie d fun x => x.bankWrite ((List.range 256).zip (lineBytes (c.file false) (c.recs false) j.val)
          |>.map fun p => (c.win.carve + 256 * k + p.1, p.2))) d := by
    cases a with
    | home j => exact .homeWrite s d n base _ _
    | evict i k => exact (State.StoresAt.modDie s d _ (.carveScrub _ _ _)).trans (.homeWrite _ d n base _ _)
    | slot j k => exact .modDie s d _ (.bankWrite _ _)
  unfold State.saveSpace
  extract_lets c plan v saves c1 c2 f sw lines ext general check v1 v2
  exact ⟨v, c2, _, ext, _, .foldl _ (hv c) _ _, rfl, stateWord_state _ _ _ _⟩

/-- What a save leaves, and for a home in banks the resume address and the state of its general area. -/
theorem State.saveSpace_spec (s : State) (d : DieId) (n : CtxId) (base pc : Word) (st : Nat) :
    let t := s.saveSpace d n false base pc st
    (∀ e m, e ≠ d ∨ m ≠ n → t.ctx e m = s.ctx e m) ∧ (t.die d).heldSpaces = (s.die d).heldSpaces
    ∧ (homePanel base = false → homeAddr base + 0xAD00 ≤ Config.foldBase → (s.die d).wf = true →
      (∀ k, k < 8 → (t.die d).bankByte (homeAddr base + k) = pc.extractLsb' (8 * k) 8)
      ∧ ((t.die d).bankByte (homeAddr base + 0x28)).extractLsb' 0 4 = BitVec.ofNat 4 st) := by
  intro t
  obtain ⟨v, c, w, ext, touched, hv, ht, hw⟩ := s.saveSpace_eq d n base pc st
  replace ht : t = _ := ht
  clear_value t
  obtain ⟨hl, hpc, hsw⟩ := generalArea_spec (v.die d) d c pc w touched
  generalize generalArea (v.die d) d c false pc w touched = g at ht hl hpc hsw
  have hd : (v.modCtx d n fun _ => c).die d = (v.die d).modCtx n fun _ => c := State.die_modDie v d _
  have hx := State.StoresAt.homeWriteLines (v.modCtx d n fun _ => c) d n base 0x8C00 ext
  generalize (v.modCtx d n fun _ => c).homeWriteLines d n base 0x8C00 ext = u at ht hx
  have hy := State.StoresAt.homeWriteLines u d n base 0 g
  rw [← ht] at hy
  refine ⟨fun e m hem => ?_, ?_, fun hp hf hwf => ?_⟩
  · rw [hy.ctx, hx.ctx, State.ctx_modCtx_other _ _ hem, hv.ctx]
  · rw [hy.die.held, hx.die.held, hd]
    exact hv.die.held
  · have hc := bankBytes_foldBase
    have hw1 : ((v.modCtx d n fun _ => c).die d).wf = true := by
      rw [hd]
      exact hv.die.wf hwf
    have hb (k : Nat) (hk : k < 2048) : (t.die d).bankByte (homeAddr base + k) = g.getD k 0 := by
      rw [ht, State.bankByte_homeWriteLines hp (hx.die.wf hw1) (by omega) (by omega), if_pos (by omega), Nat.add_zero,
        Nat.add_sub_cancel_left]
    refine ⟨fun k hk => (hb k (by omega)).trans (hpc k hk), ?_⟩
    rw [hb _ (by decide), hsw, hw]

/-! ### The end of a forced cut-back -/

theorem State.exec_cutBackSaveEnd (h1 : (s.ctx s.ev.die s.ev.ctx).st = .ending) (h2 : (s.ctx s.ev.die s.ev.ctx).ending = .cutBack)
    (h3 : (s.ctx s.ev.die s.ev.ctx).act ≠ none) :
    exec .cutBackSaveEnd s = .next (if s.saveMoves s.ev.die s.ev.ctx then
        s.modCtx s.ev.die s.ev.ctx fun c => { c with act := none }
      else
        let c := s.ctx s.ev.die s.ev.ctx
        let u := ((s.modCtx s.ev.die s.ev.ctx Ctx.restored).saveSpace s.ev.die s.ev.ctx false c.rsTask (c.idemPc &&& ~~~3) 3).hold
          s.ev.die (heldOf c s.ev.ctx)
        ((u.report c.queue [taskEntry c s.ev.ctx 3 c.rsTask 0]).launchEnds c.queue c.pkt false).freeCtx s.ev.die s.ev.ctx) := by
  change execCutBackSaveEnd s = _
  unfold execCutBackSaveEnd
  dsimp only
  have ha : (s.ctx s.ev.die s.ev.ctx).act.isNone = false := by
    cases h : (s.ctx s.ev.die s.ev.ctx).act with
    | none => exact absurd h h3
    | some a => rfl
  rw [h1, h2, ha, if_neg (by decide)]

/-- What a held space, a report and the release of a context leave of a die. -/
theorem State.endsSaved_spec (u : State) (d : DieId) (n : CtxId) (h : HeldSpace) (q : QueueId) (es : List (List Word)) (pkt : Nat) :
    let t := (((u.hold d h).report q es).launchEnds q pkt false).freeCtx d n
    (t.ctx d n).st = .free ∧ (t.ctx d n).hasWin = false ∧ h ∈ (t.die d).heldSpaces
    ∧ (∀ e m, e ≠ d ∨ m ≠ n → t.ctx e m = u.ctx e m)
    ∧ ∀ y, y < Config.foldBase → (t.die d).bankByte y = (u.die d).bankByte y := by
  intro t
  have hr : (u.hold d h).Reports (((u.hold d h).report q es).launchEnds q pkt false) :=
    (State.Reports.report _ _ _).trans (.launchEnds _ _ _ _)
  have hs := State.freeCtx_spec (((u.hold d h).report q es).launchEnds q pkt false) d n
  obtain ⟨ws, hd⟩ := hr.dies d
  have hh : (u.hold d h).die d = { u.die d with heldSpaces := (u.die d).heldSpaces ++ [h] } := State.die_modDie u d _
  rw [hh] at hd
  have ht : t = (((u.hold d h).report q es).launchEnds q pkt false).freeCtx d n := rfl
  obtain ⟨⟨h1, -, h2, -⟩, -, -, -, h3, -⟩ := hs
  have hf : t.die d = _ := State.die_modDie _ d _
  rw [hd] at hf
  refine ⟨h1, h2, ?_, fun e m hem => ?_, fun y hy => ?_⟩
  · rw [hf]
    exact List.mem_append_right _ (List.mem_singleton_self h)
  · rw [ht, h3 e m hem, hr.ctx]
    exact State.ctx_modDie_same u d e (fun x => { x with heldSpaces := x.heldSpaces ++ [h] }) m fun _ => rfl
  · have hc := bankBytes_foldBase
    have hm : y % Config.bankBytes < Config.foldBase := by rw [Nat.mod_eq_of_lt (by omega)]; exact hy
    rw [Die.bankByte_low _ _ hm, Die.bankByte_low _ _ hm, hf]
    rfl

/-- The save of a cut-back context completes (R186). -/
theorem State.cutBackSaveEnd_spec (h1 : (s.ctx s.ev.die s.ev.ctx).st = .ending) (h2 : (s.ctx s.ev.die s.ev.ctx).ending = .cutBack)
    (h3 : (s.ctx s.ev.die s.ev.ctx).act ≠ none) (h4 : s.saveMoves s.ev.die s.ev.ctx = false) :
    let c := s.ctx s.ev.die s.ev.ctx
    ∃ t, exec .cutBackSaveEnd s = .next t
      ∧ (t.ctx s.ev.die s.ev.ctx).st = .free ∧ (t.ctx s.ev.die s.ev.ctx).hasWin = false
      ∧ (∃ k ∈ (t.die s.ev.die).heldSpaces, k.rs = c.rsTask ∧ k.win = c.win ∧ k.queue = c.queue ∧ k.tileN = c.tileN)
      ∧ (∀ e m, e ≠ s.ev.die ∨ m ≠ s.ev.ctx → t.ctx e m = s.ctx e m)
      ∧ (homePanel c.rsTask = false → homeAddr c.rsTask + 0xAD00 ≤ Config.foldBase → (s.die s.ev.die).wf = true →
        (∀ k, k < 8 → (t.die s.ev.die).bankByte (homeAddr c.rsTask + k) = (c.idemPc &&& ~~~3).extractLsb' (8 * k) 8)
        ∧ ((t.die s.ev.die).bankByte (homeAddr c.rsTask + 0x28)).extractLsb' 0 4 = 3) := by
  intro c
  have hx := State.exec_cutBackSaveEnd h1 h2 h3
  rw [h4, if_neg Bool.false_ne_true] at hx
  obtain ⟨k1, -, k3⟩ := (s.modCtx s.ev.die s.ev.ctx Ctx.restored).saveSpace_spec s.ev.die s.ev.ctx c.rsTask (c.idemPc &&& ~~~3) 3
  obtain ⟨e1, e2, e3, e4, e5⟩ := ((s.modCtx s.ev.die s.ev.ctx Ctx.restored).saveSpace s.ev.die s.ev.ctx false c.rsTask
    (c.idemPc &&& ~~~3) 3).endsSaved_spec s.ev.die s.ev.ctx (heldOf c s.ev.ctx) c.queue [taskEntry c s.ev.ctx 3 c.rsTask 0] c.pkt
  have hd : (s.modCtx s.ev.die s.ev.ctx Ctx.restored).die s.ev.die = (s.die s.ev.die).modCtx s.ev.ctx Ctx.restored :=
    State.die_modDie s _ _
  refine ⟨_, hx, e1, e2, ⟨_, e3, rfl, rfl, rfl, rfl⟩, fun e m hem => ?_, fun hp hf hw => ?_⟩
  · rw [e4 e m hem, k1 e m hem, State.ctx_modCtx_other _ _ hem]
  · obtain ⟨b1, b2⟩ := k3 hp hf (by rw [hd]; exact hw)
    refine ⟨fun k hk => (e5 _ (by omega)).trans (b1 k hk), ?_⟩
    rw [e5 _ (by omega), b2]
    rfl

end

end Sys2Proof.Machine
end

