-- ==== Sys2Proof/Proofs/Launches.lean ====
section
/-! PROOFS. The start of a fresh task on its die, its spaces in banks (R10 to R13, R29, R341 to R343). -/

namespace Sys2Proof.Machine

section
variable {s t : State} {d : DieId} {n : CtxId} {p : PendLaunch} {w : Window} {x : Die}

/-! ### What a start makes of a die -/

/-- A die that has taken a launch off its list and into a context. -/
def Die.takes (x : Die) (n : CtxId) (p : PendLaunch) (cycle : Nat) : Die :=
  { x.setCtx n ((x.ctx n).begin x p cycle) with
    mem := x.mem.setJob n (BitVec.ofNat 8 (bits (p.word 3) 48 8)), pendLaunch := x.pendLaunch.erase p
    launchFaults := x.launchFaults.filter fun e => e.queue != p.queue }

theorem State.dropPend_setDie (s : State) (d : DieId) (p : PendLaunch) (x : Die) : (s.setDie d x).dropPend d p
    = s.setDie d { x with pendLaunch := x.pendLaunch.erase p
                          launchFaults := x.launchFaults.filter fun e => e.queue != p.queue } := by
  unfold State.dropPend State.modDie
  rw [State.die_setDie, State.setDie_setDie]

theorem State.launchInto_bank (hh : homePanel p.hs = false) (hb : (s.die d).bankBad = []) (h : s.spaceState d n p.hs < 2) :
    s.launchInto d n p = (s.setDie d ((((s.die d).takes n p s.cycle).putState p.hs 1).modCtx n fun c => c.freshHandler p.hs), 0) := by
  unfold State.launchInto
  dsimp only
  rw [State.modDie, State.dropPend_setDie]
  change (s.setDie d ((s.die d).takes n p s.cycle)).activateHandler d n p.hs = _
  have hd : (s.setDie d ((s.die d).takes n p s.cycle)).die d = (s.die d).takes n p s.cycle := State.die_setDie s d _
  have hr (off k : Nat) : (s.setDie d ((s.die d).takes n p s.cycle)).homeRead d n p.hs off k = s.homeRead d n p.hs off k := by
    refine State.homeRead_congr hh ?_ ?_ ?_ off k
    all_goals
      rw [hd]
      rfl
  have hb' : ((s.setDie d ((s.die d).takes n p s.cycle)).die d).bankBad = [] := by
    rw [hd]
    exact hb
  rw [State.activateHandler_fresh (State.homeReadLines_sound hh hb' _ _) (by rw [State.spaceState_congr hr]; exact h) (.inr hb'),
    State.setSpaceState_bank hh, State.modCtx, State.modDie, State.modDie, State.die_setDie, State.setDie_setDie,
    State.die_setDie, State.setDie_setDie]

/-- A fresh task's start in a die whose spaces stand in banks. -/
def Die.launched (x : Die) (d : DieId) (n : CtxId) (p : PendLaunch) (w : Window) (cycle : Nat) : Die :=
  let y := ((((x.takes n p cycle).putState p.hs 1).modCtx n fun c => c.freshHandler p.hs).prepare w []).putState p.rs 1
  (y.putBlock (homeAddr p.rs + 0x48) (bytesOfWord (windowRecord w y d false))).modCtx n fun c =>
    { c with hasWin := true, win := w, earliest := cycle + 1 + (2 ^ w.log2g / 1024 + 0) }

theorem State.launchFresh_bank (hr : homePanel p.rs = false) (hh : homePanel p.hs = false) (hb : (s.die d).bankBad = [])
    (h : s.spaceState d n p.hs < 2) :
    s.launchFresh d n p w true [] = s.setDie d ((s.die d).launched d n p w s.cycle) := by
  unfold State.launchFresh
  dsimp only
  rw [State.launchInto_bank hh hb h]
  dsimp only
  rw [if_neg (by simp)]
  simp only [if_true, List.isEmpty_nil]
  rw [State.setSpaceState_bank hr, State.homeWrite_bank hr]
  simp only [State.modCtx, State.modDie, State.die_setDie, State.setDie_setDie]
  rfl

/-! ### The context and the bytes -/

theorem Die.Stores.prepare (x : Die) (w : Window) : x.Stores (x.prepare w []) :=
  ⟨⟨_, x.folds, _, x.stat, x.lateStates, rfl⟩, Die.wf_prepare w []⟩

theorem Die.ctx_takes (x : Die) (n : CtxId) (p : PendLaunch) (cycle : Nat) :
    (x.takes n p cycle).ctx n = (x.ctx n).begin x p cycle ∧ ∀ m, m ≠ n → (x.takes n p cycle).ctx m = x.ctx m :=
  ⟨vset_same _ _ _, fun _ hm => vset_other _ _ hm.symm⟩

/-- A launched die's context and list, and its banks before and after its window record. -/
theorem Die.launched_eq (x : Die) (d : DieId) (n : CtxId) (p : PendLaunch) (w : Window) (cycle : Nat) :
    ∃ y rec, x.launched d n p w cycle = (y.putBlock (homeAddr p.rs + 0x48) (bytesOfWord rec)).modCtx n (fun c =>
        { c with hasWin := true, win := w, earliest := cycle + 1 + (2 ^ w.log2g / 1024 + 0) })
      ∧ y = ((((x.takes n p cycle).putState p.hs 1).modCtx n fun c => c.freshHandler p.hs).prepare w []).putState p.rs 1
      ∧ (((x.takes n p cycle).putState p.hs 1).modCtx n fun c => c.freshHandler p.hs).Stores y :=
  ⟨_, _, rfl, rfl, (Die.Stores.prepare _ w).trans (.putState _ _ _)⟩

/-- What a start leaves of its die but for the banks. -/
theorem Die.launched_parts (x : Die) (d : DieId) (n : CtxId) (p : PendLaunch) (w : Window) (cycle : Nat) :
    (x.launched d n p w cycle).ctx n = { ((x.ctx n).begin x p cycle).freshHandler p.hs with
      hasWin := true, win := w, earliest := cycle + 1 + (2 ^ w.log2g / 1024 + 0) }
    ∧ (∀ m, m ≠ n → (x.launched d n p w cycle).ctx m = x.ctx m)
    ∧ (x.launched d n p w cycle).pendLaunch = x.pendLaunch.erase p := by
  obtain ⟨y, rec, hx, -, hs⟩ := x.launched_eq d n p w cycle
  have hz := hs.trans (.putBlock y (homeAddr p.rs + 0x48) (bytesOfWord rec))
  have h1 := Die.Stores.putState (x.takes n p cycle) p.hs 1
  rw [hx]
  refine ⟨?_, fun m hm => ?_, ?_⟩
  · rw [Die.ctx_modCtx, hz.ctx, Die.ctx_modCtx, h1.ctx, (x.ctx_takes n p cycle).1]
  · rw [Die.ctx_modCtx_other _ _ hm.symm, hz.ctx, Die.ctx_modCtx_other _ _ hm.symm, h1.ctx, (x.ctx_takes n p cycle).2 m hm]
  · exact hz.pendLaunch.trans h1.pendLaunch

/-- A byte of a window that has been zeroed. -/
theorem Die.bankByte_prepare {x : Die} (hx : x.wf = true) {a : Nat} (h1 : w.base ≤ a) (h2 : a < w.base + 2 ^ w.log2g)
    (ha : a < Config.foldBase) : (x.prepare w []).bankByte a = 0 := by
  have hc := bankBytes_foldBase
  have hm : a % Config.bankBytes = a := Nat.mod_eq_of_lt (by omega)
  rw [Die.bankByte_low _ _ (hm.symm ▸ ha), hm]
  refine (Sparse.read_filter (fun a => !(decide (w.base ≤ a) && decide (a < w.base + 2 ^ w.log2g))) a ((Die.wf_iff x).mp hx).1).trans ?_
  rw [if_neg (by simp [h1, h2])]
  rfl

/-- The banks of a die that has started a task: its window is zero but for its task space's words, whose state is active. -/
theorem Die.bankByte_launched (hx : x.wf = true) {rsAt : Nat} (hr : homeAddr p.rs % Config.bankBytes = rsAt) (cycle : Nat) :
    (∀ a, w.base ≤ a → a < w.base + 2 ^ w.log2g → a < Config.foldBase → a < rsAt + 0x28 ∨ rsAt + 0x30 ≤ a →
      a < rsAt + 0x48 ∨ rsAt + 0x50 ≤ a → (x.launched d n p w cycle).bankByte a = 0)
    ∧ (rsAt + 0x30 ≤ Config.foldBase → ((x.launched d n p w cycle).bankByte (rsAt + 0x28)).extractLsb' 0 4 = 1) := by
  have hc := bankBytes_foldBase
  obtain ⟨y, rec, hl, hy, hs⟩ := x.launched_eq d n p w cycle
  have hd : rsAt % 1024 = 0 := by
    rw [← hr, Nat.mod_mod_of_dvd _ (by decide), homeAddr]
    exact Nat.mul_mod_left _ _
  have hlt : rsAt < Config.bankBytes := hr ▸ Nat.mod_lt _ (by decide)
  generalize hz : (((x.takes n p cycle).putState p.hs 1).modCtx n fun c => c.freshHandler p.hs) = z at hy hs
  have hzw : z.wf = true := by
    rw [← hz]
    exact (Die.Stores.putState (x.takes n p cycle) p.hs 1).wf hx
  have hpw := Die.wf_prepare w [] hzw
  have hb (a : Nat) (ha : a < Config.foldBase) : (x.launched d n p w cycle).bankByte a
      = if rsAt + 0x48 ≤ a ∧ a < rsAt + 0x48 + 8 then (bytesOfWord rec).getD (a - (rsAt + 0x48)) 0 else y.bankByte a := by
    rw [hl]
    have h := Die.bankByte_putBlock (x := y) (hs.wf hzw) (a := homeAddr p.rs + 0x48) (b := rsAt + 0x48) (l := bytesOfWord rec) (y := a)
      (by rw [Nat.add_mod, hr, Nat.mod_eq_of_lt (a := 0x48) (by omega), Nat.mod_eq_of_lt (by omega)])
      (by rw [length_bytesOfWord]; omega) (by omega) (.inl ha)
    rw [length_bytesOfWord] at h
    exact h
  refine ⟨fun a h1 h2 ha h3 h4 => ?_, fun hf => ?_⟩
  · rw [hb a ha, if_neg (by omega), hy, Die.bankByte_putState_other hpw hr ha h3, Die.bankByte_prepare hzw h1 h2 ha]
  · rw [hb _ (by omega), if_neg (by omega), hy, Die.bankByte_putState_low hpw (by decide) hr hf]
    rfl

/-! ### The start -/

theorem State.spaceReady_fresh {base : Word} (hp : homePanel base = false) (h : s.spaceState d n base < 2) (who : Requester) :
    s.spaceReady d n true base who = (s, true) := by
  have hs : s.handlerSaved d n base = false := by
    unfold State.handlerSaved
    rw [Bool.or_eq_false_iff, beq_eq_false_iff_ne, beq_eq_false_iff_ne]
    omega
  unfold State.spaceReady
  simp only [linePages_bank hp, State.homeReady, hs, Bool.not_false, Bool.and_self, if_true]

theorem State.launchTry_bank (hf : ∀ f ∈ (s.die d).launchFaults, f.queue ≠ p.queue ∨ f.ctx ≠ n) (hr : homePanel p.rs = false)
    (hh : homePanel p.hs = false) (hb : (s.die d).bankBad = []) (h0 : s.spaceState d n p.rs = 0) (h1 : s.spaceState d n p.hs < 2) :
    s.launchTry d n p = s.launchWindow d n p := by
  have hn : ((s.die d).launchFaults.find? fun f => f.queue == p.queue && f.ctx == n) = none := by
    rw [List.find?_eq_none]
    intro f hm
    have := hf f hm
    simp only [Bool.and_eq_true, beq_iff_eq]
    tauto
  unfold State.launchTry
  rw [hn]
  dsimp only
  rw [linePages_bank hr]
  simp only [State.homeReady, if_true]
  unfold State.launchReady
  simp only [h0, State.homeRead_sound hr hb, State.spaceReady_fresh hh h1, linePages_bank hr, State.homeReady, if_false,
    Bool.false_eq_true, OfNat.zero_ne_ofNat, decide_false, Bool.or_self, Bool.false_and, Bool.not_false, ne_eq, not_true,
    Bool.and_false]

/-- The spaces of a launch in banks, which its window may not touch. -/
def PendLaunch.own (p : PendLaunch) : List (Nat × Nat) :=
  [(homeAddr p.rs % Config.bankBytes, 0xAD00), (homeAddr p.hs % Config.bankBytes, 0x8C00)]

/-- The window that a launch is granted. -/
def Die.granted (x : Die) (p : PendLaunch) : Option (Window × Bool) :=
  x.grant ((p.word 3).toNat % 2 ^ 32) ((p.word 3).extractLsb' 32 8).toNat (Fin.ofNat 16 ((p.word 3).extractLsb' 44 4).toNat)
    ((p.word 3).extractLsb' 48 8) p.own

theorem State.launchWindow_bank (hr : homePanel p.rs = false) (hh : homePanel p.hs = false) :
    (∀ w, (s.die d).granted p = some (w, true) → (p.word 6).extractLsb' 32 32 = 0 →
      s.launchWindow d n p = s.launchFresh d n p w true [])
    ∧ ((s.die d).granted p = none → s.launchWindow d n p = s.launchFails d p 2) := by
  have hg : (s.die d).grant (bits (p.word 3) 0 32) (bits (p.word 3) 32 8) (Fin.ofNat 16 (bits (p.word 3) 44 4))
      (BitVec.ofNat 8 (bits (p.word 3) 48 8)) ([(homeAddr p.rs % Config.bankBytes, spaceSize false)]
        ++ [(homeAddr p.hs % Config.bankBytes, spaceSize true)]) = (s.die d).granted p := by
    rw [ofNat_bits, bits_eq _ 32, bits_eq _ 44]
    unfold Die.granted PendLaunch.own
    rw [show bits (p.word 3) 0 32 = (p.word 3).toNat % 2 ^ 32 by rw [bits, Nat.pow_zero, Nat.div_one]]
    rfl
  unfold State.launchWindow
  dsimp only
  rw [hr, hh, if_neg Bool.false_ne_true, if_neg Bool.false_ne_true, hg]
  refine ⟨fun w h h0 => ?_, fun h => ?_⟩
  · rw [h]
    dsimp only
    rw [if_pos]
    simp [bits_eq, h0]
  · rw [h]

/-- The oldest launch of a queue on a die that may start it in its lowest free context. -/
structure State.MayStart (s : State) (p : PendLaunch) (n : CtxId) : Prop where
  find : ((s.die s.ev.die).pendLaunch.find? fun p => p.queue == s.ev.que) = some p
  nodup : (s.die s.ev.die).pendLaunch.Nodup
  free : (s.die s.ev.die).freeCtxOf = some n
  ready : p.ready ≤ s.cycle
  home : ((s.die s.ev.die).ctx n).homeAfter ≤ s.cycle
  term : ((s.die s.ev.die).termSeen[s.ev.que]).toNat ≤ p.term.toNat
  elect : (s.queue s.ev.que).elect = false

/-- A die that keeps the term of a launch that it has taken. -/
def Die.marks (x : Die) (q : QueueId) (p : PendLaunch) (elect : Bool) : Die :=
  { x with termSeen := vset x.termSeen q p.term, seen := if elect then addNew x.seen (q, p.serial) else x.seen }

theorem State.exec_taskLaunchStart (h : s.MayStart p n) (ht : ((s.launchTry s.ev.die n p).die s.ev.die).pendLaunch
      = (s.die s.ev.die).pendLaunch.erase p) :
    ∃ b, exec .taskLaunchStart s = .next ((s.launchTry s.ev.die n p).modDie s.ev.die fun x => x.marks s.ev.que p b) := by
  refine ⟨((s.launchTry s.ev.die n p).queue s.ev.que).elect, ?_⟩
  change execTaskLaunchStart s = _
  unfold execTaskLaunchStart
  dsimp only
  have hr := h.ready
  have hh := h.home
  have htm := h.term
  rw [h.find, h.free]
  dsimp only
  rw [if_neg (by simp only [Bool.or_eq_true, decide_eq_true_eq]; omega), h.elect, Bool.false_and, Bool.or_false,
    if_neg (by simp only [decide_eq_true_eq]; omega), if_neg]
  · rfl
  · rw [ht, List.contains_eq_mem, decide_eq_true_eq]
    exact fun hm => (List.Nodup.mem_erase_iff h.nodup).mp hm |>.1 rfl

/-- A task that its die has started. -/
theorem State.startsTask (h : s.MayStart p n) (hl : s.launchTry s.ev.die n p = s.setDie s.ev.die
      ((s.die s.ev.die).launched s.ev.die n p w s.cycle)) :
    ∃ t, exec .taskLaunchStart s = .next t
      ∧ t.ctx s.ev.die n = { (((s.die s.ev.die).ctx n).begin (s.die s.ev.die) p s.cycle).freshHandler p.hs with
        hasWin := true, win := w, earliest := s.cycle + 1 + (2 ^ w.log2g / 1024 + 0) }
      ∧ (t.die s.ev.die).pendLaunch = (s.die s.ev.die).pendLaunch.erase p ∧ (t.die s.ev.die).termSeen[s.ev.que] = p.term
      ∧ (∀ a, (t.die s.ev.die).bankByte a = ((s.die s.ev.die).launched s.ev.die n p w s.cycle).bankByte a)
      ∧ (∀ e m, e ≠ s.ev.die ∨ m ≠ n → t.ctx e m = s.ctx e m) ∧ t.mem = s.mem := by
  obtain ⟨h1, h2, h3⟩ := (s.die s.ev.die).launched_parts s.ev.die n p w s.cycle
  have hd : (s.launchTry s.ev.die n p).die s.ev.die = (s.die s.ev.die).launched s.ev.die n p w s.cycle := by
    rw [hl, State.die_setDie]
  obtain ⟨b, hx⟩ := State.exec_taskLaunchStart h (by rw [hd, h3])
  have ht := ((State.TurnsDie.setDie s s.ev.die ((s.die s.ev.die).launched s.ev.die n p w s.cycle)).modDie
    fun x => x.marks s.ev.que p b)
  rw [hl] at hx
  generalize (s.die s.ev.die).launched s.ev.die n p w s.cycle = y at h1 h2 h3 hx ht ⊢
  refine ⟨_, hx, ?_, ?_, ?_, fun a => ?_, fun e m hem => ?_, ht.mem⟩
  · exact (congrArg (fun x : Die => x.ctx n) ht.die).trans h1
  · exact (congrArg Die.pendLaunch ht.die).trans h3
  · rw [ht.die]
    exact vset_same _ _ _
  · rw [ht.die]
    rfl
  · by_cases he : e = s.ev.die
    · subst he
      exact (congrArg (fun x : Die => x.ctx m) ht.die).trans (h2 m (hem.resolve_left fun h => h rfl))
    · exact congrArg (fun x : Die => x.ctx m) (ht.die_other he)

/-- A launch that its die has no room for (R343). -/
theorem State.startsNothing (h : s.MayStart p n) (hl : s.launchTry s.ev.die n p = s.launchFails s.ev.die p 2) :
    ∃ t, exec .taskLaunchStart s = .next t ∧ (t.die s.ev.die).pendLaunch = (s.die s.ev.die).pendLaunch.erase p
      ∧ (∀ e m, t.ctx e m = s.ctx e m) ∧ ∀ (e : DieId) (a : Nat), (t.die e).bankByte a = (s.die e).bankByte a := by
  have hr : (s.dropPend s.ev.die p).Reports (s.launchFails s.ev.die p 2) :=
    (State.Reports.report _ _ _).trans (.launchEnds _ _ _ _)
  have hp : (s.dropPend s.ev.die p).die s.ev.die = _ := State.die_modDie s _ _
  have hv : ((s.launchFails s.ev.die p 2).die s.ev.die).pendLaunch = (s.die s.ev.die).pendLaunch.erase p := by
    obtain ⟨ws, hd⟩ := hr.dies s.ev.die
    rw [hd, hp]
  obtain ⟨b, hx⟩ := State.exec_taskLaunchStart h (by rw [hl, hv])
  rw [hl] at hx
  refine ⟨_, hx, ?_, fun e m => ?_, fun e a => ?_⟩
  · rw [State.die_modDie]
    exact hv
  · rw [State.ctx_modDie_same _ _ _ (fun x => x.marks s.ev.que p b) _ fun _ => rfl, hr.ctx]
    exact State.ctx_modDie_same s _ _ (fun x => { x with pendLaunch := x.pendLaunch.erase p
                                                         launchFaults := x.launchFaults.filter fun e => e.queue != p.queue }) _ fun _ => rfl
  · rw [(State.sameBytes_modDie _ s.ev.die (fun x => x.marks s.ev.que p b) rfl rfl).2]
    obtain ⟨ws, hd⟩ := hr.dies e
    rw [hd]
    exact (State.sameBytes_modDie s s.ev.die (fun x => { x with pendLaunch := x.pendLaunch.erase p
                                                                launchFaults := x.launchFaults.filter fun e => e.queue != p.queue }) rfl rfl).2 e a

end

end Sys2Proof.Machine
end

