-- ==== Sys2Proof/Proofs/TaskSpaces.lean ====
section
/-! PROOFS. The obligation about task spaces: launches, activations, and the forced cut-back (R10 to R13, R173 to R186). -/

namespace Sys2Proof.Machine

section
variable {s t : State} {d : DieId} {n : CtxId} {p : PendLaunch} {w : Window} {x : Die}

theorem homePanel_eq (base : Word) : homePanel base = base.getLsbD 0 := bitAt_eq base 0

theorem Die.bankByte_dropHeld (x : Die) (base : Word) (y : Nat) : (x.dropHeld base).bankByte y = x.bankByte y := rfl

/-- A context as a fresh task begins in it. -/
theorem Ctx.begin_spec (c : Ctx) (x : Die) (p : PendLaunch) (w : Window) (cycle : Nat) :
    let k : Ctx := { (c.begin x p cycle).freshHandler p.hs with
      hasWin := true, win := w, earliest := cycle + 1 + (2 ^ w.log2g / 1024 + 0) }
    k.st = .ready ∧ k.priv = false ∧ k.task.pc = p.word 1 &&& ~~~3
    ∧ (∀ r : Fin 16, k.task.s[r] = if r.val < 8 then p.word (8 + r.val) else 0)
    ∧ (∀ r : Fin 16, k.task.v[r] = 0) ∧ k.task.q = [] ∧ k.task.depth = 1 ∧ k.task.masks[0] = BitVec.allOnes 256
    ∧ k.task.flg = 0 ∧ k.task.fmt = 0 ∧ (∀ m : TokId, k.tok[m] = .free) ∧ k.tileN = BitVec.ofNat 20 p.n
    ∧ (let width := max 1 ((p.word 2).extractLsb' 32 13).toNat
       k.tileX = BitVec.ofNat 12 (p.n % width) ∧ k.tileY = BitVec.ofNat 16 (p.n / width))
    ∧ k.vdie = (p.word 2).extractLsb' 0 8 + BitVec.ofNat 8 p.n ∧ k.queue = p.queue ∧ k.serial = p.serial
    ∧ k.job = (p.word 3).extractLsb' 48 8 ∧ k.trapVec = p.word 7 ∧ k.rsTask = p.rs ∧ k.idemPc = p.word 1 &&& ~~~3
    ∧ k.hasWin = true ∧ k.win = w ∧ k.vtab = x.vtab ∧ k.earliest = cycle + 1 + 2 ^ w.log2g / 1024 := by
  intro k
  have hv : p.vdie = (p.word 2).extractLsb' 0 8 + BitVec.ofNat 8 p.n := by
    unfold PendLaunch.vdie
    rw [BitVec.ofNat_add, ofNat_bits]
  have hs (r : Fin 16) : (launchFile (p.word 1) (p.words.drop 8)).s[r] = if r.val < 8 then p.word (8 + r.val) else 0 := by
    refine (Vector.getElem_ofFn _).trans ?_
    unfold PendLaunch.word
    simp [List.getD_eq_getElem?_getD]
  have hb := bits_eq (p.word 2) 32 13
  refine ⟨rfl, rfl, rfl, hs, fun r => ?_, rfl, rfl, ?_, rfl, rfl, fun m => ?_, rfl, ⟨?_, ?_⟩, hv, rfl, rfl, ofNat_bits _ _ _, rfl,
    rfl, rfl, rfl, rfl, rfl, rfl⟩
  · exact Vector.getElem_replicate _
  · rfl
  · exact Vector.getElem_replicate _
  · rw [← hb]
    rfl
  · rw [← hb]
    rfl

end

/-- Settles O54: each step of a register space is a change of its die's banks, or of panel memory, and of one context; a
launch, an activation, a release, a cut-back and its save are read off that change. -/
theorem taskSpaces : Obligations.TaskSpaces := by
  unfold Obligations.TaskSpaces
  refine ⟨?_, ?_, ?_, ?_⟩
  · intro s p n d x data slots rsAt own granted hfind hnd hfree hready hhome hfault hterm helect hrs hhs hbad h0 h1
    have hm : s.MayStart p n := ⟨hfind, hnd, hfree, hready, hhome, hterm, helect⟩
    have hr : homePanel p.rs = false := (homePanel_eq _).trans hrs
    have hh : homePanel p.hs = false := (homePanel_eq _).trans hhs
    have hl := State.launchTry_bank hfault hr hh hbad h0 h1
    obtain ⟨hnew, hnone⟩ := State.launchWindow_bank (s := s) (d := d) (n := n) hr hh
    have hg : granted = x.granted p := rfl
    refine ⟨fun w hw hi => ?_, fun hn => ?_⟩
    · have hs := (hl.trans (hnew w (hg ▸ hw) hi)).trans (State.launchFresh_bank hr hh hbad h1)
      obtain ⟨t, ht, hc, hp, hterm', hbytes, ho, hmem⟩ := State.startsTask hm hs
      refine ⟨t, ht, ?_, hp, hterm', fun hwf a b1 b2 b3 b4 b5 => ?_, fun hwf hf => ?_, ho, hmem⟩
      · rw [hc]
        exact Ctx.begin_spec _ _ _ _ _
      · exact (hbytes a).trans ((Die.bankByte_launched hwf rfl s.cycle).1 a b1 b2 b3 b4 b5)
      · rw [hbytes]
        exact (Die.bankByte_launched hwf rfl s.cycle).2 hf
    · exact State.startsNothing hm (hl.trans (hnone (hg ▸ hn)))
  · intro s a h im d n x c d8 saved holds hact hdue hbad
    have hsv (k : saved) : s.Saved d n a.base h im := ⟨k.1, k.2.1, k.2.2.1, k.2.2.2⟩
    have hld {t : State} (k : s.Activates t d n a.base h im) : holds t := ⟨k.task, k.win, k.hasWin, k.taskEmpty, k.rsTask, k.act,
      k.waits, k.st, k.idemPc, k.x, k.tok, k.heldSpaces, k.others, k.dies⟩
    have hx := State.exec_spillRefillComplete hact hdue
    refine ⟨fun _ hw hs hb he => ?_, fun _ hw hs hb he => ?_, fun hm => ⟨_, hx, ?_⟩, fun hm hh hw k => ⟨_, hx, ?_⟩,
      fun hm hh he h0 h1 => ⟨_, hx, ?_⟩⟩
    · obtain ⟨h1, h2, -⟩ := State.ctxswComplete_spec (h := h) (im := im) hact hdue hw hs he hbad
      have hp : homePanel a.base = false := (homePanel_eq _).trans hb
      refine ⟨fun k => ?_, h2 hp⟩
      obtain ⟨t, ht, hk, hr⟩ := h1 hp (hsv k)
      exact ⟨t, ht, hld hk, hr⟩
    · exact (State.ctxswComplete_spec (h := h) (im := im) hact hdue hw hs he hbad).2.2 ((homePanel_eq _).trans hb)
    · rw [if_pos hm]
      exact ⟨State.ctx_modCtx .., State.sameBytes_modCtx _ _ _ _⟩
    · rw [hm, hh, hw, if_neg Bool.false_ne_true, if_neg Bool.false_ne_true, if_neg Bool.false_ne_true]
      obtain ⟨h1, h2⟩ := (hsv k).resumes hbad
      exact ⟨hld h1, h2⟩
    · rw [hm, hh, if_neg Bool.false_ne_true, if_pos rfl]
      obtain ⟨k1, k2, k3, k4, k5, k6, k7, k8⟩ := State.finishHandler_spec h0 h1 hbad he
      exact ⟨k1, k2, k3, k4, k5, k6, fun hb => k7 ((homePanel_eq _).trans hb), fun hb => k8 ((homePanel_eq _).trans hb)⟩
  · intro s h d x base
    refine ⟨State.exec_winRelWrite_none, fun hh hb hf hw => ?_⟩
    have hx := State.winRelWrite_spec rfl hh ((homePanel_eq _).trans hb)
    have ht := State.TurnsDie.setDie s d ((x.putState base 4).dropHeld base)
    have hs := Die.Stores.putState x base 4
    refine ⟨_, hx, ?_, rfl, fun e m => ?_, fun y hy => ?_⟩
    · rw [ht.die]
      exact congrArg (List.filter fun k : HeldSpace => k.rs != base) hs.held
    · by_cases he : e = d
      · subst he
        exact (congrArg (fun x : Die => x.ctx m) ht.die).trans (hs.ctx m)
      · exact congrArg (fun x : Die => x.ctx m) (ht.die_other he)
    · rw [ht.die]
      exact (Die.bankByte_dropHeld _ _ _).trans (Die.bankByte_putState (st := 4) hw (by decide) hf hy)
  · intro s d n x c v
    refine ⟨⟨_, State.exec_ctxPreWrite_spec, State.sameBytes_modCtx _ _ _ _, State.ctx_modCtx ..⟩, fun hf he hp => ?_,
      fun hf he hp hw => ?_, fun h => ?_, fun h1 h2 h3 h4 => ?_, fun h1 h2 h3 h4 => ?_⟩
    · obtain ⟨t, k0, k1, k2, k3, k4, k5, k6, k7⟩ := State.cutBack_spec hf he hp
      exact ⟨t, k0, k1, k2, k3, k4, k5, k6, k7⟩
    · exact ⟨_, State.exec_cutBack_deferred hf he hp hw, State.sameBytes_modCtx _ _ _ _, State.ctx_modCtx ..⟩
    · exact ⟨_, State.exec_cutBack_done h, State.ctx_modCtx ..⟩
    · rw [State.exec_cutBackSaveEnd h1 h2 h3, if_pos h4]
    · obtain ⟨t, ht, k1, k2, k3, k4, k5⟩ := State.cutBackSaveEnd_spec h1 h2 h3 h4
      exact ⟨t, ht, k1, k2, k3, k4, fun hb => k5 ((homePanel_eq _).trans hb)⟩

end Sys2Proof.Machine
end

