-- ==== Sys2Proof/Proofs/EngineQueues.lean ====
section
/-! PROOFS. Starts, completions and errors of operations of the engines' queues, and the units of a copy (R143 to R147, R250
to R256, R271). -/

namespace Sys2Proof.Machine

section
variable {s t u : State} {d : DieId} {x y : Die} {q : Fin 19} {id : Nat} {o : Op}

/-! ### Quiet steps of a die's engines -/

/-- A step of die `d` that changes no byte, no other die, and nothing but dies and the agenda. -/
def State.QuietOp (s t : State) (d : DieId) : Prop :=
  s.SameBytes t ∧ (∀ e, e ≠ d → t.die e = s.die e) ∧ { t with dies := s.dies, agenda := s.agenda } = s

theorem State.TurnsDie.sameBytes (h : s.TurnsDie t d y) (hb : y.bank = (s.die d).bank) (hf : y.folds = (s.die d).folds) :
    s.SameBytes t := by
  refine ⟨fun a => by rw [h.mem], fun e a => ?_⟩
  by_cases he : e = d
  · subst he
    rw [h.die]
    unfold Die.bankByte
    rw [hb, hf]
  · rw [h.die_other he]

theorem State.ActsOn.quiet (h : s.ActsOn t d y) (hb : y.bank = (s.die d).bank) (hf : y.folds = (s.die d).folds) :
    s.QuietOp t d := ⟨h.toTurnsDie.sameBytes hb hf, fun _ he => h.die_other he, h.rest⟩

theorem State.mem_schedOnce (s : State) (due : Nat) (a : Instr) (e : EvArg) :
    { due := due, act := a, arg := e } ∈ (s.schedOnce due a e).agenda := by
  unfold State.schedOnce
  split
  case isTrue h =>
    obtain ⟨k, hk, hb⟩ := List.any_eq_true.mp h
    simp only [Bool.and_eq_true, beq_iff_eq] at hb
    obtain ⟨⟨rfl, rfl⟩, rfl⟩ := hb
    exact hk
  case isFalse => exact List.mem_append_right _ (List.mem_singleton_self _)

/-! ### The end of an operation -/

/-- An operation of a queue ends with a code: its token, its fold and its record tell, and its consumers see it. -/
structure State.EndsOp (s t : State) (d : DieId) (q : Fin 19) (o : Op) (code : BitVec 8) : Prop where
  op : ∃ p, t.op d q o.id = some p ∧ p.st = .ended ∧ p.err = code
  tokEvts : (t.die d).tokEvts = (s.die d).tokEvts ++ [(o.ctx, o.tp, endToken code)]
  foldEvts : (t.die d).foldEvts = (s.die d).foldEvts ++ (match o.fold with
    | some f => [(f, if code = 0 then .done else .err q.val code)]
    | none => [])
  deps : ∀ (r : Fin 19), ∀ p ∈ (t.die d).queues[r], .ref o.id ∉ p.deps
  quiet : s.QuietOp t d
  record : ((t.ctx d o.ctx).recs o.hnd)[o.tp].extractLsb' 72 8 = BitVec.ofNat 8 (if code = 0 then 4 else 5)

/-- A die as it was but for what the end of an operation does not read. -/
structure Die.Keeps (x y : Die) : Prop where
  bank : y.bank = x.bank
  folds : y.folds = x.folds
  tokEvts : y.tokEvts = x.tokEvts
  foldEvts : y.foldEvts = x.foldEvts

theorem Die.Keeps.refl (x : Die) : x.Keeps x := ⟨rfl, rfl, rfl, rfl⟩

theorem State.ActsOn.endsOp (h : s.ActsOn t d y) (hk : (s.die d).Keeps y) (ho : y.op q id = some o) (hne : o.st ≠ .ended)
    (code : BitVec 8) : s.EndsOp (t.endOp d q id code) d q o code := by
  have he := h.endOp ho hne code
  have hid := Die.op_id ho
  obtain ⟨c, v, r, rs, a, hy, -, -, hr⟩ := y.opEnds_eq q o code
  refine ⟨?_, ?_, ?_, fun r p hp => ?_, he.quiet ?_ ?_, ?_⟩
  · rw [he.op]
    exact Die.opEnds_op (hid.symm ▸ ho) code
  · rw [he.die, hy, ← hk.tokEvts]
  · rw [he.die, hy]
    show (y.endEvents q o code).foldEvts = _
    unfold Die.endEvents
    rw [← hk.foldEvts]
    cases o.fold with
    | none => exact (List.append_nil _).symm
    | some f => simp only [beq_iff_eq]
  · rw [he.die] at hp
    exact Die.opEnds_deps y q o code r hp
  · rw [hy]
    exact hk.bank
  · rw [hy]
    exact hk.folds
  · rw [he.ctx, hr]
    simp only [beq_iff_eq]

/-! ### Errors and completions outside the arrays -/

/-- An operation that the event names in its queue. -/
structure State.Names (s : State) (q : Fin 19) (o : Op) : Prop where
  eng : s.ev.eng = q
  op : s.op s.ev.die q s.ev.id = some o

theorem State.Names.opId (h : s.Names q o) : o.id = s.ev.id := Die.op_id h.op

theorem State.Names.here (h : s.Names q o) : s.op s.ev.die q o.id = some o := h.opId.symm ▸ h.op

theorem State.exec_engineOpError_direct (h : s.Names q o) (hq : q = 0 ∨ q = 17 ∨ q = 18) :
    exec .engineOpError s = .next (s.endOp s.ev.die q o.id s.ev.code) := by
  change execEngineOpError s = _
  unfold execEngineOpError
  dsimp only
  rw [h.eng, h.op]
  dsimp only
  rw [if_pos]
  obtain rfl | rfl | rfl := hq
  all_goals decide

/-- The resume entry of a copy that ends in error (R255). -/
theorem Die.cpResume_opEnds (x : Die) (o : Op) {code : BitVec 8} (hc : code ≠ 0) :
    (code.toNat ∈ [2, 3, 4, 6, 8] → ((x.opEnds 0 o code).cpResume)[o.ctx] = some { op := o.ended code })
    ∧ (code.toNat ∉ [2, 3, 4, 6, 8] → (x.opEnds 0 o code).cpResume = x.cpResume) := by
  obtain ⟨c, v, r, rs, a, hy, hr, -, -⟩ := x.opEnds_eq 0 o code
  rw [if_neg (by simpa using hc)] at hr
  have hk : ((x.opTold 0 o code).keepResume 0 (o.ended code) (o.st != .queued)).cpResume
      = if code.toNat ∈ [2, 3, 4, 6, 8] then vset x.cpResume o.ctx (some { op := o.ended code }) else x.cpResume := by
    unfold Die.keepResume
    rw [if_pos (show (0 : Fin 19) = qCopy from rfl)]
    have hm : resumable 0 (o.ended code).err = decide (code.toNat ∈ [2, 3, 4, 6, 8]) := by
      unfold resumable
      rw [if_neg (by decide), List.contains_eq_mem]
      rfl
    rw [hm]
    by_cases h : code.toNat ∈ [2, 3, 4, 6, 8]
    · rw [if_pos h, decide_eq_true h, if_pos rfl]
      rfl
    · rw [if_neg h, decide_eq_false h, if_neg Bool.false_ne_true]
      rfl
  have he : (x.opEnds 0 o code).cpResume = _ := (congrArg Die.cpResume hy).trans (hr.1.symm.trans hk)
  refine ⟨fun h => ?_, fun h => ?_⟩
  · rw [he, if_pos h]
    exact vset_same _ _ _
  · rw [he, if_neg h]

/-- An error of an operation outside the arrays (R144, R255). -/
theorem State.engineOpError_spec (h : s.Names q o) (hq : q = 0 ∨ q = 17 ∨ q = 18) (hne : o.st ≠ .ended) (hc : s.ev.code ≠ 0) :
    ∃ t, exec .engineOpError s = .next t ∧ s.EndsOp t s.ev.die q o s.ev.code
      ∧ (q = 0 → (s.ev.code.toNat ∈ [2, 3, 4, 6, 8] → ((t.die s.ev.die).cpResume)[o.ctx] = some { op := o.ended s.ev.code })
        ∧ (s.ev.code.toNat ∉ [2, 3, 4, 6, 8] → (t.die s.ev.die).cpResume = (s.die s.ev.die).cpResume)) := by
  refine ⟨_, State.exec_engineOpError_direct h hq, (State.ActsOn.refl s s.ev.die).endsOp (.refl _) h.here hne s.ev.code, ?_⟩
  rintro rfl
  rw [((State.ActsOn.refl s s.ev.die).endOp h.here hne s.ev.code).die]
  exact (s.die s.ev.die).cpResume_opEnds o hc

theorem State.exec_engineOpComplete_direct (h : s.Names q o) (hne : o.st ≠ .ended) (hs : o.stopAt = none) :
    exec .engineOpComplete s = .next (if q = qCopy then (s.finishCopy s.ev.die o).endOp s.ev.die q o.id 0
      else if q = qRemote then (s.finishRemote s.ev.die o).endOp s.ev.die q o.id 0
      else if q = qPanel then s.completePanel s.ev.die o
      else s.completeArray s.ev.die q o) := by
  change execEngineOpComplete s = _
  unfold execEngineOpComplete
  dsimp only
  rw [h.eng, h.op]
  dsimp only
  rw [hs, if_neg (by simpa using hne)]

/-- A die whose copy has completed, before its operation ends (R253, R255). -/
def Die.copied (x : Die) (o : Op) : Die :=
  let y := match copyStamp o with
    | some t => x.stampAll o.tiles 1 t
    | none => x
  if o.minor = 4 then { y with cpResume := vset y.cpResume o.ctx none } else y

theorem Die.copied_eq (x : Die) (o : Op) : ∃ r, x.copied o = { x with
      stamps := x.stamps ++ (match copyStamp o with
        | some g => o.tiles.eraseDups.map fun y => (1, y, g)
        | none => [])
      cpResume := r }
    ∧ (o.minor = 4 → r[o.ctx] = none) := by
  unfold Die.copied
  dsimp only
  cases copyStamp o with
  | none =>
    rw [List.append_nil]
    split
    · exact ⟨_, rfl, fun _ => vset_same _ _ _⟩
    · next h => exact ⟨_, rfl, fun h' => absurd h' h⟩
  | some g =>
    dsimp only
    rw [Die.stampAll_eq]
    split
    · exact ⟨_, rfl, fun _ => vset_same _ _ _⟩
    · next h => exact ⟨_, rfl, fun h' => absurd h' h⟩

theorem State.ActsOn.finishCopy (h : s.ActsOn t d y) (o : Op) : s.ActsOn (t.finishCopy d o) d (y.copied o) := by
  have hs := h.modDie fun x => match copyStamp o with
    | some t => x.stampAll o.tiles 1 t
    | none => x
  unfold State.finishCopy Die.copied
  by_cases h4 : o.minor = 4
  · simp only [if_pos h4]
    exact hs.modDie fun x => { x with cpResume := vset x.cpResume o.ctx none }
  · simp only [if_neg h4]
    exact hs

/-- What completes a remote operation leaves of its die (R316, R317). -/
theorem State.ActsOn.finishRemote (h : s.ActsOn t d y) (o : Op) :
    ∃ st r, s.ActsOn (t.finishRemote d o) d { y with stamps := st, rcpResume := r } := by
  unfold State.finishRemote
  dsimp only
  cases rcpStamp o with
  | none =>
    split
    · exact ⟨y.stamps, _, h.modDie _⟩
    · exact ⟨y.stamps, y.rcpResume, h⟩
  | some g =>
    have hs := h.modDie fun x => x.stampAll o.tiles 2 g
    rw [Die.stampAll_eq] at hs
    split
    · exact ⟨_, _, hs.modDie _⟩
    · exact ⟨_, y.rcpResume, hs⟩

/-- The completion of a copy or of a remote operation (R144, R253, R255). -/
theorem State.engineOpComplete_spec (h : s.Names q o) (hq : q = 0 ∨ q = 17) (hne : o.st ≠ .ended) (hs : o.stopAt = none) :
    ∃ t, exec .engineOpComplete s = .next t ∧ s.EndsOp t s.ev.die q o 0
      ∧ (q = 0 → (t.die s.ev.die).stamps = (s.die s.ev.die).stamps ++ match copyStamp o with
          | some g => o.tiles.eraseDups.map fun y => (1, y, g)
          | none => [])
      ∧ (q = 0 → o.minor = 4 → ((t.die s.ev.die).cpResume)[o.ctx] = none) := by
  have hx := State.exec_engineOpComplete_direct h hne hs
  obtain rfl | rfl := hq
  · rw [if_pos (show (0 : Fin 19) = qCopy from rfl)] at hx
    obtain ⟨r, hc, hr⟩ := (s.die s.ev.die).copied_eq o
    have ha := (State.ActsOn.refl s s.ev.die).finishCopy o
    rw [hc] at ha
    have he := ha.endOp h.here hne 0
    obtain ⟨c, v, r', rs, a, hy, hz, -, -⟩ := Die.opEnds_eq (x := { s.die s.ev.die with stamps := _, cpResume := r }) 0 o 0
    refine ⟨_, hx, ha.endsOp ⟨rfl, rfl, rfl, rfl⟩ h.here hne 0, fun _ => ?_, fun _ h4 => ?_⟩
    · rw [he.die, hy]
    · rw [he.die, hy, hz.1]
      exact hr h4
  · rw [if_neg (by decide), if_pos (show (17 : Fin 19) = qRemote from rfl)] at hx
    obtain ⟨st, r, ha⟩ := (State.ActsOn.refl s s.ev.die).finishRemote o
    exact ⟨_, hx, ha.endsOp ⟨rfl, rfl, rfl, rfl⟩ h.here hne 0, fun h0 => absurd h0 (by decide), fun h0 => absurd h0 (by decide)⟩

/-! ### Starts -/

theorem State.exec_engineOpStart_queued (h : s.Names q o) (hst : o.st = .queued) :
    exec .engineOpStart s = .next (if o.depError then s.opFails s.ev.die q o.id 1
      else if q = qCopy then s.startCopy s.ev.die o
      else if q = qRemote then s.startRemote s.ev.die o
      else if q = qPanel then s.startPanel s.ev.die o
      else s.startArray s.ev.die q o) := by
  change execEngineOpStart s = _
  unfold execEngineOpStart
  dsimp only
  rw [h.eng, h.op]
  dsimp only
  rw [hst, if_neg (by decide)]

/-- An operation that has consumed a token in error ends with code 1 (R147). -/
theorem State.engineOpStart_depError (h : s.Names q o) (hst : o.st = .queued) (he : o.depError = true) :
    ∃ t, exec .engineOpStart s = .next t ∧ s.QuietOp t s.ev.die ∧ t.dies = s.dies
      ∧ { due := s.cycle, act := .engineOpError, arg := { die := s.ev.die, eng := q, id := s.ev.id, code := 1 } } ∈ t.agenda := by
  have hx := State.exec_engineOpStart_queued h hst
  rw [if_pos he, h.opId] at hx
  have ha := (State.ActsOn.refl s s.ev.die).schedOnce s.cycle .engineOpError { die := s.ev.die, eng := q, id := s.ev.id, code := 1 }
  refine ⟨_, hx, ha.quiet rfl rfl, ?_, State.mem_schedOnce _ _ _ _⟩
  obtain ⟨m, hm, -⟩ := State.schedOnce_eq (s := s) s.cycle .engineOpError { die := s.ev.die, eng := q, id := s.ev.id, code := 1 }
  unfold State.opFails
  rw [hm]

theorem State.ActsOn.copyDone (h : s.ActsOn t d y) (id : Nat) : s.ActsOn (t.copyDone d id) d y := by
  unfold State.copyDone
  split
  · exact h
  · exact of_ite h (of_ite (h.schedOnce _ _ _) (of_ite (h.schedOnce _ _ _) (of_ite (h.schedOnce _ _ _) h)))

theorem Die.op_putOpRecord (x : Die) (q r : Fin 19) (o : Op) (st id : Nat) : (x.putOpRecord q o st).op r id = x.op r id := rfl

/-- A copy other than `cp.rs` starts (R143, R250). -/
theorem State.engineOpStart_copy (h : s.Names 0 o) (hst : o.st = .queued) (he : o.depError = false) (hi : ∀ k, o.ins ≠ .cpRs k) :
    ∃ t, exec .engineOpStart s = .next t ∧ t.op s.ev.die 0 o.id = some { o with st := .running, start := s.cycle }
      ∧ ((t.ctx s.ev.die o.ctx).recs o.hnd)[o.tp].extractLsb' 72 8 = BitVec.ofNat 8 2 ∧ s.QuietOp t s.ev.die := by
  have hx := State.exec_engineOpStart_queued h hst
  have hsc : s.startCopy s.ev.die o = ((s.modOp s.ev.die qCopy o.id fun _ => { o with st := .running, start := s.cycle }).putOpRecord
      s.ev.die qCopy o 2).copyDone s.ev.die o.id := by
    unfold State.startCopy
    split
    · next k hk => exact absurd hk (hi k)
    · rfl
  rw [if_neg (by rw [he]; exact Bool.false_ne_true), if_pos (show (0 : Fin 19) = qCopy from rfl), hsc] at hx
  have ha := (((State.ActsOn.refl s s.ev.die).modOp qCopy o.id fun _ => { o with st := .running, start := s.cycle }).putOpRecord
    qCopy o 2).copyDone o.id
  refine ⟨_, hx, ?_, ?_, ha.quiet rfl rfl⟩
  · refine (ha.op 0 o.id).trans ?_
    refine (Die.op_modOp (s.die s.ev.die) 0 o.id (fun _ => { o with st := .running, start := s.cycle }) fun _ _ => rfl).trans ?_
    have ho : (s.die s.ev.die).op 0 o.id = some o := h.here
    rw [ho]
    rfl
  · rw [ha.ctx]
    exact Die.record_putOpRecord _ _ _ _

/-! ### Units of a copy -/

/-- The bytes that an operation commits, as the event that its fold counts (R151). -/
def Op.bytesEvents (o : Op) (n : Nat) : List (FoldId × FoldEvt) :=
  match o.fold with
  | some f => if n = 0 then [] else [(f, .bytes n)]
  | none => []

theorem State.ActsOn.opBytes (h : s.ActsOn t d y) (o : Op) (n : Nat) :
    s.ActsOn (t.opBytes d o n) d { y with foldEvts := y.foldEvts ++ o.bytesEvents n } := by
  have h0 : s.ActsOn t d { y with foldEvts := y.foldEvts ++ [] } := by
    rw [List.append_nil]
    exact h
  unfold State.opBytes Op.bytesEvents
  cases o.fold with
  | none => exact h0
  | some f =>
    dsimp only
    split
    · exact h0
    · exact h.modDie fun x => { x with foldEvts := x.foldEvts ++ [(f, .bytes n)] }

theorem State.ActsOn.faults (h : s.ActsOn t d y) (hf : y.faults = (s.die d).faults) (q : Fin 19) (id : Nat) :
    t.atFault d q id = s.atFault d q id := by
  unfold State.atFault
  rw [h.die, hf, h.panel]

/-- An operation one of whose units has committed (R250, R254). -/
def Op.unitDone (o : Op) (k : CUnit) : Op :=
  let done := o.done ++ [k.no]
  let run := runLength done done.length (o.progress / 256)
  { o with units := o.units.filter fun v => v.no != k.no
           done := done.filter fun j => decide (run ≤ j)
           progress := min (copyLen o) (256 * run)
           tiles := if (copyShape o).2 == .bank then (o.tiles ++ tilesOf (unitDst o k)).eraseDups else o.tiles }

/-- A copy whose oldest unit has committed (R250, R254). -/
theorem State.copyUnitCommit_spec {k : CUnit} (ho : s.op s.ev.die 0 s.ev.id = some o)
    (hu : (o.units.find? fun u => u.no == s.ev.unit) = some k) (hd : o.done = []) (hp : o.progress = 256 * k.no) :
    ∃ t, exec .copyUnitCommit s = .next t ∧ s.QuietOp t s.ev.die
      ∧ (∃ p, t.op s.ev.die 0 s.ev.id = some p ∧ p.progress = min (copyLen o) (256 * (k.no + 1))
        ∧ p.units = o.units.filter fun v => v.no != k.no)
      ∧ ((t.ctx s.ev.die o.ctx).recs o.hnd)[o.tp].extractLsb' 72 8
        = BitVec.ofNat 8 (if s.atFault s.ev.die 0 s.ev.id then 3 else 2)
      ∧ (t.die s.ev.die).foldEvts = (s.die s.ev.die).foldEvts ++ match o.fold with
          | some f => if k.len = 0 then [] else [(f, .bytes k.len)]
          | none => [] := by
  have hid := Die.op_id (x := s.die s.ev.die) ho
  have hrun : runLength (o.done ++ [k.no]) (o.done ++ [k.no]).length (o.progress / 256) = k.no + 1 := by
    rw [hd, hp, Nat.mul_div_cancel_left _ (by decide)]
    simp [runLength]
  have hx : exec .copyUnitCommit s = .next ((((s.modOp s.ev.die qCopy o.id fun _ => o.unitDone k).putOpRecord s.ev.die qCopy
      (o.unitDone k) (if (s.modOp s.ev.die qCopy o.id fun _ => o.unitDone k).atFault s.ev.die qCopy o.id then 3 else 2)).opBytes
        s.ev.die o k.len).copyDone s.ev.die o.id) := by
    change execCopyUnitCommit s = _
    unfold execCopyUnitCommit
    dsimp only
    rw [show s.op s.ev.die qCopy s.ev.id = some o from ho]
    dsimp only
    rw [hu]
    rfl
  have hpr : (o.unitDone k).progress = min (copyLen o) (256 * (k.no + 1)) := by
    unfold Op.unitDone
    dsimp only
    rw [hrun]
  have ha := (((State.ActsOn.refl s s.ev.die).modOp qCopy o.id fun _ => o.unitDone k).putOpRecord qCopy (o.unitDone k)
    (if (s.modOp s.ev.die qCopy o.id fun _ => o.unitDone k).atFault s.ev.die qCopy o.id then 3 else 2))
  have hb := (ha.opBytes o k.len).copyDone o.id
  have hf := ((State.ActsOn.refl s s.ev.die).modOp qCopy o.id fun _ => o.unitDone k).faults rfl qCopy o.id
  refine ⟨_, hx, hb.quiet rfl rfl, ⟨o.unitDone k, ?_, hpr, rfl⟩, ?_, ?_⟩
  · rw [← hid]
    refine (hb.op 0 o.id).trans ?_
    refine (Die.op_modOp (s.die s.ev.die) 0 o.id (fun _ => o.unitDone k) fun _ _ => rfl).trans ?_
    rw [hid, show (s.die s.ev.die).op 0 s.ev.id = some o from ho]
    rfl
  · rw [hb.ctx, ← hid]
    refine (Die.record_putOpRecord ((s.die s.ev.die).modOp qCopy o.id fun _ => o.unitDone k) qCopy (o.unitDone k) _).trans ?_
    rw [hf]
    rfl
  · rw [hb.die]
    rfl

/-- A copy that gives up at a unit with a code. -/
def Op.copyFails (o : Op) (unit : Nat) (code : BitVec 8) (keep : CUnit → Bool) : Op :=
  { o with err := if o.err = 0 then code else o.err
           units := o.units.filter fun u => decide (u.no < unit) || (decide (u.no ≠ unit) && keep u) }

theorem State.TurnsDie.failCopy (h : s.TurnsDie t d y) (o : Op) (unit : Nat) (code : BitVec 8) :
    ∃ keep, s.TurnsDie (t.failCopy d o unit code) d (y.modOp qCopy o.id fun o => o.copyFails unit code keep) := by
  refine ⟨fun u => ((t.accsOf d o.id).any fun a => a.unit == u.no && a.st != .waiting && a.st != .reading)
    || (u.full && !((copyShape o).2 == .panel)), ?_⟩
  unfold State.failCopy
  exact (h.modDie fun x => x.modOp qCopy o.id fun o => o.copyFails unit code _).of_dies rfl rfl

theorem State.TurnsDie.copyDone (h : s.TurnsDie t d y) (id : Nat) : s.TurnsDie (t.copyDone d id) d y := by
  have hc := (State.ActsOn.refl t d).copyDone id
  refine h.of_dies ?_ hc.mem
  rw [hc.dies]
  exact vset_self _ _

/-- A copy whose tile has not matched for its time ends in error (R253). -/
theorem State.copyTagWaitLimit_spec {k : CUnit} (ho : s.op s.ev.die 0 s.ev.id = some o)
    (hu : (o.units.find? fun u => u.no == s.ev.unit && u.since.any fun e => decide (e.2 + 2 ^ o.tagLimit.toNat ≤ s.cycle)) = some k) :
    ∃ t, exec .copyTagWaitLimit s = .next t ∧ s.SameBytes t ∧ t.mem = s.mem
      ∧ ∃ p, t.op s.ev.die 0 s.ev.id = some p ∧ p.err = (if o.err = 0 then 8 else o.err)
        ∧ ∀ v, v ∈ p.units → v ∈ o.units ∧ v.no ≠ s.ev.unit := by
  have hid := Die.op_id (x := s.die s.ev.die) ho
  have hno : k.no = s.ev.unit := by
    have h := List.find?_some hu
    simp only [Bool.and_eq_true, beq_iff_eq] at h
    exact h.1
  have hx : exec .copyTagWaitLimit s = .next ((s.failCopy s.ev.die o k.no 8).copyDone s.ev.die o.id) := by
    change execCopyTagWaitLimit s = _
    unfold execCopyTagWaitLimit
    dsimp only
    rw [show s.op s.ev.die qCopy s.ev.id = some o from ho]
    dsimp only
    rw [hu]
  obtain ⟨keep, ht⟩ := (State.TurnsDie.refl s s.ev.die).failCopy o k.no 8
  have hc := ht.copyDone o.id
  refine ⟨_, hx, hc.sameBytes rfl rfl, hc.mem, o.copyFails k.no 8 keep, ?_, rfl, fun v hv => ?_⟩
  · refine (congrArg (fun x : Die => x.op 0 s.ev.id) hc.die).trans ?_
    rw [← hid]
    refine (Die.op_modOp (s.die s.ev.die) 0 o.id (fun o => o.copyFails k.no 8 keep) fun _ h => h).trans ?_
    rw [hid, show (s.die s.ev.die).op 0 s.ev.id = some o from ho]
    rfl
  · obtain ⟨hm, hk⟩ := List.mem_filter.mp hv
    refine ⟨hm, fun h => ?_⟩
    rw [h, ← hno] at hk
    simp at hk

/-! ### Follow-on commands -/

/-- A command that is handed over (R271). -/
theorem State.followOnIssue_spec : ∃ t, exec .followOnIssue s = .next t ∧ s.QuietOp t s.ev.die
    ∧ ∀ q : Fin 19, (t.die s.ev.die).queues[q] = ((s.die s.ev.die).queues[q]).map fun p =>
      if p.id = s.ev.id then { p with handed := true } else p := by
  have ha := (State.ActsOn.refl s s.ev.die).modDie fun x => x.mapOps fun o => if o.id == s.ev.id then { o with handed := true } else o
  have hx : ∃ t, exec .followOnIssue s = .next t ∧ s.ActsOn t s.ev.die ((s.die s.ev.die).mapOps fun o =>
      if o.id == s.ev.id then { o with handed := true } else o) := by
    refine ⟨_, rfl, State.ActsOn.foldl _ (fun t q h => ?_) _ _ ha⟩
    split
    · exact State.ActsOn.of_ite (h.schedOnce _ _ _) h
    · exact h
  obtain ⟨t, hx, hf⟩ := hx
  refine ⟨t, hx, hf.quiet rfl rfl, fun q => ?_⟩
  rw [hf.die, Die.mapOps_queues]
  refine List.map_congr_left fun p _ => ?_
  exact if_congr (by simp) rfl rfl

end

end Sys2Proof.Machine
end

