-- ==== Sys2Proof/Proofs/ArrayStarts.lean ====
section
/-! PROOFS. The start of an operation of an ARRAY queue (R257 to R260, R272). -/

namespace Sys2Proof.Machine

section
variable {s t u : State} {d : DieId} {x y : Die} {q : Fin 19} {id : Nat} {o : Op}

/-! ### Errors and completions of array operations -/

theorem State.ActsOn.opFails (h : s.ActsOn t d y) (q : Fin 19) (id : Nat) (code : BitVec 8) : s.ActsOn (t.opFails d q id code) d y :=
  h.schedOnce _ _ _

theorem State.ActsOn.arrFails (h : s.ActsOn t d y) (q : Fin 19) (id : Nat) (code : BitVec 8) :
    s.ActsOn (t.arrFails d q id code) d (y.modOp q id fun o => { o with err := code }) := (h.modOp q id _).schedOnce _ _ _

theorem State.ActsOn.opDoneAt (h : s.ActsOn t d y) (due : Nat) (q : Fin 19) (id : Nat) : s.ActsOn (t.opDoneAt due d q id) d y :=
  h.schedOnce _ _ _

/-- An operation's end in error stands on the agenda of this cycle. -/
def State.FailsOp (t : State) (cycle : Nat) (d : DieId) (q : Fin 19) (id : Nat) (code : BitVec 8) : Prop :=
  { due := cycle, act := .engineOpError, arg := { die := d, eng := q, id := id, code := code } } ∈ t.agenda

/-- An operation's completion stands on the agenda. -/
def State.DoneOp (t : State) (due : Nat) (d : DieId) (q : Fin 19) (id : Nat) : Prop :=
  { due := due, act := .engineOpComplete, arg := { die := d, eng := q, id := id } } ∈ t.agenda

theorem State.ActsOn.failsOp (h : s.ActsOn t d y) (q : Fin 19) (id : Nat) (code : BitVec 8) :
    (t.opFails d q id code).FailsOp s.cycle d q id code := h.cycle ▸ t.mem_schedOnce _ _ _

theorem State.doneOp (t : State) (due : Nat) (d : DieId) (q : Fin 19) (id : Nat) : (t.opDoneAt due d q id).DoneOp due d q id :=
  t.mem_schedOnce _ _ _

/-! ### The steps of an operation begin -/

/-- An operation whose steps begin in a cycle. -/
def Op.begins (o : Op) (k : ArrKind) (cycle : Nat) (pend : List (Nat × List (Nat × Byte))) : Op :=
  { o with st := .running, start := cycle, fetching := false, slip := 0, first := o.steps
           next := if k = .cent then o.steps / 16 else o.next
           pend := pend.map fun p => (cycle + arrBase k - 2 + (p.1 - o.steps), p.2) }

/-- The transfers of the rows of an operation that are left. -/
def Die.transfersOf (y : Die) (q : Fin 19) (o : Op) : List (Nat × List (Nat × Byte)) :=
  transfers (bankElems (y.feature 1) (arrKind o.ins) y.arrays[arrayOf q] o ((List.range (arrRows (arrKind o.ins) o)).drop o.steps))

/-- The cycles of the rows of an operation. -/
def Die.arrTime (y : Die) (q : Fin 19) (o : Op) (rows : Nat) : Nat :=
  arrBase (arrKind o.ins) + rows * arrRate (arrKind o.ins) (streamFmt (y.feature 1) o) (y.arrays[arrayOf q]).live.fmt

theorem State.arrTime_eq (s : State) (d : DieId) (q : Fin 19) (o : Op) (rows : Nat) :
    s.arrTime d q o rows = (s.die d).arrTime q o rows := rfl

theorem State.ActsOn.runArray_foreign (h : s.ActsOn t d y) (hu : usesSlot (y.feature 1) (arrKind o.ins) o = true)
    (ho : (y.slots[slotOf (arrayOf q).val o]).owner ≠ some o.ctx) :
    s.ActsOn (t.runArray d q o) d (y.modOp q o.id fun o => { o with err := 3 }) ∧ (t.runArray d q o).FailsOp s.cycle d q o.id 3 := by
  have hr : t.runArray d q o = t.arrFails d q o.id 3 := by
    unfold State.runArray
    dsimp only
    rw [if_pos]
    unfold State.slot
    rw [h.die, hu, Bool.true_and, bne_iff_ne]
    exact ho
  rw [hr]
  exact ⟨h.arrFails q o.id 3, (h.modOp q o.id _).failsOp q o.id 3⟩

theorem State.ActsOn.runArray_owned (h : s.ActsOn t d y)
    (hu : usesSlot (y.feature 1) (arrKind o.ins) o = true → (y.slots[slotOf (arrayOf q).val o]).owner = some o.ctx) :
    s.ActsOn (t.runArray d q o) d (y.modOp q o.id fun _ => o.begins (arrKind o.ins) s.cycle (y.transfersOf q o))
      ∧ (t.runArray d q o).DoneOp (s.cycle + y.arrTime q o (arrRows (arrKind o.ins) o - o.steps)) d q o.id := by
  have hr : t.runArray d q o = (t.modOp d q o.id fun _ => o.begins (arrKind o.ins) t.cycle ((t.die d).transfersOf q o)).opDoneAt
      (t.cycle + (t.die d).arrTime q o (arrRows (arrKind o.ins) o - o.steps)) d q o.id := by
    unfold State.runArray
    dsimp only
    rw [if_neg]
    · rfl
    · unfold State.slot
      rw [h.die, Bool.and_eq_true, bne_iff_ne]
      exact fun ⟨h1, h2⟩ => h2 (hu h1)
  rw [hr, h.cycle, h.die]
  exact ⟨(h.modOp q o.id _).opDoneAt _ q o.id, State.doneOp _ _ d q o.id⟩

/-! ### The start of an array operation that streams or drains -/

/-- A die whose array has counted a start. -/
def Die.countsStart (x : Die) (m : Fin 16) : Die := { x with arrays := vmod x.arrays m fun a => { a with started := a.started + 1 } }

/-- An operation with the flags of its control word. -/
def Op.flagged (o : Op) (d8 : Bool) : Op := { o with flags := o.flags ||| fieldFlags d8 (arrKind o.ins) o }

theorem State.startArray_near (h1 : arrKind o.ins ≠ .slot) (h2 : arrKind o.ins ≠ .resume)
    (hf : wordFar o = false ∨ (arrKind o.ins ≠ .wld ∧ arrKind o.ins ≠ .mul ∧ arrKind o.ins ≠ .dist)) :
    s.startArray d q o = ((((s.putOpRecord d q o 2).modDie d fun x => x.countsStart (arrayOf q)).modOp d q o.id fun _ =>
      { o.flagged ((s.die d).feature 1) with st := .running }).runArray d q (o.flagged ((s.die d).feature 1))) := by
  have hk : (wordFar o && (arrKind o.ins == .wld || arrKind o.ins == .mul || arrKind o.ins == .dist)) = false := by
    obtain hf | ⟨ha, hb, hc⟩ := hf
    · rw [hf, Bool.false_and]
    · simp [ha, hb, hc]
  have hfeat : (((s.putOpRecord d q o 2).modDie d fun x => x.countsStart (arrayOf q)).die d).feature 1 = (s.die d).feature 1 := by
    rw [State.die_modDie, show (s.putOpRecord d q o 2).die d = (s.die d).putOpRecord q o 2 from State.die_modDie s d _]
    rfl
  unfold State.startArray
  extract_lets m a s1 go s2 t d8 src
  have hgo (u : State) (p : Op) (hp : wordFar p = wordFar o) (hi : arrKind p.ins = arrKind o.ins) :
      go u p = (u.modOp d q p.id fun _ => { p with st := .running }).runArray d q p := by
    refine if_neg ?_
    rw [hp, hi]
    intro h
    simp only [Bool.and_eq_true] at h
    rw [h.1.1, h.2] at hk
    cases hk
  split
  · next h => exact absurd h h1
  · next h => exact absurd h h2
  · extract_lets again
    have hag : ¬again = true := by
      intro h
      simp only [again, Bool.and_eq_true] at h
      rw [h.1.1.1, h.1.2] at hk
      cases hk
    have hs : s2 = (s.putOpRecord d q o 2).modDie d fun x => x.countsStart (arrayOf q) := rfl
    rw [if_neg hag]
    clear_value go s2
    subst hs
    have hp : ({ o with flags := o.flags ||| fieldFlags ((((s.putOpRecord d q o 2).modDie d fun x =>
        x.countsStart (arrayOf q)).die d).feature 1) (arrKind o.ins) o } : Op) = o.flagged ((s.die d).feature 1) := by
      rw [hfeat]
      rfl
    exact (congrArg (go _) hp).trans (hgo _ _ rfl rfl)

theorem State.exec_engineOpStart_array (h : s.Names q o) (hst : o.st = .queued) (he : o.depError = false) (h1 : 1 ≤ q.val)
    (h16 : q.val ≤ 16) : exec .engineOpStart s = .next (s.startArray s.ev.die q o) := by
  rw [State.exec_engineOpStart_queued h hst, he, if_neg Bool.false_ne_true,
    if_neg (fun hq => absurd (congrArg Fin.val hq) (show q.val ≠ 0 by omega)),
    if_neg (fun hq => absurd (congrArg Fin.val hq) (show q.val ≠ 17 by omega)),
    if_neg (fun hq => absurd (congrArg Fin.val hq) (show q.val ≠ 18 by omega))]

/-- A die on which an array operation has begun to start. -/
def Die.startsOp (x : Die) (q : Fin 19) (o : Op) : Die :=
  (((x.putOpRecord q o 2).countsStart (arrayOf q)).modOp q o.id fun _ => { o.flagged (x.feature 1) with st := .running })

theorem bankElems_congr (d8 : Bool) (k : ArrKind) (a : Arr) (n : Nat) (o : Op) (f : Flg) (rows : List Nat) :
    bankElems d8 k { a with started := n } { o with flags := f } rows = bankElems d8 k a o rows := by
  cases k <;> rfl

theorem Die.transfersOf_startsOp (x : Die) (q : Fin 19) (o : Op) (hs : o.steps = 0) :
    (x.startsOp q o).transfersOf q (o.flagged (x.feature 1)) = transfers (bankElems (x.feature 1) (arrKind o.ins) x.arrays[arrayOf q] o
      (List.range (arrRows (arrKind o.ins) o))) := by
  have ha : ((x.startsOp q o).arrays)[arrayOf q] = { x.arrays[arrayOf q] with started := (x.arrays[arrayOf q]).started + 1 } :=
    vset_same _ _ _
  have h8 : (x.startsOp q o).feature 1 = x.feature 1 := rfl
  have hr : (List.range (arrRows (arrKind o.ins) o)).drop o.steps = List.range (arrRows (arrKind o.ins) o) := by
    rw [hs, List.drop_zero]
  have hb := bankElems_congr (x.feature 1) (arrKind o.ins) x.arrays[arrayOf q] ((x.arrays[arrayOf q]).started + 1) o
    (o.flags ||| fieldFlags (x.feature 1) (arrKind o.ins) o) ((List.range (arrRows (arrKind o.ins) o)).drop o.steps)
  unfold Die.transfersOf
  rw [ha, h8]
  exact congrArg transfers (hb.trans (congrArg _ hr))

theorem Die.arrTime_startsOp (x : Die) (q : Fin 19) (o : Op) (rows : Nat) :
    (x.startsOp q o).arrTime q (o.flagged (x.feature 1)) rows = x.arrTime q o rows := by
  have ha : ((x.startsOp q o).arrays)[arrayOf q] = { x.arrays[arrayOf q] with started := (x.arrays[arrayOf q]).started + 1 } :=
    vset_same _ _ _
  unfold Die.arrTime
  rw [ha]
  rfl

theorem usesSlot_flagged (e d8 : Bool) (k : ArrKind) (o : Op) : usesSlot e k (o.flagged d8) = usesSlot e k o := by
  cases k <;> rfl

/-- An array operation that streams from its slot or drains it starts: it ends with code 3 if its slot is not its own, and
else its steps begin. -/
theorem State.engineOpStart_near (h : s.Names q o) (hst : o.st = .queued) (he : o.depError = false) (h1 : 1 ≤ q.val)
    (h16 : q.val ≤ 16) (hk1 : arrKind o.ins ≠ .slot) (hk2 : arrKind o.ins ≠ .resume)
    (hf : wordFar o = false ∨ (arrKind o.ins ≠ .wld ∧ arrKind o.ins ≠ .mul ∧ arrKind o.ins ≠ .dist)) (hs : o.steps = 0) :
    (usesSlot ((s.die s.ev.die).feature 1) (arrKind o.ins) o = true →
      ((s.die s.ev.die).slots[slotOf (arrayOf q).val o]).owner ≠ some o.ctx →
      ∃ t, exec .engineOpStart s = .next t ∧ t.FailsOp s.cycle s.ev.die q o.id 3 ∧ s.QuietOp t s.ev.die
        ∧ (t.die s.ev.die).slots = (s.die s.ev.die).slots)
    ∧ ((usesSlot ((s.die s.ev.die).feature 1) (arrKind o.ins) o = true →
        ((s.die s.ev.die).slots[slotOf (arrayOf q).val o]).owner = some o.ctx) →
      ∃ t, exec .engineOpStart s = .next t
        ∧ t.DoneOp (s.cycle + (s.die s.ev.die).arrTime q o (arrRows (arrKind o.ins) o)) s.ev.die q o.id
        ∧ ((t.ctx s.ev.die o.ctx).recs o.hnd)[o.tp].extractLsb' 72 8 = BitVec.ofNat 8 2 ∧ s.QuietOp t s.ev.die
        ∧ (t.die s.ev.die).slots = (s.die s.ev.die).slots
        ∧ t.op s.ev.die q o.id = some ((o.flagged ((s.die s.ev.die).feature 1)).begins (arrKind o.ins) s.cycle
          (transfers (bankElems ((s.die s.ev.die).feature 1) (arrKind o.ins) ((s.die s.ev.die).arrays[arrayOf q]) o
            (List.range (arrRows (arrKind o.ins) o)))))) := by
  have hx := State.exec_engineOpStart_array h hst he h1 h16
  rw [State.startArray_near hk1 hk2 hf] at hx
  have ha : s.ActsOn _ s.ev.die ((s.die s.ev.die).startsOp q o) :=
    (((State.ActsOn.refl s s.ev.die).putOpRecord q o 2).modDie fun x => x.countsStart (arrayOf q)).modOp q o.id fun _ =>
      { o.flagged ((s.die s.ev.die).feature 1) with st := .running }
  have hu := usesSlot_flagged ((s.die s.ev.die).feature 1) ((s.die s.ev.die).feature 1) (arrKind o.ins) o
  refine ⟨fun hus hne => ?_, fun hown => ?_⟩
  · obtain ⟨hr, hfail⟩ := ha.runArray_foreign (q := q) (o := o.flagged ((s.die s.ev.die).feature 1)) (hu.trans hus) hne
    exact ⟨_, hx, hfail, hr.quiet rfl rfl, (congrArg Die.slots hr.die).trans rfl⟩
  · obtain ⟨hr, hdone⟩ := ha.runArray_owned (q := q) (o := o.flagged ((s.die s.ev.die).feature 1)) fun h => hown (hu.symm.trans h)
    have ht := Die.arrTime_startsOp (s.die s.ev.die) q o (arrRows (arrKind o.ins) o - o.steps)
    rw [hs, Nat.sub_zero] at ht
    have hp := Die.transfersOf_startsOp (s.die s.ev.die) q o hs
    refine ⟨_, hx, ?_, ?_, hr.quiet rfl rfl, (congrArg Die.slots hr.die).trans rfl, ?_⟩
    · rw [← ht]
      refine Eq.mp (congrArg (fun n => State.DoneOp _ (s.cycle + Die.arrTime _ q _ n) _ q _) ?_) hdone
      show arrRows (arrKind o.ins) o - o.steps = arrRows (arrKind o.ins) o
      rw [hs, Nat.sub_zero]
    · rw [hr.ctx]
      exact Die.record_putOpRecord _ _ _ _
    · rw [← hp]
      refine (hr.op q o.id).trans ?_
      refine (Die.op_modOp ((s.die s.ev.die).startsOp q o) q o.id (fun _ => (o.flagged ((s.die s.ev.die).feature 1)).begins
        (arrKind o.ins) s.cycle (((s.die s.ev.die).startsOp q o).transfersOf q (o.flagged ((s.die s.ev.die).feature 1))))
          fun _ _ => rfl).trans ?_
      have hop : ((s.die s.ev.die).startsOp q o).op q o.id = some { o.flagged ((s.die s.ev.die).feature 1) with st := .running } := by
        refine (Die.op_modOp ((s.die s.ev.die).putOpRecord q o 2 |>.countsStart (arrayOf q)) q o.id
          (fun _ => { o.flagged ((s.die s.ev.die).feature 1) with st := .running }) fun _ _ => rfl).trans ?_
        rw [show (((s.die s.ev.die).putOpRecord q o 2).countsStart (arrayOf q)).op q o.id = some o from h.here]
        rfl
      rw [hop]
      rfl

/-! ### The slot instructions -/

/-- A step of die `d` leaves the operand slots as they were, but slot `n`, which is `z`. -/
def State.SlotIs (s t : State) (d : DieId) (n : Fin 128) (z : Slot) : Prop :=
  s.QuietOp t d ∧ (t.die d).slots[n] = z ∧ ∀ p, p ≠ n → (t.die d).slots[p] = (s.die d).slots[p]

/-- A die that has seen a slot instruction begin. -/
structure Die.BeginsSlot (x y : Die) (q : Fin 19) (o : Op) : Prop where
  bank : y.bank = x.bank
  folds : y.folds = x.folds
  slots : y.slots = x.slots
  op : y.op q o.id = some o

theorem State.ActsOn.slotIs_self (h : s.ActsOn t d y) (hb : y.bank = (s.die d).bank) (hf : y.folds = (s.die d).folds)
    (hs : y.slots = (s.die d).slots) (n : Fin 128) : s.SlotIs t d n (s.die d).slots[n] := by
  refine ⟨h.quiet hb hf, ?_, fun p _ => ?_⟩
  · rw [h.die, hs]
  · rw [h.die, hs]

theorem State.ActsOn.slotIs_modSlot (h : s.ActsOn t d y) (hb : y.bank = (s.die d).bank) (hf : y.folds = (s.die d).folds)
    (hs : y.slots = (s.die d).slots) (n : Fin 128) (f : Slot → Slot) (due : Nat) (q : Fin 19) (id : Nat) :
    s.SlotIs ((t.modSlot d n f).opDoneAt due d q id) d n (f (s.die d).slots[n]) := by
  have hm := (h.modDie fun x => { x with slots := vmod x.slots n f }).opDoneAt due q id
  refine ⟨hm.quiet hb hf, ?_, fun p hp => ?_⟩
  · refine (congrArg (fun x : Die => x.slots[n]) hm.die).trans ?_
    show (vset y.slots n (f y.slots[n]))[n] = _
    rw [vset_same, hs]
  · refine (congrArg (fun x : Die => x.slots[p]) hm.die).trans ?_
    show (vset y.slots n (f y.slots[n]))[p] = _
    rw [vset_other _ _ (Ne.symm hp), hs]

section
variable {n : Fin 128} {dep : Deps} {z : Src}

/-- The state in which a slot instruction does its work. -/
theorem State.ActsOn.slotBegins (h : s.ActsOn t d y) (hy : (s.die d).BeginsSlot y q o) :
    ∃ u, u = t.modOp d q o.id (fun o => { o with st := .running, start := t.cycle })
      ∧ s.ActsOn u d (y.modOp q o.id fun o => { o with st := .running, start := t.cycle })
      ∧ u.cycle = s.cycle ∧ ∀ n, u.slot d n = (s.die d).slots[n] := by
  have h1 := h.modOp q o.id fun o => { o with st := .running, start := t.cycle }
  exact ⟨_, rfl, h1, h1.cycle, fun n =>
    (congrArg (fun x : Die => x.slots[n]) h1.die).trans (congrArg (fun v : Vector Slot 128 => v[n]) hy.slots)⟩

theorem State.startSlot_claim (h : s.ActsOn t d y) (hy : (s.die d).BeginsSlot y q o) (hi : o.ins = .slotClaim n dep) :
    (((s.die d).slots[n]).owner = none → s.SlotIs (t.startSlot d q o) d n { (s.die d).slots[n] with owner := some o.ctx }
      ∧ (t.startSlot d q o).DoneOp s.cycle d q o.id)
    ∧ (((s.die d).slots[n]).owner = some o.ctx → s.SlotIs (t.startSlot d q o) d n (s.die d).slots[n]
      ∧ (t.startSlot d q o).DoneOp s.cycle d q o.id)
    ∧ ∀ c, ((s.die d).slots[n]).owner = some c → c ≠ o.ctx → s.SlotIs (t.startSlot d q o) d n (s.die d).slots[n]
      ∧ (t.startSlot d q o).FailsOp s.cycle d q o.id 3 := by
  obtain ⟨u, hu, h1, hc, hsl⟩ := h.slotBegins hy
  unfold State.startSlot
  rw [hi, ← hu]
  dsimp only
  rw [hsl, hc]
  refine ⟨fun ho => ?_, fun ho => ?_, fun c ho hne => ?_⟩
  · rw [ho]
    exact ⟨h1.slotIs_modSlot hy.bank hy.folds hy.slots n (fun t => { t with owner := some o.ctx }) _ _ _, State.doneOp _ _ _ _ _⟩
  · rw [ho]
    dsimp only
    rw [if_pos rfl]
    exact ⟨(h1.opDoneAt _ _ _).slotIs_self hy.bank hy.folds hy.slots n, State.doneOp _ _ _ _ _⟩
  · rw [ho]
    dsimp only
    rw [if_neg hne]
    exact ⟨(h1.opFails _ _ _).slotIs_self hy.bank hy.folds hy.slots n, h1.failsOp _ _ _⟩

theorem State.startSlot_release (h : s.ActsOn t d y) (hy : (s.die d).BeginsSlot y q o) (hi : o.ins = .slotRelease n dep) :
    (((s.die d).slots[n]).owner = some o.ctx → s.SlotIs (t.startSlot d q o) d n { (s.die d).slots[n] with owner := none }
      ∧ (t.startSlot d q o).DoneOp s.cycle d q o.id)
    ∧ (((s.die d).slots[n]).owner ≠ some o.ctx → s.SlotIs (t.startSlot d q o) d n (s.die d).slots[n]
      ∧ (t.startSlot d q o).FailsOp s.cycle d q o.id 3) := by
  obtain ⟨u, hu, h1, hc, hsl⟩ := h.slotBegins hy
  unfold State.startSlot
  rw [hi, ← hu]
  dsimp only
  rw [hc]
  refine ⟨fun ho => ?_, fun ho => ?_⟩
  · rw [if_pos (by rwa [hsl, beq_iff_eq])]
    exact ⟨h1.slotIs_modSlot hy.bank hy.folds hy.slots n (fun t => { t with owner := none }) _ _ _, State.doneOp _ _ _ _ _⟩
  · rw [if_neg (by rwa [hsl, beq_iff_eq])]
    exact ⟨(h1.opFails _ _ _).slotIs_self hy.bank hy.folds hy.slots n, h1.failsOp _ _ _⟩

theorem State.startSlot_zero (h : s.ActsOn t d y) (hy : (s.die d).BeginsSlot y q o) (hi : o.ins = .slotZero n dep) :
    (((s.die d).slots[n]).owner = some o.ctx → s.SlotIs (t.startSlot d q o) d n (s.die d).slots[n]
      ∧ (t.startSlot d q o).DoneOp (s.cycle + 31) d q o.id)
    ∧ (((s.die d).slots[n]).owner ≠ some o.ctx → s.SlotIs (t.startSlot d q o) d n (s.die d).slots[n]
      ∧ (t.startSlot d q o).FailsOp s.cycle d q o.id 3) := by
  obtain ⟨u, hu, h1, hc, hsl⟩ := h.slotBegins hy
  unfold State.startSlot
  rw [hi, ← hu]
  dsimp only
  rw [hc]
  refine ⟨fun ho => ?_, fun ho => ?_⟩
  · rw [if_pos (by rwa [hsl, beq_iff_eq])]
    exact ⟨(h1.opDoneAt _ _ _).slotIs_self hy.bank hy.folds hy.slots n, State.doneOp _ _ _ _ _⟩
  · rw [if_neg (by rwa [hsl, beq_iff_eq])]
    exact ⟨(h1.arrFails _ _ _).slotIs_self hy.bank hy.folds hy.slots n, (h1.modOp _ _ _).failsOp _ _ _⟩

/-- What a shape of a slot needs, and what it makes (R268). -/
theorem Slot.reshape_eq (z : Slot) (a : Word) : z.reshape a
    = if 1 ≤ (a.extractLsb' 0 9).toNat ∧ (a.extractLsb' 0 9).toNat ≤ 256 ∧ 1 ≤ (a.extractLsb' 9 9).toNat
        ∧ (a.extractLsb' 9 9).toNat ≤ 256
      then some { z with rows := (a.extractLsb' 0 9).toNat, cols := (a.extractLsb' 9 9).toNat, colMajor := a.getLsbD 18 }
      else none := by
  unfold Slot.reshape
  dsimp only
  rw [bits_eq, bits_eq, bitAt_eq]
  by_cases h : 1 ≤ (a.extractLsb' 0 9).toNat ∧ (a.extractLsb' 0 9).toNat ≤ 256 ∧ 1 ≤ (a.extractLsb' 9 9).toNat
      ∧ (a.extractLsb' 9 9).toNat ≤ 256
  · rw [if_pos h, if_neg]
    simp only [Bool.or_eq_true, decide_eq_true_eq]
    omega
  · rw [if_neg h, if_pos]
    simp only [Bool.or_eq_true, decide_eq_true_eq]
    omega

theorem State.startSlot_shape {z : Src} (h : s.ActsOn t d y) (hy : (s.die d).BeginsSlot y q o) (hi : o.ins = .slotShape n z dep) :
    (((s.die d).slots[n]).owner = some o.ctx → ∀ w, ((s.die d).slots[n]).reshape o.va = some w →
      s.SlotIs (t.startSlot d q o) d n w ∧ (t.startSlot d q o).DoneOp s.cycle d q o.id)
    ∧ (((s.die d).slots[n]).owner = some o.ctx → ((s.die d).slots[n]).reshape o.va = none →
      s.SlotIs (t.startSlot d q o) d n (s.die d).slots[n] ∧ (t.startSlot d q o).DoneOp s.cycle d q o.id
      ∧ ∃ p, (t.startSlot d q o).op d q o.id = some p ∧ p.flags = o.flags ||| fInvalid)
    ∧ (((s.die d).slots[n]).owner ≠ some o.ctx → s.SlotIs (t.startSlot d q o) d n (s.die d).slots[n]
      ∧ (t.startSlot d q o).FailsOp s.cycle d q o.id 3) := by
  obtain ⟨u, hu, h1, hc, hsl⟩ := h.slotBegins hy
  unfold State.startSlot
  rw [hi, ← hu]
  dsimp only
  rw [hc]
  refine ⟨fun ho w hw => ?_, fun ho hw => ?_, fun ho => ?_⟩
  · rw [if_neg (by rw [hsl, beq_iff_eq.mpr ho]; decide), hsl, hw]
    exact ⟨h1.slotIs_modSlot hy.bank hy.folds hy.slots n (fun _ => w) _ _ _, State.doneOp _ _ _ _ _⟩
  · rw [if_neg (by rw [hsl, beq_iff_eq.mpr ho]; decide), hsl, hw]
    have h2 := (h1.modOp q o.id fun o => { o with flags := o.flags ||| fInvalid }).opDoneAt s.cycle q o.id
    refine ⟨h2.slotIs_self hy.bank hy.folds hy.slots n, State.doneOp _ _ _ _ _,
      { o with st := .running, start := t.cycle, flags := o.flags ||| fInvalid }, (h2.op q o.id).trans ?_, rfl⟩
    refine (Die.op_modOp _ q o.id (fun o => { o with flags := o.flags ||| fInvalid }) fun _ h => h).trans ?_
    rw [Die.op_modOp y q o.id (fun o => { o with st := .running, start := t.cycle }) fun _ h => h, hy.op]
    rfl
  · rw [if_pos (by rw [hsl, beq_eq_false_iff_ne.mpr ho]; rfl)]
    exact ⟨(h1.opFails _ _ _).slotIs_self hy.bank hy.folds hy.slots n, h1.failsOp _ _ _⟩

/-- A slot instruction starts. -/
theorem State.engineOpStart_slot (h : s.Names q o) (hst : o.st = .queued) (he : o.depError = false) (h1 : 1 ≤ q.val)
    (h16 : q.val ≤ 16) (hk : arrKind o.ins = .slot) : ∃ t y, exec .engineOpStart s = .next (t.startSlot s.ev.die q o)
      ∧ s.ActsOn t s.ev.die y ∧ (s.die s.ev.die).BeginsSlot y q o := by
  have hx := State.exec_engineOpStart_array h hst he h1 h16
  have ha := ((State.ActsOn.refl s s.ev.die).putOpRecord q o 2).modDie fun x => x.countsStart (arrayOf q)
  refine ⟨_, _, hx.trans ?_, ha, rfl, rfl, rfl, h.here⟩
  unfold State.startArray
  extract_lets m a s1 go s2 r
  split
  · rfl
  · next h => exact absurd (hk.symm.trans h) nofun
  · next h _ => exact absurd hk h

end

end

end Sys2Proof.Machine
end

