-- ==== Sys2Proof/Proofs/ArrayEnds.lean ====
section
/-! PROOFS. The completion and the error of an operation of an ARRAY queue (R144, R257, R272). -/

namespace Sys2Proof.Machine

section
variable {s t u : State} {d : DieId} {x y : Die} {q : Fin 19} {id : Nat} {o : Op}

/-! ### Errors -/

theorem State.exec_engineOpError_array (h : s.Names q o) (h1 : 1 ≤ q.val) (h16 : q.val ≤ 16) (hs : o.stopAt = none) :
    exec .engineOpError s = .next (s.endOp s.ev.die q o.id s.ev.code) := by
  change execEngineOpError s = _
  unfold execEngineOpError
  dsimp only
  rw [h.eng, h.op]
  dsimp only
  rw [if_neg]
  · unfold State.failArray
    rw [hs]
  · simp only [Bool.or_eq_true, decide_eq_true_eq, Fin.ext_iff, qCopy, qRemote, qPanel]
    show ¬ ((q.val = 0 ∨ q.val = 17) ∨ q.val = 18)
    omega

/-- An array keeps the operation that has ended in error (R272). -/
theorem Die.arrayResume_opEnds (x : Die) (o : Op) {code : BitVec 8} (h1 : 1 ≤ q.val) (h16 : q.val ≤ 16)
    (hk1 : arrKind o.ins ≠ .slot) (hk2 : arrKind o.ins ≠ .resume) (hc : code ≠ 0) (hran : code ≠ 1 ∨ o.st ≠ .queued) :
    (((x.opEnds q o code).arrays)[arrayOf q]).resume = some (o.ended code) := by
  obtain ⟨c, v, r, rs, a, hy, hr, -, -⟩ := x.opEnds_eq q o code
  rw [if_neg (by simpa using hc)] at hr
  have he : (x.opEnds q o code).arrays = ((x.opTold q o code).keepResume q (o.ended code) (o.st != .queued)).arrays :=
    (congrArg Die.arrays hy).trans hr.2.symm
  rw [he]
  unfold Die.keepResume
  rw [if_neg (fun hq => absurd (congrArg Fin.val hq) (show q.val ≠ 0 by omega)),
    if_neg (fun hq => absurd (congrArg Fin.val hq) (show q.val ≠ 17 by omega)),
    if_neg (fun hq => absurd (congrArg Fin.val hq) (show q.val ≠ 18 by omega))]
  have hno : ¬ ((o.ended code).err = 1 && !(o.st != .queued)) = true := by
    show ¬ (decide (code = 1) && !(o.st != .queued)) = true
    obtain h | h := hran
    · rw [decide_eq_false h]
      exact nofun
    · rw [bne_iff_ne.mpr h, Bool.not_true, Bool.and_false]
      exact nofun
  split
  · next h => exact absurd (congrArg arrKind h) hk2
  · next h => exact absurd (congrArg arrKind h) hk1
  · next h => exact absurd (congrArg arrKind h) hk1
  · next h => exact absurd (congrArg arrKind h) hk1
  · next h => exact absurd (congrArg arrKind h) hk1
  · rw [if_neg hno]
    exact congrArg Arr.resume (vset_same _ _ _)

/-- An error of an array operation (R144, R272). -/
theorem State.engineOpError_array (h : s.Names q o) (h1 : 1 ≤ q.val) (h16 : q.val ≤ 16) (hne : o.st ≠ .ended)
    (hs : o.stopAt = none) (hc : s.ev.code ≠ 0) :
    ∃ t, exec .engineOpError s = .next t ∧ s.EndsOp t s.ev.die q o s.ev.code
      ∧ (arrKind o.ins ≠ .slot → arrKind o.ins ≠ .resume → s.ev.code ≠ 1 ∨ o.st ≠ .queued →
        (((t.die s.ev.die).arrays)[arrayOf q]).resume = some (o.ended s.ev.code)) := by
  refine ⟨_, State.exec_engineOpError_array h h1 h16 hs, (State.ActsOn.refl s s.ev.die).endsOp (.refl _) h.here hne s.ev.code,
    fun hk1 hk2 hran => ?_⟩
  rw [((State.ActsOn.refl s s.ev.die).endOp h.here hne s.ev.code).die]
  exact (s.die s.ev.die).arrayResume_opEnds o h1 h16 hk1 hk2 hc hran

/-! ### Completions -/

theorem State.exec_engineOpComplete_array (h : s.Names q o) (h1 : 1 ≤ q.val) (h16 : q.val ≤ 16) (hne : o.st ≠ .ended)
    (hs : o.stopAt = none) : exec .engineOpComplete s = .next (s.completeArray s.ev.die q o) := by
  rw [State.exec_engineOpComplete_direct h hne hs, if_neg (fun hq => absurd (congrArg Fin.val hq) (show q.val ≠ 0 by omega)),
    if_neg (fun hq => absurd (congrArg Fin.val hq) (show q.val ≠ 17 by omega)),
    if_neg (fun hq => absurd (congrArg Fin.val hq) (show q.val ≠ 18 by omega))]

theorem Die.arrays_opEnds (x : Die) (q : Fin 19) (o : Op) : (x.opEnds q o 0).arrays = x.arrays := by
  obtain ⟨c, v, r, rs, a, hy, hr, -, -⟩ := x.opEnds_eq q o 0
  exact (congrArg Die.arrays hy).trans hr.2.2

/-- The completion of a slot instruction. -/
theorem State.engineOpComplete_slot (h : s.Names q o) (h1 : 1 ≤ q.val) (h16 : q.val ≤ 16) (hne : o.st ≠ .ended)
    (hs : o.stopAt = none) (hk : arrKind o.ins = .slot) :
    ∃ t, exec .engineOpComplete s = .next t ∧ s.EndsOp t s.ev.die q o 0
      ∧ (t.die s.ev.die).arrays = (s.die s.ev.die).arrays := by
  refine ⟨s.endOp s.ev.die q o.id 0, (State.exec_engineOpComplete_array h h1 h16 hne hs).trans ?_,
    (State.ActsOn.refl s s.ev.die).endsOp (.refl _) h.here hne 0, ?_⟩
  · unfold State.completeArray
    rw [hk]
  · rw [((State.ActsOn.refl s s.ev.die).endOp h.here hne 0).die]
    exact (s.die s.ev.die).arrays_opEnds q o

/-- An array whose shadow weights become live when an operation that loaded rows of them completes (R258). -/
def Arr.swaps (a : Arr) (o : Op) : Arr :=
  if arrKind o.ins = .wld && decide (o.first < arrRows (arrKind o.ins) o) then { a with live := a.shadow, shadow := {} } else a

/-- An array that no longer keeps an operation once that has been resumed and completes (R272). -/
def Arr.forgets (a : Arr) (o : Op) : Arr := if o.major = 19 && o.minor = 3 then { a with resume := none } else a

theorem Arr.forgets_eq (a : Arr) (o : Op) : ∃ r, a.forgets o = { a with resume := r } := by
  unfold Arr.forgets
  split
  · exact ⟨none, rfl⟩
  · exact ⟨a.resume, rfl⟩

theorem Arr.swaps_loaded (a : Arr) (hk : arrKind o.ins = .wld) (hf : o.first < arrRows (arrKind o.ins) o) :
    a.swaps o = { a with live := a.shadow, shadow := {} } := by
  refine if_pos ?_
  rw [decide_eq_true hk, decide_eq_true hf]
  rfl

theorem Arr.swaps_other (a : Arr) (hk : arrKind o.ins ≠ .wld) : a.swaps o = a := by
  refine if_neg ?_
  rw [decide_eq_false hk]
  exact nofun

theorem Arr.swaps_sums (a : Arr) (o : Op) : (a.swaps o).acc = a.acc ∧ (a.swaps o).cnt = a.cnt := by
  unfold Arr.swaps
  split
  · exact ⟨rfl, rfl⟩
  · exact ⟨rfl, rfl⟩

theorem Arr.completes_eq (a : Arr) (o : Op) : ((a.swaps o).forgets o).acc = a.acc ∧ ((a.swaps o).forgets o).cnt = a.cnt
    ∧ (arrKind o.ins = .wld → o.first < arrRows (arrKind o.ins) o →
      ((a.swaps o).forgets o).live = a.shadow ∧ ((a.swaps o).forgets o).shadow = {})
    ∧ (arrKind o.ins ≠ .wld → ((a.swaps o).forgets o).live = a.live ∧ ((a.swaps o).forgets o).shadow = a.shadow) := by
  obtain ⟨r, hr⟩ := (a.swaps o).forgets_eq o
  rw [hr]
  refine ⟨(a.swaps_sums o).1, (a.swaps_sums o).2, fun hk hf => ?_, fun hk => ?_⟩
  · rw [a.swaps_loaded hk hf]
    exact ⟨rfl, rfl⟩
  · rw [a.swaps_other hk]
    exact ⟨rfl, rfl⟩

/-- A die with array `m` as given. -/
def Die.withArr (x : Die) (m : Fin 16) (a : Arr) : Die := { x with arrays := vset x.arrays m a }

theorem State.ActsOn.modArrIf {m : Fin 16} {a : Arr} (h : s.ActsOn t d (x.withArr m a)) (c : Bool) (f : Arr → Arr) :
    s.ActsOn (if c then t.modArr d m f else t) d (x.withArr m (if c then f a else a)) := by
  cases c with
  | false => exact h
  | true =>
    have hm := h.modDie fun x => { x with arrays := vmod x.arrays m f }
    have hy : ({ x.withArr m a with arrays := vmod (x.withArr m a).arrays m f } : Die) = x.withArr m (f a) := by
      show ({ x with arrays := vset (vset x.arrays m a) m (f (vset x.arrays m a)[m]) } : Die) = { x with arrays := vset x.arrays m (f a) }
      rw [vset_same, vset_vset]
    exact hy ▸ hm

theorem Die.withArr_self (x : Die) (m : Fin 16) : x.withArr m x.arrays[m] = x := by
  unfold Die.withArr
  rw [vset_self]

/-- The completion of an array operation whose rows have all been done (R144, R257, R258, R272). -/
theorem State.engineOpComplete_rows (h : s.Names q o) (h1 : 1 ≤ q.val) (h16 : q.val ≤ 16) (hne : o.st ≠ .ended)
    (hs : o.stopAt = none) (hk : arrKind o.ins ≠ .slot) (herr : o.err = 0)
    (hdue : s.rowsDue s.ev.die q o (arrRows (arrKind o.ins) o) ≤ s.cycle) (hsteps : arrRows (arrKind o.ins) o ≤ o.steps)
    (hdr : s.drains s.ev.die o = false) (hl : o.left = [])
    (hahead : ∀ p ∈ ((s.die s.ev.die).queues[q]).takeWhile fun p => p.id != s.ev.id, p.st = .ended) (hp : o.poison = false) :
    ∃ t, exec .engineOpComplete s = .next t ∧ s.EndsOp t s.ev.die q o 0
      ∧ ((t.die s.ev.die).arrays)[arrayOf q] = (((s.die s.ev.die).arrays[arrayOf q]).swaps o).forgets o := by
  have hc : ∃ t y, s.completeArray s.ev.die q o = t.endOp s.ev.die q o.id 0 ∧ s.ActsOn t s.ev.die y
      ∧ (s.die s.ev.die).Keeps y ∧ y.op q o.id = some o
      ∧ y.arrays[arrayOf q] = (((s.die s.ev.die).arrays[arrayOf q]).swaps o).forgets o := by
    have h0 : s.ActsOn s s.ev.die ((s.die s.ev.die).withArr (arrayOf q) (s.die s.ev.die).arrays[arrayOf q]) :=
      (Die.withArr_self _ _).symm ▸ State.ActsOn.refl s s.ev.die
    have ha := (h0.modArrIf (arrKind o.ins = .wld && decide (o.first < arrRows (arrKind o.ins) o)) fun a =>
      { a with live := a.shadow, shadow := {} }).modArrIf (o.major = 19 && o.minor = 3) fun a => { a with resume := none }
    refine ⟨_, _, ?_, ha, ⟨rfl, rfl, rfl, rfl⟩, h.here, vset_same _ _ _⟩
    have hno : (((s.die s.ev.die).queues[q]).takeWhile fun p => p.id != o.id).any (fun p => p.st != .ended) = false := by
      rw [h.opId, List.any_eq_false]
      intro p hm
      rw [hahead p hm]
      decide
    unfold State.completeArray
    split
    · next hk' => exact absurd hk' hk
    · dsimp only
      rw [if_neg (by rw [herr]; exact fun h => h rfl), if_neg, hp, if_neg Bool.false_ne_true]
      rw [decide_eq_false (Nat.not_lt.mpr hdue), decide_eq_false (Nat.not_lt.mpr hsteps), hdr, hl, hno]
      exact nofun
  obtain ⟨t, y, hc, ha, hy, ho, harr⟩ := hc
  refine ⟨_, (State.exec_engineOpComplete_array h h1 h16 hne hs).trans (congrArg _ hc), ha.endsOp hy ho hne 0, ?_⟩
  rw [(ha.endOp ho hne 0).die]
  exact (congrArg (fun v : Vector Arr 16 => v[arrayOf q]) (y.arrays_opEnds q o)).trans harr

end

end Sys2Proof.Machine
end

