-- ==== Sys2Proof/Proofs/ArrayRows.lean ====
section
/-! PROOFS. The rows that an array operation does in one cycle, whatever the operation: what they leave of the die (R257,
R260). -/

namespace Sys2Proof.Machine

section
variable {s t u : State} {d : DieId} {x y : Die} {q : Fin 19} {id : Nat} {o : Op}

/-! ### Slots without an error -/

theorem Slot.write_nil {z : Slot} (hb : z.bad = []) : z.write [] = z := by
  cases z
  subst hb
  rfl

theorem State.ActsOn.stepScrub (h : s.ActsOn t d y) {n : Fin 128} (hb : (y.slots[n]).bad = []) (hx : y.bankBad = [])
    (words addrs : List Nat) : s.ActsOn (t.stepScrub d n words addrs) d y := by
  have hs : (t.slot d n).bad = [] := (congrArg (fun x : Die => (x.slots[n]).bad) h.die).trans hb
  unfold State.stepScrub
  rw [hs]
  have he : y.eccRead addrs = y := by
    unfold Die.eccRead
    rw [hx]
    rfl
  have hm := h.modDie fun x => ([] : List (Nat × EccMark)).foldl (fun x e => x.countTm e.2) (x.eccRead addrs)
  rw [List.foldl_nil, he] at hm
  exact hm

/-! ### The rows of a cycle -/

/-- The scales that rows of an operation read, near or far (R57). -/
def Die.rowScale (x : Die) (o : Op) (j : Nat) : Byte :=
  if wordFar o then o.data.getD j 0 else x.bankByte (o.win.byteAddr o.vc j)

/-- What rows of an operation make of its array and its slot. -/
def Die.rowsDone (x : Die) (q : Fin 19) (o : Op) (upto : Nat) : Arr × List (Nat × Byte) × Flg :=
  applyRows (x.feature 1) (arrKind o.ins) x.arrays[arrayOf q] x.slots[slotOf (arrayOf q).val o] o
    (rowScales (arrKind o.ins) o (streamFmt (x.feature 1) o) (x.rowScale o) upto).1 upto

/-- What the rows of a cycle leave of their die. -/
structure Die.Rows (x y : Die) (q : Fin 19) (o : Op) (upto : Nat) : Prop where
  bank : y.bank = x.bank
  folds : y.folds = x.folds
  arrays : y.arrays = vset x.arrays (arrayOf q) (x.rowsDone q o upto).1
  slots : y.slots = vset x.slots (slotOf (arrayOf q).val o) ((x.slots[slotOf (arrayOf q).val o]).write (x.rowsDone q o upto).2.1)
  op : ∃ p, y.op q o.id = some p ∧ p.steps = max o.steps upto ∧ p.progress = o.progress + (upto / 16 - o.steps / 16)

theorem State.runRows_spec (ho : s.op d q o.id = some o) (hx : (s.die d).bankBad = [])
    (hb : ((s.die d).slots[slotOf (arrayOf q).val o]).bad = []) (upto : Nat) :
    ∃ y, s.ActsOn (s.runRows d q o upto) d y ∧ (s.die d).Rows y q o upto := by
  have hget : (if wordFar o then fun j => o.data.getD j 0 else fun j => (s.die d).bankByte (o.win.byteAddr o.vc j))
      = (s.die d).rowScale o := by
    funext j
    unfold Die.rowScale
    split
    · rfl
    · rfl
  have hslot : s.slot d (slotOf (arrayOf q).val o) = (s.die d).slots[slotOf (arrayOf q).val o] := rfl
  unfold State.runRows
  extract_lets m n k x d8 fmt z near sc addrs words u r v w o'
  have hu : s.ActsOn u d x := (State.ActsOn.refl s d).stepScrub hb hx _ _
  have hr : r = (s.die d).rowsDone q o upto := by
    have ha : u.arr d m = (s.die d).arrays[arrayOf q] := congrArg (fun x : Die => x.arrays[arrayOf q]) hu.die
    have hsc : sc.1 = (rowScales (arrKind o.ins) o (streamFmt ((s.die d).feature 1) o) ((s.die d).rowScale o) upto).1 := by
      rw [← hget]
    show applyRows d8 k (u.arr d m) z o sc.1 upto = _
    rw [ha, hsc]
    rfl
  have hv : s.ActsOn v d { s.die d with arrays := vset (s.die d).arrays (arrayOf q) r.1 } :=
    hu.modDie fun x => { x with arrays := vmod x.arrays m fun _ => r.1 }
  have hw : s.ActsOn w d { s.die d with
      arrays := vset (s.die d).arrays (arrayOf q) r.1
      slots := vset (s.die d).slots (slotOf (arrayOf q).val o) (((s.die d).slots[slotOf (arrayOf q).val o]).write r.2.1) } := by
    unfold w
    split
    · next hn =>
      rw [List.isEmpty_iff] at hn
      rw [hn, Slot.write_nil hb, vset_self]
      exact hv
    · exact hv.modDie fun x => { x with slots := vmod x.slots n fun t => t.write r.2.1 }
  have hno : ¬ (z.bad.any (fun e => e.2 == .double && words.contains e.1) || (x.eccBad addrs).isSome) = true := by
    have h1 : z.bad = [] := hb
    have h2 : x.eccBad addrs = none := by
      unfold Die.eccBad
      rw [show x.bankBad = [] from hx]
      rfl
    rw [h1, h2]
    exact nofun
  rw [if_neg hno]
  have hf := ((hw.modOp q o.id fun _ => o').putOpRecord q o' 2).opBytes o r.2.1.length
  have ha : vset (s.die d).arrays (arrayOf q) r.1 = vset (s.die d).arrays (arrayOf q) ((s.die d).rowsDone q o upto).1 := by rw [hr]
  have hs : vset (s.die d).slots (slotOf (arrayOf q).val o) (((s.die d).slots[slotOf (arrayOf q).val o]).write r.2.1)
      = vset (s.die d).slots (slotOf (arrayOf q).val o)
        (((s.die d).slots[slotOf (arrayOf q).val o]).write ((s.die d).rowsDone q o upto).2.1) := by rw [hr]
  have ho' : o'.id = o.id ∧ o'.steps = max o.steps upto ∧ o'.progress = o.progress + (upto / 16 - o.steps / 16) :=
    ⟨rfl, rfl, rfl⟩
  clear_value o' u v w r
  obtain ⟨hid, hsteps, hprog⟩ := ho'
  refine ⟨_, hf, rfl, rfl, ha, hs, o', ?_, hsteps, hprog⟩
  refine (Die.op_modOp { s.die d with
      arrays := vset (s.die d).arrays (arrayOf q) r.1
      slots := vset (s.die d).slots (slotOf (arrayOf q).val o) (((s.die d).slots[slotOf (arrayOf q).val o]).write r.2.1) }
    q o.id (fun _ => o') fun _ _ => hid).trans ?_
  exact congrArg (Option.map fun _ => o') ho

/-! ### A cycle of an operation whose rows are due -/

theorem State.stepCycle_due {r : Nat} (hr : r = min (arrRows (arrKind o.ins) o) ((o.steps / 16 + 1) * 16)) (hf : o.fetching = false)
    (he : o.err = 0) (hs : o.stopAt = none) (hl : o.left = []) (hlt : o.steps < arrRows (arrKind o.ins) o)
    (hd : s.rowsDue d q o r ≤ s.cycle) : s.stepCycle d q o = s.runRows d q o r := by
  unfold State.stepCycle
  split
  · next h =>
    rw [h] at hlt
    exact absurd hlt (Nat.not_lt_zero _)
  · dsimp only
    rw [← hr, if_pos]
    rw [hf, he, hs, hl, decide_eq_true hlt, decide_eq_true hd]
    rfl

/-! ### The rows -/

theorem mem_rowsFrom {a b i : Nat} : i ∈ (List.range b).drop a ↔ a ≤ i ∧ i < b := by
  rw [List.mem_drop_iff_getElem]
  constructor
  · rintro ⟨k, hk, rfl⟩
    simp only [List.length_range] at hk
    simp only [List.getElem_range]
    omega
  · rintro ⟨h1, h2⟩
    refine ⟨i - a, ?_, ?_⟩
    · rw [List.length_range]
      omega
    · rw [List.getElem_range]
      omega

theorem rowsFrom_nodup (a b : Nat) : ((List.range b).drop a).Nodup := List.nodup_range.sublist (List.drop_sublist _ _)

theorem rowsFrom_headD {a b : Nat} (h : a < b) : ((List.range b).drop a).headD 0 = a := by
  rw [List.headD_eq_head?_getD, List.head?_drop, List.getElem?_range h]
  rfl

/-- The array with which the rows of a cycle begin. -/
def Arr.opened (a : Arr) (d8 : Bool) (k : ArrKind) (o : Op) : Arr := if o.steps = 0 then a.openRun k o (streamFmt d8 o) else a

section
variable {d8 : Bool} {k : ArrKind} {a : Arr} {z : Slot} {sc : List Nat} {upto : Nat}

theorem Arr.opened_eq (h : o.steps < upto) : (if o.steps = 0 && 0 < upto then a.openRun k o (streamFmt d8 o) else a) = a.opened d8 k o := by
  unfold Arr.opened
  refine if_congr ?_ rfl rfl
  rw [decide_eq_true (show 0 < upto by omega), Bool.and_true, decide_eq_true_iff]

theorem applyRows_wld (h : o.steps < upto) : applyRows d8 .wld a z o sc upto
    = ((a.opened d8 .wld o).loadRows z (streamFmt d8 o) sc (wordM o) ((List.range upto).drop o.steps), [], 0) := by
  unfold applyRows
  dsimp only
  rw [Arr.opened_eq h]

/-- The rows of a product or a distance, one after the other (R265, R267). -/
def Arr.fed (a : Arr) (d8 : Bool) (k : ArrKind) (o : Op) (z : Slot) (sc : List Nat) (upto : Nat) : Arr × Flg :=
  ((List.range upto).drop o.steps).foldl (fun (r : Arr × Flg) i =>
    let y := r.1.feedRow o.fmt.sat (metricOf k o) (streamFmt d8 o) (wordK o) i (streamRow z (streamFmt d8 o) sc (wordK o) o.steps i)
    (y.1, r.2 ||| y.2)) (a, 0)

theorem applyRows_feed (h : o.steps < upto) (hk : k = .mul ∨ k = .dist) : applyRows d8 k a z o sc upto
    = (((a.opened d8 k o).fed d8 k o z sc upto).1, [], ((a.opened d8 k o).fed d8 k o z sc upto).2) := by
  unfold applyRows
  dsimp only
  rw [Arr.opened_eq h]
  obtain rfl | rfl := hk
  · rfl
  · rfl

/-- The rows of a centroid operation, one after the other (R269). -/
def Arr.gathered (a : Arr) (d8 : Bool) (o : Op) (z : Slot) (upto : Nat) : Arr × Flg :=
  ((List.range upto).drop o.steps).foldl (fun (r : Arr × Flg) i =>
    let y := r.1.centRow z (streamFmt d8 o) (bits o.va 32 32) (wordK o) i o.got
    (y.1, r.2 ||| y.2)) (a, 0)

theorem applyRows_cent (h : o.steps < upto) : applyRows d8 .cent a z o sc upto
    = (((a.opened d8 .cent o).gathered d8 o z upto).1, [], ((a.opened d8 .cent o).gathered d8 o z upto).2) := by
  unfold applyRows
  dsimp only
  rw [Arr.opened_eq h]
  rfl

theorem applyRows_drain (hk : k = .drn ∨ k = .best ∨ k = .cdrn) : applyRows d8 k a z o sc upto
    = drainRows d8 k a z o ((List.range upto).drop o.steps) := by
  unfold applyRows
  dsimp only
  obtain rfl | rfl | rfl := hk
  · exact congrArg (fun a => drainRows d8 .drn a z o _) (ite_self a)
  · exact congrArg (fun a => drainRows d8 .best a z o _) (ite_self a)
  · exact congrArg (fun a => drainRows d8 .cdrn a z o _) (ite_self a)

end

end

end Sys2Proof.Machine
end

