-- ==== Sys2Proof/Proofs/RowRules.lean ====
section
/-! PROOFS. What the rows of each array operation make of the weights, the accumulators, the counts and the slot (R264 to
R270). -/

namespace Sys2Proof.Machine

section
variable {o : Op} {d8 : Bool} {k : ArrKind} {a : Arr} {z : Slot} {upto : Nat}

/-- Whether an operation does a row in the cycle that takes it up to a row. -/
def Op.inCycle (o : Op) (upto i : Nat) : Bool := decide (o.steps ≤ i) && decide (i < upto)

/-- Whether a cycle's rows are the first of an operation. -/
def Op.atFirst (o : Op) : Bool := o.steps == 0

theorem Op.mem_rows_iff {i : Nat} : i ∈ (List.range upto).drop o.steps ↔ o.inCycle upto i = true := by
  unfold Op.inCycle
  rw [mem_rowsFrom, Bool.and_eq_true, decide_eq_true_iff, decide_eq_true_iff]

theorem Op.atFirst_iff : o.atFirst = true ↔ o.steps = 0 := beq_iff_eq

theorem Arr.opened_first (h : o.atFirst = true) : a.opened d8 k o = a.openRun k o (streamFmt d8 o) := if_pos (Op.atFirst_iff.mp h)

theorem Arr.opened_later (h : o.atFirst = false) : a.opened d8 k o = a := by
  refine if_neg fun hs => ?_
  rw [Op.atFirst_iff.mpr hs] at h
  cases h

theorem Arr.Canonical.opened (h : a.Canonical) : (a.opened d8 k o).Canonical := by
  unfold Arr.opened
  split
  · exact h.openRun _ _ _
  · exact h

/-! ### Weights (R264) -/

theorem Arr.opened_wld : a.opened d8 .wld o = { a with shadow := (a.opened d8 .wld o).shadow } := by
  cases h : o.atFirst with
  | true => rw [Arr.opened_first h]; rfl
  | false => rw [Arr.opened_later h]

theorem Arr.opened_shadow : (o.atFirst = true → (a.opened d8 .wld o).shadow.fmt = streamFmt d8 o)
    ∧ ∀ i, Sparse.read (a.opened d8 .wld o).shadow.w 0 i = (if o.atFirst then 0 else Sparse.read a.shadow.w 0 i)
      ∧ Sparse.read (a.opened d8 .wld o).shadow.scale 0x3C00 i = (if o.atFirst then 0x3C00 else Sparse.read a.shadow.scale 0x3C00 i) := by
  cases h : o.atFirst with
  | true =>
    rw [Arr.opened_first h]
    exact ⟨fun _ => rfl, fun i => ⟨rfl, rfl⟩⟩
  | false =>
    rw [Arr.opened_later h]
    exact ⟨fun h => Bool.noConfusion h, fun i => ⟨rfl, rfl⟩⟩

theorem applyRows_wld_spec (ha : a.Canonical) (h : o.steps < upto) (get : Nat → Byte) :
    let fmt := streamFmt d8 o
    let sc := (rowScales .wld o fmt get upto).1
    let b := (applyRows d8 .wld a z o sc upto).1
    (b.live = a.live ∧ b.acc = a.acc ∧ b.cnt = a.cnt) ∧ (o.atFirst = true → b.shadow.fmt = fmt)
    ∧ ∀ i j, j < 128 →
      Sparse.read b.shadow.w 0 (128 * i + j) = (if o.inCycle upto i = true ∧ j < wordM o then BitVec.ofNat 16 (z.elem i j fmt.width)
        else if o.atFirst then 0 else Sparse.read a.shadow.w 0 (128 * i + j))
      ∧ Sparse.read b.shadow.scale 0x3C00 (128 * i + j) = (if o.inCycle upto i = true ∧ j < wordM o
          then BitVec.ofNat 16 ((streamRow z fmt sc (rowLen .wld o) o.steps i).scales.getD j 0)
        else if o.atFirst then 0x3C00 else Sparse.read a.shadow.scale 0x3C00 (128 * i + j)) := by
  intro fmt sc b
  obtain ⟨hrest, hr⟩ := Arr.loadRows_reads (ha.opened (d8 := d8) (k := .wld) (o := o)).shadow z fmt sc (wordM_le o)
    (rows := (List.range upto).drop o.steps) o.steps (.inl (rowsFrom_headD h)) fun i hi =>
      streamRow_scales_length .wld o fmt get z (mem_rowsFrom.mp hi).1 (mem_rowsFrom.mp hi).2
  have hb : b = (a.opened d8 .wld o).loadRows z fmt sc (wordM o) ((List.range upto).drop o.steps) :=
    congrArg Prod.fst (applyRows_wld h)
  rw [← hb] at hrest hr
  obtain ⟨hfmt, hread⟩ := Arr.opened_shadow (a := a) (d8 := d8) (o := o)
  have hop := Arr.opened_wld (a := a) (d8 := d8) (o := o)
  clear_value b sc
  refine ⟨?_, fun hf => ?_, fun i j hj => ⟨?_, ?_⟩⟩
  · rw [hrest, hop]
    exact ⟨rfl, rfl, rfl⟩
  · rw [hr.rest]
    exact hfmt hf
  · rw [hr.w_ i j hj, (hread _).1]
    exact if_congr (and_congr_left fun _ => Op.mem_rows_iff) rfl rfl
  · rw [hr.scale_ i j hj, (hread _).2]
    exact if_congr (and_congr_left fun _ => Op.mem_rows_iff) rfl rfl

/-! ### Products and distances (R265, R267) -/

/-- Whether an array takes an operation's rows in integer mode. -/
def Arr.intRun (a : Arr) (d8 : Bool) (o : Op) : Bool :=
  if o.atFirst then isInt8 (streamFmt d8 o) && isInt8 a.live.fmt && !wordScaled o && !a.live.scaled else !a.float

/-- What an accumulator holds as the rows of a cycle begin. -/
def Arr.wasAt (a : Arr) (o : Op) (i j : Nat) : BitVec 32 := if o.atFirst = true ∧ wordClear o = true then 0 else a.accAt i j

theorem Arr.opened_feed (hk : k = .mul ∨ k = .dist) : (a.opened d8 k o).live = a.live ∧ (a.opened d8 k o).shadow = a.shadow
    ∧ (a.opened d8 k o).cnt = a.cnt ∧ (a.opened d8 k o).float = (!a.intRun d8 o)
    ∧ (o.atFirst = true → k = .dist → ((a.opened d8 k o).metric).val = metricOf k o)
    ∧ ∀ i j, (a.opened d8 k o).accAt i j = a.wasAt o i j := by
  have hm (n : Nat) : (Fin.ofNat 3 (metricOf k o)).val = metricOf k o := by
    unfold metricOf
    split
    · exact Nat.mod_eq_of_lt (by omega)
    · rfl
  unfold Arr.intRun Arr.wasAt
  cases h : o.atFirst with
  | true =>
    rw [Arr.opened_first h]
    have ho : a.openRun k o (streamFmt d8 o) = { a with
        float := !(isInt8 (streamFmt d8 o) && isInt8 a.live.fmt && !wordScaled o && !a.live.scaled)
        metric := if k = .dist then Fin.ofNat 3 (metricOf k o) else a.metric
        acc := if wordClear o then [] else a.acc } := by
      obtain rfl | rfl := hk
      · rfl
      · rfl
    rw [ho]
    refine ⟨rfl, rfl, rfl, rfl, fun _ hd => ?_, fun i j => ?_⟩
    · show (if k = .dist then Fin.ofNat 3 (metricOf k o) else a.metric).val = _
      rw [if_pos hd, hm 0]
    · show Sparse.read (if wordClear o = true then [] else a.acc) 0 _ = _
      by_cases hc : wordClear o = true
      · rw [if_pos hc, if_pos ⟨rfl, hc⟩]
        rfl
      · rw [if_neg hc, if_neg fun h => hc h.2]
        rfl
  | false =>
    rw [Arr.opened_later h]
    refine ⟨rfl, rfl, rfl, (Bool.not_not _).symm, fun h => Bool.noConfusion h, fun i j => (if_neg fun h => Bool.noConfusion h.1).symm⟩

theorem applyRows_feed_spec (ha : a.Canonical) (h : o.steps < upto) (hk : k = .mul ∨ k = .dist) (get : Nat → Byte) :
    let fmt := streamFmt d8 o
    let sc := (rowScales k o fmt get upto).1
    let row (i : Nat) : ActRow := streamRow z fmt sc (rowLen k o) o.steps i
    let b := (applyRows d8 k a z o sc upto).1
    (b.live = a.live ∧ b.shadow = a.shadow) ∧ b.cnt = a.cnt ∧ b.float = (!a.intRun d8 o)
    ∧ (o.atFirst = true → k = .dist → b.metric.val = metricOf k o)
    ∧ ∀ i j, j < 128 →
      (o.inCycle upto i = false → b.accAt i j = a.wasAt o i j)
      ∧ (o.inCycle upto i = true → a.live.poison = true → b.accAt i j = poisonValue (!a.intRun d8 o))
      ∧ (o.inCycle upto i = true → a.live.poison = false →
        b.accAt i j = BitVec.ofNat 32
          (cellRun (a.intRun d8 o) o.fmt.sat (metricOf k o) fmt a.live.fmt (row i) (a.live.col j (wordK o)) (a.wasAt o i j).toNat).1
        ∧ (a.intRun d8 o = true → o.fmt.sat = false → metricOf k o = 0 → b.accAt i j = a.wasAt o i j + BitVec.ofInt 32
          ((List.range (wordK o)).map fun c => intVal fmt (z.elem i c fmt.width)
            * intVal a.live.fmt (Sparse.read a.live.w 0 (128 * c + j)).toNat).sum)) := by
  intro fmt sc row b
  have hlen : rowLen k o = wordK o := by
    obtain rfl | rfl := hk
    · rfl
    · rfl
  obtain ⟨hlive, hshadow, hcnt, hfloat, hmetric, hacc⟩ := Arr.opened_feed (a := a) (d8 := d8) (o := o) hk
  have hb : b = ((a.opened d8 k o).fed d8 k o z sc upto).1 := congrArg Prod.fst (applyRows_feed h hk)
  have hf := Arr.feedRows_acc (ha.opened (d8 := d8) (k := k) (o := o)).acc o.fmt.sat (metricOf k o) fmt (wordK o)
    (fun i => streamRow z fmt sc (wordK o) o.steps i) (rowsFrom_nodup o.steps upto) 0
  have hf' : (a.opened d8 k o).AccIs b _ := hb.symm ▸ hf
  have hs (i : Nat) (hi : o.inCycle upto i = true) : (row i).scales.length = wordK o := by
    have hm := mem_rowsFrom.mp (Op.mem_rows_iff.mpr hi)
    exact (streamRow_scales_length k o fmt get z hm.1 hm.2).trans hlen
  have hrow (i : Nat) : row i = streamRow z fmt sc (wordK o) o.steps i := by
    show streamRow z fmt sc (rowLen k o) o.steps i = _
    rw [hlen]
  clear hf hb
  clear_value b row sc
  refine ⟨?_, ?_, ?_, fun h1 h2 => ?_, fun i j hj => ?_⟩
  · rw [hf'.rest]
    exact ⟨hlive, hshadow⟩
  · rw [hf'.rest]
    exact hcnt
  · rw [hf'.rest]
    exact hfloat
  · rw [hf'.rest]
    exact hmetric h1 h2
  · have hat := hf'.at_ i j hj
    rw [hlive, hfloat, hacc, Bool.not_not, ← hrow] at hat
    refine ⟨fun hi => ?_, fun hi hp => ?_, fun hi hp => ?_⟩
    · rw [hat, if_neg]
      rw [Op.mem_rows_iff, hi]
      exact Bool.false_ne_true
    · rw [hat, if_pos (Op.mem_rows_iff.mpr hi), if_pos hp]
    · rw [if_pos (Op.mem_rows_iff.mpr hi), hp, if_neg Bool.false_ne_true] at hat
      refine ⟨hat, fun hint hsat hm => hat.trans ?_⟩
      have hr : row i = ⟨(List.range (wordK o)).map fun c => z.elem i c fmt.width, (row i).scales⟩ := by
        rw [hrow]
        rfl
      rw [hint, hsat, hr, cellRun_dot _ hm fmt a.live.fmt (fun c => z.elem i c fmt.width) _ (hs i hi), BitVec.ofNat_toNat,
        BitVec.setWidth_eq]

/-! ### Centroids (R269) -/

theorem Arr.opened_cent : (a.opened d8 .cent o).live = a.live ∧ (a.opened d8 .cent o).shadow = a.shadow
    ∧ (o.atFirst = true → (a.opened d8 .cent o).float = true)
    ∧ (∀ i j, (a.opened d8 .cent o).accAt i j = a.wasAt o i j)
    ∧ ∀ i, Sparse.read (a.opened d8 .cent o).cnt 0 i = if o.atFirst = true ∧ wordClear o = true then 0 else Sparse.read a.cnt 0 i := by
  unfold Arr.wasAt
  cases h : o.atFirst with
  | true =>
    rw [Arr.opened_first h]
    by_cases hc : wordClear o = true
    · rw [show a.openRun .cent o (streamFmt d8 o) = { a with float := true, acc := [], cnt := [] } from if_pos hc]
      exact ⟨rfl, rfl, fun _ => rfl, fun i j => (if_pos ⟨rfl, hc⟩).symm, fun i => (if_pos ⟨rfl, hc⟩).symm⟩
    · rw [show a.openRun .cent o (streamFmt d8 o) = { a with float := true } from if_neg hc]
      exact ⟨rfl, rfl, fun _ => rfl, fun i j => (if_neg fun h => hc h.2).symm, fun i => (if_neg fun h => hc h.2).symm⟩
  | false =>
    rw [Arr.opened_later h]
    exact ⟨rfl, rfl, fun h => Bool.noConfusion h, fun i j => (if_neg fun h => Bool.noConfusion h.1).symm,
      fun i => (if_neg fun h => Bool.noConfusion h.1).symm⟩

theorem applyRows_cent_spec (ha : a.Canonical) (h : o.steps < upto) (sc : List Nat) :
    let fmt := streamFmt d8 o
    let b := (applyRows d8 .cent a z o sc upto).1
    (b.live = a.live ∧ b.shadow = a.shadow) ∧ (o.atFirst = true → b.float = true) ∧ ∀ c, c < 128 →
      let mine := ((List.range upto).drop o.steps).filter fun i => centroidOf o.got (o.va.extractLsb' 32 32).toNat i == c
      Sparse.read b.cnt 0 c
        = mine.foldl (fun z _ => satInc z) (if o.atFirst = true ∧ wordClear o = true then 0 else Sparse.read a.cnt 0 c)
      ∧ ∀ j, j < 128 → b.accAt c j = if j < wordK o then mine.foldl (fun w i =>
            BitVec.ofNat 32 (cellStep w.toNat (elemVal fmt false (z.elem i j fmt.width),
              sigFlag (elemVal fmt false (z.elem i j fmt.width)))).1) (a.wasAt o c j)
          else a.wasAt o c j := by
  intro fmt b
  obtain ⟨hlive, hshadow, hfloat, hacc, hcnt⟩ := Arr.opened_cent (a := a) (d8 := d8) (o := o)
  have hb : b = ((a.opened d8 .cent o).gathered d8 o z upto).1 := congrArg Prod.fst (applyRows_cent h)
  have hc := ha.opened (d8 := d8) (k := .cent) (o := o)
  have hs := Arr.centRows_summed hc.acc hc.cnt z fmt (bits o.va 32 32) (wordK_le o) o.got ((List.range upto).drop o.steps) 0
  have hs' : (a.opened d8 .cent o).Summed b _ _ := hb.symm ▸ hs
  rw [bits_eq] at hs'
  clear hs hb
  clear_value b
  refine ⟨?_, fun hf => ?_, fun c hc => ⟨?_, fun j hj => ?_⟩⟩
  · rw [hs'.rest]
    exact ⟨hlive, hshadow⟩
  · rw [hs'.rest]
    exact hfloat hf
  · rw [hs'.cnt c hc, hcnt]
  · rw [hs'.acc c j hc hj, hacc]

/-! ### Drains (R266, R268, R270) -/

theorem applyRows_drn_none (hk : k = .drn ∨ k = .cdrn) (hd : drainFmt d8 o = none) (sc : List Nat) :
    (applyRows d8 k a z o sc upto).1 = a ∧ (applyRows d8 k a z o sc upto).2.1 = [] := by
  rw [applyRows_drain (hk.imp_right .inr)]
  exact drainRows_none hk a z hd (rowsFrom_nodup _ _)

theorem flatMap_ite_nil {α β : Type} (l : List α) (c : Prop) [Decidable c] (f : α → List β) :
    (l.flatMap fun i => if c then [] else f i) = if c then [] else l.flatMap f := by
  split
  · exact List.flatMap_eq_nil_iff.mpr fun _ _ => rfl
  · rfl

theorem applyRows_drn_spec (ha : a.Canonical) {y : Ty} (hd : drainFmt d8 o = some y) (hb : z.bad = []) (sc : List Nat) :
    let b := (applyRows d8 .drn a z o sc upto).1
    (b.live = a.live ∧ b.shadow = a.shadow) ∧ b.cnt = a.cnt
    ∧ (∀ i j, j < 128 → b.accAt i j = if o.inCycle upto i = true ∧ wordClear o = true ∧ j < wordK o then 0 else a.accAt i j)
    ∧ z.write (applyRows d8 .drn a z o sc upto).2.1 = if o.va.getLsbD 3 then z
      else z.write (((List.range upto).drop o.steps).flatMap fun i => (List.range (wordK o)).flatMap fun j =>
        z.put i j y.width (drainElem a.float y o.fmt (a.accAt i j)).1) := by
  intro b
  obtain ⟨hacc, hout⟩ := drainRows_drn ha.acc z hd (rowsFrom_nodup o.steps upto)
  rw [← applyRows_drain (sc := sc) (.inl rfl)] at hacc hout
  refine ⟨?_, ?_, fun i j hj => ?_, ?_⟩
  · show (applyRows d8 .drn a z o sc upto).1.live = _ ∧ (applyRows d8 .drn a z o sc upto).1.shadow = _
    rw [hacc.rest]
    exact ⟨rfl, rfl⟩
  · show (applyRows d8 .drn a z o sc upto).1.cnt = _
    rw [hacc.rest]
  · rw [hacc.at_ i j hj]
    exact if_congr (and_congr_left fun _ => Op.mem_rows_iff) rfl rfl
  · rw [hout, flatMap_ite_nil, bitAt_eq]
    split
    · exact Slot.write_nil hb
    · rfl

theorem slotAddrs_mod (off n : Nat) : slotAddrs (off % 32768) n = slotAddrs off n :=
  List.map_congr_left fun k _ => by omega

theorem applyRows_best_spec (ha : a.Canonical) (hb : z.bad = []) (sc : List Nat) :
    let b := (applyRows d8 .best a z o sc upto).1
    (b.live = a.live ∧ b.shadow = a.shadow) ∧ b.cnt = a.cnt
    ∧ (∀ i j, j < 128 → b.accAt i j = if o.inCycle upto i = true ∧ o.va.getLsbD 5 = true then 0 else a.accAt i j)
    ∧ z.write (applyRows d8 .best a z o sc upto).2.1 = if o.va.getLsbD 3 then z
      else z.write (((List.range upto).drop o.steps).flatMap fun i =>
        let l := (bestRecord a (bestSmall a o) (o.va.getLsbD 7) (o.va.getLsbD 6) (wordK o) i).flatMap fun w => bytesOfNat 4 w.toNat
        (slotAddrs ((if o.va.getLsbD 6 then 16 else 8) * i) l.length).zip l) := by
  intro b
  obtain ⟨hacc, hout⟩ := drainRows_best (d8 := d8) ha.acc z o (rowsFrom_nodup o.steps upto)
  rw [← applyRows_drain (sc := sc) (.inr (.inl rfl))] at hacc hout
  refine ⟨?_, ?_, fun i j hj => ?_, ?_⟩
  · show (applyRows d8 .best a z o sc upto).1.live = _ ∧ (applyRows d8 .best a z o sc upto).1.shadow = _
    rw [hacc.rest]
    exact ⟨rfl, rfl⟩
  · show (applyRows d8 .best a z o sc upto).1.cnt = _
    rw [hacc.rest]
  · rw [hacc.at_ i j hj, bitAt_eq]
    exact if_congr (and_congr_left fun _ => Op.mem_rows_iff) rfl rfl
  · rw [hout, flatMap_ite_nil, bitAt_eq]
    split
    · exact Slot.write_nil hb
    · refine congrArg z.write (List.flatMap_congr fun i _ => ?_)
      rw [slotAddrs_mod]
      unfold bestSize Arr.bestBytes
      rw [bitAt_eq, bitAt_eq]

theorem applyRows_cdrn_spec (ha : a.Canonical) {y : Ty} (hd : drainFmt d8 o = some y) (sc : List Nat) :
    let b := (applyRows d8 .cdrn a z o sc upto).1
    (b.live = a.live ∧ b.shadow = a.shadow)
    ∧ (∀ c j, j < 128 → b.accAt c j = if o.inCycle upto c = true ∧ wordClear o = true then 0 else a.accAt c j)
    ∧ (∀ c, Sparse.read b.cnt 0 c = if o.inCycle upto c = true ∧ wordClear o = true then 0 else Sparse.read a.cnt 0 c)
    ∧ (applyRows d8 .cdrn a z o sc upto).2.1 = ((List.range upto).drop o.steps).flatMap fun c =>
      if Sparse.read a.cnt 0 c = 0 then [] else (List.range (wordM o)).flatMap fun j =>
        z.put j c y.width (if o.va.getLsbD 5 then drainElem a.float y o.fmt (a.accAt c j)
          else meanElem a.float y o.fmt (a.accAt c j) (Sparse.read a.cnt 0 c)).1 := by
  intro b
  obtain ⟨hdr, hout⟩ := drainRows_cdrn ha.acc ha.cnt z hd (rowsFrom_nodup o.steps upto)
  rw [← applyRows_drain (sc := sc) (.inr (.inr rfl))] at hdr hout
  refine ⟨?_, fun c j hj => ?_, fun c => ?_, ?_⟩
  · show (applyRows d8 .cdrn a z o sc upto).1.live = _ ∧ (applyRows d8 .cdrn a z o sc upto).1.shadow = _
    rw [hdr.rest]
    exact ⟨rfl, rfl⟩
  · rw [hdr.acc c j hj]
    exact if_congr (and_congr_left fun _ => Op.mem_rows_iff) rfl rfl
  · rw [hdr.cnt c]
    exact if_congr (and_congr_left fun _ => Op.mem_rows_iff) rfl rfl
  · rw [hout, bitAt_eq]

/-! ### What the rows of a cycle are of a die -/

/-- The rows of a stream put nothing into the slot. -/
theorem applyRows_wld_out (h : o.steps < upto) {sc : List Nat} : (applyRows d8 .wld a z o sc upto).2.1 = [] := by
  rw [applyRows_wld h]

theorem applyRows_feed_out (h : o.steps < upto) (hk : k = .mul ∨ k = .dist) {sc : List Nat} :
    (applyRows d8 k a z o sc upto).2.1 = [] := by
  rw [applyRows_feed h hk]

theorem applyRows_cent_out (h : o.steps < upto) {sc : List Nat} : (applyRows d8 .cent a z o sc upto).2.1 = [] := by
  rw [applyRows_cent h]

/-- The rows of a cycle leave the live weights, and but for `mwld` the shadow weights too. -/
theorem applyRows_weights (ha : a.Canonical) (h : o.steps < upto) (hk : k ≠ .slot ∧ k ≠ .resume) (hb : z.bad = []) (get : Nat → Byte) :
    let b := (applyRows d8 k a z o (rowScales k o (streamFmt d8 o) get upto).1 upto).1
    b.live = a.live ∧ (k ≠ .wld → b.shadow = a.shadow) := by
  have hnone (k : ArrKind) (hk : k = .drn ∨ k = .cdrn) (hd : drainFmt d8 o = none) (sc : List Nat) :
      (applyRows d8 k a z o sc upto).1.live = a.live ∧ (applyRows d8 k a z o sc upto).1.shadow = a.shadow := by
    rw [(applyRows_drn_none hk hd sc).1]
    exact ⟨rfl, rfl⟩
  cases k with
  | wld => exact ⟨(applyRows_wld_spec ha h get).1.1, fun h => absurd rfl h⟩
  | mul => exact (applyRows_feed_spec ha h (.inl rfl) get).1.imp_right fun h _ => h
  | dist => exact (applyRows_feed_spec ha h (.inr rfl) get).1.imp_right fun h _ => h
  | cent => exact (applyRows_cent_spec ha h _).1.imp_right fun h _ => h
  | drn =>
    refine And.imp_right (fun h _ => h) ?_
    cases hd : drainFmt d8 o with
    | none => exact hnone .drn (.inl rfl) hd _
    | some y => exact (applyRows_drn_spec ha hd hb _).1
  | best => exact (applyRows_best_spec ha hb _).1.imp_right fun h _ => h
  | cdrn =>
    refine And.imp_right (fun h _ => h) ?_
    cases hd : drainFmt d8 o with
    | none => exact hnone .cdrn (.inr rfl) hd _
    | some y => exact (applyRows_cdrn_spec ha hd _).1
  | resume => exact absurd rfl hk.2
  | slot => exact absurd rfl hk.1

theorem Die.rowsDone_of {x : Die} {q : Fin 19} (hk : arrKind o.ins = k) (upto : Nat) :
    x.rowsDone q o upto = applyRows (x.feature 1) k x.arrays[arrayOf q] x.slots[slotOf (arrayOf q).val o] o
      (rowScales k o (streamFmt (x.feature 1) o) (x.rowScale o) upto).1 upto := by
  subst hk
  rfl

end

end Sys2Proof.Machine
end

