-- ==== Sys2Proof/Proofs/RemoteSends.lean ====
section
/-! PROOFS. Accesses of the streams go out: their number, their destination, their time limit, and the split of an access at
the end of a translation (R298, R306, R309, R320, R324, R326). -/

namespace Sys2Proof.Machine

section
variable {s t u : State} {a c r : RAcc} {o : Op}

/-! ### Accesses and pairs of the panel -/

theorem State.acc_of_panel (h : t.panel = u.panel) (id : Nat) : t.acc id = u.acc id := by
  unfold State.acc
  rw [h]

theorem State.pair_of_panel (h : t.panel = u.panel) (a : RAcc) : t.pair a = u.pair a := by
  unfold State.pair
  rw [h]

theorem State.pair_newPair {b : RAcc} (s : State) (h : a.newPair = b.newPair) : s.pair a = s.pair b := by
  unfold State.pair
  rw [h]

theorem State.sameBytes_of_eq (hd : t.dies = s.dies) (hm : t.mem = s.mem) : s.SameBytes t := by
  refine ⟨fun a => by rw [hm], fun d a => ?_⟩
  unfold State.die
  rw [hd]

/-! ### Sending with the next number -/

/-- An access is out: it carries the next number of its pair, its commit is on the way, and its time limit runs. -/
structure State.SentAs (s t : State) (r : RAcc) : Prop where
  dies : t.dies = s.dies
  mem : t.mem = s.mem
  stations : t.stations = s.stations
  acc : ∃ b ord, t.acc r.id = some b
    ∧ b = { r with ord := ord, st := .sent, seq := (s.pair r).next, sentAt := s.cycle, heard := (s.pair r).heard }
  next : (t.pair r).next = (s.pair r).next + 1
  commit : ∃ e ∈ t.agenda, e.act = .remoteAccessCommit ∧ e.arg.id = r.id ∧ s.cycle < e.due
  timeout : (s.die r.src).mem.timeout ≠ 0 → ∃ e ∈ t.agenda, e.act = .remoteTimeout ∧ e.arg.id = r.id ∧ e.arg.seq = s.cycle
    ∧ e.due = s.cycle + 1024 * (s.die r.src).mem.timeout.toNat

/-- The record of an access that is put out. -/
def RAcc.numbered (a : RAcc) (p : Pair) (cycle : Nat) (x : RAcc) : RAcc :=
  { a with ord := x.ord, st := .sent, seq := p.next, sentAt := cycle, heard := p.heard }

/-- What putting an access out makes of the tables of the panel. -/
def State.putOutPanel (s : State) (a : RAcc) : Panel :=
  ((s.setPair { s.pair a with next := (s.pair a).next + 1 }).modAcc a.id (a.numbered (s.pair a) s.cycle)).panel

theorem State.putOut_frame (s : State) (a : RAcc) : (s.putOut a).dies = s.dies ∧ (s.putOut a).mem = s.mem
    ∧ (s.putOut a).stations = s.stations ∧ (s.putOut a).panel = s.putOutPanel a := by
  unfold State.putOut
  dsimp only
  split
  · exact ⟨rfl, rfl, rfl, rfl⟩
  · exact ⟨rfl, rfl, rfl, rfl⟩

theorem State.pair_numbered (s : State) (p : Pair) (hp : p.same a.newPair = true) (id : Nat) (f : RAcc → RAcc) :
    ((s.setPair p).modAcc id f).pair a = p :=
  (show ((s.setPair p).modAcc id f).pair a = (s.setPair p).pair a from rfl).trans (State.pair_setPair _ p a hp)

/-- The pair of an access is of its stream, its destination and its incarnation. -/
theorem State.pair_same (s : State) (a : RAcc) : (s.pair a).same a.newPair = true := by
  unfold State.pair
  cases h : s.panel.pairs.find? fun p => p.same a.newPair with
  | none => exact Pair.same_self _
  | some p => exact List.find?_some (p := fun p : Pair => p.same a.newPair) h

theorem State.putOut_agenda (s : State) (a : RAcc) :
    { due := s.cycle + 1 + Config.delay s.freeCtr, act := .remoteAccessCommit, arg := { id := a.id } } ∈ (s.putOut a).agenda
    ∧ ((s.die a.src).mem.timeout ≠ 0 → { due := s.cycle + 1024 * (s.die a.src).mem.timeout.toNat, act := .remoteTimeout
                                         arg := { die := a.src, id := a.id, seq := s.cycle } } ∈ (s.putOut a).agenda) := by
  unfold State.putOut
  dsimp only
  split
  case isTrue h =>
    refine ⟨List.mem_append_right _ (List.mem_singleton_self _), fun h0 => absurd ?_ h0⟩
    exact BitVec.eq_of_toNat_eq h
  case isFalse =>
    exact ⟨List.mem_append_left _ (List.mem_append_right _ (List.mem_singleton_self _)),
      fun _ => List.mem_append_right _ (List.mem_singleton_self _)⟩

theorem State.putOut_sent (hc : s.acc a.id = some c) : s.SentAs (s.putOut a) a := by
  obtain ⟨hd, hm, hst, hp⟩ := s.putOut_frame a
  obtain ⟨hcom, htim⟩ := s.putOut_agenda a
  have hacc : (s.putOut a).acc a.id = some (a.numbered (s.pair a) s.cycle c) := by
    refine (State.acc_of_panel (u := (s.setPair { s.pair a with next := (s.pair a).next + 1 }).modAcc a.id
      (a.numbered (s.pair a) s.cycle)) hp a.id).trans ?_
    refine (State.acc_modAcc _ a.id (a.numbered (s.pair a) s.cycle) fun _ _ => rfl).trans ?_
    exact congrArg (Option.map (a.numbered (s.pair a) s.cycle)) hc
  have hpair : (s.putOut a).pair a = { s.pair a with next := (s.pair a).next + 1 } := by
    refine (State.pair_of_panel (u := (s.setPair { s.pair a with next := (s.pair a).next + 1 }).modAcc a.id
      (a.numbered (s.pair a) s.cycle)) hp a).trans ?_
    exact s.pair_numbered { s.pair a with next := (s.pair a).next + 1 } (s.pair_same a) _ _
  exact ⟨hd, hm, hst, ⟨_, _, hacc, rfl⟩, congrArg Pair.next hpair, ⟨_, hcom, rfl, rfl, by dsimp only; omega⟩,
    fun h => ⟨_, htim h, rfl, rfl, rfl, rfl⟩⟩

theorem State.dispatch_direct (ho : s.accOp a = some o) (hp : isPut o.ins = false) : s.dispatch a = s.putOut a := by
  unfold State.dispatch
  rw [ho]
  dsimp only
  rw [hp, Bool.false_and, Bool.false_and, if_neg Bool.false_ne_true]

/-! ### A destination on a die -/

theorem State.sendAcc_die (ff : State → RAcc → BitVec 8 → State) {v : BitVec 8} {w : Fin 16} {off : Nat} {b : Bind}
    (hf : farKind a.far = some (.bank v w off)) (ho : s.accOp a = some o) (hp : isPut o.ins = false) (hb : o.bound' v = some b)
    (hl : (((s.ctx a.src a.stream.ctxOf).vtab)[Fin.ofNat 256 v.toNat]).lost = false) :
    s.sendAcc ff a = s.putOut { a with dest := .die b.phys, inc := b.inc } := by
  have hd : s.dispatch { a with dest := .die b.phys, inc := b.inc } = s.putOut { a with dest := .die b.phys, inc := b.inc } :=
    State.dispatch_direct (a := { a with dest := .die b.phys, inc := b.inc }) ho hp
  unfold State.sendAcc
  rw [hf, ho]
  dsimp only [Option.bind_some]
  rw [hb]
  dsimp only
  rw [hl, if_neg Bool.false_ne_true, hd]

/-! ### A destination in panel memory -/

/-- The state of an access that is split at the end of a translation. -/
def State.splitRest (s : State) (a : RAcc) (n : Nat) : RAcc :=
  { a with id := s.fresh, far := a.far + BitVec.ofNat 64 n, len := a.len - n, part := a.part + n, data := a.data.drop n
           phys := a.phys + n }

theorem find?_split {α : Type} (p : α → Bool) (x y : α) (hx : p x = true) (l : List α) :
    (l.flatMap fun z => if p z then [x, y] else [z]).find? p = (l.find? p).map fun _ => x := by
  induction l with
  | nil => rfl
  | cons z l ih =>
    rw [List.flatMap_cons, List.find?_append, List.find?_cons]
    by_cases hz : p z = true
    · rw [if_pos hz, List.find?_cons, hx, hz]
      rfl
    · rw [if_neg hz, ih, List.find?_cons, List.find?_nil]
      simp only [Bool.not_eq_true] at hz
      rw [hz]
      rfl

/-- A remote operation's access that crosses the end of a translation is split there (R298). -/
structure State.SplitsAt (s t : State) (a : RAcc) (n : Nat) : Prop where
  dies : t.dies = s.dies
  mem : t.mem = s.mem
  stations : t.stations = s.stations
  cycle : t.cycle = s.cycle
  pairs : t.panel.pairs = s.panel.pairs
  acc : t.acc a.id = some { a with len := n, data := a.data.take n }
  rest : s.splitRest a n ∈ t.panel.raccs

theorem State.splitAcc_spec (hc : s.acc a.id = some c) (hst : c.st = a.st) (he : a.eng = 17) (n : Nat) :
    s.SplitsAt (s.splitAcc a n) a n := by
  have ha : ({ a with st := ((s.acc a.id).map fun (x : RAcc) => x.st).getD a.st } : RAcc) = a := by
    rw [hc]
    show ({ a with st := c.st } : RAcc) = a
    rw [hst]
  have hs : s.splitAcc a n = (s.modPanel fun p => { p with raccs := p.raccs.flatMap fun x =>
      if x.id == a.id then [{ a with len := n, data := a.data.take n }, s.splitRest a n] else [x] }).takeFresh := by
    unfold State.splitAcc
    rw [ha]
    dsimp only
    rw [if_neg]
    · rfl
    · rw [he]
      decide
  rw [hs]
  refine ⟨rfl, rfl, rfl, rfl, rfl, ?_, ?_⟩
  · refine (find?_split (fun b : RAcc => b.id == a.id) { a with len := n, data := a.data.take n } (s.splitRest a n)
      (beq_self_eq_true a.id) s.panel.raccs).trans ?_
    exact congrArg (Option.map fun _ => { a with len := n, data := a.data.take n }) hc
  · refine List.mem_flatMap.mpr ⟨c, List.mem_of_find?_eq_some hc, ?_⟩
    rw [if_pos (List.find?_some (p := fun b : RAcc => b.id == a.id) hc)]
    exact List.mem_cons_of_mem _ (List.mem_singleton_self _)

/-- An access to panel memory as it is sent under a translation: as far as that goes. -/
def RAcc.toStack (a : RAcc) (s : State) (e : Xlat) : RAcc :=
  { a with dest := .stack (stackOf (e.phys' a.far)), inc := (s.station (stackOf (e.phys' a.far))).incarnation
           phys := e.phys' a.far, len := min a.len (e.rest a.far)
           data := if e.rest a.far < a.len then a.data.take (min a.len (e.rest a.far)) else a.data }

theorem State.sendAcc_walk (ff : State → RAcc → BitVec 8 → State) (hf : farKind a.far = some .panel) (hx : a.fixed = false)
    (he : (s.die a.src).entry (s.streamRoot a.src a.stream) a.far a.perm = none) (hh : (s.die a.src).held a.who = false) :
    s.sendAcc ff a = s.startWalk a.src (s.streamRoot a.src a.stream) a.far a.perm a.who := by
  have ht : s.translate a.src (s.streamRoot a.src a.stream) a.far a.perm a.who
      = (s.startWalk a.src (s.streamRoot a.src a.stream) a.far a.perm a.who, none) := by
    unfold State.translate
    rw [he]
    dsimp only
    rw [hh, if_neg Bool.false_ne_true]
  unfold State.sendAcc
  rw [hf]
  dsimp only
  rw [hx, if_neg Bool.false_ne_true, ht]

/-- What sending an access under a translation does: it is put out, the part beyond the translation split off before. -/
theorem State.sendAcc_stack (ff : State → RAcc → BitVec 8 → State) {e : Xlat} (hc : s.acc a.id = some c) (hst : c.st = a.st)
    (hf : farKind a.far = some .panel) (hen : a.eng = 17) (ho : s.accOp a = some o) (hp : isPut o.ins = false)
    (hx : a.fixed = false) (he : (s.die a.src).entry (s.streamRoot a.src a.stream) a.far a.perm = some e)
    (hl : (s.die a.src).mem.stackLost.getLsbD (stackOf (e.phys' a.far)).val = false) :
    (a.len ≤ e.rest a.far → s.sendAcc ff a = s.putOut (a.toStack s e))
    ∧ (e.rest a.far < a.len → s.sendAcc ff a = (s.splitAcc a (e.rest a.far)).putOut (a.toStack s e)) := by
  have ht : s.translate a.src (s.streamRoot a.src a.stream) a.far a.perm a.who = (s, some e) := by
    unfold State.translate
    rw [he]
  have hbit (x : Die) (hx : x.mem.stackLost = (s.die a.src).mem.stackLost) :
      ¬ natBit x.mem.stackLost.toNat (stackOf (e.phys' a.far)).val = true := by
    rw [natBit_eq, hx, BitVec.testBit_toNat, hl]
    exact Bool.false_ne_true
  refine ⟨fun hn => ?_, fun hn => ?_⟩
  · have ha : a.toStack s e = { a with phys := e.phys' a.far, dest := .stack (stackOf (e.phys' a.far))
                                       inc := (s.station (stackOf (e.phys' a.far))).incarnation } := by
      unfold RAcc.toStack
      rw [Nat.min_eq_left hn, if_neg (Nat.not_lt.mpr hn)]
    have hd : s.dispatch (a.toStack s e) = s.putOut (a.toStack s e) := State.dispatch_direct (a := a.toStack s e) ho hp
    unfold State.sendAcc
    rw [hf]
    dsimp only
    rw [if_neg (by rw [hx]; exact Bool.false_ne_true), ht]
    dsimp only
    rw [if_neg (Nat.not_lt.mpr hn), if_neg (hbit _ rfl)]
    exact (congrArg s.dispatch ha.symm).trans hd
  · have hs := State.splitAcc_spec hc hst hen (e.rest a.far)
    have ha : a.toStack s e = { a with len := e.rest a.far, data := a.data.take (e.rest a.far), phys := e.phys' a.far
                                       dest := .stack (stackOf (e.phys' a.far))
                                       inc := ((s.splitAcc a (e.rest a.far)).station (stackOf (e.phys' a.far))).incarnation } := by
      have hst : (s.splitAcc a (e.rest a.far)).station (stackOf (e.phys' a.far)) = s.station (stackOf (e.phys' a.far)) :=
        congrArg (fun v : Vector Station 128 => v[stackOf (e.phys' a.far)]) hs.stations
      unfold RAcc.toStack
      rw [Nat.min_eq_right hn.le, if_pos hn, hst]
    have hd : (s.splitAcc a (e.rest a.far)).dispatch (a.toStack s e) = (s.splitAcc a (e.rest a.far)).putOut (a.toStack s e) := by
      refine State.dispatch_direct (a := a.toStack s e) (o := o) ?_ hp
      exact (congrArg (fun v : Vector Die 128 => (v[a.src]).op a.eng a.op) hs.dies).trans ho
    have hdie : ((s.splitAcc a (e.rest a.far)).die a.src).mem.stackLost = (s.die a.src).mem.stackLost :=
      congrArg (fun v : Vector Die 128 => (v[a.src]).mem.stackLost) hs.dies
    unfold State.sendAcc
    rw [hf]
    dsimp only
    rw [if_neg (by rw [hx]; exact Bool.false_ne_true), ht]
    dsimp only
    rw [if_pos hn, hs.acc]
    dsimp only
    rw [if_neg (hbit _ hdie)]
    exact (congrArg (s.splitAcc a (e.rest a.far)).dispatch ha.symm).trans hd

theorem State.SentAs.of_split {n : Nat} (h : s.SplitsAt t a n) (k : t.SentAs u r) : s.SentAs u r := by
  have hp : t.pair r = s.pair r := by
    unfold State.pair
    rw [h.pairs]
  have hd : t.die r.src = s.die r.src := congrArg (fun v : Vector Die 128 => v[r.src]) h.dies
  have hacc := k.acc
  have hnext := k.next
  have hcommit := k.commit
  have htimeout := k.timeout
  rw [hp, h.cycle] at hacc
  rw [hp] at hnext
  rw [h.cycle] at hcommit
  rw [hd, h.cycle] at htimeout
  exact ⟨k.dies.trans h.dies, k.mem.trans h.mem, k.stations.trans h.stations, hacc, hnext, hcommit, htimeout⟩

theorem State.mem_putOut {b : RAcc} (hb : b ∈ s.panel.raccs) (hne : b.id ≠ a.id) : b ∈ (s.putOut a).panel.raccs := by
  rw [(s.putOut_frame a).2.2.2]
  refine List.mem_map.mpr ⟨b, hb, if_neg ?_⟩
  rw [beq_iff_eq]
  exact hne

/-- An access to panel memory is sent under its translation (R298, R306, R320). -/
theorem State.sendAcc_stack_sent (ff : State → RAcc → BitVec 8 → State) {e : Xlat} (hc : s.acc a.id = some c) (hst : c.st = a.st)
    (hf : farKind a.far = some .panel) (hen : a.eng = 17) (ho : s.accOp a = some o) (hp : isPut o.ins = false)
    (hx : a.fixed = false) (he : (s.die a.src).entry (s.streamRoot a.src a.stream) a.far a.perm = some e)
    (hl : (s.die a.src).mem.stackLost.getLsbD (stackOf (e.phys' a.far)).val = false) :
    s.SentAs (s.sendAcc ff a) (a.toStack s e)
    ∧ (e.rest a.far < a.len → a.id ≠ s.fresh → s.splitRest a (min a.len (e.rest a.far)) ∈ (s.sendAcc ff a).panel.raccs) := by
  obtain ⟨hwhole, hsplit⟩ := State.sendAcc_stack ff hc hst hf hen ho hp hx he hl
  obtain hn | hn := Nat.lt_or_ge (e.rest a.far) a.len
  · have hs := State.splitAcc_spec hc hst hen (e.rest a.far)
    rw [hsplit hn, Nat.min_eq_right hn.le]
    exact ⟨.of_split hs (State.putOut_sent (a := a.toStack s e) hs.acc), fun _ hne => State.mem_putOut hs.rest (Ne.symm hne)⟩
  · rw [hwhole hn]
    exact ⟨State.putOut_sent (a := a.toStack s e) hc, fun h => absurd h (Nat.not_lt.mpr hn)⟩

/-! ### The steps that send -/

theorem State.acc_id (h : s.acc s.ev.id = some a) : a.id = s.ev.id :=
  beq_iff_eq.mp (List.find?_some (p := fun b : RAcc => b.id == s.ev.id) h)

theorem State.acc_self (h : s.acc s.ev.id = some a) : s.acc a.id = some a := by
  rw [State.acc_id h]
  exact h

theorem State.exec_remoteAccessSend (h : s.acc s.ev.id = some a) (hst : a.st = .waiting) :
    exec .remoteAccessSend s = .next (s.sendAcc State.fetchFails a) := by
  change execRemoteAccessSend s = _
  unfold execRemoteAccessSend
  rw [h]
  dsimp only
  rw [hst, if_neg (by decide)]

/-- An access as it is sent again (R324). -/
def RAcc.again (a : RAcc) : RAcc := { a with resent := true, fixed := false }

theorem State.exec_retryAfterExpiry (h : s.acc s.ev.id = some a) (hst : a.st = .resend) (hd : a.resendAt ≤ s.cycle) :
    exec .retryAfterExpiry s = .next (s.sendAcc State.fetchFails a.again) := by
  change execRetryAfterExpiry s = _
  unfold execRetryAfterExpiry
  rw [h]
  dsimp only
  rw [if_neg]
  · rfl
  · rw [hst, decide_eq_false (Nat.not_lt.mpr hd)]
    decide

end

end Sys2Proof.Machine
end

