-- ==== Sys2Proof/Proofs/RemoteCommits.lean ====
section
/-! PROOFS. Accesses of the streams at their destination: their turn, the refusals for retry, and what they do there (R298,
R321 to R326). -/

namespace Sys2Proof.Machine

section
variable {s t u : State} {a b c : RAcc}

/-! ### Answers -/

/-- A destination answers an access: the next number of its pair may commit. -/
structure State.AnswersAs (s t : State) (a : RAcc) (ans : Answer) : Prop where
  dies : t.dies = s.dies
  mem : t.mem = s.mem
  stations : t.stations = s.stations
  pair : t.pair a = { s.pair a with commit := a.seq + 1 }
  acc : t.acc a.id = some { a with st := .answered, ans := ans, ansInc := s.destInc a, left := [] }

theorem State.answerAcc_spec (hc : s.acc a.id = some c) (ans : Answer) : s.AnswersAs (s.answerAcc a ans) a ans := by
  have hm : (((s.setPair { s.pair a with commit := a.seq + 1 }).modAcc a.id fun _ =>
      { a with st := .answered, ans := ans, ansInc := s.destInc a, left := [] }).schedLater .remoteReplyArrival { id := a.id }).acc a.id
      = some { a with st := .answered, ans := ans, ansInc := s.destInc a, left := [] } := by
    refine (State.acc_modAcc (s.setPair { s.pair a with commit := a.seq + 1 }) a.id
      (fun _ => { a with st := .answered, ans := ans, ansInc := s.destInc a, left := [] }) fun _ _ => rfl).trans ?_
    exact congrArg (Option.map fun _ => { a with st := .answered, ans := ans, ansInc := s.destInc a, left := [] }) hc
  have hp := s.pair_numbered { s.pair a with commit := a.seq + 1 } (s.pair_same a) a.id fun _ =>
    { a with st := .answered, ans := ans, ansInc := s.destInc a, left := [] }
  unfold State.answerAcc
  dsimp only
  split
  · exact ⟨rfl, rfl, rfl, hp, hm⟩
  · exact ⟨rfl, rfl, rfl, hp, hm⟩

/-! ### The turn of an access at a stack -/

theorem State.exec_remoteAccessCommit_stack {i : StackId} (hacc : s.acc s.ev.id = some a) (hst : a.st = .sent ∨ a.st = .arrived)
    (hd : a.dest = .stack i) (hf : (s.station i).fitted = true) (hi : a.inc = (s.station i).incarnation) :
    exec .remoteAccessCommit s = .next (if (s.pair a).commit ≠ a.seq then s.modAcc a.id fun a => { a with st := .arrived }
      else if s.behind a then s.stationRefuses i a else s.atStation i a) := by
  have hinc : s.destInc a = a.inc := by
    unfold State.destInc
    rw [hd, hi]
  change execRemoteAccessCommit s = _
  unfold execRemoteAccessCommit
  rw [hacc]
  dsimp only
  rw [if_neg, hd]
  · dsimp only
    rw [if_neg (by rw [hf]; decide), hinc, if_neg (fun h => h rfl)]
  · obtain h | h := hst
    · rw [h]
      decide
    · rw [h]
      decide

theorem State.exec_remoteAccessCommit_die {q : DieId} (hacc : s.acc s.ev.id = some a) (hst : a.st = .sent ∨ a.st = .arrived)
    (hd : a.dest = .die q) (hf : (s.die q).inService = true) :
    exec .remoteAccessCommit s = .next (if a.inc ≠ (s.die q).incarnation then s.setDie q { s.die q with
        mem := { (s.die q).mem with stale := satInc (s.die q).mem.stale } }
      else if (s.pair a).commit ≠ a.seq then s.modAcc a.id fun a => { a with st := .arrived }
      else if s.behind a then s.answerAcc a (.retry 0) else s.atDie q a) := by
  have hinc : s.destInc a = (s.die q).incarnation := by
    unfold State.destInc
    rw [hd]
  change execRemoteAccessCommit s = _
  unfold execRemoteAccessCommit
  rw [hacc]
  dsimp only
  rw [if_neg, hd]
  · dsimp only
    rw [if_neg (by rw [hf]; decide), hinc]
    rfl
  · obtain h | h := hst
    · rw [h]
      decide
    · rw [h]
      decide

theorem State.behind_iff : s.behind a = true ↔ a.heard < (s.pair a).refused := decide_eq_true_iff

/-! ### Refusals for retry -/

/-- An access is turned away by its station, to be sent again later (R322). -/
structure State.TurnsAway (s t : State) (i : StackId) (a : RAcc) : Prop where
  dies : t.dies = s.dies
  mem : t.mem = s.mem
  refusals : (t.station i).refusals = satInc (s.station i).refusals
  pair : t.pair a = { s.pair a with commit := a.seq + 1 }
  acc : t.acc a.id = some { a with st := .answered, ans := .retry (s.station i).retry.toNat, ansInc := a.inc, left := [] }

theorem State.stationRefuses_spec {i : StackId} (hc : s.acc a.id = some c) (hd : a.dest = .stack i)
    (hi : a.inc = (s.station i).incarnation) : s.TurnsAway (s.stationRefuses i a) i a := by
  have hs : (s.modStation i Station.countRefusal).station i = (s.station i).countRefusal := vset_same _ _ _
  have hinc : (s.modStation i Station.countRefusal).destInc a = a.inc := by
    unfold State.destInc
    rw [hd]
    dsimp only
    rw [hs, hi]
    rfl
  have h := State.answerAcc_spec (s := s.modStation i Station.countRefusal) hc (.retry (s.station i).retry.toNat)
  have hacc := h.acc
  rw [hinc] at hacc
  refine ⟨h.dies, h.mem, ?_, h.pair, hacc⟩
  refine (congrArg (fun v : Vector Station 128 => (v[i]).refusals) h.stations).trans ?_
  exact congrArg Station.refusals hs

/-! ### At a stack -/

theorem State.atStation_migrates {i : StackId} (hc : s.acc a.id = some c) (hd : a.dest = .stack i)
    (hi : a.inc = (s.station i).incarnation) (hm : (s.station i).migrates a.phys a.len = true) :
    (s.setPair { s.pair a with refused := (s.pair a).refused + 1 }).TurnsAway (s.atStation i a) i a := by
  have ht : s.atStation i a = (s.setPair { s.pair a with refused := (s.pair a).refused + 1 }).stationRefuses i a := by
    unfold State.atStation
    dsimp only
    rw [if_pos hm]
  rw [ht]
  exact State.stationRefuses_spec hc hd hi

theorem State.atStation_performs {i : StackId} (hm : (s.station i).migrates a.phys a.len = false) :
    (a.kind = .load → s.memBadAt a.phys a.len = false →
      s.atStation i a = s.answerAcc { a with data := s.readMem a.phys a.len } .ack)
    ∧ (a.kind = .load → s.memBadAt a.phys a.len = true → s.atStation i a = s.answerAcc a .badEcc)
    ∧ (a.kind = .store → s.atStation i a = (s.writeMem a.phys a.data).answerAcc a .ack)
    ∧ (a.kind = .signal → s.atStation i a = s.answerAcc a .refuse) := by
  unfold State.atStation
  dsimp only
  rw [if_neg (by rw [hm]; exact Bool.false_ne_true)]
  refine ⟨fun hk hb => ?_, fun hk hb => ?_, fun hk => ?_, fun hk => ?_⟩
  · rw [hk]
    dsimp only
    rw [hb, if_neg Bool.false_ne_true]
  · rw [hk]
    dsimp only
    rw [hb, if_pos rfl]
  · rw [hk]
  · rw [hk]

/-! ### At a die -/

/-- A signal to a fold counts there (R152, R318). -/
theorem State.atDie_fold {q : DieId} {v : BitVec 8} {f : FoldId} (hf : farKind a.far = some (.fold v f)) (hk : a.kind = .signal) :
    s.atDie q a = (s.foldEvt q f (.add (natOfBytes a.data))).answerAcc a .ack := by
  unfold State.atDie
  rw [hf, hk]

/-- Panel memory after a store at a stack. -/
theorem State.mem_storeAtStack (h : s.mem.wf = true) (pa : Nat) (l : List Byte) :
    (s.writeMem pa l).dies = s.dies ∧ (s.writeMem pa l).stations = s.stations ∧ (s.writeMem pa l).panel = s.panel
    ∧ ∀ y, (s.writeMem pa l).mem.read y = if pa ≤ y ∧ y < pa + l.length then l.getD (y - pa) 0 else s.mem.read y := by
  have hw := State.Writes.writeMem s pa l
  exact ⟨hw.dies, hw.stations, hw.panel, State.read_writeMem_eq s pa l h⟩

end

end Sys2Proof.Machine
end

