-- ==== Sys2Proof/Proofs/RemoteReplies.lean ====
section
/-! PROOFS. The answers to accesses of the streams at their source, and the time-outs of those that have none (R314, R322,
R324, R326). -/

namespace Sys2Proof.Machine

section
variable {s t u : State} {a b c : RAcc} {o : Op} {d : DieId} {y : Die}

/-! ### Streams and ends of remote operations -/

theorem State.remoteDone_frame (s : State) (d : DieId) (id : Nat) : (s.remoteDone d id).dies = s.dies
    ∧ (s.remoteDone d id).mem = s.mem ∧ (s.remoteDone d id).panel = s.panel := by
  have hs (n : Nat) (i : Instr) (e : EvArg) : (s.schedOnce n i e).dies = s.dies ∧ (s.schedOnce n i e).mem = s.mem
      ∧ (s.schedOnce n i e).panel = s.panel := by
    obtain ⟨m, hm, -⟩ := State.schedOnce_eq (s := s) n i e
    rw [hm]
    exact ⟨rfl, rfl, rfl⟩
  unfold State.remoteDone
  split
  · exact ⟨rfl, rfl, rfl⟩
  · split
    · exact ⟨rfl, rfl, rfl⟩
    · split
      · exact hs _ _ _
      · split
        · exact hs _ _ _
        · split
          · exact ⟨rfl, rfl, rfl⟩
          · exact hs _ _ _

theorem State.TurnsDie.releaseStream (h : s.TurnsDie t d y) (k : StreamKey) : ∃ v,
    s.TurnsDie (t.releaseStream d k) d { y with heldStreams := v } ∧ (t.releaseStream d k).panel = t.panel
    ∧ (t.releaseStream d k).agenda = t.agenda ∧ (t.releaseStream d k).cycle = t.cycle := by
  unfold State.releaseStream
  split
  · exact ⟨_, h.modDie fun x => { x with heldStreams := x.heldStreams.filter (· != k) }, rfl, rfl, rfl⟩
  · exact ⟨y.heldStreams, h, rfl, rfl, rfl⟩

theorem State.TurnsDie.op (h : s.TurnsDie t d y) (q : Fin 19) (id : Nat) : t.op d q id = y.op q id := by
  unfold State.op
  rw [h.die]
  rfl

theorem State.opBytes_frame (s : State) (d : DieId) (o : Op) (n : Nat) : (s.opBytes d o n).panel = s.panel
    ∧ (s.opBytes d o n).agenda = s.agenda ∧ (s.opBytes d o n).cycle = s.cycle := by
  unfold State.opBytes
  split
  · split
    · exact ⟨rfl, rfl, rfl⟩
    · exact ⟨rfl, rfl, rfl⟩
  · exact ⟨rfl, rfl, rfl⟩

theorem State.TurnsDie.opBytes (h : s.TurnsDie t d y) (o : Op) (n : Nat) :
    s.TurnsDie (t.opBytes d o n) d { y with foldEvts := y.foldEvts ++ o.bytesEvents n } := by
  have ha := (State.ActsOn.refl t d).opBytes o n
  have hd : (t.die d) = y := h.die
  rw [hd] at ha
  refine ⟨?_, ha.mem.trans h.mem⟩
  rw [ha.dies]
  show vset t.dies d _ = vset s.dies d _
  rw [h.dies]
  exact vset_vset _ _ _ _

/-! ### A refusal for retry -/

/-- A source hears that an access has been refused for retry: its stream is held, and the access waits to be sent again
(R322, R324). -/
theorem State.replyRetry_spec (hc : s.acc a.id = some c) (n : Nat) :
    (s.replyRetry a n).mem = s.mem ∧ s.SameBytes (s.replyRetry a n)
    ∧ (s.replyRetry a n).acc a.id = some { c with st := .resend, resent := false, resendAt := s.cycle + n }
    ∧ a.stream ∈ ((s.replyRetry a n).die a.src).heldStreams
    ∧ ((s.replyRetry a n).pair a).heard = max (s.pair a).heard (a.heard + 1)
    ∧ ((s.replyRetry a n).die a.src).mem.refusals = satInc (s.die a.src).mem.refusals := by
  have ht : s.TurnsDie (s.replyRetry a n) a.src
      { (s.die a.src).countRefusal with heldStreams := addNew (s.die a.src).heldStreams a.stream } :=
    ((State.TurnsDie.refl s a.src).modDie fun x => { x.countRefusal with heldStreams := addNew x.heldStreams a.stream }).of_dies
      rfl rfl
  refine ⟨ht.mem, ht.sameBytes rfl rfl, ?_, ?_, ?_, ?_⟩
  · exact (State.acc_modAcc _ a.id (fun a => { a with st := .resend, resent := false, resendAt := s.cycle + n }) fun _ h => h).trans
      (congrArg (Option.map fun a => { a with st := .resend, resent := false, resendAt := s.cycle + n }) hc)
  · rw [ht.die]
    show a.stream ∈ addNew _ a.stream
    unfold addNew
    split
    · next h => exact List.contains_iff_mem.mp h
    · exact List.mem_append_right _ (List.mem_singleton_self _)
  · exact congrArg Pair.heard (State.pair_numbered
      (s.modDie a.src fun x => { x.countRefusal with heldStreams := addNew x.heldStreams a.stream })
      { s.pair a with heard := max (s.pair a).heard (a.heard + 1) } (s.pair_same a) a.id
      fun a => { a with st := .resend, resent := false, resendAt := s.cycle + n })
  · rw [ht.die]
    rfl

theorem State.exec_remoteReplyArrival (hacc : s.acc s.ev.id = some a) (ho : a.orphan = false) (hst : a.st = .answered)
    (hi : a.ansInc = a.inc) : (a.ans = .ack → exec .remoteReplyArrival s = .next (s.replyAck a))
    ∧ ∀ n, a.ans = .retry n → exec .remoteReplyArrival s = .next (s.replyRetry a n) := by
  change (a.ans = .ack → execRemoteReplyArrival s = _) ∧ ∀ n, a.ans = .retry n → execRemoteReplyArrival s = _
  unfold execRemoteReplyArrival
  rw [hacc]
  dsimp only
  rw [if_neg (by rw [ho]; exact Bool.false_ne_true), if_neg (by rw [hst]; decide), if_neg (fun h => h hi)]
  exact ⟨fun h => by rw [h], fun n h => by rw [h]⟩

/-! ### An acknowledgement -/

/-- An operation of a remote access that has done everything: only its flags change. -/
theorem State.remoteAccDone_eq (ho : s.op a.src 17 a.op = some o) (hr : isRcp o.ins = false) (n : Nat) :
    s.remoteAccDone a n = ((((s.dropAcc a.id).modOp a.src 17 o.id fun _ => { o with flags := o.flags ||| a.flags }).opBytes a.src
      o n).releaseStream a.src a.stream).remoteDone a.src a.op := by
  unfold State.remoteAccDone
  dsimp only
  rw [show (s.dropAcc a.id).op a.src qRemote a.op = some o from ho]
  dsimp only
  rw [hr, Bool.false_and, if_neg Bool.false_ne_true, if_neg Bool.false_ne_true]
  rfl

/-- A remote operation whose last access is gone is complete. -/
theorem State.remoteDone_last {id : Nat} (ho : s.op d 17 id = some o) (hst : o.st = .running) (herr : o.err = 0)
    (hab : o.abort = false) (hr : isRcp o.ins = false) (hl : s.accsOf d id = []) :
    s.remoteDone d id = s.schedOnce s.cycle .engineOpComplete { die := d, eng := 17, id := id } := by
  unfold State.remoteDone
  rw [show s.op d qRemote id = some o from ho]
  dsimp only
  rw [hl, if_neg (by rw [hst]; decide), if_neg (fun h => h herr), if_neg (by rw [hab]; exact Bool.false_ne_true), if_neg]
  · rfl
  · rw [hr]
    exact Bool.false_ne_true

/-- The last access of a remote operation, a store, is acknowledged: the operation is complete (R314, R315). -/
theorem State.replyAck_last {cx : CtxId} {k : Fin 16} (hs : a.stream = .ctx cx k) (he : a.eng = 17) (hk : a.kind = .store)
    (ho : s.op a.src 17 a.op = some o) (hst : o.st = .running) (herr : o.err = 0) (hab : o.abort = false) (hr : isRcp o.ins = false)
    (hlast : ∀ b ∈ s.panel.raccs, b.src = a.src → b.op = a.op → b.id = a.id) :
    (s.replyAck a).acc a.id = none ∧ (s.replyAck a).mem = s.mem ∧ s.SameBytes (s.replyAck a)
    ∧ { due := s.cycle, act := .engineOpComplete, arg := { die := a.src, eng := 17, id := a.op } } ∈ (s.replyAck a).agenda := by
  have hid : o.id = a.op := Die.op_id (x := s.die a.src) ho
  have hreply : s.remoteReply a = s.remoteAccDone a (accBytes a) := by
    have hl : localAddrs o a = [] := by
      unfold localAddrs
      rw [hk]
    unfold State.remoteReply
    rw [show s.op a.src qRemote a.op = some o from ho]
    dsimp only
    rw [hl]
    rfl
  have hx : s.replyAck a = (s.remoteAccDone a (accBytes a)).releaseStream a.src a.stream := by
    unfold State.replyAck
    rw [hs]
    dsimp only
    rw [if_neg (by rw [he]; decide), if_pos (by rw [he]; decide), hreply]
  have h1 : s.TurnsDie ((s.dropAcc a.id).modOp a.src 17 o.id fun _ => { o with flags := o.flags ||| a.flags }) a.src
      ((s.die a.src).modOp 17 o.id fun _ => { o with flags := o.flags ||| a.flags }) :=
    ((State.TurnsDie.refl s a.src).of_dies (u := s.dropAcc a.id) rfl rfl).modDie fun x =>
      x.modOp 17 o.id fun _ => { o with flags := o.flags ||| a.flags }
  have h2 := h1.opBytes o (accBytes a)
  obtain ⟨hp2, -, hc2⟩ := State.opBytes_frame ((s.dropAcc a.id).modOp a.src 17 o.id fun _ => { o with flags := o.flags ||| a.flags })
    a.src o (accBytes a)
  rw [hx, State.remoteAccDone_eq ho hr]
  generalize ((s.dropAcc a.id).modOp a.src 17 o.id fun _ => { o with flags := o.flags ||| a.flags }).opBytes a.src o (accBytes a) = u
    at h2 hp2 hc2 ⊢
  obtain ⟨v, h3, hp3, -, hc3⟩ := h2.releaseStream a.stream
  generalize u.releaseStream a.src a.stream = w at h3 hp3 hc3 ⊢
  have hop : w.op a.src 17 a.op = some { o with flags := o.flags ||| a.flags } := by
    refine (h3.op 17 a.op).trans ?_
    refine Eq.trans (b := ((s.die a.src).modOp 17 o.id fun _ => { o with flags := o.flags ||| a.flags }).op 17 a.op) rfl ?_
    refine (congrArg (Die.op _ 17) hid.symm).trans ?_
    refine (Die.op_modOp (s.die a.src) 17 o.id (fun _ => { o with flags := o.flags ||| a.flags }) fun _ _ => rfl).trans ?_
    exact congrArg (Option.map fun _ => { o with flags := o.flags ||| a.flags }) ((congrArg ((s.die a.src).op 17) hid).trans ho)
  have hpan : w.panel = (s.dropAcc a.id).panel := hp3.trans hp2
  have hnone : w.accsOf a.src a.op = [] := by
    unfold State.accsOf
    rw [hpan, List.filter_eq_nil_iff]
    intro b hb hm
    obtain ⟨hb, hne⟩ := List.mem_filter.mp hb
    simp only [Bool.and_eq_true, beq_iff_eq] at hm
    exact bne_iff_ne.mp hne (hlast b hb hm.1 hm.2)
  rw [State.remoteDone_last hop hst herr hab hr hnone]
  have h4 : s.TurnsDie (w.schedOnce w.cycle .engineOpComplete { die := a.src, eng := 17, id := a.op }) a.src _ := h3.schedOnce _ _ _
  have hag := State.mem_schedOnce w w.cycle .engineOpComplete { die := a.src, eng := 17, id := a.op }
  have hp4 : (w.schedOnce w.cycle .engineOpComplete { die := a.src, eng := 17, id := a.op }).panel = w.panel := by
    obtain ⟨m, hm, -⟩ := State.schedOnce_eq (s := w) w.cycle .engineOpComplete { die := a.src, eng := 17, id := a.op }
    rw [hm]
  rw [show w.cycle = s.cycle from hc3.trans hc2] at *
  obtain ⟨v', h5, hp5, ha5, -⟩ := h4.releaseStream a.stream
  refine ⟨?_, h5.mem, h5.sameBytes rfl rfl, ha5 ▸ hag⟩
  exact (State.acc_of_panel (u := s.dropAcc a.id) (hp5.trans (hp4.trans hpan)) a.id).trans (State.acc_dropAcc _ _)

/-! ### Orphans -/

/-- The answer to an access that its operation no longer waits for (R326). -/
theorem State.remoteReplyArrival_orphan (hacc : s.acc s.ev.id = some a) (ho : a.orphan = true) :
    ∃ t, exec .remoteReplyArrival s = .next t ∧ t.acc a.id = none ∧ t.mem = s.mem ∧ s.SameBytes t
      ∧ (∀ n, a.st = .answered → a.ans = .retry n → (t.die a.src).mem.refusals = satInc (s.die a.src).mem.refusals)
      ∧ ((∀ n, a.ans ≠ .retry n) → t.dies = s.dies) := by
  have hx : ∃ u, exec .remoteReplyArrival s = .next (u.dropAcc a.id)
      ∧ ((u = s.modDie a.src Die.countRefusal ∧ ∃ n, a.ans = .retry n) ∨ (u = s ∧ ∀ n, a.st = .answered → a.ans ≠ .retry n)) := by
    change ∃ u, execRemoteReplyArrival s = _ ∧ _
    unfold execRemoteReplyArrival
    rw [hacc]
    dsimp only
    rw [if_pos ho]
    refine ⟨_, rfl, ?_⟩
    split
    · next n _ h => exact .inl ⟨rfl, _, h⟩
    · next h => exact .inr ⟨rfl, fun n h1 h2 => h n h1 h2⟩
  obtain ⟨u, hx, ⟨rfl, n, hn⟩ | ⟨rfl, hn⟩⟩ := hx
  · have ht : s.TurnsDie ((s.modDie a.src Die.countRefusal).dropAcc a.id) a.src (s.die a.src).countRefusal :=
      ((State.TurnsDie.refl s a.src).modDie Die.countRefusal).of_dies rfl rfl
    refine ⟨_, hx, State.acc_dropAcc _ _, ht.mem, ht.sameBytes rfl rfl, fun _ _ _ => ?_, fun h => absurd hn (h n)⟩
    rw [ht.die]
    rfl
  · exact ⟨_, hx, State.acc_dropAcc _ _, rfl, State.sameBytes_of_eq rfl rfl, fun n h1 h2 => absurd h2 (hn n h1), fun _ => rfl⟩

/-! ### Time-outs -/

/-- What the failure of a remote operation's access leaves of the accesses: its own are gone, but those that are on their
way (R316, R326). -/
def RAcc.staysAfter (a b : RAcc) : Bool :=
  !(b.src == a.src && b.op == a.op && decide (0 ≤ b.unit) && !b.resent && (b.st == .waiting || b.st == .reading)) && b.id != a.id

theorem State.accFails_remote {cx : CtxId} {k : Fin 16} (h : s.TurnsDie t a.src y) (hs : a.stream = .ctx cx k) (he : a.eng = 17)
    (hst : a.st ≠ .resend) (code : BitVec 8) : ∃ v f, s.TurnsDie (t.accFails State.fetchFails a code) a.src
        { y.modOp 17 a.op f with heldStreams := v }
      ∧ (t.accFails State.fetchFails a code).panel.raccs = t.panel.raccs.filter a.staysAfter := by
  have hx : t.accFails State.fetchFails a code = t.remoteAccFails a code := by
    unfold State.accFails
    dsimp only
    rw [if_neg (by simpa using hst), hs]
    dsimp only
    rw [if_neg (by rw [he]; decide), if_pos (by rw [he]; decide)]
  rw [hx]
  unfold State.remoteAccFails
  extract_lets d u gone v w
  have hv : s.TurnsDie v d _ := (h.of_dies (u := u) rfl rfl).modDie fun x => x.modOp 17 a.op fun o =>
    { o with err := if o.err = 0 then code else o.err, failed := o.failed ++ (a :: gone).map (·.unit) }
  have hw : s.TurnsDie w d _ := hv.of_dies rfl rfl
  obtain ⟨z, hz, hp, -⟩ := hw.releaseStream a.stream
  obtain ⟨hd, hm, hp'⟩ := (w.releaseStream d a.stream).remoteDone_frame d a.op
  refine ⟨z, _, hz.of_dies hd hm, ?_⟩
  rw [hp', hp]
  refine Eq.trans (b := (t.panel.raccs.filter fun b => b.id != a.id).filter _) rfl ?_
  rw [List.filter_filter]
  rfl

/-- Every access of a number is one that its operation no longer waits for, and that is on its way. -/
structure Panel.Orphaned (p : Panel) (id : Nat) : Prop where
  some_ : ∃ c ∈ p.raccs, c.id = id
  all : ∀ c ∈ p.raccs, c.id = id → c.orphan = true ∧ c.st ≠ .waiting ∧ c.st ≠ .reading

theorem Panel.Orphaned.acc (h : s.panel.Orphaned a.id) : ∃ c, s.acc a.id = some c ∧ c.orphan = true := by
  obtain ⟨c, hc, hi⟩ := h.some_
  cases hf : s.acc a.id with
  | none => exact absurd (beq_iff_eq.mpr hi) (List.find?_eq_none.mp hf c hc)
  | some b => exact ⟨b, rfl, (h.all b (List.mem_of_find?_eq_some hf) (beq_iff_eq.mp (List.find?_some
      (p := fun b : RAcc => b.id == a.id) hf))).1⟩

theorem RAcc.isOut_st (h : b.isOut = true) : b.st ≠ .waiting ∧ b.st ≠ .reading ∧ b.st ≠ .resend := by
  unfold RAcc.isOut at h
  refine ⟨fun e => ?_, fun e => ?_, fun e => ?_⟩
  all_goals
    rw [e] at h
    simp at h

/-- An access of a remote operation that is given up. -/
theorem State.abandon_spec {cx : CtxId} {k : Fin 16} (h : s.TurnsDie t b.src y) (hs : b.stream = .ctx cx k) (he : b.eng = 17)
    (hout : b.isOut = true) : ∃ v f, s.TurnsDie (t.abandon b) b.src { y.modOp 17 b.op f with heldStreams := v }
      ∧ (t.abandon b).panel.raccs = ((t.panel.raccs.filter b.staysAfter).filter fun c => c.id != b.id)
        ++ [{ b with orphan := true, op := 0 }] := by
  obtain ⟨v, f, hf, hr⟩ := State.accFails_remote h hs he (RAcc.isOut_st hout).2.2 4
  refine ⟨v, f, hf.of_dies rfl rfl, ?_⟩
  rw [← hr]
  rfl

theorem State.abandon_orphaned {cx : CtxId} {k : Fin 16} {id : Nat} (hs : b.stream = .ctx cx k) (he : b.eng = 17)
    (hout : b.isOut = true) (h : t.panel.Orphaned id ∨ b.id = id) : (t.abandon b).panel.Orphaned id := by
  obtain ⟨v, f, -, hr⟩ := State.abandon_spec (State.TurnsDie.refl t b.src) hs he hout
  have hb : ({ b with orphan := true, op := 0 } : RAcc) ∈ (t.abandon b).panel.raccs := by
    rw [hr]
    exact List.mem_append_right _ (List.mem_singleton_self _)
  by_cases hi : b.id = id
  · refine ⟨⟨_, hb, hi⟩, fun c hc hid => ?_⟩
    rw [hr, List.mem_append, List.mem_filter, List.mem_singleton] at hc
    obtain ⟨-, hne⟩ | rfl := hc
    · exact absurd (hid.trans hi.symm) (bne_iff_ne.mp hne)
    · exact ⟨rfl, (RAcc.isOut_st hout).1, (RAcc.isOut_st hout).2.1⟩
  · obtain ⟨⟨c, hc, hci⟩, hall⟩ := h.resolve_right hi
    refine ⟨⟨c, ?_, hci⟩, fun c hc hid => ?_⟩
    · obtain ⟨-, h1, h2⟩ := hall c hc hci
      have hne : (c.id != b.id) = true := bne_iff_ne.mpr fun h => hi (h.symm.trans hci)
      have hst : b.staysAfter c = true := by
        unfold RAcc.staysAfter
        rw [hne, beq_eq_false_iff_ne.mpr h1, beq_eq_false_iff_ne.mpr h2]
        simp
      rw [hr]
      exact List.mem_append_left _ (List.mem_filter.mpr ⟨List.mem_filter.mpr ⟨hc, hst⟩, hne⟩)
    · rw [hr, List.mem_append, List.mem_filter, List.mem_singleton] at hc
      obtain ⟨hm, -⟩ | rfl := hc
      · exact hall c (List.mem_filter.mp hm).1 hid
      · exact absurd hid hi

/-- Accesses of remote operations of a die are given up one after the other. -/
theorem State.abandon_all {l : List RAcc} (hl : ∀ b ∈ l, b.src = d ∧ (b.eng = 17 ∧ ∃ cx k, b.stream = .ctx cx k) ∧ b.isOut = true) :
    ∀ t y, s.TurnsDie t d y → (∃ z, s.TurnsDie (l.foldl (fun s b => s.abandon b) t) d z ∧ z.bank = y.bank ∧ z.folds = y.folds
        ∧ z.mem = y.mem)
      ∧ ∀ id, (t.panel.Orphaned id ∨ ∃ b ∈ l, b.id = id) → (l.foldl (fun s b => s.abandon b) t).panel.Orphaned id := by
  induction l with
  | nil => exact fun t y h => ⟨⟨y, h, rfl, rfl, rfl⟩, fun id h => h.elim (fun h => h) fun ⟨_, hb, _⟩ => absurd hb List.not_mem_nil⟩
  | cons b l ih =>
    intro t y h
    obtain ⟨rfl, ⟨he, cx, k, hs⟩, hout⟩ := hl b (List.mem_cons_self ..)
    obtain ⟨v, f, hf, -⟩ := State.abandon_spec h hs he hout
    obtain ⟨⟨z, hz, h1, h2, h3⟩, hor⟩ := ih (fun c hc => hl c (List.mem_cons_of_mem _ hc)) _ _ hf
    refine ⟨⟨z, hz, h1, h2, h3⟩, fun id hid => hor id ?_⟩
    obtain hid | ⟨c, hc, hci⟩ := hid
    · exact .inl (State.abandon_orphaned hs he hout (.inl hid))
    · obtain rfl | hc := List.mem_cons.mp hc
      · exact .inl (State.abandon_orphaned hs he hout (.inr hci))
      · exact .inr ⟨c, hc, hci⟩

/-- A time limit that runs out marks the destination lost and gives up what is out to it (R326). -/
theorem State.remoteTimeout_stack {i : StackId} (hacc : s.acc s.ev.id = some a) (hout : a.isOut = true) (hat : a.sentAt = s.ev.seq)
    (hall : ∀ b ∈ s.panel.raccs, a.covers b = true → b.eng = 17 ∧ ∃ cx k, b.stream = .ctx cx k) (hd : a.dest = .stack i) :
    ∃ t, exec .remoteTimeout s = .next t ∧ s.SameBytes t ∧ t.mem = s.mem
      ∧ (t.die a.src).mem.stackLost = (s.die a.src).mem.stackLost ||| BitVec.twoPow 128 i.val
      ∧ ∃ c, t.acc a.id = some c ∧ c.orphan = true := by
  have hx : exec .remoteTimeout s = .next (((s.markLost a).panel.raccs.filter fun b => a.covers b).foldl
      (fun s b => s.abandon b) (s.markLost a)) := by
    change execRemoteTimeout s = _
    unfold execRemoteTimeout
    rw [hacc]
    dsimp only
    rw [if_neg]
    rw [hout]
    simp [hat]
  have hm : s.markLost a = s.modDie a.src fun x =>
      { x with mem := { x.mem with stackLost := x.mem.stackLost ||| BitVec.ofNat 128 (2 ^ i.val) } } := by
    unfold State.markLost
    rw [hd]
  have ht := (State.TurnsDie.refl s a.src).modDie fun x =>
    { x with mem := { x.mem with stackLost := x.mem.stackLost ||| BitVec.ofNat 128 (2 ^ i.val) } }
  rw [← hm] at ht
  have hp : (s.markLost a).panel = s.panel := by
    rw [hm]
    rfl
  have hcovers (b : RAcc) (h : a.covers b = true) : b.src = a.src ∧ b.isOut = true := by
    unfold RAcc.covers at h
    simp only [Bool.and_eq_true, beq_iff_eq] at h
    exact ⟨h.1.1.1, h.1.2⟩
  have hself : a.covers a = true := by
    unfold RAcc.covers
    rw [hout, hd]
    simp
  have htwo : BitVec.ofNat 128 (2 ^ i.val) = BitVec.twoPow 128 i.val :=
    BitVec.eq_of_toNat_eq (by rw [BitVec.toNat_ofNat, BitVec.toNat_twoPow])
  obtain ⟨⟨z, hz, hbank, hfolds, hmem⟩, hor⟩ := State.abandon_all (l := (s.markLost a).panel.raccs.filter fun b => a.covers b)
    (d := a.src) (fun b hb => by
      obtain ⟨hb, hc⟩ := List.mem_filter.mp hb
      exact ⟨(hcovers b hc).1, hall b (hp ▸ hb) hc, (hcovers b hc).2⟩) _ _ ht
  have ha : a ∈ (s.markLost a).panel.raccs.filter fun b => a.covers b := by
    rw [hp]
    exact List.mem_filter.mpr ⟨List.mem_of_find?_eq_some hacc, hself⟩
  refine ⟨_, hx, hz.sameBytes hbank hfolds, hz.mem, ?_, (hor a.id (.inr ⟨a, ha, rfl⟩)).acc⟩
  rw [hz.die, hmem, ← htwo]

theorem State.remoteTimeout_settled (hacc : s.acc s.ev.id = some a) (h : a.isOut = false ∨ a.sentAt ≠ s.ev.seq) :
    exec .remoteTimeout s = .next s := by
  change execRemoteTimeout s = _
  unfold execRemoteTimeout
  rw [hacc]
  dsimp only
  rw [if_pos]
  obtain h | h := h
  · rw [h]
    rfl
  · simp [h]

end

end Sys2Proof.Machine
end

