-- ==== Sys2Proof/Proofs/EngineSteps.lean ====
section
/-! PROOFS. The steps of the engines and of the access streams (R143 to R147, R250 to R276, R298, R306 to R326). -/

namespace Sys2Proof.Machine

/-- Settles O55: by the ends of operations (`State.ActsOn.endsOp`), the rows of a cycle as a change of the array and the slot
(`State.runRows_spec` and a law per operation), and the sends, answers and time-outs of accesses. -/
theorem engineSteps : Obligations.EngineSteps := by
  unfold Obligations.EngineSteps
  refine ⟨?_, ?_, ?_⟩
  · intro s o d x id found now quiet record ends
    have hn (q : Fin 19) (f : found q) : s.Names q o := ⟨f.1, f.2⟩
    have hid (q : Fin 19) (f : found q) : o.id = id := (hn q f).opId
    have hends (t : State) (q : Fin 19) (f : found q) (code : BitVec 8) (st : TokState) (h : s.EndsOp t d q o code)
        (hst : endToken code = st) : ends t q code st := by
      obtain ⟨hop, htok, hfold, hdeps, hq, -⟩ := h
      rw [hid q f] at hop hdeps
      rw [hst] at htok
      exact ⟨hop, htok, hfold, hdeps, hq⟩
    have herr (code : BitVec 8) (h : code ≠ 0) : endToken code = .error := if_neg (by simpa using h)
    refine ⟨fun f hst he hi => ?_, fun q f hst he => ?_, fun q hq f hne hs => ?_, fun q h1 h16 f hst he => ?_,
      fun q h1 h16 f hne hs => ?_, fun q hq f hne hc => ?_, fun u ho hu hd hp => ?_, fun u ho hu => ?_, ?_⟩
    · obtain ⟨t, hx, hop, hr, hq⟩ := State.engineOpStart_copy (hn 0 f) hst he hi
      exact ⟨t, hx, ⟨_, (congrArg (t.op d 0) (hid 0 f)).symm.trans hop, rfl⟩, hr, hq⟩
    · exact State.engineOpStart_depError (hn q f) hst he
    · obtain ⟨t, hx, h, hstamp, hres⟩ := State.engineOpComplete_spec (hn q f) hq hne hs
      exact ⟨t, hx, hends t q f 0 .done h rfl, h.record, hstamp, hres⟩
    · intro k m fmt two time done fails mine slotIs
      have hx := hn q f
      have hi := hid q f
      have htime : x.arrTime q o (arrRows k o) = time := by
        show arrBase k + arrRows k o * arrRate k fmt (x.arrays[m]).live.fmt = time
        clear_value k fmt
        cases k <;> simp [time, two, arrBase, arrRate, arrRows]
      have hdone (t : State) (n : Nat) (h : t.DoneOp n d q o.id) : done t n := by
        rw [hi] at h
        exact h
      have hfail (t : State) (code : BitVec 8) (h : t.FailsOp s.cycle d q o.id code) : fails t code := by
        rw [hi] at h
        exact h
      have hslot (hk : arrKind o.ins = .slot) := State.engineOpStart_slot hx hst he h1 h16 hk
      refine ⟨fun hk1 hk2 hf hs => ⟨fun hu hne => ?_, fun hu => ?_⟩, fun n dep hins => ?_, fun n dep hins => ?_,
        fun n z dep hins => ?_, fun n dep hins => ?_⟩
      · obtain ⟨t, hx, h, hq, hs⟩ := (State.engineOpStart_near hx hst he h1 h16 hk1 hk2 hf hs).1 hu hne
        exact ⟨t, hx, hfail t 3 h, hq, hs⟩
      · obtain ⟨t, hx, h, hr, hq, hsl, hop⟩ := (State.engineOpStart_near hx hst he h1 h16 hk1 hk2 hf hs).2 hu
        rw [show (s.die s.ev.die).arrTime q o (arrRows (arrKind o.ins) o) = time from htime] at h
        refine ⟨t, hx, hdone t _ h, hr, hq, hsl, _, (congrArg (t.op d q) hi).symm.trans hop, rfl, rfl, hs, rfl, rfl, rfl, rfl, ?_⟩
        exact (List.map_map ..).trans rfl
      · obtain ⟨t, y, hx, hact, hy⟩ := hslot (congrArg arrKind hins)
        obtain ⟨hfree, hown, hother⟩ := State.startSlot_claim hact hy hins
        exact ⟨fun ho => ⟨_, hx, (hfree ho).1, hdone _ _ (hfree ho).2⟩, fun ho => ⟨_, hx, (hown ho).1, hdone _ _ (hown ho).2⟩,
          fun c ho hc => ⟨_, hx, (hother c ho hc).1, hfail _ _ (hother c ho hc).2⟩⟩
      · obtain ⟨t, y, hx, hact, hy⟩ := hslot (congrArg arrKind hins)
        obtain ⟨hown, hother⟩ := State.startSlot_release hact hy hins
        exact ⟨fun ho => ⟨_, hx, (hown ho).1, hdone _ _ (hown ho).2⟩, fun ho => ⟨_, hx, (hother ho).1, hfail _ _ (hother ho).2⟩⟩
      · intro rows cols fits
        obtain ⟨t, y, hx, hact, hy⟩ := hslot (congrArg arrKind hins)
        obtain ⟨hfits, hnot, hother⟩ := State.startSlot_shape hact hy hins
        have hre := Slot.reshape_eq x.slots[n] o.va
        refine ⟨fun ho hf => ?_, fun ho hf => ?_, fun ho => ⟨_, hx, (hother ho).1, hfail _ _ (hother ho).2⟩⟩
        · obtain ⟨hs, hd⟩ := hfits ho _ (hre.trans (if_pos hf))
          exact ⟨_, hx, hdone _ _ hd, hs⟩
        · obtain ⟨hs, hd, p, hp, hfl⟩ := hnot ho (hre.trans (if_neg hf))
          exact ⟨_, hx, hdone _ _ hd, hs, p, (congrArg (State.op _ d q) hi).symm.trans hp, hfl⟩
      · obtain ⟨t, y, hx, hact, hy⟩ := hslot (congrArg arrKind hins)
        obtain ⟨hown, hother⟩ := State.startSlot_zero hact hy hins
        exact ⟨fun ho => ⟨_, hx, (hown ho).1, hdone _ _ (hown ho).2⟩, fun ho => ⟨_, hx, (hother ho).1, hfail _ _ (hother ho).2⟩⟩
    · intro k m a
      refine ⟨fun hc => ?_, fun hk => ?_, fun hk he hdue hsteps hdr hl hahead hp => ?_⟩
      · obtain ⟨t, hx, h, hres⟩ := State.engineOpError_array (hn q f) h1 h16 hne hs hc
        have hr := h.record
        rw [if_neg hc] at hr
        exact ⟨t, hx, hends t q f _ .error h (herr _ hc), hr, fun hk1 hk2 hran => ⟨_, hres hk1 hk2 hran, rfl, rfl, rfl, rfl, rfl, rfl⟩⟩
      · obtain ⟨t, hx, h, harr⟩ := State.engineOpComplete_slot (hn q f) h1 h16 hne hs hk
        exact ⟨t, hx, hends t q f 0 .done h rfl, h.record, harr⟩
      · obtain ⟨t, hx, h, harr⟩ := State.engineOpComplete_rows (hn q f) h1 h16 hne hs hk he hdue hsteps hdr hl hahead hp
        have ha : (t.die d).arrays[m] = (a.swaps o).forgets o := harr
        refine ⟨t, hx, hends t q f 0 .done h rfl, h.record, ?_⟩
        rw [ha]
        exact a.completes_eq o
    · obtain ⟨t, hx, h, hres⟩ := State.engineOpError_spec (hn q f) hq hne hc
      have hr := h.record
      rw [if_neg hc] at hr
      exact ⟨t, hx, hends t q f _ .error h (herr _ hc), hr, fun h0 hm => ⟨_, (hres h0).1 hm, rfl, rfl, rfl, rfl, rfl⟩,
        fun h0 => (hres h0).2⟩
    · exact State.copyUnitCommit_spec ho hu hd hp
    · exact State.copyTagWaitLimit_spec ho hu
    · exact State.followOnIssue_spec
  · intro s d q o m x a n t k fmt r rows now first clear get row h1 h16 ho hwf hbad hz hfet herr hstop hleft hlt hdue u b v
    have hstep : u = s.runRows d q o r := State.stepCycle_due rfl hfet herr hstop hleft hlt hdue
    obtain ⟨y, hact, hrows⟩ := State.runRows_spec (s := s) (d := d) (q := q) (o := o) ho hbad hz r
    have hlt' : o.steps < r := by
      have h1 : o.steps < arrRows k o := hlt
      omega
    have hcan : a.Canonical := (Arr.wf_iff _).mp (DieStore.Canonical.arr ((Die.wf_iff_canonical x).mp hwf) m)
    rw [← hstep] at hact
    have hdie : u.die d = y := hact.die
    have hb : b = (x.rowsDone q o r).1 := by
      show ((u.die d).arrays)[m] = _
      rw [hdie, hrows.arrays]
      exact vset_same _ _ _
    have hv : v = t.write (x.rowsDone q o r).2.1 := by
      show ((u.die d).slots)[n] = _
      rw [hdie, hrows.slots]
      exact vset_same _ _ _
    have hof (k' : ArrKind) (hk : k = k') : b = (applyRows (x.feature 1) k' a t o (rowScales k' o fmt (x.rowScale o) r).1 r).1
        ∧ v = t.write (applyRows (x.feature 1) k' a t o (rowScales k' o fmt (x.rowScale o) r).1 r).2.1
        ∧ ∀ i, row i = streamRow t fmt (rowScales k' o fmt (x.rowScale o) r).1 (rowLen k' o) o.steps i := by
      have he := Die.rowsDone_of (x := x) (q := q) hk r
      refine ⟨hb.trans (congrArg Prod.fst he), hv.trans (congrArg (fun w : Arr × List (Nat × Byte) × Flg => t.write w.2.1) he), ?_⟩
      subst hk
      exact fun _ => rfl
    clear_value u b v
    refine ⟨⟨hact.mem, fun e he => hact.die_other he, fun j => ?_, fun p hp => ?_, fun p hp => ?_, ?_⟩, fun hk => ?_, fun hk => ?_,
      fun hk => ?_, fun hk hd => ?_, fun w hk hd => ?_, fun hk => ?_, fun w hk hd => ?_⟩
    · rw [hdie]
      unfold Die.bankByte
      rw [hrows.bank, hrows.folds]
    · rw [hdie, hrows.arrays]
      exact vset_other _ _ (Ne.symm hp)
    · rw [hdie, hrows.slots]
      exact vset_other _ _ (Ne.symm hp)
    · obtain ⟨p, hp, hsteps, hprog⟩ := hrows.op
      have hk : k ≠ .slot ∧ k ≠ .resume := by
        constructor
        · intro hk
          exact absurd (hk ▸ hlt : o.steps < arrRows .slot o) (Nat.not_lt_zero _)
        · intro hk
          exact absurd (hk ▸ hlt : o.steps < arrRows .resume o) (Nat.not_lt_zero _)
      have hw := applyRows_weights (d8 := x.feature 1) hcan hlt' hk hz (x.rowScale o)
      rw [hb]
      exact ⟨hw.1, hw.2, p, (hact.op q o.id).trans hp, hsteps.trans (Nat.max_eq_right hlt'.le), hprog⟩
    · obtain ⟨⟨-, hacc, hcnt⟩, hfmt, hread⟩ := applyRows_wld_spec (d8 := x.feature 1) (z := t) hcan hlt' (x.rowScale o)
      obtain ⟨hb', hv', hrow⟩ := hof .wld hk
      rw [hb', hv', applyRows_wld_out hlt', Slot.write_nil hz]
      refine ⟨rfl, hacc, hcnt, hfmt, fun i j hj => ?_⟩
      rw [hrow]
      exact hread i j hj
    · obtain ⟨-, hcnt, hfloat, hmet, hread⟩ := applyRows_feed_spec (d8 := x.feature 1) (z := t) hcan hlt' hk (x.rowScale o)
      obtain ⟨hb', hv', hrow⟩ := hof k rfl
      rw [hb', hv', applyRows_feed_out hlt' hk, Slot.write_nil hz]
      have hm : metricOf k o = if k = .dist then min 2 (o.va.extractLsb' 24 2).toNat else 0 := by
        unfold metricOf
        rw [bits_eq]
      rw [hm] at hmet hread
      exact ⟨rfl, hcnt, hfloat, hmet, hread⟩
    · obtain ⟨-, hfloat, hread⟩ := applyRows_cent_spec (d8 := x.feature 1) (z := t) hcan hlt'
        (rowScales .cent o fmt (x.rowScale o) r).1
      obtain ⟨hb', hv', -⟩ := hof .cent hk
      rw [hb', hv', applyRows_cent_out hlt', Slot.write_nil hz]
      exact ⟨rfl, hfloat, hread⟩
    · obtain ⟨hb', hv', -⟩ := hof k rfl
      obtain ⟨h1, h2⟩ := applyRows_drn_none (a := a) (z := t) (upto := r) hk hd (rowScales k o fmt (x.rowScale o) r).1
      rw [hb', hv', h1, h2, Slot.write_nil hz]
      exact ⟨rfl, rfl⟩
    · obtain ⟨hb', hv', -⟩ := hof .drn hk
      obtain ⟨-, hcnt, hacc, hout⟩ := applyRows_drn_spec (upto := r) hcan hd hz (rowScales .drn o fmt (x.rowScale o) r).1
      rw [hb', hv']
      exact ⟨hcnt, hacc, hout⟩
    · obtain ⟨hb', hv', -⟩ := hof .best hk
      obtain ⟨-, hcnt, hacc, hout⟩ := applyRows_best_spec (d8 := x.feature 1) (o := o) (upto := r) hcan hz
        (rowScales .best o fmt (x.rowScale o) r).1
      rw [hb', hv']
      exact ⟨hcnt, hacc, hout⟩
    · obtain ⟨hb', hv', -⟩ := hof .cdrn hk
      obtain ⟨-, hacc, hcnt, hout⟩ := applyRows_cdrn_spec (z := t) (upto := r) hcan hd (rowScales .cdrn o fmt (x.rowScale o) r).1
      rw [hb', hv', hout]
      exact ⟨hacc, hcnt, rfl⟩
  · intro s a p src after quiet answers turned goes hacc
    have hid : a.id = s.ev.id := State.acc_id hacc
    have hself := State.acc_self hacc
    have hgoes (t : State) (b r : RAcc) (h : s.SentAs t b) (hi : b.id = a.id) (hsrc : b.src = a.src) (hn : b.newPair = r.newPair)
        (hr : b.dest = r.dest ∧ b.inc = r.inc ∧ b.phys = r.phys ∧ b.len = r.len ∧ b.data = r.data) :
        goes t r ∧ after t fun c => c.resent = b.resent := by
      obtain ⟨hd, hm, hst, ⟨c, ord, hc, rfl⟩, hnext, hcom, htim⟩ := h
      obtain ⟨h1, h2, h3, h4, h5⟩ := hr
      rw [hi] at hc hcom
      rw [hi, hsrc] at htim
      rw [State.pair_newPair t hn, State.pair_newPair s hn] at hnext
      rw [State.pair_newPair s hn] at hc
      exact ⟨⟨⟨State.sameBytes_of_eq hd hm, hd, hm, hst⟩, ⟨_, hc, rfl, h1, h2, h3, h4, h5, rfl, rfl, rfl⟩, hnext, hcom, htim⟩, _, hc, rfl⟩
    have hanswers (u t : State) (b : RAcc) (ans : Answer) (h : u.AnswersAs t b ans) (hi : b.id = a.id) (hn : b.newPair = a.newPair)
        (hs : b.seq = a.seq) (hinc : u.destInc b = a.inc) :
        (t.pair a).commit = a.seq + 1 ∧ after t fun c => c.st = .answered ∧ c.ansInc = a.inc ∧ c.ans = ans ∧ c.data = b.data := by
      have hp := h.pair
      have hc := h.acc
      rw [State.pair_newPair t hn, hs] at hp
      rw [hi, hinc] at hc
      exact ⟨congrArg Pair.commit hp, _, hc, rfl, rfl, rfl, rfl⟩
    refine ⟨fun o v w off b hf ho hp hb hl => ?_, fun o hf he ho hp => ?_, fun hst => ?_, fun hor hst hinc => ?_, fun hor => ?_,
      fun hout hat hall i hd => ?_, fun h => ?_⟩
    · intro r
      refine ⟨fun hst => ?_, fun hst hd => ?_⟩
      · have hx := State.sendAcc_die State.fetchFails hf ho hp hb hl
        have hs := State.putOut_sent (a := r) hself
        exact ⟨_, (State.exec_remoteAccessSend hacc hst).trans (congrArg _ hx), (hgoes _ r r hs rfl rfl rfl ⟨rfl, rfl, rfl, rfl, rfl⟩).1⟩
      · have hx := State.sendAcc_die (a := a.again) State.fetchFails hf ho hp hb hl
        have hs := State.putOut_sent (a := { a.again with dest := .die b.phys, inc := b.inc }) hself
        exact ⟨_, (State.exec_retryAfterExpiry hacc hst hd).trans (congrArg _ hx),
          hgoes _ _ r hs rfl rfl rfl ⟨rfl, rfl, rfl, rfl, rfl⟩⟩
    · intro look
      refine ⟨fun hst hfix hlook hheld => ?_, fun e hlook hl => ?_⟩
      · exact (State.exec_remoteAccessSend hacc hst).trans (congrArg _ (State.sendAcc_walk _ hf hfix hlook hheld))
      · intro i n r splits
        have hsplits (t : State) (h : e.rest a.far < a.len → a.id ≠ s.fresh → s.splitRest a n ∈ t.panel.raccs) : splits t :=
          fun h1 h2 => ⟨_, h h1 h2, rfl, rfl, rfl, rfl, rfl, rfl, rfl⟩
        refine ⟨fun hst hfix => ?_, fun hst hd => ?_⟩
        · obtain ⟨hs, hrest⟩ := State.sendAcc_stack_sent State.fetchFails hself rfl hf he ho hp hfix hlook hl
          exact ⟨_, State.exec_remoteAccessSend hacc hst, (hgoes _ _ r hs rfl rfl rfl ⟨rfl, rfl, rfl, rfl, rfl⟩).1, hsplits _ hrest⟩
        · obtain ⟨hs, hrest⟩ := State.sendAcc_stack_sent (a := a.again) State.fetchFails hself rfl hf he ho hp rfl hlook hl
          obtain ⟨hg, hagain⟩ := hgoes _ _ r hs rfl rfl rfl ⟨rfl, rfl, rfl, rfl, rfl⟩
          exact ⟨_, State.exec_retryAfterExpiry hacc hst hd, hg,
            fun h1 h2 => ⟨_, hrest h1 h2, rfl, rfl, rfl, rfl, rfl, rfl, rfl⟩, hagain⟩
    · refine ⟨fun i hd hfit hinc => ?_, fun q hd hserv => ?_⟩
      · have hx := State.exec_remoteAccessCommit_stack hacc hst hd hfit hinc
        have hbehind : s.behind a = true ↔ a.heard < p.refused := State.behind_iff
        have hdest : s.destInc a = a.inc := by
          unfold State.destInc
          rw [hd, hinc]
        have hturned (u t : State) (h : u.TurnsAway t i a) (hd : u.dies = s.dies) (hm : u.mem = s.mem)
            (hs : u.stations = s.stations) : turned t i := by
          obtain ⟨h1, h2, h3, h4, h5⟩ := h
          have hi : u.station i = s.station i := congrArg (fun v : Vector Station 128 => v[i]) hs
          rw [hi] at h3 h5
          exact ⟨h1.trans hd, h2.trans hm, h3, congrArg Pair.commit h4, _, h5, rfl, rfl, rfl⟩
        refine ⟨fun hs => ?_, fun hs hr => ?_, fun hs hr hm => ?_, fun hs hr hm => ?_⟩
        · rw [if_pos (Ne.symm hs)] at hx
          refine ⟨_, hx, ⟨State.sameBytes_of_eq rfl rfl, rfl, rfl, rfl⟩, _, (State.acc_modAcc s a.id (fun a => { a with st := .arrived }) fun _ h => h).trans
            (congrArg (Option.map fun a => { a with st := .arrived }) hself), rfl⟩
        · rw [if_neg (fun h => h hs.symm), if_pos (hbehind.mpr hr)] at hx
          have ht := State.stationRefuses_spec hself hd hinc
          exact ⟨_, hx, hturned s _ ht rfl rfl rfl, (congrArg Pair.refused ht.pair).trans rfl⟩
        · rw [if_neg (fun h => h hs.symm), if_neg (mt hbehind.mp (Nat.not_lt.mpr hr))] at hx
          have ht := State.atStation_migrates hself hd hinc hm
          have hp := State.pair_setPair s { s.pair a with refused := (s.pair a).refused + 1 } a (s.pair_same a)
          refine ⟨_, hx, hturned _ _ ht rfl rfl rfl, (congrArg Pair.refused ht.pair).trans ?_⟩
          rw [hp]
        · rw [if_neg (fun h => h hs.symm), if_neg (mt hbehind.mp (Nat.not_lt.mpr hr))] at hx
          obtain ⟨hload, hbad, hstore, hsig⟩ := State.atStation_performs hm
          refine ⟨fun hk hb => ?_, fun hk hb => ?_, fun hk hw => ?_, fun hk => ?_⟩
          · rw [hload hk hb] at hx
            have ha := State.answerAcc_spec (a := { a with data := s.readMem a.phys a.len }) hself .ack
            obtain ⟨h1, c, h2, h3, h4, h5, h6⟩ := hanswers s _ _ _ ha rfl rfl rfl hdest
            exact ⟨_, hx, ⟨State.sameBytes_of_eq ha.dies ha.mem, ha.dies, ha.mem, ha.stations⟩, h1, c, h2, h3, h4, h5, h6⟩
          · rw [hbad hk hb] at hx
            have ha := State.answerAcc_spec hself .badEcc
            obtain ⟨h1, c, h2, h3, h4, h5, -⟩ := hanswers s _ _ _ ha rfl rfl rfl hdest
            exact ⟨_, hx, ⟨State.sameBytes_of_eq ha.dies ha.mem, ha.dies, ha.mem, ha.stations⟩, h1, c, h2, h3, h4, h5⟩
          · rw [hstore hk] at hx
            obtain ⟨hdies, hstat, hpanel, hread⟩ := State.mem_storeAtStack hw a.phys a.data
            have ha := State.answerAcc_spec (s := s.writeMem a.phys a.data) ((State.acc_of_panel hpanel a.id).trans hself) .ack
            have hdest' : (s.writeMem a.phys a.data).destInc a = a.inc := by
              rw [← hdest]
              unfold State.destInc State.die State.station
              rw [hdies, hstat]
            obtain ⟨h1, c, h2, h3, h4, h5, -⟩ := hanswers _ _ _ _ ha rfl rfl rfl hdest'
            refine ⟨_, hx, ha.dies.trans hdies, ⟨h1, c, h2, h3, h4, h5⟩, fun y => ?_⟩
            rw [ha.mem]
            exact hread y
          · rw [hsig hk] at hx
            have ha := State.answerAcc_spec hself .refuse
            obtain ⟨h1, c, h2, h3, h4, h5, -⟩ := hanswers s _ _ _ ha rfl rfl rfl hdest
            exact ⟨_, hx, ⟨State.sameBytes_of_eq ha.dies ha.mem, ha.dies, ha.mem, ha.stations⟩, h1, c, h2, h3, h4, h5⟩
      · have hx := State.exec_remoteAccessCommit_die hacc hst hd hserv
        refine ⟨fun hinc => ?_, fun v w hinc hs hr hf hk => ?_⟩
        · rw [if_pos hinc] at hx
          exact hx
        · rw [if_neg (fun h => h hinc), if_neg (fun h => h hs.symm), if_neg (mt State.behind_iff.mp (Nat.not_lt.mpr hr)),
            State.atDie_fold hf hk] at hx
          have hdest : (s.foldEvt q w (.add (natOfBytes a.data))).destInc a = a.inc := by
            unfold State.destInc
            rw [hd, hinc]
            exact (congrArg Die.incarnation (State.die_modDie s q _)).trans rfl
          have ha := State.answerAcc_spec (s := s.foldEvt q w (.add (natOfBytes a.data))) hself .ack
          obtain ⟨h1, c, h2, h3, h4, h5, -⟩ := hanswers _ _ _ _ ha rfl rfl rfl hdest
          refine ⟨_, hx, ha.mem, ?_, h1, c, h2, h3, h4, h5⟩
          refine (congrArg (fun v : Vector Die 128 => (v[q]).foldEvts) ha.dies).trans ?_
          exact congrArg Die.foldEvts (State.die_modDie s q _)
    · refine ⟨fun n hn => ?_, fun o c k hk hs he hkind ho hrun herr hab hr hlast => ?_⟩
      · obtain ⟨hm, hb, hc, hh, hp, hc'⟩ := State.replyRetry_spec hself n
        exact ⟨_, (State.exec_remoteReplyArrival hacc hor hst hinc).2 n hn, hm, hb, ⟨_, hc, rfl, rfl⟩, hh, hp, hc'⟩
      · obtain ⟨hc, hm, hb, hag⟩ := State.replyAck_last hs he hkind ho hrun herr hab hr hlast
        exact ⟨_, (State.exec_remoteReplyArrival hacc hor hst hinc).1 hk, hc, hm, hb, hag⟩
    · exact State.remoteReplyArrival_orphan hacc hor
    · obtain ⟨t, hx, hb, hm, hl, ho⟩ := State.remoteTimeout_stack hacc hout hat hall hd
      exact ⟨t, hx, hb, hm, hl, ho⟩
    · exact State.remoteTimeout_settled hacc h

end Sys2Proof.Machine
end
